-- ==== Sys2Proof/Word.lean ====
section
/-!
DEFINITION. The word types of the DW940 model and the plainest arithmetic on them (spec/00_scope.md R9, R10).
-/

namespace Sys2Proof

/-- One byte of memory, of a core buffer or of a payload. -/
abbrev Byte := BitVec 8

/-- The contents of one register, 64 bits wide (R10). -/
abbrev Word64 := BitVec 64

/-- Bits [hi:lo] of a number, bit 0 the least significant (R9). -/
def bits (w hi lo : Nat) : Nat := (w / 2 ^ lo) % 2 ^ (hi + 1 - lo)

/-- One bit of a number. -/
def bit (w i : Nat) : Bool := (w / 2 ^ i) % 2 == 1

/-- A flag as the bit it is shown as. -/
def b2n (b : Bool) : Nat := if b then 1 else 0

/-- The number ceil(n / d). -/
def ceilDiv (n d : Nat) : Nat := (n + d - 1) / d

/-- n rounded up to a multiple of d. -/
def roundUp (n d : Nat) : Nat := ceilDiv n d * d

/-- The two's-complement reading of an n-bit number. -/
def signed (n w : Nat) : Int := if w % 2 ^ n < 2 ^ (n - 1) then (w % 2 ^ n : Nat) else ((w % 2 ^ n : Nat) : Int) - 2 ^ n

/-- The n-bit two's-complement code of an integer. -/
def twos (n : Nat) (i : Int) : Nat := (i % (2 ^ n : Int)).toNat

/-- The little-endian bytes of a number, n of them (R9). -/
def leBytes (n w : Nat) : List Byte := (List.range n).map fun i => BitVec.ofNat 8 (w / 2 ^ (8 * i))

/-- The number that little-endian bytes spell (R9). -/
def ofLe : List Byte → Nat
  | [] => 0
  | b :: bs => b.toNat + 256 * ofLe bs

end Sys2Proof
end

