-- ==== Sys2Proof/Syntax.lean ====
section
/-!
DEFINITION. The commands of the DW940: one constructor of Instr per row of spec/opcode_table.json, with the row's operands.
The operand records follow the descriptor and message layouts of the chapters named at each.
-/

namespace Sys2Proof

/-- The common header of a descriptor (R273), with the queue, ring index and generation (its SEAL, R274) of the entry, and
the step stamp of R287. -/
structure Hdr where
  queue    : Nat
  index    : Nat
  ext      : Nat := 0
  crit     : Bool := false
  system   : Bool := false
  quiet    : Bool := false
  ordered  : Bool := false
  armed    : Bool := false
  userTag  : Nat := 0
  datum    : Nat := 0
  deadline : Nat := 0
  stamp    : Nat := 0
  gen      : Nat := 0
  deriving DecidableEq, Repr

/-- The trailer of a critical command (R298) and the message its TAG is computed over: the queue number and slots 0 to EXT
with SEAL and TAG taken as zero. reserved says that an UNLOCK's OP is 4 to 7, which R447 gives no operation. -/
structure Trailer where
  counter : Nat
  keyNum  : Nat
  tag     : List Byte
  message : List Byte
  reserved : Bool := false
  deriving DecidableEq, Repr

/-- IMAGE_LOAD, TWIN_TAKEOVER, TN_HANDBACK: where the Cartouche lies (R331, R400, R405). dropPending is ALLOW_TORN in a takeover. -/
structure LoadOp where
  srcDa       : Nat
  srcLen      : Nat
  dropPending : Bool := false
  checkOnly   : Bool := false
  deriving DecidableEq, Repr

/-- TW_MATMUL and TW_DRAIN (R128). -/
structure MatmulOp where
  core      : Nat
  arr       : Bool := false
  acc       : Bool := false
  indep     : Bool := false
  drain     : Bool := false
  wReuse    : Bool := false
  tile      : Nat := 0
  wSpec     : Nat := 0
  aSpec     : Nat := 0
  oSpec     : Nat := 0
  k         : Nat := 1
  n         : Nat := 1
  m         : Nat := 1
  anchor    : Int := 0
  wOff      : Nat := 0
  aOff      : Nat := 0
  aStride   : Nat := 0
  oOff      : Nat := 0
  oStride   : Nat := 0
  wScaleOff : Nat := 0
  aScaleOff : Nat := 0
  oScaleOff : Nat := 0
  deriving DecidableEq, Repr

/-- TW_MAX and TW_MIN (R144). -/
structure MaxOp where
  core      : Nat
  abs       : Bool := false
  sSpec     : Nat
  sOff      : Nat
  sScaleOff : Nat := 0
  segLen    : Nat
  segs      : Nat
  oOff      : Nat
  indexBase : Nat := 0
  deriving DecidableEq, Repr

/-- MU_GATHER (R174) and, with the readings of R196, MU_GRAD_SCATTER: kind is OUT_KIND or IN_KIND, spec is O_SPEC or G_SPEC,
and so on. -/
structure GatherOp where
  engine    : Nat
  kind      : Nat := 0
  poisonMap : Bool := false
  table     : Nat
  spec      : Nat
  stream    : Nat := 0
  stride    : Nat
  nIdx      : Nat
  nBags     : Nat
  idxDa     : Nat
  offsDa    : Nat
  wtDa      : Nat := 0
  addr      : Nat
  pDa       : Nat := 0
  scaleAddr : Nat := 0
  deriving DecidableEq, Repr

/-- MU_LEDGER_ADD (R198). -/
structure LedgerAddOp where
  engine    : Nat
  remote    : Bool := false
  lMuslin   : Nat
  sSpec     : Nat
  dev       : Nat := 0
  nElem     : Nat
  anchor    : Int
  sAddr     : Nat
  la        : Nat
  sScaleAddr : Nat := 0
  deriving DecidableEq, Repr

/-- MU_OPT_DENSE (R237). -/
structure OptDenseOp where
  muslin      : Nat
  mode        : Nat := 0
  deriveOnly  : Bool := false
  ratio       : Bool := false
  pset        : Nat := 0
  wkSpec      : Nat
  layer       : Nat := 0
  step        : Nat := 0
  la          : Nat := 0
  rowsN       : Nat
  colsN       : Nat
  masterDa    : Nat
  paramDa     : Nat
  workDa      : Nat
  workScaleDa : Nat
  gDa         : Nat
  gScaleDa    : Nat
  eDa         : Nat
  m1Da        : Nat
  m1ScaleDa   : Nat
  stateDa     : Nat
  vrDa        : Nat := 0
  vrScaleDa   : Nat := 0
  vcDa        : Nat := 0
  vcScaleDa   : Nat := 0
  bandLo      : Nat := 0
  bandHi      : Nat := 0x7C00
  deriving DecidableEq, Repr

/-- ST_REARM (R262): pieces are (DA, length) pairs in piece order; badPieces says that PIECES is 5 to 7. -/
structure RearmOp where
  stream  : Nat
  set     : Bool := false
  restart : Bool := false
  wrap    : Bool := false
  seg     : Nat := 0
  pieces  : List (Nat × Nat) := []
  badPieces : Bool := false
  deriving DecidableEq, Repr

/-- RG_PUT and RG_GET (R383). -/
structure RingOp where
  dev        : Nat
  streamMode : Bool := false
  stream     : Nat := 0
  srcDa      : Nat
  dstDa      : Nat
  len        : Nat
  deriving DecidableEq, Repr

/-- TN_SNAPSHOT (R406). -/
structure SnapOp where
  dest     : Nat
  rows     : Bool
  nTensors : Nat
  dstDa    : Nat
  dstLen   : Nat
  listDa   : Nat
  deriving DecidableEq, Repr

/-- A Gauze message, or one flit of it: the control word of R34 and the payload. byteEn holds one enable bit per payload byte; a byte past
its end is enabled. kind and the link fields lseq to crc belong to a flit on a link, where every hop writes them anew; status is the STATUS
that a COMPLETION carries; via is the die that forwarded the message, where it waits (R164); beyond is the ring device that a message to a
link die is for, and the die there, which the link die puts into the ring header (R363, R370). -/
structure Flit where
  op      : Nat
  tc      : Nat
  dst     : Nat
  src     : Nat
  panel   : Nat := 0
  tag     : Nat := 0
  da      : Nat := 0
  plen    : Nat := 0
  mgroup  : Nat := 0
  oparg   : Nat := 0
  status  : Nat := 0
  payload : List Byte := []
  byteEn  : List Bool := []
  kind    : Nat := 0
  lseq    : Nat := 0
  lack    : Nat := 0
  cretTc  : Nat := 0
  cretN   : Nat := 0
  crc     : Nat := 0
  via     : Option Nat := none
  beyond  : Option (Nat × Nat) := none
  deriving DecidableEq, Repr

/-- An ATOMIC_ADD message (R190): its class, its OPARG fields and its payload words, signed; via and beyond as in a Flit (R189, R208,
R370). -/
structure AddMsg where
  dst     : Nat
  src     : Nat
  tag     : Nat
  panel   : Nat := 0
  da      : Nat
  anchor  : Int
  count   : Nat := 1
  dense   : Bool
  fwd     : Bool := false
  table   : Nat := 0
  stepTag : Nat
  words   : List Int
  tc      : Nat := 2
  via     : Option Nat := none
  beyond  : Option (Nat × Nat) := none
  deriving DecidableEq, Repr

/-- Who issues a register write or an access: what R15, R341, R351, R453 and R486 tell apart. -/
inductive Agent where
  | host       -- the outer host, over CXL.mem or BAR0
  | mMode      -- Walnath firmware on cores 0 to 7 in M-mode
  | sMode      -- Walnath firmware in S-mode
  | uMode      -- customer code on cores 8 to 47
  | selvage    -- the Selvage controller
  | device     -- another unit of the package
  deriving DecidableEq, Repr

/-- An IDENT frame (R368, R390): the sender's numbers, port, pair state and replay state. -/
structure IdentFrame where
  self      : Nat
  epos      : Nat
  npos      : Nat
  port      : Nat
  keeps     : Bool
  rack      : Nat
  twin      : Nat := 0
  pairId    : Bool := false
  pairState : Nat := 0
  lanes     : Nat := 32
  deriving DecidableEq, Repr

/-- What a ring frame tells of the opposite direction (R363): RACK and the credit return. -/
structure RingRet where
  rack : Nat := 0
  tc   : Nat := 0
  vl   : Nat := 0
  n    : Nat := 0
  deriving DecidableEq, Repr

/-- An IDLE ring frame that a link die receives (R363). -/
structure IdleFrame where
  die : Nat
  ret : RingRet := {}
  deriving DecidableEq, Repr

/-- A FLIT ring frame (R363) with the Gauze flit it carries; of a message of several flits, all its frames, rseq being the first one's. -/
structure RingFrame where
  dstDev : Nat
  srcDev : Nat
  rDie   : Nat
  vl     : Nat
  tc     : Nat
  rseq   : Nat
  flit   : Flit
  ret    : RingRet := {}
  crc    : Nat := 0
  deriving DecidableEq, Repr

/-- A step token (R379). -/
structure Token where
  kind : Nat
  dev  : Nat
  aux  : Nat
  step : Nat
  orig : Nat := 0
  deriving DecidableEq, Repr

/-- A journal record (R393) with its payload as sent. -/
structure JRec where
  muslin  : Nat
  z       : Bool := false
  ulen    : Nat := 0
  holding : Nat
  step    : Nat
  offset  : Nat := 0
  jseq    : Nat
  payload : List Byte := []
  deriving DecidableEq, Repr

/-- A unit as a completion record names it (R288): SRC_DIE and UNIT; also a party of a reclaim (R425). -/
structure UnitId where
  die  : Nat
  unit : Nat
  deriving DecidableEq, Repr

/-- What the environment settles in a bring-up (R478, R479): which dies, links, stacks and far ports come up, the boot checks'
results (R449), and what the ports find. -/
structure BringUp where
  vauxRise     : Bool := true
  resetNHigh   : Bool := true
  refclkA      : Bool := true
  vin12        : Bool := true
  refclkB      : Bool := true
  svclkOk      : Bool := true
  variantStrap : Nat := 0
  pairIdStrap  : Bool := false
  factory      : Bool := false
  pufOk        : Bool := true
  manifestOk   : Bool := true
  skewickOk    : Bool := true
  firmwareOk   : Bool := true
  fwVersion    : Nat := 0
  noLock       : List Nat := []
  badLinks     : List (Nat × Nat) := []
  badStacks    : List Nat := []
  badLoopback  : List Nat := []
  farLink      : List (Nat × Nat) := []
  farExpanders : List (Nat × Nat) := []
  farGib       : List (Nat × Nat) := []
  dirLost      : List Nat := []
  deriving DecidableEq, Repr

/-- The commands of the block: descriptors run by their units, step-program instructions, queue-manager steps, register writes
with a behaviour of their own, host and core accesses, management-bus transfers, Gauze messages, and events. One constructor per row
of spec/opcode_table.json; the rule at each is the row's. -/
inductive Instr where
  /-- NOP, R296. -/
  | nop (h : Hdr)
  /-- FENCE, R295. -/
  | fence (h : Hdr) (far remote panel : Bool)
  /-- INLINE_WRITE, R297. -/
  | inlineWrite (h : Hdr) (da len : Nat) (payload : List Byte)
  /-- SQ_RUN, R348. -/
  | sqRun (h : Hdr) (count : Nat)
  /-- SQ_STOP, R348. -/
  | sqStop (h : Hdr)
  /-- IMAGE_LOAD, R333. -/
  | imageLoad (h : Hdr) (t : Trailer) (op : LoadOp)
  /-- COMMIT_POINT, R334. -/
  | commitPoint
  /-- QUOTA_SET, R338. -/
  | quotaSet (h : Hdr) (t : Trailer) (panel what tier muslin value : Nat)
  /-- DEBUG_ON, R447. -/
  | debugOn (h : Hdr) (t : Trailer)
  /-- LOCK_SET, R447. -/
  | lockSet (h : Hdr) (t : Trailer)
  /-- LOCK_CLEAR, R447. -/
  | lockClear (h : Hdr) (t : Trailer)
  /-- ALMANAC_WRITE, R447. -/
  | almanacWrite (h : Hdr) (t : Trailer) (id version len : Nat) (data : List Byte)
  /-- FW_UPDATE_START, R451. The body the source range holds matches the readback unless readbackBad. -/
  | fwUpdateStart (h : Hdr) (t : Trailer) (srcDa srcLen : Nat) (readbackBad : Bool)
  /-- BYPASS_FORCE_CLOSE, R373. -/
  | bypassForceClose (h : Hdr) (t : Trailer)
  /-- BYPASS_FORCE_RELEASE, R373. -/
  | bypassForceRelease (h : Hdr) (t : Trailer)
  /-- TWIN_TAKEOVER, R402. -/
  | twinTakeover (h : Hdr) (t : Trailer) (op : LoadOp)
  /-- KEY_AGREE, R444. -/
  | keyAgree (h : Hdr) (slot keyNum agreeCtr ctDa sigDa : Nat)
  /-- KEY_RETIRE, R445. -/
  | keyRetire (h : Hdr) (slot : Nat)
  /-- QUOTE, R446. -/
  | quote (h : Hdr) (outDa outLen : Nat) (cert : Bool) (nonce : List Byte)
  /-- OWNER_SET, R443. -/
  | ownerSet (h : Hdr) (keyDa sigDa agreeCtr : Nat)
  /-- TW_MATMUL, R128. -/
  | twMatmul (h : Hdr) (op : MatmulOp)
  /-- TW_DRAIN, R129. -/
  | twDrain (h : Hdr) (op : MatmulOp)
  /-- TW_MAX, R145. -/
  | twMax (h : Hdr) (op : MaxOp)
  /-- TW_MIN, R145. -/
  | twMin (h : Hdr) (op : MaxOp)
  /-- MU_GATHER, R174. -/
  | muGather (h : Hdr) (op : GatherOp)
  /-- MU_GRAD_SCATTER, R196. -/
  | muGradScatter (h : Hdr) (op : GatherOp)
  /-- MU_LEDGER_ADD, R198. -/
  | muLedgerAdd (h : Hdr) (op : LedgerAddOp)
  /-- MU_SEAL, R199. -/
  | muSeal (h : Hdr) (muslin expectStep : Nat)
  /-- SEAL_TAKES_EFFECT, R200. -/
  | sealTakesEffect (muslin : Nat)
  /-- MU_MIGRATE, R211. -/
  | muMigrate (h : Hdr) (muslin table row targetDa : Nat)
  /-- MU_ROW_RESTORE, R216. -/
  | muRowRestore (h : Hdr) (muslin : Nat) (keepPending : Bool) (table row srcDa : Nat)
  /-- MU_OPT_DENSE, R237. -/
  | muOptDense (h : Hdr) (op : OptDenseOp)
  /-- MU_OPT_CLOSE, R239. -/
  | muOptClose (h : Hdr) (muslin panel expectStep paramDa : Nat)
  /-- BANK_RELEASE, R202. -/
  | bankRelease (muslin : Nat)
  /-- ST_REARM, R263. -/
  | stRearm (h : Hdr) (op : RearmOp)
  /-- ST_RELEASE, R263. -/
  | stRelease (h : Hdr) (stream core bytes : Nat)
  /-- RG_PUT, R383. -/
  | rgPut (h : Hdr) (op : RingOp)
  /-- RG_GET, R383. -/
  | rgGet (h : Hdr) (op : RingOp)
  /-- TN_SNAPSHOT, R406. -/
  | tnSnapshot (h : Hdr) (op : SnapOp)
  /-- TN_HANDBACK, R405. -/
  | tnHandback (h : Hdr) (op : LoadOp)
  /-- POST, R344. -/
  | post (prog r : Nat) (patch arm : Bool) (queue slot ctr : Nat)
  /-- WAIT, R344. -/
  | wait (prog ctr target : Nat)
  /-- FIRE, R344. -/
  | fire (prog : Nat)
  /-- AMAX, R344. -/
  | amax (prog x core n off : Nat)
  /-- AMAXD, R344. -/
  | amaxd (prog x da : Nat)
  /-- ANCHOR, R344. -/
  | anchor (prog r x1 x2 : Nat)
  /-- SEAL, R344. -/
  | sealPoint (prog : Nat)
  /-- END, R344. -/
  | endProg (prog : Nat)
  /-- STEP_START, R346. -/
  | stepStart
  /-- SEAL_GATE, R380. -/
  | sealGate
  /-- CLOSE_PART, R346. -/
  | closePart
  /-- STEP_END, R346. -/
  | stepEnd
  /-- DESCRIPTOR_FETCH, R280. -/
  | descriptorFetch (queue : Nat)
  /-- SEAL_REREAD, R280. -/
  | sealReread (queue : Nat)
  /-- DISPATCH, R284; starved when the head has waited 4,096 CCLK. -/
  | dispatch (queue : Nat) (starved : Bool)
  /-- DOORBELL, R279. -/
  | doorbell (queue : Nat) (value : Word64)
  /-- RESUME, R281: a write of CM.QCTL, for the queue CM.QSEL names. -/
  | resume (value : Word64)
  /-- RHEAD, R289: a write of CM.RHEAD, for the ring CM.RSEL names. -/
  | rhead (value : Word64)
  /-- SWAP, R39: a write of GZ.CTL on a die. -/
  | swap (die : Nat) (value : Word64)
  /-- TC_CREDIT_WRITE, R45. -/
  | tcCreditWrite (die : Nat) (agent : Agent) (value : Word64)
  /-- REJOIN, R320: a write of GZ.MC_CTL on a source die. -/
  | rejoin (die : Nat) (value : Word64)
  /-- DATUM_CTL_FIRE, R60. -/
  | datumCtlFire
  /-- RESYNC, R63; fire when the same write sets FIRE. -/
  | resync (fire : Bool)
  /-- CK_PLAN_WRITE, R55. -/
  | ckPlanWrite (die : Nat) (agent : Agent) (value : Word64)
  /-- COUNTER_CLEAR, R430: a write of zero to the counter register at an offset of a die's block. -/
  | counterClear (die off : Nat)
  /-- DIR_LOOKUP, R217: a write of MU.DIR_CTL. -/
  | dirLookup (die : Nat) (value : Word64)
  /-- FAULT_CLEAR, R421. -/
  | faultClear (i : Nat) (value : Word64)
  /-- FW_CONFIRM, R453. -/
  | fwConfirm (agent : Agent) (value : Word64)
  /-- PANEL_RST, R485. -/
  | panelRst (value : Word64)
  /-- PER_PANEL_RESET, R485. -/
  | perPanelReset (panel : Nat)
  /-- WARM_REQ, R477. -/
  | warmReq (agent : Agent) (value : Word64)
  /-- MBOX_GO, R353: a write of HL.MBOX_CTL. -/
  | mboxGo (value : Word64)
  /-- HSTREAM_FILL, R355. -/
  | hstreamFill (value : Word64)
  /-- TOKEN_IN, R379: a token delivered to a link die or to CMD. -/
  | tokenIn (die : Nat) (tok : Token)
  /-- SNAP_HOST_REL, R409. -/
  | snapHostRel (value : Word64)
  /-- CT_CTL_WRITE, R463. -/
  | ctCtlWrite (value : Word64)
  /-- INJECT, R433. -/
  | inject (value : Word64)
  /-- REG_WRITE, R15: a register write with its byte mask. -/
  | regWrite (die off : Nat) (agent : Agent) (mask : Nat) (value : Word64)
  /-- HOST_READ, R351; bar when over BAR0 (R352). -/
  | hostRead (bar : Bool) (addr len : Nat)
  /-- HOST_WRITE, R351; bar when over BAR0. -/
  | hostWrite (bar : Bool) (addr : Nat) (data : List Byte)
  /-- CORE_LOAD, R341. -/
  | coreLoad (core : Nat) (agent : Agent) (da len : Nat)
  /-- CORE_STORE, R341. -/
  | coreStore (core : Nat) (agent : Agent) (da : Nat) (data : List Byte)
  /-- CORE_FENCE, R341. -/
  | coreFence (core : Nat)
  /-- PRIVATE_WRITE, R500. -/
  | privateWrite (data : List Byte)
  /-- PRIVATE_READ, R500. -/
  | privateRead
  /-- ENTDAA, R499. -/
  | entdaa (dyn : Nat)
  /-- SETDASA, R499. -/
  | setdasa (static dyn : Nat)
  /-- RSTDAA, R499. -/
  | rstdaa
  /-- GETPID, R499. -/
  | getpid
  /-- GETBCR, R499. -/
  | getbcr
  /-- GETDCR, R499. -/
  | getdcr
  /-- GETSTATUS, R499. -/
  | getstatus
  /-- ENEC, R501. -/
  | enec (ibi : Bool)
  /-- DISEC, R501. -/
  | disec (ibi : Bool)
  /-- READ, R164. -/
  | read (f : Flit)
  /-- WRITE, R309. -/
  | write (f : Flit)
  /-- ATOMIC_ADD, R191. -/
  | atomicAdd (m : AddMsg)
  /-- READ_RESP, R305. -/
  | readResp (f : Flit)
  /-- WRITE_ACK, R190. -/
  | writeAck (f : Flit)
  /-- COMPLETION, R291. -/
  | completion (f : Flit)
  /-- REG_RESP, R305. -/
  | regResp (f : Flit)
  /-- MCAST_DATA, R317. -/
  | mcastData (f : Flit)
  /-- SOUNDING, R73. -/
  | sounding (f : Flit)
  /-- BACKGROUND_MOVE, R36. -/
  | backgroundMove (f : Flit)
  /-- CREDIT, R303. -/
  | credit (die port tc n : Nat)
  /-- FLIT_CRC_ERROR, R33: again when the same flit fails another replay. -/
  | flitCrcError (die port : Nat) (again : Bool)
  /-- LANE_REPAIR_EXHAUSTED, R32. -/
  | laneRepairExhausted (die port : Nat)
  /-- MOVE_START, R208. -/
  | moveStart (owner table row : Nat)
  /-- MOVE_DONE, R208. -/
  | moveDone (owner table row : Nat)
  /-- SWITCH, R208. -/
  | switchMsg (owner table row : Nat)
  /-- MIGRATION_MOVING, R208. -/
  | migrationMoving (owner table row : Nat)
  /-- MIGRATION_ABANDON, R208. -/
  | migrationAbandon (owner table row : Nat)
  /-- FORWARDING_END, R208. -/
  | forwardingEnd (owner table row : Nat)
  /-- SHADOW_ENTRY_VALID, R181. -/
  | shadowEntryValid (owner table row : Nat)
  /-- SHADOW_INVALIDATION, R183. -/
  | shadowInvalidation (die owner table row : Nat)
  /-- PATCH_REQUEST, R399. -/
  | patchRequest (table row : Nat)
  /-- PATCH_ANSWER, R215. -/
  | patchAnswer (owner table row : Nat) (record : List Byte) (poisoned : Bool)
  /-- PATCH_TIMEOUT, R215. -/
  | patchTimeout (owner table row : Nat)
  /-- YIELD, R404. -/
  | yield
  /-- SCRUB_READ, R266: the next sector of stack h of a Muslin die, or of a stash die. -/
  | scrubRead (die half : Nat)
  /-- REFRESH, R267. -/
  | refresh (stack bank : Nat)
  /-- DEADLINE_EXPIRY, R68. -/
  | deadlineExpiry (queue index : Nat)
  /-- STEP_BUDGET_EXPIRY, R70. -/
  | stepBudgetExpiry (prog : Nat)
  /-- STALL_BUDGET_EXPIRY, R71. -/
  | stallBudgetExpiry (stream : Nat)
  /-- STALL_ARBITER_DECISION, R316. -/
  | stallArbiterDecision
  /-- MC_DETACH, R319. -/
  | mcDetach (group : Nat)
  /-- DATUM_EDGE, R58: bad lists the dies whose DCHK comparison fails, or which see a DSTB change that CMD did not make. -/
  | datumEdge (bad : List Nat)
  /-- PLL_LOSS_OF_LOCK, R56. -/
  | pllLossOfLock (die : Nat)
  /-- SEND_SENT, R380. -/
  | sendSent
  /-- SEND_OPEN, R380. -/
  | sendOpen
  /-- SENT, R377. -/
  | sent (dev step : Nat)
  /-- OPEN, R377. -/
  | openTok (dev step : Nat)
  /-- TOPO, R377: from originator orig with its change count. -/
  | topo (dev aux orig count : Nat)
  /-- ALIAS, R377. -/
  | aliasTok (dev target : Nat)
  /-- TOKEN_WAIT_EXPIRY, R381. -/
  | tokenWaitExpiry
  /-- IDENT, R368. -/
  | ident (die : Nat) (f : IdentFrame)
  /-- FLIT_FRAME, R370. -/
  | flitFrame (die : Nat) (f : RingFrame)
  /-- IDLE, R363. -/
  | idle (f : IdleFrame)
  /-- UNCORRECTABLE_CODEWORD, R362. -/
  | uncorrectableCodeword (die : Nat)
  /-- RING_LANE_FAILURE, R365. -/
  | ringLaneFailure (die lane : Nat)
  /-- LOSS_OF_SIGNAL, R375. -/
  | lossOfSignal (die : Nat)
  /-- SIGNAL_DETECTED, R375. -/
  | signalDetected (die : Nat)
  /-- TRAINING_FAILURE, R375. -/
  | trainingFailure (die : Nat)
  /-- BROKEN_RETRY, R375. -/
  | brokenRetry (die : Nat)
  /-- REMOTE_TIMEOUT, R384. -/
  | remoteTimeout (die tag : Nat)
  /-- BYPASS_CAUSE, R372: cause is the row of R372, dim 0 Easting, 1 Northing (the cause FAILED link die alone names one). -/
  | bypassCause (cause dim : Nat)
  /-- DIMENSION_OPEN, R372. -/
  | dimensionOpen (dim : Nat)
  /-- JOURNAL_DATA, R395. -/
  | journalData (r : JRec)
  /-- JOURNAL_BASE, R398. -/
  | journalBase (r : JRec)
  /-- JOURNAL_END, R395. -/
  | journalEnd (r : JRec)
  /-- JOURNAL_BASE_END, R398. -/
  | journalBaseEnd (r : JRec)
  /-- FAR_CPL_TIMEOUT, R357. -/
  | farCplTimeout (port tag : Nat)
  /-- FAR_LINK_LOSS, R357. -/
  | farLinkLoss (port : Nat)
  /-- FAR_RETRAIN, R357: what the retraining finds. -/
  | farRetrain (port link expanders gib : Nat)
  /-- HOST_LINK_RESET, R358. -/
  | hostLinkReset
  /-- HL_PERST_N, R497. -/
  | hlPerstN (high : Bool)
  /-- PANEL_FAULT, R125: detected at core g. -/
  | panelFault (core : Nat)
  /-- UNIT_ERROR, R424. -/
  | unitError (party : UnitId)
  /-- LEASE_EXPIRY, R426. -/
  | leaseExpiry (kind : Nat) (holder : UnitId)
  /-- RELEASED, R427. -/
  | released (party : UnitId)
  /-- RECLAIM_TIMEOUT, R427. -/
  | reclaimTimeout
  /-- FREE, R428. -/
  | free (party : UnitId)
  /-- MGMT_PARITY_FAILURE, R415. -/
  | mgmtParityFailure (die : Nat)
  /-- QUIET_PERIOD_EXPIRY, R420. -/
  | quietPeriodExpiry
  /-- SVCLK_CHECK_FAILURE, R422. -/
  | svclkCheckFailure
  /-- POWER_REPORT, R461: the regulators' reports in W. -/
  | powerReport (reports : List Nat)
  /-- CONTOUR_INTERVAL, R465. -/
  | contourInterval
  /-- CONTOUR_WINDOW, R464. -/
  | contourWindow
  /-- CONTOUR_SOUNDING, R469. -/
  | contourSounding
  /-- EMERGENCY, R462. -/
  | emergency
  /-- EMERGENCY_LIFT, R462. -/
  | emergencyLift
  /-- POWER_SHUTDOWN, R472. -/
  | powerShutdown
  /-- THERMAL_REPORT, R471: junction temperature in quarter degrees Celsius. -/
  | thermalReport (die quarters : Nat)
  /-- THROTTLE_STEP, R471. -/
  | throttleStep (die : Nat)
  /-- THERMAL_SHUTDOWN, R472. -/
  | thermalShutdown
  /-- HOLDUP_MEASURE, R473. -/
  | holdupMeasure (energyMj : Nat) (enough : Bool)
  /-- HOLDUP_TEST, R473. -/
  | holdupTest (pass : Bool)
  /-- COLD_RESET, R478. -/
  | coldReset (cause : Nat) (b : BringUp)
  /-- VIN12_IN_RANGE, R494. -/
  | vin12InRange (b : BringUp)
  /-- VAUX_LOSS, R503. -/
  | vauxLoss
  /-- WARM_RESET, R481. -/
  | warmReset (cause : Nat) (b : BringUp)
  /-- TRIAL_EXPIRY, R454; restoredOk when the restored region matches the journal header's BODY_HASH. -/
  | trialExpiry (restoredOk : Bool) (b : BringUp)
  /-- LANE_REPAIR, R29. -/
  | laneRepair (die port : Nat)
  /-- CXL_MEM_COMPLETION, R293. -/
  | cxlMemCompletion (port tag : Nat)
  /-- BANDWIDTH_WINDOW, R252: a Muslin die's window; a far port's when far. -/
  | bandwidthWindow (far : Bool) (index : Nat)
  /-- REFCLK_A_PRESENT, R494. -/
  | refclkAPresent (b : BringUp)
  /-- HOLD_OFF_EXPIRY, R497: Selvage's die sensor reading, degrees Celsius, and the bring-up that may follow. -/
  | holdOffExpiry (sensor : Nat) (b : BringUp)
  /-- HOLDUP_WAIT_EXPIRY, R452. -/
  | holdupWaitExpiry (restoredOk : Bool)
  /-- THERMAL_DUTY_RISE, R471. -/
  | thermalDutyRise (die : Nat)
  /-- HANDBACK_STEP_NUMBER, R405. -/
  | handbackStepNumber (step : Nat)
  /-- IN_BAND_INTERRUPT_ACCEPTED, R501. -/
  | inBandInterruptAccepted (byte : Nat)
  deriving DecidableEq, Repr

end Sys2Proof
end

