-- ==== Sys2Proof/Decode.lean ====
section
/-!
DEFINITION. The decoder of table words, and the reading of a descriptor's 256 bytes by its opcode (R273, R276 and the field tables of
each operation).
-/

namespace Sys2Proof

/-- The command that a word spells by the bits of spec/opcode_table.json: the table gives no row any bits, so none. -/
def decodeTableWord (_nbits _w : Nat) : Option Instr := none

/-- The little-endian number of n bytes at an offset of a descriptor. -/
def dword (e : List Byte) (off n : Nat) : Nat := ofLe ((e.drop off).take n)

/-- A field: bits [hi:lo] of the 8 bytes at an offset. -/
def dfld (e : List Byte) (off hi lo : Nat) : Nat := bits (dword e off 8) hi lo

/-- The common header (R273). -/
def decodeHdr (queue index stamp : Nat) (e : List Byte) : Hdr :=
  let w := dword e 0 8
  { queue := queue, index := index, ext := bits w 9 8, crit := bit w 10, system := bit w 11, quiet := bit w 12, ordered := bit w 13,
    armed := bit w 14, userTag := bits w 31 16, datum := bits w 63 32, deadline := dfld e 8 31 0, stamp := stamp,
    gen := dword e 0x3E 2 }

/-- Bytes replaced by zero. -/
def zeroAt (off n : Nat) (e : List Byte) : List Byte := e.take off ++ List.replicate n 0 ++ e.drop (off + n)

/-- The trailer in slot EXT and the message its TAG is computed over (R298). -/
def decodeTrailer (queue ext : Nat) (e : List Byte) : Trailer :=
  let b := 64 * ext
  { counter := dword e b 8, keyNum := dword e (b + 8) 4, tag := (e.drop (b + 16)).take 16,
    message := leBytes 2 queue ++ zeroAt (b + 16) 16 (zeroAt 0x3E 2 (e.take (64 * (ext + 1)))) }

def decodeLoad (e : List Byte) : LoadOp :=
  { srcDa := dfld e 0x10 47 0, srcLen := dfld e 0x18 31 0, dropPending := bit (dword e 0x18 8) 32, checkOnly := bit (dword e 0x18 8) 33 }

/-- R128. -/
def decodeMatmul (e : List Byte) : MatmulOp :=
  let w := dword e 0x10 8
  { core := bits w 5 0, arr := bit w 6, acc := bit w 7, indep := bit w 8, drain := bit w 9, wReuse := bit w 10, tile := bits w 13 11,
    wSpec := bits w 23 16, aSpec := bits w 31 24, oSpec := bits w 39 32, k := bits w 49 40, n := dfld e 0x18 12 0, m := dfld e 0x18 26 16,
    anchor := signed 16 (dfld e 0x18 47 32), wOff := dfld e 0x20 31 0, aOff := dfld e 0x20 63 32, aStride := dfld e 0x28 31 0,
    oOff := dfld e 0x28 63 32, oStride := dfld e 0x30 31 0, wScaleOff := dfld e 0x40 31 0, aScaleOff := dfld e 0x40 63 32,
    oScaleOff := dfld e 0x48 31 0 }

/-- R144. -/
def decodeMax (e : List Byte) : MaxOp :=
  let w := dword e 0x10 8
  { core := bits w 5 0, abs := bit w 6, sSpec := bits w 23 16, sOff := dfld e 0x18 31 0, sScaleOff := dfld e 0x18 63 32,
    segLen := dfld e 0x20 31 0, segs := dfld e 0x20 47 32, oOff := dfld e 0x28 31 0, indexBase := dfld e 0x28 63 32 }

/-- R174. -/
def decodeGather (e : List Byte) : GatherOp :=
  let w := dword e 0x10 8
  { engine := bits w 4 0, kind := bits w 6 5, poisonMap := bit w 7, table := bits w 19 8, spec := bits w 31 24, stream := bits w 47 32,
    stride := bits w 63 48, nIdx := dfld e 0x18 24 0, nBags := dfld e 0x18 56 32, idxDa := dfld e 0x20 47 0, offsDa := dfld e 0x28 47 0,
    wtDa := dfld e 0x30 47 0, addr := dfld e 0x38 47 0, pDa := dfld e 0x40 47 0, scaleAddr := dfld e 0x48 47 0 }

/-- R196: G_SCALE_ADDR stands where a gather has P_DA. -/
def decodeScatter (e : List Byte) : GatherOp := { decodeGather e with pDa := 0, scaleAddr := dfld e 0x40 47 0 }

/-- R198. -/
def decodeLedgerAdd (e : List Byte) : LedgerAddOp :=
  let w := dword e 0x10 8
  { engine := bits w 4 0, remote := bit w 5, lMuslin := bits w 10 8, sSpec := bits w 23 16, dev := bits w 41 32, nElem := dfld e 0x18 27 0,
    anchor := signed 16 (dfld e 0x18 47 32), sAddr := dfld e 0x20 47 0, la := dfld e 0x28 47 0, sScaleAddr := dfld e 0x30 47 0 }

/-- R237. -/
def decodeOptDense (e : List Byte) : OptDenseOp :=
  let w := dword e 0x10 8
  { muslin := bits w 2 0, mode := bits w 4 3, deriveOnly := bit w 5, ratio := bit w 6, pset := bits w 15 8, wkSpec := bits w 23 16,
    layer := bits w 39 24, step := dfld e 0x18 39 0, la := dfld e 0x20 47 0, rowsN := dfld e 0x28 27 0, colsN := dfld e 0x28 59 32,
    masterDa := dfld e 0x30 47 0, paramDa := dfld e 0x38 47 0, workDa := dfld e 0x40 47 0, workScaleDa := dfld e 0x48 47 0,
    gDa := dfld e 0x50 47 0, gScaleDa := dfld e 0x58 47 0, eDa := dfld e 0x60 47 0, m1Da := dfld e 0x68 47 0, m1ScaleDa := dfld e 0x70 47 0,
    stateDa := dfld e 0x78 47 0, vrDa := dfld e 0x80 47 0, vrScaleDa := dfld e 0x88 47 0, vcDa := dfld e 0x90 47 0,
    vcScaleDa := dfld e 0x98 47 0, bandLo := dfld e 0xA0 15 0, bandHi := dfld e 0xA0 31 16 }

/-- R262; PIECES above 4 is no number of pieces. -/
def decodeRearm (e : List Byte) : RearmOp :=
  let w := dword e 0x10 8
  let n := bits w 34 32
  let pieces := [(0x18, 0x20), (0x28, 0x30), (0x40, 0x48), (0x50, 0x58)].map fun p => (dfld e p.1 47 0, dfld e p.2 39 0)
  { stream := bits w 13 0, set := bit w 16, restart := bit w 17, wrap := bit w 18, seg := bits w 31 24, pieces := pieces.take n,
    badPieces := 4 < n }

/-- R383. -/
def decodeRing (e : List Byte) : RingOp :=
  let w := dword e 0x10 8
  { dev := bits w 9 0, streamMode := bit w 16, stream := bits w 31 18, srcDa := dfld e 0x18 47 0, dstDa := dfld e 0x20 47 0,
    len := dfld e 0x28 39 0 }

/-- R406. -/
def decodeSnap (e : List Byte) : SnapOp :=
  let w := dword e 0x10 8
  { dest := bits w 1 0, rows := bit w 2, nTensors := bits w 31 16, dstDa := dfld e 0x18 47 0, dstLen := dfld e 0x20 39 0,
    listDa := dfld e 0x28 47 0 }

/-- The command that an entry spells; none where its opcode is unassigned or reserved. Only the base slot and the first EXT extension
slots are read (R270). -/
def decodeDesc (queue index stamp : Nat) (entry : List Byte) : Option Instr :=
  let h := decodeHdr queue index stamp entry
  let e := entry.take (64 * (h.ext + 1))
  let t := decodeTrailer queue h.ext e
  let w := dword e 0x10 8
  let x := dword e 0x18 8
  match bits (dword e 0 8) 7 0 with
  | 0x00 => some (.nop h)
  | 0x01 => some (.fence h (bit w 0) (bit w 1) (bit w 2))
  | 0x02 => some (.inlineWrite h (bits w 47 0) (bits x 7 0) ((e.drop 0x40).take (bits x 7 0)))
  | 0x03 => some (.sqRun h (bits w 31 0))
  | 0x04 => some (.sqStop h)
  | 0x10 => some (.imageLoad h t (decodeLoad e))
  | 0x11 => some (.quotaSet h t (bits w 5 0) (bits w 7 6) (bits w 9 8) (bits w 12 10) (bits x 31 0))
  | 0x12 =>
    match bits w 2 0 with
    | 0 => some (.debugOn h t)
    | 1 => some (.lockSet h t)
    | 2 => some (.lockClear h t)
    | 3 => some (.almanacWrite h t (bits w 31 16) (bits w 39 32) (bits w 47 40) ((e.drop 0x40).take 64))
    | _ => some (.debugOn h { t with reserved := true })
  | 0x13 => some (.fwUpdateStart h t (bits w 47 0) (bits x 31 0) false)
  | 0x14 => some (if bit w 0 then .bypassForceRelease h t else .bypassForceClose h t)
  | 0x15 => some (.twinTakeover h t { decodeLoad e with checkOnly := false })
  | 0x16 => some (.keyAgree h (bits w 1 0) (bits w 63 32) x (dfld e 0x20 47 0) (dfld e 0x28 47 0))
  | 0x17 => some (.keyRetire h (bits w 1 0))
  | 0x18 => some (.quote h (bits w 47 0) (bits x 31 0) (bit x 32) ((e.drop 0x40).take 32))
  | 0x19 => some (.ownerSet h (bits w 47 0) (bits x 47 0) (dword e 0x20 8))
  | 0x20 => some (.twMatmul h (decodeMatmul e))
  | 0x21 => some (.twDrain h (decodeMatmul e))
  | 0x22 => some (.twMax h (decodeMax e))
  | 0x23 => some (.twMin h (decodeMax e))
  | 0x30 => some (.rgPut h (decodeRing e))
  | 0x31 => some (.rgGet h (decodeRing e))
  | 0x38 => some (.tnSnapshot h (decodeSnap e))
  | 0x39 => some (.tnHandback h { decodeLoad e with checkOnly := false })
  | 0x40 => some (.muGather h (decodeGather e))
  | 0x41 => some (.muGradScatter h (decodeScatter e))
  | 0x42 => some (.muLedgerAdd h (decodeLedgerAdd e))
  | 0x43 => some (.muSeal h (bits w 2 0) (bits x 39 0))
  | 0x44 => some (.muMigrate h (bits w 2 0) (bits w 19 8) (bits x 30 0) (dfld e 0x20 47 0))
  | 0x45 => some (.muRowRestore h (bits w 2 0) (bit w 3) (bits w 19 8) (bits x 30 0) (dfld e 0x20 47 0))
  | 0x46 => some (.muOptDense h (decodeOptDense e))
  | 0x47 => some (.muOptClose h (bits w 2 0) (bits w 13 8) (bits x 39 0) (dfld e 0x20 47 0))
  | 0x50 => some (.stRearm h (decodeRearm e))
  | 0x51 => some (.stRelease h (bits w 13 0) (bits w 22 16) (bits x 39 0))
  | _ => none

/-- The step-program instruction that a word spells for a program; an AMAXD takes its DA from the next word (R344). -/
def decodeProg (prog w next : Nat) : Option Instr :=
  let a := bits w 15 8
  let b := bits w 31 16
  let c := bits w 63 32
  match bits w 7 0 with
  | 0x01 => some (.post prog (bits a 3 0) (bit a 4) (bit a 5) b (bits c 15 0) (bits c 18 16))
  | 0x02 => some (.wait prog (a % 8) c)
  | 0x03 => some (.fire prog)
  | 0x04 => some (.amax prog (a % 16) (bits b 5 0) (bits b 15 8) c)
  | 0x05 => some (.amaxd prog (a % 16) (bits next 47 0))
  | 0x06 => some (.anchor prog (a % 16) (bits b 3 0) (bits b 7 4))
  | 0x07 => some (.sealPoint prog)
  | 0x08 => some (.endProg prog)
  | _ => none

end Sys2Proof
end

