-- ==== Sys2Proof/Config.lean ====
section
/-!
DEFINITION. What the spec leaves open or takes from a standard it does not print: constants with no body, so that nothing in Lean
can evaluate them. A claim about the model holds for every value they may have. notes/assumptions says what each stands for.
-/

namespace Sys2Proof

/-- The n-th free value of a run (DESIGN CHOICE, log entry 2): a value the spec leaves open. -/
opaque Config.freeValue : Nat → Nat

/-- SHA-256 of a byte string, 32 bytes (R333, R440; DESIGN CHOICE, log entry 10). -/
opaque Config.sha256 : List Byte → List Byte

/-- HMAC-SHA-256 under a key (R298; DESIGN CHOICE, log entry 10). -/
opaque Config.hmac : List Byte → List Byte → List Byte

/-- SLH-DSA signature verification: public key, message, signature (R441; DESIGN CHOICE, log entry 10). -/
opaque Config.slhVerify : List Byte → List Byte → List Byte → Bool

/-- SLH-DSA signing by the device key (R446; DESIGN CHOICE, log entry 10). -/
opaque Config.slhSign : List Byte → List Byte → List Byte

/-- The device's own keys, derived from the SRAM-PUF (R435 to R439; DESIGN CHOICE, log entry 10). -/
opaque Config.deviceKey : Nat → List Byte

/-- ML-KEM-768 decapsulation and the session key derived from it (R444; DESIGN CHOICE, log entry 10). -/
opaque Config.kemSecret : List Byte → List Byte

/-- Bytes of a journal payload after inflating a deflated one (R393; DESIGN CHOICE, log entry 10). -/
opaque Config.inflate : List Byte → List Byte

/-- Bytes of a journal payload as the deflate unit sends it (R393; DESIGN CHOICE, log entry 10). -/
opaque Config.deflate : List Byte → List Byte

end Sys2Proof
end

