-- ==== Sys2Proof/Machine/State.lean ====
section
/-!
DEFINITION. The state of one DW940 package as plain data, the reasons a step can stop, and the state right after reset.
Every sparse table is an FMap: a list of (key, value) pairs with strictly rising keys.
-/

namespace Sys2Proof.Machine

/-- A sparse table: strictly rising keys. -/
abbrev FMap (α : Type) := List (Nat × α)

/-- Why a command stops with a fault. No command of the block does: every failure the spec describes is a completion status, a
discarded write or a sticky bit, which are next states. -/
inductive Fault where
  /-- Raised by nothing; kept so that the type has a name. Safe. -/
  | none
  deriving DecidableEq, Repr

/-- Why a command is refused. -/
inductive Refusal where
  /-- The command has no meaning in the model yet. Safe: nothing is claimed of it. -/
  | notModelled (mnemonic : String)
  deriving DecidableEq, Repr

/-- The three variants (R1). -/
inductive Variant where
  | a | b | c
  deriving DecidableEq, Repr

/-! Package, memory and Gauze. -/

/-- A far-tier port (R48, R356, R357, R359). -/
structure FarPort where
  link      : Nat := 0
  rate      : Nat := 0
  expanders : Nat := 0
  gib       : Nat := 0
  deriving DecidableEq, Repr

/-- The package: variant and straps, what the Legend marks FAILED, its generation, port states, lane repairs, far ports. -/
structure Pkg where
  variant     : Variant
  pairId      : Bool
  dieFailed   : List Nat
  stackFailed : List Nat
  portState   : FMap Nat
  legendGen   : Nat
  legendValid : Bool
  laneRepairs : FMap Nat
  far         : FMap FarPort
  deriving DecidableEq, Repr

/-- A write accepted by a far port's posted-write queue and not yet completed by the expander (R293, R356). -/
structure Posted where
  port   : Nat
  tag    : Nat
  da     : Nat
  data   : List Byte
  deriving DecidableEq, Repr

/-- Home, Stash and Far: the bytes, the sectors with POISON = 1 (R162), sectors whose stored code words hold an error not yet read
(false one symbol, true uncorrectable; R163), far writes still posted, and far ports with a read that timed out and is not yet answered
(R357). -/
structure Mem where
  cells  : List Host.Cell
  poison : List Nat
  latent : FMap Bool
  posted : List Posted
  farLate : List Nat
  deriving DecidableEq, Repr

/-- A request of a die that has not been answered (R305, R306): how many flits it reserved, where it went, and the descriptor it
belongs to, by its queue, index and number (none for a request of no descriptor). strm is the remote stream whose bytes a WRITE carries;
landDa is then their position in it (R383). -/
structure OutReq where
  die    : Nat
  tag    : Nat
  dst    : Nat := 0
  kind   : Nat
  resv   : Nat
  flits  : Nat
  far    : Bool := false
  remote : Bool := false
  queue  : Nat := 0
  index  : Nat := 0
  key    : Option Nat := none
  landDa : Nat := 0
  len    : Nat := 0
  dev    : Nat := 0
  step   : Nat := 0
  strm   : Option Nat := none
  deriving DecidableEq, Repr

/-- One receiver of a multicast group (R317 to R320, R385): ACKED as the source knows it; held, the position below which the receiver has
every byte, and the ranges it holds above it; whether it has discarded a flit; whether the source owes it a replay; and the position J of its
last rejoin, below which it fetches its gap itself. -/
structure McRecv where
  attached  : Bool := true
  acked     : Nat := 0
  held      : Nat := 0
  above     : List (Nat × Nat) := []
  discarded : Bool := false
  resume    : Bool := false
  join      : Nat := 0
  deriving DecidableEq, Repr

/-- The Gauze routers of all dies and the messages in flight. bootLinks are the links (die × 16 + port) that firmware found up when it built
the boot routes; lseq, lrecv and kept are a port's next LSEQ, the last LSEQ it received and its replay buffer (R33, R34); bgWait counts the
FCLK for which a TC4 flit has waited at an output with a credit (R37); mcWin is a group's replay window (R317). -/
structure Gauze where
  active      : FMap Nat
  bootBank    : FMap Nat
  bootLinks   : List Nat
  routes      : FMap Nat
  mcast       : FMap Nat
  depths      : FMap Nat
  newDepths   : FMap Nat
  credits     : FMap Nat
  occupancy   : FMap Nat
  replays     : FMap Nat
  lseq        : FMap Nat
  lrecv       : FMap Nat
  kept        : FMap (List Flit)
  bgWait      : FMap Nat
  flits       : List Flit
  adds        : List AddMsg
  out         : List OutReq
  quarantined : List Nat
  nextTag     : Nat
  mcRecv      : FMap McRecv
  mcPos       : FMap Nat
  mcWin       : FMap (List Byte)
  fwdHigh     : FMap Nat
  deriving DecidableEq, Repr

/-- Clocks and Datum (chapter 02): per-die lock, grid, count and error; CMD's request queue and the Datum driven but not yet
sampled, the last Datum number driven, and the requests discarded, 2^48 of them once the count has stuck (R430). -/
structure Clocks where
  locked  : List Nat
  grid    : List Nat
  count   : FMap Nat
  err     : List Nat
  pending : Nat
  driven  : Option Nat
  dropCnt : Nat
  plan    : FMap Nat
  sent    : Nat
  deriving DecidableEq, Repr

/-! Twill. -/

/-- A finite value m × 2^e with its sign, an infinity, or NaN (R80, R83). -/
inductive Val where
  | fin (neg : Bool) (m : Nat) (e : Int)
  | inf (neg : Bool)
  | nan
  deriving DecidableEq, Repr

/-- A lane with its fold register and flags (R133, R139, R141, R518). The fold register is sign, 48-bit significand and exponent. -/
structure Lane where
  l       : Int := 0
  fNeg    : Bool := false
  fSig    : Nat := 0
  fExp    : Int := 0
  ovf     : Bool := false
  nan     : Bool := false
  pinf    : Bool := false
  ninf    : Bool := false
  deriving DecidableEq, Repr

/-- A tile's anchor and flags (R152). -/
structure Tile where
  anchor  : Int := 0
  stale   : Bool := false
  laneOvf : Bool := false
  folded  : Bool := false
  deriving DecidableEq, Repr

/-- What TW.CORE_STATUS shows and the weight tag of R113, with the active weights row by row, and the set in the shadow registers while
shadowFull, with the key of the descriptor that it was loaded for (R112). -/
structure Core where
  faulted   : Bool := false
  fenced    : Bool := false
  ballast   : Nat := 0
  arr       : Bool := false
  shadowFull : Bool := false
  tagValid  : Bool := false
  tagOff    : Nat := 0
  tagSpec   : Nat := 0
  tagK      : Nat := 0
  tagN      : Nat := 0
  tagArr    : Bool := false
  weights   : List (List Val) := []
  shadow    : List (List Val) := []
  shadowFor : Nat := 0
  deriving DecidableEq, Repr

/-- Core buffers, tiles, lanes, generators. -/
structure Twill where
  cb        : FMap Byte
  cbErr     : FMap Bool
  cores     : FMap Core
  tiles     : FMap Tile
  lanes     : FMap Lane
  terms     : FMap Nat
  compat    : FMap Val
  gens      : FMap Nat
  seed      : Nat
  cbFlip    : List Nat
  deriving DecidableEq, Repr

/-! Muslin. -/

/-- A ROW entry of a ledger bank or of a pending pool (R187, R202). lost says that the scrub found it uncorrectable (R266), moved that
its die has sent it on and keeps it only until FORWARDING ends (R208). -/
structure Entry where
  count  : Nat := 0
  late   : Bool := false
  ovf    : Bool := false
  steps  : Nat := 1
  oldest : Nat := 0
  lost   : Bool := false
  moved  : Bool := false
  words  : List Int := []
  deriving DecidableEq, Repr

/-- The states of a row in the hot-row directory (R206). -/
inductive DirState where
  | resident | draining | moving | forwarding
  deriving DecidableEq, Repr

/-- A directory entry (R206) with the migration it is in (R208); pageIn says that it is a page-in, which sets PAGED (R212). -/
structure DirEntry where
  st         : DirState := .resident
  dest       : Nat
  ledgerDie  : Nat
  prevDest   : Nat := 0
  prevLedger : Nat := 0
  poisoned   : Bool := false
  pendingF   : Bool := false
  paged      : Bool := false
  pageIn     : Bool := false
  target     : Nat := 0
  targetDie  : Nat := 0
  queued     : List AddMsg := []
  started    : Bool := false
  switched   : Bool := false
  sealedIn   : Bool := false
  updated    : Nat := 0
  waiter     : Option Hdr := none
  deriving DecidableEq, Repr

/-- The twin patch of a poisoned row (R215): the JSEQ after J, whether an attempt is in progress, and the attempts made. -/
structure Patch where
  journal : Nat
  active  : Bool
  tries   : Nat
  deriving DecidableEq, Repr

/-- A heavy-hitter entry (R204). -/
structure Heavy where
  table : Nat
  row   : Nat
  count : Nat
  deriving DecidableEq, Repr

/-- A read shadow of a row (R181, R183): its slots as (compute die, slot), whether its index entry
is VALID, and, once its invalidation has begun, the dies that have not acknowledged it. -/
structure Shadow where
  slots   : List (Nat × Nat)
  valid   : Bool := false
  inval   : Bool := false
  awaited : List Nat := []
  deriving DecidableEq, Repr

/-- A command that waits at its unit: the bag or message it stands at, what it has seen, its coalescer's rows (none for a poisoned one), and
adds that are formed and not sent (R306). -/
structure Paused where
  bag      : Nat := 0
  skipped  : Bool := false
  poisoned : Bool := false
  coal     : List (Nat × Option (List Val)) := []
  adds     : List (OutReq × AddMsg) := []
  deriving DecidableEq, Repr

/-- The Muslin dies: engines, ledgers, directories, shadows, patches, Survey tables. load counts the Home sectors of a die read and written in
the current step, denseLost the DENSE words of the open bank that are lost (R266), patchWait the rows whose patch waits for a reserved
directory entry (R214), migrations each panel's automatic migrations of a step (R207), loadPrev the sectors of the previous one (R205); acts
the activations of each 256-byte block since its bank's count fell (R267), truncated and saturated what each engine's conversions of
contributions lost (R154). -/
structure Muslin where
  engState  : FMap Nat
  openStep  : FMap Nat
  unreleased : FMap Nat
  closedStep : FMap Nat
  sealWait  : FMap (Hdr × Nat)
  sealing   : FMap Hdr
  gatherPos : FMap Paused
  entries   : FMap Entry
  pend      : FMap Entry
  dense     : FMap Int
  denseLate : List Nat
  denseLost : List Nat
  consumed  : FMap Nat
  closed    : List Nat
  dir       : FMap DirEntry
  patches   : FMap Patch
  patchWait : List Nat
  migrations : FMap (Nat × Nat)
  heavy     : FMap (List Heavy)
  heavyPrev : FMap (List Heavy)
  load      : FMap Nat
  loadPrev  : FMap Nat
  shadows   : FMap Shadow
  slotValid : List Nat
  acts      : FMap Nat
  scrubPos  : FMap Nat
  scrubPass : FMap Nat
  bwServed  : FMap Nat
  bwGrant   : FMap Nat
  corrupt   : List Nat
  truncated : FMap Nat
  saturated : FMap Nat
  deriving DecidableEq, Repr

/-! Streams, queues and the sequencer. -/

/-- The state of a stream (R256, R260): FILL and REL, the position written and not yet visible in CREDIT mode, the schedule entry being
produced and the bytes of it produced, credits held. abort is the status that aborted it; producer is the device and the die that produce
into the window of a REMOTE stream, once they have (R259). -/
structure Strm where
  st       : Nat := 0
  fill     : Nat := 0
  wpos     : Nat := 0
  segPos   : Nat := 0
  cur      : Option (Bool × List (Nat × Nat)) := none
  rel      : Nat := 0
  seg      : Nat := 0
  abort    : Nat := 0
  credits  : Nat := 0
  sched    : FMap (Bool × List (Nat × Nat)) := []
  rearm    : List (Hdr × RearmOp) := []
  reported : Bool := false
  producer : Option (Nat × Nat) := none
  deriving DecidableEq, Repr

/-- An entry fetched by the queue manager and not yet dispatched; before lists the descriptors dispatched when it was fetched. -/
structure Fetched where
  hdr   : Hdr
  cmd   : Instr
  unit  : UnitId
  prog  : Option Nat := none
  before : List Nat := []
  deriving DecidableEq, Repr

/-- A hardware queue (R272). st is the code of CM.QSTATE.STATE; headGen and tailGen are the generations of the entries at head and tail,
and shownGen is CM.QTAIL.GEN, the generation of the last posted entry (R278); resume is CM.QCTL.RESUME, until the fetch it asks for starts
(R302). -/
structure Queue where
  st      : Nat := 0
  head    : Nat := 0
  headGen : Nat := 1
  tail    : Nat := 0
  tailGen : Nat := 1
  shownGen : Nat := 1
  rereads : Nat := 0
  retry   : Bool := false
  resume  : Bool := false
  fetched : List Fetched := []
  deriving DecidableEq, Repr

/-- A completion ring (R289, R290): records consumed and records written since its record 0 of lap 0, and the slots reserved. The
index is the count modulo SIZE; the lap is the count divided by SIZE. -/
structure Ring where
  head  : Nat := 0
  tail  : Nat := 0
  resv  : Nat := 0
  deriving DecidableEq, Repr

/-- A descriptor dispatched to its unit and not yet completed. started says that the unit has begun it; waits are the ranges of stream
windows whose bytes it waits for (R257). -/
structure Disp where
  hdr     : Hdr
  cmd     : Instr
  unit    : UnitId
  armed   : Bool
  started : Bool
  before  : List Nat := []
  waits   : List (Nat × Nat) := []
  deriving DecidableEq, Repr

/-- A completion on its way to the queue manager (R288). -/
structure Cpl where
  status  : Nat
  system  : Bool
  quiet   : Bool
  userTag : Nat
  queue   : Nat
  index   : Nat
  gen     : Nat
  unit    : UnitId
  step    : Nat
  elapsed : Nat
  deriving DecidableEq, Repr

/-- A descriptor whose unit waits for acknowledgements (R197, R198, R293, R295): what it waits for, die × 65,536 + TAG for a Gauze
request and 2^24 + tag for a far write, and the status so far. -/
structure Waiting where
  hdr    : Hdr
  unit   : UnitId
  tags   : List Nat
  status : Nat
  late   : Bool := false
  deriving DecidableEq, Repr

/-- An entry a step program posted: which completion counter it feeds (R344), and whether its program's budget has expired since (R70). -/
structure PostedEntry where
  prog  : Nat
  queue : Nat
  index : Nat
  gen   : Nat
  ctr   : Nat
  step  : Nat
  fetched : Bool := false
  late  : Bool := false
  deriving DecidableEq, Repr

/-- A step program in a run (R343, R359). st is the code of SQ.PROG_STATE.STATE. -/
structure Prog where
  st        : Nat := 0
  pc        : Nat := 0
  expired   : Bool := false
  malformed : Bool := false
  partialF  : Bool := false
  started   : Bool := false
  x         : FMap Val := []
  a         : FMap Int := []
  k         : FMap Nat := []
  deriving DecidableEq, Repr

/-- The step sequencer (R346, R348). st is the code of SQ.STATUS.STATE; phase is where the run stands: 0 at the start gate or between
steps, 1 in the body, 2 with the seals posted, 4 in the close part. -/
structure Seq where
  st       : Nat := 0
  step     : Nat := 0
  left     : Nat := 0
  phase    : Nat := 0
  run      : Option Hdr := none
  stops    : List Hdr := []
  held     : Option (Hdr × Nat) := none
  lateSteps : List Nat := []
  progs    : FMap Prog := []
  posted   : List PostedEntry := []
  sealHdrs : List Nat := []
  deriving DecidableEq, Repr

/-- The queue manager. -/
structure Qm where
  queues   : FMap Queue
  rings    : FMap Ring
  disp     : List Disp
  cpls     : List Cpl
  waiting  : List Waiting
  served   : FMap Nat
  irqs     : List Nat
  msix     : List Nat
  deriving DecidableEq, Repr

/-! The image. -/

/-- The image in force (R323 to R326): header fields and, per section code, its records as lists of field values in packing
order. -/
structure Image where
  serial     : Nat
  minFw      : Nat
  raiseFloor : Bool
  sections   : FMap (List (List Nat))
  code       : FMap (List Byte)
  bytes      : List Byte
  cart       : List Byte := []
  deriving DecidableEq, Repr

/-- A load past its checks: the staged image, the descriptor, and what it is (0 load, 1 takeover, 2 hand-back). -/
structure Staged where
  image : Image
  hdr   : Hdr
  op    : LoadOp
  kind  : Nat
  deriving DecidableEq, Repr

/-- What CM.IMG_STATUS, CM.IMG_REASON show, the image in force, the load in progress and the last one committed (R484). -/
structure Img where
  inForce : Option Image
  loaded  : Option Hdr := none
  staged  : Option Staged
  reason  : Nat
  section_ : Nat
  record  : Nat
  quotas  : FMap Nat
  parts   : FMap Nat
  farParts : FMap Nat
  deriving DecidableEq, Repr

/-! Rings and twin. -/

/-- A ring or twin port (R375, R387): st is the code of RG.PORT_STATUS.STATE; kept are the frames of its replay buffer (R365), rseq the next
RSEQ, rrecv the last RSEQ received; used are the credits of the peer's ring input that are out, by 2 × class + VL; input holds the frames of
its own ring input (R366); bad counts failures since the last frame received, brk that it reported its segment broken. -/
structure RPort where
  st       : Nat := 0
  lanes    : Nat := 0
  badLanes : List Nat := []
  peer     : Nat := 0
  peerValid : Bool := false
  fails    : Nat := 0
  viol     : Nat := 0
  bad      : Nat := 0
  brk      : Bool := false
  rseq     : Nat := 0
  kept     : List RingFrame := []
  rrecv    : Nat := 0xFFFF
  used     : FMap Nat := []
  input    : List RingFrame := []
  deriving DecidableEq, Repr

/-- A peer of the ring map (R377). st is the code of RA.PEER.STATE. -/
structure Peer where
  st     : Nat := 1
  target : Nat := 0
  sent   : Option Nat := none
  opened : Option Nat := none
  deriving DecidableEq, Repr

/-- A request that entered the package over a ring or twin link (R370). -/
structure Ingress where
  die    : Nat
  tag    : Nat
  srcDev : Nat
  srcDie : Nat
  srcTag : Nat
  deriving DecidableEq, Repr

/-- The ring agent and the link dies. egress holds the frames that wait at each link die to leave, of this package in its egress store and of
others in its transit store (R309, R366); rcred holds, for a remote stream produced into, the credits held and the bytes sent, filled the bytes
acknowledged without a gap and the ranges of those above it (R259, R383);
passed the gates that TOKEN_WAIT let pass, as 2n for the seal gate of step n and 2n + 1 for its start gate (R381). -/
structure Rings where
  map_     : List (List Nat)
  ports    : FMap RPort
  peers    : FMap Peer
  broken   : List Nat
  topoCnt  : FMap Nat
  myTopo   : Nat
  sentUpTo : Option Nat
  openUpTo : Option Nat
  ingress  : List Ingress
  egress   : FMap (List RingFrame)
  floods   : List Token
  causes   : List Nat
  openDims : List Nat
  noLock   : List Nat
  released : Bool
  waitRelease : Option Hdr
  rcred    : FMap (Nat × Nat)
  filled   : FMap (Nat × List (Nat × Nat))
  passed   : List Nat
  deriving DecidableEq, Repr

/-- The twin pair (R397, R410). st is the code of TA.STATE.STATE. -/
structure Twin where
  st        : Nat := 0
  torn      : Bool := false
  converged : Bool := false
  tornStep  : Nat := 0
  shadowStep : Nat := 0
  shadowSet : Bool := false
  takeover  : Nat := 0
  baseLeft  : Nat := 0
  sendLog   : List (Nat × JRec) := []
  sendSeq   : FMap Nat := []
  acked     : FMap Nat := []
  log       : List (Nat × JRec) := []
  logPos    : Nat := 0
  baseEnds  : List Nat := []
  rxReady   : Bool := false
  txReady   : Bool := false
  outbox    : List Nat := []
  deriving DecidableEq, Repr

/-- A running snapshot (R406 to R409): its step, the bytes written and those still to write, and the status it ends with. -/
structure Snap where
  hdr     : Hdr
  op      : SnapOp
  step    : Nat
  written : Nat
  toWrite : List Byte
  status  : Nat
  deriving DecidableEq, Repr

/-! Selvage, security, power, host and management bus. -/

/-- A reclaim (R427). reset says that it ends in the party's reset whatever the party answers (R415, R424). -/
structure Reclaim where
  party : UnitId
  kind  : Nat
  reset : Bool := false
  deriving DecidableEq, Repr

/-- Selvage (chapters 16, 18, 19). on says that the dies beside SV are out of reset; pSum holds the latest 500 sums of the power reports,
newest first; waiting is the step of R478 at which a bring-up waits, 16 while a
RESET_N pulse waits for the hold-off of a shutdown, 17 once that has passed; shutdown is 1 after a power, 2 after a
thermal shutdown. -/
structure Selvage where
  sticky     : List Nat
  locked     : Bool
  starting   : Bool
  quiet      : Nat
  recovery   : Nat
  recoverySat : Bool
  quietPeriod : Nat
  fence      : List Nat
  fenceCore  : List Nat
  fenceEng   : List Nat
  fenceOpt   : List Nat
  fenceMuMover : List Nat
  fenceTwMover : List Nat
  reclaim    : Option Reclaim
  reclaimSt  : Nat
  reclaims   : List Reclaim
  freeing    : List UnitId
  factory    : Bool
  inject     : Nat
  armedInj   : List (Nat × Nat)
  suppress   : List Nat
  bootStage  : Nat
  bootReason : Nat
  cause      : Nat
  drained    : Bool
  dirLost    : Nat
  phase      : Nat
  waiting    : Nat
  on         : Bool
  pSum       : List Nat
  pSv        : Nat
  emergency  : Bool
  throttled  : List Nat
  duty       : FMap Nat
  temps      : FMap Nat
  holdupOk   : Bool
  holdupBad  : Bool
  energy     : Nat
  shutdown   : Nat
  warmReqs   : List Nat
  panelReqs  : List Nat
  pcap       : Nat
  tThrottle  : Nat
  deriving DecidableEq, Repr

/-- An Almanac record (R455). -/
structure AlmRec where
  id      : Nat
  version : Nat
  data    : List Byte
  wseq    : Nat
  deriving DecidableEq, Repr

/-- A session key slot (R298, R302, R444). -/
structure Key where
  num       : Nat := 0
  active    : Bool := false
  exhausted : Bool := false
  last      : Nat := 0
  secret    : List Byte := []
  deriving DecidableEq, Repr

/-- Identity, keys, locks, firmware (chapter 17). fwState is the code of SV.FW_STATUS.STATE; fwHdr the command whose update is being
written, fwWaiter the same while that command has not completed. -/
structure Security where
  deviceId   : List Byte
  keys       : FMap Key
  debug      : Bool
  almanac    : List AlmRec
  wseq       : Nat
  fwState    : Nat
  fwReason   : Nat
  fwBlocks   : Nat
  fwVersion  : Nat
  fwNew      : Nat
  fwRaise    : Bool
  fwImage    : List Byte
  fwJournal  : Option (List Byte)
  fwPrev     : Nat
  fwPaused   : Bool
  fwWaiter   : Option Hdr
  fwHdr      : Option Hdr
  confirmed  : Bool
  trial      : Nat
  fwSteps    : Nat
  migrated   : List Nat
  deriving DecidableEq, Repr

/-- Contour (chapter 18). duty is in sixteenths, 0 for 16; target is the ramp target in mW; samples are the 4 µs values of the window. -/
structure Contour where
  mode     : Nat
  setpoint : Nat
  slew     : Nat
  soundMs  : Nat
  p        : Nat
  pMax     : Nat
  pAvg     : Nat
  duty     : Nat
  underF   : Bool
  overF    : Bool
  target   : Nat
  scrubAdv : Bool
  windows  : Nat
  samples  : List Nat
  deriving DecidableEq, Repr

/-- The host link and the mailbox (R350 to R355). reply is what the last host access answered: bytes and the poisoned mark. -/
structure HostLink where
  link     : Nat
  hdm      : Bool
  presented : Bool
  perstN   : Bool
  busy     : Bool
  done     : Bool
  lo       : Nat
  hi       : Nat
  mboxIdx  : Option (Nat × Nat)
  reply    : List Byte
  replyPoisoned : Bool
  deriving DecidableEq, Repr

/-- The I3C target (R499 to R502). reply is what the last transfer returned. -/
structure I3c where
  dyn     : Nat
  dynValid : Bool
  ibiEn   : Bool
  lastIbi : Nat
  pendingIbi : List Nat
  pointer : Nat
  reply   : List Byte
  deriving DecidableEq, Repr

/-- A Sounding record (R72). -/
structure Sounding where
  step  : Nat
  die   : Nat
  unit  : Nat
  kind  : Nat
  seq   : Nat
  datum : Nat
  body  : List Nat
  deriving DecidableEq, Repr

/-- The last answer given to a CMD core (R341): bytes, and whether the access raised an access fault. -/
structure CoreReply where
  core  : Nat
  data  : List Byte
  fault : Bool
  deriving DecidableEq, Repr

/-- The CMD cores: stores not yet acknowledged, fences that have retired, the last answer. -/
structure Cores where
  stores : List (Nat × Nat)
  fences : List Nat
  reply  : CoreReply
  deriving DecidableEq, Repr

/-- One DW940 package. pending is the queue of commands that wait, first in, first out; free counts the free values taken so far
(the model's own field, not the spec's). -/
structure State where
  pending : List Instr
  free    : Nat
  pkg     : Pkg
  mem     : Mem
  regs    : FMap Nat
  gz      : Gauze
  ck      : Clocks
  tw      : Twill
  mu      : Muslin
  streams : FMap Strm
  qm      : Qm
  seq     : Seq
  img     : Img
  rings   : Rings
  twin    : Twin
  snap    : Option Snap
  sv      : Selvage
  sec     : Security
  ct      : Contour
  host    : HostLink
  i3c     : I3c
  sounds  : List Sounding
  seqNo   : FMap Nat
  cores   : Cores
  deriving DecidableEq, Repr

/-- The state right after reset: every register at its Reset value, nothing brought up yet; the next event is COLD_RESET (R478). -/
def State.reset : State where
  pending := []
  free := 0
  pkg := { variant := .a, pairId := false, dieFailed := [], stackFailed := [], portState := [],
           legendGen := 0, legendValid := false, laneRepairs := [], far := [] }
  mem := { cells := [], poison := [], latent := [], posted := [], farLate := [] }
  regs := []
  gz := { active := [], bootBank := [], bootLinks := [], routes := [], mcast := [], depths := [], newDepths := [], credits := [], occupancy := [],
          replays := [], lseq := [], lrecv := [], kept := [], bgWait := [],
          flits := [], adds := [], out := [], quarantined := [], nextTag := 0, mcRecv := [], mcPos := [], mcWin := [],
          fwdHigh := [] }
  ck := { locked := [], grid := [], count := [], err := [], pending := 0, driven := none, dropCnt := 0, plan := [], sent := 0 }
  tw := { cb := [], cbErr := [], cores := [], tiles := [], lanes := [], terms := [], compat := [], gens := [], seed := 0,
          cbFlip := [] }
  mu := { engState := [], openStep := [], unreleased := [], closedStep := [],
          sealWait := [], sealing := [], gatherPos := [], entries := [], pend := [], dense := [], denseLate := [], denseLost := [], consumed := [], closed := [],
          dir := [], patches := [], patchWait := [], migrations := [], heavy := [], heavyPrev := [], load := [], loadPrev := [], shadows := [], slotValid := [],
          acts := [], scrubPos := [], scrubPass := [], bwServed := [], bwGrant := [], corrupt := [], truncated := [], saturated := [] }
  streams := []
  qm := { queues := [], rings := [], disp := [], cpls := [], waiting := [], served := [], irqs := [], msix := [] }
  seq := {}
  img := { inForce := none, staged := none, reason := 0, section_ := 0, record := 0, quotas := [], parts := [], farParts := [] }
  rings := { map_ := [], ports := [], peers := [], broken := [], topoCnt := [], myTopo := 0, sentUpTo := none, openUpTo := none,
             ingress := [], egress := [], floods := [], causes := [1], openDims := [], noLock := [], released := false, waitRelease := none,
             rcred := [], filled := [], passed := [] }
  twin := {}
  snap := none
  sv := { sticky := [], locked := false, starting := true, quiet := 0, recovery := 0, recoverySat := false,
          quietPeriod := 2000000, fence := [], fenceCore := [], fenceEng := [], fenceOpt := [], fenceMuMover := [],
          fenceTwMover := [], reclaim := none, reclaimSt := 0, reclaims := [], freeing := [], factory := false, inject := 0,
          armedInj := [], suppress := [], bootStage := 0, bootReason := 0, cause := 0, drained := false, dirLost := 0, phase := 0,
          waiting := 0, on := false, pSum := [], pSv := 0, emergency := false, throttled := [],
          duty := [], temps := [], holdupOk := false, holdupBad := false, energy := 0, shutdown := 0,
          warmReqs := [], panelReqs := [], pcap := 3600, tThrottle := 105 }
  sec := { deviceId := [], keys := [], debug := false, almanac := [], wseq := 0, fwState := 0,
           fwReason := 0, fwBlocks := 0, fwVersion := 0, fwNew := 0, fwRaise := false, fwImage := [], fwJournal := none,
           fwPrev := 0, fwPaused := false, fwWaiter := none, fwHdr := none, confirmed := false, trial := 0, fwSteps := 0, migrated := [] }
  ct := { mode := 0, setpoint := 3000, slew := 50, soundMs := 100, p := 0, pMax := 0, pAvg := 0, duty := 0, underF := false,
          overF := false, target := 0, scrubAdv := false, windows := 0, samples := [] }
  host := { link := 0, hdm := false, presented := false, perstN := false, busy := false, done := false, lo := 0, hi := 0,
            mboxIdx := none, reply := [], replyPoisoned := false }
  i3c := { dyn := 0, dynValid := false, ibiEn := false, lastIbi := 0, pendingIbi := [], pointer := 0, reply := [] }
  sounds := []
  seqNo := []
  cores := { stores := [], fences := [], reply := { core := 0, data := [], fault := false } }

end Sys2Proof.Machine
end

