-- ==== Sys2Proof/Machine/Maps.lean ====
section
/-!
DEFINITION. Reading and writing sparse tables. A table keeps strictly rising keys, so that equal tables are equal data.
-/

namespace Sys2Proof.Machine

/-- The value at a key. -/
def look {α : Type} : FMap α → Nat → Option α
  | [], _ => none
  | (k', v) :: r, k => if k = k' then some v else look r k

/-- The value at a key, or what an unlisted key reads as. -/
def lookD {α : Type} (m : FMap α) (k : Nat) (d : α) : α := (look m k).getD d

/-- The table with a value put at a key. -/
def put {α : Type} : FMap α → Nat → α → FMap α
  | [], k, v => [(k, v)]
  | (k', v') :: r, k, v =>
    if k < k' then (k, v) :: (k', v') :: r else if k = k' then (k, v) :: r else (k', v') :: put r k v

/-- The table without a key. -/
def del {α : Type} : FMap α → Nat → FMap α
  | [], _ => []
  | (k', v') :: r, k => if k = k' then r else (k', v') :: del r k

/-- Keys rise strictly, all above a bound. -/
def rising {α : Type} : Option Nat → FMap α → Bool
  | _, [] => true
  | b, (k, _) :: r => (match b with | none => true | some x => x < k) && rising (some k) r

/-- The value at a key of a table of numbers, 0 where unlisted. -/
def look0 (m : FMap Nat) (k : Nat) : Nat := lookD m k 0

/-- Every entry changed by a function of its key. -/
def mapVals {α : Type} (f : Nat → α → α) (m : FMap α) : FMap α := m.map fun p => (p.1, f p.1 p.2)

/-- The entries whose key and value meet a test. -/
def keep {α : Type} (f : Nat → α → Bool) (m : FMap α) : FMap α := m.filter fun p => f p.1 p.2

/-- A number put into a rising list, once. -/
def ins : List Nat → Nat → List Nat
  | [], k => [k]
  | x :: r, k => if k < x then k :: x :: r else if k = x then x :: r else x :: ins r k

/-- A list of numbers put into a rising list. -/
def insAll (l ks : List Nat) : List Nat := ks.foldl ins l

end Sys2Proof.Machine
end

