-- ==== Sys2Proof/Machine/Flags.lean ====
section
/-!
DEFINITION. Completion status codes (R16), the roles and links of the dies (R1, R2, R22, R30, R31), and the fault sources of R416
and R417.
-/

namespace Sys2Proof.Machine

/-! Completion status codes (R16). -/

abbrev stDone := 0x00
abbrev stPartial := 0x01
abbrev stPoison := 0x02
abbrev stDeadline := 0x10
abbrev stStall := 0x11
abbrev stAlias := 0x12
abbrev stSealMm := 0x13
abbrev stAuth := 0x14
abbrev stReplay := 0x15
abbrev stQuota := 0x16
abbrev stAbsent := 0x17
abbrev stMalformed := 0x18
abbrev stAbortPanel := 0x20
abbrev stAbortReset := 0x21
abbrev stEcc := 0x30
abbrev stLinkLost := 0x31

/-- The first status that a list of checks gives, or none when every check passes. -/
def firstBad : List (Bool × Nat) → Option Nat
  | [] => none
  | (true, st) :: _ => some st
  | (false, _) :: r => firstBad r

/-- A descriptor's EXT leaves out a slot that its fields need, here slots 1 to n (R520). -/
def slotShort (h : Hdr) (n : Nat) : Bool := decide (h.ext < n)

/-! Dies (R1, R2, R22). -/

/-- Die d is fitted in the variant (R2). -/
def fitted (v : Variant) (d : Nat) : Bool :=
  match v with
  | .a => d < 40
  | .b => d ≤ 13 || (18 ≤ d && d ≤ 29) || (34 ≤ d && d ≤ 39)
  | .c => d ≤ 9 || (18 ≤ d && d ≤ 25) || (34 ≤ d && d ≤ 37)

/-- Every die number. -/
def allDies : List Nat := List.range 40

/-- Compute die. -/
def isTw (d : Nat) : Bool := 2 ≤ d && d < 18
/-- Muslin die. -/
def isMu (d : Nat) : Bool := 18 ≤ d && d < 26
/-- Stash die. -/
def isSt (d : Nat) : Bool := 26 ≤ d && d < 34
/-- Ring link die. -/
def isRing (d : Nat) : Bool := 34 ≤ d && d < 38
/-- Twin link die. -/
def isTwin (d : Nat) : Bool := 38 ≤ d && d < 40

/-- DI.ID.ROLE of a die (R43). -/
def roleOf (d : Nat) : Nat :=
  if d = 0 then 0 else if d = 1 then 1 else if isTw d then 2 else if isMu d then 3 else if isSt d then 4
  else if isRing d then 5 else 6

/-- DI.ID.INDEX of a die (R43). -/
def indexOf (d : Nat) : Nat :=
  if isTw d then d - 2 else if isMu d then d - 18 else if isSt d then d - 26 else if isRing d then d - 34
  else if isTwin d then d - 38 else 0

/-- The die that port p of die d leads to, in the largest variant (R31). -/
def linkPeer (d p : Nat) : Option Nat :=
  if d = 0 then [18, 22, 3, 4, 1][p]?
  else if d = 1 then (if p = 0 then some 0 else none)
  else if isTw d then
    let n := d - 2
    match p with
    | 0 => some (if n % 4 = 0 then 18 + n / 4 else d - 1)
    | 1 => some (if n % 4 = 3 then 22 + n / 4 else d + 1)
    | 2 => some (if n < 4 then 26 + n else d - 4)
    | 3 => some (if 12 ≤ n then 26 + (n - 8) else d + 4)
    | 4 => if n = 1 || n = 2 then some 0 else none
    | _ => none
  else if isMu d then
    let k := d - 18
    match p with
    | 0 => some (if k < 4 then 2 + 4 * k else 2 + (4 * (k - 4) + 3))
    | 1 => if k = 0 || k = 4 then none else some (d - 1)
    | 2 => if k = 3 || k = 7 then none else some (d + 1)
    | 3 => if k = 0 || k = 4 then some 0 else none
    | 4 => if k = 0 then some 26 else if k = 3 then some 30 else if k = 4 then some 29 else if k = 7 then some 33 else none
    | 5 => some (if k = 0 || k = 4 then 37 else if k = 1 || k = 2 then 34 else if k = 5 || k = 6 then 35 else 36)
    | 6 => if k = 2 || k = 3 then some 38 else if k = 6 || k = 7 then some 39 else none
    | _ => none
  else if isSt d then
    let n := d - 26
    match p with
    | 0 => some (if n < 4 then 2 + n else 2 + (n + 8))
    | 1 => if n = 0 || n = 4 then none else some (d - 1)
    | 2 => if n = 3 || n = 7 then none else some (d + 1)
    | 3 => if n = 0 then some 18 else if n = 3 then some 22 else if n = 4 then some 21 else if n = 7 then some 25 else none
    | _ => none
  else
    let pair : Nat × Nat :=
      if d = 34 then (19, 20) else if d = 35 then (23, 24) else if d = 36 then (21, 25) else if d = 37 then (18, 22)
      else if d = 38 then (20, 21) else (24, 25)
    if d < 40 then (if p = 0 then some pair.1 else if p = 1 then some pair.2 else none) else none

/-- The port of die d that leads to die e. -/
def portTo (d e : Nat) : Option Nat := (List.range 8).find? fun p => linkPeer d p == some e

/-! Units: the UNIT codes of R288. -/

/-- Twill core g (R107). -/
def coreUnit (g : Nat) : UnitId := ⟨2 + g / 4, g % 4⟩
/-- Muslin engine e. -/
def engUnit (e : Nat) : UnitId := ⟨18 + e / 4, e % 4⟩
/-- The optimizer unit of MUk. -/
def optUnit (k : Nat) : UnitId := ⟨18 + k, 4⟩
/-- The ledger unit of MUk. -/
def ledgerUnit (k : Nat) : UnitId := ⟨18 + k, 6⟩
/-- The stream mover of a die. -/
def moverUnit (d : Nat) : UnitId := ⟨d, 5⟩
/-- The queue manager and CMD control. -/
def cmdUnit : UnitId := ⟨0, 15⟩

/-! Fault sources (R416, R417). -/

/-- The Gauze-link source of a die. -/
def srcLink (d : Nat) : Nat := 6 * d
/-- The clock and Datum source of a die. -/
def srcClock (d : Nat) : Nat := 6 * d + 1
/-- The CMD command source. -/
def srcCommand : Nat := 2
/-- The CMD security source. -/
def srcSecurity : Nat := 3
/-- The host link's source. -/
def srcHost : Nat := 4
/-- The ring agent's and the twin apply engine's source. -/
def srcAgents : Nat := 5
/-- Selvage's SVCLK, POWER, THERMAL, HOLDUP and FLASH sources. -/
def srcSvclk : Nat := 7
def srcPower : Nat := 8
def srcThermal : Nat := 9
def srcHoldup : Nat := 10
def srcFlash : Nat := 11
/-- A Muslin die's ENGINES source. -/
def srcEngines (d : Nat) : Nat := 6 * d + 2
/-- The source of stack h of a Muslin die. -/
def srcStack (d h : Nat) : Nat := 6 * d + 3 + h
/-- A Muslin die's LEDGER source. -/
def srcLedger (d : Nat) : Nat := 6 * d + 5
/-- A stash die's SRAM source, a link die's PORT source. -/
def srcSlot2 (d : Nat) : Nat := 6 * d + 2
/-- A ring link die's BYPASS source. -/
def srcBypass (d : Nat) : Nat := 6 * d + 3
/-- Far port p's source. -/
def srcFar (p : Nat) : Nat := 240 + p
def srcMgmt : Nat := 244
def srcReclaim : Nat := 245
def srcInject : Nat := 246

/-- The source of a unit (R417): a Twill core's COREc; a Muslin engine's, optimizer's or mover's ENGINES; a ledger unit's LEDGER; a
compute die's mover the CORE slot of the core whose stream it serves, given in unit codes 16 + c; CMD's COMMAND. -/
def srcOfUnit (u : UnitId) : Nat :=
  if u.die = 0 then srcCommand
  else if isTw u.die then 6 * u.die + 2 + (if u.unit < 4 then u.unit else u.unit % 4)
  else if isMu u.die then (if u.unit = 6 then srcLedger u.die else srcEngines u.die)
  else srcSlot2 u.die

/-- Bits of R416 that some event can set. -/
def srcExists (i : Nat) : Bool :=
  if i < 240 then
    let d := i / 6
    let k := i % 6
    if d < 26 then true else if isSt d then k ≤ 2 else if isRing d then k ≤ 3 else k ≤ 2
  else i ≤ 246

/-- The classes an operation may travel in (R35). -/
def opClass (op tc : Nat) : Bool :=
  match op with
  | 0x01 | 0x03 | 0x07 | 0x08 => tc == 2
  | 0x02 => tc == 2 || tc == 3
  | 0x04 | 0x05 | 0x09 => tc == 1
  | 0x06 => tc == 0
  | 0x0A => tc == 3
  | 0x0B | 0x0C | 0x0D => tc == 4
  | _ => false

end Sys2Proof.Machine
end

