-- ==== Sys2Proof/Machine/Ops.lean ====
section
/-!
DEFINITION. The named operations over the state that the meanings share: group updates, free values, memory and its sectors,
registers and counters, Soundings, sticky bits, ports and routes, requests and answers, and the completion of a descriptor.
-/

namespace Sys2Proof.Machine

/-- What a command answers. -/
abbrev Out := Host.Outcome State Fault Refusal

/-! Group updates: the state with one group changed. -/

def State.onFree (s : State) (f : Nat → Nat) : State := { s with free := f s.free }
def State.onPkg (s : State) (f : Pkg → Pkg) : State := { s with pkg := f s.pkg }
def State.onMem (s : State) (f : Mem → Mem) : State := { s with mem := f s.mem }
def State.onRegs (s : State) (f : (FMap Nat) → (FMap Nat)) : State := { s with regs := f s.regs }
def State.onGz (s : State) (f : Gauze → Gauze) : State := { s with gz := f s.gz }
def State.onCk (s : State) (f : Clocks → Clocks) : State := { s with ck := f s.ck }
def State.onTw (s : State) (f : Twill → Twill) : State := { s with tw := f s.tw }
def State.onMu (s : State) (f : Muslin → Muslin) : State := { s with mu := f s.mu }
def State.onStreams (s : State) (f : (FMap Strm) → (FMap Strm)) : State := { s with streams := f s.streams }
def State.onQm (s : State) (f : Qm → Qm) : State := { s with qm := f s.qm }
def State.onSeq (s : State) (f : Seq → Seq) : State := { s with seq := f s.seq }
def State.onImg (s : State) (f : Img → Img) : State := { s with img := f s.img }
def State.onRings (s : State) (f : Rings → Rings) : State := { s with rings := f s.rings }
def State.onTwin (s : State) (f : Twin → Twin) : State := { s with twin := f s.twin }
def State.onSnap (s : State) (f : (Option Snap) → (Option Snap)) : State := { s with snap := f s.snap }
def State.onSv (s : State) (f : Selvage → Selvage) : State := { s with sv := f s.sv }
def State.onSec (s : State) (f : Security → Security) : State := { s with sec := f s.sec }
def State.onCt (s : State) (f : Contour → Contour) : State := { s with ct := f s.ct }
def State.onHost (s : State) (f : HostLink → HostLink) : State := { s with host := f s.host }
def State.onI3c (s : State) (f : I3c → I3c) : State := { s with i3c := f s.i3c }
def State.onSounds (s : State) (f : (List Sounding) → (List Sounding)) : State := { s with sounds := f s.sounds }
def State.onSeqNo (s : State) (f : (FMap Nat) → (FMap Nat)) : State := { s with seqNo := f s.seqNo }
def State.onCores (s : State) (f : Cores → Cores) : State := { s with cores := f s.cores }

/-- The next free value (DESIGN CHOICE, log entry 2): the state afterwards counts it as taken. -/
def fresh (s : State) : Nat := Config.freeValue s.free
/-- The state once a free value is taken. -/
def State.took (s : State) : State := s.onFree (· + 1)

/-! Memory (R9, R19, R23, R25, R162, R163). -/

abbrev homeTop := 0x00C000000000
abbrev stashBase := 0x010000000000
abbrev farBase := 0x100000000000
abbrev farTop := 0x200000000000
abbrev regBase := 0xFF0000000000
abbrev regTop := 0xFF2800000000
abbrev stackSize := 0xC00000000
abbrev gib := 0x40000000
/-- The firmware area (R322). -/
abbrev fwArea := 0x00BFC0000000

/-- A byte as its home memory holds it (R480; DESIGN CHOICE, log entry 4 for Far): 0 where nothing is listed. -/
def cellByte (m : Mem) (a : Nat) : Byte := lookD m.cells a 0

/-- The last write to a byte still in a far port's posted-write queue. -/
def postedAt (m : Mem) (a : Nat) : Option Posted :=
  (m.posted.filter fun p => p.da ≤ a && a < p.da + p.data.length).getLast?

/-- One byte of Home, Stash or Far as a reader over Gauze sees it: Far through the port's posted writes (R293). -/
def readByte (m : Mem) (a : Nat) : Byte :=
  match postedAt m a with
  | some p => p.data.getD (a - p.da) 0
  | none => cellByte m a

/-- One byte written, in canonical form: no listed byte is 0. -/
def writeCell (c : List Host.Cell) (a : Nat) (b : Byte) : List Host.Cell := if b = 0 then del c a else put c a b

/-- Bytes written upward from an address. -/
def writeCells (c : List Host.Cell) (a : Nat) : List Byte → List Host.Cell
  | [] => c
  | b :: bs => writeCells (writeCell c a b) (a + 1) bs

/-- n bytes read upward from an address. -/
def readBytes (m : Mem) (a n : Nat) : List Byte := (List.range n).map fun i => readByte m (a + i)

/-- The canonical form of memory: addresses strictly rising, no listed byte equal to what an unlisted address reads as. -/
def Memory.wf (c : List Host.Cell) : Bool := rising none c && c.all fun p => p.2 != 0

/-- The 64-byte sectors a range touches (R162). -/
def sectorsOf (a n : Nat) : List Nat :=
  if n = 0 then [] else (List.range ((a + n - 1) / 64 - a / 64 + 1)).map (· + a / 64)

/-- The sectors a range covers whole. -/
def wholeSectors (a n : Nat) : List Nat := (sectorsOf a n).filter fun i => a ≤ 64 * i && 64 * i + 64 ≤ a + n

/-- Sectors marked POISON = 1. -/
def poisonSectors (s : State) (l : List Nat) : State := s.onMem fun m => { m with poison := insAll m.poison l }

/-- POISON and stored errors of the sectors of a range cleared: a row record written anew (R215, R216). -/
def clearPoison (s : State) (a n : Nat) : State :=
  s.onMem fun m => { m with poison := m.poison.filter (fun i => !(sectorsOf a n).contains i),
                            latent := keep (fun i _ => !(sectorsOf a n).contains i) m.latent }

/-- Any sector of a range carries POISON = 1. -/
def poisoned (s : State) (a n : Nat) : Bool := (sectorsOf a n).any fun i => s.mem.poison.contains i

/-- The die that serves an address (R23, R25): a Muslin die, a stash die, CMD for Far, the die of a register block. -/
def dieOfAddr (a : Nat) : Nat :=
  if a < homeTop then 18 + a / (2 * stackSize)
  else if stashBase ≤ a && a < stashBase + 8 * gib then 26 + a % stashBase / gib
  else if regBase ≤ a && a < regTop then a % regBase / 2 ^ 32
  else 0

/-- The far port of an address (R25). -/
def farPortOf (a : Nat) : Nat := a / 0x40000000000 - 4

/-! Sticky bits, interrupts to the board (R418, R419, R501). -/

/-- FAULT_N is high: no sticky bit set, not locked, Selvage started (R419, R422). -/
def faultNHigh (v : Selvage) : Bool := v.sticky.isEmpty && !v.locked && !v.starting

/-- An in-band interrupt raised, unless one of the same byte still waits (R501). -/
def raiseIbi (s : State) (b : Nat) : State :=
  if s.i3c.ibiEn && !s.i3c.pendingIbi.contains b then
    s.onI3c fun c => { c with pendingIbi := c.pendingIbi ++ [b], lastIbi := b }
  else s

/-- A fault source sets its sticky bit (R418, R419, R420): QUIET_ELAPSED restarts; FAULT_N falls with the first bit. -/
def setSticky (s : State) (src : Nat) : State :=
  let s' := s.onSv fun v => { v with sticky := ins v.sticky src, quiet := 0 }
  if faultNHigh s.sv then raiseIbi s' 1 else s'

/-! Registers, counters and Soundings (R10, R72, R430, R431). -/

/-- The key of a register in State.regs; sel picks the instance a selector register shows. -/
def regKey (die off : Nat) (sel : Nat := 0) : Nat := 2 ^ 44 * sel + 2 ^ 32 * die + off

/-- A stored register, or its Reset value. -/
def regGet (s : State) (die off : Nat) (dflt : Nat := 0) (sel : Nat := 0) : Nat := lookD s.regs (regKey die off sel) dflt

/-- A stored register set. -/
def regSet (s : State) (die off v : Nat) (sel : Nat := 0) : State := s.onRegs fun m => put m (regKey die off sel) v

abbrev ctrMax := 2 ^ 48 - 1

/-- The UNIT a saturation Sounding names for a counter (R431). -/
def ctrUnit (die off : Nat) : Nat :=
  if isTw die && 0x10000 ≤ off && off < 0x14000 then off % 0x10000 / 0x1000
  else if isMu die && 0x10000 ≤ off && off < 0x100A0 then off / 8 % 4
  else if isMu die && 0x12008 ≤ off && off ≤ 0x12028 then 4
  else 63

/-- A Sounding generated by a unit (R72, R73): SEQ counts it even when the 16-record buffer is full and the record is dropped. -/
def emitSounding (s : State) (die unit kind : Nat) (body : List Nat) : State :=
  let k := die * 64 + unit
  let q := look0 s.seqNo k
  let r : Sounding := { step := s.seq.step % 2 ^ 40, die := die, unit := unit, kind := kind, seq := q,
                        datum := look0 s.ck.count die, body := body }
  let s := s.onSeqNo fun m => put m k ((q + 1) % 2 ^ 32)
  if 16 ≤ (s.sounds.filter fun x => x.die == die && x.unit == unit).length then s else s.onSounds (· ++ [r])

/-- A counter raised by n (R430): past its maximum it sticks there, sets SAT and writes one Sounding of KIND 0x01. -/
def bumpBy (s : State) (die off n : Nat) (sel : Nat := 0) : State :=
  let w := regGet s die off 0 sel
  if w % 2 ^ 48 + n ≤ ctrMax then (if n = 0 then s else regSet s die off (w + n) sel)
  else
    let s' := regSet s die off (2 ^ 63 + ctrMax) sel
    if bit w 63 then s' else emitSounding s' die (ctrUnit die off) 1 [regBase + 2 ^ 32 * die + off, sel]

/-- A counter raised by one. -/
def bump (s : State) (die off : Nat) (sel : Nat := 0) : State := bumpBy s die off 1 sel

/-- An expiry counted (R71): its sticky source, the unit's unless another is named, and CK.LATE_CNT of its die. -/
def countExpiry (s : State) (u : UnitId) (src : Nat := srcOfUnit u) : State := bump (setSticky s src) u.die 0x4018

/-! Banks of Home (R24, R205, R267). -/

/-- The pseudo-channel of a Home DA: a stack's 256-byte blocks go round its 32 (R24). -/
def pseudoChannel (a : Nat) : Nat := a % stackSize / 256 % 32

/-- The bank of a Home DA, 64 to a pseudo-channel (PRESUMED, log entry 101), numbered over the package. Which bank of its pseudo-channel a
block lies in is the HBM3 standard's, which the spec does not print: a free value (DESIGN CHOICE, log entry 28). -/
def bankOf (a : Nat) : Nat := (a / stackSize * 32 + pseudoChannel a) * 64 + Config.freeValue (2 ^ 75 + a / 256) % 64

/-- The fewest activations after which a stack takes an RFM, and the number it is programmed with (PRESUMED, log entry 101);
by how much it exceeds it is the standard's (DESIGN CHOICE, log entry 28). -/
abbrev rfmMin := 32
def rfmAt : Nat := Config.freeValue (2 ^ 74) + rfmMin

/-- Activations counted for a bank: of its blocks, and, under 2^40 and above, what a refresh left. -/
def bankActs (s : State) (b : Nat) : Nat :=
  (s.mu.acts.map fun p => if (if p.1 < 2 ^ 40 then bankOf (256 * p.1) else p.1 - 2 ^ 40) = b then p.2 else 0).sum

/-- The bank's count set. -/
def setActs (s : State) (b n : Nat) : State :=
  s.onMu fun m =>
    let l := keep (fun key _ => (if key < 2 ^ 40 then bankOf (256 * key) else key - 2 ^ 40) != b) m.acts
    { m with acts := if n = 0 then l else put l (2 ^ 40 + b) n }

/-- A Home sector read or written: its die's load of the step (R205), and an activation of its bank, which takes an RFM at the threshold
(R267). -/
def touch (s : State) (a : Nat) : State :=
  if homeTop ≤ a then s
  else
    let s := s.onMu fun m => { m with load := put m.load (dieOfAddr a - 18) (look0 m.load (dieOfAddr a - 18) + 1),
                                      acts := put m.acts (a / 256) (look0 m.acts (a / 256) + 1) }
    if (s.mu.acts.map (·.2)).sum < rfmMin || bankActs s (bankOf a) < rfmAt then s
    else bump (setActs s (bankOf a) 0) (dieOfAddr a) (0x13040 + 8 * (a / stackSize % 2))

/-- Sectors read or written, one after another. -/
def touchAll (s : State) (l : List Nat) : State := l.foldl (fun s i => touch s (64 * i)) s

/-! Writing memory (R162, R293, R357). -/

/-- An injection armed for a Muslin die corrupts one symbol of its next Home sector write (R433). -/
def corrupts (s : State) (a : Nat) (bs : List Byte) : Bool := a < homeTop && s.mu.corrupt.contains (dieOfAddr a) && !bs.isEmpty

/-- Bytes stored at their home. A sector written whole gets fresh check bits: its POISON and any stored error go (R519;
DEDUCED, log entry 11). -/
def storeMem (s : State) (a : Nat) (bs : List Byte) : State :=
  let s := touchAll s (sectorsOf a bs.length)
  let hit := corrupts s a bs
  (s.onMem fun m =>
    { m with cells := writeCells m.cells a bs,
             poison := m.poison.filter (fun i => !(wholeSectors a bs.length).contains i),
             latent := let l := keep (fun i _ => !(wholeSectors a bs.length).contains i) m.latent
                       if hit then put l (a / 64) false else l }).onMu fun m =>
    { m with corrupt := if hit then m.corrupt.erase (dieOfAddr a) else m.corrupt }

/-- The tag a far write takes in its port's posted-write queue (DESIGN CHOICE, log entry 5). -/
def postedTag (s : State) : Nat := s.mem.posted.foldl (fun n p => max n (p.tag + 1)) 0

/-- A write into a far port: into its posted-write queue (R293), or lost while the port's link is down (R357). -/
def postFar (s : State) (a : Nat) (bs : List Byte) : State :=
  let p := farPortOf a
  if (lookD s.pkg.far p {}).link = 0 then setSticky (bump s 0 (0x60000 + 0x100 * p + 0x18)) (srcFar p)
  else s.onMem fun m => { m with posted := m.posted ++ [{ port := p, tag := postedTag s, da := a, data := bs }] }

/-- A write of memory over Gauze. -/
def writeMem (s : State) (a : Nat) (bs : List Byte) : State :=
  if bs.isEmpty then s else if farBase ≤ a && a < farTop then postFar s a bs else storeMem s a bs

/-! Reading memory through its sectors' check bits (R163, R244). -/

/-- One sector read: whether its data is lost, and the effects of the check. -/
def readSector (s : State) (i : Nat) : Bool × State :=
  let a := 64 * i
  let d := dieOfAddr a
  let h := a / stackSize % 2
  let s := touch s a
  if s.mem.poison.contains i then (true, s)
  else if farBase ≤ a then
    -- a read while the port's link is down is answered as uncorrectable data (R357)
    if (lookD s.pkg.far (farPortOf a) {}).link = 0 then (true, setSticky s (srcFar (farPortOf a)))
    -- so is the read that the port's completion timeout ended
    else if s.mem.farLate.contains (farPortOf a) then (true, s.onMem fun m => { m with farLate := m.farLate.erase (farPortOf a) })
    else (look s.mem.latent i == some true, s)
  else
    match look s.mem.latent i with
    | none => (false, s)
    | some false => (false, if isMu d then bump s d (0x100A0 + 8 * h) else bump s d 0x10008)
    | some true =>
      let s := s.onMem fun m => { m with poison := ins m.poison i, latent := del m.latent i }
      (true, if isMu d then setSticky (bump s d (0x100B0 + 8 * h)) (srcStack d h)
             else setSticky (bump s d 0x10010) (srcSlot2 d))

/-- Sectors read one after another: whether any lost its data. -/
def readSectors (s : State) : List Nat → Bool × State
  | [] => (false, s)
  | i :: r =>
    let (b, s) := readSector s i
    let (c, s) := readSectors s r
    (b || c, s)

/-- A checked read of a range: whether data was lost, and the state afterwards. -/
def checkRead (s : State) (a n : Nat) : Bool × State := readSectors s (sectorsOf a n)

/-! Dies, ports and routes (R8, R27, R31 to R33, R39, R40, R49). -/

/-- Die d is fitted and not FAILED (R8, R27), and out of reset; SV is never held in reset (R472, R478). -/
def dieUp (s : State) (d : Nat) : Bool := fitted s.pkg.variant d && !s.pkg.dieFailed.contains d && (s.sv.on || d == 1)

/-- Stack j is trained. -/
def stackUp (s : State) (j : Nat) : Bool := j < 16 && !s.pkg.stackFailed.contains j && dieUp s (18 + j / 2)

/-- One Legend update: GEN rises by 2 once the Legend is built (R49). -/
def legendUpdate (s : State) : State :=
  if s.pkg.legendValid then s.onPkg fun p => { p with legendGen := (p.legendGen + 2) % 2 ^ 32 } else s

/-- The state code of a port (R44). -/
def portState (s : State) (d p : Nat) : Nat := look0 s.pkg.portState (d * 16 + p)

/-- A port is UP_FULL or UP_HALF. -/
def portUp (s : State) (d p : Nat) : Bool := portState s d p == 3 || portState s d p == 4

def setPort (s : State) (d p st : Nat) : State := s.onPkg fun k => { k with portState := put k.portState (d * 16 + p) st }

/-- The bank of a die now active (R44). -/
def activeBank (s : State) (d : Nat) : Nat := look0 s.gz.active d

def routeKey (d bank tc dst : Nat) : Nat := ((d * 2 + bank) * 8 + tc) * 64 + dst

/-! Boot routes (R39, R311). Firmware builds them from link discovery, free of cycles of links: a flit climbs toward CMD in the order of
discovery and then descends, and never climbs again (DESIGN CHOICE, log entry 12). -/

/-- Port p of die d led to a link that was up at link discovery. -/
def bootLink (s : State) (d p : Nat) : Option Nat := if s.gz.bootLinks.contains (d * 16 + p) then linkPeer d p else none

/-- Dies in the order in which they are discovered from a frontier, breadth first, fuel rounds. -/
def discover (s : State) : Nat → List Nat → List Nat → List Nat
  | 0, _, seen => seen
  | n + 1, front, seen =>
    let new := front.foldl (fun acc d => (List.range 8).foldl (fun acc p =>
      match bootLink s d p with
      | some e => if seen.contains e || acc.contains e then acc else acc ++ [e]
      | none => acc) acc) []
    if new.isEmpty then seen else discover s n new (seen ++ new)

/-- The dies found from CMD. -/
def bootOrder (s : State) : List Nat := discover s 40 [0] [0]

/-- The ports of a die whose peers meet a test. -/
def portsInto (s : State) (d : Nat) (ok : Nat → Bool) : List Nat :=
  (List.range 8).filter fun p => match bootLink s d p with | some e => ok e | none => false

/-- Of dies in order of discovery, those from which a descent reaches dst. -/
def above (s : State) (dst : Nat) : List Nat → List Nat
  | [] => []
  | d :: r =>
    let l := above s dst r
    if d == dst || !(portsInto s d l.contains).isEmpty then d :: l else l

/-- One of the ports that the boot routes may take: which one is free where there is more than one. -/
def bootPick (key : Nat) : List Nat → Nat
  | [] => 0xF
  | [p] => p
  | p :: ps => (p :: ps).getD (Config.freeValue (2 ^ 64 + key) % (ps.length + 1)) p

/-- A boot entry: 8 at the destination, down where a descent reaches it, else up. -/
def bootEntry (s : State) (d tc dst key : Nat) : Nat :=
  let ord := bootOrder s
  if 5 ≤ tc || !ord.contains d || !ord.contains dst then 0xF
  else if d = dst then 8
  else
    let l := above s dst ord
    let later := (ord.dropWhile (· != d)).drop 1
    if l.contains d then bootPick key (portsInto s d fun e => l.contains e && later.contains e)
    else bootPick key (portsInto s d fun e => (ord.takeWhile (· != d)).contains e)

/-- A route entry: 0 to 8, or 0xF for no route. -/
def routeEntry (s : State) (d bank tc dst : Nat) : Nat :=
  match look s.gz.routes (routeKey d bank tc dst) with
  | some p => p
  | none => if look s.gz.bootBank d = some bank then bootEntry s d tc dst (routeKey d bank tc dst) else 0xF

/-- Dies reached from a set over links that are up, fuel rounds. -/
def spread (s : State) : Nat → List Nat → List Nat
  | 0, l => l
  | n + 1, l =>
    spread s n (l.foldl (fun acc d => (List.range 8).foldl (fun acc p =>
      match linkPeer d p with
      | some e => if portUp s d p then ins acc e else acc
      | none => acc) acc) l)

/-- The active entry of a die for a class and a destination. -/
def exitPort (s : State) (d tc dst : Nat) : Nat := routeEntry s d (activeBank s d) tc dst

/-! Flits on a link (R33, R34, R36, R303). -/

/-- The depth of a class buffer of a die (R36, R44, R303). -/
def depthOf (s : State) (d tc : Nat) : Nat :=
  lookD s.gz.depths (d * 8 + tc) (([8, 32, 32, 64, 8] : List Nat).getD tc 0)

def creditKey (d p tc : Nat) : Nat := (d * 16 + p) * 8 + tc

/-- Credits port p of die d holds for a class (R303). -/
def credits (s : State) (d p tc : Nat) : Nat :=
  lookD s.gz.credits (creditKey d p tc) (match linkPeer d p with | some e => depthOf s e tc | none => 0)

/-- Flits of port p of die d that stand in the peer's class buffer, or have left it without their credit returned. -/
def owed (s : State) (d p tc : Nat) : Nat := look0 s.gz.occupancy (creditKey d p tc)

/-- n credits of a class return to port p of a die: never above the depth of the peer's buffer. -/
def returnCredits (s : State) (d p tc n : Nat) : State :=
  let full := match linkPeer d p with | some e => depthOf s e tc | none => 0
  let c := min (credits s d p tc + n) full
  s.onGz fun g => { g with credits := put g.credits (creditKey d p tc) c,
                           occupancy := put g.occupancy (creditKey d p tc) (look0 g.occupancy (creditKey d p tc) - n) }

/-- One flit takes a credit of its class. A message longer than the credits held goes on with those its own earlier flits return (R303;
DESIGN CHOICE, log entry 50). -/
def spendCredit (s : State) (d p tc : Nat) : State :=
  if credits s d p tc = 0 then s
  else
    let c := credits s d p tc - 1
    s.onGz fun g => { g with credits := put g.credits (creditKey d p tc) c,
                             occupancy := put g.occupancy (creditKey d p tc) (look0 g.occupancy (creditKey d p tc) + 1) }

/-- The credit return a flit from port q of die e to port p of die d carries: the highest class that e owes, up to 31 credits (DESIGN
CHOICE, log entry 50). -/
def cretOf (s : State) (d p : Nat) : Nat × Nat :=
  match (List.range 5).find? fun t => 0 < owed s d p t with
  | some t => (t, min 31 (owed s d p t))
  | none => (0, 0)

/-- Fields placed at their lowest bits, one over another. -/
def packBits (l : List (Nat × Nat)) : Nat := l.foldl (fun n f => n + f.1 * 2 ^ f.2) 0

/-- The byte enables of a flit of n payload bytes, bit i for byte i (R34). -/
def enableBits (f : Flit) : Nat :=
  ((List.range f.payload.length).map fun i => b2n (f.byteEn.getD i true) * 2 ^ i).sum

/-- The 64-byte control word of a flit (R34). OPARG's field is 64 bits wide. -/
def controlWord (f : Flit) : Nat :=
  packBits [(f.tc % 8, 0), (f.kind % 4, 3), (f.op % 256, 8), (f.dst % 64, 16), (f.src % 64, 22), (f.panel % 64, 32), (f.tag % 2 ^ 16, 40),
            (f.plen % 256, 56), (f.da % 2 ^ 48, 64), (f.mgroup % 2 ^ 12, 112), (f.oparg % 2 ^ 64, 128), (enableBits f % 2 ^ 192, 192),
            (f.lseq % 2 ^ 12, 448), (f.lack % 2 ^ 12, 460), (f.cretTc % 8, 472), (f.cretN % 32, 475), (f.crc % 2 ^ 32, 480)]

/-- The 256 bytes of a flit on the wire. -/
def flitBytes (f : Flit) : List Byte := leBytes 64 (controlWord f) ++ (f.payload ++ List.replicate (192 - f.payload.length) 0).take 192

/-- One bit of CRC-32C, reflected. -/
def crcBit : Nat → Nat → Nat
  | 0, c => c
  | n + 1, c => crcBit n (if c % 2 = 1 then Nat.xor (c / 2) 0x82F63B78 else c / 2)

/-- CRC-32C (Castagnoli) of a byte string (R34). -/
def crc32c (bs : List Byte) : Nat :=
  Nat.xor (bs.foldl (fun c b => crcBit 8 (Nat.xor c b.toNat)) 0xFFFFFFFF) 0xFFFFFFFF

/-- The flits of a message (R34): one, or a first, middle ones and a last, 192 payload bytes in each but the last. -/
def wireFlits (f : Flit) : List Flit :=
  let n := max 1 (ceilDiv f.payload.length 192)
  (List.range n).map fun i =>
    let bs := (f.payload.drop (192 * i)).take 192
    { f with kind := if n = 1 then 0 else if i = 0 then 1 else if i + 1 = n then 3 else 2, da := f.da + 192 * i,
             plen := bs.length, payload := bs, byteEn := (f.byteEn.drop (192 * i)).take 192 }

/-- The flits of a replay buffer that a LACK does not acknowledge. -/
def unacked (lack : Nat) (l : List Flit) : List Flit :=
  match l.findIdx? fun f => f.lseq == lack with
  | some i => l.drop (i + 1)
  | none => l

/-- One flit sent by port p of die d and received without error: its link fields are written, it stays in the replay buffer of the newest 64
until it is acknowledged, it acknowledges what the port has received, and it carries a credit return (R33, R34, R303). -/
def passLink (s : State) (d p : Nat) (f : Flit) : State :=
  match linkPeer d p with
  | none => s
  | some e =>
    let q := (portTo e d).getD 0
    let (t, n) := cretOf s e q
    let f := { f with lseq := look0 s.gz.lseq (d * 16 + p), lack := look0 s.gz.lrecv (d * 16 + p), cretTc := t, cretN := n, crc := 0 }
    let f := { f with crc := crc32c (flitBytes f) }
    let s := if n = 0 then s else returnCredits s e q t n
    s.onGz fun g =>
      { g with lseq := put g.lseq (d * 16 + p) ((f.lseq + 1) % 4096), lrecv := put g.lrecv (e * 16 + q) f.lseq,
               kept := put (put g.kept (d * 16 + p) ((lookD g.kept (d * 16 + p) [] ++ [f]).drop ((lookD g.kept (d * 16 + p) []).length - 63)))
                           (e * 16 + q) (unacked f.lack (lookD g.kept (e * 16 + q) [])) }

/-- A message crosses the link of port p of die d, flit by flit, each with a credit of its class. -/
def crossLink (s : State) (d p : Nat) (f : Flit) : State :=
  (wireFlits f).foldl (fun s w => passLink (spendCredit s d p f.tc) d p w) s

/-! Ports that fail (R32, R33, R304). -/

/-- A port and the port at the other end of its link enter a state (R32, R33; DEDUCED, log entry 99). -/
def setLink (s : State) (d p st : Nat) : State :=
  let s := setPort s d p st
  match linkPeer d p with
  | some e => (match portTo e d with | some q => setPort s e q st | none => s)
  | none => s

/-- The die where a message in flight waits: the one that forwarded it, or its source. -/
def originOf (f : Flit) : Nat := f.via.getD f.src

/-- The header of an ATOMIC_ADD, as far as its path goes. -/
def addHead (m : AddMsg) : Flit :=
  { op := 0x03, tc := m.tc, dst := m.dst, src := m.src, panel := m.panel, tag := m.tag, da := m.da, via := m.via }

/-- The flits held for port p of die d are discarded, and its replay buffer. -/
def discardHeld (s : State) (d p : Nat) : State :=
  s.onGz fun g =>
    { g with flits := g.flits.filter (fun f => !(originOf f == d && exitPort s d f.tc f.dst == p)),
             adds := g.adds.filter (fun m => !(originOf (addHead m) == d && exitPort s d m.tc m.dst == p)), kept := del g.kept (d * 16 + p) }

/-- A port enters FAILED (R33, R304), with its link: Legend, LINK source, and the flits held for it are discarded. -/
def failPort (s : State) (d p : Nat) : State :=
  let s := setLink s d p 5
  let s := discardHeld s d p
  let s := match linkPeer d p with
    | some e => (match portTo e d with | some q => discardHeld s e q | none => s)
    | none => s
  setSticky (legendUpdate s) (srcLink d)

/-! Messages from die to die (R35 to R41, R303, R304). A message in flight waits at its source; the command of its name lands it, over the
whole of its path (DESIGN CHOICE, log entry 50). -/

/-- A message sent into Gauze. -/
def sendFlit (s : State) (f : Flit) : State := s.onGz fun g => { g with flits := g.flits ++ [f] }

/-- A message taken out of flight, where one equal to it is in flight. -/
def takeFlit (s : State) (f : Flit) : State := s.onGz fun g => { g with flits := g.flits.erase f }

/-- The refusal of a request (R35, R40, R154, R191): a COMPLETION with a status, to the request's sender. -/
def refuse (s : State) (f : Flit) (st : Nat) : State :=
  sendFlit s { op := 0x06, tc := 0, dst := f.src, src := f.dst, panel := f.panel, tag := f.tag, da := f.da, status := st }

/-- Two messages take one path (R41), or one multicast tree (R42). -/
def samePath (f g : Flit) : Bool :=
  originOf f == originOf g && f.tc == g.tc && (f.dst == g.dst || (f.mgroup != 0 && f.tc == 3)) && (f.tc != 3 || f.mgroup == g.mgroup)

/-- The messages in flight that were sent before one that is, or before a new one. -/
def sentBefore (s : State) (f : Flit) : List Flit := s.gz.flits.takeWhile (· != f)

/-- A multicast flit of TC3 (R42). -/
def isMulti (f : Flit) : Bool := f.tc == 3 && f.mgroup != 0

/-- The outputs of its source that a message leaves by (R39, R42). -/
def outPorts (s : State) (f : Flit) : List Nat :=
  if isMulti f then (List.range 8).filter (bit (look0 s.gz.mcast (originOf f * 4096 + f.mgroup)))
  else (let p := exitPort s (originOf f) f.tc f.dst; if p < 8 then [p] else [])

/-- The header of the COMPLETION that a unit sends to the queue manager (R291). -/
def cplHead (c : Cpl) : Flit := { op := 0x06, tc := 0, dst := 0, src := c.unit.die, oparg := c.queue * 65536 + c.index }

/-- The classes with a message that waits for output p of die d and has a credit there. -/
def readyAt (s : State) (d p : Nat) : List Nat :=
  ((s.gz.flits ++ s.gz.adds.map addHead ++ (s.qm.cpls.filter fun c => dieUp s c.unit.die).map cplHead).filter fun f =>
    originOf f == d && (outPorts s f).contains p && 0 < credits s d p f.tc && portUp s d p).map (·.tc)

/-- Output p of die d sends a flit of a class next (R37): none of a higher class is ready, and after 256 FCLK without one a TC4 flit that is
ready goes first. -/
def outputTakes (s : State) (d p tc : Nat) : Bool :=
  let l := readyAt s d p
  if l.contains 4 && 256 ≤ look0 s.gz.bgWait (d * 16 + p) then tc == 4 else l.all (tc ≤ ·)

/-- FCLK counted at an output while a TC4 flit waits there with a credit (R37): one a flit, two at half rate (R32); only the cycles in which
it sends are counted (DESIGN CHOICE, log entry 50). -/
def countBg (s : State) (d p : Nat) (f : Flit) : State :=
  let k := d * 16 + p
  if f.tc = 4 then s.onGz fun g => { g with bgWait := del g.bgWait k }
  else if (readyAt s d p).contains 4 then
    let n := (if portState s d p = 4 then 2 else 1) * (wireFlits f).length
    s.onGz fun g => { g with bgWait := put g.bgWait k (look0 g.bgWait k + n) }
  else s

/-- A message must wait at its source: its output sends another class first (R37). -/
def outputBusy (s : State) (f : Flit) : Bool := !(outPorts s f).all fun p => outputTakes s (originOf f) p f.tc

/-- A message must wait at its source: one of its path was sent before it (R41), or its output sends another class first (R37). -/
def mustWait (s : State) (f : Flit) : Bool := (sentBefore s f).any (samePath f) || outputBusy s f

/-- What a message meets on its path. -/
inductive Fate where
  | lands (die : Nat)           -- delivered locally there: an entry of 8 (R31)
  | noRoute (die : Nat)         -- it met a no-route entry there (R40)
  | failed (die port : Nat)     -- it met a port that is not up
  | noCredit (die port : Nat)   -- that port holds no credit for it
  deriving DecidableEq, Repr

/-- The path that the active banks give (R39 to R41), fuel hops, each link crossed with credits. An entry 9 to 14, an entry that names a port
without a link and a loop of routes count as no route (DESIGN CHOICE, log entry 50). -/
def travel (f : Flit) : Nat → Nat → State → Fate × State
  | 0, d, s => (.noRoute d, s)
  | n + 1, d, s =>
    let p := exitPort s d f.tc f.dst
    if p = 8 then (.lands d, s)
    else match linkPeer d p with
      | none => (.noRoute d, s)
      | some e =>
        if !portUp s d p then (.failed d p, s)
        else if credits s d p f.tc = 0 then (.noCredit d p, s)
        else travel f n e (crossLink s d p f)

/-- A message that its receiver refuses (R35, R40): TC2 and TC3 are answered with MALFORMED, the others are discarded. -/
def turnAway (s : State) (f : Flit) : State := if f.tc = 2 || f.tc = 3 then refuse s f stMalformed else s

/-- A message that came in a class not listed for its OP, or with an OP outside the table (R35). -/
def badFlit (s : State) (f : Flit) : State := if f.tc = 2 || f.tc = 3 then refuse s f stMalformed else bump s f.dst 0x1038

/-- A flit that reaches a full class buffer (R304): the receiving router counts it and fails the port it came by. -/
def overrun (s : State) (d p : Nat) : State :=
  match linkPeer d p with
  | some e => failPort (bump s e 0x1040) e ((portTo e d).getD 0)
  | none => s

/-- A message at the die where it is delivered: none where R35 turns it away. -/
def delivered (s : State) (f : Flit) : Option Flit × State :=
  if opClass f.op f.tc then (some f, s) else (none, badFlit s f)

/-- A message goes its way, over a state in which it is no longer in flight (R35, R40, R303, R304, R425): none where it waits for a credit;
else whether it is delivered, as delivered, dst the die where that is. One that was not in flight and finds no credit was sent without
one. -/
def goes (sent : Bool) (s : State) (f : Flit) : Option (Option Flit × State) :=
  match travel f 41 (originOf f) ((outPorts s f).foldl (fun s p => countBg s (originOf f) p f) s) with
  | (.noRoute d, t) => some (none, turnAway (bump t d 0x1030) { f with dst := d, via := none })
  | (.failed d _, t) => some (none, if t.sv.fence.contains f.dst || t.sv.fence.contains f.src then bump t d 0x1080 else t)
  | (.noCredit d p, t) => if sent then none else some (none, overrun t d p)
  | (.lands d, t) => some (delivered t { f with dst := d, via := none })

/-- A message sent, unless it is in flight already. -/
def keepFlit (s : State) (f : Flit) : State := if s.gz.flits.contains f then s else sendFlit s f

/-- What becomes of a message whose command runs (R37, R41): none where it is not delivered, else the message as delivered. -/
def arrive (s : State) (f : Flit) : Option Flit × State :=
  let sent := s.gz.flits.contains f
  if mustWait s f then (none, keepFlit s f)
  else (goes sent (takeFlit s f) f).getD (none, s)

/-- The message that a command names: its OP is the row's, unless the flit carries another that the row covers, or one outside the table,
which its receiver turns away (R35). -/
def asOp (op : Nat) (also : List Nat) (f : Flit) : Flit :=
  if f.op = op || also.contains f.op || !((List.range 5).any (opClass f.op)) then f else { f with op := op }

/-! Multicast (R42). -/

/-- A multicast flit on its tree: the dies where it is delivered, the state once it has crossed the tree's links, and whether a branch found
no credit; fuel routers along each branch. A branch that meets a port that is down ends there. -/
def replicate (f : Flit) : Nat → Nat → State → List Nat × State × Bool
  | 0, _, s => ([], s, false)
  | n + 1, d, s =>
    let w := look0 s.gz.mcast (d * 4096 + f.mgroup)
    (List.range 8).foldl (fun x p =>
      if !bit w p then x
      else match linkPeer d p with
        | none => x
        | some e =>
          if !portUp x.2.1 d p then x
          else if credits x.2.1 d p f.tc = 0 then (x.1, x.2.1, true)
          else
            let y := replicate f n e (crossLink x.2.1 d p f)
            (x.1 ++ y.1, y.2.1, x.2.2 || y.2.2)) (if bit w 8 then [d] else [], s, false)

/-- What becomes of a multicast flit: its copies as delivered. It waits until its whole tree has credits. Its DST_DIE names no die; the
entries of the routers do (DESIGN CHOICE, log entry 50). -/
def arriveMulti (s : State) (f : Flit) : List Flit × State :=
  let t := takeFlit s f
  let (ds, u, stuck) := replicate f 41 (originOf f) ((outPorts t f).foldl (fun s p => countBg s (originOf f) p f) t)
  if mustWait s f || stuck then ([], keepFlit s f)
  else ds.foldl (fun x d => match delivered x.2 { f with dst := d } with
    | (some g, t) => (x.1 ++ [g], t)
    | (none, t) => (x.1, t)) ([], u)

/-- The copies of a message that are delivered: one, or those of a multicast flit. -/
def arriveAll (s : State) (f : Flit) : List Flit × State :=
  if isMulti f then arriveMulti s f
  else match arrive s f with
    | (some g, s) => ([g], s)
    | (none, s) => ([], s)

/-! Requests and answers (R305, R306, R308). -/

/-- A descriptor as a number, for what is kept by descriptor. -/
def descKey (h : Hdr) : Nat := (h.queue * 65536 + h.index) * 65536 + h.gen

/-- TAGs of a die in use or quarantined. -/
def tagBusy (s : State) (d t : Nat) : Bool :=
  s.gz.out.any (fun r => r.die == d && r.tag == t) || s.gz.quarantined.contains (d * 65536 + t)

/-- The first free TAG of a die from t on, fuel tries. -/
def freeTag (s : State) (d : Nat) : Nat → Nat → Nat
  | 0, t => t % 65536
  | n + 1, t => if tagBusy s d (t % 65536) then freeTag s d n (t + 1) else t % 65536

/-- The TAG the next request of a die takes (DESIGN CHOICE, log entry 5). -/
def newTag (s : State) (d : Nat) : Nat := freeTag s d (s.gz.out.length + s.gz.quarantined.length) s.gz.nextTag

/-- Request flits a die has outstanding that meet a test. -/
def outFlits (s : State) (d : Nat) (f : OutReq → Bool) : Nat :=
  (s.gz.out.filter fun r => r.die == d && f r).foldl (fun n r => n + r.flits) 0

/-- A request recorded as outstanding under its TAG. -/
def openReq (s : State) (r : OutReq) : State :=
  s.onGz fun g => { g with out := g.out ++ [r], nextTag := (r.tag + 1) % 65536 }

/-- The outstanding request that an answer to a die names. -/
def findReq (s : State) (d t : Nat) : Option OutReq := s.gz.out.find? fun r => r.die == d && r.tag == t

/-- A request answered: its reservation released. -/
def closeReq (s : State) (d t : Nat) : State :=
  s.onGz fun g => { g with out := g.out.filter fun r => !(r.die == d && r.tag == t) }

/-- A CMD core's store is over (R341). -/
def endStore (s : State) (d t : Nat) : State :=
  if d = 0 then s.onCores fun c => { c with stores := c.stores.filter (·.2 != t) } else s

/-- An answer that matches no outstanding request (R308): counted; a quarantined TAG becomes free (DEDUCED, log entry 78). -/
def lateAnswer (s : State) (d t : Nat) : State :=
  bump (s.onGz fun g => { g with quarantined := g.quarantined.filter (· != d * 65536 + t) }) d 0x1048

/-- The requests of a descriptor that ended early: reservations released, TAGs quarantined (R308). -/
def dropReqs (s : State) (h : Hdr) : State :=
  let mine (r : OutReq) : Bool := r.key == some (descKey h)
  s.onGz fun g =>
    { g with quarantined := insAll g.quarantined ((g.out.filter mine).map fun r => r.die * 65536 + r.tag),
             out := g.out.filter fun r => !mine r }

/-! Completion of a descriptor (R288, R291, R292). -/

/-- Same descriptor: same queue, same ring index, same generation. -/
def sameDesc (a b : Hdr) : Bool := a.queue == b.queue && a.index == b.index && a.gen == b.gen

/-- The descriptor as dispatched, while it has not completed. -/
def findDisp (s : State) (h : Hdr) : Option Disp := s.qm.disp.find? fun d => sameDesc d.hdr h

/-- A COMPLETION issued for a descriptor with a given ELAPSED. -/
def issue (s : State) (h : Hdr) (u : UnitId) (st elapsed : Nat) : State :=
  s.onQm fun q =>
    { q with disp := q.disp.filter (fun d => !sameDesc d.hdr h),
             waiting := q.waiting.filter (fun w => !sameDesc w.hdr h),
             cpls := q.cpls ++ [{ status := st, system := h.system, quiet := h.quiet, userTag := h.userTag, queue := h.queue,
                                  index := h.index, gen := h.gen, unit := u, step := h.stamp, elapsed := elapsed }] }

/-- A dispatched descriptor completes: ELAPSED is time, which the model leaves free (DESIGN CHOICE, log entry 2). -/
def complete (s : State) (h : Hdr) (u : UnitId) (st : Nat) : State := (issue s h u st (fresh s % 2 ^ 32)).took

/-- A descriptor never dispatched completes: ELAPSED = 0 (R288). -/
def completeIdle (s : State) (h : Hdr) (u : UnitId) (st : Nat) : State := issue s h u st 0

/-- A unit is fenced: by itself, or with its die (R425). -/
def unitFenced (s : State) (u : UnitId) : Bool :=
  s.sv.fence.contains u.die
  || (isTw u.die && ((u.unit < 4 && s.sv.fenceCore.contains (4 * (u.die - 2) + u.unit))
        || (u.unit = 5 && s.sv.fenceTwMover.contains (u.die - 2))))
  || (isMu u.die && ((u.unit < 4 && s.sv.fenceEng.contains (4 * (u.die - 18) + u.unit))
        || (u.unit = 4 && s.sv.fenceOpt.contains (u.die - 18)) || (u.unit = 5 && s.sv.fenceMuMover.contains (u.die - 18))))

/-- The units of CMD that start descriptors in an order of their own (R276, R285, R299): 1 the step sequencer, 2 the security engine, which
takes the critical commands first, 3 CMD control; 0 the queue manager, and every unit outside CMD. -/
def startGroup : Instr → Nat
  | .sqRun _ _ | .sqStop _ => 1
  | .imageLoad _ _ _ | .quotaSet _ _ _ _ _ _ _ | .debugOn _ _ | .lockSet _ _ | .lockClear _ _ | .almanacWrite _ _ _ _ _ _
  | .fwUpdateStart _ _ _ _ _ | .bypassForceClose _ _ | .bypassForceRelease _ _ | .twinTakeover _ _ _
  | .keyAgree _ _ _ _ _ _ | .keyRetire _ _ | .quote _ _ _ _ _ | .ownerSet _ _ _ _ => 2
  | .tnSnapshot _ _ | .tnHandback _ _ => 3
  | _ => 0

/-- Two descriptors start in dispatch order (R285). -/
def sameOrder (a b : Disp) : Bool := a.unit == b.unit && startGroup a.cmd == startGroup b.cmd

/-- An earlier descriptor lets a later one of its unit start: it has been started and is not paused (R239 step 1, R285); a Muslin engine
must have completed it (R178). -/
def letsPass (s : State) (d : Disp) : Bool :=
  d.started && (look s.mu.gatherPos (descKey d.hdr)).isNone && !(isMu d.unit.die && d.unit.unit < 4)

/-- The unit may start the descriptor now: it has not started it, the unit is not fenced, the descriptor is not armed for a Datum to come,
and every earlier descriptor of its unit lets it pass (R61, R285). A descriptor that is not in the dispatch list starts at once, unless
it waits for answers (DESIGN CHOICE, log entry 8). -/
def canStart (s : State) (h : Hdr) : Bool :=
  match findDisp s h with
  | none => !s.qm.waiting.any fun w => sameDesc w.hdr h
  | some d => !d.started && !d.armed && !unitFenced s d.unit &&
    ((s.qm.disp.takeWhile fun e => !sameDesc e.hdr h).all fun e => letsPass s e || !sameOrder e d)

/-- The descriptor marked as begun by its unit. -/
def markStarted (s : State) (h : Hdr) : State :=
  s.onQm fun q => { q with disp := q.disp.map fun d => if sameDesc d.hdr h then { d with started := true } else d }

/-- A descriptor run by its unit: nothing happens while the unit may not start it (DESIGN CHOICE, log entry 8). -/
def runDesc (s : State) (h : Hdr) (body : State → State) : State := if canStart s h then body s else s

/-- The descriptor waits for the answers to its requests. -/
def waitFor (s : State) (w : Waiting) : State :=
  (markStarted s w.hdr).onQm fun q => { q with waiting := q.waiting.filter (fun x => !sameDesc x.hdr w.hdr) ++ [w] }

/-- What a Gauze request of a die is waited for as, and what a far write is. -/
def reqWait (die tag : Nat) : Nat := die * 65536 + tag
def postWait (tag : Nat) : Nat := 2 ^ 24 + tag

/-- The status of a command whose answers are all in: the first refusing status, else DONE_PARTIAL when one was late (R197,
R198). -/
def Waiting.final (w : Waiting) : Nat := if w.status = 0 && w.late then stPartial else w.status

/-- The command that waits is a FENCE. -/
def fenceWaiting (s : State) (w : Waiting) : Bool :=
  match findDisp s w.hdr with | some d => (match d.cmd with | .fence _ _ _ _ => true | _ => false) | none => false

/-- The status of a waiting command once an answer is in: the first refusing one; for a FENCE a lost ring link, else a lost far write,
and nothing else (R295). -/
def mergeStatus (fence : Bool) (old st : Nat) : Nat :=
  if fence then (if old = stLinkLost || st = stLinkLost then stLinkLost else if st = stPartial then stPartial else old)
  else if old = 0 then st else old

/-- One waiting command takes an answer; after its last one it completes. -/
def takeAnswer (key st : Nat) (late : Bool) (s : State) (w : Waiting) : State :=
  let w' := { w with tags := w.tags.erase key, status := mergeStatus (fenceWaiting s w) w.status st, late := w.late || late }
  if w'.tags.isEmpty then complete s w.hdr w.unit w'.final
  else s.onQm fun q => { q with waiting := q.waiting.map fun x => if sameDesc x.hdr w.hdr then w' else x }

/-- An answer awaited by descriptors: st is its status (0 for an acknowledgement), late its LATE bit. -/
def answered (s : State) (key st : Nat) (late : Bool) : State :=
  (s.qm.waiting.filter fun w => w.tags.contains key).foldl (takeAnswer key st late) s

/-- A command's outputs are written; s0 is the state before them. Under SCOPE = SYSTEM it completes only after the expanders have
completed its far writes (R293). -/
def finish (s0 s : State) (h : Hdr) (u : UnitId) (st : Nat) : State :=
  let new := (s.mem.posted.map (·.tag)).filter fun t => !(s0.mem.posted.map (·.tag)).contains t
  if h.system && !new.isEmpty then waitFor s { hdr := h, unit := u, tags := new.map postWait, status := st }
  else complete s h u st

/-! Commands that send as room allows (R306). -/

/-- What a command with messages still to send waits for, beside its answers. -/
def moreKey (h : Hdr) : Nat := 2 ^ 48 + descKey h

/-- The command has sent all it will: only its answers are awaited. -/
def endAdds (s : State) (h : Hdr) (st : Nat) : State :=
  answered (s.onMu fun m => { m with gatherPos := del m.gatherPos (descKey h) }) (moreKey h) st false

end Sys2Proof.Machine
end

