-- ==== Sys2Proof/Machine/Operands.lean ====
section
/-!
DEFINITION. Operands of the commands: the image's records (R326), address ranges (R21), holdings and quotas (R247 to R249), the
access check of R248, and the unit that a descriptor names.
-/

namespace Sys2Proof.Machine

/-! The image in force (R322, R326). A record is the list of its fields in packing order. -/

abbrev Rec := List Nat

/-- Field i of a record. -/
def fld (r : Rec) (i : Nat) : Nat := r.getD i 0

/-- The records of a section of the image in force; none without an image. -/
def sect (s : State) (code : Nat) : List Rec :=
  match s.img.inForce with
  | none => []
  | some i => lookD i.sections code []

/-- The first record of a section whose field i is v. -/
def recBy (s : State) (code i v : Nat) : Option Rec := (sect s code).find? fun r => fld r i == v

/-- The PANELS record of a panel: the panel is defined (R326). -/
def panelRec (s : State) (p : Nat) : Option Rec := recBy s 0x04 0 p

/-- The panel of core g (R122). -/
def panelOfCore (s : State) (g : Nat) : Option Nat := ((sect s 0x04).find? fun r => bit (fld r 2) g).map (fld · 0)

/-- The ring of queue 0: a ring of its own that no image numbers (R328). -/
abbrev ring0 := 4096

/-- The number that queue 0's ring goes by in registers: the highest that the image in force leaves undefined, from n down (DESIGN CHOICE,
log entry 9). -/
def ring0From (s : State) : Nat → Nat
  | 0 => ring0
  | n + 1 => if (recBy s 0x0C 0 n).isSome then ring0From s n else n
/-- It over the 12 bits of CM.RSEL (R302). -/
def ring0Shown (s : State) : Nat := ring0From s 4096

/-- CMD firmware has defined queue 0 (R328, R478 step 11). -/
def queue0Up (s : State) : Bool := (look s.qm.queues 0).isSome

/-- The QUEUES record of a queue. Queue 0 lies in the firmware area; where there and how large is free (DESIGN CHOICE, log entry 9). -/
def queueRec (s : State) (q : Nat) : Option Rec :=
  if q = 0 then
    if queue0Up s then
      some [0, 0, 0, 0, 4 + Config.freeValue (2 ^ 66) % 13, ring0, fwArea + 256 * (Config.freeValue (2 ^ 66 + 1) % 0x300000)]
    else none
  else recBy s 0x0B 0 q

/-- The CRINGS record of a ring: RING, LOG2_SIZE, NOTIFY, VECTOR, BASE. Queue 0's ring lies in the firmware area (DESIGN CHOICE, log entry 9). -/
def ringRec (s : State) (n : Nat) : Option Rec :=
  if n = ring0 then
    if queue0Up s then
      some [ring0, 6 + Config.freeValue (2 ^ 66 + 2) % 11, Config.freeValue (2 ^ 66 + 3) % 3, Config.freeValue (2 ^ 66 + 4) % 2048,
            fwArea + 0x30000000 + 16 * (Config.freeValue (2 ^ 66 + 5) % 0x800000)]
    else none
  else recBy s 0x0C 0 n

/-- The panel of a queue; none for a FIRMWARE queue, queue 0 among them (R269, R328). -/
def panelOfQueue (s : State) (q : Nat) : Option Nat :=
  match queueRec s q with
  | some r => if fld r 2 = 1 then some (fld r 1) else none
  | none => none

/-- CLASS of a queue (R269): queue 0 is FIRMWARE. -/
def classOfQueue (s : State) (q : Nat) : Nat := match queueRec s q with | some r => fld r 3 | none => 0

/-- A table's record. -/
def tableRec (s : State) (t : Nat) : Option Rec := recBy s 0x10 0 t

/-- A stream's record. -/
def streamRec (s : State) (n : Nat) : Option Rec := recBy s 0x13 0 n

/-- The consumer of a stream is a Twill core (R255). -/
def coreConsumer (r : Rec) : Bool := fld r 4 == 0
/-- The window length of a stream. -/
def winBytes (r : Rec) : Nat := fld r 8 * 4096
/-- CHUNK of a stream (R259). -/
def chunkBytes (r : Rec) : Nat := 2 ^ fld r 7
/-- Credits of a stream whose window is empty (R259). -/
def fullCredits (r : Rec) : Nat := if fld r 3 = 1 then winBytes r / chunkBytes r else 0

/-- The LEDGERS record of a region on MUk. -/
def ledgerRec (s : State) (k region : Nat) : Option Rec :=
  (sect s 0x0E).find? fun r => fld r 0 == k && fld r 1 == region

/-- The shard of a row: its package index and record (R158, R203). -/
def shardOf (s : State) (t row : Nat) : Option (Nat × Rec) :=
  let l := sect s 0x11
  ((List.range l.length).zip l).find? fun p => fld p.2 1 == t && fld p.2 0 ≤ row && row < fld p.2 0 + fld p.2 3

/-! Ranges (R21). -/

/-- A range: start and length in bytes. -/
abbrev Range := Nat × Nat

/-- Bytes two ranges share. -/
def shared (r q : Range) : Nat :=
  if r.1 < q.1 + q.2 && q.1 < r.1 + r.2 then min (r.1 + r.2) (q.1 + q.2) - max r.1 q.1 else 0

/-- Two ranges share a byte (R21's test of overlap). -/
def meets (r q : Range) : Bool := shared r q != 0

/-- A range lies wholly within a list of disjoint ranges. -/
def within (l : List Range) (r : Range) : Bool := (l.map (shared r)).sum == r.2

/-- GiB of Stash populated in a variant (R20). -/
def stashGib : Variant → Nat
  | .a => 8
  | .b => 4
  | .c => 0

/-- Ranges that resolve to UNIT_ABSENT (R20, R21, R27): unpopulated Stash, a failed stack, the Stash of a FAILED stash die and
the stacks of a FAILED Muslin die (DEDUCED, log entry 49). -/
def absentRanges (s : State) : List Range :=
  (stashBase + gib * stashGib s.pkg.variant, gib * (8 - stashGib s.pkg.variant))
  :: ((List.range 16).filter (fun j => !stackUp s j)).map (fun j => (stackSize * j, stackSize))
  ++ ((List.range (stashGib s.pkg.variant)).filter (fun n => !dieUp s (26 + n))).map (fun n => (stashBase + gib * n, gib))

/-- Installed capacity of far port p in GiB (R48). -/
def farGib (s : State) (p : Nat) : Nat := (lookD s.pkg.far p {}).gib

/-- The ranges that resolve as memory: Home, the Stash window, each far port's installed capacity (R19, R25). -/
def memRanges (s : State) : List Range :=
  (0, homeTop) :: (stashBase, 8 * gib) :: (List.range 4).map fun p => (farBase + 0x40000000000 * p, gib * farGib s p)

/-- The outcome of R21 for the ranges of one operand: none when the address is valid. -/
def r21 (s : State) (rs : List Range) : Option Nat :=
  if rs.any fun r => (absentRanges s).any (meets r) then some stAbsent
  else if rs.all fun r => within (memRanges s) r then none
  else some stMalformed

/-- The rows of a strided operand (R21): the bytes between rows are no part of it. -/
def strided (a len stride n : Nat) : List Range := (List.range n).map fun i => (a + i * stride, len)

/-! Holdings (R247, R248). -/

def holdings (s : State) : List Rec := sect s 0x0D
def holdRange (r : Rec) : Range := (fld r 5, fld r 6)

/-- The ledger areas (R186). -/
def ledgerAreas (s : State) : List Range := ((holdings s).filter fun r => fld r 1 == 2).map holdRange

/-- Panel p may access a holding in that direction: the owner both ways, a reader for reads; SYSTEM holdings belong to none. -/
def mayAccess (p : Nat) (wr : Bool) (r : Rec) : Bool :=
  fld r 3 == 0 && (fld r 2 == p || (!wr && bit (fld r 7) p))

/-- The working regions (R219). -/
def workingRegions (s : State) : List Range := (sect s 0x15).map fun r => (fld r 2, fld r 0)

/-- R248 for one DA operand of a panel's descriptor; without a panel, R21 and the ledger areas (R186) alone. -/
def checkPanel (s : State) (panel : Option Nat) (wr : Bool) (rs : List Range) : Option Nat :=
  match r21 s rs with
  | some st => some st
  | none =>
    if rs.any fun r => (ledgerAreas s).any (meets r) then some stMalformed
    else match panel with
    | none => none
    | some p =>
      if rs.all fun r => within (((holdings s).filter (mayAccess p wr)).map holdRange) r then none
      else some stQuota

/-- R248 for one DA operand: descriptors of FIRMWARE queues answer to R21 and R186 alone. -/
def checkDa (s : State) (h : Hdr) (wr : Bool) (rs : List Range) : Option Nat := checkPanel s (panelOfQueue s h.queue) wr rs

/-- R248 for an output: outside MU_OPT_DENSE, no descriptor writes a working region (R219). -/
def checkOut (s : State) (h : Hdr) (rs : List Range) : Option Nat :=
  match r21 s rs with
  | some st => some st
  | none =>
    if rs.any fun r => (workingRegions s).any (meets r) then some stMalformed else checkDa s h true rs

/-- The first outcome among operand checks. -/
def firstSome : List (Option Nat) → Option Nat
  | [] => none
  | some st :: _ => some st
  | none :: r => firstSome r

/-- MiB of a panel's holdings in a tier: 0 Stash, 1 Home, 2 Far (R249). -/
def tierOf (a : Nat) : Nat := if a < homeTop then 1 else if a < farBase then 0 else 2
def placedBytes (s : State) (p tier : Nat) : Nat :=
  (((holdings s).filter fun r => fld r 3 == 0 && fld r 2 == p && tierOf (fld r 5) == tier).map (fld · 6)).sum

/-! Multicast groups and the room for requests (R305, R306, R317, R385). -/

/-- The receivers of every group: GROUP, PANEL, SRC_DIE, RCV_DIE, the report ring, STREAM, and for a remote one its device plus one, else 0.
A remote receiver's panel and source are those of its group. -/
def mcMembers (s : State) : List Rec :=
  (sect s 0x09).map (fun r => r.take 6 ++ [0])
  ++ (s.rings.map_.filter fun r => fld r 0 == 2).filterMap fun x =>
       ((sect s 0x09).find? fun r => fld r 0 == fld x 1).map fun r => [fld x 1, fld r 1, fld r 2, fld x 3, fld x 5, fld x 4, fld x 2 + 1]

/-- The key of a receiver. -/
def mcKey (m : Rec) : Nat := 2 ^ 18 * fld m 6 + 64 * fld m 0 + fld m 3

def mcRecvOf (s : State) (m : Rec) : McRecv := lookD s.gz.mcRecv (mcKey m) {}
def setRecv (s : State) (m : Rec) (f : McRecv → McRecv) : State :=
  s.onGz fun g => { g with mcRecv := put g.mcRecv (mcKey m) (f (lookD g.mcRecv (mcKey m) {})) }

/-- The attached receivers of the groups that a die is the source of: each holds 64 flits of the die's store (R305). -/
def mcReserved (s : State) (d : Nat) : Nat :=
  64 * ((mcMembers s).filter fun m => fld m 2 == d && (mcRecvOf s m).attached).length

/-- Room for n more request flits within the limits of R306 and the response store of R305 (DEDUCED, log entry 52). -/
def reqRoom (s : State) (r : OutReq) : Bool :=
  outFlits s r.die (fun _ => true) + r.flits ≤ 4096
  && (!r.far || outFlits s r.die (·.far) + r.flits ≤ 256)
  && (!r.remote || outFlits s r.die (·.remote) + r.flits ≤ 512)
  && (s.gz.out.filter fun x => x.die == r.die).foldl (fun n x => n + x.resv) 0 + mcReserved s r.die + r.resv ≤ 4096

/-! The units descriptors name (R276, R277, R288). -/

/-- The die of a stream's consumer (R255). -/
def consumerDie (r : Rec) : Nat := if fld r 4 = 0 then 2 + fld r 5 / 4 else 18 + fld r 5 / 4

/-- The unit of ST_RELEASE's CORE field (R262). -/
def releaseUnit (c : Nat) : UnitId := if c < 64 then coreUnit c else engUnit (c - 64)

end Sys2Proof.Machine
end

