-- ==== Sys2Proof/Machine/Numfmt.lean ====
section
/-!
DEFINITION. Number formats and conversions (spec/03_number_formats.md): codes to exact values, the roundings, block scales, packing,
and the draw generators of R233 to R235. A finite value is a dyadic m × 2^e with its sign.
-/

namespace Sys2Proof.Machine

/-! Format codes (R75, R76, R79). -/

/-- The width in bits of a format code (R75). -/
def fmtWidth (f : Nat) : Nat := ([4, 6, 6, 8, 8, 8, 16, 16, 4, 4, 8, 8, 16, 32, 8] : List Nat).getD f 8

/-- The parts of a format specifier (R76). -/
def specFmt (x : Nat) : Nat := x % 16
def specBlock (x : Nat) : Bool := bit x 4
def specGrad (x : Nat) : Bool := bit x 5
def specOvf (x : Nat) : Bool := bit x 6

/-- A floating format: mantissa bits, bias, exponent bits, signed. -/
structure FloatFmt where
  man    : Nat
  bias   : Nat
  exp    : Nat
  signed : Bool
  deriving DecidableEq, Repr

/-- The floating formats (R79). -/
def floatFmt (f : Nat) : FloatFmt :=
  match f with
  | 0 => ⟨1, 1, 2, true⟩
  | 1 => ⟨2, 3, 3, true⟩
  | 2 => ⟨3, 1, 2, true⟩
  | 3 => ⟨3, 7, 4, true⟩
  | 4 => ⟨2, 15, 5, true⟩
  | 5 => ⟨3, 15, 5, false⟩
  | 6 => ⟨7, 127, 8, true⟩
  | _ => ⟨10, 15, 5, true⟩

/-- Formats whose subnormal codes are flushed (R84). -/
def flushes (f : Nat) : Bool := 3 ≤ f && f ≤ 7
/-- Floating format codes. -/
def isFloat (f : Nat) : Bool := f ≤ 7
/-- Integer format codes. -/
def isInt (f : Nat) : Bool := 8 ≤ f && f ≤ 13

/-- The range of an integer format (R87). -/
def intRange (f : Nat) : Int × Int :=
  match f with
  | 8 => (-8, 7)
  | 9 => (0, 15)
  | 10 => (-128, 127)
  | 11 => (0, 255)
  | 12 => (-32768, 32767)
  | _ => (-2147483648, 2147483647)

/-- The largest finite magnitude of a format, as (m, e) (R79, R91). -/
def fmtMax (f : Nat) : Nat × Int :=
  match f with
  | 0 => (6, 0)
  | 1 => (28, 0)
  | 2 => (15, -1)
  | 3 => (448, 0)
  | 4 => (57344, 0)
  | 5 => (114688, 0)
  | 6 => (255, 120)
  | 7 => (65504, 0)
  | 8 => (7, 0)
  | 10 => (127, 0)
  | _ => ((intRange f).2.toNat, 0)

/-! Exact values. -/

/-- Zero. -/
def Val.zero : Val := .fin false 0 0

/-- The value of an integer times a power of two. -/
def ofInt (i : Int) (e : Int) : Val := .fin (i < 0) i.natAbs e

/-- A finite value as a signed significand and an exponent; 0 for the others. -/
def Val.num : Val → Int × Int
  | .fin n m e => (if n then -(m : Int) else m, e)
  | _ => (0, 0)

/-- A finite value. -/
def Val.isFin : Val → Bool
  | .fin _ _ _ => true
  | _ => false

/-- m × 2^e in units of 2^u, for u at most e. -/
def scaleTo (i : Int) (e u : Int) : Int := i * 2 ^ (e - u).toNat

/-- The exact sum of two dyadics. -/
def addDy (x y : Int × Int) : Int × Int :=
  let u := min x.2 y.2
  (scaleTo x.1 x.2 u + scaleTo y.1 y.2 u, u)

/-- The exact product (IEEE 754 on specials). -/
def Val.mul : Val → Val → Val
  | .nan, _ => .nan
  | _, .nan => .nan
  | .inf s, .inf t => .inf (s != t)
  | .inf s, .fin t m _ => if m = 0 then .nan else .inf (s != t)
  | .fin s m _, .inf t => if m = 0 then .nan else .inf (s != t)
  | .fin s m e, .fin t n f => .fin (s != t) (m * n) (e + f)

/-- The exact sum; an exact zero is +0 unless both are −0. -/
def Val.add : Val → Val → Val
  | .nan, _ => .nan
  | _, .nan => .nan
  | .inf s, .inf t => if s = t then .inf s else .nan
  | .inf s, .fin _ _ _ => .inf s
  | .fin _ _ _, .inf t => .inf t
  | .fin s m e, .fin t n f =>
    let d := addDy (Val.num (.fin s m e)) (Val.num (.fin t n f))
    if d.1 = 0 then .fin (s && t && m == 0 && n == 0) 0 0 else ofInt d.1 d.2

def Val.neg : Val → Val
  | .fin s m e => .fin (!s) m e
  | .inf s => .inf (!s)
  | .nan => .nan

def Val.abs : Val → Val
  | .fin _ m e => .fin false m e
  | .inf _ => .inf false
  | .nan => .nan

/-- Strictly below, among values that are not NaN; +0 and −0 are equal. -/
def Val.lt : Val → Val → Bool
  | .nan, _ => false
  | _, .nan => false
  | .inf s, .inf t => s && !t
  | .inf s, .fin _ _ _ => s
  | .fin _ _ _, .inf t => !t
  | .fin s m e, .fin t n f =>
    let u := min e f
    scaleTo (Val.num (.fin s m e)).1 e u < scaleTo (Val.num (.fin t n f)).1 f u

/-- m × 2^e ≤ n × 2^f for magnitudes. -/
def magLe (x y : Nat × Int) : Bool :=
  let u := min x.2 y.2
  x.1 * 2 ^ (x.2 - u).toNat ≤ y.1 * 2 ^ (y.2 - u).toNat

/-! Codes to values (R80 to R90). -/

/-- The value of an element code (R80, R83, R84, R87). -/
def decodeVal (f c : Nat) : Val :=
  if isFloat f then
    let p := floatFmt f
    let m := c % 2 ^ p.man
    let e := (c / 2 ^ p.man) % 2 ^ p.exp
    let s := p.signed && bit c (p.man + p.exp)
    let isNan := match f with
      | 3 => c % 128 == 127
      | 4 => e == 31 && m != 0
      | 5 => c % 256 == 255
      | 6 => e == 255 && m != 0
      | 7 => e == 31 && m != 0
      | _ => false
    let isInf := (f == 4 && e == 31 || f == 6 && e == 255 || f == 7 && e == 31) && m == 0
    if isNan then .nan
    else if isInf then .inf s
    else if e = 0 then (if flushes f then .fin s 0 0 else .fin s m (1 - (p.bias : Int) - p.man))
    else .fin s (m + 2 ^ p.man) ((e : Int) - p.bias - p.man)
  else if f = 9 || f = 11 then .fin false c 0
  else ofInt (signed (fmtWidth f) c) 0

/-- An E8M0 scale (R88). -/
def decodeScale (c : Nat) : Val := if c % 256 = 255 then .nan else .fin false 1 ((c % 256 : Nat) - 127 : Int)

/-- An element of a block-scaled tensor (R90). -/
def decodeScaled (f c sc : Nat) : Val :=
  if sc % 256 = 255 then .nan
  else match decodeVal f c with
    | .fin s m e => .fin s m (e + (sc % 256 : Nat) - 127)
    | v => v

/-! Roundings (R93 to R98). A magnitude is (m, e) with m ≠ 0. -/

/-- How a conversion rounds: to nearest even, or stochastically with a 16-bit draw. -/
inductive Rnd where
  | rne
  | sr (draw : Nat)
  deriving DecidableEq, Repr

/-- The exponent of the leading bit of m × 2^e. -/
def leadExp (m : Nat) (e : Int) : Int := e + Nat.log2 m

/-- m × 2^e in units of 2^q, rounded: to nearest even, or up when the discarded fraction and the draw carry (R94, R97). -/
def roundTo (r : Rnd) (m : Nat) (e q : Int) : Nat :=
  if q ≤ e then m * 2 ^ (e - q).toNat
  else
    let d := 2 ^ (q - e).toNat
    let lo := m / d
    let rem := m % d
    match r with
    | .rne => if d < 2 * rem || (2 * rem == d && lo % 2 == 1) then lo + 1 else lo
    | .sr x => if 65536 ≤ rem * 65536 / d + x then lo + 1 else lo

/-- Round to odd onto a grid of 2^q, toward zero with the last kept bit set when a bit is lost (R96). -/
def rtoGrid (m : Nat) (e q : Int) : Nat :=
  if q ≤ e then m * 2 ^ (e - q).toNat
  else
    let d := 2 ^ (q - e).toNat
    let lo := m / d
    if m % d = 0 then lo else if lo % 2 = 1 then lo else lo + 1

/-- Round to odd to p significant bits: the kept significand and exponent (R96). -/
def rtoBits (p m : Nat) (e : Int) : Nat × Int :=
  if Nat.log2 m < p then (m, e)
  else
    let q := e + (Nat.log2 m + 1 - p : Nat)
    (rtoGrid m e q, q)

/-- A magnitude rounded into a floating format's value grid (R94, R97, R98): n × 2^q. -/
def roundFloat (f : Nat) (r : Rnd) (m : Nat) (e : Int) : Nat × Int :=
  let p := floatFmt f
  let minE : Int := 1 - (p.bias : Int)
  let le := leadExp m e
  if flushes f then
    match r with
    | .rne => let q := le - p.man; (roundTo r m e q, q)
    | .sr _ => if le < minE then (roundTo r m e minE, minE) else let q := le - p.man; (roundTo r m e q, q)
  else let q := max le minE - p.man; (roundTo r m e q, q)

/-- The sign bit of a code. -/
def signBit (f : Nat) (s : Bool) : Nat :=
  let p := floatFmt f
  if p.signed && s then 2 ^ (p.man + p.exp) else 0

/-- The code of a representable magnitude n × 2^q of a floating format. -/
def codeOf (f n : Nat) (q : Int) : Nat :=
  let p := floatFmt f
  if n = 0 then 0
  else
    let le := leadExp n q
    if le < 1 - (p.bias : Int) then (n * 2 ^ (q - (1 - (p.bias : Int) - p.man)).toNat)
    else
      let field := (le + p.bias).toNat
      field * 2 ^ p.man + (n * 2 ^ p.man / 2 ^ Nat.log2 n - 2 ^ p.man)

/-- The code of a floating format's largest finite magnitude. -/
def maxCode (f : Nat) : Nat := ([7, 31, 31, 0x7E, 0x7B, 0xFE, 0x7F7F, 0x7BFF] : List Nat).getD f 0
/-- The code of +infinity, where there is one (R83). -/
def infCode (f : Nat) : Nat := match f with | 4 => 0x7C | 6 => 0x7F80 | 7 => 0x7C00 | _ => maxCode f
/-- The canonical NaN (R83, R99). -/
def nanCode (f : Nat) : Nat := match f with | 3 => 0x7F | 4 => 0x7E | 5 => 0xFF | 6 => 0x7FC0 | 7 => 0x7E00 | _ => 0

/-- A value converted into a floating format (R94, R95, R97 to R100). -/
def encodeFloat (f : Nat) (r : Rnd) : Val → Nat
  | .nan => nanCode f
  | .inf s => if f = 5 && s then 0 else infCode f + signBit f s
  | .fin s m e =>
    if m = 0 then signBit f s
    else if f = 5 && s then 0
    else
      let big := !magLe (m, e) (fmtMax f)
      match r with
      | .sr _ =>
        if big then maxCode f + signBit f s
        else let n := roundFloat f r m e; codeOf f n.1 n.2 + signBit f s
      | .rne =>
        let n := roundFloat f r m e
        if !magLe n (fmtMax f) then (if f = 6 || f = 7 then infCode f else maxCode f) + signBit f s
        else if flushes f && leadExp n.1 n.2 < 1 - ((floatFmt f).bias : Int) then signBit f s
        else codeOf f n.1 n.2 + signBit f s

/-- An integer put into an integer format under OVF (R101, R102). -/
def clampInt (f : Nat) (ovf : Bool) (i : Int) : Nat :=
  let (lo, hi) := intRange f
  if lo ≤ i && i ≤ hi then twos (fmtWidth f) i
  else if ovf then twos (fmtWidth f) i
  else twos (fmtWidth f) (if i < lo then lo else hi)

/-- A value converted into an integer format (R99, R100, R101). -/
def encodeInt (f : Nat) (ovf : Bool) : Val → Nat
  | .nan => 0
  | .inf s => let (lo, hi) := intRange f; twos (fmtWidth f) (if s then lo else hi)
  | .fin s m e =>
    let n : Nat := if m = 0 then 0 else roundTo .rne m e 0
    clampInt f ovf (if s then -(n : Int) else n)

/-- A value converted into the element format of a specifier, unscaled. -/
def encodeVal (spec : Nat) (r : Rnd) (v : Val) : Nat :=
  if isFloat (specFmt spec) then encodeFloat (specFmt spec) r v else encodeInt (specFmt spec) (specOvf spec) v

/-! Block scaling (R91, R92). -/

/-- The larger of two magnitudes. -/
def magMax (x y : Nat × Int) : Nat × Int := if magLe x y then y else x

/-- The largest magnitude among finite values. -/
def blockMax (vs : List Val) : Nat × Int :=
  vs.foldl (fun a v => match v with | .fin _ m e => magMax a (m, e) | _ => a) (0, 0)

/-- The smallest k with m ≤ fmax × 2^k, for m ≠ 0 (R91). -/
def scaleExp (f : Nat) (m : Nat × Int) : Int :=
  let fm := fmtMax f
  let k := leadExp m.1 m.2 - leadExp fm.1 fm.2
  if magLe m (fm.1, fm.2 + k) then k else k + 1

/-- The scale of a block (R91, R92). -/
def blockScale (f : Nat) (vs : List Val) : Nat :=
  if vs.any (fun v => !v.isFin) && f != 4 then 255
  else
    let m := blockMax vs
    if m.1 = 0 then 127 else (max 0 (min 254 (127 + scaleExp f m))).toNat

/-- A value divided by a block's scale. -/
def unscale (sc : Nat) : Val → Val
  | .fin s m e => .fin s m (e - ((sc : Int) - 127))
  | v => v

/-- The element code of a value in a block of scale sc (R91, R92). -/
def encodeScaled (spec sc : Nat) (r : Rnd) (v : Val) : Nat :=
  if sc = 255 then 0 else encodeVal spec r (unscale sc v)

/-! Specifier checks (R77, R103). -/

/-- A source specifier's rules: no 0xF, no scale format, BLOCK only where allowed, no GRAD. Bit 7 is reserved, and a 1 there is ignored
(DESIGN CHOICE, log entry 82). -/
def specSrcOk (x : Nat) : Bool :=
  specFmt x != 15 && specFmt x != 14
  && (!specBlock x || specFmt x ≤ 5 || specFmt x == 8 || specFmt x == 10) && !specGrad x

/-- A result specifier's rules: no INT32 in a conversion's result, GRAD only on floating formats. -/
def specResOk (x : Nat) : Bool :=
  specFmt x ≤ 12 && (!specBlock x || specFmt x ≤ 5 || specFmt x == 8 || specFmt x == 10)
  && (!specGrad x || specFmt x ≤ 7)

/-- The innermost dimension of a tensor suits its format (R78, R89). -/
def dimOk (x n : Nat) : Bool :=
  (fmtWidth (specFmt x) != 6 || n % 4 == 0) && (!specBlock x || n % 32 == 0)

/-- A tensor starts on a group boundary of its format: an address that is a multiple of 3 for 6-bit elements (R78; DEDUCED, log entry 80). -/
def startOk (x a : Nat) : Bool := fmtWidth (specFmt x) != 6 || a % 3 == 0

/-! Packing (R78): element i of a tensor of width w lies at bit w × i of its little-endian bytes. -/

/-- Bytes that n elements of a format take. -/
def elemBytes (x n : Nat) : Nat := ceilDiv (n * fmtWidth (specFmt x)) 8

/-- The elements packed in bytes. -/
def unpack (w n : Nat) (bs : List Byte) : List Nat :=
  (List.range n).map fun i => ofLe ((bs.drop (w * i / 8)).take 4) / 2 ^ (w * i % 8) % 2 ^ w

/-- Elements packed over old bytes: bits past the last element stay. -/
def packOver (w : Nat) (cs : List Nat) (old : List Byte) : List Byte :=
  let n := w * cs.length
  let v := cs.foldr (fun c acc => acc * 2 ^ w + c % 2 ^ w) 0
  leBytes old.length (ofLe old / 2 ^ n * 2 ^ n + v)

/-- The values of n elements with their scales: scale byte i / 32 of the row's scales. -/
def elemVals (x : Nat) (cs scs : List Nat) : List Val :=
  ((List.range cs.length).zip cs).map fun p =>
    if specBlock x then decodeScaled (specFmt x) p.2 (scs.getD (p.1 / 32) 127) else decodeVal (specFmt x) p.2

/-! Draw generators (R233 to R235). -/

/-- One step of a generator. -/
def genStep (v : Nat) : Nat :=
  let a := (v ^^^ (v <<< 13)) % 2 ^ 64
  let b := a ^^^ (a >>> 7)
  (b ^^^ (b <<< 17)) % 2 ^ 64

/-- The seed of a lane at an image load. -/
def genSeed (seed lane : Nat) : Nat :=
  let v := (seed + lane * 0x9E3779B97F4A7C15) % 2 ^ 64
  if v = 0 then 1 else v

/-- A lane's generator: its seed until it first advances (DESIGN CHOICE, log entry 6). -/
def genState (s : State) (lane : Nat) : Nat := lookD s.tw.gens lane (genSeed s.tw.seed lane)

/-- DRAW_MODE of the image in force is FIXED. -/
def drawFixed (s : State) : Bool := match sect s 0x02 with | r :: _ => fld r 2 == 1 | [] => false

/-- One draw of a lane: FIXED steps the generator and reads it; FREE reads a generator that runs with the clock, a free value (DESIGN
CHOICE, log entry 72). -/
def draw (s : State) (fixed : Bool) (lane : Nat) : Nat × State :=
  if fixed then
    let v := genStep (genState s lane)
    (v / 2 ^ 48, s.onTw fun t => { t with gens := put t.gens lane v })
  else (fresh s % 65536, s.took)

/-- One value converted under a specifier, with a draw of its lane when it rounds stochastically. -/
def convElem (s : State) (spec sc : Nat) (grad fixed : Bool) (lane : Nat) (v : Val) : Nat × State :=
  if grad then
    let (d, s) := draw s fixed lane
    (if specBlock spec then encodeScaled spec sc (.sr d) v else encodeVal spec (.sr d) v, s)
  else (if specBlock spec then encodeScaled spec sc .rne v else encodeVal spec .rne v, s)

/-- Values converted one after another, each with its lane; the scales are given per block of 32. -/
def convList (s : State) (spec : Nat) (grad fixed : Bool) (scs : List Nat) : Nat → List (Val × Nat) → List Nat × State
  | _, [] => ([], s)
  | i, (v, lane) :: r =>
    let (c, s) := convElem s spec (scs.getD (i / 32) 127) grad fixed lane v
    let (cs, s) := convList s spec grad fixed scs (i + 1) r
    (c :: cs, s)

/-- The blocks of 32 of a list, fuel blocks. -/
def blocks {α : Type} : Nat → List α → List (List α)
  | 0, _ => []
  | n + 1, l => l.take 32 :: blocks n (l.drop 32)

/-- The measured scales of a row of values (R91). -/
def rowScales (spec : Nat) (vs : List Val) : List Nat :=
  if specBlock spec then (blocks (ceilDiv vs.length 32) vs).map (blockScale (specFmt spec)) else []

end Sys2Proof.Machine
end

