-- ==== Sys2Proof/Machine/MuslinOps.lean ====
section
/-!
DEFINITION. Operations of the Muslin dies: row records and where they rest (R158 to R164, R206), the Survey and heavy-hitter tables
(R203, R204), ledger banks and pending pools (R186 to R193), and the marking of poisoned rows (R214, R215).
-/

namespace Sys2Proof.Machine

/-! Tables and row records (R158 to R161). -/

/-- Fields of a TABLES record. -/
def tW (r : Rec) : Nat := fld r 7
def tCode (r : Rec) : Nat := fld r 1
def tPool (r : Rec) : Nat := fld r 2
def tPanel (r : Rec) : Nat := fld r 3
def tRegion (r : Rec) : Nat := fld r 8
def tRows (r : Rec) : Nat := fld r 9

/-- The record length RB (R159). -/
def rowBytes (r : Rec) : Nat := roundUp (8 + (if tCode r = 1 then tW r / 2 else tW r)) 32

/-- (table, row) as one number, in their order. -/
def rowId (t row : Nat) : Nat := 2 ^ 31 * t + row

/-- The owner Muslin index of a row and its shard-map DA (R160, R164). -/
def shardPlace (s : State) (t row : Nat) : Option (Nat × Nat) :=
  match tableRec s t, shardOf s t row with
  | some tr, some (_, sr) => some (fld sr 2, fld sr 4 + (row - fld sr 0) * rowBytes tr)
  | _, _ => none

/-- The elements of a record (R161): code × SCALE + OFFSET. -/
def rowValues (tr : Rec) (bs : List Byte) : List Val :=
  let sc := decodeVal 7 (ofLe (bs.take 2))
  let of_ := decodeVal 7 (ofLe ((bs.drop 2).take 2))
  (unpack (if tCode tr = 1 then 4 else 8) (tW tr) (bs.drop 8)).map fun c => ((Val.fin false c 0).mul sc).add of_

/-! Directory (R206). -/

def dirKey (k t row : Nat) : Nat := 2 ^ 43 * k + rowId t row
def dirOf (s : State) (k t row : Nat) : Option DirEntry := look s.mu.dir (dirKey k t row)
def setDir (s : State) (k t row : Nat) (e : DirEntry) : State := s.onMu fun m => { m with dir := put m.dir (dirKey k t row) e }
def delDir (s : State) (k t row : Nat) : State := s.onMu fun m => { m with dir := del m.dir (dirKey k t row) }

/-- The entries of an owner's directory. -/
def dirEntries (s : State) (k : Nat) : FMap DirEntry := s.mu.dir.filter fun e => e.1 / 2 ^ 43 == k

/-- The Muslin index whose stacks hold an address, if it lies in Home. -/
def muslinOfHome (a : Nat) : Option Nat := if a < homeTop then some (a / (2 * stackSize)) else none

/-- The ledger die of a record resting at an address (R189): the owner unless it rests in another die's stacks. -/
def ledgerOf (owner a : Nat) : Nat := (muslinOfHome a).getD owner

/-- Where a row's record rests for reads (R206, R208): dest keeps the former place until the switch, and takes the target then. -/
def readPlace (s : State) (k t row da : Nat) : Nat :=
  match dirOf s k t row with
  | some e => e.dest
  | none => da

/-- The ledger die of a row now. -/
def ledgerDieOf (s : State) (k t row da : Nat) : Nat :=
  match dirOf s k t row with
  | some e => e.ledgerDie
  | none => ledgerOf k da

/-- Rows now POISONED on an owner (R217). -/
def poisonRows (s : State) (k : Nat) : Nat := ((dirEntries s k).filter (·.2.poisoned)).length
/-- Reserved directory entries in use (R206). -/
def reservedUsed (s : State) (k : Nat) : Nat := ((dirEntries s k).filter fun e => e.2.poisoned || e.2.pendingF).length
/-- Room for an entry of a moving row: 131,072 entries, 4,096 of them reserved. -/
def dirRoom (s : State) (k : Nat) : Bool :=
  ((dirEntries s k).filter fun e => !(e.2.poisoned || e.2.pendingF)).length < 131072 - 4096

/-- The directory entry of a row, or the one it would take: RESIDENT at its shard-map DA. -/
def dirOrHome (s : State) (k t row da : Nat) : DirEntry :=
  (dirOf s k t row).getD { dest := da, ledgerDie := ledgerOf k da }

/-! Twin patches (R215). -/

/-- A twin link die's port is up (R397). -/
def twinUp (s : State) : Bool :=
  [38, 39].any fun d => match look s.rings.ports d with | some p => p.st == 2 || p.st == 3 | none => false

/-- TWIN_CAPABLE: both twin link dies are present and not FAILED (R46). -/
def twinCapable (s : State) : Bool := dieUp s 38 && dieUp s 39

/-- Kinds of outstanding requests. -/
abbrev rkRead := 0
abbrev rkWrite := 1
abbrev rkAdd := 2
abbrev rkReg := 3
abbrev rkPut := 4
abbrev rkGet := 5
abbrev rkJournal := 6
abbrev rkPatch := 7
abbrev rkMove := 8
abbrev rkMcast := 9

/-- The message of a row's patch or migration that is not answered yet. -/
def rowReq (s : State) (kind k t row : Nat) : Option OutReq :=
  s.gz.out.find? fun r => r.kind == kind && r.die == 18 + k && r.landDa == dirKey k t row

/-- What a row's patch or migration sends under (R305, R306). -/
def rowMessage (s : State) (kind k t row dst : Nat) : OutReq :=
  { die := 18 + k, tag := newTag s (18 + k), dst := dst, kind := kind, resv := 1, flits := 1, remote := kind == rkPatch, landDa := dirKey k t row }

/-- Its answer has come: its reservation is released. -/
def closeRow (s : State) (kind k t row : Nat) : State :=
  match rowReq s kind k t row with
  | some r => closeReq s r.die r.tag
  | none => s

/-- A patch of a poisoned row starts, or fails at once (R215); without room for its message it waits (R306). -/
def startPatch (s : State) (k t row : Nat) : State :=
  if s.twin.st = 0 then s
  else
    let tries := match look s.mu.patches (dirKey k t row) with | some p => p.tries | none => 0
    let ok := twinUp s && s.twin.st != 4 && (match s.img.staged with | some x => x.kind != 1 | none => true)
    let r := rowMessage s rkPatch k t row (if k < 4 then 38 else 39)
    if ok && !reqRoom s r then s.onMu fun m => { m with patchWait := ins m.patchWait (dirKey k t row) }
    else
      let s := s.onMu fun m =>
        { m with patches := put m.patches (dirKey k t row) { journal := look0 s.twin.sendSeq k, active := ok, tries := tries + 1 } }
      if ok then openReq s r else bump s (18 + k) 0x11070

/-- A row may take, or holds, a reserved entry of its owner's directory (R206). -/
def mayReserve (s : State) (k : Nat) (e : DirEntry) : Bool := e.poisoned || e.pendingF || reservedUsed s k < 4096

/-- A row becomes POISONED at its owner (R214). Without a reserved entry it is not marked, and its patch waits for one. -/
def markPoisoned (s : State) (k t row da : Nat) : State :=
  let e := dirOrHome s k t row da
  if e.poisoned then s
  else if !mayReserve s k e then s.onMu fun m => { m with patchWait := ins m.patchWait (dirKey k t row) }
  else
    let s := s.onMu fun m => { m with patchWait := m.patchWait.erase (dirKey k t row) }
    startPatch (setDir s k t row { e with poisoned := true }) k t row

/-- A reserved entry of MUk's directory, or room for a message, has come free: the first row that waits for one is marked, and its patch
requested (R214, R306). -/
def wakePatch (s : State) (k : Nat) : State :=
  match s.mu.patchWait.find? fun key => key / 2 ^ 43 == k with
  | some key =>
    let (t, row) := (key / 2 ^ 31 % 4096, key % 2 ^ 31)
    match shardPlace s t row with
    | some (_, da) =>
      let s := s.onMu fun m => { m with patchWait := m.patchWait.erase key }
      if (dirOrHome s k t row da).poisoned then startPatch s k t row else markPoisoned s k t row da
    | none => s
  | none => s

/-! Survey and heavy-hitter tables (R203, R204). -/

/-- e.count = min(e.count + w, 2^21 − 1), on the row's entry or on the one it takes over. -/
def heavyAdd (l : List Heavy) (t row w : Nat) : List Heavy :=
  let cap := 2 ^ 21 - 1
  if l.any fun e => e.table == t && e.row == row then
    l.map fun e => if e.table = t ∧ e.row = row then { e with count := min (e.count + w) cap } else e
  else if l.length < 4096 then l ++ [{ table := t, row := row, count := min w cap }]
  else
    let lower (a b : Heavy) : Heavy :=
      if b.count < a.count || (b.count == a.count && rowId a.table a.row < rowId b.table b.row) then b else a
    match l with
    | [] => []
    | h :: r =>
      let m := r.foldl lower h
      l.map fun e => if e = m then { table := t, row := row, count := min (m.count + w) cap } else e

/-- A read or an add of a row counted at its owner: the Survey counter at register offset off (R203). -/
def survey (s : State) (k t row off w : Nat) : State :=
  match shardOf s t row with
  | none => s
  | some (i, _) => bumpBy s (18 + k) off w i

/-- A read served or an add applied, in the owner's heavy-hitter table (R204). -/
def hotAdd (s : State) (k t row w : Nat) : State :=
  s.onMu fun m => { m with heavy := put m.heavy k (heavyAdd (lookD m.heavy k []) t row w) }

/-! Reading a row at its owner (R163, R164, R172, R214). -/

/-- A row record read through its owner: its bytes, or none when the row is poisoned; and the effects of the read. -/
def ownerRead (s : State) (t row : Nat) : Option (List Byte) × State :=
  match tableRec s t, shardPlace s t row with
  | some tr, some (k, da) =>
    let s := hotAdd (survey s k t row 0x110A0 1) k t row 1
    match dirOf s k t row with
    | some e =>
      if e.poisoned then (none, s)
      else
        let (lost, s) := checkRead s e.dest (rowBytes tr)
        if lost then (none, markPoisoned s k t row da) else (some (readBytes s.mem e.dest (rowBytes tr)), s)
    | none =>
      let (lost, s) := checkRead s da (rowBytes tr)
      if lost then (none, markPoisoned s k t row da) else (some (readBytes s.mem da (rowBytes tr)), s)
  | _, _ => (none, s)

/-! Ledgers (R186 to R193). -/

/-- Key of a ROW entry of a bank (DESIGN CHOICE, log entry 51). -/
def entryKey (k bank t row : Nat) : Nat := 2 ^ 43 * (k * 2 + bank) + rowId t row
/-- Key of a pending entry. -/
def pendKey (k t row : Nat) : Nat := 2 ^ 43 * k + rowId t row
/-- Key of a DENSE word of a bank. -/
def denseKey (k bank region i : Nat) : Nat := 2 ^ 29 * ((k * 2 + bank) * 256 + region) + i
/-- Key of a DENSE region's late flag. -/
def lateKey (k bank region : Nat) : Nat := (k * 2 + bank) * 256 + region

/-- The open step of a Muslin die. -/
def openStep (s : State) (k : Nat) : Nat := look0 s.mu.openStep k

/-- An 80-bit ledger word's modular add (R188). -/
def add80 (a b : Int) : Int := signed 80 (twos 80 (a + b))
def addWords : List Int → List Int → List Int
  | [], ys => ys
  | xs, [] => xs
  | x :: xs, y :: ys => add80 x y :: addWords xs ys

/-- A panel is FAULTED: one of its cores is (R125). -/
def panelFaulted (s : State) (p : Nat) : Bool :=
  match panelRec s p with
  | none => false
  | some r => (List.range 64).any fun g => bit (fld r 2) g && (lookD s.tw.cores g {}).faulted

/-- The anchor of a region, signed (R326). -/
def regionAnchor (r : Rec) : Int := signed 16 (fld r 5)
/-- LATE_DROP rather than LATE_FOLD. -/
def lateDrop (r : Rec) : Bool := fld r 4 == 1

/-- ROW entries of a region in use in one bank of a die (R192). -/
def entriesUsed (s : State) (k bank region : Nat) : Nat :=
  (s.mu.entries.filter fun e => e.1 / 2 ^ 43 == k * 2 + bank &&
    (match tableRec s (e.1 / 2 ^ 31 % 4096) with | some tr => tRegion tr == region | none => false)).length
/-- Pending entries of a region in use. -/
def pendUsed (s : State) (k region : Nat) : Nat :=
  (s.mu.pend.filter fun e => e.1 / 2 ^ 43 == k &&
    (match tableRec s (e.1 / 2 ^ 31 % 4096) with | some tr => tRegion tr == region | none => false)).length

/-- The row that a ROW message names by its shard-map DA (R190). -/
def rowOfDa (s : State) (t da : Nat) : Option Nat :=
  match tableRec s t with
  | none => none
  | some tr =>
    ((sect s 0x11).find? fun r => fld r 1 == t && fld r 4 ≤ da && da < fld r 4 + fld r 3 * rowBytes tr).map fun r =>
      fld r 0 + (da - fld r 4) / rowBytes tr

/-- A contribution merged into a ROW entry (R187): a new entry takes it whole. -/
def mergeEntry (e : Option Entry) (count : Nat) (late : Bool) (step : Nat) (ws : List Int) : Entry :=
  match e with
  | none => { count := min count (2 ^ 32 - 1), late := late, steps := 1, oldest := step, words := ws }
  | some e => { e with count := min (e.count + count) (2 ^ 32 - 1), late := e.late || late, words := addWords e.words ws }

/-- Words added into DENSE words from index i on. -/
def addDense (m : FMap Int) (k bank region : Nat) : Nat → List Int → FMap Int
  | _, [] => m
  | i, w :: ws =>
    let key := denseKey k bank region i
    let v := add80 (lookD m key 0) w
    addDense (if v = 0 then del m key else put m key v) k bank region (i + 1) ws

/-- What placing an add answers (R190 to R193): acknowledged, late or not; refused; discarded without a response. -/
inductive AddAnswer where
  | ack (late : Bool)
  | refuse (status : Nat)
  | silent
  deriving DecidableEq, Repr

/-- The bank a STEP_TAG selects (R191): none for any tag but n and n − 1; true when late. -/
def tagBank (s : State) (k tag : Nat) : Option Bool :=
  let n := openStep s k
  if tag % 256 = n % 256 then some false
  else if 1 ≤ n && tag % 256 == (n - 1) % 256 then some true
  else none

/-- Something late reported to the step sequencer for a step (R191, R266): a late message marks the step now open. -/
def reportLate (s : State) (step : Nat) : State := s.onSeq fun q => { q with lateSteps := ins q.lateSteps step }

/-- A ROW contribution placed in the bank of a step at ledger die k (R192): refused with QUOTA when a new entry finds the pool full. -/
def placeRow (s : State) (k bank step t row region entries : Nat) (late : Bool) (m : AddMsg) : AddAnswer × State :=
  let key := entryKey k bank t row
  let old := look s.mu.entries key
  if old.isNone && entries ≤ entriesUsed s k bank region then (.refuse stQuota, bump s (18 + k) 0x11028)
  else
    (.ack late, s.onMu fun u => { u with entries := put u.entries key (mergeEntry old m.count late step m.words) })

/-- A DENSE message of a panel other than its region's (R198). A ROW message's table has its region's panel. -/
def addForeign (r : Rec) (m : AddMsg) : Bool := m.dense && fld r 3 != m.panel

/-- An add applied at ledger die k (R191 to R193, R198). -/
def applyAdd (s : State) (k : Nat) (m : AddMsg) : AddAnswer × State :=
  let region := if m.dense then m.da / 2 ^ 40 else match tableRec s m.table with | some tr => tRegion tr | none => 256
  match ledgerRec s k region with
  | none => (.refuse stMalformed, s)
  | some r =>
    if (m.dense && fld r 2 == 0) || (!m.dense && fld r 2 == 1) then (.refuse stMalformed, s)
    else if m.dense && (m.da % 8 != 0 || fld r 10 < m.da % 2 ^ 40 / 8 + m.words.length) then (.refuse stMalformed, s)
    else if regionAnchor r != m.anchor || addForeign r m then (.refuse stMalformed, s)
    else if panelFaulted s (fld r 3) then (.silent, bump s (18 + k) 0x11030)
    else
      match tagBank s k m.stepTag with
      | none => (.refuse stMalformed, s)
      | some late =>
        let bank := openStep s k % 2
        if late && lateDrop r then (.ack true, reportLate (bump s (18 + k) 0x11018) (openStep s k))
        else
          let (a, s) :=
            if m.dense then
              (AddAnswer.ack late, s.onMu fun u =>
                { u with dense := addDense u.dense k bank region (m.da % 2 ^ 40 / 8) m.words,
                         denseLate := if late then ins u.denseLate (lateKey k bank region) else u.denseLate })
            else
              match rowOfDa s m.table m.da with
              | none => (AddAnswer.refuse stMalformed, s)
              | some row => placeRow s k bank (openStep s k) m.table row region (fld r 6) late m
          (a, if late && a = .ack true then reportLate (bump s (18 + k) 0x11010) (openStep s k) else s)

/-- The answer to an add sent to its original sender (R190). -/
def answerAdd (s : State) (m : AddMsg) (from_ : Nat) : AddAnswer → State
  | .ack late => sendFlit s { op := 0x05, tc := 1, dst := m.src, src := from_, panel := m.panel, tag := m.tag, da := m.da,
                              oparg := b2n late }
  | .refuse st => sendFlit s { op := 0x06, tc := 0, dst := m.src, src := from_, panel := m.panel, tag := m.tag, da := m.da, status := st }
  | .silent => s

/-- Flits of an ATOMIC_ADD (R190). -/
def addFlits (m : AddMsg) : Nat := max 1 (ceilDiv m.words.length 24)

/-- Flits in the forward store of a Muslin die (R309, R310): messages that it forwards or holds, and those that a MOVING row queues. -/
def fwdFlits (s : State) (d : Nat) : Nat :=
  ((s.gz.adds.filter fun m => m.via == some d).map addFlits).sum
  + ((s.gz.flits.filter fun f => f.via == some d).map fun f => (wireFlits f).length).sum
  + if isMu d then ((dirEntries s (d - 18)).map fun e => (e.2.queued.map addFlits).sum).sum else 0

/-- The highest number of flits that the store of a die has held. -/
def noteFwd (s : State) (d : Nat) : State :=
  s.onGz fun g => { g with fwdHigh := put g.fwdHigh d (max (look0 g.fwdHigh d) (fwdFlits s d)) }

/-- An add sent on, or for the first time. -/
def sendAdd (s : State) (m : AddMsg) : State := s.onGz fun g => { g with adds := g.adds ++ [m] }

/-- A message that waits enters the forward store of its die (R208, R309). -/
def holdAdd (s : State) (m : AddMsg) : State := noteFwd (sendAdd s { m with via := some m.dst }) m.dst

/-! Conversion of a contribution onto a region's grid (R154). -/

/-- The finite value in units of 2^B, truncated toward zero, and saturated to 64 bits. -/
def toGrid (b : Int) (v : Val) : Int :=
  let clamp (i : Int) : Int := max (-2 ^ 63) (min (2 ^ 63 - 1) i)
  match v with
  | .nan => 0
  | .inf s => if s then -2 ^ 63 else 2 ^ 63 - 1
  | .fin s m e =>
    let n : Nat := if b ≤ e then m * 2 ^ (e - b).toNat else m / 2 ^ (b - e).toNat
    clamp (if s then -(n : Int) else n)

/-- What the conversion of a value divided by n loses: whether bits below the grid, and whether it is saturated (R154). -/
def gridLoss (b : Int) (n : Nat) : Val → Bool × Bool
  | .nan => (false, false)
  | .inf _ => (false, true)
  | .fin _ m e =>
    let (x, y) : Nat × Nat := if b ≤ e then (m * 2 ^ (e - b).toNat, n) else (m, 2 ^ (b - e).toNat * n)
    (x % y != 0, 2 ^ 63 ≤ x / y)

/-- The losses of converted values counted for the engine that sends them (R154). No register shows these counts (DEDUCED, log entry 97). -/
def noteLoss (s : State) (e : Nat) (b : Int) (n : Nat) (vs : List Val) : State :=
  let l := vs.map (gridLoss b n)
  let add (m : FMap Nat) (k : Nat) : FMap Nat := if k = 0 then m else put m e (look0 m e + k)
  s.onMu fun m => { m with truncated := add m.truncated (l.filter (·.1)).length, saturated := add m.saturated (l.filter (·.2)).length }

end Sys2Proof.Machine
end

