-- ==== Sys2Proof/Machine/QmOps.lean ====
section
/-!
DEFINITION. Operations of the queue manager: queues and positions (R269, R275, R279), completion rings and records (R288 to R290),
and descriptors that end before their own outcome (R69, R125, R126, R308, R429).
-/

namespace Sys2Proof.Machine

/-! Queues (R269, R272, R275). -/

/-- SIZE of a queue. -/
def queueSize (r : Rec) : Nat := 2 ^ fld r 4
/-- The ring a queue's records go to. -/
def cringOf (s : State) (q : Nat) : Option Nat := (queueRec s q).map (fld · 5)
/-- A queue's state; an undefined queue is DISABLED. -/
def queueOf (s : State) (q : Nat) : Queue := lookD s.qm.queues q {}
def setQueue (s : State) (q : Nat) (f : Queue → Queue) : State :=
  s.onQm fun m => { m with queues := put m.queues q (f (lookD m.queues q {})) }

abbrev qDisabled := 0
abbrev qActive := 1
abbrev qHalted := 2
abbrev qFaulted := 3

/-- The generation after g (R275): 0 is never one. -/
def nextGen (g : Nat) : Nat := if g = 0xFFFF then 1 else g + 1
/-- An index and generation advanced by one entry (R275). -/
def nextPos (size : Nat) (p : Nat × Nat) : Nat × Nat := if p.1 + 1 = size then (0, nextGen p.2) else (p.1 + 1, p.2)
/-- A position as a number, modulo the 65,535 laps of R275. GEN is the generation of the entry at the index. -/
def posNum (size : Nat) (idx gen : Nat) : Nat := (gen - 1) * size + idx
/-- Entries from one position to another. -/
def posDiff (size a b : Nat) : Nat := (b + 65535 * size - a) % (65535 * size)

/-- The address of an entry (R270). -/
def entryDa (r : Rec) (i : Nat) : Nat := fld r 6 + 256 * i

/-- A fresh queue (R272): ACTIVE, head and tail at index 0 and generation 1. -/
def freshQueue : Queue := { st := qActive }

/-! Rings and records (R271, R288 to R290). -/

def ringOf (s : State) (n : Nat) : Ring := lookD s.qm.rings n {}
def setRing (s : State) (n : Nat) (f : Ring → Ring) : State :=
  s.onQm fun m => { m with rings := put m.rings n (f (lookD m.rings n {})) }
def ringSize (r : Rec) : Nat := 2 ^ fld r 1
/-- PHASE of the next record (R289). -/
def ringPhase (r : Rec) (g : Ring) : Nat := (g.tail / ringSize r + 1) % 2
/-- A slot of the ring is free to reserve (R290). -/
def ringRoom (r : Rec) (g : Ring) : Bool := g.tail - g.head + g.resv < ringSize r

/-- The 16 bytes of a completion record (R288). -/
def recordBytes (status phase scope panel userTag queue index die unit stepLo elapsed : Nat) : List Byte :=
  leBytes 8 (status + 2 ^ 8 * phase + 2 ^ 9 * scope + 2 ^ 10 * panel + 2 ^ 16 * userTag + 2 ^ 32 * (queue % 2 ^ 15)
    + 2 ^ 48 * index)
  ++ leBytes 8 (die + 2 ^ 8 * unit + 2 ^ 16 * (stepLo % 2 ^ 16) + 2 ^ 32 * elapsed)

/-- A ring that becomes non-empty notifies (R271, R354): an interrupt at core VECTOR mod 48 of identity 1 + VECTOR div 48, or an
MSI-X vector. -/
def notify (s : State) (r : Rec) : State :=
  if fld r 2 = 1 then s.onQm fun m => { m with irqs := m.irqs ++ [fld r 3 % 48 * 64 + 1 + fld r 3 / 48] }
  else if fld r 2 = 2 then s.onQm fun m => { m with msix := m.msix ++ [fld r 3] }
  else s

/-- One 16-byte record written at a ring's tail (R289); its reserved slot is used up (R290). body takes the lap's PHASE. -/
def writeRecord (s : State) (n : Nat) (body : Nat → List Byte) : State :=
  match ringRec s n with
  | none => s
  | some r =>
    let g := ringOf s n
    let s := writeMem s (fld r 4 + 16 * (g.tail % ringSize r)) (body (ringPhase r g))
    let s := setRing s n fun g => { g with tail := g.tail + 1, resv := g.resv - 1 }
    if g.head = g.tail then notify s r else s

/-- A ring slot reserved or given back (R290). -/
def reserveSlot (s : State) (n : Nat) : State := setRing s n fun g => { g with resv := g.resv + 1 }
def releaseSlot (s : State) (n : Nat) : State := setRing s n fun g => { g with resv := g.resv - 1 }

/-- Staging records reserved (R307): one for each entry fetched and not yet recorded, and for each being read again. -/
def staged (s : State) : Nat :=
  (s.qm.queues.map fun p => p.2.fetched.length + b2n p.2.retry).sum + s.qm.disp.length + s.qm.cpls.length

/-- Descriptors armed at a unit. -/
def armedAt (s : State) (u : UnitId) : Nat := (s.qm.disp.filter fun d => d.unit == u && d.armed).length

/-! Commands cut short. -/

/-- The step number the sequencer shows (R287, R346). -/
def stepNow (s : State) : Nat := s.seq.step % 2 ^ 40

/-- What a command has pending besides its requests, thrown away: a seal it waits for, a gather's progress, a load
before its commit point (R334), a run it holds or waits for, a snapshot (DEDUCED, log entry 54). -/
def forget (s : State) (h : Hdr) : State :=
  let s := s.onMu fun m =>
    { m with gatherPos := del m.gatherPos (descKey h),
             sealWait := keep (fun _ w => !sameDesc w.1 h) m.sealWait,
             sealing := keep (fun _ w => !sameDesc w h) m.sealing,
             -- a migration runs on (R193, R208)
             dir := mapVals (fun _ e => match e.waiter with
               | some w => if sameDesc w h then { e with waiter := none } else e
               | none => e) m.dir }
  let s := s.onStreams fun m => mapVals (fun _ x => { x with rearm := x.rearm.filter fun r => !sameDesc r.1 h }) m
  let has (o : Option Hdr) : Bool := match o with | some w => sameDesc w h | none => false
  let s := s.onSeq fun q =>
    { q with run := if has q.run then none else q.run, st := if has q.run && q.st == 1 then 3 else q.st,
             stops := q.stops.filter fun w => !sameDesc w h,
             held := match q.held with | some (w, n) => if sameDesc w h then none else some (w, n) | none => none }
  let s := s.onImg fun i => { i with staged := match i.staged with | some x => if sameDesc x.hdr h then none else some x | none => none }
  let s := s.onRings fun g => { g with waitRelease := if has g.waitRelease then none else g.waitRelease }
  let s := s.onSec fun c => { c with fwWaiter := if has c.fwWaiter then none else c.fwWaiter }
  s.onSnap fun o => match o with | some x => if sameDesc x.hdr h then none else some x | none => none

/-- The tiles an operation names become STALE (R150). -/
def staleTiles (s : State) (core tile n : Nat) : State :=
  s.onTw fun w =>
    { w with tiles := (List.range n).foldl (fun m i =>
               put m (core * 8 + tile + i) { lookD m (core * 8 + tile + i) ({} : Tile) with stale := true }) w.tiles }

/-- The weight set in a core's shadow registers is discarded, if it is the descriptor's (R148). -/
def dropShadow (s : State) (core : Nat) (h : Hdr) : State :=
  if (lookD s.tw.cores core {}).shadowFor = descKey h then
    s.onTw fun w => { w with cores := put w.cores core { lookD w.cores core {} with shadowFull := false, shadow := [], shadowFor := 0 } }
  else s

/-- A dispatched command ends before its own outcome (R69, R126, R150, R308): its reservations are released, its TAGs quarantined,
its tiles STALE after DEADLINE or STALL_BUDGET, and its record says the status (DEDUCED, log entry 54). -/
def endEarly (s : State) (d : Disp) (st : Nat) : State :=
  let s := forget (dropReqs s d.hdr) d.hdr
  let late := st = stDeadline || st = stStall
  let s := match d.cmd with
    | .twMatmul _ o | .twDrain _ o =>
      let s := dropShadow s o.core d.hdr
      if late then staleTiles s o.core o.tile (if o.arr then ceilDiv o.m 64 else 1) else s
    | .imageLoad _ _ _ => if st = stDeadline then s.onImg fun i => { i with reason := 0x0D, section_ := 0, record := 0 } else s
    | _ => s
  complete s d.hdr d.unit st

/-- A fetched and undispatched descriptor completes without execution. -/
def endFetched (s : State) (q : Nat) (x : Fetched) (st : Nat) : State :=
  completeIdle (setQueue s q fun v => { v with fetched := v.fetched.filter fun y => !sameDesc y.hdr x.hdr }) x.hdr cmdUnit st

/-- Every dispatched descriptor that meets a test ends with a status. -/
def endAll (s : State) (f : Disp → Bool) (st : Nat) : State := (s.qm.disp.filter f).foldl (fun s d => endEarly s d st) s

/-- Every fetched descriptor of a queue ends with a status. -/
def endFetchedAll (s : State) (q st : Nat) : State := (queueOf s q).fetched.foldl (fun s x => endFetched s q x st) s

end Sys2Proof.Machine
end

