-- ==== Sys2Proof/Machine/TwillOps.lean ====
section
/-!
DEFINITION. Operations of a Twill core: its buffer (R108), lanes, folds and terms (R132 to R142, R518), products and passes (R114 to
R116, R138), the drain (R129, R142) and the DW720 compatibility adds (R241).
-/

namespace Sys2Proof.Machine

/-! Core buffer (R108). -/

abbrev cbSize := 0x2800000

def cbKey (g off : Nat) : Nat := 2 ^ 26 * g + off
def cbWord (g off : Nat) : Nat := 2 ^ 23 * g + off / 8

/-- n bytes of a core buffer. -/
def cbRead (t : Twill) (g off n : Nat) : List Byte := (List.range n).map fun i => lookD t.cb (cbKey g (off + i)) 0

/-- The register block of core g: its die and base offset (R131). -/
def coreDie (g : Nat) : Nat := 2 + g / 4
def coreBase (g : Nat) : Nat := 0x10000 + g % 4 * 0x1000
def bumpCore (s : State) (g off n : Nat) : State := bumpBy s (coreDie g) (coreBase g + off) n

/-- The 64-bit words a range touches. -/
def wordsOf (g off n : Nat) : List Nat :=
  if n = 0 then [] else (List.range ((off + n - 1) / 8 - off / 8 + 1)).map fun i => 2 ^ 23 * g + off / 8 + i

/-- Ranges read with their check bits: any word uncorrectable, and the corrections counted. -/
def cbCheck (s : State) (g : Nat) (rs : List Range) : Bool × State :=
  let ws := rs.flatMap fun r => wordsOf g r.1 r.2
  let bad := s.tw.cbErr.filter fun e => ws.contains e.1
  (bad.any (·.2), bumpCore s g 0x20 (bad.filter fun e => !e.2).length)

/-- The words that a write covers only in part, as ranges: they are read first (R108). -/
def partWords (g off n : Nat) : List Range :=
  (wordsOf g off n).filterMap fun w =>
    let o := (w - 2 ^ 23 * g) * 8
    if off ≤ o && o + 8 ≤ off + n then none else some (o, 8)

/-- A write of n bytes finds a word that it covers only in part uncorrectable: that word is not written, and the core has a panel fault
(R108). -/
def cbWriteBad (s : State) (g off n : Nat) : Bool := (cbCheck s g (partWords g off n)).1

/-- Bytes written to a core buffer: a word written whole gets fresh check bits; one written in part is corrected first, and left alone when
it is uncorrectable. An injection armed for the die flips one bit of the write (R433) (DEDUCED, log entry 66). -/
def cbWrite (s : State) (g off : Nat) (bs : List Byte) : State :=
  let ps := (partWords g off bs.length).map fun r => cbWord g r.1
  let lost := (s.tw.cbErr.filter fun e => e.2 && ps.contains e.1).map (·.1)
  let (_, s) := cbCheck s g (partWords g off bs.length)
  let flip := s.tw.cbFlip.contains (coreDie g)
  s.onTw fun t =>
    { t with cb := (((List.range bs.length).zip bs).foldl
                      (fun m p => if lost.contains (cbWord g (off + p.1)) then m
                                  else if p.2 = 0 then del m (cbKey g (off + p.1)) else put m (cbKey g (off + p.1)) p.2) t.cb),
             cbErr := let e := keep (fun w _ => lost.contains w || !(wordsOf g off bs.length).contains w) t.cbErr
                      if flip && !bs.isEmpty then put e (cbWord g off) false else e,
             cbFlip := if bs.isEmpty then t.cbFlip else t.cbFlip.erase (coreDie g) }

/-! Tiles, lanes and terms (R132 to R134). -/

def tileKey (g t : Nat) : Nat := g * 8 + t
def rowKey (g t a r : Nat) : Nat := (tileKey g t * 4 + a) * 256 + r
def laneKey (g t a r c : Nat) : Nat := rowKey g t a r * 256 + c
def tileOf (s : State) (g t : Nat) : Tile := lookD s.tw.tiles (tileKey g t) {}
def laneOf (s : State) (g t a r c : Nat) : Lane := lookD s.tw.lanes (laneKey g t a r c) {}
def coreOf (s : State) (g : Nat) : Core := lookD s.tw.cores g {}

def setTile (s : State) (g t : Nat) (f : Tile → Tile) : State :=
  s.onTw fun w => { w with tiles := put w.tiles (tileKey g t) (f (lookD w.tiles (tileKey g t) {})) }
def setLane (s : State) (g t a r c : Nat) (v : Lane) : State :=
  s.onTw fun w => { w with lanes := put w.lanes (laneKey g t a r c) v }
def setCore (s : State) (g : Nat) (f : Core → Core) : State :=
  s.onTw fun w => { w with cores := put w.cores g (f (lookD w.cores g {})) }

/-- The lanes, fold registers, flags and term counts of a tile zeroed (R133, R518). -/
def zeroTile (s : State) (g t : Nat) : State :=
  s.onTw fun w =>
    { w with lanes := keep (fun k _ => k / (4 * 256 * 256) != tileKey g t) w.lanes,
             terms := keep (fun k _ => k / (4 * 256) != tileKey g t) w.terms,
             compat := keep (fun k _ => k / (4 * 256 * 256) != tileKey g t) w.compat }

/-- ACC = 0 on a tile: zeroed, its anchor set, LANE_OVF, FOLDED and STALE cleared (R133, R149). A COMPAT panel ignores ANCHOR, so none is
given and the tile keeps its own (R241). -/
def startTile (s : State) (g : Nat) (anchor : Option Int) (t : Nat) : State :=
  setTile (zeroTile s g t) g t fun x => { anchor := anchor.getD x.anchor }

/-- The tiles a descriptor names (R119, R148). -/
def namedTiles (o : MatmulOp) : List Nat :=
  if o.arr then (List.range (ceilDiv o.m 64)).map (o.tile + ·) else [o.tile]

/-- Where the sum of activation row i and output column n goes: tile, array, physical row, lane (R110, R118, R119, R132). -/
def place (o : MatmulOp) (i n : Nat) : Nat × Nat × Nat × Nat :=
  if o.arr then (o.tile + i / 64, n / 1024, 64 * (n / 256 % 4) + i % 64, n % 256)
  else (o.tile, i % 4, i / 4, n)

/-! Lanes (R133, R139, R140 to R142). -/

abbrev laneMax : Int := 2 ^ 95 - 1
abbrev laneMin : Int := -2 ^ 95

/-- The value of a fold register. -/
def Lane.fold (l : Lane) : Int × Int := (if l.fNeg then -(l.fSig : Int) else l.fSig, l.fExp - 47)

/-- V = F + L × 2^(A−64) (R142). -/
def laneValue (l : Lane) (anchor : Int) : Int × Int := addDy l.fold (l.l, anchor - 64)

/-- One lane folded (R140). -/
def foldLane (l : Lane) (anchor : Int) : Lane :=
  let v := laneValue l anchor
  if v.1 = 0 then { l with l := 0, fNeg := false, fSig := 0, fExp := 0 }
  else
    let r := rtoBits 48 v.1.natAbs v.2
    -- normalised to an explicit leading bit
    let sh := 47 - Nat.log2 r.1
    { l with l := 0, fNeg := v.1 < 0, fSig := r.1 * 2 ^ sh, fExp := r.2 - (sh : Int) + 47 }

/-- A row of a tile folded in every array: its lanes, its term counts, FOLDED and TW.FOLD_CNT (R140). -/
def foldRow (s : State) (g t r : Nat) : State :=
  let A := (tileOf s g t).anchor
  let rows := (List.range 4).map fun a => rowKey g t a r
  let s := s.onTw fun w =>
    { w with lanes := mapVals (fun k l => if rows.contains (k / 256) then foldLane l A else l) w.lanes,
             terms := keep (fun k _ => !rows.contains k) w.terms }
  bumpCore (setTile s g t fun x => { x with folded := true }) g 0xC0 4

/-- An integer added to a lane: past its range it saturates, and the overflow is flagged and counted (R139). -/
def addLane (s : State) (g t a r c : Nat) (v : Int) : State :=
  let l := laneOf s g t a r c
  let x := l.l + v
  if laneMin ≤ x && x ≤ laneMax then setLane s g t a r c { l with l := x }
  else
    let s := setLane s g t a r c { l with l := if x < 0 then laneMin else laneMax, ovf := true }
    bumpCore (setTile s g t fun y => { y with laneOvf := true }) g 0xC8 1

/-- Non-finite products of a column sum recorded in a lane's flags (R518). -/
def flagLane (s : State) (g t a r c : Nat) (ps : List Val) : State :=
  if ps.all Val.isFin then s
  else
    let l := laneOf s g t a r c
    setLane s g t a r c { l with nan := l.nan || ps.contains .nan, pinf := l.pinf || ps.contains (.inf false),
                                 ninf := l.ninf || ps.contains (.inf true) }

/-! Products (R114 to R116, R138). -/

/-- A format of 16-bit operands. -/
def wide16 (f : Nat) : Bool := f == 6 || f == 7 || f == 12

/-- The pair of formats is one of R114's table; COMPAT panels accept only those of R241. -/
def pairOk (compat : Bool) (w a : Nat) : Bool :=
  if compat then
    let ok (x : Nat) : Bool := !specBlock x && (specFmt x == 3 || specFmt x == 4 || specFmt x == 6 || specFmt x == 7)
    ok w && ok a
  else
    let fl (x : Nat) : Bool := specFmt x ≤ 7 && specFmt x != 5
    let it (x : Nat) : Bool := 8 ≤ specFmt x && specFmt x ≤ 12
    (fl w && fl a) || (it w && it a)

/-- Two products a cell and pass: FP4 × FP4, or two 4-bit integers (R114). -/
def packedPair (w a : Nat) : Bool :=
  let i4 (f : Nat) : Bool := f == 8 || f == 9
  (specFmt w == 0 && specFmt a == 0) || (i4 (specFmt w) && i4 (specFmt a))

/-- The passes of a row group (R114). -/
def passes (w a : Nat) : Nat := if wide16 (specFmt w) || wide16 (specFmt a) then 4 else 1

/-- The format an operand is split by in a multi-pass pair: its own when 16-bit, else the other's (R114, R115). -/
def splitFmt (own other : Nat) : Nat := if wide16 (specFmt own) then specFmt own else specFmt other

/-- The high and low parts of an operand (R115), as exact values. -/
def splitVal (f : Nat) (v : Val) : Val × Val :=
  match v with
  | .fin s m e =>
    if f = 12 then
      -- the code is split; a block's scale stays in the exponent
      let i : Int := (Val.num (.fin s m e)).1
      let lo := i % 256
      (ofInt (i - lo) e, ofInt lo e)
    else if m = 0 then (.fin s 0 0, .fin s 0 0)
    else
      let p := if f = 6 then 8 else 11
      let lowBits := if f = 6 then 4 else 5
      -- the significand with its hidden bit, p bits wide
      let sh : Int := (p - 1 : Int) - Nat.log2 m
      let sig := if 0 ≤ sh then m * 2 ^ sh.toNat else m / 2 ^ (-sh).toNat
      let e' := e - sh
      (.fin s (sig / 2 ^ lowBits * 2 ^ lowBits) e', .fin s (sig % 2 ^ lowBits) e')
  | v => (v, v)

/-- One column sum of one pass onto the grid 2^q: the integer added, and whether bits were lost. A single pass truncates each
product toward zero (R138); a multi-pass sum is rounded to odd as a whole (R116). -/
def columnSum (multi : Bool) (q : Int) (ps : List Val) : Int × Bool :=
  if multi then
    let t := ps.foldl (fun acc p => addDy acc p.num) (0, 0)
    let n := rtoGrid t.1.natAbs t.2 q
    (if t.1 < 0 then -(n : Int) else n, !(q ≤ t.2) && t.1.natAbs % 2 ^ (q - t.2).toNat != 0)
  else
    ps.foldl (fun (acc : Int × Bool) p =>
      match p with
      | .fin s m e =>
        let n : Nat := if q ≤ e then m * 2 ^ (e - q).toNat else m / 2 ^ (q - e).toNat
        (acc.1 + (if s then -(n : Int) else n), acc.2 || (!(q ≤ e) && m % 2 ^ (q - e).toNat != 0))
      | _ => acc) (0, false)

/-- One pass's column sum added into its lane, with its flags and its window loss (R116, R138, R518). -/
def addColumn (s : State) (g : Nat) (pl : Nat × Nat × Nat × Nat) (multi first : Bool) (ps : List Val) : State :=
  let (t, a, r, c) := pl
  let s := if first then flagLane s g t a r c ps else s
  let (v, loss) := columnSum multi ((tileOf s g t).anchor - 64) (ps.filter Val.isFin)
  let s := if loss then bumpCore s g (0x80 + 8 * t) 1 else s
  if v = 0 then s else addLane s g t a r c v

/-- The products of one column, pass by pass: one list of exact products for each (R115). -/
def passProducts (w a : Nat) (ws as_ : List Val) : List (List Val) :=
  if passes w a = 1 then [(ws.zip as_).map fun p => p.1.mul p.2]
  else
    let sp := (ws.zip as_).map fun p => (splitVal (splitFmt w a) p.1, splitVal (splitFmt a w) p.2, p.1.mul p.2)
    -- a non-finite product shows on the H·H pass only (R518)
    let part (f : (Val × Val) × (Val × Val) × Val → Val) (hh : Bool) : List Val :=
      sp.map fun x => if x.2.2.isFin then f x else if hh then x.2.2 else Val.zero
    [part (fun x => x.1.1.mul x.2.1.1) true, part (fun x => x.1.1.mul x.2.1.2) false,
     part (fun x => x.1.2.mul x.2.1.1) false, part (fun x => x.1.2.mul x.2.1.2) false]

/-- A row is folded before a column sum of K terms enters it, when its count in that array would pass 2^20 (R140; DEDUCED, log entry 81). -/
def foldFull (s : State) (g t a r k : Nat) : State :=
  if 2 ^ 20 < look0 s.tw.terms (rowKey g t a r) + k then foldRow s g t r else s

/-- The term count of a row of an array raised by K (R134). -/
def addTerms (s : State) (g t a r k : Nat) : State :=
  s.onTw fun w => { w with terms := put w.terms (rowKey g t a r) (look0 w.terms (rowKey g t a r) + k) }

/-- K terms counted in every row that an activation row enters, after the folds that this asks for (R134, R140). -/
def countTerms (s : State) (g k : Nat) (rows : List (Nat × Nat × Nat)) : State :=
  rows.foldl (fun s x => addTerms s g x.1 x.2.1 x.2.2 k) (rows.foldl (fun s x => foldFull s g x.1 x.2.1 x.2.2 k) s)

/-- The float add of a COMPAT panel: to 24 bits, round to odd; subnormal results are zero; the largest finite value bounds it (R96,
R241). -/
def compatAdd (acc : Val) (p : Val) : Val :=
  let d := addDy acc.num p.num
  if d.1 = 0 then .fin false 0 0
  else
    let r := rtoBits 24 d.1.natAbs d.2
    if leadExp r.1 r.2 < -126 then .fin (d.1 < 0) 0 0
    else if 127 < leadExp r.1 r.2 then .fin (d.1 < 0) (2 ^ 24 - 1) 104
    else .fin (d.1 < 0) r.1 r.2

/-- One activation row against the weight rows, from output column n on. -/
def rowColumns (s : State) (o : MatmulOp) (compat : Bool) (i : Nat) (av : List Val) : Nat → List (List Val) → State
  | _, [] => s
  | n, wv :: r =>
    let pl := place o i n
    let g := o.core
    let s :=
      if compat then
        let ps := (wv.zip av).map fun p => p.1.mul p.2
        let s := flagLane s g pl.1 pl.2.1 pl.2.2.1 pl.2.2.2 ps
        let k := laneKey g pl.1 pl.2.1 pl.2.2.1 pl.2.2.2
        let acc := (ps.filter Val.isFin).foldl compatAdd (lookD s.tw.compat k (.fin false 0 0))
        s.onTw fun w => { w with compat := put w.compat k acc }
      else
        let pp := passProducts o.wSpec o.aSpec wv av
        let multi := passes o.wSpec o.aSpec != 1
        let s := addColumn s g pl multi true (pp.getD 0 [])
        (pp.drop 1).foldl (fun s ps => addColumn s g pl multi false ps) s
    rowColumns s o compat i av (n + 1) r

/-- The (array, physical row) pairs one activation row enters (R110, R118). -/
def rowsEntered (o : MatmulOp) (i : Nat) : List (Nat × Nat × Nat) :=
  if o.arr then
    (List.range (ceilDiv o.n 256)).map fun q => (o.tile + i / 64, q / 4, 64 * (q % 4) + i % 64)
  else [(o.tile, i % 4, i / 4)]

/-- Every activation row streamed through the arrays in ascending order. -/
def streamRows (s : State) (o : MatmulOp) (compat : Bool) (wv : List (List Val)) : Nat → List (List Val) → State
  | _, [] => s
  | i, av :: r =>
    let s := if compat then s else countTerms s o.core o.k (rowsEntered o i)
    streamRows (rowColumns s o compat i av 0 wv) o compat wv (i + 1) r

/-! The drain (R129, R142, R235). -/

/-- What a lane drains as, by its flags and value (R169, R518). -/
def drainVal (s : State) (o : MatmulOp) (compat : Bool) (i n : Nat) : Val :=
  let (t, a, r, c) := place o i n
  let l := laneOf s o.core t a r c
  if l.nan || (l.pinf && l.ninf) then .nan
  else if l.pinf then .inf false
  else if l.ninf then .inf true
  else if compat then lookD s.tw.compat (laneKey o.core t a r c) (.fin false 0 0)
  else
    let v := laneValue l (tileOf s o.core t).anchor
    if v.1 = 0 then Val.zero else ofInt v.1 v.2

/-- The generator of the lane that converts row i, column n (R233). -/
def drainLane (o : MatmulOp) (i n : Nat) : Nat :=
  let (_, a, _, c) := place o i n
  1024 * o.core + 256 * a + c

/-- One output row converted and written, with its scales; true when a write met an uncorrectable word. -/
def drainRow (s : State) (o : MatmulOp) (compat : Bool) (i : Nat) : Bool × State :=
  let vs := (List.range o.n).map fun n => drainVal s o compat i n
  let scs := rowScales o.oSpec vs
  let (cs, s) := convList s o.oSpec (specGrad o.oSpec) (compat || drawFixed s) scs 0
    (((List.range o.n).map (drainLane o i)).zip vs |>.map fun p => (p.2, p.1))
  let off := o.oOff + i * o.oStride
  let bad := cbWriteBad s o.core off (elemBytes o.oSpec o.n)
  let s := cbWrite s o.core off (packOver (fmtWidth (specFmt o.oSpec)) cs (cbRead s.tw o.core off (elemBytes o.oSpec o.n)))
  if specBlock o.oSpec then
    let a := o.oScaleOff + i * (o.n / 32)
    (bad || cbWriteBad s o.core a (o.n / 32), cbWrite s o.core a (scs.map (BitVec.ofNat 8)))
  else (bad, s)

/-- Every output row drained in ascending order, up to one that meets an uncorrectable word. -/
def drainRows (s : State) (o : MatmulOp) (compat : Bool) : List Nat → Bool × State
  | [] => (false, s)
  | i :: r => match drainRow s o compat i with
    | (true, s) => (true, s)
    | (false, s) => drainRows s o compat r

/-! Operand ranges (R128, R130). -/

def weightRanges (o : MatmulOp) : List Range :=
  (o.wOff, elemBytes o.wSpec (o.n * o.k)) :: if specBlock o.wSpec then [(o.wScaleOff, o.n * (o.k / 32))] else []
def actRanges (o : MatmulOp) : List Range :=
  strided o.aOff (elemBytes o.aSpec o.k) o.aStride o.m ++ if specBlock o.aSpec then [(o.aScaleOff, o.m * (o.k / 32))] else []
def outElemRanges (o : MatmulOp) : List Range := strided o.oOff (elemBytes o.oSpec o.n) o.oStride o.m
def outScaleRanges (o : MatmulOp) : List Range := if specBlock o.oSpec then [(o.oScaleOff, o.m * (o.n / 32))] else []
def outRanges (o : MatmulOp) : List Range := outElemRanges o ++ outScaleRanges o

/-- Two range lists share a byte. -/
def anyMeet (x y : List Range) : Bool := x.any fun r => y.any (meets r)
/-- A scale array meets its element array (R89). -/
def matScalesBad (o : MatmulOp) : Bool :=
  (specBlock o.wSpec && meets (o.wOff, elemBytes o.wSpec (o.n * o.k)) (o.wScaleOff, o.n * (o.k / 32)))
  || (specBlock o.aSpec && anyMeet (strided o.aOff (elemBytes o.aSpec o.k) o.aStride o.m) [(o.aScaleOff, o.m * (o.k / 32))])
def outScalesBad (o : MatmulOp) : Bool := anyMeet (outElemRanges o) (outScaleRanges o)

/-- A range passes the core buffer. -/
def cbPast (rs : List Range) : Bool := rs.any fun r => cbSize < r.1 + r.2

/-- Row i of a matrix of n rows of k elements packed without gaps, with its scales. -/
def matRow (t : Twill) (g spec off scaleOff k : Nat) (base i : Nat) : List Val :=
  let w := fmtWidth (specFmt spec)
  let b := base + i * k * w
  let bs := cbRead t g (off + b / 8) (ceilDiv (b % 8 + k * w) 8)
  let cs := (List.range k).map fun j => ofLe ((bs.drop ((b % 8 + w * j) / 8)).take 5) / 2 ^ ((b % 8 + w * j) % 8) % 2 ^ w
  elemVals spec cs ((cbRead t g (scaleOff + i * (k / 32)) (k / 32)).map BitVec.toNat)

/-- The weight set a descriptor names: N rows of K values. -/
def weightSet (t : Twill) (o : MatmulOp) : List (List Val) :=
  (List.range o.n).map fun n => matRow t o.core o.wSpec o.wOff o.wScaleOff o.k 0 n

/-- The activation rows a descriptor names. -/
def actRows (t : Twill) (o : MatmulOp) : List (List Val) :=
  (List.range o.m).map fun i =>
    let cs := unpack (fmtWidth (specFmt o.aSpec)) o.k (cbRead t o.core (o.aOff + i * o.aStride) (elemBytes o.aSpec o.k))
    elemVals o.aSpec cs ((cbRead t o.core (o.aScaleOff + i * (o.k / 32)) (o.k / 32)).map BitVec.toNat)

end Sys2Proof.Machine
end

