-- ==== Sys2Proof/Machine/FaultOps.lean ====
section
/-!
DEFINITION. Faults and their consequences: the ring switches (R372, R375), panel faults (R125, R193, R261), migrations that end
(R210), fences, die resets and reclaims (R424 to R429), multicast detachment (R319).
-/

namespace Sys2Proof.Machine

/-! Ring ports and switches (R372, R375). -/

abbrev pDown := 0
abbrev pTraining := 1
abbrev pUpFull := 2
abbrev pUpHalf := 3
abbrev pMismatch := 4
abbrev pBroken := 5
abbrev pBypassed := 6

def rport (s : State) (d : Nat) : RPort := lookD s.rings.ports d {}
/-- A port changed; a change of its state or of its lanes updates the Legend (R49). -/
def setRPort (s : State) (d : Nat) (f : RPort → RPort) : State :=
  let p := f (rport s d)
  let t := s.onRings fun g => { g with ports := put g.ports d p }
  if p.st != (rport s d).st || p.lanes != (rport s d).lanes then legendUpdate t else t
/-- A ring or twin port is up. -/
def rportUp (s : State) (d : Nat) : Bool := (rport s d).st == pUpFull || (rport s d).st == pUpHalf

/-- The link dies of a dimension: 0 Easting, 1 Northing (R360). -/
def dimDies (dim : Nat) : List Nat := if dim = 0 then [34, 35] else [36, 37]
/-- The dimension of a ring link die. -/
def dimOfDie (d : Nat) : Nat := if d < 36 then 0 else 1

/-- The causes of R372 as numbers: 1 to 4 are its first four rows, 5 and 6 its last row for Easting and for Northing. -/
abbrev causePower := 1
abbrev causeReset := 2
abbrev causeSelvage := 3
abbrev causeForce := 4
/-- The dimensions that a cause closes. -/
def causeDims (c : Nat) : List Nat := if c = 5 then [0] else if c = 6 then [1] else [0, 1]

/-- The switches of a dimension close: its ports are BYPASSED. -/
def closeDim (s : State) (dim : Nat) : State :=
  let s := s.onRings fun g => { g with openDims := g.openDims.erase dim, released := false }
  (dimDies dim).foldl (fun s d => setRPort s d fun p => { p with st := pBypassed, lanes := 0, peerValid := false }) s

/-- A cause of R372 begins to hold. -/
def addCause (s : State) (c : Nat) : State :=
  (causeDims c).foldl closeDim (s.onRings fun g => { g with causes := ins g.causes c })

/-- A cause ceases. -/
def dropCause (s : State) (c : Nat) : State := s.onRings fun g => { g with causes := g.causes.erase c }

/-! Panel faults (R125, R126, R193, R261). -/

/-- The cores of a panel. -/
def panelCores (s : State) (p : Nat) : List Nat :=
  match panelRec s p with
  | some r => (List.range 64).filter (bit (fld r 2))
  | none => []

/-- A core FAULTED: its tiles, anchors and flags zeroed, its weight tag invalid (R125 step 3). -/
def faultCore (s : State) (g : Nat) : State :=
  let s := (List.range 8).foldl (fun s t => (zeroTile s g t).onTw fun w => { w with tiles := del w.tiles (tileKey g t) }) s
  setCore s g fun c => { c with faulted := true, shadowFull := false, tagValid := false, ballast := 0, weights := [], shadow := [] }

/-- The queues of a panel. -/
def panelQueues (s : State) (p : Nat) : List Nat := (s.qm.queues.map (·.1)).filter fun q => panelOfQueue s q == some p

/-- The ledger words of a region key ((die, bank), region) belong to a panel. -/
def regionPanel (s : State) (k region : Nat) : Option Nat := (ledgerRec s k region).map (fld · 3)

/-- A directory entry stored, or freed when its row rests at the shard-map DA and no flag is set (R208); a row that waits for a reserved
entry takes one that has come free (R214). -/
def storeDir (s : State) (k t row : Nat) (e : DirEntry) : State :=
  let home := match shardPlace s t row with | some (_, da) => da | none => 0
  wakePatch (if e.st = .resident && e.dest = home && !(e.poisoned || e.pendingF || e.paged) then delDir s k t row else setDir s k t row e) k

/-- The panel's unsealed, sealed and pending ledger contents discarded and its banks zeroed (R193). -/
def dropPanelLedgers (s : State) (p : Nat) : State :=
  let mine (t : Nat) : Bool := match tableRec s t with | some r => tPanel r == p | none => false
  let region (key : Nat) : Bool := regionPanel s (key / 512) (key % 256) == some p
  let t := s.onMu fun m =>
    { m with entries := keep (fun key _ => !mine (key / 2 ^ 31 % 4096)) m.entries,
             pend := keep (fun key _ => !mine (key / 2 ^ 31 % 4096)) m.pend,
             dense := keep (fun key _ => !region (key / 2 ^ 29)) m.dense,
             denseLost := m.denseLost.filter fun key => !region (key / 2 ^ 29),
             denseLate := m.denseLate.filter fun key => !region key }
  (s.mu.dir.filter fun x => mine (x.1 / 2 ^ 31 % 4096) && x.2.pendingF).foldl (fun t x =>
    storeDir t (x.1 / 2 ^ 43) (x.1 / 2 ^ 31 % 4096) (x.1 % 2 ^ 31) { x.2 with pendingF := false }) t

/-- Streams of a panel. -/
def panelStreams (s : State) (p : Nat) : List Nat := ((sect s 0x13).filter fun r => fld r 1 == p).map (fld · 0)

abbrev sIdle := 0
abbrev sRun := 1
abbrev sFull := 2
abbrev sAborted := 3

def strmOf (s : State) (n : Nat) : Strm := lookD s.streams n {}
def setStrm (s : State) (n : Nat) (f : Strm → Strm) : State := s.onStreams fun m => put m n (f (lookD m n {}))

/-- A stream that is not IDLE or ABORTED shows RUN, or FULL (R260). The cycles that it spends FULL are time: a free value (R268; DESIGN CHOICE,
log entry 2). -/
def showFull (s : State) (n : Nat) (r : Rec) (full : Bool) : State :=
  let x := strmOf s n
  if x.st != sRun && x.st != sFull then s
  else
    let s := setStrm s n fun x => { x with st := if full then sFull else sRun }
    if full && x.st == sRun then bumpBy s.took (consumerDie r) (if isTw (consumerDie r) then 0x19020 else 0x13070) (fresh s % 2 ^ 32)
    else s

/-- FILL − REL: bytes produced and not released (R256). -/
def strmHeld (x : Strm) : Nat := (x.fill + 2 ^ 64 - x.rel) % 2 ^ 64

/-- How a read meets the windows of its unit. -/
inductive WinRead where
  | ok
  | bad             -- it crosses a window's end
  | wait            -- its bytes are not all there yet
  | aborted (st : Nat)
  deriving DecidableEq, Repr

/-- A read of n bytes at an offset of a window: the first position at or above REL that lies at the offset, and FILL (R257); none when
it starts outside the window. -/
def winMeet (s : State) (r : Rec) (o n : Nat) : Option WinRead :=
  let w := winBytes r
  if o < fld r 11 || fld r 11 + w ≤ o then none
  else
    let k := o - fld r 11
    let x := strmOf s (fld r 0)
    if w < k + n then some .bad
    else
      let p := (k + w - x.rel % w) % w
      if p + n ≤ strmHeld x then some .ok
      else if x.st = sAborted then some (.aborted x.abort)
      else some .wait

/-- The unit that consumes a stream (R255). -/
def consumerUnit (r : Rec) : UnitId := if coreConsumer r then coreUnit (fld r 5) else engUnit (fld r 5)

/-- The fault source of a stream: its consumer die's mover, on a compute die the slot of the core that it serves (R417; DEDUCED, log entry
20). -/
def strmSource (r : Rec) : Nat := srcOfUnit ⟨consumerDie r, if coreConsumer r then 16 + fld r 5 % 4 else 5⟩

/-- The source of a descriptor's expiry (R71, R417). -/
def dispSource (s : State) (d : Disp) : Nat :=
  match d.cmd with
  | .stRearm _ o => (match streamRec s o.stream with | some r => strmSource r | none => srcOfUnit d.unit)
  | _ => srcOfUnit d.unit

/-- A descriptor waits for bytes of a stream that are not there. -/
def waitsOn (s : State) (r : Rec) (d : Disp) : Bool :=
  d.unit == consumerUnit r && d.waits.any fun q => winMeet s r q.1 q.2 == some .wait

/-- A stream whose schedule goes on at an entry (R260, R263): one that was ABORTED discards its window's contents. -/
def restarted (r : Rec) (seg : Nat) (x : Strm) : Strm :=
  let x := if x.st = sAborted then { x with rel := x.fill, wpos := x.fill, credits := fullCredits r, abort := 0 } else x
  { x with st := sRun, seg := seg, segPos := 0, cur := none, reported := false }

/-- A stream ABORTED with a status (R260, R261): what waits for its bytes, and the ST_REARM descriptors without RESTART that wait at its
mover, complete with it; one with RESTART takes effect (R263). -/
def abortStream (s : State) (n st : Nat) : State :=
  let held := (strmOf s n).rearm
  let gone := (held.filter fun r => !r.2.restart).map (·.1)
  let stuck := match streamRec s n with
    | some r => s.qm.disp.filter (waitsOn s r)
    | none => []
  let s := setStrm s n fun x => { x with st := sAborted, abort := st, wpos := x.fill, cur := none, rearm := [] }
  let s := gone.foldl (fun s h => match findDisp s h with | some d => complete s h d.unit st | none => s) s
  let s := stuck.foldl (fun s d => endEarly s d st) s
  match streamRec s n, held.filter (·.2.restart) with
  | some r, (h, o) :: rest =>
    let s := setStrm s n fun x => { restarted r o.seg x with rearm := rest }
    (match findDisp s h with | some d => complete s h d.unit stDone | none => s)
  | _, _ => s

/-- R125 steps 2 to 4 for a panel. An entry that was being read again keeps its slot until its record (R290). -/
def faultPanel (s : State) (p : Nat) : State :=
  let s := (panelCores s p).foldl faultCore s
  let s := endAll s (fun d => panelOfQueue s d.hdr.queue == some p) stAbortPanel
  let s := (panelQueues s p).foldl (fun s q =>
    setQueue (endFetchedAll s q stAbortPanel) q fun v => { v with st := if v.st = qActive || v.st = qHalted then qFaulted else v.st }) s
  (panelStreams s p).foldl (fun s n => abortStream s n stAbortPanel) (dropPanelLedgers s p)

/-- The panels with a core on a compute die. -/
def panelsOnDie (s : State) (d : Nat) : List Nat :=
  ((sect s 0x04).filter fun r => (List.range 4).any fun c => bit (fld r 2) (4 * (d - 2) + c)).map (fld · 0)

/-! Migrations that end early (R208, R210). -/

/-- The entries of a row on a ledger die, in both banks, changed or removed. -/
def rowEntries (s : State) (k t row : Nat) (f : Entry → Option Entry) : State :=
  let one (z : FMap Entry) (b : Nat) : FMap Entry :=
    match (look z (entryKey k b t row)).map f with
    | some (some e) => put z (entryKey k b t row) e
    | some none => del z (entryKey k b t row)
    | none => z
  s.onMu fun m => { m with entries := [0, 1].foldl one m.entries }

/-- A migration abandoned: the row is RESIDENT where it was, with its entries at Lo, its queued adds go to Lo, and an MU_MIGRATE completes
DONE_PARTIAL (R208, R210, R211). -/
def abandonMove (s : State) (k t row : Nat) (e : DirEntry) : State :=
  let s := closeRow (bump s (18 + k) 0x11048) rkMove k t row
  let s := if e.started && e.targetDie != e.ledgerDie then rowEntries s e.targetDie t row fun _ => none else s
  let s := rowEntries s e.ledgerDie t row fun x => some { x with moved := false }
  let s := e.queued.foldl (fun s m => sendAdd s { m with dst := 18 + e.ledgerDie, fwd := true, via := some (18 + k) }) s
  let s := storeDir s k t row { e with st := .resident, queued := [], started := false, sealedIn := false, waiter := none, target := 0, targetDie := 0,
                                        pageIn := false }
  match e.waiter with
  | some h => complete s h (ledgerUnit k) stPartial
  | none => s

/-- R210 for a Muslin die that is fenced or FAILED, as Ln of a MOVING row or as Lo of a row in migration. -/
def freeDirents (s : State) (dead : Nat) : State :=
  s.mu.dir.foldl (fun s x =>
    let k := x.1 / 2 ^ 43
    let t := x.1 / 2 ^ 31 % 4096
    let row := x.1 % 2 ^ 31
    let e := x.2
    if e.st = .moving && e.targetDie = dead then abandonMove s k t row e
    else if (e.st != .resident) && (if e.st = .forwarding then e.prevLedger else e.ledgerDie) == dead then
      let lost := [0, 1].filter fun b => match look s.mu.entries (entryKey dead b t row) with | some x => !x.moved | none => false
      let s := bumpBy s (18 + k) 0x11030 lost.length
      let s := s.onMu fun m => { m with entries := lost.foldl (fun z b => del z (entryKey dead b t row)) m.entries }
      let s := match shardPlace s t row with | some (_, da) => markPoisoned s k t row da | none => s
      if e.st = .moving || e.st = .draining then
        abandonMove s k t row ((dirOf s k t row).getD e)
      else s
    else s) s

/-! Multicast (R317 to R320). -/

/-- A receiver detached, with the record of R319; the report of a remote one goes to its ring on this package too (R385). QUEUE, PANEL, SCOPE and STEP_LO of that record are not stated: free values (DESIGN CHOICE,
log entry 53). -/
def detachRecv (s : State) (r : Rec) : State :=
  let (group, src, die, ring) := (fld r 0, fld r 2, fld r 3, fld r 4)
  let s := setRecv s r fun v => { v with attached := false }
  let v := fresh s
  let s := writeRecord s.took ring fun ph =>
    recordBytes stPartial ph (v % 2) (v / 2 % 64) group (v / 128) 0 die 14 (v / 2 ^ 32) 0
  bump s src 0x1070

/-! Fences, resets and reclaims (R425 to R429). -/

/-- A party whose unit is fenced alone: a Twill core, a Muslin engine or optimizer, a stream mover (R425). -/
def unitParty (u : UnitId) : Bool :=
  (isTw u.die && (u.unit < 4 || u.unit == 5)) || (isMu u.die && u.unit ≤ 5)

/-- The party's fence (R425): its local attachment, or every neighbour's port to its die FAILED. SV is never fenced. Fencing CMD closes
both ring dimensions and starts a warm reset (R424). -/
def fenceParty (s : State) (u : UnitId) : State :=
  if isTw u.die && u.unit < 4 then
    let g := 4 * (u.die - 2) + u.unit
    setCore (s.onSv fun v => { v with fenceCore := ins v.fenceCore g }) g fun c => { c with fenced := true }
  else if isTw u.die && u.unit = 5 then s.onSv fun v => { v with fenceTwMover := ins v.fenceTwMover (u.die - 2) }
  else if isMu u.die && u.unit < 4 then s.onSv fun v => { v with fenceEng := ins v.fenceEng (4 * (u.die - 18) + u.unit) }
  else if isMu u.die && u.unit = 4 then s.onSv fun v => { v with fenceOpt := ins v.fenceOpt (u.die - 18) }
  else if isMu u.die && u.unit = 5 then s.onSv fun v => { v with fenceMuMover := ins v.fenceMuMover (u.die - 18) }
  else if u.die = 1 || s.sv.fence.contains u.die then s
  else
    let s := (List.range 8).foldl (fun s p =>
      match linkPeer u.die p with
      | some e => if fitted s.pkg.variant e then (match portTo e u.die with | some q => failPort s e q | none => s) else s
      | none => s) s
    let s := s.onSv fun v => { v with fence := ins v.fence u.die }
    if u.die = 0 then addCause (s.onSv fun v => { v with warmReqs := ins v.warmReqs 8 }) causeSelvage else s

/-- A unit-level fence lifted (R425). -/
def liftFence (s : State) (u : UnitId) : State :=
  if isTw u.die && u.unit < 4 then
    let g := 4 * (u.die - 2) + u.unit
    setCore (s.onSv fun v => { v with fenceCore := v.fenceCore.erase g }) g fun c => { c with fenced := false }
  else if isTw u.die && u.unit = 5 then s.onSv fun v => { v with fenceTwMover := v.fenceTwMover.erase (u.die - 2) }
  else if isMu u.die && u.unit < 4 then s.onSv fun v => { v with fenceEng := v.fenceEng.erase (4 * (u.die - 18) + u.unit) }
  else if isMu u.die && u.unit = 4 then s.onSv fun v => { v with fenceOpt := v.fenceOpt.erase (u.die - 18) }
  else if isMu u.die && u.unit = 5 then s.onSv fun v => { v with fenceMuMover := v.fenceMuMover.erase (u.die - 18) }
  else s

/-- Selvage starts a reclaim (R427 steps 3 and 4): fence, RECLAIM sent, timer running. Fencing a core is a panel fault (R124). -/
def startReclaim (s : State) (r : Reclaim) : State :=
  let u := r.party
  let s := fenceParty (bump s 1 0x10058) u
  let s := if isTw u.die && u.unit < 4 then
      match panelOfCore s (4 * (u.die - 2) + u.unit) with
      | some p => if panelFaulted s p then s else faultPanel s p
      | none => faultCore s (4 * (u.die - 2) + u.unit)
    else s
  s.onSv fun v => { v with reclaim := some r, reclaimSt := 2 }

/-- A trigger of R427: it joins a reclaim of the same party, or waits its turn. -/
def triggerReclaim (s : State) (r : Reclaim) : State :=
  match s.sv.reclaim with
  | none => startReclaim s r
  | some x =>
    if x.party = r.party then s.onSv fun v => { v with reclaim := some { x with reset := x.reset || r.reset } }
    else if s.sv.reclaims.any (fun y => y.party == r.party) then
      s.onSv fun v => { v with reclaims := v.reclaims.map fun y => if y.party = r.party then { y with reset := y.reset || r.reset } else y }
    else s.onSv fun v => { v with reclaims := v.reclaims ++ [r] }

/-- A panel fault detected at core g (R125 steps 1, 2 and 5): its source, the panel FAULTED, and the reclaim of what the panel holds
(DEDUCED, log entry 39). -/
def panelFaultAt (s : State) (g : Nat) : State :=
  let s := setSticky s (srcOfUnit (coreUnit g))
  match panelOfCore s g with
  | some p => if panelFaulted s p then s else triggerReclaim (faultPanel s p) { party := coreUnit g, kind := 7 }
  | none => triggerReclaim s { party := coreUnit g, kind := 7, reset := true }

/-- The panels with a core on a die that are not yet FAULTED take a panel fault (R124), and what each holds is reclaimed (R125 step 5,
R424). The lost die is a party of its own, so the party named for a panel is one of its cores elsewhere (DEDUCED, log entry 39). -/
def faultDiePanels (s : State) (d : Nat) : State :=
  if isTw d then
    ((panelsOnDie s d).filter fun p => !panelFaulted s p).foldl (fun s p =>
      let s := faultPanel s p
      match (panelCores s p).find? fun g => 2 + g / 4 != d && dieUp s (2 + g / 4) with
      | some g => triggerReclaim s { party := coreUnit g, kind := 7 }
      | none => s) s
  else s

/-- A reclaim ends: FREE(party) is broadcast, and the next trigger's turn comes. -/
def endReclaim (s : State) (u : UnitId) : State :=
  let s := s.onSv fun v => { v with reclaim := none, reclaimSt := 0, freeing := v.freeing ++ [u] }
  match s.sv.reclaims with
  | [] => s
  | r :: rest => startReclaim (s.onSv fun v => { v with reclaims := rest }) r

/-- Streams whose producer is the mover of a die. -/
def moverStreams (s : State) (d : Nat) : List Nat :=
  ((sect s 0x13).filter fun r => fld r 2 == 0 && consumerDie r == d).map (fld · 0)

/-- A link die's port, its stores and its ingress tags at reset (R309, R366, R370, R511). -/
def resetLinkDie (s : State) (d : Nat) : State :=
  setRPort (s.onRings fun g => { g with egress := del g.egress d, ingress := g.ingress.filter (·.die != d) }) d fun _ => {}

/-- A die reset (R425, R511): its registers return to their reset values, the Legend marks it FAILED, its requests and the commands
its units held end (R429), and what its memories held of banks is gone. -/
def resetDie (s : State) (d : Nat) : State :=
  let s := faultDiePanels s d
  let s := legendUpdate (s.onPkg fun p => { p with dieFailed := ins p.dieFailed d })
  let s := if isMu d then freeDirents s (d - 18) else s
  let s := s.onRegs fun m => keep (fun key _ => key / 2 ^ 32 % 4096 != d) m
  let s := s.onGz fun g => { g with out := g.out.filter (·.die != d), quarantined := g.quarantined.filter (· / 65536 != d) }
  let s := endAll s (fun x => x.unit.die == d) stAbortReset
  let s := (moverStreams s d).foldl (fun s n => if (strmOf s n).st = sAborted then s else abortStream s n stAbortReset) s
  if isMu d then
    s.onMu fun m => { m with entries := keep (fun key _ => key / 2 ^ 44 != d - 18) m.entries,
                             pend := keep (fun key _ => key / 2 ^ 43 != d - 18) m.pend,
                             dense := keep (fun key _ => key / 2 ^ 38 != d - 18) m.dense,
                             denseLate := m.denseLate.filter fun key => key / 512 != d - 18,
                             denseLost := m.denseLost.filter fun key => key / 2 ^ 38 != d - 18 }
  else if isRing d then addCause (resetLinkDie s d) (5 + dimOfDie d)
  else if isTwin d then resetLinkDie s d
  else if d = 0 then addCause (s.onSv fun v => { v with warmReqs := ins v.warmReqs 8 }) causeSelvage
  else s

/-- The reset that ends a reclaim whose party does not answer (R427 step 6b, R429, R511). A core's reset is a panel fault; a core
stays FAULTED and fenced until its per-panel reset. -/
def resetParty (s : State) (u : UnitId) : State :=
  if isTw u.die && u.unit < 4 then
    let g := 4 * (u.die - 2) + u.unit
    match panelOfCore s g with
    | some p => if panelFaulted s p then s else faultPanel s p
    | none => faultCore s g
  else if unitParty u then
    let s := endAll s (fun x => x.unit == u) stAbortReset
    let s := if u.unit = 5 then (moverStreams s u.die).foldl (fun s n => if (strmOf s n).st = sAborted then s else abortStream s n stAbortReset) s else s
    liftFence (if isMu u.die && u.unit < 4 then s.onMu fun m => { m with engState := del m.engState (4 * (u.die - 18) + u.unit) }
               else s) u
  else resetDie s u.die

/-- FREE(party) at every grantor (R428). TAG leases are held by the dies that requests went to (DESIGN CHOICE, log entry 55). -/
def freeLeases (s : State) (u : UnitId) : State :=
  let s := if unitParty u then s else
    s.onGz fun g => { g with out := g.out.filter (·.dst != u.die) }
  let s := ((sect s 0x13).filter fun r => fld r 3 == 1 &&
      ((u.unit == 5 && fld r 2 == 0 && consumerDie r == u.die) || (!unitParty u && fld r 2 == 2 && isRing u.die))).foldl
    (fun s r => setStrm s (fld r 0) fun x => { x with credits := 0 }) s
  let s := if isMu u.die && !unitParty u then freeDirents s (u.die - 18) else s
  let panel := if isTw u.die && u.unit < 4 then panelOfCore s (4 * (u.die - 2) + u.unit) else none
  let s := ((mcMembers s).filter fun r => fld r 6 == 0 && (if unitParty u then panel == some (fld r 1) else fld r 3 == u.die) &&
      (mcRecvOf s r).attached).foldl detachRecv s
  match panel with
  | some p => if panelFaulted s p then s else faultPanel s p
  | none => s


end Sys2Proof.Machine
end

