-- ==== Sys2Proof/Machine/RingOps.lean ====
section
/-!
DEFINITION. The ring agent and the link dies: the ring map and routes (R367, R369), the peer table and tokens (R377 to R381), remote
requests and what ends them (R370, R376, R384).
-/

namespace Sys2Proof.Machine

/-! The ring map (R367). Records are [KIND, …] as the RING section packs them. -/

def ringHeader (s : State) : Option Rec := s.rings.map_.find? fun r => fld r 0 == 0
/-- SELF. -/
def selfDev (s : State) : Nat := match ringHeader s with | some r => fld r 1 | none => 0
def devRec (s : State) (d : Nat) : Option Rec := s.rings.map_.find? fun r => fld r 0 == 1 && fld r 1 == d
def devices (s : State) : List Nat := (s.rings.map_.filter fun r => fld r 0 == 1).map (fld · 1)
/-- Position of a device in dimension 0 Easting, 1 Northing. -/
def devPos (s : State) (d dim : Nat) : Nat := match devRec s d with | some r => fld r (2 + dim) | none => 0
/-- Size of a ring. -/
def ringLen (s : State) (dim : Nat) : Nat := match ringHeader s with | some r => fld r (2 + dim) | none => 1
/-- The map's TWIN of a device. -/
def mapTwin (s : State) (d : Nat) : Option Nat :=
  match devRec s d with | some r => if fld r 5 = 1 then some (fld r 4) else none | none => none
/-- The device at a position. -/
def devAt (s : State) (e n : Nat) : Option Nat :=
  (s.rings.map_.find? fun r => fld r 0 == 1 && fld r 2 == e && fld r 3 == n).map (fld · 1)

/-! The peer table (R377). -/

abbrev peerLive := 1
abbrev peerSilent := 2
abbrev peerAbsent := 3
abbrev peerAliased := 4

/-- A peer's entry: LIVE at first where the map defines the device (DESIGN CHOICE, log entry 13), UNDEFINED otherwise. -/
def peerOf (s : State) (d : Nat) : Peer :=
  match devRec s d with
  | none => { st := 0 }
  | some _ => lookD s.rings.peers d {}
def setPeer (s : State) (d : Nat) (f : Peer → Peer) : State :=
  s.onRings fun g => { g with peers := put g.peers d (f (lookD g.peers d {})) }

/-- A peer counts as ABSENT: it is, or it is ALIASED to a target that is. -/
def countsAbsent (s : State) (d : Nat) : Bool :=
  let p := peerOf s d
  p.st == peerAbsent || p.st == 0 || (p.st == peerAliased && (peerOf s p.target).st == peerAbsent)

/-- The device stands on its ring: LIVE or SILENT. -/
def standing (s : State) (d : Nat) : Bool := (peerOf s d).st == peerLive || (peerOf s d).st == peerSilent

/-! Routes (R369). -/

abbrev rtLocal := 4
abbrev rtUnreach := 7

/-- The device at coordinate x of a line: dimension 0 runs along EPOS at NPOS = line. -/
def lineDev (s : State) (dim line x : Nat) : Option Nat := if dim = 0 then devAt s x line else devAt s line x

def stepPos (size x : Nat) (plus : Bool) : Nat := if plus then (x + 1) % size else (x + size - 1) % size

/-- The next coordinate that holds a standing device, or the target, fuel positions on. -/
def nextPosn (s : State) (dim line size target : Nat) (plus : Bool) : Nat → Nat → Nat
  | 0, x => x
  | n + 1, x =>
    let y := stepPos size x plus
    if y = target then y
    else match lineDev s dim line y with
      | some d => if standing s d then y else nextPosn s dim line size target plus n y
      | none => nextPosn s dim line size target plus n y

/-- Live hops from a coordinate to the target in one direction; none over a broken segment. -/
def legHops (s : State) (dim line size target : Nat) (plus : Bool) : Nat → Nat → Option Nat
  | 0, _ => none
  | n + 1, x =>
    if x = target then some 0
    else
      let y := nextPosn s dim line size target plus size x
      match lineDev s dim line (if plus then x else y) with
      | some d => if s.rings.broken.contains (2 * d + dim) then none
                  else (legHops s dim line size target plus n y).map (· + 1)
      | none => (legHops s dim line size target plus n y).map (· + 1)

/-- The exit of a leg that starts at this package: true for +; none when neither direction reaches. -/
def legExit (s : State) (dim line x target : Nat) : Option Bool :=
  let size := ringLen s dim
  let go (plus : Bool) : Option Nat :=
    if rportUp s ((dimDies dim).getD (b2n plus) 34) then legHops s dim line size target plus (size + 1) x else none
  match go true, go false with
  | some a, some b => some (a ≤ b)
  | some _, none => some true
  | none, some _ => some false
  | none, none => none

/-- A leg further on can be made in one direction. -/
def legOpen (s : State) (dim line x target : Nat) : Bool :=
  let size := ringLen s dim
  (legHops s dim line size target true (size + 1) x).isSome || (legHops s dim line size target false (size + 1) x).isSome

/-- The ring route to a device (R369): 0 LE−, 1 LE+, 2 LN−, 3 LN+, 4 LOCAL, 7 UNREACHABLE. -/
def ringRoute (s : State) (d : Nat) : Nat :=
  let me := selfDev s
  match devRec s d with
  | none => rtUnreach
  | some _ =>
    let p := peerOf s d
    let t := if p.st = peerAliased then p.target else d
    if d = me || t = me then rtLocal
    else if !standing s t then rtUnreach
    else
      let (e, n) := (devPos s me 0, devPos s me 1)
      let (de, dn) := (devPos s t 0, devPos s t 1)
      if e != de then
        let turn := match devAt s de n with | some x => standing s x || x == t | none => false
        match legExit s 0 n e de with
        | some plus => if dn = n || (turn && legOpen s 1 de n dn) then b2n plus else rtUnreach
        | none => rtUnreach
      else match legExit s 1 e n dn with
        | some plus => 2 + b2n plus
        | none => rtUnreach

/-- The link die a route names. -/
def routeDie (r : Nat) : Option Nat := if r < 4 then some (34 + r) else none

/-! Tokens (R377, R379). -/

/-- A TOPO token's effect on the tables: AUX 0 ABSENT, 1 PRESENT, 2 BREAK_E, 3 BREAK_N, 4 MEND_E, 5 MEND_N. -/
def applyTopo (s : State) (dev aux orig count : Nat) : State :=
  if 5 < aux || (devRec s dev).isNone then s
  else if count ≤ look0 s.rings.topoCnt orig then s
  else
    let s := s.onRings fun g => { g with topoCnt := put g.topoCnt orig count }
    let st := (peerOf s dev).st
    if aux = 0 then (if st = peerAliased then s else setPeer s dev fun p => { p with st := peerAbsent })
    else if aux = 1 then (if st = peerAliased then s else setPeer s dev fun p => { p with st := peerLive })
    else if aux < 4 then s.onRings fun g => { g with broken := ins g.broken (2 * dev + (aux - 2)) }
    else s.onRings fun g => { g with broken := g.broken.erase (2 * dev + (aux - 4)) }

/-- A SENT or OPEN token: the sender is LIVE unless ALIASED, and the highest step of each is held (DESIGN CHOICE, log entry 13). -/
def applyStep (s : State) (dev step : Nat) (open_ : Bool) : State :=
  if (devRec s dev).isNone then s
  else
    let hold (o : Option Nat) : Option Nat := match o with | some x => some (max x step) | none => some step
    setPeer s dev fun p =>
      let p := if p.st = peerAliased then p else { p with st := peerLive }
      if open_ then { p with opened := hold p.opened } else { p with sent := hold p.sent }

/-- An ALIAS token: of a device to its map TWIN, or back to itself; any other is discarded. -/
def applyAlias (s : State) (dev target : Nat) : State :=
  if (devRec s dev).isNone then s
  else if target = dev then
    (if (peerOf s dev).st = peerAliased then setPeer s dev fun p => { p with st := peerLive, target := 0 } else s)
  else if mapTwin s dev = some target then setPeer s dev fun p => { p with st := peerAliased, target := target }
  else s

/-- A token applied (R379). -/
def applyToken (s : State) (t : Token) : State :=
  match t.kind with
  | 0 => applyStep s t.dev t.step false
  | 1 => applyStep s t.dev t.step true
  | 2 => applyTopo s t.dev t.aux t.orig t.step
  | 3 => applyAlias s t.dev t.aux
  | _ => s

/-- A token originated here: sent on every up port, and delivered inside the package (R379). -/
def flood (s : State) (t : Token) : State := applyToken (s.onRings fun g => { g with floods := g.floods ++ [t] }) t

/-- A TOPO token originated here, under the next change count. -/
def floodTopo (s : State) (dev aux : Nat) : State :=
  let s := s.onRings fun g => { g with myTopo := (g.myTopo + 1) % 2 ^ 40 }
  flood s { kind := 2, dev := dev, aux := aux, step := s.rings.myTopo, orig := selfDev s }

/-- SENT(n) or OPEN(n) sent for SELF and for every device ALIASED to SELF (R380). -/
def floodStep (s : State) (n : Nat) (open_ : Bool) : State :=
  let mine := (devices s).filter fun d => d == selfDev s || ((peerOf s d).st == peerAliased && (peerOf s d).target == selfDev s)
  mine.foldl (fun s d => flood s { kind := b2n open_, dev := d, aux := 0, step := n, orig := selfDev s }) s

/-! Gates (R380, R381). -/

/-- A device is awaited at a gate: it is LIVE, or ALIASED to SELF. -/
def awaited (s : State) (d : Nat) : Bool :=
  let p := peerOf s d
  p.st == peerLive || (p.st == peerAliased && p.target == selfDev s)

/-- Awaited devices from which SENT(n) or OPEN(n) is not held. -/
def missing (s : State) (n : Nat) (open_ : Bool) : List Nat :=
  (devices s).filter fun d => awaited s d &&
    (match (if open_ then (peerOf s d).opened else (peerOf s d).sent) with | some x => x < n | none => true)

/-- OPEN(n) is held from every awaited device; step 0 has no predecessor whose OPEN could be awaited (DESIGN CHOICE, log entry 13). -/
def openHeld (s : State) (n : Nat) : Bool := n == 0 || s.rings.passed.contains (2 * n + 1) || (missing s n true).isEmpty

/-- The seal gate passes (R380): SENT(n) is held from every awaited device, or a budget of step n has expired, or TOKEN_WAIT has. -/
def sealGateOpen (s : State) : Bool :=
  (missing s s.seq.step false).isEmpty || s.rings.passed.contains (2 * s.seq.step) || s.seq.progs.any fun p => p.2.expired

/-! Remote requests (R306, R363, R370, R376, R378, R384). -/

/-- The message carries this request of this package. -/
def carries (s : State) (die tag : Nat) (f : RingFrame) : Bool :=
  f.srcDev == selfDev s && (f.tc == 2 || f.tc == 3) && f.flit.op != 0x08 && f.flit.src == die && f.flit.tag == tag

/-- A request leaves the egress store of every link die. -/
def dropFrame (s : State) (die tag : Nat) : State :=
  s.onRings fun g => { g with egress := mapVals (fun _ l => l.filter fun f => !carries s die tag f) g.egress }
/-- The request of this package that a message carries; a REG_WRITE of a stream has none (R259). -/
def reqOf (s : State) (f : RingFrame) : Option OutReq := if f.flit.op = 0x08 then none else findReq s f.flit.src f.flit.tag
/-- A request waits in an egress store. -/
def inEgress (s : State) (die tag : Nat) : Bool := s.rings.egress.any fun x => x.2.any (carries s die tag)

/-- The device a request to dev is sent to: its twin while it is ALIASED (R378). -/
def sentTo (s : State) (dev : Nat) : Nat := if (peerOf s dev).st = peerAliased then (peerOf s dev).target else dev

/-- The device is ABSENT or SILENT (R378). -/
def devGone (s : State) (dev : Nat) : Bool := countsAbsent s dev || (peerOf s dev).st == peerSilent

/-- Requests to a device end with LINK_LOST at once and are not sent (R378): it is ABSENT or SILENT, or no route reaches it. -/
def remoteGone (s : State) (dev : Nat) : Bool := devGone s dev || ringRoute s dev == rtUnreach

/-- A remote request ends with LINK_LOST (R376, R384): counted at its link die, and its requester's wait is over. -/
def loseRemote (s : State) (r : OutReq) (quarantine : Bool) : State :=
  let s := dropFrame (closeReq s r.die r.tag) r.die r.tag
  let s := if quarantine then s.onGz fun g => { g with quarantined := ins g.quarantined (r.die * 65536 + r.tag) } else s
  answered (bump s r.dst 0x10030) (reqWait r.die r.tag) stLinkLost false

/-- OPARG of an ATOMIC_ADD (R190). -/
def addOparg (m : AddMsg) : Nat :=
  twos 16 m.anchor + 2 ^ 16 * (m.count % 2 ^ 21) + 2 ^ 37 * b2n m.dense + 2 ^ 38 * b2n m.fwd + 2 ^ 40 * (m.table % 4096)
  + 2 ^ 52 * (m.stepTag % 256)

/-- An ATOMIC_ADD as a flit, its words as 64-bit codes. -/
def addFlit (m : AddMsg) : Flit :=
  { op := 0x03, tc := m.tc, dst := m.dst, src := m.src, panel := m.panel, tag := m.tag, da := m.da, oparg := addOparg m,
    payload := m.words.flatMap fun w => leBytes 8 (twos 64 w), via := m.via, beyond := m.beyond }

/-- The ATOMIC_ADD a flit carries. -/
def flitAdd (f : Flit) : AddMsg :=
  { dst := f.dst, src := f.src, tag := f.tag, panel := f.panel, tc := f.tc, da := f.da, anchor := signed 16 (bits f.oparg 15 0),
    count := bits f.oparg 36 16, dense := bit f.oparg 37, fwd := bit f.oparg 38, table := bits f.oparg 51 40,
    stepTag := bits f.oparg 59 52, via := f.via, beyond := f.beyond,
    words := (List.range (f.payload.length / 8)).map fun i => signed 64 (ofLe ((f.payload.drop (8 * i)).take 8)) }

/-- A flit addressed to the ALIASED twin, translated by the TWIN section's maps: its destination die, and the flit with the local DA and
PANEL, or the local Muslin die and region (R403); none where no map covers it, and for a multicast flit. -/
def mapFlit (s : State) (rDie : Nat) (f : Flit) : Option (Nat × Flit) :=
  if f.op = 0x03 then
    ((sect s 0x18).find? fun r => fld r 0 == 3 && fld r 1 + 18 == rDie && fld r 2 == bits f.da 47 40).map fun r =>
      (18 + fld r 3, { f with da := 2 ^ 40 * fld r 4 + f.da % 2 ^ 40 })
  else if f.op = 0x01 || (f.op = 0x02 && f.mgroup = 0) then
    ((sect s 0x18).find? fun r => fld r 0 == 2 && fld r 2 ≤ f.da && f.da < fld r 2 + fld r 4).map fun r =>
      let a := f.da - fld r 2 + fld r 3
      (dieOfAddr a, { f with da := a, panel := fld r 1 })
  else none

/-- A message sent into Gauze: an ATOMIC_ADD as one. -/
def sendOne (s : State) (f : Flit) : State := if f.op = 0x03 then sendAdd s (flitAdd f) else sendFlit s f

/-- A request to the twin that this package serves stays inside (R403). -/
def sendInside (s : State) (rDie : Nat) (f : Flit) : State :=
  match mapFlit s rDie f with
  | none => refuse s { f with dst := 0 } stMalformed
  | some (d, g) => sendOne s { g with dst := d }

/-! Frames on the ring (R363, R365, R366). In a store, a RingFrame stands for all the frames of its message; on the ring each flit has its own
(DESIGN CHOICE, log entry 33). -/

/-- Frames of a message. -/
def frameLen (f : RingFrame) : Nat := (wireFlits f.flit).length
/-- Frames of a class and virtual lane that a ring input holds (R366). -/
def ringCap (tc : Nat) : Nat := [128, 512, 512, 768, 128].getD tc 0
abbrev vlKey (tc vl : Nat) : Nat := 2 * tc + vl

/-- The 14-byte header of a FLIT frame (R363). -/
def frameHeader (f : RingFrame) : Nat :=
  packBits [(1, 0), (f.dstDev % 1024, 4), (f.srcDev % 1024, 14), (f.rDie % 64, 24), (f.vl % 2, 30), (f.tc % 8, 31), (f.rseq % 2 ^ 16, 34),
            (f.ret.rack % 2 ^ 16, 50), (f.ret.tc % 8, 66), (f.ret.vl % 2, 69), (f.ret.n % 256, 70), (f.crc % 2 ^ 32, 80)]
/-- The 270 bytes of a frame. -/
def frameBytes (f : RingFrame) : List Byte := leBytes 14 (frameHeader f) ++ flitBytes f.flit

/-- The hop out of a ring link die crosses the dateline (R366): the peer, or before one is known the next position, lies beyond it. -/
def crosses (s : State) (link : Nat) : Bool :=
  let dim := dimOfDie link
  let (p, x) := (rport s link, devPos s (selfDev s) dim)
  let y := if p.peerValid then devPos s p.peer dim else stepPos (ringLen s dim) x (link % 2 == 1)
  if link % 2 = 1 then decide (y ≤ x) else decide (x ≤ y)

/-- The virtual lane of a frame on the hop out of a link die: VL1 from the dateline on (R366). -/
def vlOut (s : State) (link : Nat) (f : RingFrame) : Nat := if isRing link && crosses s link then 1 else f.vl

def egressOf (s : State) (link : Nat) : List RingFrame := lookD s.rings.egress link []
def setEgress (s : State) (link : Nat) (l : List RingFrame) : State := s.onRings fun g => { g with egress := put g.egress link l }

/-- The port is up, its peer has granted credits for the frames, and its replay buffer of 2,048 takes them (R365, R366). -/
def mayLeave (s : State) (link : Nat) (f : RingFrame) : Bool :=
  let p := rport s link
  rportUp s link && look0 p.used (vlKey f.tc (vlOut s link f)) + frameLen f ≤ ringCap f.tc && p.kept.length + frameLen f ≤ 2048

/-- A message goes out, flit by flit, each in a frame with the next RSEQ, the RACK of what came in and its CRC; the replay buffer keeps them. -/
def transmit (s : State) (link : Nat) (f : RingFrame) : State :=
  setRPort s link fun p =>
    let vl := vlOut s link f
    let fs := ((List.range (frameLen f)).zip (wireFlits f.flit)).map fun x =>
      let g := { f with vl := vl, rseq := (p.rseq + x.1) % 2 ^ 16, flit := x.2, ret := { rack := p.rrecv }, crc := 0 }
      { g with crc := crc32c (frameBytes g) }
    { p with kept := p.kept ++ fs, rseq := (p.rseq + fs.length) % 2 ^ 16,
             used := put p.used (vlKey f.tc vl) (look0 p.used (vlKey f.tc vl) + fs.length) }

/-- A request of this package, which goes where its device is found when it leaves (R378). -/
def ownRequest (s : State) (link : Nat) (f : RingFrame) : Bool := isRing link && f.srcDev == selfDev s && (f.tc == 2 || f.tc == 3)

/-- A port that may come up again with the segment re-formed (R376, R378). -/
def reforming (s : State) (link : Nat) : Bool :=
  let st := (rport s link).st
  st == pDown || st == pTraining || st == pBypassed

/-- A message that waits at a link die, when its turn comes: a request whose device is gone ends, one whose route has changed is moved or
delivered inside, and the rest leave or wait, through a re-formation too (R369, R378). None where it waits. -/
def leave (s : State) (link : Nat) (f : RingFrame) : Option State :=
  let t := setEgress s link ((egressOf s link).erase f)
  if !(egressOf s link).contains f then some s
  else if isTwin link then (if mayLeave s link f then some (transmit t link f) else none)
  else if !(ownRequest s link f && devGone s f.dstDev) && reforming s link then none
  else if ownRequest s link f && remoteGone s f.dstDev then
    some (match reqOf s f with | some r => loseRemote t r false | none => t)
  else
    let g := if ownRequest s link f then { f with dstDev := sentTo s f.dstDev } else f
    match routeDie (ringRoute s f.dstDev) with
    | some l =>
      if l != link then some (setEgress t l (egressOf t l ++ [f]))
      else if mayLeave s link g then some (transmit t link g) else none
    | none => some (if ringRoute s f.dstDev != rtLocal then t
                    else if ownRequest s link f then sendInside t f.rDie f.flit
                    else setRPort t link fun p => { p with input := p.input ++ [f] })

/-- The messages of a link die leave in order within a class and lane; full lists those that must wait. -/
def pumpFrames (link : Nat) : List RingFrame → List Nat → State → State
  | [], _, s => s
  | f :: l, full, s =>
    let k := vlKey f.tc (vlOut s link f)
    if full.contains k then pumpFrames link l full s
    else match leave s link f with
      | some t => pumpFrames link l full t
      | none => pumpFrames link l (k :: full) s
def pumpLink (s : State) (link : Nat) : State := pumpFrames link (egressOf s link) [] s

/-- A message enters the store of a link die, and leaves it when its turn comes (R309, R366). -/
def sendFrame (s : State) (link : Nat) (f : RingFrame) : State := pumpLink (setEgress s link (egressOf s link ++ [f])) link

/-- A message of this package sent over a link die to a die of a device. -/
def sendRemote (s : State) (link dev rDie : Nat) (f : Flit) : State :=
  sendFrame s link { dstDev := dev, srcDev := selfDev s, rDie := rDie, vl := 0, tc := f.tc, rseq := 0, flit := f }

/-- The messages of other packages that a ring link die holds: its transit store of 4,096 frames (R366). -/
def transitUsed (s : State) (link : Nat) : Nat := (((egressOf s link).filter fun f => f.srcDev != selfDev s).map frameLen).sum
def egressUsed (s : State) (link : Nat) : Nat := (((egressOf s link).filter fun f => f.srcDev == selfDev s).map frameLen).sum

/-- An answer to a request that came over a ring or twin link (R370): it goes back over the ring under its original TAG, or over the
twin port it came by; where no route reaches its sender it is lost. -/
def sendBack (s : State) (link : Nat) (g : Ingress) (f : Flit) : State :=
  let f := { f with src := link, dst := g.srcDie, tag := g.srcTag }
  if isTwin link then sendRemote s link g.srcDev g.srcDie f
  else match routeDie (ringRoute s g.srcDev) with
    | some l => sendRemote s l g.srcDev g.srcDie f
    | none => s

/-- The ring request that an answer at a link die belongs to. -/
def ingressOf (s : State) (die tag : Nat) : Option Ingress := s.rings.ingress.find? fun g => g.die == die && g.tag == tag

/-- An answer that reaches an ingress link die: its tag table entry ends, and the answer goes back (R370). -/
def answerIngress (s : State) (g : Ingress) (f : Flit) : State :=
  sendBack (closeReq (s.onRings fun r => { r with ingress := r.ingress.erase g }) g.die g.tag) g.die g f

/-- The frames a port keeps are discarded (R376): the requests of this package end with LINK_LOST, those of others are answered so; the
port starts with all its credits (DESIGN CHOICE, log entry 33). -/
def discardKept (s : State) (link : Nat) : State :=
  let fs := (rport s link).kept
  let s := setRPort s link fun p => { p with kept := [], used := [] }
  fs.foldl (fun s f =>
    if (f.tc != 2 && f.tc != 3) || 1 < f.flit.kind then s
    else if f.srcDev = selfDev s then (match reqOf s f with | some r => loseRemote s r false | none => s)
    else sendBack (bump s link 0x10030) link { die := link, tag := 0, srcDev := f.srcDev, srcDie := f.flit.src, srcTag := f.flit.tag }
           { op := 0x06, tc := 0, dst := 0, src := link, panel := f.flit.panel, da := f.flit.da, status := stLinkLost }) s

/-! The twin port (R389, R397). -/

/-- The twin link die that carries MUk's traffic (R389): LT0 for MU0 to MU3, the other when it is down. -/
def twinDie (s : State) (k : Nat) : Nat :=
  let d := if k < 4 then 38 else 39
  if rportUp s d then d else 77 - d

/-- Pair states (R410). -/
abbrev tsUnpaired := 0
abbrev tsBase := 1
abbrev tsPaired := 2
abbrev tsOrphaned := 3
abbrev tsServing := 4
abbrev tsYielded := 5
abbrev tsReturning := 6

/-- The twin port is not UP on either twin link die: PAIRED and BASE become ORPHANED (R397). -/
def twinPortCheck (s : State) : State :=
  if (s.twin.st = tsPaired || s.twin.st = tsBase) && !twinUp s then s.onTwin fun t => { t with st := tsOrphaned } else s

/-! The checks of a ring operation (R378, R383). -/

/-- A request that ends with LINK_LOST before it is sent counts at the link die that its route names, if any (R384; DEDUCED, log entry 102). -/
def countLost (s : State) (dev : Nat) : State := match routeDie (ringRoute s dev) with | some d => bump s d 0x10030 | none => s

/-- The local range, and R248 for it. -/
def ringLocal (o : RingOp) (put_ : Bool) : Range := (if put_ then o.srcDa else o.dstDa, o.len)
def ringLocalBad (s : State) (h : Hdr) (o : RingOp) (put_ : Bool) : Option Nat :=
  if put_ then checkDa s h false [ringLocal o true] else checkOut s h [ringLocal o false]

/-- R383: the first check that refuses. -/
def ringRefusal (s : State) (h : Hdr) (o : RingOp) (put_ : Bool) : Option Nat :=
  if (devRec s o.dev).isNone || o.dev == selfDev s || o.len == 0 || o.len % 64 != 0 then some stMalformed
  else match ringLocalBad s h o put_ with
    | some st => some st
    | none => if remoteGone s o.dev then some stLinkLost else none

/-! Remote streams produced into (R259, R383). -/

/-- The chunk size of a remote stream, and the credits its consumer grants at first: neither is held in this package (DESIGN CHOICE, log entry
33). -/
def rcKey (dev stream : Nat) : Nat := dev * 16384 + stream
def rcChunk (dev stream : Nat) : Nat := 2 ^ (12 + Config.freeValue (2 ^ 76 + rcKey dev stream) % 9)
def rcFirst (dev stream : Nat) : Nat := Config.freeValue (2 ^ 77 + rcKey dev stream) % 8193
/-- The credits held, and the bytes sent. -/
def rcOf (s : State) (dev stream : Nat) : Nat × Nat := (look s.rings.rcred (rcKey dev stream)).getD (rcFirst dev stream, 0)

/-- Credit for the next n bytes of a remote stream: none while a chunk to be begun has no credit; else the table after them. -/
def takeRc (s : State) (dev stream n : Nat) : Option (FMap (Nat × Nat)) :=
  let (c, p) := rcOf s dev stream
  let need := ceilDiv (p + n) (rcChunk dev stream) - ceilDiv p (rcChunk dev stream)
  if c < need then none else some (put s.rings.rcred (rcKey dev stream) (c - need, p + n))

/-! The units descriptors name (R277). -/

/-- The unit a command is dispatched to: named by its CORE, ENGINE or MUSLIN field, the mover of an ST_REARM's consumer die, and
the queue manager or CMD control for the rest (R277). A ring operation's is the link die
that the route to DEV names (R383). -/
def targetUnit (s : State) : Instr → UnitId
  | .twMatmul _ op | .twDrain _ op => coreUnit op.core
  | .twMax _ op | .twMin _ op => coreUnit op.core
  | .muGather _ op | .muGradScatter _ op => engUnit op.engine
  | .muLedgerAdd _ op => engUnit op.engine
  | .muSeal _ k _ | .muMigrate _ k _ _ _ | .muRowRestore _ k _ _ _ _ => ledgerUnit k
  | .muOptDense _ op => optUnit op.muslin
  | .muOptClose _ k _ _ _ => optUnit k
  | .stRearm _ op => moverUnit (match streamRec s op.stream with | some r => consumerDie r | none => 0)
  | .stRelease _ _ c _ => if c < 96 then releaseUnit c else cmdUnit
  | .rgPut _ op | .rgGet _ op => match routeDie (ringRoute s op.dev) with | some d => ⟨d, 15⟩ | none => cmdUnit
  | _ => cmdUnit

end Sys2Proof.Machine
end

