-- ==== Sys2Proof/Machine/JournalOps.lean ====
section
/-!
DEFINITION. The journal between twins: what is sent (R391 to R393, R398), and how the twin's records are applied to the shadow (R395,
R396, R398, R405).
-/

namespace Sys2Proof.Machine

/-! The TWIN section (R394). -/

def twinSect (s : State) : List Rec := sect s 0x18
def twinHeader (s : State) : Option Rec := (twinSect s).find? fun r => fld r 0 == 0
def areaDa (s : State) : Nat := match twinHeader s with | some r => fld r 4 | none => 0
/-- The SHADOW record for a holding of the twin. -/
def shadowRec (s : State) (peerId : Nat) : Option Rec := (twinSect s).find? fun r => fld r 0 == 1 && fld r 1 == peerId

/-- Muslin dies that are fitted and not FAILED. -/
def musUp (s : State) : List Nat := (List.range 8).filter fun k => dieUp s (18 + k)

/-- The END bitmap of this package (R393). -/
def endBitmap (s : State) : Nat := (musUp s).foldl (fun n k => n + 2 ^ k) 0

/-! Sending. -/

abbrev jData := 0
abbrev jBase := 1
abbrev jEnd := 2
abbrev jBaseEnd := 3

/-- The bytes of a journal record (R393): its header and its payload, padded to 64 bytes. -/
def jrecBytes (kind : Nat) (r : JRec) : List Byte :=
  let clen := r.payload.length
  leBytes 8 (kind + 4 * b2n r.z + 8 * r.muslin + 2 ^ 16 * r.ulen + 2 ^ 32 * r.holding) ++ leBytes 8 r.step ++ leBytes 8 r.offset
  ++ leBytes 8 (r.jseq + 2 ^ 32 * clen) ++ r.payload ++ List.replicate (roundUp (32 + clen) 64 - 32 - clen) 0

/-- Bytes waiting in MUk's send log. -/
def sendLogBytes (s : State) (k : Nat) : Nat :=
  ((s.twin.sendLog.filter fun x => x.2.muslin == k).map fun x => (jrecBytes x.1 x.2).length).sum

/-- This package journals: it is in a pair whose twin keeps or receives its copy (DESIGN CHOICE, log entry 14). -/
def journals (s : State) : Bool := s.twin.st == tsBase || s.twin.st == tsPaired || s.twin.st == tsReturning

/-- A record of the send log that no open request carries: its twin link die sends it, as far as there is room (R305, R306, R392). -/
def sendRecord (s : State) (x : Nat × JRec) : State :=
  let d := twinDie s x.2.muslin
  let r : OutReq := { die := d, tag := newTag s d, dst := d, kind := rkJournal, resv := 1, flits := 1, remote := true, index := x.2.muslin,
                      landDa := x.2.jseq }
  if (s.gz.out.any fun y => y.kind == rkJournal && y.index == x.2.muslin && y.landDa == x.2.jseq) || !reqRoom s r then s
  else sendRemote (openReq s r) d ((mapTwin s (selfDev s)).getD 0) d
         { op := 0x02, tc := 3, dst := d, src := d, tag := r.tag, payload := jrecBytes x.1 x.2 }

/-- The send logs, sent in order while the twin port is up. -/
def pumpJournal (s : State) : State := if twinUp s then s.twin.sendLog.foldl sendRecord s else s

/-- A record appended to MUk's send log under the next JSEQ, and sent by the twin link die while the port is up. A full log makes the
writer wait: the cycles are a free value (R392). -/
def appendJournal (s : State) (kind k holding step offset : Nat) (data : List Byte) : State :=
  let cap := match twinHeader s with | some r => 2 ^ 20 * fld r 2 | none => 0
  let packed := Config.deflate data
  let z := packed.length < data.length
  let seq := look0 s.twin.sendSeq k
  let r : JRec := { muslin := k, z := z, ulen := ceilDiv data.length 64, holding := holding, step := step, offset := offset, jseq := seq,
                    payload := if z then packed else data }
  let s := if cap < sendLogBytes s k + (jrecBytes kind r).length then bumpBy s.took 0 0x80020 (fresh s % 2 ^ 32) else s
  let s := s.onTwin fun t => { t with sendLog := t.sendLog ++ [(kind, r)], sendSeq := put t.sendSeq k ((seq + 1) % 2 ^ 32) }
  pumpJournal s

/-- The journalled holding an address lies in (R391): SHARD, SIDE or DENSE, outside the working regions. -/
def journalHolding (s : State) (a : Nat) : Option Rec :=
  if (workingRegions s).any fun r => meets r (a, 1) then none
  else (holdings s).find? fun r => (fld r 1 == 0 || fld r 1 == 1 || fld r 1 == 5) && fld r 5 ≤ a && a < fld r 5 + fld r 6

/-- The HOLDING_ID a record carries: in RETURNING, the PEER_ID of the shadow range the holding carries, if any (R405). -/
def journalId (s : State) (r : Rec) : Option Nat :=
  if s.twin.st = tsReturning then ((twinSect s).find? fun x => fld x 0 == 1 && fld x 2 == fld r 0).map (fld · 1) else some (fld r 0)

/-- A write of bytes at their home or shard-map address, journalled by MUk as whole sectors (R391, R392). -/
def journalWrite (s : State) (k a step : Nat) (bs : List Byte) : State :=
  if !journals s || bs.isEmpty then s
  else match journalHolding s a with
    | none => s
    | some r =>
      match journalId s r with
      | none => s
      | some id =>
        let a0 := a / 64 * 64
        let n := roundUp (a + bs.length - a0) 64
        let data := readBytes s.mem a0 (a - a0) ++ bs ++ readBytes s.mem (a + bs.length) (a0 + n - (a + bs.length))
        appendJournal s jData k id step (a0 - fld r 5) data

/-- END(n) appended by MUk once it has released the bank of step n (R392). -/
def journalEnd (s : State) (k n : Nat) : State :=
  if journals s then appendJournal s jEnd k (endBitmap s) n 0 [] else s

/-- Bytes put over those of a range that starts at a. -/
def laidOver (a : Nat) (bs : List Byte) (p : Nat × List Byte) : List Byte :=
  ((List.range bs.length).zip bs).map fun x => if p.1 ≤ a + x.1 then (p.2[a + x.1 - p.1]?).getD x.2 else x.2

/-- n bytes of a journalled holding as the base copy reads them: a row that rests elsewhere stands at its shard-map place (R391, R398;
DEDUCED, log entry 102). -/
def baseBytes (s : State) (a n : Nat) : List Byte :=
  let moved := s.mu.dir.filterMap fun x =>
    let (t, row) := (x.1 / 2 ^ 31 % 4096, x.1 % 2 ^ 31)
    match shardPlace s t row, tableRec s t with
    | some (_, da), some tr =>
      if x.2.dest != da && meets (a, n) (da, rowBytes tr) then some (da, readBytes s.mem x.2.dest (rowBytes tr)) else none
    | _, _ => none
  moved.foldl (laidOver a) (readBytes s.mem a n)

/-- One range read for the base copy, in runs of at most 1,024 sectors, fuel runs (R398). -/
def baseRange (k id start : Nat) : Nat → Nat → Nat → State → State
  | 0, _, _, s => s
  | n + 1, a, left, s =>
    if left = 0 then s
    else
      let m := min left 65536
      baseRange k id start n (a + m) (left - m) (appendJournal s jBase k id (stepNow s) (a - start) (baseBytes s a m))

/-- What is left of ranges where one is taken out. -/
def without (l : List Range) (w : Range) : List Range :=
  l.flatMap fun r => if !meets r w then [r]
    else [(r.1, w.1 - r.1), (w.1 + w.2, r.1 + r.2 - (w.1 + w.2))].filter fun x => x.2 != 0

/-- The base copy of this package (R398, R405): every journalled sector, in ascending DA, then BASE_END from every die. It takes no
time in this model (DESIGN CHOICE, log entry 14). -/
def sendBase (s : State) : State :=
  let hs := (holdings s).filter fun r => fld r 1 == 0 || fld r 1 == 1 || fld r 1 == 5
  let s := hs.foldl (fun s r =>
    match journalId s r with
    | none => s
    | some id =>
      let k := ((muslinOfHome (fld r 5)).getD ((musUp s).headD 0))
      ((workingRegions s).foldl without [(fld r 5, fld r 6)]).foldl (fun s x => baseRange k id (fld r 5) (x.2 / 65536 + 1) x.1 x.2 s) s) s
  let s := (musUp s).foldl (fun s k => appendJournal s jBaseEnd k 0 0 0 []) s
  s.onTwin fun t => { t with baseLeft := 0 }

/-- The pair enters BASE or RETURNING: both copies start anew (R397, R398). -/
def enterBase (s : State) (st : Nat) (send : Bool) : State :=
  let s := s.onTwin fun t => { t with st := st, torn := false, converged := false, shadowSet := false, rxReady := false, txReady := false,
                                      baseEnds := [], log := [], logPos := 0, acked := [] }
  if send then sendBase s else s

/-- PAIRED once both directions are ready; CONVERGED in RETURNING (R397, R405). -/
def pairCheck (s : State) : State :=
  if s.twin.st = tsBase && s.twin.rxReady && s.twin.txReady then s.onTwin fun t => { t with st := tsPaired }
  else if s.twin.st = tsReturning && (s.twin.rxReady || s.twin.txReady) then s.onTwin fun t => { t with converged := true }
  else s

/-! Receiving. -/

/-- A record written into the receive log, a ring of LOG_MIB at the base of the twin area (R395); it begins at the base when the copies start
anew (DESIGN CHOICE, log entry 14). -/
def storeLog (s : State) (kind : Nat) (r : JRec) : State :=
  match twinHeader s with
  | none => s
  | some h =>
    let size := 2 ^ 20 * fld h 3
    if size = 0 then s
    else
      let bs := jrecBytes kind r
      let s0 := writeMem (writeMem s (fld h 4 + s.twin.logPos) (bs.take (size - s.twin.logPos))) (fld h 4) (bs.drop (size - s.twin.logPos))
      s0.onTwin fun t => { t with logPos := (s.twin.logPos + bs.length) % size }

/-- The twin of this device in the map in force. -/
def myTwin (s : State) : Nat := (mapTwin s (selfDev s)).getD 0

/-- The package serves its twin's shard: SERVING, or RETURNING it (R397; DEDUCED, log entry 35). -/
def serves (s : State) : Bool :=
  s.twin.st == tsServing || (s.twin.st == tsReturning && (peerOf s (myTwin s)).st == peerAliased && (peerOf s (myTwin s)).target == selfDev s)

/-- A record written to the shadow range of its holding, or to the holding itself on the package a shard returns to; one without a
range is counted (R395, R405). -/
def applyRecord (s : State) (r : JRec) : State :=
  let data := if r.z then Config.inflate r.payload else r.payload
  if s.twin.st = tsReturning && !serves s then
    match (holdings s).find? fun h => fld h 0 == r.holding with
    | some h => writeMem s (fld h 5 + r.offset) (data.take (fld h 6 - r.offset))
    | none => bump s 0 0x80028
  else match shadowRec s r.holding with
    | some x => writeMem s (areaDa s + fld x 3 + r.offset) (data.take (fld x 4 - r.offset))
    | none => bump s 0 0x80028

/-- A record put among others of its die in JSEQ order, counted from a first one modulo 2^32. -/
def insSeq (first : Nat) (r : JRec) : List JRec → List JRec
  | [] => [r]
  | x :: l => if (r.jseq + 2 ^ 32 - first) % 2 ^ 32 < (x.jseq + 2 ^ 32 - first) % 2 ^ 32 then r :: x :: l else x :: insSeq first r l

/-- The DATA records of a step, die by die, each die's in JSEQ order. -/
def stepRecords (s : State) (n : Nat) : List JRec :=
  (List.range 8).flatMap fun k =>
    let l := (s.twin.log.filter fun x => x.1 == jData && x.2.step == n && x.2.muslin == k).map (·.2)
    l.foldl (fun acc r => insSeq (match l.head? with | some x => x.jseq | none => 0) r acc) []

/-- END(n) is held from every die of its bitmap. -/
def endsHeld (s : State) (n : Nat) : Bool :=
  match s.twin.log.find? fun x => x.1 == jEnd && x.2.step == n with
  | none => false
  | some e => (List.range 8).all fun k => !bit e.2.holding k || s.twin.log.any fun x => x.1 == jEnd && x.2.step == n && x.2.muslin == k

/-- Step n applied to the shadow (R395, R396). During a base copy the shadow is the twin's only from the first END on that follows BASE_END from
every die (R398). -/
def applyShadowStep (s : State) (n : Nat) : State :=
  let dies := match s.twin.log.find? fun x => x.1 == jEnd && x.2.step == n with | some e => e.2.holding | none => 0
  let s := (stepRecords s n).foldl applyRecord s
  let based := s.twin.st = tsBase || s.twin.st = tsReturning
  let whole := (List.range 8).all fun k => !bit dies k || s.twin.baseEnds.contains k
  let s := s.onTwin fun t => { t with log := t.log.filter (fun x => x.2.step != n), torn := t.torn && t.tornStep != n }
  if based && !whole then s
  else
    let s := s.onTwin fun t => { t with shadowStep := n, shadowSet := true }
    if based then pairCheck (s.onTwin fun t => { t with rxReady := true }) else s

/-- Every step whose END is complete applied, in the order the log holds them, fuel steps. -/
def applyReady (s : State) : Nat → State
  | 0 => s
  | n + 1 =>
    match ((s.twin.log.filter fun x => x.1 == jEnd).map (·.2.step)).find? (endsHeld s) with
    | none => s
    | some k => applyReady (applyShadowStep s k) n

/-- Bytes in the receive log. -/
def logBytes (s : State) : Nat := (s.twin.log.map fun x => (jrecBytes x.1 x.2).length).sum

/-- A log that fills without a complete step: the oldest open step's records are applied as they stand, and the shadow is TORN
(R396) (DEDUCED, log entry 73). -/
def relieveLog (s : State) : State :=
  let cap := match twinHeader s with | some r => 2 ^ 20 * fld r 3 | none => 0
  if logBytes s ≤ cap then s
  else match s.twin.log.find? fun x => x.1 == jData with
    | none => s
    | some x =>
      let n := x.2.step
      let s := (stepRecords s n).foldl applyRecord s
      s.onTwin fun t => { t with log := t.log.filter (fun y => !(y.1 == jData && y.2.step == n)), torn := true, tornStep := n }

/-- A record received (R395): written into the log, and applied with its step, or in a base copy applied at once (R398), and what it makes ready. -/
def receiveJournal (s : State) (kind : Nat) (r : JRec) : State :=
  if s.twin.st = tsUnpaired || s.twin.st = tsServing || s.twin.st = tsYielded then s
  else
    let s := storeLog s kind r
    let based := s.twin.st = tsBase || s.twin.st = tsReturning
    if kind = jBaseEnd then s.onTwin fun t => { t with baseEnds := ins t.baseEnds r.muslin }
    else if based && kind != jEnd then applyRecord s r
    else
      let s := s.onTwin fun t => { t with log := t.log ++ [(kind, r)] }
      relieveLog (applyReady s (s.twin.log.length + 1))

end Sys2Proof.Machine
end

