-- ==== Sys2Proof/Machine/SecOps.lean ====
section
/-!
DEFINITION. Security operations: the Almanac (R455 to R457), Cartouches (R440, R441), the trailer checks of critical commands (R298 to
R301), and firmware update and restore (R450 to R454).
-/

namespace Sys2Proof.Machine

/-! The Almanac (R455, R456). -/

/-- IDs of R456. -/
abbrev almOwner := 0x0001
abbrev almLocks := 0x0002
abbrev almFwFloor := 0x0003
abbrev almImgFloor := 0x0004
abbrev almKeyCtr := 0x0005
abbrev almAgreeCtr := 0x0006
abbrev almMigration := 0x00FF

/-- Owner-settable record IDs. -/
def ownerSettable (id : Nat) : Bool := (0x0010 ≤ id && id ≤ 0x0015) || (0x0020 ≤ id && id ≤ 0x0022)

/-- What tells current records apart: (ID, VERSION), and KEY_NUM for KEY_CTR. -/
def almSame (a b : AlmRec) : Bool :=
  a.id == b.id && a.version == b.version && (a.id != almKeyCtr || a.data.take 4 == b.data.take 4)

/-- A record appended: it is the current one of its kind. The records it supersedes are dropped, as compaction does (DESIGN CHOICE, log entry 77). -/
def appendAlm (s : State) (id version : Nat) (data : List Byte) : State :=
  s.onSec fun c =>
    let r : AlmRec := { id := id, version := version, data := data, wseq := (c.wseq + 1) % 2 ^ 32 }
    { c with wseq := (c.wseq + 1) % 2 ^ 32, almanac := c.almanac.filter (fun x => !almSame x r) ++ [r] }

/-- The current record of an ID in a VERSION. -/
def almGet (s : State) (id version : Nat) : Option (List Byte) :=
  (s.sec.almanac.find? fun r => r.id == id && r.version == version).map (·.data)

/-- The VERSION of an owner-settable record that a firmware VERSION uses: its migration table is not printed (DESIGN CHOICE, log entry 15). -/
def fwUses (fw id : Nat) : Nat := 1 + Config.freeValue (2 ^ 67 + fw * 65536 + id) % 255

/-- An owner-settable record as the running firmware reads it; a record only in a VERSION it does not know is absent (R457). -/
def almRead (s : State) (id : Nat) : Option (List Byte) := almGet s id (fwUses s.sec.fwVersion id)

/-- The owner public key, if one is installed (R439). -/
def ownerKey (s : State) : Option (List Byte) := almGet s almOwner 1
/-- A number a Selvage record holds, or its default 0. -/
def almNum (s : State) (id : Nat) : Nat := match almGet s id 1 with | some d => ofLe d | none => 0
/-- The owner lock (R447). -/
def ownerLock (s : State) : Bool := almNum s almLocks % 2 == 1
/-- The firmware floor and the image floor. -/
def fwFloor (s : State) : Nat := almNum s almFwFloor
def imgFloor (s : State) : Nat := almNum s almImgFloor
/-- The last accepted AGREE_CTR. -/
def agreeCtr (s : State) : Nat := almNum s almAgreeCtr

/-! Keys the device holds (R435 to R439; DESIGN CHOICE, log entry 10). -/

def rootPublic : List Byte := Config.deviceKey 0
def identityPublic : List Byte := Config.deviceKey 1
def identitySecret : List Byte := Config.deviceKey 2
def agreementPublic : List Byte := Config.deviceKey 3
def agreementSecret : List Byte := Config.deviceKey 4
/-- BODY_HASH of the Skewick image in boot flash. -/
def skewickHash : List Byte := Config.deviceKey 5
/-- The manifest's signature (R438). -/
def manifestSignature : List Byte := Config.deviceKey 6

/-- The first n bytes of a list, padded with zero. -/
def padTo (n : Nat) (l : List Byte) : List Byte := l.take n ++ List.replicate (n - l.length) 0

/-! Cartouches (R440, R441). -/

def cartField (c : List Byte) (off n : Nat) : Nat := ofLe ((c.drop off).take n)
def cartVersion (c : List Byte) : Nat := cartField c 0x08 4
def cartRaise (c : List Byte) : Bool := bit (cartField c 0x00 8) 56
def cartHash (c : List Byte) : List Byte := (c.drop 0x20).take 32

/-- A Cartouche of a KIND with its body verifies (R441). -/
def cartVerifies (s : State) (kind : Nat) (all : List Byte) : Bool :=
  let c := all.take 0x4000
  let body := all.drop 0x4000
  let w := cartField c 0 8
  let dev := (c.drop 0x10).take 16
  let msg := c.take 0x80
  let sig := (c.drop 0x80).take (0x3FE0 - 0x80)
  bits w 31 0 == 0x54524143 && bits w 39 32 == 1 && bits w 47 40 == kind && bits w 49 48 == (if kind = 3 then 1 else 0)
  && (if kind = 3 then (match ownerKey s with | some k => Config.slhVerify k msg sig | none => false)
      else Config.slhVerify rootPublic msg sig)
  && (dev == List.replicate 16 0 || dev == s.sec.deviceId)
  && cartField c 0x0C 4 + 0x4000 == all.length && Config.sha256 body == cartHash c

/-! Critical commands (R298 to R301). -/

/-- The slot and key with an active KEY_NUM. -/
def keyOf (s : State) (num : Nat) : Option (Nat × Key) :=
  s.sec.keys.find? fun p => p.2.active && p.2.num == num

/-- COUNTER accepted for a key: written into the Almanac first (R300, R301). -/
def acceptCounter (s : State) (slot : Nat) (k : Key) (ctr : Nat) : State :=
  let s := appendAlm s almKeyCtr 1 (leBytes 4 k.num ++ leBytes 8 ctr)
  s.onSec fun c => { c with keys := put c.keys slot { k with last := ctr, exhausted := ctr == 2 ^ 64 - 1 } }

/-- A critical command at the security engine: the checks of R299, then its body. -/
def critical (s : State) (h : Hdr) (t : Trailer) (body : State → State) : State :=
  runDesc s h fun s =>
    match keyOf s t.keyNum with
    | none => complete s h cmdUnit stAuth
    | some (slot, k) =>
      if t.tag != (Config.hmac k.secret t.message).take 16 then complete s h cmdUnit stAuth
      else if k.exhausted || t.counter ≤ k.last then complete s h cmdUnit stReplay
      else body (acceptCounter s slot k t.counter)

/-! Firmware (R448 to R454). -/

abbrev fwCommitted := 0
abbrev fwWriting := 1
abbrev fwTrial := 2
abbrev fwRestoring := 3
abbrev fwFallback := 4
abbrev fwNone := 5

abbrev fwBlock := 0x40000

/-- Blocks of 256 KiB in which two firmware regions differ. -/
def fwDiffer (old new : List Byte) : Nat :=
  ((List.range (ceilDiv (max old.length new.length) fwBlock)).filter fun i =>
    (old.drop (i * fwBlock)).take fwBlock != (new.drop (i * fwBlock)).take fwBlock).length

/-- The restored region is checked against the journal header's BODY_HASH: FALLBACK, or source FLASH and NO_FIRMWARE; migrated
records go back to the VERSION the restored firmware uses (R454, R457). -/
def restoreFw (s : State) (ok : Bool) : State :=
  match s.sec.fwJournal with
  | none => s
  | some old =>
    let v := s.sec.fwPrev
    let s := s.onSec fun c =>
      { c with fwImage := old, fwJournal := none, fwBlocks := 0, fwPaused := false, fwHdr := none,
               fwState := if ok then fwFallback else fwNone, fwVersion := if ok then v else 0,
               almanac := c.almanac.filter fun r =>
                 r.id != almMigration && (!c.migrated.contains r.id || r.version == fwUses v r.id),
               migrated := [] }
    if ok then s else setSticky s srcFlash

/-- The records of owner-settable IDs that a new firmware VERSION builds from older ones (R457): the table that builds them is not
printed, so their data are free (DESIGN CHOICE, log entry 15). -/
def migrateAlm (s : State) : State :=
  if (almGet s almMigration 1).isSome then s
  else
    let v := s.sec.fwVersion
    let old := s.sec.almanac.filter fun r => ownerSettable r.id && r.version < fwUses v r.id &&
      (s.sec.almanac.all fun x => x.id != r.id || x.version ≤ r.version)
    let s := old.foldl (fun s r =>
      appendAlm s r.id (fwUses v r.id) (leBytes r.data.length (Config.freeValue (2 ^ 80 * (1 + ofLe r.data) + v * 65536 + r.id)))) s
    let s := s.onSec fun c => { c with migrated := insAll [] (old.map (·.id)) }
    appendAlm s almMigration 1 (leBytes 4 s.sec.fwPrev ++ leBytes 4 v)

/-- A confirmed trial (R453, R457). -/
def confirmFw (s : State) : State :=
  let s := s.onSec fun c =>
    { c with confirmed := true, fwState := fwCommitted, fwJournal := none, fwBlocks := 0,
             almanac := c.almanac.filter (fun r => !c.migrated.contains r.id || r.version == fwUses c.fwVersion r.id),
             migrated := [] }
  if s.sec.fwRaise then appendAlm s almFwFloor 1 (leBytes 4 s.sec.fwVersion) else s

/-- A warm reset is due for a cause (R477); WARM_RESET carries it out. -/
def requestWarm (s : State) (cause : Nat) : State := s.onSv fun v => { v with warmReqs := ins v.warmReqs cause }

end Sys2Proof.Machine
end

