-- ==== Sys2Proof/Machine/RegOps.lean ====
section
/-!
DEFINITION. What a write does to a register with a behaviour of its own, written once for every way in: the command of its name, a
REG_WRITE, a host access, a core's store, an INLINE_WRITE.
-/

namespace Sys2Proof.Machine

/-! Queue manager (R279, R281, R289). -/

/-- The CMD command-fault source with CM.DB_BAD_CNT. -/
def badDoorbell (s : State) : State := setSticky (bump s 0 0x20050) srcCommand

/-- A doorbell (R278, R279): GEN is the generation of the last posted entry, so TAIL 0 names the end of that lap (DEDUCED, log entry 68).
One that names the current tail has no effect. -/
def ringDoorbell (s : State) (q v : Nat) : State :=
  let tail := bits v 15 0
  let gen := bits v 31 16
  let next := if tail = 0 then nextGen gen else gen
  match queueRec s q with
  | none => badDoorbell s
  | some r =>
    let size := queueSize r
    let u := queueOf s q
    let head := posNum size u.head u.headGen
    let at_ := posDiff size head (posNum size tail next)
    if u.st = qDisabled || size ≤ tail || gen = 0 || size < at_ || at_ < posDiff size head (posNum size u.tail u.tailGen) then
      badDoorbell s
    else if at_ = posDiff size head (posNum size u.tail u.tailGen) then s
    else setQueue s q fun u => { u with tail := tail, tailGen := next, shownGen := gen }

/-- CM.QCTL (R281), for the queue CM.QSEL names. -/
def writeQctl (s : State) (v : Nat) : State :=
  let q := regGet s 0 0x20000
  if bit v 0 && (queueOf s q).st == qHalted then setQueue s q fun u => { u with st := qActive, rereads := 0, retry := false, resume := true } else s

/-- The ring that CM.RSEL names (R302). -/
def selRing (s : State) : Nat := if regGet s 0 0x20030 = ring0Shown s then ring0 else regGet s 0 0x20030

/-- CM.RHEAD (R289), for the ring CM.RSEL names: the records up to the new head are consumed. -/
def writeRhead (s : State) (v : Nat) : State :=
  let n := selRing s
  match ringRec s n with
  | none => s
  | some r =>
    let size := ringSize r
    let g := ringOf s n
    let h := bits v 15 0
    let go := (h + size - g.head % size) % size
    if size ≤ h || g.tail < g.head + go then bump s 0 0x20050 else setRing s n fun g => { g with head := g.head + go }

/-! A load under way (R333 steps 4 and 5, R382). -/

/-- Descriptors that the load does not wait for: itself, runs and their stops, and IMAGE_LOADs that wait their turn. -/
def loadExempt (x : Staged) (d : Disp) : Bool :=
  sameDesc d.hdr x.hdr || (match d.cmd with
    | .sqRun _ _ | .sqStop _ => true
    | .imageLoad _ _ _ => !d.started
    | _ => false)

/-- Steps 4 and 5 are done: between steps, every bank released, nothing dispatched or in flight, no row in migration, and SENT of the
last step held from every awaited device. -/
def quiesced (s : State) (x : Staged) : Bool :=
  (s.seq.run.isNone || s.seq.phase == 0) && s.mu.unreleased.isEmpty && s.qm.disp.all (loadExempt x) && s.qm.cpls.isEmpty
  && s.qm.queues.all (fun q => q.1 == 0 || q.2.fetched.isEmpty) && s.gz.flits.isEmpty && s.gz.adds.isEmpty
  && s.mu.dir.all (fun e => e.2.st == .resident) && (stepNow s == 0 || (missing s (stepNow s - 1) false).isEmpty)

/-- A load stands at its step 10: past its checks, its package quiet, its commit point still to come (DEDUCED, log entry 18). -/
def atStepTen (s : State) : Bool := match s.img.staged with | some x => quiesced s x | none => false

/-- A load is in progress, and the engines of a die are quiesced. -/
def dieQuiesced (s : State) (d : Nat) : Bool :=
  match s.img.staged with | some x => s.qm.disp.all fun y => y.unit.die != d || loadExempt x y | none => false

/-! Gauze (R39, R45, R320). -/

/-- GZ.CTL (R39). -/
def writeGzCtl (s : State) (d v : Nat) : State :=
  if bit v 0 then s.onGz fun g => { g with active := put g.active d (1 - look0 g.active d) } else s

/-- The depths a value of GZ.TC_CREDIT carries. -/
def depthsOf (v : Nat) : List Nat := (List.range 5).map fun t => bits v (8 * t + 7) (8 * t)

/-- GZ.TC_CREDIT (R45): accepted from CMD firmware at step 10 of a load, to take effect with the bank swap; until then the register reads the
depths in force (DESIGN CHOICE, log entry 84). -/
def writeTcCredit (s : State) (d : Nat) (a : Agent) (v : Nat) : State :=
  if a = .mMode && atStepTen s && (depthsOf v).sum ≤ 160 then
    (List.range 5).foldl (fun s t => s.onGz fun g => { g with newDepths := put g.newDepths (d * 8 + t) ((depthsOf v).getD t 0) }) s
  else s

/-- The receivers that GZ.MC_SEL names on a source die: of its group, on the receiver's die (R317). A local and a remote receiver may bear one
number: the local one comes first (DESIGN CHOICE, log entry 85). -/
def selMembers (s : State) (d : Nat) : List Rec :=
  let sel := regGet s d 0x1058
  (mcMembers s).filter fun m => fld m 0 == bits sel 11 0 && fld m 3 == bits sel 21 16 && fld m 2 == d

/-- The position at which a receiver rejoins: the first 64 KiB boundary at or above the next one to send (R320). -/
def joinAt (s : State) (m : Rec) : Nat := roundUp (look0 s.gz.mcPos (fld m 0)) 65536

/-- A receiver as it rejoins at J. Of a remote one the source counts only what follows: its gap is fetched from there (R385). -/
def rejoined (m : Rec) (j : Nat) (r : McRecv) : McRecv :=
  let r := { r with attached := true, join := j, discarded := false, resume := false }
  if fld m 6 = 0 then r else { r with held := j, above := [] }

/-- The stream of a remote receiver goes on at J. -/
def jumpRemote (s : State) (m : Rec) (j : Nat) : State :=
  if fld m 6 = 0 then s
  else
    let k := rcKey (fld m 6 - 1) (fld m 5)
    s.onRings fun g => { g with rcred := put g.rcred k ((rcOf s (fld m 6 - 1) (fld m 5)).1, j), filled := put g.filled k (j, []) }

/-- GZ.MC_CTL on a source die (R320): the first detached receiver that GZ.MC_SEL names is attached, its report slot reserved anew (R319). -/
def writeMcCtl (s : State) (d v : Nat) : State :=
  match (selMembers s d).find? fun m => !(mcRecvOf s m).attached with
  | none => s
  | some m =>
    if bit v 0 then
      reserveSlot (jumpRemote (setRecv s m (rejoined m (joinAt s m))) m (joinAt s m)) (fld m 4)
    else s

/-! Clocks and Datum (R55, R58, R60, R63). -/

/-- n requests discarded (R60, R63): past its maximum DROP_CNT sticks there, with one Sounding of KIND 0x01 (R430). -/
def dropRequests (s : State) (n : Nat) : State :=
  let was := s.ck.dropCnt
  let s := s.onCk fun c => { c with dropCnt := min (was + n) (2 ^ 48) }
  if 2 ^ 48 ≤ was + n && was < 2 ^ 48 then emitSounding s 0 63 1 [regBase + 0x4030, 0] else s

/-- One request for a Datum (R60). -/
def requestDatum (s : State) : State :=
  if s.ck.pending < 16 then s.onCk fun c => { c with pending := c.pending + 1 } else dropRequests s 1

/-- Descriptors armed at the units of a die. -/
def armedOn (s : State) (d : Nat) : List Disp := s.qm.disp.filter fun x => x.armed && !x.started && x.unit.die == d

/-- Every armed descriptor of a die completes with DEADLINE and is counted (R63, R71). -/
def expireArmed (s : State) (d : Nat) : State :=
  (armedOn s d).foldl (fun s x => endEarly (countExpiry s x.unit) x stDeadline) s

/-- A die meets the edge of a driven Datum n (R58, R63). -/
def sampleDatum (s : State) (bad : Bool) (n d : Nat) : State :=
  if !dieUp s d || !s.ck.grid.contains d || s.ck.err.contains d then s
  else
    let c := (look0 s.ck.count d + 1) % 2 ^ 32
    if bad || bit n 1 != bit c 1 then
      expireArmed (setSticky (s.onCk fun k => { k with err := ins k.err d }) (srcClock d)) d
    else
      (s.onCk fun k => { k with count := put k.count d c }).onQm fun q =>
        { q with disp := q.disp.map fun x => if x.armed && x.unit.die == d && x.hdr.datum == c then { x with armed := false } else x }

/-- The dies that sample the fan-out: every die but SV. -/
def datumDies : List Nat := allDies.filter (· != 1)

/-- The edge on which the dies sample a driven Datum. -/
def datumSampled (s : State) (bad : List Nat) (n : Nat) : State :=
  datumDies.foldl (fun s d => sampleDatum s (bad.contains d) n d) (s.onCk fun c => { c with driven := none })

/-- Armed descriptors on a die whose ERR is set complete with DEADLINE. -/
def expireErred (s : State) : State := s.ck.err.foldl expireArmed s

/-- A resynchronisation, in the order of R63. -/
def resyncDatum (s : State) : State :=
  let s := (dropRequests s s.ck.pending).onCk fun c => { c with pending := 0 }
  let s := match s.ck.driven with | some n => expireErred (datumSampled s [] n) | none => s
  let s := datumDies.foldl expireArmed s
  s.onCk fun c => { c with count := [], err := [], sent := 0 }

/-- CK.DATUM_CTL (R60, R63): a FIRE written with RESYNC is queued after it. -/
def writeDatumCtl (s : State) (v : Nat) : State :=
  let s := if bit v 1 then resyncDatum s else s
  if bit v 0 then requestDatum s else s

/-- CK.PLAN (R55): accepted from CMD firmware while a load is in progress and the die's engines are quiesced. ACLK_DIV exists on compute dies,
SCLK_DIV on Muslin dies; the reserved ACLK_DIV 3 is stored as written (DESIGN CHOICE, log entry 84). -/
def writePlan (s : State) (d : Nat) (a : Agent) (v : Nat) : State :=
  if a = .mMode && dieQuiesced s d then
    s.onCk fun c => { c with plan := put c.plan d (if isTw d then bits v 1 0 else if isMu d then 16 * bits v 4 4 else 0) }
  else s

/-! Muslin (R217). -/

/-- MU.DIR_CTL: a lookup writes DIR_DATA0 and DIR_DATA1. -/
def writeDirCtl (s : State) (d v : Nat) : State :=
  let s := regSet s d 0x11080 (bits v 11 0 + 2 ^ 16 * bits v 46 16)
  if !bit v 63 then s
  else
    let k := d - 18
    let (t, row) := (bits v 11 0, bits v 46 16)
    let used := (dirEntries s k).length
    match dirOf s k t row with
    | none =>
      let da := match shardPlace s t row with | some (_, da) => da | none => 0
      regSet (regSet s d 0x11088 (2 ^ 8 * (ledgerOf k da % 8) + 2 ^ 16 * used)) d 0x11090 da
    | some e =>
      let st := match e.st with | .resident => 0 | .draining => 1 | .moving => 2 | .forwarding => 3
      regSet (regSet s d 0x11088 (st + 4 + 8 * b2n e.poisoned + 16 * b2n e.pendingF + 32 * b2n e.paged
        + 2 ^ 8 * e.ledgerDie + 2 ^ 16 * used)) d 0x11090 e.dest

/-! Counters (R430). -/

/-- The selector a counter's instances are shown through (R217, R268). -/
def ctrSel (s : State) (d off : Nat) : Nat :=
  if isMu d && (off == 0x110A0 || off == 0x110A8) then regGet s d 0x11098
  else if d = 0 && off == 0x30010 then regGet s 0 0x30000 % 64
  else 0

/-- Writing zero clears a counter and its SAT bit; any other value is discarded (R430). -/
def writeCounter (s : State) (d off v : Nat) : State :=
  if v = 0 then s.onRegs fun m => del m (regKey d off (ctrSel s d off)) else s

/-! Selvage (R421, R433, R453). -/

/-- One recovery counted (R421, R430): past its maximum the counter sticks there, sets SAT and writes one Sounding of KIND 0x01. -/
def countRecovery (s : State) : State :=
  if s.sv.recovery < 2 ^ 32 - 1 then s.onSv fun v => { v with recovery := v.recovery + 1 }
  else
    let was := s.sv.recoverySat
    let s := s.onSv fun v => { v with recovery := 2 ^ 32 - 1, recoverySat := true }
    if was then s else emitSounding s 1 63 1 [regBase + 2 ^ 32 + 0x10030, 0]

/-- Sticky bits cleared by a request (R421): leaving the fault state counts one recovery. -/
def clearSticky (s : State) (l : List Nat) : State :=
  if s.sv.locked || s.sv.sticky.isEmpty then s
  else
    let rest := s.sv.sticky.filter fun i => !l.contains i
    let s := s.onSv fun v => { v with sticky := rest }
    if rest.isEmpty then countRecovery (s.onSv fun v => { v with quiet := 0 }) else s

/-- CM.FAULT_CLEAR(i). -/
def writeFaultClear (s : State) (i v : Nat) : State :=
  clearSticky s (((List.range 64).filter (bit v)).map (· + 64 * i))

/-- CM.FW_CONFIRM (R453). -/
def writeFwConfirm (s : State) (a : Agent) (v : Nat) : State :=
  if a = .mMode && bit v 0 && 3 ≤ s.sec.fwSteps && s.sec.fwState == fwTrial && s.sec.trial < 120000000000 then confirmFw s else s

/-- SV.INJECT from the test access port in factory mode (R433); from anywhere else it is discarded (R413) (DEDUCED, log entry 75). -/
def writeInject (s : State) (v : Nat) : State :=
  if !s.sv.factory then s
  else
    let (src, die, kind) := (bits v 7 0, bits v 13 8, bits v 18 16)
    let s := s.onSv fun x => { x with inject := src + 2 ^ 8 * die + 2 ^ 16 * kind }
    if !bit v 63 then s
    else match kind with
      | 0 => setSticky (if srcExists src then setSticky s src else s) srcInject
      | 2 => s.onTw fun t => { t with cbFlip := ins t.cbFlip die }
      | 1 => s.onMu fun m => { m with corrupt := ins m.corrupt die }
      | 3 => s.onSv fun x => { x with armedInj := x.armedInj ++ [(3, die)] }
      | 4 => s.onSv fun x => { x with suppress := ins x.suppress die }
      | _ => s

/-! Resets (R477, R485). -/

/-- A core back in service (R485 step 2): its buffer zeroed, tiles zeroed, anchors 0, STALE cleared, tag invalid, lanes reseeded. The
slots of a shadow pool in its buffer are invalid. -/
def restartCore (s : State) (g : Nat) : State :=
  let pooled := match recBy s 0x12 0 (2 + g / 4) with | some r => fld r 1 == g % 4 | none => false
  let s := if pooled then s.onMu fun m => { m with slotValid := m.slotValid.filter fun k => k / 65536 != 2 + g / 4 } else s
  let s := (List.range 8).foldl (fun s t => zeroTile s g t) s
  s.onTw fun w =>
    { w with cb := keep (fun k _ => k / 2 ^ 26 != g) w.cb, cbErr := keep (fun k _ => k / 2 ^ 23 != g) w.cbErr,
             tiles := keep (fun k _ => k / 8 != g) w.tiles, cores := del w.cores g,
             gens := keep (fun k _ => k / 1024 != g) w.gens }

/-- The per-panel reset of a FAULTED panel (R485). A core on a FAILED die stays FAULTED and holds nothing back. -/
def resetPanel (s : State) (p : Nat) : State :=
  let s := ((panelCores s p).filter fun g => dieUp s (2 + g / 4)).foldl (fun s g => restartCore (liftFence s (coreUnit g)) g) s
  let s := (panelQueues s p).foldl (fun s q =>
    setQueue (match cringOf s q with | some n => if (queueOf s q).retry then releaseSlot s n else s | none => s) q fun _ => freshQueue) s
  let s := ((sect s 0x13).filter fun r => fld r 1 == p).foldl (fun s r => setStrm s (fld r 0) fun x =>
    { x with st := sIdle, fill := 0, rel := 0, wpos := 0, seg := 0, segPos := 0, cur := none, abort := 0, reported := false,
             credits := fullCredits r }) s
  -- the panel counted as closed for every step sealed and not released (R239)
  let s := s.onMu fun m => { m with closed := insAll m.closed (m.unreleased.map fun e => e.1 * 64 + p) }
  ((mcMembers s).filter fun m => fld m 1 == p).foldl (fun s m =>
    s.onGz fun g => { g with mcRecv := del g.mcRecv (mcKey m), mcPos := del g.mcPos (fld m 0), mcWin := del g.mcWin (fld m 0) }) s

/-- CM.PANEL_RST: RESULT is 3 where the panel is not FAULTED, else 1 until PER_PANEL_RESET has run. -/
def writePanelRst (s : State) (v : Nat) : State :=
  let p := bits v 5 0
  let old := regGet s 0 0xC0000
  if !bit v 8 then regSet s 0 0xC0000 (p + old / 2 ^ 16 * 2 ^ 16)
  else if panelFaulted s p then
    regSet (s.onSv fun x => { x with panelReqs := ins x.panelReqs p }) 0 0xC0000 (p + 2 ^ 16)
  else regSet s 0 0xC0000 (p + 3 * 2 ^ 16)

/-- CM.WARM_REQ, from cores 0 to 7 in M-mode alone (R486). -/
def writeWarmReq (s : State) (a : Agent) (v : Nat) : State := if a = .mMode && bit v 0 then requestWarm s 12 else s

/-! Host link (R353, R355), rings (R379), snapshots (R409), Contour (R463). -/

/-- The mailbox answers (R353 step 3): DONE, and MSI-X vector 0. -/
def mboxDone (s : State) (lo hi : Nat) : State :=
  (s.onHost fun h => { h with busy := false, done := true, lo := lo, hi := hi, mboxIdx := none }).onQm fun q =>
    { q with msix := q.msix ++ [0] }

/-- The descriptor in HL.MBOX_DATA. -/
def mboxBytes (s : State) : List Byte := (List.range 32).flatMap fun i => leBytes 8 (regGet s 0 (0x50100 + 8 * i))

/-- Firmware takes the mailbox's descriptor (R353 step 2): posted on queue 0 unchanged but for SEAL, or answered MALFORMED, the rest of
that result being a free value. While queue 0 has no free entry, nothing happens yet (DESIGN CHOICE, log entry 8) (DESIGN CHOICE, log entry 57). -/
def postMbox (s : State) : State :=
  let bs := mboxBytes s
  let op := (bs.headD 0).toNat
  if !(0x10 ≤ op && op ≤ 0x1F) && op != 0x39 then
    mboxDone s.took (fresh s % 2 ^ 56 * 256 + stMalformed) (Config.freeValue (2 ^ 71 + s.free) % 2 ^ 64)
  else match queueRec s 0 with
    | none => s
    | some r =>
      let size := queueSize r
      let u := queueOf s 0
      if posDiff size (posNum size u.head u.headGen) (posNum size u.tail u.tailGen) = size then s
      else
        let s := writeMem s (entryDa r u.tail) (bs.take 0x3E ++ leBytes 2 u.tailGen ++ bs.drop 0x40)
        let nx := nextPos size (u.tail, u.tailGen)
        let s := setQueue s 0 fun u => { u with tail := nx.1, tailGen := nx.2, shownGen := u.tailGen }
        s.onHost fun h => { h with busy := true, mboxIdx := some (u.tail, u.tailGen) }

/-- HL.MBOX_CTL: DONE is cleared by a 1; a GO while BUSY is discarded and counted. -/
def startMbox (s : State) (v : Nat) : State :=
  let s := if bit v 2 then s.onHost fun h => { h with done := false } else s
  if !bit v 0 then s else if s.host.busy then bump s 0 0x50010 else postMbox s

/-- HL.HSTREAM_FILL: whole chunks within the credits held become visible; the rest are discarded and counted. -/
def writeHstreamFill (s : State) (v : Nat) : State :=
  let n := regGet s 0 0x50040
  match streamRec s n with
  | none => bumpBy s 0 0x50010 (bits v 15 0)
  | some r =>
    let x := strmOf s n
    if fld r 2 != 2 || x.st = sAborted then bumpBy s 0 0x50010 (bits v 15 0)
    else
      let c := min (bits v 15 0) x.credits
      let s := setStrm s n fun x => { x with fill := (x.fill + c * chunkBytes r) % 2 ^ 64, wpos := (x.fill + c * chunkBytes r) % 2 ^ 64,
                                             credits := x.credits - c, st := if c = 0 then x.st else sRun }
      bumpBy (showFull s n r (x.credits == c)) 0 0x50010 (bits v 15 0 - c)

/-- One token of 16 bytes as R379 lays it out, which gives a TOPO's originator no place of its own: the device it is about (DESIGN
CHOICE, log entry 13). -/
def tokenOf (lo hi : Nat) : Token :=
  { kind := bits lo 1 0, dev := bits lo 11 2, aux := bits lo 25 16, orig := bits lo 11 2, step := bits hi 39 0 }

/-- RG.TOKEN_IN takes a token as two 8-byte writes: the first is held at the register until the second. -/
def writeTokenIn (s : State) (d v : Nat) : State :=
  match look s.regs (regKey d 0x10048) with
  | none => regSet s d 0x10048 v
  | some lo => applyToken (s.onRegs fun m => del m (regKey d 0x10048)) (tokenOf lo v)

/-- Bytes written into a ring of a given size at a place counted from its first lap. -/
def ringWrite (s : State) (da size at_ : Nat) : List Byte → State
  | [] => s
  | b :: bs => ringWrite (writeMem s (da + at_ % size) [b]) da size (at_ + 1) bs

/-- A snapshot still waits for its destination: an optimizer's writes may have waited too, for a free count of CCLK (R407; DESIGN CHOICE, log
entry 36). -/
def snapStall (s : State) : State := if s.mu.unreleased.isEmpty then s else bumpBy s.took 0 0x80040 (fresh s % 2 ^ 32)

/-- A snapshot into a ring the host drains writes what fits behind TA.SNAP_HOST_REL, and ends once all is written (R409). -/
def pumpSnap (s : State) : State :=
  match s.snap with
  | none => s
  | some x =>
    if x.op.dest != 1 then s
    else
      let used := (x.written + 2 ^ 40 - regGet s 0 0x80038) % 2 ^ 40
      let n := min x.toWrite.length (x.op.dstLen - used)
      let s0 := s
      let s := ringWrite s x.op.dstDa x.op.dstLen x.written (x.toWrite.take n)
      let y := { x with written := x.written + n, toWrite := x.toWrite.drop n }
      if y.toWrite.isEmpty then finish s0 (s.onSnap fun _ => none) x.hdr cmdUnit x.status else snapStall (s.onSnap fun _ => some y)

/-- TA.SNAP_HOST_REL. -/
def writeHostRel (s : State) (v : Nat) : State := pumpSnap (regSet s 0 0x80038 (v % 2 ^ 40))

/-- CT.CTL (R463): discarded in full when SETPOINT or SLEW is out of range. A new SETPOINT in HOLD, and entering SLEW or HOLD,
starts a ramp from the average (R467). -/
def writeCtCtl (s : State) (v : Nat) : State :=
  let (mode, sp, slew, ms) := (bits v 1 0, bits v 15 4, bits v 25 16, bits v 41 32)
  if 1000 ≤ sp && sp ≤ s.sv.pcap && 1 ≤ slew && slew ≤ 1000 then
    s.onCt fun c => { c with mode := mode, setpoint := sp, slew := slew, soundMs := ms,
                             target := if (mode = 2 && sp != c.setpoint) || (mode != 0 && c.mode != mode) then 1000 * c.pAvg else c.target }
  else s

end Sys2Proof.Machine
end

