-- ==== Sys2Proof/Machine/Regs.lean ====
section
/-!
DEFINITION. The register space (R10 to R15, R26, R506 to R517): what each register reads as, and what a write of it does. Offsets are
from the die's block base.
-/

namespace Sys2Proof.Machine

/-! Counter registers: COUNT and SAT as stored (R430). -/

/-- Offsets rise by 8 from lo to hi. -/
def inRun (off lo hi : Nat) : Bool := lo ≤ off && off ≤ hi && off % 8 == 0

/-- The counters of a die, SV's own apart. -/
def isCounter (d off : Nat) : Bool :=
  inRun off 0x1028 0x1048 || inRun off 0x1070 0x1080 || (d != 1 && inRun off 0x4018 0x4028)
  || (d = 0 && (inRun off 0x20050 0x20070 || off == 0x200C8 || off == 0x30010 || inRun off 0x31018 0x31020 || off == 0x40020
      || inRun off 0x50010 0x50018 || ((List.range 4).any fun p => inRun off (0x60010 + 0x100 * p) (0x60018 + 0x100 * p))
      || inRun off 0x70030 0x70038 || inRun off 0x80020 0x80028 || off == 0x80040 || off == 0xB0010))
  || (isTw d && ((0x10000 ≤ off && off < 0x14000 && (let o := off % 0x1000
        inRun o 0x10 0x30 || inRun o 0x80 0xB8 || inRun o 0xC0 0xD0)) || off == 0x19020))
  || (isMu d && (inRun off 0x10020 0x10098 || inRun off 0x100A0 0x100B8 || inRun off 0x100C8 0x100D0 || inRun off 0x11010 0x11070
      || inRun off 0x110A0 0x110A8 || inRun off 0x12008 0x12028 || inRun off 0x13018 0x13028 || inRun off 0x13040 0x13048
      || off == 0x13070))
  || (isSt d && inRun off 0x10008 0x10010)
  || ((isRing d || isTwin d) && inRun off 0x10008 0x10038)

/-! Registers that hold what is written (RW without a behaviour): the mask of their writable bits. -/

/-- The writable bits of a plain register, or none. -/
def plainMask (d off : Nat) : Option Nat :=
  if off = 0x1008 then some 0x73F
  else if off = 0x1058 then some 0x3F0FFF
  else if d = 0 then
    if off = 0x20000 then some 0x7FFF
    else if off = 0x20030 then some 0xFFF
    else if off = 0x30000 then some 0x33F
    else if off = 0x40010 then some 0xFF
    else if off = 0x50008 then some (0x3F + 2 ^ 25 * (2 ^ 23 - 1))
    else if off = 0x50040 then some 0x3FFF
    else if inRun off 0x50100 0x501F8 then some (2 ^ 64 - 1)
    else if off = 0x70008 then some 0x3FF
    else none
  else if isMu d then
    if off = 0x11098 then some 0x3FFF else if off = 0x13008 then some 0x3F else if off = 0x13050 then some 0x3FFF else none
  else if isTw d then (if off = 0x19000 then some 0x3FFF else none)
  else none

/-! The Legend (R46 to R49). -/

def bitsOf (l : List Nat) : Nat := l.foldl (fun n i => n + 2 ^ i) 0
/-- A link's port at either end is in a state. -/
def linkIn (s : State) (st d p : Nat) (e : Nat) : Bool :=
  portState s d p == st || (match portTo e d with | some q => portState s e q == st | none => false)
/-- Links in a state, each counted once. -/
def linksIn (s : State) (st : Nat) : Nat :=
  (allDies.flatMap fun d => (List.range 8).filter fun p =>
    match linkPeer d p with | some e => d < e && linkIn s st d p e | none => false).length
def portStates (s : State) (d : Nat) : Nat := ((List.range 8).map fun p => portState s d p * 16 ^ p).sum
def portPeers (s : State) (d : Nat) : Nat :=
  ((List.range 8).map fun p =>
    (match linkPeer d p with | some e => if fitted s.pkg.variant d && fitted s.pkg.variant e then e else 63 | none => 63) * 64 ^ p).sum
/-- Usable Home in GiB: 48 a trained stack, less the firmware area's 1. -/
def homeGib (s : State) : Nat :=
  ((List.range 16).filter (stackUp s)).length * 48 - b2n (stackUp s 15)
def variantCode : Variant → Nat
  | .a => 0
  | .b => 1
  | .c => 2

/-- SILICON_REV of a die: each implementation decides (DESIGN CHOICE, log entry 45). -/
def siliconRev (d : Nat) : Nat := Config.freeValue (2 ^ 73 + d) % 256

/-- The 8 bytes of the Legend at an offset. The entry of an ABSENT die shows the ROLE and UNITS of its number (DESIGN CHOICE, log entry 84). -/
def legendWord (s : State) (off : Nat) : Nat :=
  let v := s.pkg.variant
  let head := 1 + 2 ^ 8 * variantCode v + 2 ^ 10 * b2n s.pkg.legendValid + 2 ^ 32 * s.pkg.legendGen
  if off = 0 then head
  else if !s.pkg.legendValid then 0
  else if off = 0x08 then bitsOf (allDies.filter (fitted v))
  else if off = 0x10 then bitsOf (allDies.filter fun d => fitted v d && !dieUp s d)
  else if off = 0x18 then
    homeGib s + 2 ^ 16 * ((List.range (stashGib v)).filter fun n => dieUp s (26 + n)).length
      + 2 ^ 32 * ((List.range 4).map (farGib s)).sum
  else if off = 0x20 then
    4 * ((allDies.filter isTw).filter (dieUp s)).length + 2 ^ 8 * (4 * ((allDies.filter isMu).filter (dieUp s)).length)
      + 2 ^ 16 * b2n s.pkg.pairId + 2 ^ 17 * b2n (twinCapable s)
  else if off = 0x28 then linksIn s 4 + 2 ^ 16 * linksIn s 5
  else if 0x40 ≤ off && off < 0x540 then
    let d := (off - 0x40) / 0x20
    match (off - 0x40) % 0x20 with
    | 0x00 =>
      d + 2 ^ 8 * roleOf d + 2 ^ 12 * (if !fitted v d then 0 else if dieUp s d then 1 else 2)
        + 2 ^ 16 * (if isTw d || isMu d then 4 else 0) + 2 ^ 24 * (if dieUp s d then siliconRev d else 0)
    | 0x08 => portStates s d
    | 0x10 => portPeers s d
    | 0x18 =>
      (if isMu d then b2n (s.pkg.stackFailed.contains (2 * (d - 18))) + 2 * b2n (s.pkg.stackFailed.contains (2 * (d - 18) + 1)) else 0)
        + 2 ^ 8 * (if (isRing d || isTwin d) && rportUp s d then (rport s d).lanes else 0)
    | _ => 0
  else if 0x540 ≤ off && off < 0x5C0 then
    let p := lookD s.pkg.far ((off - 0x540) / 0x20) {}
    match (off - 0x540) % 0x20 with
    | 0x00 => p.link + 2 ^ 8 * p.expanders
    | 0x08 => p.gib
    | _ => 0
  else 0

/-! Views of registers that show state held elsewhere. -/

/-- Rings in use by a selected ring. -/
def ringView (s : State) (off : Nat) : Nat :=
  let n := selRing s
  match ringRec s n with
  | none => if off = 0x20048 then 2 ^ 16 else 0
  | some r =>
    let g := ringOf s n
    if off = 0x20038 then fld r 4 + 2 ^ 48 * fld r 1 + 2 ^ 56 * fld r 2
    else if off = 0x20040 then g.head % ringSize r
    else g.tail % ringSize r + 2 ^ 16 * ringPhase r g + 2 ^ 17 * (g.resv % 2 ^ 16)

/-- The selected queue's registers (R302). -/
def queueView (s : State) (off : Nat) : Nat :=
  let q := regGet s 0 0x20000
  match queueRec s q with
  | none => 0
  | some r =>
    let u := queueOf s q
    if off = 0x20008 then fld r 1 + 2 ^ 6 * fld r 2 + 2 ^ 8 * fld r 3 + 2 ^ 10 * fld r 4 + 2 ^ 16 * (if q = 0 then ring0Shown s else fld r 5)
    else if off = 0x20010 then fld r 6
    else if off = 0x20018 then u.st + 2 ^ 16 * u.head + 2 ^ 32 * u.headGen
    else if off = 0x20028 then b2n u.resume
    else u.tail + 2 ^ 16 * u.shownGen

/-- A stream's end on a die: the consumer's, or the producer's. -/
def strmEnd (r : Rec) (d : Nat) : Bool :=
  consumerDie r == d || (fld r 2 == 1 && isMu d)

/-- The stream registers of a die, for the stream its selector names. -/
def strmView (s : State) (d sel i : Nat) : Nat :=
  match streamRec s sel with
  | none => if i = 0 then 7 else 0
  | some r =>
    let x := strmOf s sel
    if !strmEnd r d then (if i = 0 then 7 else 0)
    else if i = 0 then x.st + 2 ^ 8 * (x.seg % 256) + 2 ^ 16 * fld r 3
    else if i = 1 then x.fill else x.rel

/-- CMD's registers (R513). -/
def readCmd (s : State) (off : Nat) : Nat :=
  if 0x100000 ≤ off then 0
  else if inRun off 0x20008 0x20028 then queueView s off
  else if inRun off 0x20038 0x20048 then ringView s off
  else if inRun off 0x20080 0x20098 then
    let k := lookD s.sec.keys (off % 0x20 / 8) {}
    k.num + 2 ^ 32 * b2n k.active + 2 ^ 33 * b2n k.exhausted
  else if inRun off 0x200A0 0x200B8 then (lookD s.sec.keys (off % 0x20 / 8) {}).last
  else if off = 0x200C0 then staged s % 2 ^ 14
  else if off = 0x30008 then
    let sel := regGet s 0 0x30000
    let (p, t) := (bits sel 5 0, bits sel 9 8)
    look0 s.img.quotas (p * 4 + t) + 2 ^ 32 * (placedBytes s p t / 2 ^ 20)
  else if off = 0x30018 then look0 s.img.farParts (bits (regGet s 0 0x30000) 5 0)
  else if off = 0x31000 then
    (if s.img.staged.isSome then 3 else if s.img.inForce.isSome then 1 else 0) + 2 ^ 8
      + 2 ^ 32 * (match s.img.inForce with | some i => i.serial | none => 0)
  else if off = 0x31008 then s.img.reason + 2 ^ 8 * s.img.section_ + 2 ^ 16 * s.img.record
  else if off = 0x31010 then imgFloor s
  else if off = 0x40000 then s.seq.st + 2 ^ 8 * stepNow s
  else if off = 0x40008 then s.seq.left
  else if off = 0x40018 then
    let p := lookD s.seq.progs (regGet s 0 0x40010) {}
    p.st + 2 ^ 8 * p.pc + 2 ^ 40 * b2n p.expired
  else if off = 0x50000 then s.host.link + 4 * b2n s.host.hdm
  else if off = 0x50020 then 2 * b2n s.host.busy + 4 * b2n s.host.done
  else if off = 0x50028 then s.host.lo
  else if off = 0x50030 then s.host.hi
  else if off = 0x50048 then (strmOf s (regGet s 0 0x50040)).credits % 2 ^ 16
  else if 0x60000 ≤ off && off < 0x60400 then
    let p := off % 0x10000 / 0x100
    let f := lookD s.pkg.far p {}
    match off % 0x100 with
    | 0x00 => f.link + 4 * f.rate
    | 0x08 => regGet s 0 off 25000000
    | _ => 0
  else if off = 0x70000 then selfDev s + 2 ^ 10 * devPos s (selfDev s) 0 + 2 ^ 15 * devPos s (selfDev s) 1 + regGet s 0 0x70000
  else if off = 0x70010 then
    let d := regGet s 0 0x70008
    let p := peerOf s d
    p.st + 2 ^ 8 * p.target + 2 ^ 20 * ringRoute s d
  else if off = 0x70018 then ((peerOf s (regGet s 0 0x70008)).sent.getD 0)
  else if off = 0x70020 then ((peerOf s (regGet s 0 0x70008)).opened.getD 0)
  else if off = 0x70028 then
    if s.seq.phase = 1 && s.seq.progs.all (fun p => p.2.st == 2) && !sealGateOpen s then
      1 + 2 ^ 16 * (missing s (stepNow s) false).length
    else if s.seq.run.isSome && s.seq.phase = 0 && !openHeld s (stepNow s) then 2 + 2 ^ 16 * (missing s (stepNow s) true).length
    else 0
  else if off = 0x80000 then
    s.twin.st + 8 * b2n s.twin.torn + 16 * b2n s.twin.converged + 2 ^ 8 * ((mapTwin s (selfDev s)).getD 0)
  else if off = 0x80008 then s.twin.shadowStep
  else if off = 0x80010 then s.twin.takeover
  else if off = 0x80018 then s.twin.baseLeft
  else if off = 0x80030 then (match s.snap with | some x => 1 + 2 ^ 8 * x.step | none => 0)
  else if off = 0x80038 then regGet s 0 off
  else if off = 0xA0008 then s.sec.fwSteps
  else if off = 0xB0000 then s.ct.mode + 2 ^ 4 * s.ct.setpoint + 2 ^ 16 * s.ct.slew + 2 ^ 32 * s.ct.soundMs
  else if off = 0xB0008 then
    s.ct.pAvg % 2 ^ 16 + 2 ^ 16 * (s.ct.duty % 16) + 2 ^ 20 * b2n s.ct.underF + 2 ^ 21 * b2n s.ct.overF
      + 2 ^ 24 * (s.tw.cores.filter fun c => c.2.ballast != 0).length + 2 ^ 32 * (s.ct.target / 1000 % 2 ^ 16)
  else if off = 0xC0000 then regGet s 0 off
  else 0

/-- SV's registers (R517). Times are free values (DESIGN CHOICE, log entry 2). -/
def readSv (s : State) (off : Nat) : Nat :=
  let v := s.sv
  let c := s.sec
  if inRun off 0x10000 0x10018 then
    bitsOf ((v.sticky.filter fun i => i / 64 == off % 0x10000 / 8).map (· % 64))
  else match off with
    | 0x10020 => b2n (!v.sticky.isEmpty) + 2 * b2n v.locked
        + 2 ^ 32 * (if v.sticky.isEmpty || v.locked then v.quiet else fresh s % v.quietPeriod)
    | 0x10028 => v.quietPeriod
    | 0x10030 => v.recovery + 2 ^ 63 * b2n v.recoverySat
    | 0x10038 => bitsOf v.fence
    | 0x10040 => bitsOf v.fenceCore
    | 0x10048 => bitsOf v.fenceEng + 2 ^ 32 * bitsOf v.fenceOpt + 2 ^ 40 * bitsOf v.fenceMuMover + 2 ^ 48 * bitsOf v.fenceTwMover
    | 0x10050 => v.reclaimSt + (match v.reclaim with | some r => 2 ^ 4 * r.party.die + 2 ^ 10 * r.party.unit + 2 ^ 16 * r.kind | none => 0)
    | 0x10058 => regGet s 1 off
    | 0x10060 => regGet s 1 off
    | 0x10068 => b2n v.factory
    | 0x10070 => v.inject
    | 0x11000 => v.bootStage + 2 ^ 8 * v.bootReason + 2 ^ 16 * variantCode s.pkg.variant + 2 ^ 18 * b2n s.pkg.pairId
    | 0x11008 => ofLe (c.deviceId.take 8)
    | 0x11010 => ofLe ((c.deviceId.drop 8).take 8)
    | 0x11018 => c.fwState + 2 ^ 8 * c.fwReason + 2 ^ 16 * c.fwBlocks + 2 ^ 32 * c.fwVersion
    | 0x11020 => b2n c.confirmed + 2 ^ 24 * (if c.fwState = fwTrial then fresh s % 120000000000 else c.trial)
    | 0x11028 => fwFloor s
    | 0x11030 => b2n (ownerKey s).isSome + 2 * b2n (ownerLock s) + 4 * b2n c.debug
    | 0x11038 => ofLe ((match ownerKey s with | some k => Config.sha256 k | none => []).take 8)
    | 0x11040 => ofLe (((match ownerKey s with | some k => Config.sha256 k | none => []).drop 8).take 8)
    | 0x11048 => ofLe (((match ownerKey s with | some k => Config.sha256 k | none => []).drop 16).take 8)
    | 0x11050 => ofLe (((match ownerKey s with | some k => Config.sha256 k | none => []).drop 24).take 8)
    | 0x11058 => agreeCtr s
    | 0x11060 => (c.almanac.map fun r => r.data.length + 12).sum / 1024 % 2 ^ 16 + 2 ^ 16 * (Config.freeValue (2 ^ 69 + c.wseq) % 2 ^ 32)
    | 0x12000 => v.pcap + 2 ^ 16 * v.pSv + 2 ^ 32 * b2n v.emergency
    | 0x12008 => v.tThrottle + 2 ^ 8 * b2n (v.temps.any fun x => 400 ≤ x.2) + 2 ^ 10 * bitsOf v.throttled
    | 0x12010 => b2n v.holdupOk + 2 ^ 16 * v.energy
    | 0x12018 => regGet s 1 off
    | 0x13000 => v.cause + 2 ^ 4 * b2n v.drained + 2 ^ 8 * v.dirLost + 2 ^ 16 * v.phase
    | 0x13008 => regGet s 1 off
    | 0x14000 => 0x30 + b2n s.pkg.pairId + 2 ^ 8 * s.i3c.dyn + 2 ^ 15 * b2n s.i3c.dynValid + 2 ^ 16 * b2n s.i3c.ibiEn + 2 ^ 20 * s.i3c.lastIbi
    | _ => 0

/-- TW.CORE_STATUS.STATE. A core both FAULTED and FENCED shows one of them; the spec does not say which: a free value. -/
def coreState (s : State) (g : Nat) : Nat :=
  let c := coreOf s g
  if c.faulted && c.fenced then 3 + fresh s % 2
  else if c.faulted then 3
  else if c.fenced then 4
  else if s.qm.disp.any (fun d => d.unit == coreUnit g && !d.armed) then 1
  else if c.ballast != 0 then 2
  else 0

/-- A tile is in flight (R148): a TW_MATMUL or TW_DRAIN dispatched and not completed names it, armed or not. -/
def tileBusy (s : State) (g t : Nat) : Bool :=
  s.qm.disp.any fun d => (match d.cmd with
    | .twMatmul _ o => o.core == g && (namedTiles o).contains t
    | .twDrain _ o => o.core == g && (namedTiles o).contains t
    | _ => false)

/-- The panel of a core runs under R241. -/
def coreCompat (s : State) (g : Nat) : Bool :=
  match panelOfCore s g with
  | some p => (match panelRec s p with | some r => fld r 1 == 1 | none => false)
  | none => false

/-- A core's registers (R131, R152, R242). -/
def readCore (s : State) (g off : Nat) : Nat :=
  let c := coreOf s g
  if off = 0 then (match panelOfCore s g with | some p => p + 64 | none => 0) + 2 ^ 8 * g
  else if off = 0x08 then coreState s g + 8 * b2n c.arr + 16 * b2n c.shadowFull + 32 * b2n c.tagValid
  else if inRun off 0x40 0x78 then
    let t := (off - 0x40) / 8
    let x := tileOf s g t
    twos 16 x.anchor + 2 ^ 16 * (if tileBusy s g t then 1 else if x.stale then 2 else 0) + 2 ^ 18 * b2n x.laneOvf + 2 ^ 19 * b2n x.folded
  else if off = 0xE0 then
    b2n (drawFixed s || coreCompat s g) + 2 * b2n (coreCompat s g)
  else 0

/-- SLOT_BYTES of a shadow pool: the largest RB among the panel's tables with SHADOW = 1 (R180). -/
def slotBytes (s : State) (g : Nat) : Nat :=
  ((sect s 0x10).filter fun r => fld r 4 == 1 && panelOfCore s g == some (tPanel r)).foldl (fun n r => max n (rowBytes r)) 0

/-- The SHADOW record of a compute die. -/
def shadowPool (s : State) (d : Nat) : Option Rec := recBy s 0x12 0 d

/-- A byte of a core's debug window (R151). -/
def debugByte (s : State) (g o : Nat) : Nat :=
  let fold := bit o 25
  let b := o % 16
  let (a, t, r, n) := (bits o 24 23, bits o 22 20, bits o 19 12, bits o 11 4)
  let l := laneOf s g t a r n
  if fold then
    if b < 6 then l.fSig / 2 ^ (8 * b) % 256
    else if b < 8 then twos 16 l.fExp / 2 ^ (8 * (b - 6)) % 256
    else if b = 8 then b2n l.fNeg else 0
  else if b < 12 then twos 96 l.l / 2 ^ (8 * b) % 256
  else if b < 15 then look0 s.tw.terms (rowKey g t a r) / 2 ^ (8 * (b - 12)) % 256
  else b2n l.ovf + 2 * b2n l.nan + 4 * b2n l.pinf + 8 * b2n l.ninf

/-- A compute die's registers (R514). -/
def readTw (s : State) (d off : Nat) : Nat :=
  let n := d - 2
  if 0x10000 ≤ off && off < 0x14000 then readCore s (4 * n + off % 0x10000 / 0x1000) (off % 0x1000)
  else if off = 0x18000 then
    (match shadowPool s d with | some r => fld r 3 + 2 ^ 32 * fld r 1 + 2 ^ 40 | none => 0)
  else if off = 0x18008 then
    (match shadowPool s d with | some r => fld r 2 + 2 ^ 16 * slotBytes s (4 * n + fld r 1) | none => 0)
  else if inRun off 0x19008 0x19018 then strmView s d (regGet s d 0x19000) ((off % 0x1000 - 8) / 8)
  else if 0x1000000 ≤ off && off < 0x11000000 && s.sec.debug then
    let g := 4 * n + (off - 0x1000000) / 0x4000000
    ((List.range 8).map fun i => debugByte s g ((off - 0x1000000) % 0x4000000 + i) * 256 ^ i).sum
  else 0

/-- The MUSLIN record of a die. -/
def muslinRec (s : State) (k : Nat) : Option Rec := recBy s 0x0F 2 k

/-- The commands an engine runs: 1 a gather, 2 gradients. -/
def engineState (s : State) (e : Nat) : Nat :=
  if s.sv.fenceEng.contains e then 3
  else match s.qm.disp.find? fun d => d.unit == engUnit e && !d.armed with
    | some d => (match d.cmd with | .muGather _ _ => 1 | _ => 2)
    | none => 0

/-- What an optimizer unit runs: 1 a dense tensor, 2 rows. -/
def optState (s : State) (k : Nat) : Nat :=
  match s.qm.disp.find? fun d => d.unit == optUnit k && d.started with
  | some d => (match d.cmd with | .muOptDense _ _ => 1 | _ => 2)
  | none => 0

/-- Coalescer entries in use on an engine: those of a gather that waits. -/
def coalUsed (s : State) (e : Nat) : Nat :=
  match s.qm.disp.find? fun d => d.unit == engUnit e && (look s.mu.gatherPos (descKey d.hdr)).isSome with
  | some d => (lookD s.mu.gatherPos (descKey d.hdr) {}).coal.length
  | none => 0

/-- A Muslin die's registers (R515). -/
def readMu (s : State) (d off : Nat) : Nat :=
  let k := d - 18
  if inRun off 0x10000 0x10018 then
    let e := 4 * k + off % 0x10000 / 8
    engineState s e + 4 * coalUsed s e
  else if off = 0x100C0 then
    (s.mu.shadows.filter fun x => x.2.valid && (!x.2.inval || x.2.awaited.contains d)).length % 2 ^ 14
      + 2 ^ 16 * (s.mu.shadows.filter fun x => x.2.valid && (match shardPlace s (x.1 / 2 ^ 31) (x.1 % 2 ^ 31) with
          | some (o, _) => o == k | none => false)).length
  else if off = 0x11000 then openStep s k % 2 ^ 40 + 2 ^ 40 * b2n (look s.mu.sealWait k).isSome
  else if off = 0x11008 then
    (s.mu.entries.filter fun e => e.1 / 2 ^ 43 == k * 2 + openStep s k % 2).length
      + 2 ^ 24 * (s.mu.pend.filter fun e => e.1 / 2 ^ 43 == k).length
  else if off = 0x11078 then poisonRows s k
  else if inRun off 0x11080 0x11090 then regGet s d off
  else if off = 0x110B0 then look0 s.mu.loadPrev k
  else if off = 0x12000 then optState s k + 2 ^ 8 * look0 s.mu.closedStep k
  else if off = 0x12030 then b2n (drawFixed s)
  else if off = 0x13000 then
    (match muslinRec s k with | some r => fld r 3 + 16 * fld r 4 + 256 * fld r 5 | none => 0x24A)
  else if off = 0x13010 then
    let p := regGet s d 0x13008
    look0 s.img.parts (p * 16 + k * 2) + 16 * look0 s.img.parts (p * 16 + k * 2 + 1)
  else if off = 0x13030 then look0 s.mu.scrubPos (d * 2) + 2 ^ 32 * look0 s.mu.scrubPos (d * 2 + 1)
  else if off = 0x13038 then look0 s.mu.scrubPass d
  else if inRun off 0x13058 0x13068 then strmView s d (regGet s d 0x13050) ((off % 0x1000 - 0x58) / 8)
  else if off = 0x14000 then fwdFlits s d + 2 ^ 32 * look0 s.gz.fwdHigh d
  else 0

/-- The KR or C2M mode of a link die's port (R361, R367, R388). -/
def portMode (s : State) (d : Nat) : Nat :=
  if isTwin d then (match twinHeader s with | some r => fld r 1 | none => 0)
  else match devRec s (selfDev s) with | some r => fld r (6 + dimOfDie d) | none => 0

/-- A link die's registers (R387, R516). -/
def readRg (s : State) (d off : Nat) : Nat :=
  let p := rport s d
  if off = 0x10000 then
    p.st + 8 * portMode s d + 16 * p.lanes + (if p.peerValid then 2 ^ 16 * p.peer + 2 ^ 26 else 0)
  else if off = 0x10040 then
    egressUsed s d + 2 ^ 16 * transitUsed s d + 2 ^ 32 * (s.rings.ingress.filter fun g => g.die == d).length
  else 0

/-- The registers every die holds (R512). -/
def readCommon (s : State) (d off : Nat) : Nat :=
  if off = 0 then d + 2 ^ 8 * roleOf d + 2 ^ 12 * indexOf d + 2 ^ 16 * (siliconRev d)
  else if off = 0x1000 then 2 * look0 s.gz.active d
  else if off = 0x1010 then
    let sel := regGet s d 0x1008
    routeEntry s d (1 - activeBank s d) (bits sel 10 8) (bits sel 5 0)
  else if off = 0x1018 then ((List.range 5).map fun t => depthOf s d t * 256 ^ t).sum
  else if off = 0x1020 then portStates s d
  else if off = 0x1050 then
    (s.gz.out.filter fun r => r.die == d).foldl (fun n r => n + r.resv) 0 + 2 ^ 16 * outFlits s d (fun _ => true)
      + 2 ^ 32 * outFlits s d (·.far) + 2 ^ 48 * outFlits s d (·.remote)
  else if off = 0x1060 then
    match selMembers s d with
    | m :: _ => (if (mcRecvOf s m).attached then 1 else 2) + 2 ^ 16 * (mcRecvOf s m).acked
    | [] => 0
  else if d = 1 then 0
  else if off = 0x4000 then look0 s.ck.plan d
  else if off = 0x4008 then b2n (s.ck.locked.contains d) + 2 * b2n (s.ck.grid.contains d)
  else if off = 0x4010 then look0 s.ck.count d + 2 ^ 32 * b2n (s.ck.err.contains d)
  else if off = 0x4030 && d = 0 then 2 ^ 8 * s.ck.pending + 2 ^ 16 * min s.ck.dropCnt (2 ^ 48 - 1)
  else 0

/-! Reads. -/

/-- A Survey counter shown for a shard that its die does not own (R203). -/
def notOwned (s : State) (d off : Nat) : Bool :=
  isMu d && (off == 0x110A0 || off == 0x110A8) && (match (sect s 0x11)[ctrSel s d off]? with | some r => fld r 2 != d - 18 | none => true)

/-- The 8 bytes of a die's block at an aligned offset, as a number. An absent or FAILED die reads zero (R8, R27) (DEDUCED, log entry 70). -/
def readReg (s : State) (d off : Nat) : Nat :=
  if !dieUp s d then 0
  else if isCounter d off then (if notOwned s d off then 0 else regGet s d off 0 (ctrSel s d off))
  else match plainMask d off with
    | some _ => regGet s d off
    | none =>
      if off < 0x10000 then readCommon s d off
      else if d = 0 then (if 0x800000 ≤ off && off < 0x801000 then legendWord s (off % 0x800000) else readCmd s off)
      else if d = 1 then readSv s off
      else if isTw d then readTw s d off
      else if isMu d then readMu s d off
      else if isSt d then
        (if off = 0x10000 then look0 s.mu.scrubPos (d * 2) + 2 ^ 32 * look0 s.mu.scrubPass d else 0)
      else readRg s d off

/-- n bytes of register space from an offset within one register (R508). -/
def readRegBytes (s : State) (d off n : Nat) : List Byte := ((leBytes 8 (readReg s d (off / 8 * 8))).drop (off % 8)).take n

/-! Writes. -/

/-- A write of all 8 bytes of a register (R13, R15, R508). -/
def writeReg (s : State) (d off : Nat) (a : Agent) (v : Nat) : State :=
  if !dieUp s d || off % 8 != 0 then s
  else if d = 1 && 0x10000 ≤ off then (if off = 0x10070 && a = .selvage then writeInject s v else s)
  else if isCounter d off then writeCounter s d off v
  else match plainMask d off with
    | some m => regSet s d off (v &&& m)
    | none =>
      if off = 0x1000 then writeGzCtl s d v
      else if off = 0x1010 then
        let sel := regGet s d 0x1008
        s.onGz fun g => { g with routes := put g.routes (routeKey d (1 - activeBank s d) (bits sel 10 8) (bits sel 5 0)) (bits v 3 0) }
      else if off = 0x1018 then writeTcCredit s d a v
      else if off = 0x1068 then writeMcCtl s d v
      else if off = 0x4000 && d != 1 then writePlan s d a v
      else if d = 0 then
        if off = 0x4030 then writeDatumCtl s v
        else if off = 0x20028 then writeQctl s v
        else if off = 0x20040 then writeRhead s v
        else if 0x100000 ≤ off && off < 0x140000 then ringDoorbell s (off % 0x100000 / 8) v
        else if off = 0x50020 then startMbox s v
        else if off = 0x50050 then writeHstreamFill s v
        else if off = 0x80038 then writeHostRel s v
        else if inRun off 0x90000 0x90018 then writeFaultClear s (off % 0x10000 / 8) v
        else if off = 0xA0000 then writeFwConfirm s a v
        else if off = 0xB0000 then writeCtCtl s v
        else if off = 0xC0000 then writePanelRst s v
        else if off = 0xC0008 then writeWarmReq s a v
        else s
      else if isMu d && off = 0x11080 then writeDirCtl s d v
      else if (isRing d || isTwin d) && off = 0x10048 then writeTokenIn s d v
      else s

/-- A REG_WRITE with a byte mask: discarded unless it enables all 8 bytes (R508). -/
def maskedWrite (s : State) (d off : Nat) (a : Agent) (mask v : Nat) : State := if mask = 255 then writeReg s d off a v else s

end Sys2Proof.Machine
end

