-- ==== Sys2Proof/Machine/Sequencer.lean ====
section
/-!
DEFINITION. The step sequencer (R343 to R348, R70, R380): runs, step programs and their instructions, the seal of a step and its close.
-/

namespace Sys2Proof.Machine

/-! Programs (R343, R344). -/

/-- The STEPPROG records of the image in force: PROG, PANEL, IN_PANEL, CODE_BYTES, BUDGET. -/
def progRecs (s : State) : List Rec := sect s 0x16
def progRec (s : State) (p : Nat) : Option Rec := recBy s 0x16 0 p
def progCode (s : State) (p : Nat) : List Byte :=
  match s.img.inForce with | some i => lookD i.code p [] | none => []

/-- Instruction word i of a program. -/
def progWord (s : State) (p i : Nat) : Nat := dword (progCode s p) (8 * i) 8

/-- The index of the first word whose OP is op from word i on, an AMAXD's DA word passed over, fuel words. -/
def findOp (s : State) (p op : Nat) : Nat → Nat → Nat
  | 0, i => i
  | n + 1, i =>
    let o := progWord s p i % 256
    if o = op then i else findOp s p op n (i + if o = 5 then 2 else 1)

/-- The first 256-byte boundary after the last instruction: where template slot 0 lies. -/
def templateBase (s : State) (p : Nat) : Nat :=
  roundUp (8 * (findOp s p 0x08 ((progCode s p).length / 8) 0 + 1)) 256

/-- A descriptor template; none for an empty slot. -/
def template (s : State) (p slot : Nat) : Option (List Byte) :=
  let off := templateBase s p + 256 * slot
  if off + 256 ≤ (progCode s p).length then some (((progCode s p).drop off).take 256) else none

/-- Where firmware keeps a template in the firmware area (R343): not printed, a free value (DESIGN CHOICE, log entry 94). -/
def templateDa (p slot : Nat) : Nat := fwArea + 256 * (Config.freeValue (2 ^ 78 + 65536 * p + slot) % 0x400000)

def progOf (s : State) (p : Nat) : Prog := lookD s.seq.progs p {}
def setProg (s : State) (p : Nat) (f : Prog → Prog) : State :=
  s.onSeq fun q => { q with progs := put q.progs p (f (lookD q.progs p {})) }

/-- The step the programs now work on: the step number has already risen once the seals are posted (R346). -/
def runStep (s : State) : Nat := if s.seq.phase = 2 || s.seq.phase = 4 then s.seq.step - 1 else s.seq.step

/-- The state code the sequencer shows: 3 once a stop is asked, 2 while seals are out, 1 otherwise. -/
def showSeq (s : State) : State :=
  s.onSeq fun q => { q with st := if q.run.isNone then 0 else if !q.stops.isEmpty || q.st == 3 then 3 else if q.phase = 2 then 2 else 1 }

/-- A program runs an instruction when it stands in its body or its close part, and the word it has reached spells that instruction.
A word with an unassigned OP ends its body with MALFORMED instead (R345). -/
def atInstr (s : State) (p : Nat) (c : Instr) (body : State → State) : State :=
  let g := progOf s p
  if g.st != 1 && g.st != 3 then s
  else match decodeProg p (progWord s p g.pc) (progWord s p (g.pc + 1)) with
    | none => setProg s p fun g => { g with st := if g.st = 1 then 2 else 4, malformed := true }
    | some i => if i = c then body s else s

/-- The program moves on by n words. -/
def advance (s : State) (p n : Nat) : State := setProg s p fun g => { g with pc := g.pc + n }

/-- The program's body, or close part, ends with MALFORMED in its step record (R345). -/
def endMalformed (s : State) (p : Nat) : State :=
  setProg s p fun g => { g with st := if g.st = 1 then 2 else 4, malformed := true }

/-- The Datum number that the next request produces (R60). -/
def nextDatum (s : State) : Nat := (s.ck.sent + s.ck.pending + 1) % 2 ^ 32

/-- The bytes a POST writes: the template, with ANCHOR, ARMED and DATUM set as asked, and SEAL last (R344, R274). -/
def postedBytes (s : State) (p r : Nat) (patch arm : Bool) (t : List Byte) (gen : Nat) : List Byte :=
  let t := if patch then t.take 0x1C ++ leBytes 2 (twos 16 (lookD (progOf s p).a r 0)) ++ t.drop 0x1E else t
  let w := dword t 0 8
  let w := if arm then w % 2 ^ 14 + 2 ^ 14 + 2 ^ 15 * bits w 31 15 + 2 ^ 32 * nextDatum s else w
  let t := leBytes 8 w ++ t.drop 8
  t.take 0x3E ++ leBytes 2 gen ++ t.drop 0x40

/-- POST (R344, R345). A lost sector of the template ends the body (R519). -/
def postEntry (s : State) (p r : Nat) (patch arm : Bool) (q slot ctr : Nat) : State :=
  match progRec s p, queueRec s q, template s p slot with
  | some pr, some qr, some t =>
    let ok := if fld pr 2 = 1 then fld qr 3 = 1 && fld qr 2 = 1 && fld qr 1 = fld pr 1 else fld qr 3 = 0
    if !ok then endMalformed s p
    else
      let size := queueSize qr
      let u := queueOf s q
      -- no free entry: the POST waits
      if posDiff size (posNum size u.head u.headGen) (posNum size u.tail u.tailGen) = size then s
      else if (checkRead s (templateDa p slot) 256).1 then endMalformed (checkRead s (templateDa p slot) 256).2 p
      else
        let s := (checkRead s (templateDa p slot) 256).2
        let bs := postedBytes s p r patch arm t u.tailGen
        let e : PostedEntry := { prog := p, queue := q, index := u.tail, gen := u.tailGen, ctr := ctr, step := runStep s }
        let s := writeMem s (entryDa qr u.tail) bs
        let nx := nextPos size (u.tail, u.tailGen)
        let s := setQueue s q fun u => { u with tail := nx.1, tailGen := nx.2, shownGen := u.tailGen }
        let s := s.onSeq fun m => { m with posted := m.posted ++ [e] }
        setProg s p fun g => { g with pc := g.pc + 1, started := true }
  | some _, _, _ => endMalformed s p
  | none, _, _ => s

/-- POST, R344. -/
def execPost (prog r : Nat) (patch arm : Bool) (queue slot ctr : Nat) (s : State) : Out :=
  .next (atInstr s prog (.post prog r patch arm queue slot ctr) fun s => postEntry s prog r patch arm queue slot ctr)

/-- WAIT, R344: until the counter has reached the target. -/
def execWait (prog ctr target : Nat) (s : State) : Out :=
  .next (atInstr s prog (.wait prog ctr target) fun s => if target ≤ look0 (progOf s prog).k ctr then advance s prog 1 else s)

/-- FIRE, R344. -/
def execFire (prog : Nat) (s : State) : Out :=
  .next (atInstr s prog (.fire prog) fun s => advance (requestDatum s) prog 1)

/-- The exact magnitude an amax record carries; none for a NaN winner or an INT32 source (R146, R344). -/
def amaxVal (w : Nat) : Option Val :=
  let f := bits w 27 24
  if f = 13 then none
  else match decodeScaled f (bits w 15 0) (bits w 23 16) with
    | .nan => none
    | v => some v.abs

/-- An amax register set from records: 0, and counted, when one carries no exact value (R344). -/
def setAmax (s : State) (p x : Nat) (vs : List (Option Val)) : State :=
  let bad := (vs.filter Option.isNone).length
  let v := if bad = 0 then vs.foldl (fun m o => match o with | some v => if Val.lt m v then v else m | none => m) Val.zero else Val.zero
  setProg (bumpBy s 0 0x40020 bad) p fun g => { g with x := put g.x x v }

/-- AMAX, R344. -/
def execAmax (prog x core n off : Nat) (s : State) : Out :=
  .next (atInstr s prog (.amax prog x core n off) fun s =>
    if !dieUp s (coreDie core) then advance (setAmax s prog x (List.replicate n (some Val.zero))) prog 1
    else
      let bs := cbRead s.tw core off (8 * n)
      let vs := (List.range n).map fun i =>
        if (cbCheck s core [(off + 8 * i, 8)]).1 then none else amaxVal (dword bs (8 * i) 8)
      let (lost, s) := cbCheck s core [(off, 8 * n)]
      let s := advance (setAmax s prog x vs) prog 1
      if lost then panelFaultAt s core else s)

/-- AMAXD, R344. -/
def execAmaxd (prog x da : Nat) (s : State) : Out :=
  .next (atInstr s prog (.amaxd prog x da) fun s =>
    let (lost, s) := checkRead s da 8
    advance (setAmax s prog x [if lost then none else amaxVal (ofLe (readBytes s.mem da 8))]) prog 2)

/-- The p of ANCHOR: 2^p is the smallest power of two at least a magnitude. -/
def ceilPow (m : Nat) (e : Int) : Int := if m = 2 ^ Nat.log2 m then leadExp m e else leadExp m e + 1

/-- ANCHOR, R344. An infinite product takes the upper clamp (DEDUCED, log entry 71). -/
def anchorOf : Val → Int
  | .fin _ 0 _ => 0
  | .fin _ m e => max (-384) (min 320 (ceilPow m e - 10))
  | .inf _ => 320
  | .nan => 0

/-- ANCHOR, R344. -/
def execAnchor (prog r x1 x2 : Nat) (s : State) : Out :=
  .next (atInstr s prog (.anchor prog r x1 x2) fun s =>
    let g := progOf s prog
    let v := (lookD g.x x1 Val.zero).mul (lookD g.x x2 Val.zero)
    advance (setProg s prog fun g => { g with a := put g.a r (anchorOf v) }) prog 1)

/-- SEAL, R344: the program stands at SEAL. -/
def execSealPoint (prog : Nat) (s : State) : Out :=
  .next (atInstr s prog (.sealPoint prog) fun s => if (progOf s prog).st = 1 then setProg s prog fun g => { g with st := 2 } else s)

/-- END, R344: the program is done for this step. -/
def execEndProg (prog : Nat) (s : State) : Out :=
  .next (atInstr s prog (.endProg prog) fun s => if (progOf s prog).st = 3 then setProg s prog fun g => { g with st := 4 } else s)

/-! Runs (R348). -/

/-- A run starts: the next step waits at the start gate. -/
def startRun (s : State) (h : Hdr) (count : Nat) : State :=
  showSeq ((markStarted s h).onSeq fun q => { q with run := some h, left := count, phase := 0, held := none, st := 1 })

/-- An SQ_RUN is held at CMD while a firmware update writes and in YIELDED (R404, R452) (DEDUCED, log entry 58). -/
def runHeld (s : State) : Bool := s.sec.fwState == fwWriting || s.twin.st == tsYielded

/-- SQ_RUN, R348. -/
def execSqRun (h : Hdr) (count : Nat) (s : State) : Out :=
  .next (runDesc s h fun s =>
    if s.seq.run.isSome || s.seq.held.isSome || s.img.inForce.isNone then complete s h cmdUnit stMalformed
    else if runHeld s then (markStarted s h).onSeq fun q => { q with held := some (h, count) }
    else startRun s h count)

/-- SQ_STOP, R348. -/
def execSqStop (h : Hdr) (s : State) : Out :=
  .next (runDesc s h fun s =>
    if s.seq.run.isNone then complete s h cmdUnit stMalformed
    else showSeq ((markStarted s h).onSeq fun q => { q with stops := q.stops ++ [h] }))

/-! Steps (R346, R347). -/

/-- The queue of a program's first POST. -/
def firstQueue (s : State) (p : Nat) : Option Nat :=
  let n := (progCode s p).length / 8
  let i := findOp s p 0x01 n 0
  let e := findOp s p 0x08 n 0
  if i < e then some (bits (progWord s p i) 31 16) else none

/-- The ring of a program's step record. -/
def recordRing (s : State) (p : Nat) : Option Nat := (firstQueue s p).bind (cringOf s)

/-- Every program's step-record slot can be reserved. -/
def stepRoom (s : State) : Bool :=
  (progRecs s).all fun r => match recordRing s (fld r 0) with
    | some n => (match ringRec s n with | some c => ringRoom c (ringOf s n) | none => true)
    | none => true

/-- STEP_START, R346 step 1: at the start gate (R380) of an active run, every program starts at instruction 0. -/
def startStep (s : State) : State :=
  let s := (progRecs s).foldl (fun s r => match recordRing s (fld r 0) with | some n => reserveSlot s n | none => s) s
  showSeq (s.onSeq fun q => { q with phase := 1, progs := (progRecs s).foldl (fun m r => put m (fld r 0) { st := 1 }) [] })

/-- The header of the MU_SEAL that the sequencer posts to MUk for step n (R346 step 3). -/
def sealHdr (s : State) (k n : Nat) : Hdr :=
  { queue := 32768 + k, index := n % 65536, armed := true, datum := nextDatum s, stamp := n }

/-- One MU_SEAL posted to a ledger unit, armed for the Datum the sequencer fires. -/
def postSeal (n : Nat) (s : State) (k : Nat) : State :=
  let h := sealHdr s k n
  let s := s.onSeq fun q => { q with sealHdrs := q.sealHdrs ++ [descKey h] }
  let s := s.onQm fun q => { q with disp := q.disp ++ [{ hdr := h, cmd := .muSeal h k n, unit := ledgerUnit k, armed := true, started := false }] }
  -- on a die whose Datum count has stopped, nothing can be armed (R62)
  if s.ck.err.contains (18 + k) then complete (bump s (18 + k) 0x4018) h (ledgerUnit k) stDeadline else s

/-- Every descriptor the programs posted in this step has been fetched, or has had its DEADLINE record (R346 step 3). -/
def allFetched (s : State) : Bool := s.seq.posted.all fun e => e.fetched || e.step != runStep s

/-- SEAL_GATE, R380 and R346 step 3. -/
def postSeals (s : State) : State :=
  let n := s.seq.step
  let s := (musUp s).foldl (postSeal n) s
  showSeq ((requestDatum s).onSeq fun q => { q with step := n + 1, phase := 2 })

/-- Every ledger unit can take one more armed descriptor (R61); while one cannot, no seal is posted (DESIGN CHOICE, log entry 95). -/
def sealRoom (s : State) : Bool := (musUp s).all fun k => armedAt s (ledgerUnit k) < 8

/-- SEAL_GATE, R380. -/
def execSealGate (s : State) : Out :=
  .next (if s.seq.phase = 1 && s.seq.progs.all (fun p => p.2.st == 2) && allFetched s && sealGateOpen s && sealRoom s then postSeals s else s)

/-- CLOSE_PART, R346 step 4: every MU_SEAL has completed, and each program continues past SEAL. -/
def execClosePart (s : State) : Out :=
  .next (if s.seq.phase = 2 && s.seq.sealHdrs.isEmpty then
      showSeq (s.onSeq fun q =>
        { q with phase := 4, progs := mapVals (fun p g => { g with st := 3, pc := findOp s p 0x07 ((progCode s p).length / 8) 0 + 1 }) q.progs })
    else s)

/-- The status of a step record: the first row of R347 that applies. -/
def stepStatus (late : Bool) (g : Prog) : Nat :=
  if g.expired then stDeadline else if g.malformed then stMalformed else if g.partialF || late then stPartial else stDone

/-- One program's step record (R347), counted in CM.FW_STEPS (R453). ELAPSED is time: a free value. -/
def writeStepRecord (n : Nat) (s : State) (x : Nat × Prog) : State :=
  match firstQueue s x.1 with
  | none => s
  | some q =>
    match cringOf s q with
    | none => s
    | some ring =>
      let panel := (panelOfQueue s q).getD 0
      let st := stepStatus (s.seq.lateSteps.contains n) x.2
      let el := if x.2.started then fresh s % 2 ^ 32 else 0
      let s := writeRecord s.took ring fun ph => recordBytes st ph 0 panel x.1 q 0 0 13 n el
      s.onSec fun c => { c with fwSteps := min 255 (c.fwSteps + 1) }

/-- The run ends: its SQ_RUN and every SQ_STOP complete with DONE. -/
def endRun (s : State) : State :=
  let hs := (match s.seq.run with | some h => [h] | none => []) ++ s.seq.stops
  let s := s.onSeq fun q => { q with run := none, stops := [], st := 0, left := 0, phase := 0 }
  hs.foldl (fun s h => complete s h cmdUnit stDone) s

/-- STEP_END, R346 step 5: step records, and the end of the run after its last step. A run whose SQ_RUN has already ended stops here. -/
def endStep (s : State) : State :=
  let n := runStep s
  let s := s.seq.progs.foldl (writeStepRecord n) s
  let s := s.onSeq fun q => { q with progs := mapVals (fun _ g => { g with st := 4 }) q.progs, lateSteps := q.lateSteps.filter (n < ·), phase := 0 }
  if !s.seq.stops.isEmpty || s.seq.left = 1 || s.seq.run.isNone then endRun s
  else showSeq (s.onSeq fun q => { q with left := q.left - 1 })

/-- STEP_END, R346. -/
def execStepEnd (s : State) : Out :=
  .next (if s.seq.phase = 4 && s.seq.progs.all (fun p => p.2.st == 4) then endStep s else s)

/-- STEP_BUDGET_EXPIRY, R70: the program's fetched descriptors complete with DEADLINE, and it moves to SEAL (DEDUCED, log entry 68). -/
def expireBudget (s : State) (p : Nat) : State :=
  let s := countExpiry s cmdUnit
  let s := setProg s p fun g => { g with expired := true, st := 2 }
  let s := s.onSeq fun m => { m with posted := m.posted.map fun e => { e with late := e.late || e.prog == p } }
  s.qm.queues.foldl (fun s q =>
    (q.2.fetched.filter fun x => x.prog == some p).foldl (fun s x => endFetched s q.1 x stDeadline) s) s

/-- The budget of a program counts: the step's first descriptor has been issued (R66), and the program runs its body, or stands at SEAL before
the seals are posted (R70, R346, R380). -/
def budgetCounts (s : State) (g : Prog) : Bool :=
  s.seq.progs.any (·.2.started) && (g.st == 1 || (g.st == 2 && s.seq.phase == 1)) && !g.expired

/-- STEP_BUDGET_EXPIRY, R70. -/
def execStepBudgetExpiry (prog : Nat) (s : State) : Out :=
  .next (match progRec s prog with
    | some r => if fld r 4 != 0 && budgetCounts s (progOf s prog) then expireBudget s prog else s
    | none => s)

/-! Completions of posted entries (R344, R347). -/

/-- A record of a posted descriptor reaches its program: its counter rises; a status other than DONE marks the step record. -/
def seqRecord (s : State) (c : Cpl) : State :=
  let s := s.onSeq fun m => { m with sealHdrs := m.sealHdrs.filter (· != (c.queue * 65536 + c.index) * 65536 + c.gen) }
  match s.seq.posted.find? fun e => e.queue == c.queue && e.index == c.index && e.gen == c.gen && e.fetched with
  | none => s
  | some e =>
    let s := s.onSeq fun m => { m with posted := m.posted.erase e }
    if e.step != runStep s then s
    else setProg s e.prog fun g =>
      { g with k := put g.k e.ctr ((look0 g.k e.ctr + 1) % 2 ^ 32), partialF := g.partialF || c.status != stDone }

end Sys2Proof.Machine
end

