-- ==== Sys2Proof/Machine/Queues.lean ====
section
/-!
DEFINITION. The queue manager (R269 to R297): fetching and re-reading entries, dispatch, records, expiry, and the commands it runs
itself.
-/

namespace Sys2Proof.Machine

/-! Fetching (R277, R280, R282). -/

/-- Units that arm (R61). -/
def unitArms (u : UnitId) : Bool :=
  (isTw u.die && u.unit < 4) || (isMu u.die && (u.unit < 4 || u.unit == 6)) || isSt u.die || isRing u.die || isTwin u.die

/-- OPCODE of an entry. -/
def opcodeOf (e : List Byte) : Nat := (e.headD 0).toNat
/-- 0x10 to 0x15 (R276). -/
def critOp (op : Nat) : Bool := 0x10 ≤ op && op ≤ 0x15

/-- Descriptors dispatched or held by units now, as keys (R295). -/
def dispKeys (s : State) : List Nat := s.qm.disp.map fun d => descKey d.hdr

/-- The entry at a queue's head passes it. -/
def passHead (s : State) (q size : Nat) : State :=
  setQueue s q fun u =>
    let nx := nextPos size (u.head, u.headGen)
    { u with head := nx.1, headGen := nx.2, rereads := 0, retry := false }

/-- The posted entry that a queue position is, if a program posted it. -/
def postedEntry (s : State) (q i gen : Nat) : Option PostedEntry :=
  s.seq.posted.find? fun e => e.queue == q && e.index == i && e.gen == gen && !e.fetched

/-- The checks that the queue manager makes of a ring operation whose route names no link die, in place of the ARMED and UNIT_ABSENT rows
(R383). -/
def noRouteCheck (s : State) (h : Hdr) (i : Instr) : Option (Nat × UnitId) :=
  match i with
  | .rgPut _ o => (ringRefusal s h o true).map fun st => (st, cmdUnit)
  | .rgGet _ o => (ringRefusal s h o false).map fun st => (st, cmdUnit)
  | _ => none

/-- A ring operation whose route names no link die. -/
def noRoute (s : State) : Instr → Bool
  | .rgPut _ o | .rgGet _ o => (routeDie (ringRoute s o.dev)).isNone
  | _ => false

/-- The queue manager's checks of a fetched descriptor, the rows that need no unit (R277): a status and the unit that decides it. -/
def fetchCheck (s : State) (h : Hdr) (op : Nat) (c : Option Instr) : Option (Nat × UnitId) :=
  match c with
  | none => some (stMalformed, cmdUnit)
  | some i =>
    let u := targetUnit s i
    if critOp op && (!h.crit || h.ext = 0) then some (stMalformed, cmdUnit)
    else if !critOp op && h.crit then some (stMalformed, cmdUnit)
    else if noRoute s i then noRouteCheck s h i
    else if h.armed && !unitArms u then some (stMalformed, cmdUnit)
    else if !dieUp s u.die then some (stAbsent, u)
    else none

/-- An entry whose SEAL matched (R277, R287): refused with its record, or held for dispatch, its head passed either way. -/
def takeEntry (s : State) (q size : Nat) (e : List Byte) (idx gen : Nat) : State :=
  let stamp := stepNow s
  let h := decodeHdr q idx stamp e
  let c := decodeDesc q idx stamp e
  let pe := postedEntry s q idx gen
  let before := dispKeys s
  let s := passHead s q size
  let s := s.onSeq fun m => { m with posted := m.posted.map fun x => if some x = pe then { x with fetched := true } else x }
  match fetchCheck s h (opcodeOf e) c with
  | some (st, u) => completeIdle s h u st
  | none =>
    match c with
    | none => s
    | some i =>
      setQueue s q fun u =>
        { u with fetched := u.fetched ++ [{ hdr := h, cmd := i, unit := targetUnit s i, prog := pe.map (·.prog), before := before }] }

/-- The entry at the head read: its SEAL decides (R280). An entry whose read loses data halts the queue with ECC_UNCORRECTABLE, its head
at the entry (R519). Of an entry of a FAULTED queue, USER_TAG alone is read (R282). -/
def readHead (s : State) (q : Nat) (r : Rec) : State :=
  let s := setQueue s q fun u => { u with resume := false }
  let size := queueSize r
  let u := queueOf s q
  let da := entryDa r u.head
  let (lost, s) := checkRead s da 256
  let e := readBytes s.mem da 256
  let h := { decodeHdr q u.head (stepNow s) e with gen := u.headGen }
  let late := match postedEntry s q u.head u.headGen with
    | some p => p.late
    | none => false
  if u.st = qFaulted then completeIdle (passHead s q size) { h with system := false } cmdUnit stAbortPanel
  else if late then
    -- an entry that an expired program posted: its record, without dispatch (R70)
    let pe := postedEntry s q u.head u.headGen
    let s := (passHead s q size).onSeq fun m => { m with posted := m.posted.map fun x => if some x = pe then { x with fetched := true } else x }
    completeIdle s h cmdUnit stDeadline
  else if lost then
    completeIdle (setQueue s q fun u => { u with st := qHalted, rereads := 0, retry := false }) h cmdUnit stEcc
  else if dword e 0x3E 2 = u.headGen then takeEntry s q size e u.head u.headGen
  else if u.rereads < 8 then bump (setQueue s q fun u => { u with rereads := u.rereads + 1, retry := true }) 0 0x20058
  else
    let s := setQueue (bump s 0 0x20060) q fun u => { u with st := qHalted, rereads := 0, retry := false }
    completeIdle s h cmdUnit stSealMm

/-- Entries stand between a queue's head and its tail. -/
def queuePosted (r : Rec) (u : Queue) : Bool :=
  posNum (queueSize r) u.head u.headGen != posNum (queueSize r) u.tail u.tailGen

/-- Fetching from every queue but queue 0 has stopped for a load that waits for its commit point (R333 step 5). -/
def fetchStopped (s : State) (q : Nat) : Bool := q != 0 && s.img.staged.isSome && (s.seq.run.isNone || s.seq.phase == 0)

/-- The queue manager may fetch: the queue is ACTIVE or FAULTED, an entry waits, fewer than 8 are ahead of dispatch, and a ring slot
and a staging record can be reserved (R280, R282, R290, R307). -/
def canFetch (s : State) (q : Nat) (r : Rec) : Bool :=
  let u := queueOf s q
  (u.st == qActive || u.st == qFaulted) && queuePosted r u && u.fetched.length < 8 && !u.retry && staged s < 8192 && !fetchStopped s q
  && (match ringRec s (fld r 5) with | some c => ringRoom c (ringOf s (fld r 5)) | none => false)

/-- DESCRIPTOR_FETCH, R280. -/
def execDescriptorFetch (queue : Nat) (s : State) : Out :=
  .next (match queueRec s queue with
    | none => s
    | some r => if canFetch s queue r then readHead (reserveSlot s (fld r 5)) queue r else s)

/-- SEAL_REREAD, R280: the slot stays reserved; in a queue FAULTED since, the entry completes (R282). -/
def execSealReread (queue : Nat) (s : State) : Out :=
  .next (match queueRec s queue with
    | none => s
    | some r =>
      let u := queueOf s queue
      if (u.st == qActive || u.st == qFaulted) && u.retry then readHead s queue r else s)

/-! Dispatch (R61, R62, R283 to R286). -/

/-- Dispatched descriptors of a unit that have not started. -/
def unstarted (s : State) (u : UnitId) : Nat := (s.qm.disp.filter fun d => d.unit == u && !d.started).length

/-- A free input slot at the target (R285). A later IMAGE_LOAD waits in queue 0 until the earlier one completes (R331). -/
def slotFree (s : State) (x : Fetched) : Bool :=
  match x.cmd with
  | .imageLoad h _ _ => h.queue != 0 || s.qm.disp.all fun d => match d.cmd with | .imageLoad _ _ _ => false | _ => true
  | .stRearm _ o =>
    decide ((s.qm.disp.filter fun d => match d.cmd with | .stRearm _ p => p.stream == o.stream | _ => false).length < 4)
  | _ =>
    let u := x.unit
    if isTw u.die && u.unit < 4 then unstarted s u < 16 else if isMu u.die then unstarted s u < 8 else true

/-- The record of an earlier descriptor of the queue is still to come (R286). -/
def owesRecord (s : State) (q : Nat) : Bool :=
  s.qm.disp.any (fun d => d.hdr.queue == q) || s.qm.cpls.any (fun c => c.queue == q)

/-- The head of a queue may dispatch now (R283). -/
def headReady (s : State) (q : Nat) (x : Fetched) : Bool :=
  slotFree s x && (!x.hdr.armed || armedAt s x.unit < 8) && (!x.hdr.ordered || !owesRecord s q)

/-- The ready heads for a unit, as (CLASS, queue). -/
def readyFor (s : State) (u : UnitId) : List (Nat × Nat) :=
  s.qm.queues.filterMap fun p =>
    match p.2.fetched with
    | x :: _ => if x.unit = u && headReady s p.1 x then some (classOfQueue s p.1, p.1) else none
    | [] => none

/-- The queue a unit serves next (R284): lowest CLASS, then round-robin after the queue last served (DESIGN CHOICE, log entry 76). -/
def served (s : State) (u : UnitId) : Option Nat :=
  let l := readyFor s u
  match (l.map (·.1)).min? with
  | none => none
  | some c =>
    let qs := (l.filter fun p => p.1 == c).map (·.2)
    let last := look0 s.qm.served ((u.die * 16 + u.unit) * 4 + c)
    match qs.filter (last < ·) with
    | [] => qs.head?
    | q :: _ => some q

/-- Datum number n lies in the future of a count (R59). -/
def datumFuture (n count : Nat) : Bool :=
  let d := (n + 2 ^ 32 - count) % 2 ^ 32
  1 ≤ d && d < 2 ^ 31

/-- One descriptor handed to its unit (R62, R277). A dispatch stops a core's ballast (R127). One late already is counted and sets no sticky
bit (DESIGN CHOICE, log entry 87). -/
def handOver (s : State) (x : Fetched) : State :=
  let d := x.unit.die
  if !dieUp s d then completeIdle s x.hdr x.unit stAbsent
  else
    let e : Disp := { hdr := x.hdr, cmd := x.cmd, unit := x.unit, armed := x.hdr.armed, started := false, before := x.before }
    let s := s.onQm fun q => { q with disp := q.disp ++ [e] }
    let s := if isTw d && x.unit.unit < 4 then setCore s (4 * (d - 2) + x.unit.unit) fun c => { c with ballast := 0 } else s
    if x.hdr.armed && (s.ck.err.contains d || !datumFuture x.hdr.datum (look0 s.ck.count d)) then
      endEarly (bump s d 0x4018) e stDeadline
    else s

/-- DISPATCH, R284. -/
def execDispatch (queue : Nat) (starved : Bool) (s : State) : Out :=
  .next (match (queueOf s queue).fetched with
    | [] => s
    | x :: rest =>
      if headReady s queue x && (starved || served s x.unit == some queue) then
        let s := setQueue s queue fun u => { u with fetched := rest }
        let s := s.onQm fun q => { q with served := put q.served ((x.unit.die * 16 + x.unit.unit) * 4 + classOfQueue s queue) queue }
        handOver s x
      else s)

/-! Register writes with a behaviour of their own (R279, R281, R289). -/

/-- DOORBELL, R279. -/
def execDoorbell (queue : Nat) (value : Word64) (s : State) : Out := .next (ringDoorbell s queue value.toNat)

/-- RESUME, R281. -/
def execResume (value : Word64) (s : State) : Out := .next (writeQctl s value.toNat)

/-- RHEAD, R289. -/
def execRhead (value : Word64) (s : State) : Out := .next (writeRhead s value.toNat)

/-! Records (R288 to R292, R299, R249, R353). -/

/-- What a record's status counts (R299, R249): authorisation failures, replays, quota. -/
def countStatus (s : State) (q st : Nat) : State :=
  if st = stAuth then setSticky (bump s 0 0x20068) srcSecurity
  else if st = stReplay then setSticky (bump s 0 0x20070) srcSecurity
  else if st = stQuota then (match panelOfQueue s q with | some p => bump s 0 0x30010 p | none => s)
  else s

/-- The bytes of a completion's record. -/
def cplBytes (s : State) (c : Cpl) (ph : Nat) : List Byte :=
  recordBytes c.status ph (b2n c.system) ((panelOfQueue s c.queue).getD 0) c.userTag c.queue c.index c.unit.die c.unit.unit c.step c.elapsed

/-- A completion received by the queue manager: its record written, or its slot released under QUIET; the sequencer and the mailbox
told. -/
def deliver (s : State) (c : Cpl) : State :=
  let s := s.onQm fun q => { q with cpls := q.cpls.erase c }
  let bs := cplBytes s c
  let s := match cringOf s c.queue with
    | none => s
    | some n => if c.quiet && c.status = stDone then releaseSlot s n else writeRecord s n bs
  let s := if c.quiet && c.status = stDone then s else countStatus s c.queue c.status
  let s := seqRecord s c
  match s.host.mboxIdx with
  | some (i, g) => if c.queue = 0 && c.index = i && c.gen = g then mboxDone s (ofLe ((bs 0).take 8)) (ofLe ((bs 0).drop 8)) else s
  | none => s

/-- The completion that a COMPLETION flit carries: the first of its die, found by queue and index in OPARG (R41). -/
def cplFor (s : State) (f : Flit) : Option Cpl :=
  match s.qm.cpls.filter fun c => c.unit.die == f.src with
  | c :: _ => if c.queue * 65536 + c.index = f.oparg then some c else none
  | [] => none

/-- The refusal of a request reaches its sender (R35, R40, R191, R305): the command it belongs to ends with its status. -/
def refused (s : State) (f : Flit) : State :=
  match findReq s f.dst f.tag with
  | none => lateAnswer s f.dst f.tag
  | some r => match ingressOf s f.dst f.tag with
    | some g => answerIngress s g f
    | none => answered (endStore (closeReq s r.die r.tag) r.die r.tag) (reqWait r.die r.tag) f.status false

/-- The COMPLETION flit of a unit, with the PANEL of its core (R122). -/
def cplFlit (s : State) (c : Cpl) : Flit :=
  { cplHead c with panel := if isTw c.unit.die && c.unit.unit < 4 then (panelOfCore s (4 * (c.unit.die - 2) + c.unit.unit)).getD 0 else 0 }

/-- A completion crosses Gauze from its unit to the queue manager (R291): it waits for its turn at its output, and for credits; a port
that is down, or no route, loses it. -/
def sendCpl (s : State) (c : Cpl) : State :=
  if outputBusy s (cplFlit s c) then s
  else match goes true s (cplFlit s c) with
    | none => s
    | some (some _, t) => deliver t c
    | some (none, t) => t.onQm fun q => { q with cpls := q.cpls.erase c }

/-- COMPLETION, R291: a completion on its way to the queue manager, or the refusal of a request on its way to the sender. -/
def execCompletion (f : Flit) (s : State) : Out :=
  let f := asOp 0x06 [] f
  .next (match (if s.gz.flits.contains f then none else cplFor s f) with
    | some c =>
      if f.dst != 0 then s
      -- the queue manager itself answers for CMD, and for a die that is absent or FAILED (R277)
      else if f.src = 0 || !dieUp s f.src then deliver s c
      else sendCpl s c
    | none => match arrive s f with
      | (some g, s) => refused s g
      | (none, s) => s)

/-! The queue manager's own commands (R295 to R297). -/

/-- NOP, R296. -/
def execNop (h : Hdr) (s : State) : Out := .next (runDesc s h fun s => complete s h cmdUnit stDone)

/-- Earlier descriptors a FENCE still waits for (R295 step 1). -/
def fenceWaits (s : State) (h : Hdr) (panel : Bool) : Bool :=
  match findDisp s h with
  | none => false
  | some d =>
    let key (e : Disp) : Nat := descKey e.hdr
    let earlier := s.qm.disp.takeWhile fun e => !sameDesc e.hdr h
    earlier.any (fun e => e.hdr.queue == h.queue)
    || (panel && s.qm.disp.any fun e => d.before.contains (key e) && !sameDesc e.hdr h &&
          panelOfQueue s e.hdr.queue == panelOfQueue s h.queue)

/-- What the flushes of a FENCE wait for: writes the far ports hold, and remote requests not answered (R295 step 2). -/
def fenceTags (s : State) (far remote : Bool) : List Nat :=
  (if far then s.mem.posted.map fun p => postWait p.tag else [])
  ++ (if remote then (s.gz.out.filter fun r => r.remote && (r.kind == rkPut || r.kind == rkWrite || r.kind == rkAdd)).map fun r => reqWait r.die r.tag
      else [])

/-- A FENCE that has started and does not yet wait for its flushes. -/
def fenceStands (s : State) (h : Hdr) : Bool :=
  match findDisp s h with
  | some d => d.started && !s.qm.waiting.any fun w => sameDesc w.hdr h
  | none => false

/-- FENCE, R295: it starts when its turn comes, and later commands of the queue manager pass it while it waits (R285). Its record carries
SCOPE = 1. -/
def execFence (h : Hdr) (far remote panel : Bool) (s : State) : Out :=
  let h1 := { h with system := true }
  .next (if !canStart s h && !fenceStands s h then s
    else if panel && (panelOfQueue s h.queue).isNone then complete s h1 cmdUnit stMalformed
    else if fenceWaits s h panel then markStarted s h
    else
      let tags := fenceTags s far remote
      if tags.isEmpty then complete s h1 cmdUnit stDone
      else waitFor s { hdr := h1, unit := cmdUnit, tags := tags, status := 0 })

/-- A register-space range of an INLINE_WRITE is well placed (R297). -/
def regRangeOk (da len : Nat) : Bool := da % 8 == 0 && len % 8 == 0 && da / 2 ^ 32 == (da + len - 1) / 2 ^ 32

/-- Register writes in ascending order, 8 bytes each. -/
def writeRegs (s : State) (a : Agent) : Nat → List Byte → Nat → State
  | _, _, 0 => s
  | da, bs, n + 1 =>
    writeRegs (writeReg s (da % regBase / 2 ^ 32) (da % 2 ^ 32) a (ofLe (bs.take 8))) a (da + 8) (bs.drop 8) n

/-- A DA lies in register space. -/
def inRegSpace (da : Nat) : Bool := regBase ≤ da && da < regTop

/-- INLINE_WRITE, R297. The queue manager's write is a device's, not a core's or a host's. -/
def execInlineWrite (h : Hdr) (da len : Nat) (payload : List Byte) (s : State) : Out :=
  .next (runDesc s h fun s =>
    let bs := padTo len payload
    if len = 0 || 192 < len || slotShort h (ceilDiv len 64) then complete s h cmdUnit stMalformed
    else if inRegSpace da then
      if classOfQueue s h.queue != 0 || !regRangeOk da len then complete s h cmdUnit stMalformed
      else complete (writeRegs s .device da bs (len / 8)) h cmdUnit stDone
    else match checkOut s h [(da, len)] with
      | some st => complete s h cmdUnit st
      | none => finish s (writeMem s da bs) h cmdUnit stDone)

end Sys2Proof.Machine
end

