-- ==== Sys2Proof/Machine/Security.lean ====
section
/-!
DEFINITION. CMD's critical commands but the loads (R338, R373, R447, R450 to R454), and the security engine's operations (R442 to R446).
-/

namespace Sys2Proof.Machine

/-! QUOTA_SET (R338, R249, R253). -/

/-- Populated capacity of a tier in MiB: 0 Stash, 1 Home, 2 Far. -/
def tierMib (s : State) (tier : Nat) : Nat :=
  1024 * (if tier = 0 then stashGib s.pkg.variant else if tier = 1 then homeGib s else ((List.range 4).map (farGib s)).sum)

/-- The sum of a table's values over keys that meet a test, one key taken at a new value. -/
def sumWith (m : FMap Nat) (f : Nat → Bool) (key v : Nat) : Nat := ((put m key v).filter fun p => f p.1).foldl (fun n p => n + p.2) 0

/-- QUOTA_SET's outcome and effect (DEDUCED, log entry 59). -/
def quotaSet (s : State) (p what tier k v : Nat) : Option State :=
  if (panelRec s p).isNone then none
  else match what with
    | 0 =>
      let key := p * 4 + tier
      if tier < 3 && placedBytes s p tier ≤ 2 ^ 20 * v && sumWith s.img.quotas (fun x => x % 4 == tier) key v ≤ tierMib s tier then
        some (s.onImg fun i => { i with quotas := put i.quotas key v })
      else none
    | 1 =>
      let key := p * 16 + k * 2
      let ok (w x : Nat) : Bool := sumWith s.img.parts (fun y => y % 16 == k * 2 + w) (key + w) x ≤ 16
      if ok 0 (v % 16) && ok 1 (v / 16 % 16) then
        some (s.onImg fun i => { i with parts := put (put i.parts key (v % 16)) (key + 1) (v / 16 % 16) })
      else none
    | 2 =>
      if sumWith s.img.farParts (fun _ => true) p (v % 16) ≤ 16 then some (s.onImg fun i => { i with farParts := put i.farParts p (v % 16) })
      else none
    | _ => none

/-- QUOTA_SET, R338. -/
def execQuotaSet (h : Hdr) (t : Trailer) (panel what tier muslin value : Nat) (s : State) : Out :=
  .next (critical s h t fun s =>
    match quotaSet s panel what tier muslin value with
    | some s => complete s h cmdUnit stDone
    | none => complete s h cmdUnit stMalformed)

/-! UNLOCK (R447). -/

/-- DEBUG_ON, R447: debug mode until the next warm or cold reset. An UNLOCK of OP 4 to 7 is accepted, and completes with MALFORMED. -/
def execDebugOn (h : Hdr) (t : Trailer) (s : State) : Out :=
  .next (critical s h t fun s => if t.reserved then complete s h cmdUnit stMalformed else complete (s.onSec fun c => { c with debug := true }) h cmdUnit stDone)

/-- LOCK_SET, R447. -/
def execLockSet (h : Hdr) (t : Trailer) (s : State) : Out :=
  .next (critical s h t fun s => complete (appendAlm s almLocks 1 [1]) h cmdUnit stDone)

/-- LOCK_CLEAR, R447. -/
def execLockClear (h : Hdr) (t : Trailer) (s : State) : Out :=
  .next (critical s h t fun s => complete (appendAlm s almLocks 1 [0]) h cmdUnit stDone)

/-- ALMANAC_WRITE, R447. -/
def execAlmanacWrite (h : Hdr) (t : Trailer) (id version len : Nat) (data : List Byte) (s : State) : Out :=
  .next (critical s h t fun s =>
    if slotShort h 2 || !ownerSettable id || len = 0 || 64 < len then complete s h cmdUnit stMalformed
    else complete (appendAlm s id version (padTo len data)) h cmdUnit stDone)

/-! BYPASS_FORCE (R372, R373). -/

/-- Selvage as a unit of a record. -/
def svUnit : UnitId := ⟨1, 15⟩

/-- A dimension may open (R372): no cause holds, both link dies report lock, and RING_JOIN asks for no release not yet given. -/
def dimAllowed (s : State) (dim : Nat) : Bool :=
  s.rings.causes.all (fun c => !(causeDims c).contains dim)
  && (dimDies dim).all (fun d => dieUp s d && !s.rings.noLock.contains d)
  && (!bit (regGet s 0 0x70000) 20 || s.rings.released)

/-- A dimension that may open and is not open yet. -/
def dimWaiting (s : State) : Bool := [0, 1].any fun d => dimAllowed s d && !s.rings.openDims.contains d

/-- This device is ALIASED after a takeover. -/
def selfAliased (s : State) : Bool := (peerOf s (selfDev s)).st == peerAliased

/-- BYPASS_FORCE with MODE = CLOSE, R373. -/
def execBypassForceClose (h : Hdr) (t : Trailer) (s : State) : Out :=
  .next (critical s h t fun s =>
    if selfAliased s then complete s h svUnit stMalformed else complete (addCause s causeForce) h svUnit stDone)

/-- BYPASS_FORCE with MODE = RELEASE, R373: it waits for every dimension that may open. -/
def execBypassForceRelease (h : Hdr) (t : Trailer) (s : State) : Out :=
  .next (critical s h t fun s =>
    if selfAliased s then complete s h svUnit stMalformed
    else
      let s := (dropCause s causeForce).onRings fun g => { g with released := true }
      if dimWaiting s then (markStarted s h).onRings fun g => { g with waitRelease := some h } else complete s h svUnit stDone)

/-! Firmware update (R450 to R454). -/

/-- The bytes of a source range. -/
def srcBytes (s : State) (da len : Nat) : List Byte := readBytes s.mem da len

/-- The first check of R450 that refuses, as STATUS and REASON. -/
def fwRefusal (s : State) (srcDa srcLen : Nat) (lost : Bool) : Option (Nat × Nat) :=
  let c := srcBytes s srcDa srcLen
  if s.sec.fwState = fwWriting || s.sec.fwState = fwTrial || s.sec.fwState = fwRestoring
      || (match s.img.staged with | some x => x.kind == 0 | none => false) then some (stMalformed, 0x05)
  else if s.seq.st != 0 then some (stMalformed, 0x01)
  else if !s.sv.holdupOk then some (stMalformed, 0x02)
  else if ownerLock s then some (stMalformed, 0x03)
  else if s.img.staged.isSome || s.twin.st = tsServing || s.twin.st = tsYielded || s.twin.st = tsReturning then some (stMalformed, 0x04)
  else if 96 * 2 ^ 20 < srcLen || srcLen < 0x4000 || (r21 s [(srcDa, srcLen)]).isSome || farBase ≤ srcDa then some (stMalformed, 0x09)
  else if lost || !cartVerifies s 1 c then some (stAuth, 0x06)
  else if cartVersion c < fwFloor s then some (stMalformed, 0x07)
  else none

/-- Step 1 of R451: WRITING, with the previous Cartouche and body in the journal header. -/
def beginUpdate (s : State) (h : Hdr) (srcDa srcLen : Nat) : State :=
  let c := srcBytes s srcDa srcLen
  (markStarted s h).onSec fun x =>
    { x with fwState := fwWriting, fwReason := 0, fwJournal := some x.fwImage, fwBlocks := 0, fwPrev := x.fwVersion,
             fwNew := cartVersion c, fwRaise := cartRaise c, fwPaused := false, fwWaiter := some h, fwHdr := some h }

/-- Steps 2 to 5 of R451: the blocks that differ are journalled and programmed; the readback decides between the trial, with its warm
reset, and a restore. -/
def finishUpdate (s : State) (h : Hdr) (srcDa srcLen : Nat) (readbackBad : Bool) : State :=
  let c := srcBytes s srcDa srcLen
  let waits := s.sec.fwWaiter = some h
  let s := s.onSec fun x => { x with fwBlocks := fwDiffer x.fwImage c, fwImage := c, fwWaiter := none, fwHdr := none }
  -- a command that has ended meanwhile gets no second record
  let done (s : State) (st : Nat) : State := if waits then complete s h cmdUnit st else s
  if readbackBad then
    let ok := fresh s % 2 == 1
    done (restoreFw (s.took.onSec fun x => { x with fwReason := 0x0A }) ok) stMalformed
  else
    let s := s.onSec fun x => { x with fwState := fwTrial, confirmed := false, trial := 0 }
    requestWarm (done s stDone) 9

/-- FW_UPDATE_START, R450 and R451. Its first run is taken or refused; run again while its update writes, it carries the update to its
end, unless the update is paused (R452; DESIGN CHOICE, log entry 17). -/
def execFwUpdateStart (h : Hdr) (t : Trailer) (srcDa srcLen : Nat) (readbackBad : Bool) (s : State) : Out :=
  .next (if s.sec.fwHdr = some h then (if s.sec.fwPaused then s else finishUpdate s h srcDa srcLen readbackBad)
    else critical s h t fun s =>
      let (lost, s) := if (r21 s [(srcDa, srcLen)]).isSome then (false, s) else checkRead s srcDa srcLen
      match fwRefusal s srcDa srcLen lost with
      | some (st, why) => complete (s.onSec fun x => { x with fwReason := why }) h cmdUnit st
      | none => beginUpdate s h srcDa srcLen)

/-- HOLDUP_WAIT_EXPIRY, R452: a paused update restores, REASON 0x02, and its command completes as after any restore (DESIGN CHOICE, log entry 17). -/
def execHoldupWaitExpiry (restoredOk : Bool) (s : State) : Out :=
  .next (if s.sec.fwState = fwWriting && s.sec.fwPaused then
      let w := s.sec.fwWaiter
      let s := restoreFw (s.onSec fun c => { c with fwReason := 0x02, fwWaiter := none }) restoredOk
      match w with | some h => complete s h cmdUnit stMalformed | none => s
    else s)

/-- FW_CONFIRM, R453. -/
def execFwConfirm (agent : Agent) (value : Word64) (s : State) : Out := .next (writeFwConfirm s agent value.toNat)

/-! Keys (R443 to R445). -/

/-- A slot emptied. -/
def emptySlot (s : State) (slot : Nat) : State := s.onSec fun c => { c with keys := del c.keys slot }

/-- Operand ranges read: the outcome of R248, or uncorrectable data, or the state after the reads (DEDUCED, log entry 67). -/
def readOperands (s : State) (h : Hdr) (rs : List Range) : Nat ⊕ State :=
  match firstSome (rs.map fun r => checkDa s h false [r]) with
  | some st => .inl st
  | none =>
    let (lost, s) := rs.foldl (fun (x : Bool × State) r => let y := checkRead x.2 r.1 r.2; (x.1 || y.1, y.2)) (false, s)
    if lost then .inl stEcc else .inr s

/-- KEY_AGREE, R444. -/
def execKeyAgree (h : Hdr) (slot keyNum ctr ctDa sigDa : Nat) (s : State) : Out :=
  .next (runDesc s h fun s =>
    match readOperands s h [(ctDa, 1088), (sigDa, 16224)] with
    | .inl st => complete s h cmdUnit st
    | .inr s =>
      let ct := readBytes s.mem ctDa 1088
      let sig := readBytes s.mem sigDa 16224
      let msg := Config.sha256 (s.sec.deviceId ++ leBytes 8 ctr ++ leBytes 4 keyNum ++ leBytes 1 slot ++ Config.sha256 ct)
      if keyNum = 0 || s.sec.keys.any (fun p => p.1 != slot && p.2.active && p.2.num == keyNum) then complete s h cmdUnit stMalformed
      else match ownerKey s with
        | none => complete s h cmdUnit stAuth
        | some k =>
          if !Config.slhVerify k msg sig then complete s h cmdUnit stAuth
          else if ctr ≤ agreeCtr s then complete s h cmdUnit stReplay
          else
            let s := appendAlm s almAgreeCtr 1 (leBytes 8 ctr)
            let key : Key := { num := keyNum, active := true, exhausted := false, last := 0,
                               secret := Config.kemSecret (agreementSecret ++ ct ++ s.sec.deviceId ++ leBytes 4 keyNum) }
            complete (s.onSec fun c => { c with keys := put c.keys slot key }) h cmdUnit stDone)

/-- KEY_RETIRE, R445. -/
def execKeyRetire (h : Hdr) (slot : Nat) (s : State) : Out :=
  .next (runDesc s h fun s => complete (emptySlot s slot) h cmdUnit stDone)

/-- OWNER_SET, R443. -/
def execOwnerSet (h : Hdr) (keyDa sigDa ctr : Nat) (s : State) : Out :=
  .next (runDesc s h fun s =>
    let rs := if (ownerKey s).isSome then [(keyDa, 48), (sigDa, 16224)] else [(keyDa, 48)]
    match readOperands s h rs with
    | .inl st => complete s h cmdUnit st
    | .inr s =>
      let key := readBytes s.mem keyDa 48
      let install (s : State) : State :=
        let s := appendAlm (appendAlm s almOwner 1 key) almAgreeCtr 1 (leBytes 8 ctr)
        complete ((appendAlm s almLocks 1 [0]).onSec fun c => { c with keys := [] }) h cmdUnit stDone
      match ownerKey s with
      | none => install s
      | some old =>
        let msg := Config.sha256 (s.sec.deviceId ++ Config.sha256 key ++ leBytes 8 ctr)
        if !Config.slhVerify old msg (readBytes s.mem sigDa 16224) then complete s h cmdUnit stAuth
        else if ctr ≤ agreeCtr s then complete s h cmdUnit stReplay
        else install s)

/-! QUOTE (R446, R438). -/

/-- The variant manifest of R438, 16,384 bytes. -/
def manifest (s : State) : List Byte :=
  padTo 16384 (padTo 16 s.sec.deviceId ++ padTo 32 identityPublic ++ leBytes 16 (variantCode s.pkg.variant) ++ manifestSignature)

/-- The firmware running (R446): during a trial whose warm reset has not come, still the image in the journal (R451, R452). -/
def runningFw (s : State) : List Byte :=
  if s.sec.fwState = fwTrial && s.sv.warmReqs.contains 9 then s.sec.fwJournal.getD s.sec.fwImage else s.sec.fwImage

/-- Bytes 0x000 to 0x59F of a quote. -/
def quoteBody (s : State) (nonce : List Byte) : List Byte :=
  let img := s.img.inForce
  let flags := variantCode s.pkg.variant + 4 * b2n s.pkg.pairId + 8 * b2n (ownerLock s) + 16 * b2n s.sec.debug
    + 32 * b2n s.sv.factory + 2 ^ 8 * s.sec.fwState
  leBytes 4 0x45544F55 ++ leBytes 4 1 ++ padTo 16 s.sec.deviceId ++ leBytes 8 flags ++ padTo 32 nonce
  ++ padTo 32 (cartHash (runningFw s))
  ++ leBytes 4 s.sec.fwVersion ++ leBytes 4 (fwFloor s) ++ leBytes 4 (match img with | some i => i.serial | none => 0) ++ leBytes 4 (imgFloor s)
  ++ padTo 32 (match img with | some i => Config.sha256 (i.cart ++ i.bytes) | none => [])
  ++ padTo 32 (match ownerKey s with | some k => Config.sha256 k | none => [])
  ++ padTo 32 skewickHash ++ leBytes 8 (legendWord s 0x08) ++ leBytes 8 (legendWord s 0x10) ++ leBytes 4 s.sv.recovery
  ++ List.replicate 28 0 ++ padTo 1184 agreementPublic

/-- The record a QUOTE writes. -/
def quoteBytes (s : State) (cert : Bool) (nonce : List Byte) : List Byte :=
  let b := quoteBody s nonce
  b ++ padTo 17088 (Config.slhSign identitySecret b) ++ (if cert then manifest s else [])

/-- QUOTE, R446. -/
def execQuote (h : Hdr) (outDa outLen : Nat) (cert : Bool) (nonce : List Byte) (s : State) : Out :=
  .next (runDesc s h fun s =>
    let n := if cert then 34912 else 18528
    if slotShort h 1 || outLen < n then complete s h cmdUnit stMalformed
    else match checkOut s h [(outDa, n)] with
      | some st => complete s h cmdUnit st
      | none => finish s (writeMem s outDa (quoteBytes s cert nonce)) h cmdUnit stDone)

end Sys2Proof.Machine
end

