-- ==== Sys2Proof/Machine/ImageOps.lean ====
section
/-!
DEFINITION. The Ubdin image (spec/12_ubdin_image.md): its layout (R323 to R327), and the checker (R330, with R249 to R253, R329, R367
and R394).
-/

namespace Sys2Proof.Machine

/-! Layout (R323 to R327). -/

/-- RECORD_BYTES of a section; 0 for variable records (R326, R367, R394). -/
def secBytes (code : Nat) : Nat :=
  ([0, 8, 16, 2, 24, 8, 4, 40, 4, 8, 8, 16, 16, 32, 32, 24, 16, 32, 8, 32, 72, 16, 0, 16, 40] : List Nat).getD code 0

/-- Field widths of a section's record in packing order. RING and TWIN records begin with KIND, which selects the rest. -/
def secWidths (code kind : Nat) : List Nat :=
  match code with
  | 0x01 => [40, 16, 4, 1]
  | 0x02 => [64, 48, 1]
  | 0x03 => [6, 2, 1]
  | 0x04 => [6, 1, 64, 21, 16, 4]
  | 0x05 => [32, 6, 2]
  | 0x06 => [6, 3, 4, 4]
  | 0x07 => [6, 3, 256]
  | 0x08 => [6, 12, 9]
  | 0x09 => [12, 6, 6, 6, 12, 14]
  | 0x0A => [6, 8, 8, 8, 8, 8]
  | 0x0B => [15, 6, 1, 2, 5, 12, 48]
  | 0x0C => [12, 5, 2, 11, 48]
  | 0x0D => [32, 4, 6, 1, 1, 48, 40, 64]
  | 0x0E => [3, 8, 1, 6, 1, 16, 20, 20, 20, 40, 28]
  | 0x0F => [32, 32, 3, 4, 4, 4, 16, 40]
  | 0x10 => [12, 1, 2, 6, 1, 1, 8, 11, 8, 32]
  | 0x11 => [31, 12, 3, 32, 48, 48]
  | 0x12 => [6, 2, 16, 26]
  | 0x13 => [14, 6, 2, 1, 1, 6, 8, 5, 14, 32, 9, 48, 32]
  | 0x14 => [1, 3, 48, 40, 48, 40, 48, 40, 48, 40]
  | 0x15 => [40, 6, 48]
  | 0x16 => [8, 6, 1, 32, 40]
  | 0x17 =>
    match kind with
    | 0 => [2, 10, 6, 6, 32, 32]
    | 1 => [2, 10, 5, 5, 10, 1, 1, 1]
    | 2 => [2, 12, 10, 6, 14, 12]
    | _ => [2]
  | 0x18 =>
    match kind with
    | 0 => [2, 1, 16, 32, 48, 40, 40]
    | 1 => [2, 32, 32, 40, 40]
    | 2 => [2, 6, 48, 48, 40]
    | _ => [2, 3, 8, 3, 8]
  | _ => []

/-- Where each field starts (R325): a field of at most 32 bits at the next free bit unless it would cross a 64-bit boundary, a wider
one at a 64-bit boundary. -/
def packStarts : Nat → List Nat → List Nat
  | _, [] => []
  | free, w :: ws =>
    let p := if 33 ≤ w then roundUp free 64 else if free / 64 = (free + w - 1) / 64 then free else roundUp free 64
    p :: packStarts (p + w) ws

/-- The field values that a record's bytes hold. -/
def unpackRec (code : Nat) (bs : List Byte) : Rec :=
  let v := ofLe bs
  let ws := secWidths code (v % 4)
  ((packStarts 0 ws).zip ws).map fun p => v / 2 ^ p.1 % 2 ^ p.2

/-- n records of a section from an offset on. -/
def unpackSec (code : Nat) (bs : List Byte) (n : Nat) : List Rec :=
  (List.range n).map fun i => unpackRec code ((bs.drop (i * secBytes code)).take (secBytes code))

/-- Bytes of a STEPPROG record before its program: the program starts at the next 8-byte boundary (DEDUCED, log entry 18). -/
abbrev progHead := 16

/-- The variable records of a STEPPROG section, n of them: fields and program. -/
def unpackProgs : Nat → List Byte → List (Rec × List Byte)
  | 0, _ => []
  | n + 1, bs =>
    let r := unpackRec 0x16 (bs.take progHead)
    let len := roundUp (fld r 3) 8
    (r, ((bs.drop progHead).take (fld r 3))) :: unpackProgs n (bs.drop (progHead + len))

/-- A directory entry (R324): TYPE, RECORD_BYTES, COUNT, OFFSET, SLEN. -/
def dirEntry (bs : List Byte) (i : Nat) : List Nat :=
  let o := 0x40 + 16 * i
  [dfld bs o 7 0, dfld bs o 23 8, dfld bs o 55 24, dfld bs (o + 8) 31 0, dfld bs (o + 8) 63 32]

/-- A directory entry keeps R324, R326 and R327. -/
def dirOk (len : Nat) (e : List Nat) : Bool :=
  let code := fld e 0
  1 ≤ code && code ≤ 0x18 && fld e 1 == secBytes code && fld e 3 % 8 == 0 && fld e 3 + fld e 4 ≤ len
  && (code == 0x16 || fld e 1 * fld e 2 ≤ fld e 4) && ((code != 1 && code != 2) || fld e 2 == 1)

/-- No TYPE stands twice. -/
def noTwice : List Nat → Bool
  | [] => true
  | x :: r => !r.contains x && noTwice r

/-- The image in a body of bytes, when MAGIC, FORMAT, LENGTH and the directory keep R323 to R327. -/
def parseImage (bs : List Byte) : Option Image :=
  let len := dfld bs 0x10 31 0
  let es := (List.range (dfld bs 0x08 47 32)).map (dirEntry bs)
  let ts := es.map (fld · 0)
  if dfld bs 0 31 0 = 0x4E494455 && dfld bs 0 39 32 = 1 && len ≤ 2 ^ 28 && len ≤ bs.length && 2 ≤ es.length && es.length ≤ 64
      && 0x40 + 16 * es.length ≤ len && es.all (dirOk len) && es.any (fun e => fld e 3 + fld e 4 == len) && noTwice ts && ts.contains 1 && ts.contains 2 then
    let secs := es.foldl (fun m e =>
      put m (fld e 0) (if fld e 0 = 0x16 then (unpackProgs (fld e 2) ((bs.drop (fld e 3)).take (fld e 4))).map (·.1)
                       else unpackSec (fld e 0) (bs.drop (fld e 3)) (fld e 2))) []
    let code := (es.filter (fld · 0 == 0x16)).foldl (fun m e =>
      (unpackProgs (fld e 2) ((bs.drop (fld e 3)).take (fld e 4))).foldl (fun m p => put m (fld p.1 0) p.2) m) []
    some { serial := dfld bs 0x08 31 0, minFw := dfld bs 0x18 31 0, raiseFloor := bit (dfld bs 0 63 0) 48, sections := secs, code := code,
           bytes := bs.take len }
  else none

/-! The checker (R330), on a state with the candidate image in force. -/

/-- The state with an image put in force, for the checker. -/
def withImage (s : State) (i : Image) : State := s.onImg fun m => { m with inForce := some i }

def unitsRec (s : State) : Rec := (sect s 0x01).headD []
def reqDie (s : State) (d : Nat) : Bool := d < 40 && bit (fld (unitsRec s) 0) d
def reqStack (s : State) (j : Nat) : Bool := bit (fld (unitsRec s) 1) j
def reqFar (s : State) (p : Nat) : Bool := bit (fld (unitsRec s) 2) p
def reqTwin (s : State) : Bool := fld (unitsRec s) 3 == 1
def reqDies (s : State) : List Nat := allDies.filter (reqDie s)

/-- The units a range lies in are all required. -/
def addrReq (s : State) (r : Range) : Bool :=
  r.2 == 0 ||
  let last := r.1 + r.2 - 1
  if r.1 < homeTop then
    (List.range 16).all fun j => !meets r (stackSize * j, stackSize) || reqStack s j
  else if r.1 < farBase then (List.range 8).all fun n => !meets r (stashBase + gib * n, gib) || reqDie s (26 + n)
  else reqFar s (farPortOf r.1) && reqFar s (farPortOf last)

/-- The required units are absent, or FAILED in the Legend (R7, R27, R326). -/
def unitsMissing (s : State) : Bool :=
  (reqDies s).any (fun d => !dieUp s d) || (List.range 16).any (fun j => reqStack s j && !stackUp s j)
  || (List.range 4).any (fun p => reqFar s p && (lookD s.pkg.far p {}).link == 0)
  || (reqTwin s && !twinCapable s)

/-- An earlier record of a section has the same identifying fields. -/
def twice (s : State) (code i : Nat) (ids : List Nat) (r : Rec) : Bool :=
  ((sect s code).take i).any fun x => ids.all fun k => fld x k == fld r k

/-- The sum of a field over a section's records up to and with record i that meet a test. -/
def sumUpTo (s : State) (code i k : Nat) (f : Rec → Bool) : Nat :=
  ((((sect s code).take (i + 1)).filter f).map (fld · k)).sum

/-! Routes (R311, R330). -/

/-- The port a candidate's ROUTES give. -/
def imgPort (s : State) (d tc dst : Nat) : Nat :=
  match (sect s 0x07).find? fun r => fld r 0 == d && fld r 1 == tc with
  | some r => fld r 2 / 16 ^ dst % 16
  | none => 15

/-- Whether a path arrives, at local delivery on its destination, over required dies alone; fuel hops. -/
def imgPath (s : State) (tc dst : Nat) : Nat → Nat → Bool
  | 0, _ => false
  | n + 1, d =>
    if imgPort s d tc dst = 8 then d == dst
    else match linkPeer d (imgPort s d tc dst) with
      | some e => reqDie s e && imgPath s tc dst n e
      | none => false

/-- Links of a class as (die, port), with the links that a flit on each may wait for next. -/
def waitsFor (s : State) (tc : Nat) (l : Nat × Nat) : List (Nat × Nat) :=
  match linkPeer l.1 l.2 with
  | none => []
  | some e => (allDies.filter fun dst => dst != e && imgPort s l.1 tc dst == l.2).filterMap fun dst =>
      let p := imgPort s e tc dst
      if p < 8 then some (e, p) else none

/-- The links left after those from which no cycle can be reached are taken away, fuel rounds. -/
def pruneLinks (s : State) (tc : Nat) : Nat → List (Nat × Nat) → List (Nat × Nat)
  | 0, l => l
  | n + 1, l => pruneLinks s tc n (l.filter fun x => (waitsFor s tc x).any l.contains)

/-- Every link of a class that the routes use. -/
def usedLinks (s : State) (tc : Nat) : List (Nat × Nat) :=
  allDies.flatMap fun d => ((List.range 8).filter fun p => allDies.any fun dst => dst != d && imgPort s d tc dst == p).map fun p => (d, p)

/-- A die has a link on a cycle of a class, or on the way to one. -/
def onCycle (s : State) (d tc : Nat) : Bool := (pruneLinks s tc 320 (usedLinks s tc)).any fun x => x.1 == d

/-- An entry of a ROUTES record names a link R30 does not give. -/
def badLink (d ports : Nat) : Bool :=
  allDies.any fun dst =>
    let p := ports / 16 ^ dst % 16
    !(p == 15 || p == 8 || (p < 8 && (linkPeer d p).isSome))

/-- ROUTES record i is refused. -/
def routeBad (s : State) (i : Nat) (r : Rec) : Bool :=
  let (d, tc) := (fld r 0, fld r 1)
  !reqDie s d || 4 < tc || twice s 0x07 i [0, 1] r || badLink d (fld r 2) || onCycle s d tc
  || (reqDies s).any fun dst => !imgPath s tc dst 41 d

/-- Some required die has no ROUTES record in a class. -/
def routesShort (s : State) : Bool :=
  (reqDies s).any fun d => (List.range 5).any fun tc => !(sect s 0x07).any fun r => fld r 0 == d && fld r 1 == tc

/-! Multicast (R42, R123). -/

/-- The ports of a group's MC_ROUTES entry. -/
def mcPorts (s : State) (d group : Nat) : Nat :=
  match (sect s 0x08).find? fun r => fld r 0 == d && fld r 1 == group with | some r => fld r 2 | none => 0

/-- Dies that a group's entries reach, fuel rounds. -/
def mcSpread (s : State) (group : Nat) : Nat → List Nat → List Nat
  | 0, l => l
  | n + 1, l =>
    mcSpread s group n (l.foldl (fun acc d => (List.range 8).foldl (fun acc p =>
      if bit (mcPorts s d group) p then (match linkPeer d p with | some e => ins acc e | none => acc) else acc) acc) l)

/-- A die is no compute die, or one of its cores lies in the panel. -/
def diePanelOk (s : State) (d p : Nat) : Bool := !isTw d || (panelsOnDie s d).contains p

/-- The stream of a receiver is its panel's, where it is defined. -/
def mcStreamOk (s : State) (n p : Nat) : Bool := match streamRec s n with | some x => fld x 1 == p | none => true

/-- MC_GROUPS record i is refused. -/
def mcGroupBad (s : State) (i : Nat) (r : Rec) : Bool :=
  let (g, p, src, rcv) := (fld r 0, fld r 1, fld r 2, fld r 3)
  !reqDie s src || !reqDie s rcv || twice s 0x09 i [0, 3] r
  || ((sect s 0x09).take i).any (fun x => fld x 0 == g && fld x 1 != p)
  || !diePanelOk s rcv p || !diePanelOk s src p || !mcStreamOk s (fld r 5) p
  || !((mcSpread s g 40 [src]).contains rcv && bit (mcPorts s rcv g) 8)

/-! Holdings, quotas, queues (R247, R249, R269, R271, R329). -/

/-- Bytes of SYSTEM holdings in a tier, and its populated capacity. -/
def systemBytes (s : State) (tier : Nat) : Nat :=
  (((holdings s).filter fun r => fld r 3 == 1 && tierOf (fld r 5) == tier).map (fld · 6)).sum
def areaLen (s : State) : Nat := match twinHeader s with | some r => fld r 5 | none => 0
def tierBytes (s : State) (tier : Nat) : Nat := 2 ^ 20 * tierMib s tier

/-- QUOTAS record i is refused. -/
def quotaBad (s : State) (i : Nat) (r : Rec) : Bool :=
  let (lim, p, t) := (fld r 0, fld r 1, fld r 2)
  twice s 0x05 i [1, 2] r || t == 3 || 2 ^ 20 * lim < placedBytes s p t
  || tierBytes s t < 2 ^ 20 * sumUpTo s 0x05 i 0 (fun x => fld x 2 == t) + systemBytes s t

/-- Holding i is refused. -/
def holdingBad (s : State) (i : Nat) (r : Rec) : Bool :=
  let (kind, owner, sys) := (fld r 1, fld r 2, fld r 3)
  let rg := holdRange r
  let t := tierOf (fld r 5)
  (fld r 0 != 0 && twice s 0x0D i [0] r) || ((holdings s).take i).any (fun x => meets rg (holdRange x))
  || (r21 s [rg]).isSome || !addrReq s rg || meets rg (fwArea, gib) || fld r 5 % 64 != 0 || 7 < kind
  || (sys == 0 && bit (fld r 7) owner) || (List.range 64).any (fun p => bit (fld r 7) p && (panelRec s p).isNone)
  || (fld r 4 == 1 && (kind == 2 || kind == 7))
  || ((kind == 2 || kind == 4) && sys == 0) || (sys == 1 && kind != 2 && kind != 4 && kind != 6)
  -- a panel's holdings in a tier without a quota; SYSTEM holdings past a tier
  || (sys == 0 && fld r 6 != 0 && !(sect s 0x05).any fun q => fld q 1 == owner && fld q 2 == t)
  || (sys == 1 && tierBytes s t < sumUpTo s 0x0D i 6 fun x => fld x 3 == 1 && tierOf (fld x 5) == t)

/-- A range lies in one holding of a kind that meets a test. -/
def inHolding (s : State) (kind : Nat) (rg : Range) (f : Rec → Bool) : Bool :=
  (holdings s).any fun r => fld r 1 == kind && f r && shared rg (holdRange r) == rg.2

/-- QUEUES record i is refused. -/
def queueBad (s : State) (i : Nat) (r : Rec) : Bool :=
  let (cls, n, base) := (fld r 3, fld r 4, fld r 6)
  let panel := fld r 2 == 1
  fld r 0 == 0 || twice s 0x0B i [0] r || (panel == (cls == 0)) || n < 4 || 16 < n || base % 256 != 0 || farBase ≤ base
  || !inHolding s 6 (base, 256 * 2 ^ n) (fun x => if panel then fld x 3 == 0 && fld x 2 == fld r 1 else fld x 3 == 1)
  || (recBy s 0x0C 0 (fld r 5)).isNone

/-- CRINGS record i is refused. -/
def cringBad (s : State) (i : Nat) (r : Rec) : Bool :=
  let (n, base) := (fld r 1, fld r 4)
  let rg : Range := (base, 16 * 2 ^ n)
  twice s 0x0C i [0] r || n < 6 || 16 < n || 2 < fld r 2 || base % 16 != 0 || farBase ≤ base || (r21 s [rg]).isSome || !addrReq s rg

/-! Ledgers, tables, shards (R158, R186, R187, R251, R310). -/

/-- The largest W among the tables of a ROW region. -/
def wMax (s : State) (region : Nat) : Nat := ((sect s 0x10).filter (tRegion · == region)).foldl (fun n r => max n (tW r)) 0

/-- Bytes a region takes in its ledger area: two banks, and a ROW region's pending pool. -/
def regionBytes (s : State) (r : Rec) : Nat :=
  if fld r 2 = 0 then (2 * fld r 6 + fld r 7) * roundUp (32 + 10 * wMax s (fld r 1)) 64 else 2 * 10 * fld r 10

/-- A die's LEDGER holding: the one its MUSLIN record names. -/
def ledgerHolding (s : State) (k : Nat) : Option Rec :=
  match muslinRec s k with
  | some m => (holdings s).find? fun h => fld h 0 == fld m 0 && fld h 1 == 2
  | none => none

/-- The LEDGER holding in a die's own stacks. -/
def dieLedger (s : State) (k : Nat) : Option Rec := (holdings s).find? fun h => fld h 1 == 2 && muslinOfHome (fld h 5) == some k

abbrev fwdStore := 40 * 2 ^ 20

/-- LEDGERS record i is refused. -/
def ledgerBad (s : State) (i : Nat) (r : Rec) : Bool :=
  let k := fld r 0
  let rg (x : Rec) : Range := (fld x 9, regionBytes s x)
  !reqDie s (18 + k) || twice s 0x0E i [0, 1] r || ((fld r 2 == 0) != (fld r 1 < 64))
  || ((sect s 0x0E).take i).any (fun x => fld x 0 == k && meets (rg r) (rg x))
  || (match dieLedger s k with | some h => fld h 6 < fld r 9 + regionBytes s r | none => true)
  || (match muslinRec s k with | some m => meets (rg r) (fld m 7, fwdStore) | none => true)
  || (fld r 2 == 1 && fld r 10 == 0)

/-- MUSLIN record i is refused. -/
def muslinBad (s : State) (i : Nat) (r : Rec) : Bool :=
  let k := fld r 2
  let mine (h : Rec) : Bool := fld h 1 == 2 && shared (holdRange h) (k * 2 * stackSize, 2 * stackSize) != 0
  let (rd, wr, rem) := (fld r 3, fld r 4, fld r 5)
  !reqDie s (18 + k) || twice s 0x0F i [2] r || fld r 0 == 0
  || (match ledgerHolding s k with
      | some h => shared (holdRange h) (k * 2 * stackSize, 2 * stackSize) != fld h 6 || fld h 6 < fld r 7 + fwdStore
      | none => true)
  || ((holdings s).filter mine).length != 1
  || rd < 4 || wr < 2 || rem < 1 || rd + wr + rem != 16

/-- The shards of a table that cover a row. -/
def shardsOf (s : State) (t : Nat) : List Rec := (sect s 0x11).filter fun r => fld r 1 == t

/-- A table's shards cover rows 0 to ROWS − 1 exactly once. -/
def coversOnce (s : State) (t rows : Nat) : Bool :=
  let l := shardsOf s t
  let rg (r : Rec) : Range := (fld r 0, fld r 3)
  (l.map (fld · 3)).sum == rows && within (l.map rg) (0, rows) && l.all (fun r => fld r 0 + fld r 3 ≤ rows) && l.length ≤ 64

/-- The dies with a MIGRATE area of a table's panel: the table's region must stand on each, as on its owners (DEDUCED, log entry 18). -/
def regionDies (s : State) (r : Rec) : List Nat :=
  ((holdings s).filter fun h => fld h 1 == 3 && fld h 3 == 0 && fld h 2 == tPanel r).filterMap fun h => muslinOfHome (fld h 5)

/-- TABLES record i is refused. -/
def tableBad (s : State) (i : Nat) (r : Rec) : Bool :=
  twice s 0x10 i [0] r || tRows r == 0 || 2 ^ 31 < tRows r || tW r < 4 || 1024 < tW r || tW r % 4 != 0 || 2 < tPool r
  || !coversOnce s (fld r 0) (tRows r) || (regionDies s r).any fun k => (ledgerRec s k (tRegion r)).isNone

/-- The side-record length SB (R232). -/
def sideBytes (r : Rec) : Nat :=
  let w := tW r
  let b := ceilDiv w 32
  roundUp (2 * w + b + if fld r 5 = 1 then w + b else 0) 32

/-- SHARDS record i is refused. -/
def shardBad (s : State) (i : Nat) (r : Rec) : Bool :=
  16384 ≤ i || !reqDie s (18 + fld r 2) ||
  match tableRec s (fld r 1) with
  | none => true
  | some t =>
    let mine (h : Rec) : Bool := fld h 3 == 0 && fld h 2 == tPanel t
    !inHolding s 0 (fld r 4, fld r 3 * rowBytes t) mine || !inHolding s 1 (fld r 5, fld r 3 * sideBytes t) mine
    || muslinOfHome (fld r 5) != some (fld r 2) || (ledgerRec s (fld r 2) (tRegion t)).isNone

/-- SHADOW record i is refused (R180). -/
def shadowBad (s : State) (i : Nat) (r : Rec) : Bool :=
  !isTw (fld r 0) || !reqDie s (fld r 0) || twice s 0x12 i [0] r || slotBytes s (4 * (fld r 0 - 2) + fld r 1) == 0
  || cbSize < fld r 3 + fld r 2 * slotBytes s (4 * (fld r 0 - 2) + fld r 1)

/-! Waits among streams (R315; DEDUCED, log entry 96). An order that the image fixes is that of the descriptors which one program posts on one
queue for one unit. -/

/-- The queues and template slots that a program's POSTs name: its words up to END, fuel words. -/
def posts (s : State) (p : Nat) : Nat → Nat → List (Nat × Nat)
  | 0, _ => []
  | n + 1, i =>
    let w := progWord s p i
    match w % 256 with
    | 0x01 => (bits w 31 16, bits w 47 32) :: posts s p n (i + 1)
    | 0x05 => posts s p n (i + 2)
    | 0x08 => []
    | _ => posts s p n (i + 1)

/-- The streams of a core whose windows hold one of some offsets. -/
def streamsAt (s : State) (g : Nat) (offs : List Nat) : List Nat :=
  ((sect s 0x13).filter fun r => coreConsumer r && fld r 5 == g && offs.any fun o => fld r 11 ≤ o && o < fld r 11 + winBytes r).map (fld · 0)

/-- What an earlier descriptor waits for, as 2n for the bytes of stream n and 2n + 1 for their release. -/
def waitsOf (s : State) : Instr → List Nat
  | .twMatmul _ o => (streamsAt s o.core [o.aOff, o.wOff]).map (2 * ·)
  | .twMax _ o | .twMin _ o => (streamsAt s o.core [o.sOff]).map (2 * ·)
  | .muGradScatter _ o => if o.kind = 1 then [2 * o.stream] else []
  | .muGather _ o => if o.kind = 1 then [2 * o.stream + 1] else []
  | _ => []

/-- What a later descriptor gives. -/
def gives : Instr → List Nat
  | .muGather _ o => if o.kind = 1 then [2 * o.stream] else []
  | .stRelease _ n _ _ => [2 * n + 1]
  | _ => []

/-- A program's descriptors in order: each with its queue and unit. -/
def progOrder (s : State) (p : Nat) : List (Nat × UnitId × Instr) :=
  (posts s p ((progCode s p).length / 8) 0).filterMap fun x =>
    ((template s p x.2).bind (decodeDesc x.1 0 0)).map fun c => (x.1, targetUnit s c, c)

/-- What each descriptor gives, with what those before it on its queue and unit wait for, of another stream. -/
def orderWaits (s : State) : List (Nat × UnitId × Instr) → List (Nat × Nat)
  | [] => []
  | x :: l =>
    (l.filter fun y => y.1 == x.1 && y.2.1 == x.2.1).flatMap (fun y =>
      (gives y.2.2).flatMap fun g => ((waitsOf s x.2.2).filter fun w => w / 2 != g / 2).map fun w => (g, w)) ++ orderWaits s l

/-- The waits left after those that can be on no cycle are taken away, fuel rounds. -/
def pruneWaits : Nat → List (Nat × Nat) → List (Nat × Nat)
  | 0, l => l
  | n + 1, l => pruneWaits n (l.filter fun x => l.any (fun y => y.1 == x.2) && l.any fun y => y.2 == x.1)

/-- A stream lies on a cycle of waits. -/
def onWaitCycle (s : State) (n : Nat) : Bool :=
  let l := (progRecs s).flatMap fun r => orderWaits s (progOrder s (fld r 0))
  (pruneWaits l.length l).any fun x => x.1 / 2 == n

/-! Streams, working regions, programs (R219, R255, R259, R330). -/

/-- STREAMS record i is refused. STALL is 0, for the default, or at least 64 (R67). -/
def streamBad (s : State) (i : Nat) (r : Rec) : Bool :=
  let w := winBytes r
  let rg : Range := (fld r 11, w)
  !reqDie s (consumerDie r) || twice s 0x13 i [0] r || (fld r 2 == 2 && fld r 3 == 0) || 2 < fld r 2 || w < 65536 || 2 ^ 25 < w
  || w % chunkBytes r != 0 || (fld r 3 == 1 && (fld r 7 < 12 || 20 < fld r 7)) || (fld r 4 == 1 && 32 ≤ fld r 5)
  || (fld r 2 == 0 && 64 ≤ (((sect s 0x13).take i).filter fun x => fld x 2 == 0 && consumerDie x == consumerDie r).length)
  || (if fld r 4 = 0 then cbSize < fld r 11 + w else !inHolding s 7 rg (fun h => fld h 3 == 0 && fld h 2 == fld r 1))
  || (0 < fld r 9 && fld r 9 < 64) || onWaitCycle s (fld r 0)
  || (fld r 2 == 0 && (fld r 10 == 0 || 256 < fld r 10 || (sect s 0x14).length < fld r 12 + fld r 10))

/-- The pieces of a STREAM_SCHED record. -/
def schedPieces (r : Rec) : List Range := (List.range (min 4 (fld r 1))).map fun i => (fld r (2 + 2 * i), fld r (3 + 2 * i))

/-- STREAM_SCHED record i is refused: a stream that uses it may not read a piece. -/
def schedBad (s : State) (i : Nat) (r : Rec) : Bool :=
  4 < fld r 1 ||
  ((sect s 0x13).filter fun x => fld x 2 == 0 && fld x 12 ≤ i && i < fld x 12 + fld x 10).any fun x =>
    (schedPieces r).any fun p => (r21 s [p]).isSome || !addrReq s p
      || !within (((holdings s).filter (mayAccess (fld x 1) false)).map holdRange) p

/-- WORKING record i is refused. -/
def workingBad (s : State) (r : Rec) : Bool :=
  !inHolding s 5 (fld r 2, fld r 0) (fun h => fld h 3 == 0 && fld h 2 == fld r 1)

/-- A command names only tables, streams and regions of a panel. -/
def refsOk (s : State) (p : Nat) (i : Instr) : Bool :=
  let tab (t : Nat) : Bool := match tableRec s t with | some r => tPanel r == p | none => false
  let str (n : Nat) : Bool := match streamRec s n with | some r => fld r 1 == p | none => false
  let reg (k g : Nat) : Bool := match ledgerRec s k g with | some r => fld r 3 == p | none => false
  match i with
  | .muGather _ o => tab o.table && (o.kind != 1 || str o.stream)
  | .muGradScatter _ o => tab o.table && (o.kind != 1 || str o.stream)
  | .muLedgerAdd _ o => o.remote || reg o.lMuslin (o.la / 2 ^ 40)
  | .muMigrate _ _ t _ _ | .muRowRestore _ _ _ t _ _ => tab t
  | .muOptDense _ o => o.mode == 3 || o.deriveOnly || reg o.muslin (o.la / 2 ^ 40)
  | .stRearm _ o => str o.stream
  | .stRelease _ n _ _ => str n
  | _ => true

/-- STEPPROG record i is refused: it references a queue, stream, region or table of another panel. -/
def progBad (s : State) (i : Nat) (r : Rec) : Bool :=
  let p := fld r 0
  twice s 0x16 i [0] r ||
  (posts s p (fld r 3 / 8) 0).any fun x =>
    (match queueRec s x.1 with
     | some q => if fld r 2 = 1 then !(fld q 2 == 1 && fld q 1 == fld r 1) else fld q 3 != 0
     | none => true)
    || (fld r 2 == 1 && match (template s p x.2).bind (decodeDesc x.1 0 0) with | some c => !refsOk s (fld r 1) c | none => false)

/-! RING and TWIN (R367, R394). -/

def ringRecs (s : State) : List Rec := sect s 0x17

/-- RING record i is refused. -/
def ringBad (s : State) (i : Nat) (r : Rec) : Bool :=
  let l := ringRecs s
  let hd := l.headD []
  match fld r 0 with
  | 0 => i != 0 || !(1 ≤ fld r 2 && fld r 2 ≤ 32 && 1 ≤ fld r 3 && fld r 3 ≤ 32)
         || !l.any (fun x => fld x 0 == 1 && fld x 1 == fld r 1)
  | 1 => i == 0 || (l.take i).any (fun x => fld x 0 == 1 && (fld x 1 == fld r 1 || (fld x 2 == fld r 2 && fld x 3 == fld r 3)))
         || fld hd 2 ≤ fld r 2 || fld hd 3 ≤ fld r 3
         || (fld r 5 == 1 && !l.any fun x => fld x 0 == 1 && fld x 1 == fld r 4)
  | 2 => i == 0
  | _ => true

/-- HEADER and DEVICE records. -/
def mapPart (l : List Rec) : List Rec := l.filter fun r => fld r 0 < 2

/-- The ring map of a candidate differs from the one in force, which changes only across a cold reset. -/
def mapChanged (s : State) : Bool := !s.rings.map_.isEmpty && mapPart (ringRecs s) != mapPart s.rings.map_

/-- SELF has a twin in the candidate's map, or in the one in force. -/
def selfTwinValid (s : State) : Bool :=
  let l := if (ringRecs s).isEmpty then s.rings.map_ else ringRecs s
  match l.find? fun r => fld r 0 == 0 with
  | some h => l.any fun r => fld r 0 == 1 && fld r 1 == fld h 1 && fld r 5 == 1
  | none => false

/-- Ranges that the send logs take in the ledger areas: JSEND_MIB from JSEND_OFFSET. -/
def sendLogMeets (s : State) (h : Rec) : Bool :=
  let log : Range := (fld h 6, 2 ^ 20 * fld h 2)
  (sect s 0x0E).any (fun r => meets log (fld r 9, regionBytes s r)) || (sect s 0x0F).any fun m => meets log (fld m 7, fwdStore)

/-- TWIN record i is refused. -/
def twinBad (s : State) (i : Nat) (r : Rec) : Bool :=
  let l := twinSect s
  let hd := (twinHeader s).getD []
  match fld r 0 with
  | 0 =>
    let area : Range := (fld r 4, fld r 5)
    !reqTwin s || !selfTwinValid s || (l.take i).any (fun x => fld x 0 == 0)
    || fld r 4 < farBase || (r21 s [area]).isSome || !addrReq s area || (holdings s).any (fun h => meets area (holdRange h))
    || tierBytes s 2 < ((sect s 0x05).filter (fld · 2 == 2)).foldl (fun n q => n + 2 ^ 20 * fld q 0) 0 + systemBytes s 2 + fld r 5
    || sendLogMeets s r
  | 1 =>
    let rg : Range := (fld r 3, fld r 4)
    fld hd 5 < fld r 3 + fld r 4 || meets rg (0, 2 ^ 20 * fld hd 3)
    || (l.take i).any (fun x => fld x 0 == 1 && (meets rg (fld x 3, fld x 4) || fld x 2 == fld r 2))
    || (holdings s).any fun h => fld h 0 == fld r 2 && fld h 0 != 0
  | _ => false

/-! The whole checker. -/

/-- Record i of a section is refused. -/
def recBad (s : State) (code i : Nat) (r : Rec) : Bool :=
  match code with
  | 0x03 => !reqDie s (fld r 0) || twice s 0x03 i [0] r || fld r 1 == 3 || (fld r 1 != 0 && !isTw (fld r 0))
            || (fld r 2 != 0 && !isMu (fld r 0))
  | 0x04 => twice s 0x04 i [0] r || (List.range 64).any (fun g => bit (fld r 2) g &&
              (!reqDie s (2 + g / 4) || ((sect s 0x04).take i).any fun x => bit (fld x 2) g))
            || 16 < sumUpTo s 0x04 i 5 fun _ => true
            -- a COMPAT panel with a working region: every working copy is block-scaled (R218; DEDUCED, log entry 18)
            || (fld r 1 == 1 && (sect s 0x15).any fun w => fld w 1 == fld r 0)
  | 0x05 => quotaBad s i r
  | 0x06 => !reqDie s (18 + fld r 1) || twice s 0x06 i [0, 1] r
            || 16 < sumUpTo s 0x06 i 2 (fun x => fld x 1 == fld r 1) || 16 < sumUpTo s 0x06 i 3 fun x => fld x 1 == fld r 1
  | 0x07 => routeBad s i r
  | 0x08 => !reqDie s (fld r 0) || twice s 0x08 i [0, 1] r
            || (List.range 8).any fun p => bit (fld r 2) p && (linkPeer (fld r 0) p).isNone
  | 0x09 => mcGroupBad s i r
  | 0x0A => !reqDie s (fld r 0) || twice s 0x0A i [0] r || 160 < ((List.range 5).map fun t => fld r (1 + t)).sum
  | 0x0B => queueBad s i r
  | 0x0C => cringBad s i r
  | 0x0D => holdingBad s i r
  | 0x0E => ledgerBad s i r
  | 0x0F => muslinBad s i r
  | 0x10 => tableBad s i r
  | 0x11 => shardBad s i r
  | 0x12 => shadowBad s i r
  | 0x13 => streamBad s i r
  | 0x14 => schedBad s i r
  | 0x15 => workingBad s r
  | 0x16 => progBad s i r
  | 0x17 => ringBad s i r
  | 0x18 => twinBad s i r
  | _ => false

/-- What no single record of a section breaks, reported at RECORD 0 (DEDUCED, log entry 18). -/
def secBad (s : State) (code : Nat) : Bool :=
  match code with
  | 0x07 => routesShort s
  | 0x0F => (List.range 8).any fun k => reqDie s (18 + k) && (muslinRec s k).isNone
  | 0x17 => mapChanged s || (!(ringRecs s).isEmpty && fld ((ringRecs s).headD []) 0 != 0)
  | 0x18 => !(twinSect s).isEmpty && (twinHeader s).isNone
  | _ => false

/-- The first record of a section that is refused, from index i on. -/
def firstRec (s : State) (code : Nat) : Nat → List Rec → Option Nat
  | _, [] => none
  | i, r :: l => if recBad s code i r then some i else firstRec s code (i + 1) l

/-- The first failing (section, record) of the candidate in force, sections in ascending code (R330). -/
def checkImage (s : State) : Option (Nat × Nat) :=
  (List.range 0x19).findSome? fun code =>
    match firstRec s code 0 (sect s code) with
    | some i => some (code, i)
    | none => if secBad s code then some (code, 0) else none

end Sys2Proof.Machine
end

