-- ==== Sys2Proof/Machine/Image.lean ====
section
/-!
DEFINITION. Loading an image: the checks of R332, the commit point and the steps after it (R333 to R336), a takeover (R400 to R402) and a
hand-back (R405).
-/

namespace Sys2Proof.Machine

/-! Checks (R332). -/

/-- A refusal: STATUS, REASON, SECTION, RECORD. -/
abbrev LoadNo := Nat × Nat × Nat × Nat

/-- The part of far port p's range that is not installed (R48). -/
def farGap (s : State) (p : Nat) : Range :=
  (farBase + 0x40000000000 * p + gib * farGib s p, 0x40000000000 - gib * farGib s p)

/-- The first Far holding of a candidate that passes INSTALLED_GIB of a port it touches (R250), or the end of Far. -/
def farOverflow (s : State) : Option Nat :=
  let l := holdings s
  (List.range l.length).find? fun i =>
    let r := holdRange (l.getD i [])
    farBase ≤ r.1 && (farTop < r.1 + r.2 || (List.range 4).any fun p => meets r (farGap s p))

/-- The rows of R332 from SIGNATURE to CHECK, for a Cartouche and its image. A source whose read lost data fails its signature (DEDUCED, log
entry 18). -/
def imageChecks (s : State) (all : List Byte) (lost : Bool) : LoadNo ⊕ Image :=
  if lost || !cartVerifies s 3 all then .inl (stAuth, 0x04, 0, 0)
  else match parseImage (all.drop 0x4000) with
    | none => .inl (stMalformed, 0x05, 0, 0)
    | some i =>
      let c := withImage s i
      if i.serial < imgFloor s then .inl (stMalformed, 0x06, 0, 0)
      else if s.sec.fwVersion < i.minFw then .inl (stMalformed, 0x07, 0, 0)
      else if unitsMissing c then .inl (stAbsent, 0x08, 1, 0)
      else match farOverflow c with
        | some n => .inl (stMalformed, 0x09, 0x0D, n)
        | none =>
          match checkImage c with
          | some (code, n) => .inl (stMalformed, 0x0A, code, n)
          | none => .inr { i with cart := all.take 0x4000 }

/-- The source's row, and the rows after it. -/
def sourceChecks (s : State) (op : LoadOp) : (LoadNo ⊕ Image) × State :=
  if 2 ^ 28 + 0x4000 < op.srcLen then (.inl (stMalformed, 0x03, 0, 0), s)
  else match r21 s [(op.srcDa, op.srcLen)] with
    | some st => (.inl (st, 0x03, 0, 0), s)
    | none =>
      let (lost, s) := checkRead s op.srcDa op.srcLen
      (imageChecks s (srcBytes s op.srcDa op.srcLen) lost, s)

/-- The range in force that a carried holding of a candidate takes its bytes from (R335); in a takeover, the shadow range whose
LOCAL_ID it bears (R400). -/
def carrySource (s : State) (takeover : Bool) (r : Rec) : Option Range :=
  if fld r 4 != 1 then none
  else
    let shadow := if takeover then (twinSect s).find? fun x => fld x 0 == 1 && fld x 2 == fld r 0 && fld r 0 != 0 else none
    match shadow with
    | some x => some (areaDa s + fld x 3, fld x 4)
    | none =>
      ((holdings s).find? fun h => fld h 0 == fld r 0 && fld r 0 != 0 && fld h 1 == fld r 1 && fld h 2 == fld r 2).map holdRange

/-- The first carried holding that moves and lands on a holding in force (the CARRY row). -/
def carryBad (s : State) (takeover : Bool) (i : Image) : Option Nat :=
  let l := lookD i.sections 0x0D []
  (List.range l.length).find? fun n =>
    let r := l.getD n []
    match carrySource s takeover r with
    | none => false
    | some src => src.1 != fld r 5 && (holdings s).any fun h => meets (holdRange r) (holdRange h)

/-- CM.IMG_REASON. -/
def setReason (s : State) (why sec rec_ : Nat) : State := s.onImg fun i => { i with reason := why, section_ := sec, record := rec_ }

/-- A load refused: its record, and CM.IMG_REASON; depths written for it go (R45). -/
def refuseLoad (s : State) (h : Hdr) (n : LoadNo) : State :=
  complete ((setReason s n.2.1 n.2.2.1 n.2.2.2).onGz fun g => { g with newDepths := [] }) h cmdUnit n.1

/-- A load that passed the rows up to CHECK: CARRY, then it waits for the step boundary (R333 steps 4 to 6). -/
def stageLoad (s : State) (h : Hdr) (op : LoadOp) (kind : Nat) (i : Image) : State :=
  match carryBad s (kind == 1) i with
  | some n => refuseLoad s h (stMalformed, 0x0B, 0x0D, n)
  | none => (markStarted s h).onImg fun m => { m with staged := some { image := i, hdr := h, op := op, kind := kind } }

/-- A load, a takeover or a hand-back is under way (kind 0, 1, 2). -/
def loading (s : State) (f : Nat → Bool) : Bool := match s.img.staged with | some x => f x.kind | none => false

/-- IMAGE_LOAD, R333, up to its commit point; a later one waits while one is under way (R331). -/
def execImageLoad (h : Hdr) (t : Trailer) (op : LoadOp) (s : State) : Out :=
  .next (if h.queue = 0 && loading s (· == 0) then s
    else critical s h t fun s =>
      if h.queue != 0 then refuseLoad s h (stMalformed, 0x01, 0, 0)
      else if s.sec.fwState = fwWriting || s.sec.fwState = fwRestoring || s.img.staged.isSome then refuseLoad s h (stMalformed, 0x02, 0, 0)
      else
        match sourceChecks s op with
        | (.inl n, s) => refuseLoad s h n
        | (.inr i, s) => if op.checkOnly then refuseLoad s h (stDone, 0, 0, 0) else stageLoad s h op 0 i)

/-! Moving rows back (R333 step 6, R336). -/

/-- Bytes copied, with the POISON of the sectors they come from. -/
def copyMem (s : State) (src dst n : Nat) : State :=
  let bad := poisoned s src n
  let s := writeMem s dst (readBytes s.mem src n)
  if bad then poisonSectors s (sectorsOf dst n) else s

/-- A migrated or PAGED row back at its shard-map DA, its directory entry freed (DEDUCED, log entry 61). -/
def rowHome (s : State) (x : Nat × DirEntry) : State :=
  let (k, t, row) := (x.1 / 2 ^ 43, x.1 / 2 ^ 31 % 4096, x.1 % 2 ^ 31)
  match shardPlace s t row, tableRec s t with
  | some (_, da), some tr =>
    let s := if x.2.dest = da then s else bump (copyMem s x.2.dest da (rowBytes tr)) (18 + k) 0x11040
    storeDir s k t row { x.2 with dest := da, ledgerDie := ledgerOf k da, paged := false }
  | _, _ => s

/-- Pending entries of a die. -/
def pendOn (s : State) (k : Nat) : Nat := (s.mu.pend.filter fun e => e.1 / 2 ^ 43 == k).length

/-- Ledger contents that are lost at the commit point, counted in MU.FAULT_DROP_CNT: pending entries under DROP_PENDING (R336), and late
contributions folded into the open bank (R382). -/
def countDropped (s : State) : State :=
  (List.range 8).foldl (fun s k =>
    let late := (s.mu.entries.filter fun e => e.1 / 2 ^ 44 == k && e.2.late).length
      + (s.mu.denseLate.filter fun key => key / 512 == k).length
    bumpBy s (18 + k) 0x11030 (pendOn s k + late)) s

/-! Holdings (R335). -/

/-- Sparse cells of a range, moved by an offset. -/
def moved (c : FMap Byte) (src dst n : Nat) : FMap Byte := (c.filter fun p => src ≤ p.1 && p.1 < src + n).map fun p => (p.1 - src + dst, p.2)

/-- A range zeroed, its sectors sound. -/
def zeroRange (s : State) (r : Range) : State :=
  s.onMem fun m =>
    { m with cells := keep (fun a _ => !(r.1 ≤ a && a < r.1 + r.2)) m.cells,
             poison := m.poison.filter fun i => !(r.1 ≤ 64 * i && 64 * i < r.1 + r.2),
             latent := keep (fun i _ => !(r.1 ≤ 64 * i && 64 * i < r.1 + r.2)) m.latent }

/-- What a carried holding brings: its cells at their new place, and its POISON. -/
def carried (s : State) (takeover : Bool) (r : Rec) : FMap Byte × List Nat :=
  match carrySource s takeover r with
  | none => ([], [])
  | some src =>
    let n := min src.2 (fld r 6)
    (moved s.mem.cells src.1 (fld r 5) n,
     (s.mem.poison.filter fun i => src.1 ≤ 64 * i && 64 * i < src.1 + n).map fun i => (64 * i - src.1 + fld r 5) / 64)

/-- Posted far writes completed: the load drains every class before it carries (R333 step 8). -/
def settleFar (s : State) : State :=
  (s.mem.posted.foldl (fun s p => storeMem s p.da p.data) s).onMem fun m => { m with posted := [] }

/-- Holdings change over to those of a candidate (R335). -/
def changeHoldings (s : State) (takeover : Bool) (i : Image) : State :=
  let s := settleFar s
  let new := lookD i.sections 0x0D []
  let bring := new.map (carried s takeover)
  let s := new.foldl (fun s r => zeroRange s (holdRange r)) s
  s.onMem fun m => { m with cells := bring.foldl (fun c b => b.1.foldl (fun c p => writeCell c p.1 p.2) c) m.cells,
                            poison := bring.foldl (fun l b => insAll l b.2) m.poison }

/-- The ledgers of every Muslin die, directories and heavy-hitter tables empty (R333 steps 9 and 10). -/
def clearLedgers (s : State) : State :=
  s.onMu fun m =>
    { m with entries := [], pend := [], dense := [], denseLate := [], denseLost := [], patchWait := [], migrations := [], unreleased := [], closed := [], consumed := [], sealWait := [],
             sealing := [], gatherPos := [], dir := [], patches := [], heavy := [], heavyPrev := [], shadows := [], slotValid := [] }

/-! Structure (R333 steps 10 and 11, R334). -/

/-- The shadow bank of each router filled from ROUTES, and the banks swapped. -/
def loadRoutes (s : State) (i : Image) : State :=
  let bank (d : Nat) : Nat := 1 - activeBank s d
  let fresh_ := keep (fun key _ => key / 2 ^ 9 % 2 != bank (key / 2 ^ 10)) s.gz.routes
  let routes := (lookD i.sections 0x07 []).foldl (fun m r =>
    allDies.foldl (fun m dst => put m (routeKey (fld r 0) (bank (fld r 0)) (fld r 1) dst) (fld r 2 / 16 ^ dst % 16)) m) fresh_
  s.onGz fun g =>
    { g with routes := routes, bootBank := keep (fun d b => b != bank d) g.bootBank,
             active := ((allDies.filter (dieUp s)).foldl (fun m d => put m d (1 - activeBank s d)) g.active),
             mcast := (lookD i.sections 0x08 []).foldl (fun m r => put m (fld r 0 * 4096 + fld r 1) (fld r 2)) [] }

/-- New depths take effect with the swap; every port's credits are those of link training (R45, R303). -/
def loadDepths (s : State) (i : Image) : State :=
  let d0 := (lookD i.sections 0x0A []).foldl (fun m r => (List.range 5).foldl (fun m t => put m (fld r 0 * 8 + t) (fld r (1 + t))) m) []
  s.onGz fun g => { g with depths := g.newDepths.foldl (fun m p => put m p.1 p.2) d0, newDepths := [], credits := [], occupancy := [],
                           quarantined := [], mcRecv := [], mcPos := [], mcWin := [] }

/-- Queues and rings of the image in force: every defined queue ACTIVE at index 0, every ring at record 0, report slots reserved
(R319, R334). Queue 0 stays as it is (R328); its ring restarts as every ring does, with the slots its open commands have reserved. -/
def loadQueues (s : State) : State :=
  let s := s.onQm fun q =>
    { q with queues := (sect s 0x0B).foldl (fun m r => put m (fld r 0) freshQueue) (keep (fun k _ => k == 0) q.queues),
             rings := put [] ring0 { resv := (lookD q.rings ring0 {}).resv }, served := [] }
  (mcMembers s).foldl (fun s r => reserveSlot s (fld r 4)) s

/-- Streams at position 0 (R256, R334). -/
def loadStreams (s : State) : State :=
  s.onStreams fun _ => (sect s 0x13).foldl (fun m r => put m (fld r 0) ({ credits := fullCredits r } : Strm)) []

/-- Clock plan, generators, quotas and parts of the image in force (R54, R233, R249, R253). -/
def loadTables (s : State) : State :=
  let s := s.onCk fun c => { c with plan := (sect s 0x03).foldl (fun m r =>
    put m (fld r 0) (if isTw (fld r 0) then fld r 1 else 16 * fld r 2)) [] }
  let s := s.onTw fun t => { t with gens := [], seed := fld ((sect s 0x02).headD []) 0 }
  s.onImg fun i =>
    { i with quotas := (sect s 0x05).foldl (fun m r => put m (fld r 1 * 4 + fld r 2) (fld r 0)) [],
             parts := (sect s 0x06).foldl (fun m r =>
               put (put m (fld r 0 * 16 + fld r 1 * 2) (fld r 2)) (fld r 0 * 16 + fld r 1 * 2 + 1) (fld r 3)) [],
             farParts := (sect s 0x04).foldl (fun m r => put m (fld r 0) (fld r 5)) [] }

/-- The reset in progress of R372 ends, at PHASE 13, once an image with a RING section is in force after step 12 (R478). -/
def openRings (s : State) : State :=
  if (ringRecs s).isEmpty || s.sv.phase != 12 then s else (dropCause s causeReset).onSv fun v => { v with phase := 13 }

/-- Steps 10 and 11 of R333 for an image: the same for a load and for a reload (R482), queues apart. -/
def setUpImage (s : State) (i : Image) : State :=
  let s := loadDepths (loadRoutes s i) i
  let s := s.onImg fun m => { m with inForce := some i, staged := none }
  let s := loadStreams (loadTables s)
  let s := if (ringRecs s).isEmpty then s else s.onRings fun g => { g with map_ := ringRecs s }
  let s := resyncDatum s
  let s := openRings s
  -- no TWIN section, or a package that is not TWIN_CAPABLE: no pair (R397)
  if (twinSect s).isEmpty || !twinCapable s then
    (if s.twin.st = tsYielded then dropCause s causeSelvage else s).onTwin fun t => { t with st := tsUnpaired }
  else s

/-- Entries between head and tail of every queue but queue 0, never executed (R334). -/
def discarded (s : State) : Nat :=
  ((s.qm.queues.filter (·.1 != 0)).map fun q => match queueRec s q.1 with
    | some r => posDiff (queueSize r) (posNum (queueSize r) q.2.head q.2.headGen) (posNum (queueSize r) q.2.tail q.2.tailGen)
    | none => 0).sum

/-- The floor raised by a load with RAISE_FLOOR (R337). -/
def raiseFloor (s : State) (i : Image) : State := if i.raiseFloor then appendAlm s almImgFloor 1 (leBytes 4 i.serial) else s

/-- The commit point and steps 8 to 12 of R333, for the staged image. -/
def commit (s : State) (x : Staged) : State :=
  let s := bumpBy (bump s 0 0x31018) 0 0x31020 (discarded s)
  let s := (((sect s 0x04).map (fld · 0)).filter (panelFaulted s)).foldl resetPanel s
  let s := clearLedgers (changeHoldings (countDropped s) (x.kind == 1) x.image)
  let s := loadQueues (setUpImage s x.image)
  setReason (raiseFloor s x.image) 0 0 0

/-! After the load. -/

/-- An IMAGE_LOAD ends: a PAIRED pair starts its base copies anew, and a YIELDED package whose twin it can hear goes RETURNING (R397). -/
def endLoad (s : State) (x : Staged) : State :=
  let s := if s.twin.st = tsPaired then enterBase s tsBase true
    else if s.twin.st = tsYielded && twinUp s then enterBase s tsReturning false
    else s
  complete s x.hdr cmdUnit stDone

/-- A takeover ends (R402 step 4): ALIAS(twin → SELF), the pair SERVING. -/
def endTakeover (s : State) (x : Staged) : State :=
  let torn := s.twin.torn
  let s := flood s { kind := 3, dev := myTwin s, aux := selfDev s, step := 0, orig := selfDev s }
  let s := s.onTwin fun t => { t with st := tsServing, torn := false, converged := false, log := [] }
  complete s x.hdr cmdUnit (if torn then stPartial else stDone)

/-- Messages to the twin: 1 YIELD, 2 the step number of a hand-back. -/
def tellTwin (s : State) (m : Nat) : State := if twinUp s then s.onTwin fun t => { t with outbox := t.outbox ++ [m] } else s

/-- A hand-back ends (R405): ALIAS(twin → twin), the step number to the twin, both packages in BASE, a base copy toward the returned
package only. -/
def endHandback (s : State) (x : Staged) : State :=
  let step := s.twin.shadowStep
  let s := flood s { kind := 3, dev := myTwin s, aux := myTwin s, step := 0, orig := selfDev s }
  let s := tellTwin s 2
  let s := enterBase s tsBase true
  -- the shadow equals the returned copy: the other direction is ready at the next END
  let s := s.onTwin fun t => { t with shadowStep := step, shadowSet := true, baseEnds := List.range 8 }
  complete s x.hdr cmdUnit stDone

/-- COMMIT_POINT, R334: once the package is quiet, migrated rows move home; pending entries refuse the load unless DROP_PENDING is set;
else the staged image takes force. A takeover and a hand-back carry no DROP_PENDING, and pending entries refuse them (DEDUCED, log entry 18). -/
def execCommitPoint (s : State) : Out :=
  .next (match s.img.staged with
    | none => s
    | some x =>
      if !quiesced s x then s
      else
        let s := s.mu.dir.foldl rowHome s
        if !s.mu.pend.isEmpty && !(x.op.dropPending && x.kind == 0) then
          refuseLoad (s.onImg fun m => { m with staged := none }) x.hdr (stMalformed, 0x0C, 0, 0)
        else
          let s := (commit s x).onImg fun m => { m with loaded := some x.hdr }
          match x.kind with
          | 0 => endLoad s x
          | 1 => endTakeover s x
          | _ => endHandback s x)

/-! Takeover and hand-back. -/

/-- A firmware update is in progress. -/
def fwBusy (s : State) : Bool := s.sec.fwState == fwWriting || s.sec.fwState == fwRestoring

/-- The rows of R401 before the image's own. -/
def takeoverNo (s : State) (op : LoadOp) : Option Nat :=
  if !twinCapable s then some stAbsent
  else if (s.twin.st != tsPaired && s.twin.st != tsOrphaned) || s.img.staged.isSome || fwBusy s then some stMalformed
  else if (peerOf s (myTwin s)).st == peerLive then some stMalformed
  else if !s.twin.shadowSet then some stMalformed
  else if s.twin.torn && !op.dropPending then some stMalformed
  else none

/-- TWIN_TAKEOVER, R402: its checks, then YIELD to the twin, every complete step applied, and the standby image staged. -/
def execTwinTakeover (h : Hdr) (t : Trailer) (op : LoadOp) (s : State) : Out :=
  .next (critical s h t fun s =>
    match takeoverNo s op with
    | some st => complete s h cmdUnit st
    | none =>
      match sourceChecks s op with
      | (.inl n, s) => refuseLoad s h n
      | (.inr i, s) =>
        if (carryBad s true i).isSome then stageLoad s h op 1 i
        else
          let s := applyReady (tellTwin s 1) (s.twin.log.length + 1)
          let s := s.onTwin fun t => { t with takeover := t.shadowStep, log := [] }
          stageLoad s h op 1 i)

/-- TN_HANDBACK, R405. -/
def execTnHandback (h : Hdr) (op : LoadOp) (s : State) : Out :=
  .next (runDesc s h fun s =>
    if h.queue != 0 || !serves s || !s.twin.converged || s.img.staged.isSome || fwBusy s then complete s h cmdUnit stMalformed
    else
      match sourceChecks s op with
      | (.inl n, s) => refuseLoad s h n
      | (.inr i, s) => stageLoad s h op 2 i)

end Sys2Proof.Machine
end

