-- ==== Sys2Proof/Machine/StreamOps.lean ====
section
/-!
DEFINITION. Operations on streams (R255 to R263): windows and positions, what a mover produces, releases and credits, and how a consumer's
read meets a window. A mover produces as soon as space, credits and its schedule allow (DESIGN CHOICE, log entry 19).
-/

namespace Sys2Proof.Machine

/-! Positions (R256). -/

/-- Bytes written and not released. -/
def strmWritten (x : Strm) : Nat := (x.wpos + 2 ^ 64 - x.rel) % 2 ^ 64

/-- A stream's window lies in a core of another panel than its own: what is written there is discarded (R123). -/
def winForeign (s : State) (r : Rec) : Bool := coreConsumer r && panelOfCore s (fld r 5) != some (fld r 1)

/-- Bytes written into a window at an offset, inside the window. A core of another panel discards their flits, and counts them (R123). -/
def winPut (s : State) (r : Rec) (off : Nat) (bs : List Byte) : State :=
  if winForeign s r then bumpCore s (fld r 5) 0x28 (ceilDiv bs.length 192)
  else if coreConsumer r then cbWrite s (fld r 5) (fld r 11 + off) bs else writeMem s (fld r 11 + off) bs

/-- Bytes written at a stream position: past the window's end they continue at its start. -/
def winWrite (s : State) (r : Rec) (p : Nat) (bs : List Byte) : State :=
  let w := winBytes r
  let o := p % w
  let s := winPut s r o (bs.take (w - o))
  if bs.length ≤ w - o then s else winPut s r 0 (bs.drop (w - o))

/-- A write of n bytes at a stream position meets an uncorrectable word of its core buffer (R108). -/
def winBad (s : State) (r : Rec) (p n : Nat) : Bool :=
  let w := winBytes r
  let o := p % w
  coreConsumer r && !winForeign s r && (cbWriteBad s (fld r 5) (fld r 11 + o) (min n (w - o)) || cbWriteBad s (fld r 5) (fld r 11) (n - (w - o)))

/-- The panel fault that such a write raises at its core. -/
def windowFault (bad : Bool) (r : Rec) (s : State) : State := if bad then panelFaultAt s (fld r 5) else s

/-- n bytes of a window at a stream position. -/
def winRead (s : State) (r : Rec) (p n : Nat) : List Byte :=
  (List.range n).map fun i =>
    let o := fld r 11 + (p + i) % winBytes r
    if coreConsumer r then lookD s.tw.cb (cbKey (fld r 5) o) 0 else readByte s.mem o

/-! What may be written now (R256, R259). -/

/-- Bytes a producer may write at once: window space, and in CREDIT mode the rest of a chunk begun and whole chunks for the credits. -/
def strmRoom (r : Rec) (x : Strm) : Nat :=
  let space := winBytes r - strmWritten x
  if fld r 3 = 0 then space
  else
    let c := chunkBytes r
    min space ((if x.wpos % c = 0 then 0 else c - x.wpos % c) + x.credits * c)

/-- Positions after n more bytes are written: a chunk's first byte takes a credit, and in CREDIT mode FILL advances over whole chunks. -/
def strmWrote (r : Rec) (n : Nat) (x : Strm) : Strm :=
  let w := (x.wpos + n) % 2 ^ 64
  if fld r 3 = 0 then { x with wpos := w, fill := w }
  else
    let c := chunkBytes r
    { x with wpos := w, fill := w / c * c, credits := x.credits - (ceilDiv (x.wpos + n) c - ceilDiv x.wpos c) }

/-! The schedule (R255, R257, R263). -/

/-- Entry seg of a stream's schedule: its WRAP bit and pieces, as installed by ST_REARM or as the image gives it. -/
def segOf (s : State) (r : Rec) (x : Strm) (seg : Nat) : Bool × List Range :=
  match look x.sched seg with
  | some e => e
  | none =>
    let q := (sect s 0x14).getD (fld r 12 + seg) []
    (fld q 0 == 1, schedPieces q)

/-- The parts of pieces from a byte on, for n bytes. -/
def cutPieces : List Range → Nat → Nat → List Range
  | [], _, _ => []
  | (a, len) :: ps, skip, n =>
    if len ≤ skip then cutPieces ps (skip - len) n
    else
      let m := min (len - skip) n
      if m = 0 then [] else (a + skip, m) :: cutPieces ps 0 (n - m)

/-- Ranges read with their check bits, one after another. -/
def checkReads (s : State) (rs : List Range) : Bool × State :=
  rs.foldl (fun x r => let y := checkRead x.2 r.1 r.2; (x.1 || y.1, y.2)) (false, s)

/-- Ranges cut at their sectors. -/
def sectorParts (rs : List Range) : List Range :=
  rs.flatMap fun q => (sectorsOf q.1 q.2).map fun i => (max q.1 (64 * i), min (q.1 + q.2) (64 * i + 64) - max q.1 (64 * i))

/-- Parts of sectors read in order until one loses its data: the bytes before it, and whether there is one (R258). -/
def readUpTo (s : State) : List Range → Nat × Bool × State
  | [] => (0, false, s)
  | q :: l =>
    let (lost, s) := readSector s (q.1 / 64)
    if lost then (0, true, s)
    else
      let (n, b, s) := readUpTo s l
      (q.2 + n, b, s)

/-- The schedule entry that a restart asked for while one was in progress takes over once that one ends (R263). -/
def takeRestart (s : State) (n : Nat) (r : Rec) : State :=
  match (strmOf s n).rearm.find? (·.2.restart) with
  | none => s
  | some (h, o) =>
    let s := setStrm s n fun x => { restarted r o.seg x with rearm := x.rearm.filter fun y => !sameDesc y.1 h }
    match findDisp s h with | some d => complete s h d.unit stDone | none => s

/-! Receivers of multicast (R317 to R320). -/

/-- The receiver of a group on this package whose window a stream is. -/
def mcOfStream (s : State) (n : Nat) : Option Rec := (mcMembers s).find? fun m => fld m 6 == 0 && fld m 5 == n

/-- A WRITE_ACK with ACKED, and RESUME, sent to a group's source (R317, R318). -/
def sendAcked (s : State) (m : Rec) (acked : Nat) (resume : Bool) : State :=
  sendFlit s { op := 0x05, tc := 1, dst := fld m 2, src := fld m 3, panel := fld m 1, mgroup := fld m 0,
               oparg := acked % 2 ^ 48 + 2 ^ 63 * b2n resume }

/-- The position below which every byte is held, once ranges above it have joined it; fuel ranges. -/
def absorb : Nat → Nat → List Range → Nat × List Range
  | 0, h, l => (h, l)
  | k + 1, h, l =>
    match l.find? fun x => x.1 ≤ h with
    | some x => absorb k (max h x.2) (l.erase x)
    | none => (h, l)

/-- A receiver holds the bytes from lo up to hi too. -/
def McRecv.hold (v : McRecv) (lo hi : Nat) : McRecv :=
  let (h, l) := absorb (v.above.length + 1) v.held ((lo, hi) :: v.above)
  { v with held := h, above := l }

/-- Bytes of a group's stream now in a receiver's window: FILL follows those held without a gap, and each 64 KiB of them is acknowledged
(R317). -/
def mcHold (s : State) (m : Rec) (lo hi : Nat) : State :=
  let v := mcRecvOf s m
  let h := (v.hold lo hi).held
  let s := setRecv s m fun v => v.hold lo hi
  let s := setStrm s (fld m 5) fun x => { x with fill := h, wpos := h, st := if x.st = sIdle then sRun else x.st }
  if v.held / 65536 < h / 65536 then sendAcked s m h false else s

/-- Bytes that a stream's mover may produce now: all that its window takes; for a receiver of multicast, those of its gap alone, from what
it holds up to where it has rejoined (R320). -/
def moverRoom (s : State) (n : Nat) (r : Rec) : Nat :=
  let x := strmOf s n
  match mcOfStream s n with
  | none => strmRoom r x
  | some m => if (mcRecvOf s m).attached then min (strmRoom r x) ((mcRecvOf s m).join - x.wpos) else 0

/-! Production. -/

/-- A stretch of a schedule entry read and written into the window, as far as its sectors hold their data; a lost one aborts the stream, with
the bytes below it visible (R258, R260). -/
def produceBytes (s : State) (n : Nat) (r : Rec) (e : Bool × List Range) (m : Nat) : State :=
  let x := strmOf s n
  let rs := cutPieces e.2 x.segPos m
  let (k, lost, s) := readUpTo s (sectorParts rs)
  let bad := winBad s r x.wpos k
  let s := winWrite s r x.wpos ((rs.flatMap fun q => readBytes s.mem q.1 q.2).take k)
  let s := windowFault bad r <| setStrm s n fun x => strmWrote r k { x with segPos := x.segPos + k, cur := some e }
  if lost && (strmOf s n).st != sAborted then abortStream s n stEcc else s

/-- The entry in progress has ended: a restart that waits takes over, else the next entry begins. -/
def nextSeg (s : State) (n : Nat) (r : Rec) : State :=
  takeRestart (setStrm s n fun x => { x with seg := x.seg + 1, segPos := 0, cur := none }) n r

/-- One stretch of production of a stream whose record is r: none when nothing more can be produced now. -/
def produce (s : State) (n : Nat) (r : Rec) : Option State :=
  let x := strmOf s n
  if x.st != sRun && x.st != sFull then none
  else if fld r 10 ≤ x.seg then
    let t := takeRestart s n r
    if (strmOf t n).seg = x.seg then none else some t
  else
    -- an entry in progress goes on with the pieces it began with (R263)
    let e := x.cur.getD (segOf s r x x.seg)
    let len := (e.2.map (·.2)).sum
    let room := moverRoom s n r
    -- WRAP: FILL first advances to the next multiple of WSZ (R257)
    let pad := if e.1 && x.segPos = 0 && x.wpos % winBytes r != 0 then winBytes r - x.wpos % winBytes r else 0
    if 0 < pad then (if room < pad then none else some (setStrm s n fun x => strmWrote r pad { x with cur := some e }))
    else if x.segPos < len && room = 0 then none
    else
      let s := produceBytes s n r e (min (len - x.segPos) room)
      some (if (strmOf s n).st != sAborted && (strmOf s n).segPos = len then nextSeg s n r else s)

/-- The state a stream shows once its producer has stopped: IDLE at the end of a mover's schedule, FULL without room, RUN otherwise. -/
def settleStrm (s : State) (n : Nat) (r : Rec) : State :=
  let x := strmOf s n
  if (x.st == sRun || x.st == sFull) && fld r 10 ≤ x.seg && fld r 2 = 0 then setStrm s n fun x => { x with st := sIdle }
  else showFull s n r (strmRoom r x == 0)

/-- Production, at most fuel stretches. -/
def produceAll (n : Nat) (r : Rec) : Nat → State → State
  | 0, s => s
  | k + 1, s => match produce s n r with | some t => produceAll n r k t | none => s

/-- What a receiver's own mover has fetched of its gap counts as held (R320). -/
def catchUp (s : State) (n : Nat) : State :=
  match mcOfStream s n with
  | some m => if (mcRecvOf s m).held < (strmOf s n).wpos then mcHold s m (mcRecvOf s m).held (strmOf s n).wpos else s
  | none => s

/-- A MOVER stream produces what it may. Each schedule entry takes two stretches at most between two waits. -/
def pump (s : State) (n : Nat) : State :=
  match streamRec s n with
  | none => s
  | some r =>
    if fld r 2 != 0 || !dieUp s (consumerDie r) || unitFenced s (moverUnit (consumerDie r)) then s
    else catchUp (settleStrm (produceAll n r (4 * fld r 10 + 4) s) n r) n

/-! Releases (R256, R259, R260). -/

/-- A receiver that discarded flits asks for a replay once its window has room for 64 KiB past ACKED (R318; DEDUCED, log entry 20). -/
def askReplay (s : State) (n : Nat) (r : Rec) : State :=
  match mcOfStream s n with
  | none => s
  | some m =>
    let v := mcRecvOf s m
    if v.attached && v.discarded && strmHeld (strmOf s n) + 65536 ≤ winBytes r then
      sendAcked (setRecv s m fun v => { v with discarded := false, resume := true }) m v.held true
    else s

/-- Whole chunks that the release of bytes ends. -/
def chunksFreed (r : Rec) (x : Strm) (bytes : Nat) : Nat := (x.rel + bytes) / chunkBytes r - x.rel / chunkBytes r

/-- A REG_WRITE of a stream's credit or FILL to a die of another device (R259, R383; DESIGN CHOICE, log entry 33). -/
def sendStrmReg (s : State) (dev die stream : Nat) (payload : List Byte) : State :=
  match routeDie (ringRoute s dev) with
  | some link => sendRemote s link dev die { op := 0x08, tc := 2, dst := die, src := link, oparg := stream, plen := payload.length,
                                                        payload := payload }
  | none => s

/-- Chunk credits of a REMOTE stream go to the device that produces into it, one for each chunk freed (R259, R383). -/
def sendCredits (s : State) (n k : Nat) (r : Rec) : State :=
  match fld r 2, (strmOf s n).producer with
  | 2, some (dev, die) => (List.range k).foldl (fun s _ => sendStrmReg s dev die n []) s
  | _, _ => s

/-- REL advances: whole chunks released give credits, and the producer goes on. -/
def releaseBytes (s : State) (n bytes : Nat) (r : Rec) : State :=
  let k := chunksFreed r (strmOf s n) bytes
  let s := setStrm s n fun x =>
    { x with rel := (x.rel + bytes) % 2 ^ 64, credits := if fld r 3 = 1 then x.credits + k else x.credits,
             st := if x.st = sFull then sRun else x.st }
  askReplay (pump (sendCredits s n k r) n) n r

/-! Consumer reads (R257, R261). -/

/-- Windows in the buffer of core g. -/
def coreWindows (s : State) (g : Nat) : List Rec := (sect s 0x13).filter fun r => fld r 4 == 0 && fld r 5 == g

/-- How the reads of a descriptor meet windows: a range crossing an end first, then an aborted stream, then a wait. -/
def winMeets (s : State) (wins : List Rec) (rs : List Range) : WinRead :=
  let l := rs.flatMap fun q => if q.2 = 0 then [] else wins.filterMap fun r => winMeet s r q.1 q.2
  if l.contains .bad then .bad
  else match l.find? fun x => match x with | .aborted _ => true | _ => false with
    | some a => a
    | none => if l.contains .wait then .wait else .ok

end Sys2Proof.Machine
end

