-- ==== Sys2Proof/Machine/Twill.lean ====
section
/-!
DEFINITION. The Twill operations: TW_MATMUL and TW_DRAIN (R128 to R130, R148 to R150), TW_MAX and TW_MIN (R144 to R146).
-/

namespace Sys2Proof.Machine

/-! Checks (R77, R78, R114, R130, R133). -/

/-- The largest K, N and M of an operation (R114, R128). -/
def depthMax (o : MatmulOp) : Nat :=
  if packedPair o.wSpec o.aSpec then (if o.arr then 128 else 512) else (if o.arr then 64 else 256)
def colMax (o : MatmulOp) : Nat := if o.arr then 4096 else 256
def rowMax (o : MatmulOp) : Nat := if o.arr then 512 else 1024

/-- The output specifier is valid for a drain of N columns. -/
def outSpecOk (o : MatmulOp) : Bool := specResOk o.oSpec && dimOk o.oSpec o.n && startOk o.oSpec o.oOff

/-- The specifiers of a TW_MATMUL are valid: R77, R78, R114, and O_SPEC under DRAIN. -/
def matSpecOk (compat : Bool) (o : MatmulOp) : Bool :=
  specSrcOk o.wSpec && specSrcOk o.aSpec && pairOk compat o.wSpec o.aSpec && dimOk o.wSpec o.k && dimOk o.aSpec o.k
  && startOk o.wSpec o.wOff && startOk o.aSpec o.aOff && (!o.drain || outSpecOk o)

/-- Weight, activation and scale ranges an operation reads. Under W_REUSE the weights are no input (DESIGN CHOICE, log entry 83). -/
def inRanges (o : MatmulOp) : List Range := (if o.wReuse then [] else weightRanges o) ++ actRanges o

/-- The weight tag matches the descriptor (R113); a change of arrangement has invalidated it (R120). -/
def tagMatches (c : Core) (o : MatmulOp) : Bool :=
  c.tagValid && c.arr == o.arr && c.tagArr == o.arr && c.tagOff == o.wOff && c.tagSpec == o.wSpec && c.tagK == o.k && c.tagN == o.n

/-- The shadow pool that lies in core g's buffer (R180). -/
def poolRanges (s : State) (g : Nat) : List Range :=
  match shadowPool s (coreDie g) with
  | some r => if fld r 1 = g % 4 then [(fld r 3, fld r 2 * slotBytes s g)] else []
  | none => []

/-- Output ranges in core g's buffer that no descriptor may name: past its end, or in its shadow pool (R180; DEDUCED, log entry 92). -/
def outBad (s : State) (g : Nat) (rs : List Range) : Bool := cbPast rs || anyMeet rs (poolRanges s g)

/-- R130 for a TW_MATMUL: the first check that refuses. -/
def matmulRefusal (s : State) (h : Hdr) (o : MatmulOp) : Option Nat :=
  let compat := coreCompat s o.core
  firstBad [
    (slotShort h (b2n (specBlock o.wSpec || specBlock o.aSpec || (o.drain && specBlock o.oSpec))), stMalformed),
    (!dieUp s (coreDie o.core), stAbsent),
    (panelOfCore s o.core != panelOfQueue s h.queue || (panelOfCore s o.core).isNone, stMalformed),
    (!matSpecOk compat o, stMalformed),
    (o.k == 0 || o.n == 0 || o.m == 0 || depthMax o < o.k || colMax o < o.n || rowMax o < o.m, stMalformed),
    (!o.acc && !compat && (o.anchor < -384 || 320 < o.anchor), stMalformed),
    (o.arr && 7 < o.tile + ceilDiv o.m 64 - 1, stMalformed),
    (cbPast (inRanges o) || (o.drain && (outBad s o.core (outRanges o) || anyMeet (outRanges o) (inRanges o)))
      || matScalesBad o || (o.drain && outScalesBad o), stMalformed),
    (o.wReuse && !tagMatches (coreOf s o.core) o, stMalformed)]

/-- R130 for a TW_DRAIN, which has no weights, activations or K. -/
def drainRefusal (s : State) (h : Hdr) (o : MatmulOp) : Option Nat :=
  firstBad [
    (slotShort h (b2n (specBlock o.oSpec)), stMalformed),
    (!dieUp s (coreDie o.core), stAbsent),
    (panelOfCore s o.core != panelOfQueue s h.queue || (panelOfCore s o.core).isNone, stMalformed),
    (!outSpecOk o, stMalformed),
    (o.n == 0 || o.m == 0 || colMax o < o.n || rowMax o < o.m, stMalformed),
    (o.arr && 7 < o.tile + ceilDiv o.m 64 - 1, stMalformed),
    (outBad s o.core (outRanges o) || outScalesBad o, stMalformed)]

/-! The scoreboard (R148, R149). -/

/-- A dispatched TW_MATMUL or TW_DRAIN on a core names one of these tiles. -/
def namesTile (core : Nat) (ts : List Nat) (d : Disp) : Bool :=
  match d.cmd with
  | .twMatmul _ o => o.core == core && (namedTiles o).any ts.contains
  | .twDrain _ o => o.core == core && (namedTiles o).any ts.contains
  | _ => false

/-- A tile the operation names is in flight: an earlier dispatched operation names it. -/
def tilesInFlight (s : State) (h : Hdr) (o : MatmulOp) : Bool :=
  match findDisp s h with
  | none => s.qm.disp.any (namesTile o.core (namedTiles o))
  | some _ => (s.qm.disp.takeWhile fun d => !sameDesc d.hdr h).any (namesTile o.core (namedTiles o))

/-- A tile the operation names is STALE. -/
def anyStale (s : State) (o : MatmulOp) : Bool := (namedTiles o).any fun t => (tileOf s o.core t).stale

/-- The unit may look at the descriptor: not armed for a Datum to come, and not fenced. -/
def mayBegin (s : State) (h : Hdr) : Bool :=
  match findDisp s h with
  | none => true
  | some d => (d.started || !d.armed) && !unitFenced s d.unit

/-- TILE_ALIAS (R149). -/
def tileAlias (s : State) (h : Hdr) (core : Nat) : State :=
  complete (setSticky (bumpCore s core 0xD0 1) (srcOfUnit (coreUnit core))) h (coreUnit core) stAlias

/-! Execution. -/

/-- An uncorrectable word of a core buffer: a panel fault at core g (R108, R125). -/
def coreFault (s : State) (h : Hdr) (g : Nat) : State :=
  let listed := (findDisp s h).isSome
  let s := panelFaultAt s g
  if listed then s else complete s h (coreUnit g) stAbortPanel

/-- The shadow registers hold the descriptor's weight set (R112). -/
def preloaded (s : State) (h : Hdr) (o : MatmulOp) : Bool :=
  !o.wReuse && (coreOf s o.core).shadowFull && (coreOf s o.core).shadowFor == descKey h && (coreOf s o.core).arr == o.arr

/-- What the operation reads when it starts: its weights too, unless they are loaded already. -/
def startRanges (s : State) (h : Hdr) (o : MatmulOp) : List Range := if preloaded s h o then actRanges o else inRanges o

/-- The weight set becomes active (R112, R113): the one in the shadow registers where they hold it, and the tag names it. The ACLK cycles
waited are a free value (DESIGN CHOICE, log entry 2). -/
def loadWeights (s : State) (h : Hdr) (o : MatmulOp) : State :=
  let ws := if preloaded s h o then (coreOf s o.core).shadow else weightSet s.tw o
  let s := setCore s o.core fun c =>
    { c with arr := o.arr, shadowFull := false, shadow := [], shadowFor := 0, tagValid := true, tagOff := o.wOff, tagSpec := o.wSpec,
             tagK := o.k, tagN := o.n, tagArr := o.arr, weights := ws }
  bumpCore s.took o.core 0x18 (fresh s % 2 ^ 20)

/-- A core takes an arrangement: a change discards the tag and the loaded set (R120). -/
def arrange (s : State) (g : Nat) (arr : Bool) : State :=
  if (coreOf s g).arr = arr then s
  else setCore s g fun c => { c with arr := arr, shadowFull := false, shadow := [], shadowFor := 0, tagValid := false }

/-- The TW_MATMUL that a core starts after a descriptor. -/
def nextMatmul (s : State) (g : Nat) (h : Hdr) : Option (Disp × MatmulOp) :=
  s.qm.disp.findSome? fun d =>
    if d.unit != coreUnit g || d.started || sameDesc d.hdr h then none
    else match d.cmd with | .twMatmul _ o => some (d, o) | _ => none

/-- Its weights may be loaded while operation o computes (R112): it loads a set in the core's arrangement, nothing refuses it, its bytes are
there, and o writes none of them (DESIGN CHOICE, log entry 93). -/
def mayLoad (s : State) (o : MatmulOp) (x : Disp × MatmulOp) : Bool :=
  !x.1.armed && !x.2.wReuse && x.2.arr == o.arr && (matmulRefusal s x.1.hdr x.2).isNone
  && winMeets s (coreWindows s o.core) (weightRanges x.2) == .ok && !(o.drain && anyMeet (weightRanges x.2) (outRanges o))

/-- The next descriptor's weights loaded into the shadow registers (R112); true when a word is uncorrectable (R108). -/
def loadShadow (s : State) (h : Hdr) (o : MatmulOp) : Bool × State :=
  match nextMatmul s o.core h with
  | none => (false, s)
  | some x =>
    if !mayLoad s o x then (false, s)
    else
      let (bad, s) := cbCheck s o.core (weightRanges x.2)
      (bad, setCore s o.core fun c => { c with shadowFull := true, shadow := weightSet s.tw x.2, shadowFor := descKey x.1.hdr })

/-- A TW_MATMUL past its checks: tiles started, weights made active, the next descriptor's loaded meanwhile, rows streamed, and the drain. -/
def runMatmul (s : State) (h : Hdr) (o : MatmulOp) : State :=
  let g := o.core
  let compat := coreCompat s g
  let s := arrange s g o.arr
  let (bad, s) := cbCheck s g (startRanges s h o)
  if bad then coreFault s h g
  else
    let s := if o.acc then s else (namedTiles o).foldl (fun s t => startTile s g (if compat then none else some o.anchor) t) s
    let s := if o.wReuse then s else loadWeights s h o
    let (bad, s) := if (coreOf s g).shadowFull then (false, s) else loadShadow s h o
    if bad then coreFault s h g
    else
      let s := bumpCore s g 0x10 (o.m * passes o.wSpec o.aSpec * if o.arr then 4 else 1)
      let s := streamRows s o compat (coreOf s g).weights 0 (actRows s.tw o)
      let (bad, s) := if o.drain then drainRows s o compat (List.range o.m) else (false, s)
      if bad then coreFault s h g else complete s h (coreUnit g) stDone

/-- A TW_MATMUL that ends without having run: a set loaded for it goes (R148), and after STALL_BUDGET its tiles are STALE (R150). -/
def endMatmul (s : State) (h : Hdr) (o : MatmulOp) (st : Nat) : State :=
  let s := dropShadow s o.core h
  let s := if st = stStall then staleTiles s o.core o.tile (if o.arr then ceilDiv o.m 64 else 1) else s
  complete s h (coreUnit o.core) st

/-- What a dispatched descriptor waits for in the windows of streams (R257). -/
def setWaits (s : State) (h : Hdr) (rs : List Range) : State :=
  s.onQm fun q => { q with disp := q.disp.map fun d => if sameDesc d.hdr h then { d with waits := rs } else d }

/-- The tiles of an operation that continues on them must not be STALE. -/
def staleBad (s : State) (o : MatmulOp) (cont : Bool) : Bool := cont && anyStale s o

/-- TW_MATMUL, R128: an INDEP operation meets earlier ones at once, the others in issue order. -/
def execTwMatmul (h : Hdr) (op : MatmulOp) (s : State) : Out :=
  .next (if op.indep && mayBegin s h && (matmulRefusal s h op).isNone && tilesInFlight s h op then tileAlias s h op.core
    else runDesc s h fun s =>
      match matmulRefusal s h op with
      | some st => endMatmul s h op st
      | none =>
        if tilesInFlight s h op then s
        else if staleBad s op op.acc then endMatmul s h op stMalformed
        else match winMeets s (coreWindows s op.core) (startRanges s h op) with
          | .bad => endMatmul s h op stMalformed
          | .wait => setWaits s h (startRanges s h op)
          | .aborted st => endMatmul s h op st
          | .ok => runMatmul s h op)

/-- TW_DRAIN, R129. One whose ARR differs from the core's changes its arrangement too, and discards the tag (R120; DESIGN CHOICE, log entry
89). -/
def execTwDrain (h : Hdr) (op : MatmulOp) (s : State) : Out :=
  .next (runDesc s h fun s =>
    match drainRefusal s h op with
    | some st => complete s h (coreUnit op.core) st
    | none =>
      if tilesInFlight s h op then s
      else if staleBad s op true then complete s h (coreUnit op.core) stMalformed
      else
        let (bad, s) := drainRows (arrange s op.core op.arr) op (coreCompat s op.core) (List.range op.m)
        if bad then coreFault s h op.core else complete s h (coreUnit op.core) stDone)

/-! TW_MAX and TW_MIN (R144 to R146). -/

/-- GRAD and OVF of S_SPEC are ignored. -/
def maxSpec (o : MaxOp) : Nat := o.sSpec % 32

/-- Source elements, and the ranges read and written. -/
def maxElems (o : MaxOp) : Nat := o.segLen * o.segs
def maxSource (o : MaxOp) : List Range :=
  (o.sOff, elemBytes (maxSpec o) (maxElems o)) :: if specBlock (maxSpec o) then [(o.sScaleOff, maxElems o / 32)] else []

/-- R144: the first check that refuses. -/
def maxRefusal (s : State) (h : Hdr) (o : MaxOp) : Option Nat :=
  firstBad [
    (!dieUp s (coreDie o.core), stAbsent),
    (panelOfCore s o.core != panelOfQueue s h.queue || (panelOfCore s o.core).isNone, stMalformed),
    (!specSrcOk (maxSpec o) || !startOk (maxSpec o) o.sOff, stMalformed),
    (specBlock (maxSpec o) && o.segLen % 32 != 0, stMalformed),
    (fmtWidth (specFmt (maxSpec o)) == 6 && o.segLen % 4 != 0, stMalformed),
    (o.segLen == 0 || o.segs == 0, stMalformed),
    (cbPast (maxSource o) || outBad s o.core [(o.oOff, 8 * o.segs)], stMalformed),
    ((match maxSource o with | [a, b] => meets a b | _ => false) || anyMeet (maxSource o) [(o.oOff, 8 * o.segs)], stMalformed)]

/-- A candidate beats the winner so far: strictly above for TW_MAX, strictly below for TW_MIN; a NaN beats what is no NaN. -/
def beats (low : Bool) (best v : Val) : Bool :=
  match best with
  | .nan => false
  | _ => v == .nan || (if low then Val.lt v best else Val.lt best v)

/-- The position and value of a segment's winner (R145). -/
def winner (low abs : Bool) (vs : List Val) : Nat :=
  let key (v : Val) : Val := if abs then v.abs else v
  match vs with
  | [] => 0
  | v :: r =>
    (r.foldl (fun (x : Nat × Val × Nat) v => if beats low x.2.1 (key v) then (x.2.2, key v, x.2.2 + 1) else (x.1, x.2.1, x.2.2 + 1))
      (0, key v, 1)).1

/-- The record of a segment whose first element is number base (R146). -/
def maxRecord (s : State) (o : MaxOp) (low : Bool) (base : Nat) : List Byte :=
  let x := maxSpec o
  let w := fmtWidth (specFmt x)
  let bs := cbRead s.tw o.core (o.sOff + base * w / 8) (elemBytes x o.segLen + 8)
  let cs := (List.range o.segLen).map fun j => ofLe ((bs.drop ((base * w % 8 + w * j) / 8)).take 5) / 2 ^ ((base * w % 8 + w * j) % 8) % 2 ^ w
  let scs := (cbRead s.tw o.core (o.sScaleOff + base / 32) (o.segLen / 32)).map BitVec.toNat
  let i := winner low o.abs (elemVals x cs scs)
  let sc := if specBlock x then scs.getD (i / 32) 0x7F else 0x7F
  leBytes 8 (cs.getD i 0 % 65536 + 2 ^ 16 * sc + 2 ^ 24 * specFmt x + 2 ^ 32 * ((o.indexBase + i) % 2 ^ 32))

/-- TW_MAX or TW_MIN, past canStart. -/
def runMax (s : State) (h : Hdr) (o : MaxOp) (low : Bool) : State :=
  match maxRefusal s h o with
  | some st => complete s h (coreUnit o.core) st
  | none =>
    let (bad, s) := cbCheck s o.core (maxSource o)
    if bad then coreFault s h o.core
    else
      let bad := cbWriteBad s o.core o.oOff (8 * o.segs)
      let s := (List.range o.segs).foldl (fun s' j => cbWrite s' o.core (o.oOff + 8 * j) (maxRecord s o low (j * o.segLen))) s
      if bad then coreFault s h o.core else complete s h (coreUnit o.core) stDone

/-- TW_MAX, R145. -/
def execTwMax (h : Hdr) (op : MaxOp) (s : State) : Out := .next (runDesc s h fun s => runMax s h op false)

/-- TW_MIN, R145. -/
def execTwMin (h : Hdr) (op : MaxOp) (s : State) : Out := .next (runDesc s h fun s => runMax s h op true)

end Sys2Proof.Machine
end

