-- ==== Sys2Proof/Machine/Streams.lean ====
section
/-!
DEFINITION. Stream operations (R262, R263), stall budgets and their arbiter (R71, R316), and multicast (R317 to R320).
-/

namespace Sys2Proof.Machine

/-! ST_REARM and ST_RELEASE (R262, R263). -/

/-- A stream is undefined, or another panel's. -/
def strmForeign (s : State) (h : Hdr) (n : Nat) : Bool :=
  match streamRec s n with
  | some r => panelOfQueue s h.queue != some (fld r 1)
  | none => true

/-- The first row of R263 that refuses an ST_REARM. -/
def rearmRefusal (s : State) (h : Hdr) (o : RearmOp) : Option Nat :=
  let r := (streamRec s o.stream).getD []
  match firstBad [
    (slotShort h (b2n (decide (2 < o.pieces.length))), stMalformed),
    ((streamRec s o.stream).isSome && !dieUp s (consumerDie r), stAbsent),
    (strmForeign s h o.stream || fld r 2 != 0 || o.badPieces || (o.set && (o.pieces.isEmpty || o.pieces.any fun p => p.2 == 0))
      || fld r 10 ≤ o.seg, stMalformed)] with
  | some st => some st
  | none => firstSome (o.pieces.map fun p => checkDa s h false [p])

/-- A restart taken at once (R260, R263): an ABORTED stream's window contents are discarded. -/
def restartStrm (s : State) (n seg : Nat) : State :=
  match streamRec s n with
  | none => s
  | some r => pump (setStrm s n (restarted r seg)) n

/-- ST_REARM past its checks. -/
def rearm (s : State) (h : Hdr) (o : RearmOp) : State :=
  let u := targetUnit s (.stRearm h o)
  let x := strmOf s o.stream
  if x.st = sAborted && !o.restart then complete s h u x.abort
  else
    let s := if o.set then setStrm s o.stream fun x => { x with sched := put x.sched o.seg (o.wrap, o.pieces) } else s
    if !o.restart then complete s h u stDone
    else if x.st = sIdle || x.st = sAborted || x.cur.isNone then complete (restartStrm s o.stream o.seg) h u stDone
    else setStrm (markStarted s h) o.stream fun x => { x with rearm := x.rearm ++ [(h, o)] }

/-- ST_REARM, R263. -/
def execStRearm (h : Hdr) (op : RearmOp) (s : State) : Out :=
  .next (runDesc s h fun s =>
    match rearmRefusal s h op with
    | some st => complete s h (targetUnit s (.stRearm h op)) st
    | none => rearm s h op)

/-- The unit an ST_RELEASE names: the queue manager where CORE is reserved. -/
def relUnit (core : Nat) : UnitId := if core < 96 then releaseUnit core else cmdUnit

/-- The first row of R263 that refuses an ST_RELEASE; CORE must name the stream's consumer (DEDUCED, log entry 60). -/
def releaseRefusal (s : State) (h : Hdr) (n core bytes : Nat) : Option Nat :=
  let r := (streamRec s n).getD []
  firstBad [
    (96 ≤ core, stMalformed),
    (!dieUp s (relUnit core).die, stAbsent),
    (strmForeign s h n, stMalformed),
    (core != (if coreConsumer r then fld r 5 else 64 + fld r 5), stMalformed),
    (strmHeld (strmOf s n) < bytes, stMalformed)]

/-- An earlier descriptor of the same unit has not completed. -/
def earlierOnUnit (s : State) (h : Hdr) : Bool :=
  match findDisp s h with
  | none => false
  | some d => (s.qm.disp.takeWhile fun e => !sameDesc e.hdr h).any fun e => e.unit == d.unit

/-- ST_RELEASE, R263. -/
def execStRelease (h : Hdr) (stream core bytes : Nat) (s : State) : Out :=
  .next (runDesc s h fun s =>
    if earlierOnUnit s h then s
    else match releaseRefusal s h stream core bytes with
      | some st => complete s h (relUnit core) st
      | none => complete (releaseBytes s stream bytes ((streamRec s stream).getD [])) h (relUnit core) stDone)

/-! Stall budgets (R67, R71, R316). -/

/-- A stream has work queued (R67): it is FULL, or in RUN with entries of its schedule to produce, a restart to take, a consumer that waits
for its bytes, or a gather dispatched that produces it. -/
def strmWork (s : State) (n : Nat) (r : Rec) : Bool :=
  let x := strmOf s n
  x.st == sFull || (x.st == sRun && ((fld r 2 == 0 && x.seg < fld r 10) || !x.rearm.isEmpty || s.qm.disp.any (waitsOn s r)
    || s.qm.disp.any fun d => match d.cmd with | .muGather _ o => o.kind == 1 && o.stream == n | _ => false))

/-- STALL_BUDGET_EXPIRY, R71: reported to the arbiter. -/
def execStallBudgetExpiry (stream : Nat) (s : State) : Out :=
  .next (match streamRec s stream with
    | none => s
    | some r =>
      if strmWork s stream r && !(strmOf s stream).reported then
        setStrm (bump (setSticky s (strmSource r)) (consumerDie r) 0x4020) stream fun x => { x with reported := true }
      else s)

/-- The stream the arbiter aborts: lowest PRIORITY, ties to the higher number. -/
def arbitrated (s : State) : Option Nat :=
  let l := (s.streams.filter (·.2.reported)).filterMap fun p => (streamRec s p.1).map fun r => (fld r 6, p.1)
  match (l.map (·.1)).min? with
  | none => none
  | some p => ((l.filter (·.1 == p)).map (·.2)).max?

/-- STALL_ARBITER_DECISION, R316. -/
def execStallArbiterDecision (s : State) : Out :=
  .next (match arbitrated s with
    | none => s
    | some n =>
      let s := s.onStreams fun m => mapVals (fun _ x => { x with reported := false }) m
      let s := abortStream s n stStall
      bump (pump (setStrm s n fun x => { x with credits := if x.st = sAborted then 0 else x.credits }) n) 0 0x200C8)

/-! Multicast (R123, R317 to R320, R385). -/

abbrev replayWindow := 4 * 2 ^ 20
/-- Payload bytes of one message of a replay: 64 flits (DESIGN CHOICE, log entry 85). -/
abbrev mcMessage := 12288

/-- The attached receivers of a group. -/
def attachedOf (s : State) (g : Nat) : List Rec := (mcMembers s).filter fun m => fld m 0 == g && (mcRecvOf s m).attached

/-- ACKED as R317's window counts it: a receiver that has rejoined holds, as far as the source goes, what lies below its J (DEDUCED, log entry
100). -/
def ackedAt (v : McRecv) : Nat := max v.acked v.join

/-- A 48-bit position in OPARG as the position nearest to one that is known. -/
def nearPos (known p : Nat) : Nat :=
  let d := (p + 2 ^ 48 - known % 2 ^ 48) % 2 ^ 48
  if d < 2 ^ 47 then known + d else known + d - 2 ^ 48

/-- The position of the oldest byte of a group's replay window. -/
def mcOldest (s : State) (g : Nat) : Nat := look0 s.gz.mcPos g - (lookD s.gz.mcWin g []).length

/-- n bytes of a group's replay window from a position on. -/
def mcBytes (s : State) (g p n : Nat) : List Byte := ((lookD s.gz.mcWin g []).drop (p - mcOldest s g)).take n

/-- The next WRITE of a group's bytes to a remote receiver, sent by the link die of its route: none without bytes, a route, room or a credit
(R305, R306, R383, R385). -/
def sendMcRemote (s : State) (m : Rec) : Option State :=
  let (g, dev) := (fld m 0, fld m 6 - 1)
  let p := (rcOf s dev (fld m 5)).2
  let n := min 192 (look0 s.gz.mcPos g - p)
  match routeDie (ringRoute s dev), takeRc s dev (fld m 5) n with
  | some link, some t =>
    let r : OutReq := { die := link, tag := newTag s link, dst := link, kind := rkMcast, resv := 1, flits := 1, remote := true, queue := g,
                        index := fld m 3, landDa := p, len := n, dev := dev, strm := some (fld m 5) }
    if n = 0 || p < mcOldest s g || !reqRoom s r then none
    else
      let f : Flit := { op := 0x02, tc := 3, dst := link, src := link, panel := fld m 1, tag := r.tag, da := fresh s % 2 ^ 48, plen := n,
                        payload := mcBytes s g p n }
      some (sendRemote (openReq (s.took.onRings fun g => { g with rcred := t }) r) link dev (fld m 3) f)
  | _, _ => none

/-- As many of them as may go, at most fuel. -/
def sendMcAll (m : Rec) : Nat → State → State
  | 0, s => s
  | k + 1, s => match sendMcRemote s m with | some t => sendMcAll m k t | none => s

/-- Every remote receiver is sent what it may be sent. -/
def sendRemotes (s : State) : State :=
  ((mcMembers s).filter fun m => fld m 6 != 0).foldl (fun s m =>
    if (mcRecvOf s m).attached then sendMcAll m (ceilDiv replayWindow 192) s else s) s

/-- The bytes of a group sent by its source (R317): none unless they are the next ones, every attached receiver's ACKED lets them go, and the
group's panel stands (R320). -/
def sendMcast (s : State) (f : Flit) : Option State :=
  let g := f.mgroup
  let p := look0 s.gz.mcPos g
  if f.oparg % 2 ^ 48 != p % 2 ^ 48 || panelFaulted s f.panel
    || (attachedOf s g).any fun m => ackedAt (mcRecvOf s m) + replayWindow < p + f.payload.length then none
  else
    let w := lookD s.gz.mcWin g [] ++ f.payload
    some (sendRemotes (s.onGz fun z => { z with mcPos := put z.mcPos g (p + f.payload.length),
                                                mcWin := put z.mcWin g (w.drop (w.length - replayWindow)) }))

/-- The receiver that an MCAST_DATA flit is for: of its MGROUP; in a replay, one that has asked the flit's sender for it. -/
def mcOfFlit (s : State) (f : Flit) : Option Rec :=
  (mcMembers s).find? fun m => fld m 6 == 0 && fld m 3 == f.dst &&
    (if f.mgroup != 0 then fld m 0 == f.mgroup else fld m 2 == f.src && (mcRecvOf s m).resume)

/-- MCAST_DATA at its receiver: bytes it does not hold yet are written at their position while the window has room for them, else discarded and
counted. An ABORTED stream takes none. -/
def takeMcast (s : State) (f : Flit) (m r : Rec) : State :=
  let n := fld m 5
  let v := mcRecvOf s m
  let p := nearPos v.held (f.oparg % 2 ^ 48)
  let hi := p + f.payload.length
  let lo := max p v.held
  let bs := f.payload.drop (lo - p)
  if !v.attached || (strmOf s n).st = sAborted || hi ≤ v.held then s
  else if winBytes r < (hi + 2 ^ 64 - (strmOf s n).rel) % 2 ^ 64 then
    bumpBy (setRecv s m fun v => { v with discarded := true }) f.dst 0x1078 (max 1 (ceilDiv f.payload.length 192))
  else
    let bad := winBad s r lo bs.length
    let s := windowFault bad r (winWrite s r lo bs)
    if (strmOf s n).st = sAborted then s
    else mcHold (setRecv s m fun v => { v with resume := v.resume && f.mgroup == 0 }) m lo hi

/-- A copy of an MCAST_DATA message at a die; a core discards one of another panel (R123). -/
def recvMcast (s : State) (f : Flit) : State :=
  if !dieUp s f.dst then s
  else match mcOfFlit s f with
    | none => s
    | some m => match streamRec s (fld m 5) with
      | none => s
      | some r =>
        if coreConsumer r && panelOfCore s (fld r 5) != some f.panel then bumpCore s (fld r 5) 0x28 (max 1 (ceilDiv f.payload.length 192))
        else takeMcast s f m r

/-- An MCAST_DATA message on its way, and its copies where they are delivered (R42). -/
def landMcast (s : State) (f : Flit) : State :=
  let (l, s) := arriveAll s f
  l.foldl recvMcast s

/-- The message is its group's source's, not yet sent. -/
def fromSource (s : State) (f : Flit) : Bool :=
  f.mgroup != 0 && !s.gz.flits.contains f && (mcMembers s).any fun m => fld m 0 == f.mgroup && fld m 2 == f.src

/-- MCAST_DATA, R317. -/
def execMcastData (f : Flit) (s : State) : Out :=
  let f := asOp 0x0A [] f
  .next (if fromSource s f then (match sendMcast s f with | some t => landMcast t f | none => s) else landMcast s f)

/-- A replay to one receiver, from ACKED on, out of the source's window (R318). -/
def replay (s : State) (m : Rec) : State :=
  let g := fld m 0
  let p := max (ackedAt (mcRecvOf s m)) (mcOldest s g)
  let e := look0 s.gz.mcPos g
  (List.range (ceilDiv (e - p) mcMessage)).foldl (fun s i =>
    let a := p + mcMessage * i
    let bs := mcBytes s g a (min mcMessage (e - a))
    sendFlit s { op := 0x0A, tc := 3, dst := fld m 3, src := fld m 2, panel := fld m 1, da := a % 2 ^ 48, plen := bs.length,
                 oparg := a % 2 ^ 48, payload := bs }) s

/-- ACKED has risen: streams of the group that were FULL for it go on (R260, R319). -/
def unblock (s : State) (g : Nat) : State :=
  ((attachedOf s g).filter fun m => fld m 6 == 0).foldl (fun s m =>
    match streamRec s (fld m 5) with
    | some r => showFull s (fld m 5) r (strmRoom r (strmOf s (fld m 5)) == 0)
    | none => s) s

/-- A receiver's ACKED reaches its source, and RESUME with it (R317, R318). One of no receiver matches nothing (R308). -/
def takeAcked (s : State) (f : Flit) : State :=
  match (mcMembers s).find? fun m => fld m 6 == 0 && fld m 0 == f.mgroup && fld m 3 == f.src && fld m 2 == f.dst with
  | none => lateAnswer s f.dst f.tag
  | some m =>
    if !(mcRecvOf s m).attached then s
    else
      let s := unblock (setRecv s m fun v => { v with acked := max v.acked (nearPos v.acked (f.oparg % 2 ^ 48)) }) (fld m 0)
      if bit f.oparg 63 then replay s m else s

/-- The WRITE of a remote receiver is acknowledged (R385). -/
def takeMcAck (s : State) (r : OutReq) : State :=
  match (mcMembers s).find? fun m => fld m 6 == r.dev + 1 && fld m 0 == r.queue && fld m 3 == r.index with
  | none => s
  | some m =>
    let s := setRecv s m fun v => { v.hold r.landDa (r.landDa + r.len) with acked := max v.acked (v.hold r.landDa (r.landDa + r.len)).held }
    sendRemotes (unblock s (fld m 0))

/-- MC_DETACH, R319: the source cannot send because of R317. -/
def execMcDetach (group : Nat) (s : State) : Out :=
  .next (let l := attachedOf s group
    let acks := l.map fun m => ackedAt (mcRecvOf s m)
    match acks.min? with
    | none => s
    | some lo =>
      if look0 s.gz.mcPos group < lo + replayWindow then s
      else if acks.all (· == lo) then
        (l.filter fun m => fld m 6 == 0).foldl (fun s m =>
          match streamRec s (fld m 5) with | some r => showFull s (fld m 5) r true | none => s) s
      else (l.filter fun m => ackedAt (mcRecvOf s m) == lo).foldl detachRecv s)

end Sys2Proof.Machine
end

