-- ==== Sys2Proof/Machine/Gather.lean ====
section
/-!
DEFINITION. MU_GATHER (R165 to R177) and MU_GRAD_SCATTER (R167, R196, R197), with the shadow reads of R180 to R183.
-/

namespace Sys2Proof.Machine

/-! Engines (R157, R185, R233). -/

def engDie (e : Nat) : Nat := 18 + e / 4
/-- A per-engine counter at offset off + 8j of its die. -/
def bumpEng (s : State) (e off n : Nat) : State := bumpBy s (engDie e) (0x10000 + off + 8 * (e % 4)) n
/-- The draw lane that converts element j on engine e. -/
def engLane (e j : Nat) : Nat := 65536 + 256 * (e / 4) + 32 * (e % 4) + j % 32

/-! Shadows (R180 to R183). -/

def slotKey (d i : Nat) : Nat := d * 65536 + i
/-- The core that holds a compute die's pool, and the offset of a slot in its buffer. -/
def slotPlace (s : State) (d i : Nat) : Option (Nat × Nat) :=
  (shadowPool s d).map fun r =>
    let g := 4 * (d - 2) + fld r 1
    (g, fld r 3 + i * slotBytes s g)

/-- Links on the TC2 path from one die to another, fuel hops; none where it does not arrive. -/
def hops (s : State) (dst : Nat) : Nat → Nat → Option Nat
  | 0, _ => none
  | n + 1, d =>
    if d = dst then some 0
    else match linkPeer d (exitPort s d 2 dst) with
      | some e => (hops s dst n e).map (· + 1)
      | none => none

/-- The slot a shadow read goes to: fewest hops, ties to the lower die (R182). -/
def nearSlot (s : State) (from_ : Nat) (l : List (Nat × Nat)) : Option (Nat × Nat) :=
  let cost (x : Nat × Nat) : Nat := ((hops s x.1 41 from_).getD 64) * 64 + x.1
  match l with
  | [] => none
  | x :: r => some (r.foldl (fun b y => if cost y < cost b then y else b) x)

/-- The record in a valid slot; none for an invalid one, which is answered with PLEN = 0 (R183). So is one that holds an uncorrectable word,
after the panel fault (DESIGN CHOICE, log entry 91). -/
def readSlot (s : State) (d i n : Nat) : Option (List Byte) × State :=
  if !s.mu.slotValid.contains (slotKey d i) then (none, s)
  else match slotPlace s d i with
    | none => (none, s)
    | some (g, off) =>
      let (bad, s) := cbCheck s g [(off, n)]
      if bad then
        (none, panelFaultAt s g)
      else (some (cbRead s.tw g off n), s)

/-! One row (R164, R165, R182). -/

/-- The owner of a row can answer. -/
def ownerAnswers (s : State) (t row : Nat) : Bool :=
  match shardPlace s t row with
  | some (k, _) => dieUp s (18 + k) && !s.sv.fence.contains (18 + k)
  | none => false

/-- Room for a READ of n bytes and its answer (R305, R306). -/
def mayRead (s : State) (d n : Nat) : Bool := reqRoom s { die := d, tag := 0, kind := rkRead, resv := ceilDiv n 192, flits := 1 }

/-- A row read for engine e: from a VALID shadow, else from its owner; a shadow read answered with PLEN = 0 is followed by a second row read
(R183, R185). The inner none is a poisoned row; none is no answer, or no room for the request. -/
def fetchRow (s : State) (e t row : Nat) (tr : Rec) : Option (Option (List Byte) × State) :=
  let own (s : State) : Option (Option (List Byte) × State) :=
    if ownerAnswers s t row && mayRead s (engDie e) (rowBytes tr) then some (ownerRead (bumpEng s e 0x20 1) t row) else none
  match look s.mu.shadows (rowId t row) with
  | none => own s
  | some sh =>
    -- a die that has acknowledged the invalidation no longer holds the entry (R183)
    if !sh.valid || (sh.inval && !sh.awaited.contains (engDie e)) then own s
    else match nearSlot s (engDie e) sh.slots with
      | none => own s
      | some (d, i) =>
        if !mayRead s (engDie e) (rowBytes tr) then none else
        let s := bump (bumpEng s e 0x20 1) (engDie e) 0x100C8
        match readSlot s d i (rowBytes tr) with
        | (some bs, s) => some (some bs, s)
        | (none, s) => own (bump s (engDie e) 0x100D0)

/-! Index arrays (R171, R176). -/

/-- Entry i of an INT32 array. -/
def int32At (s : State) (da i : Nat) : Int := signed 32 (ofLe (readBytes s.mem (da + 4 * i) 4))

/-- R176's test of bag b, its offsets first read: the bag's first and last position, or the status that stops the command. -/
def bagRange (s : State) (o : GatherOp) (b : Nat) : (Nat ⊕ (Nat × Nat)) × State :=
  let (lost, s) := checkRead s (o.offsDa + 4 * b) 8
  let x := int32At s o.offsDa b
  let y := int32At s o.offsDa (b + 1)
  if lost then (.inl stEcc, s)
  else if (b = 0 && x != 0) || y - x < 1 || 65535 < y - x || (o.nIdx : Int) < y || (b + 1 = o.nBags && y != o.nIdx) || x < 0 then
    (.inl stMalformed, s)
  else (.inr (x.toNat, y.toNat), s)

/-- The indices of a bag with their weights, or none when a sector of either array is lost. -/
def bagItems (s : State) (o : GatherOp) (wsum : Bool) (lo hi : Nat) : Option (List (Int × Val)) × State :=
  let (l1, s) := checkRead s (o.idxDa + 4 * lo) (4 * (hi - lo))
  let (l2, s) := if wsum then checkRead s (o.wtDa + 2 * lo) (2 * (hi - lo)) else (false, s)
  if l1 || l2 then (none, s)
  else
    (some ((List.range (hi - lo)).map fun i =>
      (int32At s o.idxDa (lo + i),
       if wsum then decodeVal 7 (ofLe (readBytes s.mem (o.wtDa + 2 * (lo + i)) 2)) else Val.fin false 1 0)), s)

/-- The parts of the arrays beyond a bag's start that have been read ahead when the command stops, each up to 256 bytes: how far is free (R176;
DESIGN CHOICE, log entry 2). Bags up to b have their offsets read, positions below p their indices. -/
def readAhead (s : State) (o : GatherOp) (wsum : Bool) (b p : Nat) : State :=
  let cut (a n top : Nat) : Range := (a, min (n % 257) (top - a))
  let v := fresh s
  let rs := [cut (o.offsDa + 4 * min (b + 2) (o.nBags + 1)) v (o.offsDa + 4 * (o.nBags + 1)),
             cut (o.idxDa + 4 * min p o.nIdx) (v / 257) (o.idxDa + 4 * o.nIdx)]
    ++ if wsum then [cut (o.wtDa + 2 * min p o.nIdx) (v / 257 / 257) (o.wtDa + 2 * o.nIdx)] else []
  (checkReads s.took rs).2

/-- The position of bag b's first index, for a bag whose predecessors have passed their tests. -/
def bagStart (s : State) (o : GatherOp) (b : Nat) : Nat := if b = 0 then 0 else (int32At s o.offsDa b).toNat

/-- An index within a table's rows. -/
def goodIndex (tr : Rec) (i : Int) : Bool := decide (0 ≤ i) && decide (i < tRows tr)

/-! The checks of R175. -/

/-- Elements of a row in a specifier's bytes. -/
def rowLen (o : GatherOp) (tr : Rec) : Nat := elemBytes o.spec (tW tr)

/-- Input arrays of a gather or scatter, operand by operand. -/
def indexArrays (o : GatherOp) (tr : Rec) : List (List Range) :=
  [[(o.idxDa, 4 * o.nIdx)], [(o.offsDa, 4 * (o.nBags + 1))]] ++ if tPool tr = 2 then [[(o.wtDa, 2 * o.nIdx)]] else []

def rowRanges (o : GatherOp) (tr : Rec) : List Range := strided o.addr (rowLen o tr) o.stride o.nBags
def scaleRanges (o : GatherOp) (tr : Rec) : List Range :=
  if specBlock o.spec then [(o.scaleAddr, o.nBags * (tW tr / 32))] else []
def mapRanges (o : GatherOp) : List Range := if o.poisonMap then [(o.pDa, ceilDiv o.nBags 8)] else []

/-- The rows and scales of the bags in DA space: each is one operand (R21). -/
def bagOperands (o : GatherOp) (tr : Rec) : List (List Range) := if o.kind = 0 then [rowRanges o tr, scaleRanges o tr] else []

/-- Input and output operands in DA space. -/
def gatherIns (o : GatherOp) (tr : Rec) (out : Bool) : List (List Range) :=
  indexArrays o tr ++ if out then [] else bagOperands o tr
def gatherOuts (o : GatherOp) (tr : Rec) (out : Bool) : List (List Range) :=
  if out then bagOperands o tr ++ [mapRanges o] else []

/-- The row records of a table: its shards. -/
def tableRanges (s : State) (t : Nat) (tr : Rec) : List Range :=
  ((sect s 0x11).filter fun r => fld r 1 == t).map fun r => (fld r 4, fld r 3 * rowBytes tr)

/-- Ranges of a list overlap each other. -/
def selfMeet : List Range → Bool
  | [] => false
  | r :: l => l.any (meets r) || selfMeet l

/-- The formats a pooled row may be written in. -/
def gatherSpecOk (tr : Rec) (x : Nat) : Bool :=
  let f := specFmt x
  (f == 6 || f == 7 || f == 3 || f == 4 || ((f == 0 || f == 1 || f == 2) && specBlock x)) && specResOk (x % 64)
  && (!specBlock x || tW tr % 32 == 0) && dimOk x (tW tr)

/-- The formats of bag gradients (R196). -/
def scatterSpecOk (tr : Rec) (x : Nat) : Bool :=
  let f := specFmt x
  (f == 6 || f == 7 || f == 3 || f == 4) && specSrcOk x && (!specBlock x || tW tr % 32 == 0)

/-- The stream that rows go to or come from is the panel's, with the right ends (DESIGN CHOICE, log entry 21). -/
def rowStreamOk (s : State) (h : Hdr) (o : GatherOp) (out : Bool) : Bool :=
  match streamRec s o.stream with
  | none => false
  | some r => panelOfQueue s h.queue == some (fld r 1) && (if out then fld r 2 == 1 else fld r 4 == 1 && fld r 5 == o.engine)

/-- The first check of R175 that refuses, then R248. Outputs must not meet the row records that are dequantised either (R104). Of operands
that fail R21 differently the first decides, in the order of R174's table (DESIGN CHOICE, log entry 86). -/
def gatherRefusal (s : State) (h : Hdr) (o : GatherOp) (out : Bool) : Option Nat :=
  if slotShort h (b2n (specBlock o.spec || (out && o.poisonMap))) then some stMalformed
  else match tableRec s o.table with
  | none => some (if dieUp s (engDie o.engine) then stMalformed else stAbsent)
  | some tr =>
    let ins := gatherIns o tr out
    let outs := gatherOuts o tr out
    match firstBad [
      (!dieUp s (engDie o.engine), stAbsent),
      (some (tPanel tr) != panelOfQueue s h.queue, stMalformed),
      ((if out then !gatherSpecOk tr o.spec else !scatterSpecOk tr o.spec) || !startOk o.spec o.addr, stMalformed),
      (o.nIdx == 0 || 2 ^ 24 < o.nIdx || o.nBags == 0 || o.nIdx < o.nBags, stMalformed),
      (2 ≤ o.kind || o.stride < rowLen o tr || (o.kind == 1 && !rowStreamOk s h o out), stMalformed)] with
    | some st => some st
    | none =>
      match firstSome ((ins ++ outs).map (r21 s)) with
      | some st => some st
      | none =>
        if selfMeet outs.flatten || anyMeet outs.flatten ins.flatten || anyMeet outs.flatten (tableRanges s o.table tr)
          || anyMeet (rowRanges o tr) (scaleRanges o tr) then some stMalformed
        else firstSome (ins.map (checkDa s h false) ++ outs.map (checkOut s h))

/-! Pooling (R168 to R172). -/

/-- A finite value divided by a count, to 128 bits and more past the point with the last bit set when anything is lost: rounding it once
rounds the exact quotient. -/
def divVal (v : Val) (n : Nat) : Val :=
  match v with
  | .fin s m e =>
    let x := m * 2 ^ 128
    let q := x / n
    .fin s (if x % n = 0 then q else if q % 2 = 0 then q + 1 else q) (e - 128)
  | v => v

/-- Element sums of a bag. -/
def addRows : List Val → List Val → List Val
  | [], ys => ys
  | xs, [] => xs
  | x :: xs, y :: ys => x.add y :: addRows xs ys

/-- The value each element converts (R169, R170): n is the number of indices not skipped. -/
def pooled (tr : Rec) (n : Nat) (sums : List Val) : List Val :=
  sums.map fun v =>
    match v with
    | .fin _ 0 _ => Val.zero
    | v => if n = 0 then Val.zero else if tPool tr = 1 then divVal v n else v

/-- A gather on its way: the coalescer's rows, and what has been seen. -/
structure GatherRun where
  st       : State
  coal     : List (Nat × Option (List Val)) := []
  sums     : List Val := []
  n        : Nat := 0
  skipped  : Bool := false
  bad      : Bool := false
  poisoned : Bool := false

/-- One index of a bag (R165, R166): none when its row's owner gives no answer. -/
def gatherIndex (e t : Nat) (tr : Rec) (g : GatherRun) (x : Int × Val) : Option GatherRun :=
  if !goodIndex tr x.1 then some { g with st := bumpEng g.st e 0x80 1, skipped := true }
  else
    let row := x.1.toNat
    let add (g : GatherRun) (r : Option (List Val)) : GatherRun :=
      match r with
      | none => { g with n := g.n + 1, bad := true }
      | some vs => { g with n := g.n + 1, sums := addRows g.sums (vs.map fun v => if tPool tr = 2 then v.mul x.2 else v) }
    match g.coal.find? fun c => c.1 == row with
    | some c => some (add { g with st := bumpEng g.st e 0x40 1 } c.2)
    | none =>
      let g := if 4096 ≤ g.coal.length then { g with st := bumpEng g.st e 0x60 1, coal := [] } else g
      match fetchRow g.st e t row tr with
      | none => none
      | some (bs, s) =>
        let vs := bs.map (rowValues tr)
        some (add { g with st := s, coal := g.coal ++ [(row, vs)] } vs)

/-- Every index of a bag. -/
def gatherIndices (e t : Nat) (tr : Rec) : GatherRun → List (Int × Val) → Option GatherRun
  | g, [] => some g
  | g, x :: r => match gatherIndex e t tr g x with | some g => gatherIndices e t tr g r | none => none

/-! Output of a bag (R170, R172, R174, R177). -/

/-- Codes and scales of a bag's row. -/
def bagCodes (s : State) (o : GatherOp) (tr : Rec) (g : GatherRun) : (List Nat × List Nat) × State :=
  let w := tW tr
  if g.bad then
    if specBlock o.spec then ((List.replicate w 0, List.replicate (w / 32) 255), s)
    else ((List.replicate w (nanCode (specFmt o.spec)), []), s)
  else
    let vs := pooled tr g.n (g.sums ++ List.replicate (w - g.sums.length) Val.zero)
    let scs := rowScales o.spec vs
    let (cs, s) := convList s o.spec (specGrad o.spec) (drawFixed s) scs 0 (((List.range w).map (engLane o.engine)).zip vs |>.map fun p => (p.2, p.1))
    ((cs, scs), s)

/-- The position of a bag's row in its stream: the first at or above FILL that lies at its offset (DESIGN CHOICE, log entry 21). -/
def bagPos (r : Rec) (x : Strm) (off : Nat) : Nat :=
  let w := winBytes r
  x.wpos + (off % w + w - x.wpos % w) % w

/-- The window has room, and credits, for a bag's row at its position. -/
def bagFits (s : State) (o : GatherOp) (tr : Rec) (r : Rec) (b : Nat) : Bool :=
  let x := strmOf s o.stream
  bagPos r x (o.addr + b * o.stride) + rowLen o tr - x.wpos ≤ strmRoom r x

/-- A bag's bit in the poison bitmap; the last one's byte has zeros above it. -/
def writeBit (s : State) (o : GatherOp) (b : Nat) (v : Bool) : State :=
  if !o.poisonMap then s
  else
    let a := o.pDa + b / 8
    let old := (readByte s.mem a).toNat
    let above := if b + 1 = o.nBags then 0 else old / 2 ^ (b % 8 + 1) * 2 ^ (b % 8 + 1)
    writeMem s a [BitVec.ofNat 8 (above + b2n v * 2 ^ (b % 8) + old % 2 ^ (b % 8))]

/-- A bag's row, scales and bitmap bit written. Under OUT_KIND = 1 the scales lie in the stream's window too, and move no mark (DESIGN CHOICE,
log entry 90). -/
def writeBag (s : State) (o : GatherOp) (tr : Rec) (b : Nat) (cs scs : List Nat) (bad : Bool) : State :=
  let w := fmtWidth (specFmt o.spec)
  let sb := scs.map (BitVec.ofNat 8)
  let s :=
    if o.kind = 0 then
      let a := o.addr + b * o.stride
      let s := writeMem s a (packOver w cs (readBytes s.mem a (rowLen o tr)))
      writeMem s (o.scaleAddr + b * (tW tr / 32)) sb
    else match streamRec s o.stream with
      | none => s
      | some r =>
        let x := strmOf s o.stream
        let p := bagPos r x (o.addr + b * o.stride)
        let bad := winBad s r p (rowLen o tr) || winBad s r (o.scaleAddr + b * (tW tr / 32)) sb.length
        let s := winWrite s r p (packOver w cs (winRead s r p (rowLen o tr)))
        let s := winWrite s r (o.scaleAddr + b * (tW tr / 32)) sb
        let s := setStrm s o.stream fun x => { strmWrote r (p + rowLen o tr - x.wpos) x with st := if x.st = sIdle then sRun else x.st }
        windowFault bad r (showFull s o.stream r (strmRoom r (strmOf s o.stream) == 0))
  writeBit s o b bad

/-! The gather. -/

/-- The state at a bag the command stops at, with its progress kept: it waits there (DESIGN CHOICE, log entry 21). -/
def pauseGather (h : Hdr) (b : Nat) (g : GatherRun) : State :=
  let v : Paused := { bag := b, skipped := g.skipped, poisoned := g.poisoned, coal := g.coal }
  g.st.onMu fun m => { m with gatherPos := put m.gatherPos (descKey h) v }

/-- The command ends with a status; s0 is the state before it. -/
def endGather (s0 : State) (h : Hdr) (o : GatherOp) (s : State) (st : Nat) : State :=
  let s := s.onMu fun m => { m with gatherPos := del m.gatherPos (descKey h) }
  finish s0 s h (engUnit o.engine) st

/-- Bags from b on, fuel bags. -/
def gatherBags (s0 : State) (h : Hdr) (o : GatherOp) (tr : Rec) : Nat → Nat → GatherRun → State
  | 0, _, g => endGather s0 h o g.st (if g.poisoned then stPoison else if g.skipped then stPartial else stDone)
  | n + 1, b, g =>
    let wait (g : GatherRun) : State := pauseGather h b g
    match bagRange g.st o b with
    | (.inl st, s) => endGather s0 h o (readAhead s o (tPool tr == 2) b (bagStart s o b)) st
    | (.inr (lo, hi), s) =>
      let full := o.kind = 1 && (match streamRec s o.stream with | some r => !bagFits s o tr r b | none => true)
      if o.kind = 1 && (strmOf s o.stream).st = sAborted then endGather s0 h o s (strmOf s o.stream).abort
      else if full then wait { g with st := match streamRec s o.stream with | some r => showFull s o.stream r true | none => s }
      else match bagItems s o (tPool tr == 2) lo hi with
        | (none, s) => endGather s0 h o (readAhead s o (tPool tr == 2) b hi) stEcc
        | (some items, s) =>
          match gatherIndices o.engine o.table tr { g with st := s, sums := [], n := 0, bad := false } items with
          | none => wait { g with st := s }
          | some g' =>
            -- a panel fault at a core that holds a shadow, or the stream, has ended the command
            let gone (s : State) : Bool := (findDisp s0 h).isSome && (findDisp s h).isNone
            let ((cs, scs), s) := bagCodes g'.st o tr g'
            let s := if gone s then s else writeBag s o tr b cs scs g'.bad
            if gone s then s
            else gatherBags s0 h o tr n (b + 1) { g' with st := s, poisoned := g'.poisoned || g'.bad }

/-- MU_GATHER past its checks, from the bag it had reached. -/
def runGather (s : State) (h : Hdr) (o : GatherOp) (tr : Rec) : State :=
  let v := lookD s.mu.gatherPos (descKey h) {}
  gatherBags s h o tr (o.nBags - v.bag) v.bag { st := markStarted s h, coal := v.coal, skipped := v.skipped, poisoned := v.poisoned }

/-- MU_GATHER, R174; run again while it waits, it goes on from the bag it had reached. -/
def execMuGather (h : Hdr) (op : GatherOp) (s : State) : Out :=
  .next (if (look s.mu.gatherPos (descKey h)).isSome then
      match tableRec s op.table with | some tr => if mayBegin s h then runGather s h op tr else s | none => s
    else runDesc s h fun s => match gatherRefusal s h op true, tableRec s op.table with
      | some st, _ => complete s h (engUnit op.engine) st
      | none, some tr => runGather s h op tr
      | none, none => complete s h (engUnit op.engine) stMalformed)

/-! The gradient direction (R154, R167, R196, R197). -/

/-- A value divided by n on a region's grid, truncated toward zero and saturated (R154). -/
def toGridDiv (b : Int) (n : Nat) (v : Val) : Int :=
  match v with
  | .fin s m e =>
    let q : Nat := if b ≤ e then m * 2 ^ (e - b).toNat / n else m / (2 ^ (b - e).toNat * n)
    max (-2 ^ 63) (min (2 ^ 63 - 1) (if s then -(q : Int) else q))
  | v => toGrid b v

/-- A coalescer entry of the gradient direction: its row, the contributions merged, and its sums. -/
abbrev GradEntry := Nat × Nat × List Int

/-- A scatter on its way. -/
structure ScatterRun where
  st      : State
  coal    : List GradEntry := []
  tags    : List Nat := []
  held    : List (OutReq × AddMsg) := []
  skipped : Bool := false

/-- An entry sent as an ATOMIC_ADD to the row's owner, under a TAG of the engine's die (R167, R190); it waits behind adds that wait, and where
R306 leaves no room. One that has just restarted has nothing to send. -/
def sendEntry (h : Hdr) (o : GatherOp) (tr : Rec) (g : ScatterRun) (e : GradEntry) : ScatterRun :=
  match shardPlace g.st o.table e.1 with
  | none => g
  | some (k, da) =>
    let d := engDie o.engine
    let t := newTag g.st d
    let b := match ledgerRec g.st k (tRegion tr) with | some r => regionAnchor r | none => 0
    let m : AddMsg := { dst := 18 + k, src := d, tag := t, panel := tPanel tr, da := da, anchor := b, count := e.2.1, dense := false,
                        table := o.table, stepTag := h.stamp % 256, words := e.2.2 }
    let r : OutReq := { die := d, tag := t, dst := 18 + k, kind := rkAdd, resv := 1, flits := ceilDiv (tW tr) 24, queue := h.queue,
                        index := h.index, key := some (descKey h), step := h.stamp }
    if e.2.1 = 0 then g
    else if !g.held.isEmpty || !reqRoom g.st r then { g with held := g.held ++ [(r, m)] }
    else { g with st := sendAdd (openReq g.st r) m, tags := g.tags ++ [reqWait d t] }

/-- Entries sent in ascending row order. -/
def sendEntries (h : Hdr) (o : GatherOp) (tr : Rec) (g : ScatterRun) : ScatterRun :=
  let sorted := g.coal.foldl (fun (m : FMap GradEntry) e => put m e.1 e) []
  sorted.foldl (fun g e => sendEntry h o tr g e.2) { g with coal := [] }

/-- A spill (R166, R167). -/
def spillGrad (h : Hdr) (o : GatherOp) (tr : Rec) (g : ScatterRun) : ScatterRun :=
  sendEntries h o tr { g with st := bumpEng g.st o.engine 0x60 1 }

/-- Words outside the 64-bit range of a message. -/
def past64 (ws : List Int) : Bool := ws.any fun w => decide (w < -2 ^ 63) || decide (2 ^ 63 - 1 < w)

/-- A contribution merged into its row's entry (R167). -/
def mergeGrad (h : Hdr) (o : GatherOp) (tr : Rec) (g : ScatterRun) (row : Nat) (ws : List Int) : ScatterRun :=
  match g.coal.find? fun e => e.1 == row with
  | none =>
    let g := if 4096 ≤ g.coal.length then spillGrad h o tr g else g
    { g with coal := g.coal ++ [(row, 1, ws)] }
  | some e =>
    let sum := (e.2.2.zip ws).map fun p => p.1 + p.2
    let g := { g with st := bumpEng g.st o.engine 0x40 1 }
    let set (g : ScatterRun) (x : GradEntry) : ScatterRun := { g with coal := g.coal.map fun y => if y.1 = row then x else y }
    if past64 sum then set (sendEntry h o tr g e) (row, 1, ws)
    else if e.2.1 + 1 = 2 ^ 20 then set (sendEntry h o tr g (row, 2 ^ 20, sum)) (row, 0, sum.map fun _ => 0)
    else set g (row, e.2.1 + 1, sum)

/-- The anchor of a row's region at its owner. -/
def rowAnchor (s : State) (t row : Nat) (tr : Rec) : Int :=
  match shardPlace s t row with
  | some (k, _) => (match ledgerRec s k (tRegion tr) with | some r => regionAnchor r | none => 0)
  | none => 0

/-- One index of a bag with gradient row vs and n indices not skipped. -/
def scatterIndex (h : Hdr) (o : GatherOp) (tr : Rec) (vs : List Val) (n : Nat) (g : ScatterRun) (x : Int × Val) : ScatterRun :=
  if !goodIndex tr x.1 then { g with st := bumpEng g.st o.engine 0x80 1, skipped := true }
  else
    let row := x.1.toNat
    let b := rowAnchor g.st o.table row tr
    let ps := vs.map fun v => if tPool tr = 2 then v.mul x.2 else v
    let q := if tPool tr = 1 then n else 1
    let g := { g with st := noteLoss (bumpBy g.st (engDie o.engine) 0x11038 (ps.filter fun v => !v.isFin).length) o.engine b q ps }
    mergeGrad h o tr g row (ps.map (toGridDiv b q))

/-- The gradient row of bag b, and whether its data is lost. -/
def gradRow (s : State) (o : GatherOp) (tr : Rec) (b : Nat) : Bool × List Val × State :=
  let w := fmtWidth (specFmt o.spec)
  let n := rowLen o tr
  let (bs, sc, lost, s) : List Byte × List Byte × Bool × State :=
    if o.kind = 0 then
      let a := o.addr + b * o.stride
      let (l1, s) := checkRead s a n
      let (l2, s) := if specBlock o.spec then checkRead s (o.scaleAddr + b * (tW tr / 32)) (tW tr / 32) else (false, s)
      (readBytes s.mem a n, readBytes s.mem (o.scaleAddr + b * (tW tr / 32)) (tW tr / 32), l1 || l2, s)
    else match streamRec s o.stream with
      | none => ([], [], false, s)
      | some r =>
        let base := o.addr + b * o.stride
        let rd (p n : Nat) : Range := (fld r 11 + p % winBytes r, n)
        let (lost, s) := checkReads s (rd base n :: if specBlock o.spec then [rd (o.scaleAddr + b * (tW tr / 32)) (tW tr / 32)] else [])
        (winRead s r base n, winRead s r (o.scaleAddr + b * (tW tr / 32)) (tW tr / 32), lost, s)
  (lost, elemVals o.spec (unpack w (tW tr) bs) (sc.map BitVec.toNat), s)

/-- Bags from b on, fuel bags: the status they end with. -/
def scatterBags (h : Hdr) (o : GatherOp) (tr : Rec) : Nat → Nat → ScatterRun → Nat × ScatterRun
  | 0, _, g => (if g.skipped then stPartial else stDone, g)
  | n + 1, b, g =>
    match bagRange g.st o b with
    | (.inl st, s) => (st, { g with st := readAhead s o (tPool tr == 2) b (bagStart s o b) })
    | (.inr (lo, hi), s) =>
      match bagItems s o (tPool tr == 2) lo hi with
      | (none, s) => (stEcc, { g with st := readAhead s o (tPool tr == 2) b hi })
      | (some items, s) =>
        let (lost, vs, s) := gradRow s o tr b
        if lost then (stEcc, { g with st := s })
        else
          let k := (items.filter fun x => goodIndex tr x.1).length
          scatterBags h o tr n (b + 1) (items.foldl (scatterIndex h o tr vs k) { g with st := s })

/-- The rows of a scatter that consumes a stream, as ranges of the memory its window lies in. -/
def scatterRanges (o : GatherOp) (tr : Rec) (r : Rec) : List Range :=
  let at_ (p n : Nat) : Range := (fld r 11 + p % winBytes r, n)
  (List.range o.nBags).flatMap fun b =>
    at_ (o.addr + b * o.stride) (rowLen o tr) :: if specBlock o.spec then [at_ (o.scaleAddr + b * (tW tr / 32)) (tW tr / 32)] else []

/-- How they meet its window (R257), and what is waited for there. -/
def scatterMeets (s : State) (o : GatherOp) (tr : Rec) : WinRead × List Range :=
  if o.kind != 1 then (.ok, [])
  else match streamRec s o.stream with
    | none => (.bad, [])
    | some r => (winMeets s [r] (scatterRanges o tr r), scatterRanges o tr r)

/-- What the command waits for: the answers to its adds, and room for those it holds. -/
def scatterWaiting (h : Hdr) (o : GatherOp) (st : Nat) (g : ScatterRun) : Waiting :=
  { hdr := h, unit := engUnit o.engine, tags := g.tags ++ (if g.held.isEmpty then [] else [moreKey h]),
    status := if st = stPartial then 0 else st, late := st == stPartial }

/-- MU_GRAD_SCATTER past its checks: its adds are sent, as far as there is room, and it waits for their answers. -/
def runScatter (s : State) (h : Hdr) (o : GatherOp) (tr : Rec) : State :=
  let (st, g) := scatterBags h o tr o.nBags 0 { st := markStarted s h }
  let g := sendEntries h o tr g
  if g.tags.isEmpty && g.held.isEmpty then complete g.st h (engUnit o.engine) st
  else
    let s := waitFor g.st (scatterWaiting h o st g)
    if g.held.isEmpty then s else s.onMu fun m => { m with gatherPos := put m.gatherPos (descKey h) { adds := g.held } }

/-- The adds a scatter holds, sent as far as there is room now (DEDUCED, log entry 52). -/
def sendHeld (s : State) (h : Hdr) : List (OutReq × AddMsg) → State
  | [] => endAdds s h stDone
  | x :: xs =>
    let r : OutReq := { x.1 with tag := newTag s x.1.die }
    if !reqRoom s r then s.onMu fun m => { m with gatherPos := put m.gatherPos (descKey h) { adds := x :: xs } }
    else
      let s := s.onQm fun q =>
        { q with waiting := q.waiting.map fun w => if sameDesc w.hdr h then { w with tags := w.tags ++ [reqWait r.die r.tag] } else w }
      sendHeld (sendAdd (openReq s r) { x.2 with tag := r.tag }) h xs

/-- MU_GRAD_SCATTER, R196; run again while it waits for room, it sends what is left (R306). -/
def execMuGradScatter (h : Hdr) (op : GatherOp) (s : State) : Out :=
  .next (match look s.mu.gatherPos (descKey h) with
  | some v => if mayBegin s h then sendHeld s h v.adds else s
  | none => runDesc s h fun s =>
    match gatherRefusal s h op false, tableRec s op.table with
    | some st, _ => complete s h (engUnit op.engine) st
    | none, none => complete s h (engUnit op.engine) stMalformed
    | none, some tr =>
      match scatterMeets s op tr with
      | (.bad, _) => complete s h (engUnit op.engine) stMalformed
      | (.wait, rs) => setWaits s h rs
      | (.aborted st, _) => complete s h (engUnit op.engine) st
      | (.ok, _) => runScatter s h op tr)

end Sys2Proof.Machine
end

