-- ==== Sys2Proof/Machine/RemoteOps.lean ====
section
/-!
DEFINITION. Requests to other ring devices: where they go (R370, R378, R403), and an ATOMIC_ADD on its way (R41, R190).
-/

namespace Sys2Proof.Machine

/-- A flit for another device leaves Gauze at the link die that it was sent to (R309, R370). -/
def leaveGauze (s : State) (link : Nat) (peer : Nat × Nat) (f : Flit) : State := sendRemote s link peer.1 peer.2 { f with beyond := none }

/-- A request flit sent toward a device by a die: as a Gauze flit to the link die of the route, unless that die sends it itself; delivered
inside the package where the route is LOCAL (R370, R403). -/
def requestRemote (s : State) (r : OutReq) (f : Flit) (rDie : Nat) : State :=
  let s := openReq s r
  match routeDie (ringRoute s r.dev) with
  | some link =>
    if r.die = link then leaveGauze s link (r.dev, rDie) { f with dst := link }
    else sendOne s { f with dst := link, beyond := some (r.dev, rDie) }
  | none => sendInside s rDie f

/-! ATOMIC_ADD on its way (R41, R190). -/

/-- An add must wait at its source: one of its path was sent before it, or its output sends another class first. The order of an add and a
READ of one path is not kept (DESIGN CHOICE, log entry 50). -/
def addMustWait (s : State) (m : AddMsg) : Bool :=
  ((s.gz.adds.takeWhile (· != m)).any fun x => samePath (addHead x) (addHead m)) || outputBusy s (addHead m)

/-- What becomes of an add whose command runs: none where it is not delivered, else the add as delivered. -/
def arriveAdd (s : State) (m : AddMsg) : Option AddMsg × State :=
  let sent := s.gz.adds.contains m
  if addMustWait s m then (none, if sent then s else sendAdd s m)
  else match goes sent (s.onGz fun g => { g with adds := g.adds.erase m }) (addFlit m) with
    | none => (none, s)
    | some (f, t) => (f.map fun f => { m with dst := f.dst, via := none }, t)

/-- The link die a request to a device leaves by; CMD where it stays inside. -/
def linkOf (s : State) (dev : Nat) : Nat := (routeDie (ringRoute s dev)).getD 0

end Sys2Proof.Machine
end

