-- ==== Sys2Proof/Machine/LedgerOps.lean ====
section
/-!
DEFINITION. Operations of the ledger unit and the hot-row directory: rows in migration areas (R207, R211), page-in (R212, R213), seals that
end (R200), pending entries (R202), and where a row message goes (R189, R206, R208).
-/

namespace Sys2Proof.Machine

/-! Rows as the directory names them. -/

/-- Owner, table and row of a directory key. -/
def dirParts (key : Nat) : Nat × Nat × Nat := (key / 2 ^ 43, key / 2 ^ 31 % 4096, key % 2 ^ 31)

/-- The row has a VALID shadow, until its invalidation has ended (R184, R211). -/
def shadowed (s : State) (t row : Nat) : Bool := match look s.mu.shadows (rowId t row) with | some x => x.valid | none => false

/-- MUk owns the row. -/
def owns (s : State) (k t row : Nat) : Bool :=
  match shardOf s t row with | some (_, r) => fld r 2 == k && (tableRec s t).isSome | none => false

/-- The record of a row now lies in Far. -/
def inFar (a : Nat) : Bool := farBase ≤ a && a < farTop

/-! Space for records (R207, R211, R212). -/

/-- Bytes of the record of a directory entry's table. -/
def entryRb (s : State) (key : Nat) : Nat := match tableRec s (dirParts key).2.1 with | some r => rowBytes r | none => 0

/-- Ranges that migrated rows use or are moving to; the old place of a row until FORWARDING ends. -/
def usedPlaces (s : State) : List Range :=
  s.mu.dir.flatMap fun x =>
    let n := entryRb s x.1
    (x.2.dest, n)
    :: (if x.2.st = .draining || x.2.st = .moving then [(x.2.target, n)] else [])
    ++ (if x.2.st = .forwarding then [(x.2.prevDest, n)] else [])

/-- A place for a record is free. -/
def placeFree (s : State) (r : Range) : Bool := !(usedPlaces s).any (meets r)

/-- The first free place for n bytes in a range, among multiples of n from its start, fuel places. -/
def firstFree (s : State) (r : Range) (n : Nat) : Nat → Nat → Option Nat
  | 0, _ => none
  | f + 1, i =>
    if n = 0 || r.2 < (i + 1) * n then none
    else if placeFree s (r.1 + i * n, n) then some (r.1 + i * n)
    else firstFree s r n f (i + 1)

/-- A free place for n bytes in a range: each place in use blocks two at most. -/
def freePlace (s : State) (r : Range) (n : Nat) : Option Nat := firstFree s r n (2 * (usedPlaces s).length + 1) 0

/-- The MIGRATE areas of a panel. -/
def migrateAreas (s : State) (p : Nat) : List Range :=
  ((holdings s).filter fun h => fld h 1 == 3 && fld h 3 == 0 && fld h 2 == p).map holdRange

/-- The page-in area of MUk (R212). -/
def pageArea (s : State) (k : Nat) : Option Range :=
  match muslinRec s k with
  | some m => if fld m 1 = 0 then none else ((holdings s).find? fun h => fld h 0 == fld m 1).map holdRange
  | none => none

/-! Seals that wait for their last acts (R200 steps 3 and 4). -/

/-- Nothing holds back the record of MUk's seal: no MOVING row still to seal, no shadow of its rows still acknowledged (DEDUCED, log entry 61). -/
def sealDone (s : State) (k : Nat) : Bool :=
  (s.mu.dir.all fun x => !(x.2.st == .moving && x.2.sealedIn && (x.1 / 2 ^ 43 == k || x.2.ledgerDie == k || x.2.targetDie == k)))
  && (s.mu.shadows.all fun x => !(x.2.inval && owns s k (x.1 / 2 ^ 31) (x.1 % 2 ^ 31)))

/-- Seals that are done get their records. -/
def finishSeals (s : State) : State :=
  (s.mu.sealing.filter fun x => sealDone s x.1).foldl (fun s x =>
    complete (s.onMu fun m => { m with sealing := del m.sealing x.1 }) x.2 (ledgerUnit x.1) stDone) s

/-! Pending entries (R202, R212, R213). -/

/-- A PAGED row of MUk with no pending entry, the one updated longest ago (R212). -/
def pagedOut (s : State) (k : Nat) : Option (Nat × DirEntry) :=
  (s.mu.dir.filter fun x => x.1 / 2 ^ 43 == k && x.2.paged && x.2.st == .resident && !x.2.poisoned && !x.2.pendingF).foldl
    (fun b x => match b with | some y => if x.2.updated < y.2.updated then some x else some y | none => some x) none

/-- A free slot of MUk's page-in area: when it is full, a PAGED row goes back to its shard-map DA first. -/
def pageSlot (s : State) (k n : Nat) : Option Nat × State :=
  match pageArea s k with
  | none => (none, s)
  | some r =>
    match freePlace s r n with
    | some a => (some a, s)
    | none =>
      match pagedOut s k with
      | none => (none, s)
      | some x =>
        let (_, t, row) := dirParts x.1
        let s := match shardPlace s t row with
          | some (_, da) =>
            let s := bump (copyMem s x.2.dest da (entryRb s x.1)) (18 + k) 0x11040
            storeDir s k t row { x.2 with dest := da, paged := false }
          | none => s
        (freePlace s r n, s)

/-- A Far row of MUk paged in at once: its record copied to a slot, PAGED set (R213). Its ledger die stays the owner. -/
def pageInNow (s : State) (k t row : Nat) : Bool × State :=
  match tableRec s t, shardPlace s t row with
  | some tr, some (_, da) =>
    let e := dirOrHome s k t row da
    match pageSlot s k (rowBytes tr) with
    | (none, s) => (false, s)
    | (some a, s) =>
      let (lost, s) := checkRead s e.dest (rowBytes tr)
      if lost then (false, markPoisoned s k t row da)
      else
        let s := bump (bump (writeMem s a (readBytes s.mem e.dest (rowBytes tr))) (18 + k) 0x11060) (18 + k) 0x11040
        (true, setDir s k t row { (dirOrHome s k t row da) with dest := a, ledgerDie := k, paged := true, updated := openStep s k })
  | _, _ => (false, s)

/-- The PENDING entry flag of a row's directory entry follows whether it has a pending entry. -/
def flagPending (s : State) (k t row : Nat) (f : Bool) : State :=
  match shardPlace s t row with
  | some (_, da) =>
    let e := dirOrHome s k t row da
    if (dirOf s k t row).isNone && !f then s else storeDir s k t row { e with pendingF := f }
  | none => s

/-- An entry added into a pending entry: the words, counts and numbers of steps add up, and the oldest step stays. -/
def mergePend (old : Option Entry) (e : Entry) : Entry :=
  match old with
  | none => e
  | some p => { count := min (p.count + e.count) (2 ^ 32 - 1), late := p.late || e.late, ovf := p.ovf || e.ovf, steps := p.steps + e.steps,
                oldest := min p.oldest e.oldest, lost := p.lost || e.lost, words := addWords p.words e.words }

/-- The Far row of a region's pending pool on MUk with the oldest pending step, ties to the lower (table, row) (R213). -/
def oldestPend (s : State) (k region : Nat) : Option (Nat × Nat) :=
  let l := s.mu.pend.filter fun x =>
    let (o, t, row) := dirParts x.1
    o == k && (match tableRec s t with | some tr => tRegion tr == region | none => false)
    && (match shardPlace s t row with
        | some (_, da) => let e := dirOrHome s k t row da; inFar e.dest && !e.poisoned && e.st == .resident
        | none => false)
  (l.foldl (fun b x => match b with
    | some y => if x.2.oldest < y.2.oldest then some x else some y
    | none => some x) none).map fun x => (x.1 / 2 ^ 31 % 4096, x.1 % 2 ^ 31)

/-- The row may take a reserved directory entry for its pending entry, or holds one (R206, R212). -/
def pendRoom (s : State) (k t row : Nat) : Bool :=
  match shardPlace s t row with | some (_, da) => mayReserve s k (dirOrHome s k t row da) | none => false

/-- An entry put into the row's pending entry at its owner k; none when it needs a new one and the pool is full (R202), or no reserved
directory entry is free (R212; DEDUCED, log entry 24). At HIGH_MARK a row is paged in (R213; DEDUCED, log entry 24). -/
def pendEntry (s : State) (k t row : Nat) (e : Entry) : Option State :=
  match tableRec s t with
  | none => none
  | some tr =>
    match ledgerRec s k (tRegion tr) with
    | none => none
    | some r =>
      let key := pendKey k t row
      let old := look s.mu.pend key
      if old.isNone && (fld r 7 ≤ pendUsed s k (tRegion tr) || !pendRoom s k t row) then none
      else
        let s := flagPending (s.onMu fun m => { m with pend := put m.pend key (mergePend old e) }) k t row true
        if old.isNone && fld r 8 ≤ pendUsed s k (tRegion tr) then
          match oldestPend s k (tRegion tr) with
          | some (t', row') => some (pageInNow s k t' row').2
          | none => some s
        else some s

/-! Row messages (R189, R206, R208). -/

/-- Where a ROW add goes from MUk. -/
inductive AddRoute where
  | here
  | forward (ledger : Nat)
  | queue
  | hold
  | stale
  deriving DecidableEq, Repr

/-- The route of a ROW message that names a row of table t at MUk (R189, R206, R208). -/
def addRoute (s : State) (k : Nat) (m : AddMsg) (t row : Nat) : AddRoute :=
  match shardPlace s t row with
  | none => .here
  | some (o, da) =>
    if o = k && !m.fwd then
      match dirOf s k t row with
      | none => if ledgerOf k da = k then .here else .forward (ledgerOf k da)
      | some e =>
        if e.st = .moving then (if e.queued.length < 64 then .queue else .hold)
        else if e.ledgerDie = k then .here else .forward e.ledgerDie
    else
      match dirOf s o t row with
      | none => if ledgerOf o da = k then .here else .stale
      | some e =>
        if e.st = .moving && e.ledgerDie = k && e.started && e.targetDie != k then .forward e.targetDie
        else if e.ledgerDie = k then .here
        else if e.st = .moving && e.targetDie = k then .here
        else if e.st = .forwarding && e.prevLedger = k then .forward e.ledgerDie
        else .stale

/-- A message as another die sends it on (R190), out of its forward store (R309). -/
def forwardAdd (s : State) (k : Nat) (m : AddMsg) (ledger : Nat) : State :=
  noteFwd (sendAdd s { m with dst := 18 + ledger, fwd := true, via := some (18 + k) }) (18 + k)

/-- A message applied at MUk, and answered; true when the words of a ROW message were added. -/
def takeAdd (s : State) (k : Nat) (m : AddMsg) : Bool × State :=
  let drops := match tableRec s m.table with
    | some tr => (match ledgerRec s k (tRegion tr) with | some r => lateDrop r | none => false)
    | none => false
  let (a, s) := applyAdd s k m
  (match a with | .ack late => !(late && drops) | _ => false, answerAdd s m (18 + k) a)

/-- A ROW message at MUk: counted at the owner (R203), then applied, forwarded, queued, or refused as stale; the owner's heavy-hitter table
counts it unless it was refused or discarded (R204). -/
def routeAdd (s : State) (k : Nat) (m : AddMsg) (row : Nat) : State :=
  let r := addRoute s k m m.table row
  let own := !m.fwd && owns s k m.table row
  let hot (s : State) : State := if own then hotAdd s k m.table row m.count else s
  let s := if own && r != .hold then survey s k m.table row 0x110A8 m.count else s
  match r with
  | .here => (let (added, s) := takeAdd s k m; if added then hot s else s)
  | .forward l => hot (forwardAdd s k m l)
  | .queue =>
    match dirOf s k m.table row with
    | some e => noteFwd (hot (setDir s k m.table row { e with queued := e.queued ++ [m] })) (18 + k)
    | none => s
  | .hold => s
  | .stale => answerAdd (bump s (18 + k) 0x11058) m (18 + k) (.refuse stMalformed)

/-! DENSE words in memory (R187). -/

/-- The DENSE word, by its key, that a byte of a ledger area belongs to, and which of its ten bytes it is. -/
def denseAt (s : State) (a : Nat) : Option (Nat × Nat) :=
  (muslinOfHome a).bind fun k => (ledgerHolding s k).bind fun h =>
    ((sect s 0x0E).find? fun r => fld r 0 == k && fld r 2 == 1 && meets (fld h 5 + fld r 9, regionBytes s r) (a, 1)).map fun r =>
      let off := a - (fld h 5 + fld r 9)
      let i := off / 10
      (denseKey k (i / fld r 10) (fld r 1) (i % fld r 10), off % 10)

/-- One byte of Home, Stash or Far as a READ sees it: of a DENSE bank, its words. -/
def viewByte (s : State) (a : Nat) : Byte :=
  match denseAt s a with
  | some (key, j) => BitVec.ofNat 8 (twos 80 (lookD s.mu.dense key 0) / 256 ^ j)
  | none => readByte s.mem a

/-- n bytes of memory as a READ sees them. -/
def viewBytes (s : State) (a n : Nat) : List Byte := (List.range n).map fun i => viewByte s (a + i)

/-- A DENSE word with one of its bytes replaced. -/
def setWordByte (w : Int) (j : Nat) (b : Byte) : Int :=
  let v := twos 80 w
  signed 80 (v - v / 256 ^ j % 256 * 256 ^ j + b.toNat * 256 ^ j)

/-- Bytes written into the DENSE words that lie at an address and above. -/
def writeWords (s : State) (a : Nat) : List Byte → State
  | [] => s
  | b :: bs =>
    let s := match denseAt s a with
      | some (key, j) => s.onMu fun m =>
          { m with dense := (let w := setWordByte (lookD m.dense key 0) j b; if w = 0 then del m.dense key else put m.dense key w) }
      | none => s
    writeWords s (a + 1) bs

/-- A WRITE of bytes of memory. -/
def viewWrite (s : State) (a : Nat) (bs : List Byte) : State := writeWords (writeMem s a bs) a bs

end Sys2Proof.Machine
end

