-- ==== Sys2Proof/Machine/Ledger.lean ====
section
/-!
DEFINITION. The ledger unit's commands and events: MU_LEDGER_ADD (R198), ATOMIC_ADD (R190 to R193), seals (R199, R200), migrations (R207
to R211), MU_ROW_RESTORE (R216).
-/

namespace Sys2Proof.Machine

/-! MU_LEDGER_ADD (R198, R384). -/

/-- The source elements and scales. -/
def addSource (o : LedgerAddOp) : List Range :=
  (o.sAddr, elemBytes o.sSpec o.nElem) :: if specBlock o.sSpec then [(o.sScaleAddr, o.nElem / 32)] else []

/-- Words of one message (R190). -/
abbrev msgWords := 1536
/-- Messages of a command. -/
def addMsgs (o : LedgerAddOp) : Nat := ceilDiv o.nElem msgWords

/-- A local target's checks: the region, its end, its anchor, its panel. -/
def localAddBad (s : State) (h : Hdr) (o : LedgerAddOp) : Bool :=
  match ledgerRec s o.lMuslin (o.la / 2 ^ 40) with
  | none => true
  | some r => fld r 2 != 1 || o.la % 8 != 0 || fld r 10 < o.la % 2 ^ 40 / 8 + o.nElem || regionAnchor r != o.anchor
              || panelOfQueue s h.queue != some (fld r 3)

/-- The refusal of MU_LEDGER_ADD; the order among its checks is a choice (DESIGN CHOICE, log entry 22), and so is that S_SPEC may name INT32
(DESIGN CHOICE, log entry 88). -/
def addRefusal (s : State) (h : Hdr) (o : LedgerAddOp) : Option Nat :=
  match firstBad [
    (!dieUp s (engDie o.engine), stAbsent),
    (!specSrcOk (o.sSpec % 32) || o.nElem == 0 || 2 ^ 28 < o.nElem || !dimOk o.sSpec o.nElem || !startOk o.sSpec o.sAddr, stMalformed),
    (!o.remote && !dieUp s (18 + o.lMuslin), stAbsent),
    (!o.remote && localAddBad s h o, stMalformed),
    (selfMeet (addSource o), stMalformed),
    (o.remote && ((devRec s o.dev).isNone || o.dev == selfDev s), stMalformed),
    (o.remote && remoteGone s o.dev, stLinkLost)] with
  | some st => some st
  | none => firstSome ((addSource o).map fun r => checkDa s h false [r])

/-- The values that message j carries. -/
def msgValues (s : State) (o : LedgerAddOp) (j : Nat) : List Val :=
  let n := min msgWords (o.nElem - j * msgWords)
  let w := fmtWidth (specFmt o.sSpec)
  elemVals o.sSpec (unpack w n (readBytes s.mem (o.sAddr + j * msgWords * w / 8) (ceilDiv (n * w) 8)))
    ((readBytes s.mem (o.sScaleAddr + j * 48) (if specBlock o.sSpec then n / 32 else 0)).map BitVec.toNat)

/-- Message j sent under a TAG of the engine's die; none while R306 leaves no room. Non-finite elements count as in R197 (DESIGN CHOICE, log
entry 22). -/
def sendDense (s : State) (h : Hdr) (o : LedgerAddOp) (j : Nat) : Option State :=
  let d := engDie o.engine
  let vs := msgValues s o j
  let t := newTag s d
  let dst := if o.remote then linkOf s o.dev else 18 + o.lMuslin
  let r : OutReq := { die := d, tag := t, dst := dst, kind := rkAdd, resv := 1, flits := ceilDiv vs.length 24, remote := o.remote,
                      queue := h.queue, index := h.index, key := some (descKey h), step := h.stamp, dev := o.dev }
  if !reqRoom s r then none
  else
    let s := noteLoss (bumpBy s d 0x11038 (vs.filter fun v => !v.isFin).length) o.engine o.anchor 1 vs
    let m : AddMsg := { dst := dst, src := d, tag := t, panel := (panelOfQueue s h.queue).getD 0, da := o.la + 8 * msgWords * j,
                        anchor := o.anchor, dense := true, stepTag := h.stamp % 256, words := vs.map (toGrid o.anchor) }
    let s := s.onQm fun q => { q with waiting := q.waiting.map fun w => if sameDesc w.hdr h then { w with tags := w.tags ++ [reqWait d t] } else w }
    some (if o.remote then requestRemote s r (addFlit m) (18 + o.lMuslin) else sendAdd (openReq s r) m)

/-- Messages from j on, fuel messages, as far as R306 leaves room. -/
def sendAdds (s : State) (h : Hdr) (o : LedgerAddOp) : Nat → Nat → State
  | 0, _ => endAdds s h stDone
  | n + 1, j =>
    if addMsgs o ≤ j then endAdds s h stDone
    else if o.remote && remoteGone s o.dev then endAdds (countLost s o.dev) h stLinkLost
    else match sendDense s h o j with
      | some t => sendAdds t h o n (j + 1)
      | none => s.onMu fun m => { m with gatherPos := put m.gatherPos (descKey h) { bag := j } }

/-- MU_LEDGER_ADD past its checks. -/
def runAdd (s : State) (h : Hdr) (o : LedgerAddOp) : State :=
  let (lost, s) := checkReads s (addSource o)
  if lost then complete s h (engUnit o.engine) stEcc
  else sendAdds (waitFor s { hdr := h, unit := engUnit o.engine, tags := [moreKey h], status := 0 }) h o (addMsgs o) 0

/-- MU_LEDGER_ADD, R198; run again while it waits for room, it sends what is left. -/
def execMuLedgerAdd (h : Hdr) (op : LedgerAddOp) (s : State) : Out :=
  .next (match look s.mu.gatherPos (descKey h) with
    | some v => if mayBegin s h then sendAdds s h op (addMsgs op - v.bag) v.bag else s
    | none => runDesc s h fun s => match addRefusal s h op with
      | some st => complete (if st = stLinkLost then countLost s op.dev else s) h (engUnit op.engine) st
      | none => runAdd s h op)

/-! ATOMIC_ADD (R190 to R193). -/

/-- The message holds in the input of MUk: its row is MOVING and 64 messages are queued already (R208). -/
def addHeld (s : State) (m : AddMsg) : Bool :=
  isMu m.dst && !m.dense &&
  match rowOfDa s m.table m.da with
  | some row => addRoute s (m.dst - 18) m m.table row == .hold
  | none => false

/-- An add where it is delivered. A link die sends one for another device on (R370); no other die but a Muslin die takes one. -/
def landAdd (s : State) (m : AddMsg) : State :=
  if !dieUp s m.dst then s
  else match (if isRing m.dst || isTwin m.dst then m.beyond else none) with
    | some peer => leaveGauze s m.dst peer (addFlit m)
    | none =>
      if !isMu m.dst then answerAdd s m m.dst (.refuse stMalformed)
      else if addHeld s m then holdAdd s m
      else
        let k := m.dst - 18
        match (if m.dense then none else rowOfDa s m.table m.da) with
        | some row => routeAdd s k m row
        | none => (takeAdd s k m).2

/-- ATOMIC_ADD, R191; one that holds in the forward store stays there. -/
def execAtomicAdd (m : AddMsg) (s : State) : Out :=
  .next (if m.via = some m.dst && addHeld s m then s
    else match arriveAdd s m with
      | (some m, s) => landAdd s m
      | (none, s) => s)

/-! Seals (R199, R200). -/

/-- MU_SEAL, R199: the ledger unit waits for the edge on which the seal takes effect. -/
def execMuSeal (h : Hdr) (muslin expectStep : Nat) (s : State) : Out :=
  .next (runDesc s h fun s =>
    if !dieUp s (18 + muslin) then complete s h (ledgerUnit muslin) stAbsent
    else if (look s.mu.sealWait muslin).isSome then s
    else (markStarted s h).onMu fun m => { m with sealWait := put m.sealWait muslin (h, expectStep) })

/-- Rows in DRAINING on MUk: their migrations are abandoned (R210). -/
def abandonDraining (s : State) (k : Nat) : State :=
  (s.mu.dir.filter fun x => x.1 / 2 ^ 43 == k && x.2.st == .draining).foldl (fun s x =>
    let (_, t, row) := dirParts x.1
    abandonMove s k t row x.2) s

/-- A failed patch of a row that is still POISONED is tried again at each of the next three seals (R215) (DEDUCED, log entry 74). -/
def retryPatches (s : State) (k : Nat) : State :=
  (s.mu.dir.filter fun x => x.1 / 2 ^ 43 == k && x.2.poisoned).foldl (fun s x =>
    let (_, t, row) := dirParts x.1
    match look s.mu.patches x.1 with
    | some p => if !p.active && p.tries < 4 then startPatch s k t row else s
    | none => s) s

/-- The shadows of MUk's rows begin to be invalidated: every Muslin die and every compute die with a slot is to acknowledge (R183). -/
def startInvalidation (s : State) (k : Nat) : State :=
  s.onMu fun m =>
    { m with shadows := mapVals (fun key x =>
        if owns s k (key / 2 ^ 31) (key % 2 ^ 31) && !x.inval then
          { x with inval := true,
                   awaited := ((List.range 8).filter fun j => dieUp s (18 + j)).map (18 + ·)
                     ++ (insAll [] (x.slots.map (·.1))).filter (dieUp s) }
        else x) m.shadows }

/-- Entries and words that the scrub found uncorrectable are discarded at the seal of step n, counted, and the step's record is marked
(R266). -/
def dropLost (s : State) (k n : Nat) : State :=
  let gone (key : Nat) (e : Entry) : Bool := e.lost && key / 2 ^ 43 == k * 2 + n % 2
  let goneP (key : Nat) (e : Entry) : Bool := e.lost && key / 2 ^ 43 == k
  let words := s.mu.denseLost.filter fun key => key / 2 ^ 37 == k * 2 + n % 2
  let ps := s.mu.pend.filter fun x => goneP x.1 x.2
  let lost := (s.mu.entries.filter fun x => gone x.1 x.2).length + ps.length + words.length
  if lost = 0 then s
  else
    let s := reportLate (bumpBy s (18 + k) 0x11030 lost) n
    let s := s.onMu fun m =>
      { m with entries := keep (fun key e => !gone key e) m.entries, pend := keep (fun key e => !goneP key e) m.pend,
               dense := words.foldl (fun d key => del d key) m.dense, denseLost := m.denseLost.filter fun key => !words.contains key }
    ps.foldl (fun s x => let (_, t, row) := dirParts x.1; flagPending s k t row false) s

/-- The seal of step n takes effect on MUk (R200, R204, R205). -/
def sealNow (s : State) (k : Nat) (h : Hdr) : State :=
  let n := openStep s k
  let s := s.onMu fun m =>
    { m with sealWait := del m.sealWait k, openStep := put m.openStep k (n + 1), unreleased := put m.unreleased k n,
             heavyPrev := put m.heavyPrev k (lookD m.heavy k []), heavy := del m.heavy k, loadPrev := put m.loadPrev k (look0 m.load k % 2 ^ 48),
             load := del m.load k, sealing := put m.sealing k h,
             closed := m.closed.filter fun x => x / 64 != k,
             dir := mapVals (fun key e =>
               if e.st = .moving && (key / 2 ^ 43 == k || e.ledgerDie == k || e.targetDie == k) then { e with sealedIn := true } else e) m.dir }
  finishSeals (startInvalidation (retryPatches (abandonDraining (dropLost s k n) k) k) k)

/-- SEAL_TAKES_EFFECT, R200: once the bank of the step before has been released. -/
def execSealTakesEffect (muslin : Nat) (s : State) : Out :=
  .next (match look s.mu.sealWait muslin with
    | none => s
    | some (h, expect) =>
      if (look s.mu.unreleased muslin).isSome || (look s.mu.sealing muslin).isSome then s
      else if expect != openStep s muslin then
        complete (s.onMu fun m => { m with sealWait := del m.sealWait muslin }) h (ledgerUnit muslin) stMalformed
      else sealNow s muslin h)

/-! Migrations (R208 to R211). -/

/-- Refusals that MU_MIGRATE and MU_ROW_RESTORE share: ownership and panel, then the row's state. -/
def rowRefusal (s : State) (h : Hdr) (k t row : Nat) (poisonOk : Bool) (place : Bool) : Option Nat :=
  match tableRec s t, shardPlace s t row with
  | some tr, some (o, da) =>
    let e := dirOrHome s k t row da
    firstBad [
      (o != k || panelOfQueue s h.queue != some (tPanel tr) || !place, stMalformed),
      (e.st != .resident || (e.poisoned && !poisonOk) || shadowed s t row, stMalformed)]
  | _, _ => some stMalformed

/-- TARGET_DA is a record place in a migration area of the row's panel, or its shard-map DA. -/
def targetOk (s : State) (t row a : Nat) : Bool :=
  match tableRec s t, shardPlace s t row with
  | some tr, some (_, da) => a == da || (migrateAreas s (tPanel tr)).any fun r => within [r] (a, rowBytes tr)
  | _, _ => false

/-- MU_MIGRATE's refusal (R211). -/
def migrateRefusal (s : State) (h : Hdr) (k t row a : Nat) : Option Nat :=
  let n := match tableRec s t with | some tr => rowBytes tr | none => 1
  firstSome [
    if dieUp s (18 + k) then none else some stAbsent,
    r21 s [(a, n)],
    if (ledgerAreas s).any (meets (a, n)) then some stMalformed else none,
    rowRefusal s h k t row false (targetOk s t row a),
    let home := match shardPlace s t row with | some (_, da) => da | none => 0
    if ((dirOf s k t row).isNone && !dirRoom s k) || (a != home && !placeFree s (a, n)) then some stQuota else none]

/-- A migration selected: the row is DRAINING (R208). A page-in sets PAGED at its switch (R212). -/
def startMove (s : State) (k t row a : Nat) (waiter : Option Hdr) (pageIn : Bool) : State :=
  match shardPlace s t row with
  | none => s
  | some (_, da) =>
    let e := dirOrHome s k t row da
    setDir s k t row { e with st := .draining, target := a, targetDie := ledgerOf k a, waiter := waiter, started := false, switched := false,
                              sealedIn := false, queued := [], pageIn := pageIn }

/-- MU_MIGRATE, R211. -/
def execMuMigrate (h : Hdr) (muslin table row targetDa : Nat) (s : State) : Out :=
  .next (runDesc s h fun s => match migrateRefusal s h muslin table row targetDa with
    | some st => complete s h (ledgerUnit muslin) st
    | none => startMove (markStarted s h) muslin table row targetDa (some h) false)

/-- A sealed entry of the row still waits for the optimizer at its ledger die. -/
def rowPendingStep (s : State) (e : DirEntry) (t row : Nat) : Bool :=
  (look s.mu.unreleased e.ledgerDie).isSome && (look s.mu.entries (entryKey e.ledgerDie ((openStep s e.ledgerDie + 1) % 2) t row)).isSome

/-- A read of the record that MUk forwarded is still on its way. -/
def readInFlight (s : State) (k : Nat) (e : DirEntry) (n : Nat) : Bool :=
  s.gz.flits.any fun f => f.op == 0x01 && f.via == some (18 + k) && meets (f.da, 1) (e.dest, n)

/-- MIGRATION_MOVING, R208: the owner sends MOVE_START, for which it needs room (R305, R306). -/
def execMigrationMoving (owner table row : Nat) (s : State) : Out :=
  .next (match dirOf s owner table row, tableRec s table with
    | some e, some tr =>
      let r := rowMessage s rkMove owner table row (18 + e.ledgerDie)
      if e.st = .draining && !readInFlight s owner e (rowBytes tr) && !rowPendingStep s e table row && reqRoom s r then
        openReq (setDir s owner table row { e with st := .moving }) r
      else s
    | _, _ => s)

/-- MIGRATION_ABANDON, R208: 65,536 SCLK have passed. -/
def execMigrationAbandon (owner table row : Nat) (s : State) : Out :=
  .next (match dirOf s owner table row with
    | some e => if e.st = .draining then finishSeals (abandonMove s owner table row e) else s
    | none => s)

/-- An entry of Lo merged into Ln's of the same step. -/
def copyEntry (old : Option Entry) (e : Entry) : Entry :=
  let x := mergeEntry old e.count e.late e.oldest e.words
  { x with lost := x.lost || e.lost, ovf := x.ovf || e.ovf }

/-- The row's entries of both banks copied from Lo to Ln, each merged into the bank of its step; none where Ln's pool is full. Lo keeps its own
until FORWARDING ends (R208). -/
def copyEntries (s : State) (lo ln t row region entries : Nat) : Option State :=
  if lo = ln then some s
  else ([0, 1].foldl (fun o b => o.bind fun s =>
    match look s.mu.entries (entryKey lo b t row) with
    | none => some s
    | some e =>
      let old := look s.mu.entries (entryKey ln b t row)
      if old.isNone && entries ≤ entriesUsed s ln b region then none
      else some (s.onMu fun m => { m with entries := put m.entries (entryKey ln b t row) (copyEntry old e) })) (some s)).map fun s =>
    rowEntries s lo t row fun e => some { e with moved := true }

/-- An add for the row that the owner sent on is still on its way to Lo. -/
def addInFlight (s : State) (lo t row : Nat) : Bool :=
  s.gz.adds.any fun m => m.fwd && m.dst == 18 + lo && m.table == t && rowOfDa s t m.da == some row

/-- Lo copies the record and sends its entry to Ln (R208); a record read uncorrectable ends the migration and poisons the row (R210). A
copy that Ln's pool cannot take ends it too (DEDUCED, log entry 23). -/
def copyRow (s : State) (k t row : Nat) (e : DirEntry) (tr : Rec) : State :=
  let (lost, s) := checkRead s e.dest (rowBytes tr)
  if lost then
    let s := abandonMove s k t row e
    finishSeals (match shardPlace s t row with | some (_, da) => markPoisoned s k t row da | none => s)
  else
    let n := match ledgerRec s e.targetDie (tRegion tr) with | some r => fld r 6 | none => 0
    match copyEntries s e.ledgerDie e.targetDie t row (tRegion tr) n with
    | none => finishSeals (abandonMove s k t row e)
    | some s => setDir (writeMem s e.target (readBytes s.mem e.dest (rowBytes tr))) k t row { e with started := true }

/-- MOVE_START, R208: after every add the owner forwarded before it. -/
def execMoveStart (owner table row : Nat) (s : State) : Out :=
  .next (match dirOf s owner table row, tableRec s table with
    | some e, some tr =>
      if e.st = .moving && !e.started && !addInFlight s e.ledgerDie table row then copyRow s owner table row e tr else s
    | _, _ => s)

/-- A queued add at the switch: sent to Ln by the owner k, or put straight into the sealed bank when it carries the sealed step (R208, R210),
unless its panel is FAULTED (R193). -/
def releaseQueued (k ln : Nat) (sealed : Bool) (row : Nat) (s : State) (m : AddMsg) : State :=
  let n := openStep s ln
  let region := match tableRec s m.table with | some tr => tRegion tr | none => 256
  match ledgerRec s ln region with
  | some r =>
    if sealed && 1 ≤ n && m.stepTag % 256 = (n - 1) % 256 && regionAnchor r = m.anchor then
      if panelFaulted s (fld r 3) then bump s (18 + ln) 0x11030
      else
        let (a, s) := placeRow s ln ((n - 1) % 2) (n - 1) m.table row region (fld r 6) false m
        answerAdd s m (18 + ln) a
    else forwardAdd s k m ln
  | none => forwardAdd s k m ln

/-- The switch (R208). PAGED says from now on whether the row rests in the page-in area (R212). -/
def switchRow (s : State) (k t row : Nat) (e : DirEntry) : State :=
  let e' := { e with st := .forwarding, dest := e.target, ledgerDie := e.targetDie, prevDest := e.dest, prevLedger := e.ledgerDie, queued := [],
                     waiter := none, switched := false, paged := e.pageIn, pageIn := false }
  let s := closeRow (bump (setDir s k t row e') (18 + k) 0x11040) rkMove k t row
  let s := e.queued.foldl (releaseQueued k e.targetDie e.sealedIn row) s
  let s := match e.waiter with | some h => complete s h (ledgerUnit k) stDone | none => s
  finishSeals s

/-- MOVE_DONE, R208. -/
def execMoveDone (owner table row : Nat) (s : State) : Out :=
  .next (match dirOf s owner table row with
    | some e => if e.st = .moving && e.started then switchRow s owner table row e else s
    | none => s)

/-- SWITCH, R208: Lo learns that the queued adds have gone to Ln. -/
def execSwitchMsg (owner table row : Nat) (s : State) : Out :=
  .next (match dirOf s owner table row with
    | some e => if e.st = .forwarding && !e.switched then setDir s owner table row { e with switched := true } else s
    | none => s)

/-- FORWARDING_END, R208: Lo frees the old record and entry. -/
def execForwardingEnd (owner table row : Nat) (s : State) : Out :=
  .next (match dirOf s owner table row with
    | some e =>
      if e.st = .forwarding && e.switched then
        let s := rowEntries s e.prevLedger table row fun x => if x.moved then none else some x
        storeDir s owner table row { e with st := .resident, prevDest := 0, prevLedger := 0, target := 0, targetDie := 0, started := false, switched := false,
                                            sealedIn := false }
      else s
    | none => s)

/-! MU_ROW_RESTORE (R216). -/

/-- The refusal of MU_ROW_RESTORE: that of MU_MIGRATE, SRC_DA in place of TARGET_DA, and a POISONED row accepted. -/
def restoreRefusal (s : State) (h : Hdr) (k t row a : Nat) : Option Nat :=
  let n := match tableRec s t with | some tr => rowBytes tr | none => 1
  firstSome [
    if dieUp s (18 + k) then none else some stAbsent,
    r21 s [(a, n)],
    if (ledgerAreas s).any (meets (a, n)) then some stMalformed else none,
    rowRefusal s h k t row true true,
    if (dirOf s k t row).isNone && !dirRoom s k then some stQuota else none,
    checkDa s h false [(a, n)]]

/-- A record written anew to its row's place: POISON cleared, and POISONED (R215, R216). -/
def rewriteRow (s : State) (k t row : Nat) (bs : List Byte) : State :=
  match shardPlace s t row with
  | none => s
  | some (_, da) =>
    let e := dirOrHome s k t row da
    let s := writeMem (clearPoison s e.dest bs.length) e.dest bs
    let s := s.onMu fun m =>
      { m with patches := del m.patches (dirKey k t row), patchWait := m.patchWait.filter (· != dirKey k t row) }
    if (dirOf s k t row).isNone then s else storeDir s k t row { e with poisoned := false }

/-- MU_ROW_RESTORE past its checks. -/
def runRestore (s : State) (h : Hdr) (k t row a : Nat) (keepPending : Bool) : State :=
  match tableRec s t, shardPlace s t row with
  | some tr, some (_, da) =>
    let (lost, s) := checkRead s a (rowBytes tr)
    if lost then complete s h (ledgerUnit k) stEcc
    else
      let bs := readBytes s.mem a (rowBytes tr)
      let s1 := rewriteRow (journalWrite s k da (stepNow s) bs) k t row bs
      let s1 := if keepPending || (look s1.mu.pend (pendKey k t row)).isNone then s1
        else flagPending (s1.onMu fun m => { m with pend := del m.pend (pendKey k t row) }) k t row false
      finish s s1 h (ledgerUnit k) stDone
  | _, _ => complete s h (ledgerUnit k) stMalformed

/-- MU_ROW_RESTORE, R216. -/
def execMuRowRestore (h : Hdr) (muslin : Nat) (keepPending : Bool) (table row srcDa : Nat) (s : State) : Out :=
  .next (runDesc s h fun s => match restoreRefusal s h muslin table row srcDa with
    | some st => complete s h (ledgerUnit muslin) st
    | none => runRestore s h muslin table row srcDa keepPending)

end Sys2Proof.Machine
end

