-- ==== Sys2Proof/Machine/Upkeep.lean ====
section
/-!
DEFINITION. What goes on beside the descriptors: shadows (R180 to R184), STEP_START (R346), twin patches (R215, R399), patrol scrub (R265,
R266), refresh (R267) and bandwidth windows (R251 to R254).
-/

namespace Sys2Proof.Machine

/-! Shadows (R181, R183). -/

/-- Rows with more counts first, ties to the lower (table, row), fuel rows. -/
def topRows : Nat → List Heavy → List Heavy
  | 0, _ => []
  | _, [] => []
  | n + 1, h :: l =>
    let better (a b : Heavy) : Bool := a.count > b.count || (a.count == b.count && rowId a.table a.row < rowId b.table b.row)
    let m := l.foldl (fun x y => if better y x then y else x) h
    m :: topRows n ((h :: l).erase m)

/-- The rows of MUk that may be chosen for shadows (R181 step 1): of a table with SHADOW = 1, and RESIDENT. -/
def shadowable (s : State) (k : Nat) (x : Heavy) : Bool :=
  owns s k x.table x.row && (look s.mu.shadows (rowId x.table x.row)).isNone
  && (match tableRec s x.table with | some tr => fld tr 4 == 1 | none => false)
  && (match dirOf s k x.table x.row with | some e => e.st == .resident | none => true)

/-- A slot of a compute die's pool is free. -/
def slotUnused (s : State) (d i : Nat) : Bool := s.mu.shadows.all fun x => !x.2.slots.contains (d, i)

/-- The first free slot of a die for a panel's row: its pool's core is one of the panel's and in service. -/
def dieSlot (s : State) (p d : Nat) : Option (Nat × Nat) :=
  match shadowPool s d with
  | none => none
  | some r =>
    let g := 4 * (d - 2) + fld r 1
    if !dieUp s d || s.sv.fence.contains d || panelOfCore s g != some p || (coreOf s g).faulted then none
    else ((List.range (fld r 2)).find? (slotUnused s d)).map fun i => (d, i)

/-- Up to 4 slots on distinct dies of the panel, the lowest dies first (DESIGN CHOICE, log entry 25). -/
def pickSlots (s : State) (p : Nat) : List (Nat × Nat) := (((List.range 16).map (2 + ·)).filterMap (dieSlot s p)).take 4

/-- A row copied into its slots (R181 steps 2 and 3); a POISONED one gets none. -/
def buildShadow (k : Nat) (s : State) (x : Heavy) : State :=
  match tableRec s x.table, shardPlace s x.table x.row with
  | some tr, some (_, da) =>
    let sl := pickSlots s (tPanel tr)
    if sl.isEmpty || (dirOrHome s k x.table x.row da).poisoned then s
    else
      let a := readPlace s k x.table x.row da
      let (lost, s) := checkRead s a (rowBytes tr)
      if lost then markPoisoned s k x.table x.row da
      else
        let bs := readBytes s.mem a (rowBytes tr)
        let s := sl.foldl (fun s q =>
          match slotPlace s q.1 q.2 with
          | some (g, off) =>
            if cbWriteBad s g off bs.length then panelFaultAt (cbWrite s g off bs) g
            else (cbWrite s g off bs).onMu fun m => { m with slotValid := ins m.slotValid (slotKey q.1 q.2) }
          | none => s) s
        s.onMu fun m => { m with shadows := put m.shadows (rowId x.table x.row) { slots := sl } }
  | _, _ => s

/-- Every Muslin die builds its shadows at step open. -/
def buildShadows (s : State) : State :=
  (musUp s).foldl (fun s k => (topRows 1024 ((lookD s.mu.heavyPrev k []).filter (shadowable s k))).foldl (buildShadow k) s) s

/-- SHADOW_ENTRY_VALID, R181. -/
def execShadowEntryValid (owner table row : Nat) (s : State) : Out :=
  .next (match look s.mu.shadows (rowId table row) with
    | some x =>
      if owns s owner table row && !x.inval then
        s.onMu fun m => { m with shadows := put m.shadows (rowId table row) { x with valid := true } }
      else s
    | none => s)

/-- SHADOW_INVALIDATION, R183: the die marks the entry, or its slots, invalid and acknowledges. -/
def execShadowInvalidation (die owner table row : Nat) (s : State) : Out :=
  .next (match look s.mu.shadows (rowId table row) with
    | some x =>
      if owns s owner table row && x.inval && x.awaited.contains die then
        let mine := (x.slots.filter fun q => q.1 == die).map fun q => slotKey q.1 q.2
        let left := x.awaited.erase die
        finishSeals (s.onMu fun m =>
          { m with slotValid := m.slotValid.filter fun q => !mine.contains q,
                   shadows := if left.isEmpty then del m.shadows (rowId table row)
                              else put m.shadows (rowId table row) { x with awaited := left } })
      else s
    | none => s)

/-! The step opens (R346 step 1). -/

/-- The next step of an active run may start: OPEN is held (R380), no load waits, and its records have slots. -/
def mayStart (s : State) : Bool :=
  s.seq.run.isSome && s.seq.phase == 0 && s.img.inForce.isSome && s.img.staged.isNone && openHeld s s.seq.step && stepRoom s

/-- The CCLK spent at the start gate, counted where other devices were awaited: a free value (R380; DESIGN CHOICE, log entry 2). -/
def countGate (s : State) : State := if (devices s).length ≤ 1 then s else bumpBy s.took 0 0x70030 (fresh s % 2 ^ 32)

/-- STEP_START, R346. -/
def execStepStart (s : State) : Out := .next (if mayStart s then startStep (buildShadows (countGate s)) else s)

/-! Twin patches (R215, R399). -/

/-- The twin has acknowledged every journal record of MUk up to J. -/
def journalAcked (s : State) (k : Nat) (p : Patch) : Bool :=
  s.twin.sendLog.all fun x => x.2.muslin != k || 2 ^ 31 ≤ (p.journal + 2 ^ 32 - x.2.jseq - 1) % 2 ^ 32

/-- A patch attempt ends without a record (R215). -/
def failPatch (s : State) (k t row : Nat) (p : Patch) : State :=
  bump (s.onMu fun m => { m with patches := put m.patches (dirKey k t row) { p with active := false } }) (18 + k) 0x11070

/-- The TAG of an unanswered patch request is quarantined (R308). -/
def quarantineRow (s : State) (kind k t row : Nat) : State :=
  match rowReq s kind k t row with
  | some r => (closeReq s r.die r.tag).onGz fun g => { g with quarantined := ins g.quarantined (r.die * 65536 + r.tag) }
  | none => s

/-- PATCH_ANSWER, R215. -/
def execPatchAnswer (owner table row : Nat) (record : List Byte) (poisoned : Bool) (s : State) : Out :=
  .next (match look s.mu.patches (dirKey owner table row), tableRec s table with
    | some p, some tr =>
      if !p.active || !journalAcked s owner p then s
      else
        let s := closeRow s rkPatch owner table row
        wakePatch (if poisoned then failPatch s owner table row p
          else bump (rewriteRow s owner table row (padTo (rowBytes tr) record)) (18 + owner) 0x11068) owner
    | _, _ => s)

/-- PATCH_TIMEOUT, R215: no answer within 2^20 CCLK. -/
def execPatchTimeout (owner table row : Nat) (s : State) : Out :=
  .next (match look s.mu.patches (dirKey owner table row) with
    | some p => if p.active then wakePatch (failPatch (quarantineRow s rkPatch owner table row) owner table row p) owner else s
    | none => s)

/-- PATCH_REQUEST, R399: answered over the twin port with the newest version of the record. Its bytes are the twin's to use, and where a
row lies in a shadow range is not stated (DESIGN CHOICE, log entry 26). -/
def execPatchRequest (table row : Nat) (s : State) : Out :=
  .next (if twinUp s && s.twin.st != tsUnpaired then s.onTwin fun t => { t with outbox := t.outbox ++ [3 + rowId table row] } else s)

/-! Patrol scrub (R265, R266). -/

/-- Rows whose records touch a range of bytes where they now rest. -/
def rowsAt (s : State) (q : Range) : List (Nat × Nat × Nat) :=
  let home := (sect s 0x11).flatMap fun r =>
    match tableRec s (fld r 1) with
    | none => []
    | some tr =>
      let n := rowBytes tr
      if !meets (fld r 4, fld r 3 * n) q then []
      else
        let i0 := (q.1 - fld r 4) / n
        ((List.range (q.2 / n + 2)).map (i0 + ·)).filterMap fun i =>
          let row := fld r 0 + i
          if i < fld r 3 && meets (fld r 4 + i * n, n) q && (dirOf s (fld r 2) (fld r 1) row).all (fun e => e.dest == fld r 4 + i * n) then
            some (fld r 2, fld r 1, row)
          else none
  let moved := s.mu.dir.filterMap fun x =>
    let p := dirParts x.1
    let at_ := match shardPlace s p.2.1 p.2.2 with | some (_, da) => x.2.dest == da | none => true
    if !at_ && meets (x.2.dest, entryRb s x.1) q then some p else none
  home ++ moved

/-- What of a ROW region's bank or pending pool lies at a slot is not stated: the entry lost is a free value among the pool's slots
(DESIGN CHOICE, log entry 27). -/
def loseEntry (s : State) (k : Nat) (pendPool : Bool) (bank region slots : Nat) : State :=
  let pick := fresh s % (slots + b2n (slots == 0))
  let mine (t : Nat) : Bool := match tableRec s t with | some tr => tRegion tr == region | none => false
  let s := s.took
  if pendPool then
    match (s.mu.pend.filter fun x => x.1 / 2 ^ 43 == k && mine (x.1 / 2 ^ 31 % 4096))[pick]? with
    | some x => s.onMu fun m => { m with pend := put m.pend x.1 { x.2 with lost := true } }
    | none => s
  else
    match (s.mu.entries.filter fun x => x.1 / 2 ^ 43 == k * 2 + bank && mine (x.1 / 2 ^ 31 % 4096))[pick]? with
    | some x => s.onMu fun m => { m with entries := put m.entries x.1 { x.2 with lost := true } }
    | none => s

/-- The words of a DENSE bank that 64 bytes from its byte lo on touch are lost (R266): those of the open bank are discarded at its seal, those
of a sealed one at once. Each is counted and marks the step (DESIGN CHOICE, log entry 27). -/
def loseWords (s : State) (k bank region lo : Nat) : State :=
  let hit := (((List.range 8).map (lo / 10 + ·)).map (denseKey k bank region)).filter fun key => (look s.mu.dense key).isSome
  if openStep s k % 2 = bank then s.onMu fun m => { m with denseLost := insAll m.denseLost hit }
  else if hit.isEmpty then s
  else
    let s := s.onMu fun m => { m with dense := hit.foldl (fun d key => del d key) m.dense }
    reportLate (bumpBy s (18 + k) 0x11030 hit.length) (openStep s k - 1)

/-- An uncorrectable sector in a ledger area. -/
def loseLedger (s : State) (k : Nat) (q : Range) : State :=
  match ledgerHolding s k with
  | none => s
  | some h =>
    ((sect s 0x0E).filter fun r => fld r 0 == k).foldl (fun s r =>
      let base := fld h 5 + fld r 9
      if !meets (base, regionBytes s r) q then s
      else
        let off := max q.1 base - base
        if fld r 2 = 1 then
          let bank := off / (10 * fld r 10)
          loseWords s k bank (fld r 1) (off % (10 * fld r 10))
        else
          let e := roundUp (32 + 10 * wMax s (fld r 1)) 64
          let slot := off / e
          if slot < 2 * fld r 6 then loseEntry s k false (slot / fld r 6) (fld r 1) (fld r 6) else loseEntry s k true 0 (fld r 1) (fld r 7)) s

/-- The patrol scrub's look at one sector: corrected data are rewritten; an uncorrectable sector is rewritten with POISON = 1, counted,
and its row, or its ledger entry, is dealt with. -/
def scrubSector (s : State) (a : Nat) : State :=
  match look s.mem.latent (a / 64) with
  | none => s
  | some false => ((readSector s (a / 64)).2).onMem fun m => { m with latent := del m.latent (a / 64) }
  | some true =>
    let s := (readSector s (a / 64)).2
    let s := (rowsAt s (a, 64)).foldl (fun s x =>
      match shardPlace s x.2.1 x.2.2 with | some (_, da) => markPoisoned s x.1 x.2.1 x.2.2 da | none => s) s
    match muslinOfHome a with
    | some k => loseLedger s k (a, 64)
    | none => s

/-- Key of the completed passes over one stack. -/
def halfKey (d h : Nat) : Nat := 64 + 2 * d + h

/-- The scrub's place moves on; a pass is complete once every stack of the die has been passed. -/
def scrubMove (s : State) (d h pos last : Nat) : State :=
  if pos + 1 < last then s.onMu fun m => { m with scrubPos := put m.scrubPos (d * 2 + h) (pos + 1) }
  else
    s.onMu fun m =>
      let p := put m.scrubPass (halfKey d h) (look0 m.scrubPass (halfKey d h) + 1)
      let n := if isMu d then min (look0 p (halfKey d 0)) (look0 p (halfKey d 1)) else look0 p (halfKey d 0)
      { m with scrubPos := put m.scrubPos (d * 2 + h) 0, scrubPass := put p d (min n (2 ^ 32 - 1)) }

/-- SCRUB_READ, R266. -/
def execScrubRead (die half : Nat) (s : State) : Out :=
  .next (if !dieUp s die then s
    else
      let pos := look0 s.mu.scrubPos (die * 2 + half)
      if isMu die && stackUp s (2 * (die - 18) + half) then
        scrubMove (scrubSector s (stackSize * (2 * (die - 18) + half) + 64 * pos)) die half pos (stackSize / 64)
      else if isSt die && half = 0 then scrubMove (scrubSector s (stashBase + gib * (die - 26) + 64 * pos)) die 0 pos (gib / 64)
      else s)

/-! Refresh (R267). -/

/-- REFRESH, R267, of bank b of a stack: 64 banks to each of its 32 pseudo-channels (PRESUMED, log entry 101). The bank's count
falls, by how much the HBM3 standard says (DESIGN CHOICE, log entry 28). -/
def execRefresh (stack bank : Nat) (s : State) : Out :=
  .next (if !stackUp s stack || 2048 ≤ bank then s
    else
      let b := stack * 2048 + bank
      setActs s.took b (bankActs s b - fresh s % 2 ^ 16))

/-! Bandwidth windows (R251 to R254). -/

/-- Sectors one after another, one to each claimant in turn that still wants one, fuel sectors: what each has got. -/
def roundRobin : Nat → List (Nat × Nat) → FMap Nat → FMap Nat
  | 0, _, got => got
  | _, [], got => got
  | n + 1, (p, w) :: l, got =>
    let got := put got p (look0 got p + 1)
    roundRobin n (if w ≤ 1 then l else l ++ [(p, w - 1)]) got

/-- Claimants in turn from the one after the one served first in the window before (DESIGN CHOICE, log entry 76). -/
def turnFrom (last : Nat) (l : List (Nat × Nat)) : List (Nat × Nat) := l.filter (last < ·.1) ++ l.filter (·.1 ≤ last)

/-- One share of a die's or port's window: guaranteed parts first, then what is left in turn (R253). wants gives each claimant's waiting
sectors. The grants, and the claimant served first. -/
def grantShare (total : Nat) (guaranteed : Nat → Nat) (last : Nat) (wants : List (Nat × Nat)) : FMap Nat × Nat :=
  let first := wants.map fun w => (w.1, min w.2 (guaranteed w.1))
  let got := first.foldl (fun m g => if g.2 = 0 then m else put m g.1 g.2) []
  let left := total - (first.map (·.2)).sum
  let rest := turnFrom last ((wants.map fun w => (w.1, w.2 - min w.2 (guaranteed w.1))).filter (0 < ·.2))
  (roundRobin left rest got, match rest with | x :: _ => x.1 | [] => last)

/-- The sectors that one Muslin engine after another may take of those it has waiting: a quarter of the share each, over all panels (R253
step 3). left gives what each engine may still take. -/
def engineWants (s : State) : List Nat → FMap Nat → Nat × FMap Nat × State
  | [], left => (0, left, s)
  | e :: l, left =>
    let w := min (fresh s % 2305) (look0 left e)
    let (n, left, s) := engineWants s.took l (put left e (look0 left e - w))
    (w + n, left, s)

/-- Waiting sectors of the claimants, those of the engines' reads among them: which requests wait at a moment is time, a free value (DESIGN
CHOICE, log entries 2 and 29). -/
def freeWants (s : State) (engines : List Nat) : List Nat → FMap Nat → List (Nat × Nat) × State
  | [], _ => ([], s)
  | p :: l, left =>
    let w := fresh s % 2305
    let (n, left, s) := engineWants s.took engines left
    let (r, s) := freeWants s engines l left
    (if w + n = 0 then r else (p, w + n) :: r, s)

/-- The slot, beside the shares, under which the grants of a die's forward store stand. -/
def fwdSlot (k share : Nat) : Nat := (k * 4 + 3) * 64 + share

/-- What the forward store of a die takes first of its READ and WRITE shares (R310): a free value while it holds flits. -/
def fwdGrant (s : State) (k share total : Nat) : Nat :=
  if 8 ≤ k || 2 ≤ share || fwdFlits s (18 + k) = 0 then 0 else min total (fresh s % 2305)

/-- A window of one share: the grants are recorded, and what still waits is counted (R254). -/
def openShare (s : State) (k share total : Nat) (claimants : List Nat) (guaranteed : Nat → Nat) : State :=
  let fwd := fwdGrant s k share total
  let engines := if k < 8 && share = 0 then List.range 32 else []
  let (wants, s) := freeWants s.took engines claimants (engines.foldl (fun m e => put m e (total / 4)) [])
  let key := k * 4 + share
  let (got, first) := grantShare (total - fwd) guaranteed (look0 s.mu.bwServed key) wants
  let short := (wants.map fun w => w.2 - look0 got w.1).sum
  let s := s.onMu fun m =>
    { m with bwServed := put m.bwServed key first,
             bwGrant := (let g := got.foldl (fun g x => put g (key * 64 + x.1) x.2) (keep (fun q _ => q / 64 != key) m.bwGrant)
                         if fwd = 0 then del g (fwdSlot k share) else put g (fwdSlot k share) fwd) }
  if short = 0 || 8 ≤ k then s else bumpBy s.took (18 + k) (0x13018 + 8 * share) (1 + fresh s % short)

/-- Link dies that may bring remote traffic. -/
def linkDies (s : State) : List Nat := [34, 35, 36, 37, 38, 39].filter (dieUp s)

/-- BANDWIDTH_WINDOW, R252: parts set since the last window hold from this one on. -/
def execBandwidthWindow (far : Bool) (index : Nat) (s : State) : Out :=
  .next (
    let panels := (sect s 0x04).map (fld · 0)
    if far then
      -- 64 GB/s per direction (R243): 60 sectors of a 60 ns window
      if 4 ≤ index then s
      else openShare s (8 + index) 0 60 panels fun p => 60 * look0 s.img.farParts p / 16
    else if !isMu index || !dieUp s index then s
    else
      let k := index - 18
      let r := (muslinRec s k).getD [0, 0, k, 10, 4, 2]
      let s := openShare s k 0 (144 * fld r 3) panels fun p => 9 * fld r 3 * look0 s.img.parts (p * 16 + k * 2)
      let s := openShare s k 1 (144 * fld r 4) panels fun p => 9 * fld r 4 * look0 s.img.parts (p * 16 + k * 2 + 1)
      openShare s k 2 (144 * fld r 5) (linkDies s) fun _ => 0)

end Sys2Proof.Machine
end

