-- ==== Sys2Proof/Machine/F32.lean ====
section
/-!
DEFINITION. The optimizer's arithmetic: F32 (R225), parameter blocks (R226), gradient coding (R222, R223), and the conversions of R231.
-/

namespace Sys2Proof.Machine

/-! F32 (R225): values rounded to 24 bits, subnormals zero, saturating, never NaN or infinite. -/

/-- The largest finite F32 magnitude. -/
def f32Max : Nat × Int := (2 ^ 24 - 1, 104)

/-- A magnitude rounded into F32. -/
def f32Mag (m : Nat) (e : Int) : Nat × Int :=
  if m = 0 then (0, 0)
  else
    let q := leadExp m e - 23
    let n := roundTo .rne m e q
    if leadExp n q < -126 then (0, 0) else if !magLe (n, q) f32Max then f32Max else (n, q)

/-- A finite value rounded into F32; an infinity saturates. -/
def f32 : Val → Val
  | .fin s m e => let r := f32Mag m e; .fin s r.1 r.2
  | .inf s => .fin s f32Max.1 f32Max.2
  | .nan => Val.zero

def fAdd (x y : Val) : Val := f32 (x.add y)
def fSub (x y : Val) : Val := f32 (x.add y.neg)
def fMul (x y : Val) : Val := f32 (x.mul y)

/-- A quotient of magnitudes with its last bit set when anything is lost: 64 bits and more, so that rounding it once rounds the exact
quotient. -/
def quotMag (m : Nat) (e : Int) (n : Nat) (f : Int) : Nat × Int :=
  let k := 66 + Nat.log2 n
  let x := m * 2 ^ k
  let q := x / n
  (if x % n = 0 then q else if q % 2 = 0 then q + 1 else q, e - f - k)

/-- Division in F32. A divisor of zero is never met: every divisor carries EPS, or is checked (R226, R228). -/
def fDiv (x y : Val) : Val :=
  match x, y with
  | .fin s m e, .fin t n f => if n = 0 then .fin (s != t) f32Max.1 f32Max.2 else let q := quotMag m e n f; f32 (.fin (s != t) q.1 q.2)
  | _, _ => Val.zero

/-- The exact value divided by a whole number, rounded once. -/
def fDivNat (x : Val) (n : Nat) : Val :=
  match x with
  | .fin s m e => let q := quotMag m e n 0; f32 (.fin s q.1 q.2)
  | v => f32 v

/-- The integer square root of n, bit by bit from bit k − 1 down. -/
def isqrt (n : Nat) : Nat → Nat → Nat
  | 0, r => r
  | k + 1, r => let r' := r + 2 ^ k; if r' * r' ≤ n then isqrt n k r' else isqrt n k r

/-- The square root in F32 of a value that is not negative. -/
def fSqrt (x : Val) : Val :=
  match x with
  | .fin _ m e =>
    if m = 0 then Val.zero
    else
      -- an even exponent and 64 bits and more of root
      let k : Nat := 130 + (if (e - 130) % 2 = 0 then 0 else 1)
      let n := m * 2 ^ k
      let r := isqrt n (Nat.log2 n / 2 + 1) 0
      f32 (.fin false (if r * r = n then 2 * r else 2 * r + 1) ((e - k) / 2 - 1))
  | v => f32 v

/-- A binary32 word; none for NaN and the infinities. A subnormal word enters F32 as zero (R225; DESIGN CHOICE, log entry 30). -/
def ofB32 (w : Nat) : Option Val :=
  let (s, e, m) := (bit w 31, bits w 30 23, w % 2 ^ 23)
  if e = 255 then none else if e = 0 then some (.fin s 0 0) else some (.fin s (m + 2 ^ 23) (e - 150))

/-- The binary32 word of an F32 value. -/
def toB32 : Val → Nat
  | .fin s m e =>
    let r := f32Mag m e
    2 ^ 31 * b2n s + (if r.1 = 0 then 0 else
      let l := leadExp r.1 r.2
      (l + 127).toNat * 2 ^ 23 + (r.1 * 2 ^ 23 / 2 ^ Nat.log2 r.1 - 2 ^ 23))
  | _ => 0

/-! Parameter blocks (R226). -/

structure Params where
  lr    : Val
  beta1 : Val
  c1    : Val
  beta2 : Val
  c2    : Val
  eps   : Val
  wd    : Val
  gmul  : Val

/-- One. -/
def Val.one : Val := .fin false 1 0
/-- Not negative. -/
def nonNeg (v : Val) : Bool := !Val.lt v Val.zero

/-- The parameter block of 32 bytes; none when a value lies outside its range. -/
def paramsOf (bs : List Byte) : Option Params :=
  match (List.range 8).mapM fun i => ofB32 (ofLe ((bs.drop (4 * i)).take 4)) with
  | some [lr, b1, c1, b2, c2, eps, wd, gm] =>
    if [lr, b1, c1, b2, c2, wd].all nonNeg && !Val.lt Val.one b1 && !Val.lt Val.one b2 && Val.lt Val.zero eps then
      some { lr := lr, beta1 := b1, c1 := c1, beta2 := b2, c2 := c2, eps := eps, wd := wd, gmul := gm }
    else none
  | _ => none

/-- β^k by k − 1 multiplications (R227). -/
def powF (b : Val) : Nat → Val
  | 0 => b
  | k + 1 => fMul (powF b k) b

/-! Error terms (R222, R223). Distances are magnitudes (m, e). -/

/-- The magnitude of an E5M2 code as it is read. -/
def e5Mag (c : Nat) : Nat × Int := match decodeVal 4 (c % 128) with | .fin _ m e => (m, e) | _ => (0, 0)

/-- a − b for magnitudes a at least b. -/
def magSub (a b : Nat × Int) : Nat × Int :=
  let u := min a.2 b.2
  (a.1 * 2 ^ (a.2 - u).toNat - b.1 * 2 ^ (b.2 - u).toNat, u)

/-- The distance from a code's magnitude to the next one above; the smallest magnitude above zero is the least normal number, since
subnormal codes read as zero (R84). -/
def distUp (c : Nat) : Nat × Int :=
  let c := c % 128
  if c = 0x7B then magSub (e5Mag 0x7B) (e5Mag 0x7A)
  else if c < 4 then e5Mag 4
  else magSub (e5Mag (c + 1)) (e5Mag c)

/-- The distance to the next one below; none below zero. -/
def distDn (c : Nat) : Option (Nat × Int) :=
  let c := c % 128
  if c < 4 then none else if c = 4 then some (e5Mag 4) else some (magSub (e5Mag c) (e5Mag (c - 1)))

/-- A finite value the spec does not state (DESIGN CHOICE, log entry 30). -/
def freeVal (s : State) : Val × State :=
  let m := fresh s
  let s := s.took
  (.fin (m % 2 == 1) (m / 2) (signed 12 (fresh s)), s.took)

/-- The value carried by error term q of a code with block scale sc (R222): none where it is not stated, for a code that is not finite or
has no magnitude below. -/
def carriedErr (q : Int) (c sc : Nat) : Option Val :=
  if sc % 256 = 255 || 0x7C ≤ c % 128 then none
  else
    let d := if 0 ≤ q then some (distUp c) else distDn c
    d.map fun d =>
      let e := d.2 + ((sc % 256 : Nat) : Int) - 127 - 7
      .fin ((c / 128 % 2 == 1) != decide (q < 0)) (q.natAbs * d.1) e

/-- A whole quotient a / b rounded to nearest even. -/
def rneDiv (a b : Nat) : Nat :=
  let lo := a / b
  let r := a % b
  if b < 2 * r || (2 * r == b && lo % 2 == 1) then lo + 1 else lo

/-- The new error term of |g| coded as c under scale sc (R223). -/
def errTerm (g : Nat × Int) (c sc : Nat) : Int :=
  let v : Nat × Int := ((e5Mag c).1, (e5Mag c).2 + (sc : Int) - 127)
  let up := magLe v g
  let r := if up then magSub g v else magSub v g
  let d0 := if up then distUp c else (distDn c).getD (1, 0)
  let d : Nat × Int := (d0.1, d0.2 + (sc : Int) - 127)
  let u := min r.2 d.2
  let q : Nat := rneDiv (128 * (r.1 * 2 ^ (r.2 - u).toNat)) (max 1 (d.1 * 2 ^ (d.2 - u).toNat))
  let i := min q 127
  if up then i else -(i : Int)

/-! FP16 fields of a row (R231). -/

/-- ±65,504. -/
def fp16Max : Nat × Int := (2047, 5)

/-- The largest FP16 value at or below a value, clamped at ±65,504. Subnormal codes are no values here (R84). -/
def fp16Below (v : Val) : Val :=
  match v with
  | .fin s m e =>
    if m = 0 then Val.zero
    else if !magLe (m, e) fp16Max then .fin s fp16Max.1 fp16Max.2
    else
      let l := leadExp m e
      if l < -14 then (if s then .fin true 1 (-14) else Val.zero)
      else
        let q := l - 10
        let n := if q ≤ e then m * 2 ^ (e - q).toNat
                 else let d := 2 ^ (q - e).toNat; if s then ceilDiv m d else m / d
        if s && !magLe (n, q) fp16Max then .fin true fp16Max.1 fp16Max.2 else .fin s n q
  | _ => Val.zero

/-- The smallest FP16 value at or above m × 2^e / c, at least 2^−14, clamped at 65,504. -/
def fp16Above (m : Nat) (e : Int) (c : Nat) : Val :=
  let q0 := leadExp m e - Nat.log2 c - 11
  let at_ (q : Int) : Nat := if q ≤ e then ceilDiv (m * 2 ^ (e - q).toNat) c else ceilDiv m (c * 2 ^ (q - e).toNat)
  let q := if at_ q0 ≤ 2048 then q0 else q0 + 1
  let r : Nat × Int := (at_ q, q)
  if leadExp r.1 r.2 < -14 then .fin false 1 (-14) else if !magLe r fp16Max then .fin false fp16Max.1 fp16Max.2 else .fin false r.1 r.2

/-- The quotient (y − o) / sc as a signed ratio of whole numbers, for sc not zero. -/
def codeQuot (y o sc : Val) : Int × Nat :=
  let d := (y.add o.neg).num
  let k := sc.num
  let u := min d.2 k.2
  let n := scaleTo d.1 d.2 u
  let b := scaleTo k.1 k.2 u
  if b < 0 then (-n, b.natAbs) else (n, b.natAbs)

/-- A quotient lies in 0 to CODEMAX; under SCALE 0 only where y is OFFSET. -/
def codeFits (cmax : Nat) (o sc y : Val) : Bool :=
  if sc.num.1 = 0 then (y.add o.neg).num.1 == 0
  else let q := codeQuot y o sc; decide (0 ≤ q.1) && decide (q.1 ≤ (cmax * q.2 : Nat))

/-- The SR of a quotient onto 0 to CODEMAX with a draw (R97, R231). -/
def srCode (cmax : Nat) (o sc y : Val) (d : Nat) : Nat :=
  let q := codeQuot y o sc
  let lo := q.1 / (q.2 : Int)
  let rem := (q.1 % (q.2 : Int)).toNat
  let i := if 65536 ≤ rem * 65536 / q.2 + d then lo + 1 else lo
  (max 0 (min (cmax : Int) i)).toNat

end Sys2Proof.Machine
end

