-- ==== Sys2Proof/Machine/Optimizer.lean ====
section
/-!
DEFINITION. The optimizer unit (R218 to R240): MU_OPT_DENSE, MU_OPT_CLOSE, and the release of a bank with what follows it (R202, R207, R212).
-/

namespace Sys2Proof.Machine

/-! Words and lanes. -/

/-- The lane that processes element j on MUk's optimizer unit (R224, R233). -/
def optLane (k j : Nat) : Nat := 65536 + 256 * k + 128 + j % 32
/-- The low 64 bits of a ledger word (R201). -/
def low64 (w : Int) : Int := signed 64 (twos 64 w)
/-- Words that lie outside the 64-bit range. -/
def overflowed (ws : List Int) : Nat := (ws.filter fun w => decide (w < -2 ^ 63) || decide (2 ^ 63 - 1 < w)).length

/-- Elements paired with their lanes, element j being number j0 + j. -/
def withLanes (k j0 : Nat) (vs : List Val) : List (Val × Nat) := ((List.range vs.length).zip vs).map fun p => (p.2, optLane k (j0 + p.1))

/-- Values drawn onto a format by SR, scaled per block. -/
def srList (s : State) (k spec : Nat) (scs : List Nat) (vs : List Val) : List Nat × State :=
  convList s spec true (drawFixed s) scs 0 (withLanes k 0 vs)

/-- A stored moment as it enters F32; one that reads NaN or infinite has no stated value (DESIGN CHOICE, log entry 30). -/
def momentVal (s : State) (v : Val) : Val × State :=
  match v with
  | .fin _ _ _ => (f32 v, s)
  | _ => let (x, s) := freeVal s; (f32 x, s)

/-- Stored moments one after another. -/
def momentVals (s : State) : List Val → List Val × State
  | [] => ([], s)
  | v :: r =>
    let (x, s) := momentVal s v
    let (xs, s) := momentVals s r
    (x :: xs, s)

/-- Gradients with the carried errors of their old codes (R223), one after another: (x, E, old code, old scale). -/
def withCarried (s : State) : List (Val × Nat × Nat × Nat) → List Val × State
  | [] => ([], s)
  | (x, e, c, sc) :: r =>
    let (v, s) := match carriedErr (signed 8 e) c sc with | some v => (v, s) | none => freeVal s
    let (vs, s) := withCarried s r
    (x.add v :: vs, s)

/-- The magnitude of a finite value. -/
def magOf : Val → Nat × Int
  | .fin _ m e => (m, e)
  | _ => (0, 0)

/-- A gradient coded: scales, codes and error terms of a run of elements in blocks of 32 (R223). -/
def codeGrads (s : State) (k : Nat) (gs : List Val) : (List Nat × List Nat × List Nat) × State :=
  let scs := rowScales 0x14 gs
  let (cs, s) := srList s k 0x14 scs gs
  let es := ((List.range gs.length).zip (gs.zip cs)).map fun p =>
    twos 8 (errTerm (magOf p.2.1) p.2.2 (scs.getD (p.1 / 32) 127))
  ((scs, cs, es), s)

/-- The coded gradients as F32 values, times GRAD_MUL (R227). -/
def gradVals (p : Params) (scs cs : List Nat) : List Val :=
  ((List.range cs.length).zip cs).map fun c => fMul (f32 (decodeScaled 4 c.2 (scs.getD (c.1 / 32) 127))) p.gmul

/-- w − lr × (u + wd × w). -/
def stepVal (p : Params) (w u : Val) : Val := fSub w (fMul p.lr (fAdd u (fMul p.wd w)))

/-- A list's sum of exact squares. -/
def sumSquares (vs : List Val) : Val := vs.foldl (fun a v => a.add (v.mul v)) Val.zero

def bytesOf (cs : List Nat) : List Byte := cs.map (BitVec.ofNat 8)

/-! Rows (R227, R229 to R232). -/

/-- The parts of a side record (R232): where each starts. -/
structure SideAt where
  g   : Nat
  e   : Nat
  gs  : Nat
  m   : Nat
  ms  : Nat

def sideAt (w : Nat) : SideAt := { g := 0, e := w, gs := 2 * w, m := 2 * w + ceilDiv w 32, ms := 3 * w + ceilDiv w 32 }

/-- n bytes of a list from a place, as numbers. -/
def nums (bs : List Byte) (at_ n : Nat) : List Nat := ((bs.drop at_).take n).map BitVec.toNat

/-- The first moment of a row (R227): new values, then its codes and scales. -/
def rowMoment (s : State) (k : Nat) (p : Params) (steps w : Nat) (side : List Byte) (gf : List Val) : (List Val × List Nat × List Nat) × State :=
  let a := sideAt w
  let old := elemVals 0x13 (nums side a.m w) (nums side a.ms (ceilDiv w 32))
  let (mo, s) := momentVals s old
  let b := powF p.beta1 (steps - 1)
  let m := (mo.zip gf).map fun x => fAdd (fMul b x.1) (fMul p.c1 x.2)
  let scs := rowScales 0x13 m
  let (cs, s) := srList s k 0x13 scs m
  ((m, cs, scs), s)

/-- The second moment of a row (R229): the updates, and V2. Its draw comes from the lane of element 0 (DEDUCED, log entry 31). -/
def rowSecond (s : State) (k : Nat) (p : Params) (w v2 : Nat) (gf : List Val) : (List Val × Nat) × State :=
  let (vo, s) := momentVal s (decodeVal 5 v2)
  let v := fAdd (fMul p.beta2 vo) (fMul p.c2 (fDivNat (sumSquares gf) w))
  let (c, s) := convElem s 5 127 true (drawFixed s) (optLane k 0) v
  let den := fAdd (fSqrt v) p.eps
  ((gf.map fun g => fDiv g den, c), s)

/-- SCALE and OFFSET of the values to be written, and whether the row is rescaled (R231). -/
def rowScaling (cmax : Nat) (sc of_ : Val) (ys : List Val) : Val × Val × Bool :=
  if ys.all (codeFits cmax of_ sc) then (sc, of_, false)
  else
    let lo := ys.foldl (fun a y => if Val.lt y a then y else a) (ys.headD Val.zero)
    let hi := ys.foldl (fun a y => if Val.lt a y then y else a) (ys.headD Val.zero)
    let o := fp16Below lo
    let d := (hi.add o.neg).num
    (if !Val.lt lo hi then Val.zero else if d.1 ≤ 0 then .fin false 1 (-14) else fp16Above d.1.natAbs d.2 cmax, o, true)

/-- The codes of a row, one draw per element; under SCALE 0 a code has no stated value (DESIGN CHOICE, log entry 30). -/
def rowCodes (s : State) (k cmax : Nat) (sc of_ : Val) : Nat → List Val → List Nat × State
  | _, [] => ([], s)
  | j, y :: r =>
    let (d, s) := draw s (drawFixed s) (optLane k j)
    let (c, s) := if sc.num.1 = 0 then (fresh s % (cmax + 1), s.took) else (srCode cmax of_ sc y d, s)
    let (cs, s) := rowCodes s k cmax sc of_ (j + 1) r
    (c :: cs, s)

/-- The record of a row (R159). -/
def recordOf (tr : Rec) (sc of_ : Val) (v2 : Nat) (cs : List Nat) : List Byte :=
  let w := if tCode tr = 1 then 4 else 8
  let head := leBytes 2 (encodeFloat 7 .rne sc) ++ leBytes 2 (encodeFloat 7 .rne of_) ++ [BitVec.ofNat 8 v2, 0, 0, 0]
  let codes := packOver w cs (List.replicate (tW tr * w / 8) 0)
  head ++ codes ++ List.replicate (rowBytes tr - 8 - codes.length) 0

/-- What an optimizer step makes of a row (R223, R227 to R232): its record and its side record. x holds the row's gradient sums, in units
of 2^b. -/
def newRow (s : State) (k : Nat) (tr : Rec) (p : Params) (steps : Nat) (b : Int) (xs : List Int) (rec_ side : List Byte)
    (sc of_ : Val) : (List Byte × List Byte) × State :=
  let w := tW tr
  let a := sideAt w
  let nb := ceilDiv w 32
  let oldG := nums side a.g w
  let oldE := nums side a.e w
  let oldS := nums side a.gs nb
  let (gs, s) := withCarried s ((List.range w).map fun j =>
    (ofInt (xs.getD j 0) b, oldE.getD j 0, oldG.getD j 0, oldS.getD (j / 32) 127))
  let ((gscs, gcs, es), s) := codeGrads s k gs
  let gf := gradVals p gscs gcs
  let m1 := fld tr 5 = 1
  let ((us, mcs, mscs), s) := if m1 then rowMoment s k p steps w side gf else (([], [], []), s)
  let ((us2, v2), s) := if m1 then (([], 0), s) else rowSecond s k p w (rec_.getD 4 0).toNat gf
  let ys := ((rowValues tr rec_).zip (if m1 then us else us2)).map fun x => stepVal p (f32 x.1) x.2
  let cmax := if tCode tr = 1 then 15 else 255
  let (sc', of', re) := rowScaling cmax sc of_ ys
  let s := if re then bump s (18 + k) 0x12010 else s
  let (cs, s) := rowCodes s k cmax sc' of' 0 ys
  let sideOut := bytesOf gcs ++ bytesOf es ++ bytesOf gscs ++ bytesOf mcs ++ bytesOf mscs
  ((recordOf tr sc' of' v2 cs, sideOut ++ List.replicate (sideBytes tr - sideOut.length) 0), s)

/-- A row's new record and side record written, journalled at the record's home place, and noted in the directory (R210, R239, R395). -/
def storeRow (s : State) (k o t row home da sda step : Nat) (out side : List Byte) : State :=
  let s := journalWrite (journalWrite s k home step out) k sda step side
  let s := writeMem (writeMem s da out) sda side
  match dirOf s o t row with
  | some e => setDir s o t row { e with updated := step }
  | none => s

/-- An optimizer step of one row: false when its record or side record has lost data (R240). A row whose SCALE or OFFSET is no finite
number keeps its record. -/
def optRow (s : State) (k t row : Nat) (tr sr : Rec) (p : Params) (steps step : Nat) (b : Int) (xs : List Int) : Bool × State :=
  let home := fld sr 4 + (row - fld sr 0) * rowBytes tr
  let da := readPlace s (fld sr 2) t row home
  let sda := fld sr 5 + (row - fld sr 0) * sideBytes tr
  let (l1, s) := checkRead s da (rowBytes tr)
  let (l2, s) := checkRead s sda (sideBytes tr)
  if l1 || l2 then (false, s)
  else
    let rec_ := readBytes s.mem da (rowBytes tr)
    let sc := decodeVal 7 (ofLe (rec_.take 2))
    let of_ := decodeVal 7 (ofLe ((rec_.drop 2).take 2))
    if !sc.isFin || !of_.isFin then (true, bumpBy s (18 + k) 0x12018 (tW tr))
    else
      let (x, s) := newRow s k tr p steps b xs rec_ (readBytes s.mem sda (sideBytes tr)) sc of_
      (true, bumpBy (storeRow s k (fld sr 2) t row home da sda step x.1 x.2) (18 + k) 0x12008 (tW tr))

/-! MU_OPT_CLOSE (R239, R202, R201). -/

/-- Words of an entry as the optimizer unit reads them (R201): the low 64 bits, OVF when one has overflowed, which is counted. -/
def readWords (s : State) (k : Nat) (e : Entry) : Entry × State :=
  let n := overflowed e.words
  ({ e with words := e.words.map low64, ovf := e.ovf || n != 0 }, bumpBy s (18 + k) 0x11020 n)

/-- A close on its way: the state, whether an entry was dropped, and whether one waits for a migration. -/
structure CloseRun where
  st      : State
  dropped : Bool := false
  waits   : Bool := false

/-- A sealed entry goes to the row's pending entry at its owner, or is dropped when that cannot be (R202). -/
def toPending (g : CloseRun) (k o t row : Nat) (e : Entry) : CloseRun :=
  match pendEntry g.st o t row e with
  | some s => { g with st := s }
  | none => { g with st := bump g.st (18 + k) 0x11030, dropped := true }

/-- The row's pending entry for its optimizer step; one that the scrub found uncorrectable is discarded and counted instead (R266). -/
def usePend (g : CloseRun) (k o t row : Nat) : Option Entry × CloseRun :=
  match look g.st.mu.pend (pendKey o t row) with
  | none => (none, g)
  | some q =>
    if !q.lost then (some q, g)
    else
      let s := (bump g.st (18 + k) 0x11030).onMu fun m => { m with pend := del m.pend (pendKey o t row) }
      (none, { g with st := flagPending s o t row false, dropped := true })

/-- The words a step takes from the pending entry. -/
def pendWords (s : State) (k : Nat) (pe : Option Entry) : List Int × State :=
  match pe with
  | some q => let (q, s) := readWords s k q; (q.words, s)
  | none => ([], s)

/-- The optimizer step of a row that may have one: this entry, read already, and the row's pending entry (R201, R202). -/
def stepEntry (g : CloseRun) (k t row step : Nat) (tr sr : Rec) (p : Params) (e : Entry) : CloseRun :=
  let o := fld sr 2
  let (pe, g) := usePend g k o t row
  let (pw, s) := pendWords g.st k pe
  let b := match ledgerRec s k (tRegion tr) with | some r => regionAnchor r | none => 0
  let xs := (List.range (tW tr)).map fun j => e.words.getD j 0 + pw.getD j 0
  let steps := min 255 (e.steps + (match pe with | some q => q.steps | none => 0))
  let (ok, s) := optRow s k t row tr sr p steps step b xs
  if ok then
    { g with st := if pe.isNone then s else flagPending (s.onMu fun m => { m with pend := del m.pend (pendKey o t row) }) o t row false }
  else
    let s := match shardPlace s t row with | some (_, da) => markPoisoned s o t row da | none => s
    toPending { g with st := s } k o t row e

/-- One sealed entry, by the table of R202; after one that waits for a migration no later one is processed (R235, R239). An entry that the
scrub found uncorrectable is discarded and counted (R266). -/
def closeEntry (k bank step : Nat) (ps : Nat → Params) (g : CloseRun) (x : Nat × Entry) : CloseRun :=
  let t := x.1 / 2 ^ 31 % 4096
  let row := x.1 % 2 ^ 31
  match tableRec g.st t, shardOf g.st t row, shardPlace g.st t row with
  | some tr, some (_, sr), some (o, da) =>
    let e := dirOrHome g.st o t row da
    let taken (s : State) : State := s.onMu fun m => { m with entries := del m.entries (entryKey k bank t row) }
    let g' := { g with st := taken g.st }
    if g.waits then g
    else if x.2.lost then { g' with st := bump g'.st (18 + k) 0x11030, dropped := true }
    else
      let (y, s) := readWords g'.st k x.2
      if e.poisoned then toPending { g with st := s } k o t row y
      else if inFar e.dest then
        match pendEntry s o t row y with
        | some s => { g with st := s }
        | none =>
          let (ok, s) := pageInNow s o t row
          if ok then stepEntry { g with st := s } k t row step tr sr (ps (fld tr 6)) y
          else toPending { g with st := s } k o t row y
      else if e.st = .moving || e.st = .forwarding then { g with waits := true }
      else stepEntry { g with st := s } k t row step tr sr (ps (fld tr 6)) y
  | _, _, _ => g

/-- The sealed entries of a panel on MUk, in ascending (table, row), but for those that their die has sent on (R208). -/
def panelEntries (s : State) (k bank p : Nat) : FMap Entry :=
  s.mu.entries.filter fun x => x.1 / 2 ^ 43 == k * 2 + bank && !x.2.moved &&
    (match tableRec s (x.1 / 2 ^ 31 % 4096) with | some tr => tPanel tr == p | none => false)

/-- The parameter sets of a panel's tables with a region on MUk. -/
def panelSets (s : State) (k p : Nat) : List Nat :=
  insAll [] (((sect s 0x10).filter fun r => tPanel r == p && (ledgerRec s k (tRegion r)).isSome).map (fld · 6))

/-- One more parameter set read and checked: a status, or the sets read. -/
def addSet (h : Hdr) (paramDa : Nat) (g : (Nat ⊕ List (Nat × Params)) × State) (n : Nat) : (Nat ⊕ List (Nat × Params)) × State :=
  match g.1 with
  | .inl _ => g
  | .inr l =>
    let a := paramDa + 32 * n
    match checkDa g.2 h false [(a, 32)] with
    | some st => (.inl st, g.2)
    | none =>
      let x := checkRead g.2 a 32
      if x.1 then (.inl stEcc, x.2)
      else match paramsOf (readBytes x.2.mem a 32) with
        | none => (.inl stMalformed, x.2)
        | some p => (.inr (l ++ [(n, p)]), x.2)

/-- Parameter sets read and checked, one after another: a status, or the sets. -/
def readSets (s : State) (h : Hdr) (paramDa : Nat) (ns : List Nat) : (Nat ⊕ List (Nat × Params)) × State :=
  ns.foldl (addSet h paramDa) (.inr [], s)

/-- A set among those read. -/
def setOf (l : List (Nat × Params)) (n : Nat) : Params :=
  match l.find? fun x => x.1 == n with
  | some x => x.2
  | none => { lr := Val.zero, beta1 := Val.zero, c1 := Val.zero, beta2 := Val.zero, c2 := Val.zero, eps := Val.one, wd := Val.zero, gmul := Val.zero }

/-- The panel's DENSE regions on MUk. -/
def denseRegions (s : State) (k p : Nat) : List Rec := (sect s 0x0E).filter fun r => fld r 0 == k && fld r 2 == 1 && fld r 3 == p

/-- Words of a DENSE region's bank consumed for the sealed step. -/
def consumedIn (s : State) (k bank region : Nat) : Nat :=
  ((s.mu.consumed.filter fun x => x.1 / 2 ^ 29 == (k * 2 + bank) * 256 + region).map (·.2)).sum

/-- The DENSE words that no MU_OPT_DENSE consumed, read for overflow, zeroed and counted (R201, R239 step 3). -/
def zeroUnused (s : State) (k bank p : Nat) : State :=
  (denseRegions s k p).foldl (fun s r =>
    let ws := (s.mu.dense.filter fun x => x.1 / 2 ^ 29 == (k * 2 + bank) * 256 + fld r 1).map (·.2)
    let s := bumpBy (bumpBy s (18 + k) 0x11020 (overflowed ws)) (18 + k) 0x12020 (fld r 10 - consumedIn s k bank (fld r 1))
    s.onMu fun m => { m with dense := keep (fun key _ => key / 2 ^ 29 != (k * 2 + bank) * 256 + fld r 1) m.dense }) s

/-- A shadow of a row of MUk is still being invalidated: no row is written before (R183). -/
def invalidating (s : State) (k : Nat) : Bool := s.mu.shadows.any fun x => x.2.inval && owns s k (x.1 / 2 ^ 31) (x.1 % 2 ^ 31)

/-- MU_OPT_CLOSE past its refusals: at an entry whose row is in migration it stops, waits, and goes on when sent again (DEDUCED, log entry 32). -/
def runClose (s0 : State) (h : Hdr) (k p : Nat) (l : List (Nat × Params)) : State :=
  let step := openStep s0 k - 1
  let bank := step % 2
  let key := descKey h
  let before := (lookD s0.mu.gatherPos key {}).skipped
  let g := (panelEntries s0 k bank p).foldl (closeEntry k bank step (setOf l)) { st := s0, dropped := before }
  if g.waits then (markStarted g.st h).onMu fun m => { m with gatherPos := put m.gatherPos key { skipped := g.dropped } }
  else
    let s := zeroUnused g.st k bank p
    let s := s.onMu fun m => { m with closed := ins m.closed (k * 64 + p), gatherPos := del m.gatherPos key }
    finish s0 s h (optUnit k) (if g.dropped then stPartial else stDone)

/-- MU_OPT_CLOSE's refusal (R239). -/
def closeRefusal (s : State) (h : Hdr) (k p expect : Nat) : Option Nat :=
  firstBad [
    (!dieUp s (18 + k), stAbsent),
    (openStep s k = 0 || expect != openStep s k - 1, stMalformed),
    (panelOfQueue s h.queue != some p, stMalformed),
    (s.mu.closed.contains (k * 64 + p), stMalformed)]

/-- MU_OPT_CLOSE, with its parameter sets read. -/
def closeBody (s : State) (h : Hdr) (k p paramDa : Nat) : State :=
  if invalidating s k then s
  else match readSets s h paramDa (panelSets s k p) with
    | (.inl st, s) => complete (s.onMu fun m => { m with gatherPos := del m.gatherPos (descKey h) }) h (optUnit k) st
    | (.inr l, s) => runClose s h k p l

/-- MU_OPT_CLOSE, R239; run again while entries wait, it goes on. -/
def execMuOptClose (h : Hdr) (muslin panel expectStep paramDa : Nat) (s : State) : Out :=
  .next (if (look s.mu.gatherPos (descKey h)).isSome then
      (if mayBegin s h then closeBody s h muslin panel paramDa else s)
    else runDesc s h fun s => match closeRefusal s h muslin panel expectStep with
      | some st => complete s h (optUnit muslin) st
      | none => closeBody s h muslin panel paramDa)

/-! After the release of a bank (R207, R212). -/

/-- Pending rows of MUk that rest in Far, oldest pending step first, ties to the lower (table, row), fuel rows. -/
def byAge : Nat → List (Nat × Entry) → List (Nat × Entry)
  | 0, _ => []
  | _, [] => []
  | n + 1, x :: l =>
    let m := l.foldl (fun a y => if y.2.oldest < a.2.oldest || (y.2.oldest == a.2.oldest && y.1 < a.1) then y else a) x
    m :: byAge n ((x :: l).erase m)

/-- Far rows with pending entries start to be paged in, up to PAGEIN_MAX (R212). -/
def pageInRows (s : State) (k : Nat) : State :=
  let l := s.mu.pend.filter fun x =>
    let (o, t, row) := dirParts x.1
    o == k && (match shardPlace s t row with
      | some (_, da) => let e := dirOrHome s k t row da; inFar e.dest && !e.poisoned && e.st == .resident
      | none => false)
  let n := match muslinRec s k with | some m => fld m 6 | none => 0
  (byAge n l).foldl (fun s x =>
    let (_, t, row) := dirParts x.1
    match pageSlot s k (entryRb s x.1) with
    | (some a, s) => startMove s k t row a none true
    | (none, s) => s) s

/-- A panel's MIGRATE area in Stash with a free place, or none. -/
def stashPlace (s : State) (p n : Nat) : Option Nat :=
  ((migrateAreas s p).filter fun r => stashBase ≤ r.1 && r.1 < farBase).findSome? fun r => freePlace s r n

/-- The MIGRATE areas of a panel on MUj. -/
def dieAreas (s : State) (p j : Nat) : List Range := (migrateAreas s p).filter fun r => muslinOfHome r.1 == some j

/-- The Muslin die of the panel with the lowest MU.LOAD_PREV, below MUk's by LOAD_GAP at least (R207). -/
def lightDie (s : State) (k p : Nat) : Option Nat :=
  let gap := fld ((sect s 0x02).headD []) 1
  let l := (List.range 8).filter fun j => dieUp s (18 + j) && !(dieAreas s p j).isEmpty
  match l with
  | [] => none
  | x :: r =>
    let m := r.foldl (fun a j => if look0 s.mu.loadPrev j < look0 s.mu.loadPrev a then j else a) x
    if m != k && look0 s.mu.loadPrev m + gap ≤ look0 s.mu.loadPrev k then some m else none

/-- The target of an automatic migration: none where none is called for, none inside where there is no room. -/
def autoTarget (s : State) (k p n : Nat) : Option (Option Nat) :=
  match stashPlace s p n with
  | some a => some (some a)
  | none =>
    match lightDie s k p with
    | some j => some ((dieAreas s p j).findSome? fun r => freePlace s r n)
    | none => if (migrateAreas s p).any (fun r => stashBase ≤ r.1 && r.1 < farBase) then some none else none

/-- The row may be selected (R207). -/
def selectable (s : State) (k : Nat) (x : Heavy) : Bool :=
  match tableRec s x.table, shardPlace s x.table x.row with
  | some tr, some (o, da) =>
    let e := dirOrHome s k x.table x.row da
    let hot := match panelRec s (tPanel tr) with | some r => fld r 3 | none => 2 ^ 21
    o == k && hot ≤ x.count && e.st == .resident && !e.poisoned && !shadowed s x.table x.row
    && (muslinOfHome e.dest == some k || inFar e.dest)
  | _, _ => false

/-- Automatic migrations of a panel in a step so far (R207), over all owners. -/
def movedIn (s : State) (p n : Nat) : Nat := match look s.mu.migrations p with | some (m, c) => if m = n then c else 0 | none => 0

/-- One row of the walk after the release of the bank of step n. -/
def selectRow (k n : Nat) (s : State) (x : Heavy) : State :=
  match tableRec s x.table with
  | none => s
  | some tr =>
    let p := tPanel tr
    let cap := match panelRec s p with | some r => fld r 4 | none => 0
    if !selectable s k x || cap ≤ movedIn s p n then s
    else match autoTarget s k p (rowBytes tr) with
      | none => s
      | some none => bump s (18 + k) 0x11050
      | some (some a) =>
        if (dirOf s k x.table x.row).isNone && !dirRoom s k then bump s (18 + k) 0x11050
        else (startMove s k x.table x.row a none false).onMu fun m => { m with migrations := put m.migrations p (n, movedIn s p n + 1) }

/-- Migrated rows whose count has fallen below HOT_MIN / 4 start back to their shard-map DA (R207). -/
def coolRows (s : State) (k : Nat) : State :=
  (dirEntries s k).foldl (fun s x =>
    let (_, t, row) := dirParts x.1
    match tableRec s t, shardPlace s t row with
    | some tr, some (_, da) =>
      let hot := match panelRec s (tPanel tr) with | some r => fld r 3 | none => 0
      let c := match (lookD s.mu.heavyPrev k []).find? fun y => y.table == t && y.row == row with | some y => y.count | none => 0
      if x.2.st = .resident && x.2.dest != da && !x.2.paged && !x.2.poisoned && 4 * c < hot && !shadowed s t row then
        startMove s k t row da none false
      else s
    | _, _ => s) s

/-- Automatic migrations, suspended under DRAW_MODE = FIXED (R235). -/
def selectRows (s : State) (k n : Nat) : State :=
  if drawFixed s then s
  else
    let l := lookD s.mu.heavyPrev k []
    coolRows ((topRows l.length l).foldl (selectRow k n) s) k

/-- Panels that own regions on MUk. -/
def regionPanels (s : State) (k : Nat) : List Nat := insAll [] (((sect s 0x0E).filter fun r => fld r 0 == k).map (fld · 3))

/-- The sealed bank of MUk may be released: every such panel has closed, or is FAULTED (R239). -/
def releasable (s : State) (k : Nat) : Bool :=
  (regionPanels s k).all fun p => s.mu.closed.contains (k * 64 + p) || panelFaulted s p

/-- BANK_RELEASE, R202. -/
def execBankRelease (muslin : Nat) (s : State) : Out :=
  .next (match look s.mu.unreleased muslin with
    | none => s
    | some n =>
      if !releasable s muslin then s
      else
        let s := s.onMu fun m =>
          { m with unreleased := del m.unreleased muslin, closedStep := put m.closedStep muslin n,
                   entries := keep (fun key _ => key / 2 ^ 43 != muslin * 2 + n % 2) m.entries,
                   dense := keep (fun key _ => key / 2 ^ 37 != muslin * 2 + n % 2) m.dense,
                   denseLate := m.denseLate.filter fun key => key / 256 != muslin * 2 + n % 2,
                   consumed := keep (fun key _ => key / 2 ^ 37 != muslin * 2 + n % 2) m.consumed }
        selectRows (pageInRows (journalEnd s muslin n) muslin) muslin n)

end Sys2Proof.Machine
end

