-- ==== Sys2Proof/Machine/OptDense.lean ====
section
/-!
DEFINITION. MU_OPT_DENSE (R219 to R223, R227, R228, R236 to R238, R240): the update of one dense tensor, block by block.
-/

namespace Sys2Proof.Machine

/-! Operands. -/

def odCount (o : OptDenseOp) : Nat := o.rowsN * o.colsN
def odRegion (o : OptDenseOp) : Nat := o.la / 2 ^ 40
def odFirst (o : OptDenseOp) : Nat := o.la % 2 ^ 40 / 8
def odParam (o : OptDenseOp) : Range := (o.paramDa + 32 * o.pset, 32)

/-- Ranges read and written: the master, the working copy, the state record, and the rest. Under DERIVE_ONLY only the working copy and the
state record are written, and every range is checked (R238). -/
def odMaster (o : OptDenseOp) : Range := (o.masterDa, 2 * odCount o)
def odWork (o : OptDenseOp) : List Range := [(o.workDa, elemBytes o.wkSpec (odCount o)), (o.workScaleDa, odCount o / 32)]
def odState (o : OptDenseOp) : Range := (o.stateDa, 32)
def odMoments (o : OptDenseOp) : List Range :=
  [(o.gDa, odCount o), (o.gScaleDa, odCount o / 32), (o.eDa, odCount o), (o.m1Da, odCount o), (o.m1ScaleDa, odCount o / 32)]
  ++ if o.mode = 1 then [(o.vrDa, o.rowsN), (o.vrScaleDa, o.rowsN / 32), (o.vcDa, o.colsN), (o.vcScaleDa, o.colsN / 32)] else []
def odOutputs (o : OptDenseOp) : List Range :=
  odWork o ++ odState o :: if o.deriveOnly then [] else odMaster o :: odMoments o
def odRanges (o : OptDenseOp) : List Range := odMaster o :: odWork o ++ odState o :: odMoments o ++ [odParam o]

/-- Some two of a list's ranges overlap. -/
def anyOverlap : List Range → Bool
  | [] => false
  | r :: l => l.any (meets r) || anyOverlap l

/-- Words of a range already consumed for the sealed step. -/
def wordsConsumed (s : State) (k bank region first n : Nat) : Bool :=
  s.mu.consumed.any fun x =>
    x.1 / 2 ^ 29 == (k * 2 + bank) * 256 + region && first < x.1 % 2 ^ 29 + x.2 && x.1 % 2 ^ 29 < first + n

/-- The STEP and LA rows of R238. -/
def odStepBad (s : State) (o : OptDenseOp) : Bool :=
  !o.deriveOnly && (openStep s o.muslin = 0 || o.step != openStep s o.muslin - 1 ||
    (match ledgerRec s o.muslin (odRegion o) with | some r => s.mu.closed.contains (o.muslin * 64 + fld r 3) | none => false))
def odLaBad (s : State) (h : Hdr) (o : OptDenseOp) : Bool :=
  !o.deriveOnly && (match ledgerRec s o.muslin (odRegion o) with
    | none => true
    | some r => fld r 2 != 1 || panelOfQueue s h.queue != some (fld r 3) || o.la % 8 != 0
        || fld r 10 < odFirst o + odCount o
        || wordsConsumed s o.muslin (o.step % 2) (odRegion o) (odFirst o) (odCount o))

/-- WK_SPEC: E4M3 or FP4, BLOCK = 1, GRAD = 0 (R237). -/
def wkOk (x : Nat) : Bool := (specFmt x == 3 || specFmt x == 0) && specBlock x && !specGrad x

/-- The MODE and size row of R238. -/
def odSizeBad (o : OptDenseOp) : Bool :=
  1 < o.mode || !wkOk o.wkSpec || o.rowsN == 0 || o.colsN == 0 || o.colsN % 32 != 0 || 2 ^ 28 < odCount o
  || (o.mode == 1 && o.rowsN % 32 != 0)

/-- The parameter block read: a status, or the block. -/
def odParams (s : State) (o : OptDenseOp) : (Nat ⊕ Params) × State :=
  match r21 s [odParam o] with
  | some st => (.inl st, s)
  | none =>
    let (lost, s) := checkRead s (odParam o).1 32
    if lost then (.inl stEcc, s)
    else match paramsOf (readBytes s.mem (odParam o).1 32) with
      | none => (.inl stMalformed, s)
      | some p => (.inr p, s)

/-- R238 before the parameter block. -/
def odRefusal (s : State) (h : Hdr) (o : OptDenseOp) : Option Nat :=
  firstBad [(slotShort h (if o.mode = 1 || o.ratio then 2 else 1), stMalformed), (!dieUp s (18 + o.muslin), stAbsent), (odStepBad s o, stMalformed),
    (odLaBad s h o, stMalformed), (odSizeBad o, stMalformed)]

/-- R238 after it, and R248. MU_OPT_DENSE may write a working region (R219). Where operands fail R21 differently, UNIT_ABSENT decides (DESIGN
CHOICE, log entry 86). -/
def odRefusal2 (s : State) (h : Hdr) (o : OptDenseOp) : Option Nat :=
  firstSome [r21 s (odRanges o), if anyOverlap (odRanges o) then some stMalformed else none,
    checkDa s h true (odOutputs o), checkDa s h false (odRanges o)]

/-! The ratio's norm lanes (R236). -/

structure Norm where
  lane  : Lane := {}
  terms : Nat := 0

/-- One square added: truncated to the grid, saturating, folded after 2^20 terms (R139, R140). -/
def normAdd (a : Int) (n : Norm) (v : Val) : Norm :=
  let n := if 2 ^ 20 < n.terms + 1 then { lane := foldLane n.lane a, terms := 0 } else n
  let q := a - 64
  let x : Nat := match v.mul v with
    | .fin _ m e => if q ≤ e then m * 2 ^ (e - q).toNat else m / 2 ^ (q - e).toNat
    | _ => 0
  let l := n.lane.l + x
  { lane := if l ≤ laneMax then { n.lane with l := l } else { n.lane with l := laneMax, ovf := true }, terms := n.terms + 1 }

/-- A norm's sum, rounded once into F32. -/
def normSum (a : Int) (n : Norm) : Val := let v := laneValue n.lane a; f32 (ofInt v.1 v.2)

/-- The anchor 2p + 2 (R236). A record that is NaN or infinite has no stated power: a free value. -/
def normAnchor (s : State) (w : Nat) : Int × State :=
  match amaxVal w with
  | some (.fin _ m e) => (if m = 0 then 2 * -126 + 2 else 2 * (let l := leadExp m e; if magLe (m, e) (1, l) then l else l + 1) + 2, s)
  | _ => (2 * signed 9 (fresh s) + 2, s.took)

/-! Blocks of 32 elements. -/

/-- Codes merged: a new one for each element that takes part, the old one for the others. -/
def mergeCodes : List Bool → List Nat → List Nat → List Nat
  | true :: b, c :: cs, _ :: os => c :: mergeCodes b cs os
  | false :: b, cs, x :: os => x :: mergeCodes b cs os
  | _, _, os => os

/-- The members of a list that take part. -/
def picked {α : Type} (ok : List Bool) (l : List α) : List α := ((ok.zip l).filter (·.1)).map (·.2)

/-- Values of a block drawn onto a format by SR, on the lanes of the elements that take part. -/
def srPicked (s : State) (k spec sc : Nat) (ok : List Bool) (vs : List Val) (old : List Nat) : List Nat × State :=
  let (cs, s) := convList s spec true (drawFixed s) [sc] 0 (picked ok (withLanes k 0 vs))
  (mergeCodes ok cs old, s)

/-- What a run of the command carries from block to block: the words consumed, the blocks whose master is written, the two norms. -/
structure DenseRun where
  st    : State
  used  : Nat := 0
  done  : Nat := 0
  lost  : Bool := false
  normW : Norm := {}
  normD : Norm := {}

/-- Block b's elements that take part: those whose master is finite. -/
def finiteMask (ms : List Nat) : List Bool := ms.map fun c => (decodeVal 6 c).isFin

/-- The master codes of block b. -/
def masterCodes (s : State) (o : OptDenseOp) (b : Nat) : List Nat := unpack 16 32 (readBytes s.mem (o.masterDa + 64 * b) 64)

/-- Ledger words of block b as integers, with the overflows counted (R201); each is zeroed once used (R238). -/
def takeWords (s : State) (o : OptDenseOp) (b : Nat) : List Int × State :=
  let key (j : Nat) : Nat := denseKey o.muslin (o.step % 2) (odRegion o) (odFirst o + 32 * b + j)
  let ws := (List.range 32).map fun j => lookD s.mu.dense (key j) 0
  (ws.map low64, (bumpBy s (18 + o.muslin) 0x11020 (overflowed ws)).onMu fun m =>
    { m with dense := (List.range 32).foldl (fun d j => del d (key j)) m.dense })

/-- The scale of a block's elements that take part; a block without any keeps its scale. An element that is left unchanged keeps its codes (R230;
DESIGN CHOICE, log entry 98). -/
def pickedScale (f : Nat) (ok : List Bool) (vs : List Val) (old : Nat) : Nat := if ok.any id then blockScale f (picked ok vs) else old

/-- Gradients of block b coded, G and E written (R222, R223): the values gf, for the elements that take part. -/
def codeBlock (s : State) (o : OptDenseOp) (p : Params) (anchor : Int) (b : Nat) (ok : List Bool) : List Val × State :=
  let k := o.muslin
  let (ws, s) := takeWords s o b
  let oldG := (readBytes s.mem (o.gDa + 32 * b) 32).map BitVec.toNat
  let oldE := (readBytes s.mem (o.eDa + 32 * b) 32).map BitVec.toNat
  let oldS := (readByte s.mem (o.gScaleDa + b)).toNat
  let (gs, s) := withCarried s ((List.range 32).map fun j => (ofInt (ws.getD j 0) anchor, oldE.getD j 0, oldG.getD j 0, oldS))
  let sc := pickedScale 4 ok gs oldS
  let (cs, s) := srPicked s k 0x14 sc ok gs oldG
  let es := mergeCodes ok (picked ok ((gs.zip cs).map fun x => twos 8 (errTerm (magOf x.1) x.2 sc))) oldE
  let s := writeMem (writeMem (writeMem s (o.gDa + 32 * b) (bytesOf cs)) (o.gScaleDa + b) [BitVec.ofNat 8 sc]) (o.eDa + 32 * b) (bytesOf es)
  (gradVals p [sc] cs, s)

/-- A block's reads are whole. -/
def blockWhole (s : State) (rs : List Range) : Bool × State :=
  rs.foldl (fun x r => let (l, s) := checkRead x.2 r.1 r.2; (x.1 && !l, s)) (true, s)

/-- The working copy of block b derived from its master codes by RNE (R219). -/
def deriveBlock (s : State) (o : OptDenseOp) (b : Nat) (ms : List Nat) : State :=
  let vs := ms.map (decodeVal 6)
  let sc := blockScale (specFmt o.wkSpec) vs
  let cs := vs.map (encodeScaled o.wkSpec sc .rne)
  let n := elemBytes o.wkSpec 32
  let bs := packOver (fmtWidth (specFmt o.wkSpec)) cs (List.replicate n 0)
  writeMem (writeMem s (o.workDa + n * b) bs) (o.workScaleDa + b) [BitVec.ofNat 8 sc]

/-- The norms after a block (R236): squares of the stored values of the elements that take part. -/
def addNorms (a : Int) (g : DenseRun) (ok : List Bool) (old new : List Nat) : DenseRun :=
  let w := (picked ok new).map (decodeVal 6)
  let v := (picked ok old).map (decodeVal 6)
  { g with normW := w.foldl (normAdd a) g.normW,
           normD := (w.zip v).foldl (fun n x => normAdd a n (x.1.add x.2.neg)) g.normD }

/-- u of an element from its moment, by the mode (R227): den is none for MOMENT1_ONLY, else vhat. -/
def modeUpdate (p : Params) (m : Val) : Option Val → Val
  | none => m
  | some v => fDiv m (fAdd (fSqrt v) p.eps)

/-- The moments and the master of block b updated from gf, then the working copy (R219, R227). -/
def updateBlock (g : DenseRun) (o : OptDenseOp) (p : Params) (a : Int) (b : Nat) (ok : List Bool) (gf : List Val)
    (vhat : Nat → Option Val) : DenseRun :=
  let s := g.st
  let k := o.muslin
  let oldM := (readBytes s.mem (o.m1Da + 32 * b) 32).map BitVec.toNat
  let (mo, s) := momentVals s (elemVals 0x13 oldM [(readByte s.mem (o.m1ScaleDa + b)).toNat])
  let m := (mo.zip gf).map fun x => fAdd (fMul p.beta1 x.1) (fMul p.c1 x.2)
  let msc := pickedScale 3 ok m (readByte s.mem (o.m1ScaleDa + b)).toNat
  let (mcs, s) := srPicked s k 0x13 msc ok m oldM
  let old := masterCodes s o b
  let ws := ((List.range 32).zip (old.zip m)).map fun x =>
    stepVal p (f32 (decodeVal 6 x.2.1)) (modeUpdate p x.2.2 (vhat (32 * b + x.1)))
  let (new, s) := srPicked s k 6 127 ok ws old
  let n := (ok.filter (!·)).length
  let s := bumpBy (bumpBy s (18 + k) 0x12018 n) (18 + k) 0x12008 (32 - n)
  let s := writeMem (writeMem s (o.m1Da + 32 * b) (bytesOf mcs)) (o.m1ScaleDa + b) [BitVec.ofNat 8 msc]
  let s := writeMem s (o.masterDa + 64 * b) (packOver 16 new (List.replicate 64 0))
  addNorms a { g with st := deriveBlock s o b new, done := b + 1 } ok old new

/-- The ranges a block of MODE 0, or of pass A, reads besides its words. -/
def gradRanges (o : OptDenseOp) (b : Nat) : List Range :=
  [(o.masterDa + 64 * b, 64), (o.gDa + 32 * b, 32), (o.gScaleDa + b, 1), (o.eDa + 32 * b, 32)]
def momentRanges (o : OptDenseOp) (b : Nat) : List Range := [(o.masterDa + 64 * b, 64), (o.m1Da + 32 * b, 32), (o.m1ScaleDa + b, 1)]

/-- A block under DERIVE_ONLY. -/
def onlyDerive (o : OptDenseOp) (a : Int) (g : DenseRun) (b : Nat) : DenseRun :=
  if g.lost then g
  else
    let (ok, s) := blockWhole g.st [(o.masterDa + 64 * b, 64)]
    if !ok then { g with st := s, lost := true }
    else
      let ms := masterCodes s o b
      addNorms a { g with st := deriveBlock s o b ms } (finiteMask ms) ms ms

/-- A block under MOMENT1_ONLY. -/
def momentBlock (o : OptDenseOp) (p : Params) (anchor a : Int) (g : DenseRun) (b : Nat) : DenseRun :=
  if g.lost then g
  else
    let (ok, s) := blockWhole g.st (gradRanges o b ++ momentRanges o b)
    if !ok then { g with st := s, lost := true }
    else
      let mask := finiteMask (masterCodes s o b)
      let (gf, s) := codeBlock s o p anchor b mask
      updateBlock { g with st := s, used := g.used + 32 } o p a b mask gf fun _ => none

/-! MOMENT1_FACTORED2 (R228). -/

/-- Exact sums of gf² per row and per column. -/
structure Sums where
  rows : FMap Val := []
  cols : FMap Val := []

def addSquare (m : FMap Val) (i : Nat) (v : Val) : FMap Val := put m i ((lookD m i Val.zero).add (v.mul v))

/-- The sums after a block's values. -/
def addBlock (o : OptDenseOp) (b : Nat) (ok : List Bool) (gf : List Val) (x : Sums) : Sums :=
  (picked ok ((List.range 32).zip gf)).foldl (fun x e =>
    { rows := addSquare x.rows ((32 * b + e.1) / o.colsN) e.2, cols := addSquare x.cols ((32 * b + e.1) % o.colsN) e.2 }) x

/-- Pass A of a block. -/
def passA (o : OptDenseOp) (p : Params) (anchor : Int) (x : DenseRun × Sums) (b : Nat) : DenseRun × Sums :=
  if x.1.lost then x
  else
    let (ok, s) := blockWhole x.1.st (gradRanges o b)
    if !ok then ({ x.1 with st := s, lost := true }, x.2)
    else
      let mask := finiteMask (masterCodes s o b)
      let (gf, s) := codeBlock s o p anchor b mask
      ({ x.1 with st := s, used := x.1.used + 32 }, addBlock o b mask gf x.2)

/-- One vector of the factored moment updated: beta2 × old + c2 × sum / n, and its codes and scales written by SR. -/
def newVector (s : State) (k : Nat) (p : Params) (da scDa len n : Nat) (sums : FMap Val) : List Val × State :=
  let old := elemVals 0x15 ((readBytes s.mem da len).map BitVec.toNat) ((readBytes s.mem scDa (len / 32)).map BitVec.toNat)
  let (vo, s) := momentVals s old
  let vs := ((List.range len).zip vo).map fun x =>
    fAdd (fMul p.beta2 x.2) (fMul p.c2 (fDivNat (lookD sums x.1 Val.zero) n))
  let scs := rowScales 0x15 vs
  let (cs, s) := srList s k 0x15 scs vs
  (vs, writeMem (writeMem s da (bytesOf cs)) scDa (bytesOf scs))

/-- Pass B of a block: G is read back from pass A. -/
def passB (o : OptDenseOp) (p : Params) (a : Int) (vhat : Nat → Option Val) (g : DenseRun) (b : Nat) : DenseRun :=
  if g.lost then g
  else
    let (ok, s) := blockWhole g.st (momentRanges o b)
    if !ok then { g with st := s, lost := true }
    else
      let gf := gradVals p [(readByte s.mem (o.gScaleDa + b)).toNat] ((readBytes s.mem (o.gDa + 32 * b) 32).map BitVec.toNat)
      updateBlock { g with st := s } o p a b (finiteMask (masterCodes s o b)) gf vhat

/-- Both passes, as far as n blocks: pass A of each block, then pass B of each (R228). -/
def factored (s : State) (o : OptDenseOp) (p : Params) (anchor a : Int) (n : Nat) : DenseRun :=
  let blocks := odCount o / 32
  let x := (List.range (min n blocks)).foldl (passA o p anchor) ({ st := s }, {})
  if x.1.lost || n ≤ blocks then x.1
  else
    let (ok, s) := blockWhole x.1.st [(o.vrDa, o.rowsN), (o.vrScaleDa, o.rowsN / 32), (o.vcDa, o.colsN), (o.vcScaleDa, o.colsN / 32)]
    if !ok then { x.1 with st := s, lost := true }
    else
      let (vr, s) := newVector s o.muslin p o.vrDa o.vrScaleDa o.rowsN o.colsN x.2.rows
      let (vc, s) := newVector s o.muslin p o.vcDa o.vcScaleDa o.colsN o.rowsN x.2.cols
      let mean := fDivNat (vr.foldl Val.add Val.zero) o.rowsN
      let vhat (i : Nat) : Option Val :=
        some (if mean.num.1 = 0 then Val.zero
              else fDiv (fMul (vr.getD (i / o.colsN) Val.zero) (vc.getD (i % o.colsN) Val.zero)) mean)
      (List.range (min (n - blocks) blocks)).foldl (passB o p a vhat) { x.1 with st := s }

/-! The end of the command. -/

/-- AMAX over the working copy as the record of R146 with ABS = 1 (R220). -/
def amaxRecord (s : State) (o : OptDenseOp) : Nat :=
  let x := o.wkSpec
  let cs := unpack (fmtWidth (specFmt x)) (odCount o) (readBytes s.mem o.workDa (elemBytes x (odCount o)))
  let scs := (readBytes s.mem o.workScaleDa (odCount o / 32)).map BitVec.toNat
  let i := winner false true (elemVals x cs scs)
  cs.getD i 0 + 2 ^ 16 * scs.getD (i / 32) 0x7F + 2 ^ 24 * specFmt x + 2 ^ 32 * i

/-- The ratio, its Sounding and its event (R236): the state record's word, and the state. -/
def reportRatio (s : State) (o : OptDenseOp) (a : Int) (g : DenseRun) : Nat × State :=
  let w := normSum a g.normW
  let d := normSum a g.normD
  let zero := w.num.1 = 0
  let ratio := if zero then .fin false f32Max.1 f32Max.2 else fSqrt (fDiv d w)
  let lo := Val.lt ratio (decodeVal 7 o.bandLo)
  let hi := Val.lt (decodeVal 7 o.bandHi) ratio
  let s := emitSounding s (18 + o.muslin) 4 0x20
    [o.layer % 65536 + 2 ^ 16 * b2n lo + 2 ^ 17 * b2n hi + 2 ^ 18 * b2n (g.normW.lane.ovf || g.normD.lane.ovf)
       + 2 ^ 19 * b2n zero + 2 ^ 32 * toB32 ratio,
     toB32 (fSqrt w) + 2 ^ 32 * toB32 (fSqrt d)]
  (toB32 ratio, if lo || hi then bump s (18 + o.muslin) 0x12028 else s)

/-- The bytes of a range journalled in runs of at most 1,024 sectors, fuel runs (R392). -/
def journalRange (k step : Nat) : Nat → Nat → Nat → State → State
  | 0, _, _, s => s
  | f + 1, a, n, s =>
    if n = 0 then s
    else
      let m := min n 65472
      journalRange k step f (a + m) (n - m) (journalWrite s k a step (readBytes s.mem a m))

/-- What the command wrote outside the working copy goes to the journal: whole tensors, or the blocks written before a lost sector. -/
def journalDense (s : State) (o : OptDenseOp) (g : DenseRun) : State :=
  let step := if o.deriveOnly then openStep s o.muslin - 1 else o.step
  let coded := g.used / 32
  let blocks : List Range :=
    if o.deriveOnly then [] else
      [(o.masterDa, 64 * g.done), (o.gDa, 32 * coded), (o.gScaleDa, coded), (o.eDa, 32 * coded), (o.m1Da, 32 * g.done), (o.m1ScaleDa, g.done)]
  let vectors : List Range :=
    if o.deriveOnly || o.mode = 0 || (g.lost && g.done = 0) then []
    else [(o.vrDa, o.rowsN), (o.vrScaleDa, o.rowsN / 32), (o.vcDa, o.colsN), (o.vcScaleDa, o.colsN / 32)]
  (blocks ++ vectors ++ if g.lost then [] else [odState o]).foldl
    (fun s r => journalRange o.muslin step (r.2 / 65472 + 1) r.1 r.2 s) s

/-- The state record written (R220). -/
def writeState (s : State) (o : OptDenseOp) (a : Int) (g : DenseRun) : State :=
  let (r, s) := if o.ratio then reportRatio s o a g else (ofLe (readBytes s.mem (o.stateDa + 16) 4), s)
  let step := if o.deriveOnly then ofLe (readBytes s.mem (o.stateDa + 8) 8) else o.step
  writeMem s o.stateDa (leBytes 8 (amaxRecord s o) ++ leBytes 8 step ++ leBytes 4 r ++ List.replicate 12 0)

/-- Block steps of a whole run: one for each block, two under MOMENT1_FACTORED2. -/
def denseSteps (o : OptDenseOp) : Nat := odCount o / 32 * if o.mode = 1 && !o.deriveOnly then 2 else 1

/-- The first n block steps of a run, and the words they consumed. -/
def denseRun (s : State) (o : OptDenseOp) (p : Params) (a : Int) (n : Nat) : DenseRun :=
  let anchor := match ledgerRec s o.muslin (odRegion o) with | some r => regionAnchor r | none => 0
  let g :=
    if o.deriveOnly then (List.range n).foldl (onlyDerive o a) { st := s }
    else if o.mode = 0 then (List.range n).foldl (momentBlock o p anchor a) { st := s }
    else factored s o p anchor a n
  if g.used = 0 then g
  else { g with st := g.st.onMu fun m =>
           { m with consumed := put m.consumed (denseKey o.muslin (o.step % 2) (odRegion o) (odFirst o)) g.used } }

/-- MU_OPT_DENSE past its checks. A lost sector stops it: earlier blocks stay (DESIGN CHOICE, log entry 27). -/
def runDense (s0 : State) (h : Hdr) (o : OptDenseOp) (p : Params) : State :=
  let u := optUnit o.muslin
  let (lost, s) := checkRead s0 o.stateDa 32
  if lost then complete s h u stEcc
  else
    let (a, s) := normAnchor s (ofLe (readBytes s.mem o.stateDa 8))
    let g := denseRun s o p a (denseSteps o)
    let s := if g.lost then g.st else writeState g.st o a g
    finish s0 (journalDense s o g) h u (if g.lost then stEcc else stDone)

/-- MU_OPT_DENSE, R237. -/
def execMuOptDense (h : Hdr) (op : OptDenseOp) (s : State) : Out :=
  .next (runDesc s h fun s => match odRefusal s h op with
    | some st => complete s h (optUnit op.muslin) st
    | none => match odParams s op with
      | (.inl st, s) => complete s h (optUnit op.muslin) st
      | (.inr p, s) => match odRefusal2 s h op with
        | some st => complete s h (optUnit op.muslin) st
        | none => runDense s h op p)

/-! A run that is cut short (R240). -/

/-- What an MU_OPT_DENSE that its unit has begun has done when it is cut: a free number of its block steps, and no state record or Sounding
(DESIGN CHOICE, log entry 2). -/
def cutDense (s : State) (h : Hdr) (o : OptDenseOp) : State :=
  if !canStart s h || (odRefusal s h o).isSome then s
  else match odParams s o with
    | (.inl _, _) => s
    | (.inr p, t) =>
      if (odRefusal2 t h o).isSome then s
      else
        let (a, t) := normAnchor t (ofLe (readBytes t.mem o.stateDa 8))
        let g := denseRun t.took o p a (fresh t % denseSteps o)
        journalDense g.st o { g with lost := true }

/-- The dispatched MU_OPT_DENSE commands that meet a test are cut. -/
def cutDenses (s : State) (f : Disp → Bool) : State :=
  (s.qm.disp.filter f).foldl (fun s d => match d.cmd with | .muOptDense _ o => cutDense s d.hdr o | _ => s) s

end Sys2Proof.Machine
end

