-- ==== Sys2Proof/Machine/Rings.lean ====
section
/-!
DEFINITION. The Easting and Northing rings: RG_PUT and RG_GET (R383), ring frames (R363 to R370), ports and switches (R365, R372, R375 to
R377), tokens and gates (R379 to R381), remote timeouts (R384).
-/

namespace Sys2Proof.Machine

/-! RG_PUT and RG_GET (R383). -/

/-- Bytes of one request: one flit's payload (DESIGN CHOICE, log entry 33). -/
abbrev ringUnit := 192
def ringReqs (o : RingOp) : Nat := ceilDiv o.len ringUnit

/-- The command waits for one more answer. -/
def addWait (s : State) (h : Hdr) (key : Nat) : State := s.onQm fun q =>
  { q with waiting := q.waiting.map fun w => if sameDesc w.hdr h then { w with tags := w.tags ++ [key] } else w }

/-- Where request j of the command goes: its remote DA, the request, and the state once a remote window's next DA and its chunk's credit are
taken; none while a chunk has no credit. The DA of a byte of a remote window is not known here: a free value (DESIGN CHOICE, log entry 33). -/
def ringTarget (s : State) (o : RingOp) (put_ : Bool) (j n : Nat) (r : OutReq) : Option (Nat × OutReq × State) :=
  if !put_ then some (o.srcDa + j * ringUnit, { r with landDa := o.dstDa + j * ringUnit }, s)
  else if !o.streamMode then some (o.dstDa + j * ringUnit, { r with landDa := o.dstDa + j * ringUnit }, s)
  else (takeRc s o.dev o.stream n).map fun m =>
    (fresh s % 2 ^ 48, { r with strm := some o.stream, landDa := (rcOf s o.dev o.stream).2 }, s.took.onRings fun g => { g with rcred := m })

/-- Request j of the command: none while R306 leaves no room, or a chunk has no credit. -/
def sendRing (s : State) (h : Hdr) (o : RingOp) (put_ : Bool) (j : Nat) : Option State :=
  let d := linkOf s o.dev
  let n := min ringUnit (o.len - j * ringUnit)
  let t := newTag s d
  let r : OutReq := { die := d, tag := t, dst := d, kind := if put_ then rkPut else rkGet, resv := 1, flits := 1, remote := true,
                      queue := h.queue, index := h.index, key := some (descKey h), len := n, dev := o.dev, step := h.stamp }
  if !reqRoom s r then none
  else
    let bs := if put_ then viewBytes s (o.srcDa + j * ringUnit) n else []
    (ringTarget s o put_ j n r).map fun x =>
      let f : Flit := { op := if put_ then 0x02 else 0x01, tc := if put_ then 3 else 2, dst := d, src := d,
                        panel := (panelOfQueue s h.queue).getD 0, tag := t, da := x.1, plen := bs.length, oparg := if put_ then 0 else n,
                        payload := bs }
      addWait (requestRemote x.2.2 x.2.1 f (dieOfAddr x.1)) h (reqWait d t)

/-- Requests from j on, fuel requests, as far as there is room. -/
def sendRings (s : State) (h : Hdr) (o : RingOp) (put_ : Bool) : Nat → Nat → State
  | 0, _ => endAdds s h stDone
  | n + 1, j =>
    if ringReqs o ≤ j then endAdds s h stDone
    else if remoteGone s o.dev then endAdds (countLost s o.dev) h stLinkLost
    else match sendRing s h o put_ j with
      | some t => sendRings t h o put_ n (j + 1)
      | none => s.onMu fun m => { m with gatherPos := put m.gatherPos (descKey h) { bag := j } }

/-- A ring operation: its checks, its source read, and its requests; run again while it waits for room, it sends what is left. -/
def runRing (s : State) (h : Hdr) (o : RingOp) (put_ : Bool) (u : UnitId) : State :=
  match ringRefusal s h o put_ with
  | some st => complete (if st = stLinkLost then countLost s o.dev else s) h u st
  | none =>
    let (lost, s) := if put_ then checkRead s o.srcDa o.len else (false, s)
    if lost then complete s h u stEcc
    else sendRings (waitFor s { hdr := h, unit := u, tags := [moreKey h], status := 0 }) h o put_ (ringReqs o) 0

/-- RG_PUT, R383. -/
def execRgPut (h : Hdr) (op : RingOp) (s : State) : Out :=
  .next (match look s.mu.gatherPos (descKey h) with
    | some v => if mayBegin s h then sendRings s h op true (ringReqs op - v.bag) v.bag else s
    | none => runDesc s h fun s => runRing s h op true (targetUnit s (.rgPut h op)))

/-- RG_GET, R383. -/
def execRgGet (h : Hdr) (op : RingOp) (s : State) : Out :=
  .next (match look s.mu.gatherPos (descKey h) with
    | some v => if mayBegin s h then sendRings s h op false (ringReqs op - v.bag) v.bag else s
    | none => runDesc s h fun s => runRing s h op false (targetUnit s (.rgGet h op)))

/-! Tokens (R377, R379). -/

/-- A token that arrives at a ring link die goes on: along its ring until half of it is covered, and from the Easting ring into both
Northing directions. -/
def goesOn (s : State) (die : Nat) (t : Token) : Bool :=
  let dim := dimOfDie die
  let n := ringLen s dim
  let (a, b) := (devPos s (selfDev s) dim, devPos s t.orig dim)
  -- a token that arrives at a − port travels in the + direction
  let far := if die % 2 = 0 then (a + n - b % n) % n else (b + n - a % n) % n
  2 * far < n || (dim == 0 && 1 < ringLen s 1)

/-- TOKEN_IN, R379: at CMD, or at a ring link die, which also sends it on. -/
def execTokenIn (die : Nat) (tok : Token) (s : State) : Out :=
  .next (if die = 0 then applyToken s tok
    else if isRing die && dieUp s die then
      applyToken (if goesOn s die tok then s.onRings fun g => { g with floods := g.floods ++ [tok] } else s) tok
    else s)

/-- SENT, R377. -/
def execSent (dev step : Nat) (s : State) : Out := .next (applyStep s dev step false)

/-- OPEN, R377. -/
def execOpenTok (dev step : Nat) (s : State) : Out := .next (applyStep s dev step true)

/-- TOPO, R377. -/
def execTopo (dev aux orig count : Nat) (s : State) : Out := .next (applyTopo s dev aux orig count)

/-- ALIAS, R377. -/
def execAliasTok (dev target : Nat) (s : State) : Out := .next (applyAlias s dev target)

/-! Step tokens of this package (R380 to R382). -/

/-- The last step whose commands have all been issued: the running one once every program stands at SEAL, else the one before. -/
def issuedUpTo (s : State) : Option Nat :=
  if s.seq.phase = 1 && s.seq.progs.all (fun p => p.2.st == 2) && allFetched s then some s.seq.step
  else if s.seq.step = 0 then none else some (s.seq.step - 1)

/-- The step whose SENT goes next (DESIGN CHOICE, log entry 34). -/
def nextSent (s : State) : Option Nat :=
  match issuedUpTo s, s.rings.sentUpTo with
  | none, _ => none
  | some n, none => some n
  | some n, some x => if x < n then some (x + 1) else none

/-- A command that may still send a remote request stamped with step n. -/
def remoteCmd (c : Instr) : Bool :=
  match c with
  | .rgPut _ _ | .rgGet _ _ => true
  | .muLedgerAdd _ o => o.remote
  | _ => false

/-- Every remote request stamped with step n has been answered or has ended. -/
def remoteDone (s : State) (n : Nat) : Bool :=
  !(s.gz.out.any fun r => r.remote && r.step == n && (r.kind == rkPut || r.kind == rkGet || r.kind == rkAdd))
  && !(s.qm.disp.any fun d => remoteCmd d.cmd && d.hdr.stamp == n)
  && !(s.qm.queues.any fun q => q.2.fetched.any fun x => remoteCmd x.cmd && x.hdr.stamp == n)

/-- SEND_SENT, R380. -/
def execSendSent (s : State) : Out :=
  .next (match nextSent s with
    | none => s
    | some n =>
      if remoteDone s n && !s.rings.map_.isEmpty then (floodStep s n false).onRings fun g => { g with sentUpTo := some n } else s)

/-- This package's seal of step n has taken effect. -/
def sealedUpTo (s : State) (n : Nat) : Bool := (musUp s).all fun k => n < openStep s k

/-- The step whose seal the next OPEN follows. -/
def nextOpen (s : State) : Option Nat :=
  match s.rings.sentUpTo, s.rings.openUpTo with
  | none, _ => none
  | some n, none => some n
  | some n, some x => if x ≤ n then some x else none

/-- SEND_OPEN, R380, withheld while a load is in progress (R382). -/
def execSendOpen (s : State) : Out :=
  .next (match nextOpen s with
    | none => s
    | some n =>
      if sealedUpTo s n && s.img.staged.isNone then
        (floodStep s (n + 1) true).onRings fun g => { g with openUpTo := some (n + 1) }
      else s)

/-- TOKEN_WAIT expired at a gate: the LIVE devices it awaits become SILENT, and it passes. -/
def silence (s : State) (n : Nat) (open_ : Bool) : State :=
  let l := (missing s n open_).filter fun d => (peerOf s d).st == peerLive
  let s := l.foldl (fun s d => setPeer s d fun p => { p with st := peerSilent }) s
  (bumpBy s 0 0x70038 l.length).onRings fun g => { g with passed := ins g.passed (2 * n + b2n open_) }

/-- TOKEN_WAIT_EXPIRY, R381. -/
def execTokenWaitExpiry (s : State) : Out :=
  .next (if s.seq.phase = 1 && s.seq.progs.all (fun p => p.2.st == 2) && !sealGateOpen s then silence s s.seq.step false
    else if s.seq.run.isSome && s.seq.phase = 0 && !openHeld s s.seq.step then silence s s.seq.step true
    else s)

/-- REMOTE_TIMEOUT, R384: its count starts when the request has left its link die. -/
def execRemoteTimeout (die tag : Nat) (s : State) : Out :=
  .next (match findReq s die tag with
    | some r => if r.remote && !inEgress s die tag then loseRemote (setSticky (bump s r.dst 0x10038) (srcSlot2 r.dst)) r true else s
    | none => s)

/-! Ports (R365, R366, R368, R375 to R377). -/

/-- Lanes of a link die's port: 32 of a ring, 16 of a twin link die (R360, R388). -/
def portLanes (d : Nat) : Nat := if isTwin d then 16 else 32

/-- A port leaves service or changes its lanes: the twin pair follows, and the Legend (setRPort). -/
def portChanged (s : State) (d : Nat) (f : RPort → RPort) : State :=
  let s := setRPort s d f
  if isTwin d then twinPortCheck s else s

/-- A port enters TRAINING (R375). -/
def retrain (s : State) (d : Nat) : State :=
  portChanged (bump s d 0x10028) d fun p => { p with st := pTraining, lanes := 0, peerValid := false, viol := 0, bad := 0, badLanes := [] }

/-- The nearest position in the − direction that has a DEVICE record and is not ABSENT, from coordinate x, fuel positions. -/
def behind (s : State) (dim line : Nat) : Nat → Nat → Nat
  | 0, _ => selfDev s
  | n + 1, x =>
    let y := stepPos (ringLen s dim) x false
    match lineDev s dim line y with
    | some d => if (peerOf s d).st = peerAbsent then behind s dim line n y else d
    | none => behind s dim line n y

/-- The device that names the segment of a ring port (R377). -/
def segmentDev (s : State) (d : Nat) : Nat :=
  let dim := dimOfDie d
  if d % 2 = 1 then selfDev s else behind s dim (devPos s (selfDev s) (1 - dim)) (ringLen s dim) (devPos s (selfDev s) dim)

/-- Devices that a port skips: those with a record strictly between this package and its peer, in the port's direction, fuel
positions. -/
def skipped (s : State) (dim line target : Nat) (plus : Bool) : Nat → Nat → List Nat
  | 0, _ => []
  | n + 1, x =>
    let y := stepPos (ringLen s dim) x plus
    if y = target then []
    else (match lineDev s dim line y with | some d => [d] | none => []) ++ skipped s dim line target plus n y

/-- The peer stands on this port's ring line, at the position the map gives it (R368; DESIGN CHOICE, log entry 34). -/
def ringPeerOk (s : State) (d : Nat) (f : IdentFrame) : Bool :=
  let line := 1 - dimOfDie d
  (devRec s f.self).isSome && devPos s f.self 0 == f.epos && devPos s f.self 1 == f.npos
  && devPos s f.self line == devPos s (selfDev s) line

/-- The devices between this package and the peer of a ring port. -/
def between (s : State) (d : Nat) (f : IdentFrame) : List Nat :=
  let dim := dimOfDie d
  skipped s dim (devPos s (selfDev s) (1 - dim)) (devPos s f.self dim) (d % 2 == 1) (ringLen s dim) (devPos s (selfDev s) dim)

/-- The segment to the peer can train (R374): at most one package between them is bypassed, and its ports of that dimension are not
module-attached. No IDENT comes over another (DEDUCED, log entry 102). -/
def spanOk (s : State) (d : Nat) (f : IdentFrame) : Bool :=
  let l := between s d f
  l.length ≤ 1 && l.all fun x => match devRec s x with | some r => fld r (6 + dimOfDie d) == 0 | none => true

/-- R390: the peer is this package's twin, and knows it. -/
def twinPeerOk (s : State) (f : IdentFrame) : Bool :=
  mapTwin s (selfDev s) == some f.self && f.twin == selfDev s && f.pairId != s.pkg.pairId

/-- The frames of a replay buffer that a RACK does not acknowledge (R363, R365). -/
def unackedFrames (rack : Nat) (l : List RingFrame) : List RingFrame :=
  match l.findIdx? fun x => x.rseq == rack with
  | some i => l.drop (i + 1)
  | none => l

/-- The replay buffer when a port comes up (R376): replayed from the peer's RACK, or discarded. -/
def settleKept (s : State) (d : Nat) (f : IdentFrame) : State :=
  let p := rport s d
  if p.peer = f.self && f.keeps then
    let l := unackedFrames f.rack p.kept
    bumpBy (setRPort s d fun p => { p with kept := l }) d 0x10018 l.length
  else discardKept s d

/-- A port comes up with an accepted peer. -/
def portUpWith (s : State) (d : Nat) (f : IdentFrame) : State :=
  let n := min f.lanes (portLanes d)
  let full := n == portLanes d
  let s := settleKept s d f
  pumpLink (portChanged s d fun p =>
    { p with st := if full then pUpFull else pUpHalf, lanes := if full then n else portLanes d / 2, peer := f.self, peerValid := true, fails := 0,
             viol := 0, bad := 0 }) d

/-- A ring port comes up: skipped devices are flooded as ABSENT, and a segment it reported broken as mended (R377). -/
def ringUpWith (s : State) (d : Nat) (f : IdentFrame) : State :=
  let dim := dimOfDie d
  let s := portUpWith s d f
  let l := between s d f
  let s := l.foldl (fun s x => floodTopo s x 0) s
  if (rport s d).brk then floodTopo (setRPort s d fun p => { p with brk := false }) (segmentDev s d) (4 + dim) else s

/-- A package that its twin serves yields (R397, R404): a warm reset, and both dimensions held closed. Without a TWIN section, or where it is not
TWIN_CAPABLE, it stays UNPAIRED. -/
def enterYield (s : State) : State :=
  if s.twin.st = tsYielded || (twinSect s).isEmpty || !twinCapable s then s
  else addCause ((s.onTwin fun t => { t with st := tsYielded }).onSv fun v => { v with warmReqs := ins v.warmReqs 11 }) causeSelvage

/-- What an accepted twin's IDENT does to the pair state (R397, R405). A YIELDED package first takes its warm reset (R404); one in RETURNING is
past the SERVING that its twin may still show (DEDUCED, log entry 102). -/
def pairIdent (s : State) (f : IdentFrame) : State :=
  if (twinSect s).isEmpty || !twinCapable s then s
  else if s.twin.st = tsYielded then (if s.img.inForce.isSome && !s.sv.warmReqs.contains 11 then enterBase s tsReturning false else s)
  else if s.twin.st != tsServing && s.twin.st != tsReturning && f.pairState = tsServing then enterYield s
  else if s.twin.st = tsServing then
    (if f.pairState = tsYielded || f.pairState = tsReturning then enterBase s tsReturning true else s)
  else if s.twin.st = tsUnpaired || s.twin.st = tsOrphaned then enterBase s tsBase true
  else if s.twin.st = tsPaired && (f.pairState = tsBase || !f.keeps) then enterBase s tsBase true
  else s

/-- A pair that a reset left in BASE begins its copies once the twin is heard again (R397, R483). -/
def rebase (was : Bool) (s : State) : State := if s.twin.st = tsBase && !was then enterBase s tsBase true else s

/-- IDENT, R368 and R390: it decides a training; on a twin port that is up it tells the twin's pair state. -/
def execIdent (die : Nat) (f : IdentFrame) (s : State) : Out :=
  .next (if !dieUp s die then s
    else if isRing die then
      if (rport s die).st != pTraining || (ringPeerOk s die f && !spanOk s die f) then s
      else if ringPeerOk s die f then ringUpWith s die f
      else setRPort s die fun p => { p with st := pMismatch, fails := 0 }
    else if isTwin die then
      if (rport s die).st = pTraining then
        if twinPeerOk s f then pairIdent (rebase (twinUp s) (portUpWith s die f)) f else setRPort s die fun p => { p with st := pMismatch, fails := 0 }
      else if rportUp s die && twinPeerOk s f then pairIdent s f
      else s
    else s)

/-- UNCORRECTABLE_CODEWORD, R362: its frames are replayed; after 16 failed replays in a row the port retrains (R365). -/
def execUncorrectableCodeword (die : Nat) (s : State) : Out :=
  .next (if !(isRing die || isTwin die) || !rportUp s die then s
    else
      let s := bump s die 0x10010
      if 16 ≤ (rport s die).bad then retrain s die else setRPort s die fun p => { p with bad := p.bad + 1 })

/-- RING_LANE_FAILURE, R365: the port goes on with the half that holds no failed lane, or retrains. -/
def execRingLaneFailure (die lane : Nat) (s : State) : Out :=
  .next (if !(isRing die || isTwin die) || !rportUp s die || portLanes die ≤ lane then s
    else
      let half := portLanes die / 2
      let l := ins (rport s die).badLanes lane
      if l.any (· < half) && l.any (half ≤ ·) then retrain s die
      else portChanged s die fun p => { p with badLanes := l, st := pUpHalf, lanes := half })

/-- A snapshot to the twin ends when the twin link is lost (R409). -/
def loseSnapshot (s : State) : State :=
  match s.snap with
  | some x => if x.op.dest = 2 && !twinUp s then complete (s.onSnap fun _ => none) x.hdr cmdUnit stLinkLost else s
  | none => s

/-- LOSS_OF_SIGNAL, R375. -/
def execLossOfSignal (die : Nat) (s : State) : Out :=
  .next (if !(isRing die || isTwin die) || (rport s die).st = pBypassed then s
    else
      let s := portChanged s die fun p => { p with st := pDown, lanes := 0, peerValid := false, fails := 0, bad := 0, badLanes := [] }
      if isTwin die then loseSnapshot s else s)

/-- SIGNAL_DETECTED, R375. -/
def execSignalDetected (die : Nat) (s : State) : Out :=
  .next (if (isRing die || isTwin die) && dieUp s die && ((rport s die).st = pDown || (rport s die).st = pMismatch)
         then retrain (setRPort s die fun p => { p with fails := 0 }) die else s)

/-- TRAINING_FAILURE, R375: the third leaves the port BROKEN, and a ring's segment is flooded as broken (R377). -/
def execTrainingFailure (die : Nat) (s : State) : Out :=
  .next (if !(isRing die || isTwin die) || (rport s die).st != pTraining then s
    else if (rport s die).fails < 2 then setRPort s die fun p => { p with fails := p.fails + 1 }
    else
      let s := pumpLink (setRPort s die fun p => { p with st := pBroken, fails := 0 }) die
      if isRing die then floodTopo (setRPort s die fun p => { p with brk := true }) (segmentDev s die) (2 + dimOfDie die) else s)

/-- BROKEN_RETRY, R375. -/
def execBrokenRetry (die : Nat) (s : State) : Out :=
  .next (if (isRing die || isTwin die) && (rport s die).st = pBroken then retrain s die else s)

/-! Switches (R372, R377). -/

/-- BYPASS_CAUSE, R372: row 5 names one dimension. -/
def execBypassCause (cause dim : Nat) (s : State) : Out :=
  .next (if 1 ≤ cause && cause ≤ 4 then addCause s cause
    else if cause = 5 && dim ≤ 1 then addCause s (5 + dim)
    else s)

/-- A BYPASS_FORCE that waits for its release completes once every dimension that may open is open (R373). -/
def releaseWaiter (s : State) : State :=
  match s.rings.waitRelease with
  | some h => if dimWaiting s then s else complete (s.onRings fun g => { g with waitRelease := none }) h svUnit stDone
  | none => s

/-- DIMENSION_OPEN, R372: both of its link dies report lock, and nothing else holds it closed (DEDUCED, log entry 62). -/
def execDimensionOpen (dim : Nat) (s : State) : Out :=
  .next (let t := if (dimDies dim).all (dieUp s) then
                    (dropCause s (5 + dim)).onRings fun g => { g with noLock := g.noLock.filter fun d => !(dimDies dim).contains d }
                  else s
    if 1 < dim || !dimAllowed t dim || t.rings.openDims.contains dim then s
    else
      let s := t.onRings fun g => { g with openDims := ins g.openDims dim }
      let s := (dimDies dim).foldl (fun s d => setRPort s d fun p => { p with st := pDown, lanes := 0, peerValid := false }) s
      releaseWaiter (floodTopo s (selfDev s) 1))

/-! Frames (R363, R366, R370). -/

/-- A refusal sent back over the ring without entering Gauze. -/
def refuseFrame (s : State) (die : Nat) (x : RingFrame) (st : Nat) : State :=
  sendBack s die { die := die, tag := 0, srcDev := x.srcDev, srcDie := x.flit.src, srcTag := x.flit.tag }
    { op := 0x06, tc := 0, dst := 0, src := die, panel := x.flit.panel, da := x.flit.da, status := st }

/-- R248 and R219 for a remote request, as from a queue of the panel its PANEL names (R370). READ gives its length in OPARG (DESIGN CHOICE,
log entry 33). An ATOMIC_ADD is checked where it is applied (R198). -/
def remoteBad (s : State) (f : Flit) : Option Nat :=
  if f.op = 0x02 then
    match r21 s [(f.da, f.payload.length)] with
    | some st => some st
    | none =>
      if (workingRegions s).any (meets (f.da, f.payload.length)) then some stMalformed
      else checkPanel s (some f.panel) true [(f.da, f.payload.length)]
  else if f.op = 0x01 then checkPanel s (some f.panel) false [(f.da, f.oparg)]
  else if f.op = 0x03 then none
  else some stMalformed

/-- Room for one more ring request of an ingress link die: its tag table of 4,096, and R306 (DEDUCED, log entry 56). -/
def ingressRoom (s : State) (die : Nat) (r : OutReq) : Bool :=
  (s.rings.ingress.filter fun g => g.die == die).length < 4096 && reqRoom s r

/-- A request at an ingress link die as an open request of the die's own (R370). -/
def ingressReq (s : State) (die rDie : Nat) (f : Flit) : OutReq :=
  { die := die, tag := newTag s die, dst := rDie, kind := if f.op = 0x01 then rkRead else if f.op = 0x02 then rkWrite else rkAdd,
    resv := if f.op = 0x01 then ceilDiv f.oparg 192 else 1, flits := 1, far := inFar f.da }

/-- A request enters Gauze as the link die's own (R370). -/
def enterGauze (s : State) (die : Nat) (x : RingFrame) (rDie : Nat) (f : Flit) : State :=
  let r := ingressReq s die rDie f
  let s := (openReq s r).onRings fun g =>
    { g with ingress := g.ingress ++ [{ die := die, tag := r.tag, srcDev := x.srcDev, srcDie := x.flit.src, srcTag := x.flit.tag }] }
  sendOne s { f with dst := rDie, src := die, tag := r.tag, mgroup := 0, via := none, beyond := none }

/-- A chunk credit of a remote stream that this package produces into: a REG_WRITE to the link die (R383; DESIGN CHOICE, log entry 33). -/
def takeCredit (s : State) (x : RingFrame) : State :=
  let (dev, n) := (x.srcDev, x.flit.oparg % 16384)
  let (c, p) := rcOf s dev n
  sendRemotes (s.onRings fun g => { g with rcred := put g.rcred (rcKey dev n) (c + 1, p) })

/-- FILL of a REMOTE stream, written by its producer once every WRITE of a chunk is acknowledged: it advances over what has landed (R259, R260;
DESIGN CHOICE, log entry 33). -/
def takeFill (s : State) (n v : Nat) : State :=
  match streamRec s n with
  | none => s
  | some r =>
    let x := strmOf s n
    let up := (v + 2 ^ 64 - x.fill) % 2 ^ 64
    if fld r 2 != 2 || x.st = sAborted || (x.wpos + 2 ^ 64 - x.fill) % 2 ^ 64 < up then s
    else setStrm s n fun x => { x with fill := v % 2 ^ 64 }

/-- A REG_WRITE of a stream that came over a ring: a credit at a ring link die, FILL at a consumer's die. -/
def takeStrmReg (s : State) (x : RingFrame) : State :=
  if isRing x.rDie then takeCredit s x else takeFill s (x.flit.oparg % 16384) (ofLe (x.flit.payload.take 8))

/-- The receiving twin link die acknowledges a journal record (R395). -/
def ackJournal (s : State) (die : Nat) (x : RingFrame) : State :=
  if s.twin.st = tsUnpaired || s.twin.st = tsServing || s.twin.st = tsYielded then s
  else sendBack s die { die := die, tag := 0, srcDev := x.srcDev, srcDie := x.flit.src, srcTag := x.flit.tag }
    { op := 0x05, tc := 1, dst := 0, src := die, panel := x.flit.panel, da := x.flit.da }

/-- A request at its device; one for the ALIASED twin is translated first (R403). None while no room is reserved for its answer (R305). -/
def takeRequest (s : State) (die : Nat) (x : RingFrame) : Option State :=
  let own := x.dstDev == selfDev s
  match (if own then some (x.rDie, x.flit) else mapFlit s x.rDie x.flit) with
  | none => some (refuseFrame s die x stMalformed)
  | some (d, f) =>
    -- a journal record to a twin link die is acknowledged; what it holds comes as a command of its own (DESIGN CHOICE, log entry 14)
    if isTwin die && d = die then some (ackJournal s die x)
    else if own && f.op = 0x08 then some (takeStrmReg s x)
    else match remoteBad s f with
      | some st => some (refuseFrame s die x st)
      | none => if ingressRoom s die (ingressReq s die d f) then some (enterGauze s die x d f) else none

/-- An answer at its device: it goes on to the die that asked (R370). -/
def takeReply (s : State) (die : Nat) (x : RingFrame) : State := sendFlit s { x.flit with dst := x.rDie, src := die }

/-- A message for another device goes on to its outgoing link die, on VL0 again where it turns to the other ring, once that die's transit
store takes it; where no route reaches its device it is dropped, and its sender times out (R366, R369, R384). -/
def passOn (s : State) (die : Nat) (x : RingFrame) : Option State :=
  match routeDie (ringRoute s x.dstDev) with
  | some l =>
    if transitUsed s l + frameLen x ≤ 4096 then some (sendFrame s l { x with vl := if dimOfDie l = dimOfDie die then x.vl else 0 }) else none
  | none => some s

/-- The frame is for this device: its own number, or that of a device ALIASED to it. -/
def forSelf (s : State) (dev : Nat) : Bool :=
  dev == selfDev s || ((peerOf s dev).st == peerAliased && (peerOf s dev).target == selfDev s)

/-- A message of a ring input goes on; none where it must wait. -/
def takeFrame (s : State) (die : Nat) (x : RingFrame) : Option State :=
  if !forSelf s x.dstDev then (if isRing die then passOn s die x else some s)
  else if x.tc = 2 || x.tc = 3 then takeRequest s die x
  else some (takeReply s die x)

/-- The messages of a ring input go on, in order within a class and lane; full lists those that must wait. The credits they free go back to
the peer at once, in IDLE frames (DESIGN CHOICE, log entry 33). -/
def drainFrames (die : Nat) : List RingFrame → List Nat → State → State
  | [], _, s => s
  | x :: l, full, s =>
    if full.contains (vlKey x.tc x.vl) then drainFrames die l full s
    else match takeFrame s die x with
      | some t => drainFrames die l full (setRPort t die fun p => { p with input := p.input.erase x })
      | none => drainFrames die l (vlKey x.tc x.vl :: full) s
def drainInput (s : State) (die : Nat) : State := drainFrames die (rport s die).input [] s

/-- What any frame from the peer brings: frames acknowledged, and credits (R363, R365, R366). -/
def takeRet (s : State) (die : Nat) (r : RingRet) : State :=
  let k := vlKey r.tc r.vl
  setRPort s die fun p =>
    { p with bad := 0, kept := unackedFrames r.rack p.kept, used := put p.used k (look0 p.used k - r.n) }

/-- What waited at a link die moves on: the frames of its ring input, and those of its stores (R366). -/
def moveOn (s : State) (die : Nat) : State := drainInput (pumpLink s die) die

/-- IDLE, R363: it carries no request. The codewords that the FEC corrected on its way are a free value (R362). -/
def execIdle (f : IdleFrame) (s : State) : Out :=
  .next (if (isRing f.die || isTwin f.die) && rportUp s f.die then
           moveOn (takeRet (bumpBy s.took f.die 0x10008 (fresh s % 2 ^ 32)) f.die f.ret) f.die
         else s)

/-- Frames of a class and lane in a ring input. -/
def inputUsed (s : State) (die tc vl : Nat) : Nat :=
  (((rport s die).input.filter fun x => x.tc == tc && x.vl == vl).map frameLen).sum

/-- A frame that arrives without a credit is discarded; the 16th since the last training retrains the port (R366). -/
def badCredit (s : State) (die : Nat) : State :=
  let s := setRPort (bump s die 0x10020) die fun p => { p with viol := p.viol + 1 }
  if 16 ≤ (rport s die).viol then retrain s die else s

/-- FLIT_FRAME, R370: a frame received correctly (DESIGN CHOICE, log entry 33). A class without ring credits is one that arrives without a
credit (R366) (DEDUCED, log entry 56). -/
def execFlitFrame (die : Nat) (f : RingFrame) (s : State) : Out :=
  .next (if !(isRing die || isTwin die) || !rportUp s die then s
    else
      let s := takeRet s die f.ret
      if 4 < f.tc || ringCap f.tc < inputUsed s die f.tc f.vl + frameLen f then badCredit s die
      else moveOn (setRPort s die fun p => { p with rrecv := (f.rseq + frameLen f - 1) % 2 ^ 16, input := p.input ++ [f] }) die)

end Sys2Proof.Machine
end

