-- ==== Sys2Proof/Machine/Twin.lean ====
section
/-!
DEFINITION. The twin pair: journal records received (R395 to R398), YIELD (R404), the step number of a hand-back (R405), and snapshots (R406 to
R409).
-/

namespace Sys2Proof.Machine

/-! Messages of the twin. -/

/-- JOURNAL_DATA, R395. -/
def execJournalData (r : JRec) (s : State) : Out := .next (if twinUp s then receiveJournal s jData r else s)

/-- JOURNAL_BASE, R398. -/
def execJournalBase (r : JRec) (s : State) : Out := .next (if twinUp s then receiveJournal s jBase r else s)

/-- JOURNAL_END, R395. -/
def execJournalEnd (r : JRec) (s : State) : Out := .next (if twinUp s then receiveJournal s jEnd r else s)

/-- JOURNAL_BASE_END, R398. -/
def execJournalBaseEnd (r : JRec) (s : State) : Out := .next (if twinUp s then receiveJournal s jBaseEnd r else s)

/-- YIELD, R404: the twin serves this package's shard. -/
def execYield (s : State) : Out := .next (if s.twin.st = tsServing then s else enterYield s)

/-- The pair after a hand-back on the returning package: it receives the base copy's reverse, and sends nothing (R405 step 4). -/
def takeBack (s : State) (step : Nat) : State :=
  let s := (dropCause s causeSelvage).onSeq fun q => { q with step := step }
  let s := enterBase s tsBase false
  match s.seq.held with
  | some (h, n) => startRun s h n
  | none => s

/-- HANDBACK_STEP_NUMBER, R405 step 3. -/
def execHandbackStepNumber (step : Nat) (s : State) : Out :=
  .next (if s.twin.st = tsReturning && !serves s then takeBack s step else s)

/-! The stream of a snapshot (R407, R408). -/

/-- A snapshot being formed: its bytes, its records, whether a row was exported poisoned, and the status that stopped it. -/
structure SnapRun where
  st     : State
  out    : List Byte := []
  count  : Nat := 0
  poison : Bool := false
  stop   : Nat := 0

/-- A record added: a 32-byte header whose layout the spec does not print (DESIGN CHOICE, log entry 36), and its payload, padded to 64 bytes. -/
def addRec (g : SnapRun) (payload : List Byte) : SnapRun :=
  let n := 32 + payload.length
  { g with st := g.st.took, count := g.count + 1,
           out := g.out ++ leBytes 32 (fresh g.st) ++ payload ++ List.replicate (roundUp n 64 - n) 0 }

/-- One row: its record and side record, or zeros when it is read poisoned. -/
def snapRow (s : State) (tr sr : Rec) (t row : Nat) : (List Byte × Bool) × State :=
  let k := fld sr 2
  let da := fld sr 4 + (row - fld sr 0) * rowBytes tr
  let sda := fld sr 5 + (row - fld sr 0) * sideBytes tr
  let n := rowBytes tr + sideBytes tr
  let e := dirOrHome s k t row da
  if e.poisoned then ((List.replicate n 0, true), s)
  else
    let (l1, s) := checkRead s e.dest (rowBytes tr)
    let (l2, s) := checkRead s sda (sideBytes tr)
    if l1 || l2 then ((List.replicate n 0, true), s)
    else ((readBytes s.mem e.dest (rowBytes tr) ++ readBytes s.mem sda (sideBytes tr), false), s)

/-- Rows row on of a shard, n rows: bytes and poison bits. -/
def snapRows (s : State) (tr sr : Rec) (t : Nat) : Nat → Nat → (List Byte × List Bool) × State
  | 0, _ => (([], []), s)
  | n + 1, row =>
    let ((bs, p), s) := snapRow s tr sr t row
    let ((r, ps), s) := snapRows s tr sr t n (row + 1)
    ((bs ++ r, p :: ps), s)

/-- A bitmap, bit i of row i. -/
def bitmapOf (ps : List Bool) : List Byte :=
  leBytes (ceilDiv ps.length 8) (ps.foldr (fun b n => 2 * n + b2n b) 0)

/-- A shard's ROWS record. -/
def snapShard (tr : Rec) (g : SnapRun) (sr : Rec) : SnapRun :=
  let ((bs, ps), s) := snapRows g.st tr sr (fld tr 0) (fld sr 3) (fld sr 0)
  addRec { g with st := s, poison := g.poison || ps.contains true } (bs ++ bitmapOf ps)

/-- A table: its TABLE record, then one ROWS record for each shard. -/
def snapTable (g : SnapRun) (tr : Rec) : SnapRun :=
  ((sect g.st 0x11).filter fun r => fld r 1 == fld tr 0).foldl (snapShard tr) (addRec g [])

/-- The parts of a tensor in the order of R408: each where it lies and its bytes. -/
def tensorParts (o : OptDenseOp) : List Range :=
  let n := odCount o
  [(o.masterDa, 2 * n), (o.gDa, n), (o.gScaleDa, n / 32), (o.eDa, n), (o.m1Da, n), (o.m1ScaleDa, n / 32)]
  ++ (if o.mode = 1 then [(o.vrDa, o.rowsN), (o.vrScaleDa, o.rowsN / 32), (o.vcDa, o.colsN), (o.vcScaleDa, o.colsN / 32)] else [])
  ++ [(o.stateDa, 32)]

/-- One part of a tensor: read under R248 and R519. -/
def snapPart (h : Hdr) (g : SnapRun) (r : Range) : SnapRun :=
  if g.stop != 0 then g
  else match checkDa g.st h false [r] with
    | some st => { g with stop := st }
    | none =>
      let (lost, s) := checkRead g.st r.1 r.2
      if lost then { g with st := s, stop := stEcc } else addRec { g with st := s } (readBytes s.mem r.1 r.2)

/-- Entry i of the tensor list. -/
def snapTensor (h : Hdr) (o : SnapOp) (g : SnapRun) (i : Nat) : SnapRun :=
  if g.stop != 0 then g
  else (tensorParts (decodeOptDense (readBytes g.st.mem (o.listDa + 192 * i) 192))).foldl (snapPart h) g

/-- The whole stream: tables, tensors, and the END record with the SHA-256 of what precedes it. -/
def snapStream (s : State) (h : Hdr) (o : SnapOp) : SnapRun :=
  let (lost, s) := checkRead s o.listDa (192 * o.nTensors)
  if lost then { st := s, stop := stEcc }
  else
    let tables := if o.rows then (sect s 0x10).filter fun r => panelOfQueue s h.queue == some (tPanel r) else []
    let g := tables.foldl snapTable { st := s }
    let g := (List.range o.nTensors).foldl (snapTensor h o) g
    if g.stop != 0 then g else addRec g (Config.sha256 g.out)

/-! TN_SNAPSHOT (R406, R409). -/

/-- R406: the first check that refuses. -/
def snapRefusal (s : State) (h : Hdr) (o : SnapOp) : Option Nat :=
  match firstBad [
    (o.dest == 2 && !twinCapable s, stAbsent),
    (o.dest == 3 || (!o.rows && o.nTensors == 0) || o.dstLen == 0, stMalformed),
    (o.dest == 2 && s.twin.st != tsPaired, stLinkLost)] with
  | some st => some st
  | none => firstSome [if o.dest = 2 then none else checkOut s h [(o.dstDa, o.dstLen)],
      if o.nTensors = 0 then none else checkDa s h false [(o.listDa, 192 * o.nTensors)]]

/-- The step a snapshot is consistent at: the last one whose bank every Muslin die has released. -/
def snapStep (s : State) : Nat :=
  match (musUp s).map fun k => look0 s.mu.closedStep k with
  | [] => 0
  | x :: r => r.foldl min x

/-- The status a formed stream ends with. -/
def snapStatus (g : SnapRun) (o : SnapOp) : Nat :=
  if o.dest != 1 && o.dstLen < g.out.length then stQuota
  else if g.stop != 0 then g.stop
  else if g.poison then stPoison else stDone

/-- Writes to the twin, as far as R306 leaves room, fuel writes. -/
def sendSnap (s : State) (x : Snap) : Nat → State
  | 0 => s.onSnap fun _ => some x
  | n + 1 =>
    if x.toWrite.isEmpty then answered (s.onSnap fun _ => none) (moreKey x.hdr) x.status false
    else
      let d := twinDie s 0
      let t := newTag s d
      let bs := x.toWrite.take ringUnit
      let a := x.op.dstDa + x.written
      let r : OutReq := { die := d, tag := t, dst := d, kind := rkPut, resv := 1, flits := 1, remote := true, queue := x.hdr.queue,
                          index := x.hdr.index, key := some (descKey x.hdr), len := bs.length, dev := myTwin s, step := x.hdr.stamp }
      if !reqRoom s r then snapStall (s.onSnap fun _ => some x)
      else
        let s := addWait s x.hdr (reqWait d t)
        let s := sendRemote (openReq s r) d (myTwin s) (dieOfAddr a)
          { op := 0x02, tc := 3, dst := d, src := d, panel := (panelOfQueue s x.hdr.queue).getD 0, tag := t, da := a, plen := bs.length, payload := bs }
        sendSnap s { x with written := x.written + bs.length, toWrite := x.toWrite.drop ringUnit } n

/-- A snapshot past its checks. Its stream is formed at once, before any later write (R407; DESIGN CHOICE, log entry 36). -/
def runSnapshot (s0 : State) (h : Hdr) (o : SnapOp) : State :=
  let g := snapStream s0 h o
  let st := snapStatus g o
  let out := if o.dest = 1 then g.out else g.out.take o.dstLen
  let x : Snap := { hdr := h, op := o, step := snapStep s0, written := 0, toWrite := out, status := st }
  if o.dest = 0 then finish s0 (writeMem g.st o.dstDa out) h cmdUnit st
  else if o.dest = 1 then pumpSnap ((markStarted (regSet g.st 0 0x80038 0) h).onSnap fun _ => some x)
  else sendSnap (waitFor g.st { hdr := h, unit := cmdUnit, tags := [moreKey h], status := 0 }) x (ceilDiv out.length ringUnit + 1)

/-- The running snapshot is this descriptor's. -/
def snapOwn (s : State) (h : Hdr) : Option Snap :=
  match s.snap with
  | some x => if sameDesc x.hdr h then some x else none
  | none => none

/-- TN_SNAPSHOT, R406: one at a time, and not during a close; run again, one toward the twin sends what is left. -/
def execTnSnapshot (h : Hdr) (op : SnapOp) (s : State) : Out :=
  .next (match snapOwn s h with
    | some x => if x.op.dest = 2 && mayBegin s h then sendSnap s x (ceilDiv x.toWrite.length ringUnit + 1) else s
    | none => runDesc s h fun s =>
      match snapRefusal s h op with
      | some st => complete s h cmdUnit st
      | none => if s.snap.isSome || !s.mu.unreleased.isEmpty then s else runSnapshot s h op)

end Sys2Proof.Machine
end

