-- ==== Sys2Proof/Machine/Flits.lean ====
section
/-!
DEFINITION. Gauze messages at their destinations (R35, R164, R180, R305 to R309, R317), and the links themselves (R29, R32, R33, R303).
-/

namespace Sys2Proof.Machine

/-! Where a READ or WRITE goes (R25, R108, R164, R309; DESIGN CHOICE, log entry 37). -/

/-- What the DA of a READ or WRITE means at the die it reaches. -/
inductive Place where
  | row (t row : Nat)           -- the record of a row that this Muslin die owns
  | mem                         -- memory that this die serves
  | slot (i : Nat)              -- a shadow slot, READ alone
  | core (g off : Nat)          -- a core buffer, WRITE alone
  | bad (st : Nat)
  deriving DecidableEq, Repr

/-- The row of MUk whose shard-map record is the range. -/
def rowAt (s : State) (k a n : Nat) : Option (Nat × Nat) :=
  (sect s 0x11).findSome? fun r =>
    match tableRec s (fld r 1) with
    | some tr =>
      let rb := rowBytes tr
      if fld r 2 = k && n = rb && fld r 4 ≤ a && a < fld r 4 + fld r 3 * rb && (a - fld r 4) % rb == 0 then
        some (fld r 1, fld r 0 + (a - fld r 4) / rb)
      else none
    | none => none

/-- A range of memory at a die: it must be valid (R21) and the die's own. -/
def memPlace (s : State) (d a n : Nat) : Place :=
  match r21 s [(a, n)] with
  | some st => .bad st
  | none => if dieOfAddr a = d then .mem else .bad stMalformed

/-- A READ of n bytes at a die. -/
def readAt (s : State) (d a n : Nat) : Place :=
  if isTw d then .slot a
  else if isMu d then
    match rowAt s (d - 18) a n with
    | some (t, row) => .row t row
    | none => memPlace s d a n
  else if isSt d || d = 0 then memPlace s d a n
  else .bad stMalformed

/-- A WRITE of n bytes at a die; a compute die takes it into core DA[27:26] at offset DA[25:0]. -/
def writeAt (s : State) (d a n : Nat) : Place :=
  if isTw d then
    (if a / 2 ^ 28 != 0 || cbSize < a % 2 ^ 26 + n then .bad stMalformed else .core (4 * (d - 2) + a / 2 ^ 26) (a % 2 ^ 26))
  else if isMu d || isSt d || d = 0 then memPlace s d a n
  else .bad stMalformed

/-- The other device that a flit at a link die is for. -/
def outbound (f : Flit) : Option (Nat × Nat) := if isRing f.dst || isTwin f.dst then f.beyond else none

/-- The PANEL of an answer: that of the core that gives it (R122), else the request's. -/
def answerPanel (s : State) (f : Flit) (g : Option Nat) : Nat := (g.bind (panelOfCore s)).getD f.panel

/-! READ (R163, R164, R180, R183, R208, R214). -/

/-- A READ_RESP to the sender of a READ. -/
def respond (s : State) (f : Flit) (panel da mark : Nat) (bs : List Byte) : State :=
  sendFlit s { op := 0x04, tc := 1, dst := f.src, src := f.dst, panel := panel, tag := f.tag, da := da, plen := bs.length, oparg := mark,
               payload := bs }

/-- Data answered in flits of up to 192 bytes. -/
def respondData (s : State) (f : Flit) (panel : Nat) (bs : List Byte) : State :=
  (List.range (ceilDiv bs.length 192)).foldl
    (fun s i => respond s f panel (f.da + 192 * i) 0 ((bs.drop (192 * i)).take 192)) s

/-- Memory read at the die that holds it: whether it was lost, and the answer. Lost data is answered with OPARG bit 0. -/
def readMemory (s : State) (f : Flit) (a n : Nat) : Bool × State :=
  let (lost, s) := checkRead s a n
  (lost, if lost then respond s f f.panel f.da 1 [] else respondData s f f.panel (viewBytes s a n))

/-- A READ of a row at its owner (R164, R203, R204): answered from the entry where the row is POISONED (R214), served where the record rests
here, else forwarded to the die where it rests. -/
def readRow (s : State) (f : Flit) (k t row a n : Nat) : State :=
  let s := hotAdd (survey s k t row 0x110A0 1) k t row 1
  let e := dirOrHome s k t row a
  if e.poisoned then respond s f f.panel f.da 1 []
  else if dieOfAddr e.dest = f.dst then
    let (lost, s) := readMemory s f e.dest n
    if lost then markPoisoned s k t row a else s
  else noteFwd (sendFlit s { f with dst := dieOfAddr e.dest, da := e.dest, via := some f.dst }) f.dst

/-- The row of an owner whose record, or whose former record in FORWARDING, starts at an address. -/
def rowResting (s : State) (k a n : Nat) : Option (Nat × Nat) :=
  match (dirEntries s k).find? fun x => x.2.dest == a || (x.2.st == .forwarding && x.2.prevDest == a) with
  | some x => some (dirParts x.1).2
  | none =>
    match rowAt s k a n with
    | some (t, row) => if (dirOf s k t row).isNone then some (t, row) else none
    | none => none

/-- A READ that an owner forwarded, where the record rests: it answers the requester directly (R164). On a Muslin die where the row no longer
rests it is refused and counted (R208). -/
def readForwarded (s : State) (f : Flit) (owner n : Nat) : State :=
  match rowResting s (owner - 18) f.da n with
  | some (t, row) =>
    let (lost, s) := readMemory s f f.da n
    if lost then (match shardPlace s t row with | some (k, da) => markPoisoned s k t row da | none => s) else s
  | none => if isMu f.dst then refuse (bump s f.dst 0x11058) f stMalformed else (readMemory s f f.da n).2

/-- A READ at its destination; via is the die that forwarded it. An invalid slot is answered with PLEN = 0. -/
def serveRead (s : State) (f : Flit) (via : Option Nat) : State :=
  let n := f.oparg
  match via, outbound f with
  | some o, _ => readForwarded s f o n
  | none, some peer => leaveGauze s f.dst peer f
  | none, none =>
    match readAt s f.dst f.da n with
    | .bad st => refuse s f st
    | .row t row => readRow s f (f.dst - 18) t row f.da n
    | .slot i =>
      let p := answerPanel s f ((slotPlace s f.dst i).map (·.1))
      (match readSlot s f.dst i n with
       | (some bs, s) => respondData s f p bs
       | (none, s) => respond s f p f.da 0 [])
    | _ => (readMemory s f f.da n).2

/-- REG_READ of the 8 bytes of a register of the die (R8, R35, R508). -/
def serveRegRead (s : State) (f : Flit) : State :=
  sendFlit s { op := 0x09, tc := 1, dst := f.src, src := f.dst, panel := f.panel, tag := f.tag, da := f.da, plen := 8,
               payload := leBytes 8 (readReg s f.dst (f.da % 2 ^ 32)) }

/-- READ, R164; the row covers REG_READ too (DESIGN CHOICE, log entry 16). -/
def execRead (f : Flit) (s : State) : Out :=
  let f := asOp 0x01 [0x07] f
  .next (match arrive s f with
    | (some g, s) => if !dieUp s g.dst then s else if g.op = 0x07 then serveRegRead s g else serveRead s g f.via
    | (none, s) => s)

/-! WRITE (R34, R123, R256, R259, R293, R309). -/

/-- The WRITE_ACK of a message. -/
def ackWrite (s : State) (f : Flit) (panel : Nat) : State :=
  sendFlit s { op := 0x05, tc := 1, dst := f.src, src := f.dst, panel := panel, tag := f.tag, da := f.da }

/-- The payload bytes that a message's byte enables let through, as runs of neighbours (R34). -/
def enabledRuns (f : Flit) : List (Nat × List Byte) :=
  if f.byteEn.all id then [(0, f.payload)]
  else ((List.range f.payload.length).zip f.payload).foldl (fun l x =>
    if !f.byteEn.getD x.1 true then l
    else match l.getLast? with
      | some (o, bs) => if o + bs.length = x.1 then l.dropLast ++ [(o, bs ++ [x.2])] else l ++ [(x.1, [x.2])]
      | none => [(x.1, [x.2])]) []

/-- The REMOTE stream whose next byte lies at an offset of core g's buffer, or at an address of memory (R255, R259). -/
def remoteWin (s : State) (g : Option Nat) (a : Nat) : Option Rec :=
  (sect s 0x13).find? fun r =>
    fld r 2 == 2 && (match g with | some g => coreConsumer r && fld r 5 == g | none => !coreConsumer r)
      && fld r 11 ≤ a && a < fld r 11 + winBytes r && (strmOf s (fld r 0)).wpos % winBytes r == a - fld r 11
      && (strmOf s (fld r 0)).st != sAborted

/-- What a device puts into a REMOTE stream's window: its chunk takes a credit, and the producer is known; FILL follows when the producer
writes it (R259, R260). -/
def landRemote (s : State) (r : Rec) (n : Nat) (g : Ingress) : State :=
  let s := setStrm s (fld r 0) fun x =>
    { strmWrote r n x with fill := x.fill, st := if x.st = sIdle then sRun else x.st, producer := some (g.srcDev, g.srcDie) }
  showFull s (fld r 0) r (strmRoom r (strmOf s (fld r 0)) == 0)

/-- A WRITE lands: in a core buffer or in memory. One that came over a ring may produce into a REMOTE stream. -/
def landWrite (s : State) (f : Flit) (g : Option Nat) (a : Nat) : State :=
  let w := remoteWin s g a
  let s := (enabledRuns f).foldl (fun s x =>
    match g with
    | some g =>
      let bad := cbWriteBad s g (a + x.1) x.2.length
      let s := cbWrite s g (a + x.1) x.2
      if bad then panelFaultAt s g else s
    | none => viewWrite s (a + x.1) x.2) s
  match w, ingressOf s f.src f.tag with
  | some r, some g => landRemote s r f.payload.length g
  | _, _ => s

/-- A WRITE at its destination. -/
def serveWrite (s : State) (f : Flit) : State :=
  match outbound f with
  | some peer => leaveGauze s f.dst peer f
  | none =>
    match writeAt s f.dst f.da f.payload.length with
    | .bad st => refuse s f st
    | .core g off =>
      if f.tc = 3 && panelOfCore s g != some f.panel then bumpCore s g 0x28 (max 1 (ceilDiv f.payload.length 192))
      else ackWrite (landWrite s f (some g) off) f (answerPanel s f (some g))
    | _ => ackWrite (landWrite s f none f.da) f f.panel

/-- REG_WRITE under its byte mask (R13, R35, R508); SV takes none over Gauze. -/
def serveRegWrite (s : State) (f : Flit) : State :=
  let s := if f.dst = 1 then s else maskedWrite s f.dst (f.da % 2 ^ 32) .device (f.oparg % 256) (ofLe (f.payload.take 8))
  ackWrite s f f.panel

/-- A copy of a WRITE at a die. -/
def takeWrite (s : State) (f : Flit) : State :=
  if !dieUp s f.dst then s else if f.op = 0x08 then serveRegWrite s f else serveWrite s f

/-- WRITE, R309; a TC3 WRITE of a multicast group is replicated (R42). The row covers REG_WRITE too (DESIGN CHOICE, log entry 16). -/
def execWrite (f : Flit) (s : State) : Out :=
  let (l, s) := arriveAll s (asOp 0x02 [0x08] f)
  .next (l.foldl takeWrite s)

/-! Answers (R190, R305, R308, R317, R392). -/

/-- One reserved slot of a request released; with its last answer the request is over. -/
def releaseResp (s : State) (r : OutReq) (whole : Bool) : State :=
  if whole || r.resv ≤ 1 then closeReq s r.die r.tag
  else s.onGz fun g => { g with out := g.out.map fun x => if x.die = r.die ∧ x.tag = r.tag then { x with resv := x.resv - 1 } else x }

/-- The data of an RG_GET written where it belongs; under SCOPE = SYSTEM the command also waits for the expander (R293). -/
def landGet (s : State) (r : OutReq) (f : Flit) : State :=
  let old := s.mem.posted.map (·.tag)
  let s := writeMem s r.landDa (f.payload.take r.len)
  let new := (s.mem.posted.map (·.tag)).filter fun t => !old.contains t
  s.onQm fun q =>
    { q with waiting := q.waiting.map fun w =>
        if some (descKey w.hdr) == r.key && w.hdr.system then { w with tags := w.tags ++ new.map postWait } else w }

/-- A READ_RESP at the die that asked: for a ring request it goes back over the ring. An answer without data, or marked as lost, is the
only one. -/
def takeResp (s : State) (f : Flit) : State :=
  match findReq s f.dst f.tag with
  | none => lateAnswer s f.dst f.tag
  | some r =>
    let lost := bit f.oparg 0
    let whole := lost || f.payload.isEmpty
    match ingressOf s f.dst f.tag with
    | some g => if whole || r.resv ≤ 1 then answerIngress s g f else sendBack (releaseResp s r false) g.die g f
    | none =>
      let s := if r.kind = rkGet && !whole then landGet s r f else s
      let s := releaseResp s r (whole || r.kind == rkGet)
      if whole || r.kind = rkGet || r.resv ≤ 1 then answered s (reqWait r.die r.tag) (if lost then stEcc else stDone) false else s

/-- READ_RESP, R305. -/
def execReadResp (f : Flit) (s : State) : Out :=
  .next (match arrive s (asOp 0x04 [] f) with
    | (some g, s) => takeResp s g
    | (none, s) => s)

/-- No BASE_END waits in the send logs, every Muslin die has closed step n, and the END(n) of none waits: the twin holds END(n) from every die
after BASE_END from every die (R398; DEDUCED, log entry 35). -/
def endReceived (s : State) (n : Nat) : Bool :=
  (s.twin.sendLog.all fun x => x.1 != jBaseEnd && !(x.1 == jEnd && x.2.step == n)) && (musUp s).all fun k => match look s.mu.closedStep k with | some c => decide (n ≤ c) | none => false

/-- The twin acknowledges a journal record: its log space is free; with the last END of a step that the reverse copy was waiting for, this
direction is ready (R392, R397; DEDUCED, log entry 35). -/
def takeJournalAck (s : State) (r : OutReq) : State :=
  let mine (x : Nat × JRec) : Bool := x.2.muslin == r.index && x.2.jseq == r.landDa
  let ended := (s.twin.sendLog.filter fun x => mine x && x.1 == jEnd).map (·.2.step)
  let s := s.onTwin fun t => { t with sendLog := t.sendLog.filter (fun x => !mine x), acked := put t.acked r.index r.landDa }
  let isEnd := ended.any (endReceived s)
  let s := pumpJournal s
  if isEnd && (s.twin.st = tsBase || s.twin.st = tsReturning) then pairCheck (s.onTwin fun t => { t with txReady := true }) else s

/-- The bytes of a remote stream that a WRITE carried are acknowledged: at each whole chunk of those without a gap, FILL is written to the
consumer (R259). -/
def ackStrm (s : State) (r : OutReq) (stream : Nat) (f : Flit) : State :=
  let k := rcKey r.dev stream
  let old := lookD s.rings.filled k (0, [])
  let new := absorb (old.2.length + 1) old.1 ((r.landDa, r.landDa + r.len) :: old.2)
  let s := s.onRings fun g => { g with filled := put g.filled k new }
  let c := rcChunk r.dev stream
  let die := if r.kind = rkMcast then r.index else dieOfAddr f.da
  if old.1 / c < new.1 / c then sendStrmReg s r.dev die stream (leBytes 8 (new.1 / c * c)) else s

/-- What else follows when a request of this die is acknowledged. -/
def afterAck (s : State) (r : OutReq) (f : Flit) : State :=
  let s := match r.strm with | some n => ackStrm s r n f | none => s
  if r.kind = rkJournal then takeJournalAck s r else if r.kind = rkMcast then takeMcAck s r else s

/-- A WRITE_ACK at the die that asked. -/
def takeAck (s : State) (f : Flit) : State :=
  if f.mgroup != 0 then takeAcked s f
  else match findReq s f.dst f.tag with
    | none => lateAnswer s f.dst f.tag
    | some r =>
      match ingressOf s f.dst f.tag with
      | some g => answerIngress s g f
      | none =>
        let s := afterAck (endStore (closeReq s r.die r.tag) r.die r.tag) r f
        answered s (reqWait r.die r.tag) stDone (r.kind == rkAdd && bit f.oparg 0)

/-- WRITE_ACK, R190. -/
def execWriteAck (f : Flit) (s : State) : Out :=
  .next (match arrive s (asOp 0x05 [] f) with
    | (some g, s) => takeAck s g
    | (none, s) => s)

/-- A REG_RESP at the die that asked. -/
def takeRegResp (s : State) (f : Flit) : State :=
  match findReq s f.dst f.tag with
  | none => lateAnswer s f.dst f.tag
  | some r => answered (closeReq s r.die r.tag) (reqWait r.die r.tag) stDone false

/-- REG_RESP, R305: it ends the register request under its TAG. -/
def execRegResp (f : Flit) (s : State) : Out :=
  .next (match arrive s (asOp 0x09 [] f) with
    | (some g, s) => takeRegResp s g
    | (none, s) => s)

/-! Background traffic (R36, R37, R73). -/

/-- A TC4 flit's payload written where its DA lies, when the die serves it (DESIGN CHOICE, log entry 16). -/
def landBackground (s : State) (f : Flit) : State :=
  match memPlace s f.dst f.da f.payload.length with
  | .mem => writeMem s f.da f.payload
  | _ => s

/-- A Sounding record in bytes: the identity of R72, then the 8-byte words of its body. -/
def soundingBytes (x : Sounding) : List Byte :=
  leBytes 8 (packBits [(x.step % 2 ^ 40, 0), (x.die % 64, 40), (x.unit % 64, 48), (x.kind % 256, 56)])
  ++ leBytes 8 (packBits [(x.seq % 2 ^ 32, 0), (x.datum % 2 ^ 32, 32)]) ++ x.body.flatMap (leBytes 8)

/-- A TC4 message that its die sends, where it is delivered. -/
def landTc4 (s : State) (f : Flit) : State :=
  match arrive s f with
  | (some g, s) => landBackground s g
  | (none, s) => s

/-- The oldest record that a die buffers leaves as the message f. -/
def sendSounding (s : State) (f : Flit) : State :=
  match s.sounds.find? fun x => x.die == f.src with
  | some x => landTc4 (s.onSounds fun l => l.erase x) { f with plen := (soundingBytes x).length, payload := soundingBytes x }
  | none => s

/-- SOUNDING, R73: the oldest record of its die leaves its buffer, or one on its way goes on, and lands in its holding. -/
def execSounding (f : Flit) (s : State) : Out :=
  let f := asOp 0x0B [] f
  .next (if s.gz.flits.contains f then landTc4 s f else sendSounding s f)

/-- BACKGROUND_MOVE, R36. -/
def execBackgroundMove (f : Flit) (s : State) : Out := .next (landTc4 s (asOp 0x0C [] f))

/-! Links (R29, R32, R33, R303). -/

/-- CREDIT, R303: n credits of a class returned to port p of a die. -/
def execCredit (die port tc n : Nat) (s : State) : Out :=
  .next (if !portUp s die port || 4 < tc then s else returnCredits s die port tc n)

/-- The injection armed for a die's port 0 (R433 kind 3) is spent. -/
def spendInjection (s : State) (d : Nat) : State := s.onSv fun v => { v with armedInj := v.armedInj.erase (3, d) }

/-- FLIT_CRC_ERROR, R33, for a flit that port p of a die sent: the port replays it and counts; the sixteenth replay in a row that fails
leaves the port FAILED (DESIGN CHOICE, log entry 38). -/
def execFlitCrcError (die port : Nat) (again : Bool) (s : State) : Out :=
  .next (if !portUp s die port then s
    else
      let k := die * 16 + port
      let n := if again then look0 s.gz.replays k + 1 else 0
      let s := if port = 0 then spendInjection s die else s
      let s := (bump s die 0x1028).onGz fun g => { g with replays := put g.replays k n }
      if 16 ≤ n then failPort (s.onGz fun g => { g with replays := del g.replays k }) die port else s)

/-- LANE_REPAIR, R29: one spare lane of the link used up. -/
def execLaneRepair (die port : Nat) (s : State) : Out :=
  .next (if portUp s die port then
      s.onPkg fun p => { p with laneRepairs := put p.laneRepairs (die * 16 + port) (look0 p.laneRepairs (die * 16 + port) + 1) }
    else s)

/-- LANE_REPAIR_EXHAUSTED, R32: the link goes on at half rate. With its second module gone it is FAILED (DESIGN CHOICE, log entry 38). -/
def execLaneRepairExhausted (die port : Nat) (s : State) : Out :=
  .next (if portState s die port = 3 then setSticky (legendUpdate (setLink s die port 4)) (srcLink die)
    else if portState s die port = 4 then failPort s die port
    else s)

end Sys2Proof.Machine
end

