-- ==== Sys2Proof/Machine/Events.lean ====
section
/-!
DEFINITION. Clock and Datum events (R56 to R63), and what Selvage does on faults, reports and expiries (R124, R415 to R428).
-/

namespace Sys2Proof.Machine

/-! Clocks and Datum (R56, R58, R63). -/

/-- A Datum driven on this edge: the count it carries is one more (R57, R60). -/
def driveDatum (s : State) : State :=
  s.onCk fun c =>
    if c.pending = 0 then c
    else { c with pending := c.pending - 1, sent := (c.sent + 1) % 2 ^ 32, driven := some ((c.sent + 1) % 2 ^ 32) }

/-- DATUM_EDGE, R58: a grid edge. A Datum driven before is sampled; on any other edge the next one waiting is driven, and a die that sees
a change of DSTB stops counting (R63). -/
def execDatumEdge (bad : List Nat) (s : State) : Out :=
  .next (match s.ck.driven with
    | some n => datumSampled s bad n
    | none => driveDatum ((datumDies.filter bad.contains).foldl (fun s d => sampleDatum s true 0 d) s))

/-- PLL_LOSS_OF_LOCK, R56: the die leaves the grid, its panels fault (R124), and Selvage fences it and reclaims (R424). SV has no root
PLL (DEDUCED, log entry 40). -/
def execPllLossOfLock (die : Nat) (s : State) : Out :=
  .next (if die = 1 || !dieUp s die then s
    else
      let s := s.onCk fun c => { c with locked := c.locked.erase die, grid := c.grid.erase die }
      let s := faultDiePanels (setSticky (bump s die 0x4028) (srcClock die)) die
      triggerReclaim s { party := ⟨die, 15⟩, kind := 7 })

/-! Faults and reports (R68, R124, R125, R415, R424, R426). An MU_OPT_DENSE that one of them ends has done a part of its work (R240). -/

/-- DEADLINE_EXPIRY, R68. -/
def execDeadlineExpiry (queue index : Nat) (s : State) : Out :=
  .next (match s.qm.disp.find? fun d => d.hdr.queue == queue && d.hdr.index == index with
    | some d =>
      if d.hdr.deadline = 0 then s
      else
        let s := cutDenses s fun x => sameDesc x.hdr d.hdr
        endEarly (countExpiry s d.unit (dispSource s d)) d stDeadline
    | none => s)

/-- PANEL_FAULT, R125. -/
def execPanelFault (core : Nat) (s : State) : Out :=
  .next (if core < 64 && dieUp s (coreDie core) then
      panelFaultAt (cutDenses s fun d => panelOfQueue s d.hdr.queue == panelOfCore s core && (panelOfCore s core).isSome) core
    else s)

/-- A party that Selvage can fence: a unit or die of the package that is present, SV apart (R425). -/
def isParty (s : State) (u : UnitId) : Bool := dieUp s u.die && u.die != 1 && u.unit < 16

/-- UNIT_ERROR, R424: fence, and reclaim with reset (DEDUCED, log entry 39). -/
def execUnitError (party : UnitId) (s : State) : Out :=
  .next (if isParty s party then triggerReclaim (setSticky s (srcOfUnit party)) { party := party, kind := 7, reset := true } else s)

/-- LEASE_EXPIRY, R426: kinds 0 to 3; a PANEL lease never expires. -/
def execLeaseExpiry (kind : Nat) (holder : UnitId) (s : State) : Out :=
  .next (if kind ≤ 3 && isParty s holder then triggerReclaim (setSticky s (srcOfUnit holder)) { party := holder, kind := kind } else s)

/-- MGMT_PARITY_FAILURE, R415: the die is treated as a party that does not answer (DEDUCED, log entry 39). -/
def execMgmtParityFailure (die : Nat) (s : State) : Out :=
  .next (if !fitted s.pkg.variant die then s
    else
      let s := setSticky s srcMgmt
      if isParty s ⟨die, 15⟩ then triggerReclaim s { party := ⟨die, 15⟩, kind := 7, reset := true } else s)

/-! Reclaims (R427, R428). -/

/-- The reclaim that runs ends in the party's reset (R427 step 6b) (DEDUCED, log entry 39). -/
def reclaimByReset (s : State) (u : UnitId) : State := endReclaim (bump (resetParty s u) 1 0x10060) u

/-- RELEASED, R427 step 6a: FREE, and a unit's fence lifted. An injection may suppress it (R433). -/
def execReleased (party : UnitId) (s : State) : Out :=
  .next (match s.sv.reclaim with
    | none => s
    | some r =>
      if r.party != party then s
      else if s.sv.suppress.contains party.die then s.onSv fun v => { v with suppress := v.suppress.erase party.die }
      else if r.reset then reclaimByReset s party
      else endReclaim (liftFence s party) party)

/-- RECLAIM_TIMEOUT, R427 step 6b. -/
def execReclaimTimeout (s : State) : Out :=
  .next (match s.sv.reclaim with
    | none => s
    | some r => reclaimByReset (setSticky s srcReclaim) r.party)

/-- FREE, R428: the broadcast reaches the grantors. -/
def execFree (party : UnitId) (s : State) : Out :=
  .next (if s.sv.freeing.contains party then freeLeases (s.onSv fun v => { v with freeing := v.freeing.erase party }) party else s)

/-! Sticky bits (R420, R422). -/

/-- QUIET_PERIOD_EXPIRY, R420: every bit clears, and the fault state is left. -/
def execQuietPeriodExpiry (s : State) : Out := .next (clearSticky s s.sv.sticky)

/-- SVCLK_CHECK_FAILURE, R422: the fault state is locked until a cold reset. -/
def execSvclkCheckFailure (s : State) : Out := .next ((setSticky s srcSvclk).onSv fun v => { v with locked := true })

end Sys2Proof.Machine
end

