-- ==== Sys2Proof/Machine/Host.lean ====
section
/-!
DEFINITION. Host accesses over CXL.mem and BAR0 (R350 to R352), the loads, stores and fences of the CMD cores (R274, R341), the host link
(R358, R497) and the far-tier ports (R293, R357).
-/

namespace Sys2Proof.Machine

/-! Host accesses (R351, R352). -/

/-- HL.BAD_ACCESS_CNT. -/
def badAccess (s : State) : State := bump s 0 0x50010

/-- What the host gets back. -/
def hostReply (s : State) (bs : List Byte) (poison : Bool) : State := s.onHost fun h => { h with reply := bs, replyPoisoned := poison }

/-- n free bytes. -/
def freeBytes (s : State) (n : Nat) : List Byte := leBytes n (fresh s)

/-- Register space read in order: n bytes from a DA. -/
def readRegSpace (s : State) (da n : Nat) : List Byte :=
  (List.range n).flatMap fun i => readRegBytes s ((da + i) % regBase / 2 ^ 32) ((da + i) % 2 ^ 32) 1

/-- Bytes of memory as the port's host channel reads them: in Far it may pass posted writes (R293), a free choice (DESIGN CHOICE, log entry 41). -/
def hostBytes (s : State) (da n : Nat) : List Byte :=
  if farBase ≤ da && fresh s % 2 == 0 then (List.range n).map fun i => cellByte s.mem (da + i) else viewBytes s da n

/-- A read by the host of n bytes at a DA (R351). Data lost in memory is marked poisoned; its bytes are then not stated: free values. -/
def hostReadDa (s : State) (da n : Nat) : State :=
  if inRegSpace da && da + n ≤ regTop then hostReply s (readRegSpace s da n) false
  else match r21 s [(da, n)] with
    | some _ => hostReply (badAccess s) (List.replicate n 0) true
    | none =>
      let (lost, s) := checkRead s da n
      if lost then hostReply s.took (freeBytes s n) true else hostReply s.took (hostBytes s da n) false

/-- The 8-byte groups of a register-space write: whole ones are written, partial ones counted; n groups from group g on. -/
def hostWriteRegs (da : Nat) (bs : List Byte) : Nat → Nat → State → State
  | 0, _, s => s
  | n + 1, g, s =>
    let s := if da ≤ g && g + 8 ≤ da + bs.length then
        writeReg s (g % regBase / 2 ^ 32) (g % 2 ^ 32) .host (ofLe ((bs.drop (g - da)).take 8))
      else badAccess s
    hostWriteRegs da bs n (g + 8) s

/-- A write by the host over the port's host channel, past any posted write; lost while the link is down. -/
def hostWriteFar (s : State) (da : Nat) (bs : List Byte) : State :=
  let p := farPortOf da
  if (lookD s.pkg.far p {}).link = 0 then postFar s da bs else storeMem s da bs

/-- A write by the host at a DA (R351). -/
def hostWriteDa (s : State) (da : Nat) (bs : List Byte) : State :=
  let n := bs.length
  if inRegSpace da && da + n ≤ regTop then hostWriteRegs da bs ((da + n + 7) / 8 - da / 8) (da / 8 * 8) s
  else if (r21 s [(da, n)]).isSome || meets (da, n) (fwArea, gib) then badAccess s
  else if inFar da then hostWriteFar s da bs
  else writeWords (storeMem s da bs) da bs

/-- Where a BAR0 offset leads. -/
inductive BarPlace where
  | reg (die off : Nat)
  | mem (da : Nat)
  | outside
  deriving DecidableEq, Repr

def barPlace (s : State) (addr : Nat) : BarPlace :=
  let ap := regGet s 0 0x50008
  if addr < 0x1000000 then .reg 0 addr
  else if addr < 0x2000000 then .reg (bits ap 5 0) (addr % 0x1000000)
  else if addr < 0x4000000 then .mem (2 ^ 25 * bits ap 47 25 + addr % 0x2000000)
  else .outside

/-- An access that BAR0's memory window accepts. -/
def barMemOk (addr n : Nat) : Bool := n ≤ 64 && addr % 64 + n ≤ 64

/-- The host link carries transactions: it is up, and firmware has presented it. -/
def hostUp (s : State) : Bool := s.host.link != 0 && s.host.presented

/-- HOST_READ, R351, R352. A CXL.mem access shows that the host has committed the decoder. A register read that BAR0 does not accept is
counted; what it returns is not stated: free values (DESIGN CHOICE, log entry 41). -/
def execHostRead (bar : Bool) (addr len : Nat) (s : State) : Out :=
  .next (if !hostUp s || len = 0 then s
    else if !bar then hostReadDa (s.onHost fun h => { h with hdm := true }) addr len
    else match barPlace s addr with
      | .reg d off =>
        if (len = 8 || len = 4) && off % len = 0 then hostReply s (readRegBytes s d off len) false
        else hostReply (badAccess s).took (freeBytes s len) false
      | .mem da => if barMemOk addr len then hostReadDa s da len else hostReply (badAccess s).took (freeBytes s len) false
      | .outside => s)

/-- HOST_WRITE, R351, R352. -/
def execHostWrite (bar : Bool) (addr : Nat) (data : List Byte) (s : State) : Out :=
  .next (if !hostUp s || data.isEmpty then s
    else if !bar then hostWriteDa (s.onHost fun h => { h with hdm := true }) addr data
    else match barPlace s addr with
      | .reg d off => if data.length = 8 && off % 8 = 0 then writeReg s d off .host (ofLe data) else badAccess s
      | .mem da => if barMemOk addr data.length then hostWriteDa s da data else badAccess s
      | .outside => s)

/-! CMD cores (R274, R341). -/

/-- A FIRMWARE queue's ring memory, and the doorbells of FIRMWARE queues. -/
def firmwareRings (s : State) : List Range :=
  (((sect s 0x0B).filter fun r => fld r 2 != 1) ++ (queueRec s 0).toList).map fun r => (fld r 6, 256 * queueSize r)
def firmwareBell (s : State) (da : Nat) : Bool :=
  regBase + 0x100000 ≤ da && da < regBase + 0x140000 &&
    (let q := da % 0x100000 / 8
     q = 0 || ((queueRec s q).isSome && (panelOfQueue s q).isNone))

/-- U-mode code may not make the access (R341). -/
def userFault (s : State) (da n : Nat) (store : Bool) : Bool :=
  (store && meets (da, n) (fwArea, gib))
  || (!(inRegSpace da && da + n ≤ regTop) && (r21 s [(da, n)]).isSome)
  || (firmwareRings s).any (meets (da, n)) || firmwareBell s da

/-- An access of a core: 1 to 8 bytes, naturally aligned. -/
def coreAccess (core da n : Nat) : Bool := core < 48 && (n = 1 || n = 2 || n = 4 || n = 8) && da % n = 0

def coreAnswer (s : State) (core : Nat) (bs : List Byte) (fault : Bool) : State :=
  s.onCores fun c => { c with reply := { core := core, data := bs, fault := fault } }

/-- CORE_LOAD, R341. What a load of a DA that is not valid returns in M-mode or S-mode, or one of lost data, is not stated: free
values (DESIGN CHOICE, log entry 42). -/
def execCoreLoad (core : Nat) (agent : Agent) (da len : Nat) (s : State) : Out :=
  .next (if !coreAccess core da len then s
    else if agent = .uMode && userFault s da len false then coreAnswer s core [] true
    else if inRegSpace da then coreAnswer s core (readRegSpace s da len) false
    else if (r21 s [(da, len)]).isSome then coreAnswer s.took core (freeBytes s len) false
    else
      let (lost, s) := checkRead s da len
      if lost then coreAnswer s.took core (freeBytes s len) false else coreAnswer s core (viewBytes s da len) false)

/-- The store leaves the core as a WRITE to the die that serves its DA (DESIGN CHOICE, log entry 42). -/
def sendStore (s : State) (core da : Nat) (bs : List Byte) : State :=
  let t := newTag s 0
  let d := dieOfAddr da
  let r : OutReq := { die := 0, tag := t, dst := d, kind := rkWrite, resv := 1, flits := 1, far := inFar da }
  if !reqRoom s r then s
  else
    let s := (openReq s r).onCores fun c => { c with stores := c.stores ++ [(core, t)], reply := { core := core, data := [], fault := false } }
    sendFlit s { op := 0x02, tc := 2, dst := d, src := 0, tag := t, da := da, plen := bs.length, payload := bs }

/-- CORE_STORE, R341. A register is written as one unit of 8 bytes (R508). -/
def execCoreStore (core : Nat) (agent : Agent) (da : Nat) (data : List Byte) (s : State) : Out :=
  .next (if !coreAccess core da data.length then s
    else if agent = .uMode && userFault s da data.length true then coreAnswer s core [] true
    else if inRegSpace da then
      coreAnswer (if data.length = 8 then writeReg s (da % regBase / 2 ^ 32) (da % 2 ^ 32) agent (ofLe data) else s) core [] false
    else sendStore s core da data)

/-- CORE_FENCE, R274, R341: it retires once every earlier store of the core has its WRITE_ACK. -/
def execCoreFence (core : Nat) (s : State) : Out :=
  .next (if core < 48 && !s.cores.stores.any (·.1 == core) then s.onCores fun c => { c with fences := c.fences ++ [core] } else s)

/-! The host link (R358, R497, R510). -/

/-- HOST_LINK as the last start of CMD firmware read it: the link is held in reset, its lanes idle. -/
def hostHeld (s : State) : Bool := !s.host.presented

/-- The registers of domain H return to their reset values; what the link carried is lost. -/
def clearHost (s : State) : State :=
  (s.onHost fun h => { h with link := 0, hdm := false, busy := false, done := false, lo := 0, hi := 0, mboxIdx := none }).onRegs fun m =>
    keep (fun k _ => !(k = 0x50008 || k = 0x50040 || (0x50100 ≤ k && k ≤ 0x501F8))) m

/-- The link trains while HL_PERST_N is high: to what width is a free value (DESIGN CHOICE, log entry 41). -/
def trainHost (s : State) : State :=
  if hostHeld s || !s.host.perstN || s.host.link != 0 then s else s.took.onHost fun h => { h with link := 1 + fresh s % 2 }

/-- HOST_LINK_RESET, R358: a reset or a loss of the link. It comes back when it does: a free value. -/
def execHostLinkReset (s : State) : Out :=
  .next (if s.host.link = 0 then s
    else
      let s := clearHost (bump s 0 0x50018)
      if fresh s % 2 = 0 then s.took else trainHost s.took)

/-- HL_PERST_N, R497: no effect while the link is held in reset by HOST_LINK = 1, but the level is there to see. -/
def execHlPerstN (high : Bool) (s : State) : Out :=
  .next (let fell := s.host.perstN && !high
    let s := s.onHost fun h => { h with perstN := high }
    if hostHeld s then s
    else if fell then clearHost (bump s 0 0x50018)
    else trainHost s)

/-! Far-tier ports (R293, R356, R357). -/

/-- The base of far port p's registers. -/
def fpReg (p : Nat) : Nat := 0x60000 + 0x100 * p

/-- A posted write by its port and tag. -/
def findPosted (s : State) (p t : Nat) : Option Posted := s.mem.posted.find? fun x => x.port == p && x.tag == t

/-- Writes that stand before one in its port's queue. -/
def earlierPosted (s : State) (p : Posted) : List Posted := s.mem.posted.takeWhile fun x => x != p

/-- A posted write leaves its queue. -/
def dropPosted (s : State) (p : Posted) : State := s.onMem fun m => { m with posted := m.posted.erase p }

/-- CXL_MEM_COMPLETION, R293: the expander holds the write. Writes to one place complete in the order they were accepted (DEDUCED, log entry 43). -/
def execCxlMemCompletion (port tag : Nat) (s : State) : Out :=
  .next (match findPosted s port tag with
    | none => s
    | some p =>
      if (earlierPosted s p).any fun x => x.port == port && meets (x.da, x.data.length) (p.da, p.data.length) then s
      else answered (storeMem (dropPosted s p) p.da p.data) (postWait tag) stDone false)

/-- A posted write is lost (R357): a command or FENCE that waits for it ends DONE_PARTIAL (DEDUCED, log entry 60). -/
def losePosted (s : State) (p : Posted) : State :=
  answered (setSticky (bump (dropPosted s p) 0 (fpReg p.port + 0x18)) (srcFar p.port)) (postWait p.tag) stPartial false

/-- FAR_CPL_TIMEOUT, R357: of a posted write, or of a read, whose answer is then lost data (DEDUCED, log entry 43). -/
def execFarCplTimeout (port tag : Nat) (s : State) : Out :=
  .next (if 4 ≤ port || (lookD s.pkg.far port {}).link = 0 then s
    else
      let s := setSticky (bump s 0 (fpReg port + 0x10)) (srcFar port)
      match findPosted s port tag with
      | some p => losePosted s p
      | none => s.onMem fun m => { m with farLate := ins m.farLate port })

/-- A far port's link state in the Legend. -/
def setFar (s : State) (p : Nat) (f : FarPort → FarPort) : State :=
  legendUpdate (s.onPkg fun k => { k with far := put k.far p (f (lookD k.far p {})) })

/-- FAR_LINK_LOSS, R357: what the port held is lost; EXPANDERS and INSTALLED_GIB stay. -/
def execFarLinkLoss (port : Nat) (s : State) : Out :=
  .next (if 4 ≤ port || (lookD s.pkg.far port {}).link = 0 then s
    else
      let s := setFar s port fun f => { f with link := 0, rate := 0 }
      (s.mem.posted.filter fun p => p.port == port).foldl losePosted s)

/-- FAR_RETRAIN, R357: the port resumes with the capacity it had; one that has never come up takes what it finds (R494) (DEDUCED, log entry 43). -/
def execFarRetrain (port link expanders gib : Nat) (s : State) : Out :=
  .next (let f := lookD s.pkg.far port {}
    if 4 ≤ port || f.link != 0 || link = 0 || 2 < link || 8 < expanders || 4096 < gib then s
    else if f.gib = gib || (f.gib = 0 && f.expanders = 0) then
      (setFar s port fun f => { f with link := link, rate := 1 + fresh s % 2, expanders := expanders, gib := gib }).took
    else s)

end Sys2Proof.Machine
end

