-- ==== Sys2Proof/Machine/Mgmt.lean ====
section
/-!
DEFINITION. The management bus: the I3C target that Selvage serves (R499 to R502).
-/

namespace Sys2Proof.Machine

/-- The target answers from step 2 of a cold bring-up on. -/
def i3cUp (s : State) : Bool := 2 ≤ s.sv.phase

/-- The target has a dynamic address, by which private transfers and directed common commands reach it. -/
def i3cReached (s : State) : Bool := i3cUp s && s.i3c.dynValid

def i3cReply (s : State) (bs : List Byte) : State := s.onI3c fun c => { c with reply := bs }

/-- The static address. -/
def staticAddr (s : State) : Nat := 0x30 + b2n s.pkg.pairId

/-- PRIVATE_WRITE, R500: exactly 4 bytes set the read pointer. -/
def execPrivateWrite (data : List Byte) (s : State) : Out :=
  .next (if i3cReached s && data.length = 4 then s.onI3c fun c => { c with pointer := ofLe data } else s)

/-- PRIVATE_READ, R500. -/
def execPrivateRead (s : State) : Out :=
  .next (if !i3cReached s then s
    else
      let p := s.i3c.pointer
      let v := if p % 8 = 0 && 0x10000 ≤ p && p ≤ 0x14FFF then readReg s 1 p else 0
      (i3cReply s (leBytes 8 v)).onI3c fun c => { c with pointer := (p + 8) % 2 ^ 32 })

/-- A dynamic address taken. -/
def takeAddr (s : State) (dyn : Nat) : State := s.onI3c fun c => { c with dyn := dyn, dynValid := true }

/-- ENTDAA, R499: it assigns an address to a target that has none. -/
def execEntdaa (dyn : Nat) (s : State) : Out :=
  .next (if i3cUp s && !s.i3c.dynValid && dyn < 128 then takeAddr s dyn else s)

/-- SETDASA, R499: by the static address. -/
def execSetdasa (static dyn : Nat) (s : State) : Out :=
  .next (if i3cUp s && !s.i3c.dynValid && static = staticAddr s && dyn < 128 then takeAddr s dyn else s)

/-- RSTDAA, R499 (PRESUMED, log entry 44). -/
def execRstdaa (s : State) : Out := .next (if i3cUp s then s.onI3c fun c => { c with dyn := 0, dynValid := false } else s)

/-- The Provisional ID (R499): the manufacturer's ID is not printed, a free value (PRESUMED, log entry 44). -/
def provisionalId (s : State) : Nat :=
  2 ^ 33 * (Config.freeValue (2 ^ 72) % 2 ^ 15) + 2 ^ 16 * 0x0940 + 2 ^ 12 * variantCode s.pkg.variant + b2n s.pkg.pairId

/-- GETPID, R499: six bytes, the highest first (PRESUMED, log entry 44). -/
def execGetpid (s : State) : Out := .next (if i3cReached s then i3cReply s (leBytes 6 (provisionalId s)).reverse else s)

/-- GETBCR, R499: in-band interrupts with a data byte, a target, no speed limit; bits 5 to 3 are not stated. -/
def execGetbcr (s : State) : Out :=
  .next (if i3cReached s then i3cReply s (leBytes 1 (6 + 8 * (Config.freeValue (2 ^ 72 + 1) % 8))) else s)

/-- GETDCR, R499: the code is not printed, a free value (PRESUMED, log entry 44). -/
def execGetdcr (s : State) : Out := .next (if i3cReached s then i3cReply s (leBytes 1 (Config.freeValue (2 ^ 72 + 2))) else s)

/-- GETSTATUS, R499: its two bytes are not stated, free values (PRESUMED, log entry 44). -/
def execGetstatus (s : State) : Out := .next (if i3cReached s then i3cReply s.took (leBytes 2 (fresh s)) else s)

/-- ENEC, R501. -/
def execEnec (ibi : Bool) (s : State) : Out := .next (if i3cUp s && ibi then s.onI3c fun c => { c with ibiEn := true } else s)

/-- DISEC, R501. -/
def execDisec (ibi : Bool) (s : State) : Out := .next (if i3cUp s && ibi then s.onI3c fun c => { c with ibiEn := false } else s)

/-- IN_BAND_INTERRUPT_ACCEPTED, R501. -/
def execInBandInterruptAccepted (byte : Nat) (s : State) : Out :=
  .next (s.onI3c fun c => { c with pendingIbi := c.pendingIbi.erase byte })

end Sys2Proof.Machine
end

