-- ==== Sys2Proof/Machine/Power.lean ====
section
/-!
DEFINITION. Power and cooling (R461 to R475): power reports, the emergency duty, Contour, thermal throttling, shutdowns, and the hold-up
bank.
-/

namespace Sys2Proof.Machine

/-! Power reports and the cap (R461, R462). -/

/-- The average of the newest n sums; 0 before any report. -/
def powerAvg (l : List Nat) (n : Nat) : Nat := let m := l.take n; m.sum / max 1 m.length

/-- POWER_REPORT, R461: one 4 µs sum, formed by CMD and by Selvage. -/
def execPowerReport (reports : List Nat) (s : State) : Out :=
  .next (if !s.sv.on then s
    else
      let p := reports.sum
      (s.onCt fun c => { c with p := p, samples := c.samples ++ [p] }).onSv fun v =>
        { v with pSum := (p :: v.pSum).take 500, pSv := powerAvg (p :: v.pSum) 25 })

/-- The 100 µs average stands above PCAP. -/
def overCap (v : Selvage) : Bool := 25 ≤ v.pSum.length && 25 * v.pcap < (v.pSum.take 25).sum

/-- The 1 ms average has stayed below 0.95 × PCAP for 1 ms. -/
def belowCap (v : Selvage) : Bool :=
  500 ≤ v.pSum.length && (List.range 250).all fun k => decide (100 * ((v.pSum.drop k).take 250).sum < 95 * 250 * v.pcap)

/-- EMERGENCY, R462. -/
def execEmergency (s : State) : Out :=
  .next (if overCap s.sv && !s.sv.emergency then (setSticky s srcPower).onSv fun v => { v with emergency := true } else s)

/-- EMERGENCY_LIFT, R462. -/
def execEmergencyLift (s : State) : Out :=
  .next (if s.sv.emergency && belowCap s.sv then s.onSv fun v => { v with emergency := false } else s)

/-! Contour (R463 to R469). -/

/-- Cores that may run ballast (R127), on dies that are not throttled (R471). -/
def ballastCores (s : State) : List Nat :=
  (List.range 64).filter fun g =>
    dieUp s (coreDie g) && !s.sv.throttled.contains (coreDie g) && !(coreOf s g).fenced
    && !s.qm.disp.any fun d => d.unit == coreUnit g && (panelOfCore s g).isSome

/-- Ballast now, in mW: 1.6 W a level. -/
def ballastMw (s : State) : Nat := 1600 * (s.tw.cores.map fun c => c.2.ballast).sum
/-- Scrub advance now, in mW: up to 6 W a Muslin die. -/
def scrubMw (s : State) : Nat := if s.ct.scrubAdv then 6000 * (musUp s).length else 0
/-- What the package would draw without the fill. -/
def foreground (s : State) : Nat := 1000 * s.ct.p - ballastMw s - scrubMw s

/-- Contour's duty in sixteenths. -/
def ctDuty (c : Contour) : Nat := if c.duty = 0 then 16 else c.duty

/-- x moved toward y by at most n. -/
def toward (x y n : Nat) : Nat := if x < y then min y (x + n) else max y (x - n)

/-- The target of the next interval (R467): SLEW mW per µs along the ramp. -/
def nextTarget (s : State) : Nat :=
  let c := s.ct
  let n := 4 * c.slew
  if c.mode = 1 then
    -- growth that is gated shows only as a duty below 16
    (if ctDuty c < 16 then c.target + n else toward c.target (foreground s) n)
  else toward c.target (1000 * c.setpoint) n

/-- Level steps of ballast for a gap: the total nearest to it, ties to the lower (R465), at most 15 a core. -/
def ballastSteps (gap cores : Nat) : Nat := min (15 * cores) ((gap + 799) / 1600)

/-- The levels put on the eligible cores: L, or L + 1 on the first ones; every other core has none (DESIGN CHOICE, log entry 46). -/
def setBallast (s : State) (steps : Nat) : State :=
  let l := ballastCores s
  let n := max 1 l.length
  let s := (s.tw.cores.filter fun c => c.2.ballast != 0 && !l.contains c.1).foldl (fun s c => setCore s c.1 fun x => { x with ballast := 0 }) s
  ((List.range l.length).zip l).foldl (fun s q =>
    let lv := steps / n + b2n (q.1 < steps % n)
    if lv = 0 && (coreOf s q.2).ballast = 0 then s
    else
      -- the ballast cycles of the interval are a free value (DESIGN CHOICE, log entry 2)
      let s := if lv = 0 then s else bumpCore s.took q.2 0x30 (fresh s % 2 ^ 16)
      setCore s q.2 fun x => { x with ballast := lv }) s

/-- Fill and gating withdrawn: MODE = OFF. -/
def contourOff (s : State) : State := (setBallast s 0).onCt fun c => { c with duty := 0, scrubAdv := false, target := 0 }

/-- CONTOUR_INTERVAL, R465 and R466: below the target scrub advance, then ballast; above it gating, by one sixteenth. Whether a duty below
16 rises while P lies below the target is a free choice (DESIGN CHOICE, log entry 46). -/
def execContourInterval (s : State) : Out :=
  .next (if !s.sv.on then s
    else if s.ct.mode = 0 || s.ct.mode = 3 then contourOff s
    else
      let t := nextTarget s
      let fg := foreground s
      let d := ctDuty s.ct
      if fg ≤ t then
        let gap := t - fg
        let adv := gap != 0
        let scrub := if adv then 6000 * (musUp s).length else 0
        let d := if d < 16 && gap != 0 then d + fresh s % 2 else d
        setBallast (s.took.onCt fun c => { c with target := t, scrubAdv := adv, duty := d % 16 })
          (ballastSteps (gap - scrub) (ballastCores s).length)
      else setBallast (s.onCt fun c => { c with target := t, scrubAdv := false, duty := (max 4 (d - 1)) % 16 }) 0)

/-- The fill is exhausted. -/
def fillSpent (s : State) : Bool := s.ct.scrubAdv && (ballastCores s).all fun g => (coreOf s g).ballast == 15

/-- CONTOUR_WINDOW, R464: the 1 ms average, and in HOLD whether it lies within SETPOINT ± 2 %. -/
def execContourWindow (s : State) : Out :=
  .next (if !s.sv.on || s.ct.samples.isEmpty then s
    else
      let l := s.ct.samples
      let avg := l.sum / l.length
      let low := s.ct.mode = 2 && 100 * avg < 98 * s.ct.setpoint
      let high := s.ct.mode = 2 && 102 * s.ct.setpoint < 100 * avg
      let u := low && fillSpent s
      let o := high && ctDuty s.ct = 4
      let s := s.onCt fun c =>
        { c with pAvg := avg, pMax := l.foldl max 0, samples := [], windows := c.windows + 1, underF := u, overF := o }
      if low || high then bump s 0 0xB0010 else s)

/-- The hottest die and its junction in quarter degrees; ties to the lower die. -/
def hottest (s : State) : Nat × Nat := s.sv.temps.foldl (fun x y => if x.2 < y.2 then y else x) (0, 0)

/-- CONTOUR_SOUNDING, R469. -/
def execContourSounding (s : State) : Out :=
  .next (if !s.sv.on || s.ct.soundMs = 0 || s.ct.windows < s.ct.soundMs then s
    else
      let c := s.ct
      let w0 := c.pAvg % 2 ^ 16 + 2 ^ 16 * (c.pMax % 2 ^ 16) + 2 ^ 32 * (ballastMw s / 8000 % 256) + 2 ^ 40 * (c.duty % 16)
        + 2 ^ 44 * b2n c.underF + 2 ^ 45 * b2n c.overF
      let w1 := (hottest s).2 % 2 ^ 16 + 2 ^ 16 * ((hottest s).1 % 64)
      emitSounding (s.onCt fun c => { c with windows := 0 }) 0 63 0x30 [w0, w1])

/-! Heat (R471). -/

/-- THERM_N is high: no die is throttled, and no thermal shutdown holds. -/
def thermNHigh (v : Selvage) : Bool := v.throttled.isEmpty && v.shutdown != 2

/-- The thermal duty of a die in sixteenths. -/
def thermDuty (s : State) (d : Nat) : Nat := lookD s.sv.duty d 16
/-- Quarter degrees a die last reported. -/
def temp (s : State) (d : Nat) : Nat := look0 s.sv.temps d

/-- A die becomes throttled: THERM_N falls with the first, and ballast on the die stops. -/
def throttle (s : State) (d : Nat) : State :=
  let high := thermNHigh s.sv
  let s := s.onSv fun v => { v with throttled := ins v.throttled d }
  let s := if high then raiseIbi s 2 else s
  if isTw d then (List.range 4).foldl (fun s c =>
    let g := 4 * (d - 2) + c
    if (coreOf s g).ballast = 0 then s else setCore s g fun x => { x with ballast := 0 }) s
  else s

/-- A die is no longer throttled once its duty stands at 16 and it has cooled. -/
def unthrottle (s : State) (d : Nat) : State :=
  if thermDuty s d = 16 && temp s d < 4 * (s.sv.tThrottle - 3) then s.onSv fun v => { v with throttled := v.throttled.erase d } else s

/-- THERMAL_REPORT, R471. A die that rises to 100 °C is reported in a Sounding of KIND 0x31; where it holds the die and the temperature is
not stated: as R469 does (DESIGN CHOICE, log entry 47). -/
def execThermalReport (die quarters : Nat) (s : State) : Out :=
  .next (if die = 1 || !dieUp s die then s
    else
      let old := temp s die
      let s := s.onSv fun v => { v with temps := put v.temps die quarters }
      let s := if old < 400 && 400 ≤ quarters then emitSounding s 1 63 0x31 [quarters % 2 ^ 16 + 2 ^ 16 * die] else s
      if 4 * s.sv.tThrottle ≤ quarters then throttle s die else unthrottle s die)

/-- THROTTLE_STEP, R471: 100 µs at T_THROTTLE or above lower the duty by one sixteenth, to a floor of 2 (DESIGN CHOICE, log entry 47). -/
def execThrottleStep (die : Nat) (s : State) : Out :=
  .next (if dieUp s die && s.sv.throttled.contains die && 4 * s.sv.tThrottle ≤ temp s die && 2 < thermDuty s die then
      bump (s.onSv fun v => { v with duty := put v.duty die (thermDuty s die - 1) }) 1 0x12018
    else s)

/-- THERMAL_DUTY_RISE, R471: 1 ms below T_THROTTLE − 3 °C. -/
def execThermalDutyRise (die : Nat) (s : State) : Out :=
  .next (if dieUp s die && s.sv.throttled.contains die && temp s die < 4 * (s.sv.tThrottle - 3) then
      let d := min 16 (thermDuty s die + 1)
      unthrottle (s.onSv fun v => { v with duty := if d = 16 then del v.duty die else put v.duty die d }) die
    else s)

/-! The hold-up bank (R452, R473). -/

/-- HOLDUP_OK as it is now: an update pauses when it clears, and continues when it returns. -/
def setHoldup (s : State) (ok : Bool) : State :=
  (s.onSv fun v => { v with holdupOk := ok }).onSec fun c => { c with fwPaused := if c.fwState = fwWriting then !ok else c.fwPaused }

/-- HOLDUP_MEASURE, R473. -/
def execHoldupMeasure (energyMj : Nat) (enough : Bool) (s : State) : Out :=
  .next (setHoldup (s.onSv fun v => { v with energy := energyMj % 2 ^ 16 }) (enough && !s.sv.holdupBad))

/-- HOLDUP_TEST, R473 (DESIGN CHOICE, log entry 47). -/
def execHoldupTest (pass : Bool) (s : State) : Out :=
  .next (if pass then s.onSv fun v => { v with holdupBad := false }
    else setHoldup ((setSticky s srcHoldup).onSv fun v => { v with holdupBad := true }) false)

end Sys2Proof.Machine
end

