-- ==== Sys2Proof/Machine/RegCmds.lean ====
section
/-!
DEFINITION. Register writes with a behaviour of their own, as commands (R15, R39, R45, R55, R60, R63, R217, R320, R353, R355, R409, R421,
R430, R433, R463, R477, R485).
-/

namespace Sys2Proof.Machine

/-- SWAP, R39: a write of GZ.CTL. -/
def execSwap (die : Nat) (value : Word64) (s : State) : Out := .next (if dieUp s die then writeGzCtl s die value.toNat else s)

/-- TC_CREDIT_WRITE, R45. -/
def execTcCreditWrite (die : Nat) (agent : Agent) (value : Word64) (s : State) : Out :=
  .next (if dieUp s die then writeTcCredit s die agent value.toNat else s)

/-- REJOIN, R320: a write of GZ.MC_CTL. -/
def execRejoin (die : Nat) (value : Word64) (s : State) : Out := .next (if dieUp s die then writeMcCtl s die value.toNat else s)

/-- DATUM_CTL_FIRE, R60. -/
def execDatumCtlFire (s : State) : Out := .next (if dieUp s 0 then requestDatum s else s)

/-- RESYNC, R63: a FIRE of the same write is queued after it. -/
def execResync (fire : Bool) (s : State) : Out := .next (if dieUp s 0 then writeDatumCtl s (2 + b2n fire) else s)

/-- CK_PLAN_WRITE, R55. -/
def execCkPlanWrite (die : Nat) (agent : Agent) (value : Word64) (s : State) : Out :=
  .next (if dieUp s die && die != 1 then writePlan s die agent value.toNat else s)

/-- COUNTER_CLEAR, R430: a write of zero to a counter's register. -/
def execCounterClear (die off : Nat) (s : State) : Out :=
  .next (if dieUp s die && isCounter die off then writeCounter s die off 0 else s)

/-- DIR_LOOKUP, R217: a write of MU.DIR_CTL. -/
def execDirLookup (die : Nat) (value : Word64) (s : State) : Out :=
  .next (if isMu die && dieUp s die then writeDirCtl s die value.toNat else s)

/-- FAULT_CLEAR, R421: a write of CM.FAULT_CLEAR(i). -/
def execFaultClear (i : Nat) (value : Word64) (s : State) : Out := .next (if dieUp s 0 then writeFaultClear s i value.toNat else s)

/-- PANEL_RST, R485: a write of CM.PANEL_RST. -/
def execPanelRst (value : Word64) (s : State) : Out := .next (if dieUp s 0 then writePanelRst s value.toNat else s)

/-- PER_PANEL_RESET, R485: a requested reset runs between steps and answers RESULT = 2. -/
def execPerPanelReset (panel : Nat) (s : State) : Out :=
  .next (if s.sv.panelReqs.contains panel && (s.seq.run.isNone || s.seq.phase == 0) then
      let s := (resetPanel s panel).onSv fun v => { v with panelReqs := v.panelReqs.erase panel }
      let old := regGet s 0 0xC0000
      if bits old 5 0 = panel then regSet s 0 0xC0000 (bits old 15 0 + 2 * 2 ^ 16) else s
    else s)

/-- WARM_REQ, R477: a write of CM.WARM_REQ. -/
def execWarmReq (agent : Agent) (value : Word64) (s : State) : Out := .next (if dieUp s 0 then writeWarmReq s agent value.toNat else s)

/-- MBOX_GO, R353: a write of HL.MBOX_CTL. -/
def execMboxGo (value : Word64) (s : State) : Out := .next (if dieUp s 0 then startMbox s value.toNat else s)

/-- HSTREAM_FILL, R355: a write of HL.HSTREAM_FILL. -/
def execHstreamFill (value : Word64) (s : State) : Out := .next (if dieUp s 0 then writeHstreamFill s value.toNat else s)

/-- SNAP_HOST_REL, R409: a write of TA.SNAP_HOST_REL. -/
def execSnapHostRel (value : Word64) (s : State) : Out := .next (if dieUp s 0 then writeHostRel s value.toNat else s)

/-- CT_CTL_WRITE, R463: a write of CT.CTL. -/
def execCtCtlWrite (value : Word64) (s : State) : Out := .next (if dieUp s 0 then writeCtCtl s value.toNat else s)

/-- INJECT, R433: a write of SV.INJECT over the test access port. -/
def execInject (value : Word64) (s : State) : Out := .next (writeInject s value.toNat)

/-- REG_WRITE, R15: with its byte mask, from one of the agents that R15, R453 and R486 tell apart. -/
def execRegWrite (die off : Nat) (agent : Agent) (mask : Nat) (value : Word64) (s : State) : Out :=
  .next (maskedWrite s die off agent mask value.toNat)

end Sys2Proof.Machine
end

