-- ==== Sys2Proof/Machine/Resets.lean ====
section
/-!
DEFINITION. Resets and bring-up: the cold sequence of R478 with its checks (R449, R479), the warm reset (R481 to R484), the shutdowns (R472,
R503), and the events a bring-up waits for (R494, R497).
-/

namespace Sys2Proof.Machine

/-! Owner-settable records as a start reads them (R420, R456, R475; their layouts: DESIGN CHOICE, log entry 15). -/

/-- A field of a record, or its default where the record is absent or the value out of range. -/
def ownerField (s : State) (id off n lo hi dflt : Nat) : Nat :=
  match almRead s id with
  | some d =>
    let v := ofLe ((d.drop off).take n)
    if lo ≤ v && v ≤ hi then v else dflt
  | none => dflt

/-- What Selvage takes from the Almanac at each of its starts: FAULT_QUIET, POWER, THERMAL (DEDUCED, log entry 65). -/
def selvageRecords (s : State) : State :=
  s.onSv fun v =>
    { v with quietPeriod := ownerField s 0x0010 0 8 200000 2000000000 2000000, pcap := ownerField s 0x0021 0 2 1500 3600 3600,
             tThrottle := ownerField s 0x0022 0 2 85 105 105 }

/-- What CMD firmware takes from it at each of its starts: CONTOUR into CT.CTL (R463), RING_JOIN, FAR_TIMEOUT (DEDUCED, log entry 65). -/
def firmwareRecords (s : State) : State :=
  let s := s.onCt fun c =>
    { c with mode := ownerField s 0x0020 0 2 0 2 0, setpoint := ownerField s 0x0020 2 2 1000 s.sv.pcap 3000,
             slew := ownerField s 0x0020 4 2 1 1000 50, soundMs := ownerField s 0x0020 6 2 1 1000 100 }
  let s := if ownerField s 0x0014 0 1 0 1 0 = 1 then regSet s 0 0x70000 (2 ^ 20) else s
  match almRead s 0x0015 with
  | some d => (List.range 4).foldl (fun s p => regSet s 0 (fpReg p + 8) (ofLe (d.take 4))) s
  | none => s

/-! What a reset leaves (R472, R477, R480, R483). -/

/-- Far memory as the expanders keep it; Home and Stash gone. -/
def farOnly (m : Mem) : Mem :=
  let far (i : Nat) : Bool := farBase ≤ 64 * i
  { cells := keep (fun a _ => farBase ≤ a) m.cells, poison := m.poison.filter far, latent := keep (fun i _ => far i) m.latent,
    posted := [], farLate := [] }

/-- Every die but SV in reset: what Selvage, the Almanac, boot flash and the management bus hold stays, and so do memory cells. The
queue of commands and the count of free values are the model's own. -/
def resetDies (s : State) : State :=
  let r := State.reset
  { r with
    pending := s.pending, free := s.free,
    pkg := { r.pkg with variant := s.pkg.variant, pairId := s.pkg.pairId, stackFailed := s.pkg.stackFailed },
    mem := { s.mem with posted := [], farLate := [] },
    regs := keep (fun k _ => k / 2 ^ 32 % 4096 == 1) s.regs,
    ck := { r.ck with dropCnt := s.ck.dropCnt },
    rings := { r.rings with causes := s.rings.causes },
    sv := { s.sv with fence := [], fenceCore := [], fenceEng := [], fenceOpt := [], fenceMuMover := [], fenceTwMover := [],
                      reclaim := none, reclaimSt := 0, reclaims := [], freeing := [], warmReqs := [], panelReqs := [], on := false,
                      waiting := 0 },
    sec := { s.sec with debug := false, fwWaiter := none, fwSteps := 0 },
    host := { r.host with perstN := s.host.perstN },
    i3c := s.i3c }

/-- A cold reset: every die, Selvage included (R483). The Almanac and boot flash are kept, and so is a failed hold-up test (R473). -/
def coldBase (s : State) : State :=
  let r := State.reset
  { r with
    pending := s.pending, free := s.free, mem := farOnly s.mem,
    sv := { r.sv with holdupBad := s.sv.holdupBad },
    sec := { s.sec with keys := [], debug := false, deviceId := [], fwReason := 0, fwWaiter := none, fwHdr := none, fwSteps := 0,
                        confirmed := false },
    host := { r.host with perstN := s.host.perstN } }

/-! Bring-up (R449, R478, R479). -/

def setPhase (s : State) (n : Nat) : State := s.onSv fun v => { v with phase := n, waiting := 0 }
/-- Bring-up waits at a step. -/
def waitAt (s : State) (n : Nat) : State := s.onSv fun v => { v with phase := n, waiting := n }

/-- FAULT_N held low for a start that does not finish. -/
def holdFaultN (s : State) : State :=
  let t := s.onSv fun v => { v with starting := true }
  if faultNHigh s.sv then raiseIbi t 1 else t

/-- Bring-up halts: PHASE = 15 (R479, R501). -/
def haltBringUp (s : State) : State := raiseIbi (setPhase s 15) 4

/-- A check of R449 fails. -/
def bootFail (s : State) (stage reason : Nat) : State :=
  haltBringUp (holdFaultN (s.onSv fun v => { v with bootStage := stage, bootReason := reason }))

/-- Stage 5 fails with no previous image to restore: NO_FIRMWARE, source FLASH. -/
def noFirmware (s : State) : State := bootFail ((setSticky s srcFlash).onSec fun c => { c with fwState := fwNone }) 5 5

/-- Dies that take part: fitted, SV and CMD apart. -/
def otherDies (s : State) : List Nat := allDies.filter fun d => 2 ≤ d && fitted s.pkg.variant d

/-- A die FAILED in the Legend that is being built. -/
def markFailed (s : State) (l : List Nat) : State := s.onPkg fun p => { p with dieFailed := insAll p.dieFailed l }

/-- Step 5: the dies that lock; one that does not is fenced and FAILED, its CLOCK source set. -/
def lockDies (s : State) (b : BringUp) : State :=
  let bad := (otherDies s).filter b.noLock.contains
  let s := (markFailed s bad).onSv fun v => { v with on := true, fence := insAll v.fence bad }
  let s := bad.foldl (fun s d => setSticky s (srcClock d)) s
  s.onCk fun c => { c with locked := (0 :: otherDies s).filter fun d => !bad.contains d }

/-- A link that does not come up: one of its ends is FAILED, or its trainings fail. -/
def linkBad (s : State) (b : BringUp) (d p e : Nat) : Bool :=
  s.pkg.dieFailed.contains d || s.pkg.dieFailed.contains e || b.badLinks.contains (d, p)
  || (match portTo e d with | some q => b.badLinks.contains (e, q) | none => false)

/-- One port trained: UP_FULL, or FAILED with the LINK source (R33); it stays UNUSED without a peer. -/
def trainPort (b : BringUp) (s : State) (d p : Nat) : State :=
  match linkPeer d p with
  | some e =>
    if !fitted s.pkg.variant e || s.pkg.dieFailed.contains d then s
    else if linkBad s b d p e then setSticky (setPort s d p 5) (srcLink d)
    else setPort s d p 3
  | none => s

/-- Step 8: every link trained, dies that CMD cannot reach FAILED, boot routes in bank 0 (R39). -/
def trainLinks (s : State) (b : BringUp) : State :=
  let ds := allDies.filter (fitted s.pkg.variant)
  let s := ds.foldl (fun s d => (List.range 8).foldl (fun s p => trainPort b s d p) s) s
  let near := spread s 40 [0]
  let s := markFailed s (ds.filter fun d => !near.contains d)
  let up := ds.flatMap fun d => ((List.range 8).filter (portUp s d)).map (d * 16 + ·)
  s.onGz fun g => { g with bootBank := (ds.filter near.contains).map fun d => (d, 0), bootLinks := up }

/-- What a table of the environment says of a far port. -/
def farSays (l : List (Nat × Nat)) (p : Nat) : Nat := match l.find? (·.1 == p) with | some x => x.2 | none => 0

/-- One far port enumerated (R48, R356): without a link it reads 0 everywhere; at what rate it comes up is a free value. -/
def enumPort (b : BringUp) (s : State) (p : Nat) : State :=
  let link := farSays b.farLink p
  if link = 0 || 2 < link || !b.refclkB then s
  else s.took.onPkg fun k =>
    { k with far := put k.far p { link := link, rate := 1 + fresh s % 2, expanders := min 8 (farSays b.farExpanders p),
                                  gib := min 4096 (farSays b.farGib p) } }

/-- Step 9: stacks, link dies' loopbacks, far ports, the host link. A stack that a warm reset finds failed stays failed (R482). -/
def trainMemory (s : State) (b : BringUp) : State :=
  let bad := (List.range 16).filter fun j => b.badStacks.contains j && stackUp s j
  let s := bad.foldl (fun s j => setSticky (s.onPkg fun p => { p with stackFailed := ins p.stackFailed j }) (srcStack (18 + j / 2) (j % 2))) s
  let loop := (otherDies s).filter fun d => 34 ≤ d && b.badLoopback.contains d
  let s := (markFailed s loop).onRings fun g => { g with noLock := insAll g.noLock loop }
  let s := (loop.filter isRing).foldl (fun s d => addCause s (5 + dimOfDie d)) s
  let s := (List.range 4).foldl (enumPort b) s
  let s := s.onHost fun h => { h with presented := ownerField s 0x0013 0 1 0 1 0 == 0 }
  if b.refclkB then trainHost s else s

/-- Steps 10 and 11: firmware runs; queue 0 and its ring as given, the Legend built and valid (R49). -/
def startFirmware (s : State) (q0 : Queue) (r0 : Ring) : State :=
  let s := firmwareRecords (s.onSec fun c => { c with fwSteps := 0 })
  let s := s.onQm fun q => { q with queues := put q.queues 0 q0, rings := put q.rings ring0 r0 }
  s.onPkg fun p => { p with legendGen := 2, legendValid := true }

/-- Steps 5 to 12, up to the reload of a warm reset. CMD's failure to lock, or H15's to train, halts them. -/
def startDies (s : State) (b : BringUp) (q0 : Queue) (r0 : Ring) : State :=
  let s := dropCause (setPhase s 5) causePower
  if b.noLock.contains 0 then haltBringUp (holdFaultN (setSticky s (srcClock 0)))
  else
    let s := (lockDies s b).onSv fun v => { v with bootStage := 7 }
    let s := s.onCk fun c => { c with grid := c.locked }
    let s := trainMemory (trainLinks s b) b
    if !stackUp s 15 then haltBringUp (setPhase s 9) else setPhase (startFirmware s q0 r0) 12

/-- Step 4: the regulators of VIN12. -/
def powerUp (s : State) (b : BringUp) : State := if b.vin12 then startDies s b freshQueue {} else waitAt s 4

/-- The firmware that a start finds in boot flash: the one of manufacture shows its VERSION from the first start on (R448) (DESIGN CHOICE,
log entry 7). -/
def findFirmware (s : State) (b : BringUp) : State :=
  s.onSec fun c => { c with fwVersion := if c.fwImage.isEmpty && c.fwVersion = 0 then b.fwVersion % 2 ^ 32 else c.fwVersion }

/-- Step 3: stages 1 to 6 of R449. A journal that is not empty is restored; the restored region matches where the firmware checks (DEDUCED,
log entry 64). -/
def bootChecks (s : State) (b : BringUp) : State :=
  let s := setPhase s 3
  if !b.pufOk then bootFail s 1 1
  else
    let s := s.onSec fun c => { c with deviceId := padTo 16 (Config.sha256 (padTo 32 identityPublic)) }
    if !b.manifestOk || 3 ≤ b.variantStrap then bootFail s 2 2
    else if !b.skewickOk then bootFail s 3 3
    else
      let s := findFirmware (restoreFw s b.firmwareOk) b
      if !b.firmwareOk || s.sec.fwVersion < fwFloor s then noFirmware s
      else powerUp (s.onSv fun v => { v with bootStage := 6, factory := b.factory }) b

/-- The end of step 2: the sticky bits are cleared; a failed SVCLK check leaves LOCKED (R422). -/
def selvageReady (s : State) (b : BringUp) : State :=
  bootChecks (selvageRecords (s.onSv fun v => { v with sticky := [], starting := false, waiting := 0, locked := !b.svclkOk })) b

/-- The variant a strap selects (DESIGN CHOICE, log entry 3). -/
def strapVariant (n : Nat) (v : Variant) : Variant := match n with | 0 => .a | 1 => .b | 2 => .c | _ => v

/-- Step 2: straps sampled; it waits while REFCLK_A is absent (R494, R497). -/
def selvageStart (s : State) (b : BringUp) : State :=
  let s := s.onPkg fun p => { p with variant := strapVariant b.variantStrap p.variant, pairId := b.pairIdStrap }
  if b.refclkA then selvageReady (setPhase s 2) b else waitAt s 2

/-- A cold reset from its first step (R477, R478); it waits there while RESET_N is low (R503). -/
def coldStart (s : State) (cause : Nat) (b : BringUp) : State :=
  let s := (addCause (coldBase s) causeReset).onSv fun v => { v with cause := cause }
  if b.vauxRise && b.resetNHigh then selvageStart s b else waitAt s 1

/-- COLD_RESET, R478. After a shutdown only RESET_N starts one, and only once the hold-off has passed (R472, R497); it is recorded as a
shutdown recovery (DEDUCED, log entry 64). -/
def execColdReset (cause : Nat) (b : BringUp) (s : State) : Out :=
  .next (if s.sv.shutdown = 0 then (if cause ≤ 1 then coldStart s cause b else s)
    else if cause = 0 || 2 < cause then s
    else if s.sv.waiting = 17 then coldStart s 2 b
    else s.onSv fun v => { v with waiting := if b.resetNHigh then 16 else v.waiting })

/-- HOLD_OFF_EXPIRY, R497. -/
def execHoldOffExpiry (sensor : Nat) (b : BringUp) (s : State) : Out :=
  .next (if s.sv.shutdown = 0 || 90 ≤ sensor then s
    else if s.sv.waiting = 16 then coldStart s 2 b
    else s.onSv fun v => { v with waiting := 17 })

/-- REFCLK_A_PRESENT, R494. -/
def execRefclkAPresent (b : BringUp) (s : State) : Out :=
  .next (if s.sv.waiting = 2 && s.sv.shutdown = 0 then selvageReady s b else s)

/-- VIN12_IN_RANGE, R494. -/
def execVin12InRange (b : BringUp) (s : State) : Out :=
  .next (if s.sv.waiting = 4 && s.sv.shutdown = 0 then startDies s b freshQueue {} else s)

/-! Shutdowns (R472, R503). -/

/-- Every die in reset with its regulators off: Home and Stash are lost, both dimensions closed, PWR_GOOD falls. -/
def powerDown (s : State) : State :=
  let was := s.sv.on
  let s := resetDies s
  let s := { s with mem := farOnly s.mem }
  let s := s.onPkg fun p => { p with stackFailed := [] }
  let s := s.onSv fun v => { v with throttled := [], duty := [], temps := [], emergency := false, pSum := [], pSv := 0 }
  let s := addCause (addCause s causePower) causeSelvage
  if was then raiseIbi s 3 else s

/-- POWER_SHUTDOWN, R462 and R472. -/
def execPowerShutdown (s : State) : Out :=
  .next (if s.sv.on then (powerDown (setSticky s srcPower)).onSv fun v => { v with shutdown := 1 } else s)

/-- THERMAL_SHUTDOWN, R471 and R472: THERM_N is held low. -/
def execThermalShutdown (s : State) : Out :=
  .next (if !s.sv.on then s
    else
      let high := thermNHigh s.sv
      let s := (powerDown (setSticky s srcThermal)).onSv fun v => { v with shutdown := 2 }
      if high then raiseIbi s 2 else s)

/-- VAUX_LOSS, R503: the return of VAUX is a cold reset, whatever shutdown came before (DEDUCED, log entry 64). -/
def execVauxLoss (s : State) : Out := .next ((powerDown s).onSv fun v => { v with shutdown := 0, waiting := 1 })

/-! Warm resets (R481 to R484). -/

/-- Phase A: every record on its way is written, and every descriptor fetched and without one ends with ABORTED_RESET (DEDUCED, log entry 63). -/
def drain (s : State) : State :=
  let s := s.qm.cpls.foldl deliver s
  let s := endAll s (fun _ => true) stAbortReset
  let s := s.qm.queues.foldl (fun s q => endFetchedAll s q.1 stAbortReset) s
  (s.qm.cpls.foldl deliver s).onSv fun v => { v with drained := true }

/-- A directory entry as its save restores it (R482): RESIDENT where the record rests, which before the switch is where it was (DEDUCED, log
entry 63). -/
def savedDir (e : DirEntry) : DirEntry :=
  { e with st := .resident, prevDest := 0, prevLedger := 0, pendingF := false, target := 0, targetDie := 0, queued := [], started := false,
           switched := false, sealedIn := false, waiter := none, pageIn := false }

/-- A restored row that rests at its shard-map DA with no flag set has no entry (R208). -/
def needsDir (s : State) (key : Nat) (e : DirEntry) : Bool :=
  e.poisoned || e.paged || (match shardPlace s (key / 2 ^ 31 % 4096) (key % 2 ^ 31) with | some (_, da) => e.dest != da | none => true)

/-- What the Muslin dies restore from their saves: directories, OPEN_STEP, the last released step. -/
def savedMuslin (s : State) (lost : List Nat) : Muslin :=
  let r := State.reset.mu
  let live (k : Nat) : Bool := !lost.contains k
  { r with dir := keep (needsDir s) (mapVals (fun _ e => savedDir e) (keep (fun key _ => live (key / 2 ^ 43)) s.mu.dir)),
           closedStep := keep (fun k _ => live k) s.mu.closedStep }

/-- The step number a warm reset resumes at: the OPEN_STEP saved (DEDUCED, log entry 63). -/
def savedStep (s : State) (lost : List Nat) : Nat :=
  ((List.range 8).filter fun k => !lost.contains k).foldl (fun n k => max n (openStep s k)) 0

/-- Pair state through a warm reset (R483): PAIRED becomes BASE. What the shadow holds stays known unless copies start anew. -/
def savedTwin (t : Twin) : Twin :=
  let base := t.st == tsPaired || t.st == tsBase
  { ({} : Twin) with st := if t.st = tsPaired then tsBase else t.st, takeover := t.takeover, shadowStep := t.shadowStep,
                     shadowSet := t.shadowSet && !base, converged := t.converged && !base }

/-- Every die but SV after phase C, with what was saved. The hold of a package that has yielded lasts until the hand-back (R404, R405; DEDUCED,
log entry 102). -/
def warmBase (s : State) (lost : List Nat) : State :=
  let n := savedStep s lost
  let r := resetDies s
  let causes := s.rings.causes.filter fun c => c = causeForce || (c = causeSelvage && (s.twin.st = tsYielded || (s.twin.st = tsReturning && !serves s)))
  let mu := savedMuslin s lost
  { r with mu := { mu with openStep := if n = 0 then [] else (List.range 8).map fun k => (k, n) },
           seq := { ({} : Seq) with step := n }, twin := savedTwin s.twin, rings := { r.rings with causes := insAll [causeReset] causes } }

/-- A queue as phase A saved it: HALTED at its head (DEDUCED, log entry 63). -/
def savedQueue (old : State) (q : Nat) : Queue := { queueOf old q with st := qHalted, rereads := 0, retry := false, fetched := [] }
/-- A ring as phase A saved it: its tail; the records before it count as consumed (DEDUCED, log entry 63). -/
def savedRing (old : State) (n : Nat) : Ring := { head := (ringOf old n).tail, tail := (ringOf old n).tail }

/-- Queues and rings after phase A ran (R482): each queue HALTED at its saved head, each ring going on from its saved tail. -/
def resumeQueues (old s : State) : State :=
  let s := s.onQm fun q =>
    { q with queues := (sect s 0x0B).foldl (fun m r => put m (fld r 0) (savedQueue old (fld r 0))) q.queues,
             rings := (sect s 0x0C).foldl (fun m r => put m (fld r 0) (savedRing old (fld r 0))) q.rings }
  (mcMembers s).foldl (fun s r => reserveSlot s (fld r 4)) s

/-- Queues and rings when phase A did not run: as at a load, every completion ring zeroed. -/
def restartQueues (s : State) : State :=
  (sect s 0x0C).foldl (fun s r => zeroRange s (fld r 4, 16 * ringSize r)) (loadQueues s)

/-- A load that has committed and whose record is not yet written (R484). -/
def loadOpen (s : State) : Bool :=
  match s.img.loaded with
  | some h => s.qm.cpls.any fun c => c.queue == h.queue && c.index == h.index && c.gen == h.gen
  | none => false

/-- The image in force before the reset, reloaded from the firmware area (R482); a failed check leaves none and its REASON, and so does a
reset between a load's commit and its record (R484). -/
def reloadImage (old s : State) (ran : Bool) : State :=
  match old.img.inForce with
  | none => s
  | some i =>
    if loadOpen old then setReason s 0x0E 0 0
    else match imageChecks s (i.cart ++ i.bytes) false with
    | .inl n => setReason s n.2.1 n.2.2.1 n.2.2.2
    | .inr i =>
      let s := setUpImage s i
      let s := ((holdings s).filter fun r => fld r 1 == 2).foldl (fun s r => zeroRange s (holdRange r)) s
      if ran then resumeQueues old s else restartQueues s

/-- The firmware a warm reset starts: in TRIAL the new one, through R449; where its check fails, the previous one, restored. -/
def warmFirmware (s : State) (b : BringUp) : State :=
  if s.sec.fwState = fwTrial then
    (if b.firmwareOk then migrateAlm (s.onSec fun c => { c with fwVersion := c.fwNew }) else restoreFw s.took (fresh s % 2 == 1))
  else s

/-- A warm reset (R481, R482), with what it does to the firmware. -/
def warmStart (s : State) (cause : Nat) (b : BringUp) (firmware : State → State) : State :=
  let ran := !s.sv.fence.contains 0 && !s.pkg.dieFailed.contains 0
  let lost := (List.range 8).filter fun k => b.dirLost.contains k || !dieUp s (18 + k)
  let panels := !s.sv.panelReqs.isEmpty
  let old := if ran then drain s else s.onSv fun v => { v with drained := false }
  let s := bump (warmBase old lost) 1 0x13008
  let s := s.onSv fun v => { v with cause := cause, dirLost := bitsOf lost }
  let s := firmware s
  if s.sec.fwState = fwNone then noFirmware s
  else
    let s := startDies s b (if ran then savedQueue old 0 else freshQueue) (if ran then savedRing old ring0 else {})
    if s.sv.phase != 12 then s
    else
      let s := if panels then regSet s 0 0xC0000 (2 * 2 ^ 16) else s
      reloadImage old s ran

/-- WARM_RESET, R481, for a cause that has asked for one. -/
def execWarmReset (cause : Nat) (b : BringUp) (s : State) : Out :=
  .next (if s.sv.on && s.sv.warmReqs.contains cause then warmStart s cause b fun s => warmFirmware s b else s)

/-- TRIAL_EXPIRY, R454: a warm reset, and the previous firmware restored. -/
def execTrialExpiry (restoredOk : Bool) (b : BringUp) (s : State) : Out :=
  .next (if s.sv.on && s.sec.fwState = fwTrial then warmStart s 10 b fun s => restoreFw s restoredOk else s)

end Sys2Proof.Machine
end

