-- ==== Sys2Proof/Machine/Dispatch.lean ====
section
/-!
DEFINITION. The dispatch of a command to its meaning, one arm per row of spec/opcode_table.json.
-/

namespace Sys2Proof.Machine

open Sys2Proof

/-- A command's effect on everything but the queue of waiting commands. -/
def exec (i : Instr) (s : State) : Host.Outcome State Fault Refusal :=
  match i with
  | .nop h => Sys2Proof.Machine.execNop h s
  | .fence h far remote panel => Sys2Proof.Machine.execFence h far remote panel s
  | .inlineWrite h da len payload => Sys2Proof.Machine.execInlineWrite h da len payload s
  | .sqRun h count => Sys2Proof.Machine.execSqRun h count s
  | .sqStop h => Sys2Proof.Machine.execSqStop h s
  | .imageLoad h t op => Sys2Proof.Machine.execImageLoad h t op s
  | .commitPoint => Sys2Proof.Machine.execCommitPoint s
  | .quotaSet h t panel what tier muslin value => Sys2Proof.Machine.execQuotaSet h t panel what tier muslin value s
  | .debugOn h t => Sys2Proof.Machine.execDebugOn h t s
  | .lockSet h t => Sys2Proof.Machine.execLockSet h t s
  | .lockClear h t => Sys2Proof.Machine.execLockClear h t s
  | .almanacWrite h t id version len data => Sys2Proof.Machine.execAlmanacWrite h t id version len data s
  | .fwUpdateStart h t srcDa srcLen readbackBad => Sys2Proof.Machine.execFwUpdateStart h t srcDa srcLen readbackBad s
  | .bypassForceClose h t => Sys2Proof.Machine.execBypassForceClose h t s
  | .bypassForceRelease h t => Sys2Proof.Machine.execBypassForceRelease h t s
  | .twinTakeover h t op => Sys2Proof.Machine.execTwinTakeover h t op s
  | .keyAgree h slot keyNum agreeCtr ctDa sigDa => Sys2Proof.Machine.execKeyAgree h slot keyNum agreeCtr ctDa sigDa s
  | .keyRetire h slot => Sys2Proof.Machine.execKeyRetire h slot s
  | .quote h outDa outLen cert nonce => Sys2Proof.Machine.execQuote h outDa outLen cert nonce s
  | .ownerSet h keyDa sigDa agreeCtr => Sys2Proof.Machine.execOwnerSet h keyDa sigDa agreeCtr s
  | .twMatmul h op => Sys2Proof.Machine.execTwMatmul h op s
  | .twDrain h op => Sys2Proof.Machine.execTwDrain h op s
  | .twMax h op => Sys2Proof.Machine.execTwMax h op s
  | .twMin h op => Sys2Proof.Machine.execTwMin h op s
  | .muGather h op => Sys2Proof.Machine.execMuGather h op s
  | .muGradScatter h op => Sys2Proof.Machine.execMuGradScatter h op s
  | .muLedgerAdd h op => Sys2Proof.Machine.execMuLedgerAdd h op s
  | .muSeal h muslin expectStep => Sys2Proof.Machine.execMuSeal h muslin expectStep s
  | .sealTakesEffect muslin => Sys2Proof.Machine.execSealTakesEffect muslin s
  | .muMigrate h muslin table row targetDa => Sys2Proof.Machine.execMuMigrate h muslin table row targetDa s
  | .muRowRestore h muslin keepPending table row srcDa => Sys2Proof.Machine.execMuRowRestore h muslin keepPending table row srcDa s
  | .muOptDense h op => Sys2Proof.Machine.execMuOptDense h op s
  | .muOptClose h muslin panel expectStep paramDa => Sys2Proof.Machine.execMuOptClose h muslin panel expectStep paramDa s
  | .bankRelease muslin => Sys2Proof.Machine.execBankRelease muslin s
  | .stRearm h op => Sys2Proof.Machine.execStRearm h op s
  | .stRelease h stream core bytes => Sys2Proof.Machine.execStRelease h stream core bytes s
  | .rgPut h op => Sys2Proof.Machine.execRgPut h op s
  | .rgGet h op => Sys2Proof.Machine.execRgGet h op s
  | .tnSnapshot h op => Sys2Proof.Machine.execTnSnapshot h op s
  | .tnHandback h op => Sys2Proof.Machine.execTnHandback h op s
  | .post prog r patch arm queue slot ctr => Sys2Proof.Machine.execPost prog r patch arm queue slot ctr s
  | .wait prog ctr target => Sys2Proof.Machine.execWait prog ctr target s
  | .fire prog => Sys2Proof.Machine.execFire prog s
  | .amax prog x core n off => Sys2Proof.Machine.execAmax prog x core n off s
  | .amaxd prog x da => Sys2Proof.Machine.execAmaxd prog x da s
  | .anchor prog r x1 x2 => Sys2Proof.Machine.execAnchor prog r x1 x2 s
  | .sealPoint prog => Sys2Proof.Machine.execSealPoint prog s
  | .endProg prog => Sys2Proof.Machine.execEndProg prog s
  | .stepStart => Sys2Proof.Machine.execStepStart s
  | .sealGate => Sys2Proof.Machine.execSealGate s
  | .closePart => Sys2Proof.Machine.execClosePart s
  | .stepEnd => Sys2Proof.Machine.execStepEnd s
  | .descriptorFetch queue => Sys2Proof.Machine.execDescriptorFetch queue s
  | .sealReread queue => Sys2Proof.Machine.execSealReread queue s
  | .dispatch queue starved => Sys2Proof.Machine.execDispatch queue starved s
  | .doorbell queue value => Sys2Proof.Machine.execDoorbell queue value s
  | .resume value => Sys2Proof.Machine.execResume value s
  | .rhead value => Sys2Proof.Machine.execRhead value s
  | .swap die value => Sys2Proof.Machine.execSwap die value s
  | .tcCreditWrite die agent value => Sys2Proof.Machine.execTcCreditWrite die agent value s
  | .rejoin die value => Sys2Proof.Machine.execRejoin die value s
  | .datumCtlFire => Sys2Proof.Machine.execDatumCtlFire s
  | .resync fire => Sys2Proof.Machine.execResync fire s
  | .ckPlanWrite die agent value => Sys2Proof.Machine.execCkPlanWrite die agent value s
  | .counterClear die off => Sys2Proof.Machine.execCounterClear die off s
  | .dirLookup die value => Sys2Proof.Machine.execDirLookup die value s
  | .faultClear idx value => Sys2Proof.Machine.execFaultClear idx value s
  | .fwConfirm agent value => Sys2Proof.Machine.execFwConfirm agent value s
  | .panelRst value => Sys2Proof.Machine.execPanelRst value s
  | .perPanelReset panel => Sys2Proof.Machine.execPerPanelReset panel s
  | .warmReq agent value => Sys2Proof.Machine.execWarmReq agent value s
  | .mboxGo value => Sys2Proof.Machine.execMboxGo value s
  | .hstreamFill value => Sys2Proof.Machine.execHstreamFill value s
  | .tokenIn die tok => Sys2Proof.Machine.execTokenIn die tok s
  | .snapHostRel value => Sys2Proof.Machine.execSnapHostRel value s
  | .ctCtlWrite value => Sys2Proof.Machine.execCtCtlWrite value s
  | .inject value => Sys2Proof.Machine.execInject value s
  | .regWrite die off agent mask value => Sys2Proof.Machine.execRegWrite die off agent mask value s
  | .hostRead bar addr len => Sys2Proof.Machine.execHostRead bar addr len s
  | .hostWrite bar addr data => Sys2Proof.Machine.execHostWrite bar addr data s
  | .coreLoad core agent da len => Sys2Proof.Machine.execCoreLoad core agent da len s
  | .coreStore core agent da data => Sys2Proof.Machine.execCoreStore core agent da data s
  | .coreFence core => Sys2Proof.Machine.execCoreFence core s
  | .privateWrite data => Sys2Proof.Machine.execPrivateWrite data s
  | .privateRead => Sys2Proof.Machine.execPrivateRead s
  | .entdaa dyn => Sys2Proof.Machine.execEntdaa dyn s
  | .setdasa static dyn => Sys2Proof.Machine.execSetdasa static dyn s
  | .rstdaa => Sys2Proof.Machine.execRstdaa s
  | .getpid => Sys2Proof.Machine.execGetpid s
  | .getbcr => Sys2Proof.Machine.execGetbcr s
  | .getdcr => Sys2Proof.Machine.execGetdcr s
  | .getstatus => Sys2Proof.Machine.execGetstatus s
  | .enec ibi => Sys2Proof.Machine.execEnec ibi s
  | .disec ibi => Sys2Proof.Machine.execDisec ibi s
  | .read f => Sys2Proof.Machine.execRead f s
  | .write f => Sys2Proof.Machine.execWrite f s
  | .atomicAdd m => Sys2Proof.Machine.execAtomicAdd m s
  | .readResp f => Sys2Proof.Machine.execReadResp f s
  | .writeAck f => Sys2Proof.Machine.execWriteAck f s
  | .completion f => Sys2Proof.Machine.execCompletion f s
  | .regResp f => Sys2Proof.Machine.execRegResp f s
  | .mcastData f => Sys2Proof.Machine.execMcastData f s
  | .sounding f => Sys2Proof.Machine.execSounding f s
  | .backgroundMove f => Sys2Proof.Machine.execBackgroundMove f s
  | .credit die port tc n => Sys2Proof.Machine.execCredit die port tc n s
  | .flitCrcError die port again => Sys2Proof.Machine.execFlitCrcError die port again s
  | .laneRepairExhausted die port => Sys2Proof.Machine.execLaneRepairExhausted die port s
  | .moveStart owner table row => Sys2Proof.Machine.execMoveStart owner table row s
  | .moveDone owner table row => Sys2Proof.Machine.execMoveDone owner table row s
  | .switchMsg owner table row => Sys2Proof.Machine.execSwitchMsg owner table row s
  | .migrationMoving owner table row => Sys2Proof.Machine.execMigrationMoving owner table row s
  | .migrationAbandon owner table row => Sys2Proof.Machine.execMigrationAbandon owner table row s
  | .forwardingEnd owner table row => Sys2Proof.Machine.execForwardingEnd owner table row s
  | .shadowEntryValid owner table row => Sys2Proof.Machine.execShadowEntryValid owner table row s
  | .shadowInvalidation die owner table row => Sys2Proof.Machine.execShadowInvalidation die owner table row s
  | .patchRequest table row => Sys2Proof.Machine.execPatchRequest table row s
  | .patchAnswer owner table row record poisoned => Sys2Proof.Machine.execPatchAnswer owner table row record poisoned s
  | .patchTimeout owner table row => Sys2Proof.Machine.execPatchTimeout owner table row s
  | .yield => Sys2Proof.Machine.execYield s
  | .scrubRead die half => Sys2Proof.Machine.execScrubRead die half s
  | .refresh stack bank => Sys2Proof.Machine.execRefresh stack bank s
  | .deadlineExpiry queue index => Sys2Proof.Machine.execDeadlineExpiry queue index s
  | .stepBudgetExpiry prog => Sys2Proof.Machine.execStepBudgetExpiry prog s
  | .stallBudgetExpiry stream => Sys2Proof.Machine.execStallBudgetExpiry stream s
  | .stallArbiterDecision => Sys2Proof.Machine.execStallArbiterDecision s
  | .mcDetach group => Sys2Proof.Machine.execMcDetach group s
  | .datumEdge bad => Sys2Proof.Machine.execDatumEdge bad s
  | .pllLossOfLock die => Sys2Proof.Machine.execPllLossOfLock die s
  | .sendSent => Sys2Proof.Machine.execSendSent s
  | .sendOpen => Sys2Proof.Machine.execSendOpen s
  | .sent dev step => Sys2Proof.Machine.execSent dev step s
  | .openTok dev step => Sys2Proof.Machine.execOpenTok dev step s
  | .topo dev aux orig count => Sys2Proof.Machine.execTopo dev aux orig count s
  | .aliasTok dev target => Sys2Proof.Machine.execAliasTok dev target s
  | .tokenWaitExpiry => Sys2Proof.Machine.execTokenWaitExpiry s
  | .ident die f => Sys2Proof.Machine.execIdent die f s
  | .flitFrame die f => Sys2Proof.Machine.execFlitFrame die f s
  | .idle f => Sys2Proof.Machine.execIdle f s
  | .uncorrectableCodeword die => Sys2Proof.Machine.execUncorrectableCodeword die s
  | .ringLaneFailure die lane => Sys2Proof.Machine.execRingLaneFailure die lane s
  | .lossOfSignal die => Sys2Proof.Machine.execLossOfSignal die s
  | .signalDetected die => Sys2Proof.Machine.execSignalDetected die s
  | .trainingFailure die => Sys2Proof.Machine.execTrainingFailure die s
  | .brokenRetry die => Sys2Proof.Machine.execBrokenRetry die s
  | .remoteTimeout die tag => Sys2Proof.Machine.execRemoteTimeout die tag s
  | .bypassCause cause dim => Sys2Proof.Machine.execBypassCause cause dim s
  | .dimensionOpen dim => Sys2Proof.Machine.execDimensionOpen dim s
  | .journalData r => Sys2Proof.Machine.execJournalData r s
  | .journalBase r => Sys2Proof.Machine.execJournalBase r s
  | .journalEnd r => Sys2Proof.Machine.execJournalEnd r s
  | .journalBaseEnd r => Sys2Proof.Machine.execJournalBaseEnd r s
  | .farCplTimeout port tag => Sys2Proof.Machine.execFarCplTimeout port tag s
  | .farLinkLoss port => Sys2Proof.Machine.execFarLinkLoss port s
  | .farRetrain port link expanders gib => Sys2Proof.Machine.execFarRetrain port link expanders gib s
  | .hostLinkReset => Sys2Proof.Machine.execHostLinkReset s
  | .hlPerstN high => Sys2Proof.Machine.execHlPerstN high s
  | .panelFault core => Sys2Proof.Machine.execPanelFault core s
  | .unitError party => Sys2Proof.Machine.execUnitError party s
  | .leaseExpiry kind holder => Sys2Proof.Machine.execLeaseExpiry kind holder s
  | .released party => Sys2Proof.Machine.execReleased party s
  | .reclaimTimeout => Sys2Proof.Machine.execReclaimTimeout s
  | .free party => Sys2Proof.Machine.execFree party s
  | .mgmtParityFailure die => Sys2Proof.Machine.execMgmtParityFailure die s
  | .quietPeriodExpiry => Sys2Proof.Machine.execQuietPeriodExpiry s
  | .svclkCheckFailure => Sys2Proof.Machine.execSvclkCheckFailure s
  | .powerReport reports => Sys2Proof.Machine.execPowerReport reports s
  | .contourInterval => Sys2Proof.Machine.execContourInterval s
  | .contourWindow => Sys2Proof.Machine.execContourWindow s
  | .contourSounding => Sys2Proof.Machine.execContourSounding s
  | .emergency => Sys2Proof.Machine.execEmergency s
  | .emergencyLift => Sys2Proof.Machine.execEmergencyLift s
  | .powerShutdown => Sys2Proof.Machine.execPowerShutdown s
  | .thermalReport die quarters => Sys2Proof.Machine.execThermalReport die quarters s
  | .throttleStep die => Sys2Proof.Machine.execThrottleStep die s
  | .thermalShutdown => Sys2Proof.Machine.execThermalShutdown s
  | .holdupMeasure energyMj enough => Sys2Proof.Machine.execHoldupMeasure energyMj enough s
  | .holdupTest pass => Sys2Proof.Machine.execHoldupTest pass s
  | .coldReset cause b => Sys2Proof.Machine.execColdReset cause b s
  | .vin12InRange b => Sys2Proof.Machine.execVin12InRange b s
  | .vauxLoss => Sys2Proof.Machine.execVauxLoss s
  | .warmReset cause b => Sys2Proof.Machine.execWarmReset cause b s
  | .trialExpiry restoredOk b => Sys2Proof.Machine.execTrialExpiry restoredOk b s
  | .laneRepair die port => Sys2Proof.Machine.execLaneRepair die port s
  | .cxlMemCompletion port tag => Sys2Proof.Machine.execCxlMemCompletion port tag s
  | .bandwidthWindow far index => Sys2Proof.Machine.execBandwidthWindow far index s
  | .refclkAPresent b => Sys2Proof.Machine.execRefclkAPresent b s
  | .holdOffExpiry sensor b => Sys2Proof.Machine.execHoldOffExpiry sensor b s
  | .holdupWaitExpiry restoredOk => Sys2Proof.Machine.execHoldupWaitExpiry restoredOk s
  | .thermalDutyRise die => Sys2Proof.Machine.execThermalDutyRise die s
  | .handbackStepNumber step => Sys2Proof.Machine.execHandbackStepNumber step s
  | .inBandInterruptAccepted byte => Sys2Proof.Machine.execInBandInterruptAccepted byte s

end Sys2Proof.Machine
end

