-- ==== Sys2Proof/Safety.lean ====
section
/-!
DEFINITION. What counts as a safe run: a step that answers a next state; the canonical form of what a state holds; and what claims say
of two states: that they agree outside some groups, and that a descriptor has completed between them.
-/

namespace Sys2Proof

open Machine

/-- The outcome is a next state. -/
def Completes (o : Host.Outcome State Fault Refusal) : Prop := ∃ t, o = .next t

/-- Memory is in canonical form: addresses strictly rising, no listed byte equal to what an unlisted one reads as. -/
def MemOk (s : State) : Prop := Memory.wf s.mem.cells = true

/-- The tables of memory and registers are in canonical form: bytes, marked sectors and registers are each listed once, in rising order. -/
structure TablesOk (s : State) : Prop where
  cells  : Memory.wf s.mem.cells = true
  poison : s.mem.poison.Pairwise (· < ·)
  latent : rising none s.mem.latent = true
  regs   : rising none s.regs = true

/-- The groups of State that a command may change. -/
structure Groups where
  free    : Bool := false
  pkg     : Bool := false
  mem     : Bool := false
  regs    : Bool := false
  gz      : Bool := false
  ck      : Bool := false
  tw      : Bool := false
  mu      : Bool := false
  streams : Bool := false
  qm      : Bool := false
  seq     : Bool := false
  img     : Bool := false
  rings   : Bool := false
  twin    : Bool := false
  snap    : Bool := false
  sv      : Bool := false
  sec     : Bool := false
  ct      : Bool := false
  host    : Bool := false
  i3c     : Bool := false
  sounds  : Bool := false
  seqNo   : Bool := false
  cores   : Bool := false

/-- t agrees with s on the queue of waiting commands and on every group not named in g. -/
structure Same (g : Groups) (s t : State) : Prop where
  pending : t.pending = s.pending
  free    : g.free = false → t.free = s.free
  pkg     : g.pkg = false → t.pkg = s.pkg
  mem     : g.mem = false → t.mem = s.mem
  regs    : g.regs = false → t.regs = s.regs
  gz      : g.gz = false → t.gz = s.gz
  ck      : g.ck = false → t.ck = s.ck
  tw      : g.tw = false → t.tw = s.tw
  mu      : g.mu = false → t.mu = s.mu
  streams : g.streams = false → t.streams = s.streams
  qm      : g.qm = false → t.qm = s.qm
  seq     : g.seq = false → t.seq = s.seq
  img     : g.img = false → t.img = s.img
  rings   : g.rings = false → t.rings = s.rings
  twin    : g.twin = false → t.twin = s.twin
  snap    : g.snap = false → t.snap = s.snap
  sv      : g.sv = false → t.sv = s.sv
  sec     : g.sec = false → t.sec = s.sec
  ct      : g.ct = false → t.ct = s.ct
  host    : g.host = false → t.host = s.host
  i3c     : g.i3c = false → t.i3c = s.i3c
  sounds  : g.sounds = false → t.sounds = s.sounds
  seqNo   : g.seqNo = false → t.seqNo = s.seqNo
  cores   : g.cores = false → t.cores = s.cores

/-- The COMPLETION that a unit issues for a descriptor (R288): the descriptor's own fields, the unit, a status and an ELAPSED. -/
def completionOf (h : Hdr) (u : UnitId) (st elapsed : Nat) : Cpl :=
  { status := st, system := h.system, quiet := h.quiet, userTag := h.userTag, queue := h.queue, index := h.index, gen := h.gen,
    unit := u, step := h.stamp, elapsed := elapsed }

/-- Between s and t the descriptor h has completed at unit u with a status: its COMPLETION is the last one issued, with some ELAPSED of
32 bits; it stands in no dispatch list and waits for nothing; the rest of the queue manager is as it was. -/
structure Ends (s t : State) (h : Hdr) (u : UnitId) (st : Nat) : Prop where
  issued  : ∃ e, e < 2 ^ 32 ∧ t.qm.cpls = s.qm.cpls ++ [completionOf h u st e]
  disp    : t.qm.disp = s.qm.disp.filter fun d => !sameDesc d.hdr h
  waiting : t.qm.waiting = s.qm.waiting.filter fun w => !sameDesc w.hdr h
  queues  : t.qm.queues = s.qm.queues
  rings   : t.qm.rings = s.qm.rings
  served  : t.qm.served = s.qm.served
  irqs    : t.qm.irqs = s.qm.irqs
  msix    : t.qm.msix = s.qm.msix

/-- Program p runs and the instruction word it has reached spells the command c (R343, R344). -/
def Stands (s : State) (p : Nat) (c : Instr) : Prop :=
  ((progOf s p).st = 1 ∨ (progOf s p).st = 3) ∧
  decodeProg p (progWord s p (progOf s p).pc) (progWord s p ((progOf s p).pc + 1)) = some c

/-- Between s and t the bytes bs have been stored upward from a, and every other byte of Home, Stash and Far reads as before. -/
structure Stored (s t : State) (a : Nat) (bs : List Byte) : Prop where
  bytes  : ∀ x, cellByte t.mem x = if a ≤ x ∧ x < a + bs.length then bs.getD (x - a) 0 else cellByte s.mem x
  posted : t.mem.posted = s.mem.posted

/-- Every byte of Home, Stash and Far reads as before, those still on their way to an expander among them. -/
def MemSame (s t : State) : Prop := ∀ x, readByte t.mem x = readByte s.mem x

/-- The critical commands (R298), with their header and trailer. -/
def criticalOf : Instr → Option (Hdr × Trailer)
  | .imageLoad h t _ => some (h, t)
  | .quotaSet h t _ _ _ _ _ => some (h, t)
  | .debugOn h t => some (h, t)
  | .lockSet h t => some (h, t)
  | .lockClear h t => some (h, t)
  | .almanacWrite h t _ _ _ _ => some (h, t)
  | .fwUpdateStart h t _ _ _ => some (h, t)
  | .bypassForceClose h t => some (h, t)
  | .bypassForceRelease h t => some (h, t)
  | .twinTakeover h t _ => some (h, t)
  | _ => none

/-- R299 accepts a critical command that may start: its key, in a slot, is active, its TAG is the one computed, its COUNTER is new. -/
def Accepted (s : State) (h : Hdr) (t : Trailer) (slot : Nat) (k : Key) : Prop :=
  canStart s h = true ∧ keyOf s t.keyNum = some (slot, k) ∧ t.tag = (Config.hmac k.secret t.message).take 16 ∧ k.exhausted = false ∧
  k.last < t.counter

/-- Between s and t a load has been refused: its STATUS, and CM.IMG_REASON with its SECTION and RECORD. -/
def LoadRefused (s t : State) (h : Hdr) (n : LoadNo) : Prop :=
  Ends s t h cmdUnit n.1 ∧ t.img = { s.img with reason := n.2.1, section_ := n.2.2.1, record := n.2.2.2 }

/-- Between s and t a load has passed its checks and waits for its commit point; the image in force stays. -/
def LoadStaged (s t : State) (h : Hdr) (op : LoadOp) (kind : Nat) (i : Image) : Prop :=
  t.img.staged = some { image := i, hdr := h, op := op, kind := kind } ∧ t.img.inForce = s.img.inForce ∧ t.qm.cpls = s.qm.cpls

/-- What becomes of an image that passed the rows up to CHECK: the CARRY row refuses it, or it is staged. -/
def CarriedOrRefused (s t : State) (h : Hdr) (op : LoadOp) (kind : Nat) (i : Image) : Prop :=
  match carryBad s (kind == 1) i with
  | some n => LoadRefused s t h (stMalformed, 0x0B, 0x0D, n)
  | none => LoadStaged s t h op kind i

/-- No word of any core buffer is uncorrectable. -/
def CbSound (s : State) : Prop := ∀ e, e ∈ s.tw.cbErr → e.2 = false

/-- Between s and t a panel has had a panel fault (R125): its cores are FAULTED, and none of its queues is ACTIVE or HALTED. -/
def PanelDown (s t : State) (p : Nat) : Prop :=
  (∀ g ∈ panelCores s p, (coreOf t g).faulted = true) ∧ ∀ q ∈ panelQueues s p, (queueOf t q).st ≠ qActive ∧ (queueOf t q).st ≠ qHalted

/-- Between s and t a reclaim has been triggered (R427): it starts, its party fenced, when none runs; it joins the running reclaim of its
party; or it waits its turn. A trigger that asks for the party's reset adds that to the reclaim it joins. -/
def Reclaims (s t : State) (r : Reclaim) : Prop :=
  match s.sv.reclaim with
  | none => t.sv.reclaim = some r ∧ t.sv.reclaimSt = 2 ∧ unitFenced t r.party = true ∧ t.sv.reclaims = s.sv.reclaims
  | some x =>
    if x.party = r.party then t.sv.reclaim = some { x with reset := x.reset || r.reset } ∧ t.sv.reclaims = s.sv.reclaims
    else t.sv.reclaim = some x ∧ ∃ y ∈ t.sv.reclaims, y.party = r.party ∧ (r.reset = true → y.reset = true)

/-- R465's ballast level of core g when l lists the eligible cores: L, or L + 1 on the first of them, and none elsewhere. -/
def ballastOf (l : List Nat) (steps g : Nat) : Nat :=
  if l.contains g then steps / l.length + b2n (l.idxOf g < steps % l.length) else 0

/-- A bring-up has run from step 5 on (R478, R479): it has reached PHASE 12 where CMD locked and H15 trained, and has halted elsewhere. -/
def BroughtUp (t : State) (b : BringUp) : Prop :=
  t.sv.phase = if b.noLock.contains 0 = false ∧ stackUp t 15 = true then 12 else 15

/-- The VERSION of the firmware that a start finds in boot flash: that of manufacture shows its own from the first start on (R448). -/
def bootVersion (s : State) (b : BringUp) : Nat :=
  if s.sec.fwImage.isEmpty && s.sec.fwVersion = 0 then b.fwVersion % 2 ^ 32 else s.sec.fwVersion

/-- What a start of Selvage leads to from the end of step 2 on (R422, R449, R478): halted at the stage of the check that failed, with its
reason; waiting for VIN12; or brought up. A journal found in boot flash decides of the last ones too: nothing is said there. -/
def Booted (s t : State) (b : BringUp) : Prop :=
  t.sv.locked = !b.svclkOk ∧
  if b.pufOk = false then t.sv.phase = 15 ∧ t.sv.bootStage = 1 ∧ t.sv.bootReason = 1
  else if b.manifestOk = false ∨ 3 ≤ b.variantStrap then t.sv.phase = 15 ∧ t.sv.bootStage = 2 ∧ t.sv.bootReason = 2
  else if b.skewickOk = false then t.sv.phase = 15 ∧ t.sv.bootStage = 3 ∧ t.sv.bootReason = 3
  else if b.firmwareOk = false then t.sv.phase = 15 ∧ t.sv.bootStage = 5 ∧ t.sv.bootReason = 5 ∧ t.sec.fwState = fwNone ∧ srcFlash ∈ t.sv.sticky
  else s.sec.fwJournal = none →
    if bootVersion s b < fwFloor s then t.sv.phase = 15 ∧ t.sv.bootStage = 5 ∧ t.sv.bootReason = 5
    else if b.vin12 then BroughtUp t b
    else t.sv.phase = 4 ∧ t.sv.waiting = 4

/-- A cold reset has started from s (R477, R478, R483): its cause is recorded, Home and Stash are lost, and bring-up waits at step 1, waits at
step 2 with the straps taken, or goes on. -/
def ColdStarted (s t : State) (cause : Nat) (b : BringUp) : Prop :=
  t.sv.cause = cause ∧ t.mem = farOnly s.mem ∧
  if b.vauxRise = false ∨ b.resetNHigh = false then t.sv.phase = 1 ∧ t.sv.waiting = 1
  else t.pkg.pairId = b.pairIdStrap ∧ if b.refclkA = false then t.sv.phase = 2 ∧ t.sv.waiting = 2 else Booted s t b

/-- A warm reset of a package without an image has taken place (R481, R482): its cause, whether its phase A ran, and the Muslin dies that saved
nothing are recorded, and the dies are brought up. -/
def WarmStarted (s t : State) (cause : Nat) (b : BringUp) : Prop :=
  t.sv.cause = cause ∧ t.sv.drained = (!s.sv.fence.contains 0 && !s.pkg.dieFailed.contains 0) ∧
  t.sv.dirLost = bitsOf ((List.range 8).filter fun k => b.dirLost.contains k || !dieUp s (18 + k)) ∧ t.img.inForce = none ∧ BroughtUp t b

/-- Between s and t every die but SV has gone into reset, its regulators off (R472, R503): Home and Stash are lost, the queue manager is empty,
both dimensions are closed; the Almanac, boot flash and the straps stay. -/
structure DiesDown (s t : State) : Prop where
  off    : t.sv.on = false
  mem    : t.mem = farOnly s.mem
  qm     : t.qm = State.reset.qm
  causes : causePower ∈ t.rings.causes ∧ causeSelvage ∈ t.rings.causes
  closed : ∀ dim ∈ [0, 1], ∀ d ∈ dimDies dim, (rport t d).st = pBypassed
  flash  : t.sec.almanac = s.sec.almanac ∧ t.sec.fwImage = s.sec.fwImage ∧ t.sec.fwState = s.sec.fwState
  straps : t.pkg.variant = s.pkg.variant ∧ t.pkg.pairId = s.pkg.pairId

/-- The commands that may start a cold reset, or take it past step 2 (R478, R494, R497). -/
def coldStarts : Instr → Bool
  | .coldReset _ _ => true
  | .holdOffExpiry _ _ => true
  | .refclkAPresent _ => true
  | _ => false

/-- What a counter that goes up may change: itself, and the Sounding of its saturation (R430). -/
def Groups.counted : Groups := { regs := true, sounds := true, seqNo := true }

/-- What a counted fault may change: a counter, Selvage, and the in-band interrupt of a falling FAULT_N (R419, R501). -/
def Groups.faulted : Groups := { Groups.counted with sv := true, i3c := true }

/-- What the early end of commands may change: all that a command can have pending (R69, R126). -/
def Groups.ended : Groups :=
  { Groups.faulted with
    free := true, gz := true, tw := true, mu := true, streams := true, qm := true, seq := true, img := true, rings := true, snap := true
    sec := true }

end Sys2Proof
end

