-- ==== Sys2Proof/Certificates/Slice0/Obligations.lean ====
section
/-!
DEFINITION. The statements about the block that the provers are asked to prove. Each says in its docstring which rules it formalises.
-/

open Sys2Proof Sys2Proof.Machine

/-- R500, of a target that answers private transfers (step 2 of a bring-up passed, an address taken: R499): a private write of exactly 4 bytes
sets the read pointer, little-endian; one of any other length is discarded; a private read returns the 8 bytes of die 1's register at the
pointer, or zeros where the pointer is not aligned or lies outside 0x10000 to 0x14FFF, and advances the pointer by 8 (modulo 2^32, the
pointer's width). Neither writes a register. -/
def Obligations.PrivateTransfers : Prop :=
  (∀ data s, i3cUp s = true → s.i3c.dynValid = true →
    if data.length = 4 then ∃ t, exec (.privateWrite data) s = .next t ∧ Same { i3c := true } s t ∧ t.i3c = { s.i3c with pointer := ofLe data }
    else exec (.privateWrite data) s = .next s) ∧
  (∀ s, i3cUp s = true → s.i3c.dynValid = true → ∃ t, exec .privateRead s = .next t ∧ Same { i3c := true } s t ∧
    t.i3c.pointer = (s.i3c.pointer + 8) % 2 ^ 32 ∧
    t.i3c.reply = if s.i3c.pointer % 8 = 0 ∧ 0x10000 ≤ s.i3c.pointer ∧ s.i3c.pointer ≤ 0x14FFF then leBytes 8 (readReg s 1 s.i3c.pointer)
      else List.replicate 8 0)

/-- R81: the FP4 E2M1 codes 0 to 7 have the values 0, 0.5, 1, 1.5, 2, 3, 4 and 6 (here twice the value, as a whole number), and the codes 8 to
15 are their negatives. R88: an E8M0 code S below 0xFF has the value 2^(S − 127), never with a sign, and 0xFF is NaN. -/
def Obligations.ValuesOfCodes : Prop :=
  (∀ c, c < 16 → ∃ m e, decodeVal 0 c = .fin (decide (8 ≤ c)) m e ∧ -1 ≤ e ∧
    m * 2 ^ (e + 1).toNat = [0, 1, 2, 3, 4, 6, 8, 12].getD (c % 8) 0) ∧
  (∀ c, c < 0xFF → decodeScale c = .fin false 1 ((c : Int) - 127)) ∧ decodeScale 0xFF = .nan

/-- R480 (its timing apart): once a cold reset starts, outside the hold-off of a shutdown, every byte of Home and of Stash reads as zero, and no
sector there is poisoned or holds a stored error. -/
def Obligations.ColdResetZeroesHomeAndStash : Prop :=
  ∀ cause b s, s.sv.shutdown = 0 → cause ≤ 1 → ∃ t, exec (.coldReset cause b) s = .next t ∧
    (∀ a, a < farBase → cellByte t.mem a = 0) ∧ (∀ i, i < farBase / 64 → i ∉ t.mem.poison ∧ look t.mem.latent i = none)

/-- With command c at the front of the queue of waiting commands and r behind it, a step is the effect of c on the state whose queue is r. The
queue is the model's own (log entry 1). -/
def Obligations.StepRunsTheFrontCommand : Prop :=
  ∀ (c : Instr) (r : List Instr) (s : State), s.pending = c :: r → step s = exec c { s with pending := r }

/-- On an empty queue a step leaves the state as it is: the model's choice (log entry 1), since it counts no time. -/
def Obligations.EmptyQueueIdles : Prop := ∀ s : State, s.pending = [] → step s = .next s

/-- Right after reset, before the cold bring-up: no counter or stored register differs from its Reset value, no sticky bit is set and FAULT_N is
held low, the quiet period is 2,000,000, PCAP 3,600 W and T_THROTTLE 105 °C, Contour is OFF with SETPOINT 3000, SLEW 50 and SOUND_MS 100, both
dimensions are closed for want of power, no image is in force, no queue is defined, no session key is held and no command waits. -/
def Obligations.ResetValues : Prop :=
  let s := State.reset
  s.pending = [] ∧ s.regs = [] ∧ s.sv.sticky = [] ∧ s.sv.locked = false ∧ faultNHigh s.sv = false ∧ s.sv.quiet = 0 ∧ s.sv.recovery = 0 ∧
  s.sv.quietPeriod = 2000000 ∧ s.sv.pcap = 3600 ∧ s.sv.tThrottle = 105 ∧ s.ct.mode = 0 ∧ s.ct.setpoint = 3000 ∧ s.ct.slew = 50 ∧
  s.ct.soundMs = 100 ∧ s.rings.causes = [causePower] ∧ s.rings.openDims = [] ∧ s.img.inForce = none ∧ s.qm.queues = [] ∧ s.sec.keys = [] ∧
  s.mem.cells = [] ∧ s.mem.poison = []

/-- Whatever the command and the state, exec answers a next state, and the commands still waiting are those that waited: no command is refused,
none faults, and none puts another one into the queue, which is the model's own (log entry 1). -/
def Obligations.EveryCommandAnswers : Prop := ∀ (c : Instr) (s : State), ∃ t, exec c s = .next t ∧ t.pending = s.pending

/-- From every state a step answers a next state, whose queue of waiting commands is the old one without its first command. -/
def Obligations.EveryStepTakesOneCommand : Prop := ∀ s : State, ∃ t, step s = .next t ∧ t.pending = s.pending.tail

/-- Memory, the poisoned sectors, the stored errors and the registers of State.reset are in canonical form. -/
def Obligations.ResetTablesCanonical : Prop := TablesOk State.reset

/-- From every state whose tables are in canonical form (bytes of memory listed once, in rising order, and none that equals what an unlisted one
reads as; poisoned sectors, sectors with a stored error, and registers listed once, in rising order), whatever command runs, a step leads to a
state whose tables are in canonical form: equal contents are equal data. -/
def Obligations.StepKeepsTablesCanonical : Prop := ∀ s t : State, TablesOk s → step s = .next t → TablesOk t

/-- VARIANT and PAIR_ID are sampled at step 2 of a cold bring-up (R497): a step changes them only where the command it takes is a cold reset, the
expiry of the hold-off that starts one, or the arrival of REFCLK_A for which a bring-up waits. -/
def Obligations.StrapsChangeOnlyInAColdReset : Prop :=
  ∀ (c : Instr) (r : List Instr) (s t : State), s.pending = c :: r → coldStarts c = false → step s = .next t →
    t.pkg.variant = s.pkg.variant ∧ t.pkg.pairId = s.pkg.pairId

/-- Once Selvage is LOCKED (R422) no step lifts that but one whose command starts a cold reset or takes it past step 2; FAULT_N stays low. -/
def Obligations.LockedUntilAColdReset : Prop :=
  ∀ (c : Instr) (r : List Instr) (s t : State), s.pending = c :: r → coldStarts c = false → s.sv.locked = true → step s = .next t →
    t.sv.locked = true ∧ faultNHigh t.sv = false

/-- A NOP that may start, and a FENCE that may start or has started and not yet flushed, answer a next state. The NOP completes
at the queue manager with DONE and nothing else changes (R296). A FENCE whose earlier descriptors have completed and whose flushes find nothing
outstanding completes with DONE and SCOPE = 1; one whose flushes find writes outstanding waits for exactly those; with PANEL on a FIRMWARE queue
it completes with MALFORMED (R295). -/
def Obligations.NopAndFenceComplete : Prop :=
  (∀ h s, canStart s h = true →
    ∃ t, exec (.nop h) s = .next t ∧ Ends s t h cmdUnit stDone ∧ Same { free := true, qm := true } s t) ∧
  (∀ h far remote panel s, (canStart s h = true ∨ fenceStands s h = true) → panel = true → panelOfQueue s h.queue = none →
    ∃ t, exec (.fence h far remote panel) s = .next t ∧ Ends s t { h with system := true } cmdUnit stMalformed) ∧
  (∀ h far remote panel s, (canStart s h = true ∨ fenceStands s h = true) → (panel = true → panelOfQueue s h.queue ≠ none) → 
    fenceWaits s h panel = false → fenceTags s far remote = [] →
    ∃ t, exec (.fence h far remote panel) s = .next t ∧ Ends s t { h with system := true } cmdUnit stDone) ∧
  (∀ h far remote panel s, (canStart s h = true ∨ fenceStands s h = true) → (panel = true → panelOfQueue s h.queue ≠ none) → 
    fenceWaits s h panel = false → fenceTags s far remote ≠ [] →
    ∃ t w, exec (.fence h far remote panel) s = .next t ∧ w ∈ t.qm.waiting ∧ w.hdr = { h with system := true } ∧
      w.tags = fenceTags s far remote ∧ t.qm.cpls = s.qm.cpls)

/-- An INLINE_WRITE that may start answers a next state (R297). In memory it stores exactly its LEN bytes and completes with DONE, where the
checks of R21 and R248 accept the range and it lies below Far; in Far it joins the port's posted writes; from a FIRMWARE queue it writes the
registers of an aligned register-space range and completes with DONE; in each case of R297's list, and where a check refuses the range, it
completes with that status and stores nothing. -/
def Obligations.InlineWriteStoresItsPayload : Prop :=
  ∀ h da len payload s, canStart s h = true →
    (MemOk s → 1 ≤ len → len ≤ 192 → ceilDiv len 64 ≤ h.ext → payload.length = len → inRegSpace da = false → da < farBase →
      checkOut s h [(da, len)] = none →
      ∃ t, exec (.inlineWrite h da len payload) s = .next t ∧ Ends s t h cmdUnit stDone ∧ Stored s t da payload) ∧
    (1 ≤ len → len ≤ 192 → ceilDiv len 64 ≤ h.ext → payload.length = len → farBase ≤ da → da < farTop →
      (lookD s.pkg.far (farPortOf da) {}).link ≠ 0 → checkOut s h [(da, len)] = none →
      ∃ t, exec (.inlineWrite h da len payload) s = .next t ∧ t.mem.cells = s.mem.cells ∧
        t.mem.posted = s.mem.posted ++ [{ port := farPortOf da, tag := postedTag s, da := da, data := payload }] ∧
        (h.system = false → Ends s t h cmdUnit stDone)) ∧
    (1 ≤ len → len ≤ 192 → ceilDiv len 64 ≤ h.ext → inRegSpace da = true → classOfQueue s h.queue = 0 → regRangeOk da len = true →
      ∃ t e, exec (.inlineWrite h da len payload) s = .next t ∧ e < 2 ^ 32 ∧
        t.regs = (writeRegs s .device da (padTo len payload) (len / 8)).regs ∧
        t.qm.cpls = (writeRegs s .device da (padTo len payload) (len / 8)).qm.cpls ++ [completionOf h cmdUnit stDone e]) ∧
    (len = 0 ∨ 192 < len ∨ h.ext < ceilDiv len 64 ∨ (inRegSpace da = true ∧ (classOfQueue s h.queue ≠ 0 ∨ regRangeOk da len = false)) →
      ∃ t, exec (.inlineWrite h da len payload) s = .next t ∧ Ends s t h cmdUnit stMalformed ∧ Same { free := true, qm := true } s t) ∧
    (∀ st, 1 ≤ len → len ≤ 192 → ceilDiv len 64 ≤ h.ext → inRegSpace da = false → checkOut s h [(da, len)] = some st →
      ∃ t, exec (.inlineWrite h da len payload) s = .next t ∧ Ends s t h cmdUnit st ∧ Same { free := true, qm := true } s t)

/-- R280's table, for both commands that read a queue's head: a fetch, which first reserves a ring slot (R290), and a re-read, which keeps it;
either clears RESUME. Where the SEAL read equals the entry's generation the head passes it, and the descriptor waits for dispatch or, refused by
R277, has its COMPLETION, as has a ring operation whose route names no link die (R383); where it differs, a re-read is asked for and
CM.SEAL_RETRY_CNT rises, up to 8 times; the ninth time the queue is HALTED with its head at the entry, SEAL_MISMATCH is recorded and
CM.SEAL_MM_CNT rises. -/
def Obligations.HeadOfQueueIsReadBySeal : Prop :=
  ∀ i q r s b w, queueRec s q = some r → (queueOf s q).st = qActive →
    (i = .descriptorFetch q ∧ canFetch s q r = true ∧ b = reserveSlot s (fld r 5) ∨ i = .sealReread q ∧ (queueOf s q).retry = true ∧ b = s) →
    (∀ e, postedEntry s q (queueOf s q).head (queueOf s q).headGen = some e → e.late = false) →
    checkRead (setQueue b q fun u => { u with resume := false }) (entryDa r (queueOf s q).head) 256 = (false, w) →
    let u := queueOf s q
    let e := readBytes s.mem (entryDa r u.head) 256
    let h := decodeHdr q u.head (stepNow s) e
    let c := decodeDesc q u.head (stepNow s) e
    ∃ t, exec i s = .next t ∧ MemSame s t ∧
      (dword e 0x3E 2 = u.headGen →
        ((queueOf t q).head, (queueOf t q).headGen) = nextPos (queueSize r) (u.head, u.headGen) ∧ (queueOf t q).rereads = 0 ∧
        (c = none ∨ critOp (opcodeOf e) ≠ h.crit ∨ (h.crit = true ∧ h.ext = 0) →
          t.qm.cpls = s.qm.cpls ++ [completionOf h cmdUnit stMalformed 0] ∧ (queueOf t q).fetched = u.fetched) ∧
        (∀ d, c = some d → critOp (opcodeOf e) = h.crit → (h.crit = true → h.ext ≠ 0) → noRoute s d = false → h.armed = false →
          (t.qm.cpls = s.qm.cpls ∧ ∃ x, (queueOf t q).fetched = u.fetched ++ [x] ∧ x.hdr = h ∧ x.cmd = d) ∨
          ∃ w, dieUp s w.die = false ∧ t.qm.cpls = s.qm.cpls ++ [completionOf h w stAbsent 0] ∧ (queueOf t q).fetched = u.fetched) ∧
        (∀ d, c = some d → critOp (opcodeOf e) = h.crit → (h.crit = true → h.ext ≠ 0) → noRoute s d = true →
          (t.qm.cpls = s.qm.cpls ∧ ∃ x, (queueOf t q).fetched = u.fetched ++ [x] ∧ x.hdr = h ∧ x.cmd = d) ∨
          ∃ w st, t.qm.cpls = s.qm.cpls ++ [completionOf h w st 0] ∧ (queueOf t q).fetched = u.fetched)) ∧
      (dword e 0x3E 2 ≠ u.headGen → u.rereads < 8 →
        queueOf t q = { u with rereads := u.rereads + 1, retry := true, resume := false } ∧ t.qm.cpls = s.qm.cpls ∧ t.regs = (bump w 0 0x20058).regs) ∧
      (dword e 0x3E 2 ≠ u.headGen → 8 ≤ u.rereads →
        queueOf t q = { u with st := qHalted, rereads := 0, retry := false, resume := false } ∧ t.regs = (bump w 0 0x20060).regs ∧
        ∃ k, t.qm.cpls = s.qm.cpls ++ [completionOf k cmdUnit stSealMm 0] ∧ k.queue = q ∧ k.index = u.head ∧ k.gen = u.headGen)

/-- A DISPATCH of a queue whose first fetched descriptor is ready, and which its unit serves next or has starved (R284), takes it out of the
queue. On a die that is up the descriptor joins the dispatch list, not yet started, armed as its header says; on a die that is not up it
completes with UNIT_ABSENT (R277); an armed one whose Datum cannot come, or whose die has lost its Datum count, completes with DEADLINE
(R62). -/
def Obligations.DispatchHandsTheHeadOver : Prop :=
  ∀ q starved s x rest, (queueOf s q).fetched = x :: rest → headReady s q x = true →
    (starved = true ∨ served s x.unit = some q) →
    let stale := x.hdr.armed = true ∧ (x.unit.die ∈ s.ck.err ∨ datumFuture x.hdr.datum (look0 s.ck.count x.unit.die) = false)
    let d : Disp := { hdr := x.hdr, cmd := x.cmd, unit := x.unit, armed := x.hdr.armed, started := false, before := x.before }
    ∃ t, exec (.dispatch q starved) s = .next t ∧ queueOf t q = { queueOf s q with fetched := rest } ∧
      (∀ p, p ≠ q → queueOf t p = queueOf s p) ∧
      (dieUp s x.unit.die = true → ¬ stale → t.qm.disp = s.qm.disp ++ [d] ∧ t.qm.cpls = s.qm.cpls) ∧
      (dieUp s x.unit.die = true → stale → ∃ e, t.qm.cpls = s.qm.cpls ++ [completionOf x.hdr x.unit stDeadline e]) ∧
      (dieUp s x.unit.die = false → t.qm.cpls = s.qm.cpls ++ [completionOf x.hdr x.unit stAbsent 0])

/-- A doorbell that R279 accepts sets the queue's tail to the position it names and changes nothing else, nothing at all where that is the
tail already; any other one leaves every queue as it was, increments CM.DB_BAD_CNT and sets the CMD command-fault source. RESUME makes a
HALTED queue ACTIVE with a fresh series of re-reads and reads 1 until its next fetch, and changes nothing where the queue is in another
state (R281, R302). A CM.RHEAD write up to CM.RTAIL moves the head of the ring that CM.RSEL names (selRing); one that passes it is counted
in CM.DB_BAD_CNT (R289). -/
def Obligations.DoorbellResumeRhead : Prop :=
  (∀ q (v : Word64) s r, queueRec s q = some r →
    let size := queueSize r
    let u := queueOf s q
    let tail := bits v.toNat 15 0
    let gen := bits v.toNat 31 16
    let next := if tail = 0 then nextGen gen else gen
    let ahead := posDiff size (posNum size u.head u.headGen)
    (u.st ≠ qDisabled → tail < size → gen ≠ 0 → ahead (posNum size tail next) ≤ size →
      ahead (posNum size u.tail u.tailGen) ≤ ahead (posNum size tail next) →
      ∃ t, exec (.doorbell q v) s = .next t ∧
        queueOf t q = (if ahead (posNum size tail next) = ahead (posNum size u.tail u.tailGen) then u
          else { u with tail := tail, tailGen := next, shownGen := gen }) ∧
        (∀ p, p ≠ q → queueOf t p = queueOf s p) ∧ Same { qm := true } s t) ∧
    (u.st = qDisabled ∨ size ≤ tail ∨ gen = 0 ∨ size < ahead (posNum size tail next) ∨
      ahead (posNum size tail next) < ahead (posNum size u.tail u.tailGen) →
      ∃ t, exec (.doorbell q v) s = .next t ∧ t.qm = s.qm ∧ t.regs = (bump s 0 0x20050).regs ∧ srcCommand ∈ t.sv.sticky)) ∧
  (∀ q (v : Word64) s, queueRec s q = none →
    ∃ t, exec (.doorbell q v) s = .next t ∧ t.qm = s.qm ∧ t.regs = (bump s 0 0x20050).regs ∧ srcCommand ∈ t.sv.sticky) ∧
  (∀ (v : Word64) s, bit v.toNat 0 = true → (queueOf s (regGet s 0 0x20000)).st = qHalted →
    ∃ t, exec (.resume v) s = .next t ∧
      queueOf t (regGet s 0 0x20000) =
        { queueOf s (regGet s 0 0x20000) with st := qActive, rereads := 0, retry := false, resume := true } ∧
      (∀ p, p ≠ regGet s 0 0x20000 → queueOf t p = queueOf s p) ∧ Same { qm := true } s t) ∧
  (∀ (v : Word64) s, (queueOf s (regGet s 0 0x20000)).st ≠ qHalted → exec (.resume v) s = .next s) ∧
  (∀ (v : Word64) s r, ringRec s (selRing s) = some r →
    let n := selRing s
    let g := ringOf s n
    let h := bits v.toNat 15 0
    let go := (h + ringSize r - g.head % ringSize r) % ringSize r
    (h < ringSize r → g.head + go ≤ g.tail →
      ∃ t, exec (.rhead v) s = .next t ∧ ringOf t n = { g with head := g.head + go } ∧ (∀ m, m ≠ n → ringOf t m = ringOf s m) ∧
        Same { qm := true } s t) ∧
    (ringSize r ≤ h ∨ g.tail < g.head + go → ∃ t, exec (.rhead v) s = .next t ∧ t.qm = s.qm ∧ t.regs = (bump s 0 0x20050).regs))

/-- The deadline of a dispatched command ends it with DEADLINE, writes no memory but what an MU_OPT_DENSE has done until then (state b; R240), sets
its sticky source, that of its stream for an ST_REARM, and increments CK.LATE_CNT of its die (R68, R69, R71). A COMPLETION that reaches the queue
manager, over Gauze (state b is the one that its way leaves), from CMD, or for a die that is not up, is taken once: its
16-byte record is stored at the ring's tail with the lap's PHASE, the tail rises by one and the reserved slot is used up (R288 to R290);
under QUIET a DONE writes no record and gives its slot back (R292). One whose output sends another class first, or that finds no credit, waits
(R37, R303). -/
def Obligations.ExpiryAndCompletion : Prop :=
  (∀ q i s d, (s.qm.disp.find? fun d => d.hdr.queue == q && d.hdr.index == i) = some d → d.hdr.deadline ≠ 0 →
    let b := cutDenses s fun x => sameDesc x.hdr d.hdr
    ∃ t, exec (.deadlineExpiry q i) s = .next t ∧ Ends b t d.hdr d.unit stDeadline ∧ t.mem = b.mem ∧ dispSource b d ∈ t.sv.sticky ∧
      t.regs = (bump b d.unit.die 0x4018).regs ∧ ((∀ x, x ∈ s.qm.disp → ∀ h o, x.cmd ≠ .muOptDense h o) → b = s)) ∧
  (∀ f s b c n r, f.op = 0x06 → s.gz.flits.contains f = false → cplFor s f = some c → f.dst = 0 →
    ((f.src = 0 ∨ dieUp s f.src = false) ∧ b = s ∨
      f.src ≠ 0 ∧ dieUp s f.src = true ∧ outputBusy s (cplFlit s c) = false ∧ ∃ g, goes true s (cplFlit s c) = some (some g, b)) →
    cringOf b c.queue = some n → ringRec b n = some r →
    let g := ringOf b n
    ∃ t, exec (.completion f) s = .next t ∧ t.qm.cpls = b.qm.cpls.erase c ∧
      (c.quiet = true → c.status = stDone → ringOf t n = { g with resv := g.resv - 1 } ∧ t.mem = b.mem) ∧
      (¬(c.quiet = true ∧ c.status = stDone) → ringOf t n = { g with tail := g.tail + 1, resv := g.resv - 1 } ∧
        (MemOk b → fld r 4 + 16 * ringSize r ≤ farBase →
          Stored b t (fld r 4 + 16 * (g.tail % ringSize r)) (cplBytes b c (ringPhase r g))))) ∧
  (∀ f s c, f.op = 0x06 → s.gz.flits.contains f = false → cplFor s f = some c → f.dst = 0 → f.src ≠ 0 → dieUp s f.src = true →
    outputBusy s (cplFlit s c) = true ∨ goes true s (cplFlit s c) = none → exec (.completion f) s = .next s)

/-- A program that stands at a POST (R344). Where it may post to the queue and an entry is free, the template is stored, patched and sealed,
in the entry at the tail and nowhere else; the tail moves on by one, the entry is remembered for its counter, and the program moves on by one
word. With no free entry nothing changes: the POST waits. A queue that is not of the program's panel and class, or an empty template slot,
ends the program's body with MALFORMED, and nothing is stored (R345); a lost sector of the template ends it with MALFORMED too, and nothing
is posted (R519). -/
def Obligations.PostWritesTheTemplate : Prop :=
  ∀ p r patch arm q slot ctr s pr, Stands s p (.post p r patch arm q slot ctr) → progRec s p = some pr →
    (∀ qr t0, queueRec s q = some qr → template s p slot = some t0 →
      let own := if fld pr 2 = 1 then fld qr 3 = 1 ∧ fld qr 2 = 1 ∧ fld qr 1 = fld pr 1 else fld qr 3 = 0
      let u := queueOf s q
      let full := posDiff (queueSize qr) (posNum (queueSize qr) u.head u.headGen) (posNum (queueSize qr) u.tail u.tailGen) = queueSize qr
      (own → ¬ full → MemOk s → entryDa qr u.tail < farBase → (checkRead s (templateDa p slot) 256).1 = false →
        ∃ t, exec (.post p r patch arm q slot ctr) s = .next t ∧ Stored s t (entryDa qr u.tail) (postedBytes s p r patch arm t0 u.tailGen) ∧
          ((queueOf t q).tail, (queueOf t q).tailGen) = nextPos (queueSize qr) (u.tail, u.tailGen) ∧ (queueOf t q).head = u.head ∧
          t.seq.posted = s.seq.posted ++ [{ prog := p, queue := q, index := u.tail, gen := u.tailGen, ctr := ctr, step := runStep s }] ∧
          progOf t p = { progOf s p with pc := (progOf s p).pc + 1, started := true }) ∧
      (own → ¬ full → (checkRead s (templateDa p slot) 256).1 = true →
        ∃ t, exec (.post p r patch arm q slot ctr) s = .next t ∧ t.qm = s.qm ∧ t.seq.posted = s.seq.posted ∧ (progOf t p).malformed = true) ∧
      (own → full → exec (.post p r patch arm q slot ctr) s = .next s) ∧
      (¬ own → ∃ t, exec (.post p r patch arm q slot ctr) s = .next t ∧ Same { seq := true } s t ∧ (progOf t p).malformed = true)) ∧
    (queueRec s q = none ∨ template s p slot = none →
      ∃ t, exec (.post p r patch arm q slot ctr) s = .next t ∧ Same { seq := true } s t ∧ (progOf t p).malformed = true)

/-- What the program instructions that read no memory do where a program stands at them (R344). WAIT moves on once its counter has reached the
target, and until then changes nothing. FIRE requests one Datum, or drops it when 16 are pending (R60). ANCHOR writes p − 10, clamped, into its
register. At SEAL and at END the program comes to stand, and the word it stands at stays. No other program and no other part of the state
changes. -/
def Obligations.ProgramInstructionsMoveOn : Prop :=
  (∀ p k n s, Stands s p (.wait p k n) → n ≤ look0 (progOf s p).k k →
    ∃ t, exec (.wait p k n) s = .next t ∧ progOf t p = { progOf s p with pc := (progOf s p).pc + 1 } ∧
      (∀ q, q ≠ p → progOf t q = progOf s q) ∧ Same { seq := true } s t) ∧
  (∀ p k n s, Stands s p (.wait p k n) → look0 (progOf s p).k k < n → exec (.wait p k n) s = .next s) ∧
  (∀ p s, Stands s p (.fire p) →
    ∃ t, exec (.fire p) s = .next t ∧ progOf t p = { progOf s p with pc := (progOf s p).pc + 1 } ∧
      (∀ q, q ≠ p → progOf t q = progOf s q) ∧ Same { seq := true, ck := true, sounds := true, seqNo := true } s t ∧
      (s.ck.pending < 16 ∨ s.ck.dropCnt ≠ 2 ^ 48 - 1 → t.sounds = s.sounds ∧ t.seqNo = s.seqNo) ∧
      (s.ck.pending < 16 → t.ck = { s.ck with pending := s.ck.pending + 1 }) ∧
      (16 ≤ s.ck.pending → t.ck = { s.ck with dropCnt := min (s.ck.dropCnt + 1) (2 ^ 48) })) ∧
  (∀ p r x1 x2 s, Stands s p (.anchor p r x1 x2) →
    ∃ t, exec (.anchor p r x1 x2) s = .next t ∧
      progOf t p = { progOf s p with
        pc := (progOf s p).pc + 1
        a := put (progOf s p).a r (anchorOf ((lookD (progOf s p).x x1 Val.zero).mul (lookD (progOf s p).x x2 Val.zero))) } ∧
      (∀ q, q ≠ p → progOf t q = progOf s q) ∧ Same { seq := true } s t) ∧
  (∀ p s, Stands s p (.sealPoint p) → (progOf s p).st = 1 →
    ∃ t, exec (.sealPoint p) s = .next t ∧ progOf t p = { progOf s p with st := 2 } ∧
      (∀ q, q ≠ p → progOf t q = progOf s q) ∧ Same { seq := true } s t) ∧
  (∀ p s, Stands s p (.endProg p) → (progOf s p).st = 3 →
    ∃ t, exec (.endProg p) s = .next t ∧ progOf t p = { progOf s p with st := 4 } ∧
      (∀ q, q ≠ p → progOf t q = progOf s q) ∧ Same { seq := true } s t)

/-- A program that stands at an AMAX reads n records of a core's buffer, at an AMAXD the record of a state record (R344). Where no sector they
read is in error and every record carries an exact value, the register takes the largest magnitude, found from 0 upward; where one carries
none (a NaN winner or INT32), or an AMAXD's record lies in a lost sector (R519), the register takes 0. On a die that is not up an AMAX reads
zeros. Where nothing is lost, only the program, the counters, the Soundings they may write and an AMAXD's reads of the row's bank change. -/
def Obligations.AmaxReadsMagnitudes : Prop :=
  let top (vs : List (Option Val)) : Val :=
    if vs.any Option.isNone then Val.zero
    else vs.foldl (fun m o => match o with | some v => if Val.lt m v then v else m | none => m) Val.zero
  (∀ p x core n off s, Stands s p (.amax p x core n off) → dieUp s (coreDie core) = true →
    (∀ e, e ∈ s.tw.cbErr → e.1 ∉ wordsOf core off (8 * n)) →
    ∃ t, exec (.amax p x core n off) s = .next t ∧
      progOf t p = { progOf s p with
        pc := (progOf s p).pc + 1
        x := put (progOf s p).x x (top ((List.range n).map fun i => amaxVal (dword (cbRead s.tw core off (8 * n)) (8 * i) 8))) } ∧
      (∀ q, q ≠ p → progOf t q = progOf s q) ∧ Same { regs := true, seq := true, sounds := true, seqNo := true } s t) ∧
  (∀ p x core n off s, Stands s p (.amax p x core n off) → dieUp s (coreDie core) = false →
    ∃ t, exec (.amax p x core n off) s = .next t ∧
      progOf t p = { progOf s p with pc := (progOf s p).pc + 1, x := put (progOf s p).x x Val.zero } ∧
      (∀ q, q ≠ p → progOf t q = progOf s q) ∧ Same { regs := true, seq := true, sounds := true, seqNo := true } s t) ∧
  (∀ p x da s c, Stands s p (.amaxd p x da) → checkRead s da 8 = (false, c) →
    ∃ t, exec (.amaxd p x da) s = .next t ∧
      progOf t p = { progOf s p with pc := (progOf s p).pc + 2, x := put (progOf s p).x x (top [amaxVal (ofLe (readBytes s.mem da 8))]) } ∧
      (∀ q, q ≠ p → progOf t q = progOf s q) ∧ Same { regs := true, mu := true, seq := true, sounds := true, seqNo := true } s t) ∧
  (∀ p x da s c, Stands s p (.amaxd p x da) → checkRead s da 8 = (true, c) →
    ∃ t, exec (.amaxd p x da) s = .next t ∧
      progOf t p = { progOf s p with pc := (progOf s p).pc + 2, x := put (progOf s p).x x Val.zero } ∧ t.regs = (bumpBy c 0 0x40020 1).regs)

/-- SQ_RUN with an image in force and no run starts one at the start gate; while a firmware update is written, or in YIELDED, it is held; with a
run active or held, or no image, it completes with MALFORMED. SQ_STOP with a run active is remembered for the step's end; without one it
completes with MALFORMED (R348). STEP_END, with every program at END, writes one step record for each program to the ring of its first POST
(R347), brings the sequencer back to the start gate, and ends the run after a stop or its last step; otherwise the count of steps left falls
by one (R346). -/
def Obligations.RunsStartAndEnd : Prop :=
  (∀ h n s, canStart s h = true → s.seq.run = none → s.seq.held = none → s.img.inForce ≠ none → runHeld s = false →
    ∃ t, exec (.sqRun h n) s = .next t ∧ t.seq.run = some h ∧ t.seq.left = n ∧ t.seq.phase = 0 ∧ t.seq.step = s.seq.step ∧
      t.qm.cpls = s.qm.cpls ∧ Same { qm := true, seq := true } s t) ∧
  (∀ h n s, canStart s h = true → s.seq.run = none → s.seq.held = none → s.img.inForce ≠ none → runHeld s = true →
    ∃ t, exec (.sqRun h n) s = .next t ∧ t.seq = { s.seq with held := some (h, n) } ∧ t.qm.cpls = s.qm.cpls) ∧
  (∀ h n s, canStart s h = true → (s.seq.run ≠ none ∨ s.seq.held ≠ none ∨ s.img.inForce = none) →
    ∃ t, exec (.sqRun h n) s = .next t ∧ Ends s t h cmdUnit stMalformed ∧ t.seq = s.seq) ∧
  (∀ h s, canStart s h = true → s.seq.run ≠ none →
    ∃ t, exec (.sqStop h) s = .next t ∧ t.seq.stops = s.seq.stops ++ [h] ∧ t.seq.run = s.seq.run ∧ t.seq.st = 3 ∧ t.qm.cpls = s.qm.cpls) ∧
  (∀ h s, canStart s h = true → s.seq.run = none →
    ∃ t, exec (.sqStop h) s = .next t ∧ Ends s t h cmdUnit stMalformed ∧ t.seq = s.seq) ∧
  (∀ s, s.seq.phase = 4 → (∀ p, p ∈ s.seq.progs → p.2.st = 4) →
    ∃ t, exec .stepEnd s = .next t ∧ t.seq.phase = 0 ∧ t.seq.step = s.seq.step ∧
      (∀ n r, ringRec s n = some r →
        (ringOf t n).tail = (ringOf s n).tail + (s.seq.progs.filter fun p => recordRing s p.1 == some n).length) ∧
      (s.seq.stops ≠ [] ∨ s.seq.left = 1 ∨ s.seq.run = none → t.seq.run = none ∧ t.seq.stops = []) ∧
      (s.seq.stops = [] → s.seq.left ≠ 1 → s.seq.run ≠ none → t.seq.run = s.seq.run ∧ t.seq.left = s.seq.left - 1))

/-- Where a step may start, every program of the image starts at word 0 (R346 step 1). At an open seal gate one MU_SEAL with EXPECT_STEP = n
joins the dispatch list for each Muslin die that is up, all armed for the Datum then requested, and the step number rises by one (R346 step 3,
R380); stated where no Muslin die has lost its Datum count and every ledger unit can take one more armed descriptor (R61). Once no seal is out,
every program goes on after SEAL (step 4). The expiry of a step budget, in the body or at SEAL before the seals are posted, is counted, brings
the program to SEAL, and leaves none of its descriptors fetched and undispatched (R70). -/
def Obligations.StepsGoThroughTheirPhases : Prop :=
  (∀ s, mayStart s = true →
    ∃ t, exec .stepStart s = .next t ∧ t.seq.phase = 1 ∧ ∀ r, r ∈ progRecs t → progOf t (fld r 0) = { st := 1 }) ∧
  (∀ s, s.seq.phase = 1 → (∀ p, p ∈ s.seq.progs → p.2.st = 2) → allFetched s = true → sealGateOpen s = true → sealRoom s = true →
    (∀ k, k ∈ musUp s → 18 + k ∉ s.ck.err) →
    ∃ t, exec .sealGate s = .next t ∧ t.seq.phase = 2 ∧ t.seq.step = s.seq.step + 1 ∧ t.ck = (requestDatum s).ck ∧
      t.qm.disp = s.qm.disp ++ (musUp s).map fun k =>
        { hdr := sealHdr s k s.seq.step, cmd := .muSeal (sealHdr s k s.seq.step) k s.seq.step, unit := ledgerUnit k, armed := true,
          started := false }) ∧
  (∀ s, s.seq.phase = 2 → s.seq.sealHdrs = [] →
    ∃ t, exec .closePart s = .next t ∧ t.seq.phase = 4 ∧ t.seq.step = s.seq.step ∧ Same { seq := true } s t ∧
      t.seq.progs = mapVals (fun p g => { g with st := 3, pc := findOp s p 0x07 ((progCode s p).length / 8) 0 + 1 }) s.seq.progs) ∧
  (∀ p s r, progRec s p = some r → fld r 4 ≠ 0 → budgetCounts s (progOf s p) = true →
    ∃ t, exec (.stepBudgetExpiry p) s = .next t ∧ progOf t p = { progOf s p with st := 2, expired := true } ∧
      (∀ q x, x ∈ (queueOf t q).fetched → x ∈ (queueOf s q).fetched ∧ x.prog ≠ some p) ∧ srcOfUnit cmdUnit ∈ t.sv.sticky ∧
      t.regs = (bump s 0 0x4018).regs ∧ t.mem = s.mem)

/-- R299's checks, for every critical command: without an active key of its KEY_NUM, or with a TAG other than the computed one, it completes with
AUTH_FAIL; with an exhausted key or a COUNTER not above the last accepted one, with COUNTER_REPLAY; and nothing else changes. Not stated of an
IMAGE_LOAD of queue 0 while a load is under way, which waits (R331), nor of the second run of an update that is being written, whose trailer
was accepted at the first (the model's choice, log entry 17). -/
def Obligations.CriticalCommandsAreChecked : Prop :=
  ∀ i h t s, criticalOf i = some (h, t) → canStart s h = true → s.sec.fwHdr ≠ some h → (h.queue = 0 → loading s (· == 0) = false) →
    (keyOf s t.keyNum = none →
      ∃ u, exec i s = .next u ∧ Ends s u h cmdUnit stAuth ∧ Same { free := true, qm := true } s u) ∧
    (∀ slot k, keyOf s t.keyNum = some (slot, k) → t.tag ≠ (Config.hmac k.secret t.message).take 16 →
      ∃ u, exec i s = .next u ∧ Ends s u h cmdUnit stAuth ∧ Same { free := true, qm := true } s u) ∧
    (∀ slot k, keyOf s t.keyNum = some (slot, k) → t.tag = (Config.hmac k.secret t.message).take 16 →
      (k.exhausted = true ∨ t.counter ≤ k.last) →
      ∃ u, exec i s = .next u ∧ Ends s u h cmdUnit stReplay ∧ Same { free := true, qm := true } s u)

/-- Accepted by R299, these commands first record their COUNTER (R300), then: QUOTA_SET sets the one quota value it names, or completes with
MALFORMED and changes none; it refuses an undefined panel, a TIER of 3, WHAT of 3, and a capacity below what the panel has placed (R338).
DEBUG_ON enters debug mode, and an UNLOCK of OP 4 to 7 completes with MALFORMED, LOCK_SET and LOCK_CLEAR set and clear the owner lock,
ALMANAC_WRITE writes its owner-settable record, or completes with MALFORMED where EXT, ID or LEN is wrong (R447). Slots beyond the ones needed
are ignored (R520). -/
def Obligations.UnlockAndQuota : Prop :=
  ∀ h t s slot k, Accepted s h t slot k →
    let b := acceptCounter s slot k t.counter
    (look b.sec.keys slot = some { k with last := t.counter, exhausted := t.counter == 2 ^ 64 - 1 }) ∧
    (∀ p what tier m v, ∃ u, exec (.quotaSet h t p what tier m v) s = .next u ∧
      (quotaSet b p what tier m v = none → Ends b u h cmdUnit stMalformed ∧ u.img = b.img) ∧
      (∀ c, quotaSet b p what tier m v = some c → Ends b u h cmdUnit stDone ∧ u.img = c.img ∧
        (what = 0 → look u.img.quotas (4 * p + tier) = some v ∧ placedBytes b p tier ≤ 2 ^ 20 * v)) ∧
      (panelRec b p = none ∨ 3 ≤ what ∨ (what = 0 ∧ (3 ≤ tier ∨ 2 ^ 20 * v < placedBytes b p tier)) → quotaSet b p what tier m v = none)) ∧
    (∃ u, exec (.debugOn h t) s = .next u ∧
      (t.reserved = false → Ends b u h cmdUnit stDone ∧ u.sec = { b.sec with debug := true }) ∧
      (t.reserved = true → Ends b u h cmdUnit stMalformed ∧ u.sec = b.sec)) ∧
    (∃ u, exec (.lockSet h t) s = .next u ∧ Ends b u h cmdUnit stDone ∧ ownerLock u = true) ∧
    (∃ u, exec (.lockClear h t) s = .next u ∧ Ends b u h cmdUnit stDone ∧ ownerLock u = false) ∧
    (∀ id v n data, ∃ u, exec (.almanacWrite h t id v n data) s = .next u ∧
      (2 ≤ h.ext → ownerSettable id = true → 1 ≤ n → n ≤ 64 → data.length = n →
        Ends b u h cmdUnit stDone ∧ almGet u id v = some data) ∧
      (h.ext < 2 ∨ ownerSettable id = false ∨ n = 0 ∨ 64 < n → Ends b u h cmdUnit stMalformed ∧ u.sec = b.sec))

/-- BYPASS_FORCE, accepted by R299: CLOSE makes its cause hold, every port of both dimensions is BYPASSED, and it completes with DONE at Selvage;
RELEASE ends the cause and waits while a dimension may still open; while the device is ALIASED either completes with MALFORMED and changes
nothing else (R373). FW_UPDATE_START, accepted by R299: a check of R450 that fails completes it with its status and REASON, no other effect;
else WRITING begins with the old firmware in the journal. Run again while its update writes (log entry 17), it programs the new image and
either enters TRIAL, completes with DONE and asks for the warm reset, or, on a bad readback, restores the old image, REASON 0x0A (R451). A
paused update whose wait expires restores with REASON 0x02 (R452). FW_CONFIRM commits a trial, and raises the floor if asked, only where R453
accepts it. -/
def Obligations.BypassAndFirmware : Prop :=
  (∀ h t s slot k, Accepted s h t slot k →
    let b := acceptCounter s slot k t.counter
    (selfAliased b = false →
      (∃ u, exec (.bypassForceClose h t) s = .next u ∧ Ends b u h svUnit stDone ∧ causeForce ∈ u.rings.causes ∧
        ∀ d, 34 ≤ d → d ≤ 37 → (rport u d).st = pBypassed) ∧
      (∃ u, exec (.bypassForceRelease h t) s = .next u ∧ u.rings.causes = b.rings.causes.erase causeForce ∧ u.rings.released = true ∧
        (dimWaiting u = true → u.rings.waitRelease = some h ∧ u.qm.cpls = b.qm.cpls) ∧
        (dimWaiting u = false → Ends b u h svUnit stDone))) ∧
    (selfAliased b = true → ∀ i, i = .bypassForceClose h t ∨ i = .bypassForceRelease h t →
      ∃ u, exec i s = .next u ∧ Ends b u h svUnit stMalformed ∧ u.rings = b.rings) ∧
    (∀ da n bad lost c, s.sec.fwHdr ≠ some h → (if (r21 b [(da, n)]).isSome then (false, b) else checkRead b da n) = (lost, c) →
      ∃ u, exec (.fwUpdateStart h t da n bad) s = .next u ∧
        match fwRefusal c da n lost with
        | some (st, why) => Ends c u h cmdUnit st ∧ c.qm = b.qm ∧ u.sec = { b.sec with fwReason := why }
        | none => u.qm.cpls = b.qm.cpls ∧ u.sec.fwState = fwWriting ∧ u.sec.fwReason = 0 ∧ u.sec.fwJournal = some b.sec.fwImage ∧
            u.sec.fwImage = b.sec.fwImage ∧ u.sec.fwHdr = some h)) ∧
  (∀ h t da n s, s.sec.fwHdr = some h → s.sec.fwWaiter = some h → s.sec.fwPaused = false →
    (∃ u, exec (.fwUpdateStart h t da n false) s = .next u ∧ Ends s u h cmdUnit stDone ∧ u.sec.fwState = fwTrial ∧
      u.sec.fwImage = srcBytes s da n ∧ 9 ∈ u.sv.warmReqs) ∧
    (∀ old, s.sec.fwJournal = some old → ∃ u, exec (.fwUpdateStart h t da n true) s = .next u ∧ Ends s u h cmdUnit stMalformed ∧
      u.sec.fwImage = old ∧ u.sec.fwReason = 0x0A ∧ u.sec.fwJournal = none)) ∧
  (∀ ok h s old, s.sec.fwState = fwWriting → s.sec.fwPaused = true → s.sec.fwWaiter = some h → s.sec.fwJournal = some old →
    ∃ u, exec (.holdupWaitExpiry ok) s = .next u ∧ Ends s u h cmdUnit stMalformed ∧ u.sec.fwImage = old ∧ u.sec.fwReason = 0x02 ∧
      u.sec.fwState = (if ok then fwFallback else fwNone)) ∧
  (∀ a (v : Word64) s,
    (a = .mMode ∧ bit v.toNat 0 = true ∧ 3 ≤ s.sec.fwSteps ∧ s.sec.fwState = fwTrial ∧ s.sec.trial < 120000000000 →
      ∃ u, exec (.fwConfirm a v) s = .next u ∧ u.sec.fwState = fwCommitted ∧ u.sec.confirmed = true ∧ u.sec.fwJournal = none ∧
        (s.sec.fwRaise = true → fwFloor u = s.sec.fwVersion % 2 ^ 32)) ∧
    (a ≠ .mMode ∨ bit v.toNat 0 = false ∨ s.sec.fwSteps < 3 ∨ s.sec.fwState ≠ fwTrial ∨ 120000000000 ≤ s.sec.trial →
      exec (.fwConfirm a v) s = .next s))

/-- The operations of R442, b being the state once their operands are read. KEY_AGREE goes by its table: a KEY_NUM of 0 or active in another slot is
MALFORMED; no owner, or a signature that fails, AUTH_FAIL; an old AGREE_CTR, COUNTER_REPLAY; else its slot holds the new key, active, with a
last accepted counter of 0, and AGREE_CTR is recorded (R444). KEY_RETIRE empties its slot (R445). OWNER_SET installs the first owner unsigned
and a later one by its table, empties every key slot and clears the owner lock (R443). QUOTE writes its record, 18,528 or 34,912 bytes, at
OUT_DA and nowhere else (R446). -/
def Obligations.KeysOwnerAndQuote : Prop :=
  (∀ h slot num ctr ctDa sigDa s b, canStart s h = true → readOperands s h [(ctDa, 1088), (sigDa, 16224)] = .inr b →
    let msg := Config.sha256 (b.sec.deviceId ++ leBytes 8 ctr ++ leBytes 4 num ++ leBytes 1 slot ++ Config.sha256 (readBytes b.mem ctDa 1088))
    ∃ t, exec (.keyAgree h slot num ctr ctDa sigDa) s = .next t ∧
      (num = 0 ∨ (∃ p, p ∈ s.sec.keys ∧ p.1 ≠ slot ∧ p.2.active = true ∧ p.2.num = num) → Ends s t h cmdUnit stMalformed ∧ t.sec = s.sec) ∧
      (num ≠ 0 → (∀ p, p ∈ s.sec.keys → p.1 ≠ slot → p.2.active = true → p.2.num ≠ num) →
        (ownerKey s = none → Ends s t h cmdUnit stAuth ∧ t.sec = s.sec) ∧
        (∀ k, ownerKey s = some k →
          if Config.slhVerify k msg (readBytes b.mem sigDa 16224) = false then Ends s t h cmdUnit stAuth ∧ t.sec = s.sec
          else if ctr ≤ agreeCtr s then Ends s t h cmdUnit stReplay ∧ t.sec = s.sec
          else Ends s t h cmdUnit stDone ∧ agreeCtr t = ctr % 2 ^ 64 ∧ (∀ j, j ≠ slot → look t.sec.keys j = look s.sec.keys j) ∧
            ∃ x, look t.sec.keys slot = some { num := num, active := true, exhausted := false, last := 0, secret := x }))) ∧
  (∀ h slot s, canStart s h = true →
    ∃ t, exec (.keyRetire h slot) s = .next t ∧ Ends s t h cmdUnit stDone ∧ t.sec = { s.sec with keys := del s.sec.keys slot }) ∧
  (∀ h keyDa sigDa ctr s b, canStart s h = true →
    readOperands s h (if (ownerKey s).isSome then [(keyDa, 48), (sigDa, 16224)] else [(keyDa, 48)]) = .inr b →
    let key := readBytes b.mem keyDa 48
    let msg := Config.sha256 (b.sec.deviceId ++ Config.sha256 key ++ leBytes 8 ctr)
    let installed (t : State) : Prop :=
      Ends s t h cmdUnit stDone ∧ ownerKey t = some key ∧ t.sec.keys = [] ∧ ownerLock t = false ∧ agreeCtr t = ctr % 2 ^ 64
    ∃ t, exec (.ownerSet h keyDa sigDa ctr) s = .next t ∧
      (ownerKey s = none → installed t) ∧
      (∀ k, ownerKey s = some k →
        if Config.slhVerify k msg (readBytes b.mem sigDa 16224) = false then Ends s t h cmdUnit stAuth ∧ t.sec = s.sec
        else if ctr ≤ agreeCtr s then Ends s t h cmdUnit stReplay ∧ t.sec = s.sec
        else installed t)) ∧
  (∀ h da len cert nonce s,
    let n := if cert = true then 34912 else 18528
    canStart s h = true → 1 ≤ h.ext → n ≤ len → checkOut s h [(da, n)] = none → MemOk s → da < farBase →
    ∃ t, exec (.quote h da len cert nonce) s = .next t ∧ Ends s t h cmdUnit stDone ∧ Stored s t da (quoteBytes s cert nonce) ∧
      (quoteBytes s cert nonce).length = n) ∧
  (∀ h da len cert nonce s, canStart s h = true → (h.ext = 0 ∨ len < (if cert = true then 34912 else 18528)) →
    ∃ t, exec (.quote h da len cert nonce) s = .next t ∧ Ends s t h cmdUnit stMalformed ∧ Same { free := true, qm := true } s t)

/-- An accepted IMAGE_LOAD goes by R332: from another queue than 0, or while another load or an update is under way, it is refused with REASON
0x01 or 0x02; then by what the source's own checks say; with CHECK_ONLY it completes after them; else the CARRY row refuses it or it is
staged, the image in force unchanged. A TWIN_TAKEOVER and a TN_HANDBACK go by R401 and R405 before the same rows. COMMIT_POINT changes
nothing before the package is quiet; then pending entries without DROP_PENDING refuse the load, REASON 0x0C, or the staged image comes into
force and the command completes, an IMAGE_LOAD with DONE (R334). -/
def Obligations.LoadsAndTheirCommit : Prop :=
  (∀ h t op s slot k, Accepted s h t slot k →
    let b := acceptCounter s slot k t.counter
    (¬(h.queue = 0 ∧ loading s (· == 0) = true) →
      ∃ u, exec (.imageLoad h t op) s = .next u ∧
        if h.queue ≠ 0 then LoadRefused b u h (stMalformed, 0x01, 0, 0)
        else if b.sec.fwState = fwWriting ∨ b.sec.fwState = fwRestoring ∨ b.img.staged ≠ none then LoadRefused b u h (stMalformed, 0x02, 0, 0)
        else match sourceChecks b op with
          | (.inl n, c) => LoadRefused c u h n
          | (.inr i, c) => if op.checkOnly = true then LoadRefused c u h (stDone, 0, 0, 0) else CarriedOrRefused c u h op 0 i) ∧
    (∃ u, exec (.twinTakeover h t op) s = .next u ∧
      match takeoverNo b op with
      | some st => Ends b u h cmdUnit st ∧ u.img = b.img
      | none => match sourceChecks b op with
        | (.inl n, c) => LoadRefused c u h n
        | (.inr i, c) => CarriedOrRefused c u h op 1 i ∧ (carryBad c true i = none → u.twin.log = [] ∧ u.twin.takeover = u.twin.shadowStep))) ∧
  (∀ h op s, canStart s h = true →
    ∃ u, exec (.tnHandback h op) s = .next u ∧
      if h.queue ≠ 0 ∨ serves s = false ∨ s.twin.converged = false ∨ s.img.staged ≠ none ∨ fwBusy s = true then
        Ends s u h cmdUnit stMalformed ∧ u.img = s.img
      else match sourceChecks s op with
        | (.inl n, c) => LoadRefused c u h n
        | (.inr i, c) => CarriedOrRefused c u h op 2 i) ∧
  (∀ s, s.img.staged = none → exec .commitPoint s = .next s) ∧
  (∀ s x, s.img.staged = some x → quiesced s x = false → exec .commitPoint s = .next s) ∧
  (∀ s x, s.img.staged = some x → quiesced s x = true →
    ∃ u, exec .commitPoint s = .next u ∧ u.img.staged = none ∧
      (s.mu.pend ≠ [] → ¬(x.op.dropPending = true ∧ x.kind = 0) →
        u.img.inForce = s.img.inForce ∧ u.img.reason = 0x0C ∧ Ends s u x.hdr cmdUnit stMalformed) ∧
      (s.mu.pend = [] ∨ (x.op.dropPending = true ∧ x.kind = 0) →
        u.img.inForce = some x.image ∧ u.img.reason = 0 ∧
        ∃ l st e, e < 2 ^ 32 ∧ u.qm.cpls = l ++ [completionOf x.hdr cmdUnit st e] ∧ (x.kind = 0 → st = stDone)))

/-- On a die that is up: SWAP with its bit set exchanges the route banks of that die alone (R39). TC_CREDIT_WRITE takes five depths of at most 160
flits in all from CMD firmware at step 10 of a load, its package quiet (R45; when that is, the model's choice, log entry 18), and CK_PLAN_WRITE
the die's divisors from CMD firmware while a load is in progress and the die's engines are quiesced (R55); both are discarded in full otherwise.
REJOIN attaches the first detached receiver that GZ.MC_SEL names, of the source die, at the next 64 KiB boundary and reserves its report slot
(R320); with its bit clear, or with no such receiver, it does nothing. A FIRE queues one Datum request, or is dropped and counted when 16 are queued
(R60). RESYNC drops the requests queued, sets every count and error to 0, leaves no descriptor armed and unstarted on a die that samples Datum, and
queues the FIRE of the same write after it (R63). -/
def Obligations.ClockAndRouterWrites : Prop :=
  (∀ d (v : Word64) s, dieUp s d = true →
    (bit v.toNat 0 = true → ∃ t, exec (.swap d v) s = .next t ∧ Same { gz := true } s t ∧ t.gz.routes = s.gz.routes ∧
      activeBank t d = 1 - activeBank s d ∧ ∀ e, e ≠ d → activeBank t e = activeBank s e) ∧
    (bit v.toNat 0 = false → exec (.swap d v) s = .next s)) ∧
  (∀ d a (v : Word64) s, dieUp s d = true →
    (a = .mMode → atStepTen s = true → (depthsOf v.toNat).sum ≤ 160 →
      ∃ t, exec (.tcCreditWrite d a v) s = .next t ∧ Same { gz := true } s t ∧
        ∀ k, k < 5 → look t.gz.newDepths (d * 8 + k) = (depthsOf v.toNat)[k]?) ∧
    (a ≠ .mMode ∨ atStepTen s = false ∨ 160 < (depthsOf v.toNat).sum → exec (.tcCreditWrite d a v) s = .next s)) ∧
  (∀ d a (v : Word64) s, dieUp s d = true → d ≠ 1 →
    (a = .mMode → dieQuiesced s d = true → ∃ t, exec (.ckPlanWrite d a v) s = .next t ∧ Same { ck := true } s t ∧
      t.ck = { s.ck with plan := put s.ck.plan d (if isTw d then bits v.toNat 1 0 else if isMu d then 16 * bits v.toNat 4 4 else 0) }) ∧
    (a ≠ .mMode ∨ dieQuiesced s d = false → exec (.ckPlanWrite d a v) s = .next s)) ∧
  (∀ d (v : Word64) s, dieUp s d = true →
    (∀ m, bit v.toNat 0 = true → (selMembers s d).find? (fun m => !(mcRecvOf s m).attached) = some m →
      ∃ t, exec (.rejoin d v) s = .next t ∧ mcRecvOf t m = rejoined m (joinAt s m) (mcRecvOf s m) ∧ (mcRecvOf t m).attached = true ∧
        (mcRecvOf t m).join = roundUp (look0 s.gz.mcPos (fld m 0)) 65536 ∧
        ringOf t (fld m 4) = { ringOf s (fld m 4) with resv := (ringOf s (fld m 4)).resv + 1 }) ∧
    (bit v.toNat 0 = false ∨ (selMembers s d).find? (fun m => !(mcRecvOf s m).attached) = none → exec (.rejoin d v) s = .next s)) ∧
  (∀ s, dieUp s 0 = true → ∃ t, exec .datumCtlFire s = .next t ∧ Same { ck := true, sounds := true, seqNo := true } s t ∧
    (s.ck.pending < 16 ∨ s.ck.dropCnt ≠ 2 ^ 48 - 1 → t.sounds = s.sounds ∧ t.seqNo = s.seqNo) ∧
    (16 ≤ s.ck.pending → s.ck.dropCnt = 2 ^ 48 - 1 → t.sounds = (emitSounding s 0 63 1 [regBase + 0x4030, 0]).sounds) ∧
    (s.ck.pending < 16 → t.ck = { s.ck with pending := s.ck.pending + 1 }) ∧
    (16 ≤ s.ck.pending → t.ck = { s.ck with dropCnt := min (s.ck.dropCnt + 1) (2 ^ 48) })) ∧
  (∀ f s, dieUp s 0 = true → ∃ t, exec (.resync f) s = .next t ∧ t.ck.count = [] ∧ t.ck.err = [] ∧ t.ck.sent = 0 ∧ t.ck.pending = b2n f ∧
    ∀ x, x ∈ t.qm.disp → x.armed = true → x.started = false → x.unit.die ∉ datumDies)

/-- On a die that is up: COUNTER_CLEAR clears the counter and its SAT bit and no other register (R430). DIR_LOOKUP shows the state, the flags and
the place of a row that has a directory entry, and PRESENT = 0 for one that has none (R217). FAULT_CLEAR clears exactly the sticky bits asked
for, counts a recovery when none is left, and clears none while LOCKED (R421). CT_CTL_WRITE takes effect when SETPOINT lies in 1000 to PCAP and
SLEW in 1 to 1000, and is discarded in full otherwise (R463). WARM_REQ makes a warm reset due from M-mode alone (R486). INJECT is discarded
outside factory mode, and does nothing without GO beyond holding its fields; with GO it applies its KIND (R433). -/
def Obligations.ControlRegisterWrites : Prop :=
  (∀ d off s, TablesOk s → dieUp s d = true → isCounter d off = true →
    ∃ t, exec (.counterClear d off) s = .next t ∧ Same { regs := true } s t ∧ regGet t d off 0 (ctrSel s d off) = 0 ∧
      ∀ k, k ≠ regKey d off (ctrSel s d off) → look t.regs k = look s.regs k) ∧
  (∀ d (v : Word64) s, isMu d = true → dieUp s d = true → bit v.toNat 63 = true →
    ∃ t, exec (.dirLookup d v) s = .next t ∧ Same { regs := true } s t ∧
      regGet t d 0x11080 = bits v.toNat 11 0 + 2 ^ 16 * bits v.toNat 46 16 ∧
      match dirOf s (d - 18) (bits v.toNat 11 0) (bits v.toNat 46 16) with
      | none => bit (regGet t d 0x11088) 2 = false
      | some e => regGet t d 0x11090 = e.dest ∧ bit (regGet t d 0x11088) 2 = true ∧
          bits (regGet t d 0x11088) 1 0 = (match e.st with | .resident => 0 | .draining => 1 | .moving => 2 | .forwarding => 3) ∧
          bit (regGet t d 0x11088) 3 = e.poisoned ∧ bit (regGet t d 0x11088) 4 = e.pendingF ∧ bit (regGet t d 0x11088) 5 = e.paged) ∧
  (∀ i (v : Word64) s, dieUp s 0 = true →
    (s.sv.locked = true → exec (.faultClear i v) s = .next s) ∧
    (s.sv.locked = false → ∃ t, exec (.faultClear i v) s = .next t ∧ Same { sv := true, sounds := true, seqNo := true } s t ∧
      (s.sv.recovery < 2 ^ 32 - 1 ∨ s.sv.recoverySat = true → t.sounds = s.sounds) ∧
      t.sv.sticky = s.sv.sticky.filter (fun k => !(k / 64 == i && bit v.toNat (k % 64))) ∧
      (t.sv.sticky ≠ [] ∨ s.sv.sticky = [] → t.sv.recovery = s.sv.recovery ∧ t.sv.quiet = s.sv.quiet) ∧
      (t.sv.sticky = [] → s.sv.sticky ≠ [] → t.sv.recovery = min (s.sv.recovery + 1) (2 ^ 32 - 1) ∧ t.sv.quiet = 0))) ∧
  (∀ (v : Word64) s, dieUp s 0 = true →
    let ok := 1000 ≤ bits v.toNat 15 4 ∧ bits v.toNat 15 4 ≤ s.sv.pcap ∧ 1 ≤ bits v.toNat 25 16 ∧ bits v.toNat 25 16 ≤ 1000
    (ok → ∃ t, exec (.ctCtlWrite v) s = .next t ∧ Same { ct := true } s t ∧ t.ct.mode = bits v.toNat 1 0 ∧ t.ct.setpoint = bits v.toNat 15 4 ∧
      t.ct.slew = bits v.toNat 25 16 ∧ t.ct.soundMs = bits v.toNat 41 32) ∧
    (¬ok → exec (.ctCtlWrite v) s = .next s)) ∧
  (∀ a (v : Word64) s, dieUp s 0 = true →
    (a = .mMode → bit v.toNat 0 = true → ∃ t, exec (.warmReq a v) s = .next t ∧ Same { sv := true } s t ∧ 12 ∈ t.sv.warmReqs) ∧
    (a ≠ .mMode ∨ bit v.toNat 0 = false → exec (.warmReq a v) s = .next s)) ∧
  (∀ (v : Word64) s,
    let kept := bits v.toNat 7 0 + 2 ^ 8 * bits v.toNat 13 8 + 2 ^ 16 * bits v.toNat 18 16
    (s.sv.factory = false → exec (.inject v) s = .next s) ∧
    (s.sv.factory = true → ∃ t, exec (.inject v) s = .next t ∧ t.sv.inject = kept ∧
      (bit v.toNat 63 = false → t = s.onSv fun x => { x with inject := kept }) ∧
      (bit v.toNat 63 = true →
        (bits v.toNat 18 16 = 0 → srcInject ∈ t.sv.sticky ∧ (srcExists (bits v.toNat 7 0) = true → bits v.toNat 7 0 ∈ t.sv.sticky)) ∧
        (bits v.toNat 18 16 = 1 → bits v.toNat 13 8 ∈ t.mu.corrupt) ∧
        (bits v.toNat 18 16 = 2 → bits v.toNat 13 8 ∈ t.tw.cbFlip) ∧
        (bits v.toNat 18 16 = 3 → t.sv.armedInj = s.sv.armedInj ++ [(3, bits v.toNat 13 8)]) ∧
        (bits v.toNat 18 16 = 4 → bits v.toNat 13 8 ∈ t.sv.suppress))))

/-- With CMD up: PANEL_RST with GO asks for the reset of a FAULTED panel, RESULT 1, and answers 3 for any other. PER_PANEL_RESET, when asked for
and the step is at its end or idle, puts every core of the panel on a die that is up in IDLE with nothing held, every queue of it at its start
and every stream of it in IDLE and empty, and RESULT becomes 2; unasked, or in a step, it does nothing. MBOX_GO with GO answers MALFORMED to an
opcode that queue 0 does not take, is counted and discarded while BUSY, and otherwise posts the entry with its SEAL. HSTREAM_FILL makes the
chunks within the credits visible and counts the others. SNAP_HOST_REL holds the host's position. A REG_WRITE takes effect only with all 8 bytes
enabled, at an aligned offset of a die that is up, and writes a plain register within its writable bits. -/
def Obligations.PanelMailboxAndPlainWrites : Prop :=
  (∀ (v : Word64) s, dieUp s 0 = true →
    ∃ t, exec (.panelRst v) s = .next t ∧ Same { regs := true, sv := true } s t ∧
      (bit v.toNat 8 = false → t.sv = s.sv ∧ regGet t 0 0xC0000 = bits v.toNat 5 0 + regGet s 0 0xC0000 / 2 ^ 16 * 2 ^ 16) ∧
      (bit v.toNat 8 = true → panelFaulted s (bits v.toNat 5 0) = true →
        bits v.toNat 5 0 ∈ t.sv.panelReqs ∧ regGet t 0 0xC0000 = bits v.toNat 5 0 + 1 * 2 ^ 16) ∧
      (bit v.toNat 8 = true → panelFaulted s (bits v.toNat 5 0) = false →
        t.sv = s.sv ∧ regGet t 0 0xC0000 = bits v.toNat 5 0 + 3 * 2 ^ 16)) ∧
  (∀ p s, rising none s.tw.cores = true → p ∈ s.sv.panelReqs → s.seq.run = none ∨ s.seq.phase = 0 →
    ∃ t, exec (.perPanelReset p) s = .next t ∧
      (∀ g, g ∈ panelCores s p → dieUp s (2 + g / 4) = true → coreOf t g = {}) ∧
      (∀ q, q ∈ panelQueues s p → queueOf t q = freshQueue) ∧
      (∀ r, r ∈ sect s 0x13 → fld r 1 = p → (strmOf t (fld r 0)).st = sIdle ∧ (strmOf t (fld r 0)).fill = 0 ∧ (strmOf t (fld r 0)).rel = 0) ∧
      (bits (regGet s 0 0xC0000) 5 0 = p → regGet t 0 0xC0000 = bits (regGet s 0 0xC0000) 15 0 + 2 * 2 ^ 16)) ∧
  (∀ p s, p ∉ s.sv.panelReqs ∨ (s.seq.run ≠ none ∧ s.seq.phase ≠ 0) → exec (.perPanelReset p) s = .next s) ∧
  (∀ (v : Word64) s, dieUp s 0 = true → bit v.toNat 2 = false →
    let op := ((mboxBytes s).headD 0).toNat
    (bit v.toNat 0 = false → exec (.mboxGo v) s = .next s) ∧
    (bit v.toNat 0 = true → s.host.busy = true → exec (.mboxGo v) s = .next (bump s 0 0x50010)) ∧
    (bit v.toNat 0 = true → s.host.busy = false → ¬(0x10 ≤ op ∧ op ≤ 0x1F) → op ≠ 0x39 →
      ∃ t, exec (.mboxGo v) s = .next t ∧ t.host.done = true ∧ t.host.busy = false ∧ t.host.lo % 256 = stMalformed ∧
        t.qm = { s.qm with msix := s.qm.msix ++ [0] }) ∧
    (∀ r, bit v.toNat 0 = true → s.host.busy = false → (0x10 ≤ op ∧ op ≤ 0x1F) ∨ op = 0x39 → queueRec s 0 = some r →
      (let u := queueOf s 0; posDiff (queueSize r) (posNum (queueSize r) u.head u.headGen) (posNum (queueSize r) u.tail u.tailGen) ≠ queueSize r) →
      ∃ t, exec (.mboxGo v) s = .next t ∧ t.host.busy = true ∧ t.host.mboxIdx = some ((queueOf s 0).tail, (queueOf s 0).tailGen) ∧
        t.mem = (writeMem s (entryDa r (queueOf s 0).tail) ((mboxBytes s).take 0x3E ++ leBytes 2 (queueOf s 0).tailGen ++ (mboxBytes s).drop 0x40)).mem ∧
        ((queueOf t 0).tail, (queueOf t 0).tailGen) = nextPos (queueSize r) ((queueOf s 0).tail, (queueOf s 0).tailGen))) ∧
  (∀ (v : Word64) s, dieUp s 0 = true →
    let n := regGet s 0 0x50040
    let x := strmOf s n
    let k := bits v.toNat 15 0
    (streamRec s n = none → exec (.hstreamFill v) s = .next (bumpBy s 0 0x50010 k)) ∧
    (∀ r, streamRec s n = some r → fld r 2 ≠ 2 ∨ x.st = sAborted → exec (.hstreamFill v) s = .next (bumpBy s 0 0x50010 k)) ∧
    (∀ r, streamRec s n = some r → fld r 2 = 2 → x.st ≠ sAborted →
      ∃ t, exec (.hstreamFill v) s = .next t ∧ (strmOf t n).credits = x.credits - min k x.credits ∧
        (strmOf t n).fill = (x.fill + min k x.credits * 2 ^ fld r 7) % 2 ^ 64 ∧
        ∃ u, t.regs = (bumpBy u 0 0x50010 (k - min k x.credits)).regs ∧
          (u.regs = s.regs ∨
            x.credits ≤ k ∧ ∃ c, u.regs = (bumpBy s (consumerDie r) (if isTw (consumerDie r) then 0x19020 else 0x13070) c).regs))) ∧
  (∀ (v : Word64) s, dieUp s 0 = true → s.snap = none → exec (.snapHostRel v) s = .next (regSet s 0 0x80038 (v.toNat % 2 ^ 40))) ∧
  (∀ d off a mask (v : Word64) s,
    (mask ≠ 255 ∨ dieUp s d = false ∨ off % 8 ≠ 0 → exec (.regWrite d off a mask v) s = .next s) ∧
    (∀ m, mask = 255 → dieUp s d = true → off % 8 = 0 → (d = 1 → off < 0x10000) → isCounter d off = false → plainMask d off = some m →
      ∃ t, exec (.regWrite d off a mask v) s = .next t ∧ Same { regs := true } s t ∧ regGet t d off = v.toNat &&& m))

/-- An ST_REARM that its checks refuse completes with their status, one of an ABORTED stream without RESTART with the status that aborted it;
otherwise SET installs the entry, and it completes with DONE, a RESTART of a stream with an entry in progress alone being held until that one
ends (R263). An ST_RELEASE waits for the earlier descriptors of its unit; it is refused, or REL advances by its bytes and it completes with
DONE. A stall budget that expires reports a stream with work queued once (R67, R71), and the arbiter aborts the one that ranks last, which loses
its credits unless a RESTART waits, and counts. Bytes of a group leave their source when they are the next ones, every attached receiver's
ACKED lets them go and the panel stands (R317, R320): they join the replay window. A multicast message delivered at a receiver is ignored by one
detached or ABORTED or that holds its bytes, discarded and counted without room in the window, and else written at its position, FILL following
what is held without a gap (R317, R318). A source that is 4 MiB ahead of its slowest receiver detaches the slowest, and, when all of them are
equally far, waits (R319). -/
def Obligations.StreamsAndMulticast : Prop :=
  (∀ h op s, canStart s h = true →
    let u := targetUnit s (.stRearm h op)
    let x := strmOf s op.stream
    ∃ t, exec (.stRearm h op) s = .next t ∧
      match rearmRefusal s h op with
      | some st => Ends s t h u st ∧ t.streams = s.streams
      | none =>
        if x.st = sAborted ∧ op.restart = false then Ends s t h u x.abort ∧ t.streams = s.streams
        else if op.restart = false then
          Ends s t h u stDone ∧ strmOf t op.stream = if op.set = true then { x with sched := put x.sched op.seg (op.wrap, op.pieces) } else x
        else if x.st = sIdle ∨ x.st = sAborted ∨ x.cur = none then ∃ l e, e < 2 ^ 32 ∧ t.qm.cpls = l ++ [completionOf h u stDone e]
        else t.qm.cpls = s.qm.cpls ∧ (strmOf t op.stream).rearm = x.rearm ++ [(h, op)]) ∧
  (∀ h n core bytes s, canStart s h = true →
    (earlierOnUnit s h = true → exec (.stRelease h n core bytes) s = .next s) ∧
    (earlierOnUnit s h = false → ∃ t, exec (.stRelease h n core bytes) s = .next t ∧
      match releaseRefusal s h n core bytes with
      | some st => Ends s t h (relUnit core) st ∧ t.streams = s.streams
      | none => (∃ l e, e < 2 ^ 32 ∧ t.qm.cpls = l ++ [completionOf h (relUnit core) stDone e]) ∧
          ∀ r, streamRec s n = some r → fld r 2 ≠ 0 → (strmOf t n).rel = ((strmOf s n).rel + bytes) % 2 ^ 64)) ∧
  (∀ n r s, streamRec s n = some r →
    (strmWork s n r = true → (strmOf s n).reported = false →
      ∃ t, exec (.stallBudgetExpiry n) s = .next t ∧ strmOf t n = { strmOf s n with reported := true } ∧ strmSource r ∈ t.sv.sticky ∧
        t.regs = (bump s (consumerDie r) 0x4020).regs) ∧
    (strmWork s n r = false ∨ (strmOf s n).reported = true → exec (.stallBudgetExpiry n) s = .next s)) ∧
  (∀ s, (arbitrated s = none → exec .stallArbiterDecision s = .next s) ∧
    (∀ n, arbitrated s = some n → (∀ x ∈ (strmOf s n).rearm, x.2.restart = false) → ∃ t, exec .stallArbiterDecision s = .next t ∧
      (strmOf t n).st = sAborted ∧ (strmOf t n).abort = stStall ∧ (strmOf t n).credits = 0)) ∧
  (∀ f s, f.op = 0x0A → fromSource s f = true →
    let g := f.mgroup
    let p := look0 s.gz.mcPos g
    let may := f.oparg % 2 ^ 48 = p % 2 ^ 48 ∧ panelFaulted s f.panel = false ∧
      ∀ m ∈ attachedOf s g, p + f.payload.length ≤ ackedAt (mcRecvOf s m) + replayWindow
    (¬ may → exec (.mcastData f) s = .next s) ∧
    (may → ∃ b, Same { gz := true } s b ∧ look0 b.gz.mcPos g = p + f.payload.length ∧
      (lookD b.gz.mcWin g []).length ≤ replayWindow ∧ (∃ old, old ++ lookD b.gz.mcWin g [] = lookD s.gz.mcWin g [] ++ f.payload) ∧
      exec (.mcastData f) s = .next (landMcast (sendRemotes b) f))) ∧
  (∀ f s a d m r, f.op = 0x0A → fromSource s f = false → arriveAll s f = ([d], a) → dieUp a d.dst = true → mcOfFlit a d = some m →
    streamRec a (fld m 5) = some r → (coreConsumer r = false ∨ panelOfCore a (fld r 5) = some d.panel) →
    let v := mcRecvOf a m
    let p := nearPos v.held (d.oparg % 2 ^ 48)
    let hi := p + d.payload.length
    let lo := max p v.held
    let bs := d.payload.drop (lo - p)
    ∃ t, exec (.mcastData f) s = .next t ∧
      if v.attached = false ∨ (strmOf a (fld m 5)).st = sAborted ∨ hi ≤ v.held then t = a
      else if winBytes r < (hi + 2 ^ 64 - (strmOf a (fld m 5)).rel) % 2 ^ 64 then
        t.streams = a.streams ∧ t.mem = a.mem ∧ t.tw = a.tw ∧ mcRecvOf t m = { v with discarded := true } ∧
        t.regs = (bumpBy a d.dst 0x1078 (max 1 (ceilDiv d.payload.length 192))).regs
      else winBad a r lo bs.length = false → t.mem = (winWrite a r lo bs).mem ∧ t.tw = (winWrite a r lo bs).tw ∧
        (mcRecvOf t m).held = (v.hold lo hi).held ∧ (strmOf t (fld m 5)).fill = (v.hold lo hi).held) ∧
  (∀ g s, (attachedOf s g = [] → exec (.mcDetach g) s = .next s) ∧
    (∀ lo, ((attachedOf s g).map fun m => ackedAt (mcRecvOf s m)).min? = some lo →
      (look0 s.gz.mcPos g < lo + replayWindow → exec (.mcDetach g) s = .next s) ∧
      (lo + replayWindow ≤ look0 s.gz.mcPos g → (∀ m ∈ attachedOf s g, ackedAt (mcRecvOf s m) = lo) → ∃ t, exec (.mcDetach g) s = .next t ∧
        Same { free := true, regs := true, streams := true, sounds := true, seqNo := true } s t ∧
        ∀ m ∈ attachedOf s g, fld m 6 = 0 → streamRec s (fld m 5) ≠ none → (strmOf t (fld m 5)).st ≠ sRun) ∧
      (lo + replayWindow ≤ look0 s.gz.mcPos g → (∃ m ∈ attachedOf s g, ackedAt (mcRecvOf s m) ≠ lo) → ∃ t, exec (.mcDetach g) s = .next t ∧
        ∀ m ∈ attachedOf s g, ackedAt (mcRecvOf s m) = lo → (mcRecvOf t m).attached = false)))

/-- An INDEP TW_MATMUL on a tile in flight completes with the alias status and sets its core's source (R149). One that may start is refused by the
first of R130's checks, waits for the tiles and the window bytes it names, is refused by a STALE tile it accumulates on and by a window it
crosses, and takes an aborted stream's status, its tiles STALE after STALL_BUDGET (R150); one that ends so gives up a weight set loaded for it
(R148). Otherwise, no buffer word being uncorrectable, it completes with DONE, and the weight tag names its weights unless it reused the set
(R113). A TW_DRAIN goes the same way without weights. A TW_MAX and a TW_MIN that pass their checks write
one 8-byte record for each segment from O_OFF upward, and no other byte of any buffer. -/
def Obligations.TwillOperations : Prop :=
  (∀ h op s, op.indep = true → mayBegin s h = true → matmulRefusal s h op = none → tilesInFlight s h op = true →
    ∃ t, exec (.twMatmul h op) s = .next t ∧ Ends s t h (coreUnit op.core) stAlias ∧ srcOfUnit (coreUnit op.core) ∈ t.sv.sticky) ∧
  (∀ h op s, canStart s h = true → (op.indep = true → matmulRefusal s h op = none → tilesInFlight s h op = false) →
    let b := dropShadow s op.core h
    let left (st : Nat) : State := if st = stStall then staleTiles b op.core op.tile (if op.arr then ceilDiv op.m 64 else 1) else b
    ∃ t, exec (.twMatmul h op) s = .next t ∧
      match matmulRefusal s h op with
      | some st => Ends s t h (coreUnit op.core) st ∧ t.tw = (left st).tw
      | none =>
        if tilesInFlight s h op = true then t = s
        else if op.acc = true ∧ anyStale s op = true then Ends s t h (coreUnit op.core) stMalformed ∧ t.tw = b.tw
        else match winMeets s (coreWindows s op.core) (startRanges s h op) with
          | .bad => Ends s t h (coreUnit op.core) stMalformed ∧ t.tw = b.tw
          | .wait => t = setWaits s h (startRanges s h op)
          | .aborted st => Ends s t h (coreUnit op.core) st ∧ t.tw = (left st).tw
          | .ok => CbSound s → Ends s t h (coreUnit op.core) stDone ∧ (coreOf t op.core).arr = op.arr ∧
              (op.wReuse = false → (coreOf t op.core).tagValid = true ∧ (coreOf t op.core).tagOff = op.wOff ∧
                (coreOf t op.core).tagSpec = op.wSpec ∧ (coreOf t op.core).tagK = op.k ∧ (coreOf t op.core).tagN = op.n)) ∧
  (∀ h op s, canStart s h = true → ∃ t, exec (.twDrain h op) s = .next t ∧
    match drainRefusal s h op with
    | some st => Ends s t h (coreUnit op.core) st ∧ t.tw = s.tw
    | none =>
      if tilesInFlight s h op = true then t = s
      else if anyStale s op = true then Ends s t h (coreUnit op.core) stMalformed ∧ t.tw = s.tw
      else CbSound s → Ends s t h (coreUnit op.core) stDone ∧ (coreOf t op.core).arr = op.arr ∧ t.tw.lanes = s.tw.lanes ∧ t.tw.tiles = s.tw.tiles) ∧
  (∀ low h op s, canStart s h = true → ∃ t, exec (if low = true then .twMin h op else .twMax h op) s = .next t ∧
    match maxRefusal s h op with
    | some st => Ends s t h (coreUnit op.core) st ∧ t.tw = s.tw
    | none => CbSound s → rising none s.tw.cb = true → Ends s t h (coreUnit op.core) stDone ∧
        ∀ k, lookD t.tw.cb k 0 =
          if cbKey op.core op.oOff ≤ k ∧ k < cbKey op.core op.oOff + 8 * op.segs then
            (maxRecord s op low ((k - cbKey op.core op.oOff) / 8 * op.segLen)).getD ((k - cbKey op.core op.oOff) % 8) 0
          else lookD s.tw.cb k 0)

/-- An MU_GATHER that its checks refuse completes with their status. One of a single bag into memory, its offsets and indices readable, its rows
answered and no panel fault having ended it meanwhile, writes the bag's codes at ADDR and its scales at SCALE_ADDR, and completes with DONE,
with DONE_PARTIAL when an index was skipped, or with DONE_POISON when a row was poisoned. An MU_GRAD_SCATTER is refused, waits for its stream,
or takes an aborted stream's status; otherwise it ends at once with its status when it has no message to send, and waits for the answer to each
message it sent and for room for those it still holds. An MU_LEDGER_ADD is refused or meets lost source data; one message's worth to a local die
is sent with the elements on the grid of ANCHOR and awaited. -/
def Obligations.GatherScatterAndAdd : Prop :=
  (∀ h op s st, canStart s h = true → look s.mu.gatherPos (descKey h) = none → gatherRefusal s h op true = some st →
    ∃ t, exec (.muGather h op) s = .next t ∧ Ends s t h (engUnit op.engine) st ∧ t.mem = s.mem) ∧
  (∀ h op s tr lo hi a items b g, canStart s h = true → h.system = false → look s.mu.gatherPos (descKey h) = none →
    gatherRefusal s h op true = none → tableRec s op.table = some tr → op.kind = 0 → op.nBags = 1 → op.poisonMap = false →
    bagRange (markStarted s h) op 0 = (.inr (lo, hi), a) → bagItems a op (tPool tr == 2) lo hi = (some items, b) →
    gatherIndices op.engine op.table tr { st := b } items = some g →
    let c := bagCodes g.st op tr g
    let x := writeMem c.2 op.addr (packOver (fmtWidth (specFmt op.spec)) c.1.1 (readBytes c.2.mem op.addr (rowLen op tr)))
    ((findDisp s h).isSome = true → (findDisp c.2 h).isSome = true) →
    ∃ t, exec (.muGather h op) s = .next t ∧ t.mem = (writeMem x op.scaleAddr (c.1.2.map (BitVec.ofNat 8))).mem ∧
      ∃ l e, e < 2 ^ 32 ∧
        t.qm.cpls = l ++ [completionOf h (engUnit op.engine) (if g.bad || g.poisoned then stPoison else if g.skipped then stPartial else stDone) e]) ∧
  (∀ h op s, canStart s h = true → look s.mu.gatherPos (descKey h) = none → ∃ t, exec (.muGradScatter h op) s = .next t ∧
    match gatherRefusal s h op false, tableRec s op.table with
    | some st, _ => Ends s t h (engUnit op.engine) st ∧ t.mem = s.mem
    | none, none => Ends s t h (engUnit op.engine) stMalformed ∧ t.mem = s.mem
    | none, some tr =>
      match scatterMeets s op tr with
      | (.bad, _) => Ends s t h (engUnit op.engine) stMalformed ∧ t.mem = s.mem
      | (.wait, rs) => t = setWaits s h rs
      | (.aborted st, _) => Ends s t h (engUnit op.engine) st ∧ t.mem = s.mem
      | (.ok, _) =>
        let r := scatterBags h op tr op.nBags 0 { st := markStarted s h }
        let g := sendEntries h op tr r.2
        let w : Waiting := { hdr := h, unit := engUnit op.engine, tags := g.tags ++ (if g.held.isEmpty then [] else [moreKey h]),
                             status := if r.1 = stPartial then 0 else r.1, late := r.1 == stPartial }
        t.gz = g.st.gz ∧
        (g.tags = [] ∧ g.held = [] → ∃ l e, e < 2 ^ 32 ∧ t.qm.cpls = l ++ [completionOf h (engUnit op.engine) r.1 e]) ∧
        (¬(g.tags = [] ∧ g.held = []) → ∃ l, t.qm.waiting = l ++ [w]) ∧
        (g.held ≠ [] → look t.mu.gatherPos (descKey h) = some { adds := g.held })) ∧
  (∀ h op s, canStart s h = true → look s.mu.gatherPos (descKey h) = none →
    (∀ st, addRefusal s h op = some st → ∃ t, exec (.muLedgerAdd h op) s = .next t ∧ Ends s t h (engUnit op.engine) st ∧ t.gz = s.gz) ∧
    (addRefusal s h op = none → (checkReads s (addSource op)).1 = true →
      ∃ t, exec (.muLedgerAdd h op) s = .next t ∧ Ends s t h (engUnit op.engine) stEcc ∧ t.gz = s.gz) ∧
    (addRefusal s h op = none → (checkReads s (addSource op)).1 = false → op.remote = false → addMsgs op = 1 →
      let d := engDie op.engine
      let vs := msgValues (checkReads s (addSource op)).2 op 0
      let r : OutReq := { die := d, tag := newTag s d, dst := 18 + op.lMuslin, kind := rkAdd, resv := 1, flits := ceilDiv vs.length 24, remote := false,
                          queue := h.queue, index := h.index, key := some (descKey h), step := h.stamp, dev := op.dev }
      let m : AddMsg := { dst := 18 + op.lMuslin, src := d, tag := newTag s d, panel := (panelOfQueue s h.queue).getD 0, da := op.la,
                          anchor := op.anchor, dense := true, stepTag := h.stamp % 256, words := vs.map (toGrid op.anchor) }
      reqRoom s r = true →
        ∃ t, exec (.muLedgerAdd h op) s = .next t ∧ t.gz.out = s.gz.out ++ [r] ∧ t.gz.adds = s.gz.adds ++ [m]))

/-- An ATOMIC_ADD that arrives at its Muslin die is merged into the bank its STEP_TAG selects and acknowledged, refused with MALFORMED when its
anchor or its panel is not its region's, refused with QUOTA when a new entry finds the pool full, sent on to another ledger die, queued behind a
moving row, or refused as stale; one that has to wait stays in the forward store. An MU_SEAL waits for its edge. The seal takes effect once the
bank of the step before has been released: the open step rises by one, the step sealed stands unreleased, and the heavy-hitter table becomes the
previous one; under another EXPECT_STEP it completes with MALFORMED. An MU_ROW_RESTORE is refused, meets a lost source, or rewrites the row's
record, which is no longer POISONED. -/
def Obligations.AddsSealsAndRestores : Prop :=
  (∀ m s, (m.via = some m.dst → addHeld s m = true → exec (.atomicAdd m) s = .next s) ∧
    (∀ a, ¬(m.via = some m.dst ∧ addHeld s m = true) → arriveAdd s m = (none, a) → exec (.atomicAdd m) s = .next a) ∧
    (∀ g a, ¬(m.via = some m.dst ∧ addHeld s m = true) → arriveAdd s m = (some g, a) → isMu g.dst = true → dieUp a g.dst = true → addHeld a g = true →
      ∃ t, exec (.atomicAdd m) s = .next t ∧ Same { gz := true } a t ∧ t.gz.adds = a.gz.adds ++ [{ g with via := some g.dst }])) ∧
  (∀ m s g a r, ¬(m.via = some m.dst ∧ addHeld s m = true) → arriveAdd s m = (some g, a) → isMu g.dst = true → dieUp a g.dst = true → g.dense = true →
    ledgerRec a (g.dst - 18) (g.da / 2 ^ 40) = some r → fld r 2 ≠ 0 → g.da % 8 = 0 → g.da % 2 ^ 40 / 8 + g.words.length ≤ fld r 10 →
    (regionAnchor r ≠ g.anchor ∨ fld r 3 ≠ g.panel →
      ∃ t, exec (.atomicAdd m) s = .next t ∧ t = answerAdd a g g.dst (.refuse stMalformed)) ∧
    (regionAnchor r = g.anchor → fld r 3 = g.panel → panelFaulted a (fld r 3) = false → tagBank a (g.dst - 18) g.stepTag = some false →
      ∃ t, exec (.atomicAdd m) s = .next t ∧ t.gz = (answerAdd a g g.dst (.ack false)).gz ∧
        t.mu = { a.mu with dense := addDense a.mu.dense (g.dst - 18) (openStep a (g.dst - 18) % 2) (g.da / 2 ^ 40) (g.da % 2 ^ 40 / 8) g.words })) ∧
  (∀ m s g a row, ¬(m.via = some m.dst ∧ addHeld s m = true) → arriveAdd s m = (some g, a) → isMu g.dst = true → dieUp a g.dst = true → g.dense = false →
    rowOfDa a g.table g.da = some row →
    let k := g.dst - 18
    (∀ l, addRoute a k g g.table row = .forward l →
      ∃ t, exec (.atomicAdd m) s = .next t ∧ t.gz = (forwardAdd a k g l).gz ∧ t.mu.entries = a.mu.entries ∧ t.mu.dense = a.mu.dense) ∧
    (addRoute a k g g.table row = .queue → ∀ e, dirOf a k g.table row = some e →
      ∃ t, exec (.atomicAdd m) s = .next t ∧ dirOf t k g.table row = some { e with queued := e.queued ++ [g] } ∧ t.gz.adds = a.gz.adds ∧
        t.mu.entries = a.mu.entries) ∧
    (addRoute a k g g.table row = .stale → ∃ t, exec (.atomicAdd m) s = .next t ∧ t.gz = (answerAdd a g (18 + k) (.refuse stMalformed)).gz ∧
      t.mu = a.mu ∧ (owns a k g.table row = false ∨ g.fwd = true → t.regs = (bump a (18 + k) 0x11058).regs)) ∧
    (∀ tr r, addRoute a k g g.table row = .here → tableRec a g.table = some tr → ledgerRec a k (tRegion tr) = some r → fld r 2 ≠ 1 →
      regionAnchor r = g.anchor → panelFaulted a (fld r 3) = false → tagBank a k g.stepTag = some false →
      let key := entryKey k (openStep a k % 2) g.table row
      ∃ t, exec (.atomicAdd m) s = .next t ∧
        if look a.mu.entries key = none ∧ fld r 6 ≤ entriesUsed a k (openStep a k % 2) (tRegion tr) then
          t.mu = a.mu ∧ t.gz = (answerAdd a g g.dst (.refuse stQuota)).gz
        else t.gz = (answerAdd a g g.dst (.ack false)).gz ∧
          look t.mu.entries key = some (mergeEntry (look a.mu.entries key) g.count false (openStep a k) g.words) ∧
          ∀ j, j ≠ key → look t.mu.entries j = look a.mu.entries j)) ∧
  (∀ h k n s, canStart s h = true → ∃ t, exec (.muSeal h k n) s = .next t ∧
    if dieUp s (18 + k) = false then Ends s t h (ledgerUnit k) stAbsent ∧ t.mu = s.mu
    else if look s.mu.sealWait k ≠ none then t = s
    else look t.mu.sealWait k = some (h, n) ∧ t.qm.cpls = s.qm.cpls) ∧
  (∀ k s, look s.mu.sealWait k = none → exec (.sealTakesEffect k) s = .next s) ∧
  (∀ k h n s, look s.mu.sealWait k = some (h, n) → ∃ t, exec (.sealTakesEffect k) s = .next t ∧
    if look s.mu.unreleased k ≠ none ∨ look s.mu.sealing k ≠ none then t = s
    else if n ≠ openStep s k then Ends s t h (ledgerUnit k) stMalformed ∧ t.mu = { s.mu with sealWait := del s.mu.sealWait k }
    else openStep t k = openStep s k + 1 ∧ look t.mu.unreleased k = some (openStep s k) ∧
      lookD t.mu.heavyPrev k [] = lookD s.mu.heavy k [] ∧ ∀ j, j ≠ k → openStep t j = openStep s j) ∧
  (∀ h k keep table row a s, canStart s h = true → h.system = false →
    (∀ st, restoreRefusal s h k table row a = some st →
      ∃ t, exec (.muRowRestore h k keep table row a) s = .next t ∧ Ends s t h (ledgerUnit k) st ∧ t.mem = s.mem) ∧
    (∀ tr o da, restoreRefusal s h k table row a = none → tableRec s table = some tr → shardPlace s table row = some (o, da) →
      let c := checkRead s a (rowBytes tr)
      let bs := readBytes c.2.mem a (rowBytes tr)
      ∃ t, exec (.muRowRestore h k keep table row a) s = .next t ∧
        if c.1 = true then Ends s t h (ledgerUnit k) stEcc
        else t.mem = (rewriteRow (journalWrite c.2 k da (stepNow c.2) bs) k table row bs).mem ∧
          (keep = true → rising none s.mu.dir = true → row < 2 ^ 31 → ∀ e, dirOf t k table row = some e → e.poisoned = false) ∧
          ∃ l e, e < 2 ^ 32 ∧ t.qm.cpls = l ++ [completionOf h (ledgerUnit k) stDone e]))

/-- An MU_MIGRATE is refused with the status of its first failing check, or leaves its row DRAINING towards TARGET_DA and waits. A DRAINING row
with no read in flight, no sealed entry left to apply and room for its message becomes MOVING, that message outstanding. An abandoned one goes
back where it was, its queued adds are sent to its ledger die, and its MU_MIGRATE completes with DONE_PARTIAL. MOVE_START copies the record to
the target once no forwarded add is on its way, unless the entries find no room there. MOVE_DONE switches the row: FORWARDING, at its target and
target ledger die, and its MU_MIGRATE completes with DONE. SWITCH is noted. FORWARDING_END makes the row RESIDENT, or frees its entry. Each does
nothing in any other state of the row. -/
def Obligations.MigrationsRunTheirCourse : Prop :=
  (∀ h k table row a s, canStart s h = true → ∃ t, exec (.muMigrate h k table row a) s = .next t ∧
    match migrateRefusal s h k table row a with
    | some st => Ends s t h (ledgerUnit k) st ∧ t.mu = s.mu
    | none => t.qm.cpls = s.qm.cpls ∧ ∀ o da, shardPlace s table row = some (o, da) →
        ∃ e, dirOf t k table row = some e ∧ e.st = .draining ∧ e.target = a ∧ e.targetDie = ledgerOf k a ∧ e.waiter = some h ∧ e.queued = [] ∧
          e.dest = (dirOrHome s k table row da).dest) ∧
  (∀ k table row e tr s, dirOf s k table row = some e → tableRec s table = some tr →
    let r := rowMessage s rkMove k table row (18 + e.ledgerDie)
    ∃ t, exec (.migrationMoving k table row) s = .next t ∧
      if e.st = .draining ∧ readInFlight s k e (rowBytes tr) = false ∧ rowPendingStep s e table row = false ∧ reqRoom s r = true then
        Same { gz := true, mu := true } s t ∧ dirOf t k table row = some { e with st := .moving } ∧ t.gz.out = s.gz.out ++ [r]
      else t = s) ∧
  (∀ k table row e s, dirOf s k table row = some e → rising none s.mu.dir = true → row < 2 ^ 31 →
    ∃ t, exec (.migrationAbandon k table row) s = .next t ∧
      if e.st = .draining then
        t.gz.adds = s.gz.adds ++ e.queued.map (fun m => { m with dst := 18 + e.ledgerDie, fwd := true, via := some (18 + k) }) ∧
        (dirOf t k table row = none ∨ ∃ x, dirOf t k table row = some x ∧ x.st = .resident ∧ x.dest = e.dest ∧ x.queued = []) ∧
        ∀ h, e.waiter = some h → ∃ n, n < 2 ^ 32 ∧ completionOf h (ledgerUnit k) stPartial n ∈ t.qm.cpls
      else t = s) ∧
  (∀ k table row e tr s, dirOf s k table row = some e → tableRec s table = some tr → rising none s.mu.dir = true → row < 2 ^ 31 →
    ∃ t, exec (.moveStart k table row) s = .next t ∧
      if e.st = .moving ∧ e.started = false ∧ addInFlight s e.ledgerDie table row = false then
        let c := checkRead s e.dest (rowBytes tr)
        let n := match ledgerRec c.2 e.targetDie (tRegion tr) with | some r => fld r 6 | none => 0
        c.1 = false →
          match copyEntries c.2 e.ledgerDie e.targetDie table row (tRegion tr) n with
          | some x => t.mem = (writeMem x e.target (readBytes x.mem e.dest (rowBytes tr))).mem ∧ dirOf t k table row = some { e with started := true }
          | none => dirOf t k table row = none ∨ ∃ x, dirOf t k table row = some x ∧ x.st = .resident ∧ x.dest = e.dest
      else t = s) ∧
  (∀ k table row e s, dirOf s k table row = some e → ∃ t, exec (.moveDone k table row) s = .next t ∧
    if e.st = .moving ∧ e.started = true then
      dirOf t k table row = some { e with st := .forwarding, dest := e.target, ledgerDie := e.targetDie, prevDest := e.dest, prevLedger := e.ledgerDie,
                                          queued := [], waiter := none, switched := false, paged := e.pageIn, pageIn := false } ∧
      ∀ h, e.waiter = some h → ∃ n, n < 2 ^ 32 ∧ completionOf h (ledgerUnit k) stDone n ∈ t.qm.cpls
    else t = s) ∧
  (∀ k table row e s, dirOf s k table row = some e → ∃ t, exec (.switchMsg k table row) s = .next t ∧
    if e.st = .forwarding ∧ e.switched = false then Same { mu := true } s t ∧ dirOf t k table row = some { e with switched := true } else t = s) ∧
  (∀ k table row e s, dirOf s k table row = some e → rising none s.mu.dir = true → row < 2 ^ 31 →
    ∃ t, exec (.forwardingEnd k table row) s = .next t ∧
      if e.st = .forwarding ∧ e.switched = true then
        Same { Groups.counted with gz := true, mu := true } s t ∧
          (dirOf t k table row = none ∨ ∃ x, dirOf t k table row = some x ∧ x.st = .resident ∧ x.dest = e.dest)
      else t = s)

/-- SHADOW_ENTRY_VALID makes an entry VALID that is not being invalidated. SHADOW_INVALIDATION marks the die's slots invalid and takes its
acknowledgement; the last one frees the entry. A PATCH_ANSWER to an active patch whose journal the twin has acknowledged rewrites the record and
counts a success, or, poisoned, ends the attempt and counts a failure, as PATCH_TIMEOUT does; then the first row that waits for room is served,
if there is one. Before the acknowledgement it changes nothing. A PATCH_REQUEST is answered while the twin is up and paired. SCRUB_READ moves on
by one sector; a corrected error is rewritten, an uncorrectable one read as lost. REFRESH lowers its bank's count and no other's. A window gives
every claimant at least what it wants of its guaranteed part. -/
def Obligations.UpkeepEvents : Prop :=
  (∀ k table row x s, look s.mu.shadows (rowId table row) = some x → owns s k table row = true →
    (x.inval = false → ∃ t, exec (.shadowEntryValid k table row) s = .next t ∧ Same { mu := true } s t ∧
      look t.mu.shadows (rowId table row) = some { x with valid := true }) ∧
    (x.inval = true → exec (.shadowEntryValid k table row) s = .next s)) ∧
  (∀ d k table row x s, look s.mu.shadows (rowId table row) = some x → owns s k table row = true → rising none s.mu.shadows = true →
    (x.inval = false ∨ d ∉ x.awaited → exec (.shadowInvalidation d k table row) s = .next s) ∧
    (x.inval = true → d ∈ x.awaited → ∃ t, exec (.shadowInvalidation d k table row) s = .next t ∧
      (∀ i, (d, i) ∈ x.slots → slotKey d i ∉ t.mu.slotValid) ∧
      look t.mu.shadows (rowId table row) = if x.awaited.erase d = [] then none else some { x with awaited := x.awaited.erase d })) ∧
  (∀ k table row bs bad p tr s, look s.mu.patches (dirKey k table row) = some p → tableRec s table = some tr →
    (p.active = false ∨ journalAcked s k p = false → exec (.patchAnswer k table row bs bad) s = .next s) ∧
    (p.active = true → journalAcked s k p = true → bad = true → ∃ u, exec (.patchAnswer k table row bs bad) s = .next (wakePatch u k) ∧ u.mem = s.mem ∧
      look u.mu.patches (dirKey k table row) = some { p with active := false } ∧ u.regs = (bump s (18 + k) 0x11070).regs) ∧
    (p.active = true → journalAcked s k p = true → bad = false →
      let w := rewriteRow (closeRow s rkPatch k table row) k table row (padTo (rowBytes tr) bs)
      ∃ u, exec (.patchAnswer k table row bs bad) s = .next (wakePatch u k) ∧ u.mem = w.mem ∧ u.regs = (bump w (18 + k) 0x11068).regs)) ∧
  (∀ k table row p s, look s.mu.patches (dirKey k table row) = some p →
    (p.active = false → exec (.patchTimeout k table row) s = .next s) ∧
    (p.active = true → ∃ u, exec (.patchTimeout k table row) s = .next (wakePatch u k) ∧ u.mem = s.mem ∧
      look u.mu.patches (dirKey k table row) = some { p with active := false } ∧ u.regs = (bump s (18 + k) 0x11070).regs)) ∧
  (∀ k s, (∀ x ∈ s.mu.patchWait, x / 2 ^ 43 ≠ k) → wakePatch s k = s) ∧
  (∀ table row s, (twinUp s = true ∧ s.twin.st ≠ tsUnpaired →
      ∃ t, exec (.patchRequest table row) s = .next t ∧ t = s.onTwin fun t => { t with outbox := t.outbox ++ [3 + rowId table row] }) ∧
    (twinUp s = false ∨ s.twin.st = tsUnpaired → exec (.patchRequest table row) s = .next s)) ∧
  (∀ d half s, TablesOk s → dieUp s d = true → isMu d = true → stackUp s (2 * (d - 18) + half) = true →
    let pos := look0 s.mu.scrubPos (d * 2 + half)
    let i := (stackSize * (2 * (d - 18) + half) + 64 * pos) / 64
    ∃ t, exec (.scrubRead d half) s = .next t ∧
      match look s.mem.latent i with
      | none => Same { mu := true } s t ∧ look0 t.mu.scrubPos (d * 2 + half) = if pos + 1 < stackSize / 64 then pos + 1 else 0
      | some false => look t.mem.latent i = none ∧ look0 t.mu.scrubPos (d * 2 + half) = if pos + 1 < stackSize / 64 then pos + 1 else 0
      | some true => t.mem = (readSector s i).2.mem) ∧
  (∀ st b s, (stackUp s st = false ∨ 2048 ≤ b → exec (.refresh st b) s = .next s) ∧
    (stackUp s st = true → b < 2048 → ∃ t, exec (.refresh st b) s = .next t ∧ Same { free := true, mu := true } s t ∧
      bankActs t (st * 2048 + b) ≤ bankActs s (st * 2048 + b) ∧ ∀ k, k ≠ st * 2048 + b → bankActs t k = bankActs s k)) ∧
  (∀ far i s, (far = true → 4 ≤ i → exec (.bandwidthWindow far i) s = .next s) ∧
    (far = false → isMu i = false ∨ dieUp s i = false → exec (.bandwidthWindow far i) s = .next s) ∧
    (far = true → i < 4 → ∃ t, exec (.bandwidthWindow far i) s = .next t ∧ Same { free := true, mu := true } s t) ∧
    (far = false → isMu i = true → dieUp s i = true →
      ∃ t, exec (.bandwidthWindow far i) s = .next t ∧ Same { free := true, mu := true, regs := true, sounds := true, seqNo := true } s t)) ∧
  (∀ total g last wants, (wants.map (·.1)).Nodup → ∀ x, x ∈ wants → min x.2 (g x.1) ≤ look0 (grantShare total g last wants).1 x.1)

/-- An MU_OPT_CLOSE is refused, waits while a shadow is still being invalidated, takes the status of a parameter set it cannot read, or
processes its panel's entries: it waits when one awaits a migration, and else marks the panel closed and completes with DONE, or with
DONE_PARTIAL when an entry was dropped. A bank is released once every panel with a region on the die has closed or is FAULTED: the sealed bank
is empty and CLOSED_STEP is its step. An MU_OPT_DENSE is refused by R238's rows, before its parameter block, by the block and after it;
otherwise its block steps run from the anchor of the state record, what it wrote is journalled, and it completes with DONE and writes the state
record, or with the lost-data status and leaves what its earlier steps wrote; a DERIVE_ONLY of one block writes the working copy from the master
and then the state record. -/
def Obligations.OptimizerCommands : Prop :=
  (∀ h k p n a s, canStart s h = true → look s.mu.gatherPos (descKey h) = none → h.system = false →
    ∃ t, exec (.muOptClose h k p n a) s = .next t ∧
      match closeRefusal s h k p n with
      | some st => Ends s t h (optUnit k) st ∧ t.mu = s.mu
      | none =>
        if invalidating s k = true then t = s
        else match readSets s h a (panelSets s k p) with
          | (.inl st, _) => Ends s t h (optUnit k) st
          | (.inr l, b) =>
            let g := (panelEntries b k ((openStep b k - 1) % 2) p).foldl (closeEntry k ((openStep b k - 1) % 2) (openStep b k - 1) (setOf l))
              { st := b, dropped := (lookD b.mu.gatherPos (descKey h) {}).skipped }
            if g.waits = true then t.qm.cpls = g.st.qm.cpls ∧ (look t.mu.gatherPos (descKey h)).isSome = true
            else Ends g.st t h (optUnit k) (if g.dropped then stPartial else stDone) ∧ k * 64 + p ∈ t.mu.closed ∧ t.mem = g.st.mem) ∧
  (∀ k s, (look s.mu.unreleased k = none ∨ releasable s k = false → exec (.bankRelease k) s = .next s) ∧
    (∀ n, look s.mu.unreleased k = some n → releasable s k = true → ∃ t, exec (.bankRelease k) s = .next t ∧
      t.mu.unreleased = del s.mu.unreleased k ∧ look t.mu.closedStep k = some n ∧
      t.mu.entries = keep (fun key _ => key / 2 ^ 43 != k * 2 + n % 2) s.mu.entries ∧
      t.mu.dense = keep (fun key _ => key / 2 ^ 37 != k * 2 + n % 2) s.mu.dense)) ∧
  (∀ h op s, canStart s h = true → h.system = false → ∃ t, exec (.muOptDense h op) s = .next t ∧
    match odRefusal s h op with
    | some st => Ends s t h (optUnit op.muslin) st ∧ t.mem = s.mem
    | none => match odParams s op with
      | (.inl st, b) => Ends s t h (optUnit op.muslin) st ∧ t.mem = b.mem
      | (.inr p, b) => match odRefusal2 b h op with
        | some st => Ends s t h (optUnit op.muslin) st ∧ t.mem = b.mem
        | none =>
          let c := checkRead b op.stateDa 32
          if c.1 = true then Ends s t h (optUnit op.muslin) stEcc ∧ t.mem = c.2.mem
          else
            let x := normAnchor c.2 (ofLe (readBytes c.2.mem op.stateDa 8))
            let g := denseRun x.2 op p x.1 (denseSteps op)
            let y := if g.lost then g.st else writeState g.st op x.1 g
            Ends (journalDense y op g) t h (optUnit op.muslin) (if g.lost then stEcc else stDone) ∧ t.mem = y.mem) ∧
  (∀ h op s b p c d, canStart s h = true → h.system = false → odRefusal s h op = none → odParams s op = (.inr p, b) → op.deriveOnly = true →
    odRefusal2 b h op = none → odCount op = 32 → op.ratio = false → checkRead b op.stateDa 32 = (false, c) →
    blockWhole (normAnchor c (ofLe (readBytes c.mem op.stateDa 8))).2 [(op.masterDa, 64)] = (true, d) →
    let x := deriveBlock d op 0 (masterCodes d op 0)
    let y := writeMem x op.stateDa (leBytes 8 (amaxRecord x op) ++ leBytes 8 (ofLe (readBytes x.mem (op.stateDa + 8) 8)) ++
      leBytes 4 (ofLe (readBytes x.mem (op.stateDa + 16) 4)) ++ List.replicate 12 0)
    ∃ t, exec (.muOptDense h op) s = .next t ∧ Ends (journalDense y op { st := x }) t h (optUnit op.muslin) stDone ∧ t.mem = y.mem)

/-- A ring operation that R383's checks refuse completes with their status; an RG_PUT whose source has lost data completes with the lost-data
status. One that needs a single request, to a device that a ring leads to, sends it over the link die of the route: the request is
outstanding there, a message with the put's bytes, or with the get's length, leaves by that die, to the device's twin while it is ALIASED, or
stays in the die's store, empty until then, while its port cannot take it, and the command waits for the answer. A get names the source DA at
the device, a put into memory the destination DA. A remote request that times out is closed and quarantined, and counted as lost at its link
die; one that is not outstanding, not remote, or still in a link die's store changes nothing. -/
def Obligations.RingOperations : Prop :=
  (∀ h op s st, canStart s h = true → look s.mu.gatherPos (descKey h) = none → ringRefusal s h op true = some st →
    ∃ t, exec (.rgPut h op) s = .next t ∧ Ends s t h (targetUnit s (.rgPut h op)) st ∧ t.gz = s.gz) ∧
  (∀ h op s st, canStart s h = true → look s.mu.gatherPos (descKey h) = none → ringRefusal s h op false = some st →
    ∃ t, exec (.rgGet h op) s = .next t ∧ Ends s t h (targetUnit s (.rgGet h op)) st ∧ t.gz = s.gz) ∧
  (∀ h op s, canStart s h = true → look s.mu.gatherPos (descKey h) = none → ringRefusal s h op true = none →
    (checkRead s op.srcDa op.len).1 = true →
    ∃ t, exec (.rgPut h op) s = .next t ∧ Ends s t h (targetUnit s (.rgPut h op)) stEcc ∧ t.gz = s.gz) ∧
  (∀ h op s link, canStart s h = true → look s.mu.gatherPos (descKey h) = none → ringRefusal s h op true = none →
    (checkRead s op.srcDa op.len).1 = false → op.len ≤ 192 → op.streamMode = false → routeDie (ringRoute s op.dev) = some link → egressOf s link = [] →
    let c := (checkRead s op.srcDa op.len).2
    let r : OutReq := { die := link, tag := newTag s link, dst := link, kind := rkPut, resv := 1, flits := 1, remote := true, queue := h.queue,
                        index := h.index, key := some (descKey h), landDa := op.dstDa, len := op.len, dev := op.dev, step := h.stamp }
    let f : Flit := { op := 0x02, tc := 3, dst := link, src := link, panel := (panelOfQueue s h.queue).getD 0, tag := newTag s link,
                      da := op.dstDa, plen := op.len, payload := viewBytes c op.srcDa op.len }
    let m : RingFrame := { dstDev := op.dev, srcDev := selfDev s, rDie := dieOfAddr op.dstDa, vl := 0, tc := 3, rseq := 0, flit := f }
    reqRoom s r = true →
      ∃ t, exec (.rgPut h op) s = .next t ∧ t.gz.out = s.gz.out ++ [r] ∧ t.mem = c.mem ∧
        (∃ w ∈ t.qm.waiting, sameDesc w.hdr h = true ∧ reqWait link r.tag ∈ w.tags) ∧
        t.rings = if reforming s link = false ∧ mayLeave s link { m with dstDev := sentTo s op.dev } = true
          then (transmit (setEgress s link []) link { m with dstDev := sentTo s op.dev }).rings else (setEgress s link [m]).rings) ∧
  (∀ h op s link, canStart s h = true → look s.mu.gatherPos (descKey h) = none → ringRefusal s h op false = none →
    op.len ≤ 192 → routeDie (ringRoute s op.dev) = some link → egressOf s link = [] →
    let r : OutReq := { die := link, tag := newTag s link, dst := link, kind := rkGet, resv := 1, flits := 1, remote := true, queue := h.queue,
                        index := h.index, key := some (descKey h), landDa := op.dstDa, len := op.len, dev := op.dev, step := h.stamp }
    let f : Flit := { op := 0x01, tc := 2, dst := link, src := link, panel := (panelOfQueue s h.queue).getD 0, tag := newTag s link,
                      da := op.srcDa, oparg := op.len }
    let m : RingFrame := { dstDev := op.dev, srcDev := selfDev s, rDie := dieOfAddr op.srcDa, vl := 0, tc := 2, rseq := 0, flit := f }
    reqRoom s r = true →
      ∃ t, exec (.rgGet h op) s = .next t ∧ t.gz.out = s.gz.out ++ [r] ∧ t.mem = s.mem ∧
        (∃ w ∈ t.qm.waiting, sameDesc w.hdr h = true ∧ reqWait link r.tag ∈ w.tags) ∧
        t.rings = if reforming s link = false ∧ mayLeave s link { m with dstDev := sentTo s op.dev } = true
          then (transmit (setEgress s link []) link { m with dstDev := sentTo s op.dev }).rings else (setEgress s link [m]).rings) ∧
  (∀ die tag s, (findReq s die tag).any (·.remote) = false ∨ inEgress s die tag = true → exec (.remoteTimeout die tag) s = .next s) ∧
  (∀ die tag s r, findReq s die tag = some r → r.remote = true → inEgress s die tag = false → ∃ t, exec (.remoteTimeout die tag) s = .next t ∧
    t.gz.out = s.gz.out.filter (fun x => !(x.die == r.die && x.tag == r.tag)) ∧
    r.die * 65536 + r.tag ∈ t.gz.quarantined ∧
    srcSlot2 r.dst ∈ t.sv.sticky ∧ t.regs = (bump (bump s r.dst 0x10038) r.dst 0x10030).regs)

/-- A SENT or an OPEN of a device the map defines raises the step held of it, and makes it LIVE unless it is ALIASED; no other device's entry
moves. A TOPO with a known AUX, a defined device and a change count above the last of its origin is applied: AUX 0 makes the device ABSENT, 1
LIVE, unless it is ALIASED, 2 and 3 break a segment and 4 and 5 mend it; every other TOPO is discarded. An ALIAS of a device to its map TWIN
makes it ALIASED, one to itself makes an ALIASED device LIVE, and any other is discarded. A token at CMD has the effect of the command of its
kind; at a ring link die that is up it is also sent on where more of the ring has to be covered, and elsewhere it is lost. SEND_SENT floods
the SENT of the next step for this package and for every device ALIASED to it, once every remote command of that step has ended; SEND_OPEN
floods its OPEN after the step's seal, with no load in progress. When TOKEN_WAIT expires at a closed seal gate or start gate, the LIVE devices
it awaits become SILENT, and the gate passes. -/
def Obligations.TokensAndSteps : Prop :=
  (∀ dev step s, ∃ t, exec (.sent dev step) s = .next t ∧
    if (devRec s dev).isNone then t = s
    else (peerOf t dev).sent = some (match (peerOf s dev).sent with | some x => max x step | none => step) ∧
      (peerOf t dev).opened = (peerOf s dev).opened ∧ (peerOf t dev).st = (if (peerOf s dev).st = 4 then 4 else 1) ∧
      ∀ d, d ≠ dev → peerOf t d = peerOf s d) ∧
  (∀ dev step s, ∃ t, exec (.openTok dev step) s = .next t ∧
    if (devRec s dev).isNone then t = s
    else (peerOf t dev).opened = some (match (peerOf s dev).opened with | some x => max x step | none => step) ∧
      (peerOf t dev).sent = (peerOf s dev).sent ∧ (peerOf t dev).st = (if (peerOf s dev).st = 4 then 4 else 1) ∧
      ∀ d, d ≠ dev → peerOf t d = peerOf s d) ∧
  (∀ dev aux orig count s, ∃ t, exec (.topo dev aux orig count) s = .next t ∧
    if 5 < aux ∨ (devRec s dev).isNone = true ∨ count ≤ look0 s.rings.topoCnt orig then t = s
    else look0 t.rings.topoCnt orig = count ∧
      (aux ≤ 1 → (peerOf t dev).st = (if (peerOf s dev).st = 4 then 4 else if aux = 0 then 3 else 1) ∧ t.rings.broken = s.rings.broken) ∧
      (aux = 2 ∨ aux = 3 → 2 * dev + (aux - 2) ∈ t.rings.broken ∧ t.rings.peers = s.rings.peers) ∧
      (4 ≤ aux → t.rings.broken = s.rings.broken.erase (2 * dev + (aux - 4)) ∧ t.rings.peers = s.rings.peers)) ∧
  (∀ dev target s, ∃ t, exec (.aliasTok dev target) s = .next t ∧
    if (devRec s dev).isNone then t = s
    else if target = dev then (peerOf t dev).st = (if (peerOf s dev).st = 4 then 1 else (peerOf s dev).st)
    else if mapTwin s dev = some target then (peerOf t dev).st = 4 ∧ (peerOf t dev).target = target
    else t = s) ∧
  (∀ tok s, (tok.kind = 0 → exec (.tokenIn 0 tok) s = exec (.sent tok.dev tok.step) s) ∧
    (tok.kind = 1 → exec (.tokenIn 0 tok) s = exec (.openTok tok.dev tok.step) s) ∧
    (tok.kind = 2 → exec (.tokenIn 0 tok) s = exec (.topo tok.dev tok.aux tok.orig tok.step) s) ∧
    (tok.kind = 3 → exec (.tokenIn 0 tok) s = exec (.aliasTok tok.dev tok.aux) s) ∧
    (3 < tok.kind → exec (.tokenIn 0 tok) s = .next s)) ∧
  (∀ die tok s, die ≠ 0 →
    (isRing die = false ∨ dieUp s die = false → exec (.tokenIn die tok) s = .next s) ∧
    (isRing die = true → dieUp s die = true →
      exec (.tokenIn die tok) s =
        exec (.tokenIn 0 tok) (if goesOn s die tok then s.onRings fun g => { g with floods := g.floods ++ [tok] } else s))) ∧
  (∀ s, ∃ t, exec .sendSent s = .next t ∧
    match nextSent s with
    | none => t = s
    | some n =>
      if remoteDone s n = true ∧ s.rings.map_ ≠ [] then t.rings.sentUpTo = some n ∧ t.rings.floods = s.rings.floods ++
        ((devices s).filter fun d => d == selfDev s || ((peerOf s d).st == 4 && (peerOf s d).target == selfDev s)).map
          fun d => { kind := 0, dev := d, aux := 0, step := n, orig := selfDev s }
      else t = s) ∧
  (∀ s, ∃ t, exec .sendOpen s = .next t ∧
    match nextOpen s with
    | none => t = s
    | some n =>
      if sealedUpTo s n = true ∧ s.img.staged = none then t.rings.openUpTo = some (n + 1) ∧ t.rings.floods = s.rings.floods ++
        ((devices s).filter fun d => d == selfDev s || ((peerOf s d).st == 4 && (peerOf s d).target == selfDev s)).map
          fun d => { kind := 1, dev := d, aux := 0, step := n + 1, orig := selfDev s }
      else t = s) ∧
  (∀ s, ∃ t, exec .tokenWaitExpiry s = .next t ∧
    let atSeal := s.seq.phase = 1 ∧ s.seq.progs.all (fun p => p.2.st == 2) = true ∧ sealGateOpen s = false
    let atStart := s.seq.run.isSome = true ∧ s.seq.phase = 0 ∧ openHeld s s.seq.step = false
    if atSeal then 2 * s.seq.step ∈ t.rings.passed ∧ ∀ d ∈ missing s s.seq.step false, (peerOf s d).st = 1 → (peerOf t d).st = 2
    else if atStart then 2 * s.seq.step + 1 ∈ t.rings.passed ∧ ∀ d ∈ missing s s.seq.step true, (peerOf s d).st = 1 → (peerOf t d).st = 2
    else t = s)

/-- The states of a port (R375). An idle frame ends a row of failures of a port that is up, acknowledges kept frames and returns ring credits.
An uncorrectable code word is counted at its die, and the seventeenth failure in a row retrains the port. A failed lane of a port that is up
leaves it on the half without one, or retrains it. A loss of signal takes a port DOWN unless it is BYPASSED; a signal takes one that is DOWN or
mismatched, on a die that is up, into TRAINING; the third failed training makes it BROKEN; a BROKEN port retrains. Every entry to TRAINING is
counted at the die. A bypass cause closes its dimensions: their ports are BYPASSED; a dimension opens when both of its dies are up and nothing
else holds it closed: its ports are DOWN. Where its condition does not hold, a command changes nothing. -/
def Obligations.PortsOfTheRings : Prop :=
  (∀ f s, ∃ t, exec (.idle f) s = .next t ∧
    if (isRing f.die || isTwin f.die) && rportUp s f.die then
      egressOf s f.die = [] → (rport s f.die).input = [] → rport t f.die = { rport s f.die with
        bad := 0, kept := unackedFrames f.ret.rack (rport s f.die).kept,
        used := put (rport s f.die).used (vlKey f.ret.tc f.ret.vl) (look0 (rport s f.die).used (vlKey f.ret.tc f.ret.vl) - f.ret.n) }
    else t = s) ∧
  (∀ die s, ∃ t, exec (.uncorrectableCodeword die) s = .next t ∧
    if (isRing die || isTwin die) && rportUp s die then
      (if 16 ≤ (rport s die).bad then (rport t die).st = 1 ∧ (rport t die).lanes = 0 ∧ t.regs = (bump (bump s die 0x10010) die 0x10028).regs
       else rport t die = { rport s die with bad := (rport s die).bad + 1 } ∧ t.regs = (bump s die 0x10010).regs)
    else t = s) ∧
  (∀ die lane s, ∃ t, exec (.ringLaneFailure die lane) s = .next t ∧
    if (isRing die || isTwin die) && rportUp s die && lane < portLanes die then
      let half := portLanes die / 2
      let l := ins (rport s die).badLanes lane
      if l.any (· < half) && l.any (half ≤ ·) then
        (rport t die).st = 1 ∧ (rport t die).lanes = 0 ∧ (rport t die).badLanes = [] ∧ t.regs = (bump s die 0x10028).regs
      else rport t die = { rport s die with badLanes := l, st := 3, lanes := half } ∧ t.regs = s.regs
    else t = s) ∧
  (∀ die s, ∃ t, exec (.lossOfSignal die) s = .next t ∧
    if (isRing die || isTwin die) && (rport s die).st != 6 then (rport t die).st = 0 ∧ (rport t die).lanes = 0 ∧ (rport t die).kept = (rport s die).kept
    else t = s) ∧
  (∀ die s, ∃ t, exec (.signalDetected die) s = .next t ∧
    if (isRing die || isTwin die) && dieUp s die && ((rport s die).st == 0 || (rport s die).st == 4) then
      (rport t die).st = 1 ∧ (rport t die).fails = 0 ∧ t.regs = (bump s die 0x10028).regs
    else t = s) ∧
  (∀ die s, ∃ t, exec (.trainingFailure die) s = .next t ∧
    if (isRing die || isTwin die) && (rport s die).st == 1 then
      (if (rport s die).fails < 2 then rport t die = { rport s die with fails := (rport s die).fails + 1 }
       else (rport t die).st = 5 ∧ (rport t die).fails = 0 ∧ (isRing die = true → (rport t die).brk = true ∧ ∃ tok, t.rings.floods = s.rings.floods ++ [tok] ∧
         tok.kind = 2 ∧ tok.aux = 2 + dimOfDie die ∧ tok.orig = selfDev s))
    else t = s) ∧
  (∀ die s, ∃ t, exec (.brokenRetry die) s = .next t ∧
    if (isRing die || isTwin die) && (rport s die).st == 5 then (rport t die).st = 1 ∧ t.regs = (bump s die 0x10028).regs else t = s) ∧
  (∀ cause dim s, ∃ t, exec (.bypassCause cause dim) s = .next t ∧
    (1 ≤ cause → cause ≤ 4 → cause ∈ t.rings.causes ∧ t.rings.released = false ∧ ∀ d, isRing d = true → (rport t d).st = 6) ∧
    (cause = 5 → dim ≤ 1 → 5 + dim ∈ t.rings.causes ∧ t.rings.released = false ∧ ∀ d ∈ dimDies dim, (rport t d).st = 6) ∧
    (cause = 0 ∨ 5 < cause ∨ cause = 5 ∧ 1 < dim → t = s)) ∧
  (∀ dim s, dim ≤ 1 → (dimDies dim).all (dieUp s) = true → (∀ c ∈ s.rings.causes, c = 5 + dim ∨ ¬dim ∈ causeDims c) → s.rings.causes.Nodup →
    bit (regGet s 0 0x70000) 20 = false ∨ s.rings.released = true → ¬dim ∈ s.rings.openDims →
    ∃ t, exec (.dimensionOpen dim) s = .next t ∧ dim ∈ t.rings.openDims ∧ (∀ d ∈ dimDies dim, (rport t d).st = 0) ∧
      (∀ c ∈ t.rings.causes, ¬dim ∈ causeDims c)) ∧
  (∀ dim s, 1 < dim ∨ dim ∈ s.rings.openDims → exec (.dimensionOpen dim) s = .next s)

/-- No journal record has an effect while the twin port is down, or while the pair is UNPAIRED, SERVING or YIELDED; any other is first written into
the receive log, which moves its place in that log and nothing else of the pair. In BASE a DATA or BASE record
is written to the shadow range of its holding at once, or counted where no range has it; in PAIRED and ORPHANED it is logged, and while no step
of the log is complete and the log has room, that is all. A BASE_END is noted for its die. An END that completes its step makes that step the
shadow's; where the log holds that step alone, memory then holds its records, die by die. A YIELD makes a package YIELDED, which asks for a
warm reset and closes both dimensions, unless it serves, has yielded, is not TWIN_CAPABLE or has no TWIN section. A hand-back's step number, in RETURNING on the package that
does not serve, sets STEP and returns the pair to BASE. A snapshot is refused by R406, waits for one that runs and for a close, and one to
memory writes its stream and completes with its status. -/
def Obligations.TwinPair : Prop :=
  (∀ r s, twinUp s = false ∨ s.twin.st = 0 ∨ s.twin.st = 4 ∨ s.twin.st = 5 →
    exec (.journalData r) s = .next s ∧ exec (.journalBase r) s = .next s ∧ exec (.journalEnd r) s = .next s ∧
    exec (.journalBaseEnd r) s = .next s) ∧
  (∀ k r s, ∃ p, (storeLog s k r).twin = { s.twin with logPos := p } ∧
    match twinHeader s with
    | none => storeLog s k r = s
    | some h => fld h 3 ≠ 0 → p = (s.twin.logPos + (jrecBytes k r).length) % (2 ^ 20 * fld h 3) ∧
        (s.twin.logPos + (jrecBytes k r).length ≤ 2 ^ 20 * fld h 3 → (storeLog s k r).mem = (writeMem s (fld h 4 + s.twin.logPos) (jrecBytes k r)).mem)) ∧
  (∀ r s i k, (i = Instr.journalData r ∧ k = 0) ∨ (i = Instr.journalBase r ∧ k = 1) → twinUp s = true → s.twin.st = 1 → ∃ t, exec i s = .next t ∧
    t.twin = (storeLog s k r).twin ∧
    match shadowRec s r.holding with
    | some x => t.mem = (writeMem (storeLog s k r) (areaDa s + fld x 3 + r.offset) ((if r.z then Config.inflate r.payload else r.payload).take (fld x 4 - r.offset))).mem
    | none => t.mem = (storeLog s k r).mem ∧ t.regs = (bump (storeLog s k r) 0 0x80028).regs) ∧
  (∀ r s, twinUp s = true → s.twin.st = 2 ∨ s.twin.st = 3 → (∀ x ∈ s.twin.log, endsHeld s x.2.step = false) →
    (∀ i k, (i = Instr.journalData r ∧ k = 0) ∨ (i = Instr.journalBase r ∧ k = 1) →
      logBytes (s.onTwin fun t => { t with log := t.log ++ [(k, r)] }) ≤ (match twinHeader s with | some r => 2 ^ 20 * fld r 3 | none => 0) →
      ∃ t, exec i s = .next t ∧ t.twin = { (storeLog s k r).twin with log := s.twin.log ++ [(k, r)] } ∧ t.mem = (storeLog s k r).mem)) ∧
  (∀ r s, twinUp s = true → s.twin.st = 1 ∨ s.twin.st = 2 ∨ s.twin.st = 3 ∨ s.twin.st = 6 →
    ∃ t, exec (.journalBaseEnd r) s = .next t ∧ t.twin = { (storeLog s 3 r).twin with baseEnds := ins s.twin.baseEnds r.muslin } ∧
      t.mem = (storeLog s 3 r).mem) ∧
  (∀ r s, twinUp s = true → s.twin.st = 2 ∨ s.twin.st = 3 → (∀ x ∈ s.twin.log, x.2.step = r.step) →
    let z := (storeLog s 2 r).onTwin fun t => { t with log := t.log ++ [(2, r)] }
    endsHeld z r.step = true →
      ∃ t, exec (.journalEnd r) s = .next t ∧ t.twin.shadowStep = r.step ∧ t.twin.shadowSet = true ∧ t.twin.log = [] ∧
        t.mem = ((stepRecords z r.step).foldl applyRecord z).mem) ∧
  (∀ s, (s.twin.st = 4 ∨ s.twin.st = 5 ∨ twinSect s = [] ∨ twinCapable s = false → exec .yield s = .next s) ∧
    (s.twin.st ≠ 4 → s.twin.st ≠ 5 → twinSect s ≠ [] → twinCapable s = true → ∃ t, exec .yield s = .next t ∧ t.twin = { s.twin with st := 5 } ∧
      11 ∈ t.sv.warmReqs ∧ 3 ∈ t.rings.causes ∧ ∀ d ∈ [34, 35, 36, 37], (lookD t.rings.ports d {}).st = 6)) ∧
  (∀ step s, (s.twin.st ≠ 6 ∨ serves s = true → exec (.handbackStepNumber step) s = .next s) ∧
    (s.twin.st = 6 → serves s = false → ∃ t, exec (.handbackStepNumber step) s = .next t ∧ t.twin.st = 1 ∧ t.seq.step = step ∧
      t.rings.causes = s.rings.causes.erase 3 ∧ (∀ h n, s.seq.held = some (h, n) → t.seq.run = some h ∧ t.seq.left = n ∧ t.seq.held = none))) ∧
  (∀ h op s, canStart s h = true → snapOwn s h = none →
    (∀ st, snapRefusal s h op = some st → ∃ t, exec (.tnSnapshot h op) s = .next t ∧ Ends s t h cmdUnit st ∧ t.mem = s.mem) ∧
    (snapRefusal s h op = none → s.snap.isSome = true ∨ s.mu.unreleased ≠ [] → exec (.tnSnapshot h op) s = .next s) ∧
    (snapRefusal s h op = none → s.snap = none → s.mu.unreleased = [] →
      let g := snapStream s h op
      (op.dest = 0 → h.system = false → ∃ t, exec (.tnSnapshot h op) s = .next t ∧ Ends s t h cmdUnit (snapStatus g op) ∧
        t.mem = (writeMem g.st op.dstDa (g.out.take op.dstLen)).mem) ∧
      (op.dest = 1 → h.system = false → g.out.length ≤ op.dstLen → ∃ t, exec (.tnSnapshot h op) s = .next t ∧ t.snap = none ∧
        ∃ l e, e < 2 ^ 32 ∧ t.qm.cpls = l ++ [completionOf h cmdUnit (snapStatus g op) e])))

/-- An IDENT at a die that is down, or at one that is no port, changes nothing. On a ring port it decides a training: a peer on the port's line
whose segment can train brings it up with the lanes both ends have, on all of them or on half, one whose segment cannot changes nothing (the
model's reading, log entry 102), and any other leaves it mismatched. On a twin port in training, a peer
that is not this package's twin leaves it mismatched, and the twin brings it up where no pair is set up; a twin on a port that is up, and whose
pair state is SERVING, makes this package yield. A flit frame at a port that is down changes nothing; one of a class without ring credits, or
one that finds its ring input full, is counted, and the sixteenth retrains; one for another device leaves by the link die of its route, on VL1
once it crosses the dateline, and is lost where none reaches; an answer for this package is sent on to the die that asked; a READ for this
package that R248 allows, from a link die with room, is recorded with its sender and sent into Gauze. -/
def Obligations.IdentAndFrames : Prop :=
  (∀ die f s, dieUp s die = false ∨ (isRing die = false ∧ isTwin die = false) ∨ (isRing die = true ∧ (rport s die).st ≠ 1) →
    exec (.ident die f) s = .next s) ∧
  (∀ die f s, dieUp s die = true → isRing die = true → (rport s die).st = 1 → ∃ t, exec (.ident die f) s = .next t ∧
    if ringPeerOk s die f then
      if spanOk s die f = false then t = s
      else (rport t die).st = (if 32 ≤ f.lanes then 2 else 3) ∧ (rport t die).lanes = (if 32 ≤ f.lanes then 32 else 16) ∧ (rport t die).peer = f.self ∧
      (rport t die).peerValid = true
    else rport t die = { rport s die with st := 4, fails := 0 }) ∧
  (∀ die f s, dieUp s die = true → isRing die = false → isTwin die = true → (rport s die).st = 1 → twinPeerOk s f = false →
    ∃ t, exec (.ident die f) s = .next t ∧ rport t die = { rport s die with st := 4, fails := 0 }) ∧
  (∀ die f s, dieUp s die = true → isRing die = false → isTwin die = true → (rport s die).st = 1 → twinPeerOk s f = true → s.twin.st = 0 →
    twinSect s = [] → ∃ t, exec (.ident die f) s = .next t ∧ (rport t die).st = (if 16 ≤ f.lanes then 2 else 3) ∧ (rport t die).peer = f.self) ∧
  (∀ die f s, dieUp s die = true → isRing die = false → isTwin die = true → rportUp s die = true → twinPeerOk s f = true →
    twinSect s ≠ [] → twinCapable s = true → s.twin.st = 1 ∨ s.twin.st = 2 ∨ s.twin.st = 3 → f.pairState = 4 →
    ∃ t, exec (.ident die f) s = .next t ∧ t.twin = { s.twin with st := 5 } ∧ 11 ∈ t.sv.warmReqs) ∧
  (∀ die f s, (isRing die || isTwin die) = false ∨ rportUp s die = false → exec (.flitFrame die f) s = .next s) ∧
  (∀ die f s, (isRing die || isTwin die) = true → rportUp s die = true →
    let u := takeRet s die f.ret
    4 < f.tc ∨ ringCap f.tc < inputUsed u die f.tc f.vl + frameLen f → ∃ t, exec (.flitFrame die f) s = .next t ∧
      if 15 ≤ (rport s die).viol then (rport t die).st = 1
      else rport t die = { rport u die with viol := (rport s die).viol + 1 } ∧ t.regs = (bump s die 0x10020).regs) ∧
  (∀ die f s, (isRing die || isTwin die) = true → rportUp s die = true → f.tc ≤ 4 → (rport s die).input = [] → egressOf s die = [] →
    frameLen f ≤ ringCap f.tc →
    ∃ t, exec (.flitFrame die f) s = .next t ∧
    (isRing die = true → forSelf s f.dstDev = false → routeDie (ringRoute s f.dstDev) = none → t.rings.egress = s.rings.egress ∧ (rport t die).input = []) ∧
    (∀ l, isRing die = true → forSelf s f.dstDev = false → f.srcDev ≠ selfDev s → routeDie (ringRoute s f.dstDev) = some l → l ≠ die →
      egressOf s l = [] → frameLen f ≤ 4096 →
      let g := { f with vl := if dimOfDie l = dimOfDie die then f.vl else 0 }
      (rport t die).input = [] ∧
        if reforming s l = false ∧ mayLeave s l g = true then rport t l = rport (transmit s l g) l ∧ egressOf t l = [] else egressOf t l = [g]) ∧
    (f.tc ≤ 1 ∨ f.tc = 4 → forSelf s f.dstDev = true → t.gz.flits = s.gz.flits ++ [{ f.flit with dst := f.rDie, src := die }] ∧ (rport t die).input = []) ∧
    (let r : OutReq := { die := die, tag := newTag s die, dst := f.rDie, kind := rkRead, resv := ceilDiv f.flit.oparg 192, flits := 1, far := inFar f.flit.da }
     isRing die = true → f.tc = 2 → f.dstDev = selfDev s → f.flit.op = 0x01 → checkPanel s (some f.flit.panel) false [(f.flit.da, f.flit.oparg)] = none →
     ingressRoom s die r = true →
       t.gz.out = s.gz.out ++ [r] ∧
       t.gz.flits = s.gz.flits ++ [{ f.flit with dst := f.rDie, src := die, tag := r.tag, mgroup := 0, via := none, beyond := none }] ∧
       t.rings.ingress = s.rings.ingress ++ [{ die := die, tag := r.tag, srcDev := f.srcDev, srcDie := f.flit.src, srcTag := f.flit.tag }]))

/-- A message that its path, its class buffer or its class stops does no more than its arrival does. A READ that arrives at a die that is up is
refused where its address is not one the die serves; data of memory is answered in flits of up to 192 bytes, lost data with OPARG bit 0, an
invalid shadow slot with PLEN 0, a row with what its owner reads, or sent on to the die where the row rests, which refuses it and counts it where
no row rests at the address any more (R164, R208). A WRITE into memory stores its payload and is acknowledged; one into a core
buffer from another panel is counted and not acknowledged; any other into a core buffer is acknowledged. SOUNDING and BACKGROUND_MOVE store
their payload where the die serves its address; a Sounding leaves its generator's buffer. An answer that matches no outstanding request is
counted and frees its quarantined TAG; otherwise the request is closed, and a command that waited for it alone completes. -/
def Obligations.GauzeMessages : Prop :=
  (∀ f s, (∀ a, arrive s (asOp 0x01 [0x07] f) = (none, a) → exec (.read f) s = .next a) ∧
    (∀ a, arriveAll s (asOp 0x02 [0x08] f) = ([], a) → exec (.write f) s = .next a) ∧
    (∀ a, arrive s (asOp 0x04 [] f) = (none, a) → exec (.readResp f) s = .next a) ∧
    (∀ a, arrive s (asOp 0x05 [] f) = (none, a) → exec (.writeAck f) s = .next a) ∧
    (∀ a, arrive s (asOp 0x09 [] f) = (none, a) → exec (.regResp f) s = .next a) ∧
    (∀ a, arrive s (asOp 0x0C [] f) = (none, a) → exec (.backgroundMove f) s = .next a)) ∧
  (∀ f s g a, arrive s (asOp 0x01 [0x07] f) = (some g, a) → dieUp a g.dst = true → g.op ≠ 0x07 → (asOp 0x01 [0x07] f).via = none → outbound g = none →
    let resp : Flit := { op := 0x04, tc := 1, dst := g.src, src := g.dst, panel := g.panel, tag := g.tag, da := g.da }
    let data (p : Nat) (bs : List Byte) : List Flit := (List.range (ceilDiv bs.length 192)).map fun i =>
      { resp with panel := p, da := g.da + 192 * i, plen := ((bs.drop (192 * i)).take 192).length, payload := (bs.drop (192 * i)).take 192 }
    ∃ t, exec (.read f) s = .next t ∧
      match readAt a g.dst g.da g.oparg with
      | .bad st => t.gz.flits = a.gz.flits ++ [{ op := 0x06, tc := 0, dst := g.src, src := g.dst, panel := g.panel, tag := g.tag, da := g.da, status := st }]
      | .row table row =>
        let b := hotAdd (survey a (g.dst - 18) table row 0x110A0 1) (g.dst - 18) table row 1
        let e := dirOrHome b (g.dst - 18) table row g.da
        let c := checkRead b e.dest g.oparg
        if e.poisoned then t.gz.flits = a.gz.flits ++ [{ resp with oparg := 1 }]
        else if dieOfAddr e.dest = g.dst then
          t.gz.flits = a.gz.flits ++ (if c.1 then [{ resp with oparg := 1 }] else data g.panel (viewBytes c.2 e.dest g.oparg))
        else t.gz.flits = a.gz.flits ++ [{ g with dst := dieOfAddr e.dest, da := e.dest, via := some g.dst }]
      | .slot i =>
        let p := answerPanel a g ((slotPlace a g.dst i).map (·.1))
        (match readSlot a g.dst i g.oparg with
         | (some bs, b) => t.gz.flits = b.gz.flits ++ data p bs
         | (none, b) => t.gz.flits = b.gz.flits ++ [{ resp with panel := p }])
      | _ =>
        let c := checkRead a g.da g.oparg
        t.mem = c.2.mem ∧ t.gz.flits = a.gz.flits ++ (if c.1 then [{ resp with oparg := 1 }] else data g.panel (viewBytes c.2 g.da g.oparg))) ∧
  (∀ f s g a o, arrive s (asOp 0x01 [0x07] f) = (some g, a) → dieUp a g.dst = true → g.op ≠ 0x07 → (asOp 0x01 [0x07] f).via = some o → isMu g.dst = true →
    rowResting a (o - 18) g.da g.oparg = none → ∃ t, exec (.read f) s = .next t ∧ t.regs = (bump a g.dst 0x11058).regs ∧
      t.gz.flits = a.gz.flits ++ [{ op := 0x06, tc := 0, dst := g.src, src := g.dst, panel := g.panel, tag := g.tag, da := g.da, status := stMalformed }]) ∧
  (∀ f s g a, arriveAll s (asOp 0x02 [0x08] f) = ([g], a) → dieUp a g.dst = true → g.op ≠ 0x08 → outbound g = none →
    let ack : Flit := { op := 0x05, tc := 1, dst := g.src, src := g.dst, panel := g.panel, tag := g.tag, da := g.da }
    ∃ t, exec (.write f) s = .next t ∧
      match writeAt a g.dst g.da g.payload.length with
      | .bad st => t.gz.flits = a.gz.flits ++ [{ op := 0x06, tc := 0, dst := g.src, src := g.dst, panel := g.panel, tag := g.tag, da := g.da, status := st }]
      | .core c off =>
        if g.tc = 3 ∧ panelOfCore a c ≠ some g.panel then
          t.tw = a.tw ∧ t.gz = a.gz ∧ t.regs = (bumpCore a c 0x28 (max 1 (ceilDiv g.payload.length 192))).regs
        else g.byteEn.all id = true → cbWriteBad a c off g.payload.length = false →
          t.tw = (cbWrite a c off g.payload).tw ∧ t.gz.flits = a.gz.flits ++ [{ ack with panel := answerPanel a g (some c) }]
      | _ => g.byteEn.all id = true → t.gz.flits = a.gz.flits ++ [ack] ∧ (MemOk s → g.payload ≠ [] → g.da < farBase → Stored s t g.da g.payload)) ∧
  (∀ f s, let F := asOp 0x0B [] f
    (s.gz.flits.contains F = false → (s.sounds.find? fun x => x.die == F.src) = none → exec (.sounding f) s = .next s) ∧
    (∀ g a, s.gz.flits.contains F = true → arrive s F = (some g, a) → ∃ t, exec (.sounding f) s = .next t ∧
      if memPlace a g.dst g.da g.payload.length = .mem then MemOk s → g.payload ≠ [] → g.da < farBase → Stored s t g.da g.payload else t = a) ∧
    (∀ x g a, s.gz.flits.contains F = false → (s.sounds.find? fun x => x.die == F.src) = some x →
      arrive (s.onSounds fun l => l.erase x) { F with plen := (soundingBytes x).length, payload := soundingBytes x } = (some g, a) →
      ∃ t, exec (.sounding f) s = .next t ∧
        if memPlace a g.dst g.da g.payload.length = .mem then MemOk s → g.payload ≠ [] → g.da < farBase → Stored s t g.da g.payload else t = a)) ∧
  (∀ f s g a, arrive s (asOp 0x0C [] f) = (some g, a) → ∃ t, exec (.backgroundMove f) s = .next t ∧
      if memPlace a g.dst g.da g.payload.length = .mem then MemOk s → g.payload ≠ [] → g.da < farBase → Stored s t g.da g.payload else t = a) ∧
  (∀ f s g a, arrive s (asOp 0x04 [] f) = (some g, a) → findReq a g.dst g.tag = none → ∃ t, exec (.readResp f) s = .next t ∧
    t.gz.quarantined = a.gz.quarantined.filter (· != g.dst * 65536 + g.tag) ∧ t.regs = (bump a g.dst 0x1048).regs) ∧
  (∀ f s g a, arrive s (asOp 0x05 [] f) = (some g, a) → g.mgroup = 0 → findReq a g.dst g.tag = none → ∃ t, exec (.writeAck f) s = .next t ∧
    t.gz.quarantined = a.gz.quarantined.filter (· != g.dst * 65536 + g.tag) ∧ t.regs = (bump a g.dst 0x1048).regs) ∧
  (∀ f s g a, arrive s (asOp 0x09 [] f) = (some g, a) → findReq a g.dst g.tag = none → ∃ t, exec (.regResp f) s = .next t ∧
    t.gz.quarantined = a.gz.quarantined.filter (· != g.dst * 65536 + g.tag) ∧ t.regs = (bump a g.dst 0x1048).regs) ∧
  (∀ f s g a r, arrive s (asOp 0x09 [] f) = (some g, a) → findReq a g.dst g.tag = some r → ∃ t, exec (.regResp f) s = .next t ∧
    t.gz.out = a.gz.out.filter (fun x => !(x.die == r.die && x.tag == r.tag)) ∧
    ∀ w, s.qm.waiting = [w] → w.tags = [reqWait r.die r.tag] → ∃ e, e < 2 ^ 32 ∧ t.qm.cpls = s.qm.cpls ++
      [completionOf w.hdr w.unit { w with status := mergeStatus (fenceWaiting s w) w.status 0 }.final e]) ∧
  (∀ f s g a r, arrive s (asOp 0x05 [] f) = (some g, a) → g.mgroup = 0 → findReq a g.dst g.tag = some r → ingressOf a g.dst g.tag = none →
    r.kind ≠ rkJournal → r.kind ≠ rkMcast → r.strm = none → ∃ t, exec (.writeAck f) s = .next t ∧
    t.gz.out = a.gz.out.filter (fun x => !(x.die == r.die && x.tag == r.tag)) ∧
    ∀ w, s.qm.waiting = [w] → w.tags = [reqWait r.die r.tag] → ∃ e, e < 2 ^ 32 ∧ t.qm.cpls = s.qm.cpls ++
      [completionOf w.hdr w.unit
        { w with status := mergeStatus (fenceWaiting s w) w.status 0, late := w.late || (r.kind == rkAdd && bit g.oparg 0) }.final e]) ∧
  (∀ f s g a r, arrive s (asOp 0x04 [] f) = (some g, a) → findReq a g.dst g.tag = some r → ingressOf a g.dst g.tag = none →
    ∃ t, exec (.readResp f) s = .next t ∧
      (if bit g.oparg 0 || g.payload.isEmpty || r.kind == rkGet || decide (r.resv ≤ 1) then
        t.gz.out = a.gz.out.filter fun x => !(x.die == r.die && x.tag == r.tag)
       else t.gz.out = a.gz.out.map fun x => if x.die = r.die ∧ x.tag = r.tag then { x with resv := x.resv - 1 } else x) ∧
      (MemOk s → r.landDa < farBase → r.kind = rkGet → bit g.oparg 0 = false → g.payload ≠ [] → 0 < r.len →
        Stored s t r.landDa (g.payload.take r.len)) ∧
      (r.kind ≠ rkGet → t.mem = s.mem))

/-- A credit return raises the credits of a class at a port that is up, never above the depth of the buffer at the other end, and lowers what
that buffer holds. A CRC error at a port that is up is counted; a first failure starts a count of replays and each further one raises it; the
sixteenth leaves the link FAILED at both of its ends with the LINK source raised. A repair of a port that is up uses up one spare lane. A link
that is UP_FULL and has no spare lane left goes on at half rate, one at half rate becomes FAILED, at both ends, and both raise the LINK source of
the die. On a port in another state each of the four changes nothing. -/
def Obligations.LinkEvents : Prop :=
  (∀ die port tc n s, (portUp s die port = false ∨ 4 < tc → exec (.credit die port tc n) s = .next s) ∧
    (portUp s die port = true → tc ≤ 4 → ∃ t, exec (.credit die port tc n) s = .next t ∧ Same { gz := true } s t ∧
      let depth := match linkPeer die port with | some e => depthOf s e tc | none => 0
      credits t die port tc = min (credits s die port tc + n) depth ∧
      look0 t.gz.occupancy (creditKey die port tc) = look0 s.gz.occupancy (creditKey die port tc) - n ∧
      t.gz.flits = s.gz.flits ∧ t.gz.out = s.gz.out)) ∧
  (∀ die port again s, portUp s die port = false → exec (.flitCrcError die port again) s = .next s) ∧
  (∀ die port again s, portUp s die port = true → rising none s.gz.replays = true → ∃ t, exec (.flitCrcError die port again) s = .next t ∧
    t.regs = (bump s die 0x1028).regs ∧
    let n := if again then look0 s.gz.replays (die * 16 + port) + 1 else 0
    (n < 16 → look0 t.gz.replays (die * 16 + port) = n ∧ t.gz.flits = s.gz.flits ∧ t.pkg = s.pkg) ∧
    (16 ≤ n → look t.gz.replays (die * 16 + port) = none ∧ portState t die port = 5 ∧ srcLink die ∈ t.sv.sticky ∧
      ∀ e q, linkPeer die port = some e → portTo e die = some q → portState t e q = 5)) ∧
  (∀ die port s, (portUp s die port = false → exec (.laneRepair die port) s = .next s) ∧
    (portUp s die port = true → ∃ t, exec (.laneRepair die port) s = .next t ∧ Same { pkg := true } s t ∧
      look0 t.pkg.laneRepairs (die * 16 + port) = look0 s.pkg.laneRepairs (die * 16 + port) + 1 ∧ t.pkg.portState = s.pkg.portState)) ∧
  (∀ die port s, (portState s die port = 3 → ∃ t, exec (.laneRepairExhausted die port) s = .next t ∧ portState t die port = 4 ∧
      srcLink die ∈ t.sv.sticky ∧ t.gz = s.gz ∧ ∀ e q, linkPeer die port = some e → portTo e die = some q → portState t e q = 4) ∧
    (portState s die port = 4 → ∃ t, exec (.laneRepairExhausted die port) s = .next t ∧ portState t die port = 5 ∧ srcLink die ∈ t.sv.sticky ∧
      ∀ e q, linkPeer die port = some e → portTo e die = some q → portState t e q = 5) ∧
    (portUp s die port = false → exec (.laneRepairExhausted die port) s = .next s))

/-- A panel fault at a core of a die that is up sets the core's source; unless its panel is FAULTED already, every core of the panel is FAULTED
and no queue of it stays ACTIVE or HALTED, and the core is reclaimed, with reset when it belongs to no panel; an MU_OPT_DENSE of the panel,
where one is dispatched, stops first after some of its block steps. An error of a unit, an expired lease and a failed management parity set
their source and trigger a reclaim of their party: it starts with the party fenced, joins the one that runs, or waits its turn. A die that loses
lock leaves the grid and is reclaimed, after what the panels with a core there hold. RELEASED by the party under reclaim ends the reclaim, or is
suppressed by an injection; the timer's expiry ends it in the party's reset with its own source; the reset of a compute die makes what its
panels hold wait for reclaim too; either way FREE is broadcast and the next reclaim begins. FREE reaches the grantors once. Where its condition
does not hold, a command changes nothing. -/
def Obligations.FaultsAndReclaims : Prop :=
  (∀ core s, (64 ≤ core ∨ dieUp s (coreDie core) = false → exec (.panelFault core) s = .next s) ∧
    (core < 64 → dieUp s (coreDie core) = true →
      let u := cutDenses s fun d => panelOfQueue s d.hdr.queue == panelOfCore s core && (panelOfCore s core).isSome
      ∃ t, exec (.panelFault core) s = .next t ∧ srcOfUnit (coreUnit core) ∈ t.sv.sticky ∧
      match panelOfCore u core with
      | some p =>
        if panelFaulted u p then t.tw = u.tw ∧ t.qm = u.qm ∧ t.sv.reclaim = u.sv.reclaim
        else PanelDown u t p ∧ Reclaims u t { party := coreUnit core, kind := 7 }
      | none => Reclaims u t { party := coreUnit core, kind := 7, reset := true })) ∧
  (∀ f s, (∀ d ∈ s.qm.disp, ∀ h o, d.cmd ≠ .muOptDense h o) → cutDenses s f = s) ∧
  (∀ party s, (isParty s party = false → exec (.unitError party) s = .next s) ∧
    (isParty s party = true → ∃ t, exec (.unitError party) s = .next t ∧ srcOfUnit party ∈ t.sv.sticky ∧
      Reclaims s t { party := party, kind := 7, reset := true })) ∧
  (∀ kind party s, (3 < kind ∨ isParty s party = false → exec (.leaseExpiry kind party) s = .next s) ∧
    (kind ≤ 3 → isParty s party = true → ∃ t, exec (.leaseExpiry kind party) s = .next t ∧ srcOfUnit party ∈ t.sv.sticky ∧
      Reclaims s t { party := party, kind := kind })) ∧
  (∀ die s, (fitted s.pkg.variant die = false → exec (.mgmtParityFailure die) s = .next s) ∧
    (fitted s.pkg.variant die = true → ∃ t, exec (.mgmtParityFailure die) s = .next t ∧ srcMgmt ∈ t.sv.sticky ∧
      (isParty s ⟨die, 15⟩ = true → Reclaims s t { party := ⟨die, 15⟩, kind := 7, reset := true }))) ∧
  (∀ die s, (die = 1 ∨ dieUp s die = false → exec (.pllLossOfLock die) s = .next s) ∧
    (die ≠ 1 → dieUp s die = true → ∃ t, exec (.pllLossOfLock die) s = .next t ∧ srcClock die ∈ t.sv.sticky ∧
      t.ck.grid = s.ck.grid.erase die ∧ t.ck.locked = s.ck.locked.erase die ∧ (isTw die = false → Reclaims s t { party := ⟨die, 15⟩, kind := 7 }) ∧
      let u := s.onCk fun c => { c with locked := c.locked.erase die, grid := c.grid.erase die }
      Reclaims (faultDiePanels (setSticky (bump u die 0x4028) (srcClock die)) die) t { party := ⟨die, 15⟩, kind := 7 })) ∧
  (∀ party s, (∀ r, s.sv.reclaim = some r → r.party ≠ party) → exec (.released party) s = .next s) ∧
  (∀ party s r, s.sv.reclaim = some r → r.party = party → (∀ x ∈ s.sv.reclaims, x.party.die ≠ 1) →
    (party.die ∈ s.sv.suppress → ∃ t, exec (.released party) s = .next t ∧ t.sv = { s.sv with suppress := s.sv.suppress.erase party.die }) ∧
    (party.die ∉ s.sv.suppress → ∃ t l, exec (.released party) s = .next t ∧ t.sv.reclaim = (s.sv.reclaims ++ l).head? ∧
      t.sv.reclaims = (s.sv.reclaims ++ l).tail ∧ t.sv.freeing = s.sv.freeing ++ [party] ∧ (∀ k ∈ s.sv.sticky, k ∈ t.sv.sticky) ∧
      (l ≠ [] → r.reset = true ∧ isTw party.die = true ∧ unitParty party = false) ∧ ∀ x ∈ l, isTw x.party.die = true ∧ x.party.die ≠ party.die ∧ x.kind = 7)) ∧
  (∀ s, s.sv.reclaim = none → exec .reclaimTimeout s = .next s) ∧
  (∀ s r, s.sv.reclaim = some r → (∀ x ∈ s.sv.reclaims, x.party.die ≠ 1) → ∃ t l, exec .reclaimTimeout s = .next t ∧
    srcReclaim ∈ t.sv.sticky ∧ t.sv.reclaim = (s.sv.reclaims ++ l).head? ∧ t.sv.reclaims = (s.sv.reclaims ++ l).tail ∧
    t.sv.freeing = s.sv.freeing ++ [r.party] ∧ (l ≠ [] → isTw r.party.die = true ∧ unitParty r.party = false) ∧
    ∀ x ∈ l, isTw x.party.die = true ∧ x.party.die ≠ r.party.die ∧ x.kind = 7) ∧
  (∀ party s, (party ∉ s.sv.freeing → exec (.free party) s = .next s) ∧
    (party ∈ s.sv.freeing → ∃ t, exec (.free party) s = .next t ∧ t.sv.freeing = s.sv.freeing.erase party ∧ t.sv.reclaim = s.sv.reclaim))

/-- On the edge after a Datum is driven it is sampled: a die of the grid that is up and has no error counts it, unless its copy is bad or the
count's second bit does not agree; then it has an error and its CLOCK source is set. On any other edge a die whose copy is bad gets the error, no
die counts, and one Datum that waits is driven with the next number. The end of the quiet period clears every sticky bit and counts a recovery,
up to its limit, unless the fault state is locked or no bit is set. A failed check of Selvage's clock sets its source and locks the fault
state. -/
def Obligations.EdgesAndFaultState : Prop :=
  (∀ bad s n, s.ck.driven = some n → ∃ t, exec (.datumEdge bad) s = .next t ∧ t.ck.driven = none ∧ t.ck.pending = s.ck.pending ∧
    ∀ d, d ∈ datumDies → dieUp s d = true → d ∈ s.ck.grid → d ∉ s.ck.err →
      let c := (look0 s.ck.count d + 1) % 2 ^ 32
      if d ∈ bad ∨ bit n 1 ≠ bit c 1 then d ∈ t.ck.err ∧ srcClock d ∈ t.sv.sticky ∧ look0 t.ck.count d = look0 s.ck.count d
      else d ∉ t.ck.err ∧ look0 t.ck.count d = c) ∧
  (∀ bad s, s.ck.driven = none → ∃ t, exec (.datumEdge bad) s = .next t ∧ t.ck.count = s.ck.count ∧
    (s.ck.pending = 0 → t.ck.driven = none ∧ t.ck.sent = s.ck.sent) ∧
    (s.ck.pending ≠ 0 → t.ck.driven = some ((s.ck.sent + 1) % 2 ^ 32) ∧ t.ck.sent = (s.ck.sent + 1) % 2 ^ 32 ∧ t.ck.pending = s.ck.pending - 1) ∧
    ∀ d, d ∈ datumDies → dieUp s d = true → d ∈ s.ck.grid → d ∉ s.ck.err → (d ∈ bad → d ∈ t.ck.err ∧ srcClock d ∈ t.sv.sticky) ∧
      (d ∉ bad → d ∉ t.ck.err)) ∧
  (∀ s, (s.sv.locked = true ∨ s.sv.sticky = [] → exec .quietPeriodExpiry s = .next s) ∧
    (s.sv.locked = false → s.sv.sticky ≠ [] → ∃ t, exec .quietPeriodExpiry s = .next t ∧ Same { sv := true, sounds := true, seqNo := true } s t ∧
      t.sv.sticky = [] ∧ t.sv.quiet = 0 ∧ t.sv.recovery = min (s.sv.recovery + 1) (2 ^ 32 - 1) ∧
      t.sv.recoverySat = (s.sv.recoverySat || decide (2 ^ 32 - 1 ≤ s.sv.recovery)) ∧
      (s.sv.recovery < 2 ^ 32 - 1 ∨ s.sv.recoverySat = true → t.sounds = s.sounds))) ∧
  (∀ s, ∃ t, exec .svclkCheckFailure s = .next t ∧ Same { sv := true, i3c := true } s t ∧ t.sv.locked = true ∧ srcSvclk ∈ t.sv.sticky)

/-- While the host link is down or not presented a host access changes nothing. A CXL.mem read commits the decoder; of a DA that is not valid
it is counted and returns zeros marked poisoned; of valid memory below Far it returns the bytes there, or free bytes marked poisoned where data
is lost. A CXL.mem write stores its bytes below Far; at a DA that is not valid, or in the firmware area, it is counted and stores nothing. BAR0
registers are read in 4 or 8 aligned bytes and written in 8; any other register access there is counted. An access of a CMD core that is not 1,
2, 4 or 8 aligned bytes of a core changes nothing; one that U-mode may not make faults; a load of register space returns the registers, of
valid memory the bytes, of anything else free bytes; a store in register space writes a whole register, and elsewhere leaves as a WRITE, as
far as the outstanding requests leave room. A fence retires once the core has no store outstanding. -/
def Obligations.HostAndCores : Prop :=
  (∀ bar addr len data s, hostUp s = false → exec (.hostRead bar addr len) s = .next s ∧ exec (.hostWrite bar addr data) s = .next s) ∧
  (∀ da len s, hostUp s = true → len ≠ 0 → inRegSpace da = false → ∃ t, exec (.hostRead false da len) s = .next t ∧ t.host.hdm = true ∧
    if (r21 s [(da, len)]).isSome then
      t.host.reply = List.replicate len 0 ∧ t.host.replyPoisoned = true ∧ t.regs = (bump s 0 0x50010).regs ∧ t.mem = s.mem
    else
      let c := checkRead (s.onHost fun h => { h with hdm := true }) da len
      t.mem = c.2.mem ∧ t.host.replyPoisoned = c.1 ∧
        (c.1 = false → da < farBase → t.host.reply = viewBytes c.2 da len)) ∧
  (∀ da data s, hostUp s = true → data ≠ [] → inRegSpace da = false → ∃ t, exec (.hostWrite false da data) s = .next t ∧ t.host.hdm = true ∧
    (if (r21 s [(da, data.length)]).isSome || meets (da, data.length) (fwArea, gib) then t.mem = s.mem ∧ t.regs = (bump s 0 0x50010).regs
     else MemOk s → da < farBase → Stored s t da data)) ∧
  (∀ da len s, hostUp s = true → len ≠ 0 → inRegSpace da = true → da + len ≤ regTop → ∃ t, exec (.hostRead false da len) s = .next t ∧
    Same { host := true } s t ∧ t.host.reply = readRegSpace (s.onHost fun h => { h with hdm := true }) da len ∧
    t.host.replyPoisoned = false) ∧
  (∀ da data s, hostUp s = true → data.length = 8 → da % 8 = 0 → inRegSpace da = true → da + 8 ≤ regTop → ∃ t, exec (.hostWrite false da data) s = .next t ∧
    t.regs = (writeReg (s.onHost fun h => { h with hdm := true }) (da % regBase / 2 ^ 32) (da % 2 ^ 32) .host (ofLe data)).regs) ∧
  (∀ addr len s, hostUp s = true → addr < 0x1000000 → len ≠ 0 → ∃ t, exec (.hostRead true addr len) s = .next t ∧
    if (len = 8 ∨ len = 4) ∧ addr % len = 0 then Same { host := true } s t ∧ t.host.reply = readRegBytes s 0 addr len ∧ t.host.replyPoisoned = false
    else t.regs = (bump s 0 0x50010).regs ∧ t.host.reply.length = len) ∧
  (∀ addr data s, hostUp s = true → addr < 0x1000000 → data ≠ [] →
    if data.length = 8 ∧ addr % 8 = 0 then exec (.hostWrite true addr data) s = .next (writeReg s 0 addr .host (ofLe data))
    else ∃ t, exec (.hostWrite true addr data) s = .next t ∧ t.regs = (bump s 0 0x50010).regs ∧ t.mem = s.mem) ∧
  (∀ core agent da len data s, coreAccess core da len = false →
    exec (.coreLoad core agent da len) s = .next s ∧ (data.length = len → exec (.coreStore core agent da data) s = .next s)) ∧
  (∀ core da len data s, coreAccess core da len = true → data.length = len →
    (userFault s da len false = true → ∃ t, exec (.coreLoad core .uMode da len) s = .next t ∧ Same { cores := true } s t ∧
      t.cores = { s.cores with reply := { core := core, data := [], fault := true } }) ∧
    (userFault s da len true = true → ∃ t, exec (.coreStore core .uMode da data) s = .next t ∧ Same { cores := true } s t ∧
      t.cores = { s.cores with reply := { core := core, data := [], fault := true } })) ∧
  (∀ core agent da len s, coreAccess core da len = true → agent ≠ .uMode ∨ userFault s da len false = false →
    ∃ t, exec (.coreLoad core agent da len) s = .next t ∧ t.cores.reply.core = core ∧ t.cores.reply.fault = false ∧
      t.cores.reply.data.length = len ∧
      (inRegSpace da = true → t.cores.reply.data = readRegSpace s da len ∧ t.mem = s.mem) ∧
      (inRegSpace da = false → r21 s [(da, len)] = none → t.mem = (checkRead s da len).2.mem ∧
        ((checkRead s da len).1 = false → t.cores.reply.data = viewBytes (checkRead s da len).2 da len))) ∧
  (∀ core agent da data s, coreAccess core da data.length = true → agent ≠ .uMode ∨ userFault s da data.length true = false →
    ∃ t, exec (.coreStore core agent da data) s = .next t ∧
      if inRegSpace da then
        (data.length = 8 → t.regs = (writeReg s (da % regBase / 2 ^ 32) (da % 2 ^ 32) agent (ofLe data)).regs) ∧
        (data.length ≠ 8 → Same { cores := true } s t)
      else
        let r : OutReq := { die := 0, tag := newTag s 0, dst := dieOfAddr da, kind := rkWrite, resv := 1, flits := 1, far := inFar da }
        if reqRoom s r then t.gz.out = s.gz.out ++ [r] ∧ t.cores.stores = s.cores.stores ++ [(core, r.tag)] ∧
          t.gz.flits = s.gz.flits ++ [{ op := 0x02, tc := 2, dst := r.dst, src := 0, tag := r.tag, da := da, plen := data.length, payload := data }]
        else t = s) ∧
  (∀ core s, (48 ≤ core ∨ s.cores.stores.any (·.1 == core) = true → exec (.coreFence core) s = .next s) ∧
    (core < 48 → s.cores.stores.any (·.1 == core) = false → ∃ t, exec (.coreFence core) s = .next t ∧ Same { cores := true } s t ∧
      t.cores = { s.cores with fences := s.cores.fences ++ [core] }))

/-- A host link that is down has no reset; a reset of one that is up counts, clears the committed decoder and the mailbox, and the link trains
anew (to what width is free). HL_PERST_N takes its level; while firmware holds the link in reset nothing else changes; its fall counts and
brings the link down. A posted write completes once no earlier one of its port meets it: it leaves its queue and its bytes are stored. A timeout
and a link loss of a far port that is down change nothing; a timeout counts, sets Selvage's sticky bit, and loses the posted write it names,
or else marks the port's read late. A link loss leaves the port down with its capacity kept and loses every posted write of the port. A port
that is down resumes with the capacity it had, or with what is found where it never had any, and with no other. -/
def Obligations.HostLinkAndFarPorts : Prop :=
  (∀ s, s.host.link = 0 → exec .hostLinkReset s = .next s) ∧
  (∀ s, s.host.link ≠ 0 → ∃ t, exec .hostLinkReset s = .next t ∧ Same { free := true, host := true, regs := true, sounds := true, seqNo := true } s t ∧
    t.host.link ≤ 2 ∧ t.host.hdm = false ∧ t.host.busy = false ∧ t.host.mboxIdx = none ∧ t.regs = (clearHost (bump s 0 0x50018)).regs) ∧
  (∀ high s, ∃ t, exec (.hlPerstN high) s = .next t ∧ t.host.perstN = high ∧
    (s.host.presented = false → Same { host := true } s t ∧ t.host = { s.host with perstN := high }) ∧
    (s.host.presented = true → s.host.perstN = true → high = false → t.host.link = 0 ∧ t.host.hdm = false ∧ t.host.busy = false ∧
      t.regs = (clearHost (bump s 0 0x50018)).regs) ∧
    (s.host.presented = true → s.host.link = 0 → high = true → t.host.link = 1 ∨ t.host.link = 2)) ∧
  (∀ port tag s p, findPosted s port tag = some p →
    if (earlierPosted s p).any fun x => x.port == port && meets (x.da, x.data.length) (p.da, p.data.length) then exec (.cxlMemCompletion port tag) s = .next s
    else ∃ t, exec (.cxlMemCompletion port tag) s = .next t ∧ t.mem.posted = s.mem.posted.erase p ∧
      (MemOk s → ∀ x, cellByte t.mem x = if p.da ≤ x ∧ x < p.da + p.data.length then p.data.getD (x - p.da) 0 else cellByte s.mem x)) ∧
  (∀ port tag s, findPosted s port tag = none → exec (.cxlMemCompletion port tag) s = .next s) ∧
  (∀ port tag link ex gib s, (4 ≤ port ∨ (lookD s.pkg.far port {}).link = 0) → exec (.farCplTimeout port tag) s = .next s ∧ exec (.farLinkLoss port) s = .next s ∧
    (4 ≤ port → exec (.farRetrain port link ex gib) s = .next s)) ∧
  (∀ port tag s, port < 4 → (lookD s.pkg.far port {}).link ≠ 0 → ∃ t, exec (.farCplTimeout port tag) s = .next t ∧
    srcFar port ∈ t.sv.sticky ∧ t.mem.cells = s.mem.cells ∧
    match findPosted s port tag with
    | some p => t.mem.posted = s.mem.posted.erase p ∧ t.regs = (bump (bump s 0 (fpReg port + 0x10)) 0 (fpReg port + 0x18)).regs
    | none => t.mem.posted = s.mem.posted ∧ port ∈ t.mem.farLate ∧ t.regs = (bump s 0 (fpReg port + 0x10)).regs) ∧
  (∀ port s, port < 4 → (lookD s.pkg.far port {}).link ≠ 0 → ∃ t, exec (.farLinkLoss port) s = .next t ∧ t.mem.cells = s.mem.cells ∧
    lookD t.pkg.far port {} = { lookD s.pkg.far port {} with link := 0, rate := 0 } ∧
    (∀ q, q ≠ port → lookD t.pkg.far q {} = lookD s.pkg.far q {}) ∧
    t.mem.posted = s.mem.posted.filter fun x => x.port != port) ∧
  (∀ port link ex gib s, port < 4 → (link = 1 ∨ link = 2) → ex ≤ 8 → gib ≤ 4096 → (lookD s.pkg.far port {}).link = 0 →
    let f := lookD s.pkg.far port {}
    if f.gib = gib ∨ (f.gib = 0 ∧ f.expanders = 0) then ∃ t, exec (.farRetrain port link ex gib) s = .next t ∧
      Same { free := true, pkg := true } s t ∧ (lookD t.pkg.far port {}).link = link ∧ (lookD t.pkg.far port {}).expanders = ex ∧
      (lookD t.pkg.far port {}).gib = gib ∧ ((lookD t.pkg.far port {}).rate = 1 ∨ (lookD t.pkg.far port {}).rate = 2)
    else exec (.farRetrain port link ex gib) s = .next s)

/-- Every command of the I3C bus leaves everything but the target as it was (GETSTATUS takes one free value). Before step 2 of a bring-up the
target does not answer. ENTDAA gives an address to a target without one, SETDASA to the static address 0x30 + PAIR_ID, and RSTDAA takes it
away. Of a target that
has one GETPID, GETBCR, GETDCR and GETSTATUS return 6, 1, 1 and 2 bytes. ENEC and DISEC with the interrupt bit set and clear
IBI_EN. An interrupt accepted by the controller is no longer pending. -/
def Obligations.I3cTarget : Prop :=
  (∀ data s, i3cUp s = false ∨ s.i3c.dynValid = false →
    exec (.privateWrite data) s = .next s ∧ exec .privateRead s = .next s ∧ exec .getpid s = .next s ∧ exec .getbcr s = .next s ∧
    exec .getdcr s = .next s ∧ exec .getstatus s = .next s) ∧
  (∀ static dyn s, i3cUp s = false → exec (.entdaa dyn) s = .next s ∧ exec (.setdasa static dyn) s = .next s ∧ exec .rstdaa s = .next s ∧
    exec (.enec true) s = .next s ∧ exec (.disec true) s = .next s) ∧
  (∀ dyn s, i3cUp s = true → dyn < 128 → s.i3c.dynValid = false →
    (∃ t, exec (.entdaa dyn) s = .next t ∧ Same { i3c := true } s t ∧ t.i3c = { s.i3c with dyn := dyn, dynValid := true }) ∧
    (∀ static, if static = 0x30 + b2n s.pkg.pairId then
        ∃ t, exec (.setdasa static dyn) s = .next t ∧ Same { i3c := true } s t ∧ t.i3c = { s.i3c with dyn := dyn, dynValid := true }
      else exec (.setdasa static dyn) s = .next s)) ∧
  (∀ static dyn s, s.i3c.dynValid = true ∨ 128 ≤ dyn → exec (.entdaa dyn) s = .next s ∧ exec (.setdasa static dyn) s = .next s) ∧
  (∀ s, i3cUp s = true → ∃ t, exec .rstdaa s = .next t ∧ Same { i3c := true } s t ∧ t.i3c = { s.i3c with dyn := 0, dynValid := false }) ∧
  (∀ s, i3cUp s = true → s.i3c.dynValid = true →
    (∃ t, exec .getpid s = .next t ∧ Same { i3c := true } s t ∧ t.i3c.reply.length = 6 ∧ ∃ free < 2 ^ 15,
      ofLe t.i3c.reply.reverse = 2 ^ 33 * free + 2 ^ 16 * 0x0940 + 2 ^ 12 * variantCode s.pkg.variant + b2n s.pkg.pairId) ∧
    (∃ t, exec .getbcr s = .next t ∧ Same { i3c := true } s t ∧ t.i3c.reply.length = 1 ∧ ofLe t.i3c.reply % 8 = 6 ∧ ofLe t.i3c.reply < 64) ∧
    (∃ t, exec .getdcr s = .next t ∧ Same { i3c := true } s t ∧ t.i3c.reply.length = 1) ∧
    (∃ t, exec .getstatus s = .next t ∧ Same { free := true, i3c := true } s t ∧ t.i3c.reply.length = 2)) ∧
  (∀ s, i3cUp s = true →
    (∃ t, exec (.enec true) s = .next t ∧ Same { i3c := true } s t ∧ t.i3c = { s.i3c with ibiEn := true }) ∧
    (∃ t, exec (.disec true) s = .next t ∧ Same { i3c := true } s t ∧ t.i3c = { s.i3c with ibiEn := false })) ∧
  (∀ s, exec (.enec false) s = .next s ∧ exec (.disec false) s = .next s) ∧
  (∀ byte s, ∃ t, exec (.inBandInterruptAccepted byte) s = .next t ∧ Same { i3c := true } s t ∧
    t.i3c = { s.i3c with pendingIbi := s.i3c.pendingIbi.erase byte })

/-- With the dies down a report, an interval, a window and a Sounding change nothing. A report's sum becomes P, a sample of the window and the
newest of Selvage's sums. The emergency starts, with source POWER, above the cap and ends below it, and at no other time. In an interval with
Contour off or in MODE 3 fill and gating are withdrawn. Otherwise the target moves; above it ballast and scrub advance are withdrawn and the
duty falls by a sixteenth, to no less than 4; below it the gap is filled with scrub advance and then with ballast levels L and L + 1 on the
eligible cores, and a duty below 16 may rise by a sixteenth (a free choice). A window gives average and maximum, judges the band in HOLD,
counts a miss, and sets UNDER and OVER. After SOUND_MS windows one Sounding of KIND 0x30 reports them. -/
def Obligations.ContourAndEmergency : Prop :=
  (∀ l s, s.sv.on = false → exec (.powerReport l) s = .next s ∧ exec .contourInterval s = .next s ∧ exec .contourWindow s = .next s ∧
    exec .contourSounding s = .next s) ∧
  (∀ l s, s.sv.on = true → ∃ t, exec (.powerReport l) s = .next t ∧ Same { sv := true, ct := true } s t ∧
    t.ct = { s.ct with p := l.sum, samples := s.ct.samples ++ [l.sum] } ∧
    t.sv = { s.sv with pSum := (l.sum :: s.sv.pSum).take 500, pSv := powerAvg (l.sum :: s.sv.pSum) 25 }) ∧
  (∀ s, if overCap s.sv = true ∧ s.sv.emergency = false then ∃ t, exec .emergency s = .next t ∧ Same { sv := true, i3c := true } s t ∧
      t.sv.emergency = true ∧ srcPower ∈ t.sv.sticky ∧ ∀ k ∈ s.sv.sticky, k ∈ t.sv.sticky
    else exec .emergency s = .next s) ∧
  (∀ s, if s.sv.emergency = true ∧ belowCap s.sv = true then ∃ t, exec .emergencyLift s = .next t ∧ Same { sv := true } s t ∧
      t.sv = { s.sv with emergency := false }
    else exec .emergencyLift s = .next s) ∧
  (∀ s, s.sv.on = true → ∃ t, exec .contourInterval s = .next t ∧
    Same { free := true, regs := true, tw := true, ct := true, sounds := true, seqNo := true } s t ∧
    if s.ct.mode = 0 ∨ s.ct.mode = 3 then t.ct = { s.ct with duty := 0, scrubAdv := false, target := 0 } ∧ ∀ g, (coreOf t g).ballast = 0
    else if nextTarget s < foreground s then
      t.ct = { s.ct with target := nextTarget s, scrubAdv := false, duty := (max 4 (ctDuty s.ct - 1)) % 16 } ∧ ∀ g, (coreOf t g).ballast = 0
    else
      let gap := nextTarget s - foreground s
      let steps := ballastSteps (gap - if gap = 0 then 0 else 6000 * (musUp s).length) (ballastCores s).length
      (∃ rise ≤ 1, (16 ≤ ctDuty s.ct ∨ gap = 0 → rise = 0) ∧
        t.ct = { s.ct with target := nextTarget s, scrubAdv := decide (gap ≠ 0), duty := (ctDuty s.ct + rise) % 16 }) ∧
      ∀ g, (coreOf t g).ballast = ballastOf (ballastCores s) steps g) ∧
  (∀ s, s.ct.samples = [] → exec .contourWindow s = .next s) ∧
  (∀ s, s.sv.on = true → s.ct.samples ≠ [] → ∃ t, exec .contourWindow s = .next t ∧
    Same { regs := true, ct := true, sounds := true, seqNo := true } s t ∧
    let avg := s.ct.samples.sum / s.ct.samples.length
    let low : Prop := s.ct.mode = 2 ∧ 100 * avg < 98 * s.ct.setpoint
    let high : Prop := s.ct.mode = 2 ∧ 102 * s.ct.setpoint < 100 * avg
    t.ct.pAvg = avg ∧ t.ct.pMax = s.ct.samples.foldl max 0 ∧ t.ct.samples = [] ∧ t.ct.windows = s.ct.windows + 1 ∧
    (t.ct.underF = true ↔ low ∧ s.ct.scrubAdv = true ∧ ∀ g ∈ ballastCores s, (coreOf s g).ballast = 15) ∧
    (t.ct.overF = true ↔ high ∧ ctDuty s.ct = 4) ∧
    (low ∨ high → t.regs = (bump s 0 0xB0010).regs) ∧ (¬low → ¬high → t.regs = s.regs)) ∧
  (∀ s, s.ct.soundMs = 0 ∨ s.ct.windows < s.ct.soundMs → exec .contourSounding s = .next s) ∧
  (∀ s, s.sv.on = true → s.ct.soundMs ≠ 0 → s.ct.soundMs ≤ s.ct.windows → ∃ t, exec .contourSounding s = .next t ∧
    Same { ct := true, sounds := true, seqNo := true } s t ∧ t.ct = { s.ct with windows := 0 } ∧
    ((s.sounds.filter fun x => x.die == 0 && x.unit == 63).length < 16 → ∃ r w, t.sounds = s.sounds ++ [r] ∧ r.die = 0 ∧ r.unit = 63 ∧
      r.kind = 0x30 ∧ r.body = [w, (hottest s).2 % 2 ^ 16 + 2 ^ 16 * ((hottest s).1 % 64)] ∧ bits w 15 0 = s.ct.pAvg % 2 ^ 16 ∧
      bits w 31 16 = s.ct.pMax % 2 ^ 16 ∧ bits w 39 32 = ballastMw s / 8000 % 256 ∧ bits w 43 40 = s.ct.duty % 16 ∧
      bit w 44 = s.ct.underF ∧ bit w 45 = s.ct.overF))

/-- A report of a die that is not up, or of SV, changes nothing; another is recorded. At T_THROTTLE or above the die is throttled, and no core
of it runs ballast; more than 3 °C below, with its duty at 16, it is not; a die that rises to 100 °C is reported in a Sounding of KIND 0x31,
where there is room for one. While a throttled die is at T_THROTTLE or above its duty falls by a sixteenth, to no less than 2, each step
counted; more than 3 °C below it rises by one, to no more than 16, and the die is throttled no longer once it is there. HOLDUP_OK follows the
measured energy unless the last test failed; a failed test sets source HOLDUP and clears HOLDUP_OK, a passed one lets it return. An update that
writes pauses while HOLDUP_OK is clear. -/
def Obligations.ThermalAndHoldup : Prop :=
  (∀ die q s, die = 1 ∨ dieUp s die = false → exec (.thermalReport die q) s = .next s) ∧
  (∀ die q s, die ≠ 1 → dieUp s die = true → ∃ t, exec (.thermalReport die q) s = .next t ∧
    Same { tw := true, sv := true, i3c := true, sounds := true, seqNo := true } s t ∧ temp t die = q ∧ t.sv.duty = s.sv.duty ∧
    (∀ d, d ≠ die → temp t d = temp s d) ∧
    (4 * s.sv.tThrottle ≤ q → t.sv.throttled = ins s.sv.throttled die ∧ ∀ g < 64, coreDie g = die → (coreOf t g).ballast = 0) ∧
    (q < 4 * s.sv.tThrottle → t.sv.throttled = (if thermDuty s die = 16 ∧ q < 4 * (s.sv.tThrottle - 3) then s.sv.throttled.erase die
      else s.sv.throttled) ∧ t.tw = s.tw) ∧
    (temp s die < 400 → 400 ≤ q → (s.sounds.filter fun x => x.die == 1 && x.unit == 63).length < 16 →
      ∃ r, t.sounds = s.sounds ++ [r] ∧ r.die = 1 ∧ r.kind = 0x31 ∧ r.body = [q % 2 ^ 16 + 2 ^ 16 * die]) ∧
    (400 ≤ temp s die ∨ q < 400 → t.sounds = s.sounds)) ∧
  (∀ die s, if dieUp s die = true ∧ die ∈ s.sv.throttled ∧ 4 * s.sv.tThrottle ≤ temp s die ∧ 2 < thermDuty s die then
      ∃ t, exec (.throttleStep die) s = .next t ∧ Same { regs := true, sv := true, sounds := true, seqNo := true } s t ∧
        t.sv = { s.sv with duty := put s.sv.duty die (thermDuty s die - 1) } ∧ t.regs = (bump s 1 0x12018).regs
    else exec (.throttleStep die) s = .next s) ∧
  (∀ die s, if dieUp s die = true ∧ die ∈ s.sv.throttled ∧ temp s die < 4 * (s.sv.tThrottle - 3) then
      ∃ t, exec (.thermalDutyRise die) s = .next t ∧ Same { sv := true } s t ∧
        (rising none s.sv.duty = true → thermDuty t die = min 16 (thermDuty s die + 1)) ∧
        (rising none s.sv.duty = true → t.sv.throttled = if 15 ≤ thermDuty s die then s.sv.throttled.erase die else s.sv.throttled)
    else exec (.thermalDutyRise die) s = .next s) ∧
  (∀ mj enough s, ∃ t, exec (.holdupMeasure mj enough) s = .next t ∧ Same { sv := true, sec := true } s t ∧
    t.sv = { s.sv with energy := mj % 2 ^ 16, holdupOk := enough && !s.sv.holdupBad } ∧
    t.sec = { s.sec with fwPaused := if s.sec.fwState = fwWriting then !t.sv.holdupOk else s.sec.fwPaused }) ∧
  (∀ s, ∃ t, exec (.holdupTest true) s = .next t ∧ Same { sv := true } s t ∧ t.sv = { s.sv with holdupBad := false }) ∧
  (∀ s, ∃ t, exec (.holdupTest false) s = .next t ∧ Same { sv := true, sec := true, i3c := true } s t ∧ t.sv.holdupBad = true ∧
    t.sv.holdupOk = false ∧ srcHoldup ∈ t.sv.sticky ∧ (s.sec.fwState = fwWriting → t.sec.fwPaused = true))

/-- A shutdown of dies that are down changes nothing. A power or thermal shutdown sets its source, puts the dies in reset, loses Home and Stash,
closes both dimensions and empties the queue manager; so does the loss of VAUX, after which bring-up waits at step 1. A cold reset outside a
shutdown records its cause, then waits at step 1 while VAUX or RESET_N is low, takes the straps and waits at step 2 while REFCLK_A is absent,
or goes through the checks of its start. After a shutdown only RESET_N starts one, once the hold-off has passed, and its cause is a shutdown
recovery. REFCLK_A and VIN12 continue a bring-up that waits for them and nothing else. A warm reset runs only for a cause that asked for it (or
in a TRIAL that expires); it records its cause and whether its phase A ran, and brings the dies up. -/
def Obligations.ShutdownsAndResets : Prop :=
  (∀ s, s.sv.on = false → exec .powerShutdown s = .next s ∧ exec .thermalShutdown s = .next s) ∧
  (∀ s, s.sv.on = true →
    (∃ t, exec .powerShutdown s = .next t ∧ t.sv.shutdown = 1 ∧ srcPower ∈ t.sv.sticky ∧ DiesDown s t) ∧
    (∃ t, exec .thermalShutdown s = .next t ∧ t.sv.shutdown = 2 ∧ srcThermal ∈ t.sv.sticky ∧ DiesDown s t)) ∧
  (∀ s, ∃ t, exec .vauxLoss s = .next t ∧ t.sv.shutdown = 0 ∧ t.sv.waiting = 1 ∧ DiesDown s t) ∧
  (∀ cause b s, s.sv.shutdown = 0 → 1 < cause → exec (.coldReset cause b) s = .next s) ∧
  (∀ cause b s, s.sv.shutdown = 0 → cause ≤ 1 → ∃ t, exec (.coldReset cause b) s = .next t ∧ ColdStarted s t cause b) ∧
  (∀ cause b s, s.sv.shutdown ≠ 0 →
    if cause = 0 ∨ 2 < cause then exec (.coldReset cause b) s = .next s
    else if s.sv.waiting = 17 then ∃ t, exec (.coldReset cause b) s = .next t ∧ ColdStarted s t 2 b
    else ∃ t, exec (.coldReset cause b) s = .next t ∧ Same { sv := true } s t ∧
      t.sv = { s.sv with waiting := if b.resetNHigh then 16 else s.sv.waiting }) ∧
  (∀ sensor b s, s.sv.shutdown = 0 ∨ 90 ≤ sensor → exec (.holdOffExpiry sensor b) s = .next s) ∧
  (∀ sensor b s, s.sv.shutdown ≠ 0 → sensor < 90 → ∃ t, exec (.holdOffExpiry sensor b) s = .next t ∧
    if s.sv.waiting = 16 then ColdStarted s t 2 b else Same { sv := true } s t ∧ t.sv = { s.sv with waiting := 17 }) ∧
  (∀ b s, if s.sv.waiting = 2 ∧ s.sv.shutdown = 0 then ∃ t, exec (.refclkAPresent b) s = .next t ∧ Booted s t b
    else exec (.refclkAPresent b) s = .next s) ∧
  (∀ b s, if s.sv.waiting = 4 ∧ s.sv.shutdown = 0 then ∃ t, exec (.vin12InRange b) s = .next t ∧ BroughtUp t b
    else exec (.vin12InRange b) s = .next s) ∧
  (∀ cause b s, if s.sv.on = true ∧ cause ∈ s.sv.warmReqs then ∃ t, exec (.warmReset cause b) s = .next t ∧
      (s.img.inForce = none → s.sec.fwState ≠ fwTrial → s.sec.fwState ≠ fwNone → WarmStarted s t cause b)
    else exec (.warmReset cause b) s = .next s) ∧
  (∀ ok b s, if s.sv.on = true ∧ s.sec.fwState = fwTrial then ∃ t, exec (.trialExpiry ok b) s = .next t ∧
      (s.img.inForce = none → ok = true → WarmStarted s t 10 b)
    else exec (.trialExpiry ok b) s = .next s)

/-- Where one of the commands of the queue manager and of the step sequencer answers a next
state, every group of State that is not named keeps its value, and so do the commands still waiting; MemSame says that no byte of Home, Stash or
Far changes either, for a command that only reads memory. -/
def Obligations.FramesOfQueuesAndSequencer : Prop :=
  (∀ queue s t, exec (.descriptorFetch queue) s = .next t →
    Same { Groups.faulted with mem := true, mu := true, qm := true, seq := true } s t ∧ MemSame s t) ∧
  (∀ queue s t, exec (.sealReread queue) s = .next t →
    Same { Groups.faulted with mem := true, mu := true, qm := true, seq := true } s t ∧ MemSame s t) ∧
  (∀ queue starved s t, exec (.dispatch queue starved) s = .next t →
    Same { Groups.counted with free := true, gz := true, tw := true, mu := true, streams := true, qm := true, seq := true, img := true, rings := true, snap := true, sec := true } s t) ∧
  (∀ queue value s t, exec (.doorbell queue value) s = .next t → Same { Groups.faulted with qm := true } s t) ∧
  (∀ value s t, exec (.resume value) s = .next t → Same { qm := true } s t) ∧
  (∀ value s t, exec (.rhead value) s = .next t → Same { Groups.counted with qm := true } s t) ∧
  (∀ f s t, exec (.completion f) s = .next t →
    Same { Groups.faulted with free := true, pkg := true, mem := true, gz := true, mu := true, qm := true, seq := true, rings := true, host := true, cores := true } s t) ∧
  (∀ h s t, exec (.nop h) s = .next t → Same { free := true, qm := true } s t) ∧
  (∀ h far remote panel s t, exec (.fence h far remote panel) s = .next t → Same { free := true, qm := true } s t) ∧
  (∀ h da len payload s t, exec (.inlineWrite h da len payload) s = .next t →
    Same { Groups.ended with mem := true, ck := true, ct := true, host := true } s t) ∧
  (∀ prog r patch arm queue slot ctr s t, exec (.post prog r patch arm queue slot ctr) s = .next t →
    Same { Groups.faulted with mem := true, mu := true, qm := true, seq := true } s t) ∧
  (∀ prog ctr target s t, exec (.wait prog ctr target) s = .next t → Same { seq := true } s t) ∧
  (∀ prog s t, exec (.fire prog) s = .next t → Same { ck := true, seq := true, sounds := true, seqNo := true } s t) ∧
  (∀ prog x core n off s t, exec (.amax prog x core n off) s = .next t → Same { Groups.ended with pkg := true } s t) ∧
  (∀ prog x da s t, exec (.amaxd prog x da) s = .next t →
    Same { Groups.faulted with mem := true, mu := true, seq := true } s t ∧ MemSame s t) ∧
  (∀ prog r x1 x2 s t, exec (.anchor prog r x1 x2) s = .next t → Same { seq := true } s t) ∧
  (∀ prog s t, exec (.sealPoint prog) s = .next t → Same { seq := true } s t) ∧
  (∀ prog s t, exec (.endProg prog) s = .next t → Same { seq := true } s t) ∧
  (∀ h count s t, exec (.sqRun h count) s = .next t → Same { free := true, qm := true, seq := true } s t) ∧
  (∀ h s t, exec (.sqStop h) s = .next t → Same { free := true, qm := true, seq := true } s t) ∧
  (∀ s t, exec .sealGate s = .next t → Same { Groups.counted with free := true, ck := true, qm := true, seq := true } s t) ∧
  (∀ s t, exec .closePart s = .next t → Same { seq := true } s t) ∧
  (∀ s t, exec .stepEnd s = .next t →
    Same { Groups.faulted with free := true, mem := true, mu := true, qm := true, seq := true, sec := true } s t) ∧
  (∀ prog s t, exec (.stepBudgetExpiry prog) s = .next t → Same { Groups.faulted with qm := true, seq := true } s t)

/-- Where one of the critical commands, those of the security engine, and the image load answers a next
state, every group of State that is not named keeps its value, and so do the commands still waiting; MemSame says that no byte of Home, Stash or
Far changes either, for a command that only reads memory. -/
def Obligations.FramesOfSecurityAndImages : Prop :=
  (∀ h tr panel what tier muslin value s t, exec (.quotaSet h tr panel what tier muslin value) s = .next t →
    Same { free := true, qm := true, img := true, sec := true } s t) ∧
  (∀ h tr s t, exec (.debugOn h tr) s = .next t → Same { free := true, qm := true, sec := true } s t) ∧
  (∀ h tr s t, exec (.lockSet h tr) s = .next t → Same { free := true, qm := true, sec := true } s t) ∧
  (∀ h tr s t, exec (.lockClear h tr) s = .next t → Same { free := true, qm := true, sec := true } s t) ∧
  (∀ h tr id version len data s t, exec (.almanacWrite h tr id version len data) s = .next t →
    Same { free := true, qm := true, sec := true } s t) ∧
  (∀ h tr s t, exec (.bypassForceClose h tr) s = .next t → Same { free := true, pkg := true, qm := true, rings := true, sec := true } s t) ∧
  (∀ h tr s t, exec (.bypassForceRelease h tr) s = .next t → Same { free := true, qm := true, rings := true, sec := true } s t) ∧
  (∀ h tr srcDa srcLen readbackBad s t, exec (.fwUpdateStart h tr srcDa srcLen readbackBad) s = .next t →
    Same { Groups.faulted with free := true, mem := true, mu := true, qm := true, sec := true } s t ∧ MemSame s t) ∧
  (∀ restoredOk s t, exec (.holdupWaitExpiry restoredOk) s = .next t →
    Same { free := true, qm := true, sv := true, sec := true, i3c := true } s t) ∧
  (∀ agent value s t, exec (.fwConfirm agent value) s = .next t → Same { sec := true } s t) ∧
  (∀ h slot keyNum agreeCtr ctDa sigDa s t, exec (.keyAgree h slot keyNum agreeCtr ctDa sigDa) s = .next t →
    Same { Groups.faulted with free := true, mem := true, mu := true, qm := true, sec := true } s t ∧ MemSame s t) ∧
  (∀ h slot s t, exec (.keyRetire h slot) s = .next t → Same { free := true, qm := true, sec := true } s t) ∧
  (∀ h keyDa sigDa agreeCtr s t, exec (.ownerSet h keyDa sigDa agreeCtr) s = .next t →
    Same { Groups.faulted with free := true, mem := true, mu := true, qm := true, sec := true } s t ∧ MemSame s t) ∧
  (∀ h outDa outLen cert nonce s t, exec (.quote h outDa outLen cert nonce) s = .next t →
    Same { Groups.faulted with free := true, mem := true, mu := true, qm := true } s t) ∧
  (∀ h tr op s t, exec (.imageLoad h tr op) s = .next t →
    Same { Groups.faulted with free := true, mem := true, gz := true, mu := true, qm := true, img := true, sec := true } s t ∧ MemSame s t) ∧
  (∀ s t, exec .commitPoint s = .next t → Same { Groups.ended with pkg := true, mem := true, ck := true, twin := true } s t) ∧
  (∀ h tr op s t, exec (.twinTakeover h tr op) s = .next t →
    Same { Groups.faulted with free := true, mem := true, gz := true, mu := true, qm := true, img := true, twin := true, sec := true } s t) ∧
  (∀ h op s t, exec (.tnHandback h op) s = .next t →
    Same { Groups.faulted with free := true, mem := true, gz := true, mu := true, qm := true, img := true } s t ∧ MemSame s t)

/-- Where one of writes of registers with a behaviour of their own, and accesses of the host link, the far ports and the cores answers a next
state, every group of State that is not named keeps its value, and so do the commands still waiting; MemSame says that no byte of Home, Stash or
Far changes either, for a command that only reads memory. -/
def Obligations.FramesOfRegistersAndAccesses : Prop :=
  (∀ die value s t, exec (.swap die value) s = .next t → Same { gz := true } s t) ∧
  (∀ die agent value s t, exec (.tcCreditWrite die agent value) s = .next t → Same { gz := true } s t) ∧
  (∀ die value s t, exec (.rejoin die value) s = .next t → Same { gz := true, qm := true, rings := true } s t) ∧
  (∀ s t, exec .datumCtlFire s = .next t → Same { ck := true, sounds := true, seqNo := true } s t) ∧
  (∀ fire s t, exec (.resync fire) s = .next t → Same { Groups.ended with ck := true } s t) ∧
  (∀ die agent value s t, exec (.ckPlanWrite die agent value) s = .next t → Same { ck := true } s t) ∧
  (∀ die off s t, exec (.counterClear die off) s = .next t → Same { regs := true } s t) ∧
  (∀ die value s t, exec (.dirLookup die value) s = .next t → Same { regs := true } s t) ∧
  (∀ idx value s t, exec (.faultClear idx value) s = .next t → Same { sv := true, sounds := true, seqNo := true } s t) ∧
  (∀ value s t, exec (.panelRst value) s = .next t → Same { regs := true, sv := true } s t) ∧
  (∀ panel s t, exec (.perPanelReset panel) s = .next t →
    Same { regs := true, gz := true, tw := true, mu := true, streams := true, qm := true, sv := true } s t) ∧
  (∀ agent value s t, exec (.warmReq agent value) s = .next t → Same { sv := true } s t) ∧
  (∀ value s t, exec (.mboxGo value) s = .next t →
    Same { Groups.faulted with free := true, mem := true, mu := true, qm := true, host := true } s t) ∧
  (∀ value s t, exec (.hstreamFill value) s = .next t → Same { Groups.counted with free := true, streams := true } s t) ∧
  (∀ value s t, exec (.snapHostRel value) s = .next t →
    Same { Groups.faulted with free := true, mem := true, mu := true, qm := true, snap := true } s t) ∧
  (∀ value s t, exec (.ctCtlWrite value) s = .next t → Same { ct := true } s t) ∧
  (∀ value s t, exec (.inject value) s = .next t → Same { tw := true, mu := true, sv := true, i3c := true } s t) ∧
  (∀ die off agent mask value s t, exec (.regWrite die off agent mask value) s = .next t →
    Same { Groups.ended with mem := true, ck := true, ct := true, host := true } s t) ∧
  (∀ bar addr len s t, exec (.hostRead bar addr len) s = .next t →
    Same { Groups.faulted with free := true, mem := true, mu := true, host := true } s t ∧ MemSame s t) ∧
  (∀ bar addr data s t, exec (.hostWrite bar addr data) s = .next t →
    Same { Groups.ended with mem := true, ck := true, ct := true, host := true } s t) ∧
  (∀ core agent da len s t, exec (.coreLoad core agent da len) s = .next t →
    Same { Groups.faulted with free := true, mem := true, mu := true, cores := true } s t ∧ MemSame s t) ∧
  (∀ core s t, exec (.coreFence core) s = .next t → Same { cores := true } s t) ∧
  (∀ s t, exec .hostLinkReset s = .next t → Same { Groups.counted with free := true, host := true } s t) ∧
  (∀ high s t, exec (.hlPerstN high) s = .next t → Same { Groups.counted with free := true, host := true } s t) ∧
  (∀ port tag s t, exec (.cxlMemCompletion port tag) s = .next t →
    Same { Groups.counted with free := true, mem := true, mu := true, qm := true } s t) ∧
  (∀ port tag s t, exec (.farCplTimeout port tag) s = .next t → Same { Groups.faulted with free := true, mem := true, qm := true } s t) ∧
  (∀ port s t, exec (.farLinkLoss port) s = .next t → Same { Groups.faulted with free := true, pkg := true, mem := true, qm := true } s t) ∧
  (∀ port link expanders gib s t, exec (.farRetrain port link expanders gib) s = .next t → Same { free := true, pkg := true } s t)

/-- Where one of the commands of streams, of Twill, of the Muslin engines and of the optimizer answers a next
state, every group of State that is not named keeps its value, and so do the commands still waiting; MemSame says that no byte of Home, Stash or
Far changes either, for a command that only reads memory. -/
def Obligations.FramesOfComputeAndOptimizer : Prop :=
  (∀ h op s t, exec (.stRearm h op) s = .next t → Same { Groups.ended with pkg := true, mem := true } s t) ∧
  (∀ h stream core bytes s t, exec (.stRelease h stream core bytes) s = .next t → Same { Groups.ended with pkg := true, mem := true } s t) ∧
  (∀ stream s t, exec (.stallBudgetExpiry stream) s = .next t → Same { Groups.faulted with streams := true } s t) ∧
  (∀ s t, exec .stallArbiterDecision s = .next t → Same { Groups.ended with pkg := true, mem := true } s t) ∧
  (∀ f s t, exec (.mcastData f) s = .next t → Same { Groups.ended with pkg := true, mem := true } s t) ∧
  (∀ group s t, exec (.mcDetach group) s = .next t →
    Same { Groups.faulted with free := true, mem := true, gz := true, mu := true, streams := true, qm := true } s t) ∧
  (∀ h op s t, exec (.twMatmul h op) s = .next t → Same { Groups.ended with pkg := true } s t) ∧
  (∀ h op s t, exec (.twDrain h op) s = .next t → Same { Groups.ended with pkg := true } s t) ∧
  (∀ h op s t, exec (.twMax h op) s = .next t → Same { Groups.ended with pkg := true } s t) ∧
  (∀ h op s t, exec (.twMin h op) s = .next t → Same { Groups.ended with pkg := true } s t) ∧
  (∀ h op s t, exec (.muGather h op) s = .next t → Same { Groups.ended with pkg := true, mem := true } s t) ∧
  (∀ h op s t, exec (.muGradScatter h op) s = .next t →
    Same { Groups.faulted with free := true, mem := true, gz := true, mu := true, qm := true } s t ∧ MemSame s t) ∧
  (∀ h op s t, exec (.muLedgerAdd h op) s = .next t →
    Same { Groups.faulted with free := true, pkg := true, mem := true, gz := true, mu := true, qm := true, rings := true } s t ∧ MemSame s t) ∧
  (∀ m s t, exec (.atomicAdd m) s = .next t →
    Same { Groups.faulted with free := true, pkg := true, gz := true, mu := true, qm := true, seq := true, rings := true } s t) ∧
  (∀ h muslin expectStep s t, exec (.muSeal h muslin expectStep) s = .next t → Same { free := true, mu := true, qm := true } s t) ∧
  (∀ muslin s t, exec (.sealTakesEffect muslin) s = .next t →
    Same { Groups.counted with free := true, gz := true, mu := true, qm := true, seq := true } s t) ∧
  (∀ h muslin table row targetDa s t, exec (.muMigrate h muslin table row targetDa) s = .next t →
    Same { free := true, mu := true, qm := true } s t) ∧
  (∀ owner table row s t, exec (.migrationMoving owner table row) s = .next t → Same { gz := true, mu := true } s t) ∧
  (∀ owner table row s t, exec (.migrationAbandon owner table row) s = .next t →
    Same { Groups.counted with free := true, gz := true, mu := true, qm := true } s t) ∧
  (∀ owner table row s t, exec (.moveStart owner table row) s = .next t →
    Same { Groups.faulted with free := true, mem := true, gz := true, mu := true, qm := true } s t) ∧
  (∀ owner table row s t, exec (.moveDone owner table row) s = .next t →
    Same { Groups.counted with free := true, gz := true, mu := true, qm := true } s t) ∧
  (∀ owner table row s t, exec (.switchMsg owner table row) s = .next t → Same { mu := true } s t) ∧
  (∀ owner table row s t, exec (.forwardingEnd owner table row) s = .next t → Same { Groups.counted with gz := true, mu := true } s t) ∧
  (∀ h muslin keepPending table row srcDa s t, exec (.muRowRestore h muslin keepPending table row srcDa) s = .next t →
    Same { Groups.faulted with free := true, pkg := true, mem := true, gz := true, mu := true, qm := true, rings := true, twin := true } s t) ∧
  (∀ h op s t, exec (.muOptDense h op) s = .next t →
    Same { Groups.faulted with free := true, pkg := true, mem := true, gz := true, tw := true, mu := true, qm := true, rings := true, twin := true } s t) ∧
  (∀ h muslin panel expectStep paramDa s t, exec (.muOptClose h muslin panel expectStep paramDa) s = .next t →
    Same { Groups.faulted with free := true, pkg := true, mem := true, gz := true, tw := true, mu := true, qm := true, rings := true, twin := true } s t) ∧
  (∀ muslin s t, exec (.bankRelease muslin) s = .next t →
    Same { Groups.faulted with free := true, pkg := true, mem := true, gz := true, mu := true, qm := true, rings := true, twin := true } s t)

/-- Where one of the events of upkeep, of faults and reclaims, and the messages of Gauze answers a next
state, every group of State that is not named keeps its value, and so do the commands still waiting; MemSame says that no byte of Home, Stash or
Far changes either, for a command that only reads memory. -/
def Obligations.FramesOfUpkeepEventsAndMessages : Prop :=
  (∀ owner table row s t, exec (.shadowEntryValid owner table row) s = .next t → Same { mu := true } s t) ∧
  (∀ die owner table row s t, exec (.shadowInvalidation die owner table row) s = .next t →
    Same { free := true, mu := true, qm := true } s t) ∧
  (∀ s t, exec .stepStart s = .next t → Same { Groups.ended with pkg := true, mem := true } s t ∧ MemSame s t) ∧
  (∀ owner table row record poisoned s t, exec (.patchAnswer owner table row record poisoned) s = .next t →
    Same { Groups.faulted with mem := true, gz := true, mu := true } s t) ∧
  (∀ owner table row s t, exec (.patchTimeout owner table row) s = .next t → Same { Groups.counted with gz := true, mu := true } s t) ∧
  (∀ table row s t, exec (.patchRequest table row) s = .next t → Same { twin := true } s t) ∧
  (∀ die half s t, exec (.scrubRead die half) s = .next t →
    Same { Groups.faulted with free := true, mem := true, gz := true, mu := true, seq := true } s t ∧ MemSame s t) ∧
  (∀ stack bank s t, exec (.refresh stack bank) s = .next t → Same { free := true, mu := true } s t) ∧
  (∀ far index s t, exec (.bandwidthWindow far index) s = .next t → Same { Groups.counted with free := true, mu := true } s t) ∧
  (∀ bad s t, exec (.datumEdge bad) s = .next t → Same { Groups.ended with ck := true } s t) ∧
  (∀ die s t, exec (.pllLossOfLock die) s = .next t → Same { Groups.ended with pkg := true, ck := true } s t) ∧
  (∀ queue index s t, exec (.deadlineExpiry queue index) s = .next t →
    Same { Groups.ended with pkg := true, mem := true, twin := true } s t) ∧
  (∀ core s t, exec (.panelFault core) s = .next t → Same { Groups.ended with pkg := true, mem := true, twin := true } s t) ∧
  (∀ party s t, exec (.unitError party) s = .next t → Same { Groups.ended with pkg := true } s t) ∧
  (∀ kind holder s t, exec (.leaseExpiry kind holder) s = .next t → Same { Groups.ended with pkg := true } s t) ∧
  (∀ die s t, exec (.mgmtParityFailure die) s = .next t → Same { Groups.ended with pkg := true } s t) ∧
  (∀ party s t, exec (.released party) s = .next t → Same { Groups.ended with pkg := true } s t) ∧
  (∀ s t, exec .reclaimTimeout s = .next t → Same { Groups.ended with pkg := true } s t) ∧
  (∀ party s t, exec (.free party) s = .next t → Same { Groups.ended with mem := true } s t) ∧
  (∀ s t, exec .quietPeriodExpiry s = .next t → Same { sv := true, sounds := true, seqNo := true } s t) ∧
  (∀ s t, exec .svclkCheckFailure s = .next t → Same { sv := true, i3c := true } s t) ∧
  (∀ f s t, exec (.read f) s = .next t → Same { Groups.ended with pkg := true, mem := true } s t ∧ MemSame s t) ∧
  (∀ f s t, exec (.readResp f) s = .next t →
    Same { Groups.faulted with free := true, pkg := true, mem := true, gz := true, mu := true, qm := true, rings := true } s t) ∧
  (∀ f s t, exec (.writeAck f) s = .next t →
    Same { Groups.faulted with free := true, pkg := true, gz := true, streams := true, qm := true, rings := true, twin := true, cores := true } s t) ∧
  (∀ f s t, exec (.regResp f) s = .next t → Same { Groups.faulted with free := true, pkg := true, gz := true, qm := true } s t) ∧
  (∀ f s t, exec (.sounding f) s = .next t → Same { Groups.faulted with pkg := true, mem := true, gz := true, mu := true } s t) ∧
  (∀ f s t, exec (.backgroundMove f) s = .next t → Same { Groups.faulted with pkg := true, mem := true, gz := true, mu := true } s t) ∧
  (∀ die port tc n s t, exec (.credit die port tc n) s = .next t → Same { gz := true } s t) ∧
  (∀ die port again s t, exec (.flitCrcError die port again) s = .next t → Same { Groups.faulted with pkg := true, gz := true } s t) ∧
  (∀ die port s t, exec (.laneRepair die port) s = .next t → Same { pkg := true } s t) ∧
  (∀ die port s t, exec (.laneRepairExhausted die port) s = .next t → Same { pkg := true, gz := true, sv := true, i3c := true } s t)

/-- Where one of the commands and events of the rings and of the twin pair answers a next
state, every group of State that is not named keeps its value, and so do the commands still waiting; MemSame says that no byte of Home, Stash or
Far changes either, for a command that only reads memory. -/
def Obligations.FramesOfRingsAndTwin : Prop :=
  (∀ h op s t, exec (.rgPut h op) s = .next t →
    Same { Groups.faulted with free := true, pkg := true, mem := true, gz := true, mu := true, qm := true, rings := true } s t ∧ MemSame s t) ∧
  (∀ h op s t, exec (.rgGet h op) s = .next t →
    Same { Groups.faulted with free := true, pkg := true, mem := true, gz := true, mu := true, qm := true, rings := true } s t ∧ MemSame s t) ∧
  (∀ die tok s t, exec (.tokenIn die tok) s = .next t → Same { rings := true } s t) ∧
  (∀ dev step s t, exec (.sent dev step) s = .next t → Same { rings := true } s t) ∧
  (∀ dev step s t, exec (.openTok dev step) s = .next t → Same { rings := true } s t) ∧
  (∀ dev aux orig count s t, exec (.topo dev aux orig count) s = .next t → Same { rings := true } s t) ∧
  (∀ dev target s t, exec (.aliasTok dev target) s = .next t → Same { rings := true } s t) ∧
  (∀ s t, exec .sendSent s = .next t → Same { rings := true } s t) ∧
  (∀ s t, exec .sendOpen s = .next t → Same { rings := true } s t) ∧
  (∀ s t, exec .tokenWaitExpiry s = .next t → Same { Groups.counted with rings := true } s t) ∧
  (∀ die tag s t, exec (.remoteTimeout die tag) s = .next t →
    Same { Groups.faulted with free := true, gz := true, qm := true, rings := true } s t) ∧
  (∀ die f s t, exec (.ident die f) s = .next t →
    Same { Groups.counted with free := true, pkg := true, gz := true, qm := true, rings := true, twin := true, sv := true } s t) ∧
  (∀ die s t, exec (.uncorrectableCodeword die) s = .next t → Same { Groups.counted with pkg := true, rings := true, twin := true } s t) ∧
  (∀ die lane s t, exec (.ringLaneFailure die lane) s = .next t → Same { Groups.counted with pkg := true, rings := true, twin := true } s t) ∧
  (∀ die s t, exec (.lossOfSignal die) s = .next t →
    Same { free := true, pkg := true, qm := true, rings := true, twin := true, snap := true } s t) ∧
  (∀ die s t, exec (.signalDetected die) s = .next t → Same { Groups.counted with pkg := true, rings := true, twin := true } s t) ∧
  (∀ die s t, exec (.trainingFailure die) s = .next t →
    Same { Groups.counted with free := true, pkg := true, gz := true, qm := true, rings := true } s t) ∧
  (∀ die s t, exec (.brokenRetry die) s = .next t → Same { Groups.counted with pkg := true, rings := true, twin := true } s t) ∧
  (∀ cause dim s t, exec (.bypassCause cause dim) s = .next t → Same { pkg := true, rings := true } s t) ∧
  (∀ dim s t, exec (.dimensionOpen dim) s = .next t → Same { free := true, pkg := true, qm := true, rings := true } s t) ∧
  (∀ f s t, exec (.idle f) s = .next t →
    Same { Groups.counted with free := true, pkg := true, gz := true, streams := true, qm := true, rings := true } s t) ∧
  (∀ die f s t, exec (.flitFrame die f) s = .next t →
    Same { Groups.counted with free := true, pkg := true, gz := true, streams := true, qm := true, rings := true, twin := true } s t) ∧
  (∀ r s t, exec (.journalData r) s = .next t → Same { Groups.faulted with mem := true, mu := true, twin := true } s t) ∧
  (∀ r s t, exec (.journalBase r) s = .next t → Same { Groups.faulted with mem := true, mu := true, twin := true } s t) ∧
  (∀ r s t, exec (.journalEnd r) s = .next t → Same { Groups.faulted with mem := true, mu := true, twin := true } s t) ∧
  (∀ r s t, exec (.journalBaseEnd r) s = .next t → Same { Groups.faulted with mem := true, mu := true, twin := true } s t) ∧
  (∀ s t, exec .yield s = .next t → Same { pkg := true, rings := true, twin := true, sv := true } s t) ∧
  (∀ step s t, exec (.handbackStepNumber step) s = .next t →
    Same { Groups.counted with free := true, pkg := true, gz := true, qm := true, seq := true, rings := true, twin := true } s t) ∧
  (∀ h op s t, exec (.tnSnapshot h op) s = .next t →
    Same { Groups.faulted with free := true, pkg := true, mem := true, gz := true, mu := true, qm := true, rings := true, snap := true } s t)

/-- Where one of the I3C transfers, the power and thermal events, and the events a bring-up waits for answers a next
state, every group of State that is not named keeps its value, and so do the commands still waiting; MemSame says that no byte of Home, Stash or
Far changes either, for a command that only reads memory. -/
def Obligations.FramesOfManagementPowerAndBringUp : Prop :=
  (∀ data s t, exec (.privateWrite data) s = .next t → Same { i3c := true } s t) ∧
  (∀ s t, exec .privateRead s = .next t → Same { i3c := true } s t) ∧
  (∀ dyn s t, exec (.entdaa dyn) s = .next t → Same { i3c := true } s t) ∧
  (∀ static dyn s t, exec (.setdasa static dyn) s = .next t → Same { i3c := true } s t) ∧
  (∀ s t, exec .rstdaa s = .next t → Same { i3c := true } s t) ∧
  (∀ s t, exec .getpid s = .next t → Same { i3c := true } s t) ∧
  (∀ s t, exec .getbcr s = .next t → Same { i3c := true } s t) ∧
  (∀ s t, exec .getdcr s = .next t → Same { i3c := true } s t) ∧
  (∀ s t, exec .getstatus s = .next t → Same { free := true, i3c := true } s t) ∧
  (∀ ibi s t, exec (.enec ibi) s = .next t → Same { i3c := true } s t) ∧
  (∀ ibi s t, exec (.disec ibi) s = .next t → Same { i3c := true } s t) ∧
  (∀ byte s t, exec (.inBandInterruptAccepted byte) s = .next t → Same { i3c := true } s t) ∧
  (∀ reports s t, exec (.powerReport reports) s = .next t → Same { sv := true, ct := true } s t) ∧
  (∀ s t, exec .emergency s = .next t → Same { sv := true, i3c := true } s t) ∧
  (∀ s t, exec .emergencyLift s = .next t → Same { sv := true } s t) ∧
  (∀ s t, exec .contourInterval s = .next t → Same { Groups.counted with free := true, tw := true, ct := true } s t) ∧
  (∀ s t, exec .contourWindow s = .next t → Same { Groups.counted with ct := true } s t) ∧
  (∀ s t, exec .contourSounding s = .next t → Same { ct := true, sounds := true, seqNo := true } s t) ∧
  (∀ die quarters s t, exec (.thermalReport die quarters) s = .next t →
    Same { tw := true, sv := true, i3c := true, sounds := true, seqNo := true } s t) ∧
  (∀ die s t, exec (.throttleStep die) s = .next t → Same { Groups.counted with sv := true } s t) ∧
  (∀ die s t, exec (.thermalDutyRise die) s = .next t → Same { sv := true } s t) ∧
  (∀ energyMj enough s t, exec (.holdupMeasure energyMj enough) s = .next t → Same { sv := true, sec := true } s t) ∧
  (∀ pass s t, exec (.holdupTest pass) s = .next t → Same { sv := true, sec := true, i3c := true } s t) ∧
  (∀ b s t, exec (.refclkAPresent b) s = .next t →
    Same { free := true, pkg := true, regs := true, gz := true, ck := true, qm := true, rings := true, sv := true, sec := true, ct := true, host := true, i3c := true } s t) ∧
  (∀ b s t, exec (.vin12InRange b) s = .next t →
    Same { free := true, pkg := true, regs := true, gz := true, ck := true, qm := true, rings := true, sv := true, sec := true, ct := true, host := true, i3c := true } s t)
end

