-- ==== Sys2Proof/Laws/Maps.lean ====
section
/-!
SUPPORT. What reading and writing sparse tables does: a read after a write, and that every operation keeps the keys strictly rising.
-/

namespace Sys2Proof.Machine

variable {α : Type}

@[simp] theorem look_nil (k : Nat) : look ([] : FMap α) k = none := rfl

/-- A key below every key of a rising table is not listed. -/
theorem look_below (m : FMap α) (x k : Nat) (h : rising (some x) m = true) (hk : k ≤ x) : look m k = none := by
  induction m generalizing x with
  | nil => rfl
  | cons p r ih =>
    simp only [rising, Bool.and_eq_true, decide_eq_true_eq] at h
    rw [look, if_neg (by omega)]
    exact ih p.1 h.2 (by omega)

/-- Reading the key just put gives what was put. -/
@[simp] theorem look_put_self (m : FMap α) (k : Nat) (v : α) : look (put m k v) k = some v := by
  induction m with
  | nil => simp [put, look]
  | cons p r ih =>
    obtain ⟨k', v'⟩ := p
    rw [put]; split
    · simp [look]
    · split
      · simp [look]
      · rename_i h; rw [look, if_neg h, ih]

/-- Of two values put under one key the second stays. -/
@[simp] theorem put_put (m : FMap α) (k : Nat) (a b : α) : put (put m k a) k b = put m k b := by
  induction m with
  | nil => simp [put]
  | cons p r ih =>
    obtain ⟨k', v'⟩ := p
    rw [put, put]; split
    · rename_i h; rw [put, if_neg (Nat.lt_irrefl k), if_pos rfl]
    · split
      · rename_i h1; subst h1; simp [put]
      · rename_i h1 h2; simp [put, h1, h2, ih]

/-- A read of a table whose values are all changed. -/
@[simp] theorem look_mapVals (f : Nat → α → α) (m : FMap α) (k : Nat) : look (mapVals f m) k = (look m k).map (f k) := by
  induction m with
  | nil => rfl
  | cons p r ih =>
    obtain ⟨k', v'⟩ := p
    simp only [mapVals, List.map_cons, look] at ih ⊢
    split
    · next h => subst h; rfl
    · exact ih

/-- Putting a key leaves every other key. -/
theorem look_put_ne (m : FMap α) (k j : Nat) (v : α) (h : j ≠ k) : look (put m k v) j = look m j := by
  induction m with
  | nil => simp [put, look, h]
  | cons p r ih =>
    obtain ⟨k', v'⟩ := p
    rw [put]; split
    · rw [look, if_neg h]
    · split
      · subst k'; simp [look, h]
      · simp only [look]; split
        · rfl
        · exact ih

/-- Reading after a put. -/
theorem look_put (m : FMap α) (k j : Nat) (v : α) : look (put m k v) j = if j = k then some v else look m j := by
  split
  · subst j; exact look_put_self m k v
  · exact look_put_ne m k j v ‹_›

@[simp] theorem lookD_put_self (m : FMap α) (k : Nat) (v d : α) : lookD (put m k v) k d = v := by simp [lookD]

theorem lookD_put_ne (m : FMap α) (k j : Nat) (v d : α) (h : j ≠ k) : lookD (put m k v) j d = lookD m j d := by
  simp [lookD, look_put_ne m k j v h]

@[simp] theorem look0_put_self (m : FMap Nat) (k v : Nat) : look0 (put m k v) k = v := by simp [look0]

theorem look0_put_ne (m : FMap Nat) (k j v : Nat) (h : j ≠ k) : look0 (put m k v) j = look0 m j := by
  simp [look0, lookD_put_ne m k j v 0 h]

/-- A removed key of a rising table is not listed. -/
theorem look_del_self (m : FMap α) (k : Nat) (h : rising none m = true) : look (del m k) k = none := by
  suffices ∀ b, rising b m = true → look (del m k) k = none from this none h
  clear h
  intro b h
  induction m generalizing b with
  | nil => rfl
  | cons p r ih =>
    simp only [rising, Bool.and_eq_true] at h
    rw [del]; split
    · subst k; exact look_below _ p.1 _ h.2 (Nat.le_refl _)
    · rename_i hn; rw [look, if_neg hn]; exact ih _ h.2

/-- Removing a key leaves every other key. -/
theorem look_del_ne (m : FMap α) (k j : Nat) (h : j ≠ k) : look (del m k) j = look m j := by
  induction m with
  | nil => rfl
  | cons p r ih =>
    obtain ⟨k', v'⟩ := p
    rw [del]; split
    · subst k'; rw [look, if_neg h]
    · simp only [look]; split
      · rfl
      · exact ih

/-- A smaller bound also holds. -/
theorem rising_weaken (m : FMap α) (a b : Nat) (h : rising (some b) m = true) (hab : a ≤ b) : rising (some a) m = true := by
  cases m with
  | nil => rfl
  | cons p r => simp only [rising, Bool.and_eq_true, decide_eq_true_eq] at h ⊢; exact ⟨by omega, h.2⟩

theorem rising_none (m : FMap α) (b : Option Nat) (h : rising b m = true) : rising none m = true := by
  cases m with
  | nil => rfl
  | cons p r => simp only [rising, Bool.and_eq_true] at h ⊢; exact ⟨trivial, h.2⟩

/-- A put keeps the keys rising. -/
theorem rising_put (m : FMap α) (b : Option Nat) (k : Nat) (v : α) (h : rising b m = true) (hb : ∀ x, b = some x → x < k) :
    rising b (put m k v) = true := by
  induction m generalizing b with
  | nil => cases b <;> simp [put, rising]; exact hb _ rfl
  | cons p r ih =>
    obtain ⟨k', v'⟩ := p
    simp only [rising, Bool.and_eq_true] at h
    have hd (q : FMap α) (hq : rising (some k) q = true) : rising b ((k, v) :: q) = true := by
      cases b with
      | none => exact hq
      | some x => simp only [rising, Bool.and_eq_true, decide_eq_true_eq]; exact ⟨hb x rfl, hq⟩
    rw [put]; split
    · exact hd _ (by simp only [rising, Bool.and_eq_true, decide_eq_true_eq]; exact ⟨‹_›, h.2⟩)
    · split
      · subst k'; exact hd _ h.2
      · simp only [rising, Bool.and_eq_true]
        exact ⟨h.1, ih _ h.2 (by intro x hx; cases hx; omega)⟩

theorem put_rising (m : FMap α) (k : Nat) (v : α) (h : rising none m = true) : rising none (put m k v) = true :=
  rising_put m none k v h (by simp)

/-- A filtered table keeps its keys rising. -/
theorem keep_rising (f : Nat → α → Bool) (m : FMap α) (h : rising none m = true) : rising none (keep f m) = true := by
  suffices ∀ b, rising b m = true → rising b (keep f m) = true from this none h
  clear h
  intro b h
  induction m generalizing b with
  | nil => exact h
  | cons p r ih =>
    simp only [rising, Bool.and_eq_true] at h
    by_cases hf : f p.1 p.2 = true
    · simp only [keep, List.filter_cons, hf, if_true, rising, Bool.and_eq_true]; exact ⟨h.1, ih _ h.2⟩
    · simp only [keep, List.filter_cons, hf]
      have := ih _ h.2
      cases b with
      | none => exact rising_none _ _ this
      | some x => exact rising_weaken _ x p.1 this (by simp at h; omega)

/-- A key removed keeps the rest rising. -/
theorem del_rising (m : FMap α) (k : Nat) (h : rising none m = true) : rising none (del m k) = true := by
  suffices ∀ b, rising b m = true → rising b (del m k) = true from this none h
  clear h
  intro b h
  induction m generalizing b with
  | nil => exact h
  | cons p r ih =>
    simp only [rising, Bool.and_eq_true] at h
    rw [del]; split
    · cases b with
      | none => exact rising_none _ _ h.2
      | some x => exact rising_weaken _ x p.1 h.2 (by simp at h; omega)
    · simp only [rising, Bool.and_eq_true]; exact ⟨h.1, ih _ h.2⟩

/-- A number put into a strictly rising list keeps it so, and it stays above a bound. -/
theorem ins_rising (l : List Nat) (k : Nat) (h : l.Pairwise (· < ·)) : (ins l k).Pairwise (· < ·) := by
  suffices (ins l k).Pairwise (· < ·) ∧ ∀ x ∈ ins l k, x = k ∨ x ∈ l from this.1
  induction l with
  | nil => simp [ins]
  | cons a r ih =>
    rw [List.pairwise_cons] at h
    have ih := ih h.2
    rw [ins]; split
    · rename_i hk
      refine ⟨List.pairwise_cons.2 ⟨?_, List.pairwise_cons.2 h⟩, by simp⟩
      intro x hx
      rcases List.mem_cons.1 hx with rfl | hx
      · exact hk
      · have := h.1 x hx; omega
    · split
      · exact ⟨List.pairwise_cons.2 h, fun x hx => .inr hx⟩
      · refine ⟨List.pairwise_cons.2 ⟨?_, ih.1⟩, ?_⟩
        · intro x hx
          rcases ih.2 x hx with rfl | hx
          · omega
          · exact h.1 x hx
        · intro x hx
          rcases List.mem_cons.1 hx with rfl | hx
          · simp
          · rcases ih.2 x hx with rfl | hx <;> simp [*]

theorem insAll_rising (ks : List Nat) : ∀ l : List Nat, l.Pairwise (· < ·) → (insAll l ks).Pairwise (· < ·) := by
  induction ks with
  | nil => exact fun _ h => h
  | cons a r ih => exact fun l h => ih _ (ins_rising l a h)

/-- What a list of numbers holds after one more is put in. -/
@[simp] theorem mem_ins (l : List Nat) (k x : Nat) : x ∈ ins l k ↔ x = k ∨ x ∈ l := by
  induction l with
  | nil => simp [ins]
  | cons a r ih =>
    rw [ins]; split
    · simp
    · split
      · subst k; simp
      · simp only [List.mem_cons, ih]; exact or_left_comm

@[simp] theorem mem_insAll (ks : List Nat) : ∀ (l : List Nat) (x : Nat), x ∈ insAll l ks ↔ x ∈ ks ∨ x ∈ l := by
  induction ks with
  | nil => intro l x; simp [insAll]
  | cons a r ih => intro l x; show x ∈ insAll (ins l a) r ↔ _; rw [ih, mem_ins, List.mem_cons]; grind

end Sys2Proof.Machine
end

