-- ==== Sys2Proof/Laws/Memory.lean ====
section
/-!
SUPPORT. Memory: every operation on its cells keeps the canonical form, and a byte read after a write is the byte written there, or
the byte that stood there before.
-/

namespace Sys2Proof.Machine

theorem all_put {α : Type} (f : Nat × α → Bool) (m : FMap α) (k : Nat) (v : α) (h : m.all f = true) (hv : f (k, v) = true) :
    (put m k v).all f = true := by
  induction m with
  | nil => simp [put, hv]
  | cons p r ih =>
    simp only [List.all_cons, Bool.and_eq_true] at h
    rw [put]; split
    · simp [List.all_cons, hv, h]
    · split
      · simp [List.all_cons, hv, h]
      · simp [List.all_cons, h.1, ih h.2]

theorem all_del {α : Type} (f : Nat × α → Bool) (m : FMap α) (k : Nat) (h : m.all f = true) : (del m k).all f = true := by
  induction m with
  | nil => exact h
  | cons p r ih =>
    simp only [List.all_cons, Bool.and_eq_true] at h
    rw [del]; split
    · exact h.2
    · simp [List.all_cons, h.1, ih h.2]

/-- One byte written keeps the canonical form. -/
theorem writeCell_wf (c : List Host.Cell) (a : Nat) (b : Byte) (h : Memory.wf c = true) : Memory.wf (writeCell c a b) = true := by
  simp only [Memory.wf, Bool.and_eq_true] at h ⊢
  rw [writeCell]; split
  · exact ⟨del_rising c a h.1, all_del _ c a h.2⟩
  · exact ⟨put_rising c a b h.1, all_put _ c a b h.2 (by simpa using ‹_›)⟩

/-- Bytes written keep the canonical form. -/
theorem writeCells_wf (bs : List Byte) : ∀ (c : List Host.Cell) (a : Nat), Memory.wf c = true → Memory.wf (writeCells c a bs) = true := by
  induction bs with
  | nil => exact fun _ _ h => h
  | cons b bs ih => exact fun c a h => ih _ _ (writeCell_wf c a b h)

/-- Cells filtered by address keep the canonical form. -/
theorem keep_wf (f : Nat → Byte → Bool) (c : List Host.Cell) (h : Memory.wf c = true) : Memory.wf (keep f c) = true := by
  simp only [Memory.wf, Bool.and_eq_true] at h ⊢
  refine ⟨keep_rising f c h.1, ?_⟩
  have := h.2
  simp only [List.all_eq_true, keep, List.mem_filter] at this ⊢
  exact fun x hx => this x hx.1

/-- Cells copied in keep the canonical form. -/
theorem foldl_writeCell_wf (l : List Host.Cell) : ∀ c : List Host.Cell, Memory.wf c = true →
    Memory.wf (l.foldl (fun c p => writeCell c p.1 p.2) c) = true := by
  induction l with
  | nil => exact fun _ h => h
  | cons p l ih => exact fun c h => ih _ (writeCell_wf c p.1 p.2 h)

/-- A byte after one byte is written. -/
theorem look_writeCell (c : List Host.Cell) (a x : Nat) (b : Byte) (h : Memory.wf c = true) :
    lookD (writeCell c a b) x 0 = if x = a then b else lookD c x 0 := by
  simp only [Memory.wf, Bool.and_eq_true] at h
  unfold writeCell
  split
  · subst b; split
    · subst x; simp [lookD, look_del_self c a h.1]
    · simp [lookD, look_del_ne c a x ‹_›]
  · split
    · subst x; simp
    · exact lookD_put_ne c a x b 0 ‹_›

/-- A byte after bytes are written upward from an address. -/
theorem look_writeCells (bs : List Byte) : ∀ (c : List Host.Cell) (a x : Nat), Memory.wf c = true →
    lookD (writeCells c a bs) x 0 = if a ≤ x ∧ x < a + bs.length then bs.getD (x - a) 0 else lookD c x 0 := by
  induction bs with
  | nil => intro c a x _; simp only [writeCells, List.length_nil]; rw [if_neg (by omega)]
  | cons b bs ih =>
    intro c a x h
    rw [writeCells, ih _ _ _ (writeCell_wf c a b h), look_writeCell c a x b h]
    by_cases hx : x = a
    · subst hx
      have e1 : ¬(x + 1 ≤ x ∧ x < x + 1 + bs.length) := by omega
      have e2 : x ≤ x ∧ x < x + (b :: bs).length := ⟨Nat.le_refl x, by rw [List.length_cons]; omega⟩
      rw [if_neg e1, if_pos rfl, if_pos e2, Nat.sub_self]; rfl
    · by_cases h1 : a ≤ x ∧ x < a + (b :: bs).length
      · have h2 : a + 1 ≤ x ∧ x < a + 1 + bs.length := by simp at h1; omega
        rw [if_pos h1, if_pos h2]
        obtain ⟨k, hk⟩ : ∃ k, x - a = k + 1 := ⟨x - a - 1, by omega⟩
        rw [hk, show x - (a + 1) = k by omega]; simp
      · have h2 : ¬(a + 1 ≤ x ∧ x < a + 1 + bs.length) := by simp at h1; omega
        rw [if_neg h1, if_neg h2, if_neg hx]

end Sys2Proof.Machine
end

