-- ==== Sys2Proof/Laws/Bytes.lean ====
section
/-!
SUPPORT. Which operations and commands leave every byte of Home, Stash and Far as it was: SameBytes r s says that of a state s reached from r.
-/

set_option linter.all false

namespace Sys2Proof.Machine

open Sys2Proof

/-- Every byte of memory, and every write on its way to an expander, is in s as in r. -/
structure SameBytes (r s : State) : Prop where
  cells  : s.mem.cells = r.mem.cells
  posted : s.mem.posted = r.mem.posted

variable {r s : State}

theorem SameBytes.refl (r : State) : SameBytes r r := ⟨rfl, rfl⟩

theorem State.onFree_bytes {f} (k : SameBytes r s) : SameBytes r (s.onFree f) := ⟨k.cells, k.posted⟩
theorem State.onPkg_bytes {f} (k : SameBytes r s) : SameBytes r (s.onPkg f) := ⟨k.cells, k.posted⟩
theorem State.onMem_bytes {f} (k : SameBytes r s) (h : ∀ m, (f m).cells = m.cells ∧ (f m).posted = m.posted) : SameBytes r (s.onMem f) :=
  ⟨(h _).1.trans k.cells, (h _).2.trans k.posted⟩
theorem State.onRegs_bytes {f} (k : SameBytes r s) : SameBytes r (s.onRegs f) := ⟨k.cells, k.posted⟩
theorem State.onGz_bytes {f} (k : SameBytes r s) : SameBytes r (s.onGz f) := ⟨k.cells, k.posted⟩
theorem State.onCk_bytes {f} (k : SameBytes r s) : SameBytes r (s.onCk f) := ⟨k.cells, k.posted⟩
theorem State.onTw_bytes {f} (k : SameBytes r s) : SameBytes r (s.onTw f) := ⟨k.cells, k.posted⟩
theorem State.onMu_bytes {f} (k : SameBytes r s) : SameBytes r (s.onMu f) := ⟨k.cells, k.posted⟩
theorem State.onStreams_bytes {f} (k : SameBytes r s) : SameBytes r (s.onStreams f) := ⟨k.cells, k.posted⟩
theorem State.onQm_bytes {f} (k : SameBytes r s) : SameBytes r (s.onQm f) := ⟨k.cells, k.posted⟩
theorem State.onSeq_bytes {f} (k : SameBytes r s) : SameBytes r (s.onSeq f) := ⟨k.cells, k.posted⟩
theorem State.onImg_bytes {f} (k : SameBytes r s) : SameBytes r (s.onImg f) := ⟨k.cells, k.posted⟩
theorem State.onRings_bytes {f} (k : SameBytes r s) : SameBytes r (s.onRings f) := ⟨k.cells, k.posted⟩
theorem State.onTwin_bytes {f} (k : SameBytes r s) : SameBytes r (s.onTwin f) := ⟨k.cells, k.posted⟩
theorem State.onSnap_bytes {f} (k : SameBytes r s) : SameBytes r (s.onSnap f) := ⟨k.cells, k.posted⟩
theorem State.onSv_bytes {f} (k : SameBytes r s) : SameBytes r (s.onSv f) := ⟨k.cells, k.posted⟩
theorem State.onSec_bytes {f} (k : SameBytes r s) : SameBytes r (s.onSec f) := ⟨k.cells, k.posted⟩
theorem State.onCt_bytes {f} (k : SameBytes r s) : SameBytes r (s.onCt f) := ⟨k.cells, k.posted⟩
theorem State.onHost_bytes {f} (k : SameBytes r s) : SameBytes r (s.onHost f) := ⟨k.cells, k.posted⟩
theorem State.onI3c_bytes {f} (k : SameBytes r s) : SameBytes r (s.onI3c f) := ⟨k.cells, k.posted⟩
theorem State.onSounds_bytes {f} (k : SameBytes r s) : SameBytes r (s.onSounds f) := ⟨k.cells, k.posted⟩
theorem State.onSeqNo_bytes {f} (k : SameBytes r s) : SameBytes r (s.onSeqNo f) := ⟨k.cells, k.posted⟩
theorem State.onCores_bytes {f} (k : SameBytes r s) : SameBytes r (s.onCores f) := ⟨k.cells, k.posted⟩

/-- What comes as the second of a pair. -/
theorem SameBytes.ofSnd {α : Type} {p : α × State} {a : α} (e : p = (a, s)) (k : SameBytes r p.2) : SameBytes r s := by subst e; exact k
theorem SameBytes.ofFst {α : Type} {p : State × α} {a : α} (e : p = (s, a)) (k : SameBytes r p.1) : SameBytes r s := by subst e; exact k

/-- Either branch keeps. -/
theorem ite_bytes {p : Prop} [Decidable p] {t : State} (h : SameBytes r s) (g : SameBytes r t) : SameBytes r (if p then s else t) := by
  split
  · exact h
  · exact g

theorem ite_bytes_snd {α : Type} {p : Prop} [Decidable p] {x y : α × State} (h : SameBytes r x.2) (g : SameBytes r y.2) :
    SameBytes r (if p then x else y).2 := by
  split
  · exact h
  · exact g

/-- What an option holds, or something else. -/
theorem getD_bytes {α : Type} {o : Option (α × State)} {d : α × State} (h : ∀ x, o = some x → SameBytes r x.2) (k : SameBytes r d.2) : SameBytes r (o.getD d).2 := by
  cases o with
  | none => exact k
  | some x => exact h x rfl

/-- A fold whose every round keeps. -/
theorem foldl_bytes {α : Type} {f : State → α → State} {l : List α} (k : SameBytes r s)
    (hf : ∀ s x, SameBytes r s → SameBytes r (f s x)) : SameBytes r (l.foldl f s) := by
  induction l generalizing s with
  | nil => exact k
  | cons x l ih => exact ih (hf _ _ k)

/-- A fold whose every round keeps the state it carries. -/
theorem foldl_bytes_of {α β : Type} (p : β → State) {f : β → α → β} {l : List α} {b : β} (k : SameBytes r (p b))
    (hf : ∀ b x, SameBytes r (p b) → SameBytes r (p (f b x))) : SameBytes r (p (l.foldl f b)) := by
  induction l generalizing b with
  | nil => exact k
  | cons x l ih => exact ih (hf _ _ k)

/-- A fold that may stop keeps where it ends. -/
theorem foldl_bind_bytes {α : Type} {f : State → α → Option State} {l : List α} {t : State}
    (e : l.foldl (fun o x => o.bind fun s => f s x) (some s) = some t) (k : SameBytes r s)
    (hf : ∀ s x t, f s x = some t → SameBytes r s → SameBytes r t) : SameBytes r t := by
  induction l generalizing s with
  | nil => cases e; exact k
  | cons x l ih =>
    simp only [List.foldl_cons, Option.bind_some] at e
    cases h : f s x with
    | none =>
      rw [h] at e
      have : ∀ l : List α, l.foldl (fun o x => o.bind fun s => f s x) none = none := by
        intro l; induction l with
        | nil => rfl
        | cons y l ih => exact ih
      rw [this] at e; cases e
    | some u => rw [h] at e; exact ih e (hf _ _ _ h k)

/-- A fold over pairs whose every round keeps the second, or the first. -/
theorem foldl_bytes_snd {α β : Type} {f : β × State → α → β × State} {l : List α} {b : β} (k : SameBytes r s)
    (hf : ∀ p x, SameBytes r p.2 → SameBytes r (f p x).2) : SameBytes r (l.foldl f (b, s)).2 :=
  foldl_bytes_of Prod.snd k hf

theorem foldl_bytes_fst {α β : Type} {f : State × β → α → State × β} {l : List α} {b : β} (k : SameBytes r s)
    (hf : ∀ p x, SameBytes r p.1 → SameBytes r (f p x).1) : SameBytes r (l.foldl f (s, b)).1 :=
  foldl_bytes_of Prod.fst k hf

theorem countBg_bytes {r₀ : State} {s : State} {d p : Nat} {f : Flit} (h1 : SameBytes r₀ s)
    : SameBytes r₀ (countBg s d p f) := by
  unfold countBg
  repeat' first
    | with_reducible assumption | intro _ | with_reducible apply State.onGz_bytes | with_reducible apply ite_bytes
    | with_reducible apply foldl_bytes | (refine SameBytes.ofSnd (by assumption) ?_) | dsimp only | split

theorem issue_bytes {r₀ : State} {s : State} {h : Hdr} {u : UnitId} {st elapsed : Nat} (h1 : SameBytes r₀ s)
    : SameBytes r₀ (issue s h u st elapsed) := by
  unfold issue
  repeat' first
    | with_reducible assumption | intro _ | with_reducible apply State.onQm_bytes | with_reducible apply ite_bytes
    | with_reducible apply foldl_bytes | (refine SameBytes.ofSnd (by assumption) ?_) | dsimp only | split

theorem completeIdle_bytes {r₀ : State} {s : State} {h : Hdr} {u : UnitId} {st : Nat} (h1 : SameBytes r₀ s)
    : SameBytes r₀ (completeIdle s h u st) := by
  unfold completeIdle
  repeat' first
    | with_reducible assumption | intro _ | with_reducible apply issue_bytes | with_reducible apply ite_bytes
    | with_reducible apply foldl_bytes | (refine SameBytes.ofSnd (by assumption) ?_) | dsimp only | split

theorem regSet_bytes {r₀ : State} {s : State} {die off v sel : Nat} (h1 : SameBytes r₀ s)
    : SameBytes r₀ (regSet s die off v sel) := by
  unfold regSet
  repeat' first
    | with_reducible assumption | intro _ | with_reducible apply State.onRegs_bytes
    | with_reducible apply keep_wf | with_reducible apply keep_rising | with_reducible apply del_rising
    | with_reducible apply put_rising | with_reducible apply ite_bytes | with_reducible apply foldl_bytes
    | (refine SameBytes.ofSnd (by assumption) ?_) | dsimp only | split

theorem emitSounding_bytes {r₀ : State} {s : State} {die unit kind : Nat} {body : List Nat} (h1 : SameBytes r₀ s)
    : SameBytes r₀ (emitSounding s die unit kind body) := by
  unfold emitSounding
  repeat' first
    | with_reducible assumption | intro _ | with_reducible apply State.onSounds_bytes | with_reducible apply State.onSeqNo_bytes
    | with_reducible apply ite_bytes | with_reducible apply foldl_bytes | (refine SameBytes.ofSnd (by assumption) ?_) | dsimp only
    | split

theorem bumpBy_bytes {r₀ : State} {s : State} {die off n sel : Nat} (h1 : SameBytes r₀ s)
    : SameBytes r₀ (bumpBy s die off n sel) := by
  unfold bumpBy
  repeat' first
    | with_reducible assumption | intro _ | with_reducible apply emitSounding_bytes | with_reducible apply regSet_bytes
    | with_reducible apply ite_bytes | with_reducible apply foldl_bytes | (refine SameBytes.ofSnd (by assumption) ?_) | dsimp only
    | split

theorem bump_bytes {r₀ : State} {s : State} {die off sel : Nat} (h1 : SameBytes r₀ s)
    : SameBytes r₀ (bump s die off sel) := by
  unfold bump
  repeat' first
    | with_reducible assumption | intro _ | with_reducible apply bumpBy_bytes | with_reducible apply ite_bytes
    | with_reducible apply foldl_bytes | (refine SameBytes.ofSnd (by assumption) ?_) | dsimp only | split

theorem setActs_bytes {r₀ : State} {s : State} {b n : Nat} (h1 : SameBytes r₀ s) : SameBytes r₀ (setActs s b n) := by
  unfold setActs
  repeat' first
    | with_reducible assumption | intro _ | with_reducible apply State.onMu_bytes | with_reducible apply ite_bytes
    | with_reducible apply foldl_bytes | (refine SameBytes.ofSnd (by assumption) ?_) | dsimp only | split

theorem touch_bytes {r₀ : State} {s : State} {a : Nat} (h1 : SameBytes r₀ s) : SameBytes r₀ (touch s a) := by
  unfold touch
  repeat' first
    | with_reducible assumption | intro _ | with_reducible apply State.onMu_bytes | with_reducible apply setActs_bytes
    | with_reducible apply bump_bytes | with_reducible apply ite_bytes | with_reducible apply foldl_bytes
    | (refine SameBytes.ofSnd (by assumption) ?_) | dsimp only | split

theorem raiseIbi_bytes {r₀ : State} {s : State} {b : Nat} (h1 : SameBytes r₀ s) : SameBytes r₀ (raiseIbi s b) := by
  unfold raiseIbi
  repeat' first
    | with_reducible assumption | intro _ | with_reducible apply State.onI3c_bytes | with_reducible apply ite_bytes
    | with_reducible apply foldl_bytes | (refine SameBytes.ofSnd (by assumption) ?_) | dsimp only | split

theorem setSticky_bytes {r₀ : State} {s : State} {src : Nat} (h1 : SameBytes r₀ s) : SameBytes r₀ (setSticky s src) := by
  unfold setSticky
  repeat' first
    | with_reducible assumption | intro _ | with_reducible apply raiseIbi_bytes
    | with_reducible apply State.onSv_bytes | with_reducible apply ite_bytes | with_reducible apply foldl_bytes
    | (refine SameBytes.ofSnd (by assumption) ?_) | dsimp only | split

theorem readSector_bytes {r₀ : State} {s : State} {i : Nat} (h1 : SameBytes r₀ s) : SameBytes r₀ (readSector s i).2 := by
  unfold readSector
  repeat' first
    | with_reducible assumption | intro _ | with_reducible apply bump_bytes | with_reducible apply touch_bytes
    | with_reducible apply setSticky_bytes
    | (with_reducible refine State.onMem_bytes ?_ (fun _ => ⟨rfl, rfl⟩)) | exact writeCells_wf _ _ _ h
    | with_reducible apply insAll_rising | with_reducible apply ins_rising | with_reducible apply List.Pairwise.filter
    | with_reducible apply keep_wf | with_reducible apply keep_rising | with_reducible apply del_rising
    | with_reducible apply put_rising | with_reducible apply ite_bytes | with_reducible apply ite_bytes_snd
    | with_reducible apply foldl_bytes | with_reducible apply foldl_bytes_snd | (refine SameBytes.ofSnd (by assumption) ?_) | dsimp only
    | split

theorem discardHeld_bytes {r₀ : State} {s : State} {d p : Nat} (h1 : SameBytes r₀ s) : SameBytes r₀ (discardHeld s d p) := by
  unfold discardHeld
  repeat' first
    | with_reducible assumption | intro _ | with_reducible apply State.onGz_bytes | with_reducible apply ite_bytes
    | with_reducible apply foldl_bytes | (refine SameBytes.ofSnd (by assumption) ?_) | dsimp only | split

theorem State.took_bytes {r₀ : State} {s : State} (h1 : SameBytes r₀ s) : SameBytes r₀ (State.took s) := by
  unfold State.took
  repeat' first
    | with_reducible assumption | intro _ | with_reducible apply State.onFree_bytes | with_reducible apply ite_bytes
    | with_reducible apply foldl_bytes | (refine SameBytes.ofSnd (by assumption) ?_) | dsimp only | split

theorem legendUpdate_bytes {r₀ : State} {s : State} (h1 : SameBytes r₀ s) : SameBytes r₀ (legendUpdate s) := by
  unfold legendUpdate
  repeat' first
    | with_reducible assumption | intro _ | with_reducible apply State.onPkg_bytes
    | with_reducible apply ite_bytes | with_reducible apply foldl_bytes | (refine SameBytes.ofSnd (by assumption) ?_) | dsimp only
    | split

theorem setPort_bytes {r₀ : State} {s : State} {d p st : Nat} (h1 : SameBytes r₀ s) : SameBytes r₀ (setPort s d p st) := by
  unfold setPort
  repeat' first
    | with_reducible assumption | intro _ | with_reducible apply State.onPkg_bytes
    | with_reducible apply ite_bytes | with_reducible apply foldl_bytes | (refine SameBytes.ofSnd (by assumption) ?_) | dsimp only
    | split

theorem setLink_bytes {r₀ : State} {s : State} {d p st : Nat} (h1 : SameBytes r₀ s) : SameBytes r₀ (setLink s d p st) := by
  unfold setLink
  repeat' first
    | with_reducible assumption | intro _ | with_reducible apply setPort_bytes | with_reducible apply ite_bytes
    | with_reducible apply foldl_bytes | (refine SameBytes.ofSnd (by assumption) ?_) | dsimp only | split

theorem failPort_bytes {r₀ : State} {s : State} {d p : Nat} (h1 : SameBytes r₀ s) : SameBytes r₀ (failPort s d p) := by
  unfold failPort
  repeat' first
    | with_reducible assumption | intro _ | with_reducible apply legendUpdate_bytes | with_reducible apply setSticky_bytes
    | with_reducible apply setLink_bytes | with_reducible apply discardHeld_bytes | with_reducible apply ite_bytes
    | with_reducible apply foldl_bytes | (refine SameBytes.ofSnd (by assumption) ?_) | dsimp only | split

theorem overrun_bytes {r₀ : State} {s : State} {d p : Nat} (h1 : SameBytes r₀ s) : SameBytes r₀ (overrun s d p) := by
  unfold overrun
  repeat' first
    | with_reducible assumption | intro _ | with_reducible apply bump_bytes | with_reducible apply failPort_bytes
    | with_reducible apply ite_bytes | with_reducible apply foldl_bytes | (refine SameBytes.ofSnd (by assumption) ?_) | dsimp only
    | split

theorem returnCredits_bytes {r₀ : State} {s : State} {d p tc n : Nat} (h1 : SameBytes r₀ s)
    : SameBytes r₀ (returnCredits s d p tc n) := by
  unfold returnCredits
  repeat' first
    | with_reducible assumption | intro _ | with_reducible apply State.onGz_bytes | with_reducible apply ite_bytes
    | with_reducible apply foldl_bytes | (refine SameBytes.ofSnd (by assumption) ?_) | dsimp only | split

theorem passLink_bytes {r₀ : State} {s : State} {d p : Nat} {f : Flit} (h1 : SameBytes r₀ s)
    : SameBytes r₀ (passLink s d p f) := by
  unfold passLink
  repeat' first
    | with_reducible assumption | intro _ | with_reducible apply returnCredits_bytes | with_reducible apply State.onGz_bytes
    | with_reducible apply ite_bytes | with_reducible apply foldl_bytes | (refine SameBytes.ofSnd (by assumption) ?_) | dsimp only
    | split

theorem spendCredit_bytes {r₀ : State} {s : State} {d p tc : Nat} (h1 : SameBytes r₀ s)
    : SameBytes r₀ (spendCredit s d p tc) := by
  unfold spendCredit
  repeat' first
    | with_reducible assumption | intro _ | with_reducible apply State.onGz_bytes | with_reducible apply ite_bytes
    | with_reducible apply foldl_bytes | (refine SameBytes.ofSnd (by assumption) ?_) | dsimp only | split

theorem crossLink_bytes {r₀ : State} {s : State} {d p : Nat} {f : Flit} (h1 : SameBytes r₀ s)
    : SameBytes r₀ (crossLink s d p f) := by
  unfold crossLink
  repeat' first
    | with_reducible assumption | intro _ | with_reducible apply passLink_bytes | with_reducible apply spendCredit_bytes
    | with_reducible apply ite_bytes | with_reducible apply foldl_bytes | (refine SameBytes.ofSnd (by assumption) ?_) | dsimp only
    | split

theorem travel_bytes {r₀ : State} {f : Flit} {a1 a2 : Nat} {a3 : State} (h4 : SameBytes r₀ a3)
    : SameBytes r₀ (travel f a1 a2 a3).2 := by
  induction a1 generalizing a2 a3 with
  | zero =>
    unfold travel
    repeat' first
      | with_reducible assumption | intro _ | with_reducible apply crossLink_bytes | with_reducible apply ite_bytes
      | with_reducible apply ite_bytes_snd | with_reducible apply foldl_bytes | with_reducible apply foldl_bytes_snd
      | (refine SameBytes.ofSnd (by assumption) ?_) | dsimp only | split
  | succ _ ih =>
    unfold travel
    repeat' first
      | with_reducible assumption | intro _ | with_reducible apply ih | with_reducible apply crossLink_bytes
      | with_reducible apply ite_bytes | with_reducible apply ite_bytes_snd | with_reducible apply foldl_bytes
      | with_reducible apply foldl_bytes_snd | (refine SameBytes.ofSnd (by assumption) ?_) | dsimp only | split

theorem sendFlit_bytes {r₀ : State} {s : State} {f : Flit} (h1 : SameBytes r₀ s) : SameBytes r₀ (sendFlit s f) := by
  unfold sendFlit
  repeat' first
    | with_reducible assumption | intro _ | with_reducible apply State.onGz_bytes | with_reducible apply ite_bytes
    | with_reducible apply foldl_bytes | (refine SameBytes.ofSnd (by assumption) ?_) | dsimp only | split

theorem refuse_bytes {r₀ : State} {s : State} {f : Flit} {st : Nat} (h1 : SameBytes r₀ s)
    : SameBytes r₀ (refuse s f st) := by
  unfold refuse
  repeat' first
    | with_reducible assumption | intro _ | with_reducible apply sendFlit_bytes | with_reducible apply ite_bytes
    | with_reducible apply foldl_bytes | (refine SameBytes.ofSnd (by assumption) ?_) | dsimp only | split

theorem turnAway_bytes {r₀ : State} {s : State} {f : Flit} (h1 : SameBytes r₀ s) : SameBytes r₀ (turnAway s f) := by
  unfold turnAway
  repeat' first
    | with_reducible assumption | intro _ | with_reducible apply refuse_bytes | with_reducible apply ite_bytes
    | with_reducible apply foldl_bytes | (refine SameBytes.ofSnd (by assumption) ?_) | dsimp only | split

theorem badFlit_bytes {r₀ : State} {s : State} {f : Flit} (h1 : SameBytes r₀ s) : SameBytes r₀ (badFlit s f) := by
  unfold badFlit
  repeat' first
    | with_reducible assumption | intro _ | with_reducible apply bump_bytes | with_reducible apply refuse_bytes
    | with_reducible apply ite_bytes | with_reducible apply foldl_bytes | (refine SameBytes.ofSnd (by assumption) ?_) | dsimp only
    | split

theorem delivered_bytes {r₀ : State} {s : State} {f : Flit} (h1 : SameBytes r₀ s) : SameBytes r₀ (delivered s f).2 := by
  unfold delivered
  repeat' first
    | with_reducible assumption | intro _ | with_reducible apply badFlit_bytes | with_reducible apply ite_bytes
    | with_reducible apply ite_bytes_snd | with_reducible apply foldl_bytes | with_reducible apply foldl_bytes_snd
    | (refine SameBytes.ofSnd (by assumption) ?_) | dsimp only | split

theorem goes_bytes {r₀ : State} {sent : Bool} {s : State} {f : Flit} {x15} (e₀ : goes sent s f = some x15)
    (h2 : SameBytes r₀ s) : SameBytes r₀ x15.2 := by
  unfold goes at e₀
  repeat' first | contradiction | (injection e₀ with e₀; subst e₀) | dsimp only at e₀ | (split at e₀)
  repeat' first
    | with_reducible assumption | intro _ | with_reducible apply countBg_bytes | with_reducible apply overrun_bytes
    | with_reducible apply bump_bytes | with_reducible apply travel_bytes | with_reducible apply turnAway_bytes
    | with_reducible apply delivered_bytes | with_reducible apply ite_bytes | with_reducible apply ite_bytes_snd
    | with_reducible apply foldl_bytes | with_reducible apply foldl_bytes_snd | (refine SameBytes.ofSnd (by assumption) ?_) | dsimp only
    | split

theorem readSectors_bytes {r₀ : State} {s : State} {a1 : List Nat} (h1 : SameBytes r₀ s)
    : SameBytes r₀ (readSectors s a1).2 := by
  induction a1 generalizing s with
  | nil =>
    unfold readSectors
    repeat' first
      | with_reducible assumption | intro _ | with_reducible apply readSector_bytes | with_reducible apply ite_bytes
      | with_reducible apply ite_bytes_snd | with_reducible apply foldl_bytes | with_reducible apply foldl_bytes_snd
      | (refine SameBytes.ofSnd (by assumption) ?_) | dsimp only | split
  | cons _ _ ih =>
    unfold readSectors
    repeat' first
      | with_reducible assumption | intro _ | with_reducible apply ih | with_reducible apply readSector_bytes
      | with_reducible apply ite_bytes | with_reducible apply ite_bytes_snd | with_reducible apply foldl_bytes
      | with_reducible apply foldl_bytes_snd | (refine SameBytes.ofSnd (by assumption) ?_) | dsimp only | split

theorem checkRead_bytes {r₀ : State} {s : State} {a n : Nat} (h1 : SameBytes r₀ s) : SameBytes r₀ (checkRead s a n).2 := by
  unfold checkRead
  repeat' first
    | with_reducible assumption | intro _ | with_reducible apply readSectors_bytes | with_reducible apply ite_bytes
    | with_reducible apply ite_bytes_snd | with_reducible apply foldl_bytes | with_reducible apply foldl_bytes_snd
    | (refine SameBytes.ofSnd (by assumption) ?_) | dsimp only | split

theorem complete_bytes {r₀ : State} {s : State} {h : Hdr} {u : UnitId} {st : Nat} (h1 : SameBytes r₀ s)
    : SameBytes r₀ (complete s h u st) := by
  unfold complete
  repeat' first
    | with_reducible assumption | intro _ | with_reducible apply issue_bytes | with_reducible apply State.took_bytes
    | with_reducible apply ite_bytes | with_reducible apply foldl_bytes | (refine SameBytes.ofSnd (by assumption) ?_) | dsimp only
    | split

theorem takeAnswer_bytes {r₀ : State} {key st : Nat} {late : Bool} {s : State} {w : Waiting} (h4 : SameBytes r₀ s)
    : SameBytes r₀ (takeAnswer key st late s w) := by
  unfold takeAnswer
  repeat' first
    | with_reducible assumption | intro _ | with_reducible apply complete_bytes | with_reducible apply State.onQm_bytes
    | with_reducible apply ite_bytes | with_reducible apply foldl_bytes | (refine SameBytes.ofSnd (by assumption) ?_) | dsimp only
    | split

theorem answered_bytes {r₀ : State} {s : State} {key st : Nat} {late : Bool} (h1 : SameBytes r₀ s)
    : SameBytes r₀ (answered s key st late) := by
  unfold answered
  repeat' first
    | with_reducible assumption | intro _ | with_reducible apply takeAnswer_bytes | with_reducible apply ite_bytes
    | with_reducible apply foldl_bytes | (refine SameBytes.ofSnd (by assumption) ?_) | dsimp only | split

theorem endAdds_bytes {r₀ : State} {s : State} {h : Hdr} {st : Nat} (h1 : SameBytes r₀ s)
    : SameBytes r₀ (endAdds s h st) := by
  unfold endAdds
  repeat' first
    | with_reducible assumption | intro _ | with_reducible apply State.onMu_bytes | with_reducible apply answered_bytes
    | with_reducible apply ite_bytes | with_reducible apply foldl_bytes | (refine SameBytes.ofSnd (by assumption) ?_) | dsimp only
    | split

theorem markStarted_bytes {r₀ : State} {s : State} {h : Hdr} (h1 : SameBytes r₀ s) : SameBytes r₀ (markStarted s h) := by
  unfold markStarted
  repeat' first
    | with_reducible assumption | intro _ | with_reducible apply State.onQm_bytes | with_reducible apply ite_bytes
    | with_reducible apply foldl_bytes | (refine SameBytes.ofSnd (by assumption) ?_) | dsimp only | split

theorem waitFor_bytes {r₀ : State} {s : State} {w : Waiting} (h1 : SameBytes r₀ s) : SameBytes r₀ (waitFor s w) := by
  unfold waitFor
  repeat' first
    | with_reducible assumption | intro _ | with_reducible apply markStarted_bytes | with_reducible apply State.onQm_bytes
    | with_reducible apply ite_bytes | with_reducible apply foldl_bytes | (refine SameBytes.ofSnd (by assumption) ?_) | dsimp only
    | split

theorem dropReqs_bytes {r₀ : State} {s : State} {h : Hdr} (h1 : SameBytes r₀ s) : SameBytes r₀ (dropReqs s h) := by
  unfold dropReqs
  repeat' first
    | with_reducible assumption | intro _ | with_reducible apply State.onGz_bytes | with_reducible apply ite_bytes
    | with_reducible apply foldl_bytes | (refine SameBytes.ofSnd (by assumption) ?_) | dsimp only | split

theorem closeReq_bytes {r₀ : State} {s : State} {d t : Nat} (h1 : SameBytes r₀ s) : SameBytes r₀ (closeReq s d t) := by
  unfold closeReq
  repeat' first
    | with_reducible assumption | intro _ | with_reducible apply State.onGz_bytes | with_reducible apply ite_bytes
    | with_reducible apply foldl_bytes | (refine SameBytes.ofSnd (by assumption) ?_) | dsimp only | split

theorem runDesc_bytes {r₀ : State} {s : State} {h : Hdr} {body : State → State} (h1 : SameBytes r₀ s)
    (h3 : (∀ (y04 : State), SameBytes r₀ y04 → SameBytes r₀ (body y04))) : SameBytes r₀ (runDesc s h body) := by
  unfold runDesc
  repeat' first
    | with_reducible assumption | intro _ | with_reducible apply h3 | with_reducible apply ite_bytes
    | with_reducible apply foldl_bytes | (refine SameBytes.ofSnd (by assumption) ?_) | dsimp only | split

theorem takeFlit_bytes {r₀ : State} {s : State} {f : Flit} (h1 : SameBytes r₀ s) : SameBytes r₀ (takeFlit s f) := by
  unfold takeFlit
  repeat' first
    | with_reducible assumption | intro _ | with_reducible apply State.onGz_bytes | with_reducible apply ite_bytes
    | with_reducible apply foldl_bytes | (refine SameBytes.ofSnd (by assumption) ?_) | dsimp only | split

theorem openReq_bytes {r₀ : State} {s : State} {r : OutReq} (h1 : SameBytes r₀ s) : SameBytes r₀ (openReq s r) := by
  unfold openReq
  repeat' first
    | with_reducible assumption | intro _ | with_reducible apply State.onGz_bytes | with_reducible apply ite_bytes
    | with_reducible apply foldl_bytes | (refine SameBytes.ofSnd (by assumption) ?_) | dsimp only | split

theorem keepFlit_bytes {r₀ : State} {s : State} {f : Flit} (h1 : SameBytes r₀ s) : SameBytes r₀ (keepFlit s f) := by
  unfold keepFlit
  repeat' first
    | with_reducible assumption | intro _ | with_reducible apply sendFlit_bytes | with_reducible apply ite_bytes
    | with_reducible apply foldl_bytes | (refine SameBytes.ofSnd (by assumption) ?_) | dsimp only | split

theorem arrive_bytes {r₀ : State} {s : State} {f : Flit} (h1 : SameBytes r₀ s) : SameBytes r₀ (arrive s f).2 := by
  unfold arrive
  repeat' first
    | with_reducible assumption | intro _ | with_reducible apply getD_bytes | with_reducible apply takeFlit_bytes
    | with_reducible apply keepFlit_bytes | with_reducible apply ite_bytes | with_reducible apply ite_bytes_snd
    | with_reducible apply foldl_bytes | with_reducible apply foldl_bytes_snd | (with_reducible refine goes_bytes (by assumption) ?_)
    | (refine goes_bytes (x15 := (_, _)) (by assumption) ?_) | (refine SameBytes.ofSnd (by assumption) ?_) | dsimp only | split

theorem staleTiles_bytes {r₀ : State} {s : State} {core tile n : Nat} (h1 : SameBytes r₀ s)
    : SameBytes r₀ (staleTiles s core tile n) := by
  unfold staleTiles
  repeat' first
    | with_reducible assumption | intro _ | with_reducible apply State.onTw_bytes | with_reducible apply ite_bytes
    | with_reducible apply foldl_bytes | (refine SameBytes.ofSnd (by assumption) ?_) | dsimp only | split

theorem forget_bytes {r₀ : State} {s : State} {h : Hdr} (h1 : SameBytes r₀ s) : SameBytes r₀ (forget s h) := by
  unfold forget
  repeat' first
    | with_reducible assumption | intro _ | with_reducible apply State.onMu_bytes | with_reducible apply State.onRings_bytes
    | with_reducible apply State.onImg_bytes | with_reducible apply State.onSec_bytes | with_reducible apply State.onSnap_bytes
    | with_reducible apply State.onSeq_bytes | with_reducible apply State.onStreams_bytes | with_reducible apply ite_bytes
    | with_reducible apply foldl_bytes | (refine SameBytes.ofSnd (by assumption) ?_) | dsimp only | split

theorem dropShadow_bytes {r₀ : State} {s : State} {core : Nat} {h : Hdr} (h1 : SameBytes r₀ s)
    : SameBytes r₀ (dropShadow s core h) := by
  unfold dropShadow
  repeat' first
    | with_reducible assumption | intro _ | with_reducible apply State.onTw_bytes | with_reducible apply ite_bytes
    | with_reducible apply foldl_bytes | (refine SameBytes.ofSnd (by assumption) ?_) | dsimp only | split

theorem endEarly_bytes {r₀ : State} {s : State} {d : Disp} {st : Nat} (h1 : SameBytes r₀ s)
    : SameBytes r₀ (endEarly s d st) := by
  unfold endEarly
  repeat' first
    | with_reducible assumption | intro _ | with_reducible apply State.onImg_bytes | with_reducible apply forget_bytes
    | with_reducible apply complete_bytes | with_reducible apply dropShadow_bytes | with_reducible apply dropReqs_bytes
    | with_reducible apply staleTiles_bytes | with_reducible apply ite_bytes | with_reducible apply foldl_bytes
    | (refine SameBytes.ofSnd (by assumption) ?_) | dsimp only | split

theorem endAll_bytes {r₀ : State} {s : State} {f : Disp → Bool} {st : Nat} (h1 : SameBytes r₀ s)
    : SameBytes r₀ (endAll s f st) := by
  unfold endAll
  repeat' first
    | with_reducible assumption | intro _ | with_reducible apply endEarly_bytes | with_reducible apply ite_bytes
    | with_reducible apply foldl_bytes | (refine SameBytes.ofSnd (by assumption) ?_) | dsimp only | split

theorem setQueue_bytes {r₀ : State} {s : State} {q : Nat} {f : Queue → Queue} (h1 : SameBytes r₀ s)
    : SameBytes r₀ (setQueue s q f) := by
  unfold setQueue
  repeat' first
    | with_reducible assumption | intro _ | with_reducible apply State.onQm_bytes | with_reducible apply ite_bytes
    | with_reducible apply foldl_bytes | (refine SameBytes.ofSnd (by assumption) ?_) | dsimp only | split

theorem endFetched_bytes {r₀ : State} {s : State} {q : Nat} {x : Fetched} {st : Nat} (h1 : SameBytes r₀ s)
    : SameBytes r₀ (endFetched s q x st) := by
  unfold endFetched
  repeat' first
    | with_reducible assumption | intro _ | with_reducible apply setQueue_bytes | with_reducible apply completeIdle_bytes
    | with_reducible apply ite_bytes | with_reducible apply foldl_bytes | (refine SameBytes.ofSnd (by assumption) ?_) | dsimp only
    | split

theorem endFetchedAll_bytes {r₀ : State} {s : State} {q st : Nat} (h1 : SameBytes r₀ s)
    : SameBytes r₀ (endFetchedAll s q st) := by
  unfold endFetchedAll
  repeat' first
    | with_reducible assumption | intro _ | with_reducible apply endFetched_bytes | with_reducible apply ite_bytes
    | with_reducible apply foldl_bytes | (refine SameBytes.ofSnd (by assumption) ?_) | dsimp only | split

theorem setRing_bytes {r₀ : State} {s : State} {n : Nat} {f : Ring → Ring} (h1 : SameBytes r₀ s)
    : SameBytes r₀ (setRing s n f) := by
  unfold setRing
  repeat' first
    | with_reducible assumption | intro _ | with_reducible apply State.onQm_bytes | with_reducible apply ite_bytes
    | with_reducible apply foldl_bytes | (refine SameBytes.ofSnd (by assumption) ?_) | dsimp only | split

theorem reserveSlot_bytes {r₀ : State} {s : State} {n : Nat} (h1 : SameBytes r₀ s) : SameBytes r₀ (reserveSlot s n) := by
  unfold reserveSlot
  repeat' first
    | with_reducible assumption | intro _ | with_reducible apply setRing_bytes | with_reducible apply ite_bytes
    | with_reducible apply foldl_bytes | (refine SameBytes.ofSnd (by assumption) ?_) | dsimp only | split

theorem bumpCore_bytes {r₀ : State} {s : State} {g off n : Nat} (h1 : SameBytes r₀ s)
    : SameBytes r₀ (bumpCore s g off n) := by
  unfold bumpCore
  repeat' first
    | with_reducible assumption | intro _ | with_reducible apply bumpBy_bytes | with_reducible apply ite_bytes
    | with_reducible apply foldl_bytes | (refine SameBytes.ofSnd (by assumption) ?_) | dsimp only | split

theorem setCore_bytes {r₀ : State} {s : State} {g : Nat} {f : Core → Core} (h1 : SameBytes r₀ s)
    : SameBytes r₀ (setCore s g f) := by
  unfold setCore
  repeat' first
    | with_reducible assumption | intro _ | with_reducible apply State.onTw_bytes | with_reducible apply ite_bytes
    | with_reducible apply foldl_bytes | (refine SameBytes.ofSnd (by assumption) ?_) | dsimp only | split

theorem zeroTile_bytes {r₀ : State} {s : State} {g t : Nat} (h1 : SameBytes r₀ s) : SameBytes r₀ (zeroTile s g t) := by
  unfold zeroTile
  repeat' first
    | with_reducible assumption | intro _ | with_reducible apply State.onTw_bytes | with_reducible apply ite_bytes
    | with_reducible apply foldl_bytes | (refine SameBytes.ofSnd (by assumption) ?_) | dsimp only | split

theorem cbCheck_bytes {r₀ : State} {s : State} {g : Nat} {rs : List Range} (h1 : SameBytes r₀ s)
    : SameBytes r₀ (cbCheck s g rs).2 := by
  unfold cbCheck
  repeat' first
    | with_reducible assumption | intro _ | with_reducible apply bumpCore_bytes | with_reducible apply ite_bytes
    | with_reducible apply ite_bytes_snd | with_reducible apply foldl_bytes | with_reducible apply foldl_bytes_snd
    | (refine SameBytes.ofSnd (by assumption) ?_) | dsimp only | split

theorem cbWrite_bytes {r₀ : State} {s : State} {g off : Nat} {bs : List Byte} (h1 : SameBytes r₀ s)
    : SameBytes r₀ (cbWrite s g off bs) := by
  unfold cbWrite
  repeat' first
    | with_reducible assumption | intro _ | with_reducible apply State.onTw_bytes | with_reducible apply cbCheck_bytes
    | with_reducible apply ite_bytes | with_reducible apply ite_bytes_snd | with_reducible apply foldl_bytes
    | with_reducible apply foldl_bytes_snd | (refine SameBytes.ofSnd (by assumption) ?_) | dsimp only | split

theorem survey_bytes {r₀ : State} {s : State} {k t row off w : Nat} (h1 : SameBytes r₀ s)
    : SameBytes r₀ (survey s k t row off w) := by
  unfold survey
  repeat' first
    | with_reducible assumption | intro _ | with_reducible apply bumpBy_bytes | with_reducible apply ite_bytes
    | with_reducible apply foldl_bytes | (refine SameBytes.ofSnd (by assumption) ?_) | dsimp only | split

theorem setDir_bytes {r₀ : State} {s : State} {k t row : Nat} {e : DirEntry} (h1 : SameBytes r₀ s)
    : SameBytes r₀ (setDir s k t row e) := by
  unfold setDir
  repeat' first
    | with_reducible assumption | intro _ | with_reducible apply State.onMu_bytes | with_reducible apply ite_bytes
    | with_reducible apply foldl_bytes | (refine SameBytes.ofSnd (by assumption) ?_) | dsimp only | split

theorem startPatch_bytes {r₀ : State} {s : State} {k t row : Nat} (h1 : SameBytes r₀ s)
    : SameBytes r₀ (startPatch s k t row) := by
  unfold startPatch
  repeat' first
    | with_reducible assumption | intro _ | with_reducible apply State.onMu_bytes | with_reducible apply bump_bytes
    | with_reducible apply openReq_bytes | with_reducible apply ite_bytes | with_reducible apply foldl_bytes
    | (refine SameBytes.ofSnd (by assumption) ?_) | dsimp only | split

theorem markPoisoned_bytes {r₀ : State} {s : State} {k t row da : Nat} (h1 : SameBytes r₀ s)
    : SameBytes r₀ (markPoisoned s k t row da) := by
  unfold markPoisoned
  repeat' first
    | with_reducible assumption | intro _ | with_reducible apply State.onMu_bytes | with_reducible apply startPatch_bytes
    | with_reducible apply setDir_bytes | with_reducible apply ite_bytes | with_reducible apply foldl_bytes
    | (refine SameBytes.ofSnd (by assumption) ?_) | dsimp only | split

theorem wakePatch_bytes {r₀ : State} {s : State} {k : Nat} (h1 : SameBytes r₀ s) : SameBytes r₀ (wakePatch s k) := by
  unfold wakePatch
  repeat' first
    | with_reducible assumption | intro _ | with_reducible apply State.onMu_bytes | with_reducible apply markPoisoned_bytes
    | with_reducible apply startPatch_bytes | with_reducible apply ite_bytes | with_reducible apply foldl_bytes
    | (refine SameBytes.ofSnd (by assumption) ?_) | dsimp only | split

theorem noteFwd_bytes {r₀ : State} {s : State} {d : Nat} (h1 : SameBytes r₀ s) : SameBytes r₀ (noteFwd s d) := by
  unfold noteFwd
  repeat' first
    | with_reducible assumption | intro _ | with_reducible apply State.onGz_bytes | with_reducible apply ite_bytes
    | with_reducible apply foldl_bytes | (refine SameBytes.ofSnd (by assumption) ?_) | dsimp only | split

theorem hotAdd_bytes {r₀ : State} {s : State} {k t row w : Nat} (h1 : SameBytes r₀ s)
    : SameBytes r₀ (hotAdd s k t row w) := by
  unfold hotAdd
  repeat' first
    | with_reducible assumption | intro _ | with_reducible apply State.onMu_bytes | with_reducible apply ite_bytes
    | with_reducible apply foldl_bytes | (refine SameBytes.ofSnd (by assumption) ?_) | dsimp only | split

theorem reportLate_bytes {r₀ : State} {s : State} {step : Nat} (h1 : SameBytes r₀ s) : SameBytes r₀ (reportLate s step) := by
  unfold reportLate
  repeat' first
    | with_reducible assumption | intro _ | with_reducible apply State.onSeq_bytes | with_reducible apply ite_bytes
    | with_reducible apply foldl_bytes | (refine SameBytes.ofSnd (by assumption) ?_) | dsimp only | split

theorem sendAdd_bytes {r₀ : State} {s : State} {m : AddMsg} (h1 : SameBytes r₀ s) : SameBytes r₀ (sendAdd s m) := by
  unfold sendAdd
  repeat' first
    | with_reducible assumption | intro _ | with_reducible apply State.onGz_bytes | with_reducible apply ite_bytes
    | with_reducible apply foldl_bytes | (refine SameBytes.ofSnd (by assumption) ?_) | dsimp only | split

theorem noteLoss_bytes {r₀ : State} {s : State} {e : Nat} {b : Int} {n : Nat} {vs : List Val} (h1 : SameBytes r₀ s)
    : SameBytes r₀ (noteLoss s e b n vs) := by
  unfold noteLoss
  repeat' first
    | with_reducible assumption | intro _ | with_reducible apply State.onMu_bytes | with_reducible apply ite_bytes
    | with_reducible apply foldl_bytes | (refine SameBytes.ofSnd (by assumption) ?_) | dsimp only | split

theorem delDir_bytes {r₀ : State} {s : State} {k t row : Nat} (h1 : SameBytes r₀ s) : SameBytes r₀ (delDir s k t row) := by
  unfold delDir
  repeat' first
    | with_reducible assumption | intro _ | with_reducible apply State.onMu_bytes | with_reducible apply ite_bytes
    | with_reducible apply foldl_bytes | (refine SameBytes.ofSnd (by assumption) ?_) | dsimp only | split

theorem setRPort_bytes {r₀ : State} {s : State} {d : Nat} {f : RPort → RPort} (h1 : SameBytes r₀ s)
    : SameBytes r₀ (setRPort s d f) := by
  unfold setRPort
  repeat' first
    | with_reducible assumption | intro _ | with_reducible apply State.onRings_bytes | with_reducible apply legendUpdate_bytes
    | with_reducible apply ite_bytes | with_reducible apply foldl_bytes | (refine SameBytes.ofSnd (by assumption) ?_) | dsimp only
    | split

theorem closeDim_bytes {r₀ : State} {s : State} {dim : Nat} (h1 : SameBytes r₀ s) : SameBytes r₀ (closeDim s dim) := by
  unfold closeDim
  repeat' first
    | with_reducible assumption | intro _ | with_reducible apply State.onRings_bytes | with_reducible apply setRPort_bytes
    | with_reducible apply ite_bytes | with_reducible apply foldl_bytes | (refine SameBytes.ofSnd (by assumption) ?_) | dsimp only
    | split

theorem storeDir_bytes {r₀ : State} {s : State} {k t row : Nat} {e : DirEntry} (h1 : SameBytes r₀ s)
    : SameBytes r₀ (storeDir s k t row e) := by
  unfold storeDir
  repeat' first
    | with_reducible assumption | intro _ | with_reducible apply delDir_bytes | with_reducible apply setDir_bytes
    | with_reducible apply wakePatch_bytes | with_reducible apply ite_bytes | with_reducible apply foldl_bytes
    | (refine SameBytes.ofSnd (by assumption) ?_) | dsimp only | split

theorem dropPanelLedgers_bytes {r₀ : State} {s : State} {p : Nat} (h1 : SameBytes r₀ s)
    : SameBytes r₀ (dropPanelLedgers s p) := by
  unfold dropPanelLedgers
  repeat' first
    | with_reducible assumption | intro _ | with_reducible apply State.onMu_bytes | with_reducible apply storeDir_bytes
    | with_reducible apply ite_bytes | with_reducible apply foldl_bytes | (refine SameBytes.ofSnd (by assumption) ?_) | dsimp only
    | split

theorem addCause_bytes {r₀ : State} {s : State} {c : Nat} (h1 : SameBytes r₀ s) : SameBytes r₀ (addCause s c) := by
  unfold addCause
  repeat' first
    | with_reducible assumption | intro _ | with_reducible apply State.onRings_bytes | with_reducible apply closeDim_bytes
    | with_reducible apply ite_bytes | with_reducible apply foldl_bytes | (refine SameBytes.ofSnd (by assumption) ?_) | dsimp only
    | split

theorem faultCore_bytes {r₀ : State} {s : State} {g : Nat} (h1 : SameBytes r₀ s) : SameBytes r₀ (faultCore s g) := by
  unfold faultCore
  repeat' first
    | with_reducible assumption | intro _ | with_reducible apply zeroTile_bytes | with_reducible apply setCore_bytes
    | with_reducible apply State.onTw_bytes | with_reducible apply ite_bytes | with_reducible apply foldl_bytes
    | (refine SameBytes.ofSnd (by assumption) ?_) | dsimp only | split

theorem setStrm_bytes {r₀ : State} {s : State} {n : Nat} {f : Strm → Strm} (h1 : SameBytes r₀ s)
    : SameBytes r₀ (setStrm s n f) := by
  unfold setStrm
  repeat' first
    | with_reducible assumption | intro _ | with_reducible apply State.onStreams_bytes | with_reducible apply ite_bytes
    | with_reducible apply foldl_bytes | (refine SameBytes.ofSnd (by assumption) ?_) | dsimp only | split

theorem abortStream_bytes {r₀ : State} {s : State} {n st : Nat} (h1 : SameBytes r₀ s)
    : SameBytes r₀ (abortStream s n st) := by
  unfold abortStream
  repeat' first
    | with_reducible assumption | intro _ | with_reducible apply setStrm_bytes | with_reducible apply endEarly_bytes
    | with_reducible apply complete_bytes | with_reducible apply ite_bytes | with_reducible apply foldl_bytes
    | (refine SameBytes.ofSnd (by assumption) ?_) | dsimp only | split

theorem faultPanel_bytes {r₀ : State} {s : State} {p : Nat} (h1 : SameBytes r₀ s) : SameBytes r₀ (faultPanel s p) := by
  unfold faultPanel
  repeat' first
    | with_reducible assumption | intro _ | with_reducible apply setQueue_bytes | with_reducible apply abortStream_bytes
    | with_reducible apply endFetchedAll_bytes | with_reducible apply endAll_bytes | with_reducible apply faultCore_bytes
    | with_reducible apply dropPanelLedgers_bytes | with_reducible apply ite_bytes | with_reducible apply foldl_bytes
    | (refine SameBytes.ofSnd (by assumption) ?_) | dsimp only | split

theorem fenceParty_bytes {r₀ : State} {s : State} {u : UnitId} (h1 : SameBytes r₀ s) : SameBytes r₀ (fenceParty s u) := by
  unfold fenceParty
  repeat' first
    | with_reducible assumption | intro _ | with_reducible apply addCause_bytes | with_reducible apply setCore_bytes
    | with_reducible apply failPort_bytes | with_reducible apply State.onSv_bytes
    | with_reducible apply ite_bytes | with_reducible apply foldl_bytes | (refine SameBytes.ofSnd (by assumption) ?_) | dsimp only
    | split

theorem startReclaim_bytes {r₀ : State} {s : State} {r : Reclaim} (h1 : SameBytes r₀ s)
    : SameBytes r₀ (startReclaim s r) := by
  unfold startReclaim
  repeat' first
    | with_reducible assumption | intro _ | with_reducible apply bump_bytes | with_reducible apply faultCore_bytes
    | with_reducible apply faultPanel_bytes | with_reducible apply fenceParty_bytes
    | with_reducible apply State.onSv_bytes | with_reducible apply ite_bytes | with_reducible apply foldl_bytes
    | (refine SameBytes.ofSnd (by assumption) ?_) | dsimp only | split

theorem triggerReclaim_bytes {r₀ : State} {s : State} {r : Reclaim} (h1 : SameBytes r₀ s)
    : SameBytes r₀ (triggerReclaim s r) := by
  unfold triggerReclaim
  repeat' first
    | with_reducible assumption | intro _ | with_reducible apply startReclaim_bytes
    | with_reducible apply State.onSv_bytes | with_reducible apply ite_bytes | with_reducible apply foldl_bytes
    | (refine SameBytes.ofSnd (by assumption) ?_) | dsimp only | split

theorem panelFaultAt_bytes {r₀ : State} {s : State} {g : Nat} (h1 : SameBytes r₀ s) : SameBytes r₀ (panelFaultAt s g) := by
  unfold panelFaultAt
  repeat' first
    | with_reducible assumption | intro _ | with_reducible apply triggerReclaim_bytes | with_reducible apply setSticky_bytes
    | with_reducible apply faultPanel_bytes | with_reducible apply ite_bytes | with_reducible apply foldl_bytes
    | (refine SameBytes.ofSnd (by assumption) ?_) | dsimp only | split

theorem setEgress_bytes {r₀ : State} {s : State} {link : Nat} {l : List RingFrame} (h1 : SameBytes r₀ s)
    : SameBytes r₀ (setEgress s link l) := by
  unfold setEgress
  repeat' first
    | with_reducible assumption | intro _ | with_reducible apply State.onRings_bytes | with_reducible apply ite_bytes
    | with_reducible apply foldl_bytes | (refine SameBytes.ofSnd (by assumption) ?_) | dsimp only | split

theorem dropFrame_bytes {r₀ : State} {s : State} {die tag : Nat} (h1 : SameBytes r₀ s)
    : SameBytes r₀ (dropFrame s die tag) := by
  unfold dropFrame
  repeat' first
    | with_reducible assumption | intro _ | with_reducible apply State.onRings_bytes | with_reducible apply ite_bytes
    | with_reducible apply foldl_bytes | (refine SameBytes.ofSnd (by assumption) ?_) | dsimp only | split

theorem loseRemote_bytes {r₀ : State} {s : State} {r : OutReq} {quarantine : Bool} (h1 : SameBytes r₀ s)
    : SameBytes r₀ (loseRemote s r quarantine) := by
  unfold loseRemote
  repeat' first
    | with_reducible assumption | intro _ | with_reducible apply bump_bytes | with_reducible apply State.onGz_bytes
    | with_reducible apply answered_bytes | with_reducible apply dropFrame_bytes | with_reducible apply closeReq_bytes
    | with_reducible apply ite_bytes | with_reducible apply foldl_bytes | (refine SameBytes.ofSnd (by assumption) ?_) | dsimp only
    | split

theorem transmit_bytes {r₀ : State} {s : State} {link : Nat} {f : RingFrame} (h1 : SameBytes r₀ s)
    : SameBytes r₀ (transmit s link f) := by
  unfold transmit
  repeat' first
    | with_reducible assumption | intro _ | with_reducible apply setRPort_bytes | with_reducible apply ite_bytes
    | with_reducible apply foldl_bytes | (refine SameBytes.ofSnd (by assumption) ?_) | dsimp only | split

theorem sendOne_bytes {r₀ : State} {s : State} {f : Flit} (h1 : SameBytes r₀ s) : SameBytes r₀ (sendOne s f) := by
  unfold sendOne
  repeat' first
    | with_reducible assumption | intro _ | with_reducible apply sendAdd_bytes | with_reducible apply sendFlit_bytes
    | with_reducible apply ite_bytes | with_reducible apply foldl_bytes | (refine SameBytes.ofSnd (by assumption) ?_) | dsimp only
    | split

theorem sendInside_bytes {r₀ : State} {s : State} {rDie : Nat} {f : Flit} (h1 : SameBytes r₀ s)
    : SameBytes r₀ (sendInside s rDie f) := by
  unfold sendInside
  repeat' first
    | with_reducible assumption | intro _ | with_reducible apply sendOne_bytes | with_reducible apply refuse_bytes
    | with_reducible apply ite_bytes | with_reducible apply foldl_bytes | (refine SameBytes.ofSnd (by assumption) ?_) | dsimp only
    | split

theorem leave_bytes {r₀ : State} {s : State} {link : Nat} {f : RingFrame} {x16} (e₀ : leave s link f = some x16)
    (h1 : SameBytes r₀ s) : SameBytes r₀ x16 := by
  unfold leave at e₀
  repeat' first | contradiction | (injection e₀ with e₀; subst e₀) | dsimp only at e₀ | (split at e₀)
  repeat' first
    | with_reducible assumption | intro _ | with_reducible apply setEgress_bytes | with_reducible apply setRPort_bytes
    | with_reducible apply loseRemote_bytes | with_reducible apply transmit_bytes | with_reducible apply sendInside_bytes
    | with_reducible apply ite_bytes | with_reducible apply foldl_bytes | (refine SameBytes.ofSnd (by assumption) ?_) | dsimp only
    | split

theorem pumpFrames_bytes {r₀ : State} {link : Nat} {a1 : List RingFrame} {a2 : List Nat} {a3 : State}
    (h4 : SameBytes r₀ a3) : SameBytes r₀ (pumpFrames link a1 a2 a3) := by
  induction a1 generalizing a2 a3 with
  | nil =>
    unfold pumpFrames
    repeat' first
      | with_reducible assumption | intro _ | with_reducible apply ite_bytes | with_reducible apply foldl_bytes
      | (with_reducible refine leave_bytes (by assumption) ?_) | (refine SameBytes.ofSnd (by assumption) ?_) | dsimp only | split
  | cons _ _ ih =>
    unfold pumpFrames
    repeat' first
      | with_reducible assumption | intro _ | with_reducible apply ih | with_reducible apply ite_bytes
      | with_reducible apply foldl_bytes | (with_reducible refine leave_bytes (by assumption) ?_)
      | (refine SameBytes.ofSnd (by assumption) ?_) | dsimp only | split

theorem pumpLink_bytes {r₀ : State} {s : State} {link : Nat} (h1 : SameBytes r₀ s) : SameBytes r₀ (pumpLink s link) := by
  unfold pumpLink
  repeat' first
    | with_reducible assumption | intro _ | with_reducible apply pumpFrames_bytes | with_reducible apply ite_bytes
    | with_reducible apply foldl_bytes | (refine SameBytes.ofSnd (by assumption) ?_) | dsimp only | split

theorem sendFrame_bytes {r₀ : State} {s : State} {link : Nat} {f : RingFrame} (h1 : SameBytes r₀ s)
    : SameBytes r₀ (sendFrame s link f) := by
  unfold sendFrame
  repeat' first
    | with_reducible assumption | intro _ | with_reducible apply setEgress_bytes | with_reducible apply pumpLink_bytes
    | with_reducible apply ite_bytes | with_reducible apply foldl_bytes | (refine SameBytes.ofSnd (by assumption) ?_) | dsimp only
    | split

theorem sendRemote_bytes {r₀ : State} {s : State} {link dev rDie : Nat} {f : Flit} (h1 : SameBytes r₀ s)
    : SameBytes r₀ (sendRemote s link dev rDie f) := by
  unfold sendRemote
  repeat' first
    | with_reducible assumption | intro _ | with_reducible apply sendFrame_bytes | with_reducible apply ite_bytes
    | with_reducible apply foldl_bytes | (refine SameBytes.ofSnd (by assumption) ?_) | dsimp only | split

theorem appendAlm_bytes {r₀ : State} {s : State} {id version : Nat} {data : List Byte} (h1 : SameBytes r₀ s)
    : SameBytes r₀ (appendAlm s id version data) := by
  unfold appendAlm
  repeat' first
    | with_reducible assumption | intro _ | with_reducible apply State.onSec_bytes | with_reducible apply ite_bytes
    | with_reducible apply foldl_bytes | (refine SameBytes.ofSnd (by assumption) ?_) | dsimp only | split

theorem acceptCounter_bytes {r₀ : State} {s : State} {slot : Nat} {k : Key} {ctr : Nat} (h1 : SameBytes r₀ s)
    : SameBytes r₀ (acceptCounter s slot k ctr) := by
  unfold acceptCounter
  repeat' first
    | with_reducible assumption | intro _ | with_reducible apply appendAlm_bytes | with_reducible apply State.onSec_bytes
    | with_reducible apply ite_bytes | with_reducible apply foldl_bytes | (refine SameBytes.ofSnd (by assumption) ?_) | dsimp only
    | split

theorem restoreFw_bytes {r₀ : State} {s : State} {ok : Bool} (h1 : SameBytes r₀ s) : SameBytes r₀ (restoreFw s ok) := by
  unfold restoreFw
  repeat' first
    | with_reducible assumption | intro _ | with_reducible apply State.onSec_bytes | with_reducible apply setSticky_bytes
    | with_reducible apply ite_bytes | with_reducible apply foldl_bytes | (refine SameBytes.ofSnd (by assumption) ?_) | dsimp only
    | split

theorem critical_bytes {r₀ : State} {s : State} {h : Hdr} {t : Trailer} {body : State → State} (h1 : SameBytes r₀ s)
    (h4 : (∀ (y04 : State), SameBytes r₀ y04 → SameBytes r₀ (body y04))) : SameBytes r₀ (critical s h t body) := by
  unfold critical
  repeat' first
    | with_reducible assumption | intro _ | with_reducible apply complete_bytes | with_reducible apply runDesc_bytes
    | with_reducible apply acceptCounter_bytes | with_reducible apply h4 | with_reducible apply ite_bytes
    | with_reducible apply foldl_bytes | (refine SameBytes.ofSnd (by assumption) ?_) | dsimp only | split

theorem requestWarm_bytes {r₀ : State} {s : State} {cause : Nat} (h1 : SameBytes r₀ s)
    : SameBytes r₀ (requestWarm s cause) := by
  unfold requestWarm
  repeat' first
    | with_reducible assumption | intro _ | with_reducible apply State.onSv_bytes
    | with_reducible apply ite_bytes | with_reducible apply foldl_bytes | (refine SameBytes.ofSnd (by assumption) ?_) | dsimp only
    | split

theorem showSeq_bytes {r₀ : State} {s : State} (h1 : SameBytes r₀ s) : SameBytes r₀ (showSeq s) := by
  unfold showSeq
  repeat' first
    | with_reducible assumption | intro _ | with_reducible apply State.onSeq_bytes | with_reducible apply ite_bytes
    | with_reducible apply foldl_bytes | (refine SameBytes.ofSnd (by assumption) ?_) | dsimp only | split

theorem startStep_bytes {r₀ : State} {s : State} (h1 : SameBytes r₀ s) : SameBytes r₀ (startStep s) := by
  unfold startStep
  repeat' first
    | with_reducible assumption | intro _ | with_reducible apply showSeq_bytes | with_reducible apply State.onSeq_bytes
    | with_reducible apply reserveSlot_bytes | with_reducible apply ite_bytes | with_reducible apply foldl_bytes
    | (refine SameBytes.ofSnd (by assumption) ?_) | dsimp only | split

theorem setProg_bytes {r₀ : State} {s : State} {p : Nat} {f : Prog → Prog} (h1 : SameBytes r₀ s)
    : SameBytes r₀ (setProg s p f) := by
  unfold setProg
  repeat' first
    | with_reducible assumption | intro _ | with_reducible apply State.onSeq_bytes | with_reducible apply ite_bytes
    | with_reducible apply foldl_bytes | (refine SameBytes.ofSnd (by assumption) ?_) | dsimp only | split

theorem atInstr_bytes {r₀ : State} {s : State} {p : Nat} {c : Instr} {body : State → State} (h1 : SameBytes r₀ s)
    (h4 : (∀ (y04 : State), SameBytes r₀ y04 → SameBytes r₀ (body y04))) : SameBytes r₀ (atInstr s p c body) := by
  unfold atInstr
  repeat' first
    | with_reducible assumption | intro _ | with_reducible apply setProg_bytes | with_reducible apply h4
    | with_reducible apply ite_bytes | with_reducible apply foldl_bytes | (refine SameBytes.ofSnd (by assumption) ?_) | dsimp only
    | split

theorem setAmax_bytes {r₀ : State} {s : State} {p x : Nat} {vs : List (Option Val)} (h1 : SameBytes r₀ s)
    : SameBytes r₀ (setAmax s p x vs) := by
  unfold setAmax
  repeat' first
    | with_reducible assumption | intro _ | with_reducible apply setProg_bytes | with_reducible apply bumpBy_bytes
    | with_reducible apply ite_bytes | with_reducible apply foldl_bytes | (refine SameBytes.ofSnd (by assumption) ?_) | dsimp only
    | split

theorem advance_bytes {r₀ : State} {s : State} {p n : Nat} (h1 : SameBytes r₀ s) : SameBytes r₀ (advance s p n) := by
  unfold advance
  repeat' first
    | with_reducible assumption | intro _ | with_reducible apply setProg_bytes | with_reducible apply ite_bytes
    | with_reducible apply foldl_bytes | (refine SameBytes.ofSnd (by assumption) ?_) | dsimp only | split

theorem execAmaxd_bytes {r₀ : State} {prog x da : Nat} {s : State} {t₀} (e₀ : execAmaxd prog x da s = .next t₀)
    (h4 : SameBytes r₀ s) : SameBytes r₀ t₀ := by
  unfold execAmaxd at e₀
  repeat' first | contradiction | (injection e₀ with e₀; subst e₀) | dsimp only at e₀ | (split at e₀)
  repeat' first
    | with_reducible assumption | intro _ | with_reducible apply setAmax_bytes | with_reducible apply advance_bytes
    | with_reducible apply atInstr_bytes | with_reducible apply checkRead_bytes | with_reducible apply ite_bytes
    | with_reducible apply ite_bytes_snd | with_reducible apply foldl_bytes | with_reducible apply foldl_bytes_snd
    | (refine SameBytes.ofSnd (by assumption) ?_) | dsimp only | split

theorem passHead_bytes {r₀ : State} {s : State} {q size : Nat} (h1 : SameBytes r₀ s) : SameBytes r₀ (passHead s q size) := by
  unfold passHead
  repeat' first
    | with_reducible assumption | intro _ | with_reducible apply setQueue_bytes | with_reducible apply ite_bytes
    | with_reducible apply foldl_bytes | (refine SameBytes.ofSnd (by assumption) ?_) | dsimp only | split

theorem takeEntry_bytes {r₀ : State} {s : State} {q size : Nat} {e : List Byte} {idx gen : Nat} (h1 : SameBytes r₀ s)
    : SameBytes r₀ (takeEntry s q size e idx gen) := by
  unfold takeEntry
  repeat' first
    | with_reducible assumption | intro _ | with_reducible apply setQueue_bytes | with_reducible apply completeIdle_bytes
    | with_reducible apply State.onSeq_bytes | with_reducible apply passHead_bytes | with_reducible apply ite_bytes
    | with_reducible apply foldl_bytes | (refine SameBytes.ofSnd (by assumption) ?_) | dsimp only | split

theorem readHead_bytes {r₀ : State} {s : State} {q : Nat} {r : Rec} (h1 : SameBytes r₀ s)
    : SameBytes r₀ (readHead s q r) := by
  unfold readHead
  repeat' first
    | with_reducible assumption | intro _ | with_reducible apply setQueue_bytes | with_reducible apply completeIdle_bytes
    | with_reducible apply bump_bytes | with_reducible apply checkRead_bytes | with_reducible apply takeEntry_bytes
    | with_reducible apply State.onSeq_bytes | with_reducible apply passHead_bytes | with_reducible apply ite_bytes
    | with_reducible apply ite_bytes_snd | with_reducible apply foldl_bytes | with_reducible apply foldl_bytes_snd
    | (refine SameBytes.ofSnd (by assumption) ?_) | dsimp only | split

theorem execDescriptorFetch_bytes {r₀ : State} {queue : Nat} {s : State} {t₀}
    (e₀ : execDescriptorFetch queue s = .next t₀) (h2 : SameBytes r₀ s) : SameBytes r₀ t₀ := by
  unfold execDescriptorFetch at e₀
  repeat' first | contradiction | (injection e₀ with e₀; subst e₀) | dsimp only at e₀ | (split at e₀)
  repeat' first
    | with_reducible assumption | intro _ | with_reducible apply readHead_bytes | with_reducible apply reserveSlot_bytes
    | with_reducible apply ite_bytes | with_reducible apply foldl_bytes | (refine SameBytes.ofSnd (by assumption) ?_) | dsimp only
    | split

theorem execSealReread_bytes {r₀ : State} {queue : Nat} {s : State} {t₀} (e₀ : execSealReread queue s = .next t₀)
    (h2 : SameBytes r₀ s) : SameBytes r₀ t₀ := by
  unfold execSealReread at e₀
  repeat' first | contradiction | (injection e₀ with e₀; subst e₀) | dsimp only at e₀ | (split at e₀)
  repeat' first
    | with_reducible assumption | intro _ | with_reducible apply readHead_bytes | with_reducible apply ite_bytes
    | with_reducible apply foldl_bytes | (refine SameBytes.ofSnd (by assumption) ?_) | dsimp only | split

theorem beginUpdate_bytes {r₀ : State} {s : State} {h : Hdr} {srcDa srcLen : Nat} (h1 : SameBytes r₀ s)
    : SameBytes r₀ (beginUpdate s h srcDa srcLen) := by
  unfold beginUpdate
  repeat' first
    | with_reducible assumption | intro _ | with_reducible apply markStarted_bytes | with_reducible apply State.onSec_bytes
    | with_reducible apply ite_bytes | with_reducible apply foldl_bytes | (refine SameBytes.ofSnd (by assumption) ?_) | dsimp only
    | split

theorem finishUpdate_bytes {r₀ : State} {s : State} {h : Hdr} {srcDa srcLen : Nat} {readbackBad : Bool}
    (h1 : SameBytes r₀ s) : SameBytes r₀ (finishUpdate s h srcDa srcLen readbackBad) := by
  unfold finishUpdate
  repeat' first
    | with_reducible assumption | intro _ | with_reducible apply State.onSec_bytes | with_reducible apply State.took_bytes
    | with_reducible apply complete_bytes | with_reducible apply requestWarm_bytes | with_reducible apply restoreFw_bytes
    | with_reducible apply ite_bytes | with_reducible apply foldl_bytes | (refine SameBytes.ofSnd (by assumption) ?_) | dsimp only
    | split

theorem execFwUpdateStart_bytes {r₀ : State} {h : Hdr} {t : Trailer} {srcDa srcLen : Nat} {readbackBad : Bool}
    {s : State} {t₀} (e₀ : execFwUpdateStart h t srcDa srcLen readbackBad s = .next t₀) (h6 : SameBytes r₀ s) : SameBytes r₀ t₀ := by
  unfold execFwUpdateStart at e₀
  repeat' first | contradiction | (injection e₀ with e₀; subst e₀) | dsimp only at e₀ | (split at e₀)
  repeat' first
    | with_reducible assumption | intro _ | with_reducible apply State.onSec_bytes | with_reducible apply finishUpdate_bytes
    | with_reducible apply checkRead_bytes | with_reducible apply complete_bytes | with_reducible apply critical_bytes
    | with_reducible apply beginUpdate_bytes | with_reducible apply ite_bytes | with_reducible apply ite_bytes_snd
    | with_reducible apply foldl_bytes | with_reducible apply foldl_bytes_snd | (refine SameBytes.ofSnd (by assumption) ?_) | dsimp only
    | split

theorem readOperands_bytes {r₀ : State} {s : State} {h : Hdr} {rs : List Range} {x21}
    (e₀ : readOperands s h rs = .inr x21) (h1 : SameBytes r₀ s) : SameBytes r₀ x21 := by
  unfold readOperands at e₀
  repeat' first | contradiction | (injection e₀ with e₀; subst e₀) | dsimp only at e₀ | (split at e₀)
  repeat' first
    | with_reducible assumption | intro _ | with_reducible apply checkRead_bytes | with_reducible apply ite_bytes
    | with_reducible apply ite_bytes_snd | with_reducible apply foldl_bytes | with_reducible apply foldl_bytes_snd
    | (refine SameBytes.ofSnd (by assumption) ?_) | dsimp only | split

theorem execOwnerSet_bytes {r₀ : State} {h : Hdr} {keyDa sigDa ctr : Nat} {s : State} {t₀}
    (e₀ : execOwnerSet h keyDa sigDa ctr s = .next t₀) (h5 : SameBytes r₀ s) : SameBytes r₀ t₀ := by
  unfold execOwnerSet at e₀
  repeat' first | contradiction | (injection e₀ with e₀; subst e₀) | dsimp only at e₀ | (split at e₀)
  repeat' first
    | with_reducible assumption | intro _ | with_reducible apply appendAlm_bytes | with_reducible apply State.onSec_bytes
    | with_reducible apply complete_bytes | with_reducible apply runDesc_bytes | with_reducible apply ite_bytes
    | with_reducible apply foldl_bytes | (with_reducible refine readOperands_bytes (by assumption) ?_)
    | (refine SameBytes.ofSnd (by assumption) ?_) | dsimp only | split

theorem execKeyAgree_bytes {r₀ : State} {h : Hdr} {slot keyNum ctr ctDa sigDa : Nat} {s : State} {t₀}
    (e₀ : execKeyAgree h slot keyNum ctr ctDa sigDa s = .next t₀) (h7 : SameBytes r₀ s) : SameBytes r₀ t₀ := by
  unfold execKeyAgree at e₀
  injection e₀ with e₀; subst e₀
  apply runDesc_bytes h7
  intro u k
  split
  · exact complete_bytes k
  · rename_i v hv
    have kv := readOperands_bytes hv k
    clear hv k
    with_reducible apply ite_bytes
    · exact complete_bytes kv
    split
    · exact complete_bytes kv
    with_reducible apply ite_bytes
    · exact complete_bytes kv
    with_reducible apply ite_bytes
    · exact complete_bytes kv
    with_reducible apply complete_bytes
    with_reducible apply State.onSec_bytes
    with_reducible apply appendAlm_bytes
    exact kv

theorem setReason_bytes {r₀ : State} {s : State} {why sec rec_ : Nat} (h1 : SameBytes r₀ s)
    : SameBytes r₀ (setReason s why sec rec_) := by
  unfold setReason
  repeat' first
    | with_reducible assumption | intro _ | with_reducible apply State.onImg_bytes | with_reducible apply ite_bytes
    | with_reducible apply foldl_bytes | (refine SameBytes.ofSnd (by assumption) ?_) | dsimp only | split

theorem refuseLoad_bytes {r₀ : State} {s : State} {h : Hdr} {n : LoadNo} (h1 : SameBytes r₀ s)
    : SameBytes r₀ (refuseLoad s h n) := by
  unfold refuseLoad
  repeat' first
    | with_reducible assumption | intro _ | with_reducible apply State.onGz_bytes | with_reducible apply setReason_bytes
    | with_reducible apply complete_bytes | with_reducible apply ite_bytes | with_reducible apply foldl_bytes
    | (refine SameBytes.ofSnd (by assumption) ?_) | dsimp only | split

theorem stageLoad_bytes {r₀ : State} {s : State} {h : Hdr} {op : LoadOp} {kind : Nat} {i : Image} (h1 : SameBytes r₀ s)
    : SameBytes r₀ (stageLoad s h op kind i) := by
  unfold stageLoad
  repeat' first
    | with_reducible assumption | intro _ | with_reducible apply State.onImg_bytes | with_reducible apply markStarted_bytes
    | with_reducible apply refuseLoad_bytes | with_reducible apply ite_bytes | with_reducible apply foldl_bytes
    | (refine SameBytes.ofSnd (by assumption) ?_) | dsimp only | split

theorem sourceChecks_bytes {r₀ : State} {s : State} {op : LoadOp} (h1 : SameBytes r₀ s)
    : SameBytes r₀ (sourceChecks s op).2 := by
  unfold sourceChecks
  repeat' first
    | with_reducible assumption | intro _ | with_reducible apply checkRead_bytes | with_reducible apply ite_bytes
    | with_reducible apply ite_bytes_snd | with_reducible apply foldl_bytes | with_reducible apply foldl_bytes_snd
    | (refine SameBytes.ofSnd (by assumption) ?_) | dsimp only | split

theorem execTnHandback_bytes {r₀ : State} {h : Hdr} {op : LoadOp} {s : State} {t₀}
    (e₀ : execTnHandback h op s = .next t₀) (h3 : SameBytes r₀ s) : SameBytes r₀ t₀ := by
  unfold execTnHandback at e₀
  repeat' first | contradiction | (injection e₀ with e₀; subst e₀) | dsimp only at e₀ | (split at e₀)
  repeat' first
    | with_reducible assumption | intro _ | with_reducible apply stageLoad_bytes | with_reducible apply complete_bytes
    | with_reducible apply refuseLoad_bytes | with_reducible apply sourceChecks_bytes | with_reducible apply runDesc_bytes
    | with_reducible apply ite_bytes | with_reducible apply ite_bytes_snd | with_reducible apply foldl_bytes
    | with_reducible apply foldl_bytes_snd | (refine SameBytes.ofSnd (by assumption) ?_) | dsimp only | split

theorem execImageLoad_bytes {r₀ : State} {h : Hdr} {t : Trailer} {op : LoadOp} {s : State} {t₀}
    (e₀ : execImageLoad h t op s = .next t₀) (h4 : SameBytes r₀ s) : SameBytes r₀ t₀ := by
  unfold execImageLoad at e₀
  repeat' first | contradiction | (injection e₀ with e₀; subst e₀) | dsimp only at e₀ | (split at e₀)
  repeat' first
    | with_reducible assumption | intro _ | with_reducible apply stageLoad_bytes | with_reducible apply refuseLoad_bytes
    | with_reducible apply sourceChecks_bytes | with_reducible apply critical_bytes | with_reducible apply ite_bytes
    | with_reducible apply ite_bytes_snd | with_reducible apply foldl_bytes | with_reducible apply foldl_bytes_snd
    | (refine SameBytes.ofSnd (by assumption) ?_) | dsimp only | split

theorem checkReads_bytes {r₀ : State} {s : State} {rs : List Range} (h1 : SameBytes r₀ s)
    : SameBytes r₀ (checkReads s rs).2 := by
  unfold checkReads
  repeat' first
    | with_reducible assumption | intro _ | with_reducible apply checkRead_bytes | with_reducible apply ite_bytes
    | with_reducible apply ite_bytes_snd | with_reducible apply foldl_bytes | with_reducible apply foldl_bytes_snd
    | (refine SameBytes.ofSnd (by assumption) ?_) | dsimp only | split

theorem setWaits_bytes {r₀ : State} {s : State} {h : Hdr} {rs : List Range} (h1 : SameBytes r₀ s)
    : SameBytes r₀ (setWaits s h rs) := by
  unfold setWaits
  repeat' first
    | with_reducible assumption | intro _ | with_reducible apply State.onQm_bytes | with_reducible apply ite_bytes
    | with_reducible apply foldl_bytes | (refine SameBytes.ofSnd (by assumption) ?_) | dsimp only | split

theorem sendEntry_bytes {r₀ : State} {h : Hdr} {o : GatherOp} {tr : Rec} {g : ScatterRun} {e : GradEntry}
    (h4 : SameBytes r₀ g.st) : SameBytes r₀ (sendEntry h o tr g e).st := by
  unfold sendEntry
  repeat' first
    | with_reducible assumption | intro _ | with_reducible apply sendAdd_bytes | with_reducible apply openReq_bytes
    | with_reducible apply ite_bytes | with_reducible apply foldl_bytes | (with_reducible refine foldl_bytes_of ScatterRun.st ?_ ?_)
    | (refine SameBytes.ofSnd (by assumption) ?_) | dsimp only | split

theorem bumpEng_bytes {r₀ : State} {s : State} {e off n : Nat} (h1 : SameBytes r₀ s) : SameBytes r₀ (bumpEng s e off n) := by
  unfold bumpEng
  repeat' first
    | with_reducible assumption | intro _ | with_reducible apply bumpBy_bytes | with_reducible apply ite_bytes
    | with_reducible apply foldl_bytes | (refine SameBytes.ofSnd (by assumption) ?_) | dsimp only | split

theorem sendEntries_bytes {r₀ : State} {h : Hdr} {o : GatherOp} {tr : Rec} {g : ScatterRun} (h4 : SameBytes r₀ g.st)
    : SameBytes r₀ (sendEntries h o tr g).st := by
  unfold sendEntries
  repeat' first
    | with_reducible assumption | intro _ | with_reducible apply sendEntry_bytes | with_reducible apply ite_bytes
    | with_reducible apply foldl_bytes | (with_reducible refine foldl_bytes_of ScatterRun.st ?_ ?_)
    | (refine SameBytes.ofSnd (by assumption) ?_) | dsimp only | split

theorem spillGrad_bytes {r₀ : State} {h : Hdr} {o : GatherOp} {tr : Rec} {g : ScatterRun} (h4 : SameBytes r₀ g.st)
    : SameBytes r₀ (spillGrad h o tr g).st := by
  unfold spillGrad
  repeat' first
    | with_reducible assumption | intro _ | with_reducible apply bumpEng_bytes | with_reducible apply sendEntries_bytes
    | with_reducible apply ite_bytes | with_reducible apply foldl_bytes | (with_reducible refine foldl_bytes_of ScatterRun.st ?_ ?_)
    | (refine SameBytes.ofSnd (by assumption) ?_) | dsimp only | split

theorem mergeGrad_bytes {r₀ : State} {h : Hdr} {o : GatherOp} {tr : Rec} {g : ScatterRun} {row : Nat} {ws : List Int}
    (h4 : SameBytes r₀ g.st) : SameBytes r₀ (mergeGrad h o tr g row ws).st := by
  unfold mergeGrad
  repeat' first
    | with_reducible assumption | intro _ | with_reducible apply sendEntry_bytes | with_reducible apply bumpEng_bytes
    | with_reducible apply spillGrad_bytes | with_reducible apply ite_bytes | with_reducible apply foldl_bytes
    | (with_reducible refine foldl_bytes_of ScatterRun.st ?_ ?_) | (refine SameBytes.ofSnd (by assumption) ?_) | dsimp only | split

theorem readAhead_bytes {r₀ : State} {s : State} {o : GatherOp} {wsum : Bool} {b p : Nat} (h1 : SameBytes r₀ s)
    : SameBytes r₀ (readAhead s o wsum b p) := by
  unfold readAhead
  repeat' first
    | with_reducible assumption | intro _ | with_reducible apply checkReads_bytes | with_reducible apply State.took_bytes
    | with_reducible apply ite_bytes | with_reducible apply ite_bytes_snd | with_reducible apply foldl_bytes
    | with_reducible apply foldl_bytes_snd | (refine SameBytes.ofSnd (by assumption) ?_) | dsimp only | split

theorem bagRange_bytes {r₀ : State} {s : State} {o : GatherOp} {b : Nat} (h1 : SameBytes r₀ s)
    : SameBytes r₀ (bagRange s o b).2 := by
  unfold bagRange
  repeat' first
    | with_reducible assumption | intro _ | with_reducible apply checkRead_bytes | with_reducible apply ite_bytes
    | with_reducible apply ite_bytes_snd | with_reducible apply foldl_bytes | with_reducible apply foldl_bytes_snd
    | (refine SameBytes.ofSnd (by assumption) ?_) | dsimp only | split

theorem bagItems_bytes {r₀ : State} {s : State} {o : GatherOp} {wsum : Bool} {lo hi : Nat} (h1 : SameBytes r₀ s)
    : SameBytes r₀ (bagItems s o wsum lo hi).2 := by
  unfold bagItems
  repeat' first
    | with_reducible assumption | intro _ | with_reducible apply checkRead_bytes | with_reducible apply ite_bytes
    | with_reducible apply ite_bytes_snd | with_reducible apply foldl_bytes | with_reducible apply foldl_bytes_snd
    | (refine SameBytes.ofSnd (by assumption) ?_) | dsimp only | split

theorem scatterIndex_bytes {r₀ : State} {h : Hdr} {o : GatherOp} {tr : Rec} {vs : List Val} {n : Nat} {g : ScatterRun}
    {x : Int × Val} (h6 : SameBytes r₀ g.st) : SameBytes r₀ (scatterIndex h o tr vs n g x).st := by
  unfold scatterIndex
  repeat' first
    | with_reducible assumption | intro _ | with_reducible apply mergeGrad_bytes | with_reducible apply bumpBy_bytes
    | with_reducible apply bumpEng_bytes | with_reducible apply noteLoss_bytes | with_reducible apply ite_bytes
    | with_reducible apply foldl_bytes | (with_reducible refine foldl_bytes_of ScatterRun.st ?_ ?_)
    | (refine SameBytes.ofSnd (by assumption) ?_) | dsimp only | split

theorem gradRow_bytes {r₀ : State} {s : State} {o : GatherOp} {tr : Rec} {b : Nat} (h1 : SameBytes r₀ s)
    : SameBytes r₀ (gradRow s o tr b).2.2 := by
  unfold gradRow
  repeat' first
    | with_reducible assumption | intro _ | with_reducible apply checkReads_bytes | with_reducible apply checkRead_bytes
    | with_reducible apply ite_bytes | with_reducible apply ite_bytes_snd | with_reducible apply foldl_bytes
    | with_reducible apply foldl_bytes_snd | (refine SameBytes.ofSnd (by assumption) ?_) | dsimp only | split

theorem scatterBags_bytes {r₀ : State} {h : Hdr} {o : GatherOp} {tr : Rec} {a3 a4 : Nat} {a5 : ScatterRun}
    (h6 : SameBytes r₀ a5.st) : SameBytes r₀ (scatterBags h o tr a3 a4 a5).2.st := by
  induction a3 generalizing a4 a5 with
  | zero =>
    unfold scatterBags
    repeat' first
      | with_reducible assumption | intro _ | with_reducible apply bagRange_bytes | with_reducible apply readAhead_bytes
      | with_reducible apply bagItems_bytes | with_reducible apply scatterIndex_bytes | with_reducible apply gradRow_bytes
      | with_reducible apply ite_bytes | with_reducible apply ite_bytes_snd | with_reducible apply foldl_bytes
      | with_reducible apply foldl_bytes_snd | (with_reducible refine foldl_bytes_of ScatterRun.st ?_ ?_)
      | (refine SameBytes.ofSnd (by assumption) ?_) | dsimp only | split
  | succ _ ih =>
    unfold scatterBags
    repeat' first
      | with_reducible assumption | intro _ | with_reducible apply ih | with_reducible apply bagRange_bytes
      | with_reducible apply readAhead_bytes | with_reducible apply bagItems_bytes | with_reducible apply scatterIndex_bytes
      | with_reducible apply gradRow_bytes | with_reducible apply ite_bytes | with_reducible apply ite_bytes_snd
      | with_reducible apply foldl_bytes | with_reducible apply foldl_bytes_snd
      | (with_reducible refine foldl_bytes_of ScatterRun.st ?_ ?_) | (refine SameBytes.ofSnd (by assumption) ?_) | dsimp only | split

theorem runScatter_bytes {r₀ : State} {s : State} {h : Hdr} {o : GatherOp} {tr : Rec} (h1 : SameBytes r₀ s)
    : SameBytes r₀ (runScatter s h o tr) := by
  unfold runScatter
  repeat' first
    | with_reducible assumption | intro _ | with_reducible apply State.onMu_bytes | with_reducible apply markStarted_bytes
    | with_reducible apply sendEntries_bytes | with_reducible apply scatterBags_bytes | with_reducible apply complete_bytes
    | with_reducible apply waitFor_bytes | with_reducible apply ite_bytes | with_reducible apply ite_bytes_snd
    | with_reducible apply foldl_bytes | with_reducible apply foldl_bytes_snd
    | (with_reducible refine foldl_bytes_of ScatterRun.st ?_ ?_) | (refine SameBytes.ofSnd (by assumption) ?_) | dsimp only | split

theorem sendHeld_bytes {r₀ : State} {s : State} {h : Hdr} {a2 : List (OutReq × AddMsg)} (h1 : SameBytes r₀ s)
    : SameBytes r₀ (sendHeld s h a2) := by
  induction a2 generalizing s with
  | nil =>
    unfold sendHeld
    repeat' first
      | with_reducible assumption | intro _ | with_reducible apply State.onMu_bytes | with_reducible apply sendAdd_bytes
      | with_reducible apply endAdds_bytes | with_reducible apply openReq_bytes | with_reducible apply State.onQm_bytes
      | with_reducible apply ite_bytes | with_reducible apply foldl_bytes | (refine SameBytes.ofSnd (by assumption) ?_) | dsimp only
      | split
  | cons _ _ ih =>
    unfold sendHeld
    repeat' first
      | with_reducible assumption | intro _ | with_reducible apply ih | with_reducible apply State.onMu_bytes
      | with_reducible apply sendAdd_bytes | with_reducible apply endAdds_bytes | with_reducible apply openReq_bytes
      | with_reducible apply State.onQm_bytes | with_reducible apply ite_bytes | with_reducible apply foldl_bytes
      | (refine SameBytes.ofSnd (by assumption) ?_) | dsimp only | split

theorem execMuGradScatter_bytes {r₀ : State} {h : Hdr} {op : GatherOp} {s : State} {t₀}
    (e₀ : execMuGradScatter h op s = .next t₀) (h3 : SameBytes r₀ s) : SameBytes r₀ t₀ := by
  unfold execMuGradScatter at e₀
  repeat' first | contradiction | (injection e₀ with e₀; subst e₀) | dsimp only at e₀ | (split at e₀)
  repeat' first
    | with_reducible assumption | intro _ | with_reducible apply sendHeld_bytes | with_reducible apply complete_bytes
    | with_reducible apply setWaits_bytes | with_reducible apply runScatter_bytes | with_reducible apply runDesc_bytes
    | with_reducible apply ite_bytes | with_reducible apply foldl_bytes | (refine SameBytes.ofSnd (by assumption) ?_) | dsimp only
    | split

theorem readSlot_bytes {r₀ : State} {s : State} {d i n : Nat} (h1 : SameBytes r₀ s) : SameBytes r₀ (readSlot s d i n).2 := by
  unfold readSlot
  repeat' first
    | with_reducible assumption | intro _ | with_reducible apply panelFaultAt_bytes | with_reducible apply cbCheck_bytes
    | with_reducible apply ite_bytes | with_reducible apply ite_bytes_snd | with_reducible apply foldl_bytes
    | with_reducible apply foldl_bytes_snd | (refine SameBytes.ofSnd (by assumption) ?_) | dsimp only | split

theorem leaveGauze_bytes {r₀ : State} {s : State} {link : Nat} {peer : Nat × Nat} {f : Flit} (h1 : SameBytes r₀ s)
    : SameBytes r₀ (leaveGauze s link peer f) := by
  unfold leaveGauze
  repeat' first
    | with_reducible assumption | intro _ | with_reducible apply sendRemote_bytes | with_reducible apply ite_bytes
    | with_reducible apply foldl_bytes | (refine SameBytes.ofSnd (by assumption) ?_) | dsimp only | split

theorem requestRemote_bytes {r₀ : State} {s : State} {r : OutReq} {f : Flit} {rDie : Nat} (h1 : SameBytes r₀ s)
    : SameBytes r₀ (requestRemote s r f rDie) := by
  unfold requestRemote
  repeat' first
    | with_reducible assumption | intro _ | with_reducible apply leaveGauze_bytes | with_reducible apply sendOne_bytes
    | with_reducible apply openReq_bytes | with_reducible apply sendInside_bytes | with_reducible apply ite_bytes
    | with_reducible apply foldl_bytes | (refine SameBytes.ofSnd (by assumption) ?_) | dsimp only | split

theorem sendDense_bytes {r₀ : State} {s : State} {h : Hdr} {o : LedgerAddOp} {j : Nat} {x19}
    (e₀ : sendDense s h o j = some x19) (h1 : SameBytes r₀ s) : SameBytes r₀ x19 := by
  unfold sendDense at e₀
  repeat' first | contradiction | (injection e₀ with e₀; subst e₀) | dsimp only at e₀ | (split at e₀)
  repeat' first
    | with_reducible assumption | intro _ | with_reducible apply bumpBy_bytes | with_reducible apply sendAdd_bytes
    | with_reducible apply noteLoss_bytes | with_reducible apply requestRemote_bytes | with_reducible apply openReq_bytes
    | with_reducible apply State.onQm_bytes | with_reducible apply ite_bytes | with_reducible apply foldl_bytes
    | (refine SameBytes.ofSnd (by assumption) ?_) | dsimp only | split

theorem countLost_bytes {r₀ : State} {s : State} {dev : Nat} (h1 : SameBytes r₀ s) : SameBytes r₀ (countLost s dev) := by
  unfold countLost
  repeat' first
    | with_reducible assumption | intro _ | with_reducible apply bump_bytes | dsimp only | split

theorem sendAdds_bytes {r₀ : State} {s : State} {h : Hdr} {o : LedgerAddOp} {a3 a4 : Nat} (h1 : SameBytes r₀ s)
    : SameBytes r₀ (sendAdds s h o a3 a4) := by
  induction a3 generalizing s a4 with
  | zero =>
    unfold sendAdds
    repeat' first
      | with_reducible assumption | intro _ | with_reducible apply countLost_bytes | with_reducible apply State.onMu_bytes | with_reducible apply endAdds_bytes
      | with_reducible apply ite_bytes | with_reducible apply foldl_bytes | (with_reducible refine sendDense_bytes (by assumption) ?_)
      | (refine SameBytes.ofSnd (by assumption) ?_) | dsimp only | split
  | succ _ ih =>
    unfold sendAdds
    repeat' first
      | with_reducible assumption | intro _ | with_reducible apply ih | with_reducible apply countLost_bytes | with_reducible apply State.onMu_bytes
      | with_reducible apply endAdds_bytes | with_reducible apply ite_bytes | with_reducible apply foldl_bytes
      | (with_reducible refine sendDense_bytes (by assumption) ?_) | (refine SameBytes.ofSnd (by assumption) ?_) | dsimp only | split

theorem runAdd_bytes {r₀ : State} {s : State} {h : Hdr} {o : LedgerAddOp} (h1 : SameBytes r₀ s)
    : SameBytes r₀ (runAdd s h o) := by
  unfold runAdd
  repeat' first
    | with_reducible assumption | intro _ | with_reducible apply checkReads_bytes | with_reducible apply complete_bytes
    | with_reducible apply sendAdds_bytes | with_reducible apply waitFor_bytes | with_reducible apply ite_bytes
    | with_reducible apply ite_bytes_snd | with_reducible apply foldl_bytes | with_reducible apply foldl_bytes_snd
    | (refine SameBytes.ofSnd (by assumption) ?_) | dsimp only | split

theorem execMuLedgerAdd_bytes {r₀ : State} {h : Hdr} {op : LedgerAddOp} {s : State} {t₀}
    (e₀ : execMuLedgerAdd h op s = .next t₀) (h3 : SameBytes r₀ s) : SameBytes r₀ t₀ := by
  unfold execMuLedgerAdd at e₀
  repeat' first | contradiction | (injection e₀ with e₀; subst e₀) | dsimp only at e₀ | (split at e₀)
  repeat' first
    | with_reducible assumption | intro _ | with_reducible apply countLost_bytes | with_reducible apply runAdd_bytes | with_reducible apply complete_bytes
    | with_reducible apply sendAdds_bytes | with_reducible apply runDesc_bytes | with_reducible apply ite_bytes
    | with_reducible apply foldl_bytes | (refine SameBytes.ofSnd (by assumption) ?_) | dsimp only | split

theorem scrubMove_bytes {r₀ : State} {s : State} {d h pos last : Nat} (h1 : SameBytes r₀ s)
    : SameBytes r₀ (scrubMove s d h pos last) := by
  unfold scrubMove
  repeat' first
    | with_reducible assumption | intro _ | with_reducible apply State.onMu_bytes | with_reducible apply ite_bytes
    | with_reducible apply foldl_bytes | (refine SameBytes.ofSnd (by assumption) ?_) | dsimp only | split

theorem loseEntry_bytes {r₀ : State} {s : State} {k : Nat} {pendPool : Bool} {bank region slots : Nat}
    (h1 : SameBytes r₀ s) : SameBytes r₀ (loseEntry s k pendPool bank region slots) := by
  unfold loseEntry
  repeat' first
    | with_reducible assumption | intro _ | with_reducible apply State.onMu_bytes | with_reducible apply State.took_bytes
    | with_reducible apply ite_bytes | with_reducible apply foldl_bytes | (refine SameBytes.ofSnd (by assumption) ?_) | dsimp only
    | split

theorem loseWords_bytes {r₀ : State} {s : State} {k bank region lo : Nat} (h1 : SameBytes r₀ s)
    : SameBytes r₀ (loseWords s k bank region lo) := by
  unfold loseWords
  repeat' first
    | with_reducible assumption | intro _ | with_reducible apply State.onMu_bytes | with_reducible apply bumpBy_bytes
    | with_reducible apply reportLate_bytes | with_reducible apply ite_bytes | with_reducible apply foldl_bytes
    | (refine SameBytes.ofSnd (by assumption) ?_) | dsimp only | split

theorem loseLedger_bytes {r₀ : State} {s : State} {k : Nat} {q : Range} (h1 : SameBytes r₀ s)
    : SameBytes r₀ (loseLedger s k q) := by
  unfold loseLedger
  repeat' first
    | with_reducible assumption | intro _ | with_reducible apply loseEntry_bytes | with_reducible apply loseWords_bytes
    | with_reducible apply ite_bytes | with_reducible apply foldl_bytes | (refine SameBytes.ofSnd (by assumption) ?_) | dsimp only
    | split

theorem scrubSector_bytes {r₀ : State} {s : State} {a : Nat} (h1 : SameBytes r₀ s) : SameBytes r₀ (scrubSector s a) := by
  unfold scrubSector
  repeat' first
    | with_reducible assumption | intro _ | with_reducible apply loseLedger_bytes | with_reducible apply readSector_bytes
    | with_reducible apply markPoisoned_bytes
    | (with_reducible refine State.onMem_bytes ?_ (fun _ => ⟨rfl, rfl⟩)) | exact writeCells_wf _ _ _ h
    | with_reducible apply insAll_rising | with_reducible apply ins_rising | with_reducible apply List.Pairwise.filter
    | with_reducible apply keep_wf | with_reducible apply keep_rising | with_reducible apply del_rising
    | with_reducible apply put_rising | with_reducible apply ite_bytes | with_reducible apply ite_bytes_snd
    | with_reducible apply foldl_bytes | with_reducible apply foldl_bytes_snd | (refine SameBytes.ofSnd (by assumption) ?_) | dsimp only
    | split

theorem execScrubRead_bytes {r₀ : State} {die half : Nat} {s : State} {t₀} (e₀ : execScrubRead die half s = .next t₀)
    (h3 : SameBytes r₀ s) : SameBytes r₀ t₀ := by
  unfold execScrubRead at e₀
  repeat' first | contradiction | (injection e₀ with e₀; subst e₀) | dsimp only at e₀ | (split at e₀)
  repeat' first
    | with_reducible assumption | intro _ | with_reducible apply scrubMove_bytes | with_reducible apply scrubSector_bytes
    | with_reducible apply ite_bytes | with_reducible apply foldl_bytes | (refine SameBytes.ofSnd (by assumption) ?_) | dsimp only
    | split

theorem buildShadow_bytes {r₀ : State} {k : Nat} {s : State} {x : Heavy} (h2 : SameBytes r₀ s)
    : SameBytes r₀ (buildShadow k s x) := by
  unfold buildShadow
  repeat' first
    | with_reducible assumption | intro _ | with_reducible apply panelFaultAt_bytes | with_reducible apply State.onMu_bytes
    | with_reducible apply cbWrite_bytes | with_reducible apply markPoisoned_bytes | with_reducible apply checkRead_bytes
    | with_reducible apply ite_bytes | with_reducible apply ite_bytes_snd | with_reducible apply foldl_bytes
    | with_reducible apply foldl_bytes_snd | (refine SameBytes.ofSnd (by assumption) ?_) | dsimp only | split

theorem buildShadows_bytes {r₀ : State} {s : State} (h1 : SameBytes r₀ s) : SameBytes r₀ (buildShadows s) := by
  unfold buildShadows
  repeat' first
    | with_reducible assumption | intro _ | with_reducible apply buildShadow_bytes | with_reducible apply ite_bytes
    | with_reducible apply foldl_bytes | (refine SameBytes.ofSnd (by assumption) ?_) | dsimp only | split

theorem countGate_bytes {r₀ : State} {s : State} (h1 : SameBytes r₀ s) : SameBytes r₀ (countGate s) := by
  unfold countGate
  repeat' first
    | with_reducible assumption | intro _ | with_reducible apply bumpBy_bytes | with_reducible apply State.took_bytes
    | with_reducible apply ite_bytes | with_reducible apply foldl_bytes | (refine SameBytes.ofSnd (by assumption) ?_) | dsimp only
    | split

theorem execStepStart_bytes {r₀ : State} {s : State} {t₀} (e₀ : execStepStart s = .next t₀) (h1 : SameBytes r₀ s)
    : SameBytes r₀ t₀ := by
  unfold execStepStart at e₀
  repeat' first | contradiction | (injection e₀ with e₀; subst e₀) | dsimp only at e₀ | (split at e₀)
  repeat' first
    | with_reducible assumption | intro _ | with_reducible apply startStep_bytes | with_reducible apply countGate_bytes
    | with_reducible apply buildShadows_bytes | with_reducible apply ite_bytes | with_reducible apply foldl_bytes
    | (refine SameBytes.ofSnd (by assumption) ?_) | dsimp only | split

theorem ringTarget_bytes {r₀ : State} {s : State} {o : RingOp} {put_ : Bool} {j n : Nat} {r : OutReq} {x27}
    (e₀ : ringTarget s o put_ j n r = some x27) (h1 : SameBytes r₀ s) : SameBytes r₀ x27.2.2 := by
  unfold ringTarget at e₀
  repeat' first | contradiction | (injection e₀ with e₀; subst e₀) | dsimp only at e₀ | (obtain ⟨_, e₀, rfl⟩ := Option.map_eq_some_iff.mp e₀) | (split at e₀)
  repeat' first
    | with_reducible assumption | intro _ | with_reducible apply State.onRings_bytes | with_reducible apply State.took_bytes
    | with_reducible apply ite_bytes | with_reducible apply ite_bytes_snd | with_reducible apply foldl_bytes
    | with_reducible apply foldl_bytes_snd | (refine SameBytes.ofSnd (by assumption) ?_) | dsimp only | split

theorem addWait_bytes {r₀ : State} {s : State} {h : Hdr} {key : Nat} (h1 : SameBytes r₀ s)
    : SameBytes r₀ (addWait s h key) := by
  unfold addWait
  repeat' first
    | with_reducible assumption | intro _ | with_reducible apply State.onQm_bytes | with_reducible apply ite_bytes
    | with_reducible apply foldl_bytes | (refine SameBytes.ofSnd (by assumption) ?_) | dsimp only | split

theorem sendRing_bytes {r₀ : State} {s : State} {h : Hdr} {o : RingOp} {put_ : Bool} {j : Nat} {x23}
    (e₀ : sendRing s h o put_ j = some x23) (h1 : SameBytes r₀ s) : SameBytes r₀ x23 := by
  unfold sendRing at e₀
  repeat' first | contradiction | (injection e₀ with e₀; subst e₀) | dsimp only at e₀ | (obtain ⟨_, e₀, rfl⟩ := Option.map_eq_some_iff.mp e₀) | (split at e₀)
  repeat' first
    | with_reducible assumption | intro _ | with_reducible apply requestRemote_bytes | with_reducible apply addWait_bytes
    | with_reducible apply ite_bytes | with_reducible apply ite_bytes_snd | with_reducible apply foldl_bytes
    | with_reducible apply foldl_bytes_snd | (with_reducible refine ringTarget_bytes (by assumption) ?_)
    | (refine SameBytes.ofSnd (by assumption) ?_) | dsimp only | split

theorem sendRings_bytes {r₀ : State} {s : State} {h : Hdr} {o : RingOp} {put_ : Bool} {a4 a5 : Nat} (h1 : SameBytes r₀ s)
    : SameBytes r₀ (sendRings s h o put_ a4 a5) := by
  induction a4 generalizing s a5 with
  | zero =>
    unfold sendRings
    repeat' first
      | with_reducible assumption | intro _ | with_reducible apply countLost_bytes | with_reducible apply State.onMu_bytes | with_reducible apply endAdds_bytes
      | with_reducible apply ite_bytes | with_reducible apply foldl_bytes | (with_reducible refine sendRing_bytes (by assumption) ?_)
      | (refine SameBytes.ofSnd (by assumption) ?_) | dsimp only | split
  | succ _ ih =>
    unfold sendRings
    repeat' first
      | with_reducible assumption | intro _ | with_reducible apply ih | with_reducible apply countLost_bytes | with_reducible apply State.onMu_bytes
      | with_reducible apply endAdds_bytes | with_reducible apply ite_bytes | with_reducible apply foldl_bytes
      | (with_reducible refine sendRing_bytes (by assumption) ?_) | (refine SameBytes.ofSnd (by assumption) ?_) | dsimp only | split

theorem runRing_bytes {r₀ : State} {s : State} {h : Hdr} {o : RingOp} {put_ : Bool} {u : UnitId} (h1 : SameBytes r₀ s)
    : SameBytes r₀ (runRing s h o put_ u) := by
  unfold runRing
  repeat' first
    | with_reducible assumption | intro _ | with_reducible apply countLost_bytes | with_reducible apply sendRings_bytes | with_reducible apply checkRead_bytes
    | with_reducible apply complete_bytes | with_reducible apply waitFor_bytes | with_reducible apply ite_bytes
    | with_reducible apply ite_bytes_snd | with_reducible apply foldl_bytes | with_reducible apply foldl_bytes_snd
    | (refine SameBytes.ofSnd (by assumption) ?_) | dsimp only | split

theorem execRgGet_bytes {r₀ : State} {h : Hdr} {op : RingOp} {s : State} {t₀} (e₀ : execRgGet h op s = .next t₀)
    (h3 : SameBytes r₀ s) : SameBytes r₀ t₀ := by
  unfold execRgGet at e₀
  repeat' first | contradiction | (injection e₀ with e₀; subst e₀) | dsimp only at e₀ | (split at e₀)
  repeat' first
    | with_reducible assumption | intro _ | with_reducible apply sendRings_bytes | with_reducible apply runRing_bytes
    | with_reducible apply runDesc_bytes | with_reducible apply ite_bytes | with_reducible apply foldl_bytes
    | (refine SameBytes.ofSnd (by assumption) ?_) | dsimp only | split

theorem execRgPut_bytes {r₀ : State} {h : Hdr} {op : RingOp} {s : State} {t₀} (e₀ : execRgPut h op s = .next t₀)
    (h3 : SameBytes r₀ s) : SameBytes r₀ t₀ := by
  unfold execRgPut at e₀
  repeat' first | contradiction | (injection e₀ with e₀; subst e₀) | dsimp only at e₀ | (split at e₀)
  repeat' first
    | with_reducible assumption | intro _ | with_reducible apply sendRings_bytes | with_reducible apply runRing_bytes
    | with_reducible apply runDesc_bytes | with_reducible apply ite_bytes | with_reducible apply foldl_bytes
    | (refine SameBytes.ofSnd (by assumption) ?_) | dsimp only | split

theorem respond_bytes {r₀ : State} {s : State} {f : Flit} {panel da mark : Nat} {bs : List Byte} (h1 : SameBytes r₀ s)
    : SameBytes r₀ (respond s f panel da mark bs) := by
  unfold respond
  repeat' first
    | with_reducible assumption | intro _ | with_reducible apply sendFlit_bytes | with_reducible apply ite_bytes
    | with_reducible apply foldl_bytes | (refine SameBytes.ofSnd (by assumption) ?_) | dsimp only | split

theorem respondData_bytes {r₀ : State} {s : State} {f : Flit} {panel : Nat} {bs : List Byte} (h1 : SameBytes r₀ s)
    : SameBytes r₀ (respondData s f panel bs) := by
  unfold respondData
  repeat' first
    | with_reducible assumption | intro _ | with_reducible apply respond_bytes | with_reducible apply ite_bytes
    | with_reducible apply foldl_bytes | (refine SameBytes.ofSnd (by assumption) ?_) | dsimp only | split

theorem readMemory_bytes {r₀ : State} {s : State} {f : Flit} {a n : Nat} (h1 : SameBytes r₀ s)
    : SameBytes r₀ (readMemory s f a n).2 := by
  unfold readMemory
  repeat' first
    | with_reducible assumption | intro _ | with_reducible apply respondData_bytes | with_reducible apply respond_bytes
    | with_reducible apply checkRead_bytes | with_reducible apply ite_bytes | with_reducible apply ite_bytes_snd
    | with_reducible apply foldl_bytes | with_reducible apply foldl_bytes_snd | (refine SameBytes.ofSnd (by assumption) ?_) | dsimp only
    | split

theorem readRow_bytes {r₀ : State} {s : State} {f : Flit} {k t row a n : Nat} (h1 : SameBytes r₀ s)
    : SameBytes r₀ (readRow s f k t row a n) := by
  unfold readRow
  repeat' first
    | with_reducible assumption | intro _ | with_reducible apply survey_bytes | with_reducible apply markPoisoned_bytes
    | with_reducible apply sendFlit_bytes | with_reducible apply respond_bytes | with_reducible apply readMemory_bytes
    | with_reducible apply noteFwd_bytes | with_reducible apply hotAdd_bytes | with_reducible apply ite_bytes
    | with_reducible apply ite_bytes_snd | with_reducible apply foldl_bytes | with_reducible apply foldl_bytes_snd
    | (refine SameBytes.ofSnd (by assumption) ?_) | dsimp only | split

theorem readForwarded_bytes {r₀ : State} {s : State} {f : Flit} {owner n : Nat} (h1 : SameBytes r₀ s)
    : SameBytes r₀ (readForwarded s f owner n) := by
  unfold readForwarded
  repeat' first
    | with_reducible assumption | intro _ | with_reducible apply bump_bytes | with_reducible apply markPoisoned_bytes
    | with_reducible apply readMemory_bytes | with_reducible apply refuse_bytes | with_reducible apply ite_bytes
    | with_reducible apply ite_bytes_snd | with_reducible apply foldl_bytes | with_reducible apply foldl_bytes_snd
    | (refine SameBytes.ofSnd (by assumption) ?_) | dsimp only | split

theorem serveRead_bytes {r₀ : State} {s : State} {f : Flit} {via : Option Nat} (h1 : SameBytes r₀ s)
    : SameBytes r₀ (serveRead s f via) := by
  unfold serveRead
  repeat' first
    | with_reducible assumption | intro _ | with_reducible apply respondData_bytes | with_reducible apply leaveGauze_bytes
    | with_reducible apply readRow_bytes | with_reducible apply readSlot_bytes | with_reducible apply respond_bytes
    | with_reducible apply readMemory_bytes | with_reducible apply refuse_bytes | with_reducible apply readForwarded_bytes
    | with_reducible apply ite_bytes | with_reducible apply ite_bytes_snd | with_reducible apply foldl_bytes
    | with_reducible apply foldl_bytes_snd | (refine SameBytes.ofSnd (by assumption) ?_) | dsimp only | split

theorem serveRegRead_bytes {r₀ : State} {s : State} {f : Flit} (h1 : SameBytes r₀ s) : SameBytes r₀ (serveRegRead s f) := by
  unfold serveRegRead
  repeat' first
    | with_reducible assumption | intro _ | with_reducible apply sendFlit_bytes | with_reducible apply ite_bytes
    | with_reducible apply foldl_bytes | (refine SameBytes.ofSnd (by assumption) ?_) | dsimp only | split

theorem execRead_bytes {r₀ : State} {f : Flit} {s : State} {t₀} (e₀ : execRead f s = .next t₀) (h2 : SameBytes r₀ s)
    : SameBytes r₀ t₀ := by
  unfold execRead at e₀
  repeat' first | contradiction | (injection e₀ with e₀; subst e₀) | dsimp only at e₀ | (split at e₀)
  repeat' first
    | with_reducible assumption | intro _ | with_reducible apply arrive_bytes | with_reducible apply serveRead_bytes
    | with_reducible apply serveRegRead_bytes | with_reducible apply ite_bytes | with_reducible apply ite_bytes_snd
    | with_reducible apply foldl_bytes | with_reducible apply foldl_bytes_snd | (refine SameBytes.ofSnd (by assumption) ?_) | dsimp only
    | split

theorem badAccess_bytes {r₀ : State} {s : State} (h1 : SameBytes r₀ s) : SameBytes r₀ (badAccess s) := by
  unfold badAccess
  repeat' first
    | with_reducible assumption | intro _ | with_reducible apply bump_bytes | with_reducible apply ite_bytes
    | with_reducible apply foldl_bytes | (refine SameBytes.ofSnd (by assumption) ?_) | dsimp only | split

theorem hostReply_bytes {r₀ : State} {s : State} {bs : List Byte} {poison : Bool} (h1 : SameBytes r₀ s)
    : SameBytes r₀ (hostReply s bs poison) := by
  unfold hostReply
  repeat' first
    | with_reducible assumption | intro _ | with_reducible apply State.onHost_bytes | with_reducible apply ite_bytes
    | with_reducible apply foldl_bytes | (refine SameBytes.ofSnd (by assumption) ?_) | dsimp only | split

theorem hostReadDa_bytes {r₀ : State} {s : State} {da n : Nat} (h1 : SameBytes r₀ s) : SameBytes r₀ (hostReadDa s da n) := by
  unfold hostReadDa
  repeat' first
    | with_reducible assumption | intro _ | with_reducible apply State.took_bytes | with_reducible apply checkRead_bytes
    | with_reducible apply badAccess_bytes | with_reducible apply hostReply_bytes | with_reducible apply ite_bytes
    | with_reducible apply ite_bytes_snd | with_reducible apply foldl_bytes | with_reducible apply foldl_bytes_snd
    | (refine SameBytes.ofSnd (by assumption) ?_) | dsimp only | split

theorem coreAnswer_bytes {r₀ : State} {s : State} {core : Nat} {bs : List Byte} {fault : Bool} (h1 : SameBytes r₀ s)
    : SameBytes r₀ (coreAnswer s core bs fault) := by
  unfold coreAnswer
  repeat' first
    | with_reducible assumption | intro _ | with_reducible apply State.onCores_bytes | with_reducible apply ite_bytes
    | with_reducible apply foldl_bytes | (refine SameBytes.ofSnd (by assumption) ?_) | dsimp only | split

theorem execCoreLoad_bytes {r₀ : State} {core : Nat} {agent : Agent} {da len : Nat} {s : State} {t₀}
    (e₀ : execCoreLoad core agent da len s = .next t₀) (h5 : SameBytes r₀ s) : SameBytes r₀ t₀ := by
  unfold execCoreLoad at e₀
  repeat' first | contradiction | (injection e₀ with e₀; subst e₀) | dsimp only at e₀ | (split at e₀)
  repeat' first
    | with_reducible assumption | intro _ | with_reducible apply State.took_bytes | with_reducible apply checkRead_bytes
    | with_reducible apply coreAnswer_bytes | with_reducible apply ite_bytes | with_reducible apply ite_bytes_snd
    | with_reducible apply foldl_bytes | with_reducible apply foldl_bytes_snd | (refine SameBytes.ofSnd (by assumption) ?_) | dsimp only
    | split

theorem execHostRead_bytes {r₀ : State} {bar : Bool} {addr len : Nat} {s : State} {t₀}
    (e₀ : execHostRead bar addr len s = .next t₀) (h4 : SameBytes r₀ s) : SameBytes r₀ t₀ := by
  unfold execHostRead at e₀
  repeat' first | contradiction | (injection e₀ with e₀; subst e₀) | dsimp only at e₀ | (split at e₀)
  repeat' first
    | with_reducible assumption | intro _ | with_reducible apply State.onHost_bytes | with_reducible apply State.took_bytes
    | with_reducible apply badAccess_bytes | with_reducible apply hostReadDa_bytes | with_reducible apply hostReply_bytes
    | with_reducible apply ite_bytes | with_reducible apply foldl_bytes | (refine SameBytes.ofSnd (by assumption) ?_) | dsimp only
    | split

end Sys2Proof.Machine
end

