-- ==== Sys2Proof/Laws/Kept.lean ====
section
/-!
SUPPORT. What the operations of the block keep, said once: Kept c r s says that state s, reached from r, has the same queue of waiting
commands, keeps the canonical form of the tables, and, unless c (a cold reset), keeps the straps and a LOCKED Selvage.
The other files of this folder show it of every operation and every meaning.
-/

set_option linter.all false

namespace Sys2Proof.Machine

open Sys2Proof

/-- What s keeps of r. -/
structure Kept (c : Bool) (r s : State) : Prop where
  pending : s.pending = r.pending
  tables  : TablesOk r → TablesOk s
  straps  : c = false → s.pkg.variant = r.pkg.variant ∧ s.pkg.pairId = r.pkg.pairId
  locked  : c = false → r.sv.locked = true → s.sv.locked = true

variable {c : Bool} {r s : State}

theorem Kept.refl (c : Bool) (r : State) : Kept c r r := ⟨rfl, id, fun _ => ⟨rfl, rfl⟩, fun _ h => h⟩

/-- A state that agrees with s on all that Kept names is kept too. -/
theorem Kept.same {t : State} (k : Kept c r s) (hp : t.pending = s.pending) (hm : t.mem = s.mem) (hr : t.regs = s.regs)
    (hk : t.pkg = s.pkg) (hl : t.sv = s.sv) : Kept c r t :=
  ⟨hp.trans k.pending, fun h => ⟨hm ▸ (k.tables h).cells, hm ▸ (k.tables h).poison, hm ▸ (k.tables h).latent, hr ▸ (k.tables h).regs⟩,
   fun h => hk ▸ k.straps h, fun h => hl ▸ k.locked h⟩

theorem State.onFree_kept {f} (k : Kept c r s) : Kept c r (s.onFree f) := k.same rfl rfl rfl rfl rfl
theorem State.onGz_kept {f} (k : Kept c r s) : Kept c r (s.onGz f) := k.same rfl rfl rfl rfl rfl
theorem State.onCk_kept {f} (k : Kept c r s) : Kept c r (s.onCk f) := k.same rfl rfl rfl rfl rfl
theorem State.onTw_kept {f} (k : Kept c r s) : Kept c r (s.onTw f) := k.same rfl rfl rfl rfl rfl
theorem State.onMu_kept {f} (k : Kept c r s) : Kept c r (s.onMu f) := k.same rfl rfl rfl rfl rfl
theorem State.onStreams_kept {f} (k : Kept c r s) : Kept c r (s.onStreams f) := k.same rfl rfl rfl rfl rfl
theorem State.onQm_kept {f} (k : Kept c r s) : Kept c r (s.onQm f) := k.same rfl rfl rfl rfl rfl
theorem State.onSeq_kept {f} (k : Kept c r s) : Kept c r (s.onSeq f) := k.same rfl rfl rfl rfl rfl
theorem State.onImg_kept {f} (k : Kept c r s) : Kept c r (s.onImg f) := k.same rfl rfl rfl rfl rfl
theorem State.onRings_kept {f} (k : Kept c r s) : Kept c r (s.onRings f) := k.same rfl rfl rfl rfl rfl
theorem State.onTwin_kept {f} (k : Kept c r s) : Kept c r (s.onTwin f) := k.same rfl rfl rfl rfl rfl
theorem State.onSnap_kept {f} (k : Kept c r s) : Kept c r (s.onSnap f) := k.same rfl rfl rfl rfl rfl
theorem State.onSec_kept {f} (k : Kept c r s) : Kept c r (s.onSec f) := k.same rfl rfl rfl rfl rfl
theorem State.onCt_kept {f} (k : Kept c r s) : Kept c r (s.onCt f) := k.same rfl rfl rfl rfl rfl
theorem State.onHost_kept {f} (k : Kept c r s) : Kept c r (s.onHost f) := k.same rfl rfl rfl rfl rfl
theorem State.onI3c_kept {f} (k : Kept c r s) : Kept c r (s.onI3c f) := k.same rfl rfl rfl rfl rfl
theorem State.onSounds_kept {f} (k : Kept c r s) : Kept c r (s.onSounds f) := k.same rfl rfl rfl rfl rfl
theorem State.onSeqNo_kept {f} (k : Kept c r s) : Kept c r (s.onSeqNo f) := k.same rfl rfl rfl rfl rfl
theorem State.onCores_kept {f} (k : Kept c r s) : Kept c r (s.onCores f) := k.same rfl rfl rfl rfl rfl

/-- The package changes and its straps do not. -/
theorem State.onPkg_kept {f : Pkg → Pkg} (k : Kept c r s)
    (hf : ∀ p, (f p).variant = p.variant ∧ (f p).pairId = p.pairId := by intro p; exact ⟨rfl, rfl⟩) : Kept c r (s.onPkg f) :=
  ⟨k.pending, fun h => ⟨(k.tables h).cells, (k.tables h).poison, (k.tables h).latent, (k.tables h).regs⟩,
   fun h => ⟨(hf _).1.trans (k.straps h).1, (hf _).2.trans (k.straps h).2⟩, k.locked⟩

/-- Selvage changes and a LOCKED one stays locked. -/
theorem State.onSv_kept {f : Selvage → Selvage} (k : Kept c r s) (hf : ∀ v, v.locked = true → (f v).locked = true) :
    Kept c r (s.onSv f) :=
  ⟨k.pending, fun h => ⟨(k.tables h).cells, (k.tables h).poison, (k.tables h).latent, (k.tables h).regs⟩,
   k.straps, fun h hr => hf _ (k.locked h hr)⟩

/-- Memory changes and its tables keep their form. -/
theorem State.onMem_kept {f : Mem → Mem} (k : Kept c r s) (hc : ∀ m, Memory.wf m.cells = true → Memory.wf (f m).cells = true)
    (hp : ∀ m, m.poison.Pairwise (· < ·) → (f m).poison.Pairwise (· < ·))
    (hl : ∀ m, rising none m.latent = true → rising none (f m).latent = true) : Kept c r (s.onMem f) :=
  ⟨k.pending, fun h => ⟨hc _ (k.tables h).cells, hp _ (k.tables h).poison, hl _ (k.tables h).latent, (k.tables h).regs⟩,
   k.straps, k.locked⟩

/-- Registers change and their keys stay rising. -/
theorem State.onRegs_kept {f : FMap Nat → FMap Nat} (k : Kept c r s) (hf : ∀ m, rising none m = true → rising none (f m) = true) :
    Kept c r (s.onRegs f) :=
  ⟨k.pending, fun h => ⟨(k.tables h).cells, (k.tables h).poison, (k.tables h).latent, hf _ (k.tables h).regs⟩, k.straps, k.locked⟩

/-- After a cold reset only the queue and the tables are claimed. -/
theorem Kept.cold {t : State} (k : Kept true r s) (hp : t.pending = s.pending) (ht : TablesOk s → TablesOk t) : Kept true r t :=
  ⟨hp.trans k.pending, fun h => ht (k.tables h), fun h => Bool.noConfusion h, fun h => Bool.noConfusion h⟩

/-- What comes as the second of a pair. -/
theorem Kept.ofSnd {α : Type} {p : α × State} {a : α} (e : p = (a, s)) (k : Kept c r p.2) : Kept c r s := by subst e; exact k
theorem Kept.ofFst {α : Type} {p : State × α} {a : α} (e : p = (s, a)) (k : Kept c r p.1) : Kept c r s := by subst e; exact k

/-- Either branch keeps. -/
theorem ite_kept {p : Prop} [Decidable p] {t : State} (h : Kept c r s) (g : Kept c r t) : Kept c r (if p then s else t) := by
  split
  · exact h
  · exact g

theorem ite_kept_snd {α : Type} {p : Prop} [Decidable p] {x y : α × State} (h : Kept c r x.2) (g : Kept c r y.2) :
    Kept c r (if p then x else y).2 := by
  split
  · exact h
  · exact g

/-- What an option holds, or something else. -/
theorem getD_kept {α : Type} {o : Option (α × State)} {d : α × State} (h : ∀ x, o = some x → Kept c r x.2) (k : Kept c r d.2) : Kept c r (o.getD d).2 := by
  cases o with
  | none => exact k
  | some x => exact h x rfl

/-- A fold whose every round keeps. -/
theorem foldl_kept {α : Type} {f : State → α → State} {l : List α} (k : Kept c r s)
    (hf : ∀ s x, Kept c r s → Kept c r (f s x)) : Kept c r (l.foldl f s) := by
  induction l generalizing s with
  | nil => exact k
  | cons x l ih => exact ih (hf _ _ k)

/-- A fold whose every round keeps the state it carries. -/
theorem foldl_kept_of {α β : Type} (p : β → State) {f : β → α → β} {l : List α} {b : β} (k : Kept c r (p b))
    (hf : ∀ b x, Kept c r (p b) → Kept c r (p (f b x))) : Kept c r (p (l.foldl f b)) := by
  induction l generalizing b with
  | nil => exact k
  | cons x l ih => exact ih (hf _ _ k)

/-- A fold that may stop keeps where it ends. -/
theorem foldl_bind_kept {α : Type} {f : State → α → Option State} {l : List α} {t : State}
    (e : l.foldl (fun o x => o.bind fun s => f s x) (some s) = some t) (k : Kept c r s)
    (hf : ∀ s x t, f s x = some t → Kept c r s → Kept c r t) : Kept c r t := by
  induction l generalizing s with
  | nil => cases e; exact k
  | cons x l ih =>
    simp only [List.foldl_cons, Option.bind_some] at e
    cases h : f s x with
    | none =>
      rw [h] at e
      have : ∀ l : List α, l.foldl (fun o x => o.bind fun s => f s x) none = none := by
        intro l; induction l with
        | nil => rfl
        | cons y l ih => exact ih
      rw [this] at e; cases e
    | some u => rw [h] at e; exact ih e (hf _ _ _ h k)

/-- A fold over pairs whose every round keeps the second, or the first. -/
theorem foldl_kept_snd {α β : Type} {f : β × State → α → β × State} {l : List α} {b : β} (k : Kept c r s)
    (hf : ∀ p x, Kept c r p.2 → Kept c r (f p x).2) : Kept c r (l.foldl f (b, s)).2 :=
  foldl_kept_of Prod.snd k hf

theorem foldl_kept_fst {α β : Type} {f : State × β → α → State × β} {l : List α} {b : β} (k : Kept c r s)
    (hf : ∀ p x, Kept c r p.1 → Kept c r (f p x).1) : Kept c r (l.foldl f (s, b)).1 :=
  foldl_kept_of Prod.fst k hf

end Sys2Proof.Machine
end

