-- ==== Sys2Proof/Laws/KeptOps.lean ====
section
/-!
SUPPORT. What the definitions of Machine/Ops.lean keep (Laws/Kept.lean).
-/

set_option linter.all false

namespace Sys2Proof.Machine

open Sys2Proof

theorem clearPoison_kept {r₀ : State} {c₀ : Bool} {s : State} {a n : Nat} (h1 : Kept c₀ r₀ s) : Kept c₀ r₀ (clearPoison s a n) := by
  unfold clearPoison
  repeat' first
    | with_reducible assumption | intro _
    | (with_reducible refine State.onMem_kept ?_ (fun _ h => ?_) (fun _ h => ?_) (fun _ h => ?_)) | exact writeCells_wf _ _ _ h
    | with_reducible apply insAll_rising | with_reducible apply ins_rising | with_reducible apply List.Pairwise.filter
    | with_reducible apply keep_wf | with_reducible apply keep_rising | with_reducible apply del_rising
    | with_reducible apply put_rising | with_reducible apply ite_kept | with_reducible apply foldl_kept
    | (refine Kept.ofSnd (by assumption) ?_) | dsimp only | split

theorem returnCredits_kept {r₀ : State} {c₀ : Bool} {s : State} {d p tc n : Nat} (h1 : Kept c₀ r₀ s)
    : Kept c₀ r₀ (returnCredits s d p tc n) := by
  unfold returnCredits
  repeat' first
    | with_reducible assumption | intro _ | with_reducible apply State.onGz_kept | with_reducible apply ite_kept
    | with_reducible apply foldl_kept | (refine Kept.ofSnd (by assumption) ?_) | dsimp only | split

theorem passLink_kept {r₀ : State} {c₀ : Bool} {s : State} {d p : Nat} {f : Flit} (h1 : Kept c₀ r₀ s)
    : Kept c₀ r₀ (passLink s d p f) := by
  unfold passLink
  repeat' first
    | with_reducible assumption | intro _ | with_reducible apply returnCredits_kept | with_reducible apply State.onGz_kept
    | with_reducible apply ite_kept | with_reducible apply foldl_kept | (refine Kept.ofSnd (by assumption) ?_) | dsimp only
    | split

theorem spendCredit_kept {r₀ : State} {c₀ : Bool} {s : State} {d p tc : Nat} (h1 : Kept c₀ r₀ s)
    : Kept c₀ r₀ (spendCredit s d p tc) := by
  unfold spendCredit
  repeat' first
    | with_reducible assumption | intro _ | with_reducible apply State.onGz_kept | with_reducible apply ite_kept
    | with_reducible apply foldl_kept | (refine Kept.ofSnd (by assumption) ?_) | dsimp only | split

theorem crossLink_kept {r₀ : State} {c₀ : Bool} {s : State} {d p : Nat} {f : Flit} (h1 : Kept c₀ r₀ s)
    : Kept c₀ r₀ (crossLink s d p f) := by
  unfold crossLink
  repeat' first
    | with_reducible assumption | intro _ | with_reducible apply passLink_kept | with_reducible apply spendCredit_kept
    | with_reducible apply ite_kept | with_reducible apply foldl_kept | (refine Kept.ofSnd (by assumption) ?_) | dsimp only
    | split

theorem replicate_kept {r₀ : State} {c₀ : Bool} {f : Flit} {a1 a2 : Nat} {a3 : State} (h4 : Kept c₀ r₀ a3)
    : Kept c₀ r₀ (replicate f a1 a2 a3).2.1 := by
  induction a1 generalizing a2 a3 with
  | zero =>
    unfold replicate
    repeat' first
      | with_reducible assumption | intro _ | (with_reducible refine foldl_kept_of (fun x : List Nat × State × Bool => x.2.1) ?_ ?_)
      | with_reducible apply crossLink_kept | with_reducible apply ite_kept | with_reducible apply ite_kept_snd
      | with_reducible apply foldl_kept | with_reducible apply foldl_kept_snd | with_reducible apply foldl_kept_fst
      | (refine Kept.ofSnd (by assumption) ?_) | dsimp only | split
  | succ _ ih =>
    unfold replicate
    repeat' first
      | with_reducible assumption | intro _ | with_reducible apply ih
      | (with_reducible refine foldl_kept_of (fun x : List Nat × State × Bool => x.2.1) ?_ ?_) | with_reducible apply crossLink_kept
      | with_reducible apply ite_kept | with_reducible apply ite_kept_snd | with_reducible apply foldl_kept
      | with_reducible apply foldl_kept_snd | with_reducible apply foldl_kept_fst | (refine Kept.ofSnd (by assumption) ?_)
      | dsimp only | split

theorem issue_kept {r₀ : State} {c₀ : Bool} {s : State} {h : Hdr} {u : UnitId} {st elapsed : Nat} (h1 : Kept c₀ r₀ s)
    : Kept c₀ r₀ (issue s h u st elapsed) := by
  unfold issue
  repeat' first
    | with_reducible assumption | intro _ | with_reducible apply State.onQm_kept | with_reducible apply ite_kept
    | with_reducible apply foldl_kept | (refine Kept.ofSnd (by assumption) ?_) | dsimp only | split

theorem discardHeld_kept {r₀ : State} {c₀ : Bool} {s : State} {d p : Nat} (h1 : Kept c₀ r₀ s) : Kept c₀ r₀ (discardHeld s d p) := by
  unfold discardHeld
  repeat' first
    | with_reducible assumption | intro _ | with_reducible apply State.onGz_kept | with_reducible apply ite_kept
    | with_reducible apply foldl_kept | (refine Kept.ofSnd (by assumption) ?_) | dsimp only | split

theorem countBg_kept {r₀ : State} {c₀ : Bool} {s : State} {d p : Nat} {f : Flit} (h1 : Kept c₀ r₀ s)
    : Kept c₀ r₀ (countBg s d p f) := by
  unfold countBg
  repeat' first
    | with_reducible assumption | intro _ | with_reducible apply State.onGz_kept | with_reducible apply ite_kept
    | with_reducible apply foldl_kept | (refine Kept.ofSnd (by assumption) ?_) | dsimp only | split

theorem takeFlit_kept {r₀ : State} {c₀ : Bool} {s : State} {f : Flit} (h1 : Kept c₀ r₀ s) : Kept c₀ r₀ (takeFlit s f) := by
  unfold takeFlit
  repeat' first
    | with_reducible assumption | intro _ | with_reducible apply State.onGz_kept | with_reducible apply ite_kept
    | with_reducible apply foldl_kept | (refine Kept.ofSnd (by assumption) ?_) | dsimp only | split

theorem emitSounding_kept {r₀ : State} {c₀ : Bool} {s : State} {die unit kind : Nat} {body : List Nat} (h1 : Kept c₀ r₀ s)
    : Kept c₀ r₀ (emitSounding s die unit kind body) := by
  unfold emitSounding
  repeat' first
    | with_reducible assumption | intro _ | with_reducible apply State.onSounds_kept | with_reducible apply State.onSeqNo_kept
    | with_reducible apply ite_kept | with_reducible apply foldl_kept | (refine Kept.ofSnd (by assumption) ?_) | dsimp only
    | split

theorem regSet_kept {r₀ : State} {c₀ : Bool} {s : State} {die off v sel : Nat} (h1 : Kept c₀ r₀ s)
    : Kept c₀ r₀ (regSet s die off v sel) := by
  unfold regSet
  repeat' first
    | with_reducible assumption | intro _ | (with_reducible refine State.onRegs_kept ?_ (fun _ h => ?_))
    | with_reducible apply keep_wf | with_reducible apply keep_rising | with_reducible apply del_rising
    | with_reducible apply put_rising | with_reducible apply ite_kept | with_reducible apply foldl_kept
    | (refine Kept.ofSnd (by assumption) ?_) | dsimp only | split

theorem bumpBy_kept {r₀ : State} {c₀ : Bool} {s : State} {die off n sel : Nat} (h1 : Kept c₀ r₀ s)
    : Kept c₀ r₀ (bumpBy s die off n sel) := by
  unfold bumpBy
  repeat' first
    | with_reducible assumption | intro _ | with_reducible apply emitSounding_kept | with_reducible apply regSet_kept
    | with_reducible apply ite_kept | with_reducible apply foldl_kept | (refine Kept.ofSnd (by assumption) ?_) | dsimp only
    | split

theorem bump_kept {r₀ : State} {c₀ : Bool} {s : State} {die off sel : Nat} (h1 : Kept c₀ r₀ s)
    : Kept c₀ r₀ (bump s die off sel) := by
  unfold bump
  repeat' first
    | with_reducible assumption | intro _ | with_reducible apply bumpBy_kept | with_reducible apply ite_kept
    | with_reducible apply foldl_kept | (refine Kept.ofSnd (by assumption) ?_) | dsimp only | split

theorem sendFlit_kept {r₀ : State} {c₀ : Bool} {s : State} {f : Flit} (h1 : Kept c₀ r₀ s) : Kept c₀ r₀ (sendFlit s f) := by
  unfold sendFlit
  repeat' first
    | with_reducible assumption | intro _ | with_reducible apply State.onGz_kept | with_reducible apply ite_kept
    | with_reducible apply foldl_kept | (refine Kept.ofSnd (by assumption) ?_) | dsimp only | split

theorem refuse_kept {r₀ : State} {c₀ : Bool} {s : State} {f : Flit} {st : Nat} (h1 : Kept c₀ r₀ s)
    : Kept c₀ r₀ (refuse s f st) := by
  unfold refuse
  repeat' first
    | with_reducible assumption | intro _ | with_reducible apply sendFlit_kept | with_reducible apply ite_kept
    | with_reducible apply foldl_kept | (refine Kept.ofSnd (by assumption) ?_) | dsimp only | split

theorem badFlit_kept {r₀ : State} {c₀ : Bool} {s : State} {f : Flit} (h1 : Kept c₀ r₀ s) : Kept c₀ r₀ (badFlit s f) := by
  unfold badFlit
  repeat' first
    | with_reducible assumption | intro _ | with_reducible apply bump_kept | with_reducible apply refuse_kept
    | with_reducible apply ite_kept | with_reducible apply foldl_kept | (refine Kept.ofSnd (by assumption) ?_) | dsimp only
    | split

theorem delivered_kept {r₀ : State} {c₀ : Bool} {s : State} {f : Flit} (h1 : Kept c₀ r₀ s) : Kept c₀ r₀ (delivered s f).2 := by
  unfold delivered
  repeat' first
    | with_reducible assumption | intro _ | with_reducible apply badFlit_kept | with_reducible apply ite_kept
    | with_reducible apply ite_kept_snd | with_reducible apply foldl_kept | with_reducible apply foldl_kept_snd
    | (refine Kept.ofSnd (by assumption) ?_) | dsimp only | split

theorem keepFlit_kept {r₀ : State} {c₀ : Bool} {s : State} {f : Flit} (h1 : Kept c₀ r₀ s) : Kept c₀ r₀ (keepFlit s f) := by
  unfold keepFlit
  repeat' first
    | with_reducible assumption | intro _ | with_reducible apply sendFlit_kept | with_reducible apply ite_kept
    | with_reducible apply foldl_kept | (refine Kept.ofSnd (by assumption) ?_) | dsimp only | split

theorem arriveMulti_kept {r₀ : State} {c₀ : Bool} {s : State} {f : Flit} (h1 : Kept c₀ r₀ s) : Kept c₀ r₀ (arriveMulti s f).2 := by
  unfold arriveMulti
  repeat' first
    | with_reducible assumption | intro _ | with_reducible apply countBg_kept | with_reducible apply takeFlit_kept
    | with_reducible apply delivered_kept | with_reducible apply keepFlit_kept | with_reducible apply replicate_kept
    | with_reducible apply ite_kept | with_reducible apply ite_kept_snd | with_reducible apply foldl_kept
    | with_reducible apply foldl_kept_snd | with_reducible apply foldl_kept_fst | (refine Kept.ofSnd (by assumption) ?_)
    | dsimp only | split

theorem setActs_kept {r₀ : State} {c₀ : Bool} {s : State} {b n : Nat} (h1 : Kept c₀ r₀ s) : Kept c₀ r₀ (setActs s b n) := by
  unfold setActs
  repeat' first
    | with_reducible assumption | intro _ | with_reducible apply State.onMu_kept | with_reducible apply ite_kept
    | with_reducible apply foldl_kept | (refine Kept.ofSnd (by assumption) ?_) | dsimp only | split

theorem touch_kept {r₀ : State} {c₀ : Bool} {s : State} {a : Nat} (h1 : Kept c₀ r₀ s) : Kept c₀ r₀ (touch s a) := by
  unfold touch
  repeat' first
    | with_reducible assumption | intro _ | with_reducible apply State.onMu_kept | with_reducible apply setActs_kept
    | with_reducible apply bump_kept | with_reducible apply ite_kept | with_reducible apply foldl_kept
    | (refine Kept.ofSnd (by assumption) ?_) | dsimp only | split

theorem raiseIbi_kept {r₀ : State} {c₀ : Bool} {s : State} {b : Nat} (h1 : Kept c₀ r₀ s) : Kept c₀ r₀ (raiseIbi s b) := by
  unfold raiseIbi
  repeat' first
    | with_reducible assumption | intro _ | with_reducible apply State.onI3c_kept | with_reducible apply ite_kept
    | with_reducible apply foldl_kept | (refine Kept.ofSnd (by assumption) ?_) | dsimp only | split

theorem setSticky_kept {r₀ : State} {c₀ : Bool} {s : State} {src : Nat} (h1 : Kept c₀ r₀ s) : Kept c₀ r₀ (setSticky s src) := by
  unfold setSticky
  repeat' first
    | with_reducible assumption | intro _ | with_reducible apply raiseIbi_kept
    | (with_reducible refine State.onSv_kept ?_ (fun _ h => h)) | with_reducible apply ite_kept | with_reducible apply foldl_kept
    | (refine Kept.ofSnd (by assumption) ?_) | dsimp only | split

theorem readSector_kept {r₀ : State} {c₀ : Bool} {s : State} {i : Nat} (h1 : Kept c₀ r₀ s) : Kept c₀ r₀ (readSector s i).2 := by
  unfold readSector
  repeat' first
    | with_reducible assumption | intro _ | with_reducible apply bump_kept | with_reducible apply touch_kept
    | with_reducible apply setSticky_kept
    | (with_reducible refine State.onMem_kept ?_ (fun _ h => ?_) (fun _ h => ?_) (fun _ h => ?_)) | exact writeCells_wf _ _ _ h
    | with_reducible apply insAll_rising | with_reducible apply ins_rising | with_reducible apply List.Pairwise.filter
    | with_reducible apply keep_wf | with_reducible apply keep_rising | with_reducible apply del_rising
    | with_reducible apply put_rising | with_reducible apply ite_kept | with_reducible apply ite_kept_snd
    | with_reducible apply foldl_kept | with_reducible apply foldl_kept_snd | (refine Kept.ofSnd (by assumption) ?_) | dsimp only
    | split

theorem readSectors_kept {r₀ : State} {c₀ : Bool} {s : State} {a1 : List Nat} (h1 : Kept c₀ r₀ s)
    : Kept c₀ r₀ (readSectors s a1).2 := by
  induction a1 generalizing s with
  | nil =>
    unfold readSectors
    repeat' first
      | with_reducible assumption | intro _ | with_reducible apply readSector_kept | with_reducible apply ite_kept
      | with_reducible apply ite_kept_snd | with_reducible apply foldl_kept | with_reducible apply foldl_kept_snd
      | (refine Kept.ofSnd (by assumption) ?_) | dsimp only | split
  | cons _ _ ih =>
    unfold readSectors
    repeat' first
      | with_reducible assumption | intro _ | with_reducible apply ih | with_reducible apply readSector_kept
      | with_reducible apply ite_kept | with_reducible apply ite_kept_snd | with_reducible apply foldl_kept
      | with_reducible apply foldl_kept_snd | (refine Kept.ofSnd (by assumption) ?_) | dsimp only | split

theorem completeIdle_kept {r₀ : State} {c₀ : Bool} {s : State} {h : Hdr} {u : UnitId} {st : Nat} (h1 : Kept c₀ r₀ s)
    : Kept c₀ r₀ (completeIdle s h u st) := by
  unfold completeIdle
  repeat' first
    | with_reducible assumption | intro _ | with_reducible apply issue_kept | with_reducible apply ite_kept
    | with_reducible apply foldl_kept | (refine Kept.ofSnd (by assumption) ?_) | dsimp only | split

theorem markStarted_kept {r₀ : State} {c₀ : Bool} {s : State} {h : Hdr} (h1 : Kept c₀ r₀ s) : Kept c₀ r₀ (markStarted s h) := by
  unfold markStarted
  repeat' first
    | with_reducible assumption | intro _ | with_reducible apply State.onQm_kept | with_reducible apply ite_kept
    | with_reducible apply foldl_kept | (refine Kept.ofSnd (by assumption) ?_) | dsimp only | split

theorem waitFor_kept {r₀ : State} {c₀ : Bool} {s : State} {w : Waiting} (h1 : Kept c₀ r₀ s) : Kept c₀ r₀ (waitFor s w) := by
  unfold waitFor
  repeat' first
    | with_reducible assumption | intro _ | with_reducible apply markStarted_kept | with_reducible apply State.onQm_kept
    | with_reducible apply ite_kept | with_reducible apply foldl_kept | (refine Kept.ofSnd (by assumption) ?_) | dsimp only
    | split

theorem State.took_kept {r₀ : State} {c₀ : Bool} {s : State} (h1 : Kept c₀ r₀ s) : Kept c₀ r₀ (State.took s) := by
  unfold State.took
  repeat' first
    | with_reducible assumption | intro _ | with_reducible apply State.onFree_kept | with_reducible apply ite_kept
    | with_reducible apply foldl_kept | (refine Kept.ofSnd (by assumption) ?_) | dsimp only | split

theorem complete_kept {r₀ : State} {c₀ : Bool} {s : State} {h : Hdr} {u : UnitId} {st : Nat} (h1 : Kept c₀ r₀ s)
    : Kept c₀ r₀ (complete s h u st) := by
  unfold complete
  repeat' first
    | with_reducible assumption | intro _ | with_reducible apply issue_kept | with_reducible apply State.took_kept
    | with_reducible apply ite_kept | with_reducible apply foldl_kept | (refine Kept.ofSnd (by assumption) ?_) | dsimp only
    | split

theorem takeAnswer_kept {r₀ : State} {c₀ : Bool} {key st : Nat} {late : Bool} {s : State} {w : Waiting} (h4 : Kept c₀ r₀ s)
    : Kept c₀ r₀ (takeAnswer key st late s w) := by
  unfold takeAnswer
  repeat' first
    | with_reducible assumption | intro _ | with_reducible apply complete_kept | with_reducible apply State.onQm_kept
    | with_reducible apply ite_kept | with_reducible apply foldl_kept | (refine Kept.ofSnd (by assumption) ?_) | dsimp only
    | split

theorem answered_kept {r₀ : State} {c₀ : Bool} {s : State} {key st : Nat} {late : Bool} (h1 : Kept c₀ r₀ s)
    : Kept c₀ r₀ (answered s key st late) := by
  unfold answered
  repeat' first
    | with_reducible assumption | intro _ | with_reducible apply takeAnswer_kept | with_reducible apply ite_kept
    | with_reducible apply foldl_kept | (refine Kept.ofSnd (by assumption) ?_) | dsimp only | split

theorem endAdds_kept {r₀ : State} {c₀ : Bool} {s : State} {h : Hdr} {st : Nat} (h1 : Kept c₀ r₀ s)
    : Kept c₀ r₀ (endAdds s h st) := by
  unfold endAdds
  repeat' first
    | with_reducible assumption | intro _ | with_reducible apply State.onMu_kept | with_reducible apply answered_kept
    | with_reducible apply ite_kept | with_reducible apply foldl_kept | (refine Kept.ofSnd (by assumption) ?_) | dsimp only
    | split

theorem legendUpdate_kept {r₀ : State} {c₀ : Bool} {s : State} (h1 : Kept c₀ r₀ s) : Kept c₀ r₀ (legendUpdate s) := by
  unfold legendUpdate
  repeat' first
    | with_reducible assumption | intro _ | (with_reducible refine State.onPkg_kept ?_ (fun _ => ⟨rfl, rfl⟩))
    | with_reducible apply ite_kept | with_reducible apply foldl_kept | (refine Kept.ofSnd (by assumption) ?_) | dsimp only
    | split

theorem setPort_kept {r₀ : State} {c₀ : Bool} {s : State} {d p st : Nat} (h1 : Kept c₀ r₀ s) : Kept c₀ r₀ (setPort s d p st) := by
  unfold setPort
  repeat' first
    | with_reducible assumption | intro _ | (with_reducible refine State.onPkg_kept ?_ (fun _ => ⟨rfl, rfl⟩))
    | with_reducible apply ite_kept | with_reducible apply foldl_kept | (refine Kept.ofSnd (by assumption) ?_) | dsimp only
    | split

theorem setLink_kept {r₀ : State} {c₀ : Bool} {s : State} {d p st : Nat} (h1 : Kept c₀ r₀ s) : Kept c₀ r₀ (setLink s d p st) := by
  unfold setLink
  repeat' first
    | with_reducible assumption | intro _ | with_reducible apply setPort_kept | with_reducible apply ite_kept
    | with_reducible apply foldl_kept | (refine Kept.ofSnd (by assumption) ?_) | dsimp only | split

theorem failPort_kept {r₀ : State} {c₀ : Bool} {s : State} {d p : Nat} (h1 : Kept c₀ r₀ s) : Kept c₀ r₀ (failPort s d p) := by
  unfold failPort
  repeat' first
    | with_reducible assumption | intro _ | with_reducible apply legendUpdate_kept | with_reducible apply setSticky_kept
    | with_reducible apply setLink_kept | with_reducible apply discardHeld_kept | with_reducible apply ite_kept
    | with_reducible apply foldl_kept | (refine Kept.ofSnd (by assumption) ?_) | dsimp only | split

theorem closeReq_kept {r₀ : State} {c₀ : Bool} {s : State} {d t : Nat} (h1 : Kept c₀ r₀ s) : Kept c₀ r₀ (closeReq s d t) := by
  unfold closeReq
  repeat' first
    | with_reducible assumption | intro _ | with_reducible apply State.onGz_kept | with_reducible apply ite_kept
    | with_reducible apply foldl_kept | (refine Kept.ofSnd (by assumption) ?_) | dsimp only | split

theorem lateAnswer_kept {r₀ : State} {c₀ : Bool} {s : State} {d t : Nat} (h1 : Kept c₀ r₀ s) : Kept c₀ r₀ (lateAnswer s d t) := by
  unfold lateAnswer
  repeat' first
    | with_reducible assumption | intro _ | with_reducible apply bump_kept | with_reducible apply State.onGz_kept
    | with_reducible apply ite_kept | with_reducible apply foldl_kept | (refine Kept.ofSnd (by assumption) ?_) | dsimp only
    | split

theorem openReq_kept {r₀ : State} {c₀ : Bool} {s : State} {r : OutReq} (h1 : Kept c₀ r₀ s) : Kept c₀ r₀ (openReq s r) := by
  unfold openReq
  repeat' first
    | with_reducible assumption | intro _ | with_reducible apply State.onGz_kept | with_reducible apply ite_kept
    | with_reducible apply foldl_kept | (refine Kept.ofSnd (by assumption) ?_) | dsimp only | split

theorem touchAll_kept {r₀ : State} {c₀ : Bool} {s : State} {l : List Nat} (h1 : Kept c₀ r₀ s) : Kept c₀ r₀ (touchAll s l) := by
  unfold touchAll
  repeat' first
    | with_reducible assumption | intro _ | with_reducible apply touch_kept | with_reducible apply ite_kept
    | with_reducible apply foldl_kept | (refine Kept.ofSnd (by assumption) ?_) | dsimp only | split

theorem storeMem_kept {r₀ : State} {c₀ : Bool} {s : State} {a : Nat} {bs : List Byte} (h1 : Kept c₀ r₀ s)
    : Kept c₀ r₀ (storeMem s a bs) := by
  unfold storeMem
  repeat' first
    | with_reducible assumption | intro _ | with_reducible apply State.onMu_kept | with_reducible apply touchAll_kept
    | (with_reducible refine State.onMem_kept ?_ (fun _ h => ?_) (fun _ h => ?_) (fun _ h => ?_)) | exact writeCells_wf _ _ _ h
    | with_reducible apply insAll_rising | with_reducible apply ins_rising | with_reducible apply List.Pairwise.filter
    | with_reducible apply keep_wf | with_reducible apply keep_rising | with_reducible apply del_rising
    | with_reducible apply put_rising | with_reducible apply ite_kept | with_reducible apply foldl_kept
    | (refine Kept.ofSnd (by assumption) ?_) | dsimp only | split

theorem overrun_kept {r₀ : State} {c₀ : Bool} {s : State} {d p : Nat} (h1 : Kept c₀ r₀ s) : Kept c₀ r₀ (overrun s d p) := by
  unfold overrun
  repeat' first
    | with_reducible assumption | intro _ | with_reducible apply bump_kept | with_reducible apply failPort_kept
    | with_reducible apply ite_kept | with_reducible apply foldl_kept | (refine Kept.ofSnd (by assumption) ?_) | dsimp only
    | split

theorem travel_kept {r₀ : State} {c₀ : Bool} {f : Flit} {a1 a2 : Nat} {a3 : State} (h4 : Kept c₀ r₀ a3)
    : Kept c₀ r₀ (travel f a1 a2 a3).2 := by
  induction a1 generalizing a2 a3 with
  | zero =>
    unfold travel
    repeat' first
      | with_reducible assumption | intro _ | with_reducible apply crossLink_kept | with_reducible apply ite_kept
      | with_reducible apply ite_kept_snd | with_reducible apply foldl_kept | with_reducible apply foldl_kept_snd
      | (refine Kept.ofSnd (by assumption) ?_) | dsimp only | split
  | succ _ ih =>
    unfold travel
    repeat' first
      | with_reducible assumption | intro _ | with_reducible apply ih | with_reducible apply crossLink_kept
      | with_reducible apply ite_kept | with_reducible apply ite_kept_snd | with_reducible apply foldl_kept
      | with_reducible apply foldl_kept_snd | (refine Kept.ofSnd (by assumption) ?_) | dsimp only | split

theorem turnAway_kept {r₀ : State} {c₀ : Bool} {s : State} {f : Flit} (h1 : Kept c₀ r₀ s) : Kept c₀ r₀ (turnAway s f) := by
  unfold turnAway
  repeat' first
    | with_reducible assumption | intro _ | with_reducible apply refuse_kept | with_reducible apply ite_kept
    | with_reducible apply foldl_kept | (refine Kept.ofSnd (by assumption) ?_) | dsimp only | split

theorem goes_kept {r₀ : State} {c₀ : Bool} {sent : Bool} {s : State} {f : Flit} {x15} (e₀ : goes sent s f = some x15)
    (h2 : Kept c₀ r₀ s) : Kept c₀ r₀ x15.2 := by
  unfold goes at e₀
  repeat' first | contradiction | (injection e₀ with e₀; subst e₀) | dsimp only at e₀ | (split at e₀)
  repeat' first
    | with_reducible assumption | intro _ | with_reducible apply countBg_kept | with_reducible apply overrun_kept
    | with_reducible apply bump_kept | with_reducible apply travel_kept | with_reducible apply turnAway_kept
    | with_reducible apply delivered_kept | with_reducible apply ite_kept | with_reducible apply ite_kept_snd
    | with_reducible apply foldl_kept | with_reducible apply foldl_kept_snd | (refine Kept.ofSnd (by assumption) ?_) | dsimp only
    | split

theorem arrive_kept {r₀ : State} {c₀ : Bool} {s : State} {f : Flit} (h1 : Kept c₀ r₀ s) : Kept c₀ r₀ (arrive s f).2 := by
  unfold arrive
  repeat' first
    | with_reducible assumption | intro _ | with_reducible apply getD_kept | with_reducible apply takeFlit_kept
    | with_reducible apply keepFlit_kept | with_reducible apply ite_kept | with_reducible apply ite_kept_snd
    | with_reducible apply foldl_kept | with_reducible apply foldl_kept_snd | (with_reducible refine goes_kept (by assumption) ?_)
    | (refine goes_kept (x15 := (_, _)) (by assumption) ?_) | (refine Kept.ofSnd (by assumption) ?_) | dsimp only | split

theorem arriveAll_kept {r₀ : State} {c₀ : Bool} {s : State} {f : Flit} (h1 : Kept c₀ r₀ s) : Kept c₀ r₀ (arriveAll s f).2 := by
  unfold arriveAll
  repeat' first
    | with_reducible assumption | intro _ | with_reducible apply arriveMulti_kept | with_reducible apply arrive_kept
    | with_reducible apply ite_kept | with_reducible apply ite_kept_snd | with_reducible apply foldl_kept
    | with_reducible apply foldl_kept_snd | (refine Kept.ofSnd (by assumption) ?_) | dsimp only | split

theorem checkRead_kept {r₀ : State} {c₀ : Bool} {s : State} {a n : Nat} (h1 : Kept c₀ r₀ s) : Kept c₀ r₀ (checkRead s a n).2 := by
  unfold checkRead
  repeat' first
    | with_reducible assumption | intro _ | with_reducible apply readSectors_kept | with_reducible apply ite_kept
    | with_reducible apply ite_kept_snd | with_reducible apply foldl_kept | with_reducible apply foldl_kept_snd
    | (refine Kept.ofSnd (by assumption) ?_) | dsimp only | split

theorem countExpiry_kept {r₀ : State} {c₀ : Bool} {s : State} {u : UnitId} {src : Nat} (h1 : Kept c₀ r₀ s)
    : Kept c₀ r₀ (countExpiry s u src) := by
  unfold countExpiry
  repeat' first
    | with_reducible assumption | intro _ | with_reducible apply bump_kept | with_reducible apply setSticky_kept
    | with_reducible apply ite_kept | with_reducible apply foldl_kept | (refine Kept.ofSnd (by assumption) ?_) | dsimp only
    | split

theorem finish_kept {r₀ : State} {c₀ : Bool} {s0 s : State} {h : Hdr} {u : UnitId} {st : Nat} (h1 : Kept c₀ r₀ s0)
    (h2 : Kept c₀ r₀ s) : Kept c₀ r₀ (finish s0 s h u st) := by
  unfold finish
  repeat' first
    | with_reducible assumption | intro _ | with_reducible apply complete_kept | with_reducible apply waitFor_kept
    | with_reducible apply ite_kept | with_reducible apply foldl_kept | (refine Kept.ofSnd (by assumption) ?_) | dsimp only
    | split

theorem endStore_kept {r₀ : State} {c₀ : Bool} {s : State} {d t : Nat} (h1 : Kept c₀ r₀ s) : Kept c₀ r₀ (endStore s d t) := by
  unfold endStore
  repeat' first
    | with_reducible assumption | intro _ | with_reducible apply State.onCores_kept | with_reducible apply ite_kept
    | with_reducible apply foldl_kept | (refine Kept.ofSnd (by assumption) ?_) | dsimp only | split

theorem postFar_kept {r₀ : State} {c₀ : Bool} {s : State} {a : Nat} {bs : List Byte} (h1 : Kept c₀ r₀ s)
    : Kept c₀ r₀ (postFar s a bs) := by
  unfold postFar
  repeat' first
    | with_reducible assumption | intro _ | with_reducible apply bump_kept | with_reducible apply setSticky_kept
    | (with_reducible refine State.onMem_kept ?_ (fun _ h => ?_) (fun _ h => ?_) (fun _ h => ?_)) | exact writeCells_wf _ _ _ h
    | with_reducible apply insAll_rising | with_reducible apply ins_rising | with_reducible apply List.Pairwise.filter
    | with_reducible apply keep_wf | with_reducible apply keep_rising | with_reducible apply del_rising
    | with_reducible apply put_rising | with_reducible apply ite_kept | with_reducible apply foldl_kept
    | (refine Kept.ofSnd (by assumption) ?_) | dsimp only | split

theorem writeMem_kept {r₀ : State} {c₀ : Bool} {s : State} {a : Nat} {bs : List Byte} (h1 : Kept c₀ r₀ s)
    : Kept c₀ r₀ (writeMem s a bs) := by
  unfold writeMem
  repeat' first
    | with_reducible assumption | intro _ | with_reducible apply postFar_kept | with_reducible apply storeMem_kept
    | with_reducible apply ite_kept | with_reducible apply foldl_kept | (refine Kept.ofSnd (by assumption) ?_) | dsimp only
    | split

theorem poisonSectors_kept {r₀ : State} {c₀ : Bool} {s : State} {l : List Nat} (h1 : Kept c₀ r₀ s)
    : Kept c₀ r₀ (poisonSectors s l) := by
  unfold poisonSectors
  repeat' first
    | with_reducible assumption | intro _
    | (with_reducible refine State.onMem_kept ?_ (fun _ h => ?_) (fun _ h => ?_) (fun _ h => ?_)) | exact writeCells_wf _ _ _ h
    | with_reducible apply insAll_rising | with_reducible apply ins_rising | with_reducible apply List.Pairwise.filter
    | with_reducible apply keep_wf | with_reducible apply keep_rising | with_reducible apply del_rising
    | with_reducible apply put_rising | with_reducible apply ite_kept | with_reducible apply foldl_kept
    | (refine Kept.ofSnd (by assumption) ?_) | dsimp only | split

theorem runDesc_kept {r₀ : State} {c₀ : Bool} {s : State} {h : Hdr} {body : State → State} (h1 : Kept c₀ r₀ s)
    (h3 : (∀ (y04 : State), Kept c₀ r₀ y04 → Kept c₀ r₀ (body y04))) : Kept c₀ r₀ (runDesc s h body) := by
  unfold runDesc
  repeat' first
    | with_reducible assumption | intro _ | with_reducible apply h3 | with_reducible apply ite_kept
    | with_reducible apply foldl_kept | (refine Kept.ofSnd (by assumption) ?_) | dsimp only | split

theorem dropReqs_kept {r₀ : State} {c₀ : Bool} {s : State} {h : Hdr} (h1 : Kept c₀ r₀ s) : Kept c₀ r₀ (dropReqs s h) := by
  unfold dropReqs
  repeat' first
    | with_reducible assumption | intro _ | with_reducible apply State.onGz_kept | with_reducible apply ite_kept
    | with_reducible apply foldl_kept | (refine Kept.ofSnd (by assumption) ?_) | dsimp only | split

end Sys2Proof.Machine
end

