-- ==== Sys2Proof/Laws/KeptMuslinOps.lean ====
section
/-!
SUPPORT. What the definitions of Machine/MuslinOps.lean keep (Laws/Kept.lean).
-/

set_option linter.all false

namespace Sys2Proof.Machine

open Sys2Proof

theorem reportLate_kept {r₀ : State} {c₀ : Bool} {s : State} {step : Nat} (h1 : Kept c₀ r₀ s) : Kept c₀ r₀ (reportLate s step) := by
  unfold reportLate
  repeat' first
    | with_reducible assumption | intro _ | with_reducible apply State.onSeq_kept | with_reducible apply ite_kept
    | with_reducible apply foldl_kept | (refine Kept.ofSnd (by assumption) ?_) | dsimp only | split

theorem delDir_kept {r₀ : State} {c₀ : Bool} {s : State} {k t row : Nat} (h1 : Kept c₀ r₀ s) : Kept c₀ r₀ (delDir s k t row) := by
  unfold delDir
  repeat' first
    | with_reducible assumption | intro _ | with_reducible apply State.onMu_kept | with_reducible apply ite_kept
    | with_reducible apply foldl_kept | (refine Kept.ofSnd (by assumption) ?_) | dsimp only | split

theorem placeRow_kept {r₀ : State} {c₀ : Bool} {s : State} {k bank step t row region entries : Nat} {late : Bool} {m : AddMsg}
    (h1 : Kept c₀ r₀ s) : Kept c₀ r₀ (placeRow s k bank step t row region entries late m).2 := by
  unfold placeRow
  repeat' first
    | with_reducible assumption | intro _ | with_reducible apply State.onMu_kept | with_reducible apply bump_kept
    | with_reducible apply ite_kept | with_reducible apply ite_kept_snd | with_reducible apply foldl_kept
    | with_reducible apply foldl_kept_snd | (refine Kept.ofSnd (by assumption) ?_) | dsimp only | split

theorem applyAdd_kept {r₀ : State} {c₀ : Bool} {s : State} {k : Nat} {m : AddMsg} (h1 : Kept c₀ r₀ s)
    : Kept c₀ r₀ (applyAdd s k m).2 := by
  unfold applyAdd
  repeat' first
    | with_reducible assumption | intro _ | with_reducible apply State.onMu_kept | with_reducible apply bump_kept
    | with_reducible apply reportLate_kept | with_reducible apply placeRow_kept | with_reducible apply ite_kept
    | with_reducible apply ite_kept_snd | with_reducible apply foldl_kept | with_reducible apply foldl_kept_snd
    | (refine Kept.ofSnd (by assumption) ?_) | dsimp only | split

theorem hotAdd_kept {r₀ : State} {c₀ : Bool} {s : State} {k t row w : Nat} (h1 : Kept c₀ r₀ s)
    : Kept c₀ r₀ (hotAdd s k t row w) := by
  unfold hotAdd
  repeat' first
    | with_reducible assumption | intro _ | with_reducible apply State.onMu_kept | with_reducible apply ite_kept
    | with_reducible apply foldl_kept | (refine Kept.ofSnd (by assumption) ?_) | dsimp only | split

theorem noteLoss_kept {r₀ : State} {c₀ : Bool} {s : State} {e : Nat} {b : Int} {n : Nat} {vs : List Val} (h1 : Kept c₀ r₀ s)
    : Kept c₀ r₀ (noteLoss s e b n vs) := by
  unfold noteLoss
  repeat' first
    | with_reducible assumption | intro _ | with_reducible apply State.onMu_kept | with_reducible apply ite_kept
    | with_reducible apply foldl_kept | (refine Kept.ofSnd (by assumption) ?_) | dsimp only | split

theorem setDir_kept {r₀ : State} {c₀ : Bool} {s : State} {k t row : Nat} {e : DirEntry} (h1 : Kept c₀ r₀ s)
    : Kept c₀ r₀ (setDir s k t row e) := by
  unfold setDir
  repeat' first
    | with_reducible assumption | intro _ | with_reducible apply State.onMu_kept | with_reducible apply ite_kept
    | with_reducible apply foldl_kept | (refine Kept.ofSnd (by assumption) ?_) | dsimp only | split

theorem startPatch_kept {r₀ : State} {c₀ : Bool} {s : State} {k t row : Nat} (h1 : Kept c₀ r₀ s)
    : Kept c₀ r₀ (startPatch s k t row) := by
  unfold startPatch
  repeat' first
    | with_reducible assumption | intro _ | with_reducible apply State.onMu_kept | with_reducible apply bump_kept
    | with_reducible apply openReq_kept | with_reducible apply ite_kept | with_reducible apply foldl_kept
    | (refine Kept.ofSnd (by assumption) ?_) | dsimp only | split

theorem markPoisoned_kept {r₀ : State} {c₀ : Bool} {s : State} {k t row da : Nat} (h1 : Kept c₀ r₀ s)
    : Kept c₀ r₀ (markPoisoned s k t row da) := by
  unfold markPoisoned
  repeat' first
    | with_reducible assumption | intro _ | with_reducible apply State.onMu_kept | with_reducible apply startPatch_kept
    | with_reducible apply setDir_kept | with_reducible apply ite_kept | with_reducible apply foldl_kept
    | (refine Kept.ofSnd (by assumption) ?_) | dsimp only | split

theorem sendAdd_kept {r₀ : State} {c₀ : Bool} {s : State} {m : AddMsg} (h1 : Kept c₀ r₀ s) : Kept c₀ r₀ (sendAdd s m) := by
  unfold sendAdd
  repeat' first
    | with_reducible assumption | intro _ | with_reducible apply State.onGz_kept | with_reducible apply ite_kept
    | with_reducible apply foldl_kept | (refine Kept.ofSnd (by assumption) ?_) | dsimp only | split

theorem noteFwd_kept {r₀ : State} {c₀ : Bool} {s : State} {d : Nat} (h1 : Kept c₀ r₀ s) : Kept c₀ r₀ (noteFwd s d) := by
  unfold noteFwd
  repeat' first
    | with_reducible assumption | intro _ | with_reducible apply State.onGz_kept | with_reducible apply ite_kept
    | with_reducible apply foldl_kept | (refine Kept.ofSnd (by assumption) ?_) | dsimp only | split

theorem holdAdd_kept {r₀ : State} {c₀ : Bool} {s : State} {m : AddMsg} (h1 : Kept c₀ r₀ s) : Kept c₀ r₀ (holdAdd s m) := by
  unfold holdAdd
  repeat' first
    | with_reducible assumption | intro _ | with_reducible apply sendAdd_kept | with_reducible apply noteFwd_kept
    | with_reducible apply ite_kept | with_reducible apply foldl_kept | (refine Kept.ofSnd (by assumption) ?_) | dsimp only
    | split

theorem survey_kept {r₀ : State} {c₀ : Bool} {s : State} {k t row off w : Nat} (h1 : Kept c₀ r₀ s)
    : Kept c₀ r₀ (survey s k t row off w) := by
  unfold survey
  repeat' first
    | with_reducible assumption | intro _ | with_reducible apply bumpBy_kept | with_reducible apply ite_kept
    | with_reducible apply foldl_kept | (refine Kept.ofSnd (by assumption) ?_) | dsimp only | split

theorem ownerRead_kept {r₀ : State} {c₀ : Bool} {s : State} {t row : Nat} (h1 : Kept c₀ r₀ s)
    : Kept c₀ r₀ (ownerRead s t row).2 := by
  unfold ownerRead
  repeat' first
    | with_reducible assumption | intro _ | with_reducible apply survey_kept | with_reducible apply markPoisoned_kept
    | with_reducible apply checkRead_kept | with_reducible apply hotAdd_kept | with_reducible apply ite_kept
    | with_reducible apply ite_kept_snd | with_reducible apply foldl_kept | with_reducible apply foldl_kept_snd
    | (refine Kept.ofSnd (by assumption) ?_) | dsimp only | split

theorem closeRow_kept {r₀ : State} {c₀ : Bool} {s : State} {kind k t row : Nat} (h1 : Kept c₀ r₀ s)
    : Kept c₀ r₀ (closeRow s kind k t row) := by
  unfold closeRow
  repeat' first
    | with_reducible assumption | intro _ | with_reducible apply closeReq_kept | with_reducible apply ite_kept
    | with_reducible apply foldl_kept | (refine Kept.ofSnd (by assumption) ?_) | dsimp only | split

theorem wakePatch_kept {r₀ : State} {c₀ : Bool} {s : State} {k : Nat} (h1 : Kept c₀ r₀ s) : Kept c₀ r₀ (wakePatch s k) := by
  unfold wakePatch
  repeat' first
    | with_reducible assumption | intro _ | with_reducible apply State.onMu_kept | with_reducible apply markPoisoned_kept
    | with_reducible apply startPatch_kept | with_reducible apply ite_kept | with_reducible apply foldl_kept
    | (refine Kept.ofSnd (by assumption) ?_) | dsimp only | split

theorem answerAdd_kept {r₀ : State} {c₀ : Bool} {s : State} {m : AddMsg} {from_ : Nat} {a3 : AddAnswer} (h1 : Kept c₀ r₀ s)
    : Kept c₀ r₀ (answerAdd s m from_ a3) := by
  unfold answerAdd
  repeat' first
    | with_reducible assumption | intro _ | with_reducible apply sendFlit_kept | with_reducible apply ite_kept
    | with_reducible apply foldl_kept | (refine Kept.ofSnd (by assumption) ?_) | dsimp only | split

end Sys2Proof.Machine
end

