-- ==== Sys2Proof/Laws/KeptOperands.lean ====
section
/-!
SUPPORT. What the definitions of Machine/Operands.lean keep (Laws/Kept.lean).
-/

set_option linter.all false

namespace Sys2Proof.Machine

open Sys2Proof

theorem setRecv_kept {r₀ : State} {c₀ : Bool} {s : State} {m : Rec} {f : McRecv → McRecv} (h1 : Kept c₀ r₀ s)
    : Kept c₀ r₀ (setRecv s m f) := by
  unfold setRecv
  repeat' first
    | with_reducible assumption | intro _ | with_reducible apply State.onGz_kept | with_reducible apply ite_kept
    | with_reducible apply foldl_kept | (refine Kept.ofSnd (by assumption) ?_) | dsimp only | split

end Sys2Proof.Machine
end

