-- ==== Sys2Proof/Laws/KeptQmOps.lean ====
section
/-!
SUPPORT. What the definitions of Machine/QmOps.lean keep (Laws/Kept.lean).
-/

set_option linter.all false

namespace Sys2Proof.Machine

open Sys2Proof

theorem staleTiles_kept {r₀ : State} {c₀ : Bool} {s : State} {core tile n : Nat} (h1 : Kept c₀ r₀ s)
    : Kept c₀ r₀ (staleTiles s core tile n) := by
  unfold staleTiles
  repeat' first
    | with_reducible assumption | intro _ | with_reducible apply State.onTw_kept | with_reducible apply ite_kept
    | with_reducible apply foldl_kept | (refine Kept.ofSnd (by assumption) ?_) | dsimp only | split

theorem setRing_kept {r₀ : State} {c₀ : Bool} {s : State} {n : Nat} {f : Ring → Ring} (h1 : Kept c₀ r₀ s)
    : Kept c₀ r₀ (setRing s n f) := by
  unfold setRing
  repeat' first
    | with_reducible assumption | intro _ | with_reducible apply State.onQm_kept | with_reducible apply ite_kept
    | with_reducible apply foldl_kept | (refine Kept.ofSnd (by assumption) ?_) | dsimp only | split

theorem notify_kept {r₀ : State} {c₀ : Bool} {s : State} {r : Rec} (h1 : Kept c₀ r₀ s) : Kept c₀ r₀ (notify s r) := by
  unfold notify
  repeat' first
    | with_reducible assumption | intro _ | with_reducible apply State.onQm_kept | with_reducible apply ite_kept
    | with_reducible apply foldl_kept | (refine Kept.ofSnd (by assumption) ?_) | dsimp only | split

theorem writeRecord_kept {r₀ : State} {c₀ : Bool} {s : State} {n : Nat} {body : Nat → List Byte} (h1 : Kept c₀ r₀ s)
    : Kept c₀ r₀ (writeRecord s n body) := by
  unfold writeRecord
  repeat' first
    | with_reducible assumption | intro _ | with_reducible apply writeMem_kept | with_reducible apply setRing_kept
    | with_reducible apply notify_kept | with_reducible apply ite_kept | with_reducible apply foldl_kept
    | (refine Kept.ofSnd (by assumption) ?_) | dsimp only | split

theorem setQueue_kept {r₀ : State} {c₀ : Bool} {s : State} {q : Nat} {f : Queue → Queue} (h1 : Kept c₀ r₀ s)
    : Kept c₀ r₀ (setQueue s q f) := by
  unfold setQueue
  repeat' first
    | with_reducible assumption | intro _ | with_reducible apply State.onQm_kept | with_reducible apply ite_kept
    | with_reducible apply foldl_kept | (refine Kept.ofSnd (by assumption) ?_) | dsimp only | split

theorem dropShadow_kept {r₀ : State} {c₀ : Bool} {s : State} {core : Nat} {h : Hdr} (h1 : Kept c₀ r₀ s)
    : Kept c₀ r₀ (dropShadow s core h) := by
  unfold dropShadow
  repeat' first
    | with_reducible assumption | intro _ | with_reducible apply State.onTw_kept | with_reducible apply ite_kept
    | with_reducible apply foldl_kept | (refine Kept.ofSnd (by assumption) ?_) | dsimp only | split

theorem forget_kept {r₀ : State} {c₀ : Bool} {s : State} {h : Hdr} (h1 : Kept c₀ r₀ s) : Kept c₀ r₀ (forget s h) := by
  unfold forget
  repeat' first
    | with_reducible assumption | intro _ | with_reducible apply State.onMu_kept | with_reducible apply State.onRings_kept
    | with_reducible apply State.onImg_kept | with_reducible apply State.onSec_kept | with_reducible apply State.onSnap_kept
    | with_reducible apply State.onSeq_kept | with_reducible apply State.onStreams_kept | with_reducible apply ite_kept
    | with_reducible apply foldl_kept | (refine Kept.ofSnd (by assumption) ?_) | dsimp only | split

theorem releaseSlot_kept {r₀ : State} {c₀ : Bool} {s : State} {n : Nat} (h1 : Kept c₀ r₀ s) : Kept c₀ r₀ (releaseSlot s n) := by
  unfold releaseSlot
  repeat' first
    | with_reducible assumption | intro _ | with_reducible apply setRing_kept | with_reducible apply ite_kept
    | with_reducible apply foldl_kept | (refine Kept.ofSnd (by assumption) ?_) | dsimp only | split

theorem endEarly_kept {r₀ : State} {c₀ : Bool} {s : State} {d : Disp} {st : Nat} (h1 : Kept c₀ r₀ s)
    : Kept c₀ r₀ (endEarly s d st) := by
  unfold endEarly
  repeat' first
    | with_reducible assumption | intro _ | with_reducible apply State.onImg_kept | with_reducible apply forget_kept
    | with_reducible apply complete_kept | with_reducible apply dropShadow_kept | with_reducible apply dropReqs_kept
    | with_reducible apply staleTiles_kept | with_reducible apply ite_kept | with_reducible apply foldl_kept
    | (refine Kept.ofSnd (by assumption) ?_) | dsimp only | split

theorem endFetched_kept {r₀ : State} {c₀ : Bool} {s : State} {q : Nat} {x : Fetched} {st : Nat} (h1 : Kept c₀ r₀ s)
    : Kept c₀ r₀ (endFetched s q x st) := by
  unfold endFetched
  repeat' first
    | with_reducible assumption | intro _ | with_reducible apply setQueue_kept | with_reducible apply completeIdle_kept
    | with_reducible apply ite_kept | with_reducible apply foldl_kept | (refine Kept.ofSnd (by assumption) ?_) | dsimp only
    | split

theorem endFetchedAll_kept {r₀ : State} {c₀ : Bool} {s : State} {q st : Nat} (h1 : Kept c₀ r₀ s)
    : Kept c₀ r₀ (endFetchedAll s q st) := by
  unfold endFetchedAll
  repeat' first
    | with_reducible assumption | intro _ | with_reducible apply endFetched_kept | with_reducible apply ite_kept
    | with_reducible apply foldl_kept | (refine Kept.ofSnd (by assumption) ?_) | dsimp only | split

theorem reserveSlot_kept {r₀ : State} {c₀ : Bool} {s : State} {n : Nat} (h1 : Kept c₀ r₀ s) : Kept c₀ r₀ (reserveSlot s n) := by
  unfold reserveSlot
  repeat' first
    | with_reducible assumption | intro _ | with_reducible apply setRing_kept | with_reducible apply ite_kept
    | with_reducible apply foldl_kept | (refine Kept.ofSnd (by assumption) ?_) | dsimp only | split

theorem endAll_kept {r₀ : State} {c₀ : Bool} {s : State} {f : Disp → Bool} {st : Nat} (h1 : Kept c₀ r₀ s)
    : Kept c₀ r₀ (endAll s f st) := by
  unfold endAll
  repeat' first
    | with_reducible assumption | intro _ | with_reducible apply endEarly_kept | with_reducible apply ite_kept
    | with_reducible apply foldl_kept | (refine Kept.ofSnd (by assumption) ?_) | dsimp only | split

end Sys2Proof.Machine
end

