-- ==== Sys2Proof/Laws/KeptNumfmt.lean ====
section
/-!
SUPPORT. What the definitions of Machine/Numfmt.lean keep (Laws/Kept.lean).
-/

set_option linter.all false

namespace Sys2Proof.Machine

open Sys2Proof

theorem draw_kept {r₀ : State} {c₀ : Bool} {s : State} {fixed : Bool} {lane : Nat} (h1 : Kept c₀ r₀ s)
    : Kept c₀ r₀ (draw s fixed lane).2 := by
  unfold draw
  repeat' first
    | with_reducible assumption | intro _ | with_reducible apply State.took_kept | with_reducible apply State.onTw_kept
    | with_reducible apply ite_kept | with_reducible apply ite_kept_snd | with_reducible apply foldl_kept
    | with_reducible apply foldl_kept_snd | (refine Kept.ofSnd (by assumption) ?_) | dsimp only | split

theorem convElem_kept {r₀ : State} {c₀ : Bool} {s : State} {spec sc : Nat} {grad fixed : Bool} {lane : Nat} {v : Val}
    (h1 : Kept c₀ r₀ s) : Kept c₀ r₀ (convElem s spec sc grad fixed lane v).2 := by
  unfold convElem
  repeat' first
    | with_reducible assumption | intro _ | with_reducible apply draw_kept | with_reducible apply ite_kept
    | with_reducible apply ite_kept_snd | with_reducible apply foldl_kept | with_reducible apply foldl_kept_snd
    | (refine Kept.ofSnd (by assumption) ?_) | dsimp only | split

theorem convList_kept {r₀ : State} {c₀ : Bool} {s : State} {spec : Nat} {grad fixed : Bool} {scs : List Nat} {a5 : Nat}
    {a6 : List (Val × Nat)} (h1 : Kept c₀ r₀ s) : Kept c₀ r₀ (convList s spec grad fixed scs a5 a6).2 := by
  induction a6 generalizing s a5 with
  | nil =>
    unfold convList
    repeat' first
      | with_reducible assumption | intro _ | with_reducible apply convElem_kept | with_reducible apply ite_kept
      | with_reducible apply ite_kept_snd | with_reducible apply foldl_kept | with_reducible apply foldl_kept_snd
      | (refine Kept.ofSnd (by assumption) ?_) | dsimp only | split
  | cons _ _ ih =>
    unfold convList
    repeat' first
      | with_reducible assumption | intro _ | with_reducible apply ih | with_reducible apply convElem_kept
      | with_reducible apply ite_kept | with_reducible apply ite_kept_snd | with_reducible apply foldl_kept
      | with_reducible apply foldl_kept_snd | (refine Kept.ofSnd (by assumption) ?_) | dsimp only | split

end Sys2Proof.Machine
end

