-- ==== Sys2Proof/Laws/KeptTwillOps.lean ====
section
/-!
SUPPORT. What the definitions of Machine/TwillOps.lean keep (Laws/Kept.lean).
-/

set_option linter.all false

namespace Sys2Proof.Machine

open Sys2Proof

theorem bumpCore_kept {r₀ : State} {c₀ : Bool} {s : State} {g off n : Nat} (h1 : Kept c₀ r₀ s)
    : Kept c₀ r₀ (bumpCore s g off n) := by
  unfold bumpCore
  repeat' first
    | with_reducible assumption | intro _ | with_reducible apply bumpBy_kept | with_reducible apply ite_kept
    | with_reducible apply foldl_kept | (refine Kept.ofSnd (by assumption) ?_) | dsimp only | split

theorem cbCheck_kept {r₀ : State} {c₀ : Bool} {s : State} {g : Nat} {rs : List Range} (h1 : Kept c₀ r₀ s)
    : Kept c₀ r₀ (cbCheck s g rs).2 := by
  unfold cbCheck
  repeat' first
    | with_reducible assumption | intro _ | with_reducible apply bumpCore_kept | with_reducible apply ite_kept
    | with_reducible apply ite_kept_snd | with_reducible apply foldl_kept | with_reducible apply foldl_kept_snd
    | (refine Kept.ofSnd (by assumption) ?_) | dsimp only | split

theorem cbWrite_kept {r₀ : State} {c₀ : Bool} {s : State} {g off : Nat} {bs : List Byte} (h1 : Kept c₀ r₀ s)
    : Kept c₀ r₀ (cbWrite s g off bs) := by
  unfold cbWrite
  repeat' first
    | with_reducible assumption | intro _ | with_reducible apply State.onTw_kept | with_reducible apply cbCheck_kept
    | with_reducible apply ite_kept | with_reducible apply ite_kept_snd | with_reducible apply foldl_kept
    | with_reducible apply foldl_kept_snd | (refine Kept.ofSnd (by assumption) ?_) | dsimp only | split

theorem drainRow_kept {r₀ : State} {c₀ : Bool} {s : State} {o : MatmulOp} {compat : Bool} {i : Nat} (h1 : Kept c₀ r₀ s)
    : Kept c₀ r₀ (drainRow s o compat i).2 := by
  unfold drainRow
  repeat' first
    | with_reducible assumption | intro _ | with_reducible apply convList_kept | with_reducible apply cbWrite_kept
    | with_reducible apply ite_kept | with_reducible apply ite_kept_snd | with_reducible apply foldl_kept
    | with_reducible apply foldl_kept_snd | (refine Kept.ofSnd (by assumption) ?_) | dsimp only | split

theorem drainRows_kept {r₀ : State} {c₀ : Bool} {s : State} {o : MatmulOp} {compat : Bool} {a3 : List Nat} (h1 : Kept c₀ r₀ s)
    : Kept c₀ r₀ (drainRows s o compat a3).2 := by
  induction a3 generalizing s with
  | nil =>
    unfold drainRows
    repeat' first
      | with_reducible assumption | intro _ | with_reducible apply drainRow_kept | with_reducible apply ite_kept
      | with_reducible apply ite_kept_snd | with_reducible apply foldl_kept | with_reducible apply foldl_kept_snd
      | (refine Kept.ofSnd (by assumption) ?_) | dsimp only | split
  | cons _ _ ih =>
    unfold drainRows
    repeat' first
      | with_reducible assumption | intro _ | with_reducible apply ih | with_reducible apply drainRow_kept
      | with_reducible apply ite_kept | with_reducible apply ite_kept_snd | with_reducible apply foldl_kept
      | with_reducible apply foldl_kept_snd | (refine Kept.ofSnd (by assumption) ?_) | dsimp only | split

theorem zeroTile_kept {r₀ : State} {c₀ : Bool} {s : State} {g t : Nat} (h1 : Kept c₀ r₀ s) : Kept c₀ r₀ (zeroTile s g t) := by
  unfold zeroTile
  repeat' first
    | with_reducible assumption | intro _ | with_reducible apply State.onTw_kept | with_reducible apply ite_kept
    | with_reducible apply foldl_kept | (refine Kept.ofSnd (by assumption) ?_) | dsimp only | split

theorem setLane_kept {r₀ : State} {c₀ : Bool} {s : State} {g t a r c : Nat} {v : Lane} (h1 : Kept c₀ r₀ s)
    : Kept c₀ r₀ (setLane s g t a r c v) := by
  unfold setLane
  repeat' first
    | with_reducible assumption | intro _ | with_reducible apply State.onTw_kept | with_reducible apply ite_kept
    | with_reducible apply foldl_kept | (refine Kept.ofSnd (by assumption) ?_) | dsimp only | split

theorem setTile_kept {r₀ : State} {c₀ : Bool} {s : State} {g t : Nat} {f : Tile → Tile} (h1 : Kept c₀ r₀ s)
    : Kept c₀ r₀ (setTile s g t f) := by
  unfold setTile
  repeat' first
    | with_reducible assumption | intro _ | with_reducible apply State.onTw_kept | with_reducible apply ite_kept
    | with_reducible apply foldl_kept | (refine Kept.ofSnd (by assumption) ?_) | dsimp only | split

theorem addLane_kept {r₀ : State} {c₀ : Bool} {s : State} {g t a r c : Nat} {v : Int} (h1 : Kept c₀ r₀ s)
    : Kept c₀ r₀ (addLane s g t a r c v) := by
  unfold addLane
  repeat' first
    | with_reducible assumption | intro _ | with_reducible apply setLane_kept | with_reducible apply setTile_kept
    | with_reducible apply bumpCore_kept | with_reducible apply ite_kept | with_reducible apply foldl_kept
    | (refine Kept.ofSnd (by assumption) ?_) | dsimp only | split

theorem addTerms_kept {r₀ : State} {c₀ : Bool} {s : State} {g t a r k : Nat} (h1 : Kept c₀ r₀ s)
    : Kept c₀ r₀ (addTerms s g t a r k) := by
  unfold addTerms
  repeat' first
    | with_reducible assumption | intro _ | with_reducible apply State.onTw_kept | with_reducible apply ite_kept
    | with_reducible apply foldl_kept | (refine Kept.ofSnd (by assumption) ?_) | dsimp only | split

theorem foldRow_kept {r₀ : State} {c₀ : Bool} {s : State} {g t r : Nat} (h1 : Kept c₀ r₀ s) : Kept c₀ r₀ (foldRow s g t r) := by
  unfold foldRow
  repeat' first
    | with_reducible assumption | intro _ | with_reducible apply State.onTw_kept | with_reducible apply setTile_kept
    | with_reducible apply bumpCore_kept | with_reducible apply ite_kept | with_reducible apply foldl_kept
    | (refine Kept.ofSnd (by assumption) ?_) | dsimp only | split

theorem foldFull_kept {r₀ : State} {c₀ : Bool} {s : State} {g t a r k : Nat} (h1 : Kept c₀ r₀ s)
    : Kept c₀ r₀ (foldFull s g t a r k) := by
  unfold foldFull
  repeat' first
    | with_reducible assumption | intro _ | with_reducible apply foldRow_kept | with_reducible apply ite_kept
    | with_reducible apply foldl_kept | (refine Kept.ofSnd (by assumption) ?_) | dsimp only | split

theorem countTerms_kept {r₀ : State} {c₀ : Bool} {s : State} {g k : Nat} {rows : List (Nat × Nat × Nat)} (h1 : Kept c₀ r₀ s)
    : Kept c₀ r₀ (countTerms s g k rows) := by
  unfold countTerms
  repeat' first
    | with_reducible assumption | intro _ | with_reducible apply addTerms_kept | with_reducible apply foldFull_kept
    | with_reducible apply ite_kept | with_reducible apply foldl_kept | (refine Kept.ofSnd (by assumption) ?_) | dsimp only
    | split

theorem flagLane_kept {r₀ : State} {c₀ : Bool} {s : State} {g t a r c : Nat} {ps : List Val} (h1 : Kept c₀ r₀ s)
    : Kept c₀ r₀ (flagLane s g t a r c ps) := by
  unfold flagLane
  repeat' first
    | with_reducible assumption | intro _ | with_reducible apply setLane_kept | with_reducible apply ite_kept
    | with_reducible apply foldl_kept | (refine Kept.ofSnd (by assumption) ?_) | dsimp only | split

theorem setCore_kept {r₀ : State} {c₀ : Bool} {s : State} {g : Nat} {f : Core → Core} (h1 : Kept c₀ r₀ s)
    : Kept c₀ r₀ (setCore s g f) := by
  unfold setCore
  repeat' first
    | with_reducible assumption | intro _ | with_reducible apply State.onTw_kept | with_reducible apply ite_kept
    | with_reducible apply foldl_kept | (refine Kept.ofSnd (by assumption) ?_) | dsimp only | split

theorem addColumn_kept {r₀ : State} {c₀ : Bool} {s : State} {g : Nat} {pl : Nat × Nat × Nat × Nat} {multi first : Bool}
    {ps : List Val} (h1 : Kept c₀ r₀ s) : Kept c₀ r₀ (addColumn s g pl multi first ps) := by
  unfold addColumn
  repeat' first
    | with_reducible assumption | intro _ | with_reducible apply addLane_kept | with_reducible apply flagLane_kept
    | with_reducible apply bumpCore_kept | with_reducible apply ite_kept | with_reducible apply foldl_kept
    | (refine Kept.ofSnd (by assumption) ?_) | dsimp only | split

theorem rowColumns_kept {r₀ : State} {c₀ : Bool} {s : State} {o : MatmulOp} {compat : Bool} {i : Nat} {av : List Val} {a5 : Nat}
    {a6 : List (List Val)} (h1 : Kept c₀ r₀ s) : Kept c₀ r₀ (rowColumns s o compat i av a5 a6) := by
  induction a6 generalizing s a5 with
  | nil =>
    unfold rowColumns
    repeat' first
      | with_reducible assumption | intro _ | with_reducible apply addColumn_kept | with_reducible apply flagLane_kept
      | with_reducible apply State.onTw_kept | with_reducible apply ite_kept | with_reducible apply foldl_kept
      | (refine Kept.ofSnd (by assumption) ?_) | dsimp only | split
  | cons _ _ ih =>
    unfold rowColumns
    repeat' first
      | with_reducible assumption | intro _ | with_reducible apply ih | with_reducible apply addColumn_kept
      | with_reducible apply flagLane_kept | with_reducible apply State.onTw_kept | with_reducible apply ite_kept
      | with_reducible apply foldl_kept | (refine Kept.ofSnd (by assumption) ?_) | dsimp only | split

theorem startTile_kept {r₀ : State} {c₀ : Bool} {s : State} {g : Nat} {anchor : Option Int} {t : Nat} (h1 : Kept c₀ r₀ s)
    : Kept c₀ r₀ (startTile s g anchor t) := by
  unfold startTile
  repeat' first
    | with_reducible assumption | intro _ | with_reducible apply zeroTile_kept | with_reducible apply setTile_kept
    | with_reducible apply ite_kept | with_reducible apply foldl_kept | (refine Kept.ofSnd (by assumption) ?_) | dsimp only
    | split

theorem streamRows_kept {r₀ : State} {c₀ : Bool} {s : State} {o : MatmulOp} {compat : Bool} {wv : List (List Val)} {a4 : Nat}
    {a5 : List (List Val)} (h1 : Kept c₀ r₀ s) : Kept c₀ r₀ (streamRows s o compat wv a4 a5) := by
  induction a5 generalizing s a4 with
  | nil =>
    unfold streamRows
    repeat' first
      | with_reducible assumption | intro _ | with_reducible apply rowColumns_kept | with_reducible apply countTerms_kept
      | with_reducible apply ite_kept | with_reducible apply foldl_kept | (refine Kept.ofSnd (by assumption) ?_) | dsimp only
      | split
  | cons _ _ ih =>
    unfold streamRows
    repeat' first
      | with_reducible assumption | intro _ | with_reducible apply ih | with_reducible apply rowColumns_kept
      | with_reducible apply countTerms_kept | with_reducible apply ite_kept | with_reducible apply foldl_kept
      | (refine Kept.ofSnd (by assumption) ?_) | dsimp only | split

end Sys2Proof.Machine
end

