-- ==== Sys2Proof/Laws/KeptFaultOps.lean ====
section
/-!
SUPPORT. What the definitions of Machine/FaultOps.lean keep (Laws/Kept.lean).
-/

set_option linter.all false

namespace Sys2Proof.Machine

open Sys2Proof

theorem setRPort_kept {r₀ : State} {c₀ : Bool} {s : State} {d : Nat} {f : RPort → RPort} (h1 : Kept c₀ r₀ s)
    : Kept c₀ r₀ (setRPort s d f) := by
  unfold setRPort
  repeat' first
    | with_reducible assumption | intro _ | with_reducible apply State.onRings_kept | with_reducible apply legendUpdate_kept
    | with_reducible apply ite_kept | with_reducible apply foldl_kept | (refine Kept.ofSnd (by assumption) ?_) | dsimp only
    | split

theorem closeDim_kept {r₀ : State} {c₀ : Bool} {s : State} {dim : Nat} (h1 : Kept c₀ r₀ s) : Kept c₀ r₀ (closeDim s dim) := by
  unfold closeDim
  repeat' first
    | with_reducible assumption | intro _ | with_reducible apply State.onRings_kept | with_reducible apply setRPort_kept
    | with_reducible apply ite_kept | with_reducible apply foldl_kept | (refine Kept.ofSnd (by assumption) ?_) | dsimp only
    | split

theorem addCause_kept {r₀ : State} {c₀ : Bool} {s : State} {c : Nat} (h1 : Kept c₀ r₀ s) : Kept c₀ r₀ (addCause s c) := by
  unfold addCause
  repeat' first
    | with_reducible assumption | intro _ | with_reducible apply State.onRings_kept | with_reducible apply closeDim_kept
    | with_reducible apply ite_kept | with_reducible apply foldl_kept | (refine Kept.ofSnd (by assumption) ?_) | dsimp only
    | split

theorem fenceParty_kept {r₀ : State} {c₀ : Bool} {s : State} {u : UnitId} (h1 : Kept c₀ r₀ s) : Kept c₀ r₀ (fenceParty s u) := by
  unfold fenceParty
  repeat' first
    | with_reducible assumption | intro _ | with_reducible apply addCause_kept | with_reducible apply setCore_kept
    | with_reducible apply failPort_kept | (with_reducible refine State.onSv_kept ?_ (fun _ h => h))
    | with_reducible apply ite_kept | with_reducible apply foldl_kept | (refine Kept.ofSnd (by assumption) ?_) | dsimp only
    | split

theorem rowEntries_kept {r₀ : State} {c₀ : Bool} {s : State} {k t row : Nat} {f : Entry → Option Entry} (h1 : Kept c₀ r₀ s)
    : Kept c₀ r₀ (rowEntries s k t row f) := by
  unfold rowEntries
  repeat' first
    | with_reducible assumption | intro _ | with_reducible apply State.onMu_kept | with_reducible apply ite_kept
    | with_reducible apply foldl_kept | (refine Kept.ofSnd (by assumption) ?_) | dsimp only | split

theorem storeDir_kept {r₀ : State} {c₀ : Bool} {s : State} {k t row : Nat} {e : DirEntry} (h1 : Kept c₀ r₀ s)
    : Kept c₀ r₀ (storeDir s k t row e) := by
  unfold storeDir
  repeat' first
    | with_reducible assumption | intro _ | with_reducible apply delDir_kept | with_reducible apply setDir_kept
    | with_reducible apply wakePatch_kept | with_reducible apply ite_kept | with_reducible apply foldl_kept
    | (refine Kept.ofSnd (by assumption) ?_) | dsimp only | split

theorem abandonMove_kept {r₀ : State} {c₀ : Bool} {s : State} {k t row : Nat} {e : DirEntry} (h1 : Kept c₀ r₀ s)
    : Kept c₀ r₀ (abandonMove s k t row e) := by
  unfold abandonMove
  repeat' first
    | with_reducible assumption | intro _ | with_reducible apply bump_kept | with_reducible apply rowEntries_kept
    | with_reducible apply sendAdd_kept | with_reducible apply complete_kept | with_reducible apply storeDir_kept
    | with_reducible apply closeRow_kept | with_reducible apply ite_kept | with_reducible apply foldl_kept
    | (refine Kept.ofSnd (by assumption) ?_) | dsimp only | split

theorem freeDirents_kept {r₀ : State} {c₀ : Bool} {s : State} {dead : Nat} (h1 : Kept c₀ r₀ s)
    : Kept c₀ r₀ (freeDirents s dead) := by
  unfold freeDirents
  repeat' first
    | with_reducible assumption | intro _ | with_reducible apply State.onMu_kept | with_reducible apply bumpBy_kept
    | with_reducible apply abandonMove_kept | with_reducible apply markPoisoned_kept | with_reducible apply ite_kept
    | with_reducible apply foldl_kept | (refine Kept.ofSnd (by assumption) ?_) | dsimp only | split

theorem setStrm_kept {r₀ : State} {c₀ : Bool} {s : State} {n : Nat} {f : Strm → Strm} (h1 : Kept c₀ r₀ s)
    : Kept c₀ r₀ (setStrm s n f) := by
  unfold setStrm
  repeat' first
    | with_reducible assumption | intro _ | with_reducible apply State.onStreams_kept | with_reducible apply ite_kept
    | with_reducible apply foldl_kept | (refine Kept.ofSnd (by assumption) ?_) | dsimp only | split

theorem detachRecv_kept {r₀ : State} {c₀ : Bool} {s : State} {r : Rec} (h1 : Kept c₀ r₀ s) : Kept c₀ r₀ (detachRecv s r) := by
  unfold detachRecv
  repeat' first
    | with_reducible assumption | intro _ | with_reducible apply bump_kept | with_reducible apply setRecv_kept
    | with_reducible apply State.took_kept | with_reducible apply writeRecord_kept | with_reducible apply ite_kept
    | with_reducible apply foldl_kept | (refine Kept.ofSnd (by assumption) ?_) | dsimp only | split

theorem abortStream_kept {r₀ : State} {c₀ : Bool} {s : State} {n st : Nat} (h1 : Kept c₀ r₀ s)
    : Kept c₀ r₀ (abortStream s n st) := by
  unfold abortStream
  repeat' first
    | with_reducible assumption | intro _ | with_reducible apply setStrm_kept | with_reducible apply endEarly_kept
    | with_reducible apply complete_kept | with_reducible apply ite_kept | with_reducible apply foldl_kept
    | (refine Kept.ofSnd (by assumption) ?_) | dsimp only | split

theorem faultCore_kept {r₀ : State} {c₀ : Bool} {s : State} {g : Nat} (h1 : Kept c₀ r₀ s) : Kept c₀ r₀ (faultCore s g) := by
  unfold faultCore
  repeat' first
    | with_reducible assumption | intro _ | with_reducible apply zeroTile_kept | with_reducible apply setCore_kept
    | with_reducible apply State.onTw_kept | with_reducible apply ite_kept | with_reducible apply foldl_kept
    | (refine Kept.ofSnd (by assumption) ?_) | dsimp only | split

theorem dropPanelLedgers_kept {r₀ : State} {c₀ : Bool} {s : State} {p : Nat} (h1 : Kept c₀ r₀ s)
    : Kept c₀ r₀ (dropPanelLedgers s p) := by
  unfold dropPanelLedgers
  repeat' first
    | with_reducible assumption | intro _ | with_reducible apply State.onMu_kept | with_reducible apply storeDir_kept
    | with_reducible apply ite_kept | with_reducible apply foldl_kept | (refine Kept.ofSnd (by assumption) ?_) | dsimp only
    | split

theorem faultPanel_kept {r₀ : State} {c₀ : Bool} {s : State} {p : Nat} (h1 : Kept c₀ r₀ s) : Kept c₀ r₀ (faultPanel s p) := by
  unfold faultPanel
  repeat' first
    | with_reducible assumption | intro _ | with_reducible apply setQueue_kept | with_reducible apply abortStream_kept
    | with_reducible apply endFetchedAll_kept | with_reducible apply endAll_kept | with_reducible apply faultCore_kept
    | with_reducible apply dropPanelLedgers_kept | with_reducible apply ite_kept | with_reducible apply foldl_kept
    | (refine Kept.ofSnd (by assumption) ?_) | dsimp only | split

theorem freeLeases_kept {r₀ : State} {c₀ : Bool} {s : State} {u : UnitId} (h1 : Kept c₀ r₀ s) : Kept c₀ r₀ (freeLeases s u) := by
  unfold freeLeases
  repeat' first
    | with_reducible assumption | intro _ | with_reducible apply freeDirents_kept | with_reducible apply setStrm_kept
    | with_reducible apply State.onGz_kept | with_reducible apply detachRecv_kept | with_reducible apply faultPanel_kept
    | with_reducible apply ite_kept | with_reducible apply foldl_kept | (refine Kept.ofSnd (by assumption) ?_) | dsimp only
    | split

theorem dropCause_kept {r₀ : State} {c₀ : Bool} {s : State} {c : Nat} (h1 : Kept c₀ r₀ s) : Kept c₀ r₀ (dropCause s c) := by
  unfold dropCause
  repeat' first
    | with_reducible assumption | intro _ | with_reducible apply State.onRings_kept | with_reducible apply ite_kept
    | with_reducible apply foldl_kept | (refine Kept.ofSnd (by assumption) ?_) | dsimp only | split

theorem startReclaim_kept {r₀ : State} {c₀ : Bool} {s : State} {r : Reclaim} (h1 : Kept c₀ r₀ s)
    : Kept c₀ r₀ (startReclaim s r) := by
  unfold startReclaim
  repeat' first
    | with_reducible assumption | intro _ | with_reducible apply bump_kept | with_reducible apply faultCore_kept
    | with_reducible apply faultPanel_kept | with_reducible apply fenceParty_kept
    | (with_reducible refine State.onSv_kept ?_ (fun _ h => h)) | with_reducible apply ite_kept | with_reducible apply foldl_kept
    | (refine Kept.ofSnd (by assumption) ?_) | dsimp only | split

theorem endReclaim_kept {r₀ : State} {c₀ : Bool} {s : State} {u : UnitId} (h1 : Kept c₀ r₀ s) : Kept c₀ r₀ (endReclaim s u) := by
  unfold endReclaim
  repeat' first
    | with_reducible assumption | intro _ | with_reducible apply startReclaim_kept
    | (with_reducible refine State.onSv_kept ?_ (fun _ h => h)) | with_reducible apply ite_kept | with_reducible apply foldl_kept
    | (refine Kept.ofSnd (by assumption) ?_) | dsimp only | split

theorem resetLinkDie_kept {r₀ : State} {c₀ : Bool} {s : State} {d : Nat} (h1 : Kept c₀ r₀ s) : Kept c₀ r₀ (resetLinkDie s d) := by
  unfold resetLinkDie
  repeat' first
    | with_reducible assumption | intro _ | with_reducible apply State.onRings_kept | with_reducible apply setRPort_kept
    | with_reducible apply ite_kept | with_reducible apply foldl_kept | (refine Kept.ofSnd (by assumption) ?_) | dsimp only
    | split

theorem triggerReclaim_kept {r₀ : State} {c₀ : Bool} {s : State} {r : Reclaim} (h1 : Kept c₀ r₀ s)
    : Kept c₀ r₀ (triggerReclaim s r) := by
  unfold triggerReclaim
  repeat' first
    | with_reducible assumption | intro _ | with_reducible apply startReclaim_kept
    | (with_reducible refine State.onSv_kept ?_ (fun _ h => h)) | with_reducible apply ite_kept | with_reducible apply foldl_kept
    | (refine Kept.ofSnd (by assumption) ?_) | dsimp only | split

theorem faultDiePanels_kept {r₀ : State} {c₀ : Bool} {s : State} {d : Nat} (h1 : Kept c₀ r₀ s)
    : Kept c₀ r₀ (faultDiePanels s d) := by
  unfold faultDiePanels
  repeat' first
    | with_reducible assumption | intro _ | with_reducible apply triggerReclaim_kept | with_reducible apply faultPanel_kept
    | with_reducible apply ite_kept | with_reducible apply foldl_kept | (refine Kept.ofSnd (by assumption) ?_) | dsimp only
    | split

theorem resetDie_kept {r₀ : State} {c₀ : Bool} {s : State} {d : Nat} (h1 : Kept c₀ r₀ s) : Kept c₀ r₀ (resetDie s d) := by
  unfold resetDie
  repeat' first
    | with_reducible assumption | intro _ | with_reducible apply freeDirents_kept | with_reducible apply abortStream_kept
    | with_reducible apply State.onMu_kept | with_reducible apply addCause_kept | with_reducible apply endAll_kept
    | with_reducible apply resetLinkDie_kept | with_reducible apply State.onGz_kept | with_reducible apply legendUpdate_kept
    | with_reducible apply faultDiePanels_kept | (with_reducible refine State.onSv_kept ?_ (fun _ h => h))
    | (with_reducible refine State.onPkg_kept ?_ (fun _ => ⟨rfl, rfl⟩))
    | (with_reducible refine State.onRegs_kept ?_ (fun _ h => ?_)) | with_reducible apply keep_wf
    | with_reducible apply keep_rising | with_reducible apply del_rising | with_reducible apply put_rising
    | with_reducible apply ite_kept | with_reducible apply foldl_kept | (refine Kept.ofSnd (by assumption) ?_) | dsimp only
    | split

theorem panelFaultAt_kept {r₀ : State} {c₀ : Bool} {s : State} {g : Nat} (h1 : Kept c₀ r₀ s) : Kept c₀ r₀ (panelFaultAt s g) := by
  unfold panelFaultAt
  repeat' first
    | with_reducible assumption | intro _ | with_reducible apply triggerReclaim_kept | with_reducible apply setSticky_kept
    | with_reducible apply faultPanel_kept | with_reducible apply ite_kept | with_reducible apply foldl_kept
    | (refine Kept.ofSnd (by assumption) ?_) | dsimp only | split

theorem liftFence_kept {r₀ : State} {c₀ : Bool} {s : State} {u : UnitId} (h1 : Kept c₀ r₀ s) : Kept c₀ r₀ (liftFence s u) := by
  unfold liftFence
  repeat' first
    | with_reducible assumption | intro _ | with_reducible apply setCore_kept
    | (with_reducible refine State.onSv_kept ?_ (fun _ h => h)) | with_reducible apply ite_kept | with_reducible apply foldl_kept
    | (refine Kept.ofSnd (by assumption) ?_) | dsimp only | split

theorem resetParty_kept {r₀ : State} {c₀ : Bool} {s : State} {u : UnitId} (h1 : Kept c₀ r₀ s) : Kept c₀ r₀ (resetParty s u) := by
  unfold resetParty
  repeat' first
    | with_reducible assumption | intro _ | with_reducible apply abortStream_kept | with_reducible apply State.onMu_kept
    | with_reducible apply endAll_kept | with_reducible apply liftFence_kept | with_reducible apply faultCore_kept
    | with_reducible apply faultPanel_kept | with_reducible apply resetDie_kept | with_reducible apply ite_kept
    | with_reducible apply foldl_kept | (refine Kept.ofSnd (by assumption) ?_) | dsimp only | split

theorem showFull_kept {r₀ : State} {c₀ : Bool} {s : State} {n : Nat} {r : Rec} {full : Bool} (h1 : Kept c₀ r₀ s)
    : Kept c₀ r₀ (showFull s n r full) := by
  unfold showFull
  repeat' first
    | with_reducible assumption | intro _ | with_reducible apply bumpBy_kept | with_reducible apply setStrm_kept
    | with_reducible apply State.took_kept | with_reducible apply ite_kept | with_reducible apply foldl_kept
    | (refine Kept.ofSnd (by assumption) ?_) | dsimp only | split

end Sys2Proof.Machine
end

