-- ==== Sys2Proof/Laws/KeptRingOps.lean ====
section
/-!
SUPPORT. What the definitions of Machine/RingOps.lean keep (Laws/Kept.lean).
-/

set_option linter.all false

namespace Sys2Proof.Machine

open Sys2Proof

theorem dropFrame_kept {r₀ : State} {c₀ : Bool} {s : State} {die tag : Nat} (h1 : Kept c₀ r₀ s)
    : Kept c₀ r₀ (dropFrame s die tag) := by
  unfold dropFrame
  repeat' first
    | with_reducible assumption | intro _ | with_reducible apply State.onRings_kept | with_reducible apply ite_kept
    | with_reducible apply foldl_kept | (refine Kept.ofSnd (by assumption) ?_) | dsimp only | split

theorem loseRemote_kept {r₀ : State} {c₀ : Bool} {s : State} {r : OutReq} {quarantine : Bool} (h1 : Kept c₀ r₀ s)
    : Kept c₀ r₀ (loseRemote s r quarantine) := by
  unfold loseRemote
  repeat' first
    | with_reducible assumption | intro _ | with_reducible apply bump_kept | with_reducible apply State.onGz_kept
    | with_reducible apply answered_kept | with_reducible apply dropFrame_kept | with_reducible apply closeReq_kept
    | with_reducible apply ite_kept | with_reducible apply foldl_kept | (refine Kept.ofSnd (by assumption) ?_) | dsimp only
    | split

theorem setPeer_kept {r₀ : State} {c₀ : Bool} {s : State} {d : Nat} {f : Peer → Peer} (h1 : Kept c₀ r₀ s)
    : Kept c₀ r₀ (setPeer s d f) := by
  unfold setPeer
  repeat' first
    | with_reducible assumption | intro _ | with_reducible apply State.onRings_kept | with_reducible apply ite_kept
    | with_reducible apply foldl_kept | (refine Kept.ofSnd (by assumption) ?_) | dsimp only | split

theorem applyStep_kept {r₀ : State} {c₀ : Bool} {s : State} {dev step : Nat} {open_ : Bool} (h1 : Kept c₀ r₀ s)
    : Kept c₀ r₀ (applyStep s dev step open_) := by
  unfold applyStep
  repeat' first
    | with_reducible assumption | intro _ | with_reducible apply setPeer_kept | with_reducible apply ite_kept
    | with_reducible apply foldl_kept | (refine Kept.ofSnd (by assumption) ?_) | dsimp only | split

theorem applyTopo_kept {r₀ : State} {c₀ : Bool} {s : State} {dev aux orig count : Nat} (h1 : Kept c₀ r₀ s)
    : Kept c₀ r₀ (applyTopo s dev aux orig count) := by
  unfold applyTopo
  repeat' first
    | with_reducible assumption | intro _ | with_reducible apply State.onRings_kept | with_reducible apply setPeer_kept
    | with_reducible apply ite_kept | with_reducible apply foldl_kept | (refine Kept.ofSnd (by assumption) ?_) | dsimp only
    | split

theorem applyAlias_kept {r₀ : State} {c₀ : Bool} {s : State} {dev target : Nat} (h1 : Kept c₀ r₀ s)
    : Kept c₀ r₀ (applyAlias s dev target) := by
  unfold applyAlias
  repeat' first
    | with_reducible assumption | intro _ | with_reducible apply setPeer_kept | with_reducible apply ite_kept
    | with_reducible apply foldl_kept | (refine Kept.ofSnd (by assumption) ?_) | dsimp only | split

theorem applyToken_kept {r₀ : State} {c₀ : Bool} {s : State} {t : Token} (h1 : Kept c₀ r₀ s) : Kept c₀ r₀ (applyToken s t) := by
  unfold applyToken
  repeat' first
    | with_reducible assumption | intro _ | with_reducible apply applyStep_kept | with_reducible apply applyTopo_kept
    | with_reducible apply applyAlias_kept | with_reducible apply ite_kept | with_reducible apply foldl_kept
    | (refine Kept.ofSnd (by assumption) ?_) | dsimp only | split

theorem flood_kept {r₀ : State} {c₀ : Bool} {s : State} {t : Token} (h1 : Kept c₀ r₀ s) : Kept c₀ r₀ (flood s t) := by
  unfold flood
  repeat' first
    | with_reducible assumption | intro _ | with_reducible apply State.onRings_kept | with_reducible apply applyToken_kept
    | with_reducible apply ite_kept | with_reducible apply foldl_kept | (refine Kept.ofSnd (by assumption) ?_) | dsimp only
    | split

theorem floodStep_kept {r₀ : State} {c₀ : Bool} {s : State} {n : Nat} {open_ : Bool} (h1 : Kept c₀ r₀ s)
    : Kept c₀ r₀ (floodStep s n open_) := by
  unfold floodStep
  repeat' first
    | with_reducible assumption | intro _ | with_reducible apply flood_kept | with_reducible apply ite_kept
    | with_reducible apply foldl_kept | (refine Kept.ofSnd (by assumption) ?_) | dsimp only | split

theorem setEgress_kept {r₀ : State} {c₀ : Bool} {s : State} {link : Nat} {l : List RingFrame} (h1 : Kept c₀ r₀ s)
    : Kept c₀ r₀ (setEgress s link l) := by
  unfold setEgress
  repeat' first
    | with_reducible assumption | intro _ | with_reducible apply State.onRings_kept | with_reducible apply ite_kept
    | with_reducible apply foldl_kept | (refine Kept.ofSnd (by assumption) ?_) | dsimp only | split

theorem transmit_kept {r₀ : State} {c₀ : Bool} {s : State} {link : Nat} {f : RingFrame} (h1 : Kept c₀ r₀ s)
    : Kept c₀ r₀ (transmit s link f) := by
  unfold transmit
  repeat' first
    | with_reducible assumption | intro _ | with_reducible apply setRPort_kept | with_reducible apply ite_kept
    | with_reducible apply foldl_kept | (refine Kept.ofSnd (by assumption) ?_) | dsimp only | split

theorem sendOne_kept {r₀ : State} {c₀ : Bool} {s : State} {f : Flit} (h1 : Kept c₀ r₀ s) : Kept c₀ r₀ (sendOne s f) := by
  unfold sendOne
  repeat' first
    | with_reducible assumption | intro _ | with_reducible apply sendAdd_kept | with_reducible apply sendFlit_kept
    | with_reducible apply ite_kept | with_reducible apply foldl_kept | (refine Kept.ofSnd (by assumption) ?_) | dsimp only
    | split

theorem sendInside_kept {r₀ : State} {c₀ : Bool} {s : State} {rDie : Nat} {f : Flit} (h1 : Kept c₀ r₀ s)
    : Kept c₀ r₀ (sendInside s rDie f) := by
  unfold sendInside
  repeat' first
    | with_reducible assumption | intro _ | with_reducible apply sendOne_kept | with_reducible apply refuse_kept
    | with_reducible apply ite_kept | with_reducible apply foldl_kept | (refine Kept.ofSnd (by assumption) ?_) | dsimp only
    | split

theorem leave_kept {r₀ : State} {c₀ : Bool} {s : State} {link : Nat} {f : RingFrame} {x16} (e₀ : leave s link f = some x16)
    (h1 : Kept c₀ r₀ s) : Kept c₀ r₀ x16 := by
  unfold leave at e₀
  repeat' first | contradiction | (injection e₀ with e₀; subst e₀) | dsimp only at e₀ | (split at e₀)
  repeat' first
    | with_reducible assumption | intro _ | with_reducible apply setEgress_kept | with_reducible apply setRPort_kept
    | with_reducible apply loseRemote_kept | with_reducible apply transmit_kept | with_reducible apply sendInside_kept
    | with_reducible apply ite_kept | with_reducible apply foldl_kept | (refine Kept.ofSnd (by assumption) ?_) | dsimp only
    | split

theorem pumpFrames_kept {r₀ : State} {c₀ : Bool} {link : Nat} {a1 : List RingFrame} {a2 : List Nat} {a3 : State}
    (h4 : Kept c₀ r₀ a3) : Kept c₀ r₀ (pumpFrames link a1 a2 a3) := by
  induction a1 generalizing a2 a3 with
  | nil =>
    unfold pumpFrames
    repeat' first
      | with_reducible assumption | intro _ | with_reducible apply ite_kept | with_reducible apply foldl_kept
      | (with_reducible refine leave_kept (by assumption) ?_) | (refine Kept.ofSnd (by assumption) ?_) | dsimp only | split
  | cons _ _ ih =>
    unfold pumpFrames
    repeat' first
      | with_reducible assumption | intro _ | with_reducible apply ih | with_reducible apply ite_kept
      | with_reducible apply foldl_kept | (with_reducible refine leave_kept (by assumption) ?_)
      | (refine Kept.ofSnd (by assumption) ?_) | dsimp only | split

theorem pumpLink_kept {r₀ : State} {c₀ : Bool} {s : State} {link : Nat} (h1 : Kept c₀ r₀ s) : Kept c₀ r₀ (pumpLink s link) := by
  unfold pumpLink
  repeat' first
    | with_reducible assumption | intro _ | with_reducible apply pumpFrames_kept | with_reducible apply ite_kept
    | with_reducible apply foldl_kept | (refine Kept.ofSnd (by assumption) ?_) | dsimp only | split

theorem sendFrame_kept {r₀ : State} {c₀ : Bool} {s : State} {link : Nat} {f : RingFrame} (h1 : Kept c₀ r₀ s)
    : Kept c₀ r₀ (sendFrame s link f) := by
  unfold sendFrame
  repeat' first
    | with_reducible assumption | intro _ | with_reducible apply setEgress_kept | with_reducible apply pumpLink_kept
    | with_reducible apply ite_kept | with_reducible apply foldl_kept | (refine Kept.ofSnd (by assumption) ?_) | dsimp only
    | split

theorem sendRemote_kept {r₀ : State} {c₀ : Bool} {s : State} {link dev rDie : Nat} {f : Flit} (h1 : Kept c₀ r₀ s)
    : Kept c₀ r₀ (sendRemote s link dev rDie f) := by
  unfold sendRemote
  repeat' first
    | with_reducible assumption | intro _ | with_reducible apply sendFrame_kept | with_reducible apply ite_kept
    | with_reducible apply foldl_kept | (refine Kept.ofSnd (by assumption) ?_) | dsimp only | split

theorem sendBack_kept {r₀ : State} {c₀ : Bool} {s : State} {link : Nat} {g : Ingress} {f : Flit} (h1 : Kept c₀ r₀ s)
    : Kept c₀ r₀ (sendBack s link g f) := by
  unfold sendBack
  repeat' first
    | with_reducible assumption | intro _ | with_reducible apply sendRemote_kept | with_reducible apply ite_kept
    | with_reducible apply foldl_kept | (refine Kept.ofSnd (by assumption) ?_) | dsimp only | split

theorem countLost_kept {r₀ : State} {c₀ : Bool} {s : State} {dev : Nat} (h1 : Kept c₀ r₀ s) : Kept c₀ r₀ (countLost s dev) := by
  unfold countLost
  repeat' first
    | with_reducible assumption | intro _ | with_reducible apply bump_kept | with_reducible apply ite_kept
    | with_reducible apply foldl_kept | with_reducible apply foldl_kept_snd | with_reducible apply foldl_kept_fst
    | (refine Kept.ofSnd (by assumption) ?_) | dsimp only | split

theorem answerIngress_kept {r₀ : State} {c₀ : Bool} {s : State} {g : Ingress} {f : Flit} (h1 : Kept c₀ r₀ s)
    : Kept c₀ r₀ (answerIngress s g f) := by
  unfold answerIngress
  repeat' first
    | with_reducible assumption | intro _ | with_reducible apply State.onRings_kept | with_reducible apply sendBack_kept
    | with_reducible apply closeReq_kept | with_reducible apply ite_kept | with_reducible apply foldl_kept
    | (refine Kept.ofSnd (by assumption) ?_) | dsimp only | split

theorem floodTopo_kept {r₀ : State} {c₀ : Bool} {s : State} {dev aux : Nat} (h1 : Kept c₀ r₀ s)
    : Kept c₀ r₀ (floodTopo s dev aux) := by
  unfold floodTopo
  repeat' first
    | with_reducible assumption | intro _ | with_reducible apply State.onRings_kept | with_reducible apply flood_kept
    | with_reducible apply ite_kept | with_reducible apply foldl_kept | (refine Kept.ofSnd (by assumption) ?_) | dsimp only
    | split

theorem twinPortCheck_kept {r₀ : State} {c₀ : Bool} {s : State} (h1 : Kept c₀ r₀ s) : Kept c₀ r₀ (twinPortCheck s) := by
  unfold twinPortCheck
  repeat' first
    | with_reducible assumption | intro _ | with_reducible apply State.onTwin_kept | with_reducible apply ite_kept
    | with_reducible apply foldl_kept | (refine Kept.ofSnd (by assumption) ?_) | dsimp only | split

theorem discardKept_kept {r₀ : State} {c₀ : Bool} {s : State} {link : Nat} (h1 : Kept c₀ r₀ s)
    : Kept c₀ r₀ (discardKept s link) := by
  unfold discardKept
  repeat' first
    | with_reducible assumption | intro _ | with_reducible apply bump_kept | with_reducible apply sendBack_kept
    | with_reducible apply setRPort_kept | with_reducible apply loseRemote_kept | with_reducible apply ite_kept
    | with_reducible apply foldl_kept | (refine Kept.ofSnd (by assumption) ?_) | dsimp only | split

end Sys2Proof.Machine
end

