-- ==== Sys2Proof/Laws/KeptJournalOps.lean ====
section
/-!
SUPPORT. What the definitions of Machine/JournalOps.lean keep (Laws/Kept.lean).
-/

set_option linter.all false

namespace Sys2Proof.Machine

open Sys2Proof

theorem pairCheck_kept {r₀ : State} {c₀ : Bool} {s : State} (h1 : Kept c₀ r₀ s) : Kept c₀ r₀ (pairCheck s) := by
  unfold pairCheck
  repeat' first
    | with_reducible assumption | intro _ | with_reducible apply State.onTwin_kept | with_reducible apply ite_kept
    | with_reducible apply foldl_kept | (refine Kept.ofSnd (by assumption) ?_) | dsimp only | split

theorem applyRecord_kept {r₀ : State} {c₀ : Bool} {s : State} {r : JRec} (h1 : Kept c₀ r₀ s) : Kept c₀ r₀ (applyRecord s r) := by
  unfold applyRecord
  repeat' first
    | with_reducible assumption | intro _ | with_reducible apply writeMem_kept | with_reducible apply bump_kept
    | with_reducible apply ite_kept | with_reducible apply foldl_kept | (refine Kept.ofSnd (by assumption) ?_) | dsimp only
    | split

theorem applyShadowStep_kept {r₀ : State} {c₀ : Bool} {s : State} {n : Nat} (h1 : Kept c₀ r₀ s)
    : Kept c₀ r₀ (applyShadowStep s n) := by
  unfold applyShadowStep
  repeat' first
    | with_reducible assumption | intro _ | with_reducible apply State.onTwin_kept | with_reducible apply pairCheck_kept
    | with_reducible apply applyRecord_kept | with_reducible apply ite_kept | with_reducible apply foldl_kept
    | (refine Kept.ofSnd (by assumption) ?_) | dsimp only | split

theorem applyReady_kept {r₀ : State} {c₀ : Bool} {s : State} {a1 : Nat} (h1 : Kept c₀ r₀ s) : Kept c₀ r₀ (applyReady s a1) := by
  induction a1 generalizing s with
  | zero =>
    unfold applyReady
    repeat' first
      | with_reducible assumption | intro _ | with_reducible apply applyShadowStep_kept | with_reducible apply ite_kept
      | with_reducible apply foldl_kept | (refine Kept.ofSnd (by assumption) ?_) | dsimp only | split
  | succ _ ih =>
    unfold applyReady
    repeat' first
      | with_reducible assumption | intro _ | with_reducible apply ih | with_reducible apply applyShadowStep_kept
      | with_reducible apply ite_kept | with_reducible apply foldl_kept | (refine Kept.ofSnd (by assumption) ?_) | dsimp only
      | split

theorem storeLog_kept {r₀ : State} {c₀ : Bool} {s : State} {kind : Nat} {r : JRec} (h1 : Kept c₀ r₀ s) : Kept c₀ r₀ (storeLog s kind r) := by
  unfold storeLog
  repeat' first
    | with_reducible assumption | intro _ | with_reducible apply writeMem_kept | with_reducible apply State.onTwin_kept
    | with_reducible apply ite_kept | with_reducible apply foldl_kept | with_reducible apply foldl_kept_snd
    | with_reducible apply foldl_kept_fst | (refine Kept.ofSnd (by assumption) ?_) | dsimp only | split

theorem relieveLog_kept {r₀ : State} {c₀ : Bool} {s : State} (h1 : Kept c₀ r₀ s) : Kept c₀ r₀ (relieveLog s) := by
  unfold relieveLog
  repeat' first
    | with_reducible assumption | intro _ | with_reducible apply State.onTwin_kept | with_reducible apply applyRecord_kept
    | with_reducible apply ite_kept | with_reducible apply foldl_kept | (refine Kept.ofSnd (by assumption) ?_) | dsimp only
    | split

theorem receiveJournal_kept {r₀ : State} {c₀ : Bool} {s : State} {kind : Nat} {r : JRec} (h1 : Kept c₀ r₀ s) : Kept c₀ r₀ (receiveJournal s kind r) := by
  unfold receiveJournal
  repeat' first
    | with_reducible assumption | intro _ | with_reducible apply applyReady_kept | with_reducible apply storeLog_kept
    | with_reducible apply State.onTwin_kept | with_reducible apply relieveLog_kept | with_reducible apply applyRecord_kept
    | with_reducible apply ite_kept | with_reducible apply foldl_kept | with_reducible apply foldl_kept_snd
    | with_reducible apply foldl_kept_fst | (refine Kept.ofSnd (by assumption) ?_) | dsimp only | split

theorem sendRecord_kept {r₀ : State} {c₀ : Bool} {s : State} {x : Nat × JRec} (h1 : Kept c₀ r₀ s)
    : Kept c₀ r₀ (sendRecord s x) := by
  unfold sendRecord
  repeat' first
    | with_reducible assumption | intro _ | with_reducible apply openReq_kept | with_reducible apply sendRemote_kept
    | with_reducible apply ite_kept | with_reducible apply foldl_kept | (refine Kept.ofSnd (by assumption) ?_) | dsimp only
    | split

theorem pumpJournal_kept {r₀ : State} {c₀ : Bool} {s : State} (h1 : Kept c₀ r₀ s) : Kept c₀ r₀ (pumpJournal s) := by
  unfold pumpJournal
  repeat' first
    | with_reducible assumption | intro _ | with_reducible apply sendRecord_kept | with_reducible apply ite_kept
    | with_reducible apply foldl_kept | (refine Kept.ofSnd (by assumption) ?_) | dsimp only | split

theorem appendJournal_kept {r₀ : State} {c₀ : Bool} {s : State} {kind k holding step offset : Nat} {data : List Byte}
    (h1 : Kept c₀ r₀ s) : Kept c₀ r₀ (appendJournal s kind k holding step offset data) := by
  unfold appendJournal
  repeat' first
    | with_reducible assumption | intro _ | with_reducible apply bumpBy_kept | with_reducible apply pumpJournal_kept
    | with_reducible apply State.took_kept | with_reducible apply State.onTwin_kept | with_reducible apply ite_kept
    | with_reducible apply foldl_kept | (refine Kept.ofSnd (by assumption) ?_) | dsimp only | split

theorem baseRange_kept {r₀ : State} {c₀ : Bool} {k id start a3 a4 a5 : Nat} {a6 : State} (h7 : Kept c₀ r₀ a6)
    : Kept c₀ r₀ (baseRange k id start a3 a4 a5 a6) := by
  induction a3 generalizing a4 a5 a6 with
  | zero =>
    unfold baseRange
    repeat' first
      | with_reducible assumption | intro _ | with_reducible apply appendJournal_kept | with_reducible apply ite_kept
      | with_reducible apply foldl_kept | (refine Kept.ofSnd (by assumption) ?_) | dsimp only | split
  | succ _ ih =>
    unfold baseRange
    repeat' first
      | with_reducible assumption | intro _ | with_reducible apply ih | with_reducible apply appendJournal_kept
      | with_reducible apply ite_kept | with_reducible apply foldl_kept | (refine Kept.ofSnd (by assumption) ?_) | dsimp only
      | split

theorem sendBase_kept {r₀ : State} {c₀ : Bool} {s : State} (h1 : Kept c₀ r₀ s) : Kept c₀ r₀ (sendBase s) := by
  unfold sendBase
  repeat' first
    | with_reducible assumption | intro _ | with_reducible apply baseRange_kept | with_reducible apply appendJournal_kept
    | with_reducible apply State.onTwin_kept | with_reducible apply ite_kept | with_reducible apply foldl_kept
    | (refine Kept.ofSnd (by assumption) ?_) | dsimp only | split

theorem enterBase_kept {r₀ : State} {c₀ : Bool} {s : State} {st : Nat} {send : Bool} (h1 : Kept c₀ r₀ s)
    : Kept c₀ r₀ (enterBase s st send) := by
  unfold enterBase
  repeat' first
    | with_reducible assumption | intro _ | with_reducible apply State.onTwin_kept | with_reducible apply sendBase_kept
    | with_reducible apply ite_kept | with_reducible apply foldl_kept | (refine Kept.ofSnd (by assumption) ?_) | dsimp only
    | split

theorem journalEnd_kept {r₀ : State} {c₀ : Bool} {s : State} {k n : Nat} (h1 : Kept c₀ r₀ s) : Kept c₀ r₀ (journalEnd s k n) := by
  unfold journalEnd
  repeat' first
    | with_reducible assumption | intro _ | with_reducible apply appendJournal_kept | with_reducible apply ite_kept
    | with_reducible apply foldl_kept | (refine Kept.ofSnd (by assumption) ?_) | dsimp only | split

theorem journalWrite_kept {r₀ : State} {c₀ : Bool} {s : State} {k a step : Nat} {bs : List Byte} (h1 : Kept c₀ r₀ s)
    : Kept c₀ r₀ (journalWrite s k a step bs) := by
  unfold journalWrite
  repeat' first
    | with_reducible assumption | intro _ | with_reducible apply appendJournal_kept | with_reducible apply ite_kept
    | with_reducible apply foldl_kept | (refine Kept.ofSnd (by assumption) ?_) | dsimp only | split

end Sys2Proof.Machine
end

