-- ==== Sys2Proof/Laws/KeptF32.lean ====
section
/-!
SUPPORT. What the definitions of Machine/F32.lean keep (Laws/Kept.lean).
-/

set_option linter.all false

namespace Sys2Proof.Machine

open Sys2Proof

theorem freeVal_kept {r₀ : State} {c₀ : Bool} {s : State} (h1 : Kept c₀ r₀ s) : Kept c₀ r₀ (freeVal s).2 := by
  unfold freeVal
  repeat' first
    | with_reducible assumption | intro _ | with_reducible apply State.took_kept | with_reducible apply ite_kept
    | with_reducible apply ite_kept_snd | with_reducible apply foldl_kept | with_reducible apply foldl_kept_snd
    | (refine Kept.ofSnd (by assumption) ?_) | dsimp only | split

end Sys2Proof.Machine
end

