-- ==== Sys2Proof/Laws/KeptSecOps.lean ====
section
/-!
SUPPORT. What the definitions of Machine/SecOps.lean keep (Laws/Kept.lean).
-/

set_option linter.all false

namespace Sys2Proof.Machine

open Sys2Proof

theorem appendAlm_kept {r₀ : State} {c₀ : Bool} {s : State} {id version : Nat} {data : List Byte} (h1 : Kept c₀ r₀ s)
    : Kept c₀ r₀ (appendAlm s id version data) := by
  unfold appendAlm
  repeat' first
    | with_reducible assumption | intro _ | with_reducible apply State.onSec_kept | with_reducible apply ite_kept
    | with_reducible apply foldl_kept | (refine Kept.ofSnd (by assumption) ?_) | dsimp only | split

theorem acceptCounter_kept {r₀ : State} {c₀ : Bool} {s : State} {slot : Nat} {k : Key} {ctr : Nat} (h1 : Kept c₀ r₀ s)
    : Kept c₀ r₀ (acceptCounter s slot k ctr) := by
  unfold acceptCounter
  repeat' first
    | with_reducible assumption | intro _ | with_reducible apply appendAlm_kept | with_reducible apply State.onSec_kept
    | with_reducible apply ite_kept | with_reducible apply foldl_kept | (refine Kept.ofSnd (by assumption) ?_) | dsimp only
    | split

theorem critical_kept {r₀ : State} {c₀ : Bool} {s : State} {h : Hdr} {t : Trailer} {body : State → State} (h1 : Kept c₀ r₀ s)
    (h4 : (∀ (y04 : State), Kept c₀ r₀ y04 → Kept c₀ r₀ (body y04))) : Kept c₀ r₀ (critical s h t body) := by
  unfold critical
  repeat' first
    | with_reducible assumption | intro _ | with_reducible apply complete_kept | with_reducible apply runDesc_kept
    | with_reducible apply acceptCounter_kept | with_reducible apply h4 | with_reducible apply ite_kept
    | with_reducible apply foldl_kept | (refine Kept.ofSnd (by assumption) ?_) | dsimp only | split

theorem restoreFw_kept {r₀ : State} {c₀ : Bool} {s : State} {ok : Bool} (h1 : Kept c₀ r₀ s) : Kept c₀ r₀ (restoreFw s ok) := by
  unfold restoreFw
  repeat' first
    | with_reducible assumption | intro _ | with_reducible apply State.onSec_kept | with_reducible apply setSticky_kept
    | with_reducible apply ite_kept | with_reducible apply foldl_kept | (refine Kept.ofSnd (by assumption) ?_) | dsimp only
    | split

theorem migrateAlm_kept {r₀ : State} {c₀ : Bool} {s : State} (h1 : Kept c₀ r₀ s) : Kept c₀ r₀ (migrateAlm s) := by
  unfold migrateAlm
  repeat' first
    | with_reducible assumption | intro _ | with_reducible apply appendAlm_kept | with_reducible apply State.onSec_kept
    | with_reducible apply ite_kept | with_reducible apply foldl_kept | (refine Kept.ofSnd (by assumption) ?_) | dsimp only
    | split

theorem requestWarm_kept {r₀ : State} {c₀ : Bool} {s : State} {cause : Nat} (h1 : Kept c₀ r₀ s)
    : Kept c₀ r₀ (requestWarm s cause) := by
  unfold requestWarm
  repeat' first
    | with_reducible assumption | intro _ | (with_reducible refine State.onSv_kept ?_ (fun _ h => h))
    | with_reducible apply ite_kept | with_reducible apply foldl_kept | (refine Kept.ofSnd (by assumption) ?_) | dsimp only
    | split

theorem confirmFw_kept {r₀ : State} {c₀ : Bool} {s : State} (h1 : Kept c₀ r₀ s) : Kept c₀ r₀ (confirmFw s) := by
  unfold confirmFw
  repeat' first
    | with_reducible assumption | intro _ | with_reducible apply appendAlm_kept | with_reducible apply State.onSec_kept
    | with_reducible apply ite_kept | with_reducible apply foldl_kept | (refine Kept.ofSnd (by assumption) ?_) | dsimp only
    | split

end Sys2Proof.Machine
end

