-- ==== Sys2Proof/Laws/KeptRegOps.lean ====
section
/-!
SUPPORT. What the definitions of Machine/RegOps.lean keep (Laws/Kept.lean).
-/

set_option linter.all false

namespace Sys2Proof.Machine

open Sys2Proof

theorem badDoorbell_kept {r₀ : State} {c₀ : Bool} {s : State} (h1 : Kept c₀ r₀ s) : Kept c₀ r₀ (badDoorbell s) := by
  unfold badDoorbell
  repeat' first
    | with_reducible assumption | intro _ | with_reducible apply bump_kept | with_reducible apply setSticky_kept
    | with_reducible apply ite_kept | with_reducible apply foldl_kept | (refine Kept.ofSnd (by assumption) ?_) | dsimp only
    | split

theorem ringDoorbell_kept {r₀ : State} {c₀ : Bool} {s : State} {q v : Nat} (h1 : Kept c₀ r₀ s)
    : Kept c₀ r₀ (ringDoorbell s q v) := by
  unfold ringDoorbell
  repeat' first
    | with_reducible assumption | intro _ | with_reducible apply setQueue_kept | with_reducible apply badDoorbell_kept
    | with_reducible apply ite_kept | with_reducible apply foldl_kept | (refine Kept.ofSnd (by assumption) ?_) | dsimp only
    | split

theorem writeCounter_kept {r₀ : State} {c₀ : Bool} {s : State} {d off v : Nat} (h1 : Kept c₀ r₀ s)
    : Kept c₀ r₀ (writeCounter s d off v) := by
  unfold writeCounter
  repeat' first
    | with_reducible assumption | intro _ | (with_reducible refine State.onRegs_kept ?_ (fun _ h => ?_))
    | with_reducible apply keep_wf | with_reducible apply keep_rising | with_reducible apply del_rising
    | with_reducible apply put_rising | with_reducible apply ite_kept | with_reducible apply foldl_kept
    | (refine Kept.ofSnd (by assumption) ?_) | dsimp only | split

theorem countRecovery_kept {r₀ : State} {c₀ : Bool} {s : State} (h1 : Kept c₀ r₀ s) : Kept c₀ r₀ (countRecovery s) := by
  unfold countRecovery
  repeat' first
    | with_reducible assumption | intro _ | with_reducible apply emitSounding_kept
    | (with_reducible refine State.onSv_kept ?_ (fun _ h => h)) | with_reducible apply ite_kept | with_reducible apply foldl_kept
    | with_reducible apply foldl_kept_snd | with_reducible apply foldl_kept_fst | (refine Kept.ofSnd (by assumption) ?_)
    | dsimp only | split

theorem mboxDone_kept {r₀ : State} {c₀ : Bool} {s : State} {lo hi : Nat} (h1 : Kept c₀ r₀ s) : Kept c₀ r₀ (mboxDone s lo hi) := by
  unfold mboxDone
  repeat' first
    | with_reducible assumption | intro _ | with_reducible apply State.onHost_kept | with_reducible apply State.onQm_kept
    | with_reducible apply ite_kept | with_reducible apply foldl_kept | (refine Kept.ofSnd (by assumption) ?_) | dsimp only
    | split

theorem expireArmed_kept {r₀ : State} {c₀ : Bool} {s : State} {d : Nat} (h1 : Kept c₀ r₀ s) : Kept c₀ r₀ (expireArmed s d) := by
  unfold expireArmed
  repeat' first
    | with_reducible assumption | intro _ | with_reducible apply countExpiry_kept | with_reducible apply endEarly_kept
    | with_reducible apply ite_kept | with_reducible apply foldl_kept | (refine Kept.ofSnd (by assumption) ?_) | dsimp only
    | split

theorem expireErred_kept {r₀ : State} {c₀ : Bool} {s : State} (h1 : Kept c₀ r₀ s) : Kept c₀ r₀ (expireErred s) := by
  unfold expireErred
  repeat' first
    | with_reducible assumption | intro _ | with_reducible apply expireArmed_kept | with_reducible apply ite_kept
    | with_reducible apply foldl_kept | (refine Kept.ofSnd (by assumption) ?_) | dsimp only | split

theorem clearSticky_kept {r₀ : State} {c₀ : Bool} {s : State} {l : List Nat} (h1 : Kept c₀ r₀ s) : Kept c₀ r₀ (clearSticky s l) := by
  unfold clearSticky
  repeat' first
    | with_reducible assumption | intro _ | with_reducible apply countRecovery_kept
    | (with_reducible refine State.onSv_kept ?_ (fun _ h => h)) | with_reducible apply ite_kept | with_reducible apply foldl_kept
    | with_reducible apply foldl_kept_snd | with_reducible apply foldl_kept_fst | (refine Kept.ofSnd (by assumption) ?_)
    | dsimp only | split

theorem writeFaultClear_kept {r₀ : State} {c₀ : Bool} {s : State} {i v : Nat} (h1 : Kept c₀ r₀ s)
    : Kept c₀ r₀ (writeFaultClear s i v) := by
  unfold writeFaultClear
  repeat' first
    | with_reducible assumption | intro _ | with_reducible apply clearSticky_kept | with_reducible apply ite_kept
    | with_reducible apply foldl_kept | (refine Kept.ofSnd (by assumption) ?_) | dsimp only | split

theorem snapStall_kept {r₀ : State} {c₀ : Bool} {s : State} (h1 : Kept c₀ r₀ s) : Kept c₀ r₀ (snapStall s) := by
  unfold snapStall
  repeat' first
    | with_reducible assumption | intro _ | with_reducible apply bumpBy_kept | with_reducible apply State.took_kept
    | with_reducible apply ite_kept | with_reducible apply foldl_kept | with_reducible apply foldl_kept_snd
    | with_reducible apply foldl_kept_fst | (refine Kept.ofSnd (by assumption) ?_) | dsimp only | split

theorem writeQctl_kept {r₀ : State} {c₀ : Bool} {s : State} {v : Nat} (h1 : Kept c₀ r₀ s) : Kept c₀ r₀ (writeQctl s v) := by
  unfold writeQctl
  repeat' first
    | with_reducible assumption | intro _ | with_reducible apply setQueue_kept | with_reducible apply ite_kept
    | with_reducible apply foldl_kept | (refine Kept.ofSnd (by assumption) ?_) | dsimp only | split

theorem writeWarmReq_kept {r₀ : State} {c₀ : Bool} {s : State} {a : Agent} {v : Nat} (h1 : Kept c₀ r₀ s)
    : Kept c₀ r₀ (writeWarmReq s a v) := by
  unfold writeWarmReq
  repeat' first
    | with_reducible assumption | intro _ | with_reducible apply requestWarm_kept | with_reducible apply ite_kept
    | with_reducible apply foldl_kept | (refine Kept.ofSnd (by assumption) ?_) | dsimp only | split

theorem sampleDatum_kept {r₀ : State} {c₀ : Bool} {s : State} {bad : Bool} {n d : Nat} (h1 : Kept c₀ r₀ s)
    : Kept c₀ r₀ (sampleDatum s bad n d) := by
  unfold sampleDatum
  repeat' first
    | with_reducible assumption | intro _ | with_reducible apply State.onCk_kept | with_reducible apply setSticky_kept
    | with_reducible apply expireArmed_kept | with_reducible apply State.onQm_kept | with_reducible apply ite_kept
    | with_reducible apply foldl_kept | (refine Kept.ofSnd (by assumption) ?_) | dsimp only | split

theorem datumSampled_kept {r₀ : State} {c₀ : Bool} {s : State} {bad : List Nat} {n : Nat} (h1 : Kept c₀ r₀ s)
    : Kept c₀ r₀ (datumSampled s bad n) := by
  unfold datumSampled
  repeat' first
    | with_reducible assumption | intro _ | with_reducible apply sampleDatum_kept | with_reducible apply State.onCk_kept
    | with_reducible apply ite_kept | with_reducible apply foldl_kept | (refine Kept.ofSnd (by assumption) ?_) | dsimp only
    | split

theorem dropRequests_kept {r₀ : State} {c₀ : Bool} {s : State} {n : Nat} (h1 : Kept c₀ r₀ s) : Kept c₀ r₀ (dropRequests s n) := by
  unfold dropRequests
  repeat' first
    | with_reducible assumption | intro _ | with_reducible apply emitSounding_kept | with_reducible apply State.onCk_kept
    | with_reducible apply ite_kept | with_reducible apply foldl_kept | with_reducible apply foldl_kept_snd
    | with_reducible apply foldl_kept_fst | (refine Kept.ofSnd (by assumption) ?_) | dsimp only | split

theorem resyncDatum_kept {r₀ : State} {c₀ : Bool} {s : State} (h1 : Kept c₀ r₀ s) : Kept c₀ r₀ (resyncDatum s) := by
  unfold resyncDatum
  repeat' first
    | with_reducible assumption | intro _ | with_reducible apply expireErred_kept | with_reducible apply State.onCk_kept
    | with_reducible apply datumSampled_kept | with_reducible apply dropRequests_kept | with_reducible apply expireArmed_kept
    | with_reducible apply ite_kept | with_reducible apply foldl_kept | with_reducible apply foldl_kept_snd
    | with_reducible apply foldl_kept_fst | (refine Kept.ofSnd (by assumption) ?_) | dsimp only | split

theorem writeTcCredit_kept {r₀ : State} {c₀ : Bool} {s : State} {d : Nat} {a : Agent} {v : Nat} (h1 : Kept c₀ r₀ s)
    : Kept c₀ r₀ (writeTcCredit s d a v) := by
  unfold writeTcCredit
  repeat' first
    | with_reducible assumption | intro _ | with_reducible apply State.onGz_kept | with_reducible apply ite_kept
    | with_reducible apply foldl_kept | (refine Kept.ofSnd (by assumption) ?_) | dsimp only | split

theorem postMbox_kept {r₀ : State} {c₀ : Bool} {s : State} (h1 : Kept c₀ r₀ s) : Kept c₀ r₀ (postMbox s) := by
  unfold postMbox
  repeat' first
    | with_reducible assumption | intro _ | with_reducible apply setQueue_kept | with_reducible apply writeMem_kept
    | with_reducible apply mboxDone_kept | with_reducible apply State.onHost_kept | with_reducible apply State.took_kept
    | with_reducible apply ite_kept | with_reducible apply foldl_kept | (refine Kept.ofSnd (by assumption) ?_) | dsimp only
    | split

theorem writeRhead_kept {r₀ : State} {c₀ : Bool} {s : State} {v : Nat} (h1 : Kept c₀ r₀ s) : Kept c₀ r₀ (writeRhead s v) := by
  unfold writeRhead
  repeat' first
    | with_reducible assumption | intro _ | with_reducible apply bump_kept | with_reducible apply setRing_kept
    | with_reducible apply ite_kept | with_reducible apply foldl_kept | (refine Kept.ofSnd (by assumption) ?_) | dsimp only
    | split

theorem writeGzCtl_kept {r₀ : State} {c₀ : Bool} {s : State} {d v : Nat} (h1 : Kept c₀ r₀ s) : Kept c₀ r₀ (writeGzCtl s d v) := by
  unfold writeGzCtl
  repeat' first
    | with_reducible assumption | intro _ | with_reducible apply State.onGz_kept | with_reducible apply ite_kept
    | with_reducible apply foldl_kept | (refine Kept.ofSnd (by assumption) ?_) | dsimp only | split

theorem writeInject_kept {r₀ : State} {c₀ : Bool} {s : State} {v : Nat} (h1 : Kept c₀ r₀ s) : Kept c₀ r₀ (writeInject s v) := by
  unfold writeInject
  repeat' first
    | with_reducible assumption | intro _ | with_reducible apply State.onMu_kept | with_reducible apply setSticky_kept
    | with_reducible apply State.onTw_kept | (with_reducible refine State.onSv_kept ?_ (fun _ h => h))
    | with_reducible apply ite_kept | with_reducible apply foldl_kept | (refine Kept.ofSnd (by assumption) ?_) | dsimp only
    | split

theorem writePanelRst_kept {r₀ : State} {c₀ : Bool} {s : State} {v : Nat} (h1 : Kept c₀ r₀ s) : Kept c₀ r₀ (writePanelRst s v) := by
  unfold writePanelRst
  repeat' first
    | with_reducible assumption | intro _ | with_reducible apply regSet_kept
    | (with_reducible refine State.onSv_kept ?_ (fun _ h => h)) | with_reducible apply ite_kept | with_reducible apply foldl_kept
    | (refine Kept.ofSnd (by assumption) ?_) | dsimp only | split

theorem restartCore_kept {r₀ : State} {c₀ : Bool} {s : State} {g : Nat} (h1 : Kept c₀ r₀ s) : Kept c₀ r₀ (restartCore s g) := by
  unfold restartCore
  repeat' first
    | with_reducible assumption | intro _ | with_reducible apply State.onMu_kept | with_reducible apply zeroTile_kept
    | with_reducible apply State.onTw_kept | with_reducible apply ite_kept | with_reducible apply foldl_kept
    | (refine Kept.ofSnd (by assumption) ?_) | dsimp only | split

theorem resetPanel_kept {r₀ : State} {c₀ : Bool} {s : State} {p : Nat} (h1 : Kept c₀ r₀ s) : Kept c₀ r₀ (resetPanel s p) := by
  unfold resetPanel
  repeat' first
    | with_reducible assumption | intro _ | with_reducible apply setQueue_kept | with_reducible apply State.onMu_kept
    | with_reducible apply restartCore_kept | with_reducible apply setStrm_kept | with_reducible apply State.onGz_kept
    | with_reducible apply liftFence_kept | with_reducible apply releaseSlot_kept | with_reducible apply ite_kept
    | with_reducible apply foldl_kept | (refine Kept.ofSnd (by assumption) ?_) | dsimp only | split

theorem jumpRemote_kept {r₀ : State} {c₀ : Bool} {s : State} {m : Rec} {j : Nat} (h1 : Kept c₀ r₀ s)
    : Kept c₀ r₀ (jumpRemote s m j) := by
  unfold jumpRemote
  repeat' first
    | with_reducible assumption | intro _ | with_reducible apply State.onRings_kept | with_reducible apply ite_kept
    | with_reducible apply foldl_kept | (refine Kept.ofSnd (by assumption) ?_) | dsimp only | split

theorem writeMcCtl_kept {r₀ : State} {c₀ : Bool} {s : State} {d v : Nat} (h1 : Kept c₀ r₀ s) : Kept c₀ r₀ (writeMcCtl s d v) := by
  unfold writeMcCtl
  repeat' first
    | with_reducible assumption | intro _ | with_reducible apply jumpRemote_kept | with_reducible apply setRecv_kept
    | with_reducible apply reserveSlot_kept | with_reducible apply ite_kept | with_reducible apply foldl_kept
    | (refine Kept.ofSnd (by assumption) ?_) | dsimp only | split

theorem requestDatum_kept {r₀ : State} {c₀ : Bool} {s : State} (h1 : Kept c₀ r₀ s) : Kept c₀ r₀ (requestDatum s) := by
  unfold requestDatum
  repeat' first
    | with_reducible assumption | intro _ | with_reducible apply State.onCk_kept | with_reducible apply dropRequests_kept
    | with_reducible apply ite_kept | with_reducible apply foldl_kept | with_reducible apply foldl_kept_snd
    | with_reducible apply foldl_kept_fst | (refine Kept.ofSnd (by assumption) ?_) | dsimp only | split

theorem writeFwConfirm_kept {r₀ : State} {c₀ : Bool} {s : State} {a : Agent} {v : Nat} (h1 : Kept c₀ r₀ s)
    : Kept c₀ r₀ (writeFwConfirm s a v) := by
  unfold writeFwConfirm
  repeat' first
    | with_reducible assumption | intro _ | with_reducible apply confirmFw_kept | with_reducible apply ite_kept
    | with_reducible apply foldl_kept | (refine Kept.ofSnd (by assumption) ?_) | dsimp only | split

theorem writeHstreamFill_kept {r₀ : State} {c₀ : Bool} {s : State} {v : Nat} (h1 : Kept c₀ r₀ s)
    : Kept c₀ r₀ (writeHstreamFill s v) := by
  unfold writeHstreamFill
  repeat' first
    | with_reducible assumption | intro _ | with_reducible apply bumpBy_kept | with_reducible apply setStrm_kept
    | with_reducible apply showFull_kept | with_reducible apply ite_kept | with_reducible apply foldl_kept
    | (refine Kept.ofSnd (by assumption) ?_) | dsimp only | split

theorem writePlan_kept {r₀ : State} {c₀ : Bool} {s : State} {d : Nat} {a : Agent} {v : Nat} (h1 : Kept c₀ r₀ s)
    : Kept c₀ r₀ (writePlan s d a v) := by
  unfold writePlan
  repeat' first
    | with_reducible assumption | intro _ | with_reducible apply State.onCk_kept | with_reducible apply ite_kept
    | with_reducible apply foldl_kept | (refine Kept.ofSnd (by assumption) ?_) | dsimp only | split

theorem writeTokenIn_kept {r₀ : State} {c₀ : Bool} {s : State} {d v : Nat} (h1 : Kept c₀ r₀ s)
    : Kept c₀ r₀ (writeTokenIn s d v) := by
  unfold writeTokenIn
  repeat' first
    | with_reducible assumption | intro _ | with_reducible apply applyToken_kept | with_reducible apply regSet_kept
    | (with_reducible refine State.onRegs_kept ?_ (fun _ h => ?_)) | with_reducible apply keep_wf
    | with_reducible apply keep_rising | with_reducible apply del_rising | with_reducible apply put_rising
    | with_reducible apply ite_kept | with_reducible apply foldl_kept | (refine Kept.ofSnd (by assumption) ?_) | dsimp only
    | split

theorem writeDirCtl_kept {r₀ : State} {c₀ : Bool} {s : State} {d v : Nat} (h1 : Kept c₀ r₀ s) : Kept c₀ r₀ (writeDirCtl s d v) := by
  unfold writeDirCtl
  repeat' first
    | with_reducible assumption | intro _ | with_reducible apply regSet_kept | with_reducible apply ite_kept
    | with_reducible apply foldl_kept | (refine Kept.ofSnd (by assumption) ?_) | dsimp only | split

theorem ringWrite_kept {r₀ : State} {c₀ : Bool} {s : State} {da size at_ : Nat} {a4 : List Byte} (h1 : Kept c₀ r₀ s)
    : Kept c₀ r₀ (ringWrite s da size at_ a4) := by
  induction a4 generalizing s at_ with
  | nil =>
    unfold ringWrite
    repeat' first
      | with_reducible assumption | intro _ | with_reducible apply writeMem_kept | with_reducible apply ite_kept
      | with_reducible apply foldl_kept | (refine Kept.ofSnd (by assumption) ?_) | dsimp only | split
  | cons _ _ ih =>
    unfold ringWrite
    repeat' first
      | with_reducible assumption | intro _ | with_reducible apply ih | with_reducible apply writeMem_kept
      | with_reducible apply ite_kept | with_reducible apply foldl_kept | (refine Kept.ofSnd (by assumption) ?_) | dsimp only
      | split

theorem writeDatumCtl_kept {r₀ : State} {c₀ : Bool} {s : State} {v : Nat} (h1 : Kept c₀ r₀ s) : Kept c₀ r₀ (writeDatumCtl s v) := by
  unfold writeDatumCtl
  repeat' first
    | with_reducible assumption | intro _ | with_reducible apply requestDatum_kept | with_reducible apply resyncDatum_kept
    | with_reducible apply ite_kept | with_reducible apply foldl_kept | (refine Kept.ofSnd (by assumption) ?_) | dsimp only
    | split

theorem writeCtCtl_kept {r₀ : State} {c₀ : Bool} {s : State} {v : Nat} (h1 : Kept c₀ r₀ s) : Kept c₀ r₀ (writeCtCtl s v) := by
  unfold writeCtCtl
  repeat' first
    | with_reducible assumption | intro _ | with_reducible apply State.onCt_kept | with_reducible apply ite_kept
    | with_reducible apply foldl_kept | (refine Kept.ofSnd (by assumption) ?_) | dsimp only | split

theorem pumpSnap_kept {r₀ : State} {c₀ : Bool} {s : State} (h1 : Kept c₀ r₀ s) : Kept c₀ r₀ (pumpSnap s) := by
  unfold pumpSnap
  repeat' first
    | with_reducible assumption | intro _ | with_reducible apply finish_kept | with_reducible apply State.onSnap_kept
    | with_reducible apply ringWrite_kept | with_reducible apply snapStall_kept | with_reducible apply ite_kept
    | with_reducible apply foldl_kept | with_reducible apply foldl_kept_snd | with_reducible apply foldl_kept_fst
    | (refine Kept.ofSnd (by assumption) ?_) | dsimp only | split

theorem writeHostRel_kept {r₀ : State} {c₀ : Bool} {s : State} {v : Nat} (h1 : Kept c₀ r₀ s) : Kept c₀ r₀ (writeHostRel s v) := by
  unfold writeHostRel
  repeat' first
    | with_reducible assumption | intro _ | with_reducible apply pumpSnap_kept | with_reducible apply regSet_kept
    | with_reducible apply ite_kept | with_reducible apply foldl_kept | (refine Kept.ofSnd (by assumption) ?_) | dsimp only
    | split

theorem startMbox_kept {r₀ : State} {c₀ : Bool} {s : State} {v : Nat} (h1 : Kept c₀ r₀ s) : Kept c₀ r₀ (startMbox s v) := by
  unfold startMbox
  repeat' first
    | with_reducible assumption | intro _ | with_reducible apply bump_kept | with_reducible apply State.onHost_kept
    | with_reducible apply postMbox_kept | with_reducible apply ite_kept | with_reducible apply foldl_kept
    | (refine Kept.ofSnd (by assumption) ?_) | dsimp only | split

end Sys2Proof.Machine
end

