-- ==== Sys2Proof/Laws/KeptImage.lean ====
section
/-!
SUPPORT. What the definitions of Machine/Image.lean keep (Laws/Kept.lean).
-/

set_option linter.all false

namespace Sys2Proof.Machine

open Sys2Proof

theorem openRings_kept {r₀ : State} {c₀ : Bool} {s : State} (h1 : Kept c₀ r₀ s) : Kept c₀ r₀ (openRings s) := by
  unfold openRings
  repeat' first
    | with_reducible assumption | intro _ | with_reducible apply dropCause_kept
    | (with_reducible refine State.onSv_kept ?_ (fun _ h => h)) | with_reducible apply ite_kept | with_reducible apply foldl_kept
    | (refine Kept.ofSnd (by assumption) ?_) | dsimp only | split

theorem setReason_kept {r₀ : State} {c₀ : Bool} {s : State} {why sec rec_ : Nat} (h1 : Kept c₀ r₀ s)
    : Kept c₀ r₀ (setReason s why sec rec_) := by
  unfold setReason
  repeat' first
    | with_reducible assumption | intro _ | with_reducible apply State.onImg_kept | with_reducible apply ite_kept
    | with_reducible apply foldl_kept | (refine Kept.ofSnd (by assumption) ?_) | dsimp only | split

theorem settleFar_kept {r₀ : State} {c₀ : Bool} {s : State} (h1 : Kept c₀ r₀ s) : Kept c₀ r₀ (settleFar s) := by
  unfold settleFar
  repeat' first
    | with_reducible assumption | intro _ | with_reducible apply storeMem_kept
    | (with_reducible refine State.onMem_kept ?_ (fun _ h => ?_) (fun _ h => ?_) (fun _ h => ?_)) | exact writeCells_wf _ _ _ h
    | with_reducible apply insAll_rising | with_reducible apply ins_rising | with_reducible apply List.Pairwise.filter
    | with_reducible apply keep_wf | with_reducible apply keep_rising | with_reducible apply del_rising
    | with_reducible apply put_rising | with_reducible apply ite_kept | with_reducible apply foldl_kept
    | (refine Kept.ofSnd (by assumption) ?_) | dsimp only | split

theorem zeroRange_kept {r₀ : State} {c₀ : Bool} {s : State} {r : Range} (h1 : Kept c₀ r₀ s) : Kept c₀ r₀ (zeroRange s r) := by
  unfold zeroRange
  repeat' first
    | with_reducible assumption | intro _
    | (with_reducible refine State.onMem_kept ?_ (fun _ h => ?_) (fun _ h => ?_) (fun _ h => ?_)) | exact writeCells_wf _ _ _ h
    | with_reducible apply insAll_rising | with_reducible apply ins_rising | with_reducible apply List.Pairwise.filter
    | with_reducible apply keep_wf | with_reducible apply keep_rising | with_reducible apply del_rising
    | with_reducible apply put_rising | with_reducible apply ite_kept | with_reducible apply foldl_kept
    | (refine Kept.ofSnd (by assumption) ?_) | dsimp only | split

theorem changeHoldings_kept {r₀ : State} {c₀ : Bool} {s : State} {takeover : Bool} {i : Image} (h1 : Kept c₀ r₀ s)
    : Kept c₀ r₀ (changeHoldings s takeover i) := by
  unfold changeHoldings
  refine State.onMem_kept (foldl_kept (settleFar_kept h1) fun _ _ k => zeroRange_kept k) (fun m h => ?_) (fun m h => ?_) (fun _ h => h)
  · suffices ∀ (l : List (FMap Byte × List Nat)) (c : FMap Byte), Memory.wf c = true → Memory.wf
        (l.foldl (fun c b => b.1.foldl (fun c p => writeCell c p.1 p.2) c) c) = true from this _ _ h
    intro l
    induction l with
    | nil => exact fun _ h => h
    | cons b l ih => exact fun c h => ih _ (foldl_writeCell_wf b.1 c h)
  · suffices ∀ (l : List (FMap Byte × List Nat)) (c : List Nat), c.Pairwise (· < ·) →
        (l.foldl (fun c b => insAll c b.2) c).Pairwise (· < ·) from this _ _ h
    intro l
    induction l with
    | nil => exact fun _ h => h
    | cons b l ih => exact fun c h => ih _ (insAll_rising b.2 c h)

theorem clearLedgers_kept {r₀ : State} {c₀ : Bool} {s : State} (h1 : Kept c₀ r₀ s) : Kept c₀ r₀ (clearLedgers s) := by
  unfold clearLedgers
  repeat' first
    | with_reducible assumption | intro _ | with_reducible apply State.onMu_kept | with_reducible apply ite_kept
    | with_reducible apply foldl_kept | (refine Kept.ofSnd (by assumption) ?_) | dsimp only | split

theorem loadTables_kept {r₀ : State} {c₀ : Bool} {s : State} (h1 : Kept c₀ r₀ s) : Kept c₀ r₀ (loadTables s) := by
  unfold loadTables
  repeat' first
    | with_reducible assumption | intro _ | with_reducible apply State.onImg_kept | with_reducible apply State.onCk_kept
    | with_reducible apply State.onTw_kept | with_reducible apply ite_kept | with_reducible apply foldl_kept
    | (refine Kept.ofSnd (by assumption) ?_) | dsimp only | split

theorem loadRoutes_kept {r₀ : State} {c₀ : Bool} {s : State} {i : Image} (h1 : Kept c₀ r₀ s) : Kept c₀ r₀ (loadRoutes s i) := by
  unfold loadRoutes
  repeat' first
    | with_reducible assumption | intro _ | with_reducible apply State.onGz_kept | with_reducible apply ite_kept
    | with_reducible apply foldl_kept | (refine Kept.ofSnd (by assumption) ?_) | dsimp only | split

theorem loadDepths_kept {r₀ : State} {c₀ : Bool} {s : State} {i : Image} (h1 : Kept c₀ r₀ s) : Kept c₀ r₀ (loadDepths s i) := by
  unfold loadDepths
  repeat' first
    | with_reducible assumption | intro _ | with_reducible apply State.onGz_kept | with_reducible apply ite_kept
    | with_reducible apply foldl_kept | (refine Kept.ofSnd (by assumption) ?_) | dsimp only | split

theorem loadStreams_kept {r₀ : State} {c₀ : Bool} {s : State} (h1 : Kept c₀ r₀ s) : Kept c₀ r₀ (loadStreams s) := by
  unfold loadStreams
  repeat' first
    | with_reducible assumption | intro _ | with_reducible apply State.onStreams_kept | with_reducible apply ite_kept
    | with_reducible apply foldl_kept | (refine Kept.ofSnd (by assumption) ?_) | dsimp only | split

theorem setUpImage_kept {r₀ : State} {c₀ : Bool} {s : State} {i : Image} (h1 : Kept c₀ r₀ s) : Kept c₀ r₀ (setUpImage s i) := by
  unfold setUpImage
  repeat' first
    | with_reducible assumption | intro _ | with_reducible apply State.onRings_kept | with_reducible apply State.onImg_kept
    | with_reducible apply loadTables_kept | with_reducible apply loadRoutes_kept | with_reducible apply State.onTwin_kept
    | with_reducible apply loadDepths_kept | with_reducible apply resyncDatum_kept | with_reducible apply openRings_kept
    | with_reducible apply loadStreams_kept | with_reducible apply dropCause_kept | with_reducible apply ite_kept
    | with_reducible apply foldl_kept | with_reducible apply foldl_kept_snd | with_reducible apply foldl_kept_fst
    | (refine Kept.ofSnd (by assumption) ?_) | dsimp only | split

theorem loadQueues_kept {r₀ : State} {c₀ : Bool} {s : State} (h1 : Kept c₀ r₀ s) : Kept c₀ r₀ (loadQueues s) := by
  unfold loadQueues
  repeat' first
    | with_reducible assumption | intro _ | with_reducible apply State.onQm_kept | with_reducible apply reserveSlot_kept
    | with_reducible apply ite_kept | with_reducible apply foldl_kept | (refine Kept.ofSnd (by assumption) ?_) | dsimp only
    | split

theorem countDropped_kept {r₀ : State} {c₀ : Bool} {s : State} (h1 : Kept c₀ r₀ s) : Kept c₀ r₀ (countDropped s) := by
  unfold countDropped
  repeat' first
    | with_reducible assumption | intro _ | with_reducible apply bumpBy_kept | with_reducible apply ite_kept
    | with_reducible apply foldl_kept | (refine Kept.ofSnd (by assumption) ?_) | dsimp only | split

theorem raiseFloor_kept {r₀ : State} {c₀ : Bool} {s : State} {i : Image} (h1 : Kept c₀ r₀ s) : Kept c₀ r₀ (raiseFloor s i) := by
  unfold raiseFloor
  repeat' first
    | with_reducible assumption | intro _ | with_reducible apply appendAlm_kept | with_reducible apply ite_kept
    | with_reducible apply foldl_kept | (refine Kept.ofSnd (by assumption) ?_) | dsimp only | split

theorem commit_kept {r₀ : State} {c₀ : Bool} {s : State} {x : Staged} (h1 : Kept c₀ r₀ s) : Kept c₀ r₀ (commit s x) := by
  unfold commit
  repeat' first
    | with_reducible assumption | intro _ | with_reducible apply bump_kept | with_reducible apply setUpImage_kept
    | with_reducible apply bumpBy_kept | with_reducible apply loadQueues_kept | with_reducible apply setReason_kept
    | with_reducible apply countDropped_kept | with_reducible apply resetPanel_kept | with_reducible apply raiseFloor_kept
    | with_reducible apply clearLedgers_kept | with_reducible apply changeHoldings_kept | with_reducible apply ite_kept
    | with_reducible apply foldl_kept | (refine Kept.ofSnd (by assumption) ?_) | dsimp only | split

theorem tellTwin_kept {r₀ : State} {c₀ : Bool} {s : State} {m : Nat} (h1 : Kept c₀ r₀ s) : Kept c₀ r₀ (tellTwin s m) := by
  unfold tellTwin
  repeat' first
    | with_reducible assumption | intro _ | with_reducible apply State.onTwin_kept | with_reducible apply ite_kept
    | with_reducible apply foldl_kept | (refine Kept.ofSnd (by assumption) ?_) | dsimp only | split

theorem copyMem_kept {r₀ : State} {c₀ : Bool} {s : State} {src dst n : Nat} (h1 : Kept c₀ r₀ s)
    : Kept c₀ r₀ (copyMem s src dst n) := by
  unfold copyMem
  repeat' first
    | with_reducible assumption | intro _ | with_reducible apply writeMem_kept | with_reducible apply poisonSectors_kept
    | with_reducible apply ite_kept | with_reducible apply foldl_kept | (refine Kept.ofSnd (by assumption) ?_) | dsimp only
    | split

theorem refuseLoad_kept {r₀ : State} {c₀ : Bool} {s : State} {h : Hdr} {n : LoadNo} (h1 : Kept c₀ r₀ s)
    : Kept c₀ r₀ (refuseLoad s h n) := by
  unfold refuseLoad
  repeat' first
    | with_reducible assumption | intro _ | with_reducible apply State.onGz_kept | with_reducible apply setReason_kept
    | with_reducible apply complete_kept | with_reducible apply ite_kept | with_reducible apply foldl_kept
    | (refine Kept.ofSnd (by assumption) ?_) | dsimp only | split

theorem stageLoad_kept {r₀ : State} {c₀ : Bool} {s : State} {h : Hdr} {op : LoadOp} {kind : Nat} {i : Image} (h1 : Kept c₀ r₀ s)
    : Kept c₀ r₀ (stageLoad s h op kind i) := by
  unfold stageLoad
  repeat' first
    | with_reducible assumption | intro _ | with_reducible apply State.onImg_kept | with_reducible apply markStarted_kept
    | with_reducible apply refuseLoad_kept | with_reducible apply ite_kept | with_reducible apply foldl_kept
    | (refine Kept.ofSnd (by assumption) ?_) | dsimp only | split

theorem sourceChecks_kept {r₀ : State} {c₀ : Bool} {s : State} {op : LoadOp} (h1 : Kept c₀ r₀ s)
    : Kept c₀ r₀ (sourceChecks s op).2 := by
  unfold sourceChecks
  repeat' first
    | with_reducible assumption | intro _ | with_reducible apply checkRead_kept | with_reducible apply ite_kept
    | with_reducible apply ite_kept_snd | with_reducible apply foldl_kept | with_reducible apply foldl_kept_snd
    | (refine Kept.ofSnd (by assumption) ?_) | dsimp only | split

theorem execTnHandback_kept {r₀ : State} {c₀ : Bool} {h : Hdr} {op : LoadOp} {s : State} {t₀}
    (e₀ : execTnHandback h op s = .next t₀) (h3 : Kept c₀ r₀ s) : Kept c₀ r₀ t₀ := by
  unfold execTnHandback at e₀
  repeat' first | contradiction | (injection e₀ with e₀; subst e₀) | dsimp only at e₀ | (split at e₀)
  repeat' first
    | with_reducible assumption | intro _ | with_reducible apply stageLoad_kept | with_reducible apply complete_kept
    | with_reducible apply refuseLoad_kept | with_reducible apply sourceChecks_kept | with_reducible apply runDesc_kept
    | with_reducible apply ite_kept | with_reducible apply ite_kept_snd | with_reducible apply foldl_kept
    | with_reducible apply foldl_kept_snd | (refine Kept.ofSnd (by assumption) ?_) | dsimp only | split

theorem execTwinTakeover_kept {r₀ : State} {c₀ : Bool} {h : Hdr} {t : Trailer} {op : LoadOp} {s : State} {t₀}
    (e₀ : execTwinTakeover h t op s = .next t₀) (h4 : Kept c₀ r₀ s) : Kept c₀ r₀ t₀ := by
  unfold execTwinTakeover at e₀
  repeat' first | contradiction | (injection e₀ with e₀; subst e₀) | dsimp only at e₀ | (split at e₀)
  repeat' first
    | with_reducible assumption | intro _ | with_reducible apply applyReady_kept | with_reducible apply tellTwin_kept
    | with_reducible apply stageLoad_kept | with_reducible apply complete_kept | with_reducible apply refuseLoad_kept
    | with_reducible apply State.onTwin_kept | with_reducible apply sourceChecks_kept | with_reducible apply critical_kept
    | with_reducible apply ite_kept | with_reducible apply ite_kept_snd | with_reducible apply foldl_kept
    | with_reducible apply foldl_kept_snd | (refine Kept.ofSnd (by assumption) ?_) | dsimp only | split

theorem execImageLoad_kept {r₀ : State} {c₀ : Bool} {h : Hdr} {t : Trailer} {op : LoadOp} {s : State} {t₀}
    (e₀ : execImageLoad h t op s = .next t₀) (h4 : Kept c₀ r₀ s) : Kept c₀ r₀ t₀ := by
  unfold execImageLoad at e₀
  repeat' first | contradiction | (injection e₀ with e₀; subst e₀) | dsimp only at e₀ | (split at e₀)
  repeat' first
    | with_reducible assumption | intro _ | with_reducible apply stageLoad_kept | with_reducible apply refuseLoad_kept
    | with_reducible apply sourceChecks_kept | with_reducible apply critical_kept | with_reducible apply ite_kept
    | with_reducible apply ite_kept_snd | with_reducible apply foldl_kept | with_reducible apply foldl_kept_snd
    | (refine Kept.ofSnd (by assumption) ?_) | dsimp only | split

theorem endLoad_kept {r₀ : State} {c₀ : Bool} {s : State} {x : Staged} (h1 : Kept c₀ r₀ s) : Kept c₀ r₀ (endLoad s x) := by
  unfold endLoad
  repeat' first
    | with_reducible assumption | intro _ | with_reducible apply enterBase_kept | with_reducible apply complete_kept
    | with_reducible apply ite_kept | with_reducible apply foldl_kept | (refine Kept.ofSnd (by assumption) ?_) | dsimp only
    | split

theorem rowHome_kept {r₀ : State} {c₀ : Bool} {s : State} {x : Nat × DirEntry} (h1 : Kept c₀ r₀ s) : Kept c₀ r₀ (rowHome s x) := by
  unfold rowHome
  repeat' first
    | with_reducible assumption | intro _ | with_reducible apply bump_kept | with_reducible apply copyMem_kept
    | with_reducible apply storeDir_kept | with_reducible apply ite_kept | with_reducible apply foldl_kept
    | (refine Kept.ofSnd (by assumption) ?_) | dsimp only | split

theorem endHandback_kept {r₀ : State} {c₀ : Bool} {s : State} {x : Staged} (h1 : Kept c₀ r₀ s) : Kept c₀ r₀ (endHandback s x) := by
  unfold endHandback
  repeat' first
    | with_reducible assumption | intro _ | with_reducible apply enterBase_kept | with_reducible apply tellTwin_kept
    | with_reducible apply complete_kept | with_reducible apply State.onTwin_kept | with_reducible apply flood_kept
    | with_reducible apply ite_kept | with_reducible apply foldl_kept | (refine Kept.ofSnd (by assumption) ?_) | dsimp only
    | split

theorem endTakeover_kept {r₀ : State} {c₀ : Bool} {s : State} {x : Staged} (h1 : Kept c₀ r₀ s) : Kept c₀ r₀ (endTakeover s x) := by
  unfold endTakeover
  repeat' first
    | with_reducible assumption | intro _ | with_reducible apply complete_kept | with_reducible apply State.onTwin_kept
    | with_reducible apply flood_kept | with_reducible apply ite_kept | with_reducible apply foldl_kept
    | (refine Kept.ofSnd (by assumption) ?_) | dsimp only | split

theorem execCommitPoint_kept {r₀ : State} {c₀ : Bool} {s : State} {t₀} (e₀ : execCommitPoint s = .next t₀) (h1 : Kept c₀ r₀ s)
    : Kept c₀ r₀ t₀ := by
  unfold execCommitPoint at e₀
  repeat' first | contradiction | (injection e₀ with e₀; subst e₀) | dsimp only at e₀ | (split at e₀)
  repeat' first
    | with_reducible assumption | intro _ | with_reducible apply State.onImg_kept | with_reducible apply rowHome_kept
    | with_reducible apply commit_kept | with_reducible apply endHandback_kept | with_reducible apply refuseLoad_kept
    | with_reducible apply endLoad_kept | with_reducible apply endTakeover_kept | with_reducible apply ite_kept
    | with_reducible apply foldl_kept | (refine Kept.ofSnd (by assumption) ?_) | dsimp only | split

end Sys2Proof.Machine
end

