-- ==== Sys2Proof/Laws/KeptLedgerOps.lean ====
section
/-!
SUPPORT. What the definitions of Machine/LedgerOps.lean keep (Laws/Kept.lean).
-/

set_option linter.all false

namespace Sys2Proof.Machine

open Sys2Proof

theorem pageSlot_kept {r₀ : State} {c₀ : Bool} {s : State} {k n : Nat} (h1 : Kept c₀ r₀ s) : Kept c₀ r₀ (pageSlot s k n).2 := by
  unfold pageSlot
  repeat' first
    | with_reducible assumption | intro _ | with_reducible apply bump_kept | with_reducible apply copyMem_kept
    | with_reducible apply storeDir_kept | with_reducible apply ite_kept | with_reducible apply ite_kept_snd
    | with_reducible apply foldl_kept | with_reducible apply foldl_kept_snd | (refine Kept.ofSnd (by assumption) ?_) | dsimp only
    | split

theorem pageInNow_kept {r₀ : State} {c₀ : Bool} {s : State} {k t row : Nat} (h1 : Kept c₀ r₀ s)
    : Kept c₀ r₀ (pageInNow s k t row).2 := by
  unfold pageInNow
  repeat' first
    | with_reducible assumption | intro _ | with_reducible apply writeMem_kept | with_reducible apply bump_kept
    | with_reducible apply markPoisoned_kept | with_reducible apply checkRead_kept | with_reducible apply pageSlot_kept
    | with_reducible apply setDir_kept | with_reducible apply ite_kept | with_reducible apply ite_kept_snd
    | with_reducible apply foldl_kept | with_reducible apply foldl_kept_snd | (refine Kept.ofSnd (by assumption) ?_) | dsimp only
    | split

theorem flagPending_kept {r₀ : State} {c₀ : Bool} {s : State} {k t row : Nat} {f : Bool} (h1 : Kept c₀ r₀ s)
    : Kept c₀ r₀ (flagPending s k t row f) := by
  unfold flagPending
  repeat' first
    | with_reducible assumption | intro _ | with_reducible apply storeDir_kept | with_reducible apply ite_kept
    | with_reducible apply foldl_kept | (refine Kept.ofSnd (by assumption) ?_) | dsimp only | split

theorem pendEntry_kept {r₀ : State} {c₀ : Bool} {s : State} {k t row : Nat} {e : Entry} {x23}
    (e₀ : pendEntry s k t row e = some x23) (h1 : Kept c₀ r₀ s) : Kept c₀ r₀ x23 := by
  unfold pendEntry at e₀
  repeat' first | contradiction | (injection e₀ with e₀; subst e₀) | dsimp only at e₀ | (split at e₀)
  repeat' first
    | with_reducible assumption | intro _ | with_reducible apply State.onMu_kept | with_reducible apply flagPending_kept
    | with_reducible apply pageInNow_kept | with_reducible apply ite_kept | with_reducible apply ite_kept_snd
    | with_reducible apply foldl_kept | with_reducible apply foldl_kept_snd | (refine Kept.ofSnd (by assumption) ?_) | dsimp only
    | split

theorem writeWords_kept {r₀ : State} {c₀ : Bool} {s : State} {a : Nat} {a2 : List Byte} (h1 : Kept c₀ r₀ s)
    : Kept c₀ r₀ (writeWords s a a2) := by
  induction a2 generalizing s a with
  | nil =>
    unfold writeWords
    repeat' first
      | with_reducible assumption | intro _ | with_reducible apply State.onMu_kept | with_reducible apply ite_kept
      | with_reducible apply foldl_kept | (refine Kept.ofSnd (by assumption) ?_) | dsimp only | split
  | cons _ _ ih =>
    unfold writeWords
    repeat' first
      | with_reducible assumption | intro _ | with_reducible apply ih | with_reducible apply State.onMu_kept
      | with_reducible apply ite_kept | with_reducible apply foldl_kept | (refine Kept.ofSnd (by assumption) ?_) | dsimp only
      | split

theorem viewWrite_kept {r₀ : State} {c₀ : Bool} {s : State} {a : Nat} {bs : List Byte} (h1 : Kept c₀ r₀ s)
    : Kept c₀ r₀ (viewWrite s a bs) := by
  unfold viewWrite
  repeat' first
    | with_reducible assumption | intro _ | with_reducible apply writeMem_kept | with_reducible apply writeWords_kept
    | with_reducible apply ite_kept | with_reducible apply foldl_kept | (refine Kept.ofSnd (by assumption) ?_) | dsimp only
    | split

theorem forwardAdd_kept {r₀ : State} {c₀ : Bool} {s : State} {k : Nat} {m : AddMsg} {ledger : Nat} (h1 : Kept c₀ r₀ s)
    : Kept c₀ r₀ (forwardAdd s k m ledger) := by
  unfold forwardAdd
  repeat' first
    | with_reducible assumption | intro _ | with_reducible apply sendAdd_kept | with_reducible apply noteFwd_kept
    | with_reducible apply ite_kept | with_reducible apply foldl_kept | (refine Kept.ofSnd (by assumption) ?_) | dsimp only
    | split

theorem takeAdd_kept {r₀ : State} {c₀ : Bool} {s : State} {k : Nat} {m : AddMsg} (h1 : Kept c₀ r₀ s)
    : Kept c₀ r₀ (takeAdd s k m).2 := by
  unfold takeAdd
  repeat' first
    | with_reducible assumption | intro _ | with_reducible apply applyAdd_kept | with_reducible apply answerAdd_kept
    | with_reducible apply ite_kept | with_reducible apply ite_kept_snd | with_reducible apply foldl_kept
    | with_reducible apply foldl_kept_snd | (refine Kept.ofSnd (by assumption) ?_) | dsimp only | split

theorem routeAdd_kept {r₀ : State} {c₀ : Bool} {s : State} {k : Nat} {m : AddMsg} {row : Nat} (h1 : Kept c₀ r₀ s)
    : Kept c₀ r₀ (routeAdd s k m row) := by
  unfold routeAdd
  repeat' first
    | with_reducible assumption | intro _ | with_reducible apply bump_kept | with_reducible apply survey_kept
    | with_reducible apply forwardAdd_kept | with_reducible apply noteFwd_kept | with_reducible apply setDir_kept
    | with_reducible apply hotAdd_kept | with_reducible apply takeAdd_kept | with_reducible apply answerAdd_kept
    | with_reducible apply ite_kept | with_reducible apply ite_kept_snd | with_reducible apply foldl_kept
    | with_reducible apply foldl_kept_snd | (refine Kept.ofSnd (by assumption) ?_) | dsimp only | split

theorem finishSeals_kept {r₀ : State} {c₀ : Bool} {s : State} (h1 : Kept c₀ r₀ s) : Kept c₀ r₀ (finishSeals s) := by
  unfold finishSeals
  repeat' first
    | with_reducible assumption | intro _ | with_reducible apply State.onMu_kept | with_reducible apply complete_kept
    | with_reducible apply ite_kept | with_reducible apply foldl_kept | (refine Kept.ofSnd (by assumption) ?_) | dsimp only
    | split

end Sys2Proof.Machine
end

