-- ==== Sys2Proof/Laws/KeptRemoteOps.lean ====
section
/-!
SUPPORT. What the definitions of Machine/RemoteOps.lean keep (Laws/Kept.lean).
-/

set_option linter.all false

namespace Sys2Proof.Machine

open Sys2Proof

theorem leaveGauze_kept {r₀ : State} {c₀ : Bool} {s : State} {link : Nat} {peer : Nat × Nat} {f : Flit} (h1 : Kept c₀ r₀ s)
    : Kept c₀ r₀ (leaveGauze s link peer f) := by
  unfold leaveGauze
  repeat' first
    | with_reducible assumption | intro _ | with_reducible apply sendRemote_kept | with_reducible apply ite_kept
    | with_reducible apply foldl_kept | (refine Kept.ofSnd (by assumption) ?_) | dsimp only | split

theorem arriveAdd_kept {r₀ : State} {c₀ : Bool} {s : State} {m : AddMsg} (h1 : Kept c₀ r₀ s) : Kept c₀ r₀ (arriveAdd s m).2 := by
  unfold arriveAdd
  repeat' first
    | with_reducible assumption | intro _ | with_reducible apply sendAdd_kept | with_reducible apply State.onGz_kept
    | with_reducible apply ite_kept | with_reducible apply ite_kept_snd | with_reducible apply foldl_kept
    | with_reducible apply foldl_kept_snd | (with_reducible refine goes_kept (by assumption) ?_)
    | (refine goes_kept (x15 := (_, _)) (by assumption) ?_) | (refine Kept.ofSnd (by assumption) ?_) | dsimp only | split

theorem requestRemote_kept {r₀ : State} {c₀ : Bool} {s : State} {r : OutReq} {f : Flit} {rDie : Nat} (h1 : Kept c₀ r₀ s)
    : Kept c₀ r₀ (requestRemote s r f rDie) := by
  unfold requestRemote
  repeat' first
    | with_reducible assumption | intro _ | with_reducible apply leaveGauze_kept | with_reducible apply sendOne_kept
    | with_reducible apply openReq_kept | with_reducible apply sendInside_kept | with_reducible apply ite_kept
    | with_reducible apply foldl_kept | (refine Kept.ofSnd (by assumption) ?_) | dsimp only | split

end Sys2Proof.Machine
end

