-- ==== Sys2Proof/Laws/KeptStreamOps.lean ====
section
/-!
SUPPORT. What the definitions of Machine/StreamOps.lean keep (Laws/Kept.lean).
-/

set_option linter.all false

namespace Sys2Proof.Machine

open Sys2Proof

theorem takeRestart_kept {r₀ : State} {c₀ : Bool} {s : State} {n : Nat} {r : Rec} (h1 : Kept c₀ r₀ s)
    : Kept c₀ r₀ (takeRestart s n r) := by
  unfold takeRestart
  repeat' first
    | with_reducible assumption | intro _ | with_reducible apply setStrm_kept | with_reducible apply complete_kept
    | with_reducible apply ite_kept | with_reducible apply foldl_kept | (refine Kept.ofSnd (by assumption) ?_) | dsimp only
    | split

theorem checkReads_kept {r₀ : State} {c₀ : Bool} {s : State} {rs : List Range} (h1 : Kept c₀ r₀ s)
    : Kept c₀ r₀ (checkReads s rs).2 := by
  unfold checkReads
  repeat' first
    | with_reducible assumption | intro _ | with_reducible apply checkRead_kept | with_reducible apply ite_kept
    | with_reducible apply ite_kept_snd | with_reducible apply foldl_kept | with_reducible apply foldl_kept_snd
    | (refine Kept.ofSnd (by assumption) ?_) | dsimp only | split

theorem nextSeg_kept {r₀ : State} {c₀ : Bool} {s : State} {n : Nat} {r : Rec} (h1 : Kept c₀ r₀ s) : Kept c₀ r₀ (nextSeg s n r) := by
  unfold nextSeg
  repeat' first
    | with_reducible assumption | intro _ | with_reducible apply takeRestart_kept | with_reducible apply setStrm_kept
    | with_reducible apply ite_kept | with_reducible apply foldl_kept | (refine Kept.ofSnd (by assumption) ?_) | dsimp only
    | split

theorem readUpTo_kept {r₀ : State} {c₀ : Bool} {s : State} {a1 : List Range} (h1 : Kept c₀ r₀ s)
    : Kept c₀ r₀ (readUpTo s a1).2.2 := by
  induction a1 generalizing s with
  | nil =>
    unfold readUpTo
    repeat' first
      | with_reducible assumption | intro _ | with_reducible apply readSector_kept | with_reducible apply ite_kept
      | with_reducible apply ite_kept_snd | with_reducible apply foldl_kept | with_reducible apply foldl_kept_snd
      | (refine Kept.ofSnd (by assumption) ?_) | dsimp only | split
  | cons _ _ ih =>
    unfold readUpTo
    repeat' first
      | with_reducible assumption | intro _ | with_reducible apply ih | with_reducible apply readSector_kept
      | with_reducible apply ite_kept | with_reducible apply ite_kept_snd | with_reducible apply foldl_kept
      | with_reducible apply foldl_kept_snd | (refine Kept.ofSnd (by assumption) ?_) | dsimp only | split

theorem winPut_kept {r₀ : State} {c₀ : Bool} {s : State} {r : Rec} {off : Nat} {bs : List Byte} (h1 : Kept c₀ r₀ s)
    : Kept c₀ r₀ (winPut s r off bs) := by
  unfold winPut
  repeat' first
    | with_reducible assumption | intro _ | with_reducible apply writeMem_kept | with_reducible apply cbWrite_kept
    | with_reducible apply bumpCore_kept | with_reducible apply ite_kept | with_reducible apply foldl_kept
    | (refine Kept.ofSnd (by assumption) ?_) | dsimp only | split

theorem winWrite_kept {r₀ : State} {c₀ : Bool} {s : State} {r : Rec} {p : Nat} {bs : List Byte} (h1 : Kept c₀ r₀ s)
    : Kept c₀ r₀ (winWrite s r p bs) := by
  unfold winWrite
  repeat' first
    | with_reducible assumption | intro _ | with_reducible apply winPut_kept | with_reducible apply ite_kept
    | with_reducible apply foldl_kept | (refine Kept.ofSnd (by assumption) ?_) | dsimp only | split

theorem windowFault_kept {r₀ : State} {c₀ : Bool} {bad : Bool} {r : Rec} {s : State} (h3 : Kept c₀ r₀ s)
    : Kept c₀ r₀ (windowFault bad r s) := by
  unfold windowFault
  repeat' first
    | with_reducible assumption | intro _ | with_reducible apply panelFaultAt_kept | with_reducible apply ite_kept
    | with_reducible apply foldl_kept | (refine Kept.ofSnd (by assumption) ?_) | dsimp only | split

theorem produceBytes_kept {r₀ : State} {c₀ : Bool} {s : State} {n : Nat} {r : Rec} {e : Bool × List Range} {m : Nat}
    (h1 : Kept c₀ r₀ s) : Kept c₀ r₀ (produceBytes s n r e m) := by
  unfold produceBytes
  repeat' first
    | with_reducible assumption | intro _ | with_reducible apply abortStream_kept | with_reducible apply readUpTo_kept
    | with_reducible apply winWrite_kept | with_reducible apply setStrm_kept | with_reducible apply windowFault_kept
    | with_reducible apply ite_kept | with_reducible apply ite_kept_snd | with_reducible apply foldl_kept
    | with_reducible apply foldl_kept_snd | (refine Kept.ofSnd (by assumption) ?_) | dsimp only | split

theorem produce_kept {r₀ : State} {c₀ : Bool} {s : State} {n : Nat} {r : Rec} {x15} (e₀ : produce s n r = some x15)
    (h1 : Kept c₀ r₀ s) : Kept c₀ r₀ x15 := by
  unfold produce at e₀
  repeat' first | contradiction | (injection e₀ with e₀; subst e₀) | dsimp only at e₀ | (split at e₀)
  repeat' first
    | with_reducible assumption | intro _ | with_reducible apply takeRestart_kept | with_reducible apply setStrm_kept
    | with_reducible apply nextSeg_kept | with_reducible apply produceBytes_kept | with_reducible apply ite_kept
    | with_reducible apply foldl_kept | (refine Kept.ofSnd (by assumption) ?_) | dsimp only | split

theorem sendStrmReg_kept {r₀ : State} {c₀ : Bool} {s : State} {dev die stream : Nat} {payload : List Byte} (h1 : Kept c₀ r₀ s)
    : Kept c₀ r₀ (sendStrmReg s dev die stream payload) := by
  unfold sendStrmReg
  repeat' first
    | with_reducible assumption | intro _ | with_reducible apply sendRemote_kept | with_reducible apply ite_kept
    | with_reducible apply foldl_kept | (refine Kept.ofSnd (by assumption) ?_) | dsimp only | split

theorem sendAcked_kept {r₀ : State} {c₀ : Bool} {s : State} {m : Rec} {acked : Nat} {resume : Bool} (h1 : Kept c₀ r₀ s)
    : Kept c₀ r₀ (sendAcked s m acked resume) := by
  unfold sendAcked
  repeat' first
    | with_reducible assumption | intro _ | with_reducible apply sendFlit_kept | with_reducible apply ite_kept
    | with_reducible apply foldl_kept | (refine Kept.ofSnd (by assumption) ?_) | dsimp only | split

theorem mcHold_kept {r₀ : State} {c₀ : Bool} {s : State} {m : Rec} {lo hi : Nat} (h1 : Kept c₀ r₀ s)
    : Kept c₀ r₀ (mcHold s m lo hi) := by
  unfold mcHold
  repeat' first
    | with_reducible assumption | intro _ | with_reducible apply setStrm_kept | with_reducible apply setRecv_kept
    | with_reducible apply sendAcked_kept | with_reducible apply ite_kept | with_reducible apply foldl_kept
    | (refine Kept.ofSnd (by assumption) ?_) | dsimp only | split

theorem catchUp_kept {r₀ : State} {c₀ : Bool} {s : State} {n : Nat} (h1 : Kept c₀ r₀ s) : Kept c₀ r₀ (catchUp s n) := by
  unfold catchUp
  repeat' first
    | with_reducible assumption | intro _ | with_reducible apply mcHold_kept | with_reducible apply ite_kept
    | with_reducible apply foldl_kept | (refine Kept.ofSnd (by assumption) ?_) | dsimp only | split

theorem sendCredits_kept {r₀ : State} {c₀ : Bool} {s : State} {n k : Nat} {r : Rec} (h1 : Kept c₀ r₀ s)
    : Kept c₀ r₀ (sendCredits s n k r) := by
  unfold sendCredits
  repeat' first
    | with_reducible assumption | intro _ | with_reducible apply sendStrmReg_kept | with_reducible apply ite_kept
    | with_reducible apply foldl_kept | (refine Kept.ofSnd (by assumption) ?_) | dsimp only | split

theorem settleStrm_kept {r₀ : State} {c₀ : Bool} {s : State} {n : Nat} {r : Rec} (h1 : Kept c₀ r₀ s)
    : Kept c₀ r₀ (settleStrm s n r) := by
  unfold settleStrm
  repeat' first
    | with_reducible assumption | intro _ | with_reducible apply setStrm_kept | with_reducible apply showFull_kept
    | with_reducible apply ite_kept | with_reducible apply foldl_kept | (refine Kept.ofSnd (by assumption) ?_) | dsimp only
    | split

theorem produceAll_kept {r₀ : State} {c₀ : Bool} {n : Nat} {r : Rec} {a2 : Nat} {a3 : State} (h4 : Kept c₀ r₀ a3)
    : Kept c₀ r₀ (produceAll n r a2 a3) := by
  induction a2 generalizing a3 with
  | zero =>
    unfold produceAll
    repeat' first
      | with_reducible assumption | intro _ | with_reducible apply ite_kept | with_reducible apply foldl_kept
      | (with_reducible refine produce_kept (by assumption) ?_) | (refine Kept.ofSnd (by assumption) ?_) | dsimp only | split
  | succ _ ih =>
    unfold produceAll
    repeat' first
      | with_reducible assumption | intro _ | with_reducible apply ih | with_reducible apply ite_kept
      | with_reducible apply foldl_kept | (with_reducible refine produce_kept (by assumption) ?_)
      | (refine Kept.ofSnd (by assumption) ?_) | dsimp only | split

theorem askReplay_kept {r₀ : State} {c₀ : Bool} {s : State} {n : Nat} {r : Rec} (h1 : Kept c₀ r₀ s)
    : Kept c₀ r₀ (askReplay s n r) := by
  unfold askReplay
  repeat' first
    | with_reducible assumption | intro _ | with_reducible apply setRecv_kept | with_reducible apply sendAcked_kept
    | with_reducible apply ite_kept | with_reducible apply foldl_kept | (refine Kept.ofSnd (by assumption) ?_) | dsimp only
    | split

theorem pump_kept {r₀ : State} {c₀ : Bool} {s : State} {n : Nat} (h1 : Kept c₀ r₀ s) : Kept c₀ r₀ (pump s n) := by
  unfold pump
  repeat' first
    | with_reducible assumption | intro _ | with_reducible apply produceAll_kept | with_reducible apply settleStrm_kept
    | with_reducible apply catchUp_kept | with_reducible apply ite_kept | with_reducible apply foldl_kept
    | (refine Kept.ofSnd (by assumption) ?_) | dsimp only | split

theorem releaseBytes_kept {r₀ : State} {c₀ : Bool} {s : State} {n bytes : Nat} {r : Rec} (h1 : Kept c₀ r₀ s)
    : Kept c₀ r₀ (releaseBytes s n bytes r) := by
  unfold releaseBytes
  repeat' first
    | with_reducible assumption | intro _ | with_reducible apply setStrm_kept | with_reducible apply pump_kept
    | with_reducible apply askReplay_kept | with_reducible apply sendCredits_kept | with_reducible apply ite_kept
    | with_reducible apply foldl_kept | (refine Kept.ofSnd (by assumption) ?_) | dsimp only | split

end Sys2Proof.Machine
end

