-- ==== Sys2Proof/Laws/KeptLedger.lean ====
section
/-!
SUPPORT. What the definitions of Machine/Ledger.lean keep (Laws/Kept.lean).
-/

set_option linter.all false

namespace Sys2Proof.Machine

open Sys2Proof

theorem sendDense_kept {r₀ : State} {c₀ : Bool} {s : State} {h : Hdr} {o : LedgerAddOp} {j : Nat} {x19}
    (e₀ : sendDense s h o j = some x19) (h1 : Kept c₀ r₀ s) : Kept c₀ r₀ x19 := by
  unfold sendDense at e₀
  repeat' first | contradiction | (injection e₀ with e₀; subst e₀) | dsimp only at e₀ | (split at e₀)
  repeat' first
    | with_reducible assumption | intro _ | with_reducible apply bumpBy_kept | with_reducible apply sendAdd_kept
    | with_reducible apply noteLoss_kept | with_reducible apply requestRemote_kept | with_reducible apply openReq_kept
    | with_reducible apply State.onQm_kept | with_reducible apply ite_kept | with_reducible apply foldl_kept
    | (refine Kept.ofSnd (by assumption) ?_) | dsimp only | split

theorem copyEntries_kept {r₀ : State} {c₀ : Bool} {s : State} {lo ln t row region entries : Nat} {x42}
    (e₀ : copyEntries s lo ln t row region entries = some x42) (h1 : Kept c₀ r₀ s) : Kept c₀ r₀ x42 := by
  unfold copyEntries at e₀
  split at e₀
  · cases e₀; exact h1
  · obtain ⟨u, e, rfl⟩ := Option.map_eq_some_iff.mp e₀
    have k : Kept c₀ r₀ u := by
      refine foldl_bind_kept e h1 fun s b t e k => ?_
      dsimp only at e
      split at e
      · cases e; exact k
      · split at e
        · exact absurd e (by simp)
        · rw [← Option.some.inj e]; exact State.onMu_kept k
    exact rowEntries_kept k

theorem execMigrationAbandon_kept {r₀ : State} {c₀ : Bool} {owner table row : Nat} {s : State} {t₀}
    (e₀ : execMigrationAbandon owner table row s = .next t₀) (h4 : Kept c₀ r₀ s) : Kept c₀ r₀ t₀ := by
  unfold execMigrationAbandon at e₀
  repeat' first | contradiction | (injection e₀ with e₀; subst e₀) | dsimp only at e₀ | (split at e₀)
  repeat' first
    | with_reducible assumption | intro _ | with_reducible apply abandonMove_kept | with_reducible apply finishSeals_kept
    | with_reducible apply ite_kept | with_reducible apply foldl_kept | (refine Kept.ofSnd (by assumption) ?_) | dsimp only
    | split

theorem startInvalidation_kept {r₀ : State} {c₀ : Bool} {s : State} {k : Nat} (h1 : Kept c₀ r₀ s)
    : Kept c₀ r₀ (startInvalidation s k) := by
  unfold startInvalidation
  repeat' first
    | with_reducible assumption | intro _ | with_reducible apply State.onMu_kept | with_reducible apply ite_kept
    | with_reducible apply foldl_kept | (refine Kept.ofSnd (by assumption) ?_) | dsimp only | split

theorem retryPatches_kept {r₀ : State} {c₀ : Bool} {s : State} {k : Nat} (h1 : Kept c₀ r₀ s) : Kept c₀ r₀ (retryPatches s k) := by
  unfold retryPatches
  repeat' first
    | with_reducible assumption | intro _ | with_reducible apply startPatch_kept | with_reducible apply ite_kept
    | with_reducible apply foldl_kept | (refine Kept.ofSnd (by assumption) ?_) | dsimp only | split

theorem abandonDraining_kept {r₀ : State} {c₀ : Bool} {s : State} {k : Nat} (h1 : Kept c₀ r₀ s)
    : Kept c₀ r₀ (abandonDraining s k) := by
  unfold abandonDraining
  repeat' first
    | with_reducible assumption | intro _ | with_reducible apply abandonMove_kept | with_reducible apply ite_kept
    | with_reducible apply foldl_kept | (refine Kept.ofSnd (by assumption) ?_) | dsimp only | split

theorem dropLost_kept {r₀ : State} {c₀ : Bool} {s : State} {k n : Nat} (h1 : Kept c₀ r₀ s) : Kept c₀ r₀ (dropLost s k n) := by
  unfold dropLost
  repeat' first
    | with_reducible assumption | intro _ | with_reducible apply State.onMu_kept | with_reducible apply flagPending_kept
    | with_reducible apply bumpBy_kept | with_reducible apply reportLate_kept | with_reducible apply ite_kept
    | with_reducible apply foldl_kept | (refine Kept.ofSnd (by assumption) ?_) | dsimp only | split

theorem sealNow_kept {r₀ : State} {c₀ : Bool} {s : State} {k : Nat} {h : Hdr} (h1 : Kept c₀ r₀ s) : Kept c₀ r₀ (sealNow s k h) := by
  unfold sealNow
  repeat' first
    | with_reducible assumption | intro _ | with_reducible apply State.onMu_kept | with_reducible apply startInvalidation_kept
    | with_reducible apply retryPatches_kept | with_reducible apply abandonDraining_kept | with_reducible apply finishSeals_kept
    | with_reducible apply dropLost_kept | with_reducible apply ite_kept | with_reducible apply foldl_kept
    | (refine Kept.ofSnd (by assumption) ?_) | dsimp only | split

theorem execSealTakesEffect_kept {r₀ : State} {c₀ : Bool} {muslin : Nat} {s : State} {t₀}
    (e₀ : execSealTakesEffect muslin s = .next t₀) (h2 : Kept c₀ r₀ s) : Kept c₀ r₀ t₀ := by
  unfold execSealTakesEffect at e₀
  repeat' first | contradiction | (injection e₀ with e₀; subst e₀) | dsimp only at e₀ | (split at e₀)
  repeat' first
    | with_reducible assumption | intro _ | with_reducible apply State.onMu_kept | with_reducible apply sealNow_kept
    | with_reducible apply complete_kept | with_reducible apply ite_kept | with_reducible apply foldl_kept
    | (refine Kept.ofSnd (by assumption) ?_) | dsimp only | split

theorem releaseQueued_kept {r₀ : State} {c₀ : Bool} {k ln : Nat} {sealed : Bool} {row : Nat} {s : State} {m : AddMsg}
    (h5 : Kept c₀ r₀ s) : Kept c₀ r₀ (releaseQueued k ln sealed row s m) := by
  unfold releaseQueued
  repeat' first
    | with_reducible assumption | intro _ | with_reducible apply bump_kept | with_reducible apply forwardAdd_kept
    | with_reducible apply placeRow_kept | with_reducible apply answerAdd_kept | with_reducible apply ite_kept
    | with_reducible apply ite_kept_snd | with_reducible apply foldl_kept | with_reducible apply foldl_kept_snd
    | (refine Kept.ofSnd (by assumption) ?_) | dsimp only | split

theorem switchRow_kept {r₀ : State} {c₀ : Bool} {s : State} {k t row : Nat} {e : DirEntry} (h1 : Kept c₀ r₀ s)
    : Kept c₀ r₀ (switchRow s k t row e) := by
  unfold switchRow
  repeat' first
    | with_reducible assumption | intro _ | with_reducible apply bump_kept | with_reducible apply finishSeals_kept
    | with_reducible apply complete_kept | with_reducible apply releaseQueued_kept | with_reducible apply setDir_kept
    | with_reducible apply closeRow_kept | with_reducible apply ite_kept | with_reducible apply foldl_kept
    | (refine Kept.ofSnd (by assumption) ?_) | dsimp only | split

theorem rewriteRow_kept {r₀ : State} {c₀ : Bool} {s : State} {k t row : Nat} {bs : List Byte} (h1 : Kept c₀ r₀ s)
    : Kept c₀ r₀ (rewriteRow s k t row bs) := by
  unfold rewriteRow
  repeat' first
    | with_reducible assumption | intro _ | with_reducible apply State.onMu_kept | with_reducible apply writeMem_kept
    | with_reducible apply clearPoison_kept | with_reducible apply storeDir_kept | with_reducible apply ite_kept
    | with_reducible apply foldl_kept | (refine Kept.ofSnd (by assumption) ?_) | dsimp only | split

theorem execSwitchMsg_kept {r₀ : State} {c₀ : Bool} {owner table row : Nat} {s : State} {t₀}
    (e₀ : execSwitchMsg owner table row s = .next t₀) (h4 : Kept c₀ r₀ s) : Kept c₀ r₀ t₀ := by
  unfold execSwitchMsg at e₀
  repeat' first | contradiction | (injection e₀ with e₀; subst e₀) | dsimp only at e₀ | (split at e₀)
  repeat' first
    | with_reducible assumption | intro _ | with_reducible apply setDir_kept | with_reducible apply ite_kept
    | with_reducible apply foldl_kept | (refine Kept.ofSnd (by assumption) ?_) | dsimp only | split

theorem runRestore_kept {r₀ : State} {c₀ : Bool} {s : State} {h : Hdr} {k t row a : Nat} {keepPending : Bool} (h1 : Kept c₀ r₀ s)
    : Kept c₀ r₀ (runRestore s h k t row a keepPending) := by
  unfold runRestore
  repeat' first
    | with_reducible assumption | intro _ | with_reducible apply State.onMu_kept | with_reducible apply flagPending_kept
    | with_reducible apply rewriteRow_kept | with_reducible apply finish_kept | with_reducible apply checkRead_kept
    | with_reducible apply journalWrite_kept | with_reducible apply complete_kept | with_reducible apply ite_kept
    | with_reducible apply ite_kept_snd | with_reducible apply foldl_kept | with_reducible apply foldl_kept_snd
    | (refine Kept.ofSnd (by assumption) ?_) | dsimp only | split

theorem execMuRowRestore_kept {r₀ : State} {c₀ : Bool} {h : Hdr} {muslin : Nat} {keepPending : Bool} {table row srcDa : Nat}
    {s : State} {t₀} (e₀ : execMuRowRestore h muslin keepPending table row srcDa s = .next t₀) (h7 : Kept c₀ r₀ s)
    : Kept c₀ r₀ t₀ := by
  unfold execMuRowRestore at e₀
  repeat' first | contradiction | (injection e₀ with e₀; subst e₀) | dsimp only at e₀ | (split at e₀)
  repeat' first
    | with_reducible assumption | intro _ | with_reducible apply runRestore_kept | with_reducible apply complete_kept
    | with_reducible apply runDesc_kept | with_reducible apply ite_kept | with_reducible apply foldl_kept
    | (refine Kept.ofSnd (by assumption) ?_) | dsimp only | split

theorem execMoveDone_kept {r₀ : State} {c₀ : Bool} {owner table row : Nat} {s : State} {t₀}
    (e₀ : execMoveDone owner table row s = .next t₀) (h4 : Kept c₀ r₀ s) : Kept c₀ r₀ t₀ := by
  unfold execMoveDone at e₀
  repeat' first | contradiction | (injection e₀ with e₀; subst e₀) | dsimp only at e₀ | (split at e₀)
  repeat' first
    | with_reducible assumption | intro _ | with_reducible apply switchRow_kept | with_reducible apply ite_kept
    | with_reducible apply foldl_kept | (refine Kept.ofSnd (by assumption) ?_) | dsimp only | split

theorem sendAdds_kept {r₀ : State} {c₀ : Bool} {s : State} {h : Hdr} {o : LedgerAddOp} {a3 : Nat} {a4 : Nat} (h1 : Kept c₀ r₀ s) : Kept c₀ r₀ (sendAdds s h o a3 a4) := by
  induction a3 generalizing s a4 with
  | zero =>
    unfold sendAdds
    repeat' first
      | with_reducible assumption | intro _ | with_reducible apply countLost_kept
      | with_reducible apply State.onMu_kept | with_reducible apply endAdds_kept | with_reducible apply ite_kept
      | with_reducible apply foldl_kept | with_reducible apply foldl_kept_snd | with_reducible apply foldl_kept_fst
      | (with_reducible refine sendDense_kept (by assumption) ?_) | (refine Kept.ofSnd (by assumption) ?_) | dsimp only | split
  | succ _ ih =>
    unfold sendAdds
    repeat' first
      | with_reducible assumption | intro _ | with_reducible apply ih | with_reducible apply countLost_kept
      | with_reducible apply State.onMu_kept | with_reducible apply endAdds_kept | with_reducible apply ite_kept
      | with_reducible apply foldl_kept | with_reducible apply foldl_kept_snd | with_reducible apply foldl_kept_fst
      | (with_reducible refine sendDense_kept (by assumption) ?_) | (refine Kept.ofSnd (by assumption) ?_) | dsimp only | split

theorem copyRow_kept {r₀ : State} {c₀ : Bool} {s : State} {k t row : Nat} {e : DirEntry} {tr : Rec} (h1 : Kept c₀ r₀ s)
    : Kept c₀ r₀ (copyRow s k t row e tr) := by
  unfold copyRow
  repeat' first
    | with_reducible assumption | intro _ | with_reducible apply writeMem_kept | with_reducible apply abandonMove_kept
    | with_reducible apply markPoisoned_kept | with_reducible apply finishSeals_kept | with_reducible apply checkRead_kept
    | with_reducible apply setDir_kept | with_reducible apply ite_kept | with_reducible apply ite_kept_snd
    | with_reducible apply foldl_kept | with_reducible apply foldl_kept_snd
    | (with_reducible refine copyEntries_kept (by assumption) ?_) | (refine Kept.ofSnd (by assumption) ?_) | dsimp only | split

theorem execMoveStart_kept {r₀ : State} {c₀ : Bool} {owner table row : Nat} {s : State} {t₀}
    (e₀ : execMoveStart owner table row s = .next t₀) (h4 : Kept c₀ r₀ s) : Kept c₀ r₀ t₀ := by
  unfold execMoveStart at e₀
  repeat' first | contradiction | (injection e₀ with e₀; subst e₀) | dsimp only at e₀ | (split at e₀)
  repeat' first
    | with_reducible assumption | intro _ | with_reducible apply copyRow_kept | with_reducible apply ite_kept
    | with_reducible apply foldl_kept | (refine Kept.ofSnd (by assumption) ?_) | dsimp only | split

theorem landAdd_kept {r₀ : State} {c₀ : Bool} {s : State} {m : AddMsg} (h1 : Kept c₀ r₀ s) : Kept c₀ r₀ (landAdd s m) := by
  unfold landAdd
  repeat' first
    | with_reducible assumption | intro _ | with_reducible apply leaveGauze_kept | with_reducible apply routeAdd_kept
    | with_reducible apply holdAdd_kept | with_reducible apply takeAdd_kept | with_reducible apply answerAdd_kept
    | with_reducible apply ite_kept | with_reducible apply ite_kept_snd | with_reducible apply foldl_kept
    | with_reducible apply foldl_kept_snd | (refine Kept.ofSnd (by assumption) ?_) | dsimp only | split

theorem execAtomicAdd_kept {r₀ : State} {c₀ : Bool} {m : AddMsg} {s : State} {t₀} (e₀ : execAtomicAdd m s = .next t₀)
    (h2 : Kept c₀ r₀ s) : Kept c₀ r₀ t₀ := by
  unfold execAtomicAdd at e₀
  repeat' first | contradiction | (injection e₀ with e₀; subst e₀) | dsimp only at e₀ | (split at e₀)
  repeat' first
    | with_reducible assumption | intro _ | with_reducible apply landAdd_kept | with_reducible apply arriveAdd_kept
    | with_reducible apply ite_kept | with_reducible apply ite_kept_snd | with_reducible apply foldl_kept
    | with_reducible apply foldl_kept_snd | (refine Kept.ofSnd (by assumption) ?_) | dsimp only | split

theorem startMove_kept {r₀ : State} {c₀ : Bool} {s : State} {k t row a : Nat} {waiter : Option Hdr} {pageIn : Bool}
    (h1 : Kept c₀ r₀ s) : Kept c₀ r₀ (startMove s k t row a waiter pageIn) := by
  unfold startMove
  repeat' first
    | with_reducible assumption | intro _ | with_reducible apply setDir_kept | with_reducible apply ite_kept
    | with_reducible apply foldl_kept | (refine Kept.ofSnd (by assumption) ?_) | dsimp only | split

theorem runAdd_kept {r₀ : State} {c₀ : Bool} {s : State} {h : Hdr} {o : LedgerAddOp} (h1 : Kept c₀ r₀ s)
    : Kept c₀ r₀ (runAdd s h o) := by
  unfold runAdd
  repeat' first
    | with_reducible assumption | intro _ | with_reducible apply checkReads_kept | with_reducible apply complete_kept
    | with_reducible apply sendAdds_kept | with_reducible apply waitFor_kept | with_reducible apply ite_kept
    | with_reducible apply ite_kept_snd | with_reducible apply foldl_kept | with_reducible apply foldl_kept_snd
    | (refine Kept.ofSnd (by assumption) ?_) | dsimp only | split

theorem execMuSeal_kept {r₀ : State} {c₀ : Bool} {h : Hdr} {muslin expectStep : Nat} {s : State} {t₀}
    (e₀ : execMuSeal h muslin expectStep s = .next t₀) (h4 : Kept c₀ r₀ s) : Kept c₀ r₀ t₀ := by
  unfold execMuSeal at e₀
  repeat' first | contradiction | (injection e₀ with e₀; subst e₀) | dsimp only at e₀ | (split at e₀)
  repeat' first
    | with_reducible assumption | intro _ | with_reducible apply State.onMu_kept | with_reducible apply markStarted_kept
    | with_reducible apply complete_kept | with_reducible apply runDesc_kept | with_reducible apply ite_kept
    | with_reducible apply foldl_kept | (refine Kept.ofSnd (by assumption) ?_) | dsimp only | split

theorem execMuMigrate_kept {r₀ : State} {c₀ : Bool} {h : Hdr} {muslin table row targetDa : Nat} {s : State} {t₀}
    (e₀ : execMuMigrate h muslin table row targetDa s = .next t₀) (h6 : Kept c₀ r₀ s) : Kept c₀ r₀ t₀ := by
  unfold execMuMigrate at e₀
  repeat' first | contradiction | (injection e₀ with e₀; subst e₀) | dsimp only at e₀ | (split at e₀)
  repeat' first
    | with_reducible assumption | intro _ | with_reducible apply markStarted_kept | with_reducible apply complete_kept
    | with_reducible apply runDesc_kept | with_reducible apply startMove_kept | with_reducible apply ite_kept
    | with_reducible apply foldl_kept | (refine Kept.ofSnd (by assumption) ?_) | dsimp only | split

theorem execMuLedgerAdd_kept {r₀ : State} {c₀ : Bool} {h : Hdr} {op : LedgerAddOp} {s : State} {t₀} (e₀ : (execMuLedgerAdd h op s) = .next t₀) (h3 : Kept c₀ r₀ s) : Kept c₀ r₀ t₀ := by
  unfold execMuLedgerAdd at e₀
  repeat' first | (injection e₀ with e₀; subst e₀) | dsimp only at e₀ | (split at e₀)
  repeat' first
    | with_reducible assumption | intro _ | with_reducible apply countLost_kept | with_reducible apply runAdd_kept
    | with_reducible apply complete_kept | with_reducible apply sendAdds_kept | with_reducible apply runDesc_kept
    | with_reducible apply ite_kept | with_reducible apply foldl_kept | with_reducible apply foldl_kept_snd
    | with_reducible apply foldl_kept_fst | (refine Kept.ofSnd (by assumption) ?_) | dsimp only | split

theorem execMigrationMoving_kept {r₀ : State} {c₀ : Bool} {owner table row : Nat} {s : State} {t₀}
    (e₀ : execMigrationMoving owner table row s = .next t₀) (h4 : Kept c₀ r₀ s) : Kept c₀ r₀ t₀ := by
  unfold execMigrationMoving at e₀
  repeat' first | contradiction | (injection e₀ with e₀; subst e₀) | dsimp only at e₀ | (split at e₀)
  repeat' first
    | with_reducible assumption | intro _ | with_reducible apply setDir_kept | with_reducible apply openReq_kept
    | with_reducible apply ite_kept | with_reducible apply foldl_kept | (refine Kept.ofSnd (by assumption) ?_) | dsimp only
    | split

theorem execForwardingEnd_kept {r₀ : State} {c₀ : Bool} {owner table row : Nat} {s : State} {t₀}
    (e₀ : execForwardingEnd owner table row s = .next t₀) (h4 : Kept c₀ r₀ s) : Kept c₀ r₀ t₀ := by
  unfold execForwardingEnd at e₀
  repeat' first | contradiction | (injection e₀ with e₀; subst e₀) | dsimp only at e₀ | (split at e₀)
  repeat' first
    | with_reducible assumption | intro _ | with_reducible apply rowEntries_kept | with_reducible apply storeDir_kept
    | with_reducible apply ite_kept | with_reducible apply foldl_kept | (refine Kept.ofSnd (by assumption) ?_) | dsimp only
    | split

end Sys2Proof.Machine
end

