-- ==== Sys2Proof/Laws/KeptOptimizer.lean ====
section
/-!
SUPPORT. What the definitions of Machine/Optimizer.lean keep (Laws/Kept.lean).
-/

set_option linter.all false

namespace Sys2Proof.Machine

open Sys2Proof

theorem momentVal_kept {r₀ : State} {c₀ : Bool} {s : State} {v : Val} (h1 : Kept c₀ r₀ s) : Kept c₀ r₀ (momentVal s v).2 := by
  unfold momentVal
  repeat' first
    | with_reducible assumption | intro _ | with_reducible apply freeVal_kept | with_reducible apply ite_kept
    | with_reducible apply ite_kept_snd | with_reducible apply foldl_kept | with_reducible apply foldl_kept_snd
    | (refine Kept.ofSnd (by assumption) ?_) | dsimp only | split

theorem momentVals_kept {r₀ : State} {c₀ : Bool} {s : State} {a1 : List Val} (h1 : Kept c₀ r₀ s)
    : Kept c₀ r₀ (momentVals s a1).2 := by
  induction a1 generalizing s with
  | nil =>
    unfold momentVals
    repeat' first
      | with_reducible assumption | intro _ | with_reducible apply momentVal_kept | with_reducible apply ite_kept
      | with_reducible apply ite_kept_snd | with_reducible apply foldl_kept | with_reducible apply foldl_kept_snd
      | (refine Kept.ofSnd (by assumption) ?_) | dsimp only | split
  | cons _ _ ih =>
    unfold momentVals
    repeat' first
      | with_reducible assumption | intro _ | with_reducible apply ih | with_reducible apply momentVal_kept
      | with_reducible apply ite_kept | with_reducible apply ite_kept_snd | with_reducible apply foldl_kept
      | with_reducible apply foldl_kept_snd | (refine Kept.ofSnd (by assumption) ?_) | dsimp only | split

theorem srList_kept {r₀ : State} {c₀ : Bool} {s : State} {k spec : Nat} {scs : List Nat} {vs : List Val} (h1 : Kept c₀ r₀ s)
    : Kept c₀ r₀ (srList s k spec scs vs).2 := by
  unfold srList
  repeat' first
    | with_reducible assumption | intro _ | with_reducible apply convList_kept | with_reducible apply ite_kept
    | with_reducible apply ite_kept_snd | with_reducible apply foldl_kept | with_reducible apply foldl_kept_snd
    | (refine Kept.ofSnd (by assumption) ?_) | dsimp only | split

theorem rowMoment_kept {r₀ : State} {c₀ : Bool} {s : State} {k : Nat} {p : Params} {steps w : Nat} {side : List Byte}
    {gf : List Val} (h1 : Kept c₀ r₀ s) : Kept c₀ r₀ (rowMoment s k p steps w side gf).2 := by
  unfold rowMoment
  repeat' first
    | with_reducible assumption | intro _ | with_reducible apply momentVals_kept | with_reducible apply srList_kept
    | with_reducible apply ite_kept | with_reducible apply ite_kept_snd | with_reducible apply foldl_kept
    | with_reducible apply foldl_kept_snd | (refine Kept.ofSnd (by assumption) ?_) | dsimp only | split

theorem rowSecond_kept {r₀ : State} {c₀ : Bool} {s : State} {k : Nat} {p : Params} {w v2 : Nat} {gf : List Val}
    (h1 : Kept c₀ r₀ s) : Kept c₀ r₀ (rowSecond s k p w v2 gf).2 := by
  unfold rowSecond
  repeat' first
    | with_reducible assumption | intro _ | with_reducible apply momentVal_kept | with_reducible apply convElem_kept
    | with_reducible apply ite_kept | with_reducible apply ite_kept_snd | with_reducible apply foldl_kept
    | with_reducible apply foldl_kept_snd | (refine Kept.ofSnd (by assumption) ?_) | dsimp only | split

theorem codeGrads_kept {r₀ : State} {c₀ : Bool} {s : State} {k : Nat} {gs : List Val} (h1 : Kept c₀ r₀ s)
    : Kept c₀ r₀ (codeGrads s k gs).2 := by
  unfold codeGrads
  repeat' first
    | with_reducible assumption | intro _ | with_reducible apply srList_kept | with_reducible apply ite_kept
    | with_reducible apply ite_kept_snd | with_reducible apply foldl_kept | with_reducible apply foldl_kept_snd
    | (refine Kept.ofSnd (by assumption) ?_) | dsimp only | split

theorem rowCodes_kept {r₀ : State} {c₀ : Bool} {s : State} {k cmax : Nat} {sc of_ : Val} {a5 : Nat} {a6 : List Val}
    (h1 : Kept c₀ r₀ s) : Kept c₀ r₀ (rowCodes s k cmax sc of_ a5 a6).2 := by
  induction a6 generalizing s a5 with
  | nil =>
    unfold rowCodes
    repeat' first
      | with_reducible assumption | intro _ | with_reducible apply State.took_kept | with_reducible apply draw_kept
      | with_reducible apply ite_kept | with_reducible apply ite_kept_snd | with_reducible apply foldl_kept
      | with_reducible apply foldl_kept_snd | (refine Kept.ofSnd (by assumption) ?_) | dsimp only | split
  | cons _ _ ih =>
    unfold rowCodes
    repeat' first
      | with_reducible assumption | intro _ | with_reducible apply ih | with_reducible apply State.took_kept
      | with_reducible apply draw_kept | with_reducible apply ite_kept | with_reducible apply ite_kept_snd
      | with_reducible apply foldl_kept | with_reducible apply foldl_kept_snd | (refine Kept.ofSnd (by assumption) ?_) | dsimp only
      | split

theorem withCarried_kept {r₀ : State} {c₀ : Bool} {s : State} {a1 : List (Val × Nat × Nat × Nat)} (h1 : Kept c₀ r₀ s)
    : Kept c₀ r₀ (withCarried s a1).2 := by
  induction a1 generalizing s with
  | nil =>
    unfold withCarried
    repeat' first
      | with_reducible assumption | intro _ | with_reducible apply freeVal_kept | with_reducible apply ite_kept
      | with_reducible apply ite_kept_snd | with_reducible apply foldl_kept | with_reducible apply foldl_kept_snd
      | (refine Kept.ofSnd (by assumption) ?_) | dsimp only | split
  | cons _ _ ih =>
    unfold withCarried
    repeat' first
      | with_reducible assumption | intro _ | with_reducible apply ih | with_reducible apply freeVal_kept
      | with_reducible apply ite_kept | with_reducible apply ite_kept_snd | with_reducible apply foldl_kept
      | with_reducible apply foldl_kept_snd | (refine Kept.ofSnd (by assumption) ?_) | dsimp only | split

theorem newRow_kept {r₀ : State} {c₀ : Bool} {s : State} {k : Nat} {tr : Rec} {p : Params} {steps : Nat} {b : Int} {xs : List Int}
    {rec_ side : List Byte} {sc of_ : Val} (h1 : Kept c₀ r₀ s) : Kept c₀ r₀ (newRow s k tr p steps b xs rec_ side sc of_).2 := by
  unfold newRow
  repeat' first
    | with_reducible assumption | intro _ | with_reducible apply bump_kept | with_reducible apply rowMoment_kept
    | with_reducible apply rowSecond_kept | with_reducible apply codeGrads_kept | with_reducible apply rowCodes_kept
    | with_reducible apply withCarried_kept | with_reducible apply ite_kept | with_reducible apply ite_kept_snd
    | with_reducible apply foldl_kept | with_reducible apply foldl_kept_snd | (refine Kept.ofSnd (by assumption) ?_) | dsimp only
    | split

theorem toPending_kept {r₀ : State} {c₀ : Bool} {g : CloseRun} {k o t row : Nat} {e : Entry} (h1 : Kept c₀ r₀ g.st)
    : Kept c₀ r₀ (toPending g k o t row e).st := by
  unfold toPending
  repeat' first
    | with_reducible assumption | intro _ | with_reducible apply bump_kept | with_reducible apply ite_kept
    | with_reducible apply foldl_kept | (with_reducible refine foldl_kept_of CloseRun.st ?_ ?_)
    | (with_reducible refine pendEntry_kept (by assumption) ?_) | (refine Kept.ofSnd (by assumption) ?_) | dsimp only | split

theorem storeRow_kept {r₀ : State} {c₀ : Bool} {s : State} {k o t row home da sda step : Nat} {out side : List Byte}
    (h1 : Kept c₀ r₀ s) : Kept c₀ r₀ (storeRow s k o t row home da sda step out side) := by
  unfold storeRow
  repeat' first
    | with_reducible assumption | intro _ | with_reducible apply writeMem_kept | with_reducible apply journalWrite_kept
    | with_reducible apply setDir_kept | with_reducible apply ite_kept | with_reducible apply foldl_kept
    | (refine Kept.ofSnd (by assumption) ?_) | dsimp only | split

theorem optRow_kept {r₀ : State} {c₀ : Bool} {s : State} {k t row : Nat} {tr sr : Rec} {p : Params} {steps step : Nat} {b : Int}
    {xs : List Int} (h1 : Kept c₀ r₀ s) : Kept c₀ r₀ (optRow s k t row tr sr p steps step b xs).2 := by
  unfold optRow
  repeat' first
    | with_reducible assumption | intro _ | with_reducible apply bumpBy_kept | with_reducible apply storeRow_kept
    | with_reducible apply checkRead_kept | with_reducible apply newRow_kept | with_reducible apply ite_kept
    | with_reducible apply ite_kept_snd | with_reducible apply foldl_kept | with_reducible apply foldl_kept_snd
    | (refine Kept.ofSnd (by assumption) ?_) | dsimp only | split

theorem readWords_kept {r₀ : State} {c₀ : Bool} {s : State} {k : Nat} {e : Entry} (h1 : Kept c₀ r₀ s)
    : Kept c₀ r₀ (readWords s k e).2 := by
  unfold readWords
  repeat' first
    | with_reducible assumption | intro _ | with_reducible apply bumpBy_kept | with_reducible apply ite_kept
    | with_reducible apply ite_kept_snd | with_reducible apply foldl_kept | with_reducible apply foldl_kept_snd
    | (refine Kept.ofSnd (by assumption) ?_) | dsimp only | split

theorem pendWords_kept {r₀ : State} {c₀ : Bool} {s : State} {k : Nat} {pe : Option Entry} (h1 : Kept c₀ r₀ s)
    : Kept c₀ r₀ (pendWords s k pe).2 := by
  unfold pendWords
  repeat' first
    | with_reducible assumption | intro _ | with_reducible apply readWords_kept | with_reducible apply ite_kept
    | with_reducible apply ite_kept_snd | with_reducible apply foldl_kept | with_reducible apply foldl_kept_snd
    | (refine Kept.ofSnd (by assumption) ?_) | dsimp only | split

theorem usePend_kept {r₀ : State} {c₀ : Bool} {g : CloseRun} {k o t row : Nat} (h1 : Kept c₀ r₀ g.st)
    : Kept c₀ r₀ (usePend g k o t row).2.st := by
  unfold usePend
  repeat' first
    | with_reducible assumption | intro _ | with_reducible apply State.onMu_kept | with_reducible apply flagPending_kept
    | with_reducible apply bump_kept | with_reducible apply ite_kept | with_reducible apply ite_kept_snd
    | with_reducible apply foldl_kept | with_reducible apply foldl_kept_snd
    | (with_reducible refine foldl_kept_of CloseRun.st ?_ ?_) | (refine Kept.ofSnd (by assumption) ?_) | dsimp only | split

theorem stepEntry_kept {r₀ : State} {c₀ : Bool} {g : CloseRun} {k t row step : Nat} {tr sr : Rec} {p : Params} {e : Entry}
    (h1 : Kept c₀ r₀ g.st) : Kept c₀ r₀ (stepEntry g k t row step tr sr p e).st := by
  unfold stepEntry
  have k1 : Kept c₀ r₀ (usePend g k (fld sr 2) t row).2.st := by apply usePend_kept h1
  generalize usePend g k (fld sr 2) t row = y at k1 ⊢
  rcases y with ⟨pe, u⟩
  dsimp only at k1 ⊢
  have k2 : Kept c₀ r₀ (pendWords u.st k pe).2 := by apply pendWords_kept k1
  generalize pendWords u.st k pe = y at k2 ⊢
  rcases y with ⟨pw, v⟩
  dsimp only at k2 ⊢
  repeat' first
    | with_reducible assumption | intro _ | with_reducible apply State.onMu_kept | with_reducible apply flagPending_kept
    | with_reducible apply toPending_kept | with_reducible apply optRow_kept | with_reducible apply markPoisoned_kept
    | with_reducible apply pendWords_kept | with_reducible apply usePend_kept | with_reducible apply ite_kept
    | with_reducible apply ite_kept_snd | with_reducible apply foldl_kept | with_reducible apply foldl_kept_snd
    | (with_reducible refine foldl_kept_of CloseRun.st ?_ ?_) | (refine Kept.ofSnd (by assumption) ?_) | dsimp only | split

theorem zeroUnused_kept {r₀ : State} {c₀ : Bool} {s : State} {k bank p : Nat} (h1 : Kept c₀ r₀ s)
    : Kept c₀ r₀ (zeroUnused s k bank p) := by
  unfold zeroUnused
  repeat' first
    | with_reducible assumption | intro _ | with_reducible apply State.onMu_kept | with_reducible apply bumpBy_kept
    | with_reducible apply ite_kept | with_reducible apply foldl_kept | (refine Kept.ofSnd (by assumption) ?_) | dsimp only
    | split

theorem closeEntry_kept {r₀ : State} {c₀ : Bool} {k bank step : Nat} {ps : Nat → Params} {g : CloseRun} {x : Nat × Entry}
    (h5 : Kept c₀ r₀ g.st) : Kept c₀ r₀ (closeEntry k bank step ps g x).st := by
  unfold closeEntry
  repeat' first
    | with_reducible assumption | intro _ | with_reducible apply State.onMu_kept | with_reducible apply pageInNow_kept
    | with_reducible apply bump_kept | with_reducible apply toPending_kept | with_reducible apply stepEntry_kept
    | with_reducible apply readWords_kept | with_reducible apply ite_kept | with_reducible apply ite_kept_snd
    | with_reducible apply foldl_kept | with_reducible apply foldl_kept_snd
    | (with_reducible refine foldl_kept_of CloseRun.st ?_ ?_) | (with_reducible refine pendEntry_kept (by assumption) ?_)
    | (refine Kept.ofSnd (by assumption) ?_) | dsimp only | split

theorem runClose_kept {r₀ : State} {c₀ : Bool} {s0 : State} {h : Hdr} {k p : Nat} {l : List (Nat × Params)} (h1 : Kept c₀ r₀ s0)
    : Kept c₀ r₀ (runClose s0 h k p l) := by
  unfold runClose
  repeat' first
    | with_reducible assumption | intro _ | with_reducible apply State.onMu_kept | with_reducible apply zeroUnused_kept
    | with_reducible apply markStarted_kept | with_reducible apply finish_kept | with_reducible apply closeEntry_kept
    | with_reducible apply ite_kept | with_reducible apply foldl_kept | (with_reducible refine foldl_kept_of CloseRun.st ?_ ?_)
    | (refine Kept.ofSnd (by assumption) ?_) | dsimp only | split

theorem selectRow_kept {r₀ : State} {c₀ : Bool} {k n : Nat} {s : State} {x : Heavy} (h3 : Kept c₀ r₀ s)
    : Kept c₀ r₀ (selectRow k n s x) := by
  unfold selectRow
  repeat' first
    | with_reducible assumption | intro _ | with_reducible apply State.onMu_kept | with_reducible apply bump_kept
    | with_reducible apply startMove_kept | with_reducible apply ite_kept | with_reducible apply foldl_kept
    | (refine Kept.ofSnd (by assumption) ?_) | dsimp only | split

theorem addSet_kept {r₀ : State} {c₀ : Bool} {h : Hdr} {paramDa : Nat} {g : (Nat ⊕ List (Nat × Params)) × State} {n : Nat}
    (h3 : Kept c₀ r₀ g.2) : Kept c₀ r₀ (addSet h paramDa g n).2 := by
  unfold addSet
  repeat' first
    | with_reducible assumption | intro _ | with_reducible apply checkRead_kept | with_reducible apply ite_kept
    | with_reducible apply ite_kept_snd | with_reducible apply foldl_kept | with_reducible apply foldl_kept_snd
    | (refine Kept.ofSnd (by assumption) ?_) | dsimp only | split

theorem readSets_kept {r₀ : State} {c₀ : Bool} {s : State} {h : Hdr} {paramDa : Nat} {ns : List Nat} (h1 : Kept c₀ r₀ s)
    : Kept c₀ r₀ (readSets s h paramDa ns).2 := by
  unfold readSets
  repeat' first
    | with_reducible assumption | intro _ | with_reducible apply addSet_kept | with_reducible apply ite_kept
    | with_reducible apply ite_kept_snd | with_reducible apply foldl_kept | with_reducible apply foldl_kept_snd
    | (refine Kept.ofSnd (by assumption) ?_) | dsimp only | split

theorem closeBody_kept {r₀ : State} {c₀ : Bool} {s : State} {h : Hdr} {k p paramDa : Nat} (h1 : Kept c₀ r₀ s)
    : Kept c₀ r₀ (closeBody s h k p paramDa) := by
  unfold closeBody
  repeat' first
    | with_reducible assumption | intro _ | with_reducible apply State.onMu_kept | with_reducible apply runClose_kept
    | with_reducible apply complete_kept | with_reducible apply readSets_kept | with_reducible apply ite_kept
    | with_reducible apply ite_kept_snd | with_reducible apply foldl_kept | with_reducible apply foldl_kept_snd
    | (refine Kept.ofSnd (by assumption) ?_) | dsimp only | split

theorem execMuOptClose_kept {r₀ : State} {c₀ : Bool} {h : Hdr} {muslin panel expectStep paramDa : Nat} {s : State} {t₀}
    (e₀ : execMuOptClose h muslin panel expectStep paramDa s = .next t₀) (h6 : Kept c₀ r₀ s) : Kept c₀ r₀ t₀ := by
  unfold execMuOptClose at e₀
  repeat' first | contradiction | (injection e₀ with e₀; subst e₀) | dsimp only at e₀ | (split at e₀)
  repeat' first
    | with_reducible assumption | intro _ | with_reducible apply closeBody_kept | with_reducible apply complete_kept
    | with_reducible apply runDesc_kept | with_reducible apply ite_kept | with_reducible apply foldl_kept
    | (refine Kept.ofSnd (by assumption) ?_) | dsimp only | split

theorem pageInRows_kept {r₀ : State} {c₀ : Bool} {s : State} {k : Nat} (h1 : Kept c₀ r₀ s) : Kept c₀ r₀ (pageInRows s k) := by
  unfold pageInRows
  repeat' first
    | with_reducible assumption | intro _ | with_reducible apply pageSlot_kept | with_reducible apply startMove_kept
    | with_reducible apply ite_kept | with_reducible apply ite_kept_snd | with_reducible apply foldl_kept
    | with_reducible apply foldl_kept_snd | (refine Kept.ofSnd (by assumption) ?_) | dsimp only | split

theorem coolRows_kept {r₀ : State} {c₀ : Bool} {s : State} {k : Nat} (h1 : Kept c₀ r₀ s) : Kept c₀ r₀ (coolRows s k) := by
  unfold coolRows
  repeat' first
    | with_reducible assumption | intro _ | with_reducible apply startMove_kept | with_reducible apply ite_kept
    | with_reducible apply foldl_kept | (refine Kept.ofSnd (by assumption) ?_) | dsimp only | split

theorem selectRows_kept {r₀ : State} {c₀ : Bool} {s : State} {k n : Nat} (h1 : Kept c₀ r₀ s) : Kept c₀ r₀ (selectRows s k n) := by
  unfold selectRows
  repeat' first
    | with_reducible assumption | intro _ | with_reducible apply selectRow_kept | with_reducible apply coolRows_kept
    | with_reducible apply ite_kept | with_reducible apply foldl_kept | (refine Kept.ofSnd (by assumption) ?_) | dsimp only
    | split

theorem execBankRelease_kept {r₀ : State} {c₀ : Bool} {muslin : Nat} {s : State} {t₀} (e₀ : execBankRelease muslin s = .next t₀)
    (h2 : Kept c₀ r₀ s) : Kept c₀ r₀ t₀ := by
  unfold execBankRelease at e₀
  repeat' first | contradiction | (injection e₀ with e₀; subst e₀) | dsimp only at e₀ | (split at e₀)
  repeat' first
    | with_reducible assumption | intro _ | with_reducible apply State.onMu_kept | with_reducible apply journalEnd_kept
    | with_reducible apply pageInRows_kept | with_reducible apply selectRows_kept | with_reducible apply ite_kept
    | with_reducible apply foldl_kept | (refine Kept.ofSnd (by assumption) ?_) | dsimp only | split

end Sys2Proof.Machine
end

