-- ==== Sys2Proof/Laws/KeptOptDense.lean ====
section
/-!
SUPPORT. What the definitions of Machine/OptDense.lean keep (Laws/Kept.lean).
-/

set_option linter.all false

namespace Sys2Proof.Machine

open Sys2Proof

theorem deriveBlock_kept {r₀ : State} {c₀ : Bool} {s : State} {o : OptDenseOp} {b : Nat} {ms : List Nat} (h1 : Kept c₀ r₀ s)
    : Kept c₀ r₀ (deriveBlock s o b ms) := by
  unfold deriveBlock
  repeat' first
    | with_reducible assumption | intro _ | with_reducible apply writeMem_kept | with_reducible apply ite_kept
    | with_reducible apply foldl_kept | (refine Kept.ofSnd (by assumption) ?_) | dsimp only | split

theorem srPicked_kept {r₀ : State} {c₀ : Bool} {s : State} {k spec sc : Nat} {ok : List Bool} {vs : List Val} {old : List Nat}
    (h1 : Kept c₀ r₀ s) : Kept c₀ r₀ (srPicked s k spec sc ok vs old).2 := by
  unfold srPicked
  repeat' first
    | with_reducible assumption | intro _ | with_reducible apply convList_kept | with_reducible apply ite_kept
    | with_reducible apply ite_kept_snd | with_reducible apply foldl_kept | with_reducible apply foldl_kept_snd
    | (refine Kept.ofSnd (by assumption) ?_) | dsimp only | split

theorem takeWords_kept {r₀ : State} {c₀ : Bool} {s : State} {o : OptDenseOp} {b : Nat} (h1 : Kept c₀ r₀ s)
    : Kept c₀ r₀ (takeWords s o b).2 := by
  unfold takeWords
  repeat' first
    | with_reducible assumption | intro _ | with_reducible apply State.onMu_kept | with_reducible apply bumpBy_kept
    | with_reducible apply ite_kept | with_reducible apply ite_kept_snd | with_reducible apply foldl_kept
    | with_reducible apply foldl_kept_snd | (refine Kept.ofSnd (by assumption) ?_) | dsimp only | split

theorem codeBlock_kept {r₀ : State} {c₀ : Bool} {s : State} {o : OptDenseOp} {p : Params} {anchor : Int} {b : Nat}
    {ok : List Bool} (h1 : Kept c₀ r₀ s) : Kept c₀ r₀ (codeBlock s o p anchor b ok).2 := by
  unfold codeBlock
  repeat' first
    | with_reducible assumption | intro _ | with_reducible apply srPicked_kept | with_reducible apply writeMem_kept
    | with_reducible apply takeWords_kept | with_reducible apply withCarried_kept | with_reducible apply ite_kept
    | with_reducible apply ite_kept_snd | with_reducible apply foldl_kept | with_reducible apply foldl_kept_snd
    | (refine Kept.ofSnd (by assumption) ?_) | dsimp only | split

theorem blockWhole_kept {r₀ : State} {c₀ : Bool} {s : State} {rs : List Range} (h1 : Kept c₀ r₀ s)
    : Kept c₀ r₀ (blockWhole s rs).2 := by
  unfold blockWhole
  repeat' first
    | with_reducible assumption | intro _ | with_reducible apply checkRead_kept | with_reducible apply ite_kept
    | with_reducible apply ite_kept_snd | with_reducible apply foldl_kept | with_reducible apply foldl_kept_snd
    | (refine Kept.ofSnd (by assumption) ?_) | dsimp only | split

theorem passA_kept {r₀ : State} {c₀ : Bool} {o : OptDenseOp} {p : Params} {anchor : Int} {x : DenseRun × Sums} {b : Nat}
    (h4 : Kept c₀ r₀ x.1.st) : Kept c₀ r₀ (passA o p anchor x b).1.st := by
  unfold passA
  repeat' first
    | with_reducible assumption | intro _ | with_reducible apply codeBlock_kept | with_reducible apply blockWhole_kept
    | with_reducible apply ite_kept | with_reducible apply ite_kept_snd | with_reducible apply foldl_kept
    | with_reducible apply foldl_kept_snd | with_reducible apply foldl_kept_fst
    | (with_reducible refine foldl_kept_of DenseRun.st ?_ ?_) | (refine Kept.ofSnd (by assumption) ?_) | dsimp only | split

theorem addNorms_kept {r₀ : State} {c₀ : Bool} {a : Int} {g : DenseRun} {ok : List Bool} {old new : List Nat}
    (h2 : Kept c₀ r₀ g.st) : Kept c₀ r₀ (addNorms a g ok old new).st := by
  unfold addNorms
  repeat' first
    | with_reducible assumption | intro _ | with_reducible apply ite_kept | with_reducible apply foldl_kept
    | (with_reducible refine foldl_kept_of DenseRun.st ?_ ?_) | (refine Kept.ofSnd (by assumption) ?_) | dsimp only | split

theorem onlyDerive_kept {r₀ : State} {c₀ : Bool} {o : OptDenseOp} {a : Int} {g : DenseRun} {b : Nat} (h3 : Kept c₀ r₀ g.st)
    : Kept c₀ r₀ (onlyDerive o a g b).st := by
  unfold onlyDerive
  repeat' first
    | with_reducible assumption | intro _ | with_reducible apply deriveBlock_kept | with_reducible apply addNorms_kept
    | with_reducible apply blockWhole_kept | with_reducible apply ite_kept | with_reducible apply ite_kept_snd
    | with_reducible apply foldl_kept | with_reducible apply foldl_kept_snd
    | (with_reducible refine foldl_kept_of DenseRun.st ?_ ?_) | (refine Kept.ofSnd (by assumption) ?_) | dsimp only | split

theorem updateBlock_kept {r₀ : State} {c₀ : Bool} {g : DenseRun} {o : OptDenseOp} {p : Params} {a : Int} {b : Nat}
    {ok : List Bool} {gf : List Val} {vhat : Nat → Option Val} (h1 : Kept c₀ r₀ g.st)
    : Kept c₀ r₀ (updateBlock g o p a b ok gf vhat).st := by
  unfold updateBlock
  repeat' first
    | with_reducible assumption | intro _ | with_reducible apply srPicked_kept | with_reducible apply writeMem_kept
    | with_reducible apply momentVals_kept | with_reducible apply deriveBlock_kept | with_reducible apply bumpBy_kept
    | with_reducible apply addNorms_kept | with_reducible apply ite_kept | with_reducible apply ite_kept_snd
    | with_reducible apply foldl_kept | with_reducible apply foldl_kept_snd
    | (with_reducible refine foldl_kept_of DenseRun.st ?_ ?_) | (refine Kept.ofSnd (by assumption) ?_) | dsimp only | split

theorem passB_kept {r₀ : State} {c₀ : Bool} {o : OptDenseOp} {p : Params} {a : Int} {vhat : Nat → Option Val} {g : DenseRun}
    {b : Nat} (h5 : Kept c₀ r₀ g.st) : Kept c₀ r₀ (passB o p a vhat g b).st := by
  unfold passB
  repeat' first
    | with_reducible assumption | intro _ | with_reducible apply updateBlock_kept | with_reducible apply blockWhole_kept
    | with_reducible apply ite_kept | with_reducible apply ite_kept_snd | with_reducible apply foldl_kept
    | with_reducible apply foldl_kept_snd | (with_reducible refine foldl_kept_of DenseRun.st ?_ ?_)
    | (refine Kept.ofSnd (by assumption) ?_) | dsimp only | split

theorem newVector_kept {r₀ : State} {c₀ : Bool} {s : State} {k : Nat} {p : Params} {da scDa len n : Nat} {sums : FMap Val}
    (h1 : Kept c₀ r₀ s) : Kept c₀ r₀ (newVector s k p da scDa len n sums).2 := by
  unfold newVector
  repeat' first
    | with_reducible assumption | intro _ | with_reducible apply writeMem_kept | with_reducible apply momentVals_kept
    | with_reducible apply srList_kept | with_reducible apply ite_kept | with_reducible apply ite_kept_snd
    | with_reducible apply foldl_kept | with_reducible apply foldl_kept_snd | (refine Kept.ofSnd (by assumption) ?_) | dsimp only
    | split

theorem factored_kept {r₀ : State} {c₀ : Bool} {s : State} {o : OptDenseOp} {p : Params} {anchor a : Int} {n : Nat}
    (h1 : Kept c₀ r₀ s) : Kept c₀ r₀ (factored s o p anchor a n).st := by
  unfold factored
  repeat' first
    | with_reducible assumption | intro _ | (with_reducible refine foldl_kept_of (fun x : DenseRun × Sums => x.1.st) ?_ ?_)
    | with_reducible apply passB_kept | with_reducible apply newVector_kept | with_reducible apply passA_kept
    | with_reducible apply blockWhole_kept | with_reducible apply ite_kept | with_reducible apply ite_kept_snd
    | with_reducible apply foldl_kept | with_reducible apply foldl_kept_snd | with_reducible apply foldl_kept_fst
    | (with_reducible refine foldl_kept_of DenseRun.st ?_ ?_) | (refine Kept.ofSnd (by assumption) ?_) | dsimp only | split

theorem momentBlock_kept {r₀ : State} {c₀ : Bool} {o : OptDenseOp} {p : Params} {anchor a : Int} {g : DenseRun} {b : Nat}
    (h5 : Kept c₀ r₀ g.st) : Kept c₀ r₀ (momentBlock o p anchor a g b).st := by
  unfold momentBlock
  repeat' first
    | with_reducible assumption | intro _ | with_reducible apply codeBlock_kept | with_reducible apply updateBlock_kept
    | with_reducible apply blockWhole_kept | with_reducible apply ite_kept | with_reducible apply ite_kept_snd
    | with_reducible apply foldl_kept | with_reducible apply foldl_kept_snd
    | (with_reducible refine foldl_kept_of DenseRun.st ?_ ?_) | (refine Kept.ofSnd (by assumption) ?_) | dsimp only | split

theorem denseRun_kept {r₀ : State} {c₀ : Bool} {s : State} {o : OptDenseOp} {p : Params} {a : Int} {n : Nat} (h1 : Kept c₀ r₀ s)
    : Kept c₀ r₀ (denseRun s o p a n).st := by
  unfold denseRun
  repeat' first
    | with_reducible assumption | intro _ | with_reducible apply State.onMu_kept | with_reducible apply factored_kept
    | with_reducible apply onlyDerive_kept | with_reducible apply momentBlock_kept | with_reducible apply ite_kept
    | with_reducible apply foldl_kept | (with_reducible refine foldl_kept_of DenseRun.st ?_ ?_)
    | (refine Kept.ofSnd (by assumption) ?_) | dsimp only | split

theorem odParams_kept {r₀ : State} {c₀ : Bool} {s : State} {o : OptDenseOp} (h1 : Kept c₀ r₀ s) : Kept c₀ r₀ (odParams s o).2 := by
  unfold odParams
  repeat' first
    | with_reducible assumption | intro _ | with_reducible apply checkRead_kept | with_reducible apply ite_kept
    | with_reducible apply ite_kept_snd | with_reducible apply foldl_kept | with_reducible apply foldl_kept_snd
    | (refine Kept.ofSnd (by assumption) ?_) | dsimp only | split

theorem reportRatio_kept {r₀ : State} {c₀ : Bool} {s : State} {o : OptDenseOp} {a : Int} {g : DenseRun} (h1 : Kept c₀ r₀ s)
    (h4 : Kept c₀ r₀ g.st) : Kept c₀ r₀ (reportRatio s o a g).2 := by
  unfold reportRatio
  repeat' first
    | with_reducible assumption | intro _ | with_reducible apply bump_kept | with_reducible apply emitSounding_kept
    | with_reducible apply ite_kept | with_reducible apply ite_kept_snd | with_reducible apply foldl_kept
    | with_reducible apply foldl_kept_snd | (with_reducible refine foldl_kept_of DenseRun.st ?_ ?_)
    | (refine Kept.ofSnd (by assumption) ?_) | dsimp only | split

theorem journalRange_kept {r₀ : State} {c₀ : Bool} {k step a2 a3 a4 : Nat} {a5 : State} (h6 : Kept c₀ r₀ a5)
    : Kept c₀ r₀ (journalRange k step a2 a3 a4 a5) := by
  induction a2 generalizing a3 a4 a5 with
  | zero =>
    unfold journalRange
    repeat' first
      | with_reducible assumption | intro _ | with_reducible apply journalWrite_kept | with_reducible apply ite_kept
      | with_reducible apply foldl_kept | (refine Kept.ofSnd (by assumption) ?_) | dsimp only | split
  | succ _ ih =>
    unfold journalRange
    repeat' first
      | with_reducible assumption | intro _ | with_reducible apply ih | with_reducible apply journalWrite_kept
      | with_reducible apply ite_kept | with_reducible apply foldl_kept | (refine Kept.ofSnd (by assumption) ?_) | dsimp only
      | split

theorem journalDense_kept {r₀ : State} {c₀ : Bool} {s : State} {o : OptDenseOp} {g : DenseRun} (h1 : Kept c₀ r₀ s)
    (h3 : Kept c₀ r₀ g.st) : Kept c₀ r₀ (journalDense s o g) := by
  unfold journalDense
  repeat' first
    | with_reducible assumption | intro _ | with_reducible apply journalRange_kept | with_reducible apply ite_kept
    | with_reducible apply foldl_kept | (with_reducible refine foldl_kept_of DenseRun.st ?_ ?_)
    | (refine Kept.ofSnd (by assumption) ?_) | dsimp only | split

theorem normAnchor_kept {r₀ : State} {c₀ : Bool} {s : State} {w : Nat} (h1 : Kept c₀ r₀ s) : Kept c₀ r₀ (normAnchor s w).2 := by
  unfold normAnchor
  repeat' first
    | with_reducible assumption | intro _ | with_reducible apply State.took_kept | with_reducible apply ite_kept
    | with_reducible apply ite_kept_snd | with_reducible apply foldl_kept | with_reducible apply foldl_kept_snd
    | (refine Kept.ofSnd (by assumption) ?_) | dsimp only | split

theorem cutDense_kept {r₀ : State} {c₀ : Bool} {s : State} {h : Hdr} {o : OptDenseOp} (h1 : Kept c₀ r₀ s)
    : Kept c₀ r₀ (cutDense s h o) := by
  unfold cutDense
  repeat' first
    | with_reducible assumption | intro _ | with_reducible apply journalDense_kept | with_reducible apply State.took_kept
    | with_reducible apply denseRun_kept | with_reducible apply normAnchor_kept | with_reducible apply odParams_kept
    | with_reducible apply ite_kept | with_reducible apply ite_kept_snd | with_reducible apply foldl_kept
    | with_reducible apply foldl_kept_snd | (with_reducible refine foldl_kept_of DenseRun.st ?_ ?_)
    | (refine Kept.ofSnd (by assumption) ?_) | dsimp only | split

theorem writeState_kept {r₀ : State} {c₀ : Bool} {s : State} {o : OptDenseOp} {a : Int} {g : DenseRun} (h1 : Kept c₀ r₀ s)
    (h4 : Kept c₀ r₀ g.st) : Kept c₀ r₀ (writeState s o a g) := by
  unfold writeState
  repeat' first
    | with_reducible assumption | intro _ | with_reducible apply writeMem_kept | with_reducible apply reportRatio_kept
    | with_reducible apply ite_kept | with_reducible apply ite_kept_snd | with_reducible apply foldl_kept
    | with_reducible apply foldl_kept_snd | (with_reducible refine foldl_kept_of DenseRun.st ?_ ?_)
    | (refine Kept.ofSnd (by assumption) ?_) | dsimp only | split

theorem runDense_kept {r₀ : State} {c₀ : Bool} {s0 : State} {h : Hdr} {o : OptDenseOp} {p : Params} (h1 : Kept c₀ r₀ s0)
    : Kept c₀ r₀ (runDense s0 h o p) := by
  unfold runDense
  repeat' first
    | with_reducible assumption | intro _ | with_reducible apply journalDense_kept | with_reducible apply finish_kept
    | with_reducible apply writeState_kept | with_reducible apply checkRead_kept | with_reducible apply complete_kept
    | with_reducible apply denseRun_kept | with_reducible apply normAnchor_kept | with_reducible apply ite_kept
    | with_reducible apply ite_kept_snd | with_reducible apply foldl_kept | with_reducible apply foldl_kept_snd
    | (with_reducible refine foldl_kept_of DenseRun.st ?_ ?_) | (refine Kept.ofSnd (by assumption) ?_) | dsimp only | split

theorem execMuOptDense_kept {r₀ : State} {c₀ : Bool} {h : Hdr} {op : OptDenseOp} {s : State} {t₀}
    (e₀ : execMuOptDense h op s = .next t₀) (h3 : Kept c₀ r₀ s) : Kept c₀ r₀ t₀ := by
  unfold execMuOptDense at e₀
  repeat' first | contradiction | (injection e₀ with e₀; subst e₀) | dsimp only at e₀ | (split at e₀)
  repeat' first
    | with_reducible assumption | intro _ | with_reducible apply complete_kept | with_reducible apply runDense_kept
    | with_reducible apply runDesc_kept | with_reducible apply odParams_kept | with_reducible apply ite_kept
    | with_reducible apply ite_kept_snd | with_reducible apply foldl_kept | with_reducible apply foldl_kept_snd
    | (refine Kept.ofSnd (by assumption) ?_) | dsimp only | split

theorem cutDenses_kept {r₀ : State} {c₀ : Bool} {s : State} {f : Disp → Bool} (h1 : Kept c₀ r₀ s) : Kept c₀ r₀ (cutDenses s f) := by
  unfold cutDenses
  repeat' first
    | with_reducible assumption | intro _ | with_reducible apply cutDense_kept | with_reducible apply ite_kept
    | with_reducible apply foldl_kept | (refine Kept.ofSnd (by assumption) ?_) | dsimp only | split

end Sys2Proof.Machine
end

