-- ==== Sys2Proof/Laws/KeptEvents.lean ====
section
/-!
SUPPORT. What the definitions of Machine/Events.lean keep (Laws/Kept.lean).
-/

set_option linter.all false

namespace Sys2Proof.Machine

open Sys2Proof

theorem reclaimByReset_kept {r₀ : State} {c₀ : Bool} {s : State} {u : UnitId} (h1 : Kept c₀ r₀ s)
    : Kept c₀ r₀ (reclaimByReset s u) := by
  unfold reclaimByReset
  repeat' first
    | with_reducible assumption | intro _ | with_reducible apply endReclaim_kept | with_reducible apply bump_kept
    | with_reducible apply resetParty_kept | with_reducible apply ite_kept | with_reducible apply foldl_kept
    | (refine Kept.ofSnd (by assumption) ?_) | dsimp only | split

theorem execReclaimTimeout_kept {r₀ : State} {c₀ : Bool} {s : State} {t₀} (e₀ : execReclaimTimeout s = .next t₀)
    (h1 : Kept c₀ r₀ s) : Kept c₀ r₀ t₀ := by
  unfold execReclaimTimeout at e₀
  repeat' first | contradiction | (injection e₀ with e₀; subst e₀) | dsimp only at e₀ | (split at e₀)
  repeat' first
    | with_reducible assumption | intro _ | with_reducible apply setSticky_kept | with_reducible apply reclaimByReset_kept
    | with_reducible apply ite_kept | with_reducible apply foldl_kept | (refine Kept.ofSnd (by assumption) ?_) | dsimp only
    | split

theorem execQuietPeriodExpiry_kept {r₀ : State} {c₀ : Bool} {s : State} {t₀} (e₀ : execQuietPeriodExpiry s = .next t₀)
    (h1 : Kept c₀ r₀ s) : Kept c₀ r₀ t₀ := by
  unfold execQuietPeriodExpiry at e₀
  repeat' first | contradiction | (injection e₀ with e₀; subst e₀) | dsimp only at e₀ | (split at e₀)
  repeat' first
    | with_reducible assumption | intro _ | with_reducible apply clearSticky_kept | with_reducible apply ite_kept
    | with_reducible apply foldl_kept | (refine Kept.ofSnd (by assumption) ?_) | dsimp only | split

theorem execFree_kept {r₀ : State} {c₀ : Bool} {party : UnitId} {s : State} {t₀} (e₀ : execFree party s = .next t₀)
    (h2 : Kept c₀ r₀ s) : Kept c₀ r₀ t₀ := by
  unfold execFree at e₀
  repeat' first | contradiction | (injection e₀ with e₀; subst e₀) | dsimp only at e₀ | (split at e₀)
  repeat' first
    | with_reducible assumption | intro _ | with_reducible apply freeLeases_kept
    | (with_reducible refine State.onSv_kept ?_ (fun _ h => h)) | with_reducible apply ite_kept | with_reducible apply foldl_kept
    | (refine Kept.ofSnd (by assumption) ?_) | dsimp only | split

theorem execDeadlineExpiry_kept {r₀ : State} {c₀ : Bool} {queue index : Nat} {s : State} {t₀}
    (e₀ : execDeadlineExpiry queue index s = .next t₀) (h3 : Kept c₀ r₀ s) : Kept c₀ r₀ t₀ := by
  unfold execDeadlineExpiry at e₀
  repeat' first | contradiction | (injection e₀ with e₀; subst e₀) | dsimp only at e₀ | (split at e₀)
  repeat' first
    | with_reducible assumption | intro _ | with_reducible apply countExpiry_kept | with_reducible apply endEarly_kept
    | with_reducible apply cutDenses_kept | with_reducible apply ite_kept | with_reducible apply foldl_kept
    | (refine Kept.ofSnd (by assumption) ?_) | dsimp only | split

theorem execReleased_kept {r₀ : State} {c₀ : Bool} {party : UnitId} {s : State} {t₀} (e₀ : execReleased party s = .next t₀)
    (h2 : Kept c₀ r₀ s) : Kept c₀ r₀ t₀ := by
  unfold execReleased at e₀
  repeat' first | contradiction | (injection e₀ with e₀; subst e₀) | dsimp only at e₀ | (split at e₀)
  repeat' first
    | with_reducible assumption | intro _ | with_reducible apply endReclaim_kept | with_reducible apply liftFence_kept
    | with_reducible apply reclaimByReset_kept | (with_reducible refine State.onSv_kept ?_ (fun _ h => h))
    | with_reducible apply ite_kept | with_reducible apply foldl_kept | (refine Kept.ofSnd (by assumption) ?_) | dsimp only
    | split

theorem driveDatum_kept {r₀ : State} {c₀ : Bool} {s : State} (h1 : Kept c₀ r₀ s) : Kept c₀ r₀ (driveDatum s) := by
  unfold driveDatum
  repeat' first
    | with_reducible assumption | intro _ | with_reducible apply State.onCk_kept | with_reducible apply ite_kept
    | with_reducible apply foldl_kept | (refine Kept.ofSnd (by assumption) ?_) | dsimp only | split

theorem execDatumEdge_kept {r₀ : State} {c₀ : Bool} {bad : List Nat} {s : State} {t₀} (e₀ : execDatumEdge bad s = .next t₀)
    (h2 : Kept c₀ r₀ s) : Kept c₀ r₀ t₀ := by
  unfold execDatumEdge at e₀
  repeat' first | contradiction | (injection e₀ with e₀; subst e₀) | dsimp only at e₀ | (split at e₀)
  repeat' first
    | with_reducible assumption | intro _ | with_reducible apply driveDatum_kept | with_reducible apply sampleDatum_kept
    | with_reducible apply datumSampled_kept | with_reducible apply ite_kept | with_reducible apply foldl_kept
    | (refine Kept.ofSnd (by assumption) ?_) | dsimp only | split

theorem execPllLossOfLock_kept {r₀ : State} {c₀ : Bool} {die : Nat} {s : State} {t₀} (e₀ : execPllLossOfLock die s = .next t₀)
    (h2 : Kept c₀ r₀ s) : Kept c₀ r₀ t₀ := by
  unfold execPllLossOfLock at e₀
  repeat' first | contradiction | (injection e₀ with e₀; subst e₀) | dsimp only at e₀ | (split at e₀)
  repeat' first
    | with_reducible assumption | intro _ | with_reducible apply triggerReclaim_kept | with_reducible apply bump_kept
    | with_reducible apply State.onCk_kept | with_reducible apply setSticky_kept | with_reducible apply faultDiePanels_kept
    | with_reducible apply ite_kept | with_reducible apply foldl_kept | (refine Kept.ofSnd (by assumption) ?_) | dsimp only
    | split

theorem execLeaseExpiry_kept {r₀ : State} {c₀ : Bool} {kind : Nat} {holder : UnitId} {s : State} {t₀}
    (e₀ : execLeaseExpiry kind holder s = .next t₀) (h3 : Kept c₀ r₀ s) : Kept c₀ r₀ t₀ := by
  unfold execLeaseExpiry at e₀
  repeat' first | contradiction | (injection e₀ with e₀; subst e₀) | dsimp only at e₀ | (split at e₀)
  repeat' first
    | with_reducible assumption | intro _ | with_reducible apply triggerReclaim_kept | with_reducible apply setSticky_kept
    | with_reducible apply ite_kept | with_reducible apply foldl_kept | (refine Kept.ofSnd (by assumption) ?_) | dsimp only
    | split

theorem execMgmtParityFailure_kept {r₀ : State} {c₀ : Bool} {die : Nat} {s : State} {t₀}
    (e₀ : execMgmtParityFailure die s = .next t₀) (h2 : Kept c₀ r₀ s) : Kept c₀ r₀ t₀ := by
  unfold execMgmtParityFailure at e₀
  repeat' first | contradiction | (injection e₀ with e₀; subst e₀) | dsimp only at e₀ | (split at e₀)
  repeat' first
    | with_reducible assumption | intro _ | with_reducible apply triggerReclaim_kept | with_reducible apply setSticky_kept
    | with_reducible apply ite_kept | with_reducible apply foldl_kept | (refine Kept.ofSnd (by assumption) ?_) | dsimp only
    | split

theorem execPanelFault_kept {r₀ : State} {c₀ : Bool} {core : Nat} {s : State} {t₀} (e₀ : execPanelFault core s = .next t₀)
    (h2 : Kept c₀ r₀ s) : Kept c₀ r₀ t₀ := by
  unfold execPanelFault at e₀
  repeat' first | contradiction | (injection e₀ with e₀; subst e₀) | dsimp only at e₀ | (split at e₀)
  repeat' first
    | with_reducible assumption | intro _ | with_reducible apply panelFaultAt_kept | with_reducible apply cutDenses_kept
    | with_reducible apply ite_kept | with_reducible apply foldl_kept | (refine Kept.ofSnd (by assumption) ?_) | dsimp only
    | split

theorem execUnitError_kept {r₀ : State} {c₀ : Bool} {party : UnitId} {s : State} {t₀} (e₀ : execUnitError party s = .next t₀)
    (h2 : Kept c₀ r₀ s) : Kept c₀ r₀ t₀ := by
  unfold execUnitError at e₀
  repeat' first | contradiction | (injection e₀ with e₀; subst e₀) | dsimp only at e₀ | (split at e₀)
  repeat' first
    | with_reducible assumption | intro _ | with_reducible apply triggerReclaim_kept | with_reducible apply setSticky_kept
    | with_reducible apply ite_kept | with_reducible apply foldl_kept | (refine Kept.ofSnd (by assumption) ?_) | dsimp only
    | split

theorem execSvclkCheckFailure_kept {r₀ : State} {c₀ : Bool} {s : State} {t₀} (e₀ : execSvclkCheckFailure s = .next t₀)
    (h1 : Kept c₀ r₀ s) : Kept c₀ r₀ t₀ := by
  cases e₀; exact State.onSv_kept (setSticky_kept h1) fun _ _ => rfl

end Sys2Proof.Machine
end

