-- ==== Sys2Proof/Laws/KeptTwill.lean ====
section
/-!
SUPPORT. What the definitions of Machine/Twill.lean keep (Laws/Kept.lean).
-/

set_option linter.all false

namespace Sys2Proof.Machine

open Sys2Proof

theorem tileAlias_kept {r₀ : State} {c₀ : Bool} {s : State} {h : Hdr} {core : Nat} (h1 : Kept c₀ r₀ s)
    : Kept c₀ r₀ (tileAlias s h core) := by
  unfold tileAlias
  repeat' first
    | with_reducible assumption | intro _ | with_reducible apply setSticky_kept | with_reducible apply complete_kept
    | with_reducible apply bumpCore_kept | with_reducible apply ite_kept | with_reducible apply foldl_kept
    | (refine Kept.ofSnd (by assumption) ?_) | dsimp only | split

theorem coreFault_kept {r₀ : State} {c₀ : Bool} {s : State} {h : Hdr} {g : Nat} (h1 : Kept c₀ r₀ s)
    : Kept c₀ r₀ (coreFault s h g) := by
  unfold coreFault
  repeat' first
    | with_reducible assumption | intro _ | with_reducible apply panelFaultAt_kept | with_reducible apply complete_kept
    | with_reducible apply ite_kept | with_reducible apply foldl_kept | (refine Kept.ofSnd (by assumption) ?_) | dsimp only
    | split

theorem runMax_kept {r₀ : State} {c₀ : Bool} {s : State} {h : Hdr} {o : MaxOp} {low : Bool} (h1 : Kept c₀ r₀ s)
    : Kept c₀ r₀ (runMax s h o low) := by
  unfold runMax
  repeat' first
    | with_reducible assumption | intro _ | with_reducible apply cbWrite_kept | with_reducible apply complete_kept
    | with_reducible apply cbCheck_kept | with_reducible apply coreFault_kept | with_reducible apply ite_kept
    | with_reducible apply ite_kept_snd | with_reducible apply foldl_kept | with_reducible apply foldl_kept_snd
    | (refine Kept.ofSnd (by assumption) ?_) | dsimp only | split

theorem execTwMax_kept {r₀ : State} {c₀ : Bool} {h : Hdr} {op : MaxOp} {s : State} {t₀} (e₀ : execTwMax h op s = .next t₀)
    (h3 : Kept c₀ r₀ s) : Kept c₀ r₀ t₀ := by
  unfold execTwMax at e₀
  repeat' first | contradiction | (injection e₀ with e₀; subst e₀) | dsimp only at e₀ | (split at e₀)
  repeat' first
    | with_reducible assumption | intro _ | with_reducible apply runMax_kept | with_reducible apply runDesc_kept
    | with_reducible apply ite_kept | with_reducible apply foldl_kept | (refine Kept.ofSnd (by assumption) ?_) | dsimp only
    | split

theorem endMatmul_kept {r₀ : State} {c₀ : Bool} {s : State} {h : Hdr} {o : MatmulOp} {st : Nat} (h1 : Kept c₀ r₀ s)
    : Kept c₀ r₀ (endMatmul s h o st) := by
  unfold endMatmul
  repeat' first
    | with_reducible assumption | intro _ | with_reducible apply complete_kept | with_reducible apply dropShadow_kept
    | with_reducible apply staleTiles_kept | with_reducible apply ite_kept | with_reducible apply foldl_kept
    | (refine Kept.ofSnd (by assumption) ?_) | dsimp only | split

theorem loadWeights_kept {r₀ : State} {c₀ : Bool} {s : State} {h : Hdr} {o : MatmulOp} (h1 : Kept c₀ r₀ s)
    : Kept c₀ r₀ (loadWeights s h o) := by
  unfold loadWeights
  repeat' first
    | with_reducible assumption | intro _ | with_reducible apply State.took_kept | with_reducible apply setCore_kept
    | with_reducible apply bumpCore_kept | with_reducible apply ite_kept | with_reducible apply foldl_kept
    | (refine Kept.ofSnd (by assumption) ?_) | dsimp only | split

theorem loadShadow_kept {r₀ : State} {c₀ : Bool} {s : State} {h : Hdr} {o : MatmulOp} (h1 : Kept c₀ r₀ s)
    : Kept c₀ r₀ (loadShadow s h o).2 := by
  unfold loadShadow
  repeat' first
    | with_reducible assumption | intro _ | with_reducible apply setCore_kept | with_reducible apply cbCheck_kept
    | with_reducible apply ite_kept | with_reducible apply ite_kept_snd | with_reducible apply foldl_kept
    | with_reducible apply foldl_kept_snd | (refine Kept.ofSnd (by assumption) ?_) | dsimp only | split

theorem arrange_kept {r₀ : State} {c₀ : Bool} {s : State} {g : Nat} {arr : Bool} (h1 : Kept c₀ r₀ s)
    : Kept c₀ r₀ (arrange s g arr) := by
  unfold arrange
  repeat' first
    | with_reducible assumption | intro _ | with_reducible apply setCore_kept | with_reducible apply ite_kept
    | with_reducible apply foldl_kept | (refine Kept.ofSnd (by assumption) ?_) | dsimp only | split

theorem runMatmul_kept {r₀ : State} {c₀ : Bool} {s : State} {h : Hdr} {o : MatmulOp} (h1 : Kept c₀ r₀ s)
    : Kept c₀ r₀ (runMatmul s h o) := by
  unfold runMatmul
  repeat' first
    | with_reducible assumption | intro _ | with_reducible apply startTile_kept | with_reducible apply streamRows_kept
    | with_reducible apply loadWeights_kept | with_reducible apply complete_kept | with_reducible apply cbCheck_kept
    | with_reducible apply coreFault_kept | with_reducible apply bumpCore_kept | with_reducible apply loadShadow_kept
    | with_reducible apply arrange_kept | with_reducible apply drainRows_kept | with_reducible apply ite_kept
    | with_reducible apply ite_kept_snd | with_reducible apply foldl_kept | with_reducible apply foldl_kept_snd
    | (refine Kept.ofSnd (by assumption) ?_) | dsimp only | split

theorem setWaits_kept {r₀ : State} {c₀ : Bool} {s : State} {h : Hdr} {rs : List Range} (h1 : Kept c₀ r₀ s)
    : Kept c₀ r₀ (setWaits s h rs) := by
  unfold setWaits
  repeat' first
    | with_reducible assumption | intro _ | with_reducible apply State.onQm_kept | with_reducible apply ite_kept
    | with_reducible apply foldl_kept | (refine Kept.ofSnd (by assumption) ?_) | dsimp only | split

theorem execTwMatmul_kept {r₀ : State} {c₀ : Bool} {h : Hdr} {op : MatmulOp} {s : State} {t₀}
    (e₀ : execTwMatmul h op s = .next t₀) (h3 : Kept c₀ r₀ s) : Kept c₀ r₀ t₀ := by
  unfold execTwMatmul at e₀
  repeat' first | contradiction | (injection e₀ with e₀; subst e₀) | dsimp only at e₀ | (split at e₀)
  repeat' first
    | with_reducible assumption | intro _ | with_reducible apply tileAlias_kept | with_reducible apply endMatmul_kept
    | with_reducible apply runMatmul_kept | with_reducible apply setWaits_kept | with_reducible apply runDesc_kept
    | with_reducible apply ite_kept | with_reducible apply foldl_kept | (refine Kept.ofSnd (by assumption) ?_) | dsimp only
    | split

theorem execTwDrain_kept {r₀ : State} {c₀ : Bool} {h : Hdr} {op : MatmulOp} {s : State} {t₀} (e₀ : execTwDrain h op s = .next t₀)
    (h3 : Kept c₀ r₀ s) : Kept c₀ r₀ t₀ := by
  unfold execTwDrain at e₀
  repeat' first | contradiction | (injection e₀ with e₀; subst e₀) | dsimp only at e₀ | (split at e₀)
  repeat' first
    | with_reducible assumption | intro _ | with_reducible apply complete_kept | with_reducible apply coreFault_kept
    | with_reducible apply runDesc_kept | with_reducible apply arrange_kept | with_reducible apply drainRows_kept
    | with_reducible apply ite_kept | with_reducible apply ite_kept_snd | with_reducible apply foldl_kept
    | with_reducible apply foldl_kept_snd | (refine Kept.ofSnd (by assumption) ?_) | dsimp only | split

theorem execTwMin_kept {r₀ : State} {c₀ : Bool} {h : Hdr} {op : MaxOp} {s : State} {t₀} (e₀ : execTwMin h op s = .next t₀)
    (h3 : Kept c₀ r₀ s) : Kept c₀ r₀ t₀ := by
  unfold execTwMin at e₀
  repeat' first | contradiction | (injection e₀ with e₀; subst e₀) | dsimp only at e₀ | (split at e₀)
  repeat' first
    | with_reducible assumption | intro _ | with_reducible apply runMax_kept | with_reducible apply runDesc_kept
    | with_reducible apply ite_kept | with_reducible apply foldl_kept | (refine Kept.ofSnd (by assumption) ?_) | dsimp only
    | split

end Sys2Proof.Machine
end

