-- ==== Sys2Proof/Laws/KeptGather.lean ====
section
/-!
SUPPORT. What the definitions of Machine/Gather.lean keep (Laws/Kept.lean).
-/

set_option linter.all false

namespace Sys2Proof.Machine

open Sys2Proof

theorem readSlot_kept {r₀ : State} {c₀ : Bool} {s : State} {d i n : Nat} (h1 : Kept c₀ r₀ s) : Kept c₀ r₀ (readSlot s d i n).2 := by
  unfold readSlot
  repeat' first
    | with_reducible assumption | intro _ | with_reducible apply panelFaultAt_kept | with_reducible apply cbCheck_kept
    | with_reducible apply ite_kept | with_reducible apply ite_kept_snd | with_reducible apply foldl_kept
    | with_reducible apply foldl_kept_snd | (refine Kept.ofSnd (by assumption) ?_) | dsimp only | split

theorem bagRange_kept {r₀ : State} {c₀ : Bool} {s : State} {o : GatherOp} {b : Nat} (h1 : Kept c₀ r₀ s)
    : Kept c₀ r₀ (bagRange s o b).2 := by
  unfold bagRange
  repeat' first
    | with_reducible assumption | intro _ | with_reducible apply checkRead_kept | with_reducible apply ite_kept
    | with_reducible apply ite_kept_snd | with_reducible apply foldl_kept | with_reducible apply foldl_kept_snd
    | (refine Kept.ofSnd (by assumption) ?_) | dsimp only | split

theorem readAhead_kept {r₀ : State} {c₀ : Bool} {s : State} {o : GatherOp} {wsum : Bool} {b p : Nat} (h1 : Kept c₀ r₀ s)
    : Kept c₀ r₀ (readAhead s o wsum b p) := by
  unfold readAhead
  repeat' first
    | with_reducible assumption | intro _ | with_reducible apply checkReads_kept | with_reducible apply State.took_kept
    | with_reducible apply ite_kept | with_reducible apply ite_kept_snd | with_reducible apply foldl_kept
    | with_reducible apply foldl_kept_snd | (refine Kept.ofSnd (by assumption) ?_) | dsimp only | split

theorem bagItems_kept {r₀ : State} {c₀ : Bool} {s : State} {o : GatherOp} {wsum : Bool} {lo hi : Nat} (h1 : Kept c₀ r₀ s)
    : Kept c₀ r₀ (bagItems s o wsum lo hi).2 := by
  unfold bagItems
  repeat' first
    | with_reducible assumption | intro _ | with_reducible apply checkRead_kept | with_reducible apply ite_kept
    | with_reducible apply ite_kept_snd | with_reducible apply foldl_kept | with_reducible apply foldl_kept_snd
    | (refine Kept.ofSnd (by assumption) ?_) | dsimp only | split

theorem bumpEng_kept {r₀ : State} {c₀ : Bool} {s : State} {e off n : Nat} (h1 : Kept c₀ r₀ s) : Kept c₀ r₀ (bumpEng s e off n) := by
  unfold bumpEng
  repeat' first
    | with_reducible assumption | intro _ | with_reducible apply bumpBy_kept | with_reducible apply ite_kept
    | with_reducible apply foldl_kept | (refine Kept.ofSnd (by assumption) ?_) | dsimp only | split

theorem fetchRow_kept {r₀ : State} {c₀ : Bool} {s : State} {e t row : Nat} {tr : Rec} {x23}
    (e₀ : fetchRow s e t row tr = some x23) (h1 : Kept c₀ r₀ s) : Kept c₀ r₀ x23.2 := by
  unfold fetchRow at e₀
  repeat' first | contradiction | (injection e₀ with e₀; subst e₀) | dsimp only at e₀ | (split at e₀)
  repeat' first
    | with_reducible assumption | intro _ | with_reducible apply bump_kept | with_reducible apply bumpEng_kept
    | with_reducible apply readSlot_kept | with_reducible apply ownerRead_kept | with_reducible apply ite_kept
    | with_reducible apply ite_kept_snd | with_reducible apply foldl_kept | with_reducible apply foldl_kept_snd
    | (refine Kept.ofSnd (by assumption) ?_) | dsimp only | split

theorem gatherIndex_kept {r₀ : State} {c₀ : Bool} {e t : Nat} {tr : Rec} {g : GatherRun} {x : Int × Val} {x24}
    (e₀ : gatherIndex e t tr g x = some x24) (h4 : Kept c₀ r₀ g.st) : Kept c₀ r₀ x24.st := by
  unfold gatherIndex at e₀
  repeat' first | contradiction | (injection e₀ with e₀; subst e₀) | dsimp only at e₀ | (split at e₀)
  repeat' first
    | with_reducible assumption | intro _ | with_reducible apply bumpEng_kept | with_reducible apply ite_kept
    | with_reducible apply ite_kept_snd | with_reducible apply foldl_kept | with_reducible apply foldl_kept_snd
    | (with_reducible refine foldl_kept_of GatherRun.st ?_ ?_) | (with_reducible refine fetchRow_kept (by assumption) ?_)
    | (refine fetchRow_kept (x23 := (_, _)) (by assumption) ?_) | (refine Kept.ofSnd (by assumption) ?_) | dsimp only | split

theorem gatherIndices_kept {r₀ : State} {c₀ : Bool} {e t : Nat} {tr : Rec} {a3 : GatherRun} {a4 : List (Int × Val)} {x28}
    (e₀ : gatherIndices e t tr a3 a4 = some x28) (h4 : Kept c₀ r₀ a3.st) : Kept c₀ r₀ x28.st := by
  induction a4 generalizing a3 with
  | nil =>
    unfold gatherIndices at e₀
    repeat' first | contradiction | (injection e₀ with e₀; subst e₀) | dsimp only at e₀ | (split at e₀)
    repeat' first
      | with_reducible assumption | intro _ | with_reducible apply ite_kept | with_reducible apply foldl_kept
      | (with_reducible refine foldl_kept_of GatherRun.st ?_ ?_) | (with_reducible refine gatherIndex_kept (by assumption) ?_)
      | (refine Kept.ofSnd (by assumption) ?_) | dsimp only | split
  | cons _ _ ih =>
    unfold gatherIndices at e₀
    repeat' first | contradiction | (injection e₀ with e₀; subst e₀) | dsimp only at e₀ | (split at e₀)
    repeat' first
      | with_reducible assumption | intro _ | (with_reducible refine ih (by assumption) ?_) | with_reducible apply ite_kept
      | with_reducible apply foldl_kept | (with_reducible refine foldl_kept_of GatherRun.st ?_ ?_)
      | (with_reducible refine gatherIndex_kept (by assumption) ?_) | (refine Kept.ofSnd (by assumption) ?_) | dsimp only | split

theorem bagCodes_kept {r₀ : State} {c₀ : Bool} {s : State} {o : GatherOp} {tr : Rec} {g : GatherRun} (h1 : Kept c₀ r₀ s)
    (h4 : Kept c₀ r₀ g.st) : Kept c₀ r₀ (bagCodes s o tr g).2 := by
  unfold bagCodes
  repeat' first
    | with_reducible assumption | intro _ | with_reducible apply convList_kept | with_reducible apply ite_kept
    | with_reducible apply ite_kept_snd | with_reducible apply foldl_kept | with_reducible apply foldl_kept_snd
    | (with_reducible refine foldl_kept_of GatherRun.st ?_ ?_) | (refine Kept.ofSnd (by assumption) ?_) | dsimp only | split

theorem endGather_kept {r₀ : State} {c₀ : Bool} {s0 : State} {h : Hdr} {o : GatherOp} {s : State} {st : Nat} (h1 : Kept c₀ r₀ s0)
    (h4 : Kept c₀ r₀ s) : Kept c₀ r₀ (endGather s0 h o s st) := by
  unfold endGather
  repeat' first
    | with_reducible assumption | intro _ | with_reducible apply State.onMu_kept | with_reducible apply finish_kept
    | with_reducible apply ite_kept | with_reducible apply foldl_kept | (refine Kept.ofSnd (by assumption) ?_) | dsimp only
    | split

theorem writeBit_kept {r₀ : State} {c₀ : Bool} {s : State} {o : GatherOp} {b : Nat} {v : Bool} (h1 : Kept c₀ r₀ s)
    : Kept c₀ r₀ (writeBit s o b v) := by
  unfold writeBit
  repeat' first
    | with_reducible assumption | intro _ | with_reducible apply writeMem_kept | with_reducible apply ite_kept
    | with_reducible apply foldl_kept | (refine Kept.ofSnd (by assumption) ?_) | dsimp only | split

theorem writeBag_kept {r₀ : State} {c₀ : Bool} {s : State} {o : GatherOp} {tr : Rec} {b : Nat} {cs scs : List Nat} {bad : Bool}
    (h1 : Kept c₀ r₀ s) : Kept c₀ r₀ (writeBag s o tr b cs scs bad) := by
  unfold writeBag
  repeat' first
    | with_reducible assumption | intro _ | with_reducible apply writeMem_kept | with_reducible apply winWrite_kept
    | with_reducible apply setStrm_kept | with_reducible apply writeBit_kept | with_reducible apply showFull_kept
    | with_reducible apply windowFault_kept | with_reducible apply ite_kept | with_reducible apply foldl_kept
    | (refine Kept.ofSnd (by assumption) ?_) | dsimp only | split

theorem pauseGather_kept {r₀ : State} {c₀ : Bool} {h : Hdr} {b : Nat} {g : GatherRun} (h3 : Kept c₀ r₀ g.st)
    : Kept c₀ r₀ (pauseGather h b g) := by
  unfold pauseGather
  repeat' first
    | with_reducible assumption | intro _ | with_reducible apply State.onMu_kept | with_reducible apply ite_kept
    | with_reducible apply foldl_kept | (with_reducible refine foldl_kept_of GatherRun.st ?_ ?_)
    | (refine Kept.ofSnd (by assumption) ?_) | dsimp only | split

theorem gatherBags_kept {r₀ : State} {c₀ : Bool} {s0 : State} {h : Hdr} {o : GatherOp} {tr : Rec} {a4 a5 : Nat} {a6 : GatherRun}
    (h1 : Kept c₀ r₀ s0) (h7 : Kept c₀ r₀ a6.st) : Kept c₀ r₀ (gatherBags s0 h o tr a4 a5 a6) := by
  induction a4 generalizing a5 a6 with
  | zero =>
    unfold gatherBags
    repeat' first
      | with_reducible assumption | intro _ | with_reducible apply bagRange_kept | with_reducible apply readAhead_kept
      | with_reducible apply bagItems_kept | with_reducible apply bagCodes_kept | with_reducible apply endGather_kept
      | with_reducible apply writeBag_kept | with_reducible apply pauseGather_kept | with_reducible apply showFull_kept
      | with_reducible apply ite_kept | with_reducible apply ite_kept_snd | with_reducible apply foldl_kept
      | with_reducible apply foldl_kept_snd | (with_reducible refine foldl_kept_of GatherRun.st ?_ ?_)
      | (with_reducible refine gatherIndices_kept (by assumption) ?_) | (refine Kept.ofSnd (by assumption) ?_) | dsimp only | split
  | succ _ ih =>
    unfold gatherBags
    repeat' first
      | with_reducible assumption | intro _ | with_reducible apply ih | with_reducible apply bagRange_kept
      | with_reducible apply readAhead_kept | with_reducible apply bagItems_kept | with_reducible apply bagCodes_kept
      | with_reducible apply endGather_kept | with_reducible apply writeBag_kept | with_reducible apply pauseGather_kept
      | with_reducible apply showFull_kept | with_reducible apply ite_kept | with_reducible apply ite_kept_snd
      | with_reducible apply foldl_kept | with_reducible apply foldl_kept_snd
      | (with_reducible refine foldl_kept_of GatherRun.st ?_ ?_) | (with_reducible refine gatherIndices_kept (by assumption) ?_)
      | (refine Kept.ofSnd (by assumption) ?_) | dsimp only | split

theorem sendEntry_kept {r₀ : State} {c₀ : Bool} {h : Hdr} {o : GatherOp} {tr : Rec} {g : ScatterRun} {e : GradEntry}
    (h4 : Kept c₀ r₀ g.st) : Kept c₀ r₀ (sendEntry h o tr g e).st := by
  unfold sendEntry
  repeat' first
    | with_reducible assumption | intro _ | with_reducible apply sendAdd_kept | with_reducible apply openReq_kept
    | with_reducible apply ite_kept | with_reducible apply foldl_kept | (with_reducible refine foldl_kept_of ScatterRun.st ?_ ?_)
    | (refine Kept.ofSnd (by assumption) ?_) | dsimp only | split

theorem sendEntries_kept {r₀ : State} {c₀ : Bool} {h : Hdr} {o : GatherOp} {tr : Rec} {g : ScatterRun} (h4 : Kept c₀ r₀ g.st)
    : Kept c₀ r₀ (sendEntries h o tr g).st := by
  unfold sendEntries
  repeat' first
    | with_reducible assumption | intro _ | with_reducible apply sendEntry_kept | with_reducible apply ite_kept
    | with_reducible apply foldl_kept | (with_reducible refine foldl_kept_of ScatterRun.st ?_ ?_)
    | (refine Kept.ofSnd (by assumption) ?_) | dsimp only | split

theorem spillGrad_kept {r₀ : State} {c₀ : Bool} {h : Hdr} {o : GatherOp} {tr : Rec} {g : ScatterRun} (h4 : Kept c₀ r₀ g.st)
    : Kept c₀ r₀ (spillGrad h o tr g).st := by
  unfold spillGrad
  repeat' first
    | with_reducible assumption | intro _ | with_reducible apply bumpEng_kept | with_reducible apply sendEntries_kept
    | with_reducible apply ite_kept | with_reducible apply foldl_kept | (with_reducible refine foldl_kept_of ScatterRun.st ?_ ?_)
    | (refine Kept.ofSnd (by assumption) ?_) | dsimp only | split

theorem mergeGrad_kept {r₀ : State} {c₀ : Bool} {h : Hdr} {o : GatherOp} {tr : Rec} {g : ScatterRun} {row : Nat} {ws : List Int}
    (h4 : Kept c₀ r₀ g.st) : Kept c₀ r₀ (mergeGrad h o tr g row ws).st := by
  unfold mergeGrad
  repeat' first
    | with_reducible assumption | intro _ | with_reducible apply sendEntry_kept | with_reducible apply bumpEng_kept
    | with_reducible apply spillGrad_kept | with_reducible apply ite_kept | with_reducible apply foldl_kept
    | (with_reducible refine foldl_kept_of ScatterRun.st ?_ ?_) | (refine Kept.ofSnd (by assumption) ?_) | dsimp only | split

theorem scatterIndex_kept {r₀ : State} {c₀ : Bool} {h : Hdr} {o : GatherOp} {tr : Rec} {vs : List Val} {n : Nat} {g : ScatterRun}
    {x : Int × Val} (h6 : Kept c₀ r₀ g.st) : Kept c₀ r₀ (scatterIndex h o tr vs n g x).st := by
  unfold scatterIndex
  repeat' first
    | with_reducible assumption | intro _ | with_reducible apply mergeGrad_kept | with_reducible apply bumpBy_kept
    | with_reducible apply bumpEng_kept | with_reducible apply noteLoss_kept | with_reducible apply ite_kept
    | with_reducible apply foldl_kept | (with_reducible refine foldl_kept_of ScatterRun.st ?_ ?_)
    | (refine Kept.ofSnd (by assumption) ?_) | dsimp only | split

theorem gradRow_kept {r₀ : State} {c₀ : Bool} {s : State} {o : GatherOp} {tr : Rec} {b : Nat} (h1 : Kept c₀ r₀ s)
    : Kept c₀ r₀ (gradRow s o tr b).2.2 := by
  unfold gradRow
  repeat' first
    | with_reducible assumption | intro _ | with_reducible apply checkReads_kept | with_reducible apply checkRead_kept
    | with_reducible apply ite_kept | with_reducible apply ite_kept_snd | with_reducible apply foldl_kept
    | with_reducible apply foldl_kept_snd | (refine Kept.ofSnd (by assumption) ?_) | dsimp only | split

theorem scatterBags_kept {r₀ : State} {c₀ : Bool} {h : Hdr} {o : GatherOp} {tr : Rec} {a3 a4 : Nat} {a5 : ScatterRun}
    (h6 : Kept c₀ r₀ a5.st) : Kept c₀ r₀ (scatterBags h o tr a3 a4 a5).2.st := by
  induction a3 generalizing a4 a5 with
  | zero =>
    unfold scatterBags
    repeat' first
      | with_reducible assumption | intro _ | with_reducible apply bagRange_kept | with_reducible apply readAhead_kept
      | with_reducible apply bagItems_kept | with_reducible apply scatterIndex_kept | with_reducible apply gradRow_kept
      | with_reducible apply ite_kept | with_reducible apply ite_kept_snd | with_reducible apply foldl_kept
      | with_reducible apply foldl_kept_snd | (with_reducible refine foldl_kept_of ScatterRun.st ?_ ?_)
      | (refine Kept.ofSnd (by assumption) ?_) | dsimp only | split
  | succ _ ih =>
    unfold scatterBags
    repeat' first
      | with_reducible assumption | intro _ | with_reducible apply ih | with_reducible apply bagRange_kept
      | with_reducible apply readAhead_kept | with_reducible apply bagItems_kept | with_reducible apply scatterIndex_kept
      | with_reducible apply gradRow_kept | with_reducible apply ite_kept | with_reducible apply ite_kept_snd
      | with_reducible apply foldl_kept | with_reducible apply foldl_kept_snd
      | (with_reducible refine foldl_kept_of ScatterRun.st ?_ ?_) | (refine Kept.ofSnd (by assumption) ?_) | dsimp only | split

theorem runScatter_kept {r₀ : State} {c₀ : Bool} {s : State} {h : Hdr} {o : GatherOp} {tr : Rec} (h1 : Kept c₀ r₀ s)
    : Kept c₀ r₀ (runScatter s h o tr) := by
  unfold runScatter
  repeat' first
    | with_reducible assumption | intro _ | with_reducible apply State.onMu_kept | with_reducible apply markStarted_kept
    | with_reducible apply sendEntries_kept | with_reducible apply scatterBags_kept | with_reducible apply complete_kept
    | with_reducible apply waitFor_kept | with_reducible apply ite_kept | with_reducible apply ite_kept_snd
    | with_reducible apply foldl_kept | with_reducible apply foldl_kept_snd
    | (with_reducible refine foldl_kept_of ScatterRun.st ?_ ?_) | (refine Kept.ofSnd (by assumption) ?_) | dsimp only | split

theorem sendHeld_kept {r₀ : State} {c₀ : Bool} {s : State} {h : Hdr} {a2 : List (OutReq × AddMsg)} (h1 : Kept c₀ r₀ s)
    : Kept c₀ r₀ (sendHeld s h a2) := by
  induction a2 generalizing s with
  | nil =>
    unfold sendHeld
    repeat' first
      | with_reducible assumption | intro _ | with_reducible apply State.onMu_kept | with_reducible apply sendAdd_kept
      | with_reducible apply endAdds_kept | with_reducible apply openReq_kept | with_reducible apply State.onQm_kept
      | with_reducible apply ite_kept | with_reducible apply foldl_kept | (refine Kept.ofSnd (by assumption) ?_) | dsimp only
      | split
  | cons _ _ ih =>
    unfold sendHeld
    repeat' first
      | with_reducible assumption | intro _ | with_reducible apply ih | with_reducible apply State.onMu_kept
      | with_reducible apply sendAdd_kept | with_reducible apply endAdds_kept | with_reducible apply openReq_kept
      | with_reducible apply State.onQm_kept | with_reducible apply ite_kept | with_reducible apply foldl_kept
      | (refine Kept.ofSnd (by assumption) ?_) | dsimp only | split

theorem execMuGradScatter_kept {r₀ : State} {c₀ : Bool} {h : Hdr} {op : GatherOp} {s : State} {t₀}
    (e₀ : execMuGradScatter h op s = .next t₀) (h3 : Kept c₀ r₀ s) : Kept c₀ r₀ t₀ := by
  unfold execMuGradScatter at e₀
  repeat' first | contradiction | (injection e₀ with e₀; subst e₀) | dsimp only at e₀ | (split at e₀)
  repeat' first
    | with_reducible assumption | intro _ | with_reducible apply sendHeld_kept | with_reducible apply complete_kept
    | with_reducible apply setWaits_kept | with_reducible apply runScatter_kept | with_reducible apply runDesc_kept
    | with_reducible apply ite_kept | with_reducible apply foldl_kept | (refine Kept.ofSnd (by assumption) ?_) | dsimp only
    | split

theorem runGather_kept {r₀ : State} {c₀ : Bool} {s : State} {h : Hdr} {o : GatherOp} {tr : Rec} (h1 : Kept c₀ r₀ s)
    : Kept c₀ r₀ (runGather s h o tr) := by
  unfold runGather
  repeat' first
    | with_reducible assumption | intro _ | with_reducible apply markStarted_kept | with_reducible apply gatherBags_kept
    | with_reducible apply ite_kept | with_reducible apply foldl_kept | (with_reducible refine foldl_kept_of GatherRun.st ?_ ?_)
    | (refine Kept.ofSnd (by assumption) ?_) | dsimp only | split

theorem execMuGather_kept {r₀ : State} {c₀ : Bool} {h : Hdr} {op : GatherOp} {s : State} {t₀}
    (e₀ : execMuGather h op s = .next t₀) (h3 : Kept c₀ r₀ s) : Kept c₀ r₀ t₀ := by
  unfold execMuGather at e₀
  repeat' first | contradiction | (injection e₀ with e₀; subst e₀) | dsimp only at e₀ | (split at e₀)
  repeat' first
    | with_reducible assumption | intro _ | with_reducible apply complete_kept | with_reducible apply runGather_kept
    | with_reducible apply runDesc_kept | with_reducible apply ite_kept | with_reducible apply foldl_kept
    | (refine Kept.ofSnd (by assumption) ?_) | dsimp only | split

end Sys2Proof.Machine
end

