-- ==== Sys2Proof/Laws/KeptRegs.lean ====
section
/-!
SUPPORT. What the definitions of Machine/Regs.lean keep (Laws/Kept.lean).
-/

set_option linter.all false

namespace Sys2Proof.Machine

open Sys2Proof

theorem writeReg_kept {r₀ : State} {c₀ : Bool} {s : State} {d off : Nat} {a : Agent} {v : Nat} (h1 : Kept c₀ r₀ s)
    : Kept c₀ r₀ (writeReg s d off a v) := by
  unfold writeReg
  repeat' first
    | with_reducible assumption | intro _ | with_reducible apply writeHostRel_kept | with_reducible apply writeFwConfirm_kept
    | with_reducible apply writeGzCtl_kept | with_reducible apply writeInject_kept | with_reducible apply writeCtCtl_kept
    | with_reducible apply State.onGz_kept | with_reducible apply writeTokenIn_kept | with_reducible apply regSet_kept
    | with_reducible apply writeRhead_kept | with_reducible apply writeWarmReq_kept | with_reducible apply writeCounter_kept
    | with_reducible apply writePanelRst_kept | with_reducible apply startMbox_kept | with_reducible apply writePlan_kept
    | with_reducible apply writeDatumCtl_kept | with_reducible apply writeDirCtl_kept | with_reducible apply ringDoorbell_kept
    | with_reducible apply writeMcCtl_kept | with_reducible apply writeQctl_kept | with_reducible apply writeTcCredit_kept
    | with_reducible apply writeFaultClear_kept | with_reducible apply writeHstreamFill_kept | with_reducible apply ite_kept
    | with_reducible apply foldl_kept | (refine Kept.ofSnd (by assumption) ?_) | dsimp only | split

theorem maskedWrite_kept {r₀ : State} {c₀ : Bool} {s : State} {d off : Nat} {a : Agent} {mask v : Nat} (h1 : Kept c₀ r₀ s)
    : Kept c₀ r₀ (maskedWrite s d off a mask v) := by
  unfold maskedWrite
  repeat' first
    | with_reducible assumption | intro _ | with_reducible apply writeReg_kept | with_reducible apply ite_kept
    | with_reducible apply foldl_kept | (refine Kept.ofSnd (by assumption) ?_) | dsimp only | split

end Sys2Proof.Machine
end

