-- ==== Sys2Proof/Laws/KeptStreams.lean ====
section
/-!
SUPPORT. What the definitions of Machine/Streams.lean keep (Laws/Kept.lean).
-/

set_option linter.all false

namespace Sys2Proof.Machine

open Sys2Proof

theorem restartStrm_kept {r₀ : State} {c₀ : Bool} {s : State} {n seg : Nat} (h1 : Kept c₀ r₀ s)
    : Kept c₀ r₀ (restartStrm s n seg) := by
  unfold restartStrm
  repeat' first
    | with_reducible assumption | intro _ | with_reducible apply setStrm_kept | with_reducible apply pump_kept
    | with_reducible apply ite_kept | with_reducible apply foldl_kept | (refine Kept.ofSnd (by assumption) ?_) | dsimp only
    | split

theorem rearm_kept {r₀ : State} {c₀ : Bool} {s : State} {h : Hdr} {o : RearmOp} (h1 : Kept c₀ r₀ s) : Kept c₀ r₀ (rearm s h o) := by
  unfold rearm
  repeat' first
    | with_reducible assumption | intro _ | with_reducible apply markStarted_kept | with_reducible apply setStrm_kept
    | with_reducible apply complete_kept | with_reducible apply restartStrm_kept | with_reducible apply ite_kept
    | with_reducible apply foldl_kept | (refine Kept.ofSnd (by assumption) ?_) | dsimp only | split

theorem execStRearm_kept {r₀ : State} {c₀ : Bool} {h : Hdr} {op : RearmOp} {s : State} {t₀} (e₀ : execStRearm h op s = .next t₀)
    (h3 : Kept c₀ r₀ s) : Kept c₀ r₀ t₀ := by
  unfold execStRearm at e₀
  repeat' first | contradiction | (injection e₀ with e₀; subst e₀) | dsimp only at e₀ | (split at e₀)
  repeat' first
    | with_reducible assumption | intro _ | with_reducible apply complete_kept | with_reducible apply rearm_kept
    | with_reducible apply runDesc_kept | with_reducible apply ite_kept | with_reducible apply foldl_kept
    | (refine Kept.ofSnd (by assumption) ?_) | dsimp only | split

theorem sendMcRemote_kept {r₀ : State} {c₀ : Bool} {s : State} {m : Rec} {x18} (e₀ : sendMcRemote s m = some x18)
    (h1 : Kept c₀ r₀ s) : Kept c₀ r₀ x18 := by
  unfold sendMcRemote at e₀
  repeat' first | contradiction | (injection e₀ with e₀; subst e₀) | dsimp only at e₀ | (split at e₀)
  repeat' first
    | with_reducible assumption | intro _ | with_reducible apply State.onRings_kept | with_reducible apply State.took_kept
    | with_reducible apply openReq_kept | with_reducible apply sendRemote_kept | with_reducible apply ite_kept
    | with_reducible apply foldl_kept | (refine Kept.ofSnd (by assumption) ?_) | dsimp only | split

theorem execStRelease_kept {r₀ : State} {c₀ : Bool} {h : Hdr} {stream core bytes : Nat} {s : State} {t₀}
    (e₀ : execStRelease h stream core bytes s = .next t₀) (h5 : Kept c₀ r₀ s) : Kept c₀ r₀ t₀ := by
  unfold execStRelease at e₀
  repeat' first | contradiction | (injection e₀ with e₀; subst e₀) | dsimp only at e₀ | (split at e₀)
  repeat' first
    | with_reducible assumption | intro _ | with_reducible apply releaseBytes_kept | with_reducible apply complete_kept
    | with_reducible apply runDesc_kept | with_reducible apply ite_kept | with_reducible apply foldl_kept
    | (refine Kept.ofSnd (by assumption) ?_) | dsimp only | split

theorem takeMcast_kept {r₀ : State} {c₀ : Bool} {s : State} {f : Flit} {m r : Rec} (h1 : Kept c₀ r₀ s)
    : Kept c₀ r₀ (takeMcast s f m r) := by
  unfold takeMcast
  repeat' first
    | with_reducible assumption | intro _ | with_reducible apply bumpBy_kept | with_reducible apply winWrite_kept
    | with_reducible apply setRecv_kept | with_reducible apply windowFault_kept | with_reducible apply mcHold_kept
    | with_reducible apply ite_kept | with_reducible apply foldl_kept | (refine Kept.ofSnd (by assumption) ?_) | dsimp only
    | split

theorem recvMcast_kept {r₀ : State} {c₀ : Bool} {s : State} {f : Flit} (h1 : Kept c₀ r₀ s) : Kept c₀ r₀ (recvMcast s f) := by
  unfold recvMcast
  repeat' first
    | with_reducible assumption | intro _ | with_reducible apply takeMcast_kept | with_reducible apply bumpCore_kept
    | with_reducible apply ite_kept | with_reducible apply foldl_kept | (refine Kept.ofSnd (by assumption) ?_) | dsimp only
    | split

theorem landMcast_kept {r₀ : State} {c₀ : Bool} {s : State} {f : Flit} (h1 : Kept c₀ r₀ s) : Kept c₀ r₀ (landMcast s f) := by
  unfold landMcast
  repeat' first
    | with_reducible assumption | intro _ | with_reducible apply recvMcast_kept | with_reducible apply arriveAll_kept
    | with_reducible apply ite_kept | with_reducible apply ite_kept_snd | with_reducible apply foldl_kept
    | with_reducible apply foldl_kept_snd | (refine Kept.ofSnd (by assumption) ?_) | dsimp only | split

theorem sendMcAll_kept {r₀ : State} {c₀ : Bool} {m : Rec} {a1 : Nat} {a2 : State} (h3 : Kept c₀ r₀ a2)
    : Kept c₀ r₀ (sendMcAll m a1 a2) := by
  induction a1 generalizing a2 with
  | zero =>
    unfold sendMcAll
    repeat' first
      | with_reducible assumption | intro _ | with_reducible apply ite_kept | with_reducible apply foldl_kept
      | (with_reducible refine sendMcRemote_kept (by assumption) ?_) | (refine Kept.ofSnd (by assumption) ?_) | dsimp only | split
  | succ _ ih =>
    unfold sendMcAll
    repeat' first
      | with_reducible assumption | intro _ | with_reducible apply ih | with_reducible apply ite_kept
      | with_reducible apply foldl_kept | (with_reducible refine sendMcRemote_kept (by assumption) ?_)
      | (refine Kept.ofSnd (by assumption) ?_) | dsimp only | split

theorem sendRemotes_kept {r₀ : State} {c₀ : Bool} {s : State} (h1 : Kept c₀ r₀ s) : Kept c₀ r₀ (sendRemotes s) := by
  unfold sendRemotes
  repeat' first
    | with_reducible assumption | intro _ | with_reducible apply sendMcAll_kept | with_reducible apply ite_kept
    | with_reducible apply foldl_kept | (refine Kept.ofSnd (by assumption) ?_) | dsimp only | split

theorem sendMcast_kept {r₀ : State} {c₀ : Bool} {s : State} {f : Flit} {x15} (e₀ : sendMcast s f = some x15) (h1 : Kept c₀ r₀ s)
    : Kept c₀ r₀ x15 := by
  unfold sendMcast at e₀
  repeat' first | contradiction | (injection e₀ with e₀; subst e₀) | dsimp only at e₀ | (split at e₀)
  repeat' first
    | with_reducible assumption | intro _ | with_reducible apply State.onGz_kept | with_reducible apply sendRemotes_kept
    | with_reducible apply ite_kept | with_reducible apply foldl_kept | (refine Kept.ofSnd (by assumption) ?_) | dsimp only
    | split

theorem execMcastData_kept {r₀ : State} {c₀ : Bool} {f : Flit} {s : State} {t₀} (e₀ : execMcastData f s = .next t₀)
    (h2 : Kept c₀ r₀ s) : Kept c₀ r₀ t₀ := by
  unfold execMcastData at e₀
  repeat' first | contradiction | (injection e₀ with e₀; subst e₀) | dsimp only at e₀ | (split at e₀)
  repeat' first
    | with_reducible assumption | intro _ | with_reducible apply landMcast_kept | with_reducible apply ite_kept
    | with_reducible apply foldl_kept | (with_reducible refine sendMcast_kept (by assumption) ?_)
    | (refine Kept.ofSnd (by assumption) ?_) | dsimp only | split

theorem execStallArbiterDecision_kept {r₀ : State} {c₀ : Bool} {s : State} {t₀} (e₀ : execStallArbiterDecision s = .next t₀)
    (h1 : Kept c₀ r₀ s) : Kept c₀ r₀ t₀ := by
  unfold execStallArbiterDecision at e₀
  repeat' first | contradiction | (injection e₀ with e₀; subst e₀) | dsimp only at e₀ | (split at e₀)
  repeat' first
    | with_reducible assumption | intro _ | with_reducible apply abortStream_kept | with_reducible apply bump_kept
    | with_reducible apply setStrm_kept | with_reducible apply pump_kept | with_reducible apply State.onStreams_kept
    | with_reducible apply ite_kept | with_reducible apply foldl_kept | (refine Kept.ofSnd (by assumption) ?_) | dsimp only
    | split

theorem execMcDetach_kept {r₀ : State} {c₀ : Bool} {group : Nat} {s : State} {t₀} (e₀ : execMcDetach group s = .next t₀)
    (h2 : Kept c₀ r₀ s) : Kept c₀ r₀ t₀ := by
  unfold execMcDetach at e₀
  repeat' first | contradiction | (injection e₀ with e₀; subst e₀) | dsimp only at e₀ | (split at e₀)
  repeat' first
    | with_reducible assumption | intro _ | with_reducible apply detachRecv_kept | with_reducible apply showFull_kept
    | with_reducible apply ite_kept | with_reducible apply foldl_kept | (refine Kept.ofSnd (by assumption) ?_) | dsimp only
    | split

theorem unblock_kept {r₀ : State} {c₀ : Bool} {s : State} {g : Nat} (h1 : Kept c₀ r₀ s) : Kept c₀ r₀ (unblock s g) := by
  unfold unblock
  repeat' first
    | with_reducible assumption | intro _ | with_reducible apply showFull_kept | with_reducible apply ite_kept
    | with_reducible apply foldl_kept | (refine Kept.ofSnd (by assumption) ?_) | dsimp only | split

theorem takeMcAck_kept {r₀ : State} {c₀ : Bool} {s : State} {r : OutReq} (h1 : Kept c₀ r₀ s) : Kept c₀ r₀ (takeMcAck s r) := by
  unfold takeMcAck
  repeat' first
    | with_reducible assumption | intro _ | with_reducible apply unblock_kept | with_reducible apply setRecv_kept
    | with_reducible apply sendRemotes_kept | with_reducible apply ite_kept | with_reducible apply foldl_kept
    | (refine Kept.ofSnd (by assumption) ?_) | dsimp only | split

theorem replay_kept {r₀ : State} {c₀ : Bool} {s : State} {m : Rec} (h1 : Kept c₀ r₀ s) : Kept c₀ r₀ (replay s m) := by
  unfold replay
  repeat' first
    | with_reducible assumption | intro _ | with_reducible apply sendFlit_kept | with_reducible apply ite_kept
    | with_reducible apply foldl_kept | (refine Kept.ofSnd (by assumption) ?_) | dsimp only | split

theorem execStallBudgetExpiry_kept {r₀ : State} {c₀ : Bool} {stream : Nat} {s : State} {t₀}
    (e₀ : execStallBudgetExpiry stream s = .next t₀) (h2 : Kept c₀ r₀ s) : Kept c₀ r₀ t₀ := by
  unfold execStallBudgetExpiry at e₀
  repeat' first | contradiction | (injection e₀ with e₀; subst e₀) | dsimp only at e₀ | (split at e₀)
  repeat' first
    | with_reducible assumption | intro _ | with_reducible apply bump_kept | with_reducible apply setStrm_kept
    | with_reducible apply setSticky_kept | with_reducible apply ite_kept | with_reducible apply foldl_kept
    | (refine Kept.ofSnd (by assumption) ?_) | dsimp only | split

theorem takeAcked_kept {r₀ : State} {c₀ : Bool} {s : State} {f : Flit} (h1 : Kept c₀ r₀ s) : Kept c₀ r₀ (takeAcked s f) := by
  unfold takeAcked
  repeat' first
    | with_reducible assumption | intro _ | with_reducible apply unblock_kept | with_reducible apply lateAnswer_kept
    | with_reducible apply setRecv_kept | with_reducible apply replay_kept | with_reducible apply ite_kept
    | with_reducible apply foldl_kept | (refine Kept.ofSnd (by assumption) ?_) | dsimp only | split

end Sys2Proof.Machine
end

