-- ==== Sys2Proof/Laws/KeptFlits.lean ====
section
/-!
SUPPORT. What the definitions of Machine/Flits.lean keep (Laws/Kept.lean).
-/

set_option linter.all false

namespace Sys2Proof.Machine

open Sys2Proof

theorem ackStrm_kept {r₀ : State} {c₀ : Bool} {s : State} {r : OutReq} {stream : Nat} {f : Flit} (h1 : Kept c₀ r₀ s)
    : Kept c₀ r₀ (ackStrm s r stream f) := by
  unfold ackStrm
  repeat' first
    | with_reducible assumption | intro _ | with_reducible apply State.onRings_kept | with_reducible apply sendStrmReg_kept
    | with_reducible apply ite_kept | with_reducible apply foldl_kept | (refine Kept.ofSnd (by assumption) ?_) | dsimp only
    | split

theorem spendInjection_kept {r₀ : State} {c₀ : Bool} {s : State} {d : Nat} (h1 : Kept c₀ r₀ s)
    : Kept c₀ r₀ (spendInjection s d) := by
  unfold spendInjection
  repeat' first
    | with_reducible assumption | intro _ | (with_reducible refine State.onSv_kept ?_ (fun _ h => h))
    | with_reducible apply ite_kept | with_reducible apply foldl_kept | (refine Kept.ofSnd (by assumption) ?_) | dsimp only
    | split

theorem execFlitCrcError_kept {r₀ : State} {c₀ : Bool} {die port : Nat} {again : Bool} {s : State} {t₀}
    (e₀ : execFlitCrcError die port again s = .next t₀) (h4 : Kept c₀ r₀ s) : Kept c₀ r₀ t₀ := by
  unfold execFlitCrcError at e₀
  repeat' first | contradiction | (injection e₀ with e₀; subst e₀) | dsimp only at e₀ | (split at e₀)
  repeat' first
    | with_reducible assumption | intro _ | with_reducible apply bump_kept | with_reducible apply State.onGz_kept
    | with_reducible apply failPort_kept | with_reducible apply spendInjection_kept | with_reducible apply ite_kept
    | with_reducible apply foldl_kept | (refine Kept.ofSnd (by assumption) ?_) | dsimp only | split

theorem landRemote_kept {r₀ : State} {c₀ : Bool} {s : State} {r : Rec} {n : Nat} {g : Ingress} (h1 : Kept c₀ r₀ s)
    : Kept c₀ r₀ (landRemote s r n g) := by
  unfold landRemote
  repeat' first
    | with_reducible assumption | intro _ | with_reducible apply setStrm_kept | with_reducible apply showFull_kept
    | with_reducible apply ite_kept | with_reducible apply foldl_kept | (refine Kept.ofSnd (by assumption) ?_) | dsimp only
    | split

theorem landWrite_kept {r₀ : State} {c₀ : Bool} {s : State} {f : Flit} {g : Option Nat} {a : Nat} (h1 : Kept c₀ r₀ s)
    : Kept c₀ r₀ (landWrite s f g a) := by
  unfold landWrite
  repeat' first
    | with_reducible assumption | intro _ | with_reducible apply panelFaultAt_kept | with_reducible apply cbWrite_kept
    | with_reducible apply viewWrite_kept | with_reducible apply landRemote_kept | with_reducible apply ite_kept
    | with_reducible apply foldl_kept | (refine Kept.ofSnd (by assumption) ?_) | dsimp only | split

theorem respond_kept {r₀ : State} {c₀ : Bool} {s : State} {f : Flit} {panel da mark : Nat} {bs : List Byte} (h1 : Kept c₀ r₀ s)
    : Kept c₀ r₀ (respond s f panel da mark bs) := by
  unfold respond
  repeat' first
    | with_reducible assumption | intro _ | with_reducible apply sendFlit_kept | with_reducible apply ite_kept
    | with_reducible apply foldl_kept | (refine Kept.ofSnd (by assumption) ?_) | dsimp only | split

theorem respondData_kept {r₀ : State} {c₀ : Bool} {s : State} {f : Flit} {panel : Nat} {bs : List Byte} (h1 : Kept c₀ r₀ s)
    : Kept c₀ r₀ (respondData s f panel bs) := by
  unfold respondData
  repeat' first
    | with_reducible assumption | intro _ | with_reducible apply respond_kept | with_reducible apply ite_kept
    | with_reducible apply foldl_kept | (refine Kept.ofSnd (by assumption) ?_) | dsimp only | split

theorem readMemory_kept {r₀ : State} {c₀ : Bool} {s : State} {f : Flit} {a n : Nat} (h1 : Kept c₀ r₀ s)
    : Kept c₀ r₀ (readMemory s f a n).2 := by
  unfold readMemory
  repeat' first
    | with_reducible assumption | intro _ | with_reducible apply respondData_kept | with_reducible apply respond_kept
    | with_reducible apply checkRead_kept | with_reducible apply ite_kept | with_reducible apply ite_kept_snd
    | with_reducible apply foldl_kept | with_reducible apply foldl_kept_snd | (refine Kept.ofSnd (by assumption) ?_) | dsimp only
    | split

theorem landBackground_kept {r₀ : State} {c₀ : Bool} {s : State} {f : Flit} (h1 : Kept c₀ r₀ s)
    : Kept c₀ r₀ (landBackground s f) := by
  unfold landBackground
  repeat' first
    | with_reducible assumption | intro _ | with_reducible apply writeMem_kept | with_reducible apply ite_kept
    | with_reducible apply foldl_kept | (refine Kept.ofSnd (by assumption) ?_) | dsimp only | split

theorem landTc4_kept {r₀ : State} {c₀ : Bool} {s : State} {f : Flit} (h1 : Kept c₀ r₀ s) : Kept c₀ r₀ (landTc4 s f) := by
  unfold landTc4
  repeat' first
    | with_reducible assumption | intro _ | with_reducible apply landBackground_kept | with_reducible apply arrive_kept
    | with_reducible apply ite_kept | with_reducible apply ite_kept_snd | with_reducible apply foldl_kept
    | with_reducible apply foldl_kept_snd | (refine Kept.ofSnd (by assumption) ?_) | dsimp only | split

theorem sendSounding_kept {r₀ : State} {c₀ : Bool} {s : State} {f : Flit} (h1 : Kept c₀ r₀ s) : Kept c₀ r₀ (sendSounding s f) := by
  unfold sendSounding
  repeat' first
    | with_reducible assumption | intro _ | with_reducible apply State.onSounds_kept | with_reducible apply landTc4_kept
    | with_reducible apply ite_kept | with_reducible apply foldl_kept | (refine Kept.ofSnd (by assumption) ?_) | dsimp only
    | split

theorem serveRegRead_kept {r₀ : State} {c₀ : Bool} {s : State} {f : Flit} (h1 : Kept c₀ r₀ s) : Kept c₀ r₀ (serveRegRead s f) := by
  unfold serveRegRead
  repeat' first
    | with_reducible assumption | intro _ | with_reducible apply sendFlit_kept | with_reducible apply ite_kept
    | with_reducible apply foldl_kept | (refine Kept.ofSnd (by assumption) ?_) | dsimp only | split

theorem ackWrite_kept {r₀ : State} {c₀ : Bool} {s : State} {f : Flit} {panel : Nat} (h1 : Kept c₀ r₀ s)
    : Kept c₀ r₀ (ackWrite s f panel) := by
  unfold ackWrite
  repeat' first
    | with_reducible assumption | intro _ | with_reducible apply sendFlit_kept | with_reducible apply ite_kept
    | with_reducible apply foldl_kept | (refine Kept.ofSnd (by assumption) ?_) | dsimp only | split

theorem takeJournalAck_kept {r₀ : State} {c₀ : Bool} {s : State} {r : OutReq} (h1 : Kept c₀ r₀ s)
    : Kept c₀ r₀ (takeJournalAck s r) := by
  unfold takeJournalAck
  repeat' first
    | with_reducible assumption | intro _ | with_reducible apply pumpJournal_kept | with_reducible apply State.onTwin_kept
    | with_reducible apply pairCheck_kept | with_reducible apply ite_kept | with_reducible apply foldl_kept
    | (refine Kept.ofSnd (by assumption) ?_) | dsimp only | split

theorem execSounding_kept {r₀ : State} {c₀ : Bool} {f : Flit} {s : State} {t₀} (e₀ : execSounding f s = .next t₀)
    (h2 : Kept c₀ r₀ s) : Kept c₀ r₀ t₀ := by
  unfold execSounding at e₀
  repeat' first | contradiction | (injection e₀ with e₀; subst e₀) | dsimp only at e₀ | (split at e₀)
  repeat' first
    | with_reducible assumption | intro _ | with_reducible apply landTc4_kept | with_reducible apply sendSounding_kept
    | with_reducible apply ite_kept | with_reducible apply foldl_kept | (refine Kept.ofSnd (by assumption) ?_) | dsimp only
    | split

theorem releaseResp_kept {r₀ : State} {c₀ : Bool} {s : State} {r : OutReq} {whole : Bool} (h1 : Kept c₀ r₀ s)
    : Kept c₀ r₀ (releaseResp s r whole) := by
  unfold releaseResp
  repeat' first
    | with_reducible assumption | intro _ | with_reducible apply State.onGz_kept | with_reducible apply closeReq_kept
    | with_reducible apply ite_kept | with_reducible apply foldl_kept | (refine Kept.ofSnd (by assumption) ?_) | dsimp only
    | split

theorem landGet_kept {r₀ : State} {c₀ : Bool} {s : State} {r : OutReq} {f : Flit} (h1 : Kept c₀ r₀ s)
    : Kept c₀ r₀ (landGet s r f) := by
  unfold landGet
  repeat' first
    | with_reducible assumption | intro _ | with_reducible apply writeMem_kept | with_reducible apply State.onQm_kept
    | with_reducible apply ite_kept | with_reducible apply foldl_kept | (refine Kept.ofSnd (by assumption) ?_) | dsimp only
    | split

theorem takeResp_kept {r₀ : State} {c₀ : Bool} {s : State} {f : Flit} (h1 : Kept c₀ r₀ s) : Kept c₀ r₀ (takeResp s f) := by
  unfold takeResp
  repeat' first
    | with_reducible assumption | intro _ | with_reducible apply lateAnswer_kept | with_reducible apply answered_kept
    | with_reducible apply sendBack_kept | with_reducible apply answerIngress_kept | with_reducible apply releaseResp_kept
    | with_reducible apply landGet_kept | with_reducible apply ite_kept | with_reducible apply foldl_kept
    | (refine Kept.ofSnd (by assumption) ?_) | dsimp only | split

theorem serveWrite_kept {r₀ : State} {c₀ : Bool} {s : State} {f : Flit} (h1 : Kept c₀ r₀ s) : Kept c₀ r₀ (serveWrite s f) := by
  unfold serveWrite
  repeat' first
    | with_reducible assumption | intro _ | with_reducible apply leaveGauze_kept | with_reducible apply landWrite_kept
    | with_reducible apply ackWrite_kept | with_reducible apply bumpCore_kept | with_reducible apply refuse_kept
    | with_reducible apply ite_kept | with_reducible apply foldl_kept | (refine Kept.ofSnd (by assumption) ?_) | dsimp only
    | split

theorem readRow_kept {r₀ : State} {c₀ : Bool} {s : State} {f : Flit} {k t row a n : Nat} (h1 : Kept c₀ r₀ s)
    : Kept c₀ r₀ (readRow s f k t row a n) := by
  unfold readRow
  repeat' first
    | with_reducible assumption | intro _ | with_reducible apply survey_kept | with_reducible apply markPoisoned_kept
    | with_reducible apply sendFlit_kept | with_reducible apply respond_kept | with_reducible apply readMemory_kept
    | with_reducible apply noteFwd_kept | with_reducible apply hotAdd_kept | with_reducible apply ite_kept
    | with_reducible apply ite_kept_snd | with_reducible apply foldl_kept | with_reducible apply foldl_kept_snd
    | (refine Kept.ofSnd (by assumption) ?_) | dsimp only | split

theorem readForwarded_kept {r₀ : State} {c₀ : Bool} {s : State} {f : Flit} {owner n : Nat} (h1 : Kept c₀ r₀ s)
    : Kept c₀ r₀ (readForwarded s f owner n) := by
  unfold readForwarded
  repeat' first
    | with_reducible assumption | intro _ | with_reducible apply bump_kept | with_reducible apply markPoisoned_kept
    | with_reducible apply readMemory_kept | with_reducible apply refuse_kept | with_reducible apply ite_kept
    | with_reducible apply ite_kept_snd | with_reducible apply foldl_kept | with_reducible apply foldl_kept_snd
    | (refine Kept.ofSnd (by assumption) ?_) | dsimp only | split

theorem serveRead_kept {r₀ : State} {c₀ : Bool} {s : State} {f : Flit} {via : Option Nat} (h1 : Kept c₀ r₀ s)
    : Kept c₀ r₀ (serveRead s f via) := by
  unfold serveRead
  repeat' first
    | with_reducible assumption | intro _ | with_reducible apply respondData_kept | with_reducible apply leaveGauze_kept
    | with_reducible apply readRow_kept | with_reducible apply readSlot_kept | with_reducible apply respond_kept
    | with_reducible apply readMemory_kept | with_reducible apply refuse_kept | with_reducible apply readForwarded_kept
    | with_reducible apply ite_kept | with_reducible apply ite_kept_snd | with_reducible apply foldl_kept
    | with_reducible apply foldl_kept_snd | (refine Kept.ofSnd (by assumption) ?_) | dsimp only | split

theorem execRead_kept {r₀ : State} {c₀ : Bool} {f : Flit} {s : State} {t₀} (e₀ : execRead f s = .next t₀) (h2 : Kept c₀ r₀ s)
    : Kept c₀ r₀ t₀ := by
  unfold execRead at e₀
  repeat' first | contradiction | (injection e₀ with e₀; subst e₀) | dsimp only at e₀ | (split at e₀)
  repeat' first
    | with_reducible assumption | intro _ | with_reducible apply arrive_kept | with_reducible apply serveRead_kept
    | with_reducible apply serveRegRead_kept | with_reducible apply ite_kept | with_reducible apply ite_kept_snd
    | with_reducible apply foldl_kept | with_reducible apply foldl_kept_snd | (refine Kept.ofSnd (by assumption) ?_) | dsimp only
    | split

theorem afterAck_kept {r₀ : State} {c₀ : Bool} {s : State} {r : OutReq} {f : Flit} (h1 : Kept c₀ r₀ s)
    : Kept c₀ r₀ (afterAck s r f) := by
  unfold afterAck
  repeat' first
    | with_reducible assumption | intro _ | with_reducible apply takeJournalAck_kept | with_reducible apply ackStrm_kept
    | with_reducible apply takeMcAck_kept | with_reducible apply ite_kept | with_reducible apply foldl_kept
    | (refine Kept.ofSnd (by assumption) ?_) | dsimp only | split

theorem takeAck_kept {r₀ : State} {c₀ : Bool} {s : State} {f : Flit} (h1 : Kept c₀ r₀ s) : Kept c₀ r₀ (takeAck s f) := by
  unfold takeAck
  repeat' first
    | with_reducible assumption | intro _ | with_reducible apply afterAck_kept | with_reducible apply takeAcked_kept
    | with_reducible apply lateAnswer_kept | with_reducible apply endStore_kept | with_reducible apply answered_kept
    | with_reducible apply answerIngress_kept | with_reducible apply closeReq_kept | with_reducible apply ite_kept
    | with_reducible apply foldl_kept | (refine Kept.ofSnd (by assumption) ?_) | dsimp only | split

theorem execWriteAck_kept {r₀ : State} {c₀ : Bool} {f : Flit} {s : State} {t₀} (e₀ : execWriteAck f s = .next t₀)
    (h2 : Kept c₀ r₀ s) : Kept c₀ r₀ t₀ := by
  unfold execWriteAck at e₀
  repeat' first | contradiction | (injection e₀ with e₀; subst e₀) | dsimp only at e₀ | (split at e₀)
  repeat' first
    | with_reducible assumption | intro _ | with_reducible apply arrive_kept | with_reducible apply takeAck_kept
    | with_reducible apply ite_kept | with_reducible apply ite_kept_snd | with_reducible apply foldl_kept
    | with_reducible apply foldl_kept_snd | (refine Kept.ofSnd (by assumption) ?_) | dsimp only | split

theorem serveRegWrite_kept {r₀ : State} {c₀ : Bool} {s : State} {f : Flit} (h1 : Kept c₀ r₀ s)
    : Kept c₀ r₀ (serveRegWrite s f) := by
  unfold serveRegWrite
  repeat' first
    | with_reducible assumption | intro _ | with_reducible apply maskedWrite_kept | with_reducible apply ackWrite_kept
    | with_reducible apply ite_kept | with_reducible apply foldl_kept | (refine Kept.ofSnd (by assumption) ?_) | dsimp only
    | split

theorem takeWrite_kept {r₀ : State} {c₀ : Bool} {s : State} {f : Flit} (h1 : Kept c₀ r₀ s) : Kept c₀ r₀ (takeWrite s f) := by
  unfold takeWrite
  repeat' first
    | with_reducible assumption | intro _ | with_reducible apply serveRegWrite_kept | with_reducible apply serveWrite_kept
    | with_reducible apply ite_kept | with_reducible apply foldl_kept | (refine Kept.ofSnd (by assumption) ?_) | dsimp only
    | split

theorem takeRegResp_kept {r₀ : State} {c₀ : Bool} {s : State} {f : Flit} (h1 : Kept c₀ r₀ s) : Kept c₀ r₀ (takeRegResp s f) := by
  unfold takeRegResp
  repeat' first
    | with_reducible assumption | intro _ | with_reducible apply lateAnswer_kept | with_reducible apply answered_kept
    | with_reducible apply closeReq_kept | with_reducible apply ite_kept | with_reducible apply foldl_kept
    | (refine Kept.ofSnd (by assumption) ?_) | dsimp only | split

theorem execCredit_kept {r₀ : State} {c₀ : Bool} {die port tc n : Nat} {s : State} {t₀}
    (e₀ : execCredit die port tc n s = .next t₀) (h5 : Kept c₀ r₀ s) : Kept c₀ r₀ t₀ := by
  unfold execCredit at e₀
  repeat' first | contradiction | (injection e₀ with e₀; subst e₀) | dsimp only at e₀ | (split at e₀)
  repeat' first
    | with_reducible assumption | intro _ | with_reducible apply returnCredits_kept | with_reducible apply ite_kept
    | with_reducible apply foldl_kept | (refine Kept.ofSnd (by assumption) ?_) | dsimp only | split

theorem execWrite_kept {r₀ : State} {c₀ : Bool} {f : Flit} {s : State} {t₀} (e₀ : execWrite f s = .next t₀) (h2 : Kept c₀ r₀ s)
    : Kept c₀ r₀ t₀ := by
  unfold execWrite at e₀
  have k : Kept c₀ r₀ (arriveAll s (asOp 0x02 [0x08] f)).2 := arriveAll_kept h2
  rcases h : arriveAll s (asOp 0x02 [0x08] f) with ⟨l, u⟩
  rw [h] at e₀ k
  injection e₀ with e₀; subst e₀
  exact foldl_kept k fun _ _ k => takeWrite_kept k

theorem execLaneRepair_kept {r₀ : State} {c₀ : Bool} {die port : Nat} {s : State} {t₀} (e₀ : execLaneRepair die port s = .next t₀)
    (h3 : Kept c₀ r₀ s) : Kept c₀ r₀ t₀ := by
  unfold execLaneRepair at e₀
  repeat' first | contradiction | (injection e₀ with e₀; subst e₀) | dsimp only at e₀ | (split at e₀)
  repeat' first
    | with_reducible assumption | intro _ | (with_reducible refine State.onPkg_kept ?_ (fun _ => ⟨rfl, rfl⟩))
    | with_reducible apply ite_kept | with_reducible apply foldl_kept | (refine Kept.ofSnd (by assumption) ?_) | dsimp only
    | split

theorem execBackgroundMove_kept {r₀ : State} {c₀ : Bool} {f : Flit} {s : State} {t₀} (e₀ : execBackgroundMove f s = .next t₀)
    (h2 : Kept c₀ r₀ s) : Kept c₀ r₀ t₀ := by
  unfold execBackgroundMove at e₀
  repeat' first | contradiction | (injection e₀ with e₀; subst e₀) | dsimp only at e₀ | (split at e₀)
  repeat' first
    | with_reducible assumption | intro _ | with_reducible apply landTc4_kept | with_reducible apply ite_kept
    | with_reducible apply foldl_kept | (refine Kept.ofSnd (by assumption) ?_) | dsimp only | split

theorem execLaneRepairExhausted_kept {r₀ : State} {c₀ : Bool} {die port : Nat} {s : State} {t₀}
    (e₀ : execLaneRepairExhausted die port s = .next t₀) (h3 : Kept c₀ r₀ s) : Kept c₀ r₀ t₀ := by
  unfold execLaneRepairExhausted at e₀
  repeat' first | contradiction | (injection e₀ with e₀; subst e₀) | dsimp only at e₀ | (split at e₀)
  repeat' first
    | with_reducible assumption | intro _ | with_reducible apply legendUpdate_kept | with_reducible apply setSticky_kept
    | with_reducible apply setLink_kept | with_reducible apply failPort_kept | with_reducible apply ite_kept
    | with_reducible apply foldl_kept | (refine Kept.ofSnd (by assumption) ?_) | dsimp only | split

theorem execRegResp_kept {r₀ : State} {c₀ : Bool} {f : Flit} {s : State} {t₀} (e₀ : execRegResp f s = .next t₀)
    (h2 : Kept c₀ r₀ s) : Kept c₀ r₀ t₀ := by
  unfold execRegResp at e₀
  repeat' first | contradiction | (injection e₀ with e₀; subst e₀) | dsimp only at e₀ | (split at e₀)
  repeat' first
    | with_reducible assumption | intro _ | with_reducible apply arrive_kept | with_reducible apply takeRegResp_kept
    | with_reducible apply ite_kept | with_reducible apply ite_kept_snd | with_reducible apply foldl_kept
    | with_reducible apply foldl_kept_snd | (refine Kept.ofSnd (by assumption) ?_) | dsimp only | split

theorem execReadResp_kept {r₀ : State} {c₀ : Bool} {f : Flit} {s : State} {t₀} (e₀ : execReadResp f s = .next t₀)
    (h2 : Kept c₀ r₀ s) : Kept c₀ r₀ t₀ := by
  unfold execReadResp at e₀
  repeat' first | contradiction | (injection e₀ with e₀; subst e₀) | dsimp only at e₀ | (split at e₀)
  repeat' first
    | with_reducible assumption | intro _ | with_reducible apply arrive_kept | with_reducible apply takeResp_kept
    | with_reducible apply ite_kept | with_reducible apply ite_kept_snd | with_reducible apply foldl_kept
    | with_reducible apply foldl_kept_snd | (refine Kept.ofSnd (by assumption) ?_) | dsimp only | split

end Sys2Proof.Machine
end

