-- ==== Sys2Proof/Laws/KeptHost.lean ====
section
/-!
SUPPORT. What the definitions of Machine/Host.lean keep (Laws/Kept.lean).
-/

set_option linter.all false

namespace Sys2Proof.Machine

open Sys2Proof

theorem badAccess_kept {r₀ : State} {c₀ : Bool} {s : State} (h1 : Kept c₀ r₀ s) : Kept c₀ r₀ (badAccess s) := by
  unfold badAccess
  repeat' first
    | with_reducible assumption | intro _ | with_reducible apply bump_kept | with_reducible apply ite_kept
    | with_reducible apply foldl_kept | (refine Kept.ofSnd (by assumption) ?_) | dsimp only | split

theorem hostReply_kept {r₀ : State} {c₀ : Bool} {s : State} {bs : List Byte} {poison : Bool} (h1 : Kept c₀ r₀ s)
    : Kept c₀ r₀ (hostReply s bs poison) := by
  unfold hostReply
  repeat' first
    | with_reducible assumption | intro _ | with_reducible apply State.onHost_kept | with_reducible apply ite_kept
    | with_reducible apply foldl_kept | (refine Kept.ofSnd (by assumption) ?_) | dsimp only | split

theorem hostReadDa_kept {r₀ : State} {c₀ : Bool} {s : State} {da n : Nat} (h1 : Kept c₀ r₀ s) : Kept c₀ r₀ (hostReadDa s da n) := by
  unfold hostReadDa
  repeat' first
    | with_reducible assumption | intro _ | with_reducible apply State.took_kept | with_reducible apply checkRead_kept
    | with_reducible apply badAccess_kept | with_reducible apply hostReply_kept | with_reducible apply ite_kept
    | with_reducible apply ite_kept_snd | with_reducible apply foldl_kept | with_reducible apply foldl_kept_snd
    | (refine Kept.ofSnd (by assumption) ?_) | dsimp only | split

theorem dropPosted_kept {r₀ : State} {c₀ : Bool} {s : State} {p : Posted} (h1 : Kept c₀ r₀ s) : Kept c₀ r₀ (dropPosted s p) := by
  unfold dropPosted
  repeat' first
    | with_reducible assumption | intro _
    | (with_reducible refine State.onMem_kept ?_ (fun _ h => ?_) (fun _ h => ?_) (fun _ h => ?_)) | exact writeCells_wf _ _ _ h
    | with_reducible apply insAll_rising | with_reducible apply ins_rising | with_reducible apply List.Pairwise.filter
    | with_reducible apply keep_wf | with_reducible apply keep_rising | with_reducible apply del_rising
    | with_reducible apply put_rising | with_reducible apply ite_kept | with_reducible apply foldl_kept
    | (refine Kept.ofSnd (by assumption) ?_) | dsimp only | split

theorem losePosted_kept {r₀ : State} {c₀ : Bool} {s : State} {p : Posted} (h1 : Kept c₀ r₀ s) : Kept c₀ r₀ (losePosted s p) := by
  unfold losePosted
  repeat' first
    | with_reducible assumption | intro _ | with_reducible apply bump_kept | with_reducible apply answered_kept
    | with_reducible apply setSticky_kept | with_reducible apply dropPosted_kept | with_reducible apply ite_kept
    | with_reducible apply foldl_kept | (refine Kept.ofSnd (by assumption) ?_) | dsimp only | split

theorem execFarCplTimeout_kept {r₀ : State} {c₀ : Bool} {port tag : Nat} {s : State} {t₀}
    (e₀ : execFarCplTimeout port tag s = .next t₀) (h3 : Kept c₀ r₀ s) : Kept c₀ r₀ t₀ := by
  unfold execFarCplTimeout at e₀
  repeat' first | contradiction | (injection e₀ with e₀; subst e₀) | dsimp only at e₀ | (split at e₀)
  repeat' first
    | with_reducible assumption | intro _ | with_reducible apply bump_kept | with_reducible apply losePosted_kept
    | with_reducible apply setSticky_kept
    | (with_reducible refine State.onMem_kept ?_ (fun _ h => ?_) (fun _ h => ?_) (fun _ h => ?_)) | exact writeCells_wf _ _ _ h
    | with_reducible apply insAll_rising | with_reducible apply ins_rising | with_reducible apply List.Pairwise.filter
    | with_reducible apply keep_wf | with_reducible apply keep_rising | with_reducible apply del_rising
    | with_reducible apply put_rising | with_reducible apply ite_kept | with_reducible apply foldl_kept
    | (refine Kept.ofSnd (by assumption) ?_) | dsimp only | split

theorem execCoreFence_kept {r₀ : State} {c₀ : Bool} {core : Nat} {s : State} {t₀} (e₀ : execCoreFence core s = .next t₀)
    (h2 : Kept c₀ r₀ s) : Kept c₀ r₀ t₀ := by
  unfold execCoreFence at e₀
  repeat' first | contradiction | (injection e₀ with e₀; subst e₀) | dsimp only at e₀ | (split at e₀)
  repeat' first
    | with_reducible assumption | intro _ | with_reducible apply State.onCores_kept | with_reducible apply ite_kept
    | with_reducible apply foldl_kept | (refine Kept.ofSnd (by assumption) ?_) | dsimp only | split

theorem sendStore_kept {r₀ : State} {c₀ : Bool} {s : State} {core da : Nat} {bs : List Byte} (h1 : Kept c₀ r₀ s)
    : Kept c₀ r₀ (sendStore s core da bs) := by
  unfold sendStore
  repeat' first
    | with_reducible assumption | intro _ | with_reducible apply State.onCores_kept | with_reducible apply sendFlit_kept
    | with_reducible apply openReq_kept | with_reducible apply ite_kept | with_reducible apply foldl_kept
    | (refine Kept.ofSnd (by assumption) ?_) | dsimp only | split

theorem coreAnswer_kept {r₀ : State} {c₀ : Bool} {s : State} {core : Nat} {bs : List Byte} {fault : Bool} (h1 : Kept c₀ r₀ s)
    : Kept c₀ r₀ (coreAnswer s core bs fault) := by
  unfold coreAnswer
  repeat' first
    | with_reducible assumption | intro _ | with_reducible apply State.onCores_kept | with_reducible apply ite_kept
    | with_reducible apply foldl_kept | (refine Kept.ofSnd (by assumption) ?_) | dsimp only | split

theorem execCoreStore_kept {r₀ : State} {c₀ : Bool} {core : Nat} {agent : Agent} {da : Nat} {data : List Byte} {s : State} {t₀}
    (e₀ : execCoreStore core agent da data s = .next t₀) (h5 : Kept c₀ r₀ s) : Kept c₀ r₀ t₀ := by
  unfold execCoreStore at e₀
  repeat' first | contradiction | (injection e₀ with e₀; subst e₀) | dsimp only at e₀ | (split at e₀)
  repeat' first
    | with_reducible assumption | intro _ | with_reducible apply writeReg_kept | with_reducible apply sendStore_kept
    | with_reducible apply coreAnswer_kept | with_reducible apply ite_kept | with_reducible apply foldl_kept
    | (refine Kept.ofSnd (by assumption) ?_) | dsimp only | split

theorem execCoreLoad_kept {r₀ : State} {c₀ : Bool} {core : Nat} {agent : Agent} {da len : Nat} {s : State} {t₀}
    (e₀ : execCoreLoad core agent da len s = .next t₀) (h5 : Kept c₀ r₀ s) : Kept c₀ r₀ t₀ := by
  unfold execCoreLoad at e₀
  repeat' first | contradiction | (injection e₀ with e₀; subst e₀) | dsimp only at e₀ | (split at e₀)
  repeat' first
    | with_reducible assumption | intro _ | with_reducible apply State.took_kept | with_reducible apply checkRead_kept
    | with_reducible apply coreAnswer_kept | with_reducible apply ite_kept | with_reducible apply ite_kept_snd
    | with_reducible apply foldl_kept | with_reducible apply foldl_kept_snd | (refine Kept.ofSnd (by assumption) ?_) | dsimp only
    | split

theorem execHostRead_kept {r₀ : State} {c₀ : Bool} {bar : Bool} {addr len : Nat} {s : State} {t₀}
    (e₀ : execHostRead bar addr len s = .next t₀) (h4 : Kept c₀ r₀ s) : Kept c₀ r₀ t₀ := by
  unfold execHostRead at e₀
  repeat' first | contradiction | (injection e₀ with e₀; subst e₀) | dsimp only at e₀ | (split at e₀)
  repeat' first
    | with_reducible assumption | intro _ | with_reducible apply State.onHost_kept | with_reducible apply State.took_kept
    | with_reducible apply badAccess_kept | with_reducible apply hostReadDa_kept | with_reducible apply hostReply_kept
    | with_reducible apply ite_kept | with_reducible apply foldl_kept | (refine Kept.ofSnd (by assumption) ?_) | dsimp only
    | split

theorem clearHost_kept {r₀ : State} {c₀ : Bool} {s : State} (h1 : Kept c₀ r₀ s) : Kept c₀ r₀ (clearHost s) := by
  unfold clearHost
  repeat' first
    | with_reducible assumption | intro _ | with_reducible apply State.onHost_kept
    | (with_reducible refine State.onRegs_kept ?_ (fun _ h => ?_)) | with_reducible apply keep_wf
    | with_reducible apply keep_rising | with_reducible apply del_rising | with_reducible apply put_rising
    | with_reducible apply ite_kept | with_reducible apply foldl_kept | (refine Kept.ofSnd (by assumption) ?_) | dsimp only
    | split

theorem trainHost_kept {r₀ : State} {c₀ : Bool} {s : State} (h1 : Kept c₀ r₀ s) : Kept c₀ r₀ (trainHost s) := by
  unfold trainHost
  repeat' first
    | with_reducible assumption | intro _ | with_reducible apply State.onHost_kept | with_reducible apply State.took_kept
    | with_reducible apply ite_kept | with_reducible apply foldl_kept | (refine Kept.ofSnd (by assumption) ?_) | dsimp only
    | split

theorem execHlPerstN_kept {r₀ : State} {c₀ : Bool} {high : Bool} {s : State} {t₀} (e₀ : execHlPerstN high s = .next t₀)
    (h2 : Kept c₀ r₀ s) : Kept c₀ r₀ t₀ := by
  unfold execHlPerstN at e₀
  repeat' first | contradiction | (injection e₀ with e₀; subst e₀) | dsimp only at e₀ | (split at e₀)
  repeat' first
    | with_reducible assumption | intro _ | with_reducible apply bump_kept | with_reducible apply State.onHost_kept
    | with_reducible apply clearHost_kept | with_reducible apply trainHost_kept | with_reducible apply ite_kept
    | with_reducible apply foldl_kept | (refine Kept.ofSnd (by assumption) ?_) | dsimp only | split

theorem hostWriteFar_kept {r₀ : State} {c₀ : Bool} {s : State} {da : Nat} {bs : List Byte} (h1 : Kept c₀ r₀ s)
    : Kept c₀ r₀ (hostWriteFar s da bs) := by
  unfold hostWriteFar
  repeat' first
    | with_reducible assumption | intro _ | with_reducible apply postFar_kept | with_reducible apply storeMem_kept
    | with_reducible apply ite_kept | with_reducible apply foldl_kept | (refine Kept.ofSnd (by assumption) ?_) | dsimp only
    | split

theorem setFar_kept {r₀ : State} {c₀ : Bool} {s : State} {p : Nat} {f : FarPort → FarPort} (h1 : Kept c₀ r₀ s)
    : Kept c₀ r₀ (setFar s p f) := by
  unfold setFar
  repeat' first
    | with_reducible assumption | intro _ | with_reducible apply legendUpdate_kept
    | (with_reducible refine State.onPkg_kept ?_ (fun _ => ⟨rfl, rfl⟩)) | with_reducible apply ite_kept
    | with_reducible apply foldl_kept | (refine Kept.ofSnd (by assumption) ?_) | dsimp only | split

theorem hostWriteRegs_kept {r₀ : State} {c₀ : Bool} {da : Nat} {bs : List Byte} {a2 a3 : Nat} {a4 : State} (h5 : Kept c₀ r₀ a4)
    : Kept c₀ r₀ (hostWriteRegs da bs a2 a3 a4) := by
  induction a2 generalizing a3 a4 with
  | zero =>
    unfold hostWriteRegs
    repeat' first
      | with_reducible assumption | intro _ | with_reducible apply writeReg_kept | with_reducible apply badAccess_kept
      | with_reducible apply ite_kept | with_reducible apply foldl_kept | (refine Kept.ofSnd (by assumption) ?_) | dsimp only
      | split
  | succ _ ih =>
    unfold hostWriteRegs
    repeat' first
      | with_reducible assumption | intro _ | with_reducible apply ih | with_reducible apply writeReg_kept
      | with_reducible apply badAccess_kept | with_reducible apply ite_kept | with_reducible apply foldl_kept
      | (refine Kept.ofSnd (by assumption) ?_) | dsimp only | split

theorem hostWriteDa_kept {r₀ : State} {c₀ : Bool} {s : State} {da : Nat} {bs : List Byte} (h1 : Kept c₀ r₀ s)
    : Kept c₀ r₀ (hostWriteDa s da bs) := by
  unfold hostWriteDa
  repeat' first
    | with_reducible assumption | intro _ | with_reducible apply hostWriteFar_kept | with_reducible apply writeWords_kept
    | with_reducible apply hostWriteRegs_kept | with_reducible apply storeMem_kept | with_reducible apply badAccess_kept
    | with_reducible apply ite_kept | with_reducible apply foldl_kept | (refine Kept.ofSnd (by assumption) ?_) | dsimp only
    | split

theorem execHostWrite_kept {r₀ : State} {c₀ : Bool} {bar : Bool} {addr : Nat} {data : List Byte} {s : State} {t₀}
    (e₀ : execHostWrite bar addr data s = .next t₀) (h4 : Kept c₀ r₀ s) : Kept c₀ r₀ t₀ := by
  unfold execHostWrite at e₀
  repeat' first | contradiction | (injection e₀ with e₀; subst e₀) | dsimp only at e₀ | (split at e₀)
  repeat' first
    | with_reducible assumption | intro _ | with_reducible apply writeReg_kept | with_reducible apply State.onHost_kept
    | with_reducible apply badAccess_kept | with_reducible apply hostWriteDa_kept | with_reducible apply ite_kept
    | with_reducible apply foldl_kept | (refine Kept.ofSnd (by assumption) ?_) | dsimp only | split

theorem execFarRetrain_kept {r₀ : State} {c₀ : Bool} {port link expanders gib : Nat} {s : State} {t₀}
    (e₀ : execFarRetrain port link expanders gib s = .next t₀) (h5 : Kept c₀ r₀ s) : Kept c₀ r₀ t₀ := by
  unfold execFarRetrain at e₀
  repeat' first | contradiction | (injection e₀ with e₀; subst e₀) | dsimp only at e₀ | (split at e₀)
  repeat' first
    | with_reducible assumption | intro _ | with_reducible apply setFar_kept | with_reducible apply State.took_kept
    | with_reducible apply ite_kept | with_reducible apply foldl_kept | (refine Kept.ofSnd (by assumption) ?_) | dsimp only
    | split

theorem execCxlMemCompletion_kept {r₀ : State} {c₀ : Bool} {port tag : Nat} {s : State} {t₀}
    (e₀ : execCxlMemCompletion port tag s = .next t₀) (h3 : Kept c₀ r₀ s) : Kept c₀ r₀ t₀ := by
  unfold execCxlMemCompletion at e₀
  repeat' first | contradiction | (injection e₀ with e₀; subst e₀) | dsimp only at e₀ | (split at e₀)
  repeat' first
    | with_reducible assumption | intro _ | with_reducible apply answered_kept | with_reducible apply dropPosted_kept
    | with_reducible apply storeMem_kept | with_reducible apply ite_kept | with_reducible apply foldl_kept
    | (refine Kept.ofSnd (by assumption) ?_) | dsimp only | split

theorem execHostLinkReset_kept {r₀ : State} {c₀ : Bool} {s : State} {t₀} (e₀ : execHostLinkReset s = .next t₀) (h1 : Kept c₀ r₀ s)
    : Kept c₀ r₀ t₀ := by
  unfold execHostLinkReset at e₀
  repeat' first | contradiction | (injection e₀ with e₀; subst e₀) | dsimp only at e₀ | (split at e₀)
  repeat' first
    | with_reducible assumption | intro _ | with_reducible apply bump_kept | with_reducible apply clearHost_kept
    | with_reducible apply State.took_kept | with_reducible apply trainHost_kept | with_reducible apply ite_kept
    | with_reducible apply foldl_kept | (refine Kept.ofSnd (by assumption) ?_) | dsimp only | split

theorem execFarLinkLoss_kept {r₀ : State} {c₀ : Bool} {port : Nat} {s : State} {t₀} (e₀ : execFarLinkLoss port s = .next t₀)
    (h2 : Kept c₀ r₀ s) : Kept c₀ r₀ t₀ := by
  unfold execFarLinkLoss at e₀
  repeat' first | contradiction | (injection e₀ with e₀; subst e₀) | dsimp only at e₀ | (split at e₀)
  repeat' first
    | with_reducible assumption | intro _ | with_reducible apply losePosted_kept | with_reducible apply setFar_kept
    | with_reducible apply ite_kept | with_reducible apply foldl_kept | (refine Kept.ofSnd (by assumption) ?_) | dsimp only
    | split

end Sys2Proof.Machine
end

