-- ==== Sys2Proof/Laws/KeptMgmt.lean ====
section
/-!
SUPPORT. What the definitions of Machine/Mgmt.lean keep (Laws/Kept.lean).
-/

set_option linter.all false

namespace Sys2Proof.Machine

open Sys2Proof

theorem execPrivateWrite_kept {r₀ : State} {c₀ : Bool} {data : List Byte} {s : State} {t₀}
    (e₀ : execPrivateWrite data s = .next t₀) (h2 : Kept c₀ r₀ s) : Kept c₀ r₀ t₀ := by
  unfold execPrivateWrite at e₀
  repeat' first | contradiction | (injection e₀ with e₀; subst e₀) | dsimp only at e₀ | (split at e₀)
  repeat' first
    | with_reducible assumption | intro _ | with_reducible apply State.onI3c_kept | with_reducible apply ite_kept
    | with_reducible apply foldl_kept | (refine Kept.ofSnd (by assumption) ?_) | dsimp only | split

theorem execDisec_kept {r₀ : State} {c₀ : Bool} {ibi : Bool} {s : State} {t₀} (e₀ : execDisec ibi s = .next t₀)
    (h2 : Kept c₀ r₀ s) : Kept c₀ r₀ t₀ := by
  unfold execDisec at e₀
  repeat' first | contradiction | (injection e₀ with e₀; subst e₀) | dsimp only at e₀ | (split at e₀)
  repeat' first
    | with_reducible assumption | intro _ | with_reducible apply State.onI3c_kept | with_reducible apply ite_kept
    | with_reducible apply foldl_kept | (refine Kept.ofSnd (by assumption) ?_) | dsimp only | split

theorem takeAddr_kept {r₀ : State} {c₀ : Bool} {s : State} {dyn : Nat} (h1 : Kept c₀ r₀ s) : Kept c₀ r₀ (takeAddr s dyn) := by
  unfold takeAddr
  repeat' first
    | with_reducible assumption | intro _ | with_reducible apply State.onI3c_kept | with_reducible apply ite_kept
    | with_reducible apply foldl_kept | (refine Kept.ofSnd (by assumption) ?_) | dsimp only | split

theorem execEntdaa_kept {r₀ : State} {c₀ : Bool} {dyn : Nat} {s : State} {t₀} (e₀ : execEntdaa dyn s = .next t₀)
    (h2 : Kept c₀ r₀ s) : Kept c₀ r₀ t₀ := by
  unfold execEntdaa at e₀
  repeat' first | contradiction | (injection e₀ with e₀; subst e₀) | dsimp only at e₀ | (split at e₀)
  repeat' first
    | with_reducible assumption | intro _ | with_reducible apply takeAddr_kept | with_reducible apply ite_kept
    | with_reducible apply foldl_kept | (refine Kept.ofSnd (by assumption) ?_) | dsimp only | split

theorem i3cReply_kept {r₀ : State} {c₀ : Bool} {s : State} {bs : List Byte} (h1 : Kept c₀ r₀ s) : Kept c₀ r₀ (i3cReply s bs) := by
  unfold i3cReply
  repeat' first
    | with_reducible assumption | intro _ | with_reducible apply State.onI3c_kept | with_reducible apply ite_kept
    | with_reducible apply foldl_kept | (refine Kept.ofSnd (by assumption) ?_) | dsimp only | split

theorem execGetpid_kept {r₀ : State} {c₀ : Bool} {s : State} {t₀} (e₀ : execGetpid s = .next t₀) (h1 : Kept c₀ r₀ s)
    : Kept c₀ r₀ t₀ := by
  unfold execGetpid at e₀
  repeat' first | contradiction | (injection e₀ with e₀; subst e₀) | dsimp only at e₀ | (split at e₀)
  repeat' first
    | with_reducible assumption | intro _ | with_reducible apply i3cReply_kept | with_reducible apply ite_kept
    | with_reducible apply foldl_kept | (refine Kept.ofSnd (by assumption) ?_) | dsimp only | split

theorem execGetstatus_kept {r₀ : State} {c₀ : Bool} {s : State} {t₀} (e₀ : execGetstatus s = .next t₀) (h1 : Kept c₀ r₀ s)
    : Kept c₀ r₀ t₀ := by
  unfold execGetstatus at e₀
  repeat' first | contradiction | (injection e₀ with e₀; subst e₀) | dsimp only at e₀ | (split at e₀)
  repeat' first
    | with_reducible assumption | intro _ | with_reducible apply i3cReply_kept | with_reducible apply State.took_kept
    | with_reducible apply ite_kept | with_reducible apply foldl_kept | (refine Kept.ofSnd (by assumption) ?_) | dsimp only
    | split

theorem execSetdasa_kept {r₀ : State} {c₀ : Bool} {static dyn : Nat} {s : State} {t₀} (e₀ : execSetdasa static dyn s = .next t₀)
    (h3 : Kept c₀ r₀ s) : Kept c₀ r₀ t₀ := by
  unfold execSetdasa at e₀
  repeat' first | contradiction | (injection e₀ with e₀; subst e₀) | dsimp only at e₀ | (split at e₀)
  repeat' first
    | with_reducible assumption | intro _ | with_reducible apply takeAddr_kept | with_reducible apply ite_kept
    | with_reducible apply foldl_kept | (refine Kept.ofSnd (by assumption) ?_) | dsimp only | split

theorem execRstdaa_kept {r₀ : State} {c₀ : Bool} {s : State} {t₀} (e₀ : execRstdaa s = .next t₀) (h1 : Kept c₀ r₀ s)
    : Kept c₀ r₀ t₀ := by
  unfold execRstdaa at e₀
  repeat' first | contradiction | (injection e₀ with e₀; subst e₀) | dsimp only at e₀ | (split at e₀)
  repeat' first
    | with_reducible assumption | intro _ | with_reducible apply State.onI3c_kept | with_reducible apply ite_kept
    | with_reducible apply foldl_kept | (refine Kept.ofSnd (by assumption) ?_) | dsimp only | split

theorem execInBandInterruptAccepted_kept {r₀ : State} {c₀ : Bool} {byte : Nat} {s : State} {t₀}
    (e₀ : execInBandInterruptAccepted byte s = .next t₀) (h2 : Kept c₀ r₀ s) : Kept c₀ r₀ t₀ := by
  unfold execInBandInterruptAccepted at e₀
  repeat' first | contradiction | (injection e₀ with e₀; subst e₀) | dsimp only at e₀ | (split at e₀)
  repeat' first
    | with_reducible assumption | intro _ | with_reducible apply State.onI3c_kept | with_reducible apply ite_kept
    | with_reducible apply foldl_kept | (refine Kept.ofSnd (by assumption) ?_) | dsimp only | split

theorem execEnec_kept {r₀ : State} {c₀ : Bool} {ibi : Bool} {s : State} {t₀} (e₀ : execEnec ibi s = .next t₀) (h2 : Kept c₀ r₀ s)
    : Kept c₀ r₀ t₀ := by
  unfold execEnec at e₀
  repeat' first | contradiction | (injection e₀ with e₀; subst e₀) | dsimp only at e₀ | (split at e₀)
  repeat' first
    | with_reducible assumption | intro _ | with_reducible apply State.onI3c_kept | with_reducible apply ite_kept
    | with_reducible apply foldl_kept | (refine Kept.ofSnd (by assumption) ?_) | dsimp only | split

theorem execGetbcr_kept {r₀ : State} {c₀ : Bool} {s : State} {t₀} (e₀ : execGetbcr s = .next t₀) (h1 : Kept c₀ r₀ s)
    : Kept c₀ r₀ t₀ := by
  unfold execGetbcr at e₀
  repeat' first | contradiction | (injection e₀ with e₀; subst e₀) | dsimp only at e₀ | (split at e₀)
  repeat' first
    | with_reducible assumption | intro _ | with_reducible apply i3cReply_kept | with_reducible apply ite_kept
    | with_reducible apply foldl_kept | (refine Kept.ofSnd (by assumption) ?_) | dsimp only | split

theorem execGetdcr_kept {r₀ : State} {c₀ : Bool} {s : State} {t₀} (e₀ : execGetdcr s = .next t₀) (h1 : Kept c₀ r₀ s)
    : Kept c₀ r₀ t₀ := by
  unfold execGetdcr at e₀
  repeat' first | contradiction | (injection e₀ with e₀; subst e₀) | dsimp only at e₀ | (split at e₀)
  repeat' first
    | with_reducible assumption | intro _ | with_reducible apply i3cReply_kept | with_reducible apply ite_kept
    | with_reducible apply foldl_kept | (refine Kept.ofSnd (by assumption) ?_) | dsimp only | split

theorem execPrivateRead_kept {r₀ : State} {c₀ : Bool} {s : State} {t₀} (e₀ : execPrivateRead s = .next t₀) (h1 : Kept c₀ r₀ s)
    : Kept c₀ r₀ t₀ := by
  unfold execPrivateRead at e₀
  repeat' first | contradiction | (injection e₀ with e₀; subst e₀) | dsimp only at e₀ | (split at e₀)
  repeat' first
    | with_reducible assumption | intro _ | with_reducible apply State.onI3c_kept | with_reducible apply i3cReply_kept
    | with_reducible apply ite_kept | with_reducible apply foldl_kept | (refine Kept.ofSnd (by assumption) ?_) | dsimp only
    | split

end Sys2Proof.Machine
end

