-- ==== Sys2Proof/Laws/KeptPower.lean ====
section
/-!
SUPPORT. What the definitions of Machine/Power.lean keep (Laws/Kept.lean).
-/

set_option linter.all false

namespace Sys2Proof.Machine

open Sys2Proof

theorem execThrottleStep_kept {r₀ : State} {c₀ : Bool} {die : Nat} {s : State} {t₀} (e₀ : execThrottleStep die s = .next t₀)
    (h2 : Kept c₀ r₀ s) : Kept c₀ r₀ t₀ := by
  unfold execThrottleStep at e₀
  repeat' first | contradiction | (injection e₀ with e₀; subst e₀) | dsimp only at e₀ | (split at e₀)
  repeat' first
    | with_reducible assumption | intro _ | with_reducible apply bump_kept
    | (with_reducible refine State.onSv_kept ?_ (fun _ h => h)) | with_reducible apply ite_kept | with_reducible apply foldl_kept
    | (refine Kept.ofSnd (by assumption) ?_) | dsimp only | split

theorem setBallast_kept {r₀ : State} {c₀ : Bool} {s : State} {steps : Nat} (h1 : Kept c₀ r₀ s)
    : Kept c₀ r₀ (setBallast s steps) := by
  unfold setBallast
  repeat' first
    | with_reducible assumption | intro _ | with_reducible apply State.took_kept | with_reducible apply setCore_kept
    | with_reducible apply bumpCore_kept | with_reducible apply ite_kept | with_reducible apply foldl_kept
    | (refine Kept.ofSnd (by assumption) ?_) | dsimp only | split

theorem contourOff_kept {r₀ : State} {c₀ : Bool} {s : State} (h1 : Kept c₀ r₀ s) : Kept c₀ r₀ (contourOff s) := by
  unfold contourOff
  repeat' first
    | with_reducible assumption | intro _ | with_reducible apply setBallast_kept | with_reducible apply State.onCt_kept
    | with_reducible apply ite_kept | with_reducible apply foldl_kept | (refine Kept.ofSnd (by assumption) ?_) | dsimp only
    | split

theorem execContourInterval_kept {r₀ : State} {c₀ : Bool} {s : State} {t₀} (e₀ : execContourInterval s = .next t₀)
    (h1 : Kept c₀ r₀ s) : Kept c₀ r₀ t₀ := by
  unfold execContourInterval at e₀
  repeat' first | contradiction | (injection e₀ with e₀; subst e₀) | dsimp only at e₀ | (split at e₀)
  repeat' first
    | with_reducible assumption | intro _ | with_reducible apply setBallast_kept | with_reducible apply contourOff_kept
    | with_reducible apply State.onCt_kept | with_reducible apply State.took_kept | with_reducible apply ite_kept
    | with_reducible apply foldl_kept | (refine Kept.ofSnd (by assumption) ?_) | dsimp only | split

theorem unthrottle_kept {r₀ : State} {c₀ : Bool} {s : State} {d : Nat} (h1 : Kept c₀ r₀ s) : Kept c₀ r₀ (unthrottle s d) := by
  unfold unthrottle
  repeat' first
    | with_reducible assumption | intro _ | (with_reducible refine State.onSv_kept ?_ (fun _ h => h))
    | with_reducible apply ite_kept | with_reducible apply foldl_kept | (refine Kept.ofSnd (by assumption) ?_) | dsimp only
    | split

theorem throttle_kept {r₀ : State} {c₀ : Bool} {s : State} {d : Nat} (h1 : Kept c₀ r₀ s) : Kept c₀ r₀ (throttle s d) := by
  unfold throttle
  repeat' first
    | with_reducible assumption | intro _ | with_reducible apply raiseIbi_kept | with_reducible apply setCore_kept
    | (with_reducible refine State.onSv_kept ?_ (fun _ h => h)) | with_reducible apply ite_kept | with_reducible apply foldl_kept
    | (refine Kept.ofSnd (by assumption) ?_) | dsimp only | split

theorem execThermalReport_kept {r₀ : State} {c₀ : Bool} {die quarters : Nat} {s : State} {t₀}
    (e₀ : execThermalReport die quarters s = .next t₀) (h3 : Kept c₀ r₀ s) : Kept c₀ r₀ t₀ := by
  unfold execThermalReport at e₀
  repeat' first | contradiction | (injection e₀ with e₀; subst e₀) | dsimp only at e₀ | (split at e₀)
  repeat' first
    | with_reducible assumption | intro _ | with_reducible apply unthrottle_kept | with_reducible apply emitSounding_kept
    | with_reducible apply throttle_kept | (with_reducible refine State.onSv_kept ?_ (fun _ h => h))
    | with_reducible apply ite_kept | with_reducible apply foldl_kept | (refine Kept.ofSnd (by assumption) ?_) | dsimp only
    | split

theorem execEmergency_kept {r₀ : State} {c₀ : Bool} {s : State} {t₀} (e₀ : execEmergency s = .next t₀) (h1 : Kept c₀ r₀ s)
    : Kept c₀ r₀ t₀ := by
  unfold execEmergency at e₀
  repeat' first | contradiction | (injection e₀ with e₀; subst e₀) | dsimp only at e₀ | (split at e₀)
  repeat' first
    | with_reducible assumption | intro _ | with_reducible apply setSticky_kept
    | (with_reducible refine State.onSv_kept ?_ (fun _ h => h)) | with_reducible apply ite_kept | with_reducible apply foldl_kept
    | (refine Kept.ofSnd (by assumption) ?_) | dsimp only | split

theorem execEmergencyLift_kept {r₀ : State} {c₀ : Bool} {s : State} {t₀} (e₀ : execEmergencyLift s = .next t₀) (h1 : Kept c₀ r₀ s)
    : Kept c₀ r₀ t₀ := by
  unfold execEmergencyLift at e₀
  repeat' first | contradiction | (injection e₀ with e₀; subst e₀) | dsimp only at e₀ | (split at e₀)
  repeat' first
    | with_reducible assumption | intro _ | (with_reducible refine State.onSv_kept ?_ (fun _ h => h))
    | with_reducible apply ite_kept | with_reducible apply foldl_kept | (refine Kept.ofSnd (by assumption) ?_) | dsimp only
    | split

theorem execThermalDutyRise_kept {r₀ : State} {c₀ : Bool} {die : Nat} {s : State} {t₀} (e₀ : execThermalDutyRise die s = .next t₀)
    (h2 : Kept c₀ r₀ s) : Kept c₀ r₀ t₀ := by
  unfold execThermalDutyRise at e₀
  repeat' first | contradiction | (injection e₀ with e₀; subst e₀) | dsimp only at e₀ | (split at e₀)
  repeat' first
    | with_reducible assumption | intro _ | with_reducible apply unthrottle_kept
    | (with_reducible refine State.onSv_kept ?_ (fun _ h => h)) | with_reducible apply ite_kept | with_reducible apply foldl_kept
    | (refine Kept.ofSnd (by assumption) ?_) | dsimp only | split

theorem setHoldup_kept {r₀ : State} {c₀ : Bool} {s : State} {ok : Bool} (h1 : Kept c₀ r₀ s) : Kept c₀ r₀ (setHoldup s ok) := by
  unfold setHoldup
  repeat' first
    | with_reducible assumption | intro _ | with_reducible apply State.onSec_kept
    | (with_reducible refine State.onSv_kept ?_ (fun _ h => h)) | with_reducible apply ite_kept | with_reducible apply foldl_kept
    | (refine Kept.ofSnd (by assumption) ?_) | dsimp only | split

theorem execContourWindow_kept {r₀ : State} {c₀ : Bool} {s : State} {t₀} (e₀ : execContourWindow s = .next t₀) (h1 : Kept c₀ r₀ s)
    : Kept c₀ r₀ t₀ := by
  unfold execContourWindow at e₀
  repeat' first | contradiction | (injection e₀ with e₀; subst e₀) | dsimp only at e₀ | (split at e₀)
  repeat' first
    | with_reducible assumption | intro _ | with_reducible apply bump_kept | with_reducible apply State.onCt_kept
    | with_reducible apply ite_kept | with_reducible apply foldl_kept | (refine Kept.ofSnd (by assumption) ?_) | dsimp only
    | split

theorem execContourSounding_kept {r₀ : State} {c₀ : Bool} {s : State} {t₀} (e₀ : execContourSounding s = .next t₀)
    (h1 : Kept c₀ r₀ s) : Kept c₀ r₀ t₀ := by
  unfold execContourSounding at e₀
  repeat' first | contradiction | (injection e₀ with e₀; subst e₀) | dsimp only at e₀ | (split at e₀)
  repeat' first
    | with_reducible assumption | intro _ | with_reducible apply emitSounding_kept | with_reducible apply State.onCt_kept
    | with_reducible apply ite_kept | with_reducible apply foldl_kept | (refine Kept.ofSnd (by assumption) ?_) | dsimp only
    | split

theorem execHoldupMeasure_kept {r₀ : State} {c₀ : Bool} {energyMj : Nat} {enough : Bool} {s : State} {t₀}
    (e₀ : execHoldupMeasure energyMj enough s = .next t₀) (h3 : Kept c₀ r₀ s) : Kept c₀ r₀ t₀ := by
  unfold execHoldupMeasure at e₀
  repeat' first | contradiction | (injection e₀ with e₀; subst e₀) | dsimp only at e₀ | (split at e₀)
  repeat' first
    | with_reducible assumption | intro _ | with_reducible apply setHoldup_kept
    | (with_reducible refine State.onSv_kept ?_ (fun _ h => h)) | with_reducible apply ite_kept | with_reducible apply foldl_kept
    | (refine Kept.ofSnd (by assumption) ?_) | dsimp only | split

theorem execHoldupTest_kept {r₀ : State} {c₀ : Bool} {pass : Bool} {s : State} {t₀} (e₀ : execHoldupTest pass s = .next t₀)
    (h2 : Kept c₀ r₀ s) : Kept c₀ r₀ t₀ := by
  unfold execHoldupTest at e₀
  repeat' first | contradiction | (injection e₀ with e₀; subst e₀) | dsimp only at e₀ | (split at e₀)
  repeat' first
    | with_reducible assumption | intro _ | with_reducible apply setSticky_kept | with_reducible apply setHoldup_kept
    | (with_reducible refine State.onSv_kept ?_ (fun _ h => h)) | with_reducible apply ite_kept | with_reducible apply foldl_kept
    | (refine Kept.ofSnd (by assumption) ?_) | dsimp only | split

theorem execPowerReport_kept {r₀ : State} {c₀ : Bool} {reports : List Nat} {s : State} {t₀}
    (e₀ : execPowerReport reports s = .next t₀) (h2 : Kept c₀ r₀ s) : Kept c₀ r₀ t₀ := by
  unfold execPowerReport at e₀
  repeat' first | contradiction | (injection e₀ with e₀; subst e₀) | dsimp only at e₀ | (split at e₀)
  repeat' first
    | with_reducible assumption | intro _ | with_reducible apply State.onCt_kept
    | (with_reducible refine State.onSv_kept ?_ (fun _ h => h)) | with_reducible apply ite_kept | with_reducible apply foldl_kept
    | (refine Kept.ofSnd (by assumption) ?_) | dsimp only | split

end Sys2Proof.Machine
end

