-- ==== Sys2Proof/Laws/KeptSequencer.lean ====
section
/-!
SUPPORT. What the definitions of Machine/Sequencer.lean keep (Laws/Kept.lean).
-/

set_option linter.all false

namespace Sys2Proof.Machine

open Sys2Proof

theorem setProg_kept {r₀ : State} {c₀ : Bool} {s : State} {p : Nat} {f : Prog → Prog} (h1 : Kept c₀ r₀ s)
    : Kept c₀ r₀ (setProg s p f) := by
  unfold setProg
  repeat' first
    | with_reducible assumption | intro _ | with_reducible apply State.onSeq_kept | with_reducible apply ite_kept
    | with_reducible apply foldl_kept | (refine Kept.ofSnd (by assumption) ?_) | dsimp only | split

theorem expireBudget_kept {r₀ : State} {c₀ : Bool} {s : State} {p : Nat} (h1 : Kept c₀ r₀ s) : Kept c₀ r₀ (expireBudget s p) := by
  unfold expireBudget
  repeat' first
    | with_reducible assumption | intro _ | with_reducible apply countExpiry_kept | with_reducible apply setProg_kept
    | with_reducible apply State.onSeq_kept | with_reducible apply endFetched_kept | with_reducible apply ite_kept
    | with_reducible apply foldl_kept | (refine Kept.ofSnd (by assumption) ?_) | dsimp only | split

theorem seqRecord_kept {r₀ : State} {c₀ : Bool} {s : State} {c : Cpl} (h1 : Kept c₀ r₀ s) : Kept c₀ r₀ (seqRecord s c) := by
  unfold seqRecord
  repeat' first
    | with_reducible assumption | intro _ | with_reducible apply setProg_kept | with_reducible apply State.onSeq_kept
    | with_reducible apply ite_kept | with_reducible apply foldl_kept | (refine Kept.ofSnd (by assumption) ?_) | dsimp only
    | split

theorem atInstr_kept {r₀ : State} {c₀ : Bool} {s : State} {p : Nat} {c : Instr} {body : State → State} (h1 : Kept c₀ r₀ s)
    (h4 : (∀ (y04 : State), Kept c₀ r₀ y04 → Kept c₀ r₀ (body y04))) : Kept c₀ r₀ (atInstr s p c body) := by
  unfold atInstr
  repeat' first
    | with_reducible assumption | intro _ | with_reducible apply setProg_kept | with_reducible apply h4
    | with_reducible apply ite_kept | with_reducible apply foldl_kept | (refine Kept.ofSnd (by assumption) ?_) | dsimp only
    | split

theorem execEndProg_kept {r₀ : State} {c₀ : Bool} {prog : Nat} {s : State} {t₀} (e₀ : execEndProg prog s = .next t₀)
    (h2 : Kept c₀ r₀ s) : Kept c₀ r₀ t₀ := by
  unfold execEndProg at e₀
  repeat' first | contradiction | (injection e₀ with e₀; subst e₀) | dsimp only at e₀ | (split at e₀)
  repeat' first
    | with_reducible assumption | intro _ | with_reducible apply setProg_kept | with_reducible apply atInstr_kept
    | with_reducible apply ite_kept | with_reducible apply foldl_kept | (refine Kept.ofSnd (by assumption) ?_) | dsimp only
    | split

theorem writeStepRecord_kept {r₀ : State} {c₀ : Bool} {n : Nat} {s : State} {x : Nat × Prog} (h2 : Kept c₀ r₀ s)
    : Kept c₀ r₀ (writeStepRecord n s x) := by
  unfold writeStepRecord
  repeat' first
    | with_reducible assumption | intro _ | with_reducible apply State.onSec_kept | with_reducible apply State.took_kept
    | with_reducible apply writeRecord_kept | with_reducible apply ite_kept | with_reducible apply foldl_kept
    | (refine Kept.ofSnd (by assumption) ?_) | dsimp only | split

theorem endRun_kept {r₀ : State} {c₀ : Bool} {s : State} (h1 : Kept c₀ r₀ s) : Kept c₀ r₀ (endRun s) := by
  unfold endRun
  repeat' first
    | with_reducible assumption | intro _ | with_reducible apply complete_kept | with_reducible apply State.onSeq_kept
    | with_reducible apply ite_kept | with_reducible apply foldl_kept | (refine Kept.ofSnd (by assumption) ?_) | dsimp only
    | split

theorem showSeq_kept {r₀ : State} {c₀ : Bool} {s : State} (h1 : Kept c₀ r₀ s) : Kept c₀ r₀ (showSeq s) := by
  unfold showSeq
  repeat' first
    | with_reducible assumption | intro _ | with_reducible apply State.onSeq_kept | with_reducible apply ite_kept
    | with_reducible apply foldl_kept | (refine Kept.ofSnd (by assumption) ?_) | dsimp only | split

theorem endStep_kept {r₀ : State} {c₀ : Bool} {s : State} (h1 : Kept c₀ r₀ s) : Kept c₀ r₀ (endStep s) := by
  unfold endStep
  repeat' first
    | with_reducible assumption | intro _ | with_reducible apply writeStepRecord_kept | with_reducible apply endRun_kept
    | with_reducible apply showSeq_kept | with_reducible apply State.onSeq_kept | with_reducible apply ite_kept
    | with_reducible apply foldl_kept | (refine Kept.ofSnd (by assumption) ?_) | dsimp only | split

theorem postSeal_kept {r₀ : State} {c₀ : Bool} {n : Nat} {s : State} {k : Nat} (h2 : Kept c₀ r₀ s)
    : Kept c₀ r₀ (postSeal n s k) := by
  unfold postSeal
  repeat' first
    | with_reducible assumption | intro _ | with_reducible apply bump_kept | with_reducible apply complete_kept
    | with_reducible apply State.onSeq_kept | with_reducible apply State.onQm_kept | with_reducible apply ite_kept
    | with_reducible apply foldl_kept | (refine Kept.ofSnd (by assumption) ?_) | dsimp only | split

theorem postSeals_kept {r₀ : State} {c₀ : Bool} {s : State} (h1 : Kept c₀ r₀ s) : Kept c₀ r₀ (postSeals s) := by
  unfold postSeals
  repeat' first
    | with_reducible assumption | intro _ | with_reducible apply showSeq_kept | with_reducible apply requestDatum_kept
    | with_reducible apply State.onSeq_kept | with_reducible apply postSeal_kept | with_reducible apply ite_kept
    | with_reducible apply foldl_kept | (refine Kept.ofSnd (by assumption) ?_) | dsimp only | split

theorem advance_kept {r₀ : State} {c₀ : Bool} {s : State} {p n : Nat} (h1 : Kept c₀ r₀ s) : Kept c₀ r₀ (advance s p n) := by
  unfold advance
  repeat' first
    | with_reducible assumption | intro _ | with_reducible apply setProg_kept | with_reducible apply ite_kept
    | with_reducible apply foldl_kept | (refine Kept.ofSnd (by assumption) ?_) | dsimp only | split

theorem execWait_kept {r₀ : State} {c₀ : Bool} {prog ctr target : Nat} {s : State} {t₀}
    (e₀ : execWait prog ctr target s = .next t₀) (h4 : Kept c₀ r₀ s) : Kept c₀ r₀ t₀ := by
  unfold execWait at e₀
  repeat' first | contradiction | (injection e₀ with e₀; subst e₀) | dsimp only at e₀ | (split at e₀)
  repeat' first
    | with_reducible assumption | intro _ | with_reducible apply advance_kept | with_reducible apply atInstr_kept
    | with_reducible apply ite_kept | with_reducible apply foldl_kept | (refine Kept.ofSnd (by assumption) ?_) | dsimp only
    | split

theorem setAmax_kept {r₀ : State} {c₀ : Bool} {s : State} {p x : Nat} {vs : List (Option Val)} (h1 : Kept c₀ r₀ s)
    : Kept c₀ r₀ (setAmax s p x vs) := by
  unfold setAmax
  repeat' first
    | with_reducible assumption | intro _ | with_reducible apply setProg_kept | with_reducible apply bumpBy_kept
    | with_reducible apply ite_kept | with_reducible apply foldl_kept | (refine Kept.ofSnd (by assumption) ?_) | dsimp only
    | split

theorem execStepBudgetExpiry_kept {r₀ : State} {c₀ : Bool} {prog : Nat} {s : State} {t₀}
    (e₀ : execStepBudgetExpiry prog s = .next t₀) (h2 : Kept c₀ r₀ s) : Kept c₀ r₀ t₀ := by
  unfold execStepBudgetExpiry at e₀
  repeat' first | contradiction | (injection e₀ with e₀; subst e₀) | dsimp only at e₀ | (split at e₀)
  repeat' first
    | with_reducible assumption | intro _ | with_reducible apply expireBudget_kept | with_reducible apply ite_kept
    | with_reducible apply foldl_kept | (refine Kept.ofSnd (by assumption) ?_) | dsimp only | split

theorem execSealGate_kept {r₀ : State} {c₀ : Bool} {s : State} {t₀} (e₀ : execSealGate s = .next t₀) (h1 : Kept c₀ r₀ s)
    : Kept c₀ r₀ t₀ := by
  unfold execSealGate at e₀
  repeat' first | contradiction | (injection e₀ with e₀; subst e₀) | dsimp only at e₀ | (split at e₀)
  repeat' first
    | with_reducible assumption | intro _ | with_reducible apply postSeals_kept | with_reducible apply ite_kept
    | with_reducible apply foldl_kept | (refine Kept.ofSnd (by assumption) ?_) | dsimp only | split

theorem execSqStop_kept {r₀ : State} {c₀ : Bool} {h : Hdr} {s : State} {t₀} (e₀ : execSqStop h s = .next t₀) (h2 : Kept c₀ r₀ s)
    : Kept c₀ r₀ t₀ := by
  unfold execSqStop at e₀
  repeat' first | contradiction | (injection e₀ with e₀; subst e₀) | dsimp only at e₀ | (split at e₀)
  repeat' first
    | with_reducible assumption | intro _ | with_reducible apply markStarted_kept | with_reducible apply showSeq_kept
    | with_reducible apply complete_kept | with_reducible apply State.onSeq_kept | with_reducible apply runDesc_kept
    | with_reducible apply ite_kept | with_reducible apply foldl_kept | (refine Kept.ofSnd (by assumption) ?_) | dsimp only
    | split

theorem execStepEnd_kept {r₀ : State} {c₀ : Bool} {s : State} {t₀} (e₀ : execStepEnd s = .next t₀) (h1 : Kept c₀ r₀ s)
    : Kept c₀ r₀ t₀ := by
  unfold execStepEnd at e₀
  repeat' first | contradiction | (injection e₀ with e₀; subst e₀) | dsimp only at e₀ | (split at e₀)
  repeat' first
    | with_reducible assumption | intro _ | with_reducible apply endStep_kept | with_reducible apply ite_kept
    | with_reducible apply foldl_kept | (refine Kept.ofSnd (by assumption) ?_) | dsimp only | split

theorem startRun_kept {r₀ : State} {c₀ : Bool} {s : State} {h : Hdr} {count : Nat} (h1 : Kept c₀ r₀ s)
    : Kept c₀ r₀ (startRun s h count) := by
  unfold startRun
  repeat' first
    | with_reducible assumption | intro _ | with_reducible apply markStarted_kept | with_reducible apply showSeq_kept
    | with_reducible apply State.onSeq_kept | with_reducible apply ite_kept | with_reducible apply foldl_kept
    | (refine Kept.ofSnd (by assumption) ?_) | dsimp only | split

theorem endMalformed_kept {r₀ : State} {c₀ : Bool} {s : State} {p : Nat} (h1 : Kept c₀ r₀ s) : Kept c₀ r₀ (endMalformed s p) := by
  unfold endMalformed
  repeat' first
    | with_reducible assumption | intro _ | with_reducible apply setProg_kept | with_reducible apply ite_kept
    | with_reducible apply foldl_kept | (refine Kept.ofSnd (by assumption) ?_) | dsimp only | split

theorem postEntry_kept {r₀ : State} {c₀ : Bool} {s : State} {p r : Nat} {patch arm : Bool} {q slot ctr : Nat} (h1 : Kept c₀ r₀ s)
    : Kept c₀ r₀ (postEntry s p r patch arm q slot ctr) := by
  unfold postEntry
  repeat' first
    | with_reducible assumption | intro _ | with_reducible apply setQueue_kept | with_reducible apply writeMem_kept
    | with_reducible apply setProg_kept | with_reducible apply endMalformed_kept | with_reducible apply checkRead_kept
    | with_reducible apply State.onSeq_kept | with_reducible apply ite_kept | with_reducible apply ite_kept_snd
    | with_reducible apply foldl_kept | with_reducible apply foldl_kept_snd | (refine Kept.ofSnd (by assumption) ?_) | dsimp only
    | split

theorem startStep_kept {r₀ : State} {c₀ : Bool} {s : State} (h1 : Kept c₀ r₀ s) : Kept c₀ r₀ (startStep s) := by
  unfold startStep
  repeat' first
    | with_reducible assumption | intro _ | with_reducible apply showSeq_kept | with_reducible apply State.onSeq_kept
    | with_reducible apply reserveSlot_kept | with_reducible apply ite_kept | with_reducible apply foldl_kept
    | (refine Kept.ofSnd (by assumption) ?_) | dsimp only | split

theorem execAmaxd_kept {r₀ : State} {c₀ : Bool} {prog x da : Nat} {s : State} {t₀} (e₀ : execAmaxd prog x da s = .next t₀)
    (h4 : Kept c₀ r₀ s) : Kept c₀ r₀ t₀ := by
  unfold execAmaxd at e₀
  repeat' first | contradiction | (injection e₀ with e₀; subst e₀) | dsimp only at e₀ | (split at e₀)
  repeat' first
    | with_reducible assumption | intro _ | with_reducible apply setAmax_kept | with_reducible apply advance_kept
    | with_reducible apply atInstr_kept | with_reducible apply checkRead_kept | with_reducible apply ite_kept
    | with_reducible apply ite_kept_snd | with_reducible apply foldl_kept | with_reducible apply foldl_kept_snd
    | (refine Kept.ofSnd (by assumption) ?_) | dsimp only | split

theorem execAmax_kept {r₀ : State} {c₀ : Bool} {prog x core n off : Nat} {s : State} {t₀}
    (e₀ : execAmax prog x core n off s = .next t₀) (h6 : Kept c₀ r₀ s) : Kept c₀ r₀ t₀ := by
  unfold execAmax at e₀
  repeat' first | contradiction | (injection e₀ with e₀; subst e₀) | dsimp only at e₀ | (split at e₀)
  repeat' first
    | with_reducible assumption | intro _ | with_reducible apply panelFaultAt_kept | with_reducible apply setAmax_kept
    | with_reducible apply advance_kept | with_reducible apply atInstr_kept | with_reducible apply cbCheck_kept
    | with_reducible apply ite_kept | with_reducible apply ite_kept_snd | with_reducible apply foldl_kept
    | with_reducible apply foldl_kept_snd | (refine Kept.ofSnd (by assumption) ?_) | dsimp only | split

theorem execAnchor_kept {r₀ : State} {c₀ : Bool} {prog r x1 x2 : Nat} {s : State} {t₀} (e₀ : execAnchor prog r x1 x2 s = .next t₀)
    (h5 : Kept c₀ r₀ s) : Kept c₀ r₀ t₀ := by
  unfold execAnchor at e₀
  repeat' first | contradiction | (injection e₀ with e₀; subst e₀) | dsimp only at e₀ | (split at e₀)
  repeat' first
    | with_reducible assumption | intro _ | with_reducible apply setProg_kept | with_reducible apply advance_kept
    | with_reducible apply atInstr_kept | with_reducible apply ite_kept | with_reducible apply foldl_kept
    | (refine Kept.ofSnd (by assumption) ?_) | dsimp only | split

theorem execPost_kept {r₀ : State} {c₀ : Bool} {prog r : Nat} {patch arm : Bool} {queue slot ctr : Nat} {s : State} {t₀}
    (e₀ : execPost prog r patch arm queue slot ctr s = .next t₀) (h8 : Kept c₀ r₀ s) : Kept c₀ r₀ t₀ := by
  unfold execPost at e₀
  repeat' first | contradiction | (injection e₀ with e₀; subst e₀) | dsimp only at e₀ | (split at e₀)
  repeat' first
    | with_reducible assumption | intro _ | with_reducible apply postEntry_kept | with_reducible apply atInstr_kept
    | with_reducible apply ite_kept | with_reducible apply foldl_kept | (refine Kept.ofSnd (by assumption) ?_) | dsimp only
    | split

theorem execSealPoint_kept {r₀ : State} {c₀ : Bool} {prog : Nat} {s : State} {t₀} (e₀ : execSealPoint prog s = .next t₀)
    (h2 : Kept c₀ r₀ s) : Kept c₀ r₀ t₀ := by
  unfold execSealPoint at e₀
  repeat' first | contradiction | (injection e₀ with e₀; subst e₀) | dsimp only at e₀ | (split at e₀)
  repeat' first
    | with_reducible assumption | intro _ | with_reducible apply setProg_kept | with_reducible apply atInstr_kept
    | with_reducible apply ite_kept | with_reducible apply foldl_kept | (refine Kept.ofSnd (by assumption) ?_) | dsimp only
    | split

theorem execClosePart_kept {r₀ : State} {c₀ : Bool} {s : State} {t₀} (e₀ : execClosePart s = .next t₀) (h1 : Kept c₀ r₀ s)
    : Kept c₀ r₀ t₀ := by
  unfold execClosePart at e₀
  repeat' first | contradiction | (injection e₀ with e₀; subst e₀) | dsimp only at e₀ | (split at e₀)
  repeat' first
    | with_reducible assumption | intro _ | with_reducible apply showSeq_kept | with_reducible apply State.onSeq_kept
    | with_reducible apply ite_kept | with_reducible apply foldl_kept | (refine Kept.ofSnd (by assumption) ?_) | dsimp only
    | split

theorem execFire_kept {r₀ : State} {c₀ : Bool} {prog : Nat} {s : State} {t₀} (e₀ : execFire prog s = .next t₀) (h2 : Kept c₀ r₀ s)
    : Kept c₀ r₀ t₀ := by
  unfold execFire at e₀
  repeat' first | contradiction | (injection e₀ with e₀; subst e₀) | dsimp only at e₀ | (split at e₀)
  repeat' first
    | with_reducible assumption | intro _ | with_reducible apply advance_kept | with_reducible apply atInstr_kept
    | with_reducible apply requestDatum_kept | with_reducible apply ite_kept | with_reducible apply foldl_kept
    | (refine Kept.ofSnd (by assumption) ?_) | dsimp only | split

theorem execSqRun_kept {r₀ : State} {c₀ : Bool} {h : Hdr} {count : Nat} {s : State} {t₀} (e₀ : execSqRun h count s = .next t₀)
    (h3 : Kept c₀ r₀ s) : Kept c₀ r₀ t₀ := by
  unfold execSqRun at e₀
  repeat' first | contradiction | (injection e₀ with e₀; subst e₀) | dsimp only at e₀ | (split at e₀)
  repeat' first
    | with_reducible assumption | intro _ | with_reducible apply markStarted_kept | with_reducible apply complete_kept
    | with_reducible apply State.onSeq_kept | with_reducible apply runDesc_kept | with_reducible apply startRun_kept
    | with_reducible apply ite_kept | with_reducible apply foldl_kept | (refine Kept.ofSnd (by assumption) ?_) | dsimp only
    | split

end Sys2Proof.Machine
end

