-- ==== Sys2Proof/Laws/KeptQueues.lean ====
section
/-!
SUPPORT. What the definitions of Machine/Queues.lean keep (Laws/Kept.lean).
-/

set_option linter.all false

namespace Sys2Proof.Machine

open Sys2Proof

theorem execResume_kept {r₀ : State} {c₀ : Bool} {value : Word64} {s : State} {t₀} (e₀ : execResume value s = .next t₀)
    (h2 : Kept c₀ r₀ s) : Kept c₀ r₀ t₀ := by
  unfold execResume at e₀
  repeat' first | contradiction | (injection e₀ with e₀; subst e₀) | dsimp only at e₀ | (split at e₀)
  repeat' first
    | with_reducible assumption | intro _ | with_reducible apply writeQctl_kept | with_reducible apply ite_kept
    | with_reducible apply foldl_kept | (refine Kept.ofSnd (by assumption) ?_) | dsimp only | split

theorem execRhead_kept {r₀ : State} {c₀ : Bool} {value : Word64} {s : State} {t₀} (e₀ : execRhead value s = .next t₀)
    (h2 : Kept c₀ r₀ s) : Kept c₀ r₀ t₀ := by
  unfold execRhead at e₀
  repeat' first | contradiction | (injection e₀ with e₀; subst e₀) | dsimp only at e₀ | (split at e₀)
  repeat' first
    | with_reducible assumption | intro _ | with_reducible apply writeRhead_kept | with_reducible apply ite_kept
    | with_reducible apply foldl_kept | (refine Kept.ofSnd (by assumption) ?_) | dsimp only | split

theorem passHead_kept {r₀ : State} {c₀ : Bool} {s : State} {q size : Nat} (h1 : Kept c₀ r₀ s) : Kept c₀ r₀ (passHead s q size) := by
  unfold passHead
  repeat' first
    | with_reducible assumption | intro _ | with_reducible apply setQueue_kept | with_reducible apply ite_kept
    | with_reducible apply foldl_kept | (refine Kept.ofSnd (by assumption) ?_) | dsimp only | split

theorem takeEntry_kept {r₀ : State} {c₀ : Bool} {s : State} {q size : Nat} {e : List Byte} {idx gen : Nat} (h1 : Kept c₀ r₀ s)
    : Kept c₀ r₀ (takeEntry s q size e idx gen) := by
  unfold takeEntry
  repeat' first
    | with_reducible assumption | intro _ | with_reducible apply setQueue_kept | with_reducible apply completeIdle_kept
    | with_reducible apply State.onSeq_kept | with_reducible apply passHead_kept | with_reducible apply ite_kept
    | with_reducible apply foldl_kept | (refine Kept.ofSnd (by assumption) ?_) | dsimp only | split

theorem readHead_kept {r₀ : State} {c₀ : Bool} {s : State} {q : Nat} {r : Rec} (h1 : Kept c₀ r₀ s)
    : Kept c₀ r₀ (readHead s q r) := by
  unfold readHead
  repeat' first
    | with_reducible assumption | intro _ | with_reducible apply setQueue_kept | with_reducible apply completeIdle_kept
    | with_reducible apply bump_kept | with_reducible apply checkRead_kept | with_reducible apply takeEntry_kept
    | with_reducible apply State.onSeq_kept | with_reducible apply passHead_kept | with_reducible apply ite_kept
    | with_reducible apply ite_kept_snd | with_reducible apply foldl_kept | with_reducible apply foldl_kept_snd
    | (refine Kept.ofSnd (by assumption) ?_) | dsimp only | split

theorem writeRegs_kept {r₀ : State} {c₀ : Bool} {s : State} {a : Agent} {a2 : Nat} {a3 : List Byte} {a4 : Nat} (h1 : Kept c₀ r₀ s)
    : Kept c₀ r₀ (writeRegs s a a2 a3 a4) := by
  induction a4 generalizing s a2 a3 with
  | zero =>
    unfold writeRegs
    repeat' first
      | with_reducible assumption | intro _ | with_reducible apply writeReg_kept | with_reducible apply ite_kept
      | with_reducible apply foldl_kept | (refine Kept.ofSnd (by assumption) ?_) | dsimp only | split
  | succ _ ih =>
    unfold writeRegs
    repeat' first
      | with_reducible assumption | intro _ | with_reducible apply ih | with_reducible apply writeReg_kept
      | with_reducible apply ite_kept | with_reducible apply foldl_kept | (refine Kept.ofSnd (by assumption) ?_) | dsimp only
      | split

theorem execInlineWrite_kept {r₀ : State} {c₀ : Bool} {h : Hdr} {da len : Nat} {payload : List Byte} {s : State} {t₀}
    (e₀ : execInlineWrite h da len payload s = .next t₀) (h5 : Kept c₀ r₀ s) : Kept c₀ r₀ t₀ := by
  unfold execInlineWrite at e₀
  repeat' first | contradiction | (injection e₀ with e₀; subst e₀) | dsimp only at e₀ | (split at e₀)
  repeat' first
    | with_reducible assumption | intro _ | with_reducible apply writeMem_kept | with_reducible apply finish_kept
    | with_reducible apply writeRegs_kept | with_reducible apply complete_kept | with_reducible apply runDesc_kept
    | with_reducible apply ite_kept | with_reducible apply foldl_kept | (refine Kept.ofSnd (by assumption) ?_) | dsimp only
    | split

theorem execSealReread_kept {r₀ : State} {c₀ : Bool} {queue : Nat} {s : State} {t₀} (e₀ : execSealReread queue s = .next t₀)
    (h2 : Kept c₀ r₀ s) : Kept c₀ r₀ t₀ := by
  unfold execSealReread at e₀
  repeat' first | contradiction | (injection e₀ with e₀; subst e₀) | dsimp only at e₀ | (split at e₀)
  repeat' first
    | with_reducible assumption | intro _ | with_reducible apply readHead_kept | with_reducible apply ite_kept
    | with_reducible apply foldl_kept | (refine Kept.ofSnd (by assumption) ?_) | dsimp only | split

theorem countStatus_kept {r₀ : State} {c₀ : Bool} {s : State} {q st : Nat} (h1 : Kept c₀ r₀ s)
    : Kept c₀ r₀ (countStatus s q st) := by
  unfold countStatus
  repeat' first
    | with_reducible assumption | intro _ | with_reducible apply bump_kept | with_reducible apply setSticky_kept
    | with_reducible apply ite_kept | with_reducible apply foldl_kept | (refine Kept.ofSnd (by assumption) ?_) | dsimp only
    | split

theorem deliver_kept {r₀ : State} {c₀ : Bool} {s : State} {c : Cpl} (h1 : Kept c₀ r₀ s) : Kept c₀ r₀ (deliver s c) := by
  unfold deliver
  repeat' first
    | with_reducible assumption | intro _ | with_reducible apply countStatus_kept | with_reducible apply mboxDone_kept
    | with_reducible apply seqRecord_kept | with_reducible apply writeRecord_kept | with_reducible apply releaseSlot_kept
    | with_reducible apply State.onQm_kept | with_reducible apply ite_kept | with_reducible apply foldl_kept
    | (refine Kept.ofSnd (by assumption) ?_) | dsimp only | split

theorem handOver_kept {r₀ : State} {c₀ : Bool} {s : State} {x : Fetched} (h1 : Kept c₀ r₀ s) : Kept c₀ r₀ (handOver s x) := by
  unfold handOver
  repeat' first
    | with_reducible assumption | intro _ | with_reducible apply completeIdle_kept | with_reducible apply bump_kept
    | with_reducible apply endEarly_kept | with_reducible apply setCore_kept | with_reducible apply State.onQm_kept
    | with_reducible apply ite_kept | with_reducible apply foldl_kept | (refine Kept.ofSnd (by assumption) ?_) | dsimp only
    | split

theorem execFence_kept {r₀ : State} {c₀ : Bool} {h : Hdr} {far remote panel : Bool} {s : State} {t₀}
    (e₀ : execFence h far remote panel s = .next t₀) (h5 : Kept c₀ r₀ s) : Kept c₀ r₀ t₀ := by
  unfold execFence at e₀
  repeat' first | contradiction | (injection e₀ with e₀; subst e₀) | dsimp only at e₀ | (split at e₀)
  repeat' first
    | with_reducible assumption | intro _ | with_reducible apply markStarted_kept | with_reducible apply complete_kept
    | with_reducible apply waitFor_kept | with_reducible apply ite_kept | with_reducible apply foldl_kept
    | (refine Kept.ofSnd (by assumption) ?_) | dsimp only | split

theorem execDoorbell_kept {r₀ : State} {c₀ : Bool} {queue : Nat} {value : Word64} {s : State} {t₀}
    (e₀ : execDoorbell queue value s = .next t₀) (h3 : Kept c₀ r₀ s) : Kept c₀ r₀ t₀ := by
  unfold execDoorbell at e₀
  repeat' first | contradiction | (injection e₀ with e₀; subst e₀) | dsimp only at e₀ | (split at e₀)
  repeat' first
    | with_reducible assumption | intro _ | with_reducible apply ringDoorbell_kept | with_reducible apply ite_kept
    | with_reducible apply foldl_kept | (refine Kept.ofSnd (by assumption) ?_) | dsimp only | split

theorem execDescriptorFetch_kept {r₀ : State} {c₀ : Bool} {queue : Nat} {s : State} {t₀}
    (e₀ : execDescriptorFetch queue s = .next t₀) (h2 : Kept c₀ r₀ s) : Kept c₀ r₀ t₀ := by
  unfold execDescriptorFetch at e₀
  repeat' first | contradiction | (injection e₀ with e₀; subst e₀) | dsimp only at e₀ | (split at e₀)
  repeat' first
    | with_reducible assumption | intro _ | with_reducible apply readHead_kept | with_reducible apply reserveSlot_kept
    | with_reducible apply ite_kept | with_reducible apply foldl_kept | (refine Kept.ofSnd (by assumption) ?_) | dsimp only
    | split

theorem sendCpl_kept {r₀ : State} {c₀ : Bool} {s : State} {c : Cpl} (h1 : Kept c₀ r₀ s) : Kept c₀ r₀ (sendCpl s c) := by
  unfold sendCpl
  repeat' first
    | with_reducible assumption | intro _ | with_reducible apply deliver_kept | with_reducible apply State.onQm_kept
    | with_reducible apply ite_kept | with_reducible apply ite_kept_snd | with_reducible apply foldl_kept
    | with_reducible apply foldl_kept_snd | (with_reducible refine goes_kept (by assumption) ?_)
    | (refine goes_kept (x15 := (_, _)) (by assumption) ?_) | (refine Kept.ofSnd (by assumption) ?_) | dsimp only | split

theorem refused_kept {r₀ : State} {c₀ : Bool} {s : State} {f : Flit} (h1 : Kept c₀ r₀ s) : Kept c₀ r₀ (refused s f) := by
  unfold refused
  repeat' first
    | with_reducible assumption | intro _ | with_reducible apply lateAnswer_kept | with_reducible apply endStore_kept
    | with_reducible apply answered_kept | with_reducible apply answerIngress_kept | with_reducible apply closeReq_kept
    | with_reducible apply ite_kept | with_reducible apply foldl_kept | (refine Kept.ofSnd (by assumption) ?_) | dsimp only
    | split

theorem execCompletion_kept {r₀ : State} {c₀ : Bool} {f : Flit} {s : State} {t₀} (e₀ : execCompletion f s = .next t₀)
    (h2 : Kept c₀ r₀ s) : Kept c₀ r₀ t₀ := by
  unfold execCompletion at e₀
  repeat' first | contradiction | (injection e₀ with e₀; subst e₀) | dsimp only at e₀ | (split at e₀)
  repeat' first
    | with_reducible assumption | intro _ | with_reducible apply arrive_kept | with_reducible apply sendCpl_kept
    | with_reducible apply refused_kept | with_reducible apply deliver_kept | with_reducible apply ite_kept
    | with_reducible apply ite_kept_snd | with_reducible apply foldl_kept | with_reducible apply foldl_kept_snd
    | (refine Kept.ofSnd (by assumption) ?_) | dsimp only | split

theorem execDispatch_kept {r₀ : State} {c₀ : Bool} {queue : Nat} {starved : Bool} {s : State} {t₀}
    (e₀ : execDispatch queue starved s = .next t₀) (h3 : Kept c₀ r₀ s) : Kept c₀ r₀ t₀ := by
  unfold execDispatch at e₀
  repeat' first | contradiction | (injection e₀ with e₀; subst e₀) | dsimp only at e₀ | (split at e₀)
  repeat' first
    | with_reducible assumption | intro _ | with_reducible apply setQueue_kept | with_reducible apply handOver_kept
    | with_reducible apply State.onQm_kept | with_reducible apply ite_kept | with_reducible apply foldl_kept
    | (refine Kept.ofSnd (by assumption) ?_) | dsimp only | split

theorem execNop_kept {r₀ : State} {c₀ : Bool} {h : Hdr} {s : State} {t₀} (e₀ : execNop h s = .next t₀) (h2 : Kept c₀ r₀ s)
    : Kept c₀ r₀ t₀ := by
  unfold execNop at e₀
  repeat' first | contradiction | (injection e₀ with e₀; subst e₀) | dsimp only at e₀ | (split at e₀)
  repeat' first
    | with_reducible assumption | intro _ | with_reducible apply complete_kept | with_reducible apply runDesc_kept
    | with_reducible apply ite_kept | with_reducible apply foldl_kept | (refine Kept.ofSnd (by assumption) ?_) | dsimp only
    | split

end Sys2Proof.Machine
end

