-- ==== Sys2Proof/Laws/KeptResets.lean ====
section
/-!
SUPPORT. What the definitions of Machine/Resets.lean keep (Laws/Kept.lean).
-/

set_option linter.all false

namespace Sys2Proof.Machine

open Sys2Proof

theorem resetDies_kept {r₀ : State} {c₀ : Bool} {s : State} (h1 : Kept c₀ r₀ s) : Kept c₀ r₀ (resetDies s) :=
  ⟨h1.pending, fun h => ⟨(h1.tables h).cells, (h1.tables h).poison, (h1.tables h).latent,
    keep_rising (fun k _ => k / 2 ^ 32 % 4096 == 1) _ (h1.tables h).regs⟩, h1.straps, h1.locked⟩

theorem powerDown_kept {r₀ : State} {c₀ : Bool} {s : State} (h1 : Kept c₀ r₀ s) : Kept c₀ r₀ (powerDown s) := by
  have k := resetDies_kept h1
  have k : Kept c₀ r₀ { resetDies s with mem := farOnly (resetDies s).mem } :=
    ⟨k.pending, fun h => ⟨keep_wf (fun a _ => farBase ≤ a) _ (k.tables h).cells, (k.tables h).poison.filter (fun i => decide (farBase ≤ 64 * i)), keep_rising (fun i _ => farBase ≤ 64 * i) _ (k.tables h).latent,
      (k.tables h).regs⟩, k.straps, k.locked⟩
  unfold powerDown
  refine ite_kept (raiseIbi_kept ?_) ?_ <;>
    exact addCause_kept (addCause_kept (State.onSv_kept (State.onPkg_kept k fun _ => ⟨rfl, rfl⟩) fun _ h => h))

theorem execThermalShutdown_kept {r₀ : State} {c₀ : Bool} {s : State} {t₀} (e₀ : execThermalShutdown s = .next t₀)
    (h1 : Kept c₀ r₀ s) : Kept c₀ r₀ t₀ := by
  unfold execThermalShutdown at e₀
  repeat' first | contradiction | (injection e₀ with e₀; subst e₀) | dsimp only at e₀ | (split at e₀)
  repeat' first
    | with_reducible assumption | intro _ | with_reducible apply powerDown_kept | with_reducible apply raiseIbi_kept
    | with_reducible apply setSticky_kept | (with_reducible refine State.onSv_kept ?_ (fun _ h => h))
    | with_reducible apply ite_kept | with_reducible apply foldl_kept | (refine Kept.ofSnd (by assumption) ?_) | dsimp only
    | split

theorem holdFaultN_kept {r₀ : State} {c₀ : Bool} {s : State} (h1 : Kept c₀ r₀ s) : Kept c₀ r₀ (holdFaultN s) := by
  unfold holdFaultN
  repeat' first
    | with_reducible assumption | intro _ | with_reducible apply raiseIbi_kept
    | (with_reducible refine State.onSv_kept ?_ (fun _ h => h)) | with_reducible apply ite_kept | with_reducible apply foldl_kept
    | (refine Kept.ofSnd (by assumption) ?_) | dsimp only | split

theorem setPhase_kept {r₀ : State} {c₀ : Bool} {s : State} {n : Nat} (h1 : Kept c₀ r₀ s) : Kept c₀ r₀ (setPhase s n) := by
  unfold setPhase
  repeat' first
    | with_reducible assumption | intro _ | (with_reducible refine State.onSv_kept ?_ (fun _ h => h))
    | with_reducible apply ite_kept | with_reducible apply foldl_kept | (refine Kept.ofSnd (by assumption) ?_) | dsimp only
    | split

theorem haltBringUp_kept {r₀ : State} {c₀ : Bool} {s : State} (h1 : Kept c₀ r₀ s) : Kept c₀ r₀ (haltBringUp s) := by
  unfold haltBringUp
  repeat' first
    | with_reducible assumption | intro _ | with_reducible apply raiseIbi_kept | with_reducible apply setPhase_kept
    | with_reducible apply ite_kept | with_reducible apply foldl_kept | (refine Kept.ofSnd (by assumption) ?_) | dsimp only
    | split

theorem bootFail_kept {r₀ : State} {c₀ : Bool} {s : State} {stage reason : Nat} (h1 : Kept c₀ r₀ s)
    : Kept c₀ r₀ (bootFail s stage reason) := by
  unfold bootFail
  repeat' first
    | with_reducible assumption | intro _ | with_reducible apply holdFaultN_kept | with_reducible apply haltBringUp_kept
    | (with_reducible refine State.onSv_kept ?_ (fun _ h => h)) | with_reducible apply ite_kept | with_reducible apply foldl_kept
    | (refine Kept.ofSnd (by assumption) ?_) | dsimp only | split

theorem selvageRecords_kept {r₀ : State} {c₀ : Bool} {s : State} (h1 : Kept c₀ r₀ s) : Kept c₀ r₀ (selvageRecords s) := by
  unfold selvageRecords
  repeat' first
    | with_reducible assumption | intro _ | (with_reducible refine State.onSv_kept ?_ (fun _ h => h))
    | with_reducible apply ite_kept | with_reducible apply foldl_kept | (refine Kept.ofSnd (by assumption) ?_) | dsimp only
    | split

theorem execPowerShutdown_kept {r₀ : State} {c₀ : Bool} {s : State} {t₀} (e₀ : execPowerShutdown s = .next t₀) (h1 : Kept c₀ r₀ s)
    : Kept c₀ r₀ t₀ := by
  unfold execPowerShutdown at e₀
  repeat' first | contradiction | (injection e₀ with e₀; subst e₀) | dsimp only at e₀ | (split at e₀)
  repeat' first
    | with_reducible assumption | intro _ | with_reducible apply powerDown_kept | with_reducible apply setSticky_kept
    | (with_reducible refine State.onSv_kept ?_ (fun _ h => h)) | with_reducible apply ite_kept | with_reducible apply foldl_kept
    | (refine Kept.ofSnd (by assumption) ?_) | dsimp only | split

theorem warmBase_kept {r₀ : State} {c₀ : Bool} {s : State} {lost : List Nat} (h1 : Kept c₀ r₀ s)
    : Kept c₀ r₀ (warmBase s lost) :=(resetDies_kept h1).same rfl rfl rfl rfl rfl

theorem restartQueues_kept {r₀ : State} {c₀ : Bool} {s : State} (h1 : Kept c₀ r₀ s) : Kept c₀ r₀ (restartQueues s) := by
  unfold restartQueues
  repeat' first
    | with_reducible assumption | intro _ | with_reducible apply loadQueues_kept | with_reducible apply zeroRange_kept
    | with_reducible apply ite_kept | with_reducible apply foldl_kept | (refine Kept.ofSnd (by assumption) ?_) | dsimp only
    | split

theorem resumeQueues_kept {r₀ : State} {c₀ : Bool} {old s : State} (h1 : Kept c₀ r₀ old) (h2 : Kept c₀ r₀ s)
    : Kept c₀ r₀ (resumeQueues old s) := by
  unfold resumeQueues
  repeat' first
    | with_reducible assumption | intro _ | with_reducible apply State.onQm_kept | with_reducible apply reserveSlot_kept
    | with_reducible apply ite_kept | with_reducible apply foldl_kept | (refine Kept.ofSnd (by assumption) ?_) | dsimp only
    | split

theorem reloadImage_kept {r₀ : State} {c₀ : Bool} {old s : State} {ran : Bool} (h1 : Kept c₀ r₀ old) (h2 : Kept c₀ r₀ s)
    : Kept c₀ r₀ (reloadImage old s ran) := by
  unfold reloadImage
  repeat' first
    | with_reducible assumption | intro _ | with_reducible apply restartQueues_kept | with_reducible apply setUpImage_kept
    | with_reducible apply setReason_kept | with_reducible apply resumeQueues_kept | with_reducible apply zeroRange_kept
    | with_reducible apply ite_kept | with_reducible apply foldl_kept | (refine Kept.ofSnd (by assumption) ?_) | dsimp only
    | split

theorem noFirmware_kept {r₀ : State} {c₀ : Bool} {s : State} (h1 : Kept c₀ r₀ s) : Kept c₀ r₀ (noFirmware s) := by
  unfold noFirmware
  repeat' first
    | with_reducible assumption | intro _ | with_reducible apply State.onSec_kept | with_reducible apply bootFail_kept
    | with_reducible apply setSticky_kept | with_reducible apply ite_kept | with_reducible apply foldl_kept
    | (refine Kept.ofSnd (by assumption) ?_) | dsimp only | split

theorem firmwareRecords_kept {r₀ : State} {c₀ : Bool} {s : State} (h1 : Kept c₀ r₀ s) : Kept c₀ r₀ (firmwareRecords s) := by
  unfold firmwareRecords
  repeat' first
    | with_reducible assumption | intro _ | with_reducible apply State.onCt_kept | with_reducible apply regSet_kept
    | with_reducible apply ite_kept | with_reducible apply foldl_kept | (refine Kept.ofSnd (by assumption) ?_) | dsimp only
    | split

theorem startFirmware_kept {r₀ : State} {c₀ : Bool} {s : State} {q0 : Queue} {r0 : Ring} (h1 : Kept c₀ r₀ s)
    : Kept c₀ r₀ (startFirmware s q0 r0) := by
  unfold startFirmware
  repeat' first
    | with_reducible assumption | intro _ | with_reducible apply State.onSec_kept | with_reducible apply firmwareRecords_kept
    | with_reducible apply State.onQm_kept | (with_reducible refine State.onPkg_kept ?_ (fun _ => ⟨rfl, rfl⟩))
    | with_reducible apply ite_kept | with_reducible apply foldl_kept | (refine Kept.ofSnd (by assumption) ?_) | dsimp only
    | split

theorem enumPort_kept {r₀ : State} {c₀ : Bool} {b : BringUp} {s : State} {p : Nat} (h2 : Kept c₀ r₀ s)
    : Kept c₀ r₀ (enumPort b s p) := by
  unfold enumPort
  repeat' first
    | with_reducible assumption | intro _ | with_reducible apply State.took_kept
    | (with_reducible refine State.onPkg_kept ?_ (fun _ => ⟨rfl, rfl⟩)) | with_reducible apply ite_kept
    | with_reducible apply foldl_kept | (refine Kept.ofSnd (by assumption) ?_) | dsimp only | split

theorem markFailed_kept {r₀ : State} {c₀ : Bool} {s : State} {l : List Nat} (h1 : Kept c₀ r₀ s) : Kept c₀ r₀ (markFailed s l) := by
  unfold markFailed
  repeat' first
    | with_reducible assumption | intro _ | (with_reducible refine State.onPkg_kept ?_ (fun _ => ⟨rfl, rfl⟩))
    | with_reducible apply ite_kept | with_reducible apply foldl_kept | (refine Kept.ofSnd (by assumption) ?_) | dsimp only
    | split

theorem trainMemory_kept {r₀ : State} {c₀ : Bool} {s : State} {b : BringUp} (h1 : Kept c₀ r₀ s) : Kept c₀ r₀ (trainMemory s b) := by
  unfold trainMemory
  repeat' first
    | with_reducible assumption | intro _ | with_reducible apply State.onRings_kept | with_reducible apply addCause_kept
    | with_reducible apply State.onHost_kept | with_reducible apply enumPort_kept | with_reducible apply setSticky_kept
    | with_reducible apply trainHost_kept | with_reducible apply markFailed_kept
    | (with_reducible refine State.onPkg_kept ?_ (fun _ => ⟨rfl, rfl⟩)) | with_reducible apply ite_kept
    | with_reducible apply foldl_kept | (refine Kept.ofSnd (by assumption) ?_) | dsimp only | split

theorem lockDies_kept {r₀ : State} {c₀ : Bool} {s : State} {b : BringUp} (h1 : Kept c₀ r₀ s) : Kept c₀ r₀ (lockDies s b) := by
  unfold lockDies
  repeat' first
    | with_reducible assumption | intro _ | with_reducible apply State.onCk_kept | with_reducible apply setSticky_kept
    | with_reducible apply markFailed_kept | (with_reducible refine State.onSv_kept ?_ (fun _ h => h))
    | with_reducible apply ite_kept | with_reducible apply foldl_kept | (refine Kept.ofSnd (by assumption) ?_) | dsimp only
    | split

theorem trainPort_kept {r₀ : State} {c₀ : Bool} {b : BringUp} {s : State} {d p : Nat} (h2 : Kept c₀ r₀ s)
    : Kept c₀ r₀ (trainPort b s d p) := by
  unfold trainPort
  repeat' first
    | with_reducible assumption | intro _ | with_reducible apply setSticky_kept | with_reducible apply setPort_kept
    | with_reducible apply ite_kept | with_reducible apply foldl_kept | (refine Kept.ofSnd (by assumption) ?_) | dsimp only
    | split

theorem trainLinks_kept {r₀ : State} {c₀ : Bool} {s : State} {b : BringUp} (h1 : Kept c₀ r₀ s) : Kept c₀ r₀ (trainLinks s b) := by
  unfold trainLinks
  repeat' first
    | with_reducible assumption | intro _ | with_reducible apply State.onGz_kept | with_reducible apply trainPort_kept
    | with_reducible apply markFailed_kept | with_reducible apply ite_kept | with_reducible apply foldl_kept
    | (refine Kept.ofSnd (by assumption) ?_) | dsimp only | split

theorem startDies_kept {r₀ : State} {c₀ : Bool} {s : State} {b : BringUp} {q0 : Queue} {r0 : Ring} (h1 : Kept c₀ r₀ s)
    : Kept c₀ r₀ (startDies s b q0 r0) := by
  unfold startDies
  repeat' first
    | with_reducible assumption | intro _ | with_reducible apply startFirmware_kept | with_reducible apply State.onCk_kept
    | with_reducible apply setSticky_kept | with_reducible apply setPhase_kept | with_reducible apply trainMemory_kept
    | with_reducible apply lockDies_kept | with_reducible apply holdFaultN_kept | with_reducible apply haltBringUp_kept
    | with_reducible apply dropCause_kept | with_reducible apply trainLinks_kept
    | (with_reducible refine State.onSv_kept ?_ (fun _ h => h)) | with_reducible apply ite_kept | with_reducible apply foldl_kept
    | (refine Kept.ofSnd (by assumption) ?_) | dsimp only | split

theorem drain_kept {r₀ : State} {c₀ : Bool} {s : State} (h1 : Kept c₀ r₀ s) : Kept c₀ r₀ (drain s) := by
  unfold drain
  repeat' first
    | with_reducible assumption | intro _ | with_reducible apply endFetchedAll_kept | with_reducible apply endAll_kept
    | with_reducible apply deliver_kept | (with_reducible refine State.onSv_kept ?_ (fun _ h => h))
    | with_reducible apply ite_kept | with_reducible apply foldl_kept | (refine Kept.ofSnd (by assumption) ?_) | dsimp only
    | split

theorem warmStart_kept {r₀ : State} {c₀ : Bool} {s : State} {cause : Nat} {b : BringUp} {firmware : State → State}
    (h1 : Kept c₀ r₀ s) (h4 : (∀ (y08 : State), Kept c₀ r₀ y08 → Kept c₀ r₀ (firmware y08)))
    : Kept c₀ r₀ (warmStart s cause b firmware) := by
  unfold warmStart
  repeat' first
    | with_reducible assumption | intro _ | with_reducible apply bump_kept | with_reducible apply warmBase_kept
    | with_reducible apply reloadImage_kept | with_reducible apply regSet_kept | with_reducible apply noFirmware_kept
    | with_reducible apply startDies_kept | with_reducible apply drain_kept
    | (with_reducible refine State.onSv_kept ?_ (fun _ h => h)) | with_reducible apply h4 | with_reducible apply ite_kept
    | with_reducible apply foldl_kept | (refine Kept.ofSnd (by assumption) ?_) | dsimp only | split

theorem execTrialExpiry_kept {r₀ : State} {c₀ : Bool} {restoredOk : Bool} {b : BringUp} {s : State} {t₀}
    (e₀ : execTrialExpiry restoredOk b s = .next t₀) (h3 : Kept c₀ r₀ s) : Kept c₀ r₀ t₀ := by
  unfold execTrialExpiry at e₀
  repeat' first | contradiction | (injection e₀ with e₀; subst e₀) | dsimp only at e₀ | (split at e₀)
  repeat' first
    | with_reducible assumption | intro _ | with_reducible apply restoreFw_kept | with_reducible apply warmStart_kept
    | with_reducible apply ite_kept | with_reducible apply foldl_kept | (refine Kept.ofSnd (by assumption) ?_) | dsimp only
    | split

theorem warmFirmware_kept {r₀ : State} {c₀ : Bool} {s : State} {b : BringUp} (h1 : Kept c₀ r₀ s)
    : Kept c₀ r₀ (warmFirmware s b) := by
  unfold warmFirmware
  repeat' first
    | with_reducible assumption | intro _ | with_reducible apply State.onSec_kept | with_reducible apply State.took_kept
    | with_reducible apply migrateAlm_kept | with_reducible apply restoreFw_kept | with_reducible apply ite_kept
    | with_reducible apply foldl_kept | (refine Kept.ofSnd (by assumption) ?_) | dsimp only | split

theorem execWarmReset_kept {r₀ : State} {c₀ : Bool} {cause : Nat} {b : BringUp} {s : State} {t₀}
    (e₀ : execWarmReset cause b s = .next t₀) (h3 : Kept c₀ r₀ s) : Kept c₀ r₀ t₀ := by
  unfold execWarmReset at e₀
  repeat' first | contradiction | (injection e₀ with e₀; subst e₀) | dsimp only at e₀ | (split at e₀)
  repeat' first
    | with_reducible assumption | intro _ | with_reducible apply warmFirmware_kept | with_reducible apply warmStart_kept
    | with_reducible apply ite_kept | with_reducible apply foldl_kept | (refine Kept.ofSnd (by assumption) ?_) | dsimp only
    | split

theorem findFirmware_kept {r₀ : State} {c₀ : Bool} {s : State} {b : BringUp} (h1 : Kept c₀ r₀ s)
    : Kept c₀ r₀ (findFirmware s b) := by
  unfold findFirmware
  repeat' first
    | with_reducible assumption | intro _ | with_reducible apply State.onSec_kept | with_reducible apply ite_kept
    | with_reducible apply foldl_kept | (refine Kept.ofSnd (by assumption) ?_) | dsimp only | split

theorem waitAt_kept {r₀ : State} {c₀ : Bool} {s : State} {n : Nat} (h1 : Kept c₀ r₀ s) : Kept c₀ r₀ (waitAt s n) := by
  unfold waitAt
  repeat' first
    | with_reducible assumption | intro _ | (with_reducible refine State.onSv_kept ?_ (fun _ h => h))
    | with_reducible apply ite_kept | with_reducible apply foldl_kept | (refine Kept.ofSnd (by assumption) ?_) | dsimp only
    | split

theorem powerUp_kept {r₀ : State} {c₀ : Bool} {s : State} {b : BringUp} (h1 : Kept c₀ r₀ s) : Kept c₀ r₀ (powerUp s b) := by
  unfold powerUp
  repeat' first
    | with_reducible assumption | intro _ | with_reducible apply startDies_kept | with_reducible apply waitAt_kept
    | with_reducible apply ite_kept | with_reducible apply foldl_kept | (refine Kept.ofSnd (by assumption) ?_) | dsimp only
    | split

theorem bootChecks_kept {r₀ : State} {c₀ : Bool} {s : State} {b : BringUp} (h1 : Kept c₀ r₀ s) : Kept c₀ r₀ (bootChecks s b) := by
  unfold bootChecks
  repeat' first
    | with_reducible assumption | intro _ | with_reducible apply findFirmware_kept | with_reducible apply State.onSec_kept
    | with_reducible apply powerUp_kept | with_reducible apply bootFail_kept | with_reducible apply setPhase_kept
    | with_reducible apply noFirmware_kept | with_reducible apply restoreFw_kept
    | (with_reducible refine State.onSv_kept ?_ (fun _ h => h)) | with_reducible apply ite_kept | with_reducible apply foldl_kept
    | (refine Kept.ofSnd (by assumption) ?_) | dsimp only | split

theorem selvageReady_kept {r₀ : State} {s : State} {b : BringUp} (h1 : Kept true r₀ s) : Kept true r₀ (selvageReady s b) :=
  bootChecks_kept (selvageRecords_kept (h1.cold rfl fun h => ⟨h.cells, h.poison, h.latent, h.regs⟩))

theorem selvageStart_kept {r₀ : State} {s : State} {b : BringUp} (h1 : Kept true r₀ s) : Kept true r₀ (selvageStart s b) := by
  have k : Kept true r₀ (s.onPkg fun p => { p with variant := strapVariant b.variantStrap p.variant, pairId := b.pairIdStrap }) :=
    h1.cold rfl fun h => ⟨h.cells, h.poison, h.latent, h.regs⟩
  unfold selvageStart
  exact ite_kept (selvageReady_kept (setPhase_kept k)) (waitAt_kept k)

theorem coldBase_kept {r₀ : State} {s : State} (h1 : Kept true r₀ s) : Kept true r₀ (coldBase s) :=
  h1.cold rfl fun h => ⟨keep_wf (fun a _ => farBase ≤ a) _ h.cells, h.poison.filter (fun i => decide (farBase ≤ 64 * i)), keep_rising (fun i _ => farBase ≤ 64 * i) _ h.latent, rfl⟩

theorem coldStart_kept {r₀ : State} {s : State} {cause : Nat} {b : BringUp} (h1 : Kept true r₀ s)
    : Kept true r₀ (coldStart s cause b) := by
  unfold coldStart
  repeat' first
    | with_reducible assumption | intro _ | with_reducible apply selvageStart_kept | with_reducible apply coldBase_kept
    | with_reducible apply addCause_kept | with_reducible apply waitAt_kept
    | (with_reducible refine State.onSv_kept ?_ (fun _ h => h)) | with_reducible apply ite_kept | with_reducible apply foldl_kept
    | (refine Kept.ofSnd (by assumption) ?_) | dsimp only | split

theorem execColdReset_kept {r₀ : State} {cause : Nat} {b : BringUp} {s : State} {t₀} (e₀ : execColdReset cause b s = .next t₀)
    (h3 : Kept true r₀ s) : Kept true r₀ t₀ := by
  unfold execColdReset at e₀
  repeat' first | contradiction | (injection e₀ with e₀; subst e₀) | dsimp only at e₀ | (split at e₀)
  repeat' first
    | with_reducible assumption | intro _ | with_reducible apply coldStart_kept
    | (with_reducible refine State.onSv_kept ?_ (fun _ h => h)) | with_reducible apply ite_kept | with_reducible apply foldl_kept
    | (refine Kept.ofSnd (by assumption) ?_) | dsimp only | split

theorem execVin12InRange_kept {r₀ : State} {c₀ : Bool} {b : BringUp} {s : State} {t₀} (e₀ : execVin12InRange b s = .next t₀)
    (h2 : Kept c₀ r₀ s) : Kept c₀ r₀ t₀ := by
  unfold execVin12InRange at e₀
  repeat' first | contradiction | (injection e₀ with e₀; subst e₀) | dsimp only at e₀ | (split at e₀)
  repeat' first
    | with_reducible assumption | intro _ | with_reducible apply startDies_kept | with_reducible apply ite_kept
    | with_reducible apply foldl_kept | (refine Kept.ofSnd (by assumption) ?_) | dsimp only | split

theorem execRefclkAPresent_kept {r₀ : State} {b : BringUp} {s : State} {t₀} (e₀ : execRefclkAPresent b s = .next t₀)
    (h2 : Kept true r₀ s) : Kept true r₀ t₀ := by
  unfold execRefclkAPresent at e₀
  repeat' first | contradiction | (injection e₀ with e₀; subst e₀) | dsimp only at e₀ | (split at e₀)
  repeat' first
    | with_reducible assumption | intro _ | with_reducible apply selvageReady_kept | with_reducible apply ite_kept
    | with_reducible apply foldl_kept | (refine Kept.ofSnd (by assumption) ?_) | dsimp only | split

theorem execVauxLoss_kept {r₀ : State} {c₀ : Bool} {s : State} {t₀} (e₀ : execVauxLoss s = .next t₀) (h1 : Kept c₀ r₀ s)
    : Kept c₀ r₀ t₀ := by
  unfold execVauxLoss at e₀
  repeat' first | contradiction | (injection e₀ with e₀; subst e₀) | dsimp only at e₀ | (split at e₀)
  repeat' first
    | with_reducible assumption | intro _ | with_reducible apply powerDown_kept
    | (with_reducible refine State.onSv_kept ?_ (fun _ h => h)) | with_reducible apply ite_kept | with_reducible apply foldl_kept
    | (refine Kept.ofSnd (by assumption) ?_) | dsimp only | split

theorem execHoldOffExpiry_kept {r₀ : State} {sensor : Nat} {b : BringUp} {s : State} {t₀}
    (e₀ : execHoldOffExpiry sensor b s = .next t₀) (h3 : Kept true r₀ s) : Kept true r₀ t₀ := by
  unfold execHoldOffExpiry at e₀
  repeat' first | contradiction | (injection e₀ with e₀; subst e₀) | dsimp only at e₀ | (split at e₀)
  repeat' first
    | with_reducible assumption | intro _ | with_reducible apply coldStart_kept
    | (with_reducible refine State.onSv_kept ?_ (fun _ h => h)) | with_reducible apply ite_kept | with_reducible apply foldl_kept
    | (refine Kept.ofSnd (by assumption) ?_) | dsimp only | split

end Sys2Proof.Machine
end

