-- ==== Sys2Proof/Laws/KeptRings.lean ====
section
/-!
SUPPORT. What the definitions of Machine/Rings.lean keep (Laws/Kept.lean).
-/

set_option linter.all false

namespace Sys2Proof.Machine

open Sys2Proof

theorem enterGauze_kept {r₀ : State} {c₀ : Bool} {s : State} {die : Nat} {x : RingFrame} {rDie : Nat} {f : Flit}
    (h1 : Kept c₀ r₀ s) : Kept c₀ r₀ (enterGauze s die x rDie f) := by
  unfold enterGauze
  repeat' first
    | with_reducible assumption | intro _ | with_reducible apply State.onRings_kept | with_reducible apply sendOne_kept
    | with_reducible apply openReq_kept | with_reducible apply ite_kept | with_reducible apply foldl_kept
    | (refine Kept.ofSnd (by assumption) ?_) | dsimp only | split

theorem execRemoteTimeout_kept {r₀ : State} {c₀ : Bool} {die tag : Nat} {s : State} {t₀}
    (e₀ : execRemoteTimeout die tag s = .next t₀) (h3 : Kept c₀ r₀ s) : Kept c₀ r₀ t₀ := by
  unfold execRemoteTimeout at e₀
  repeat' first | contradiction | (injection e₀ with e₀; subst e₀) | dsimp only at e₀ | (split at e₀)
  repeat' first
    | with_reducible assumption | intro _ | with_reducible apply bump_kept | with_reducible apply setSticky_kept
    | with_reducible apply loseRemote_kept | with_reducible apply ite_kept | with_reducible apply foldl_kept
    | (refine Kept.ofSnd (by assumption) ?_) | dsimp only | split

theorem execSendSent_kept {r₀ : State} {c₀ : Bool} {s : State} {t₀} (e₀ : execSendSent s = .next t₀) (h1 : Kept c₀ r₀ s)
    : Kept c₀ r₀ t₀ := by
  unfold execSendSent at e₀
  repeat' first | contradiction | (injection e₀ with e₀; subst e₀) | dsimp only at e₀ | (split at e₀)
  repeat' first
    | with_reducible assumption | intro _ | with_reducible apply State.onRings_kept | with_reducible apply floodStep_kept
    | with_reducible apply ite_kept | with_reducible apply foldl_kept | (refine Kept.ofSnd (by assumption) ?_) | dsimp only
    | split

theorem execTrainingFailure_kept {r₀ : State} {c₀ : Bool} {die : Nat} {s : State} {t₀} (e₀ : execTrainingFailure die s = .next t₀)
    (h2 : Kept c₀ r₀ s) : Kept c₀ r₀ t₀ := by
  unfold execTrainingFailure at e₀
  repeat' first | contradiction | (injection e₀ with e₀; subst e₀) | dsimp only at e₀ | (split at e₀)
  repeat' first
    | with_reducible assumption | intro _ | with_reducible apply pumpLink_kept | with_reducible apply setRPort_kept
    | with_reducible apply floodTopo_kept | with_reducible apply ite_kept | with_reducible apply foldl_kept
    | (refine Kept.ofSnd (by assumption) ?_) | dsimp only | split

theorem takeFill_kept {r₀ : State} {c₀ : Bool} {s : State} {n v : Nat} (h1 : Kept c₀ r₀ s) : Kept c₀ r₀ (takeFill s n v) := by
  unfold takeFill
  repeat' first
    | with_reducible assumption | intro _ | with_reducible apply setStrm_kept | with_reducible apply ite_kept
    | with_reducible apply foldl_kept | (refine Kept.ofSnd (by assumption) ?_) | dsimp only | split

theorem releaseWaiter_kept {r₀ : State} {c₀ : Bool} {s : State} (h1 : Kept c₀ r₀ s) : Kept c₀ r₀ (releaseWaiter s) := by
  unfold releaseWaiter
  repeat' first
    | with_reducible assumption | intro _ | with_reducible apply State.onRings_kept | with_reducible apply complete_kept
    | with_reducible apply ite_kept | with_reducible apply foldl_kept | (refine Kept.ofSnd (by assumption) ?_) | dsimp only
    | split

theorem execDimensionOpen_kept {r₀ : State} {c₀ : Bool} {dim : Nat} {s : State} {t₀} (e₀ : execDimensionOpen dim s = .next t₀)
    (h2 : Kept c₀ r₀ s) : Kept c₀ r₀ t₀ := by
  unfold execDimensionOpen at e₀
  repeat' first | contradiction | (injection e₀ with e₀; subst e₀) | dsimp only at e₀ | (split at e₀)
  repeat' first
    | with_reducible assumption | intro _ | with_reducible apply State.onRings_kept | with_reducible apply releaseWaiter_kept
    | with_reducible apply setRPort_kept | with_reducible apply floodTopo_kept | with_reducible apply dropCause_kept
    | with_reducible apply ite_kept | with_reducible apply foldl_kept | (refine Kept.ofSnd (by assumption) ?_) | dsimp only
    | split

theorem execOpenTok_kept {r₀ : State} {c₀ : Bool} {dev step : Nat} {s : State} {t₀} (e₀ : execOpenTok dev step s = .next t₀)
    (h3 : Kept c₀ r₀ s) : Kept c₀ r₀ t₀ := by
  unfold execOpenTok at e₀
  repeat' first | contradiction | (injection e₀ with e₀; subst e₀) | dsimp only at e₀ | (split at e₀)
  repeat' first
    | with_reducible assumption | intro _ | with_reducible apply applyStep_kept | with_reducible apply ite_kept
    | with_reducible apply foldl_kept | (refine Kept.ofSnd (by assumption) ?_) | dsimp only | split

theorem takeCredit_kept {r₀ : State} {c₀ : Bool} {s : State} {x : RingFrame} (h1 : Kept c₀ r₀ s) : Kept c₀ r₀ (takeCredit s x) := by
  unfold takeCredit
  repeat' first
    | with_reducible assumption | intro _ | with_reducible apply State.onRings_kept | with_reducible apply sendRemotes_kept
    | with_reducible apply ite_kept | with_reducible apply foldl_kept | (refine Kept.ofSnd (by assumption) ?_) | dsimp only
    | split

theorem refuseFrame_kept {r₀ : State} {c₀ : Bool} {s : State} {die : Nat} {x : RingFrame} {st : Nat} (h1 : Kept c₀ r₀ s)
    : Kept c₀ r₀ (refuseFrame s die x st) := by
  unfold refuseFrame
  repeat' first
    | with_reducible assumption | intro _ | with_reducible apply sendBack_kept | with_reducible apply ite_kept
    | with_reducible apply foldl_kept | (refine Kept.ofSnd (by assumption) ?_) | dsimp only | split

theorem ackJournal_kept {r₀ : State} {c₀ : Bool} {s : State} {die : Nat} {x : RingFrame} (h1 : Kept c₀ r₀ s) : Kept c₀ r₀ (ackJournal s die x) := by
  unfold ackJournal
  repeat' first
    | with_reducible assumption | intro _ | with_reducible apply sendBack_kept | with_reducible apply ite_kept
    | with_reducible apply foldl_kept | with_reducible apply foldl_kept_snd | with_reducible apply foldl_kept_fst
    | (refine Kept.ofSnd (by assumption) ?_) | dsimp only | split

theorem takeStrmReg_kept {r₀ : State} {c₀ : Bool} {s : State} {x : RingFrame} (h1 : Kept c₀ r₀ s)
    : Kept c₀ r₀ (takeStrmReg s x) := by
  unfold takeStrmReg
  repeat' first
    | with_reducible assumption | intro _ | with_reducible apply takeFill_kept | with_reducible apply takeCredit_kept
    | with_reducible apply ite_kept | with_reducible apply foldl_kept | (refine Kept.ofSnd (by assumption) ?_) | dsimp only
    | split

theorem takeRequest_kept {r₀ : State} {c₀ : Bool} {s : State} {die : Nat} {x : RingFrame} {x21} (e₀ : (takeRequest s die x) = some x21) (h1 : Kept c₀ r₀ s) : Kept c₀ r₀ x21 := by
  unfold takeRequest at e₀
  repeat' first | contradiction | (injection e₀ with e₀; subst e₀) | dsimp only at e₀ | (split at e₀)
  repeat' first
    | with_reducible assumption | intro _ | with_reducible apply refuseFrame_kept | with_reducible apply ackJournal_kept
    | with_reducible apply takeStrmReg_kept | with_reducible apply enterGauze_kept | with_reducible apply ite_kept
    | with_reducible apply foldl_kept | with_reducible apply foldl_kept_snd | with_reducible apply foldl_kept_fst
    | (refine Kept.ofSnd (by assumption) ?_) | dsimp only | split

theorem silence_kept {r₀ : State} {c₀ : Bool} {s : State} {n : Nat} {open_ : Bool} (h1 : Kept c₀ r₀ s)
    : Kept c₀ r₀ (silence s n open_) := by
  unfold silence
  repeat' first
    | with_reducible assumption | intro _ | with_reducible apply State.onRings_kept | with_reducible apply bumpBy_kept
    | with_reducible apply setPeer_kept | with_reducible apply ite_kept | with_reducible apply foldl_kept
    | (refine Kept.ofSnd (by assumption) ?_) | dsimp only | split

theorem execTokenWaitExpiry_kept {r₀ : State} {c₀ : Bool} {s : State} {t₀} (e₀ : execTokenWaitExpiry s = .next t₀)
    (h1 : Kept c₀ r₀ s) : Kept c₀ r₀ t₀ := by
  unfold execTokenWaitExpiry at e₀
  repeat' first | contradiction | (injection e₀ with e₀; subst e₀) | dsimp only at e₀ | (split at e₀)
  repeat' first
    | with_reducible assumption | intro _ | with_reducible apply silence_kept | with_reducible apply ite_kept
    | with_reducible apply foldl_kept | (refine Kept.ofSnd (by assumption) ?_) | dsimp only | split

theorem ringTarget_kept {r₀ : State} {c₀ : Bool} {s : State} {o : RingOp} {put_ : Bool} {j n : Nat} {r : OutReq} {x27}
    (e₀ : ringTarget s o put_ j n r = some x27) (h1 : Kept c₀ r₀ s) : Kept c₀ r₀ x27.2.2 := by
  unfold ringTarget at e₀
  repeat' first | contradiction | (injection e₀ with e₀; subst e₀) | dsimp only at e₀ | (obtain ⟨_, e₀, rfl⟩ := Option.map_eq_some_iff.mp e₀) | (split at e₀)
  repeat' first
    | with_reducible assumption | intro _ | with_reducible apply State.onRings_kept | with_reducible apply State.took_kept
    | with_reducible apply ite_kept | with_reducible apply ite_kept_snd | with_reducible apply foldl_kept
    | with_reducible apply foldl_kept_snd | (refine Kept.ofSnd (by assumption) ?_) | dsimp only | split

theorem addWait_kept {r₀ : State} {c₀ : Bool} {s : State} {h : Hdr} {key : Nat} (h1 : Kept c₀ r₀ s)
    : Kept c₀ r₀ (addWait s h key) := by
  unfold addWait
  repeat' first
    | with_reducible assumption | intro _ | with_reducible apply State.onQm_kept | with_reducible apply ite_kept
    | with_reducible apply foldl_kept | (refine Kept.ofSnd (by assumption) ?_) | dsimp only | split

theorem sendRing_kept {r₀ : State} {c₀ : Bool} {s : State} {h : Hdr} {o : RingOp} {put_ : Bool} {j : Nat} {x23}
    (e₀ : sendRing s h o put_ j = some x23) (h1 : Kept c₀ r₀ s) : Kept c₀ r₀ x23 := by
  unfold sendRing at e₀
  repeat' first | contradiction | (injection e₀ with e₀; subst e₀) | dsimp only at e₀ | (obtain ⟨_, e₀, rfl⟩ := Option.map_eq_some_iff.mp e₀) | (split at e₀)
  repeat' first
    | with_reducible assumption | intro _ | with_reducible apply requestRemote_kept | with_reducible apply addWait_kept
    | with_reducible apply ite_kept | with_reducible apply ite_kept_snd | with_reducible apply foldl_kept
    | with_reducible apply foldl_kept_snd | (with_reducible refine ringTarget_kept (by assumption) ?_)
    | (refine Kept.ofSnd (by assumption) ?_) | dsimp only | split

theorem sendRings_kept {r₀ : State} {c₀ : Bool} {s : State} {h : Hdr} {o : RingOp} {put_ : Bool} {a4 : Nat} {a5 : Nat} (h1 : Kept c₀ r₀ s) : Kept c₀ r₀ (sendRings s h o put_ a4 a5) := by
  induction a4 generalizing s a5 with
  | zero =>
    unfold sendRings
    repeat' first
      | with_reducible assumption | intro _ | with_reducible apply countLost_kept
      | with_reducible apply State.onMu_kept | with_reducible apply endAdds_kept | with_reducible apply ite_kept
      | with_reducible apply foldl_kept | with_reducible apply foldl_kept_snd | with_reducible apply foldl_kept_fst
      | (with_reducible refine sendRing_kept (by assumption) ?_) | (refine Kept.ofSnd (by assumption) ?_) | dsimp only | split
  | succ _ ih =>
    unfold sendRings
    repeat' first
      | with_reducible assumption | intro _ | with_reducible apply ih | with_reducible apply countLost_kept
      | with_reducible apply State.onMu_kept | with_reducible apply endAdds_kept | with_reducible apply ite_kept
      | with_reducible apply foldl_kept | with_reducible apply foldl_kept_snd | with_reducible apply foldl_kept_fst
      | (with_reducible refine sendRing_kept (by assumption) ?_) | (refine Kept.ofSnd (by assumption) ?_) | dsimp only | split

theorem portChanged_kept {r₀ : State} {c₀ : Bool} {s : State} {d : Nat} {f : RPort → RPort} (h1 : Kept c₀ r₀ s)
    : Kept c₀ r₀ (portChanged s d f) := by
  unfold portChanged
  repeat' first
    | with_reducible assumption | intro _ | with_reducible apply setRPort_kept | with_reducible apply twinPortCheck_kept
    | with_reducible apply ite_kept | with_reducible apply foldl_kept | (refine Kept.ofSnd (by assumption) ?_) | dsimp only
    | split

theorem retrain_kept {r₀ : State} {c₀ : Bool} {s : State} {d : Nat} (h1 : Kept c₀ r₀ s) : Kept c₀ r₀ (retrain s d) := by
  unfold retrain
  repeat' first
    | with_reducible assumption | intro _ | with_reducible apply bump_kept | with_reducible apply portChanged_kept
    | with_reducible apply ite_kept | with_reducible apply foldl_kept | (refine Kept.ofSnd (by assumption) ?_) | dsimp only
    | split

theorem takeReply_kept {r₀ : State} {c₀ : Bool} {s : State} {die : Nat} {x : RingFrame} (h1 : Kept c₀ r₀ s)
    : Kept c₀ r₀ (takeReply s die x) := by
  unfold takeReply
  repeat' first
    | with_reducible assumption | intro _ | with_reducible apply sendFlit_kept | with_reducible apply ite_kept
    | with_reducible apply foldl_kept | (refine Kept.ofSnd (by assumption) ?_) | dsimp only | split

theorem badCredit_kept {r₀ : State} {c₀ : Bool} {s : State} {die : Nat} (h1 : Kept c₀ r₀ s) : Kept c₀ r₀ (badCredit s die) := by
  unfold badCredit
  repeat' first
    | with_reducible assumption | intro _ | with_reducible apply bump_kept | with_reducible apply setRPort_kept
    | with_reducible apply retrain_kept | with_reducible apply ite_kept | with_reducible apply foldl_kept
    | (refine Kept.ofSnd (by assumption) ?_) | dsimp only | split

theorem execRingLaneFailure_kept {r₀ : State} {c₀ : Bool} {die lane : Nat} {s : State} {t₀}
    (e₀ : execRingLaneFailure die lane s = .next t₀) (h3 : Kept c₀ r₀ s) : Kept c₀ r₀ t₀ := by
  unfold execRingLaneFailure at e₀
  repeat' first | contradiction | (injection e₀ with e₀; subst e₀) | dsimp only at e₀ | (split at e₀)
  repeat' first
    | with_reducible assumption | intro _ | with_reducible apply portChanged_kept | with_reducible apply retrain_kept
    | with_reducible apply ite_kept | with_reducible apply foldl_kept | (refine Kept.ofSnd (by assumption) ?_) | dsimp only
    | split

theorem loseSnapshot_kept {r₀ : State} {c₀ : Bool} {s : State} (h1 : Kept c₀ r₀ s) : Kept c₀ r₀ (loseSnapshot s) := by
  unfold loseSnapshot
  repeat' first
    | with_reducible assumption | intro _ | with_reducible apply State.onSnap_kept | with_reducible apply complete_kept
    | with_reducible apply ite_kept | with_reducible apply foldl_kept | (refine Kept.ofSnd (by assumption) ?_) | dsimp only
    | split

theorem execLossOfSignal_kept {r₀ : State} {c₀ : Bool} {die : Nat} {s : State} {t₀} (e₀ : execLossOfSignal die s = .next t₀)
    (h2 : Kept c₀ r₀ s) : Kept c₀ r₀ t₀ := by
  unfold execLossOfSignal at e₀
  repeat' first | contradiction | (injection e₀ with e₀; subst e₀) | dsimp only at e₀ | (split at e₀)
  repeat' first
    | with_reducible assumption | intro _ | with_reducible apply portChanged_kept | with_reducible apply loseSnapshot_kept
    | with_reducible apply ite_kept | with_reducible apply foldl_kept | (refine Kept.ofSnd (by assumption) ?_) | dsimp only
    | split

theorem passOn_kept {r₀ : State} {c₀ : Bool} {s : State} {die : Nat} {x : RingFrame} {x16} (e₀ : passOn s die x = some x16)
    (h1 : Kept c₀ r₀ s) : Kept c₀ r₀ x16 := by
  unfold passOn at e₀
  repeat' first | contradiction | (injection e₀ with e₀; subst e₀) | dsimp only at e₀ | (split at e₀)
  repeat' first
    | with_reducible assumption | intro _ | with_reducible apply sendFrame_kept | with_reducible apply ite_kept
    | with_reducible apply foldl_kept | (refine Kept.ofSnd (by assumption) ?_) | dsimp only | split

theorem takeFrame_kept {r₀ : State} {c₀ : Bool} {s : State} {die : Nat} {x : RingFrame} {x19} (e₀ : takeFrame s die x = some x19)
    (h1 : Kept c₀ r₀ s) : Kept c₀ r₀ x19 := by
  unfold takeFrame at e₀
  repeat' first | contradiction | (injection e₀ with e₀; subst e₀) | dsimp only at e₀ | (split at e₀)
  repeat' first
    | with_reducible assumption | intro _ | with_reducible apply takeReply_kept | with_reducible apply ite_kept
    | with_reducible apply foldl_kept | (with_reducible refine takeRequest_kept (by assumption) ?_)
    | (with_reducible refine passOn_kept (by assumption) ?_) | (refine Kept.ofSnd (by assumption) ?_) | dsimp only | split

theorem drainFrames_kept {r₀ : State} {c₀ : Bool} {die : Nat} {a1 : List RingFrame} {a2 : List Nat} {a3 : State}
    (h4 : Kept c₀ r₀ a3) : Kept c₀ r₀ (drainFrames die a1 a2 a3) := by
  induction a1 generalizing a2 a3 with
  | nil =>
    unfold drainFrames
    repeat' first
      | with_reducible assumption | intro _ | with_reducible apply setRPort_kept | with_reducible apply ite_kept
      | with_reducible apply foldl_kept | (with_reducible refine takeFrame_kept (by assumption) ?_)
      | (refine Kept.ofSnd (by assumption) ?_) | dsimp only | split
  | cons _ _ ih =>
    unfold drainFrames
    repeat' first
      | with_reducible assumption | intro _ | with_reducible apply ih | with_reducible apply setRPort_kept
      | with_reducible apply ite_kept | with_reducible apply foldl_kept | (with_reducible refine takeFrame_kept (by assumption) ?_)
      | (refine Kept.ofSnd (by assumption) ?_) | dsimp only | split

theorem drainInput_kept {r₀ : State} {c₀ : Bool} {s : State} {die : Nat} (h1 : Kept c₀ r₀ s) : Kept c₀ r₀ (drainInput s die) := by
  unfold drainInput
  repeat' first
    | with_reducible assumption | intro _ | with_reducible apply drainFrames_kept | with_reducible apply ite_kept
    | with_reducible apply foldl_kept | (refine Kept.ofSnd (by assumption) ?_) | dsimp only | split

theorem runRing_kept {r₀ : State} {c₀ : Bool} {s : State} {h : Hdr} {o : RingOp} {put_ : Bool} {u : UnitId} (h1 : Kept c₀ r₀ s) : Kept c₀ r₀ (runRing s h o put_ u) := by
  unfold runRing
  repeat' first
    | with_reducible assumption | intro _ | with_reducible apply countLost_kept | with_reducible apply sendRings_kept
    | with_reducible apply checkRead_kept | with_reducible apply complete_kept | with_reducible apply waitFor_kept
    | with_reducible apply ite_kept | with_reducible apply ite_kept_snd | with_reducible apply foldl_kept
    | with_reducible apply foldl_kept_snd | with_reducible apply foldl_kept_fst | (refine Kept.ofSnd (by assumption) ?_)
    | dsimp only | split

theorem execRgPut_kept {r₀ : State} {c₀ : Bool} {h : Hdr} {op : RingOp} {s : State} {t₀} (e₀ : execRgPut h op s = .next t₀)
    (h3 : Kept c₀ r₀ s) : Kept c₀ r₀ t₀ := by
  unfold execRgPut at e₀
  repeat' first | contradiction | (injection e₀ with e₀; subst e₀) | dsimp only at e₀ | (split at e₀)
  repeat' first
    | with_reducible assumption | intro _ | with_reducible apply sendRings_kept | with_reducible apply runRing_kept
    | with_reducible apply runDesc_kept | with_reducible apply ite_kept | with_reducible apply foldl_kept
    | (refine Kept.ofSnd (by assumption) ?_) | dsimp only | split

theorem takeRet_kept {r₀ : State} {c₀ : Bool} {s : State} {die : Nat} {r : RingRet} (h1 : Kept c₀ r₀ s)
    : Kept c₀ r₀ (takeRet s die r) := by
  unfold takeRet
  repeat' first
    | with_reducible assumption | intro _ | with_reducible apply setRPort_kept | with_reducible apply ite_kept
    | with_reducible apply foldl_kept | (refine Kept.ofSnd (by assumption) ?_) | dsimp only | split

theorem moveOn_kept {r₀ : State} {c₀ : Bool} {s : State} {die : Nat} (h1 : Kept c₀ r₀ s) : Kept c₀ r₀ (moveOn s die) := by
  unfold moveOn
  repeat' first
    | with_reducible assumption | intro _ | with_reducible apply pumpLink_kept | with_reducible apply drainInput_kept
    | with_reducible apply ite_kept | with_reducible apply foldl_kept | (refine Kept.ofSnd (by assumption) ?_) | dsimp only
    | split

theorem execIdle_kept {r₀ : State} {c₀ : Bool} {f : IdleFrame} {s : State} {t₀} (e₀ : execIdle f s = .next t₀)
    (h3 : Kept c₀ r₀ s) : Kept c₀ r₀ t₀ := by
  unfold execIdle at e₀
  repeat' first | contradiction | (injection e₀ with e₀; subst e₀) | dsimp only at e₀ | (split at e₀)
  repeat' first
    | with_reducible assumption | intro _ | with_reducible apply bumpBy_kept | with_reducible apply State.took_kept
    | with_reducible apply takeRet_kept | with_reducible apply moveOn_kept | with_reducible apply ite_kept
    | with_reducible apply foldl_kept | (refine Kept.ofSnd (by assumption) ?_) | dsimp only | split

theorem enterYield_kept {r₀ : State} {c₀ : Bool} {s : State} (h1 : Kept c₀ r₀ s) : Kept c₀ r₀ (enterYield s) := by
  unfold enterYield
  repeat' first
    | with_reducible assumption | intro _ | with_reducible apply addCause_kept | with_reducible apply State.onTwin_kept
    | (with_reducible refine State.onSv_kept ?_ (fun _ h => h)) | with_reducible apply ite_kept | with_reducible apply foldl_kept
    | (refine Kept.ofSnd (by assumption) ?_) | dsimp only | split

theorem settleKept_kept {r₀ : State} {c₀ : Bool} {s : State} {d : Nat} {f : IdentFrame} (h1 : Kept c₀ r₀ s)
    : Kept c₀ r₀ (settleKept s d f) := by
  unfold settleKept
  repeat' first
    | with_reducible assumption | intro _ | with_reducible apply bumpBy_kept | with_reducible apply setRPort_kept
    | with_reducible apply discardKept_kept | with_reducible apply ite_kept | with_reducible apply foldl_kept
    | (refine Kept.ofSnd (by assumption) ?_) | dsimp only | split

theorem portUpWith_kept {r₀ : State} {c₀ : Bool} {s : State} {d : Nat} {f : IdentFrame} (h1 : Kept c₀ r₀ s)
    : Kept c₀ r₀ (portUpWith s d f) := by
  unfold portUpWith
  repeat' first
    | with_reducible assumption | intro _ | with_reducible apply pumpLink_kept | with_reducible apply portChanged_kept
    | with_reducible apply settleKept_kept | with_reducible apply ite_kept | with_reducible apply foldl_kept
    | (refine Kept.ofSnd (by assumption) ?_) | dsimp only | split

theorem execSendOpen_kept {r₀ : State} {c₀ : Bool} {s : State} {t₀} (e₀ : execSendOpen s = .next t₀) (h1 : Kept c₀ r₀ s)
    : Kept c₀ r₀ t₀ := by
  unfold execSendOpen at e₀
  repeat' first | contradiction | (injection e₀ with e₀; subst e₀) | dsimp only at e₀ | (split at e₀)
  repeat' first
    | with_reducible assumption | intro _ | with_reducible apply State.onRings_kept | with_reducible apply floodStep_kept
    | with_reducible apply ite_kept | with_reducible apply foldl_kept | (refine Kept.ofSnd (by assumption) ?_) | dsimp only
    | split

theorem ringUpWith_kept {r₀ : State} {c₀ : Bool} {s : State} {d : Nat} {f : IdentFrame} (h1 : Kept c₀ r₀ s)
    : Kept c₀ r₀ (ringUpWith s d f) := by
  unfold ringUpWith
  repeat' first
    | with_reducible assumption | intro _ | with_reducible apply portUpWith_kept | with_reducible apply setRPort_kept
    | with_reducible apply floodTopo_kept | with_reducible apply ite_kept | with_reducible apply foldl_kept
    | (refine Kept.ofSnd (by assumption) ?_) | dsimp only | split

theorem execFlitFrame_kept {r₀ : State} {c₀ : Bool} {die : Nat} {f : RingFrame} {s : State} {t₀}
    (e₀ : execFlitFrame die f s = .next t₀) (h3 : Kept c₀ r₀ s) : Kept c₀ r₀ t₀ := by
  unfold execFlitFrame at e₀
  repeat' first | contradiction | (injection e₀ with e₀; subst e₀) | dsimp only at e₀ | (split at e₀)
  repeat' first
    | with_reducible assumption | intro _ | with_reducible apply setRPort_kept | with_reducible apply badCredit_kept
    | with_reducible apply takeRet_kept | with_reducible apply moveOn_kept | with_reducible apply ite_kept
    | with_reducible apply foldl_kept | (refine Kept.ofSnd (by assumption) ?_) | dsimp only | split

theorem execAliasTok_kept {r₀ : State} {c₀ : Bool} {dev target : Nat} {s : State} {t₀} (e₀ : execAliasTok dev target s = .next t₀)
    (h3 : Kept c₀ r₀ s) : Kept c₀ r₀ t₀ := by
  unfold execAliasTok at e₀
  repeat' first | contradiction | (injection e₀ with e₀; subst e₀) | dsimp only at e₀ | (split at e₀)
  repeat' first
    | with_reducible assumption | intro _ | with_reducible apply applyAlias_kept | with_reducible apply ite_kept
    | with_reducible apply foldl_kept | (refine Kept.ofSnd (by assumption) ?_) | dsimp only | split

theorem execTokenIn_kept {r₀ : State} {c₀ : Bool} {die : Nat} {tok : Token} {s : State} {t₀}
    (e₀ : execTokenIn die tok s = .next t₀) (h3 : Kept c₀ r₀ s) : Kept c₀ r₀ t₀ := by
  unfold execTokenIn at e₀
  repeat' first | contradiction | (injection e₀ with e₀; subst e₀) | dsimp only at e₀ | (split at e₀)
  repeat' first
    | with_reducible assumption | intro _ | with_reducible apply State.onRings_kept | with_reducible apply applyToken_kept
    | with_reducible apply ite_kept | with_reducible apply foldl_kept | (refine Kept.ofSnd (by assumption) ?_) | dsimp only
    | split

theorem rebase_kept {r₀ : State} {c₀ : Bool} {was : Bool} {s : State} (h2 : Kept c₀ r₀ s) : Kept c₀ r₀ (rebase was s) := by
  unfold rebase
  repeat' first
    | with_reducible assumption | intro _ | with_reducible apply enterBase_kept | with_reducible apply ite_kept
    | with_reducible apply foldl_kept | (refine Kept.ofSnd (by assumption) ?_) | dsimp only | split

theorem execRgGet_kept {r₀ : State} {c₀ : Bool} {h : Hdr} {op : RingOp} {s : State} {t₀} (e₀ : execRgGet h op s = .next t₀)
    (h3 : Kept c₀ r₀ s) : Kept c₀ r₀ t₀ := by
  unfold execRgGet at e₀
  repeat' first | contradiction | (injection e₀ with e₀; subst e₀) | dsimp only at e₀ | (split at e₀)
  repeat' first
    | with_reducible assumption | intro _ | with_reducible apply sendRings_kept | with_reducible apply runRing_kept
    | with_reducible apply runDesc_kept | with_reducible apply ite_kept | with_reducible apply foldl_kept
    | (refine Kept.ofSnd (by assumption) ?_) | dsimp only | split

theorem pairIdent_kept {r₀ : State} {c₀ : Bool} {s : State} {f : IdentFrame} (h1 : Kept c₀ r₀ s) : Kept c₀ r₀ (pairIdent s f) := by
  unfold pairIdent
  repeat' first
    | with_reducible assumption | intro _ | with_reducible apply enterBase_kept | with_reducible apply enterYield_kept
    | with_reducible apply ite_kept | with_reducible apply foldl_kept | (refine Kept.ofSnd (by assumption) ?_) | dsimp only
    | split

theorem execIdent_kept {r₀ : State} {c₀ : Bool} {die : Nat} {f : IdentFrame} {s : State} {t₀} (e₀ : execIdent die f s = .next t₀)
    (h3 : Kept c₀ r₀ s) : Kept c₀ r₀ t₀ := by
  unfold execIdent at e₀
  repeat' first | contradiction | (injection e₀ with e₀; subst e₀) | dsimp only at e₀ | (split at e₀)
  repeat' first
    | with_reducible assumption | intro _ | with_reducible apply pairIdent_kept | with_reducible apply portUpWith_kept
    | with_reducible apply setRPort_kept | with_reducible apply rebase_kept | with_reducible apply ringUpWith_kept
    | with_reducible apply ite_kept | with_reducible apply foldl_kept | (refine Kept.ofSnd (by assumption) ?_) | dsimp only
    | split

theorem execSent_kept {r₀ : State} {c₀ : Bool} {dev step : Nat} {s : State} {t₀} (e₀ : execSent dev step s = .next t₀)
    (h3 : Kept c₀ r₀ s) : Kept c₀ r₀ t₀ := by
  unfold execSent at e₀
  repeat' first | contradiction | (injection e₀ with e₀; subst e₀) | dsimp only at e₀ | (split at e₀)
  repeat' first
    | with_reducible assumption | intro _ | with_reducible apply applyStep_kept | with_reducible apply ite_kept
    | with_reducible apply foldl_kept | (refine Kept.ofSnd (by assumption) ?_) | dsimp only | split

theorem execBrokenRetry_kept {r₀ : State} {c₀ : Bool} {die : Nat} {s : State} {t₀} (e₀ : execBrokenRetry die s = .next t₀)
    (h2 : Kept c₀ r₀ s) : Kept c₀ r₀ t₀ := by
  unfold execBrokenRetry at e₀
  repeat' first | contradiction | (injection e₀ with e₀; subst e₀) | dsimp only at e₀ | (split at e₀)
  repeat' first
    | with_reducible assumption | intro _ | with_reducible apply retrain_kept | with_reducible apply ite_kept
    | with_reducible apply foldl_kept | (refine Kept.ofSnd (by assumption) ?_) | dsimp only | split

theorem execUncorrectableCodeword_kept {r₀ : State} {c₀ : Bool} {die : Nat} {s : State} {t₀}
    (e₀ : execUncorrectableCodeword die s = .next t₀) (h2 : Kept c₀ r₀ s) : Kept c₀ r₀ t₀ := by
  unfold execUncorrectableCodeword at e₀
  repeat' first | contradiction | (injection e₀ with e₀; subst e₀) | dsimp only at e₀ | (split at e₀)
  repeat' first
    | with_reducible assumption | intro _ | with_reducible apply bump_kept | with_reducible apply setRPort_kept
    | with_reducible apply retrain_kept | with_reducible apply ite_kept | with_reducible apply foldl_kept
    | (refine Kept.ofSnd (by assumption) ?_) | dsimp only | split

theorem execSignalDetected_kept {r₀ : State} {c₀ : Bool} {die : Nat} {s : State} {t₀} (e₀ : execSignalDetected die s = .next t₀)
    (h2 : Kept c₀ r₀ s) : Kept c₀ r₀ t₀ := by
  unfold execSignalDetected at e₀
  repeat' first | contradiction | (injection e₀ with e₀; subst e₀) | dsimp only at e₀ | (split at e₀)
  repeat' first
    | with_reducible assumption | intro _ | with_reducible apply setRPort_kept | with_reducible apply retrain_kept
    | with_reducible apply ite_kept | with_reducible apply foldl_kept | (refine Kept.ofSnd (by assumption) ?_) | dsimp only
    | split

theorem execTopo_kept {r₀ : State} {c₀ : Bool} {dev aux orig count : Nat} {s : State} {t₀}
    (e₀ : execTopo dev aux orig count s = .next t₀) (h5 : Kept c₀ r₀ s) : Kept c₀ r₀ t₀ := by
  unfold execTopo at e₀
  repeat' first | contradiction | (injection e₀ with e₀; subst e₀) | dsimp only at e₀ | (split at e₀)
  repeat' first
    | with_reducible assumption | intro _ | with_reducible apply applyTopo_kept | with_reducible apply ite_kept
    | with_reducible apply foldl_kept | (refine Kept.ofSnd (by assumption) ?_) | dsimp only | split

theorem execBypassCause_kept {r₀ : State} {c₀ : Bool} {cause dim : Nat} {s : State} {t₀}
    (e₀ : execBypassCause cause dim s = .next t₀) (h3 : Kept c₀ r₀ s) : Kept c₀ r₀ t₀ := by
  unfold execBypassCause at e₀
  repeat' first | contradiction | (injection e₀ with e₀; subst e₀) | dsimp only at e₀ | (split at e₀)
  repeat' first
    | with_reducible assumption | intro _ | with_reducible apply addCause_kept | with_reducible apply ite_kept
    | with_reducible apply foldl_kept | (refine Kept.ofSnd (by assumption) ?_) | dsimp only | split

end Sys2Proof.Machine
end

