-- ==== Sys2Proof/Laws/KeptSecurity.lean ====
section
/-!
SUPPORT. What the definitions of Machine/Security.lean keep (Laws/Kept.lean).
-/

set_option linter.all false

namespace Sys2Proof.Machine

open Sys2Proof

theorem readOperands_kept {r₀ : State} {c₀ : Bool} {s : State} {h : Hdr} {rs : List Range} {x21}
    (e₀ : readOperands s h rs = .inr x21) (h1 : Kept c₀ r₀ s) : Kept c₀ r₀ x21 := by
  unfold readOperands at e₀
  repeat' first | contradiction | (injection e₀ with e₀; subst e₀) | dsimp only at e₀ | (split at e₀)
  repeat' first
    | with_reducible assumption | intro _ | with_reducible apply checkRead_kept | with_reducible apply ite_kept
    | with_reducible apply ite_kept_snd | with_reducible apply foldl_kept | with_reducible apply foldl_kept_snd
    | (refine Kept.ofSnd (by assumption) ?_) | dsimp only | split

theorem execOwnerSet_kept {r₀ : State} {c₀ : Bool} {h : Hdr} {keyDa sigDa ctr : Nat} {s : State} {t₀}
    (e₀ : execOwnerSet h keyDa sigDa ctr s = .next t₀) (h5 : Kept c₀ r₀ s) : Kept c₀ r₀ t₀ := by
  unfold execOwnerSet at e₀
  repeat' first | contradiction | (injection e₀ with e₀; subst e₀) | dsimp only at e₀ | (split at e₀)
  repeat' first
    | with_reducible assumption | intro _ | with_reducible apply appendAlm_kept | with_reducible apply State.onSec_kept
    | with_reducible apply complete_kept | with_reducible apply runDesc_kept | with_reducible apply ite_kept
    | with_reducible apply foldl_kept | (with_reducible refine readOperands_kept (by assumption) ?_)
    | (refine Kept.ofSnd (by assumption) ?_) | dsimp only | split

theorem execLockSet_kept {r₀ : State} {c₀ : Bool} {h : Hdr} {t : Trailer} {s : State} {t₀} (e₀ : execLockSet h t s = .next t₀)
    (h3 : Kept c₀ r₀ s) : Kept c₀ r₀ t₀ := by
  unfold execLockSet at e₀
  repeat' first | contradiction | (injection e₀ with e₀; subst e₀) | dsimp only at e₀ | (split at e₀)
  repeat' first
    | with_reducible assumption | intro _ | with_reducible apply appendAlm_kept | with_reducible apply complete_kept
    | with_reducible apply critical_kept | with_reducible apply ite_kept | with_reducible apply foldl_kept
    | (refine Kept.ofSnd (by assumption) ?_) | dsimp only | split

theorem execDebugOn_kept {r₀ : State} {c₀ : Bool} {h : Hdr} {t : Trailer} {s : State} {t₀} (e₀ : execDebugOn h t s = .next t₀)
    (h3 : Kept c₀ r₀ s) : Kept c₀ r₀ t₀ := by
  unfold execDebugOn at e₀
  repeat' first | contradiction | (injection e₀ with e₀; subst e₀) | dsimp only at e₀ | (split at e₀)
  repeat' first
    | with_reducible assumption | intro _ | with_reducible apply State.onSec_kept | with_reducible apply complete_kept
    | with_reducible apply critical_kept | with_reducible apply ite_kept | with_reducible apply foldl_kept
    | (refine Kept.ofSnd (by assumption) ?_) | dsimp only | split

theorem execBypassForceRelease_kept {r₀ : State} {c₀ : Bool} {h : Hdr} {t : Trailer} {s : State} {t₀}
    (e₀ : execBypassForceRelease h t s = .next t₀) (h3 : Kept c₀ r₀ s) : Kept c₀ r₀ t₀ := by
  unfold execBypassForceRelease at e₀
  repeat' first | contradiction | (injection e₀ with e₀; subst e₀) | dsimp only at e₀ | (split at e₀)
  repeat' first
    | with_reducible assumption | intro _ | with_reducible apply State.onRings_kept | with_reducible apply markStarted_kept
    | with_reducible apply complete_kept | with_reducible apply critical_kept | with_reducible apply dropCause_kept
    | with_reducible apply ite_kept | with_reducible apply foldl_kept | (refine Kept.ofSnd (by assumption) ?_) | dsimp only
    | split

theorem finishUpdate_kept {r₀ : State} {c₀ : Bool} {s : State} {h : Hdr} {srcDa srcLen : Nat} {readbackBad : Bool}
    (h1 : Kept c₀ r₀ s) : Kept c₀ r₀ (finishUpdate s h srcDa srcLen readbackBad) := by
  unfold finishUpdate
  repeat' first
    | with_reducible assumption | intro _ | with_reducible apply State.onSec_kept | with_reducible apply State.took_kept
    | with_reducible apply complete_kept | with_reducible apply requestWarm_kept | with_reducible apply restoreFw_kept
    | with_reducible apply ite_kept | with_reducible apply foldl_kept | (refine Kept.ofSnd (by assumption) ?_) | dsimp only
    | split

theorem beginUpdate_kept {r₀ : State} {c₀ : Bool} {s : State} {h : Hdr} {srcDa srcLen : Nat} (h1 : Kept c₀ r₀ s)
    : Kept c₀ r₀ (beginUpdate s h srcDa srcLen) := by
  unfold beginUpdate
  repeat' first
    | with_reducible assumption | intro _ | with_reducible apply markStarted_kept | with_reducible apply State.onSec_kept
    | with_reducible apply ite_kept | with_reducible apply foldl_kept | (refine Kept.ofSnd (by assumption) ?_) | dsimp only
    | split

theorem execFwUpdateStart_kept {r₀ : State} {c₀ : Bool} {h : Hdr} {t : Trailer} {srcDa srcLen : Nat} {readbackBad : Bool}
    {s : State} {t₀} (e₀ : execFwUpdateStart h t srcDa srcLen readbackBad s = .next t₀) (h6 : Kept c₀ r₀ s) : Kept c₀ r₀ t₀ := by
  unfold execFwUpdateStart at e₀
  repeat' first | contradiction | (injection e₀ with e₀; subst e₀) | dsimp only at e₀ | (split at e₀)
  repeat' first
    | with_reducible assumption | intro _ | with_reducible apply State.onSec_kept | with_reducible apply finishUpdate_kept
    | with_reducible apply checkRead_kept | with_reducible apply complete_kept | with_reducible apply critical_kept
    | with_reducible apply beginUpdate_kept | with_reducible apply ite_kept | with_reducible apply ite_kept_snd
    | with_reducible apply foldl_kept | with_reducible apply foldl_kept_snd | (refine Kept.ofSnd (by assumption) ?_) | dsimp only
    | split

theorem execFwConfirm_kept {r₀ : State} {c₀ : Bool} {agent : Agent} {value : Word64} {s : State} {t₀}
    (e₀ : execFwConfirm agent value s = .next t₀) (h3 : Kept c₀ r₀ s) : Kept c₀ r₀ t₀ := by
  unfold execFwConfirm at e₀
  repeat' first | contradiction | (injection e₀ with e₀; subst e₀) | dsimp only at e₀ | (split at e₀)
  repeat' first
    | with_reducible assumption | intro _ | with_reducible apply writeFwConfirm_kept | with_reducible apply ite_kept
    | with_reducible apply foldl_kept | (refine Kept.ofSnd (by assumption) ?_) | dsimp only | split

theorem execAlmanacWrite_kept {r₀ : State} {c₀ : Bool} {h : Hdr} {t : Trailer} {id version len : Nat} {data : List Byte}
    {s : State} {t₀} (e₀ : execAlmanacWrite h t id version len data s = .next t₀) (h7 : Kept c₀ r₀ s) : Kept c₀ r₀ t₀ := by
  unfold execAlmanacWrite at e₀
  repeat' first | contradiction | (injection e₀ with e₀; subst e₀) | dsimp only at e₀ | (split at e₀)
  repeat' first
    | with_reducible assumption | intro _ | with_reducible apply appendAlm_kept | with_reducible apply complete_kept
    | with_reducible apply critical_kept | with_reducible apply ite_kept | with_reducible apply foldl_kept
    | (refine Kept.ofSnd (by assumption) ?_) | dsimp only | split

theorem quotaSet_kept {r₀ : State} {c₀ : Bool} {s : State} {p what tier k v : Nat} {x28}
    (e₀ : quotaSet s p what tier k v = some x28) (h1 : Kept c₀ r₀ s) : Kept c₀ r₀ x28 := by
  unfold quotaSet at e₀
  repeat' first | contradiction | (injection e₀ with e₀; subst e₀) | dsimp only at e₀ | (split at e₀)
  repeat' first
    | with_reducible assumption | intro _ | with_reducible apply State.onImg_kept | with_reducible apply ite_kept
    | with_reducible apply foldl_kept | (refine Kept.ofSnd (by assumption) ?_) | dsimp only | split

theorem emptySlot_kept {r₀ : State} {c₀ : Bool} {s : State} {slot : Nat} (h1 : Kept c₀ r₀ s) : Kept c₀ r₀ (emptySlot s slot) := by
  unfold emptySlot
  repeat' first
    | with_reducible assumption | intro _ | with_reducible apply State.onSec_kept | with_reducible apply ite_kept
    | with_reducible apply foldl_kept | (refine Kept.ofSnd (by assumption) ?_) | dsimp only | split

theorem execKeyRetire_kept {r₀ : State} {c₀ : Bool} {h : Hdr} {slot : Nat} {s : State} {t₀}
    (e₀ : execKeyRetire h slot s = .next t₀) (h3 : Kept c₀ r₀ s) : Kept c₀ r₀ t₀ := by
  unfold execKeyRetire at e₀
  repeat' first | contradiction | (injection e₀ with e₀; subst e₀) | dsimp only at e₀ | (split at e₀)
  repeat' first
    | with_reducible assumption | intro _ | with_reducible apply emptySlot_kept | with_reducible apply complete_kept
    | with_reducible apply runDesc_kept | with_reducible apply ite_kept | with_reducible apply foldl_kept
    | (refine Kept.ofSnd (by assumption) ?_) | dsimp only | split

theorem execQuote_kept {r₀ : State} {c₀ : Bool} {h : Hdr} {outDa outLen : Nat} {cert : Bool} {nonce : List Byte} {s : State} {t₀}
    (e₀ : execQuote h outDa outLen cert nonce s = .next t₀) (h6 : Kept c₀ r₀ s) : Kept c₀ r₀ t₀ := by
  unfold execQuote at e₀
  repeat' first | contradiction | (injection e₀ with e₀; subst e₀) | dsimp only at e₀ | (split at e₀)
  repeat' first
    | with_reducible assumption | intro _ | with_reducible apply writeMem_kept | with_reducible apply finish_kept
    | with_reducible apply complete_kept | with_reducible apply runDesc_kept | with_reducible apply ite_kept
    | with_reducible apply foldl_kept | (refine Kept.ofSnd (by assumption) ?_) | dsimp only | split

theorem execBypassForceClose_kept {r₀ : State} {c₀ : Bool} {h : Hdr} {t : Trailer} {s : State} {t₀}
    (e₀ : execBypassForceClose h t s = .next t₀) (h3 : Kept c₀ r₀ s) : Kept c₀ r₀ t₀ := by
  unfold execBypassForceClose at e₀
  repeat' first | contradiction | (injection e₀ with e₀; subst e₀) | dsimp only at e₀ | (split at e₀)
  repeat' first
    | with_reducible assumption | intro _ | with_reducible apply addCause_kept | with_reducible apply complete_kept
    | with_reducible apply critical_kept | with_reducible apply ite_kept | with_reducible apply foldl_kept
    | (refine Kept.ofSnd (by assumption) ?_) | dsimp only | split

theorem execHoldupWaitExpiry_kept {r₀ : State} {c₀ : Bool} {restoredOk : Bool} {s : State} {t₀}
    (e₀ : execHoldupWaitExpiry restoredOk s = .next t₀) (h2 : Kept c₀ r₀ s) : Kept c₀ r₀ t₀ := by
  unfold execHoldupWaitExpiry at e₀
  repeat' first | contradiction | (injection e₀ with e₀; subst e₀) | dsimp only at e₀ | (split at e₀)
  repeat' first
    | with_reducible assumption | intro _ | with_reducible apply State.onSec_kept | with_reducible apply complete_kept
    | with_reducible apply restoreFw_kept | with_reducible apply ite_kept | with_reducible apply foldl_kept
    | (refine Kept.ofSnd (by assumption) ?_) | dsimp only | split

theorem execQuotaSet_kept {r₀ : State} {c₀ : Bool} {h : Hdr} {t : Trailer} {panel what tier muslin value : Nat} {s : State} {t₀}
    (e₀ : execQuotaSet h t panel what tier muslin value s = .next t₀) (h8 : Kept c₀ r₀ s) : Kept c₀ r₀ t₀ := by
  unfold execQuotaSet at e₀
  repeat' first | contradiction | (injection e₀ with e₀; subst e₀) | dsimp only at e₀ | (split at e₀)
  repeat' first
    | with_reducible assumption | intro _ | with_reducible apply complete_kept | with_reducible apply critical_kept
    | with_reducible apply ite_kept | with_reducible apply foldl_kept | (with_reducible refine quotaSet_kept (by assumption) ?_)
    | (refine Kept.ofSnd (by assumption) ?_) | dsimp only | split

theorem execKeyAgree_kept {r₀ : State} {c₀ : Bool} {h : Hdr} {slot keyNum ctr ctDa sigDa : Nat} {s : State} {t₀}
    (e₀ : execKeyAgree h slot keyNum ctr ctDa sigDa s = .next t₀) (h7 : Kept c₀ r₀ s) : Kept c₀ r₀ t₀ := by
  unfold execKeyAgree at e₀
  injection e₀ with e₀; subst e₀
  apply runDesc_kept h7
  intro u k
  split
  · exact complete_kept k
  · rename_i v hv
    have kv := readOperands_kept hv k
    clear hv k
    with_reducible apply ite_kept
    · exact complete_kept kv
    split
    · exact complete_kept kv
    with_reducible apply ite_kept
    · exact complete_kept kv
    with_reducible apply ite_kept
    · exact complete_kept kv
    with_reducible apply complete_kept
    with_reducible apply State.onSec_kept
    with_reducible apply appendAlm_kept
    exact kv

theorem execLockClear_kept {r₀ : State} {c₀ : Bool} {h : Hdr} {t : Trailer} {s : State} {t₀} (e₀ : execLockClear h t s = .next t₀)
    (h3 : Kept c₀ r₀ s) : Kept c₀ r₀ t₀ := by
  unfold execLockClear at e₀
  repeat' first | contradiction | (injection e₀ with e₀; subst e₀) | dsimp only at e₀ | (split at e₀)
  repeat' first
    | with_reducible assumption | intro _ | with_reducible apply appendAlm_kept | with_reducible apply complete_kept
    | with_reducible apply critical_kept | with_reducible apply ite_kept | with_reducible apply foldl_kept
    | (refine Kept.ofSnd (by assumption) ?_) | dsimp only | split

end Sys2Proof.Machine
end

