-- ==== Sys2Proof/Laws/KeptTwin.lean ====
section
/-!
SUPPORT. What the definitions of Machine/Twin.lean keep (Laws/Kept.lean).
-/

set_option linter.all false

namespace Sys2Proof.Machine

open Sys2Proof

theorem addRec_kept {r₀ : State} {c₀ : Bool} {g : SnapRun} {payload : List Byte} (h1 : Kept c₀ r₀ g.st)
    : Kept c₀ r₀ (addRec g payload).st := by
  unfold addRec
  repeat' first
    | with_reducible assumption | intro _ | with_reducible apply State.took_kept | with_reducible apply ite_kept
    | with_reducible apply foldl_kept | (with_reducible refine foldl_kept_of SnapRun.st ?_ ?_)
    | (refine Kept.ofSnd (by assumption) ?_) | dsimp only | split

theorem snapPart_kept {r₀ : State} {c₀ : Bool} {h : Hdr} {g : SnapRun} {r : Range} (h2 : Kept c₀ r₀ g.st)
    : Kept c₀ r₀ (snapPart h g r).st := by
  unfold snapPart
  repeat' first
    | with_reducible assumption | intro _ | with_reducible apply addRec_kept | with_reducible apply checkRead_kept
    | with_reducible apply ite_kept | with_reducible apply ite_kept_snd | with_reducible apply foldl_kept
    | with_reducible apply foldl_kept_snd | (with_reducible refine foldl_kept_of SnapRun.st ?_ ?_)
    | (refine Kept.ofSnd (by assumption) ?_) | dsimp only | split

theorem execYield_kept {r₀ : State} {c₀ : Bool} {s : State} {t₀} (e₀ : execYield s = .next t₀) (h1 : Kept c₀ r₀ s)
    : Kept c₀ r₀ t₀ := by
  unfold execYield at e₀
  repeat' first | contradiction | (injection e₀ with e₀; subst e₀) | dsimp only at e₀ | (split at e₀)
  repeat' first
    | with_reducible assumption | intro _ | with_reducible apply enterYield_kept | with_reducible apply ite_kept
    | with_reducible apply foldl_kept | (refine Kept.ofSnd (by assumption) ?_) | dsimp only | split

theorem execJournalBaseEnd_kept {r₀ : State} {c₀ : Bool} {r : JRec} {s : State} {t₀} (e₀ : execJournalBaseEnd r s = .next t₀)
    (h2 : Kept c₀ r₀ s) : Kept c₀ r₀ t₀ := by
  unfold execJournalBaseEnd at e₀
  repeat' first | contradiction | (injection e₀ with e₀; subst e₀) | dsimp only at e₀ | (split at e₀)
  repeat' first
    | with_reducible assumption | intro _ | with_reducible apply receiveJournal_kept | with_reducible apply ite_kept
    | with_reducible apply foldl_kept | (refine Kept.ofSnd (by assumption) ?_) | dsimp only | split

theorem snapRow_kept {r₀ : State} {c₀ : Bool} {s : State} {tr sr : Rec} {t row : Nat} (h1 : Kept c₀ r₀ s)
    : Kept c₀ r₀ (snapRow s tr sr t row).2 := by
  unfold snapRow
  repeat' first
    | with_reducible assumption | intro _ | with_reducible apply checkRead_kept | with_reducible apply ite_kept
    | with_reducible apply ite_kept_snd | with_reducible apply foldl_kept | with_reducible apply foldl_kept_snd
    | (refine Kept.ofSnd (by assumption) ?_) | dsimp only | split

theorem snapRows_kept {r₀ : State} {c₀ : Bool} {s : State} {tr sr : Rec} {t a4 a5 : Nat} (h1 : Kept c₀ r₀ s)
    : Kept c₀ r₀ (snapRows s tr sr t a4 a5).2 := by
  induction a4 generalizing s a5 with
  | zero =>
    unfold snapRows
    repeat' first
      | with_reducible assumption | intro _ | with_reducible apply snapRow_kept | with_reducible apply ite_kept
      | with_reducible apply ite_kept_snd | with_reducible apply foldl_kept | with_reducible apply foldl_kept_snd
      | (refine Kept.ofSnd (by assumption) ?_) | dsimp only | split
  | succ _ ih =>
    unfold snapRows
    repeat' first
      | with_reducible assumption | intro _ | with_reducible apply ih | with_reducible apply snapRow_kept
      | with_reducible apply ite_kept | with_reducible apply ite_kept_snd | with_reducible apply foldl_kept
      | with_reducible apply foldl_kept_snd | (refine Kept.ofSnd (by assumption) ?_) | dsimp only | split

theorem snapShard_kept {r₀ : State} {c₀ : Bool} {tr : Rec} {g : SnapRun} {sr : Rec} (h2 : Kept c₀ r₀ g.st)
    : Kept c₀ r₀ (snapShard tr g sr).st := by
  unfold snapShard
  repeat' first
    | with_reducible assumption | intro _ | with_reducible apply addRec_kept | with_reducible apply snapRows_kept
    | with_reducible apply ite_kept | with_reducible apply ite_kept_snd | with_reducible apply foldl_kept
    | with_reducible apply foldl_kept_snd | (with_reducible refine foldl_kept_of SnapRun.st ?_ ?_)
    | (refine Kept.ofSnd (by assumption) ?_) | dsimp only | split

theorem snapTable_kept {r₀ : State} {c₀ : Bool} {g : SnapRun} {tr : Rec} (h1 : Kept c₀ r₀ g.st)
    : Kept c₀ r₀ (snapTable g tr).st := by
  unfold snapTable
  repeat' first
    | with_reducible assumption | intro _ | with_reducible apply addRec_kept | with_reducible apply snapShard_kept
    | with_reducible apply ite_kept | with_reducible apply foldl_kept | (with_reducible refine foldl_kept_of SnapRun.st ?_ ?_)
    | (refine Kept.ofSnd (by assumption) ?_) | dsimp only | split

theorem takeBack_kept {r₀ : State} {c₀ : Bool} {s : State} {step : Nat} (h1 : Kept c₀ r₀ s) : Kept c₀ r₀ (takeBack s step) := by
  unfold takeBack
  repeat' first
    | with_reducible assumption | intro _ | with_reducible apply enterBase_kept | with_reducible apply State.onSeq_kept
    | with_reducible apply dropCause_kept | with_reducible apply startRun_kept | with_reducible apply ite_kept
    | with_reducible apply foldl_kept | (refine Kept.ofSnd (by assumption) ?_) | dsimp only | split

theorem execJournalEnd_kept {r₀ : State} {c₀ : Bool} {r : JRec} {s : State} {t₀} (e₀ : execJournalEnd r s = .next t₀)
    (h2 : Kept c₀ r₀ s) : Kept c₀ r₀ t₀ := by
  unfold execJournalEnd at e₀
  repeat' first | contradiction | (injection e₀ with e₀; subst e₀) | dsimp only at e₀ | (split at e₀)
  repeat' first
    | with_reducible assumption | intro _ | with_reducible apply receiveJournal_kept | with_reducible apply ite_kept
    | with_reducible apply foldl_kept | (refine Kept.ofSnd (by assumption) ?_) | dsimp only | split

theorem snapTensor_kept {r₀ : State} {c₀ : Bool} {h : Hdr} {o : SnapOp} {g : SnapRun} {i : Nat} (h3 : Kept c₀ r₀ g.st)
    : Kept c₀ r₀ (snapTensor h o g i).st := by
  unfold snapTensor
  repeat' first
    | with_reducible assumption | intro _ | with_reducible apply snapPart_kept | with_reducible apply ite_kept
    | with_reducible apply foldl_kept | (with_reducible refine foldl_kept_of SnapRun.st ?_ ?_)
    | (refine Kept.ofSnd (by assumption) ?_) | dsimp only | split

theorem snapStream_kept {r₀ : State} {c₀ : Bool} {s : State} {h : Hdr} {o : SnapOp} (h1 : Kept c₀ r₀ s)
    : Kept c₀ r₀ (snapStream s h o).st := by
  unfold snapStream
  repeat' first
    | with_reducible assumption | intro _ | with_reducible apply addRec_kept | with_reducible apply snapTensor_kept
    | with_reducible apply checkRead_kept | with_reducible apply snapTable_kept | with_reducible apply ite_kept
    | with_reducible apply ite_kept_snd | with_reducible apply foldl_kept | with_reducible apply foldl_kept_snd
    | (with_reducible refine foldl_kept_of SnapRun.st ?_ ?_) | (refine Kept.ofSnd (by assumption) ?_) | dsimp only | split

theorem sendSnap_kept {r₀ : State} {c₀ : Bool} {s : State} {x : Snap} {a2 : Nat} (h1 : Kept c₀ r₀ s) : Kept c₀ r₀ (sendSnap s x a2) := by
  induction a2 generalizing s x with
  | zero =>
    unfold sendSnap
    repeat' first
      | with_reducible assumption | intro _ | with_reducible apply State.onSnap_kept
      | with_reducible apply answered_kept | with_reducible apply addWait_kept | with_reducible apply openReq_kept
      | with_reducible apply snapStall_kept | with_reducible apply sendRemote_kept | with_reducible apply ite_kept
      | with_reducible apply foldl_kept | with_reducible apply foldl_kept_snd | with_reducible apply foldl_kept_fst
      | (refine Kept.ofSnd (by assumption) ?_) | dsimp only | split
  | succ _ ih =>
    unfold sendSnap
    repeat' first
      | with_reducible assumption | intro _ | with_reducible apply ih | with_reducible apply State.onSnap_kept
      | with_reducible apply answered_kept | with_reducible apply addWait_kept | with_reducible apply openReq_kept
      | with_reducible apply snapStall_kept | with_reducible apply sendRemote_kept | with_reducible apply ite_kept
      | with_reducible apply foldl_kept | with_reducible apply foldl_kept_snd | with_reducible apply foldl_kept_fst
      | (refine Kept.ofSnd (by assumption) ?_) | dsimp only | split

theorem runSnapshot_kept {r₀ : State} {c₀ : Bool} {s0 : State} {h : Hdr} {o : SnapOp} (h1 : Kept c₀ r₀ s0)
    : Kept c₀ r₀ (runSnapshot s0 h o) := by
  unfold runSnapshot
  repeat' first
    | with_reducible assumption | intro _ | with_reducible apply writeMem_kept | with_reducible apply pumpSnap_kept
    | with_reducible apply markStarted_kept | with_reducible apply finish_kept | with_reducible apply snapStream_kept
    | with_reducible apply State.onSnap_kept | with_reducible apply regSet_kept | with_reducible apply waitFor_kept
    | with_reducible apply sendSnap_kept | with_reducible apply ite_kept | with_reducible apply foldl_kept
    | (with_reducible refine foldl_kept_of SnapRun.st ?_ ?_) | (refine Kept.ofSnd (by assumption) ?_) | dsimp only | split

theorem execHandbackStepNumber_kept {r₀ : State} {c₀ : Bool} {step : Nat} {s : State} {t₀}
    (e₀ : execHandbackStepNumber step s = .next t₀) (h2 : Kept c₀ r₀ s) : Kept c₀ r₀ t₀ := by
  unfold execHandbackStepNumber at e₀
  repeat' first | contradiction | (injection e₀ with e₀; subst e₀) | dsimp only at e₀ | (split at e₀)
  repeat' first
    | with_reducible assumption | intro _ | with_reducible apply takeBack_kept | with_reducible apply ite_kept
    | with_reducible apply foldl_kept | (refine Kept.ofSnd (by assumption) ?_) | dsimp only | split

theorem execTnSnapshot_kept {r₀ : State} {c₀ : Bool} {h : Hdr} {op : SnapOp} {s : State} {t₀}
    (e₀ : execTnSnapshot h op s = .next t₀) (h3 : Kept c₀ r₀ s) : Kept c₀ r₀ t₀ := by
  unfold execTnSnapshot at e₀
  repeat' first | contradiction | (injection e₀ with e₀; subst e₀) | dsimp only at e₀ | (split at e₀)
  repeat' first
    | with_reducible assumption | intro _ | with_reducible apply runSnapshot_kept | with_reducible apply complete_kept
    | with_reducible apply sendSnap_kept | with_reducible apply runDesc_kept | with_reducible apply ite_kept
    | with_reducible apply foldl_kept | (refine Kept.ofSnd (by assumption) ?_) | dsimp only | split

theorem execJournalBase_kept {r₀ : State} {c₀ : Bool} {r : JRec} {s : State} {t₀} (e₀ : execJournalBase r s = .next t₀)
    (h2 : Kept c₀ r₀ s) : Kept c₀ r₀ t₀ := by
  unfold execJournalBase at e₀
  repeat' first | contradiction | (injection e₀ with e₀; subst e₀) | dsimp only at e₀ | (split at e₀)
  repeat' first
    | with_reducible assumption | intro _ | with_reducible apply receiveJournal_kept | with_reducible apply ite_kept
    | with_reducible apply foldl_kept | (refine Kept.ofSnd (by assumption) ?_) | dsimp only | split

theorem execJournalData_kept {r₀ : State} {c₀ : Bool} {r : JRec} {s : State} {t₀} (e₀ : execJournalData r s = .next t₀)
    (h2 : Kept c₀ r₀ s) : Kept c₀ r₀ t₀ := by
  unfold execJournalData at e₀
  repeat' first | contradiction | (injection e₀ with e₀; subst e₀) | dsimp only at e₀ | (split at e₀)
  repeat' first
    | with_reducible assumption | intro _ | with_reducible apply receiveJournal_kept | with_reducible apply ite_kept
    | with_reducible apply foldl_kept | (refine Kept.ofSnd (by assumption) ?_) | dsimp only | split

end Sys2Proof.Machine
end

