-- ==== Sys2Proof/Laws/KeptUpkeep.lean ====
section
/-!
SUPPORT. What the definitions of Machine/Upkeep.lean keep (Laws/Kept.lean).
-/

set_option linter.all false

namespace Sys2Proof.Machine

open Sys2Proof

theorem execRefresh_kept {r₀ : State} {c₀ : Bool} {stack bank : Nat} {s : State} {t₀} (e₀ : execRefresh stack bank s = .next t₀)
    (h3 : Kept c₀ r₀ s) : Kept c₀ r₀ t₀ := by
  unfold execRefresh at e₀
  repeat' first | contradiction | (injection e₀ with e₀; subst e₀) | dsimp only at e₀ | (split at e₀)
  repeat' first
    | with_reducible assumption | intro _ | with_reducible apply setActs_kept | with_reducible apply State.took_kept
    | with_reducible apply ite_kept | with_reducible apply foldl_kept | (refine Kept.ofSnd (by assumption) ?_) | dsimp only
    | split

theorem countGate_kept {r₀ : State} {c₀ : Bool} {s : State} (h1 : Kept c₀ r₀ s) : Kept c₀ r₀ (countGate s) := by
  unfold countGate
  repeat' first
    | with_reducible assumption | intro _ | with_reducible apply bumpBy_kept | with_reducible apply State.took_kept
    | with_reducible apply ite_kept | with_reducible apply foldl_kept | (refine Kept.ofSnd (by assumption) ?_) | dsimp only
    | split

theorem execPatchRequest_kept {r₀ : State} {c₀ : Bool} {table row : Nat} {s : State} {t₀}
    (e₀ : execPatchRequest table row s = .next t₀) (h3 : Kept c₀ r₀ s) : Kept c₀ r₀ t₀ := by
  unfold execPatchRequest at e₀
  repeat' first | contradiction | (injection e₀ with e₀; subst e₀) | dsimp only at e₀ | (split at e₀)
  repeat' first
    | with_reducible assumption | intro _ | with_reducible apply State.onTwin_kept | with_reducible apply ite_kept
    | with_reducible apply foldl_kept | (refine Kept.ofSnd (by assumption) ?_) | dsimp only | split

theorem loseEntry_kept {r₀ : State} {c₀ : Bool} {s : State} {k : Nat} {pendPool : Bool} {bank region slots : Nat}
    (h1 : Kept c₀ r₀ s) : Kept c₀ r₀ (loseEntry s k pendPool bank region slots) := by
  unfold loseEntry
  repeat' first
    | with_reducible assumption | intro _ | with_reducible apply State.onMu_kept | with_reducible apply State.took_kept
    | with_reducible apply ite_kept | with_reducible apply foldl_kept | (refine Kept.ofSnd (by assumption) ?_) | dsimp only
    | split

theorem quarantineRow_kept {r₀ : State} {c₀ : Bool} {s : State} {kind k t row : Nat} (h1 : Kept c₀ r₀ s)
    : Kept c₀ r₀ (quarantineRow s kind k t row) := by
  unfold quarantineRow
  repeat' first
    | with_reducible assumption | intro _ | with_reducible apply State.onGz_kept | with_reducible apply closeReq_kept
    | with_reducible apply ite_kept | with_reducible apply foldl_kept | (refine Kept.ofSnd (by assumption) ?_) | dsimp only
    | split

theorem loseWords_kept {r₀ : State} {c₀ : Bool} {s : State} {k bank region lo : Nat} (h1 : Kept c₀ r₀ s)
    : Kept c₀ r₀ (loseWords s k bank region lo) := by
  unfold loseWords
  repeat' first
    | with_reducible assumption | intro _ | with_reducible apply State.onMu_kept | with_reducible apply bumpBy_kept
    | with_reducible apply reportLate_kept | with_reducible apply ite_kept | with_reducible apply foldl_kept
    | (refine Kept.ofSnd (by assumption) ?_) | dsimp only | split

theorem buildShadow_kept {r₀ : State} {c₀ : Bool} {k : Nat} {s : State} {x : Heavy} (h2 : Kept c₀ r₀ s)
    : Kept c₀ r₀ (buildShadow k s x) := by
  unfold buildShadow
  repeat' first
    | with_reducible assumption | intro _ | with_reducible apply panelFaultAt_kept | with_reducible apply State.onMu_kept
    | with_reducible apply cbWrite_kept | with_reducible apply markPoisoned_kept | with_reducible apply checkRead_kept
    | with_reducible apply ite_kept | with_reducible apply ite_kept_snd | with_reducible apply foldl_kept
    | with_reducible apply foldl_kept_snd | (refine Kept.ofSnd (by assumption) ?_) | dsimp only | split

theorem buildShadows_kept {r₀ : State} {c₀ : Bool} {s : State} (h1 : Kept c₀ r₀ s) : Kept c₀ r₀ (buildShadows s) := by
  unfold buildShadows
  repeat' first
    | with_reducible assumption | intro _ | with_reducible apply buildShadow_kept | with_reducible apply ite_kept
    | with_reducible apply foldl_kept | (refine Kept.ofSnd (by assumption) ?_) | dsimp only | split

theorem execStepStart_kept {r₀ : State} {c₀ : Bool} {s : State} {t₀} (e₀ : execStepStart s = .next t₀) (h1 : Kept c₀ r₀ s)
    : Kept c₀ r₀ t₀ := by
  unfold execStepStart at e₀
  repeat' first | contradiction | (injection e₀ with e₀; subst e₀) | dsimp only at e₀ | (split at e₀)
  repeat' first
    | with_reducible assumption | intro _ | with_reducible apply startStep_kept | with_reducible apply countGate_kept
    | with_reducible apply buildShadows_kept | with_reducible apply ite_kept | with_reducible apply foldl_kept
    | (refine Kept.ofSnd (by assumption) ?_) | dsimp only | split

theorem engineWants_kept {r₀ : State} {c₀ : Bool} {s : State} {a1 : List Nat} {a2 : FMap Nat} (h1 : Kept c₀ r₀ s)
    : Kept c₀ r₀ (engineWants s a1 a2).2.2 := by
  induction a1 generalizing s a2 with
  | nil =>
    unfold engineWants
    repeat' first
      | with_reducible assumption | intro _ | with_reducible apply State.took_kept | with_reducible apply ite_kept
      | with_reducible apply ite_kept_snd | with_reducible apply foldl_kept | with_reducible apply foldl_kept_snd
      | (refine Kept.ofSnd (by assumption) ?_) | dsimp only | split
  | cons _ _ ih =>
    unfold engineWants
    repeat' first
      | with_reducible assumption | intro _ | with_reducible apply ih | with_reducible apply State.took_kept
      | with_reducible apply ite_kept | with_reducible apply ite_kept_snd | with_reducible apply foldl_kept
      | with_reducible apply foldl_kept_snd | (refine Kept.ofSnd (by assumption) ?_) | dsimp only | split

theorem freeWants_kept {r₀ : State} {c₀ : Bool} {s : State} {engines a2 : List Nat} {a3 : FMap Nat} (h1 : Kept c₀ r₀ s)
    : Kept c₀ r₀ (freeWants s engines a2 a3).2 := by
  induction a2 generalizing s a3 with
  | nil =>
    unfold freeWants
    repeat' first
      | with_reducible assumption | intro _ | with_reducible apply State.took_kept | with_reducible apply engineWants_kept
      | with_reducible apply ite_kept | with_reducible apply ite_kept_snd | with_reducible apply foldl_kept
      | with_reducible apply foldl_kept_snd | (refine Kept.ofSnd (by assumption) ?_) | dsimp only | split
  | cons _ _ ih =>
    unfold freeWants
    repeat' first
      | with_reducible assumption | intro _ | with_reducible apply ih | with_reducible apply State.took_kept
      | with_reducible apply engineWants_kept | with_reducible apply ite_kept | with_reducible apply ite_kept_snd
      | with_reducible apply foldl_kept | with_reducible apply foldl_kept_snd | (refine Kept.ofSnd (by assumption) ?_) | dsimp only
      | split

theorem openShare_kept {r₀ : State} {c₀ : Bool} {s : State} {k share total : Nat} {claimants : List Nat} {guaranteed : Nat → Nat}
    (h1 : Kept c₀ r₀ s) : Kept c₀ r₀ (openShare s k share total claimants guaranteed) := by
  unfold openShare
  repeat' first
    | with_reducible assumption | intro _ | with_reducible apply State.onMu_kept | with_reducible apply bumpBy_kept
    | with_reducible apply State.took_kept | with_reducible apply freeWants_kept | with_reducible apply ite_kept
    | with_reducible apply ite_kept_snd | with_reducible apply foldl_kept | with_reducible apply foldl_kept_snd
    | (refine Kept.ofSnd (by assumption) ?_) | dsimp only | split

theorem failPatch_kept {r₀ : State} {c₀ : Bool} {s : State} {k t row : Nat} {p : Patch} (h1 : Kept c₀ r₀ s)
    : Kept c₀ r₀ (failPatch s k t row p) := by
  unfold failPatch
  repeat' first
    | with_reducible assumption | intro _ | with_reducible apply State.onMu_kept | with_reducible apply bump_kept
    | with_reducible apply ite_kept | with_reducible apply foldl_kept | (refine Kept.ofSnd (by assumption) ?_) | dsimp only
    | split

theorem execBandwidthWindow_kept {r₀ : State} {c₀ : Bool} {far : Bool} {index : Nat} {s : State} {t₀}
    (e₀ : execBandwidthWindow far index s = .next t₀) (h3 : Kept c₀ r₀ s) : Kept c₀ r₀ t₀ := by
  unfold execBandwidthWindow at e₀
  repeat' first | contradiction | (injection e₀ with e₀; subst e₀) | dsimp only at e₀ | (split at e₀)
  repeat' first
    | with_reducible assumption | intro _ | with_reducible apply openShare_kept | with_reducible apply ite_kept
    | with_reducible apply foldl_kept | (refine Kept.ofSnd (by assumption) ?_) | dsimp only | split

theorem execPatchAnswer_kept {r₀ : State} {c₀ : Bool} {owner table row : Nat} {record : List Byte} {poisoned : Bool} {s : State}
    {t₀} (e₀ : execPatchAnswer owner table row record poisoned s = .next t₀) (h6 : Kept c₀ r₀ s) : Kept c₀ r₀ t₀ := by
  unfold execPatchAnswer at e₀
  repeat' first | contradiction | (injection e₀ with e₀; subst e₀) | dsimp only at e₀ | (split at e₀)
  repeat' first
    | with_reducible assumption | intro _ | with_reducible apply bump_kept | with_reducible apply rewriteRow_kept
    | with_reducible apply failPatch_kept | with_reducible apply closeRow_kept | with_reducible apply wakePatch_kept
    | with_reducible apply ite_kept | with_reducible apply foldl_kept | (refine Kept.ofSnd (by assumption) ?_) | dsimp only
    | split

theorem scrubMove_kept {r₀ : State} {c₀ : Bool} {s : State} {d h pos last : Nat} (h1 : Kept c₀ r₀ s)
    : Kept c₀ r₀ (scrubMove s d h pos last) := by
  unfold scrubMove
  repeat' first
    | with_reducible assumption | intro _ | with_reducible apply State.onMu_kept | with_reducible apply ite_kept
    | with_reducible apply foldl_kept | (refine Kept.ofSnd (by assumption) ?_) | dsimp only | split

theorem loseLedger_kept {r₀ : State} {c₀ : Bool} {s : State} {k : Nat} {q : Range} (h1 : Kept c₀ r₀ s)
    : Kept c₀ r₀ (loseLedger s k q) := by
  unfold loseLedger
  repeat' first
    | with_reducible assumption | intro _ | with_reducible apply loseEntry_kept | with_reducible apply loseWords_kept
    | with_reducible apply ite_kept | with_reducible apply foldl_kept | (refine Kept.ofSnd (by assumption) ?_) | dsimp only
    | split

theorem scrubSector_kept {r₀ : State} {c₀ : Bool} {s : State} {a : Nat} (h1 : Kept c₀ r₀ s) : Kept c₀ r₀ (scrubSector s a) := by
  unfold scrubSector
  repeat' first
    | with_reducible assumption | intro _ | with_reducible apply loseLedger_kept | with_reducible apply readSector_kept
    | with_reducible apply markPoisoned_kept
    | (with_reducible refine State.onMem_kept ?_ (fun _ h => ?_) (fun _ h => ?_) (fun _ h => ?_)) | exact writeCells_wf _ _ _ h
    | with_reducible apply insAll_rising | with_reducible apply ins_rising | with_reducible apply List.Pairwise.filter
    | with_reducible apply keep_wf | with_reducible apply keep_rising | with_reducible apply del_rising
    | with_reducible apply put_rising | with_reducible apply ite_kept | with_reducible apply ite_kept_snd
    | with_reducible apply foldl_kept | with_reducible apply foldl_kept_snd | (refine Kept.ofSnd (by assumption) ?_) | dsimp only
    | split

theorem execScrubRead_kept {r₀ : State} {c₀ : Bool} {die half : Nat} {s : State} {t₀} (e₀ : execScrubRead die half s = .next t₀)
    (h3 : Kept c₀ r₀ s) : Kept c₀ r₀ t₀ := by
  unfold execScrubRead at e₀
  repeat' first | contradiction | (injection e₀ with e₀; subst e₀) | dsimp only at e₀ | (split at e₀)
  repeat' first
    | with_reducible assumption | intro _ | with_reducible apply scrubMove_kept | with_reducible apply scrubSector_kept
    | with_reducible apply ite_kept | with_reducible apply foldl_kept | (refine Kept.ofSnd (by assumption) ?_) | dsimp only
    | split

theorem execShadowEntryValid_kept {r₀ : State} {c₀ : Bool} {owner table row : Nat} {s : State} {t₀}
    (e₀ : execShadowEntryValid owner table row s = .next t₀) (h4 : Kept c₀ r₀ s) : Kept c₀ r₀ t₀ := by
  unfold execShadowEntryValid at e₀
  repeat' first | contradiction | (injection e₀ with e₀; subst e₀) | dsimp only at e₀ | (split at e₀)
  repeat' first
    | with_reducible assumption | intro _ | with_reducible apply State.onMu_kept | with_reducible apply ite_kept
    | with_reducible apply foldl_kept | (refine Kept.ofSnd (by assumption) ?_) | dsimp only | split

theorem execPatchTimeout_kept {r₀ : State} {c₀ : Bool} {owner table row : Nat} {s : State} {t₀}
    (e₀ : execPatchTimeout owner table row s = .next t₀) (h4 : Kept c₀ r₀ s) : Kept c₀ r₀ t₀ := by
  unfold execPatchTimeout at e₀
  repeat' first | contradiction | (injection e₀ with e₀; subst e₀) | dsimp only at e₀ | (split at e₀)
  repeat' first
    | with_reducible assumption | intro _ | with_reducible apply quarantineRow_kept | with_reducible apply failPatch_kept
    | with_reducible apply wakePatch_kept | with_reducible apply ite_kept | with_reducible apply foldl_kept
    | (refine Kept.ofSnd (by assumption) ?_) | dsimp only | split

theorem execShadowInvalidation_kept {r₀ : State} {c₀ : Bool} {die owner table row : Nat} {s : State} {t₀}
    (e₀ : execShadowInvalidation die owner table row s = .next t₀) (h5 : Kept c₀ r₀ s) : Kept c₀ r₀ t₀ := by
  unfold execShadowInvalidation at e₀
  repeat' first | contradiction | (injection e₀ with e₀; subst e₀) | dsimp only at e₀ | (split at e₀)
  repeat' first
    | with_reducible assumption | intro _ | with_reducible apply State.onMu_kept | with_reducible apply finishSeals_kept
    | with_reducible apply ite_kept | with_reducible apply foldl_kept | (refine Kept.ofSnd (by assumption) ?_) | dsimp only
    | split

end Sys2Proof.Machine
end

