-- ==== Sys2Proof/Laws/Exec.lean ====
section
/-!
SUPPORT. What every command keeps, said once over all of them: the queue of waiting commands, the canonical form of the tables, and, unless it
may start a cold reset, the straps and a LOCKED Selvage.
-/

namespace Sys2Proof.Machine

open Sys2Proof

theorem exec_kept {c : Instr} {s t : State} (h : exec c s = .next t) : Kept (coldStarts c) s t := by
  cases c with
  | nop _ => exact execNop_kept h (Kept.refl _ s)
  | fence _ _ _ _ => exact execFence_kept h (Kept.refl _ s)
  | inlineWrite _ _ _ _ => exact execInlineWrite_kept h (Kept.refl _ s)
  | sqRun _ _ => exact execSqRun_kept h (Kept.refl _ s)
  | sqStop _ => exact execSqStop_kept h (Kept.refl _ s)
  | imageLoad _ _ _ => exact execImageLoad_kept h (Kept.refl _ s)
  | commitPoint => exact execCommitPoint_kept h (Kept.refl _ s)
  | quotaSet _ _ _ _ _ _ _ => exact execQuotaSet_kept h (Kept.refl _ s)
  | debugOn _ _ => exact execDebugOn_kept h (Kept.refl _ s)
  | lockSet _ _ => exact execLockSet_kept h (Kept.refl _ s)
  | lockClear _ _ => exact execLockClear_kept h (Kept.refl _ s)
  | almanacWrite _ _ _ _ _ _ => exact execAlmanacWrite_kept h (Kept.refl _ s)
  | fwUpdateStart _ _ _ _ _ => exact execFwUpdateStart_kept h (Kept.refl _ s)
  | bypassForceClose _ _ => exact execBypassForceClose_kept h (Kept.refl _ s)
  | bypassForceRelease _ _ => exact execBypassForceRelease_kept h (Kept.refl _ s)
  | twinTakeover _ _ _ => exact execTwinTakeover_kept h (Kept.refl _ s)
  | keyAgree _ _ _ _ _ _ => exact execKeyAgree_kept h (Kept.refl _ s)
  | keyRetire _ _ => exact execKeyRetire_kept h (Kept.refl _ s)
  | quote _ _ _ _ _ => exact execQuote_kept h (Kept.refl _ s)
  | ownerSet _ _ _ _ => exact execOwnerSet_kept h (Kept.refl _ s)
  | twMatmul _ _ => exact execTwMatmul_kept h (Kept.refl _ s)
  | twDrain _ _ => exact execTwDrain_kept h (Kept.refl _ s)
  | twMax _ _ => exact execTwMax_kept h (Kept.refl _ s)
  | twMin _ _ => exact execTwMin_kept h (Kept.refl _ s)
  | muGather _ _ => exact execMuGather_kept h (Kept.refl _ s)
  | muGradScatter _ _ => exact execMuGradScatter_kept h (Kept.refl _ s)
  | muLedgerAdd _ _ => exact execMuLedgerAdd_kept h (Kept.refl _ s)
  | muSeal _ _ _ => exact execMuSeal_kept h (Kept.refl _ s)
  | sealTakesEffect _ => exact execSealTakesEffect_kept h (Kept.refl _ s)
  | muMigrate _ _ _ _ _ => exact execMuMigrate_kept h (Kept.refl _ s)
  | muRowRestore _ _ _ _ _ _ => exact execMuRowRestore_kept h (Kept.refl _ s)
  | muOptDense _ _ => exact execMuOptDense_kept h (Kept.refl _ s)
  | muOptClose _ _ _ _ _ => exact execMuOptClose_kept h (Kept.refl _ s)
  | bankRelease _ => exact execBankRelease_kept h (Kept.refl _ s)
  | stRearm _ _ => exact execStRearm_kept h (Kept.refl _ s)
  | stRelease _ _ _ _ => exact execStRelease_kept h (Kept.refl _ s)
  | rgPut _ _ => exact execRgPut_kept h (Kept.refl _ s)
  | rgGet _ _ => exact execRgGet_kept h (Kept.refl _ s)
  | tnSnapshot _ _ => exact execTnSnapshot_kept h (Kept.refl _ s)
  | tnHandback _ _ => exact execTnHandback_kept h (Kept.refl _ s)
  | post _ _ _ _ _ _ _ => exact execPost_kept h (Kept.refl _ s)
  | wait _ _ _ => exact execWait_kept h (Kept.refl _ s)
  | fire _ => exact execFire_kept h (Kept.refl _ s)
  | amax _ _ _ _ _ => exact execAmax_kept h (Kept.refl _ s)
  | amaxd _ _ _ => exact execAmaxd_kept h (Kept.refl _ s)
  | anchor _ _ _ _ => exact execAnchor_kept h (Kept.refl _ s)
  | sealPoint _ => exact execSealPoint_kept h (Kept.refl _ s)
  | endProg _ => exact execEndProg_kept h (Kept.refl _ s)
  | stepStart => exact execStepStart_kept h (Kept.refl _ s)
  | sealGate => exact execSealGate_kept h (Kept.refl _ s)
  | closePart => exact execClosePart_kept h (Kept.refl _ s)
  | stepEnd => exact execStepEnd_kept h (Kept.refl _ s)
  | descriptorFetch _ => exact execDescriptorFetch_kept h (Kept.refl _ s)
  | sealReread _ => exact execSealReread_kept h (Kept.refl _ s)
  | dispatch _ _ => exact execDispatch_kept h (Kept.refl _ s)
  | doorbell _ _ => exact execDoorbell_kept h (Kept.refl _ s)
  | resume _ => exact execResume_kept h (Kept.refl _ s)
  | rhead _ => exact execRhead_kept h (Kept.refl _ s)
  | swap _ _ => exact execSwap_kept h (Kept.refl _ s)
  | tcCreditWrite _ _ _ => exact execTcCreditWrite_kept h (Kept.refl _ s)
  | rejoin _ _ => exact execRejoin_kept h (Kept.refl _ s)
  | datumCtlFire => exact execDatumCtlFire_kept h (Kept.refl _ s)
  | resync _ => exact execResync_kept h (Kept.refl _ s)
  | ckPlanWrite _ _ _ => exact execCkPlanWrite_kept h (Kept.refl _ s)
  | counterClear _ _ => exact execCounterClear_kept h (Kept.refl _ s)
  | dirLookup _ _ => exact execDirLookup_kept h (Kept.refl _ s)
  | faultClear _ _ => exact execFaultClear_kept h (Kept.refl _ s)
  | fwConfirm _ _ => exact execFwConfirm_kept h (Kept.refl _ s)
  | panelRst _ => exact execPanelRst_kept h (Kept.refl _ s)
  | perPanelReset _ => exact execPerPanelReset_kept h (Kept.refl _ s)
  | warmReq _ _ => exact execWarmReq_kept h (Kept.refl _ s)
  | mboxGo _ => exact execMboxGo_kept h (Kept.refl _ s)
  | hstreamFill _ => exact execHstreamFill_kept h (Kept.refl _ s)
  | tokenIn _ _ => exact execTokenIn_kept h (Kept.refl _ s)
  | snapHostRel _ => exact execSnapHostRel_kept h (Kept.refl _ s)
  | ctCtlWrite _ => exact execCtCtlWrite_kept h (Kept.refl _ s)
  | inject _ => exact execInject_kept h (Kept.refl _ s)
  | regWrite _ _ _ _ _ => exact execRegWrite_kept h (Kept.refl _ s)
  | hostRead _ _ _ => exact execHostRead_kept h (Kept.refl _ s)
  | hostWrite _ _ _ => exact execHostWrite_kept h (Kept.refl _ s)
  | coreLoad _ _ _ _ => exact execCoreLoad_kept h (Kept.refl _ s)
  | coreStore _ _ _ _ => exact execCoreStore_kept h (Kept.refl _ s)
  | coreFence _ => exact execCoreFence_kept h (Kept.refl _ s)
  | privateWrite _ => exact execPrivateWrite_kept h (Kept.refl _ s)
  | privateRead => exact execPrivateRead_kept h (Kept.refl _ s)
  | entdaa _ => exact execEntdaa_kept h (Kept.refl _ s)
  | setdasa _ _ => exact execSetdasa_kept h (Kept.refl _ s)
  | rstdaa => exact execRstdaa_kept h (Kept.refl _ s)
  | getpid => exact execGetpid_kept h (Kept.refl _ s)
  | getbcr => exact execGetbcr_kept h (Kept.refl _ s)
  | getdcr => exact execGetdcr_kept h (Kept.refl _ s)
  | getstatus => exact execGetstatus_kept h (Kept.refl _ s)
  | enec _ => exact execEnec_kept h (Kept.refl _ s)
  | disec _ => exact execDisec_kept h (Kept.refl _ s)
  | read _ => exact execRead_kept h (Kept.refl _ s)
  | write _ => exact execWrite_kept h (Kept.refl _ s)
  | atomicAdd _ => exact execAtomicAdd_kept h (Kept.refl _ s)
  | readResp _ => exact execReadResp_kept h (Kept.refl _ s)
  | writeAck _ => exact execWriteAck_kept h (Kept.refl _ s)
  | completion _ => exact execCompletion_kept h (Kept.refl _ s)
  | regResp _ => exact execRegResp_kept h (Kept.refl _ s)
  | mcastData _ => exact execMcastData_kept h (Kept.refl _ s)
  | sounding _ => exact execSounding_kept h (Kept.refl _ s)
  | backgroundMove _ => exact execBackgroundMove_kept h (Kept.refl _ s)
  | credit _ _ _ _ => exact execCredit_kept h (Kept.refl _ s)
  | flitCrcError _ _ _ => exact execFlitCrcError_kept h (Kept.refl _ s)
  | laneRepairExhausted _ _ => exact execLaneRepairExhausted_kept h (Kept.refl _ s)
  | moveStart _ _ _ => exact execMoveStart_kept h (Kept.refl _ s)
  | moveDone _ _ _ => exact execMoveDone_kept h (Kept.refl _ s)
  | switchMsg _ _ _ => exact execSwitchMsg_kept h (Kept.refl _ s)
  | migrationMoving _ _ _ => exact execMigrationMoving_kept h (Kept.refl _ s)
  | migrationAbandon _ _ _ => exact execMigrationAbandon_kept h (Kept.refl _ s)
  | forwardingEnd _ _ _ => exact execForwardingEnd_kept h (Kept.refl _ s)
  | shadowEntryValid _ _ _ => exact execShadowEntryValid_kept h (Kept.refl _ s)
  | shadowInvalidation _ _ _ _ => exact execShadowInvalidation_kept h (Kept.refl _ s)
  | patchRequest _ _ => exact execPatchRequest_kept h (Kept.refl _ s)
  | patchAnswer _ _ _ _ _ => exact execPatchAnswer_kept h (Kept.refl _ s)
  | patchTimeout _ _ _ => exact execPatchTimeout_kept h (Kept.refl _ s)
  | yield => exact execYield_kept h (Kept.refl _ s)
  | scrubRead _ _ => exact execScrubRead_kept h (Kept.refl _ s)
  | refresh _ _ => exact execRefresh_kept h (Kept.refl _ s)
  | deadlineExpiry _ _ => exact execDeadlineExpiry_kept h (Kept.refl _ s)
  | stepBudgetExpiry _ => exact execStepBudgetExpiry_kept h (Kept.refl _ s)
  | stallBudgetExpiry _ => exact execStallBudgetExpiry_kept h (Kept.refl _ s)
  | stallArbiterDecision => exact execStallArbiterDecision_kept h (Kept.refl _ s)
  | mcDetach _ => exact execMcDetach_kept h (Kept.refl _ s)
  | datumEdge _ => exact execDatumEdge_kept h (Kept.refl _ s)
  | pllLossOfLock _ => exact execPllLossOfLock_kept h (Kept.refl _ s)
  | sendSent => exact execSendSent_kept h (Kept.refl _ s)
  | sendOpen => exact execSendOpen_kept h (Kept.refl _ s)
  | sent _ _ => exact execSent_kept h (Kept.refl _ s)
  | openTok _ _ => exact execOpenTok_kept h (Kept.refl _ s)
  | topo _ _ _ _ => exact execTopo_kept h (Kept.refl _ s)
  | aliasTok _ _ => exact execAliasTok_kept h (Kept.refl _ s)
  | tokenWaitExpiry => exact execTokenWaitExpiry_kept h (Kept.refl _ s)
  | ident _ _ => exact execIdent_kept h (Kept.refl _ s)
  | flitFrame _ _ => exact execFlitFrame_kept h (Kept.refl _ s)
  | idle _ => exact execIdle_kept h (Kept.refl _ s)
  | uncorrectableCodeword _ => exact execUncorrectableCodeword_kept h (Kept.refl _ s)
  | ringLaneFailure _ _ => exact execRingLaneFailure_kept h (Kept.refl _ s)
  | lossOfSignal _ => exact execLossOfSignal_kept h (Kept.refl _ s)
  | signalDetected _ => exact execSignalDetected_kept h (Kept.refl _ s)
  | trainingFailure _ => exact execTrainingFailure_kept h (Kept.refl _ s)
  | brokenRetry _ => exact execBrokenRetry_kept h (Kept.refl _ s)
  | remoteTimeout _ _ => exact execRemoteTimeout_kept h (Kept.refl _ s)
  | bypassCause _ _ => exact execBypassCause_kept h (Kept.refl _ s)
  | dimensionOpen _ => exact execDimensionOpen_kept h (Kept.refl _ s)
  | journalData _ => exact execJournalData_kept h (Kept.refl _ s)
  | journalBase _ => exact execJournalBase_kept h (Kept.refl _ s)
  | journalEnd _ => exact execJournalEnd_kept h (Kept.refl _ s)
  | journalBaseEnd _ => exact execJournalBaseEnd_kept h (Kept.refl _ s)
  | farCplTimeout _ _ => exact execFarCplTimeout_kept h (Kept.refl _ s)
  | farLinkLoss _ => exact execFarLinkLoss_kept h (Kept.refl _ s)
  | farRetrain _ _ _ _ => exact execFarRetrain_kept h (Kept.refl _ s)
  | hostLinkReset => exact execHostLinkReset_kept h (Kept.refl _ s)
  | hlPerstN _ => exact execHlPerstN_kept h (Kept.refl _ s)
  | panelFault _ => exact execPanelFault_kept h (Kept.refl _ s)
  | unitError _ => exact execUnitError_kept h (Kept.refl _ s)
  | leaseExpiry _ _ => exact execLeaseExpiry_kept h (Kept.refl _ s)
  | released _ => exact execReleased_kept h (Kept.refl _ s)
  | reclaimTimeout => exact execReclaimTimeout_kept h (Kept.refl _ s)
  | free _ => exact execFree_kept h (Kept.refl _ s)
  | mgmtParityFailure _ => exact execMgmtParityFailure_kept h (Kept.refl _ s)
  | quietPeriodExpiry => exact execQuietPeriodExpiry_kept h (Kept.refl _ s)
  | svclkCheckFailure => exact execSvclkCheckFailure_kept h (Kept.refl _ s)
  | powerReport _ => exact execPowerReport_kept h (Kept.refl _ s)
  | contourInterval => exact execContourInterval_kept h (Kept.refl _ s)
  | contourWindow => exact execContourWindow_kept h (Kept.refl _ s)
  | contourSounding => exact execContourSounding_kept h (Kept.refl _ s)
  | emergency => exact execEmergency_kept h (Kept.refl _ s)
  | emergencyLift => exact execEmergencyLift_kept h (Kept.refl _ s)
  | powerShutdown => exact execPowerShutdown_kept h (Kept.refl _ s)
  | thermalReport _ _ => exact execThermalReport_kept h (Kept.refl _ s)
  | throttleStep _ => exact execThrottleStep_kept h (Kept.refl _ s)
  | thermalShutdown => exact execThermalShutdown_kept h (Kept.refl _ s)
  | holdupMeasure _ _ => exact execHoldupMeasure_kept h (Kept.refl _ s)
  | holdupTest _ => exact execHoldupTest_kept h (Kept.refl _ s)
  | coldReset _ _ => exact execColdReset_kept h (Kept.refl _ s)
  | vin12InRange _ => exact execVin12InRange_kept h (Kept.refl _ s)
  | vauxLoss => exact execVauxLoss_kept h (Kept.refl _ s)
  | warmReset _ _ => exact execWarmReset_kept h (Kept.refl _ s)
  | trialExpiry _ _ => exact execTrialExpiry_kept h (Kept.refl _ s)
  | laneRepair _ _ => exact execLaneRepair_kept h (Kept.refl _ s)
  | cxlMemCompletion _ _ => exact execCxlMemCompletion_kept h (Kept.refl _ s)
  | bandwidthWindow _ _ => exact execBandwidthWindow_kept h (Kept.refl _ s)
  | refclkAPresent _ => exact execRefclkAPresent_kept h (Kept.refl _ s)
  | holdOffExpiry _ _ => exact execHoldOffExpiry_kept h (Kept.refl _ s)
  | holdupWaitExpiry _ => exact execHoldupWaitExpiry_kept h (Kept.refl _ s)
  | thermalDutyRise _ => exact execThermalDutyRise_kept h (Kept.refl _ s)
  | handbackStepNumber _ => exact execHandbackStepNumber_kept h (Kept.refl _ s)
  | inBandInterruptAccepted _ => exact execInBandInterruptAccepted_kept h (Kept.refl _ s)
theorem exec_next (c : Instr) (s : State) : ∃ t, exec c s = .next t := by cases c <;> exact ⟨_, rfl⟩

end Sys2Proof.Machine
end

