-- ==== Sys2Proof/Laws/Same.lean ====
section
/-!
SUPPORT. Same g r s, in a form that chains: state s, reached from r, agrees with it outside the groups g. The files Laws/Same*.lean say
of every operation which groups it may change.
-/

set_option linter.all false

namespace Sys2Proof.Machine

open Sys2Proof

variable {g : Groups} {r s : State}

theorem Same.refl (g : Groups) (r : State) : Same g r r where
  pending := rfl
  free := fun _ => rfl
  pkg := fun _ => rfl
  mem := fun _ => rfl
  regs := fun _ => rfl
  gz := fun _ => rfl
  ck := fun _ => rfl
  tw := fun _ => rfl
  mu := fun _ => rfl
  streams := fun _ => rfl
  qm := fun _ => rfl
  seq := fun _ => rfl
  img := fun _ => rfl
  rings := fun _ => rfl
  twin := fun _ => rfl
  snap := fun _ => rfl
  sv := fun _ => rfl
  sec := fun _ => rfl
  ct := fun _ => rfl
  host := fun _ => rfl
  i3c := fun _ => rfl
  sounds := fun _ => rfl
  seqNo := fun _ => rfl
  cores := fun _ => rfl

/-- Two stretches that agree outside the same groups. -/
theorem Same.trans {t : State} (a : Same g r s) (b : Same g s t) : Same g r t where
  pending := b.pending.trans a.pending
  free := fun h => (b.free h).trans (a.free h)
  pkg := fun h => (b.pkg h).trans (a.pkg h)
  mem := fun h => (b.mem h).trans (a.mem h)
  regs := fun h => (b.regs h).trans (a.regs h)
  gz := fun h => (b.gz h).trans (a.gz h)
  ck := fun h => (b.ck h).trans (a.ck h)
  tw := fun h => (b.tw h).trans (a.tw h)
  mu := fun h => (b.mu h).trans (a.mu h)
  streams := fun h => (b.streams h).trans (a.streams h)
  qm := fun h => (b.qm h).trans (a.qm h)
  seq := fun h => (b.seq h).trans (a.seq h)
  img := fun h => (b.img h).trans (a.img h)
  rings := fun h => (b.rings h).trans (a.rings h)
  twin := fun h => (b.twin h).trans (a.twin h)
  snap := fun h => (b.snap h).trans (a.snap h)
  sv := fun h => (b.sv h).trans (a.sv h)
  sec := fun h => (b.sec h).trans (a.sec h)
  ct := fun h => (b.ct h).trans (a.ct h)
  host := fun h => (b.host h).trans (a.host h)
  i3c := fun h => (b.i3c h).trans (a.i3c h)
  sounds := fun h => (b.sounds h).trans (a.sounds h)
  seqNo := fun h => (b.seqNo h).trans (a.seqNo h)
  cores := fun h => (b.cores h).trans (a.cores h)

theorem State.onFree_same {f} (k : Same g r s) (h : g.free = true) : Same g r (s.onFree f) :=
  { k with free := fun e => absurd h (by simp [e]) }

theorem State.onPkg_same {f} (k : Same g r s) (h : g.pkg = true) : Same g r (s.onPkg f) :=
  { k with pkg := fun e => absurd h (by simp [e]) }

theorem State.onMem_same {f} (k : Same g r s) (h : g.mem = true) : Same g r (s.onMem f) :=
  { k with mem := fun e => absurd h (by simp [e]) }

theorem State.onRegs_same {f} (k : Same g r s) (h : g.regs = true) : Same g r (s.onRegs f) :=
  { k with regs := fun e => absurd h (by simp [e]) }

theorem State.onGz_same {f} (k : Same g r s) (h : g.gz = true) : Same g r (s.onGz f) :=
  { k with gz := fun e => absurd h (by simp [e]) }

theorem State.onCk_same {f} (k : Same g r s) (h : g.ck = true) : Same g r (s.onCk f) :=
  { k with ck := fun e => absurd h (by simp [e]) }

theorem State.onTw_same {f} (k : Same g r s) (h : g.tw = true) : Same g r (s.onTw f) :=
  { k with tw := fun e => absurd h (by simp [e]) }

theorem State.onMu_same {f} (k : Same g r s) (h : g.mu = true) : Same g r (s.onMu f) :=
  { k with mu := fun e => absurd h (by simp [e]) }

theorem State.onStreams_same {f} (k : Same g r s) (h : g.streams = true) : Same g r (s.onStreams f) :=
  { k with streams := fun e => absurd h (by simp [e]) }

theorem State.onQm_same {f} (k : Same g r s) (h : g.qm = true) : Same g r (s.onQm f) :=
  { k with qm := fun e => absurd h (by simp [e]) }

theorem State.onSeq_same {f} (k : Same g r s) (h : g.seq = true) : Same g r (s.onSeq f) :=
  { k with seq := fun e => absurd h (by simp [e]) }

theorem State.onImg_same {f} (k : Same g r s) (h : g.img = true) : Same g r (s.onImg f) :=
  { k with img := fun e => absurd h (by simp [e]) }

theorem State.onRings_same {f} (k : Same g r s) (h : g.rings = true) : Same g r (s.onRings f) :=
  { k with rings := fun e => absurd h (by simp [e]) }

theorem State.onTwin_same {f} (k : Same g r s) (h : g.twin = true) : Same g r (s.onTwin f) :=
  { k with twin := fun e => absurd h (by simp [e]) }

theorem State.onSnap_same {f} (k : Same g r s) (h : g.snap = true) : Same g r (s.onSnap f) :=
  { k with snap := fun e => absurd h (by simp [e]) }

theorem State.onSv_same {f} (k : Same g r s) (h : g.sv = true) : Same g r (s.onSv f) :=
  { k with sv := fun e => absurd h (by simp [e]) }

theorem State.onSec_same {f} (k : Same g r s) (h : g.sec = true) : Same g r (s.onSec f) :=
  { k with sec := fun e => absurd h (by simp [e]) }

theorem State.onCt_same {f} (k : Same g r s) (h : g.ct = true) : Same g r (s.onCt f) :=
  { k with ct := fun e => absurd h (by simp [e]) }

theorem State.onHost_same {f} (k : Same g r s) (h : g.host = true) : Same g r (s.onHost f) :=
  { k with host := fun e => absurd h (by simp [e]) }

theorem State.onI3c_same {f} (k : Same g r s) (h : g.i3c = true) : Same g r (s.onI3c f) :=
  { k with i3c := fun e => absurd h (by simp [e]) }

theorem State.onSounds_same {f} (k : Same g r s) (h : g.sounds = true) : Same g r (s.onSounds f) :=
  { k with sounds := fun e => absurd h (by simp [e]) }

theorem State.onSeqNo_same {f} (k : Same g r s) (h : g.seqNo = true) : Same g r (s.onSeqNo f) :=
  { k with seqNo := fun e => absurd h (by simp [e]) }

theorem State.onCores_same {f} (k : Same g r s) (h : g.cores = true) : Same g r (s.onCores f) :=
  { k with cores := fun e => absurd h (by simp [e]) }

/-- What agrees outside few groups agrees outside more. -/
theorem Same.widen {b : Groups} (k : Same g r s) (le : ([
      (b.free, g.free), (b.pkg, g.pkg), (b.mem, g.mem), (b.regs, g.regs), (b.gz, g.gz), (b.ck, g.ck), (b.tw, g.tw), (b.mu, g.mu),
      (b.streams, g.streams), (b.qm, g.qm), (b.seq, g.seq), (b.img, g.img), (b.rings, g.rings), (b.twin, g.twin), (b.snap, g.snap),
      (b.sv, g.sv), (b.sec, g.sec), (b.ct, g.ct), (b.host, g.host), (b.i3c, g.i3c), (b.sounds, g.sounds), (b.seqNo, g.seqNo),
      (b.cores, g.cores)] : List (Bool × Bool)).all (fun x => x.1 || !x.2) = true) :
    Same b r s := by
  have c : ∀ x y : Bool, (x || !y) = true → x = false → y = false := by decide
  simp only [List.all_cons, List.all_nil, Bool.and_true, Bool.and_eq_true] at le
  obtain ⟨h0, h1, h2, h3, h4, h5, h6, h7, h8, h9, h10, h11, h12, h13, h14, h15, h16, h17, h18, h19, h20, h21, h22⟩ := le
  exact ⟨k.pending, fun e => k.free (c _ _ h0 e), fun e => k.pkg (c _ _ h1 e), fun e => k.mem (c _ _ h2 e), fun e => k.regs (c _ _ h3 e), fun e => k.gz (c _ _ h4 e), fun e => k.ck (c _ _ h5 e), fun e => k.tw (c _ _ h6 e), fun e => k.mu (c _ _ h7 e), fun e => k.streams (c _ _ h8 e), fun e => k.qm (c _ _ h9 e), fun e => k.seq (c _ _ h10 e), fun e => k.img (c _ _ h11 e), fun e => k.rings (c _ _ h12 e), fun e => k.twin (c _ _ h13 e), fun e => k.snap (c _ _ h14 e), fun e => k.sv (c _ _ h15 e), fun e => k.sec (c _ _ h16 e), fun e => k.ct (c _ _ h17 e), fun e => k.host (c _ _ h18 e), fun e => k.i3c (c _ _ h19 e), fun e => k.sounds (c _ _ h20 e), fun e => k.seqNo (c _ _ h21 e), fun e => k.cores (c _ _ h22 e)⟩

theorem Same.ofSnd {α : Type} {p : α × State} {a : α} (e : p = (a, s)) (k : Same g r p.2) : Same g r s := by subst e; exact k
theorem Same.ofFst {α : Type} {p : State × α} {a : α} (e : p = (s, a)) (k : Same g r p.1) : Same g r s := by subst e; exact k

/-- Either branch agrees. -/
theorem ite_same {p : Prop} [Decidable p] {t : State} (h : Same g r s) (e : Same g r t) : Same g r (if p then s else t) := by
  split
  · exact h
  · exact e

theorem ite_same_snd {α : Type} {p : Prop} [Decidable p] {x y : α × State} (h : Same g r x.2) (e : Same g r y.2) :
    Same g r (if p then x else y).2 := by
  split
  · exact h
  · exact e

/-- What an option holds, or something else. -/
theorem getD_same {α : Type} {o : Option (α × State)} {d : α × State} (h : ∀ x, o = some x → Same g r x.2) (k : Same g r d.2) : Same g r (o.getD d).2 := by
  cases o with
  | none => exact k
  | some x => exact h x rfl

/-- A fold whose every round agrees. -/
theorem foldl_same {α : Type} {f : State → α → State} {l : List α} (k : Same g r s)
    (hf : ∀ s x, Same g r s → Same g r (f s x)) : Same g r (l.foldl f s) := by
  induction l generalizing s with
  | nil => exact k
  | cons x l ih => exact ih (hf _ _ k)

/-- A fold that carries a state. -/
theorem foldl_same_of {α β : Type} (p : β → State) {f : β → α → β} {l : List α} {b : β} (k : Same g r (p b))
    (hf : ∀ b x, Same g r (p b) → Same g r (p (f b x))) : Same g r (p (l.foldl f b)) := by
  induction l generalizing b with
  | nil => exact k
  | cons x l ih => exact ih (hf _ _ k)

/-- A fold that may stop agrees where it ends. -/
theorem foldl_bind_same {α : Type} {f : State → α → Option State} {l : List α} {t : State}
    (e : l.foldl (fun o x => o.bind fun s => f s x) (some s) = some t) (k : Same g r s)
    (hf : ∀ s x t, f s x = some t → Same g r s → Same g r t) : Same g r t := by
  induction l generalizing s with
  | nil => cases e; exact k
  | cons x l ih =>
    simp only [List.foldl_cons, Option.bind_some] at e
    cases h : f s x with
    | none =>
      rw [h] at e
      have : ∀ l : List α, l.foldl (fun o x => o.bind fun s => f s x) none = none := by
        intro l; induction l with
        | nil => rfl
        | cons y l ih => exact ih
      rw [this] at e; cases e
    | some u => rw [h] at e; exact ih e (hf _ _ _ h k)

/-- A fold over pairs whose every round agrees the second, or the first. -/
theorem foldl_same_snd {α β : Type} {f : β × State → α → β × State} {l : List α} {b : β} (k : Same g r s)
    (hf : ∀ p x, Same g r p.2 → Same g r (f p x).2) : Same g r (l.foldl f (b, s)).2 :=
  foldl_same_of Prod.snd k hf

theorem foldl_same_fst {α β : Type} {f : State × β → α → State × β} {l : List α} {b : β} (k : Same g r s)
    (hf : ∀ p x, Same g r p.1 → Same g r (f p x).1) : Same g r (l.foldl f (s, b)).1 :=
  foldl_same_of Prod.fst k hf

end Sys2Proof.Machine
end

