-- ==== Sys2Proof/Laws/SameOps.lean ====
section
/-!
SUPPORT. What the definitions of Machine/Ops.lean may change (Laws/Same.lean).
-/

set_option linter.all false

namespace Sys2Proof.Machine

open Sys2Proof

theorem clearPoison_same {r₀ : State} {g₀ : Groups} {s : State} {a n : Nat} (h1 : Same g₀ r₀ s) (m_mem : g₀.mem = true)
    : Same g₀ r₀ (clearPoison s a n) := by
  unfold clearPoison
  repeat' first
    | with_reducible assumption | intro _ | with_reducible apply State.onMem_same | with_reducible apply ite_same
    | with_reducible apply foldl_same | (refine Same.ofSnd (by assumption) ?_) | dsimp only | split

theorem returnCredits_same {r₀ : State} {g₀ : Groups} {s : State} {d p tc n : Nat} (h1 : Same g₀ r₀ s) (m_gz : g₀.gz = true)
    : Same g₀ r₀ (returnCredits s d p tc n) := by
  unfold returnCredits
  repeat' first
    | with_reducible assumption | intro _ | with_reducible apply State.onGz_same | with_reducible apply ite_same
    | with_reducible apply foldl_same | (refine Same.ofSnd (by assumption) ?_) | dsimp only | split

theorem passLink_same {r₀ : State} {g₀ : Groups} {s : State} {d p : Nat} {f : Flit} (h1 : Same g₀ r₀ s) (m_gz : g₀.gz = true)
    : Same g₀ r₀ (passLink s d p f) := by
  unfold passLink
  repeat' first
    | with_reducible assumption | intro _ | with_reducible apply returnCredits_same | with_reducible apply State.onGz_same
    | with_reducible apply ite_same | with_reducible apply foldl_same | (refine Same.ofSnd (by assumption) ?_) | dsimp only
    | split

theorem spendCredit_same {r₀ : State} {g₀ : Groups} {s : State} {d p tc : Nat} (h1 : Same g₀ r₀ s) (m_gz : g₀.gz = true)
    : Same g₀ r₀ (spendCredit s d p tc) := by
  unfold spendCredit
  repeat' first
    | with_reducible assumption | intro _ | with_reducible apply State.onGz_same | with_reducible apply ite_same
    | with_reducible apply foldl_same | (refine Same.ofSnd (by assumption) ?_) | dsimp only | split

theorem crossLink_same {r₀ : State} {g₀ : Groups} {s : State} {d p : Nat} {f : Flit} (h1 : Same g₀ r₀ s) (m_gz : g₀.gz = true)
    : Same g₀ r₀ (crossLink s d p f) := by
  unfold crossLink
  repeat' first
    | with_reducible assumption | intro _ | with_reducible apply passLink_same | with_reducible apply spendCredit_same
    | with_reducible apply ite_same | with_reducible apply foldl_same | (refine Same.ofSnd (by assumption) ?_) | dsimp only
    | split

theorem replicate_same {r₀ : State} {g₀ : Groups} {f : Flit} {a1 a2 : Nat} {a3 : State} (h4 : Same g₀ r₀ a3) (m_gz : g₀.gz = true)
    : Same g₀ r₀ (replicate f a1 a2 a3).2.1 := by
  induction a1 generalizing a2 a3 with
  | zero =>
    unfold replicate
    repeat' first
      | with_reducible assumption | intro _ | (with_reducible refine foldl_same_of (fun x : List Nat × State × Bool => x.2.1) ?_ ?_)
      | with_reducible apply crossLink_same | with_reducible apply ite_same | with_reducible apply ite_same_snd
      | with_reducible apply foldl_same | with_reducible apply foldl_same_snd | with_reducible apply foldl_same_fst
      | (refine Same.ofSnd (by assumption) ?_) | dsimp only | split
  | succ _ ih =>
    unfold replicate
    repeat' first
      | with_reducible assumption | intro _ | with_reducible apply ih
      | (with_reducible refine foldl_same_of (fun x : List Nat × State × Bool => x.2.1) ?_ ?_) | with_reducible apply crossLink_same
      | with_reducible apply ite_same | with_reducible apply ite_same_snd | with_reducible apply foldl_same
      | with_reducible apply foldl_same_snd | with_reducible apply foldl_same_fst | (refine Same.ofSnd (by assumption) ?_)
      | dsimp only | split

theorem issue_same {r₀ : State} {g₀ : Groups} {s : State} {h : Hdr} {u : UnitId} {st elapsed : Nat} (h1 : Same g₀ r₀ s)
    (m_qm : g₀.qm = true) : Same g₀ r₀ (issue s h u st elapsed) := by
  unfold issue
  repeat' first
    | with_reducible assumption | intro _ | with_reducible apply State.onQm_same | with_reducible apply ite_same
    | with_reducible apply foldl_same | (refine Same.ofSnd (by assumption) ?_) | dsimp only | split

theorem discardHeld_same {r₀ : State} {g₀ : Groups} {s : State} {d p : Nat} (h1 : Same g₀ r₀ s) (m_gz : g₀.gz = true)
    : Same g₀ r₀ (discardHeld s d p) := by
  unfold discardHeld
  repeat' first
    | with_reducible assumption | intro _ | with_reducible apply State.onGz_same | with_reducible apply ite_same
    | with_reducible apply foldl_same | (refine Same.ofSnd (by assumption) ?_) | dsimp only | split

theorem countBg_same {r₀ : State} {g₀ : Groups} {s : State} {d p : Nat} {f : Flit} (h1 : Same g₀ r₀ s) (m_gz : g₀.gz = true)
    : Same g₀ r₀ (countBg s d p f) := by
  unfold countBg
  repeat' first
    | with_reducible assumption | intro _ | with_reducible apply State.onGz_same | with_reducible apply ite_same
    | with_reducible apply foldl_same | (refine Same.ofSnd (by assumption) ?_) | dsimp only | split

theorem takeFlit_same {r₀ : State} {g₀ : Groups} {s : State} {f : Flit} (h1 : Same g₀ r₀ s) (m_gz : g₀.gz = true)
    : Same g₀ r₀ (takeFlit s f) := by
  unfold takeFlit
  repeat' first
    | with_reducible assumption | intro _ | with_reducible apply State.onGz_same | with_reducible apply ite_same
    | with_reducible apply foldl_same | (refine Same.ofSnd (by assumption) ?_) | dsimp only | split

theorem emitSounding_same {r₀ : State} {g₀ : Groups} {s : State} {die unit kind : Nat} {body : List Nat} (h1 : Same g₀ r₀ s)
    (m_sounds : g₀.sounds = true) (m_seqNo : g₀.seqNo = true) : Same g₀ r₀ (emitSounding s die unit kind body) := by
  unfold emitSounding
  repeat' first
    | with_reducible assumption | intro _ | with_reducible apply State.onSounds_same | with_reducible apply State.onSeqNo_same
    | with_reducible apply ite_same | with_reducible apply foldl_same | (refine Same.ofSnd (by assumption) ?_) | dsimp only
    | split

theorem regSet_same {r₀ : State} {g₀ : Groups} {s : State} {die off v sel : Nat} (h1 : Same g₀ r₀ s) (m_regs : g₀.regs = true)
    : Same g₀ r₀ (regSet s die off v sel) := by
  unfold regSet
  repeat' first
    | with_reducible assumption | intro _ | with_reducible apply State.onRegs_same | with_reducible apply ite_same
    | with_reducible apply foldl_same | (refine Same.ofSnd (by assumption) ?_) | dsimp only | split

theorem bumpBy_same {r₀ : State} {g₀ : Groups} {s : State} {die off n sel : Nat} (h1 : Same g₀ r₀ s) (m_regs : g₀.regs = true)
    (m_sounds : g₀.sounds = true) (m_seqNo : g₀.seqNo = true) : Same g₀ r₀ (bumpBy s die off n sel) := by
  unfold bumpBy
  repeat' first
    | with_reducible assumption | intro _ | with_reducible apply emitSounding_same | with_reducible apply regSet_same
    | with_reducible apply ite_same | with_reducible apply foldl_same | (refine Same.ofSnd (by assumption) ?_) | dsimp only
    | split

theorem bump_same {r₀ : State} {g₀ : Groups} {s : State} {die off sel : Nat} (h1 : Same g₀ r₀ s) (m_regs : g₀.regs = true)
    (m_sounds : g₀.sounds = true) (m_seqNo : g₀.seqNo = true) : Same g₀ r₀ (bump s die off sel) := by
  unfold bump
  repeat' first
    | with_reducible assumption | intro _ | with_reducible apply bumpBy_same | with_reducible apply ite_same
    | with_reducible apply foldl_same | (refine Same.ofSnd (by assumption) ?_) | dsimp only | split

theorem sendFlit_same {r₀ : State} {g₀ : Groups} {s : State} {f : Flit} (h1 : Same g₀ r₀ s) (m_gz : g₀.gz = true)
    : Same g₀ r₀ (sendFlit s f) := by
  unfold sendFlit
  repeat' first
    | with_reducible assumption | intro _ | with_reducible apply State.onGz_same | with_reducible apply ite_same
    | with_reducible apply foldl_same | (refine Same.ofSnd (by assumption) ?_) | dsimp only | split

theorem refuse_same {r₀ : State} {g₀ : Groups} {s : State} {f : Flit} {st : Nat} (h1 : Same g₀ r₀ s) (m_gz : g₀.gz = true)
    : Same g₀ r₀ (refuse s f st) := by
  unfold refuse
  repeat' first
    | with_reducible assumption | intro _ | with_reducible apply sendFlit_same | with_reducible apply ite_same
    | with_reducible apply foldl_same | (refine Same.ofSnd (by assumption) ?_) | dsimp only | split

theorem badFlit_same {r₀ : State} {g₀ : Groups} {s : State} {f : Flit} (h1 : Same g₀ r₀ s) (m_regs : g₀.regs = true)
    (m_gz : g₀.gz = true) (m_sounds : g₀.sounds = true) (m_seqNo : g₀.seqNo = true) : Same g₀ r₀ (badFlit s f) := by
  unfold badFlit
  repeat' first
    | with_reducible assumption | intro _ | with_reducible apply bump_same | with_reducible apply refuse_same
    | with_reducible apply ite_same | with_reducible apply foldl_same | (refine Same.ofSnd (by assumption) ?_) | dsimp only
    | split

theorem delivered_same {r₀ : State} {g₀ : Groups} {s : State} {f : Flit} (h1 : Same g₀ r₀ s) (m_regs : g₀.regs = true)
    (m_gz : g₀.gz = true) (m_sounds : g₀.sounds = true) (m_seqNo : g₀.seqNo = true) : Same g₀ r₀ (delivered s f).2 := by
  unfold delivered
  repeat' first
    | with_reducible assumption | intro _ | with_reducible apply badFlit_same | with_reducible apply ite_same
    | with_reducible apply ite_same_snd | with_reducible apply foldl_same | with_reducible apply foldl_same_snd
    | (refine Same.ofSnd (by assumption) ?_) | dsimp only | split

theorem keepFlit_same {r₀ : State} {g₀ : Groups} {s : State} {f : Flit} (h1 : Same g₀ r₀ s) (m_gz : g₀.gz = true)
    : Same g₀ r₀ (keepFlit s f) := by
  unfold keepFlit
  repeat' first
    | with_reducible assumption | intro _ | with_reducible apply sendFlit_same | with_reducible apply ite_same
    | with_reducible apply foldl_same | (refine Same.ofSnd (by assumption) ?_) | dsimp only | split

theorem arriveMulti_same {r₀ : State} {g₀ : Groups} {s : State} {f : Flit} (h1 : Same g₀ r₀ s) (m_regs : g₀.regs = true)
    (m_gz : g₀.gz = true) (m_sounds : g₀.sounds = true) (m_seqNo : g₀.seqNo = true) : Same g₀ r₀ (arriveMulti s f).2 := by
  unfold arriveMulti
  repeat' first
    | with_reducible assumption | intro _ | with_reducible apply countBg_same | with_reducible apply takeFlit_same
    | with_reducible apply delivered_same | with_reducible apply keepFlit_same | with_reducible apply replicate_same
    | with_reducible apply ite_same | with_reducible apply ite_same_snd | with_reducible apply foldl_same
    | with_reducible apply foldl_same_snd | with_reducible apply foldl_same_fst | (refine Same.ofSnd (by assumption) ?_)
    | dsimp only | split

theorem setActs_same {r₀ : State} {g₀ : Groups} {s : State} {b n : Nat} (h1 : Same g₀ r₀ s) (m_mu : g₀.mu = true)
    : Same g₀ r₀ (setActs s b n) := by
  unfold setActs
  repeat' first
    | with_reducible assumption | intro _ | with_reducible apply State.onMu_same | with_reducible apply ite_same
    | with_reducible apply foldl_same | (refine Same.ofSnd (by assumption) ?_) | dsimp only | split

theorem touch_same {r₀ : State} {g₀ : Groups} {s : State} {a : Nat} (h1 : Same g₀ r₀ s) (m_regs : g₀.regs = true)
    (m_mu : g₀.mu = true) (m_sounds : g₀.sounds = true) (m_seqNo : g₀.seqNo = true) : Same g₀ r₀ (touch s a) := by
  unfold touch
  repeat' first
    | with_reducible assumption | intro _ | with_reducible apply State.onMu_same | with_reducible apply setActs_same
    | with_reducible apply bump_same | with_reducible apply ite_same | with_reducible apply foldl_same
    | (refine Same.ofSnd (by assumption) ?_) | dsimp only | split

theorem raiseIbi_same {r₀ : State} {g₀ : Groups} {s : State} {b : Nat} (h1 : Same g₀ r₀ s) (m_i3c : g₀.i3c = true)
    : Same g₀ r₀ (raiseIbi s b) := by
  unfold raiseIbi
  repeat' first
    | with_reducible assumption | intro _ | with_reducible apply State.onI3c_same | with_reducible apply ite_same
    | with_reducible apply foldl_same | (refine Same.ofSnd (by assumption) ?_) | dsimp only | split

theorem setSticky_same {r₀ : State} {g₀ : Groups} {s : State} {src : Nat} (h1 : Same g₀ r₀ s) (m_sv : g₀.sv = true)
    (m_i3c : g₀.i3c = true) : Same g₀ r₀ (setSticky s src) := by
  unfold setSticky
  repeat' first
    | with_reducible assumption | intro _ | with_reducible apply raiseIbi_same | with_reducible apply State.onSv_same
    | with_reducible apply ite_same | with_reducible apply foldl_same | (refine Same.ofSnd (by assumption) ?_) | dsimp only
    | split

theorem readSector_same {r₀ : State} {g₀ : Groups} {s : State} {i : Nat} (h1 : Same g₀ r₀ s) (m_mem : g₀.mem = true)
    (m_regs : g₀.regs = true) (m_mu : g₀.mu = true) (m_sv : g₀.sv = true) (m_i3c : g₀.i3c = true) (m_sounds : g₀.sounds = true)
    (m_seqNo : g₀.seqNo = true) : Same g₀ r₀ (readSector s i).2 := by
  unfold readSector
  repeat' first
    | with_reducible assumption | intro _ | with_reducible apply bump_same | with_reducible apply State.onMem_same
    | with_reducible apply touch_same | with_reducible apply setSticky_same | with_reducible apply ite_same
    | with_reducible apply ite_same_snd | with_reducible apply foldl_same | with_reducible apply foldl_same_snd
    | (refine Same.ofSnd (by assumption) ?_) | dsimp only | split

theorem readSectors_same {r₀ : State} {g₀ : Groups} {s : State} {a1 : List Nat} (h1 : Same g₀ r₀ s) (m_mem : g₀.mem = true)
    (m_regs : g₀.regs = true) (m_mu : g₀.mu = true) (m_sv : g₀.sv = true) (m_i3c : g₀.i3c = true) (m_sounds : g₀.sounds = true)
    (m_seqNo : g₀.seqNo = true) : Same g₀ r₀ (readSectors s a1).2 := by
  induction a1 generalizing s with
  | nil =>
    unfold readSectors
    repeat' first
      | with_reducible assumption | intro _ | with_reducible apply readSector_same | with_reducible apply ite_same
      | with_reducible apply ite_same_snd | with_reducible apply foldl_same | with_reducible apply foldl_same_snd
      | (refine Same.ofSnd (by assumption) ?_) | dsimp only | split
  | cons _ _ ih =>
    unfold readSectors
    repeat' first
      | with_reducible assumption | intro _ | with_reducible apply ih | with_reducible apply readSector_same
      | with_reducible apply ite_same | with_reducible apply ite_same_snd | with_reducible apply foldl_same
      | with_reducible apply foldl_same_snd | (refine Same.ofSnd (by assumption) ?_) | dsimp only | split

theorem completeIdle_same {r₀ : State} {g₀ : Groups} {s : State} {h : Hdr} {u : UnitId} {st : Nat} (h1 : Same g₀ r₀ s)
    (m_qm : g₀.qm = true) : Same g₀ r₀ (completeIdle s h u st) := by
  unfold completeIdle
  repeat' first
    | with_reducible assumption | intro _ | with_reducible apply issue_same | with_reducible apply ite_same
    | with_reducible apply foldl_same | (refine Same.ofSnd (by assumption) ?_) | dsimp only | split

theorem markStarted_same {r₀ : State} {g₀ : Groups} {s : State} {h : Hdr} (h1 : Same g₀ r₀ s) (m_qm : g₀.qm = true)
    : Same g₀ r₀ (markStarted s h) := by
  unfold markStarted
  repeat' first
    | with_reducible assumption | intro _ | with_reducible apply State.onQm_same | with_reducible apply ite_same
    | with_reducible apply foldl_same | (refine Same.ofSnd (by assumption) ?_) | dsimp only | split

theorem waitFor_same {r₀ : State} {g₀ : Groups} {s : State} {w : Waiting} (h1 : Same g₀ r₀ s) (m_qm : g₀.qm = true)
    : Same g₀ r₀ (waitFor s w) := by
  unfold waitFor
  repeat' first
    | with_reducible assumption | intro _ | with_reducible apply markStarted_same | with_reducible apply State.onQm_same
    | with_reducible apply ite_same | with_reducible apply foldl_same | (refine Same.ofSnd (by assumption) ?_) | dsimp only
    | split

theorem State.took_same {r₀ : State} {g₀ : Groups} {s : State} (h1 : Same g₀ r₀ s) (m_free : g₀.free = true)
    : Same g₀ r₀ (State.took s) := by
  unfold State.took
  repeat' first
    | with_reducible assumption | intro _ | with_reducible apply State.onFree_same | with_reducible apply ite_same
    | with_reducible apply foldl_same | (refine Same.ofSnd (by assumption) ?_) | dsimp only | split

theorem complete_same {r₀ : State} {g₀ : Groups} {s : State} {h : Hdr} {u : UnitId} {st : Nat} (h1 : Same g₀ r₀ s)
    (m_free : g₀.free = true) (m_qm : g₀.qm = true) : Same g₀ r₀ (complete s h u st) := by
  unfold complete
  repeat' first
    | with_reducible assumption | intro _ | with_reducible apply issue_same | with_reducible apply State.took_same
    | with_reducible apply ite_same | with_reducible apply foldl_same | (refine Same.ofSnd (by assumption) ?_) | dsimp only
    | split

theorem takeAnswer_same {r₀ : State} {g₀ : Groups} {key st : Nat} {late : Bool} {s : State} {w : Waiting} (h4 : Same g₀ r₀ s)
    (m_free : g₀.free = true) (m_qm : g₀.qm = true) : Same g₀ r₀ (takeAnswer key st late s w) := by
  unfold takeAnswer
  repeat' first
    | with_reducible assumption | intro _ | with_reducible apply complete_same | with_reducible apply State.onQm_same
    | with_reducible apply ite_same | with_reducible apply foldl_same | (refine Same.ofSnd (by assumption) ?_) | dsimp only
    | split

theorem answered_same {r₀ : State} {g₀ : Groups} {s : State} {key st : Nat} {late : Bool} (h1 : Same g₀ r₀ s)
    (m_free : g₀.free = true) (m_qm : g₀.qm = true) : Same g₀ r₀ (answered s key st late) := by
  unfold answered
  repeat' first
    | with_reducible assumption | intro _ | with_reducible apply takeAnswer_same | with_reducible apply ite_same
    | with_reducible apply foldl_same | (refine Same.ofSnd (by assumption) ?_) | dsimp only | split

theorem endAdds_same {r₀ : State} {g₀ : Groups} {s : State} {h : Hdr} {st : Nat} (h1 : Same g₀ r₀ s) (m_free : g₀.free = true)
    (m_mu : g₀.mu = true) (m_qm : g₀.qm = true) : Same g₀ r₀ (endAdds s h st) := by
  unfold endAdds
  repeat' first
    | with_reducible assumption | intro _ | with_reducible apply State.onMu_same | with_reducible apply answered_same
    | with_reducible apply ite_same | with_reducible apply foldl_same | (refine Same.ofSnd (by assumption) ?_) | dsimp only
    | split

theorem legendUpdate_same {r₀ : State} {g₀ : Groups} {s : State} (h1 : Same g₀ r₀ s) (m_pkg : g₀.pkg = true)
    : Same g₀ r₀ (legendUpdate s) := by
  unfold legendUpdate
  repeat' first
    | with_reducible assumption | intro _ | with_reducible apply State.onPkg_same | with_reducible apply ite_same
    | with_reducible apply foldl_same | (refine Same.ofSnd (by assumption) ?_) | dsimp only | split

theorem setPort_same {r₀ : State} {g₀ : Groups} {s : State} {d p st : Nat} (h1 : Same g₀ r₀ s) (m_pkg : g₀.pkg = true)
    : Same g₀ r₀ (setPort s d p st) := by
  unfold setPort
  repeat' first
    | with_reducible assumption | intro _ | with_reducible apply State.onPkg_same | with_reducible apply ite_same
    | with_reducible apply foldl_same | (refine Same.ofSnd (by assumption) ?_) | dsimp only | split

theorem setLink_same {r₀ : State} {g₀ : Groups} {s : State} {d p st : Nat} (h1 : Same g₀ r₀ s) (m_pkg : g₀.pkg = true)
    : Same g₀ r₀ (setLink s d p st) := by
  unfold setLink
  repeat' first
    | with_reducible assumption | intro _ | with_reducible apply setPort_same | with_reducible apply ite_same
    | with_reducible apply foldl_same | (refine Same.ofSnd (by assumption) ?_) | dsimp only | split

theorem failPort_same {r₀ : State} {g₀ : Groups} {s : State} {d p : Nat} (h1 : Same g₀ r₀ s) (m_pkg : g₀.pkg = true)
    (m_gz : g₀.gz = true) (m_sv : g₀.sv = true) (m_i3c : g₀.i3c = true) : Same g₀ r₀ (failPort s d p) := by
  unfold failPort
  repeat' first
    | with_reducible assumption | intro _ | with_reducible apply legendUpdate_same | with_reducible apply setSticky_same
    | with_reducible apply setLink_same | with_reducible apply discardHeld_same | with_reducible apply ite_same
    | with_reducible apply foldl_same | (refine Same.ofSnd (by assumption) ?_) | dsimp only | split

theorem closeReq_same {r₀ : State} {g₀ : Groups} {s : State} {d t : Nat} (h1 : Same g₀ r₀ s) (m_gz : g₀.gz = true)
    : Same g₀ r₀ (closeReq s d t) := by
  unfold closeReq
  repeat' first
    | with_reducible assumption | intro _ | with_reducible apply State.onGz_same | with_reducible apply ite_same
    | with_reducible apply foldl_same | (refine Same.ofSnd (by assumption) ?_) | dsimp only | split

theorem lateAnswer_same {r₀ : State} {g₀ : Groups} {s : State} {d t : Nat} (h1 : Same g₀ r₀ s) (m_regs : g₀.regs = true)
    (m_gz : g₀.gz = true) (m_sounds : g₀.sounds = true) (m_seqNo : g₀.seqNo = true) : Same g₀ r₀ (lateAnswer s d t) := by
  unfold lateAnswer
  repeat' first
    | with_reducible assumption | intro _ | with_reducible apply bump_same | with_reducible apply State.onGz_same
    | with_reducible apply ite_same | with_reducible apply foldl_same | (refine Same.ofSnd (by assumption) ?_) | dsimp only
    | split

theorem openReq_same {r₀ : State} {g₀ : Groups} {s : State} {r : OutReq} (h1 : Same g₀ r₀ s) (m_gz : g₀.gz = true)
    : Same g₀ r₀ (openReq s r) := by
  unfold openReq
  repeat' first
    | with_reducible assumption | intro _ | with_reducible apply State.onGz_same | with_reducible apply ite_same
    | with_reducible apply foldl_same | (refine Same.ofSnd (by assumption) ?_) | dsimp only | split

theorem touchAll_same {r₀ : State} {g₀ : Groups} {s : State} {l : List Nat} (h1 : Same g₀ r₀ s) (m_regs : g₀.regs = true)
    (m_mu : g₀.mu = true) (m_sounds : g₀.sounds = true) (m_seqNo : g₀.seqNo = true) : Same g₀ r₀ (touchAll s l) := by
  unfold touchAll
  repeat' first
    | with_reducible assumption | intro _ | with_reducible apply touch_same | with_reducible apply ite_same
    | with_reducible apply foldl_same | (refine Same.ofSnd (by assumption) ?_) | dsimp only | split

theorem storeMem_same {r₀ : State} {g₀ : Groups} {s : State} {a : Nat} {bs : List Byte} (h1 : Same g₀ r₀ s)
    (m_mem : g₀.mem = true) (m_regs : g₀.regs = true) (m_mu : g₀.mu = true) (m_sounds : g₀.sounds = true)
    (m_seqNo : g₀.seqNo = true) : Same g₀ r₀ (storeMem s a bs) := by
  unfold storeMem
  repeat' first
    | with_reducible assumption | intro _ | with_reducible apply State.onMu_same | with_reducible apply State.onMem_same
    | with_reducible apply touchAll_same | with_reducible apply ite_same | with_reducible apply foldl_same
    | (refine Same.ofSnd (by assumption) ?_) | dsimp only | split

theorem overrun_same {r₀ : State} {g₀ : Groups} {s : State} {d p : Nat} (h1 : Same g₀ r₀ s) (m_pkg : g₀.pkg = true)
    (m_regs : g₀.regs = true) (m_gz : g₀.gz = true) (m_sv : g₀.sv = true) (m_i3c : g₀.i3c = true) (m_sounds : g₀.sounds = true)
    (m_seqNo : g₀.seqNo = true) : Same g₀ r₀ (overrun s d p) := by
  unfold overrun
  repeat' first
    | with_reducible assumption | intro _ | with_reducible apply bump_same | with_reducible apply failPort_same
    | with_reducible apply ite_same | with_reducible apply foldl_same | (refine Same.ofSnd (by assumption) ?_) | dsimp only
    | split

theorem travel_same {r₀ : State} {g₀ : Groups} {f : Flit} {a1 a2 : Nat} {a3 : State} (h4 : Same g₀ r₀ a3) (m_gz : g₀.gz = true)
    : Same g₀ r₀ (travel f a1 a2 a3).2 := by
  induction a1 generalizing a2 a3 with
  | zero =>
    unfold travel
    repeat' first
      | with_reducible assumption | intro _ | with_reducible apply crossLink_same | with_reducible apply ite_same
      | with_reducible apply ite_same_snd | with_reducible apply foldl_same | with_reducible apply foldl_same_snd
      | (refine Same.ofSnd (by assumption) ?_) | dsimp only | split
  | succ _ ih =>
    unfold travel
    repeat' first
      | with_reducible assumption | intro _ | with_reducible apply ih | with_reducible apply crossLink_same
      | with_reducible apply ite_same | with_reducible apply ite_same_snd | with_reducible apply foldl_same
      | with_reducible apply foldl_same_snd | (refine Same.ofSnd (by assumption) ?_) | dsimp only | split

theorem turnAway_same {r₀ : State} {g₀ : Groups} {s : State} {f : Flit} (h1 : Same g₀ r₀ s) (m_gz : g₀.gz = true)
    : Same g₀ r₀ (turnAway s f) := by
  unfold turnAway
  repeat' first
    | with_reducible assumption | intro _ | with_reducible apply refuse_same | with_reducible apply ite_same
    | with_reducible apply foldl_same | (refine Same.ofSnd (by assumption) ?_) | dsimp only | split

theorem goes_same {r₀ : State} {g₀ : Groups} {sent : Bool} {s : State} {f : Flit} {x15} (e₀ : goes sent s f = some x15)
    (h2 : Same g₀ r₀ s) (m_pkg : g₀.pkg = true) (m_regs : g₀.regs = true) (m_gz : g₀.gz = true) (m_sv : g₀.sv = true)
    (m_i3c : g₀.i3c = true) (m_sounds : g₀.sounds = true) (m_seqNo : g₀.seqNo = true) : Same g₀ r₀ x15.2 := by
  unfold goes at e₀
  repeat' first | contradiction | (injection e₀ with e₀; subst e₀) | dsimp only at e₀ | (split at e₀)
  repeat' first
    | with_reducible assumption | intro _ | with_reducible apply countBg_same | with_reducible apply overrun_same
    | with_reducible apply bump_same | with_reducible apply travel_same | with_reducible apply turnAway_same
    | with_reducible apply delivered_same | with_reducible apply ite_same | with_reducible apply ite_same_snd
    | with_reducible apply foldl_same | with_reducible apply foldl_same_snd | (refine Same.ofSnd (by assumption) ?_) | dsimp only
    | split

theorem arrive_same {r₀ : State} {g₀ : Groups} {s : State} {f : Flit} (h1 : Same g₀ r₀ s) (m_pkg : g₀.pkg = true)
    (m_regs : g₀.regs = true) (m_gz : g₀.gz = true) (m_sv : g₀.sv = true) (m_i3c : g₀.i3c = true) (m_sounds : g₀.sounds = true)
    (m_seqNo : g₀.seqNo = true) : Same g₀ r₀ (arrive s f).2 := by
  unfold arrive
  repeat' first
    | with_reducible assumption | intro _ | with_reducible apply getD_same | with_reducible apply takeFlit_same
    | with_reducible apply keepFlit_same | with_reducible apply ite_same | with_reducible apply ite_same_snd
    | with_reducible apply foldl_same | with_reducible apply foldl_same_snd
    | (with_reducible refine goes_same (by assumption) ?_ ?_ ?_ ?_ ?_ ?_ ?_ ?_)
    | (refine goes_same (x15 := (_, _)) (by assumption) ?_ ?_ ?_ ?_ ?_ ?_ ?_ ?_) | (refine Same.ofSnd (by assumption) ?_)
    | dsimp only | split

theorem arriveAll_same {r₀ : State} {g₀ : Groups} {s : State} {f : Flit} (h1 : Same g₀ r₀ s) (m_pkg : g₀.pkg = true)
    (m_regs : g₀.regs = true) (m_gz : g₀.gz = true) (m_sv : g₀.sv = true) (m_i3c : g₀.i3c = true) (m_sounds : g₀.sounds = true)
    (m_seqNo : g₀.seqNo = true) : Same g₀ r₀ (arriveAll s f).2 := by
  unfold arriveAll
  repeat' first
    | with_reducible assumption | intro _ | with_reducible apply arriveMulti_same | with_reducible apply arrive_same
    | with_reducible apply ite_same | with_reducible apply ite_same_snd | with_reducible apply foldl_same
    | with_reducible apply foldl_same_snd | (refine Same.ofSnd (by assumption) ?_) | dsimp only | split

theorem checkRead_same {r₀ : State} {g₀ : Groups} {s : State} {a n : Nat} (h1 : Same g₀ r₀ s) (m_mem : g₀.mem = true)
    (m_regs : g₀.regs = true) (m_mu : g₀.mu = true) (m_sv : g₀.sv = true) (m_i3c : g₀.i3c = true) (m_sounds : g₀.sounds = true)
    (m_seqNo : g₀.seqNo = true) : Same g₀ r₀ (checkRead s a n).2 := by
  unfold checkRead
  repeat' first
    | with_reducible assumption | intro _ | with_reducible apply readSectors_same | with_reducible apply ite_same
    | with_reducible apply ite_same_snd | with_reducible apply foldl_same | with_reducible apply foldl_same_snd
    | (refine Same.ofSnd (by assumption) ?_) | dsimp only | split

theorem countExpiry_same {r₀ : State} {g₀ : Groups} {s : State} {u : UnitId} {src : Nat} (h1 : Same g₀ r₀ s)
    (m_regs : g₀.regs = true) (m_sv : g₀.sv = true) (m_i3c : g₀.i3c = true) (m_sounds : g₀.sounds = true)
    (m_seqNo : g₀.seqNo = true) : Same g₀ r₀ (countExpiry s u src) := by
  unfold countExpiry
  repeat' first
    | with_reducible assumption | intro _ | with_reducible apply bump_same | with_reducible apply setSticky_same
    | with_reducible apply ite_same | with_reducible apply foldl_same | (refine Same.ofSnd (by assumption) ?_) | dsimp only
    | split

theorem finish_same {r₀ : State} {g₀ : Groups} {s0 s : State} {h : Hdr} {u : UnitId} {st : Nat} (h1 : Same g₀ r₀ s0)
    (h2 : Same g₀ r₀ s) (m_free : g₀.free = true) (m_qm : g₀.qm = true) : Same g₀ r₀ (finish s0 s h u st) := by
  unfold finish
  repeat' first
    | with_reducible assumption | intro _ | with_reducible apply complete_same | with_reducible apply waitFor_same
    | with_reducible apply ite_same | with_reducible apply foldl_same | (refine Same.ofSnd (by assumption) ?_) | dsimp only
    | split

theorem endStore_same {r₀ : State} {g₀ : Groups} {s : State} {d t : Nat} (h1 : Same g₀ r₀ s) (m_cores : g₀.cores = true)
    : Same g₀ r₀ (endStore s d t) := by
  unfold endStore
  repeat' first
    | with_reducible assumption | intro _ | with_reducible apply State.onCores_same | with_reducible apply ite_same
    | with_reducible apply foldl_same | (refine Same.ofSnd (by assumption) ?_) | dsimp only | split

theorem postFar_same {r₀ : State} {g₀ : Groups} {s : State} {a : Nat} {bs : List Byte} (h1 : Same g₀ r₀ s) (m_mem : g₀.mem = true)
    (m_regs : g₀.regs = true) (m_sv : g₀.sv = true) (m_i3c : g₀.i3c = true) (m_sounds : g₀.sounds = true)
    (m_seqNo : g₀.seqNo = true) : Same g₀ r₀ (postFar s a bs) := by
  unfold postFar
  repeat' first
    | with_reducible assumption | intro _ | with_reducible apply bump_same | with_reducible apply State.onMem_same
    | with_reducible apply setSticky_same | with_reducible apply ite_same | with_reducible apply foldl_same
    | (refine Same.ofSnd (by assumption) ?_) | dsimp only | split

theorem writeMem_same {r₀ : State} {g₀ : Groups} {s : State} {a : Nat} {bs : List Byte} (h1 : Same g₀ r₀ s)
    (m_mem : g₀.mem = true) (m_regs : g₀.regs = true) (m_mu : g₀.mu = true) (m_sv : g₀.sv = true) (m_i3c : g₀.i3c = true)
    (m_sounds : g₀.sounds = true) (m_seqNo : g₀.seqNo = true) : Same g₀ r₀ (writeMem s a bs) := by
  unfold writeMem
  repeat' first
    | with_reducible assumption | intro _ | with_reducible apply postFar_same | with_reducible apply storeMem_same
    | with_reducible apply ite_same | with_reducible apply foldl_same | (refine Same.ofSnd (by assumption) ?_) | dsimp only
    | split

theorem poisonSectors_same {r₀ : State} {g₀ : Groups} {s : State} {l : List Nat} (h1 : Same g₀ r₀ s) (m_mem : g₀.mem = true)
    : Same g₀ r₀ (poisonSectors s l) := by
  unfold poisonSectors
  repeat' first
    | with_reducible assumption | intro _ | with_reducible apply State.onMem_same | with_reducible apply ite_same
    | with_reducible apply foldl_same | (refine Same.ofSnd (by assumption) ?_) | dsimp only | split

theorem runDesc_same {r₀ : State} {g₀ : Groups} {s : State} {h : Hdr} {body : State → State} (h1 : Same g₀ r₀ s)
    (h3 : (∀ (y04 : State), Same g₀ r₀ y04 → Same g₀ r₀ (body y04))) : Same g₀ r₀ (runDesc s h body) := by
  unfold runDesc
  repeat' first
    | with_reducible assumption | intro _ | with_reducible apply h3 | with_reducible apply ite_same
    | with_reducible apply foldl_same | (refine Same.ofSnd (by assumption) ?_) | dsimp only | split

theorem dropReqs_same {r₀ : State} {g₀ : Groups} {s : State} {h : Hdr} (h1 : Same g₀ r₀ s) (m_gz : g₀.gz = true)
    : Same g₀ r₀ (dropReqs s h) := by
  unfold dropReqs
  repeat' first
    | with_reducible assumption | intro _ | with_reducible apply State.onGz_same | with_reducible apply ite_same
    | with_reducible apply foldl_same | (refine Same.ofSnd (by assumption) ?_) | dsimp only | split

end Sys2Proof.Machine
end

