-- ==== Sys2Proof/Laws/SameMuslinOps.lean ====
section
/-!
SUPPORT. What the definitions of Machine/MuslinOps.lean may change (Laws/Same.lean).
-/

set_option linter.all false

namespace Sys2Proof.Machine

open Sys2Proof

theorem reportLate_same {r₀ : State} {g₀ : Groups} {s : State} {step : Nat} (h1 : Same g₀ r₀ s) (m_seq : g₀.seq = true)
    : Same g₀ r₀ (reportLate s step) := by
  unfold reportLate
  repeat' first
    | with_reducible assumption | intro _ | with_reducible apply State.onSeq_same | with_reducible apply ite_same
    | with_reducible apply foldl_same | (refine Same.ofSnd (by assumption) ?_) | dsimp only | split

theorem delDir_same {r₀ : State} {g₀ : Groups} {s : State} {k t row : Nat} (h1 : Same g₀ r₀ s) (m_mu : g₀.mu = true)
    : Same g₀ r₀ (delDir s k t row) := by
  unfold delDir
  repeat' first
    | with_reducible assumption | intro _ | with_reducible apply State.onMu_same | with_reducible apply ite_same
    | with_reducible apply foldl_same | (refine Same.ofSnd (by assumption) ?_) | dsimp only | split

theorem placeRow_same {r₀ : State} {g₀ : Groups} {s : State} {k bank step t row region entries : Nat} {late : Bool} {m : AddMsg}
    (h1 : Same g₀ r₀ s) (m_regs : g₀.regs = true) (m_mu : g₀.mu = true) (m_sounds : g₀.sounds = true) (m_seqNo : g₀.seqNo = true)
    : Same g₀ r₀ (placeRow s k bank step t row region entries late m).2 := by
  unfold placeRow
  repeat' first
    | with_reducible assumption | intro _ | with_reducible apply State.onMu_same | with_reducible apply bump_same
    | with_reducible apply ite_same | with_reducible apply ite_same_snd | with_reducible apply foldl_same
    | with_reducible apply foldl_same_snd | (refine Same.ofSnd (by assumption) ?_) | dsimp only | split

theorem applyAdd_same {r₀ : State} {g₀ : Groups} {s : State} {k : Nat} {m : AddMsg} (h1 : Same g₀ r₀ s) (m_regs : g₀.regs = true)
    (m_mu : g₀.mu = true) (m_seq : g₀.seq = true) (m_sounds : g₀.sounds = true) (m_seqNo : g₀.seqNo = true)
    : Same g₀ r₀ (applyAdd s k m).2 := by
  unfold applyAdd
  repeat' first
    | with_reducible assumption | intro _ | with_reducible apply State.onMu_same | with_reducible apply bump_same
    | with_reducible apply reportLate_same | with_reducible apply placeRow_same | with_reducible apply ite_same
    | with_reducible apply ite_same_snd | with_reducible apply foldl_same | with_reducible apply foldl_same_snd
    | (refine Same.ofSnd (by assumption) ?_) | dsimp only | split

theorem hotAdd_same {r₀ : State} {g₀ : Groups} {s : State} {k t row w : Nat} (h1 : Same g₀ r₀ s) (m_mu : g₀.mu = true)
    : Same g₀ r₀ (hotAdd s k t row w) := by
  unfold hotAdd
  repeat' first
    | with_reducible assumption | intro _ | with_reducible apply State.onMu_same | with_reducible apply ite_same
    | with_reducible apply foldl_same | (refine Same.ofSnd (by assumption) ?_) | dsimp only | split

theorem noteLoss_same {r₀ : State} {g₀ : Groups} {s : State} {e : Nat} {b : Int} {n : Nat} {vs : List Val} (h1 : Same g₀ r₀ s)
    (m_mu : g₀.mu = true) : Same g₀ r₀ (noteLoss s e b n vs) := by
  unfold noteLoss
  repeat' first
    | with_reducible assumption | intro _ | with_reducible apply State.onMu_same | with_reducible apply ite_same
    | with_reducible apply foldl_same | (refine Same.ofSnd (by assumption) ?_) | dsimp only | split

theorem setDir_same {r₀ : State} {g₀ : Groups} {s : State} {k t row : Nat} {e : DirEntry} (h1 : Same g₀ r₀ s)
    (m_mu : g₀.mu = true) : Same g₀ r₀ (setDir s k t row e) := by
  unfold setDir
  repeat' first
    | with_reducible assumption | intro _ | with_reducible apply State.onMu_same | with_reducible apply ite_same
    | with_reducible apply foldl_same | (refine Same.ofSnd (by assumption) ?_) | dsimp only | split

theorem startPatch_same {r₀ : State} {g₀ : Groups} {s : State} {k t row : Nat} (h1 : Same g₀ r₀ s) (m_regs : g₀.regs = true)
    (m_gz : g₀.gz = true) (m_mu : g₀.mu = true) (m_sounds : g₀.sounds = true) (m_seqNo : g₀.seqNo = true)
    : Same g₀ r₀ (startPatch s k t row) := by
  unfold startPatch
  repeat' first
    | with_reducible assumption | intro _ | with_reducible apply State.onMu_same | with_reducible apply bump_same
    | with_reducible apply openReq_same | with_reducible apply ite_same | with_reducible apply foldl_same
    | (refine Same.ofSnd (by assumption) ?_) | dsimp only | split

theorem markPoisoned_same {r₀ : State} {g₀ : Groups} {s : State} {k t row da : Nat} (h1 : Same g₀ r₀ s) (m_regs : g₀.regs = true)
    (m_gz : g₀.gz = true) (m_mu : g₀.mu = true) (m_sounds : g₀.sounds = true) (m_seqNo : g₀.seqNo = true)
    : Same g₀ r₀ (markPoisoned s k t row da) := by
  unfold markPoisoned
  repeat' first
    | with_reducible assumption | intro _ | with_reducible apply State.onMu_same | with_reducible apply startPatch_same
    | with_reducible apply setDir_same | with_reducible apply ite_same | with_reducible apply foldl_same
    | (refine Same.ofSnd (by assumption) ?_) | dsimp only | split

theorem sendAdd_same {r₀ : State} {g₀ : Groups} {s : State} {m : AddMsg} (h1 : Same g₀ r₀ s) (m_gz : g₀.gz = true)
    : Same g₀ r₀ (sendAdd s m) := by
  unfold sendAdd
  repeat' first
    | with_reducible assumption | intro _ | with_reducible apply State.onGz_same | with_reducible apply ite_same
    | with_reducible apply foldl_same | (refine Same.ofSnd (by assumption) ?_) | dsimp only | split

theorem noteFwd_same {r₀ : State} {g₀ : Groups} {s : State} {d : Nat} (h1 : Same g₀ r₀ s) (m_gz : g₀.gz = true)
    : Same g₀ r₀ (noteFwd s d) := by
  unfold noteFwd
  repeat' first
    | with_reducible assumption | intro _ | with_reducible apply State.onGz_same | with_reducible apply ite_same
    | with_reducible apply foldl_same | (refine Same.ofSnd (by assumption) ?_) | dsimp only | split

theorem holdAdd_same {r₀ : State} {g₀ : Groups} {s : State} {m : AddMsg} (h1 : Same g₀ r₀ s) (m_gz : g₀.gz = true)
    : Same g₀ r₀ (holdAdd s m) := by
  unfold holdAdd
  repeat' first
    | with_reducible assumption | intro _ | with_reducible apply sendAdd_same | with_reducible apply noteFwd_same
    | with_reducible apply ite_same | with_reducible apply foldl_same | (refine Same.ofSnd (by assumption) ?_) | dsimp only
    | split

theorem survey_same {r₀ : State} {g₀ : Groups} {s : State} {k t row off w : Nat} (h1 : Same g₀ r₀ s) (m_regs : g₀.regs = true)
    (m_sounds : g₀.sounds = true) (m_seqNo : g₀.seqNo = true) : Same g₀ r₀ (survey s k t row off w) := by
  unfold survey
  repeat' first
    | with_reducible assumption | intro _ | with_reducible apply bumpBy_same | with_reducible apply ite_same
    | with_reducible apply foldl_same | (refine Same.ofSnd (by assumption) ?_) | dsimp only | split

theorem ownerRead_same {r₀ : State} {g₀ : Groups} {s : State} {t row : Nat} (h1 : Same g₀ r₀ s) (m_mem : g₀.mem = true)
    (m_regs : g₀.regs = true) (m_gz : g₀.gz = true) (m_mu : g₀.mu = true) (m_sv : g₀.sv = true) (m_i3c : g₀.i3c = true)
    (m_sounds : g₀.sounds = true) (m_seqNo : g₀.seqNo = true) : Same g₀ r₀ (ownerRead s t row).2 := by
  unfold ownerRead
  repeat' first
    | with_reducible assumption | intro _ | with_reducible apply survey_same | with_reducible apply markPoisoned_same
    | with_reducible apply checkRead_same | with_reducible apply hotAdd_same | with_reducible apply ite_same
    | with_reducible apply ite_same_snd | with_reducible apply foldl_same | with_reducible apply foldl_same_snd
    | (refine Same.ofSnd (by assumption) ?_) | dsimp only | split

theorem closeRow_same {r₀ : State} {g₀ : Groups} {s : State} {kind k t row : Nat} (h1 : Same g₀ r₀ s) (m_gz : g₀.gz = true)
    : Same g₀ r₀ (closeRow s kind k t row) := by
  unfold closeRow
  repeat' first
    | with_reducible assumption | intro _ | with_reducible apply closeReq_same | with_reducible apply ite_same
    | with_reducible apply foldl_same | (refine Same.ofSnd (by assumption) ?_) | dsimp only | split

theorem wakePatch_same {r₀ : State} {g₀ : Groups} {s : State} {k : Nat} (h1 : Same g₀ r₀ s) (m_regs : g₀.regs = true)
    (m_gz : g₀.gz = true) (m_mu : g₀.mu = true) (m_sounds : g₀.sounds = true) (m_seqNo : g₀.seqNo = true)
    : Same g₀ r₀ (wakePatch s k) := by
  unfold wakePatch
  repeat' first
    | with_reducible assumption | intro _ | with_reducible apply State.onMu_same | with_reducible apply markPoisoned_same
    | with_reducible apply startPatch_same | with_reducible apply ite_same | with_reducible apply foldl_same
    | (refine Same.ofSnd (by assumption) ?_) | dsimp only | split

theorem answerAdd_same {r₀ : State} {g₀ : Groups} {s : State} {m : AddMsg} {from_ : Nat} {a3 : AddAnswer} (h1 : Same g₀ r₀ s)
    (m_gz : g₀.gz = true) : Same g₀ r₀ (answerAdd s m from_ a3) := by
  unfold answerAdd
  repeat' first
    | with_reducible assumption | intro _ | with_reducible apply sendFlit_same | with_reducible apply ite_same
    | with_reducible apply foldl_same | (refine Same.ofSnd (by assumption) ?_) | dsimp only | split

end Sys2Proof.Machine
end

