-- ==== Sys2Proof/Laws/SameOperands.lean ====
section
/-!
SUPPORT. What the definitions of Machine/Operands.lean may change (Laws/Same.lean).
-/

set_option linter.all false

namespace Sys2Proof.Machine

open Sys2Proof

theorem setRecv_same {r₀ : State} {g₀ : Groups} {s : State} {m : Rec} {f : McRecv → McRecv} (h1 : Same g₀ r₀ s)
    (m_gz : g₀.gz = true) : Same g₀ r₀ (setRecv s m f) := by
  unfold setRecv
  repeat' first
    | with_reducible assumption | intro _ | with_reducible apply State.onGz_same | with_reducible apply ite_same
    | with_reducible apply foldl_same | (refine Same.ofSnd (by assumption) ?_) | dsimp only | split

end Sys2Proof.Machine
end

