-- ==== Sys2Proof/Laws/SameQmOps.lean ====
section
/-!
SUPPORT. What the definitions of Machine/QmOps.lean may change (Laws/Same.lean).
-/

set_option linter.all false

namespace Sys2Proof.Machine

open Sys2Proof

theorem staleTiles_same {r₀ : State} {g₀ : Groups} {s : State} {core tile n : Nat} (h1 : Same g₀ r₀ s) (m_tw : g₀.tw = true)
    : Same g₀ r₀ (staleTiles s core tile n) := by
  unfold staleTiles
  repeat' first
    | with_reducible assumption | intro _ | with_reducible apply State.onTw_same | with_reducible apply ite_same
    | with_reducible apply foldl_same | (refine Same.ofSnd (by assumption) ?_) | dsimp only | split

theorem setRing_same {r₀ : State} {g₀ : Groups} {s : State} {n : Nat} {f : Ring → Ring} (h1 : Same g₀ r₀ s) (m_qm : g₀.qm = true)
    : Same g₀ r₀ (setRing s n f) := by
  unfold setRing
  repeat' first
    | with_reducible assumption | intro _ | with_reducible apply State.onQm_same | with_reducible apply ite_same
    | with_reducible apply foldl_same | (refine Same.ofSnd (by assumption) ?_) | dsimp only | split

theorem notify_same {r₀ : State} {g₀ : Groups} {s : State} {r : Rec} (h1 : Same g₀ r₀ s) (m_qm : g₀.qm = true)
    : Same g₀ r₀ (notify s r) := by
  unfold notify
  repeat' first
    | with_reducible assumption | intro _ | with_reducible apply State.onQm_same | with_reducible apply ite_same
    | with_reducible apply foldl_same | (refine Same.ofSnd (by assumption) ?_) | dsimp only | split

theorem writeRecord_same {r₀ : State} {g₀ : Groups} {s : State} {n : Nat} {body : Nat → List Byte} (h1 : Same g₀ r₀ s)
    (m_mem : g₀.mem = true) (m_regs : g₀.regs = true) (m_mu : g₀.mu = true) (m_qm : g₀.qm = true) (m_sv : g₀.sv = true)
    (m_i3c : g₀.i3c = true) (m_sounds : g₀.sounds = true) (m_seqNo : g₀.seqNo = true) : Same g₀ r₀ (writeRecord s n body) := by
  unfold writeRecord
  repeat' first
    | with_reducible assumption | intro _ | with_reducible apply writeMem_same | with_reducible apply setRing_same
    | with_reducible apply notify_same | with_reducible apply ite_same | with_reducible apply foldl_same
    | (refine Same.ofSnd (by assumption) ?_) | dsimp only | split

theorem setQueue_same {r₀ : State} {g₀ : Groups} {s : State} {q : Nat} {f : Queue → Queue} (h1 : Same g₀ r₀ s)
    (m_qm : g₀.qm = true) : Same g₀ r₀ (setQueue s q f) := by
  unfold setQueue
  repeat' first
    | with_reducible assumption | intro _ | with_reducible apply State.onQm_same | with_reducible apply ite_same
    | with_reducible apply foldl_same | (refine Same.ofSnd (by assumption) ?_) | dsimp only | split

theorem dropShadow_same {r₀ : State} {g₀ : Groups} {s : State} {core : Nat} {h : Hdr} (h1 : Same g₀ r₀ s) (m_tw : g₀.tw = true)
    : Same g₀ r₀ (dropShadow s core h) := by
  unfold dropShadow
  repeat' first
    | with_reducible assumption | intro _ | with_reducible apply State.onTw_same | with_reducible apply ite_same
    | with_reducible apply foldl_same | (refine Same.ofSnd (by assumption) ?_) | dsimp only | split

theorem forget_same {r₀ : State} {g₀ : Groups} {s : State} {h : Hdr} (h1 : Same g₀ r₀ s) (m_mu : g₀.mu = true)
    (m_streams : g₀.streams = true) (m_seq : g₀.seq = true) (m_img : g₀.img = true) (m_rings : g₀.rings = true)
    (m_snap : g₀.snap = true) (m_sec : g₀.sec = true) : Same g₀ r₀ (forget s h) := by
  unfold forget
  repeat' first
    | with_reducible assumption | intro _ | with_reducible apply State.onMu_same | with_reducible apply State.onRings_same
    | with_reducible apply State.onImg_same | with_reducible apply State.onSec_same | with_reducible apply State.onSnap_same
    | with_reducible apply State.onSeq_same | with_reducible apply State.onStreams_same | with_reducible apply ite_same
    | with_reducible apply foldl_same | (refine Same.ofSnd (by assumption) ?_) | dsimp only | split

theorem releaseSlot_same {r₀ : State} {g₀ : Groups} {s : State} {n : Nat} (h1 : Same g₀ r₀ s) (m_qm : g₀.qm = true)
    : Same g₀ r₀ (releaseSlot s n) := by
  unfold releaseSlot
  repeat' first
    | with_reducible assumption | intro _ | with_reducible apply setRing_same | with_reducible apply ite_same
    | with_reducible apply foldl_same | (refine Same.ofSnd (by assumption) ?_) | dsimp only | split

theorem endEarly_same {r₀ : State} {g₀ : Groups} {s : State} {d : Disp} {st : Nat} (h1 : Same g₀ r₀ s) (m_free : g₀.free = true)
    (m_gz : g₀.gz = true) (m_tw : g₀.tw = true) (m_mu : g₀.mu = true) (m_streams : g₀.streams = true) (m_qm : g₀.qm = true)
    (m_seq : g₀.seq = true) (m_img : g₀.img = true) (m_rings : g₀.rings = true) (m_snap : g₀.snap = true) (m_sec : g₀.sec = true)
    : Same g₀ r₀ (endEarly s d st) := by
  unfold endEarly
  repeat' first
    | with_reducible assumption | intro _ | with_reducible apply State.onImg_same | with_reducible apply forget_same
    | with_reducible apply complete_same | with_reducible apply dropShadow_same | with_reducible apply dropReqs_same
    | with_reducible apply staleTiles_same | with_reducible apply ite_same | with_reducible apply foldl_same
    | (refine Same.ofSnd (by assumption) ?_) | dsimp only | split

theorem endFetched_same {r₀ : State} {g₀ : Groups} {s : State} {q : Nat} {x : Fetched} {st : Nat} (h1 : Same g₀ r₀ s)
    (m_qm : g₀.qm = true) : Same g₀ r₀ (endFetched s q x st) := by
  unfold endFetched
  repeat' first
    | with_reducible assumption | intro _ | with_reducible apply setQueue_same | with_reducible apply completeIdle_same
    | with_reducible apply ite_same | with_reducible apply foldl_same | (refine Same.ofSnd (by assumption) ?_) | dsimp only
    | split

theorem endFetchedAll_same {r₀ : State} {g₀ : Groups} {s : State} {q st : Nat} (h1 : Same g₀ r₀ s) (m_qm : g₀.qm = true)
    : Same g₀ r₀ (endFetchedAll s q st) := by
  unfold endFetchedAll
  repeat' first
    | with_reducible assumption | intro _ | with_reducible apply endFetched_same | with_reducible apply ite_same
    | with_reducible apply foldl_same | (refine Same.ofSnd (by assumption) ?_) | dsimp only | split

theorem reserveSlot_same {r₀ : State} {g₀ : Groups} {s : State} {n : Nat} (h1 : Same g₀ r₀ s) (m_qm : g₀.qm = true)
    : Same g₀ r₀ (reserveSlot s n) := by
  unfold reserveSlot
  repeat' first
    | with_reducible assumption | intro _ | with_reducible apply setRing_same | with_reducible apply ite_same
    | with_reducible apply foldl_same | (refine Same.ofSnd (by assumption) ?_) | dsimp only | split

theorem endAll_same {r₀ : State} {g₀ : Groups} {s : State} {f : Disp → Bool} {st : Nat} (h1 : Same g₀ r₀ s)
    (m_free : g₀.free = true) (m_gz : g₀.gz = true) (m_tw : g₀.tw = true) (m_mu : g₀.mu = true) (m_streams : g₀.streams = true)
    (m_qm : g₀.qm = true) (m_seq : g₀.seq = true) (m_img : g₀.img = true) (m_rings : g₀.rings = true) (m_snap : g₀.snap = true)
    (m_sec : g₀.sec = true) : Same g₀ r₀ (endAll s f st) := by
  unfold endAll
  repeat' first
    | with_reducible assumption | intro _ | with_reducible apply endEarly_same | with_reducible apply ite_same
    | with_reducible apply foldl_same | (refine Same.ofSnd (by assumption) ?_) | dsimp only | split

end Sys2Proof.Machine
end

