-- ==== Sys2Proof/Laws/SameNumfmt.lean ====
section
/-!
SUPPORT. What the definitions of Machine/Numfmt.lean may change (Laws/Same.lean).
-/

set_option linter.all false

namespace Sys2Proof.Machine

open Sys2Proof

theorem draw_same {r₀ : State} {g₀ : Groups} {s : State} {fixed : Bool} {lane : Nat} (h1 : Same g₀ r₀ s) (m_free : g₀.free = true)
    (m_tw : g₀.tw = true) : Same g₀ r₀ (draw s fixed lane).2 := by
  unfold draw
  repeat' first
    | with_reducible assumption | intro _ | with_reducible apply State.took_same | with_reducible apply State.onTw_same
    | with_reducible apply ite_same | with_reducible apply ite_same_snd | with_reducible apply foldl_same
    | with_reducible apply foldl_same_snd | (refine Same.ofSnd (by assumption) ?_) | dsimp only | split

theorem convElem_same {r₀ : State} {g₀ : Groups} {s : State} {spec sc : Nat} {grad fixed : Bool} {lane : Nat} {v : Val}
    (h1 : Same g₀ r₀ s) (m_free : g₀.free = true) (m_tw : g₀.tw = true)
    : Same g₀ r₀ (convElem s spec sc grad fixed lane v).2 := by
  unfold convElem
  repeat' first
    | with_reducible assumption | intro _ | with_reducible apply draw_same | with_reducible apply ite_same
    | with_reducible apply ite_same_snd | with_reducible apply foldl_same | with_reducible apply foldl_same_snd
    | (refine Same.ofSnd (by assumption) ?_) | dsimp only | split

theorem convList_same {r₀ : State} {g₀ : Groups} {s : State} {spec : Nat} {grad fixed : Bool} {scs : List Nat} {a5 : Nat}
    {a6 : List (Val × Nat)} (h1 : Same g₀ r₀ s) (m_free : g₀.free = true) (m_tw : g₀.tw = true)
    : Same g₀ r₀ (convList s spec grad fixed scs a5 a6).2 := by
  induction a6 generalizing s a5 with
  | nil =>
    unfold convList
    repeat' first
      | with_reducible assumption | intro _ | with_reducible apply convElem_same | with_reducible apply ite_same
      | with_reducible apply ite_same_snd | with_reducible apply foldl_same | with_reducible apply foldl_same_snd
      | (refine Same.ofSnd (by assumption) ?_) | dsimp only | split
  | cons _ _ ih =>
    unfold convList
    repeat' first
      | with_reducible assumption | intro _ | with_reducible apply ih | with_reducible apply convElem_same
      | with_reducible apply ite_same | with_reducible apply ite_same_snd | with_reducible apply foldl_same
      | with_reducible apply foldl_same_snd | (refine Same.ofSnd (by assumption) ?_) | dsimp only | split

end Sys2Proof.Machine
end

