-- ==== Sys2Proof/Laws/SameTwillOps.lean ====
section
/-!
SUPPORT. What the definitions of Machine/TwillOps.lean may change (Laws/Same.lean).
-/

set_option linter.all false

namespace Sys2Proof.Machine

open Sys2Proof

theorem bumpCore_same {r₀ : State} {g₀ : Groups} {s : State} {g off n : Nat} (h1 : Same g₀ r₀ s) (m_regs : g₀.regs = true)
    (m_sounds : g₀.sounds = true) (m_seqNo : g₀.seqNo = true) : Same g₀ r₀ (bumpCore s g off n) := by
  unfold bumpCore
  repeat' first
    | with_reducible assumption | intro _ | with_reducible apply bumpBy_same | with_reducible apply ite_same
    | with_reducible apply foldl_same | (refine Same.ofSnd (by assumption) ?_) | dsimp only | split

theorem cbCheck_same {r₀ : State} {g₀ : Groups} {s : State} {g : Nat} {rs : List Range} (h1 : Same g₀ r₀ s)
    (m_regs : g₀.regs = true) (m_sounds : g₀.sounds = true) (m_seqNo : g₀.seqNo = true) : Same g₀ r₀ (cbCheck s g rs).2 := by
  unfold cbCheck
  repeat' first
    | with_reducible assumption | intro _ | with_reducible apply bumpCore_same | with_reducible apply ite_same
    | with_reducible apply ite_same_snd | with_reducible apply foldl_same | with_reducible apply foldl_same_snd
    | (refine Same.ofSnd (by assumption) ?_) | dsimp only | split

theorem cbWrite_same {r₀ : State} {g₀ : Groups} {s : State} {g off : Nat} {bs : List Byte} (h1 : Same g₀ r₀ s)
    (m_regs : g₀.regs = true) (m_tw : g₀.tw = true) (m_sounds : g₀.sounds = true) (m_seqNo : g₀.seqNo = true)
    : Same g₀ r₀ (cbWrite s g off bs) := by
  unfold cbWrite
  repeat' first
    | with_reducible assumption | intro _ | with_reducible apply State.onTw_same | with_reducible apply cbCheck_same
    | with_reducible apply ite_same | with_reducible apply ite_same_snd | with_reducible apply foldl_same
    | with_reducible apply foldl_same_snd | (refine Same.ofSnd (by assumption) ?_) | dsimp only | split

theorem drainRow_same {r₀ : State} {g₀ : Groups} {s : State} {o : MatmulOp} {compat : Bool} {i : Nat} (h1 : Same g₀ r₀ s)
    (m_free : g₀.free = true) (m_regs : g₀.regs = true) (m_tw : g₀.tw = true) (m_sounds : g₀.sounds = true)
    (m_seqNo : g₀.seqNo = true) : Same g₀ r₀ (drainRow s o compat i).2 := by
  unfold drainRow
  repeat' first
    | with_reducible assumption | intro _ | with_reducible apply convList_same | with_reducible apply cbWrite_same
    | with_reducible apply ite_same | with_reducible apply ite_same_snd | with_reducible apply foldl_same
    | with_reducible apply foldl_same_snd | (refine Same.ofSnd (by assumption) ?_) | dsimp only | split

theorem drainRows_same {r₀ : State} {g₀ : Groups} {s : State} {o : MatmulOp} {compat : Bool} {a3 : List Nat} (h1 : Same g₀ r₀ s)
    (m_free : g₀.free = true) (m_regs : g₀.regs = true) (m_tw : g₀.tw = true) (m_sounds : g₀.sounds = true)
    (m_seqNo : g₀.seqNo = true) : Same g₀ r₀ (drainRows s o compat a3).2 := by
  induction a3 generalizing s with
  | nil =>
    unfold drainRows
    repeat' first
      | with_reducible assumption | intro _ | with_reducible apply drainRow_same | with_reducible apply ite_same
      | with_reducible apply ite_same_snd | with_reducible apply foldl_same | with_reducible apply foldl_same_snd
      | (refine Same.ofSnd (by assumption) ?_) | dsimp only | split
  | cons _ _ ih =>
    unfold drainRows
    repeat' first
      | with_reducible assumption | intro _ | with_reducible apply ih | with_reducible apply drainRow_same
      | with_reducible apply ite_same | with_reducible apply ite_same_snd | with_reducible apply foldl_same
      | with_reducible apply foldl_same_snd | (refine Same.ofSnd (by assumption) ?_) | dsimp only | split

theorem zeroTile_same {r₀ : State} {g₀ : Groups} {s : State} {g t : Nat} (h1 : Same g₀ r₀ s) (m_tw : g₀.tw = true)
    : Same g₀ r₀ (zeroTile s g t) := by
  unfold zeroTile
  repeat' first
    | with_reducible assumption | intro _ | with_reducible apply State.onTw_same | with_reducible apply ite_same
    | with_reducible apply foldl_same | (refine Same.ofSnd (by assumption) ?_) | dsimp only | split

theorem setLane_same {r₀ : State} {g₀ : Groups} {s : State} {g t a r c : Nat} {v : Lane} (h1 : Same g₀ r₀ s) (m_tw : g₀.tw = true)
    : Same g₀ r₀ (setLane s g t a r c v) := by
  unfold setLane
  repeat' first
    | with_reducible assumption | intro _ | with_reducible apply State.onTw_same | with_reducible apply ite_same
    | with_reducible apply foldl_same | (refine Same.ofSnd (by assumption) ?_) | dsimp only | split

theorem setTile_same {r₀ : State} {g₀ : Groups} {s : State} {g t : Nat} {f : Tile → Tile} (h1 : Same g₀ r₀ s)
    (m_tw : g₀.tw = true) : Same g₀ r₀ (setTile s g t f) := by
  unfold setTile
  repeat' first
    | with_reducible assumption | intro _ | with_reducible apply State.onTw_same | with_reducible apply ite_same
    | with_reducible apply foldl_same | (refine Same.ofSnd (by assumption) ?_) | dsimp only | split

theorem addLane_same {r₀ : State} {g₀ : Groups} {s : State} {g t a r c : Nat} {v : Int} (h1 : Same g₀ r₀ s)
    (m_regs : g₀.regs = true) (m_tw : g₀.tw = true) (m_sounds : g₀.sounds = true) (m_seqNo : g₀.seqNo = true)
    : Same g₀ r₀ (addLane s g t a r c v) := by
  unfold addLane
  repeat' first
    | with_reducible assumption | intro _ | with_reducible apply setLane_same | with_reducible apply setTile_same
    | with_reducible apply bumpCore_same | with_reducible apply ite_same | with_reducible apply foldl_same
    | (refine Same.ofSnd (by assumption) ?_) | dsimp only | split

theorem addTerms_same {r₀ : State} {g₀ : Groups} {s : State} {g t a r k : Nat} (h1 : Same g₀ r₀ s) (m_tw : g₀.tw = true)
    : Same g₀ r₀ (addTerms s g t a r k) := by
  unfold addTerms
  repeat' first
    | with_reducible assumption | intro _ | with_reducible apply State.onTw_same | with_reducible apply ite_same
    | with_reducible apply foldl_same | (refine Same.ofSnd (by assumption) ?_) | dsimp only | split

theorem foldRow_same {r₀ : State} {g₀ : Groups} {s : State} {g t r : Nat} (h1 : Same g₀ r₀ s) (m_regs : g₀.regs = true)
    (m_tw : g₀.tw = true) (m_sounds : g₀.sounds = true) (m_seqNo : g₀.seqNo = true) : Same g₀ r₀ (foldRow s g t r) := by
  unfold foldRow
  repeat' first
    | with_reducible assumption | intro _ | with_reducible apply State.onTw_same | with_reducible apply setTile_same
    | with_reducible apply bumpCore_same | with_reducible apply ite_same | with_reducible apply foldl_same
    | (refine Same.ofSnd (by assumption) ?_) | dsimp only | split

theorem foldFull_same {r₀ : State} {g₀ : Groups} {s : State} {g t a r k : Nat} (h1 : Same g₀ r₀ s) (m_regs : g₀.regs = true)
    (m_tw : g₀.tw = true) (m_sounds : g₀.sounds = true) (m_seqNo : g₀.seqNo = true) : Same g₀ r₀ (foldFull s g t a r k) := by
  unfold foldFull
  repeat' first
    | with_reducible assumption | intro _ | with_reducible apply foldRow_same | with_reducible apply ite_same
    | with_reducible apply foldl_same | (refine Same.ofSnd (by assumption) ?_) | dsimp only | split

theorem countTerms_same {r₀ : State} {g₀ : Groups} {s : State} {g k : Nat} {rows : List (Nat × Nat × Nat)} (h1 : Same g₀ r₀ s)
    (m_regs : g₀.regs = true) (m_tw : g₀.tw = true) (m_sounds : g₀.sounds = true) (m_seqNo : g₀.seqNo = true)
    : Same g₀ r₀ (countTerms s g k rows) := by
  unfold countTerms
  repeat' first
    | with_reducible assumption | intro _ | with_reducible apply addTerms_same | with_reducible apply foldFull_same
    | with_reducible apply ite_same | with_reducible apply foldl_same | (refine Same.ofSnd (by assumption) ?_) | dsimp only
    | split

theorem flagLane_same {r₀ : State} {g₀ : Groups} {s : State} {g t a r c : Nat} {ps : List Val} (h1 : Same g₀ r₀ s)
    (m_tw : g₀.tw = true) : Same g₀ r₀ (flagLane s g t a r c ps) := by
  unfold flagLane
  repeat' first
    | with_reducible assumption | intro _ | with_reducible apply setLane_same | with_reducible apply ite_same
    | with_reducible apply foldl_same | (refine Same.ofSnd (by assumption) ?_) | dsimp only | split

theorem setCore_same {r₀ : State} {g₀ : Groups} {s : State} {g : Nat} {f : Core → Core} (h1 : Same g₀ r₀ s) (m_tw : g₀.tw = true)
    : Same g₀ r₀ (setCore s g f) := by
  unfold setCore
  repeat' first
    | with_reducible assumption | intro _ | with_reducible apply State.onTw_same | with_reducible apply ite_same
    | with_reducible apply foldl_same | (refine Same.ofSnd (by assumption) ?_) | dsimp only | split

theorem addColumn_same {r₀ : State} {g₀ : Groups} {s : State} {g : Nat} {pl : Nat × Nat × Nat × Nat} {multi first : Bool}
    {ps : List Val} (h1 : Same g₀ r₀ s) (m_regs : g₀.regs = true) (m_tw : g₀.tw = true) (m_sounds : g₀.sounds = true)
    (m_seqNo : g₀.seqNo = true) : Same g₀ r₀ (addColumn s g pl multi first ps) := by
  unfold addColumn
  repeat' first
    | with_reducible assumption | intro _ | with_reducible apply addLane_same | with_reducible apply flagLane_same
    | with_reducible apply bumpCore_same | with_reducible apply ite_same | with_reducible apply foldl_same
    | (refine Same.ofSnd (by assumption) ?_) | dsimp only | split

theorem rowColumns_same {r₀ : State} {g₀ : Groups} {s : State} {o : MatmulOp} {compat : Bool} {i : Nat} {av : List Val} {a5 : Nat}
    {a6 : List (List Val)} (h1 : Same g₀ r₀ s) (m_regs : g₀.regs = true) (m_tw : g₀.tw = true) (m_sounds : g₀.sounds = true)
    (m_seqNo : g₀.seqNo = true) : Same g₀ r₀ (rowColumns s o compat i av a5 a6) := by
  induction a6 generalizing s a5 with
  | nil =>
    unfold rowColumns
    repeat' first
      | with_reducible assumption | intro _ | with_reducible apply addColumn_same | with_reducible apply flagLane_same
      | with_reducible apply State.onTw_same | with_reducible apply ite_same | with_reducible apply foldl_same
      | (refine Same.ofSnd (by assumption) ?_) | dsimp only | split
  | cons _ _ ih =>
    unfold rowColumns
    repeat' first
      | with_reducible assumption | intro _ | with_reducible apply ih | with_reducible apply addColumn_same
      | with_reducible apply flagLane_same | with_reducible apply State.onTw_same | with_reducible apply ite_same
      | with_reducible apply foldl_same | (refine Same.ofSnd (by assumption) ?_) | dsimp only | split

theorem startTile_same {r₀ : State} {g₀ : Groups} {s : State} {g : Nat} {anchor : Option Int} {t : Nat} (h1 : Same g₀ r₀ s)
    (m_tw : g₀.tw = true) : Same g₀ r₀ (startTile s g anchor t) := by
  unfold startTile
  repeat' first
    | with_reducible assumption | intro _ | with_reducible apply zeroTile_same | with_reducible apply setTile_same
    | with_reducible apply ite_same | with_reducible apply foldl_same | (refine Same.ofSnd (by assumption) ?_) | dsimp only
    | split

theorem streamRows_same {r₀ : State} {g₀ : Groups} {s : State} {o : MatmulOp} {compat : Bool} {wv : List (List Val)} {a4 : Nat}
    {a5 : List (List Val)} (h1 : Same g₀ r₀ s) (m_regs : g₀.regs = true) (m_tw : g₀.tw = true) (m_sounds : g₀.sounds = true)
    (m_seqNo : g₀.seqNo = true) : Same g₀ r₀ (streamRows s o compat wv a4 a5) := by
  induction a5 generalizing s a4 with
  | nil =>
    unfold streamRows
    repeat' first
      | with_reducible assumption | intro _ | with_reducible apply rowColumns_same | with_reducible apply countTerms_same
      | with_reducible apply ite_same | with_reducible apply foldl_same | (refine Same.ofSnd (by assumption) ?_) | dsimp only
      | split
  | cons _ _ ih =>
    unfold streamRows
    repeat' first
      | with_reducible assumption | intro _ | with_reducible apply ih | with_reducible apply rowColumns_same
      | with_reducible apply countTerms_same | with_reducible apply ite_same | with_reducible apply foldl_same
      | (refine Same.ofSnd (by assumption) ?_) | dsimp only | split

end Sys2Proof.Machine
end

