-- ==== Sys2Proof/Laws/SameFaultOps.lean ====
section
/-!
SUPPORT. What the definitions of Machine/FaultOps.lean may change (Laws/Same.lean).
-/

set_option linter.all false

namespace Sys2Proof.Machine

open Sys2Proof

theorem setRPort_same {r₀ : State} {g₀ : Groups} {s : State} {d : Nat} {f : RPort → RPort} (h1 : Same g₀ r₀ s)
    (m_pkg : g₀.pkg = true) (m_rings : g₀.rings = true) : Same g₀ r₀ (setRPort s d f) := by
  unfold setRPort
  repeat' first
    | with_reducible assumption | intro _ | with_reducible apply State.onRings_same | with_reducible apply legendUpdate_same
    | with_reducible apply ite_same | with_reducible apply foldl_same | (refine Same.ofSnd (by assumption) ?_) | dsimp only
    | split

theorem closeDim_same {r₀ : State} {g₀ : Groups} {s : State} {dim : Nat} (h1 : Same g₀ r₀ s) (m_pkg : g₀.pkg = true)
    (m_rings : g₀.rings = true) : Same g₀ r₀ (closeDim s dim) := by
  unfold closeDim
  repeat' first
    | with_reducible assumption | intro _ | with_reducible apply State.onRings_same | with_reducible apply setRPort_same
    | with_reducible apply ite_same | with_reducible apply foldl_same | (refine Same.ofSnd (by assumption) ?_) | dsimp only
    | split

theorem addCause_same {r₀ : State} {g₀ : Groups} {s : State} {c : Nat} (h1 : Same g₀ r₀ s) (m_pkg : g₀.pkg = true)
    (m_rings : g₀.rings = true) : Same g₀ r₀ (addCause s c) := by
  unfold addCause
  repeat' first
    | with_reducible assumption | intro _ | with_reducible apply State.onRings_same | with_reducible apply closeDim_same
    | with_reducible apply ite_same | with_reducible apply foldl_same | (refine Same.ofSnd (by assumption) ?_) | dsimp only
    | split

theorem fenceParty_same {r₀ : State} {g₀ : Groups} {s : State} {u : UnitId} (h1 : Same g₀ r₀ s) (m_pkg : g₀.pkg = true)
    (m_gz : g₀.gz = true) (m_tw : g₀.tw = true) (m_rings : g₀.rings = true) (m_sv : g₀.sv = true) (m_i3c : g₀.i3c = true)
    : Same g₀ r₀ (fenceParty s u) := by
  unfold fenceParty
  repeat' first
    | with_reducible assumption | intro _ | with_reducible apply addCause_same | with_reducible apply setCore_same
    | with_reducible apply State.onSv_same | with_reducible apply failPort_same | with_reducible apply ite_same
    | with_reducible apply foldl_same | (refine Same.ofSnd (by assumption) ?_) | dsimp only | split

theorem rowEntries_same {r₀ : State} {g₀ : Groups} {s : State} {k t row : Nat} {f : Entry → Option Entry} (h1 : Same g₀ r₀ s)
    (m_mu : g₀.mu = true) : Same g₀ r₀ (rowEntries s k t row f) := by
  unfold rowEntries
  repeat' first
    | with_reducible assumption | intro _ | with_reducible apply State.onMu_same | with_reducible apply ite_same
    | with_reducible apply foldl_same | (refine Same.ofSnd (by assumption) ?_) | dsimp only | split

theorem storeDir_same {r₀ : State} {g₀ : Groups} {s : State} {k t row : Nat} {e : DirEntry} (h1 : Same g₀ r₀ s)
    (m_regs : g₀.regs = true) (m_gz : g₀.gz = true) (m_mu : g₀.mu = true) (m_sounds : g₀.sounds = true)
    (m_seqNo : g₀.seqNo = true) : Same g₀ r₀ (storeDir s k t row e) := by
  unfold storeDir
  repeat' first
    | with_reducible assumption | intro _ | with_reducible apply delDir_same | with_reducible apply setDir_same
    | with_reducible apply wakePatch_same | with_reducible apply ite_same | with_reducible apply foldl_same
    | (refine Same.ofSnd (by assumption) ?_) | dsimp only | split

theorem abandonMove_same {r₀ : State} {g₀ : Groups} {s : State} {k t row : Nat} {e : DirEntry} (h1 : Same g₀ r₀ s)
    (m_free : g₀.free = true) (m_regs : g₀.regs = true) (m_gz : g₀.gz = true) (m_mu : g₀.mu = true) (m_qm : g₀.qm = true)
    (m_sounds : g₀.sounds = true) (m_seqNo : g₀.seqNo = true) : Same g₀ r₀ (abandonMove s k t row e) := by
  unfold abandonMove
  repeat' first
    | with_reducible assumption | intro _ | with_reducible apply bump_same | with_reducible apply rowEntries_same
    | with_reducible apply sendAdd_same | with_reducible apply complete_same | with_reducible apply storeDir_same
    | with_reducible apply closeRow_same | with_reducible apply ite_same | with_reducible apply foldl_same
    | (refine Same.ofSnd (by assumption) ?_) | dsimp only | split

theorem freeDirents_same {r₀ : State} {g₀ : Groups} {s : State} {dead : Nat} (h1 : Same g₀ r₀ s) (m_free : g₀.free = true)
    (m_regs : g₀.regs = true) (m_gz : g₀.gz = true) (m_mu : g₀.mu = true) (m_qm : g₀.qm = true) (m_sounds : g₀.sounds = true)
    (m_seqNo : g₀.seqNo = true) : Same g₀ r₀ (freeDirents s dead) := by
  unfold freeDirents
  repeat' first
    | with_reducible assumption | intro _ | with_reducible apply State.onMu_same | with_reducible apply bumpBy_same
    | with_reducible apply abandonMove_same | with_reducible apply markPoisoned_same | with_reducible apply ite_same
    | with_reducible apply foldl_same | (refine Same.ofSnd (by assumption) ?_) | dsimp only | split

theorem setStrm_same {r₀ : State} {g₀ : Groups} {s : State} {n : Nat} {f : Strm → Strm} (h1 : Same g₀ r₀ s)
    (m_streams : g₀.streams = true) : Same g₀ r₀ (setStrm s n f) := by
  unfold setStrm
  repeat' first
    | with_reducible assumption | intro _ | with_reducible apply State.onStreams_same | with_reducible apply ite_same
    | with_reducible apply foldl_same | (refine Same.ofSnd (by assumption) ?_) | dsimp only | split

theorem detachRecv_same {r₀ : State} {g₀ : Groups} {s : State} {r : Rec} (h1 : Same g₀ r₀ s) (m_free : g₀.free = true)
    (m_mem : g₀.mem = true) (m_regs : g₀.regs = true) (m_gz : g₀.gz = true) (m_mu : g₀.mu = true) (m_qm : g₀.qm = true)
    (m_sv : g₀.sv = true) (m_i3c : g₀.i3c = true) (m_sounds : g₀.sounds = true) (m_seqNo : g₀.seqNo = true)
    : Same g₀ r₀ (detachRecv s r) := by
  unfold detachRecv
  repeat' first
    | with_reducible assumption | intro _ | with_reducible apply bump_same | with_reducible apply setRecv_same
    | with_reducible apply State.took_same | with_reducible apply writeRecord_same | with_reducible apply ite_same
    | with_reducible apply foldl_same | (refine Same.ofSnd (by assumption) ?_) | dsimp only | split

theorem abortStream_same {r₀ : State} {g₀ : Groups} {s : State} {n st : Nat} (h1 : Same g₀ r₀ s) (m_free : g₀.free = true)
    (m_gz : g₀.gz = true) (m_tw : g₀.tw = true) (m_mu : g₀.mu = true) (m_streams : g₀.streams = true) (m_qm : g₀.qm = true)
    (m_seq : g₀.seq = true) (m_img : g₀.img = true) (m_rings : g₀.rings = true) (m_snap : g₀.snap = true) (m_sec : g₀.sec = true)
    : Same g₀ r₀ (abortStream s n st) := by
  unfold abortStream
  repeat' first
    | with_reducible assumption | intro _ | with_reducible apply setStrm_same | with_reducible apply endEarly_same
    | with_reducible apply complete_same | with_reducible apply ite_same | with_reducible apply foldl_same
    | (refine Same.ofSnd (by assumption) ?_) | dsimp only | split

theorem faultCore_same {r₀ : State} {g₀ : Groups} {s : State} {g : Nat} (h1 : Same g₀ r₀ s) (m_tw : g₀.tw = true)
    : Same g₀ r₀ (faultCore s g) := by
  unfold faultCore
  repeat' first
    | with_reducible assumption | intro _ | with_reducible apply zeroTile_same | with_reducible apply setCore_same
    | with_reducible apply State.onTw_same | with_reducible apply ite_same | with_reducible apply foldl_same
    | (refine Same.ofSnd (by assumption) ?_) | dsimp only | split

theorem dropPanelLedgers_same {r₀ : State} {g₀ : Groups} {s : State} {p : Nat} (h1 : Same g₀ r₀ s) (m_regs : g₀.regs = true)
    (m_gz : g₀.gz = true) (m_mu : g₀.mu = true) (m_sounds : g₀.sounds = true) (m_seqNo : g₀.seqNo = true)
    : Same g₀ r₀ (dropPanelLedgers s p) := by
  unfold dropPanelLedgers
  repeat' first
    | with_reducible assumption | intro _ | with_reducible apply State.onMu_same | with_reducible apply storeDir_same
    | with_reducible apply ite_same | with_reducible apply foldl_same | (refine Same.ofSnd (by assumption) ?_) | dsimp only
    | split

theorem faultPanel_same {r₀ : State} {g₀ : Groups} {s : State} {p : Nat} (h1 : Same g₀ r₀ s) (m_free : g₀.free = true)
    (m_regs : g₀.regs = true) (m_gz : g₀.gz = true) (m_tw : g₀.tw = true) (m_mu : g₀.mu = true) (m_streams : g₀.streams = true)
    (m_qm : g₀.qm = true) (m_seq : g₀.seq = true) (m_img : g₀.img = true) (m_rings : g₀.rings = true) (m_snap : g₀.snap = true)
    (m_sec : g₀.sec = true) (m_sounds : g₀.sounds = true) (m_seqNo : g₀.seqNo = true) : Same g₀ r₀ (faultPanel s p) := by
  unfold faultPanel
  repeat' first
    | with_reducible assumption | intro _ | with_reducible apply setQueue_same | with_reducible apply abortStream_same
    | with_reducible apply endFetchedAll_same | with_reducible apply endAll_same | with_reducible apply faultCore_same
    | with_reducible apply dropPanelLedgers_same | with_reducible apply ite_same | with_reducible apply foldl_same
    | (refine Same.ofSnd (by assumption) ?_) | dsimp only | split

theorem freeLeases_same {r₀ : State} {g₀ : Groups} {s : State} {u : UnitId} (h1 : Same g₀ r₀ s) (m_free : g₀.free = true)
    (m_mem : g₀.mem = true) (m_regs : g₀.regs = true) (m_gz : g₀.gz = true) (m_tw : g₀.tw = true) (m_mu : g₀.mu = true)
    (m_streams : g₀.streams = true) (m_qm : g₀.qm = true) (m_seq : g₀.seq = true) (m_img : g₀.img = true)
    (m_rings : g₀.rings = true) (m_snap : g₀.snap = true) (m_sv : g₀.sv = true) (m_sec : g₀.sec = true) (m_i3c : g₀.i3c = true)
    (m_sounds : g₀.sounds = true) (m_seqNo : g₀.seqNo = true) : Same g₀ r₀ (freeLeases s u) := by
  unfold freeLeases
  repeat' first
    | with_reducible assumption | intro _ | with_reducible apply freeDirents_same | with_reducible apply setStrm_same
    | with_reducible apply State.onGz_same | with_reducible apply detachRecv_same | with_reducible apply faultPanel_same
    | with_reducible apply ite_same | with_reducible apply foldl_same | (refine Same.ofSnd (by assumption) ?_) | dsimp only
    | split

theorem dropCause_same {r₀ : State} {g₀ : Groups} {s : State} {c : Nat} (h1 : Same g₀ r₀ s) (m_rings : g₀.rings = true)
    : Same g₀ r₀ (dropCause s c) := by
  unfold dropCause
  repeat' first
    | with_reducible assumption | intro _ | with_reducible apply State.onRings_same | with_reducible apply ite_same
    | with_reducible apply foldl_same | (refine Same.ofSnd (by assumption) ?_) | dsimp only | split

theorem startReclaim_same {r₀ : State} {g₀ : Groups} {s : State} {r : Reclaim} (h1 : Same g₀ r₀ s) (m_free : g₀.free = true)
    (m_pkg : g₀.pkg = true) (m_regs : g₀.regs = true) (m_gz : g₀.gz = true) (m_tw : g₀.tw = true) (m_mu : g₀.mu = true)
    (m_streams : g₀.streams = true) (m_qm : g₀.qm = true) (m_seq : g₀.seq = true) (m_img : g₀.img = true)
    (m_rings : g₀.rings = true) (m_snap : g₀.snap = true) (m_sv : g₀.sv = true) (m_sec : g₀.sec = true) (m_i3c : g₀.i3c = true)
    (m_sounds : g₀.sounds = true) (m_seqNo : g₀.seqNo = true) : Same g₀ r₀ (startReclaim s r) := by
  unfold startReclaim
  repeat' first
    | with_reducible assumption | intro _ | with_reducible apply bump_same | with_reducible apply faultCore_same
    | with_reducible apply faultPanel_same | with_reducible apply State.onSv_same | with_reducible apply fenceParty_same
    | with_reducible apply ite_same | with_reducible apply foldl_same | (refine Same.ofSnd (by assumption) ?_) | dsimp only
    | split

theorem endReclaim_same {r₀ : State} {g₀ : Groups} {s : State} {u : UnitId} (h1 : Same g₀ r₀ s) (m_free : g₀.free = true)
    (m_pkg : g₀.pkg = true) (m_regs : g₀.regs = true) (m_gz : g₀.gz = true) (m_tw : g₀.tw = true) (m_mu : g₀.mu = true)
    (m_streams : g₀.streams = true) (m_qm : g₀.qm = true) (m_seq : g₀.seq = true) (m_img : g₀.img = true)
    (m_rings : g₀.rings = true) (m_snap : g₀.snap = true) (m_sv : g₀.sv = true) (m_sec : g₀.sec = true) (m_i3c : g₀.i3c = true)
    (m_sounds : g₀.sounds = true) (m_seqNo : g₀.seqNo = true) : Same g₀ r₀ (endReclaim s u) := by
  unfold endReclaim
  repeat' first
    | with_reducible assumption | intro _ | with_reducible apply startReclaim_same | with_reducible apply State.onSv_same
    | with_reducible apply ite_same | with_reducible apply foldl_same | (refine Same.ofSnd (by assumption) ?_) | dsimp only
    | split

theorem resetLinkDie_same {r₀ : State} {g₀ : Groups} {s : State} {d : Nat} (h1 : Same g₀ r₀ s) (m_pkg : g₀.pkg = true)
    (m_rings : g₀.rings = true) : Same g₀ r₀ (resetLinkDie s d) := by
  unfold resetLinkDie
  repeat' first
    | with_reducible assumption | intro _ | with_reducible apply State.onRings_same | with_reducible apply setRPort_same
    | with_reducible apply ite_same | with_reducible apply foldl_same | (refine Same.ofSnd (by assumption) ?_) | dsimp only
    | split

theorem triggerReclaim_same {r₀ : State} {g₀ : Groups} {s : State} {r : Reclaim} (h1 : Same g₀ r₀ s) (m_free : g₀.free = true)
    (m_pkg : g₀.pkg = true) (m_regs : g₀.regs = true) (m_gz : g₀.gz = true) (m_tw : g₀.tw = true) (m_mu : g₀.mu = true)
    (m_streams : g₀.streams = true) (m_qm : g₀.qm = true) (m_seq : g₀.seq = true) (m_img : g₀.img = true)
    (m_rings : g₀.rings = true) (m_snap : g₀.snap = true) (m_sv : g₀.sv = true) (m_sec : g₀.sec = true) (m_i3c : g₀.i3c = true)
    (m_sounds : g₀.sounds = true) (m_seqNo : g₀.seqNo = true) : Same g₀ r₀ (triggerReclaim s r) := by
  unfold triggerReclaim
  repeat' first
    | with_reducible assumption | intro _ | with_reducible apply startReclaim_same | with_reducible apply State.onSv_same
    | with_reducible apply ite_same | with_reducible apply foldl_same | (refine Same.ofSnd (by assumption) ?_) | dsimp only
    | split

theorem faultDiePanels_same {r₀ : State} {g₀ : Groups} {s : State} {d : Nat} (h1 : Same g₀ r₀ s) (m_free : g₀.free = true)
    (m_pkg : g₀.pkg = true) (m_regs : g₀.regs = true) (m_gz : g₀.gz = true) (m_tw : g₀.tw = true) (m_mu : g₀.mu = true)
    (m_streams : g₀.streams = true) (m_qm : g₀.qm = true) (m_seq : g₀.seq = true) (m_img : g₀.img = true)
    (m_rings : g₀.rings = true) (m_snap : g₀.snap = true) (m_sv : g₀.sv = true) (m_sec : g₀.sec = true) (m_i3c : g₀.i3c = true)
    (m_sounds : g₀.sounds = true) (m_seqNo : g₀.seqNo = true) : Same g₀ r₀ (faultDiePanels s d) := by
  unfold faultDiePanels
  repeat' first
    | with_reducible assumption | intro _ | with_reducible apply triggerReclaim_same | with_reducible apply faultPanel_same
    | with_reducible apply ite_same | with_reducible apply foldl_same | (refine Same.ofSnd (by assumption) ?_) | dsimp only
    | split

theorem resetDie_same {r₀ : State} {g₀ : Groups} {s : State} {d : Nat} (h1 : Same g₀ r₀ s) (m_free : g₀.free = true)
    (m_pkg : g₀.pkg = true) (m_regs : g₀.regs = true) (m_gz : g₀.gz = true) (m_tw : g₀.tw = true) (m_mu : g₀.mu = true)
    (m_streams : g₀.streams = true) (m_qm : g₀.qm = true) (m_seq : g₀.seq = true) (m_img : g₀.img = true)
    (m_rings : g₀.rings = true) (m_snap : g₀.snap = true) (m_sv : g₀.sv = true) (m_sec : g₀.sec = true) (m_i3c : g₀.i3c = true)
    (m_sounds : g₀.sounds = true) (m_seqNo : g₀.seqNo = true) : Same g₀ r₀ (resetDie s d) := by
  unfold resetDie
  repeat' first
    | with_reducible assumption | intro _ | with_reducible apply freeDirents_same | with_reducible apply abortStream_same
    | with_reducible apply State.onMu_same | with_reducible apply addCause_same | with_reducible apply endAll_same
    | with_reducible apply resetLinkDie_same | with_reducible apply State.onGz_same | with_reducible apply legendUpdate_same
    | with_reducible apply faultDiePanels_same | with_reducible apply State.onPkg_same | with_reducible apply State.onSv_same
    | with_reducible apply State.onRegs_same | with_reducible apply ite_same | with_reducible apply foldl_same
    | (refine Same.ofSnd (by assumption) ?_) | dsimp only | split

theorem panelFaultAt_same {r₀ : State} {g₀ : Groups} {s : State} {g : Nat} (h1 : Same g₀ r₀ s) (m_free : g₀.free = true)
    (m_pkg : g₀.pkg = true) (m_regs : g₀.regs = true) (m_gz : g₀.gz = true) (m_tw : g₀.tw = true) (m_mu : g₀.mu = true)
    (m_streams : g₀.streams = true) (m_qm : g₀.qm = true) (m_seq : g₀.seq = true) (m_img : g₀.img = true)
    (m_rings : g₀.rings = true) (m_snap : g₀.snap = true) (m_sv : g₀.sv = true) (m_sec : g₀.sec = true) (m_i3c : g₀.i3c = true)
    (m_sounds : g₀.sounds = true) (m_seqNo : g₀.seqNo = true) : Same g₀ r₀ (panelFaultAt s g) := by
  unfold panelFaultAt
  repeat' first
    | with_reducible assumption | intro _ | with_reducible apply triggerReclaim_same | with_reducible apply setSticky_same
    | with_reducible apply faultPanel_same | with_reducible apply ite_same | with_reducible apply foldl_same
    | (refine Same.ofSnd (by assumption) ?_) | dsimp only | split

theorem liftFence_same {r₀ : State} {g₀ : Groups} {s : State} {u : UnitId} (h1 : Same g₀ r₀ s) (m_tw : g₀.tw = true)
    (m_sv : g₀.sv = true) : Same g₀ r₀ (liftFence s u) := by
  unfold liftFence
  repeat' first
    | with_reducible assumption | intro _ | with_reducible apply setCore_same | with_reducible apply State.onSv_same
    | with_reducible apply ite_same | with_reducible apply foldl_same | (refine Same.ofSnd (by assumption) ?_) | dsimp only
    | split

theorem resetParty_same {r₀ : State} {g₀ : Groups} {s : State} {u : UnitId} (h1 : Same g₀ r₀ s) (m_free : g₀.free = true)
    (m_pkg : g₀.pkg = true) (m_regs : g₀.regs = true) (m_gz : g₀.gz = true) (m_tw : g₀.tw = true) (m_mu : g₀.mu = true)
    (m_streams : g₀.streams = true) (m_qm : g₀.qm = true) (m_seq : g₀.seq = true) (m_img : g₀.img = true)
    (m_rings : g₀.rings = true) (m_snap : g₀.snap = true) (m_sv : g₀.sv = true) (m_sec : g₀.sec = true) (m_i3c : g₀.i3c = true)
    (m_sounds : g₀.sounds = true) (m_seqNo : g₀.seqNo = true) : Same g₀ r₀ (resetParty s u) := by
  unfold resetParty
  repeat' first
    | with_reducible assumption | intro _ | with_reducible apply abortStream_same | with_reducible apply State.onMu_same
    | with_reducible apply endAll_same | with_reducible apply liftFence_same | with_reducible apply faultCore_same
    | with_reducible apply faultPanel_same | with_reducible apply resetDie_same | with_reducible apply ite_same
    | with_reducible apply foldl_same | (refine Same.ofSnd (by assumption) ?_) | dsimp only | split

theorem showFull_same {r₀ : State} {g₀ : Groups} {s : State} {n : Nat} {r : Rec} {full : Bool} (h1 : Same g₀ r₀ s)
    (m_free : g₀.free = true) (m_regs : g₀.regs = true) (m_streams : g₀.streams = true) (m_sounds : g₀.sounds = true)
    (m_seqNo : g₀.seqNo = true) : Same g₀ r₀ (showFull s n r full) := by
  unfold showFull
  repeat' first
    | with_reducible assumption | intro _ | with_reducible apply bumpBy_same | with_reducible apply setStrm_same
    | with_reducible apply State.took_same | with_reducible apply ite_same | with_reducible apply foldl_same
    | (refine Same.ofSnd (by assumption) ?_) | dsimp only | split

end Sys2Proof.Machine
end

