-- ==== Sys2Proof/Laws/SameRingOps.lean ====
section
/-!
SUPPORT. What the definitions of Machine/RingOps.lean may change (Laws/Same.lean).
-/

set_option linter.all false

namespace Sys2Proof.Machine

open Sys2Proof

theorem dropFrame_same {r₀ : State} {g₀ : Groups} {s : State} {die tag : Nat} (h1 : Same g₀ r₀ s) (m_rings : g₀.rings = true)
    : Same g₀ r₀ (dropFrame s die tag) := by
  unfold dropFrame
  repeat' first
    | with_reducible assumption | intro _ | with_reducible apply State.onRings_same | with_reducible apply ite_same
    | with_reducible apply foldl_same | (refine Same.ofSnd (by assumption) ?_) | dsimp only | split

theorem loseRemote_same {r₀ : State} {g₀ : Groups} {s : State} {r : OutReq} {quarantine : Bool} (h1 : Same g₀ r₀ s)
    (m_free : g₀.free = true) (m_regs : g₀.regs = true) (m_gz : g₀.gz = true) (m_qm : g₀.qm = true) (m_rings : g₀.rings = true)
    (m_sounds : g₀.sounds = true) (m_seqNo : g₀.seqNo = true) : Same g₀ r₀ (loseRemote s r quarantine) := by
  unfold loseRemote
  repeat' first
    | with_reducible assumption | intro _ | with_reducible apply bump_same | with_reducible apply State.onGz_same
    | with_reducible apply answered_same | with_reducible apply dropFrame_same | with_reducible apply closeReq_same
    | with_reducible apply ite_same | with_reducible apply foldl_same | (refine Same.ofSnd (by assumption) ?_) | dsimp only
    | split

theorem setPeer_same {r₀ : State} {g₀ : Groups} {s : State} {d : Nat} {f : Peer → Peer} (h1 : Same g₀ r₀ s)
    (m_rings : g₀.rings = true) : Same g₀ r₀ (setPeer s d f) := by
  unfold setPeer
  repeat' first
    | with_reducible assumption | intro _ | with_reducible apply State.onRings_same | with_reducible apply ite_same
    | with_reducible apply foldl_same | (refine Same.ofSnd (by assumption) ?_) | dsimp only | split

theorem applyStep_same {r₀ : State} {g₀ : Groups} {s : State} {dev step : Nat} {open_ : Bool} (h1 : Same g₀ r₀ s)
    (m_rings : g₀.rings = true) : Same g₀ r₀ (applyStep s dev step open_) := by
  unfold applyStep
  repeat' first
    | with_reducible assumption | intro _ | with_reducible apply setPeer_same | with_reducible apply ite_same
    | with_reducible apply foldl_same | (refine Same.ofSnd (by assumption) ?_) | dsimp only | split

theorem applyTopo_same {r₀ : State} {g₀ : Groups} {s : State} {dev aux orig count : Nat} (h1 : Same g₀ r₀ s)
    (m_rings : g₀.rings = true) : Same g₀ r₀ (applyTopo s dev aux orig count) := by
  unfold applyTopo
  repeat' first
    | with_reducible assumption | intro _ | with_reducible apply State.onRings_same | with_reducible apply setPeer_same
    | with_reducible apply ite_same | with_reducible apply foldl_same | (refine Same.ofSnd (by assumption) ?_) | dsimp only
    | split

theorem applyAlias_same {r₀ : State} {g₀ : Groups} {s : State} {dev target : Nat} (h1 : Same g₀ r₀ s) (m_rings : g₀.rings = true)
    : Same g₀ r₀ (applyAlias s dev target) := by
  unfold applyAlias
  repeat' first
    | with_reducible assumption | intro _ | with_reducible apply setPeer_same | with_reducible apply ite_same
    | with_reducible apply foldl_same | (refine Same.ofSnd (by assumption) ?_) | dsimp only | split

theorem applyToken_same {r₀ : State} {g₀ : Groups} {s : State} {t : Token} (h1 : Same g₀ r₀ s) (m_rings : g₀.rings = true)
    : Same g₀ r₀ (applyToken s t) := by
  unfold applyToken
  repeat' first
    | with_reducible assumption | intro _ | with_reducible apply applyStep_same | with_reducible apply applyTopo_same
    | with_reducible apply applyAlias_same | with_reducible apply ite_same | with_reducible apply foldl_same
    | (refine Same.ofSnd (by assumption) ?_) | dsimp only | split

theorem flood_same {r₀ : State} {g₀ : Groups} {s : State} {t : Token} (h1 : Same g₀ r₀ s) (m_rings : g₀.rings = true)
    : Same g₀ r₀ (flood s t) := by
  unfold flood
  repeat' first
    | with_reducible assumption | intro _ | with_reducible apply State.onRings_same | with_reducible apply applyToken_same
    | with_reducible apply ite_same | with_reducible apply foldl_same | (refine Same.ofSnd (by assumption) ?_) | dsimp only
    | split

theorem floodStep_same {r₀ : State} {g₀ : Groups} {s : State} {n : Nat} {open_ : Bool} (h1 : Same g₀ r₀ s)
    (m_rings : g₀.rings = true) : Same g₀ r₀ (floodStep s n open_) := by
  unfold floodStep
  repeat' first
    | with_reducible assumption | intro _ | with_reducible apply flood_same | with_reducible apply ite_same
    | with_reducible apply foldl_same | (refine Same.ofSnd (by assumption) ?_) | dsimp only | split

theorem setEgress_same {r₀ : State} {g₀ : Groups} {s : State} {link : Nat} {l : List RingFrame} (h1 : Same g₀ r₀ s)
    (m_rings : g₀.rings = true) : Same g₀ r₀ (setEgress s link l) := by
  unfold setEgress
  repeat' first
    | with_reducible assumption | intro _ | with_reducible apply State.onRings_same | with_reducible apply ite_same
    | with_reducible apply foldl_same | (refine Same.ofSnd (by assumption) ?_) | dsimp only | split

theorem transmit_same {r₀ : State} {g₀ : Groups} {s : State} {link : Nat} {f : RingFrame} (h1 : Same g₀ r₀ s)
    (m_pkg : g₀.pkg = true) (m_rings : g₀.rings = true) : Same g₀ r₀ (transmit s link f) := by
  unfold transmit
  repeat' first
    | with_reducible assumption | intro _ | with_reducible apply setRPort_same | with_reducible apply ite_same
    | with_reducible apply foldl_same | (refine Same.ofSnd (by assumption) ?_) | dsimp only | split

theorem sendOne_same {r₀ : State} {g₀ : Groups} {s : State} {f : Flit} (h1 : Same g₀ r₀ s) (m_gz : g₀.gz = true)
    : Same g₀ r₀ (sendOne s f) := by
  unfold sendOne
  repeat' first
    | with_reducible assumption | intro _ | with_reducible apply sendAdd_same | with_reducible apply sendFlit_same
    | with_reducible apply ite_same | with_reducible apply foldl_same | (refine Same.ofSnd (by assumption) ?_) | dsimp only
    | split

theorem sendInside_same {r₀ : State} {g₀ : Groups} {s : State} {rDie : Nat} {f : Flit} (h1 : Same g₀ r₀ s) (m_gz : g₀.gz = true)
    : Same g₀ r₀ (sendInside s rDie f) := by
  unfold sendInside
  repeat' first
    | with_reducible assumption | intro _ | with_reducible apply sendOne_same | with_reducible apply refuse_same
    | with_reducible apply ite_same | with_reducible apply foldl_same | (refine Same.ofSnd (by assumption) ?_) | dsimp only
    | split

theorem leave_same {r₀ : State} {g₀ : Groups} {s : State} {link : Nat} {f : RingFrame} {x16} (e₀ : leave s link f = some x16)
    (h1 : Same g₀ r₀ s) (m_free : g₀.free = true) (m_pkg : g₀.pkg = true) (m_regs : g₀.regs = true) (m_gz : g₀.gz = true)
    (m_qm : g₀.qm = true) (m_rings : g₀.rings = true) (m_sounds : g₀.sounds = true) (m_seqNo : g₀.seqNo = true)
    : Same g₀ r₀ x16 := by
  unfold leave at e₀
  repeat' first | contradiction | (injection e₀ with e₀; subst e₀) | dsimp only at e₀ | (split at e₀)
  repeat' first
    | with_reducible assumption | intro _ | with_reducible apply setEgress_same | with_reducible apply setRPort_same
    | with_reducible apply loseRemote_same | with_reducible apply transmit_same | with_reducible apply sendInside_same
    | with_reducible apply ite_same | with_reducible apply foldl_same | (refine Same.ofSnd (by assumption) ?_) | dsimp only
    | split

theorem pumpFrames_same {r₀ : State} {g₀ : Groups} {link : Nat} {a1 : List RingFrame} {a2 : List Nat} {a3 : State}
    (h4 : Same g₀ r₀ a3) (m_free : g₀.free = true) (m_pkg : g₀.pkg = true) (m_regs : g₀.regs = true) (m_gz : g₀.gz = true)
    (m_qm : g₀.qm = true) (m_rings : g₀.rings = true) (m_sounds : g₀.sounds = true) (m_seqNo : g₀.seqNo = true)
    : Same g₀ r₀ (pumpFrames link a1 a2 a3) := by
  induction a1 generalizing a2 a3 with
  | nil =>
    unfold pumpFrames
    repeat' first
      | with_reducible assumption | intro _ | with_reducible apply ite_same | with_reducible apply foldl_same
      | (with_reducible refine leave_same (by assumption) ?_ ?_ ?_ ?_ ?_ ?_ ?_ ?_ ?_) | (refine Same.ofSnd (by assumption) ?_)
      | dsimp only | split
  | cons _ _ ih =>
    unfold pumpFrames
    repeat' first
      | with_reducible assumption | intro _ | with_reducible apply ih | with_reducible apply ite_same
      | with_reducible apply foldl_same | (with_reducible refine leave_same (by assumption) ?_ ?_ ?_ ?_ ?_ ?_ ?_ ?_ ?_)
      | (refine Same.ofSnd (by assumption) ?_) | dsimp only | split

theorem pumpLink_same {r₀ : State} {g₀ : Groups} {s : State} {link : Nat} (h1 : Same g₀ r₀ s) (m_free : g₀.free = true)
    (m_pkg : g₀.pkg = true) (m_regs : g₀.regs = true) (m_gz : g₀.gz = true) (m_qm : g₀.qm = true) (m_rings : g₀.rings = true)
    (m_sounds : g₀.sounds = true) (m_seqNo : g₀.seqNo = true) : Same g₀ r₀ (pumpLink s link) := by
  unfold pumpLink
  repeat' first
    | with_reducible assumption | intro _ | with_reducible apply pumpFrames_same | with_reducible apply ite_same
    | with_reducible apply foldl_same | (refine Same.ofSnd (by assumption) ?_) | dsimp only | split

theorem sendFrame_same {r₀ : State} {g₀ : Groups} {s : State} {link : Nat} {f : RingFrame} (h1 : Same g₀ r₀ s)
    (m_free : g₀.free = true) (m_pkg : g₀.pkg = true) (m_regs : g₀.regs = true) (m_gz : g₀.gz = true) (m_qm : g₀.qm = true)
    (m_rings : g₀.rings = true) (m_sounds : g₀.sounds = true) (m_seqNo : g₀.seqNo = true) : Same g₀ r₀ (sendFrame s link f) := by
  unfold sendFrame
  repeat' first
    | with_reducible assumption | intro _ | with_reducible apply setEgress_same | with_reducible apply pumpLink_same
    | with_reducible apply ite_same | with_reducible apply foldl_same | (refine Same.ofSnd (by assumption) ?_) | dsimp only
    | split

theorem sendRemote_same {r₀ : State} {g₀ : Groups} {s : State} {link dev rDie : Nat} {f : Flit} (h1 : Same g₀ r₀ s)
    (m_free : g₀.free = true) (m_pkg : g₀.pkg = true) (m_regs : g₀.regs = true) (m_gz : g₀.gz = true) (m_qm : g₀.qm = true)
    (m_rings : g₀.rings = true) (m_sounds : g₀.sounds = true) (m_seqNo : g₀.seqNo = true)
    : Same g₀ r₀ (sendRemote s link dev rDie f) := by
  unfold sendRemote
  repeat' first
    | with_reducible assumption | intro _ | with_reducible apply sendFrame_same | with_reducible apply ite_same
    | with_reducible apply foldl_same | (refine Same.ofSnd (by assumption) ?_) | dsimp only | split

theorem sendBack_same {r₀ : State} {g₀ : Groups} {s : State} {link : Nat} {g : Ingress} {f : Flit} (h1 : Same g₀ r₀ s)
    (m_free : g₀.free = true) (m_pkg : g₀.pkg = true) (m_regs : g₀.regs = true) (m_gz : g₀.gz = true) (m_qm : g₀.qm = true)
    (m_rings : g₀.rings = true) (m_sounds : g₀.sounds = true) (m_seqNo : g₀.seqNo = true) : Same g₀ r₀ (sendBack s link g f) := by
  unfold sendBack
  repeat' first
    | with_reducible assumption | intro _ | with_reducible apply sendRemote_same | with_reducible apply ite_same
    | with_reducible apply foldl_same | (refine Same.ofSnd (by assumption) ?_) | dsimp only | split

theorem countLost_same {r₀ : State} {g₀ : Groups} {s : State} {dev : Nat} (h1 : Same g₀ r₀ s) (m_regs : g₀.regs = true)
    (m_sounds : g₀.sounds = true) (m_seqNo : g₀.seqNo = true) : Same g₀ r₀ (countLost s dev) := by
  unfold countLost
  repeat' first
    | with_reducible assumption | intro _ | with_reducible apply bump_same | with_reducible apply ite_same
    | with_reducible apply foldl_same | (refine Same.ofSnd (by assumption) ?_) | dsimp only | split

theorem answerIngress_same {r₀ : State} {g₀ : Groups} {s : State} {g : Ingress} {f : Flit} (h1 : Same g₀ r₀ s)
    (m_free : g₀.free = true) (m_pkg : g₀.pkg = true) (m_regs : g₀.regs = true) (m_gz : g₀.gz = true) (m_qm : g₀.qm = true)
    (m_rings : g₀.rings = true) (m_sounds : g₀.sounds = true) (m_seqNo : g₀.seqNo = true) : Same g₀ r₀ (answerIngress s g f) := by
  unfold answerIngress
  repeat' first
    | with_reducible assumption | intro _ | with_reducible apply State.onRings_same | with_reducible apply sendBack_same
    | with_reducible apply closeReq_same | with_reducible apply ite_same | with_reducible apply foldl_same
    | (refine Same.ofSnd (by assumption) ?_) | dsimp only | split

theorem floodTopo_same {r₀ : State} {g₀ : Groups} {s : State} {dev aux : Nat} (h1 : Same g₀ r₀ s) (m_rings : g₀.rings = true)
    : Same g₀ r₀ (floodTopo s dev aux) := by
  unfold floodTopo
  repeat' first
    | with_reducible assumption | intro _ | with_reducible apply State.onRings_same | with_reducible apply flood_same
    | with_reducible apply ite_same | with_reducible apply foldl_same | (refine Same.ofSnd (by assumption) ?_) | dsimp only
    | split

theorem twinPortCheck_same {r₀ : State} {g₀ : Groups} {s : State} (h1 : Same g₀ r₀ s) (m_twin : g₀.twin = true)
    : Same g₀ r₀ (twinPortCheck s) := by
  unfold twinPortCheck
  repeat' first
    | with_reducible assumption | intro _ | with_reducible apply State.onTwin_same | with_reducible apply ite_same
    | with_reducible apply foldl_same | (refine Same.ofSnd (by assumption) ?_) | dsimp only | split

theorem discardKept_same {r₀ : State} {g₀ : Groups} {s : State} {link : Nat} (h1 : Same g₀ r₀ s) (m_free : g₀.free = true)
    (m_pkg : g₀.pkg = true) (m_regs : g₀.regs = true) (m_gz : g₀.gz = true) (m_qm : g₀.qm = true) (m_rings : g₀.rings = true)
    (m_sounds : g₀.sounds = true) (m_seqNo : g₀.seqNo = true) : Same g₀ r₀ (discardKept s link) := by
  unfold discardKept
  repeat' first
    | with_reducible assumption | intro _ | with_reducible apply bump_same | with_reducible apply sendBack_same
    | with_reducible apply setRPort_same | with_reducible apply loseRemote_same | with_reducible apply ite_same
    | with_reducible apply foldl_same | (refine Same.ofSnd (by assumption) ?_) | dsimp only | split

end Sys2Proof.Machine
end

