-- ==== Sys2Proof/Laws/SameJournalOps.lean ====
section
/-!
SUPPORT. What the definitions of Machine/JournalOps.lean may change (Laws/Same.lean).
-/

set_option linter.all false

namespace Sys2Proof.Machine

open Sys2Proof

theorem pairCheck_same {r₀ : State} {g₀ : Groups} {s : State} (h1 : Same g₀ r₀ s) (m_twin : g₀.twin = true)
    : Same g₀ r₀ (pairCheck s) := by
  unfold pairCheck
  repeat' first
    | with_reducible assumption | intro _ | with_reducible apply State.onTwin_same | with_reducible apply ite_same
    | with_reducible apply foldl_same | (refine Same.ofSnd (by assumption) ?_) | dsimp only | split

theorem applyRecord_same {r₀ : State} {g₀ : Groups} {s : State} {r : JRec} (h1 : Same g₀ r₀ s) (m_mem : g₀.mem = true)
    (m_regs : g₀.regs = true) (m_mu : g₀.mu = true) (m_sv : g₀.sv = true) (m_i3c : g₀.i3c = true) (m_sounds : g₀.sounds = true)
    (m_seqNo : g₀.seqNo = true) : Same g₀ r₀ (applyRecord s r) := by
  unfold applyRecord
  repeat' first
    | with_reducible assumption | intro _ | with_reducible apply writeMem_same | with_reducible apply bump_same
    | with_reducible apply ite_same | with_reducible apply foldl_same | (refine Same.ofSnd (by assumption) ?_) | dsimp only
    | split

theorem applyShadowStep_same {r₀ : State} {g₀ : Groups} {s : State} {n : Nat} (h1 : Same g₀ r₀ s) (m_mem : g₀.mem = true)
    (m_regs : g₀.regs = true) (m_mu : g₀.mu = true) (m_twin : g₀.twin = true) (m_sv : g₀.sv = true) (m_i3c : g₀.i3c = true)
    (m_sounds : g₀.sounds = true) (m_seqNo : g₀.seqNo = true) : Same g₀ r₀ (applyShadowStep s n) := by
  unfold applyShadowStep
  repeat' first
    | with_reducible assumption | intro _ | with_reducible apply State.onTwin_same | with_reducible apply pairCheck_same
    | with_reducible apply applyRecord_same | with_reducible apply ite_same | with_reducible apply foldl_same
    | (refine Same.ofSnd (by assumption) ?_) | dsimp only | split

theorem applyReady_same {r₀ : State} {g₀ : Groups} {s : State} {a1 : Nat} (h1 : Same g₀ r₀ s) (m_mem : g₀.mem = true)
    (m_regs : g₀.regs = true) (m_mu : g₀.mu = true) (m_twin : g₀.twin = true) (m_sv : g₀.sv = true) (m_i3c : g₀.i3c = true)
    (m_sounds : g₀.sounds = true) (m_seqNo : g₀.seqNo = true) : Same g₀ r₀ (applyReady s a1) := by
  induction a1 generalizing s with
  | zero =>
    unfold applyReady
    repeat' first
      | with_reducible assumption | intro _ | with_reducible apply applyShadowStep_same | with_reducible apply ite_same
      | with_reducible apply foldl_same | (refine Same.ofSnd (by assumption) ?_) | dsimp only | split
  | succ _ ih =>
    unfold applyReady
    repeat' first
      | with_reducible assumption | intro _ | with_reducible apply ih | with_reducible apply applyShadowStep_same
      | with_reducible apply ite_same | with_reducible apply foldl_same | (refine Same.ofSnd (by assumption) ?_) | dsimp only
      | split

theorem storeLog_same {r₀ : State} {g₀ : Groups} {s : State} {kind : Nat} {r : JRec} (h1 : Same g₀ r₀ s) (m_mem : g₀.mem = true)
    (m_regs : g₀.regs = true) (m_mu : g₀.mu = true) (m_twin : g₀.twin = true) (m_sv : g₀.sv = true) (m_i3c : g₀.i3c = true)
    (m_sounds : g₀.sounds = true) (m_seqNo : g₀.seqNo = true) : Same g₀ r₀ (storeLog s kind r) := by
  unfold storeLog
  repeat' first
    | with_reducible assumption | intro _ | with_reducible apply writeMem_same | with_reducible apply State.onTwin_same
    | with_reducible apply ite_same | with_reducible apply foldl_same | (refine Same.ofSnd (by assumption) ?_) | dsimp only
    | split

theorem relieveLog_same {r₀ : State} {g₀ : Groups} {s : State} (h1 : Same g₀ r₀ s) (m_mem : g₀.mem = true)
    (m_regs : g₀.regs = true) (m_mu : g₀.mu = true) (m_twin : g₀.twin = true) (m_sv : g₀.sv = true) (m_i3c : g₀.i3c = true)
    (m_sounds : g₀.sounds = true) (m_seqNo : g₀.seqNo = true) : Same g₀ r₀ (relieveLog s) := by
  unfold relieveLog
  repeat' first
    | with_reducible assumption | intro _ | with_reducible apply State.onTwin_same | with_reducible apply applyRecord_same
    | with_reducible apply ite_same | with_reducible apply foldl_same | (refine Same.ofSnd (by assumption) ?_) | dsimp only
    | split

theorem receiveJournal_same {r₀ : State} {g₀ : Groups} {s : State} {kind : Nat} {r : JRec} (h1 : Same g₀ r₀ s)
    (m_mem : g₀.mem = true) (m_regs : g₀.regs = true) (m_mu : g₀.mu = true) (m_twin : g₀.twin = true) (m_sv : g₀.sv = true)
    (m_i3c : g₀.i3c = true) (m_sounds : g₀.sounds = true) (m_seqNo : g₀.seqNo = true) : Same g₀ r₀ (receiveJournal s kind r) := by
  unfold receiveJournal
  repeat' first
    | with_reducible assumption | intro _ | with_reducible apply applyReady_same | with_reducible apply storeLog_same
    | with_reducible apply State.onTwin_same | with_reducible apply relieveLog_same | with_reducible apply applyRecord_same
    | with_reducible apply ite_same | with_reducible apply foldl_same | (refine Same.ofSnd (by assumption) ?_) | dsimp only
    | split

theorem sendRecord_same {r₀ : State} {g₀ : Groups} {s : State} {x : Nat × JRec} (h1 : Same g₀ r₀ s) (m_free : g₀.free = true)
    (m_pkg : g₀.pkg = true) (m_regs : g₀.regs = true) (m_gz : g₀.gz = true) (m_qm : g₀.qm = true) (m_rings : g₀.rings = true)
    (m_sounds : g₀.sounds = true) (m_seqNo : g₀.seqNo = true) : Same g₀ r₀ (sendRecord s x) := by
  unfold sendRecord
  repeat' first
    | with_reducible assumption | intro _ | with_reducible apply openReq_same | with_reducible apply sendRemote_same
    | with_reducible apply ite_same | with_reducible apply foldl_same | (refine Same.ofSnd (by assumption) ?_) | dsimp only
    | split

theorem pumpJournal_same {r₀ : State} {g₀ : Groups} {s : State} (h1 : Same g₀ r₀ s) (m_free : g₀.free = true)
    (m_pkg : g₀.pkg = true) (m_regs : g₀.regs = true) (m_gz : g₀.gz = true) (m_qm : g₀.qm = true) (m_rings : g₀.rings = true)
    (m_sounds : g₀.sounds = true) (m_seqNo : g₀.seqNo = true) : Same g₀ r₀ (pumpJournal s) := by
  unfold pumpJournal
  repeat' first
    | with_reducible assumption | intro _ | with_reducible apply sendRecord_same | with_reducible apply ite_same
    | with_reducible apply foldl_same | (refine Same.ofSnd (by assumption) ?_) | dsimp only | split

theorem appendJournal_same {r₀ : State} {g₀ : Groups} {s : State} {kind k holding step offset : Nat} {data : List Byte}
    (h1 : Same g₀ r₀ s) (m_free : g₀.free = true) (m_pkg : g₀.pkg = true) (m_regs : g₀.regs = true) (m_gz : g₀.gz = true)
    (m_qm : g₀.qm = true) (m_rings : g₀.rings = true) (m_twin : g₀.twin = true) (m_sounds : g₀.sounds = true)
    (m_seqNo : g₀.seqNo = true) : Same g₀ r₀ (appendJournal s kind k holding step offset data) := by
  unfold appendJournal
  repeat' first
    | with_reducible assumption | intro _ | with_reducible apply bumpBy_same | with_reducible apply pumpJournal_same
    | with_reducible apply State.took_same | with_reducible apply State.onTwin_same | with_reducible apply ite_same
    | with_reducible apply foldl_same | (refine Same.ofSnd (by assumption) ?_) | dsimp only | split

theorem baseRange_same {r₀ : State} {g₀ : Groups} {k id start a3 a4 a5 : Nat} {a6 : State} (h7 : Same g₀ r₀ a6)
    (m_free : g₀.free = true) (m_pkg : g₀.pkg = true) (m_regs : g₀.regs = true) (m_gz : g₀.gz = true) (m_qm : g₀.qm = true)
    (m_rings : g₀.rings = true) (m_twin : g₀.twin = true) (m_sounds : g₀.sounds = true) (m_seqNo : g₀.seqNo = true)
    : Same g₀ r₀ (baseRange k id start a3 a4 a5 a6) := by
  induction a3 generalizing a4 a5 a6 with
  | zero =>
    unfold baseRange
    repeat' first
      | with_reducible assumption | intro _ | with_reducible apply appendJournal_same | with_reducible apply ite_same
      | with_reducible apply foldl_same | (refine Same.ofSnd (by assumption) ?_) | dsimp only | split
  | succ _ ih =>
    unfold baseRange
    repeat' first
      | with_reducible assumption | intro _ | with_reducible apply ih | with_reducible apply appendJournal_same
      | with_reducible apply ite_same | with_reducible apply foldl_same | (refine Same.ofSnd (by assumption) ?_) | dsimp only
      | split

theorem sendBase_same {r₀ : State} {g₀ : Groups} {s : State} (h1 : Same g₀ r₀ s) (m_free : g₀.free = true) (m_pkg : g₀.pkg = true)
    (m_regs : g₀.regs = true) (m_gz : g₀.gz = true) (m_qm : g₀.qm = true) (m_rings : g₀.rings = true) (m_twin : g₀.twin = true)
    (m_sounds : g₀.sounds = true) (m_seqNo : g₀.seqNo = true) : Same g₀ r₀ (sendBase s) := by
  unfold sendBase
  repeat' first
    | with_reducible assumption | intro _ | with_reducible apply baseRange_same | with_reducible apply appendJournal_same
    | with_reducible apply State.onTwin_same | with_reducible apply ite_same | with_reducible apply foldl_same
    | (refine Same.ofSnd (by assumption) ?_) | dsimp only | split

theorem enterBase_same {r₀ : State} {g₀ : Groups} {s : State} {st : Nat} {send : Bool} (h1 : Same g₀ r₀ s)
    (m_free : g₀.free = true) (m_pkg : g₀.pkg = true) (m_regs : g₀.regs = true) (m_gz : g₀.gz = true) (m_qm : g₀.qm = true)
    (m_rings : g₀.rings = true) (m_twin : g₀.twin = true) (m_sounds : g₀.sounds = true) (m_seqNo : g₀.seqNo = true)
    : Same g₀ r₀ (enterBase s st send) := by
  unfold enterBase
  repeat' first
    | with_reducible assumption | intro _ | with_reducible apply State.onTwin_same | with_reducible apply sendBase_same
    | with_reducible apply ite_same | with_reducible apply foldl_same | (refine Same.ofSnd (by assumption) ?_) | dsimp only
    | split

theorem journalEnd_same {r₀ : State} {g₀ : Groups} {s : State} {k n : Nat} (h1 : Same g₀ r₀ s) (m_free : g₀.free = true)
    (m_pkg : g₀.pkg = true) (m_regs : g₀.regs = true) (m_gz : g₀.gz = true) (m_qm : g₀.qm = true) (m_rings : g₀.rings = true)
    (m_twin : g₀.twin = true) (m_sounds : g₀.sounds = true) (m_seqNo : g₀.seqNo = true) : Same g₀ r₀ (journalEnd s k n) := by
  unfold journalEnd
  repeat' first
    | with_reducible assumption | intro _ | with_reducible apply appendJournal_same | with_reducible apply ite_same
    | with_reducible apply foldl_same | (refine Same.ofSnd (by assumption) ?_) | dsimp only | split

theorem journalWrite_same {r₀ : State} {g₀ : Groups} {s : State} {k a step : Nat} {bs : List Byte} (h1 : Same g₀ r₀ s)
    (m_free : g₀.free = true) (m_pkg : g₀.pkg = true) (m_regs : g₀.regs = true) (m_gz : g₀.gz = true) (m_qm : g₀.qm = true)
    (m_rings : g₀.rings = true) (m_twin : g₀.twin = true) (m_sounds : g₀.sounds = true) (m_seqNo : g₀.seqNo = true)
    : Same g₀ r₀ (journalWrite s k a step bs) := by
  unfold journalWrite
  repeat' first
    | with_reducible assumption | intro _ | with_reducible apply appendJournal_same | with_reducible apply ite_same
    | with_reducible apply foldl_same | (refine Same.ofSnd (by assumption) ?_) | dsimp only | split

end Sys2Proof.Machine
end

