-- ==== Sys2Proof/Laws/SameSecOps.lean ====
section
/-!
SUPPORT. What the definitions of Machine/SecOps.lean may change (Laws/Same.lean).
-/

set_option linter.all false

namespace Sys2Proof.Machine

open Sys2Proof

theorem appendAlm_same {r₀ : State} {g₀ : Groups} {s : State} {id version : Nat} {data : List Byte} (h1 : Same g₀ r₀ s)
    (m_sec : g₀.sec = true) : Same g₀ r₀ (appendAlm s id version data) := by
  unfold appendAlm
  repeat' first
    | with_reducible assumption | intro _ | with_reducible apply State.onSec_same | with_reducible apply ite_same
    | with_reducible apply foldl_same | (refine Same.ofSnd (by assumption) ?_) | dsimp only | split

theorem acceptCounter_same {r₀ : State} {g₀ : Groups} {s : State} {slot : Nat} {k : Key} {ctr : Nat} (h1 : Same g₀ r₀ s)
    (m_sec : g₀.sec = true) : Same g₀ r₀ (acceptCounter s slot k ctr) := by
  unfold acceptCounter
  repeat' first
    | with_reducible assumption | intro _ | with_reducible apply appendAlm_same | with_reducible apply State.onSec_same
    | with_reducible apply ite_same | with_reducible apply foldl_same | (refine Same.ofSnd (by assumption) ?_) | dsimp only
    | split

theorem critical_same {r₀ : State} {g₀ : Groups} {s : State} {h : Hdr} {t : Trailer} {body : State → State} (h1 : Same g₀ r₀ s)
    (h4 : (∀ (y04 : State), Same g₀ r₀ y04 → Same g₀ r₀ (body y04))) (m_free : g₀.free = true) (m_qm : g₀.qm = true)
    (m_sec : g₀.sec = true) : Same g₀ r₀ (critical s h t body) := by
  unfold critical
  repeat' first
    | with_reducible assumption | intro _ | with_reducible apply complete_same | with_reducible apply runDesc_same
    | with_reducible apply acceptCounter_same | with_reducible apply h4 | with_reducible apply ite_same
    | with_reducible apply foldl_same | (refine Same.ofSnd (by assumption) ?_) | dsimp only | split

theorem restoreFw_same {r₀ : State} {g₀ : Groups} {s : State} {ok : Bool} (h1 : Same g₀ r₀ s) (m_sv : g₀.sv = true)
    (m_sec : g₀.sec = true) (m_i3c : g₀.i3c = true) : Same g₀ r₀ (restoreFw s ok) := by
  unfold restoreFw
  repeat' first
    | with_reducible assumption | intro _ | with_reducible apply State.onSec_same | with_reducible apply setSticky_same
    | with_reducible apply ite_same | with_reducible apply foldl_same | (refine Same.ofSnd (by assumption) ?_) | dsimp only
    | split

theorem migrateAlm_same {r₀ : State} {g₀ : Groups} {s : State} (h1 : Same g₀ r₀ s) (m_sec : g₀.sec = true)
    : Same g₀ r₀ (migrateAlm s) := by
  unfold migrateAlm
  repeat' first
    | with_reducible assumption | intro _ | with_reducible apply appendAlm_same | with_reducible apply State.onSec_same
    | with_reducible apply ite_same | with_reducible apply foldl_same | (refine Same.ofSnd (by assumption) ?_) | dsimp only
    | split

theorem requestWarm_same {r₀ : State} {g₀ : Groups} {s : State} {cause : Nat} (h1 : Same g₀ r₀ s) (m_sv : g₀.sv = true)
    : Same g₀ r₀ (requestWarm s cause) := by
  unfold requestWarm
  repeat' first
    | with_reducible assumption | intro _ | with_reducible apply State.onSv_same | with_reducible apply ite_same
    | with_reducible apply foldl_same | (refine Same.ofSnd (by assumption) ?_) | dsimp only | split

theorem confirmFw_same {r₀ : State} {g₀ : Groups} {s : State} (h1 : Same g₀ r₀ s) (m_sec : g₀.sec = true)
    : Same g₀ r₀ (confirmFw s) := by
  unfold confirmFw
  repeat' first
    | with_reducible assumption | intro _ | with_reducible apply appendAlm_same | with_reducible apply State.onSec_same
    | with_reducible apply ite_same | with_reducible apply foldl_same | (refine Same.ofSnd (by assumption) ?_) | dsimp only
    | split

end Sys2Proof.Machine
end

