-- ==== Sys2Proof/Laws/SameRegOps.lean ====
section
/-!
SUPPORT. What the definitions of Machine/RegOps.lean may change (Laws/Same.lean).
-/

set_option linter.all false

namespace Sys2Proof.Machine

open Sys2Proof

theorem badDoorbell_same {r₀ : State} {g₀ : Groups} {s : State} (h1 : Same g₀ r₀ s) (m_regs : g₀.regs = true)
    (m_sv : g₀.sv = true) (m_i3c : g₀.i3c = true) (m_sounds : g₀.sounds = true) (m_seqNo : g₀.seqNo = true)
    : Same g₀ r₀ (badDoorbell s) := by
  unfold badDoorbell
  repeat' first
    | with_reducible assumption | intro _ | with_reducible apply bump_same | with_reducible apply setSticky_same
    | with_reducible apply ite_same | with_reducible apply foldl_same | (refine Same.ofSnd (by assumption) ?_) | dsimp only
    | split

theorem ringDoorbell_same {r₀ : State} {g₀ : Groups} {s : State} {q v : Nat} (h1 : Same g₀ r₀ s) (m_regs : g₀.regs = true)
    (m_qm : g₀.qm = true) (m_sv : g₀.sv = true) (m_i3c : g₀.i3c = true) (m_sounds : g₀.sounds = true) (m_seqNo : g₀.seqNo = true)
    : Same g₀ r₀ (ringDoorbell s q v) := by
  unfold ringDoorbell
  repeat' first
    | with_reducible assumption | intro _ | with_reducible apply setQueue_same | with_reducible apply badDoorbell_same
    | with_reducible apply ite_same | with_reducible apply foldl_same | (refine Same.ofSnd (by assumption) ?_) | dsimp only
    | split

theorem writeCounter_same {r₀ : State} {g₀ : Groups} {s : State} {d off v : Nat} (h1 : Same g₀ r₀ s) (m_regs : g₀.regs = true)
    : Same g₀ r₀ (writeCounter s d off v) := by
  unfold writeCounter
  repeat' first
    | with_reducible assumption | intro _ | with_reducible apply State.onRegs_same | with_reducible apply ite_same
    | with_reducible apply foldl_same | (refine Same.ofSnd (by assumption) ?_) | dsimp only | split

theorem countRecovery_same {r₀ : State} {g₀ : Groups} {s : State} (h1 : Same g₀ r₀ s) (m_sv : g₀.sv = true)
    (m_sounds : g₀.sounds = true) (m_seqNo : g₀.seqNo = true) : Same g₀ r₀ (countRecovery s) := by
  unfold countRecovery
  repeat' first
    | with_reducible assumption | intro _ | with_reducible apply emitSounding_same | with_reducible apply State.onSv_same
    | with_reducible apply ite_same | with_reducible apply foldl_same | (refine Same.ofSnd (by assumption) ?_) | dsimp only
    | split

theorem mboxDone_same {r₀ : State} {g₀ : Groups} {s : State} {lo hi : Nat} (h1 : Same g₀ r₀ s) (m_qm : g₀.qm = true)
    (m_host : g₀.host = true) : Same g₀ r₀ (mboxDone s lo hi) := by
  unfold mboxDone
  repeat' first
    | with_reducible assumption | intro _ | with_reducible apply State.onHost_same | with_reducible apply State.onQm_same
    | with_reducible apply ite_same | with_reducible apply foldl_same | (refine Same.ofSnd (by assumption) ?_) | dsimp only
    | split

theorem expireArmed_same {r₀ : State} {g₀ : Groups} {s : State} {d : Nat} (h1 : Same g₀ r₀ s) (m_free : g₀.free = true)
    (m_regs : g₀.regs = true) (m_gz : g₀.gz = true) (m_tw : g₀.tw = true) (m_mu : g₀.mu = true) (m_streams : g₀.streams = true)
    (m_qm : g₀.qm = true) (m_seq : g₀.seq = true) (m_img : g₀.img = true) (m_rings : g₀.rings = true) (m_snap : g₀.snap = true)
    (m_sv : g₀.sv = true) (m_sec : g₀.sec = true) (m_i3c : g₀.i3c = true) (m_sounds : g₀.sounds = true)
    (m_seqNo : g₀.seqNo = true) : Same g₀ r₀ (expireArmed s d) := by
  unfold expireArmed
  repeat' first
    | with_reducible assumption | intro _ | with_reducible apply countExpiry_same | with_reducible apply endEarly_same
    | with_reducible apply ite_same | with_reducible apply foldl_same | (refine Same.ofSnd (by assumption) ?_) | dsimp only
    | split

theorem expireErred_same {r₀ : State} {g₀ : Groups} {s : State} (h1 : Same g₀ r₀ s) (m_free : g₀.free = true)
    (m_regs : g₀.regs = true) (m_gz : g₀.gz = true) (m_tw : g₀.tw = true) (m_mu : g₀.mu = true) (m_streams : g₀.streams = true)
    (m_qm : g₀.qm = true) (m_seq : g₀.seq = true) (m_img : g₀.img = true) (m_rings : g₀.rings = true) (m_snap : g₀.snap = true)
    (m_sv : g₀.sv = true) (m_sec : g₀.sec = true) (m_i3c : g₀.i3c = true) (m_sounds : g₀.sounds = true)
    (m_seqNo : g₀.seqNo = true) : Same g₀ r₀ (expireErred s) := by
  unfold expireErred
  repeat' first
    | with_reducible assumption | intro _ | with_reducible apply expireArmed_same | with_reducible apply ite_same
    | with_reducible apply foldl_same | (refine Same.ofSnd (by assumption) ?_) | dsimp only | split

theorem clearSticky_same {r₀ : State} {g₀ : Groups} {s : State} {l : List Nat} (h1 : Same g₀ r₀ s) (m_sv : g₀.sv = true)
    (m_sounds : g₀.sounds = true) (m_seqNo : g₀.seqNo = true) : Same g₀ r₀ (clearSticky s l) := by
  unfold clearSticky
  repeat' first
    | with_reducible assumption | intro _ | with_reducible apply countRecovery_same | with_reducible apply State.onSv_same
    | with_reducible apply ite_same | with_reducible apply foldl_same | (refine Same.ofSnd (by assumption) ?_) | dsimp only
    | split

theorem writeFaultClear_same {r₀ : State} {g₀ : Groups} {s : State} {i v : Nat} (h1 : Same g₀ r₀ s) (m_sv : g₀.sv = true)
    (m_sounds : g₀.sounds = true) (m_seqNo : g₀.seqNo = true) : Same g₀ r₀ (writeFaultClear s i v) := by
  unfold writeFaultClear
  repeat' first
    | with_reducible assumption | intro _ | with_reducible apply clearSticky_same | with_reducible apply ite_same
    | with_reducible apply foldl_same | (refine Same.ofSnd (by assumption) ?_) | dsimp only | split

theorem snapStall_same {r₀ : State} {g₀ : Groups} {s : State} (h1 : Same g₀ r₀ s) (m_free : g₀.free = true)
    (m_regs : g₀.regs = true) (m_sounds : g₀.sounds = true) (m_seqNo : g₀.seqNo = true) : Same g₀ r₀ (snapStall s) := by
  unfold snapStall
  repeat' first
    | with_reducible assumption | intro _ | with_reducible apply bumpBy_same | with_reducible apply State.took_same
    | with_reducible apply ite_same | with_reducible apply foldl_same | (refine Same.ofSnd (by assumption) ?_) | dsimp only
    | split

theorem writeQctl_same {r₀ : State} {g₀ : Groups} {s : State} {v : Nat} (h1 : Same g₀ r₀ s) (m_qm : g₀.qm = true)
    : Same g₀ r₀ (writeQctl s v) := by
  unfold writeQctl
  repeat' first
    | with_reducible assumption | intro _ | with_reducible apply setQueue_same | with_reducible apply ite_same
    | with_reducible apply foldl_same | (refine Same.ofSnd (by assumption) ?_) | dsimp only | split

theorem writeWarmReq_same {r₀ : State} {g₀ : Groups} {s : State} {a : Agent} {v : Nat} (h1 : Same g₀ r₀ s) (m_sv : g₀.sv = true)
    : Same g₀ r₀ (writeWarmReq s a v) := by
  unfold writeWarmReq
  repeat' first
    | with_reducible assumption | intro _ | with_reducible apply requestWarm_same | with_reducible apply ite_same
    | with_reducible apply foldl_same | (refine Same.ofSnd (by assumption) ?_) | dsimp only | split

theorem sampleDatum_same {r₀ : State} {g₀ : Groups} {s : State} {bad : Bool} {n d : Nat} (h1 : Same g₀ r₀ s)
    (m_free : g₀.free = true) (m_regs : g₀.regs = true) (m_gz : g₀.gz = true) (m_ck : g₀.ck = true) (m_tw : g₀.tw = true)
    (m_mu : g₀.mu = true) (m_streams : g₀.streams = true) (m_qm : g₀.qm = true) (m_seq : g₀.seq = true) (m_img : g₀.img = true)
    (m_rings : g₀.rings = true) (m_snap : g₀.snap = true) (m_sv : g₀.sv = true) (m_sec : g₀.sec = true) (m_i3c : g₀.i3c = true)
    (m_sounds : g₀.sounds = true) (m_seqNo : g₀.seqNo = true) : Same g₀ r₀ (sampleDatum s bad n d) := by
  unfold sampleDatum
  repeat' first
    | with_reducible assumption | intro _ | with_reducible apply State.onCk_same | with_reducible apply setSticky_same
    | with_reducible apply expireArmed_same | with_reducible apply State.onQm_same | with_reducible apply ite_same
    | with_reducible apply foldl_same | (refine Same.ofSnd (by assumption) ?_) | dsimp only | split

theorem datumSampled_same {r₀ : State} {g₀ : Groups} {s : State} {bad : List Nat} {n : Nat} (h1 : Same g₀ r₀ s)
    (m_free : g₀.free = true) (m_regs : g₀.regs = true) (m_gz : g₀.gz = true) (m_ck : g₀.ck = true) (m_tw : g₀.tw = true)
    (m_mu : g₀.mu = true) (m_streams : g₀.streams = true) (m_qm : g₀.qm = true) (m_seq : g₀.seq = true) (m_img : g₀.img = true)
    (m_rings : g₀.rings = true) (m_snap : g₀.snap = true) (m_sv : g₀.sv = true) (m_sec : g₀.sec = true) (m_i3c : g₀.i3c = true)
    (m_sounds : g₀.sounds = true) (m_seqNo : g₀.seqNo = true) : Same g₀ r₀ (datumSampled s bad n) := by
  unfold datumSampled
  repeat' first
    | with_reducible assumption | intro _ | with_reducible apply sampleDatum_same | with_reducible apply State.onCk_same
    | with_reducible apply ite_same | with_reducible apply foldl_same | (refine Same.ofSnd (by assumption) ?_) | dsimp only
    | split

theorem dropRequests_same {r₀ : State} {g₀ : Groups} {s : State} {n : Nat} (h1 : Same g₀ r₀ s) (m_ck : g₀.ck = true)
    (m_sounds : g₀.sounds = true) (m_seqNo : g₀.seqNo = true) : Same g₀ r₀ (dropRequests s n) := by
  unfold dropRequests
  repeat' first
    | with_reducible assumption | intro _ | with_reducible apply emitSounding_same | with_reducible apply State.onCk_same
    | with_reducible apply ite_same | with_reducible apply foldl_same | (refine Same.ofSnd (by assumption) ?_) | dsimp only
    | split

theorem resyncDatum_same {r₀ : State} {g₀ : Groups} {s : State} (h1 : Same g₀ r₀ s) (m_free : g₀.free = true)
    (m_regs : g₀.regs = true) (m_gz : g₀.gz = true) (m_ck : g₀.ck = true) (m_tw : g₀.tw = true) (m_mu : g₀.mu = true)
    (m_streams : g₀.streams = true) (m_qm : g₀.qm = true) (m_seq : g₀.seq = true) (m_img : g₀.img = true)
    (m_rings : g₀.rings = true) (m_snap : g₀.snap = true) (m_sv : g₀.sv = true) (m_sec : g₀.sec = true) (m_i3c : g₀.i3c = true)
    (m_sounds : g₀.sounds = true) (m_seqNo : g₀.seqNo = true) : Same g₀ r₀ (resyncDatum s) := by
  unfold resyncDatum
  repeat' first
    | with_reducible assumption | intro _ | with_reducible apply expireErred_same | with_reducible apply State.onCk_same
    | with_reducible apply datumSampled_same | with_reducible apply dropRequests_same | with_reducible apply expireArmed_same
    | with_reducible apply ite_same | with_reducible apply foldl_same | (refine Same.ofSnd (by assumption) ?_) | dsimp only
    | split

theorem writeTcCredit_same {r₀ : State} {g₀ : Groups} {s : State} {d : Nat} {a : Agent} {v : Nat} (h1 : Same g₀ r₀ s)
    (m_gz : g₀.gz = true) : Same g₀ r₀ (writeTcCredit s d a v) := by
  unfold writeTcCredit
  repeat' first
    | with_reducible assumption | intro _ | with_reducible apply State.onGz_same | with_reducible apply ite_same
    | with_reducible apply foldl_same | (refine Same.ofSnd (by assumption) ?_) | dsimp only | split

theorem postMbox_same {r₀ : State} {g₀ : Groups} {s : State} (h1 : Same g₀ r₀ s) (m_free : g₀.free = true) (m_mem : g₀.mem = true)
    (m_regs : g₀.regs = true) (m_mu : g₀.mu = true) (m_qm : g₀.qm = true) (m_sv : g₀.sv = true) (m_host : g₀.host = true)
    (m_i3c : g₀.i3c = true) (m_sounds : g₀.sounds = true) (m_seqNo : g₀.seqNo = true) : Same g₀ r₀ (postMbox s) := by
  unfold postMbox
  repeat' first
    | with_reducible assumption | intro _ | with_reducible apply setQueue_same | with_reducible apply writeMem_same
    | with_reducible apply mboxDone_same | with_reducible apply State.onHost_same | with_reducible apply State.took_same
    | with_reducible apply ite_same | with_reducible apply foldl_same | (refine Same.ofSnd (by assumption) ?_) | dsimp only
    | split

theorem writeRhead_same {r₀ : State} {g₀ : Groups} {s : State} {v : Nat} (h1 : Same g₀ r₀ s) (m_regs : g₀.regs = true)
    (m_qm : g₀.qm = true) (m_sounds : g₀.sounds = true) (m_seqNo : g₀.seqNo = true) : Same g₀ r₀ (writeRhead s v) := by
  unfold writeRhead
  repeat' first
    | with_reducible assumption | intro _ | with_reducible apply bump_same | with_reducible apply setRing_same
    | with_reducible apply ite_same | with_reducible apply foldl_same | (refine Same.ofSnd (by assumption) ?_) | dsimp only
    | split

theorem writeGzCtl_same {r₀ : State} {g₀ : Groups} {s : State} {d v : Nat} (h1 : Same g₀ r₀ s) (m_gz : g₀.gz = true)
    : Same g₀ r₀ (writeGzCtl s d v) := by
  unfold writeGzCtl
  repeat' first
    | with_reducible assumption | intro _ | with_reducible apply State.onGz_same | with_reducible apply ite_same
    | with_reducible apply foldl_same | (refine Same.ofSnd (by assumption) ?_) | dsimp only | split

theorem writeInject_same {r₀ : State} {g₀ : Groups} {s : State} {v : Nat} (h1 : Same g₀ r₀ s) (m_tw : g₀.tw = true)
    (m_mu : g₀.mu = true) (m_sv : g₀.sv = true) (m_i3c : g₀.i3c = true) : Same g₀ r₀ (writeInject s v) := by
  unfold writeInject
  repeat' first
    | with_reducible assumption | intro _ | with_reducible apply State.onMu_same | with_reducible apply setSticky_same
    | with_reducible apply State.onTw_same | with_reducible apply State.onSv_same | with_reducible apply ite_same
    | with_reducible apply foldl_same | (refine Same.ofSnd (by assumption) ?_) | dsimp only | split

theorem writePanelRst_same {r₀ : State} {g₀ : Groups} {s : State} {v : Nat} (h1 : Same g₀ r₀ s) (m_regs : g₀.regs = true)
    (m_sv : g₀.sv = true) : Same g₀ r₀ (writePanelRst s v) := by
  unfold writePanelRst
  repeat' first
    | with_reducible assumption | intro _ | with_reducible apply regSet_same | with_reducible apply State.onSv_same
    | with_reducible apply ite_same | with_reducible apply foldl_same | (refine Same.ofSnd (by assumption) ?_) | dsimp only
    | split

theorem restartCore_same {r₀ : State} {g₀ : Groups} {s : State} {g : Nat} (h1 : Same g₀ r₀ s) (m_tw : g₀.tw = true)
    (m_mu : g₀.mu = true) : Same g₀ r₀ (restartCore s g) := by
  unfold restartCore
  repeat' first
    | with_reducible assumption | intro _ | with_reducible apply State.onMu_same | with_reducible apply zeroTile_same
    | with_reducible apply State.onTw_same | with_reducible apply ite_same | with_reducible apply foldl_same
    | (refine Same.ofSnd (by assumption) ?_) | dsimp only | split

theorem resetPanel_same {r₀ : State} {g₀ : Groups} {s : State} {p : Nat} (h1 : Same g₀ r₀ s) (m_gz : g₀.gz = true)
    (m_tw : g₀.tw = true) (m_mu : g₀.mu = true) (m_streams : g₀.streams = true) (m_qm : g₀.qm = true) (m_sv : g₀.sv = true)
    : Same g₀ r₀ (resetPanel s p) := by
  unfold resetPanel
  repeat' first
    | with_reducible assumption | intro _ | with_reducible apply setQueue_same | with_reducible apply State.onMu_same
    | with_reducible apply restartCore_same | with_reducible apply setStrm_same | with_reducible apply State.onGz_same
    | with_reducible apply liftFence_same | with_reducible apply releaseSlot_same | with_reducible apply ite_same
    | with_reducible apply foldl_same | (refine Same.ofSnd (by assumption) ?_) | dsimp only | split

theorem jumpRemote_same {r₀ : State} {g₀ : Groups} {s : State} {m : Rec} {j : Nat} (h1 : Same g₀ r₀ s) (m_rings : g₀.rings = true)
    : Same g₀ r₀ (jumpRemote s m j) := by
  unfold jumpRemote
  repeat' first
    | with_reducible assumption | intro _ | with_reducible apply State.onRings_same | with_reducible apply ite_same
    | with_reducible apply foldl_same | (refine Same.ofSnd (by assumption) ?_) | dsimp only | split

theorem writeMcCtl_same {r₀ : State} {g₀ : Groups} {s : State} {d v : Nat} (h1 : Same g₀ r₀ s) (m_gz : g₀.gz = true)
    (m_qm : g₀.qm = true) (m_rings : g₀.rings = true) : Same g₀ r₀ (writeMcCtl s d v) := by
  unfold writeMcCtl
  repeat' first
    | with_reducible assumption | intro _ | with_reducible apply jumpRemote_same | with_reducible apply setRecv_same
    | with_reducible apply reserveSlot_same | with_reducible apply ite_same | with_reducible apply foldl_same
    | (refine Same.ofSnd (by assumption) ?_) | dsimp only | split

theorem requestDatum_same {r₀ : State} {g₀ : Groups} {s : State} (h1 : Same g₀ r₀ s) (m_ck : g₀.ck = true)
    (m_sounds : g₀.sounds = true) (m_seqNo : g₀.seqNo = true) : Same g₀ r₀ (requestDatum s) := by
  unfold requestDatum
  repeat' first
    | with_reducible assumption | intro _ | with_reducible apply State.onCk_same | with_reducible apply dropRequests_same
    | with_reducible apply ite_same | with_reducible apply foldl_same | (refine Same.ofSnd (by assumption) ?_) | dsimp only
    | split

theorem writeFwConfirm_same {r₀ : State} {g₀ : Groups} {s : State} {a : Agent} {v : Nat} (h1 : Same g₀ r₀ s)
    (m_sec : g₀.sec = true) : Same g₀ r₀ (writeFwConfirm s a v) := by
  unfold writeFwConfirm
  repeat' first
    | with_reducible assumption | intro _ | with_reducible apply confirmFw_same | with_reducible apply ite_same
    | with_reducible apply foldl_same | (refine Same.ofSnd (by assumption) ?_) | dsimp only | split

theorem writeHstreamFill_same {r₀ : State} {g₀ : Groups} {s : State} {v : Nat} (h1 : Same g₀ r₀ s) (m_free : g₀.free = true)
    (m_regs : g₀.regs = true) (m_streams : g₀.streams = true) (m_sounds : g₀.sounds = true) (m_seqNo : g₀.seqNo = true)
    : Same g₀ r₀ (writeHstreamFill s v) := by
  unfold writeHstreamFill
  repeat' first
    | with_reducible assumption | intro _ | with_reducible apply bumpBy_same | with_reducible apply setStrm_same
    | with_reducible apply showFull_same | with_reducible apply ite_same | with_reducible apply foldl_same
    | (refine Same.ofSnd (by assumption) ?_) | dsimp only | split

theorem writePlan_same {r₀ : State} {g₀ : Groups} {s : State} {d : Nat} {a : Agent} {v : Nat} (h1 : Same g₀ r₀ s)
    (m_ck : g₀.ck = true) : Same g₀ r₀ (writePlan s d a v) := by
  unfold writePlan
  repeat' first
    | with_reducible assumption | intro _ | with_reducible apply State.onCk_same | with_reducible apply ite_same
    | with_reducible apply foldl_same | (refine Same.ofSnd (by assumption) ?_) | dsimp only | split

theorem writeTokenIn_same {r₀ : State} {g₀ : Groups} {s : State} {d v : Nat} (h1 : Same g₀ r₀ s) (m_regs : g₀.regs = true)
    (m_rings : g₀.rings = true) : Same g₀ r₀ (writeTokenIn s d v) := by
  unfold writeTokenIn
  repeat' first
    | with_reducible assumption | intro _ | with_reducible apply applyToken_same | with_reducible apply regSet_same
    | with_reducible apply State.onRegs_same | with_reducible apply ite_same | with_reducible apply foldl_same
    | (refine Same.ofSnd (by assumption) ?_) | dsimp only | split

theorem writeDirCtl_same {r₀ : State} {g₀ : Groups} {s : State} {d v : Nat} (h1 : Same g₀ r₀ s) (m_regs : g₀.regs = true)
    : Same g₀ r₀ (writeDirCtl s d v) := by
  unfold writeDirCtl
  repeat' first
    | with_reducible assumption | intro _ | with_reducible apply regSet_same | with_reducible apply ite_same
    | with_reducible apply foldl_same | (refine Same.ofSnd (by assumption) ?_) | dsimp only | split

theorem ringWrite_same {r₀ : State} {g₀ : Groups} {s : State} {da size at_ : Nat} {a4 : List Byte} (h1 : Same g₀ r₀ s)
    (m_mem : g₀.mem = true) (m_regs : g₀.regs = true) (m_mu : g₀.mu = true) (m_sv : g₀.sv = true) (m_i3c : g₀.i3c = true)
    (m_sounds : g₀.sounds = true) (m_seqNo : g₀.seqNo = true) : Same g₀ r₀ (ringWrite s da size at_ a4) := by
  induction a4 generalizing s at_ with
  | nil =>
    unfold ringWrite
    repeat' first
      | with_reducible assumption | intro _ | with_reducible apply writeMem_same | with_reducible apply ite_same
      | with_reducible apply foldl_same | (refine Same.ofSnd (by assumption) ?_) | dsimp only | split
  | cons _ _ ih =>
    unfold ringWrite
    repeat' first
      | with_reducible assumption | intro _ | with_reducible apply ih | with_reducible apply writeMem_same
      | with_reducible apply ite_same | with_reducible apply foldl_same | (refine Same.ofSnd (by assumption) ?_) | dsimp only
      | split

theorem writeDatumCtl_same {r₀ : State} {g₀ : Groups} {s : State} {v : Nat} (h1 : Same g₀ r₀ s) (m_free : g₀.free = true)
    (m_regs : g₀.regs = true) (m_gz : g₀.gz = true) (m_ck : g₀.ck = true) (m_tw : g₀.tw = true) (m_mu : g₀.mu = true)
    (m_streams : g₀.streams = true) (m_qm : g₀.qm = true) (m_seq : g₀.seq = true) (m_img : g₀.img = true)
    (m_rings : g₀.rings = true) (m_snap : g₀.snap = true) (m_sv : g₀.sv = true) (m_sec : g₀.sec = true) (m_i3c : g₀.i3c = true)
    (m_sounds : g₀.sounds = true) (m_seqNo : g₀.seqNo = true) : Same g₀ r₀ (writeDatumCtl s v) := by
  unfold writeDatumCtl
  repeat' first
    | with_reducible assumption | intro _ | with_reducible apply requestDatum_same | with_reducible apply resyncDatum_same
    | with_reducible apply ite_same | with_reducible apply foldl_same | (refine Same.ofSnd (by assumption) ?_) | dsimp only
    | split

theorem writeCtCtl_same {r₀ : State} {g₀ : Groups} {s : State} {v : Nat} (h1 : Same g₀ r₀ s) (m_ct : g₀.ct = true)
    : Same g₀ r₀ (writeCtCtl s v) := by
  unfold writeCtCtl
  repeat' first
    | with_reducible assumption | intro _ | with_reducible apply State.onCt_same | with_reducible apply ite_same
    | with_reducible apply foldl_same | (refine Same.ofSnd (by assumption) ?_) | dsimp only | split

theorem pumpSnap_same {r₀ : State} {g₀ : Groups} {s : State} (h1 : Same g₀ r₀ s) (m_free : g₀.free = true) (m_mem : g₀.mem = true)
    (m_regs : g₀.regs = true) (m_mu : g₀.mu = true) (m_qm : g₀.qm = true) (m_snap : g₀.snap = true) (m_sv : g₀.sv = true)
    (m_i3c : g₀.i3c = true) (m_sounds : g₀.sounds = true) (m_seqNo : g₀.seqNo = true) : Same g₀ r₀ (pumpSnap s) := by
  unfold pumpSnap
  repeat' first
    | with_reducible assumption | intro _ | with_reducible apply finish_same | with_reducible apply State.onSnap_same
    | with_reducible apply ringWrite_same | with_reducible apply snapStall_same | with_reducible apply ite_same
    | with_reducible apply foldl_same | (refine Same.ofSnd (by assumption) ?_) | dsimp only | split

theorem writeHostRel_same {r₀ : State} {g₀ : Groups} {s : State} {v : Nat} (h1 : Same g₀ r₀ s) (m_free : g₀.free = true)
    (m_mem : g₀.mem = true) (m_regs : g₀.regs = true) (m_mu : g₀.mu = true) (m_qm : g₀.qm = true) (m_snap : g₀.snap = true)
    (m_sv : g₀.sv = true) (m_i3c : g₀.i3c = true) (m_sounds : g₀.sounds = true) (m_seqNo : g₀.seqNo = true)
    : Same g₀ r₀ (writeHostRel s v) := by
  unfold writeHostRel
  repeat' first
    | with_reducible assumption | intro _ | with_reducible apply pumpSnap_same | with_reducible apply regSet_same
    | with_reducible apply ite_same | with_reducible apply foldl_same | (refine Same.ofSnd (by assumption) ?_) | dsimp only
    | split

theorem startMbox_same {r₀ : State} {g₀ : Groups} {s : State} {v : Nat} (h1 : Same g₀ r₀ s) (m_free : g₀.free = true)
    (m_mem : g₀.mem = true) (m_regs : g₀.regs = true) (m_mu : g₀.mu = true) (m_qm : g₀.qm = true) (m_sv : g₀.sv = true)
    (m_host : g₀.host = true) (m_i3c : g₀.i3c = true) (m_sounds : g₀.sounds = true) (m_seqNo : g₀.seqNo = true)
    : Same g₀ r₀ (startMbox s v) := by
  unfold startMbox
  repeat' first
    | with_reducible assumption | intro _ | with_reducible apply bump_same | with_reducible apply State.onHost_same
    | with_reducible apply postMbox_same | with_reducible apply ite_same | with_reducible apply foldl_same
    | (refine Same.ofSnd (by assumption) ?_) | dsimp only | split

end Sys2Proof.Machine
end

