-- ==== Sys2Proof/Laws/SameImage.lean ====
section
/-!
SUPPORT. What the definitions of Machine/Image.lean may change (Laws/Same.lean).
-/

set_option linter.all false

namespace Sys2Proof.Machine

open Sys2Proof

theorem openRings_same {r₀ : State} {g₀ : Groups} {s : State} (h1 : Same g₀ r₀ s) (m_rings : g₀.rings = true)
    (m_sv : g₀.sv = true) : Same g₀ r₀ (openRings s) := by
  unfold openRings
  repeat' first
    | with_reducible assumption | intro _ | with_reducible apply State.onSv_same | with_reducible apply dropCause_same
    | with_reducible apply ite_same | with_reducible apply foldl_same | (refine Same.ofSnd (by assumption) ?_) | dsimp only
    | split

theorem setReason_same {r₀ : State} {g₀ : Groups} {s : State} {why sec rec_ : Nat} (h1 : Same g₀ r₀ s) (m_img : g₀.img = true)
    : Same g₀ r₀ (setReason s why sec rec_) := by
  unfold setReason
  repeat' first
    | with_reducible assumption | intro _ | with_reducible apply State.onImg_same | with_reducible apply ite_same
    | with_reducible apply foldl_same | (refine Same.ofSnd (by assumption) ?_) | dsimp only | split

theorem settleFar_same {r₀ : State} {g₀ : Groups} {s : State} (h1 : Same g₀ r₀ s) (m_mem : g₀.mem = true)
    (m_regs : g₀.regs = true) (m_mu : g₀.mu = true) (m_sounds : g₀.sounds = true) (m_seqNo : g₀.seqNo = true)
    : Same g₀ r₀ (settleFar s) := by
  unfold settleFar
  repeat' first
    | with_reducible assumption | intro _ | with_reducible apply State.onMem_same | with_reducible apply storeMem_same
    | with_reducible apply ite_same | with_reducible apply foldl_same | (refine Same.ofSnd (by assumption) ?_) | dsimp only
    | split

theorem zeroRange_same {r₀ : State} {g₀ : Groups} {s : State} {r : Range} (h1 : Same g₀ r₀ s) (m_mem : g₀.mem = true)
    : Same g₀ r₀ (zeroRange s r) := by
  unfold zeroRange
  repeat' first
    | with_reducible assumption | intro _ | with_reducible apply State.onMem_same | with_reducible apply ite_same
    | with_reducible apply foldl_same | (refine Same.ofSnd (by assumption) ?_) | dsimp only | split

theorem changeHoldings_same {r₀ : State} {g₀ : Groups} {s : State} {takeover : Bool} {i : Image} (h1 : Same g₀ r₀ s)
    (m_mem : g₀.mem = true) (m_regs : g₀.regs = true) (m_mu : g₀.mu = true) (m_sounds : g₀.sounds = true)
    (m_seqNo : g₀.seqNo = true) : Same g₀ r₀ (changeHoldings s takeover i) := by
  unfold changeHoldings
  repeat' first
    | with_reducible assumption | intro _ | with_reducible apply settleFar_same | with_reducible apply State.onMem_same
    | with_reducible apply zeroRange_same | with_reducible apply ite_same | with_reducible apply foldl_same
    | (refine Same.ofSnd (by assumption) ?_) | dsimp only | split

theorem clearLedgers_same {r₀ : State} {g₀ : Groups} {s : State} (h1 : Same g₀ r₀ s) (m_mu : g₀.mu = true)
    : Same g₀ r₀ (clearLedgers s) := by
  unfold clearLedgers
  repeat' first
    | with_reducible assumption | intro _ | with_reducible apply State.onMu_same | with_reducible apply ite_same
    | with_reducible apply foldl_same | (refine Same.ofSnd (by assumption) ?_) | dsimp only | split

theorem loadTables_same {r₀ : State} {g₀ : Groups} {s : State} (h1 : Same g₀ r₀ s) (m_ck : g₀.ck = true) (m_tw : g₀.tw = true)
    (m_img : g₀.img = true) : Same g₀ r₀ (loadTables s) := by
  unfold loadTables
  repeat' first
    | with_reducible assumption | intro _ | with_reducible apply State.onImg_same | with_reducible apply State.onCk_same
    | with_reducible apply State.onTw_same | with_reducible apply ite_same | with_reducible apply foldl_same
    | (refine Same.ofSnd (by assumption) ?_) | dsimp only | split

theorem loadRoutes_same {r₀ : State} {g₀ : Groups} {s : State} {i : Image} (h1 : Same g₀ r₀ s) (m_gz : g₀.gz = true)
    : Same g₀ r₀ (loadRoutes s i) := by
  unfold loadRoutes
  repeat' first
    | with_reducible assumption | intro _ | with_reducible apply State.onGz_same | with_reducible apply ite_same
    | with_reducible apply foldl_same | (refine Same.ofSnd (by assumption) ?_) | dsimp only | split

theorem loadDepths_same {r₀ : State} {g₀ : Groups} {s : State} {i : Image} (h1 : Same g₀ r₀ s) (m_gz : g₀.gz = true)
    : Same g₀ r₀ (loadDepths s i) := by
  unfold loadDepths
  repeat' first
    | with_reducible assumption | intro _ | with_reducible apply State.onGz_same | with_reducible apply ite_same
    | with_reducible apply foldl_same | (refine Same.ofSnd (by assumption) ?_) | dsimp only | split

theorem loadStreams_same {r₀ : State} {g₀ : Groups} {s : State} (h1 : Same g₀ r₀ s) (m_streams : g₀.streams = true)
    : Same g₀ r₀ (loadStreams s) := by
  unfold loadStreams
  repeat' first
    | with_reducible assumption | intro _ | with_reducible apply State.onStreams_same | with_reducible apply ite_same
    | with_reducible apply foldl_same | (refine Same.ofSnd (by assumption) ?_) | dsimp only | split

theorem setUpImage_same {r₀ : State} {g₀ : Groups} {s : State} {i : Image} (h1 : Same g₀ r₀ s) (m_free : g₀.free = true)
    (m_regs : g₀.regs = true) (m_gz : g₀.gz = true) (m_ck : g₀.ck = true) (m_tw : g₀.tw = true) (m_mu : g₀.mu = true)
    (m_streams : g₀.streams = true) (m_qm : g₀.qm = true) (m_seq : g₀.seq = true) (m_img : g₀.img = true)
    (m_rings : g₀.rings = true) (m_twin : g₀.twin = true) (m_snap : g₀.snap = true) (m_sv : g₀.sv = true) (m_sec : g₀.sec = true)
    (m_i3c : g₀.i3c = true) (m_sounds : g₀.sounds = true) (m_seqNo : g₀.seqNo = true) : Same g₀ r₀ (setUpImage s i) := by
  unfold setUpImage
  repeat' first
    | with_reducible assumption | intro _ | with_reducible apply State.onRings_same | with_reducible apply State.onImg_same
    | with_reducible apply loadTables_same | with_reducible apply loadRoutes_same | with_reducible apply State.onTwin_same
    | with_reducible apply loadDepths_same | with_reducible apply resyncDatum_same | with_reducible apply openRings_same
    | with_reducible apply loadStreams_same | with_reducible apply dropCause_same | with_reducible apply ite_same
    | with_reducible apply foldl_same | (refine Same.ofSnd (by assumption) ?_) | dsimp only | split

theorem loadQueues_same {r₀ : State} {g₀ : Groups} {s : State} (h1 : Same g₀ r₀ s) (m_qm : g₀.qm = true)
    : Same g₀ r₀ (loadQueues s) := by
  unfold loadQueues
  repeat' first
    | with_reducible assumption | intro _ | with_reducible apply State.onQm_same | with_reducible apply reserveSlot_same
    | with_reducible apply ite_same | with_reducible apply foldl_same | (refine Same.ofSnd (by assumption) ?_) | dsimp only
    | split

theorem countDropped_same {r₀ : State} {g₀ : Groups} {s : State} (h1 : Same g₀ r₀ s) (m_regs : g₀.regs = true)
    (m_sounds : g₀.sounds = true) (m_seqNo : g₀.seqNo = true) : Same g₀ r₀ (countDropped s) := by
  unfold countDropped
  repeat' first
    | with_reducible assumption | intro _ | with_reducible apply bumpBy_same | with_reducible apply ite_same
    | with_reducible apply foldl_same | (refine Same.ofSnd (by assumption) ?_) | dsimp only | split

theorem raiseFloor_same {r₀ : State} {g₀ : Groups} {s : State} {i : Image} (h1 : Same g₀ r₀ s) (m_sec : g₀.sec = true)
    : Same g₀ r₀ (raiseFloor s i) := by
  unfold raiseFloor
  repeat' first
    | with_reducible assumption | intro _ | with_reducible apply appendAlm_same | with_reducible apply ite_same
    | with_reducible apply foldl_same | (refine Same.ofSnd (by assumption) ?_) | dsimp only | split

theorem commit_same {r₀ : State} {g₀ : Groups} {s : State} {x : Staged} (h1 : Same g₀ r₀ s) (m_free : g₀.free = true)
    (m_mem : g₀.mem = true) (m_regs : g₀.regs = true) (m_gz : g₀.gz = true) (m_ck : g₀.ck = true) (m_tw : g₀.tw = true)
    (m_mu : g₀.mu = true) (m_streams : g₀.streams = true) (m_qm : g₀.qm = true) (m_seq : g₀.seq = true) (m_img : g₀.img = true)
    (m_rings : g₀.rings = true) (m_twin : g₀.twin = true) (m_snap : g₀.snap = true) (m_sv : g₀.sv = true) (m_sec : g₀.sec = true)
    (m_i3c : g₀.i3c = true) (m_sounds : g₀.sounds = true) (m_seqNo : g₀.seqNo = true) : Same g₀ r₀ (commit s x) := by
  unfold commit
  repeat' first
    | with_reducible assumption | intro _ | with_reducible apply bump_same | with_reducible apply setUpImage_same
    | with_reducible apply bumpBy_same | with_reducible apply loadQueues_same | with_reducible apply setReason_same
    | with_reducible apply countDropped_same | with_reducible apply resetPanel_same | with_reducible apply raiseFloor_same
    | with_reducible apply clearLedgers_same | with_reducible apply changeHoldings_same | with_reducible apply ite_same
    | with_reducible apply foldl_same | (refine Same.ofSnd (by assumption) ?_) | dsimp only | split

theorem tellTwin_same {r₀ : State} {g₀ : Groups} {s : State} {m : Nat} (h1 : Same g₀ r₀ s) (m_twin : g₀.twin = true)
    : Same g₀ r₀ (tellTwin s m) := by
  unfold tellTwin
  repeat' first
    | with_reducible assumption | intro _ | with_reducible apply State.onTwin_same | with_reducible apply ite_same
    | with_reducible apply foldl_same | (refine Same.ofSnd (by assumption) ?_) | dsimp only | split

theorem copyMem_same {r₀ : State} {g₀ : Groups} {s : State} {src dst n : Nat} (h1 : Same g₀ r₀ s) (m_mem : g₀.mem = true)
    (m_regs : g₀.regs = true) (m_mu : g₀.mu = true) (m_sv : g₀.sv = true) (m_i3c : g₀.i3c = true) (m_sounds : g₀.sounds = true)
    (m_seqNo : g₀.seqNo = true) : Same g₀ r₀ (copyMem s src dst n) := by
  unfold copyMem
  repeat' first
    | with_reducible assumption | intro _ | with_reducible apply writeMem_same | with_reducible apply poisonSectors_same
    | with_reducible apply ite_same | with_reducible apply foldl_same | (refine Same.ofSnd (by assumption) ?_) | dsimp only
    | split

theorem refuseLoad_same {r₀ : State} {g₀ : Groups} {s : State} {h : Hdr} {n : LoadNo} (h1 : Same g₀ r₀ s)
    (m_free : g₀.free = true) (m_gz : g₀.gz = true) (m_qm : g₀.qm = true) (m_img : g₀.img = true)
    : Same g₀ r₀ (refuseLoad s h n) := by
  unfold refuseLoad
  repeat' first
    | with_reducible assumption | intro _ | with_reducible apply State.onGz_same | with_reducible apply setReason_same
    | with_reducible apply complete_same | with_reducible apply ite_same | with_reducible apply foldl_same
    | (refine Same.ofSnd (by assumption) ?_) | dsimp only | split

theorem stageLoad_same {r₀ : State} {g₀ : Groups} {s : State} {h : Hdr} {op : LoadOp} {kind : Nat} {i : Image} (h1 : Same g₀ r₀ s)
    (m_free : g₀.free = true) (m_gz : g₀.gz = true) (m_qm : g₀.qm = true) (m_img : g₀.img = true)
    : Same g₀ r₀ (stageLoad s h op kind i) := by
  unfold stageLoad
  repeat' first
    | with_reducible assumption | intro _ | with_reducible apply State.onImg_same | with_reducible apply markStarted_same
    | with_reducible apply refuseLoad_same | with_reducible apply ite_same | with_reducible apply foldl_same
    | (refine Same.ofSnd (by assumption) ?_) | dsimp only | split

theorem sourceChecks_same {r₀ : State} {g₀ : Groups} {s : State} {op : LoadOp} (h1 : Same g₀ r₀ s) (m_mem : g₀.mem = true)
    (m_regs : g₀.regs = true) (m_mu : g₀.mu = true) (m_sv : g₀.sv = true) (m_i3c : g₀.i3c = true) (m_sounds : g₀.sounds = true)
    (m_seqNo : g₀.seqNo = true) : Same g₀ r₀ (sourceChecks s op).2 := by
  unfold sourceChecks
  repeat' first
    | with_reducible assumption | intro _ | with_reducible apply checkRead_same | with_reducible apply ite_same
    | with_reducible apply ite_same_snd | with_reducible apply foldl_same | with_reducible apply foldl_same_snd
    | (refine Same.ofSnd (by assumption) ?_) | dsimp only | split

theorem execTnHandback_same {r₀ : State} {g₀ : Groups} {h : Hdr} {op : LoadOp} {s : State} {t₀}
    (e₀ : execTnHandback h op s = .next t₀) (h3 : Same g₀ r₀ s) (m_free : g₀.free = true) (m_mem : g₀.mem = true)
    (m_regs : g₀.regs = true) (m_gz : g₀.gz = true) (m_mu : g₀.mu = true) (m_qm : g₀.qm = true) (m_img : g₀.img = true)
    (m_sv : g₀.sv = true) (m_i3c : g₀.i3c = true) (m_sounds : g₀.sounds = true) (m_seqNo : g₀.seqNo = true) : Same g₀ r₀ t₀ := by
  unfold execTnHandback at e₀
  repeat' first | contradiction | (injection e₀ with e₀; subst e₀) | dsimp only at e₀ | (split at e₀)
  repeat' first
    | with_reducible assumption | intro _ | with_reducible apply stageLoad_same | with_reducible apply complete_same
    | with_reducible apply refuseLoad_same | with_reducible apply sourceChecks_same | with_reducible apply runDesc_same
    | with_reducible apply ite_same | with_reducible apply ite_same_snd | with_reducible apply foldl_same
    | with_reducible apply foldl_same_snd | (refine Same.ofSnd (by assumption) ?_) | dsimp only | split

theorem execTwinTakeover_same {r₀ : State} {g₀ : Groups} {h : Hdr} {t : Trailer} {op : LoadOp} {s : State} {t₀}
    (e₀ : execTwinTakeover h t op s = .next t₀) (h4 : Same g₀ r₀ s) (m_free : g₀.free = true) (m_mem : g₀.mem = true)
    (m_regs : g₀.regs = true) (m_gz : g₀.gz = true) (m_mu : g₀.mu = true) (m_qm : g₀.qm = true) (m_img : g₀.img = true)
    (m_twin : g₀.twin = true) (m_sv : g₀.sv = true) (m_sec : g₀.sec = true) (m_i3c : g₀.i3c = true) (m_sounds : g₀.sounds = true)
    (m_seqNo : g₀.seqNo = true) : Same g₀ r₀ t₀ := by
  unfold execTwinTakeover at e₀
  repeat' first | contradiction | (injection e₀ with e₀; subst e₀) | dsimp only at e₀ | (split at e₀)
  repeat' first
    | with_reducible assumption | intro _ | with_reducible apply applyReady_same | with_reducible apply tellTwin_same
    | with_reducible apply stageLoad_same | with_reducible apply complete_same | with_reducible apply refuseLoad_same
    | with_reducible apply State.onTwin_same | with_reducible apply sourceChecks_same | with_reducible apply critical_same
    | with_reducible apply ite_same | with_reducible apply ite_same_snd | with_reducible apply foldl_same
    | with_reducible apply foldl_same_snd | (refine Same.ofSnd (by assumption) ?_) | dsimp only | split

theorem execImageLoad_same {r₀ : State} {g₀ : Groups} {h : Hdr} {t : Trailer} {op : LoadOp} {s : State} {t₀}
    (e₀ : execImageLoad h t op s = .next t₀) (h4 : Same g₀ r₀ s) (m_free : g₀.free = true) (m_mem : g₀.mem = true)
    (m_regs : g₀.regs = true) (m_gz : g₀.gz = true) (m_mu : g₀.mu = true) (m_qm : g₀.qm = true) (m_img : g₀.img = true)
    (m_sv : g₀.sv = true) (m_sec : g₀.sec = true) (m_i3c : g₀.i3c = true) (m_sounds : g₀.sounds = true)
    (m_seqNo : g₀.seqNo = true) : Same g₀ r₀ t₀ := by
  unfold execImageLoad at e₀
  repeat' first | contradiction | (injection e₀ with e₀; subst e₀) | dsimp only at e₀ | (split at e₀)
  repeat' first
    | with_reducible assumption | intro _ | with_reducible apply stageLoad_same | with_reducible apply refuseLoad_same
    | with_reducible apply sourceChecks_same | with_reducible apply critical_same | with_reducible apply ite_same
    | with_reducible apply ite_same_snd | with_reducible apply foldl_same | with_reducible apply foldl_same_snd
    | (refine Same.ofSnd (by assumption) ?_) | dsimp only | split

theorem endLoad_same {r₀ : State} {g₀ : Groups} {s : State} {x : Staged} (h1 : Same g₀ r₀ s) (m_free : g₀.free = true)
    (m_pkg : g₀.pkg = true) (m_regs : g₀.regs = true) (m_gz : g₀.gz = true) (m_qm : g₀.qm = true) (m_rings : g₀.rings = true)
    (m_twin : g₀.twin = true) (m_sounds : g₀.sounds = true) (m_seqNo : g₀.seqNo = true) : Same g₀ r₀ (endLoad s x) := by
  unfold endLoad
  repeat' first
    | with_reducible assumption | intro _ | with_reducible apply enterBase_same | with_reducible apply complete_same
    | with_reducible apply ite_same | with_reducible apply foldl_same | (refine Same.ofSnd (by assumption) ?_) | dsimp only
    | split

theorem rowHome_same {r₀ : State} {g₀ : Groups} {s : State} {x : Nat × DirEntry} (h1 : Same g₀ r₀ s) (m_mem : g₀.mem = true)
    (m_regs : g₀.regs = true) (m_gz : g₀.gz = true) (m_mu : g₀.mu = true) (m_sv : g₀.sv = true) (m_i3c : g₀.i3c = true)
    (m_sounds : g₀.sounds = true) (m_seqNo : g₀.seqNo = true) : Same g₀ r₀ (rowHome s x) := by
  unfold rowHome
  repeat' first
    | with_reducible assumption | intro _ | with_reducible apply bump_same | with_reducible apply copyMem_same
    | with_reducible apply storeDir_same | with_reducible apply ite_same | with_reducible apply foldl_same
    | (refine Same.ofSnd (by assumption) ?_) | dsimp only | split

theorem endHandback_same {r₀ : State} {g₀ : Groups} {s : State} {x : Staged} (h1 : Same g₀ r₀ s) (m_free : g₀.free = true)
    (m_pkg : g₀.pkg = true) (m_regs : g₀.regs = true) (m_gz : g₀.gz = true) (m_qm : g₀.qm = true) (m_rings : g₀.rings = true)
    (m_twin : g₀.twin = true) (m_sounds : g₀.sounds = true) (m_seqNo : g₀.seqNo = true) : Same g₀ r₀ (endHandback s x) := by
  unfold endHandback
  repeat' first
    | with_reducible assumption | intro _ | with_reducible apply enterBase_same | with_reducible apply tellTwin_same
    | with_reducible apply complete_same | with_reducible apply State.onTwin_same | with_reducible apply flood_same
    | with_reducible apply ite_same | with_reducible apply foldl_same | (refine Same.ofSnd (by assumption) ?_) | dsimp only
    | split

theorem endTakeover_same {r₀ : State} {g₀ : Groups} {s : State} {x : Staged} (h1 : Same g₀ r₀ s) (m_free : g₀.free = true)
    (m_qm : g₀.qm = true) (m_rings : g₀.rings = true) (m_twin : g₀.twin = true) : Same g₀ r₀ (endTakeover s x) := by
  unfold endTakeover
  repeat' first
    | with_reducible assumption | intro _ | with_reducible apply complete_same | with_reducible apply State.onTwin_same
    | with_reducible apply flood_same | with_reducible apply ite_same | with_reducible apply foldl_same
    | (refine Same.ofSnd (by assumption) ?_) | dsimp only | split

theorem execCommitPoint_same {r₀ : State} {g₀ : Groups} {s : State} {t₀} (e₀ : execCommitPoint s = .next t₀) (h1 : Same g₀ r₀ s)
    (m_free : g₀.free = true) (m_pkg : g₀.pkg = true) (m_mem : g₀.mem = true) (m_regs : g₀.regs = true) (m_gz : g₀.gz = true)
    (m_ck : g₀.ck = true) (m_tw : g₀.tw = true) (m_mu : g₀.mu = true) (m_streams : g₀.streams = true) (m_qm : g₀.qm = true)
    (m_seq : g₀.seq = true) (m_img : g₀.img = true) (m_rings : g₀.rings = true) (m_twin : g₀.twin = true)
    (m_snap : g₀.snap = true) (m_sv : g₀.sv = true) (m_sec : g₀.sec = true) (m_i3c : g₀.i3c = true) (m_sounds : g₀.sounds = true)
    (m_seqNo : g₀.seqNo = true) : Same g₀ r₀ t₀ := by
  unfold execCommitPoint at e₀
  repeat' first | contradiction | (injection e₀ with e₀; subst e₀) | dsimp only at e₀ | (split at e₀)
  repeat' first
    | with_reducible assumption | intro _ | with_reducible apply State.onImg_same | with_reducible apply rowHome_same
    | with_reducible apply commit_same | with_reducible apply endHandback_same | with_reducible apply refuseLoad_same
    | with_reducible apply endLoad_same | with_reducible apply endTakeover_same | with_reducible apply ite_same
    | with_reducible apply foldl_same | (refine Same.ofSnd (by assumption) ?_) | dsimp only | split

end Sys2Proof.Machine
end

