-- ==== Sys2Proof/Laws/SameLedgerOps.lean ====
section
/-!
SUPPORT. What the definitions of Machine/LedgerOps.lean may change (Laws/Same.lean).
-/

set_option linter.all false

namespace Sys2Proof.Machine

open Sys2Proof

theorem pageSlot_same {r₀ : State} {g₀ : Groups} {s : State} {k n : Nat} (h1 : Same g₀ r₀ s) (m_mem : g₀.mem = true)
    (m_regs : g₀.regs = true) (m_gz : g₀.gz = true) (m_mu : g₀.mu = true) (m_sv : g₀.sv = true) (m_i3c : g₀.i3c = true)
    (m_sounds : g₀.sounds = true) (m_seqNo : g₀.seqNo = true) : Same g₀ r₀ (pageSlot s k n).2 := by
  unfold pageSlot
  repeat' first
    | with_reducible assumption | intro _ | with_reducible apply bump_same | with_reducible apply copyMem_same
    | with_reducible apply storeDir_same | with_reducible apply ite_same | with_reducible apply ite_same_snd
    | with_reducible apply foldl_same | with_reducible apply foldl_same_snd | (refine Same.ofSnd (by assumption) ?_) | dsimp only
    | split

theorem pageInNow_same {r₀ : State} {g₀ : Groups} {s : State} {k t row : Nat} (h1 : Same g₀ r₀ s) (m_mem : g₀.mem = true)
    (m_regs : g₀.regs = true) (m_gz : g₀.gz = true) (m_mu : g₀.mu = true) (m_sv : g₀.sv = true) (m_i3c : g₀.i3c = true)
    (m_sounds : g₀.sounds = true) (m_seqNo : g₀.seqNo = true) : Same g₀ r₀ (pageInNow s k t row).2 := by
  unfold pageInNow
  repeat' first
    | with_reducible assumption | intro _ | with_reducible apply writeMem_same | with_reducible apply bump_same
    | with_reducible apply markPoisoned_same | with_reducible apply checkRead_same | with_reducible apply pageSlot_same
    | with_reducible apply setDir_same | with_reducible apply ite_same | with_reducible apply ite_same_snd
    | with_reducible apply foldl_same | with_reducible apply foldl_same_snd | (refine Same.ofSnd (by assumption) ?_) | dsimp only
    | split

theorem flagPending_same {r₀ : State} {g₀ : Groups} {s : State} {k t row : Nat} {f : Bool} (h1 : Same g₀ r₀ s)
    (m_regs : g₀.regs = true) (m_gz : g₀.gz = true) (m_mu : g₀.mu = true) (m_sounds : g₀.sounds = true)
    (m_seqNo : g₀.seqNo = true) : Same g₀ r₀ (flagPending s k t row f) := by
  unfold flagPending
  repeat' first
    | with_reducible assumption | intro _ | with_reducible apply storeDir_same | with_reducible apply ite_same
    | with_reducible apply foldl_same | (refine Same.ofSnd (by assumption) ?_) | dsimp only | split

theorem pendEntry_same {r₀ : State} {g₀ : Groups} {s : State} {k t row : Nat} {e : Entry} {x23}
    (e₀ : pendEntry s k t row e = some x23) (h1 : Same g₀ r₀ s) (m_mem : g₀.mem = true) (m_regs : g₀.regs = true)
    (m_gz : g₀.gz = true) (m_mu : g₀.mu = true) (m_sv : g₀.sv = true) (m_i3c : g₀.i3c = true) (m_sounds : g₀.sounds = true)
    (m_seqNo : g₀.seqNo = true) : Same g₀ r₀ x23 := by
  unfold pendEntry at e₀
  repeat' first | contradiction | (injection e₀ with e₀; subst e₀) | dsimp only at e₀ | (split at e₀)
  repeat' first
    | with_reducible assumption | intro _ | with_reducible apply State.onMu_same | with_reducible apply flagPending_same
    | with_reducible apply pageInNow_same | with_reducible apply ite_same | with_reducible apply ite_same_snd
    | with_reducible apply foldl_same | with_reducible apply foldl_same_snd | (refine Same.ofSnd (by assumption) ?_) | dsimp only
    | split

theorem writeWords_same {r₀ : State} {g₀ : Groups} {s : State} {a : Nat} {a2 : List Byte} (h1 : Same g₀ r₀ s)
    (m_mu : g₀.mu = true) : Same g₀ r₀ (writeWords s a a2) := by
  induction a2 generalizing s a with
  | nil =>
    unfold writeWords
    repeat' first
      | with_reducible assumption | intro _ | with_reducible apply State.onMu_same | with_reducible apply ite_same
      | with_reducible apply foldl_same | (refine Same.ofSnd (by assumption) ?_) | dsimp only | split
  | cons _ _ ih =>
    unfold writeWords
    repeat' first
      | with_reducible assumption | intro _ | with_reducible apply ih | with_reducible apply State.onMu_same
      | with_reducible apply ite_same | with_reducible apply foldl_same | (refine Same.ofSnd (by assumption) ?_) | dsimp only
      | split

theorem viewWrite_same {r₀ : State} {g₀ : Groups} {s : State} {a : Nat} {bs : List Byte} (h1 : Same g₀ r₀ s)
    (m_mem : g₀.mem = true) (m_regs : g₀.regs = true) (m_mu : g₀.mu = true) (m_sv : g₀.sv = true) (m_i3c : g₀.i3c = true)
    (m_sounds : g₀.sounds = true) (m_seqNo : g₀.seqNo = true) : Same g₀ r₀ (viewWrite s a bs) := by
  unfold viewWrite
  repeat' first
    | with_reducible assumption | intro _ | with_reducible apply writeMem_same | with_reducible apply writeWords_same
    | with_reducible apply ite_same | with_reducible apply foldl_same | (refine Same.ofSnd (by assumption) ?_) | dsimp only
    | split

theorem forwardAdd_same {r₀ : State} {g₀ : Groups} {s : State} {k : Nat} {m : AddMsg} {ledger : Nat} (h1 : Same g₀ r₀ s)
    (m_gz : g₀.gz = true) : Same g₀ r₀ (forwardAdd s k m ledger) := by
  unfold forwardAdd
  repeat' first
    | with_reducible assumption | intro _ | with_reducible apply sendAdd_same | with_reducible apply noteFwd_same
    | with_reducible apply ite_same | with_reducible apply foldl_same | (refine Same.ofSnd (by assumption) ?_) | dsimp only
    | split

theorem takeAdd_same {r₀ : State} {g₀ : Groups} {s : State} {k : Nat} {m : AddMsg} (h1 : Same g₀ r₀ s) (m_regs : g₀.regs = true)
    (m_gz : g₀.gz = true) (m_mu : g₀.mu = true) (m_seq : g₀.seq = true) (m_sounds : g₀.sounds = true) (m_seqNo : g₀.seqNo = true)
    : Same g₀ r₀ (takeAdd s k m).2 := by
  unfold takeAdd
  repeat' first
    | with_reducible assumption | intro _ | with_reducible apply applyAdd_same | with_reducible apply answerAdd_same
    | with_reducible apply ite_same | with_reducible apply ite_same_snd | with_reducible apply foldl_same
    | with_reducible apply foldl_same_snd | (refine Same.ofSnd (by assumption) ?_) | dsimp only | split

theorem routeAdd_same {r₀ : State} {g₀ : Groups} {s : State} {k : Nat} {m : AddMsg} {row : Nat} (h1 : Same g₀ r₀ s)
    (m_regs : g₀.regs = true) (m_gz : g₀.gz = true) (m_mu : g₀.mu = true) (m_seq : g₀.seq = true) (m_sounds : g₀.sounds = true)
    (m_seqNo : g₀.seqNo = true) : Same g₀ r₀ (routeAdd s k m row) := by
  unfold routeAdd
  repeat' first
    | with_reducible assumption | intro _ | with_reducible apply bump_same | with_reducible apply survey_same
    | with_reducible apply forwardAdd_same | with_reducible apply noteFwd_same | with_reducible apply setDir_same
    | with_reducible apply hotAdd_same | with_reducible apply takeAdd_same | with_reducible apply answerAdd_same
    | with_reducible apply ite_same | with_reducible apply ite_same_snd | with_reducible apply foldl_same
    | with_reducible apply foldl_same_snd | (refine Same.ofSnd (by assumption) ?_) | dsimp only | split

theorem finishSeals_same {r₀ : State} {g₀ : Groups} {s : State} (h1 : Same g₀ r₀ s) (m_free : g₀.free = true)
    (m_mu : g₀.mu = true) (m_qm : g₀.qm = true) : Same g₀ r₀ (finishSeals s) := by
  unfold finishSeals
  repeat' first
    | with_reducible assumption | intro _ | with_reducible apply State.onMu_same | with_reducible apply complete_same
    | with_reducible apply ite_same | with_reducible apply foldl_same | (refine Same.ofSnd (by assumption) ?_) | dsimp only
    | split

end Sys2Proof.Machine
end

