-- ==== Sys2Proof/Laws/SameRegs.lean ====
section
/-!
SUPPORT. What the definitions of Machine/Regs.lean may change (Laws/Same.lean).
-/

set_option linter.all false

namespace Sys2Proof.Machine

open Sys2Proof

theorem writeReg_same {r₀ : State} {g₀ : Groups} {s : State} {d off : Nat} {a : Agent} {v : Nat} (h1 : Same g₀ r₀ s)
    (m_free : g₀.free = true) (m_mem : g₀.mem = true) (m_regs : g₀.regs = true) (m_gz : g₀.gz = true) (m_ck : g₀.ck = true)
    (m_tw : g₀.tw = true) (m_mu : g₀.mu = true) (m_streams : g₀.streams = true) (m_qm : g₀.qm = true) (m_seq : g₀.seq = true)
    (m_img : g₀.img = true) (m_rings : g₀.rings = true) (m_snap : g₀.snap = true) (m_sv : g₀.sv = true) (m_sec : g₀.sec = true)
    (m_ct : g₀.ct = true) (m_host : g₀.host = true) (m_i3c : g₀.i3c = true) (m_sounds : g₀.sounds = true)
    (m_seqNo : g₀.seqNo = true) : Same g₀ r₀ (writeReg s d off a v) := by
  unfold writeReg
  repeat' first
    | with_reducible assumption | intro _ | with_reducible apply writeHostRel_same | with_reducible apply writeFwConfirm_same
    | with_reducible apply writeGzCtl_same | with_reducible apply writeInject_same | with_reducible apply writeCtCtl_same
    | with_reducible apply State.onGz_same | with_reducible apply writeTokenIn_same | with_reducible apply regSet_same
    | with_reducible apply writeRhead_same | with_reducible apply writeWarmReq_same | with_reducible apply writeCounter_same
    | with_reducible apply writePanelRst_same | with_reducible apply startMbox_same | with_reducible apply writePlan_same
    | with_reducible apply writeDatumCtl_same | with_reducible apply writeDirCtl_same | with_reducible apply ringDoorbell_same
    | with_reducible apply writeMcCtl_same | with_reducible apply writeQctl_same | with_reducible apply writeTcCredit_same
    | with_reducible apply writeFaultClear_same | with_reducible apply writeHstreamFill_same | with_reducible apply ite_same
    | with_reducible apply foldl_same | (refine Same.ofSnd (by assumption) ?_) | dsimp only | split

theorem maskedWrite_same {r₀ : State} {g₀ : Groups} {s : State} {d off : Nat} {a : Agent} {mask v : Nat} (h1 : Same g₀ r₀ s)
    (m_free : g₀.free = true) (m_mem : g₀.mem = true) (m_regs : g₀.regs = true) (m_gz : g₀.gz = true) (m_ck : g₀.ck = true)
    (m_tw : g₀.tw = true) (m_mu : g₀.mu = true) (m_streams : g₀.streams = true) (m_qm : g₀.qm = true) (m_seq : g₀.seq = true)
    (m_img : g₀.img = true) (m_rings : g₀.rings = true) (m_snap : g₀.snap = true) (m_sv : g₀.sv = true) (m_sec : g₀.sec = true)
    (m_ct : g₀.ct = true) (m_host : g₀.host = true) (m_i3c : g₀.i3c = true) (m_sounds : g₀.sounds = true)
    (m_seqNo : g₀.seqNo = true) : Same g₀ r₀ (maskedWrite s d off a mask v) := by
  unfold maskedWrite
  repeat' first
    | with_reducible assumption | intro _ | with_reducible apply writeReg_same | with_reducible apply ite_same
    | with_reducible apply foldl_same | (refine Same.ofSnd (by assumption) ?_) | dsimp only | split

end Sys2Proof.Machine
end

