-- ==== Sys2Proof/Laws/SameSequencer.lean ====
section
/-!
SUPPORT. What the definitions of Machine/Sequencer.lean may change (Laws/Same.lean).
-/

set_option linter.all false

namespace Sys2Proof.Machine

open Sys2Proof

theorem setProg_same {r₀ : State} {g₀ : Groups} {s : State} {p : Nat} {f : Prog → Prog} (h1 : Same g₀ r₀ s)
    (m_seq : g₀.seq = true) : Same g₀ r₀ (setProg s p f) := by
  unfold setProg
  repeat' first
    | with_reducible assumption | intro _ | with_reducible apply State.onSeq_same | with_reducible apply ite_same
    | with_reducible apply foldl_same | (refine Same.ofSnd (by assumption) ?_) | dsimp only | split

theorem expireBudget_same {r₀ : State} {g₀ : Groups} {s : State} {p : Nat} (h1 : Same g₀ r₀ s) (m_regs : g₀.regs = true)
    (m_qm : g₀.qm = true) (m_seq : g₀.seq = true) (m_sv : g₀.sv = true) (m_i3c : g₀.i3c = true) (m_sounds : g₀.sounds = true)
    (m_seqNo : g₀.seqNo = true) : Same g₀ r₀ (expireBudget s p) := by
  unfold expireBudget
  repeat' first
    | with_reducible assumption | intro _ | with_reducible apply countExpiry_same | with_reducible apply setProg_same
    | with_reducible apply State.onSeq_same | with_reducible apply endFetched_same | with_reducible apply ite_same
    | with_reducible apply foldl_same | (refine Same.ofSnd (by assumption) ?_) | dsimp only | split

theorem seqRecord_same {r₀ : State} {g₀ : Groups} {s : State} {c : Cpl} (h1 : Same g₀ r₀ s) (m_seq : g₀.seq = true)
    : Same g₀ r₀ (seqRecord s c) := by
  unfold seqRecord
  repeat' first
    | with_reducible assumption | intro _ | with_reducible apply setProg_same | with_reducible apply State.onSeq_same
    | with_reducible apply ite_same | with_reducible apply foldl_same | (refine Same.ofSnd (by assumption) ?_) | dsimp only
    | split

theorem atInstr_same {r₀ : State} {g₀ : Groups} {s : State} {p : Nat} {c : Instr} {body : State → State} (h1 : Same g₀ r₀ s)
    (h4 : (∀ (y04 : State), Same g₀ r₀ y04 → Same g₀ r₀ (body y04))) (m_seq : g₀.seq = true)
    : Same g₀ r₀ (atInstr s p c body) := by
  unfold atInstr
  repeat' first
    | with_reducible assumption | intro _ | with_reducible apply setProg_same | with_reducible apply h4
    | with_reducible apply ite_same | with_reducible apply foldl_same | (refine Same.ofSnd (by assumption) ?_) | dsimp only
    | split

theorem execEndProg_same {r₀ : State} {g₀ : Groups} {prog : Nat} {s : State} {t₀} (e₀ : execEndProg prog s = .next t₀)
    (h2 : Same g₀ r₀ s) (m_seq : g₀.seq = true) : Same g₀ r₀ t₀ := by
  unfold execEndProg at e₀
  repeat' first | contradiction | (injection e₀ with e₀; subst e₀) | dsimp only at e₀ | (split at e₀)
  repeat' first
    | with_reducible assumption | intro _ | with_reducible apply setProg_same | with_reducible apply atInstr_same
    | with_reducible apply ite_same | with_reducible apply foldl_same | (refine Same.ofSnd (by assumption) ?_) | dsimp only
    | split

theorem writeStepRecord_same {r₀ : State} {g₀ : Groups} {n : Nat} {s : State} {x : Nat × Prog} (h2 : Same g₀ r₀ s)
    (m_free : g₀.free = true) (m_mem : g₀.mem = true) (m_regs : g₀.regs = true) (m_mu : g₀.mu = true) (m_qm : g₀.qm = true)
    (m_sv : g₀.sv = true) (m_sec : g₀.sec = true) (m_i3c : g₀.i3c = true) (m_sounds : g₀.sounds = true)
    (m_seqNo : g₀.seqNo = true) : Same g₀ r₀ (writeStepRecord n s x) := by
  unfold writeStepRecord
  repeat' first
    | with_reducible assumption | intro _ | with_reducible apply State.onSec_same | with_reducible apply State.took_same
    | with_reducible apply writeRecord_same | with_reducible apply ite_same | with_reducible apply foldl_same
    | (refine Same.ofSnd (by assumption) ?_) | dsimp only | split

theorem endRun_same {r₀ : State} {g₀ : Groups} {s : State} (h1 : Same g₀ r₀ s) (m_free : g₀.free = true) (m_qm : g₀.qm = true)
    (m_seq : g₀.seq = true) : Same g₀ r₀ (endRun s) := by
  unfold endRun
  repeat' first
    | with_reducible assumption | intro _ | with_reducible apply complete_same | with_reducible apply State.onSeq_same
    | with_reducible apply ite_same | with_reducible apply foldl_same | (refine Same.ofSnd (by assumption) ?_) | dsimp only
    | split

theorem showSeq_same {r₀ : State} {g₀ : Groups} {s : State} (h1 : Same g₀ r₀ s) (m_seq : g₀.seq = true)
    : Same g₀ r₀ (showSeq s) := by
  unfold showSeq
  repeat' first
    | with_reducible assumption | intro _ | with_reducible apply State.onSeq_same | with_reducible apply ite_same
    | with_reducible apply foldl_same | (refine Same.ofSnd (by assumption) ?_) | dsimp only | split

theorem endStep_same {r₀ : State} {g₀ : Groups} {s : State} (h1 : Same g₀ r₀ s) (m_free : g₀.free = true) (m_mem : g₀.mem = true)
    (m_regs : g₀.regs = true) (m_mu : g₀.mu = true) (m_qm : g₀.qm = true) (m_seq : g₀.seq = true) (m_sv : g₀.sv = true)
    (m_sec : g₀.sec = true) (m_i3c : g₀.i3c = true) (m_sounds : g₀.sounds = true) (m_seqNo : g₀.seqNo = true)
    : Same g₀ r₀ (endStep s) := by
  unfold endStep
  repeat' first
    | with_reducible assumption | intro _ | with_reducible apply writeStepRecord_same | with_reducible apply endRun_same
    | with_reducible apply showSeq_same | with_reducible apply State.onSeq_same | with_reducible apply ite_same
    | with_reducible apply foldl_same | (refine Same.ofSnd (by assumption) ?_) | dsimp only | split

theorem postSeal_same {r₀ : State} {g₀ : Groups} {n : Nat} {s : State} {k : Nat} (h2 : Same g₀ r₀ s) (m_free : g₀.free = true)
    (m_regs : g₀.regs = true) (m_qm : g₀.qm = true) (m_seq : g₀.seq = true) (m_sounds : g₀.sounds = true)
    (m_seqNo : g₀.seqNo = true) : Same g₀ r₀ (postSeal n s k) := by
  unfold postSeal
  repeat' first
    | with_reducible assumption | intro _ | with_reducible apply bump_same | with_reducible apply complete_same
    | with_reducible apply State.onSeq_same | with_reducible apply State.onQm_same | with_reducible apply ite_same
    | with_reducible apply foldl_same | (refine Same.ofSnd (by assumption) ?_) | dsimp only | split

theorem postSeals_same {r₀ : State} {g₀ : Groups} {s : State} (h1 : Same g₀ r₀ s) (m_free : g₀.free = true)
    (m_regs : g₀.regs = true) (m_ck : g₀.ck = true) (m_qm : g₀.qm = true) (m_seq : g₀.seq = true) (m_sounds : g₀.sounds = true)
    (m_seqNo : g₀.seqNo = true) : Same g₀ r₀ (postSeals s) := by
  unfold postSeals
  repeat' first
    | with_reducible assumption | intro _ | with_reducible apply showSeq_same | with_reducible apply requestDatum_same
    | with_reducible apply State.onSeq_same | with_reducible apply postSeal_same | with_reducible apply ite_same
    | with_reducible apply foldl_same | (refine Same.ofSnd (by assumption) ?_) | dsimp only | split

theorem advance_same {r₀ : State} {g₀ : Groups} {s : State} {p n : Nat} (h1 : Same g₀ r₀ s) (m_seq : g₀.seq = true)
    : Same g₀ r₀ (advance s p n) := by
  unfold advance
  repeat' first
    | with_reducible assumption | intro _ | with_reducible apply setProg_same | with_reducible apply ite_same
    | with_reducible apply foldl_same | (refine Same.ofSnd (by assumption) ?_) | dsimp only | split

theorem execWait_same {r₀ : State} {g₀ : Groups} {prog ctr target : Nat} {s : State} {t₀}
    (e₀ : execWait prog ctr target s = .next t₀) (h4 : Same g₀ r₀ s) (m_seq : g₀.seq = true) : Same g₀ r₀ t₀ := by
  unfold execWait at e₀
  repeat' first | contradiction | (injection e₀ with e₀; subst e₀) | dsimp only at e₀ | (split at e₀)
  repeat' first
    | with_reducible assumption | intro _ | with_reducible apply advance_same | with_reducible apply atInstr_same
    | with_reducible apply ite_same | with_reducible apply foldl_same | (refine Same.ofSnd (by assumption) ?_) | dsimp only
    | split

theorem setAmax_same {r₀ : State} {g₀ : Groups} {s : State} {p x : Nat} {vs : List (Option Val)} (h1 : Same g₀ r₀ s)
    (m_regs : g₀.regs = true) (m_seq : g₀.seq = true) (m_sounds : g₀.sounds = true) (m_seqNo : g₀.seqNo = true)
    : Same g₀ r₀ (setAmax s p x vs) := by
  unfold setAmax
  repeat' first
    | with_reducible assumption | intro _ | with_reducible apply setProg_same | with_reducible apply bumpBy_same
    | with_reducible apply ite_same | with_reducible apply foldl_same | (refine Same.ofSnd (by assumption) ?_) | dsimp only
    | split

theorem execStepBudgetExpiry_same {r₀ : State} {g₀ : Groups} {prog : Nat} {s : State} {t₀}
    (e₀ : execStepBudgetExpiry prog s = .next t₀) (h2 : Same g₀ r₀ s) (m_regs : g₀.regs = true) (m_qm : g₀.qm = true)
    (m_seq : g₀.seq = true) (m_sv : g₀.sv = true) (m_i3c : g₀.i3c = true) (m_sounds : g₀.sounds = true)
    (m_seqNo : g₀.seqNo = true) : Same g₀ r₀ t₀ := by
  unfold execStepBudgetExpiry at e₀
  repeat' first | contradiction | (injection e₀ with e₀; subst e₀) | dsimp only at e₀ | (split at e₀)
  repeat' first
    | with_reducible assumption | intro _ | with_reducible apply expireBudget_same | with_reducible apply ite_same
    | with_reducible apply foldl_same | (refine Same.ofSnd (by assumption) ?_) | dsimp only | split

theorem execSealGate_same {r₀ : State} {g₀ : Groups} {s : State} {t₀} (e₀ : execSealGate s = .next t₀) (h1 : Same g₀ r₀ s)
    (m_free : g₀.free = true) (m_regs : g₀.regs = true) (m_ck : g₀.ck = true) (m_qm : g₀.qm = true) (m_seq : g₀.seq = true)
    (m_sounds : g₀.sounds = true) (m_seqNo : g₀.seqNo = true) : Same g₀ r₀ t₀ := by
  unfold execSealGate at e₀
  repeat' first | contradiction | (injection e₀ with e₀; subst e₀) | dsimp only at e₀ | (split at e₀)
  repeat' first
    | with_reducible assumption | intro _ | with_reducible apply postSeals_same | with_reducible apply ite_same
    | with_reducible apply foldl_same | (refine Same.ofSnd (by assumption) ?_) | dsimp only | split

theorem execSqStop_same {r₀ : State} {g₀ : Groups} {h : Hdr} {s : State} {t₀} (e₀ : execSqStop h s = .next t₀) (h2 : Same g₀ r₀ s)
    (m_free : g₀.free = true) (m_qm : g₀.qm = true) (m_seq : g₀.seq = true) : Same g₀ r₀ t₀ := by
  unfold execSqStop at e₀
  repeat' first | contradiction | (injection e₀ with e₀; subst e₀) | dsimp only at e₀ | (split at e₀)
  repeat' first
    | with_reducible assumption | intro _ | with_reducible apply markStarted_same | with_reducible apply showSeq_same
    | with_reducible apply complete_same | with_reducible apply State.onSeq_same | with_reducible apply runDesc_same
    | with_reducible apply ite_same | with_reducible apply foldl_same | (refine Same.ofSnd (by assumption) ?_) | dsimp only
    | split

theorem execStepEnd_same {r₀ : State} {g₀ : Groups} {s : State} {t₀} (e₀ : execStepEnd s = .next t₀) (h1 : Same g₀ r₀ s)
    (m_free : g₀.free = true) (m_mem : g₀.mem = true) (m_regs : g₀.regs = true) (m_mu : g₀.mu = true) (m_qm : g₀.qm = true)
    (m_seq : g₀.seq = true) (m_sv : g₀.sv = true) (m_sec : g₀.sec = true) (m_i3c : g₀.i3c = true) (m_sounds : g₀.sounds = true)
    (m_seqNo : g₀.seqNo = true) : Same g₀ r₀ t₀ := by
  unfold execStepEnd at e₀
  repeat' first | contradiction | (injection e₀ with e₀; subst e₀) | dsimp only at e₀ | (split at e₀)
  repeat' first
    | with_reducible assumption | intro _ | with_reducible apply endStep_same | with_reducible apply ite_same
    | with_reducible apply foldl_same | (refine Same.ofSnd (by assumption) ?_) | dsimp only | split

theorem startRun_same {r₀ : State} {g₀ : Groups} {s : State} {h : Hdr} {count : Nat} (h1 : Same g₀ r₀ s) (m_qm : g₀.qm = true)
    (m_seq : g₀.seq = true) : Same g₀ r₀ (startRun s h count) := by
  unfold startRun
  repeat' first
    | with_reducible assumption | intro _ | with_reducible apply markStarted_same | with_reducible apply showSeq_same
    | with_reducible apply State.onSeq_same | with_reducible apply ite_same | with_reducible apply foldl_same
    | (refine Same.ofSnd (by assumption) ?_) | dsimp only | split

theorem endMalformed_same {r₀ : State} {g₀ : Groups} {s : State} {p : Nat} (h1 : Same g₀ r₀ s) (m_seq : g₀.seq = true)
    : Same g₀ r₀ (endMalformed s p) := by
  unfold endMalformed
  repeat' first
    | with_reducible assumption | intro _ | with_reducible apply setProg_same | with_reducible apply ite_same
    | with_reducible apply foldl_same | (refine Same.ofSnd (by assumption) ?_) | dsimp only | split

theorem postEntry_same {r₀ : State} {g₀ : Groups} {s : State} {p r : Nat} {patch arm : Bool} {q slot ctr : Nat}
    (h1 : Same g₀ r₀ s) (m_mem : g₀.mem = true) (m_regs : g₀.regs = true) (m_mu : g₀.mu = true) (m_qm : g₀.qm = true)
    (m_seq : g₀.seq = true) (m_sv : g₀.sv = true) (m_i3c : g₀.i3c = true) (m_sounds : g₀.sounds = true)
    (m_seqNo : g₀.seqNo = true) : Same g₀ r₀ (postEntry s p r patch arm q slot ctr) := by
  unfold postEntry
  repeat' first
    | with_reducible assumption | intro _ | with_reducible apply setQueue_same | with_reducible apply writeMem_same
    | with_reducible apply setProg_same | with_reducible apply endMalformed_same | with_reducible apply checkRead_same
    | with_reducible apply State.onSeq_same | with_reducible apply ite_same | with_reducible apply ite_same_snd
    | with_reducible apply foldl_same | with_reducible apply foldl_same_snd | (refine Same.ofSnd (by assumption) ?_) | dsimp only
    | split

theorem startStep_same {r₀ : State} {g₀ : Groups} {s : State} (h1 : Same g₀ r₀ s) (m_qm : g₀.qm = true) (m_seq : g₀.seq = true)
    : Same g₀ r₀ (startStep s) := by
  unfold startStep
  repeat' first
    | with_reducible assumption | intro _ | with_reducible apply showSeq_same | with_reducible apply State.onSeq_same
    | with_reducible apply reserveSlot_same | with_reducible apply ite_same | with_reducible apply foldl_same
    | (refine Same.ofSnd (by assumption) ?_) | dsimp only | split

theorem execAmaxd_same {r₀ : State} {g₀ : Groups} {prog x da : Nat} {s : State} {t₀} (e₀ : execAmaxd prog x da s = .next t₀)
    (h4 : Same g₀ r₀ s) (m_mem : g₀.mem = true) (m_regs : g₀.regs = true) (m_mu : g₀.mu = true) (m_seq : g₀.seq = true)
    (m_sv : g₀.sv = true) (m_i3c : g₀.i3c = true) (m_sounds : g₀.sounds = true) (m_seqNo : g₀.seqNo = true) : Same g₀ r₀ t₀ := by
  unfold execAmaxd at e₀
  repeat' first | contradiction | (injection e₀ with e₀; subst e₀) | dsimp only at e₀ | (split at e₀)
  repeat' first
    | with_reducible assumption | intro _ | with_reducible apply setAmax_same | with_reducible apply advance_same
    | with_reducible apply atInstr_same | with_reducible apply checkRead_same | with_reducible apply ite_same
    | with_reducible apply ite_same_snd | with_reducible apply foldl_same | with_reducible apply foldl_same_snd
    | (refine Same.ofSnd (by assumption) ?_) | dsimp only | split

theorem execAmax_same {r₀ : State} {g₀ : Groups} {prog x core n off : Nat} {s : State} {t₀}
    (e₀ : execAmax prog x core n off s = .next t₀) (h6 : Same g₀ r₀ s) (m_free : g₀.free = true) (m_pkg : g₀.pkg = true)
    (m_regs : g₀.regs = true) (m_gz : g₀.gz = true) (m_tw : g₀.tw = true) (m_mu : g₀.mu = true) (m_streams : g₀.streams = true)
    (m_qm : g₀.qm = true) (m_seq : g₀.seq = true) (m_img : g₀.img = true) (m_rings : g₀.rings = true) (m_snap : g₀.snap = true)
    (m_sv : g₀.sv = true) (m_sec : g₀.sec = true) (m_i3c : g₀.i3c = true) (m_sounds : g₀.sounds = true)
    (m_seqNo : g₀.seqNo = true) : Same g₀ r₀ t₀ := by
  unfold execAmax at e₀
  repeat' first | contradiction | (injection e₀ with e₀; subst e₀) | dsimp only at e₀ | (split at e₀)
  repeat' first
    | with_reducible assumption | intro _ | with_reducible apply panelFaultAt_same | with_reducible apply setAmax_same
    | with_reducible apply advance_same | with_reducible apply atInstr_same | with_reducible apply cbCheck_same
    | with_reducible apply ite_same | with_reducible apply ite_same_snd | with_reducible apply foldl_same
    | with_reducible apply foldl_same_snd | (refine Same.ofSnd (by assumption) ?_) | dsimp only | split

theorem execAnchor_same {r₀ : State} {g₀ : Groups} {prog r x1 x2 : Nat} {s : State} {t₀}
    (e₀ : execAnchor prog r x1 x2 s = .next t₀) (h5 : Same g₀ r₀ s) (m_seq : g₀.seq = true) : Same g₀ r₀ t₀ := by
  unfold execAnchor at e₀
  repeat' first | contradiction | (injection e₀ with e₀; subst e₀) | dsimp only at e₀ | (split at e₀)
  repeat' first
    | with_reducible assumption | intro _ | with_reducible apply setProg_same | with_reducible apply advance_same
    | with_reducible apply atInstr_same | with_reducible apply ite_same | with_reducible apply foldl_same
    | (refine Same.ofSnd (by assumption) ?_) | dsimp only | split

theorem execPost_same {r₀ : State} {g₀ : Groups} {prog r : Nat} {patch arm : Bool} {queue slot ctr : Nat} {s : State} {t₀}
    (e₀ : execPost prog r patch arm queue slot ctr s = .next t₀) (h8 : Same g₀ r₀ s) (m_mem : g₀.mem = true)
    (m_regs : g₀.regs = true) (m_mu : g₀.mu = true) (m_qm : g₀.qm = true) (m_seq : g₀.seq = true) (m_sv : g₀.sv = true)
    (m_i3c : g₀.i3c = true) (m_sounds : g₀.sounds = true) (m_seqNo : g₀.seqNo = true) : Same g₀ r₀ t₀ := by
  unfold execPost at e₀
  repeat' first | contradiction | (injection e₀ with e₀; subst e₀) | dsimp only at e₀ | (split at e₀)
  repeat' first
    | with_reducible assumption | intro _ | with_reducible apply postEntry_same | with_reducible apply atInstr_same
    | with_reducible apply ite_same | with_reducible apply foldl_same | (refine Same.ofSnd (by assumption) ?_) | dsimp only
    | split

theorem execSealPoint_same {r₀ : State} {g₀ : Groups} {prog : Nat} {s : State} {t₀} (e₀ : execSealPoint prog s = .next t₀)
    (h2 : Same g₀ r₀ s) (m_seq : g₀.seq = true) : Same g₀ r₀ t₀ := by
  unfold execSealPoint at e₀
  repeat' first | contradiction | (injection e₀ with e₀; subst e₀) | dsimp only at e₀ | (split at e₀)
  repeat' first
    | with_reducible assumption | intro _ | with_reducible apply setProg_same | with_reducible apply atInstr_same
    | with_reducible apply ite_same | with_reducible apply foldl_same | (refine Same.ofSnd (by assumption) ?_) | dsimp only
    | split

theorem execClosePart_same {r₀ : State} {g₀ : Groups} {s : State} {t₀} (e₀ : execClosePart s = .next t₀) (h1 : Same g₀ r₀ s)
    (m_seq : g₀.seq = true) : Same g₀ r₀ t₀ := by
  unfold execClosePart at e₀
  repeat' first | contradiction | (injection e₀ with e₀; subst e₀) | dsimp only at e₀ | (split at e₀)
  repeat' first
    | with_reducible assumption | intro _ | with_reducible apply showSeq_same | with_reducible apply State.onSeq_same
    | with_reducible apply ite_same | with_reducible apply foldl_same | (refine Same.ofSnd (by assumption) ?_) | dsimp only
    | split

theorem execFire_same {r₀ : State} {g₀ : Groups} {prog : Nat} {s : State} {t₀} (e₀ : execFire prog s = .next t₀)
    (h2 : Same g₀ r₀ s) (m_ck : g₀.ck = true) (m_seq : g₀.seq = true) (m_sounds : g₀.sounds = true) (m_seqNo : g₀.seqNo = true)
    : Same g₀ r₀ t₀ := by
  unfold execFire at e₀
  repeat' first | contradiction | (injection e₀ with e₀; subst e₀) | dsimp only at e₀ | (split at e₀)
  repeat' first
    | with_reducible assumption | intro _ | with_reducible apply advance_same | with_reducible apply atInstr_same
    | with_reducible apply requestDatum_same | with_reducible apply ite_same | with_reducible apply foldl_same
    | (refine Same.ofSnd (by assumption) ?_) | dsimp only | split

theorem execSqRun_same {r₀ : State} {g₀ : Groups} {h : Hdr} {count : Nat} {s : State} {t₀} (e₀ : execSqRun h count s = .next t₀)
    (h3 : Same g₀ r₀ s) (m_free : g₀.free = true) (m_qm : g₀.qm = true) (m_seq : g₀.seq = true) : Same g₀ r₀ t₀ := by
  unfold execSqRun at e₀
  repeat' first | contradiction | (injection e₀ with e₀; subst e₀) | dsimp only at e₀ | (split at e₀)
  repeat' first
    | with_reducible assumption | intro _ | with_reducible apply markStarted_same | with_reducible apply complete_same
    | with_reducible apply State.onSeq_same | with_reducible apply runDesc_same | with_reducible apply startRun_same
    | with_reducible apply ite_same | with_reducible apply foldl_same | (refine Same.ofSnd (by assumption) ?_) | dsimp only
    | split

end Sys2Proof.Machine
end

