-- ==== Sys2Proof/Laws/SameQueues.lean ====
section
/-!
SUPPORT. What the definitions of Machine/Queues.lean may change (Laws/Same.lean).
-/

set_option linter.all false

namespace Sys2Proof.Machine

open Sys2Proof

theorem execResume_same {r₀ : State} {g₀ : Groups} {value : Word64} {s : State} {t₀} (e₀ : execResume value s = .next t₀)
    (h2 : Same g₀ r₀ s) (m_qm : g₀.qm = true) : Same g₀ r₀ t₀ := by
  unfold execResume at e₀
  repeat' first | contradiction | (injection e₀ with e₀; subst e₀) | dsimp only at e₀ | (split at e₀)
  repeat' first
    | with_reducible assumption | intro _ | with_reducible apply writeQctl_same | with_reducible apply ite_same
    | with_reducible apply foldl_same | (refine Same.ofSnd (by assumption) ?_) | dsimp only | split

theorem execRhead_same {r₀ : State} {g₀ : Groups} {value : Word64} {s : State} {t₀} (e₀ : execRhead value s = .next t₀)
    (h2 : Same g₀ r₀ s) (m_regs : g₀.regs = true) (m_qm : g₀.qm = true) (m_sounds : g₀.sounds = true) (m_seqNo : g₀.seqNo = true)
    : Same g₀ r₀ t₀ := by
  unfold execRhead at e₀
  repeat' first | contradiction | (injection e₀ with e₀; subst e₀) | dsimp only at e₀ | (split at e₀)
  repeat' first
    | with_reducible assumption | intro _ | with_reducible apply writeRhead_same | with_reducible apply ite_same
    | with_reducible apply foldl_same | (refine Same.ofSnd (by assumption) ?_) | dsimp only | split

theorem passHead_same {r₀ : State} {g₀ : Groups} {s : State} {q size : Nat} (h1 : Same g₀ r₀ s) (m_qm : g₀.qm = true)
    : Same g₀ r₀ (passHead s q size) := by
  unfold passHead
  repeat' first
    | with_reducible assumption | intro _ | with_reducible apply setQueue_same | with_reducible apply ite_same
    | with_reducible apply foldl_same | (refine Same.ofSnd (by assumption) ?_) | dsimp only | split

theorem takeEntry_same {r₀ : State} {g₀ : Groups} {s : State} {q size : Nat} {e : List Byte} {idx gen : Nat} (h1 : Same g₀ r₀ s)
    (m_qm : g₀.qm = true) (m_seq : g₀.seq = true) : Same g₀ r₀ (takeEntry s q size e idx gen) := by
  unfold takeEntry
  repeat' first
    | with_reducible assumption | intro _ | with_reducible apply setQueue_same | with_reducible apply completeIdle_same
    | with_reducible apply State.onSeq_same | with_reducible apply passHead_same | with_reducible apply ite_same
    | with_reducible apply foldl_same | (refine Same.ofSnd (by assumption) ?_) | dsimp only | split

theorem readHead_same {r₀ : State} {g₀ : Groups} {s : State} {q : Nat} {r : Rec} (h1 : Same g₀ r₀ s) (m_mem : g₀.mem = true)
    (m_regs : g₀.regs = true) (m_mu : g₀.mu = true) (m_qm : g₀.qm = true) (m_seq : g₀.seq = true) (m_sv : g₀.sv = true)
    (m_i3c : g₀.i3c = true) (m_sounds : g₀.sounds = true) (m_seqNo : g₀.seqNo = true) : Same g₀ r₀ (readHead s q r) := by
  unfold readHead
  repeat' first
    | with_reducible assumption | intro _ | with_reducible apply setQueue_same | with_reducible apply completeIdle_same
    | with_reducible apply bump_same | with_reducible apply checkRead_same | with_reducible apply takeEntry_same
    | with_reducible apply State.onSeq_same | with_reducible apply passHead_same | with_reducible apply ite_same
    | with_reducible apply ite_same_snd | with_reducible apply foldl_same | with_reducible apply foldl_same_snd
    | (refine Same.ofSnd (by assumption) ?_) | dsimp only | split

theorem writeRegs_same {r₀ : State} {g₀ : Groups} {s : State} {a : Agent} {a2 : Nat} {a3 : List Byte} {a4 : Nat}
    (h1 : Same g₀ r₀ s) (m_free : g₀.free = true) (m_mem : g₀.mem = true) (m_regs : g₀.regs = true) (m_gz : g₀.gz = true)
    (m_ck : g₀.ck = true) (m_tw : g₀.tw = true) (m_mu : g₀.mu = true) (m_streams : g₀.streams = true) (m_qm : g₀.qm = true)
    (m_seq : g₀.seq = true) (m_img : g₀.img = true) (m_rings : g₀.rings = true) (m_snap : g₀.snap = true) (m_sv : g₀.sv = true)
    (m_sec : g₀.sec = true) (m_ct : g₀.ct = true) (m_host : g₀.host = true) (m_i3c : g₀.i3c = true) (m_sounds : g₀.sounds = true)
    (m_seqNo : g₀.seqNo = true) : Same g₀ r₀ (writeRegs s a a2 a3 a4) := by
  induction a4 generalizing s a2 a3 with
  | zero =>
    unfold writeRegs
    repeat' first
      | with_reducible assumption | intro _ | with_reducible apply writeReg_same | with_reducible apply ite_same
      | with_reducible apply foldl_same | (refine Same.ofSnd (by assumption) ?_) | dsimp only | split
  | succ _ ih =>
    unfold writeRegs
    repeat' first
      | with_reducible assumption | intro _ | with_reducible apply ih | with_reducible apply writeReg_same
      | with_reducible apply ite_same | with_reducible apply foldl_same | (refine Same.ofSnd (by assumption) ?_) | dsimp only
      | split

theorem execInlineWrite_same {r₀ : State} {g₀ : Groups} {h : Hdr} {da len : Nat} {payload : List Byte} {s : State} {t₀}
    (e₀ : execInlineWrite h da len payload s = .next t₀) (h5 : Same g₀ r₀ s) (m_free : g₀.free = true) (m_mem : g₀.mem = true)
    (m_regs : g₀.regs = true) (m_gz : g₀.gz = true) (m_ck : g₀.ck = true) (m_tw : g₀.tw = true) (m_mu : g₀.mu = true)
    (m_streams : g₀.streams = true) (m_qm : g₀.qm = true) (m_seq : g₀.seq = true) (m_img : g₀.img = true)
    (m_rings : g₀.rings = true) (m_snap : g₀.snap = true) (m_sv : g₀.sv = true) (m_sec : g₀.sec = true) (m_ct : g₀.ct = true)
    (m_host : g₀.host = true) (m_i3c : g₀.i3c = true) (m_sounds : g₀.sounds = true) (m_seqNo : g₀.seqNo = true)
    : Same g₀ r₀ t₀ := by
  unfold execInlineWrite at e₀
  repeat' first | contradiction | (injection e₀ with e₀; subst e₀) | dsimp only at e₀ | (split at e₀)
  repeat' first
    | with_reducible assumption | intro _ | with_reducible apply writeMem_same | with_reducible apply finish_same
    | with_reducible apply writeRegs_same | with_reducible apply complete_same | with_reducible apply runDesc_same
    | with_reducible apply ite_same | with_reducible apply foldl_same | (refine Same.ofSnd (by assumption) ?_) | dsimp only
    | split

theorem execSealReread_same {r₀ : State} {g₀ : Groups} {queue : Nat} {s : State} {t₀} (e₀ : execSealReread queue s = .next t₀)
    (h2 : Same g₀ r₀ s) (m_mem : g₀.mem = true) (m_regs : g₀.regs = true) (m_mu : g₀.mu = true) (m_qm : g₀.qm = true)
    (m_seq : g₀.seq = true) (m_sv : g₀.sv = true) (m_i3c : g₀.i3c = true) (m_sounds : g₀.sounds = true)
    (m_seqNo : g₀.seqNo = true) : Same g₀ r₀ t₀ := by
  unfold execSealReread at e₀
  repeat' first | contradiction | (injection e₀ with e₀; subst e₀) | dsimp only at e₀ | (split at e₀)
  repeat' first
    | with_reducible assumption | intro _ | with_reducible apply readHead_same | with_reducible apply ite_same
    | with_reducible apply foldl_same | (refine Same.ofSnd (by assumption) ?_) | dsimp only | split

theorem countStatus_same {r₀ : State} {g₀ : Groups} {s : State} {q st : Nat} (h1 : Same g₀ r₀ s) (m_regs : g₀.regs = true)
    (m_sv : g₀.sv = true) (m_i3c : g₀.i3c = true) (m_sounds : g₀.sounds = true) (m_seqNo : g₀.seqNo = true)
    : Same g₀ r₀ (countStatus s q st) := by
  unfold countStatus
  repeat' first
    | with_reducible assumption | intro _ | with_reducible apply bump_same | with_reducible apply setSticky_same
    | with_reducible apply ite_same | with_reducible apply foldl_same | (refine Same.ofSnd (by assumption) ?_) | dsimp only
    | split

theorem deliver_same {r₀ : State} {g₀ : Groups} {s : State} {c : Cpl} (h1 : Same g₀ r₀ s) (m_mem : g₀.mem = true)
    (m_regs : g₀.regs = true) (m_mu : g₀.mu = true) (m_qm : g₀.qm = true) (m_seq : g₀.seq = true) (m_sv : g₀.sv = true)
    (m_host : g₀.host = true) (m_i3c : g₀.i3c = true) (m_sounds : g₀.sounds = true) (m_seqNo : g₀.seqNo = true)
    : Same g₀ r₀ (deliver s c) := by
  unfold deliver
  repeat' first
    | with_reducible assumption | intro _ | with_reducible apply countStatus_same | with_reducible apply mboxDone_same
    | with_reducible apply seqRecord_same | with_reducible apply writeRecord_same | with_reducible apply releaseSlot_same
    | with_reducible apply State.onQm_same | with_reducible apply ite_same | with_reducible apply foldl_same
    | (refine Same.ofSnd (by assumption) ?_) | dsimp only | split

theorem handOver_same {r₀ : State} {g₀ : Groups} {s : State} {x : Fetched} (h1 : Same g₀ r₀ s) (m_free : g₀.free = true)
    (m_regs : g₀.regs = true) (m_gz : g₀.gz = true) (m_tw : g₀.tw = true) (m_mu : g₀.mu = true) (m_streams : g₀.streams = true)
    (m_qm : g₀.qm = true) (m_seq : g₀.seq = true) (m_img : g₀.img = true) (m_rings : g₀.rings = true) (m_snap : g₀.snap = true)
    (m_sec : g₀.sec = true) (m_sounds : g₀.sounds = true) (m_seqNo : g₀.seqNo = true) : Same g₀ r₀ (handOver s x) := by
  unfold handOver
  repeat' first
    | with_reducible assumption | intro _ | with_reducible apply completeIdle_same | with_reducible apply bump_same
    | with_reducible apply endEarly_same | with_reducible apply setCore_same | with_reducible apply State.onQm_same
    | with_reducible apply ite_same | with_reducible apply foldl_same | (refine Same.ofSnd (by assumption) ?_) | dsimp only
    | split

theorem execFence_same {r₀ : State} {g₀ : Groups} {h : Hdr} {far remote panel : Bool} {s : State} {t₀}
    (e₀ : execFence h far remote panel s = .next t₀) (h5 : Same g₀ r₀ s) (m_free : g₀.free = true) (m_qm : g₀.qm = true)
    : Same g₀ r₀ t₀ := by
  unfold execFence at e₀
  repeat' first | contradiction | (injection e₀ with e₀; subst e₀) | dsimp only at e₀ | (split at e₀)
  repeat' first
    | with_reducible assumption | intro _ | with_reducible apply markStarted_same | with_reducible apply complete_same
    | with_reducible apply waitFor_same | with_reducible apply ite_same | with_reducible apply foldl_same
    | (refine Same.ofSnd (by assumption) ?_) | dsimp only | split

theorem execDoorbell_same {r₀ : State} {g₀ : Groups} {queue : Nat} {value : Word64} {s : State} {t₀}
    (e₀ : execDoorbell queue value s = .next t₀) (h3 : Same g₀ r₀ s) (m_regs : g₀.regs = true) (m_qm : g₀.qm = true)
    (m_sv : g₀.sv = true) (m_i3c : g₀.i3c = true) (m_sounds : g₀.sounds = true) (m_seqNo : g₀.seqNo = true) : Same g₀ r₀ t₀ := by
  unfold execDoorbell at e₀
  repeat' first | contradiction | (injection e₀ with e₀; subst e₀) | dsimp only at e₀ | (split at e₀)
  repeat' first
    | with_reducible assumption | intro _ | with_reducible apply ringDoorbell_same | with_reducible apply ite_same
    | with_reducible apply foldl_same | (refine Same.ofSnd (by assumption) ?_) | dsimp only | split

theorem execDescriptorFetch_same {r₀ : State} {g₀ : Groups} {queue : Nat} {s : State} {t₀}
    (e₀ : execDescriptorFetch queue s = .next t₀) (h2 : Same g₀ r₀ s) (m_mem : g₀.mem = true) (m_regs : g₀.regs = true)
    (m_mu : g₀.mu = true) (m_qm : g₀.qm = true) (m_seq : g₀.seq = true) (m_sv : g₀.sv = true) (m_i3c : g₀.i3c = true)
    (m_sounds : g₀.sounds = true) (m_seqNo : g₀.seqNo = true) : Same g₀ r₀ t₀ := by
  unfold execDescriptorFetch at e₀
  repeat' first | contradiction | (injection e₀ with e₀; subst e₀) | dsimp only at e₀ | (split at e₀)
  repeat' first
    | with_reducible assumption | intro _ | with_reducible apply readHead_same | with_reducible apply reserveSlot_same
    | with_reducible apply ite_same | with_reducible apply foldl_same | (refine Same.ofSnd (by assumption) ?_) | dsimp only
    | split

theorem sendCpl_same {r₀ : State} {g₀ : Groups} {s : State} {c : Cpl} (h1 : Same g₀ r₀ s) (m_pkg : g₀.pkg = true)
    (m_mem : g₀.mem = true) (m_regs : g₀.regs = true) (m_gz : g₀.gz = true) (m_mu : g₀.mu = true) (m_qm : g₀.qm = true)
    (m_seq : g₀.seq = true) (m_sv : g₀.sv = true) (m_host : g₀.host = true) (m_i3c : g₀.i3c = true) (m_sounds : g₀.sounds = true)
    (m_seqNo : g₀.seqNo = true) : Same g₀ r₀ (sendCpl s c) := by
  unfold sendCpl
  repeat' first
    | with_reducible assumption | intro _ | with_reducible apply deliver_same | with_reducible apply State.onQm_same
    | with_reducible apply ite_same | with_reducible apply ite_same_snd | with_reducible apply foldl_same
    | with_reducible apply foldl_same_snd | (with_reducible refine goes_same (by assumption) ?_ ?_ ?_ ?_ ?_ ?_ ?_ ?_)
    | (refine goes_same (x15 := (_, _)) (by assumption) ?_ ?_ ?_ ?_ ?_ ?_ ?_ ?_) | (refine Same.ofSnd (by assumption) ?_)
    | dsimp only | split

theorem refused_same {r₀ : State} {g₀ : Groups} {s : State} {f : Flit} (h1 : Same g₀ r₀ s) (m_free : g₀.free = true)
    (m_pkg : g₀.pkg = true) (m_regs : g₀.regs = true) (m_gz : g₀.gz = true) (m_qm : g₀.qm = true) (m_rings : g₀.rings = true)
    (m_sounds : g₀.sounds = true) (m_seqNo : g₀.seqNo = true) (m_cores : g₀.cores = true) : Same g₀ r₀ (refused s f) := by
  unfold refused
  repeat' first
    | with_reducible assumption | intro _ | with_reducible apply lateAnswer_same | with_reducible apply endStore_same
    | with_reducible apply answered_same | with_reducible apply answerIngress_same | with_reducible apply closeReq_same
    | with_reducible apply ite_same | with_reducible apply foldl_same | (refine Same.ofSnd (by assumption) ?_) | dsimp only
    | split

theorem execCompletion_same {r₀ : State} {g₀ : Groups} {f : Flit} {s : State} {t₀} (e₀ : execCompletion f s = .next t₀)
    (h2 : Same g₀ r₀ s) (m_free : g₀.free = true) (m_pkg : g₀.pkg = true) (m_mem : g₀.mem = true) (m_regs : g₀.regs = true)
    (m_gz : g₀.gz = true) (m_mu : g₀.mu = true) (m_qm : g₀.qm = true) (m_seq : g₀.seq = true) (m_rings : g₀.rings = true)
    (m_sv : g₀.sv = true) (m_host : g₀.host = true) (m_i3c : g₀.i3c = true) (m_sounds : g₀.sounds = true)
    (m_seqNo : g₀.seqNo = true) (m_cores : g₀.cores = true) : Same g₀ r₀ t₀ := by
  unfold execCompletion at e₀
  repeat' first | contradiction | (injection e₀ with e₀; subst e₀) | dsimp only at e₀ | (split at e₀)
  repeat' first
    | with_reducible assumption | intro _ | with_reducible apply arrive_same | with_reducible apply sendCpl_same
    | with_reducible apply refused_same | with_reducible apply deliver_same | with_reducible apply ite_same
    | with_reducible apply ite_same_snd | with_reducible apply foldl_same | with_reducible apply foldl_same_snd
    | (refine Same.ofSnd (by assumption) ?_) | dsimp only | split

theorem execDispatch_same {r₀ : State} {g₀ : Groups} {queue : Nat} {starved : Bool} {s : State} {t₀}
    (e₀ : execDispatch queue starved s = .next t₀) (h3 : Same g₀ r₀ s) (m_free : g₀.free = true) (m_regs : g₀.regs = true)
    (m_gz : g₀.gz = true) (m_tw : g₀.tw = true) (m_mu : g₀.mu = true) (m_streams : g₀.streams = true) (m_qm : g₀.qm = true)
    (m_seq : g₀.seq = true) (m_img : g₀.img = true) (m_rings : g₀.rings = true) (m_snap : g₀.snap = true) (m_sec : g₀.sec = true)
    (m_sounds : g₀.sounds = true) (m_seqNo : g₀.seqNo = true) : Same g₀ r₀ t₀ := by
  unfold execDispatch at e₀
  repeat' first | contradiction | (injection e₀ with e₀; subst e₀) | dsimp only at e₀ | (split at e₀)
  repeat' first
    | with_reducible assumption | intro _ | with_reducible apply setQueue_same | with_reducible apply handOver_same
    | with_reducible apply State.onQm_same | with_reducible apply ite_same | with_reducible apply foldl_same
    | (refine Same.ofSnd (by assumption) ?_) | dsimp only | split

theorem execNop_same {r₀ : State} {g₀ : Groups} {h : Hdr} {s : State} {t₀} (e₀ : execNop h s = .next t₀) (h2 : Same g₀ r₀ s)
    (m_free : g₀.free = true) (m_qm : g₀.qm = true) : Same g₀ r₀ t₀ := by
  unfold execNop at e₀
  repeat' first | contradiction | (injection e₀ with e₀; subst e₀) | dsimp only at e₀ | (split at e₀)
  repeat' first
    | with_reducible assumption | intro _ | with_reducible apply complete_same | with_reducible apply runDesc_same
    | with_reducible apply ite_same | with_reducible apply foldl_same | (refine Same.ofSnd (by assumption) ?_) | dsimp only
    | split

end Sys2Proof.Machine
end

