-- ==== Sys2Proof/Laws/State.lean ====
section
/-!
SUPPORT. What each group update of Machine/Ops.lean does to each field of the state: the named group is changed, every other one is
left. All true by definition.
-/

namespace Sys2Proof.Machine

variable (s : State)

/-! onFree -/

section

variable (f : Nat → Nat)

@[simp] theorem State.onFree_pending : (s.onFree f).pending = s.pending := rfl
@[simp] theorem State.onFree_free : (s.onFree f).free = f s.free := rfl
@[simp] theorem State.onFree_pkg : (s.onFree f).pkg = s.pkg := rfl
@[simp] theorem State.onFree_mem : (s.onFree f).mem = s.mem := rfl
@[simp] theorem State.onFree_regs : (s.onFree f).regs = s.regs := rfl
@[simp] theorem State.onFree_gz : (s.onFree f).gz = s.gz := rfl
@[simp] theorem State.onFree_ck : (s.onFree f).ck = s.ck := rfl
@[simp] theorem State.onFree_tw : (s.onFree f).tw = s.tw := rfl
@[simp] theorem State.onFree_mu : (s.onFree f).mu = s.mu := rfl
@[simp] theorem State.onFree_streams : (s.onFree f).streams = s.streams := rfl
@[simp] theorem State.onFree_qm : (s.onFree f).qm = s.qm := rfl
@[simp] theorem State.onFree_seq : (s.onFree f).seq = s.seq := rfl
@[simp] theorem State.onFree_img : (s.onFree f).img = s.img := rfl
@[simp] theorem State.onFree_rings : (s.onFree f).rings = s.rings := rfl
@[simp] theorem State.onFree_twin : (s.onFree f).twin = s.twin := rfl
@[simp] theorem State.onFree_snap : (s.onFree f).snap = s.snap := rfl
@[simp] theorem State.onFree_sv : (s.onFree f).sv = s.sv := rfl
@[simp] theorem State.onFree_sec : (s.onFree f).sec = s.sec := rfl
@[simp] theorem State.onFree_ct : (s.onFree f).ct = s.ct := rfl
@[simp] theorem State.onFree_host : (s.onFree f).host = s.host := rfl
@[simp] theorem State.onFree_i3c : (s.onFree f).i3c = s.i3c := rfl
@[simp] theorem State.onFree_sounds : (s.onFree f).sounds = s.sounds := rfl
@[simp] theorem State.onFree_seqNo : (s.onFree f).seqNo = s.seqNo := rfl
@[simp] theorem State.onFree_cores : (s.onFree f).cores = s.cores := rfl

end

/-! onPkg -/

section

variable (f : Pkg → Pkg)

@[simp] theorem State.onPkg_pending : (s.onPkg f).pending = s.pending := rfl
@[simp] theorem State.onPkg_free : (s.onPkg f).free = s.free := rfl
@[simp] theorem State.onPkg_pkg : (s.onPkg f).pkg = f s.pkg := rfl
@[simp] theorem State.onPkg_mem : (s.onPkg f).mem = s.mem := rfl
@[simp] theorem State.onPkg_regs : (s.onPkg f).regs = s.regs := rfl
@[simp] theorem State.onPkg_gz : (s.onPkg f).gz = s.gz := rfl
@[simp] theorem State.onPkg_ck : (s.onPkg f).ck = s.ck := rfl
@[simp] theorem State.onPkg_tw : (s.onPkg f).tw = s.tw := rfl
@[simp] theorem State.onPkg_mu : (s.onPkg f).mu = s.mu := rfl
@[simp] theorem State.onPkg_streams : (s.onPkg f).streams = s.streams := rfl
@[simp] theorem State.onPkg_qm : (s.onPkg f).qm = s.qm := rfl
@[simp] theorem State.onPkg_seq : (s.onPkg f).seq = s.seq := rfl
@[simp] theorem State.onPkg_img : (s.onPkg f).img = s.img := rfl
@[simp] theorem State.onPkg_rings : (s.onPkg f).rings = s.rings := rfl
@[simp] theorem State.onPkg_twin : (s.onPkg f).twin = s.twin := rfl
@[simp] theorem State.onPkg_snap : (s.onPkg f).snap = s.snap := rfl
@[simp] theorem State.onPkg_sv : (s.onPkg f).sv = s.sv := rfl
@[simp] theorem State.onPkg_sec : (s.onPkg f).sec = s.sec := rfl
@[simp] theorem State.onPkg_ct : (s.onPkg f).ct = s.ct := rfl
@[simp] theorem State.onPkg_host : (s.onPkg f).host = s.host := rfl
@[simp] theorem State.onPkg_i3c : (s.onPkg f).i3c = s.i3c := rfl
@[simp] theorem State.onPkg_sounds : (s.onPkg f).sounds = s.sounds := rfl
@[simp] theorem State.onPkg_seqNo : (s.onPkg f).seqNo = s.seqNo := rfl
@[simp] theorem State.onPkg_cores : (s.onPkg f).cores = s.cores := rfl

end

/-! onMem -/

section

variable (f : Mem → Mem)

@[simp] theorem State.onMem_pending : (s.onMem f).pending = s.pending := rfl
@[simp] theorem State.onMem_free : (s.onMem f).free = s.free := rfl
@[simp] theorem State.onMem_pkg : (s.onMem f).pkg = s.pkg := rfl
@[simp] theorem State.onMem_mem : (s.onMem f).mem = f s.mem := rfl
@[simp] theorem State.onMem_regs : (s.onMem f).regs = s.regs := rfl
@[simp] theorem State.onMem_gz : (s.onMem f).gz = s.gz := rfl
@[simp] theorem State.onMem_ck : (s.onMem f).ck = s.ck := rfl
@[simp] theorem State.onMem_tw : (s.onMem f).tw = s.tw := rfl
@[simp] theorem State.onMem_mu : (s.onMem f).mu = s.mu := rfl
@[simp] theorem State.onMem_streams : (s.onMem f).streams = s.streams := rfl
@[simp] theorem State.onMem_qm : (s.onMem f).qm = s.qm := rfl
@[simp] theorem State.onMem_seq : (s.onMem f).seq = s.seq := rfl
@[simp] theorem State.onMem_img : (s.onMem f).img = s.img := rfl
@[simp] theorem State.onMem_rings : (s.onMem f).rings = s.rings := rfl
@[simp] theorem State.onMem_twin : (s.onMem f).twin = s.twin := rfl
@[simp] theorem State.onMem_snap : (s.onMem f).snap = s.snap := rfl
@[simp] theorem State.onMem_sv : (s.onMem f).sv = s.sv := rfl
@[simp] theorem State.onMem_sec : (s.onMem f).sec = s.sec := rfl
@[simp] theorem State.onMem_ct : (s.onMem f).ct = s.ct := rfl
@[simp] theorem State.onMem_host : (s.onMem f).host = s.host := rfl
@[simp] theorem State.onMem_i3c : (s.onMem f).i3c = s.i3c := rfl
@[simp] theorem State.onMem_sounds : (s.onMem f).sounds = s.sounds := rfl
@[simp] theorem State.onMem_seqNo : (s.onMem f).seqNo = s.seqNo := rfl
@[simp] theorem State.onMem_cores : (s.onMem f).cores = s.cores := rfl

end

/-! onRegs -/

section

variable (f : (FMap Nat) → (FMap Nat))

@[simp] theorem State.onRegs_pending : (s.onRegs f).pending = s.pending := rfl
@[simp] theorem State.onRegs_free : (s.onRegs f).free = s.free := rfl
@[simp] theorem State.onRegs_pkg : (s.onRegs f).pkg = s.pkg := rfl
@[simp] theorem State.onRegs_mem : (s.onRegs f).mem = s.mem := rfl
@[simp] theorem State.onRegs_regs : (s.onRegs f).regs = f s.regs := rfl
@[simp] theorem State.onRegs_gz : (s.onRegs f).gz = s.gz := rfl
@[simp] theorem State.onRegs_ck : (s.onRegs f).ck = s.ck := rfl
@[simp] theorem State.onRegs_tw : (s.onRegs f).tw = s.tw := rfl
@[simp] theorem State.onRegs_mu : (s.onRegs f).mu = s.mu := rfl
@[simp] theorem State.onRegs_streams : (s.onRegs f).streams = s.streams := rfl
@[simp] theorem State.onRegs_qm : (s.onRegs f).qm = s.qm := rfl
@[simp] theorem State.onRegs_seq : (s.onRegs f).seq = s.seq := rfl
@[simp] theorem State.onRegs_img : (s.onRegs f).img = s.img := rfl
@[simp] theorem State.onRegs_rings : (s.onRegs f).rings = s.rings := rfl
@[simp] theorem State.onRegs_twin : (s.onRegs f).twin = s.twin := rfl
@[simp] theorem State.onRegs_snap : (s.onRegs f).snap = s.snap := rfl
@[simp] theorem State.onRegs_sv : (s.onRegs f).sv = s.sv := rfl
@[simp] theorem State.onRegs_sec : (s.onRegs f).sec = s.sec := rfl
@[simp] theorem State.onRegs_ct : (s.onRegs f).ct = s.ct := rfl
@[simp] theorem State.onRegs_host : (s.onRegs f).host = s.host := rfl
@[simp] theorem State.onRegs_i3c : (s.onRegs f).i3c = s.i3c := rfl
@[simp] theorem State.onRegs_sounds : (s.onRegs f).sounds = s.sounds := rfl
@[simp] theorem State.onRegs_seqNo : (s.onRegs f).seqNo = s.seqNo := rfl
@[simp] theorem State.onRegs_cores : (s.onRegs f).cores = s.cores := rfl

end

/-! onGz -/

section

variable (f : Gauze → Gauze)

@[simp] theorem State.onGz_pending : (s.onGz f).pending = s.pending := rfl
@[simp] theorem State.onGz_free : (s.onGz f).free = s.free := rfl
@[simp] theorem State.onGz_pkg : (s.onGz f).pkg = s.pkg := rfl
@[simp] theorem State.onGz_mem : (s.onGz f).mem = s.mem := rfl
@[simp] theorem State.onGz_regs : (s.onGz f).regs = s.regs := rfl
@[simp] theorem State.onGz_gz : (s.onGz f).gz = f s.gz := rfl
@[simp] theorem State.onGz_ck : (s.onGz f).ck = s.ck := rfl
@[simp] theorem State.onGz_tw : (s.onGz f).tw = s.tw := rfl
@[simp] theorem State.onGz_mu : (s.onGz f).mu = s.mu := rfl
@[simp] theorem State.onGz_streams : (s.onGz f).streams = s.streams := rfl
@[simp] theorem State.onGz_qm : (s.onGz f).qm = s.qm := rfl
@[simp] theorem State.onGz_seq : (s.onGz f).seq = s.seq := rfl
@[simp] theorem State.onGz_img : (s.onGz f).img = s.img := rfl
@[simp] theorem State.onGz_rings : (s.onGz f).rings = s.rings := rfl
@[simp] theorem State.onGz_twin : (s.onGz f).twin = s.twin := rfl
@[simp] theorem State.onGz_snap : (s.onGz f).snap = s.snap := rfl
@[simp] theorem State.onGz_sv : (s.onGz f).sv = s.sv := rfl
@[simp] theorem State.onGz_sec : (s.onGz f).sec = s.sec := rfl
@[simp] theorem State.onGz_ct : (s.onGz f).ct = s.ct := rfl
@[simp] theorem State.onGz_host : (s.onGz f).host = s.host := rfl
@[simp] theorem State.onGz_i3c : (s.onGz f).i3c = s.i3c := rfl
@[simp] theorem State.onGz_sounds : (s.onGz f).sounds = s.sounds := rfl
@[simp] theorem State.onGz_seqNo : (s.onGz f).seqNo = s.seqNo := rfl
@[simp] theorem State.onGz_cores : (s.onGz f).cores = s.cores := rfl

end

/-! onCk -/

section

variable (f : Clocks → Clocks)

@[simp] theorem State.onCk_pending : (s.onCk f).pending = s.pending := rfl
@[simp] theorem State.onCk_free : (s.onCk f).free = s.free := rfl
@[simp] theorem State.onCk_pkg : (s.onCk f).pkg = s.pkg := rfl
@[simp] theorem State.onCk_mem : (s.onCk f).mem = s.mem := rfl
@[simp] theorem State.onCk_regs : (s.onCk f).regs = s.regs := rfl
@[simp] theorem State.onCk_gz : (s.onCk f).gz = s.gz := rfl
@[simp] theorem State.onCk_ck : (s.onCk f).ck = f s.ck := rfl
@[simp] theorem State.onCk_tw : (s.onCk f).tw = s.tw := rfl
@[simp] theorem State.onCk_mu : (s.onCk f).mu = s.mu := rfl
@[simp] theorem State.onCk_streams : (s.onCk f).streams = s.streams := rfl
@[simp] theorem State.onCk_qm : (s.onCk f).qm = s.qm := rfl
@[simp] theorem State.onCk_seq : (s.onCk f).seq = s.seq := rfl
@[simp] theorem State.onCk_img : (s.onCk f).img = s.img := rfl
@[simp] theorem State.onCk_rings : (s.onCk f).rings = s.rings := rfl
@[simp] theorem State.onCk_twin : (s.onCk f).twin = s.twin := rfl
@[simp] theorem State.onCk_snap : (s.onCk f).snap = s.snap := rfl
@[simp] theorem State.onCk_sv : (s.onCk f).sv = s.sv := rfl
@[simp] theorem State.onCk_sec : (s.onCk f).sec = s.sec := rfl
@[simp] theorem State.onCk_ct : (s.onCk f).ct = s.ct := rfl
@[simp] theorem State.onCk_host : (s.onCk f).host = s.host := rfl
@[simp] theorem State.onCk_i3c : (s.onCk f).i3c = s.i3c := rfl
@[simp] theorem State.onCk_sounds : (s.onCk f).sounds = s.sounds := rfl
@[simp] theorem State.onCk_seqNo : (s.onCk f).seqNo = s.seqNo := rfl
@[simp] theorem State.onCk_cores : (s.onCk f).cores = s.cores := rfl

end

/-! onTw -/

section

variable (f : Twill → Twill)

@[simp] theorem State.onTw_pending : (s.onTw f).pending = s.pending := rfl
@[simp] theorem State.onTw_free : (s.onTw f).free = s.free := rfl
@[simp] theorem State.onTw_pkg : (s.onTw f).pkg = s.pkg := rfl
@[simp] theorem State.onTw_mem : (s.onTw f).mem = s.mem := rfl
@[simp] theorem State.onTw_regs : (s.onTw f).regs = s.regs := rfl
@[simp] theorem State.onTw_gz : (s.onTw f).gz = s.gz := rfl
@[simp] theorem State.onTw_ck : (s.onTw f).ck = s.ck := rfl
@[simp] theorem State.onTw_tw : (s.onTw f).tw = f s.tw := rfl
@[simp] theorem State.onTw_mu : (s.onTw f).mu = s.mu := rfl
@[simp] theorem State.onTw_streams : (s.onTw f).streams = s.streams := rfl
@[simp] theorem State.onTw_qm : (s.onTw f).qm = s.qm := rfl
@[simp] theorem State.onTw_seq : (s.onTw f).seq = s.seq := rfl
@[simp] theorem State.onTw_img : (s.onTw f).img = s.img := rfl
@[simp] theorem State.onTw_rings : (s.onTw f).rings = s.rings := rfl
@[simp] theorem State.onTw_twin : (s.onTw f).twin = s.twin := rfl
@[simp] theorem State.onTw_snap : (s.onTw f).snap = s.snap := rfl
@[simp] theorem State.onTw_sv : (s.onTw f).sv = s.sv := rfl
@[simp] theorem State.onTw_sec : (s.onTw f).sec = s.sec := rfl
@[simp] theorem State.onTw_ct : (s.onTw f).ct = s.ct := rfl
@[simp] theorem State.onTw_host : (s.onTw f).host = s.host := rfl
@[simp] theorem State.onTw_i3c : (s.onTw f).i3c = s.i3c := rfl
@[simp] theorem State.onTw_sounds : (s.onTw f).sounds = s.sounds := rfl
@[simp] theorem State.onTw_seqNo : (s.onTw f).seqNo = s.seqNo := rfl
@[simp] theorem State.onTw_cores : (s.onTw f).cores = s.cores := rfl

end

/-! onMu -/

section

variable (f : Muslin → Muslin)

@[simp] theorem State.onMu_pending : (s.onMu f).pending = s.pending := rfl
@[simp] theorem State.onMu_free : (s.onMu f).free = s.free := rfl
@[simp] theorem State.onMu_pkg : (s.onMu f).pkg = s.pkg := rfl
@[simp] theorem State.onMu_mem : (s.onMu f).mem = s.mem := rfl
@[simp] theorem State.onMu_regs : (s.onMu f).regs = s.regs := rfl
@[simp] theorem State.onMu_gz : (s.onMu f).gz = s.gz := rfl
@[simp] theorem State.onMu_ck : (s.onMu f).ck = s.ck := rfl
@[simp] theorem State.onMu_tw : (s.onMu f).tw = s.tw := rfl
@[simp] theorem State.onMu_mu : (s.onMu f).mu = f s.mu := rfl
@[simp] theorem State.onMu_streams : (s.onMu f).streams = s.streams := rfl
@[simp] theorem State.onMu_qm : (s.onMu f).qm = s.qm := rfl
@[simp] theorem State.onMu_seq : (s.onMu f).seq = s.seq := rfl
@[simp] theorem State.onMu_img : (s.onMu f).img = s.img := rfl
@[simp] theorem State.onMu_rings : (s.onMu f).rings = s.rings := rfl
@[simp] theorem State.onMu_twin : (s.onMu f).twin = s.twin := rfl
@[simp] theorem State.onMu_snap : (s.onMu f).snap = s.snap := rfl
@[simp] theorem State.onMu_sv : (s.onMu f).sv = s.sv := rfl
@[simp] theorem State.onMu_sec : (s.onMu f).sec = s.sec := rfl
@[simp] theorem State.onMu_ct : (s.onMu f).ct = s.ct := rfl
@[simp] theorem State.onMu_host : (s.onMu f).host = s.host := rfl
@[simp] theorem State.onMu_i3c : (s.onMu f).i3c = s.i3c := rfl
@[simp] theorem State.onMu_sounds : (s.onMu f).sounds = s.sounds := rfl
@[simp] theorem State.onMu_seqNo : (s.onMu f).seqNo = s.seqNo := rfl
@[simp] theorem State.onMu_cores : (s.onMu f).cores = s.cores := rfl

end

/-! onStreams -/

section

variable (f : (FMap Strm) → (FMap Strm))

@[simp] theorem State.onStreams_pending : (s.onStreams f).pending = s.pending := rfl
@[simp] theorem State.onStreams_free : (s.onStreams f).free = s.free := rfl
@[simp] theorem State.onStreams_pkg : (s.onStreams f).pkg = s.pkg := rfl
@[simp] theorem State.onStreams_mem : (s.onStreams f).mem = s.mem := rfl
@[simp] theorem State.onStreams_regs : (s.onStreams f).regs = s.regs := rfl
@[simp] theorem State.onStreams_gz : (s.onStreams f).gz = s.gz := rfl
@[simp] theorem State.onStreams_ck : (s.onStreams f).ck = s.ck := rfl
@[simp] theorem State.onStreams_tw : (s.onStreams f).tw = s.tw := rfl
@[simp] theorem State.onStreams_mu : (s.onStreams f).mu = s.mu := rfl
@[simp] theorem State.onStreams_streams : (s.onStreams f).streams = f s.streams := rfl
@[simp] theorem State.onStreams_qm : (s.onStreams f).qm = s.qm := rfl
@[simp] theorem State.onStreams_seq : (s.onStreams f).seq = s.seq := rfl
@[simp] theorem State.onStreams_img : (s.onStreams f).img = s.img := rfl
@[simp] theorem State.onStreams_rings : (s.onStreams f).rings = s.rings := rfl
@[simp] theorem State.onStreams_twin : (s.onStreams f).twin = s.twin := rfl
@[simp] theorem State.onStreams_snap : (s.onStreams f).snap = s.snap := rfl
@[simp] theorem State.onStreams_sv : (s.onStreams f).sv = s.sv := rfl
@[simp] theorem State.onStreams_sec : (s.onStreams f).sec = s.sec := rfl
@[simp] theorem State.onStreams_ct : (s.onStreams f).ct = s.ct := rfl
@[simp] theorem State.onStreams_host : (s.onStreams f).host = s.host := rfl
@[simp] theorem State.onStreams_i3c : (s.onStreams f).i3c = s.i3c := rfl
@[simp] theorem State.onStreams_sounds : (s.onStreams f).sounds = s.sounds := rfl
@[simp] theorem State.onStreams_seqNo : (s.onStreams f).seqNo = s.seqNo := rfl
@[simp] theorem State.onStreams_cores : (s.onStreams f).cores = s.cores := rfl

end

/-! onQm -/

section

variable (f : Qm → Qm)

@[simp] theorem State.onQm_pending : (s.onQm f).pending = s.pending := rfl
@[simp] theorem State.onQm_free : (s.onQm f).free = s.free := rfl
@[simp] theorem State.onQm_pkg : (s.onQm f).pkg = s.pkg := rfl
@[simp] theorem State.onQm_mem : (s.onQm f).mem = s.mem := rfl
@[simp] theorem State.onQm_regs : (s.onQm f).regs = s.regs := rfl
@[simp] theorem State.onQm_gz : (s.onQm f).gz = s.gz := rfl
@[simp] theorem State.onQm_ck : (s.onQm f).ck = s.ck := rfl
@[simp] theorem State.onQm_tw : (s.onQm f).tw = s.tw := rfl
@[simp] theorem State.onQm_mu : (s.onQm f).mu = s.mu := rfl
@[simp] theorem State.onQm_streams : (s.onQm f).streams = s.streams := rfl
@[simp] theorem State.onQm_qm : (s.onQm f).qm = f s.qm := rfl
@[simp] theorem State.onQm_seq : (s.onQm f).seq = s.seq := rfl
@[simp] theorem State.onQm_img : (s.onQm f).img = s.img := rfl
@[simp] theorem State.onQm_rings : (s.onQm f).rings = s.rings := rfl
@[simp] theorem State.onQm_twin : (s.onQm f).twin = s.twin := rfl
@[simp] theorem State.onQm_snap : (s.onQm f).snap = s.snap := rfl
@[simp] theorem State.onQm_sv : (s.onQm f).sv = s.sv := rfl
@[simp] theorem State.onQm_sec : (s.onQm f).sec = s.sec := rfl
@[simp] theorem State.onQm_ct : (s.onQm f).ct = s.ct := rfl
@[simp] theorem State.onQm_host : (s.onQm f).host = s.host := rfl
@[simp] theorem State.onQm_i3c : (s.onQm f).i3c = s.i3c := rfl
@[simp] theorem State.onQm_sounds : (s.onQm f).sounds = s.sounds := rfl
@[simp] theorem State.onQm_seqNo : (s.onQm f).seqNo = s.seqNo := rfl
@[simp] theorem State.onQm_cores : (s.onQm f).cores = s.cores := rfl

end

/-! onSeq -/

section

variable (f : Seq → Seq)

@[simp] theorem State.onSeq_pending : (s.onSeq f).pending = s.pending := rfl
@[simp] theorem State.onSeq_free : (s.onSeq f).free = s.free := rfl
@[simp] theorem State.onSeq_pkg : (s.onSeq f).pkg = s.pkg := rfl
@[simp] theorem State.onSeq_mem : (s.onSeq f).mem = s.mem := rfl
@[simp] theorem State.onSeq_regs : (s.onSeq f).regs = s.regs := rfl
@[simp] theorem State.onSeq_gz : (s.onSeq f).gz = s.gz := rfl
@[simp] theorem State.onSeq_ck : (s.onSeq f).ck = s.ck := rfl
@[simp] theorem State.onSeq_tw : (s.onSeq f).tw = s.tw := rfl
@[simp] theorem State.onSeq_mu : (s.onSeq f).mu = s.mu := rfl
@[simp] theorem State.onSeq_streams : (s.onSeq f).streams = s.streams := rfl
@[simp] theorem State.onSeq_qm : (s.onSeq f).qm = s.qm := rfl
@[simp] theorem State.onSeq_seq : (s.onSeq f).seq = f s.seq := rfl
@[simp] theorem State.onSeq_img : (s.onSeq f).img = s.img := rfl
@[simp] theorem State.onSeq_rings : (s.onSeq f).rings = s.rings := rfl
@[simp] theorem State.onSeq_twin : (s.onSeq f).twin = s.twin := rfl
@[simp] theorem State.onSeq_snap : (s.onSeq f).snap = s.snap := rfl
@[simp] theorem State.onSeq_sv : (s.onSeq f).sv = s.sv := rfl
@[simp] theorem State.onSeq_sec : (s.onSeq f).sec = s.sec := rfl
@[simp] theorem State.onSeq_ct : (s.onSeq f).ct = s.ct := rfl
@[simp] theorem State.onSeq_host : (s.onSeq f).host = s.host := rfl
@[simp] theorem State.onSeq_i3c : (s.onSeq f).i3c = s.i3c := rfl
@[simp] theorem State.onSeq_sounds : (s.onSeq f).sounds = s.sounds := rfl
@[simp] theorem State.onSeq_seqNo : (s.onSeq f).seqNo = s.seqNo := rfl
@[simp] theorem State.onSeq_cores : (s.onSeq f).cores = s.cores := rfl

end

/-! onImg -/

section

variable (f : Img → Img)

@[simp] theorem State.onImg_pending : (s.onImg f).pending = s.pending := rfl
@[simp] theorem State.onImg_free : (s.onImg f).free = s.free := rfl
@[simp] theorem State.onImg_pkg : (s.onImg f).pkg = s.pkg := rfl
@[simp] theorem State.onImg_mem : (s.onImg f).mem = s.mem := rfl
@[simp] theorem State.onImg_regs : (s.onImg f).regs = s.regs := rfl
@[simp] theorem State.onImg_gz : (s.onImg f).gz = s.gz := rfl
@[simp] theorem State.onImg_ck : (s.onImg f).ck = s.ck := rfl
@[simp] theorem State.onImg_tw : (s.onImg f).tw = s.tw := rfl
@[simp] theorem State.onImg_mu : (s.onImg f).mu = s.mu := rfl
@[simp] theorem State.onImg_streams : (s.onImg f).streams = s.streams := rfl
@[simp] theorem State.onImg_qm : (s.onImg f).qm = s.qm := rfl
@[simp] theorem State.onImg_seq : (s.onImg f).seq = s.seq := rfl
@[simp] theorem State.onImg_img : (s.onImg f).img = f s.img := rfl
@[simp] theorem State.onImg_rings : (s.onImg f).rings = s.rings := rfl
@[simp] theorem State.onImg_twin : (s.onImg f).twin = s.twin := rfl
@[simp] theorem State.onImg_snap : (s.onImg f).snap = s.snap := rfl
@[simp] theorem State.onImg_sv : (s.onImg f).sv = s.sv := rfl
@[simp] theorem State.onImg_sec : (s.onImg f).sec = s.sec := rfl
@[simp] theorem State.onImg_ct : (s.onImg f).ct = s.ct := rfl
@[simp] theorem State.onImg_host : (s.onImg f).host = s.host := rfl
@[simp] theorem State.onImg_i3c : (s.onImg f).i3c = s.i3c := rfl
@[simp] theorem State.onImg_sounds : (s.onImg f).sounds = s.sounds := rfl
@[simp] theorem State.onImg_seqNo : (s.onImg f).seqNo = s.seqNo := rfl
@[simp] theorem State.onImg_cores : (s.onImg f).cores = s.cores := rfl

end

/-! onRings -/

section

variable (f : Rings → Rings)

@[simp] theorem State.onRings_pending : (s.onRings f).pending = s.pending := rfl
@[simp] theorem State.onRings_free : (s.onRings f).free = s.free := rfl
@[simp] theorem State.onRings_pkg : (s.onRings f).pkg = s.pkg := rfl
@[simp] theorem State.onRings_mem : (s.onRings f).mem = s.mem := rfl
@[simp] theorem State.onRings_regs : (s.onRings f).regs = s.regs := rfl
@[simp] theorem State.onRings_gz : (s.onRings f).gz = s.gz := rfl
@[simp] theorem State.onRings_ck : (s.onRings f).ck = s.ck := rfl
@[simp] theorem State.onRings_tw : (s.onRings f).tw = s.tw := rfl
@[simp] theorem State.onRings_mu : (s.onRings f).mu = s.mu := rfl
@[simp] theorem State.onRings_streams : (s.onRings f).streams = s.streams := rfl
@[simp] theorem State.onRings_qm : (s.onRings f).qm = s.qm := rfl
@[simp] theorem State.onRings_seq : (s.onRings f).seq = s.seq := rfl
@[simp] theorem State.onRings_img : (s.onRings f).img = s.img := rfl
@[simp] theorem State.onRings_rings : (s.onRings f).rings = f s.rings := rfl
@[simp] theorem State.onRings_twin : (s.onRings f).twin = s.twin := rfl
@[simp] theorem State.onRings_snap : (s.onRings f).snap = s.snap := rfl
@[simp] theorem State.onRings_sv : (s.onRings f).sv = s.sv := rfl
@[simp] theorem State.onRings_sec : (s.onRings f).sec = s.sec := rfl
@[simp] theorem State.onRings_ct : (s.onRings f).ct = s.ct := rfl
@[simp] theorem State.onRings_host : (s.onRings f).host = s.host := rfl
@[simp] theorem State.onRings_i3c : (s.onRings f).i3c = s.i3c := rfl
@[simp] theorem State.onRings_sounds : (s.onRings f).sounds = s.sounds := rfl
@[simp] theorem State.onRings_seqNo : (s.onRings f).seqNo = s.seqNo := rfl
@[simp] theorem State.onRings_cores : (s.onRings f).cores = s.cores := rfl

end

/-! onTwin -/

section

variable (f : Twin → Twin)

@[simp] theorem State.onTwin_pending : (s.onTwin f).pending = s.pending := rfl
@[simp] theorem State.onTwin_free : (s.onTwin f).free = s.free := rfl
@[simp] theorem State.onTwin_pkg : (s.onTwin f).pkg = s.pkg := rfl
@[simp] theorem State.onTwin_mem : (s.onTwin f).mem = s.mem := rfl
@[simp] theorem State.onTwin_regs : (s.onTwin f).regs = s.regs := rfl
@[simp] theorem State.onTwin_gz : (s.onTwin f).gz = s.gz := rfl
@[simp] theorem State.onTwin_ck : (s.onTwin f).ck = s.ck := rfl
@[simp] theorem State.onTwin_tw : (s.onTwin f).tw = s.tw := rfl
@[simp] theorem State.onTwin_mu : (s.onTwin f).mu = s.mu := rfl
@[simp] theorem State.onTwin_streams : (s.onTwin f).streams = s.streams := rfl
@[simp] theorem State.onTwin_qm : (s.onTwin f).qm = s.qm := rfl
@[simp] theorem State.onTwin_seq : (s.onTwin f).seq = s.seq := rfl
@[simp] theorem State.onTwin_img : (s.onTwin f).img = s.img := rfl
@[simp] theorem State.onTwin_rings : (s.onTwin f).rings = s.rings := rfl
@[simp] theorem State.onTwin_twin : (s.onTwin f).twin = f s.twin := rfl
@[simp] theorem State.onTwin_snap : (s.onTwin f).snap = s.snap := rfl
@[simp] theorem State.onTwin_sv : (s.onTwin f).sv = s.sv := rfl
@[simp] theorem State.onTwin_sec : (s.onTwin f).sec = s.sec := rfl
@[simp] theorem State.onTwin_ct : (s.onTwin f).ct = s.ct := rfl
@[simp] theorem State.onTwin_host : (s.onTwin f).host = s.host := rfl
@[simp] theorem State.onTwin_i3c : (s.onTwin f).i3c = s.i3c := rfl
@[simp] theorem State.onTwin_sounds : (s.onTwin f).sounds = s.sounds := rfl
@[simp] theorem State.onTwin_seqNo : (s.onTwin f).seqNo = s.seqNo := rfl
@[simp] theorem State.onTwin_cores : (s.onTwin f).cores = s.cores := rfl

end

/-! onSnap -/

section

variable (f : (Option Snap) → (Option Snap))

@[simp] theorem State.onSnap_pending : (s.onSnap f).pending = s.pending := rfl
@[simp] theorem State.onSnap_free : (s.onSnap f).free = s.free := rfl
@[simp] theorem State.onSnap_pkg : (s.onSnap f).pkg = s.pkg := rfl
@[simp] theorem State.onSnap_mem : (s.onSnap f).mem = s.mem := rfl
@[simp] theorem State.onSnap_regs : (s.onSnap f).regs = s.regs := rfl
@[simp] theorem State.onSnap_gz : (s.onSnap f).gz = s.gz := rfl
@[simp] theorem State.onSnap_ck : (s.onSnap f).ck = s.ck := rfl
@[simp] theorem State.onSnap_tw : (s.onSnap f).tw = s.tw := rfl
@[simp] theorem State.onSnap_mu : (s.onSnap f).mu = s.mu := rfl
@[simp] theorem State.onSnap_streams : (s.onSnap f).streams = s.streams := rfl
@[simp] theorem State.onSnap_qm : (s.onSnap f).qm = s.qm := rfl
@[simp] theorem State.onSnap_seq : (s.onSnap f).seq = s.seq := rfl
@[simp] theorem State.onSnap_img : (s.onSnap f).img = s.img := rfl
@[simp] theorem State.onSnap_rings : (s.onSnap f).rings = s.rings := rfl
@[simp] theorem State.onSnap_twin : (s.onSnap f).twin = s.twin := rfl
@[simp] theorem State.onSnap_snap : (s.onSnap f).snap = f s.snap := rfl
@[simp] theorem State.onSnap_sv : (s.onSnap f).sv = s.sv := rfl
@[simp] theorem State.onSnap_sec : (s.onSnap f).sec = s.sec := rfl
@[simp] theorem State.onSnap_ct : (s.onSnap f).ct = s.ct := rfl
@[simp] theorem State.onSnap_host : (s.onSnap f).host = s.host := rfl
@[simp] theorem State.onSnap_i3c : (s.onSnap f).i3c = s.i3c := rfl
@[simp] theorem State.onSnap_sounds : (s.onSnap f).sounds = s.sounds := rfl
@[simp] theorem State.onSnap_seqNo : (s.onSnap f).seqNo = s.seqNo := rfl
@[simp] theorem State.onSnap_cores : (s.onSnap f).cores = s.cores := rfl

end

/-! onSv -/

section

variable (f : Selvage → Selvage)

@[simp] theorem State.onSv_pending : (s.onSv f).pending = s.pending := rfl
@[simp] theorem State.onSv_free : (s.onSv f).free = s.free := rfl
@[simp] theorem State.onSv_pkg : (s.onSv f).pkg = s.pkg := rfl
@[simp] theorem State.onSv_mem : (s.onSv f).mem = s.mem := rfl
@[simp] theorem State.onSv_regs : (s.onSv f).regs = s.regs := rfl
@[simp] theorem State.onSv_gz : (s.onSv f).gz = s.gz := rfl
@[simp] theorem State.onSv_ck : (s.onSv f).ck = s.ck := rfl
@[simp] theorem State.onSv_tw : (s.onSv f).tw = s.tw := rfl
@[simp] theorem State.onSv_mu : (s.onSv f).mu = s.mu := rfl
@[simp] theorem State.onSv_streams : (s.onSv f).streams = s.streams := rfl
@[simp] theorem State.onSv_qm : (s.onSv f).qm = s.qm := rfl
@[simp] theorem State.onSv_seq : (s.onSv f).seq = s.seq := rfl
@[simp] theorem State.onSv_img : (s.onSv f).img = s.img := rfl
@[simp] theorem State.onSv_rings : (s.onSv f).rings = s.rings := rfl
@[simp] theorem State.onSv_twin : (s.onSv f).twin = s.twin := rfl
@[simp] theorem State.onSv_snap : (s.onSv f).snap = s.snap := rfl
@[simp] theorem State.onSv_sv : (s.onSv f).sv = f s.sv := rfl
@[simp] theorem State.onSv_sec : (s.onSv f).sec = s.sec := rfl
@[simp] theorem State.onSv_ct : (s.onSv f).ct = s.ct := rfl
@[simp] theorem State.onSv_host : (s.onSv f).host = s.host := rfl
@[simp] theorem State.onSv_i3c : (s.onSv f).i3c = s.i3c := rfl
@[simp] theorem State.onSv_sounds : (s.onSv f).sounds = s.sounds := rfl
@[simp] theorem State.onSv_seqNo : (s.onSv f).seqNo = s.seqNo := rfl
@[simp] theorem State.onSv_cores : (s.onSv f).cores = s.cores := rfl

end

/-! onSec -/

section

variable (f : Security → Security)

@[simp] theorem State.onSec_pending : (s.onSec f).pending = s.pending := rfl
@[simp] theorem State.onSec_free : (s.onSec f).free = s.free := rfl
@[simp] theorem State.onSec_pkg : (s.onSec f).pkg = s.pkg := rfl
@[simp] theorem State.onSec_mem : (s.onSec f).mem = s.mem := rfl
@[simp] theorem State.onSec_regs : (s.onSec f).regs = s.regs := rfl
@[simp] theorem State.onSec_gz : (s.onSec f).gz = s.gz := rfl
@[simp] theorem State.onSec_ck : (s.onSec f).ck = s.ck := rfl
@[simp] theorem State.onSec_tw : (s.onSec f).tw = s.tw := rfl
@[simp] theorem State.onSec_mu : (s.onSec f).mu = s.mu := rfl
@[simp] theorem State.onSec_streams : (s.onSec f).streams = s.streams := rfl
@[simp] theorem State.onSec_qm : (s.onSec f).qm = s.qm := rfl
@[simp] theorem State.onSec_seq : (s.onSec f).seq = s.seq := rfl
@[simp] theorem State.onSec_img : (s.onSec f).img = s.img := rfl
@[simp] theorem State.onSec_rings : (s.onSec f).rings = s.rings := rfl
@[simp] theorem State.onSec_twin : (s.onSec f).twin = s.twin := rfl
@[simp] theorem State.onSec_snap : (s.onSec f).snap = s.snap := rfl
@[simp] theorem State.onSec_sv : (s.onSec f).sv = s.sv := rfl
@[simp] theorem State.onSec_sec : (s.onSec f).sec = f s.sec := rfl
@[simp] theorem State.onSec_ct : (s.onSec f).ct = s.ct := rfl
@[simp] theorem State.onSec_host : (s.onSec f).host = s.host := rfl
@[simp] theorem State.onSec_i3c : (s.onSec f).i3c = s.i3c := rfl
@[simp] theorem State.onSec_sounds : (s.onSec f).sounds = s.sounds := rfl
@[simp] theorem State.onSec_seqNo : (s.onSec f).seqNo = s.seqNo := rfl
@[simp] theorem State.onSec_cores : (s.onSec f).cores = s.cores := rfl

end

/-! onCt -/

section

variable (f : Contour → Contour)

@[simp] theorem State.onCt_pending : (s.onCt f).pending = s.pending := rfl
@[simp] theorem State.onCt_free : (s.onCt f).free = s.free := rfl
@[simp] theorem State.onCt_pkg : (s.onCt f).pkg = s.pkg := rfl
@[simp] theorem State.onCt_mem : (s.onCt f).mem = s.mem := rfl
@[simp] theorem State.onCt_regs : (s.onCt f).regs = s.regs := rfl
@[simp] theorem State.onCt_gz : (s.onCt f).gz = s.gz := rfl
@[simp] theorem State.onCt_ck : (s.onCt f).ck = s.ck := rfl
@[simp] theorem State.onCt_tw : (s.onCt f).tw = s.tw := rfl
@[simp] theorem State.onCt_mu : (s.onCt f).mu = s.mu := rfl
@[simp] theorem State.onCt_streams : (s.onCt f).streams = s.streams := rfl
@[simp] theorem State.onCt_qm : (s.onCt f).qm = s.qm := rfl
@[simp] theorem State.onCt_seq : (s.onCt f).seq = s.seq := rfl
@[simp] theorem State.onCt_img : (s.onCt f).img = s.img := rfl
@[simp] theorem State.onCt_rings : (s.onCt f).rings = s.rings := rfl
@[simp] theorem State.onCt_twin : (s.onCt f).twin = s.twin := rfl
@[simp] theorem State.onCt_snap : (s.onCt f).snap = s.snap := rfl
@[simp] theorem State.onCt_sv : (s.onCt f).sv = s.sv := rfl
@[simp] theorem State.onCt_sec : (s.onCt f).sec = s.sec := rfl
@[simp] theorem State.onCt_ct : (s.onCt f).ct = f s.ct := rfl
@[simp] theorem State.onCt_host : (s.onCt f).host = s.host := rfl
@[simp] theorem State.onCt_i3c : (s.onCt f).i3c = s.i3c := rfl
@[simp] theorem State.onCt_sounds : (s.onCt f).sounds = s.sounds := rfl
@[simp] theorem State.onCt_seqNo : (s.onCt f).seqNo = s.seqNo := rfl
@[simp] theorem State.onCt_cores : (s.onCt f).cores = s.cores := rfl

end

/-! onHost -/

section

variable (f : HostLink → HostLink)

@[simp] theorem State.onHost_pending : (s.onHost f).pending = s.pending := rfl
@[simp] theorem State.onHost_free : (s.onHost f).free = s.free := rfl
@[simp] theorem State.onHost_pkg : (s.onHost f).pkg = s.pkg := rfl
@[simp] theorem State.onHost_mem : (s.onHost f).mem = s.mem := rfl
@[simp] theorem State.onHost_regs : (s.onHost f).regs = s.regs := rfl
@[simp] theorem State.onHost_gz : (s.onHost f).gz = s.gz := rfl
@[simp] theorem State.onHost_ck : (s.onHost f).ck = s.ck := rfl
@[simp] theorem State.onHost_tw : (s.onHost f).tw = s.tw := rfl
@[simp] theorem State.onHost_mu : (s.onHost f).mu = s.mu := rfl
@[simp] theorem State.onHost_streams : (s.onHost f).streams = s.streams := rfl
@[simp] theorem State.onHost_qm : (s.onHost f).qm = s.qm := rfl
@[simp] theorem State.onHost_seq : (s.onHost f).seq = s.seq := rfl
@[simp] theorem State.onHost_img : (s.onHost f).img = s.img := rfl
@[simp] theorem State.onHost_rings : (s.onHost f).rings = s.rings := rfl
@[simp] theorem State.onHost_twin : (s.onHost f).twin = s.twin := rfl
@[simp] theorem State.onHost_snap : (s.onHost f).snap = s.snap := rfl
@[simp] theorem State.onHost_sv : (s.onHost f).sv = s.sv := rfl
@[simp] theorem State.onHost_sec : (s.onHost f).sec = s.sec := rfl
@[simp] theorem State.onHost_ct : (s.onHost f).ct = s.ct := rfl
@[simp] theorem State.onHost_host : (s.onHost f).host = f s.host := rfl
@[simp] theorem State.onHost_i3c : (s.onHost f).i3c = s.i3c := rfl
@[simp] theorem State.onHost_sounds : (s.onHost f).sounds = s.sounds := rfl
@[simp] theorem State.onHost_seqNo : (s.onHost f).seqNo = s.seqNo := rfl
@[simp] theorem State.onHost_cores : (s.onHost f).cores = s.cores := rfl

end

/-! onI3c -/

section

variable (f : I3c → I3c)

@[simp] theorem State.onI3c_pending : (s.onI3c f).pending = s.pending := rfl
@[simp] theorem State.onI3c_free : (s.onI3c f).free = s.free := rfl
@[simp] theorem State.onI3c_pkg : (s.onI3c f).pkg = s.pkg := rfl
@[simp] theorem State.onI3c_mem : (s.onI3c f).mem = s.mem := rfl
@[simp] theorem State.onI3c_regs : (s.onI3c f).regs = s.regs := rfl
@[simp] theorem State.onI3c_gz : (s.onI3c f).gz = s.gz := rfl
@[simp] theorem State.onI3c_ck : (s.onI3c f).ck = s.ck := rfl
@[simp] theorem State.onI3c_tw : (s.onI3c f).tw = s.tw := rfl
@[simp] theorem State.onI3c_mu : (s.onI3c f).mu = s.mu := rfl
@[simp] theorem State.onI3c_streams : (s.onI3c f).streams = s.streams := rfl
@[simp] theorem State.onI3c_qm : (s.onI3c f).qm = s.qm := rfl
@[simp] theorem State.onI3c_seq : (s.onI3c f).seq = s.seq := rfl
@[simp] theorem State.onI3c_img : (s.onI3c f).img = s.img := rfl
@[simp] theorem State.onI3c_rings : (s.onI3c f).rings = s.rings := rfl
@[simp] theorem State.onI3c_twin : (s.onI3c f).twin = s.twin := rfl
@[simp] theorem State.onI3c_snap : (s.onI3c f).snap = s.snap := rfl
@[simp] theorem State.onI3c_sv : (s.onI3c f).sv = s.sv := rfl
@[simp] theorem State.onI3c_sec : (s.onI3c f).sec = s.sec := rfl
@[simp] theorem State.onI3c_ct : (s.onI3c f).ct = s.ct := rfl
@[simp] theorem State.onI3c_host : (s.onI3c f).host = s.host := rfl
@[simp] theorem State.onI3c_i3c : (s.onI3c f).i3c = f s.i3c := rfl
@[simp] theorem State.onI3c_sounds : (s.onI3c f).sounds = s.sounds := rfl
@[simp] theorem State.onI3c_seqNo : (s.onI3c f).seqNo = s.seqNo := rfl
@[simp] theorem State.onI3c_cores : (s.onI3c f).cores = s.cores := rfl

end

/-! onSounds -/

section

variable (f : (List Sounding) → (List Sounding))

@[simp] theorem State.onSounds_pending : (s.onSounds f).pending = s.pending := rfl
@[simp] theorem State.onSounds_free : (s.onSounds f).free = s.free := rfl
@[simp] theorem State.onSounds_pkg : (s.onSounds f).pkg = s.pkg := rfl
@[simp] theorem State.onSounds_mem : (s.onSounds f).mem = s.mem := rfl
@[simp] theorem State.onSounds_regs : (s.onSounds f).regs = s.regs := rfl
@[simp] theorem State.onSounds_gz : (s.onSounds f).gz = s.gz := rfl
@[simp] theorem State.onSounds_ck : (s.onSounds f).ck = s.ck := rfl
@[simp] theorem State.onSounds_tw : (s.onSounds f).tw = s.tw := rfl
@[simp] theorem State.onSounds_mu : (s.onSounds f).mu = s.mu := rfl
@[simp] theorem State.onSounds_streams : (s.onSounds f).streams = s.streams := rfl
@[simp] theorem State.onSounds_qm : (s.onSounds f).qm = s.qm := rfl
@[simp] theorem State.onSounds_seq : (s.onSounds f).seq = s.seq := rfl
@[simp] theorem State.onSounds_img : (s.onSounds f).img = s.img := rfl
@[simp] theorem State.onSounds_rings : (s.onSounds f).rings = s.rings := rfl
@[simp] theorem State.onSounds_twin : (s.onSounds f).twin = s.twin := rfl
@[simp] theorem State.onSounds_snap : (s.onSounds f).snap = s.snap := rfl
@[simp] theorem State.onSounds_sv : (s.onSounds f).sv = s.sv := rfl
@[simp] theorem State.onSounds_sec : (s.onSounds f).sec = s.sec := rfl
@[simp] theorem State.onSounds_ct : (s.onSounds f).ct = s.ct := rfl
@[simp] theorem State.onSounds_host : (s.onSounds f).host = s.host := rfl
@[simp] theorem State.onSounds_i3c : (s.onSounds f).i3c = s.i3c := rfl
@[simp] theorem State.onSounds_sounds : (s.onSounds f).sounds = f s.sounds := rfl
@[simp] theorem State.onSounds_seqNo : (s.onSounds f).seqNo = s.seqNo := rfl
@[simp] theorem State.onSounds_cores : (s.onSounds f).cores = s.cores := rfl

end

/-! onSeqNo -/

section

variable (f : (FMap Nat) → (FMap Nat))

@[simp] theorem State.onSeqNo_pending : (s.onSeqNo f).pending = s.pending := rfl
@[simp] theorem State.onSeqNo_free : (s.onSeqNo f).free = s.free := rfl
@[simp] theorem State.onSeqNo_pkg : (s.onSeqNo f).pkg = s.pkg := rfl
@[simp] theorem State.onSeqNo_mem : (s.onSeqNo f).mem = s.mem := rfl
@[simp] theorem State.onSeqNo_regs : (s.onSeqNo f).regs = s.regs := rfl
@[simp] theorem State.onSeqNo_gz : (s.onSeqNo f).gz = s.gz := rfl
@[simp] theorem State.onSeqNo_ck : (s.onSeqNo f).ck = s.ck := rfl
@[simp] theorem State.onSeqNo_tw : (s.onSeqNo f).tw = s.tw := rfl
@[simp] theorem State.onSeqNo_mu : (s.onSeqNo f).mu = s.mu := rfl
@[simp] theorem State.onSeqNo_streams : (s.onSeqNo f).streams = s.streams := rfl
@[simp] theorem State.onSeqNo_qm : (s.onSeqNo f).qm = s.qm := rfl
@[simp] theorem State.onSeqNo_seq : (s.onSeqNo f).seq = s.seq := rfl
@[simp] theorem State.onSeqNo_img : (s.onSeqNo f).img = s.img := rfl
@[simp] theorem State.onSeqNo_rings : (s.onSeqNo f).rings = s.rings := rfl
@[simp] theorem State.onSeqNo_twin : (s.onSeqNo f).twin = s.twin := rfl
@[simp] theorem State.onSeqNo_snap : (s.onSeqNo f).snap = s.snap := rfl
@[simp] theorem State.onSeqNo_sv : (s.onSeqNo f).sv = s.sv := rfl
@[simp] theorem State.onSeqNo_sec : (s.onSeqNo f).sec = s.sec := rfl
@[simp] theorem State.onSeqNo_ct : (s.onSeqNo f).ct = s.ct := rfl
@[simp] theorem State.onSeqNo_host : (s.onSeqNo f).host = s.host := rfl
@[simp] theorem State.onSeqNo_i3c : (s.onSeqNo f).i3c = s.i3c := rfl
@[simp] theorem State.onSeqNo_sounds : (s.onSeqNo f).sounds = s.sounds := rfl
@[simp] theorem State.onSeqNo_seqNo : (s.onSeqNo f).seqNo = f s.seqNo := rfl
@[simp] theorem State.onSeqNo_cores : (s.onSeqNo f).cores = s.cores := rfl

end

/-! onCores -/

section

variable (f : Cores → Cores)

@[simp] theorem State.onCores_pending : (s.onCores f).pending = s.pending := rfl
@[simp] theorem State.onCores_free : (s.onCores f).free = s.free := rfl
@[simp] theorem State.onCores_pkg : (s.onCores f).pkg = s.pkg := rfl
@[simp] theorem State.onCores_mem : (s.onCores f).mem = s.mem := rfl
@[simp] theorem State.onCores_regs : (s.onCores f).regs = s.regs := rfl
@[simp] theorem State.onCores_gz : (s.onCores f).gz = s.gz := rfl
@[simp] theorem State.onCores_ck : (s.onCores f).ck = s.ck := rfl
@[simp] theorem State.onCores_tw : (s.onCores f).tw = s.tw := rfl
@[simp] theorem State.onCores_mu : (s.onCores f).mu = s.mu := rfl
@[simp] theorem State.onCores_streams : (s.onCores f).streams = s.streams := rfl
@[simp] theorem State.onCores_qm : (s.onCores f).qm = s.qm := rfl
@[simp] theorem State.onCores_seq : (s.onCores f).seq = s.seq := rfl
@[simp] theorem State.onCores_img : (s.onCores f).img = s.img := rfl
@[simp] theorem State.onCores_rings : (s.onCores f).rings = s.rings := rfl
@[simp] theorem State.onCores_twin : (s.onCores f).twin = s.twin := rfl
@[simp] theorem State.onCores_snap : (s.onCores f).snap = s.snap := rfl
@[simp] theorem State.onCores_sv : (s.onCores f).sv = s.sv := rfl
@[simp] theorem State.onCores_sec : (s.onCores f).sec = s.sec := rfl
@[simp] theorem State.onCores_ct : (s.onCores f).ct = s.ct := rfl
@[simp] theorem State.onCores_host : (s.onCores f).host = s.host := rfl
@[simp] theorem State.onCores_i3c : (s.onCores f).i3c = s.i3c := rfl
@[simp] theorem State.onCores_sounds : (s.onCores f).sounds = s.sounds := rfl
@[simp] theorem State.onCores_seqNo : (s.onCores f).seqNo = s.seqNo := rfl
@[simp] theorem State.onCores_cores : (s.onCores f).cores = f s.cores := rfl

end

end Sys2Proof.Machine
end

