-- ==== Sys2Proof/Laws/Ops.lean ====
section
/-!
SUPPORT. What the shared operations do to what the accessors read: queues, rings, programs, registers, memory, completions and answers; one lemma
or a few for each operation.
-/

namespace Sys2Proof.Machine

open Sys2Proof

/-! What a group update leaves of what the accessors of other groups read. -/

section
variable (s : State) (f : Nat → Nat)
@[simp] theorem queueOf_onFree (q : Nat) : queueOf (s.onFree f) q = queueOf s q := rfl
@[simp] theorem ringOf_onFree (q : Nat) : ringOf (s.onFree f) q = ringOf s q := rfl
@[simp] theorem progOf_onFree (q : Nat) : progOf (s.onFree f) q = progOf s q := rfl
@[simp] theorem regGet_onFree (d o v i : Nat) : regGet (s.onFree f) d o v i = regGet s d o v i := rfl
@[simp] theorem strmOf_onFree (q : Nat) : strmOf (s.onFree f) q = strmOf s q := rfl
@[simp] theorem coreOf_onFree (q : Nat) : coreOf (s.onFree f) q = coreOf s q := rfl
@[simp] theorem dirOf_onFree (k t r : Nat) : dirOf (s.onFree f) k t r = dirOf s k t r := rfl
@[simp] theorem rport_onFree (q : Nat) : rport (s.onFree f) q = rport s q := rfl
end

section
variable (s : State) (f : Pkg → Pkg)
@[simp] theorem queueOf_onPkg (q : Nat) : queueOf (s.onPkg f) q = queueOf s q := rfl
@[simp] theorem ringOf_onPkg (q : Nat) : ringOf (s.onPkg f) q = ringOf s q := rfl
@[simp] theorem progOf_onPkg (q : Nat) : progOf (s.onPkg f) q = progOf s q := rfl
@[simp] theorem regGet_onPkg (d o v i : Nat) : regGet (s.onPkg f) d o v i = regGet s d o v i := rfl
@[simp] theorem strmOf_onPkg (q : Nat) : strmOf (s.onPkg f) q = strmOf s q := rfl
@[simp] theorem coreOf_onPkg (q : Nat) : coreOf (s.onPkg f) q = coreOf s q := rfl
@[simp] theorem dirOf_onPkg (k t r : Nat) : dirOf (s.onPkg f) k t r = dirOf s k t r := rfl
@[simp] theorem rport_onPkg (q : Nat) : rport (s.onPkg f) q = rport s q := rfl
end

section
variable (s : State) (f : Mem → Mem)
@[simp] theorem queueOf_onMem (q : Nat) : queueOf (s.onMem f) q = queueOf s q := rfl
@[simp] theorem ringOf_onMem (q : Nat) : ringOf (s.onMem f) q = ringOf s q := rfl
@[simp] theorem progOf_onMem (q : Nat) : progOf (s.onMem f) q = progOf s q := rfl
@[simp] theorem regGet_onMem (d o v i : Nat) : regGet (s.onMem f) d o v i = regGet s d o v i := rfl
@[simp] theorem strmOf_onMem (q : Nat) : strmOf (s.onMem f) q = strmOf s q := rfl
@[simp] theorem coreOf_onMem (q : Nat) : coreOf (s.onMem f) q = coreOf s q := rfl
@[simp] theorem dirOf_onMem (k t r : Nat) : dirOf (s.onMem f) k t r = dirOf s k t r := rfl
@[simp] theorem rport_onMem (q : Nat) : rport (s.onMem f) q = rport s q := rfl
end

section
variable (s : State) (f : FMap Nat → FMap Nat)
@[simp] theorem queueOf_onRegs (q : Nat) : queueOf (s.onRegs f) q = queueOf s q := rfl
@[simp] theorem ringOf_onRegs (q : Nat) : ringOf (s.onRegs f) q = ringOf s q := rfl
@[simp] theorem progOf_onRegs (q : Nat) : progOf (s.onRegs f) q = progOf s q := rfl
@[simp] theorem strmOf_onRegs (q : Nat) : strmOf (s.onRegs f) q = strmOf s q := rfl
@[simp] theorem coreOf_onRegs (q : Nat) : coreOf (s.onRegs f) q = coreOf s q := rfl
@[simp] theorem dirOf_onRegs (k t r : Nat) : dirOf (s.onRegs f) k t r = dirOf s k t r := rfl
@[simp] theorem rport_onRegs (q : Nat) : rport (s.onRegs f) q = rport s q := rfl
end

section
variable (s : State) (f : Gauze → Gauze)
@[simp] theorem queueOf_onGz (q : Nat) : queueOf (s.onGz f) q = queueOf s q := rfl
@[simp] theorem ringOf_onGz (q : Nat) : ringOf (s.onGz f) q = ringOf s q := rfl
@[simp] theorem progOf_onGz (q : Nat) : progOf (s.onGz f) q = progOf s q := rfl
@[simp] theorem regGet_onGz (d o v i : Nat) : regGet (s.onGz f) d o v i = regGet s d o v i := rfl
@[simp] theorem strmOf_onGz (q : Nat) : strmOf (s.onGz f) q = strmOf s q := rfl
@[simp] theorem coreOf_onGz (q : Nat) : coreOf (s.onGz f) q = coreOf s q := rfl
@[simp] theorem dirOf_onGz (k t r : Nat) : dirOf (s.onGz f) k t r = dirOf s k t r := rfl
@[simp] theorem rport_onGz (q : Nat) : rport (s.onGz f) q = rport s q := rfl
end

section
variable (s : State) (f : Clocks → Clocks)
@[simp] theorem queueOf_onCk (q : Nat) : queueOf (s.onCk f) q = queueOf s q := rfl
@[simp] theorem ringOf_onCk (q : Nat) : ringOf (s.onCk f) q = ringOf s q := rfl
@[simp] theorem progOf_onCk (q : Nat) : progOf (s.onCk f) q = progOf s q := rfl
@[simp] theorem regGet_onCk (d o v i : Nat) : regGet (s.onCk f) d o v i = regGet s d o v i := rfl
@[simp] theorem strmOf_onCk (q : Nat) : strmOf (s.onCk f) q = strmOf s q := rfl
@[simp] theorem coreOf_onCk (q : Nat) : coreOf (s.onCk f) q = coreOf s q := rfl
@[simp] theorem dirOf_onCk (k t r : Nat) : dirOf (s.onCk f) k t r = dirOf s k t r := rfl
@[simp] theorem rport_onCk (q : Nat) : rport (s.onCk f) q = rport s q := rfl
end

section
variable (s : State) (f : Twill → Twill)
@[simp] theorem queueOf_onTw (q : Nat) : queueOf (s.onTw f) q = queueOf s q := rfl
@[simp] theorem ringOf_onTw (q : Nat) : ringOf (s.onTw f) q = ringOf s q := rfl
@[simp] theorem progOf_onTw (q : Nat) : progOf (s.onTw f) q = progOf s q := rfl
@[simp] theorem regGet_onTw (d o v i : Nat) : regGet (s.onTw f) d o v i = regGet s d o v i := rfl
@[simp] theorem strmOf_onTw (q : Nat) : strmOf (s.onTw f) q = strmOf s q := rfl
@[simp] theorem dirOf_onTw (k t r : Nat) : dirOf (s.onTw f) k t r = dirOf s k t r := rfl
@[simp] theorem rport_onTw (q : Nat) : rport (s.onTw f) q = rport s q := rfl
end

section
variable (s : State) (f : Muslin → Muslin)
@[simp] theorem queueOf_onMu (q : Nat) : queueOf (s.onMu f) q = queueOf s q := rfl
@[simp] theorem ringOf_onMu (q : Nat) : ringOf (s.onMu f) q = ringOf s q := rfl
@[simp] theorem progOf_onMu (q : Nat) : progOf (s.onMu f) q = progOf s q := rfl
@[simp] theorem regGet_onMu (d o v i : Nat) : regGet (s.onMu f) d o v i = regGet s d o v i := rfl
@[simp] theorem strmOf_onMu (q : Nat) : strmOf (s.onMu f) q = strmOf s q := rfl
@[simp] theorem coreOf_onMu (q : Nat) : coreOf (s.onMu f) q = coreOf s q := rfl
@[simp] theorem rport_onMu (q : Nat) : rport (s.onMu f) q = rport s q := rfl
end

section
variable (s : State) (f : FMap Strm → FMap Strm)
@[simp] theorem queueOf_onStreams (q : Nat) : queueOf (s.onStreams f) q = queueOf s q := rfl
@[simp] theorem ringOf_onStreams (q : Nat) : ringOf (s.onStreams f) q = ringOf s q := rfl
@[simp] theorem progOf_onStreams (q : Nat) : progOf (s.onStreams f) q = progOf s q := rfl
@[simp] theorem regGet_onStreams (d o v i : Nat) : regGet (s.onStreams f) d o v i = regGet s d o v i := rfl
@[simp] theorem coreOf_onStreams (q : Nat) : coreOf (s.onStreams f) q = coreOf s q := rfl
@[simp] theorem dirOf_onStreams (k t r : Nat) : dirOf (s.onStreams f) k t r = dirOf s k t r := rfl
@[simp] theorem rport_onStreams (q : Nat) : rport (s.onStreams f) q = rport s q := rfl
end

section
variable (s : State) (f : Qm → Qm)
@[simp] theorem progOf_onQm (q : Nat) : progOf (s.onQm f) q = progOf s q := rfl
@[simp] theorem regGet_onQm (d o v i : Nat) : regGet (s.onQm f) d o v i = regGet s d o v i := rfl
@[simp] theorem strmOf_onQm (q : Nat) : strmOf (s.onQm f) q = strmOf s q := rfl
@[simp] theorem coreOf_onQm (q : Nat) : coreOf (s.onQm f) q = coreOf s q := rfl
@[simp] theorem dirOf_onQm (k t r : Nat) : dirOf (s.onQm f) k t r = dirOf s k t r := rfl
@[simp] theorem rport_onQm (q : Nat) : rport (s.onQm f) q = rport s q := rfl
end

section
variable (s : State) (f : Seq → Seq)
@[simp] theorem queueOf_onSeq (q : Nat) : queueOf (s.onSeq f) q = queueOf s q := rfl
@[simp] theorem ringOf_onSeq (q : Nat) : ringOf (s.onSeq f) q = ringOf s q := rfl
@[simp] theorem regGet_onSeq (d o v i : Nat) : regGet (s.onSeq f) d o v i = regGet s d o v i := rfl
@[simp] theorem strmOf_onSeq (q : Nat) : strmOf (s.onSeq f) q = strmOf s q := rfl
@[simp] theorem coreOf_onSeq (q : Nat) : coreOf (s.onSeq f) q = coreOf s q := rfl
@[simp] theorem dirOf_onSeq (k t r : Nat) : dirOf (s.onSeq f) k t r = dirOf s k t r := rfl
@[simp] theorem rport_onSeq (q : Nat) : rport (s.onSeq f) q = rport s q := rfl
end

section
variable (s : State) (f : Img → Img)
@[simp] theorem queueOf_onImg (q : Nat) : queueOf (s.onImg f) q = queueOf s q := rfl
@[simp] theorem ringOf_onImg (q : Nat) : ringOf (s.onImg f) q = ringOf s q := rfl
@[simp] theorem progOf_onImg (q : Nat) : progOf (s.onImg f) q = progOf s q := rfl
@[simp] theorem regGet_onImg (d o v i : Nat) : regGet (s.onImg f) d o v i = regGet s d o v i := rfl
@[simp] theorem strmOf_onImg (q : Nat) : strmOf (s.onImg f) q = strmOf s q := rfl
@[simp] theorem coreOf_onImg (q : Nat) : coreOf (s.onImg f) q = coreOf s q := rfl
@[simp] theorem dirOf_onImg (k t r : Nat) : dirOf (s.onImg f) k t r = dirOf s k t r := rfl
@[simp] theorem rport_onImg (q : Nat) : rport (s.onImg f) q = rport s q := rfl
end

section
variable (s : State) (f : Rings → Rings)
@[simp] theorem queueOf_onRings (q : Nat) : queueOf (s.onRings f) q = queueOf s q := rfl
@[simp] theorem ringOf_onRings (q : Nat) : ringOf (s.onRings f) q = ringOf s q := rfl
@[simp] theorem progOf_onRings (q : Nat) : progOf (s.onRings f) q = progOf s q := rfl
@[simp] theorem regGet_onRings (d o v i : Nat) : regGet (s.onRings f) d o v i = regGet s d o v i := rfl
@[simp] theorem strmOf_onRings (q : Nat) : strmOf (s.onRings f) q = strmOf s q := rfl
@[simp] theorem coreOf_onRings (q : Nat) : coreOf (s.onRings f) q = coreOf s q := rfl
@[simp] theorem dirOf_onRings (k t r : Nat) : dirOf (s.onRings f) k t r = dirOf s k t r := rfl
end

section
variable (s : State) (f : Twin → Twin)
@[simp] theorem queueOf_onTwin (q : Nat) : queueOf (s.onTwin f) q = queueOf s q := rfl
@[simp] theorem ringOf_onTwin (q : Nat) : ringOf (s.onTwin f) q = ringOf s q := rfl
@[simp] theorem progOf_onTwin (q : Nat) : progOf (s.onTwin f) q = progOf s q := rfl
@[simp] theorem regGet_onTwin (d o v i : Nat) : regGet (s.onTwin f) d o v i = regGet s d o v i := rfl
@[simp] theorem strmOf_onTwin (q : Nat) : strmOf (s.onTwin f) q = strmOf s q := rfl
@[simp] theorem coreOf_onTwin (q : Nat) : coreOf (s.onTwin f) q = coreOf s q := rfl
@[simp] theorem dirOf_onTwin (k t r : Nat) : dirOf (s.onTwin f) k t r = dirOf s k t r := rfl
@[simp] theorem rport_onTwin (q : Nat) : rport (s.onTwin f) q = rport s q := rfl
end

section
variable (s : State) (f : Option Snap → Option Snap)
@[simp] theorem queueOf_onSnap (q : Nat) : queueOf (s.onSnap f) q = queueOf s q := rfl
@[simp] theorem ringOf_onSnap (q : Nat) : ringOf (s.onSnap f) q = ringOf s q := rfl
@[simp] theorem progOf_onSnap (q : Nat) : progOf (s.onSnap f) q = progOf s q := rfl
@[simp] theorem regGet_onSnap (d o v i : Nat) : regGet (s.onSnap f) d o v i = regGet s d o v i := rfl
@[simp] theorem strmOf_onSnap (q : Nat) : strmOf (s.onSnap f) q = strmOf s q := rfl
@[simp] theorem coreOf_onSnap (q : Nat) : coreOf (s.onSnap f) q = coreOf s q := rfl
@[simp] theorem dirOf_onSnap (k t r : Nat) : dirOf (s.onSnap f) k t r = dirOf s k t r := rfl
@[simp] theorem rport_onSnap (q : Nat) : rport (s.onSnap f) q = rport s q := rfl
end

section
variable (s : State) (f : Selvage → Selvage)
@[simp] theorem queueOf_onSv (q : Nat) : queueOf (s.onSv f) q = queueOf s q := rfl
@[simp] theorem ringOf_onSv (q : Nat) : ringOf (s.onSv f) q = ringOf s q := rfl
@[simp] theorem progOf_onSv (q : Nat) : progOf (s.onSv f) q = progOf s q := rfl
@[simp] theorem regGet_onSv (d o v i : Nat) : regGet (s.onSv f) d o v i = regGet s d o v i := rfl
@[simp] theorem strmOf_onSv (q : Nat) : strmOf (s.onSv f) q = strmOf s q := rfl
@[simp] theorem coreOf_onSv (q : Nat) : coreOf (s.onSv f) q = coreOf s q := rfl
@[simp] theorem dirOf_onSv (k t r : Nat) : dirOf (s.onSv f) k t r = dirOf s k t r := rfl
@[simp] theorem rport_onSv (q : Nat) : rport (s.onSv f) q = rport s q := rfl
end

section
variable (s : State) (f : Security → Security)
@[simp] theorem queueOf_onSec (q : Nat) : queueOf (s.onSec f) q = queueOf s q := rfl
@[simp] theorem ringOf_onSec (q : Nat) : ringOf (s.onSec f) q = ringOf s q := rfl
@[simp] theorem progOf_onSec (q : Nat) : progOf (s.onSec f) q = progOf s q := rfl
@[simp] theorem regGet_onSec (d o v i : Nat) : regGet (s.onSec f) d o v i = regGet s d o v i := rfl
@[simp] theorem strmOf_onSec (q : Nat) : strmOf (s.onSec f) q = strmOf s q := rfl
@[simp] theorem coreOf_onSec (q : Nat) : coreOf (s.onSec f) q = coreOf s q := rfl
@[simp] theorem dirOf_onSec (k t r : Nat) : dirOf (s.onSec f) k t r = dirOf s k t r := rfl
@[simp] theorem rport_onSec (q : Nat) : rport (s.onSec f) q = rport s q := rfl
end

section
variable (s : State) (f : Contour → Contour)
@[simp] theorem queueOf_onCt (q : Nat) : queueOf (s.onCt f) q = queueOf s q := rfl
@[simp] theorem ringOf_onCt (q : Nat) : ringOf (s.onCt f) q = ringOf s q := rfl
@[simp] theorem progOf_onCt (q : Nat) : progOf (s.onCt f) q = progOf s q := rfl
@[simp] theorem regGet_onCt (d o v i : Nat) : regGet (s.onCt f) d o v i = regGet s d o v i := rfl
@[simp] theorem strmOf_onCt (q : Nat) : strmOf (s.onCt f) q = strmOf s q := rfl
@[simp] theorem coreOf_onCt (q : Nat) : coreOf (s.onCt f) q = coreOf s q := rfl
@[simp] theorem dirOf_onCt (k t r : Nat) : dirOf (s.onCt f) k t r = dirOf s k t r := rfl
@[simp] theorem rport_onCt (q : Nat) : rport (s.onCt f) q = rport s q := rfl
end

section
variable (s : State) (f : HostLink → HostLink)
@[simp] theorem queueOf_onHost (q : Nat) : queueOf (s.onHost f) q = queueOf s q := rfl
@[simp] theorem ringOf_onHost (q : Nat) : ringOf (s.onHost f) q = ringOf s q := rfl
@[simp] theorem progOf_onHost (q : Nat) : progOf (s.onHost f) q = progOf s q := rfl
@[simp] theorem regGet_onHost (d o v i : Nat) : regGet (s.onHost f) d o v i = regGet s d o v i := rfl
@[simp] theorem strmOf_onHost (q : Nat) : strmOf (s.onHost f) q = strmOf s q := rfl
@[simp] theorem coreOf_onHost (q : Nat) : coreOf (s.onHost f) q = coreOf s q := rfl
@[simp] theorem dirOf_onHost (k t r : Nat) : dirOf (s.onHost f) k t r = dirOf s k t r := rfl
@[simp] theorem rport_onHost (q : Nat) : rport (s.onHost f) q = rport s q := rfl
end

section
variable (s : State) (f : I3c → I3c)
@[simp] theorem queueOf_onI3c (q : Nat) : queueOf (s.onI3c f) q = queueOf s q := rfl
@[simp] theorem ringOf_onI3c (q : Nat) : ringOf (s.onI3c f) q = ringOf s q := rfl
@[simp] theorem progOf_onI3c (q : Nat) : progOf (s.onI3c f) q = progOf s q := rfl
@[simp] theorem regGet_onI3c (d o v i : Nat) : regGet (s.onI3c f) d o v i = regGet s d o v i := rfl
@[simp] theorem strmOf_onI3c (q : Nat) : strmOf (s.onI3c f) q = strmOf s q := rfl
@[simp] theorem coreOf_onI3c (q : Nat) : coreOf (s.onI3c f) q = coreOf s q := rfl
@[simp] theorem dirOf_onI3c (k t r : Nat) : dirOf (s.onI3c f) k t r = dirOf s k t r := rfl
@[simp] theorem rport_onI3c (q : Nat) : rport (s.onI3c f) q = rport s q := rfl
end

section
variable (s : State) (f : List Sounding → List Sounding)
@[simp] theorem queueOf_onSounds (q : Nat) : queueOf (s.onSounds f) q = queueOf s q := rfl
@[simp] theorem ringOf_onSounds (q : Nat) : ringOf (s.onSounds f) q = ringOf s q := rfl
@[simp] theorem progOf_onSounds (q : Nat) : progOf (s.onSounds f) q = progOf s q := rfl
@[simp] theorem regGet_onSounds (d o v i : Nat) : regGet (s.onSounds f) d o v i = regGet s d o v i := rfl
@[simp] theorem strmOf_onSounds (q : Nat) : strmOf (s.onSounds f) q = strmOf s q := rfl
@[simp] theorem coreOf_onSounds (q : Nat) : coreOf (s.onSounds f) q = coreOf s q := rfl
@[simp] theorem dirOf_onSounds (k t r : Nat) : dirOf (s.onSounds f) k t r = dirOf s k t r := rfl
@[simp] theorem rport_onSounds (q : Nat) : rport (s.onSounds f) q = rport s q := rfl
end

section
variable (s : State) (f : FMap Nat → FMap Nat)
@[simp] theorem queueOf_onSeqNo (q : Nat) : queueOf (s.onSeqNo f) q = queueOf s q := rfl
@[simp] theorem ringOf_onSeqNo (q : Nat) : ringOf (s.onSeqNo f) q = ringOf s q := rfl
@[simp] theorem progOf_onSeqNo (q : Nat) : progOf (s.onSeqNo f) q = progOf s q := rfl
@[simp] theorem regGet_onSeqNo (d o v i : Nat) : regGet (s.onSeqNo f) d o v i = regGet s d o v i := rfl
@[simp] theorem strmOf_onSeqNo (q : Nat) : strmOf (s.onSeqNo f) q = strmOf s q := rfl
@[simp] theorem coreOf_onSeqNo (q : Nat) : coreOf (s.onSeqNo f) q = coreOf s q := rfl
@[simp] theorem dirOf_onSeqNo (k t r : Nat) : dirOf (s.onSeqNo f) k t r = dirOf s k t r := rfl
@[simp] theorem rport_onSeqNo (q : Nat) : rport (s.onSeqNo f) q = rport s q := rfl
end

section
variable (s : State) (f : Cores → Cores)
@[simp] theorem queueOf_onCores (q : Nat) : queueOf (s.onCores f) q = queueOf s q := rfl
@[simp] theorem ringOf_onCores (q : Nat) : ringOf (s.onCores f) q = ringOf s q := rfl
@[simp] theorem progOf_onCores (q : Nat) : progOf (s.onCores f) q = progOf s q := rfl
@[simp] theorem regGet_onCores (d o v i : Nat) : regGet (s.onCores f) d o v i = regGet s d o v i := rfl
@[simp] theorem strmOf_onCores (q : Nat) : strmOf (s.onCores f) q = strmOf s q := rfl
@[simp] theorem coreOf_onCores (q : Nat) : coreOf (s.onCores f) q = coreOf s q := rfl
@[simp] theorem dirOf_onCores (k t r : Nat) : dirOf (s.onCores f) k t r = dirOf s k t r := rfl
@[simp] theorem rport_onCores (q : Nat) : rport (s.onCores f) q = rport s q := rfl
end

--GENEND
/-! Reading back what one of the named updates has written. -/

@[simp] theorem queueOf_setQueue (s : State) (q : Nat) (f : Queue → Queue) : queueOf (setQueue s q f) q = f (queueOf s q) := by
  simp [queueOf, setQueue]

theorem queueOf_setQueue_ne (s : State) (q p : Nat) (f : Queue → Queue) (h : p ≠ q) : queueOf (setQueue s q f) p = queueOf s p := by
  simp [queueOf, setQueue, lookD_put_ne _ _ _ _ _ h]

@[simp] theorem ringOf_setRing (s : State) (n : Nat) (f : Ring → Ring) : ringOf (setRing s n f) n = f (ringOf s n) := by
  simp [ringOf, setRing]

theorem ringOf_setRing_ne (s : State) (n p : Nat) (f : Ring → Ring) (h : p ≠ n) : ringOf (setRing s n f) p = ringOf s p := by
  simp [ringOf, setRing, lookD_put_ne _ _ _ _ _ h]

@[simp] theorem progOf_setProg (s : State) (p : Nat) (f : Prog → Prog) : progOf (setProg s p f) p = f (progOf s p) := by
  simp [progOf, setProg]

theorem progOf_setProg_ne (s : State) (p q : Nat) (f : Prog → Prog) (h : q ≠ p) : progOf (setProg s p f) q = progOf s q := by
  simp [progOf, setProg, lookD_put_ne _ _ _ _ _ h]

@[simp] theorem regGet_regSet (s : State) (die off v d sel : Nat) : regGet (regSet s die off v sel) die off d sel = v := by
  simp [regGet, regSet]

@[simp] theorem coreOf_setCore (s : State) (c : Nat) (f : Core → Core) : coreOf (setCore s c f) c = f (coreOf s c) := by
  simp [coreOf, setCore]

theorem coreOf_setCore_ne (s : State) (c d : Nat) (f : Core → Core) (h : d ≠ c) : coreOf (setCore s c f) d = coreOf s d := by
  simp [coreOf, setCore, lookD_put_ne _ _ _ _ _ h]

@[simp] theorem strmOf_setStrm (s : State) (n : Nat) (f : Strm → Strm) : strmOf (setStrm s n f) n = f (strmOf s n) := by
  simp [strmOf, setStrm]

theorem strmOf_setStrm_ne (s : State) (n p : Nat) (f : Strm → Strm) (h : p ≠ n) : strmOf (setStrm s n f) p = strmOf s p := by
  simp [strmOf, setStrm, lookD_put_ne _ _ _ _ _ h]

@[simp] theorem queueOf_setProg (s : State) (p q : Nat) (f : Prog → Prog) : queueOf (setProg s p f) q = queueOf s q := rfl
@[simp] theorem progOf_setQueue (s : State) (p q : Nat) (f : Queue → Queue) : progOf (setQueue s q f) p = progOf s p := rfl

/-! Touched sectors and stored bytes. -/

/-- Sectors read or written change counts, banks and loads alone. -/
theorem touchAll_same_self (s : State) (l : List Nat) : Same { regs := true, mu := true, sounds := true, seqNo := true } s (touchAll s l) :=
  touchAll_same (Same.refl _ s) rfl rfl rfl rfl

@[simp] theorem touchAll_mem (s : State) (l : List Nat) : (touchAll s l).mem = s.mem := (touchAll_same_self s l).mem rfl

@[simp] theorem storeMem_cells (s : State) (a : Nat) (bs : List Byte) : (storeMem s a bs).mem.cells = writeCells s.mem.cells a bs := by
  simp [storeMem]

@[simp] theorem storeMem_posted (s : State) (a : Nat) (bs : List Byte) : (storeMem s a bs).mem.posted = s.mem.posted := by
  simp [storeMem]

/-- Memory outside the bytes stored reads as before, and the bytes stored read as written. -/
theorem cellByte_storeMem (s : State) (a x : Nat) (bs : List Byte) (h : Memory.wf s.mem.cells = true) :
    cellByte (storeMem s a bs).mem x = if a ≤ x ∧ x < a + bs.length then bs.getD (x - a) 0 else cellByte s.mem x := by
  unfold cellByte; rw [storeMem_cells]; exact look_writeCells bs s.mem.cells a x h

@[simp] theorem storeMem_qm (s : State) (a : Nat) (bs : List Byte) : (storeMem s a bs).qm = s.qm := (touchAll_same_self s _).qm rfl

@[simp] theorem storeMem_seq (s : State) (a : Nat) (bs : List Byte) : (storeMem s a bs).seq = s.seq := (touchAll_same_self s _).seq rfl

@[simp] theorem queueOf_storeMem (s : State) (a q : Nat) (bs : List Byte) : queueOf (storeMem s a bs) q = queueOf s q := by
  simp [queueOf]

@[simp] theorem progOf_storeMem (s : State) (a p : Nat) (bs : List Byte) : progOf (storeMem s a bs) p = progOf s p := by
  simp [progOf]

/-! A descriptor that completes. -/

/-- What complete does, from a state whose queue manager is that of an earlier one. -/
theorem ends_complete {s r : State} (h : Hdr) (u : UnitId) (st : Nat) (e : s.qm = r.qm) : Ends r (complete s h u st) h u st where
  issued := ⟨fresh s % 2 ^ 32, Nat.mod_lt _ (by decide), by simp [complete, issue, State.took, completionOf, e]⟩
  disp := by simp [complete, issue, State.took, e]
  waiting := by simp [complete, issue, State.took, e]
  queues := by simp [complete, issue, State.took, e]
  rings := by simp [complete, issue, State.took, e]
  served := by simp [complete, issue, State.took, e]
  irqs := by simp [complete, issue, State.took, e]
  msix := by simp [complete, issue, State.took, e]

/-- What Ends says depends on the queue manager alone. -/
theorem ends_congr {s t t' : State} {h : Hdr} {u : UnitId} {st : Nat} (k : Ends s t h u st) (e : t'.qm = t.qm) : Ends s t' h u st :=
  ⟨by rw [e]; exact k.issued, by rw [e]; exact k.disp, by rw [e]; exact k.waiting, by rw [e]; exact k.queues, by rw [e]; exact k.rings,
   by rw [e]; exact k.served, by rw [e]; exact k.irqs, by rw [e]; exact k.msix⟩

theorem ends_congr_left {s r t : State} {h : Hdr} {u : UnitId} {st : Nat} (k : Ends r t h u st) (e : r.qm = s.qm) : Ends s t h u st :=
  ⟨by rw [← e]; exact k.issued, by rw [← e]; exact k.disp, by rw [← e]; exact k.waiting, by rw [← e]; exact k.queues,
   by rw [← e]; exact k.rings, by rw [← e]; exact k.served, by rw [← e]; exact k.irqs, by rw [← e]; exact k.msix⟩

/-- What completeIdle does, likewise. -/
theorem ends_completeIdle {s r : State} (h : Hdr) (u : UnitId) (st : Nat) (e : s.qm = r.qm) : Ends r (completeIdle s h u st) h u st where
  issued := ⟨0, by decide, by simp [completeIdle, issue, completionOf, e]⟩
  disp := by simp [completeIdle, issue, e]
  waiting := by simp [completeIdle, issue, e]
  queues := by simp [completeIdle, issue, e]
  rings := by simp [completeIdle, issue, e]
  served := by simp [completeIdle, issue, e]
  irqs := by simp [completeIdle, issue, e]
  msix := by simp [completeIdle, issue, e]

/-! What a completion leaves. -/

@[simp] theorem complete_pkg (s : State) (h : Hdr) (u : UnitId) (st : Nat) : (complete s h u st).pkg = s.pkg := rfl
@[simp] theorem completeIdle_pkg (s : State) (h : Hdr) (u : UnitId) (st : Nat) : (completeIdle s h u st).pkg = s.pkg := rfl
@[simp] theorem complete_mem (s : State) (h : Hdr) (u : UnitId) (st : Nat) : (complete s h u st).mem = s.mem := rfl
@[simp] theorem completeIdle_mem (s : State) (h : Hdr) (u : UnitId) (st : Nat) : (completeIdle s h u st).mem = s.mem := rfl
@[simp] theorem complete_regs (s : State) (h : Hdr) (u : UnitId) (st : Nat) : (complete s h u st).regs = s.regs := rfl
@[simp] theorem completeIdle_regs (s : State) (h : Hdr) (u : UnitId) (st : Nat) : (completeIdle s h u st).regs = s.regs := rfl
@[simp] theorem complete_gz (s : State) (h : Hdr) (u : UnitId) (st : Nat) : (complete s h u st).gz = s.gz := rfl
@[simp] theorem completeIdle_gz (s : State) (h : Hdr) (u : UnitId) (st : Nat) : (completeIdle s h u st).gz = s.gz := rfl
@[simp] theorem complete_ck (s : State) (h : Hdr) (u : UnitId) (st : Nat) : (complete s h u st).ck = s.ck := rfl
@[simp] theorem completeIdle_ck (s : State) (h : Hdr) (u : UnitId) (st : Nat) : (completeIdle s h u st).ck = s.ck := rfl
@[simp] theorem complete_tw (s : State) (h : Hdr) (u : UnitId) (st : Nat) : (complete s h u st).tw = s.tw := rfl
@[simp] theorem completeIdle_tw (s : State) (h : Hdr) (u : UnitId) (st : Nat) : (completeIdle s h u st).tw = s.tw := rfl
@[simp] theorem complete_mu (s : State) (h : Hdr) (u : UnitId) (st : Nat) : (complete s h u st).mu = s.mu := rfl
@[simp] theorem completeIdle_mu (s : State) (h : Hdr) (u : UnitId) (st : Nat) : (completeIdle s h u st).mu = s.mu := rfl
@[simp] theorem complete_streams (s : State) (h : Hdr) (u : UnitId) (st : Nat) : (complete s h u st).streams = s.streams := rfl
@[simp] theorem completeIdle_streams (s : State) (h : Hdr) (u : UnitId) (st : Nat) : (completeIdle s h u st).streams = s.streams := rfl
@[simp] theorem complete_seq (s : State) (h : Hdr) (u : UnitId) (st : Nat) : (complete s h u st).seq = s.seq := rfl
@[simp] theorem completeIdle_seq (s : State) (h : Hdr) (u : UnitId) (st : Nat) : (completeIdle s h u st).seq = s.seq := rfl
@[simp] theorem complete_img (s : State) (h : Hdr) (u : UnitId) (st : Nat) : (complete s h u st).img = s.img := rfl
@[simp] theorem completeIdle_img (s : State) (h : Hdr) (u : UnitId) (st : Nat) : (completeIdle s h u st).img = s.img := rfl
@[simp] theorem complete_rings (s : State) (h : Hdr) (u : UnitId) (st : Nat) : (complete s h u st).rings = s.rings := rfl
@[simp] theorem completeIdle_rings (s : State) (h : Hdr) (u : UnitId) (st : Nat) : (completeIdle s h u st).rings = s.rings := rfl
@[simp] theorem complete_twin (s : State) (h : Hdr) (u : UnitId) (st : Nat) : (complete s h u st).twin = s.twin := rfl
@[simp] theorem completeIdle_twin (s : State) (h : Hdr) (u : UnitId) (st : Nat) : (completeIdle s h u st).twin = s.twin := rfl
@[simp] theorem complete_snap (s : State) (h : Hdr) (u : UnitId) (st : Nat) : (complete s h u st).snap = s.snap := rfl
@[simp] theorem completeIdle_snap (s : State) (h : Hdr) (u : UnitId) (st : Nat) : (completeIdle s h u st).snap = s.snap := rfl
@[simp] theorem complete_sv (s : State) (h : Hdr) (u : UnitId) (st : Nat) : (complete s h u st).sv = s.sv := rfl
@[simp] theorem completeIdle_sv (s : State) (h : Hdr) (u : UnitId) (st : Nat) : (completeIdle s h u st).sv = s.sv := rfl
@[simp] theorem complete_sec (s : State) (h : Hdr) (u : UnitId) (st : Nat) : (complete s h u st).sec = s.sec := rfl
@[simp] theorem completeIdle_sec (s : State) (h : Hdr) (u : UnitId) (st : Nat) : (completeIdle s h u st).sec = s.sec := rfl
@[simp] theorem complete_ct (s : State) (h : Hdr) (u : UnitId) (st : Nat) : (complete s h u st).ct = s.ct := rfl
@[simp] theorem completeIdle_ct (s : State) (h : Hdr) (u : UnitId) (st : Nat) : (completeIdle s h u st).ct = s.ct := rfl
@[simp] theorem complete_host (s : State) (h : Hdr) (u : UnitId) (st : Nat) : (complete s h u st).host = s.host := rfl
@[simp] theorem completeIdle_host (s : State) (h : Hdr) (u : UnitId) (st : Nat) : (completeIdle s h u st).host = s.host := rfl
@[simp] theorem complete_i3c (s : State) (h : Hdr) (u : UnitId) (st : Nat) : (complete s h u st).i3c = s.i3c := rfl
@[simp] theorem completeIdle_i3c (s : State) (h : Hdr) (u : UnitId) (st : Nat) : (completeIdle s h u st).i3c = s.i3c := rfl
@[simp] theorem complete_sounds (s : State) (h : Hdr) (u : UnitId) (st : Nat) : (complete s h u st).sounds = s.sounds := rfl
@[simp] theorem completeIdle_sounds (s : State) (h : Hdr) (u : UnitId) (st : Nat) : (completeIdle s h u st).sounds = s.sounds := rfl
@[simp] theorem complete_seqNo (s : State) (h : Hdr) (u : UnitId) (st : Nat) : (complete s h u st).seqNo = s.seqNo := rfl
@[simp] theorem completeIdle_seqNo (s : State) (h : Hdr) (u : UnitId) (st : Nat) : (completeIdle s h u st).seqNo = s.seqNo := rfl
@[simp] theorem complete_cores (s : State) (h : Hdr) (u : UnitId) (st : Nat) : (complete s h u st).cores = s.cores := rfl
@[simp] theorem completeIdle_cores (s : State) (h : Hdr) (u : UnitId) (st : Nat) : (completeIdle s h u st).cores = s.cores := rfl
@[simp] theorem complete_pending (s : State) (h : Hdr) (u : UnitId) (st : Nat) : (complete s h u st).pending = s.pending := rfl
@[simp] theorem completeIdle_pending (s : State) (h : Hdr) (u : UnitId) (st : Nat) : (completeIdle s h u st).pending = s.pending := rfl

/-- finish writes no memory. -/
@[simp] theorem finish_mem (s0 s : State) (h : Hdr) (u : UnitId) (st : Nat) : (finish s0 s h u st).mem = s.mem := by
  unfold finish; dsimp only; split <;> rfl

/-- Without SCOPE = SYSTEM, a command completes once its outputs are written. -/
theorem finish_local {s0 s : State} {h : Hdr} (u : UnitId) (st : Nat) (e : h.system = false) : finish s0 s h u st = complete s h u st := by
  simp [finish, e]

/-- So does one that has posted no far write. -/
theorem finish_posted {s0 s : State} (h : Hdr) (u : UnitId) (st : Nat) (e : s.mem.posted = s0.mem.posted) :
    finish s0 s h u st = complete s h u st := by
  have : ((s.mem.posted.map (·.tag)).filter fun t => !(s0.mem.posted.map (·.tag)).contains t) = [] := by
    rw [e, List.filter_eq_nil_iff]; intro a ha; simpa using ha
  unfold finish; dsimp only; rw [this]; simp

@[simp] theorem queueOf_complete (s : State) (h : Hdr) (u : UnitId) (st q : Nat) : queueOf (complete s h u st) q = queueOf s q := rfl
@[simp] theorem queueOf_completeIdle (s : State) (h : Hdr) (u : UnitId) (st q : Nat) : queueOf (completeIdle s h u st) q = queueOf s q := rfl
@[simp] theorem ringOf_complete (s : State) (h : Hdr) (u : UnitId) (st q : Nat) : ringOf (complete s h u st) q = ringOf s q := rfl
@[simp] theorem ringOf_completeIdle (s : State) (h : Hdr) (u : UnitId) (st q : Nat) : ringOf (completeIdle s h u st) q = ringOf s q := rfl

/-- A descriptor that may start runs its body. -/
theorem runDesc_start {s : State} {h : Hdr} (b : State → State) (c : canStart s h = true) : runDesc s h b = b s := if_pos c

/-- A program that stands at an instruction runs it. -/
theorem atInstr_stands {s : State} {p : Nat} {c : Instr} (b : State → State) (k : Stands s p c) : atInstr s p c b = b s := by
  obtain ⟨h1, h2⟩ := k
  have : ((progOf s p).st != 1 && (progOf s p).st != 3) = false := by rcases h1 with h | h <;> simp [h]
  simp [atInstr, this, h2]

theorem bump_regs_congr {a b : State} {d o n : Nat} (h : a.regs = b.regs) : (bump a d o n).regs = (bump b d o n).regs := by
  have hg : ∀ x y z w, regGet a x y z w = regGet b x y z w := by intros; simp [regGet, h]
  have he : ∀ (s : State) d u k bd, (emitSounding s d u k bd).regs = s.regs := by
    intro s d u k bd; unfold emitSounding; dsimp only; split <;> rfl
  unfold bump bumpBy
  simp only [hg]
  split
  · split
    · exact h
    · simp [regSet, h]
  · split
    · simp [regSet, h]
    · simp [he, regSet, h]

theorem endEarly_ends (s : State) (d : Disp) (st : Nat) : Ends s (endEarly s d st) d.hdr d.unit st := by
  refine ends_complete _ _ _ ?_
  have : ∀ x, (forget (dropReqs s d.hdr) d.hdr).qm = x → x = s.qm := by
    rintro x rfl
    exact (forget_same (dropReqs_same (g₀ := { gz := true, mu := true, streams := true, seq := true, img := true, rings := true, snap := true, sec := true }) (Same.refl _ s) rfl) rfl rfl rfl rfl rfl rfl rfl).qm rfl
  have sh : ∀ (x : State) (c : Nat) (h : Hdr), (dropShadow x c h).qm = x.qm := by
    intro x c h; unfold dropShadow; split <;> rfl
  split
  · split
    · exact (sh _ _ _).trans (this _ rfl)
    · exact (sh _ _ _).trans (this _ rfl)
  · split
    · exact (sh _ _ _).trans (this _ rfl)
    · exact (sh _ _ _).trans (this _ rfl)
  · split <;> exact this _ rfl
  · exact this _ rfl

theorem queueOf_ends {s t : State} {h : Hdr} {u : UnitId} {st : Nat} (k : Ends s t h u st) (q : Nat) : queueOf t q = queueOf s q := by
  simp [queueOf, k.queues]

theorem ins_self (l : List Nat) (k : Nat) : k ∈ ins l k := by
  induction l with
  | nil => simp [ins]
  | cons x r ih => unfold ins; split <;> try simp
                   split <;> simp_all

theorem setSticky_mem (s : State) (k : Nat) : k ∈ (setSticky s k).sv.sticky := by
  unfold setSticky; dsimp only; split
  · unfold raiseIbi; split <;> exact ins_self _ _
  · exact ins_self _ _

theorem setSticky_regs (s : State) (k : Nat) : (setSticky s k).regs = s.regs :=
  (setSticky_same (g₀ := { sv := true, i3c := true }) (Same.refl _ s) rfl rfl).regs rfl

/-- A counted expiry sets the unit's source and raises CK.LATE_CNT of its die (R71). -/
theorem countExpiry_is (s : State) (u : UnitId) :
    srcOfUnit u ∈ (countExpiry s u).sv.sticky ∧ (countExpiry s u).regs = (bump s u.die 0x4018).regs := by
  have B := bump_same (g₀ := { regs := true, sounds := true, seqNo := true }) (die := u.die) (off := 0x4018) (sel := 0) (Same.refl _ (setSticky s (srcOfUnit u))) rfl rfl rfl
  refine ⟨?_, bump_regs_congr (setSticky_regs _ _)⟩
  show _ ∈ (bump _ _ _).sv.sticky
  rw [B.sv rfl]; exact setSticky_mem _ _

theorem badDoorbell_is (s : State) : (badDoorbell s).qm = s.qm ∧ (badDoorbell s).regs = (bump s 0 0x20050).regs ∧ srcCommand ∈ (badDoorbell s).sv.sticky :=
  ⟨(badDoorbell_same (g₀ := { regs := true, sv := true, i3c := true, sounds := true, seqNo := true }) (Same.refl _ s) rfl rfl rfl rfl rfl).qm rfl,
   setSticky_regs _ _, setSticky_mem _ _⟩

theorem leBytes_length (n v : Nat) : (leBytes n v).length = n := by
  induction n generalizing v with
  | zero => rfl
  | succ n _ => simp [leBytes]

theorem ofLe_append (a b : List Byte) : ofLe (a ++ b) = ofLe a + 256 ^ a.length * ofLe b := by
  induction a with
  | nil => simp [ofLe]
  | cons x r ih =>
    simp only [List.cons_append, ofLe, ih, List.length_cons, Nat.pow_succ, Nat.mul_add, Nat.mul_assoc, Nat.mul_comm, Nat.add_assoc]

theorem ofLe_leBytes (n v : Nat) : ofLe (leBytes n v) = v % 256 ^ n := by
  induction n with
  | zero => simp [leBytes, ofLe, Nat.mod_one]
  | succ n ih =>
    rw [leBytes, List.range_succ, List.map_append, ofLe_append]
    rw [leBytes] at ih
    rw [ih]
    simp only [List.map_cons, List.map_nil, ofLe, List.length_map, List.length_range, BitVec.toNat_ofNat]
    rw [show (256 : Nat) ^ (n + 1) = 256 ^ n * 256 from rfl, Nat.mod_mul (a := 256 ^ n), show (2 : Nat) ^ (8 * n) = 256 ^ n by rw [Nat.pow_mul], show (2 : Nat) ^ 8 = 256 from rfl, Nat.mul_zero, Nat.add_zero]

theorem recordBytes_length : ∀ a b c d e f g h i j k, (recordBytes a b c d e f g h i j k).length = 16 := by
  intros; simp [recordBytes, leBytes_length]

/-! Records of the completion rings. -/

theorem notify_is (s : State) (r : Rec) : (notify s r).mem = s.mem ∧ (notify s r).qm.rings = s.qm.rings ∧ (notify s r).qm.cpls = s.qm.cpls ∧
    (notify s r).qm.queues = s.qm.queues ∧ (notify s r).qm.disp = s.qm.disp := by
  unfold notify; split
  · exact ⟨rfl, rfl, rfl, rfl, rfl⟩
  · split <;> exact ⟨rfl, rfl, rfl, rfl, rfl⟩

/-- A record written: its bytes at the ring's tail, the tail one further, one reserved slot less, and nothing else of the queue manager but
an interrupt. -/
theorem writeRecord_is {s : State} {n : Nat} {r : Rec} (b : Nat → List Byte) (hr : ringRec s n = some r) :
    let g := ringOf s n
    let t := writeRecord s n b
    t.mem = (writeMem s (fld r 4 + 16 * (g.tail % ringSize r)) (b (ringPhase r g))).mem ∧
    ringOf t n = { g with tail := g.tail + 1, resv := g.resv - 1 } ∧ (∀ m, m ≠ n → ringOf t m = ringOf s m) ∧
    t.qm.cpls = s.qm.cpls ∧ t.qm.queues = s.qm.queues ∧ t.qm.disp = s.qm.disp := by
  intro g t
  have ht : t = writeRecord s n b := rfl
  rw [ht, writeRecord]
  simp only [hr]
  rw [show ringOf s n = g from rfl]
  generalize hW : writeMem _ _ _ = W
  have w1 : W.qm = s.qm := by
    rw [← hW]
    exact (writeMem_same (g₀ := { mem := true, regs := true, mu := true, sv := true, i3c := true, sounds := true, seqNo := true }) (Same.refl _ _) rfl rfl rfl rfl rfl rfl rfl).qm rfl
  have key : ∀ z : State, z.mem = W.mem → z.qm.rings = (setRing W n fun g => { g with tail := g.tail + 1, resv := g.resv - 1 }).qm.rings →
      z.qm.cpls = W.qm.cpls → z.qm.queues = W.qm.queues → z.qm.disp = W.qm.disp →
      z.mem = W.mem ∧ ringOf z n = { g with tail := g.tail + 1, resv := g.resv - 1 } ∧ (∀ m, m ≠ n → ringOf z m = ringOf s m) ∧
      z.qm.cpls = s.qm.cpls ∧ z.qm.queues = s.qm.queues ∧ z.qm.disp = s.qm.disp := by
    intro z a b d e f
    have hg : ringOf W n = g := by simp only [ringOf, w1]; rfl
    refine ⟨a, ?_, fun m hm => ?_, by rw [d, w1], by rw [e, w1], by rw [f, w1]⟩
    · have := ringOf_setRing W n fun g => { g with tail := g.tail + 1, resv := g.resv - 1 }
      rw [hg] at this; rw [← this]; simp only [ringOf, b]
    · have := ringOf_setRing_ne W n m (fun g => { g with tail := g.tail + 1, resv := g.resv - 1 }) hm
      rw [show ringOf s m = ringOf W m by simp only [ringOf, w1], ← this]; simp only [ringOf, b]
  split
  · obtain ⟨a, b, d, e, f⟩ := notify_is (setRing W n fun g => { g with tail := g.tail + 1, resv := g.resv - 1 }) r
    exact key _ a b d e f
  · exact key _ rfl rfl rfl rfl rfl

/-- A write below Far stores its bytes. -/
theorem writeMem_store {s : State} {a : Nat} {bs : List Byte} (h : bs ≠ []) (l : a < farBase) : writeMem s a bs = storeMem s a bs := by
  have : bs.isEmpty = false := by cases bs <;> simp_all
  simp only [writeMem, this, Bool.false_eq_true, if_false]
  rw [if_neg]; simp only [Bool.and_eq_true, decide_eq_true_eq, not_and]; omega

/-- What a write below Far stores. -/
theorem stored_writeMem {s : State} {a : Nat} {bs : List Byte} (m : MemOk s) (h : bs ≠ []) (l : a < farBase) : Stored s (writeMem s a bs) a bs := by
  rw [writeMem_store h l]; exact ⟨fun x => cellByte_storeMem s a x bs m, storeMem_posted s a bs⟩

/-- What Stored says depends on the memory alone. -/
theorem stored_congr {s t t' : State} {a : Nat} {bs : List Byte} (k : Stored s t a bs) (e : t'.mem = t.mem) : Stored s t' a bs :=
  ⟨fun x => by rw [e]; exact k.bytes x, by rw [e]; exact k.posted⟩

theorem recordBytes_ne {a b c d e f g h i j k : Nat} : recordBytes a b c d e f g h i j k ≠ [] := by
  intro e; have := congrArg List.length e; rw [recordBytes_length] at this; simp at this

/-! Critical commands. -/

/-- An accepted critical command runs its body once its COUNTER is recorded (R299, R300). -/
theorem critical_accepted {s : State} {h : Hdr} {t : Trailer} {slot : Nat} {k : Key} (b : State → State) (a : Accepted s h t slot k) :
    critical s h t b = b (acceptCounter s slot k t.counter) := by
  obtain ⟨a1, a2, a3, a4, a5⟩ := a
  unfold critical
  rw [runDesc_start _ a1, a2]
  dsimp only
  rw [if_neg (by simp [a3]), if_neg (by simp [a4]; omega)]

/-- A critical command that R299 refuses completes at once. -/
theorem critical_noKey {s : State} {h : Hdr} {t : Trailer} (b : State → State) (c : canStart s h = true) (n : keyOf s t.keyNum = none) :
    critical s h t b = complete s h cmdUnit stAuth := by
  unfold critical; rw [runDesc_start _ c, n]

theorem critical_badTag {s : State} {h : Hdr} {t : Trailer} {slot : Nat} {k : Key} (b : State → State) (c : canStart s h = true)
    (n : keyOf s t.keyNum = some (slot, k)) (g : t.tag ≠ (Config.hmac k.secret t.message).take 16) :
    critical s h t b = complete s h cmdUnit stAuth := by
  unfold critical; rw [runDesc_start _ c, n]; dsimp only; rw [if_pos (by simpa using g)]

theorem critical_replay {s : State} {h : Hdr} {t : Trailer} {slot : Nat} {k : Key} (b : State → State) (c : canStart s h = true)
    (n : keyOf s t.keyNum = some (slot, k)) (g : t.tag = (Config.hmac k.secret t.message).take 16) (r : k.exhausted = true ∨ t.counter ≤ k.last) :
    critical s h t b = complete s h cmdUnit stReplay := by
  unfold critical; rw [runDesc_start _ c, n]; dsimp only
  rw [if_neg (by simp [g]), if_pos (by rcases r with r | r <;> simp [r])]

/-- The record just appended to the Almanac is the current one of its kind; KEY_CTR, one record for each key, apart. -/
theorem almGet_append (s : State) (id v : Nat) (d : List Byte) (h : id ≠ almKeyCtr) : almGet (appendAlm s id v d) id v = some d := by
  unfold almGet appendAlm
  dsimp only [State.onSec]
  rw [List.find?_append]
  rw [show List.find? (fun r => r.id == id && r.version == v) (List.filter (fun x => !almSame x { id := id, version := v, data := d, wseq := (s.sec.wseq + 1) % 2 ^ 32 }) s.sec.almanac) = none from ?_]
  · simp
  · rw [List.find?_eq_none]
    intro x hx hc
    simp only [List.mem_filter, almSame] at hx
    simp only [Bool.and_eq_true, beq_iff_eq] at hc
    have : x.id ≠ almKeyCtr := by rw [hc.1]; exact h
    simp [hc.1, hc.2, h] at hx

/-- A restore puts the journalled image back and leaves the journal empty; a readback that fails leaves no firmware (R454). -/
theorem restoreFw_is {s : State} {old : List Byte} (ok : Bool) (e : s.sec.fwJournal = some old) :
    (restoreFw s ok).qm = s.qm ∧ (restoreFw s ok).sec.fwImage = old ∧ (restoreFw s ok).sec.fwReason = s.sec.fwReason ∧
    (restoreFw s ok).sec.fwJournal = none ∧ (restoreFw s ok).sec.fwState = (if ok then fwFallback else fwNone) := by
  unfold restoreFw
  simp only [e]
  cases ok
  · simp only [Bool.false_eq_true, if_false]
    have S := fun x => setSticky_same (g₀ := { sv := true, i3c := true }) (src := srcFlash) (Same.refl _ x) rfl rfl
    refine ⟨(S _).qm rfl, ?_, ?_, ?_, ?_⟩ <;> rw [(S _).sec rfl] <;> rfl
  · exact ⟨rfl, rfl, rfl, rfl, rfl⟩

/-! The route to a device, and what a request takes, depend on few groups (R369, R305, R306). -/

section
variable {a b : State} (m : a.rings.map_ = b.rings.map_) (p : a.rings.peers = b.rings.peers) (k : a.rings.broken = b.rings.broken)
include m in
theorem lineDev_congr (x y z : Nat) : lineDev a x y z = lineDev b x y z := by unfold lineDev devAt; rw [m]
include m p in
theorem standing_congr (d : Nat) : standing a d = standing b d := by unfold standing peerOf devRec; rw [m, p]
include m p in
theorem nextPosn_congr (dim line size target : Nat) (plus : Bool) :
    ∀ n x, nextPosn a dim line size target plus n x = nextPosn b dim line size target plus n x := by
  intro n; induction n with
  | zero => exact fun x => rfl
  | succ n ih => intro x; unfold nextPosn; simp only [lineDev_congr m, standing_congr m p, ih]
include m p k in
theorem legHops_congr (dim line size target : Nat) (plus : Bool) :
    ∀ n x, legHops a dim line size target plus n x = legHops b dim line size target plus n x := by
  intro n; induction n with
  | zero => exact fun x => rfl
  | succ n ih => intro x; unfold legHops; simp only [nextPosn_congr m p, lineDev_congr m, ih, k]
include m p k in
theorem ringRoute_ports (u : ∀ d, rportUp a d = rportUp b d) (d : Nat) : ringRoute a d = ringRoute b d := by
  have h1 : ∀ w x y z, legExit a w x y z = legExit b w x y z := by
    intros; unfold legExit ringLen ringHeader; simp only [legHops_congr m p k, u, m]
  have h2 : ∀ w x y z, legOpen a w x y z = legOpen b w x y z := by
    intros; unfold legOpen ringLen ringHeader; simp only [legHops_congr m p k, m]
  unfold ringRoute devPos devRec devAt selfDev ringHeader peerOf devRec
  simp only [h1, h2, standing_congr m p, m, p]
end

theorem ringRoute_congr {a b : State} (e : a.rings = b.rings) (d : Nat) : ringRoute a d = ringRoute b d :=
  ringRoute_ports (by rw [e]) (by rw [e]) (by rw [e]) (fun d => by unfold rportUp rport; rw [e]) d

theorem sentTo_congr {a b : State} (e : a.rings = b.rings) (d : Nat) : sentTo a d = sentTo b d := by
  unfold sentTo peerOf devRec; rw [e]
theorem remoteGone_congr {a b : State} (e : a.rings = b.rings) (d : Nat) : remoteGone a d = remoteGone b d := by
  unfold remoteGone devGone countsAbsent peerOf devRec; rw [ringRoute_congr e, e]
theorem newTag_congr {a b : State} (e : a.gz = b.gz) (d : Nat) : newTag a d = newTag b d := by
  have hf : ∀ n t, freeTag a d n t = freeTag b d n t := by
    intro n; induction n with
    | zero => exact fun t => rfl
    | succ n ih => intro t; unfold freeTag tagBusy; rw [ih, e]
  unfold newTag; rw [e, hf]
theorem reqRoom_congr {a b : State} (e : a.gz = b.gz) (i : a.img = b.img) (g : a.rings = b.rings) (r : OutReq) : reqRoom a r = reqRoom b r := by
  unfold reqRoom mcReserved mcMembers mcRecvOf outFlits sect; rw [e, i, g]
theorem panelOfQueue_congr {a b : State} (e : a.qm.queues = b.qm.queues) (f : a.img = b.img) (q : Nat) : panelOfQueue a q = panelOfQueue b q := by
  have hq : queueRec a q = queueRec b q := by unfold queueRec queue0Up recBy sect; rw [e, f]
  unfold panelOfQueue; rw [hq]

theorem sameDesc_self (h : Hdr) : sameDesc h h = true := by simp [sameDesc]

theorem look_mem {α : Type} (m : FMap α) (k : Nat) (v : α) (h : look m k = some v) : (k, v) ∈ m := by
  induction m with
  | nil => simp at h
  | cons p r ih =>
    obtain ⟨k', v'⟩ := p
    rw [look] at h
    split at h
    · next e => subst e; simp at h; simp [h]
    · exact List.mem_cons_of_mem _ (ih h)

theorem regGet_put (s : State) (d off v sel d' off' sel' : Nat) :
    regGet (regSet s d off v sel) d' off' 0 sel' = if regKey d' off' sel' = regKey d off sel then v else regGet s d' off' 0 sel' := by
  simp only [regGet, regSet, State.onRegs_regs, lookD, look_put]; split <;> rfl

theorem last_complete (s : State) (h : Hdr) (u : UnitId) (st : Nat) : ∃ l e, e < 2 ^ 32 ∧ (complete s h u st).qm.cpls = l ++ [completionOf h u st e] := by
  obtain ⟨e, h1, h2⟩ := (ends_complete (s := s) (r := s) h u st rfl).issued
  exact ⟨_, e, h1, h2⟩

theorem bumpBy_frame (s : State) (d o n sel : Nat) : Same { regs := true, sounds := true, seqNo := true } s (bumpBy s d o n sel) := bumpBy_same (Same.refl _ s) rfl rfl rfl

/-! The directory (R206, R208, R214). -/

@[simp] theorem dirOf_setDir (s : State) (k t row : Nat) (e : DirEntry) : dirOf (setDir s k t row e) k t row = some e := by
  simp [dirOf, setDir]

theorem startPatch_dir (s : State) (k t row : Nat) : (startPatch s k t row).mu.dir = s.mu.dir := by
  unfold startPatch openReq
  split
  · rfl
  · extract_lets tries ok r
    split
    · rfl
    · split
      · rfl
      · rw [show ∀ (x : State) d o, (bump x d o).mu = x.mu from fun x d o => (bumpBy_frame x d o 1 0).mu rfl]; rfl

/-- Marking a row leaves its entry, or makes it POISONED. -/
theorem markPoisoned_look (s : State) (k t row da key : Nat) :
    look (markPoisoned s k t row da).mu.dir key = look s.mu.dir key ∨
    key = dirKey k t row ∧ look (markPoisoned s k t row da).mu.dir key = some { dirOrHome s k t row da with poisoned := true } := by
  unfold markPoisoned
  dsimp only
  split
  · exact .inl rfl
  · split
    · exact .inl rfl
    · rw [startPatch_dir]
      by_cases h : key = dirKey k t row
      · subst h; right; exact ⟨rfl, look_put_self ..⟩
      · left; exact look_put_ne _ _ _ _ h

/-- What waking a waiting patch does to one entry: nothing, or it makes the entry of a row that waited POISONED. -/
theorem wakePatch_look (s : State) (k t row : Nat) (hr : row < 2 ^ 31) :
    dirOf (wakePatch s k) k t row = dirOf s k t row ∨
    dirKey k t row ∈ s.mu.patchWait ∧ ∃ o da, shardPlace s t row = some (o, da) ∧
      dirOf (wakePatch s k) k t row = some { dirOrHome s k t row da with poisoned := true } := by
  unfold wakePatch
  split
  · next key hk =>
    have hm := List.mem_of_find?_eq_some hk
    have hq := List.find?_some hk
    simp only [beq_iff_eq] at hq
    dsimp only
    split
    · next o da hp =>
      split
      · left; unfold dirOf; rw [startPatch_dir]; rfl
      · generalize hX : State.onMu s _ = X
        have hd : X.mu.dir = s.mu.dir := by rw [← hX]; rfl
        rcases markPoisoned_look X k (key / 2 ^ 31 % 4096) (key % 2 ^ 31) da (dirKey k t row) with h | ⟨h1, h2⟩
        · left; unfold dirOf; rw [h, hd]
        · right
          simp only [dirKey, rowId] at h1
          have e1 : key / 2 ^ 31 % 4096 = t := by omega
          have e2 : key % 2 ^ 31 = row := by omega
          have e3 : dirKey k t row = key := by simp only [dirKey, rowId]; omega
          rw [e1, e2] at hp; simp only [e1, e2] at h2
          refine ⟨e3 ▸ hm, o, da, hp, ?_⟩
          unfold dirOf; rw [e1, e2, h2]; unfold dirOrHome dirOf; rw [hd]
    · exact .inl rfl
  · exact .inl rfl

/-- A directory entry stored: freed, or kept as given; a row that waited for a reserved entry is POISONED by it. -/
theorem storeDir_look (s : State) (k t row : Nat) (e : DirEntry) (w : rising none s.mu.dir = true) (hr : row < 2 ^ 31) :
    (dirOf (storeDir s k t row e) k t row = none ∨ ∃ x, dirOf (storeDir s k t row e) k t row = some x ∧
      (x = e ∨ x = { e with poisoned := true } ∨ e.st = .resident ∧ x = { dest := e.dest, ledgerDie := ledgerOf k e.dest, poisoned := true })) ∧
    (dirKey k t row ∉ s.mu.patchWait → dirOf (storeDir s k t row e) k t row = none ∨ dirOf (storeDir s k t row e) k t row = some e) := by
  unfold storeDir
  extract_lets home
  by_cases h : (e.st = .resident && e.dest = home && !(e.poisoned || e.pendingF || e.paged)) = true
  · rw [if_pos h]
    have hn : dirOf (delDir s k t row) k t row = none := look_del_self _ _ w
    rcases wakePatch_look (delDir s k t row) k t row hr with h1 | ⟨h1, o, da, h2, h3⟩
    · rw [h1, hn]; exact ⟨.inl rfl, fun _ => .inl rfl⟩
    · refine ⟨.inr ⟨_, h3, .inr (.inr ?_)⟩, fun hk => absurd h1 hk⟩
      replace h2 : shardPlace s t row = some (o, da) := h2
      have hh : home = da := by show (match shardPlace s t row with | some (_, da) => da | none => 0) = da; rw [h2]
      simp only [Bool.and_eq_true, decide_eq_true_eq] at h
      refine ⟨h.1.1, ?_⟩
      unfold dirOrHome; rw [hn, h.1.2, hh]; rfl
  · rw [if_neg h]
    have hn := dirOf_setDir s k t row e
    rcases wakePatch_look (setDir s k t row e) k t row hr with h1 | ⟨h1, o, da, h2, h3⟩
    · rw [h1, hn]; exact ⟨.inr ⟨_, rfl, .inl rfl⟩, fun _ => .inr rfl⟩
    · refine ⟨.inr ⟨_, h3, .inr (.inl ?_)⟩, fun hk => absurd h1 hk⟩
      unfold dirOrHome; rw [hn]; rfl

theorem setCore_at (s : State) (g : Nat) (f : Core → Core) : coreOf (setCore s g f) g = f (coreOf s g) := by
  unfold coreOf setCore; exact lookD_put_self ..

theorem setCore_ne (s : State) (g j : Nat) (f : Core → Core) (h : j ≠ g) : coreOf (setCore s g f) j = coreOf s j := by
  unfold coreOf setCore; exact lookD_put_ne _ _ _ _ _ h

/-! What storing an entry of the directory, and counting a sector, change of Muslin. -/

/-- Of Muslin, b differs from a in the directory, the patches and the rows that wait for one alone. -/
def DirOnly (a b : State) : Prop := b.mu = { a.mu with dir := b.mu.dir, patches := b.mu.patches, patchWait := b.mu.patchWait }

theorem DirOnly.refl (s : State) : DirOnly s s := rfl

theorem DirOnly.trans {a b c : State} (x : DirOnly a b) (y : DirOnly b c) : DirOnly a c := by
  unfold DirOnly at *; rw [y, x]

theorem DirOnly.of {a b : State} (h : b.mu = a.mu) : DirOnly a b := by unfold DirOnly; rw [h]

theorem DirOnly.ite {c : Prop} [Decidable c] {s a b : State} (h : DirOnly s a) (k : DirOnly s b) : DirOnly s (if c then a else b) := by
  split; exact h; exact k

theorem setDir_only (s : State) (k t row : Nat) (e : DirEntry) : DirOnly s (setDir s k t row e) := rfl

theorem startPatch_only (s : State) (k t row : Nat) : DirOnly s (startPatch s k t row) := by
  unfold startPatch openReq
  split
  · rfl
  · extract_lets tries ok r
    split
    · rfl
    · rename_i w _
      have hw : DirOnly s w := rfl
      clear_value w
      split
      · exact hw
      · exact hw.trans (DirOnly.of ((bumpBy_frame w (18 + k) 0x11070 1 0).mu rfl))

theorem markPoisoned_only (s : State) (k t row da : Nat) : DirOnly s (markPoisoned s k t row da) := by
  unfold markPoisoned
  extract_lets e
  refine DirOnly.ite rfl (DirOnly.ite rfl ?_)
  exact DirOnly.trans (b := setDir (State.onMu s _) _ _ _ _) (by exact rfl) (startPatch_only ..)

theorem wakePatch_only (s : State) (k : Nat) : DirOnly s (wakePatch s k) := by
  unfold wakePatch
  split
  · dsimp only
    split
    · exact DirOnly.ite (DirOnly.trans (b := State.onMu s _) (by exact rfl) (startPatch_only ..)) (DirOnly.trans (b := State.onMu s _) (by exact rfl) (markPoisoned_only ..))
    · rfl
  · rfl

/-- A directory entry stored changes the directory, and the patches that a freed entry lets start. -/
theorem storeDir_only (s : State) (k t row : Nat) (e : DirEntry) : DirOnly s (storeDir s k t row e) := by
  unfold storeDir
  extract_lets home
  exact DirOnly.trans (DirOnly.ite (by exact rfl) (by exact rfl)) (wakePatch_only ..)

/-- Sectors counted as read or written change the load and the activations alone. -/
theorem touch_mu (s : State) (a : Nat) : (touch s a).mu = { s.mu with load := (touch s a).mu.load, acts := (touch s a).mu.acts } := by
  unfold touch
  split
  · rfl
  · extract_lets x
    split
    · rfl
    · have h := (bumpBy_frame (setActs x (bankOf a) 0) (dieOfAddr a) (0x13040 + 8 * (a / stackSize % 2)) 1 0).mu rfl
      change (bump _ _ _).mu = _ at h
      rw [h]; rfl

theorem touchAll_mu (s : State) (l : List Nat) :
    (touchAll s l).mu = { s.mu with load := (touchAll s l).mu.load, acts := (touchAll s l).mu.acts } := by
  induction l generalizing s with
  | nil => rfl
  | cons a l ih =>
    have h := ih (touch s (64 * a))
    change (touchAll (touch s (64 * a)) l).mu = { s.mu with load := (touchAll (touch s (64 * a)) l).mu.load, acts := (touchAll (touch s (64 * a)) l).mu.acts }
    rw [h, touch_mu s (64 * a)]

/-- Bytes stored at their home change the load, the activations and an armed corruption of Muslin alone. -/
theorem storeMem_mu (s : State) (a : Nat) (bs : List Byte) : (storeMem s a bs).mu =
    { s.mu with load := (storeMem s a bs).mu.load, acts := (storeMem s a bs).mu.acts, corrupt := (storeMem s a bs).mu.corrupt } := by
  unfold storeMem
  extract_lets x hit
  have h : x.mu = { s.mu with load := x.mu.load, acts := x.mu.acts } := touchAll_mu ..
  clear_value x
  simp only [State.onMu, State.onMem]
  rw [h]

/-- A write of memory changes the load, the activations and an armed corruption of Muslin alone. -/
theorem writeMem_mu (s : State) (a : Nat) (bs : List Byte) : (writeMem s a bs).mu =
    { s.mu with load := (writeMem s a bs).mu.load, acts := (writeMem s a bs).mu.acts, corrupt := (writeMem s a bs).mu.corrupt } := by
  unfold writeMem
  split
  · rfl
  · split
    · rw [(postFar_same (g₀ := { mem := true, regs := true, sv := true, i3c := true, sounds := true, seqNo := true }) (Same.refl _ s) rfl rfl rfl rfl rfl rfl).mu rfl]
    · exact storeMem_mu ..

/-! A read that loses no data. -/

theorem readSector_clean {s c : State} {i : Nat} (h : readSector s i = (false, c)) :
    Same { regs := true, mu := true, sounds := true, seqNo := true } s c := by
  have T := touch_same (g₀ := { regs := true, mu := true, sounds := true, seqNo := true }) (a := 64 * i) (Same.refl _ s) rfl rfl rfl rfl
  revert h
  unfold readSector
  extract_lets a d hh z
  replace T : Same { regs := true, mu := true, sounds := true, seqNo := true } s z := T
  clear_value z
  split
  · intro h; cases h
  · split
    · split
      · intro h; cases h
      · split
        · intro h; cases h
        · intro h; rw [← show z = c from congrArg Prod.snd h]; exact T
    · split
      · intro h; cases h; exact T
      · intro h; cases h
        split
        · exact bump_same T rfl rfl rfl
        · exact bump_same T rfl rfl rfl
      · intro h; cases h

theorem readSectors_clean : ∀ (l : List Nat) {s c : State}, readSectors s l = (false, c) →
    Same { regs := true, mu := true, sounds := true, seqNo := true } s c
  | [], s, c, h => by cases h; exact Same.refl _ _
  | i :: r, s, c, h => by
    unfold readSectors at h
    cases hx : readSector s i with
    | mk b x =>
      cases hy : readSectors x r with
      | mk b2 y =>
        rw [hx] at h; dsimp only at h; rw [hy] at h; dsimp only at h
        have hb : (b || b2) = false := congrArg Prod.fst h
        have hc : y = c := congrArg Prod.snd h
        simp only [Bool.or_eq_false_iff] at hb
        obtain ⟨rfl, rfl⟩ := hb
        subst hc
        exact Same.trans (readSector_clean hx) (readSectors_clean r hy)

/-- A checked read of a range that loses no data changes its counters, and the load and activations of Home, alone. -/
theorem checkRead_clean {s c : State} {a n : Nat} (h : checkRead s a n = (false, c)) :
    Same { regs := true, mu := true, sounds := true, seqNo := true } s c := readSectors_clean _ h

/-- A checked read changes the load and the activations of Muslin alone. -/
theorem readSector_mu (s : State) (i : Nat) : (readSector s i).2.mu =
    { s.mu with load := (readSector s i).2.mu.load, acts := (readSector s i).2.mu.acts } := by
  have T := touch_mu s (64 * i)
  unfold readSector
  extract_lets a d hh z
  replace T : z.mu = { s.mu with load := z.mu.load, acts := z.mu.acts } := T
  clear_value z
  have key : ∀ t : State, t.mu = z.mu → t.mu = { s.mu with load := t.mu.load, acts := t.mu.acts } := by
    intro t e; rw [e]; exact T
  have kb : ∀ (t : State) d o, t.mu = z.mu → (bump t d o).mu = z.mu := fun t d o e => ((bumpBy_frame t d o 1 0).mu rfl).trans e
  have ks : ∀ (t : State) x, t.mu = z.mu → (setSticky t x).mu = z.mu := fun t x e =>
    ((setSticky_same (g₀ := { sv := true, i3c := true }) (Same.refl _ t) rfl rfl).mu rfl).trans e
  refine key _ ?_
  split
  · rfl
  · split
    · split
      · exact ks _ _ rfl
      · split <;> rfl
    · split
      · rfl
      · dsimp only; split
        · exact kb _ _ _ rfl
        · exact kb _ _ _ rfl
      · dsimp only; split
        · exact ks _ _ (kb _ _ _ rfl)
        · exact ks _ _ (kb _ _ _ rfl)

theorem readSectors_mu : ∀ (l : List Nat) (s : State), (readSectors s l).2.mu =
    { s.mu with load := (readSectors s l).2.mu.load, acts := (readSectors s l).2.mu.acts }
  | [], s => rfl
  | i :: r, s => by
    unfold readSectors
    have h1 := readSector_mu s i
    have h2 := readSectors_mu r (readSector s i).2
    dsimp only
    rw [h2, h1]

theorem checkRead_mu (s : State) (a n : Nat) : (checkRead s a n).2.mu =
    { s.mu with load := (checkRead s a n).2.mu.load, acts := (checkRead s a n).2.mu.acts } := readSectors_mu _ s

end Sys2Proof.Machine
end

