-- ==== Sys2Proof/Laws/SameRemoteOps.lean ====
section
/-!
SUPPORT. What the definitions of Machine/RemoteOps.lean may change (Laws/Same.lean).
-/

set_option linter.all false

namespace Sys2Proof.Machine

open Sys2Proof

theorem leaveGauze_same {r₀ : State} {g₀ : Groups} {s : State} {link : Nat} {peer : Nat × Nat} {f : Flit} (h1 : Same g₀ r₀ s)
    (m_free : g₀.free = true) (m_pkg : g₀.pkg = true) (m_regs : g₀.regs = true) (m_gz : g₀.gz = true) (m_qm : g₀.qm = true)
    (m_rings : g₀.rings = true) (m_sounds : g₀.sounds = true) (m_seqNo : g₀.seqNo = true)
    : Same g₀ r₀ (leaveGauze s link peer f) := by
  unfold leaveGauze
  repeat' first
    | with_reducible assumption | intro _ | with_reducible apply sendRemote_same | with_reducible apply ite_same
    | with_reducible apply foldl_same | (refine Same.ofSnd (by assumption) ?_) | dsimp only | split

theorem arriveAdd_same {r₀ : State} {g₀ : Groups} {s : State} {m : AddMsg} (h1 : Same g₀ r₀ s) (m_pkg : g₀.pkg = true)
    (m_regs : g₀.regs = true) (m_gz : g₀.gz = true) (m_sv : g₀.sv = true) (m_i3c : g₀.i3c = true) (m_sounds : g₀.sounds = true)
    (m_seqNo : g₀.seqNo = true) : Same g₀ r₀ (arriveAdd s m).2 := by
  unfold arriveAdd
  repeat' first
    | with_reducible assumption | intro _ | with_reducible apply sendAdd_same | with_reducible apply State.onGz_same
    | with_reducible apply ite_same | with_reducible apply ite_same_snd | with_reducible apply foldl_same
    | with_reducible apply foldl_same_snd | (with_reducible refine goes_same (by assumption) ?_ ?_ ?_ ?_ ?_ ?_ ?_ ?_)
    | (refine goes_same (x15 := (_, _)) (by assumption) ?_ ?_ ?_ ?_ ?_ ?_ ?_ ?_) | (refine Same.ofSnd (by assumption) ?_)
    | dsimp only | split

theorem requestRemote_same {r₀ : State} {g₀ : Groups} {s : State} {r : OutReq} {f : Flit} {rDie : Nat} (h1 : Same g₀ r₀ s)
    (m_free : g₀.free = true) (m_pkg : g₀.pkg = true) (m_regs : g₀.regs = true) (m_gz : g₀.gz = true) (m_qm : g₀.qm = true)
    (m_rings : g₀.rings = true) (m_sounds : g₀.sounds = true) (m_seqNo : g₀.seqNo = true)
    : Same g₀ r₀ (requestRemote s r f rDie) := by
  unfold requestRemote
  repeat' first
    | with_reducible assumption | intro _ | with_reducible apply leaveGauze_same | with_reducible apply sendOne_same
    | with_reducible apply openReq_same | with_reducible apply sendInside_same | with_reducible apply ite_same
    | with_reducible apply foldl_same | (refine Same.ofSnd (by assumption) ?_) | dsimp only | split

end Sys2Proof.Machine
end

