-- ==== Sys2Proof/Laws/SameStreamOps.lean ====
section
/-!
SUPPORT. What the definitions of Machine/StreamOps.lean may change (Laws/Same.lean).
-/

set_option linter.all false

namespace Sys2Proof.Machine

open Sys2Proof

theorem takeRestart_same {r₀ : State} {g₀ : Groups} {s : State} {n : Nat} {r : Rec} (h1 : Same g₀ r₀ s) (m_free : g₀.free = true)
    (m_streams : g₀.streams = true) (m_qm : g₀.qm = true) : Same g₀ r₀ (takeRestart s n r) := by
  unfold takeRestart
  repeat' first
    | with_reducible assumption | intro _ | with_reducible apply setStrm_same | with_reducible apply complete_same
    | with_reducible apply ite_same | with_reducible apply foldl_same | (refine Same.ofSnd (by assumption) ?_) | dsimp only
    | split

theorem checkReads_same {r₀ : State} {g₀ : Groups} {s : State} {rs : List Range} (h1 : Same g₀ r₀ s) (m_mem : g₀.mem = true)
    (m_regs : g₀.regs = true) (m_mu : g₀.mu = true) (m_sv : g₀.sv = true) (m_i3c : g₀.i3c = true) (m_sounds : g₀.sounds = true)
    (m_seqNo : g₀.seqNo = true) : Same g₀ r₀ (checkReads s rs).2 := by
  unfold checkReads
  repeat' first
    | with_reducible assumption | intro _ | with_reducible apply checkRead_same | with_reducible apply ite_same
    | with_reducible apply ite_same_snd | with_reducible apply foldl_same | with_reducible apply foldl_same_snd
    | (refine Same.ofSnd (by assumption) ?_) | dsimp only | split

theorem nextSeg_same {r₀ : State} {g₀ : Groups} {s : State} {n : Nat} {r : Rec} (h1 : Same g₀ r₀ s) (m_free : g₀.free = true)
    (m_streams : g₀.streams = true) (m_qm : g₀.qm = true) : Same g₀ r₀ (nextSeg s n r) := by
  unfold nextSeg
  repeat' first
    | with_reducible assumption | intro _ | with_reducible apply takeRestart_same | with_reducible apply setStrm_same
    | with_reducible apply ite_same | with_reducible apply foldl_same | (refine Same.ofSnd (by assumption) ?_) | dsimp only
    | split

theorem readUpTo_same {r₀ : State} {g₀ : Groups} {s : State} {a1 : List Range} (h1 : Same g₀ r₀ s) (m_mem : g₀.mem = true)
    (m_regs : g₀.regs = true) (m_mu : g₀.mu = true) (m_sv : g₀.sv = true) (m_i3c : g₀.i3c = true) (m_sounds : g₀.sounds = true)
    (m_seqNo : g₀.seqNo = true) : Same g₀ r₀ (readUpTo s a1).2.2 := by
  induction a1 generalizing s with
  | nil =>
    unfold readUpTo
    repeat' first
      | with_reducible assumption | intro _ | with_reducible apply readSector_same | with_reducible apply ite_same
      | with_reducible apply ite_same_snd | with_reducible apply foldl_same | with_reducible apply foldl_same_snd
      | (refine Same.ofSnd (by assumption) ?_) | dsimp only | split
  | cons _ _ ih =>
    unfold readUpTo
    repeat' first
      | with_reducible assumption | intro _ | with_reducible apply ih | with_reducible apply readSector_same
      | with_reducible apply ite_same | with_reducible apply ite_same_snd | with_reducible apply foldl_same
      | with_reducible apply foldl_same_snd | (refine Same.ofSnd (by assumption) ?_) | dsimp only | split

theorem winPut_same {r₀ : State} {g₀ : Groups} {s : State} {r : Rec} {off : Nat} {bs : List Byte} (h1 : Same g₀ r₀ s)
    (m_mem : g₀.mem = true) (m_regs : g₀.regs = true) (m_tw : g₀.tw = true) (m_mu : g₀.mu = true) (m_sv : g₀.sv = true)
    (m_i3c : g₀.i3c = true) (m_sounds : g₀.sounds = true) (m_seqNo : g₀.seqNo = true) : Same g₀ r₀ (winPut s r off bs) := by
  unfold winPut
  repeat' first
    | with_reducible assumption | intro _ | with_reducible apply writeMem_same | with_reducible apply cbWrite_same
    | with_reducible apply bumpCore_same | with_reducible apply ite_same | with_reducible apply foldl_same
    | (refine Same.ofSnd (by assumption) ?_) | dsimp only | split

theorem winWrite_same {r₀ : State} {g₀ : Groups} {s : State} {r : Rec} {p : Nat} {bs : List Byte} (h1 : Same g₀ r₀ s)
    (m_mem : g₀.mem = true) (m_regs : g₀.regs = true) (m_tw : g₀.tw = true) (m_mu : g₀.mu = true) (m_sv : g₀.sv = true)
    (m_i3c : g₀.i3c = true) (m_sounds : g₀.sounds = true) (m_seqNo : g₀.seqNo = true) : Same g₀ r₀ (winWrite s r p bs) := by
  unfold winWrite
  repeat' first
    | with_reducible assumption | intro _ | with_reducible apply winPut_same | with_reducible apply ite_same
    | with_reducible apply foldl_same | (refine Same.ofSnd (by assumption) ?_) | dsimp only | split

theorem windowFault_same {r₀ : State} {g₀ : Groups} {bad : Bool} {r : Rec} {s : State} (h3 : Same g₀ r₀ s)
    (m_free : g₀.free = true) (m_pkg : g₀.pkg = true) (m_regs : g₀.regs = true) (m_gz : g₀.gz = true) (m_tw : g₀.tw = true)
    (m_mu : g₀.mu = true) (m_streams : g₀.streams = true) (m_qm : g₀.qm = true) (m_seq : g₀.seq = true) (m_img : g₀.img = true)
    (m_rings : g₀.rings = true) (m_snap : g₀.snap = true) (m_sv : g₀.sv = true) (m_sec : g₀.sec = true) (m_i3c : g₀.i3c = true)
    (m_sounds : g₀.sounds = true) (m_seqNo : g₀.seqNo = true) : Same g₀ r₀ (windowFault bad r s) := by
  unfold windowFault
  repeat' first
    | with_reducible assumption | intro _ | with_reducible apply panelFaultAt_same | with_reducible apply ite_same
    | with_reducible apply foldl_same | (refine Same.ofSnd (by assumption) ?_) | dsimp only | split

theorem produceBytes_same {r₀ : State} {g₀ : Groups} {s : State} {n : Nat} {r : Rec} {e : Bool × List Range} {m : Nat}
    (h1 : Same g₀ r₀ s) (m_free : g₀.free = true) (m_pkg : g₀.pkg = true) (m_mem : g₀.mem = true) (m_regs : g₀.regs = true)
    (m_gz : g₀.gz = true) (m_tw : g₀.tw = true) (m_mu : g₀.mu = true) (m_streams : g₀.streams = true) (m_qm : g₀.qm = true)
    (m_seq : g₀.seq = true) (m_img : g₀.img = true) (m_rings : g₀.rings = true) (m_snap : g₀.snap = true) (m_sv : g₀.sv = true)
    (m_sec : g₀.sec = true) (m_i3c : g₀.i3c = true) (m_sounds : g₀.sounds = true) (m_seqNo : g₀.seqNo = true)
    : Same g₀ r₀ (produceBytes s n r e m) := by
  unfold produceBytes
  repeat' first
    | with_reducible assumption | intro _ | with_reducible apply abortStream_same | with_reducible apply readUpTo_same
    | with_reducible apply winWrite_same | with_reducible apply setStrm_same | with_reducible apply windowFault_same
    | with_reducible apply ite_same | with_reducible apply ite_same_snd | with_reducible apply foldl_same
    | with_reducible apply foldl_same_snd | (refine Same.ofSnd (by assumption) ?_) | dsimp only | split

theorem produce_same {r₀ : State} {g₀ : Groups} {s : State} {n : Nat} {r : Rec} {x15} (e₀ : produce s n r = some x15)
    (h1 : Same g₀ r₀ s) (m_free : g₀.free = true) (m_pkg : g₀.pkg = true) (m_mem : g₀.mem = true) (m_regs : g₀.regs = true)
    (m_gz : g₀.gz = true) (m_tw : g₀.tw = true) (m_mu : g₀.mu = true) (m_streams : g₀.streams = true) (m_qm : g₀.qm = true)
    (m_seq : g₀.seq = true) (m_img : g₀.img = true) (m_rings : g₀.rings = true) (m_snap : g₀.snap = true) (m_sv : g₀.sv = true)
    (m_sec : g₀.sec = true) (m_i3c : g₀.i3c = true) (m_sounds : g₀.sounds = true) (m_seqNo : g₀.seqNo = true)
    : Same g₀ r₀ x15 := by
  unfold produce at e₀
  repeat' first | contradiction | (injection e₀ with e₀; subst e₀) | dsimp only at e₀ | (split at e₀)
  repeat' first
    | with_reducible assumption | intro _ | with_reducible apply takeRestart_same | with_reducible apply setStrm_same
    | with_reducible apply nextSeg_same | with_reducible apply produceBytes_same | with_reducible apply ite_same
    | with_reducible apply foldl_same | (refine Same.ofSnd (by assumption) ?_) | dsimp only | split

theorem sendStrmReg_same {r₀ : State} {g₀ : Groups} {s : State} {dev die stream : Nat} {payload : List Byte} (h1 : Same g₀ r₀ s)
    (m_free : g₀.free = true) (m_pkg : g₀.pkg = true) (m_regs : g₀.regs = true) (m_gz : g₀.gz = true) (m_qm : g₀.qm = true)
    (m_rings : g₀.rings = true) (m_sounds : g₀.sounds = true) (m_seqNo : g₀.seqNo = true)
    : Same g₀ r₀ (sendStrmReg s dev die stream payload) := by
  unfold sendStrmReg
  repeat' first
    | with_reducible assumption | intro _ | with_reducible apply sendRemote_same | with_reducible apply ite_same
    | with_reducible apply foldl_same | (refine Same.ofSnd (by assumption) ?_) | dsimp only | split

theorem sendAcked_same {r₀ : State} {g₀ : Groups} {s : State} {m : Rec} {acked : Nat} {resume : Bool} (h1 : Same g₀ r₀ s)
    (m_gz : g₀.gz = true) : Same g₀ r₀ (sendAcked s m acked resume) := by
  unfold sendAcked
  repeat' first
    | with_reducible assumption | intro _ | with_reducible apply sendFlit_same | with_reducible apply ite_same
    | with_reducible apply foldl_same | (refine Same.ofSnd (by assumption) ?_) | dsimp only | split

theorem mcHold_same {r₀ : State} {g₀ : Groups} {s : State} {m : Rec} {lo hi : Nat} (h1 : Same g₀ r₀ s) (m_gz : g₀.gz = true)
    (m_streams : g₀.streams = true) : Same g₀ r₀ (mcHold s m lo hi) := by
  unfold mcHold
  repeat' first
    | with_reducible assumption | intro _ | with_reducible apply setStrm_same | with_reducible apply setRecv_same
    | with_reducible apply sendAcked_same | with_reducible apply ite_same | with_reducible apply foldl_same
    | (refine Same.ofSnd (by assumption) ?_) | dsimp only | split

theorem catchUp_same {r₀ : State} {g₀ : Groups} {s : State} {n : Nat} (h1 : Same g₀ r₀ s) (m_gz : g₀.gz = true)
    (m_streams : g₀.streams = true) : Same g₀ r₀ (catchUp s n) := by
  unfold catchUp
  repeat' first
    | with_reducible assumption | intro _ | with_reducible apply mcHold_same | with_reducible apply ite_same
    | with_reducible apply foldl_same | (refine Same.ofSnd (by assumption) ?_) | dsimp only | split

theorem sendCredits_same {r₀ : State} {g₀ : Groups} {s : State} {n k : Nat} {r : Rec} (h1 : Same g₀ r₀ s)
    (m_free : g₀.free = true) (m_pkg : g₀.pkg = true) (m_regs : g₀.regs = true) (m_gz : g₀.gz = true) (m_qm : g₀.qm = true)
    (m_rings : g₀.rings = true) (m_sounds : g₀.sounds = true) (m_seqNo : g₀.seqNo = true) : Same g₀ r₀ (sendCredits s n k r) := by
  unfold sendCredits
  repeat' first
    | with_reducible assumption | intro _ | with_reducible apply sendStrmReg_same | with_reducible apply ite_same
    | with_reducible apply foldl_same | (refine Same.ofSnd (by assumption) ?_) | dsimp only | split

theorem settleStrm_same {r₀ : State} {g₀ : Groups} {s : State} {n : Nat} {r : Rec} (h1 : Same g₀ r₀ s) (m_free : g₀.free = true)
    (m_regs : g₀.regs = true) (m_streams : g₀.streams = true) (m_sounds : g₀.sounds = true) (m_seqNo : g₀.seqNo = true)
    : Same g₀ r₀ (settleStrm s n r) := by
  unfold settleStrm
  repeat' first
    | with_reducible assumption | intro _ | with_reducible apply setStrm_same | with_reducible apply showFull_same
    | with_reducible apply ite_same | with_reducible apply foldl_same | (refine Same.ofSnd (by assumption) ?_) | dsimp only
    | split

theorem produceAll_same {r₀ : State} {g₀ : Groups} {n : Nat} {r : Rec} {a2 : Nat} {a3 : State} (h4 : Same g₀ r₀ a3)
    (m_free : g₀.free = true) (m_pkg : g₀.pkg = true) (m_mem : g₀.mem = true) (m_regs : g₀.regs = true) (m_gz : g₀.gz = true)
    (m_tw : g₀.tw = true) (m_mu : g₀.mu = true) (m_streams : g₀.streams = true) (m_qm : g₀.qm = true) (m_seq : g₀.seq = true)
    (m_img : g₀.img = true) (m_rings : g₀.rings = true) (m_snap : g₀.snap = true) (m_sv : g₀.sv = true) (m_sec : g₀.sec = true)
    (m_i3c : g₀.i3c = true) (m_sounds : g₀.sounds = true) (m_seqNo : g₀.seqNo = true) : Same g₀ r₀ (produceAll n r a2 a3) := by
  induction a2 generalizing a3 with
  | zero =>
    unfold produceAll
    repeat' first
      | with_reducible assumption | intro _ | with_reducible apply ite_same | with_reducible apply foldl_same
      | (with_reducible refine produce_same (by assumption) ?_ ?_ ?_ ?_ ?_ ?_ ?_ ?_ ?_ ?_ ?_ ?_ ?_ ?_ ?_ ?_ ?_ ?_ ?_)
      | (refine Same.ofSnd (by assumption) ?_) | dsimp only | split
  | succ _ ih =>
    unfold produceAll
    repeat' first
      | with_reducible assumption | intro _ | with_reducible apply ih | with_reducible apply ite_same
      | with_reducible apply foldl_same
      | (with_reducible refine produce_same (by assumption) ?_ ?_ ?_ ?_ ?_ ?_ ?_ ?_ ?_ ?_ ?_ ?_ ?_ ?_ ?_ ?_ ?_ ?_ ?_)
      | (refine Same.ofSnd (by assumption) ?_) | dsimp only | split

theorem askReplay_same {r₀ : State} {g₀ : Groups} {s : State} {n : Nat} {r : Rec} (h1 : Same g₀ r₀ s) (m_gz : g₀.gz = true)
    : Same g₀ r₀ (askReplay s n r) := by
  unfold askReplay
  repeat' first
    | with_reducible assumption | intro _ | with_reducible apply setRecv_same | with_reducible apply sendAcked_same
    | with_reducible apply ite_same | with_reducible apply foldl_same | (refine Same.ofSnd (by assumption) ?_) | dsimp only
    | split

theorem pump_same {r₀ : State} {g₀ : Groups} {s : State} {n : Nat} (h1 : Same g₀ r₀ s) (m_free : g₀.free = true)
    (m_pkg : g₀.pkg = true) (m_mem : g₀.mem = true) (m_regs : g₀.regs = true) (m_gz : g₀.gz = true) (m_tw : g₀.tw = true)
    (m_mu : g₀.mu = true) (m_streams : g₀.streams = true) (m_qm : g₀.qm = true) (m_seq : g₀.seq = true) (m_img : g₀.img = true)
    (m_rings : g₀.rings = true) (m_snap : g₀.snap = true) (m_sv : g₀.sv = true) (m_sec : g₀.sec = true) (m_i3c : g₀.i3c = true)
    (m_sounds : g₀.sounds = true) (m_seqNo : g₀.seqNo = true) : Same g₀ r₀ (pump s n) := by
  unfold pump
  repeat' first
    | with_reducible assumption | intro _ | with_reducible apply produceAll_same | with_reducible apply settleStrm_same
    | with_reducible apply catchUp_same | with_reducible apply ite_same | with_reducible apply foldl_same
    | (refine Same.ofSnd (by assumption) ?_) | dsimp only | split

theorem releaseBytes_same {r₀ : State} {g₀ : Groups} {s : State} {n bytes : Nat} {r : Rec} (h1 : Same g₀ r₀ s)
    (m_free : g₀.free = true) (m_pkg : g₀.pkg = true) (m_mem : g₀.mem = true) (m_regs : g₀.regs = true) (m_gz : g₀.gz = true)
    (m_tw : g₀.tw = true) (m_mu : g₀.mu = true) (m_streams : g₀.streams = true) (m_qm : g₀.qm = true) (m_seq : g₀.seq = true)
    (m_img : g₀.img = true) (m_rings : g₀.rings = true) (m_snap : g₀.snap = true) (m_sv : g₀.sv = true) (m_sec : g₀.sec = true)
    (m_i3c : g₀.i3c = true) (m_sounds : g₀.sounds = true) (m_seqNo : g₀.seqNo = true)
    : Same g₀ r₀ (releaseBytes s n bytes r) := by
  unfold releaseBytes
  repeat' first
    | with_reducible assumption | intro _ | with_reducible apply setStrm_same | with_reducible apply pump_same
    | with_reducible apply askReplay_same | with_reducible apply sendCredits_same | with_reducible apply ite_same
    | with_reducible apply foldl_same | (refine Same.ofSnd (by assumption) ?_) | dsimp only | split

end Sys2Proof.Machine
end

