-- ==== Sys2Proof/Laws/SameStreams.lean ====
section
/-!
SUPPORT. What the definitions of Machine/Streams.lean may change (Laws/Same.lean).
-/

set_option linter.all false

namespace Sys2Proof.Machine

open Sys2Proof

theorem restartStrm_same {r₀ : State} {g₀ : Groups} {s : State} {n seg : Nat} (h1 : Same g₀ r₀ s) (m_free : g₀.free = true)
    (m_pkg : g₀.pkg = true) (m_mem : g₀.mem = true) (m_regs : g₀.regs = true) (m_gz : g₀.gz = true) (m_tw : g₀.tw = true)
    (m_mu : g₀.mu = true) (m_streams : g₀.streams = true) (m_qm : g₀.qm = true) (m_seq : g₀.seq = true) (m_img : g₀.img = true)
    (m_rings : g₀.rings = true) (m_snap : g₀.snap = true) (m_sv : g₀.sv = true) (m_sec : g₀.sec = true) (m_i3c : g₀.i3c = true)
    (m_sounds : g₀.sounds = true) (m_seqNo : g₀.seqNo = true) : Same g₀ r₀ (restartStrm s n seg) := by
  unfold restartStrm
  repeat' first
    | with_reducible assumption | intro _ | with_reducible apply setStrm_same | with_reducible apply pump_same
    | with_reducible apply ite_same | with_reducible apply foldl_same | (refine Same.ofSnd (by assumption) ?_) | dsimp only
    | split

theorem rearm_same {r₀ : State} {g₀ : Groups} {s : State} {h : Hdr} {o : RearmOp} (h1 : Same g₀ r₀ s) (m_free : g₀.free = true)
    (m_pkg : g₀.pkg = true) (m_mem : g₀.mem = true) (m_regs : g₀.regs = true) (m_gz : g₀.gz = true) (m_tw : g₀.tw = true)
    (m_mu : g₀.mu = true) (m_streams : g₀.streams = true) (m_qm : g₀.qm = true) (m_seq : g₀.seq = true) (m_img : g₀.img = true)
    (m_rings : g₀.rings = true) (m_snap : g₀.snap = true) (m_sv : g₀.sv = true) (m_sec : g₀.sec = true) (m_i3c : g₀.i3c = true)
    (m_sounds : g₀.sounds = true) (m_seqNo : g₀.seqNo = true) : Same g₀ r₀ (rearm s h o) := by
  unfold rearm
  repeat' first
    | with_reducible assumption | intro _ | with_reducible apply markStarted_same | with_reducible apply setStrm_same
    | with_reducible apply complete_same | with_reducible apply restartStrm_same | with_reducible apply ite_same
    | with_reducible apply foldl_same | (refine Same.ofSnd (by assumption) ?_) | dsimp only | split

theorem execStRearm_same {r₀ : State} {g₀ : Groups} {h : Hdr} {op : RearmOp} {s : State} {t₀} (e₀ : execStRearm h op s = .next t₀)
    (h3 : Same g₀ r₀ s) (m_free : g₀.free = true) (m_pkg : g₀.pkg = true) (m_mem : g₀.mem = true) (m_regs : g₀.regs = true)
    (m_gz : g₀.gz = true) (m_tw : g₀.tw = true) (m_mu : g₀.mu = true) (m_streams : g₀.streams = true) (m_qm : g₀.qm = true)
    (m_seq : g₀.seq = true) (m_img : g₀.img = true) (m_rings : g₀.rings = true) (m_snap : g₀.snap = true) (m_sv : g₀.sv = true)
    (m_sec : g₀.sec = true) (m_i3c : g₀.i3c = true) (m_sounds : g₀.sounds = true) (m_seqNo : g₀.seqNo = true)
    : Same g₀ r₀ t₀ := by
  unfold execStRearm at e₀
  repeat' first | contradiction | (injection e₀ with e₀; subst e₀) | dsimp only at e₀ | (split at e₀)
  repeat' first
    | with_reducible assumption | intro _ | with_reducible apply complete_same | with_reducible apply rearm_same
    | with_reducible apply runDesc_same | with_reducible apply ite_same | with_reducible apply foldl_same
    | (refine Same.ofSnd (by assumption) ?_) | dsimp only | split

theorem sendMcRemote_same {r₀ : State} {g₀ : Groups} {s : State} {m : Rec} {x18} (e₀ : sendMcRemote s m = some x18)
    (h1 : Same g₀ r₀ s) (m_free : g₀.free = true) (m_pkg : g₀.pkg = true) (m_regs : g₀.regs = true) (m_gz : g₀.gz = true)
    (m_qm : g₀.qm = true) (m_rings : g₀.rings = true) (m_sounds : g₀.sounds = true) (m_seqNo : g₀.seqNo = true)
    : Same g₀ r₀ x18 := by
  unfold sendMcRemote at e₀
  repeat' first | contradiction | (injection e₀ with e₀; subst e₀) | dsimp only at e₀ | (split at e₀)
  repeat' first
    | with_reducible assumption | intro _ | with_reducible apply State.onRings_same | with_reducible apply State.took_same
    | with_reducible apply openReq_same | with_reducible apply sendRemote_same | with_reducible apply ite_same
    | with_reducible apply foldl_same | (refine Same.ofSnd (by assumption) ?_) | dsimp only | split

theorem execStRelease_same {r₀ : State} {g₀ : Groups} {h : Hdr} {stream core bytes : Nat} {s : State} {t₀}
    (e₀ : execStRelease h stream core bytes s = .next t₀) (h5 : Same g₀ r₀ s) (m_free : g₀.free = true) (m_pkg : g₀.pkg = true)
    (m_mem : g₀.mem = true) (m_regs : g₀.regs = true) (m_gz : g₀.gz = true) (m_tw : g₀.tw = true) (m_mu : g₀.mu = true)
    (m_streams : g₀.streams = true) (m_qm : g₀.qm = true) (m_seq : g₀.seq = true) (m_img : g₀.img = true)
    (m_rings : g₀.rings = true) (m_snap : g₀.snap = true) (m_sv : g₀.sv = true) (m_sec : g₀.sec = true) (m_i3c : g₀.i3c = true)
    (m_sounds : g₀.sounds = true) (m_seqNo : g₀.seqNo = true) : Same g₀ r₀ t₀ := by
  unfold execStRelease at e₀
  repeat' first | contradiction | (injection e₀ with e₀; subst e₀) | dsimp only at e₀ | (split at e₀)
  repeat' first
    | with_reducible assumption | intro _ | with_reducible apply releaseBytes_same | with_reducible apply complete_same
    | with_reducible apply runDesc_same | with_reducible apply ite_same | with_reducible apply foldl_same
    | (refine Same.ofSnd (by assumption) ?_) | dsimp only | split

theorem takeMcast_same {r₀ : State} {g₀ : Groups} {s : State} {f : Flit} {m r : Rec} (h1 : Same g₀ r₀ s) (m_free : g₀.free = true)
    (m_pkg : g₀.pkg = true) (m_mem : g₀.mem = true) (m_regs : g₀.regs = true) (m_gz : g₀.gz = true) (m_tw : g₀.tw = true)
    (m_mu : g₀.mu = true) (m_streams : g₀.streams = true) (m_qm : g₀.qm = true) (m_seq : g₀.seq = true) (m_img : g₀.img = true)
    (m_rings : g₀.rings = true) (m_snap : g₀.snap = true) (m_sv : g₀.sv = true) (m_sec : g₀.sec = true) (m_i3c : g₀.i3c = true)
    (m_sounds : g₀.sounds = true) (m_seqNo : g₀.seqNo = true) : Same g₀ r₀ (takeMcast s f m r) := by
  unfold takeMcast
  repeat' first
    | with_reducible assumption | intro _ | with_reducible apply bumpBy_same | with_reducible apply winWrite_same
    | with_reducible apply setRecv_same | with_reducible apply windowFault_same | with_reducible apply mcHold_same
    | with_reducible apply ite_same | with_reducible apply foldl_same | (refine Same.ofSnd (by assumption) ?_) | dsimp only
    | split

theorem recvMcast_same {r₀ : State} {g₀ : Groups} {s : State} {f : Flit} (h1 : Same g₀ r₀ s) (m_free : g₀.free = true)
    (m_pkg : g₀.pkg = true) (m_mem : g₀.mem = true) (m_regs : g₀.regs = true) (m_gz : g₀.gz = true) (m_tw : g₀.tw = true)
    (m_mu : g₀.mu = true) (m_streams : g₀.streams = true) (m_qm : g₀.qm = true) (m_seq : g₀.seq = true) (m_img : g₀.img = true)
    (m_rings : g₀.rings = true) (m_snap : g₀.snap = true) (m_sv : g₀.sv = true) (m_sec : g₀.sec = true) (m_i3c : g₀.i3c = true)
    (m_sounds : g₀.sounds = true) (m_seqNo : g₀.seqNo = true) : Same g₀ r₀ (recvMcast s f) := by
  unfold recvMcast
  repeat' first
    | with_reducible assumption | intro _ | with_reducible apply takeMcast_same | with_reducible apply bumpCore_same
    | with_reducible apply ite_same | with_reducible apply foldl_same | (refine Same.ofSnd (by assumption) ?_) | dsimp only
    | split

theorem landMcast_same {r₀ : State} {g₀ : Groups} {s : State} {f : Flit} (h1 : Same g₀ r₀ s) (m_free : g₀.free = true)
    (m_pkg : g₀.pkg = true) (m_mem : g₀.mem = true) (m_regs : g₀.regs = true) (m_gz : g₀.gz = true) (m_tw : g₀.tw = true)
    (m_mu : g₀.mu = true) (m_streams : g₀.streams = true) (m_qm : g₀.qm = true) (m_seq : g₀.seq = true) (m_img : g₀.img = true)
    (m_rings : g₀.rings = true) (m_snap : g₀.snap = true) (m_sv : g₀.sv = true) (m_sec : g₀.sec = true) (m_i3c : g₀.i3c = true)
    (m_sounds : g₀.sounds = true) (m_seqNo : g₀.seqNo = true) : Same g₀ r₀ (landMcast s f) := by
  unfold landMcast
  repeat' first
    | with_reducible assumption | intro _ | with_reducible apply recvMcast_same | with_reducible apply arriveAll_same
    | with_reducible apply ite_same | with_reducible apply ite_same_snd | with_reducible apply foldl_same
    | with_reducible apply foldl_same_snd | (refine Same.ofSnd (by assumption) ?_) | dsimp only | split

theorem sendMcAll_same {r₀ : State} {g₀ : Groups} {m : Rec} {a1 : Nat} {a2 : State} (h3 : Same g₀ r₀ a2) (m_free : g₀.free = true)
    (m_pkg : g₀.pkg = true) (m_regs : g₀.regs = true) (m_gz : g₀.gz = true) (m_qm : g₀.qm = true) (m_rings : g₀.rings = true)
    (m_sounds : g₀.sounds = true) (m_seqNo : g₀.seqNo = true) : Same g₀ r₀ (sendMcAll m a1 a2) := by
  induction a1 generalizing a2 with
  | zero =>
    unfold sendMcAll
    repeat' first
      | with_reducible assumption | intro _ | with_reducible apply ite_same | with_reducible apply foldl_same
      | (with_reducible refine sendMcRemote_same (by assumption) ?_ ?_ ?_ ?_ ?_ ?_ ?_ ?_ ?_)
      | (refine Same.ofSnd (by assumption) ?_) | dsimp only | split
  | succ _ ih =>
    unfold sendMcAll
    repeat' first
      | with_reducible assumption | intro _ | with_reducible apply ih | with_reducible apply ite_same
      | with_reducible apply foldl_same | (with_reducible refine sendMcRemote_same (by assumption) ?_ ?_ ?_ ?_ ?_ ?_ ?_ ?_ ?_)
      | (refine Same.ofSnd (by assumption) ?_) | dsimp only | split

theorem sendRemotes_same {r₀ : State} {g₀ : Groups} {s : State} (h1 : Same g₀ r₀ s) (m_free : g₀.free = true)
    (m_pkg : g₀.pkg = true) (m_regs : g₀.regs = true) (m_gz : g₀.gz = true) (m_qm : g₀.qm = true) (m_rings : g₀.rings = true)
    (m_sounds : g₀.sounds = true) (m_seqNo : g₀.seqNo = true) : Same g₀ r₀ (sendRemotes s) := by
  unfold sendRemotes
  repeat' first
    | with_reducible assumption | intro _ | with_reducible apply sendMcAll_same | with_reducible apply ite_same
    | with_reducible apply foldl_same | (refine Same.ofSnd (by assumption) ?_) | dsimp only | split

theorem sendMcast_same {r₀ : State} {g₀ : Groups} {s : State} {f : Flit} {x15} (e₀ : sendMcast s f = some x15) (h1 : Same g₀ r₀ s)
    (m_free : g₀.free = true) (m_pkg : g₀.pkg = true) (m_regs : g₀.regs = true) (m_gz : g₀.gz = true) (m_qm : g₀.qm = true)
    (m_rings : g₀.rings = true) (m_sounds : g₀.sounds = true) (m_seqNo : g₀.seqNo = true) : Same g₀ r₀ x15 := by
  unfold sendMcast at e₀
  repeat' first | contradiction | (injection e₀ with e₀; subst e₀) | dsimp only at e₀ | (split at e₀)
  repeat' first
    | with_reducible assumption | intro _ | with_reducible apply State.onGz_same | with_reducible apply sendRemotes_same
    | with_reducible apply ite_same | with_reducible apply foldl_same | (refine Same.ofSnd (by assumption) ?_) | dsimp only
    | split

theorem execMcastData_same {r₀ : State} {g₀ : Groups} {f : Flit} {s : State} {t₀} (e₀ : execMcastData f s = .next t₀)
    (h2 : Same g₀ r₀ s) (m_free : g₀.free = true) (m_pkg : g₀.pkg = true) (m_mem : g₀.mem = true) (m_regs : g₀.regs = true)
    (m_gz : g₀.gz = true) (m_tw : g₀.tw = true) (m_mu : g₀.mu = true) (m_streams : g₀.streams = true) (m_qm : g₀.qm = true)
    (m_seq : g₀.seq = true) (m_img : g₀.img = true) (m_rings : g₀.rings = true) (m_snap : g₀.snap = true) (m_sv : g₀.sv = true)
    (m_sec : g₀.sec = true) (m_i3c : g₀.i3c = true) (m_sounds : g₀.sounds = true) (m_seqNo : g₀.seqNo = true)
    : Same g₀ r₀ t₀ := by
  unfold execMcastData at e₀
  repeat' first | contradiction | (injection e₀ with e₀; subst e₀) | dsimp only at e₀ | (split at e₀)
  repeat' first
    | with_reducible assumption | intro _ | with_reducible apply landMcast_same | with_reducible apply ite_same
    | with_reducible apply foldl_same | (with_reducible refine sendMcast_same (by assumption) ?_ ?_ ?_ ?_ ?_ ?_ ?_ ?_ ?_)
    | (refine Same.ofSnd (by assumption) ?_) | dsimp only | split

theorem execStallArbiterDecision_same {r₀ : State} {g₀ : Groups} {s : State} {t₀} (e₀ : execStallArbiterDecision s = .next t₀)
    (h1 : Same g₀ r₀ s) (m_free : g₀.free = true) (m_pkg : g₀.pkg = true) (m_mem : g₀.mem = true) (m_regs : g₀.regs = true)
    (m_gz : g₀.gz = true) (m_tw : g₀.tw = true) (m_mu : g₀.mu = true) (m_streams : g₀.streams = true) (m_qm : g₀.qm = true)
    (m_seq : g₀.seq = true) (m_img : g₀.img = true) (m_rings : g₀.rings = true) (m_snap : g₀.snap = true) (m_sv : g₀.sv = true)
    (m_sec : g₀.sec = true) (m_i3c : g₀.i3c = true) (m_sounds : g₀.sounds = true) (m_seqNo : g₀.seqNo = true)
    : Same g₀ r₀ t₀ := by
  unfold execStallArbiterDecision at e₀
  repeat' first | contradiction | (injection e₀ with e₀; subst e₀) | dsimp only at e₀ | (split at e₀)
  repeat' first
    | with_reducible assumption | intro _ | with_reducible apply abortStream_same | with_reducible apply bump_same
    | with_reducible apply setStrm_same | with_reducible apply pump_same | with_reducible apply State.onStreams_same
    | with_reducible apply ite_same | with_reducible apply foldl_same | (refine Same.ofSnd (by assumption) ?_) | dsimp only
    | split

theorem execMcDetach_same {r₀ : State} {g₀ : Groups} {group : Nat} {s : State} {t₀} (e₀ : execMcDetach group s = .next t₀)
    (h2 : Same g₀ r₀ s) (m_free : g₀.free = true) (m_mem : g₀.mem = true) (m_regs : g₀.regs = true) (m_gz : g₀.gz = true)
    (m_mu : g₀.mu = true) (m_streams : g₀.streams = true) (m_qm : g₀.qm = true) (m_sv : g₀.sv = true) (m_i3c : g₀.i3c = true)
    (m_sounds : g₀.sounds = true) (m_seqNo : g₀.seqNo = true) : Same g₀ r₀ t₀ := by
  unfold execMcDetach at e₀
  repeat' first | contradiction | (injection e₀ with e₀; subst e₀) | dsimp only at e₀ | (split at e₀)
  repeat' first
    | with_reducible assumption | intro _ | with_reducible apply detachRecv_same | with_reducible apply showFull_same
    | with_reducible apply ite_same | with_reducible apply foldl_same | (refine Same.ofSnd (by assumption) ?_) | dsimp only
    | split

theorem unblock_same {r₀ : State} {g₀ : Groups} {s : State} {g : Nat} (h1 : Same g₀ r₀ s) (m_free : g₀.free = true)
    (m_regs : g₀.regs = true) (m_streams : g₀.streams = true) (m_sounds : g₀.sounds = true) (m_seqNo : g₀.seqNo = true)
    : Same g₀ r₀ (unblock s g) := by
  unfold unblock
  repeat' first
    | with_reducible assumption | intro _ | with_reducible apply showFull_same | with_reducible apply ite_same
    | with_reducible apply foldl_same | (refine Same.ofSnd (by assumption) ?_) | dsimp only | split

theorem takeMcAck_same {r₀ : State} {g₀ : Groups} {s : State} {r : OutReq} (h1 : Same g₀ r₀ s) (m_free : g₀.free = true)
    (m_pkg : g₀.pkg = true) (m_regs : g₀.regs = true) (m_gz : g₀.gz = true) (m_streams : g₀.streams = true) (m_qm : g₀.qm = true)
    (m_rings : g₀.rings = true) (m_sounds : g₀.sounds = true) (m_seqNo : g₀.seqNo = true) : Same g₀ r₀ (takeMcAck s r) := by
  unfold takeMcAck
  repeat' first
    | with_reducible assumption | intro _ | with_reducible apply unblock_same | with_reducible apply setRecv_same
    | with_reducible apply sendRemotes_same | with_reducible apply ite_same | with_reducible apply foldl_same
    | (refine Same.ofSnd (by assumption) ?_) | dsimp only | split

theorem replay_same {r₀ : State} {g₀ : Groups} {s : State} {m : Rec} (h1 : Same g₀ r₀ s) (m_gz : g₀.gz = true)
    : Same g₀ r₀ (replay s m) := by
  unfold replay
  repeat' first
    | with_reducible assumption | intro _ | with_reducible apply sendFlit_same | with_reducible apply ite_same
    | with_reducible apply foldl_same | (refine Same.ofSnd (by assumption) ?_) | dsimp only | split

theorem execStallBudgetExpiry_same {r₀ : State} {g₀ : Groups} {stream : Nat} {s : State} {t₀}
    (e₀ : execStallBudgetExpiry stream s = .next t₀) (h2 : Same g₀ r₀ s) (m_regs : g₀.regs = true) (m_streams : g₀.streams = true)
    (m_sv : g₀.sv = true) (m_i3c : g₀.i3c = true) (m_sounds : g₀.sounds = true) (m_seqNo : g₀.seqNo = true) : Same g₀ r₀ t₀ := by
  unfold execStallBudgetExpiry at e₀
  repeat' first | contradiction | (injection e₀ with e₀; subst e₀) | dsimp only at e₀ | (split at e₀)
  repeat' first
    | with_reducible assumption | intro _ | with_reducible apply bump_same | with_reducible apply setStrm_same
    | with_reducible apply setSticky_same | with_reducible apply ite_same | with_reducible apply foldl_same
    | (refine Same.ofSnd (by assumption) ?_) | dsimp only | split

theorem takeAcked_same {r₀ : State} {g₀ : Groups} {s : State} {f : Flit} (h1 : Same g₀ r₀ s) (m_free : g₀.free = true)
    (m_regs : g₀.regs = true) (m_gz : g₀.gz = true) (m_streams : g₀.streams = true) (m_sounds : g₀.sounds = true)
    (m_seqNo : g₀.seqNo = true) : Same g₀ r₀ (takeAcked s f) := by
  unfold takeAcked
  repeat' first
    | with_reducible assumption | intro _ | with_reducible apply unblock_same | with_reducible apply lateAnswer_same
    | with_reducible apply setRecv_same | with_reducible apply replay_same | with_reducible apply ite_same
    | with_reducible apply foldl_same | (refine Same.ofSnd (by assumption) ?_) | dsimp only | split

end Sys2Proof.Machine
end

