-- ==== Sys2Proof/Laws/SameRings.lean ====
section
/-!
SUPPORT. What the definitions of Machine/Rings.lean may change (Laws/Same.lean).
-/

set_option linter.all false

namespace Sys2Proof.Machine

open Sys2Proof

theorem enterGauze_same {r₀ : State} {g₀ : Groups} {s : State} {die : Nat} {x : RingFrame} {rDie : Nat} {f : Flit}
    (h1 : Same g₀ r₀ s) (m_gz : g₀.gz = true) (m_rings : g₀.rings = true) : Same g₀ r₀ (enterGauze s die x rDie f) := by
  unfold enterGauze
  repeat' first
    | with_reducible assumption | intro _ | with_reducible apply State.onRings_same | with_reducible apply sendOne_same
    | with_reducible apply openReq_same | with_reducible apply ite_same | with_reducible apply foldl_same
    | (refine Same.ofSnd (by assumption) ?_) | dsimp only | split

theorem execRemoteTimeout_same {r₀ : State} {g₀ : Groups} {die tag : Nat} {s : State} {t₀}
    (e₀ : execRemoteTimeout die tag s = .next t₀) (h3 : Same g₀ r₀ s) (m_free : g₀.free = true) (m_regs : g₀.regs = true)
    (m_gz : g₀.gz = true) (m_qm : g₀.qm = true) (m_rings : g₀.rings = true) (m_sv : g₀.sv = true) (m_i3c : g₀.i3c = true)
    (m_sounds : g₀.sounds = true) (m_seqNo : g₀.seqNo = true) : Same g₀ r₀ t₀ := by
  unfold execRemoteTimeout at e₀
  repeat' first | contradiction | (injection e₀ with e₀; subst e₀) | dsimp only at e₀ | (split at e₀)
  repeat' first
    | with_reducible assumption | intro _ | with_reducible apply bump_same | with_reducible apply setSticky_same
    | with_reducible apply loseRemote_same | with_reducible apply ite_same | with_reducible apply foldl_same
    | (refine Same.ofSnd (by assumption) ?_) | dsimp only | split

theorem execSendSent_same {r₀ : State} {g₀ : Groups} {s : State} {t₀} (e₀ : execSendSent s = .next t₀) (h1 : Same g₀ r₀ s)
    (m_rings : g₀.rings = true) : Same g₀ r₀ t₀ := by
  unfold execSendSent at e₀
  repeat' first | contradiction | (injection e₀ with e₀; subst e₀) | dsimp only at e₀ | (split at e₀)
  repeat' first
    | with_reducible assumption | intro _ | with_reducible apply State.onRings_same | with_reducible apply floodStep_same
    | with_reducible apply ite_same | with_reducible apply foldl_same | (refine Same.ofSnd (by assumption) ?_) | dsimp only
    | split

theorem execTrainingFailure_same {r₀ : State} {g₀ : Groups} {die : Nat} {s : State} {t₀}
    (e₀ : execTrainingFailure die s = .next t₀) (h2 : Same g₀ r₀ s) (m_free : g₀.free = true) (m_pkg : g₀.pkg = true)
    (m_regs : g₀.regs = true) (m_gz : g₀.gz = true) (m_qm : g₀.qm = true) (m_rings : g₀.rings = true)
    (m_sounds : g₀.sounds = true) (m_seqNo : g₀.seqNo = true) : Same g₀ r₀ t₀ := by
  unfold execTrainingFailure at e₀
  repeat' first | contradiction | (injection e₀ with e₀; subst e₀) | dsimp only at e₀ | (split at e₀)
  repeat' first
    | with_reducible assumption | intro _ | with_reducible apply pumpLink_same | with_reducible apply setRPort_same
    | with_reducible apply floodTopo_same | with_reducible apply ite_same | with_reducible apply foldl_same
    | (refine Same.ofSnd (by assumption) ?_) | dsimp only | split

theorem takeFill_same {r₀ : State} {g₀ : Groups} {s : State} {n v : Nat} (h1 : Same g₀ r₀ s) (m_streams : g₀.streams = true)
    : Same g₀ r₀ (takeFill s n v) := by
  unfold takeFill
  repeat' first
    | with_reducible assumption | intro _ | with_reducible apply setStrm_same | with_reducible apply ite_same
    | with_reducible apply foldl_same | (refine Same.ofSnd (by assumption) ?_) | dsimp only | split

theorem releaseWaiter_same {r₀ : State} {g₀ : Groups} {s : State} (h1 : Same g₀ r₀ s) (m_free : g₀.free = true)
    (m_qm : g₀.qm = true) (m_rings : g₀.rings = true) : Same g₀ r₀ (releaseWaiter s) := by
  unfold releaseWaiter
  repeat' first
    | with_reducible assumption | intro _ | with_reducible apply State.onRings_same | with_reducible apply complete_same
    | with_reducible apply ite_same | with_reducible apply foldl_same | (refine Same.ofSnd (by assumption) ?_) | dsimp only
    | split

theorem execDimensionOpen_same {r₀ : State} {g₀ : Groups} {dim : Nat} {s : State} {t₀} (e₀ : execDimensionOpen dim s = .next t₀)
    (h2 : Same g₀ r₀ s) (m_free : g₀.free = true) (m_pkg : g₀.pkg = true) (m_qm : g₀.qm = true) (m_rings : g₀.rings = true)
    : Same g₀ r₀ t₀ := by
  unfold execDimensionOpen at e₀
  repeat' first | contradiction | (injection e₀ with e₀; subst e₀) | dsimp only at e₀ | (split at e₀)
  repeat' first
    | with_reducible assumption | intro _ | with_reducible apply State.onRings_same | with_reducible apply releaseWaiter_same
    | with_reducible apply setRPort_same | with_reducible apply floodTopo_same | with_reducible apply dropCause_same
    | with_reducible apply ite_same | with_reducible apply foldl_same | (refine Same.ofSnd (by assumption) ?_) | dsimp only
    | split

theorem execOpenTok_same {r₀ : State} {g₀ : Groups} {dev step : Nat} {s : State} {t₀} (e₀ : execOpenTok dev step s = .next t₀)
    (h3 : Same g₀ r₀ s) (m_rings : g₀.rings = true) : Same g₀ r₀ t₀ := by
  unfold execOpenTok at e₀
  repeat' first | contradiction | (injection e₀ with e₀; subst e₀) | dsimp only at e₀ | (split at e₀)
  repeat' first
    | with_reducible assumption | intro _ | with_reducible apply applyStep_same | with_reducible apply ite_same
    | with_reducible apply foldl_same | (refine Same.ofSnd (by assumption) ?_) | dsimp only | split

theorem takeCredit_same {r₀ : State} {g₀ : Groups} {s : State} {x : RingFrame} (h1 : Same g₀ r₀ s) (m_free : g₀.free = true)
    (m_pkg : g₀.pkg = true) (m_regs : g₀.regs = true) (m_gz : g₀.gz = true) (m_qm : g₀.qm = true) (m_rings : g₀.rings = true)
    (m_sounds : g₀.sounds = true) (m_seqNo : g₀.seqNo = true) : Same g₀ r₀ (takeCredit s x) := by
  unfold takeCredit
  repeat' first
    | with_reducible assumption | intro _ | with_reducible apply State.onRings_same | with_reducible apply sendRemotes_same
    | with_reducible apply ite_same | with_reducible apply foldl_same | (refine Same.ofSnd (by assumption) ?_) | dsimp only
    | split

theorem refuseFrame_same {r₀ : State} {g₀ : Groups} {s : State} {die : Nat} {x : RingFrame} {st : Nat} (h1 : Same g₀ r₀ s)
    (m_free : g₀.free = true) (m_pkg : g₀.pkg = true) (m_regs : g₀.regs = true) (m_gz : g₀.gz = true) (m_qm : g₀.qm = true)
    (m_rings : g₀.rings = true) (m_sounds : g₀.sounds = true) (m_seqNo : g₀.seqNo = true)
    : Same g₀ r₀ (refuseFrame s die x st) := by
  unfold refuseFrame
  repeat' first
    | with_reducible assumption | intro _ | with_reducible apply sendBack_same | with_reducible apply ite_same
    | with_reducible apply foldl_same | (refine Same.ofSnd (by assumption) ?_) | dsimp only | split

theorem ackJournal_same {r₀ : State} {g₀ : Groups} {s : State} {die : Nat} {x : RingFrame} (h1 : Same g₀ r₀ s)
    (m_free : g₀.free = true) (m_pkg : g₀.pkg = true) (m_regs : g₀.regs = true) (m_gz : g₀.gz = true) (m_qm : g₀.qm = true)
    (m_rings : g₀.rings = true) (m_sounds : g₀.sounds = true) (m_seqNo : g₀.seqNo = true) : Same g₀ r₀ (ackJournal s die x) := by
  unfold ackJournal
  repeat' first
    | with_reducible assumption | intro _ | with_reducible apply sendBack_same | with_reducible apply ite_same
    | with_reducible apply foldl_same | (refine Same.ofSnd (by assumption) ?_) | dsimp only | split

theorem takeStrmReg_same {r₀ : State} {g₀ : Groups} {s : State} {x : RingFrame} (h1 : Same g₀ r₀ s) (m_free : g₀.free = true)
    (m_pkg : g₀.pkg = true) (m_regs : g₀.regs = true) (m_gz : g₀.gz = true) (m_streams : g₀.streams = true) (m_qm : g₀.qm = true)
    (m_rings : g₀.rings = true) (m_sounds : g₀.sounds = true) (m_seqNo : g₀.seqNo = true) : Same g₀ r₀ (takeStrmReg s x) := by
  unfold takeStrmReg
  repeat' first
    | with_reducible assumption | intro _ | with_reducible apply takeFill_same | with_reducible apply takeCredit_same
    | with_reducible apply ite_same | with_reducible apply foldl_same | (refine Same.ofSnd (by assumption) ?_) | dsimp only
    | split

theorem takeRequest_same {r₀ : State} {g₀ : Groups} {s : State} {die : Nat} {x : RingFrame} {x21}
    (e₀ : takeRequest s die x = some x21) (h1 : Same g₀ r₀ s) (m_free : g₀.free = true) (m_pkg : g₀.pkg = true)
    (m_regs : g₀.regs = true) (m_gz : g₀.gz = true) (m_streams : g₀.streams = true) (m_qm : g₀.qm = true)
    (m_rings : g₀.rings = true) (m_sounds : g₀.sounds = true) (m_seqNo : g₀.seqNo = true) : Same g₀ r₀ x21 := by
  unfold takeRequest at e₀
  repeat' first | contradiction | (injection e₀ with e₀; subst e₀) | dsimp only at e₀ | (split at e₀)
  repeat' first
    | with_reducible assumption | intro _ | with_reducible apply refuseFrame_same | with_reducible apply ackJournal_same
    | with_reducible apply takeStrmReg_same | with_reducible apply enterGauze_same | with_reducible apply ite_same
    | with_reducible apply foldl_same | (refine Same.ofSnd (by assumption) ?_) | dsimp only | split

theorem silence_same {r₀ : State} {g₀ : Groups} {s : State} {n : Nat} {open_ : Bool} (h1 : Same g₀ r₀ s) (m_regs : g₀.regs = true)
    (m_rings : g₀.rings = true) (m_sounds : g₀.sounds = true) (m_seqNo : g₀.seqNo = true) : Same g₀ r₀ (silence s n open_) := by
  unfold silence
  repeat' first
    | with_reducible assumption | intro _ | with_reducible apply State.onRings_same | with_reducible apply bumpBy_same
    | with_reducible apply setPeer_same | with_reducible apply ite_same | with_reducible apply foldl_same
    | (refine Same.ofSnd (by assumption) ?_) | dsimp only | split

theorem execTokenWaitExpiry_same {r₀ : State} {g₀ : Groups} {s : State} {t₀} (e₀ : execTokenWaitExpiry s = .next t₀)
    (h1 : Same g₀ r₀ s) (m_regs : g₀.regs = true) (m_rings : g₀.rings = true) (m_sounds : g₀.sounds = true)
    (m_seqNo : g₀.seqNo = true) : Same g₀ r₀ t₀ := by
  unfold execTokenWaitExpiry at e₀
  repeat' first | contradiction | (injection e₀ with e₀; subst e₀) | dsimp only at e₀ | (split at e₀)
  repeat' first
    | with_reducible assumption | intro _ | with_reducible apply silence_same | with_reducible apply ite_same
    | with_reducible apply foldl_same | (refine Same.ofSnd (by assumption) ?_) | dsimp only | split

theorem ringTarget_same {r₀ : State} {g₀ : Groups} {s : State} {o : RingOp} {put_ : Bool} {j n : Nat} {r : OutReq} {x27}
    (e₀ : ringTarget s o put_ j n r = some x27) (h1 : Same g₀ r₀ s) (m_free : g₀.free = true) (m_rings : g₀.rings = true)
    : Same g₀ r₀ x27.2.2 := by
  unfold ringTarget at e₀
  repeat' first | contradiction | (injection e₀ with e₀; subst e₀) | dsimp only at e₀ | (obtain ⟨_, e₀, rfl⟩ := Option.map_eq_some_iff.mp e₀) | (split at e₀)
  repeat' first
    | with_reducible assumption | intro _ | with_reducible apply State.onRings_same | with_reducible apply State.took_same
    | with_reducible apply ite_same | with_reducible apply ite_same_snd | with_reducible apply foldl_same
    | with_reducible apply foldl_same_snd | (refine Same.ofSnd (by assumption) ?_) | dsimp only | split

theorem addWait_same {r₀ : State} {g₀ : Groups} {s : State} {h : Hdr} {key : Nat} (h1 : Same g₀ r₀ s) (m_qm : g₀.qm = true)
    : Same g₀ r₀ (addWait s h key) := by
  unfold addWait
  repeat' first
    | with_reducible assumption | intro _ | with_reducible apply State.onQm_same | with_reducible apply ite_same
    | with_reducible apply foldl_same | (refine Same.ofSnd (by assumption) ?_) | dsimp only | split

theorem sendRing_same {r₀ : State} {g₀ : Groups} {s : State} {h : Hdr} {o : RingOp} {put_ : Bool} {j : Nat} {x23}
    (e₀ : sendRing s h o put_ j = some x23) (h1 : Same g₀ r₀ s) (m_free : g₀.free = true) (m_pkg : g₀.pkg = true)
    (m_regs : g₀.regs = true) (m_gz : g₀.gz = true) (m_qm : g₀.qm = true) (m_rings : g₀.rings = true)
    (m_sounds : g₀.sounds = true) (m_seqNo : g₀.seqNo = true) : Same g₀ r₀ x23 := by
  unfold sendRing at e₀
  repeat' first | contradiction | (injection e₀ with e₀; subst e₀) | dsimp only at e₀ | (obtain ⟨_, e₀, rfl⟩ := Option.map_eq_some_iff.mp e₀) | (split at e₀)
  repeat' first
    | with_reducible assumption | intro _ | with_reducible apply requestRemote_same | with_reducible apply addWait_same
    | with_reducible apply ite_same | with_reducible apply ite_same_snd | with_reducible apply foldl_same
    | with_reducible apply foldl_same_snd | (with_reducible refine ringTarget_same (by assumption) ?_ ?_ ?_)
    | (refine Same.ofSnd (by assumption) ?_) | dsimp only | split

theorem sendRings_same {r₀ : State} {g₀ : Groups} {s : State} {h : Hdr} {o : RingOp} {put_ : Bool} {a4 a5 : Nat}
    (h1 : Same g₀ r₀ s) (m_free : g₀.free = true) (m_pkg : g₀.pkg = true) (m_regs : g₀.regs = true) (m_gz : g₀.gz = true)
    (m_mu : g₀.mu = true) (m_qm : g₀.qm = true) (m_rings : g₀.rings = true) (m_sounds : g₀.sounds = true)
    (m_seqNo : g₀.seqNo = true) : Same g₀ r₀ (sendRings s h o put_ a4 a5) := by
  induction a4 generalizing s a5 with
  | zero =>
    unfold sendRings
    repeat' first
      | with_reducible assumption | intro _ | with_reducible apply countLost_same | with_reducible apply State.onMu_same
      | with_reducible apply endAdds_same | with_reducible apply ite_same | with_reducible apply foldl_same
      | (with_reducible refine sendRing_same (by assumption) ?_ ?_ ?_ ?_ ?_ ?_ ?_ ?_ ?_) | (refine Same.ofSnd (by assumption) ?_)
      | dsimp only | split
  | succ _ ih =>
    unfold sendRings
    repeat' first
      | with_reducible assumption | intro _ | with_reducible apply ih | with_reducible apply countLost_same
      | with_reducible apply State.onMu_same | with_reducible apply endAdds_same | with_reducible apply ite_same
      | with_reducible apply foldl_same | (with_reducible refine sendRing_same (by assumption) ?_ ?_ ?_ ?_ ?_ ?_ ?_ ?_ ?_)
      | (refine Same.ofSnd (by assumption) ?_) | dsimp only | split

theorem portChanged_same {r₀ : State} {g₀ : Groups} {s : State} {d : Nat} {f : RPort → RPort} (h1 : Same g₀ r₀ s)
    (m_pkg : g₀.pkg = true) (m_rings : g₀.rings = true) (m_twin : g₀.twin = true) : Same g₀ r₀ (portChanged s d f) := by
  unfold portChanged
  repeat' first
    | with_reducible assumption | intro _ | with_reducible apply setRPort_same | with_reducible apply twinPortCheck_same
    | with_reducible apply ite_same | with_reducible apply foldl_same | (refine Same.ofSnd (by assumption) ?_) | dsimp only
    | split

theorem retrain_same {r₀ : State} {g₀ : Groups} {s : State} {d : Nat} (h1 : Same g₀ r₀ s) (m_pkg : g₀.pkg = true)
    (m_regs : g₀.regs = true) (m_rings : g₀.rings = true) (m_twin : g₀.twin = true) (m_sounds : g₀.sounds = true)
    (m_seqNo : g₀.seqNo = true) : Same g₀ r₀ (retrain s d) := by
  unfold retrain
  repeat' first
    | with_reducible assumption | intro _ | with_reducible apply bump_same | with_reducible apply portChanged_same
    | with_reducible apply ite_same | with_reducible apply foldl_same | (refine Same.ofSnd (by assumption) ?_) | dsimp only
    | split

theorem takeReply_same {r₀ : State} {g₀ : Groups} {s : State} {die : Nat} {x : RingFrame} (h1 : Same g₀ r₀ s)
    (m_gz : g₀.gz = true) : Same g₀ r₀ (takeReply s die x) := by
  unfold takeReply
  repeat' first
    | with_reducible assumption | intro _ | with_reducible apply sendFlit_same | with_reducible apply ite_same
    | with_reducible apply foldl_same | (refine Same.ofSnd (by assumption) ?_) | dsimp only | split

theorem badCredit_same {r₀ : State} {g₀ : Groups} {s : State} {die : Nat} (h1 : Same g₀ r₀ s) (m_pkg : g₀.pkg = true)
    (m_regs : g₀.regs = true) (m_rings : g₀.rings = true) (m_twin : g₀.twin = true) (m_sounds : g₀.sounds = true)
    (m_seqNo : g₀.seqNo = true) : Same g₀ r₀ (badCredit s die) := by
  unfold badCredit
  repeat' first
    | with_reducible assumption | intro _ | with_reducible apply bump_same | with_reducible apply setRPort_same
    | with_reducible apply retrain_same | with_reducible apply ite_same | with_reducible apply foldl_same
    | (refine Same.ofSnd (by assumption) ?_) | dsimp only | split

theorem execRingLaneFailure_same {r₀ : State} {g₀ : Groups} {die lane : Nat} {s : State} {t₀}
    (e₀ : execRingLaneFailure die lane s = .next t₀) (h3 : Same g₀ r₀ s) (m_pkg : g₀.pkg = true) (m_regs : g₀.regs = true)
    (m_rings : g₀.rings = true) (m_twin : g₀.twin = true) (m_sounds : g₀.sounds = true) (m_seqNo : g₀.seqNo = true)
    : Same g₀ r₀ t₀ := by
  unfold execRingLaneFailure at e₀
  repeat' first | contradiction | (injection e₀ with e₀; subst e₀) | dsimp only at e₀ | (split at e₀)
  repeat' first
    | with_reducible assumption | intro _ | with_reducible apply portChanged_same | with_reducible apply retrain_same
    | with_reducible apply ite_same | with_reducible apply foldl_same | (refine Same.ofSnd (by assumption) ?_) | dsimp only
    | split

theorem loseSnapshot_same {r₀ : State} {g₀ : Groups} {s : State} (h1 : Same g₀ r₀ s) (m_free : g₀.free = true)
    (m_qm : g₀.qm = true) (m_snap : g₀.snap = true) : Same g₀ r₀ (loseSnapshot s) := by
  unfold loseSnapshot
  repeat' first
    | with_reducible assumption | intro _ | with_reducible apply State.onSnap_same | with_reducible apply complete_same
    | with_reducible apply ite_same | with_reducible apply foldl_same | (refine Same.ofSnd (by assumption) ?_) | dsimp only
    | split

theorem execLossOfSignal_same {r₀ : State} {g₀ : Groups} {die : Nat} {s : State} {t₀} (e₀ : execLossOfSignal die s = .next t₀)
    (h2 : Same g₀ r₀ s) (m_free : g₀.free = true) (m_pkg : g₀.pkg = true) (m_qm : g₀.qm = true) (m_rings : g₀.rings = true)
    (m_twin : g₀.twin = true) (m_snap : g₀.snap = true) : Same g₀ r₀ t₀ := by
  unfold execLossOfSignal at e₀
  repeat' first | contradiction | (injection e₀ with e₀; subst e₀) | dsimp only at e₀ | (split at e₀)
  repeat' first
    | with_reducible assumption | intro _ | with_reducible apply portChanged_same | with_reducible apply loseSnapshot_same
    | with_reducible apply ite_same | with_reducible apply foldl_same | (refine Same.ofSnd (by assumption) ?_) | dsimp only
    | split

theorem passOn_same {r₀ : State} {g₀ : Groups} {s : State} {die : Nat} {x : RingFrame} {x16} (e₀ : passOn s die x = some x16)
    (h1 : Same g₀ r₀ s) (m_free : g₀.free = true) (m_pkg : g₀.pkg = true) (m_regs : g₀.regs = true) (m_gz : g₀.gz = true)
    (m_qm : g₀.qm = true) (m_rings : g₀.rings = true) (m_sounds : g₀.sounds = true) (m_seqNo : g₀.seqNo = true)
    : Same g₀ r₀ x16 := by
  unfold passOn at e₀
  repeat' first | contradiction | (injection e₀ with e₀; subst e₀) | dsimp only at e₀ | (split at e₀)
  repeat' first
    | with_reducible assumption | intro _ | with_reducible apply sendFrame_same | with_reducible apply ite_same
    | with_reducible apply foldl_same | (refine Same.ofSnd (by assumption) ?_) | dsimp only | split

theorem takeFrame_same {r₀ : State} {g₀ : Groups} {s : State} {die : Nat} {x : RingFrame} {x19}
    (e₀ : takeFrame s die x = some x19) (h1 : Same g₀ r₀ s) (m_free : g₀.free = true) (m_pkg : g₀.pkg = true)
    (m_regs : g₀.regs = true) (m_gz : g₀.gz = true) (m_streams : g₀.streams = true) (m_qm : g₀.qm = true)
    (m_rings : g₀.rings = true) (m_sounds : g₀.sounds = true) (m_seqNo : g₀.seqNo = true) : Same g₀ r₀ x19 := by
  unfold takeFrame at e₀
  repeat' first | contradiction | (injection e₀ with e₀; subst e₀) | dsimp only at e₀ | (split at e₀)
  repeat' first
    | with_reducible assumption | intro _ | with_reducible apply takeReply_same | with_reducible apply ite_same
    | with_reducible apply foldl_same | (with_reducible refine takeRequest_same (by assumption) ?_ ?_ ?_ ?_ ?_ ?_ ?_ ?_ ?_ ?_)
    | (with_reducible refine passOn_same (by assumption) ?_ ?_ ?_ ?_ ?_ ?_ ?_ ?_ ?_) | (refine Same.ofSnd (by assumption) ?_)
    | dsimp only | split

theorem drainFrames_same {r₀ : State} {g₀ : Groups} {die : Nat} {a1 : List RingFrame} {a2 : List Nat} {a3 : State}
    (h4 : Same g₀ r₀ a3) (m_free : g₀.free = true) (m_pkg : g₀.pkg = true) (m_regs : g₀.regs = true) (m_gz : g₀.gz = true)
    (m_streams : g₀.streams = true) (m_qm : g₀.qm = true) (m_rings : g₀.rings = true) (m_sounds : g₀.sounds = true)
    (m_seqNo : g₀.seqNo = true) : Same g₀ r₀ (drainFrames die a1 a2 a3) := by
  induction a1 generalizing a2 a3 with
  | nil =>
    unfold drainFrames
    repeat' first
      | with_reducible assumption | intro _ | with_reducible apply setRPort_same | with_reducible apply ite_same
      | with_reducible apply foldl_same | (with_reducible refine takeFrame_same (by assumption) ?_ ?_ ?_ ?_ ?_ ?_ ?_ ?_ ?_ ?_)
      | (refine Same.ofSnd (by assumption) ?_) | dsimp only | split
  | cons _ _ ih =>
    unfold drainFrames
    repeat' first
      | with_reducible assumption | intro _ | with_reducible apply ih | with_reducible apply setRPort_same
      | with_reducible apply ite_same | with_reducible apply foldl_same
      | (with_reducible refine takeFrame_same (by assumption) ?_ ?_ ?_ ?_ ?_ ?_ ?_ ?_ ?_ ?_)
      | (refine Same.ofSnd (by assumption) ?_) | dsimp only | split

theorem drainInput_same {r₀ : State} {g₀ : Groups} {s : State} {die : Nat} (h1 : Same g₀ r₀ s) (m_free : g₀.free = true)
    (m_pkg : g₀.pkg = true) (m_regs : g₀.regs = true) (m_gz : g₀.gz = true) (m_streams : g₀.streams = true) (m_qm : g₀.qm = true)
    (m_rings : g₀.rings = true) (m_sounds : g₀.sounds = true) (m_seqNo : g₀.seqNo = true) : Same g₀ r₀ (drainInput s die) := by
  unfold drainInput
  repeat' first
    | with_reducible assumption | intro _ | with_reducible apply drainFrames_same | with_reducible apply ite_same
    | with_reducible apply foldl_same | (refine Same.ofSnd (by assumption) ?_) | dsimp only | split

theorem runRing_same {r₀ : State} {g₀ : Groups} {s : State} {h : Hdr} {o : RingOp} {put_ : Bool} {u : UnitId} (h1 : Same g₀ r₀ s)
    (m_free : g₀.free = true) (m_pkg : g₀.pkg = true) (m_mem : g₀.mem = true) (m_regs : g₀.regs = true) (m_gz : g₀.gz = true)
    (m_mu : g₀.mu = true) (m_qm : g₀.qm = true) (m_rings : g₀.rings = true) (m_sv : g₀.sv = true) (m_i3c : g₀.i3c = true)
    (m_sounds : g₀.sounds = true) (m_seqNo : g₀.seqNo = true) : Same g₀ r₀ (runRing s h o put_ u) := by
  unfold runRing
  repeat' first
    | with_reducible assumption | intro _ | with_reducible apply countLost_same | with_reducible apply sendRings_same
    | with_reducible apply checkRead_same | with_reducible apply complete_same | with_reducible apply waitFor_same
    | with_reducible apply ite_same | with_reducible apply ite_same_snd | with_reducible apply foldl_same
    | with_reducible apply foldl_same_snd | (refine Same.ofSnd (by assumption) ?_) | dsimp only | split

theorem execRgPut_same {r₀ : State} {g₀ : Groups} {h : Hdr} {op : RingOp} {s : State} {t₀} (e₀ : execRgPut h op s = .next t₀)
    (h3 : Same g₀ r₀ s) (m_free : g₀.free = true) (m_pkg : g₀.pkg = true) (m_mem : g₀.mem = true) (m_regs : g₀.regs = true)
    (m_gz : g₀.gz = true) (m_mu : g₀.mu = true) (m_qm : g₀.qm = true) (m_rings : g₀.rings = true) (m_sv : g₀.sv = true)
    (m_i3c : g₀.i3c = true) (m_sounds : g₀.sounds = true) (m_seqNo : g₀.seqNo = true) : Same g₀ r₀ t₀ := by
  unfold execRgPut at e₀
  repeat' first | contradiction | (injection e₀ with e₀; subst e₀) | dsimp only at e₀ | (split at e₀)
  repeat' first
    | with_reducible assumption | intro _ | with_reducible apply sendRings_same | with_reducible apply runRing_same
    | with_reducible apply runDesc_same | with_reducible apply ite_same | with_reducible apply foldl_same
    | (refine Same.ofSnd (by assumption) ?_) | dsimp only | split

theorem takeRet_same {r₀ : State} {g₀ : Groups} {s : State} {die : Nat} {r : RingRet} (h1 : Same g₀ r₀ s) (m_pkg : g₀.pkg = true)
    (m_rings : g₀.rings = true) : Same g₀ r₀ (takeRet s die r) := by
  unfold takeRet
  repeat' first
    | with_reducible assumption | intro _ | with_reducible apply setRPort_same | with_reducible apply ite_same
    | with_reducible apply foldl_same | (refine Same.ofSnd (by assumption) ?_) | dsimp only | split

theorem moveOn_same {r₀ : State} {g₀ : Groups} {s : State} {die : Nat} (h1 : Same g₀ r₀ s) (m_free : g₀.free = true)
    (m_pkg : g₀.pkg = true) (m_regs : g₀.regs = true) (m_gz : g₀.gz = true) (m_streams : g₀.streams = true) (m_qm : g₀.qm = true)
    (m_rings : g₀.rings = true) (m_sounds : g₀.sounds = true) (m_seqNo : g₀.seqNo = true) : Same g₀ r₀ (moveOn s die) := by
  unfold moveOn
  repeat' first
    | with_reducible assumption | intro _ | with_reducible apply pumpLink_same | with_reducible apply drainInput_same
    | with_reducible apply ite_same | with_reducible apply foldl_same | (refine Same.ofSnd (by assumption) ?_) | dsimp only
    | split

theorem execIdle_same {r₀ : State} {g₀ : Groups} {f : IdleFrame} {s : State} {t₀} (e₀ : execIdle f s = .next t₀)
    (h2 : Same g₀ r₀ s) (m_free : g₀.free = true) (m_pkg : g₀.pkg = true) (m_regs : g₀.regs = true) (m_gz : g₀.gz = true)
    (m_streams : g₀.streams = true) (m_qm : g₀.qm = true) (m_rings : g₀.rings = true) (m_sounds : g₀.sounds = true)
    (m_seqNo : g₀.seqNo = true) : Same g₀ r₀ t₀ := by
  unfold execIdle at e₀
  repeat' first | contradiction | (injection e₀ with e₀; subst e₀) | dsimp only at e₀ | (split at e₀)
  repeat' first
    | with_reducible assumption | intro _ | with_reducible apply bumpBy_same | with_reducible apply State.took_same
    | with_reducible apply takeRet_same | with_reducible apply moveOn_same | with_reducible apply ite_same
    | with_reducible apply foldl_same | (refine Same.ofSnd (by assumption) ?_) | dsimp only | split

theorem enterYield_same {r₀ : State} {g₀ : Groups} {s : State} (h1 : Same g₀ r₀ s) (m_pkg : g₀.pkg = true)
    (m_rings : g₀.rings = true) (m_twin : g₀.twin = true) (m_sv : g₀.sv = true) : Same g₀ r₀ (enterYield s) := by
  unfold enterYield
  repeat' first
    | with_reducible assumption | intro _ | with_reducible apply addCause_same | with_reducible apply State.onTwin_same
    | with_reducible apply State.onSv_same | with_reducible apply ite_same | with_reducible apply foldl_same
    | (refine Same.ofSnd (by assumption) ?_) | dsimp only | split

theorem settleKept_same {r₀ : State} {g₀ : Groups} {s : State} {d : Nat} {f : IdentFrame} (h1 : Same g₀ r₀ s)
    (m_free : g₀.free = true) (m_pkg : g₀.pkg = true) (m_regs : g₀.regs = true) (m_gz : g₀.gz = true) (m_qm : g₀.qm = true)
    (m_rings : g₀.rings = true) (m_sounds : g₀.sounds = true) (m_seqNo : g₀.seqNo = true) : Same g₀ r₀ (settleKept s d f) := by
  unfold settleKept
  repeat' first
    | with_reducible assumption | intro _ | with_reducible apply bumpBy_same | with_reducible apply setRPort_same
    | with_reducible apply discardKept_same | with_reducible apply ite_same | with_reducible apply foldl_same
    | (refine Same.ofSnd (by assumption) ?_) | dsimp only | split

theorem portUpWith_same {r₀ : State} {g₀ : Groups} {s : State} {d : Nat} {f : IdentFrame} (h1 : Same g₀ r₀ s)
    (m_free : g₀.free = true) (m_pkg : g₀.pkg = true) (m_regs : g₀.regs = true) (m_gz : g₀.gz = true) (m_qm : g₀.qm = true)
    (m_rings : g₀.rings = true) (m_twin : g₀.twin = true) (m_sounds : g₀.sounds = true) (m_seqNo : g₀.seqNo = true)
    : Same g₀ r₀ (portUpWith s d f) := by
  unfold portUpWith
  repeat' first
    | with_reducible assumption | intro _ | with_reducible apply pumpLink_same | with_reducible apply portChanged_same
    | with_reducible apply settleKept_same | with_reducible apply ite_same | with_reducible apply foldl_same
    | (refine Same.ofSnd (by assumption) ?_) | dsimp only | split

theorem execSendOpen_same {r₀ : State} {g₀ : Groups} {s : State} {t₀} (e₀ : execSendOpen s = .next t₀) (h1 : Same g₀ r₀ s)
    (m_rings : g₀.rings = true) : Same g₀ r₀ t₀ := by
  unfold execSendOpen at e₀
  repeat' first | contradiction | (injection e₀ with e₀; subst e₀) | dsimp only at e₀ | (split at e₀)
  repeat' first
    | with_reducible assumption | intro _ | with_reducible apply State.onRings_same | with_reducible apply floodStep_same
    | with_reducible apply ite_same | with_reducible apply foldl_same | (refine Same.ofSnd (by assumption) ?_) | dsimp only
    | split

theorem ringUpWith_same {r₀ : State} {g₀ : Groups} {s : State} {d : Nat} {f : IdentFrame} (h1 : Same g₀ r₀ s)
    (m_free : g₀.free = true) (m_pkg : g₀.pkg = true) (m_regs : g₀.regs = true) (m_gz : g₀.gz = true) (m_qm : g₀.qm = true)
    (m_rings : g₀.rings = true) (m_twin : g₀.twin = true) (m_sounds : g₀.sounds = true) (m_seqNo : g₀.seqNo = true)
    : Same g₀ r₀ (ringUpWith s d f) := by
  unfold ringUpWith
  repeat' first
    | with_reducible assumption | intro _ | with_reducible apply portUpWith_same | with_reducible apply setRPort_same
    | with_reducible apply floodTopo_same | with_reducible apply ite_same | with_reducible apply foldl_same
    | (refine Same.ofSnd (by assumption) ?_) | dsimp only | split

theorem execFlitFrame_same {r₀ : State} {g₀ : Groups} {die : Nat} {f : RingFrame} {s : State} {t₀}
    (e₀ : execFlitFrame die f s = .next t₀) (h3 : Same g₀ r₀ s) (m_free : g₀.free = true) (m_pkg : g₀.pkg = true)
    (m_regs : g₀.regs = true) (m_gz : g₀.gz = true) (m_streams : g₀.streams = true) (m_qm : g₀.qm = true)
    (m_rings : g₀.rings = true) (m_twin : g₀.twin = true) (m_sounds : g₀.sounds = true) (m_seqNo : g₀.seqNo = true)
    : Same g₀ r₀ t₀ := by
  unfold execFlitFrame at e₀
  repeat' first | contradiction | (injection e₀ with e₀; subst e₀) | dsimp only at e₀ | (split at e₀)
  repeat' first
    | with_reducible assumption | intro _ | with_reducible apply setRPort_same | with_reducible apply badCredit_same
    | with_reducible apply takeRet_same | with_reducible apply moveOn_same | with_reducible apply ite_same
    | with_reducible apply foldl_same | (refine Same.ofSnd (by assumption) ?_) | dsimp only | split

theorem execAliasTok_same {r₀ : State} {g₀ : Groups} {dev target : Nat} {s : State} {t₀}
    (e₀ : execAliasTok dev target s = .next t₀) (h3 : Same g₀ r₀ s) (m_rings : g₀.rings = true) : Same g₀ r₀ t₀ := by
  unfold execAliasTok at e₀
  repeat' first | contradiction | (injection e₀ with e₀; subst e₀) | dsimp only at e₀ | (split at e₀)
  repeat' first
    | with_reducible assumption | intro _ | with_reducible apply applyAlias_same | with_reducible apply ite_same
    | with_reducible apply foldl_same | (refine Same.ofSnd (by assumption) ?_) | dsimp only | split

theorem execTokenIn_same {r₀ : State} {g₀ : Groups} {die : Nat} {tok : Token} {s : State} {t₀}
    (e₀ : execTokenIn die tok s = .next t₀) (h3 : Same g₀ r₀ s) (m_rings : g₀.rings = true) : Same g₀ r₀ t₀ := by
  unfold execTokenIn at e₀
  repeat' first | contradiction | (injection e₀ with e₀; subst e₀) | dsimp only at e₀ | (split at e₀)
  repeat' first
    | with_reducible assumption | intro _ | with_reducible apply State.onRings_same | with_reducible apply applyToken_same
    | with_reducible apply ite_same | with_reducible apply foldl_same | (refine Same.ofSnd (by assumption) ?_) | dsimp only
    | split

theorem rebase_same {r₀ : State} {g₀ : Groups} {was : Bool} {s : State} (h2 : Same g₀ r₀ s) (m_free : g₀.free = true)
    (m_pkg : g₀.pkg = true) (m_regs : g₀.regs = true) (m_gz : g₀.gz = true) (m_qm : g₀.qm = true) (m_rings : g₀.rings = true)
    (m_twin : g₀.twin = true) (m_sounds : g₀.sounds = true) (m_seqNo : g₀.seqNo = true) : Same g₀ r₀ (rebase was s) := by
  unfold rebase
  repeat' first
    | with_reducible assumption | intro _ | with_reducible apply enterBase_same | with_reducible apply ite_same
    | with_reducible apply foldl_same | (refine Same.ofSnd (by assumption) ?_) | dsimp only | split

theorem execRgGet_same {r₀ : State} {g₀ : Groups} {h : Hdr} {op : RingOp} {s : State} {t₀} (e₀ : execRgGet h op s = .next t₀)
    (h3 : Same g₀ r₀ s) (m_free : g₀.free = true) (m_pkg : g₀.pkg = true) (m_mem : g₀.mem = true) (m_regs : g₀.regs = true)
    (m_gz : g₀.gz = true) (m_mu : g₀.mu = true) (m_qm : g₀.qm = true) (m_rings : g₀.rings = true) (m_sv : g₀.sv = true)
    (m_i3c : g₀.i3c = true) (m_sounds : g₀.sounds = true) (m_seqNo : g₀.seqNo = true) : Same g₀ r₀ t₀ := by
  unfold execRgGet at e₀
  repeat' first | contradiction | (injection e₀ with e₀; subst e₀) | dsimp only at e₀ | (split at e₀)
  repeat' first
    | with_reducible assumption | intro _ | with_reducible apply sendRings_same | with_reducible apply runRing_same
    | with_reducible apply runDesc_same | with_reducible apply ite_same | with_reducible apply foldl_same
    | (refine Same.ofSnd (by assumption) ?_) | dsimp only | split

theorem pairIdent_same {r₀ : State} {g₀ : Groups} {s : State} {f : IdentFrame} (h1 : Same g₀ r₀ s) (m_free : g₀.free = true)
    (m_pkg : g₀.pkg = true) (m_regs : g₀.regs = true) (m_gz : g₀.gz = true) (m_qm : g₀.qm = true) (m_rings : g₀.rings = true)
    (m_twin : g₀.twin = true) (m_sv : g₀.sv = true) (m_sounds : g₀.sounds = true) (m_seqNo : g₀.seqNo = true)
    : Same g₀ r₀ (pairIdent s f) := by
  unfold pairIdent
  repeat' first
    | with_reducible assumption | intro _ | with_reducible apply enterBase_same | with_reducible apply enterYield_same
    | with_reducible apply ite_same | with_reducible apply foldl_same | (refine Same.ofSnd (by assumption) ?_) | dsimp only
    | split

theorem execIdent_same {r₀ : State} {g₀ : Groups} {die : Nat} {f : IdentFrame} {s : State} {t₀}
    (e₀ : execIdent die f s = .next t₀) (h3 : Same g₀ r₀ s) (m_free : g₀.free = true) (m_pkg : g₀.pkg = true)
    (m_regs : g₀.regs = true) (m_gz : g₀.gz = true) (m_qm : g₀.qm = true) (m_rings : g₀.rings = true) (m_twin : g₀.twin = true)
    (m_sv : g₀.sv = true) (m_sounds : g₀.sounds = true) (m_seqNo : g₀.seqNo = true) : Same g₀ r₀ t₀ := by
  unfold execIdent at e₀
  repeat' first | contradiction | (injection e₀ with e₀; subst e₀) | dsimp only at e₀ | (split at e₀)
  repeat' first
    | with_reducible assumption | intro _ | with_reducible apply pairIdent_same | with_reducible apply portUpWith_same
    | with_reducible apply setRPort_same | with_reducible apply rebase_same | with_reducible apply ringUpWith_same
    | with_reducible apply ite_same | with_reducible apply foldl_same | (refine Same.ofSnd (by assumption) ?_) | dsimp only
    | split

theorem execSent_same {r₀ : State} {g₀ : Groups} {dev step : Nat} {s : State} {t₀} (e₀ : execSent dev step s = .next t₀)
    (h3 : Same g₀ r₀ s) (m_rings : g₀.rings = true) : Same g₀ r₀ t₀ := by
  unfold execSent at e₀
  repeat' first | contradiction | (injection e₀ with e₀; subst e₀) | dsimp only at e₀ | (split at e₀)
  repeat' first
    | with_reducible assumption | intro _ | with_reducible apply applyStep_same | with_reducible apply ite_same
    | with_reducible apply foldl_same | (refine Same.ofSnd (by assumption) ?_) | dsimp only | split

theorem execBrokenRetry_same {r₀ : State} {g₀ : Groups} {die : Nat} {s : State} {t₀} (e₀ : execBrokenRetry die s = .next t₀)
    (h2 : Same g₀ r₀ s) (m_pkg : g₀.pkg = true) (m_regs : g₀.regs = true) (m_rings : g₀.rings = true) (m_twin : g₀.twin = true)
    (m_sounds : g₀.sounds = true) (m_seqNo : g₀.seqNo = true) : Same g₀ r₀ t₀ := by
  unfold execBrokenRetry at e₀
  repeat' first | contradiction | (injection e₀ with e₀; subst e₀) | dsimp only at e₀ | (split at e₀)
  repeat' first
    | with_reducible assumption | intro _ | with_reducible apply retrain_same | with_reducible apply ite_same
    | with_reducible apply foldl_same | (refine Same.ofSnd (by assumption) ?_) | dsimp only | split

theorem execUncorrectableCodeword_same {r₀ : State} {g₀ : Groups} {die : Nat} {s : State} {t₀}
    (e₀ : execUncorrectableCodeword die s = .next t₀) (h2 : Same g₀ r₀ s) (m_pkg : g₀.pkg = true) (m_regs : g₀.regs = true)
    (m_rings : g₀.rings = true) (m_twin : g₀.twin = true) (m_sounds : g₀.sounds = true) (m_seqNo : g₀.seqNo = true)
    : Same g₀ r₀ t₀ := by
  unfold execUncorrectableCodeword at e₀
  repeat' first | contradiction | (injection e₀ with e₀; subst e₀) | dsimp only at e₀ | (split at e₀)
  repeat' first
    | with_reducible assumption | intro _ | with_reducible apply bump_same | with_reducible apply setRPort_same
    | with_reducible apply retrain_same | with_reducible apply ite_same | with_reducible apply foldl_same
    | (refine Same.ofSnd (by assumption) ?_) | dsimp only | split

theorem execSignalDetected_same {r₀ : State} {g₀ : Groups} {die : Nat} {s : State} {t₀} (e₀ : execSignalDetected die s = .next t₀)
    (h2 : Same g₀ r₀ s) (m_pkg : g₀.pkg = true) (m_regs : g₀.regs = true) (m_rings : g₀.rings = true) (m_twin : g₀.twin = true)
    (m_sounds : g₀.sounds = true) (m_seqNo : g₀.seqNo = true) : Same g₀ r₀ t₀ := by
  unfold execSignalDetected at e₀
  repeat' first | contradiction | (injection e₀ with e₀; subst e₀) | dsimp only at e₀ | (split at e₀)
  repeat' first
    | with_reducible assumption | intro _ | with_reducible apply setRPort_same | with_reducible apply retrain_same
    | with_reducible apply ite_same | with_reducible apply foldl_same | (refine Same.ofSnd (by assumption) ?_) | dsimp only
    | split

theorem execTopo_same {r₀ : State} {g₀ : Groups} {dev aux orig count : Nat} {s : State} {t₀}
    (e₀ : execTopo dev aux orig count s = .next t₀) (h5 : Same g₀ r₀ s) (m_rings : g₀.rings = true) : Same g₀ r₀ t₀ := by
  unfold execTopo at e₀
  repeat' first | contradiction | (injection e₀ with e₀; subst e₀) | dsimp only at e₀ | (split at e₀)
  repeat' first
    | with_reducible assumption | intro _ | with_reducible apply applyTopo_same | with_reducible apply ite_same
    | with_reducible apply foldl_same | (refine Same.ofSnd (by assumption) ?_) | dsimp only | split

theorem execBypassCause_same {r₀ : State} {g₀ : Groups} {cause dim : Nat} {s : State} {t₀}
    (e₀ : execBypassCause cause dim s = .next t₀) (h3 : Same g₀ r₀ s) (m_pkg : g₀.pkg = true) (m_rings : g₀.rings = true)
    : Same g₀ r₀ t₀ := by
  unfold execBypassCause at e₀
  repeat' first | contradiction | (injection e₀ with e₀; subst e₀) | dsimp only at e₀ | (split at e₀)
  repeat' first
    | with_reducible assumption | intro _ | with_reducible apply addCause_same | with_reducible apply ite_same
    | with_reducible apply foldl_same | (refine Same.ofSnd (by assumption) ?_) | dsimp only | split

end Sys2Proof.Machine
end

