-- ==== Sys2Proof/Laws/Rings.lean ====
section
/-!
SUPPORT. What the operations on ring ports and dimensions do.
-/

namespace Sys2Proof.Machine

open Sys2Proof

/-- A port set changes its own entry, and no other field of the rings. -/
theorem setRPort_rings (s : State) (d : Nat) (f : RPort → RPort) :
    (setRPort s d f).rings = { s.rings with ports := put s.rings.ports d (f (rport s d)) } := by
  unfold setRPort; dsimp only; split
  · exact (legendUpdate_same (g₀ := { pkg := true }) (Same.refl _ _) rfl).rings rfl
  · rfl
/-- A port set changes the rings and the Legend alone. -/
theorem setRPort_frame (s : State) (d : Nat) (f : RPort → RPort) : Same { pkg := true, rings := true } s (setRPort s d f) :=
  setRPort_same (Same.refl _ s) rfl rfl
/-- A port set leaves the straps. -/
theorem setRPort_straps (s : State) (d : Nat) (f : RPort → RPort) :
    (setRPort s d f).pkg.variant = s.pkg.variant ∧ (setRPort s d f).pkg.pairId = s.pkg.pairId := by
  unfold setRPort; dsimp only; split
  · unfold legendUpdate; split <;> exact ⟨rfl, rfl⟩
  · exact ⟨rfl, rfl⟩
/-- So does a switch that closes, and a cause that begins to hold (R372). -/
theorem setRPorts_straps (f : RPort → RPort) (l : List Nat) : ∀ s : State,
    (l.foldl (fun s d => setRPort s d f) s).pkg.variant = s.pkg.variant ∧ (l.foldl (fun s d => setRPort s d f) s).pkg.pairId = s.pkg.pairId := by
  induction l with
  | nil => exact fun s => ⟨rfl, rfl⟩
  | cons a l ih => exact fun s => ⟨(ih _).1.trans (setRPort_straps ..).1, (ih _).2.trans (setRPort_straps ..).2⟩
theorem addCause_straps (s : State) (c : Nat) : (addCause s c).pkg.variant = s.pkg.variant ∧ (addCause s c).pkg.pairId = s.pkg.pairId := by
  have H : ∀ (l : List Nat) (s : State), (l.foldl closeDim s).pkg.variant = s.pkg.variant ∧ (l.foldl closeDim s).pkg.pairId = s.pkg.pairId := by
    intro l; induction l with
    | nil => exact fun s => ⟨rfl, rfl⟩
    | cons a l ih =>
      intro s
      have h := setRPorts_straps (fun p => { p with st := pBypassed, lanes := 0, peerValid := false }) (dimDies a)
        (s.onRings fun g => { g with openDims := g.openDims.erase a, released := false })
      exact ⟨(ih _).1.trans h.1, (ih _).2.trans h.2⟩
  exact H _ _
/-- Where a port keeps its state and lanes, the Legend keeps its bytes. -/
theorem setRPort_plain (s : State) (d : Nat) (f : RPort → RPort) (h : (f (rport s d)).st = (rport s d).st) (l : (f (rport s d)).lanes = (rport s d).lanes) :
    setRPort s d f = s.onRings fun g => { g with ports := put g.ports d (f (rport s d)) } := by
  unfold setRPort; dsimp only; rw [if_neg (by simp [h, l])]
theorem rport_set (s : State) (d : Nat) (f : RPort → RPort) : rport (setRPort s d f) d = f (rport s d) := by
  simp [rport, setRPort_rings]
theorem rport_set_ne (s : State) (d e : Nat) (f : RPort → RPort) (h : e ≠ d) : rport (setRPort s d f) e = rport s e := by
  simp [rport, setRPort_rings, lookD_put_ne _ _ _ _ _ h]
theorem rport_congr {a b : State} (h : a.rings.ports = b.rings.ports) (d : Nat) : rport a d = rport b d := by unfold rport; rw [h]
theorem changed_is (s : State) (d : Nat) (f : RPort → RPort) : (portChanged s d f).rings = (setRPort s d f).rings ∧ (portChanged s d f).regs = s.regs := by
  have L := setRPort_frame s d f
  unfold portChanged; dsimp only; split
  · have T := twinPortCheck_same (g₀ := { twin := true }) (Same.refl _ (setRPort s d f)) rfl
    exact ⟨T.rings rfl, by rw [T.regs rfl, L.regs rfl]⟩
  · exact ⟨rfl, L.regs rfl⟩
theorem rport_changed (s : State) (d : Nat) (f : RPort → RPort) : rport (portChanged s d f) d = f (rport s d) := by
  rw [rport_congr (b := setRPort s d f) (by rw [(changed_is ..).1]), rport_set]
theorem bump_frame (s : State) (d o sel : Nat) : Same { regs := true, sounds := true, seqNo := true } s (bump s d o sel) := bump_same (Same.refl _ s) rfl rfl rfl
theorem retrain_is (s : State) (d : Nat) : rport (retrain s d) d = { rport s d with st := 1, lanes := 0, peerValid := false, viol := 0, bad := 0, badLanes := [] } ∧
    (retrain s d).regs = (bump s d 0x10028).regs := by
  unfold retrain
  refine ⟨?_, (changed_is ..).2⟩
  rw [rport_changed, rport_congr (b := s) (by rw [(bump_frame ..).rings rfl])]
theorem flood_is (s : State) (d a : Nat) : (floodTopo s d a).rings.ports = s.rings.ports ∧ ∃ tok, (floodTopo s d a).rings.floods = s.rings.floods ++ [tok] ∧
    tok.kind = 2 ∧ tok.aux = a ∧ tok.orig = selfDev s := by
  have T : ∀ (s : State) w x y z, (applyTopo s w x y z).rings.ports = s.rings.ports ∧ (applyTopo s w x y z).rings.floods = s.rings.floods := by
    intro s w x y z; unfold applyTopo; dsimp only
    split; exact ⟨rfl, rfl⟩
    split; exact ⟨rfl, rfl⟩
    split
    · split <;> exact ⟨rfl, rfl⟩
    · split
      · split <;> exact ⟨rfl, rfl⟩
      · split <;> exact ⟨rfl, rfl⟩
  unfold floodTopo flood applyToken
  dsimp only
  refine ⟨(T ..).1, _, (T ..).2, rfl, rfl, rfl⟩
theorem close_is (l : List Nat) : ∀ (s : State), (∀ dim ∈ l, ∀ d ∈ dimDies dim, (rport (l.foldl closeDim s) d).st = 6) ∧ (∀ d, (rport s d).st = 6 → (rport (l.foldl closeDim s) d).st = 6) ∧
    (l.foldl closeDim s).rings.causes = s.rings.causes ∧ (l ≠ [] → (l.foldl closeDim s).rings.released = false) ∧ (s.rings.released = false → (l.foldl closeDim s).rings.released = false) := by
  have P : ∀ (m : List Nat) (s : State), let z := m.foldl (fun s d => setRPort s d fun p => { p with st := pBypassed, lanes := 0, peerValid := false }) s
      (∀ d, d ∈ m ∨ (rport s d).st = 6 → (rport z d).st = 6) ∧ z.rings.causes = s.rings.causes ∧ z.rings.released = s.rings.released := by
    intro m; induction m with
    | nil => exact fun s => ⟨fun d h => h.resolve_left (by simp), rfl, rfl⟩
    | cons a m ih =>
      intro s z
      obtain ⟨h1, h2, h3⟩ := ih (setRPort s a fun p => { p with st := pBypassed, lanes := 0, peerValid := false })
      refine ⟨fun d h => h1 d ?_, by rw [setRPort_rings] at h2; exact h2, by rw [setRPort_rings] at h3; exact h3⟩
      by_cases e : d = a
      · subst e; right; rw [rport_set]
      · rw [rport_set_ne _ _ _ _ e]
        rcases h with h | h
        · left; simpa [e] using h
        · exact Or.inr h
  induction l with
  | nil => exact fun s => ⟨fun _ h => absurd h (by simp), fun _ h => h, rfl, fun h => absurd rfl h, fun h => h⟩
  | cons a l ih =>
    intro s
    obtain ⟨h1, h2, h3, h4, h5⟩ := ih (closeDim s a)
    obtain ⟨p1, p2, p3⟩ := P (dimDies a) (s.onRings fun g => { g with openDims := g.openDims.erase a, released := false })
    refine ⟨fun dim hd d hd' => ?_, fun d h => h2 d (p1 d (Or.inr h)), by rw [List.foldl_cons, h3]; exact p2, fun _ => h5 p3, fun _ => h5 p3⟩
    rcases List.mem_cons.mp hd with e | e
    · subst e; exact h2 d (p1 d (Or.inl hd'))
    · exact h1 dim e d hd'
theorem cause_is (s : State) (c : Nat) : c ∈ (addCause s c).rings.causes ∧ (addCause s c).rings.released = false ∧ ∀ dim ∈ causeDims c, ∀ d ∈ dimDies dim, (rport (addCause s c) d).st = 6 := by
  obtain ⟨h1, _, h3, h4, _⟩ := close_is (causeDims c) (s.onRings fun g => { g with causes := ins g.causes c })
  refine ⟨?_, h4 (by unfold causeDims; split <;> try split
                     all_goals simp), h1⟩
  show c ∈ ((causeDims c).foldl closeDim _).rings.causes
  rw [h3]; exact ins_self _ _
theorem open_is (m : List Nat) : ∀ s : State, let z := m.foldl (fun s d => setRPort s d fun p => { p with st := pDown, lanes := 0, peerValid := false }) s
    (∀ d, d ∈ m ∨ (rport s d).st = 0 → (rport z d).st = 0) ∧ z.rings.causes = s.rings.causes ∧ z.rings.openDims = s.rings.openDims := by
  induction m with
  | nil => exact fun s => ⟨fun d h => h.resolve_left (by simp), rfl, rfl⟩
  | cons a m ih =>
    intro s z
    obtain ⟨h1, h2, h3⟩ := ih (setRPort s a fun p => { p with st := pDown, lanes := 0, peerValid := false })
    refine ⟨fun d h => h1 d ?_, by rw [setRPort_rings] at h2; exact h2, by rw [setRPort_rings] at h3; exact h3⟩
    by_cases e : d = a
    · subst e; right; rw [rport_set]
    · rw [rport_set_ne _ _ _ _ e]
      rcases h with h | h
      · left; simpa [e] using h
      · exact Or.inr h

/-- What of the rings no message that leaves or waits changes: every port's state, the tokens sent, and the ring map. -/
structure PortsStay (a b : State) : Prop where
  port   : ∀ d, { rport b d with rseq := 0, kept := [], used := [], input := [] } = { rport a d with rseq := 0, kept := [], used := [], input := [] }
  floods : b.rings.floods = a.rings.floods
  map_   : b.rings.map_ = a.rings.map_
theorem PortsStay.refl (a : State) : PortsStay a a := ⟨fun _ => rfl, rfl, rfl⟩
theorem PortsStay.trans {a b c : State} (x : PortsStay a b) (y : PortsStay b c) : PortsStay a c :=
  ⟨fun d => (y.port d).trans (x.port d), y.floods.trans x.floods, y.map_.trans x.map_⟩
theorem PortsStay.of {a b : State} (p : b.rings.ports = a.rings.ports) (f : b.rings.floods = a.rings.floods) (m : b.rings.map_ = a.rings.map_) : PortsStay a b :=
  ⟨fun d => by rw [rport_congr p], f, m⟩
theorem PortsStay.set (s : State) (e : Nat) (f : RPort → RPort)
    (h : ∀ p, { f p with rseq := 0, kept := [], used := [], input := [] } = { p with rseq := 0, kept := [], used := [], input := [] }) : PortsStay s (setRPort s e f) := by
  refine ⟨fun d => ?_, by rw [setRPort_rings], by rw [setRPort_rings]⟩
  by_cases q : d = e
  · subst q; rw [rport_set]; exact h _
  · rw [rport_set_ne _ _ _ _ q]
theorem leave_stays {s t : State} {link : Nat} {f : RingFrame} (h : leave s link f = some t) : PortsStay s t := by
  have T : ∀ z g, PortsStay z (transmit z link g) := fun z g => PortsStay.set z link _ fun _ => rfl
  have E : ∀ z l m, PortsStay z (setEgress z l m) := fun z l m => .of rfl rfl rfl
  have L : ∀ z r, PortsStay z (loseRemote z r false) := by
    intro z r
    unfold loseRemote
    dsimp only
    have A := answered_same (g₀ := { free := true, regs := true, qm := true, sounds := true, seqNo := true }) (key := reqWait r.die r.tag) (st := stLinkLost) (late := false)
      (bump_same (die := r.dst) (off := 0x10030) (sel := 0) (Same.refl _ (dropFrame (closeReq z r.die r.tag) r.die r.tag)) rfl rfl rfl) rfl rfl
    have R := A.rings rfl
    exact .of (by rw [if_neg (by simp), R]; rfl) (by rw [if_neg (by simp), R]; rfl) (by rw [if_neg (by simp), R]; rfl)
  have I : ∀ z d g, PortsStay z (sendInside z d g) := by
    intro z d g
    have R := (sendInside_same (g₀ := { gz := true }) (rDie := d) (f := g) (Same.refl _ z) rfl).rings rfl
    exact .of (by rw [R]) (by rw [R]) (by rw [R])
  unfold leave at h
  extract_lets t' g at h
  have e : PortsStay s t' := E ..
  split at h
  · cases h; exact .refl _
  · split at h
    · split at h
      · cases h; exact e.trans (T ..)
      · cases h
    · split at h
      · cases h
      · split at h
        · cases h; split
          · exact e.trans (L ..)
          · exact e
        · split at h
          · split at h
            · cases h; exact e.trans (E ..)
            · split at h
              · cases h; exact e.trans (T ..)
              · cases h
          · cases h
            split
            · exact e
            · split
              · exact e.trans (I ..)
              · exact e.trans (PortsStay.set _ _ _ fun _ => rfl)
/-- Messages that leave a link die, or wait there, change no port's state (R366, R375). -/
theorem pumpLink_stays (s : State) (link : Nat) : PortsStay s (pumpLink s link) := by
  have key : ∀ (l : List RingFrame) (full : List Nat) (s : State), PortsStay s (pumpFrames link l full s) := by
    intro l; induction l with
    | nil => exact fun _ s => .refl s
    | cons f l ih =>
      intro full s
      unfold pumpFrames
      dsimp only
      split
      · exact ih ..
      · cases h : leave s link f with
        | some t => exact (leave_stays h).trans (ih ..)
        | none => exact ih ..
  exact key _ _ s

end Sys2Proof.Machine
end

