-- ==== Sys2Proof/Laws/SameF32.lean ====
section
/-!
SUPPORT. What the definitions of Machine/F32.lean may change (Laws/Same.lean).
-/

set_option linter.all false

namespace Sys2Proof.Machine

open Sys2Proof

theorem freeVal_same {r₀ : State} {g₀ : Groups} {s : State} (h1 : Same g₀ r₀ s) (m_free : g₀.free = true)
    : Same g₀ r₀ (freeVal s).2 := by
  unfold freeVal
  repeat' first
    | with_reducible assumption | intro _ | with_reducible apply State.took_same | with_reducible apply ite_same
    | with_reducible apply ite_same_snd | with_reducible apply foldl_same | with_reducible apply foldl_same_snd
    | (refine Same.ofSnd (by assumption) ?_) | dsimp only | split

end Sys2Proof.Machine
end

