-- ==== Sys2Proof/Laws/SameLedger.lean ====
section
/-!
SUPPORT. What the definitions of Machine/Ledger.lean may change (Laws/Same.lean).
-/

set_option linter.all false

namespace Sys2Proof.Machine

open Sys2Proof

theorem sendDense_same {r₀ : State} {g₀ : Groups} {s : State} {h : Hdr} {o : LedgerAddOp} {j : Nat} {x19}
    (e₀ : sendDense s h o j = some x19) (h1 : Same g₀ r₀ s) (m_free : g₀.free = true) (m_pkg : g₀.pkg = true)
    (m_regs : g₀.regs = true) (m_gz : g₀.gz = true) (m_mu : g₀.mu = true) (m_qm : g₀.qm = true) (m_rings : g₀.rings = true)
    (m_sounds : g₀.sounds = true) (m_seqNo : g₀.seqNo = true) : Same g₀ r₀ x19 := by
  unfold sendDense at e₀
  repeat' first | contradiction | (injection e₀ with e₀; subst e₀) | dsimp only at e₀ | (split at e₀)
  repeat' first
    | with_reducible assumption | intro _ | with_reducible apply bumpBy_same | with_reducible apply sendAdd_same
    | with_reducible apply noteLoss_same | with_reducible apply requestRemote_same | with_reducible apply openReq_same
    | with_reducible apply State.onQm_same | with_reducible apply ite_same | with_reducible apply foldl_same
    | (refine Same.ofSnd (by assumption) ?_) | dsimp only | split

theorem copyEntries_same {r₀ : State} {g₀ : Groups} {s : State} {lo ln t row region entries : Nat} {x42}
    (e₀ : copyEntries s lo ln t row region entries = some x42) (h1 : Same g₀ r₀ s) (m_mu : g₀.mu = true) : Same g₀ r₀ x42 := by
  unfold copyEntries at e₀
  split at e₀
  · cases e₀; exact h1
  · obtain ⟨u, e, rfl⟩ := Option.map_eq_some_iff.mp e₀
    have k : Same g₀ r₀ u := by
      refine foldl_bind_same e h1 fun s b t e k => ?_
      dsimp only at e
      split at e
      · cases e; exact k
      · split at e
        · exact absurd e (by simp)
        · rw [← Option.some.inj e]; exact State.onMu_same k m_mu
    apply rowEntries_same k <;> assumption

theorem execMigrationAbandon_same {r₀ : State} {g₀ : Groups} {owner table row : Nat} {s : State} {t₀}
    (e₀ : execMigrationAbandon owner table row s = .next t₀) (h4 : Same g₀ r₀ s) (m_free : g₀.free = true)
    (m_regs : g₀.regs = true) (m_gz : g₀.gz = true) (m_mu : g₀.mu = true) (m_qm : g₀.qm = true) (m_sounds : g₀.sounds = true)
    (m_seqNo : g₀.seqNo = true) : Same g₀ r₀ t₀ := by
  unfold execMigrationAbandon at e₀
  repeat' first | contradiction | (injection e₀ with e₀; subst e₀) | dsimp only at e₀ | (split at e₀)
  repeat' first
    | with_reducible assumption | intro _ | with_reducible apply abandonMove_same | with_reducible apply finishSeals_same
    | with_reducible apply ite_same | with_reducible apply foldl_same | (refine Same.ofSnd (by assumption) ?_) | dsimp only
    | split

theorem startInvalidation_same {r₀ : State} {g₀ : Groups} {s : State} {k : Nat} (h1 : Same g₀ r₀ s) (m_mu : g₀.mu = true)
    : Same g₀ r₀ (startInvalidation s k) := by
  unfold startInvalidation
  repeat' first
    | with_reducible assumption | intro _ | with_reducible apply State.onMu_same | with_reducible apply ite_same
    | with_reducible apply foldl_same | (refine Same.ofSnd (by assumption) ?_) | dsimp only | split

theorem retryPatches_same {r₀ : State} {g₀ : Groups} {s : State} {k : Nat} (h1 : Same g₀ r₀ s) (m_regs : g₀.regs = true)
    (m_gz : g₀.gz = true) (m_mu : g₀.mu = true) (m_sounds : g₀.sounds = true) (m_seqNo : g₀.seqNo = true)
    : Same g₀ r₀ (retryPatches s k) := by
  unfold retryPatches
  repeat' first
    | with_reducible assumption | intro _ | with_reducible apply startPatch_same | with_reducible apply ite_same
    | with_reducible apply foldl_same | (refine Same.ofSnd (by assumption) ?_) | dsimp only | split

theorem abandonDraining_same {r₀ : State} {g₀ : Groups} {s : State} {k : Nat} (h1 : Same g₀ r₀ s) (m_free : g₀.free = true)
    (m_regs : g₀.regs = true) (m_gz : g₀.gz = true) (m_mu : g₀.mu = true) (m_qm : g₀.qm = true) (m_sounds : g₀.sounds = true)
    (m_seqNo : g₀.seqNo = true) : Same g₀ r₀ (abandonDraining s k) := by
  unfold abandonDraining
  repeat' first
    | with_reducible assumption | intro _ | with_reducible apply abandonMove_same | with_reducible apply ite_same
    | with_reducible apply foldl_same | (refine Same.ofSnd (by assumption) ?_) | dsimp only | split

theorem dropLost_same {r₀ : State} {g₀ : Groups} {s : State} {k n : Nat} (h1 : Same g₀ r₀ s) (m_regs : g₀.regs = true)
    (m_gz : g₀.gz = true) (m_mu : g₀.mu = true) (m_seq : g₀.seq = true) (m_sounds : g₀.sounds = true) (m_seqNo : g₀.seqNo = true)
    : Same g₀ r₀ (dropLost s k n) := by
  unfold dropLost
  repeat' first
    | with_reducible assumption | intro _ | with_reducible apply State.onMu_same | with_reducible apply flagPending_same
    | with_reducible apply bumpBy_same | with_reducible apply reportLate_same | with_reducible apply ite_same
    | with_reducible apply foldl_same | (refine Same.ofSnd (by assumption) ?_) | dsimp only | split

theorem sealNow_same {r₀ : State} {g₀ : Groups} {s : State} {k : Nat} {h : Hdr} (h1 : Same g₀ r₀ s) (m_free : g₀.free = true)
    (m_regs : g₀.regs = true) (m_gz : g₀.gz = true) (m_mu : g₀.mu = true) (m_qm : g₀.qm = true) (m_seq : g₀.seq = true)
    (m_sounds : g₀.sounds = true) (m_seqNo : g₀.seqNo = true) : Same g₀ r₀ (sealNow s k h) := by
  unfold sealNow
  repeat' first
    | with_reducible assumption | intro _ | with_reducible apply State.onMu_same | with_reducible apply startInvalidation_same
    | with_reducible apply retryPatches_same | with_reducible apply abandonDraining_same | with_reducible apply finishSeals_same
    | with_reducible apply dropLost_same | with_reducible apply ite_same | with_reducible apply foldl_same
    | (refine Same.ofSnd (by assumption) ?_) | dsimp only | split

theorem execSealTakesEffect_same {r₀ : State} {g₀ : Groups} {muslin : Nat} {s : State} {t₀}
    (e₀ : execSealTakesEffect muslin s = .next t₀) (h2 : Same g₀ r₀ s) (m_free : g₀.free = true) (m_regs : g₀.regs = true)
    (m_gz : g₀.gz = true) (m_mu : g₀.mu = true) (m_qm : g₀.qm = true) (m_seq : g₀.seq = true) (m_sounds : g₀.sounds = true)
    (m_seqNo : g₀.seqNo = true) : Same g₀ r₀ t₀ := by
  unfold execSealTakesEffect at e₀
  repeat' first | contradiction | (injection e₀ with e₀; subst e₀) | dsimp only at e₀ | (split at e₀)
  repeat' first
    | with_reducible assumption | intro _ | with_reducible apply State.onMu_same | with_reducible apply sealNow_same
    | with_reducible apply complete_same | with_reducible apply ite_same | with_reducible apply foldl_same
    | (refine Same.ofSnd (by assumption) ?_) | dsimp only | split

theorem releaseQueued_same {r₀ : State} {g₀ : Groups} {k ln : Nat} {sealed : Bool} {row : Nat} {s : State} {m : AddMsg}
    (h5 : Same g₀ r₀ s) (m_regs : g₀.regs = true) (m_gz : g₀.gz = true) (m_mu : g₀.mu = true) (m_sounds : g₀.sounds = true)
    (m_seqNo : g₀.seqNo = true) : Same g₀ r₀ (releaseQueued k ln sealed row s m) := by
  unfold releaseQueued
  repeat' first
    | with_reducible assumption | intro _ | with_reducible apply bump_same | with_reducible apply forwardAdd_same
    | with_reducible apply placeRow_same | with_reducible apply answerAdd_same | with_reducible apply ite_same
    | with_reducible apply ite_same_snd | with_reducible apply foldl_same | with_reducible apply foldl_same_snd
    | (refine Same.ofSnd (by assumption) ?_) | dsimp only | split

theorem switchRow_same {r₀ : State} {g₀ : Groups} {s : State} {k t row : Nat} {e : DirEntry} (h1 : Same g₀ r₀ s)
    (m_free : g₀.free = true) (m_regs : g₀.regs = true) (m_gz : g₀.gz = true) (m_mu : g₀.mu = true) (m_qm : g₀.qm = true)
    (m_sounds : g₀.sounds = true) (m_seqNo : g₀.seqNo = true) : Same g₀ r₀ (switchRow s k t row e) := by
  unfold switchRow
  repeat' first
    | with_reducible assumption | intro _ | with_reducible apply bump_same | with_reducible apply finishSeals_same
    | with_reducible apply complete_same | with_reducible apply releaseQueued_same | with_reducible apply setDir_same
    | with_reducible apply closeRow_same | with_reducible apply ite_same | with_reducible apply foldl_same
    | (refine Same.ofSnd (by assumption) ?_) | dsimp only | split

theorem rewriteRow_same {r₀ : State} {g₀ : Groups} {s : State} {k t row : Nat} {bs : List Byte} (h1 : Same g₀ r₀ s)
    (m_mem : g₀.mem = true) (m_regs : g₀.regs = true) (m_gz : g₀.gz = true) (m_mu : g₀.mu = true) (m_sv : g₀.sv = true)
    (m_i3c : g₀.i3c = true) (m_sounds : g₀.sounds = true) (m_seqNo : g₀.seqNo = true) : Same g₀ r₀ (rewriteRow s k t row bs) := by
  unfold rewriteRow
  repeat' first
    | with_reducible assumption | intro _ | with_reducible apply State.onMu_same | with_reducible apply writeMem_same
    | with_reducible apply clearPoison_same | with_reducible apply storeDir_same | with_reducible apply ite_same
    | with_reducible apply foldl_same | (refine Same.ofSnd (by assumption) ?_) | dsimp only | split

theorem execSwitchMsg_same {r₀ : State} {g₀ : Groups} {owner table row : Nat} {s : State} {t₀}
    (e₀ : execSwitchMsg owner table row s = .next t₀) (h4 : Same g₀ r₀ s) (m_mu : g₀.mu = true) : Same g₀ r₀ t₀ := by
  unfold execSwitchMsg at e₀
  repeat' first | contradiction | (injection e₀ with e₀; subst e₀) | dsimp only at e₀ | (split at e₀)
  repeat' first
    | with_reducible assumption | intro _ | with_reducible apply setDir_same | with_reducible apply ite_same
    | with_reducible apply foldl_same | (refine Same.ofSnd (by assumption) ?_) | dsimp only | split

theorem runRestore_same {r₀ : State} {g₀ : Groups} {s : State} {h : Hdr} {k t row a : Nat} {keepPending : Bool}
    (h1 : Same g₀ r₀ s) (m_free : g₀.free = true) (m_pkg : g₀.pkg = true) (m_mem : g₀.mem = true) (m_regs : g₀.regs = true)
    (m_gz : g₀.gz = true) (m_mu : g₀.mu = true) (m_qm : g₀.qm = true) (m_rings : g₀.rings = true) (m_twin : g₀.twin = true)
    (m_sv : g₀.sv = true) (m_i3c : g₀.i3c = true) (m_sounds : g₀.sounds = true) (m_seqNo : g₀.seqNo = true)
    : Same g₀ r₀ (runRestore s h k t row a keepPending) := by
  unfold runRestore
  repeat' first
    | with_reducible assumption | intro _ | with_reducible apply State.onMu_same | with_reducible apply flagPending_same
    | with_reducible apply rewriteRow_same | with_reducible apply finish_same | with_reducible apply checkRead_same
    | with_reducible apply journalWrite_same | with_reducible apply complete_same | with_reducible apply ite_same
    | with_reducible apply ite_same_snd | with_reducible apply foldl_same | with_reducible apply foldl_same_snd
    | (refine Same.ofSnd (by assumption) ?_) | dsimp only | split

theorem execMuRowRestore_same {r₀ : State} {g₀ : Groups} {h : Hdr} {muslin : Nat} {keepPending : Bool} {table row srcDa : Nat}
    {s : State} {t₀} (e₀ : execMuRowRestore h muslin keepPending table row srcDa s = .next t₀) (h7 : Same g₀ r₀ s)
    (m_free : g₀.free = true) (m_pkg : g₀.pkg = true) (m_mem : g₀.mem = true) (m_regs : g₀.regs = true) (m_gz : g₀.gz = true)
    (m_mu : g₀.mu = true) (m_qm : g₀.qm = true) (m_rings : g₀.rings = true) (m_twin : g₀.twin = true) (m_sv : g₀.sv = true)
    (m_i3c : g₀.i3c = true) (m_sounds : g₀.sounds = true) (m_seqNo : g₀.seqNo = true) : Same g₀ r₀ t₀ := by
  unfold execMuRowRestore at e₀
  repeat' first | contradiction | (injection e₀ with e₀; subst e₀) | dsimp only at e₀ | (split at e₀)
  repeat' first
    | with_reducible assumption | intro _ | with_reducible apply runRestore_same | with_reducible apply complete_same
    | with_reducible apply runDesc_same | with_reducible apply ite_same | with_reducible apply foldl_same
    | (refine Same.ofSnd (by assumption) ?_) | dsimp only | split

theorem execMoveDone_same {r₀ : State} {g₀ : Groups} {owner table row : Nat} {s : State} {t₀}
    (e₀ : execMoveDone owner table row s = .next t₀) (h4 : Same g₀ r₀ s) (m_free : g₀.free = true) (m_regs : g₀.regs = true)
    (m_gz : g₀.gz = true) (m_mu : g₀.mu = true) (m_qm : g₀.qm = true) (m_sounds : g₀.sounds = true) (m_seqNo : g₀.seqNo = true)
    : Same g₀ r₀ t₀ := by
  unfold execMoveDone at e₀
  repeat' first | contradiction | (injection e₀ with e₀; subst e₀) | dsimp only at e₀ | (split at e₀)
  repeat' first
    | with_reducible assumption | intro _ | with_reducible apply switchRow_same | with_reducible apply ite_same
    | with_reducible apply foldl_same | (refine Same.ofSnd (by assumption) ?_) | dsimp only | split

theorem sendAdds_same {r₀ : State} {g₀ : Groups} {s : State} {h : Hdr} {o : LedgerAddOp} {a3 a4 : Nat} (h1 : Same g₀ r₀ s)
    (m_free : g₀.free = true) (m_pkg : g₀.pkg = true) (m_regs : g₀.regs = true) (m_gz : g₀.gz = true) (m_mu : g₀.mu = true)
    (m_qm : g₀.qm = true) (m_rings : g₀.rings = true) (m_sounds : g₀.sounds = true) (m_seqNo : g₀.seqNo = true)
    : Same g₀ r₀ (sendAdds s h o a3 a4) := by
  induction a3 generalizing s a4 with
  | zero =>
    unfold sendAdds
    repeat' first
      | with_reducible assumption | intro _ | with_reducible apply countLost_same | with_reducible apply State.onMu_same
      | with_reducible apply endAdds_same | with_reducible apply ite_same | with_reducible apply foldl_same
      | (with_reducible refine sendDense_same (by assumption) ?_ ?_ ?_ ?_ ?_ ?_ ?_ ?_ ?_ ?_)
      | (refine Same.ofSnd (by assumption) ?_) | dsimp only | split
  | succ _ ih =>
    unfold sendAdds
    repeat' first
      | with_reducible assumption | intro _ | with_reducible apply ih | with_reducible apply countLost_same
      | with_reducible apply State.onMu_same | with_reducible apply endAdds_same | with_reducible apply ite_same
      | with_reducible apply foldl_same | (with_reducible refine sendDense_same (by assumption) ?_ ?_ ?_ ?_ ?_ ?_ ?_ ?_ ?_ ?_)
      | (refine Same.ofSnd (by assumption) ?_) | dsimp only | split

theorem copyRow_same {r₀ : State} {g₀ : Groups} {s : State} {k t row : Nat} {e : DirEntry} {tr : Rec} (h1 : Same g₀ r₀ s)
    (m_free : g₀.free = true) (m_mem : g₀.mem = true) (m_regs : g₀.regs = true) (m_gz : g₀.gz = true) (m_mu : g₀.mu = true)
    (m_qm : g₀.qm = true) (m_sv : g₀.sv = true) (m_i3c : g₀.i3c = true) (m_sounds : g₀.sounds = true) (m_seqNo : g₀.seqNo = true)
    : Same g₀ r₀ (copyRow s k t row e tr) := by
  unfold copyRow
  repeat' first
    | with_reducible assumption | intro _ | with_reducible apply writeMem_same | with_reducible apply abandonMove_same
    | with_reducible apply markPoisoned_same | with_reducible apply finishSeals_same | with_reducible apply checkRead_same
    | with_reducible apply setDir_same | with_reducible apply ite_same | with_reducible apply ite_same_snd
    | with_reducible apply foldl_same | with_reducible apply foldl_same_snd
    | (with_reducible refine copyEntries_same (by assumption) ?_ ?_) | (refine Same.ofSnd (by assumption) ?_) | dsimp only | split

theorem execMoveStart_same {r₀ : State} {g₀ : Groups} {owner table row : Nat} {s : State} {t₀}
    (e₀ : execMoveStart owner table row s = .next t₀) (h4 : Same g₀ r₀ s) (m_free : g₀.free = true) (m_mem : g₀.mem = true)
    (m_regs : g₀.regs = true) (m_gz : g₀.gz = true) (m_mu : g₀.mu = true) (m_qm : g₀.qm = true) (m_sv : g₀.sv = true)
    (m_i3c : g₀.i3c = true) (m_sounds : g₀.sounds = true) (m_seqNo : g₀.seqNo = true) : Same g₀ r₀ t₀ := by
  unfold execMoveStart at e₀
  repeat' first | contradiction | (injection e₀ with e₀; subst e₀) | dsimp only at e₀ | (split at e₀)
  repeat' first
    | with_reducible assumption | intro _ | with_reducible apply copyRow_same | with_reducible apply ite_same
    | with_reducible apply foldl_same | (refine Same.ofSnd (by assumption) ?_) | dsimp only | split

theorem landAdd_same {r₀ : State} {g₀ : Groups} {s : State} {m : AddMsg} (h1 : Same g₀ r₀ s) (m_free : g₀.free = true)
    (m_pkg : g₀.pkg = true) (m_regs : g₀.regs = true) (m_gz : g₀.gz = true) (m_mu : g₀.mu = true) (m_qm : g₀.qm = true)
    (m_seq : g₀.seq = true) (m_rings : g₀.rings = true) (m_sounds : g₀.sounds = true) (m_seqNo : g₀.seqNo = true)
    : Same g₀ r₀ (landAdd s m) := by
  unfold landAdd
  repeat' first
    | with_reducible assumption | intro _ | with_reducible apply leaveGauze_same | with_reducible apply routeAdd_same
    | with_reducible apply holdAdd_same | with_reducible apply takeAdd_same | with_reducible apply answerAdd_same
    | with_reducible apply ite_same | with_reducible apply ite_same_snd | with_reducible apply foldl_same
    | with_reducible apply foldl_same_snd | (refine Same.ofSnd (by assumption) ?_) | dsimp only | split

theorem execAtomicAdd_same {r₀ : State} {g₀ : Groups} {m : AddMsg} {s : State} {t₀} (e₀ : execAtomicAdd m s = .next t₀)
    (h2 : Same g₀ r₀ s) (m_free : g₀.free = true) (m_pkg : g₀.pkg = true) (m_regs : g₀.regs = true) (m_gz : g₀.gz = true)
    (m_mu : g₀.mu = true) (m_qm : g₀.qm = true) (m_seq : g₀.seq = true) (m_rings : g₀.rings = true) (m_sv : g₀.sv = true)
    (m_i3c : g₀.i3c = true) (m_sounds : g₀.sounds = true) (m_seqNo : g₀.seqNo = true) : Same g₀ r₀ t₀ := by
  unfold execAtomicAdd at e₀
  repeat' first | contradiction | (injection e₀ with e₀; subst e₀) | dsimp only at e₀ | (split at e₀)
  repeat' first
    | with_reducible assumption | intro _ | with_reducible apply landAdd_same | with_reducible apply arriveAdd_same
    | with_reducible apply ite_same | with_reducible apply ite_same_snd | with_reducible apply foldl_same
    | with_reducible apply foldl_same_snd | (refine Same.ofSnd (by assumption) ?_) | dsimp only | split

theorem startMove_same {r₀ : State} {g₀ : Groups} {s : State} {k t row a : Nat} {waiter : Option Hdr} {pageIn : Bool}
    (h1 : Same g₀ r₀ s) (m_mu : g₀.mu = true) : Same g₀ r₀ (startMove s k t row a waiter pageIn) := by
  unfold startMove
  repeat' first
    | with_reducible assumption | intro _ | with_reducible apply setDir_same | with_reducible apply ite_same
    | with_reducible apply foldl_same | (refine Same.ofSnd (by assumption) ?_) | dsimp only | split

theorem runAdd_same {r₀ : State} {g₀ : Groups} {s : State} {h : Hdr} {o : LedgerAddOp} (h1 : Same g₀ r₀ s)
    (m_free : g₀.free = true) (m_pkg : g₀.pkg = true) (m_mem : g₀.mem = true) (m_regs : g₀.regs = true) (m_gz : g₀.gz = true)
    (m_mu : g₀.mu = true) (m_qm : g₀.qm = true) (m_rings : g₀.rings = true) (m_sv : g₀.sv = true) (m_i3c : g₀.i3c = true)
    (m_sounds : g₀.sounds = true) (m_seqNo : g₀.seqNo = true) : Same g₀ r₀ (runAdd s h o) := by
  unfold runAdd
  repeat' first
    | with_reducible assumption | intro _ | with_reducible apply checkReads_same | with_reducible apply complete_same
    | with_reducible apply sendAdds_same | with_reducible apply waitFor_same | with_reducible apply ite_same
    | with_reducible apply ite_same_snd | with_reducible apply foldl_same | with_reducible apply foldl_same_snd
    | (refine Same.ofSnd (by assumption) ?_) | dsimp only | split

theorem execMuSeal_same {r₀ : State} {g₀ : Groups} {h : Hdr} {muslin expectStep : Nat} {s : State} {t₀}
    (e₀ : execMuSeal h muslin expectStep s = .next t₀) (h4 : Same g₀ r₀ s) (m_free : g₀.free = true) (m_mu : g₀.mu = true)
    (m_qm : g₀.qm = true) : Same g₀ r₀ t₀ := by
  unfold execMuSeal at e₀
  repeat' first | contradiction | (injection e₀ with e₀; subst e₀) | dsimp only at e₀ | (split at e₀)
  repeat' first
    | with_reducible assumption | intro _ | with_reducible apply State.onMu_same | with_reducible apply markStarted_same
    | with_reducible apply complete_same | with_reducible apply runDesc_same | with_reducible apply ite_same
    | with_reducible apply foldl_same | (refine Same.ofSnd (by assumption) ?_) | dsimp only | split

theorem execMuMigrate_same {r₀ : State} {g₀ : Groups} {h : Hdr} {muslin table row targetDa : Nat} {s : State} {t₀}
    (e₀ : execMuMigrate h muslin table row targetDa s = .next t₀) (h6 : Same g₀ r₀ s) (m_free : g₀.free = true)
    (m_mu : g₀.mu = true) (m_qm : g₀.qm = true) : Same g₀ r₀ t₀ := by
  unfold execMuMigrate at e₀
  repeat' first | contradiction | (injection e₀ with e₀; subst e₀) | dsimp only at e₀ | (split at e₀)
  repeat' first
    | with_reducible assumption | intro _ | with_reducible apply markStarted_same | with_reducible apply complete_same
    | with_reducible apply runDesc_same | with_reducible apply startMove_same | with_reducible apply ite_same
    | with_reducible apply foldl_same | (refine Same.ofSnd (by assumption) ?_) | dsimp only | split

theorem execMuLedgerAdd_same {r₀ : State} {g₀ : Groups} {h : Hdr} {op : LedgerAddOp} {s : State} {t₀}
    (e₀ : execMuLedgerAdd h op s = .next t₀) (h3 : Same g₀ r₀ s) (m_free : g₀.free = true) (m_pkg : g₀.pkg = true)
    (m_mem : g₀.mem = true) (m_regs : g₀.regs = true) (m_gz : g₀.gz = true) (m_mu : g₀.mu = true) (m_qm : g₀.qm = true)
    (m_rings : g₀.rings = true) (m_sv : g₀.sv = true) (m_i3c : g₀.i3c = true) (m_sounds : g₀.sounds = true)
    (m_seqNo : g₀.seqNo = true) : Same g₀ r₀ t₀ := by
  unfold execMuLedgerAdd at e₀
  repeat' first | contradiction | (injection e₀ with e₀; subst e₀) | dsimp only at e₀ | (split at e₀)
  repeat' first
    | with_reducible assumption | intro _ | with_reducible apply countLost_same | with_reducible apply runAdd_same
    | with_reducible apply complete_same | with_reducible apply sendAdds_same | with_reducible apply runDesc_same
    | with_reducible apply ite_same | with_reducible apply foldl_same | (refine Same.ofSnd (by assumption) ?_) | dsimp only
    | split

theorem execMigrationMoving_same {r₀ : State} {g₀ : Groups} {owner table row : Nat} {s : State} {t₀}
    (e₀ : execMigrationMoving owner table row s = .next t₀) (h4 : Same g₀ r₀ s) (m_gz : g₀.gz = true) (m_mu : g₀.mu = true)
    : Same g₀ r₀ t₀ := by
  unfold execMigrationMoving at e₀
  repeat' first | contradiction | (injection e₀ with e₀; subst e₀) | dsimp only at e₀ | (split at e₀)
  repeat' first
    | with_reducible assumption | intro _ | with_reducible apply setDir_same | with_reducible apply openReq_same
    | with_reducible apply ite_same | with_reducible apply foldl_same | (refine Same.ofSnd (by assumption) ?_) | dsimp only
    | split

theorem execForwardingEnd_same {r₀ : State} {g₀ : Groups} {owner table row : Nat} {s : State} {t₀}
    (e₀ : execForwardingEnd owner table row s = .next t₀) (h4 : Same g₀ r₀ s) (m_regs : g₀.regs = true) (m_gz : g₀.gz = true)
    (m_mu : g₀.mu = true) (m_sounds : g₀.sounds = true) (m_seqNo : g₀.seqNo = true) : Same g₀ r₀ t₀ := by
  unfold execForwardingEnd at e₀
  repeat' first | contradiction | (injection e₀ with e₀; subst e₀) | dsimp only at e₀ | (split at e₀)
  repeat' first
    | with_reducible assumption | intro _ | with_reducible apply rowEntries_same | with_reducible apply storeDir_same
    | with_reducible apply ite_same | with_reducible apply foldl_same | (refine Same.ofSnd (by assumption) ?_) | dsimp only
    | split

end Sys2Proof.Machine
end

