-- ==== Sys2Proof/Laws/SameOptimizer.lean ====
section
/-!
SUPPORT. What the definitions of Machine/Optimizer.lean may change (Laws/Same.lean).
-/

set_option linter.all false

namespace Sys2Proof.Machine

open Sys2Proof

theorem momentVal_same {r₀ : State} {g₀ : Groups} {s : State} {v : Val} (h1 : Same g₀ r₀ s) (m_free : g₀.free = true)
    : Same g₀ r₀ (momentVal s v).2 := by
  unfold momentVal
  repeat' first
    | with_reducible assumption | intro _ | with_reducible apply freeVal_same | with_reducible apply ite_same
    | with_reducible apply ite_same_snd | with_reducible apply foldl_same | with_reducible apply foldl_same_snd
    | (refine Same.ofSnd (by assumption) ?_) | dsimp only | split

theorem momentVals_same {r₀ : State} {g₀ : Groups} {s : State} {a1 : List Val} (h1 : Same g₀ r₀ s) (m_free : g₀.free = true)
    : Same g₀ r₀ (momentVals s a1).2 := by
  induction a1 generalizing s with
  | nil =>
    unfold momentVals
    repeat' first
      | with_reducible assumption | intro _ | with_reducible apply momentVal_same | with_reducible apply ite_same
      | with_reducible apply ite_same_snd | with_reducible apply foldl_same | with_reducible apply foldl_same_snd
      | (refine Same.ofSnd (by assumption) ?_) | dsimp only | split
  | cons _ _ ih =>
    unfold momentVals
    repeat' first
      | with_reducible assumption | intro _ | with_reducible apply ih | with_reducible apply momentVal_same
      | with_reducible apply ite_same | with_reducible apply ite_same_snd | with_reducible apply foldl_same
      | with_reducible apply foldl_same_snd | (refine Same.ofSnd (by assumption) ?_) | dsimp only | split

theorem srList_same {r₀ : State} {g₀ : Groups} {s : State} {k spec : Nat} {scs : List Nat} {vs : List Val} (h1 : Same g₀ r₀ s)
    (m_free : g₀.free = true) (m_tw : g₀.tw = true) : Same g₀ r₀ (srList s k spec scs vs).2 := by
  unfold srList
  repeat' first
    | with_reducible assumption | intro _ | with_reducible apply convList_same | with_reducible apply ite_same
    | with_reducible apply ite_same_snd | with_reducible apply foldl_same | with_reducible apply foldl_same_snd
    | (refine Same.ofSnd (by assumption) ?_) | dsimp only | split

theorem rowMoment_same {r₀ : State} {g₀ : Groups} {s : State} {k : Nat} {p : Params} {steps w : Nat} {side : List Byte}
    {gf : List Val} (h1 : Same g₀ r₀ s) (m_free : g₀.free = true) (m_tw : g₀.tw = true)
    : Same g₀ r₀ (rowMoment s k p steps w side gf).2 := by
  unfold rowMoment
  repeat' first
    | with_reducible assumption | intro _ | with_reducible apply momentVals_same | with_reducible apply srList_same
    | with_reducible apply ite_same | with_reducible apply ite_same_snd | with_reducible apply foldl_same
    | with_reducible apply foldl_same_snd | (refine Same.ofSnd (by assumption) ?_) | dsimp only | split

theorem rowSecond_same {r₀ : State} {g₀ : Groups} {s : State} {k : Nat} {p : Params} {w v2 : Nat} {gf : List Val}
    (h1 : Same g₀ r₀ s) (m_free : g₀.free = true) (m_tw : g₀.tw = true) : Same g₀ r₀ (rowSecond s k p w v2 gf).2 := by
  unfold rowSecond
  repeat' first
    | with_reducible assumption | intro _ | with_reducible apply momentVal_same | with_reducible apply convElem_same
    | with_reducible apply ite_same | with_reducible apply ite_same_snd | with_reducible apply foldl_same
    | with_reducible apply foldl_same_snd | (refine Same.ofSnd (by assumption) ?_) | dsimp only | split

theorem codeGrads_same {r₀ : State} {g₀ : Groups} {s : State} {k : Nat} {gs : List Val} (h1 : Same g₀ r₀ s)
    (m_free : g₀.free = true) (m_tw : g₀.tw = true) : Same g₀ r₀ (codeGrads s k gs).2 := by
  unfold codeGrads
  repeat' first
    | with_reducible assumption | intro _ | with_reducible apply srList_same | with_reducible apply ite_same
    | with_reducible apply ite_same_snd | with_reducible apply foldl_same | with_reducible apply foldl_same_snd
    | (refine Same.ofSnd (by assumption) ?_) | dsimp only | split

theorem rowCodes_same {r₀ : State} {g₀ : Groups} {s : State} {k cmax : Nat} {sc of_ : Val} {a5 : Nat} {a6 : List Val}
    (h1 : Same g₀ r₀ s) (m_free : g₀.free = true) (m_tw : g₀.tw = true) : Same g₀ r₀ (rowCodes s k cmax sc of_ a5 a6).2 := by
  induction a6 generalizing s a5 with
  | nil =>
    unfold rowCodes
    repeat' first
      | with_reducible assumption | intro _ | with_reducible apply State.took_same | with_reducible apply draw_same
      | with_reducible apply ite_same | with_reducible apply ite_same_snd | with_reducible apply foldl_same
      | with_reducible apply foldl_same_snd | (refine Same.ofSnd (by assumption) ?_) | dsimp only | split
  | cons _ _ ih =>
    unfold rowCodes
    repeat' first
      | with_reducible assumption | intro _ | with_reducible apply ih | with_reducible apply State.took_same
      | with_reducible apply draw_same | with_reducible apply ite_same | with_reducible apply ite_same_snd
      | with_reducible apply foldl_same | with_reducible apply foldl_same_snd | (refine Same.ofSnd (by assumption) ?_) | dsimp only
      | split

theorem withCarried_same {r₀ : State} {g₀ : Groups} {s : State} {a1 : List (Val × Nat × Nat × Nat)} (h1 : Same g₀ r₀ s)
    (m_free : g₀.free = true) : Same g₀ r₀ (withCarried s a1).2 := by
  induction a1 generalizing s with
  | nil =>
    unfold withCarried
    repeat' first
      | with_reducible assumption | intro _ | with_reducible apply freeVal_same | with_reducible apply ite_same
      | with_reducible apply ite_same_snd | with_reducible apply foldl_same | with_reducible apply foldl_same_snd
      | (refine Same.ofSnd (by assumption) ?_) | dsimp only | split
  | cons _ _ ih =>
    unfold withCarried
    repeat' first
      | with_reducible assumption | intro _ | with_reducible apply ih | with_reducible apply freeVal_same
      | with_reducible apply ite_same | with_reducible apply ite_same_snd | with_reducible apply foldl_same
      | with_reducible apply foldl_same_snd | (refine Same.ofSnd (by assumption) ?_) | dsimp only | split

theorem newRow_same {r₀ : State} {g₀ : Groups} {s : State} {k : Nat} {tr : Rec} {p : Params} {steps : Nat} {b : Int}
    {xs : List Int} {rec_ side : List Byte} {sc of_ : Val} (h1 : Same g₀ r₀ s) (m_free : g₀.free = true) (m_regs : g₀.regs = true)
    (m_tw : g₀.tw = true) (m_sounds : g₀.sounds = true) (m_seqNo : g₀.seqNo = true)
    : Same g₀ r₀ (newRow s k tr p steps b xs rec_ side sc of_).2 := by
  unfold newRow
  repeat' first
    | with_reducible assumption | intro _ | with_reducible apply bump_same | with_reducible apply rowMoment_same
    | with_reducible apply rowSecond_same | with_reducible apply codeGrads_same | with_reducible apply rowCodes_same
    | with_reducible apply withCarried_same | with_reducible apply ite_same | with_reducible apply ite_same_snd
    | with_reducible apply foldl_same | with_reducible apply foldl_same_snd | (refine Same.ofSnd (by assumption) ?_) | dsimp only
    | split

theorem toPending_same {r₀ : State} {g₀ : Groups} {g : CloseRun} {k o t row : Nat} {e : Entry} (h1 : Same g₀ r₀ g.st)
    (m_mem : g₀.mem = true) (m_regs : g₀.regs = true) (m_gz : g₀.gz = true) (m_mu : g₀.mu = true) (m_sv : g₀.sv = true)
    (m_i3c : g₀.i3c = true) (m_sounds : g₀.sounds = true) (m_seqNo : g₀.seqNo = true)
    : Same g₀ r₀ (toPending g k o t row e).st := by
  unfold toPending
  repeat' first
    | with_reducible assumption | intro _ | with_reducible apply bump_same | with_reducible apply ite_same
    | with_reducible apply foldl_same | (with_reducible refine foldl_same_of CloseRun.st ?_ ?_)
    | (with_reducible refine pendEntry_same (by assumption) ?_ ?_ ?_ ?_ ?_ ?_ ?_ ?_ ?_) | (refine Same.ofSnd (by assumption) ?_)
    | dsimp only | split

theorem storeRow_same {r₀ : State} {g₀ : Groups} {s : State} {k o t row home da sda step : Nat} {out side : List Byte}
    (h1 : Same g₀ r₀ s) (m_free : g₀.free = true) (m_pkg : g₀.pkg = true) (m_mem : g₀.mem = true) (m_regs : g₀.regs = true)
    (m_gz : g₀.gz = true) (m_mu : g₀.mu = true) (m_qm : g₀.qm = true) (m_rings : g₀.rings = true) (m_twin : g₀.twin = true)
    (m_sv : g₀.sv = true) (m_i3c : g₀.i3c = true) (m_sounds : g₀.sounds = true) (m_seqNo : g₀.seqNo = true)
    : Same g₀ r₀ (storeRow s k o t row home da sda step out side) := by
  unfold storeRow
  repeat' first
    | with_reducible assumption | intro _ | with_reducible apply writeMem_same | with_reducible apply journalWrite_same
    | with_reducible apply setDir_same | with_reducible apply ite_same | with_reducible apply foldl_same
    | (refine Same.ofSnd (by assumption) ?_) | dsimp only | split

theorem optRow_same {r₀ : State} {g₀ : Groups} {s : State} {k t row : Nat} {tr sr : Rec} {p : Params} {steps step : Nat} {b : Int}
    {xs : List Int} (h1 : Same g₀ r₀ s) (m_free : g₀.free = true) (m_pkg : g₀.pkg = true) (m_mem : g₀.mem = true)
    (m_regs : g₀.regs = true) (m_gz : g₀.gz = true) (m_tw : g₀.tw = true) (m_mu : g₀.mu = true) (m_qm : g₀.qm = true)
    (m_rings : g₀.rings = true) (m_twin : g₀.twin = true) (m_sv : g₀.sv = true) (m_i3c : g₀.i3c = true)
    (m_sounds : g₀.sounds = true) (m_seqNo : g₀.seqNo = true) : Same g₀ r₀ (optRow s k t row tr sr p steps step b xs).2 := by
  unfold optRow
  repeat' first
    | with_reducible assumption | intro _ | with_reducible apply bumpBy_same | with_reducible apply storeRow_same
    | with_reducible apply checkRead_same | with_reducible apply newRow_same | with_reducible apply ite_same
    | with_reducible apply ite_same_snd | with_reducible apply foldl_same | with_reducible apply foldl_same_snd
    | (refine Same.ofSnd (by assumption) ?_) | dsimp only | split

theorem readWords_same {r₀ : State} {g₀ : Groups} {s : State} {k : Nat} {e : Entry} (h1 : Same g₀ r₀ s) (m_regs : g₀.regs = true)
    (m_sounds : g₀.sounds = true) (m_seqNo : g₀.seqNo = true) : Same g₀ r₀ (readWords s k e).2 := by
  unfold readWords
  repeat' first
    | with_reducible assumption | intro _ | with_reducible apply bumpBy_same | with_reducible apply ite_same
    | with_reducible apply ite_same_snd | with_reducible apply foldl_same | with_reducible apply foldl_same_snd
    | (refine Same.ofSnd (by assumption) ?_) | dsimp only | split

theorem pendWords_same {r₀ : State} {g₀ : Groups} {s : State} {k : Nat} {pe : Option Entry} (h1 : Same g₀ r₀ s)
    (m_regs : g₀.regs = true) (m_sounds : g₀.sounds = true) (m_seqNo : g₀.seqNo = true) : Same g₀ r₀ (pendWords s k pe).2 := by
  unfold pendWords
  repeat' first
    | with_reducible assumption | intro _ | with_reducible apply readWords_same | with_reducible apply ite_same
    | with_reducible apply ite_same_snd | with_reducible apply foldl_same | with_reducible apply foldl_same_snd
    | (refine Same.ofSnd (by assumption) ?_) | dsimp only | split

theorem usePend_same {r₀ : State} {g₀ : Groups} {g : CloseRun} {k o t row : Nat} (h1 : Same g₀ r₀ g.st) (m_regs : g₀.regs = true)
    (m_gz : g₀.gz = true) (m_mu : g₀.mu = true) (m_sounds : g₀.sounds = true) (m_seqNo : g₀.seqNo = true)
    : Same g₀ r₀ (usePend g k o t row).2.st := by
  unfold usePend
  repeat' first
    | with_reducible assumption | intro _ | with_reducible apply State.onMu_same | with_reducible apply flagPending_same
    | with_reducible apply bump_same | with_reducible apply ite_same | with_reducible apply ite_same_snd
    | with_reducible apply foldl_same | with_reducible apply foldl_same_snd
    | (with_reducible refine foldl_same_of CloseRun.st ?_ ?_) | (refine Same.ofSnd (by assumption) ?_) | dsimp only | split

theorem stepEntry_same {r₀ : State} {g₀ : Groups} {g : CloseRun} {k t row step : Nat} {tr sr : Rec} {p : Params} {e : Entry}
    (h1 : Same g₀ r₀ g.st) (m_free : g₀.free = true) (m_pkg : g₀.pkg = true) (m_mem : g₀.mem = true) (m_regs : g₀.regs = true)
    (m_gz : g₀.gz = true) (m_tw : g₀.tw = true) (m_mu : g₀.mu = true) (m_qm : g₀.qm = true) (m_rings : g₀.rings = true)
    (m_twin : g₀.twin = true) (m_sv : g₀.sv = true) (m_i3c : g₀.i3c = true) (m_sounds : g₀.sounds = true)
    (m_seqNo : g₀.seqNo = true) : Same g₀ r₀ (stepEntry g k t row step tr sr p e).st := by
  unfold stepEntry
  have k1 : Same g₀ r₀ (usePend g k (fld sr 2) t row).2.st := by apply usePend_same h1 <;> assumption
  generalize usePend g k (fld sr 2) t row = y at k1 ⊢
  rcases y with ⟨pe, u⟩
  dsimp only at k1 ⊢
  have k2 : Same g₀ r₀ (pendWords u.st k pe).2 := by apply pendWords_same k1 <;> assumption
  generalize pendWords u.st k pe = y at k2 ⊢
  rcases y with ⟨pw, v⟩
  dsimp only at k2 ⊢
  repeat' first
    | with_reducible assumption | intro _ | with_reducible apply State.onMu_same | with_reducible apply flagPending_same
    | with_reducible apply toPending_same | with_reducible apply optRow_same | with_reducible apply markPoisoned_same
    | with_reducible apply pendWords_same | with_reducible apply usePend_same | with_reducible apply ite_same
    | with_reducible apply ite_same_snd | with_reducible apply foldl_same | with_reducible apply foldl_same_snd
    | (with_reducible refine foldl_same_of CloseRun.st ?_ ?_) | (refine Same.ofSnd (by assumption) ?_) | dsimp only | split

theorem zeroUnused_same {r₀ : State} {g₀ : Groups} {s : State} {k bank p : Nat} (h1 : Same g₀ r₀ s) (m_regs : g₀.regs = true)
    (m_mu : g₀.mu = true) (m_sounds : g₀.sounds = true) (m_seqNo : g₀.seqNo = true) : Same g₀ r₀ (zeroUnused s k bank p) := by
  unfold zeroUnused
  repeat' first
    | with_reducible assumption | intro _ | with_reducible apply State.onMu_same | with_reducible apply bumpBy_same
    | with_reducible apply ite_same | with_reducible apply foldl_same | (refine Same.ofSnd (by assumption) ?_) | dsimp only
    | split

theorem closeEntry_same {r₀ : State} {g₀ : Groups} {k bank step : Nat} {ps : Nat → Params} {g : CloseRun} {x : Nat × Entry}
    (h5 : Same g₀ r₀ g.st) (m_free : g₀.free = true) (m_pkg : g₀.pkg = true) (m_mem : g₀.mem = true) (m_regs : g₀.regs = true)
    (m_gz : g₀.gz = true) (m_tw : g₀.tw = true) (m_mu : g₀.mu = true) (m_qm : g₀.qm = true) (m_rings : g₀.rings = true)
    (m_twin : g₀.twin = true) (m_sv : g₀.sv = true) (m_i3c : g₀.i3c = true) (m_sounds : g₀.sounds = true)
    (m_seqNo : g₀.seqNo = true) : Same g₀ r₀ (closeEntry k bank step ps g x).st := by
  unfold closeEntry
  repeat' first
    | with_reducible assumption | intro _ | with_reducible apply State.onMu_same | with_reducible apply pageInNow_same
    | with_reducible apply bump_same | with_reducible apply toPending_same | with_reducible apply stepEntry_same
    | with_reducible apply readWords_same | with_reducible apply ite_same | with_reducible apply ite_same_snd
    | with_reducible apply foldl_same | with_reducible apply foldl_same_snd
    | (with_reducible refine foldl_same_of CloseRun.st ?_ ?_)
    | (with_reducible refine pendEntry_same (by assumption) ?_ ?_ ?_ ?_ ?_ ?_ ?_ ?_ ?_) | (refine Same.ofSnd (by assumption) ?_)
    | dsimp only | split

theorem runClose_same {r₀ : State} {g₀ : Groups} {s0 : State} {h : Hdr} {k p : Nat} {l : List (Nat × Params)} (h1 : Same g₀ r₀ s0)
    (m_free : g₀.free = true) (m_pkg : g₀.pkg = true) (m_mem : g₀.mem = true) (m_regs : g₀.regs = true) (m_gz : g₀.gz = true)
    (m_tw : g₀.tw = true) (m_mu : g₀.mu = true) (m_qm : g₀.qm = true) (m_rings : g₀.rings = true) (m_twin : g₀.twin = true)
    (m_sv : g₀.sv = true) (m_i3c : g₀.i3c = true) (m_sounds : g₀.sounds = true) (m_seqNo : g₀.seqNo = true)
    : Same g₀ r₀ (runClose s0 h k p l) := by
  unfold runClose
  repeat' first
    | with_reducible assumption | intro _ | with_reducible apply State.onMu_same | with_reducible apply zeroUnused_same
    | with_reducible apply markStarted_same | with_reducible apply finish_same | with_reducible apply closeEntry_same
    | with_reducible apply ite_same | with_reducible apply foldl_same | (with_reducible refine foldl_same_of CloseRun.st ?_ ?_)
    | (refine Same.ofSnd (by assumption) ?_) | dsimp only | split

theorem selectRow_same {r₀ : State} {g₀ : Groups} {k n : Nat} {s : State} {x : Heavy} (h3 : Same g₀ r₀ s)
    (m_regs : g₀.regs = true) (m_mu : g₀.mu = true) (m_sounds : g₀.sounds = true) (m_seqNo : g₀.seqNo = true)
    : Same g₀ r₀ (selectRow k n s x) := by
  unfold selectRow
  repeat' first
    | with_reducible assumption | intro _ | with_reducible apply State.onMu_same | with_reducible apply bump_same
    | with_reducible apply startMove_same | with_reducible apply ite_same | with_reducible apply foldl_same
    | (refine Same.ofSnd (by assumption) ?_) | dsimp only | split

theorem addSet_same {r₀ : State} {g₀ : Groups} {h : Hdr} {paramDa : Nat} {g : (Nat ⊕ List (Nat × Params)) × State} {n : Nat}
    (h3 : Same g₀ r₀ g.2) (m_mem : g₀.mem = true) (m_regs : g₀.regs = true) (m_mu : g₀.mu = true) (m_sv : g₀.sv = true)
    (m_i3c : g₀.i3c = true) (m_sounds : g₀.sounds = true) (m_seqNo : g₀.seqNo = true) : Same g₀ r₀ (addSet h paramDa g n).2 := by
  unfold addSet
  repeat' first
    | with_reducible assumption | intro _ | with_reducible apply checkRead_same | with_reducible apply ite_same
    | with_reducible apply ite_same_snd | with_reducible apply foldl_same | with_reducible apply foldl_same_snd
    | (refine Same.ofSnd (by assumption) ?_) | dsimp only | split

theorem readSets_same {r₀ : State} {g₀ : Groups} {s : State} {h : Hdr} {paramDa : Nat} {ns : List Nat} (h1 : Same g₀ r₀ s)
    (m_mem : g₀.mem = true) (m_regs : g₀.regs = true) (m_mu : g₀.mu = true) (m_sv : g₀.sv = true) (m_i3c : g₀.i3c = true)
    (m_sounds : g₀.sounds = true) (m_seqNo : g₀.seqNo = true) : Same g₀ r₀ (readSets s h paramDa ns).2 := by
  unfold readSets
  repeat' first
    | with_reducible assumption | intro _ | with_reducible apply addSet_same | with_reducible apply ite_same
    | with_reducible apply ite_same_snd | with_reducible apply foldl_same | with_reducible apply foldl_same_snd
    | (refine Same.ofSnd (by assumption) ?_) | dsimp only | split

theorem closeBody_same {r₀ : State} {g₀ : Groups} {s : State} {h : Hdr} {k p paramDa : Nat} (h1 : Same g₀ r₀ s)
    (m_free : g₀.free = true) (m_pkg : g₀.pkg = true) (m_mem : g₀.mem = true) (m_regs : g₀.regs = true) (m_gz : g₀.gz = true)
    (m_tw : g₀.tw = true) (m_mu : g₀.mu = true) (m_qm : g₀.qm = true) (m_rings : g₀.rings = true) (m_twin : g₀.twin = true)
    (m_sv : g₀.sv = true) (m_i3c : g₀.i3c = true) (m_sounds : g₀.sounds = true) (m_seqNo : g₀.seqNo = true)
    : Same g₀ r₀ (closeBody s h k p paramDa) := by
  unfold closeBody
  repeat' first
    | with_reducible assumption | intro _ | with_reducible apply State.onMu_same | with_reducible apply runClose_same
    | with_reducible apply complete_same | with_reducible apply readSets_same | with_reducible apply ite_same
    | with_reducible apply ite_same_snd | with_reducible apply foldl_same | with_reducible apply foldl_same_snd
    | (refine Same.ofSnd (by assumption) ?_) | dsimp only | split

theorem execMuOptClose_same {r₀ : State} {g₀ : Groups} {h : Hdr} {muslin panel expectStep paramDa : Nat} {s : State} {t₀}
    (e₀ : execMuOptClose h muslin panel expectStep paramDa s = .next t₀) (h6 : Same g₀ r₀ s) (m_free : g₀.free = true)
    (m_pkg : g₀.pkg = true) (m_mem : g₀.mem = true) (m_regs : g₀.regs = true) (m_gz : g₀.gz = true) (m_tw : g₀.tw = true)
    (m_mu : g₀.mu = true) (m_qm : g₀.qm = true) (m_rings : g₀.rings = true) (m_twin : g₀.twin = true) (m_sv : g₀.sv = true)
    (m_i3c : g₀.i3c = true) (m_sounds : g₀.sounds = true) (m_seqNo : g₀.seqNo = true) : Same g₀ r₀ t₀ := by
  unfold execMuOptClose at e₀
  repeat' first | contradiction | (injection e₀ with e₀; subst e₀) | dsimp only at e₀ | (split at e₀)
  repeat' first
    | with_reducible assumption | intro _ | with_reducible apply closeBody_same | with_reducible apply complete_same
    | with_reducible apply runDesc_same | with_reducible apply ite_same | with_reducible apply foldl_same
    | (refine Same.ofSnd (by assumption) ?_) | dsimp only | split

theorem pageInRows_same {r₀ : State} {g₀ : Groups} {s : State} {k : Nat} (h1 : Same g₀ r₀ s) (m_mem : g₀.mem = true)
    (m_regs : g₀.regs = true) (m_gz : g₀.gz = true) (m_mu : g₀.mu = true) (m_sv : g₀.sv = true) (m_i3c : g₀.i3c = true)
    (m_sounds : g₀.sounds = true) (m_seqNo : g₀.seqNo = true) : Same g₀ r₀ (pageInRows s k) := by
  unfold pageInRows
  repeat' first
    | with_reducible assumption | intro _ | with_reducible apply pageSlot_same | with_reducible apply startMove_same
    | with_reducible apply ite_same | with_reducible apply ite_same_snd | with_reducible apply foldl_same
    | with_reducible apply foldl_same_snd | (refine Same.ofSnd (by assumption) ?_) | dsimp only | split

theorem coolRows_same {r₀ : State} {g₀ : Groups} {s : State} {k : Nat} (h1 : Same g₀ r₀ s) (m_mu : g₀.mu = true)
    : Same g₀ r₀ (coolRows s k) := by
  unfold coolRows
  repeat' first
    | with_reducible assumption | intro _ | with_reducible apply startMove_same | with_reducible apply ite_same
    | with_reducible apply foldl_same | (refine Same.ofSnd (by assumption) ?_) | dsimp only | split

theorem selectRows_same {r₀ : State} {g₀ : Groups} {s : State} {k n : Nat} (h1 : Same g₀ r₀ s) (m_regs : g₀.regs = true)
    (m_mu : g₀.mu = true) (m_sounds : g₀.sounds = true) (m_seqNo : g₀.seqNo = true) : Same g₀ r₀ (selectRows s k n) := by
  unfold selectRows
  repeat' first
    | with_reducible assumption | intro _ | with_reducible apply selectRow_same | with_reducible apply coolRows_same
    | with_reducible apply ite_same | with_reducible apply foldl_same | (refine Same.ofSnd (by assumption) ?_) | dsimp only
    | split

theorem execBankRelease_same {r₀ : State} {g₀ : Groups} {muslin : Nat} {s : State} {t₀} (e₀ : execBankRelease muslin s = .next t₀)
    (h2 : Same g₀ r₀ s) (m_free : g₀.free = true) (m_pkg : g₀.pkg = true) (m_mem : g₀.mem = true) (m_regs : g₀.regs = true)
    (m_gz : g₀.gz = true) (m_mu : g₀.mu = true) (m_qm : g₀.qm = true) (m_rings : g₀.rings = true) (m_twin : g₀.twin = true)
    (m_sv : g₀.sv = true) (m_i3c : g₀.i3c = true) (m_sounds : g₀.sounds = true) (m_seqNo : g₀.seqNo = true) : Same g₀ r₀ t₀ := by
  unfold execBankRelease at e₀
  repeat' first | contradiction | (injection e₀ with e₀; subst e₀) | dsimp only at e₀ | (split at e₀)
  repeat' first
    | with_reducible assumption | intro _ | with_reducible apply State.onMu_same | with_reducible apply journalEnd_same
    | with_reducible apply pageInRows_same | with_reducible apply selectRows_same | with_reducible apply ite_same
    | with_reducible apply foldl_same | (refine Same.ofSnd (by assumption) ?_) | dsimp only | split

end Sys2Proof.Machine
end

