-- ==== Sys2Proof/Laws/SameOptDense.lean ====
section
/-!
SUPPORT. What the definitions of Machine/OptDense.lean may change (Laws/Same.lean).
-/

set_option linter.all false

namespace Sys2Proof.Machine

open Sys2Proof

theorem deriveBlock_same {r₀ : State} {g₀ : Groups} {s : State} {o : OptDenseOp} {b : Nat} {ms : List Nat} (h1 : Same g₀ r₀ s)
    (m_mem : g₀.mem = true) (m_regs : g₀.regs = true) (m_mu : g₀.mu = true) (m_sv : g₀.sv = true) (m_i3c : g₀.i3c = true)
    (m_sounds : g₀.sounds = true) (m_seqNo : g₀.seqNo = true) : Same g₀ r₀ (deriveBlock s o b ms) := by
  unfold deriveBlock
  repeat' first
    | with_reducible assumption | intro _ | with_reducible apply writeMem_same | with_reducible apply ite_same
    | with_reducible apply foldl_same | (refine Same.ofSnd (by assumption) ?_) | dsimp only | split

theorem srPicked_same {r₀ : State} {g₀ : Groups} {s : State} {k spec sc : Nat} {ok : List Bool} {vs : List Val} {old : List Nat}
    (h1 : Same g₀ r₀ s) (m_free : g₀.free = true) (m_tw : g₀.tw = true) : Same g₀ r₀ (srPicked s k spec sc ok vs old).2 := by
  unfold srPicked
  repeat' first
    | with_reducible assumption | intro _ | with_reducible apply convList_same | with_reducible apply ite_same
    | with_reducible apply ite_same_snd | with_reducible apply foldl_same | with_reducible apply foldl_same_snd
    | (refine Same.ofSnd (by assumption) ?_) | dsimp only | split

theorem takeWords_same {r₀ : State} {g₀ : Groups} {s : State} {o : OptDenseOp} {b : Nat} (h1 : Same g₀ r₀ s)
    (m_regs : g₀.regs = true) (m_mu : g₀.mu = true) (m_sounds : g₀.sounds = true) (m_seqNo : g₀.seqNo = true)
    : Same g₀ r₀ (takeWords s o b).2 := by
  unfold takeWords
  repeat' first
    | with_reducible assumption | intro _ | with_reducible apply State.onMu_same | with_reducible apply bumpBy_same
    | with_reducible apply ite_same | with_reducible apply ite_same_snd | with_reducible apply foldl_same
    | with_reducible apply foldl_same_snd | (refine Same.ofSnd (by assumption) ?_) | dsimp only | split

theorem codeBlock_same {r₀ : State} {g₀ : Groups} {s : State} {o : OptDenseOp} {p : Params} {anchor : Int} {b : Nat}
    {ok : List Bool} (h1 : Same g₀ r₀ s) (m_free : g₀.free = true) (m_mem : g₀.mem = true) (m_regs : g₀.regs = true)
    (m_tw : g₀.tw = true) (m_mu : g₀.mu = true) (m_sv : g₀.sv = true) (m_i3c : g₀.i3c = true) (m_sounds : g₀.sounds = true)
    (m_seqNo : g₀.seqNo = true) : Same g₀ r₀ (codeBlock s o p anchor b ok).2 := by
  unfold codeBlock
  repeat' first
    | with_reducible assumption | intro _ | with_reducible apply srPicked_same | with_reducible apply writeMem_same
    | with_reducible apply takeWords_same | with_reducible apply withCarried_same | with_reducible apply ite_same
    | with_reducible apply ite_same_snd | with_reducible apply foldl_same | with_reducible apply foldl_same_snd
    | (refine Same.ofSnd (by assumption) ?_) | dsimp only | split

theorem blockWhole_same {r₀ : State} {g₀ : Groups} {s : State} {rs : List Range} (h1 : Same g₀ r₀ s) (m_mem : g₀.mem = true)
    (m_regs : g₀.regs = true) (m_mu : g₀.mu = true) (m_sv : g₀.sv = true) (m_i3c : g₀.i3c = true) (m_sounds : g₀.sounds = true)
    (m_seqNo : g₀.seqNo = true) : Same g₀ r₀ (blockWhole s rs).2 := by
  unfold blockWhole
  repeat' first
    | with_reducible assumption | intro _ | with_reducible apply checkRead_same | with_reducible apply ite_same
    | with_reducible apply ite_same_snd | with_reducible apply foldl_same | with_reducible apply foldl_same_snd
    | (refine Same.ofSnd (by assumption) ?_) | dsimp only | split

theorem passA_same {r₀ : State} {g₀ : Groups} {o : OptDenseOp} {p : Params} {anchor : Int} {x : DenseRun × Sums} {b : Nat}
    (h4 : Same g₀ r₀ x.1.st) (m_free : g₀.free = true) (m_mem : g₀.mem = true) (m_regs : g₀.regs = true) (m_tw : g₀.tw = true)
    (m_mu : g₀.mu = true) (m_sv : g₀.sv = true) (m_i3c : g₀.i3c = true) (m_sounds : g₀.sounds = true) (m_seqNo : g₀.seqNo = true)
    : Same g₀ r₀ (passA o p anchor x b).1.st := by
  unfold passA
  repeat' first
    | with_reducible assumption | intro _ | with_reducible apply codeBlock_same | with_reducible apply blockWhole_same
    | with_reducible apply ite_same | with_reducible apply ite_same_snd | with_reducible apply foldl_same
    | with_reducible apply foldl_same_snd | with_reducible apply foldl_same_fst
    | (with_reducible refine foldl_same_of DenseRun.st ?_ ?_) | (refine Same.ofSnd (by assumption) ?_) | dsimp only | split

theorem addNorms_same {r₀ : State} {g₀ : Groups} {a : Int} {g : DenseRun} {ok : List Bool} {old new : List Nat}
    (h2 : Same g₀ r₀ g.st) : Same g₀ r₀ (addNorms a g ok old new).st := by
  unfold addNorms
  repeat' first
    | with_reducible assumption | intro _ | with_reducible apply ite_same | with_reducible apply foldl_same
    | (with_reducible refine foldl_same_of DenseRun.st ?_ ?_) | (refine Same.ofSnd (by assumption) ?_) | dsimp only | split

theorem onlyDerive_same {r₀ : State} {g₀ : Groups} {o : OptDenseOp} {a : Int} {g : DenseRun} {b : Nat} (h3 : Same g₀ r₀ g.st)
    (m_mem : g₀.mem = true) (m_regs : g₀.regs = true) (m_mu : g₀.mu = true) (m_sv : g₀.sv = true) (m_i3c : g₀.i3c = true)
    (m_sounds : g₀.sounds = true) (m_seqNo : g₀.seqNo = true) : Same g₀ r₀ (onlyDerive o a g b).st := by
  unfold onlyDerive
  repeat' first
    | with_reducible assumption | intro _ | with_reducible apply deriveBlock_same | with_reducible apply addNorms_same
    | with_reducible apply blockWhole_same | with_reducible apply ite_same | with_reducible apply ite_same_snd
    | with_reducible apply foldl_same | with_reducible apply foldl_same_snd
    | (with_reducible refine foldl_same_of DenseRun.st ?_ ?_) | (refine Same.ofSnd (by assumption) ?_) | dsimp only | split

theorem updateBlock_same {r₀ : State} {g₀ : Groups} {g : DenseRun} {o : OptDenseOp} {p : Params} {a : Int} {b : Nat}
    {ok : List Bool} {gf : List Val} {vhat : Nat → Option Val} (h1 : Same g₀ r₀ g.st) (m_free : g₀.free = true)
    (m_mem : g₀.mem = true) (m_regs : g₀.regs = true) (m_tw : g₀.tw = true) (m_mu : g₀.mu = true) (m_sv : g₀.sv = true)
    (m_i3c : g₀.i3c = true) (m_sounds : g₀.sounds = true) (m_seqNo : g₀.seqNo = true)
    : Same g₀ r₀ (updateBlock g o p a b ok gf vhat).st := by
  unfold updateBlock
  repeat' first
    | with_reducible assumption | intro _ | with_reducible apply srPicked_same | with_reducible apply writeMem_same
    | with_reducible apply momentVals_same | with_reducible apply deriveBlock_same | with_reducible apply bumpBy_same
    | with_reducible apply addNorms_same | with_reducible apply ite_same | with_reducible apply ite_same_snd
    | with_reducible apply foldl_same | with_reducible apply foldl_same_snd
    | (with_reducible refine foldl_same_of DenseRun.st ?_ ?_) | (refine Same.ofSnd (by assumption) ?_) | dsimp only | split

theorem passB_same {r₀ : State} {g₀ : Groups} {o : OptDenseOp} {p : Params} {a : Int} {vhat : Nat → Option Val} {g : DenseRun}
    {b : Nat} (h5 : Same g₀ r₀ g.st) (m_free : g₀.free = true) (m_mem : g₀.mem = true) (m_regs : g₀.regs = true)
    (m_tw : g₀.tw = true) (m_mu : g₀.mu = true) (m_sv : g₀.sv = true) (m_i3c : g₀.i3c = true) (m_sounds : g₀.sounds = true)
    (m_seqNo : g₀.seqNo = true) : Same g₀ r₀ (passB o p a vhat g b).st := by
  unfold passB
  repeat' first
    | with_reducible assumption | intro _ | with_reducible apply updateBlock_same | with_reducible apply blockWhole_same
    | with_reducible apply ite_same | with_reducible apply ite_same_snd | with_reducible apply foldl_same
    | with_reducible apply foldl_same_snd | (with_reducible refine foldl_same_of DenseRun.st ?_ ?_)
    | (refine Same.ofSnd (by assumption) ?_) | dsimp only | split

theorem newVector_same {r₀ : State} {g₀ : Groups} {s : State} {k : Nat} {p : Params} {da scDa len n : Nat} {sums : FMap Val}
    (h1 : Same g₀ r₀ s) (m_free : g₀.free = true) (m_mem : g₀.mem = true) (m_regs : g₀.regs = true) (m_tw : g₀.tw = true)
    (m_mu : g₀.mu = true) (m_sv : g₀.sv = true) (m_i3c : g₀.i3c = true) (m_sounds : g₀.sounds = true) (m_seqNo : g₀.seqNo = true)
    : Same g₀ r₀ (newVector s k p da scDa len n sums).2 := by
  unfold newVector
  repeat' first
    | with_reducible assumption | intro _ | with_reducible apply writeMem_same | with_reducible apply momentVals_same
    | with_reducible apply srList_same | with_reducible apply ite_same | with_reducible apply ite_same_snd
    | with_reducible apply foldl_same | with_reducible apply foldl_same_snd | (refine Same.ofSnd (by assumption) ?_) | dsimp only
    | split

theorem factored_same {r₀ : State} {g₀ : Groups} {s : State} {o : OptDenseOp} {p : Params} {anchor a : Int} {n : Nat}
    (h1 : Same g₀ r₀ s) (m_free : g₀.free = true) (m_mem : g₀.mem = true) (m_regs : g₀.regs = true) (m_tw : g₀.tw = true)
    (m_mu : g₀.mu = true) (m_sv : g₀.sv = true) (m_i3c : g₀.i3c = true) (m_sounds : g₀.sounds = true) (m_seqNo : g₀.seqNo = true)
    : Same g₀ r₀ (factored s o p anchor a n).st := by
  unfold factored
  repeat' first
    | with_reducible assumption | intro _ | (with_reducible refine foldl_same_of (fun x : DenseRun × Sums => x.1.st) ?_ ?_)
    | with_reducible apply passB_same | with_reducible apply newVector_same | with_reducible apply passA_same
    | with_reducible apply blockWhole_same | with_reducible apply ite_same | with_reducible apply ite_same_snd
    | with_reducible apply foldl_same | with_reducible apply foldl_same_snd | with_reducible apply foldl_same_fst
    | (with_reducible refine foldl_same_of DenseRun.st ?_ ?_) | (refine Same.ofSnd (by assumption) ?_) | dsimp only | split

theorem momentBlock_same {r₀ : State} {g₀ : Groups} {o : OptDenseOp} {p : Params} {anchor a : Int} {g : DenseRun} {b : Nat}
    (h5 : Same g₀ r₀ g.st) (m_free : g₀.free = true) (m_mem : g₀.mem = true) (m_regs : g₀.regs = true) (m_tw : g₀.tw = true)
    (m_mu : g₀.mu = true) (m_sv : g₀.sv = true) (m_i3c : g₀.i3c = true) (m_sounds : g₀.sounds = true) (m_seqNo : g₀.seqNo = true)
    : Same g₀ r₀ (momentBlock o p anchor a g b).st := by
  unfold momentBlock
  repeat' first
    | with_reducible assumption | intro _ | with_reducible apply codeBlock_same | with_reducible apply updateBlock_same
    | with_reducible apply blockWhole_same | with_reducible apply ite_same | with_reducible apply ite_same_snd
    | with_reducible apply foldl_same | with_reducible apply foldl_same_snd
    | (with_reducible refine foldl_same_of DenseRun.st ?_ ?_) | (refine Same.ofSnd (by assumption) ?_) | dsimp only | split

theorem denseRun_same {r₀ : State} {g₀ : Groups} {s : State} {o : OptDenseOp} {p : Params} {a : Int} {n : Nat} (h1 : Same g₀ r₀ s)
    (m_free : g₀.free = true) (m_mem : g₀.mem = true) (m_regs : g₀.regs = true) (m_tw : g₀.tw = true) (m_mu : g₀.mu = true)
    (m_sv : g₀.sv = true) (m_i3c : g₀.i3c = true) (m_sounds : g₀.sounds = true) (m_seqNo : g₀.seqNo = true)
    : Same g₀ r₀ (denseRun s o p a n).st := by
  unfold denseRun
  repeat' first
    | with_reducible assumption | intro _ | with_reducible apply State.onMu_same | with_reducible apply factored_same
    | with_reducible apply onlyDerive_same | with_reducible apply momentBlock_same | with_reducible apply ite_same
    | with_reducible apply foldl_same | (with_reducible refine foldl_same_of DenseRun.st ?_ ?_)
    | (refine Same.ofSnd (by assumption) ?_) | dsimp only | split

theorem odParams_same {r₀ : State} {g₀ : Groups} {s : State} {o : OptDenseOp} (h1 : Same g₀ r₀ s) (m_mem : g₀.mem = true)
    (m_regs : g₀.regs = true) (m_mu : g₀.mu = true) (m_sv : g₀.sv = true) (m_i3c : g₀.i3c = true) (m_sounds : g₀.sounds = true)
    (m_seqNo : g₀.seqNo = true) : Same g₀ r₀ (odParams s o).2 := by
  unfold odParams
  repeat' first
    | with_reducible assumption | intro _ | with_reducible apply checkRead_same | with_reducible apply ite_same
    | with_reducible apply ite_same_snd | with_reducible apply foldl_same | with_reducible apply foldl_same_snd
    | (refine Same.ofSnd (by assumption) ?_) | dsimp only | split

theorem reportRatio_same {r₀ : State} {g₀ : Groups} {s : State} {o : OptDenseOp} {a : Int} {g : DenseRun} (h1 : Same g₀ r₀ s)
    (h4 : Same g₀ r₀ g.st) (m_regs : g₀.regs = true) (m_sounds : g₀.sounds = true) (m_seqNo : g₀.seqNo = true)
    : Same g₀ r₀ (reportRatio s o a g).2 := by
  unfold reportRatio
  repeat' first
    | with_reducible assumption | intro _ | with_reducible apply bump_same | with_reducible apply emitSounding_same
    | with_reducible apply ite_same | with_reducible apply ite_same_snd | with_reducible apply foldl_same
    | with_reducible apply foldl_same_snd | (with_reducible refine foldl_same_of DenseRun.st ?_ ?_)
    | (refine Same.ofSnd (by assumption) ?_) | dsimp only | split

theorem journalRange_same {r₀ : State} {g₀ : Groups} {k step a2 a3 a4 : Nat} {a5 : State} (h6 : Same g₀ r₀ a5)
    (m_free : g₀.free = true) (m_pkg : g₀.pkg = true) (m_regs : g₀.regs = true) (m_gz : g₀.gz = true) (m_qm : g₀.qm = true)
    (m_rings : g₀.rings = true) (m_twin : g₀.twin = true) (m_sounds : g₀.sounds = true) (m_seqNo : g₀.seqNo = true)
    : Same g₀ r₀ (journalRange k step a2 a3 a4 a5) := by
  induction a2 generalizing a3 a4 a5 with
  | zero =>
    unfold journalRange
    repeat' first
      | with_reducible assumption | intro _ | with_reducible apply journalWrite_same | with_reducible apply ite_same
      | with_reducible apply foldl_same | (refine Same.ofSnd (by assumption) ?_) | dsimp only | split
  | succ _ ih =>
    unfold journalRange
    repeat' first
      | with_reducible assumption | intro _ | with_reducible apply ih | with_reducible apply journalWrite_same
      | with_reducible apply ite_same | with_reducible apply foldl_same | (refine Same.ofSnd (by assumption) ?_) | dsimp only
      | split

theorem journalDense_same {r₀ : State} {g₀ : Groups} {s : State} {o : OptDenseOp} {g : DenseRun} (h1 : Same g₀ r₀ s)
    (h3 : Same g₀ r₀ g.st) (m_free : g₀.free = true) (m_pkg : g₀.pkg = true) (m_regs : g₀.regs = true) (m_gz : g₀.gz = true)
    (m_qm : g₀.qm = true) (m_rings : g₀.rings = true) (m_twin : g₀.twin = true) (m_sounds : g₀.sounds = true)
    (m_seqNo : g₀.seqNo = true) : Same g₀ r₀ (journalDense s o g) := by
  unfold journalDense
  repeat' first
    | with_reducible assumption | intro _ | with_reducible apply journalRange_same | with_reducible apply ite_same
    | with_reducible apply foldl_same | (with_reducible refine foldl_same_of DenseRun.st ?_ ?_)
    | (refine Same.ofSnd (by assumption) ?_) | dsimp only | split

theorem normAnchor_same {r₀ : State} {g₀ : Groups} {s : State} {w : Nat} (h1 : Same g₀ r₀ s) (m_free : g₀.free = true)
    : Same g₀ r₀ (normAnchor s w).2 := by
  unfold normAnchor
  repeat' first
    | with_reducible assumption | intro _ | with_reducible apply State.took_same | with_reducible apply ite_same
    | with_reducible apply ite_same_snd | with_reducible apply foldl_same | with_reducible apply foldl_same_snd
    | (refine Same.ofSnd (by assumption) ?_) | dsimp only | split

theorem cutDense_same {r₀ : State} {g₀ : Groups} {s : State} {h : Hdr} {o : OptDenseOp} (h1 : Same g₀ r₀ s)
    (m_free : g₀.free = true) (m_pkg : g₀.pkg = true) (m_mem : g₀.mem = true) (m_regs : g₀.regs = true) (m_gz : g₀.gz = true)
    (m_tw : g₀.tw = true) (m_mu : g₀.mu = true) (m_qm : g₀.qm = true) (m_rings : g₀.rings = true) (m_twin : g₀.twin = true)
    (m_sv : g₀.sv = true) (m_i3c : g₀.i3c = true) (m_sounds : g₀.sounds = true) (m_seqNo : g₀.seqNo = true)
    : Same g₀ r₀ (cutDense s h o) := by
  unfold cutDense
  repeat' first
    | with_reducible assumption | intro _ | with_reducible apply journalDense_same | with_reducible apply State.took_same
    | with_reducible apply denseRun_same | with_reducible apply normAnchor_same | with_reducible apply odParams_same
    | with_reducible apply ite_same | with_reducible apply ite_same_snd | with_reducible apply foldl_same
    | with_reducible apply foldl_same_snd | (with_reducible refine foldl_same_of DenseRun.st ?_ ?_)
    | (refine Same.ofSnd (by assumption) ?_) | dsimp only | split

theorem writeState_same {r₀ : State} {g₀ : Groups} {s : State} {o : OptDenseOp} {a : Int} {g : DenseRun} (h1 : Same g₀ r₀ s)
    (h4 : Same g₀ r₀ g.st) (m_mem : g₀.mem = true) (m_regs : g₀.regs = true) (m_mu : g₀.mu = true) (m_sv : g₀.sv = true)
    (m_i3c : g₀.i3c = true) (m_sounds : g₀.sounds = true) (m_seqNo : g₀.seqNo = true) : Same g₀ r₀ (writeState s o a g) := by
  unfold writeState
  repeat' first
    | with_reducible assumption | intro _ | with_reducible apply writeMem_same | with_reducible apply reportRatio_same
    | with_reducible apply ite_same | with_reducible apply ite_same_snd | with_reducible apply foldl_same
    | with_reducible apply foldl_same_snd | (with_reducible refine foldl_same_of DenseRun.st ?_ ?_)
    | (refine Same.ofSnd (by assumption) ?_) | dsimp only | split

theorem runDense_same {r₀ : State} {g₀ : Groups} {s0 : State} {h : Hdr} {o : OptDenseOp} {p : Params} (h1 : Same g₀ r₀ s0)
    (m_free : g₀.free = true) (m_pkg : g₀.pkg = true) (m_mem : g₀.mem = true) (m_regs : g₀.regs = true) (m_gz : g₀.gz = true)
    (m_tw : g₀.tw = true) (m_mu : g₀.mu = true) (m_qm : g₀.qm = true) (m_rings : g₀.rings = true) (m_twin : g₀.twin = true)
    (m_sv : g₀.sv = true) (m_i3c : g₀.i3c = true) (m_sounds : g₀.sounds = true) (m_seqNo : g₀.seqNo = true)
    : Same g₀ r₀ (runDense s0 h o p) := by
  unfold runDense
  repeat' first
    | with_reducible assumption | intro _ | with_reducible apply journalDense_same | with_reducible apply finish_same
    | with_reducible apply writeState_same | with_reducible apply checkRead_same | with_reducible apply complete_same
    | with_reducible apply denseRun_same | with_reducible apply normAnchor_same | with_reducible apply ite_same
    | with_reducible apply ite_same_snd | with_reducible apply foldl_same | with_reducible apply foldl_same_snd
    | (with_reducible refine foldl_same_of DenseRun.st ?_ ?_) | (refine Same.ofSnd (by assumption) ?_) | dsimp only | split

theorem execMuOptDense_same {r₀ : State} {g₀ : Groups} {h : Hdr} {op : OptDenseOp} {s : State} {t₀}
    (e₀ : execMuOptDense h op s = .next t₀) (h3 : Same g₀ r₀ s) (m_free : g₀.free = true) (m_pkg : g₀.pkg = true)
    (m_mem : g₀.mem = true) (m_regs : g₀.regs = true) (m_gz : g₀.gz = true) (m_tw : g₀.tw = true) (m_mu : g₀.mu = true)
    (m_qm : g₀.qm = true) (m_rings : g₀.rings = true) (m_twin : g₀.twin = true) (m_sv : g₀.sv = true) (m_i3c : g₀.i3c = true)
    (m_sounds : g₀.sounds = true) (m_seqNo : g₀.seqNo = true) : Same g₀ r₀ t₀ := by
  unfold execMuOptDense at e₀
  repeat' first | contradiction | (injection e₀ with e₀; subst e₀) | dsimp only at e₀ | (split at e₀)
  repeat' first
    | with_reducible assumption | intro _ | with_reducible apply complete_same | with_reducible apply runDense_same
    | with_reducible apply runDesc_same | with_reducible apply odParams_same | with_reducible apply ite_same
    | with_reducible apply ite_same_snd | with_reducible apply foldl_same | with_reducible apply foldl_same_snd
    | (refine Same.ofSnd (by assumption) ?_) | dsimp only | split

theorem cutDenses_same {r₀ : State} {g₀ : Groups} {s : State} {f : Disp → Bool} (h1 : Same g₀ r₀ s) (m_free : g₀.free = true)
    (m_pkg : g₀.pkg = true) (m_mem : g₀.mem = true) (m_regs : g₀.regs = true) (m_gz : g₀.gz = true) (m_tw : g₀.tw = true)
    (m_mu : g₀.mu = true) (m_qm : g₀.qm = true) (m_rings : g₀.rings = true) (m_twin : g₀.twin = true) (m_sv : g₀.sv = true)
    (m_i3c : g₀.i3c = true) (m_sounds : g₀.sounds = true) (m_seqNo : g₀.seqNo = true) : Same g₀ r₀ (cutDenses s f) := by
  unfold cutDenses
  repeat' first
    | with_reducible assumption | intro _ | with_reducible apply cutDense_same | with_reducible apply ite_same
    | with_reducible apply foldl_same | (refine Same.ofSnd (by assumption) ?_) | dsimp only | split

end Sys2Proof.Machine
end

