-- ==== Sys2Proof/Laws/Faults.lean ====
section
/-!
SUPPORT. What sticky bits, fences, reclaims and panel faults do.
-/

namespace Sys2Proof.Machine

open Sys2Proof

theorem sticky_mem (s : State) (k : Nat) : k ∈ (setSticky s k).sv.sticky := by
  unfold setSticky; dsimp only; split
  · rw [(raiseIbi_same (g₀ := { i3c := true }) (Same.refl _ _) rfl).sv rfl]; simp
  · simp

theorem sticky_frame (s : State) (k : Nat) : Same { sv := true, i3c := true } s (setSticky s k) := setSticky_same (Same.refl _ s) rfl rfl

/-- Between two states the sticky bits stay, and Selvage's reclaims. -/
structure Keeps (a b : State) : Prop where
  sticky  : ∀ k, k ∈ a.sv.sticky → k ∈ b.sv.sticky
  reclaim : b.sv.reclaim = a.sv.reclaim
  waits   : b.sv.reclaims = a.sv.reclaims
  freeing : b.sv.freeing = a.sv.freeing
theorem Keeps.refl (a : State) : Keeps a a := ⟨fun _ h => h, rfl, rfl, rfl⟩
theorem Keeps.trans {a b c : State} (x : Keeps a b) (y : Keeps b c) : Keeps a c :=
  ⟨fun k h => y.sticky k (x.sticky k h), y.reclaim.trans x.reclaim, y.waits.trans x.waits, y.freeing.trans x.freeing⟩
theorem Keeps.of {a b : State} (h : b.sv = a.sv) : Keeps a b := ⟨fun k x => by rw [h]; exact x, by rw [h], by rw [h], by rw [h]⟩
theorem Keeps.eq {a b : State} (h1 : b.sv.sticky = a.sv.sticky) (h2 : b.sv.reclaim = a.sv.reclaim) (h3 : b.sv.reclaims = a.sv.reclaims)
    (h4 : b.sv.freeing = a.sv.freeing) : Keeps a b := ⟨fun k x => by rw [h1]; exact x, h2, h3, h4⟩
theorem Keeps.foldl {α : Type} {f : State → α → State} (hf : ∀ s a, Keeps s (f s a)) (l : List α) : ∀ s, Keeps s (l.foldl f s) := by
  induction l with
  | nil => exact Keeps.refl
  | cons a l ih => exact fun s => (hf s a).trans (ih _)
theorem keeps_onSv (s : State) (f : Selvage → Selvage) (h1 : (f s.sv).sticky = s.sv.sticky) (h2 : (f s.sv).reclaim = s.sv.reclaim)
    (h3 : (f s.sv).reclaims = s.sv.reclaims) (h4 : (f s.sv).freeing = s.sv.freeing) : Keeps s (s.onSv f) :=
  ⟨fun k x => by show k ∈ (f s.sv).sticky; rw [h1]; exact x, h2, h3, h4⟩
theorem keeps_raise (s : State) (b : Nat) : Keeps s (raiseIbi s b) := by unfold raiseIbi; split <;> exact Keeps.of rfl
theorem keeps_sticky (s : State) (k : Nat) : Keeps s (setSticky s k) := by
  have h : Keeps s (s.onSv fun v => { v with sticky := ins v.sticky k, quiet := 0 }) := ⟨fun x hx => by simp [hx], rfl, rfl, rfl⟩
  unfold setSticky; dsimp only; split
  · exact h.trans (keeps_raise ..)
  · exact h
theorem keeps_failPort (s : State) (d p : Nat) : Keeps s (failPort s d p) := by
  unfold failPort
  extract_lets s1 s2 s3
  have h2 : s2.sv = s.sv := (discardHeld_same (setLink_same (g₀ := { pkg := true, gz := true }) (Same.refl _ s) rfl) rfl).sv rfl
  have h3 : s3.sv = s.sv := by
    show (match linkPeer d p with | some e => (match portTo e d with | some q => discardHeld s2 e q | none => s2) | none => s2 : State).sv = _
    split
    · split
      · exact ((discardHeld_same (g₀ := { gz := true }) (Same.refl _ s2) rfl).sv rfl).trans h2
      · exact h2
    · exact h2
  exact (Keeps.of (((legendUpdate_same (g₀ := { pkg := true }) (Same.refl _ s3) rfl).sv rfl).trans h3)).trans (keeps_sticky ..)
theorem keeps_addCause (s : State) (c : Nat) : Keeps s (addCause s c) := Keeps.of ((addCause_same (g₀ := { pkg := true, rings := true }) (Same.refl _ s) rfl rfl).sv rfl)
theorem keeps_fenceParty (s : State) (u : UnitId) : Keeps s (fenceParty s u) := by
  unfold fenceParty
  dsimp only
  split; exact Keeps.eq rfl rfl rfl rfl
  split; exact Keeps.eq rfl rfl rfl rfl
  split; exact Keeps.eq rfl rfl rfl rfl
  split; exact Keeps.eq rfl rfl rfl rfl
  split; exact Keeps.eq rfl rfl rfl rfl
  split; exact Keeps.refl s
  have F : Keeps s ((List.range 8).foldl (fun s p =>
      match linkPeer u.die p with
      | some e => if fitted s.pkg.variant e then (match portTo e u.die with | some q => failPort s e q | none => s) else s
      | none => s) s) := by
    refine Keeps.foldl (fun s p => ?_) _ s
    split
    · split
      · split
        · exact keeps_failPort ..
        · exact Keeps.refl s
      · exact Keeps.refl s
    · exact Keeps.refl s
  generalize List.foldl _ _ _ = z at *
  refine Keeps.trans F ?_
  split
  · refine Keeps.trans ?_ (keeps_addCause _ _)
    refine Keeps.trans ?_ (keeps_onSv _ _ rfl rfl rfl rfl)
    exact keeps_onSv _ _ rfl rfl rfl rfl
  · exact keeps_onSv _ _ rfl rfl rfl rfl

/-- A fenced party's unit is fenced. -/
theorem fenceParty_fences (s : State) (u : UnitId) (h : u.die ≠ 1) : unitFenced (fenceParty s u) u = true := by
  unfold fenceParty
  dsimp only
  split
  · rename_i c; unfold unitFenced; simp only [Bool.and_eq_true, decide_eq_true_eq] at c; simp [c.1, c.2, setCore]
  split
  · rename_i c; unfold unitFenced; simp only [Bool.and_eq_true, decide_eq_true_eq] at c; simp [c.1, c.2]
  split
  · rename_i c; unfold unitFenced; simp only [Bool.and_eq_true, decide_eq_true_eq] at c; simp [c.1, c.2]
  split
  · rename_i c; unfold unitFenced; simp only [Bool.and_eq_true, decide_eq_true_eq] at c; simp [c.1, c.2]
  split
  · rename_i c; unfold unitFenced; simp only [Bool.and_eq_true, decide_eq_true_eq] at c; simp [c.1, c.2]
  split
  · rename_i c; unfold unitFenced; simp only [Bool.or_eq_true, decide_eq_true_eq] at c
    rcases c with c | c
    · exact absurd c h
    · rw [c]; rfl
  generalize List.foldl _ _ _ = z
  have G : (z.onSv fun v => { v with fence := ins v.fence u.die }).sv.fence.contains u.die = true := by simp
  split
  · have A := addCause_same (g₀ := { pkg := true, rings := true }) (c := causeSelvage) (Same.refl _ ((z.onSv fun v => { v with fence := ins v.fence u.die }).onSv fun v => { v with warmReqs := ins v.warmReqs 8 })) rfl rfl
    unfold unitFenced; rw [A.sv rfl]
    show (List.contains (z.onSv fun v => { v with fence := ins v.fence u.die }).sv.fence u.die || _ || _) = true
    rw [G]; rfl
  · unfold unitFenced; rw [G]; rfl

theorem startReclaim_is (s : State) (r : Reclaim) (h : r.party.die ≠ 1) : (∀ k, k ∈ s.sv.sticky → k ∈ (startReclaim s r).sv.sticky) ∧
    (startReclaim s r).sv.reclaim = some r ∧ (startReclaim s r).sv.reclaimSt = 2 ∧ unitFenced (startReclaim s r) r.party = true ∧
    (startReclaim s r).sv.reclaims = s.sv.reclaims ∧ (startReclaim s r).sv.freeing = s.sv.freeing := by
  have B : Keeps s (bump s 1 0x10058) := Keeps.of ((bump_frame ..).sv rfl)
  have K := B.trans (keeps_fenceParty (bump s 1 0x10058) r.party)
  have F := fenceParty_fences (bump s 1 0x10058) r.party h
  unfold startReclaim
  dsimp only
  generalize fenceParty (bump s 1 0x10058) r.party = z at *
  generalize hy : (if (isTw r.party.die && decide (r.party.unit < 4)) = true then _ else z) = y
  have e : y.sv = z.sv := by
    rw [← hy]; split
    · split
      · split
        · rfl
        · exact (faultPanel_same (g₀ := { free := true, regs := true, gz := true, tw := true, mu := true, streams := true, qm := true, seq := true, img := true, rings := true, snap := true, sec := true, sounds := true, seqNo := true }) (Same.refl _ z) rfl rfl rfl rfl rfl rfl rfl rfl rfl rfl rfl rfl rfl rfl).sv rfl
      · exact (faultCore_same (g₀ := { tw := true }) (Same.refl _ z) rfl).sv rfl
    · rfl
  refine ⟨fun k hk => ?_, rfl, rfl, ?_, ?_, ?_⟩
  · show k ∈ y.sv.sticky; rw [e]; exact K.sticky k hk
  · unfold unitFenced at *; simp only [State.onSv_sv, e]; exact F
  · show y.sv.reclaims = _; rw [e]; exact K.waits
  · show y.sv.freeing = _; rw [e]; exact K.freeing

theorem trigger_is (s : State) (r : Reclaim) (h : r.party.die ≠ 1) : Reclaims s (triggerReclaim s r) r ∧
    (∀ k, k ∈ s.sv.sticky → k ∈ (triggerReclaim s r).sv.sticky) ∧ (triggerReclaim s r).sv.freeing = s.sv.freeing := by
  unfold triggerReclaim Reclaims
  cases hr : s.sv.reclaim with
  | none =>
    obtain ⟨a, b, c, d, e, f⟩ := startReclaim_is s r h
    exact ⟨⟨b, c, d, e⟩, a, f⟩
  | some x =>
    dsimp only
    by_cases p : x.party = r.party
    · rw [if_pos p, if_pos p]; exact ⟨⟨rfl, rfl⟩, fun _ h => h, rfl⟩
    · rw [if_neg p, if_neg p]
      cases q : s.sv.reclaims.any fun y => y.party == r.party with
      | true =>
        simp only [if_true]
        refine ⟨⟨hr, ?_⟩, fun _ h => h, rfl⟩
        obtain ⟨y, hy, e⟩ := List.any_eq_true.mp q
        have e' : y.party = r.party := by simpa using e
        exact ⟨{ y with reset := y.reset || r.reset }, List.mem_map.mpr ⟨y, hy, if_pos e'⟩, e', fun z => by simp [z]⟩
      | false =>
        simp only [Bool.false_eq_true, if_false]
        exact ⟨⟨hr, r, by simp, rfl, fun z => z⟩, fun _ h => h, rfl⟩

theorem Reclaims.before {s z t : State} {r : Reclaim} (e : z.sv.reclaim = s.sv.reclaim) (f : z.sv.reclaims = s.sv.reclaims) (h : Reclaims z t r) : Reclaims s t r := by
  unfold Reclaims at *; rw [e, f] at h; exact h

/-- What a panel fault leaves stays: faulted cores, and queues that are neither ACTIVE nor HALTED. -/
structure Down (a b : State) : Prop where
  cores  : ∀ g, (coreOf a g).faulted = true → (coreOf b g).faulted = true
  queues : ∀ q, (queueOf a q).st ≠ qActive ∧ (queueOf a q).st ≠ qHalted → (queueOf b q).st ≠ qActive ∧ (queueOf b q).st ≠ qHalted
theorem Down.refl (a : State) : Down a a := ⟨fun _ h => h, fun _ h => h⟩
theorem Down.trans {a b c : State} (x : Down a b) (y : Down b c) : Down a c := ⟨fun g h => y.cores g (x.cores g h), fun q h => y.queues q (x.queues q h)⟩
theorem Down.of {a b : State} (h : b.tw = a.tw) (k : b.qm.queues = a.qm.queues) : Down a b :=
  ⟨fun g x => by unfold coreOf at *; rw [h]; exact x, fun q x => by unfold queueOf at *; rw [k]; exact x⟩
theorem Down.foldl {α : Type} {f : State → α → State} (hf : ∀ s a, Down s (f s a)) (l : List α) : ∀ s, Down s (l.foldl f s) := by
  induction l with
  | nil => exact Down.refl
  | cons a l ih => exact fun s => (hf s a).trans (ih _)
theorem down_setCore (s : State) (g : Nat) (f : Core → Core) (h : ∀ c, c.faulted = true → (f c).faulted = true) : Down s (setCore s g f) := by
  refine ⟨fun x hx => ?_, fun q k => k⟩
  unfold coreOf at *
  simp only [setCore, State.onTw_tw]
  by_cases e : x = g
  · subst e; rw [lookD_put_self]; exact h _ hx
  · rw [lookD_put_ne _ _ _ _ _ e]; exact hx
theorem down_complete (s : State) (h : Hdr) (u : UnitId) (st : Nat) : Down s (complete s h u st) := Down.of rfl rfl
theorem down_endEarly (s : State) (d : Disp) (st : Nat) : Down s (endEarly s d st) := by
  have F : Same { gz := true, mu := true, streams := true, seq := true, img := true, rings := true, snap := true, sec := true } s (forget (dropReqs s d.hdr) d.hdr) :=
    forget_same (dropReqs_same (Same.refl _ s) rfl) rfl rfl rfl rfl rfl rfl rfl
  have A : Down s (forget (dropReqs s d.hdr) d.hdr) := Down.of (F.tw rfl) (by rw [F.qm rfl])
  have S : ∀ z c t n, Down z (staleTiles z c t n) := fun z c t n => ⟨fun x hx => hx, fun q k => k⟩
  have D : ∀ z c h, Down z (dropShadow z c h) := by
    intro z c h
    unfold dropShadow; split
    · exact down_setCore z c (fun k => { k with shadowFull := false, shadow := [], shadowFor := 0 }) fun _ k => k
    · exact Down.refl z
  unfold endEarly
  dsimp only
  generalize forget (dropReqs s d.hdr) d.hdr = z at *
  refine A.trans ?_
  split
  · split
    · exact ((D ..).trans (S ..)).trans (down_complete ..)
    · exact (D ..).trans (down_complete ..)
  · split
    · exact ((D ..).trans (S ..)).trans (down_complete ..)
    · exact (D ..).trans (down_complete ..)
  · split
    · exact Down.of rfl rfl
    · exact down_complete ..
  · exact down_complete ..
theorem down_setQueue (s : State) (q : Nat) (f : Queue → Queue) (h : ∀ v : Queue, v.st ≠ qActive ∧ v.st ≠ qHalted → (f v).st ≠ qActive ∧ (f v).st ≠ qHalted) : Down s (setQueue s q f) := by
  refine ⟨fun x hx => hx, fun x k => ?_⟩
  unfold queueOf at *
  simp only [setQueue, State.onQm_qm]
  by_cases e : x = q
  · subst e; rw [lookD_put_self]; exact h _ k
  · rw [lookD_put_ne _ _ _ _ _ e]; exact k
theorem down_endFetchedAll (s : State) (q st : Nat) : Down s (endFetchedAll s q st) := by
  unfold endFetchedAll
  refine Down.foldl (fun s x => ?_) _ _
  unfold endFetched
  have A := down_setQueue s q (fun v => { v with fetched := v.fetched.filter fun y => !sameDesc y.hdr x.hdr }) (fun v h => h)
  generalize setQueue s q _ = z at *
  exact A.trans (Down.of rfl rfl)
theorem down_abortStream (s : State) (n st : Nat) : Down s (abortStream s n st) := by
  unfold abortStream
  extract_lets held gone stuck s1 s2 s3
  have A : Down s s1 := Down.of rfl rfl
  have B : Down s1 s2 := Down.foldl (fun s h => by split; exact down_complete ..; exact Down.refl s) _ _
  have C : Down s2 s3 := Down.foldl (fun s d => down_endEarly ..) _ _
  refine ((A.trans B).trans C).trans ?_
  split
  · extract_lets s4
    have D : Down s3 s4 := Down.of rfl rfl
    split
    · exact D.trans (down_complete ..)
    · exact D
  · exact Down.refl _
theorem down_faultCore (s : State) (g : Nat) : Down s (faultCore s g) ∧ (coreOf (faultCore s g) g).faulted = true := by
  have Z : ∀ (l : List Nat) (s : State), (l.foldl (fun s t => (zeroTile s g t).onTw fun w => { w with tiles := del w.tiles (tileKey g t) }) s).tw.cores = s.tw.cores ∧
      (l.foldl (fun s t => (zeroTile s g t).onTw fun w => { w with tiles := del w.tiles (tileKey g t) }) s).qm = s.qm := by
    intro l; induction l with
    | nil => exact fun s => ⟨rfl, rfl⟩
    | cons a l ih => exact fun s => ⟨(ih _).1.trans rfl, (ih _).2.trans rfl⟩
  obtain ⟨z1, z2⟩ := Z (List.range 8) s
  unfold faultCore
  dsimp only
  generalize List.foldl _ s _ = z at *
  have A : Down s z := ⟨fun x hx => by unfold coreOf at *; rw [z1]; exact hx, fun q k => by unfold queueOf at *; rw [z2]; exact k⟩
  refine ⟨A.trans (down_setCore _ _ _ fun c _ => rfl), ?_⟩
  unfold coreOf setCore
  simp
theorem down_queue (s : State) (q : Nat) : let v := (fun s =>
    setQueue (endFetchedAll s q stAbortPanel) q fun v => { v with st := if v.st = qActive || v.st = qHalted then qFaulted else v.st })
    Down s (v s) ∧ (queueOf (v s) q).st ≠ qActive ∧ (queueOf (v s) q).st ≠ qHalted := by
  dsimp only
  have B := down_endFetchedAll s q stAbortPanel
  generalize endFetchedAll s q stAbortPanel = y at *
  have key : ∀ v : Queue, (if (decide (v.st = qActive) || decide (v.st = qHalted)) = true then qFaulted else v.st) ≠ qActive ∧
      (if (decide (v.st = qActive) || decide (v.st = qHalted)) = true then qFaulted else v.st) ≠ qHalted := by
    intro v; split
    · decide
    · rename_i h; simpa using h
  refine ⟨B.trans (down_setQueue _ _ _ fun v _ => key v), ?_⟩
  unfold queueOf setQueue
  simp only [State.onQm_qm, lookD_put_self]
  exact key _
theorem endEarly_inForce (s : State) (d : Disp) (st : Nat) : (endEarly s d st).img.inForce = s.img.inForce := by
  have F : ∀ x h, (forget x h).img.inForce = x.img.inForce := by intro x h; unfold forget; rfl
  have G : (forget (dropReqs s d.hdr) d.hdr).img.inForce = s.img.inForce := F ..
  unfold endEarly
  dsimp only
  generalize forget (dropReqs s d.hdr) d.hdr = z at *
  rw [complete_img]
  have D : ∀ (x : State) c h, (dropShadow x c h).img = x.img := by intro x c h; unfold dropShadow; split <;> rfl
  split
  · split
    · exact (congrArg Img.inForce (D ..)).trans G
    · exact (congrArg Img.inForce (D ..)).trans G
  · split
    · exact (congrArg Img.inForce (D ..)).trans G
    · exact (congrArg Img.inForce (D ..)).trans G
  · split <;> exact G
  · exact G
theorem down_each {f : State → Nat → State} {P : State → Nat → Prop} (hf : ∀ s q, Down s (f s q) ∧ P (f s q) q) (hP : ∀ a b q, Down a b → P a q → P b q)
    (l : List Nat) : ∀ s, Down s (l.foldl f s) ∧ ∀ q ∈ l, P (l.foldl f s) q := by
  induction l with
  | nil => exact fun s => ⟨Down.refl s, fun g h => by cases h⟩
  | cons a l ih =>
    intro s
    obtain ⟨h1, h2⟩ := hf s a
    obtain ⟨i1, i2⟩ := ih (f s a)
    rw [List.foldl_cons]
    refine ⟨h1.trans i1, fun g hg => ?_⟩
    rcases List.mem_cons.mp hg with e | e
    · subst e; exact hP _ _ _ i1 h2
    · exact i2 g e
theorem ends_each {f : State → Disp → State} (hf : ∀ s d, (f s d).qm.queues = s.qm.queues ∧ (f s d).img.inForce = s.img.inForce) (l : List Disp) :
    ∀ s, (l.foldl f s).qm.queues = s.qm.queues ∧ (l.foldl f s).img.inForce = s.img.inForce := by
  induction l with
  | nil => exact fun s => ⟨rfl, rfl⟩
  | cons a l ih => intro s; rw [List.foldl_cons]; exact ⟨(ih _).1.trans (hf s a).1, (ih _).2.trans (hf s a).2⟩
theorem endAll_keeps (s : State) (f : Disp → Bool) (st : Nat) : (endAll s f st).qm.queues = s.qm.queues ∧ (endAll s f st).img.inForce = s.img.inForce := by
  unfold endAll
  exact ends_each (fun s d => ⟨(endEarly_ends s d st).queues, endEarly_inForce ..⟩) _ _
theorem panelOfQueue_inForce {a b : State} (x : a.qm.queues = b.qm.queues) (y : a.img.inForce = b.img.inForce) (q : Nat) : panelOfQueue a q = panelOfQueue b q := by
  have hq : queueRec a q = queueRec b q := by unfold queueRec queue0Up recBy sect; rw [x, y]
  unfold panelOfQueue; rw [hq]
theorem panelQueues_inForce {a b : State} (x : a.qm.queues = b.qm.queues) (y : a.img.inForce = b.img.inForce) (p : Nat) : panelQueues a p = panelQueues b p := by
  unfold panelQueues; rw [x]; congr 1; funext q; rw [panelOfQueue_inForce x y]
theorem down_faultPanel (s : State) (p : Nat) : Down s (faultPanel s p) ∧ PanelDown s (faultPanel s p) p := by
  obtain ⟨c1, c2⟩ := down_each (f := faultCore) (P := fun s g => (coreOf s g).faulted = true) down_faultCore (fun a b q d h => d.cores q h) (panelCores s p) s
  have S1 : Same { tw := true } s ((panelCores s p).foldl faultCore s) := foldl_same_of id (Same.refl _ s) fun b x h => faultCore_same h rfl
  unfold faultPanel
  dsimp only
  generalize List.foldl faultCore s _ = z at *
  have E : Down z (endAll z (fun d => panelOfQueue z d.hdr.queue == some p) stAbortPanel) := by
    unfold endAll; exact Down.foldl (fun s d => down_endEarly ..) _ _
  obtain ⟨t1, t2⟩ := endAll_keeps z (fun d => panelOfQueue z d.hdr.queue == some p) stAbortPanel
  generalize endAll z _ stAbortPanel = y at *
  rw [panelQueues_inForce (b := s) (t1.trans (by rw [S1.qm rfl])) (t2.trans (by rw [S1.img rfl]))]
  obtain ⟨q1, q2⟩ := down_each (P := fun s q => (queueOf s q).st ≠ qActive ∧ (queueOf s q).st ≠ qHalted) down_queue (fun a b q d h => d.queues q h) (panelQueues s p) y
  generalize List.foldl _ y (panelQueues s p) = w at *
  have L := dropPanelLedgers_same (g₀ := { regs := true, gz := true, mu := true, sounds := true, seqNo := true }) (p := p) (Same.refl _ w) rfl rfl rfl rfl rfl
  have D : Down w (dropPanelLedgers w p) := Down.of (L.tw rfl) (by rw [L.qm rfl])
  have T := D.trans (Down.foldl (f := fun s n => abortStream s n stAbortPanel) (fun s n => down_abortStream ..) (panelStreams w p) _)
  generalize List.foldl _ (dropPanelLedgers w p) _ = x at *
  refine ⟨((c1.trans E).trans q1).trans T, fun g hg => ?_, fun q hq => ?_⟩
  · exact ((E.trans q1).trans T).cores g (c2 g hg)
  · exact T.queues q (q2 q hq)
theorem down_fenceParty (s : State) (u : UnitId) : Down s (fenceParty s u) := by
  unfold fenceParty
  dsimp only
  split
  · have A : Down s (s.onSv fun v => { v with fenceCore := ins v.fenceCore (4 * (u.die - 2) + u.unit) }) := Down.of rfl rfl
    exact A.trans (down_setCore _ _ _ fun c h => h)
  split; exact Down.of rfl rfl
  split; exact Down.of rfl rfl
  split; exact Down.of rfl rfl
  split; exact Down.of rfl rfl
  split; exact Down.refl s
  have F : Down s ((List.range 8).foldl (fun s p =>
      match linkPeer u.die p with
      | some e => if fitted s.pkg.variant e then (match portTo e u.die with | some q => failPort s e q | none => s) else s
      | none => s) s) := by
    refine Down.foldl (fun s p => ?_) _ s
    split
    · split
      · split
        · rename_i e _ _ _ q _
          have S : Same { pkg := true, gz := true, sv := true, i3c := true } s (failPort s e q) := failPort_same (Same.refl _ s) rfl rfl rfl rfl
          exact Down.of (S.tw rfl) (by rw [S.qm rfl])
        · exact Down.refl s
      · exact Down.refl s
    · exact Down.refl s
  generalize List.foldl _ _ _ = z at *
  refine F.trans ?_
  split
  · have A := addCause_same (g₀ := { pkg := true, rings := true, sv := true }) (c := causeSelvage) (r₀ := z) (s := ((z.onSv fun v => { v with fence := ins v.fence u.die }).onSv fun v => { v with warmReqs := ins v.warmReqs 8 })) (State.onSv_same (State.onSv_same (Same.refl _ z) rfl) rfl) rfl rfl
    exact Down.of (A.tw rfl) (by rw [A.qm rfl])
  · exact Down.of rfl rfl
theorem down_startReclaim (s : State) (r : Reclaim) : Down s (startReclaim s r) := by
  have B : Down s (bump s 1 0x10058) := Down.of ((bump_frame ..).tw rfl) (by rw [(bump_frame ..).qm rfl])
  have K := B.trans (down_fenceParty (bump s 1 0x10058) r.party)
  unfold startReclaim
  dsimp only
  generalize fenceParty (bump s 1 0x10058) r.party = z at *
  refine K.trans ?_
  have : ∀ y, Down z y → Down z (y.onSv fun v => { v with reclaim := some r, reclaimSt := 2 }) := fun y h => h.trans (Down.of rfl rfl)
  refine this _ ?_
  split
  · split
    · split
      · exact Down.refl z
      · exact (down_faultPanel ..).1
    · exact (down_faultCore ..).1
  · exact Down.refl z
theorem down_trigger (s : State) (r : Reclaim) : Down s (triggerReclaim s r) := by
  unfold triggerReclaim
  split
  · exact down_startReclaim ..
  · split
    · exact Down.of rfl rfl
    · split <;> exact Down.of rfl rfl

end Sys2Proof.Machine
end

