-- ==== Sys2Proof/Laws/FaultEvents.lean ====
section
/-!
SUPPORT. What the shared operations of faults, reclaims and Datum edges do.
-/

namespace Sys2Proof.Machine

open Sys2Proof

theorem core_die (core : Nat) (h : core < 64) : (coreUnit core).die ≠ 1 := by
  unfold coreUnit; dsimp only; omega
theorem sticky_reclaim (s : State) (k : Nat) : (setSticky s k).sv.reclaim = s.sv.reclaim ∧ (setSticky s k).sv.reclaims = s.sv.reclaims :=
  ⟨(keeps_sticky ..).reclaim, (keeps_sticky ..).waits⟩
theorem party_die {s : State} {u : UnitId} (h : isParty s u = true) : u.die ≠ 1 := by
  unfold isParty at h; simp only [Bool.and_eq_true, bne_iff_ne] at h; exact h.1.2
theorem end_is (s : State) (u : UnitId) (h : ∀ x ∈ s.sv.reclaims, x.party.die ≠ 1) : (endReclaim s u).sv.reclaim = s.sv.reclaims.head? ∧
    (endReclaim s u).sv.reclaims = s.sv.reclaims.tail ∧ (endReclaim s u).sv.freeing = s.sv.freeing ++ [u] ∧ ∀ k ∈ s.sv.sticky, k ∈ (endReclaim s u).sv.sticky := by
  unfold endReclaim
  dsimp only
  cases hr : s.sv.reclaims with
  | nil => simp [hr]
  | cons r l =>
    simp only [State.onSv_sv, hr]
    obtain ⟨a, b, c, d, e, f⟩ := startReclaim_is ((s.onSv fun v => { v with reclaim := none, reclaimSt := 0, freeing := v.freeing ++ [u] }).onSv fun v => { v with reclaims := l }) r (h r (by rw [hr]; simp))
    exact ⟨b, e, f, a⟩
theorem faultPanel_keeps (s : State) (p : Nat) : Keeps s (faultPanel s p) := Keeps.of ((faultPanel_same (g₀ := { free := true, regs := true, gz := true, tw := true, mu := true, streams := true, qm := true, seq := true, img := true, rings := true, snap := true, sec := true, sounds := true, seqNo := true }) (Same.refl _ s) rfl rfl rfl rfl rfl rfl rfl rfl rfl rfl rfl rfl rfl rfl).sv rfl)
/-- The panels that a lost die faults (R124): what each holds elsewhere waits for reclaim behind the one that runs (R125, R427). -/
theorem faultDiePanels_waits (s : State) (d : Nat) (r : Reclaim) (h : s.sv.reclaim = some r) (hd : r.party.die = d) :
    ∃ l, (faultDiePanels s d).sv.reclaim = some r ∧ (faultDiePanels s d).sv.reclaims = s.sv.reclaims ++ l ∧ (faultDiePanels s d).sv.freeing = s.sv.freeing ∧
      (∀ k ∈ s.sv.sticky, k ∈ (faultDiePanels s d).sv.sticky) ∧ (l ≠ [] → isTw d = true) ∧ ∀ x ∈ l, isTw x.party.die = true ∧ x.party.die ≠ d ∧ x.kind = 7 := by
  unfold faultDiePanels
  split
  · next tw =>
    dsimp only
    generalize (panelsOnDie s d).filter _ = ps
    induction ps generalizing s with
    | nil => exact ⟨[], h, by simp, rfl, fun _ k => k, fun _ => tw, fun x hx => by cases hx⟩
    | cons p ps ih =>
      rw [List.foldl_cons]
      have F := faultPanel_keeps s p
      have hf : (faultPanel s p).sv.reclaim = some r := F.reclaim.trans h
      cases e : (panelCores (faultPanel s p) p).find? fun g => 2 + g / 4 != d && dieUp (faultPanel s p) (2 + g / 4) with
      | none =>
        dsimp only
        obtain ⟨l, h1, h2, h3, h4, h5, h6⟩ := ih (faultPanel s p) hf
        exact ⟨l, h1, by rw [h2, F.waits], h3.trans F.freeing, fun k hk => h4 k (F.sticky k hk), h5, h6⟩
      | some g =>
        dsimp only
        have hg := List.find?_some e
        simp only [Bool.and_eq_true, bne_iff_ne, ne_eq] at hg
        obtain ⟨x, hx, x1, x2⟩ : ∃ l, (triggerReclaim (faultPanel s p) { party := coreUnit g, kind := 7 }).sv =
            { (faultPanel s p).sv with reclaims := (faultPanel s p).sv.reclaims ++ l } ∧ (l = [] ∨ l = [{ party := coreUnit g, kind := 7 }]) ∧ True := by
          unfold triggerReclaim
          rw [hf]
          dsimp only
          rw [if_neg (by intro q; apply hg.1; rw [← hd, q]; rfl)]
          split
          · refine ⟨[], ?_, .inl rfl, trivial⟩
            have : ((faultPanel s p).sv.reclaims.map fun y => if y.party = coreUnit g then { y with reset := y.reset || false } else y) = (faultPanel s p).sv.reclaims := by
              refine (List.map_congr_left (g := id) fun y _ => ?_).trans (List.map_id _)
              split
              · rw [Bool.or_false]; rfl
              · rfl
            rw [List.append_nil]
            show ({ (faultPanel s p).sv with reclaims := _ } : Selvage) = _
            rw [this]
          · exact ⟨_, rfl, .inr rfl, trivial⟩
        obtain ⟨l, h1, h2, h3, h4, h5, h6⟩ := ih _ (by rw [hx]; exact hf)
        rw [hx] at h2 h3 h4
        refine ⟨x ++ l, h1, by rw [h2]; show _ ++ _ ++ _ = _; rw [F.waits, List.append_assoc], h3.trans F.freeing, fun k hk => h4 k (F.sticky k hk), fun _ => tw, fun y hy => ?_⟩
        rcases List.mem_append.mp hy with k | k
        · rcases x1 with q | q
          · rw [q] at k; cases k
          · rw [q, List.mem_singleton] at k
            rw [k]
            refine ⟨?_, hg.1, rfl⟩
            have hm := List.mem_of_find?_eq_some e
            have : g < 64 := by
              unfold panelCores at hm
              split at hm
              · exact List.mem_range.mp (List.mem_filter.mp hm).1
              · cases hm
            show isTw (2 + g / 4) = true
            unfold isTw; simp; omega
        · exact h6 y k
  · exact ⟨[], h, by simp, rfl, fun _ k => k, fun h => absurd rfl h, fun x hx => by cases hx⟩
/-- The reset of a party: of a die, what comes after the faults of its panels. -/
theorem reset_is (s : State) (u : UnitId) :
    Keeps (if unitParty u then s else faultDiePanels s u.die) (bump (resetParty s u) 1 0x10060) := by
  refine Keeps.trans ?_ (Keeps.of ((bump_frame ..).sv rfl))
  have FP : ∀ p, Keeps s (faultPanel s p) := fun p => faultPanel_keeps s p
  have EA : ∀ (z : State) f st, Keeps z (endAll z f st) := fun z f st => Keeps.of ((endAll_same (g₀ := { free := true, gz := true, tw := true, mu := true, streams := true, qm := true, seq := true, img := true, rings := true, snap := true, sec := true }) (Same.refl _ z) rfl rfl rfl rfl rfl rfl rfl rfl rfl rfl rfl).sv rfl)
  have AB : ∀ (z : State) n st, Keeps z (abortStream z n st) := fun z n st => Keeps.of ((abortStream_same (g₀ := { free := true, gz := true, tw := true, mu := true, streams := true, qm := true, seq := true, img := true, rings := true, snap := true, sec := true }) (Same.refl _ z) rfl rfl rfl rfl rfl rfl rfl rfl rfl rfl rfl).sv rfl)
  have LF : ∀ (z : State) w, Keeps z (liftFence z w) := by
    intro z w; unfold liftFence; dsimp only
    split; exact Keeps.eq rfl rfl rfl rfl
    split; exact keeps_onSv _ _ rfl rfl rfl rfl
    split; exact keeps_onSv _ _ rfl rfl rfl rfl
    split; exact keeps_onSv _ _ rfl rfl rfl rfl
    split; exact keeps_onSv _ _ rfl rfl rfl rfl
    exact Keeps.refl z
  unfold resetParty
  by_cases hc : (isTw u.die && decide (u.unit < 4)) = true
  · rw [if_pos hc, if_pos (by unfold unitParty; simp only [Bool.and_eq_true, decide_eq_true_eq] at hc; simp [hc.1, hc.2])]
    dsimp only
    split
    · split
      · exact Keeps.refl s
      · exact FP _
    · exact Keeps.of ((faultCore_same (g₀ := { tw := true }) (Same.refl _ s) rfl).sv rfl)
  · rw [if_neg hc]
    by_cases hu : unitParty u = true
    · rw [if_pos hu, if_pos hu]
      dsimp only
      have A := EA s (fun x => x.unit == u) stAbortReset
      generalize endAll s _ stAbortReset = z at *
      have B : Keeps s (if u.unit = 5 then
          (moverStreams z u.die).foldl (fun s n => if (strmOf s n).st = sAborted then s else abortStream s n stAbortReset) z else z) := by
        split
        · refine A.trans (Keeps.foldl (fun s n => ?_) _ _)
          split
          · exact Keeps.refl s
          · exact AB ..
        · exact A
      generalize (if u.unit = 5 then _ else z) = y at *
      refine Keeps.trans ?_ (LF _ _)
      split
      · exact B.trans (Keeps.of rfl)
      · exact B
    · rw [if_neg hu, if_neg hu]
      unfold resetDie
      dsimp only
      generalize faultDiePanels s u.die = z
      have L : Keeps z (legendUpdate (z.onPkg fun p => { p with dieFailed := ins p.dieFailed u.die })) :=
        Keeps.of ((legendUpdate_same (g₀ := { pkg := true }) (State.onPkg_same (Same.refl _ z) rfl) rfl).sv rfl)
      generalize legendUpdate _ = y at *
      generalize hy : (if isMu u.die = true then freeDirents y (u.die - 18) else y) = y'
      have L' : Keeps z y' := by
        rw [← hy]; split
        · exact L.trans (Keeps.of ((freeDirents_same (g₀ := { free := true, regs := true, gz := true, mu := true, qm := true, sounds := true, seqNo := true }) (Same.refl _ y) rfl rfl rfl rfl rfl rfl rfl).sv rfl))
        · exact L
      generalize hx : State.onGz _ _ = x
      have X : Keeps z x := L'.trans (Keeps.of (by rw [← hx]; rfl))
      have W := X.trans (EA x (fun x => x.unit.die == u.die) stAbortReset)
      generalize endAll x _ stAbortReset = w at *
      have V : Keeps z ((moverStreams w u.die).foldl (fun s n => if (strmOf s n).st = sAborted then s else abortStream s n stAbortReset) w) := by
        refine W.trans (Keeps.foldl (fun s n => ?_) _ _)
        split
        · exact Keeps.refl s
        · exact AB ..
      generalize List.foldl _ w _ = v at *
      have RL : Keeps v (resetLinkDie v u.die) := Keeps.of ((resetLinkDie_same (g₀ := { pkg := true, rings := true }) (Same.refl _ v) rfl rfl).sv rfl)
      refine V.trans ?_
      split; exact Keeps.of rfl
      split; exact RL.trans (keeps_addCause ..)
      split; exact RL
      split
      · refine Keeps.trans ?_ (keeps_addCause _ _); exact keeps_onSv _ _ rfl rfl rfl rfl
      · exact Keeps.refl v
theorem lift_is (s : State) (u : UnitId) : Keeps s (liftFence s u) := by
  unfold liftFence; dsimp only
  split; exact Keeps.eq rfl rfl rfl rfl
  split; exact keeps_onSv _ _ rfl rfl rfl rfl
  split; exact keeps_onSv _ _ rfl rfl rfl rfl
  split; exact keeps_onSv _ _ rfl rfl rfl rfl
  split; exact keeps_onSv _ _ rfl rfl rfl rfl
  exact Keeps.refl s
theorem Down.panel {s a b : State} {p : Nat} (h : PanelDown s a p) (k : Down a b) : PanelDown s b p :=
  ⟨fun g hg => k.cores g (h.1 g hg), fun q hq => k.queues q (h.2 q hq)⟩
theorem keeps_writeMem (s : State) (a : Nat) (bs : List Byte) : Keeps s (writeMem s a bs) := by
  unfold writeMem
  split
  · exact Keeps.refl s
  · split
    · unfold postFar; dsimp only
      split
      · exact Keeps.trans (Keeps.of ((bump_frame ..).sv rfl)) (keeps_sticky ..)
      · exact Keeps.of rfl
    · exact Keeps.of ((storeMem_same (g₀ := { mem := true, regs := true, mu := true, sounds := true, seqNo := true }) (Same.refl _ s) rfl rfl rfl rfl rfl).sv rfl)
theorem keeps_writeRecord (s : State) (n : Nat) (b : Nat → List Byte) : Keeps s (writeRecord s n b) := by
  unfold writeRecord
  split
  · exact Keeps.refl s
  · dsimp only
    have W := keeps_writeMem s (fld ‹Rec› 4 + 16 * ((ringOf s n).tail % ringSize ‹Rec›)) (b (ringPhase ‹Rec› (ringOf s n)))
    generalize writeMem s _ _ = z at *
    refine W.trans ?_
    split
    · unfold notify; split
      · exact Keeps.of rfl
      · split <;> exact Keeps.of rfl
    · exact Keeps.of rfl
theorem free_keeps (s : State) (u : UnitId) : Keeps s (freeLeases s u) := by
  unfold freeLeases
  dsimp only
  generalize hz : (if unitParty u = true then s else _) = z
  have Z : Keeps s z := by rw [← hz]; split; exact Keeps.refl s; exact Keeps.of rfl
  clear hz
  generalize hy : List.foldl _ z (List.filter _ (sect z 0x13)) = y
  have Y : Keeps s y := by rw [← hy]; refine Z.trans (Keeps.foldl (fun s r => ?_) _ _); exact Keeps.of rfl
  clear hy
  generalize hx : (if (isMu u.die && !unitParty u) = true then _ else y) = x
  have X : Keeps s x := by
    rw [← hx]; split
    · exact Y.trans (Keeps.of ((freeDirents_same (g₀ := { free := true, regs := true, gz := true, mu := true, qm := true, sounds := true, seqNo := true }) (Same.refl _ y) rfl rfl rfl rfl rfl rfl rfl).sv rfl))
    · exact Y
  clear hx
  generalize hw : List.foldl detachRecv x _ = w
  have W : Keeps s w := by
    rw [← hw]; refine X.trans (Keeps.foldl (fun s r => ?_) _ _)
    unfold detachRecv
    dsimp only
    refine Keeps.trans ?_ (Keeps.of ((bump_frame ..).sv rfl))
    refine Keeps.trans ?_ (keeps_writeRecord ..)
    exact Keeps.of rfl
  clear hw
  split
  · split
    · exact W
    · exact W.trans (Keeps.of ((faultPanel_same (g₀ := { free := true, regs := true, gz := true, tw := true, mu := true, streams := true, qm := true, seq := true, img := true, rings := true, snap := true, sec := true, sounds := true, seqNo := true }) (Same.refl _ w) rfl rfl rfl rfl rfl rfl rfl rfl rfl rfl rfl rfl rfl rfl).sv rfl))
  · exact W
/-- Two states agree on what decides whether die d counts. -/
structure Sees (a b : State) (d : Nat) : Prop where
  count : look0 b.ck.count d = look0 a.ck.count d
  err   : d ∈ b.ck.err ↔ d ∈ a.ck.err
  grid  : b.ck.grid = a.ck.grid
  up    : dieUp b d = dieUp a d
theorem on_sticky (s : State) (k : Nat) : (setSticky s k).sv.on = s.sv.on := by
  unfold setSticky; dsimp only; split
  · unfold raiseIbi; split <;> rfl
  · rfl
theorem expire_is (s : State) (d : Nat) : (expireArmed s d).sv.on = s.sv.on ∧ (expireArmed s d).pkg = s.pkg ∧ (expireArmed s d).ck = s.ck ∧ ∀ k, k ∈ s.sv.sticky → k ∈ (expireArmed s d).sv.sticky := by
  unfold expireArmed
  have F : ∀ (l : List Disp) (s : State), let z := l.foldl (fun s x => endEarly (countExpiry s x.unit) x stDeadline) s
      z.sv.on = s.sv.on ∧ z.pkg = s.pkg ∧ z.ck = s.ck ∧ ∀ k, k ∈ s.sv.sticky → k ∈ z.sv.sticky := by
    intro l; induction l with
    | nil => exact fun s => ⟨rfl, rfl, rfl, fun _ h => h⟩
    | cons a l ih =>
      intro s
      have E := endEarly_same (g₀ := { free := true, gz := true, tw := true, mu := true, streams := true, qm := true, seq := true, img := true, rings := true, snap := true, sec := true }) (d := a) (st := stDeadline) (Same.refl _ (countExpiry s a.unit)) rfl rfl rfl rfl rfl rfl rfl rfl rfl rfl rfl
      have C : (countExpiry s a.unit).sv.on = s.sv.on ∧ (countExpiry s a.unit).pkg = s.pkg ∧ (countExpiry s a.unit).ck = s.ck ∧ ∀ k, k ∈ s.sv.sticky → k ∈ (countExpiry s a.unit).sv.sticky := by
        unfold countExpiry
        have B := bump_frame (setSticky s (srcOfUnit a.unit)) a.unit.die 0x4018 0
        have S := sticky_frame s (srcOfUnit a.unit)
        exact ⟨by rw [B.sv rfl, on_sticky], by rw [B.pkg rfl, S.pkg rfl], by rw [B.ck rfl, S.ck rfl], fun k hk => by rw [B.sv rfl]; exact (keeps_sticky ..).sticky k hk⟩
      obtain ⟨h1, h2, h3, h4⟩ := ih (endEarly (countExpiry s a.unit) a stDeadline)
      rw [List.foldl_cons]
      exact ⟨h1.trans (by rw [E.sv rfl]; exact C.1), h2.trans ((E.pkg rfl).trans C.2.1), h3.trans ((E.ck rfl).trans C.2.2.1), fun k hk => h4 k (by rw [E.sv rfl]; exact C.2.2.2 k hk)⟩
  exact F _ s
theorem sample_is (s : State) (b : Bool) (n d : Nat) : (∀ e, e ≠ d → Sees s (sampleDatum s b n d) e) ∧ (∀ k, k ∈ s.sv.sticky → k ∈ (sampleDatum s b n d).sv.sticky) ∧
    (sampleDatum s b n d).ck.driven = s.ck.driven ∧ (sampleDatum s b n d).ck.pending = s.ck.pending ∧ (sampleDatum s b n d).ck.sent = s.ck.sent ∧
    (b = true → (sampleDatum s b n d).ck.count = s.ck.count) ∧
    (dieUp s d = true → d ∈ s.ck.grid → d ∉ s.ck.err →
      let c := (look0 s.ck.count d + 1) % 2 ^ 32
      if b = true ∨ bit n 1 ≠ bit c 1 then d ∈ (sampleDatum s b n d).ck.err ∧ srcClock d ∈ (sampleDatum s b n d).sv.sticky ∧ look0 (sampleDatum s b n d).ck.count d = look0 s.ck.count d
      else d ∉ (sampleDatum s b n d).ck.err ∧ look0 (sampleDatum s b n d).ck.count d = c) := by
  unfold sampleDatum
  dsimp only
  split
  · rename_i h
    refine ⟨fun e _ => ⟨rfl, Iff.rfl, rfl, rfl⟩, fun _ h => h, rfl, rfl, rfl, fun _ => rfl, fun u g er => ?_⟩
    simp [u, g, er] at h
  · split
    · rename_i hb
      generalize hz : s.onCk (fun k => { k with err := ins k.err d }) = z
      have S := sticky_frame z (srcClock d)
      obtain ⟨h1, h2, h3, h4⟩ := expire_is (setSticky z (srcClock d)) d
      generalize expireArmed (setSticky z (srcClock d)) d = y at *
      have yc : y.ck = { s.ck with err := ins s.ck.err d } := by rw [h3, S.ck rfl, ← hz]; rfl
      have yp : y.pkg = s.pkg := by rw [h2, S.pkg rfl, ← hz]; rfl
      have yo : y.sv.on = s.sv.on := by rw [h1, on_sticky, ← hz]; rfl
      refine ⟨fun e he => ⟨by rw [yc], by rw [yc]; simp [he], by rw [yc], by unfold dieUp; rw [yp, yo]⟩, fun k hk => h4 k ((keeps_sticky ..).sticky k (by rw [← hz]; exact hk)), by rw [yc], by rw [yc], by rw [yc], fun _ => by rw [yc], fun _ _ _ => ?_⟩
      rw [if_pos (by simpa using hb)]
      exact ⟨by rw [yc]; exact ins_self _ _, h4 _ (setSticky_mem ..), by rw [yc]⟩
    · rename_i hb
      refine ⟨fun e he => ⟨look0_put_ne _ _ _ _ he, Iff.rfl, rfl, rfl⟩, fun _ h => h, rfl, rfl, rfl, fun b1 => by simp [b1] at hb, fun _ _ er => ?_⟩
      rw [if_neg (by simpa using hb)]
      exact ⟨er, look0_put_self _ _ _⟩
theorem sample_all (f : Nat → Bool) (n : Nat) (l : List Nat) : ∀ (s : State), l.Nodup → let z := l.foldl (fun s d => sampleDatum s (f d) n d) s
    (∀ e, e ∉ l → Sees s z e) ∧ (∀ k, k ∈ s.sv.sticky → k ∈ z.sv.sticky) ∧ z.ck.driven = s.ck.driven ∧ z.ck.pending = s.ck.pending ∧ z.ck.sent = s.ck.sent ∧
    ((∀ d ∈ l, f d = true) → z.ck.count = s.ck.count) ∧
    (∀ d, d ∈ l → dieUp s d = true → d ∈ s.ck.grid → d ∉ s.ck.err →
      let c := (look0 s.ck.count d + 1) % 2 ^ 32
      if f d = true ∨ bit n 1 ≠ bit c 1 then d ∈ z.ck.err ∧ srcClock d ∈ z.sv.sticky ∧ look0 z.ck.count d = look0 s.ck.count d
      else d ∉ z.ck.err ∧ look0 z.ck.count d = c) := by
  induction l with
  | nil => exact fun s _ => ⟨fun _ _ => ⟨rfl, Iff.rfl, rfl, rfl⟩, fun _ h => h, rfl, rfl, rfl, fun _ => rfl, fun _ h => by cases h⟩
  | cons a l ih =>
    intro s nd z
    obtain ⟨na, nl⟩ := List.nodup_cons.mp nd
    obtain ⟨a1, a2, a3, a4, a5, a6, a7⟩ := sample_is s (f a) n a
    obtain ⟨i1, i2, i3, i4, i5, i6, i7⟩ := ih (sampleDatum s (f a) n a) nl
    have zz : z = l.foldl (fun s d => sampleDatum s (f d) n d) (sampleDatum s (f a) n a) := rfl
    clear_value z
    subst zz
    refine ⟨fun e he => ?_, fun k hk => i2 k (a2 k hk), i3.trans a3, i4.trans a4, i5.trans a5, fun h => (i6 fun d hd => h d (by simp [hd])).trans (a6 (h a (by simp))), fun d hd u g er => ?_⟩
    · have h1 : e ≠ a := fun x => he (by simp [x])
      have h2 : e ∉ l := fun x => he (by simp [x])
      exact ⟨(i1 e h2).count.trans (a1 e h1).count, (i1 e h2).err.trans (a1 e h1).err, (i1 e h2).grid.trans (a1 e h1).grid, (i1 e h2).up.trans (a1 e h1).up⟩
    · by_cases e : d = a
      · subst e
        have R := a7 u g er
        have K := i1 d na
        dsimp only at R ⊢
        split at R
        · rename_i c; rw [if_pos c]; exact ⟨K.err.mpr R.1, i2 _ R.2.1, K.count.trans R.2.2⟩
        · rename_i c; rw [if_neg c]; exact ⟨fun x => R.1 (K.err.mp x), K.count.trans R.2⟩
      · have hl : d ∈ l := by simpa [e] using hd
        have K := a1 d e
        have R := i7 d hl (K.up.trans u) (by rw [K.grid]; exact g) (fun x => er (K.err.mp x))
        rw [K.count] at R
        exact R

end Sys2Proof.Machine
end

