-- ==== Sys2Proof/Laws/SameHost.lean ====
section
/-!
SUPPORT. What the definitions of Machine/Host.lean may change (Laws/Same.lean).
-/

set_option linter.all false

namespace Sys2Proof.Machine

open Sys2Proof

theorem badAccess_same {r₀ : State} {g₀ : Groups} {s : State} (h1 : Same g₀ r₀ s) (m_regs : g₀.regs = true)
    (m_sounds : g₀.sounds = true) (m_seqNo : g₀.seqNo = true) : Same g₀ r₀ (badAccess s) := by
  unfold badAccess
  repeat' first
    | with_reducible assumption | intro _ | with_reducible apply bump_same | with_reducible apply ite_same
    | with_reducible apply foldl_same | (refine Same.ofSnd (by assumption) ?_) | dsimp only | split

theorem hostReply_same {r₀ : State} {g₀ : Groups} {s : State} {bs : List Byte} {poison : Bool} (h1 : Same g₀ r₀ s)
    (m_host : g₀.host = true) : Same g₀ r₀ (hostReply s bs poison) := by
  unfold hostReply
  repeat' first
    | with_reducible assumption | intro _ | with_reducible apply State.onHost_same | with_reducible apply ite_same
    | with_reducible apply foldl_same | (refine Same.ofSnd (by assumption) ?_) | dsimp only | split

theorem hostReadDa_same {r₀ : State} {g₀ : Groups} {s : State} {da n : Nat} (h1 : Same g₀ r₀ s) (m_free : g₀.free = true)
    (m_mem : g₀.mem = true) (m_regs : g₀.regs = true) (m_mu : g₀.mu = true) (m_sv : g₀.sv = true) (m_host : g₀.host = true)
    (m_i3c : g₀.i3c = true) (m_sounds : g₀.sounds = true) (m_seqNo : g₀.seqNo = true) : Same g₀ r₀ (hostReadDa s da n) := by
  unfold hostReadDa
  repeat' first
    | with_reducible assumption | intro _ | with_reducible apply State.took_same | with_reducible apply checkRead_same
    | with_reducible apply badAccess_same | with_reducible apply hostReply_same | with_reducible apply ite_same
    | with_reducible apply ite_same_snd | with_reducible apply foldl_same | with_reducible apply foldl_same_snd
    | (refine Same.ofSnd (by assumption) ?_) | dsimp only | split

theorem dropPosted_same {r₀ : State} {g₀ : Groups} {s : State} {p : Posted} (h1 : Same g₀ r₀ s) (m_mem : g₀.mem = true)
    : Same g₀ r₀ (dropPosted s p) := by
  unfold dropPosted
  repeat' first
    | with_reducible assumption | intro _ | with_reducible apply State.onMem_same | with_reducible apply ite_same
    | with_reducible apply foldl_same | (refine Same.ofSnd (by assumption) ?_) | dsimp only | split

theorem losePosted_same {r₀ : State} {g₀ : Groups} {s : State} {p : Posted} (h1 : Same g₀ r₀ s) (m_free : g₀.free = true)
    (m_mem : g₀.mem = true) (m_regs : g₀.regs = true) (m_qm : g₀.qm = true) (m_sv : g₀.sv = true) (m_i3c : g₀.i3c = true)
    (m_sounds : g₀.sounds = true) (m_seqNo : g₀.seqNo = true) : Same g₀ r₀ (losePosted s p) := by
  unfold losePosted
  repeat' first
    | with_reducible assumption | intro _ | with_reducible apply bump_same | with_reducible apply answered_same
    | with_reducible apply setSticky_same | with_reducible apply dropPosted_same | with_reducible apply ite_same
    | with_reducible apply foldl_same | (refine Same.ofSnd (by assumption) ?_) | dsimp only | split

theorem execFarCplTimeout_same {r₀ : State} {g₀ : Groups} {port tag : Nat} {s : State} {t₀}
    (e₀ : execFarCplTimeout port tag s = .next t₀) (h3 : Same g₀ r₀ s) (m_free : g₀.free = true) (m_mem : g₀.mem = true)
    (m_regs : g₀.regs = true) (m_qm : g₀.qm = true) (m_sv : g₀.sv = true) (m_i3c : g₀.i3c = true) (m_sounds : g₀.sounds = true)
    (m_seqNo : g₀.seqNo = true) : Same g₀ r₀ t₀ := by
  unfold execFarCplTimeout at e₀
  repeat' first | contradiction | (injection e₀ with e₀; subst e₀) | dsimp only at e₀ | (split at e₀)
  repeat' first
    | with_reducible assumption | intro _ | with_reducible apply bump_same | with_reducible apply losePosted_same
    | with_reducible apply State.onMem_same | with_reducible apply setSticky_same | with_reducible apply ite_same
    | with_reducible apply foldl_same | (refine Same.ofSnd (by assumption) ?_) | dsimp only | split

theorem execCoreFence_same {r₀ : State} {g₀ : Groups} {core : Nat} {s : State} {t₀} (e₀ : execCoreFence core s = .next t₀)
    (h2 : Same g₀ r₀ s) (m_cores : g₀.cores = true) : Same g₀ r₀ t₀ := by
  unfold execCoreFence at e₀
  repeat' first | contradiction | (injection e₀ with e₀; subst e₀) | dsimp only at e₀ | (split at e₀)
  repeat' first
    | with_reducible assumption | intro _ | with_reducible apply State.onCores_same | with_reducible apply ite_same
    | with_reducible apply foldl_same | (refine Same.ofSnd (by assumption) ?_) | dsimp only | split

theorem sendStore_same {r₀ : State} {g₀ : Groups} {s : State} {core da : Nat} {bs : List Byte} (h1 : Same g₀ r₀ s)
    (m_gz : g₀.gz = true) (m_cores : g₀.cores = true) : Same g₀ r₀ (sendStore s core da bs) := by
  unfold sendStore
  repeat' first
    | with_reducible assumption | intro _ | with_reducible apply State.onCores_same | with_reducible apply sendFlit_same
    | with_reducible apply openReq_same | with_reducible apply ite_same | with_reducible apply foldl_same
    | (refine Same.ofSnd (by assumption) ?_) | dsimp only | split

theorem coreAnswer_same {r₀ : State} {g₀ : Groups} {s : State} {core : Nat} {bs : List Byte} {fault : Bool} (h1 : Same g₀ r₀ s)
    (m_cores : g₀.cores = true) : Same g₀ r₀ (coreAnswer s core bs fault) := by
  unfold coreAnswer
  repeat' first
    | with_reducible assumption | intro _ | with_reducible apply State.onCores_same | with_reducible apply ite_same
    | with_reducible apply foldl_same | (refine Same.ofSnd (by assumption) ?_) | dsimp only | split

theorem execCoreStore_same {r₀ : State} {g₀ : Groups} {core : Nat} {agent : Agent} {da : Nat} {data : List Byte} {s : State} {t₀}
    (e₀ : execCoreStore core agent da data s = .next t₀) (h5 : Same g₀ r₀ s) (m_free : g₀.free = true) (m_mem : g₀.mem = true)
    (m_regs : g₀.regs = true) (m_gz : g₀.gz = true) (m_ck : g₀.ck = true) (m_tw : g₀.tw = true) (m_mu : g₀.mu = true)
    (m_streams : g₀.streams = true) (m_qm : g₀.qm = true) (m_seq : g₀.seq = true) (m_img : g₀.img = true)
    (m_rings : g₀.rings = true) (m_snap : g₀.snap = true) (m_sv : g₀.sv = true) (m_sec : g₀.sec = true) (m_ct : g₀.ct = true)
    (m_host : g₀.host = true) (m_i3c : g₀.i3c = true) (m_sounds : g₀.sounds = true) (m_seqNo : g₀.seqNo = true)
    (m_cores : g₀.cores = true) : Same g₀ r₀ t₀ := by
  unfold execCoreStore at e₀
  repeat' first | contradiction | (injection e₀ with e₀; subst e₀) | dsimp only at e₀ | (split at e₀)
  repeat' first
    | with_reducible assumption | intro _ | with_reducible apply writeReg_same | with_reducible apply sendStore_same
    | with_reducible apply coreAnswer_same | with_reducible apply ite_same | with_reducible apply foldl_same
    | (refine Same.ofSnd (by assumption) ?_) | dsimp only | split

theorem execCoreLoad_same {r₀ : State} {g₀ : Groups} {core : Nat} {agent : Agent} {da len : Nat} {s : State} {t₀}
    (e₀ : execCoreLoad core agent da len s = .next t₀) (h5 : Same g₀ r₀ s) (m_free : g₀.free = true) (m_mem : g₀.mem = true)
    (m_regs : g₀.regs = true) (m_mu : g₀.mu = true) (m_sv : g₀.sv = true) (m_i3c : g₀.i3c = true) (m_sounds : g₀.sounds = true)
    (m_seqNo : g₀.seqNo = true) (m_cores : g₀.cores = true) : Same g₀ r₀ t₀ := by
  unfold execCoreLoad at e₀
  repeat' first | contradiction | (injection e₀ with e₀; subst e₀) | dsimp only at e₀ | (split at e₀)
  repeat' first
    | with_reducible assumption | intro _ | with_reducible apply State.took_same | with_reducible apply checkRead_same
    | with_reducible apply coreAnswer_same | with_reducible apply ite_same | with_reducible apply ite_same_snd
    | with_reducible apply foldl_same | with_reducible apply foldl_same_snd | (refine Same.ofSnd (by assumption) ?_) | dsimp only
    | split

theorem execHostRead_same {r₀ : State} {g₀ : Groups} {bar : Bool} {addr len : Nat} {s : State} {t₀}
    (e₀ : execHostRead bar addr len s = .next t₀) (h4 : Same g₀ r₀ s) (m_free : g₀.free = true) (m_mem : g₀.mem = true)
    (m_regs : g₀.regs = true) (m_mu : g₀.mu = true) (m_sv : g₀.sv = true) (m_host : g₀.host = true) (m_i3c : g₀.i3c = true)
    (m_sounds : g₀.sounds = true) (m_seqNo : g₀.seqNo = true) : Same g₀ r₀ t₀ := by
  unfold execHostRead at e₀
  repeat' first | contradiction | (injection e₀ with e₀; subst e₀) | dsimp only at e₀ | (split at e₀)
  repeat' first
    | with_reducible assumption | intro _ | with_reducible apply State.onHost_same | with_reducible apply State.took_same
    | with_reducible apply badAccess_same | with_reducible apply hostReadDa_same | with_reducible apply hostReply_same
    | with_reducible apply ite_same | with_reducible apply foldl_same | (refine Same.ofSnd (by assumption) ?_) | dsimp only
    | split

theorem clearHost_same {r₀ : State} {g₀ : Groups} {s : State} (h1 : Same g₀ r₀ s) (m_regs : g₀.regs = true)
    (m_host : g₀.host = true) : Same g₀ r₀ (clearHost s) := by
  unfold clearHost
  repeat' first
    | with_reducible assumption | intro _ | with_reducible apply State.onHost_same | with_reducible apply State.onRegs_same
    | with_reducible apply ite_same | with_reducible apply foldl_same | (refine Same.ofSnd (by assumption) ?_) | dsimp only
    | split

theorem trainHost_same {r₀ : State} {g₀ : Groups} {s : State} (h1 : Same g₀ r₀ s) (m_free : g₀.free = true)
    (m_host : g₀.host = true) : Same g₀ r₀ (trainHost s) := by
  unfold trainHost
  repeat' first
    | with_reducible assumption | intro _ | with_reducible apply State.onHost_same | with_reducible apply State.took_same
    | with_reducible apply ite_same | with_reducible apply foldl_same | (refine Same.ofSnd (by assumption) ?_) | dsimp only
    | split

theorem execHlPerstN_same {r₀ : State} {g₀ : Groups} {high : Bool} {s : State} {t₀} (e₀ : execHlPerstN high s = .next t₀)
    (h2 : Same g₀ r₀ s) (m_free : g₀.free = true) (m_regs : g₀.regs = true) (m_host : g₀.host = true)
    (m_sounds : g₀.sounds = true) (m_seqNo : g₀.seqNo = true) : Same g₀ r₀ t₀ := by
  unfold execHlPerstN at e₀
  repeat' first | contradiction | (injection e₀ with e₀; subst e₀) | dsimp only at e₀ | (split at e₀)
  repeat' first
    | with_reducible assumption | intro _ | with_reducible apply bump_same | with_reducible apply State.onHost_same
    | with_reducible apply clearHost_same | with_reducible apply trainHost_same | with_reducible apply ite_same
    | with_reducible apply foldl_same | (refine Same.ofSnd (by assumption) ?_) | dsimp only | split

theorem hostWriteFar_same {r₀ : State} {g₀ : Groups} {s : State} {da : Nat} {bs : List Byte} (h1 : Same g₀ r₀ s)
    (m_mem : g₀.mem = true) (m_regs : g₀.regs = true) (m_mu : g₀.mu = true) (m_sv : g₀.sv = true) (m_i3c : g₀.i3c = true)
    (m_sounds : g₀.sounds = true) (m_seqNo : g₀.seqNo = true) : Same g₀ r₀ (hostWriteFar s da bs) := by
  unfold hostWriteFar
  repeat' first
    | with_reducible assumption | intro _ | with_reducible apply postFar_same | with_reducible apply storeMem_same
    | with_reducible apply ite_same | with_reducible apply foldl_same | (refine Same.ofSnd (by assumption) ?_) | dsimp only
    | split

theorem setFar_same {r₀ : State} {g₀ : Groups} {s : State} {p : Nat} {f : FarPort → FarPort} (h1 : Same g₀ r₀ s)
    (m_pkg : g₀.pkg = true) : Same g₀ r₀ (setFar s p f) := by
  unfold setFar
  repeat' first
    | with_reducible assumption | intro _ | with_reducible apply legendUpdate_same | with_reducible apply State.onPkg_same
    | with_reducible apply ite_same | with_reducible apply foldl_same | (refine Same.ofSnd (by assumption) ?_) | dsimp only
    | split

theorem hostWriteRegs_same {r₀ : State} {g₀ : Groups} {da : Nat} {bs : List Byte} {a2 a3 : Nat} {a4 : State} (h5 : Same g₀ r₀ a4)
    (m_free : g₀.free = true) (m_mem : g₀.mem = true) (m_regs : g₀.regs = true) (m_gz : g₀.gz = true) (m_ck : g₀.ck = true)
    (m_tw : g₀.tw = true) (m_mu : g₀.mu = true) (m_streams : g₀.streams = true) (m_qm : g₀.qm = true) (m_seq : g₀.seq = true)
    (m_img : g₀.img = true) (m_rings : g₀.rings = true) (m_snap : g₀.snap = true) (m_sv : g₀.sv = true) (m_sec : g₀.sec = true)
    (m_ct : g₀.ct = true) (m_host : g₀.host = true) (m_i3c : g₀.i3c = true) (m_sounds : g₀.sounds = true)
    (m_seqNo : g₀.seqNo = true) : Same g₀ r₀ (hostWriteRegs da bs a2 a3 a4) := by
  induction a2 generalizing a3 a4 with
  | zero =>
    unfold hostWriteRegs
    repeat' first
      | with_reducible assumption | intro _ | with_reducible apply writeReg_same | with_reducible apply badAccess_same
      | with_reducible apply ite_same | with_reducible apply foldl_same | (refine Same.ofSnd (by assumption) ?_) | dsimp only
      | split
  | succ _ ih =>
    unfold hostWriteRegs
    repeat' first
      | with_reducible assumption | intro _ | with_reducible apply ih | with_reducible apply writeReg_same
      | with_reducible apply badAccess_same | with_reducible apply ite_same | with_reducible apply foldl_same
      | (refine Same.ofSnd (by assumption) ?_) | dsimp only | split

theorem hostWriteDa_same {r₀ : State} {g₀ : Groups} {s : State} {da : Nat} {bs : List Byte} (h1 : Same g₀ r₀ s)
    (m_free : g₀.free = true) (m_mem : g₀.mem = true) (m_regs : g₀.regs = true) (m_gz : g₀.gz = true) (m_ck : g₀.ck = true)
    (m_tw : g₀.tw = true) (m_mu : g₀.mu = true) (m_streams : g₀.streams = true) (m_qm : g₀.qm = true) (m_seq : g₀.seq = true)
    (m_img : g₀.img = true) (m_rings : g₀.rings = true) (m_snap : g₀.snap = true) (m_sv : g₀.sv = true) (m_sec : g₀.sec = true)
    (m_ct : g₀.ct = true) (m_host : g₀.host = true) (m_i3c : g₀.i3c = true) (m_sounds : g₀.sounds = true)
    (m_seqNo : g₀.seqNo = true) : Same g₀ r₀ (hostWriteDa s da bs) := by
  unfold hostWriteDa
  repeat' first
    | with_reducible assumption | intro _ | with_reducible apply hostWriteFar_same | with_reducible apply writeWords_same
    | with_reducible apply hostWriteRegs_same | with_reducible apply storeMem_same | with_reducible apply badAccess_same
    | with_reducible apply ite_same | with_reducible apply foldl_same | (refine Same.ofSnd (by assumption) ?_) | dsimp only
    | split

theorem execHostWrite_same {r₀ : State} {g₀ : Groups} {bar : Bool} {addr : Nat} {data : List Byte} {s : State} {t₀}
    (e₀ : execHostWrite bar addr data s = .next t₀) (h4 : Same g₀ r₀ s) (m_free : g₀.free = true) (m_mem : g₀.mem = true)
    (m_regs : g₀.regs = true) (m_gz : g₀.gz = true) (m_ck : g₀.ck = true) (m_tw : g₀.tw = true) (m_mu : g₀.mu = true)
    (m_streams : g₀.streams = true) (m_qm : g₀.qm = true) (m_seq : g₀.seq = true) (m_img : g₀.img = true)
    (m_rings : g₀.rings = true) (m_snap : g₀.snap = true) (m_sv : g₀.sv = true) (m_sec : g₀.sec = true) (m_ct : g₀.ct = true)
    (m_host : g₀.host = true) (m_i3c : g₀.i3c = true) (m_sounds : g₀.sounds = true) (m_seqNo : g₀.seqNo = true)
    : Same g₀ r₀ t₀ := by
  unfold execHostWrite at e₀
  repeat' first | contradiction | (injection e₀ with e₀; subst e₀) | dsimp only at e₀ | (split at e₀)
  repeat' first
    | with_reducible assumption | intro _ | with_reducible apply writeReg_same | with_reducible apply State.onHost_same
    | with_reducible apply badAccess_same | with_reducible apply hostWriteDa_same | with_reducible apply ite_same
    | with_reducible apply foldl_same | (refine Same.ofSnd (by assumption) ?_) | dsimp only | split

theorem execFarRetrain_same {r₀ : State} {g₀ : Groups} {port link expanders gib : Nat} {s : State} {t₀}
    (e₀ : execFarRetrain port link expanders gib s = .next t₀) (h5 : Same g₀ r₀ s) (m_free : g₀.free = true)
    (m_pkg : g₀.pkg = true) : Same g₀ r₀ t₀ := by
  unfold execFarRetrain at e₀
  repeat' first | contradiction | (injection e₀ with e₀; subst e₀) | dsimp only at e₀ | (split at e₀)
  repeat' first
    | with_reducible assumption | intro _ | with_reducible apply setFar_same | with_reducible apply State.took_same
    | with_reducible apply ite_same | with_reducible apply foldl_same | (refine Same.ofSnd (by assumption) ?_) | dsimp only
    | split

theorem execCxlMemCompletion_same {r₀ : State} {g₀ : Groups} {port tag : Nat} {s : State} {t₀}
    (e₀ : execCxlMemCompletion port tag s = .next t₀) (h3 : Same g₀ r₀ s) (m_free : g₀.free = true) (m_mem : g₀.mem = true)
    (m_regs : g₀.regs = true) (m_mu : g₀.mu = true) (m_qm : g₀.qm = true) (m_sounds : g₀.sounds = true)
    (m_seqNo : g₀.seqNo = true) : Same g₀ r₀ t₀ := by
  unfold execCxlMemCompletion at e₀
  repeat' first | contradiction | (injection e₀ with e₀; subst e₀) | dsimp only at e₀ | (split at e₀)
  repeat' first
    | with_reducible assumption | intro _ | with_reducible apply answered_same | with_reducible apply dropPosted_same
    | with_reducible apply storeMem_same | with_reducible apply ite_same | with_reducible apply foldl_same
    | (refine Same.ofSnd (by assumption) ?_) | dsimp only | split

theorem execHostLinkReset_same {r₀ : State} {g₀ : Groups} {s : State} {t₀} (e₀ : execHostLinkReset s = .next t₀)
    (h1 : Same g₀ r₀ s) (m_free : g₀.free = true) (m_regs : g₀.regs = true) (m_host : g₀.host = true)
    (m_sounds : g₀.sounds = true) (m_seqNo : g₀.seqNo = true) : Same g₀ r₀ t₀ := by
  unfold execHostLinkReset at e₀
  repeat' first | contradiction | (injection e₀ with e₀; subst e₀) | dsimp only at e₀ | (split at e₀)
  repeat' first
    | with_reducible assumption | intro _ | with_reducible apply bump_same | with_reducible apply clearHost_same
    | with_reducible apply State.took_same | with_reducible apply trainHost_same | with_reducible apply ite_same
    | with_reducible apply foldl_same | (refine Same.ofSnd (by assumption) ?_) | dsimp only | split

theorem execFarLinkLoss_same {r₀ : State} {g₀ : Groups} {port : Nat} {s : State} {t₀} (e₀ : execFarLinkLoss port s = .next t₀)
    (h2 : Same g₀ r₀ s) (m_free : g₀.free = true) (m_pkg : g₀.pkg = true) (m_mem : g₀.mem = true) (m_regs : g₀.regs = true)
    (m_qm : g₀.qm = true) (m_sv : g₀.sv = true) (m_i3c : g₀.i3c = true) (m_sounds : g₀.sounds = true) (m_seqNo : g₀.seqNo = true)
    : Same g₀ r₀ t₀ := by
  unfold execFarLinkLoss at e₀
  repeat' first | contradiction | (injection e₀ with e₀; subst e₀) | dsimp only at e₀ | (split at e₀)
  repeat' first
    | with_reducible assumption | intro _ | with_reducible apply losePosted_same | with_reducible apply setFar_same
    | with_reducible apply ite_same | with_reducible apply foldl_same | (refine Same.ofSnd (by assumption) ?_) | dsimp only
    | split

end Sys2Proof.Machine
end

