-- ==== Sys2Proof/Laws/HostLink.lean ====
section
/-!
SUPPORT. What the shared operations of the host link, the cores and the far ports do.
-/

namespace Sys2Proof.Machine

open Sys2Proof

theorem readBytes_length (m : Mem) (a n : Nat) : (readBytes m a n).length = n := by simp [readBytes]
theorem regBytes_one (s : State) (d off : Nat) : (readRegBytes s d off 1).length = 1 := by
  unfold readRegBytes; simp [leBytes_length]; omega
theorem regSpace_length (s : State) (da n : Nat) : (readRegSpace s da n).length = n := by
  unfold readRegSpace
  rw [List.length_flatMap]
  have : (List.map (fun i => (readRegBytes s ((da + i) % regBase / 2 ^ 32) ((da + i) % 2 ^ 32) 1).length) (List.range n)) = List.map (fun _ => 1) (List.range n) := by
    apply List.map_congr_left; intros; exact regBytes_one ..
  simp only [this, List.map_const', List.length_range, List.sum_replicate_nat, Nat.mul_one]
theorem erase_fold {α : Type} [BEq α] [LawfulBEq α] (P : α → Bool) : ∀ (l : List α), (l.filter P).foldl List.erase l = l.filter fun x => !P x := by
  have A : ∀ (a : α) (m l : List α), (∀ x ∈ m, P x = true) → P a = false → m.foldl List.erase (a :: l) = a :: m.foldl List.erase l := by
    intro a m
    induction m with
    | nil => exact fun _ _ _ => rfl
    | cons b m ih =>
      intro l h ha
      have e : (a == b) = false := by
        cases q : a == b with
        | false => rfl
        | true => rw [LawfulBEq.eq_of_beq q, h b (by simp)] at ha; cases ha
      rw [List.foldl_cons, List.erase_cons_tail (by rw [e]; simp), ih _ (fun x hx => h x (by simp [hx])) ha, List.foldl_cons]
  intro l
  induction l with
  | nil => rfl
  | cons a l ih =>
    cases h : P a with
    | true => rw [List.filter_cons_of_pos h, List.foldl_cons, List.erase_cons_head, ih, List.filter_cons_of_neg (by simp [h])]
    | false => rw [List.filter_cons_of_neg (by simp [h]), A a _ l (fun x hx => (List.mem_filter.1 hx).2) h, ih, List.filter_cons_of_pos (by simp [h])]
theorem lose_mem (s : State) (p : Posted) : (losePosted s p).mem = { s.mem with posted := s.mem.posted.erase p } ∧
    (losePosted s p).regs = (bump s 0 (fpReg p.port + 0x18)).regs ∧ (losePosted s p).pkg = s.pkg ∧ (∀ k ∈ s.sv.sticky, k ∈ (losePosted s p).sv.sticky) ∧
    srcFar p.port ∈ (losePosted s p).sv.sticky := by
  unfold losePosted
  generalize hz : setSticky _ _ = z
  have A := fun k l => answered_same (g₀ := { free := true, qm := true }) (Same.refl _ z) rfl rfl (key := k) (st := l) (late := false)
  have B := sticky_frame (bump (dropPosted s p) 0 (fpReg p.port + 24)) (srcFar p.port)
  have C := bump_frame (dropPosted s p) 0 (fpReg p.port + 24) 0
  rw [hz] at B
  have K := keeps_sticky (bump (dropPosted s p) 0 (fpReg p.port + 24)) (srcFar p.port)
  have M := sticky_mem (bump (dropPosted s p) 0 (fpReg p.port + 24)) (srcFar p.port)
  rw [hz] at K M
  refine ⟨?_, ?_, ?_, fun k hk => ?_, ?_⟩
  · rw [(A ..).mem rfl, B.mem rfl, C.mem rfl]; rfl
  · rw [(A ..).regs rfl, B.regs rfl]; exact bump_regs_congr rfl
  · rw [(A ..).pkg rfl, B.pkg rfl, C.pkg rfl]; rfl
  · rw [(A ..).sv rfl]; exact K.sticky k (by rw [C.sv rfl]; exact hk)
  · rw [(A ..).sv rfl]; exact M
theorem far_fold (l : List Posted) : ∀ s, (l.foldl losePosted s).mem = { s.mem with posted := l.foldl List.erase s.mem.posted } ∧ (l.foldl losePosted s).pkg = s.pkg := by
  induction l with
  | nil => exact fun s => ⟨rfl, rfl⟩
  | cons a l ih =>
    intro s
    obtain ⟨m, _, k, _, _⟩ := lose_mem s a
    rw [List.foldl_cons, (ih _).1, (ih _).2, k, m]; exact ⟨rfl, rfl⟩
theorem setFar_far (s : State) (p : Nat) (f : FarPort → FarPort) : (setFar s p f).pkg.far = put s.pkg.far p (f (lookD s.pkg.far p {})) := by
  unfold setFar legendUpdate; split <;> rfl
theorem clear_regs (s : State) : (clearHost s).regs = keep (fun k _ => !(k = 0x50008 || k = 0x50040 || (0x50100 ≤ k && k ≤ 0x501F8))) s.regs := rfl

end Sys2Proof.Machine
end

