-- ==== Sys2Proof/Laws/Images.lean ====
section
/-!
SUPPORT. What the shared operations of image loads do.
-/

namespace Sys2Proof.Machine

open Sys2Proof

theorem refuseLoad_is (s : State) (h : Hdr) (n : LoadNo) : LoadRefused s (refuseLoad s h n) h n := ⟨ends_complete _ _ _ rfl, rfl⟩
theorem stageLoad_is (s : State) (h : Hdr) (op : LoadOp) (kind : Nat) (i : Image) : CarriedOrRefused s (stageLoad s h op kind i) h op kind i := by
  unfold CarriedOrRefused stageLoad
  cases carryBad s (kind == 1) i with
  | some n => exact refuseLoad_is _ _ _
  | none => exact ⟨rfl, rfl, rfl⟩
theorem carryBad_congr {a b : State} (e : a.img = b.img) (t : Bool) (i : Image) : carryBad a t i = carryBad b t i := by
  have hs : ∀ c, sect a c = sect b c := fun c => by simp only [sect, e]
  have hc : ∀ t r, carrySource a t r = carrySource b t r := fun t r => by
    simp only [carrySource, twinSect, areaDa, twinHeader, holdings, hs]
  simp only [carryBad, hc, holdings, hs]
structure InF (a b : State) : Prop where
  f : a.img.inForce = b.img.inForce
  g : b.img.staged = none → a.img.staged = none
theorem InF.rfl' (a : State) : InF a a := ⟨rfl, id⟩
theorem InF.img {a b : State} (h : a.img = b.img) : InF a b := ⟨by rw [h], fun e => by rw [h]; exact e⟩
theorem InF.trans {a b c : State} (h : InF a b) (k : InF b c) : InF a c := ⟨h.f.trans k.f, fun e => h.g (k.g e)⟩
theorem forget_inF (s : State) (h : Hdr) : InF (forget s h) s := ⟨rfl, fun e => by
  show (match s.img.staged with | some x => if sameDesc x.hdr h = true then none else some x | none => none) = none
  rw [e]⟩
theorem endEarly_inF (s : State) (d : Disp) (st : Nat) : InF (endEarly s d st) s := by
  unfold endEarly
  dsimp only
  have h : InF (forget (dropReqs s d.hdr) d.hdr) s := (forget_inF (dropReqs s d.hdr) d.hdr).trans (InF.img rfl)
  generalize forget (dropReqs s d.hdr) d.hdr = x at *
  refine InF.trans (InF.img (complete_img ..)) (InF.trans ?_ h)
  split
  · split
    · exact InF.img ((staleTiles_same (g₀ := { tw := true }) (dropShadow_same (Same.refl _ x) rfl) rfl).img rfl)
    · exact InF.img ((dropShadow_same (g₀ := { tw := true }) (Same.refl _ x) rfl).img rfl)
  · split
    · exact InF.img ((staleTiles_same (g₀ := { tw := true }) (dropShadow_same (Same.refl _ x) rfl) rfl).img rfl)
    · exact InF.img ((dropShadow_same (g₀ := { tw := true }) (Same.refl _ x) rfl).img rfl)
  · split
    · exact ⟨rfl, id⟩
    · exact InF.img rfl
  · exact InF.img rfl
theorem foldl_inF {α : Type} (f : State → α → State) (hf : ∀ s a, InF (f s a) s) (l : List α) : ∀ s, InF (l.foldl f s) s := by
  induction l with
  | nil => exact fun s => InF.rfl' s
  | cons a l ih => exact fun s => (ih _).trans (hf s a)
theorem expireArmed_inF (s : State) (d : Nat) : InF (expireArmed s d) s := by
  unfold expireArmed
  refine foldl_inF _ (fun s x => (endEarly_inF _ _ _).trans (InF.img ?_)) _ s
  exact (countExpiry_same (g₀ := { regs := true, sv := true, i3c := true, sounds := true, seqNo := true }) (u := x.unit) (Same.refl _ s) rfl rfl rfl rfl rfl).img rfl
theorem sampleDatum_inF (s : State) (b : Bool) (n d : Nat) : InF (sampleDatum s b n d) s := by
  unfold sampleDatum
  split
  · exact InF.rfl' s
  · dsimp only
    split
    · refine (expireArmed_inF _ _).trans (InF.img ?_)
      generalize hX : s.onCk _ = X
      have : X.img = s.img := by rw [← hX]; rfl
      rw [← this]
      exact (setSticky_same (g₀ := { sv := true, i3c := true }) (Same.refl _ X) rfl rfl).img rfl
    · exact InF.img rfl
theorem resyncDatum_inF (s : State) : InF (resyncDatum s) s := by
  unfold resyncDatum
  dsimp only
  generalize hX : (dropRequests s s.ck.pending).onCk _ = X
  have D := dropRequests_same (g₀ := { ck := true, sounds := true, seqNo := true }) (n := s.ck.pending) (Same.refl _ s) rfl rfl rfl
  have h0 : InF X s := InF.img (by rw [← hX]; exact D.img rfl)
  clear hX
  have fin : ∀ (Y : State) (f : Clocks → Clocks), InF Y s → InF ((datumDies.foldl expireArmed Y).onCk f) s := by
    intro Y f hy
    have h2 := (foldl_inF expireArmed expireArmed_inF datumDies Y).trans hy
    generalize datumDies.foldl expireArmed Y = Z at *
    exact InF.mk h2.f h2.g
  split
  · refine fin _ _ ?_
    unfold expireErred
    refine (foldl_inF expireArmed expireArmed_inF _ _).trans (InF.trans ?_ h0)
    unfold datumSampled
    exact (foldl_inF _ (fun s d => sampleDatum_inF s _ _ d) _ _).trans (InF.img (State.onCk_img ..))
  · exact fin _ _ h0
theorem commit_is (s : State) (x : Staged) : (commit s x).img.inForce = some x.image ∧ (commit s x).img.staged = none ∧ (commit s x).img.reason = 0 := by
  unfold commit
  dsimp only
  generalize clearLedgers _ = a
  have h : (setUpImage a x.image).img.inForce = some x.image ∧ (setUpImage a x.image).img.staged = none := by
    unfold setUpImage
    dsimp only
    generalize loadDepths _ _ = b
    generalize hc : loadStreams (loadTables (b.onImg fun m => { m with inForce := some x.image, staged := none })) = c
    have c1 : c.img.inForce = some x.image ∧ c.img.staged = none := by rw [← hc]; exact ⟨rfl, rfl⟩
    clear hc
    generalize hd : (if (ringRecs c).isEmpty = true then c else c.onRings fun g => { g with map_ := ringRecs c }) = d
    have d1 : d.img = c.img := by rw [← hd]; split <;> rfl
    clear hd
    have e := resyncDatum_inF d
    generalize resyncDatum d = f at *
    have o : (openRings f).img = f.img := (openRings_same (g₀ := { rings := true, sv := true }) (Same.refl _ f) rfl rfl).img rfl
    have k : (openRings f).img.inForce = some x.image ∧ (openRings f).img.staged = none := by
      rw [o]; exact ⟨e.f.trans (by rw [d1]; exact c1.1), e.g (by rw [d1]; exact c1.2)⟩
    split
    · split <;> exact k
    · exact k
  generalize setUpImage a x.image = b at *
  have hl : (loadQueues b).img = b.img := (loadQueues_same (g₀ := { qm := true }) (Same.refl _ b) rfl).img rfl
  have hr : ∀ z : State, (raiseFloor z x.image).img = z.img := fun z => (raiseFloor_same (g₀ := { sec := true }) (Same.refl _ z) rfl).img rfl
  generalize hz : raiseFloor (loadQueues b) x.image = z
  have z1 : z.img = b.img := by rw [← hz, hr, hl]
  exact ⟨(congrArg Img.inForce z1).trans h.1, (congrArg Img.staged z1).trans h.2, rfl⟩
theorem writeMem_pend (s : State) (a : Nat) (bs : List Byte) : (writeMem s a bs).mu.pend = s.mu.pend := by rw [writeMem_mu]
theorem storeDir_pend (s : State) (k t row : Nat) (e : DirEntry) : (storeDir s k t row e).mu.pend = s.mu.pend := by rw [storeDir_only]
theorem rowHome_pend (s : State) (x : Nat × DirEntry) : (rowHome s x).mu.pend = s.mu.pend := by
  unfold rowHome
  dsimp only
  split
  · rw [storeDir_pend]
    split
    · rfl
    · rw [(bump_same (g₀ := { regs := true, sounds := true, seqNo := true }) (Same.refl _ _) rfl rfl rfl).mu rfl]
      unfold copyMem; dsimp only; split
      · exact writeMem_pend _ _ _
      · exact writeMem_pend _ _ _
  · rfl
theorem foldl_pend {α : Type} (f : State → α → State) (hf : ∀ s a, (f s a).mu.pend = s.mu.pend) (l : List α) : ∀ s, (l.foldl f s).mu.pend = s.mu.pend := by
  induction l with
  | nil => exact fun s => rfl
  | cons a l ih => exact fun s => (ih _).trans (hf s a)

end Sys2Proof.Machine
end

