-- ==== Sys2Proof/Laws/KeptImageOps.lean ====
section
/-!
SUPPORT. What the definitions of Machine/ImageOps.lean keep (Laws/Kept.lean).
-/

set_option linter.all false

namespace Sys2Proof.Machine

open Sys2Proof

theorem withImage_kept {r₀ : State} {c₀ : Bool} {s : State} {i : Image} (h1 : Kept c₀ r₀ s) : Kept c₀ r₀ (withImage s i) := by
  unfold withImage
  repeat' first
    | with_reducible assumption | intro _ | with_reducible apply State.onImg_kept | with_reducible apply ite_kept
    | with_reducible apply foldl_kept | (refine Kept.ofSnd (by assumption) ?_) | dsimp only | split

end Sys2Proof.Machine
end

