-- ==== Sys2Proof/Laws/Ledger.lean ====
section
/-!
SUPPORT. What the shared operations of gathers, ledgers and directories do.
-/

set_option linter.all false

namespace Sys2Proof.Machine

open Sys2Proof

theorem gather_one {h op s tr lo hi a items b g} (hk : op.kind = 0) (hn : op.nBags = 1) (hp : op.poisonMap = false)
    (h1 : bagRange (markStarted s h) op 0 = (.inr (lo, hi), a)) (h2 : bagItems a op (tPool tr == 2) lo hi = (some items, b))
    (h3 : gatherIndices op.engine op.table tr { st := b } items = some g) (hg : look s.mu.gatherPos (descKey h) = none)
    (hf : (findDisp s h).isSome = true → (findDisp (bagCodes g.st op tr g).2 h).isSome = true) :
    runGather s h op tr = endGather s h op
      (writeMem (writeMem (bagCodes g.st op tr g).2 op.addr (packOver (fmtWidth (specFmt op.spec)) (bagCodes g.st op tr g).1.1 (readBytes (bagCodes g.st op tr g).2.mem op.addr (rowLen op tr))))
        op.scaleAddr ((bagCodes g.st op tr g).1.2.map (BitVec.ofNat 8)))
      (if g.poisoned || g.bad then stPoison else if g.skipped then stPartial else stDone) := by
  unfold runGather
  rw [show lookD s.mu.gatherPos (descKey h) {} = ({} : Paused) from by simp [lookD, hg], hn]
  show gatherBags s h op tr 1 0 { st := markStarted s h } = _
  unfold gatherBags
  dsimp only
  rw [h1]
  dsimp only
  rw [hk]
  simp only [show ((0 : Nat) == 1) = false from rfl, show decide ((0:Nat) = 1) = false from rfl, Bool.false_and, Bool.false_eq_true, if_false]
  rw [h2]
  dsimp only
  rw [show ({ st := b, coal := ({} : Paused).coal, sums := [], n := 0, skipped := ({} : Paused).skipped, bad := false, poisoned := ({} : Paused).poisoned } : GatherRun) = { st := b } from rfl, h3]
  dsimp only
  generalize bagCodes g.st op tr g = c at hf ⊢
  obtain ⟨⟨cs, scs⟩, y⟩ := c
  have go : ∀ z : State, z.qm = y.qm → ((findDisp s h).isSome && (findDisp z h).isNone) = false := by
    intro z hz
    have e : findDisp z h = findDisp y h := by unfold findDisp; rw [hz]
    rw [e, Bool.eq_false_iff]; intro q
    simp only [Bool.and_eq_true] at q
    have := hf q.1
    simp [Option.isSome_iff_ne_none] at this q
    exact this q.2
  have W : ∀ z a bs, (writeMem z a bs).qm = z.qm := fun z a bs =>
    (writeMem_same (g₀ := { mem := true, regs := true, mu := true, sv := true, i3c := true, sounds := true, seqNo := true }) (Same.refl _ z) rfl rfl rfl rfl rfl rfl rfl).qm rfl
  dsimp only
  simp only [go y rfl, Bool.false_eq_true, if_false]
  unfold writeBag writeBit
  simp only [hk, hp, if_true, Bool.not_false]
  rw [go _ (by simp only [W])]
  simp [gatherBags, Nat.zero_mul]
structure MK (a b : State) : Prop where
  o : b.mu.openStep = a.mu.openStep
  u : b.mu.unreleased = a.mu.unreleased
  p : b.mu.heavyPrev = a.mu.heavyPrev
theorem MK.refl (a : State) : MK a a := ⟨rfl, rfl, rfl⟩
theorem MK.trans {a b c : State} (x : MK a b) (y : MK b c) : MK a c := ⟨y.o.trans x.o, y.u.trans x.u, y.p.trans x.p⟩
theorem MK.of {a b : State} (h : b.mu = a.mu) : MK a b := ⟨by rw [h], by rw [h], by rw [h]⟩
theorem MK.foldl {α : Type} {f : State → α → State} (hf : ∀ s a, MK s (f s a)) (l : List α) : ∀ s, MK s (l.foldl f s) := by
  induction l with
  | nil => exact MK.refl
  | cons a l ih => exact fun s => (hf s a).trans (ih _)
theorem mk_bumpBy (s : State) (d o n sel : Nat) : MK s (bumpBy s d o n sel) := MK.of ((bumpBy_frame ..).mu rfl)
theorem mk_setDir (s : State) (k t row : Nat) (e : DirEntry) : MK s (setDir s k t row e) := ⟨rfl, rfl, rfl⟩
theorem mk_ite {c : Prop} [Decidable c] {s a b : State} (h : MK s a) (k : MK s b) : MK s (if c then a else b) := by split; exact h; exact k
theorem MK.ofDir {a b : State} (h : DirOnly a b) : MK a b := ⟨by rw [h], by rw [h], by rw [h]⟩
theorem mk_storeDir (s : State) (k t row : Nat) (e : DirEntry) : MK s (storeDir s k t row e) := MK.ofDir (storeDir_only ..)
theorem mk_flagPending (s : State) (k t row : Nat) (f : Bool) : MK s (flagPending s k t row f) := by
  unfold flagPending; split
  · dsimp only; split
    · exact MK.refl s
    · exact mk_storeDir ..
  · exact MK.refl s
theorem mk_rowEntries (s : State) (k t row : Nat) (f : Entry → Option Entry) : MK s (rowEntries s k t row f) := ⟨rfl, rfl, rfl⟩

theorem closeRow_adds (s : State) (kd k t row : Nat) : (closeRow s kd k t row).mu = s.mu ∧ (closeRow s kd k t row).gz.adds = s.gz.adds := by
  unfold closeRow; split <;> exact ⟨rfl, rfl⟩

/-- A migration abandoned, but for its waiter's record (R208, R210): its parts in order. -/
def abandonParts (s : State) (k t row : Nat) (e : DirEntry) : State :=
  let s := closeRow (bump s (18 + k) 0x11048) rkMove k t row
  let s := if e.started && e.targetDie != e.ledgerDie then rowEntries s e.targetDie t row fun _ => none else s
  let s := rowEntries s e.ledgerDie t row fun x => some { x with moved := false }
  e.queued.foldl (fun s m => sendAdd s { m with dst := 18 + e.ledgerDie, fwd := true, via := some (18 + k) }) s
theorem abandonParts_is (s : State) (k t row : Nat) (e : DirEntry) :
    MK s (abandonParts s k t row e) ∧ (abandonParts s k t row e).mu.dir = s.mu.dir ∧
    (abandonParts s k t row e).gz.adds = s.gz.adds ++ e.queued.map (fun m => { m with dst := 18 + e.ledgerDie, fwd := true, via := some (18 + k) }) := by
  have hadd : ∀ (l : List AddMsg) (s : State),
      (l.foldl (fun s m => sendAdd s { m with dst := 18 + e.ledgerDie, fwd := true, via := some (18 + k) }) s).gz.adds =
        s.gz.adds ++ l.map (fun m => { m with dst := 18 + e.ledgerDie, fwd := true, via := some (18 + k) }) ∧
      (l.foldl (fun s m => sendAdd s { m with dst := 18 + e.ledgerDie, fwd := true, via := some (18 + k) }) s).mu = s.mu := by
    intro l; induction l with
    | nil => intro s; simp
    | cons a l ih =>
      intro s
      obtain ⟨h1, h2⟩ := ih (sendAdd s { a with dst := 18 + e.ledgerDie, fwd := true, via := some (18 + k) })
      refine ⟨?_, h2⟩
      rw [List.foldl_cons, h1]
      show (s.gz.adds ++ [_]) ++ _ = _
      simp
  unfold abandonParts
  extract_lets A B C
  obtain ⟨h1, h2⟩ := hadd e.queued C
  have A1 : A.mu = s.mu ∧ A.gz.adds = s.gz.adds := by
    have F := bumpBy_frame s (18 + k) 0x11048 1 0
    change Same _ s (bump s (18 + k) 0x11048) at F
    have G := closeRow_adds (bump s (18 + k) 0x11048) rkMove k t row
    exact ⟨G.1.trans (F.mu rfl), G.2.trans (congrArg Gauze.adds (F.gz rfl))⟩
  have B1 : B.mu.dir = A.mu.dir ∧ MK A B ∧ B.gz = A.gz := by
    have hB : B = if e.started && e.targetDie != e.ledgerDie then rowEntries A e.targetDie t row fun _ => none else A := rfl
    clear_value B; subst hB
    split
    · exact ⟨rfl, ⟨rfl, rfl, rfl⟩, rfl⟩
    · exact ⟨rfl, MK.refl _, rfl⟩
  refine ⟨(((MK.of A1.1).trans B1.2.1).trans (mk_rowEntries ..)).trans (MK.of h2), ?_, ?_⟩
  · rw [h2]; show B.mu.dir = _; rw [B1.1, A1.1]
  · rw [h1]; show B.gz.adds ++ _ = _; rw [B1.2.2, A1.2]
theorem mk_abandonMove (s : State) (k t row : Nat) (e : DirEntry) : MK s (abandonMove s k t row e) := by
  have P := (abandonParts_is s k t row e).1
  show MK s (match e.waiter with
    | some h => complete (storeDir (abandonParts s k t row e) k t row _) h (ledgerUnit k) stPartial
    | none => storeDir (abandonParts s k t row e) k t row _)
  split
  · exact (P.trans (mk_storeDir ..)).trans ⟨rfl, rfl, rfl⟩
  · exact P.trans (mk_storeDir ..)
/-- A patch asked for, a row marked and an entry stored send no add. -/
theorem startPatch_adds (s : State) (k t row : Nat) : (startPatch s k t row).gz.adds = s.gz.adds := by
  unfold startPatch openReq
  split
  · rfl
  · extract_lets tries ok r
    split
    · rfl
    · split
      · rfl
      · exact congrArg Gauze.adds ((bumpBy_frame _ (18 + k) 0x11070 1 0).gz rfl)
theorem markPoisoned_adds (s : State) (k t row da : Nat) : (markPoisoned s k t row da).gz.adds = s.gz.adds := by
  unfold markPoisoned; dsimp only
  split
  · rfl
  · split
    · rfl
    · rw [startPatch_adds]; rfl
theorem startPatch_flits (s : State) (k t row : Nat) : (startPatch s k t row).gz.flits = s.gz.flits := by
  unfold startPatch openReq
  split
  · rfl
  · extract_lets tries ok r
    split
    · rfl
    · split
      · rfl
      · exact congrArg Gauze.flits ((bumpBy_frame _ (18 + k) 0x11070 1 0).gz rfl)
theorem markPoisoned_flits (s : State) (k t row da : Nat) : (markPoisoned s k t row da).gz.flits = s.gz.flits := by
  unfold markPoisoned; dsimp only
  split
  · rfl
  · split
    · rfl
    · rw [startPatch_flits]; rfl
theorem storeDir_adds (s : State) (k t row : Nat) (e : DirEntry) : (storeDir s k t row e).gz.adds = s.gz.adds := by
  have hw : ∀ s, (wakePatch s k).gz.adds = s.gz.adds := by
    intro s; unfold wakePatch
    split
    · dsimp only
      split
      · split
        · rw [startPatch_adds]; rfl
        · rw [markPoisoned_adds]; rfl
      · rfl
    · rfl
  unfold storeDir; extract_lets home
  rw [hw]; split <;> rfl
theorem writeMem_dir (s : State) (a : Nat) (bs : List Byte) : (writeMem s a bs).mu.dir = s.mu.dir := by rw [writeMem_mu]
theorem shardPlace_img {a b : State} (e : a.img = b.img) (t row : Nat) : shardPlace a t row = shardPlace b t row := by
  unfold shardPlace shardOf tableRec recBy sect; rw [e]
/-- A record written anew: its row's entry is not POISONED (R216). -/
theorem rewrite_poisoned (s : State) (k t row : Nat) (bs : List Byte) (w : rising none s.mu.dir = true) (hr : row < 2 ^ 31) (e : DirEntry) (p : Nat × Nat)
    (hp : shardPlace s t row = some p) (he : dirOf (rewriteRow s k t row bs) k t row = some e) : e.poisoned = false := by
  obtain ⟨o, da⟩ := p
  unfold rewriteRow at he
  rw [hp] at he
  dsimp only at he
  generalize hX : State.onMu (writeMem _ _ _) _ = X at he
  have hd : X.mu.dir = s.mu.dir := by rw [← hX]; exact writeMem_dir ..
  have hw : dirKey k t row ∉ X.mu.patchWait := by
    rw [← hX]; show _ ∉ List.filter _ _; simp
  clear hX
  split at he
  · next h => rw [Option.isNone_iff_eq_none] at h; rw [h] at he; cases he
  · rcases (storeDir_look X k t row { dirOrHome s k t row da with poisoned := false } (hd ▸ w) hr).2 hw with h | h
    · rw [h] at he; cases he
    · rw [h] at he; cases he; rfl
theorem cpl_mem (s : State) (h : Hdr) (u : UnitId) (st : Nat) : ∃ n, n < 2 ^ 32 ∧ completionOf h u st n ∈ (complete s h u st).qm.cpls := by
  obtain ⟨e, h1, h2⟩ := (ends_complete (s := s) (r := s) h u st rfl).issued
  exact ⟨e, h1, by rw [h2]; simp⟩
theorem cpl_grow (s : State) (h : Hdr) (u : UnitId) (st : Nat) (x : Cpl) (m : x ∈ s.qm.cpls) : x ∈ (complete s h u st).qm.cpls := by
  obtain ⟨e, h1, h2⟩ := (ends_complete (s := s) (r := s) h u st rfl).issued
  rw [h2]; exact List.mem_append_left _ m
theorem finishSeals_is (s : State) : (finishSeals s).mu.dir = s.mu.dir ∧ ∀ x, x ∈ s.qm.cpls → x ∈ (finishSeals s).qm.cpls := by
  unfold finishSeals
  have : ∀ (l : List (Nat × Hdr)) (s : State), (l.foldl (fun s x => complete (s.onMu fun m => { m with sealing := del m.sealing x.1 }) x.2 (ledgerUnit x.1) stDone) s).mu.dir = s.mu.dir ∧
      ∀ x, x ∈ s.qm.cpls → x ∈ (l.foldl (fun s x => complete (s.onMu fun m => { m with sealing := del m.sealing x.1 }) x.2 (ledgerUnit x.1) stDone) s).qm.cpls := by
    intro l; induction l with
    | nil => exact fun s => ⟨rfl, fun _ h => h⟩
    | cons a l ih =>
      intro s
      obtain ⟨h1, h2⟩ := ih (complete (s.onMu fun m => { m with sealing := del m.sealing a.1 }) a.2 (ledgerUnit a.1) stDone)
      exact ⟨h1, fun x hx => h2 x (cpl_grow _ _ _ _ _ hx)⟩
  exact this _ s
theorem finishSeals_gz (s : State) : (finishSeals s).gz = s.gz ∧ (finishSeals s).mem = s.mem :=
  ⟨(finishSeals_same (g₀ := { free := true, mu := true, qm := true }) (Same.refl _ s) rfl rfl rfl).gz rfl, (finishSeals_same (g₀ := { free := true, mu := true, qm := true }) (Same.refl _ s) rfl rfl rfl).mem rfl⟩
/-- An abandoned move: its queued adds go to Lo, its row is RESIDENT where it was, and its waiter gets DONE_PARTIAL (R208, R210). -/
theorem abandon_is (s : State) (k t row : Nat) (e : DirEntry) (w : rising none s.mu.dir = true) (hr : row < 2 ^ 31) :
    (abandonMove s k t row e).gz.adds = s.gz.adds ++ e.queued.map (fun m => { m with dst := 18 + e.ledgerDie, fwd := true, via := some (18 + k) }) ∧
    (dirOf (abandonMove s k t row e) k t row = none ∨ ∃ x, dirOf (abandonMove s k t row e) k t row = some x ∧ x.st = .resident ∧ x.dest = e.dest ∧ x.queued = []) ∧
    ∀ h, e.waiter = some h → ∃ n, n < 2 ^ 32 ∧ completionOf h (ledgerUnit k) stPartial n ∈ (abandonMove s k t row e).qm.cpls := by
  obtain ⟨-, h2, h1⟩ := abandonParts_is s k t row e
  have hdef : abandonMove s k t row e = (match e.waiter with
    | some h => complete (storeDir (abandonParts s k t row e) k t row { e with st := .resident, queued := [], started := false, sealedIn := false, waiter := none, target := 0, targetDie := 0, pageIn := false }) h (ledgerUnit k) stPartial
    | none => storeDir (abandonParts s k t row e) k t row { e with st := .resident, queued := [], started := false, sealedIn := false, waiter := none, target := 0, targetDie := 0, pageIn := false }) := rfl
  rw [hdef]
  generalize abandonParts s k t row e = z at *
  generalize hx : ({ e with st := .resident, queued := [], started := false, sealedIn := false, waiter := none, target := 0, targetDie := 0, pageIn := false } : DirEntry) = x at *
  have sd := (storeDir_look z k t row x (by rw [h2]; exact w) hr).1
  have sa : (storeDir z k t row x).gz.adds = z.gz.adds := storeDir_adds ..
  generalize storeDir z k t row x = C at *
  have hd : dirOf C k t row = none ∨ ∃ x, dirOf C k t row = some x ∧ x.st = .resident ∧ x.dest = e.dest ∧ x.queued = [] := by
    rcases sd with h | ⟨y, h, r | r | r⟩
    · exact Or.inl h
    · subst r; subst hx; exact Or.inr ⟨_, h, rfl, rfl, rfl⟩
    · subst r; subst hx; exact Or.inr ⟨_, h, rfl, rfl, rfl⟩
    · obtain ⟨-, r⟩ := r; subst r; subst hx; exact Or.inr ⟨_, h, rfl, rfl, rfl⟩
  cases e.waiter with
  | none => exact ⟨by rw [sa]; exact h1, hd, fun h k => by cases k⟩
  | some h0 =>
    refine ⟨by show C.gz.adds = _; rw [sa]; exact h1, hd, fun h hh => ?_⟩
    cases hh; exact cpl_mem _ _ _ _
theorem placeRow_dir (s : State) (k b st t row rg n : Nat) (l : Bool) (m : AddMsg) : (placeRow s k b st t row rg n l m).2.mu.dir = s.mu.dir := by
  unfold placeRow
  dsimp only
  split
  · show (bumpBy ..).mu.dir = _; rw [(bumpBy_frame ..).mu rfl]
  · rfl
theorem releaseQueued_dir (k ln : Nat) (b : Bool) (row : Nat) (s : State) (m : AddMsg) : (releaseQueued k ln b row s m).mu.dir = s.mu.dir := by
  have hf : (forwardAdd s k m ln).mu.dir = s.mu.dir := rfl
  have ha : ∀ (s : State) m f a, (answerAdd s m f a).mu = s.mu := fun s m f a => (answerAdd_same (g₀ := { gz := true }) (Same.refl _ s) rfl).mu rfl
  unfold releaseQueued
  dsimp only
  cases ledgerRec s ln (match tableRec s m.table with | some tr => tRegion tr | none => 256) with
  | none => exact hf
  | some r =>
    dsimp only
    split
    · split
      · exact congrArg Muslin.dir ((bumpBy_frame s (18 + ln) 0x11030 1 0).mu rfl)
      · rw [ha]
        exact placeRow_dir ..
    · exact hf

end Sys2Proof.Machine
end

