-- ==== Sys2Proof/Laws/SameTwill.lean ====
section
/-!
SUPPORT. What the definitions of Machine/Twill.lean may change (Laws/Same.lean).
-/

set_option linter.all false

namespace Sys2Proof.Machine

open Sys2Proof

theorem tileAlias_same {r₀ : State} {g₀ : Groups} {s : State} {h : Hdr} {core : Nat} (h1 : Same g₀ r₀ s) (m_free : g₀.free = true)
    (m_regs : g₀.regs = true) (m_qm : g₀.qm = true) (m_sv : g₀.sv = true) (m_i3c : g₀.i3c = true) (m_sounds : g₀.sounds = true)
    (m_seqNo : g₀.seqNo = true) : Same g₀ r₀ (tileAlias s h core) := by
  unfold tileAlias
  repeat' first
    | with_reducible assumption | intro _ | with_reducible apply setSticky_same | with_reducible apply complete_same
    | with_reducible apply bumpCore_same | with_reducible apply ite_same | with_reducible apply foldl_same
    | (refine Same.ofSnd (by assumption) ?_) | dsimp only | split

theorem coreFault_same {r₀ : State} {g₀ : Groups} {s : State} {h : Hdr} {g : Nat} (h1 : Same g₀ r₀ s) (m_free : g₀.free = true)
    (m_pkg : g₀.pkg = true) (m_regs : g₀.regs = true) (m_gz : g₀.gz = true) (m_tw : g₀.tw = true) (m_mu : g₀.mu = true)
    (m_streams : g₀.streams = true) (m_qm : g₀.qm = true) (m_seq : g₀.seq = true) (m_img : g₀.img = true)
    (m_rings : g₀.rings = true) (m_snap : g₀.snap = true) (m_sv : g₀.sv = true) (m_sec : g₀.sec = true) (m_i3c : g₀.i3c = true)
    (m_sounds : g₀.sounds = true) (m_seqNo : g₀.seqNo = true) : Same g₀ r₀ (coreFault s h g) := by
  unfold coreFault
  repeat' first
    | with_reducible assumption | intro _ | with_reducible apply panelFaultAt_same | with_reducible apply complete_same
    | with_reducible apply ite_same | with_reducible apply foldl_same | (refine Same.ofSnd (by assumption) ?_) | dsimp only
    | split

theorem runMax_same {r₀ : State} {g₀ : Groups} {s : State} {h : Hdr} {o : MaxOp} {low : Bool} (h1 : Same g₀ r₀ s)
    (m_free : g₀.free = true) (m_pkg : g₀.pkg = true) (m_regs : g₀.regs = true) (m_gz : g₀.gz = true) (m_tw : g₀.tw = true)
    (m_mu : g₀.mu = true) (m_streams : g₀.streams = true) (m_qm : g₀.qm = true) (m_seq : g₀.seq = true) (m_img : g₀.img = true)
    (m_rings : g₀.rings = true) (m_snap : g₀.snap = true) (m_sv : g₀.sv = true) (m_sec : g₀.sec = true) (m_i3c : g₀.i3c = true)
    (m_sounds : g₀.sounds = true) (m_seqNo : g₀.seqNo = true) : Same g₀ r₀ (runMax s h o low) := by
  unfold runMax
  repeat' first
    | with_reducible assumption | intro _ | with_reducible apply cbWrite_same | with_reducible apply complete_same
    | with_reducible apply cbCheck_same | with_reducible apply coreFault_same | with_reducible apply ite_same
    | with_reducible apply ite_same_snd | with_reducible apply foldl_same | with_reducible apply foldl_same_snd
    | (refine Same.ofSnd (by assumption) ?_) | dsimp only | split

theorem execTwMax_same {r₀ : State} {g₀ : Groups} {h : Hdr} {op : MaxOp} {s : State} {t₀} (e₀ : execTwMax h op s = .next t₀)
    (h3 : Same g₀ r₀ s) (m_free : g₀.free = true) (m_pkg : g₀.pkg = true) (m_regs : g₀.regs = true) (m_gz : g₀.gz = true)
    (m_tw : g₀.tw = true) (m_mu : g₀.mu = true) (m_streams : g₀.streams = true) (m_qm : g₀.qm = true) (m_seq : g₀.seq = true)
    (m_img : g₀.img = true) (m_rings : g₀.rings = true) (m_snap : g₀.snap = true) (m_sv : g₀.sv = true) (m_sec : g₀.sec = true)
    (m_i3c : g₀.i3c = true) (m_sounds : g₀.sounds = true) (m_seqNo : g₀.seqNo = true) : Same g₀ r₀ t₀ := by
  unfold execTwMax at e₀
  repeat' first | contradiction | (injection e₀ with e₀; subst e₀) | dsimp only at e₀ | (split at e₀)
  repeat' first
    | with_reducible assumption | intro _ | with_reducible apply runMax_same | with_reducible apply runDesc_same
    | with_reducible apply ite_same | with_reducible apply foldl_same | (refine Same.ofSnd (by assumption) ?_) | dsimp only
    | split

theorem endMatmul_same {r₀ : State} {g₀ : Groups} {s : State} {h : Hdr} {o : MatmulOp} {st : Nat} (h1 : Same g₀ r₀ s)
    (m_free : g₀.free = true) (m_tw : g₀.tw = true) (m_qm : g₀.qm = true) : Same g₀ r₀ (endMatmul s h o st) := by
  unfold endMatmul
  repeat' first
    | with_reducible assumption | intro _ | with_reducible apply complete_same | with_reducible apply dropShadow_same
    | with_reducible apply staleTiles_same | with_reducible apply ite_same | with_reducible apply foldl_same
    | (refine Same.ofSnd (by assumption) ?_) | dsimp only | split

theorem loadWeights_same {r₀ : State} {g₀ : Groups} {s : State} {h : Hdr} {o : MatmulOp} (h1 : Same g₀ r₀ s)
    (m_free : g₀.free = true) (m_regs : g₀.regs = true) (m_tw : g₀.tw = true) (m_sounds : g₀.sounds = true)
    (m_seqNo : g₀.seqNo = true) : Same g₀ r₀ (loadWeights s h o) := by
  unfold loadWeights
  repeat' first
    | with_reducible assumption | intro _ | with_reducible apply State.took_same | with_reducible apply setCore_same
    | with_reducible apply bumpCore_same | with_reducible apply ite_same | with_reducible apply foldl_same
    | (refine Same.ofSnd (by assumption) ?_) | dsimp only | split

theorem loadShadow_same {r₀ : State} {g₀ : Groups} {s : State} {h : Hdr} {o : MatmulOp} (h1 : Same g₀ r₀ s)
    (m_regs : g₀.regs = true) (m_tw : g₀.tw = true) (m_sounds : g₀.sounds = true) (m_seqNo : g₀.seqNo = true)
    : Same g₀ r₀ (loadShadow s h o).2 := by
  unfold loadShadow
  repeat' first
    | with_reducible assumption | intro _ | with_reducible apply setCore_same | with_reducible apply cbCheck_same
    | with_reducible apply ite_same | with_reducible apply ite_same_snd | with_reducible apply foldl_same
    | with_reducible apply foldl_same_snd | (refine Same.ofSnd (by assumption) ?_) | dsimp only | split

theorem arrange_same {r₀ : State} {g₀ : Groups} {s : State} {g : Nat} {arr : Bool} (h1 : Same g₀ r₀ s) (m_tw : g₀.tw = true)
    : Same g₀ r₀ (arrange s g arr) := by
  unfold arrange
  repeat' first
    | with_reducible assumption | intro _ | with_reducible apply setCore_same | with_reducible apply ite_same
    | with_reducible apply foldl_same | (refine Same.ofSnd (by assumption) ?_) | dsimp only | split

theorem runMatmul_same {r₀ : State} {g₀ : Groups} {s : State} {h : Hdr} {o : MatmulOp} (h1 : Same g₀ r₀ s)
    (m_free : g₀.free = true) (m_pkg : g₀.pkg = true) (m_regs : g₀.regs = true) (m_gz : g₀.gz = true) (m_tw : g₀.tw = true)
    (m_mu : g₀.mu = true) (m_streams : g₀.streams = true) (m_qm : g₀.qm = true) (m_seq : g₀.seq = true) (m_img : g₀.img = true)
    (m_rings : g₀.rings = true) (m_snap : g₀.snap = true) (m_sv : g₀.sv = true) (m_sec : g₀.sec = true) (m_i3c : g₀.i3c = true)
    (m_sounds : g₀.sounds = true) (m_seqNo : g₀.seqNo = true) : Same g₀ r₀ (runMatmul s h o) := by
  unfold runMatmul
  repeat' first
    | with_reducible assumption | intro _ | with_reducible apply startTile_same | with_reducible apply streamRows_same
    | with_reducible apply loadWeights_same | with_reducible apply complete_same | with_reducible apply cbCheck_same
    | with_reducible apply coreFault_same | with_reducible apply bumpCore_same | with_reducible apply loadShadow_same
    | with_reducible apply arrange_same | with_reducible apply drainRows_same | with_reducible apply ite_same
    | with_reducible apply ite_same_snd | with_reducible apply foldl_same | with_reducible apply foldl_same_snd
    | (refine Same.ofSnd (by assumption) ?_) | dsimp only | split

theorem setWaits_same {r₀ : State} {g₀ : Groups} {s : State} {h : Hdr} {rs : List Range} (h1 : Same g₀ r₀ s) (m_qm : g₀.qm = true)
    : Same g₀ r₀ (setWaits s h rs) := by
  unfold setWaits
  repeat' first
    | with_reducible assumption | intro _ | with_reducible apply State.onQm_same | with_reducible apply ite_same
    | with_reducible apply foldl_same | (refine Same.ofSnd (by assumption) ?_) | dsimp only | split

theorem execTwMatmul_same {r₀ : State} {g₀ : Groups} {h : Hdr} {op : MatmulOp} {s : State} {t₀}
    (e₀ : execTwMatmul h op s = .next t₀) (h3 : Same g₀ r₀ s) (m_free : g₀.free = true) (m_pkg : g₀.pkg = true)
    (m_regs : g₀.regs = true) (m_gz : g₀.gz = true) (m_tw : g₀.tw = true) (m_mu : g₀.mu = true) (m_streams : g₀.streams = true)
    (m_qm : g₀.qm = true) (m_seq : g₀.seq = true) (m_img : g₀.img = true) (m_rings : g₀.rings = true) (m_snap : g₀.snap = true)
    (m_sv : g₀.sv = true) (m_sec : g₀.sec = true) (m_i3c : g₀.i3c = true) (m_sounds : g₀.sounds = true)
    (m_seqNo : g₀.seqNo = true) : Same g₀ r₀ t₀ := by
  unfold execTwMatmul at e₀
  repeat' first | contradiction | (injection e₀ with e₀; subst e₀) | dsimp only at e₀ | (split at e₀)
  repeat' first
    | with_reducible assumption | intro _ | with_reducible apply tileAlias_same | with_reducible apply endMatmul_same
    | with_reducible apply runMatmul_same | with_reducible apply setWaits_same | with_reducible apply runDesc_same
    | with_reducible apply ite_same | with_reducible apply foldl_same | (refine Same.ofSnd (by assumption) ?_) | dsimp only
    | split

theorem execTwDrain_same {r₀ : State} {g₀ : Groups} {h : Hdr} {op : MatmulOp} {s : State} {t₀}
    (e₀ : execTwDrain h op s = .next t₀) (h3 : Same g₀ r₀ s) (m_free : g₀.free = true) (m_pkg : g₀.pkg = true)
    (m_regs : g₀.regs = true) (m_gz : g₀.gz = true) (m_tw : g₀.tw = true) (m_mu : g₀.mu = true) (m_streams : g₀.streams = true)
    (m_qm : g₀.qm = true) (m_seq : g₀.seq = true) (m_img : g₀.img = true) (m_rings : g₀.rings = true) (m_snap : g₀.snap = true)
    (m_sv : g₀.sv = true) (m_sec : g₀.sec = true) (m_i3c : g₀.i3c = true) (m_sounds : g₀.sounds = true)
    (m_seqNo : g₀.seqNo = true) : Same g₀ r₀ t₀ := by
  unfold execTwDrain at e₀
  repeat' first | contradiction | (injection e₀ with e₀; subst e₀) | dsimp only at e₀ | (split at e₀)
  repeat' first
    | with_reducible assumption | intro _ | with_reducible apply complete_same | with_reducible apply coreFault_same
    | with_reducible apply runDesc_same | with_reducible apply arrange_same | with_reducible apply drainRows_same
    | with_reducible apply ite_same | with_reducible apply ite_same_snd | with_reducible apply foldl_same
    | with_reducible apply foldl_same_snd | (refine Same.ofSnd (by assumption) ?_) | dsimp only | split

theorem execTwMin_same {r₀ : State} {g₀ : Groups} {h : Hdr} {op : MaxOp} {s : State} {t₀} (e₀ : execTwMin h op s = .next t₀)
    (h3 : Same g₀ r₀ s) (m_free : g₀.free = true) (m_pkg : g₀.pkg = true) (m_regs : g₀.regs = true) (m_gz : g₀.gz = true)
    (m_tw : g₀.tw = true) (m_mu : g₀.mu = true) (m_streams : g₀.streams = true) (m_qm : g₀.qm = true) (m_seq : g₀.seq = true)
    (m_img : g₀.img = true) (m_rings : g₀.rings = true) (m_snap : g₀.snap = true) (m_sv : g₀.sv = true) (m_sec : g₀.sec = true)
    (m_i3c : g₀.i3c = true) (m_sounds : g₀.sounds = true) (m_seqNo : g₀.seqNo = true) : Same g₀ r₀ t₀ := by
  unfold execTwMin at e₀
  repeat' first | contradiction | (injection e₀ with e₀; subst e₀) | dsimp only at e₀ | (split at e₀)
  repeat' first
    | with_reducible assumption | intro _ | with_reducible apply runMax_same | with_reducible apply runDesc_same
    | with_reducible apply ite_same | with_reducible apply foldl_same | (refine Same.ofSnd (by assumption) ?_) | dsimp only
    | split

end Sys2Proof.Machine
end

