-- ==== Sys2Proof/Laws/SameGather.lean ====
section
/-!
SUPPORT. What the definitions of Machine/Gather.lean may change (Laws/Same.lean).
-/

set_option linter.all false

namespace Sys2Proof.Machine

open Sys2Proof

theorem readSlot_same {r₀ : State} {g₀ : Groups} {s : State} {d i n : Nat} (h1 : Same g₀ r₀ s) (m_free : g₀.free = true)
    (m_pkg : g₀.pkg = true) (m_regs : g₀.regs = true) (m_gz : g₀.gz = true) (m_tw : g₀.tw = true) (m_mu : g₀.mu = true)
    (m_streams : g₀.streams = true) (m_qm : g₀.qm = true) (m_seq : g₀.seq = true) (m_img : g₀.img = true)
    (m_rings : g₀.rings = true) (m_snap : g₀.snap = true) (m_sv : g₀.sv = true) (m_sec : g₀.sec = true) (m_i3c : g₀.i3c = true)
    (m_sounds : g₀.sounds = true) (m_seqNo : g₀.seqNo = true) : Same g₀ r₀ (readSlot s d i n).2 := by
  unfold readSlot
  repeat' first
    | with_reducible assumption | intro _ | with_reducible apply panelFaultAt_same | with_reducible apply cbCheck_same
    | with_reducible apply ite_same | with_reducible apply ite_same_snd | with_reducible apply foldl_same
    | with_reducible apply foldl_same_snd | (refine Same.ofSnd (by assumption) ?_) | dsimp only | split

theorem bagRange_same {r₀ : State} {g₀ : Groups} {s : State} {o : GatherOp} {b : Nat} (h1 : Same g₀ r₀ s) (m_mem : g₀.mem = true)
    (m_regs : g₀.regs = true) (m_mu : g₀.mu = true) (m_sv : g₀.sv = true) (m_i3c : g₀.i3c = true) (m_sounds : g₀.sounds = true)
    (m_seqNo : g₀.seqNo = true) : Same g₀ r₀ (bagRange s o b).2 := by
  unfold bagRange
  repeat' first
    | with_reducible assumption | intro _ | with_reducible apply checkRead_same | with_reducible apply ite_same
    | with_reducible apply ite_same_snd | with_reducible apply foldl_same | with_reducible apply foldl_same_snd
    | (refine Same.ofSnd (by assumption) ?_) | dsimp only | split

theorem readAhead_same {r₀ : State} {g₀ : Groups} {s : State} {o : GatherOp} {wsum : Bool} {b p : Nat} (h1 : Same g₀ r₀ s)
    (m_free : g₀.free = true) (m_mem : g₀.mem = true) (m_regs : g₀.regs = true) (m_mu : g₀.mu = true) (m_sv : g₀.sv = true)
    (m_i3c : g₀.i3c = true) (m_sounds : g₀.sounds = true) (m_seqNo : g₀.seqNo = true) : Same g₀ r₀ (readAhead s o wsum b p) := by
  unfold readAhead
  repeat' first
    | with_reducible assumption | intro _ | with_reducible apply checkReads_same | with_reducible apply State.took_same
    | with_reducible apply ite_same | with_reducible apply ite_same_snd | with_reducible apply foldl_same
    | with_reducible apply foldl_same_snd | (refine Same.ofSnd (by assumption) ?_) | dsimp only | split

theorem bagItems_same {r₀ : State} {g₀ : Groups} {s : State} {o : GatherOp} {wsum : Bool} {lo hi : Nat} (h1 : Same g₀ r₀ s)
    (m_mem : g₀.mem = true) (m_regs : g₀.regs = true) (m_mu : g₀.mu = true) (m_sv : g₀.sv = true) (m_i3c : g₀.i3c = true)
    (m_sounds : g₀.sounds = true) (m_seqNo : g₀.seqNo = true) : Same g₀ r₀ (bagItems s o wsum lo hi).2 := by
  unfold bagItems
  repeat' first
    | with_reducible assumption | intro _ | with_reducible apply checkRead_same | with_reducible apply ite_same
    | with_reducible apply ite_same_snd | with_reducible apply foldl_same | with_reducible apply foldl_same_snd
    | (refine Same.ofSnd (by assumption) ?_) | dsimp only | split

theorem bumpEng_same {r₀ : State} {g₀ : Groups} {s : State} {e off n : Nat} (h1 : Same g₀ r₀ s) (m_regs : g₀.regs = true)
    (m_sounds : g₀.sounds = true) (m_seqNo : g₀.seqNo = true) : Same g₀ r₀ (bumpEng s e off n) := by
  unfold bumpEng
  repeat' first
    | with_reducible assumption | intro _ | with_reducible apply bumpBy_same | with_reducible apply ite_same
    | with_reducible apply foldl_same | (refine Same.ofSnd (by assumption) ?_) | dsimp only | split

theorem fetchRow_same {r₀ : State} {g₀ : Groups} {s : State} {e t row : Nat} {tr : Rec} {x23}
    (e₀ : fetchRow s e t row tr = some x23) (h1 : Same g₀ r₀ s) (m_free : g₀.free = true) (m_pkg : g₀.pkg = true)
    (m_mem : g₀.mem = true) (m_regs : g₀.regs = true) (m_gz : g₀.gz = true) (m_tw : g₀.tw = true) (m_mu : g₀.mu = true)
    (m_streams : g₀.streams = true) (m_qm : g₀.qm = true) (m_seq : g₀.seq = true) (m_img : g₀.img = true)
    (m_rings : g₀.rings = true) (m_snap : g₀.snap = true) (m_sv : g₀.sv = true) (m_sec : g₀.sec = true) (m_i3c : g₀.i3c = true)
    (m_sounds : g₀.sounds = true) (m_seqNo : g₀.seqNo = true) : Same g₀ r₀ x23.2 := by
  unfold fetchRow at e₀
  repeat' first | contradiction | (injection e₀ with e₀; subst e₀) | dsimp only at e₀ | (split at e₀)
  repeat' first
    | with_reducible assumption | intro _ | with_reducible apply bump_same | with_reducible apply bumpEng_same
    | with_reducible apply readSlot_same | with_reducible apply ownerRead_same | with_reducible apply ite_same
    | with_reducible apply ite_same_snd | with_reducible apply foldl_same | with_reducible apply foldl_same_snd
    | (refine Same.ofSnd (by assumption) ?_) | dsimp only | split

theorem gatherIndex_same {r₀ : State} {g₀ : Groups} {e t : Nat} {tr : Rec} {g : GatherRun} {x : Int × Val} {x24}
    (e₀ : gatherIndex e t tr g x = some x24) (h4 : Same g₀ r₀ g.st) (m_free : g₀.free = true) (m_pkg : g₀.pkg = true)
    (m_mem : g₀.mem = true) (m_regs : g₀.regs = true) (m_gz : g₀.gz = true) (m_tw : g₀.tw = true) (m_mu : g₀.mu = true)
    (m_streams : g₀.streams = true) (m_qm : g₀.qm = true) (m_seq : g₀.seq = true) (m_img : g₀.img = true)
    (m_rings : g₀.rings = true) (m_snap : g₀.snap = true) (m_sv : g₀.sv = true) (m_sec : g₀.sec = true) (m_i3c : g₀.i3c = true)
    (m_sounds : g₀.sounds = true) (m_seqNo : g₀.seqNo = true) : Same g₀ r₀ x24.st := by
  unfold gatherIndex at e₀
  repeat' first | contradiction | (injection e₀ with e₀; subst e₀) | dsimp only at e₀ | (split at e₀)
  repeat' first
    | with_reducible assumption | intro _ | with_reducible apply bumpEng_same | with_reducible apply ite_same
    | with_reducible apply ite_same_snd | with_reducible apply foldl_same | with_reducible apply foldl_same_snd
    | (with_reducible refine foldl_same_of GatherRun.st ?_ ?_)
    | (with_reducible refine fetchRow_same (by assumption) ?_ ?_ ?_ ?_ ?_ ?_ ?_ ?_ ?_ ?_ ?_ ?_ ?_ ?_ ?_ ?_ ?_ ?_ ?_)
    | (refine fetchRow_same (x23 := (_, _)) (by assumption) ?_ ?_ ?_ ?_ ?_ ?_ ?_ ?_ ?_ ?_ ?_ ?_ ?_ ?_ ?_ ?_ ?_ ?_ ?_)
    | (refine Same.ofSnd (by assumption) ?_) | dsimp only | split

theorem gatherIndices_same {r₀ : State} {g₀ : Groups} {e t : Nat} {tr : Rec} {a3 : GatherRun} {a4 : List (Int × Val)} {x28}
    (e₀ : gatherIndices e t tr a3 a4 = some x28) (h4 : Same g₀ r₀ a3.st) (m_free : g₀.free = true) (m_pkg : g₀.pkg = true)
    (m_mem : g₀.mem = true) (m_regs : g₀.regs = true) (m_gz : g₀.gz = true) (m_tw : g₀.tw = true) (m_mu : g₀.mu = true)
    (m_streams : g₀.streams = true) (m_qm : g₀.qm = true) (m_seq : g₀.seq = true) (m_img : g₀.img = true)
    (m_rings : g₀.rings = true) (m_snap : g₀.snap = true) (m_sv : g₀.sv = true) (m_sec : g₀.sec = true) (m_i3c : g₀.i3c = true)
    (m_sounds : g₀.sounds = true) (m_seqNo : g₀.seqNo = true) : Same g₀ r₀ x28.st := by
  induction a4 generalizing a3 with
  | nil =>
    unfold gatherIndices at e₀
    repeat' first | contradiction | (injection e₀ with e₀; subst e₀) | dsimp only at e₀ | (split at e₀)
    repeat' first
      | with_reducible assumption | intro _ | with_reducible apply ite_same | with_reducible apply foldl_same
      | (with_reducible refine foldl_same_of GatherRun.st ?_ ?_)
      | (with_reducible refine gatherIndex_same (by assumption) ?_ ?_ ?_ ?_ ?_ ?_ ?_ ?_ ?_ ?_ ?_ ?_ ?_ ?_ ?_ ?_ ?_ ?_ ?_)
      | (refine Same.ofSnd (by assumption) ?_) | dsimp only | split
  | cons _ _ ih =>
    unfold gatherIndices at e₀
    repeat' first | contradiction | (injection e₀ with e₀; subst e₀) | dsimp only at e₀ | (split at e₀)
    repeat' first
      | with_reducible assumption | intro _ | (with_reducible refine ih (by assumption) ?_) | with_reducible apply ite_same
      | with_reducible apply foldl_same | (with_reducible refine foldl_same_of GatherRun.st ?_ ?_)
      | (with_reducible refine gatherIndex_same (by assumption) ?_ ?_ ?_ ?_ ?_ ?_ ?_ ?_ ?_ ?_ ?_ ?_ ?_ ?_ ?_ ?_ ?_ ?_ ?_)
      | (refine Same.ofSnd (by assumption) ?_) | dsimp only | split

theorem bagCodes_same {r₀ : State} {g₀ : Groups} {s : State} {o : GatherOp} {tr : Rec} {g : GatherRun} (h1 : Same g₀ r₀ s)
    (h4 : Same g₀ r₀ g.st) (m_free : g₀.free = true) (m_tw : g₀.tw = true) : Same g₀ r₀ (bagCodes s o tr g).2 := by
  unfold bagCodes
  repeat' first
    | with_reducible assumption | intro _ | with_reducible apply convList_same | with_reducible apply ite_same
    | with_reducible apply ite_same_snd | with_reducible apply foldl_same | with_reducible apply foldl_same_snd
    | (with_reducible refine foldl_same_of GatherRun.st ?_ ?_) | (refine Same.ofSnd (by assumption) ?_) | dsimp only | split

theorem endGather_same {r₀ : State} {g₀ : Groups} {s0 : State} {h : Hdr} {o : GatherOp} {s : State} {st : Nat}
    (h1 : Same g₀ r₀ s0) (h4 : Same g₀ r₀ s) (m_free : g₀.free = true) (m_mu : g₀.mu = true) (m_qm : g₀.qm = true)
    : Same g₀ r₀ (endGather s0 h o s st) := by
  unfold endGather
  repeat' first
    | with_reducible assumption | intro _ | with_reducible apply State.onMu_same | with_reducible apply finish_same
    | with_reducible apply ite_same | with_reducible apply foldl_same | (refine Same.ofSnd (by assumption) ?_) | dsimp only
    | split

theorem writeBit_same {r₀ : State} {g₀ : Groups} {s : State} {o : GatherOp} {b : Nat} {v : Bool} (h1 : Same g₀ r₀ s)
    (m_mem : g₀.mem = true) (m_regs : g₀.regs = true) (m_mu : g₀.mu = true) (m_sv : g₀.sv = true) (m_i3c : g₀.i3c = true)
    (m_sounds : g₀.sounds = true) (m_seqNo : g₀.seqNo = true) : Same g₀ r₀ (writeBit s o b v) := by
  unfold writeBit
  repeat' first
    | with_reducible assumption | intro _ | with_reducible apply writeMem_same | with_reducible apply ite_same
    | with_reducible apply foldl_same | (refine Same.ofSnd (by assumption) ?_) | dsimp only | split

theorem writeBag_same {r₀ : State} {g₀ : Groups} {s : State} {o : GatherOp} {tr : Rec} {b : Nat} {cs scs : List Nat} {bad : Bool}
    (h1 : Same g₀ r₀ s) (m_free : g₀.free = true) (m_pkg : g₀.pkg = true) (m_mem : g₀.mem = true) (m_regs : g₀.regs = true)
    (m_gz : g₀.gz = true) (m_tw : g₀.tw = true) (m_mu : g₀.mu = true) (m_streams : g₀.streams = true) (m_qm : g₀.qm = true)
    (m_seq : g₀.seq = true) (m_img : g₀.img = true) (m_rings : g₀.rings = true) (m_snap : g₀.snap = true) (m_sv : g₀.sv = true)
    (m_sec : g₀.sec = true) (m_i3c : g₀.i3c = true) (m_sounds : g₀.sounds = true) (m_seqNo : g₀.seqNo = true)
    : Same g₀ r₀ (writeBag s o tr b cs scs bad) := by
  unfold writeBag
  repeat' first
    | with_reducible assumption | intro _ | with_reducible apply writeMem_same | with_reducible apply winWrite_same
    | with_reducible apply setStrm_same | with_reducible apply writeBit_same | with_reducible apply showFull_same
    | with_reducible apply windowFault_same | with_reducible apply ite_same | with_reducible apply foldl_same
    | (refine Same.ofSnd (by assumption) ?_) | dsimp only | split

theorem pauseGather_same {r₀ : State} {g₀ : Groups} {h : Hdr} {b : Nat} {g : GatherRun} (h3 : Same g₀ r₀ g.st)
    (m_mu : g₀.mu = true) : Same g₀ r₀ (pauseGather h b g) := by
  unfold pauseGather
  repeat' first
    | with_reducible assumption | intro _ | with_reducible apply State.onMu_same | with_reducible apply ite_same
    | with_reducible apply foldl_same | (with_reducible refine foldl_same_of GatherRun.st ?_ ?_)
    | (refine Same.ofSnd (by assumption) ?_) | dsimp only | split

theorem gatherBags_same {r₀ : State} {g₀ : Groups} {s0 : State} {h : Hdr} {o : GatherOp} {tr : Rec} {a4 a5 : Nat} {a6 : GatherRun}
    (h1 : Same g₀ r₀ s0) (h7 : Same g₀ r₀ a6.st) (m_free : g₀.free = true) (m_pkg : g₀.pkg = true) (m_mem : g₀.mem = true)
    (m_regs : g₀.regs = true) (m_gz : g₀.gz = true) (m_tw : g₀.tw = true) (m_mu : g₀.mu = true) (m_streams : g₀.streams = true)
    (m_qm : g₀.qm = true) (m_seq : g₀.seq = true) (m_img : g₀.img = true) (m_rings : g₀.rings = true) (m_snap : g₀.snap = true)
    (m_sv : g₀.sv = true) (m_sec : g₀.sec = true) (m_i3c : g₀.i3c = true) (m_sounds : g₀.sounds = true)
    (m_seqNo : g₀.seqNo = true) : Same g₀ r₀ (gatherBags s0 h o tr a4 a5 a6) := by
  induction a4 generalizing a5 a6 with
  | zero =>
    unfold gatherBags
    repeat' first
      | with_reducible assumption | intro _ | with_reducible apply bagRange_same | with_reducible apply readAhead_same
      | with_reducible apply bagItems_same | with_reducible apply bagCodes_same | with_reducible apply endGather_same
      | with_reducible apply writeBag_same | with_reducible apply pauseGather_same | with_reducible apply showFull_same
      | with_reducible apply ite_same | with_reducible apply ite_same_snd | with_reducible apply foldl_same
      | with_reducible apply foldl_same_snd | (with_reducible refine foldl_same_of GatherRun.st ?_ ?_)
      | (with_reducible refine gatherIndices_same (by assumption) ?_ ?_ ?_ ?_ ?_ ?_ ?_ ?_ ?_ ?_ ?_ ?_ ?_ ?_ ?_ ?_ ?_ ?_ ?_)
      | (refine Same.ofSnd (by assumption) ?_) | dsimp only | split
  | succ _ ih =>
    unfold gatherBags
    repeat' first
      | with_reducible assumption | intro _ | with_reducible apply ih | with_reducible apply bagRange_same
      | with_reducible apply readAhead_same | with_reducible apply bagItems_same | with_reducible apply bagCodes_same
      | with_reducible apply endGather_same | with_reducible apply writeBag_same | with_reducible apply pauseGather_same
      | with_reducible apply showFull_same | with_reducible apply ite_same | with_reducible apply ite_same_snd
      | with_reducible apply foldl_same | with_reducible apply foldl_same_snd
      | (with_reducible refine foldl_same_of GatherRun.st ?_ ?_)
      | (with_reducible refine gatherIndices_same (by assumption) ?_ ?_ ?_ ?_ ?_ ?_ ?_ ?_ ?_ ?_ ?_ ?_ ?_ ?_ ?_ ?_ ?_ ?_ ?_)
      | (refine Same.ofSnd (by assumption) ?_) | dsimp only | split

theorem sendEntry_same {r₀ : State} {g₀ : Groups} {h : Hdr} {o : GatherOp} {tr : Rec} {g : ScatterRun} {e : GradEntry}
    (h4 : Same g₀ r₀ g.st) (m_gz : g₀.gz = true) : Same g₀ r₀ (sendEntry h o tr g e).st := by
  unfold sendEntry
  repeat' first
    | with_reducible assumption | intro _ | with_reducible apply sendAdd_same | with_reducible apply openReq_same
    | with_reducible apply ite_same | with_reducible apply foldl_same | (with_reducible refine foldl_same_of ScatterRun.st ?_ ?_)
    | (refine Same.ofSnd (by assumption) ?_) | dsimp only | split

theorem sendEntries_same {r₀ : State} {g₀ : Groups} {h : Hdr} {o : GatherOp} {tr : Rec} {g : ScatterRun} (h4 : Same g₀ r₀ g.st)
    (m_gz : g₀.gz = true) : Same g₀ r₀ (sendEntries h o tr g).st := by
  unfold sendEntries
  repeat' first
    | with_reducible assumption | intro _ | with_reducible apply sendEntry_same | with_reducible apply ite_same
    | with_reducible apply foldl_same | (with_reducible refine foldl_same_of ScatterRun.st ?_ ?_)
    | (refine Same.ofSnd (by assumption) ?_) | dsimp only | split

theorem spillGrad_same {r₀ : State} {g₀ : Groups} {h : Hdr} {o : GatherOp} {tr : Rec} {g : ScatterRun} (h4 : Same g₀ r₀ g.st)
    (m_regs : g₀.regs = true) (m_gz : g₀.gz = true) (m_sounds : g₀.sounds = true) (m_seqNo : g₀.seqNo = true)
    : Same g₀ r₀ (spillGrad h o tr g).st := by
  unfold spillGrad
  repeat' first
    | with_reducible assumption | intro _ | with_reducible apply bumpEng_same | with_reducible apply sendEntries_same
    | with_reducible apply ite_same | with_reducible apply foldl_same | (with_reducible refine foldl_same_of ScatterRun.st ?_ ?_)
    | (refine Same.ofSnd (by assumption) ?_) | dsimp only | split

theorem mergeGrad_same {r₀ : State} {g₀ : Groups} {h : Hdr} {o : GatherOp} {tr : Rec} {g : ScatterRun} {row : Nat} {ws : List Int}
    (h4 : Same g₀ r₀ g.st) (m_regs : g₀.regs = true) (m_gz : g₀.gz = true) (m_sounds : g₀.sounds = true)
    (m_seqNo : g₀.seqNo = true) : Same g₀ r₀ (mergeGrad h o tr g row ws).st := by
  unfold mergeGrad
  repeat' first
    | with_reducible assumption | intro _ | with_reducible apply sendEntry_same | with_reducible apply bumpEng_same
    | with_reducible apply spillGrad_same | with_reducible apply ite_same | with_reducible apply foldl_same
    | (with_reducible refine foldl_same_of ScatterRun.st ?_ ?_) | (refine Same.ofSnd (by assumption) ?_) | dsimp only | split

theorem scatterIndex_same {r₀ : State} {g₀ : Groups} {h : Hdr} {o : GatherOp} {tr : Rec} {vs : List Val} {n : Nat}
    {g : ScatterRun} {x : Int × Val} (h6 : Same g₀ r₀ g.st) (m_regs : g₀.regs = true) (m_gz : g₀.gz = true) (m_mu : g₀.mu = true)
    (m_sounds : g₀.sounds = true) (m_seqNo : g₀.seqNo = true) : Same g₀ r₀ (scatterIndex h o tr vs n g x).st := by
  unfold scatterIndex
  repeat' first
    | with_reducible assumption | intro _ | with_reducible apply mergeGrad_same | with_reducible apply bumpBy_same
    | with_reducible apply bumpEng_same | with_reducible apply noteLoss_same | with_reducible apply ite_same
    | with_reducible apply foldl_same | (with_reducible refine foldl_same_of ScatterRun.st ?_ ?_)
    | (refine Same.ofSnd (by assumption) ?_) | dsimp only | split

theorem gradRow_same {r₀ : State} {g₀ : Groups} {s : State} {o : GatherOp} {tr : Rec} {b : Nat} (h1 : Same g₀ r₀ s)
    (m_mem : g₀.mem = true) (m_regs : g₀.regs = true) (m_mu : g₀.mu = true) (m_sv : g₀.sv = true) (m_i3c : g₀.i3c = true)
    (m_sounds : g₀.sounds = true) (m_seqNo : g₀.seqNo = true) : Same g₀ r₀ (gradRow s o tr b).2.2 := by
  unfold gradRow
  repeat' first
    | with_reducible assumption | intro _ | with_reducible apply checkReads_same | with_reducible apply checkRead_same
    | with_reducible apply ite_same | with_reducible apply ite_same_snd | with_reducible apply foldl_same
    | with_reducible apply foldl_same_snd | (refine Same.ofSnd (by assumption) ?_) | dsimp only | split

theorem scatterBags_same {r₀ : State} {g₀ : Groups} {h : Hdr} {o : GatherOp} {tr : Rec} {a3 a4 : Nat} {a5 : ScatterRun}
    (h6 : Same g₀ r₀ a5.st) (m_free : g₀.free = true) (m_mem : g₀.mem = true) (m_regs : g₀.regs = true) (m_gz : g₀.gz = true)
    (m_mu : g₀.mu = true) (m_sv : g₀.sv = true) (m_i3c : g₀.i3c = true) (m_sounds : g₀.sounds = true) (m_seqNo : g₀.seqNo = true)
    : Same g₀ r₀ (scatterBags h o tr a3 a4 a5).2.st := by
  induction a3 generalizing a4 a5 with
  | zero =>
    unfold scatterBags
    repeat' first
      | with_reducible assumption | intro _ | with_reducible apply bagRange_same | with_reducible apply readAhead_same
      | with_reducible apply bagItems_same | with_reducible apply scatterIndex_same | with_reducible apply gradRow_same
      | with_reducible apply ite_same | with_reducible apply ite_same_snd | with_reducible apply foldl_same
      | with_reducible apply foldl_same_snd | (with_reducible refine foldl_same_of ScatterRun.st ?_ ?_)
      | (refine Same.ofSnd (by assumption) ?_) | dsimp only | split
  | succ _ ih =>
    unfold scatterBags
    repeat' first
      | with_reducible assumption | intro _ | with_reducible apply ih | with_reducible apply bagRange_same
      | with_reducible apply readAhead_same | with_reducible apply bagItems_same | with_reducible apply scatterIndex_same
      | with_reducible apply gradRow_same | with_reducible apply ite_same | with_reducible apply ite_same_snd
      | with_reducible apply foldl_same | with_reducible apply foldl_same_snd
      | (with_reducible refine foldl_same_of ScatterRun.st ?_ ?_) | (refine Same.ofSnd (by assumption) ?_) | dsimp only | split

theorem runScatter_same {r₀ : State} {g₀ : Groups} {s : State} {h : Hdr} {o : GatherOp} {tr : Rec} (h1 : Same g₀ r₀ s)
    (m_free : g₀.free = true) (m_mem : g₀.mem = true) (m_regs : g₀.regs = true) (m_gz : g₀.gz = true) (m_mu : g₀.mu = true)
    (m_qm : g₀.qm = true) (m_sv : g₀.sv = true) (m_i3c : g₀.i3c = true) (m_sounds : g₀.sounds = true) (m_seqNo : g₀.seqNo = true)
    : Same g₀ r₀ (runScatter s h o tr) := by
  unfold runScatter
  repeat' first
    | with_reducible assumption | intro _ | with_reducible apply State.onMu_same | with_reducible apply markStarted_same
    | with_reducible apply sendEntries_same | with_reducible apply scatterBags_same | with_reducible apply complete_same
    | with_reducible apply waitFor_same | with_reducible apply ite_same | with_reducible apply ite_same_snd
    | with_reducible apply foldl_same | with_reducible apply foldl_same_snd
    | (with_reducible refine foldl_same_of ScatterRun.st ?_ ?_) | (refine Same.ofSnd (by assumption) ?_) | dsimp only | split

theorem sendHeld_same {r₀ : State} {g₀ : Groups} {s : State} {h : Hdr} {a2 : List (OutReq × AddMsg)} (h1 : Same g₀ r₀ s)
    (m_free : g₀.free = true) (m_gz : g₀.gz = true) (m_mu : g₀.mu = true) (m_qm : g₀.qm = true)
    : Same g₀ r₀ (sendHeld s h a2) := by
  induction a2 generalizing s with
  | nil =>
    unfold sendHeld
    repeat' first
      | with_reducible assumption | intro _ | with_reducible apply State.onMu_same | with_reducible apply sendAdd_same
      | with_reducible apply endAdds_same | with_reducible apply openReq_same | with_reducible apply State.onQm_same
      | with_reducible apply ite_same | with_reducible apply foldl_same | (refine Same.ofSnd (by assumption) ?_) | dsimp only
      | split
  | cons _ _ ih =>
    unfold sendHeld
    repeat' first
      | with_reducible assumption | intro _ | with_reducible apply ih | with_reducible apply State.onMu_same
      | with_reducible apply sendAdd_same | with_reducible apply endAdds_same | with_reducible apply openReq_same
      | with_reducible apply State.onQm_same | with_reducible apply ite_same | with_reducible apply foldl_same
      | (refine Same.ofSnd (by assumption) ?_) | dsimp only | split

theorem execMuGradScatter_same {r₀ : State} {g₀ : Groups} {h : Hdr} {op : GatherOp} {s : State} {t₀}
    (e₀ : execMuGradScatter h op s = .next t₀) (h3 : Same g₀ r₀ s) (m_free : g₀.free = true) (m_mem : g₀.mem = true)
    (m_regs : g₀.regs = true) (m_gz : g₀.gz = true) (m_mu : g₀.mu = true) (m_qm : g₀.qm = true) (m_sv : g₀.sv = true)
    (m_i3c : g₀.i3c = true) (m_sounds : g₀.sounds = true) (m_seqNo : g₀.seqNo = true) : Same g₀ r₀ t₀ := by
  unfold execMuGradScatter at e₀
  repeat' first | contradiction | (injection e₀ with e₀; subst e₀) | dsimp only at e₀ | (split at e₀)
  repeat' first
    | with_reducible assumption | intro _ | with_reducible apply sendHeld_same | with_reducible apply complete_same
    | with_reducible apply setWaits_same | with_reducible apply runScatter_same | with_reducible apply runDesc_same
    | with_reducible apply ite_same | with_reducible apply foldl_same | (refine Same.ofSnd (by assumption) ?_) | dsimp only
    | split

theorem runGather_same {r₀ : State} {g₀ : Groups} {s : State} {h : Hdr} {o : GatherOp} {tr : Rec} (h1 : Same g₀ r₀ s)
    (m_free : g₀.free = true) (m_pkg : g₀.pkg = true) (m_mem : g₀.mem = true) (m_regs : g₀.regs = true) (m_gz : g₀.gz = true)
    (m_tw : g₀.tw = true) (m_mu : g₀.mu = true) (m_streams : g₀.streams = true) (m_qm : g₀.qm = true) (m_seq : g₀.seq = true)
    (m_img : g₀.img = true) (m_rings : g₀.rings = true) (m_snap : g₀.snap = true) (m_sv : g₀.sv = true) (m_sec : g₀.sec = true)
    (m_i3c : g₀.i3c = true) (m_sounds : g₀.sounds = true) (m_seqNo : g₀.seqNo = true) : Same g₀ r₀ (runGather s h o tr) := by
  unfold runGather
  repeat' first
    | with_reducible assumption | intro _ | with_reducible apply markStarted_same | with_reducible apply gatherBags_same
    | with_reducible apply ite_same | with_reducible apply foldl_same | (with_reducible refine foldl_same_of GatherRun.st ?_ ?_)
    | (refine Same.ofSnd (by assumption) ?_) | dsimp only | split

theorem execMuGather_same {r₀ : State} {g₀ : Groups} {h : Hdr} {op : GatherOp} {s : State} {t₀}
    (e₀ : execMuGather h op s = .next t₀) (h3 : Same g₀ r₀ s) (m_free : g₀.free = true) (m_pkg : g₀.pkg = true)
    (m_mem : g₀.mem = true) (m_regs : g₀.regs = true) (m_gz : g₀.gz = true) (m_tw : g₀.tw = true) (m_mu : g₀.mu = true)
    (m_streams : g₀.streams = true) (m_qm : g₀.qm = true) (m_seq : g₀.seq = true) (m_img : g₀.img = true)
    (m_rings : g₀.rings = true) (m_snap : g₀.snap = true) (m_sv : g₀.sv = true) (m_sec : g₀.sec = true) (m_i3c : g₀.i3c = true)
    (m_sounds : g₀.sounds = true) (m_seqNo : g₀.seqNo = true) : Same g₀ r₀ t₀ := by
  unfold execMuGather at e₀
  repeat' first | contradiction | (injection e₀ with e₀; subst e₀) | dsimp only at e₀ | (split at e₀)
  repeat' first
    | with_reducible assumption | intro _ | with_reducible apply complete_same | with_reducible apply runGather_same
    | with_reducible apply runDesc_same | with_reducible apply ite_same | with_reducible apply foldl_same
    | (refine Same.ofSnd (by assumption) ?_) | dsimp only | split

end Sys2Proof.Machine
end

