-- ==== Sys2Proof/Laws/SameFlits.lean ====
section
/-!
SUPPORT. What the definitions of Machine/Flits.lean may change (Laws/Same.lean).
-/

set_option linter.all false

namespace Sys2Proof.Machine

open Sys2Proof

theorem ackStrm_same {r₀ : State} {g₀ : Groups} {s : State} {r : OutReq} {stream : Nat} {f : Flit} (h1 : Same g₀ r₀ s)
    (m_free : g₀.free = true) (m_pkg : g₀.pkg = true) (m_regs : g₀.regs = true) (m_gz : g₀.gz = true) (m_qm : g₀.qm = true)
    (m_rings : g₀.rings = true) (m_sounds : g₀.sounds = true) (m_seqNo : g₀.seqNo = true)
    : Same g₀ r₀ (ackStrm s r stream f) := by
  unfold ackStrm
  repeat' first
    | with_reducible assumption | intro _ | with_reducible apply State.onRings_same | with_reducible apply sendStrmReg_same
    | with_reducible apply ite_same | with_reducible apply foldl_same | (refine Same.ofSnd (by assumption) ?_) | dsimp only
    | split

theorem spendInjection_same {r₀ : State} {g₀ : Groups} {s : State} {d : Nat} (h1 : Same g₀ r₀ s) (m_sv : g₀.sv = true)
    : Same g₀ r₀ (spendInjection s d) := by
  unfold spendInjection
  repeat' first
    | with_reducible assumption | intro _ | with_reducible apply State.onSv_same | with_reducible apply ite_same
    | with_reducible apply foldl_same | (refine Same.ofSnd (by assumption) ?_) | dsimp only | split

theorem execFlitCrcError_same {r₀ : State} {g₀ : Groups} {die port : Nat} {again : Bool} {s : State} {t₀}
    (e₀ : execFlitCrcError die port again s = .next t₀) (h4 : Same g₀ r₀ s) (m_pkg : g₀.pkg = true) (m_regs : g₀.regs = true)
    (m_gz : g₀.gz = true) (m_sv : g₀.sv = true) (m_i3c : g₀.i3c = true) (m_sounds : g₀.sounds = true) (m_seqNo : g₀.seqNo = true)
    : Same g₀ r₀ t₀ := by
  unfold execFlitCrcError at e₀
  repeat' first | contradiction | (injection e₀ with e₀; subst e₀) | dsimp only at e₀ | (split at e₀)
  repeat' first
    | with_reducible assumption | intro _ | with_reducible apply bump_same | with_reducible apply State.onGz_same
    | with_reducible apply failPort_same | with_reducible apply spendInjection_same | with_reducible apply ite_same
    | with_reducible apply foldl_same | (refine Same.ofSnd (by assumption) ?_) | dsimp only | split

theorem landRemote_same {r₀ : State} {g₀ : Groups} {s : State} {r : Rec} {n : Nat} {g : Ingress} (h1 : Same g₀ r₀ s)
    (m_free : g₀.free = true) (m_regs : g₀.regs = true) (m_streams : g₀.streams = true) (m_sounds : g₀.sounds = true)
    (m_seqNo : g₀.seqNo = true) : Same g₀ r₀ (landRemote s r n g) := by
  unfold landRemote
  repeat' first
    | with_reducible assumption | intro _ | with_reducible apply setStrm_same | with_reducible apply showFull_same
    | with_reducible apply ite_same | with_reducible apply foldl_same | (refine Same.ofSnd (by assumption) ?_) | dsimp only
    | split

theorem landWrite_same {r₀ : State} {g₀ : Groups} {s : State} {f : Flit} {g : Option Nat} {a : Nat} (h1 : Same g₀ r₀ s)
    (m_free : g₀.free = true) (m_pkg : g₀.pkg = true) (m_mem : g₀.mem = true) (m_regs : g₀.regs = true) (m_gz : g₀.gz = true)
    (m_tw : g₀.tw = true) (m_mu : g₀.mu = true) (m_streams : g₀.streams = true) (m_qm : g₀.qm = true) (m_seq : g₀.seq = true)
    (m_img : g₀.img = true) (m_rings : g₀.rings = true) (m_snap : g₀.snap = true) (m_sv : g₀.sv = true) (m_sec : g₀.sec = true)
    (m_i3c : g₀.i3c = true) (m_sounds : g₀.sounds = true) (m_seqNo : g₀.seqNo = true) : Same g₀ r₀ (landWrite s f g a) := by
  unfold landWrite
  repeat' first
    | with_reducible assumption | intro _ | with_reducible apply panelFaultAt_same | with_reducible apply cbWrite_same
    | with_reducible apply viewWrite_same | with_reducible apply landRemote_same | with_reducible apply ite_same
    | with_reducible apply foldl_same | (refine Same.ofSnd (by assumption) ?_) | dsimp only | split

theorem respond_same {r₀ : State} {g₀ : Groups} {s : State} {f : Flit} {panel da mark : Nat} {bs : List Byte} (h1 : Same g₀ r₀ s)
    (m_gz : g₀.gz = true) : Same g₀ r₀ (respond s f panel da mark bs) := by
  unfold respond
  repeat' first
    | with_reducible assumption | intro _ | with_reducible apply sendFlit_same | with_reducible apply ite_same
    | with_reducible apply foldl_same | (refine Same.ofSnd (by assumption) ?_) | dsimp only | split

theorem respondData_same {r₀ : State} {g₀ : Groups} {s : State} {f : Flit} {panel : Nat} {bs : List Byte} (h1 : Same g₀ r₀ s)
    (m_gz : g₀.gz = true) : Same g₀ r₀ (respondData s f panel bs) := by
  unfold respondData
  repeat' first
    | with_reducible assumption | intro _ | with_reducible apply respond_same | with_reducible apply ite_same
    | with_reducible apply foldl_same | (refine Same.ofSnd (by assumption) ?_) | dsimp only | split

theorem readMemory_same {r₀ : State} {g₀ : Groups} {s : State} {f : Flit} {a n : Nat} (h1 : Same g₀ r₀ s) (m_mem : g₀.mem = true)
    (m_regs : g₀.regs = true) (m_gz : g₀.gz = true) (m_mu : g₀.mu = true) (m_sv : g₀.sv = true) (m_i3c : g₀.i3c = true)
    (m_sounds : g₀.sounds = true) (m_seqNo : g₀.seqNo = true) : Same g₀ r₀ (readMemory s f a n).2 := by
  unfold readMemory
  repeat' first
    | with_reducible assumption | intro _ | with_reducible apply respondData_same | with_reducible apply respond_same
    | with_reducible apply checkRead_same | with_reducible apply ite_same | with_reducible apply ite_same_snd
    | with_reducible apply foldl_same | with_reducible apply foldl_same_snd | (refine Same.ofSnd (by assumption) ?_) | dsimp only
    | split

theorem landBackground_same {r₀ : State} {g₀ : Groups} {s : State} {f : Flit} (h1 : Same g₀ r₀ s) (m_mem : g₀.mem = true)
    (m_regs : g₀.regs = true) (m_mu : g₀.mu = true) (m_sv : g₀.sv = true) (m_i3c : g₀.i3c = true) (m_sounds : g₀.sounds = true)
    (m_seqNo : g₀.seqNo = true) : Same g₀ r₀ (landBackground s f) := by
  unfold landBackground
  repeat' first
    | with_reducible assumption | intro _ | with_reducible apply writeMem_same | with_reducible apply ite_same
    | with_reducible apply foldl_same | (refine Same.ofSnd (by assumption) ?_) | dsimp only | split

theorem landTc4_same {r₀ : State} {g₀ : Groups} {s : State} {f : Flit} (h1 : Same g₀ r₀ s) (m_pkg : g₀.pkg = true)
    (m_mem : g₀.mem = true) (m_regs : g₀.regs = true) (m_gz : g₀.gz = true) (m_mu : g₀.mu = true) (m_sv : g₀.sv = true)
    (m_i3c : g₀.i3c = true) (m_sounds : g₀.sounds = true) (m_seqNo : g₀.seqNo = true) : Same g₀ r₀ (landTc4 s f) := by
  unfold landTc4
  repeat' first
    | with_reducible assumption | intro _ | with_reducible apply landBackground_same | with_reducible apply arrive_same
    | with_reducible apply ite_same | with_reducible apply ite_same_snd | with_reducible apply foldl_same
    | with_reducible apply foldl_same_snd | (refine Same.ofSnd (by assumption) ?_) | dsimp only | split

theorem sendSounding_same {r₀ : State} {g₀ : Groups} {s : State} {f : Flit} (h1 : Same g₀ r₀ s) (m_pkg : g₀.pkg = true)
    (m_mem : g₀.mem = true) (m_regs : g₀.regs = true) (m_gz : g₀.gz = true) (m_mu : g₀.mu = true) (m_sv : g₀.sv = true)
    (m_i3c : g₀.i3c = true) (m_sounds : g₀.sounds = true) (m_seqNo : g₀.seqNo = true) : Same g₀ r₀ (sendSounding s f) := by
  unfold sendSounding
  repeat' first
    | with_reducible assumption | intro _ | with_reducible apply State.onSounds_same | with_reducible apply landTc4_same
    | with_reducible apply ite_same | with_reducible apply foldl_same | (refine Same.ofSnd (by assumption) ?_) | dsimp only
    | split

theorem serveRegRead_same {r₀ : State} {g₀ : Groups} {s : State} {f : Flit} (h1 : Same g₀ r₀ s) (m_gz : g₀.gz = true)
    : Same g₀ r₀ (serveRegRead s f) := by
  unfold serveRegRead
  repeat' first
    | with_reducible assumption | intro _ | with_reducible apply sendFlit_same | with_reducible apply ite_same
    | with_reducible apply foldl_same | (refine Same.ofSnd (by assumption) ?_) | dsimp only | split

theorem ackWrite_same {r₀ : State} {g₀ : Groups} {s : State} {f : Flit} {panel : Nat} (h1 : Same g₀ r₀ s) (m_gz : g₀.gz = true)
    : Same g₀ r₀ (ackWrite s f panel) := by
  unfold ackWrite
  repeat' first
    | with_reducible assumption | intro _ | with_reducible apply sendFlit_same | with_reducible apply ite_same
    | with_reducible apply foldl_same | (refine Same.ofSnd (by assumption) ?_) | dsimp only | split

theorem takeJournalAck_same {r₀ : State} {g₀ : Groups} {s : State} {r : OutReq} (h1 : Same g₀ r₀ s) (m_free : g₀.free = true)
    (m_pkg : g₀.pkg = true) (m_regs : g₀.regs = true) (m_gz : g₀.gz = true) (m_qm : g₀.qm = true) (m_rings : g₀.rings = true)
    (m_twin : g₀.twin = true) (m_sounds : g₀.sounds = true) (m_seqNo : g₀.seqNo = true) : Same g₀ r₀ (takeJournalAck s r) := by
  unfold takeJournalAck
  repeat' first
    | with_reducible assumption | intro _ | with_reducible apply pumpJournal_same | with_reducible apply State.onTwin_same
    | with_reducible apply pairCheck_same | with_reducible apply ite_same | with_reducible apply foldl_same
    | (refine Same.ofSnd (by assumption) ?_) | dsimp only | split

theorem execSounding_same {r₀ : State} {g₀ : Groups} {f : Flit} {s : State} {t₀} (e₀ : execSounding f s = .next t₀)
    (h2 : Same g₀ r₀ s) (m_pkg : g₀.pkg = true) (m_mem : g₀.mem = true) (m_regs : g₀.regs = true) (m_gz : g₀.gz = true)
    (m_mu : g₀.mu = true) (m_sv : g₀.sv = true) (m_i3c : g₀.i3c = true) (m_sounds : g₀.sounds = true) (m_seqNo : g₀.seqNo = true)
    : Same g₀ r₀ t₀ := by
  unfold execSounding at e₀
  repeat' first | contradiction | (injection e₀ with e₀; subst e₀) | dsimp only at e₀ | (split at e₀)
  repeat' first
    | with_reducible assumption | intro _ | with_reducible apply landTc4_same | with_reducible apply sendSounding_same
    | with_reducible apply ite_same | with_reducible apply foldl_same | (refine Same.ofSnd (by assumption) ?_) | dsimp only
    | split

theorem releaseResp_same {r₀ : State} {g₀ : Groups} {s : State} {r : OutReq} {whole : Bool} (h1 : Same g₀ r₀ s)
    (m_gz : g₀.gz = true) : Same g₀ r₀ (releaseResp s r whole) := by
  unfold releaseResp
  repeat' first
    | with_reducible assumption | intro _ | with_reducible apply State.onGz_same | with_reducible apply closeReq_same
    | with_reducible apply ite_same | with_reducible apply foldl_same | (refine Same.ofSnd (by assumption) ?_) | dsimp only
    | split

theorem landGet_same {r₀ : State} {g₀ : Groups} {s : State} {r : OutReq} {f : Flit} (h1 : Same g₀ r₀ s) (m_mem : g₀.mem = true)
    (m_regs : g₀.regs = true) (m_mu : g₀.mu = true) (m_qm : g₀.qm = true) (m_sv : g₀.sv = true) (m_i3c : g₀.i3c = true)
    (m_sounds : g₀.sounds = true) (m_seqNo : g₀.seqNo = true) : Same g₀ r₀ (landGet s r f) := by
  unfold landGet
  repeat' first
    | with_reducible assumption | intro _ | with_reducible apply writeMem_same | with_reducible apply State.onQm_same
    | with_reducible apply ite_same | with_reducible apply foldl_same | (refine Same.ofSnd (by assumption) ?_) | dsimp only
    | split

theorem takeResp_same {r₀ : State} {g₀ : Groups} {s : State} {f : Flit} (h1 : Same g₀ r₀ s) (m_free : g₀.free = true)
    (m_pkg : g₀.pkg = true) (m_mem : g₀.mem = true) (m_regs : g₀.regs = true) (m_gz : g₀.gz = true) (m_mu : g₀.mu = true)
    (m_qm : g₀.qm = true) (m_rings : g₀.rings = true) (m_sv : g₀.sv = true) (m_i3c : g₀.i3c = true) (m_sounds : g₀.sounds = true)
    (m_seqNo : g₀.seqNo = true) : Same g₀ r₀ (takeResp s f) := by
  unfold takeResp
  repeat' first
    | with_reducible assumption | intro _ | with_reducible apply lateAnswer_same | with_reducible apply answered_same
    | with_reducible apply sendBack_same | with_reducible apply answerIngress_same | with_reducible apply releaseResp_same
    | with_reducible apply landGet_same | with_reducible apply ite_same | with_reducible apply foldl_same
    | (refine Same.ofSnd (by assumption) ?_) | dsimp only | split

theorem serveWrite_same {r₀ : State} {g₀ : Groups} {s : State} {f : Flit} (h1 : Same g₀ r₀ s) (m_free : g₀.free = true)
    (m_pkg : g₀.pkg = true) (m_mem : g₀.mem = true) (m_regs : g₀.regs = true) (m_gz : g₀.gz = true) (m_tw : g₀.tw = true)
    (m_mu : g₀.mu = true) (m_streams : g₀.streams = true) (m_qm : g₀.qm = true) (m_seq : g₀.seq = true) (m_img : g₀.img = true)
    (m_rings : g₀.rings = true) (m_snap : g₀.snap = true) (m_sv : g₀.sv = true) (m_sec : g₀.sec = true) (m_i3c : g₀.i3c = true)
    (m_sounds : g₀.sounds = true) (m_seqNo : g₀.seqNo = true) : Same g₀ r₀ (serveWrite s f) := by
  unfold serveWrite
  repeat' first
    | with_reducible assumption | intro _ | with_reducible apply leaveGauze_same | with_reducible apply landWrite_same
    | with_reducible apply ackWrite_same | with_reducible apply bumpCore_same | with_reducible apply refuse_same
    | with_reducible apply ite_same | with_reducible apply foldl_same | (refine Same.ofSnd (by assumption) ?_) | dsimp only
    | split

theorem readRow_same {r₀ : State} {g₀ : Groups} {s : State} {f : Flit} {k t row a n : Nat} (h1 : Same g₀ r₀ s)
    (m_mem : g₀.mem = true) (m_regs : g₀.regs = true) (m_gz : g₀.gz = true) (m_mu : g₀.mu = true) (m_sv : g₀.sv = true)
    (m_i3c : g₀.i3c = true) (m_sounds : g₀.sounds = true) (m_seqNo : g₀.seqNo = true) : Same g₀ r₀ (readRow s f k t row a n) := by
  unfold readRow
  repeat' first
    | with_reducible assumption | intro _ | with_reducible apply survey_same | with_reducible apply markPoisoned_same
    | with_reducible apply sendFlit_same | with_reducible apply respond_same | with_reducible apply readMemory_same
    | with_reducible apply noteFwd_same | with_reducible apply hotAdd_same | with_reducible apply ite_same
    | with_reducible apply ite_same_snd | with_reducible apply foldl_same | with_reducible apply foldl_same_snd
    | (refine Same.ofSnd (by assumption) ?_) | dsimp only | split

theorem readForwarded_same {r₀ : State} {g₀ : Groups} {s : State} {f : Flit} {owner n : Nat} (h1 : Same g₀ r₀ s)
    (m_mem : g₀.mem = true) (m_regs : g₀.regs = true) (m_gz : g₀.gz = true) (m_mu : g₀.mu = true) (m_sv : g₀.sv = true)
    (m_i3c : g₀.i3c = true) (m_sounds : g₀.sounds = true) (m_seqNo : g₀.seqNo = true)
    : Same g₀ r₀ (readForwarded s f owner n) := by
  unfold readForwarded
  repeat' first
    | with_reducible assumption | intro _ | with_reducible apply bump_same | with_reducible apply markPoisoned_same
    | with_reducible apply readMemory_same | with_reducible apply refuse_same | with_reducible apply ite_same
    | with_reducible apply ite_same_snd | with_reducible apply foldl_same | with_reducible apply foldl_same_snd
    | (refine Same.ofSnd (by assumption) ?_) | dsimp only | split

theorem serveRead_same {r₀ : State} {g₀ : Groups} {s : State} {f : Flit} {via : Option Nat} (h1 : Same g₀ r₀ s)
    (m_free : g₀.free = true) (m_pkg : g₀.pkg = true) (m_mem : g₀.mem = true) (m_regs : g₀.regs = true) (m_gz : g₀.gz = true)
    (m_tw : g₀.tw = true) (m_mu : g₀.mu = true) (m_streams : g₀.streams = true) (m_qm : g₀.qm = true) (m_seq : g₀.seq = true)
    (m_img : g₀.img = true) (m_rings : g₀.rings = true) (m_snap : g₀.snap = true) (m_sv : g₀.sv = true) (m_sec : g₀.sec = true)
    (m_i3c : g₀.i3c = true) (m_sounds : g₀.sounds = true) (m_seqNo : g₀.seqNo = true) : Same g₀ r₀ (serveRead s f via) := by
  unfold serveRead
  repeat' first
    | with_reducible assumption | intro _ | with_reducible apply respondData_same | with_reducible apply leaveGauze_same
    | with_reducible apply readRow_same | with_reducible apply readSlot_same | with_reducible apply respond_same
    | with_reducible apply readMemory_same | with_reducible apply refuse_same | with_reducible apply readForwarded_same
    | with_reducible apply ite_same | with_reducible apply ite_same_snd | with_reducible apply foldl_same
    | with_reducible apply foldl_same_snd | (refine Same.ofSnd (by assumption) ?_) | dsimp only | split

theorem execRead_same {r₀ : State} {g₀ : Groups} {f : Flit} {s : State} {t₀} (e₀ : execRead f s = .next t₀) (h2 : Same g₀ r₀ s)
    (m_free : g₀.free = true) (m_pkg : g₀.pkg = true) (m_mem : g₀.mem = true) (m_regs : g₀.regs = true) (m_gz : g₀.gz = true)
    (m_tw : g₀.tw = true) (m_mu : g₀.mu = true) (m_streams : g₀.streams = true) (m_qm : g₀.qm = true) (m_seq : g₀.seq = true)
    (m_img : g₀.img = true) (m_rings : g₀.rings = true) (m_snap : g₀.snap = true) (m_sv : g₀.sv = true) (m_sec : g₀.sec = true)
    (m_i3c : g₀.i3c = true) (m_sounds : g₀.sounds = true) (m_seqNo : g₀.seqNo = true) : Same g₀ r₀ t₀ := by
  unfold execRead at e₀
  repeat' first | contradiction | (injection e₀ with e₀; subst e₀) | dsimp only at e₀ | (split at e₀)
  repeat' first
    | with_reducible assumption | intro _ | with_reducible apply arrive_same | with_reducible apply serveRead_same
    | with_reducible apply serveRegRead_same | with_reducible apply ite_same | with_reducible apply ite_same_snd
    | with_reducible apply foldl_same | with_reducible apply foldl_same_snd | (refine Same.ofSnd (by assumption) ?_) | dsimp only
    | split

theorem afterAck_same {r₀ : State} {g₀ : Groups} {s : State} {r : OutReq} {f : Flit} (h1 : Same g₀ r₀ s) (m_free : g₀.free = true)
    (m_pkg : g₀.pkg = true) (m_regs : g₀.regs = true) (m_gz : g₀.gz = true) (m_streams : g₀.streams = true) (m_qm : g₀.qm = true)
    (m_rings : g₀.rings = true) (m_twin : g₀.twin = true) (m_sounds : g₀.sounds = true) (m_seqNo : g₀.seqNo = true)
    : Same g₀ r₀ (afterAck s r f) := by
  unfold afterAck
  repeat' first
    | with_reducible assumption | intro _ | with_reducible apply takeJournalAck_same | with_reducible apply ackStrm_same
    | with_reducible apply takeMcAck_same | with_reducible apply ite_same | with_reducible apply foldl_same
    | (refine Same.ofSnd (by assumption) ?_) | dsimp only | split

theorem takeAck_same {r₀ : State} {g₀ : Groups} {s : State} {f : Flit} (h1 : Same g₀ r₀ s) (m_free : g₀.free = true)
    (m_pkg : g₀.pkg = true) (m_regs : g₀.regs = true) (m_gz : g₀.gz = true) (m_streams : g₀.streams = true) (m_qm : g₀.qm = true)
    (m_rings : g₀.rings = true) (m_twin : g₀.twin = true) (m_sounds : g₀.sounds = true) (m_seqNo : g₀.seqNo = true)
    (m_cores : g₀.cores = true) : Same g₀ r₀ (takeAck s f) := by
  unfold takeAck
  repeat' first
    | with_reducible assumption | intro _ | with_reducible apply afterAck_same | with_reducible apply takeAcked_same
    | with_reducible apply lateAnswer_same | with_reducible apply endStore_same | with_reducible apply answered_same
    | with_reducible apply answerIngress_same | with_reducible apply closeReq_same | with_reducible apply ite_same
    | with_reducible apply foldl_same | (refine Same.ofSnd (by assumption) ?_) | dsimp only | split

theorem execWriteAck_same {r₀ : State} {g₀ : Groups} {f : Flit} {s : State} {t₀} (e₀ : execWriteAck f s = .next t₀)
    (h2 : Same g₀ r₀ s) (m_free : g₀.free = true) (m_pkg : g₀.pkg = true) (m_regs : g₀.regs = true) (m_gz : g₀.gz = true)
    (m_streams : g₀.streams = true) (m_qm : g₀.qm = true) (m_rings : g₀.rings = true) (m_twin : g₀.twin = true)
    (m_sv : g₀.sv = true) (m_i3c : g₀.i3c = true) (m_sounds : g₀.sounds = true) (m_seqNo : g₀.seqNo = true)
    (m_cores : g₀.cores = true) : Same g₀ r₀ t₀ := by
  unfold execWriteAck at e₀
  repeat' first | contradiction | (injection e₀ with e₀; subst e₀) | dsimp only at e₀ | (split at e₀)
  repeat' first
    | with_reducible assumption | intro _ | with_reducible apply arrive_same | with_reducible apply takeAck_same
    | with_reducible apply ite_same | with_reducible apply ite_same_snd | with_reducible apply foldl_same
    | with_reducible apply foldl_same_snd | (refine Same.ofSnd (by assumption) ?_) | dsimp only | split

theorem serveRegWrite_same {r₀ : State} {g₀ : Groups} {s : State} {f : Flit} (h1 : Same g₀ r₀ s) (m_free : g₀.free = true)
    (m_mem : g₀.mem = true) (m_regs : g₀.regs = true) (m_gz : g₀.gz = true) (m_ck : g₀.ck = true) (m_tw : g₀.tw = true)
    (m_mu : g₀.mu = true) (m_streams : g₀.streams = true) (m_qm : g₀.qm = true) (m_seq : g₀.seq = true) (m_img : g₀.img = true)
    (m_rings : g₀.rings = true) (m_snap : g₀.snap = true) (m_sv : g₀.sv = true) (m_sec : g₀.sec = true) (m_ct : g₀.ct = true)
    (m_host : g₀.host = true) (m_i3c : g₀.i3c = true) (m_sounds : g₀.sounds = true) (m_seqNo : g₀.seqNo = true)
    : Same g₀ r₀ (serveRegWrite s f) := by
  unfold serveRegWrite
  repeat' first
    | with_reducible assumption | intro _ | with_reducible apply maskedWrite_same | with_reducible apply ackWrite_same
    | with_reducible apply ite_same | with_reducible apply foldl_same | (refine Same.ofSnd (by assumption) ?_) | dsimp only
    | split

theorem takeWrite_same {r₀ : State} {g₀ : Groups} {s : State} {f : Flit} (h1 : Same g₀ r₀ s) (m_free : g₀.free = true)
    (m_pkg : g₀.pkg = true) (m_mem : g₀.mem = true) (m_regs : g₀.regs = true) (m_gz : g₀.gz = true) (m_ck : g₀.ck = true)
    (m_tw : g₀.tw = true) (m_mu : g₀.mu = true) (m_streams : g₀.streams = true) (m_qm : g₀.qm = true) (m_seq : g₀.seq = true)
    (m_img : g₀.img = true) (m_rings : g₀.rings = true) (m_snap : g₀.snap = true) (m_sv : g₀.sv = true) (m_sec : g₀.sec = true)
    (m_ct : g₀.ct = true) (m_host : g₀.host = true) (m_i3c : g₀.i3c = true) (m_sounds : g₀.sounds = true)
    (m_seqNo : g₀.seqNo = true) : Same g₀ r₀ (takeWrite s f) := by
  unfold takeWrite
  repeat' first
    | with_reducible assumption | intro _ | with_reducible apply serveRegWrite_same | with_reducible apply serveWrite_same
    | with_reducible apply ite_same | with_reducible apply foldl_same | (refine Same.ofSnd (by assumption) ?_) | dsimp only
    | split

theorem takeRegResp_same {r₀ : State} {g₀ : Groups} {s : State} {f : Flit} (h1 : Same g₀ r₀ s) (m_free : g₀.free = true)
    (m_regs : g₀.regs = true) (m_gz : g₀.gz = true) (m_qm : g₀.qm = true) (m_sounds : g₀.sounds = true)
    (m_seqNo : g₀.seqNo = true) : Same g₀ r₀ (takeRegResp s f) := by
  unfold takeRegResp
  repeat' first
    | with_reducible assumption | intro _ | with_reducible apply lateAnswer_same | with_reducible apply answered_same
    | with_reducible apply closeReq_same | with_reducible apply ite_same | with_reducible apply foldl_same
    | (refine Same.ofSnd (by assumption) ?_) | dsimp only | split

theorem execCredit_same {r₀ : State} {g₀ : Groups} {die port tc n : Nat} {s : State} {t₀}
    (e₀ : execCredit die port tc n s = .next t₀) (h5 : Same g₀ r₀ s) (m_gz : g₀.gz = true) : Same g₀ r₀ t₀ := by
  unfold execCredit at e₀
  repeat' first | contradiction | (injection e₀ with e₀; subst e₀) | dsimp only at e₀ | (split at e₀)
  repeat' first
    | with_reducible assumption | intro _ | with_reducible apply returnCredits_same | with_reducible apply ite_same
    | with_reducible apply foldl_same | (refine Same.ofSnd (by assumption) ?_) | dsimp only | split

theorem execWrite_same {r₀ : State} {g₀ : Groups} {f : Flit} {s : State} {t₀} (e₀ : execWrite f s = .next t₀) (h2 : Same g₀ r₀ s)
    (m_free : g₀.free = true) (m_pkg : g₀.pkg = true) (m_mem : g₀.mem = true) (m_regs : g₀.regs = true) (m_gz : g₀.gz = true)
    (m_ck : g₀.ck = true) (m_tw : g₀.tw = true) (m_mu : g₀.mu = true) (m_streams : g₀.streams = true) (m_qm : g₀.qm = true)
    (m_seq : g₀.seq = true) (m_img : g₀.img = true) (m_rings : g₀.rings = true) (m_snap : g₀.snap = true) (m_sv : g₀.sv = true)
    (m_sec : g₀.sec = true) (m_ct : g₀.ct = true) (m_host : g₀.host = true) (m_i3c : g₀.i3c = true) (m_sounds : g₀.sounds = true)
    (m_seqNo : g₀.seqNo = true) : Same g₀ r₀ t₀ := by
  unfold execWrite at e₀
  have k : Same g₀ r₀ (arriveAll s (asOp 0x02 [0x08] f)).2 := by apply arriveAll_same <;> assumption
  rcases h : arriveAll s (asOp 0x02 [0x08] f) with ⟨l, u⟩
  rw [h] at e₀ k
  injection e₀ with e₀; subst e₀
  exact foldl_same k fun _ _ k => by apply takeWrite_same k <;> assumption

theorem execLaneRepair_same {r₀ : State} {g₀ : Groups} {die port : Nat} {s : State} {t₀}
    (e₀ : execLaneRepair die port s = .next t₀) (h3 : Same g₀ r₀ s) (m_pkg : g₀.pkg = true) : Same g₀ r₀ t₀ := by
  unfold execLaneRepair at e₀
  repeat' first | contradiction | (injection e₀ with e₀; subst e₀) | dsimp only at e₀ | (split at e₀)
  repeat' first
    | with_reducible assumption | intro _ | with_reducible apply State.onPkg_same | with_reducible apply ite_same
    | with_reducible apply foldl_same | (refine Same.ofSnd (by assumption) ?_) | dsimp only | split

theorem execBackgroundMove_same {r₀ : State} {g₀ : Groups} {f : Flit} {s : State} {t₀} (e₀ : execBackgroundMove f s = .next t₀)
    (h2 : Same g₀ r₀ s) (m_pkg : g₀.pkg = true) (m_mem : g₀.mem = true) (m_regs : g₀.regs = true) (m_gz : g₀.gz = true)
    (m_mu : g₀.mu = true) (m_sv : g₀.sv = true) (m_i3c : g₀.i3c = true) (m_sounds : g₀.sounds = true) (m_seqNo : g₀.seqNo = true)
    : Same g₀ r₀ t₀ := by
  unfold execBackgroundMove at e₀
  repeat' first | contradiction | (injection e₀ with e₀; subst e₀) | dsimp only at e₀ | (split at e₀)
  repeat' first
    | with_reducible assumption | intro _ | with_reducible apply landTc4_same | with_reducible apply ite_same
    | with_reducible apply foldl_same | (refine Same.ofSnd (by assumption) ?_) | dsimp only | split

theorem execLaneRepairExhausted_same {r₀ : State} {g₀ : Groups} {die port : Nat} {s : State} {t₀}
    (e₀ : execLaneRepairExhausted die port s = .next t₀) (h3 : Same g₀ r₀ s) (m_pkg : g₀.pkg = true) (m_gz : g₀.gz = true)
    (m_sv : g₀.sv = true) (m_i3c : g₀.i3c = true) : Same g₀ r₀ t₀ := by
  unfold execLaneRepairExhausted at e₀
  repeat' first | contradiction | (injection e₀ with e₀; subst e₀) | dsimp only at e₀ | (split at e₀)
  repeat' first
    | with_reducible assumption | intro _ | with_reducible apply legendUpdate_same | with_reducible apply setSticky_same
    | with_reducible apply setLink_same | with_reducible apply failPort_same | with_reducible apply ite_same
    | with_reducible apply foldl_same | (refine Same.ofSnd (by assumption) ?_) | dsimp only | split

theorem execRegResp_same {r₀ : State} {g₀ : Groups} {f : Flit} {s : State} {t₀} (e₀ : execRegResp f s = .next t₀)
    (h2 : Same g₀ r₀ s) (m_free : g₀.free = true) (m_pkg : g₀.pkg = true) (m_regs : g₀.regs = true) (m_gz : g₀.gz = true)
    (m_qm : g₀.qm = true) (m_sv : g₀.sv = true) (m_i3c : g₀.i3c = true) (m_sounds : g₀.sounds = true) (m_seqNo : g₀.seqNo = true)
    : Same g₀ r₀ t₀ := by
  unfold execRegResp at e₀
  repeat' first | contradiction | (injection e₀ with e₀; subst e₀) | dsimp only at e₀ | (split at e₀)
  repeat' first
    | with_reducible assumption | intro _ | with_reducible apply arrive_same | with_reducible apply takeRegResp_same
    | with_reducible apply ite_same | with_reducible apply ite_same_snd | with_reducible apply foldl_same
    | with_reducible apply foldl_same_snd | (refine Same.ofSnd (by assumption) ?_) | dsimp only | split

theorem execReadResp_same {r₀ : State} {g₀ : Groups} {f : Flit} {s : State} {t₀} (e₀ : execReadResp f s = .next t₀)
    (h2 : Same g₀ r₀ s) (m_free : g₀.free = true) (m_pkg : g₀.pkg = true) (m_mem : g₀.mem = true) (m_regs : g₀.regs = true)
    (m_gz : g₀.gz = true) (m_mu : g₀.mu = true) (m_qm : g₀.qm = true) (m_rings : g₀.rings = true) (m_sv : g₀.sv = true)
    (m_i3c : g₀.i3c = true) (m_sounds : g₀.sounds = true) (m_seqNo : g₀.seqNo = true) : Same g₀ r₀ t₀ := by
  unfold execReadResp at e₀
  repeat' first | contradiction | (injection e₀ with e₀; subst e₀) | dsimp only at e₀ | (split at e₀)
  repeat' first
    | with_reducible assumption | intro _ | with_reducible apply arrive_same | with_reducible apply takeResp_same
    | with_reducible apply ite_same | with_reducible apply ite_same_snd | with_reducible apply foldl_same
    | with_reducible apply foldl_same_snd | (refine Same.ofSnd (by assumption) ?_) | dsimp only | split

end Sys2Proof.Machine
end

