-- ==== Sys2Proof/Laws/Messages.lean ====
section
/-!
SUPPORT. What the shared operations of Gauze messages and links do.
-/

namespace Sys2Proof.Machine

open Sys2Proof

/-- Data answered in flits of up to 192 bytes: what is sent, and that nothing else changes. -/
theorem respond_flits (f : Flit) (p : Nat) (bs : List Byte) (l : List Nat) : ∀ s : State,
    (l.foldl (fun s i => respond s f p (f.da + 192 * i) 0 ((bs.drop (192 * i)).take 192)) s).gz.flits = s.gz.flits ++ l.map fun i =>
      { op := 0x04, tc := 1, dst := f.src, src := f.dst, panel := p, tag := f.tag, da := f.da + 192 * i,
        plen := ((bs.drop (192 * i)).take 192).length, payload := (bs.drop (192 * i)).take 192 } := by
  induction l with
  | nil => intro s; simp
  | cons a l ih => intro s; rw [List.foldl_cons, ih]; simp [respond, sendFlit]
theorem respond_mem (f : Flit) (p : Nat) (bs : List Byte) (l : List Nat) : ∀ s : State,
    (l.foldl (fun s i => respond s f p (f.da + 192 * i) 0 ((bs.drop (192 * i)).take 192)) s).mem = s.mem := by
  induction l with
  | nil => exact fun s => rfl
  | cons a l ih => exact fun s => ih _
/-- What the arrival of a message may change. -/
theorem arrive_frame {s a : State} {f g : Flit} (h : arrive s f = (some g, a)) :
    Same { pkg := true, regs := true, gz := true, sv := true, i3c := true, sounds := true, seqNo := true } s a := by
  have := arrive_same (g₀ := { pkg := true, regs := true, gz := true, sv := true, i3c := true, sounds := true, seqNo := true }) (f := f) (Same.refl _ s) rfl rfl rfl rfl rfl rfl rfl
  rw [h] at this; exact this
theorem arriveAll_frame {s a : State} {f : Flit} {l : List Flit} (h : arriveAll s f = (l, a)) :
    Same { pkg := true, regs := true, gz := true, sv := true, i3c := true, sounds := true, seqNo := true } s a := by
  have := arriveAll_same (g₀ := { pkg := true, regs := true, gz := true, sv := true, i3c := true, sounds := true, seqNo := true }) (f := f) (Same.refl _ s) rfl rfl rfl rfl rfl rfl rfl
  rw [h] at this; exact this
theorem late_is (s : State) (d g : Nat) : (lateAnswer s d g).gz.quarantined = s.gz.quarantined.filter (· != d * 65536 + g) ∧ (lateAnswer s d g).regs = (bump s d 0x1048).regs := by
  unfold lateAnswer
  refine ⟨?_, bump_regs_congr rfl⟩
  rw [(bump_frame ..).gz rfl]; rfl
theorem land_is {s a : State} (f : Flit) (A : Same { pkg := true, regs := true, gz := true, sv := true, i3c := true, sounds := true, seqNo := true } s a) :
    if memPlace a f.dst f.da f.payload.length = .mem then MemOk s → f.payload ≠ [] → f.da < farBase → Stored s (landBackground a f) f.da f.payload else landBackground a f = a := by
  unfold landBackground
  split
  · rename_i h; rw [h]; dsimp only
    intro m p l
    have e : a.mem = s.mem := A.mem rfl
    have := stored_writeMem (s := a) (by unfold MemOk at *; rw [e]; exact m) p l
    exact ⟨fun x => by rw [this.bytes x, e], by rw [this.posted, e]⟩
  · rename_i h
    split
    · rename_i h'; exact absurd h' h
    · rfl
theorem answered_one {s a : State} {w : Waiting} {key st : Nat} {l : Bool} (q : a.qm = s.qm) (h : s.qm.waiting = [w]) (ht : w.tags = [key]) :
    ∃ e, e < 2 ^ 32 ∧ (answered a key st l).qm.cpls = s.qm.cpls ++
      [completionOf w.hdr w.unit { w with status := mergeStatus (fenceWaiting s w) w.status st, late := w.late || l }.final e] := by
  unfold answered
  rw [q, h]
  have : List.filter (fun w => w.tags.contains key) [w] = [w] := by simp [ht]
  rw [this]
  simp only [List.foldl_cons, List.foldl_nil]
  unfold takeAnswer
  dsimp only
  rw [ht]
  simp only [List.erase_cons_head, List.isEmpty_nil, if_true]
  have fw : fenceWaiting a w = fenceWaiting s w := by unfold fenceWaiting findDisp; rw [q]
  obtain ⟨e, h1, h2⟩ := (ends_complete (s := a) (r := s) w.hdr w.unit ({ hdr := w.hdr, unit := w.unit, tags := [], status := mergeStatus (fenceWaiting a w) w.status st, late := w.late || l : Waiting }.final) q).issued
  refine ⟨e, h1, h2.trans ?_⟩
  rw [fw]; rfl
theorem answered_gz (s : State) (k st : Nat) (l : Bool) : (answered s k st l).gz = s.gz ∧ (answered s k st l).mem = s.mem := by
  have A := answered_same (g₀ := { free := true, qm := true }) (key := k) (st := st) (late := l) (Same.refl _ s) rfl rfl
  exact ⟨A.gz rfl, A.mem rfl⟩
/-- Flits discarded for a port leave everything but what is in flight. -/
theorem discardHeld_frame (s : State) (d p : Nat) : Same { gz := true } s (discardHeld s d p) := discardHeld_same (Same.refl _ s) rfl
theorem legend_port (s : State) : (legendUpdate s).pkg.portState = s.pkg.portState := by unfold legendUpdate; split <;> rfl
theorem legend_frame (s : State) : Same { pkg := true } s (legendUpdate s) := legendUpdate_same (Same.refl _ s) rfl
/-- The port that a link's state is set at, and the other ports that the link does not end at. -/
theorem setLink_port (s : State) (d p st : Nat) : portState (setLink s d p st) d p = st := by
  have h : ∀ (m : FMap Nat) (k j : Nat), look0 (put (put m k st) j st) k = st := by
    intro m k j
    by_cases e : k = j
    · subst e; simp [look0]
    · rw [look0, lookD_put_ne _ _ _ _ _ e]; exact lookD_put_self ..
  unfold setLink portState
  dsimp only
  split
  · split
    · exact h _ _ _
    · exact lookD_put_self ..
  · exact lookD_put_self ..

/-- The other end of the link enters the state too. -/
theorem setLink_peer {s : State} {d p st e q : Nat} (h1 : linkPeer d p = some e) (h2 : portTo e d = some q) : portState (setLink s d p st) e q = st := by
  unfold setLink portState
  rw [h1]; dsimp only; rw [h2]
  exact lookD_put_self ..
/-- A link that fails: both ends FAILED in their states, the LINK source raised, and the flits held for it gone (R33). -/
theorem failPort_is (s : State) (d p : Nat) : portState (failPort s d p) d p = 5 ∧ srcLink d ∈ (failPort s d p).sv.sticky ∧
    (failPort s d p).regs = s.regs ∧ (failPort s d p).gz.replays = s.gz.replays ∧
    ∀ e q, linkPeer d p = some e → portTo e d = some q → portState (failPort s d p) e q = 5 := by
  have hD : ∀ x : State, Same { gz := true } x (match linkPeer d p with
      | some e => (match portTo e d with | some q => discardHeld x e q | none => x)
      | none => x) := by
    intro x; split
    · split
      · exact discardHeld_frame ..
      · exact Same.refl _ _
    · exact Same.refl _ _
  unfold failPort
  extract_lets A B C
  have D1 : Same { gz := true } A C := Same.trans (discardHeld_frame A d p) (hD B)
  have A1 : Same { pkg := true } s A := setLink_same (Same.refl _ s) rfl
  have hR : ∀ x : State, (match linkPeer d p with
      | some e => (match portTo e d with | some q => discardHeld x e q | none => x)
      | none => x).gz.replays = x.gz.replays := by
    intro x; split
    · split <;> rfl
    · rfl
  refine ⟨?_, setSticky_mem .., ?_, ?_, fun e q h1 h2 => ?_⟩
  · unfold portState; rw [(sticky_frame ..).pkg rfl, legend_port, D1.pkg rfl]; exact setLink_port ..
  rotate_left
  · rw [(sticky_frame ..).gz rfl, (legend_frame ..).gz rfl]
    exact ((hR B).trans (show B.gz.replays = A.gz.replays from rfl)).trans (congrArg Gauze.replays (A1.gz rfl))
  · unfold portState; rw [(sticky_frame ..).pkg rfl, legend_port, D1.pkg rfl]; exact setLink_peer h1 h2
  · rw [(sticky_frame ..).regs rfl, (legend_frame ..).regs rfl, D1.regs rfl, A1.regs rfl]

end Sys2Proof.Machine
end

