-- ==== Sys2Proof/Laws/Mgmt.lean ====
section
/-!
SUPPORT. What the shared operations of the I3C target do.
-/

namespace Sys2Proof.Machine

open Sys2Proof

theorem i3_same (s : State) (f : I3c → I3c) : Same { i3c := true } s (s.onI3c f) := State.onI3c_same (Same.refl _ s) rfl

end Sys2Proof.Machine
end

