-- ==== Sys2Proof/Laws/Optimizer.lean ====
section
/-!
SUPPORT. What the shared operations of the optimizer do.
-/

namespace Sys2Proof.Machine

open Sys2Proof

structure MU (a b : State) : Prop where
  u : b.mu.unreleased = a.mu.unreleased
  c : b.mu.closedStep = a.mu.closedStep
  e : b.mu.entries = a.mu.entries
  d : b.mu.dense = a.mu.dense
theorem MU.refl (a : State) : MU a a := ⟨rfl, rfl, rfl, rfl⟩
theorem MU.trans {a b c : State} (x : MU a b) (y : MU b c) : MU a c := ⟨y.u.trans x.u, y.c.trans x.c, y.e.trans x.e, y.d.trans x.d⟩
theorem MU.of {a b : State} (h : b.mu = a.mu) : MU a b := ⟨by rw [h], by rw [h], by rw [h], by rw [h]⟩
theorem MU.ite {c : Prop} [Decidable c] {s a b : State} (h : MU s a) (k : MU s b) : MU s (if c then a else b) := by split; exact h; exact k
theorem MU.foldl {α : Type} {f : State → α → State} (hf : ∀ s a, MU s (f s a)) (l : List α) : ∀ s, MU s (l.foldl f s) := by
  induction l with
  | nil => exact MU.refl
  | cons a l ih => exact fun s => (hf s a).trans (ih _)
theorem mu_bump (s : State) (d o sel : Nat) : MU s (bump s d o sel) := MU.of ((bumpBy_frame ..).mu rfl)
theorem mu_writeMem (s : State) (a : Nat) (bs : List Byte) : MU s (writeMem s a bs) := by
  unfold writeMem
  split
  · exact MU.refl s
  · split
    · exact MU.of ((postFar_same (g₀ := { mem := true, regs := true, sv := true, i3c := true, sounds := true, seqNo := true }) (Same.refl _ s) rfl rfl rfl rfl rfl rfl).mu rfl)
    · exact ⟨by rw [storeMem_mu], by rw [storeMem_mu], by rw [storeMem_mu], by rw [storeMem_mu]⟩
theorem mu_copyMem (s : State) (a b n : Nat) : MU s (copyMem s a b n) := by
  unfold copyMem; dsimp only
  split
  · exact (mu_writeMem ..).trans (MU.of ((poisonSectors_same (g₀ := { mem := true }) (Same.refl _ _) rfl).mu rfl))
  · exact mu_writeMem ..
theorem MU.ofDir {a b : State} (h : DirOnly a b) : MU a b := ⟨by rw [h], by rw [h], by rw [h], by rw [h]⟩
theorem mu_storeDir (s : State) (k t row : Nat) (e : DirEntry) : MU s (storeDir s k t row e) := MU.ofDir (storeDir_only ..)
theorem mu_startMove (s : State) (k t row a : Nat) (w : Option Hdr) (p : Bool) : MU s (startMove s k t row a w p) := by
  unfold startMove; split
  · exact MU.refl s
  · exact ⟨rfl, rfl, rfl, rfl⟩
theorem mu_pageSlot (s : State) (k n : Nat) : MU s (pageSlot s k n).2 := by
  unfold pageSlot
  split
  · exact MU.refl s
  · split
    · exact MU.refl s
    · split
      · exact MU.refl s
      · dsimp only
        split
        · exact ((mu_copyMem ..).trans (mu_bump ..)).trans (mu_storeDir ..)
        · exact MU.refl s
theorem mu_pageInRows (s : State) (k : Nat) : MU s (pageInRows s k) := by
  unfold pageInRows
  refine MU.foldl (fun s x => ?_) _ _
  dsimp only
  have := mu_pageSlot s k (entryRb s x.1)
  generalize pageSlot s k (entryRb s x.1) = y at *
  obtain ⟨o, z⟩ := y
  cases o with
  | none => exact this
  | some a => exact this.trans (mu_startMove ..)
theorem mu_selectRow (k n : Nat) (s : State) (x : Heavy) : MU s (selectRow k n s x) := by
  unfold selectRow
  split
  · exact MU.refl s
  · rename_i tr _
    extract_lets p cap
    refine MU.ite (MU.refl s) ?_
    rcases autoTarget s k p (rowBytes tr) with _ | _ | a
    · exact MU.refl s
    · exact mu_bump ..
    · refine MU.ite (mu_bump ..) ?_
      exact (mu_startMove s k x.table x.row a none false).trans ⟨rfl, rfl, rfl, rfl⟩
theorem mu_selectRows (s : State) (k n : Nat) : MU s (selectRows s k n) := by
  unfold selectRows
  split
  · exact MU.refl s
  · extract_lets l
    refine MU.trans (MU.foldl (mu_selectRow k n) (topRows l.length l) s) ?_
    unfold coolRows
    refine MU.foldl (fun s x => ?_) _ _
    dsimp only
    split
    · exact MU.ite (mu_startMove ..) (MU.refl _)
    · exact MU.refl _
/-- The state in which MU_OPT_DENSE has done its work, and the run that led there. -/
def denseEnd (s : State) (o : OptDenseOp) (p : Params) : DenseRun × State :=
  let c := (checkRead s o.stateDa 32).2
  let x := normAnchor c (ofLe (readBytes c.mem o.stateDa 8))
  let g := denseRun x.2 o p x.1 (denseSteps o)
  (g, journalDense (if g.lost then g.st else writeState g.st o x.1 g) o g)
/-- MU_OPT_DENSE past its checks: a lost state record completes it with ECC, a lost sector of a block ends it there, else it is DONE. -/
theorem runDense_is (s : State) (h : Hdr) (o : OptDenseOp) (p : Params) (sy : h.system = false) :
    runDense s h o p = if (checkRead s o.stateDa 32).1 then complete (checkRead s o.stateDa 32).2 h (optUnit o.muslin) stEcc
      else complete (denseEnd s o p).2 h (optUnit o.muslin) (if (denseEnd s o p).1.lost then stEcc else stDone) := by
  unfold runDense
  dsimp only
  split
  · rfl
  · rw [finish_local _ _ sy]; rfl

end Sys2Proof.Machine
end

