-- ==== Sys2Proof/Laws/SamePower.lean ====
section
/-!
SUPPORT. What the definitions of Machine/Power.lean may change (Laws/Same.lean).
-/

set_option linter.all false

namespace Sys2Proof.Machine

open Sys2Proof

theorem execThrottleStep_same {r₀ : State} {g₀ : Groups} {die : Nat} {s : State} {t₀} (e₀ : execThrottleStep die s = .next t₀)
    (h2 : Same g₀ r₀ s) (m_regs : g₀.regs = true) (m_sv : g₀.sv = true) (m_sounds : g₀.sounds = true) (m_seqNo : g₀.seqNo = true)
    : Same g₀ r₀ t₀ := by
  unfold execThrottleStep at e₀
  repeat' first | contradiction | (injection e₀ with e₀; subst e₀) | dsimp only at e₀ | (split at e₀)
  repeat' first
    | with_reducible assumption | intro _ | with_reducible apply bump_same | with_reducible apply State.onSv_same
    | with_reducible apply ite_same | with_reducible apply foldl_same | (refine Same.ofSnd (by assumption) ?_) | dsimp only
    | split

theorem setBallast_same {r₀ : State} {g₀ : Groups} {s : State} {steps : Nat} (h1 : Same g₀ r₀ s) (m_free : g₀.free = true)
    (m_regs : g₀.regs = true) (m_tw : g₀.tw = true) (m_sounds : g₀.sounds = true) (m_seqNo : g₀.seqNo = true)
    : Same g₀ r₀ (setBallast s steps) := by
  unfold setBallast
  repeat' first
    | with_reducible assumption | intro _ | with_reducible apply State.took_same | with_reducible apply setCore_same
    | with_reducible apply bumpCore_same | with_reducible apply ite_same | with_reducible apply foldl_same
    | (refine Same.ofSnd (by assumption) ?_) | dsimp only | split

theorem contourOff_same {r₀ : State} {g₀ : Groups} {s : State} (h1 : Same g₀ r₀ s) (m_free : g₀.free = true)
    (m_regs : g₀.regs = true) (m_tw : g₀.tw = true) (m_ct : g₀.ct = true) (m_sounds : g₀.sounds = true)
    (m_seqNo : g₀.seqNo = true) : Same g₀ r₀ (contourOff s) := by
  unfold contourOff
  repeat' first
    | with_reducible assumption | intro _ | with_reducible apply setBallast_same | with_reducible apply State.onCt_same
    | with_reducible apply ite_same | with_reducible apply foldl_same | (refine Same.ofSnd (by assumption) ?_) | dsimp only
    | split

theorem execContourInterval_same {r₀ : State} {g₀ : Groups} {s : State} {t₀} (e₀ : execContourInterval s = .next t₀)
    (h1 : Same g₀ r₀ s) (m_free : g₀.free = true) (m_regs : g₀.regs = true) (m_tw : g₀.tw = true) (m_ct : g₀.ct = true)
    (m_sounds : g₀.sounds = true) (m_seqNo : g₀.seqNo = true) : Same g₀ r₀ t₀ := by
  unfold execContourInterval at e₀
  repeat' first | contradiction | (injection e₀ with e₀; subst e₀) | dsimp only at e₀ | (split at e₀)
  repeat' first
    | with_reducible assumption | intro _ | with_reducible apply setBallast_same | with_reducible apply contourOff_same
    | with_reducible apply State.onCt_same | with_reducible apply State.took_same | with_reducible apply ite_same
    | with_reducible apply foldl_same | (refine Same.ofSnd (by assumption) ?_) | dsimp only | split

theorem unthrottle_same {r₀ : State} {g₀ : Groups} {s : State} {d : Nat} (h1 : Same g₀ r₀ s) (m_sv : g₀.sv = true)
    : Same g₀ r₀ (unthrottle s d) := by
  unfold unthrottle
  repeat' first
    | with_reducible assumption | intro _ | with_reducible apply State.onSv_same | with_reducible apply ite_same
    | with_reducible apply foldl_same | (refine Same.ofSnd (by assumption) ?_) | dsimp only | split

theorem throttle_same {r₀ : State} {g₀ : Groups} {s : State} {d : Nat} (h1 : Same g₀ r₀ s) (m_tw : g₀.tw = true)
    (m_sv : g₀.sv = true) (m_i3c : g₀.i3c = true) : Same g₀ r₀ (throttle s d) := by
  unfold throttle
  repeat' first
    | with_reducible assumption | intro _ | with_reducible apply raiseIbi_same | with_reducible apply setCore_same
    | with_reducible apply State.onSv_same | with_reducible apply ite_same | with_reducible apply foldl_same
    | (refine Same.ofSnd (by assumption) ?_) | dsimp only | split

theorem execThermalReport_same {r₀ : State} {g₀ : Groups} {die quarters : Nat} {s : State} {t₀}
    (e₀ : execThermalReport die quarters s = .next t₀) (h3 : Same g₀ r₀ s) (m_tw : g₀.tw = true) (m_sv : g₀.sv = true)
    (m_i3c : g₀.i3c = true) (m_sounds : g₀.sounds = true) (m_seqNo : g₀.seqNo = true) : Same g₀ r₀ t₀ := by
  unfold execThermalReport at e₀
  repeat' first | contradiction | (injection e₀ with e₀; subst e₀) | dsimp only at e₀ | (split at e₀)
  repeat' first
    | with_reducible assumption | intro _ | with_reducible apply unthrottle_same | with_reducible apply emitSounding_same
    | with_reducible apply State.onSv_same | with_reducible apply throttle_same | with_reducible apply ite_same
    | with_reducible apply foldl_same | (refine Same.ofSnd (by assumption) ?_) | dsimp only | split

theorem execEmergency_same {r₀ : State} {g₀ : Groups} {s : State} {t₀} (e₀ : execEmergency s = .next t₀) (h1 : Same g₀ r₀ s)
    (m_sv : g₀.sv = true) (m_i3c : g₀.i3c = true) : Same g₀ r₀ t₀ := by
  unfold execEmergency at e₀
  repeat' first | contradiction | (injection e₀ with e₀; subst e₀) | dsimp only at e₀ | (split at e₀)
  repeat' first
    | with_reducible assumption | intro _ | with_reducible apply setSticky_same | with_reducible apply State.onSv_same
    | with_reducible apply ite_same | with_reducible apply foldl_same | (refine Same.ofSnd (by assumption) ?_) | dsimp only
    | split

theorem execEmergencyLift_same {r₀ : State} {g₀ : Groups} {s : State} {t₀} (e₀ : execEmergencyLift s = .next t₀)
    (h1 : Same g₀ r₀ s) (m_sv : g₀.sv = true) : Same g₀ r₀ t₀ := by
  unfold execEmergencyLift at e₀
  repeat' first | contradiction | (injection e₀ with e₀; subst e₀) | dsimp only at e₀ | (split at e₀)
  repeat' first
    | with_reducible assumption | intro _ | with_reducible apply State.onSv_same | with_reducible apply ite_same
    | with_reducible apply foldl_same | (refine Same.ofSnd (by assumption) ?_) | dsimp only | split

theorem execThermalDutyRise_same {r₀ : State} {g₀ : Groups} {die : Nat} {s : State} {t₀}
    (e₀ : execThermalDutyRise die s = .next t₀) (h2 : Same g₀ r₀ s) (m_sv : g₀.sv = true) : Same g₀ r₀ t₀ := by
  unfold execThermalDutyRise at e₀
  repeat' first | contradiction | (injection e₀ with e₀; subst e₀) | dsimp only at e₀ | (split at e₀)
  repeat' first
    | with_reducible assumption | intro _ | with_reducible apply unthrottle_same | with_reducible apply State.onSv_same
    | with_reducible apply ite_same | with_reducible apply foldl_same | (refine Same.ofSnd (by assumption) ?_) | dsimp only
    | split

theorem setHoldup_same {r₀ : State} {g₀ : Groups} {s : State} {ok : Bool} (h1 : Same g₀ r₀ s) (m_sv : g₀.sv = true)
    (m_sec : g₀.sec = true) : Same g₀ r₀ (setHoldup s ok) := by
  unfold setHoldup
  repeat' first
    | with_reducible assumption | intro _ | with_reducible apply State.onSec_same | with_reducible apply State.onSv_same
    | with_reducible apply ite_same | with_reducible apply foldl_same | (refine Same.ofSnd (by assumption) ?_) | dsimp only
    | split

theorem execContourWindow_same {r₀ : State} {g₀ : Groups} {s : State} {t₀} (e₀ : execContourWindow s = .next t₀)
    (h1 : Same g₀ r₀ s) (m_regs : g₀.regs = true) (m_ct : g₀.ct = true) (m_sounds : g₀.sounds = true) (m_seqNo : g₀.seqNo = true)
    : Same g₀ r₀ t₀ := by
  unfold execContourWindow at e₀
  repeat' first | contradiction | (injection e₀ with e₀; subst e₀) | dsimp only at e₀ | (split at e₀)
  repeat' first
    | with_reducible assumption | intro _ | with_reducible apply bump_same | with_reducible apply State.onCt_same
    | with_reducible apply ite_same | with_reducible apply foldl_same | (refine Same.ofSnd (by assumption) ?_) | dsimp only
    | split

theorem execContourSounding_same {r₀ : State} {g₀ : Groups} {s : State} {t₀} (e₀ : execContourSounding s = .next t₀)
    (h1 : Same g₀ r₀ s) (m_ct : g₀.ct = true) (m_sounds : g₀.sounds = true) (m_seqNo : g₀.seqNo = true) : Same g₀ r₀ t₀ := by
  unfold execContourSounding at e₀
  repeat' first | contradiction | (injection e₀ with e₀; subst e₀) | dsimp only at e₀ | (split at e₀)
  repeat' first
    | with_reducible assumption | intro _ | with_reducible apply emitSounding_same | with_reducible apply State.onCt_same
    | with_reducible apply ite_same | with_reducible apply foldl_same | (refine Same.ofSnd (by assumption) ?_) | dsimp only
    | split

theorem execHoldupMeasure_same {r₀ : State} {g₀ : Groups} {energyMj : Nat} {enough : Bool} {s : State} {t₀}
    (e₀ : execHoldupMeasure energyMj enough s = .next t₀) (h3 : Same g₀ r₀ s) (m_sv : g₀.sv = true) (m_sec : g₀.sec = true)
    : Same g₀ r₀ t₀ := by
  unfold execHoldupMeasure at e₀
  repeat' first | contradiction | (injection e₀ with e₀; subst e₀) | dsimp only at e₀ | (split at e₀)
  repeat' first
    | with_reducible assumption | intro _ | with_reducible apply State.onSv_same | with_reducible apply setHoldup_same
    | with_reducible apply ite_same | with_reducible apply foldl_same | (refine Same.ofSnd (by assumption) ?_) | dsimp only
    | split

theorem execHoldupTest_same {r₀ : State} {g₀ : Groups} {pass : Bool} {s : State} {t₀} (e₀ : execHoldupTest pass s = .next t₀)
    (h2 : Same g₀ r₀ s) (m_sv : g₀.sv = true) (m_sec : g₀.sec = true) (m_i3c : g₀.i3c = true) : Same g₀ r₀ t₀ := by
  unfold execHoldupTest at e₀
  repeat' first | contradiction | (injection e₀ with e₀; subst e₀) | dsimp only at e₀ | (split at e₀)
  repeat' first
    | with_reducible assumption | intro _ | with_reducible apply setSticky_same | with_reducible apply State.onSv_same
    | with_reducible apply setHoldup_same | with_reducible apply ite_same | with_reducible apply foldl_same
    | (refine Same.ofSnd (by assumption) ?_) | dsimp only | split

theorem execPowerReport_same {r₀ : State} {g₀ : Groups} {reports : List Nat} {s : State} {t₀}
    (e₀ : execPowerReport reports s = .next t₀) (h2 : Same g₀ r₀ s) (m_sv : g₀.sv = true) (m_ct : g₀.ct = true)
    : Same g₀ r₀ t₀ := by
  unfold execPowerReport at e₀
  repeat' first | contradiction | (injection e₀ with e₀; subst e₀) | dsimp only at e₀ | (split at e₀)
  repeat' first
    | with_reducible assumption | intro _ | with_reducible apply State.onCt_same | with_reducible apply State.onSv_same
    | with_reducible apply ite_same | with_reducible apply foldl_same | (refine Same.ofSnd (by assumption) ?_) | dsimp only
    | split

end Sys2Proof.Machine
end

