-- ==== Sys2Proof/Laws/Power.lean ====
section
/-!
SUPPORT. What the shared operations of power and thermal management do.
-/

namespace Sys2Proof.Machine

open Sys2Proof

theorem coreOf_tw {a b : State} (h : a.tw = b.tw) (g : Nat) : coreOf a g = coreOf b g := by unfold coreOf; rw [h]
theorem zero_fold (m : List (Nat × Core)) : ∀ s : State, let z := m.foldl (fun s c => setCore s c.1 fun x => { x with ballast := 0 }) s
    ∀ g, (g ∈ m.map Prod.fst ∨ (coreOf s g).ballast = 0 → (coreOf z g).ballast = 0) ∧ (g ∉ m.map Prod.fst → coreOf z g = coreOf s g) := by
  induction m with
  | nil => exact fun s g => ⟨fun h => h.resolve_left (by simp), fun _ => rfl⟩
  | cons a m ih =>
    intro s z g
    obtain ⟨h0, h1⟩ := ih (setCore s a.1 fun x => { x with ballast := 0 }) g
    refine ⟨fun h => h0 ?_, fun h => ?_⟩
    · by_cases e : g = a.1
      · subst e; right; rw [setCore_at]
      · rw [setCore_ne _ _ _ _ e]; exact h.imp (fun h => by simpa [e] using h) id
    · have h' : g ≠ a.1 ∧ g ∉ m.map Prod.fst := by simpa using h
      exact (h1 h'.2).trans (setCore_ne _ _ _ _ h'.1)
theorem level_fold (lv : Nat → Nat) (f : State → Nat × Nat → State)
    (hf : ∀ s q, (coreOf (f s q) q.2).ballast = lv q.1 ∧ ∀ g, g ≠ q.2 → coreOf (f s q) g = coreOf s g)
    (m : List (Nat × Nat)) : ∀ s : State, (m.map Prod.snd).Nodup →
    (∀ q ∈ m, (coreOf (m.foldl f s) q.2).ballast = lv q.1) ∧ ∀ g, g ∉ m.map Prod.snd → coreOf (m.foldl f s) g = coreOf s g := by
  induction m with
  | nil => exact fun s _ => ⟨fun q h => absurd h (by simp), fun _ _ => rfl⟩
  | cons a m ih =>
    intro s nd
    rw [List.map_cons, List.nodup_cons] at nd
    obtain ⟨h0, h1⟩ := ih (f s a) nd.2
    refine ⟨fun q h => ?_, fun g h => ?_⟩
    · rcases List.mem_cons.1 h with h | h
      · subst h; rw [List.foldl_cons, h1 _ nd.1]; exact (hf s q).1
      · exact h0 q h
    · have h' : g ≠ a.2 ∧ g ∉ m.map Prod.snd := by simpa using h
      exact (h1 g h'.2).trans ((hf s a).2 g h'.1)
theorem ballast_is (s : State) (steps : Nat) : ∀ g, (coreOf (setBallast s steps) g).ballast = ballastOf (ballastCores s) steps g := by
  intro g
  have nd : (ballastCores s).Nodup := by unfold ballastCores; exact List.nodup_range.sublist List.filter_sublist
  unfold setBallast
  generalize ballastCores s = l at nd
  dsimp only
  have Z := zero_fold (s.tw.cores.filter fun c => c.2.ballast != 0 && !l.contains c.1) s
  dsimp only at Z
  generalize List.foldl _ s _ = z at Z ⊢
  have zs : ((List.range l.length).zip l).map Prod.snd = l := by rw [List.map_snd_zip]; simp
  have L := level_fold (fun i => steps / max 1 l.length + b2n (decide (i < steps % max 1 l.length))) (fun s q =>
    let lv := steps / max 1 l.length + b2n (q.1 < steps % max 1 l.length)
    if (lv = 0 && (coreOf s q.2).ballast = 0) = true then s
    else
      let s := if lv = 0 then s else bumpCore s.took q.2 0x30 (fresh s % 2 ^ 16)
      setCore s q.2 fun x => { x with ballast := lv }) (by
    intro s q
    dsimp only
    generalize steps / max 1 l.length + _ = lv
    split
    · rename_i h; simp only [Bool.and_eq_true, decide_eq_true_eq] at h
      exact ⟨by rw [h.1, h.2], fun _ _ => rfl⟩
    · generalize fresh s % 2 ^ 16 = v
      refine ⟨by rw [setCore_at], fun g h => ?_⟩
      rw [setCore_ne _ _ _ _ h]
      split
      · rfl
      · exact coreOf_tw ((bumpCore_same (g₀ := { regs := true, sounds := true, seqNo := true }) (Same.refl _ s.took) rfl rfl rfl).tw rfl) g) ((List.range l.length).zip l) z (by rw [zs]; exact nd)
  rw [zs] at L
  unfold ballastOf
  by_cases h : g ∈ l
  · rw [if_pos (by simpa using h)]
    have p : 1 ≤ l.length := List.length_pos_of_mem h
    have k := L.1 (l.idxOf g, g) (by
      refine List.mem_iff_getElem.2 ⟨l.idxOf g, by simp [List.idxOf_lt_length_iff.2 h], ?_⟩
      simp)
    rw [Nat.max_eq_right p] at k
    rw [Nat.max_eq_right p]
    exact k
  · rw [if_neg (by simpa using h)]
    have k := L.2 g h
    refine (congrArg Core.ballast k).trans ?_
    refine (Z g).1 ?_
    by_cases e : (coreOf s g).ballast = 0
    · exact Or.inr e
    · left
      unfold coreOf lookD at e
      cases q : look s.tw.cores g with
      | none => rw [q] at e; exact absurd rfl e
      | some v =>
        rw [q] at e
        exact List.mem_map.2 ⟨(g, v), List.mem_filter.2 ⟨look_mem _ _ _ q, by simpa [h] using e⟩, rfl⟩
theorem ballastOf_zero (l : List Nat) (g : Nat) : ballastOf l 0 g = 0 := by unfold ballastOf; split <;> simp [b2n]
theorem ct_set (s : State) (n : Nat) : (setBallast s n).ct = s.ct := (setBallast_same (g₀ := { free := true, regs := true, tw := true, sounds := true, seqNo := true }) (Same.refl _ s) rfl rfl rfl rfl rfl).ct rfl
theorem stop_fold (k : Nat) (l : List Nat) : ∀ s : State, let z := l.foldl (fun s c => if (coreOf s (k + c)).ballast = 0 then s else setCore s (k + c) fun x => { x with ballast := 0 }) s
    z.sv = s.sv ∧ ∀ g, ((∃ c ∈ l, g = k + c) ∨ (coreOf s g).ballast = 0) → (coreOf z g).ballast = 0 := by
  induction l with
  | nil => exact fun s => ⟨rfl, fun g h => h.resolve_left (by simp)⟩
  | cons a l ih =>
    intro s z
    obtain ⟨h0, h1⟩ := ih (if (coreOf s (k + a)).ballast = 0 then s else setCore s (k + a) fun x => { x with ballast := 0 })
    refine ⟨h0.trans (by split <;> rfl), fun g h => h1 g ?_⟩
    rcases h with ⟨c, hc, e⟩ | h
    · rcases List.mem_cons.1 hc with hc | hc
      · subst hc; right; subst e; split
        · assumption
        · rw [setCore_at]
      · exact Or.inl ⟨c, hc, e⟩
    · right; split
      · exact h
      · by_cases e : g = k + a
        · subst e; rw [setCore_at]
        · rw [setCore_ne _ _ _ _ e]; exact h
theorem throttle_is (s : State) (d : Nat) : Same { tw := true, sv := true, i3c := true } s (throttle s d) ∧
    (throttle s d).sv = { s.sv with throttled := ins s.sv.throttled d } ∧ ∀ g < 64, coreDie g = d → (coreOf (throttle s d) g).ballast = 0 := by
  refine ⟨throttle_same (Same.refl _ s) rfl rfl rfl, ?_⟩
  unfold throttle
  dsimp only
  generalize hz : (if thermNHigh s.sv = true then raiseIbi _ 2 else _ : State) = z
  have zs : z.sv = { s.sv with throttled := ins s.sv.throttled d } := by
    rw [← hz]; split
    · exact (raiseIbi_same (g₀ := { i3c := true }) (Same.refl _ _) rfl).sv rfl
    · rfl
  constructor
  · split
    · rw [(stop_fold ..).1, zs]
    · exact zs
  · intro g hg e
    unfold coreDie at e
    rw [if_pos (by unfold isTw; simp; omega)]
    refine (stop_fold ..).2 g (Or.inl ⟨g % 4, by simp; omega, by omega⟩)
theorem unthrottle_sv (s : State) (d : Nat) : (unthrottle s d).sv = { s.sv with throttled := if thermDuty s d = 16 ∧ temp s d < 4 * (s.sv.tThrottle - 3) then s.sv.throttled.erase d else s.sv.throttled } := by
  unfold unthrottle
  by_cases h : thermDuty s d = 16 ∧ temp s d < 4 * (s.sv.tThrottle - 3)
  · rw [if_pos h, if_pos (by simpa using h)]; rfl
  · rw [if_neg h, if_neg (by simpa using h)]

end Sys2Proof.Machine
end

