-- ==== Sys2Proof/Laws/SameUpkeep.lean ====
section
/-!
SUPPORT. What the definitions of Machine/Upkeep.lean may change (Laws/Same.lean).
-/

set_option linter.all false

namespace Sys2Proof.Machine

open Sys2Proof

theorem execRefresh_same {r₀ : State} {g₀ : Groups} {stack bank : Nat} {s : State} {t₀} (e₀ : execRefresh stack bank s = .next t₀)
    (h3 : Same g₀ r₀ s) (m_free : g₀.free = true) (m_mu : g₀.mu = true) : Same g₀ r₀ t₀ := by
  unfold execRefresh at e₀
  repeat' first | contradiction | (injection e₀ with e₀; subst e₀) | dsimp only at e₀ | (split at e₀)
  repeat' first
    | with_reducible assumption | intro _ | with_reducible apply setActs_same | with_reducible apply State.took_same
    | with_reducible apply ite_same | with_reducible apply foldl_same | (refine Same.ofSnd (by assumption) ?_) | dsimp only
    | split

theorem countGate_same {r₀ : State} {g₀ : Groups} {s : State} (h1 : Same g₀ r₀ s) (m_free : g₀.free = true)
    (m_regs : g₀.regs = true) (m_sounds : g₀.sounds = true) (m_seqNo : g₀.seqNo = true) : Same g₀ r₀ (countGate s) := by
  unfold countGate
  repeat' first
    | with_reducible assumption | intro _ | with_reducible apply bumpBy_same | with_reducible apply State.took_same
    | with_reducible apply ite_same | with_reducible apply foldl_same | (refine Same.ofSnd (by assumption) ?_) | dsimp only
    | split

theorem execPatchRequest_same {r₀ : State} {g₀ : Groups} {table row : Nat} {s : State} {t₀}
    (e₀ : execPatchRequest table row s = .next t₀) (h3 : Same g₀ r₀ s) (m_twin : g₀.twin = true) : Same g₀ r₀ t₀ := by
  unfold execPatchRequest at e₀
  repeat' first | contradiction | (injection e₀ with e₀; subst e₀) | dsimp only at e₀ | (split at e₀)
  repeat' first
    | with_reducible assumption | intro _ | with_reducible apply State.onTwin_same | with_reducible apply ite_same
    | with_reducible apply foldl_same | (refine Same.ofSnd (by assumption) ?_) | dsimp only | split

theorem loseEntry_same {r₀ : State} {g₀ : Groups} {s : State} {k : Nat} {pendPool : Bool} {bank region slots : Nat}
    (h1 : Same g₀ r₀ s) (m_free : g₀.free = true) (m_mu : g₀.mu = true)
    : Same g₀ r₀ (loseEntry s k pendPool bank region slots) := by
  unfold loseEntry
  repeat' first
    | with_reducible assumption | intro _ | with_reducible apply State.onMu_same | with_reducible apply State.took_same
    | with_reducible apply ite_same | with_reducible apply foldl_same | (refine Same.ofSnd (by assumption) ?_) | dsimp only
    | split

theorem quarantineRow_same {r₀ : State} {g₀ : Groups} {s : State} {kind k t row : Nat} (h1 : Same g₀ r₀ s) (m_gz : g₀.gz = true)
    : Same g₀ r₀ (quarantineRow s kind k t row) := by
  unfold quarantineRow
  repeat' first
    | with_reducible assumption | intro _ | with_reducible apply State.onGz_same | with_reducible apply closeReq_same
    | with_reducible apply ite_same | with_reducible apply foldl_same | (refine Same.ofSnd (by assumption) ?_) | dsimp only
    | split

theorem loseWords_same {r₀ : State} {g₀ : Groups} {s : State} {k bank region lo : Nat} (h1 : Same g₀ r₀ s)
    (m_regs : g₀.regs = true) (m_mu : g₀.mu = true) (m_seq : g₀.seq = true) (m_sounds : g₀.sounds = true)
    (m_seqNo : g₀.seqNo = true) : Same g₀ r₀ (loseWords s k bank region lo) := by
  unfold loseWords
  repeat' first
    | with_reducible assumption | intro _ | with_reducible apply State.onMu_same | with_reducible apply bumpBy_same
    | with_reducible apply reportLate_same | with_reducible apply ite_same | with_reducible apply foldl_same
    | (refine Same.ofSnd (by assumption) ?_) | dsimp only | split

theorem buildShadow_same {r₀ : State} {g₀ : Groups} {k : Nat} {s : State} {x : Heavy} (h2 : Same g₀ r₀ s)
    (m_free : g₀.free = true) (m_pkg : g₀.pkg = true) (m_mem : g₀.mem = true) (m_regs : g₀.regs = true) (m_gz : g₀.gz = true)
    (m_tw : g₀.tw = true) (m_mu : g₀.mu = true) (m_streams : g₀.streams = true) (m_qm : g₀.qm = true) (m_seq : g₀.seq = true)
    (m_img : g₀.img = true) (m_rings : g₀.rings = true) (m_snap : g₀.snap = true) (m_sv : g₀.sv = true) (m_sec : g₀.sec = true)
    (m_i3c : g₀.i3c = true) (m_sounds : g₀.sounds = true) (m_seqNo : g₀.seqNo = true) : Same g₀ r₀ (buildShadow k s x) := by
  unfold buildShadow
  repeat' first
    | with_reducible assumption | intro _ | with_reducible apply panelFaultAt_same | with_reducible apply State.onMu_same
    | with_reducible apply cbWrite_same | with_reducible apply markPoisoned_same | with_reducible apply checkRead_same
    | with_reducible apply ite_same | with_reducible apply ite_same_snd | with_reducible apply foldl_same
    | with_reducible apply foldl_same_snd | (refine Same.ofSnd (by assumption) ?_) | dsimp only | split

theorem buildShadows_same {r₀ : State} {g₀ : Groups} {s : State} (h1 : Same g₀ r₀ s) (m_free : g₀.free = true)
    (m_pkg : g₀.pkg = true) (m_mem : g₀.mem = true) (m_regs : g₀.regs = true) (m_gz : g₀.gz = true) (m_tw : g₀.tw = true)
    (m_mu : g₀.mu = true) (m_streams : g₀.streams = true) (m_qm : g₀.qm = true) (m_seq : g₀.seq = true) (m_img : g₀.img = true)
    (m_rings : g₀.rings = true) (m_snap : g₀.snap = true) (m_sv : g₀.sv = true) (m_sec : g₀.sec = true) (m_i3c : g₀.i3c = true)
    (m_sounds : g₀.sounds = true) (m_seqNo : g₀.seqNo = true) : Same g₀ r₀ (buildShadows s) := by
  unfold buildShadows
  repeat' first
    | with_reducible assumption | intro _ | with_reducible apply buildShadow_same | with_reducible apply ite_same
    | with_reducible apply foldl_same | (refine Same.ofSnd (by assumption) ?_) | dsimp only | split

theorem execStepStart_same {r₀ : State} {g₀ : Groups} {s : State} {t₀} (e₀ : execStepStart s = .next t₀) (h1 : Same g₀ r₀ s)
    (m_free : g₀.free = true) (m_pkg : g₀.pkg = true) (m_mem : g₀.mem = true) (m_regs : g₀.regs = true) (m_gz : g₀.gz = true)
    (m_tw : g₀.tw = true) (m_mu : g₀.mu = true) (m_streams : g₀.streams = true) (m_qm : g₀.qm = true) (m_seq : g₀.seq = true)
    (m_img : g₀.img = true) (m_rings : g₀.rings = true) (m_snap : g₀.snap = true) (m_sv : g₀.sv = true) (m_sec : g₀.sec = true)
    (m_i3c : g₀.i3c = true) (m_sounds : g₀.sounds = true) (m_seqNo : g₀.seqNo = true) : Same g₀ r₀ t₀ := by
  unfold execStepStart at e₀
  repeat' first | contradiction | (injection e₀ with e₀; subst e₀) | dsimp only at e₀ | (split at e₀)
  repeat' first
    | with_reducible assumption | intro _ | with_reducible apply startStep_same | with_reducible apply countGate_same
    | with_reducible apply buildShadows_same | with_reducible apply ite_same | with_reducible apply foldl_same
    | (refine Same.ofSnd (by assumption) ?_) | dsimp only | split

theorem engineWants_same {r₀ : State} {g₀ : Groups} {s : State} {a1 : List Nat} {a2 : FMap Nat} (h1 : Same g₀ r₀ s)
    (m_free : g₀.free = true) : Same g₀ r₀ (engineWants s a1 a2).2.2 := by
  induction a1 generalizing s a2 with
  | nil =>
    unfold engineWants
    repeat' first
      | with_reducible assumption | intro _ | with_reducible apply State.took_same | with_reducible apply ite_same
      | with_reducible apply ite_same_snd | with_reducible apply foldl_same | with_reducible apply foldl_same_snd
      | (refine Same.ofSnd (by assumption) ?_) | dsimp only | split
  | cons _ _ ih =>
    unfold engineWants
    repeat' first
      | with_reducible assumption | intro _ | with_reducible apply ih | with_reducible apply State.took_same
      | with_reducible apply ite_same | with_reducible apply ite_same_snd | with_reducible apply foldl_same
      | with_reducible apply foldl_same_snd | (refine Same.ofSnd (by assumption) ?_) | dsimp only | split

theorem freeWants_same {r₀ : State} {g₀ : Groups} {s : State} {engines a2 : List Nat} {a3 : FMap Nat} (h1 : Same g₀ r₀ s)
    (m_free : g₀.free = true) : Same g₀ r₀ (freeWants s engines a2 a3).2 := by
  induction a2 generalizing s a3 with
  | nil =>
    unfold freeWants
    repeat' first
      | with_reducible assumption | intro _ | with_reducible apply State.took_same | with_reducible apply engineWants_same
      | with_reducible apply ite_same | with_reducible apply ite_same_snd | with_reducible apply foldl_same
      | with_reducible apply foldl_same_snd | (refine Same.ofSnd (by assumption) ?_) | dsimp only | split
  | cons _ _ ih =>
    unfold freeWants
    repeat' first
      | with_reducible assumption | intro _ | with_reducible apply ih | with_reducible apply State.took_same
      | with_reducible apply engineWants_same | with_reducible apply ite_same | with_reducible apply ite_same_snd
      | with_reducible apply foldl_same | with_reducible apply foldl_same_snd | (refine Same.ofSnd (by assumption) ?_) | dsimp only
      | split

theorem openShare_same {r₀ : State} {g₀ : Groups} {s : State} {k share total : Nat} {claimants : List Nat}
    {guaranteed : Nat → Nat} (h1 : Same g₀ r₀ s) (m_free : g₀.free = true) (m_regs : g₀.regs = true) (m_mu : g₀.mu = true)
    (m_sounds : g₀.sounds = true) (m_seqNo : g₀.seqNo = true) : Same g₀ r₀ (openShare s k share total claimants guaranteed) := by
  unfold openShare
  repeat' first
    | with_reducible assumption | intro _ | with_reducible apply State.onMu_same | with_reducible apply bumpBy_same
    | with_reducible apply State.took_same | with_reducible apply freeWants_same | with_reducible apply ite_same
    | with_reducible apply ite_same_snd | with_reducible apply foldl_same | with_reducible apply foldl_same_snd
    | (refine Same.ofSnd (by assumption) ?_) | dsimp only | split

theorem failPatch_same {r₀ : State} {g₀ : Groups} {s : State} {k t row : Nat} {p : Patch} (h1 : Same g₀ r₀ s)
    (m_regs : g₀.regs = true) (m_mu : g₀.mu = true) (m_sounds : g₀.sounds = true) (m_seqNo : g₀.seqNo = true)
    : Same g₀ r₀ (failPatch s k t row p) := by
  unfold failPatch
  repeat' first
    | with_reducible assumption | intro _ | with_reducible apply State.onMu_same | with_reducible apply bump_same
    | with_reducible apply ite_same | with_reducible apply foldl_same | (refine Same.ofSnd (by assumption) ?_) | dsimp only
    | split

theorem execBandwidthWindow_same {r₀ : State} {g₀ : Groups} {far : Bool} {index : Nat} {s : State} {t₀}
    (e₀ : execBandwidthWindow far index s = .next t₀) (h3 : Same g₀ r₀ s) (m_free : g₀.free = true) (m_regs : g₀.regs = true)
    (m_mu : g₀.mu = true) (m_sounds : g₀.sounds = true) (m_seqNo : g₀.seqNo = true) : Same g₀ r₀ t₀ := by
  unfold execBandwidthWindow at e₀
  repeat' first | contradiction | (injection e₀ with e₀; subst e₀) | dsimp only at e₀ | (split at e₀)
  repeat' first
    | with_reducible assumption | intro _ | with_reducible apply openShare_same | with_reducible apply ite_same
    | with_reducible apply foldl_same | (refine Same.ofSnd (by assumption) ?_) | dsimp only | split

theorem execPatchAnswer_same {r₀ : State} {g₀ : Groups} {owner table row : Nat} {record : List Byte} {poisoned : Bool} {s : State}
    {t₀} (e₀ : execPatchAnswer owner table row record poisoned s = .next t₀) (h6 : Same g₀ r₀ s) (m_mem : g₀.mem = true)
    (m_regs : g₀.regs = true) (m_gz : g₀.gz = true) (m_mu : g₀.mu = true) (m_sv : g₀.sv = true) (m_i3c : g₀.i3c = true)
    (m_sounds : g₀.sounds = true) (m_seqNo : g₀.seqNo = true) : Same g₀ r₀ t₀ := by
  unfold execPatchAnswer at e₀
  repeat' first | contradiction | (injection e₀ with e₀; subst e₀) | dsimp only at e₀ | (split at e₀)
  repeat' first
    | with_reducible assumption | intro _ | with_reducible apply bump_same | with_reducible apply rewriteRow_same
    | with_reducible apply failPatch_same | with_reducible apply closeRow_same | with_reducible apply wakePatch_same
    | with_reducible apply ite_same | with_reducible apply foldl_same | (refine Same.ofSnd (by assumption) ?_) | dsimp only
    | split

theorem scrubMove_same {r₀ : State} {g₀ : Groups} {s : State} {d h pos last : Nat} (h1 : Same g₀ r₀ s) (m_mu : g₀.mu = true)
    : Same g₀ r₀ (scrubMove s d h pos last) := by
  unfold scrubMove
  repeat' first
    | with_reducible assumption | intro _ | with_reducible apply State.onMu_same | with_reducible apply ite_same
    | with_reducible apply foldl_same | (refine Same.ofSnd (by assumption) ?_) | dsimp only | split

theorem loseLedger_same {r₀ : State} {g₀ : Groups} {s : State} {k : Nat} {q : Range} (h1 : Same g₀ r₀ s) (m_free : g₀.free = true)
    (m_regs : g₀.regs = true) (m_mu : g₀.mu = true) (m_seq : g₀.seq = true) (m_sounds : g₀.sounds = true)
    (m_seqNo : g₀.seqNo = true) : Same g₀ r₀ (loseLedger s k q) := by
  unfold loseLedger
  repeat' first
    | with_reducible assumption | intro _ | with_reducible apply loseEntry_same | with_reducible apply loseWords_same
    | with_reducible apply ite_same | with_reducible apply foldl_same | (refine Same.ofSnd (by assumption) ?_) | dsimp only
    | split

theorem scrubSector_same {r₀ : State} {g₀ : Groups} {s : State} {a : Nat} (h1 : Same g₀ r₀ s) (m_free : g₀.free = true)
    (m_mem : g₀.mem = true) (m_regs : g₀.regs = true) (m_gz : g₀.gz = true) (m_mu : g₀.mu = true) (m_seq : g₀.seq = true)
    (m_sv : g₀.sv = true) (m_i3c : g₀.i3c = true) (m_sounds : g₀.sounds = true) (m_seqNo : g₀.seqNo = true)
    : Same g₀ r₀ (scrubSector s a) := by
  unfold scrubSector
  repeat' first
    | with_reducible assumption | intro _ | with_reducible apply loseLedger_same | with_reducible apply State.onMem_same
    | with_reducible apply readSector_same | with_reducible apply markPoisoned_same | with_reducible apply ite_same
    | with_reducible apply ite_same_snd | with_reducible apply foldl_same | with_reducible apply foldl_same_snd
    | (refine Same.ofSnd (by assumption) ?_) | dsimp only | split

theorem execScrubRead_same {r₀ : State} {g₀ : Groups} {die half : Nat} {s : State} {t₀} (e₀ : execScrubRead die half s = .next t₀)
    (h3 : Same g₀ r₀ s) (m_free : g₀.free = true) (m_mem : g₀.mem = true) (m_regs : g₀.regs = true) (m_gz : g₀.gz = true)
    (m_mu : g₀.mu = true) (m_seq : g₀.seq = true) (m_sv : g₀.sv = true) (m_i3c : g₀.i3c = true) (m_sounds : g₀.sounds = true)
    (m_seqNo : g₀.seqNo = true) : Same g₀ r₀ t₀ := by
  unfold execScrubRead at e₀
  repeat' first | contradiction | (injection e₀ with e₀; subst e₀) | dsimp only at e₀ | (split at e₀)
  repeat' first
    | with_reducible assumption | intro _ | with_reducible apply scrubMove_same | with_reducible apply scrubSector_same
    | with_reducible apply ite_same | with_reducible apply foldl_same | (refine Same.ofSnd (by assumption) ?_) | dsimp only
    | split

theorem execShadowEntryValid_same {r₀ : State} {g₀ : Groups} {owner table row : Nat} {s : State} {t₀}
    (e₀ : execShadowEntryValid owner table row s = .next t₀) (h4 : Same g₀ r₀ s) (m_mu : g₀.mu = true) : Same g₀ r₀ t₀ := by
  unfold execShadowEntryValid at e₀
  repeat' first | contradiction | (injection e₀ with e₀; subst e₀) | dsimp only at e₀ | (split at e₀)
  repeat' first
    | with_reducible assumption | intro _ | with_reducible apply State.onMu_same | with_reducible apply ite_same
    | with_reducible apply foldl_same | (refine Same.ofSnd (by assumption) ?_) | dsimp only | split

theorem execPatchTimeout_same {r₀ : State} {g₀ : Groups} {owner table row : Nat} {s : State} {t₀}
    (e₀ : execPatchTimeout owner table row s = .next t₀) (h4 : Same g₀ r₀ s) (m_regs : g₀.regs = true) (m_gz : g₀.gz = true)
    (m_mu : g₀.mu = true) (m_sounds : g₀.sounds = true) (m_seqNo : g₀.seqNo = true) : Same g₀ r₀ t₀ := by
  unfold execPatchTimeout at e₀
  repeat' first | contradiction | (injection e₀ with e₀; subst e₀) | dsimp only at e₀ | (split at e₀)
  repeat' first
    | with_reducible assumption | intro _ | with_reducible apply quarantineRow_same | with_reducible apply failPatch_same
    | with_reducible apply wakePatch_same | with_reducible apply ite_same | with_reducible apply foldl_same
    | (refine Same.ofSnd (by assumption) ?_) | dsimp only | split

theorem execShadowInvalidation_same {r₀ : State} {g₀ : Groups} {die owner table row : Nat} {s : State} {t₀}
    (e₀ : execShadowInvalidation die owner table row s = .next t₀) (h5 : Same g₀ r₀ s) (m_free : g₀.free = true)
    (m_mu : g₀.mu = true) (m_qm : g₀.qm = true) : Same g₀ r₀ t₀ := by
  unfold execShadowInvalidation at e₀
  repeat' first | contradiction | (injection e₀ with e₀; subst e₀) | dsimp only at e₀ | (split at e₀)
  repeat' first
    | with_reducible assumption | intro _ | with_reducible apply State.onMu_same | with_reducible apply finishSeals_same
    | with_reducible apply ite_same | with_reducible apply foldl_same | (refine Same.ofSnd (by assumption) ?_) | dsimp only
    | split

end Sys2Proof.Machine
end

