-- ==== Sys2Proof/Laws/Queues.lean ====
section
/-!
SUPPORT. What the shared operations of the queue manager and the step sequencer do.
-/

set_option linter.all false

namespace Sys2Proof.Machine

open Sys2Proof

theorem noRoute_congr {a b : State} (e : a.rings = b.rings) (i : Instr) : noRoute a i = noRoute b i := by
  unfold noRoute; split <;> first | rw [ringRoute_congr e] | rfl

/-- The entry at the head of an ACTIVE queue, read without a loss: where its SEAL matches it is taken; where it does not, it is read again, and the
queue halts with SEAL_MISMATCH after eight re-reads (R280). w is the state after the read. -/
theorem readHead_active (s b w : State) (q : Nat) (r : Rec) (hu : queueOf b q = queueOf s q) (hm : b.mem = s.mem) (hp : b.pkg = s.pkg)
    (hv : b.sv = s.sv) (hs : b.seq = s.seq) (hc : b.qm.cpls = s.qm.cpls) (hg : b.rings = s.rings) (hst : (queueOf s q).st = qActive)
    (hl : ∀ e, postedEntry s q (queueOf s q).head (queueOf s q).headGen = some e → e.late = false)
    (hk : checkRead (setQueue b q fun u => { u with resume := false }) (entryDa r (queueOf s q).head) 256 = (false, w)) :
    let u := queueOf s q
    let e := readBytes s.mem (entryDa r u.head) 256
    let h := decodeHdr q u.head (stepNow s) e
    let c := decodeDesc q u.head (stepNow s) e
    let t := readHead b q r
    MemSame s t ∧
      (dword e 0x3E 2 = u.headGen →
        ((queueOf t q).head, (queueOf t q).headGen) = nextPos (queueSize r) (u.head, u.headGen) ∧ (queueOf t q).rereads = 0 ∧
        (c = none ∨ critOp (opcodeOf e) ≠ h.crit ∨ (h.crit = true ∧ h.ext = 0) →
          t.qm.cpls = s.qm.cpls ++ [completionOf h cmdUnit stMalformed 0] ∧ (queueOf t q).fetched = u.fetched) ∧
        (∀ d, c = some d → critOp (opcodeOf e) = h.crit → (h.crit = true → h.ext ≠ 0) → noRoute s d = false → h.armed = false →
          (t.qm.cpls = s.qm.cpls ∧ ∃ x, (queueOf t q).fetched = u.fetched ++ [x] ∧ x.hdr = h ∧ x.cmd = d) ∨
          ∃ w, dieUp s w.die = false ∧ t.qm.cpls = s.qm.cpls ++ [completionOf h w stAbsent 0] ∧ (queueOf t q).fetched = u.fetched) ∧
        (∀ d, c = some d → critOp (opcodeOf e) = h.crit → (h.crit = true → h.ext ≠ 0) → noRoute s d = true →
          (t.qm.cpls = s.qm.cpls ∧ ∃ x, (queueOf t q).fetched = u.fetched ++ [x] ∧ x.hdr = h ∧ x.cmd = d) ∨
          ∃ w st, t.qm.cpls = s.qm.cpls ++ [completionOf h w st 0] ∧ (queueOf t q).fetched = u.fetched)) ∧
      (dword e 0x3E 2 ≠ u.headGen → u.rereads < 8 →
        queueOf t q = { u with rereads := u.rereads + 1, retry := true, resume := false } ∧ t.qm.cpls = s.qm.cpls ∧ t.regs = (bump w 0 0x20058).regs) ∧
      (dword e 0x3E 2 ≠ u.headGen → 8 ≤ u.rereads →
        queueOf t q = { u with st := qHalted, rereads := 0, retry := false, resume := false } ∧ t.regs = (bump w 0 0x20060).regs ∧
        ∃ k, t.qm.cpls = s.qm.cpls ++ [completionOf k cmdUnit stSealMm 0] ∧ k.queue = q ∧ k.index = u.head ∧ k.gen = u.headGen) := by
  intro u e h c t
  have W := checkRead_clean hk
  have wm : w.mem = s.mem := (W.mem rfl).trans hm
  have wu : queueOf w q = { u with resume := false } := by
    rw [queueOf, W.qm rfl]; show queueOf (setQueue b q _) q = _; rw [queueOf_setQueue, hu]
  have wq : w.qm.cpls = s.qm.cpls := by rw [W.qm rfl]; exact hc
  have ws : w.seq = s.seq := (W.seq rfl).trans hs
  have wg : w.rings = s.rings := (W.rings rfl).trans hg
  have wp : w.pkg = s.pkg := (W.pkg rfl).trans hp
  have wv : w.sv = s.sv := (W.sv rfl).trans hv
  have hpe : postedEntry w q u.head u.headGen = postedEntry s q u.head u.headGen := by simp [postedEntry, ws]
  have hsn : stepNow w = stepNow s := by unfold stepNow; rw [ws]
  have ht : t = readHead b q r := rfl
  have key : readHead b q r = (if dword e 0x3E 2 = u.headGen then takeEntry w q (queueSize r) e u.head u.headGen
      else if u.rereads < 8 then bump (setQueue w q fun u => { u with rereads := u.rereads + 1, retry := true }) 0 0x20058
      else completeIdle (setQueue (bump w 0 0x20060) q fun u => { u with st := qHalted, rereads := 0, retry := false })
        { decodeHdr q u.head (stepNow w) e with gen := u.headGen } cmdUnit stSealMm) := by
    unfold readHead
    simp only [queueOf_setQueue, hu, hk, hpe, wm]
    rcases hpo : postedEntry s q (queueOf s q).head (queueOf s q).headGen with _ | p
    · simp only [hst, hpe, hpo, u, Bool.false_eq_true, if_false, show ¬ qActive = qFaulted by decide]; rfl
    · simp only [hst, hpe, hpo, u, hl p hpo, Bool.false_eq_true, if_false, show ¬ qActive = qFaulted by decide]; rfl
  rw [ht, key]
  by_cases h1 : dword e 62 2 = u.headGen
  · rw [if_pos h1]
    refine ⟨?_, fun _ => ?_, fun h2 => absurd h1 h2, fun h2 => absurd h1 h2⟩
    · intro x
      have := (takeEntry_same (g₀ := { qm := true, seq := true }) (r₀ := w) (s := w) (q := q) (size := queueSize r) (e := e) (idx := u.head) (gen := u.headGen) (Same.refl _ _) rfl rfl).mem rfl
      rw [this, wm]
    · change _ ∧ (queueOf (takeEntry w q (queueSize r) e u.head u.headGen) q).rereads = 0 ∧ _
      unfold takeEntry
      simp only [hsn]
      generalize hX : (State.onSeq (passHead w q (queueSize r)) _) = X
      have hX1 : ∀ d, dieUp X d = dieUp s d := by
        have e1 : X.pkg = s.pkg := by rw [← hX]; exact wp
        have e2 : X.sv = s.sv := by rw [← hX]; exact wv
        intro d; simp [dieUp, e1, e2]
      have hX2 : queueOf X q = { u with head := (nextPos (queueSize r) (u.head, u.headGen)).1, headGen := (nextPos (queueSize r) (u.head, u.headGen)).2, rereads := 0, retry := false, resume := false } := by
        rw [← hX]; show queueOf (passHead w q (queueSize r)) q = _; simp only [passHead, queueOf_setQueue, wu]
      have hX3 : X.qm.cpls = s.qm.cpls := by rw [← hX]; exact wq
      have hX4 : ∀ d, noRoute X d = noRoute s d := noRoute_congr (by rw [← hX]; exact wg)
      rw [show decodeHdr q u.head (stepNow s) e = h from rfl, show decodeDesc q u.head (stepNow s) e = c from rfl]
      clear hX key
      cases hfcs : fetchCheck X h (opcodeOf e) c with
      | some p =>
        obtain ⟨st, v⟩ := p
        refine ⟨by simp [completeIdle, issue, queueOf] at hX2 ⊢; simp [hX2], by simp [completeIdle, issue, queueOf] at hX2 ⊢; simp [hX2],
          fun e' => ?_, fun d e1 e2 e3 e5 e4 => .inr ⟨v, ?_⟩, fun d _ _ _ _ => .inr ⟨v, st, by simp [completeIdle, issue, hX3, completionOf], by simp [completeIdle, issue, queueOf] at hX2 ⊢; simp [hX2]⟩⟩
        · have : (st, v) = (stMalformed, cmdUnit) := by
            cases hcc : c with
            | none => simpa [hcc, fetchCheck] using hfcs.symm
            | some i =>
              rw [hcc] at hfcs e'
              simp only [fetchCheck] at hfcs
              cases hk : critOp (opcodeOf e) <;> cases hk2 : h.crit <;> simp [hk, hk2] at hfcs e' <;> first | exact Prod.ext hfcs.1.symm hfcs.2.symm | (rw [if_pos e'] at hfcs; cases hfcs; rfl)
          obtain ⟨rfl, rfl⟩ := Prod.mk.inj this
          exact ⟨by simp [completeIdle, issue, hX3, completionOf], by simp [completeIdle, issue, queueOf] at hX2 ⊢; simp [hX2]⟩
        · have : dieUp s v.die = false ∧ st = stAbsent := by
            rw [e1] at hfcs
            simp only [fetchCheck, e4, e5, hX1, hX4] at hfcs
            cases hk : critOp (opcodeOf e) <;> rw [hk] at e2 <;> rw [← e2] at hfcs e3 <;> simp only [hk] at hfcs <;> simp at hfcs
            · exact ⟨by rw [← hfcs.2.2]; exact hfcs.1, hfcs.2.1.symm⟩
            · simp [e3 rfl] at hfcs; exact ⟨by rw [← hfcs.2.2]; exact hfcs.1, hfcs.2.1.symm⟩
          obtain ⟨k1, rfl⟩ := this
          exact ⟨k1, by simp [completeIdle, issue, hX3, completionOf], by simp [completeIdle, issue, queueOf] at hX2 ⊢; simp [hX2]⟩
      | none =>
        cases hcc : c with
        | none => simp [hcc, fetchCheck] at hfcs
        | some i =>
          refine ⟨by simp [hX2], by simp [hX2], fun e' => ?_, fun d e1 e2 e3 _ _ => .inl ⟨hX3, _, by simp [hX2]; rfl, rfl, by simpa using e1⟩,
            fun d e1 e2 e3 _ => .inl ⟨hX3, _, by simp [hX2]; rfl, rfl, by simpa using e1⟩⟩
          exfalso; rw [hcc] at hfcs
          simp only [fetchCheck] at hfcs
          cases hk : critOp (opcodeOf e) <;> cases hk2 : h.crit <;> simp [hk, hk2] at hfcs e' <;> simp_all
  · rw [if_neg h1]
    by_cases h2 : u.rereads < 8
    · rw [if_pos h2]
      have S := bump_same (g₀ := { regs := true, sounds := true, seqNo := true }) (die := 0) (off := 0x20058) (sel := 0) (Same.refl _ (setQueue w q fun u => { u with rereads := u.rereads + 1, retry := true })) rfl rfl rfl
      refine ⟨?_, fun h3 => absurd h3 h1, fun _ _ => ⟨?_, ?_, ?_⟩, fun _ h3 => by omega⟩
      · intro x
        rw [S.mem rfl]; show readByte w.mem x = _; rw [wm]
      · rw [queueOf, S.qm rfl]; show queueOf (setQueue w q _) q = _; simp only [queueOf_setQueue, wu]
      · rw [S.qm rfl]; exact wq
      · exact bump_regs_congr rfl
    · rw [if_neg h2]
      have S := bump_same (g₀ := { regs := true, sounds := true, seqNo := true }) (r₀ := w) (s := w) (die := 0) (off := 0x20060) (sel := 0) (Same.refl _ _) rfl rfl rfl
      refine ⟨?_, fun h3 => absurd h3 h1, fun _ h3 => absurd h3 h2, fun _ _ => ⟨?_, ?_, { decodeHdr q u.head (stepNow w) e with gen := u.headGen }, ?_, rfl, rfl, rfl⟩⟩
      · intro x
        show readByte (bump w 0 0x20060).mem x = _
        rw [S.mem rfl, wm]
      · have : queueOf (bump w 0 0x20060) q = queueOf w q := by rw [queueOf, S.qm rfl]; rfl
        rw [queueOf_completeIdle, queueOf_setQueue, this, wu]
      · rfl
      · simp only [completeIdle, issue, State.onQm, setQueue, S.qm rfl, wq]; rfl
theorem notify_rings (s : State) (r : Rec) : (notify s r).mem = s.mem ∧ (notify s r).qm.rings = s.qm.rings ∧ (notify s r).qm.cpls = s.qm.cpls := by
  unfold notify; split
  · exact ⟨rfl, rfl, rfl⟩
  · split <;> exact ⟨rfl, rfl, rfl⟩
theorem deliver_is (s : State) (c : Cpl) (n : Nat) (hn : cringOf s c.queue = some n) :
    let s1 := s.onQm fun q => { q with cpls := q.cpls.erase c }
    let s2 := if c.quiet && c.status = stDone then releaseSlot s1 n else writeRecord s1 n (cplBytes s c)
    (deliver s c).mem = s2.mem ∧ (deliver s c).qm.rings = s2.qm.rings ∧ (deliver s c).qm.cpls = s2.qm.cpls := by
  intro s1 s2
  have hn1 : cringOf s1 c.queue = some n := hn
  unfold deliver
  simp only [show (s.onQm fun q => { q with cpls := q.cpls.erase c }) = s1 from rfl, hn1]
  rw [show cplBytes s1 c = cplBytes s c from rfl]
  change (_ : State).mem = _ ∧ _
  generalize hz : seqRecord _ c = z
  have hz1 : z.mem = s2.mem ∧ z.qm = s2.qm := by
    subst hz
    have A : ∀ x : State, (seqRecord x c).mem = x.mem ∧ (seqRecord x c).qm = x.qm := fun x =>
      have S := seqRecord_same (g₀ := { seq := true }) (c := c) (Same.refl _ x) rfl
      ⟨S.mem rfl, S.qm rfl⟩
    have B : ∀ (x : State) a b, (countStatus x a b).mem = x.mem ∧ (countStatus x a b).qm = x.qm := fun x a b =>
      have S := countStatus_same (g₀ := { regs := true, sv := true, i3c := true, sounds := true, seqNo := true }) (q := a) (st := b) (Same.refl _ x) rfl rfl rfl rfl rfl
      ⟨S.mem rfl, S.qm rfl⟩
    rw [(A _).1, (A _).2]
    show (ite _ s2 _).mem = _ ∧ _
    by_cases h : (c.quiet && decide (c.status = stDone)) = true
    · simp only [h, if_true, s2, and_self]
    · simp only [h, if_false, Bool.false_eq_true, s2]; exact B _ _ _
  clear hz
  split
  · split
    · exact ⟨hz1.1, by rw [← hz1.2]; rfl, by rw [← hz1.2]; rfl⟩
    · exact ⟨hz1.1, by rw [← hz1.2], by rw [← hz1.2]⟩
  · exact ⟨hz1.1, by rw [← hz1.2], by rw [← hz1.2]⟩
theorem endMalformed_is (s : State) (p : Nat) : Same { seq := true } s (endMalformed s p) ∧ (progOf (endMalformed s p) p).malformed = true :=
  ⟨endMalformed_same (Same.refl _ s) rfl, by simp [endMalformed]⟩
theorem setAmax_progOf (s : State) (p x : Nat) (vs : List (Option Val)) :
    progOf (setAmax s p x vs) p = { progOf s p with
      x := put (progOf s p).x x (if vs.any Option.isNone then Val.zero else vs.foldl (fun m o => match o with | some v => if Val.lt m v then v else m | none => m) Val.zero) } ∧
    (∀ q, q ≠ p → progOf (setAmax s p x vs) q = progOf s q) := by
  have S := bumpBy_same (g₀ := { regs := true, sounds := true, seqNo := true }) (die := 0) (off := 0x40020) (n := (vs.filter Option.isNone).length) (sel := 0) (Same.refl _ s) rfl rfl rfl
  have hs : ∀ q, progOf (bumpBy s 0 0x40020 (vs.filter Option.isNone).length) q = progOf s q := fun q => by simp only [progOf, S.seq rfl]
  unfold setAmax
  refine ⟨?_, fun q hq => ?_⟩
  · dsimp only
    rw [progOf_setProg, hs]
    congr 2
    by_cases h : vs.any Option.isNone = true
    · have h0 : ¬(vs.filter Option.isNone).length = 0 := by
        intro h0
        have := List.eq_nil_of_length_eq_zero h0
        rw [List.filter_eq_nil_iff] at this
        obtain ⟨a, ha, hb⟩ := List.any_eq_true.mp h
        exact this a ha hb
      rw [if_pos h, if_neg h0]
    · have h0 : (vs.filter Option.isNone).length = 0 := by
        rw [List.length_eq_zero_iff, List.filter_eq_nil_iff]
        intro a ha hn; exact h (List.any_eq_true.mpr ⟨a, ha, hn⟩)
      rw [if_neg h, if_pos h0]
      all_goals rfl
  · dsimp only
    rw [progOf_setProg_ne _ _ _ _ hq, hs]
theorem bumpBy_zero (s : State) (d o : Nat) : bumpBy s d o 0 = s := by
  unfold bumpBy; dsimp only; rw [if_pos (by have := Nat.mod_lt (regGet s d o 0 0) (show 2 ^ 48 > 0 by decide); simp only [ctrMax]; omega), if_pos rfl]
theorem bumpCore_zero (s : State) (g o : Nat) : bumpCore s g o 0 = s := by simp [bumpCore, bumpBy_zero]
theorem cbCheck_clean (s : State) (g off n : Nat) (h : ∀ e, e ∈ s.tw.cbErr → e.1 ∉ wordsOf g off n) : cbCheck s g [(off, n)] = (false, s) := by
  have : (s.tw.cbErr.filter fun e => (wordsOf g off n).contains e.1) = [] := by
    rw [List.filter_eq_nil_iff]; intro e he; simpa using h e he
  simp only [cbCheck, List.flatMap_cons, List.flatMap_nil, List.append_nil, this, List.filter_nil, List.length_nil, bumpCore_zero]; rfl
theorem wordsOf_sub (g off n i : Nat) (hi : i < n) : ∀ w, w ∈ wordsOf g (off + 8 * i) 8 → w ∈ wordsOf g off (8 * n) := by
  intro w; unfold wordsOf; rw [if_neg (by omega), if_neg (by omega)]
  simp only [List.mem_map, List.mem_range]
  rintro ⟨k, hk, rfl⟩
  exact ⟨(off + 8 * i) / 8 - off / 8 + k, by omega, by omega⟩
theorem foldl_complete_rings (hs : List Hdr) : ∀ s : State, (hs.foldl (fun s h => complete s h cmdUnit stDone) s).qm.rings = s.qm.rings ∧
    (hs.foldl (fun s h => complete s h cmdUnit stDone) s).seq = s.seq := by
  induction hs with
  | nil => exact fun s => ⟨rfl, rfl⟩
  | cons h r ih => exact fun s => ⟨(ih _).1, (ih _).2⟩
theorem writeStepRecord_is (n : Nat) (s : State) (x : Nat × Prog) :
    (writeStepRecord n s x).seq = s.seq ∧ (writeStepRecord n s x).img = s.img ∧ (writeStepRecord n s x).qm.queues = s.qm.queues ∧
    (∀ m r, ringRec s m = some r → (ringOf (writeStepRecord n s x) m).tail = (ringOf s m).tail + (if recordRing s x.1 = some m then 1 else 0)) := by
  have S := writeStepRecord_same (g₀ := { free := true, mem := true, regs := true, mu := true, qm := true, sv := true, sec := true, i3c := true, sounds := true, seqNo := true }) (n := n) (x := x) (Same.refl _ s) rfl rfl rfl rfl rfl rfl rfl rfl rfl rfl
  refine ⟨S.seq rfl, S.img rfl, ?_, ?_⟩
  all_goals unfold writeStepRecord
  · cases hq : firstQueue s x.1 with
    | none => rfl
    | some q =>
      dsimp only
      cases hc : cringOf s q with
      | none => rfl
      | some ring =>
        dsimp only
        cases hr : ringRec s.took ring with
        | none => simp only [State.onSec_qm]; unfold writeRecord; simp only [hr]; rfl
        | some r => simp only [State.onSec_qm]; exact (writeRecord_is _ hr).2.2.2.2.1
  · intro m r hm
    cases hq : firstQueue s x.1 with
    | none => simp [recordRing, hq]
    | some q =>
      dsimp only
      cases hc : cringOf s q with
      | none => simp [recordRing, hq, hc]
      | some ring =>
        dsimp only
        by_cases h : ring = m
        · subst h
          have hr : ringRec s.took ring = some r := hm
          rw [if_pos (show recordRing s x.1 = some ring by simp [recordRing, hq, hc])]
          rw [ringOf_onSec, (writeRecord_is _ hr).2.1]; rfl
        · rw [if_neg (show ¬ recordRing s x.1 = some m by simp [recordRing, hq, hc, h])]
          cases hr : ringRec s.took ring with
          | none => rw [ringOf_onSec]; unfold writeRecord; simp only [hr]; rfl
          | some r' => rw [ringOf_onSec, (writeRecord_is _ hr).2.2.1 m (fun e => h e.symm)]; rfl
theorem recs_congr {s t : State} (h1 : t.img = s.img) (h2 : t.qm.queues = s.qm.queues) (m p : Nat) : ringRec t m = ringRec s m ∧ recordRing t p = recordRing s p := by
  have q0 : queue0Up t = queue0Up s := by simp only [queue0Up, h2]
  have sc : ∀ c, sect t c = sect s c := fun c => by simp only [sect, h1]
  have rb : ∀ a b c, recBy t a b c = recBy s a b c := fun a b c => by simp only [recBy, sc]
  have qr : ∀ q, queueRec t q = queueRec s q := fun q => by simp only [queueRec, q0, rb]
  have pc : ∀ q, progCode t q = progCode s q := fun q => by simp only [progCode, h1]
  have pw : ∀ q i, progWord t q i = progWord s q i := fun q i => by simp only [progWord, pc]
  have fo : ∀ q o n i, findOp t q o n i = findOp s q o n i := by
    intro q o n; induction n with
    | zero => intro i; rfl
    | succ n ih => intro i; simp only [findOp, pw, ih]
  refine ⟨by simp only [ringRec, q0, rb], ?_⟩
  have fq : firstQueue t p = firstQueue s p := by simp only [firstQueue, pc, pw, fo]
  simp only [recordRing, fq]
  congr 1; funext q; simp only [cringOf, qr]
theorem foldRecords (n : Nat) (l : List (Nat × Prog)) : ∀ s : State,
    (l.foldl (writeStepRecord n) s).seq = s.seq ∧ (∀ m r, ringRec s m = some r →
    (ringOf (l.foldl (writeStepRecord n) s) m).tail = (ringOf s m).tail + (l.filter fun p => recordRing s p.1 == some m).length) := by
  induction l with
  | nil => exact fun s => ⟨rfl, fun m r _ => rfl⟩
  | cons x l ih =>
    intro s
    obtain ⟨a, b, c, d⟩ := writeStepRecord_is n s x
    obtain ⟨e, f⟩ := ih (writeStepRecord n s x)
    refine ⟨e.trans a, fun m r hr => ?_⟩
    have cg := fun p => recs_congr b c m p
    rw [List.foldl_cons, f m r ((cg 0).1.trans hr), d m r hr]
    have : (fun p : Nat × Prog => recordRing (writeStepRecord n s x) p.1 == some m) = fun p => recordRing s p.1 == some m := by
      funext p; rw [(cg p.1).2]
    rw [this, List.filter_cons]
    by_cases h : recordRing s x.1 = some m
    · simp [h]; omega
    · simp [h]
theorem foldl_put_look (l : List Rec) (v : Prog) : ∀ (m : FMap Prog) (k : Nat), (look m k = some v ∨ ∃ r, r ∈ l ∧ fld r 0 = k) →
    look (l.foldl (fun m r => put m (fld r 0) v) m) k = some v := by
  induction l with
  | nil => rintro m k (h | ⟨_, h, _⟩); exact h; simp at h
  | cons x l ih =>
    intro m k h
    apply ih
    rcases h with h | ⟨r, hr, rfl⟩
    · left; rw [look_put]; split
      · rfl
      · exact h
    · rcases List.mem_cons.mp hr with rfl | hr
      · left; simp
      · exact .inr ⟨r, hr, rfl⟩
theorem foldSeals (n : Nat) (l : List Nat) : ∀ s : State, (∀ k, k ∈ l → 18 + k ∉ s.ck.err) →
    (l.foldl (postSeal n) s).ck = s.ck ∧ (l.foldl (postSeal n) s).qm.disp = s.qm.disp ++ l.map fun k =>
        { hdr := sealHdr s k n, cmd := .muSeal (sealHdr s k n) k n, unit := ledgerUnit k, armed := true, started := false } := by
  induction l with
  | nil => intro s _; simp
  | cons k l ih =>
    intro s h
    have hk : s.ck.err.contains (18 + k) = false := by simpa using h k (by simp)
    have e : postSeal n s k = (s.onSeq fun q => { q with sealHdrs := q.sealHdrs ++ [descKey (sealHdr s k n)] }).onQm fun q =>
      { q with disp := q.disp ++ [{ hdr := sealHdr s k n, cmd := .muSeal (sealHdr s k n) k n, unit := ledgerUnit k, armed := true, started := false }] } := by
      unfold postSeal
      simp only [State.onQm_ck, State.onSeq_ck, hk, Bool.false_eq_true, if_false]
    obtain ⟨a, b⟩ := ih (postSeal n s k) (by intro j hj; rw [e]; exact h j (List.mem_cons_of_mem _ hj))
    rw [List.foldl_cons]
    refine ⟨by rw [a, e]; rfl, ?_⟩
    rw [b, List.map_cons]
    have hs : ∀ j, sealHdr (postSeal n s k) j n = sealHdr s j n := by intro j; rw [e]; rfl
    simp only [hs]
    rw [e]; simp
theorem foldFetched (q : Nat) (l : List Fetched) : ∀ s : State,
    let t := l.foldl (fun s x => endFetched s q x stDeadline) s
    (∀ p, progOf t p = progOf s p) ∧ t.sv = s.sv ∧ t.regs = s.regs ∧ t.mem = s.mem ∧
    (∀ j x, x ∈ (queueOf t j).fetched → x ∈ (queueOf s j).fetched ∧ (j = q → ∀ y, y ∈ l → sameDesc x.hdr y.hdr = false)) := by
  induction l with
  | nil => intro s; exact ⟨fun _ => rfl, rfl, rfl, rfl, fun j x h => ⟨h, fun _ y hy => by simp at hy⟩⟩
  | cons y l ih =>
    intro s
    obtain ⟨a, b, c, d, e⟩ := ih (endFetched s q y stDeadline)
    refine ⟨fun p => a p, b, c, d, fun j x hx => ?_⟩
    obtain ⟨h1, h2⟩ := e j x hx
    have : x ∈ (queueOf s j).fetched ∧ (j = q → sameDesc x.hdr y.hdr = false) := by
      by_cases hj : j = q
      · subst hj
        simp only [endFetched, queueOf_completeIdle, queueOf_setQueue, List.mem_filter] at h1
        exact ⟨h1.1, fun _ => by simpa using h1.2⟩
      · refine ⟨?_, fun h => absurd h hj⟩
        simp only [endFetched, queueOf_completeIdle] at h1
        rwa [queueOf_setQueue_ne _ _ _ _ hj] at h1
    refine ⟨this.1, fun hj z hz => ?_⟩
    rcases List.mem_cons.mp hz with rfl | hz
    · exact this.2 hj
    · exact h2 hj z hz
theorem foldQueues (p : Nat) (l : List (Nat × Queue)) : ∀ s : State,
    let t := l.foldl (fun s q => (q.2.fetched.filter fun x => x.prog == some p).foldl (fun s x => endFetched s q.1 x stDeadline) s) s
    (∀ p, progOf t p = progOf s p) ∧ t.sv = s.sv ∧ t.regs = s.regs ∧ t.mem = s.mem ∧
    (∀ j x, x ∈ (queueOf t j).fetched → x ∈ (queueOf s j).fetched ∧ (∀ y, (j, y) ∈ l → x ∈ y.fetched → x.prog ≠ some p)) := by
  induction l with
  | nil => intro s; exact ⟨fun _ => rfl, rfl, rfl, rfl, fun j x h => ⟨h, fun y hy => by simp at hy⟩⟩
  | cons q l ih =>
    intro s
    obtain ⟨a, b, c, d, e⟩ := foldFetched q.1 (q.2.fetched.filter fun x => x.prog == some p) s
    obtain ⟨a', b', c', d', e'⟩ := ih ((q.2.fetched.filter fun x => x.prog == some p).foldl (fun s x => endFetched s q.1 x stDeadline) s)
    refine ⟨fun r => (a' r).trans (a r), b'.trans b, c'.trans c, d'.trans d, fun j x hx => ?_⟩
    obtain ⟨h1, h2⟩ := e' j x hx
    obtain ⟨h3, h4⟩ := e j x h1
    refine ⟨h3, fun y hy hxy hp => ?_⟩
    rcases List.mem_cons.mp hy with hy | hy
    · subst hy
      have := h4 rfl x (by simp [List.mem_filter, hxy, hp])
      rw [sameDesc_self] at this; simp at this
    · exact h2 y hy hxy hp

end Sys2Proof.Machine
end

