-- ==== Sys2Proof/Laws/SameRegCmds.lean ====
section
/-!
SUPPORT. What the definitions of Machine/RegCmds.lean may change (Laws/Same.lean).
-/

set_option linter.all false

namespace Sys2Proof.Machine

open Sys2Proof

theorem execInject_same {r₀ : State} {g₀ : Groups} {value : Word64} {s : State} {t₀} (e₀ : execInject value s = .next t₀)
    (h2 : Same g₀ r₀ s) (m_tw : g₀.tw = true) (m_mu : g₀.mu = true) (m_sv : g₀.sv = true) (m_i3c : g₀.i3c = true)
    : Same g₀ r₀ t₀ := by
  unfold execInject at e₀
  repeat' first | contradiction | (injection e₀ with e₀; subst e₀) | dsimp only at e₀ | (split at e₀)
  repeat' first
    | with_reducible assumption | intro _ | with_reducible apply writeInject_same | with_reducible apply ite_same
    | with_reducible apply foldl_same | (refine Same.ofSnd (by assumption) ?_) | dsimp only | split

theorem execSwap_same {r₀ : State} {g₀ : Groups} {die : Nat} {value : Word64} {s : State} {t₀}
    (e₀ : execSwap die value s = .next t₀) (h3 : Same g₀ r₀ s) (m_gz : g₀.gz = true) : Same g₀ r₀ t₀ := by
  unfold execSwap at e₀
  repeat' first | contradiction | (injection e₀ with e₀; subst e₀) | dsimp only at e₀ | (split at e₀)
  repeat' first
    | with_reducible assumption | intro _ | with_reducible apply writeGzCtl_same | with_reducible apply ite_same
    | with_reducible apply foldl_same | (refine Same.ofSnd (by assumption) ?_) | dsimp only | split

theorem execWarmReq_same {r₀ : State} {g₀ : Groups} {agent : Agent} {value : Word64} {s : State} {t₀}
    (e₀ : execWarmReq agent value s = .next t₀) (h3 : Same g₀ r₀ s) (m_sv : g₀.sv = true) : Same g₀ r₀ t₀ := by
  unfold execWarmReq at e₀
  repeat' first | contradiction | (injection e₀ with e₀; subst e₀) | dsimp only at e₀ | (split at e₀)
  repeat' first
    | with_reducible assumption | intro _ | with_reducible apply writeWarmReq_same | with_reducible apply ite_same
    | with_reducible apply foldl_same | (refine Same.ofSnd (by assumption) ?_) | dsimp only | split

theorem execTcCreditWrite_same {r₀ : State} {g₀ : Groups} {die : Nat} {agent : Agent} {value : Word64} {s : State} {t₀}
    (e₀ : execTcCreditWrite die agent value s = .next t₀) (h4 : Same g₀ r₀ s) (m_gz : g₀.gz = true) : Same g₀ r₀ t₀ := by
  unfold execTcCreditWrite at e₀
  repeat' first | contradiction | (injection e₀ with e₀; subst e₀) | dsimp only at e₀ | (split at e₀)
  repeat' first
    | with_reducible assumption | intro _ | with_reducible apply writeTcCredit_same | with_reducible apply ite_same
    | with_reducible apply foldl_same | (refine Same.ofSnd (by assumption) ?_) | dsimp only | split

theorem execRejoin_same {r₀ : State} {g₀ : Groups} {die : Nat} {value : Word64} {s : State} {t₀}
    (e₀ : execRejoin die value s = .next t₀) (h3 : Same g₀ r₀ s) (m_gz : g₀.gz = true) (m_qm : g₀.qm = true)
    (m_rings : g₀.rings = true) : Same g₀ r₀ t₀ := by
  unfold execRejoin at e₀
  repeat' first | contradiction | (injection e₀ with e₀; subst e₀) | dsimp only at e₀ | (split at e₀)
  repeat' first
    | with_reducible assumption | intro _ | with_reducible apply writeMcCtl_same | with_reducible apply ite_same
    | with_reducible apply foldl_same | (refine Same.ofSnd (by assumption) ?_) | dsimp only | split

theorem execHstreamFill_same {r₀ : State} {g₀ : Groups} {value : Word64} {s : State} {t₀}
    (e₀ : execHstreamFill value s = .next t₀) (h2 : Same g₀ r₀ s) (m_free : g₀.free = true) (m_regs : g₀.regs = true)
    (m_streams : g₀.streams = true) (m_sounds : g₀.sounds = true) (m_seqNo : g₀.seqNo = true) : Same g₀ r₀ t₀ := by
  unfold execHstreamFill at e₀
  repeat' first | contradiction | (injection e₀ with e₀; subst e₀) | dsimp only at e₀ | (split at e₀)
  repeat' first
    | with_reducible assumption | intro _ | with_reducible apply writeHstreamFill_same | with_reducible apply ite_same
    | with_reducible apply foldl_same | (refine Same.ofSnd (by assumption) ?_) | dsimp only | split

theorem execCounterClear_same {r₀ : State} {g₀ : Groups} {die off : Nat} {s : State} {t₀}
    (e₀ : execCounterClear die off s = .next t₀) (h3 : Same g₀ r₀ s) (m_regs : g₀.regs = true) : Same g₀ r₀ t₀ := by
  unfold execCounterClear at e₀
  repeat' first | contradiction | (injection e₀ with e₀; subst e₀) | dsimp only at e₀ | (split at e₀)
  repeat' first
    | with_reducible assumption | intro _ | with_reducible apply writeCounter_same | with_reducible apply ite_same
    | with_reducible apply foldl_same | (refine Same.ofSnd (by assumption) ?_) | dsimp only | split

theorem execFaultClear_same {r₀ : State} {g₀ : Groups} {i : Nat} {value : Word64} {s : State} {t₀}
    (e₀ : execFaultClear i value s = .next t₀) (h3 : Same g₀ r₀ s) (m_sv : g₀.sv = true) (m_sounds : g₀.sounds = true)
    (m_seqNo : g₀.seqNo = true) : Same g₀ r₀ t₀ := by
  unfold execFaultClear at e₀
  repeat' first | contradiction | (injection e₀ with e₀; subst e₀) | dsimp only at e₀ | (split at e₀)
  repeat' first
    | with_reducible assumption | intro _ | with_reducible apply writeFaultClear_same | with_reducible apply ite_same
    | with_reducible apply foldl_same | (refine Same.ofSnd (by assumption) ?_) | dsimp only | split

theorem execRegWrite_same {r₀ : State} {g₀ : Groups} {die off : Nat} {agent : Agent} {mask : Nat} {value : Word64} {s : State}
    {t₀} (e₀ : execRegWrite die off agent mask value s = .next t₀) (h6 : Same g₀ r₀ s) (m_free : g₀.free = true)
    (m_mem : g₀.mem = true) (m_regs : g₀.regs = true) (m_gz : g₀.gz = true) (m_ck : g₀.ck = true) (m_tw : g₀.tw = true)
    (m_mu : g₀.mu = true) (m_streams : g₀.streams = true) (m_qm : g₀.qm = true) (m_seq : g₀.seq = true) (m_img : g₀.img = true)
    (m_rings : g₀.rings = true) (m_snap : g₀.snap = true) (m_sv : g₀.sv = true) (m_sec : g₀.sec = true) (m_ct : g₀.ct = true)
    (m_host : g₀.host = true) (m_i3c : g₀.i3c = true) (m_sounds : g₀.sounds = true) (m_seqNo : g₀.seqNo = true)
    : Same g₀ r₀ t₀ := by
  unfold execRegWrite at e₀
  repeat' first | contradiction | (injection e₀ with e₀; subst e₀) | dsimp only at e₀ | (split at e₀)
  repeat' first
    | with_reducible assumption | intro _ | with_reducible apply maskedWrite_same | with_reducible apply ite_same
    | with_reducible apply foldl_same | (refine Same.ofSnd (by assumption) ?_) | dsimp only | split

theorem execCkPlanWrite_same {r₀ : State} {g₀ : Groups} {die : Nat} {agent : Agent} {value : Word64} {s : State} {t₀}
    (e₀ : execCkPlanWrite die agent value s = .next t₀) (h4 : Same g₀ r₀ s) (m_ck : g₀.ck = true) : Same g₀ r₀ t₀ := by
  unfold execCkPlanWrite at e₀
  repeat' first | contradiction | (injection e₀ with e₀; subst e₀) | dsimp only at e₀ | (split at e₀)
  repeat' first
    | with_reducible assumption | intro _ | with_reducible apply writePlan_same | with_reducible apply ite_same
    | with_reducible apply foldl_same | (refine Same.ofSnd (by assumption) ?_) | dsimp only | split

theorem execPanelRst_same {r₀ : State} {g₀ : Groups} {value : Word64} {s : State} {t₀} (e₀ : execPanelRst value s = .next t₀)
    (h2 : Same g₀ r₀ s) (m_regs : g₀.regs = true) (m_sv : g₀.sv = true) : Same g₀ r₀ t₀ := by
  unfold execPanelRst at e₀
  repeat' first | contradiction | (injection e₀ with e₀; subst e₀) | dsimp only at e₀ | (split at e₀)
  repeat' first
    | with_reducible assumption | intro _ | with_reducible apply writePanelRst_same | with_reducible apply ite_same
    | with_reducible apply foldl_same | (refine Same.ofSnd (by assumption) ?_) | dsimp only | split

theorem execResync_same {r₀ : State} {g₀ : Groups} {fire : Bool} {s : State} {t₀} (e₀ : execResync fire s = .next t₀)
    (h2 : Same g₀ r₀ s) (m_free : g₀.free = true) (m_regs : g₀.regs = true) (m_gz : g₀.gz = true) (m_ck : g₀.ck = true)
    (m_tw : g₀.tw = true) (m_mu : g₀.mu = true) (m_streams : g₀.streams = true) (m_qm : g₀.qm = true) (m_seq : g₀.seq = true)
    (m_img : g₀.img = true) (m_rings : g₀.rings = true) (m_snap : g₀.snap = true) (m_sv : g₀.sv = true) (m_sec : g₀.sec = true)
    (m_i3c : g₀.i3c = true) (m_sounds : g₀.sounds = true) (m_seqNo : g₀.seqNo = true) : Same g₀ r₀ t₀ := by
  unfold execResync at e₀
  repeat' first | contradiction | (injection e₀ with e₀; subst e₀) | dsimp only at e₀ | (split at e₀)
  repeat' first
    | with_reducible assumption | intro _ | with_reducible apply writeDatumCtl_same | with_reducible apply ite_same
    | with_reducible apply foldl_same | (refine Same.ofSnd (by assumption) ?_) | dsimp only | split

theorem execDirLookup_same {r₀ : State} {g₀ : Groups} {die : Nat} {value : Word64} {s : State} {t₀}
    (e₀ : execDirLookup die value s = .next t₀) (h3 : Same g₀ r₀ s) (m_regs : g₀.regs = true) : Same g₀ r₀ t₀ := by
  unfold execDirLookup at e₀
  repeat' first | contradiction | (injection e₀ with e₀; subst e₀) | dsimp only at e₀ | (split at e₀)
  repeat' first
    | with_reducible assumption | intro _ | with_reducible apply writeDirCtl_same | with_reducible apply ite_same
    | with_reducible apply foldl_same | (refine Same.ofSnd (by assumption) ?_) | dsimp only | split

theorem execPerPanelReset_same {r₀ : State} {g₀ : Groups} {panel : Nat} {s : State} {t₀}
    (e₀ : execPerPanelReset panel s = .next t₀) (h2 : Same g₀ r₀ s) (m_regs : g₀.regs = true) (m_gz : g₀.gz = true)
    (m_tw : g₀.tw = true) (m_mu : g₀.mu = true) (m_streams : g₀.streams = true) (m_qm : g₀.qm = true) (m_sv : g₀.sv = true)
    : Same g₀ r₀ t₀ := by
  unfold execPerPanelReset at e₀
  repeat' first | contradiction | (injection e₀ with e₀; subst e₀) | dsimp only at e₀ | (split at e₀)
  repeat' first
    | with_reducible assumption | intro _ | with_reducible apply resetPanel_same | with_reducible apply regSet_same
    | with_reducible apply State.onSv_same | with_reducible apply ite_same | with_reducible apply foldl_same
    | (refine Same.ofSnd (by assumption) ?_) | dsimp only | split

theorem execCtCtlWrite_same {r₀ : State} {g₀ : Groups} {value : Word64} {s : State} {t₀} (e₀ : execCtCtlWrite value s = .next t₀)
    (h2 : Same g₀ r₀ s) (m_ct : g₀.ct = true) : Same g₀ r₀ t₀ := by
  unfold execCtCtlWrite at e₀
  repeat' first | contradiction | (injection e₀ with e₀; subst e₀) | dsimp only at e₀ | (split at e₀)
  repeat' first
    | with_reducible assumption | intro _ | with_reducible apply writeCtCtl_same | with_reducible apply ite_same
    | with_reducible apply foldl_same | (refine Same.ofSnd (by assumption) ?_) | dsimp only | split

theorem execDatumCtlFire_same {r₀ : State} {g₀ : Groups} {s : State} {t₀} (e₀ : execDatumCtlFire s = .next t₀) (h1 : Same g₀ r₀ s)
    (m_ck : g₀.ck = true) (m_sounds : g₀.sounds = true) (m_seqNo : g₀.seqNo = true) : Same g₀ r₀ t₀ := by
  unfold execDatumCtlFire at e₀
  repeat' first | contradiction | (injection e₀ with e₀; subst e₀) | dsimp only at e₀ | (split at e₀)
  repeat' first
    | with_reducible assumption | intro _ | with_reducible apply requestDatum_same | with_reducible apply ite_same
    | with_reducible apply foldl_same | (refine Same.ofSnd (by assumption) ?_) | dsimp only | split

theorem execMboxGo_same {r₀ : State} {g₀ : Groups} {value : Word64} {s : State} {t₀} (e₀ : execMboxGo value s = .next t₀)
    (h2 : Same g₀ r₀ s) (m_free : g₀.free = true) (m_mem : g₀.mem = true) (m_regs : g₀.regs = true) (m_mu : g₀.mu = true)
    (m_qm : g₀.qm = true) (m_sv : g₀.sv = true) (m_host : g₀.host = true) (m_i3c : g₀.i3c = true) (m_sounds : g₀.sounds = true)
    (m_seqNo : g₀.seqNo = true) : Same g₀ r₀ t₀ := by
  unfold execMboxGo at e₀
  repeat' first | contradiction | (injection e₀ with e₀; subst e₀) | dsimp only at e₀ | (split at e₀)
  repeat' first
    | with_reducible assumption | intro _ | with_reducible apply startMbox_same | with_reducible apply ite_same
    | with_reducible apply foldl_same | (refine Same.ofSnd (by assumption) ?_) | dsimp only | split

theorem execSnapHostRel_same {r₀ : State} {g₀ : Groups} {value : Word64} {s : State} {t₀}
    (e₀ : execSnapHostRel value s = .next t₀) (h2 : Same g₀ r₀ s) (m_free : g₀.free = true) (m_mem : g₀.mem = true)
    (m_regs : g₀.regs = true) (m_mu : g₀.mu = true) (m_qm : g₀.qm = true) (m_snap : g₀.snap = true) (m_sv : g₀.sv = true)
    (m_i3c : g₀.i3c = true) (m_sounds : g₀.sounds = true) (m_seqNo : g₀.seqNo = true) : Same g₀ r₀ t₀ := by
  unfold execSnapHostRel at e₀
  repeat' first | contradiction | (injection e₀ with e₀; subst e₀) | dsimp only at e₀ | (split at e₀)
  repeat' first
    | with_reducible assumption | intro _ | with_reducible apply writeHostRel_same | with_reducible apply ite_same
    | with_reducible apply foldl_same | (refine Same.ofSnd (by assumption) ?_) | dsimp only | split

end Sys2Proof.Machine
end

