-- ==== Sys2Proof/Laws/Registers.lean ====
section
/-!
SUPPORT. What the shared operations of register writes do.
-/

namespace Sys2Proof.Machine

open Sys2Proof

theorem endEarly_ck (s : State) (d : Disp) (st : Nat) : (endEarly s d st).ck = s.ck :=
  (endEarly_same (g₀ := { free := true, gz := true, tw := true, mu := true, streams := true, qm := true, seq := true, img := true, rings := true, snap := true, sec := true }) (Same.refl _ s) rfl rfl rfl rfl rfl rfl rfl rfl rfl rfl rfl).ck rfl
theorem countExpiry_frame (s : State) (u : UnitId) : Same { regs := true, sv := true, i3c := true, sounds := true, seqNo := true } s (countExpiry s u) :=
  countExpiry_same (Same.refl _ s) rfl rfl rfl rfl rfl
theorem expireList (l : List Disp) : ∀ s : State,
    (l.foldl (fun s x => endEarly (countExpiry s x.unit) x stDeadline) s).ck = s.ck ∧
    (∀ y, y ∈ (l.foldl (fun s x => endEarly (countExpiry s x.unit) x stDeadline) s).qm.disp → y ∈ s.qm.disp ∧ ∀ x, x ∈ l → sameDesc y.hdr x.hdr = false) := by
  induction l with
  | nil => exact fun s => ⟨rfl, fun y h => ⟨h, fun x hx => by simp at hx⟩⟩
  | cons a l ih =>
    intro s
    obtain ⟨h1, h2⟩ := ih (endEarly (countExpiry s a.unit) a stDeadline)
    have E := endEarly_ends (countExpiry s a.unit) a stDeadline
    have C := countExpiry_frame s a.unit
    refine ⟨h1.trans ((endEarly_ck _ _ _).trans (C.ck rfl)), fun y hy => ?_⟩
    obtain ⟨h3, h4⟩ := h2 y hy
    rw [E.disp, C.qm rfl, List.mem_filter] at h3
    refine ⟨h3.1, fun x hx => ?_⟩
    rcases List.mem_cons.mp hx with rfl | hx
    · simpa using h3.2
    · exact h4 x hx
theorem expireArmed_is (s : State) (d : Nat) : (expireArmed s d).ck = s.ck ∧
    (∀ y, y ∈ (expireArmed s d).qm.disp → y ∈ s.qm.disp ∧ (y.armed = true → y.started = false → y.unit.die ≠ d)) := by
  obtain ⟨h1, h2⟩ := expireList (armedOn s d) s
  refine ⟨h1, fun y hy => ?_⟩
  obtain ⟨h3, h4⟩ := h2 y hy
  refine ⟨h3, fun a b e => ?_⟩
  have := h4 y (by simp [armedOn, List.mem_filter, h3, a, b, e])
  rw [sameDesc_self] at this; simp at this
theorem expireAll (l : List Nat) : ∀ s : State, (l.foldl expireArmed s).ck = s.ck ∧
    (∀ y, y ∈ (l.foldl expireArmed s).qm.disp → y ∈ s.qm.disp ∧ (y.armed = true → y.started = false → y.unit.die ∉ l)) := by
  induction l with
  | nil => exact fun s => ⟨rfl, fun y h => ⟨h, fun _ _ => by simp⟩⟩
  | cons d l ih =>
    intro s
    obtain ⟨a, b⟩ := ih (expireArmed s d)
    obtain ⟨c, e⟩ := expireArmed_is s d
    refine ⟨a.trans c, fun y hy => ?_⟩
    obtain ⟨h1, h2⟩ := b y hy
    obtain ⟨h3, h4⟩ := e y h1
    exact ⟨h3, fun p q => by simp only [List.mem_cons, not_or]; exact ⟨h4 p q, h2 p q⟩⟩
theorem sampleDatum_pend (s : State) (b : Bool) (n d : Nat) : (sampleDatum s b n d).ck.pending = s.ck.pending := by
  unfold sampleDatum
  split
  · rfl
  · dsimp only
    split
    · rw [(expireArmed_is _ _).1]
      generalize hX : s.onCk _ = X
      rw [(setSticky_same (g₀ := { sv := true, i3c := true }) (Same.refl _ X) rfl rfl).ck rfl, ← hX]; rfl
    · rfl
/-- What one request does to the clocks (R60). -/
theorem requestDatum_ck (s : State) : (requestDatum s).ck =
    if s.ck.pending < 16 then { s.ck with pending := s.ck.pending + 1 } else { s.ck with dropCnt := min (s.ck.dropCnt + 1) (2 ^ 48) } := by
  unfold requestDatum
  split
  · rfl
  · unfold dropRequests; dsimp only
    split
    · exact (emitSounding_same (g₀ := { sounds := true, seqNo := true }) (Same.refl _ _) rfl rfl).ck rfl
    · rfl
/-- When a request writes a Sounding (R430). -/
theorem requestDatum_sounds (s : State) :
    (s.ck.pending < 16 ∨ s.ck.dropCnt ≠ 2 ^ 48 - 1 → (requestDatum s).sounds = s.sounds ∧ (requestDatum s).seqNo = s.seqNo) ∧
    (16 ≤ s.ck.pending → s.ck.dropCnt = 2 ^ 48 - 1 →
      (requestDatum s).sounds = (emitSounding s 0 63 1 [regBase + 0x4030, 0]).sounds) := by
  unfold requestDatum dropRequests
  constructor
  · intro h
    split
    · exact ⟨rfl, rfl⟩
    · dsimp only
      rw [if_neg (by simp only [Bool.and_eq_true, decide_eq_true_eq]; omega)]; exact ⟨rfl, rfl⟩
  · intro h k
    rw [if_neg (by omega)]
    dsimp only
    rw [if_pos (by simp [k])]
    by_cases c : 16 ≤ (s.sounds.filter fun x => x.die == 0 && x.unit == 63).length
    · have e : ∀ z : State, z.sounds = s.sounds → (emitSounding z 0 63 1 [regBase + 0x4030, 0]).sounds = s.sounds := by
        intro z hz; unfold emitSounding; dsimp only; rw [if_pos (by rw [State.onSeqNo_sounds, hz]; exact c), State.onSeqNo_sounds, hz]
      exact (e (s.onCk _) rfl).trans (e s rfl).symm
    · unfold emitSounding; dsimp only
      rw [if_neg (by exact c), if_neg (by exact c)]; rfl
/-- What a recovery counts (R430). -/
theorem countRecovery_is (s : State) : (countRecovery s).sv =
      { s.sv with recovery := min (s.sv.recovery + 1) (2 ^ 32 - 1), recoverySat := s.sv.recoverySat || decide (2 ^ 32 - 1 ≤ s.sv.recovery) } ∧
    (s.sv.recovery < 2 ^ 32 - 1 ∨ s.sv.recoverySat = true → (countRecovery s).sounds = s.sounds) := by
  unfold countRecovery
  split
  · next h =>
    refine ⟨?_, fun _ => rfl⟩
    rw [show min (s.sv.recovery + 1) (2 ^ 32 - 1) = s.sv.recovery + 1 by omega, decide_eq_false (by omega), Bool.or_false]; rfl
  · next h =>
    dsimp only
    rw [show min (s.sv.recovery + 1) (2 ^ 32 - 1) = 2 ^ 32 - 1 by omega, decide_eq_true (by omega), Bool.or_true]
    split
    · exact ⟨rfl, fun _ => rfl⟩
    · next k => exact ⟨(emitSounding_same (g₀ := { sounds := true, seqNo := true }) (Same.refl _ _) rfl rfl).sv rfl, fun h' => by rcases h' with h' | h'; exact absurd h' h; exact absurd h' k⟩
theorem resyncDatum_is (s : State) : (resyncDatum s).ck.count = [] ∧ (resyncDatum s).ck.err = [] ∧ (resyncDatum s).ck.sent = 0 ∧ (resyncDatum s).ck.pending = 0 ∧
    ∀ x, x ∈ (resyncDatum s).qm.disp → x.armed = true → x.started = false → x.unit.die ∉ datumDies := by
  unfold resyncDatum
  dsimp only
  generalize hX : (dropRequests s s.ck.pending).onCk _ = X
  have hx : X.ck.pending = 0 := by rw [← hX]; rfl
  clear hX
  have fin : ∀ Y : State, Y.ck.pending = 0 → ∀ Z, Z = (datumDies.foldl expireArmed Y).onCk (fun c => { c with count := [], err := [], sent := 0 }) →
      Z.ck.count = [] ∧ Z.ck.err = [] ∧ Z.ck.sent = 0 ∧ Z.ck.pending = 0 ∧
      ∀ x, x ∈ Z.qm.disp → x.armed = true → x.started = false → x.unit.die ∉ datumDies := by
    rintro Y hY Z rfl
    obtain ⟨a, b⟩ := expireAll datumDies Y
    generalize datumDies.foldl expireArmed Y = W at *
    refine ⟨rfl, rfl, rfl, ?_, fun x hx' => (b x hx').2⟩
    show W.ck.pending = 0; rw [a]; exact hY
  split
  · refine fin _ ?_ _ rfl
    unfold expireErred
    rw [(expireAll _ _).1]
    unfold datumSampled
    have hf : ∀ (l : List Nat) (s : State) (bad : Nat → Bool) (n : Nat), (l.foldl (fun s d => sampleDatum s (bad d) n d) s).ck.pending = s.ck.pending := by
      intro l; induction l with
      | nil => intros; rfl
      | cons d l ih => intro s bad n; rw [List.foldl_cons, ih, sampleDatum_pend]
    exact (hf datumDies _ (fun d => List.contains [] d) _).trans hx
  · exact fin _ hx _ rfl
theorem setSticky_mono (s : State) (k x : Nat) (h : x ∈ s.sv.sticky) : x ∈ (setSticky s k).sv.sticky := by
  unfold setSticky; dsimp only; split
  · unfold raiseIbi; split <;> exact (mem_ins _ _ _).mpr (Or.inr h)
  · exact (mem_ins _ _ _).mpr (Or.inr h)
theorem clr (i v k : Nat) : (((List.range 64).filter (bit v)).map (· + 64 * i)).contains k = (k / 64 == i && bit v (k % 64)) := by
  rw [Bool.eq_iff_iff, List.contains_iff_mem, List.mem_map]
  simp only [List.mem_filter, List.mem_range, Bool.and_eq_true, beq_iff_eq]
  constructor
  · rintro ⟨a, ⟨h1, h2⟩, rfl⟩
    rw [show (a + 64 * i) / 64 = i by omega, show (a + 64 * i) % 64 = a by omega]; exact ⟨rfl, h2⟩
  · rintro ⟨h1, h2⟩; exact ⟨k % 64, ⟨by omega, h2⟩, by omega⟩
theorem setSticky_inject (s : State) (k : Nat) : (setSticky s k).sv.inject = s.sv.inject := by
  unfold setSticky; dsimp only; split
  · unfold raiseIbi; split <;> rfl
  · rfl
/-- cores of a fold of restarts -/
theorem zeroTiles_cores (g : Nat) (l : List Nat) : ∀ s, (l.foldl (fun s t => zeroTile s g t) s).tw.cores = s.tw.cores := by
  induction l with
  | nil => exact fun s => rfl
  | cons a l ih => exact fun s => (ih _).trans rfl
theorem restartCore_cores (s : State) (g : Nat) : (restartCore s g).tw.cores = del s.tw.cores g := by
  unfold restartCore
  dsimp only
  show del (State.tw (List.foldl _ _ _)).cores g = _
  rw [zeroTiles_cores]
  congr 1
  split
  · split <;> rfl
  · split <;> rfl
theorem liftFence_core (s : State) (g : Nat) : (liftFence s (coreUnit g)).tw.cores = s.tw.cores ∨ ∃ v, (liftFence s (coreUnit g)).tw.cores = put s.tw.cores g v := by
  have e : 4 * ((coreUnit g).die - 2) + (coreUnit g).unit = g := by simp only [coreUnit]; omega
  unfold liftFence
  dsimp only
  rw [e]
  split
  · exact Or.inr ⟨_, rfl⟩
  · left; repeat' split
    all_goals rfl
theorem restarts (l : List Nat) : ∀ s : State, rising none s.tw.cores = true →
    ∀ g, g ∈ l ∨ look s.tw.cores g = none → look (l.foldl (fun s g => restartCore (liftFence s (coreUnit g)) g) s).tw.cores g = none := by
  induction l with
  | nil => intro s h g k; rcases k with k | k; simp at k; exact k
  | cons a l ih =>
    intro s h g k
    have h1 : rising none (liftFence s (coreUnit a)).tw.cores = true := by
      rcases liftFence_core s a with e | ⟨v, e⟩ <;> rw [e]
      · exact h
      · exact put_rising _ _ _ h
    refine ih _ (by rw [restartCore_cores]; exact del_rising _ _ h1) g ?_
    rw [restartCore_cores]
    by_cases e : g = a
    · subst e; right; exact look_del_self _ _ h1
    · rcases k with k | k
      · left; simpa [e] using k
      · right; rw [look_del_ne _ _ _ e]
        rcases liftFence_core s a with f | ⟨v, f⟩ <;> rw [f]
        · exact k
        · rw [look_put_ne _ _ _ _ e]; exact k
/-- Queues made fresh one after another, whatever else each step does to rings: every one of them is fresh at the end. -/
theorem setQ_mono (g : State → Nat → State) (hg : ∀ s a q, queueOf (g s a) q = queueOf s q) (l : List Nat) (q : Nat) : ∀ s : State,
    queueOf s q = freshQueue ∨ q ∈ l → queueOf (l.foldl (fun s q => setQueue (g s q) q fun _ => freshQueue) s) q = freshQueue := by
  induction l with
  | nil => intro s h; rcases h with h | h; exact h; simp at h
  | cons a l ih =>
    intro s h
    refine ih _ ?_
    by_cases e : q = a
    · subst e; left; simp [queueOf_setQueue]
    · rcases h with h | h
      · left; rw [queueOf_setQueue_ne _ _ _ _ e, hg]; exact h
      · right; simpa [e] using h
theorem startMbox_plain {s : State} {v : Nat} (b : bit v 2 = false) :
    startMbox s v = if !bit v 0 then s else if s.host.busy then bump s 0 0x50010 else postMbox s := by
  unfold startMbox; simp only [b, Bool.false_eq_true, if_false]
theorem bumpBy_regs_congr {a b : State} {d o n : Nat} (h : a.regs = b.regs) : (bumpBy a d o n).regs = (bumpBy b d o n).regs := by
  have hg : ∀ x y z w, regGet a x y z w = regGet b x y z w := by intros; simp [regGet, h]
  have he : ∀ (s : State) d u k bd, (emitSounding s d u k bd).regs = s.regs := by
    intro s d u k bd; unfold emitSounding; dsimp only; split <;> rfl
  unfold bumpBy
  simp only [hg]
  split
  · split
    · exact h
    · simp [regSet, h]
  · split
    · simp [regSet, h]
    · simp [he, regSet, h]
theorem setStrms (l : List Rec) (f : Rec → Strm → Strm) (P : Strm → Prop) (hf : ∀ r x, P (f r x)) (n : Nat) : ∀ s : State,
    P (strmOf s n) ∨ (∃ r, r ∈ l ∧ fld r 0 = n) → P (strmOf (l.foldl (fun s r => setStrm s (fld r 0) (f r)) s) n) := by
  induction l with
  | nil => intro s h; rcases h with h | ⟨r, h, _⟩; exact h; simp at h
  | cons a l ih =>
    intro s h
    refine ih _ ?_
    by_cases e : fld a 0 = n
    · subst e; left; simp only [strmOf, setStrm, State.onStreams_streams, lookD_put_self]; exact hf _ _
    · rcases h with h | ⟨r, hr, rfl⟩
      · left; simp only [strmOf, setStrm, State.onStreams_streams, lookD_put_ne _ _ _ _ _ (Ne.symm e)]; exact h
      · right
        rcases List.mem_cons.mp hr with rfl | hr
        · exact absurd rfl e
        · exact ⟨r, hr, rfl⟩
theorem resetPanel_is (s : State) (p : Nat) (hr : rising none s.tw.cores = true) :
    (∀ g, g ∈ panelCores s p → dieUp s (2 + g / 4) = true → coreOf (resetPanel s p) g = {}) ∧
    (∀ q, q ∈ panelQueues s p → queueOf (resetPanel s p) q = freshQueue) ∧
    (∀ r, r ∈ sect s 0x13 → fld r 1 = p →
      (strmOf (resetPanel s p) (fld r 0)).st = sIdle ∧ (strmOf (resetPanel s p) (fld r 0)).fill = 0 ∧ (strmOf (resetPanel s p) (fld r 0)).rel = 0) := by
  unfold resetPanel
  dsimp only
  generalize hA : List.foldl (fun s g => restartCore (liftFence s (coreUnit g)) g) s _ = A
  have a0 : Same { tw := true, mu := true, sv := true } s A := by
    rw [← hA]; exact foldl_same (Same.refl _ _) fun s x h => restartCore_same (liftFence_same h rfl rfl) rfl rfl
  have a1 : ∀ g, g ∈ panelCores s p → dieUp s (2 + g / 4) = true → look A.tw.cores g = none := by
    intro g h1 h2; rw [← hA]; exact restarts _ _ hr g (Or.inl (List.mem_filter.mpr ⟨h1, h2⟩))
  clear hA
  have qr : ∀ q, queueRec A q = queueRec s q := by intro q; unfold queueRec queue0Up recBy sect; rw [a0.qm rfl, a0.img rfl]
  have pq : panelQueues A p = panelQueues s p := by
    unfold panelQueues; rw [a0.qm rfl]; congr 1; funext q; unfold panelOfQueue; rw [qr]
  rw [pq]
  let gq : State → Nat → State := fun s q =>
    match cringOf s q with | some n => if (queueOf s q).retry then releaseSlot s n else s | none => s
  have hgq : ∀ s a, (gq s a).qm.queues = s.qm.queues ∧ Same { qm := true } s (gq s a) := by
    intro s a; show (match cringOf s a with | some n => _ | none => _ : State).qm.queues = _ ∧ Same _ s (match cringOf s a with | some n => _ | none => _ : State)
    split
    · split
      · exact ⟨rfl, releaseSlot_same (Same.refl _ _) rfl⟩
      · exact ⟨rfl, Same.refl _ _⟩
    · exact ⟨rfl, Same.refl _ _⟩
  generalize hB : List.foldl _ A (panelQueues s p) = B
  have hB' : (panelQueues s p).foldl (fun s q => setQueue (gq s q) q fun _ => freshQueue) A = B := hB
  have b0 : Same { qm := true } A B := by
    rw [← hB']; exact foldl_same (Same.refl _ _) fun s x h => setQueue_same (Same.trans h (hgq _ _).2) rfl
  have b1 : ∀ q, q ∈ panelQueues s p → queueOf B q = freshQueue := fun q h => by
    rw [← hB']; exact setQ_mono gq (fun s a q => by unfold queueOf; rw [(hgq s a).1]) _ q _ (Or.inr h)
  clear hB'
  clear hB
  have se : sect B 0x13 = sect s 0x13 := by simp only [sect, b0.img rfl, a0.img rfl]
  rw [se]
  generalize hC : List.foldl _ B _ = C
  have c0 : Same { streams := true } B C := by
    rw [← hC]; exact foldl_same (Same.refl _ _) fun s x h => setStrm_same h rfl
  have c1 : ∀ r, r ∈ sect s 0x13 → fld r 1 = p → (strmOf C (fld r 0)).st = sIdle ∧ (strmOf C (fld r 0)).fill = 0 ∧ (strmOf C (fld r 0)).rel = 0 := by
    intro r h1 h2
    rw [← hC]
    exact setStrms _ _ (fun x => x.st = sIdle ∧ x.fill = 0 ∧ x.rel = 0) (fun _ _ => ⟨rfl, rfl, rfl⟩) _ _ (Or.inr ⟨r, List.mem_filter.mpr ⟨h1, by simp [h2]⟩, rfl⟩)
  clear hC
  generalize hD : C.onMu _ = D
  have d0 : Same { mu := true } C D := by rw [← hD]; exact State.onMu_same (Same.refl _ _) rfl
  clear hD
  generalize hE : List.foldl _ D _ = E
  have e0 : Same { gz := true } D E := by
    rw [← hE]; exact foldl_same (Same.refl _ _) fun s x h => State.onGz_same h rfl
  clear hE
  refine ⟨fun g h1 h2 => ?_, fun q h => ?_, fun r h1 h2 => ?_⟩
  · rw [coreOf, e0.tw rfl, d0.tw rfl, c0.tw rfl, b0.tw rfl, lookD, a1 g h1 h2]; rfl
  · rw [queueOf, e0.qm rfl, d0.qm rfl, c0.qm rfl]; exact b1 q h
  · have := c1 r h1 h2
    simp only [strmOf, e0.streams rfl, d0.streams rfl] at *; exact this

end Sys2Proof.Machine
end

