-- ==== Sys2Proof/Laws/SameTwin.lean ====
section
/-!
SUPPORT. What the definitions of Machine/Twin.lean may change (Laws/Same.lean).
-/

set_option linter.all false

namespace Sys2Proof.Machine

open Sys2Proof

theorem addRec_same {r₀ : State} {g₀ : Groups} {g : SnapRun} {payload : List Byte} (h1 : Same g₀ r₀ g.st)
    (m_free : g₀.free = true) : Same g₀ r₀ (addRec g payload).st := by
  unfold addRec
  repeat' first
    | with_reducible assumption | intro _ | with_reducible apply State.took_same | with_reducible apply ite_same
    | with_reducible apply foldl_same | (with_reducible refine foldl_same_of SnapRun.st ?_ ?_)
    | (refine Same.ofSnd (by assumption) ?_) | dsimp only | split

theorem snapPart_same {r₀ : State} {g₀ : Groups} {h : Hdr} {g : SnapRun} {r : Range} (h2 : Same g₀ r₀ g.st)
    (m_free : g₀.free = true) (m_mem : g₀.mem = true) (m_regs : g₀.regs = true) (m_mu : g₀.mu = true) (m_sv : g₀.sv = true)
    (m_i3c : g₀.i3c = true) (m_sounds : g₀.sounds = true) (m_seqNo : g₀.seqNo = true) : Same g₀ r₀ (snapPart h g r).st := by
  unfold snapPart
  repeat' first
    | with_reducible assumption | intro _ | with_reducible apply addRec_same | with_reducible apply checkRead_same
    | with_reducible apply ite_same | with_reducible apply ite_same_snd | with_reducible apply foldl_same
    | with_reducible apply foldl_same_snd | (with_reducible refine foldl_same_of SnapRun.st ?_ ?_)
    | (refine Same.ofSnd (by assumption) ?_) | dsimp only | split

theorem execYield_same {r₀ : State} {g₀ : Groups} {s : State} {t₀} (e₀ : execYield s = .next t₀) (h1 : Same g₀ r₀ s)
    (m_pkg : g₀.pkg = true) (m_rings : g₀.rings = true) (m_twin : g₀.twin = true) (m_sv : g₀.sv = true) : Same g₀ r₀ t₀ := by
  unfold execYield at e₀
  repeat' first | contradiction | (injection e₀ with e₀; subst e₀) | dsimp only at e₀ | (split at e₀)
  repeat' first
    | with_reducible assumption | intro _ | with_reducible apply enterYield_same | with_reducible apply ite_same
    | with_reducible apply foldl_same | (refine Same.ofSnd (by assumption) ?_) | dsimp only | split

theorem execJournalBaseEnd_same {r₀ : State} {g₀ : Groups} {r : JRec} {s : State} {t₀} (e₀ : execJournalBaseEnd r s = .next t₀)
    (h2 : Same g₀ r₀ s) (m_mem : g₀.mem = true) (m_regs : g₀.regs = true) (m_mu : g₀.mu = true) (m_twin : g₀.twin = true)
    (m_sv : g₀.sv = true) (m_i3c : g₀.i3c = true) (m_sounds : g₀.sounds = true) (m_seqNo : g₀.seqNo = true) : Same g₀ r₀ t₀ := by
  unfold execJournalBaseEnd at e₀
  repeat' first | contradiction | (injection e₀ with e₀; subst e₀) | dsimp only at e₀ | (split at e₀)
  repeat' first
    | with_reducible assumption | intro _ | with_reducible apply receiveJournal_same | with_reducible apply ite_same
    | with_reducible apply foldl_same | (refine Same.ofSnd (by assumption) ?_) | dsimp only | split

theorem snapRow_same {r₀ : State} {g₀ : Groups} {s : State} {tr sr : Rec} {t row : Nat} (h1 : Same g₀ r₀ s)
    (m_mem : g₀.mem = true) (m_regs : g₀.regs = true) (m_mu : g₀.mu = true) (m_sv : g₀.sv = true) (m_i3c : g₀.i3c = true)
    (m_sounds : g₀.sounds = true) (m_seqNo : g₀.seqNo = true) : Same g₀ r₀ (snapRow s tr sr t row).2 := by
  unfold snapRow
  repeat' first
    | with_reducible assumption | intro _ | with_reducible apply checkRead_same | with_reducible apply ite_same
    | with_reducible apply ite_same_snd | with_reducible apply foldl_same | with_reducible apply foldl_same_snd
    | (refine Same.ofSnd (by assumption) ?_) | dsimp only | split

theorem snapRows_same {r₀ : State} {g₀ : Groups} {s : State} {tr sr : Rec} {t a4 a5 : Nat} (h1 : Same g₀ r₀ s)
    (m_mem : g₀.mem = true) (m_regs : g₀.regs = true) (m_mu : g₀.mu = true) (m_sv : g₀.sv = true) (m_i3c : g₀.i3c = true)
    (m_sounds : g₀.sounds = true) (m_seqNo : g₀.seqNo = true) : Same g₀ r₀ (snapRows s tr sr t a4 a5).2 := by
  induction a4 generalizing s a5 with
  | zero =>
    unfold snapRows
    repeat' first
      | with_reducible assumption | intro _ | with_reducible apply snapRow_same | with_reducible apply ite_same
      | with_reducible apply ite_same_snd | with_reducible apply foldl_same | with_reducible apply foldl_same_snd
      | (refine Same.ofSnd (by assumption) ?_) | dsimp only | split
  | succ _ ih =>
    unfold snapRows
    repeat' first
      | with_reducible assumption | intro _ | with_reducible apply ih | with_reducible apply snapRow_same
      | with_reducible apply ite_same | with_reducible apply ite_same_snd | with_reducible apply foldl_same
      | with_reducible apply foldl_same_snd | (refine Same.ofSnd (by assumption) ?_) | dsimp only | split

theorem snapShard_same {r₀ : State} {g₀ : Groups} {tr : Rec} {g : SnapRun} {sr : Rec} (h2 : Same g₀ r₀ g.st)
    (m_free : g₀.free = true) (m_mem : g₀.mem = true) (m_regs : g₀.regs = true) (m_mu : g₀.mu = true) (m_sv : g₀.sv = true)
    (m_i3c : g₀.i3c = true) (m_sounds : g₀.sounds = true) (m_seqNo : g₀.seqNo = true) : Same g₀ r₀ (snapShard tr g sr).st := by
  unfold snapShard
  repeat' first
    | with_reducible assumption | intro _ | with_reducible apply addRec_same | with_reducible apply snapRows_same
    | with_reducible apply ite_same | with_reducible apply ite_same_snd | with_reducible apply foldl_same
    | with_reducible apply foldl_same_snd | (with_reducible refine foldl_same_of SnapRun.st ?_ ?_)
    | (refine Same.ofSnd (by assumption) ?_) | dsimp only | split

theorem snapTable_same {r₀ : State} {g₀ : Groups} {g : SnapRun} {tr : Rec} (h1 : Same g₀ r₀ g.st) (m_free : g₀.free = true)
    (m_mem : g₀.mem = true) (m_regs : g₀.regs = true) (m_mu : g₀.mu = true) (m_sv : g₀.sv = true) (m_i3c : g₀.i3c = true)
    (m_sounds : g₀.sounds = true) (m_seqNo : g₀.seqNo = true) : Same g₀ r₀ (snapTable g tr).st := by
  unfold snapTable
  repeat' first
    | with_reducible assumption | intro _ | with_reducible apply addRec_same | with_reducible apply snapShard_same
    | with_reducible apply ite_same | with_reducible apply foldl_same | (with_reducible refine foldl_same_of SnapRun.st ?_ ?_)
    | (refine Same.ofSnd (by assumption) ?_) | dsimp only | split

theorem takeBack_same {r₀ : State} {g₀ : Groups} {s : State} {step : Nat} (h1 : Same g₀ r₀ s) (m_free : g₀.free = true)
    (m_pkg : g₀.pkg = true) (m_regs : g₀.regs = true) (m_gz : g₀.gz = true) (m_qm : g₀.qm = true) (m_seq : g₀.seq = true)
    (m_rings : g₀.rings = true) (m_twin : g₀.twin = true) (m_sounds : g₀.sounds = true) (m_seqNo : g₀.seqNo = true)
    : Same g₀ r₀ (takeBack s step) := by
  unfold takeBack
  repeat' first
    | with_reducible assumption | intro _ | with_reducible apply enterBase_same | with_reducible apply State.onSeq_same
    | with_reducible apply dropCause_same | with_reducible apply startRun_same | with_reducible apply ite_same
    | with_reducible apply foldl_same | (refine Same.ofSnd (by assumption) ?_) | dsimp only | split

theorem execJournalEnd_same {r₀ : State} {g₀ : Groups} {r : JRec} {s : State} {t₀} (e₀ : execJournalEnd r s = .next t₀)
    (h2 : Same g₀ r₀ s) (m_mem : g₀.mem = true) (m_regs : g₀.regs = true) (m_mu : g₀.mu = true) (m_twin : g₀.twin = true)
    (m_sv : g₀.sv = true) (m_i3c : g₀.i3c = true) (m_sounds : g₀.sounds = true) (m_seqNo : g₀.seqNo = true) : Same g₀ r₀ t₀ := by
  unfold execJournalEnd at e₀
  repeat' first | contradiction | (injection e₀ with e₀; subst e₀) | dsimp only at e₀ | (split at e₀)
  repeat' first
    | with_reducible assumption | intro _ | with_reducible apply receiveJournal_same | with_reducible apply ite_same
    | with_reducible apply foldl_same | (refine Same.ofSnd (by assumption) ?_) | dsimp only | split

theorem snapTensor_same {r₀ : State} {g₀ : Groups} {h : Hdr} {o : SnapOp} {g : SnapRun} {i : Nat} (h3 : Same g₀ r₀ g.st)
    (m_free : g₀.free = true) (m_mem : g₀.mem = true) (m_regs : g₀.regs = true) (m_mu : g₀.mu = true) (m_sv : g₀.sv = true)
    (m_i3c : g₀.i3c = true) (m_sounds : g₀.sounds = true) (m_seqNo : g₀.seqNo = true) : Same g₀ r₀ (snapTensor h o g i).st := by
  unfold snapTensor
  repeat' first
    | with_reducible assumption | intro _ | with_reducible apply snapPart_same | with_reducible apply ite_same
    | with_reducible apply foldl_same | (with_reducible refine foldl_same_of SnapRun.st ?_ ?_)
    | (refine Same.ofSnd (by assumption) ?_) | dsimp only | split

theorem snapStream_same {r₀ : State} {g₀ : Groups} {s : State} {h : Hdr} {o : SnapOp} (h1 : Same g₀ r₀ s)
    (m_free : g₀.free = true) (m_mem : g₀.mem = true) (m_regs : g₀.regs = true) (m_mu : g₀.mu = true) (m_sv : g₀.sv = true)
    (m_i3c : g₀.i3c = true) (m_sounds : g₀.sounds = true) (m_seqNo : g₀.seqNo = true) : Same g₀ r₀ (snapStream s h o).st := by
  unfold snapStream
  repeat' first
    | with_reducible assumption | intro _ | with_reducible apply addRec_same | with_reducible apply snapTensor_same
    | with_reducible apply checkRead_same | with_reducible apply snapTable_same | with_reducible apply ite_same
    | with_reducible apply ite_same_snd | with_reducible apply foldl_same | with_reducible apply foldl_same_snd
    | (with_reducible refine foldl_same_of SnapRun.st ?_ ?_) | (refine Same.ofSnd (by assumption) ?_) | dsimp only | split

theorem sendSnap_same {r₀ : State} {g₀ : Groups} {s : State} {x : Snap} {a2 : Nat} (h1 : Same g₀ r₀ s) (m_free : g₀.free = true)
    (m_pkg : g₀.pkg = true) (m_regs : g₀.regs = true) (m_gz : g₀.gz = true) (m_qm : g₀.qm = true) (m_rings : g₀.rings = true)
    (m_snap : g₀.snap = true) (m_sounds : g₀.sounds = true) (m_seqNo : g₀.seqNo = true) : Same g₀ r₀ (sendSnap s x a2) := by
  induction a2 generalizing s x with
  | zero =>
    unfold sendSnap
    repeat' first
      | with_reducible assumption | intro _ | with_reducible apply State.onSnap_same | with_reducible apply answered_same
      | with_reducible apply addWait_same | with_reducible apply openReq_same | with_reducible apply snapStall_same
      | with_reducible apply sendRemote_same | with_reducible apply ite_same | with_reducible apply foldl_same
      | (refine Same.ofSnd (by assumption) ?_) | dsimp only | split
  | succ _ ih =>
    unfold sendSnap
    repeat' first
      | with_reducible assumption | intro _ | with_reducible apply ih | with_reducible apply State.onSnap_same
      | with_reducible apply answered_same | with_reducible apply addWait_same | with_reducible apply openReq_same
      | with_reducible apply snapStall_same | with_reducible apply sendRemote_same | with_reducible apply ite_same
      | with_reducible apply foldl_same | (refine Same.ofSnd (by assumption) ?_) | dsimp only | split

theorem runSnapshot_same {r₀ : State} {g₀ : Groups} {s0 : State} {h : Hdr} {o : SnapOp} (h1 : Same g₀ r₀ s0)
    (m_free : g₀.free = true) (m_pkg : g₀.pkg = true) (m_mem : g₀.mem = true) (m_regs : g₀.regs = true) (m_gz : g₀.gz = true)
    (m_mu : g₀.mu = true) (m_qm : g₀.qm = true) (m_rings : g₀.rings = true) (m_snap : g₀.snap = true) (m_sv : g₀.sv = true)
    (m_i3c : g₀.i3c = true) (m_sounds : g₀.sounds = true) (m_seqNo : g₀.seqNo = true) : Same g₀ r₀ (runSnapshot s0 h o) := by
  unfold runSnapshot
  repeat' first
    | with_reducible assumption | intro _ | with_reducible apply writeMem_same | with_reducible apply pumpSnap_same
    | with_reducible apply markStarted_same | with_reducible apply finish_same | with_reducible apply snapStream_same
    | with_reducible apply State.onSnap_same | with_reducible apply regSet_same | with_reducible apply waitFor_same
    | with_reducible apply sendSnap_same | with_reducible apply ite_same | with_reducible apply foldl_same
    | (with_reducible refine foldl_same_of SnapRun.st ?_ ?_) | (refine Same.ofSnd (by assumption) ?_) | dsimp only | split

theorem execHandbackStepNumber_same {r₀ : State} {g₀ : Groups} {step : Nat} {s : State} {t₀}
    (e₀ : execHandbackStepNumber step s = .next t₀) (h2 : Same g₀ r₀ s) (m_free : g₀.free = true) (m_pkg : g₀.pkg = true)
    (m_regs : g₀.regs = true) (m_gz : g₀.gz = true) (m_qm : g₀.qm = true) (m_seq : g₀.seq = true) (m_rings : g₀.rings = true)
    (m_twin : g₀.twin = true) (m_sounds : g₀.sounds = true) (m_seqNo : g₀.seqNo = true) : Same g₀ r₀ t₀ := by
  unfold execHandbackStepNumber at e₀
  repeat' first | contradiction | (injection e₀ with e₀; subst e₀) | dsimp only at e₀ | (split at e₀)
  repeat' first
    | with_reducible assumption | intro _ | with_reducible apply takeBack_same | with_reducible apply ite_same
    | with_reducible apply foldl_same | (refine Same.ofSnd (by assumption) ?_) | dsimp only | split

theorem execTnSnapshot_same {r₀ : State} {g₀ : Groups} {h : Hdr} {op : SnapOp} {s : State} {t₀}
    (e₀ : execTnSnapshot h op s = .next t₀) (h3 : Same g₀ r₀ s) (m_free : g₀.free = true) (m_pkg : g₀.pkg = true)
    (m_mem : g₀.mem = true) (m_regs : g₀.regs = true) (m_gz : g₀.gz = true) (m_mu : g₀.mu = true) (m_qm : g₀.qm = true)
    (m_rings : g₀.rings = true) (m_snap : g₀.snap = true) (m_sv : g₀.sv = true) (m_i3c : g₀.i3c = true)
    (m_sounds : g₀.sounds = true) (m_seqNo : g₀.seqNo = true) : Same g₀ r₀ t₀ := by
  unfold execTnSnapshot at e₀
  repeat' first | contradiction | (injection e₀ with e₀; subst e₀) | dsimp only at e₀ | (split at e₀)
  repeat' first
    | with_reducible assumption | intro _ | with_reducible apply runSnapshot_same | with_reducible apply complete_same
    | with_reducible apply sendSnap_same | with_reducible apply runDesc_same | with_reducible apply ite_same
    | with_reducible apply foldl_same | (refine Same.ofSnd (by assumption) ?_) | dsimp only | split

theorem execJournalBase_same {r₀ : State} {g₀ : Groups} {r : JRec} {s : State} {t₀} (e₀ : execJournalBase r s = .next t₀)
    (h2 : Same g₀ r₀ s) (m_mem : g₀.mem = true) (m_regs : g₀.regs = true) (m_mu : g₀.mu = true) (m_twin : g₀.twin = true)
    (m_sv : g₀.sv = true) (m_i3c : g₀.i3c = true) (m_sounds : g₀.sounds = true) (m_seqNo : g₀.seqNo = true) : Same g₀ r₀ t₀ := by
  unfold execJournalBase at e₀
  repeat' first | contradiction | (injection e₀ with e₀; subst e₀) | dsimp only at e₀ | (split at e₀)
  repeat' first
    | with_reducible assumption | intro _ | with_reducible apply receiveJournal_same | with_reducible apply ite_same
    | with_reducible apply foldl_same | (refine Same.ofSnd (by assumption) ?_) | dsimp only | split

theorem execJournalData_same {r₀ : State} {g₀ : Groups} {r : JRec} {s : State} {t₀} (e₀ : execJournalData r s = .next t₀)
    (h2 : Same g₀ r₀ s) (m_mem : g₀.mem = true) (m_regs : g₀.regs = true) (m_mu : g₀.mu = true) (m_twin : g₀.twin = true)
    (m_sv : g₀.sv = true) (m_i3c : g₀.i3c = true) (m_sounds : g₀.sounds = true) (m_seqNo : g₀.seqNo = true) : Same g₀ r₀ t₀ := by
  unfold execJournalData at e₀
  repeat' first | contradiction | (injection e₀ with e₀; subst e₀) | dsimp only at e₀ | (split at e₀)
  repeat' first
    | with_reducible assumption | intro _ | with_reducible apply receiveJournal_same | with_reducible apply ite_same
    | with_reducible apply foldl_same | (refine Same.ofSnd (by assumption) ?_) | dsimp only | split

end Sys2Proof.Machine
end

