-- ==== Sys2Proof/Laws/RemoteRings.lean ====
section
/-!
SUPPORT. What the shared operations of remote requests, tokens, ring ports and the twin do.
-/

namespace Sys2Proof.Machine

open Sys2Proof

theorem endAdds_frame (s : State) (h : Hdr) (st : Nat) : Same { free := true, mu := true, qm := true } s (endAdds s h st) := endAdds_same (Same.refl _ s) rfl rfl rfl
theorem refusal_gone {s h o b} (r : ringRefusal s h o b = none) : remoteGone s o.dev = false ∧ 0 < o.len := by
  unfold ringRefusal at r
  split at r
  · cases r
  · rename_i hl
    split at r
    · cases r
    · split at r
      · cases r
      · rename_i hg
        refine ⟨by simpa using hg, ?_⟩
        simp only [Bool.or_eq_true, beq_iff_eq, not_or] at hl; omega
theorem reqs_one {o : RingOp} (h : 0 < o.len) (l : o.len ≤ 192) : ringReqs o = 1 := by
  unfold ringReqs ceilDiv; show (o.len + 192 - 1) / 192 = 1; omega
/-- An answer to another key leaves a command waiting for its own. -/
theorem takeAnswer_keeps {s : State} {w : Waiting} {h : Hdr} {key k st : Nat} {l : Bool} (n : k ≠ key) (hw : sameDesc w.hdr h = true → k ∈ w.tags)
    (e : ∃ x ∈ s.qm.waiting, sameDesc x.hdr h = true ∧ k ∈ x.tags) : ∃ x ∈ (takeAnswer key st l s w).qm.waiting, sameDesc x.hdr h = true ∧ k ∈ x.tags := by
  obtain ⟨x, x1, x2, x3⟩ := e
  have sd : sameDesc x.hdr w.hdr = true → sameDesc w.hdr h = true := by
    intro q; unfold sameDesc at *; simp only [Bool.and_eq_true, beq_iff_eq] at *; omega
  unfold takeAnswer
  extract_lets w'
  have ht : sameDesc w.hdr h = true → k ∈ w'.tags := fun q => (List.mem_erase_of_ne n).mpr (hw q)
  split
  · next em =>
    have no : ¬ sameDesc w.hdr h = true := fun q => by
      have := ht q; rw [List.isEmpty_iff.mp em] at this; cases this
    exact ⟨x, List.mem_filter.mpr ⟨x1, by simpa using fun q => no (sd q)⟩, x2, x3⟩
  · by_cases q : sameDesc x.hdr w.hdr = true
    · exact ⟨w', List.mem_map.mpr ⟨x, x1, by rw [if_pos q]⟩, sd q, ht (sd q)⟩
    · exact ⟨x, List.mem_map.mpr ⟨x, x1, by rw [if_neg q]⟩, x2, x3⟩
theorem answered_keeps {s : State} {h : Hdr} {key k st : Nat} {l : Bool} (n : k ≠ key)
    (all : ∀ x ∈ s.qm.waiting, sameDesc x.hdr h = true → k ∈ x.tags)
    (e : ∃ x ∈ s.qm.waiting, sameDesc x.hdr h = true ∧ k ∈ x.tags) : ∃ x ∈ (answered s key st l).qm.waiting, sameDesc x.hdr h = true ∧ k ∈ x.tags := by
  unfold answered
  have key : ∀ (ws : List Waiting) (s : State), (∀ x ∈ ws, sameDesc x.hdr h = true → k ∈ x.tags) →
      (∃ x ∈ s.qm.waiting, sameDesc x.hdr h = true ∧ k ∈ x.tags) →
      ∃ x ∈ (ws.foldl (takeAnswer key st l) s).qm.waiting, sameDesc x.hdr h = true ∧ k ∈ x.tags := by
    intro ws; induction ws with
    | nil => exact fun s _ e => e
    | cons w ws ih =>
      intro s a e
      exact ih _ (fun x hx => a x (List.mem_cons_of_mem _ hx)) (takeAnswer_keeps n (a w List.mem_cons_self) e)
  exact key _ s (fun x hx => all x ((List.mem_filter.mp hx).1)) e
/-! A request to a device (R370, R383). -/

/-- The messages that stand in a link die's store once one more has come to an empty one: gone out, or waiting. -/
def sentOrKept (s : State) (link dev x : Nat) (f : Flit) : Rings :=
  let m : RingFrame := { dstDev := dev, srcDev := selfDev s, rDie := x, vl := 0, tc := f.tc, rseq := 0, flit := f }
  let g := { m with dstDev := sentTo s dev }
  if reforming s link = false ∧ mayLeave s link g = true then (transmit (setEgress s link []) link g).rings else (setEgress s link [m]).rings

theorem transmit_rings {a b : State} (e : a.rings = b.rings) (l : Nat) (f : RingFrame) : (transmit a l f).rings = (transmit b l f).rings := by
  unfold transmit; rw [setRPort_rings, setRPort_rings]
  unfold vlOut crosses devPos devRec selfDev ringLen ringHeader rport; rw [e]

/-- What changes of the rings alone when a message goes out. -/
theorem transmit_frame (s : State) (l : Nat) (f : RingFrame) : Same { pkg := true, rings := true } s (transmit s l f) :=
  transmit_same (Same.refl _ s) rfl rfl

theorem routeDie_ring {r d : Nat} (h : routeDie r = some d) : isRing d = true ∧ isTwin d = false := by
  unfold routeDie at h; split at h
  · cases h; unfold isRing isTwin; constructor <;> simp <;> omega
  · cases h

/-- A request of this package sent to a device that a ring reaches, from a link die whose store is empty. -/
theorem sendRemote_is {s : State} {link dev x : Nat} {f : Flit} (tc : f.tc = 2 ∨ f.tc = 3) (rt : routeDie (ringRoute s dev) = some link)
    (g : remoteGone s dev = false) (e : egressOf s link = []) :
    Same { pkg := true, rings := true } s (sendRemote s link dev x f) ∧ (sendRemote s link dev x f).rings = sentOrKept s link dev x f := by
  obtain ⟨r1, r2⟩ := routeDie_ring rt
  unfold sendRemote sendFrame pumpLink
  rw [e]
  generalize hm : ({ dstDev := dev, srcDev := selfDev s, rDie := x, vl := 0, tc := f.tc, rseq := 0, flit := f } : RingFrame) = m
  have hs : ∀ l, (setEgress s link l).rings = { s.rings with egress := put s.rings.egress link l } := fun _ => rfl
  generalize hA : setEgress s link ([] ++ [m]) = A
  have ar : A.rings = { s.rings with egress := put s.rings.egress link [m] } := by rw [← hA]; rfl
  have ae : egressOf A link = [m] := by unfold egressOf; rw [ar]; simp
  have am : A.rings.map_ = s.rings.map_ := by rw [ar]
  have ap : A.rings.peers = s.rings.peers := by rw [ar]
  have ab : A.rings.broken = s.rings.broken := by rw [ar]
  have apo : A.rings.ports = s.rings.ports := by rw [ar]
  have rp : ∀ d, rport A d = rport s d := fun d => by unfold rport; rw [apo]
  have up : ∀ d, rportUp A d = rportUp s d := fun d => by unfold rportUp; rw [rp]
  have rr : ∀ d, ringRoute A d = ringRoute s d := fun d => ringRoute_ports am ap ab up d
  have po : ∀ d, peerOf A d = peerOf s d := fun d => by unfold peerOf devRec; rw [am, ap]
  have sd : selfDev A = selfDev s := by unfold selfDev ringHeader; rw [am]
  have gn : remoteGone A dev = false := by rw [← g]; unfold remoteGone devGone countsAbsent; simp only [po, rr]
  have dg : devGone A dev = false := by unfold remoteGone at gn; simp only [Bool.or_eq_false_iff] at gn; exact gn.1
  have own : ownRequest A link m = true := by
    unfold ownRequest; rw [← hm, sd]; rcases tc with h | h <;> simp [r1, h]
  have st : sentTo A m.dstDev = sentTo s dev := by unfold sentTo; rw [po, ← hm]
  have rf : reforming A link = reforming s link := by unfold reforming; rw [rp]
  have vl : ∀ g, vlOut A link g = vlOut s link g := fun g => by unfold vlOut crosses devPos ringLen devRec ringHeader; rw [sd, am, rp]
  have ml : ∀ g, mayLeave A link g = mayLeave s link g := fun g => by unfold mayLeave; rw [rp, up, vl]
  have md : m.dstDev = dev := by rw [← hm]
  have lv : leave A link m = if reforming s link = false ∧ mayLeave s link { m with dstDev := sentTo s dev } = true
      then some (transmit (setEgress A link []) link { m with dstDev := sentTo s dev }) else none := by
    unfold leave
    extract_lets t g'
    have hg : g' = { m with dstDev := sentTo s dev } := by show (if _ then _ else _) = _; rw [own, st]; rfl
    have ht : t = setEgress A link [] := by show setEgress A link ((egressOf A link).erase m) = _; rw [ae]; simp
    rw [ae, own, r2, md, dg, gn, rf]
    simp only [List.contains_cons, BEq.rfl, Bool.true_or, Bool.not_true, Bool.false_eq_true, if_false, Bool.and_false, Bool.not_false, Bool.true_and,
      hg, rr, rt, ml, ht, bne_self_eq_false]
    cases reforming s link <;> simp
  rw [ae]
  unfold pumpFrames
  simp only [List.contains_nil, Bool.false_eq_true, if_false]
  rw [lv]
  have se : ∀ l, Same { pkg := true, rings := true } s (setEgress s link l) := fun l => State.onRings_same (Same.refl _ s) rfl
  unfold sentOrKept
  rw [hm]
  by_cases c : reforming s link = false ∧ mayLeave s link { m with dstDev := sentTo s dev } = true
  · rw [if_pos c]
    dsimp only [pumpFrames]
    rw [if_pos c, ← hA]
    refine ⟨transmit_same (State.onRings_same (se _) rfl) rfl rfl, transmit_rings ?_ _ _⟩
    show ({ ({ s.rings with egress := put s.rings.egress link ([] ++ [m]) } : Rings) with egress := put (put s.rings.egress link ([] ++ [m])) link [] } : Rings) = { s.rings with egress := put s.rings.egress link [] }
    rw [put_put]
  · rw [if_neg c]
    dsimp only [pumpFrames]
    rw [if_neg c, ← hA]
    exact ⟨se _, rfl⟩

theorem devRec_setPeer (s : State) (a d : Nat) (f : Peer → Peer) : devRec (setPeer s a f) d = devRec s d := rfl
theorem peerOf_setPeer {s : State} {a : Nat} (f : Peer → Peer) (h : (devRec s a).isNone = false) : peerOf (setPeer s a f) a = f (peerOf s a) := by
  unfold peerOf; rw [devRec_setPeer]
  cases e : devRec s a with
  | none => rw [e] at h; cases h
  | some r => simp only [setPeer, State.onRings_rings, lookD_put_self]
theorem peerOf_setPeer_ne (s : State) (a d : Nat) (f : Peer → Peer) (h : d ≠ a) : peerOf (setPeer s a f) d = peerOf s d := by
  unfold peerOf; rw [devRec_setPeer]
  simp only [setPeer, State.onRings_rings, lookD_put_ne _ _ _ _ _ h]
theorem applyStep_floods (s : State) (d n : Nat) (b : Bool) : (applyStep s d n b).rings.floods = s.rings.floods := by
  unfold applyStep; split <;> rfl
theorem floodStep_is (s : State) (n : Nat) (b : Bool) : (floodStep s n b).rings.floods = s.rings.floods ++
    ((devices s).filter fun d => d == selfDev s || ((peerOf s d).st == 4 && (peerOf s d).target == selfDev s)).map
      fun d => { kind := b2n b, dev := d, aux := 0, step := n, orig := selfDev s } := by
  have h : ∀ (l : List Nat) (o : Nat) (s : State), (l.foldl (fun s d => flood s { kind := b2n b, dev := d, aux := 0, step := n, orig := o }) s).rings.floods
      = s.rings.floods ++ l.map fun d => { kind := b2n b, dev := d, aux := 0, step := n, orig := o } := by
    intro l o; induction l with
    | nil => intro s; simp
    | cons a l ih =>
      intro s
      rw [List.foldl_cons, ih _]
      have : (flood s { kind := b2n b, dev := a, aux := 0, step := n, orig := o }).rings.floods = s.rings.floods ++ [{ kind := b2n b, dev := a, aux := 0, step := n, orig := o }] := by
        unfold flood applyToken; cases b <;> exact applyStep_floods ..
      rw [this]; simp
  have so : ∀ (l : List Nat) (s : State) (o : Nat), o = selfDev s → (l.foldl (fun s d => flood s { kind := b2n b, dev := d, aux := 0, step := n, orig := selfDev s }) s)
      = (l.foldl (fun s d => flood s { kind := b2n b, dev := d, aux := 0, step := n, orig := o }) s) := by
    intro l; induction l with
    | nil => intros; rfl
    | cons a l ih =>
      intro s o e
      rw [List.foldl_cons, List.foldl_cons, ← e]
      refine ih _ o ?_
      rw [e]
      have : ∀ z d n c, selfDev (applyStep z d n c) = selfDev z := by intro z d n c; unfold applyStep; split <;> rfl
      have fl : ∀ z, selfDev (flood s { kind := b2n b, dev := a, aux := 0, step := n, orig := z }) = selfDev s := by
        intro z; unfold flood applyToken; cases b <;> exact this ..
      rw [fl]
  unfold floodStep
  dsimp only
  rw [so _ _ _ rfl, h]
theorem silence_is (s : State) (n : Nat) (b : Bool) : 2 * n + b2n b ∈ (silence s n b).rings.passed ∧ ∀ d ∈ missing s n b, (peerOf s d).st = 1 → (peerOf (silence s n b) d).st = 2 := by
  unfold silence
  dsimp only
  have key : ∀ (l : List Nat) (s : State), (∀ d, (peerOf s d).st = 2 → (peerOf (l.foldl (fun s d => setPeer s d fun p => { p with st := peerSilent }) s) d).st = 2) ∧
      ∀ d ∈ l, (devRec s d).isNone = false → (peerOf (l.foldl (fun s d => setPeer s d fun p => { p with st := peerSilent }) s) d).st = 2 := by
    intro l; induction l with
    | nil => exact fun s => ⟨fun d h => h, fun d h => by cases h⟩
    | cons a l ih =>
      intro s
      have one : ∀ d, (devRec s d).isNone = false → (peerOf s d).st = 2 ∨ d = a → (peerOf (setPeer s a fun p => { p with st := peerSilent }) d).st = 2 := by
        intro d hd h
        by_cases e : d = a
        · subst e; rw [peerOf_setPeer _ hd]
        · rw [peerOf_setPeer_ne _ _ _ _ e]; rcases h with h | h; exact h; exact absurd h e
      have nn : ∀ d, (peerOf s d).st = 2 → (devRec s d).isNone = false := by
        intro d h; unfold peerOf at h; cases e : devRec s d with
        | none => rw [e] at h; cases h
        | some r => rfl
      refine ⟨fun d h => (ih _).1 d (one d (nn d h) (Or.inl h)), fun d h hd => ?_⟩
      by_cases e : d = a
      · exact (ih _).1 d (one d hd (Or.inr e))
      · have : d ∈ l := by simpa [e] using h
        exact (ih _).2 d this hd
  generalize hl : List.filter _ _ = l
  have B := fun z => bumpBy_same (g₀ := { regs := true, sounds := true, seqNo := true }) (die := 0) (off := 0x70038) (n := l.length) (sel := 0) (Same.refl _ z) rfl rfl rfl
  refine ⟨ins_self _ _, fun d hd hs => ?_⟩
  have e : ∀ z : State, z.rings.peers = (l.foldl (fun s d => setPeer s d fun p => { p with st := peerSilent }) s).rings.peers → z.rings.map_ = (l.foldl (fun s d => setPeer s d fun p => { p with st := peerSilent }) s).rings.map_ →
      (peerOf z d) = (peerOf (l.foldl (fun s d => setPeer s d fun p => { p with st := peerSilent }) s) d) := by
    intro z h1 h2; unfold peerOf devRec; rw [h1, h2]
  rw [e _ (by show (bumpBy _ _ _ _ _).rings.peers = _; rw [(B _).rings rfl]) (by show (bumpBy _ _ _ _ _).rings.map_ = _; rw [(B _).rings rfl])]
  refine (key l s).2 d ?_ ?_
  · rw [← hl]; simp [hd, hs]
  · unfold peerOf at hs; cases e : devRec s d with
    | none => rw [e] at hs; cases hs
    | some r => rfl
/-- A command refused, a LINK_LOST counted at its route's link die, ends with its status. -/
theorem ends_lost (s : State) (h : Hdr) (u : UnitId) (st dev : Nat) :
    Ends s (complete (if st = stLinkLost then countLost s dev else s) h u st) h u st ∧
    (complete (if st = stLinkLost then countLost s dev else s) h u st).gz = s.gz := by
  have C := countLost_same (g₀ := { regs := true, sounds := true, seqNo := true }) (dev := dev) (Same.refl _ s) rfl rfl rfl
  split
  · exact ⟨ends_complete _ _ _ (C.qm rfl), C.gz rfl⟩
  · exact ⟨ends_complete _ _ _ rfl, rfl⟩

/-- A record written into the receive log moves the place in that log and nothing else of the pair. -/
theorem storeLog_is (s : State) (k : Nat) (r : JRec) : ∃ p, (storeLog s k r).twin = { s.twin with logPos := p } ∧
    match twinHeader s with
    | none => storeLog s k r = s
    | some h => fld h 3 ≠ 0 → p = (s.twin.logPos + (jrecBytes k r).length) % (2 ^ 20 * fld h 3) ∧
        (s.twin.logPos + (jrecBytes k r).length ≤ 2 ^ 20 * fld h 3 → (storeLog s k r).mem = (writeMem s (fld h 4 + s.twin.logPos) (jrecBytes k r)).mem) := by
  have W : ∀ (z : State) (a : Nat) (bs : List Byte), (writeMem z a bs).twin = z.twin := fun z a bs =>
    (writeMem_same (g₀ := { mem := true, regs := true, mu := true, sv := true, i3c := true, sounds := true, seqNo := true }) (Same.refl _ z)
      rfl rfl rfl rfl rfl rfl rfl).twin rfl
  unfold storeLog
  cases twinHeader s with
  | none => exact ⟨s.twin.logPos, rfl, rfl⟩
  | some h =>
    dsimp only
    by_cases c : 2 ^ 20 * fld h 3 = 0
    · rw [if_pos c]; exact ⟨s.twin.logPos, rfl, fun n => absurd c (by omega)⟩
    · rw [if_neg c]
      refine ⟨_, by rw [State.onTwin_twin, W, W], fun _ => ⟨rfl, fun l => ?_⟩⟩
      rw [State.onTwin_mem, List.take_of_length_le (by omega), List.drop_eq_nil_of_le (by omega)]; rfl

/-- What it may change at all. -/
theorem storeLog_frame (s : State) (k : Nat) (r : JRec) :
    Same { mem := true, regs := true, mu := true, twin := true, sv := true, i3c := true, sounds := true, seqNo := true } s (storeLog s k r) :=
  storeLog_same (Same.refl _ s) rfl rfl rfl rfl rfl rfl rfl rfl

theorem record_twin (s : State) (r : JRec) : (applyRecord s r).twin = s.twin :=
  (applyRecord_same (g₀ := { mem := true, regs := true, mu := true, sv := true, i3c := true, sounds := true, seqNo := true }) (Same.refl _ s) rfl rfl rfl rfl rfl rfl rfl).twin rfl
theorem records_twin (l : List JRec) : ∀ s : State, (l.foldl applyRecord s).twin = s.twin := by
  induction l with
  | nil => exact fun s => rfl
  | cons a l ih => exact fun s => (ih _).trans (record_twin ..)
theorem ready_none (s : State) (h : ∀ x ∈ s.twin.log, endsHeld s x.2.step = false) : ∀ n, applyReady s n = s := by
  intro n; cases n with
  | zero => rfl
  | succ n =>
    unfold applyReady
    have : List.find? (endsHeld s) ((s.twin.log.filter fun x => x.1 == jEnd).map (·.2.step)) = none := by
      rw [List.find?_eq_none]; intro k hk
      simp only [List.mem_map, List.mem_filter] at hk
      obtain ⟨x, ⟨hx, _⟩, rfl⟩ := hk
      simp [h x hx]
    rw [this]
theorem closed_all (s : State) : (∀ d ∈ [34, 35, 36, 37], (lookD (addCause s 3).rings.ports d {}).st = 6) ∧ 3 ∈ (addCause s 3).rings.causes ∧
    (addCause s 3).sv = s.sv ∧ (addCause s 3).twin = s.twin := by
  obtain ⟨c1, _, c3⟩ := cause_is s 3
  have A := addCause_same (g₀ := { pkg := true, rings := true }) (c := 3) (Same.refl _ s) rfl rfl
  refine ⟨fun d hd => ?_, c1, A.sv rfl, A.twin rfl⟩
  have : d = 34 ∨ d = 35 ∨ d = 36 ∨ d = 37 := by simpa using hd
  rcases this with e | e | e | e <;> subst e
  · exact c3 0 (by simp [causeDims]) _ (by simp [dimDies])
  · exact c3 0 (by simp [causeDims]) _ (by simp [dimDies])
  · exact c3 1 (by simp [causeDims]) _ (by simp [dimDies])
  · exact c3 1 (by simp [causeDims]) _ (by simp [dimDies])
theorem ends_append (s : State) (k : Nat) (r : JRec) (h : k = 0 ∨ k = 1) (n : Nat) : endsHeld (s.onTwin fun t => { t with log := t.log ++ [(k, r)] }) n = endsHeld s n := by
  have e : (k == jEnd) = false := by rcases h with h | h <;> subst h <;> rfl
  unfold endsHeld
  simp only [State.onTwin_twin, List.find?_append, List.any_append, List.find?_cons, e, Bool.false_and, List.find?_nil, Option.or_none, List.any_cons, List.any_nil, Bool.or_false]
theorem port_up (s : State) (d : Nat) (f : IdentFrame) : (rport (portUpWith s d f) d).st = (if portLanes d ≤ f.lanes then 2 else 3) ∧
    (rport (portUpWith s d f) d).lanes = (if portLanes d ≤ f.lanes then portLanes d else portLanes d / 2) ∧ (rport (portUpWith s d f) d).peer = f.self ∧
    (rport (portUpWith s d f) d).peerValid = true := by
  unfold portUpWith
  extract_lets n full s'
  let g : RPort → RPort := fun p =>
    { p with st := if full then pUpFull else pUpHalf, lanes := if full then n else portLanes d / 2, peer := f.self, peerValid := true, fails := 0, viol := 0, bad := 0 }
  have P := (pumpLink_stays (portChanged s' d g) d).port d
  have e1 := congrArg RPort.st P
  have e2 := congrArg RPort.lanes P
  have e3 := congrArg RPort.peer P
  have e4 := congrArg RPort.peerValid P
  dsimp only at e1 e2 e3 e4
  change (rport (pumpLink (portChanged s' d g) d) d).st = _ ∧ (rport (pumpLink (portChanged s' d g) d) d).lanes = _ ∧
    (rport (pumpLink (portChanged s' d g) d) d).peer = _ ∧ (rport (pumpLink (portChanged s' d g) d) d).peerValid = _
  rw [e1, e2, e3, e4, rport_changed]
  show (if (min f.lanes (portLanes d) == portLanes d) = true then pUpFull else pUpHalf) = _ ∧
    (if (min f.lanes (portLanes d) == portLanes d) = true then min f.lanes (portLanes d) else portLanes d / 2) = _ ∧ f.self = f.self ∧ true = true
  by_cases h : portLanes d ≤ f.lanes
  · have e : min f.lanes (portLanes d) = portLanes d := by omega
    rw [e]; simp [h, pUpFull]
  · have e : (min f.lanes (portLanes d) == portLanes d) = false := by simp; omega
    rw [e]; simp [h, pUpHalf]
/-- A message of another package at a link die whose store is empty leaves on its ring, or waits in the store (R366, R369). -/
theorem transit_is {s : State} {link : Nat} {g : RingFrame} (sr : g.srcDev ≠ selfDev s) (rt : routeDie (ringRoute s g.dstDev) = some link)
    (e : egressOf s link = []) : sendFrame s link g = if reforming s link = false ∧ mayLeave s link g = true
      then transmit (setEgress (setEgress s link [g]) link []) link g else setEgress s link [g] := by
  obtain ⟨-, r2⟩ := routeDie_ring rt
  unfold sendFrame pumpLink
  rw [e]
  obtain ⟨A, hA⟩ : ∃ A, setEgress s link ([] ++ [g]) = A := ⟨_, rfl⟩
  have ar : A.rings = { s.rings with egress := put s.rings.egress link [g] } := by rw [← hA]; rfl
  have ae : egressOf A link = [g] := by unfold egressOf; rw [ar]; simp
  have am : A.rings.map_ = s.rings.map_ := by rw [ar]
  have rp : ∀ d, rport A d = rport s d := fun d => by unfold rport; rw [ar]
  have up : ∀ d, rportUp A d = rportUp s d := fun d => by unfold rportUp; rw [rp]
  have rr : ringRoute A g.dstDev = ringRoute s g.dstDev := ringRoute_ports am (by rw [ar]) (by rw [ar]) up _
  have sd : selfDev A = selfDev s := by unfold selfDev ringHeader; rw [am]
  have own : ownRequest A link g = false := by unfold ownRequest; rw [sd]; simp [sr]
  have rf : reforming A link = reforming s link := by unfold reforming; dsimp only; rw [rp]
  have vl : vlOut A link g = vlOut s link g := by unfold vlOut crosses devPos ringLen devRec ringHeader; rw [sd, am, rp]
  have ml : mayLeave A link g = mayLeave s link g := by unfold mayLeave; rw [rp, up, vl]
  rw [hA, ae]
  unfold pumpFrames
  simp only [List.contains_nil, Bool.false_eq_true, if_false]
  have lv : leave A link g = if reforming s link = false ∧ mayLeave s link g = true then some (transmit (setEgress A link []) link g) else none := by
    unfold leave
    dsimp only
    rw [ae, own, r2, rf, rr, rt]
    simp only [List.contains_cons, BEq.rfl, Bool.true_or, Bool.not_true, Bool.false_eq_true, if_false, Bool.false_and, Bool.not_false, Bool.true_and,
      ml, bne_self_eq_false, List.erase_cons_head]
    cases reforming s link <;> simp
  rw [lv]
  by_cases c : reforming s link = false ∧ mayLeave s link g = true
  · rw [if_pos c, if_pos c, ← hA]; rfl
  · rw [if_neg c, if_neg c, ← hA]; rfl

end Sys2Proof.Machine
end

