-- ==== Sys2Proof/Laws/SameResets.lean ====
section
/-!
SUPPORT. What the definitions of Machine/Resets.lean may change (Laws/Same.lean).
-/

set_option linter.all false

namespace Sys2Proof.Machine

open Sys2Proof

theorem resetDies_same {r₀ : State} {g₀ : Groups} {s : State} (h1 : Same g₀ r₀ s) (m_pkg : g₀.pkg = true) (m_mem : g₀.mem = true)
    (m_regs : g₀.regs = true) (m_gz : g₀.gz = true) (m_ck : g₀.ck = true) (m_tw : g₀.tw = true) (m_mu : g₀.mu = true)
    (m_streams : g₀.streams = true) (m_qm : g₀.qm = true) (m_seq : g₀.seq = true) (m_img : g₀.img = true)
    (m_rings : g₀.rings = true) (m_twin : g₀.twin = true) (m_snap : g₀.snap = true) (m_sv : g₀.sv = true) (m_sec : g₀.sec = true)
    (m_ct : g₀.ct = true) (m_host : g₀.host = true) (m_i3c : g₀.i3c = true) (m_sounds : g₀.sounds = true)
    (m_seqNo : g₀.seqNo = true) (m_cores : g₀.cores = true) : Same g₀ r₀ (resetDies s) :=
  { pending := h1.pending, free := h1.free, pkg := fun e => Bool.noConfusion (e.symm.trans m_pkg),
    mem := fun e => Bool.noConfusion (e.symm.trans m_mem), regs := fun e => Bool.noConfusion (e.symm.trans m_regs),
    gz := fun e => Bool.noConfusion (e.symm.trans m_gz), ck := fun e => Bool.noConfusion (e.symm.trans m_ck),
    tw := fun e => Bool.noConfusion (e.symm.trans m_tw), mu := fun e => Bool.noConfusion (e.symm.trans m_mu),
    streams := fun e => Bool.noConfusion (e.symm.trans m_streams), qm := fun e => Bool.noConfusion (e.symm.trans m_qm),
    seq := fun e => Bool.noConfusion (e.symm.trans m_seq), img := fun e => Bool.noConfusion (e.symm.trans m_img),
    rings := fun e => Bool.noConfusion (e.symm.trans m_rings), twin := fun e => Bool.noConfusion (e.symm.trans m_twin),
    snap := fun e => Bool.noConfusion (e.symm.trans m_snap), sv := fun e => Bool.noConfusion (e.symm.trans m_sv),
    sec := fun e => Bool.noConfusion (e.symm.trans m_sec), ct := fun e => Bool.noConfusion (e.symm.trans m_ct),
    host := fun e => Bool.noConfusion (e.symm.trans m_host), i3c := fun e => Bool.noConfusion (e.symm.trans m_i3c),
    sounds := fun e => Bool.noConfusion (e.symm.trans m_sounds), seqNo := fun e => Bool.noConfusion (e.symm.trans m_seqNo),
    cores := fun e => Bool.noConfusion (e.symm.trans m_cores) }

theorem powerDown_same {r₀ : State} {g₀ : Groups} {s : State} (h1 : Same g₀ r₀ s) (m_pkg : g₀.pkg = true) (m_mem : g₀.mem = true)
    (m_regs : g₀.regs = true) (m_gz : g₀.gz = true) (m_ck : g₀.ck = true) (m_tw : g₀.tw = true) (m_mu : g₀.mu = true)
    (m_streams : g₀.streams = true) (m_qm : g₀.qm = true) (m_seq : g₀.seq = true) (m_img : g₀.img = true)
    (m_rings : g₀.rings = true) (m_twin : g₀.twin = true) (m_snap : g₀.snap = true) (m_sv : g₀.sv = true) (m_sec : g₀.sec = true)
    (m_ct : g₀.ct = true) (m_host : g₀.host = true) (m_i3c : g₀.i3c = true) (m_sounds : g₀.sounds = true)
    (m_seqNo : g₀.seqNo = true) (m_cores : g₀.cores = true) : Same g₀ r₀ (powerDown s) := by
  have k := resetDies_same h1 (by assumption) (by assumption) (by assumption) (by assumption) (by assumption) (by assumption) (by assumption) (by assumption) (by assumption) (by assumption) (by assumption) (by assumption) (by assumption) (by assumption) (by assumption) (by assumption) (by assumption) (by assumption) (by assumption) (by assumption) (by assumption) (by assumption)
  have k : Same g₀ r₀ { resetDies s with mem := farOnly (resetDies s).mem } := { k with mem := fun e => Bool.noConfusion (e.symm.trans m_mem) }
  have k := addCause_same (c := causeSelvage) (addCause_same (c := causePower) (State.onSv_same (State.onPkg_same k m_pkg
    (f := fun p => { p with stackFailed := [] })) m_sv
    (f := fun v => { v with throttled := [], duty := [], temps := [], emergency := false, pSum := [], pSv := 0 })) m_pkg m_rings) m_pkg m_rings
  unfold powerDown
  exact ite_same (raiseIbi_same k m_i3c) k

theorem execThermalShutdown_same {r₀ : State} {g₀ : Groups} {s : State} {t₀} (e₀ : execThermalShutdown s = .next t₀)
    (h1 : Same g₀ r₀ s) (m_pkg : g₀.pkg = true) (m_mem : g₀.mem = true) (m_regs : g₀.regs = true) (m_gz : g₀.gz = true)
    (m_ck : g₀.ck = true) (m_tw : g₀.tw = true) (m_mu : g₀.mu = true) (m_streams : g₀.streams = true) (m_qm : g₀.qm = true)
    (m_seq : g₀.seq = true) (m_img : g₀.img = true) (m_rings : g₀.rings = true) (m_twin : g₀.twin = true)
    (m_snap : g₀.snap = true) (m_sv : g₀.sv = true) (m_sec : g₀.sec = true) (m_ct : g₀.ct = true) (m_host : g₀.host = true)
    (m_i3c : g₀.i3c = true) (m_sounds : g₀.sounds = true) (m_seqNo : g₀.seqNo = true) (m_cores : g₀.cores = true)
    : Same g₀ r₀ t₀ := by
  unfold execThermalShutdown at e₀
  repeat' first | contradiction | (injection e₀ with e₀; subst e₀) | dsimp only at e₀ | (split at e₀)
  repeat' first
    | with_reducible assumption | intro _ | with_reducible apply powerDown_same | with_reducible apply raiseIbi_same
    | with_reducible apply setSticky_same | with_reducible apply State.onSv_same | with_reducible apply ite_same
    | with_reducible apply foldl_same | (refine Same.ofSnd (by assumption) ?_) | dsimp only | split

theorem holdFaultN_same {r₀ : State} {g₀ : Groups} {s : State} (h1 : Same g₀ r₀ s) (m_sv : g₀.sv = true) (m_i3c : g₀.i3c = true)
    : Same g₀ r₀ (holdFaultN s) := by
  unfold holdFaultN
  repeat' first
    | with_reducible assumption | intro _ | with_reducible apply raiseIbi_same | with_reducible apply State.onSv_same
    | with_reducible apply ite_same | with_reducible apply foldl_same | (refine Same.ofSnd (by assumption) ?_) | dsimp only
    | split

theorem setPhase_same {r₀ : State} {g₀ : Groups} {s : State} {n : Nat} (h1 : Same g₀ r₀ s) (m_sv : g₀.sv = true)
    : Same g₀ r₀ (setPhase s n) := by
  unfold setPhase
  repeat' first
    | with_reducible assumption | intro _ | with_reducible apply State.onSv_same | with_reducible apply ite_same
    | with_reducible apply foldl_same | (refine Same.ofSnd (by assumption) ?_) | dsimp only | split

theorem haltBringUp_same {r₀ : State} {g₀ : Groups} {s : State} (h1 : Same g₀ r₀ s) (m_sv : g₀.sv = true) (m_i3c : g₀.i3c = true)
    : Same g₀ r₀ (haltBringUp s) := by
  unfold haltBringUp
  repeat' first
    | with_reducible assumption | intro _ | with_reducible apply raiseIbi_same | with_reducible apply setPhase_same
    | with_reducible apply ite_same | with_reducible apply foldl_same | (refine Same.ofSnd (by assumption) ?_) | dsimp only
    | split

theorem bootFail_same {r₀ : State} {g₀ : Groups} {s : State} {stage reason : Nat} (h1 : Same g₀ r₀ s) (m_sv : g₀.sv = true)
    (m_i3c : g₀.i3c = true) : Same g₀ r₀ (bootFail s stage reason) := by
  unfold bootFail
  repeat' first
    | with_reducible assumption | intro _ | with_reducible apply holdFaultN_same | with_reducible apply State.onSv_same
    | with_reducible apply haltBringUp_same | with_reducible apply ite_same | with_reducible apply foldl_same
    | (refine Same.ofSnd (by assumption) ?_) | dsimp only | split

theorem selvageRecords_same {r₀ : State} {g₀ : Groups} {s : State} (h1 : Same g₀ r₀ s) (m_sv : g₀.sv = true)
    : Same g₀ r₀ (selvageRecords s) := by
  unfold selvageRecords
  repeat' first
    | with_reducible assumption | intro _ | with_reducible apply State.onSv_same | with_reducible apply ite_same
    | with_reducible apply foldl_same | (refine Same.ofSnd (by assumption) ?_) | dsimp only | split

theorem execPowerShutdown_same {r₀ : State} {g₀ : Groups} {s : State} {t₀} (e₀ : execPowerShutdown s = .next t₀)
    (h1 : Same g₀ r₀ s) (m_pkg : g₀.pkg = true) (m_mem : g₀.mem = true) (m_regs : g₀.regs = true) (m_gz : g₀.gz = true)
    (m_ck : g₀.ck = true) (m_tw : g₀.tw = true) (m_mu : g₀.mu = true) (m_streams : g₀.streams = true) (m_qm : g₀.qm = true)
    (m_seq : g₀.seq = true) (m_img : g₀.img = true) (m_rings : g₀.rings = true) (m_twin : g₀.twin = true)
    (m_snap : g₀.snap = true) (m_sv : g₀.sv = true) (m_sec : g₀.sec = true) (m_ct : g₀.ct = true) (m_host : g₀.host = true)
    (m_i3c : g₀.i3c = true) (m_sounds : g₀.sounds = true) (m_seqNo : g₀.seqNo = true) (m_cores : g₀.cores = true)
    : Same g₀ r₀ t₀ := by
  unfold execPowerShutdown at e₀
  repeat' first | contradiction | (injection e₀ with e₀; subst e₀) | dsimp only at e₀ | (split at e₀)
  repeat' first
    | with_reducible assumption | intro _ | with_reducible apply powerDown_same | with_reducible apply setSticky_same
    | with_reducible apply State.onSv_same | with_reducible apply ite_same | with_reducible apply foldl_same
    | (refine Same.ofSnd (by assumption) ?_) | dsimp only | split

theorem warmBase_same {r₀ : State} {g₀ : Groups} {s : State} {lost : List Nat} (h1 : Same g₀ r₀ s) (m_pkg : g₀.pkg = true)
    (m_mem : g₀.mem = true) (m_regs : g₀.regs = true) (m_gz : g₀.gz = true) (m_ck : g₀.ck = true) (m_tw : g₀.tw = true)
    (m_mu : g₀.mu = true) (m_streams : g₀.streams = true) (m_qm : g₀.qm = true) (m_seq : g₀.seq = true) (m_img : g₀.img = true)
    (m_rings : g₀.rings = true) (m_twin : g₀.twin = true) (m_snap : g₀.snap = true) (m_sv : g₀.sv = true) (m_sec : g₀.sec = true)
    (m_ct : g₀.ct = true) (m_host : g₀.host = true) (m_i3c : g₀.i3c = true) (m_sounds : g₀.sounds = true)
    (m_seqNo : g₀.seqNo = true) (m_cores : g₀.cores = true) : Same g₀ r₀ (warmBase s lost) := by
  have k := resetDies_same h1 (by assumption) (by assumption) (by assumption) (by assumption) (by assumption) (by assumption) (by assumption) (by assumption) (by assumption) (by assumption) (by assumption) (by assumption) (by assumption) (by assumption) (by assumption) (by assumption) (by assumption) (by assumption) (by assumption) (by assumption) (by assumption) (by assumption)
  exact { k with
    mu := fun e => Bool.noConfusion (e.symm.trans m_mu)
    seq := fun e => Bool.noConfusion (e.symm.trans m_seq)
    twin := fun e => Bool.noConfusion (e.symm.trans m_twin)
    rings := fun e => Bool.noConfusion (e.symm.trans m_rings) }

theorem restartQueues_same {r₀ : State} {g₀ : Groups} {s : State} (h1 : Same g₀ r₀ s) (m_mem : g₀.mem = true)
    (m_qm : g₀.qm = true) : Same g₀ r₀ (restartQueues s) := by
  unfold restartQueues
  repeat' first
    | with_reducible assumption | intro _ | with_reducible apply loadQueues_same | with_reducible apply zeroRange_same
    | with_reducible apply ite_same | with_reducible apply foldl_same | (refine Same.ofSnd (by assumption) ?_) | dsimp only
    | split

theorem resumeQueues_same {r₀ : State} {g₀ : Groups} {old s : State} (h1 : Same g₀ r₀ old) (h2 : Same g₀ r₀ s)
    (m_qm : g₀.qm = true) : Same g₀ r₀ (resumeQueues old s) := by
  unfold resumeQueues
  repeat' first
    | with_reducible assumption | intro _ | with_reducible apply State.onQm_same | with_reducible apply reserveSlot_same
    | with_reducible apply ite_same | with_reducible apply foldl_same | (refine Same.ofSnd (by assumption) ?_) | dsimp only
    | split

theorem reloadImage_same {r₀ : State} {g₀ : Groups} {old s : State} {ran : Bool} (h1 : Same g₀ r₀ old) (h2 : Same g₀ r₀ s)
    (m_free : g₀.free = true) (m_mem : g₀.mem = true) (m_regs : g₀.regs = true) (m_gz : g₀.gz = true) (m_ck : g₀.ck = true)
    (m_tw : g₀.tw = true) (m_mu : g₀.mu = true) (m_streams : g₀.streams = true) (m_qm : g₀.qm = true) (m_seq : g₀.seq = true)
    (m_img : g₀.img = true) (m_rings : g₀.rings = true) (m_twin : g₀.twin = true) (m_snap : g₀.snap = true) (m_sv : g₀.sv = true)
    (m_sec : g₀.sec = true) (m_i3c : g₀.i3c = true) (m_sounds : g₀.sounds = true) (m_seqNo : g₀.seqNo = true)
    : Same g₀ r₀ (reloadImage old s ran) := by
  unfold reloadImage
  repeat' first
    | with_reducible assumption | intro _ | with_reducible apply restartQueues_same | with_reducible apply setUpImage_same
    | with_reducible apply setReason_same | with_reducible apply resumeQueues_same | with_reducible apply zeroRange_same
    | with_reducible apply ite_same | with_reducible apply foldl_same | (refine Same.ofSnd (by assumption) ?_) | dsimp only
    | split

theorem noFirmware_same {r₀ : State} {g₀ : Groups} {s : State} (h1 : Same g₀ r₀ s) (m_sv : g₀.sv = true) (m_sec : g₀.sec = true)
    (m_i3c : g₀.i3c = true) : Same g₀ r₀ (noFirmware s) := by
  unfold noFirmware
  repeat' first
    | with_reducible assumption | intro _ | with_reducible apply State.onSec_same | with_reducible apply bootFail_same
    | with_reducible apply setSticky_same | with_reducible apply ite_same | with_reducible apply foldl_same
    | (refine Same.ofSnd (by assumption) ?_) | dsimp only | split

theorem firmwareRecords_same {r₀ : State} {g₀ : Groups} {s : State} (h1 : Same g₀ r₀ s) (m_regs : g₀.regs = true)
    (m_ct : g₀.ct = true) : Same g₀ r₀ (firmwareRecords s) := by
  unfold firmwareRecords
  repeat' first
    | with_reducible assumption | intro _ | with_reducible apply State.onCt_same | with_reducible apply regSet_same
    | with_reducible apply ite_same | with_reducible apply foldl_same | (refine Same.ofSnd (by assumption) ?_) | dsimp only
    | split

theorem startFirmware_same {r₀ : State} {g₀ : Groups} {s : State} {q0 : Queue} {r0 : Ring} (h1 : Same g₀ r₀ s)
    (m_pkg : g₀.pkg = true) (m_regs : g₀.regs = true) (m_qm : g₀.qm = true) (m_sec : g₀.sec = true) (m_ct : g₀.ct = true)
    : Same g₀ r₀ (startFirmware s q0 r0) := by
  unfold startFirmware
  repeat' first
    | with_reducible assumption | intro _ | with_reducible apply State.onSec_same | with_reducible apply firmwareRecords_same
    | with_reducible apply State.onPkg_same | with_reducible apply State.onQm_same | with_reducible apply ite_same
    | with_reducible apply foldl_same | (refine Same.ofSnd (by assumption) ?_) | dsimp only | split

theorem enumPort_same {r₀ : State} {g₀ : Groups} {b : BringUp} {s : State} {p : Nat} (h2 : Same g₀ r₀ s) (m_free : g₀.free = true)
    (m_pkg : g₀.pkg = true) : Same g₀ r₀ (enumPort b s p) := by
  unfold enumPort
  repeat' first
    | with_reducible assumption | intro _ | with_reducible apply State.took_same | with_reducible apply State.onPkg_same
    | with_reducible apply ite_same | with_reducible apply foldl_same | (refine Same.ofSnd (by assumption) ?_) | dsimp only
    | split

theorem markFailed_same {r₀ : State} {g₀ : Groups} {s : State} {l : List Nat} (h1 : Same g₀ r₀ s) (m_pkg : g₀.pkg = true)
    : Same g₀ r₀ (markFailed s l) := by
  unfold markFailed
  repeat' first
    | with_reducible assumption | intro _ | with_reducible apply State.onPkg_same | with_reducible apply ite_same
    | with_reducible apply foldl_same | (refine Same.ofSnd (by assumption) ?_) | dsimp only | split

theorem trainMemory_same {r₀ : State} {g₀ : Groups} {s : State} {b : BringUp} (h1 : Same g₀ r₀ s) (m_free : g₀.free = true)
    (m_pkg : g₀.pkg = true) (m_rings : g₀.rings = true) (m_sv : g₀.sv = true) (m_host : g₀.host = true) (m_i3c : g₀.i3c = true)
    : Same g₀ r₀ (trainMemory s b) := by
  unfold trainMemory
  repeat' first
    | with_reducible assumption | intro _ | with_reducible apply State.onRings_same | with_reducible apply addCause_same
    | with_reducible apply State.onHost_same | with_reducible apply enumPort_same | with_reducible apply setSticky_same
    | with_reducible apply trainHost_same | with_reducible apply markFailed_same | with_reducible apply State.onPkg_same
    | with_reducible apply ite_same | with_reducible apply foldl_same | (refine Same.ofSnd (by assumption) ?_) | dsimp only
    | split

theorem lockDies_same {r₀ : State} {g₀ : Groups} {s : State} {b : BringUp} (h1 : Same g₀ r₀ s) (m_pkg : g₀.pkg = true)
    (m_ck : g₀.ck = true) (m_sv : g₀.sv = true) (m_i3c : g₀.i3c = true) : Same g₀ r₀ (lockDies s b) := by
  unfold lockDies
  repeat' first
    | with_reducible assumption | intro _ | with_reducible apply State.onCk_same | with_reducible apply setSticky_same
    | with_reducible apply markFailed_same | with_reducible apply State.onSv_same | with_reducible apply ite_same
    | with_reducible apply foldl_same | (refine Same.ofSnd (by assumption) ?_) | dsimp only | split

theorem trainPort_same {r₀ : State} {g₀ : Groups} {b : BringUp} {s : State} {d p : Nat} (h2 : Same g₀ r₀ s)
    (m_pkg : g₀.pkg = true) (m_sv : g₀.sv = true) (m_i3c : g₀.i3c = true) : Same g₀ r₀ (trainPort b s d p) := by
  unfold trainPort
  repeat' first
    | with_reducible assumption | intro _ | with_reducible apply setSticky_same | with_reducible apply setPort_same
    | with_reducible apply ite_same | with_reducible apply foldl_same | (refine Same.ofSnd (by assumption) ?_) | dsimp only
    | split

theorem trainLinks_same {r₀ : State} {g₀ : Groups} {s : State} {b : BringUp} (h1 : Same g₀ r₀ s) (m_pkg : g₀.pkg = true)
    (m_gz : g₀.gz = true) (m_sv : g₀.sv = true) (m_i3c : g₀.i3c = true) : Same g₀ r₀ (trainLinks s b) := by
  unfold trainLinks
  repeat' first
    | with_reducible assumption | intro _ | with_reducible apply State.onGz_same | with_reducible apply trainPort_same
    | with_reducible apply markFailed_same | with_reducible apply ite_same | with_reducible apply foldl_same
    | (refine Same.ofSnd (by assumption) ?_) | dsimp only | split

theorem startDies_same {r₀ : State} {g₀ : Groups} {s : State} {b : BringUp} {q0 : Queue} {r0 : Ring} (h1 : Same g₀ r₀ s)
    (m_free : g₀.free = true) (m_pkg : g₀.pkg = true) (m_regs : g₀.regs = true) (m_gz : g₀.gz = true) (m_ck : g₀.ck = true)
    (m_qm : g₀.qm = true) (m_rings : g₀.rings = true) (m_sv : g₀.sv = true) (m_sec : g₀.sec = true) (m_ct : g₀.ct = true)
    (m_host : g₀.host = true) (m_i3c : g₀.i3c = true) : Same g₀ r₀ (startDies s b q0 r0) := by
  unfold startDies
  repeat' first
    | with_reducible assumption | intro _ | with_reducible apply startFirmware_same | with_reducible apply State.onCk_same
    | with_reducible apply setSticky_same | with_reducible apply setPhase_same | with_reducible apply trainMemory_same
    | with_reducible apply lockDies_same | with_reducible apply holdFaultN_same | with_reducible apply State.onSv_same
    | with_reducible apply haltBringUp_same | with_reducible apply dropCause_same | with_reducible apply trainLinks_same
    | with_reducible apply ite_same | with_reducible apply foldl_same | (refine Same.ofSnd (by assumption) ?_) | dsimp only
    | split

theorem drain_same {r₀ : State} {g₀ : Groups} {s : State} (h1 : Same g₀ r₀ s) (m_free : g₀.free = true) (m_mem : g₀.mem = true)
    (m_regs : g₀.regs = true) (m_gz : g₀.gz = true) (m_tw : g₀.tw = true) (m_mu : g₀.mu = true) (m_streams : g₀.streams = true)
    (m_qm : g₀.qm = true) (m_seq : g₀.seq = true) (m_img : g₀.img = true) (m_rings : g₀.rings = true) (m_snap : g₀.snap = true)
    (m_sv : g₀.sv = true) (m_sec : g₀.sec = true) (m_host : g₀.host = true) (m_i3c : g₀.i3c = true) (m_sounds : g₀.sounds = true)
    (m_seqNo : g₀.seqNo = true) : Same g₀ r₀ (drain s) := by
  unfold drain
  repeat' first
    | with_reducible assumption | intro _ | with_reducible apply endFetchedAll_same | with_reducible apply endAll_same
    | with_reducible apply State.onSv_same | with_reducible apply deliver_same | with_reducible apply ite_same
    | with_reducible apply foldl_same | (refine Same.ofSnd (by assumption) ?_) | dsimp only | split

theorem warmStart_same {r₀ : State} {g₀ : Groups} {s : State} {cause : Nat} {b : BringUp} {firmware : State → State}
    (h1 : Same g₀ r₀ s) (h4 : (∀ (y08 : State), Same g₀ r₀ y08 → Same g₀ r₀ (firmware y08))) (m_free : g₀.free = true)
    (m_pkg : g₀.pkg = true) (m_mem : g₀.mem = true) (m_regs : g₀.regs = true) (m_gz : g₀.gz = true) (m_ck : g₀.ck = true)
    (m_tw : g₀.tw = true) (m_mu : g₀.mu = true) (m_streams : g₀.streams = true) (m_qm : g₀.qm = true) (m_seq : g₀.seq = true)
    (m_img : g₀.img = true) (m_rings : g₀.rings = true) (m_twin : g₀.twin = true) (m_snap : g₀.snap = true) (m_sv : g₀.sv = true)
    (m_sec : g₀.sec = true) (m_ct : g₀.ct = true) (m_host : g₀.host = true) (m_i3c : g₀.i3c = true) (m_sounds : g₀.sounds = true)
    (m_seqNo : g₀.seqNo = true) (m_cores : g₀.cores = true) : Same g₀ r₀ (warmStart s cause b firmware) := by
  unfold warmStart
  repeat' first
    | with_reducible assumption | intro _ | with_reducible apply bump_same | with_reducible apply warmBase_same
    | with_reducible apply reloadImage_same | with_reducible apply regSet_same | with_reducible apply noFirmware_same
    | with_reducible apply startDies_same | with_reducible apply drain_same | with_reducible apply State.onSv_same
    | with_reducible apply h4 | with_reducible apply ite_same | with_reducible apply foldl_same
    | (refine Same.ofSnd (by assumption) ?_) | dsimp only | split

theorem execTrialExpiry_same {r₀ : State} {g₀ : Groups} {restoredOk : Bool} {b : BringUp} {s : State} {t₀}
    (e₀ : execTrialExpiry restoredOk b s = .next t₀) (h3 : Same g₀ r₀ s) (m_free : g₀.free = true) (m_pkg : g₀.pkg = true)
    (m_mem : g₀.mem = true) (m_regs : g₀.regs = true) (m_gz : g₀.gz = true) (m_ck : g₀.ck = true) (m_tw : g₀.tw = true)
    (m_mu : g₀.mu = true) (m_streams : g₀.streams = true) (m_qm : g₀.qm = true) (m_seq : g₀.seq = true) (m_img : g₀.img = true)
    (m_rings : g₀.rings = true) (m_twin : g₀.twin = true) (m_snap : g₀.snap = true) (m_sv : g₀.sv = true) (m_sec : g₀.sec = true)
    (m_ct : g₀.ct = true) (m_host : g₀.host = true) (m_i3c : g₀.i3c = true) (m_sounds : g₀.sounds = true)
    (m_seqNo : g₀.seqNo = true) (m_cores : g₀.cores = true) : Same g₀ r₀ t₀ := by
  unfold execTrialExpiry at e₀
  repeat' first | contradiction | (injection e₀ with e₀; subst e₀) | dsimp only at e₀ | (split at e₀)
  repeat' first
    | with_reducible assumption | intro _ | with_reducible apply restoreFw_same | with_reducible apply warmStart_same
    | with_reducible apply ite_same | with_reducible apply foldl_same | (refine Same.ofSnd (by assumption) ?_) | dsimp only
    | split

theorem warmFirmware_same {r₀ : State} {g₀ : Groups} {s : State} {b : BringUp} (h1 : Same g₀ r₀ s) (m_free : g₀.free = true)
    (m_sv : g₀.sv = true) (m_sec : g₀.sec = true) (m_i3c : g₀.i3c = true) : Same g₀ r₀ (warmFirmware s b) := by
  unfold warmFirmware
  repeat' first
    | with_reducible assumption | intro _ | with_reducible apply State.onSec_same | with_reducible apply State.took_same
    | with_reducible apply migrateAlm_same | with_reducible apply restoreFw_same | with_reducible apply ite_same
    | with_reducible apply foldl_same | (refine Same.ofSnd (by assumption) ?_) | dsimp only | split

theorem execWarmReset_same {r₀ : State} {g₀ : Groups} {cause : Nat} {b : BringUp} {s : State} {t₀}
    (e₀ : execWarmReset cause b s = .next t₀) (h3 : Same g₀ r₀ s) (m_free : g₀.free = true) (m_pkg : g₀.pkg = true)
    (m_mem : g₀.mem = true) (m_regs : g₀.regs = true) (m_gz : g₀.gz = true) (m_ck : g₀.ck = true) (m_tw : g₀.tw = true)
    (m_mu : g₀.mu = true) (m_streams : g₀.streams = true) (m_qm : g₀.qm = true) (m_seq : g₀.seq = true) (m_img : g₀.img = true)
    (m_rings : g₀.rings = true) (m_twin : g₀.twin = true) (m_snap : g₀.snap = true) (m_sv : g₀.sv = true) (m_sec : g₀.sec = true)
    (m_ct : g₀.ct = true) (m_host : g₀.host = true) (m_i3c : g₀.i3c = true) (m_sounds : g₀.sounds = true)
    (m_seqNo : g₀.seqNo = true) (m_cores : g₀.cores = true) : Same g₀ r₀ t₀ := by
  unfold execWarmReset at e₀
  repeat' first | contradiction | (injection e₀ with e₀; subst e₀) | dsimp only at e₀ | (split at e₀)
  repeat' first
    | with_reducible assumption | intro _ | with_reducible apply warmFirmware_same | with_reducible apply warmStart_same
    | with_reducible apply ite_same | with_reducible apply foldl_same | (refine Same.ofSnd (by assumption) ?_) | dsimp only
    | split

theorem findFirmware_same {r₀ : State} {g₀ : Groups} {s : State} {b : BringUp} (h1 : Same g₀ r₀ s) (m_sec : g₀.sec = true)
    : Same g₀ r₀ (findFirmware s b) := by
  unfold findFirmware
  repeat' first
    | with_reducible assumption | intro _ | with_reducible apply State.onSec_same | with_reducible apply ite_same
    | with_reducible apply foldl_same | (refine Same.ofSnd (by assumption) ?_) | dsimp only | split

theorem waitAt_same {r₀ : State} {g₀ : Groups} {s : State} {n : Nat} (h1 : Same g₀ r₀ s) (m_sv : g₀.sv = true)
    : Same g₀ r₀ (waitAt s n) := by
  unfold waitAt
  repeat' first
    | with_reducible assumption | intro _ | with_reducible apply State.onSv_same | with_reducible apply ite_same
    | with_reducible apply foldl_same | (refine Same.ofSnd (by assumption) ?_) | dsimp only | split

theorem powerUp_same {r₀ : State} {g₀ : Groups} {s : State} {b : BringUp} (h1 : Same g₀ r₀ s) (m_free : g₀.free = true)
    (m_pkg : g₀.pkg = true) (m_regs : g₀.regs = true) (m_gz : g₀.gz = true) (m_ck : g₀.ck = true) (m_qm : g₀.qm = true)
    (m_rings : g₀.rings = true) (m_sv : g₀.sv = true) (m_sec : g₀.sec = true) (m_ct : g₀.ct = true) (m_host : g₀.host = true)
    (m_i3c : g₀.i3c = true) : Same g₀ r₀ (powerUp s b) := by
  unfold powerUp
  repeat' first
    | with_reducible assumption | intro _ | with_reducible apply startDies_same | with_reducible apply waitAt_same
    | with_reducible apply ite_same | with_reducible apply foldl_same | (refine Same.ofSnd (by assumption) ?_) | dsimp only
    | split

theorem bootChecks_same {r₀ : State} {g₀ : Groups} {s : State} {b : BringUp} (h1 : Same g₀ r₀ s) (m_free : g₀.free = true)
    (m_pkg : g₀.pkg = true) (m_regs : g₀.regs = true) (m_gz : g₀.gz = true) (m_ck : g₀.ck = true) (m_qm : g₀.qm = true)
    (m_rings : g₀.rings = true) (m_sv : g₀.sv = true) (m_sec : g₀.sec = true) (m_ct : g₀.ct = true) (m_host : g₀.host = true)
    (m_i3c : g₀.i3c = true) : Same g₀ r₀ (bootChecks s b) := by
  unfold bootChecks
  repeat' first
    | with_reducible assumption | intro _ | with_reducible apply findFirmware_same | with_reducible apply State.onSec_same
    | with_reducible apply powerUp_same | with_reducible apply bootFail_same | with_reducible apply setPhase_same
    | with_reducible apply noFirmware_same | with_reducible apply State.onSv_same | with_reducible apply restoreFw_same
    | with_reducible apply ite_same | with_reducible apply foldl_same | (refine Same.ofSnd (by assumption) ?_) | dsimp only
    | split

theorem selvageReady_same {r₀ : State} {g₀ : Groups} {s : State} {b : BringUp} (h1 : Same g₀ r₀ s) (m_free : g₀.free = true)
    (m_pkg : g₀.pkg = true) (m_regs : g₀.regs = true) (m_gz : g₀.gz = true) (m_ck : g₀.ck = true) (m_qm : g₀.qm = true)
    (m_rings : g₀.rings = true) (m_sv : g₀.sv = true) (m_sec : g₀.sec = true) (m_ct : g₀.ct = true) (m_host : g₀.host = true)
    (m_i3c : g₀.i3c = true) : Same g₀ r₀ (selvageReady s b) := by
  unfold selvageReady
  repeat' first
    | with_reducible assumption | intro _ | with_reducible apply selvageRecords_same | with_reducible apply bootChecks_same
    | with_reducible apply State.onSv_same | with_reducible apply ite_same | with_reducible apply foldl_same
    | (refine Same.ofSnd (by assumption) ?_) | dsimp only | split

theorem selvageStart_same {r₀ : State} {g₀ : Groups} {s : State} {b : BringUp} (h1 : Same g₀ r₀ s) (m_free : g₀.free = true)
    (m_pkg : g₀.pkg = true) (m_regs : g₀.regs = true) (m_gz : g₀.gz = true) (m_ck : g₀.ck = true) (m_qm : g₀.qm = true)
    (m_rings : g₀.rings = true) (m_sv : g₀.sv = true) (m_sec : g₀.sec = true) (m_ct : g₀.ct = true) (m_host : g₀.host = true)
    (m_i3c : g₀.i3c = true) : Same g₀ r₀ (selvageStart s b) := by
  unfold selvageStart
  repeat' first
    | with_reducible assumption | intro _ | with_reducible apply setPhase_same | with_reducible apply selvageReady_same
    | with_reducible apply State.onPkg_same | with_reducible apply waitAt_same | with_reducible apply ite_same
    | with_reducible apply foldl_same | (refine Same.ofSnd (by assumption) ?_) | dsimp only | split

theorem coldBase_same {r₀ : State} {g₀ : Groups} {s : State} (h1 : Same g₀ r₀ s) (m_pkg : g₀.pkg = true) (m_mem : g₀.mem = true)
    (m_regs : g₀.regs = true) (m_gz : g₀.gz = true) (m_ck : g₀.ck = true) (m_tw : g₀.tw = true) (m_mu : g₀.mu = true)
    (m_streams : g₀.streams = true) (m_qm : g₀.qm = true) (m_seq : g₀.seq = true) (m_img : g₀.img = true)
    (m_rings : g₀.rings = true) (m_twin : g₀.twin = true) (m_snap : g₀.snap = true) (m_sv : g₀.sv = true) (m_sec : g₀.sec = true)
    (m_ct : g₀.ct = true) (m_host : g₀.host = true) (m_i3c : g₀.i3c = true) (m_sounds : g₀.sounds = true)
    (m_seqNo : g₀.seqNo = true) (m_cores : g₀.cores = true) : Same g₀ r₀ (coldBase s) :=
  { pending := h1.pending, free := h1.free, pkg := fun e => Bool.noConfusion (e.symm.trans m_pkg),
    mem := fun e => Bool.noConfusion (e.symm.trans m_mem), regs := fun e => Bool.noConfusion (e.symm.trans m_regs),
    gz := fun e => Bool.noConfusion (e.symm.trans m_gz), ck := fun e => Bool.noConfusion (e.symm.trans m_ck),
    tw := fun e => Bool.noConfusion (e.symm.trans m_tw), mu := fun e => Bool.noConfusion (e.symm.trans m_mu),
    streams := fun e => Bool.noConfusion (e.symm.trans m_streams), qm := fun e => Bool.noConfusion (e.symm.trans m_qm),
    seq := fun e => Bool.noConfusion (e.symm.trans m_seq), img := fun e => Bool.noConfusion (e.symm.trans m_img),
    rings := fun e => Bool.noConfusion (e.symm.trans m_rings), twin := fun e => Bool.noConfusion (e.symm.trans m_twin),
    snap := fun e => Bool.noConfusion (e.symm.trans m_snap), sv := fun e => Bool.noConfusion (e.symm.trans m_sv),
    sec := fun e => Bool.noConfusion (e.symm.trans m_sec), ct := fun e => Bool.noConfusion (e.symm.trans m_ct),
    host := fun e => Bool.noConfusion (e.symm.trans m_host), i3c := fun e => Bool.noConfusion (e.symm.trans m_i3c),
    sounds := fun e => Bool.noConfusion (e.symm.trans m_sounds), seqNo := fun e => Bool.noConfusion (e.symm.trans m_seqNo),
    cores := fun e => Bool.noConfusion (e.symm.trans m_cores) }

theorem coldStart_same {r₀ : State} {g₀ : Groups} {s : State} {cause : Nat} {b : BringUp} (h1 : Same g₀ r₀ s)
    (m_free : g₀.free = true) (m_pkg : g₀.pkg = true) (m_mem : g₀.mem = true) (m_regs : g₀.regs = true) (m_gz : g₀.gz = true)
    (m_ck : g₀.ck = true) (m_tw : g₀.tw = true) (m_mu : g₀.mu = true) (m_streams : g₀.streams = true) (m_qm : g₀.qm = true)
    (m_seq : g₀.seq = true) (m_img : g₀.img = true) (m_rings : g₀.rings = true) (m_twin : g₀.twin = true)
    (m_snap : g₀.snap = true) (m_sv : g₀.sv = true) (m_sec : g₀.sec = true) (m_ct : g₀.ct = true) (m_host : g₀.host = true)
    (m_i3c : g₀.i3c = true) (m_sounds : g₀.sounds = true) (m_seqNo : g₀.seqNo = true) (m_cores : g₀.cores = true)
    : Same g₀ r₀ (coldStart s cause b) := by
  unfold coldStart
  repeat' first
    | with_reducible assumption | intro _ | with_reducible apply selvageStart_same | with_reducible apply coldBase_same
    | with_reducible apply addCause_same | with_reducible apply State.onSv_same | with_reducible apply waitAt_same
    | with_reducible apply ite_same | with_reducible apply foldl_same | (refine Same.ofSnd (by assumption) ?_) | dsimp only
    | split

theorem execColdReset_same {r₀ : State} {g₀ : Groups} {cause : Nat} {b : BringUp} {s : State} {t₀}
    (e₀ : execColdReset cause b s = .next t₀) (h3 : Same g₀ r₀ s) (m_free : g₀.free = true) (m_pkg : g₀.pkg = true)
    (m_mem : g₀.mem = true) (m_regs : g₀.regs = true) (m_gz : g₀.gz = true) (m_ck : g₀.ck = true) (m_tw : g₀.tw = true)
    (m_mu : g₀.mu = true) (m_streams : g₀.streams = true) (m_qm : g₀.qm = true) (m_seq : g₀.seq = true) (m_img : g₀.img = true)
    (m_rings : g₀.rings = true) (m_twin : g₀.twin = true) (m_snap : g₀.snap = true) (m_sv : g₀.sv = true) (m_sec : g₀.sec = true)
    (m_ct : g₀.ct = true) (m_host : g₀.host = true) (m_i3c : g₀.i3c = true) (m_sounds : g₀.sounds = true)
    (m_seqNo : g₀.seqNo = true) (m_cores : g₀.cores = true) : Same g₀ r₀ t₀ := by
  unfold execColdReset at e₀
  repeat' first | contradiction | (injection e₀ with e₀; subst e₀) | dsimp only at e₀ | (split at e₀)
  repeat' first
    | with_reducible assumption | intro _ | with_reducible apply coldStart_same | with_reducible apply State.onSv_same
    | with_reducible apply ite_same | with_reducible apply foldl_same | (refine Same.ofSnd (by assumption) ?_) | dsimp only
    | split

theorem execVin12InRange_same {r₀ : State} {g₀ : Groups} {b : BringUp} {s : State} {t₀} (e₀ : execVin12InRange b s = .next t₀)
    (h2 : Same g₀ r₀ s) (m_free : g₀.free = true) (m_pkg : g₀.pkg = true) (m_regs : g₀.regs = true) (m_gz : g₀.gz = true)
    (m_ck : g₀.ck = true) (m_qm : g₀.qm = true) (m_rings : g₀.rings = true) (m_sv : g₀.sv = true) (m_sec : g₀.sec = true)
    (m_ct : g₀.ct = true) (m_host : g₀.host = true) (m_i3c : g₀.i3c = true) : Same g₀ r₀ t₀ := by
  unfold execVin12InRange at e₀
  repeat' first | contradiction | (injection e₀ with e₀; subst e₀) | dsimp only at e₀ | (split at e₀)
  repeat' first
    | with_reducible assumption | intro _ | with_reducible apply startDies_same | with_reducible apply ite_same
    | with_reducible apply foldl_same | (refine Same.ofSnd (by assumption) ?_) | dsimp only | split

theorem execRefclkAPresent_same {r₀ : State} {g₀ : Groups} {b : BringUp} {s : State} {t₀} (e₀ : execRefclkAPresent b s = .next t₀)
    (h2 : Same g₀ r₀ s) (m_free : g₀.free = true) (m_pkg : g₀.pkg = true) (m_regs : g₀.regs = true) (m_gz : g₀.gz = true)
    (m_ck : g₀.ck = true) (m_qm : g₀.qm = true) (m_rings : g₀.rings = true) (m_sv : g₀.sv = true) (m_sec : g₀.sec = true)
    (m_ct : g₀.ct = true) (m_host : g₀.host = true) (m_i3c : g₀.i3c = true) : Same g₀ r₀ t₀ := by
  unfold execRefclkAPresent at e₀
  repeat' first | contradiction | (injection e₀ with e₀; subst e₀) | dsimp only at e₀ | (split at e₀)
  repeat' first
    | with_reducible assumption | intro _ | with_reducible apply selvageReady_same | with_reducible apply ite_same
    | with_reducible apply foldl_same | (refine Same.ofSnd (by assumption) ?_) | dsimp only | split

theorem execVauxLoss_same {r₀ : State} {g₀ : Groups} {s : State} {t₀} (e₀ : execVauxLoss s = .next t₀) (h1 : Same g₀ r₀ s)
    (m_pkg : g₀.pkg = true) (m_mem : g₀.mem = true) (m_regs : g₀.regs = true) (m_gz : g₀.gz = true) (m_ck : g₀.ck = true)
    (m_tw : g₀.tw = true) (m_mu : g₀.mu = true) (m_streams : g₀.streams = true) (m_qm : g₀.qm = true) (m_seq : g₀.seq = true)
    (m_img : g₀.img = true) (m_rings : g₀.rings = true) (m_twin : g₀.twin = true) (m_snap : g₀.snap = true) (m_sv : g₀.sv = true)
    (m_sec : g₀.sec = true) (m_ct : g₀.ct = true) (m_host : g₀.host = true) (m_i3c : g₀.i3c = true) (m_sounds : g₀.sounds = true)
    (m_seqNo : g₀.seqNo = true) (m_cores : g₀.cores = true) : Same g₀ r₀ t₀ := by
  unfold execVauxLoss at e₀
  repeat' first | contradiction | (injection e₀ with e₀; subst e₀) | dsimp only at e₀ | (split at e₀)
  repeat' first
    | with_reducible assumption | intro _ | with_reducible apply powerDown_same | with_reducible apply State.onSv_same
    | with_reducible apply ite_same | with_reducible apply foldl_same | (refine Same.ofSnd (by assumption) ?_) | dsimp only
    | split

theorem execHoldOffExpiry_same {r₀ : State} {g₀ : Groups} {sensor : Nat} {b : BringUp} {s : State} {t₀}
    (e₀ : execHoldOffExpiry sensor b s = .next t₀) (h3 : Same g₀ r₀ s) (m_free : g₀.free = true) (m_pkg : g₀.pkg = true)
    (m_mem : g₀.mem = true) (m_regs : g₀.regs = true) (m_gz : g₀.gz = true) (m_ck : g₀.ck = true) (m_tw : g₀.tw = true)
    (m_mu : g₀.mu = true) (m_streams : g₀.streams = true) (m_qm : g₀.qm = true) (m_seq : g₀.seq = true) (m_img : g₀.img = true)
    (m_rings : g₀.rings = true) (m_twin : g₀.twin = true) (m_snap : g₀.snap = true) (m_sv : g₀.sv = true) (m_sec : g₀.sec = true)
    (m_ct : g₀.ct = true) (m_host : g₀.host = true) (m_i3c : g₀.i3c = true) (m_sounds : g₀.sounds = true)
    (m_seqNo : g₀.seqNo = true) (m_cores : g₀.cores = true) : Same g₀ r₀ t₀ := by
  unfold execHoldOffExpiry at e₀
  repeat' first | contradiction | (injection e₀ with e₀; subst e₀) | dsimp only at e₀ | (split at e₀)
  repeat' first
    | with_reducible assumption | intro _ | with_reducible apply coldStart_same | with_reducible apply State.onSv_same
    | with_reducible apply ite_same | with_reducible apply foldl_same | (refine Same.ofSnd (by assumption) ?_) | dsimp only
    | split

end Sys2Proof.Machine
end

