-- ==== Sys2Proof/Laws/Resets.lean ====
section
/-!
SUPPORT. What the shared operations of resets and bring-up do.
-/

namespace Sys2Proof.Machine

open Sys2Proof

/-- What a bring-up leaves of Selvage. -/
def svCore (s : State) := (s.sv.cause, s.sv.locked, s.sv.drained, s.sv.dirLost)
theorem core_of {a b : State} (h : b.sv = a.sv) : svCore b = svCore a := by unfold svCore; rw [h]
theorem core_fold {α : Type} {f : State → α → State} (hf : ∀ s a, svCore (f s a) = svCore s) (l : List α) : ∀ s, svCore (l.foldl f s) = svCore s := by
  induction l with
  | nil => exact fun _ => rfl
  | cons a l ih => exact fun s => (ih _).trans (hf s a)
theorem core_raise (s : State) (b : Nat) : svCore (raiseIbi s b) = svCore s := core_of ((raiseIbi_same (g₀ := { i3c := true }) (Same.refl _ s) rfl).sv rfl)
theorem core_sticky (s : State) (k : Nat) : svCore (setSticky s k) = svCore s := by
  unfold setSticky; dsimp only; split
  · rw [core_raise]; rfl
  · rfl
theorem core_hold (s : State) : svCore (holdFaultN s) = svCore s := by
  unfold holdFaultN; dsimp only; split
  · rw [core_raise]; rfl
  · rfl
theorem core_halt (s : State) : svCore (haltBringUp s) = svCore s := by unfold haltBringUp; rw [core_raise]; rfl
theorem core_addCause (s : State) (c : Nat) : svCore (addCause s c) = svCore s := core_of ((addCause_same (g₀ := { pkg := true, rings := true }) (Same.refl _ s) rfl rfl).sv rfl)
theorem core_lock (s : State) (b : BringUp) : svCore (lockDies s b) = svCore s := by
  unfold lockDies; dsimp only
  show svCore (List.foldl _ _ _) = _
  rw [core_fold (fun s d => core_sticky ..)]; rfl
theorem core_links (s : State) (b : BringUp) : svCore (trainLinks s b) = svCore s := by
  unfold trainLinks; dsimp only
  show svCore (List.foldl _ _ _) = _
  refine core_fold (fun s d => core_fold (fun s p => ?_) _ s) _ s
  unfold trainPort
  split
  · split
    · rfl
    · split
      · exact core_sticky ..
      · rfl
  · rfl
theorem core_memory (s : State) (b : BringUp) : svCore (trainMemory s b) = svCore s := by
  unfold trainMemory; dsimp only
  generalize hx : State.onHost _ _ = x
  have e : svCore x = svCore s := by
    rw [← hx]
    refine Eq.trans (b := svCore (List.foldl (enumPort b) _ _)) rfl ?_
    rw [core_fold (fun s p => core_of ((enumPort_same (g₀ := { free := true, pkg := true }) (Same.refl _ s) rfl rfl).sv rfl))]
    rw [core_fold (fun s d => core_addCause ..)]
    refine Eq.trans (b := svCore (List.foldl _ s _)) rfl ?_
    refine core_fold (fun s j => ?_) _ _
    rw [core_sticky]; rfl
  split
  · rw [core_of ((trainHost_same (g₀ := { free := true, host := true }) (Same.refl _ x) rfl rfl).sv rfl)]; exact e
  · exact e
theorem phase_halt (s : State) : (haltBringUp s).sv.phase = 15 := by
  unfold haltBringUp; rw [(raiseIbi_same (g₀ := { i3c := true }) (Same.refl _ _) rfl).sv rfl]; rfl
theorem start_is (s : State) (b : BringUp) (q : Queue) (r : Ring) : svCore (startDies s b q r) = svCore s ∧ BroughtUp (startDies s b q r) b ∧ (startDies s b q r).img = s.img := by
  refine ⟨?_, ?_, ?_⟩
  · unfold startDies; dsimp only
    split
    · rw [core_halt, core_hold, core_sticky]; rfl
    · have e : svCore (trainMemory (trainLinks (((lockDies (dropCause (setPhase s 5) causePower) b).onSv fun v => { v with bootStage := 7 }).onCk fun c => { c with grid := c.locked }) b) b) = svCore s := by
        rw [core_memory, core_links]
        refine Eq.trans (b := svCore (lockDies _ b)) rfl ?_
        rw [core_lock]; rfl
      split
      · rw [core_halt]; exact e
      · refine Eq.trans (b := svCore (startFirmware _ q r)) rfl ?_
        rw [core_of ((startFirmware_same (g₀ := { pkg := true, regs := true, qm := true, sec := true, ct := true }) (Same.refl _ _) rfl rfl rfl rfl rfl).sv rfl)]; exact e
  · unfold startDies BroughtUp; dsimp only
    split
    · rename_i h; rw [phase_halt, if_neg (by intro c; rw [h] at c; cases c.1)]
    · rename_i h
      generalize trainMemory _ b = z
      cases k : stackUp z 15 with
      | false =>
        simp only [Bool.not_false, if_true]
        rw [phase_halt, if_neg]
        intro c
        have : stackUp (haltBringUp (setPhase z 9)) 15 = stackUp z 15 := by
          unfold haltBringUp stackUp dieUp raiseIbi; split <;> rfl
        rw [this, k] at c; exact absurd c.2 (by simp)
      | true =>
        simp only [Bool.not_true, Bool.false_eq_true, if_false]
        rw [if_pos]; rfl
        refine ⟨by simpa using h, ?_⟩
        rw [← k]
        have S := startFirmware_same (g₀ := { pkg := true, regs := true, qm := true, sec := true, ct := true }) (q0 := q) (r0 := r) (Same.refl _ z) rfl rfl rfl rfl rfl
        have F := firmwareRecords_same (g₀ := { regs := true, ct := true }) (Same.refl _ (z.onSec fun c => { c with fwSteps := 0 })) rfl rfl
        have P : (startFirmware z q r).pkg = { z.pkg with legendGen := 2, legendValid := true } := by
          unfold startFirmware; dsimp only
          show ({ (firmwareRecords _).pkg with legendGen := 2, legendValid := true } : Pkg) = _
          rw [F.pkg rfl]; rfl
        show stackUp (setPhase (startFirmware z q r) 12) 15 = _
        unfold stackUp dieUp setPhase
        show (decide (15 < 16) && !(startFirmware z q r).pkg.stackFailed.contains 15 && (fitted (startFirmware z q r).pkg.variant _ && !(startFirmware z q r).pkg.dieFailed.contains _ && ((startFirmware z q r).sv.on || _))) = _
        rw [P, S.sv rfl]
  · exact (startDies_same (g₀ := { free := true, pkg := true, regs := true, gz := true, ck := true, qm := true, rings := true, sv := true, sec := true, ct := true, host := true, i3c := true }) (Same.refl _ s) rfl rfl rfl rfl rfl rfl rfl rfl rfl rfl rfl rfl).img rfl
theorem fail_is (s : State) (a r : Nat) : svCore (bootFail s a r) = svCore s ∧ (bootFail s a r).sv.phase = 15 ∧ (bootFail s a r).sv.bootStage = a ∧ (bootFail s a r).sv.bootReason = r ∧
    (bootFail s a r).sec = s.sec ∧ ∀ k ∈ s.sv.sticky, k ∈ (bootFail s a r).sv.sticky := by
  have R : ∀ (z : State) k, (raiseIbi z k).sv = z.sv := fun z k => (raiseIbi_same (g₀ := { i3c := true }) (Same.refl _ _) rfl).sv rfl
  have E : (bootFail s a r).sv = { s.sv with bootStage := a, bootReason := r, starting := true, phase := 15, waiting := 0 } := by
    unfold bootFail haltBringUp
    rw [R]
    unfold holdFaultN; dsimp only
    split
    · show ({ (raiseIbi _ 1).sv with phase := 15, waiting := 0 } : Selvage) = _
      rw [R]; rfl
    · rfl
  refine ⟨by unfold svCore; rw [E], by rw [E], by rw [E], by rw [E], ?_, by rw [E]; exact fun _ h => h⟩
  exact (bootFail_same (g₀ := { sv := true, i3c := true }) (Same.refl _ s) rfl rfl).sec rfl
theorem noFirmware_is (s : State) : svCore (noFirmware s) = svCore s ∧ (noFirmware s).sv.phase = 15 ∧ (noFirmware s).sv.bootStage = 5 ∧ (noFirmware s).sv.bootReason = 5 ∧
    (noFirmware s).sec.fwState = fwNone ∧ srcFlash ∈ (noFirmware s).sv.sticky := by
  obtain ⟨a, p, q, r, e, k⟩ := fail_is ((setSticky s srcFlash).onSec fun c => { c with fwState := fwNone }) 5 5
  exact ⟨a.trans (core_sticky s srcFlash), p, q, r, by rw [noFirmware, e]; rfl, k _ (sticky_mem s srcFlash)⟩
theorem core_restore (s : State) (ok : Bool) : svCore (restoreFw s ok) = svCore s := by
  unfold restoreFw
  split
  · rfl
  · dsimp only; split
    · rfl
    · rw [core_sticky]; rfl
theorem boot_is (s : State) (b : BringUp) (h : s.sv.locked = !b.svclkOk) : svCore (bootChecks s b) = svCore s ∧ Booted s (bootChecks s b) b := by
  have L : ∀ {t : State}, svCore t = svCore s → t.sv.locked = !b.svclkOk := by
    intro t e; rw [← h]; exact congrArg (fun x => x.2.1) e
  unfold Booted
  unfold bootChecks
  dsimp only
  cases p1 : b.pufOk with
  | false =>
    simp only [Bool.not_false, if_true]
    obtain ⟨a, p, q, r, _, _⟩ := fail_is (setPhase s 3) 1 1
    exact ⟨a, L a, p, q, r⟩
  | true =>
    simp only [Bool.not_true, Bool.false_eq_true, if_false]
    by_cases p2 : b.manifestOk = false ∨ 3 ≤ b.variantStrap
    · rw [if_pos p2, if_pos (by simpa using p2)]
      obtain ⟨a, p, q, r, _, _⟩ := fail_is ((setPhase s 3).onSec fun c => { c with deviceId := padTo 16 (Config.sha256 (padTo 32 identityPublic)) }) 2 2
      exact ⟨a, L a, p, q, r⟩
    · rw [if_neg p2, if_neg (by simpa using p2)]
      cases p3 : b.skewickOk with
      | false =>
        simp only [Bool.not_false, if_true]
        obtain ⟨a, p, q, r, _, _⟩ := fail_is ((setPhase s 3).onSec fun c => { c with deviceId := padTo 16 (Config.sha256 (padTo 32 identityPublic)) }) 3 3
        exact ⟨a, L a, p, q, r⟩
      | true =>
        simp only [Bool.not_true, Bool.false_eq_true, if_false]
        generalize hy : State.onSec (setPhase s 3) _ = y
        have y1 : svCore y = svCore s := by rw [← hy]; rfl
        have y2 : y.sec = { s.sec with deviceId := padTo 16 (Config.sha256 (padTo 32 identityPublic)) } := by rw [← hy]; rfl
        have z1 : svCore (findFirmware (restoreFw y b.firmwareOk) b) = svCore s := by
          refine Eq.trans (b := svCore (restoreFw y b.firmwareOk)) rfl ?_
          rw [core_restore]; exact y1
        have z2 : s.sec.fwJournal = none → (findFirmware (restoreFw y b.firmwareOk) b).sec.fwVersion = bootVersion s b ∧ fwFloor (findFirmware (restoreFw y b.firmwareOk) b) = fwFloor s := by
          intro n
          have r : restoreFw y b.firmwareOk = y := by unfold restoreFw; rw [y2, n]
          rw [r]
          unfold findFirmware bootVersion fwFloor almNum almGet
          show (if (y.sec.fwImage.isEmpty && decide (y.sec.fwVersion = 0)) = true then _ else _) = _ ∧ (match Option.map _ (y.sec.almanac.find? _) with | some d => ofLe d | none => 0) = _
          rw [y2]; exact ⟨rfl, rfl⟩
        generalize findFirmware _ b = z at z1 z2 ⊢
        cases p4 : b.firmwareOk with
        | false =>
          simp only [Bool.not_false, Bool.true_or, if_true]
          obtain ⟨a, p, q, r, e, k⟩ := noFirmware_is z
          exact ⟨a.trans z1, L (a.trans z1), p, q, r, e, k⟩
        | true =>
          simp only [Bool.not_true, Bool.false_or, Bool.true_eq_false, if_false]
          by_cases v : z.sec.fwVersion < fwFloor z
          · rw [if_pos (by simpa using v)]
            obtain ⟨a, p, q, r, e, k⟩ := noFirmware_is z
            refine ⟨a.trans z1, L (a.trans z1), fun n => ?_⟩
            rw [if_pos (by rw [← (z2 n).1, ← (z2 n).2]; exact v)]
            exact ⟨p, q, r⟩
          · rw [if_neg (by simpa using v)]
            unfold powerUp
            cases p5 : b.vin12 with
            | true =>
              simp only [if_true]
              obtain ⟨a, c, _⟩ := start_is (z.onSv fun v => { v with bootStage := 6, factory := b.factory }) b freshQueue {}
              refine ⟨a.trans z1, L (a.trans z1), fun n => ?_⟩
              rw [if_neg (by rw [← (z2 n).1, ← (z2 n).2]; exact v)]
              exact c
            | false =>
              simp only [Bool.false_eq_true, if_false]
              refine ⟨z1, L z1, fun n => ?_⟩
              rw [if_neg (by rw [← (z2 n).1, ← (z2 n).2]; exact v)]
              exact ⟨rfl, rfl⟩
theorem ready_is (s : State) (b : BringUp) : (selvageReady s b).sv.cause = s.sv.cause ∧ Booted s (selvageReady s b) b ∧ (selvageReady s b).pkg.pairId = s.pkg.pairId := by
  unfold selvageReady
  obtain ⟨a, c⟩ := boot_is (selvageRecords (s.onSv fun v => { v with sticky := [], starting := false, waiting := 0, locked := !b.svclkOk })) b rfl
  exact ⟨(congrArg (fun x => x.1) a).trans rfl, c, ((bootChecks_kept (c₀ := false) (Kept.refl _ _)).straps rfl).2.trans rfl⟩
theorem cold_is (s : State) (cause : Nat) (b : BringUp) : ColdStarted s (coldStart s cause b) cause b := by
  unfold ColdStarted coldStart
  dsimp only
  generalize hz : (addCause (coldBase s) causeReset).onSv _ = z
  have A := addCause_same (g₀ := { pkg := true, rings := true }) (c := causeReset) (Same.refl _ (coldBase s)) rfl rfl
  have z1 : z.sv.cause = cause := by rw [← hz]; rfl
  have z2 : z.mem = farOnly s.mem := by rw [← hz]; exact A.mem rfl
  have z3 : z.sec.fwJournal = s.sec.fwJournal ∧ fwFloor z = fwFloor s ∧ bootVersion z b = bootVersion s b := by
    have e : z.sec = (coldBase s).sec := by rw [← hz]; exact A.sec rfl
    unfold fwFloor almNum almGet bootVersion; rw [e]; exact ⟨rfl, rfl, rfl⟩
  have hb : ∀ x t, x.sec = z.sec → Booted x t b → Booted s t b := by
    intro x t e h
    unfold Booted at *
    rw [show fwFloor x = fwFloor s by rw [← z3.2.1]; unfold fwFloor almNum almGet; rw [e], show bootVersion x b = bootVersion s b by rw [← z3.2.2]; unfold bootVersion; rw [e], e, z3.1] at h
    exact h
  by_cases c : b.vauxRise = false ∨ b.resetNHigh = false
  · rw [if_pos c, if_neg (by rcases c with c | c <;> simp [c])]
    exact ⟨z1, z2, rfl, rfl⟩
  · rw [if_neg c, if_pos (by simpa using c)]
    unfold selvageStart
    dsimp only
    cases q : b.refclkA with
    | false =>
      simp only [Bool.false_eq_true, if_false, if_true]
      exact ⟨z1, z2, rfl, rfl, rfl⟩
    | true =>
      simp only [if_true, Bool.true_eq_false, if_false]
      obtain ⟨x, y, w⟩ := ready_is (setPhase (z.onPkg fun p => { p with variant := strapVariant b.variantStrap p.variant, pairId := b.pairIdStrap }) 2) b
      refine ⟨x.trans z1, ?_, w, hb _ _ rfl y⟩
      exact ((selvageReady_same (g₀ := { free := true, pkg := true, regs := true, gz := true, ck := true, qm := true, rings := true, sv := true, sec := true, ct := true, host := true, i3c := true }) (Same.refl _ _) rfl rfl rfl rfl rfl rfl rfl rfl rfl rfl rfl rfl).mem rfl).trans z2
theorem add_keeps (s : State) (c k : Nat) (h : k ∈ s.rings.causes) : k ∈ (addCause s c).rings.causes := by
  show k ∈ ((causeDims c).foldl closeDim _).rings.causes
  rw [(close_is ..).2.2.1]
  show k ∈ ins s.rings.causes c
  simp [h]
theorem down_is (s : State) : DiesDown s (powerDown s) ∧ (powerDown s).sv.sticky = s.sv.sticky := by
  unfold powerDown
  dsimp only
  generalize hz : State.onSv (State.onPkg _ _) _ = z
  have z1 : z.sv.on = false ∧ z.sv.sticky = s.sv.sticky := by rw [← hz]; exact ⟨rfl, rfl⟩
  have z2 : z.mem = farOnly s.mem := by rw [← hz]; rfl
  have z3 : z.qm = State.reset.qm := by rw [← hz]; rfl
  have z4 : z.sec.almanac = s.sec.almanac ∧ z.sec.fwImage = s.sec.fwImage ∧ z.sec.fwState = s.sec.fwState := by rw [← hz]; exact ⟨rfl, rfl, rfl⟩
  have z5 : z.pkg.variant = s.pkg.variant ∧ z.pkg.pairId = s.pkg.pairId := by rw [← hz]; exact ⟨rfl, rfl⟩
  clear hz
  obtain ⟨c1, _, _⟩ := cause_is z causePower
  obtain ⟨d1, _, d3⟩ := cause_is (addCause z causePower) causeSelvage
  have c2 := add_keeps (addCause z causePower) causeSelvage _ c1
  have A := addCause_same (g₀ := { pkg := true, rings := true }) (c := causeSelvage) (addCause_same (c := causePower) (Same.refl _ z) rfl rfl) rfl rfl
  have p1 := addCause_straps z causePower
  have p2 := addCause_straps (addCause z causePower) causeSelvage
  generalize addCause (addCause z causePower) causeSelvage = w at *
  have P : w.pkg.variant = s.pkg.variant ∧ w.pkg.pairId = s.pkg.pairId :=
    ⟨p2.1.trans (p1.1.trans z5.1), p2.2.trans (p1.2.trans z5.2)⟩
  have D : DiesDown s w := ⟨by rw [A.sv rfl]; exact z1.1, by rw [A.mem rfl]; exact z2, by rw [A.qm rfl]; exact z3, ⟨c2, d1⟩, d3,
    by rw [A.sec rfl]; exact z4, P⟩
  have E : w.sv.sticky = s.sv.sticky := by rw [A.sv rfl]; exact z1.2
  split
  · have R := raiseIbi_same (g₀ := { i3c := true }) (b := 3) (Same.refl _ w) rfl
    exact ⟨⟨by rw [R.sv rfl]; exact D.off, by rw [R.mem rfl]; exact D.mem, by rw [R.qm rfl]; exact D.qm, by rw [R.rings rfl]; exact D.causes,
      by intro a b c d; rw [rport_congr (b := w) (by rw [R.rings rfl])]; exact D.closed a b c d, by rw [R.sec rfl]; exact D.flash, by rw [R.pkg rfl]; exact D.straps⟩, by rw [R.sv rfl]; exact E⟩
  · exact ⟨D, E⟩
theorem down_of {s s' t t' : State} (D : DiesDown s' t) (h1 : s'.mem = s.mem) (h2 : s'.sec = s.sec) (h3 : s'.pkg = s.pkg) (S : Same { sv := true, i3c := true } t t')
    (h : t'.sv.on = t.sv.on) : DiesDown s t' :=
  ⟨by rw [h]; exact D.off, by rw [S.mem rfl, ← h1]; exact D.mem, by rw [S.qm rfl]; exact D.qm, by rw [S.rings rfl]; exact D.causes,
    by intro a b c d; rw [rport_congr (b := t) (by rw [S.rings rfl])]; exact D.closed a b c d, by rw [S.sec rfl, ← h2]; exact D.flash, by rw [S.pkg rfl, ← h3]; exact D.straps⟩
theorem early_sec (s : State) (d : Disp) (st : Nat) : (endEarly s d st).img.inForce = s.img.inForce ∧ (endEarly s d st).sec.fwState = s.sec.fwState := by
  refine ⟨endEarly_inForce .., ?_⟩
  have F : ∀ x h, (forget x h).sec.fwState = x.sec.fwState := by intro x h; unfold forget; rfl
  have G : (forget (dropReqs s d.hdr) d.hdr).sec.fwState = s.sec.fwState := (F ..).trans rfl
  unfold endEarly
  dsimp only
  rw [(complete_same (g₀ := { free := true, qm := true }) (Same.refl _ _) rfl rfl).sec rfl]
  rw [← G]
  generalize forget _ _ = x
  split
  · split
    · exact congrArg (fun c => c.fwState) ((staleTiles_same (g₀ := { tw := true }) (dropShadow_same (Same.refl _ x) rfl) rfl).sec rfl)
    · exact congrArg (fun c => c.fwState) ((dropShadow_same (g₀ := { tw := true }) (Same.refl _ x) rfl).sec rfl)
  · split
    · exact congrArg (fun c => c.fwState) ((staleTiles_same (g₀ := { tw := true }) (dropShadow_same (Same.refl _ x) rfl) rfl).sec rfl)
    · exact congrArg (fun c => c.fwState) ((dropShadow_same (g₀ := { tw := true }) (Same.refl _ x) rfl).sec rfl)
  · split <;> rfl
  · rfl
theorem drain_is (s : State) : (drain s).img.inForce = s.img.inForce ∧ (drain s).sec.fwState = s.sec.fwState ∧ (drain s).sv.drained = true := by
  have F : ∀ (l : List Cpl) (s : State), (l.foldl deliver s).img = s.img ∧ (l.foldl deliver s).sec = s.sec := by
    intro l s
    have S : Same { mem := true, regs := true, mu := true, qm := true, seq := true, sv := true, host := true, i3c := true, sounds := true, seqNo := true } s (l.foldl deliver s) :=
      foldl_same_of id (Same.refl _ s) fun b x h => deliver_same h rfl rfl rfl rfl rfl rfl rfl rfl rfl rfl
    exact ⟨S.img rfl, S.sec rfl⟩
  have G : ∀ (l : List (Nat × Queue)) (s : State), (l.foldl (fun s q => endFetchedAll s q.1 stAbortReset) s).img = s.img ∧ (l.foldl (fun s q => endFetchedAll s q.1 stAbortReset) s).sec = s.sec := by
    intro l s
    have S : Same { qm := true } s (l.foldl (fun s q => endFetchedAll s q.1 stAbortReset) s) := foldl_same_of id (Same.refl _ s) fun b x h => endFetchedAll_same h rfl
    exact ⟨S.img rfl, S.sec rfl⟩
  have H : ∀ (l : List Disp) (s : State), (l.foldl (fun s d => endEarly s d stAbortReset) s).img.inForce = s.img.inForce ∧ (l.foldl (fun s d => endEarly s d stAbortReset) s).sec.fwState = s.sec.fwState := by
    intro l
    induction l with
    | nil => exact fun _ => ⟨rfl, rfl⟩
    | cons a l ih => exact fun s => ⟨(ih _).1.trans (early_sec ..).1, (ih _).2.trans (early_sec ..).2⟩
  unfold drain endAll
  dsimp only
  refine ⟨?_, ?_, rfl⟩
  · show (List.foldl deliver _ _).img.inForce = _
    rw [(F ..).1, (G ..).1, (H ..).1, (F ..).1]
  · show (List.foldl deliver _ _).sec.fwState = _
    rw [(F ..).2, (G ..).2, (H ..).2, (F ..).2]
theorem warm_is (s : State) (cause : Nat) (b : BringUp) (f : State → State) (hf : ∀ z, svCore (f z) = svCore z ∧ (f z).img = z.img)
    (hn : ∀ z, z.sec.fwState = s.sec.fwState → (f z).sec.fwState ≠ fwNone) (h : s.img.inForce = none) : WarmStarted s (warmStart s cause b f) cause b := by
  unfold warmStart WarmStarted
  dsimp only
  generalize (List.range 8).filter _ = lost
  generalize hr : (!s.sv.fence.contains 0 && !s.pkg.dieFailed.contains 0) = ran
  generalize ho : (if ran = true then drain s else s.onSv fun v => { v with drained := false }) = old
  have o1 : old.img.inForce = none ∧ old.sec.fwState = s.sec.fwState ∧ old.sv.drained = ran := by
    rw [← ho]; cases ran with
    | true => simp only [if_true]; exact ⟨(drain_is s).1.trans h, (drain_is s).2⟩
    | false => exact ⟨h, rfl, rfl⟩
  generalize hx : (bump (warmBase old lost) 1 77832).onSv _ = x
  have x1 : svCore x = (cause, old.sv.locked, ran, bitsOf lost) := by
    rw [← hx]
    show (cause, (bump (warmBase old lost) 1 77832).sv.locked, (bump (warmBase old lost) 1 77832).sv.drained, bitsOf lost) = _
    rw [(bump_frame ..).sv rfl, ← o1.2.2]; rfl
  have x2 : x.img.inForce = none ∧ x.sec.fwState = s.sec.fwState := by
    rw [← hx]
    show (bump (warmBase old lost) 1 77832).img.inForce = none ∧ (bump (warmBase old lost) 1 77832).sec.fwState = _
    rw [(bump_frame ..).img rfl, (bump_frame ..).sec rfl]; exact ⟨rfl, o1.2.1⟩
  rw [if_neg (hn x x2.2)]
  obtain ⟨u1, u2, u3⟩ := start_is (f x) b (if ran = true then savedQueue old 0 else freshQueue) (if ran = true then savedRing old ring0 else {})
  rw [(hf x).1, x1] at u1
  rw [(hf x).2] at u3
  generalize startDies _ _ _ _ = u at *
  have e : ∀ (w : State), reloadImage old w ran = w := by intro w; unfold reloadImage; rw [o1.1]
  generalize hw : (if (u.sv.phase != 12) = true then u else reloadImage old _ ran : State) = w
  have w1 : w.sv = u.sv ∧ w.img = u.img ∧ w.pkg = u.pkg := by
    rw [← hw]; split
    · exact ⟨rfl, rfl, rfl⟩
    · rw [e]; split <;> exact ⟨rfl, rfl, rfl⟩
  have w2 : svCore w = _ := (core_of w1.1).trans u1
  refine ⟨congrArg (fun x => x.1) w2, congrArg (fun x => x.2.2.1) w2, congrArg (fun x => x.2.2.2) w2, by rw [w1.2.1, u3]; exact x2.1, ?_⟩
  unfold BroughtUp stackUp dieUp at *
  rw [w1.1, w1.2.2]; exact u2
theorem pt_same (s : State) (f : I3c → I3c) : Same { i3c := true } s (s.onI3c f) := State.onI3c_same (Same.refl _ s) rfl
theorem keep_none {α : Type} (f : Nat → Bool) (m : FMap α) (k : Nat) (h : f k = false) : look (keep (fun a _ => f a) m) k = none := by
  induction m with
  | nil => rfl
  | cons p m ih =>
    unfold keep at *
    rw [List.filter_cons]
    split
    · rename_i q
      rw [look, if_neg (by intro e; dsimp only at q; rw [← e, h] at q; cases q)]; exact ih
    · exact ih
theorem cold_mem (s : State) (cause : Nat) (b : BringUp) : (coldStart s cause b).mem = farOnly s.mem := by
  have A : (addCause (coldBase s) causeReset).mem = farOnly s.mem := (addCause_same (g₀ := { pkg := true, rings := true }) (c := causeReset) (Same.refl _ (coldBase s)) rfl rfl).mem rfl
  unfold coldStart
  dsimp only
  split
  · refine ((selvageStart_same (g₀ := { free := true, pkg := true, regs := true, gz := true, ck := true, qm := true, rings := true, sv := true, sec := true, ct := true, host := true, i3c := true }) (Same.refl _ _) rfl rfl rfl rfl rfl rfl rfl rfl rfl rfl rfl rfl).mem rfl).trans A
  · exact A

end Sys2Proof.Machine
end

