-- ==== Sys2Proof/Laws/SameImageOps.lean ====
section
/-!
SUPPORT. What the definitions of Machine/ImageOps.lean may change (Laws/Same.lean).
-/

set_option linter.all false

namespace Sys2Proof.Machine

open Sys2Proof

theorem withImage_same {r₀ : State} {g₀ : Groups} {s : State} {i : Image} (h1 : Same g₀ r₀ s) (m_img : g₀.img = true)
    : Same g₀ r₀ (withImage s i) := by
  unfold withImage
  repeat' first
    | with_reducible assumption | intro _ | with_reducible apply State.onImg_same | with_reducible apply ite_same
    | with_reducible apply foldl_same | (refine Same.ofSnd (by assumption) ?_) | dsimp only | split

end Sys2Proof.Machine
end

