-- ==== Sys2Proof/Laws/SameMgmt.lean ====
section
/-!
SUPPORT. What the definitions of Machine/Mgmt.lean may change (Laws/Same.lean).
-/

set_option linter.all false

namespace Sys2Proof.Machine

open Sys2Proof

theorem execPrivateWrite_same {r₀ : State} {g₀ : Groups} {data : List Byte} {s : State} {t₀}
    (e₀ : execPrivateWrite data s = .next t₀) (h2 : Same g₀ r₀ s) (m_i3c : g₀.i3c = true) : Same g₀ r₀ t₀ := by
  unfold execPrivateWrite at e₀
  repeat' first | contradiction | (injection e₀ with e₀; subst e₀) | dsimp only at e₀ | (split at e₀)
  repeat' first
    | with_reducible assumption | intro _ | with_reducible apply State.onI3c_same | with_reducible apply ite_same
    | with_reducible apply foldl_same | (refine Same.ofSnd (by assumption) ?_) | dsimp only | split

theorem execDisec_same {r₀ : State} {g₀ : Groups} {ibi : Bool} {s : State} {t₀} (e₀ : execDisec ibi s = .next t₀)
    (h2 : Same g₀ r₀ s) (m_i3c : g₀.i3c = true) : Same g₀ r₀ t₀ := by
  unfold execDisec at e₀
  repeat' first | contradiction | (injection e₀ with e₀; subst e₀) | dsimp only at e₀ | (split at e₀)
  repeat' first
    | with_reducible assumption | intro _ | with_reducible apply State.onI3c_same | with_reducible apply ite_same
    | with_reducible apply foldl_same | (refine Same.ofSnd (by assumption) ?_) | dsimp only | split

theorem takeAddr_same {r₀ : State} {g₀ : Groups} {s : State} {dyn : Nat} (h1 : Same g₀ r₀ s) (m_i3c : g₀.i3c = true)
    : Same g₀ r₀ (takeAddr s dyn) := by
  unfold takeAddr
  repeat' first
    | with_reducible assumption | intro _ | with_reducible apply State.onI3c_same | with_reducible apply ite_same
    | with_reducible apply foldl_same | (refine Same.ofSnd (by assumption) ?_) | dsimp only | split

theorem execEntdaa_same {r₀ : State} {g₀ : Groups} {dyn : Nat} {s : State} {t₀} (e₀ : execEntdaa dyn s = .next t₀)
    (h2 : Same g₀ r₀ s) (m_i3c : g₀.i3c = true) : Same g₀ r₀ t₀ := by
  unfold execEntdaa at e₀
  repeat' first | contradiction | (injection e₀ with e₀; subst e₀) | dsimp only at e₀ | (split at e₀)
  repeat' first
    | with_reducible assumption | intro _ | with_reducible apply takeAddr_same | with_reducible apply ite_same
    | with_reducible apply foldl_same | (refine Same.ofSnd (by assumption) ?_) | dsimp only | split

theorem i3cReply_same {r₀ : State} {g₀ : Groups} {s : State} {bs : List Byte} (h1 : Same g₀ r₀ s) (m_i3c : g₀.i3c = true)
    : Same g₀ r₀ (i3cReply s bs) := by
  unfold i3cReply
  repeat' first
    | with_reducible assumption | intro _ | with_reducible apply State.onI3c_same | with_reducible apply ite_same
    | with_reducible apply foldl_same | (refine Same.ofSnd (by assumption) ?_) | dsimp only | split

theorem execGetpid_same {r₀ : State} {g₀ : Groups} {s : State} {t₀} (e₀ : execGetpid s = .next t₀) (h1 : Same g₀ r₀ s)
    (m_i3c : g₀.i3c = true) : Same g₀ r₀ t₀ := by
  unfold execGetpid at e₀
  repeat' first | contradiction | (injection e₀ with e₀; subst e₀) | dsimp only at e₀ | (split at e₀)
  repeat' first
    | with_reducible assumption | intro _ | with_reducible apply i3cReply_same | with_reducible apply ite_same
    | with_reducible apply foldl_same | (refine Same.ofSnd (by assumption) ?_) | dsimp only | split

theorem execGetstatus_same {r₀ : State} {g₀ : Groups} {s : State} {t₀} (e₀ : execGetstatus s = .next t₀) (h1 : Same g₀ r₀ s)
    (m_free : g₀.free = true) (m_i3c : g₀.i3c = true) : Same g₀ r₀ t₀ := by
  unfold execGetstatus at e₀
  repeat' first | contradiction | (injection e₀ with e₀; subst e₀) | dsimp only at e₀ | (split at e₀)
  repeat' first
    | with_reducible assumption | intro _ | with_reducible apply i3cReply_same | with_reducible apply State.took_same
    | with_reducible apply ite_same | with_reducible apply foldl_same | (refine Same.ofSnd (by assumption) ?_) | dsimp only
    | split

theorem execSetdasa_same {r₀ : State} {g₀ : Groups} {static dyn : Nat} {s : State} {t₀} (e₀ : execSetdasa static dyn s = .next t₀)
    (h3 : Same g₀ r₀ s) (m_i3c : g₀.i3c = true) : Same g₀ r₀ t₀ := by
  unfold execSetdasa at e₀
  repeat' first | contradiction | (injection e₀ with e₀; subst e₀) | dsimp only at e₀ | (split at e₀)
  repeat' first
    | with_reducible assumption | intro _ | with_reducible apply takeAddr_same | with_reducible apply ite_same
    | with_reducible apply foldl_same | (refine Same.ofSnd (by assumption) ?_) | dsimp only | split

theorem execRstdaa_same {r₀ : State} {g₀ : Groups} {s : State} {t₀} (e₀ : execRstdaa s = .next t₀) (h1 : Same g₀ r₀ s)
    (m_i3c : g₀.i3c = true) : Same g₀ r₀ t₀ := by
  unfold execRstdaa at e₀
  repeat' first | contradiction | (injection e₀ with e₀; subst e₀) | dsimp only at e₀ | (split at e₀)
  repeat' first
    | with_reducible assumption | intro _ | with_reducible apply State.onI3c_same | with_reducible apply ite_same
    | with_reducible apply foldl_same | (refine Same.ofSnd (by assumption) ?_) | dsimp only | split

theorem execInBandInterruptAccepted_same {r₀ : State} {g₀ : Groups} {byte : Nat} {s : State} {t₀}
    (e₀ : execInBandInterruptAccepted byte s = .next t₀) (h2 : Same g₀ r₀ s) (m_i3c : g₀.i3c = true) : Same g₀ r₀ t₀ := by
  unfold execInBandInterruptAccepted at e₀
  repeat' first | contradiction | (injection e₀ with e₀; subst e₀) | dsimp only at e₀ | (split at e₀)
  repeat' first
    | with_reducible assumption | intro _ | with_reducible apply State.onI3c_same | with_reducible apply ite_same
    | with_reducible apply foldl_same | (refine Same.ofSnd (by assumption) ?_) | dsimp only | split

theorem execEnec_same {r₀ : State} {g₀ : Groups} {ibi : Bool} {s : State} {t₀} (e₀ : execEnec ibi s = .next t₀)
    (h2 : Same g₀ r₀ s) (m_i3c : g₀.i3c = true) : Same g₀ r₀ t₀ := by
  unfold execEnec at e₀
  repeat' first | contradiction | (injection e₀ with e₀; subst e₀) | dsimp only at e₀ | (split at e₀)
  repeat' first
    | with_reducible assumption | intro _ | with_reducible apply State.onI3c_same | with_reducible apply ite_same
    | with_reducible apply foldl_same | (refine Same.ofSnd (by assumption) ?_) | dsimp only | split

theorem execGetbcr_same {r₀ : State} {g₀ : Groups} {s : State} {t₀} (e₀ : execGetbcr s = .next t₀) (h1 : Same g₀ r₀ s)
    (m_i3c : g₀.i3c = true) : Same g₀ r₀ t₀ := by
  unfold execGetbcr at e₀
  repeat' first | contradiction | (injection e₀ with e₀; subst e₀) | dsimp only at e₀ | (split at e₀)
  repeat' first
    | with_reducible assumption | intro _ | with_reducible apply i3cReply_same | with_reducible apply ite_same
    | with_reducible apply foldl_same | (refine Same.ofSnd (by assumption) ?_) | dsimp only | split

theorem execGetdcr_same {r₀ : State} {g₀ : Groups} {s : State} {t₀} (e₀ : execGetdcr s = .next t₀) (h1 : Same g₀ r₀ s)
    (m_i3c : g₀.i3c = true) : Same g₀ r₀ t₀ := by
  unfold execGetdcr at e₀
  repeat' first | contradiction | (injection e₀ with e₀; subst e₀) | dsimp only at e₀ | (split at e₀)
  repeat' first
    | with_reducible assumption | intro _ | with_reducible apply i3cReply_same | with_reducible apply ite_same
    | with_reducible apply foldl_same | (refine Same.ofSnd (by assumption) ?_) | dsimp only | split

theorem execPrivateRead_same {r₀ : State} {g₀ : Groups} {s : State} {t₀} (e₀ : execPrivateRead s = .next t₀) (h1 : Same g₀ r₀ s)
    (m_i3c : g₀.i3c = true) : Same g₀ r₀ t₀ := by
  unfold execPrivateRead at e₀
  repeat' first | contradiction | (injection e₀ with e₀; subst e₀) | dsimp only at e₀ | (split at e₀)
  repeat' first
    | with_reducible assumption | intro _ | with_reducible apply State.onI3c_same | with_reducible apply i3cReply_same
    | with_reducible apply ite_same | with_reducible apply foldl_same | (refine Same.ofSnd (by assumption) ?_) | dsimp only
    | split

end Sys2Proof.Machine
end

