-- ==== Sys2Proof/Laws/SameSecurity.lean ====
section
/-!
SUPPORT. What the definitions of Machine/Security.lean may change (Laws/Same.lean).
-/

set_option linter.all false

namespace Sys2Proof.Machine

open Sys2Proof

theorem readOperands_same {r₀ : State} {g₀ : Groups} {s : State} {h : Hdr} {rs : List Range} {x21}
    (e₀ : readOperands s h rs = .inr x21) (h1 : Same g₀ r₀ s) (m_mem : g₀.mem = true) (m_regs : g₀.regs = true)
    (m_mu : g₀.mu = true) (m_sv : g₀.sv = true) (m_i3c : g₀.i3c = true) (m_sounds : g₀.sounds = true) (m_seqNo : g₀.seqNo = true)
    : Same g₀ r₀ x21 := by
  unfold readOperands at e₀
  repeat' first | contradiction | (injection e₀ with e₀; subst e₀) | dsimp only at e₀ | (split at e₀)
  repeat' first
    | with_reducible assumption | intro _ | with_reducible apply checkRead_same | with_reducible apply ite_same
    | with_reducible apply ite_same_snd | with_reducible apply foldl_same | with_reducible apply foldl_same_snd
    | (refine Same.ofSnd (by assumption) ?_) | dsimp only | split

theorem execOwnerSet_same {r₀ : State} {g₀ : Groups} {h : Hdr} {keyDa sigDa ctr : Nat} {s : State} {t₀}
    (e₀ : execOwnerSet h keyDa sigDa ctr s = .next t₀) (h5 : Same g₀ r₀ s) (m_free : g₀.free = true) (m_mem : g₀.mem = true)
    (m_regs : g₀.regs = true) (m_mu : g₀.mu = true) (m_qm : g₀.qm = true) (m_sv : g₀.sv = true) (m_sec : g₀.sec = true)
    (m_i3c : g₀.i3c = true) (m_sounds : g₀.sounds = true) (m_seqNo : g₀.seqNo = true) : Same g₀ r₀ t₀ := by
  unfold execOwnerSet at e₀
  repeat' first | contradiction | (injection e₀ with e₀; subst e₀) | dsimp only at e₀ | (split at e₀)
  repeat' first
    | with_reducible assumption | intro _ | with_reducible apply appendAlm_same | with_reducible apply State.onSec_same
    | with_reducible apply complete_same | with_reducible apply runDesc_same | with_reducible apply ite_same
    | with_reducible apply foldl_same | (with_reducible refine readOperands_same (by assumption) ?_ ?_ ?_ ?_ ?_ ?_ ?_ ?_)
    | (refine Same.ofSnd (by assumption) ?_) | dsimp only | split

theorem execLockSet_same {r₀ : State} {g₀ : Groups} {h : Hdr} {t : Trailer} {s : State} {t₀} (e₀ : execLockSet h t s = .next t₀)
    (h3 : Same g₀ r₀ s) (m_free : g₀.free = true) (m_qm : g₀.qm = true) (m_sec : g₀.sec = true) : Same g₀ r₀ t₀ := by
  unfold execLockSet at e₀
  repeat' first | contradiction | (injection e₀ with e₀; subst e₀) | dsimp only at e₀ | (split at e₀)
  repeat' first
    | with_reducible assumption | intro _ | with_reducible apply appendAlm_same | with_reducible apply complete_same
    | with_reducible apply critical_same | with_reducible apply ite_same | with_reducible apply foldl_same
    | (refine Same.ofSnd (by assumption) ?_) | dsimp only | split

theorem execDebugOn_same {r₀ : State} {g₀ : Groups} {h : Hdr} {t : Trailer} {s : State} {t₀} (e₀ : execDebugOn h t s = .next t₀)
    (h3 : Same g₀ r₀ s) (m_free : g₀.free = true) (m_qm : g₀.qm = true) (m_sec : g₀.sec = true) : Same g₀ r₀ t₀ := by
  unfold execDebugOn at e₀
  repeat' first | contradiction | (injection e₀ with e₀; subst e₀) | dsimp only at e₀ | (split at e₀)
  repeat' first
    | with_reducible assumption | intro _ | with_reducible apply State.onSec_same | with_reducible apply complete_same
    | with_reducible apply critical_same | with_reducible apply ite_same | with_reducible apply foldl_same
    | (refine Same.ofSnd (by assumption) ?_) | dsimp only | split

theorem execBypassForceRelease_same {r₀ : State} {g₀ : Groups} {h : Hdr} {t : Trailer} {s : State} {t₀}
    (e₀ : execBypassForceRelease h t s = .next t₀) (h3 : Same g₀ r₀ s) (m_free : g₀.free = true) (m_qm : g₀.qm = true)
    (m_rings : g₀.rings = true) (m_sec : g₀.sec = true) : Same g₀ r₀ t₀ := by
  unfold execBypassForceRelease at e₀
  repeat' first | contradiction | (injection e₀ with e₀; subst e₀) | dsimp only at e₀ | (split at e₀)
  repeat' first
    | with_reducible assumption | intro _ | with_reducible apply State.onRings_same | with_reducible apply markStarted_same
    | with_reducible apply complete_same | with_reducible apply critical_same | with_reducible apply dropCause_same
    | with_reducible apply ite_same | with_reducible apply foldl_same | (refine Same.ofSnd (by assumption) ?_) | dsimp only
    | split

theorem finishUpdate_same {r₀ : State} {g₀ : Groups} {s : State} {h : Hdr} {srcDa srcLen : Nat} {readbackBad : Bool}
    (h1 : Same g₀ r₀ s) (m_free : g₀.free = true) (m_qm : g₀.qm = true) (m_sv : g₀.sv = true) (m_sec : g₀.sec = true)
    (m_i3c : g₀.i3c = true) : Same g₀ r₀ (finishUpdate s h srcDa srcLen readbackBad) := by
  unfold finishUpdate
  repeat' first
    | with_reducible assumption | intro _ | with_reducible apply State.onSec_same | with_reducible apply State.took_same
    | with_reducible apply complete_same | with_reducible apply requestWarm_same | with_reducible apply restoreFw_same
    | with_reducible apply ite_same | with_reducible apply foldl_same | (refine Same.ofSnd (by assumption) ?_) | dsimp only
    | split

theorem beginUpdate_same {r₀ : State} {g₀ : Groups} {s : State} {h : Hdr} {srcDa srcLen : Nat} (h1 : Same g₀ r₀ s)
    (m_qm : g₀.qm = true) (m_sec : g₀.sec = true) : Same g₀ r₀ (beginUpdate s h srcDa srcLen) := by
  unfold beginUpdate
  repeat' first
    | with_reducible assumption | intro _ | with_reducible apply markStarted_same | with_reducible apply State.onSec_same
    | with_reducible apply ite_same | with_reducible apply foldl_same | (refine Same.ofSnd (by assumption) ?_) | dsimp only
    | split

theorem execFwUpdateStart_same {r₀ : State} {g₀ : Groups} {h : Hdr} {t : Trailer} {srcDa srcLen : Nat} {readbackBad : Bool}
    {s : State} {t₀} (e₀ : execFwUpdateStart h t srcDa srcLen readbackBad s = .next t₀) (h6 : Same g₀ r₀ s)
    (m_free : g₀.free = true) (m_mem : g₀.mem = true) (m_regs : g₀.regs = true) (m_mu : g₀.mu = true) (m_qm : g₀.qm = true)
    (m_sv : g₀.sv = true) (m_sec : g₀.sec = true) (m_i3c : g₀.i3c = true) (m_sounds : g₀.sounds = true)
    (m_seqNo : g₀.seqNo = true) : Same g₀ r₀ t₀ := by
  unfold execFwUpdateStart at e₀
  repeat' first | contradiction | (injection e₀ with e₀; subst e₀) | dsimp only at e₀ | (split at e₀)
  repeat' first
    | with_reducible assumption | intro _ | with_reducible apply State.onSec_same | with_reducible apply finishUpdate_same
    | with_reducible apply checkRead_same | with_reducible apply complete_same | with_reducible apply critical_same
    | with_reducible apply beginUpdate_same | with_reducible apply ite_same | with_reducible apply ite_same_snd
    | with_reducible apply foldl_same | with_reducible apply foldl_same_snd | (refine Same.ofSnd (by assumption) ?_) | dsimp only
    | split

theorem execFwConfirm_same {r₀ : State} {g₀ : Groups} {agent : Agent} {value : Word64} {s : State} {t₀}
    (e₀ : execFwConfirm agent value s = .next t₀) (h3 : Same g₀ r₀ s) (m_sec : g₀.sec = true) : Same g₀ r₀ t₀ := by
  unfold execFwConfirm at e₀
  repeat' first | contradiction | (injection e₀ with e₀; subst e₀) | dsimp only at e₀ | (split at e₀)
  repeat' first
    | with_reducible assumption | intro _ | with_reducible apply writeFwConfirm_same | with_reducible apply ite_same
    | with_reducible apply foldl_same | (refine Same.ofSnd (by assumption) ?_) | dsimp only | split

theorem execAlmanacWrite_same {r₀ : State} {g₀ : Groups} {h : Hdr} {t : Trailer} {id version len : Nat} {data : List Byte}
    {s : State} {t₀} (e₀ : execAlmanacWrite h t id version len data s = .next t₀) (h7 : Same g₀ r₀ s) (m_free : g₀.free = true)
    (m_qm : g₀.qm = true) (m_sec : g₀.sec = true) : Same g₀ r₀ t₀ := by
  unfold execAlmanacWrite at e₀
  repeat' first | contradiction | (injection e₀ with e₀; subst e₀) | dsimp only at e₀ | (split at e₀)
  repeat' first
    | with_reducible assumption | intro _ | with_reducible apply appendAlm_same | with_reducible apply complete_same
    | with_reducible apply critical_same | with_reducible apply ite_same | with_reducible apply foldl_same
    | (refine Same.ofSnd (by assumption) ?_) | dsimp only | split

theorem quotaSet_same {r₀ : State} {g₀ : Groups} {s : State} {p what tier k v : Nat} {x28}
    (e₀ : quotaSet s p what tier k v = some x28) (h1 : Same g₀ r₀ s) (m_img : g₀.img = true) : Same g₀ r₀ x28 := by
  unfold quotaSet at e₀
  repeat' first | contradiction | (injection e₀ with e₀; subst e₀) | dsimp only at e₀ | (split at e₀)
  repeat' first
    | with_reducible assumption | intro _ | with_reducible apply State.onImg_same | with_reducible apply ite_same
    | with_reducible apply foldl_same | (refine Same.ofSnd (by assumption) ?_) | dsimp only | split

theorem emptySlot_same {r₀ : State} {g₀ : Groups} {s : State} {slot : Nat} (h1 : Same g₀ r₀ s) (m_sec : g₀.sec = true)
    : Same g₀ r₀ (emptySlot s slot) := by
  unfold emptySlot
  repeat' first
    | with_reducible assumption | intro _ | with_reducible apply State.onSec_same | with_reducible apply ite_same
    | with_reducible apply foldl_same | (refine Same.ofSnd (by assumption) ?_) | dsimp only | split

theorem execKeyRetire_same {r₀ : State} {g₀ : Groups} {h : Hdr} {slot : Nat} {s : State} {t₀}
    (e₀ : execKeyRetire h slot s = .next t₀) (h3 : Same g₀ r₀ s) (m_free : g₀.free = true) (m_qm : g₀.qm = true)
    (m_sec : g₀.sec = true) : Same g₀ r₀ t₀ := by
  unfold execKeyRetire at e₀
  repeat' first | contradiction | (injection e₀ with e₀; subst e₀) | dsimp only at e₀ | (split at e₀)
  repeat' first
    | with_reducible assumption | intro _ | with_reducible apply emptySlot_same | with_reducible apply complete_same
    | with_reducible apply runDesc_same | with_reducible apply ite_same | with_reducible apply foldl_same
    | (refine Same.ofSnd (by assumption) ?_) | dsimp only | split

theorem execQuote_same {r₀ : State} {g₀ : Groups} {h : Hdr} {outDa outLen : Nat} {cert : Bool} {nonce : List Byte} {s : State}
    {t₀} (e₀ : execQuote h outDa outLen cert nonce s = .next t₀) (h6 : Same g₀ r₀ s) (m_free : g₀.free = true)
    (m_mem : g₀.mem = true) (m_regs : g₀.regs = true) (m_mu : g₀.mu = true) (m_qm : g₀.qm = true) (m_sv : g₀.sv = true)
    (m_i3c : g₀.i3c = true) (m_sounds : g₀.sounds = true) (m_seqNo : g₀.seqNo = true) : Same g₀ r₀ t₀ := by
  unfold execQuote at e₀
  repeat' first | contradiction | (injection e₀ with e₀; subst e₀) | dsimp only at e₀ | (split at e₀)
  repeat' first
    | with_reducible assumption | intro _ | with_reducible apply writeMem_same | with_reducible apply finish_same
    | with_reducible apply complete_same | with_reducible apply runDesc_same | with_reducible apply ite_same
    | with_reducible apply foldl_same | (refine Same.ofSnd (by assumption) ?_) | dsimp only | split

theorem execBypassForceClose_same {r₀ : State} {g₀ : Groups} {h : Hdr} {t : Trailer} {s : State} {t₀}
    (e₀ : execBypassForceClose h t s = .next t₀) (h3 : Same g₀ r₀ s) (m_free : g₀.free = true) (m_pkg : g₀.pkg = true)
    (m_qm : g₀.qm = true) (m_rings : g₀.rings = true) (m_sec : g₀.sec = true) : Same g₀ r₀ t₀ := by
  unfold execBypassForceClose at e₀
  repeat' first | contradiction | (injection e₀ with e₀; subst e₀) | dsimp only at e₀ | (split at e₀)
  repeat' first
    | with_reducible assumption | intro _ | with_reducible apply addCause_same | with_reducible apply complete_same
    | with_reducible apply critical_same | with_reducible apply ite_same | with_reducible apply foldl_same
    | (refine Same.ofSnd (by assumption) ?_) | dsimp only | split

theorem execHoldupWaitExpiry_same {r₀ : State} {g₀ : Groups} {restoredOk : Bool} {s : State} {t₀}
    (e₀ : execHoldupWaitExpiry restoredOk s = .next t₀) (h2 : Same g₀ r₀ s) (m_free : g₀.free = true) (m_qm : g₀.qm = true)
    (m_sv : g₀.sv = true) (m_sec : g₀.sec = true) (m_i3c : g₀.i3c = true) : Same g₀ r₀ t₀ := by
  unfold execHoldupWaitExpiry at e₀
  repeat' first | contradiction | (injection e₀ with e₀; subst e₀) | dsimp only at e₀ | (split at e₀)
  repeat' first
    | with_reducible assumption | intro _ | with_reducible apply State.onSec_same | with_reducible apply complete_same
    | with_reducible apply restoreFw_same | with_reducible apply ite_same | with_reducible apply foldl_same
    | (refine Same.ofSnd (by assumption) ?_) | dsimp only | split

theorem execQuotaSet_same {r₀ : State} {g₀ : Groups} {h : Hdr} {t : Trailer} {panel what tier muslin value : Nat} {s : State} {t₀}
    (e₀ : execQuotaSet h t panel what tier muslin value s = .next t₀) (h8 : Same g₀ r₀ s) (m_free : g₀.free = true)
    (m_qm : g₀.qm = true) (m_img : g₀.img = true) (m_sec : g₀.sec = true) : Same g₀ r₀ t₀ := by
  unfold execQuotaSet at e₀
  repeat' first | contradiction | (injection e₀ with e₀; subst e₀) | dsimp only at e₀ | (split at e₀)
  repeat' first
    | with_reducible assumption | intro _ | with_reducible apply complete_same | with_reducible apply critical_same
    | with_reducible apply ite_same | with_reducible apply foldl_same
    | (with_reducible refine quotaSet_same (by assumption) ?_ ?_) | (refine Same.ofSnd (by assumption) ?_) | dsimp only | split

theorem execKeyAgree_same {r₀ : State} {g₀ : Groups} {h : Hdr} {slot keyNum ctr ctDa sigDa : Nat} {s : State} {t₀}
    (e₀ : execKeyAgree h slot keyNum ctr ctDa sigDa s = .next t₀) (h7 : Same g₀ r₀ s) (m_free : g₀.free = true)
    (m_mem : g₀.mem = true) (m_regs : g₀.regs = true) (m_mu : g₀.mu = true) (m_qm : g₀.qm = true) (m_sv : g₀.sv = true)
    (m_sec : g₀.sec = true) (m_i3c : g₀.i3c = true) (m_sounds : g₀.sounds = true) (m_seqNo : g₀.seqNo = true)
    : Same g₀ r₀ t₀ := by
  unfold execKeyAgree at e₀
  repeat' first | contradiction | (injection e₀ with e₀; subst e₀) | dsimp only at e₀ | (split at e₀)
  repeat' first
    | with_reducible assumption | intro _ | with_reducible apply appendAlm_same | with_reducible apply State.onSec_same
    | with_reducible apply complete_same | with_reducible apply runDesc_same | with_reducible apply ite_same
    | with_reducible apply foldl_same | (with_reducible refine readOperands_same (by assumption) ?_ ?_ ?_ ?_ ?_ ?_ ?_ ?_)
    | (refine Same.ofSnd (by assumption) ?_) | dsimp only | split

theorem execLockClear_same {r₀ : State} {g₀ : Groups} {h : Hdr} {t : Trailer} {s : State} {t₀}
    (e₀ : execLockClear h t s = .next t₀) (h3 : Same g₀ r₀ s) (m_free : g₀.free = true) (m_qm : g₀.qm = true)
    (m_sec : g₀.sec = true) : Same g₀ r₀ t₀ := by
  unfold execLockClear at e₀
  repeat' first | contradiction | (injection e₀ with e₀; subst e₀) | dsimp only at e₀ | (split at e₀)
  repeat' first
    | with_reducible assumption | intro _ | with_reducible apply appendAlm_same | with_reducible apply complete_same
    | with_reducible apply critical_same | with_reducible apply ite_same | with_reducible apply foldl_same
    | (refine Same.ofSnd (by assumption) ?_) | dsimp only | split

end Sys2Proof.Machine
end

