-- ==== Sys2Proof/Laws/Security.lean ====
section
/-!
SUPPORT. What the shared operations of critical commands and the security engine do.
-/

namespace Sys2Proof.Machine

open Sys2Proof

theorem exec_critical (i : Instr) (h : Hdr) (t : Trailer) (s : State) (e : criticalOf i = some (h, t)) (f : s.sec.fwHdr ≠ some h)
    (l : h.queue = 0 → loading s (· == 0) = false) : ∃ b, exec i s = .next (critical s h t b) := by
  cases i <;> simp only [criticalOf, Option.some.injEq, Prod.mk.injEq, reduceCtorEq] at e <;> obtain ⟨rfl, rfl⟩ := e
  all_goals first | exact ⟨_, rfl⟩ | skip
  · refine ⟨_, congrArg Host.Outcome.next (if_neg ?_)⟩
    intro hh; simp only [Bool.and_eq_true, decide_eq_true_eq] at hh; simp [l hh.1] at hh
  · exact ⟨_, congrArg Host.Outcome.next (if_neg f)⟩
theorem mem_ins_self (l : List Nat) (k : Nat) : k ∈ ins l k := ins_self l k
theorem closeDim_causes (s : State) (d : Nat) : (closeDim s d).rings.causes = s.rings.causes := (close_is [d] s).2.2.1
theorem checkRead_fold_same {g : Groups} {r : State} (m1 : g.mem = true) (m2 : g.regs = true) (m3 : g.mu = true) (m4 : g.sv = true) (m5 : g.i3c = true) (m6 : g.sounds = true) (m7 : g.seqNo = true)
    (l : List Range) : ∀ x : Bool × State, Same g r x.2 →
    Same g r (l.foldl (fun (x : Bool × State) r => let y := checkRead x.2 r.1 r.2; (x.1 || y.1, y.2)) x).2 := by
  induction l with
  | nil => exact fun x h => h
  | cons a l ih => exact fun x h => ih _ (checkRead_same h m1 m2 m3 m4 m5 m6 m7)
theorem readOperands_is {s b : State} {h : Hdr} {rs : List Range} (e : readOperands s h rs = .inr b) :
    Same { mem := true, regs := true, mu := true, sv := true, i3c := true, sounds := true, seqNo := true } s b := by
  unfold readOperands at e
  split at e
  · cases e
  · have := checkRead_fold_same (g := { mem := true, regs := true, mu := true, sv := true, i3c := true, sounds := true, seqNo := true }) rfl rfl rfl rfl rfl rfl rfl rs (false, s) (Same.refl _ s)
    revert e this
    generalize List.foldl _ (false, s) rs = z
    rintro e this
    dsimp only at e
    split at e
    · cases e
    · cases e; exact this
theorem almGet_append_ne (s : State) (id v i j : Nat) (d : List Byte) (h : i ≠ id) : almGet (appendAlm s id v d) i j = almGet s i j := by
  unfold almGet appendAlm
  dsimp only [State.onSec]
  rw [List.find?_append, List.find?_cons]
  have : (id == i && v == j) = false := by simp; intro e; exact absurd e.symm h
  simp only [this]
  simp only [List.find?_nil, Option.or_none]
  congr 1
  induction s.sec.almanac with
  | nil => rfl
  | cons x l ih =>
    rw [List.filter_cons]
    by_cases hx : (x.id == i && x.version == j) = true
    · have : almSame x { id := id, version := v, data := d, wseq := (s.sec.wseq + 1) % 2 ^ 32 } = false := by
        simp only [Bool.and_eq_true, beq_iff_eq] at hx
        simp [almSame, hx.1, h]
      simp only [this, Bool.not_false, if_true]
      rw [List.find?_cons, List.find?_cons, hx]
    · split
      · rw [List.find?_cons, List.find?_cons]; simp only [hx]; exact ih
      · rw [List.find?_cons (a := x)]; simp only [hx]; exact ih
theorem agreeCtr_append (s : State) (c : Nat) : agreeCtr (appendAlm s almAgreeCtr 1 (leBytes 8 c)) = c % 2 ^ 64 := by
  simp only [agreeCtr, almNum, almGet_append s almAgreeCtr 1 _ (by decide)]
  rw [ofLe_leBytes, show (256 : Nat) ^ 8 = 2 ^ 64 by decide]
theorem almGet_congr {a b : State} (h : a.sec.almanac = b.sec.almanac) (i v : Nat) : almGet a i v = almGet b i v := by simp only [almGet, h]
theorem install_is (b : State) (key : List Byte) (ctr : Nat) (h : Hdr) (t : State)
    (e : t = complete ((appendAlm (appendAlm (appendAlm b almOwner 1 key) almAgreeCtr 1 (leBytes 8 ctr)) almLocks 1 [0]).onSec fun c => { c with keys := [] }) h cmdUnit stDone) :
    ownerKey t = some key ∧ t.sec.keys = [] ∧ ownerLock t = false ∧ agreeCtr t = ctr % 2 ^ 64 := by
  have k : t.sec.keys = [] := by rw [e]; rfl
  have ha : t.sec.almanac = (appendAlm (appendAlm (appendAlm b almOwner 1 key) almAgreeCtr 1 (leBytes 8 ctr)) almLocks 1 [0]).sec.almanac := by rw [e]; rfl
  clear e
  refine ⟨?_, k, ?_, ?_⟩
  · unfold ownerKey; rw [almGet_congr ha, almGet_append_ne _ _ _ _ _ _ (by decide), almGet_append_ne _ _ _ _ _ _ (by decide), almGet_append _ _ _ _ (by decide)]
  · unfold ownerLock almNum; rw [almGet_congr ha, almGet_append _ _ _ _ (by decide)]; decide
  · rw [← agreeCtr_append (appendAlm b almOwner 1 key) ctr]
    unfold agreeCtr almNum; rw [almGet_congr ha, almGet_append_ne _ _ _ _ _ _ (by decide)]
theorem padTo_length (n : Nat) (l : List Byte) : (padTo n l).length = n := by
  simp only [padTo, List.length_append, List.length_take, List.length_replicate]; omega
theorem quoteBytes_length (s : State) (c : Bool) (n : List Byte) : (quoteBytes s c n).length = if c = true then 34912 else 18528 := by
  cases c <;> simp [quoteBytes, quoteBody, manifest, padTo_length, leBytes_length]

end Sys2Proof.Machine
end

