-- ==== Sys2Proof/Laws/Streams.lean ====
section
/-!
SUPPORT. What the shared operations of streams do.
-/

namespace Sys2Proof.Machine

open Sys2Proof

theorem streamRec_img {a b : State} (h : a.img = b.img) (n : Nat) : streamRec a n = streamRec b n := by
  unfold streamRec recBy sect; rw [h]
theorem pump_other {s : State} {n : Nat} {r : Rec} (h : streamRec s n = some r) (k : fld r 2 ≠ 0) : pump s n = s := by
  unfold pump; rw [h]; dsimp only; rw [if_pos (by simp [k])]
theorem detach_one (s : State) (r : Rec) : (detachRecv s r).gz =
    { s.gz with mcRecv := put s.gz.mcRecv (mcKey r) { mcRecvOf s r with attached := false } } := by
  unfold detachRecv
  dsimp only
  generalize hX : setRecv s r _ = X
  rw [(bump_same (g₀ := { regs := true, sounds := true, seqNo := true }) (Same.refl _ _) rfl rfl rfl).gz rfl]
  rw [(writeRecord_same (g₀ := { mem := true, regs := true, mu := true, qm := true, sv := true, i3c := true, sounds := true, seqNo := true }) (Same.refl _ _) rfl rfl rfl rfl rfl rfl rfl rfl).gz rfl]
  rw [← hX]; rfl
theorem detach_all (l : List Rec) (k : Nat) : ∀ s : State, (lookD s.gz.mcRecv k {}).attached = false ∨ (∃ x, x ∈ l ∧ mcKey x = k) →
    (lookD (l.foldl detachRecv s).gz.mcRecv k {}).attached = false := by
  induction l with
  | nil => intro s h; rcases h with h | ⟨x, h, _⟩; exact h; simp at h
  | cons a l ih =>
    intro s h
    refine ih _ ?_
    rw [detach_one]
    by_cases e : k = mcKey a
    · left; subst e; simp
    · rcases h with h | ⟨x, hx, rfl⟩
      · left; simp only [lookD_put_ne _ _ _ _ _ e]; exact h
      · rcases List.mem_cons.mp hx with rfl | hx
        · exact absurd rfl e
        · exact Or.inr ⟨x, hx, rfl⟩
theorem showFull_frame (s : State) (n : Nat) (r : Rec) (b : Bool) : Same { free := true, regs := true, streams := true, sounds := true, seqNo := true } s (showFull s n r b) :=
  showFull_same (Same.refl _ s) rfl rfl rfl rfl rfl
theorem showFull_strm (s : State) (n k : Nat) (r : Rec) : (k = n → (strmOf (showFull s n r true) k).st ≠ sRun) ∧
    (k ≠ n → strmOf (showFull s n r true) k = strmOf s k) := by
  unfold showFull
  extract_lets x s1
  have h1 : strmOf s1 n = { strmOf s n with st := sFull } := strmOf_setStrm ..
  have h2 : ∀ k, k ≠ n → strmOf s1 k = strmOf s k := fun k h => strmOf_setStrm_ne _ _ _ _ h
  by_cases hc : (x.st != sRun && x.st != sFull) = true
  · rw [if_pos hc]
    refine ⟨fun h => ?_, fun _ => rfl⟩
    subst h; simp only [Bool.and_eq_true, bne_iff_ne] at hc; exact hc.1
  · rw [if_neg hc]
    have : ∀ z : State, z.streams = s1.streams → (k = n → (strmOf z k).st ≠ sRun) ∧ (k ≠ n → strmOf z k = strmOf s k) := by
      intro z hz
      have e : strmOf z k = strmOf s1 k := by unfold strmOf; rw [hz]
      rw [e]
      refine ⟨fun h => ?_, fun h => h2 k h⟩
      subst h; rw [h1]; show sFull ≠ sRun; decide
    split
    · exact this _ ((bumpBy_frame s1.took (consumerDie r) _ _ 0).streams rfl)
    · exact this _ rfl
theorem full_all (l : List Rec) (n : Nat) : ∀ s : State, (strmOf s n).st ≠ sRun ∨ (∃ x, x ∈ l ∧ fld x 5 = n ∧ streamRec s n ≠ none) →
    let t := l.foldl (fun s m => match streamRec s (fld m 5) with | some r => showFull s (fld m 5) r true | none => s) s
    Same { free := true, regs := true, streams := true, sounds := true, seqNo := true } s t ∧ (strmOf t n).st ≠ sRun := by
  induction l with
  | nil => intro s h; rcases h with h | ⟨x, h, _⟩; exact ⟨Same.refl _ _, h⟩; simp at h
  | cons a l ih =>
    intro s h
    have one : Same { free := true, regs := true, streams := true, sounds := true, seqNo := true } s
        (match streamRec s (fld a 5) with | some r => showFull s (fld a 5) r true | none => s) := by
      split
      · exact showFull_frame ..
      · exact Same.refl _ s
    have img : ∀ k, streamRec (match streamRec s (fld a 5) with | some r => showFull s (fld a 5) r true | none => s) k = streamRec s k :=
      fun k => streamRec_img (one.img rfl) k
    obtain ⟨h1, h2⟩ := ih (match streamRec s (fld a 5) with | some r => showFull s (fld a 5) r true | none => s) (by
      rw [img]
      by_cases e : n = fld a 5
      · cases hr : streamRec s (fld a 5) with
        | some r => exact .inl ((showFull_strm s (fld a 5) n r).1 e)
        | none =>
          rcases h with h | ⟨x, hx, h3, h4⟩
          · exact .inl h
          · rw [e] at h4; exact absurd hr h4
      · have st : strmOf (match streamRec s (fld a 5) with | some r => showFull s (fld a 5) r true | none => s) n = strmOf s n := by
          split
          · exact (showFull_strm s (fld a 5) n _).2 e
          · rfl
        rw [st]
        rcases h with h | ⟨x, hx, h3, h4⟩
        · exact .inl h
        · rcases List.mem_cons.mp hx with rfl | hx
          · exact absurd h3.symm e
          · exact .inr ⟨x, hx, h3, h4⟩)
    exact ⟨Same.trans one h1, h2⟩
theorem endEarly_strm (s : State) (d : Disp) (st n : Nat) :
    (strmOf (endEarly s d st) n).st = (strmOf s n).st ∧ (strmOf (endEarly s d st) n).abort = (strmOf s n).abort := by
  have F : ∀ (x : State) (h : Hdr), (strmOf (forget x h) n).st = (strmOf x n).st ∧ (strmOf (forget x h) n).abort = (strmOf x n).abort := by
    intro x h
    unfold strmOf
    rw [show (forget x h).streams = mapVals (fun _ x => { x with rearm := x.rearm.filter fun r => !sameDesc r.1 h }) x.streams from rfl]
    unfold lookD; rw [look_mapVals]
    cases look x.streams n <;> exact ⟨rfl, rfl⟩
  have sh : ∀ (x : State) (c : Nat) (h : Hdr), (dropShadow x c h).streams = x.streams := by
    intro x c h; unfold dropShadow; split <;> rfl
  have key : ∀ z : State, z.streams = (forget (dropReqs s d.hdr) d.hdr).streams → (strmOf z n).st = (strmOf s n).st ∧ (strmOf z n).abort = (strmOf s n).abort := by
    intro z hz
    have e : strmOf z n = strmOf (forget (dropReqs s d.hdr) d.hdr) n := by unfold strmOf; rw [hz]
    rw [e]; exact F (dropReqs s d.hdr) d.hdr
  unfold endEarly
  dsimp only
  split
  · split
    · exact key _ (sh _ _ _)
    · exact key _ (sh _ _ _)
  · split
    · exact key _ (sh _ _ _)
    · exact key _ (sh _ _ _)
  · split <;> exact key _ rfl
  · exact key _ rfl
/-- A stream aborted, where no RESTART waits for it. -/
theorem abortStream_strm (s : State) (n st : Nat) (h : ∀ x ∈ (strmOf s n).rearm, x.2.restart = false) :
    (strmOf (abortStream s n st) n).st = sAborted ∧ (strmOf (abortStream s n st) n).abort = st := by
  unfold abortStream
  extract_lets held gone stuck s1 s2 s3
  have e1 : (strmOf s1 n).st = sAborted ∧ (strmOf s1 n).abort = st := by
    have : strmOf s1 n = _ := strmOf_setStrm ..
    rw [this]; exact ⟨rfl, rfl⟩
  have fh : ∀ (f : State → Hdr → State), (∀ s a, (f s a).streams = s.streams) → ∀ (l : List Hdr) (s : State), (l.foldl f s).streams = s.streams := by
    intro f hf l; induction l with
    | nil => exact fun s => rfl
    | cons a l ih => intro s; rw [List.foldl_cons, ih, hf]
  have e2 : s2.streams = s1.streams := fh _ (fun s a => by split <;> rfl) _ _
  have fd : ∀ (l : List Disp) (s : State), (strmOf s n).st = sAborted ∧ (strmOf s n).abort = st →
      (strmOf (l.foldl (fun s d => endEarly s d st) s) n).st = sAborted ∧ (strmOf (l.foldl (fun s d => endEarly s d st) s) n).abort = st := by
    intro l; induction l with
    | nil => exact fun s h => h
    | cons a l ih =>
      intro s h
      refine ih _ ?_
      have := endEarly_strm s a st n
      rw [this.1, this.2]; exact h
  have e3 : (strmOf s3 n).st = sAborted ∧ (strmOf s3 n).abort = st := fd _ _ (by unfold strmOf; rw [e2]; exact e1)
  have hn : held.filter (·.2.restart) = [] := by
    rw [List.filter_eq_nil_iff]; intro x hx; simp [h x hx]
  rw [hn]
  split
  · simp_all
  · exact e3

/-! Multicast (R317, R318). -/

/-- A copy delivered to a receiver of its group, whose stream is defined and takes the message's panel. -/
theorem recvMcast_takes {s : State} {f : Flit} {m r : Rec} (h1 : dieUp s f.dst = true) (h2 : mcOfFlit s f = some m)
    (h3 : streamRec s (fld m 5) = some r) (h4 : coreConsumer r = false ∨ panelOfCore s (fld r 5) = some f.panel) :
    recvMcast s f = takeMcast s f m r := by
  unfold recvMcast
  rw [h1, h2]
  dsimp only
  rw [h3]
  dsimp only
  simp only [Bool.not_true, Bool.false_eq_true, if_false]
  rw [if_neg (by rcases h4 with h4 | h4 <;> simp [h4])]

/-- What a receiver holds once bytes have reached its window, and the FILL of its stream (R317, R320). -/
theorem mcHold_is (s : State) (m : Rec) (lo hi : Nat) : mcRecvOf (mcHold s m lo hi) m = (mcRecvOf s m).hold lo hi ∧
    (strmOf (mcHold s m lo hi) (fld m 5)).fill = ((mcRecvOf s m).hold lo hi).held := by
  have key : ∀ (f : McRecv → McRecv) (c : Prop) [Decidable c] (h : Nat),
      let u := setStrm (setRecv s m f) (fld m 5) fun x => { x with fill := h, wpos := h, st := if x.st = sIdle then sRun else x.st }
      let t := if c then sendAcked u m h false else u
      mcRecvOf t m = f (mcRecvOf s m) ∧ (strmOf t (fld m 5)).fill = h := by
    intro f c _ h u t
    have hu : mcRecvOf u m = f (mcRecvOf s m) ∧ (strmOf u (fld m 5)).fill = h := by
      refine ⟨lookD_put_self _ _ _ _, ?_⟩
      simp only [u, strmOf_setStrm]
    have ht : t.gz.mcRecv = u.gz.mcRecv ∧ t.streams = u.streams := by
      show (if c then sendAcked u m h false else u).gz.mcRecv = _ ∧ (if c then sendAcked u m h false else u).streams = _
      split <;> exact ⟨rfl, rfl⟩
    unfold mcRecvOf strmOf at hu ⊢
    rw [ht.1, ht.2]; exact hu
  exact key (fun v => v.hold lo hi) _ _

end Sys2Proof.Machine
end

