-- ==== Sys2Proof/Laws/Twill.lean ====
section
/-!
SUPPORT. What the shared operations of Twill do.
-/

namespace Sys2Proof.Machine

open Sys2Proof

structure TK (s t : State) : Prop where
  cores : t.tw.cores = s.tw.cores
  ok : CbSound s → CbSound t
theorem TK.refl (s : State) : TK s s := ⟨rfl, id⟩
theorem TK.trans {a b c : State} (x : TK a b) (y : TK b c) : TK a c := ⟨y.cores.trans x.cores, fun h => y.ok (x.ok h)⟩
theorem TK.of {s t : State} (h : t.tw = s.tw) : TK s t := ⟨by rw [h], fun k => by rw [CbSound, h]; exact k⟩
theorem TK.of2 {s t : State} (h : t.tw.cores = s.tw.cores) (k : t.tw.cbErr = s.tw.cbErr) : TK s t := ⟨h, fun q => by rw [CbSound, k]; exact q⟩
theorem TK.foldl {α : Type} {f : State → α → State} (hf : ∀ s a, TK s (f s a)) (l : List α) : ∀ s, TK s (l.foldl f s) := by
  induction l with
  | nil => exact TK.refl
  | cons a l ih => exact fun s => (hf s a).trans (ih _)
theorem bumpCore_tw (s : State) (g o n : Nat) : (bumpCore s g o n).tw = s.tw :=
  (bumpCore_same (g₀ := { regs := true, sounds := true, seqNo := true }) (Same.refl _ s) rfl rfl rfl).tw rfl
theorem tk_foldRow (s : State) (g t r : Nat) : TK s (foldRow s g t r) := TK.of2 (by unfold foldRow; dsimp only; rw [bumpCore_tw]; rfl) (by unfold foldRow; dsimp only; rw [bumpCore_tw]; rfl)
theorem tk_addLane (s : State) (g t a r c : Nat) (v : Int) : TK s (addLane s g t a r c v) := by
  unfold addLane; dsimp only
  split
  · exact TK.of2 rfl rfl
  · exact TK.of2 (by rw [bumpCore_tw]; rfl) (by rw [bumpCore_tw]; rfl)
theorem tk_flagLane (s : State) (g t a r c : Nat) (ps : List Val) : TK s (flagLane s g t a r c ps) := by
  unfold flagLane; dsimp only; split
  · exact TK.refl s
  · exact TK.of2 rfl rfl
theorem tk_addColumn (s : State) (g : Nat) (pl : Nat × Nat × Nat × Nat) (m f : Bool) (ps : List Val) : TK s (addColumn s g pl m f ps) := by
  unfold addColumn
  dsimp only
  have h1 : TK s (if f = true then flagLane s g pl.1 pl.2.1 pl.2.2.1 pl.2.2.2 ps else s) := by split; exact tk_flagLane _ _ _ _ _ _ _; exact TK.refl s
  generalize (if f = true then flagLane s g pl.1 pl.2.1 pl.2.2.1 pl.2.2.2 ps else s) = x at *
  generalize columnSum m _ _ = y
  obtain ⟨v, loss⟩ := y
  dsimp only
  have h2 : TK x (if loss = true then bumpCore x g (0x80 + 8 * pl.1) 1 else x) := by split; exact TK.of (bumpCore_tw ..); exact TK.refl x
  generalize (if loss = true then bumpCore x g (0x80 + 8 * pl.1) 1 else x) = z at *
  split
  · exact h1.trans h2
  · exact (h1.trans h2).trans (tk_addLane ..)
theorem tk_foldFull (s : State) (g t a r k : Nat) : TK s (foldFull s g t a r k) := by
  unfold foldFull; split
  · exact tk_foldRow ..
  · exact TK.refl s
theorem tk_addTerms (s : State) (g t a r k : Nat) : TK s (addTerms s g t a r k) := by
  unfold addTerms; exact TK.of2 rfl rfl
theorem tk_countTerms (s : State) (g k : Nat) (rows : List (Nat × Nat × Nat)) : TK s (countTerms s g k rows) := by
  unfold countTerms
  generalize hX : List.foldl (fun s x => foldFull s g x.1 x.2.1 x.2.2 k) s rows = X
  have h1 : TK s X := by
    rw [← hX]; exact TK.foldl (α := Nat × Nat × Nat) (f := fun s x => foldFull s g x.1 x.2.1 x.2.2 k) (fun s x => tk_foldFull s g x.1 x.2.1 x.2.2 k) rows s
  exact TK.trans h1 (TK.foldl (α := Nat × Nat × Nat) (f := fun s x => addTerms s g x.1 x.2.1 x.2.2 k) (fun s x => tk_addTerms s g x.1 x.2.1 x.2.2 k) rows X)
theorem tk_rowColumns (o : MatmulOp) (compat : Bool) (i : Nat) (av : List Val) (l : List (List Val)) : ∀ n s, TK s (rowColumns s o compat i av n l) := by
  induction l with
  | nil => exact fun n s => TK.refl s
  | cons wv r ih =>
    intro n s
    unfold rowColumns
    dsimp only
    refine TK.trans ?_ (ih _ _)
    split
    · exact (tk_flagLane ..).trans (TK.of2 rfl rfl)
    · exact (tk_addColumn ..).trans (TK.foldl (fun s ps => tk_addColumn ..) _ _)
theorem tk_streamRows (o : MatmulOp) (compat : Bool) (wv : List (List Val)) (l : List (List Val)) : ∀ i s, TK s (streamRows s o compat wv i l) := by
  induction l with
  | nil => exact fun i s => TK.refl s
  | cons av r ih =>
    intro i s
    unfold streamRows
    dsimp only
    refine TK.trans ?_ (ih _ _)
    refine TK.trans ?_ (tk_rowColumns ..)
    split
    · exact TK.refl s
    · exact tk_countTerms ..
theorem tk_draw (s : State) (f : Bool) (l : Nat) : TK s (draw s f l).2 := by unfold draw; split <;> exact TK.of2 rfl rfl
theorem tk_convElem (s : State) (a b : Nat) (g f : Bool) (l : Nat) (v : Val) : TK s (convElem s a b g f l v).2 := by
  unfold convElem; split
  · exact tk_draw s f l
  · exact TK.refl s
theorem tk_convList (a : Nat) (g f : Bool) (scs : List Nat) (l : List (Val × Nat)) : ∀ i s, TK s (convList s a g f scs i l).2 := by
  induction l with
  | nil => exact fun i s => TK.refl s
  | cons x r ih => exact fun i s => (tk_convElem ..).trans (ih _ _)
theorem convList_tiles (a : Nat) (g f : Bool) (scs : List Nat) (l : List (Val × Nat)) : ∀ i s, (convList s a g f scs i l).2.tw.lanes = s.tw.lanes ∧ (convList s a g f scs i l).2.tw.tiles = s.tw.tiles := by
  induction l with
  | nil => exact fun i s => ⟨rfl, rfl⟩
  | cons x r ih =>
    intro i s
    have : (convElem s a (scs.getD (i / 32) 127) g f x.2 x.1).2.tw.lanes = s.tw.lanes ∧ (convElem s a (scs.getD (i / 32) 127) g f x.2 x.1).2.tw.tiles = s.tw.tiles := by
      unfold convElem; split
      · show (draw s f x.2).2.tw.lanes = _ ∧ (draw s f x.2).2.tw.tiles = _
        unfold draw; split <;> exact ⟨rfl, rfl⟩
      · exact ⟨rfl, rfl⟩
    exact ⟨((ih _ _).1).trans this.1, ((ih _ _).2).trans this.2⟩
theorem put_mem {α : Type} (m : FMap α) (k : Nat) (v : α) (e : Nat × α) (h : e ∈ put m k v) : e = (k, v) ∨ e ∈ m := by
  induction m with
  | nil => simp [put] at h; exact Or.inl h
  | cons x r ih =>
    unfold put at h
    split at h
    · rcases List.mem_cons.mp h with h | h
      · exact Or.inl h
      · exact Or.inr h
    · split at h
      · rcases List.mem_cons.mp h with h | h
        · exact Or.inl h
        · exact Or.inr (List.mem_cons_of_mem _ h)
      · rcases List.mem_cons.mp h with h | h
        · exact Or.inr (h ▸ List.mem_cons_self ..)
        · rcases ih h with h | h
          · exact Or.inl h
          · exact Or.inr (List.mem_cons_of_mem _ h)
theorem tk_cbWrite (s : State) (g off : Nat) (bs : List Byte) : TK s (cbWrite s g off bs) := by
  unfold cbWrite cbCheck
  dsimp only
  generalize hX : bumpCore s g _ _ = X
  have hx : X.tw = s.tw := by rw [← hX]; exact bumpCore_tw ..
  refine ⟨by show X.tw.cores = _; rw [hx], fun h => ?_⟩
  intro e he
  have hk : ∀ e, e ∈ keep (fun w _ => ((s.tw.cbErr.filter fun e => e.2 && ((partWords g off bs.length).map fun r => cbWord g r.1).contains e.1).map (·.1)).contains w || !(wordsOf g off bs.length).contains w) X.tw.cbErr → e.2 = false := by
    intro e he
    rw [hx] at he
    exact h e (List.mem_filter.mp he |>.1)
  change e ∈ (if _ then _ else _) at he
  split at he
  · rcases put_mem _ _ _ _ he with rfl | he
    · rfl
    · exact hk e he
  · exact hk e he
theorem cbCheck_sound (s : State) (g : Nat) (rs : List Range) (h : CbSound s) : (cbCheck s g rs).1 = false := by
  unfold cbCheck
  dsimp only
  rw [List.any_eq_false]
  intro e he
  rw [h e (List.mem_filter.mp he).1]; simp
theorem cbCheck_tw (s : State) (g : Nat) (rs : List Range) : (cbCheck s g rs).2.tw = s.tw := bumpCore_tw ..
theorem drainRow_is (s : State) (o : MatmulOp) (c : Bool) (i : Nat) : TK s (drainRow s o c i).2 ∧ (CbSound s → (drainRow s o c i).1 = false) := by
  unfold drainRow
  dsimp only
  generalize hx : convList s _ _ _ _ _ _ = x
  have h1 : TK s x.2 := by rw [← hx]; exact tk_convList ..
  obtain ⟨cs, y⟩ := x
  dsimp only at *
  have hb : ∀ z : State, TK s z → ∀ a n, CbSound s → cbWriteBad z o.core a n = false := fun z k a n q => cbCheck_sound _ _ _ (k.ok q)
  split
  · refine ⟨(h1.trans (tk_cbWrite ..)).trans (tk_cbWrite ..), fun q => ?_⟩
    rw [hb y h1 _ _ q, hb _ (h1.trans (tk_cbWrite ..)) _ _ q]; rfl
  · exact ⟨h1.trans (tk_cbWrite ..), hb y h1 _ _⟩
theorem cbWrite_tiles (s : State) (g off : Nat) (bs : List Byte) : (cbWrite s g off bs).tw.lanes = s.tw.lanes ∧ (cbWrite s g off bs).tw.tiles = s.tw.tiles := by
  unfold cbWrite cbCheck
  dsimp only
  generalize hX : bumpCore s g _ _ = X
  have hx : X.tw = s.tw := by rw [← hX]; exact bumpCore_tw ..
  exact ⟨by show X.tw.lanes = _; rw [hx], by show X.tw.tiles = _; rw [hx]⟩
theorem drainRow_tiles (s : State) (o : MatmulOp) (c : Bool) (i : Nat) : (drainRow s o c i).2.tw.lanes = s.tw.lanes ∧ (drainRow s o c i).2.tw.tiles = s.tw.tiles := by
  unfold drainRow
  dsimp only
  generalize hx : convList s _ _ _ _ _ _ = x
  have h1 : x.2.tw.lanes = s.tw.lanes ∧ x.2.tw.tiles = s.tw.tiles := by rw [← hx]; exact convList_tiles ..
  obtain ⟨cs, y⟩ := x
  dsimp only at *
  split
  · exact ⟨((cbWrite_tiles ..).1.trans (cbWrite_tiles ..).1).trans h1.1, ((cbWrite_tiles ..).2.trans (cbWrite_tiles ..).2).trans h1.2⟩
  · exact ⟨(cbWrite_tiles ..).1.trans h1.1, (cbWrite_tiles ..).2.trans h1.2⟩
theorem drainRows_is (o : MatmulOp) (c : Bool) (l : List Nat) : ∀ s, TK s (drainRows s o c l).2 ∧ (CbSound s → (drainRows s o c l).1 = false) ∧
    (drainRows s o c l).2.tw.lanes = s.tw.lanes ∧ (drainRows s o c l).2.tw.tiles = s.tw.tiles := by
  induction l with
  | nil => exact fun s => ⟨TK.refl s, fun _ => rfl, rfl, rfl⟩
  | cons i r ih =>
    intro s
    unfold drainRows
    obtain ⟨a, b⟩ := drainRow_is s o c i
    have t := drainRow_tiles s o c i
    generalize drainRow s o c i = x at *
    obtain ⟨f, y⟩ := x
    cases f with
    | true => exact ⟨a, fun q => by simp at b; exact absurd q b, t.1, t.2⟩
    | false =>
      obtain ⟨d, e, g, k⟩ := ih y
      exact ⟨a.trans d, fun q => e (a.ok q), g.trans t.1, k.trans t.2⟩
theorem arrange_is (s : State) (g : Nat) (a : Bool) : (coreOf (arrange s g a) g).arr = a ∧ (arrange s g a).tw.cbErr = s.tw.cbErr ∧ (arrange s g a).tw.lanes = s.tw.lanes ∧ (arrange s g a).tw.tiles = s.tw.tiles := by
  unfold arrange; split
  · next h => exact ⟨h, rfl, rfl, rfl⟩
  · refine ⟨?_, rfl, rfl, rfl⟩
    rw [coreOf_setCore]
/-- The next weight set loaded into the shadow registers leaves the active one and its tag (R112). -/
theorem loadShadow_is (s : State) (h : Hdr) (o : MatmulOp) (q : CbSound s) :
    (loadShadow s h o).1 = false ∧ CbSound (loadShadow s h o).2 ∧ (coreOf (loadShadow s h o).2 o.core).arr = (coreOf s o.core).arr ∧
      (coreOf (loadShadow s h o).2 o.core).tagValid = (coreOf s o.core).tagValid ∧
      (coreOf (loadShadow s h o).2 o.core).tagOff = (coreOf s o.core).tagOff ∧ (coreOf (loadShadow s h o).2 o.core).tagSpec = (coreOf s o.core).tagSpec ∧
      (coreOf (loadShadow s h o).2 o.core).tagK = (coreOf s o.core).tagK ∧ (coreOf (loadShadow s h o).2 o.core).tagN = (coreOf s o.core).tagN := by
  unfold loadShadow
  split
  · exact ⟨rfl, q, rfl, rfl, rfl, rfl, rfl, rfl⟩
  · next x _ =>
    split
    · exact ⟨rfl, q, rfl, rfl, rfl, rfl, rfl, rfl⟩
    · have c1 := cbCheck_sound s o.core (weightRanges x.2) q
      have c2 := cbCheck_tw s o.core (weightRanges x.2)
      generalize cbCheck s o.core (weightRanges x.2) = y at *
      obtain ⟨b, z⟩ := y
      dsimp only at *
      refine ⟨c1, by rw [CbSound]; show ∀ e ∈ z.tw.cbErr, _; rw [c2]; exact q, ?_⟩
      have e : coreOf z o.core = coreOf s o.core := by unfold coreOf; rw [c2]
      rw [coreOf_setCore, ← e]
      exact ⟨rfl, rfl, rfl, rfl, rfl, rfl⟩
theorem runMatmul_is (s : State) (h : Hdr) (op : MatmulOp) (q : CbSound s) :
    Ends s (runMatmul s h op) h (coreUnit op.core) stDone ∧ (coreOf (runMatmul s h op) op.core).arr = op.arr ∧
      (op.wReuse = false → (coreOf (runMatmul s h op) op.core).tagValid = true ∧ (coreOf (runMatmul s h op) op.core).tagOff = op.wOff ∧
        (coreOf (runMatmul s h op) op.core).tagSpec = op.wSpec ∧ (coreOf (runMatmul s h op) op.core).tagK = op.k ∧ (coreOf (runMatmul s h op) op.core).tagN = op.n) := by
  unfold runMatmul
  dsimp only
  have g₀ : Groups := { free := true, regs := true, tw := true, sounds := true, seqNo := true }
  obtain ⟨a1, a2, _⟩ := arrange_is s op.core op.arr
  have S0 : Same { free := true, regs := true, tw := true, sounds := true, seqNo := true } s (arrange s op.core op.arr) := arrange_same (Same.refl _ s) rfl
  generalize arrange s op.core op.arr = A at *
  have qA : CbSound A := by rw [CbSound, a2]; exact q
  generalize coreCompat s op.core = cp at *
  generalize startRanges A h op = sr at *
  rw [cbCheck_sound A _ _ qA]
  simp only [Bool.false_eq_true, if_false]
  have S1 := cbCheck_same (g := op.core) (rs := sr) S0 rfl rfl rfl
  have t1 : (cbCheck A op.core sr).2.tw = A.tw := cbCheck_tw ..
  generalize (cbCheck A op.core sr).2 = B at *
  have qB : CbSound B := by rw [CbSound, t1]; exact qA
  have b1 : (coreOf B op.core).arr = op.arr := by rw [coreOf, t1]; exact a1
  clear a1 a2 qA t1 q
  generalize hC : (if op.acc = true then B else _) = C
  have KC : TK B C := by
    rw [← hC]; split
    · exact TK.refl B
    · exact TK.foldl (f := fun s t => startTile s op.core (if cp then none else some op.anchor) t) (fun s t => TK.of2 rfl rfl) _ _
  have SC : Same { free := true, regs := true, tw := true, sounds := true, seqNo := true } s C := by
    rw [← hC]; split
    · exact S1
    · exact foldl_same S1 fun s x h => startTile_same h rfl
  clear hC
  have qC := KC.ok qB
  have c1 : (coreOf C op.core).arr = op.arr := by rw [coreOf, KC.cores]; exact b1
  clear KC qB b1 S0 S1
  generalize hD : (if op.wReuse = true then C else loadWeights C h op) = D
  have SD : Same { free := true, regs := true, tw := true, sounds := true, seqNo := true } s D := by
    rw [← hD]; split
    · exact SC
    · exact loadWeights_same SC rfl rfl rfl rfl rfl
  have lw : (loadWeights C h op).tw = (setCore C op.core fun c =>
    { c with arr := op.arr, shadowFull := false, shadow := [], shadowFor := 0, tagValid := true, tagOff := op.wOff, tagSpec := op.wSpec,
             tagK := op.k, tagN := op.n, tagArr := op.arr,
             weights := if preloaded C h op then (coreOf C op.core).shadow else weightSet C.tw op }).tw := bumpCore_tw ..
  have qD : CbSound D := by
    rw [← hD]; split
    · exact qC
    · rw [CbSound, lw]; exact qC
  have d1 : (coreOf D op.core).arr = op.arr ∧ (op.wReuse = false → (coreOf D op.core).tagValid = true ∧ (coreOf D op.core).tagOff = op.wOff ∧
        (coreOf D op.core).tagSpec = op.wSpec ∧ (coreOf D op.core).tagK = op.k ∧ (coreOf D op.core).tagN = op.n) := by
    rw [← hD]
    cases op.wReuse with
    | true => exact ⟨c1, fun h => by simp at h⟩
    | false =>
      simp only [Bool.false_eq_true, if_false]
      simp only [coreOf, lw, setCore, State.onTw_tw, lookD_put_self, and_self, implies_true]
  clear hD lw c1 qC SC
  generalize hL : (if (coreOf D op.core).shadowFull = true then (false, D) else loadShadow D h op) = L
  have L1 : L.1 = false ∧ CbSound L.2 ∧ (coreOf L.2 op.core).arr = (coreOf D op.core).arr ∧ (coreOf L.2 op.core).tagValid = (coreOf D op.core).tagValid ∧
      (coreOf L.2 op.core).tagOff = (coreOf D op.core).tagOff ∧ (coreOf L.2 op.core).tagSpec = (coreOf D op.core).tagSpec ∧
      (coreOf L.2 op.core).tagK = (coreOf D op.core).tagK ∧ (coreOf L.2 op.core).tagN = (coreOf D op.core).tagN := by
    rw [← hL]; split
    · exact ⟨rfl, qD, rfl, rfl, rfl, rfl, rfl, rfl⟩
    · exact loadShadow_is D h op qD
  have SL : Same { free := true, regs := true, tw := true, sounds := true, seqNo := true } s L.2 := by
    rw [← hL]; split
    · exact SD
    · exact loadShadow_same SD rfl rfl rfl rfl
  clear hL SD qD
  obtain ⟨bl, D'⟩ := L
  obtain ⟨l0, qD, l1, l2, l3, l4, l5, l6⟩ := L1
  dsimp only at *
  rw [← l1, ← l2, ← l3, ← l4, ← l5, ← l6] at d1
  clear l1 l2 l3 l4 l5 l6
  subst l0
  simp only [Bool.false_eq_true, if_false]
  generalize hE : bumpCore D' op.core _ _ = E
  have KE : TK D' E := by rw [← hE]; exact TK.of (bumpCore_tw ..)
  have SE := bumpCore_same (g := op.core) (off := 0x10) (n := op.m * passes op.wSpec op.aSpec * if op.arr then 4 else 1) SL rfl rfl rfl
  rw [hE] at SE
  clear hE
  generalize hF : streamRows E op _ _ _ _ = F
  have KF : TK E F := by rw [← hF]; exact tk_streamRows ..
  have SF : Same { free := true, regs := true, tw := true, sounds := true, seqNo := true } s F := by rw [← hF]; exact streamRows_same SE rfl rfl rfl rfl
  clear hF
  have KDF := KE.trans KF
  have qF := KDF.ok qD
  generalize hx : (if op.drain = true then drainRows F op _ _ else (false, F)) = x
  have hx1 : x.1 = false := by
    rw [← hx]; split
    · exact (drainRows_is ..).2.1 qF
    · rfl
  have KX : TK F x.2 := by
    rw [← hx]; split
    · exact (drainRows_is ..).1
    · exact TK.refl F
  have SX : Same { free := true, regs := true, tw := true, sounds := true, seqNo := true } s x.2 := by
    rw [← hx]; split
    · exact drainRows_same SF rfl rfl rfl rfl rfl
    · exact SF
  obtain ⟨f, y⟩ := x
  dsimp only at *
  rw [hx1]
  simp only [Bool.false_eq_true, if_false]
  have kc : (complete y h (coreUnit op.core) stDone).tw.cores = D'.tw.cores := (KDF.trans KX).cores
  have : coreOf (complete y h (coreUnit op.core) stDone) op.core = coreOf D' op.core := by simp only [coreOf, kc]
  rw [this]
  exact ⟨ends_complete _ _ _ (SX.qm rfl), d1⟩
theorem lookD_del (m : FMap Byte) (k j : Nat) (w : rising none m = true) : lookD (del m k) j 0 = if j = k then 0 else lookD m j 0 := by
  by_cases e : j = k
  · subst e; simp [lookD, look_del_self _ _ w]
  · simp [lookD, look_del_ne _ _ _ e, e]
theorem bytes_look (g off n : Nat) (l : List Nat) (f : Nat → Byte) (hn : l.Nodup) : ∀ m : FMap Byte, rising none m = true →
    rising none (l.foldl (fun m i => if f i = 0 then del m (cbKey g (off + i)) else put m (cbKey g (off + i)) (f i)) m) = true ∧
    (∀ i, i ∈ l → lookD (l.foldl (fun m i => if f i = 0 then del m (cbKey g (off + i)) else put m (cbKey g (off + i)) (f i)) m) (cbKey g (off + i)) 0 = f i) ∧
    (∀ k, (∀ i, i ∈ l → k ≠ cbKey g (off + i)) → lookD (l.foldl (fun m i => if f i = 0 then del m (cbKey g (off + i)) else put m (cbKey g (off + i)) (f i)) m) k 0 = lookD m k 0) := by
  induction l with
  | nil => exact fun m w => ⟨w, by simp, fun _ _ => rfl⟩
  | cons a l ih =>
    intro m w
    obtain ⟨na, nl⟩ := List.nodup_cons.mp hn
    have w' : rising none (if f a = 0 then del m (cbKey g (off + a)) else put m (cbKey g (off + a)) (f a)) = true := by
      split; exact del_rising _ _ w; exact put_rising _ _ _ w
    have v' : ∀ k, lookD (if f a = 0 then del m (cbKey g (off + a)) else put m (cbKey g (off + a)) (f a)) k 0 = if k = cbKey g (off + a) then f a else lookD m k 0 := by
      intro k
      split
      · next h => rw [lookD_del _ _ _ w, h]
      · by_cases e : k = cbKey g (off + a)
        · subst e; simp
        · simp [lookD_put_ne _ _ _ _ _ e, e]
    obtain ⟨h1, h2, h3⟩ := ih nl _ w'
    refine ⟨h1, fun i hi => ?_, fun k hk => ?_⟩
    · by_cases e : i ∈ l
      · exact h2 i e
      · have : i = a := by rcases List.mem_cons.mp hi with h | h; exact h; exact absurd h e
        subst this
        rw [List.foldl_cons, h3 _ (fun j hj q => ?_), v', if_pos rfl]
        have : i = j := by simp only [cbKey] at q; omega
        exact na (this ▸ hj)
    · rw [List.foldl_cons, h3 _ fun j hj => hk j (List.mem_cons_of_mem _ hj), v', if_neg (hk a (List.mem_cons_self ..))]
theorem zip_fold {β : Type} (bs : List Byte) (F : β → Nat × Byte → β) (m : β) :
    ((List.range bs.length).zip bs).foldl F m = (List.range bs.length).foldl (fun m i => F m (i, bs.getD i 0)) m := by
  have : (List.range bs.length).zip bs = (List.range bs.length).map fun i => (i, bs.getD i 0) := by
    refine List.ext_getElem (by simp) fun i h1 h2 => ?_
    simp at h1
    simp [List.getD, h1]
  rw [this, List.foldl_map]
theorem cbWrite_look (s : State) (g off : Nat) (bs : List Byte) (q : CbSound s) (w : rising none s.tw.cb = true) :
    rising none (cbWrite s g off bs).tw.cb = true ∧ ∀ k, lookD (cbWrite s g off bs).tw.cb k 0 =
      if cbKey g off ≤ k ∧ k < cbKey g off + bs.length then bs.getD (k - cbKey g off) 0 else lookD s.tw.cb k 0 := by
  have hl : ∀ ps : List Nat, (s.tw.cbErr.filter fun e => e.2 && ps.contains e.1).map (·.1) = [] := by
    intro ps
    rw [List.map_eq_nil_iff, List.filter_eq_nil_iff]
    intro e he; simp [q e he]
  have hcb : (cbWrite s g off bs).tw.cb = (List.range bs.length).foldl (fun m i => if bs.getD i 0 = 0 then del m (cbKey g (off + i)) else put m (cbKey g (off + i)) (bs.getD i 0)) s.tw.cb := by
    unfold cbWrite cbCheck
    dsimp only
    rw [hl]
    generalize hX : bumpCore s g _ _ = X
    have hx : X.tw = s.tw := by rw [← hX]; exact bumpCore_tw ..
    show List.foldl _ X.tw.cb _ = _
    rw [hx, zip_fold]
    simp
  rw [hcb]
  obtain ⟨h1, h2, h3⟩ := bytes_look g off bs.length (List.range bs.length) (fun i => bs.getD i 0) List.nodup_range s.tw.cb w
  refine ⟨h1, fun k => ?_⟩
  split
  · next h =>
    have := h2 (k - cbKey g off) (by simp; omega)
    rw [show cbKey g (off + (k - cbKey g off)) = k by simp only [cbKey] at *; omega] at this
    exact this
  · next h =>
    exact h3 k fun i hi e => h (by simp at hi; simp only [cbKey] at *; omega)
theorem leBytes_len (n v : Nat) : (leBytes n v).length = n := leBytes_length n v
theorem maxRecs_is (s0 : State) (op : MaxOp) (low : Bool) (n : Nat) : ∀ s : State, CbSound s → rising none s.tw.cb = true →
    let t := (List.range n).foldl (fun s' j => cbWrite s' op.core (op.oOff + 8 * j) (maxRecord s0 op low (j * op.segLen))) s
    CbSound t ∧ rising none t.tw.cb = true ∧ Same { regs := true, tw := true, sounds := true, seqNo := true } s t ∧
    ∀ k, lookD t.tw.cb k 0 = if cbKey op.core op.oOff ≤ k ∧ k < cbKey op.core op.oOff + 8 * n then
        (maxRecord s0 op low ((k - cbKey op.core op.oOff) / 8 * op.segLen)).getD ((k - cbKey op.core op.oOff) % 8) 0 else lookD s.tw.cb k 0 := by
  intro s q w
  induction n with
  | zero => exact ⟨q, w, Same.refl _ s, fun k => by rw [if_neg (by omega)]; rfl⟩
  | succ n ih =>
    rw [List.range_succ, List.foldl_append]
    obtain ⟨i1, i2, i3, i4⟩ := ih
    generalize (List.range n).foldl _ s = t at *
    simp only [List.foldl_cons, List.foldl_nil]
    obtain ⟨c1, c2⟩ := cbWrite_look t op.core (op.oOff + 8 * n) (maxRecord s0 op low (n * op.segLen)) i1 i2
    refine ⟨(tk_cbWrite ..).ok i1, c1, cbWrite_same i3 rfl rfl rfl rfl, fun k => ?_⟩
    rw [c2, i4]
    have hr : (maxRecord s0 op low (n * op.segLen)).length = 8 := leBytes_length ..
    rw [hr, show cbKey op.core (op.oOff + 8 * n) = cbKey op.core op.oOff + 8 * n by simp only [cbKey]; omega]
    generalize cbKey op.core op.oOff = b
    by_cases h1 : b + 8 * n ≤ k ∧ k < b + 8 * n + 8
    · rw [if_pos h1, if_pos (by omega), show (k - b) / 8 = n by omega, show k - (b + 8 * n) = (k - b) % 8 by omega]
    · rw [if_neg h1]
      by_cases h2 : b ≤ k ∧ k < b + 8 * n
      · rw [if_pos h2, if_pos (by omega)]
      · rw [if_neg h2, if_neg (by omega)]
theorem runMax_is (s : State) (h : Hdr) (op : MaxOp) (low : Bool) :
    match maxRefusal s h op with
    | some st => Ends s (runMax s h op low) h (coreUnit op.core) st ∧ (runMax s h op low).tw = s.tw
    | none => CbSound s → rising none s.tw.cb = true → Ends s (runMax s h op low) h (coreUnit op.core) stDone ∧
        ∀ k, lookD (runMax s h op low).tw.cb k 0 =
          if cbKey op.core op.oOff ≤ k ∧ k < cbKey op.core op.oOff + 8 * op.segs then
            (maxRecord s op low ((k - cbKey op.core op.oOff) / 8 * op.segLen)).getD ((k - cbKey op.core op.oOff) % 8) 0
          else lookD s.tw.cb k 0 := by
  unfold runMax
  cases hm : maxRefusal s h op with
  | some st => exact ⟨ends_complete _ _ _ rfl, rfl⟩
  | none =>
    intro q w
    dsimp only
    have e1 := cbCheck_sound s op.core (maxSource op) q
    have e2 := cbCheck_tw s op.core (maxSource op)
    have S0 := cbCheck_same (g₀ := { regs := true, tw := true, sounds := true, seqNo := true }) (g := op.core) (rs := maxSource op) (Same.refl _ s) rfl rfl rfl
    generalize cbCheck s op.core (maxSource op) = x at *
    obtain ⟨f, A⟩ := x
    dsimp only at *
    rw [e1]
    simp only [Bool.false_eq_true, if_false]
    have qA : CbSound A := by rw [CbSound, e2]; exact q
    rw [show cbWriteBad A op.core op.oOff (8 * op.segs) = false from cbCheck_sound _ _ _ qA]
    simp only [Bool.false_eq_true, if_false]
    have hrec : ∀ b, maxRecord A op low b = maxRecord s op low b := fun b => by unfold maxRecord; rw [e2]
    simp only [hrec]
    obtain ⟨m1, m2, m3, m4⟩ := maxRecs_is s op low op.segs A qA (by rw [e2]; exact w)
    refine ⟨ends_complete _ _ _ (m3.qm rfl |>.trans (S0.qm rfl)), fun k => ?_⟩
    rw [e2] at m4
    exact m4 k

end Sys2Proof.Machine
end

