-- ==== Sys2Proof/Laws/Upkeep.lean ====
section
/-!
SUPPORT. What the shared operations of upkeep do.
-/

namespace Sys2Proof.Machine

open Sys2Proof

theorem failPatch_is (s : State) (k t row : Nat) (p : Patch) : (failPatch s k t row p).mem = s.mem ∧
    look (failPatch s k t row p).mu.patches (dirKey k t row) = some { p with active := false } ∧ (failPatch s k t row p).regs = (bump s (18 + k) 0x11070).regs := by
  unfold failPatch
  have B := bumpBy_frame (s.onMu fun m => { m with patches := put m.patches (dirKey k t row) { p with active := false } }) (18 + k) 0x11070 1 0
  change Same _ _ (bump _ (18 + k) 0x11070) at B
  exact ⟨B.mem rfl, by rw [B.mu rfl]; simp, bump_regs_congr rfl⟩
/-- Activations of a table of counts that fall to a bank. -/
def actsIn (m : FMap Nat) (b : Nat) : Nat := (m.map fun p => if (if p.1 < 2 ^ 40 then bankOf (256 * p.1) else p.1 - 2 ^ 40) = b then p.2 else 0).sum
theorem actsIn_put (m : FMap Nat) (k v b : Nat) (h : ∀ p ∈ m, p.1 ≠ k) :
    actsIn (put m k v) b = actsIn m b + if (if k < 2 ^ 40 then bankOf (256 * k) else k - 2 ^ 40) = b then v else 0 := by
  induction m with
  | nil => simp only [put, actsIn, List.map_cons, List.map_nil, List.sum_cons, List.sum_nil]; omega
  | cons q m ih =>
    obtain ⟨k', v'⟩ := q
    have hk : k' ≠ k := h (k', v') List.mem_cons_self
    have i := ih fun p hp => h p (List.mem_cons_of_mem _ hp)
    unfold put
    split
    · simp only [actsIn, List.map_cons, List.sum_cons]; omega
    · rw [if_neg (Ne.symm hk)]
      simp only [actsIn, List.map_cons, List.sum_cons] at i ⊢; omega

/-- What a filter keeps of a table, entry by entry. -/
theorem keep_cons (f : Nat → Nat → Bool) (q : Nat × Nat) (m : FMap Nat) :
    keep f (q :: m) = if f q.1 q.2 then q :: keep f m else keep f m := by
  unfold keep
  rw [List.filter_cons]

/-- The activations of a bank once another's entries, or its own, are taken out. -/
theorem actsIn_keep (m : FMap Nat) (b b' : Nat) :
    actsIn (keep (fun key _ => (if key < 2 ^ 40 then bankOf (256 * key) else key - 2 ^ 40) != b) m) b' = if b' = b then 0 else actsIn m b' := by
  induction m with
  | nil => simp [keep, actsIn]
  | cons q m ih =>
    have e : actsIn (q :: m) b' = (if (if q.1 < 2 ^ 40 then bankOf (256 * q.1) else q.1 - 2 ^ 40) = b' then q.2 else 0) + actsIn m b' := rfl
    have f (l : FMap Nat) : actsIn (q :: l) b' = (if (if q.1 < 2 ^ 40 then bankOf (256 * q.1) else q.1 - 2 ^ 40) = b' then q.2 else 0) + actsIn l b' := rfl
    rw [keep_cons, e]
    generalize (if q.1 < 2 ^ 40 then bankOf (256 * q.1) else q.1 - 2 ^ 40) = k at *
    by_cases z : k = b
    · subst z
      rw [if_neg (by simp), ih]
      by_cases hb : b' = k
      · simp [hb]
      · simp [hb, Ne.symm hb]
    · rw [if_pos (by simpa using z), f, ih]
      by_cases hb : b' = b <;> by_cases hk : k = b' <;> simp_all

/-- A bank's count set: it reads back, and no other bank's changes (R267). -/
theorem bankActs_setActs (s : State) (b n b' : Nat) : bankActs (setActs s b n) b' = if b' = b then n else bankActs s b' := by
  show actsIn (if n = 0 then _ else put _ _ _) b' = if b' = b then n else actsIn s.mu.acts b'
  have K := actsIn_keep s.mu.acts b b'
  split
  · next h => rw [K, h]
  · rw [actsIn_put, K]
    · rw [if_neg (show ¬ 2 ^ 40 + b < 2 ^ 40 by omega), Nat.add_sub_cancel_left]
      split <;> split <;> first | omega | simp_all
    · intro p hp e
      have := (List.mem_filter.mp hp).2
      dsimp only at this
      rw [e, if_neg (show ¬ 2 ^ 40 + b < 2 ^ 40 by omega), Nat.add_sub_cancel_left] at this
      simp at this
theorem fs_shadows (s : State) : (finishSeals s).mu.shadows = s.mu.shadows ∧ (finishSeals s).mu.slotValid = s.mu.slotValid := by
  unfold finishSeals
  have : ∀ (l : List (Nat × Hdr)) (s : State), (l.foldl (fun s x => complete (s.onMu fun m => { m with sealing := del m.sealing x.1 }) x.2 (ledgerUnit x.1) stDone) s).mu.shadows = s.mu.shadows ∧ (l.foldl (fun s x => complete (s.onMu fun m => { m with sealing := del m.sealing x.1 }) x.2 (ledgerUnit x.1) stDone) s).mu.slotValid = s.mu.slotValid := by
    intro l; induction l with
    | nil => exact fun s => ⟨rfl, rfl⟩
    | cons a l ih => exact fun s => ih (complete (s.onMu fun m => { m with sealing := del m.sealing a.1 }) a.2 (ledgerUnit a.1) stDone)
  exact this _ s
theorem look0_del (m : FMap Nat) (k j : Nat) (w : rising none m = true) : look0 (del m k) j = if j = k then 0 else look0 m j := by
  by_cases e : j = k
  · subst e; simp [look0, lookD, look_del_self _ _ w]
  · simp [look0, lookD, look_del_ne _ _ _ e, e]
theorem look0_put (m : FMap Nat) (k v j : Nat) : look0 (put m k v) j = if j = k then v else look0 m j := by
  by_cases e : j = k
  · subst e; simp
  · simp [look0_put_ne _ _ _ _ e, e]
theorem rr_mono : ∀ (n : Nat) (l : List (Nat × Nat)) (got : FMap Nat) (k : Nat), look0 got k ≤ look0 (roundRobin n l got) k := by
  intro n
  induction n with
  | zero => intro l got k; exact Nat.le_refl _
  | succ n ih =>
    intro l got k
    match l with
    | [] => exact Nat.le_refl _
    | (p, w) :: l =>
      unfold roundRobin
      refine Nat.le_trans ?_ (ih _ _ _)
      rw [look0_put]; split
      · next h => subst h; omega
      · exact Nat.le_refl _
theorem first_is (l : List (Nat × Nat)) (h : (l.map (·.1)).Nodup) : ∀ m : FMap Nat,
    (∀ x, x ∈ l → x.2 ≤ look0 (l.foldl (fun m g => if g.2 = 0 then m else put m g.1 g.2) m) x.1) ∧
    (∀ k, (∀ x, x ∈ l → x.1 ≠ k) → look0 (l.foldl (fun m g => if g.2 = 0 then m else put m g.1 g.2) m) k = look0 m k) := by
  induction l with
  | nil => exact fun m => ⟨by simp, fun _ _ => rfl⟩
  | cons a l ih =>
    intro m
    simp only [List.map_cons, List.nodup_cons] at h
    obtain ⟨h1, h2⟩ := ih h.2 (if a.2 = 0 then m else put m a.1 a.2)
    refine ⟨fun x hx => ?_, fun k hk => ?_⟩
    · rcases List.mem_cons.mp hx with rfl | hx
      · rw [List.foldl_cons, h2]
        · split
          · omega
          · simp
        · intro y hy e; exact h.1 (e ▸ List.mem_map_of_mem hy)
      · exact h1 x hx
    · rw [List.foldl_cons, h2 k fun x hx => hk x (List.mem_cons_of_mem _ hx)]
      split
      · rfl
      · rw [look0_put_ne _ _ _ _ (Ne.symm (hk a (List.mem_cons_self ..)))]
theorem freeWants_frame (e l : List Nat) (m : FMap Nat) (s : State) : Same { free := true } s (freeWants s e l m).2 := freeWants_same (Same.refl _ s) rfl
theorem openShare_far (s : State) (k sh total : Nat) (c : List Nat) (g : Nat → Nat) (h : 8 ≤ k) : Same { free := true, mu := true } s (openShare s k sh total c g) := by
  unfold openShare
  extract_lets fwd en
  have F := freeWants_same (g₀ := { free := true, mu := true }) (engines := en) (a2 := c) (a3 := en.foldl (fun m e => put m e (total / 4)) [])
    (s := s.took) (State.took_same (Same.refl _ s) rfl) rfl
  generalize freeWants s.took en c _ = x at *
  obtain ⟨w, y⟩ := x
  dsimp only
  rw [if_pos (by simp [h])]
  exact State.onMu_same F rfl
theorem read_corr (s : State) (i : Nat) (h : look s.mem.latent i = some false) : (readSector s i).2.mem.latent = s.mem.latent := by
  have T : (touch s (64 * i)).mem = s.mem := (touch_same (g₀ := { regs := true, mu := true, sounds := true, seqNo := true }) (Same.refl _ s) rfl rfl rfl rfl).mem rfl
  unfold readSector
  extract_lets a d hh z
  have Z : z.mem = s.mem := T
  clear_value z
  rw [← Z] at h ⊢
  split
  · rfl
  · split
    · split
      · rw [(setSticky_same (g₀ := { sv := true, i3c := true }) (Same.refl _ z) rfl rfl).mem rfl]
      · split <;> rfl
    · rw [h]
      dsimp only
      split <;> (show (bumpBy ..).mem.latent = _; rw [(bumpBy_frame ..).mem rfl])

end Sys2Proof.Machine
end

