-- ==== Sys2Proof/WellFormed.lean ====
section
/-!
DEFINITION. Which commands are well formed: every operand fits the field the spec gives it.
-/

namespace Sys2Proof

/-- Every entry of a list is below 2 ^ n. -/
def allBelow (n : Nat) (l : List Nat) : Bool := l.all fun v => decide (v < 2 ^ n)

/-- A 16-bit signed field. -/
def signed16 (z : Int) : Bool := decide (-32768 ≤ z) && decide (z < 32768)

/-- The common header's fields fit (R273, R287). Queue numbers 32,768 + k name the seals the step sequencer posts (R346). -/
def Hdr.wf (h : Hdr) : Bool :=
  decide (h.queue < 32776) && decide (h.ext < 4) && allBelow 16 [h.index, h.userTag, h.gen]
  && allBelow 32 [h.datum, h.deadline] && decide (h.stamp < 2 ^ 40)

/-- The trailer's fields fit (R298): a 64-bit counter, a 32-bit key number, a 16-byte TAG. -/
def Trailer.wf (t : Trailer) : Bool :=
  decide (t.counter < 2 ^ 64) && decide (t.keyNum < 2 ^ 32) && decide (t.tag.length = 16) && decide (t.message.length ≤ 258)

def LoadOp.wf (o : LoadOp) : Bool := decide (o.srcDa < 2 ^ 48) && decide (o.srcLen < 2 ^ 32)

/-- R128. -/
def MatmulOp.wf (o : MatmulOp) : Bool :=
  decide (o.core < 64) && decide (o.tile < 8) && allBelow 8 [o.wSpec, o.aSpec, o.oSpec]
  && decide (o.k < 1024) && decide (o.n < 8192) && decide (o.m < 2048) && signed16 o.anchor
  && allBelow 32 [o.wOff, o.aOff, o.aStride, o.oOff, o.oStride, o.wScaleOff, o.aScaleOff, o.oScaleOff]

/-- R144. -/
def MaxOp.wf (o : MaxOp) : Bool :=
  decide (o.core < 64) && decide (o.sSpec < 256) && decide (o.segs < 2 ^ 16)
  && allBelow 32 [o.sOff, o.sScaleOff, o.segLen, o.oOff, o.indexBase]

/-- R174, R196. -/
def GatherOp.wf (o : GatherOp) : Bool :=
  decide (o.engine < 32) && decide (o.kind < 4) && decide (o.table < 4096) && decide (o.spec < 256)
  && allBelow 16 [o.stream, o.stride] && allBelow 25 [o.nIdx, o.nBags]
  && allBelow 48 [o.idxDa, o.offsDa, o.wtDa, o.addr, o.pDa, o.scaleAddr]

/-- R198. -/
def LedgerAddOp.wf (o : LedgerAddOp) : Bool :=
  decide (o.engine < 32) && decide (o.lMuslin < 8) && decide (o.sSpec < 256) && decide (o.dev < 1024) && decide (o.nElem < 2 ^ 28)
  && signed16 o.anchor && allBelow 48 [o.sAddr, o.la, o.sScaleAddr]

/-- R237. -/
def OptDenseOp.wf (o : OptDenseOp) : Bool :=
  decide (o.muslin < 8) && decide (o.mode < 4) && decide (o.pset < 256) && decide (o.wkSpec < 256) && decide (o.step < 2 ^ 40)
  && allBelow 16 [o.layer, o.bandLo, o.bandHi] && allBelow 28 [o.rowsN, o.colsN]
  && allBelow 48 [o.la, o.masterDa, o.paramDa, o.workDa, o.workScaleDa, o.gDa, o.gScaleDa, o.eDa, o.m1Da, o.m1ScaleDa, o.stateDa,
                  o.vrDa, o.vrScaleDa, o.vcDa, o.vcScaleDa]

/-- R262. -/
def RearmOp.wf (o : RearmOp) : Bool :=
  decide (o.stream < 16384) && decide (o.seg < 256) && decide (o.pieces.length ≤ 4)
  && allBelow 48 (o.pieces.map (·.1)) && allBelow 40 (o.pieces.map (·.2))

/-- R383. -/
def RingOp.wf (o : RingOp) : Bool :=
  decide (o.dev < 1024) && decide (o.stream < 16384) && allBelow 48 [o.srcDa, o.dstDa] && decide (o.len < 2 ^ 40)

/-- R406. -/
def SnapOp.wf (o : SnapOp) : Bool :=
  decide (o.dest < 4) && decide (o.nTensors < 2 ^ 16) && allBelow 48 [o.dstDa, o.listDa] && decide (o.dstLen < 2 ^ 40)

/-- R34: PLEN is at most 192 in each flit; a message is at most 64 flits. Classes 5 to 7 are reserved but spell a class (R34). -/
def Flit.wf (f : Flit) : Bool :=
  allBelow 8 [f.op, f.status, f.plen] && decide (f.tc < 8) && decide (f.dst < 40) && decide (f.src < 40) && decide (f.panel < 64)
  && decide (f.tag < 2 ^ 16) && decide (f.da < 2 ^ 48) && decide (f.mgroup < 4096) && decide (f.oparg < 2 ^ 64)
  && decide (f.payload.length ≤ 12288) && decide (f.byteEn.length ≤ 12288) && decide (f.kind < 4)
  && decide (f.lseq < 4096) && decide (f.lack < 4096) && decide (f.cretTc < 8) && decide (f.cretN < 32) && decide (f.crc < 2 ^ 32)

/-- R190: dense messages carry up to 1,536 words. -/
def AddMsg.wf (m : AddMsg) : Bool :=
  decide (m.dst < 40) && decide (m.src < 40) && decide (m.tag < 2 ^ 16) && decide (m.panel < 64) && decide (m.da < 2 ^ 48)
  && decide (m.table < 4096) && signed16 m.anchor && decide (m.count < 2 ^ 21) && decide (m.stepTag < 256)
  && decide (m.words.length ≤ 1536)

def IdentFrame.wf (f : IdentFrame) : Bool := decide (f.self < 1024) && decide (f.port < 4) && decide (f.lanes ≤ 32)
def RingRet.wf (r : RingRet) : Bool := decide (r.rack < 2 ^ 16) && decide (r.tc < 8) && decide (r.vl < 2) && decide (r.n < 256)
def IdleFrame.wf (f : IdleFrame) : Bool := decide (f.die < 40) && f.ret.wf
def RingFrame.wf (f : RingFrame) : Bool :=
  decide (f.dstDev < 1024) && decide (f.srcDev < 1024) && decide (f.rDie < 64) && decide (f.vl < 2) && decide (f.tc < 8)
  && decide (f.rseq < 2 ^ 16) && decide (f.crc < 2 ^ 32) && f.ret.wf && f.flit.wf
def Token.wf (t : Token) : Bool := decide (t.kind < 256) && decide (t.dev < 1024) && decide (t.step < 2 ^ 40)
def JRec.wf (r : JRec) : Bool := decide (r.muslin < 8) && decide (r.holding < 2 ^ 32) && decide (r.step < 2 ^ 40)
def UnitId.wf (u : UnitId) : Bool := decide (u.die < 40) && decide (u.unit < 16)

/-- Every operand fits its field. -/
def Instr.wf : Instr → Bool
  | .nop h => h.wf
  | .fence h _ _ _ => h.wf
  | .inlineWrite h da len payload => h.wf && decide (da < 2 ^ 48) && decide (len < 2 ^ 8) && decide (payload.length ≤ 192)
  | .sqRun h count => h.wf && decide (count < 2 ^ 32)
  | .sqStop h => h.wf
  | .imageLoad h t op => h.wf && t.wf && op.wf
  | .commitPoint => true
  | .quotaSet h t panel what tier muslin value => h.wf && t.wf && decide (panel < 64) && decide (what < 4) && decide (tier < 3) && decide (muslin < 8) && decide (value < 2 ^ 32)
  | .debugOn h t => h.wf && t.wf
  | .lockSet h t => h.wf && t.wf
  | .lockClear h t => h.wf && t.wf
  | .almanacWrite h t id version len _ => h.wf && t.wf && decide (id < 256) && decide (version < 2 ^ 32) && decide (len < 2 ^ 16)
  | .fwUpdateStart h t srcDa srcLen _ => h.wf && t.wf && decide (srcDa < 2 ^ 48) && decide (srcLen < 2 ^ 32)
  | .bypassForceClose h t => h.wf && t.wf
  | .bypassForceRelease h t => h.wf && t.wf
  | .twinTakeover h t op => h.wf && t.wf && op.wf
  | .keyAgree h slot keyNum agreeCtr ctDa sigDa => h.wf && decide (slot < 4) && decide (keyNum < 2 ^ 32) && decide (agreeCtr < 2 ^ 64) && decide (ctDa < 2 ^ 48) && decide (sigDa < 2 ^ 48)
  | .keyRetire h slot => h.wf && decide (slot < 4)
  | .quote h outDa outLen _ _ => h.wf && decide (outDa < 2 ^ 48) && decide (outLen < 2 ^ 32)
  | .ownerSet h keyDa sigDa agreeCtr => h.wf && decide (keyDa < 2 ^ 48) && decide (sigDa < 2 ^ 48) && decide (agreeCtr < 2 ^ 64)
  | .twMatmul h op => h.wf && op.wf
  | .twDrain h op => h.wf && op.wf
  | .twMax h op => h.wf && op.wf
  | .twMin h op => h.wf && op.wf
  | .muGather h op => h.wf && op.wf
  | .muGradScatter h op => h.wf && op.wf
  | .muLedgerAdd h op => h.wf && op.wf
  | .muSeal h muslin expectStep => h.wf && decide (muslin < 8) && decide (expectStep < 2 ^ 40)
  | .sealTakesEffect muslin => decide (muslin < 8)
  | .muMigrate h muslin table row targetDa => h.wf && decide (muslin < 8) && decide (table < 4096) && decide (row < 2 ^ 31) && decide (targetDa < 2 ^ 48)
  | .muRowRestore h muslin _ table row srcDa => h.wf && decide (muslin < 8) && decide (table < 4096) && decide (row < 2 ^ 31) && decide (srcDa < 2 ^ 48)
  | .muOptDense h op => h.wf && op.wf
  | .muOptClose h muslin panel expectStep paramDa => h.wf && decide (muslin < 8) && decide (panel < 64) && decide (expectStep < 2 ^ 40) && decide (paramDa < 2 ^ 48)
  | .bankRelease muslin => decide (muslin < 8)
  | .stRearm h op => h.wf && op.wf
  | .stRelease h stream core bytes => h.wf && decide (stream < 16384) && decide (core < 128) && decide (bytes < 2 ^ 40)
  | .rgPut h op => h.wf && op.wf
  | .rgGet h op => h.wf && op.wf
  | .tnSnapshot h op => h.wf && op.wf
  | .tnHandback h op => h.wf && op.wf
  | .post prog r _ _ queue slot ctr => decide (prog < 256) && decide (r < 16) && decide (queue < 32768) && decide (slot < 2 ^ 16) && decide (ctr < 8)
  | .wait prog ctr target => decide (prog < 256) && decide (ctr < 8) && decide (target < 2 ^ 32)
  | .fire prog => decide (prog < 256)
  | .amax prog x core n off => decide (prog < 256) && decide (x < 16) && decide (core < 64) && decide (n < 256) && decide (off < 2 ^ 32)
  | .amaxd prog x da => decide (prog < 256) && decide (x < 16) && decide (da < 2 ^ 48)
  | .anchor prog r x1 x2 => decide (prog < 256) && decide (r < 16) && decide (x1 < 16) && decide (x2 < 16)
  | .sealPoint prog => decide (prog < 256)
  | .endProg prog => decide (prog < 256)
  | .stepStart => true
  | .sealGate => true
  | .closePart => true
  | .stepEnd => true
  | .descriptorFetch queue => decide (queue < 32768)
  | .sealReread queue => decide (queue < 32768)
  | .dispatch queue _ => decide (queue < 32768)
  | .doorbell queue _ => decide (queue < 32768)
  | .resume _ => true
  | .rhead _ => true
  | .swap die _ => decide (die < 40)
  | .tcCreditWrite die _ _ => decide (die < 40)
  | .rejoin die _ => decide (die < 40)
  | .datumCtlFire => true
  | .resync _ => true
  | .ckPlanWrite die _ _ => decide (die < 40)
  | .counterClear die off => decide (die < 40) && decide (off < 2 ^ 32)
  | .dirLookup die _ => decide (die < 40)
  | .faultClear i _ => decide (i < 4)
  | .fwConfirm _ _ => true
  | .panelRst _ => true
  | .perPanelReset panel => decide (panel < 64)
  | .warmReq _ _ => true
  | .mboxGo _ => true
  | .hstreamFill _ => true
  | .tokenIn die tok => decide (die < 40) && tok.wf
  | .snapHostRel _ => true
  | .ctCtlWrite _ => true
  | .inject _ => true
  | .regWrite die off _ mask _ => decide (die < 40) && decide (off < 2 ^ 32) && decide (mask < 256)
  | .hostRead _ addr len => decide (addr < 2 ^ 48) && decide (len < 65)
  | .hostWrite _ addr _ => decide (addr < 2 ^ 48)
  | .coreLoad core _ da len => decide (core < 48) && decide (da < 2 ^ 48) && decide (len < 9)
  | .coreStore core _ da _ => decide (core < 48) && decide (da < 2 ^ 48)
  | .coreFence core => decide (core < 48)
  | .privateWrite _ => true
  | .privateRead => true
  | .entdaa dyn => decide (dyn < 128)
  | .setdasa static dyn => decide (static < 128) && decide (dyn < 128)
  | .rstdaa => true
  | .getpid => true
  | .getbcr => true
  | .getdcr => true
  | .getstatus => true
  | .enec _ => true
  | .disec _ => true
  | .read f => f.wf
  | .write f => f.wf
  | .atomicAdd m => m.wf
  | .readResp f => f.wf
  | .writeAck f => f.wf
  | .completion f => f.wf
  | .regResp f => f.wf
  | .mcastData f => f.wf
  | .sounding f => f.wf
  | .backgroundMove f => f.wf
  | .credit die port tc n => decide (die < 40) && decide (port < 8) && decide (tc < 5) && decide (n < 32)
  | .flitCrcError die port _ => decide (die < 40) && decide (port < 8)
  | .laneRepairExhausted die port => decide (die < 40) && decide (port < 8)
  | .moveStart owner table row => decide (owner < 8) && decide (table < 4096) && decide (row < 2 ^ 31)
  | .moveDone owner table row => decide (owner < 8) && decide (table < 4096) && decide (row < 2 ^ 31)
  | .switchMsg owner table row => decide (owner < 8) && decide (table < 4096) && decide (row < 2 ^ 31)
  | .migrationMoving owner table row => decide (owner < 8) && decide (table < 4096) && decide (row < 2 ^ 31)
  | .migrationAbandon owner table row => decide (owner < 8) && decide (table < 4096) && decide (row < 2 ^ 31)
  | .forwardingEnd owner table row => decide (owner < 8) && decide (table < 4096) && decide (row < 2 ^ 31)
  | .shadowEntryValid owner table row => decide (owner < 8) && decide (table < 4096) && decide (row < 2 ^ 31)
  | .shadowInvalidation die owner table row => decide (die < 40) && decide (owner < 8) && decide (table < 4096) && decide (row < 2 ^ 31)
  | .patchRequest table row => decide (table < 4096) && decide (row < 2 ^ 31)
  | .patchAnswer owner table row _ _ => decide (owner < 8) && decide (table < 4096) && decide (row < 2 ^ 31)
  | .patchTimeout owner table row => decide (owner < 8) && decide (table < 4096) && decide (row < 2 ^ 31)
  | .yield => true
  | .scrubRead die half => decide (die < 40) && decide (half < 2)
  | .refresh stack _ => decide (stack < 16)
  | .deadlineExpiry queue index => decide (queue < 32768) && decide (index < 2 ^ 16)
  | .stepBudgetExpiry prog => decide (prog < 256)
  | .stallBudgetExpiry stream => decide (stream < 16384)
  | .stallArbiterDecision => true
  | .mcDetach group => decide (group < 4096)
  | .datumEdge _ => true
  | .pllLossOfLock die => decide (die < 40)
  | .sendSent => true
  | .sendOpen => true
  | .sent dev step => decide (dev < 1024) && decide (step < 2 ^ 40)
  | .openTok dev step => decide (dev < 1024) && decide (step < 2 ^ 40)
  | .topo dev aux orig count => decide (dev < 1024) && decide (aux < 1024) && decide (orig < 1024) && decide (count < 2 ^ 32)
  | .aliasTok dev target => decide (dev < 1024) && decide (target < 1024)
  | .tokenWaitExpiry => true
  | .ident die f => decide (die < 40) && f.wf
  | .flitFrame die f => decide (die < 40) && f.wf
  | .idle f => f.wf
  | .uncorrectableCodeword die => decide (die < 40)
  | .ringLaneFailure die lane => decide (die < 40) && decide (lane < 32)
  | .lossOfSignal die => decide (die < 40)
  | .signalDetected die => decide (die < 40)
  | .trainingFailure die => decide (die < 40)
  | .brokenRetry die => decide (die < 40)
  | .remoteTimeout die tag => decide (die < 40) && decide (tag < 2 ^ 16)
  | .bypassCause cause dim => decide (cause < 16) && decide (dim < 2)
  | .dimensionOpen dim => decide (dim < 2)
  | .journalData r => r.wf
  | .journalBase r => r.wf
  | .journalEnd r => r.wf
  | .journalBaseEnd r => r.wf
  | .farCplTimeout port tag => decide (port < 4) && decide (tag < 2 ^ 16)
  | .farLinkLoss port => decide (port < 4)
  | .farRetrain port link expanders gib => decide (port < 4) && decide (link < 3) && decide (expanders < 9) && decide (gib < 4097)
  | .hostLinkReset => true
  | .hlPerstN _ => true
  | .panelFault core => decide (core < 64)
  | .unitError party => party.wf
  | .leaseExpiry kind holder => decide (kind < 5) && holder.wf
  | .released party => party.wf
  | .reclaimTimeout => true
  | .free party => party.wf
  | .mgmtParityFailure die => decide (die < 40)
  | .quietPeriodExpiry => true
  | .svclkCheckFailure => true
  | .powerReport _ => true
  | .contourInterval => true
  | .contourWindow => true
  | .contourSounding => true
  | .emergency => true
  | .emergencyLift => true
  | .powerShutdown => true
  | .thermalReport die _ => decide (die < 40)
  | .throttleStep die => decide (die < 40)
  | .thermalShutdown => true
  | .holdupMeasure _ _ => true
  | .holdupTest _ => true
  | .coldReset cause _ => decide (cause < 16)
  | .vin12InRange _ => true
  | .vauxLoss => true
  | .warmReset cause _ => decide (cause < 16)
  | .trialExpiry _ _ => true
  | .laneRepair die port => decide (die < 40) && decide (port < 8)
  | .cxlMemCompletion port tag => decide (port < 4) && decide (tag < 2 ^ 16)
  | .bandwidthWindow _ index => decide (index < 26)
  | .refclkAPresent _ => true
  | .holdOffExpiry _ _ => true
  | .holdupWaitExpiry _ => true
  | .thermalDutyRise die => decide (die < 40)
  | .handbackStepNumber step => decide (step < 2 ^ 40)
  | .inBandInterruptAccepted byte => decide (byte < 256)

end Sys2Proof
end

