-- ==== Sys2Proof/Tests/Slice0.lean ====
section
/-!
SUPPORT. Tests: ill-formed commands are refused; a witness for every clause of a statement that has hypotheses, named
witness_<statement> and numbered where a statement has several parts; a few effects worked out by hand from the spec.
-/

set_option Elab.async false

namespace Sys2Proof.Tests

open Sys2Proof Sys2Proof.Machine

/-! Small states. -/

/-- Every die out of reset; dies 0, 2, 18 and 34 have a route to themselves. -/
def up : State :=
  { State.reset with
    sv := { State.reset.sv with on := true }
    gz := { State.reset.gz with routes := [0, 2, 18, 34].flatMap fun d => (List.range 5).map fun tc => (routeKey d 0 tc d, 8) } }

/-- An image of these sections in force, with this program code. -/
def imaged (l : FMap (List Rec)) (code : FMap (List Byte) := []) : State :=
  { up with img := { up.img with inForce := some { serial := 1, minFw := 0, raiseFloor := false, sections := l, code := code, bytes := [] } } }

/-- A descriptor of queue 5, slot 0. -/
def h5 : Hdr := { queue := 5, index := 0 }
/-- The same with one or two extension slots. -/
def h5x : Hdr := { queue := 5, index := 0, ext := 1 }
def h5xx : Hdr := { queue := 5, index := 0, ext := 2 }

/-- A dispatched descriptor that has not started. -/
def dispOf (h : Hdr) (c : Instr) (u : UnitId) : Disp := { hdr := h, cmd := c, unit := u, armed := false, started := false, before := [] }

def tr0 : Trailer := { counter := 1, keyNum := 7, tag := List.replicate 16 0, message := [] }
def fl0 : Flit := { op := 1, tc := 2, dst := 2, src := 3 }
def mm0 : MatmulOp := { core := 0 }
def mx0 : MaxOp := { core := 0, sSpec := 0, sOff := 0, segLen := 1, segs := 1, oOff := 0 }
def ga0 : GatherOp := { engine := 0, table := 0, spec := 0, stride := 0, nIdx := 1, nBags := 1, idxDa := 0, offsDa := 0, addr := 0 }
def la0 : LedgerAddOp := { engine := 0, lMuslin := 0, sSpec := 0, nElem := 1, anchor := 0, sAddr := 0, la := 0 }
def od0 : OptDenseOp :=
  { muslin := 0, wkSpec := 0, rowsN := 1, colsN := 32, masterDa := 0, paramDa := 0, workDa := 0, workScaleDa := 0, gDa := 0, gScaleDa := 0,
    eDa := 0, m1Da := 0, m1ScaleDa := 0, stateDa := 0 }
def rg0 : RingOp := { dev := 1, srcDa := 0, dstDa := 0, len := 64 }
def sn0 : SnapOp := { dest := 0, rows := false, nTensors := 1, dstDa := 0, dstLen := 64, listDa := 0 }
def am0 : AddMsg := { dst := 18, src := 2, tag := 0, da := 0, anchor := 0, dense := true, stepTag := 0, words := [1] }
def jr0 : JRec := { muslin := 0, holding := 0, step := 0, jseq := 0 }

/-- No sector of this state has lost its data or holds a stored error. -/
def Clean (s : State) : Prop := s.mem.poison = [] ∧ s.mem.latent = []

theorem clean_sectors (l : List Nat) : ∀ s, Clean s → (∀ i ∈ l, 64 * i < farBase) → (readSectors s l).1 = false ∧ Clean (readSectors s l).2 := by
  induction l with
  | nil => exact fun s h _ => ⟨rfl, h⟩
  | cons i r ih =>
    intro s h b
    have T : ∀ a, (touch s a).mem = s.mem := fun a =>
      (touch_same (g₀ := { regs := true, mu := true, sounds := true, seqNo := true }) (Same.refl _ s) rfl rfl rfl rfl).mem rfl
    have R : readSector s i = (false, touch s (64 * i)) := by
      unfold readSector
      dsimp only
      rw [T, h.1, h.2, if_neg (by simp), if_neg (by have := b i (.head _); omega)]
      rfl
    unfold readSectors
    rw [R]
    have C := ih (touch s (64 * i)) (by unfold Clean; rw [T]; exact h) (fun j m => b j (.tail _ m))
    exact ⟨by dsimp only; rw [C.1]; rfl, C.2⟩

/-- So a read of Home or Stash finds all of its data, wherever it lies. -/
theorem clean_read {s : State} {a n : Nat} (h : Clean s) (b : a + n ≤ farBase) : (checkRead s a n).1 = false ∧ Clean (checkRead s a n).2 := by
  unfold checkRead
  refine clean_sectors _ s h fun i m => ?_
  have : farBase % 64 = 0 := by decide
  unfold sectorsOf at m
  split at m
  · cases m
  · simp only [List.mem_map, List.mem_range] at m
    obtain ⟨k, k1, rfl⟩ := m
    omega

/-- A read of a sector whose data is lost says so. -/
theorem lost_read {s : State} {a n : Nat} (h : 0 < n) (p : a / 64 ∈ s.mem.poison) : (checkRead s a n).1 = true := by
  unfold checkRead sectorsOf
  rw [if_neg (by omega), List.range_succ_eq_map]
  simp only [List.map, Nat.zero_add]
  unfold readSectors
  have T : (touch s (64 * (a / 64))).mem = s.mem :=
    (touch_same (g₀ := { regs := true, mu := true, sounds := true, seqNo := true }) (Same.refl _ s) rfl rfl rfl rfl).mem rfl
  have R : (readSector s (a / 64)).1 = true := by
    unfold readSector
    dsimp only
    rw [T, if_pos (by simpa using p)]
  simp only [R, Bool.true_or]

/-- Operands in Home or Stash that the checks accept are read. -/
theorem clean_operands {s : State} {h : Hdr} {a b : Range} (c : Clean s) (a1 : a.1 + a.2 ≤ farBase) (b1 : b.1 + b.2 ≤ farBase)
    (a2 : checkDa s h false [a] = none) (b2 : checkDa s h false [b] = none) : ∃ t, readOperands s h [a, b] = .inr t := by
  unfold readOperands
  have A := clean_read (n := a.2) c a1
  have B := clean_read (n := b.2) A.2 b1
  simp only [List.map, a2, b2, firstSome, List.foldl, A.1, B.1, Bool.or_self, Bool.false_eq_true, if_false]
  exact ⟨_, rfl⟩

/-! Well-formed terms, and one ill-formed term for each check. -/

theorem test_wf_accepts :
    [Instr.nop h5, .debugOn h5 tr0, .imageLoad h5 tr0 { srcDa := 0, srcLen := 0 }, .twMatmul h5 mm0, .twMax h5 mx0, .muGather h5 ga0,
     .muLedgerAdd h5 la0, .muOptDense h5 od0, .stRearm h5 { stream := 0 }, .rgPut h5 rg0, .tnSnapshot h5 sn0, .read fl0, .atomicAdd am0,
     .journalData jr0, .unitError ⟨2, 0⟩].all Instr.wf = true := by decide +kernel

theorem test_wf_header :
    [Instr.nop { h5 with queue := 32776 }, .nop { h5 with index := 2 ^ 16 }, .nop { h5 with ext := 4 }, .nop { h5 with userTag := 2 ^ 16 },
     .nop { h5 with gen := 2 ^ 16 }, .nop { h5 with datum := 2 ^ 32 }, .nop { h5 with deadline := 2 ^ 32 }, .nop { h5 with stamp := 2 ^ 40 }].any
      Instr.wf = false := by decide +kernel

theorem test_wf_trailer :
    [Instr.lockSet h5 { tr0 with counter := 2 ^ 64 }, .lockSet h5 { tr0 with keyNum := 2 ^ 32 }, .lockSet h5 { tr0 with tag := [] },
     .lockSet h5 { tr0 with message := List.replicate 259 0 }].any Instr.wf = false := by decide +kernel

theorem test_wf_compute_operands :
    [Instr.twDrain h5 { mm0 with core := 64 }, .twDrain h5 { mm0 with tile := 8 }, .twDrain h5 { mm0 with oSpec := 256 },
     .twDrain h5 { mm0 with k := 1024 }, .twDrain h5 { mm0 with n := 8192 }, .twDrain h5 { mm0 with m := 2048 },
     .twDrain h5 { mm0 with anchor := 32768 }, .twDrain h5 { mm0 with oStride := 2 ^ 32 },
     .twMin h5 { mx0 with core := 64 }, .twMin h5 { mx0 with sSpec := 256 }, .twMin h5 { mx0 with segs := 2 ^ 16 },
     .twMin h5 { mx0 with segLen := 2 ^ 32 },
     .muGradScatter h5 { ga0 with engine := 32 }, .muGradScatter h5 { ga0 with kind := 4 }, .muGradScatter h5 { ga0 with table := 4096 },
     .muGradScatter h5 { ga0 with spec := 256 }, .muGradScatter h5 { ga0 with stride := 2 ^ 16 }, .muGradScatter h5 { ga0 with nIdx := 2 ^ 25 },
     .muGradScatter h5 { ga0 with addr := 2 ^ 48 },
     .muLedgerAdd h5 { la0 with engine := 32 }, .muLedgerAdd h5 { la0 with lMuslin := 8 }, .muLedgerAdd h5 { la0 with sSpec := 256 },
     .muLedgerAdd h5 { la0 with dev := 1024 }, .muLedgerAdd h5 { la0 with nElem := 2 ^ 28 }, .muLedgerAdd h5 { la0 with anchor := -32769 },
     .muLedgerAdd h5 { la0 with la := 2 ^ 48 },
     .muOptDense h5 { od0 with muslin := 8 }, .muOptDense h5 { od0 with mode := 4 }, .muOptDense h5 { od0 with pset := 256 },
     .muOptDense h5 { od0 with wkSpec := 256 }, .muOptDense h5 { od0 with step := 2 ^ 40 }, .muOptDense h5 { od0 with bandHi := 2 ^ 16 },
     .muOptDense h5 { od0 with rowsN := 2 ^ 28 }, .muOptDense h5 { od0 with eDa := 2 ^ 48 }].any Instr.wf = false := by decide +kernel

theorem test_wf_other_operands :
    [Instr.imageLoad h5 tr0 { srcDa := 2 ^ 48, srcLen := 0 }, .imageLoad h5 tr0 { srcDa := 0, srcLen := 2 ^ 32 },
     .stRearm h5 { stream := 16384 }, .stRearm h5 { stream := 0, seg := 256 }, .stRearm h5 { stream := 0, pieces := List.replicate 5 (0, 64) },
     .stRearm h5 { stream := 0, pieces := [(2 ^ 48, 64)] }, .stRearm h5 { stream := 0, pieces := [(0, 2 ^ 40)] },
     .rgGet h5 { rg0 with dev := 1024 }, .rgGet h5 { rg0 with stream := 16384 }, .rgGet h5 { rg0 with dstDa := 2 ^ 48 },
     .rgGet h5 { rg0 with len := 2 ^ 40 },
     .tnSnapshot h5 { sn0 with dest := 4 }, .tnSnapshot h5 { sn0 with nTensors := 2 ^ 16 }, .tnSnapshot h5 { sn0 with listDa := 2 ^ 48 },
     .tnSnapshot h5 { sn0 with dstLen := 2 ^ 40 },
     .write { fl0 with op := 256 }, .write { fl0 with tc := 8 }, .write { fl0 with dst := 40 }, .write { fl0 with src := 40 },
     .write { fl0 with panel := 64 }, .write { fl0 with tag := 2 ^ 16 }, .write { fl0 with da := 2 ^ 48 }, .write { fl0 with mgroup := 4096 },
     .write { fl0 with oparg := 2 ^ 64 }, .atomicAdd { am0 with dst := 40 }, .atomicAdd { am0 with anchor := 32768 },
     .atomicAdd { am0 with stepTag := 256 }, .atomicAdd { am0 with words := List.replicate 1537 0 },
     .ident 34 { self := 1024, epos := 0, npos := 0, port := 0, keeps := true, rack := 0 },
     .flitFrame 34 { dstDev := 1024, srcDev := 0, rDie := 0, vl := 0, tc := 0, rseq := 0, flit := fl0 },
     .tokenIn 40 { kind := 0, dev := 0, aux := 0, step := 0 }, .journalEnd { jr0 with muslin := 8 }, .unitError ⟨40, 0⟩,
     .quotaSet h5 tr0 64 0 0 0 0, .keyAgree h5 4 0 0 0 0, .post 256 0 false false 0 0 0, .regWrite 0 0 .mMode 256 0, .coreFence 48,
     .credit 0 8 0 1, .moveStart 8 0 0].any Instr.wf = false := by
  decide +kernel

/-- The link fields of flits and of ring frames (R34, R363). -/
theorem test_wf_links :
    let fr : RingFrame := { dstDev := 0, srcDev := 0, rDie := 0, vl := 0, tc := 0, rseq := 0, flit := fl0 }
    [Instr.flitFrame 34 fr, .idle { die := 34 }].all Instr.wf = true ∧
    [Instr.write { fl0 with kind := 4 }, .write { fl0 with lseq := 4096 }, .write { fl0 with lack := 4096 }, .write { fl0 with cretTc := 8 },
     .write { fl0 with cretN := 32 }, .write { fl0 with crc := 2 ^ 32 }, .write { fl0 with payload := List.replicate 12289 0 },
     .write { fl0 with byteEn := List.replicate 12289 true }, .flitFrame 34 { fr with srcDev := 1024 }, .flitFrame 34 { fr with rDie := 64 },
     .flitFrame 34 { fr with vl := 2 }, .flitFrame 34 { fr with tc := 8 }, .flitFrame 34 { fr with rseq := 2 ^ 16 },
     .flitFrame 34 { fr with crc := 2 ^ 32 }, .flitFrame 34 { fr with ret := { rack := 2 ^ 16 } }, .idle { die := 40 },
     .idle { die := 34, ret := { tc := 8 } }, .idle { die := 34, ret := { vl := 2 } }, .idle { die := 34, ret := { n := 256 } }].any
      Instr.wf = false := by
  decide +kernel

/-- The table gives no row bits, so no word spells a command. -/
theorem test_no_row_has_bits : decodeTableWord 8 0 = none ∧ decodeTableWord 64 (2 ^ 64 - 1) = none := by decide +kernel

/-! Reset, queues and the command decoder. -/

/-- A target with an address, its pointer at p. -/
def i3cAt (p : Nat) : State :=
  { up with sv := { up.sv with phase := 2 }, i3c := { up.i3c with dyn := 9, dynValid := true, pointer := p } }

theorem witness_PrivateTransfers :
    (i3cUp (i3cAt 0) = true ∧ (i3cAt 0).i3c.dynValid = true ∧ ([1, 2, 3, 4] : List Byte).length = 4) ∧
    (i3cUp (i3cAt 0x14FF8) = true ∧ (i3cAt 0x14FF8).i3c.dynValid = true ∧ ([1, 2, 3] : List Byte).length ≠ 4) := by decide +kernel

theorem witness_ValuesOfCodes : (15 < 16) ∧ (0xFE < 0xFF) := by decide

theorem witness_ColdResetZeroesHomeAndStash :
    State.reset.sv.shutdown = 0 ∧ farBase - 1 < farBase ∧ farBase / 64 - 1 < farBase / 64 := by decide +kernel

/-- A command waits in front. -/
def waiting1 (c : Instr) : State := { up with pending := [c] }

theorem witness_StepRunsTheFrontCommand : (waiting1 .rstdaa).pending = Instr.rstdaa :: [] := by decide +kernel

theorem witness_EmptyQueueIdles : up.pending = [] := by decide +kernel

theorem witness_StepKeepsTablesCanonical : TablesOk (waiting1 .rstdaa) ∧ ∃ t, step (waiting1 .rstdaa) = .next t :=
  ⟨⟨by decide +kernel, List.Pairwise.nil, by decide +kernel, by decide +kernel⟩, _, rfl⟩

theorem witness_StrapsChangeOnlyInAColdReset :
    (waiting1 .rstdaa).pending = [.rstdaa] ∧ coldStarts .rstdaa = false ∧ ∃ t, step (waiting1 .rstdaa) = .next t :=
  ⟨by decide +kernel, by decide +kernel, _, rfl⟩

theorem witness_LockedUntilAColdReset :
    let s := { waiting1 .rstdaa with sv := { up.sv with locked := true } }
    s.pending = [.rstdaa] ∧ coldStarts .rstdaa = false ∧ s.sv.locked = true ∧ ∃ t, step s = .next t :=
  ⟨by decide +kernel, by decide +kernel, by decide +kernel, _, rfl⟩

/-- Panel 0 with core 0; queue 5 is its, queue 6 is a FIRMWARE queue; both post to ring 3. -/
def queued : State :=
  { imaged [(0x04, [[0, 0, 1, 0, 0, 0]]), (0x0B, [[5, 0, 1, 1, 4, 3, 0x40000], [6, 0, 0, 0, 4, 3, 0x50000]]), (0x0C, [[3, 6, 0, 0, 0x80000]])] with
    qm := { up.qm with queues := [(5, { st := qActive, tail := 1 })] } }

/-- A write the far port holds, and h5 dispatched. -/
def owing : State := { queued with mem := { up.mem with posted := [{ port := 0, tag := 3, da := farBase, data := [1] }] } }

theorem witness_NopAndFenceComplete :
    (canStart queued h5 = true ∧ panelOfQueue queued 6 = none) ∧
    (canStart queued h5 = true ∧ panelOfQueue queued h5.queue ≠ none ∧ fenceWaits queued h5 true = false ∧ fenceTags queued true true = []) ∧
    (canStart owing h5 = true ∧ panelOfQueue owing h5.queue ≠ none ∧ fenceWaits owing h5 true = false ∧ fenceTags owing true true ≠ []) := by
  decide +kernel

/-- Port 0 of the far tier is up with 1 GiB. -/
def farUp : State := { up with pkg := { up.pkg with far := [(0, { link := 1, expanders := 1, gib := 1 })] } }

/-- Queue 5 is a panel's queue without a holding; DA 0 lies in a working region in the second. -/
def unheld : State := imaged [(0x0B, [[5, 0, 1, 1, 4, 3, 0x40000]])]

theorem witness_InlineWriteStoresItsPayload :
    let b192 : List Byte := List.replicate 192 7
    let h : Hdr := { h5 with ext := 3 }
    (canStart up h = true ∧ Memory.wf up.mem.cells = true ∧ ceilDiv 192 64 ≤ h.ext ∧ b192.length = 192 ∧ inRegSpace 1 = false ∧ 1 < farBase ∧
      checkOut up h [(1, 192)] = none) ∧
    (canStart farUp h = true ∧ farBase ≤ farBase ∧ farBase < farTop ∧ (lookD farUp.pkg.far (farPortOf farBase) {}).link ≠ 0 ∧
      inRegSpace farBase = false ∧ checkOut farUp h [(farBase, 192)] = none) ∧
    (ceilDiv 8 64 ≤ h.ext ∧ inRegSpace regBase = true ∧ classOfQueue up h.queue = 0 ∧ regRangeOk regBase 8 = true) ∧
    (h5.ext < ceilDiv 1 64 ∧ inRegSpace (regBase + 4) = true ∧ regRangeOk (regBase + 4) 8 = false ∧ classOfQueue queued 5 ≠ 0) ∧
    (canStart unheld h = true ∧ checkOut unheld h [(0, 1)] = some stQuota) := by decide +kernel

/-- A NOP with the seal of generation 1 stands at the head of queue 5; `bad` is the opcode byte, `gen` the seal. -/
def headed (op gen : Byte) : State :=
  { queued with mem := { up.mem with cells := [(0x40000, op), (0x4003E, gen)].filter (·.2 != 0) } }
def retried (n : Nat) : State :=
  { headed 0 0 with qm := { up.qm with queues := [(5, { st := qActive, tail := 1, retry := true, rereads := n })] } }

theorem witness_HeadOfQueueIsReadBySeal :
    let r := [5, 0, 1, 1, 4, 3, 0x40000]
    let e (s : State) := readBytes s.mem 0x40000 256
    (∀ s ∈ [headed 0 1, headed 0xFF 1, headed 0 2], queueRec s 5 = some r ∧ (queueOf s 5).st = qActive ∧ canFetch s 5 r = true ∧
      postedEntry s 5 0 1 = none ∧ (checkRead (setQueue (reserveSlot s 3) 5 fun u => { u with resume := false }) 0x40000 256).1 = false) ∧
    (∀ s ∈ [retried 7, retried 8], queueRec s 5 = some r ∧ (queueOf s 5).st = qActive ∧ (queueOf s 5).retry = true ∧
      postedEntry s 5 0 1 = none ∧ (checkRead (setQueue s 5 fun u => { u with resume := false }) 0x40000 256).1 = false ∧
      dword (e s) 0x3E 2 ≠ (queueOf s 5).headGen) ∧
    (dword (e (headed 0 1)) 0x3E 2 = 1 ∧ (decodeDesc 5 0 0 (e (headed 0 1))).isSome ∧
      critOp (opcodeOf (e (headed 0 1))) = (decodeHdr 5 0 0 (e (headed 0 1))).crit ∧ (decodeHdr 5 0 0 (e (headed 0 1))).armed = false ∧
      (∀ d ∈ decodeDesc 5 0 0 (e (headed 0 1)), noRoute (headed 0 1) d = false) ∧
      noRoute (headed 0 1) (.rgGet h5 rg0) = true) ∧
    decodeDesc 5 0 0 (e (headed 0xFF 1)) = none ∧ dword (e (headed 0 2)) 0x3E 2 ≠ 1 := by decide +kernel

/-- An entry fetched and ready, for a Muslin ledger die; armed for Datum n. -/
def ready (d : Nat) (n : Option Nat) : State :=
  let h : Hdr := { h5 with armed := n.isSome, datum := n.getD 0 }
  { queued with qm := { up.qm with queues := [(5, { st := qActive, fetched := [{ hdr := h, cmd := .nop h, unit := ⟨d, 0⟩ }] })] } }

theorem witness_DispatchHandsTheHeadOver :
    (∀ s ∈ [ready 18 none, ready 18 (some 1), ready 18 (some 0), ready 40 none],
      ∀ x ∈ (queueOf s 5).fetched, headReady s 5 x = true ∧ served s x.unit = some 5) ∧
    (dieUp up 18 = true ∧ datumFuture 1 0 = true ∧ datumFuture 0 0 = false ∧ dieUp up 40 = false) := by decide +kernel

/-- Queue 5 HALTED and shown by the selector, ring 3 with two records and shown by the selector. -/
def halted : State :=
  { queued with
    qm := { queued.qm with queues := [(5, { st := qHalted })], rings := [(3, { tail := 2 })] }
    regs := [(regKey 0 0x20000, 5), (regKey 0 0x20030, 3)] }

theorem witness_DoorbellResumeRhead :
    let r := [5, 0, 1, 1, 4, 3, 0x40000]
    let u := queueOf queued 5
    let ahead := posDiff 16 (posNum 16 u.head u.headGen)
    (queueRec queued 5 = some r ∧ u.st ≠ qDisabled ∧ ahead (posNum 16 15 1) ≤ 16 ∧ ahead (posNum 16 u.tail u.tailGen) ≤ ahead (posNum 16 15 1) ∧
      ahead (posNum 16 0 (nextGen 1)) = 16) ∧
    (16 < ahead (posNum 16 1 2) ∧ (queueOf queued 6).st = qDisabled ∧ queueRec queued 6 ≠ none) ∧
    queueRec queued 7 = none ∧
    (bit (1 : Word64).toNat 0 = true ∧ (queueOf halted (regGet halted 0 0x20000)).st = qHalted ∧ (queueOf queued (regGet queued 0 0x20000)).st ≠ qHalted) ∧
    (ringRec halted (regGet halted 0 0x20030) = some [3, 6, 0, 0, 0x80000] ∧ 63 < ringSize [3, 6, 0, 0, 0x80000] ∧
      (ringOf halted 3).head + (2 + 64 - 0) % 64 ≤ (ringOf halted 3).tail ∧ (ringOf halted 3).tail < (ringOf halted 3).head + 3) := by decide +kernel

/-- h5 dispatched with a deadline; a completion of queue 5 under way. -/
def late5 : State := { queued with qm := { queued.qm with disp := [dispOf { h5 with deadline := 9 } (.nop h5) cmdUnit] } }
def doneRec (st : Nat) (q : Bool) : Cpl := { completionOf { h5 with quiet := q } cmdUnit st 4 with index := 0 }
def cplState (st : Nat) (q : Bool) : State := { queued with qm := { queued.qm with cpls := [doneRec st q], rings := [(3, { resv := 1 })] } }
def cplMsg : Flit := { op := 6, tc := 0, dst := 0, src := 0, oparg := 5 * 65536 }
/-- Die 18 reaches die 0 through its port 3, which is up. -/
def muCplState : State :=
  { queued with pkg := { up.pkg with portState := [(18 * 16 + 3, 3)] }, gz := { up.gz with routes := put up.gz.routes (routeKey 18 0 0 0) 3 }, qm := { queued.qm with cpls := [completionOf h5 (ledgerUnit 0) stDone 4], rings := [(3, { resv := 1 })] } }

/-- That port has no credit left for TC0. -/
def muCplOut : State := { muCplState with gz := { muCplState.gz with credits := [((18 * 16 + 3) * 8, 0)] } }

theorem witness_ExpiryAndCompletion :
    (∃ d ∈ late5.qm.disp, late5.qm.disp.find? (fun d => d.hdr.queue == 5 && d.hdr.index == 0) = some d ∧ d.hdr.deadline ≠ 0) ∧
    (∀ s ∈ [cplState stDone true, cplState stDone false, cplState stMalformed true], cplMsg.op = 0x06 ∧ s.gz.flits.contains cplMsg = false ∧
      (cplFor s cplMsg).isSome ∧ cplMsg.dst = 0 ∧ cplMsg.src = 0 ∧ cringOf s 5 = some 3 ∧ ringRec s 3 = some [3, 6, 0, 0, 0x80000] ∧
      Memory.wf s.mem.cells = true ∧ 0x80000 + 16 * ringSize [3, 6, 0, 0, 0x80000] ≤ farBase) ∧
    (let f := { cplMsg with src := 18 }
     dieUp muCplState 18 = true ∧ (∀ c ∈ cplFor muCplState f, outputBusy muCplState (cplFlit muCplState c) = false ∧
       (match goes true muCplState (cplFlit muCplState c) with | some (some _, b) => cringOf b c.queue == some 3 | _ => false) = true ∧
       (goes true muCplOut (cplFlit muCplOut c)).isNone) ∧
     (cplFor muCplState f).isSome ∧ cplFor muCplOut f = cplFor muCplState f) := by
  decide +kernel

/-! The step sequencer. -/

/-- POST slot 0 to queue 6, WAIT k0 for 0, FIRE, AMAX x1 over one record of core 0, AMAXD x2, ANCHOR a0 := x1, x2, SEAL, END. -/
def words9 : List Nat :=
  [0x01 + 2 ^ 16 * 6, 0x02, 0x03, 0x04 + 2 ^ 8 * 1 + 2 ^ 24 * 1, 0x05 + 2 ^ 8 * 2, 0x1000, 0x06 + 2 ^ 16 * 0x21, 0x07, 0x08]
/-- A program of these words with one template, all zero. -/
def codeOf (ws : List Nat) : List Byte := padTo 512 (ws.flatMap (leBytes 8))

/-- Program 0 runs and has reached word pc. -/
def progAt (pc : Nat) (st : Nat := 1) (budget : Nat := 1) : State :=
  let s := imaged
    [(0x04, [[0, 0, 1, 0, 0, 0]]), (0x0B, [[5, 0, 1, 1, 4, 3, 0x40000], [6, 0, 0, 0, 4, 3, 0x50000]]), (0x0C, [[3, 6, 0, 0, 0x80000]]),
     (0x16, [[0, 0, 0, 512, budget]])] [(0, codeOf words9)]
  { s with seq := { s.seq with st := 1, run := some h5, phase := 1, left := 2, progs := [(0, { st := st, pc := pc })] } }

/-- Queue 6 holds 16 entries: it is full. -/
def progFull : State := { progAt 0 with qm := { up.qm with queues := [(6, { st := qActive, tailGen := 2 })] } }

/-- POST names queue 5, a panel's queue, and queue 7, which no record defines. -/
def progPost (q : Nat) : State :=
  let s := progAt 0
  { s with img := { s.img with inForce := s.img.inForce.map fun i => { i with code := [(0, codeOf [0x01 + 2 ^ 16 * q, 0x08])] } } }

theorem witness_PostWritesTheTemplate :
    let pr := [0, 0, 0, 512, 1]
    (Stands (progAt 0) 0 (.post 0 0 false false 6 0 0) ∧ progRec (progAt 0) 0 = some pr ∧ (queueRec (progAt 0) 6).isSome ∧ (template (progAt 0) 0 0).isSome ∧
      fld pr 2 = 0 ∧ Memory.wf (progAt 0).mem.cells = true ∧ entryDa [6, 0, 0, 0, 4, 3, 0x50000] (queueOf (progAt 0) 6).tail < farBase) ∧
    (Stands progFull 0 (.post 0 0 false false 6 0 0) ∧
      posDiff 16 (posNum 16 (queueOf progFull 6).head (queueOf progFull 6).headGen) (posNum 16 (queueOf progFull 6).tail (queueOf progFull 6).tailGen) = 16) ∧
    (Stands (progPost 5) 0 (.post 0 0 false false 5 0 0) ∧ (template (progPost 5) 0 0).isSome ∧ queueRec (progPost 5) 5 = some [5, 0, 1, 1, 4, 3, 0x40000]) ∧
    (Stands (progPost 7) 0 (.post 0 0 false false 7 0 0) ∧ progRec (progPost 7) 0 = some pr ∧ queueRec (progPost 7) 7 = none) := by
  unfold Stands; decide +kernel

/-- The template's sectors are whole, wherever firmware keeps it (DESIGN CHOICE, log entry 94), and lost. -/
theorem witness_PostWritesTheTemplate_template :
    (checkRead (progAt 0) (templateDa 0 0) 256).1 = false ∧
    (let lost : State := { progAt 0 with mem := { up.mem with poison := [templateDa 0 0 / 64] } }
     (checkRead lost (templateDa 0 0) 256).1 = true ∧ (template lost 0 0).isSome ∧ fld [6, 0, 0, 0, 4, 3, 0x50000] 3 = 0) := by
  refine ⟨(clean_read ⟨by decide +kernel, by decide +kernel⟩ ?_).1, lost_read (by decide) (List.mem_singleton.2 rfl), by decide +kernel, by decide⟩
  have b : fwArea + 256 * 0x400000 ≤ farBase := by decide
  unfold templateDa
  omega

/-- k0 must reach 1, and FIRE with 16 requests pending. -/
def progWait : State :=
  let s := progAt 0
  { s with img := { s.img with inForce := s.img.inForce.map fun i => { i with code := [(0, codeOf [0x02 + 2 ^ 32, 0x08])] } } }
def fireFull : State := { progAt 2 with ck := { up.ck with pending := 16 } }

theorem witness_ProgramInstructionsMoveOn :
    (Stands (progAt 1) 0 (.wait 0 0 0) ∧ 0 ≤ look0 (progOf (progAt 1) 0).k 0) ∧
    (Stands progWait 0 (.wait 0 0 1) ∧ look0 (progOf progWait 0).k 0 < 1) ∧
    (Stands (progAt 2) 0 (.fire 0) ∧ (progAt 2).ck.pending < 16 ∧ Stands fireFull 0 (.fire 0) ∧ 16 ≤ fireFull.ck.pending) ∧
    Stands (progAt 6) 0 (.anchor 0 0 1 2) ∧
    (Stands (progAt 7) 0 (.sealPoint 0) ∧ (progOf (progAt 7) 0).st = 1) ∧
    (Stands (progAt 8 3) 0 (.endProg 0) ∧ (progOf (progAt 8 3) 0).st = 3) := by
  unfold Stands; decide +kernel

theorem witness_AmaxReadsMagnitudes :
    let dead : State := { progAt 3 with pkg := { up.pkg with dieFailed := [2] } }
    (Stands (progAt 3) 0 (.amax 0 1 0 1 0) ∧ dieUp (progAt 3) (coreDie 0) = true ∧ ∀ e, e ∈ (progAt 3).tw.cbErr → e.1 ∉ wordsOf 0 0 8) ∧
    (Stands dead 0 (.amax 0 1 0 1 0) ∧ dieUp dead (coreDie 0) = false) ∧
    (Stands (progAt 4) 0 (.amaxd 0 2 0x1000) ∧ (checkRead (progAt 4) 0x1000 8).1 = false) ∧
    (let lost : State := { progAt 4 with mem := { up.mem with poison := [0x1000 / 64] } }
     Stands lost 0 (.amaxd 0 2 0x1000) ∧ (checkRead lost 0x1000 8).1 = true) := by
  unfold Stands; decide +kernel

/-- No run; a run between steps; one held; a run whose close part has ended. -/
def idleSeq : State := queued
def heldSeq : State := { queued with sec := { up.sec with fwState := fwWriting } }
def runSeq : State := { progAt 8 4 with seq := { (progAt 8 4).seq with phase := 0 } }
def lastSeq (left : Nat) : State := { progAt 8 4 with seq := { (progAt 8 4).seq with phase := 4, left := left } }

theorem witness_RunsStartAndEnd :
    (canStart idleSeq h5 = true ∧ idleSeq.seq.run = none ∧ idleSeq.seq.held = none ∧ idleSeq.img.inForce ≠ none ∧ runHeld idleSeq = false) ∧
    (canStart heldSeq h5 = true ∧ heldSeq.seq.run = none ∧ heldSeq.seq.held = none ∧ heldSeq.img.inForce ≠ none ∧ runHeld heldSeq = true) ∧
    (canStart runSeq h5x = true ∧ runSeq.seq.run ≠ none ∧ up.img.inForce = none) ∧
    (lastSeq 1).seq.phase = 4 ∧ (lastSeq 2).seq.phase = 4 ∧ (∀ p, p ∈ (lastSeq 1).seq.progs → p.2.st = 4) ∧
    (∀ p, p ∈ (lastSeq 2).seq.progs → p.2.st = 4) ∧ (lastSeq 2).seq.stops = [] ∧ (lastSeq 2).seq.left ≠ 1 ∧ (lastSeq 1).seq.run ≠ none := by
  decide +kernel

/-- Program 0 has issued its first descriptor. -/
def issued (s : State) : State := { s with seq := { s.seq with progs := s.seq.progs.map fun p => (p.1, { p.2 with started := true }) } }

theorem witness_StepsGoThroughTheirPhases :
    let closing : State := { progAt 8 with seq := { (progAt 8).seq with phase := 2 } }
    mayStart runSeq = true ∧
    ((progAt 7 2).seq.phase = 1 ∧ (∀ p, p ∈ (progAt 7 2).seq.progs → p.2.st = 2) ∧ allFetched (progAt 7 2) = true ∧ sealGateOpen (progAt 7 2) = true ∧
      sealRoom (progAt 7 2) = true ∧ musUp (progAt 7 2) = [0, 1, 2, 3, 4, 5, 6, 7] ∧ ∀ k, k ∈ musUp (progAt 7 2) → 18 + k ∉ (progAt 7 2).ck.err) ∧
    (closing.seq.phase = 2 ∧ closing.seq.sealHdrs = []) ∧
    (progRec (progAt 0) 0 = some [0, 0, 0, 512, 1] ∧ fld [0, 0, 0, 512, 1] 4 ≠ 0 ∧ budgetCounts (issued (progAt 0)) (progOf (issued (progAt 0)) 0) = true ∧
      budgetCounts (issued (progAt 7 2)) (progOf (issued (progAt 7 2)) 0) = true ∧ progRec (issued (progAt 0)) 0 = progRec (progAt 0) 0) := by
  decide +kernel

/-! Security. -/

def secretOf (n : Nat) : List Byte := List.replicate 32 (BitVec.ofNat 8 n)
/-- Key 7 in slot 1, its last counter as given. -/
def keyed (last : Nat) (s : State := up) : State :=
  { s with sec := { s.sec with keys := [(1, { num := 7, active := true, last := last, secret := secretOf 1 })] } }
def key7 (last : Nat) : Key := { num := 7, active := true, last := last, secret := secretOf 1 }
/-- A trailer under key 7 with the TAG that its secret gives. -/
def tr7 (ctr : Nat) : Trailer := { counter := ctr, keyNum := 7, tag := (Config.hmac (secretOf 1) []).take 16, message := [] }
/-- A trailer under key 7 with another TAG. -/
def trBad : Trailer := { tr7 1 with tag := if (tr7 1).tag = List.replicate 16 0 then List.replicate 16 1 else List.replicate 16 0 }

theorem witness_CriticalCommandsAreChecked :
    (criticalOf (.lockSet h5 tr0) = some (h5, tr0) ∧ canStart up h5 = true ∧ up.sec.fwHdr ≠ some h5 ∧ h5.queue ≠ 0 ∧ keyOf up 7 = none) ∧
    (keyOf (keyed 0) trBad.keyNum = some (1, key7 0) ∧ trBad.tag ≠ (Config.hmac (key7 0).secret trBad.message).take 16) ∧
    (keyOf (keyed 5) (tr7 5).keyNum = some (1, key7 5) ∧ (tr7 5).tag = (Config.hmac (key7 5).secret (tr7 5).message).take 16 ∧
      (tr7 5).counter ≤ (key7 5).last) := by
  refine ⟨by decide +kernel, ⟨by decide +kernel, fun h => ?_⟩, by decide +kernel, rfl, by decide +kernel⟩
  unfold trBad at h
  split at h
  · next e => exact absurd (h.trans e) (by decide)
  · next e => exact e h.symm

theorem accepted7 (s : State) (h : Hdr) (c : canStart (keyed 5 s) h = true) : Accepted (keyed 5 s) h (tr7 6) 1 (key7 5) :=
  ⟨c, rfl, rfl, rfl, by decide⟩

theorem witness_UnlockAndQuota :
    Accepted (keyed 5) h5 (tr7 6) 1 (key7 5) ∧ Accepted (keyed 5 queued) h5 (tr7 6) 1 (key7 5) ∧
    (panelRec (acceptCounter (keyed 5) 1 (key7 5) 6) 0 = none ∧ (quotaSet (acceptCounter (keyed 5) 1 (key7 5) 6) 0 0 1 0 64).isNone) ∧
    ((quotaSet (acceptCounter (keyed 5 queued) 1 (key7 5) 6) 0 0 1 0 64).isSome ∧ (quotaSet (acceptCounter (keyed 5 queued) 1 (key7 5) 6) 0 0 3 0 64).isNone) ∧
    Accepted (keyed 5) h5xx (tr7 6) 1 (key7 5) ∧ (tr7 6).reserved = false ∧ Accepted (keyed 5) h5 { tr7 6 with reserved := true } 1 (key7 5) ∧ (2 ≤ h5xx.ext ∧ ownerSettable 0x10 = true ∧ h5.ext < 2 ∧ ownerSettable 0x0F = false) :=
  ⟨accepted7 _ _ (by decide +kernel), accepted7 _ _ (by decide +kernel), by decide +kernel, by decide +kernel, accepted7 _ _ (by decide +kernel), rfl,
    ⟨by decide +kernel, rfl, rfl, rfl, by decide⟩, by decide +kernel⟩

/-- A ring map: SELF is device 0, with device 1 east of it. -/
def ringed (s : State := up) : State := { s with rings := { s.rings with map_ := [[0, 0, 2, 1], [1, 0, 0, 0, 0, 0], [1, 1, 1, 0, 0, 0]] } }
/-- This device is ALIASED. -/
def aliasedSelf : State := { ringed with rings := { ringed.rings with peers := [(0, { st := 4, target := 1 })] } }
/-- A firmware update whose descriptor h5 is at its second half. -/
def writingFw (paused : Bool) : State :=
  { up with sec := { up.sec with fwState := fwWriting, fwHdr := some h5, fwWaiter := some h5, fwPaused := paused, fwJournal := some [1] } }
def trialFw (steps time : Nat) : State := { up with sec := { up.sec with fwState := fwTrial, fwSteps := steps, trial := time } }

theorem witness_BypassAndFirmware :
    (Accepted (keyed 5 ringed) h5 (tr7 6) 1 (key7 5) ∧ selfAliased (acceptCounter (keyed 5 ringed) 1 (key7 5) 6) = false) ∧
    (Accepted (keyed 5 aliasedSelf) h5 (tr7 6) 1 (key7 5) ∧ selfAliased (acceptCounter (keyed 5 aliasedSelf) 1 (key7 5) 6) = true) ∧
    ((keyed 5).sec.fwHdr ≠ some h5 ∧ r21 (acceptCounter (keyed 5) 1 (key7 5) 6) [(0, 0x4000)] = none ∧
      (checkRead (acceptCounter (keyed 5) 1 (key7 5) 6) 0 0x4000).1 = false) ∧
    ((writingFw false).sec.fwHdr = some h5 ∧ (writingFw false).sec.fwWaiter = some h5 ∧ (writingFw false).sec.fwPaused = false ∧
      (writingFw false).sec.fwJournal = some [1]) ∧
    ((writingFw true).sec.fwState = fwWriting ∧ (writingFw true).sec.fwPaused = true ∧ (writingFw true).sec.fwWaiter = some h5 ∧
      (writingFw true).sec.fwJournal = some [1]) ∧
    (bit (1 : Word64).toNat 0 = true ∧ 3 ≤ (trialFw 3 119999999999).sec.fwSteps ∧ (trialFw 3 119999999999).sec.fwState = fwTrial ∧
      (trialFw 3 119999999999).sec.trial < 120000000000) ∧
    ((trialFw 2 0).sec.fwSteps < 3 ∧ 120000000000 ≤ (trialFw 3 120000000000).sec.trial) :=
  ⟨⟨accepted7 _ _ (by decide +kernel), by decide +kernel⟩, ⟨accepted7 _ _ (by decide +kernel), by decide +kernel⟩,
    ⟨by decide +kernel, by decide +kernel, (clean_read ⟨by decide +kernel, by decide +kernel⟩ (by decide)).1⟩, by decide +kernel,
    by decide +kernel, by decide +kernel, by decide +kernel⟩

/-- An owner key is installed. -/
def owned : State :=
  { up with sec := { up.sec with almanac := [{ id := almOwner, version := 1, data := List.replicate 48 1, wseq := 1 }] } }

theorem witness_KeysOwnerAndQuote :
    let ops := [(0, 1088), (0x1000, 16224)]
    (canStart up h5 = true ∧ (∃ t, readOperands up h5 ops = .inr t) ∧ ownerKey up = none) ∧
    (canStart (keyed 0) h5 = true ∧ (∃ t, readOperands (keyed 0) h5 ops = .inr t) ∧ ∃ p, p ∈ (keyed 0).sec.keys ∧ p.1 ≠ 0 ∧ p.2.active = true ∧ p.2.num = 7) ∧
    (canStart owned h5 = true ∧ (∃ t, readOperands owned h5 ops = .inr t) ∧ (ownerKey owned).isSome ∧ ∀ p, p ∈ owned.sec.keys → p.1 ≠ 0 → p.2.num ≠ 7) ∧
    (match readOperands up h5 [(0, 48)] with | .inr _ => true | .inl _ => false) = true ∧ (∃ t, readOperands owned h5 [(0, 48), (0x1000, 16224)] = .inr t) ∧
    (canStart up h5x = true ∧ 1 ≤ h5x.ext ∧ checkOut up h5x [(0, 34912)] = none ∧ checkOut up h5x [(0, 18528)] = none ∧
      Memory.wf up.mem.cells = true ∧ 0 < farBase) ∧
    (canStart up h5 = true ∧ h5.ext = 0) := by
  have c : ∀ s ∈ [up, keyed 0, owned], Clean s ∧ ∀ r ∈ [(0, 48), (0, 1088), (0x1000, 16224)], checkDa s h5 false [r] = none := by
    unfold Clean; decide +kernel
  have op : ∀ s ∈ [up, keyed 0, owned], ∀ n ∈ [48, 1088], ∃ t, readOperands s h5 [(0, n), (0x1000, 16224)] = .inr t := fun s m n k =>
    clean_operands (c s m).1 (by revert n; decide) (by decide) ((c s m).2 _ (by revert n; decide)) ((c s m).2 _ (by decide))
  exact ⟨⟨by decide +kernel, op _ (by simp) _ (by simp), by decide +kernel⟩, ⟨by decide +kernel, op _ (by simp) _ (by simp), by decide +kernel⟩,
    ⟨by decide +kernel, op _ (by simp) _ (by simp), by decide +kernel⟩, by decide +kernel, op _ (by simp) _ (by simp), by decide +kernel, by decide +kernel⟩

/-- A load of kind k, its image checked, that waits for its commit point. -/
def staging (k : Nat) (s : State := up) : State :=
  { s with img := { s.img with
      staged := some { image := { serial := 2, minFw := 0, raiseFloor := false, sections := [], code := [], bytes := [] }, hdr := h5,
                       op := { srcDa := 0, srcLen := 64, dropPending := true }, kind := k } } }
def withPend (s : State) : State := { s with mu := { s.mu with pend := [(0, { count := 1, words := [1] })] } }

theorem witness_LoadsAndTheirCommit :
    (Accepted (keyed 5) h5 (tr7 6) 1 (key7 5) ∧ ¬(h5.queue = 0 ∧ loading (keyed 5) (· == 0) = true)) ∧
    (canStart up h5 = true ∧ up.img.staged = none) ∧
    (∀ x ∈ (staging 0 (progAt 0)).img.staged, quiesced (staging 0 (progAt 0)) x = false) ∧
    (∀ x ∈ (staging 0).img.staged, quiesced (staging 0) x = true ∧ (staging 0).mu.pend = []) ∧
    (∀ x ∈ (staging 1 (withPend up)).img.staged, quiesced (staging 1 (withPend up)) x = true ∧ (staging 1 (withPend up)).mu.pend ≠ [] ∧
      ¬(x.op.dropPending = true ∧ x.kind = 0)) ∧
    (∀ x ∈ (staging 0 (withPend up)).img.staged, quiesced (staging 0 (withPend up)) x = true ∧ x.op.dropPending = true ∧ x.kind = 0) :=
  ⟨⟨accepted7 _ _ (by decide +kernel), by decide +kernel⟩, by decide +kernel, by decide +kernel, by decide +kernel, by decide +kernel, by decide +kernel⟩

/-! Register writes. -/

/-- Group 1 carries stream 2 to die 2; GZ.MC_STATE shows it, and die 2's receiver is detached. -/
def detached : State :=
  let s := imaged [(0x09, [[1, 0, 2, 2, 3, 2]])]
  { s with gz := { s.gz with mcRecv := [(mcKey [1, 0, 2, 2, 3, 2], { attached := false })] }, regs := [(regKey 2 0x1058, 1 + 2 ^ 16 * 2)] }

/-- A descriptor of die d is dispatched. -/
def waitingUnit (d : Nat) : State := { up with qm := { up.qm with disp := [dispOf { h5 with index := 9 } (.nop { h5 with index := 9 }) ⟨d, 0⟩] } }

theorem witness_ClockAndRouterWrites :
    (dieUp up 39 = true ∧ bit (1 : Word64).toNat 0 = true ∧ bit (0 : Word64).toNat 0 = false) ∧
    (dieUp (staging 0) 2 = true ∧ atStepTen (staging 0) = true ∧ atStepTen (staging 0 (progAt 0)) = false ∧ (depthsOf (0x2020202020 : Word64).toNat).sum = 160 ∧
      160 < (depthsOf (0x2020202021 : Word64).toNat).sum) ∧
    (dieQuiesced (staging 0) 2 = true ∧ dieQuiesced up 2 = false ∧ dieQuiesced (staging 0 (waitingUnit 2)) 2 = false ∧ dieQuiesced (staging 0 (waitingUnit 2)) 3 = true) ∧
    (dieUp detached 2 = true ∧ (selMembers detached 2).find? (fun m => !(mcRecvOf detached m).attached) = some [1, 0, 2, 2, 3, 2, 0] ∧
      (selMembers { detached with gz := up.gz } 2).find? (fun m => !(mcRecvOf { detached with gz := up.gz } m).attached) = none) ∧
    (dieUp up 0 = true ∧ up.ck.pending < 16 ∧ 16 ≤ fireFull.ck.pending) := by decide +kernel

/-- MU0 holds row 3 of table 1 MOVING; the directory register asks for it. -/
def moving : State :=
  { up with mu := { up.mu with dir := [(dirKey 0 1 3, { st := .moving, dest := 64, ledgerDie := 0 })] } }
def sticky1 (k : List Nat) : State := { up with sv := { up.sv with sticky := k } }

theorem witness_ControlRegisterWrites :
    (TablesOk up ∧ dieUp up 2 = true ∧ isCounter 2 0x1028 = true ∧ isCounter 2 0x1040 = true) ∧
    (isMu 18 = true ∧ dieUp moving 18 = true ∧ bit (BitVec.ofNat 64 (2 ^ 63 + 1 + 2 ^ 16 * 3)).toNat 63 = true ∧
      (dirOf moving 0 (bits (BitVec.ofNat 64 (2 ^ 63 + 1 + 2 ^ 16 * 3)).toNat 11 0) (bits (BitVec.ofNat 64 (2 ^ 63 + 1 + 2 ^ 16 * 3)).toNat 46 16)).isSome ∧
      dirOf up 0 1 3 = none) ∧
    (dieUp up 0 = true ∧ up.sv.locked = false ∧ (sticky1 [0]).sv.sticky.filter (fun k => !(k / 64 == 0 && bit (1 : Word64).toNat (k % 64))) = [] ∧
      (sticky1 [0]).sv.sticky ≠ [] ∧ (sticky1 [0, 64]).sv.sticky.filter (fun k => !(k / 64 == 0 && bit (1 : Word64).toNat (k % 64))) ≠ []) ∧
    (let v : Word64 := BitVec.ofNat 64 (2 ^ 4 * 1000 + 2 ^ 16)
     1000 ≤ bits v.toNat 15 4 ∧ bits v.toNat 15 4 ≤ up.sv.pcap ∧ 1 ≤ bits v.toNat 25 16 ∧ bits v.toNat 25 16 ≤ 1000) ∧
    (let v : Word64 := BitVec.ofNat 64 (2 ^ 4 * 999 + 2 ^ 16)
     ¬1000 ≤ bits v.toNat 15 4) ∧
    ({ up.sv with factory := true }.factory = true ∧ up.sv.factory = false ∧ ∀ k ∈ [0, 1, 2, 3, 4], bits (BitVec.ofNat 64 (2 ^ 63 + 2 ^ 16 * k)).toNat 18 16 = k) :=
  ⟨⟨⟨by decide +kernel, List.Pairwise.nil, by decide +kernel, by decide +kernel⟩, by decide +kernel⟩, by decide +kernel, by decide +kernel, by decide +kernel,
    by decide +kernel, by decide +kernel⟩

/-- Panel 0's core 0 has faulted, and its reset has been asked for. -/
def faulted0 : State :=
  { queued with tw := { up.tw with cores := [(0, { faulted := true })] }, sv := { up.sv with panelReqs := [0] }, regs := [(regKey 0 0xC0000, 0)] }
/-- A descriptor with this OPCODE stands in the mailbox; queue 0 is defined. -/
def mailed (op : Nat) : State :=
  { up with regs := [(regKey 0 0x50100, op)], qm := { up.qm with queues := [(0, { st := qActive })] } }
/-- Stream 2 of core 0; producer p. -/
def streamed (p : Nat) (x : Strm) : State :=
  { imaged [(0x04, [[0, 0, 1, 0, 0, 0]]), (0x13, [[2, 0, p, 1, 0, 0, 0, 12, 16, 1, 4, 0, 0]])] with
    streams := [(2, x)], regs := [(regKey 0 0x50040, 2)] }

theorem witness_PanelMailboxAndPlainWrites :
    (dieUp up 0 = true ∧ bit (0 : Word64).toNat 8 = false ∧ bit (0x100 : Word64).toNat 8 = true ∧
      panelFaulted faulted0 (bits (0x100 : Word64).toNat 5 0) = true ∧ panelFaulted up (bits (0x100 : Word64).toNat 5 0) = false) ∧
    (rising none faulted0.tw.cores = true ∧ 0 ∈ faulted0.sv.panelReqs ∧ faulted0.seq.run = none ∧ 0 ∈ panelCores faulted0 0 ∧ 5 ∈ panelQueues faulted0 0 ∧
      bits (regGet faulted0 0 0xC0000) 5 0 = 0) ∧
    (0 ∉ up.sv.panelReqs ∧ (progAt 0).seq.run ≠ none ∧ (progAt 0).seq.phase ≠ 0) ∧
    (bit (1 : Word64).toNat 2 = false ∧ bit (1 : Word64).toNat 0 = true ∧ up.host.busy = false ∧ ((mboxBytes up).headD 0).toNat = 0 ∧
      { up.host with busy := true }.busy = true) ∧
    ((∀ op ∈ [0x10, 0x1F, 0x39], ((mboxBytes (mailed op)).headD 0).toNat = op) ∧ (queueRec (mailed 0x39) 0).isSome) ∧
    (streamRec up 0 = none ∧ (streamRec (streamed 1 {}) 2).any (fun r => fld r 2 != 2) ∧ (streamRec (streamed 2 { st := sAborted }) 2).isSome ∧
      regGet (streamed 2 {}) 0 0x50040 = 2 ∧ (strmOf (streamed 2 {}) 2).st ≠ sAborted ∧ (strmOf (streamed 2 { st := sAborted }) 2).st = sAborted) ∧
    up.snap = none ∧
    (dieUp up 18 = true ∧ 0x13008 % 8 = 0 ∧ isCounter 18 0x13008 = false ∧ plainMask 18 0x13008 = some 0x3F) := by decide +kernel

/-- The position test of MBOX_GO's third clause: an empty queue of any SIZE has room. -/
theorem witness_PanelMailboxAndPlainWrites_room (r : Rec) (_h : queueRec (mailed 0x39) 0 = some r) :
    posDiff (queueSize r) (posNum (queueSize r) (queueOf (mailed 0x39) 0).head (queueOf (mailed 0x39) 0).headGen)
      (posNum (queueSize r) (queueOf (mailed 0x39) 0).tail (queueOf (mailed 0x39) 0).tailGen) ≠ queueSize r := by
  have h0 : queueOf (mailed 0x39) 0 = { st := qActive } := by decide +kernel
  have hp : 0 < queueSize r := Nat.two_pow_pos _
  simp only [h0, posDiff, posNum, Nat.add_sub_cancel_left, Nat.mod_self]
  omega

/-! Streams, Twill and Muslin. -/

/-- Stream 2 of core 0, its consumer's queue h5; group 1 carries it to die 2. -/
def streamImg (p : Nat) (x : Strm) : State :=
  { imaged [(0x04, [[0, 0, 1, 0, 0, 0]]), (0x09, [[1, 0, 2, 2, 3, 2], [1, 0, 2, 3, 3, 4]]), (0x0B, [[5, 0, 1, 1, 4, 3, 0x40000]]),
      (0x13, [[2, 0, p, 1, 0, 0, 0, 12, 16, 1, 4, 0, 0], [4, 0, p, 1, 0, 1, 0, 12, 16, 1, 4, 0, 0]])] with
    streams := [(2, x), (4, {})] }
/-- Two receivers of group 1, their ACKED at a and b, the group at position p. -/
def group1 (a b p : Nat) : State :=
  { streamImg 1 {} with gz := { up.gz with mcRecv := [(mcKey [1, 0, 2, 2, 3, 2, 0], { acked := a }), (mcKey [1, 0, 2, 3, 3, 4, 0], { acked := b })], mcPos := [(1, p)] } }
def mcFlit (p : Nat) : Flit := { op := 0x0A, tc := 3, dst := 2, src := 2, panel := 0, mgroup := 1, oparg := p, payload := List.replicate 64 1 }
/-- Group 1 enters die 2, and a message of it is on its way. -/
def mcIn (v : McRecv) (x : Strm) : State :=
  { streamImg 1 x with gz := { up.gz with mcast := [(2 * 4096 + 1, 2 ^ 8)], mcRecv := [(mcKey [1, 0, 2, 2, 3, 2, 0], v)], flits := [mcFlit 0] } }
/-- An earlier descriptor of h5's unit. -/
def behind : State :=
  { streamImg 0 {} with qm := { up.qm with disp := [dispOf { h5 with index := 1 } (.nop h5) (coreUnit 0), dispOf h5 (.stRelease h5 2 0 64) (coreUnit 0)] } }

theorem witness_StreamsAndMulticast :
    (canStart up h5 = true ∧ rearmRefusal up h5 { stream := 2 } = some stMalformed) ∧
    (canStart (streamImg 0 {}) h5 = true ∧ rearmRefusal (streamImg 0 {}) h5 { stream := 2 } = none ∧
      rearmRefusal (streamImg 0 { st := sAborted }) h5 { stream := 2 } = none) ∧
    (rearmRefusal (streamImg 0 { st := sRun, segPos := 64 }) h5 { stream := 2, restart := true } = none ∧ sRun ≠ sIdle ∧ sRun ≠ sAborted) ∧
    (earlierOnUnit up h5 = false ∧ releaseRefusal (streamImg 0 { fill := 64 }) h5 2 0 64 = none ∧ releaseRefusal (streamImg 0 { fill := 64 }) h5 2 0 65 = some stMalformed ∧
      canStart (streamImg 1 { fill := 64 }) h5 = true ∧ releaseRefusal (streamImg 1 { fill := 64 }) h5 2 0 64 = none) ∧
    (let r := [2, 0, 0, 1, 0, 0, 0, 12, 16, 1, 4, 0, 0]
     streamRec (streamImg 0 {}) 2 = some r ∧ strmWork (streamImg 0 { st := sRun }) 2 r = true ∧ strmWork (streamImg 0 { st := sFull }) 2 r = true ∧
      strmWork (streamImg 0 {}) 2 r = false ∧ (strmOf (streamImg 0 { st := sRun }) 2).reported = false ∧
      (strmOf (streamImg 0 { st := sRun, reported := true }) 2).reported = true) ∧
    (arbitrated up = none ∧ arbitrated (streamImg 0 { st := sRun, reported := true }) = some 2 ∧
      (strmOf (streamImg 0 { st := sRun, reported := true }) 2).rearm = []) ∧
    ((mcFlit 0).op = 0x0A ∧ fromSource (group1 0 64 0) (mcFlit 0) = true ∧ look0 (group1 0 64 0).gz.mcPos 1 = 0 ∧
      panelFaulted (group1 0 64 0) (mcFlit 0).panel = false ∧
      (∀ m ∈ attachedOf (group1 0 64 0) 1, 0 + 64 ≤ ackedAt (mcRecvOf (group1 0 64 0) m) + replayWindow) ∧
      ∃ m ∈ attachedOf (group1 0 64 replayWindow) 1, ¬replayWindow + 64 ≤ ackedAt (mcRecvOf (group1 0 64 replayWindow) m) + replayWindow) ∧
    (let acks (s : State) := (attachedOf s 1).map fun m => ackedAt (mcRecvOf s m)
     attachedOf up 1 = [] ∧ (acks (group1 0 64 0)).min? = some 0 ∧ look0 (group1 0 64 (replayWindow - 1)).gz.mcPos 1 < 0 + replayWindow ∧
      0 + replayWindow ≤ look0 (group1 0 64 replayWindow).gz.mcPos 1 ∧ acks (group1 0 0 replayWindow) = [0, 0] ∧
      acks (group1 0 64 replayWindow) = [0, 64] ∧ fld [1, 0, 2, 2, 3, 2, 0] 6 = 0 ∧ streamRec (group1 0 0 replayWindow) 2 ≠ none) := by decide +kernel

theorem witness_StreamsAndMulticast_earlier : canStart { behind with qm := { behind.qm with disp := behind.qm.disp.map fun d =>
      if d.hdr = h5 then d else { d with started := true } } } h5 = true ∧
    earlierOnUnit { behind with qm := { behind.qm with disp := behind.qm.disp.map fun d => if d.hdr = h5 then d else { d with started := true } } } h5 = true := by
  decide +kernel

theorem witness_StreamsAndMulticast_chunk :
    let m := [1, 0, 2, 2, 3, 2, 0]
    let r := [2, 0, 1, 1, 0, 0, 0, 12, 16, 1, 4, 0, 0]
    (∀ s ∈ [mcIn {} {}, mcIn { attached := false } {}, mcIn { held := 64 } {}, mcIn {} { rel := 2 ^ 64 - 65473 }],
      (mcFlit 0).op = 0x0A ∧ fromSource s (mcFlit 0) = false ∧ (arriveAll s (mcFlit 0)).1 = [mcFlit 0] ∧
      (let a := (arriveAll s (mcFlit 0)).2
       dieUp a 2 = true ∧ mcOfFlit a (mcFlit 0) = some m ∧ streamRec a 2 = some r ∧ coreConsumer r = true ∧ panelOfCore a 0 = some (mcFlit 0).panel)) ∧
    ((lookD (mcIn { attached := false } {}).gz.mcRecv (mcKey m) {}).attached = false ∧ nearPos 0 0 + 64 ≤ (mcRecvOf (mcIn { held := 64 } {}) m).held) ∧
    (winBytes r = 65536 ∧ (64 + 2 ^ 64 - (strmOf (mcIn {} {}) 2).rel) % 2 ^ 64 ≤ 65536 ∧
      65536 < (64 + 2 ^ 64 - (strmOf (mcIn {} { rel := 2 ^ 64 - 65473 }) 2).rel) % 2 ^ 64 ∧ winBad (arriveAll (mcIn {} {}) (mcFlit 0)).2 r 0 64 = false) := by
  decide +kernel

/-- Two E4M3 operands at 0 and 64, the result at 128. -/
def mmOk : MatmulOp := { core := 0, wSpec := 3, aSpec := 3, oSpec := 3, wOff := 0, aOff := 64, oOff := 128, aStride := 64, oStride := 64 }
def tileBusy : State := { queued with qm := { queued.qm with disp := [dispOf { h5 with index := 1 } (.twMatmul { h5 with index := 1 } mmOk) (coreUnit 0)] } }
def staleTile : State := { queued with tw := { up.tw with tiles := [(tileKey 0 0, { stale := true })] } }

theorem witness_TwillOperations :
    (mayBegin tileBusy h5 = true ∧ matmulRefusal tileBusy h5 { mmOk with indep := true } = none ∧ tilesInFlight tileBusy h5 { mmOk with indep := true } = true) ∧
    (canStart queued h5 = true ∧ matmulRefusal queued h5 mmOk = none ∧ tilesInFlight queued h5 mmOk = false ∧ anyStale queued mmOk = false ∧
      winMeets queued (coreWindows queued 0) (startRanges queued h5 mmOk) = .ok ∧ queued.tw.cbErr = []) ∧
    (matmulRefusal queued h5 { mmOk with n := 0 } = some stMalformed ∧ matmulRefusal staleTile h5 { mmOk with acc := true } = none ∧
      anyStale staleTile { mmOk with acc := true } = true) ∧
    (drainRefusal queued h5 mmOk = none ∧ drainRefusal queued h5 { mmOk with m := 0 } = some stMalformed) ∧
    (maxRefusal queued h5 { core := 0, sSpec := 3, sOff := 0, segLen := 1, segs := 1, oOff := 64 } = none ∧
      maxRefusal queued h5 { core := 0, sSpec := 3, sOff := 0, segLen := 0, segs := 1, oOff := 64 } = some stMalformed ∧ rising none queued.tw.cb = true) := by
  decide +kernel

/-- Panel 0 with core 0 and queue 5 (queue 6 is FIRMWARE's). Table 1 of region 0 has four rows of four INT8 elements on MU0, shards at 0x100000; region 1
of MU0 is DENSE with 1,536 words, panel 0. Panel 0 may write 0x10000 to 0x1FFFF. -/
def tabled : State :=
  imaged [(0x04, [[0, 0, 1, 0, 0, 0]]), (0x0B, [[5, 0, 1, 1, 4, 3, 0x40000], [6, 0, 0, 0, 4, 3, 0x50000]]), (0x0C, [[3, 6, 0, 0, 0x80000]]),
    (0x0D, [[1, 0, 0, 0, 0, 0x10000, 0x10000, 0], [2, 1, 0, 0, 0, 0x100000, 0x1000, 0], [3, 0, 0, 0, 0, 0x200000, 0x10000, 0]]),
    (0x0E, [[0, 0, 0, 0, 0, 0, 16, 16, 16, 0, 0], [0, 1, 1, 0, 0, 0, 0, 0, 0, 0, 1536]]),
    (0x10, [[1, 0, 0, 0, 0, 0, 0, 4, 0, 4]]), (0x11, [[0, 1, 0, 4, 0x100000, 0]])]

/-- One bag of one index: row 0, written at 0x12000. -/
def gaOk : GatherOp := { engine := 0, table := 1, spec := 6, stride := 64, nIdx := 1, nBags := 1, idxDa := 0x10000, offsDa := 0x11000, addr := 0x12000 }
/-- The bag's offsets are 0 and 1. -/
def bagged (s : State) : State := { s with mem := { s.mem with cells := [(0x11004, 1)] } }
/-- A BF16 source of one element. -/
def laOk : LedgerAddOp := { engine := 0, lMuslin := 0, sSpec := 6, nElem := 1, anchor := 0, sAddr := 0x10000, la := 2 ^ 40 }


theorem witness_GatherScatterAndAdd :
    let s := bagged tabled
    let ms := markStarted s h5
    (canStart s h5 = true ∧ look s.mu.gatherPos (descKey h5) = none ∧ gatherRefusal s h5 { gaOk with nIdx := 0 } true = some stMalformed) ∧
    (findDisp s h5 = none ∧ h5.system = false ∧ gatherRefusal s h5 gaOk true = none ∧ (tableRec s gaOk.table).isSome ∧ gaOk.kind = 0 ∧ gaOk.nBags = 1 ∧
      gaOk.poisonMap = false ∧
      (match bagRange ms gaOk 0 with
       | (.inr (lo, hi), a) =>
         (match bagItems a gaOk false lo hi with
          | (some items, b) => (gatherIndices gaOk.engine gaOk.table [1, 0, 0, 0, 0, 0, 0, 4, 0, 4] { st := b } items).isSome
          | _ => false)
       | _ => false) = true) ∧
    (gatherRefusal s h5 { gaOk with spec := 0 } false = some stMalformed ∧ gatherRefusal s h5 gaOk false = none ∧
      (scatterMeets s gaOk [1, 0, 0, 0, 0, 0, 0, 4, 0, 4]).1 = .ok) ∧
    (addRefusal s h5 { laOk with nElem := 0 } = some stMalformed ∧ addRefusal s h5 { laOk with la := 2 ^ 40 + 8 * 1535 } = none ∧
      (checkReads s (addSource laOk)).1 = false ∧ laOk.remote = false ∧ addMsgs { laOk with nElem := 1536 } = 1) ∧
    (let p := { s with mem := { s.mem with poison := [0x10000 / 64] } }
     addRefusal p h5 laOk = none ∧ (checkReads p (addSource laOk)).1 = true) := by decide +kernel

theorem witness_GatherScatterAndAdd_room :
    let s := bagged tabled
    reqRoom s { die := 18, tag := newTag s 18, dst := 18, kind := rkAdd, resv := 1, flits := 1, remote := false, queue := 5, index := 0, step := 0, dev := 0 }
      = true := by decide +kernel

/-- R306: an add that would pass REQ_MAX is held at its engine, and sent once the answers have come. -/
theorem test_scatter_held :
    let full := { tabled with gz := { tabled.gz with out := [{ die := 18, tag := 9, kind := rkAdd, resv := 1, flits := 4096 }] } }
    let go (s : State) := sendEntry h5 gaOk [1, 0, 0, 0, 0, 0, 0, 4, 0, 4] { st := s } (3, 1, [1, 2, 3, 4])
    let g := go full
    g.held.length = 1 ∧ g.tags = [] ∧ g.st = full ∧ (go tabled).held = [] ∧ (go tabled).st.gz.adds.length = 1 ∧
      (sendHeld { full with gz := tabled.gz } h5 g.held).gz.adds = (go tabled).st.gz.adds := by decide +kernel

/-- Adds that stay on MU0: a dense one for the last word of region 1, a row one for row 3. -/
def amDense : AddMsg := { dst := 18, src := 18, tag := 0, da := 2 ^ 40 + 8 * 1535, anchor := 0, dense := true, stepTag := 0, words := [5] }
def amRow : AddMsg := { dst := 18, src := 18, tag := 0, da := 0x100060, anchor := 0, dense := false, fwd := true, table := 1, stepTag := 0, words := [1, 2, 3, 4] }
def rowDir (e : DirEntry) (s : State := tabled) : State := { s with mu := { s.mu with dir := [(dirKey 0 1 3, e)] } }
/-- Row 3 is MOVING with 64 adds queued. -/
def fullMove : State := rowDir { st := .moving, dest := 0x100060, ledgerDie := 0, queued := List.replicate 64 amRow }
/-- Row 3 rests at MU1; MU1 held it before in the last one. -/
def restAway : State := rowDir { st := .resident, dest := 2 * stackSize, ledgerDie := 1 }

/-- Region 0's open bank holds 16 entries: its pool is full. -/
def fullPool : State := { tabled with mu := { tabled.mu with entries := (List.range 16).map fun i => (entryKey 0 0 1 (16 + i), { count := 1, words := [1] }) } }

theorem witness_AddsSealsAndRestores_adds :
    let got (s : State) (m : AddMsg) (p : AddMsg → State → Bool) : Bool :=
      match arriveAdd s m with | (some g, a) => !(m.via == some m.dst && addHeld s m) && isMu g.dst && dieUp a g.dst && p g a | _ => false
    let r1 := [0, 1, 1, 0, 0, 0, 0, 0, 0, 0, 1536]
    (let w := { amRow with fwd := false, via := some 18 }
     w.via = some w.dst ∧ addHeld fullMove w = true ∧ (arriveAdd tabled { amDense with dst := 19 }).1 = none) ∧
    got fullMove { amRow with fwd := false } (fun g a => addHeld a g) = true ∧
    (∀ m ∈ [amDense, { amDense with anchor := 1 }, { amDense with panel := 1 }], got tabled m (fun g a => g.dense && ledgerRec a 0 (g.da / 2 ^ 40) == some r1 &&
      g.da % 8 == 0 && g.da % 2 ^ 40 / 8 + g.words.length == 1536 && !panelFaulted a 0 && tagBank a 0 g.stepTag == some false &&
      (g == amDense) == (regionAnchor r1 == g.anchor && fld r1 3 == g.panel)) = true) ∧
    got tabled amRow (fun g a => !g.dense && rowOfDa a 1 g.da == some 3 && addRoute a 0 g 1 3 == .here &&
      ledgerRec a 0 0 == some [0, 0, 0, 0, 0, 0, 16, 16, 16, 0, 0] && regionAnchor [0, 0, 0, 0, 0, 0, 16, 16, 16, 0, 0] == g.anchor && !panelFaulted a 0 &&
      tagBank a 0 g.stepTag == some false && look a.mu.entries (entryKey 0 (openStep a 0 % 2) 1 3) == none && decide (entriesUsed a 0 0 0 < 16)) = true ∧
    got fullPool amRow (fun g a => addRoute a 0 g 1 3 == .here && look a.mu.entries (entryKey 0 (openStep a 0 % 2) 1 3) == none && entriesUsed a 0 0 0 == 16) = true ∧
    got restAway amRow (fun g a => addRoute a 0 g 1 3 == .stale && g.fwd) = true ∧
    got (rowDir { st := .moving, dest := 0x100060, ledgerDie := 0 }) { amRow with fwd := false }
      (fun g a => addRoute a 0 g 1 3 == .queue && (dirOf a 0 1 3).isSome) = true ∧
    got (rowDir { st := .forwarding, dest := 2 * stackSize, ledgerDie := 1, prevLedger := 0 }) amRow (fun g a => addRoute a 0 g 1 3 == .forward 1) = true := by
  decide +kernel

/-- MU0 waits to seal step 0 for h5. -/
def sealWaiting (n : Nat) (s : State := tabled) : State := { s with mu := { s.mu with sealWait := [(0, (h5, n))] } }

theorem witness_AddsSealsAndRestores :
    (canStart tabled h5 = true ∧ dieUp tabled 18 = true ∧ look tabled.mu.sealWait 0 = none ∧ dieUp { up with pkg := { up.pkg with dieFailed := [18] } } 18 = false) ∧
    (look (sealWaiting 0).mu.sealWait 0 = some (h5, 0) ∧ openStep (sealWaiting 0) 0 = 0 ∧ openStep (sealWaiting 1) 0 ≠ 1 ∧ look (sealWaiting 0).mu.unreleased 0 = none ∧
      look { (sealWaiting 0).mu with unreleased := [(0, 0)] }.unreleased 0 ≠ none) ∧
    (h5.system = false ∧ restoreRefusal tabled h5 0 1 4 0x10000 = some stMalformed ∧ restoreRefusal tabled h5 0 1 3 0x10000 = none ∧
      (tableRec tabled 1).isSome ∧ shardPlace tabled 1 3 = some (0, 0x100060) ∧ (checkRead tabled 0x10000 32).1 = false ∧
      (checkRead { tabled with mem := { up.mem with poison := [0x10000 / 64] } } 0x10000 32).1 = true ∧ rising none tabled.mu.dir = true) := by decide +kernel

theorem witness_MigrationsRunTheirCourse :
    let d (st : DirState) : DirEntry := { st := st, dest := 0x100060, ledgerDie := 0, target := 0x200000, waiter := some h5 }
    (canStart tabled h5 = true ∧ migrateRefusal tabled h5 0 1 4 0x100080 = some stMalformed ∧ migrateRefusal tabled h5 0 1 3 0x100060 = none) ∧
    ((∀ x ∈ [DirState.draining, .moving, .forwarding, .resident], dirOf (rowDir (d x)) 0 1 3 = some (d x) ∧ rising none (rowDir (d x)).mu.dir = true) ∧
      (tableRec tabled 1).isSome) ∧
    (readInFlight (rowDir (d .draining)) 0 (d .draining) 32 = false ∧ rowPendingStep (rowDir (d .draining)) (d .draining) 1 3 = false ∧
      reqRoom (rowDir (d .draining)) (rowMessage (rowDir (d .draining)) rkMove 0 1 3 18) = true) ∧
    (let s := rowDir (d .moving)
     (d .moving).started = false ∧ addInFlight s 0 1 3 = false ∧ (checkRead s 0x100060 32).1 = false ∧
       (copyEntries (checkRead s 0x100060 32).2 0 0 1 3 0 16).isSome = true ∧
       (copyEntries { s with mu := { s.mu with entries := [(entryKey 0 0 1 3, { count := 1, words := [1] })] } } 0 1 1 3 0 0).isNone = true) ∧
    ({ d .moving with started := true }.started = true ∧ (d .forwarding).switched = false ∧ { d .forwarding with switched := true }.switched = true) := by
  decide +kernel

/-- Row 3 has a shadow in slot 4 of die 2. -/
def shadowed3 (inval : Bool) : State :=
  { tabled with mu := { tabled.mu with shadows := [(rowId 1 3, { slots := [(2, 4)], inval := inval, awaited := if inval then [2] else [] })] } }
def patched (act : Bool) : State := { tabled with mu := { tabled.mu with patches := [(dirKey 0 1 3, { journal := 0, active := act, tries := 1 })] } }
def pairedUp : State := { up with rings := { up.rings with ports := [(38, { st := 2 })] }, twin := { up.twin with st := 2 } }
def latent0 (b : Bool) : State := { up with mem := { up.mem with latent := [(0, b)] } }

theorem witness_UpkeepEvents :
    ((∀ b ∈ [true, false], look (shadowed3 b).mu.shadows (rowId 1 3) ≠ none ∧ owns (shadowed3 b) 0 1 3 = true ∧ rising none (shadowed3 b).mu.shadows = true) ∧
      2 ∈ (if true then [2] else [] : List Nat) ∧ 3 ∉ (if true then [2] else [] : List Nat)) ∧
    ((∀ b ∈ [true, false], (look (patched b).mu.patches (dirKey 0 1 3)).isSome) ∧ (tableRec (patched true) 1).isSome ∧
      (∀ p, look (patched true).mu.patches (dirKey 0 1 3) = some p → p.active = true ∧ journalAcked (patched true) 0 p = true) ∧
      ∀ x ∈ (patched true).mu.patchWait, x / 2 ^ 43 ≠ 0) ∧
    (twinUp pairedUp = true ∧ pairedUp.twin.st ≠ tsUnpaired ∧ twinUp up = false) ∧
    (dieUp up 18 = true ∧ isMu 18 = true ∧ stackUp up (2 * (18 - 18) + 0) = true ∧ look up.mem.latent 0 = none ∧ look (latent0 true).mem.latent 0 = some true ∧
      look (latent0 false).mem.latent 0 = some false) ∧
    (rising none up.mu.acts = true ∧ stackUp up 15 = true ∧ stackUp up 16 = false ∧ 63 < 64) ∧
    (isMu 25 = true ∧ dieUp up 25 = true ∧ isMu 26 = false ∧ ([(3, 4), (5, 6)].map (·.1) : List Nat).Nodup) := by
  refine ⟨by decide +kernel, ⟨by decide +kernel, by decide +kernel, fun p h => ?_, by decide +kernel⟩, by decide +kernel, by decide +kernel, by decide +kernel, by decide +kernel⟩
  have : look (patched true).mu.patches (dirKey 0 1 3) = some { journal := 0, active := true, tries := 1 } := by decide +kernel
  rw [this] at h
  cases h
  decide +kernel

/-- MU0's open step is 1 and step 0 is sealed. -/
def sealed0 (s : State := tabled) : State := { s with mu := { s.mu with openStep := [(0, 1)], unreleased := [(0, 0)] } }
def odAt : OptDenseOp := { od0 with masterDa := 0x10000, workDa := 0x10400, workScaleDa := 0x10800, stateDa := 0x10C00, paramDa := 0x11000 }
def odOk : OptDenseOp :=
  { odAt with deriveOnly := true, wkSpec := 0x13, la := 2 ^ 40, gDa := 0x11400, gScaleDa := 0x11800, eDa := 0x11C00, m1Da := 0x12000, m1ScaleDa := 0x12400 }
/-- Its parameter block has an ε of 0.5 and zeros. -/
def odUp : State := { up with mem := { up.mem with cells := [(0x11017, 0x3F)] } }

theorem witness_OptimizerCommands :
    (canStart (sealed0 queued) h5 = true ∧ look (sealed0 queued).mu.gatherPos (descKey h5) = none ∧ h5.system = false ∧
      closeRefusal (sealed0 queued) h5 0 0 1 = some stMalformed ∧ closeRefusal (sealed0 queued) h5 0 0 0 = none ∧ invalidating (sealed0 queued) 0 = false ∧
      invalidating (sealed0 (shadowed3 true)) 0 = true) ∧
    (look up.mu.unreleased 0 = none ∧ look (sealed0 queued).mu.unreleased 0 = some 0 ∧ releasable (sealed0 queued) 0 = true ∧ releasable (sealed0 tabled) 0 = false) ∧
    (odRefusal queued h5 odOk = some stMalformed ∧ odRefusal queued h5x odOk = none ∧ canStart odUp h5x = true ∧ odRefusal odUp h5x odOk = none ∧
      odOk.deriveOnly = true ∧ odCount odOk = 32 ∧ odOk.ratio = false ∧
      (match odParams odUp odOk with
       | (.inr _, b) =>
         let c := checkRead b odOk.stateDa 32
         odRefusal2 b h5x odOk == none && !c.1 && (blockWhole (normAnchor c.2 (ofLe (readBytes c.2.mem odOk.stateDa 8))).2 [(odOk.masterDa, 64)]).1
       | _ => false) = true ∧
      (match odParams up odOk with | (.inl st, _) => st == stMalformed | _ => false) = true ∧ odRefusal2 odUp h5x od0 = some stMalformed) := by decide +kernel

/-! Rings and the twin. -/

/-- The + port of Easting is up; no cause holds the rings. -/
def ringUp (s : State := up) : State :=
  { ringed s with rings := { (ringed s).rings with ports := [(35, { st := 2, lanes := 32 })], causes := [], openDims := [0] } }
def rg1 : RingOp := { dev := 1, srcDa := 0x1000, dstDa := 0x2000, len := 192 }
/-- A PUT of die 35 has not been answered. -/
def putOut : State :=
  { ringUp with gz := { up.gz with out := [{ die := 35, tag := 0, dst := 35, kind := rkPut, resv := 1, flits := 1, remote := true, queue := 5, index := 0, dev := 1 }] } }

/-- The message of that PUT, in its link die's store. -/
def putFrame : RingFrame := { dstDev := 1, srcDev := 0, rDie := 18, vl := 0, tc := 3, rseq := 0, flit := { op := 2, tc := 3, dst := 35, src := 35 } }

theorem witness_RingOperations :
    (canStart ringUp h5 = true ∧ look ringUp.mu.gatherPos (descKey h5) = none ∧ ringRefusal ringUp h5 { rg1 with len := 65 } true = some stMalformed ∧
      ringRefusal (ringed up) h5 rg1 false = some stLinkLost) ∧
    (ringRefusal ringUp h5 rg1 true = none ∧ (checkRead ringUp rg1.srcDa rg1.len).1 = false ∧
      (checkRead { ringUp with mem := { up.mem with poison := [0x1000 / 64] } } rg1.srcDa rg1.len).1 = true ∧ rg1.len ≤ 192 ∧ rg1.streamMode = false ∧
      routeDie (ringRoute ringUp rg1.dev) = some 35 ∧ egressOf ringUp 35 = [] ∧ reforming ringUp 35 = false ∧
      reqRoom ringUp { die := 35, tag := newTag ringUp 35, dst := 35, kind := rkPut, resv := 1, flits := 1, remote := true, dev := 1 } = true) ∧
    (ringRefusal ringUp h5 rg1 false = none ∧
      reqRoom ringUp { die := 35, tag := newTag ringUp 35, dst := 35, kind := rkGet, resv := 1, flits := 1, remote := true, dev := 1 } = true) ∧
    ((findReq up 35 0).any (·.remote) = false ∧ (findReq putOut 35 0).any (·.remote) = true ∧ inEgress putOut 35 0 = false ∧
      inEgress (putOut.onRings fun g => { g with egress := [(35, [putFrame])] }) 35 0 = true) := by decide +kernel

def allSealed : State := { ringed with mu := { up.mu with openStep := (List.range 8).map (fun k => (k, 1)) } }
/-- A run stands at the seal gate of step 1, or before its start, and device 1 has sent nothing. -/
def atGate (ph : Nat) : State :=
  { ringUp (progAt 7 2) with seq := { (progAt 7 2).seq with phase := ph, step := 1 } }

theorem witness_TokensAndSteps :
    ((devRec ringed 1).isSome ∧ devRec ringed 2 = none ∧ (peerOf ringed 1).st = 1) ∧
    (look0 ringed.rings.topoCnt 1 < 1 ∧ 1 ≤ look0 [(1, 1)] 1 ∧ 5 < 6) ∧
    (mapTwin ringed 1 = none ∧ mapTwin { ringed with rings := { ringed.rings with map_ := [[0, 0, 2, 1], [1, 0, 0, 0, 1, 1], [1, 1, 1, 0, 0, 1]] } } 1 = some 0) ∧
    (isRing 34 = true ∧ dieUp up 34 = true ∧ isRing 38 = false ∧ 34 ≠ 0) ∧
    ((nextSent { ringed with seq := { up.seq with step := 1 } }).isSome ∧ remoteDone up 0 = true ∧ ringed.rings.map_ ≠ []) ∧
    (nextOpen { ringed with rings := { ringed.rings with sentUpTo := some 0 } } = some 0 ∧ sealedUpTo allSealed 0 = true ∧ nextOpen up = none) ∧
    ((atGate 1).seq.phase = 1 ∧ (atGate 1).seq.progs.all (fun p => p.2.st == 2) = true ∧ sealGateOpen (atGate 1) = false ∧ 1 ∈ missing (atGate 1) 1 false ∧
      (peerOf (atGate 1) 1).st = 1) ∧
    ((atGate 0).seq.run.isSome = true ∧ (atGate 0).seq.phase = 0 ∧ openHeld (atGate 0) 1 = false ∧ 1 ∈ missing (atGate 0) 1 true) := by decide +kernel

/-- Die 35's port in a state. -/
def portAt (d : Nat) (p : RPort) (s : State := ringed up) : State := { s with rings := { s.rings with ports := [(d, p)] } }

theorem witness_PortsOfTheRings :
    ((isRing 35 || isTwin 35) = true ∧ rportUp (portAt 35 { st := 2 }) 35 = true ∧ rportUp (portAt 35 { st := 3, bad := 16 }) 35 = true ∧
      egressOf (portAt 35 { st := 2 }) 35 = [] ∧ (rport (portAt 35 { st := 2 }) 35).input = [] ∧ 16 ≤ (rport (portAt 35 { st := 3, bad := 16 }) 35).bad ∧ (rport (portAt 35 { st := 3, bad := 15 }) 35).bad < 16) ∧
    ((31 < portLanes 35 ∧ portLanes 38 = 16) ∧ (ins (rport (portAt 35 { st := 2, badLanes := [0] }) 35).badLanes 31).any (16 ≤ ·) = true) ∧
    ((rport (portAt 35 { st := 6 }) 35).st = 6 ∧ (rport (portAt 35 { st := 4 }) 35).st = 4 ∧ (rport up 35).st = 0 ∧
      (rport (portAt 35 { st := 1, fails := 1 }) 35).fails < 2 ∧ (rport (portAt 35 { st := 1, fails := 2 }) 35).st = 1 ∧ (rport (portAt 35 { st := 5 }) 35).st = 5) ∧
    (0 ≤ 1 ∧ (dimDies 0).all (dieUp up) = true ∧ (∀ c ∈ [5], c = 5 + 0 ∨ ¬0 ∈ causeDims c) ∧ (∀ c ∈ [6], c = 5 + 0 ∨ ¬0 ∈ causeDims c) ∧ [5].Nodup ∧
      bit (regGet up 0 0x70000) 20 = false ∧ ¬0 ∈ up.rings.openDims ∧ 0 ∈ ringUp.rings.openDims) := by decide +kernel

/-- A TWIN section: an area of 2 MiB at 0x800000, its first MiB the receive log; one SHADOW record. The pair state is st. -/
def twinned (st : Nat) (log : List (Nat × JRec) := []) : State :=
  let s := imaged [(0x18, [[0, 1, 1, 1, 0x800000, 0x200000, 0], [1, 7, 8, 0x100000, 0x1000]])]
  { s with rings := { s.rings with ports := [(38, { st := 2 })] }, twin := { s.twin with st := st, log := log } }
def jr7 : JRec := { muslin := 0, holding := 7, step := 4, jseq := 0, payload := [1, 2, 3] }
def jrEnd : JRec := { muslin := 0, holding := 1, step := 4, jseq := 1 }

theorem witness_TwinPair :
    (twinUp up = false ∧ twinUp (twinned 4) = true ∧ (twinned 4).twin.st = 4) ∧
    (twinUp (twinned 1) = true ∧ (twinned 1).twin.st = 1 ∧ (shadowRec (twinned 1) jr7.holding).isSome ∧ shadowRec (twinned 1) 8 = none ∧
      (twinHeader (twinned 1)).isSome ∧ (twinned 1).twin.logPos + (jrecBytes 0 jr7).length ≤ 2 ^ 20) ∧
    ((twinned 2).twin.st = 2 ∧ (∀ x ∈ (twinned 2 [(0, jr7)]).twin.log, endsHeld (twinned 2 [(0, jr7)]) x.2.step = false) ∧
      logBytes ((twinned 2).onTwin fun t => { t with log := t.log ++ [(0, jr7)] }) ≤ (match twinHeader (twinned 2) with | some r => 2 ^ 20 * fld r 3 | none => 0)) ∧
    ((∀ x ∈ (twinned 2 [(0, jr7)]).twin.log, x.2.step = jrEnd.step) ∧
      endsHeld ((storeLog (twinned 2 [(0, jr7)]) 2 jrEnd).onTwin fun t => { t with log := t.log ++ [(2, jrEnd)] }) jrEnd.step = true) ∧
    ((twinned 6).twin.st = 6 ∧ serves (twinned 6) = false ∧ (twinned 5).twin.st ≠ 6) ∧
    ((twinned 2).twin.st ≠ 4 ∧ (twinned 2).twin.st ≠ 5 ∧ twinSect (twinned 2) ≠ [] ∧ twinCapable (twinned 2) = true ∧ twinSect up = []) ∧
    (canStart (twinned 2) h5 = true ∧ snapOwn (twinned 2) h5 = none ∧ snapRefusal (twinned 2) h5 { sn0 with dstLen := 0 } = some stMalformed ∧
      snapRefusal (twinned 2) h5 sn0 = none ∧ (twinned 2).snap = none ∧ (twinned 2).mu.unreleased = [] ∧ sn0.dest = 0 ∧ h5.system = false) := by decide +kernel

theorem witness_TwinPair_hostring :
    snapRefusal (twinned 2) h5 { sn0 with dest := 1, dstLen := 2 ^ 20 } = none ∧
    (let l := { up with mem := { up.mem with poison := [0] } }
     snapRefusal l h5 { sn0 with dest := 1, dstLen := 2 ^ 20 } = none ∧ (snapStream l h5 { sn0 with dest := 1, dstLen := 2 ^ 20 }).out.length ≤ 2 ^ 20) := by
  decide +kernel

def id1 : IdentFrame := { self := 1, epos := 1, npos := 0, port := 0, keeps := true, rack := 0 }
/-- The twin of device 0 is device 1, and answers. -/
def twinMap (st : Nat) (s : State) (p : RPort) : State :=
  { s with rings := { s.rings with map_ := [[0, 0, 2, 1], [1, 0, 0, 0, 1, 1], [1, 1, 1, 0, 0, 1]], ports := [(38, p)] }, twin := { s.twin with st := st } }
def idT (st : Nat) : IdentFrame := { id1 with twin := 0, pairId := true, lanes := 16, pairState := st }
def frameTo (dev tc : Nat) : RingFrame := { dstDev := dev, srcDev := 1, rDie := 2, vl := 0, tc := tc, rseq := 0, flit := { fl0 with tc := tc, oparg := 64 } }

/-- Four devices on an E ring, device 0's port 35 training; device 3 answers over two that do not. -/
def longRing : State :=
  let s := portAt 35 { st := 1 }
  { s with rings := { s.rings with map_ := [[0, 0, 4, 1], [1, 0, 0, 0], [1, 1, 1, 0], [1, 2, 2, 0], [1, 3, 3, 0]] } }
def far3 : IdentFrame := { id1 with self := 3, epos := 3 }

theorem witness_IdentAndFrames :
    (dieUp up 40 = false ∧ (rport up 35).st ≠ 1 ∧ dieUp up 35 = true ∧ isRing 35 = true ∧ (rport (portAt 35 { st := 1 }) 35).st = 1 ∧
      ringPeerOk (portAt 35 { st := 1 }) 35 id1 = true ∧ ringPeerOk (portAt 35 { st := 1 }) 35 { id1 with npos := 1 } = false ∧
      spanOk (portAt 35 { st := 1 }) 35 id1 = true ∧ ringPeerOk longRing 35 far3 = true ∧ spanOk longRing 35 far3 = false) ∧
    (isRing 38 = false ∧ isTwin 38 = true ∧ (rport (twinMap 0 up { st := 1 }) 38).st = 1 ∧ twinPeerOk (twinMap 0 up { st := 1 }) (idT 0) = true ∧
      twinPeerOk (twinMap 0 up { st := 1 }) { idT 0 with pairId := false } = false ∧ (twinMap 0 up { st := 1 }).twin.st = 0 ∧ twinSect (twinMap 0 up { st := 1 }) = []) ∧
    (rportUp (twinMap 2 (twinned 2) { st := 2 }) 38 = true ∧ twinPeerOk (twinMap 2 (twinned 2) { st := 2 }) (idT 4) = true ∧
      twinSect (twinMap 2 (twinned 2) { st := 2 }) ≠ [] ∧ twinCapable (twinMap 2 (twinned 2) { st := 2 }) = true ∧ (idT 4).pairState = 4) ∧
    (rportUp (portAt 35 { st := 2 }) 35 = true ∧ 4 < (frameTo 0 5).tc ∧ (frameTo 0 1).tc ≤ 4 ∧ frameLen (frameTo 0 1) ≤ ringCap 1 ∧
      ringCap 1 < inputUsed (takeRet (portAt 35 { st := 2, input := List.replicate (ringCap 1) (frameTo 0 1) }) 35 (frameTo 0 1).ret) 35 1 0 + frameLen (frameTo 0 1) ∧ 15 ≤ (rport (portAt 35 { st := 2, viol := 15 }) 35).viol) ∧
    (forSelf ringUp 1 = false ∧ rportUp ringUp 35 = true ∧ forSelf ringUp 0 = true ∧ (frameTo 1 4).tc ≤ 4 ∧ (frameTo 0 1).tc ≤ 1) ∧
    ((frameTo 0 2).dstDev = selfDev ringUp ∧ (frameTo 0 2).flit.op = 1 ∧ checkPanel (ringUp tabled) (some 0) false [(0x10000, 64)] = none ∧
      ingressRoom (ringUp tabled) 35 { die := 35, tag := newTag (ringUp tabled) 35, dst := 2, kind := rkRead, resv := 1, flits := 1 } = true ∧
      rportUp (ringUp tabled) 35 = true) := by decide +kernel

/-! Messages, links, faults and clocks. -/

/-- A flit that a die sends itself. -/
def selfFlit (op tc d da : Nat) (pl : List Byte := []) : Flit := { op := op, tc := tc, dst := d, src := d, da := da, oparg := 64, payload := pl }
/-- Die 18 waits for one answer, for h5 or for nobody. -/
def awaits (kind : Nat) (resv : Nat := 1) : State :=
  { up with
    gz := { up.gz with out := [{ die := 18, tag := 0, dst := 18, kind := kind, resv := resv, flits := 1, landDa := 0x2000, len := 64 }] }
    qm := { up.qm with waiting := [{ hdr := h5, unit := cmdUnit, tags := [reqWait 18 0], status := 0 }] } }

/-- A message arrives whole, at a die that is up, with this of it and of the state it leaves. -/
def arrives (s : State) (f : Flit) (p : Flit → State → Bool) : Bool := match arrive s f with | (some g, a) => dieUp a g.dst && p g a | _ => false
/-- The same of one message of a WRITE or of each copy. -/
def writes (s : State) (f : Flit) (p : Flit → State → Bool) : Bool :=
  match arriveAll s f with | ([g], a) => dieUp a g.dst && g.op != 0x08 && (outbound g).isNone && p g a | _ => false

theorem witness_GauzeMessages_reads :
    (∀ op ∈ [(1, 2), (4, 1), (5, 1), (9, 1), (0x0C, 4)], (arrive up (asOp op.1 [0x07] { selfFlit op.1 op.2 19 0 with src := 18 })).1 = none) ∧
    (arriveAll up (asOp 0x02 [0x08] { selfFlit 2 2 19 0 with src := 18 })).1 = [] ∧
    (∀ f ∈ [selfFlit 1 2 18 0, selfFlit 1 2 18 (2 ^ 47), selfFlit 1 2 2 4, selfFlit 1 2 34 0],
      arrives up (asOp 0x01 [0x07] f) (fun g _ => g.op != 0x07 && (asOp 0x01 [0x07] f).via.isNone && (outbound g).isNone) = true) ∧
    ((match readAt up 18 0 64 with | .mem => true | _ => false) = true ∧ (match readAt up 18 (2 ^ 47) 64 with | .bad _ => true | _ => false) = true ∧
      (match readAt up 2 4 64 with | .slot 4 => true | _ => false) = true ∧ (match readAt tabled 18 0x100060 32 with | .row 1 3 => true | _ => false) = true ∧
      arrives tabled (selfFlit 1 2 18 0x100060) (fun g _ => g.op == 1 && (outbound g).isNone) = true) ∧
    arrives tabled (asOp 0x01 [0x07] { selfFlit 1 2 18 0 with via := some 18 }) (fun g a => g.op == 1 && isMu g.dst && rowResting a (18 - 18) g.da g.oparg == none) = true := by
  decide +kernel

theorem witness_GauzeMessages_writes :
    (writes up (selfFlit 2 2 18 0 [1]) (fun g _ => g.byteEn.all id) = true ∧ (match writeAt up 18 0 1 with | .mem => true | _ => false) = true ∧ 0 < farBase ∧
      Memory.wf up.mem.cells = true) ∧
    (writes queued (selfFlit 2 3 2 0 [1]) (fun g a => g.byteEn.all id && !cbWriteBad a 0 0 1 && panelOfCore a 0 == some g.panel) = true ∧
      (match writeAt queued 2 0 1 with | .core 0 0 => true | _ => false) = true ∧
      writes up (selfFlit 2 3 2 0 [1]) (fun g a => g.tc == 3 && panelOfCore a 0 != some g.panel) = true) ∧
    (writes up (selfFlit 2 2 34 0 [1]) (fun _ _ => true) = true ∧ (match writeAt up 34 0 1 with | .bad _ => true | _ => false) = true) ∧
    (memPlace up 18 0 1 = .mem ∧ arrives up (selfFlit 0x0C 4 18 0 [1]) (fun g a => memPlace a g.dst g.da g.payload.length == .mem) = true ∧
      memPlace up 18 (2 * stackSize) 1 ≠ .mem) := by decide +kernel

/-- A Sounding of die 18 waits at its generator, or is on its way. -/
def sounding1 (x : Bool) : State :=
  if x then { up with sounds := [{ step := 0, die := 18, unit := 0, kind := 1, seq := 0, datum := 0, body := [1] }] }
  else { up with gz := { up.gz with flits := [selfFlit 0x0B 4 18 0 [1]] } }

theorem witness_GauzeMessages_soundings :
    let F := asOp 0x0B [] (selfFlit 0x0B 4 18 0 [1])
    (up.gz.flits.contains F = false ∧ (up.sounds.find? fun x => x.die == F.src) = none) ∧
    ((sounding1 false).gz.flits.contains F = true ∧ arrives (sounding1 false) F (fun g a => memPlace a g.dst g.da g.payload.length == .mem) = true) ∧
    ((sounding1 true).gz.flits.contains F = false ∧
      ∀ x ∈ (sounding1 true).sounds.find? fun x => x.die == F.src,
        arrives ((sounding1 true).onSounds fun l => l.erase x) { F with plen := (soundingBytes x).length, payload := soundingBytes x }
          (fun g a => memPlace a g.dst g.da g.payload.length == .mem) = true) ∧
    ((sounding1 true).sounds.find? fun x => x.die == F.src).isSome = true := by decide +kernel

theorem witness_GauzeMessages_answers :
    (∀ op ∈ [4, 5, 9], arrives up (asOp op [] (selfFlit op 1 18 0)) (fun g a => g.mgroup == 0 && (findReq a g.dst g.tag).isNone) = true) ∧
    (∀ s ∈ [awaits rkWrite, awaits rkGet, awaits rkRead 2, awaits rkAdd], ∀ op ∈ [4, 5, 9], arrives s (asOp op [] (selfFlit op 1 18 0 [1]))
      (fun g a => g.mgroup == 0 && (findReq a g.dst g.tag).any (fun r => r.strm.isNone && r.kind != rkJournal && r.kind != rkMcast) &&
        (ingressOf a g.dst g.tag).isNone) = true) ∧
    (∃ w ∈ (awaits rkWrite).qm.waiting, (awaits rkWrite).qm.waiting = [w] ∧ w.tags = [reqWait 18 0]) ∧
    (Memory.wf (awaits rkGet).mem.cells = true ∧ 0x2000 < farBase ∧ bit 64 0 = false) := by decide +kernel

/-- Port 0 of die 18 in a state. -/
def linkAt (st : Nat) (n : Nat := 0) : State :=
  { up with pkg := { up.pkg with portState := [(18 * 16, st)] }, gz := { up.gz with replays := if n = 0 then [] else [(18 * 16, n)] } }

theorem witness_LinkEvents :
    (portUp up 18 0 = false ∧ portUp (linkAt 3) 18 0 = true ∧ portUp (linkAt 4) 18 0 = true ∧ 4 < 5) ∧
    (rising none (linkAt 3 15).gz.replays = true ∧ look0 (linkAt 3 14).gz.replays (18 * 16 + 0) + 1 < 16 ∧ 16 ≤ look0 (linkAt 3 15).gz.replays (18 * 16 + 0) + 1) ∧
    (portState (linkAt 3) 18 0 = 3 ∧ portState (linkAt 4) 18 0 = 4) := by decide +kernel

/-- A reclaim of die 18's ledger, with another queued. -/
def reclaiming (sup : Bool) : State :=
  { up with sv := { up.sv with reclaim := some { party := ledgerUnit 0, kind := 7 }, reclaims := [{ party := ledgerUnit 1, kind := 7 }],
                               suppress := if sup then [18] else [] } }

theorem witness_FaultsAndReclaims :
    (64 ≤ 64 ∧ 63 < 64 ∧ dieUp up (coreDie 63) = true ∧ panelOfCore queued 0 = some 0 ∧ panelFaulted queued 0 = false ∧ panelFaulted faulted0 0 = true ∧
      panelOfCore queued 63 = none) ∧
    (isParty up ⟨1, 0⟩ = false ∧ isParty up (ledgerUnit 0) = true ∧ isParty up ⟨2, 15⟩ = true) ∧
    (fitted .c 39 = false ∧ fitted up.pkg.variant 39 = true) ∧
    ((∀ r, up.sv.reclaim = some r → r.party ≠ ledgerUnit 0) ∧ up.sv.reclaim = none) ∧
    ((reclaiming false).sv.reclaim = some { party := ledgerUnit 0, kind := 7 } ∧ (∀ x ∈ (reclaiming false).sv.reclaims, x.party.die ≠ 1) ∧
      (ledgerUnit 0).die ∈ (reclaiming true).sv.suppress ∧ (ledgerUnit 0).die ∉ (reclaiming false).sv.suppress) ∧
    (ledgerUnit 0 ∉ up.sv.freeing ∧ ledgerUnit 0 ∈ { up.sv with freeing := [ledgerUnit 0] }.freeing) := by
  refine ⟨by decide +kernel, by decide +kernel, by decide +kernel, ⟨fun r h => ?_, by decide +kernel⟩, by decide +kernel, by decide +kernel⟩
  rw [show up.sv.reclaim = none from by decide +kernel] at h
  cases h

/-- Dies 2 and 3 lie on the GRID; a Datum is driven. -/
def driven (n : Option Nat) (p : Nat) : State := { up with ck := { up.ck with grid := [2, 3], driven := n, pending := p, sent := n.getD 0 } }

theorem witness_EdgesAndFaultState :
    ((driven (some 1) 0).ck.driven = some 1 ∧ 2 ∈ datumDies ∧ dieUp (driven (some 1) 0) 2 = true ∧ 2 ∈ (driven (some 1) 0).ck.grid ∧ 2 ∉ (driven (some 1) 0).ck.err ∧
      bit 1 1 = bit ((look0 (driven (some 1) 0).ck.count 2 + 1) % 2 ^ 32) 1 ∧ bit 3 1 ≠ bit ((look0 (driven (some 3) 0).ck.count 2 + 1) % 2 ^ 32) 1) ∧
    ((driven none 0).ck.driven = none ∧ (driven none 0).ck.pending = 0 ∧ (driven none 16).ck.pending ≠ 0 ∧ 3 ∉ [2] ∧ 2 ∈ [2]) ∧
    (up.sv.sticky = [] ∧ (sticky1 [3]).sv.locked = false ∧ (sticky1 [3]).sv.sticky ≠ []) := by decide +kernel

/-! The host link, the far tier and management. -/

/-- The host link is up and presented. -/
def hosted (s : State := up) : State := { s with host := { s.host with link := 1, presented := true, perstN := true } }

theorem witness_HostAndCores :
    (hostUp up = false ∧ hostUp hosted = true) ∧
    (inRegSpace 0 = false ∧ (r21 hosted [(2 ^ 47, 64)]).isSome ∧ r21 hosted [(0, 64)] = none ∧ (checkRead (hosted.onHost fun h => { h with hdm := true }) 0 64).1 = false ∧
      meets (fwArea, 64) (fwArea, gib) = true ∧ meets (0, 64) (fwArea, gib) = false ∧ Memory.wf hosted.mem.cells = true) ∧
    (inRegSpace (regTop - 8) = true ∧ regTop - 8 + 8 ≤ regTop ∧ (regTop - 8) % 8 = 0 ∧ 0xFFFFF8 < 0x1000000 ∧ 0xFFFFFC % 4 = 0 ∧ 0xFFFFFC % 8 ≠ 0) ∧
    (coreAccess 48 0 8 = false ∧ coreAccess 0 4 8 = false ∧ coreAccess 47 8 8 = true ∧ userFault up (2 ^ 47) 8 false = true ∧ userFault up fwArea 8 true = true ∧
      userFault up 8 8 false = false ∧ userFault up 8 8 true = false ∧ Agent.mMode ≠ .uMode) ∧
    (r21 up [(8, 8)] = none ∧ (checkRead up 8 8).1 = false ∧ coreAccess 0 regBase 8 = true ∧ coreAccess 0 regBase 4 = true ∧
      reqRoom up { die := 0, tag := newTag up 0, dst := dieOfAddr 8, kind := rkWrite, resv := 1, flits := 1, far := inFar 8 } = true) ∧
    (up.cores.stores.any (·.1 == 47) = false ∧ { up.cores with stores := [(47, 0)] }.stores.any (·.1 == 47) = true) := by decide +kernel

/-- Two writes of far port 0 to the same place are under way. -/
def farTwo : State :=
  { farUp with mem := { up.mem with posted := [{ port := 0, tag := 0, da := farBase, data := [1] }, { port := 0, tag := 1, da := farBase, data := [2] }] } }

theorem witness_HostLinkAndFarPorts :
    (up.host.link = 0 ∧ hosted.host.link ≠ 0 ∧ up.host.presented = false ∧ hosted.host.presented = true ∧ hosted.host.perstN = true ∧
      { hosted.host with link := 0 }.link = 0) ∧
    (findPosted farTwo 0 0 = some { port := 0, tag := 0, da := farBase, data := [1] } ∧
      (earlierPosted farTwo { port := 0, tag := 0, da := farBase, data := [1] }).any (fun x => x.port == 0 && meets (x.da, x.data.length) (farBase, 1)) = false ∧
      findPosted farTwo 0 1 = some { port := 0, tag := 1, da := farBase, data := [2] } ∧
      (earlierPosted farTwo { port := 0, tag := 1, da := farBase, data := [2] }).any (fun x => x.port == 0 && meets (x.da, x.data.length) (farBase, 1)) = true ∧
      findPosted farTwo 0 2 = none ∧ Memory.wf farTwo.mem.cells = true) ∧
    (4 ≤ 4 ∧ (lookD up.pkg.far 3 {}).link = 0 ∧ 0 < 4 ∧ (lookD farTwo.pkg.far 0 {}).link ≠ 0) ∧
    ((lookD up.pkg.far 3 {}).gib = 0 ∧ (lookD up.pkg.far 3 {}).expanders = 0 ∧
      (lookD { up.pkg with far := [(0, { gib := 64, expanders := 1 })] }.far 0 {}).link = 0 ∧ 8 ≤ 8 ∧ 4096 ≤ 4096) := by decide +kernel

theorem witness_I3cTarget :
    (i3cUp State.reset = false ∧ i3cUp (i3cAt 0) = true ∧ (i3cAt 0).i3c.dynValid = true) ∧
    (let s := { i3cAt 0 with i3c := up.i3c }
     i3cUp s = true ∧ s.i3c.dynValid = false ∧ 127 < 128 ∧ 0x30 = 0x30 + b2n s.pkg.pairId) := by decide +kernel

/-- Contour in a mode, the package drawing p. -/
def contoured (mode p : Nat) : State := { up with ct := { up.ct with mode := mode, p := p, samples := [p], windows := 100, target := 1000 * p } }
/-- The last averages of power. -/
def drawing (n w : Nat) (em : Bool) : State := { up with sv := { up.sv with pSum := List.replicate n w, emergency := em } }

theorem witness_ContourAndEmergency :
    (State.reset.sv.on = false ∧ up.sv.on = true) ∧
    (overCap (drawing 25 3601 false).sv = true ∧ (drawing 25 3601 false).sv.emergency = false ∧ overCap (drawing 25 3600 false).sv = false) ∧
    ((drawing 500 3419 true).sv.emergency = true ∧ (drawing 500 3419 true).sv.pSum.length = 500) ∧
    ((contoured 2 100).ct.mode ≠ 0 ∧ nextTarget (contoured 2 4000) < foreground (contoured 2 4000) ∧ ¬nextTarget (contoured 2 100) < foreground (contoured 2 100)) ∧
    (up.ct.samples = [] ∧ (contoured 2 100).ct.samples ≠ [] ∧ 100 * 2939 < 98 * up.ct.setpoint ∧ ¬100 * 2940 < 98 * up.ct.setpoint ∧ 102 * up.ct.setpoint < 100 * 3061) ∧
    (up.ct.windows < up.ct.soundMs ∧ (contoured 2 100).ct.soundMs ≠ 0 ∧ (contoured 2 100).ct.soundMs ≤ (contoured 2 100).ct.windows ∧
      ((contoured 2 100).sounds.filter fun x => x.die == 0 && x.unit == 63).length < 16) := by decide +kernel

theorem window_of_replicate (w k : Nat) (hk : k < 250) : ((List.replicate 500 w).drop k).take 250 = List.replicate 250 w := by
  rw [List.drop_replicate, List.take_replicate, show min 250 (500 - k) = 250 by omega]

theorem belowCap_drawing (w : Nat) (em : Bool) :
    belowCap (drawing 500 w em).sv = decide (100 * (List.replicate 250 w).sum < 95 * 250 * 3600) := by
  have h : ∀ k ∈ List.range 250, decide (100 * (((List.replicate 500 w).drop k).take 250).sum < 95 * 250 * 3600)
      = decide (100 * (List.replicate 250 w).sum < 95 * 250 * 3600) := fun k hk => by
    rw [window_of_replicate w k (List.mem_range.1 hk)]
  have hp : (drawing 500 w em).sv.pSum = List.replicate 500 w := rfl
  have hc : (drawing 500 w em).sv.pcap = 3600 := rfl
  simp only [belowCap, hp, hc, List.length_replicate]
  cases hd : decide (100 * (List.replicate 250 w).sum < 95 * 250 * 3600)
  · simp only [Bool.and_eq_false_iff, List.all_eq_false]
    exact .inr ⟨0, by decide, by rw [h 0 (by decide), hd]; decide⟩
  · simp only [Bool.and_eq_true, List.all_eq_true]
    exact ⟨by decide, fun k hk => by rw [h k hk, hd]⟩

/-- 3,419 W is below 0.95 × 3,600 W; 3,420 W is not. -/
theorem witness_ContourAndEmergency_lift : belowCap (drawing 500 3419 true).sv = true ∧ belowCap (drawing 500 3420 true).sv = false := by
  rw [belowCap_drawing, belowCap_drawing]
  decide +kernel

/-- Die 2 is throttled at duty n and last reported q quarter degrees. -/
def hot (n q : Nat) : State := { up with sv := { up.sv with throttled := [2], duty := [(2, n)], temps := [(2, q)] } }

theorem witness_ThermalAndHoldup :
    (2 ≠ 1 ∧ dieUp up 2 = true ∧ 4 * up.sv.tThrottle ≤ 420 ∧ 419 < 4 * up.sv.tThrottle ∧ thermDuty (hot 16 0) 2 = 16 ∧ 407 < 4 * (up.sv.tThrottle - 3) ∧
      coreDie 0 = 2 ∧ temp up 2 < 400 ∧ 400 ≤ temp (hot 16 400) 2 ∧ (up.sounds.filter fun x => x.die == 1 && x.unit == 63).length < 16) ∧
    (2 ∈ (hot 3 420).sv.throttled ∧ 4 * (hot 3 420).sv.tThrottle ≤ temp (hot 3 420) 2 ∧ 2 < thermDuty (hot 3 420) 2 ∧ ¬2 < thermDuty (hot 2 420) 2) ∧
    (temp (hot 15 407) 2 < 4 * ((hot 15 407).sv.tThrottle - 3) ∧ rising none (hot 15 407).sv.duty = true ∧ 15 ≤ thermDuty (hot 15 407) 2) := by decide +kernel

/-- SV held at some wait, after a shutdown of kind k. -/
def waitingAt (w k : Nat) : State := { State.reset with sv := { State.reset.sv with waiting := w, shutdown := k } }
/-- Cause 12 has been asked for; firmware on trial. -/
def askedWarm : State := { up with sv := { up.sv with warmReqs := [12] } }

theorem witness_ShutdownsAndResets :
    (State.reset.sv.on = false ∧ up.sv.on = true ∧ State.reset.sv.shutdown = 0 ∧ 1 < 2 ∧ 1 ≤ 1) ∧
    ((waitingAt 17 1).sv.shutdown ≠ 0 ∧ (waitingAt 17 2).sv.waiting = 17 ∧ (waitingAt 16 2).sv.waiting = 16 ∧ (waitingAt 0 1).sv.waiting ≠ 17 ∧ 89 < 90 ∧ 90 ≤ 90) ∧
    ((waitingAt 2 0).sv.waiting = 2 ∧ (waitingAt 2 0).sv.shutdown = 0 ∧ (waitingAt 4 0).sv.waiting = 4) ∧
    (askedWarm.sv.on = true ∧ 12 ∈ askedWarm.sv.warmReqs ∧ askedWarm.img.inForce = none ∧ askedWarm.sec.fwState ≠ fwTrial ∧ askedWarm.sec.fwState ≠ fwNone) ∧
    ((trialFw 0 0).sv.on = true ∧ (trialFw 0 0).sec.fwState = fwTrial ∧ (trialFw 0 0).img.inForce = none) := by decide +kernel

/-! Frames: exec answers a next state for every command in every state. -/

theorem witness_FramesOfQueuesAndSequencer : ∃ t, exec (.descriptorFetch 5) (headed 0 1) = .next t := exec_next _ _
theorem witness_FramesOfSecurityAndImages : ∃ t, exec (.quotaSet h5 (tr7 6) 0 0 1 0 64) (keyed 5 queued) = .next t := exec_next _ _
theorem witness_FramesOfRegistersAndAccesses : ∃ t, exec (.hostWrite false 0 [1]) hosted = .next t := exec_next _ _
theorem witness_FramesOfComputeAndOptimizer : ∃ t, exec (.twMatmul h5 mmOk) queued = .next t := exec_next _ _
theorem witness_FramesOfUpkeepEventsAndMessages : ∃ t, exec (.scrubRead 18 0) (latent0 false) = .next t := exec_next _ _
theorem witness_FramesOfRingsAndTwin : ∃ t, exec (.journalData jr7) (twinned 1) = .next t := exec_next _ _
theorem witness_FramesOfManagementPowerAndBringUp : ∃ t, exec (.coldReset 0 {}) State.reset = .next t := exec_next _ _

/-! Effects, worked out by hand from the rules they cite. -/

/-- The state after a command. -/
def after (c : Instr) (s : State) : State := match exec c s with | .next t => t | _ => s

/-- R500: four bytes set the pointer, least significant first. -/
theorem test_privateWrite : (after (.privateWrite [0x34, 0x12, 0x01, 0x00]) (i3cAt 0)).i3c.pointer = 0x11234 := by decide +kernel

/-- R80, R83: E4M3 0x38 is 1, 0x7E is 448, 0x7F is NaN; BF16 0xC000 is −2. -/
theorem test_values : decodeVal 3 0x38 = .fin false 8 (-3) ∧ decodeVal 3 0x7E = .fin false 14 5 ∧ decodeVal 3 0x7F = .nan ∧
    decodeVal 6 0xC000 = .fin true 128 (-6) := by decide +kernel

/-- R297: the bytes of the payload lie at DA upward. -/
theorem test_inlineWrite : cellByte (after (.inlineWrite { h5 with ext := 1 } 0x1001 2 [7, 9]) up).mem 0x1002 = 9 := by decide +kernel

/-- R288: NOP completes with DONE, which is 0x00; its record names the queue. -/
theorem test_nop : ((after (.nop h5) up).qm.cpls.map fun c => (c.status, c.queue)) = [(0x00, 5)] := by decide +kernel

/-- R344: WAIT for 1 while k0 is 0 does not move; FIRE moves on and raises the pending requests. -/
theorem test_wait_fire : (progOf (after (.wait 0 0 1) progWait) 0).pc = 0 ∧ (progOf (after (.fire 0) (progAt 2)) 0).pc = 3 ∧
    (after (.fire 0) (progAt 2)).ck.pending = 1 := by decide +kernel

/-- R60: the seventeenth request is dropped and counted. -/
theorem test_fire_drops : (after (.fire 0) fireFull).ck.pending = 16 ∧ (after (.fire 0) fireFull).ck.dropCnt = 1 := by decide +kernel

/-- DROP_CNT at its maximum, and 16 requests queued. -/
def fireStuck : State := { fireFull with ck := { fireFull.ck with dropCnt := 2 ^ 48 - 1 } }
/-- R430: the request that passes DROP_CNT's maximum writes one Sounding; the next writes none. -/
theorem test_fire_sticks : dieUp fireStuck 0 = true ∧ 16 ≤ fireStuck.ck.pending ∧ fireStuck.ck.dropCnt = 2 ^ 48 - 1 ∧
    (after .datumCtlFire fireStuck).sounds.length = 1 ∧ (after .datumCtlFire (after .datumCtlFire fireStuck)).sounds.length = 1 ∧
    readReg (after .datumCtlFire fireStuck) 0 0x4030 = 16 * 2 ^ 8 + 2 ^ 16 * (2 ^ 48 - 1) := by decide +kernel

/-- R275: generation 2 follows the last entry of a ring of 16. -/
theorem test_nextPos : nextPos 16 (15, 1) = (0, 2) ∧ nextPos 16 (15, 0xFFFF) = (0, 1) := by decide

/-- R44: SWAP makes the other bank active, on its die alone. -/
theorem test_swap : activeBank (after (.swap 4 1) up) 4 = 1 ∧ activeBank (after (.swap 4 1) up) 5 = 0 := by decide +kernel

/-- R113, R128: the active weight 1 times the activation 1 (E4M3 0x38) is drained as 1. -/
theorem test_twMatmul : lookD (after (.twMatmul h5 { mmOk with drain := true, wReuse := true })
    { queued with tw := { up.tw with cb := [(cbKey 0 64, 0x38)],
                                     cores := [(0, { tagValid := true, tagSpec := 3, tagK := 1, tagN := 1, weights := [[.fin false 1 0]] })] } }).tw.cb
      (cbKey 0 128) 0 = 0x38 := by decide +kernel

/-- R191: a dense word is added at its place. -/
theorem test_atomicAdd : (after (.atomicAdd amDense) tabled).mu.dense.map (·.2) = [5] := by decide +kernel

/-- R395, R398: a DATA record of BASE is written into the receive log, its payload after a header of 32 bytes, and at its holding's place in
the shadow area. -/
theorem test_journalData : cellByte (after (.journalData jr7) (twinned 1)).mem 0x800022 = 3 ∧
    cellByte (after (.journalData jr7) (twinned 1)).mem 0x900002 = 3 := by decide +kernel

/-- R63: an edge that follows the number counts; one that does not marks the die. -/
theorem test_datumEdge : look0 (after (.datumEdge []) (driven (some 1) 0)).ck.count 2 = 1 ∧ 3 ∈ (after (.datumEdge [3]) (driven (some 1) 0)).ck.err := by
  decide +kernel

/-- At T_THROTTLE, 105 °C a die throttles; three degrees below it may rise again. -/
theorem test_thermal : (after (.thermalReport 2 420) up).sv.throttled = [2] ∧ (after (.thermalReport 2 419) up).sv.throttled = [] ∧
    thermDuty (after (.thermalDutyRise 2) (hot 15 407)) 2 = 16 := by decide +kernel

/-- R208: the directory entry goes from DRAINING to MOVING. -/
theorem test_migrationMoving :
    (dirOf (after (.migrationMoving 0 1 3) (rowDir { st := .draining, dest := 0x100060, ledgerDie := 0, target := 0x200000 })) 0 1 3).map (·.st) = some .moving := by
  decide +kernel

/-- R375: two failures leave a port training, the third breaks it. -/
theorem test_trainingFailure : (rport (after (.trainingFailure 35) (portAt 35 { st := 1, fails := 1 })) 35).fails = 2 ∧
    (rport (after (.trainingFailure 35) (portAt 35 { st := 1, fails := 2 })) 35).st = 5 := by decide +kernel

/-- R444: a key that is retired is gone. -/
theorem test_keyRetire : look (after (.keyRetire h5 1) (keyed 0)).sec.keys 1 = none := by decide +kernel

/-- One step takes one command off the queue and runs it; an empty queue idles. -/
theorem test_step : (match step (waiting1 (.nop h5)) with | .next t => t.pending.length + t.qm.cpls.length | _ => 9) = 1 ∧
    (match step up with | .next t => decide (t = up) | _ => false) = true := by decide +kernel

end Sys2Proof.Tests
end

section
/-!
PROOFS. The obligations of family 00_scope: what every command and every step keep, what register writes, host accesses and core accesses do,
and what they leave unchanged.
-/

namespace Sys2Proof.Machine

open Sys2Proof

/-! What a step can do, and what it keeps. -/

/-- A step idles on an empty queue, or runs the front command on the state with the rest of the queue. -/
theorem step_cases {s t : State} (h : step s = .next t) :
    (s.pending = [] ∧ t = s) ∨ ∃ c r, s.pending = c :: r ∧ exec c { s with pending := r } = .next t := by
  unfold step at h
  split at h
  next hp => exact .inl ⟨hp, (Host.Outcome.next.inj h).symm⟩
  next c r hp => exact .inr ⟨c, r, hp, h⟩

/-- A step that takes the command c keeps what c keeps, of the state without c in its queue. -/
theorem step_kept {c : Instr} {r : List Instr} {s t : State} (hp : s.pending = c :: r) (h : step s = .next t) :
    Kept (coldStarts c) { s with pending := r } t := by
  rcases step_cases h with ⟨he, _⟩ | ⟨c', r', hp', hx⟩
  · exact absurd (hp.symm.trans he) (by simp)
  · obtain ⟨rfl, rfl⟩ := List.cons.inj (hp.symm.trans hp')
    exact exec_kept hx

/-- The form of the tables does not depend on the queue of waiting commands. -/
theorem tablesOk_withPending {s : State} (h : TablesOk s) (r : List Instr) : TablesOk { s with pending := r } :=
  ⟨h.cells, h.poison, h.latent, h.regs⟩

/-- Settles O10: the state stays, or the command that runs keeps the tables (exec_kept). -/
theorem stepKeepsTablesCanonical : Obligations.StepKeepsTablesCanonical := by
  intro s t hok h
  rcases step_cases h with ⟨_, rfl⟩ | ⟨c, r, _, hx⟩
  · exact hok
  · exact (exec_kept hx).tables (tablesOk_withPending hok r)

/-- Settles O7: exec is total (exec_next), and no meaning touches the queue of waiting commands (exec_kept). -/
theorem everyCommandAnswers : Obligations.EveryCommandAnswers := by
  intro c s
  obtain ⟨t, h⟩ := exec_next c s
  exact ⟨t, h, (exec_kept h).pending⟩

/-- Settles O11: the command that the step takes keeps the straps unless it may start a cold reset. -/
theorem strapsChangeOnlyInAColdReset : Obligations.StrapsChangeOnlyInAColdReset := by
  intro c r s t hp hc h
  exact (step_kept hp h).straps hc

/-! Frames of register writes and accesses. -/

/-- Memory's cells and posted writes are all that a reader sees. -/
theorem memSame_of_sameBytes {s t : State} (k : SameBytes s t) : MemSame s t := by
  intro x
  simp only [readByte, postedAt, cellByte, k.cells, k.posted]

/-- Settles O56: each command's frame, from the state it starts in. -/
theorem framesOfRegistersAndAccesses : Obligations.FramesOfRegistersAndAccesses :=
  ⟨fun _ _ s _ h => execSwap_same h (Same.refl _ s) rfl,
   fun _ _ _ s _ h => execTcCreditWrite_same h (Same.refl _ s) rfl,
   fun _ _ s _ h => execRejoin_same h (Same.refl _ s) rfl rfl rfl,
   fun s _ h => execDatumCtlFire_same h (Same.refl _ s) rfl rfl rfl,
   fun _ s _ h => execResync_same h (Same.refl _ s) rfl rfl rfl rfl rfl rfl rfl rfl rfl rfl rfl rfl rfl rfl rfl rfl rfl,
   fun _ _ _ s _ h => execCkPlanWrite_same h (Same.refl _ s) rfl,
   fun _ _ s _ h => execCounterClear_same h (Same.refl _ s) rfl,
   fun _ _ s _ h => execDirLookup_same h (Same.refl _ s) rfl,
   fun _ _ s _ h => execFaultClear_same h (Same.refl _ s) rfl rfl rfl,
   fun _ s _ h => execPanelRst_same h (Same.refl _ s) rfl rfl,
   fun _ s _ h => execPerPanelReset_same h (Same.refl _ s) rfl rfl rfl rfl rfl rfl rfl,
   fun _ _ s _ h => execWarmReq_same h (Same.refl _ s) rfl,
   fun _ s _ h => execMboxGo_same h (Same.refl _ s) rfl rfl rfl rfl rfl rfl rfl rfl rfl rfl,
   fun _ s _ h => execHstreamFill_same h (Same.refl _ s) rfl rfl rfl rfl rfl,
   fun _ s _ h => execSnapHostRel_same h (Same.refl _ s) rfl rfl rfl rfl rfl rfl rfl rfl rfl rfl,
   fun _ s _ h => execCtCtlWrite_same h (Same.refl _ s) rfl,
   fun _ s _ h => execInject_same h (Same.refl _ s) rfl rfl rfl rfl,
   fun _ _ _ _ _ s _ h =>
     execRegWrite_same h (Same.refl _ s) rfl rfl rfl rfl rfl rfl rfl rfl rfl rfl rfl rfl rfl rfl rfl rfl rfl rfl rfl rfl,
   fun _ _ _ s _ h => ⟨execHostRead_same h (Same.refl _ s) rfl rfl rfl rfl rfl rfl rfl rfl rfl,
     memSame_of_sameBytes (execHostRead_bytes h (SameBytes.refl s))⟩,
   fun _ _ _ s _ h =>
     execHostWrite_same h (Same.refl _ s) rfl rfl rfl rfl rfl rfl rfl rfl rfl rfl rfl rfl rfl rfl rfl rfl rfl rfl rfl rfl,
   fun _ _ _ _ s _ h => ⟨execCoreLoad_same h (Same.refl _ s) rfl rfl rfl rfl rfl rfl rfl rfl rfl,
     memSame_of_sameBytes (execCoreLoad_bytes h (SameBytes.refl s))⟩,
   fun _ s _ h => execCoreFence_same h (Same.refl _ s) rfl,
   fun s _ h => execHostLinkReset_same h (Same.refl _ s) rfl rfl rfl rfl rfl,
   fun _ s _ h => execHlPerstN_same h (Same.refl _ s) rfl rfl rfl rfl rfl,
   fun _ _ s _ h => execCxlMemCompletion_same h (Same.refl _ s) rfl rfl rfl rfl rfl rfl rfl,
   fun _ _ s _ h => execFarCplTimeout_same h (Same.refl _ s) rfl rfl rfl rfl rfl rfl rfl rfl,
   fun _ s _ h => execFarLinkLoss_same h (Same.refl _ s) rfl rfl rfl rfl rfl rfl rfl rfl rfl,
   fun _ _ _ _ s _ h => execFarRetrain_same h (Same.refl _ s) rfl rfl⟩

/-! CM.PANEL_RST and the reset it asks for (R485). -/

/-- A write of CM.PANEL_RST while CMD is up. -/
theorem exec_panelRst {v : Word64} {s : State} (hup : dieUp s 0 = true) : exec (.panelRst v) s = .next (writePanelRst s v.toNat) :=
  congrArg Host.Outcome.next (if_pos hup)

/-- Without GO the panel is stored and RESULT stays. -/
theorem writePanelRst_noGo {s : State} {v : Nat} (hgo : bit v 8 = false) :
    writePanelRst s v = regSet s 0 0xC0000 (bits v 5 0 + regGet s 0 0xC0000 / 2 ^ 16 * 2 ^ 16) := by
  simp [writePanelRst, hgo]

/-- GO for a FAULTED panel asks for its reset; RESULT is 1. -/
theorem writePanelRst_faulted {s : State} {v : Nat} (hgo : bit v 8 = true) (hf : panelFaulted s (bits v 5 0) = true) :
    writePanelRst s v = regSet (s.onSv fun x => { x with panelReqs := ins x.panelReqs (bits v 5 0) }) 0 0xC0000 (bits v 5 0 + 2 ^ 16) := by
  simp [writePanelRst, hgo, hf]

/-- GO for any other panel answers RESULT 3. -/
theorem writePanelRst_standing {s : State} {v : Nat} (hgo : bit v 8 = true) (hf : panelFaulted s (bits v 5 0) = false) :
    writePanelRst s v = regSet s 0 0xC0000 (bits v 5 0 + 3 * 2 ^ 16) := by
  simp [writePanelRst, hgo, hf]

/-- A panel's reset sets no register. -/
theorem resetPanel_regs (s : State) (p : Nat) : (resetPanel s p).regs = s.regs :=
  (resetPanel_same (g₀ := { gz := true, tw := true, mu := true, streams := true, qm := true, sv := true }) (Same.refl _ s)
    rfl rfl rfl rfl rfl rfl).regs rfl

/-- PER_PANEL_RESET of a panel that asked for it, between steps: the panel's reset, and RESULT 2 where CM.PANEL_RST still names it. -/
theorem perPanelReset_runs {p : Nat} {s : State} (hp : p ∈ s.sv.panelReqs) (hq : s.seq.run = none ∨ s.seq.phase = 0) :
    ∃ t, exec (.perPanelReset p) s = .next t ∧ Same { regs := true, sv := true } (resetPanel s p) t ∧
      (bits (regGet s 0 0xC0000) 5 0 = p → regGet t 0 0xC0000 = bits (regGet s 0 0xC0000) 15 0 + 2 * 2 ^ 16) := by
  have hgo : (s.sv.panelReqs.contains p && (s.seq.run.isNone || s.seq.phase == 0)) = true := by
    simpa [hp] using hq
  have hold : regGet (resetPanel s p) 0 0xC0000 = regGet s 0 0xC0000 := by simp only [regGet, resetPanel_regs]
  refine ⟨_, congrArg Host.Outcome.next (if_pos hgo), ?_, fun hb => ?_⟩
  · exact ite_same (regSet_same (State.onSv_same (Same.refl _ _) rfl) rfl) (State.onSv_same (Same.refl _ _) rfl)
  · simp only [regGet_onSv, hold, hb, if_true, regGet_regSet]

/-- PER_PANEL_RESET that nothing asked for, or within a step. -/
theorem perPanelReset_idle {p : Nat} {s : State} (h : p ∉ s.sv.panelReqs ∨ (s.seq.run ≠ none ∧ s.seq.phase ≠ 0)) :
    exec (.perPanelReset p) s = .next s := by
  refine congrArg Host.Outcome.next (if_neg ?_)
  rcases h with h | ⟨h1, h2⟩
  · simp [h]
  · simp [Option.isNone_iff_eq_none, h1, h2]

/-! The mailbox (R353). -/

/-- A write of HL.MBOX_CTL while CMD is up. -/
theorem exec_mboxGo {v : Word64} {s : State} (hup : dieUp s 0 = true) : exec (.mboxGo v) s = .next (startMbox s v.toNat) :=
  congrArg Host.Outcome.next (if_pos hup)

/-- A GO that finds the mailbox free, with DONE left as it is, has firmware take the descriptor. -/
theorem startMbox_posts {s : State} {v : Nat} (hd : bit v 2 = false) (hgo : bit v 0 = true) (hb : s.host.busy = false) :
    startMbox s v = postMbox s := by
  simp [startMbox_plain hd, hgo, hb]

/-- Firmware refuses an opcode but for 0x10 to 0x1F and 0x39. -/
theorem mbox_refuses_iff (op : Nat) :
    (!(decide (0x10 ≤ op) && decide (op ≤ 0x1F)) && op != 0x39) = true ↔ ¬((0x10 ≤ op ∧ op ≤ 0x1F) ∨ op = 0x39) := by
  simp only [Bool.and_eq_true, Bool.not_eq_true', ← Bool.not_eq_true, decide_eq_true_eq, bne_iff_ne, not_or, ne_eq]

/-- Of an opcode that queue 0 does not take, the answer is MALFORMED. -/
theorem postMbox_malformed {s : State} (h1 : ¬(0x10 ≤ ((mboxBytes s).headD 0).toNat ∧ ((mboxBytes s).headD 0).toNat ≤ 0x1F))
    (h2 : ((mboxBytes s).headD 0).toNat ≠ 0x39) :
    postMbox s = mboxDone s.took (fresh s % 2 ^ 56 * 256 + stMalformed) (Config.freeValue (2 ^ 71 + s.free) % 2 ^ 64) := by
  unfold postMbox
  exact if_pos ((mbox_refuses_iff _).mpr (not_or.mpr ⟨h1, h2⟩))

/-- With room in queue 0 the descriptor is posted at its tail with its SEAL, and the mailbox is BUSY until that entry completes. -/
theorem postMbox_posts {s : State} {r : Rec}
    (hop : (0x10 ≤ ((mboxBytes s).headD 0).toNat ∧ ((mboxBytes s).headD 0).toNat ≤ 0x1F) ∨ ((mboxBytes s).headD 0).toNat = 0x39)
    (hr : queueRec s 0 = some r)
    (hroom : posDiff (queueSize r) (posNum (queueSize r) (queueOf s 0).head (queueOf s 0).headGen)
      (posNum (queueSize r) (queueOf s 0).tail (queueOf s 0).tailGen) ≠ queueSize r) :
    let u := queueOf s 0
    let nx := nextPos (queueSize r) (u.tail, u.tailGen)
    postMbox s = (setQueue (writeMem s (entryDa r u.tail) ((mboxBytes s).take 0x3E ++ leBytes 2 u.tailGen ++ (mboxBytes s).drop 0x40)) 0
      fun u => { u with tail := nx.1, tailGen := nx.2, shownGen := u.tailGen }).onHost
        fun h => { h with busy := true, mboxIdx := some (u.tail, u.tailGen) } := by
  intro u nx
  unfold postMbox
  rw [if_neg fun h => (mbox_refuses_iff _).mp h hop]
  simp only [hr]
  exact if_neg hroom

/-! HL.HSTREAM_FILL (R355). -/

/-- A write of HL.HSTREAM_FILL while CMD is up. -/
theorem exec_hstreamFill {v : Word64} {s : State} (hup : dieUp s 0 = true) :
    exec (.hstreamFill v) s = .next (writeHstreamFill s v.toNat) := congrArg Host.Outcome.next (if_pos hup)

/-- Chunks written to no stream are counted. -/
theorem writeHstreamFill_noStream {s : State} {v : Nat} (hr : streamRec s (regGet s 0 0x50040) = none) :
    writeHstreamFill s v = bumpBy s 0 0x50010 (bits v 15 0) := by
  unfold writeHstreamFill; simp only [hr]

/-- So are those of a stream that the host does not fill, or that is ABORTED. -/
theorem writeHstreamFill_refused {s : State} {v : Nat} {r : Rec} (hr : streamRec s (regGet s 0 0x50040) = some r)
    (hn : fld r 2 ≠ 2 ∨ (strmOf s (regGet s 0 0x50040)).st = sAborted) :
    writeHstreamFill s v = bumpBy s 0 0x50010 (bits v 15 0) := by
  unfold writeHstreamFill
  simp only [hr]
  exact if_pos (by simpa using hn)

/-- A host stream once c chunks of it are visible. -/
def filledStrm (r : Rec) (c : Nat) (x : Strm) : Strm :=
  { x with fill := (x.fill + c * chunkBytes r) % 2 ^ 64, wpos := (x.fill + c * chunkBytes r) % 2 ^ 64, credits := x.credits - c,
           st := if c = 0 then x.st else sRun }

/-- The chunks within the credits become visible, and the others are counted. -/
theorem writeHstreamFill_fills {s : State} {v : Nat} {r : Rec} (hr : streamRec s (regGet s 0 0x50040) = some r)
    (h2 : fld r 2 = 2) (hs : (strmOf s (regGet s 0 0x50040)).st ≠ sAborted) :
    let n := regGet s 0 0x50040
    let x := strmOf s n
    let c := min (bits v 15 0) x.credits
    writeHstreamFill s v =
      bumpBy (showFull (setStrm s n (filledStrm r c)) n r (x.credits == c)) 0 0x50010 (bits v 15 0 - c) := by
  intro n x c
  unfold writeHstreamFill
  simp only [hr]
  exact if_neg (by simpa [h2] using hs)

/-- Whether a stream shows RUN or FULL leaves its FILL and its credits alone. -/
theorem showFull_keeps (s : State) (n : Nat) (r : Rec) (b : Bool) :
    (strmOf (showFull s n r b) n).fill = (strmOf s n).fill ∧ (strmOf (showFull s n r b) n).credits = (strmOf s n).credits := by
  unfold showFull
  extract_lets x s1
  have h1 : strmOf s1 n = { strmOf s n with st := if b then sFull else sRun } := strmOf_setStrm ..
  have key : ∀ z : State, z.streams = s1.streams → (strmOf z n).fill = (strmOf s n).fill ∧ (strmOf z n).credits = (strmOf s n).credits := by
    intro z hz
    have e : strmOf z n = strmOf s1 n := by unfold strmOf; rw [hz]
    rw [e, h1]; exact ⟨rfl, rfl⟩
  split
  · exact ⟨rfl, rfl⟩
  · split
    · exact key _ ((bumpBy_frame s1.took (consumerDie r) _ _ 0).streams rfl)
    · exact key _ rfl

/-- The one register that showing a stream FULL may raise is the count of the cycles its producer waits. -/
theorem showFull_regs (s : State) (n : Nat) (r : Rec) (b : Bool) :
    (showFull s n r b).regs = s.regs ∨
    b = true ∧ ∃ c, (showFull s n r b).regs = (bumpBy s (consumerDie r) (if isTw (consumerDie r) then 0x19020 else 0x13070) c).regs := by
  unfold showFull
  extract_lets x s1
  split
  · exact .inl rfl
  · split
    next hf => exact .inr ⟨(Bool.and_eq_true_iff.mp hf).1, _, bumpBy_regs_congr rfl⟩
    next => exact .inl rfl

/-! TA.SNAP_HOST_REL and plain registers (R15, R409, R508). -/

/-- While no snapshot runs, the host's position is held and nothing else happens. -/
theorem snapHostRel_idle {v : Word64} {s : State} (hup : dieUp s 0 = true) (hn : s.snap = none) :
    exec (.snapHostRel v) s = .next (regSet s 0 0x80038 (v.toNat % 2 ^ 40)) := by
  refine congrArg Host.Outcome.next ((if_pos hup).trans ?_)
  unfold writeHostRel pumpSnap
  rw [show (regSet s 0 0x80038 (v.toNat % 2 ^ 40)).snap = none from hn]

/-- A REG_WRITE of some of the 8 bytes, at an unaligned offset, or of a die that is not up, does nothing. -/
theorem regWrite_discarded {d off mask : Nat} {a : Agent} {v : Word64} {s : State} (h : mask ≠ 255 ∨ dieUp s d = false ∨ off % 8 ≠ 0) :
    exec (.regWrite d off a mask v) s = .next s := by
  refine congrArg Host.Outcome.next ?_
  unfold maskedWrite
  split
  next hm =>
    unfold writeReg
    exact if_pos (by simpa [hm] using h)
  next => rfl

/-- A write of a plain register stores its writable bits. -/
theorem writeReg_plain {d off v m : Nat} {a : Agent} {s : State} (hup : dieUp s d = true) (hal : off % 8 = 0) (hsv : d = 1 → off < 0x10000)
    (hc : isCounter d off = false) (hm : plainMask d off = some m) : writeReg s d off a v = regSet s d off (v &&& m) := by
  have hnsv : ¬(d = 1 && decide (0x10000 ≤ off)) = true := by simpa using hsv
  simp [writeReg, hup, hal, hc, hm, hnsv]

/-! What each command of panels, mailbox and plain registers does. -/

/-- R485: what a write of CM.PANEL_RST does. -/
theorem panelRst_does {v : Word64} {s : State} (hup : dieUp s 0 = true) :
    ∃ t, exec (.panelRst v) s = .next t ∧ Same { regs := true, sv := true } s t ∧
      (bit v.toNat 8 = false → t.sv = s.sv ∧ regGet t 0 0xC0000 = bits v.toNat 5 0 + regGet s 0 0xC0000 / 2 ^ 16 * 2 ^ 16) ∧
      (bit v.toNat 8 = true → panelFaulted s (bits v.toNat 5 0) = true →
        bits v.toNat 5 0 ∈ t.sv.panelReqs ∧ regGet t 0 0xC0000 = bits v.toNat 5 0 + 1 * 2 ^ 16) ∧
      (bit v.toNat 8 = true → panelFaulted s (bits v.toNat 5 0) = false →
        t.sv = s.sv ∧ regGet t 0 0xC0000 = bits v.toNat 5 0 + 3 * 2 ^ 16) := by
  refine ⟨_, exec_panelRst hup, writePanelRst_same (Same.refl _ s) rfl rfl, fun hgo => ?_, fun hgo hf => ?_, fun hgo hf => ?_⟩
  · rw [writePanelRst_noGo hgo]; exact ⟨rfl, regGet_regSet ..⟩
  · rw [writePanelRst_faulted hgo hf]; exact ⟨(mem_ins _ _ _).mpr (.inl rfl), regGet_regSet ..⟩
  · rw [writePanelRst_standing hgo hf]; exact ⟨rfl, regGet_regSet ..⟩

/-- R485: what a reset asked for leaves of the panel. -/
theorem perPanelReset_does {p : Nat} {s : State} (hc : rising none s.tw.cores = true) (hp : p ∈ s.sv.panelReqs)
    (hq : s.seq.run = none ∨ s.seq.phase = 0) :
    ∃ t, exec (.perPanelReset p) s = .next t ∧
      (∀ g, g ∈ panelCores s p → dieUp s (2 + g / 4) = true → coreOf t g = {}) ∧
      (∀ q, q ∈ panelQueues s p → queueOf t q = freshQueue) ∧
      (∀ r, r ∈ sect s 0x13 → fld r 1 = p → (strmOf t (fld r 0)).st = sIdle ∧ (strmOf t (fld r 0)).fill = 0 ∧ (strmOf t (fld r 0)).rel = 0) ∧
      (bits (regGet s 0 0xC0000) 5 0 = p → regGet t 0 0xC0000 = bits (regGet s 0 0xC0000) 15 0 + 2 * 2 ^ 16) := by
  obtain ⟨t, ht, hsame, hres⟩ := perPanelReset_runs hp hq
  obtain ⟨hcores, hqueues, hstrms⟩ := resetPanel_is s p hc
  have ecore : ∀ g, coreOf t g = coreOf (resetPanel s p) g := fun g => by simp only [coreOf, hsame.tw rfl]
  have equeue : ∀ q, queueOf t q = queueOf (resetPanel s p) q := fun q => by simp only [queueOf, hsame.qm rfl]
  have estrm : ∀ n, strmOf t n = strmOf (resetPanel s p) n := fun n => by simp only [strmOf, hsame.streams rfl]
  refine ⟨t, ht, fun g hg hup => ?_, fun q hq => ?_, fun r hr hrp => ?_, hres⟩
  · rw [ecore]; exact hcores g hg hup
  · rw [equeue]; exact hqueues q hq
  · rw [estrm]; exact hstrms r hr hrp

/-- R353: a GO of an opcode that queue 0 does not take is answered at once. -/
theorem mboxGo_malformed {v : Word64} {s : State} (hup : dieUp s 0 = true) (hd : bit v.toNat 2 = false) (hgo : bit v.toNat 0 = true)
    (hb : s.host.busy = false) (h1 : ¬(0x10 ≤ ((mboxBytes s).headD 0).toNat ∧ ((mboxBytes s).headD 0).toNat ≤ 0x1F))
    (h2 : ((mboxBytes s).headD 0).toNat ≠ 0x39) :
    ∃ t, exec (.mboxGo v) s = .next t ∧ t.host.done = true ∧ t.host.busy = false ∧ t.host.lo % 256 = stMalformed ∧
      t.qm = { s.qm with msix := s.qm.msix ++ [0] } := by
  refine ⟨_, (exec_mboxGo hup).trans (congrArg _ ((startMbox_posts hd hgo hb).trans (postMbox_malformed h1 h2))), rfl, rfl, ?_, rfl⟩
  show (fresh s % 2 ^ 56 * 256 + stMalformed) % 256 = stMalformed
  rw [Nat.mul_add_mod_self_right]; rfl

/-- R353: a GO that finds room in queue 0 posts the descriptor there. -/
theorem mboxGo_posts {v : Word64} {s : State} {r : Rec} (hup : dieUp s 0 = true) (hd : bit v.toNat 2 = false) (hgo : bit v.toNat 0 = true)
    (hb : s.host.busy = false)
    (hop : (0x10 ≤ ((mboxBytes s).headD 0).toNat ∧ ((mboxBytes s).headD 0).toNat ≤ 0x1F) ∨ ((mboxBytes s).headD 0).toNat = 0x39)
    (hr : queueRec s 0 = some r)
    (hroom : posDiff (queueSize r) (posNum (queueSize r) (queueOf s 0).head (queueOf s 0).headGen)
      (posNum (queueSize r) (queueOf s 0).tail (queueOf s 0).tailGen) ≠ queueSize r) :
    ∃ t, exec (.mboxGo v) s = .next t ∧ t.host.busy = true ∧ t.host.mboxIdx = some ((queueOf s 0).tail, (queueOf s 0).tailGen) ∧
      t.mem = (writeMem s (entryDa r (queueOf s 0).tail)
        ((mboxBytes s).take 0x3E ++ leBytes 2 (queueOf s 0).tailGen ++ (mboxBytes s).drop 0x40)).mem ∧
      ((queueOf t 0).tail, (queueOf t 0).tailGen) = nextPos (queueSize r) ((queueOf s 0).tail, (queueOf s 0).tailGen) := by
  refine ⟨_, (exec_mboxGo hup).trans (congrArg _ ((startMbox_posts hd hgo hb).trans (postMbox_posts hop hr hroom))), rfl, rfl, rfl, ?_⟩
  simp only [queueOf_onHost, queueOf_setQueue]

/-- R355: a write of HL.HSTREAM_FILL for a stream that the host fills. -/
theorem hstreamFill_fills {v : Word64} {s : State} {r : Rec} (hup : dieUp s 0 = true) (hr : streamRec s (regGet s 0 0x50040) = some r)
    (h2 : fld r 2 = 2) (hs : (strmOf s (regGet s 0 0x50040)).st ≠ sAborted) :
    let n := regGet s 0 0x50040
    let x := strmOf s n
    let k := bits v.toNat 15 0
    ∃ t, exec (.hstreamFill v) s = .next t ∧ (strmOf t n).credits = x.credits - min k x.credits ∧
      (strmOf t n).fill = (x.fill + min k x.credits * 2 ^ fld r 7) % 2 ^ 64 ∧
      ∃ u, t.regs = (bumpBy u 0 0x50010 (k - min k x.credits)).regs ∧
        (u.regs = s.regs ∨
          x.credits ≤ k ∧ ∃ c, u.regs = (bumpBy s (consumerDie r) (if isTw (consumerDie r) then 0x19020 else 0x13070) c).regs) := by
  intro n x k
  let a := setStrm s n (filledStrm r (min k x.credits))
  let u := showFull a n r (x.credits == min k x.credits)
  let t := bumpBy u 0 0x50010 (k - min k x.credits)
  have hx : strmOf a n = filledStrm r (min k x.credits) x := strmOf_setStrm ..
  obtain ⟨hfill, hcred⟩ := showFull_keeps a n r (x.credits == min k x.credits)
  have ht : strmOf t n = strmOf u n := by simp only [strmOf, (bumpBy_frame u 0 0x50010 (k - min k x.credits) 0).streams rfl, t]
  refine ⟨t, (exec_hstreamFill hup).trans (congrArg _ (writeHstreamFill_fills hr h2 hs)), ?_, ?_, u, rfl, ?_⟩
  · rw [ht, hcred, hx]; rfl
  · rw [ht, hfill, hx]; rfl
  · rcases showFull_regs a n r (x.credits == min k x.credits) with h | ⟨hf, c, hc⟩
    · exact .inl h
    · exact .inr ⟨Nat.le_trans (Nat.le_of_eq (beq_iff_eq.mp hf)) (Nat.min_le_left ..), c, hc.trans (bumpBy_regs_congr rfl)⟩

/-- Settles O31: each write by what it does where it is accepted, and by what discards it. -/
theorem panelMailboxAndPlainWrites : Obligations.PanelMailboxAndPlainWrites := by
  refine ⟨fun v s => panelRst_does, fun p s => perPanelReset_does, fun p s => perPanelReset_idle, fun v s hup hd => ?mbox, fun v s hup => ?fill,
    fun v s => snapHostRel_idle, fun d off a mask v s => ⟨regWrite_discarded, fun m hk hup hal hsv hc hm => ?plain⟩⟩
  case mbox =>
    refine ⟨fun hgo => ?_, fun hgo hb => ?_, mboxGo_malformed hup hd, fun r hgo hb hop hr hroom => mboxGo_posts hup hd hgo hb hop hr hroom⟩
    · rw [exec_mboxGo hup, startMbox_plain hd, hgo]; rfl
    · rw [exec_mboxGo hup, startMbox_plain hd, hgo, hb]; rfl
  case fill =>
    refine ⟨fun hr => ?_, fun r hr hn => ?_, fun r hr h2 hs => hstreamFill_fills hup hr h2 hs⟩
    · rw [exec_hstreamFill hup, writeHstreamFill_noStream hr]
    · rw [exec_hstreamFill hup, writeHstreamFill_refused hr hn]
  case plain =>
    refine ⟨_, congrArg Host.Outcome.next ((if_pos hk).trans (writeReg_plain hup hal hsv hc hm)), regSet_same (Same.refl _ s) rfl, ?_⟩
    exact regGet_regSet ..

/-! Host accesses (R351, R352). -/

/-- The state once a CXL.mem access has shown that the host committed the decoder. -/
def hdmShown (s : State) : State := s.onHost fun h => { h with hdm := true }

/-- While the link carries nothing, an access changes nothing. -/
theorem host_down {s : State} (h : hostUp s = false) (bar : Bool) (addr len : Nat) (data : List Byte) :
    exec (.hostRead bar addr len) s = .next s ∧ exec (.hostWrite bar addr data) s = .next s :=
  ⟨congrArg Host.Outcome.next (if_pos (by simp [h])), congrArg Host.Outcome.next (if_pos (by simp [h]))⟩

/-- A CXL.mem read is a read of its DA. -/
theorem exec_hostRead_cxl {da len : Nat} {s : State} (h : hostUp s = true) (hl : len ≠ 0) :
    exec (.hostRead false da len) s = .next (hostReadDa (hdmShown s) da len) :=
  congrArg Host.Outcome.next (if_neg (by simp [h, hl]))

/-- A CXL.mem write is a write of its DA. -/
theorem exec_hostWrite_cxl {da : Nat} {data : List Byte} {s : State} (h : hostUp s = true) (hd : data ≠ []) :
    exec (.hostWrite false da data) s = .next (hostWriteDa (hdmShown s) da data) :=
  congrArg Host.Outcome.next (if_neg (by simp [h, hd]))

/-- A BAR0 access below 0x1000000 is one of CMD's own registers. -/
theorem barPlace_cmd {s : State} {addr : Nat} (h : addr < 0x1000000) : barPlace s addr = .reg 0 addr := by
  unfold barPlace; exact if_pos h

/-- A BAR0 read of CMD's registers takes 4 or 8 aligned bytes; any other is counted. -/
theorem exec_hostRead_bar {addr len : Nat} {s : State} (h : hostUp s = true) (ha : addr < 0x1000000) (hl : len ≠ 0) :
    exec (.hostRead true addr len) s = .next (if (len = 8 || len = 4) && addr % len = 0 then hostReply s (readRegBytes s 0 addr len) false
      else hostReply (badAccess s).took (freeBytes s len) false) := by
  refine congrArg Host.Outcome.next ((if_neg (by simp [h, hl])).trans ?_)
  simp [barPlace_cmd ha]

/-- A BAR0 write of CMD's registers takes 8 aligned bytes; any other is counted. -/
theorem exec_hostWrite_bar {addr : Nat} {data : List Byte} {s : State} (h : hostUp s = true) (ha : addr < 0x1000000) (hd : data ≠ []) :
    exec (.hostWrite true addr data) s =
      .next (if data.length = 8 && addr % 8 = 0 then writeReg s 0 addr .host (ofLe data) else badAccess s) := by
  refine congrArg Host.Outcome.next ((if_neg (by simp [h, hd])).trans ?_)
  simp [barPlace_cmd ha]

/-- A read of a DA that is not valid is counted and returns zeros marked poisoned. -/
theorem hostReadDa_invalid {s : State} {da n st : Nat} (hr : (inRegSpace da && decide (da + n ≤ regTop)) = false) (h : r21 s [(da, n)] = some st) :
    hostReadDa s da n = hostReply (badAccess s) (List.replicate n 0) true := by
  simp [hostReadDa, hr, h]

/-- A read of a valid DA: free bytes marked poisoned where data is lost, else the bytes as the host channel reads them. -/
theorem hostReadDa_valid {s : State} {da n : Nat} (hr : (inRegSpace da && decide (da + n ≤ regTop)) = false) (h : r21 s [(da, n)] = none) :
    let c := checkRead s da n
    hostReadDa s da n =
      if c.1 then hostReply c.2.took (freeBytes c.2 n) true else hostReply c.2.took (hostBytes c.2 da n) false := by
  simp [hostReadDa, hr, h]

/-- A read within register space returns the registers. -/
theorem hostReadDa_registers {s : State} {da n : Nat} (hr : inRegSpace da = true) (ht : da + n ≤ regTop) :
    hostReadDa s da n = hostReply s (readRegSpace s da n) false := by
  simp [hostReadDa, hr, ht]

/-- Below Far the host channel reads memory as every reader does. -/
theorem hostBytes_below_far {s : State} {da n : Nat} (h : da < farBase) : hostBytes s da n = viewBytes s da n := by
  unfold hostBytes
  exact if_neg (by simp only [Bool.and_eq_true, decide_eq_true_eq]; omega)

/-- A write at a DA that is not valid, or in the firmware area, is counted. -/
theorem hostWriteDa_refused {s : State} {da : Nat} {bs : List Byte} (hr : inRegSpace da = false)
    (h : ((r21 s [(da, bs.length)]).isSome || meets (da, bs.length) (fwArea, gib)) = true) : hostWriteDa s da bs = badAccess s := by
  simp only [hostWriteDa, hr, Bool.false_and, Bool.false_eq_true, if_false, h, if_true]

/-- Any other write is stored: in Far over the port's host channel, elsewhere at its home and in the DENSE words that lie there. -/
theorem hostWriteDa_memory {s : State} {da : Nat} {bs : List Byte} (hr : inRegSpace da = false)
    (h : ((r21 s [(da, bs.length)]).isSome || meets (da, bs.length) (fwArea, gib)) = false) :
    hostWriteDa s da bs = if inFar da then hostWriteFar s da bs else writeWords (storeMem s da bs) da bs := by
  simp only [hostWriteDa, hr, Bool.false_and, Bool.false_eq_true, if_false, h]

/-- A whole register written by the host. -/
theorem hostWriteDa_reg {s : State} {da : Nat} {bs : List Byte} (hr : inRegSpace da = true) (ht : da + 8 ≤ regTop) (hl : bs.length = 8)
    (ha : da % 8 = 0) : hostWriteDa s da bs = writeReg s (da % regBase / 2 ^ 32) (da % 2 ^ 32) .host (ofLe bs) := by
  have hn : (da + 8 + 7) / 8 - da / 8 = 1 := by omega
  have hg : da / 8 * 8 = da := by omega
  have hb : bs.take 8 = bs := List.take_of_length_le (Nat.le_of_eq hl)
  simp only [hostWriteDa, hr, hl, ht, hn, hg, decide_true, Bool.and_true, if_true, hostWriteRegs, Nat.le_refl, Nat.sub_self, List.drop_zero, hb]

/-- Bytes written into DENSE words change Muslin alone. -/
theorem writeWords_frame (s : State) (a : Nat) (bs : List Byte) : Same { mu := true } s (writeWords s a bs) :=
  writeWords_same (Same.refl _ s) rfl

/-- Bytes stored at their home leave the host link alone. -/
theorem storeMem_host (s : State) (a : Nat) (bs : List Byte) : (storeMem s a bs).host = s.host :=
  (touchAll_same_self s (sectorsOf a bs.length)).host rfl

/-- A write in memory leaves the host link alone. -/
theorem hostWriteFar_host (s : State) (a : Nat) (bs : List Byte) : (hostWriteFar s a bs).host = s.host :=
  (hostWriteFar_same (g₀ := { mem := true, regs := true, mu := true, sv := true, i3c := true, sounds := true, seqNo := true })
    (Same.refl _ s) rfl rfl rfl rfl rfl rfl rfl).host rfl

/-- R351: a CXL.mem read outside register space. -/
theorem hostRead_memory {da len : Nat} {s : State} (h : hostUp s = true) (hl : len ≠ 0) (hr : inRegSpace da = false) :
    ∃ t, exec (.hostRead false da len) s = .next t ∧ t.host.hdm = true ∧
      if (r21 s [(da, len)]).isSome then
        t.host.reply = List.replicate len 0 ∧ t.host.replyPoisoned = true ∧ t.regs = (bump s 0 0x50010).regs ∧ t.mem = s.mem
      else
        let c := checkRead (s.onHost fun h => { h with hdm := true }) da len
        t.mem = c.2.mem ∧ t.host.replyPoisoned = c.1 ∧ (c.1 = false → da < farBase → t.host.reply = viewBytes c.2 da len) := by
  refine ⟨_, exec_hostRead_cxl h hl, ?_⟩
  have hr' : (inRegSpace da && decide (da + len ≤ regTop)) = false := by rw [hr, Bool.false_and]
  cases hv : r21 s [(da, len)] with
  | some st =>
    have B := bump_frame (hdmShown s) 0 0x50010 0
    rw [hostReadDa_invalid hr' (s := hdmShown s) hv]
    refine ⟨?_, ?_⟩
    · show (bump (hdmShown s) 0 0x50010).host.hdm = true
      rw [B.host rfl]; rfl
    · exact ⟨rfl, rfl, bump_regs_congr rfl, B.mem rfl⟩
  | none =>
    have C := checkRead_same (g₀ := { mem := true, regs := true, mu := true, sv := true, i3c := true, sounds := true, seqNo := true })
      (a := da) (n := len) (Same.refl _ (hdmShown s)) rfl rfl rfl rfl rfl rfl rfl
    have hc : (checkRead (hdmShown s) da len).2.host.hdm = true := by rw [C.host rfl]; rfl
    rw [hostReadDa_valid hr' (s := hdmShown s) hv]
    -- the statement's checked read is that of the state once the decoder is committed
    change _ ∧ (_ ∧ _ = (checkRead (hdmShown s) da len).1 ∧ ((checkRead (hdmShown s) da len).1 = false → _))
    cases hlost : (checkRead (hdmShown s) da len).1 with
    | true => exact ⟨hc, rfl, rfl, fun e => Bool.noConfusion e⟩
    | false => exact ⟨hc, rfl, rfl, fun _ hf => hostBytes_below_far hf⟩

/-- R351: a CXL.mem write outside register space. -/
theorem hostWrite_memory {da : Nat} {data : List Byte} {s : State} (h : hostUp s = true) (hd : data ≠ []) (hr : inRegSpace da = false) :
    ∃ t, exec (.hostWrite false da data) s = .next t ∧ t.host.hdm = true ∧
      (if (r21 s [(da, data.length)]).isSome || meets (da, data.length) (fwArea, gib) then t.mem = s.mem ∧ t.regs = (bump s 0 0x50010).regs
       else MemOk s → da < farBase → Stored s t da data) := by
  refine ⟨_, exec_hostWrite_cxl h hd, ?_⟩
  cases hv : (r21 s [(da, data.length)]).isSome || meets (da, data.length) (fwArea, gib) with
  | true =>
    have B := bump_frame (hdmShown s) 0 0x50010 0
    rw [hostWriteDa_refused hr (s := hdmShown s) hv]
    refine ⟨?_, ?_⟩
    · show (bump (hdmShown s) 0 0x50010).host.hdm = true
      rw [B.host rfl]; rfl
    · exact ⟨B.mem rfl, bump_regs_congr rfl⟩
  | false =>
    rw [hostWriteDa_memory hr (s := hdmShown s) hv]
    have W := writeWords_frame (storeMem (hdmShown s) da data) da data
    refine ⟨?_, fun hm hf => ?_⟩
    · split
      · rw [hostWriteFar_host]; rfl
      · rw [W.host rfl, storeMem_host]; rfl
    · have hnf : inFar da = false := by simp only [inFar, Bool.and_eq_false_iff, decide_eq_false_iff_not]; omega
      have hs : Stored s (storeMem (hdmShown s) da data) da data := ⟨fun x => cellByte_storeMem (hdmShown s) da x data hm, storeMem_posted ..⟩
      rw [hnf]
      exact stored_congr hs (W.mem rfl)

/-- R351: a CXL.mem read of register space. -/
theorem hostRead_registers {da len : Nat} {s : State} (h : hostUp s = true) (hl : len ≠ 0) (hr : inRegSpace da = true) (ht : da + len ≤ regTop) :
    ∃ t, exec (.hostRead false da len) s = .next t ∧ Same { host := true } s t ∧
      t.host.reply = readRegSpace (s.onHost fun h => { h with hdm := true }) da len ∧ t.host.replyPoisoned = false :=
  ⟨_, (exec_hostRead_cxl h hl).trans (congrArg _ (hostReadDa_registers hr ht)),
    hostReply_same (State.onHost_same (Same.refl _ s) rfl) rfl, rfl, rfl⟩

/-- R351: a CXL.mem write of a whole register. -/
theorem hostWrite_register {da : Nat} {data : List Byte} {s : State} (h : hostUp s = true) (hl : data.length = 8) (ha : da % 8 = 0)
    (hr : inRegSpace da = true) (ht : da + 8 ≤ regTop) :
    ∃ t, exec (.hostWrite false da data) s = .next t ∧
      t.regs = (writeReg (s.onHost fun h => { h with hdm := true }) (da % regBase / 2 ^ 32) (da % 2 ^ 32) .host (ofLe data)).regs := by
  have hd : data ≠ [] := List.ne_nil_of_length_pos (by omega)
  exact ⟨_, (exec_hostWrite_cxl h hd).trans (congrArg _ (hostWriteDa_reg hr ht hl ha)), rfl⟩

/-- R352: a BAR0 read of one of CMD's registers. -/
theorem hostRead_bar {addr len : Nat} {s : State} (h : hostUp s = true) (ha : addr < 0x1000000) (hl : len ≠ 0) :
    ∃ t, exec (.hostRead true addr len) s = .next t ∧
      if (len = 8 ∨ len = 4) ∧ addr % len = 0 then Same { host := true } s t ∧ t.host.reply = readRegBytes s 0 addr len ∧ t.host.replyPoisoned = false
      else t.regs = (bump s 0 0x50010).regs ∧ t.host.reply.length = len := by
  refine ⟨_, exec_hostRead_bar h ha hl, ?_⟩
  by_cases hw : (len = 8 ∨ len = 4) ∧ addr % len = 0
  · rw [if_pos hw, if_pos (by simpa using hw)]
    exact ⟨hostReply_same (Same.refl _ s) rfl, rfl, rfl⟩
  · rw [if_neg hw, if_neg (by simpa using hw)]
    exact ⟨rfl, leBytes_length ..⟩

/-- R352: a BAR0 write of one of CMD's registers. -/
theorem hostWrite_bar {addr : Nat} {data : List Byte} {s : State} (h : hostUp s = true) (ha : addr < 0x1000000) (hd : data ≠ []) :
    if data.length = 8 ∧ addr % 8 = 0 then exec (.hostWrite true addr data) s = .next (writeReg s 0 addr .host (ofLe data))
    else ∃ t, exec (.hostWrite true addr data) s = .next t ∧ t.regs = (bump s 0 0x50010).regs ∧ t.mem = s.mem := by
  rw [exec_hostWrite_bar h ha hd]
  by_cases hw : data.length = 8 ∧ addr % 8 = 0
  · rw [if_pos hw, if_pos (by simpa using hw)]
  · rw [if_neg hw, if_neg (by simpa using hw)]
    exact ⟨_, rfl, rfl, (bump_frame s 0 0x50010 0).mem rfl⟩

/-! CMD cores (R341, R508). -/

/-- An access that is not 1, 2, 4 or 8 aligned bytes of a core. -/
theorem core_malformed {core da : Nat} {agent : Agent} {data : List Byte} {len : Nat} {s : State} (h : coreAccess core da len = false) :
    exec (.coreLoad core agent da len) s = .next s ∧ (data.length = len → exec (.coreStore core agent da data) s = .next s) :=
  ⟨congrArg Host.Outcome.next (if_pos (by simp [h])), fun hl => congrArg Host.Outcome.next (if_pos (by simp [hl, h]))⟩

/-- A load that U-mode may not make. -/
theorem coreLoad_fault {core da len : Nat} {s : State} (h : coreAccess core da len = true) (hu : userFault s da len false = true) :
    exec (.coreLoad core .uMode da len) s = .next (coreAnswer s core [] true) :=
  congrArg Host.Outcome.next ((if_neg (by simp [h])).trans (if_pos (by simp [hu])))

/-- A store that U-mode may not make. -/
theorem coreStore_fault {core da : Nat} {data : List Byte} {s : State} (h : coreAccess core da data.length = true)
    (hu : userFault s da data.length true = true) : exec (.coreStore core .uMode da data) s = .next (coreAnswer s core [] true) :=
  congrArg Host.Outcome.next ((if_neg (by simp [h])).trans (if_pos (by simp [hu])))

/-- The check on U-mode passes an access of another mode, and one that it finds nothing against. -/
theorem core_allowed {agent : Agent} {f : Bool} (h : agent ≠ .uMode ∨ f = false) : ¬(decide (agent = .uMode) && f) = true := by
  rcases h with h | h <;> simp [h]

/-- A load of register space returns the registers. -/
theorem coreLoad_registers {core da len : Nat} {agent : Agent} {s : State} (h : coreAccess core da len = true)
    (hu : agent ≠ .uMode ∨ userFault s da len false = false) (hr : inRegSpace da = true) :
    exec (.coreLoad core agent da len) s = .next (coreAnswer s core (readRegSpace s da len) false) :=
  congrArg Host.Outcome.next ((if_neg (by simp [h])).trans ((if_neg (core_allowed hu)).trans (if_pos hr)))

/-- A load of a DA that is not valid returns free bytes. -/
theorem coreLoad_invalid {core da len st : Nat} {agent : Agent} {s : State} (h : coreAccess core da len = true)
    (hu : agent ≠ .uMode ∨ userFault s da len false = false) (hr : inRegSpace da = false) (hv : r21 s [(da, len)] = some st) :
    exec (.coreLoad core agent da len) s = .next (coreAnswer s.took core (freeBytes s len) false) :=
  congrArg Host.Outcome.next ((if_neg (by simp [h])).trans ((if_neg (core_allowed hu)).trans ((if_neg (by simp [hr])).trans
    (if_pos (by simp [hv])))))

/-- A load of valid memory returns its bytes, or free bytes where data is lost. -/
theorem coreLoad_valid {core da len : Nat} {agent : Agent} {s : State} (h : coreAccess core da len = true)
    (hu : agent ≠ .uMode ∨ userFault s da len false = false) (hr : inRegSpace da = false) (hv : r21 s [(da, len)] = none) :
    let c := checkRead s da len
    exec (.coreLoad core agent da len) s =
      .next (if c.1 then coreAnswer c.2.took core (freeBytes c.2 len) false else coreAnswer c.2 core (viewBytes c.2 da len) false) :=
  congrArg Host.Outcome.next ((if_neg (by simp [h])).trans ((if_neg (core_allowed hu)).trans ((if_neg (by simp [hr])).trans
    (if_neg (by simp [hv])))))

/-- R341: a load that the core may make. -/
theorem coreLoad_answers {core da len : Nat} {agent : Agent} {s : State} (h : coreAccess core da len = true)
    (hu : agent ≠ .uMode ∨ userFault s da len false = false) :
    ∃ t, exec (.coreLoad core agent da len) s = .next t ∧ t.cores.reply.core = core ∧ t.cores.reply.fault = false ∧
      t.cores.reply.data.length = len ∧
      (inRegSpace da = true → t.cores.reply.data = readRegSpace s da len ∧ t.mem = s.mem) ∧
      (inRegSpace da = false → r21 s [(da, len)] = none → t.mem = (checkRead s da len).2.mem ∧
        ((checkRead s da len).1 = false → t.cores.reply.data = viewBytes (checkRead s da len).2 da len)) := by
  cases hr : inRegSpace da with
  | true => exact ⟨_, coreLoad_registers h hu hr, rfl, rfl, regSpace_length .., fun _ => ⟨rfl, rfl⟩, fun e => Bool.noConfusion e⟩
  | false =>
    cases hv : r21 s [(da, len)] with
    | some st => exact ⟨_, coreLoad_invalid h hu hr hv, rfl, rfl, leBytes_length .., fun e => Bool.noConfusion e, fun _ e => nomatch e⟩
    | none =>
      refine ⟨_, coreLoad_valid h hu hr hv, ?_⟩
      cases hlost : (checkRead s da len).1 with
      | true => exact ⟨rfl, rfl, leBytes_length .., fun e => Bool.noConfusion e, fun _ _ => ⟨rfl, fun e => Bool.noConfusion e⟩⟩
      | false => exact ⟨rfl, rfl, by simp [coreAnswer, viewBytes], fun e => Bool.noConfusion e, fun _ _ => ⟨rfl, fun _ => rfl⟩⟩

/-- A store in register space writes a whole register, and nothing of a part of one. -/
theorem coreStore_registers {core da : Nat} {agent : Agent} {data : List Byte} {s : State} (h : coreAccess core da data.length = true)
    (hu : agent ≠ .uMode ∨ userFault s da data.length true = false) (hr : inRegSpace da = true) :
    exec (.coreStore core agent da data) s =
      .next (coreAnswer (if data.length = 8 then writeReg s (da % regBase / 2 ^ 32) (da % 2 ^ 32) agent (ofLe data) else s) core [] false) :=
  congrArg Host.Outcome.next ((if_neg (by simp [h])).trans ((if_neg (core_allowed hu)).trans (if_pos hr)))

/-- Any other store leaves the core as a WRITE. -/
theorem coreStore_sent {core da : Nat} {agent : Agent} {data : List Byte} {s : State} (h : coreAccess core da data.length = true)
    (hu : agent ≠ .uMode ∨ userFault s da data.length true = false) (hr : inRegSpace da = false) :
    exec (.coreStore core agent da data) s = .next (sendStore s core da data) :=
  congrArg Host.Outcome.next ((if_neg (by simp [h])).trans ((if_neg (core_allowed hu)).trans (if_neg (by simp [hr]))))

/-- R341: a store that the core may make. -/
theorem coreStore_does {core da : Nat} {agent : Agent} {data : List Byte} {s : State} (h : coreAccess core da data.length = true)
    (hu : agent ≠ .uMode ∨ userFault s da data.length true = false) :
    ∃ t, exec (.coreStore core agent da data) s = .next t ∧
      if inRegSpace da then
        (data.length = 8 → t.regs = (writeReg s (da % regBase / 2 ^ 32) (da % 2 ^ 32) agent (ofLe data)).regs) ∧
        (data.length ≠ 8 → Same { cores := true } s t)
      else
        let r : OutReq := { die := 0, tag := newTag s 0, dst := dieOfAddr da, kind := rkWrite, resv := 1, flits := 1, far := inFar da }
        if reqRoom s r then t.gz.out = s.gz.out ++ [r] ∧ t.cores.stores = s.cores.stores ++ [(core, r.tag)] ∧
          t.gz.flits = s.gz.flits ++ [{ op := 0x02, tc := 2, dst := r.dst, src := 0, tag := r.tag, da := da, plen := data.length, payload := data }]
        else t = s := by
  cases hr : inRegSpace da with
  | true =>
    refine ⟨_, coreStore_registers h hu hr, fun h8 => ?_, fun h8 => ?_⟩
    · rw [if_pos h8]; rfl
    · rw [if_neg h8]; exact coreAnswer_same (Same.refl _ s) rfl
  | false =>
    refine ⟨_, coreStore_sent h hu hr, ?_⟩
    rw [if_neg Bool.false_ne_true]
    intro r
    unfold sendStore
    by_cases hroom : reqRoom s r = true
    · rw [if_pos hroom, if_neg (by simpa using hroom)]; exact ⟨rfl, rfl, rfl⟩
    · rw [if_neg hroom, if_pos (by simpa using hroom)]

/-- R274: a fence waits while its core has stores outstanding, and then retires. -/
theorem coreFence_does {core : Nat} {s : State} :
    (48 ≤ core ∨ s.cores.stores.any (·.1 == core) = true → exec (.coreFence core) s = .next s) ∧
    (core < 48 → s.cores.stores.any (·.1 == core) = false → ∃ t, exec (.coreFence core) s = .next t ∧ Same { cores := true } s t ∧
      t.cores = { s.cores with fences := s.cores.fences ++ [core] }) := by
  refine ⟨fun h => congrArg Host.Outcome.next (if_neg ?_), fun hc hs => ⟨_, congrArg Host.Outcome.next (if_pos ?_), ?_, rfl⟩⟩
  · rcases h with h | h
    · simp only [Bool.and_eq_true, decide_eq_true_eq]; omega
    · rw [h]; simp
  · rw [hs]; simpa using hc
  · exact State.onCores_same (Same.refl _ s) rfl

/-- Settles O48: each access by where it leads. -/
theorem hostAndCores : Obligations.HostAndCores :=
  ⟨fun bar addr len data _ h => host_down h bar addr len data,
   fun _ _ _ => hostRead_memory,
   fun _ _ _ => hostWrite_memory,
   fun _ _ _ => hostRead_registers,
   fun _ _ _ => hostWrite_register,
   fun _ _ _ => hostRead_bar,
   fun _ _ _ => hostWrite_bar,
   fun _ _ _ _ _ _ => core_malformed,
   fun _ _ _ _ s h hl => ⟨fun hu => ⟨_, coreLoad_fault h hu, coreAnswer_same (Same.refl _ s) rfl, rfl⟩,
     fun hu => ⟨_, coreStore_fault (hl ▸ h) (hl ▸ hu), coreAnswer_same (Same.refl _ s) rfl, rfl⟩⟩,
   fun _ _ _ _ _ => coreLoad_answers,
   fun _ _ _ _ _ => coreStore_does,
   fun _ _ => coreFence_does⟩

end Sys2Proof.Machine
end

section
/-!
PROOFS. The obligations of family 01_package_and_dies: route banks, buffer depths, receivers and Datum, the links and the messages of Gauze,
and what upkeep, fault events and Gauze messages leave unchanged.
-/

namespace Sys2Proof.Machine

open Sys2Proof

/-! Route banks, buffer depths and receivers (R39, R45, R320). -/

/-- R39: SWAP exchanges the route banks of its die alone. -/
theorem swap_exchanges {d : Nat} {v : Word64} {s : State} (hup : dieUp s d = true) (hv : bit v.toNat 0 = true) :
    ∃ t, exec (.swap d v) s = .next t ∧ Same { gz := true } s t ∧ t.gz.routes = s.gz.routes ∧
      activeBank t d = 1 - activeBank s d ∧ ∀ e, e ≠ d → activeBank t e = activeBank s e :=
  ⟨_, congrArg Host.Outcome.next ((if_pos hup).trans (if_pos hv)), State.onGz_same (Same.refl _ s) rfl, rfl, look0_put_self ..,
    fun _ he => look0_put_ne _ _ _ _ he⟩

theorem swap_idle {d : Nat} {v : Word64} {s : State} (hup : dieUp s d = true) (hv : bit v.toNat 0 = false) :
    exec (.swap d v) s = .next s :=
  congrArg Host.Outcome.next ((if_pos hup).trans (if_neg (by simp [hv])))

/-- The depths of the classes in l noted one after another: each of them is found, under its own key. -/
theorem look_newDepths (g : Nat → Nat) (d k : Nat) (l : List Nat) : ∀ s : State,
    look (l.foldl (fun s t => s.onGz fun z => { z with newDepths := put z.newDepths (d * 8 + t) (g t) }) s).gz.newDepths (d * 8 + k) =
      if k ∈ l then some (g k) else look s.gz.newDepths (d * 8 + k) := by
  induction l with
  | nil => exact fun s => rfl
  | cons a l ih =>
    intro s
    rw [List.foldl_cons, ih, State.onGz_gz, look_put]
    by_cases hl : k ∈ l
    · simp [hl]
    · by_cases hk : k = a
      · simp [hk]
      · simp [hl, hk]

/-- R45: TC_CREDIT_WRITE at step 10 of a load notes the five depths. -/
theorem tcCreditWrite_notes {d : Nat} {a : Agent} {v : Word64} {s : State} (hup : dieUp s d = true) (ha : a = .mMode)
    (hs : atStepTen s = true) (hd : (depthsOf v.toNat).sum ≤ 160) :
    ∃ t, exec (.tcCreditWrite d a v) s = .next t ∧ Same { gz := true } s t ∧
      ∀ k, k < 5 → look t.gz.newDepths (d * 8 + k) = (depthsOf v.toNat)[k]? := by
  refine ⟨_, congrArg Host.Outcome.next ((if_pos hup).trans (if_pos (by simp [ha, hs, hd]))),
    foldl_same (Same.refl _ s) fun _ _ k => State.onGz_same k rfl, fun k hk => ?_⟩
  have hlen : k < (depthsOf v.toNat).length := by simpa [depthsOf] using hk
  rw [look_newDepths (fun t => (depthsOf v.toNat).getD t 0), if_pos (List.mem_range.mpr hk), List.getD_eq_getElem?_getD,
    List.getElem?_eq_getElem hlen, Option.getD_some]

theorem tcCreditWrite_discarded {d : Nat} {a : Agent} {v : Word64} {s : State} (hup : dieUp s d = true)
    (h : a ≠ .mMode ∨ atStepTen s = false ∨ 160 < (depthsOf v.toNat).sum) : exec (.tcCreditWrite d a v) s = .next s := by
  refine congrArg Host.Outcome.next ((if_pos hup).trans (if_neg ?_))
  rcases h with h | h | h <;> simp [h]

/-- R320: REJOIN of the first detached receiver that GZ.MC_SEL names. -/
theorem rejoin_attaches {d : Nat} {v : Word64} {s : State} {m : Rec} (hup : dieUp s d = true) (hv : bit v.toNat 0 = true)
    (hm : (selMembers s d).find? (fun m => !(mcRecvOf s m).attached) = some m) :
    ∃ t, exec (.rejoin d v) s = .next t ∧ mcRecvOf t m = rejoined m (joinAt s m) (mcRecvOf s m) ∧ (mcRecvOf t m).attached = true ∧
      (mcRecvOf t m).join = roundUp (look0 s.gz.mcPos (fld m 0)) 65536 ∧
      ringOf t (fld m 4) = { ringOf s (fld m 4) with resv := (ringOf s (fld m 4)).resv + 1 } := by
  have hrun : exec (.rejoin d v) s =
      .next (reserveSlot (jumpRemote (setRecv s m (rejoined m (joinAt s m))) m (joinAt s m)) (fld m 4)) := by
    refine congrArg Host.Outcome.next ((if_pos hup).trans ?_)
    unfold writeMcCtl
    rw [hm]
    exact if_pos hv
  have hj : Same { rings := true } (setRecv s m (rejoined m (joinAt s m))) (jumpRemote (setRecv s m (rejoined m (joinAt s m))) m (joinAt s m)) :=
    jumpRemote_same (Same.refl _ _) rfl
  have hrecv : mcRecvOf (reserveSlot (jumpRemote (setRecv s m (rejoined m (joinAt s m))) m (joinAt s m)) (fld m 4)) m =
      rejoined m (joinAt s m) (mcRecvOf s m) := by
    show lookD (jumpRemote _ _ _).gz.mcRecv _ _ = _
    rw [hj.gz rfl]
    exact lookD_put_self ..
  have hflags : ∀ (j : Nat) (r : McRecv), (rejoined m j r).attached = true ∧ (rejoined m j r).join = j := by
    intro j r; unfold rejoined; dsimp only; split <;> exact ⟨rfl, rfl⟩
  refine ⟨_, hrun, hrecv, ?_, ?_, ?_⟩
  · rw [hrecv]; exact (hflags _ _).1
  · rw [hrecv]; exact (hflags _ _).2
  · unfold reserveSlot
    rw [ringOf_setRing]
    have hring : ringOf (jumpRemote (setRecv s m (rejoined m (joinAt s m))) m (joinAt s m)) (fld m 4) = ringOf s (fld m 4) := by
      unfold ringOf; rw [hj.qm rfl]; rfl
    rw [hring]

theorem rejoin_idle {d : Nat} {v : Word64} {s : State} (hup : dieUp s d = true)
    (h : bit v.toNat 0 = false ∨ (selMembers s d).find? (fun m => !(mcRecvOf s m).attached) = none) :
    exec (.rejoin d v) s = .next s := by
  refine congrArg Host.Outcome.next ((if_pos hup).trans ?_)
  unfold writeMcCtl
  split
  · rfl
  next m hm =>
    rcases h with h | h
    · exact if_neg (by simp [h])
    · exact absurd (hm.symm.trans h) (by simp)

/-! Clocks and Datum (R55, R60, R63). -/

/-- R55: CK_PLAN_WRITE from CMD firmware on a quiesced die. -/
theorem ckPlanWrite_stores {d : Nat} {a : Agent} {v : Word64} {s : State} (hup : dieUp s d = true) (hd : d ≠ 1) (ha : a = .mMode)
    (hq : dieQuiesced s d = true) : ∃ t, exec (.ckPlanWrite d a v) s = .next t ∧ Same { ck := true } s t ∧
      t.ck = { s.ck with plan := put s.ck.plan d (if isTw d then bits v.toNat 1 0 else if isMu d then 16 * bits v.toNat 4 4 else 0) } :=
  ⟨_, congrArg Host.Outcome.next ((if_pos (by simp [hup, hd])).trans (if_pos (by simp [ha, hq]))), State.onCk_same (Same.refl _ s) rfl, rfl⟩

theorem ckPlanWrite_discarded {d : Nat} {a : Agent} {v : Word64} {s : State} (hup : dieUp s d = true) (hd : d ≠ 1)
    (h : a ≠ .mMode ∨ dieQuiesced s d = false) : exec (.ckPlanWrite d a v) s = .next s := by
  refine congrArg Host.Outcome.next ((if_pos (by simp [hup, hd])).trans (if_neg ?_))
  rcases h with h | h <;> simp [h]

theorem requestDatum_frame (s : State) : Same { ck := true, sounds := true, seqNo := true } s (requestDatum s) :=
  requestDatum_same (Same.refl _ s) rfl rfl rfl

/-- R60: a FIRE queues one request, or is dropped and counted. -/
theorem datumCtlFire_queues {s : State} (hup : dieUp s 0 = true) :
    ∃ t, exec .datumCtlFire s = .next t ∧ Same { ck := true, sounds := true, seqNo := true } s t ∧
    (s.ck.pending < 16 ∨ s.ck.dropCnt ≠ 2 ^ 48 - 1 → t.sounds = s.sounds ∧ t.seqNo = s.seqNo) ∧
    (16 ≤ s.ck.pending → s.ck.dropCnt = 2 ^ 48 - 1 → t.sounds = (emitSounding s 0 63 1 [regBase + 0x4030, 0]).sounds) ∧
    (s.ck.pending < 16 → t.ck = { s.ck with pending := s.ck.pending + 1 }) ∧
    (16 ≤ s.ck.pending → t.ck = { s.ck with dropCnt := min (s.ck.dropCnt + 1) (2 ^ 48) }) :=
  have ⟨hsilent, hsounds⟩ := requestDatum_sounds s
  ⟨_, congrArg Host.Outcome.next (if_pos hup), requestDatum_frame s, hsilent, hsounds,
    fun h => (requestDatum_ck s).trans (if_pos h), fun h => (requestDatum_ck s).trans (if_neg (by omega))⟩

/-- R63: RESYNC, with the FIRE of the same write after it. -/
theorem resync_does {f : Bool} {s : State} (hup : dieUp s 0 = true) :
    ∃ t, exec (.resync f) s = .next t ∧ t.ck.count = [] ∧ t.ck.err = [] ∧ t.ck.sent = 0 ∧ t.ck.pending = b2n f ∧
      ∀ x, x ∈ t.qm.disp → x.armed = true → x.started = false → x.unit.die ∉ datumDies := by
  obtain ⟨hcount, herr, hsent, hpend, harmed⟩ := resyncDatum_is s
  have hrun : exec (.resync f) s = .next (if f then requestDatum (resyncDatum s) else resyncDatum s) := by
    refine congrArg Host.Outcome.next ((if_pos hup).trans ?_)
    cases f <;> rfl
  refine ⟨_, hrun, ?_⟩
  cases f with
  | false => exact ⟨hcount, herr, hsent, hpend, harmed⟩
  | true =>
    have hck : (requestDatum (resyncDatum s)).ck = { (resyncDatum s).ck with pending := (resyncDatum s).ck.pending + 1 } :=
      (requestDatum_ck _).trans (if_pos (by omega))
    have hqm : (requestDatum (resyncDatum s)).qm = (resyncDatum s).qm := (requestDatum_frame _).qm rfl
    simp only [if_true, hck, hqm]
    exact ⟨hcount, herr, hsent, by rw [hpend]; rfl, harmed⟩

/-- Settles O29: each write by its condition. -/
theorem clockAndRouterWrites : Obligations.ClockAndRouterWrites :=
  ⟨fun _ _ _ hup => ⟨swap_exchanges hup, swap_idle hup⟩,
   fun _ _ _ _ hup => ⟨tcCreditWrite_notes hup, tcCreditWrite_discarded hup⟩,
   fun _ _ _ _ hup hd => ⟨ckPlanWrite_stores hup hd, ckPlanWrite_discarded hup hd⟩,
   fun _ _ _ hup => ⟨fun _ => rejoin_attaches hup, rejoin_idle hup⟩,
   fun _ => datumCtlFire_queues,
   fun _ _ => resync_does⟩

/-! A port's credits, replays, spare lanes and state (R29, R32, R33, R303). -/

/-- A port that is not up is neither UP_FULL nor UP_HALF. -/
theorem portUp_eq_false {s : State} {d p : Nat} : portUp s d p = false ↔ portState s d p ≠ 3 ∧ portState s d p ≠ 4 := by
  simp [portUp]

/-- A credit return of no class, or at a port that is not up. -/
theorem credit_idle {die port tc n : Nat} {s : State} (h : portUp s die port = false ∨ 4 < tc) : exec (.credit die port tc n) s = .next s :=
  congrArg Host.Outcome.next (if_pos (by rcases h with h | h <;> simp [h]))

/-- R303: a credit return at a port that is up. -/
theorem exec_credit {die port tc n : Nat} {s : State} (hup : portUp s die port = true) (htc : tc ≤ 4) :
    exec (.credit die port tc n) s = .next (returnCredits s die port tc n) :=
  congrArg Host.Outcome.next (if_neg (by simp [hup, htc]))

/-- The credits returned are bounded by the depth of the buffer at the other end. -/
theorem credits_returnCredits (s : State) (d p tc n : Nat) :
    credits (returnCredits s d p tc n) d p tc = min (credits s d p tc + n) (match linkPeer d p with | some e => depthOf s e tc | none => 0) :=
  lookD_put_self ..

theorem occupancy_returnCredits (s : State) (d p tc n : Nat) :
    look0 (returnCredits s d p tc n).gz.occupancy (creditKey d p tc) = look0 s.gz.occupancy (creditKey d p tc) - n :=
  look0_put_self ..

/-- What FLIT_CRC_ERROR reads as the number of replays in a row. -/
def replayCount (s : State) (die port : Nat) (again : Bool) : Nat := if again then look0 s.gz.replays (die * 16 + port) + 1 else 0

/-- A CRC error counted, before the port may fail: the injection spent, CRC_CNT raised and the replays in a row noted. -/
def crcCounted (s : State) (die port n : Nat) : State :=
  (bump (if port = 0 then spendInjection s die else s) die 0x1028).onGz fun g => { g with replays := put g.replays (die * 16 + port) n }

/-- The port fails with the sixteenth replay in a row (R33). -/
theorem exec_flitCrcError {die port : Nat} {again : Bool} {s : State} (hup : portUp s die port = true) :
    exec (.flitCrcError die port again) s =
      .next (let n := replayCount s die port again
             let u := crcCounted s die port n
             if 16 ≤ n then failPort (u.onGz fun g => { g with replays := del g.replays (die * 16 + port) }) die port else u) :=
  congrArg Host.Outcome.next (if_neg (by simp [hup]))

/-- Counting a CRC error raises CRC_CNT, notes the replays, and leaves the links and what is in flight alone. -/
theorem crcCounted_is (s : State) (die port n : Nat) :
    (crcCounted s die port n).regs = (bump s die 0x1028).regs ∧ (crcCounted s die port n).pkg = s.pkg ∧
    (crcCounted s die port n).gz = { s.gz with replays := put s.gz.replays (die * 16 + port) n } := by
  have X : Same { sv := true } s (if port = 0 then spendInjection s die else s) :=
    ite_same (State.onSv_same (Same.refl _ s) rfl) (Same.refl _ s)
  have B := bump_frame (if port = 0 then spendInjection s die else s) die 0x1028 0
  exact ⟨bump_regs_congr (X.regs rfl), (B.pkg rfl).trans (X.pkg rfl),
    congrArg (fun g : Gauze => { g with replays := put g.replays (die * 16 + port) n }) ((B.gz rfl).trans (X.gz rfl))⟩

/-- R33: a CRC error at a port that is up. -/
theorem flitCrcError_counts {die port : Nat} {again : Bool} {s : State} (hup : portUp s die port = true)
    (hr : rising none s.gz.replays = true) :
    ∃ t, exec (.flitCrcError die port again) s = .next t ∧ t.regs = (bump s die 0x1028).regs ∧
      let n := if again then look0 s.gz.replays (die * 16 + port) + 1 else 0
      (n < 16 → look0 t.gz.replays (die * 16 + port) = n ∧ t.gz.flits = s.gz.flits ∧ t.pkg = s.pkg) ∧
      (16 ≤ n → look t.gz.replays (die * 16 + port) = none ∧ portState t die port = 5 ∧ srcLink die ∈ t.sv.sticky ∧
        ∀ e q, linkPeer die port = some e → portTo e die = some q → portState t e q = 5) := by
  obtain ⟨hregs, hpkg, hgz⟩ := crcCounted_is s die port (replayCount s die port again)
  refine ⟨_, exec_flitCrcError hup, ?_⟩
  change _ ∧ (replayCount s die port again < 16 → _) ∧ (16 ≤ replayCount s die port again → _)
  dsimp only
  by_cases hn : 16 ≤ replayCount s die port again
  · rw [if_pos hn]
    obtain ⟨h1, h2, h3, h4, h5⟩ := failPort_is ((crcCounted s die port (replayCount s die port again)).onGz
      fun g => { g with replays := del g.replays (die * 16 + port) }) die port
    refine ⟨h3.trans hregs, fun h => absurd hn (by omega), fun _ => ⟨?_, h1, h2, h5⟩⟩
    rw [h4, State.onGz_gz, hgz]
    exact look_del_self _ _ (put_rising _ _ _ hr)
  · rw [if_neg hn]
    refine ⟨hregs, fun _ => ⟨?_, ?_, hpkg⟩, fun h => absurd h hn⟩
    · rw [hgz]; exact look0_put_self ..
    · rw [hgz]

/-- R29: a spare lane of a port that is up is used up. -/
theorem laneRepair_uses {die port : Nat} {s : State} (hup : portUp s die port = true) :
    ∃ t, exec (.laneRepair die port) s = .next t ∧ Same { pkg := true } s t ∧
      look0 t.pkg.laneRepairs (die * 16 + port) = look0 s.pkg.laneRepairs (die * 16 + port) + 1 ∧ t.pkg.portState = s.pkg.portState :=
  ⟨_, congrArg Host.Outcome.next (if_pos hup), State.onPkg_same (Same.refl _ s) rfl, look0_put_self .., rfl⟩

/-- R32: a link that is UP_FULL goes on at half rate, at both ends. -/
theorem laneRepairExhausted_half {die port : Nat} {s : State} (h : portState s die port = 3) :
    ∃ t, exec (.laneRepairExhausted die port) s = .next t ∧ portState t die port = 4 ∧
      srcLink die ∈ t.sv.sticky ∧ t.gz = s.gz ∧ ∀ e q, linkPeer die port = some e → portTo e die = some q → portState t e q = 4 := by
  have hL : Same { pkg := true } s (setLink s die port 4) := setLink_same (Same.refl _ s) rfl
  have hS := sticky_frame (legendUpdate (setLink s die port 4)) (srcLink die)
  have hp : (setSticky (legendUpdate (setLink s die port 4)) (srcLink die)).pkg.portState = (setLink s die port 4).pkg.portState := by
    rw [hS.pkg rfl, legend_port]
  refine ⟨_, congrArg Host.Outcome.next (if_pos h), ?_, setSticky_mem .., ?_, fun e q h1 h2 => ?_⟩
  · unfold portState; rw [hp]; exact setLink_port ..
  · rw [hS.gz rfl, (legend_frame _).gz rfl, hL.gz rfl]
  · unfold portState; rw [hp]; exact setLink_peer h1 h2

/-- A link at half rate fails. -/
theorem laneRepairExhausted_failed {die port : Nat} {s : State} (h : portState s die port = 4) :
    ∃ t, exec (.laneRepairExhausted die port) s = .next t ∧ portState t die port = 5 ∧ srcLink die ∈ t.sv.sticky ∧
      ∀ e q, linkPeer die port = some e → portTo e die = some q → portState t e q = 5 := by
  obtain ⟨h1, h2, _, _, h5⟩ := failPort_is s die port
  exact ⟨_, congrArg Host.Outcome.next ((if_neg (by simp [h])).trans (if_pos h)), h1, h2, h5⟩

/-- Settles O45: each of the four by the state of its port. -/
theorem linkEvents : Obligations.LinkEvents :=
  ⟨fun die port tc n s => ⟨credit_idle, fun hup htc => ⟨_, exec_credit hup htc, returnCredits_same (Same.refl _ s) rfl,
     credits_returnCredits s die port tc n, occupancy_returnCredits s die port tc n, rfl, rfl⟩⟩,
   fun _ _ _ _ h => congrArg Host.Outcome.next (if_pos (by simp [h])),
   fun _ _ _ _ => flitCrcError_counts,
   fun _ _ _ => ⟨fun h => congrArg Host.Outcome.next (if_neg (by simp [h])), laneRepair_uses⟩,
   fun _ _ _ => ⟨laneRepairExhausted_half, laneRepairExhausted_failed, fun h =>
     have ⟨h3, h4⟩ := portUp_eq_false.mp h
     congrArg Host.Outcome.next ((if_neg h3).trans (if_neg h4))⟩⟩

/-! Gauze messages at their destinations (R40, R163, R164, R180, R183, R305, R308, R309, R392). -/

/-- READ_RESP to the sender of a READ, without data. -/
def respFlit (g : Flit) : Flit := { op := 0x04, tc := 1, dst := g.src, src := g.dst, panel := g.panel, tag := g.tag, da := g.da }

/-- The READ_RESP flits that carry bs, up to 192 bytes each. -/
def dataFlits (g : Flit) (p : Nat) (bs : List Byte) : List Flit := (List.range (ceilDiv bs.length 192)).map fun i =>
  { respFlit g with panel := p, da := g.da + 192 * i, plen := ((bs.drop (192 * i)).take 192).length, payload := (bs.drop (192 * i)).take 192 }

/-- The WRITE_ACK to the sender of a WRITE. -/
def ackFlit (g : Flit) : Flit := { op := 0x05, tc := 1, dst := g.src, src := g.dst, panel := g.panel, tag := g.tag, da := g.da }

/-- The COMPLETION that refuses a message. -/
def refusalFlit (g : Flit) (st : Nat) : Flit :=
  { op := 0x06, tc := 0, dst := g.src, src := g.dst, panel := g.panel, tag := g.tag, da := g.da, status := st }

/-! READ. -/

/-- A READ that arrives at a die that is up, and is no REG_READ, is served there. -/
theorem exec_read {f g : Flit} {s a : State} (h : arrive s (asOp 0x01 [0x07] f) = (some g, a)) (hup : dieUp a g.dst = true)
    (hop : g.op ≠ 0x07) : exec (.read f) s = .next (serveRead a g (asOp 0x01 [0x07] f).via) := by
  refine congrArg Host.Outcome.next ?_
  rw [h]
  exact (if_neg (by simp [hup])).trans (if_neg hop)

/-- What data answered sends. -/
theorem respondData_flits (s : State) (g : Flit) (p : Nat) (bs : List Byte) :
    (respondData s g p bs).gz.flits = s.gz.flits ++ dataFlits g p bs := respond_flits ..

theorem respondData_mem (s : State) (g : Flit) (p : Nat) (bs : List Byte) : (respondData s g p bs).mem = s.mem := respond_mem ..

/-- A checked read sends nothing. -/
theorem checkRead_gz (s : State) (a n : Nat) : (checkRead s a n).2.gz = s.gz :=
  (checkRead_same (g₀ := { mem := true, regs := true, mu := true, sv := true, i3c := true, sounds := true, seqNo := true })
    (Same.refl _ s) rfl rfl rfl rfl rfl rfl rfl).gz rfl

/-- Memory read at the die that holds it: OPARG bit 0 where data is lost, else the data. -/
theorem readMemory_flits (s : State) (g : Flit) (a n : Nat) : (readMemory s g a n).2.gz.flits = s.gz.flits ++
    (if (checkRead s a n).1 then [{ respFlit g with oparg := 1 }] else dataFlits g g.panel (viewBytes (checkRead s a n).2 a n)) := by
  have hgz := congrArg Gauze.flits (checkRead_gz s a n)
  unfold readMemory
  dsimp only
  split
  · exact congrArg (· ++ [_]) hgz
  · rw [respondData_flits, hgz]

theorem readMemory_mem (s : State) (g : Flit) (a n : Nat) : (readMemory s g a n).2.mem = (checkRead s a n).2.mem := by
  unfold readMemory
  dsimp only
  split
  · rfl
  · exact respondData_mem ..

/-- A row counted as read at its owner. -/
def rowCounted (s : State) (k t row : Nat) : State := hotAdd (survey s k t row 0x110A0 1) k t row 1

theorem rowCounted_gz (s : State) (k t row : Nat) : (rowCounted s k t row).gz = s.gz :=
  (hotAdd_same (g₀ := { regs := true, mu := true, sounds := true, seqNo := true }) (survey_same (Same.refl _ s) rfl rfl rfl) rfl).gz rfl

/-- A READ of a row at its owner: by whether the row is POISONED, and where its record rests. -/
theorem readRow_flits (s : State) (g : Flit) (k t row da n : Nat) :
    let b := rowCounted s k t row
    let e := dirOrHome b k t row da
    (readRow s g k t row da n).gz.flits = s.gz.flits ++
      (if e.poisoned then [{ respFlit g with oparg := 1 }]
       else if dieOfAddr e.dest = g.dst then
         (if (checkRead b e.dest n).1 then [{ respFlit g with oparg := 1 }] else dataFlits g g.panel (viewBytes (checkRead b e.dest n).2 e.dest n))
       else [{ g with dst := dieOfAddr e.dest, da := e.dest, via := some g.dst }]) := by
  intro b e
  have hb : b.gz.flits = s.gz.flits := congrArg Gauze.flits (rowCounted_gz s k t row)
  have hrun : readRow s g k t row da n =
      if e.poisoned then respond b g g.panel g.da 1 []
      else if dieOfAddr e.dest = g.dst then
        (if (readMemory b g e.dest n).1 then markPoisoned (readMemory b g e.dest n).2 k t row da else (readMemory b g e.dest n).2)
      else noteFwd (sendFlit b { g with dst := dieOfAddr e.dest, da := e.dest, via := some g.dst }) g.dst := rfl
  rw [hrun]
  split
  · exact congrArg (· ++ [_]) hb
  · split
    · rw [← hb, ← readMemory_flits]
      split
      · exact markPoisoned_flits ..
      · rfl
    · exact congrArg (· ++ [_]) hb

/-- A READ served where no link die takes it out: by what its address means at the die. -/
theorem serveRead_here {a : State} {g : Flit} (ho : outbound g = none) : serveRead a g none =
    match readAt a g.dst g.da g.oparg with
    | .bad st => refuse a g st
    | .row t row => readRow a g (g.dst - 18) t row g.da g.oparg
    | .slot i =>
      let p := answerPanel a g ((slotPlace a g.dst i).map (·.1))
      (match readSlot a g.dst i g.oparg with
       | (some bs, b) => respondData b g p bs
       | (none, b) => respond b g p g.da 0 [])
    | _ => (readMemory a g g.da g.oparg).2 := by
  unfold serveRead
  -- built as a module of its own, the two sides have two matchers, which rfl identifies
  rw [ho] <;> rfl

/-- R164, R180, R183: a READ at its destination. -/
theorem read_answers {f g : Flit} {s a : State} (h : arrive s (asOp 0x01 [0x07] f) = (some g, a)) (hup : dieUp a g.dst = true)
    (hop : g.op ≠ 0x07) (hvia : (asOp 0x01 [0x07] f).via = none) (ho : outbound g = none) :
    ∃ t, exec (.read f) s = .next t ∧
      match readAt a g.dst g.da g.oparg with
      | .bad st => t.gz.flits = a.gz.flits ++ [refusalFlit g st]
      | .row table row =>
        let b := rowCounted a (g.dst - 18) table row
        let e := dirOrHome b (g.dst - 18) table row g.da
        let c := checkRead b e.dest g.oparg
        if e.poisoned then t.gz.flits = a.gz.flits ++ [{ respFlit g with oparg := 1 }]
        else if dieOfAddr e.dest = g.dst then
          t.gz.flits = a.gz.flits ++ (if c.1 then [{ respFlit g with oparg := 1 }] else dataFlits g g.panel (viewBytes c.2 e.dest g.oparg))
        else t.gz.flits = a.gz.flits ++ [{ g with dst := dieOfAddr e.dest, da := e.dest, via := some g.dst }]
      | .slot i =>
        let p := answerPanel a g ((slotPlace a g.dst i).map (·.1))
        (match readSlot a g.dst i g.oparg with
         | (some bs, b) => t.gz.flits = b.gz.flits ++ dataFlits g p bs
         | (none, b) => t.gz.flits = b.gz.flits ++ [{ respFlit g with panel := p }])
      | _ =>
        let c := checkRead a g.da g.oparg
        t.mem = c.2.mem ∧
          t.gz.flits = a.gz.flits ++ (if c.1 then [{ respFlit g with oparg := 1 }] else dataFlits g g.panel (viewBytes c.2 g.da g.oparg)) := by
  refine ⟨_, (exec_read h hup hop).trans (congrArg Host.Outcome.next (hvia ▸ serveRead_here ho)), ?_⟩
  cases readAt a g.dst g.da g.oparg with
  | bad st => rfl
  | row table row =>
    have hrow := readRow_flits a g (g.dst - 18) table row g.da g.oparg
    dsimp only at hrow ⊢
    rw [hrow]
    split
    · rfl
    · split <;> rfl
  | slot i =>
    dsimp only
    split
    · exact respondData_flits ..
    · rfl
  | mem => exact ⟨readMemory_mem .., readMemory_flits ..⟩
  | core c off => exact ⟨readMemory_mem .., readMemory_flits ..⟩

/-- R208: a forwarded READ where no row rests any more. -/
theorem read_forwarded_refused {f g : Flit} {s a : State} {o : Nat} (h : arrive s (asOp 0x01 [0x07] f) = (some g, a))
    (hup : dieUp a g.dst = true) (hop : g.op ≠ 0x07) (hvia : (asOp 0x01 [0x07] f).via = some o) (hmu : isMu g.dst = true)
    (hrest : rowResting a (o - 18) g.da g.oparg = none) :
    ∃ t, exec (.read f) s = .next t ∧ t.regs = (bump a g.dst 0x11058).regs ∧ t.gz.flits = a.gz.flits ++ [refusalFlit g stMalformed] := by
  have hrun : serveRead a g (some o) = refuse (bump a g.dst 0x11058) g stMalformed := by
    show readForwarded a g o g.oparg = _
    unfold readForwarded
    rw [hrest]
    exact if_pos hmu
  have hflits : (bump a g.dst 0x11058).gz.flits = a.gz.flits := congrArg Gauze.flits ((bump_frame a g.dst 0x11058 0).gz rfl)
  exact ⟨refuse (bump a g.dst 0x11058) g stMalformed, (exec_read h hup hop).trans (congrArg Host.Outcome.next (hvia ▸ hrun)), rfl,
    congrArg (· ++ [_]) hflits⟩

/-! WRITE. -/

/-- A WRITE that arrives at one die that is up, and is no REG_WRITE, is served there. -/
theorem exec_write {f g : Flit} {s a : State} (h : arriveAll s (asOp 0x02 [0x08] f) = ([g], a)) (hup : dieUp a g.dst = true)
    (hop : g.op ≠ 0x08) : exec (.write f) s = .next (serveWrite a g) := by
  have hrun : exec (.write f) s =
      .next ((arriveAll s (asOp 0x02 [0x08] f)).1.foldl takeWrite (arriveAll s (asOp 0x02 [0x08] f)).2) := rfl
  rw [hrun, h]
  exact congrArg Host.Outcome.next ((if_neg (by simp [hup])).trans (if_neg hop))

theorem enabledRuns_all {g : Flit} (h : g.byteEn.all id = true) : enabledRuns g = [(0, g.payload)] := if_pos h

/-- What a WRITE does after its bytes are in: nothing, or a REMOTE stream has its chunk. -/
def produced (s : State) (g : Flit) (w : Option Rec) (i : Option Ingress) : State :=
  match w, i with
  | some r, some x => landRemote s r g.payload.length x
  | _, _ => s

/-- A REMOTE stream's chunk touches no buffer, no memory and no link. -/
theorem produced_frame (s : State) (g : Flit) (w : Option Rec) (i : Option Ingress) :
    Same { free := true, regs := true, streams := true, sounds := true, seqNo := true } s (produced s g w i) := by
  unfold produced
  split
  · exact landRemote_same (Same.refl _ s) rfl rfl rfl rfl rfl
  · exact Same.refl _ s

/-- A WRITE of whole bytes lands in memory. -/
theorem landWrite_mem {a : State} {g : Flit} {da : Nat} (h : g.byteEn.all id = true) :
    ∃ w i, landWrite a g none da = produced (viewWrite a da g.payload) g w i := by
  unfold landWrite
  rw [enabledRuns_all h]
  exact ⟨_, _, rfl⟩

/-- A WRITE of whole bytes lands in a core's buffer. -/
theorem landWrite_core {a : State} {g : Flit} {c off : Nat} (h : g.byteEn.all id = true) (hbad : cbWriteBad a c off g.payload.length = false) :
    ∃ w i, landWrite a g (some c) off = produced (cbWrite a c off g.payload) g w i := by
  unfold landWrite
  rw [enabledRuns_all h]
  simp only [List.foldl_cons, List.foldl_nil, Nat.add_zero, hbad]
  exact ⟨_, _, rfl⟩

/-- R309, R40: into a core's buffer. -/
theorem write_core {a : State} {g : Flit} {c off : Nat} (h : g.byteEn.all id = true) (hbad : cbWriteBad a c off g.payload.length = false) (p : Nat) :
    (ackWrite (landWrite a g (some c) off) g p).tw = (cbWrite a c off g.payload).tw ∧
    (ackWrite (landWrite a g (some c) off) g p).gz.flits = a.gz.flits ++ [{ ackFlit g with panel := p }] := by
  obtain ⟨w, i, hl⟩ := landWrite_core h hbad
  have P := produced_frame (cbWrite a c off g.payload) g w i
  have C : Same { regs := true, tw := true, sounds := true, seqNo := true } a (cbWrite a c off g.payload) :=
    cbWrite_same (Same.refl _ a) rfl rfl rfl rfl
  have hgz : (landWrite a g (some c) off).gz = a.gz := by rw [hl, P.gz rfl, C.gz rfl]
  refine ⟨?_, congrArg (fun z => Gauze.flits z ++ [_]) hgz⟩
  show (landWrite a g (some c) off).tw = _
  rw [hl, P.tw rfl]

/-- R309: into memory. -/
theorem write_mem {a : State} {g : Flit} (h : g.byteEn.all id = true) :
    (ackWrite (landWrite a g none g.da) g g.panel).gz.flits = a.gz.flits ++ [ackFlit g] ∧
    (MemOk a → g.payload ≠ [] → g.da < farBase → Stored a (ackWrite (landWrite a g none g.da) g g.panel) g.da g.payload) := by
  obtain ⟨w, i, hl⟩ := landWrite_mem (a := a) (g := g) (da := g.da) h
  have P := produced_frame (viewWrite a g.da g.payload) g w i
  have V : Same { mem := true, regs := true, mu := true, sv := true, i3c := true, sounds := true, seqNo := true } a (viewWrite a g.da g.payload) :=
    viewWrite_same (Same.refl _ a) rfl rfl rfl rfl rfl rfl rfl
  have hgz : (landWrite a g none g.da).gz = a.gz := by rw [hl, P.gz rfl, V.gz rfl]
  refine ⟨congrArg (fun z => Gauze.flits z ++ [_]) hgz, fun hm hp hf => stored_congr (stored_writeMem hm hp hf) ?_⟩
  show (landWrite a g none g.da).mem = _
  rw [hl, P.mem rfl]
  exact (writeWords_frame (writeMem a g.da g.payload) g.da g.payload).mem rfl

/-- A WRITE served where no link die takes it out: by what its address means at the die. -/
theorem serveWrite_here {a : State} {g : Flit} (ho : outbound g = none) : serveWrite a g =
    match writeAt a g.dst g.da g.payload.length with
    | .bad st => refuse a g st
    | .core c off =>
      if g.tc = 3 && panelOfCore a c != some g.panel then bumpCore a c 0x28 (max 1 (ceilDiv g.payload.length 192))
      else ackWrite (landWrite a g (some c) off) g (answerPanel a g (some c))
    | _ => ackWrite (landWrite a g none g.da) g g.panel := by
  unfold serveWrite
  -- built as a module of its own, the two sides have two matchers, which rfl identifies
  rw [ho] <;> rfl

/-- A message that has arrived found memory as it was. -/
theorem memOk_of_arrived {s a : State} (hmem : a.mem = s.mem) (h : MemOk s) : MemOk a := by
  unfold MemOk; rw [hmem]; exact h

/-- Bytes stored since a message arrived are stored since it was sent. -/
theorem stored_of_arrived {s a t : State} {x : Nat} {bs : List Byte} (hmem : a.mem = s.mem) (h : Stored a t x bs) : Stored s t x bs :=
  ⟨fun y => hmem ▸ h.bytes y, hmem ▸ h.posted⟩

/-- R309: a WRITE at its destination. -/
theorem write_lands {f g : Flit} {s a : State} (h : arriveAll s (asOp 0x02 [0x08] f) = ([g], a)) (hup : dieUp a g.dst = true)
    (hop : g.op ≠ 0x08) (ho : outbound g = none) :
    ∃ t, exec (.write f) s = .next t ∧
      match writeAt a g.dst g.da g.payload.length with
      | .bad st => t.gz.flits = a.gz.flits ++ [refusalFlit g st]
      | .core c off =>
        if g.tc = 3 ∧ panelOfCore a c ≠ some g.panel then
          t.tw = a.tw ∧ t.gz = a.gz ∧ t.regs = (bumpCore a c 0x28 (max 1 (ceilDiv g.payload.length 192))).regs
        else g.byteEn.all id = true → cbWriteBad a c off g.payload.length = false →
          t.tw = (cbWrite a c off g.payload).tw ∧ t.gz.flits = a.gz.flits ++ [{ ackFlit g with panel := answerPanel a g (some c) }]
      | _ => g.byteEn.all id = true → t.gz.flits = a.gz.flits ++ [ackFlit g] ∧
          (MemOk s → g.payload ≠ [] → g.da < farBase → Stored s t g.da g.payload) := by
  have hmem : a.mem = s.mem := (arriveAll_frame h).mem rfl
  have into : g.byteEn.all id = true →
      (ackWrite (landWrite a g none g.da) g g.panel).gz.flits = a.gz.flits ++ [ackFlit g] ∧
      (MemOk s → g.payload ≠ [] → g.da < farBase → Stored s (ackWrite (landWrite a g none g.da) g g.panel) g.da g.payload) := fun hen =>
    have ⟨hflits, hstored⟩ := write_mem hen
    ⟨hflits, fun hm hp hf => stored_of_arrived hmem (hstored (memOk_of_arrived hmem hm) hp hf)⟩
  refine ⟨_, (exec_write h hup hop).trans (congrArg Host.Outcome.next (serveWrite_here ho)), ?_⟩
  cases writeAt a g.dst g.da g.payload.length with
  | bad st => rfl
  | core c off =>
    have hiff : (g.tc = 3 && panelOfCore a c != some g.panel) = true ↔ g.tc = 3 ∧ panelOfCore a c ≠ some g.panel := by simp
    dsimp only
    by_cases hforeign : g.tc = 3 ∧ panelOfCore a c ≠ some g.panel
    · rw [if_pos hforeign, if_pos (hiff.mpr hforeign)]
      have B := bumpBy_frame a (coreDie c) (coreBase c + 0x28) (max 1 (ceilDiv g.payload.length 192)) 0
      exact ⟨B.tw rfl, B.gz rfl, rfl⟩
    · rw [if_neg hforeign, if_neg (fun hc => hforeign (hiff.mp hc))]
      exact fun hen hbad => write_core hen hbad _
  | mem => exact into
  | row table row => exact into
  | slot i => exact into

/-! Background traffic. -/

/-- A TC4 message that arrives stores its payload where the die serves its address. -/
theorem landTc4_arrived {s a : State} {f g : Flit} (h : arrive s f = (some g, a)) : landTc4 s f = landBackground a g := by
  unfold landTc4
  rw [h]

/-- R73: with no record on its way and none buffered, nothing is sent. -/
theorem sounding_none {f : Flit} {s : State} (hc : s.gz.flits.contains (asOp 0x0B [] f) = false)
    (hs : (s.sounds.find? fun x => x.die == (asOp 0x0B [] f).src) = none) : exec (.sounding f) s = .next s := by
  refine congrArg Host.Outcome.next ((if_neg (by rw [hc]; exact Bool.false_ne_true)).trans ?_)
  unfold sendSounding
  rw [hs]

/-- A Sounding on its way lands. -/
theorem exec_sounding_sent {f g : Flit} {s a : State} (hc : s.gz.flits.contains (asOp 0x0B [] f) = true)
    (h : arrive s (asOp 0x0B [] f) = (some g, a)) : exec (.sounding f) s = .next (landBackground a g) :=
  congrArg Host.Outcome.next ((if_pos hc).trans (landTc4_arrived h))

/-- The oldest record of its die leaves its buffer and lands. -/
theorem exec_sounding_oldest {f g : Flit} {s a : State} {x : Sounding} (hc : s.gz.flits.contains (asOp 0x0B [] f) = false)
    (hs : (s.sounds.find? fun x => x.die == (asOp 0x0B [] f).src) = some x)
    (h : arrive (s.onSounds fun l => l.erase x) { asOp 0x0B [] f with plen := (soundingBytes x).length, payload := soundingBytes x } = (some g, a)) :
    exec (.sounding f) s = .next (landBackground a g) := by
  refine congrArg Host.Outcome.next ((if_neg (by rw [hc]; exact Bool.false_ne_true)).trans ?_)
  unfold sendSounding
  rw [hs]
  exact landTc4_arrived h

/-- R73: the oldest record of its die is stored where it lands. -/
theorem sounding_oldest_lands {f g : Flit} {s a : State} {x : Sounding} (hc : s.gz.flits.contains (asOp 0x0B [] f) = false)
    (hs : (s.sounds.find? fun x => x.die == (asOp 0x0B [] f).src) = some x)
    (h : arrive (s.onSounds fun l => l.erase x) { asOp 0x0B [] f with plen := (soundingBytes x).length, payload := soundingBytes x } = (some g, a)) :
    ∃ t, exec (.sounding f) s = .next t ∧
      if memPlace a g.dst g.da g.payload.length = .mem then MemOk s → g.payload ≠ [] → g.da < farBase → Stored s t g.da g.payload else t = a := by
  have hl := land_is g (arrive_frame h)
  refine ⟨_, exec_sounding_oldest hc hs h, ?_⟩
  split at hl
  next hp =>
    rw [if_pos hp]
    exact fun hm hne hf => stored_of_arrived (a := s.onSounds fun l => l.erase x) rfl (hl hm hne hf)
  next hp =>
    rw [if_neg hp]
    exact hl

/-! Answers. -/

theorem exec_readResp {f g : Flit} {s a : State} (h : arrive s (asOp 0x04 [] f) = (some g, a)) : exec (.readResp f) s = .next (takeResp a g) := by
  refine congrArg Host.Outcome.next ?_
  rw [h]

theorem exec_writeAck {f g : Flit} {s a : State} (h : arrive s (asOp 0x05 [] f) = (some g, a)) : exec (.writeAck f) s = .next (takeAck a g) := by
  refine congrArg Host.Outcome.next ?_
  rw [h]

theorem exec_regResp {f g : Flit} {s a : State} (h : arrive s (asOp 0x09 [] f) = (some g, a)) : exec (.regResp f) s = .next (takeRegResp a g) := by
  refine congrArg Host.Outcome.next ?_
  rw [h]

/-- An answer that matches no outstanding request is late. -/
theorem takeResp_late {a : State} {g : Flit} (h : findReq a g.dst g.tag = none) : takeResp a g = lateAnswer a g.dst g.tag := by
  unfold takeResp; rw [h]

theorem takeAck_late {a : State} {g : Flit} (hm : g.mgroup = 0) (h : findReq a g.dst g.tag = none) : takeAck a g = lateAnswer a g.dst g.tag := by
  unfold takeAck; rw [h]; exact if_neg (by simp [hm])

theorem takeRegResp_late {a : State} {g : Flit} (h : findReq a g.dst g.tag = none) : takeRegResp a g = lateAnswer a g.dst g.tag := by
  unfold takeRegResp; rw [h]

theorem takeRegResp_answers {a : State} {g : Flit} {r : OutReq} (h : findReq a g.dst g.tag = some r) :
    takeRegResp a g = answered (closeReq a r.die r.tag) (reqWait r.die r.tag) stDone false := by
  unfold takeRegResp; rw [h]

/-- The acknowledgement of a request that carries no journal record, no multicast and no stream bytes. -/
theorem takeAck_answers {a : State} {g : Flit} {r : OutReq} (hm : g.mgroup = 0) (h : findReq a g.dst g.tag = some r)
    (hi : ingressOf a g.dst g.tag = none) (hj : r.kind ≠ rkJournal) (hc : r.kind ≠ rkMcast) (hs : r.strm = none) :
    takeAck a g = answered (endStore (closeReq a r.die r.tag) r.die r.tag) (reqWait r.die r.tag) stDone (r.kind == rkAdd && bit g.oparg 0) := by
  have hafter : ∀ x, afterAck x r g = x := by
    intro x
    unfold afterAck
    rw [hs]
    exact (if_neg hj).trans (if_neg hc)
  unfold takeAck
  rw [if_neg (by simp [hm]), h]
  dsimp only
  rw [hi, hafter]

/-- R305: REG_RESP ends its request. -/
theorem regResp_answers {f g : Flit} {s a : State} {r : OutReq} (h : arrive s (asOp 0x09 [] f) = (some g, a))
    (hr : findReq a g.dst g.tag = some r) :
    ∃ t, exec (.regResp f) s = .next t ∧ t.gz.out = a.gz.out.filter (fun x => !(x.die == r.die && x.tag == r.tag)) ∧
    ∀ w, s.qm.waiting = [w] → w.tags = [reqWait r.die r.tag] → ∃ e, e < 2 ^ 32 ∧ t.qm.cpls = s.qm.cpls ++
      [completionOf w.hdr w.unit { w with status := mergeStatus (fenceWaiting s w) w.status 0 }.final e] := by
  refine ⟨_, (exec_regResp h).trans (congrArg Host.Outcome.next (takeRegResp_answers hr)), ?_, fun w hw ht => ?_⟩
  · rw [(answered_gz ..).1]; rfl
  · have hdone := answered_one (a := closeReq a r.die r.tag) (st := stDone) (l := false) ((arrive_frame h).qm rfl) hw ht
    simpa only [Bool.or_false] using hdone

/-- R190, R308: WRITE_ACK ends its request. -/
theorem writeAck_answers {f g : Flit} {s a : State} {r : OutReq} (h : arrive s (asOp 0x05 [] f) = (some g, a)) (hm : g.mgroup = 0)
    (hr : findReq a g.dst g.tag = some r) (hi : ingressOf a g.dst g.tag = none) (hj : r.kind ≠ rkJournal) (hc : r.kind ≠ rkMcast)
    (hs : r.strm = none) :
    ∃ t, exec (.writeAck f) s = .next t ∧ t.gz.out = a.gz.out.filter (fun x => !(x.die == r.die && x.tag == r.tag)) ∧
    ∀ w, s.qm.waiting = [w] → w.tags = [reqWait r.die r.tag] → ∃ e, e < 2 ^ 32 ∧ t.qm.cpls = s.qm.cpls ++
      [completionOf w.hdr w.unit
        { w with status := mergeStatus (fenceWaiting s w) w.status 0, late := w.late || (r.kind == rkAdd && bit g.oparg 0) }.final e] := by
  have E : Same { cores := true } (closeReq a r.die r.tag) (endStore (closeReq a r.die r.tag) r.die r.tag) := endStore_same (Same.refl _ _) rfl
  refine ⟨_, (exec_writeAck h).trans (congrArg Host.Outcome.next (takeAck_answers hm hr hi hj hc hs)), ?_, fun w hw ht => ?_⟩
  · rw [(answered_gz ..).1, E.gz rfl]; rfl
  · exact answered_one ((E.qm rfl).trans ((arrive_frame h).qm rfl)) hw ht

/-- What a request holds once one READ_RESP, or with whole the last one, has come. -/
theorem releaseResp_out (s : State) (r : OutReq) (whole : Bool) : (releaseResp s r whole).gz.out =
    if whole || decide (r.resv ≤ 1) then s.gz.out.filter fun x => !(x.die == r.die && x.tag == r.tag)
    else s.gz.out.map fun x => if x.die = r.die ∧ x.tag = r.tag then { x with resv := x.resv - 1 } else x := by
  unfold releaseResp
  split <;> rfl

/-- The data of an RG_GET leaves what is in flight alone. -/
theorem landGet_gz (s : State) (r : OutReq) (g : Flit) : (landGet s r g).gz = s.gz :=
  (landGet_same (g₀ := { mem := true, regs := true, mu := true, qm := true, sv := true, i3c := true, sounds := true, seqNo := true })
    (Same.refl _ s) rfl rfl rfl rfl rfl rfl rfl rfl).gz rfl

theorem landGet_stored {s : State} {r : OutReq} {g : Flit} (hm : MemOk s) (hf : r.landDa < farBase) (hp : g.payload ≠ []) (hl : 0 < r.len) :
    Stored s (landGet s r g) r.landDa (g.payload.take r.len) :=
  stored_congr (stored_writeMem hm (by simp [hp, Nat.pos_iff_ne_zero.mp hl]) hf) rfl

/-- What a READ_RESP brings in: the data of an RG_GET. -/
def respLanded (a : State) (r : OutReq) (g : Flit) : State :=
  if r.kind = rkGet && !(bit g.oparg 0 || g.payload.isEmpty) then landGet a r g else a

theorem respLanded_gz (a : State) (r : OutReq) (g : Flit) : (respLanded a r g).gz = a.gz := by
  unfold respLanded
  split
  · exact landGet_gz ..
  · rfl

/-- A READ_RESP to a request of the package itself: its data lands, its slot is released, and the last one answers the command. -/
theorem takeResp_answers {a : State} {g : Flit} {r : OutReq} (h : findReq a g.dst g.tag = some r) (hi : ingressOf a g.dst g.tag = none) :
    let whole := bit g.oparg 0 || g.payload.isEmpty
    let u := releaseResp (respLanded a r g) r (whole || r.kind == rkGet)
    takeResp a g =
      if whole || r.kind = rkGet || r.resv ≤ 1 then answered u (reqWait r.die r.tag) (if bit g.oparg 0 then stEcc else stDone) false else u := by
  unfold takeResp
  rw [h]
  dsimp only
  rw [hi]
  rfl

/-- The command's answer leaves requests and memory as its request's release leaves them. -/
theorem takeResp_keeps {a : State} {g : Flit} {r : OutReq} (h : findReq a g.dst g.tag = some r) (hi : ingressOf a g.dst g.tag = none) :
    (takeResp a g).gz = (releaseResp (respLanded a r g) r (bit g.oparg 0 || g.payload.isEmpty || r.kind == rkGet)).gz ∧
    (takeResp a g).mem = (respLanded a r g).mem := by
  have hmem : ∀ w, (releaseResp (respLanded a r g) r w).mem = (respLanded a r g).mem := fun w =>
    (releaseResp_same (g₀ := { gz := true }) (Same.refl _ _) rfl).mem rfl
  rw [takeResp_answers h hi]
  split
  · exact ⟨(answered_gz ..).1, (answered_gz ..).2.trans (hmem _)⟩
  · exact ⟨rfl, hmem _⟩

/-- R305: READ_RESP to a request of the package itself. -/
theorem readResp_answers {f g : Flit} {s a : State} {r : OutReq} (h : arrive s (asOp 0x04 [] f) = (some g, a))
    (hr : findReq a g.dst g.tag = some r) (hi : ingressOf a g.dst g.tag = none) :
    ∃ t, exec (.readResp f) s = .next t ∧
      (if bit g.oparg 0 || g.payload.isEmpty || r.kind == rkGet || decide (r.resv ≤ 1) then
        t.gz.out = a.gz.out.filter fun x => !(x.die == r.die && x.tag == r.tag)
       else t.gz.out = a.gz.out.map fun x => if x.die = r.die ∧ x.tag = r.tag then { x with resv := x.resv - 1 } else x) ∧
      (MemOk s → r.landDa < farBase → r.kind = rkGet → bit g.oparg 0 = false → g.payload ≠ [] → 0 < r.len →
        Stored s t r.landDa (g.payload.take r.len)) ∧
      (r.kind ≠ rkGet → t.mem = s.mem) := by
  have ⟨hgz, htmem⟩ := takeResp_keeps hr hi
  have hmem : a.mem = s.mem := (arrive_frame h).mem rfl
  refine ⟨_, exec_readResp h, ?_, fun hm hf hk hlost hp hl => ?_, fun hk => ?_⟩
  · rw [hgz, releaseResp_out, respLanded_gz]
    split <;> rfl
  · have hland : respLanded a r g = landGet a r g := if_pos (by simp [hk, hlost, hp])
    exact stored_of_arrived hmem (stored_congr (landGet_stored (memOk_of_arrived hmem hm) hf hp hl) (htmem.trans (congrArg State.mem hland)))
  · have hland : respLanded a r g = a := if_neg (by simp [hk])
    rw [htmem, hland, hmem]

/-- A message that its path, its class buffer or its class stops does no more than its arrival does. -/
theorem message_stopped (f : Flit) (s : State) :
    (∀ a, arrive s (asOp 0x01 [0x07] f) = (none, a) → exec (.read f) s = .next a) ∧
    (∀ a, arriveAll s (asOp 0x02 [0x08] f) = ([], a) → exec (.write f) s = .next a) ∧
    (∀ a, arrive s (asOp 0x04 [] f) = (none, a) → exec (.readResp f) s = .next a) ∧
    (∀ a, arrive s (asOp 0x05 [] f) = (none, a) → exec (.writeAck f) s = .next a) ∧
    (∀ a, arrive s (asOp 0x09 [] f) = (none, a) → exec (.regResp f) s = .next a) ∧
    (∀ a, arrive s (asOp 0x0C [] f) = (none, a) → exec (.backgroundMove f) s = .next a) := by
  refine ⟨fun a h => ?_, fun a h => ?_, fun a h => ?_, fun a h => ?_, fun a h => ?_, fun a h => ?_⟩
  · exact congrArg Host.Outcome.next (by rw [h])
  · have hrun : exec (.write f) s =
        .next ((arriveAll s (asOp 0x02 [0x08] f)).1.foldl takeWrite (arriveAll s (asOp 0x02 [0x08] f)).2) := rfl
    rw [hrun, h]; rfl
  · exact congrArg Host.Outcome.next (by rw [h])
  · exact congrArg Host.Outcome.next (by rw [h])
  · exact congrArg Host.Outcome.next (by rw [h])
  · refine congrArg Host.Outcome.next ?_
    unfold landTc4
    rw [h]

/-- Settles O44: each message by what it finds where it arrives. -/
theorem gauzeMessages : Obligations.GauzeMessages :=
  ⟨message_stopped,
   fun _ _ _ _ => read_answers,
   fun _ _ _ _ _ => read_forwarded_refused,
   fun _ _ _ _ => write_lands,
   fun _ _ => ⟨sounding_none,
     fun g _ hc h => ⟨_, exec_sounding_sent hc h, land_is g (arrive_frame h)⟩,
     fun _ _ _ => sounding_oldest_lands⟩,
   fun _ _ g _ h => ⟨_, congrArg Host.Outcome.next (landTc4_arrived h), land_is g (arrive_frame h)⟩,
   fun _ _ _ _ h hr => ⟨_, (exec_readResp h).trans (congrArg Host.Outcome.next (takeResp_late hr)), late_is ..⟩,
   fun _ _ _ _ h hm hr => ⟨_, (exec_writeAck h).trans (congrArg Host.Outcome.next (takeAck_late hm hr)), late_is ..⟩,
   fun _ _ _ _ h hr => ⟨_, (exec_regResp h).trans (congrArg Host.Outcome.next (takeRegResp_late hr)), late_is ..⟩,
   fun _ _ _ _ _ => regResp_answers,
   fun _ _ _ _ _ => writeAck_answers,
   fun _ _ _ _ _ => readResp_answers⟩

/-- Settles O58: each command's frame, from the state it starts in. -/
theorem framesOfUpkeepEventsAndMessages : Obligations.FramesOfUpkeepEventsAndMessages :=
  ⟨fun _ _ _ s _ h => execShadowEntryValid_same h (Same.refl _ s) rfl,
   fun _ _ _ _ s _ h => execShadowInvalidation_same h (Same.refl _ s) rfl rfl rfl,
   fun s _ h => ⟨execStepStart_same h (Same.refl _ s) rfl rfl rfl rfl rfl rfl rfl rfl rfl rfl rfl rfl rfl rfl rfl rfl rfl rfl,
     memSame_of_sameBytes (execStepStart_bytes h (SameBytes.refl s))⟩,
   fun _ _ _ _ _ s _ h => execPatchAnswer_same h (Same.refl _ s) rfl rfl rfl rfl rfl rfl rfl rfl,
   fun _ _ _ s _ h => execPatchTimeout_same h (Same.refl _ s) rfl rfl rfl rfl rfl,
   fun _ _ s _ h => execPatchRequest_same h (Same.refl _ s) rfl,
   fun _ _ s _ h => ⟨execScrubRead_same h (Same.refl _ s) rfl rfl rfl rfl rfl rfl rfl rfl rfl rfl,
     memSame_of_sameBytes (execScrubRead_bytes h (SameBytes.refl s))⟩,
   fun _ _ s _ h => execRefresh_same h (Same.refl _ s) rfl rfl,
   fun _ _ s _ h => execBandwidthWindow_same h (Same.refl _ s) rfl rfl rfl rfl rfl,
   fun _ s _ h => execDatumEdge_same h (Same.refl _ s) rfl rfl rfl rfl rfl rfl rfl rfl rfl rfl rfl rfl rfl rfl rfl rfl rfl,
   fun _ s _ h => execPllLossOfLock_same h (Same.refl _ s) rfl rfl rfl rfl rfl rfl rfl rfl rfl rfl rfl rfl rfl rfl rfl rfl rfl rfl,
   fun _ _ s _ h => execDeadlineExpiry_same h (Same.refl _ s) rfl rfl rfl rfl rfl rfl rfl rfl rfl rfl rfl rfl rfl rfl rfl rfl rfl rfl rfl,
   fun _ s _ h => execPanelFault_same h (Same.refl _ s) rfl rfl rfl rfl rfl rfl rfl rfl rfl rfl rfl rfl rfl rfl rfl rfl rfl rfl rfl,
   fun _ s _ h => execUnitError_same h (Same.refl _ s) rfl rfl rfl rfl rfl rfl rfl rfl rfl rfl rfl rfl rfl rfl rfl rfl rfl,
   fun _ _ s _ h => execLeaseExpiry_same h (Same.refl _ s) rfl rfl rfl rfl rfl rfl rfl rfl rfl rfl rfl rfl rfl rfl rfl rfl rfl,
   fun _ s _ h => execMgmtParityFailure_same h (Same.refl _ s) rfl rfl rfl rfl rfl rfl rfl rfl rfl rfl rfl rfl rfl rfl rfl rfl rfl,
   fun _ s _ h => execReleased_same h (Same.refl _ s) rfl rfl rfl rfl rfl rfl rfl rfl rfl rfl rfl rfl rfl rfl rfl rfl rfl,
   fun s _ h => execReclaimTimeout_same h (Same.refl _ s) rfl rfl rfl rfl rfl rfl rfl rfl rfl rfl rfl rfl rfl rfl rfl rfl rfl,
   fun _ s _ h => execFree_same h (Same.refl _ s) rfl rfl rfl rfl rfl rfl rfl rfl rfl rfl rfl rfl rfl rfl rfl rfl rfl,
   fun s _ h => execQuietPeriodExpiry_same h (Same.refl _ s) rfl rfl rfl,
   fun s _ h => execSvclkCheckFailure_same h (Same.refl _ s) rfl rfl,
   fun _ s _ h => ⟨execRead_same h (Same.refl _ s) rfl rfl rfl rfl rfl rfl rfl rfl rfl rfl rfl rfl rfl rfl rfl rfl rfl rfl,
     memSame_of_sameBytes (execRead_bytes h (SameBytes.refl s))⟩,
   fun _ s _ h => execReadResp_same h (Same.refl _ s) rfl rfl rfl rfl rfl rfl rfl rfl rfl rfl rfl rfl,
   fun _ s _ h => execWriteAck_same h (Same.refl _ s) rfl rfl rfl rfl rfl rfl rfl rfl rfl rfl rfl rfl rfl,
   fun _ s _ h => execRegResp_same h (Same.refl _ s) rfl rfl rfl rfl rfl rfl rfl rfl rfl,
   fun _ s _ h => execSounding_same h (Same.refl _ s) rfl rfl rfl rfl rfl rfl rfl rfl rfl,
   fun _ s _ h => execBackgroundMove_same h (Same.refl _ s) rfl rfl rfl rfl rfl rfl rfl rfl rfl,
   fun _ _ _ _ s _ h => execCredit_same h (Same.refl _ s) rfl,
   fun _ _ _ s _ h => execFlitCrcError_same h (Same.refl _ s) rfl rfl rfl rfl rfl rfl rfl,
   fun _ _ s _ h => execLaneRepair_same h (Same.refl _ s) rfl,
   fun _ _ s _ h => execLaneRepairExhausted_same h (Same.refl _ s) rfl rfl rfl rfl⟩


end Sys2Proof.Machine
end

section
/-!
PROOFS. The obligations of family 02_clocks_and_datum: what is dispatched and completed, the sequencer's programs and steps, streams, faults and
reclaims, and the edges of the Datum.
-/

namespace Sys2Proof.Machine

open Sys2Proof

/-! DISPATCH (R62, R277, R283, R284). -/

/-- A descriptor once it stands in the dispatch list. -/
def Fetched.toDisp (x : Fetched) : Disp :=
  { hdr := x.hdr, cmd := x.cmd, unit := x.unit, armed := x.hdr.armed, started := false, before := x.before }

/-- The state in which a descriptor has joined the dispatch list of a die that is up, and stopped its core's ballast. -/
def dispatched (s : State) (x : Fetched) : State :=
  let s := s.onQm fun q => { q with disp := q.disp ++ [x.toDisp] }
  if isTw x.unit.die && x.unit.unit < 4 then setCore s (4 * (x.unit.die - 2) + x.unit.unit) fun c => { c with ballast := 0 } else s

/-- An armed descriptor whose Datum cannot come, or whose die has lost its Datum count (R62). -/
def datumLost (s : State) (x : Fetched) : Prop :=
  x.hdr.armed = true ∧ (x.unit.die ∈ s.ck.err ∨ datumFuture x.hdr.datum (look0 s.ck.count x.unit.die) = false)

/-- Of the queue manager, only the dispatch list changes. -/
theorem dispatched_qm (s : State) (x : Fetched) : (dispatched s x).qm = { s.qm with disp := s.qm.disp ++ [x.toDisp] } := by
  unfold dispatched; split <;> rfl

theorem dispatched_ck (s : State) (x : Fetched) : (dispatched s x).ck = s.ck := by
  unfold dispatched; split <;> rfl

/-- handOver's test for a lost Datum. -/
theorem datumLost_iff (s : State) (x : Fetched) : (x.hdr.armed && ((dispatched s x).ck.err.contains x.unit.die ||
    !datumFuture x.hdr.datum (look0 (dispatched s x).ck.count x.unit.die))) = true ↔ datumLost s x := by
  simp [dispatched_ck, datumLost]

/-- On a die that is not up the descriptor completes with UNIT_ABSENT. -/
theorem handOver_absent {s : State} {x : Fetched} (h : dieUp s x.unit.die = false) : handOver s x = completeIdle s x.hdr x.unit stAbsent :=
  if_pos (by simp [h])

/-- On a die that is up it is dispatched, and ends at once where its Datum is lost. -/
theorem handOver_up {s : State} {x : Fetched} (h : dieUp s x.unit.die = true) : handOver s x =
    if x.hdr.armed && ((dispatched s x).ck.err.contains x.unit.die || !datumFuture x.hdr.datum (look0 (dispatched s x).ck.count x.unit.die)) then
      endEarly (bump (dispatched s x) x.unit.die 0x4018) x.toDisp stDeadline
    else dispatched s x := if_neg (by simp [h])

theorem handOver_waits {s : State} {x : Fetched} (h : dieUp s x.unit.die = true) (hd : ¬ datumLost s x) : handOver s x = dispatched s x :=
  (handOver_up h).trans (if_neg fun hc => hd ((datumLost_iff s x).mp hc))

theorem handOver_lost {s : State} {x : Fetched} (h : dieUp s x.unit.die = true) (hd : datumLost s x) :
    handOver s x = endEarly (bump (dispatched s x) x.unit.die 0x4018) x.toDisp stDeadline :=
  (handOver_up h).trans (if_pos ((datumLost_iff s x).mpr hd))

/-- A descriptor whose Datum is lost completes with DEADLINE; the queues stay. -/
theorem handOver_lost_ends {s : State} {x : Fetched} (h : dieUp s x.unit.die = true) (hd : datumLost s x) :
    Ends (dispatched s x) (handOver s x) x.hdr x.unit stDeadline := by
  rw [handOver_lost h hd]
  exact ends_congr_left (endEarly_ends _ x.toDisp stDeadline) ((bump_frame _ _ _ _).qm rfl)

/-- handOver changes no queue. -/
theorem handOver_queue (s : State) (x : Fetched) (p : Nat) : queueOf (handOver s x) p = queueOf s p := by
  have hkept : queueOf (dispatched s x) p = queueOf s p := by simp [queueOf, dispatched_qm]
  cases hup : dieUp s x.unit.die with
  | false => rw [handOver_absent hup]; exact queueOf_ends (ends_completeIdle x.hdr x.unit stAbsent rfl) p
  | true =>
    by_cases hd : datumLost s x
    · exact (queueOf_ends (handOver_lost_ends hup hd) p).trans hkept
    · rw [handOver_waits hup hd]; exact hkept

/-- The state in which the head has left its queue, which its unit has served last. -/
def headTaken (s : State) (q : Nat) (x : Fetched) (rest : List Fetched) : State :=
  (setQueue s q fun u => { u with fetched := rest }).onQm fun m =>
    { m with served := put m.served ((x.unit.die * 16 + x.unit.unit) * 4 + classOfQueue (setQueue s q fun u => { u with fetched := rest }) q) q }

/-- A DISPATCH that finds its head ready, and its turn come, hands it over. -/
theorem exec_dispatch {q : Nat} {starved : Bool} {s : State} {x : Fetched} {rest : List Fetched} (hf : (queueOf s q).fetched = x :: rest)
    (hr : headReady s q x = true) (ht : starved = true ∨ served s x.unit = some q) :
    exec (.dispatch q starved) s = .next (handOver (headTaken s q x rest) x) := by
  have hgo : (headReady s q x && (starved || served s x.unit == some q)) = true := by simpa [hr] using ht
  refine congrArg Host.Outcome.next ?_
  rw [hf]
  exact if_pos hgo

/-- Settles O16: handOver of the head, on the state without it. -/
theorem dispatchHandsTheHeadOver : Obligations.DispatchHandsTheHeadOver := by
  intro q starved s x rest hf hr ht stale d
  have hown : queueOf (headTaken s q x rest) q = { queueOf s q with fetched := rest } := queueOf_setQueue s q fun u => { u with fetched := rest }
  have hother (p : Nat) (hp : p ≠ q) : queueOf (headTaken s q x rest) p = queueOf s p :=
    queueOf_setQueue_ne s q p (fun u => { u with fetched := rest }) hp
  refine ⟨_, exec_dispatch hf hr ht, (handOver_queue _ x q).trans hown, fun p hp => (handOver_queue _ x p).trans (hother p hp),
    fun hup hd => ?_, fun hup hd => ?_, fun hup => ?_⟩
  · rw [handOver_waits (s := headTaken s q x rest) hup hd, dispatched_qm]
    exact ⟨rfl, rfl⟩
  · obtain ⟨e, -, hc⟩ := (handOver_lost_ends (s := headTaken s q x rest) hup hd).issued
    rw [dispatched_qm] at hc
    exact ⟨e, hc⟩
  · rw [handOver_absent (s := headTaken s q x rest) hup]
    rfl

/-! Deadlines (R68, R69, R71). -/

/-- A fold that leaves the state as it is for each element of its list. -/
theorem foldl_stays {α : Type} {f : State → α → State} {s : State} {l : List α} (h : ∀ x, x ∈ l → f s x = s) : l.foldl f s = s := by
  induction l with
  | nil => rfl
  | cons x l ih =>
    rw [List.foldl_cons, h x List.mem_cons_self]
    exact ih fun y hy => h y (List.mem_cons_of_mem _ hy)

/-- With no MU_OPT_DENSE dispatched, none is cut. -/
theorem cutDenses_none {s : State} (f : Disp → Bool) (h : ∀ x, x ∈ s.qm.disp → ∀ i o, x.cmd ≠ .muOptDense i o) : cutDenses s f = s := by
  refine foldl_stays fun x hx => ?_
  split
  · next i o hc => exact absurd hc (h x (List.mem_filter.mp hx).1 i o)
  · rfl

/-- What cutting a command short leaves. -/
theorem endEarly_frame (s : State) (d : Disp) (st : Nat) :
    Same
      { free := true, gz := true, tw := true, mu := true, streams := true, qm := true
        seq := true, img := true, rings := true, snap := true, sec := true } s (endEarly s d st) :=
  endEarly_same (Same.refl _ s) rfl rfl rfl rfl rfl rfl rfl rfl rfl rfl rfl

/-- An expiry counted under a source of its own. -/
theorem countExpiry_counts (s : State) (u : UnitId) (k : Nat) :
    Same { regs := true, sv := true, i3c := true, sounds := true, seqNo := true } s (countExpiry s u k) ∧
    k ∈ (countExpiry s u k).sv.sticky ∧ (countExpiry s u k).regs = (bump s u.die 0x4018).regs := by
  refine ⟨countExpiry_same (Same.refl _ s) rfl rfl rfl rfl rfl, ?_, bump_regs_congr (setSticky_regs s k)⟩
  have hsv : (countExpiry s u k).sv = (setSticky s k).sv := (bump_frame (setSticky s k) u.die 0x4018 0).sv rfl
  rw [hsv]
  exact setSticky_mem s k

/-- A dispatched command that is counted late and ends. -/
theorem endEarly_late (s : State) (d : Disp) (k : Nat) :
    let t := endEarly (countExpiry s d.unit k) d stDeadline
    Ends s t d.hdr d.unit stDeadline ∧ t.mem = s.mem ∧ k ∈ t.sv.sticky ∧ t.regs = (bump s d.unit.die 0x4018).regs := by
  obtain ⟨hsame, hsticky, hregs⟩ := countExpiry_counts s d.unit k
  have hend := endEarly_frame (countExpiry s d.unit k) d stDeadline
  refine ⟨ends_congr_left (endEarly_ends _ d stDeadline) (hsame.qm rfl), (hend.mem rfl).trans (hsame.mem rfl), ?_, (hend.regs rfl).trans hregs⟩
  rw [hend.sv rfl]
  exact hsticky

/-- The deadline of a dispatched command that has one. -/
theorem exec_deadlineExpiry {q i : Nat} {s : State} {d : Disp} (hd : (s.qm.disp.find? fun d => d.hdr.queue == q && d.hdr.index == i) = some d)
    (h0 : d.hdr.deadline ≠ 0) :
    let b := cutDenses s fun x => sameDesc x.hdr d.hdr
    exec (.deadlineExpiry q i) s = .next (endEarly (countExpiry b d.unit (dispSource b d)) d stDeadline) := by
  refine congrArg Host.Outcome.next ?_
  rw [hd]
  exact if_neg h0

/-! Completions (R288 to R292). -/

/-- A message of the operation that is asked for is not changed into one. -/
theorem asOp_self {op : Nat} {l : List Nat} {f : Flit} (h : f.op = op) : asOp op l f = f := if_pos (by simp [h])

/-- A COMPLETION not yet in flight carries the first completion of its die that waits. -/
theorem exec_completion {f : Flit} {s : State} {c : Cpl} (hop : f.op = 0x06) (hf : s.gz.flits.contains f = false) (hc : cplFor s f = some c)
    (hd : f.dst = 0) : exec (.completion f) s = .next (if f.src = 0 || !dieUp s f.src then deliver s c else sendCpl s c) := by
  refine congrArg Host.Outcome.next ?_
  rw [asOp_self hop, hf]
  simp only [Bool.false_eq_true, if_false, hc, hd, bne_self_eq_false]

/-- From CMD, or for a die that is not up, the queue manager answers itself. -/
theorem completion_local {f : Flit} {s : State} {c : Cpl} (hop : f.op = 0x06) (hf : s.gz.flits.contains f = false) (hc : cplFor s f = some c)
    (hd : f.dst = 0) (h : f.src = 0 ∨ dieUp s f.src = false) : exec (.completion f) s = .next (deliver s c) :=
  (exec_completion hop hf hc hd).trans (congrArg Host.Outcome.next (if_pos (by simpa using h)))

/-- From any other die it crosses Gauze. -/
theorem completion_remote {f : Flit} {s : State} {c : Cpl} (hop : f.op = 0x06) (hf : s.gz.flits.contains f = false) (hc : cplFor s f = some c)
    (hd : f.dst = 0) (h0 : f.src ≠ 0) (hup : dieUp s f.src = true) : exec (.completion f) s = .next (sendCpl s c) :=
  (exec_completion hop hf hc hd).trans (congrArg Host.Outcome.next (if_neg (by simp [h0, hup])))

/-- A completion that finds its output free and credits on its way is delivered. -/
theorem sendCpl_delivers {s b : State} {c : Cpl} {g : Flit} (ho : outputBusy s (cplFlit s c) = false)
    (hg : goes true s (cplFlit s c) = some (some g, b)) : sendCpl s c = deliver b c := by
  unfold sendCpl
  rw [ho, hg]
  rfl

/-- One whose output sends another class first, or that finds no credit, waits. -/
theorem sendCpl_waits {s : State} {c : Cpl} (h : outputBusy s (cplFlit s c) = true ∨ goes true s (cplFlit s c) = none) : sendCpl s c = s := by
  unfold sendCpl
  rcases h with h | h
  · exact if_pos h
  · rw [h]; exact ite_self s

/-- A slot of a ring lies within the ring. -/
theorem ringSlot_lt {r : Rec} (g : Ring) (h : fld r 4 + 16 * ringSize r ≤ farBase) : fld r 4 + 16 * (g.tail % ringSize r) < farBase := by
  have hlt : g.tail % ringSize r < ringSize r := Nat.mod_lt _ (Nat.two_pow_pos _)
  omega

/-- A completion that is delivered is taken, and writes its record or, a DONE under QUIET, gives its slot back. -/
theorem deliver_records {b : State} {c : Cpl} {n : Nat} {r : Rec} (hn : cringOf b c.queue = some n) (hr : ringRec b n = some r) :
    let g := ringOf b n
    let t := deliver b c
    t.qm.cpls = b.qm.cpls.erase c ∧
    (c.quiet = true → c.status = stDone → ringOf t n = { g with resv := g.resv - 1 } ∧ t.mem = b.mem) ∧
    (¬(c.quiet = true ∧ c.status = stDone) → ringOf t n = { g with tail := g.tail + 1, resv := g.resv - 1 } ∧
      (MemOk b → fld r 4 + 16 * ringSize r ≤ farBase → Stored b t (fld r 4 + 16 * (g.tail % ringSize r)) (cplBytes b c (ringPhase r g)))) := by
  intro g t
  obtain ⟨hmem, hrings, hcpls⟩ := deliver_is b c n hn
  have hring : ∀ {u : State}, t.qm.rings = u.qm.rings → ringOf t n = ringOf u n := congrArg fun m : FMap Ring => lookD m n {}
  obtain ⟨wmem, wring, -, wcpls, -, -⟩ := writeRecord_is (s := b.onQm fun q => { q with cpls := q.cpls.erase c }) (cplBytes b c) hr
  by_cases hq : c.quiet = true ∧ c.status = stDone
  · have hquiet : (c.quiet && decide (c.status = stDone)) = true := by simpa using hq
    rw [if_pos hquiet] at hmem hrings hcpls
    refine ⟨hcpls, fun _ _ => ⟨(hring hrings).trans (ringOf_setRing _ n _), hmem⟩, fun h => absurd hq h⟩
  · have hquiet : ¬(c.quiet && decide (c.status = stDone)) = true := by simpa using hq
    rw [if_neg hquiet] at hmem hrings hcpls
    refine ⟨hcpls.trans wcpls, fun h1 h2 => absurd ⟨h1, h2⟩ hq, fun _ => ⟨(hring hrings).trans wring, fun hm hfar => ?_⟩⟩
    have hstored := stored_writeMem (s := b.onQm fun q => { q with cpls := q.cpls.erase c }) (bs := cplBytes b c (ringPhase r g)) hm recordBytes_ne
      (ringSlot_lt g hfar)
    exact stored_congr ⟨hstored.bytes, hstored.posted⟩ (hmem.trans wmem)

/-- Settles O18: a deadline ends its command early, a completion is delivered from the state its way leaves, or waits. -/
theorem expiryAndCompletion : Obligations.ExpiryAndCompletion := by
  refine ⟨fun q i s d hd h0 => ?_, fun f s b c n r hop hf hc hdst hway hn hr => ?_, fun f s c hop hf hc hdst h0 hup hw => ?_⟩
  · obtain ⟨hends, hmem, hsticky, hregs⟩ := endEarly_late (cutDenses s fun x => sameDesc x.hdr d.hdr) d
      (dispSource (cutDenses s fun x => sameDesc x.hdr d.hdr) d)
    exact ⟨_, exec_deadlineExpiry hd h0, hends, hmem, hsticky, hregs, cutDenses_none _⟩
  · refine ⟨deliver b c, ?_, deliver_records hn hr⟩
    rcases hway with ⟨hlocal, rfl⟩ | ⟨h0, hup, ho, g, hg⟩
    · exact completion_local hop hf hc hdst hlocal
    · rw [completion_remote hop hf hc hdst h0 hup, sendCpl_delivers ho hg]
  · rw [completion_remote hop hf hc hdst h0 hup, sendCpl_waits hw]

/-! Program instructions that read no memory (R344). -/

/-- A command that runs at the instruction its program stands at does the instruction's body. -/
theorem next_atInstr {p : Nat} {c : Instr} {s : State} {b : State → State} (k : Stands s p c) :
    Host.Outcome.next (atInstr s p c b) = (.next (b s) : Out) := congrArg Host.Outcome.next (atInstr_stands b k)

/-- What setting one program does: no other program, and no other part of the state, changes. -/
theorem setProg_is (s : State) (p : Nat) (f : Prog → Prog) : progOf (setProg s p f) p = f (progOf s p) ∧
    (∀ q, q ≠ p → progOf (setProg s p f) q = progOf s q) ∧ Same { seq := true } s (setProg s p f) :=
  ⟨progOf_setProg s p f, fun q => progOf_setProg_ne s p q f, setProg_same (Same.refl _ s) rfl⟩

/-- Setting a program twice sets it once. -/
theorem setProg_setProg (s : State) (p : Nat) (f g : Prog → Prog) : setProg (setProg s p f) p g = setProg s p fun x => g (f x) := by
  simp [setProg, State.onSeq, put_put]

/-- A program reads the same in two states with the same sequencer. -/
theorem progOf_congr {s t : State} (h : t.seq = s.seq) (p : Nat) : progOf t p = progOf s p := by unfold progOf; rw [h]

/-- WAIT with its counter at the target. -/
theorem wait_reached {p k n : Nat} {s : State} (hs : Stands s p (.wait p k n)) (h : n ≤ look0 (progOf s p).k k) :
    exec (.wait p k n) s = .next (advance s p 1) := (next_atInstr hs).trans (congrArg Host.Outcome.next (if_pos h))

/-- WAIT below its target. -/
theorem wait_waits {p k n : Nat} {s : State} (hs : Stands s p (.wait p k n)) (h : look0 (progOf s p).k k < n) :
    exec (.wait p k n) s = .next s := (next_atInstr hs).trans (congrArg Host.Outcome.next (if_neg (Nat.not_le.mpr h)))

/-- FIRE: one Datum requested, or dropped, and the next word. -/
theorem fire_moves {p : Nat} {s : State} (hs : Stands s p (.fire p)) :
    ∃ t, exec (.fire p) s = .next t ∧ progOf t p = { progOf s p with pc := (progOf s p).pc + 1 } ∧
      (∀ q, q ≠ p → progOf t q = progOf s q) ∧ Same { seq := true, ck := true, sounds := true, seqNo := true } s t ∧
      (s.ck.pending < 16 ∨ s.ck.dropCnt ≠ 2 ^ 48 - 1 → t.sounds = s.sounds ∧ t.seqNo = s.seqNo) ∧
      (s.ck.pending < 16 → t.ck = { s.ck with pending := s.ck.pending + 1 }) ∧
      (16 ≤ s.ck.pending → t.ck = { s.ck with dropCnt := min (s.ck.dropCnt + 1) (2 ^ 48) }) := by
  have hseq : ∀ q, progOf (requestDatum s) q = progOf s q := progOf_congr ((requestDatum_frame s).seq rfl)
  obtain ⟨hp, hother, -⟩ := setProg_is (requestDatum s) p fun g => { g with pc := g.pc + 1 }
  rw [hseq] at hp
  have hck : (advance (requestDatum s) p 1).ck = _ := requestDatum_ck s
  exact ⟨_, next_atInstr hs, hp, fun q hq => (hother q hq).trans (hseq q),
    advance_same (requestDatum_same (Same.refl _ s) rfl rfl rfl) rfl, (requestDatum_sounds s).1,
    fun h => hck.trans (if_pos h), fun h => hck.trans (if_neg (Nat.not_lt.mpr h))⟩

/-- Settles O20: each instruction is a setting of its program, FIRE on the state its request leaves. -/
theorem programInstructionsMoveOn : Obligations.ProgramInstructionsMoveOn :=
  ⟨fun p _ _ s hs h => ⟨_, wait_reached hs h, setProg_is s p _⟩, fun _ _ _ _ => wait_waits, fun _ _ => fire_moves,
   fun p r x1 x2 s hs => by
    refine ⟨_, (next_atInstr hs).trans (congrArg Host.Outcome.next (setProg_setProg s p _ _)), setProg_is s p _⟩,
   fun p s hs h1 => ⟨_, (next_atInstr hs).trans (congrArg Host.Outcome.next (if_pos h1)), setProg_is s p _⟩,
   fun p s hs h3 => ⟨_, (next_atInstr hs).trans (congrArg Host.Outcome.next (if_pos h3)), setProg_is s p _⟩⟩

/-! The phases of a step (R70, R346, R380). -/

/-- After STEP_START every program of the image stands at word 0. -/
theorem startStep_is (s : State) :
    (startStep s).seq.phase = 1 ∧ ∀ r, r ∈ progRecs (startStep s) → progOf (startStep s) (fld r 0) = { st := 1 } := by
  refine ⟨rfl, fun r hr => ?_⟩
  exact congrArg (·.getD {}) (foldl_put_look _ { st := 1 } [] (fld r 0) (.inr ⟨r, hr, rfl⟩))

/-- Where a step may start, it starts once the start gate is counted and the shadow weights are built. -/
theorem exec_stepStart {s : State} (h : mayStart s = true) : exec .stepStart s = .next (startStep (buildShadows (countGate s))) :=
  congrArg Host.Outcome.next (if_pos h)

/-- An open seal gate, with room at every ledger unit, posts the seals. -/
theorem exec_sealGate {s : State} (hph : s.seq.phase = 1) (hst : ∀ p, p ∈ s.seq.progs → p.2.st = 2) (hf : allFetched s = true)
    (hg : sealGateOpen s = true) (hr : sealRoom s = true) : exec .sealGate s = .next (postSeals s) := by
  have hall : s.seq.progs.all (fun p => p.2.st == 2) = true := List.all_eq_true.mpr fun p hp => beq_iff_eq.mpr (hst p hp)
  exact congrArg Host.Outcome.next (if_pos (by rw [hph, hall, hf, hg, hr]; rfl))

/-- With every Datum count kept, the seals join the dispatch list and one Datum is requested. -/
theorem postSeals_is {s : State} (herr : ∀ k, k ∈ musUp s → 18 + k ∉ s.ck.err) :
    (postSeals s).ck = (requestDatum s).ck ∧
    (postSeals s).qm.disp = s.qm.disp ++ (musUp s).map fun k =>
      { hdr := sealHdr s k s.seq.step, cmd := .muSeal (sealHdr s k s.seq.step) k s.seq.step, unit := ledgerUnit k, armed := true,
        started := false } := by
  obtain ⟨hck, hdisp⟩ := foldSeals s.seq.step (musUp s) s herr
  unfold postSeals
  dsimp only
  generalize (musUp s).foldl (postSeal s.seq.step) s = u at *
  refine ⟨?_, ?_⟩
  · exact (requestDatum_ck u).trans (by rw [hck]; exact (requestDatum_ck s).symm)
  · exact (congrArg Qm.disp ((requestDatum_frame u).qm rfl)).trans hdisp

/-- A step budget that counts and expires. -/
theorem exec_stepBudgetExpiry {p : Nat} {s : State} {r : Rec} (hp : progRec s p = some r) (hb : fld r 4 ≠ 0)
    (hc : budgetCounts s (progOf s p) = true) : exec (.stepBudgetExpiry p) s = .next (expireBudget s p) := by
  refine congrArg Host.Outcome.next ?_
  rw [hp]
  exact if_pos (by simp [hb, hc])

/-- A descriptor fetched for a queue stands in that queue's entry of the table. -/
theorem queueOf_mem {s : State} {q : Nat} {x : Fetched} (h : x ∈ (queueOf s q).fetched) : (q, queueOf s q) ∈ s.qm.queues := by
  cases hl : look s.qm.queues q with
  | none => simp [queueOf, lookD, hl] at h
  | some u =>
    have hu : queueOf s q = u := congrArg (·.getD {}) hl
    exact hu ▸ look_mem _ _ _ hl

/-- A program whose budget has expired, with its entries not yet fetched marked late. -/
def budgetEnded (s : State) (p : Nat) : State :=
  (setProg s p fun g => { g with expired := true, st := 2 }).onSeq fun m =>
    { m with posted := m.posted.map fun e => { e with late := e.late || e.prog == p } }

/-- The end of a program's body changes the sequencer alone. -/
theorem budgetEnded_is (s : State) (p : Nat) : progOf (budgetEnded s p) p = { progOf s p with st := 2, expired := true } ∧
    (budgetEnded s p).qm = s.qm ∧ (budgetEnded s p).sv = s.sv ∧ (budgetEnded s p).regs = s.regs ∧ (budgetEnded s p).mem = s.mem :=
  ⟨progOf_setProg s p fun g => { g with expired := true, st := 2 }, rfl, rfl, rfl, rfl⟩

theorem expireBudget_eq (s : State) (p : Nat) : expireBudget s p =
    (budgetEnded (countExpiry s cmdUnit) p).qm.queues.foldl (fun s q =>
      (q.2.fetched.filter fun x => x.prog == some p).foldl (fun s x => endFetched s q.1 x stDeadline) s) (budgetEnded (countExpiry s cmdUnit) p) :=
  rfl

/-- The expiry of a step budget (R70). -/
theorem expireBudget_is (s : State) (p : Nat) :
    progOf (expireBudget s p) p = { progOf s p with st := 2, expired := true } ∧
    (∀ q x, x ∈ (queueOf (expireBudget s p) q).fetched → x ∈ (queueOf s q).fetched ∧ x.prog ≠ some p) ∧
    srcOfUnit cmdUnit ∈ (expireBudget s p).sv.sticky ∧ (expireBudget s p).regs = (bump s 0 0x4018).regs ∧ (expireBudget s p).mem = s.mem := by
  obtain ⟨hsticky, hregs⟩ := countExpiry_is s cmdUnit
  have hframe := countExpiry_frame s cmdUnit
  rw [expireBudget_eq]
  generalize countExpiry s cmdUnit = v at *
  obtain ⟨hp, hqm, hsv, hrg, hm⟩ := budgetEnded_is v p
  generalize budgetEnded v p = w at *
  obtain ⟨kprog, ksv, kregs, kmem, hfetched⟩ := foldQueues p w.qm.queues w
  refine ⟨?_, fun q x hx => ?_, ?_, kregs.trans (hrg.trans hregs), kmem.trans (hm.trans (hframe.mem rfl))⟩
  · rw [kprog, hp, progOf_congr (hframe.seq rfl)]
  · obtain ⟨hold, hother⟩ := hfetched q x hx
    have hq : queueOf w q = queueOf s q := congrArg (fun m : Qm => lookD m.queues q {}) (hqm.trans (hframe.qm rfl))
    exact ⟨hq ▸ hold, hother _ (queueOf_mem hold) hold⟩
  · rw [ksv, hsv]; exact hsticky

/-- Settles O23: the step's start, its seals, its close part and its budget. -/
theorem stepsGoThroughTheirPhases : Obligations.StepsGoThroughTheirPhases :=
  ⟨fun _ h => ⟨_, exec_stepStart h, startStep_is _⟩,
   fun _ hph hst hf hg hr herr => ⟨_, exec_sealGate hph hst hf hg hr, rfl, rfl, postSeals_is herr⟩,
   fun s hph hs => ⟨_, congrArg Host.Outcome.next (if_pos (by simp [hph, hs])), rfl, rfl,
     State.onSeq_same (State.onSeq_same (Same.refl _ s) rfl) rfl, rfl⟩,
   fun p s _ hp hb hc => ⟨_, exec_stepBudgetExpiry hp hb hc, expireBudget_is s p⟩⟩

/-! ST_REARM and ST_RELEASE (R263). -/

/-- A stream reads the same in two states with the same streams. -/
theorem strmOf_congr {s t : State} (h : t.streams = s.streams) (n : Nat) : strmOf t n = strmOf s n := by unfold strmOf; rw [h]

/-- An ST_REARM that its unit may start. -/
theorem exec_stRearm {h : Hdr} {op : RearmOp} {s : State} (hs : canStart s h = true) :
    exec (.stRearm h op) s = .next (match rearmRefusal s h op with
      | some st => complete s h (targetUnit s (.stRearm h op)) st
      | none => rearm s h op) := congrArg Host.Outcome.next (runDesc_start _ hs)

/-- The state in which SET has installed the entry of an ST_REARM. -/
def rearmSet (s : State) (o : RearmOp) : State :=
  if o.set then setStrm s o.stream fun x => { x with sched := put x.sched o.seg (o.wrap, o.pieces) } else s

/-- SET changes the stream's schedule alone. -/
theorem rearmSet_strm (s : State) (o : RearmOp) : strmOf (rearmSet s o) o.stream =
    if o.set = true then { strmOf s o.stream with sched := put (strmOf s o.stream).sched o.seg (o.wrap, o.pieces) } else strmOf s o.stream := by
  unfold rearmSet
  split
  · exact strmOf_setStrm s o.stream _
  · rfl

theorem rearmSet_qm (s : State) (o : RearmOp) : (rearmSet s o).qm = s.qm := by
  unfold rearmSet; split <;> rfl

/-- Of an ABORTED stream without RESTART, an ST_REARM completes with the status that aborted it. -/
theorem rearm_aborted {s : State} {h : Hdr} {o : RearmOp} (hst : (strmOf s o.stream).st = sAborted) (hr : o.restart = false) :
    rearm s h o = complete s h (targetUnit s (.stRearm h o)) (strmOf s o.stream).abort := if_pos (by simp [hst, hr])

/-- Any other one without RESTART completes with DONE once SET has installed its entry. -/
theorem rearm_sets {s : State} {h : Hdr} {o : RearmOp} (hst : (strmOf s o.stream).st ≠ sAborted) (hr : o.restart = false) :
    rearm s h o = complete (rearmSet s o) h (targetUnit s (.stRearm h o)) stDone :=
  (if_neg (by simp [hst])).trans (if_pos (by simp [hr]))

/-- With RESTART the stream goes on from its entry, at once or when the entry in progress ends. -/
theorem rearm_restarts {s : State} {h : Hdr} {o : RearmOp} (hr : o.restart = true) : rearm s h o =
    if (strmOf s o.stream).st = sIdle || (strmOf s o.stream).st = sAborted || (strmOf s o.stream).cur.isNone then
      complete (restartStrm (rearmSet s o) o.stream o.seg) h (targetUnit s (.stRearm h o)) stDone
    else setStrm (markStarted (rearmSet s o) h) o.stream fun x => { x with rearm := x.rearm ++ [(h, o)] } :=
  (if_neg (by simp [hr])).trans (if_neg (by simp [hr]))

/-- What ST_REARM does past its checks (R263). -/
theorem rearm_is (s : State) (h : Hdr) (o : RearmOp) :
    let u := targetUnit s (.stRearm h o)
    let x := strmOf s o.stream
    let t := rearm s h o
    if x.st = sAborted ∧ o.restart = false then Ends s t h u x.abort ∧ t.streams = s.streams
    else if o.restart = false then
      Ends s t h u stDone ∧ strmOf t o.stream = if o.set = true then { x with sched := put x.sched o.seg (o.wrap, o.pieces) } else x
    else if x.st = sIdle ∨ x.st = sAborted ∨ x.cur = none then ∃ l e, e < 2 ^ 32 ∧ t.qm.cpls = l ++ [completionOf h u stDone e]
    else t.qm.cpls = s.qm.cpls ∧ (strmOf t o.stream).rearm = x.rearm ++ [(h, o)] := by
  intro u x t
  by_cases hab : x.st = sAborted ∧ o.restart = false
  · have ht : t = complete s h u x.abort := rearm_aborted hab.1 hab.2
    rw [if_pos hab, ht]
    exact ⟨ends_complete h u x.abort rfl, rfl⟩
  rw [if_neg hab]
  by_cases hr : o.restart = false
  · have ht : t = complete (rearmSet s o) h u stDone := rearm_sets (fun hst => hab ⟨hst, hr⟩) hr
    rw [if_pos hr, ht]
    exact ⟨ends_complete h u stDone (rearmSet_qm s o), rearmSet_strm s o⟩
  rw [if_neg hr]
  have ht : t = _ := rearm_restarts (Bool.not_eq_false o.restart ▸ hr)
  by_cases hnow : x.st = sIdle ∨ x.st = sAborted ∨ x.cur = none
  · rw [if_pos hnow, ht, if_pos (by simpa [or_assoc] using hnow)]
    exact last_complete _ h u stDone
  · rw [if_neg hnow, ht, if_neg (by simpa [or_assoc] using hnow)]
    have hcpls (f : Strm → Strm) : (setStrm (markStarted (rearmSet s o) h) o.stream f).qm.cpls = (rearmSet s o).qm.cpls := rfl
    refine ⟨(hcpls _).trans (congrArg Qm.cpls (rearmSet_qm s o)), ?_⟩
    have hset : (strmOf (rearmSet s o) o.stream).rearm = x.rearm := by rw [rearmSet_strm]; split <;> rfl
    rw [strmOf_setStrm, ← hset]
    rfl

/-- ST_REARM, by its refusal. -/
theorem stRearm_answers {h : Hdr} {op : RearmOp} {s : State} (hs : canStart s h = true) :
    let u := targetUnit s (.stRearm h op)
    let x := strmOf s op.stream
    ∃ t, exec (.stRearm h op) s = .next t ∧
      match rearmRefusal s h op with
      | some st => Ends s t h u st ∧ t.streams = s.streams
      | none =>
        if x.st = sAborted ∧ op.restart = false then Ends s t h u x.abort ∧ t.streams = s.streams
        else if op.restart = false then
          Ends s t h u stDone ∧ strmOf t op.stream = if op.set = true then { x with sched := put x.sched op.seg (op.wrap, op.pieces) } else x
        else if x.st = sIdle ∨ x.st = sAborted ∨ x.cur = none then ∃ l e, e < 2 ^ 32 ∧ t.qm.cpls = l ++ [completionOf h u stDone e]
        else t.qm.cpls = s.qm.cpls ∧ (strmOf t op.stream).rearm = x.rearm ++ [(h, op)] := by
  intro u x
  refine ⟨_, exec_stRearm hs, ?_⟩
  cases rearmRefusal s h op with
  | some st => exact ⟨ends_complete h u st rfl, rfl⟩
  | none => exact rearm_is s h op

/-- An ST_RELEASE that its unit may start. -/
theorem exec_stRelease {h : Hdr} {n core bytes : Nat} {s : State} (hs : canStart s h = true) :
    exec (.stRelease h n core bytes) s = .next (if earlierOnUnit s h then s
      else match releaseRefusal s h n core bytes with
        | some st => complete s h (relUnit core) st
        | none => complete (releaseBytes s n bytes ((streamRec s n).getD [])) h (relUnit core) stDone) :=
  congrArg Host.Outcome.next (runDesc_start _ hs)

/-- A release of a stream that no mover produces: REL advances, whatever else is sent for it (R259, R318). -/
theorem releaseBytes_rel {s : State} {n bytes : Nat} {r : Rec} (hr : streamRec s n = some r) (h2 : fld r 2 ≠ 0) :
    (strmOf (releaseBytes s n bytes r) n).rel = ((strmOf s n).rel + bytes) % 2 ^ 64 := by
  unfold releaseBytes
  extract_lets k u
  have hu : (strmOf u n).rel = ((strmOf s n).rel + bytes) % 2 ^ 64 := by rw [strmOf_setStrm]
  have hcredits : Same
      { free := true, pkg := true, regs := true, gz := true, qm := true, rings := true, sounds := true, seqNo := true } u (sendCredits u n k r) :=
    sendCredits_same (Same.refl _ u) rfl rfl rfl rfl rfl rfl rfl rfl
  have hrec : streamRec (sendCredits u n k r) n = some r := (streamRec_img (hcredits.img rfl) n).trans hr
  rw [pump_other hrec h2]
  have hreplay : Same { gz := true } (sendCredits u n k r) (askReplay (sendCredits u n k r) n r) := askReplay_same (Same.refl _ _) rfl
  rw [strmOf_congr ((hreplay.streams rfl).trans (hcredits.streams rfl))]
  exact hu

/-- ST_RELEASE once the earlier descriptors of its unit have completed. -/
theorem stRelease_answers {h : Hdr} {n core bytes : Nat} {s : State} (hs : canStart s h = true) (he : earlierOnUnit s h = false) :
    ∃ t, exec (.stRelease h n core bytes) s = .next t ∧
      match releaseRefusal s h n core bytes with
      | some st => Ends s t h (relUnit core) st ∧ t.streams = s.streams
      | none => (∃ l e, e < 2 ^ 32 ∧ t.qm.cpls = l ++ [completionOf h (relUnit core) stDone e]) ∧
          ∀ r, streamRec s n = some r → fld r 2 ≠ 0 → (strmOf t n).rel = ((strmOf s n).rel + bytes) % 2 ^ 64 := by
  refine ⟨_, exec_stRelease hs, ?_⟩
  rw [if_neg (by simp [he])]
  cases releaseRefusal s h n core bytes with
  | some st => exact ⟨ends_complete h (relUnit core) st rfl, rfl⟩
  | none =>
    refine ⟨last_complete _ h (relUnit core) stDone, fun r hr h2 => ?_⟩
    rw [hr]
    exact releaseBytes_rel hr h2

/-! Stall budgets (R71, R316). -/

/-- STALL_BUDGET_EXPIRY of a defined stream. -/
theorem exec_stallBudgetExpiry {n : Nat} {r : Rec} {s : State} (hr : streamRec s n = some r) : exec (.stallBudgetExpiry n) s =
    .next (if strmWork s n r && !(strmOf s n).reported then
      setStrm (bump (setSticky s (strmSource r)) (consumerDie r) 0x4020) n fun x => { x with reported := true } else s) :=
  congrArg Host.Outcome.next (by rw [hr])

/-- A stream with work queued is reported once. -/
theorem stallBudgetExpiry_reports {n : Nat} {r : Rec} {s : State} (hr : streamRec s n = some r) (hw : strmWork s n r = true)
    (hn : (strmOf s n).reported = false) :
    ∃ t, exec (.stallBudgetExpiry n) s = .next t ∧ strmOf t n = { strmOf s n with reported := true } ∧ strmSource r ∈ t.sv.sticky ∧
      t.regs = (bump s (consumerDie r) 0x4020).regs := by
  have hstick := sticky_frame s (strmSource r)
  have hbump := bump_frame (setSticky s (strmSource r)) (consumerDie r) 0x4020 0
  refine ⟨_, (exec_stallBudgetExpiry hr).trans (congrArg Host.Outcome.next (if_pos (by simp [hw, hn]))), ?_, ?_, ?_⟩
  · rw [strmOf_setStrm, strmOf_congr ((hbump.streams rfl).trans (hstick.streams rfl))]
  · have hsv : ∀ f, (setStrm (bump (setSticky s (strmSource r)) (consumerDie r) 0x4020) n f).sv = (setSticky s (strmSource r)).sv :=
      fun _ => hbump.sv rfl
    rw [hsv]
    exact setSticky_mem s (strmSource r)
  · exact bump_regs_congr (hstick.regs rfl)

/-- Bytes that join what a receiver holds abort no stream, and change no credit. -/
theorem mcHold_strm (s : State) (m : Rec) (lo hi n : Nat) :
    (strmOf (mcHold s m lo hi) n).abort = (strmOf s n).abort ∧ (strmOf (mcHold s m lo hi) n).credits = (strmOf s n).credits ∧
    ((strmOf s n).st = sAborted → (strmOf (mcHold s m lo hi) n).st = sAborted) := by
  unfold mcHold
  extract_lets v h a b
  have hb : (strmOf b n).abort = (strmOf s n).abort ∧ (strmOf b n).credits = (strmOf s n).credits ∧
      ((strmOf s n).st = sAborted → (strmOf b n).st = sAborted) := by
    by_cases hn : n = fld m 5
    · subst hn
      rw [strmOf_setStrm]
      refine ⟨rfl, rfl, fun hst => ?_⟩
      have hst : (strmOf a (fld m 5)).st = sAborted := hst
      simp [hst, sIdle, sAborted]
    · rw [strmOf_setStrm_ne _ _ _ _ hn]
      exact ⟨rfl, rfl, id⟩
  split
  · exact hb
  · exact hb

/-- A stream that is ABORTED produces nothing. -/
theorem produceAll_aborted {n : Nat} {r : Rec} {s : State} (h : (strmOf s n).st = sAborted) (k : Nat) : produceAll n r k s = s := by
  cases k with
  | zero => rfl
  | succ k =>
    have hp : produce s n r = none := if_pos (by simp [h, sRun, sFull, sAborted])
    unfold produceAll
    rw [hp]

/-- It shows neither RUN nor FULL. -/
theorem settleStrm_aborted {n : Nat} {r : Rec} {s : State} (h : (strmOf s n).st = sAborted) : settleStrm s n r = s := by
  have hshow (b : Bool) : showFull s n r b = s := if_pos (by simp [h, sRun, sFull, sAborted])
  unfold settleStrm
  dsimp only
  rw [hshow]
  exact if_neg (by simp [h, sRun, sFull, sAborted])

/-- A mover leaves an ABORTED stream's state, status and credits. -/
theorem pump_aborted {n : Nat} {s : State} (h : (strmOf s n).st = sAborted) :
    (strmOf (pump s n) n).st = sAborted ∧ (strmOf (pump s n) n).abort = (strmOf s n).abort ∧
    (strmOf (pump s n) n).credits = (strmOf s n).credits := by
  unfold pump
  split
  · exact ⟨h, rfl, rfl⟩
  · next r _ =>
    split
    · exact ⟨h, rfl, rfl⟩
    · rw [produceAll_aborted h, settleStrm_aborted h]
      unfold catchUp
      split
      · next m _ =>
        split
        · obtain ⟨hab, hcr, hst⟩ := mcHold_strm s m (mcRecvOf s m).held (strmOf s n).wpos n
          exact ⟨hst h, hab, hcr⟩
        · exact ⟨h, rfl, rfl⟩
      · exact ⟨h, rfl, rfl⟩

/-- A state in which no stream is reported any more. -/
def unreported (s : State) : State := s.onStreams fun m => mapVals (fun _ x => { x with reported := false }) m

/-- Taking the reports back leaves what waits for a stream. -/
theorem unreported_rearm (s : State) (n : Nat) : (strmOf (unreported s) n).rearm = (strmOf s n).rearm := by
  unfold strmOf lookD unreported
  rw [State.onStreams_streams, look_mapVals]
  cases look s.streams n <;> rfl

/-- The arbiter's decision where a reported stream ranks last. -/
theorem exec_stallArbiterDecision {n : Nat} {s : State} (hn : arbitrated s = some n) : exec .stallArbiterDecision s =
    .next (bump (pump (setStrm (abortStream (unreported s) n stStall) n fun x =>
      { x with credits := if x.st = sAborted then 0 else x.credits }) n) 0 0x200C8) :=
  congrArg Host.Outcome.next (by rw [hn]; rfl)

/-- The arbiter aborts the stream that ranks last, which loses its credits (R316). -/
theorem stallArbiterDecision_aborts {n : Nat} {s : State} (hn : arbitrated s = some n) (hr : ∀ x ∈ (strmOf s n).rearm, x.2.restart = false) :
    ∃ t, exec .stallArbiterDecision s = .next t ∧ (strmOf t n).st = sAborted ∧ (strmOf t n).abort = stStall ∧ (strmOf t n).credits = 0 := by
  obtain ⟨hst, hab⟩ := abortStream_strm (unreported s) n stStall (by rw [unreported_rearm]; exact hr)
  refine ⟨_, exec_stallArbiterDecision hn, ?_⟩
  generalize abortStream (unreported s) n stStall = u at *
  have hu := strmOf_setStrm u n fun x => { x with credits := if x.st = sAborted then 0 else x.credits }
  generalize setStrm u n _ = v at *
  rw [if_pos hst] at hu
  obtain ⟨pst, pab, pcr⟩ := pump_aborted (s := v) (n := n) (by rw [hu]; exact hst)
  rw [strmOf_congr ((bump_frame (pump v n) 0 0x200C8 0).streams rfl)]
  exact ⟨pst, by rw [pab, hu]; exact hab, by rw [pcr, hu]⟩

/-! Multicast (R317 to R320). -/

/-- A source's message that may be sent (R317, R320): the next bytes, which every attached receiver's ACKED lets go, of a panel that stands. -/
def maySend (s : State) (f : Flit) : Prop :=
  f.oparg % 2 ^ 48 = look0 s.gz.mcPos f.mgroup % 2 ^ 48 ∧ panelFaulted s f.panel = false ∧
    ∀ m ∈ attachedOf s f.mgroup, look0 s.gz.mcPos f.mgroup + f.payload.length ≤ ackedAt (mcRecvOf s m) + replayWindow

/-- A group's source once it has sent a message: its position, and the replay window. -/
def mcSent (s : State) (f : Flit) : State :=
  s.onGz fun z =>
    { z with mcPos := put z.mcPos f.mgroup (look0 s.gz.mcPos f.mgroup + f.payload.length),
             mcWin := put z.mcWin f.mgroup ((lookD s.gz.mcWin f.mgroup [] ++ f.payload).drop
               ((lookD s.gz.mcWin f.mgroup [] ++ f.payload).length - replayWindow)) }

/-- sendMcast's test. -/
theorem maySend_iff (s : State) (f : Flit) :
    (f.oparg % 2 ^ 48 != look0 s.gz.mcPos f.mgroup % 2 ^ 48 || panelFaulted s f.panel
      || (attachedOf s f.mgroup).any fun m =>
        ackedAt (mcRecvOf s m) + replayWindow < look0 s.gz.mcPos f.mgroup + f.payload.length) = true ↔ ¬ maySend s f := by
  have hgo : (f.oparg % 2 ^ 48 != look0 s.gz.mcPos f.mgroup % 2 ^ 48 || panelFaulted s f.panel
      || (attachedOf s f.mgroup).any fun m =>
        ackedAt (mcRecvOf s m) + replayWindow < look0 s.gz.mcPos f.mgroup + f.payload.length) = false ↔ maySend s f := by
    simp only [maySend, Bool.or_eq_false_iff, bne_eq_false_iff_eq, List.any_eq_false, decide_eq_true_eq, Nat.not_lt, and_assoc]
  rw [← hgo, Bool.not_eq_false]

theorem sendMcast_sends {s : State} {f : Flit} (h : maySend s f) : sendMcast s f = some (sendRemotes (mcSent s f)) :=
  if_neg fun hc => (maySend_iff s f).mp hc h

theorem sendMcast_waits {s : State} {f : Flit} (h : ¬ maySend s f) : sendMcast s f = none := if_pos ((maySend_iff s f).mpr h)

/-- MCAST_DATA of its group's source. -/
theorem exec_mcastData_source {f : Flit} {s : State} (hop : f.op = 0x0A) (hf : fromSource s f = true) :
    exec (.mcastData f) s = .next (match sendMcast s f with | some t => landMcast t f | none => s) := by
  refine congrArg Host.Outcome.next ?_
  rw [asOp_self hop]
  exact if_pos hf

/-- MCAST_DATA on its way. -/
theorem exec_mcastData_lands {f : Flit} {s : State} (hop : f.op = 0x0A) (hf : fromSource s f = false) :
    exec (.mcastData f) s = .next (landMcast s f) := by
  refine congrArg Host.Outcome.next ?_
  rw [asOp_self hop]
  exact if_neg (by simp [hf])

/-- What a source's message adds to its replay window. -/
theorem mcSent_is (s : State) (f : Flit) :
    Same { gz := true } s (mcSent s f) ∧ look0 (mcSent s f).gz.mcPos f.mgroup = look0 s.gz.mcPos f.mgroup + f.payload.length ∧
    (lookD (mcSent s f).gz.mcWin f.mgroup []).length ≤ replayWindow ∧
    ∃ old, old ++ lookD (mcSent s f).gz.mcWin f.mgroup [] = lookD s.gz.mcWin f.mgroup [] ++ f.payload := by
  have hwin : lookD (mcSent s f).gz.mcWin f.mgroup [] = (lookD s.gz.mcWin f.mgroup [] ++ f.payload).drop
      ((lookD s.gz.mcWin f.mgroup [] ++ f.payload).length - replayWindow) := lookD_put_self _ _ _ _
  refine ⟨State.onGz_same (Same.refl _ s) rfl, lookD_put_self _ _ _ _, ?_, ?_⟩
  · rw [hwin, List.length_drop]
    omega
  · rw [hwin]
    exact ⟨_, List.take_append_drop _ _⟩

/-- A receiver with no attachment, of an ABORTED stream, or that holds the bytes already ignores them. -/
theorem takeMcast_ignores {s : State} {f : Flit} {m r : Rec}
    (h : (mcRecvOf s m).attached = false ∨ (strmOf s (fld m 5)).st = sAborted ∨
      nearPos (mcRecvOf s m).held (f.oparg % 2 ^ 48) + f.payload.length ≤ (mcRecvOf s m).held) : takeMcast s f m r = s :=
  if_pos (by simpa [or_assoc] using h)

/-- What a receiver's window has no room for is discarded and counted (R318). -/
theorem takeMcast_discards {s : State} {f : Flit} {m r : Rec}
    (h : ¬((mcRecvOf s m).attached = false ∨ (strmOf s (fld m 5)).st = sAborted ∨
      nearPos (mcRecvOf s m).held (f.oparg % 2 ^ 48) + f.payload.length ≤ (mcRecvOf s m).held))
    (hroom : winBytes r < (nearPos (mcRecvOf s m).held (f.oparg % 2 ^ 48) + f.payload.length + 2 ^ 64 - (strmOf s (fld m 5)).rel) % 2 ^ 64) :
    let t := takeMcast s f m r
    t.streams = s.streams ∧ t.mem = s.mem ∧ t.tw = s.tw ∧ mcRecvOf t m = { mcRecvOf s m with discarded := true } ∧
    t.regs = (bumpBy s f.dst 0x1078 (max 1 (ceilDiv f.payload.length 192))).regs := by
  intro t
  have ht : t = bumpBy (setRecv s m fun v => { v with discarded := true }) f.dst 0x1078 (max 1 (ceilDiv f.payload.length 192)) :=
    (if_neg (by simpa [or_assoc] using h)).trans (if_pos hroom)
  have hbump := bumpBy_frame (setRecv s m fun v => { v with discarded := true }) f.dst 0x1078 (max 1 (ceilDiv f.payload.length 192)) 0
  rw [ht]
  refine ⟨hbump.streams rfl, hbump.mem rfl, hbump.tw rfl, ?_, bumpBy_regs_congr rfl⟩
  have hrecv : mcRecvOf (setRecv s m fun v => { v with discarded := true }) m = { mcRecvOf s m with discarded := true } := lookD_put_self _ _ _ _
  rw [← hrecv]
  unfold mcRecvOf
  rw [hbump.gz rfl]

/-- Bytes written into a receiver's window and held change no memory more. -/
theorem mcHold_written (w : State) (m : Rec) (c : Bool) (lo hi : Nat) :
    let t := mcHold (setRecv w m fun v => { v with resume := v.resume && c }) m lo hi
    t.mem = w.mem ∧ t.tw = w.tw ∧ (mcRecvOf t m).held = ((mcRecvOf w m).hold lo hi).held ∧
      (strmOf t (fld m 5)).fill = ((mcRecvOf w m).hold lo hi).held := by
  have hrecv : mcRecvOf (setRecv w m fun v => { v with resume := v.resume && c }) m =
      { mcRecvOf w m with resume := (mcRecvOf w m).resume && c } := lookD_put_self _ _ _ _
  have hz : Same { gz := true } w (setRecv w m fun v => { v with resume := v.resume && c }) := setRecv_same (Same.refl _ w) rfl
  generalize (setRecv w m fun v => { v with resume := v.resume && c }) = z at *
  have hhold : Same { gz := true, streams := true } z (mcHold z m lo hi) := mcHold_same (Same.refl _ z) rfl rfl
  obtain ⟨hheld, hfill⟩ := mcHold_is z m lo hi
  rw [hrecv] at hheld hfill
  exact ⟨(hhold.mem rfl).trans (hz.mem rfl), (hhold.tw rfl).trans (hz.tw rfl), (congrArg McRecv.held hheld).trans rfl, hfill⟩

/-- Any other bytes are written at their position, and held (R317). -/
theorem takeMcast_writes {s : State} {f : Flit} {m r : Rec}
    (h : ¬((mcRecvOf s m).attached = false ∨ (strmOf s (fld m 5)).st = sAborted ∨
      nearPos (mcRecvOf s m).held (f.oparg % 2 ^ 48) + f.payload.length ≤ (mcRecvOf s m).held))
    (hroom : ¬ winBytes r < (nearPos (mcRecvOf s m).held (f.oparg % 2 ^ 48) + f.payload.length + 2 ^ 64 - (strmOf s (fld m 5)).rel) % 2 ^ 64) :
    let v := mcRecvOf s m
    let p := nearPos v.held (f.oparg % 2 ^ 48)
    let hi := p + f.payload.length
    let lo := max p v.held
    let bs := f.payload.drop (lo - p)
    let t := takeMcast s f m r
    winBad s r lo bs.length = false → t.mem = (winWrite s r lo bs).mem ∧ t.tw = (winWrite s r lo bs).tw ∧
      (mcRecvOf t m).held = (v.hold lo hi).held ∧ (strmOf t (fld m 5)).fill = (v.hold lo hi).held := by
  intro v p hi lo bs t hbad
  have hwrite : Same
      { mem := true, regs := true, tw := true, mu := true, sv := true, i3c := true, sounds := true, seqNo := true } s (winWrite s r lo bs) :=
    winWrite_same (Same.refl _ s) rfl rfl rfl rfl rfl rfl rfl rfl
  have hfault : windowFault (winBad s r lo bs.length) r (winWrite s r lo bs) = winWrite s r lo bs := if_neg (by simp [hbad])
  have hst : (strmOf (winWrite s r lo bs) (fld m 5)).st ≠ sAborted := by
    rw [strmOf_congr (hwrite.streams rfl)]
    exact fun hc => h (.inr (.inl hc))
  have hv : mcRecvOf (winWrite s r lo bs) m = v := by unfold mcRecvOf; rw [hwrite.gz rfl]; rfl
  have ht : t = if (strmOf (windowFault (winBad s r lo bs.length) r (winWrite s r lo bs)) (fld m 5)).st = sAborted then
        windowFault (winBad s r lo bs.length) r (winWrite s r lo bs)
      else mcHold (setRecv (windowFault (winBad s r lo bs.length) r (winWrite s r lo bs)) m fun v =>
        { v with resume := v.resume && f.mgroup == 0 }) m lo hi :=
    (if_neg (by simpa [or_assoc] using h)).trans (if_neg hroom)
  rw [hfault, if_neg hst] at ht
  rw [ht, ← hv]
  exact mcHold_written (winWrite s r lo bs) m (f.mgroup == 0) lo hi

/-- What one copy of a message does at its receiver. -/
theorem takeMcast_is (a : State) (d : Flit) (m r : Rec) :
    let v := mcRecvOf a m
    let p := nearPos v.held (d.oparg % 2 ^ 48)
    let hi := p + d.payload.length
    let lo := max p v.held
    let bs := d.payload.drop (lo - p)
    let t := takeMcast a d m r
    if v.attached = false ∨ (strmOf a (fld m 5)).st = sAborted ∨ hi ≤ v.held then t = a
    else if winBytes r < (hi + 2 ^ 64 - (strmOf a (fld m 5)).rel) % 2 ^ 64 then
      t.streams = a.streams ∧ t.mem = a.mem ∧ t.tw = a.tw ∧ mcRecvOf t m = { v with discarded := true } ∧
      t.regs = (bumpBy a d.dst 0x1078 (max 1 (ceilDiv d.payload.length 192))).regs
    else winBad a r lo bs.length = false → t.mem = (winWrite a r lo bs).mem ∧ t.tw = (winWrite a r lo bs).tw ∧
      (mcRecvOf t m).held = (v.hold lo hi).held ∧ (strmOf t (fld m 5)).fill = (v.hold lo hi).held := by
  intro v p hi lo bs t
  split
  · next h => exact takeMcast_ignores h
  · next h =>
    split
    · next hroom => exact takeMcast_discards h hroom
    · next hroom => exact takeMcast_writes h hroom

/-- A message delivered in one copy, to a receiver whose stream takes its panel. -/
theorem landMcast_takes {s a : State} {f d : Flit} {m r : Rec} (ha : arriveAll s f = ([d], a)) (hup : dieUp a d.dst = true)
    (hm : mcOfFlit a d = some m) (hr : streamRec a (fld m 5) = some r)
    (hp : coreConsumer r = false ∨ panelOfCore a (fld r 5) = some d.panel) : landMcast s f = takeMcast a d m r := by
  unfold landMcast
  rw [ha]
  exact recvMcast_takes hup hm hr hp

/-- The streams of receivers, those that run shown FULL (R319). -/
def showAllFull (s : State) (l : List Rec) : State :=
  l.foldl (fun s m => match streamRec s (fld m 5) with | some r => showFull s (fld m 5) r true | none => s) s

/-- MC_DETACH of a group with attached receivers, the least of whose ACKED is lo. -/
theorem exec_mcDetach {g lo : Nat} {s : State} (h : ((attachedOf s g).map fun m => ackedAt (mcRecvOf s m)).min? = some lo) :
    exec (.mcDetach g) s = .next (if look0 s.gz.mcPos g < lo + replayWindow then s
      else if ((attachedOf s g).map fun m => ackedAt (mcRecvOf s m)).all (· == lo) then
        showAllFull s ((attachedOf s g).filter fun m => fld m 6 == 0)
      else ((attachedOf s g).filter fun m => ackedAt (mcRecvOf s m) == lo).foldl detachRecv s) :=
  congrArg Host.Outcome.next (by dsimp only; rw [h]; rfl)

/-- MC_DETACH's test for receivers that are equally far. -/
theorem allAcked_iff (s : State) (g lo : Nat) : ((attachedOf s g).map fun m => ackedAt (mcRecvOf s m)).all (· == lo) = true ↔
    ∀ m ∈ attachedOf s g, ackedAt (mcRecvOf s m) = lo := by
  simp only [List.all_map, List.all_eq_true, Function.comp_apply, beq_iff_eq]

/-- A source that is 4 MiB ahead of receivers that are equally far waits, and their streams do not run. -/
theorem mcDetach_waits {g lo : Nat} {s : State} (h : ((attachedOf s g).map fun m => ackedAt (mcRecvOf s m)).min? = some lo)
    (hfar : lo + replayWindow ≤ look0 s.gz.mcPos g) (hall : ∀ m ∈ attachedOf s g, ackedAt (mcRecvOf s m) = lo) :
    ∃ t, exec (.mcDetach g) s = .next t ∧
      Same { free := true, regs := true, streams := true, sounds := true, seqNo := true } s t ∧
      ∀ m ∈ attachedOf s g, fld m 6 = 0 → streamRec s (fld m 5) ≠ none → (strmOf t (fld m 5)).st ≠ sRun := by
  refine ⟨_, exec_mcDetach h, ?_⟩
  rw [if_neg (Nat.not_lt.mpr hfar), if_pos ((allAcked_iff s g lo).mpr hall)]
  unfold showAllFull
  refine ⟨foldl_same (Same.refl _ s) fun b x hb => ?_, fun m hm h6 hr => ?_⟩
  · split
    · exact showFull_same hb rfl rfl rfl rfl rfl
    · exact hb
  · exact (full_all _ (fld m 5) s (.inr ⟨m, List.mem_filter.mpr ⟨hm, by simpa using h6⟩, rfl, hr⟩)).2

/-- A source that is 4 MiB ahead of its slowest receiver detaches the slowest. -/
theorem mcDetach_detaches {g lo : Nat} {s : State} (h : ((attachedOf s g).map fun m => ackedAt (mcRecvOf s m)).min? = some lo)
    (hfar : lo + replayWindow ≤ look0 s.gz.mcPos g) (hsome : ∃ m ∈ attachedOf s g, ackedAt (mcRecvOf s m) ≠ lo) :
    ∃ t, exec (.mcDetach g) s = .next t ∧
      ∀ m ∈ attachedOf s g, ackedAt (mcRecvOf s m) = lo → (mcRecvOf t m).attached = false := by
  obtain ⟨x, hx, hne⟩ := hsome
  refine ⟨_, exec_mcDetach h, fun m hm hlo => ?_⟩
  rw [if_neg (Nat.not_lt.mpr hfar), if_neg fun hc => hne ((allAcked_iff s g lo).mp hc x hx)]
  exact detach_all _ (mcKey m) s (.inr ⟨m, List.mem_filter.mpr ⟨hm, by simpa using hlo⟩, rfl⟩)

/-- Settles O32: each command by the state of its stream or group. -/
theorem streamsAndMulticast : Obligations.StreamsAndMulticast := by
  refine ⟨fun h op s hs => stRearm_answers hs, fun h n core bytes s hs => ⟨fun he => ?_, stRelease_answers hs⟩,
    fun n r s hr => ⟨stallBudgetExpiry_reports hr, fun hw => ?_⟩, fun s => ⟨fun hn => ?_, fun n => stallArbiterDecision_aborts⟩,
    fun f s hop hf => ⟨fun hmay => ?_, fun hmay => ?_⟩, fun f s a d m r hop hf ha hup hm hr hp => ?_,
    fun g s => ⟨fun hg => ?_, fun lo h => ⟨fun hnear => ?_, mcDetach_waits h, mcDetach_detaches h⟩⟩⟩
  · exact (exec_stRelease hs).trans (congrArg Host.Outcome.next (if_pos he))
  · exact (exec_stallBudgetExpiry hr).trans (congrArg Host.Outcome.next (if_neg (by rcases hw with hw | hw <;> simp [hw])))
  · exact congrArg Host.Outcome.next (by rw [hn])
  · rw [exec_mcastData_source hop hf, sendMcast_waits hmay]
  · obtain ⟨hsame, hpos, hwin, hold⟩ := mcSent_is s f
    exact ⟨mcSent s f, hsame, hpos, hwin, hold, by rw [exec_mcastData_source hop hf, sendMcast_sends hmay]⟩
  · exact ⟨_, (exec_mcastData_lands hop hf).trans (congrArg Host.Outcome.next (landMcast_takes ha hup hm hr hp)), takeMcast_is a d m r⟩
  · exact congrArg Host.Outcome.next (by dsimp only; rw [hg]; rfl)
  · exact (exec_mcDetach h).trans (congrArg Host.Outcome.next (if_pos hnear))

/-! Panel faults and reclaims (R124, R125, R415, R424 to R428). -/

/-- What says which panel a core belongs to, and which panels are FAULTED, is the image in force and the cores. -/
theorem panel_congr {s t : State} (himg : t.img = s.img) (htw : t.tw = s.tw) :
    (∀ g, panelOfCore t g = panelOfCore s g) ∧ (∀ p, panelFaulted t p = panelFaulted s p) ∧ ∀ p, panelCores t p = panelCores s p := by
  have hrec : ∀ p, panelRec t p = panelRec s p := fun p => by unfold panelRec recBy sect; rw [himg]
  refine ⟨fun g => ?_, fun p => ?_, fun p => ?_⟩
  · unfold panelOfCore sect; rw [himg]
  · unfold panelFaulted; rw [hrec, htw]
  · unfold panelCores; rw [hrec]

/-- A panel that is down is so of any state with the same panels and queues. -/
theorem PanelDown.before {s z t : State} {p : Nat} (himg : z.img = s.img) (htw : z.tw = s.tw) (hqm : z.qm = s.qm) (h : PanelDown z t p) :
    PanelDown s t p := by
  unfold PanelDown at *
  rwa [(panel_congr himg htw).2.2, panelQueues_inForce (congrArg Qm.queues hqm) (congrArg Img.inForce himg)] at h

/-- A trigger after steps that leave Selvage's reclaims as they are. -/
theorem Keeps.triggers {s z : State} {r : Reclaim} (k : Keeps s z) (h : r.party.die ≠ 1) :
    Reclaims s (triggerReclaim z r) r ∧ ∀ i, i ∈ s.sv.sticky → i ∈ (triggerReclaim z r).sv.sticky := by
  obtain ⟨hr, hsticky, -⟩ := trigger_is z r h
  exact ⟨Reclaims.before k.reclaim k.waits hr, fun i hi => hsticky i (k.sticky i hi)⟩

/-- A trigger that comes with a fault source: the source is set, and the reclaim triggered. -/
theorem sticky_triggers (s : State) (k : Nat) {r : Reclaim} (h : r.party.die ≠ 1) :
    k ∈ (triggerReclaim (setSticky s k) r).sv.sticky ∧ Reclaims s (triggerReclaim (setSticky s k) r) r :=
  ⟨((Keeps.refl _).triggers h).2 k (setSticky_mem s k), ((keeps_sticky s k).triggers h).1⟩

/-- What a panel fault at a core does to a state u, over its panel (R125). -/
theorem panelFaultAt_is (u : State) {core : Nat} (hc : core < 64) :
    srcOfUnit (coreUnit core) ∈ (panelFaultAt u core).sv.sticky ∧
    match panelOfCore u core with
    | some p =>
      if panelFaulted u p then (panelFaultAt u core).tw = u.tw ∧ (panelFaultAt u core).qm = u.qm ∧ (panelFaultAt u core).sv.reclaim = u.sv.reclaim
      else PanelDown u (panelFaultAt u core) p ∧ Reclaims u (panelFaultAt u core) { party := coreUnit core, kind := 7 }
    | none => Reclaims u (panelFaultAt u core) { party := coreUnit core, kind := 7, reset := true } := by
  have hframe := sticky_frame u (srcOfUnit (coreUnit core))
  have hmem := setSticky_mem u (srcOfUnit (coreUnit core))
  have hkeeps := keeps_sticky u (srcOfUnit (coreUnit core))
  obtain ⟨hpanel, hfaulted, -⟩ := panel_congr (hframe.img rfl) (hframe.tw rfl)
  unfold panelFaultAt
  generalize setSticky u (srcOfUnit (coreUnit core)) = z at *
  simp only [hpanel, hfaulted]
  cases panelOfCore u core with
  | none =>
    obtain ⟨hr, -⟩ := hkeeps.triggers (r := { party := coreUnit core, kind := 7, reset := true }) (core_die core hc)
    exact ⟨((Keeps.refl z).triggers (core_die core hc)).2 _ hmem, hr⟩
  | some p =>
    dsimp only
    by_cases hf : panelFaulted u p = true
    · rw [if_pos hf, if_pos hf]
      exact ⟨hmem, hframe.tw rfl, hframe.qm rfl, hkeeps.reclaim⟩
    · rw [if_neg hf, if_neg hf]
      have hfault := faultPanel_keeps z p
      have hdown := Down.panel (down_faultPanel z p).2 (down_trigger _ { party := coreUnit core, kind := 7 })
      obtain ⟨hr, -⟩ := (hkeeps.trans hfault).triggers (r := { party := coreUnit core, kind := 7 }) (core_die core hc)
      exact ⟨(hfault.triggers (core_die core hc)).2 _ hmem, PanelDown.before (hframe.img rfl) (hframe.tw rfl) (hframe.qm rfl) hdown, hr⟩

/-- PANEL_FAULT where there is no such core, or its die is not up. -/
theorem panelFault_idle {core : Nat} {s : State} (h : 64 ≤ core ∨ dieUp s (coreDie core) = false) : exec (.panelFault core) s = .next s := by
  refine congrArg Host.Outcome.next (if_neg ?_)
  rcases h with h | h
  · simp [Nat.not_lt.mpr h]
  · simp [h]

/-- PANEL_FAULT at a core of a die that is up. -/
theorem exec_panelFault {core : Nat} {s : State} (hc : core < 64) (hup : dieUp s (coreDie core) = true) :
    exec (.panelFault core) s =
      .next (panelFaultAt (cutDenses s fun d => panelOfQueue s d.hdr.queue == panelOfCore s core && (panelOfCore s core).isSome) core) :=
  congrArg Host.Outcome.next (if_pos (by simp [hc, hup]))

/-- The panels that a lost die faults set no sticky bit back. -/
theorem faultDiePanels_sticky (s : State) (d k : Nat) (h : k ∈ s.sv.sticky) : k ∈ (faultDiePanels s d).sv.sticky := by
  have hpanel (s : State) (p : Nat) (hk : k ∈ s.sv.sticky) : k ∈ (faultPanel s p).sv.sticky := (faultPanel_keeps s p).sticky k hk
  unfold faultDiePanels
  split
  · generalize (panelsOnDie s d).filter _ = ps
    induction ps generalizing s with
    | nil => exact h
    | cons p ps ih =>
      refine ih _ ?_
      dsimp only
      split
      · next g _ =>
        have hg : (coreUnit g).die ≠ 1 := by unfold coreUnit; dsimp only; omega
        exact (trigger_is _ { party := coreUnit g, kind := 7 } hg).2.1 k (hpanel s p h)
      · exact hpanel s p h
  · exact h

/-- The loss of lock of a die that is up. -/
theorem exec_pllLossOfLock {die : Nat} {s : State} (h1 : die ≠ 1) (hup : dieUp s die = true) :
    exec (.pllLossOfLock die) s = .next (triggerReclaim (faultDiePanels (setSticky
      (bump (s.onCk fun c => { c with locked := c.locked.erase die, grid := c.grid.erase die }) die 0x4028) (srcClock die)) die)
        { party := ⟨die, 15⟩, kind := 7 }) :=
  congrArg Host.Outcome.next (if_neg (by simp [h1, hup]))

/-- A die that loses lock leaves the grid, and is reclaimed after what its panels hold (R56, R124). -/
theorem pllLossOfLock_reclaims {die : Nat} {s : State} (h1 : die ≠ 1) (hup : dieUp s die = true) :
    ∃ t, exec (.pllLossOfLock die) s = .next t ∧ srcClock die ∈ t.sv.sticky ∧
      t.ck.grid = s.ck.grid.erase die ∧ t.ck.locked = s.ck.locked.erase die ∧
      (isTw die = false → Reclaims s t { party := ⟨die, 15⟩, kind := 7 }) ∧
      let u := s.onCk fun c => { c with locked := c.locked.erase die, grid := c.grid.erase die }
      Reclaims (faultDiePanels (setSticky (bump u die 0x4028) (srcClock die)) die) t { party := ⟨die, 15⟩, kind := 7 } := by
  refine ⟨_, exec_pllLossOfLock h1 hup, ?_⟩
  dsimp only
  have hkeeps : Keeps s (s.onCk fun c => { c with locked := c.locked.erase die, grid := c.grid.erase die }) := Keeps.of rfl
  have hck : (s.onCk fun c => { c with locked := c.locked.erase die, grid := c.grid.erase die }).ck =
    { s.ck with locked := s.ck.locked.erase die, grid := s.ck.grid.erase die } := rfl
  generalize (s.onCk fun c => { c with locked := c.locked.erase die, grid := c.grid.erase die }) = u at *
  have hz := (hkeeps.trans (Keeps.of ((bump_frame u die 0x4028 0).sv rfl))).trans (keeps_sticky (bump u die 0x4028) (srcClock die))
  have hmem := setSticky_mem (bump u die 0x4028) (srcClock die)
  have hzck : (setSticky (bump u die 0x4028) (srcClock die)).ck = u.ck :=
    ((sticky_frame _ _).ck rfl).trans ((bump_frame u die 0x4028 0).ck rfl)
  generalize setSticky (bump u die 0x4028) (srcClock die) = z at *
  have hparty : (⟨die, 15⟩ : UnitId).die ≠ 1 := h1
  have hall : Same
      { free := true, pkg := true, regs := true, gz := true, tw := true, mu := true, streams := true, qm := true, seq := true
        img := true, rings := true, snap := true, sv := true, sec := true, i3c := true, sounds := true, seqNo := true }
      z (triggerReclaim (faultDiePanels z die) { party := ⟨die, 15⟩, kind := 7 }) :=
    triggerReclaim_same (faultDiePanels_same (Same.refl _ z) rfl rfl rfl rfl rfl rfl rfl rfl rfl rfl rfl rfl rfl rfl rfl rfl rfl)
      rfl rfl rfl rfl rfl rfl rfl rfl rfl rfl rfl rfl rfl rfl rfl rfl rfl
  have hend : (triggerReclaim (faultDiePanels z die) { party := ⟨die, 15⟩, kind := 7 }).ck = _ := (hall.ck rfl).trans (hzck.trans hck)
  refine ⟨((Keeps.refl _).triggers hparty).2 _ (faultDiePanels_sticky z die _ hmem), by rw [hend], by rw [hend], fun htw => ?_,
    ((Keeps.refl _).triggers hparty).1⟩
  have hnone : faultDiePanels z die = z := if_neg (by simp [htw])
  rw [hnone]
  exact (hz.triggers hparty).1

/-- A compute die is not SV. -/
theorem isTw_ne {d : Nat} (h : isTw d = true) : d ≠ 1 := by
  rintro rfl
  exact absurd h (by decide)

/-- The end of the reclaim that runs by its party's reset (R427 step 6b). -/
theorem reclaimByReset_is {s : State} {r : Reclaim} (hr : s.sv.reclaim = some r) (hw : ∀ x ∈ s.sv.reclaims, x.party.die ≠ 1) :
    ∃ l, (reclaimByReset s r.party).sv.reclaim = (s.sv.reclaims ++ l).head? ∧
      (reclaimByReset s r.party).sv.reclaims = (s.sv.reclaims ++ l).tail ∧
      (reclaimByReset s r.party).sv.freeing = s.sv.freeing ++ [r.party] ∧ (∀ k ∈ s.sv.sticky, k ∈ (reclaimByReset s r.party).sv.sticky) ∧
      (l ≠ [] → isTw r.party.die = true ∧ unitParty r.party = false) ∧
      ∀ x ∈ l, isTw x.party.die = true ∧ x.party.die ≠ r.party.die ∧ x.kind = 7 := by
  have hreset := reset_is s r.party
  have hbefore : ∃ l, (if unitParty r.party then s else faultDiePanels s r.party.die).sv.reclaims = s.sv.reclaims ++ l ∧
      (if unitParty r.party then s else faultDiePanels s r.party.die).sv.freeing = s.sv.freeing ∧
      (∀ k ∈ s.sv.sticky, k ∈ (if unitParty r.party then s else faultDiePanels s r.party.die).sv.sticky) ∧
      (l ≠ [] → isTw r.party.die = true ∧ unitParty r.party = false) ∧
      ∀ x ∈ l, isTw x.party.die = true ∧ x.party.die ≠ r.party.die ∧ x.kind = 7 := by
    cases hu : unitParty r.party with
    | true => exact ⟨[], (List.append_nil _).symm, rfl, fun _ hk => hk, fun h => absurd rfl h, fun x hx => absurd hx List.not_mem_nil⟩
    | false =>
      obtain ⟨l, -, hwaits, hfree, hsticky, htw, hl⟩ := faultDiePanels_waits s r.party.die r hr rfl
      exact ⟨l, hwaits, hfree, hsticky, fun h => ⟨htw h, rfl⟩, hl⟩
  generalize (if unitParty r.party then s else faultDiePanels s r.party.die) = z at *
  obtain ⟨l, hwaits, hfree, hsticky, htw, hl⟩ := hbefore
  have hall : ∀ x ∈ s.sv.reclaims ++ l, x.party.die ≠ 1 := fun x hx =>
    (List.mem_append.mp hx).elim (hw x) fun hx => isTw_ne (hl x hx).1
  have hlist := hreset.waits.trans hwaits
  obtain ⟨hhead, htail, hfreeing, hkept⟩ := end_is (bump (resetParty s r.party) 1 0x10060) r.party (by rw [hlist]; exact hall)
  rw [hlist] at hhead htail
  rw [hreset.freeing, hfree] at hfreeing
  exact ⟨l, hhead, htail, hfreeing, fun k hk => hkept k (hreset.sticky k (hsticky k hk)), htw, hl⟩

/-- RELEASED of any party but the one under reclaim. -/
theorem released_idle {party : UnitId} {s : State} (h : ∀ r, s.sv.reclaim = some r → r.party ≠ party) : exec (.released party) s = .next s := by
  refine congrArg Host.Outcome.next ?_
  cases hr : s.sv.reclaim with
  | none => rfl
  | some r => exact if_pos (by simpa using h r hr)

/-- RELEASED of the party under reclaim. -/
theorem exec_released {party : UnitId} {s : State} {r : Reclaim} (hr : s.sv.reclaim = some r) (hp : r.party = party) :
    exec (.released party) s = .next
      (if s.sv.suppress.contains party.die then s.onSv fun v => { v with suppress := v.suppress.erase party.die }
       else if r.reset then reclaimByReset s party else endReclaim (liftFence s party) party) := by
  refine congrArg Host.Outcome.next ?_
  rw [hr]
  exact if_neg (by simp [hp])

/-- RELEASED by the party under reclaim, not suppressed, ends the reclaim (R427 step 6a). -/
theorem released_ends {party : UnitId} {s : State} {r : Reclaim} (hr : s.sv.reclaim = some r) (hp : r.party = party)
    (hw : ∀ x ∈ s.sv.reclaims, x.party.die ≠ 1) (hs : party.die ∉ s.sv.suppress) :
    ∃ t l, exec (.released party) s = .next t ∧ t.sv.reclaim = (s.sv.reclaims ++ l).head? ∧
      t.sv.reclaims = (s.sv.reclaims ++ l).tail ∧ t.sv.freeing = s.sv.freeing ++ [party] ∧ (∀ k ∈ s.sv.sticky, k ∈ t.sv.sticky) ∧
      (l ≠ [] → r.reset = true ∧ isTw party.die = true ∧ unitParty party = false) ∧
      ∀ x ∈ l, isTw x.party.die = true ∧ x.party.die ≠ party.die ∧ x.kind = 7 := by
  subst hp
  rw [exec_released hr rfl, if_neg (by simpa using hs)]
  cases hreset : r.reset with
  | true =>
    obtain ⟨l, hhead, htail, hfree, hsticky, htw, hl⟩ := reclaimByReset_is hr hw
    exact ⟨_, l, rfl, hhead, htail, hfree, hsticky, fun h => ⟨rfl, htw h⟩, hl⟩
  | false =>
    have hlift := lift_is s r.party
    obtain ⟨hhead, htail, hfree, hsticky⟩ := end_is (liftFence s r.party) r.party (by rw [hlift.waits]; exact hw)
    rw [hlift.waits] at hhead htail
    rw [hlift.freeing] at hfree
    refine ⟨_, [], rfl, ?_, ?_, hfree, fun k hk => hsticky k (hlift.sticky k hk), fun h => absurd rfl h, fun x hx => absurd hx List.not_mem_nil⟩
    · rw [List.append_nil]; exact hhead
    · rw [List.append_nil]; exact htail

/-- The reclaim timer's expiry (R427 step 6b). -/
theorem reclaimTimeout_ends {s : State} {r : Reclaim} (hr : s.sv.reclaim = some r) (hw : ∀ x ∈ s.sv.reclaims, x.party.die ≠ 1) :
    ∃ t l, exec .reclaimTimeout s = .next t ∧
      srcReclaim ∈ t.sv.sticky ∧ t.sv.reclaim = (s.sv.reclaims ++ l).head? ∧ t.sv.reclaims = (s.sv.reclaims ++ l).tail ∧
      t.sv.freeing = s.sv.freeing ++ [r.party] ∧ (l ≠ [] → isTw r.party.die = true ∧ unitParty r.party = false) ∧
      ∀ x ∈ l, isTw x.party.die = true ∧ x.party.die ≠ r.party.die ∧ x.kind = 7 := by
  have hmem := setSticky_mem s srcReclaim
  have hkeeps := keeps_sticky s srcReclaim
  have hexec : exec .reclaimTimeout s = .next (reclaimByReset (setSticky s srcReclaim) r.party) :=
    congrArg Host.Outcome.next (by rw [hr])
  generalize setSticky s srcReclaim = z at *
  obtain ⟨l, hhead, htail, hfree, hsticky, htw, hl⟩ := reclaimByReset_is (hkeeps.reclaim.trans hr) (by rw [hkeeps.waits]; exact hw)
  rw [hkeeps.waits] at hhead htail
  rw [hkeeps.freeing] at hfree
  exact ⟨_, l, hexec, hsticky _ hmem, hhead, htail, hfree, htw, hl⟩

/-- FREE of a party that is being freed reaches the grantors once. -/
theorem free_frees {party : UnitId} {s : State} (h : party ∈ s.sv.freeing) :
    ∃ t, exec (.free party) s = .next t ∧ t.sv.freeing = s.sv.freeing.erase party ∧ t.sv.reclaim = s.sv.reclaim := by
  have hfree := free_keeps (s.onSv fun v => { v with freeing := v.freeing.erase party }) party
  exact ⟨_, congrArg Host.Outcome.next (if_pos (by simpa using h)), hfree.freeing, hfree.reclaim⟩

/-- A fault source names no other party. -/
theorem isParty_setSticky (s : State) (k : Nat) (u : UnitId) : isParty (setSticky s k) u = isParty s u := by
  have hon : (setSticky s k).sv.on = s.sv.on := by
    unfold setSticky raiseIbi
    dsimp only
    split
    · split <;> rfl
    · rfl
  unfold isParty dieUp
  rw [hon, (sticky_frame s k).pkg rfl]

/-- LEASE_EXPIRY of a kind that does not expire, or of no party. -/
theorem leaseExpiry_idle {kind : Nat} {party : UnitId} {s : State} (h : 3 < kind ∨ isParty s party = false) :
    exec (.leaseExpiry kind party) s = .next s := by
  refine congrArg Host.Outcome.next (if_neg ?_)
  rcases h with h | h
  · simp [Nat.not_le.mpr h]
  · simp [h]

/-- A failed management parity (R415). -/
theorem mgmtParityFailure_reclaims {die : Nat} {s : State} (h : fitted s.pkg.variant die = true) :
    ∃ t, exec (.mgmtParityFailure die) s = .next t ∧ srcMgmt ∈ t.sv.sticky ∧
      (isParty s ⟨die, 15⟩ = true → Reclaims s t { party := ⟨die, 15⟩, kind := 7, reset := true }) := by
  refine ⟨_, congrArg Host.Outcome.next (if_neg (by simp [h])), ?_⟩
  dsimp only
  rw [isParty_setSticky]
  split
  · next hp =>
    obtain ⟨hmem, hr⟩ := sticky_triggers s srcMgmt (r := { party := ⟨die, 15⟩, kind := 7, reset := true }) (party_die hp)
    exact ⟨hmem, fun _ => hr⟩
  · next hp => exact ⟨setSticky_mem s srcMgmt, fun h => absurd h hp⟩

/-- Settles O46: each event by its condition. -/
theorem faultsAndReclaims : Obligations.FaultsAndReclaims :=
  ⟨fun _ _ => ⟨panelFault_idle, fun hc hup => ⟨_, exec_panelFault hc hup, panelFaultAt_is _ hc⟩⟩,
   fun f _ h => cutDenses_none f h,
   fun party s => ⟨fun h => congrArg Host.Outcome.next (if_neg (by simp [h])),
     fun h => ⟨_, congrArg Host.Outcome.next (if_pos h), sticky_triggers s (srcOfUnit party) (party_die h)⟩⟩,
   fun kind party s => ⟨leaseExpiry_idle,
     fun hk h => ⟨_, congrArg Host.Outcome.next (if_pos (by simp [hk, h])), sticky_triggers s (srcOfUnit party) (party_die h)⟩⟩,
   fun _ _ => ⟨fun h => congrArg Host.Outcome.next (if_pos (by simp [h])), mgmtParityFailure_reclaims⟩,
   fun _ _ => ⟨fun h => congrArg Host.Outcome.next (if_pos (by rcases h with h | h <;> simp [h])), pllLossOfLock_reclaims⟩,
   fun _ _ => released_idle,
   fun _ _ _ hr hp hw => ⟨fun hs => ⟨_, exec_released hr hp, by rw [if_pos (by simpa using hs)]; rfl⟩, released_ends hr hp hw⟩,
   fun _ h => congrArg Host.Outcome.next (by rw [h]),
   fun _ _ => reclaimTimeout_ends,
   fun _ _ => ⟨fun h => congrArg Host.Outcome.next (if_neg (by simpa using h)), free_frees⟩⟩

/-! Datum edges (R58, R60, R63). -/

theorem datumDies_nodup : datumDies.Nodup := List.Pairwise.filter _ (List.nodup_range (n := 40))

/-- A state that waits for the sample of a driven Datum no longer shows what a die sees any differently. -/
theorem sees_driven (s : State) (d : Nat) : Sees s (s.onCk fun c => { c with driven := none }) d := ⟨rfl, Iff.rfl, rfl, rfl⟩

/-- R58, R63: the edge on which a driven Datum is sampled. -/
theorem datumEdge_samples {bad : List Nat} {s : State} {n : Nat} (hn : s.ck.driven = some n) :
    ∃ t, exec (.datumEdge bad) s = .next t ∧ t.ck.driven = none ∧ t.ck.pending = s.ck.pending ∧
      ∀ d, d ∈ datumDies → dieUp s d = true → d ∈ s.ck.grid → d ∉ s.ck.err →
        let c := (look0 s.ck.count d + 1) % 2 ^ 32
        if d ∈ bad ∨ bit n 1 ≠ bit c 1 then d ∈ t.ck.err ∧ srcClock d ∈ t.sv.sticky ∧ look0 t.ck.count d = look0 s.ck.count d
        else d ∉ t.ck.err ∧ look0 t.ck.count d = c := by
  have hsample := sample_all (fun d => bad.contains d) n datumDies (s.onCk fun c => { c with driven := none }) datumDies_nodup
  refine ⟨datumSampled s bad n, congrArg Host.Outcome.next (by rw [hn]), ?_⟩
  unfold datumSampled
  dsimp only at hsample
  generalize List.foldl _ (s.onCk _) _ = z at *
  obtain ⟨-, -, hdriven, hpending, -, -, hdies⟩ := hsample
  refine ⟨hdriven, hpending, fun d hd hup hgrid herr => ?_⟩
  simpa only [List.contains_iff_mem, State.onCk_ck] using hdies d hd hup hgrid herr

/-- An edge that samples nothing: a die whose copy is bad gets the error, and a Datum that waits is driven. -/
theorem exec_datumEdge_idle {bad : List Nat} {s : State} (hn : s.ck.driven = none) :
    exec (.datumEdge bad) s = .next (driveDatum ((datumDies.filter bad.contains).foldl (fun s d => sampleDatum s true 0 d) s)) :=
  congrArg Host.Outcome.next (by rw [hn])

/-- Driving a Datum changes which Datum is driven, sent and waiting alone. -/
theorem driveDatum_is (s : State) : (driveDatum s).sv = s.sv ∧ (driveDatum s).ck.count = s.ck.count ∧ (driveDatum s).ck.err = s.ck.err ∧
    (s.ck.pending = 0 → (driveDatum s).ck = s.ck) ∧
    (s.ck.pending ≠ 0 → (driveDatum s).ck =
      { s.ck with pending := s.ck.pending - 1, sent := (s.ck.sent + 1) % 2 ^ 32, driven := some ((s.ck.sent + 1) % 2 ^ 32) }) := by
  have hck : (driveDatum s).ck = if s.ck.pending = 0 then s.ck else
      { s.ck with pending := s.ck.pending - 1, sent := (s.ck.sent + 1) % 2 ^ 32, driven := some ((s.ck.sent + 1) % 2 ^ 32) } := rfl
  refine ⟨rfl, ?_, ?_, fun h => hck.trans (if_pos h), fun h => hck.trans (if_neg h)⟩
  · rw [hck]; split <;> rfl
  · rw [hck]; split <;> rfl

/-- R58, R60, R63: an edge on which no Datum is sampled. -/
theorem datumEdge_drives {bad : List Nat} {s : State} (hn : s.ck.driven = none) :
    ∃ t, exec (.datumEdge bad) s = .next t ∧ t.ck.count = s.ck.count ∧
      (s.ck.pending = 0 → t.ck.driven = none ∧ t.ck.sent = s.ck.sent) ∧
      (s.ck.pending ≠ 0 →
        t.ck.driven = some ((s.ck.sent + 1) % 2 ^ 32) ∧ t.ck.sent = (s.ck.sent + 1) % 2 ^ 32 ∧ t.ck.pending = s.ck.pending - 1) ∧
      ∀ d, d ∈ datumDies → dieUp s d = true → d ∈ s.ck.grid → d ∉ s.ck.err →
        (d ∈ bad → d ∈ t.ck.err ∧ srcClock d ∈ t.sv.sticky) ∧
        (d ∉ bad → d ∉ t.ck.err) := by
  obtain ⟨hother, -, hdriven, hpending, hsent, hcount, hdies⟩ :=
    sample_all (fun _ => true) 0 (datumDies.filter bad.contains) s (List.Pairwise.filter _ datumDies_nodup)
  refine ⟨_, exec_datumEdge_idle hn, ?_⟩
  dsimp only at hother hdriven hpending hsent hcount hdies
  generalize List.foldl _ s _ = z at *
  obtain ⟨hsv, hct, herr, hwait, hdrive⟩ := driveDatum_is z
  refine ⟨hct.trans (hcount fun _ _ => rfl), fun h0 => ?_, fun h0 => ?_, fun d hd hup hgrid hd0 => ⟨fun hbad => ?_, fun hbad => ?_⟩⟩
  · rw [hwait (hpending.trans h0)]; exact ⟨hdriven.trans hn, hsent⟩
  · rw [hdrive (by rw [hpending]; exact h0), ← hsent, ← hpending]; exact ⟨rfl, rfl, rfl⟩
  · have h := hdies d (List.mem_filter.mpr ⟨hd, by simpa using hbad⟩) hup hgrid hd0
    rw [if_pos (.inl rfl)] at h
    rw [hsv, herr]; exact ⟨h.1, h.2.1⟩
  · rw [herr, (hother d (by simp [hbad])).err]; exact hd0

/-! Selvage's fault state (R420 to R422). -/

/-- Without a sticky bit, or while LOCKED, nothing is cleared. -/
theorem clearSticky_idle {s : State} {l : List Nat} (h : s.sv.locked = true ∨ s.sv.sticky = []) : clearSticky s l = s :=
  if_pos (by rcases h with h | h <;> simp [h])

/-- Every sticky bit cleared at once: the fault state is left, and counted. -/
theorem clearSticky_all {s : State} (hl : s.sv.locked = false) (hs : s.sv.sticky ≠ []) :
    clearSticky s s.sv.sticky = countRecovery (s.onSv fun v => { v with sticky := [], quiet := 0 }) := by
  have hrest : (s.sv.sticky.filter fun i => !s.sv.sticky.contains i) = [] := by simp
  unfold clearSticky
  rw [if_neg (by simp [hl, hs]), hrest]
  rfl

/-- R420: the end of the quiet period in the fault state. -/
theorem quietPeriodExpiry_clears {s : State} (hl : s.sv.locked = false) (hs : s.sv.sticky ≠ []) :
    ∃ t, exec .quietPeriodExpiry s = .next t ∧ Same { sv := true, sounds := true, seqNo := true } s t ∧ t.sv.sticky = [] ∧ t.sv.quiet = 0 ∧
      t.sv.recovery = min (s.sv.recovery + 1) (2 ^ 32 - 1) ∧ t.sv.recoverySat = (s.sv.recoverySat || decide (2 ^ 32 - 1 ≤ s.sv.recovery)) ∧
      (s.sv.recovery < 2 ^ 32 - 1 ∨ s.sv.recoverySat = true → t.sounds = s.sounds) := by
  obtain ⟨hsv, hsounds⟩ := countRecovery_is (s.onSv fun v => { v with sticky := [], quiet := 0 })
  refine ⟨_, congrArg Host.Outcome.next (clearSticky_all hl hs), countRecovery_same (State.onSv_same (Same.refl _ s) rfl) rfl rfl rfl, ?_⟩
  rw [hsv]
  exact ⟨rfl, rfl, rfl, rfl, hsounds⟩

/-- R422: a failed check of Selvage's clock. -/
theorem svclkCheckFailure_locks (s : State) :
    ∃ t, exec .svclkCheckFailure s = .next t ∧ Same { sv := true, i3c := true } s t ∧ t.sv.locked = true ∧ srcSvclk ∈ t.sv.sticky :=
  ⟨_, rfl, State.onSv_same (sticky_frame s srcSvclk) rfl, rfl, setSticky_mem s srcSvclk⟩

/-- Settles O47: each event by the state it meets. -/
theorem edgesAndFaultState : Obligations.EdgesAndFaultState :=
  ⟨fun _ _ _ => datumEdge_samples, fun _ _ => datumEdge_drives,
   fun _ => ⟨fun h => congrArg Host.Outcome.next (clearSticky_idle h), quietPeriodExpiry_clears⟩, svclkCheckFailure_locks⟩

end Sys2Proof.Machine
end

section
/-!
PROOFS. The obligations of family 03_number_formats: the values of the FP4 codes and of the E8M0 scales.
-/

namespace Sys2Proof.Machine

open Sys2Proof

/-! FP4 E2M1 (R79, R81): bit 3 is the sign, bits 2 and 1 the exponent, bit 0 the fraction. -/

/-- With exponent field 0 the fraction has no leading 1 and the grid is that of 0.5: FP4 is not flushed (R85). -/
theorem decodeVal_e2m1_subnormal {c : Nat} (he : c / 2 % 4 = 0) : decodeVal 0 c = .fin (bit c 3) (c % 2) (-1) := by
  simp [decodeVal, isFloat, floatFmt, flushes, he]

/-- With another exponent field the fraction has its leading 1. No field stands for an infinity or a NaN. -/
theorem decodeVal_e2m1_normal {c : Nat} (he : c / 2 % 4 ≠ 0) :
    decodeVal 0 c = .fin (bit c 3) (c % 2 + 2) ((c / 2 % 4 : Nat) - 2) := by
  have hbias (i : Int) : i - 1 - 1 = i - 2 := by omega
  simp [decodeVal, isFloat, floatFmt, he, hbias]

/-- The sign bit of a 4-bit code splits the codes 0 to 7 from their negatives. -/
theorem bit_three_of_lt {c : Nat} (hc : c < 16) : bit c 3 = decide (8 ≤ c) := by
  have h : c / 2 ^ 3 % 2 = 1 ↔ 8 ≤ c := by omega
  exact decide_eq_decide.mpr h

/-- R81's table, twice each magnitude: by the exponent and the fraction of the code. -/
theorem decodeVal_e2m1_magnitude (c : Nat) :
    ∃ m e, decodeVal 0 c = .fin (bit c 3) m e ∧ -1 ≤ e ∧ m * 2 ^ (e + 1).toNat = [0, 1, 2, 3, 4, 6, 8, 12].getD (c % 8) 0 := by
  have hcode : c % 8 = 2 * (c / 2 % 4) + c % 2 := by omega
  have hfrac : c % 2 = 0 ∨ c % 2 = 1 := Nat.mod_two_eq_zero_or_one c
  by_cases he : c / 2 % 4 = 0
  · refine ⟨_, _, decodeVal_e2m1_subnormal he, Int.le_refl _, ?_⟩
    rcases hfrac with hm | hm <;> rw [hcode, he, hm] <;> rfl
  · refine ⟨_, _, decodeVal_e2m1_normal he, by omega, ?_⟩
    have hexp : c / 2 % 4 = 1 ∨ c / 2 % 4 = 2 ∨ c / 2 % 4 = 3 := by omega
    rcases hexp with he | he | he <;> rcases hfrac with hm | hm <;> rw [hcode, he, hm] <;> rfl

/-! E8M0 (R88). -/

/-- R88: below 0xFF the code is a biased exponent alone, of significand 1 and no sign. -/
theorem decodeScale_of_lt {c : Nat} (hc : c < 0xFF) : decodeScale c = .fin false 1 ((c : Int) - 127) := by
  have hmod : c % 256 = c := Nat.mod_eq_of_lt (by omega)
  rw [decodeScale, hmod, if_neg (Nat.ne_of_lt hc)]

/-- R88: the one code without a value. -/
theorem decodeScale_255 : decodeScale 0xFF = .nan := if_pos rfl

/-- Settles O2: the FP4 codes by exponent field and sign bit, the E8M0 codes by whether they are 0xFF. -/
theorem valuesOfCodes : Obligations.ValuesOfCodes :=
  ⟨fun c hc => bit_three_of_lt hc ▸ decodeVal_e2m1_magnitude c, fun _ => decodeScale_of_lt, decodeScale_255⟩

end Sys2Proof.Machine
end

section
/-!
PROOFS. The obligations of family 04_twill_array: when the operations of Twill are refused, wait or complete, and what streams, Twill, the
Muslin engines and the optimizer leave unchanged.
-/

namespace Sys2Proof.Machine

open Sys2Proof

/-! TW_MATMUL (R128, R130, R148 to R150). -/

/-- An INDEP TW_MATMUL that nothing else refuses meets a tile in flight at once, whether or not its unit may start it. -/
theorem exec_twMatmul_alias {h : Hdr} {op : MatmulOp} {s : State} (hindep : op.indep = true) (hmay : mayBegin s h = true)
    (href : matmulRefusal s h op = none) (hfly : tilesInFlight s h op = true) :
    exec (.twMatmul h op) s = .next (tileAlias s h op.core) :=
  congrArg Host.Outcome.next (if_pos (by simp [hindep, hmay, href, hfly]))

/-- Any other TW_MATMUL that its unit may start is met by R130's checks, its tiles in flight, its STALE tiles and its windows, in this order. -/
theorem exec_twMatmul_starts {h : Hdr} {op : MatmulOp} {s : State} (hs : canStart s h = true)
    (hclear : op.indep = true → matmulRefusal s h op = none → tilesInFlight s h op = false) :
    exec (.twMatmul h op) s = .next (match matmulRefusal s h op with
      | some st => endMatmul s h op st
      | none =>
        if tilesInFlight s h op then s
        else if staleBad s op op.acc then endMatmul s h op stMalformed
        else match winMeets s (coreWindows s op.core) (startRanges s h op) with
          | .bad => endMatmul s h op stMalformed
          | .wait => setWaits s h (startRanges s h op)
          | .aborted st => endMatmul s h op st
          | .ok => runMatmul s h op) := by
  have hnoAlias : ¬ (op.indep && mayBegin s h && (matmulRefusal s h op).isNone && tilesInFlight s h op) = true := by
    intro halias
    simp only [Bool.and_eq_true, Option.isNone_iff_eq_none] at halias
    obtain ⟨⟨⟨hindep, -⟩, href⟩, hfly⟩ := halias
    simp [hclear hindep href] at hfly
  exact congrArg Host.Outcome.next ((if_neg hnoAlias).trans (runDesc_start _ hs))

/-- TILE_ALIAS completes the operation, and sets its core's source (R149). -/
theorem tileAlias_is (s : State) (h : Hdr) (core : Nat) :
    Ends s (tileAlias s h core) h (coreUnit core) stAlias ∧ srcOfUnit (coreUnit core) ∈ (tileAlias s h core).sv.sticky := by
  have hcount : Same Groups.counted s (bumpCore s core 0xD0 1) := bumpCore_same (Same.refl _ s) rfl rfl rfl
  exact ⟨ends_complete _ _ _ (((sticky_frame _ _).qm rfl).trans (hcount.qm rfl)), sticky_mem _ _⟩

/-- A TW_MATMUL that ends without having run gives up the set loaded for it (R148), and leaves its tiles STALE after STALL_BUDGET (R150). -/
theorem endMatmul_is (s : State) (h : Hdr) (o : MatmulOp) (st : Nat) :
    Ends s (endMatmul s h o st) h (coreUnit o.core) st ∧ (endMatmul s h o st).tw =
      (if st = stStall then staleTiles (dropShadow s o.core h) o.core o.tile (if o.arr then ceilDiv o.m 64 else 1)
       else dropShadow s o.core h).tw := by
  have hdrop : Same { tw := true } s (dropShadow s o.core h) := dropShadow_same (Same.refl _ s) rfl
  have hleft : Same { tw := true } s (if st = stStall then
      staleTiles (dropShadow s o.core h) o.core o.tile (if o.arr then ceilDiv o.m 64 else 1) else dropShadow s o.core h) :=
    ite_same (staleTiles_same hdrop rfl) hdrop
  exact ⟨ends_complete _ _ _ (hleft.qm rfl), rfl⟩

/-- Ended as MALFORMED, it leaves no tile STALE. -/
theorem endMatmul_malformed (s : State) (h : Hdr) (o : MatmulOp) :
    Ends s (endMatmul s h o stMalformed) h (coreUnit o.core) stMalformed ∧ (endMatmul s h o stMalformed).tw = (dropShadow s o.core h).tw :=
  endMatmul_is s h o stMalformed

/-- A STALE tile refuses the operations that continue on it. -/
theorem staleBad_iff (s : State) (o : MatmulOp) (cont : Bool) : staleBad s o cont = true ↔ cont = true ∧ anyStale s o = true :=
  Bool.and_eq_true_iff

/-! TW_DRAIN (R129). -/

/-- A TW_DRAIN that its unit may start is met by its checks, its tiles in flight and its STALE tiles; else its rows are drained. -/
theorem exec_twDrain_starts {h : Hdr} {op : MatmulOp} {s : State} (hs : canStart s h = true) :
    exec (.twDrain h op) s = .next (match drainRefusal s h op with
      | some st => complete s h (coreUnit op.core) st
      | none =>
        if tilesInFlight s h op then s
        else if staleBad s op true then complete s h (coreUnit op.core) stMalformed
        else
          let x := drainRows (arrange s op.core op.arr) op (coreCompat s op.core) (List.range op.m)
          if x.1 then coreFault x.2 h op.core else complete x.2 h (coreUnit op.core) stDone) :=
  congrArg Host.Outcome.next (runDesc_start _ hs)

/-- Rows drained in an arrangement: no word being uncorrectable they all are, the core takes the arrangement (R120), and the tiles and their
lanes stay. -/
theorem drainRows_arranged (s : State) (o : MatmulOp) (compat : Bool) (l : List Nat) :
    let x := drainRows (arrange s o.core o.arr) o compat l
    x.2.qm = s.qm ∧ (CbSound s → x.1 = false) ∧ (coreOf x.2 o.core).arr = o.arr ∧ x.2.tw.lanes = s.tw.lanes ∧ x.2.tw.tiles = s.tw.tiles := by
  intro x
  obtain ⟨harr, herr, hlanes, htiles⟩ := arrange_is s o.core o.arr
  obtain ⟨hkeeps, hsound, hlanes', htiles'⟩ := drainRows_is o compat l (arrange s o.core o.arr)
  have hframe : Same { free := true, regs := true, tw := true, sounds := true, seqNo := true } s x.2 :=
    drainRows_same (arrange_same (Same.refl _ s) rfl) rfl rfl rfl rfl rfl
  refine ⟨hframe.qm rfl, fun hcb => hsound ?_, ?_, hlanes'.trans hlanes, htiles'.trans htiles⟩
  · rw [CbSound, herr]; exact hcb
  · rw [coreOf, hkeeps.cores]; exact harr

/-! TW_MAX and TW_MIN (R144 to R146). -/

/-- A search that its unit may start. -/
theorem exec_twExtremum_starts {low : Bool} {h : Hdr} {op : MaxOp} {s : State} (hs : canStart s h = true) :
    exec (if low = true then .twMin h op else .twMax h op) s = .next (runMax s h op low) := by
  cases low with
  | true => exact congrArg Host.Outcome.next (runDesc_start _ hs)
  | false => exact congrArg Host.Outcome.next (runDesc_start _ hs)

/-- Settles O33: TW_MATMUL and TW_DRAIN by what meets them first, TW_MAX and TW_MIN by their records. -/
theorem twillOperations : Obligations.TwillOperations := by
  refine ⟨fun h op s hindep hmay href hfly => ⟨_, exec_twMatmul_alias hindep hmay href hfly, tileAlias_is s h op.core⟩,
    fun h op s hs hclear => ⟨_, exec_twMatmul_starts hs hclear, ?_⟩,
    fun h op s hs => ⟨_, exec_twDrain_starts hs, ?_⟩,
    fun low h op s hs => ⟨_, exec_twExtremum_starts hs, runMax_is s h op low⟩⟩
  · cases matmulRefusal s h op with
    | some st => exact endMatmul_is s h op st
    | none =>
      by_cases hfly : tilesInFlight s h op = true
      · simp only [if_pos hfly]
      by_cases hstale : op.acc = true ∧ anyStale s op = true
      · simp only [if_neg hfly, if_pos hstale, if_pos ((staleBad_iff s op op.acc).mpr hstale)]
        exact endMatmul_malformed s h op
      simp only [if_neg hfly, if_neg hstale, if_neg (mt (staleBad_iff s op op.acc).mp hstale)]
      cases winMeets s (coreWindows s op.core) (startRanges s h op) with
      | bad => exact endMatmul_malformed s h op
      | wait => rfl
      | aborted st => exact endMatmul_is s h op st
      | ok => exact runMatmul_is s h op
  · cases drainRefusal s h op with
    | some st => exact ⟨ends_complete _ _ _ rfl, rfl⟩
    | none =>
      by_cases hfly : tilesInFlight s h op = true
      · simp only [if_pos hfly]
      by_cases hstale : anyStale s op = true
      · simp only [if_neg hfly, if_pos hstale, if_pos ((staleBad_iff s op true).mpr ⟨rfl, hstale⟩)]
        exact ⟨ends_complete _ _ _ rfl, rfl⟩
      simp only [if_neg hfly, if_neg hstale, if_neg fun hbad => hstale ((staleBad_iff s op true).mp hbad).2]
      intro hcb
      obtain ⟨hqm, hsound, harr, hlanes, htiles⟩ := drainRows_arranged s op (coreCompat s op.core) (List.range op.m)
      rw [hsound hcb]
      exact ⟨ends_complete _ _ _ hqm, harr, hlanes, htiles⟩

/-! Frames. -/

/-- Settles O57: each command's frame, from the state it starts in. -/
theorem framesOfComputeAndOptimizer : Obligations.FramesOfComputeAndOptimizer :=
  ⟨fun _ _ s _ h => execStRearm_same h (Same.refl _ s) rfl rfl rfl rfl rfl rfl rfl rfl rfl rfl rfl rfl rfl rfl rfl rfl rfl rfl,
   fun _ _ _ _ s _ h => execStRelease_same h (Same.refl _ s) rfl rfl rfl rfl rfl rfl rfl rfl rfl rfl rfl rfl rfl rfl rfl rfl rfl rfl,
   fun _ s _ h => execStallBudgetExpiry_same h (Same.refl _ s) rfl rfl rfl rfl rfl rfl,
   fun s _ h => execStallArbiterDecision_same h (Same.refl _ s) rfl rfl rfl rfl rfl rfl rfl rfl rfl rfl rfl rfl rfl rfl rfl rfl rfl rfl,
   fun _ s _ h => execMcastData_same h (Same.refl _ s) rfl rfl rfl rfl rfl rfl rfl rfl rfl rfl rfl rfl rfl rfl rfl rfl rfl rfl,
   fun _ s _ h => execMcDetach_same h (Same.refl _ s) rfl rfl rfl rfl rfl rfl rfl rfl rfl rfl rfl,
   fun _ _ s _ h => execTwMatmul_same h (Same.refl _ s) rfl rfl rfl rfl rfl rfl rfl rfl rfl rfl rfl rfl rfl rfl rfl rfl rfl,
   fun _ _ s _ h => execTwDrain_same h (Same.refl _ s) rfl rfl rfl rfl rfl rfl rfl rfl rfl rfl rfl rfl rfl rfl rfl rfl rfl,
   fun _ _ s _ h => execTwMax_same h (Same.refl _ s) rfl rfl rfl rfl rfl rfl rfl rfl rfl rfl rfl rfl rfl rfl rfl rfl rfl,
   fun _ _ s _ h => execTwMin_same h (Same.refl _ s) rfl rfl rfl rfl rfl rfl rfl rfl rfl rfl rfl rfl rfl rfl rfl rfl rfl,
   fun _ _ s _ h => execMuGather_same h (Same.refl _ s) rfl rfl rfl rfl rfl rfl rfl rfl rfl rfl rfl rfl rfl rfl rfl rfl rfl rfl,
   fun _ _ s _ h => ⟨execMuGradScatter_same h (Same.refl _ s) rfl rfl rfl rfl rfl rfl rfl rfl rfl rfl,
     memSame_of_sameBytes (execMuGradScatter_bytes h (SameBytes.refl s))⟩,
   fun _ _ s _ h => ⟨execMuLedgerAdd_same h (Same.refl _ s) rfl rfl rfl rfl rfl rfl rfl rfl rfl rfl rfl rfl,
     memSame_of_sameBytes (execMuLedgerAdd_bytes h (SameBytes.refl s))⟩,
   fun _ s _ h => execAtomicAdd_same h (Same.refl _ s) rfl rfl rfl rfl rfl rfl rfl rfl rfl rfl rfl rfl,
   fun _ _ _ s _ h => execMuSeal_same h (Same.refl _ s) rfl rfl rfl,
   fun _ s _ h => execSealTakesEffect_same h (Same.refl _ s) rfl rfl rfl rfl rfl rfl rfl rfl,
   fun _ _ _ _ _ s _ h => execMuMigrate_same h (Same.refl _ s) rfl rfl rfl,
   fun _ _ _ s _ h => execMigrationMoving_same h (Same.refl _ s) rfl rfl,
   fun _ _ _ s _ h => execMigrationAbandon_same h (Same.refl _ s) rfl rfl rfl rfl rfl rfl rfl,
   fun _ _ _ s _ h => execMoveStart_same h (Same.refl _ s) rfl rfl rfl rfl rfl rfl rfl rfl rfl rfl,
   fun _ _ _ s _ h => execMoveDone_same h (Same.refl _ s) rfl rfl rfl rfl rfl rfl rfl,
   fun _ _ _ s _ h => execSwitchMsg_same h (Same.refl _ s) rfl,
   fun _ _ _ s _ h => execForwardingEnd_same h (Same.refl _ s) rfl rfl rfl rfl rfl,
   fun _ _ _ _ _ _ s _ h => execMuRowRestore_same h (Same.refl _ s) rfl rfl rfl rfl rfl rfl rfl rfl rfl rfl rfl rfl rfl,
   fun _ _ s _ h => execMuOptDense_same h (Same.refl _ s) rfl rfl rfl rfl rfl rfl rfl rfl rfl rfl rfl rfl rfl rfl,
   fun _ _ _ _ _ s _ h => execMuOptClose_same h (Same.refl _ s) rfl rfl rfl rfl rfl rfl rfl rfl rfl rfl rfl rfl rfl rfl,
   fun _ s _ h => execBankRelease_same h (Same.refl _ s) rfl rfl rfl rfl rfl rfl rfl rfl rfl rfl rfl rfl rfl⟩

end Sys2Proof.Machine
end

section
/-!
PROOFS. The obligation of family 05_accumulation_and_reduction: what AMAX and AMAXD set their register to.
-/

namespace Sys2Proof.Machine

open Sys2Proof

/-! The amax register (R344). -/

/-- The largest of the magnitudes that records carry, found from 0 upward; 0 where one carries none. -/
def topMagnitude (vs : List (Option Val)) : Val :=
  if vs.any Option.isNone then Val.zero
  else vs.foldl (fun m o => match o with | some v => if Val.lt m v then v else m | none => m) Val.zero

/-- Among zeros the largest is 0. -/
theorem topMagnitude_zeros (n : Nat) : topMagnitude (List.replicate n (some Val.zero)) = Val.zero := by
  have hall : (List.replicate n (some Val.zero)).any Option.isNone = false := by simp
  rw [topMagnitude, hall, if_neg Bool.false_ne_true]
  induction n with
  | zero => rfl
  | succ n ih => exact ih (by simp)

/-- A program that sets an amax register and moves on by k words, in a state c with the sequencer of s. -/
theorem advance_setAmax_progOf {s c : State} (hseq : c.seq = s.seq) (p x k : Nat) (vs : List (Option Val)) :
    progOf (advance (setAmax c p x vs) p k) p =
      { progOf s p with pc := (progOf s p).pc + k, x := put (progOf s p).x x (topMagnitude vs) } ∧
    (∀ q, q ≠ p → progOf (advance (setAmax c p x vs) p k) q = progOf s q) := by
  obtain ⟨hset, hsetOther⟩ := setAmax_progOf c p x vs
  obtain ⟨hpc, hpcOther, -⟩ := setProg_is (setAmax c p x vs) p fun g => { g with pc := g.pc + k }
  refine ⟨?_, fun q hq => (hpcOther q hq).trans ((hsetOther q hq).trans (progOf_congr hseq q))⟩
  rw [advance, hpc, hset, progOf_congr hseq]
  rfl

/-- Done at once in s, it changes the sequencer and what counts the bad records, and nothing else. -/
theorem advance_setAmax_is (s : State) (p x k : Nat) (vs : List (Option Val)) :
    progOf (advance (setAmax s p x vs) p k) p =
      { progOf s p with pc := (progOf s p).pc + k, x := put (progOf s p).x x (topMagnitude vs) } ∧
    (∀ q, q ≠ p → progOf (advance (setAmax s p x vs) p k) q = progOf s q) ∧
    Same { Groups.counted with seq := true } s (advance (setAmax s p x vs) p k) := by
  obtain ⟨hp, hother⟩ := advance_setAmax_progOf rfl p x k vs
  exact ⟨hp, hother, advance_same (setAmax_same (Same.refl _ s) rfl rfl rfl rfl) rfl⟩

/-! AMAX (R146, R344). -/

/-- Where no word of n records is in error, none of any one of them is. -/
theorem cbCheck_record_clean {s : State} {core off n i : Nat} (hclean : ∀ e, e ∈ s.tw.cbErr → e.1 ∉ wordsOf core off (8 * n))
    (hi : i < n) : (cbCheck s core [(off + 8 * i, 8)]).1 = false :=
  congrArg Prod.fst (cbCheck_clean s core _ 8 fun e he hw => hclean e he (wordsOf_sub core off n i hi _ hw))

/-- AMAX over records without an error. -/
theorem amax_reads {p x core n off : Nat} {s : State} (hs : Stands s p (.amax p x core n off)) (hup : dieUp s (coreDie core) = true)
    (hclean : ∀ e, e ∈ s.tw.cbErr → e.1 ∉ wordsOf core off (8 * n)) :
    exec (.amax p x core n off) s = .next (advance (setAmax s p x
      ((List.range n).map fun i => amaxVal (dword (cbRead s.tw core off (8 * n)) (8 * i) 8))) p 1) := by
  have hvals : ((List.range n).map fun i =>
      if (cbCheck s core [(off + 8 * i, 8)]).1 then none else amaxVal (dword (cbRead s.tw core off (8 * n)) (8 * i) 8)) =
      (List.range n).map fun i => amaxVal (dword (cbRead s.tw core off (8 * n)) (8 * i) 8) :=
    List.map_congr_left fun i hi => by rw [cbCheck_record_clean hclean (List.mem_range.mp hi), if_neg Bool.false_ne_true]
  refine (next_atInstr hs).trans (congrArg Host.Outcome.next ?_)
  simp only [hup, hvals, cbCheck_clean s core off (8 * n) hclean, Bool.not_true, Bool.false_eq_true, if_false]

/-- AMAX at a core whose die is not up reads zeros. -/
theorem amax_down {p x core n off : Nat} {s : State} (hs : Stands s p (.amax p x core n off)) (hdown : dieUp s (coreDie core) = false) :
    exec (.amax p x core n off) s = .next (advance (setAmax s p x (List.replicate n (some Val.zero))) p 1) :=
  (next_atInstr hs).trans (congrArg Host.Outcome.next (if_pos (by rw [hdown]; rfl)))

/-! AMAXD (R220, R344, R519). -/

/-- AMAXD: the record's value, or none from a lost sector. -/
theorem amaxd_reads {p x da : Nat} {s c : State} {lost : Bool} (hs : Stands s p (.amaxd p x da)) (hread : checkRead s da 8 = (lost, c)) :
    exec (.amaxd p x da) s = .next (advance (setAmax c p x [if lost then none else amaxVal (ofLe (readBytes c.mem da 8))]) p 2) := by
  refine (next_atInstr hs).trans (congrArg Host.Outcome.next ?_)
  simp only [hread]

/-- A read of memory leaves the sequencer as it is. -/
theorem checkRead_seq {s c : State} {a n : Nat} {lost : Bool} (h : checkRead s a n = (lost, c)) : c.seq = s.seq :=
  have hframe : Same { Groups.faulted with mem := true, mu := true } s (checkRead s a n).2 :=
    checkRead_same (Same.refl _ s) rfl rfl rfl rfl rfl rfl rfl
  (Same.ofSnd h hframe).seq rfl

/-- One lost record is counted once in SQ.AMAX_NAN_CNT. -/
theorem setAmax_lost_regs (s : State) (p x : Nat) : (setAmax s p x [none]).regs = (bumpBy s 0 0x40020 1).regs := rfl

/-- Settles O21: each instruction sets the register from its records and moves on, an AMAXD from the state its read leaves. -/
theorem amaxReadsMagnitudes : Obligations.AmaxReadsMagnitudes := by
  refine ⟨fun p x core n off s hs hup hclean => ⟨_, amax_reads hs hup hclean, advance_setAmax_is s p x 1 _⟩,
    fun p x core n off s hs hdown => ⟨_, amax_down hs hdown, ?_⟩,
    fun p x da s c hs hread => ⟨_, amaxd_reads hs hread, ?_⟩,
    fun p x da s c hs hread => ⟨_, amaxd_reads hs hread, ?_⟩⟩
  · have his := advance_setAmax_is s p x 1 (List.replicate n (some Val.zero))
    rwa [topMagnitude_zeros] at his
  · have hframe : Same { regs := true, mu := true, sounds := true, seqNo := true } s c := checkRead_clean hread
    obtain ⟨hp, hother⟩ := advance_setAmax_progOf (checkRead_seq hread) p x 2 [amaxVal (ofLe (readBytes c.mem da 8))]
    have hall : Same { regs := true, mu := true, seq := true, sounds := true, seqNo := true } s c := Same.widen hframe rfl
    rw [← hframe.mem rfl]
    exact ⟨hp, hother, advance_same (setAmax_same hall rfl rfl rfl rfl) rfl⟩
  · exact ⟨(advance_setAmax_progOf (checkRead_seq hread) p x 2 [none]).1, setAmax_lost_regs c p x⟩

end Sys2Proof.Machine
end

section
/-!
PROOFS. The obligations of family 06_muslin_lookup: how MU_GATHER, MU_GRAD_SCATTER and MU_LEDGER_ADD end or wait, and what shadows, twin patches,
patrol scrub, refresh and bandwidth windows leave.
-/

namespace Sys2Proof.Machine

open Sys2Proof

/-! MU_GATHER (R174 to R177). -/

/-- An MU_GATHER that starts completes with the refusal its checks find, or gathers its bags. -/
theorem exec_muGather_starts {h : Hdr} {op : GatherOp} {s : State} (hs : canStart s h = true)
    (hnew : look s.mu.gatherPos (descKey h) = none) :
    exec (.muGather h op) s = .next (match gatherRefusal s h op true, tableRec s op.table with
      | some st, _ => complete s h (engUnit op.engine) st
      | none, some tr => runGather s h op tr
      | none, none => complete s h (engUnit op.engine) stMalformed) :=
  congrArg Host.Outcome.next ((if_neg (by simp [hnew])).trans (runDesc_start _ hs))

/-- A gather whose completion is for its own package completes once its outputs are written. -/
theorem endGather_local {s0 s : State} {h : Hdr} {o : GatherOp} {st : Nat} (hlocal : h.system = false) :
    (endGather s0 h o s st).mem = s.mem ∧
      ∃ l e, e < 2 ^ 32 ∧ (endGather s0 h o s st).qm.cpls = l ++ [completionOf h (engUnit o.engine) st e] := by
  rw [endGather, finish_local _ _ hlocal]
  exact ⟨rfl, last_complete ..⟩

/-! MU_GRAD_SCATTER (R167, R196, R306). -/

/-- An MU_GRAD_SCATTER that starts is met by its checks and by its stream's window; else its adds are sent. -/
theorem exec_muGradScatter_starts {h : Hdr} {op : GatherOp} {s : State} (hs : canStart s h = true)
    (hnew : look s.mu.gatherPos (descKey h) = none) :
    exec (.muGradScatter h op) s = .next (match gatherRefusal s h op false, tableRec s op.table with
      | some st, _ => complete s h (engUnit op.engine) st
      | none, none => complete s h (engUnit op.engine) stMalformed
      | none, some tr =>
        match scatterMeets s op tr with
        | (.bad, _) => complete s h (engUnit op.engine) stMalformed
        | (.wait, rs) => setWaits s h rs
        | (.aborted st, _) => complete s h (engUnit op.engine) st
        | (.ok, _) => runScatter s h op tr) := by
  refine congrArg Host.Outcome.next ?_
  rw [hnew]
  exact runDesc_start _ hs

/-- A scatter that has nothing to send, nothing sent and nothing held, completes with the status of its bags. -/
theorem runScatter_ends {s : State} {h : Hdr} {o : GatherOp} {tr : Rec} {st : Nat} {r g : ScatterRun}
    (hbags : scatterBags h o tr o.nBags 0 { st := markStarted s h } = (st, r)) (hsent : sendEntries h o tr r = g)
    (hnone : g.tags = [] ∧ g.held = []) : runScatter s h o tr = complete g.st h (engUnit o.engine) st := by
  simp [runScatter, hbags, hsent, hnone]

/-- Any other waits, and keeps the adds for which there is no room yet. -/
theorem runScatter_waits {s : State} {h : Hdr} {o : GatherOp} {tr : Rec} {st : Nat} {r g : ScatterRun}
    (hbags : scatterBags h o tr o.nBags 0 { st := markStarted s h } = (st, r)) (hsent : sendEntries h o tr r = g)
    (hsome : ¬(g.tags = [] ∧ g.held = [])) :
    runScatter s h o tr =
      if g.held.isEmpty then waitFor g.st (scatterWaiting h o st g)
      else (waitFor g.st (scatterWaiting h o st g)).onMu fun m => { m with gatherPos := put m.gatherPos (descKey h) { adds := g.held } } := by
  have hgoes : (g.tags.isEmpty && g.held.isEmpty) = false := by simpa using hsome
  simp only [runScatter, hbags, hsent, hgoes, Bool.false_eq_true, if_false]

/-- What waits is the last of the queue manager's list. -/
theorem waitFor_waiting (s : State) (w : Waiting) : ∃ l, (waitFor s w).qm.waiting = l ++ [w] := ⟨_, rfl⟩

/-- A scatter past its checks: it ends, or waits for the answers to what it sent and for room for what it holds. -/
theorem runScatter_is (s : State) (h : Hdr) (o : GatherOp) (tr : Rec) :
    let r := scatterBags h o tr o.nBags 0 { st := markStarted s h }
    let g := sendEntries h o tr r.2
    let t := runScatter s h o tr
    t.gz = g.st.gz ∧
    (g.tags = [] ∧ g.held = [] → ∃ l e, e < 2 ^ 32 ∧ t.qm.cpls = l ++ [completionOf h (engUnit o.engine) r.1 e]) ∧
    (¬(g.tags = [] ∧ g.held = []) → ∃ l, t.qm.waiting = l ++ [scatterWaiting h o r.1 g]) ∧
    (g.held ≠ [] → look t.mu.gatherPos (descKey h) = some { adds := g.held }) := by
  intro r g t
  by_cases hnone : g.tags = [] ∧ g.held = []
  · have ht : t = complete g.st h (engUnit o.engine) r.1 := runScatter_ends rfl rfl hnone
    exact ⟨by rw [ht]; rfl, fun _ => by rw [ht]; exact last_complete .., fun hsome => absurd hnone hsome,
      fun hheld => absurd hnone.2 hheld⟩
  have ht := runScatter_waits (s := s) (h := h) (o := o) (tr := tr) rfl rfl hnone
  change t = _ at ht
  by_cases hheld : g.held = []
  · rw [if_pos (List.isEmpty_iff.mpr hheld)] at ht
    exact ⟨by rw [ht]; rfl, fun h => absurd h hnone, fun _ => by rw [ht]; exact waitFor_waiting .., fun h => absurd hheld h⟩
  · rw [if_neg (mt List.isEmpty_iff.mp hheld)] at ht
    exact ⟨by rw [ht]; rfl, fun h => absurd h hnone, fun _ => by rw [ht]; exact waitFor_waiting .., fun _ => by rw [ht]; exact look_put_self ..⟩

/-! MU_LEDGER_ADD (R190, R198). -/

/-- An MU_LEDGER_ADD that starts is refused, or reads its source. -/
theorem exec_muLedgerAdd_starts {h : Hdr} {op : LedgerAddOp} {s : State} (hs : canStart s h = true)
    (hnew : look s.mu.gatherPos (descKey h) = none) :
    exec (.muLedgerAdd h op) s = .next (match addRefusal s h op with
      | some st => complete (if st = stLinkLost then countLost s op.dev else s) h (engUnit op.engine) st
      | none => runAdd s h op) := by
  refine congrArg Host.Outcome.next ?_
  rw [hnew]
  exact runDesc_start _ hs

/-- Reading ranges counts their sectors, and finds those whose data is lost. -/
theorem checkReads_frame (s : State) (rs : List Range) :
    Same { Groups.faulted with mem := true, mu := true } s (checkReads s rs).2 :=
  checkReads_same (Same.refl _ s) rfl rfl rfl rfl rfl rfl rfl

/-- A lost message is counted at its link die, and nowhere else. -/
theorem countLost_frame (s : State) (dev : Nat) : Same Groups.counted s (countLost s dev) :=
  countLost_same (Same.refl _ s) rfl rfl rfl

/-- The request under which a dense message with the values vs goes to a local die (R190). -/
def denseReq (s : State) (h : Hdr) (o : LedgerAddOp) (vs : List Val) : OutReq :=
  { die := engDie o.engine, tag := newTag s (engDie o.engine), dst := 18 + o.lMuslin, kind := rkAdd, resv := 1,
    flits := ceilDiv vs.length 24, remote := false, queue := h.queue, index := h.index, key := some (descKey h), step := h.stamp,
    dev := o.dev }

/-- That message, for the words from place da on. -/
def denseMsg (s : State) (h : Hdr) (o : LedgerAddOp) (da : Nat) (vs : List Val) : AddMsg :=
  { dst := 18 + o.lMuslin, src := engDie o.engine, tag := newTag s (engDie o.engine), panel := (panelOfQueue s h.queue).getD 0, da := da,
    anchor := o.anchor, dense := true, stepTag := h.stamp % 256, words := vs.map (toGrid o.anchor) }

/-- Both depend on Gauze, the queues and the image alone. -/
theorem dense_congr {a b : State} (hgz : a.gz = b.gz) (hqm : a.qm.queues = b.qm.queues) (himg : a.img = b.img) (h : Hdr) (o : LedgerAddOp)
    (da : Nat) (vs : List Val) : denseReq a h o vs = denseReq b h o vs ∧ denseMsg a h o da vs = denseMsg b h o da vs := by
  simp only [denseReq, denseMsg, newTag_congr hgz, panelOfQueue_congr hqm himg, and_self]

/-- A message to a local die with room for it is sent: its request is outstanding, and the add is on its way. -/
theorem sendDense_local {s : State} {h : Hdr} {o : LedgerAddOp} {j : Nat} (hlocal : o.remote = false)
    (hroom : reqRoom s (denseReq s h o (msgValues s o j)) = true) :
    ∃ t, sendDense s h o j = some t ∧ t.gz.out = s.gz.out ++ [denseReq s h o (msgValues s o j)] ∧
      t.gz.adds = s.gz.adds ++ [denseMsg s h o (o.la + 8 * msgWords * j) (msgValues s o j)] := by
  have hcount : Same { Groups.counted with mu := true } s (noteLoss (bumpBy s (engDie o.engine) 0x11038
      ((msgValues s o j).filter fun v => !v.isFin).length) o.engine o.anchor 1 (msgValues s o j)) :=
    noteLoss_same (bumpBy_same (Same.refl _ s) rfl rfl rfl) rfl
  have hpanel := panelOfQueue_congr (congrArg Qm.queues (hcount.qm rfl)) (hcount.img rfl) h.queue
  unfold denseReq at hroom
  unfold sendDense
  simp only [hlocal, hroom, Bool.false_eq_true, Bool.not_true, if_false]
  refine ⟨_, rfl, ?_, ?_⟩
  · simp only [sendAdd, openReq, State.onGz_gz, State.onQm_gz, hcount.gz rfl, denseReq]
  · simp only [sendAdd, openReq, State.onGz_gz, State.onQm_gz, hcount.gz rfl, hpanel, denseMsg]

/-- A local command of one message is at its end once that is sent. -/
theorem sendAdds_one {s t : State} {h : Hdr} {o : LedgerAddOp} (hone : addMsgs o = 1) (hlocal : o.remote = false)
    (hsent : sendDense s h o 0 = some t) : sendAdds s h o (addMsgs o) 0 = endAdds t h stDone := by
  rw [hone, sendAdds, hone, if_neg (by decide), hlocal, hsent]
  rfl

/-- Lost source data ends the command. -/
theorem runAdd_lost {s : State} {h : Hdr} {o : LedgerAddOp} (hlost : (checkReads s (addSource o)).1 = true) :
    runAdd s h o = complete (checkReads s (addSource o)).2 h (engUnit o.engine) stEcc := by
  unfold runAdd
  simp only [hlost, if_true]

/-- Otherwise the command waits, with messages to send. -/
theorem runAdd_sends {s : State} {h : Hdr} {o : LedgerAddOp} (hread : (checkReads s (addSource o)).1 = false) :
    runAdd s h o = sendAdds (waitFor (checkReads s (addSource o)).2 { hdr := h, unit := engUnit o.engine, tags := [moreKey h], status := 0 })
      h o (addMsgs o) 0 := by
  unfold runAdd
  simp only [hread, Bool.false_eq_true, if_false]

/-- One message's worth to a local die, with room for it: it is sent, and awaited. -/
theorem runAdd_one {s : State} {h : Hdr} {o : LedgerAddOp} (hread : (checkReads s (addSource o)).1 = false) (hlocal : o.remote = false)
    (hone : addMsgs o = 1) :
    let vs := msgValues (checkReads s (addSource o)).2 o 0
    reqRoom s (denseReq s h o vs) = true →
      (runAdd s h o).gz.out = s.gz.out ++ [denseReq s h o vs] ∧ (runAdd s h o).gz.adds = s.gz.adds ++ [denseMsg s h o o.la vs] := by
  intro vs hroom
  let b := waitFor (checkReads s (addSource o)).2 { hdr := h, unit := engUnit o.engine, tags := [moreKey h], status := 0 }
  have hframe : Same { Groups.faulted with mem := true, mu := true, qm := true } s b :=
    waitFor_same (Same.widen (checkReads_frame s (addSource o)) rfl) rfl
  have hqueues : b.qm.queues = s.qm.queues := by
    change (checkReads s (addSource o)).2.qm.queues = _
    rw [(checkReads_frame s (addSource o)).qm rfl]
  obtain ⟨hreq, hmsg⟩ := dense_congr (hframe.gz rfl) hqueues (hframe.img rfl) h o o.la vs
  have hroomB : reqRoom b (denseReq b h o vs) = true := by
    rw [reqRoom_congr (hframe.gz rfl) (hframe.img rfl) (hframe.rings rfl), hreq]; exact hroom
  obtain ⟨t, hsent, hout, hadds⟩ := sendDense_local (j := 0) hlocal hroomB
  have hend : (runAdd s h o).gz = t.gz := by
    rw [runAdd_sends hread, sendAdds_one hone hlocal hsent]; exact (endAdds_frame t h stDone).gz rfl
  rw [hend, hout, hadds, hframe.gz rfl]
  exact ⟨congrArg (s.gz.out ++ [·]) hreq, congrArg (s.gz.adds ++ [·]) hmsg⟩

/-- Settles O34: each command by what its checks, its stream or its source meet, else by what it gathers or sends. -/
theorem gatherScatterAndAdd : Obligations.GatherScatterAndAdd := by
  refine ⟨fun h op s st hs hnew href => ⟨_, (exec_muGather_starts hs hnew).trans (by rw [href]), ends_complete _ _ _ rfl, rfl⟩,
    fun h op s tr lo hi a items b g hs hlocal hnew href htr hkind hone hmap hrange hitems hrows hstays => ?gather,
    fun h op s hs hnew => ?scatter,
    fun h op s hs hnew => ⟨fun st href => ?refused, fun href hlost => ?lost, fun href hread hlocal hone hroom => ?sent⟩⟩
  case gather =>
    refine ⟨runGather s h op tr, (exec_muGather_starts hs hnew).trans (by rw [href, htr]), ?_⟩
    rw [show runGather s h op tr = _ from gather_one hkind hone hmap hrange hitems hrows hnew hstays, Bool.or_comm]
    exact endGather_local hlocal
  case scatter =>
    rw [exec_muGradScatter_starts hs hnew]
    cases gatherRefusal s h op false with
    | some st => exact ⟨_, rfl, ends_complete _ _ _ rfl, rfl⟩
    | none =>
      cases tableRec s op.table with
      | none => exact ⟨_, rfl, ends_complete _ _ _ rfl, rfl⟩
      | some tr =>
        dsimp only
        obtain ⟨w, rs⟩ := scatterMeets s op tr
        cases w with
        | bad => exact ⟨_, rfl, ends_complete _ _ _ rfl, rfl⟩
        | wait => exact ⟨_, rfl, rfl⟩
        | aborted st => exact ⟨_, rfl, ends_complete _ _ _ rfl, rfl⟩
        | ok => exact ⟨_, rfl, runScatter_is s h op tr⟩
  case refused =>
    rw [exec_muLedgerAdd_starts hs hnew, href]
    have hframe : Same Groups.counted s (if st = stLinkLost then countLost s op.dev else s) := ite_same (countLost_frame s op.dev) (Same.refl _ s)
    exact ⟨_, rfl, ends_complete _ _ _ (hframe.qm rfl), hframe.gz rfl⟩
  case lost =>
    rw [exec_muLedgerAdd_starts hs hnew, href]
    dsimp only
    rw [runAdd_lost hlost]
    exact ⟨_, rfl, ends_complete _ _ _ ((checkReads_frame s _).qm rfl), (checkReads_frame s _).gz rfl⟩
  case sent =>
    exact ⟨_, (exec_muLedgerAdd_starts hs hnew).trans (by rw [href]), runAdd_one hread hlocal hone hroom⟩

/-! Shadows (R181, R183). -/

/-- SHADOW_ENTRY_VALID at the owner of an entry makes it VALID unless it is being invalidated. -/
theorem exec_shadowEntryValid_owned {k table row : Nat} {x : Shadow} {s : State} (hx : look s.mu.shadows (rowId table row) = some x)
    (hown : owns s k table row = true) :
    exec (.shadowEntryValid k table row) s = .next (if x.inval then s
      else s.onMu fun m => { m with shadows := put m.shadows (rowId table row) { x with valid := true } }) := by
  refine congrArg Host.Outcome.next ?_
  rw [hx]
  by_cases hi : x.inval = true
  · rw [if_pos hi]; exact if_neg (by simp [hi])
  · rw [if_neg hi]; exact if_pos (by simp [hi, hown])

/-- The state once die d has marked its slots of an entry invalid and its acknowledgement is taken; the last one frees the entry. -/
def shadowAcked (s : State) (d id : Nat) (x : Shadow) : State :=
  s.onMu fun m =>
    { m with
      slotValid := m.slotValid.filter fun q => !((x.slots.filter fun q => q.1 == d).map fun q => slotKey q.1 q.2).contains q
      shadows := if (x.awaited.erase d).isEmpty then del m.shadows id else put m.shadows id { x with awaited := x.awaited.erase d } }

/-- SHADOW_INVALIDATION takes the acknowledgement of a die that is awaited, and a seal that waited for it ends. -/
theorem exec_shadowInvalidation_owned {d k table row : Nat} {x : Shadow} {s : State} (hx : look s.mu.shadows (rowId table row) = some x)
    (hown : owns s k table row = true) :
    exec (.shadowInvalidation d k table row) s =
      .next (if x.inval = true ∧ d ∈ x.awaited then finishSeals (shadowAcked s d (rowId table row) x) else s) := by
  refine congrArg Host.Outcome.next ?_
  rw [hx]
  by_cases hack : x.inval = true ∧ d ∈ x.awaited
  · rw [if_pos hack]
    exact if_pos (by simp [hack, hown])
  · rw [if_neg hack]
    exact if_neg (by simpa [hown] using hack)

/-- None of the die's slots of the entry stays valid, and the entry is freed or awaits the others. -/
theorem shadowAcked_is {s : State} (d : Nat) {id : Nat} (x : Shadow) (hsorted : rising none s.mu.shadows = true) :
    (∀ i, (d, i) ∈ x.slots → slotKey d i ∉ (shadowAcked s d id x).mu.slotValid) ∧
    look (shadowAcked s d id x).mu.shadows id = if x.awaited.erase d = [] then none else some { x with awaited := x.awaited.erase d } := by
  constructor
  · intro i hi hvalid
    have hout := (List.mem_filter.mp hvalid).2
    have hmine : slotKey d i ∈ (x.slots.filter fun q => q.1 == d).map fun q => slotKey q.1 q.2 :=
      List.mem_map.mpr ⟨(d, i), List.mem_filter.mpr ⟨hi, beq_self_eq_true d⟩, rfl⟩
    rw [List.contains_iff_mem.mpr hmine] at hout
    exact Bool.false_ne_true hout
  · simp only [shadowAcked, State.onMu_mu, List.isEmpty_iff]
    split
    · exact look_del_self _ _ hsorted
    · exact look_put_self ..

/-! Twin patches (R215, R399). -/

/-- Closing a row's request changes Gauze alone. -/
theorem closeRow_frame (s : State) (kind k t row : Nat) : Same { gz := true } s (closeRow s kind k t row) :=
  closeRow_same (Same.refl _ s) rfl

/-- So does quarantining its TAG. -/
theorem quarantineRow_frame (s : State) (kind k t row : Nat) : Same { gz := true } s (quarantineRow s kind k t row) :=
  quarantineRow_same (Same.refl _ s) rfl

/-- An answer to a patch is discarded before the twin has acknowledged its journal; after that it ends the attempt. -/
theorem exec_patchAnswer_found {k table row : Nat} {bs : List Byte} {bad : Bool} {p : Patch} {tr : Rec} {s : State}
    (hp : look s.mu.patches (dirKey k table row) = some p) (htr : tableRec s table = some tr) :
    exec (.patchAnswer k table row bs bad) s = .next (if p.active = false ∨ journalAcked s k p = false then s
      else wakePatch (if bad then failPatch (closeRow s rkPatch k table row) k table row p
        else bump (rewriteRow (closeRow s rkPatch k table row) k table row (padTo (rowBytes tr) bs)) (18 + k) 0x11068) k) := by
  refine congrArg Host.Outcome.next ?_
  rw [hp, htr]
  by_cases hidle : p.active = false ∨ journalAcked s k p = false
  · rw [if_pos hidle]; exact if_pos (by simpa using hidle)
  · rw [if_neg hidle]; exact if_neg (by simpa using hidle)

/-- An attempt that is active times out. -/
theorem exec_patchTimeout_found {k table row : Nat} {p : Patch} {s : State} (hp : look s.mu.patches (dirKey k table row) = some p) :
    exec (.patchTimeout k table row) s =
      .next (if p.active then wakePatch (failPatch (quarantineRow s rkPatch k table row) k table row p) k else s) := by
  refine congrArg Host.Outcome.next ?_
  rw [hp]

/-- An attempt that fails after only Gauze has changed is inactive, and counted once more than before (R217). -/
theorem failPatch_afterGauze {s u : State} (hgz : Same { gz := true } s u) (k t row : Nat) (p : Patch) :
    (failPatch u k t row p).mem = s.mem ∧ look (failPatch u k t row p).mu.patches (dirKey k t row) = some { p with active := false } ∧
      (failPatch u k t row p).regs = (bump s (18 + k) 0x11070).regs := by
  obtain ⟨hmem, hpatch, hregs⟩ := failPatch_is u k t row p
  exact ⟨hmem.trans (hgz.mem rfl), hpatch, hregs.trans (bump_regs_congr (hgz.regs rfl))⟩

/-- Where no row of MUk waits, none is woken. -/
theorem wakePatch_none {s : State} {k : Nat} (hnone : ∀ x ∈ s.mu.patchWait, x / 2 ^ 43 ≠ k) : wakePatch s k = s := by
  have hfind : (s.mu.patchWait.find? fun key => key / 2 ^ 43 == k) = none :=
    List.find?_eq_none.mpr fun x hx => by simpa using hnone x hx
  rw [wakePatch, hfind]

/-! Patrol scrub (R265, R266). -/

/-- SCRUB_READ at a stack that is up looks at one sector and moves on. -/
theorem exec_scrubRead_up {d half : Nat} {s : State} (hup : dieUp s d = true) (hmu : isMu d = true)
    (hstack : stackUp s (2 * (d - 18) + half) = true) :
    exec (.scrubRead d half) s =
      .next (scrubMove (scrubSector s (stackSize * (2 * (d - 18) + half) + 64 * look0 s.mu.scrubPos (d * 2 + half))) d half
        (look0 s.mu.scrubPos (d * 2 + half)) (stackSize / 64)) :=
  congrArg Host.Outcome.next ((if_neg (by simp [hup])).trans (if_pos (by simp [hmu, hstack])))

/-- The scrub's place moves on by one, and from the last back to the first. -/
theorem scrubMove_is (s : State) (d h pos last : Nat) :
    Same { mu := true } s (scrubMove s d h pos last) ∧
      look0 (scrubMove s d h pos last).mu.scrubPos (d * 2 + h) = if pos + 1 < last then pos + 1 else 0 := by
  refine ⟨scrubMove_same (Same.refl _ s) rfl, ?_⟩
  unfold scrubMove
  split
  · exact lookD_put_self ..
  · exact lookD_put_self ..

/-- A sector without an error is left as it is. -/
theorem scrubSector_clean {s : State} {a : Nat} (hclean : look s.mem.latent (a / 64) = none) : scrubSector s a = s := by
  rw [scrubSector, hclean]

/-- A corrected sector is rewritten: its error is gone. -/
theorem scrubSector_corrected {s : State} {a : Nat} (hsorted : rising none s.mem.latent = true)
    (herr : look s.mem.latent (a / 64) = some false) : look (scrubSector s a).mem.latent (a / 64) = none := by
  rw [scrubSector, herr]
  simp only [State.onMem_mem, read_corr s _ herr]
  exact look_del_self _ _ hsorted

/-- An uncorrectable sector reads as lost, and what is then marked of its rows and ledger entries is not memory. -/
theorem scrubSector_lost {s : State} {a : Nat} (herr : look s.mem.latent (a / 64) = some true) :
    (scrubSector s a).mem = (readSector s (a / 64)).2.mem := by
  have hrows (l : List (Nat × Nat × Nat)) (c : State) :
      Same { Groups.counted with free := true, gz := true, mu := true, seq := true } c (l.foldl (fun s x =>
        match shardPlace s x.2.1 x.2.2 with | some (_, da) => markPoisoned s x.1 x.2.1 x.2.2 da | none => s) c) := by
    refine foldl_same (Same.refl _ c) fun b x hb => ?_
    split
    · exact markPoisoned_same hb rfl rfl rfl rfl rfl
    · exact hb
  rw [scrubSector, herr]
  dsimp only
  split
  · exact (loseLedger_same (hrows _ _) rfl rfl rfl rfl rfl rfl).mem rfl
  · exact (hrows _ _).mem rfl

/-- SCRUB_READ by what its sector holds. -/
theorem scrubRead_is {d half i : Nat} {s : State} (hok : TablesOk s) (hup : dieUp s d = true) (hmu : isMu d = true)
    (hstack : stackUp s (2 * (d - 18) + half) = true)
    (hi : i = (stackSize * (2 * (d - 18) + half) + 64 * look0 s.mu.scrubPos (d * 2 + half)) / 64) :
    let pos := look0 s.mu.scrubPos (d * 2 + half)
    ∃ t, exec (.scrubRead d half) s = .next t ∧
      match look s.mem.latent i with
      | none => Same { mu := true } s t ∧ look0 t.mu.scrubPos (d * 2 + half) = if pos + 1 < stackSize / 64 then pos + 1 else 0
      | some false => look t.mem.latent i = none ∧ look0 t.mu.scrubPos (d * 2 + half) = if pos + 1 < stackSize / 64 then pos + 1 else 0
      | some true => t.mem = (readSector s i).2.mem := by
  intro pos
  refine ⟨_, exec_scrubRead_up hup hmu hstack, ?_⟩
  obtain ⟨hframe, hpos⟩ := scrubMove_is (scrubSector s (stackSize * (2 * (d - 18) + half) + 64 * pos)) d half pos (stackSize / 64)
  subst hi
  split
  next hclean =>
    rw [scrubSector_clean hclean] at hframe hpos ⊢
    exact ⟨hframe, hpos⟩
  next herr => exact ⟨by rw [hframe.mem rfl]; exact scrubSector_corrected hok.latent herr, hpos⟩
  next herr => rw [hframe.mem rfl]; exact scrubSector_lost herr

/-! Refresh and bandwidth windows (R252, R253, R267). -/

/-- REFRESH of a bank of a stack that is up sets its count to no more than it was. -/
theorem exec_refresh_up {st b : Nat} {s : State} (hup : stackUp s st = true) (hb : b < 2048) :
    exec (.refresh st b) s = .next (setActs s.took (st * 2048 + b) (bankActs s (st * 2048 + b) - fresh s % 2 ^ 16)) :=
  congrArg Host.Outcome.next (if_neg (by simp [hup, hb]))

/-- A claimant's guaranteed part comes first, and what is left is only added to it. -/
theorem grantShare_guarantees (total : Nat) (g : Nat → Nat) (last : Nat) {wants : List (Nat × Nat)} (hnodup : (wants.map (·.1)).Nodup)
    {x : Nat × Nat} (hx : x ∈ wants) : min x.2 (g x.1) ≤ look0 (grantShare total g last wants).1 x.1 := by
  let parts := wants.map fun w => (w.1, min w.2 (g w.1))
  have hkeys : (parts.map (·.1)).Nodup := by
    rw [show parts.map (·.1) = wants.map (·.1) by simp [parts, Function.comp_def]]
    exact hnodup
  have hpart : (x.1, min x.2 (g x.1)) ∈ parts := List.mem_map_of_mem (f := fun w => (w.1, min w.2 (g w.1))) hx
  exact Nat.le_trans ((first_is parts hkeys []).1 _ hpart) (rr_mono ..)

/-- Settles O37: each event by the entry, patch, sector or bank it meets. -/
theorem upkeepEvents : Obligations.UpkeepEvents := by
  refine ⟨fun k table row x s hx hown => ⟨fun hi => ?valid, fun hi => ?invalid⟩,
    fun d k table row x s hx hown hsorted => ⟨fun hidle => ?notAwaited, fun hi hd => ?acked⟩,
    fun k table row bs bad p tr s hp htr => ⟨fun hidle => ?early, fun hact hack hbad => ?poisoned, fun hact hack hbad => ?rewritten⟩,
    fun k table row p s hp => ⟨fun hidle => ?ended, fun hact => ?timeout⟩,
    fun k s hnone => wakePatch_none hnone,
    fun table row s => ⟨fun ⟨hup, hst⟩ => ⟨_, congrArg Host.Outcome.next (if_pos (by simp [hup, hst])), rfl⟩,
      fun hdown => congrArg Host.Outcome.next (if_neg ?down)⟩,
    fun d half s hok hup hmu hstack => scrubRead_is hok hup hmu hstack rfl,
    fun st b s => ⟨fun hidle => congrArg Host.Outcome.next (if_pos ?noBank), fun hup hb => ?refreshed⟩,
    fun far i s => ⟨fun hfar hi => ?noPort, fun hfar hdown => ?noDie, fun hfar hi => ?port, fun hfar hmu hup => ?die⟩,
    fun total g last wants hnodup x hx => grantShare_guarantees total g last hnodup hx⟩
  case valid =>
    rw [exec_shadowEntryValid_owned hx hown, if_neg (by simp [hi])]
    exact ⟨_, rfl, State.onMu_same (Same.refl _ s) rfl, look_put_self ..⟩
  case invalid => rw [exec_shadowEntryValid_owned hx hown, if_pos hi]
  case notAwaited =>
    rw [exec_shadowInvalidation_owned hx hown, if_neg]
    rintro ⟨hi, hd⟩
    rcases hidle with hn | hn
    · exact Bool.false_ne_true (hn.symm.trans hi)
    · exact hn hd
  case acked =>
    obtain ⟨hslots, hentry⟩ := shadowAcked_is d (id := rowId table row) x hsorted
    obtain ⟨hshadows, hvalid⟩ := fs_shadows (shadowAcked s d (rowId table row) x)
    rw [exec_shadowInvalidation_owned hx hown, if_pos ⟨hi, hd⟩]
    exact ⟨_, rfl, by rw [hvalid]; exact hslots, by rw [hshadows]; exact hentry⟩
  case early => rw [exec_patchAnswer_found hp htr, if_pos hidle]
  case poisoned =>
    rw [exec_patchAnswer_found hp htr, if_neg (by simp [hact, hack]), if_pos hbad]
    exact ⟨_, rfl, failPatch_afterGauze (closeRow_frame ..) ..⟩
  case rewritten =>
    rw [exec_patchAnswer_found hp htr, if_neg (by simp [hact, hack]), if_neg (by simp [hbad])]
    exact ⟨_, rfl, (bumpBy_frame ..).mem rfl, rfl⟩
  case ended => rw [exec_patchTimeout_found hp, if_neg (by simp [hidle])]
  case timeout =>
    rw [exec_patchTimeout_found hp, if_pos hact]
    exact ⟨_, rfl, failPatch_afterGauze (quarantineRow_frame ..) ..⟩
  case down => rcases hdown with h | h <;> simp [h]
  case noBank => simpa using hidle
  case refreshed =>
    refine ⟨_, exec_refresh_up hup hb, setActs_same (State.took_same (Same.refl _ s) rfl) rfl, ?_, fun k hk => ?_⟩
    · rw [bankActs_setActs, if_pos rfl]; exact Nat.sub_le ..
    · rw [bankActs_setActs, if_neg hk]; rfl
  case noPort => exact congrArg Host.Outcome.next ((if_pos hfar).trans (if_pos hi))
  case noDie => exact congrArg Host.Outcome.next ((if_neg (by simp [hfar])).trans (if_pos (by simpa using hdown)))
  case port =>
    exact ⟨_, congrArg Host.Outcome.next ((if_pos hfar).trans (if_neg (Nat.not_le.mpr hi))), openShare_far _ _ _ _ _ _ (Nat.le_add_right ..)⟩
  case die =>
    obtain ⟨t, ht⟩ := exec_next (.bandwidthWindow far i) s
    exact ⟨t, ht, execBandwidthWindow_same ht (Same.refl _ s) rfl rfl rfl rfl rfl⟩

end Sys2Proof.Machine
end

section
/-!
PROOFS. The obligations of family 07_muslin_updates: control register writes, adds to the ledgers and their seals, the restore and the migration
of a row, and the optimizer's commands.
-/

namespace Sys2Proof.Machine

open Sys2Proof

/-- Two conditions that say the same choose the same. -/
theorem ite_eq_of_iff {α : Type} {p q : Prop} [Decidable p] [Decidable q] {a b c d : α} (h : p ↔ q) (hthen : a = c) (helse : b = d) :
    (if p then a else b) = if q then c else d :=
  ite_congr (propext h) (fun _ => hthen) (fun _ => helse)

/-! Counters and the directory's lookup registers (R217, R430). -/

/-- R430: a counter cleared reads as zero, and no other register changes. -/
theorem counterClear_clears {d off : Nat} {s : State} (hok : TablesOk s) (hup : dieUp s d = true) (hctr : isCounter d off = true) :
    ∃ t, exec (.counterClear d off) s = .next t ∧ Same { regs := true } s t ∧ regGet t d off 0 (ctrSel s d off) = 0 ∧
      ∀ k, k ≠ regKey d off (ctrSel s d off) → look t.regs k = look s.regs k := by
  refine ⟨_, congrArg Host.Outcome.next ((if_pos (by simp [hup, hctr])).trans (if_pos rfl)), State.onRegs_same (Same.refl _ s) rfl, ?_,
    fun k hk => look_del_ne _ _ _ hk⟩
  have hgone : look (del s.regs (regKey d off (ctrSel s d off))) (regKey d off (ctrSel s d off)) = none := look_del_self _ _ hok.regs
  simp only [regGet, lookD, State.onRegs_regs, hgone]
  rfl

/-- The state once a lookup of row `row` of table t at die d shows w and a place. -/
def dirShown (s : State) (d t row w place : Nat) : State :=
  regSet (regSet (regSet s d 0x11080 (t + 2 ^ 16 * row)) d 0x11088 w) d 0x11090 place

/-- Each of the three registers holds what was set. -/
theorem dirShown_is (s : State) (d t row w place : Nat) :
    Same { regs := true } s (dirShown s d t row w place) ∧ regGet (dirShown s d t row w place) d 0x11080 = t + 2 ^ 16 * row ∧
      regGet (dirShown s d t row w place) d 0x11088 = w ∧ regGet (dirShown s d t row w place) d 0x11090 = place := by
  refine ⟨regSet_same (regSet_same (regSet_same (Same.refl _ s) rfl) rfl) rfl, ?_, ?_, ?_⟩ <;>
    simp [dirShown, regGet_put, regKey]

/-- MU.DIR_DATA0's number of a row's state (R217). -/
def dirStCode : DirState → Nat
  | .resident => 0
  | .draining => 1
  | .moving => 2
  | .forwarding => 3

/-- A row without a directory entry is shown at its shard-map place, PRESENT = 0. -/
theorem writeDirCtl_absent {s : State} {d v : Nat} (hgo : bit v 63 = true) (hnone : dirOf s (d - 18) (bits v 11 0) (bits v 46 16) = none) :
    ∃ die place, writeDirCtl s d v =
      dirShown s d (bits v 11 0) (bits v 46 16) (2 ^ 8 * die + 2 ^ 16 * (dirEntries s (d - 18)).length) place := by
  unfold writeDirCtl
  dsimp only
  rw [if_neg (by simp [hgo]), show dirOf (regSet s d 0x11080 _) (d - 18) (bits v 11 0) (bits v 46 16) = none from hnone]
  exact ⟨_, _, rfl⟩

/-- One with an entry is shown by it, PRESENT = 1. -/
theorem writeDirCtl_present {s : State} {d v : Nat} {e : DirEntry} (hgo : bit v 63 = true)
    (he : dirOf s (d - 18) (bits v 11 0) (bits v 46 16) = some e) :
    writeDirCtl s d v = dirShown s d (bits v 11 0) (bits v 46 16)
      (dirStCode e.st + 4 + 8 * b2n e.poisoned + 16 * b2n e.pendingF + 32 * b2n e.paged + 2 ^ 8 * e.ledgerDie +
        2 ^ 16 * (dirEntries s (d - 18)).length) e.dest := by
  unfold writeDirCtl
  dsimp only
  rw [if_neg (by simp [hgo]), show dirOf (regSet s d 0x11080 _) (d - 18) (bits v 11 0) (bits v 46 16) = some e from he]
  dsimp only
  cases e.st <;> rfl

theorem bit_eq_of_b2n {w i : Nat} {b : Bool} (h : w / 2 ^ i % 2 = b2n b) : bit w i = b := by
  rw [bit, h]
  cases b <;> rfl

theorem b2n_lt_two (b : Bool) : b2n b < 2 := by cases b <;> decide

/-- The fields of DIR_DATA0 do not overlap: each reads back. -/
theorem dirData_fields (x : DirState) (p f g : Bool) (die used : Nat) :
    let w := dirStCode x + 4 + 8 * b2n p + 16 * b2n f + 32 * b2n g + 2 ^ 8 * die + 2 ^ 16 * used
    bit w 2 = true ∧ bits w 1 0 = dirStCode x ∧ bit w 3 = p ∧ bit w 4 = f ∧ bit w 5 = g := by
  have hst : dirStCode x < 4 := by cases x <;> decide
  have hp := b2n_lt_two p
  have hf := b2n_lt_two f
  have hg := b2n_lt_two g
  refine ⟨beq_iff_eq.mpr (by omega), ?_, bit_eq_of_b2n (by omega), bit_eq_of_b2n (by omega), bit_eq_of_b2n (by omega)⟩
  simp only [bits]
  omega

/-- R217: a lookup by whether its row has a directory entry. -/
theorem dirLookup_shows {d : Nat} {v : Word64} {s : State} (hmu : isMu d = true) (hup : dieUp s d = true) (hgo : bit v.toNat 63 = true) :
    ∃ t, exec (.dirLookup d v) s = .next t ∧ Same { regs := true } s t ∧
      regGet t d 0x11080 = bits v.toNat 11 0 + 2 ^ 16 * bits v.toNat 46 16 ∧
      match dirOf s (d - 18) (bits v.toNat 11 0) (bits v.toNat 46 16) with
      | none => bit (regGet t d 0x11088) 2 = false
      | some e => regGet t d 0x11090 = e.dest ∧ bit (regGet t d 0x11088) 2 = true ∧ bits (regGet t d 0x11088) 1 0 = dirStCode e.st ∧
          bit (regGet t d 0x11088) 3 = e.poisoned ∧ bit (regGet t d 0x11088) 4 = e.pendingF ∧ bit (regGet t d 0x11088) 5 = e.paged := by
  have hexec : exec (.dirLookup d v) s = .next (writeDirCtl s d v.toNat) := congrArg Host.Outcome.next (if_pos (by simp [hmu, hup]))
  cases he : dirOf s (d - 18) (bits v.toNat 11 0) (bits v.toNat 46 16) with
  | none =>
    obtain ⟨die, place, hw⟩ := writeDirCtl_absent hgo he
    rw [hw] at hexec
    obtain ⟨hframe, hrow, hdata, -⟩ := dirShown_is ..
    refine ⟨_, hexec, hframe, hrow, ?_⟩
    dsimp only
    rw [hdata]
    exact beq_eq_false_iff_ne.mpr (by omega)
  | some e =>
    rw [writeDirCtl_present hgo he] at hexec
    obtain ⟨hframe, hrow, hdata, hplace⟩ := dirShown_is ..
    refine ⟨_, hexec, hframe, hrow, hplace, ?_⟩
    rw [hdata]
    exact dirData_fields ..

/-! FAULT_CLEAR (R421). -/

theorem exec_faultClear {i : Nat} {v : Word64} {s : State} (hup : dieUp s 0 = true) :
    exec (.faultClear i v) s = .next (writeFaultClear s i v.toNat) := congrArg Host.Outcome.next (if_pos hup)

/-- The sources that a write of CM.FAULT_CLEAR(i) names. -/
theorem mem_faultSources (i v k : Nat) : (((List.range 64).filter (bit v)).map (· + 64 * i)).contains k = (k / 64 == i && bit v (k % 64)) := by
  rw [Bool.eq_iff_iff]
  simp only [List.contains_iff_mem, List.mem_map, List.mem_filter, List.mem_range, Bool.and_eq_true, beq_iff_eq]
  constructor
  · rintro ⟨j, ⟨hj, hv⟩, rfl⟩
    have hmod : (j + 64 * i) % 64 = j := by omega
    exact ⟨by omega, by rw [hmod]; exact hv⟩
  · rintro ⟨hk, hv⟩
    exact ⟨k % 64, ⟨Nat.mod_lt _ (by decide), hv⟩, by omega⟩

/-- The sticky bits asked for are cleared; leaving the fault state counts a recovery. -/
theorem clearSticky_clears {s : State} {l : List Nat} (hl : s.sv.locked = false) :
    Same { sv := true, sounds := true, seqNo := true } s (clearSticky s l) ∧
    (s.sv.recovery < 2 ^ 32 - 1 ∨ s.sv.recoverySat = true → (clearSticky s l).sounds = s.sounds) ∧
    (clearSticky s l).sv.sticky = s.sv.sticky.filter (fun k => !l.contains k) ∧
    ((clearSticky s l).sv.sticky ≠ [] ∨ s.sv.sticky = [] →
      (clearSticky s l).sv.recovery = s.sv.recovery ∧ (clearSticky s l).sv.quiet = s.sv.quiet) ∧
    ((clearSticky s l).sv.sticky = [] → s.sv.sticky ≠ [] →
      (clearSticky s l).sv.recovery = min (s.sv.recovery + 1) (2 ^ 32 - 1) ∧ (clearSticky s l).sv.quiet = 0) := by
  refine ⟨clearSticky_same (Same.refl _ s) rfl rfl rfl, ?_⟩
  by_cases hs : s.sv.sticky = []
  · rw [clearSticky_idle (.inr hs)]
    exact ⟨fun _ => rfl, by simp [hs], fun _ => ⟨rfl, rfl⟩, fun _ hne => absurd hs hne⟩
  let rest := s.sv.sticky.filter fun k => !l.contains k
  have hclear : clearSticky s l = if rest.isEmpty then countRecovery (s.onSv fun v => { v with sticky := rest, quiet := 0 })
      else s.onSv fun v => { v with sticky := rest } := if_neg (by simp [hl, hs])
  by_cases hrest : rest = []
  · obtain ⟨hsv, hsounds⟩ := countRecovery_is (s.onSv fun v => { v with sticky := rest, quiet := 0 })
    rw [hclear, if_pos (List.isEmpty_iff.mpr hrest), hsv]
    exact ⟨hsounds, rfl, fun h => absurd h (by simp [hrest, hs]), fun _ _ => ⟨rfl, rfl⟩⟩
  · rw [hclear, if_neg (mt List.isEmpty_iff.mp hrest)]
    exact ⟨fun _ => rfl, rfl, fun _ => ⟨rfl, rfl⟩, fun h => absurd h hrest⟩

/-! CT.CTL and CM.WARM_REQ (R463, R486). -/

theorem exec_ctCtlWrite {v : Word64} {s : State} (hup : dieUp s 0 = true) : exec (.ctCtlWrite v) s = .next (writeCtCtl s v.toNat) :=
  congrArg Host.Outcome.next (if_pos hup)

/-- SETPOINT and SLEW of a write of CT.CTL are in range (R463). -/
def ctCtlOk (s : State) (v : Nat) : Prop :=
  1000 ≤ bits v 15 4 ∧ bits v 15 4 ≤ s.sv.pcap ∧ 1 ≤ bits v 25 16 ∧ bits v 25 16 ≤ 1000

theorem writeCtCtl_takes {s : State} {v : Nat} (hok : ctCtlOk s v) :
    Same { ct := true } s (writeCtCtl s v) ∧ (writeCtCtl s v).ct.mode = bits v 1 0 ∧ (writeCtCtl s v).ct.setpoint = bits v 15 4 ∧
      (writeCtCtl s v).ct.slew = bits v 25 16 ∧ (writeCtCtl s v).ct.soundMs = bits v 41 32 := by
  have htaken : writeCtCtl s v = s.onCt _ := if_pos (by simpa [ctCtlOk, and_assoc] using hok)
  rw [htaken]
  exact ⟨State.onCt_same (Same.refl _ s) rfl, rfl, rfl, rfl, rfl⟩

theorem writeCtCtl_discarded {s : State} {v : Nat} (hbad : ¬ctCtlOk s v) : writeCtCtl s v = s :=
  if_neg (by simpa [ctCtlOk, and_assoc] using hbad)

theorem exec_warmReq {a : Agent} {v : Word64} {s : State} (hup : dieUp s 0 = true) :
    exec (.warmReq a v) s = .next (if a = .mMode ∧ bit v.toNat 0 = true then requestWarm s 12 else s) :=
  congrArg Host.Outcome.next ((if_pos hup).trans (ite_eq_of_iff (by simp) rfl rfl))

/-! SV.INJECT (R433). -/

/-- The fields that SV.INJECT holds of a value written. -/
def injectFields (v : Nat) : Nat := bits v 7 0 + 2 ^ 8 * bits v 13 8 + 2 ^ 16 * bits v 18 16

/-- SV.INJECT holds its fields. -/
def injectHeld (s : State) (v : Nat) : State := s.onSv fun x => { x with inject := injectFields v }

/-- What GO makes of the KIND, from the state that holds the fields. -/
def injectDone (s : State) (v : Nat) : State :=
  match bits v 18 16 with
  | 0 => setSticky (if srcExists (bits v 7 0) then setSticky s (bits v 7 0) else s) srcInject
  | 2 => s.onTw fun t => { t with cbFlip := ins t.cbFlip (bits v 13 8) }
  | 1 => s.onMu fun m => { m with corrupt := ins m.corrupt (bits v 13 8) }
  | 3 => s.onSv fun x => { x with armedInj := x.armedInj ++ [(3, bits v 13 8)] }
  | 4 => s.onSv fun x => { x with suppress := ins x.suppress (bits v 13 8) }
  | _ => s

theorem writeInject_eq (s : State) (v : Nat) :
    writeInject s v = if s.sv.factory = false then s else if bit v 63 = false then injectHeld s v else injectDone (injectHeld s v) v := by
  unfold writeInject
  exact ite_eq_of_iff (by simp) rfl (ite_eq_of_iff (by simp) rfl rfl)

/-- A source set leaves what else Selvage holds but the quiet period, and the bits already set. -/
theorem setSticky_keeps (s : State) (k j : Nat) :
    (setSticky s k).sv.inject = s.sv.inject ∧ (j ∈ s.sv.sticky → j ∈ (setSticky s k).sv.sticky) := by
  have hsv : (setSticky s k).sv = { s.sv with sticky := ins s.sv.sticky k, quiet := 0 } := by
    unfold setSticky raiseIbi
    dsimp only
    repeat' split
    all_goals rfl
  rw [hsv]
  exact ⟨rfl, fun hj => (mem_ins ..).mpr (.inr hj)⟩

/-- What each KIND does; the fields stay held. -/
theorem injectDone_is (s : State) (v : Nat) :
    (injectDone s v).sv.inject = s.sv.inject ∧
    (bits v 18 16 = 0 → srcInject ∈ (injectDone s v).sv.sticky ∧ (srcExists (bits v 7 0) = true → bits v 7 0 ∈ (injectDone s v).sv.sticky)) ∧
    (bits v 18 16 = 1 → bits v 13 8 ∈ (injectDone s v).mu.corrupt) ∧
    (bits v 18 16 = 2 → bits v 13 8 ∈ (injectDone s v).tw.cbFlip) ∧
    (bits v 18 16 = 3 → (injectDone s v).sv.armedInj = s.sv.armedInj ++ [(3, bits v 13 8)]) ∧
    (bits v 18 16 = 4 → bits v 13 8 ∈ (injectDone s v).sv.suppress) := by
  unfold injectDone
  split
  next h0 =>
    let u := if srcExists (bits v 7 0) then setSticky s (bits v 7 0) else s
    have hfields : (setSticky u srcInject).sv.inject = s.sv.inject := by
      refine (setSticky_keeps u srcInject 0).1.trans ?_
      simp only [u]
      split
      · exact (setSticky_keeps s _ 0).1
      · rfl
    refine ⟨hfields, fun _ => ⟨setSticky_mem u srcInject, fun hsrc => (setSticky_keeps u srcInject _).2 ?_⟩, ?_⟩
    · simp only [u, hsrc, if_true]
      exact setSticky_mem s _
    · simp [h0]
  next h2 => simp [h2]
  next h1 => simp [h1]
  next h3 => simp [h3]
  next h4 => simp [h4]
  next h0 h2 h1 h3 h4 => exact ⟨rfl, fun h => (h0 h).elim, fun h => (h1 h).elim, fun h => (h2 h).elim, fun h => (h3 h).elim, fun h => (h4 h).elim⟩

/-- Settles O30: each write by its fields and the state they meet. -/
theorem controlRegisterWrites : Obligations.ControlRegisterWrites := by
  refine ⟨fun d off s hok hup hctr => counterClear_clears hok hup hctr,
    fun d v s hmu hup hgo => ?lookup,
    fun i v s hup => ⟨fun hl => (exec_faultClear hup).trans (congrArg Host.Outcome.next (clearSticky_idle (.inl hl))),
      fun hl => ⟨_, exec_faultClear hup, ?clear⟩⟩,
    fun v s hup => ⟨fun hok => ⟨_, exec_ctCtlWrite hup, writeCtCtl_takes hok⟩,
      fun hbad => (exec_ctCtlWrite hup).trans (congrArg Host.Outcome.next (writeCtCtl_discarded hbad))⟩,
    fun a v s hup => ⟨fun ha hv => ⟨_, (exec_warmReq hup).trans (congrArg Host.Outcome.next (if_pos ⟨ha, hv⟩)), ?warm⟩, fun hno => ?noWarm⟩,
    fun v s => ⟨fun hf => ?noFactory, fun hf => ?factory⟩⟩
  case lookup =>
    obtain ⟨t, hexec, hframe, hrow, hshown⟩ := dirLookup_shows hmu hup hgo
    refine ⟨t, hexec, hframe, hrow, ?_⟩
    split
    next hnone => rw [hnone] at hshown; exact hshown
    next e he =>
      rw [he] at hshown
      obtain ⟨hplace, hpresent, hst, hflags⟩ := hshown
      exact ⟨hplace, hpresent, hst.trans (by cases e.st <;> rfl), hflags⟩
  case clear =>
    have hclear := clearSticky_clears (l := ((List.range 64).filter (bit v.toNat)).map (· + 64 * i)) hl
    simp only [mem_faultSources] at hclear
    exact hclear
  case warm => exact ⟨State.onSv_same (Same.refl _ s) rfl, ins_self _ _⟩
  case noWarm =>
    refine (exec_warmReq hup).trans (congrArg Host.Outcome.next (if_neg ?_))
    rintro ⟨ha, hv⟩
    rcases hno with h | h
    · exact h ha
    · exact Bool.false_ne_true (h.symm.trans hv)
  case noFactory => exact congrArg Host.Outcome.next ((writeInject_eq s v.toNat).trans (if_pos hf))
  case factory =>
    refine ⟨_, congrArg Host.Outcome.next ((writeInject_eq s v.toNat).trans (if_neg (by simp [hf]))), ?_⟩
    obtain ⟨hheld, hkinds⟩ := injectDone_is (injectHeld s v.toNat) v.toNat
    by_cases hgo : bit v.toNat 63 = true
    · rw [if_neg (by simp [hgo])]
      exact ⟨hheld, fun hno => absurd (hno.symm.trans hgo) Bool.false_ne_true, fun _ => hkinds⟩
    · rw [if_pos (Bool.eq_false_iff.mpr hgo)]
      exact ⟨rfl, fun _ => rfl, fun h => absurd h hgo⟩

/-! ATOMIC_ADD (R190 to R193, R208). -/

/-- An add that is delivered lands. -/
theorem exec_atomicAdd_lands {m g : AddMsg} {s a : State} (hfree : ¬(m.via = some m.dst ∧ addHeld s m = true))
    (harr : arriveAdd s m = (some g, a)) : exec (.atomicAdd m) s = .next (landAdd a g) := by
  refine congrArg Host.Outcome.next ?_
  rw [if_neg (by simpa using hfree), harr]

/-- What lands at a Muslin die that is up waits there, or is routed by the row it names, or applied. -/
theorem landAdd_muslin {a : State} {g : AddMsg} (hmu : isMu g.dst = true) (hup : dieUp a g.dst = true) :
    landAdd a g = if addHeld a g = true then holdAdd a g
      else match (if g.dense then none else rowOfDa a g.table g.da) with
        | some row => routeAdd a (g.dst - 18) g row
        | none => (takeAdd a (g.dst - 18) g).2 := by
  have hlink : (isRing g.dst || isTwin g.dst) = false := by simp [isMu, isRing, isTwin] at hmu ⊢; omega
  unfold landAdd
  rw [if_neg (by simp [hup]), hlink]
  exact if_neg (by simp [hmu])

theorem muslinDie_index {d : Nat} (hmu : isMu d = true) : 18 + (d - 18) = d := by
  simp [isMu] at hmu; omega

/-- An add that has to wait joins the forward store of its die, and nothing else of the adds changes. -/
theorem holdAdd_is (s : State) (m : AddMsg) :
    Same { gz := true } s (holdAdd s m) ∧ (holdAdd s m).gz.adds = s.gz.adds ++ [{ m with via := some m.dst }] :=
  ⟨holdAdd_same (Same.refl _ s) rfl, rfl⟩

/-- A state that differs in counters alone differs in the registers and the Soundings that counters raise. -/
theorem eq_of_counted {a b : State} (h : Same Groups.counted a b) : ∃ r x n, b = { a with regs := r, sounds := x, seqNo := n } := by
  refine ⟨b.regs, b.sounds, b.seqNo, ?_⟩
  cases a
  cases b
  cases h
  simp_all [Groups.counted]

/-- An answer is a message of Gauze, whatever the rest of the state. -/
theorem answerAdd_gz_congr {a b : State} (hgz : a.gz = b.gz) (m : AddMsg) (d : Nat) (x : AddAnswer) :
    (answerAdd a m d x).gz = (answerAdd b m d x).gz := by
  cases x <;> simp [answerAdd, sendFlit, hgz]

theorem answerAdd_frame (s : State) (m : AddMsg) (d : Nat) (x : AddAnswer) : Same { gz := true } s (answerAdd s m d x) :=
  answerAdd_same (Same.refl _ s) rfl

/-- What an add answers is what applying it answered. -/
theorem takeAdd_snd (s : State) (k : Nat) (m : AddMsg) :
    (takeAdd s k m).2 = answerAdd (applyAdd s k m).2 m (18 + k) (applyAdd s k m).1 := rfl

/-- A dense add of another anchor or panel than its region's is refused (R191, R198). -/
theorem applyAdd_dense_foreign {s : State} {k : Nat} {m : AddMsg} {r : Rec} (hdense : m.dense = true)
    (hreg : ledgerRec s k (m.da / 2 ^ 40) = some r) (hkind : fld r 2 ≠ 0) (hal : m.da % 8 = 0)
    (hend : m.da % 2 ^ 40 / 8 + m.words.length ≤ fld r 10) (hbad : regionAnchor r ≠ m.anchor ∨ fld r 3 ≠ m.panel) :
    applyAdd s k m = (.refuse stMalformed, s) := by
  have hforeign : (regionAnchor r != m.anchor || addForeign r m) = true := by simpa [addForeign, hdense] using hbad
  simp [applyAdd, hdense, hreg, hkind, hal, Nat.not_lt.mpr hend, hforeign, -Nat.reducePow]

/-- Any other is added, word by word, into the bank that its STEP_TAG selects (R187, R191). -/
theorem applyAdd_dense_open {s : State} {k : Nat} {m : AddMsg} {r : Rec} (hdense : m.dense = true)
    (hreg : ledgerRec s k (m.da / 2 ^ 40) = some r) (hkind : fld r 2 ≠ 0) (hal : m.da % 8 = 0)
    (hend : m.da % 2 ^ 40 / 8 + m.words.length ≤ fld r 10) (hanchor : regionAnchor r = m.anchor) (hpanel : fld r 3 = m.panel)
    (hstands : panelFaulted s (fld r 3) = false) (htag : tagBank s k m.stepTag = some false) :
    applyAdd s k m = (.ack false, s.onMu fun u =>
      { u with dense := addDense u.dense k (openStep s k % 2) (m.da / 2 ^ 40) (m.da % 2 ^ 40 / 8) m.words }) := by
  have hown : (regionAnchor r != m.anchor || addForeign r m) = false := by simp [addForeign, hanchor, hpanel]
  simp [applyAdd, hdense, hreg, hkind, hal, Nat.not_lt.mpr hend, hown, hstands, htag, -Nat.reducePow]

/-- An add to a row is placed in the bank that its STEP_TAG selects (R191, R192). -/
theorem applyAdd_row {s : State} {k row : Nat} {m : AddMsg} {tr r : Rec} (hrowAdd : m.dense = false) (hrow : rowOfDa s m.table m.da = some row)
    (htr : tableRec s m.table = some tr) (hreg : ledgerRec s k (tRegion tr) = some r) (hkind : fld r 2 ≠ 1)
    (hanchor : regionAnchor r = m.anchor) (hstands : panelFaulted s (fld r 3) = false) (htag : tagBank s k m.stepTag = some false) :
    applyAdd s k m = placeRow s k (openStep s k % 2) (openStep s k) m.table row (tRegion tr) (fld r 6) false m := by
  have hown : (regionAnchor r != m.anchor || addForeign r m) = false := by simp [addForeign, hanchor, hrowAdd]
  simp [applyAdd, hrowAdd, hrow, htr, hreg, hkind, hown, hstands, htag]

/-- A new entry that finds the pool full is refused, and counted (R192). -/
theorem placeRow_full {s : State} {k bank step t row region entries : Nat} {late : Bool} {m : AddMsg}
    (hfull : look s.mu.entries (entryKey k bank t row) = none ∧ entries ≤ entriesUsed s k bank region) :
    placeRow s k bank step t row region entries late m = (.refuse stQuota, bump s (18 + k) 0x11028) :=
  if_pos (by simp [hfull])

/-- Any other contribution is merged into its entry. -/
theorem placeRow_merges {s : State} {k bank step t row region entries : Nat} {late : Bool} {m : AddMsg}
    (hroom : ¬(look s.mu.entries (entryKey k bank t row) = none ∧ entries ≤ entriesUsed s k bank region)) :
    placeRow s k bank step t row region entries late m = (.ack late, s.onMu fun u =>
      { u with entries := put u.entries (entryKey k bank t row) (mergeEntry (look s.mu.entries (entryKey k bank t row)) m.count late step m.words) }) :=
  if_neg (by simpa using hroom)

/-- An add has been counted by the owner of its row, unless it is held (R203). -/
def addSurveyed (s : State) (k : Nat) (m : AddMsg) (row : Nat) : State :=
  if (!m.fwd && owns s k m.table row) && addRoute s k m m.table row != .hold then survey s k m.table row 0x110A8 m.count else s

/-- The owner of s counts an add in its heavy-hitter table, in the state u (R204). -/
def addHeated (s : State) (k : Nat) (m : AddMsg) (row : Nat) (u : State) : State :=
  if !m.fwd && owns s k m.table row then hotAdd u k m.table row m.count else u

theorem addSurveyed_frame (s : State) (k : Nat) (m : AddMsg) (row : Nat) : Same Groups.counted s (addSurveyed s k m row) :=
  ite_same (survey_same (Same.refl _ s) rfl rfl rfl) (Same.refl _ s)

/-- Of Muslin, the heavy-hitter table alone is counted in. -/
theorem addHeated_is (s : State) (k : Nat) (m : AddMsg) (row : Nat) (u : State) :
    (addHeated s k m row u).gz = u.gz ∧ (addHeated s k m row u).mu.entries = u.mu.entries ∧ (addHeated s k m row u).mu.dense = u.mu.dense ∧
      (addHeated s k m row u).mu.dir = u.mu.dir := by
  unfold addHeated
  split <;> exact ⟨rfl, rfl, rfl, rfl⟩

/-- A message for a row is counted, then goes its way (R189, R203, R204, R208). -/
theorem routeAdd_eq (s : State) (k : Nat) (m : AddMsg) (row : Nat) :
    routeAdd s k m row = match addRoute s k m m.table row with
      | .here =>
        let u := takeAdd (addSurveyed s k m row) k m
        if u.1 then addHeated s k m row u.2 else u.2
      | .forward l => addHeated s k m row (forwardAdd (addSurveyed s k m row) k m l)
      | .queue =>
        match dirOf (addSurveyed s k m row) k m.table row with
        | some e => noteFwd (addHeated s k m row (setDir (addSurveyed s k m row) k m.table row { e with queued := e.queued ++ [m] })) (18 + k)
        | none => addSurveyed s k m row
      | .hold => addSurveyed s k m row
      | .stale => answerAdd (bump (addSurveyed s k m row) (18 + k) 0x11058) m (18 + k) (.refuse stMalformed) := rfl

/-- A message sent on to another ledger die. -/
theorem routeAdd_forward {s : State} {k row l : Nat} {m : AddMsg} (hroute : addRoute s k m m.table row = .forward l) :
    (routeAdd s k m row).gz = (forwardAdd s k m l).gz ∧ (routeAdd s k m row).mu.entries = s.mu.entries ∧
      (routeAdd s k m row).mu.dense = s.mu.dense := by
  obtain ⟨r, x, n, hcount⟩ := eq_of_counted (addSurveyed_frame s k m row)
  have hrun : routeAdd s k m row = addHeated s k m row (forwardAdd (addSurveyed s k m row) k m l) := by rw [routeAdd_eq, hroute]
  obtain ⟨hgz, hentries, hdense, -⟩ := addHeated_is s k m row (forwardAdd (addSurveyed s k m row) k m l)
  rw [hrun, hgz, hentries, hdense, hcount]
  exact ⟨rfl, rfl, rfl⟩

/-- One for a MOVING row is queued behind it. -/
theorem routeAdd_queue {s : State} {k row : Nat} {m : AddMsg} {e : DirEntry} (hroute : addRoute s k m m.table row = .queue)
    (he : dirOf s k m.table row = some e) :
    dirOf (routeAdd s k m row) k m.table row = some { e with queued := e.queued ++ [m] } ∧ (routeAdd s k m row).gz.adds = s.gz.adds ∧
      (routeAdd s k m row).mu.entries = s.mu.entries := by
  obtain ⟨r, x, n, hcount⟩ := eq_of_counted (addSurveyed_frame s k m row)
  have he' : dirOf (addSurveyed s k m row) k m.table row = some e := by rw [hcount]; exact he
  let u := setDir (addSurveyed s k m row) k m.table row { e with queued := e.queued ++ [m] }
  have hrun : routeAdd s k m row = noteFwd (addHeated s k m row u) (18 + k) := by rw [routeAdd_eq, hroute]; dsimp only; rw [he']
  obtain ⟨hgz, hentries, -, hdir⟩ := addHeated_is s k m row u
  rw [hrun]
  refine ⟨?_, ?_, ?_⟩
  · exact (congrArg (look · _) hdir).trans (dirOf_setDir ..)
  · exact (congrArg Gauze.adds hgz).trans (by simp only [u, hcount]; rfl)
  · exact hentries.trans (by simp only [u, hcount]; rfl)

/-- A stale one is refused. -/
theorem routeAdd_stale {s : State} {k row : Nat} {m : AddMsg} (hroute : addRoute s k m m.table row = .stale) :
    (routeAdd s k m row).gz = (answerAdd s m (18 + k) (.refuse stMalformed)).gz ∧ (routeAdd s k m row).mu = s.mu ∧
      (owns s k m.table row = false ∨ m.fwd = true → (routeAdd s k m row).regs = (bump s (18 + k) 0x11058).regs) := by
  have hrun : routeAdd s k m row = answerAdd (bump (addSurveyed s k m row) (18 + k) 0x11058) m (18 + k) (.refuse stMalformed) := by
    rw [routeAdd_eq, hroute]
  have hcount : Same Groups.counted s (bump (addSurveyed s k m row) (18 + k) 0x11058) :=
    bump_same (addSurveyed_frame s k m row) rfl rfl rfl
  have hanswer := answerAdd_frame (bump (addSurveyed s k m row) (18 + k) 0x11058) m (18 + k) (.refuse stMalformed)
  rw [hrun]
  refine ⟨answerAdd_gz_congr (hcount.gz rfl) .., (hanswer.mu rfl).trans (hcount.mu rfl), fun hother => ?_⟩
  have hnone : addSurveyed s k m row = s := if_neg (by rcases hother with h | h <;> simp [h])
  rw [hanswer.regs rfl, hnone]

/-- One that has come to its ledger die is merged into its row's entry, or refused when a new one finds the pool full. -/
theorem routeAdd_here {s : State} {k row : Nat} {m : AddMsg} {tr r : Rec} (hroute : addRoute s k m m.table row = .here)
    (hrowAdd : m.dense = false) (hrow : rowOfDa s m.table m.da = some row) (htr : tableRec s m.table = some tr)
    (hreg : ledgerRec s k (tRegion tr) = some r) (hkind : fld r 2 ≠ 1) (hanchor : regionAnchor r = m.anchor)
    (hstands : panelFaulted s (fld r 3) = false) (htag : tagBank s k m.stepTag = some false) :
    let key := entryKey k (openStep s k % 2) m.table row
    let t := routeAdd s k m row
    if look s.mu.entries key = none ∧ fld r 6 ≤ entriesUsed s k (openStep s k % 2) (tRegion tr) then
      t.mu = s.mu ∧ t.gz = (answerAdd s m (18 + k) (.refuse stQuota)).gz
    else t.gz = (answerAdd s m (18 + k) (.ack false)).gz ∧
      look t.mu.entries key = some (mergeEntry (look s.mu.entries key) m.count false (openStep s k) m.words) ∧
      ∀ j, j ≠ key → look t.mu.entries j = look s.mu.entries j := by
  intro key t
  obtain ⟨r', x, n, hcount⟩ := eq_of_counted (addSurveyed_frame s k m row)
  let b := addSurveyed s k m row
  have hb : b = { s with regs := r', sounds := x, seqNo := n } := hcount
  have happly : applyAdd b k m = placeRow b k (openStep s k % 2) (openStep s k) m.table row (tRegion tr) (fld r 6) false m := by
    rw [hb]
    exact applyAdd_row hrowAdd hrow htr hreg hkind hanchor hstands htag
  have hrun : t = let u := takeAdd b k m; if u.1 then addHeated s k m row u.2 else u.2 := by rw [show t = _ from routeAdd_eq s k m row, hroute]
  split
  next hfull =>
    have hplace : applyAdd b k m = (.refuse stQuota, bump b (18 + k) 0x11028) := happly.trans (placeRow_full (by rw [hb]; exact hfull))
    have ht : t = answerAdd (bump b (18 + k) 0x11028) m (18 + k) (.refuse stQuota) := by
      rw [hrun]
      simp only [takeAdd, hplace]
      rfl
    have hframe : Same Groups.counted s (bump b (18 + k) 0x11028) := bump_same (addSurveyed_frame s k m row) rfl rfl rfl
    rw [ht]
    exact ⟨((answerAdd_frame ..).mu rfl).trans (hframe.mu rfl), answerAdd_gz_congr (hframe.gz rfl) ..⟩
  next hroom =>
    let z := b.onMu fun u => { u with entries := put u.entries key (mergeEntry (look s.mu.entries key) m.count false (openStep s k) m.words) }
    have hplace : applyAdd b k m = (.ack false, z) := happly.trans ((placeRow_merges (by rw [hb]; exact hroom)).trans (by simp only [z, hb]; rfl))
    have ht : t = addHeated s k m row (answerAdd z m (18 + k) (.ack false)) := by
      rw [hrun]
      simp only [takeAdd, hplace]
      rfl
    obtain ⟨hgz, hentries, -, -⟩ := addHeated_is s k m row (answerAdd z m (18 + k) (.ack false))
    have hput : t.mu.entries = put s.mu.entries key (mergeEntry (look s.mu.entries key) m.count false (openStep s k) m.words) := by
      rw [ht, hentries, (answerAdd_frame ..).mu rfl]
      simp only [z, hb]
      rfl
    rw [hput, ht, hgz]
    exact ⟨answerAdd_gz_congr (by simp only [z, hb]; rfl) .., look_put_self .., fun j hj => look_put_ne _ _ _ _ hj⟩

/-! Seals (R199, R200, R204). -/

theorem exec_muSeal_starts {h : Hdr} {k n : Nat} {s : State} (hs : canStart s h = true) :
    exec (.muSeal h k n) s = .next (if dieUp s (18 + k) = false then complete s h (ledgerUnit k) stAbsent
      else if look s.mu.sealWait k ≠ none then s
      else (markStarted s h).onMu fun m => { m with sealWait := put m.sealWait k (h, n) }) := by
  refine congrArg Host.Outcome.next ((runDesc_start _ hs).trans ?_)
  exact ite_eq_of_iff (by simp) rfl (ite_eq_of_iff (by simp [Option.isSome_iff_ne_none]) rfl rfl)

/-- The seal that waits takes effect once the bank of the step before is released, if it names the open step. -/
theorem exec_sealTakesEffect_waiting {k n : Nat} {h : Hdr} {s : State} (hw : look s.mu.sealWait k = some (h, n)) :
    exec (.sealTakesEffect k) s = .next (if look s.mu.unreleased k ≠ none ∨ look s.mu.sealing k ≠ none then s
      else if n ≠ openStep s k then complete (s.onMu fun m => { m with sealWait := del m.sealWait k }) h (ledgerUnit k) stMalformed
      else sealNow s k h) := by
  refine congrArg Host.Outcome.next ?_
  rw [hw]
  exact ite_eq_of_iff (by simp [Option.isSome_iff_ne_none]) rfl (ite_eq_of_iff (by simp) rfl rfl)

/-- The banks exchanged: the next step is open, the one before stands unreleased (R200). -/
def sealOpened (s : State) (k : Nat) (h : Hdr) : State :=
  s.onMu fun m =>
    { m with sealWait := del m.sealWait k, openStep := put m.openStep k (openStep s k + 1), unreleased := put m.unreleased k (openStep s k),
             heavyPrev := put m.heavyPrev k (lookD m.heavy k []), heavy := del m.heavy k, loadPrev := put m.loadPrev k (look0 m.load k % 2 ^ 48),
             load := del m.load k, sealing := put m.sealing k h,
             closed := m.closed.filter fun x => x / 64 != k,
             dir := mapVals (fun key e =>
               if e.st = .moving && (key / 2 ^ 43 == k || e.ledgerDie == k || e.targetDie == k) then { e with sealedIn := true } else e) m.dir }

theorem sealNow_eq (s : State) (k : Nat) (h : Hdr) : sealNow s k h =
    finishSeals (startInvalidation (retryPatches (abandonDraining (dropLost (sealOpened s k h) k (openStep s k)) k) k) k) := rfl

/-! None of the seal's further acts touches the step numbers or the table before. -/

theorem mk_finishSeals (s : State) : MK s (finishSeals s) := by
  refine MK.foldl (fun _ _ => ?_) _ s
  exact ⟨rfl, rfl, rfl⟩

theorem mk_startInvalidation (s : State) (k : Nat) : MK s (startInvalidation s k) := ⟨rfl, rfl, rfl⟩

theorem mk_retryPatches (s : State) (k : Nat) : MK s (retryPatches s k) := by
  refine MK.foldl (fun s x => ?_) _ s
  dsimp only
  split
  · exact mk_ite (MK.ofDir (startPatch_only ..)) (MK.refl s)
  · exact MK.refl s

theorem mk_abandonDraining (s : State) (k : Nat) : MK s (abandonDraining s k) := MK.foldl (fun _ _ => mk_abandonMove ..) _ s

theorem mk_dropLost (s : State) (k n : Nat) : MK s (dropLost s k n) := by
  unfold dropLost
  extract_lets gone goneP words ps lost b z
  have hdropped : MK s z := (mk_bumpBy s (18 + k) 0x11030 lost 0).trans ⟨rfl, rfl, rfl⟩
  exact mk_ite (MK.refl s) (hdropped.trans (MK.foldl (fun _ _ => mk_flagPending ..) _ z))

/-- The open step rises by one, the step sealed stands unreleased, and its heavy-hitter table is the previous one. -/
theorem sealNow_is (s : State) (k : Nat) (h : Hdr) :
    openStep (sealNow s k h) k = openStep s k + 1 ∧ look (sealNow s k h).mu.unreleased k = some (openStep s k) ∧
      lookD (sealNow s k h).mu.heavyPrev k [] = lookD s.mu.heavy k [] ∧ ∀ j, j ≠ k → openStep (sealNow s k h) j = openStep s j := by
  have hkept : MK (sealOpened s k h) (sealNow s k h) := by
    rw [sealNow_eq]
    exact ((((mk_dropLost ..).trans (mk_abandonDraining ..)).trans (mk_retryPatches ..)).trans (mk_startInvalidation ..)).trans (mk_finishSeals _)
  obtain ⟨hopen, hunreleased, hprev⟩ := hkept
  unfold openStep
  rw [hopen, hunreleased, hprev]
  exact ⟨look0_put_self .., look_put_self .., lookD_put_self .., fun j hj => look0_put_ne _ _ _ _ hj⟩

/-! MU_ROW_RESTORE (R216). -/

theorem exec_muRowRestore_starts {h : Hdr} {k table row a : Nat} {keep : Bool} {s : State} (hs : canStart s h = true) :
    exec (.muRowRestore h k keep table row a) s = .next (match restoreRefusal s h k table row a with
      | some st => complete s h (ledgerUnit k) st
      | none => runRestore s h k table row a keep) :=
  congrArg Host.Outcome.next (runDesc_start _ hs)

/-- A checked read changes counters, the faults it meets, memory's marks and the load alone. -/
theorem checkRead_frame (s : State) (a n : Nat) : Same { Groups.faulted with mem := true, mu := true } s (checkRead s a n).2 :=
  checkRead_same (Same.refl _ s) rfl rfl rfl rfl rfl rfl rfl

theorem checkRead_dir (s : State) (a n : Nat) : (checkRead s a n).2.mu.dir = s.mu.dir := by rw [checkRead_mu]

/-- Lost source data ends the restore. -/
theorem runRestore_lost {s : State} {h : Hdr} {k t row a o da : Nat} {keep : Bool} {tr : Rec} (htr : tableRec s t = some tr)
    (hplace : shardPlace s t row = some (o, da)) (hlost : (checkRead s a (rowBytes tr)).1 = true) :
    runRestore s h k t row a keep = complete (checkRead s a (rowBytes tr)).2 h (ledgerUnit k) stEcc := by
  unfold runRestore
  rw [htr, hplace]
  exact if_pos hlost

/-- The row's record once a restore has journalled it and rewritten it from the bytes at a. -/
def restored (c : State) (k t row a da n : Nat) : State :=
  rewriteRow (journalWrite c k da (stepNow c) (readBytes c.mem a n)) k t row (readBytes c.mem a n)

/-- A row's pending entry dropped, unless the restore keeps it or there is none. -/
def pendingDropped (s : State) (keep : Bool) (k t row : Nat) : State :=
  if keep || (look s.mu.pend (pendKey k t row)).isNone then s
  else flagPending (s.onMu fun m => { m with pend := del m.pend (pendKey k t row) }) k t row false

theorem pendingDropped_mem (s : State) (keep : Bool) (k t row : Nat) : (pendingDropped s keep k t row).mem = s.mem :=
  (ite_same (Same.refl { Groups.counted with gz := true, mu := true } s)
    (flagPending_same (State.onMu_same (Same.refl _ s) rfl) rfl rfl rfl rfl rfl)).mem rfl

/-- Otherwise the record is rewritten, and the command completes. -/
theorem runRestore_rewrites {s c : State} {h : Hdr} {k t row a o da : Nat} {keep : Bool} {tr : Rec} (htr : tableRec s t = some tr)
    (hplace : shardPlace s t row = some (o, da)) (hread : checkRead s a (rowBytes tr) = (false, c)) (hlocal : h.system = false) :
    runRestore s h k t row a keep =
      complete (pendingDropped (restored c k t row a da (rowBytes tr)) keep k t row) h (ledgerUnit k) stDone := by
  unfold runRestore
  rw [htr, hplace]
  dsimp only
  rw [hread]
  exact finish_local _ _ hlocal

/-- What a record appended to the journal may change: the twin, and what carries its message there (R392). -/
def journalGroups : Groups :=
  { Groups.counted with free := true, pkg := true, gz := true, qm := true, rings := true, twin := true }

/-- A restored row's entry is not POISONED. -/
theorem restored_unpoisoned {s : State} {k t row a o da n m : Nat} (hplace : shardPlace s t row = some (o, da))
    (hsorted : rising none s.mu.dir = true) (hrow : row < 2 ^ 31) {e : DirEntry}
    (he : dirOf (restored (checkRead s a m).2 k t row a da n) k t row = some e) : e.poisoned = false := by
  let c := (checkRead s a m).2
  have hjournal : Same journalGroups c (journalWrite c k da (stepNow c) (readBytes c.mem a n)) :=
    journalWrite_same (Same.refl _ c) rfl rfl rfl rfl rfl rfl rfl rfl rfl
  refine rewrite_poisoned _ k t row _ ?_ hrow e (o, da) ?_ he
  · rw [hjournal.mu rfl, checkRead_dir]; exact hsorted
  · rw [shardPlace_img ((hjournal.img rfl).trans ((checkRead_frame ..).img rfl)), hplace]

/-- A restore that no check refuses, by whether its source has lost data. -/
theorem runRestore_is {s : State} {h : Hdr} {k t row a o da : Nat} {tr : Rec} (keep : Bool) (hlocal : h.system = false)
    (htr : tableRec s t = some tr) (hplace : shardPlace s t row = some (o, da)) :
    let c := checkRead s a (rowBytes tr)
    let bs := readBytes c.2.mem a (rowBytes tr)
    let u := runRestore s h k t row a keep
    if c.1 = true then Ends s u h (ledgerUnit k) stEcc
    else u.mem = (rewriteRow (journalWrite c.2 k da (stepNow c.2) bs) k t row bs).mem ∧
      (keep = true → rising none s.mu.dir = true → row < 2 ^ 31 → ∀ e, dirOf u k t row = some e → e.poisoned = false) ∧
      ∃ l e, e < 2 ^ 32 ∧ u.qm.cpls = l ++ [completionOf h (ledgerUnit k) stDone e] := by
  intro c bs u
  split
  next hlost =>
    rw [show u = _ from runRestore_lost htr hplace hlost]
    exact ends_complete _ _ _ ((checkRead_frame ..).qm rfl)
  next hkept =>
    have hread : checkRead s a (rowBytes tr) = (false, c.2) := Prod.ext (Bool.eq_false_iff.mpr hkept) rfl
    rw [show u = _ from runRestore_rewrites htr hplace hread hlocal]
    refine ⟨pendingDropped_mem .., fun hk hsorted hrow e he => ?_, last_complete ..⟩
    subst hk
    exact restored_unpoisoned hplace hsorted hrow he

/-- Settles O35: an add by its route, a seal by the step it waits for, a restore by its checks and its source. -/
theorem addsSealsAndRestores : Obligations.AddsSealsAndRestores := by
  refine ⟨fun m s => ⟨fun hvia hheld => ?holds, fun a hfree harr => ?none, fun g a hfree harr hmu hup hheld => ?waits⟩,
    fun m s g a r hfree harr hmu hup hdense hreg hkind hal hend => ?dense,
    fun m s g a row hfree harr hmu hup hrowAdd hrow => ?row,
    fun h k n s hs => ⟨_, exec_muSeal_starts hs, ?waitsForEdge⟩,
    fun k s hnone => ?noSeal,
    fun k h n s hw => ⟨_, exec_sealTakesEffect_waiting hw, ?seals⟩,
    fun h k keep table row a s hs hlocal => ⟨fun st href => ?refused, fun tr o da href htr hplace => ?restores⟩⟩
  case holds => exact congrArg Host.Outcome.next (if_pos (by simp [hvia, hheld]))
  case none =>
    refine congrArg Host.Outcome.next ?_
    rw [if_neg (by simpa using hfree), harr]
  case waits =>
    refine ⟨_, exec_atomicAdd_lands hfree harr, ?_⟩
    rw [landAdd_muslin hmu hup, if_pos hheld]
    exact holdAdd_is a g
  case dense =>
    have hland : landAdd a g = (takeAdd a (g.dst - 18) g).2 := by
      rw [landAdd_muslin hmu hup, if_neg (by simp [addHeld, hdense]), hdense]; rfl
    have hexec := (exec_atomicAdd_lands hfree harr).trans (congrArg Host.Outcome.next hland)
    rw [takeAdd_snd, muslinDie_index hmu] at hexec
    constructor
    · intro hbad
      rw [applyAdd_dense_foreign hdense hreg hkind hal hend hbad] at hexec
      exact ⟨_, hexec, rfl⟩
    · intro hanchor hpanel hstands htag
      rw [applyAdd_dense_open hdense hreg hkind hal hend hanchor hpanel hstands htag] at hexec
      exact ⟨_, hexec, answerAdd_gz_congr rfl .., (answerAdd_frame ..).mu rfl⟩
  case row =>
    have hland (hroute : addRoute a (g.dst - 18) g g.table row ≠ .hold) : exec (.atomicAdd m) s = .next (routeAdd a (g.dst - 18) g row) := by
      rw [exec_atomicAdd_lands hfree harr, landAdd_muslin hmu hup, if_neg (by simp [addHeld, hrow, hroute]), hrowAdd, if_neg Bool.false_ne_true,
        hrow]
    refine ⟨fun l hroute => ⟨_, hland (by simp [hroute]), routeAdd_forward hroute⟩,
      fun hroute e he => ⟨_, hland (by simp [hroute]), routeAdd_queue hroute he⟩,
      fun hroute => ⟨_, hland (by simp [hroute]), routeAdd_stale hroute⟩,
      fun tr r hroute htr hreg hkind hanchor hstands htag => ⟨_, hland (by simp [hroute]), ?_⟩⟩
    have hhere := routeAdd_here hroute hrowAdd hrow htr hreg hkind hanchor hstands htag
    rwa [muslinDie_index hmu] at hhere
  case waitsForEdge =>
    split
    · exact ⟨ends_complete _ _ _ rfl, rfl⟩
    · split
      · rfl
      · exact ⟨look_put_self .., rfl⟩
  case noSeal =>
    refine congrArg Host.Outcome.next ?_
    rw [hnone]
  case seals =>
    split
    · rfl
    · split
      · exact ⟨ends_complete _ _ _ rfl, rfl⟩
      · exact sealNow_is s k h
  case refused =>
    rw [exec_muRowRestore_starts hs, href]
    exact ⟨_, rfl, ends_complete _ _ _ rfl, rfl⟩
  case restores =>
    rw [exec_muRowRestore_starts hs, href]
    exact ⟨_, rfl, runRestore_is keep hlocal htr hplace⟩

/-! Migrations (R206 to R211). -/

/-- An MU_MIGRATE that starts completes with the refusal its checks find, or selects its row. -/
theorem exec_muMigrate_starts {h : Hdr} {k table row a : Nat} {s : State} (hs : canStart s h = true) :
    exec (.muMigrate h k table row a) s = .next (match migrateRefusal s h k table row a with
      | some st => complete s h (ledgerUnit k) st
      | none => startMove (markStarted s h) k table row a (some h) false) :=
  congrArg Host.Outcome.next (runDesc_start _ hs)

/-- A migration selected changes the directory alone. -/
theorem startMove_frame (s : State) (k t row a : Nat) (w : Option Hdr) (p : Bool) : Same { mu := true } s (startMove s k t row a w p) :=
  startMove_same (Same.refl _ s) rfl

/-- Its row is DRAINING from where it rested toward its target, and nothing is queued for it yet (R208). -/
theorem startMove_dir {s : State} {t row o da : Nat} (hplace : shardPlace s t row = some (o, da)) (k a : Nat) (w : Option Hdr) (p : Bool) :
    dirOf (startMove s k t row a w p) k t row =
      some { dirOrHome s k t row da with st := .draining, target := a, targetDie := ledgerOf k a, waiter := w, started := false,
                                         switched := false, sealedIn := false, queued := [], pageIn := p } := by
  rw [startMove, hplace]
  exact dirOf_setDir ..

/-- A DRAINING row moves on once nothing reads its record, nothing sealed of it is left to apply, and its message has room. -/
theorem exec_migrationMoving_found {k table row : Nat} {e : DirEntry} {tr : Rec} {s : State} (he : dirOf s k table row = some e)
    (htr : tableRec s table = some tr) :
    let r := rowMessage s rkMove k table row (18 + e.ledgerDie)
    exec (.migrationMoving k table row) s = .next
      (if e.st = .draining ∧ readInFlight s k e (rowBytes tr) = false ∧ rowPendingStep s e table row = false ∧ reqRoom s r = true
       then openReq (setDir s k table row { e with st := .moving }) r else s) := by
  refine congrArg Host.Outcome.next ?_
  rw [he, htr]
  exact ite_eq_of_iff (by simp [and_assoc]) rfl rfl

/-- A migration abandoned, and what a seal that waited for it does then. -/
theorem exec_migrationAbandon_found {k table row : Nat} {e : DirEntry} {s : State} (he : dirOf s k table row = some e) :
    exec (.migrationAbandon k table row) s = .next (if e.st = .draining then finishSeals (abandonMove s k table row e) else s) := by
  refine congrArg Host.Outcome.next ?_
  rw [he]

/-- Lo starts to copy once no add that the owner forwarded is on its way. -/
theorem exec_moveStart_found {k table row : Nat} {e : DirEntry} {tr : Rec} {s : State} (he : dirOf s k table row = some e)
    (htr : tableRec s table = some tr) :
    exec (.moveStart k table row) s = .next
      (if e.st = .moving ∧ e.started = false ∧ addInFlight s e.ledgerDie table row = false then copyRow s k table row e tr else s) := by
  refine congrArg Host.Outcome.next ?_
  rw [he, htr]
  exact ite_eq_of_iff (by simp [and_assoc]) rfl rfl

theorem exec_moveDone_found {k table row : Nat} {e : DirEntry} {s : State} (he : dirOf s k table row = some e) :
    exec (.moveDone k table row) s = .next (if e.st = .moving ∧ e.started = true then switchRow s k table row e else s) := by
  refine congrArg Host.Outcome.next ?_
  rw [he]
  exact ite_eq_of_iff (by simp) rfl rfl

theorem exec_switchMsg_found {k table row : Nat} {e : DirEntry} {s : State} (he : dirOf s k table row = some e) :
    exec (.switchMsg k table row) s = .next
      (if e.st = .forwarding ∧ e.switched = false then setDir s k table row { e with switched := true } else s) := by
  refine congrArg Host.Outcome.next ?_
  rw [he]
  exact ite_eq_of_iff (by simp) rfl rfl

/-- The entry of a row that has come to rest: RESIDENT, nothing left of its move (R208). -/
def restingEntry (e : DirEntry) : DirEntry :=
  { e with st := .resident, prevDest := 0, prevLedger := 0, target := 0, targetDie := 0, started := false, switched := false, sealedIn := false }

theorem exec_forwardingEnd_found {k table row : Nat} {e : DirEntry} {s : State} (he : dirOf s k table row = some e) :
    exec (.forwardingEnd k table row) s = .next
      (if e.st = .forwarding ∧ e.switched = true
       then storeDir (rowEntries s e.prevLedger table row fun x => if x.moved then none else some x) k table row (restingEntry e) else s) := by
  refine congrArg Host.Outcome.next ?_
  rw [he]
  exact ite_eq_of_iff (by simp) rfl rfl

/-- An abandoned migration, its seals finished: the row rests where it was, its queued adds are on their way to its ledger die, and its
MU_MIGRATE has its record. -/
theorem abandonMove_finished {s : State} {row : Nat} (k t : Nat) (e : DirEntry) (hsorted : rising none s.mu.dir = true) (hrow : row < 2 ^ 31) :
    let u := finishSeals (abandonMove s k t row e)
    u.gz.adds = s.gz.adds ++ e.queued.map (fun m => { m with dst := 18 + e.ledgerDie, fwd := true, via := some (18 + k) }) ∧
    (dirOf u k t row = none ∨ ∃ x, dirOf u k t row = some x ∧ x.st = .resident ∧ x.dest = e.dest ∧ x.queued = []) ∧
    ∀ h, e.waiter = some h → ∃ n, n < 2 ^ 32 ∧ completionOf h (ledgerUnit k) stPartial n ∈ u.qm.cpls := by
  intro u
  obtain ⟨hadds, hrest, hrecord⟩ := abandon_is s k t row e hsorted hrow
  obtain ⟨hdir, hcpls⟩ := finishSeals_is (abandonMove s k t row e)
  obtain ⟨hgz, -⟩ := finishSeals_gz (abandonMove s k t row e)
  refine ⟨(congrArg Gauze.adds hgz).trans hadds, ?_, fun h hh => ?_⟩
  · rw [show dirOf u k t row = dirOf (abandonMove s k t row e) k t row from congrArg (look · _) hdir]
    exact hrest
  · obtain ⟨n, hn, hmem⟩ := hrecord h hh
    exact ⟨n, hn, hcpls _ hmem⟩

/-- A record copied without loss, by whether its entries find room at the target's ledger die (R208, R210). -/
theorem copyRow_clean {s c : State} {k t row : Nat} {e : DirEntry} {tr : Rec} (hread : checkRead s e.dest (rowBytes tr) = (false, c))
    (hsorted : rising none s.mu.dir = true) (hrow : row < 2 ^ 31) :
    let n := match ledgerRec c e.targetDie (tRegion tr) with | some r => fld r 6 | none => 0
    let u := copyRow s k t row e tr
    match copyEntries c e.ledgerDie e.targetDie t row (tRegion tr) n with
    | some x => u.mem = (writeMem x e.target (readBytes x.mem e.dest (rowBytes tr))).mem ∧ dirOf u k t row = some { e with started := true }
    | none => dirOf u k t row = none ∨ ∃ x, dirOf u k t row = some x ∧ x.st = .resident ∧ x.dest = e.dest := by
  intro n u
  have hdir : c.mu.dir = s.mu.dir := by
    have hkept := checkRead_dir s e.dest (rowBytes tr)
    rwa [hread] at hkept
  have hu : u = match copyEntries c e.ledgerDie e.targetDie t row (tRegion tr) n with
      | none => finishSeals (abandonMove c k t row e)
      | some x => setDir (writeMem x e.target (readBytes x.mem e.dest (rowBytes tr))) k t row { e with started := true } := by
    simp only [u, copyRow, hread, Bool.false_eq_true, if_false]
    rfl
  cases hcopy : copyEntries c e.ledgerDie e.targetDie t row (tRegion tr) n with
  | some x => rw [hu, hcopy]; exact ⟨rfl, dirOf_setDir ..⟩
  | none =>
    rw [hu, hcopy]
    obtain ⟨-, hrest, -⟩ := abandonMove_finished (s := c) k t e (hdir ▸ hsorted) hrow
    exact hrest.imp_right fun ⟨x, hx, hst, hdest, _⟩ => ⟨x, hx, hst, hdest⟩

/-- A row's entry after its switch: FORWARDING, at its target and target ledger die (R208). -/
def switchedEntry (e : DirEntry) : DirEntry :=
  { e with st := .forwarding, dest := e.target, ledgerDie := e.targetDie, prevDest := e.dest, prevLedger := e.ledgerDie, queued := [],
           waiter := none, switched := false, paged := e.pageIn, pageIn := false }

/-- The switch but for its waiter's record: the row's entry, its message answered, and its queued adds sent on. -/
def switchParts (s : State) (k t row : Nat) (e : DirEntry) : State :=
  e.queued.foldl (releaseQueued k e.targetDie e.sealedIn row)
    (closeRow (bump (setDir s k t row (switchedEntry e)) (18 + k) 0x11040) rkMove k t row)

theorem switchRow_eq (s : State) (k t row : Nat) (e : DirEntry) : switchRow s k t row e =
    finishSeals (match e.waiter with | some h => complete (switchParts s k t row e) h (ledgerUnit k) stDone | none => switchParts s k t row e) := rfl

/-- What is sent on leaves the directory. -/
theorem releaseQueued_foldl_dir (k ln : Nat) (b : Bool) (row : Nat) (l : List AddMsg) :
    ∀ s : State, (l.foldl (releaseQueued k ln b row) s).mu.dir = s.mu.dir := by
  induction l with
  | nil => exact fun _ => rfl
  | cons m l ih => exact fun s => (ih _).trans (releaseQueued_dir ..)

theorem switchParts_dir (s : State) (k t row : Nat) (e : DirEntry) : dirOf (switchParts s k t row e) k t row = some (switchedEntry e) := by
  let b := bump (setDir s k t row (switchedEntry e)) (18 + k) 0x11040
  have hdir : (switchParts s k t row e).mu.dir = (setDir s k t row (switchedEntry e)).mu.dir :=
    calc (switchParts s k t row e).mu.dir
      _ = (closeRow b rkMove k t row).mu.dir := releaseQueued_foldl_dir ..
      _ = b.mu.dir := congrArg Muslin.dir (closeRow_adds b rkMove k t row).1
      _ = (setDir s k t row (switchedEntry e)).mu.dir := congrArg Muslin.dir ((bumpBy_frame ..).mu rfl)
  exact (congrArg (look · _) hdir).trans (dirOf_setDir ..)

/-- The switch, and the record of its MU_MIGRATE. -/
theorem switchRow_is (s : State) (k t row : Nat) (e : DirEntry) :
    dirOf (switchRow s k t row e) k t row = some (switchedEntry e) ∧
    ∀ h, e.waiter = some h → ∃ n, n < 2 ^ 32 ∧ completionOf h (ledgerUnit k) stDone n ∈ (switchRow s k t row e).qm.cpls := by
  have hparts := switchParts_dir s k t row e
  rw [switchRow_eq]
  cases e.waiter with
  | none => exact ⟨(congrArg (look · _) (finishSeals_is _).1).trans hparts, fun h hh => nomatch hh⟩
  | some h0 =>
    refine ⟨(congrArg (look · _) (finishSeals_is _).1).trans hparts, fun h hh => ?_⟩
    obtain ⟨n, hn, hmem⟩ := cpl_mem (switchParts s k t row e) h (ledgerUnit k) stDone
    cases hh
    exact ⟨n, hn, (finishSeals_is _).2 _ hmem⟩

/-- A directory entry stored that is RESIDENT: freed, or RESIDENT at its place. -/
theorem storeDir_resident {s : State} {row : Nat} (k t : Nat) {e : DirEntry} (hst : e.st = .resident) (hsorted : rising none s.mu.dir = true)
    (hrow : row < 2 ^ 31) :
    dirOf (storeDir s k t row e) k t row = none ∨
      ∃ x, dirOf (storeDir s k t row e) k t row = some x ∧ x.st = .resident ∧ x.dest = e.dest := by
  refine (storeDir_look s k t row e hsorted hrow).1.imp_right fun ⟨x, hx, hcase⟩ => ⟨x, hx, ?_⟩
  rcases hcase with rfl | rfl | ⟨-, rfl⟩
  · exact ⟨hst, rfl⟩
  · exact ⟨hst, rfl⟩
  · exact ⟨rfl, rfl⟩

/-- Settles O36: each command and event by the row's state. -/
theorem migrationsRunTheirCourse : Obligations.MigrationsRunTheirCourse := by
  refine ⟨fun h k table row a s hs => ⟨_, exec_muMigrate_starts hs, ?migrate⟩,
    fun k table row e tr s he htr => ⟨_, exec_migrationMoving_found he htr, ?moving⟩,
    fun k table row e s he hsorted hrow => ⟨_, exec_migrationAbandon_found he, ?abandon⟩,
    fun k table row e tr s he htr hsorted hrow => ⟨_, exec_moveStart_found he htr, ?start⟩,
    fun k table row e s he => ⟨_, exec_moveDone_found he, ?done⟩,
    fun k table row e s he => ⟨_, exec_switchMsg_found he, ?switch⟩,
    fun k table row e s he hsorted hrow => ⟨_, exec_forwardingEnd_found he, ?forwarded⟩⟩
  case migrate =>
    cases migrateRefusal s h k table row a with
    | some st => exact ⟨ends_complete _ _ _ rfl, rfl⟩
    | none =>
      have hqm := (startMove_frame (markStarted s h) k table row a (some h) false).qm rfl
      refine ⟨(congrArg Qm.cpls hqm).trans rfl, fun o da hplace => ?_⟩
      have hplace' : shardPlace (markStarted s h) table row = some (o, da) := (shardPlace_img rfl table row).trans hplace
      exact ⟨_, startMove_dir hplace' .., rfl, rfl, rfl, rfl, rfl, rfl⟩
  case moving =>
    split
    · exact ⟨State.onGz_same (setDir_same (Same.refl _ s) rfl) rfl, dirOf_setDir .., rfl⟩
    · rfl
  case abandon =>
    split
    · exact abandonMove_finished k table e hsorted hrow
    · rfl
  case start =>
    split
    · exact fun hread => copyRow_clean (Prod.ext hread rfl) hsorted hrow
    · rfl
  case done =>
    split
    · exact switchRow_is s k table row e
    · rfl
  case switch =>
    split
    · exact ⟨setDir_same (Same.refl _ s) rfl, dirOf_setDir ..⟩
    · rfl
  case forwarded =>
    split
    · exact ⟨storeDir_same (rowEntries_same (Same.refl _ s) rfl) rfl rfl rfl rfl rfl, storeDir_resident k table rfl hsorted hrow⟩
    · rfl

/-! MU_OPT_CLOSE (R202, R239). -/

theorem exec_muOptClose_starts {h : Hdr} {k p n a : Nat} {s : State} (hs : canStart s h = true)
    (hnew : look s.mu.gatherPos (descKey h) = none) :
    exec (.muOptClose h k p n a) s = .next (match closeRefusal s h k p n with
      | some st => complete s h (optUnit k) st
      | none => closeBody s h k p a) :=
  congrArg Host.Outcome.next ((if_neg (by simp [hnew])).trans (runDesc_start _ hs))

/-- The run of a close over its panel's sealed entries, with the parameter sets read. -/
def closeRun (s : State) (h : Hdr) (k p : Nat) (l : List (Nat × Params)) : CloseRun :=
  (panelEntries s k ((openStep s k - 1) % 2) p).foldl (closeEntry k ((openStep s k - 1) % 2) (openStep s k - 1) (setOf l))
    { st := s, dropped := (lookD s.mu.gatherPos (descKey h) {}).skipped }

/-- A close that met an entry in migration has begun, and waits. -/
theorem runClose_waits {s : State} {h : Hdr} {k p : Nat} {l : List (Nat × Params)} (hw : (closeRun s h k p l).waits = true) :
    runClose s h k p l = (markStarted (closeRun s h k p l).st h).onMu fun m =>
      { m with gatherPos := put m.gatherPos (descKey h) { skipped := (closeRun s h k p l).dropped } } := if_pos hw

/-- The panel's unused DENSE words zeroed, and the panel closed. -/
def panelClosed (s : State) (h : Hdr) (k bank p : Nat) : State :=
  (zeroUnused s k bank p).onMu fun m => { m with closed := ins m.closed (k * 64 + p), gatherPos := del m.gatherPos (descKey h) }

theorem panelClosed_is (s : State) (h : Hdr) (k bank p : Nat) :
    Same { Groups.counted with mu := true } s (panelClosed s h k bank p) ∧ k * 64 + p ∈ (panelClosed s h k bank p).mu.closed :=
  ⟨State.onMu_same (zeroUnused_same (Same.refl _ s) rfl rfl rfl rfl) rfl, ins_self _ _⟩

/-- Any other closes its panel, and completes. -/
theorem runClose_closes {s : State} {h : Hdr} {k p : Nat} {l : List (Nat × Params)} (hlocal : h.system = false)
    (hw : (closeRun s h k p l).waits = false) :
    runClose s h k p l = complete (panelClosed (closeRun s h k p l).st h k ((openStep s k - 1) % 2) p) h (optUnit k)
      (if (closeRun s h k p l).dropped then stPartial else stDone) :=
  (if_neg (Bool.eq_false_iff.mp hw)).trans (finish_local _ _ hlocal)

/-- A close with its parameter sets read, by whether an entry awaits a migration. -/
theorem runClose_is (s : State) {h : Hdr} (k p : Nat) (l : List (Nat × Params)) (hlocal : h.system = false) :
    let g := closeRun s h k p l
    let t := runClose s h k p l
    if g.waits = true then t.qm.cpls = g.st.qm.cpls ∧ (look t.mu.gatherPos (descKey h)).isSome = true
    else Ends g.st t h (optUnit k) (if g.dropped then stPartial else stDone) ∧ k * 64 + p ∈ t.mu.closed ∧ t.mem = g.st.mem := by
  intro g t
  split
  next hw =>
    rw [show t = _ from runClose_waits hw]
    exact ⟨rfl, Option.isSome_iff_exists.mpr ⟨_, look_put_self ..⟩⟩
  next hw =>
    obtain ⟨hframe, hclosed⟩ := panelClosed_is g.st h k ((openStep s k - 1) % 2) p
    rw [show t = _ from runClose_closes hlocal (Bool.eq_false_iff.mpr hw)]
    exact ⟨ends_complete _ _ _ (hframe.qm rfl), hclosed, hframe.mem rfl⟩

/-- Reading parameter sets leaves the queue manager. -/
theorem readSets_qm (s : State) (h : Hdr) (a : Nat) (ns : List Nat) : (readSets s h a ns).2.qm = s.qm :=
  (readSets_same (Same.refl { Groups.faulted with mem := true, mu := true } s) rfl rfl rfl rfl rfl rfl rfl).qm rfl

/-! BANK_RELEASE (R202, R239). -/

theorem exec_bankRelease_none {k : Nat} {s : State} (hno : look s.mu.unreleased k = none ∨ releasable s k = false) :
    exec (.bankRelease k) s = .next s := by
  refine congrArg Host.Outcome.next ?_
  rcases hno with hnone | hheld
  · rw [hnone]
  · split
    · rfl
    · exact if_pos (by simp [hheld])

/-- The sealed bank of step n emptied, and its step closed. -/
def bankEmptied (s : State) (k n : Nat) : State :=
  s.onMu fun m =>
    { m with unreleased := del m.unreleased k, closedStep := put m.closedStep k n,
             entries := keep (fun key _ => key / 2 ^ 43 != k * 2 + n % 2) m.entries,
             dense := keep (fun key _ => key / 2 ^ 37 != k * 2 + n % 2) m.dense,
             denseLate := m.denseLate.filter fun key => key / 256 != k * 2 + n % 2,
             consumed := keep (fun key _ => key / 2 ^ 37 != k * 2 + n % 2) m.consumed }

/-- A release empties the bank; then its END is journalled, and rows are selected to move (R207, R212, R392). -/
theorem exec_bankRelease_releases {k n : Nat} {s : State} (hn : look s.mu.unreleased k = some n) (hready : releasable s k = true) :
    exec (.bankRelease k) s = .next (selectRows (pageInRows (journalEnd (bankEmptied s k n) k n) k) k n) := by
  refine congrArg Host.Outcome.next ?_
  rw [hn]
  exact if_neg (by simp [hready])

/-- What follows a release leaves the banks and the step numbers. -/
theorem mu_afterRelease (s : State) (k n : Nat) : MU s (selectRows (pageInRows (journalEnd s k n) k) k n) :=
  have hjournal : MU s (journalEnd s k n) :=
    MU.of ((journalEnd_same (Same.refl journalGroups s) rfl rfl rfl rfl rfl rfl rfl rfl rfl).mu rfl)
  (hjournal.trans (mu_pageInRows ..)).trans (mu_selectRows ..)

/-! MU_OPT_DENSE (R219, R220, R237 to R240). -/

theorem exec_muOptDense_starts {h : Hdr} {op : OptDenseOp} {s : State} (hs : canStart s h = true) :
    exec (.muOptDense h op) s = .next (match odRefusal s h op with
      | some st => complete s h (optUnit op.muslin) st
      | none => match odParams s op with
        | (.inl st, s) => complete s h (optUnit op.muslin) st
        | (.inr p, s) => match odRefusal2 s h op with
          | some st => complete s h (optUnit op.muslin) st
          | none => runDense s h op p) :=
  congrArg Host.Outcome.next (runDesc_start _ hs)

theorem odParams_qm (s : State) (o : OptDenseOp) : (odParams s o).2.qm = s.qm :=
  (odParams_same (Same.refl { Groups.faulted with mem := true, mu := true } s) rfl rfl rfl rfl rfl rfl rfl).qm rfl

/-- What is journalled of a run depends on its blocks, not on its state. -/
theorem journalDense_setSt (s u : State) (o : OptDenseOp) (g : DenseRun) : journalDense s o g = journalDense s o { g with st := u } := rfl

/-- Journalling writes no memory of this package. -/
theorem journalDense_mem (s : State) (o : OptDenseOp) (g : DenseRun) : (journalDense s o g).mem = s.mem := by
  rw [journalDense_setSt s s o g]
  exact (journalDense_same (Same.refl journalGroups s) (Same.refl _ s) rfl rfl rfl rfl rfl rfl rfl rfl rfl).mem rfl

/-- The block steps of a run from the anchor of the state record that x has read. -/
def denseBlocks (x : State) (o : OptDenseOp) (p : Params) : DenseRun :=
  let a := normAnchor x (ofLe (readBytes x.mem o.stateDa 8))
  denseRun a.2 o p a.1 (denseSteps o)

/-- The state after a run's block steps: with the state record written, unless a sector was lost. -/
def denseWritten (x : State) (o : OptDenseOp) (p : Params) : State :=
  if (denseBlocks x o p).lost then (denseBlocks x o p).st
  else writeState (denseBlocks x o p).st o (normAnchor x (ofLe (readBytes x.mem o.stateDa 8))).1 (denseBlocks x o p)

/-- A run that could read its state record completes with DONE, or with the lost-data status. -/
theorem runDense_read {s : State} {h : Hdr} {o : OptDenseOp} {p : Params} (hlocal : h.system = false)
    (hread : (checkRead s o.stateDa 32).1 = false) :
    let c := (checkRead s o.stateDa 32).2
    runDense s h o p = complete (journalDense (denseWritten c o p) o (denseBlocks c o p)) h (optUnit o.muslin)
      (if (denseBlocks c o p).lost then stEcc else stDone) := by
  intro c
  rw [runDense_is _ _ _ _ hlocal, hread]
  rfl

/-- MU_OPT_DENSE past its checks, by whether its state record can be read. -/
theorem runDense_answers (s : State) {h : Hdr} (o : OptDenseOp) (p : Params) (hlocal : h.system = false) :
    let c := checkRead s o.stateDa 32
    let t := runDense s h o p
    if c.1 = true then Ends s t h (optUnit o.muslin) stEcc ∧ t.mem = c.2.mem
    else Ends (journalDense (denseWritten c.2 o p) o (denseBlocks c.2 o p)) t h (optUnit o.muslin)
      (if (denseBlocks c.2 o p).lost then stEcc else stDone) ∧ t.mem = (denseWritten c.2 o p).mem := by
  intro c t
  split
  next hlost =>
    rw [show t = _ from (runDense_is s h o p hlocal).trans (if_pos hlost)]
    exact ⟨ends_complete _ _ _ ((checkRead_frame ..).qm rfl), rfl⟩
  next hread =>
    rw [show t = _ from runDense_read hlocal (Bool.eq_false_iff.mpr hread)]
    exact ⟨ends_complete _ _ _ rfl, journalDense_mem ..⟩

/-- R219: the one block of a DERIVE_ONLY whose master can be read writes the working copy; no block counts as done, and no word as used. -/
theorem denseBlocks_derives {c d : State} {o : OptDenseOp} (p : Params) (hderive : o.deriveOnly = true) (hone : odCount o = 32)
    (hread : blockWhole (normAnchor c (ofLe (readBytes c.mem o.stateDa 8))).2 [(o.masterDa, 64)] = (true, d)) :
    ∃ w v, denseBlocks c o p = { st := deriveBlock d o 0 (masterCodes d o 0), normW := w, normD := v } := by
  have hsteps : denseSteps o = 1 := by simp [denseSteps, hone, hderive]
  unfold denseBlocks denseRun
  simp only [hsteps, hderive, if_true, List.range_one, List.foldl_cons, List.foldl_nil]
  unfold onlyDerive
  simp only [Nat.mul_zero, Nat.add_zero, hread]
  exact ⟨_, _, rfl⟩

/-- Without RATIO the state record takes the working copy's AMAX, and under DERIVE_ONLY keeps its step and ratio (R220). -/
theorem writeState_derive {x : State} {o : OptDenseOp} {a : Int} {g : DenseRun} (hderive : o.deriveOnly = true) (hratio : o.ratio = false) :
    writeState x o a g = writeMem x o.stateDa (leBytes 8 (amaxRecord x o) ++ leBytes 8 (ofLe (readBytes x.mem (o.stateDa + 8) 8)) ++
      leBytes 4 (ofLe (readBytes x.mem (o.stateDa + 16) 4)) ++ List.replicate 12 0) := by
  simp [writeState, hderive, hratio]

/-- Settles O38: a close by its panel's entries, a release by its panels, a dense update by its checks and its state record. -/
theorem optimizerCommands : Obligations.OptimizerCommands := by
  refine ⟨fun h k p n a s hs hnew hlocal => ⟨_, exec_muOptClose_starts hs hnew, ?close⟩,
    fun k s => ⟨fun hno => exec_bankRelease_none hno, fun n hn hready => ⟨_, exec_bankRelease_releases hn hready, ?release⟩⟩,
    fun h op s hs hlocal => ⟨_, exec_muOptDense_starts hs, ?dense⟩,
    fun h op s b p c d hs hlocal href hparams hderive href2 hone hratio hread hwhole => ?derive⟩
  case close =>
    cases closeRefusal s h k p n with
    | some st => exact ⟨ends_complete _ _ _ rfl, rfl⟩
    | none =>
      dsimp only
      unfold closeBody
      split
      · rfl
      · have hqm := readSets_qm s h a (panelSets s k p)
        generalize readSets s h a (panelSets s k p) = sets at hqm ⊢
        obtain ⟨r, b⟩ := sets
        cases r with
        | inl st => exact ends_complete _ _ _ hqm
        | inr l => exact runClose_is b k p l hlocal
  case release =>
    obtain ⟨hunreleased, hstep, hentries, hdense⟩ := mu_afterRelease (bankEmptied s k n) k n
    rw [hunreleased, hstep, hentries, hdense]
    exact ⟨rfl, look_put_self .., rfl, rfl⟩
  case dense =>
    cases odRefusal s h op with
    | some st => exact ⟨ends_complete _ _ _ rfl, rfl⟩
    | none =>
      have hqm := odParams_qm s op
      dsimp only
      generalize odParams s op = params at hqm ⊢
      obtain ⟨r, b⟩ := params
      cases r with
      | inl st => exact ⟨ends_complete _ _ _ hqm, rfl⟩
      | inr p =>
        dsimp only
        cases odRefusal2 b h op with
        | some st => exact ⟨ends_complete _ _ _ hqm, rfl⟩
        | none =>
          have hrun := runDense_answers b op p hlocal
          dsimp only at hrun ⊢
          split at hrun
          next hlost => rw [if_pos hlost]; exact ⟨ends_congr_left hrun.1 hqm, hrun.2⟩
          next hkept => rw [if_neg hkept]; exact hrun
  case derive =>
    intro x y
    obtain ⟨v, w, hblocks⟩ := denseBlocks_derives p hderive hone hwhole
    have hwritten : denseWritten c op p = y := by
      rw [denseWritten, hblocks, if_neg Bool.false_ne_true]
      exact writeState_derive hderive hratio
    have hrun : runDense b h op p = complete (journalDense y op { st := x }) h (optUnit op.muslin) stDone := by
      rw [runDense_read hlocal (by rw [hread]), hread]
      dsimp only
      rw [hwritten, hblocks]
      rfl
    refine ⟨runDense b h op p, (exec_muOptDense_starts hs).trans ?_, ?_⟩
    · simp only [href, hparams, href2]
    · rw [hrun]
      exact ⟨ends_complete _ _ _ rfl, journalDense_mem ..⟩

end Sys2Proof.Machine
end

section
/-!
PROOFS. The obligation of family 09_memory_tiers: what QUOTA_SET, UNLOCK and ALMANAC_WRITE do once R299 has accepted them.
-/

namespace Sys2Proof.Machine

open Sys2Proof

/-! What quotaSet takes and refuses (R249, R338). -/

/-- A capacity taken is the one written, in a tier that exists, and not below what the panel has placed there. -/
theorem quotaSet_capacity_some {s c : State} {p tier m v : Nat} (hset : quotaSet s p 0 tier m v = some c) :
    tier < 3 ∧ placedBytes s p tier ≤ 2 ^ 20 * v ∧ c = s.onImg fun i => { i with quotas := put i.quotas (p * 4 + tier) v } := by
  simp only [quotaSet, Option.ite_none_left_eq_some, Option.ite_none_right_eq_some, Bool.and_eq_true, decide_eq_true_eq,
    Option.some.injEq] at hset
  obtain ⟨-, ⟨⟨htier, hplaced⟩, -⟩, rfl⟩ := hset
  exact ⟨htier, hplaced, rfl⟩

/-- QUOTA_SET of an undefined panel is refused. -/
theorem quotaSet_noPanel {s : State} {p : Nat} (what tier m v : Nat) (hpanel : panelRec s p = none) : quotaSet s p what tier m v = none :=
  if_pos (by simp [hpanel])

/-- QUOTA_SET of a WHAT of 3 or more is refused. -/
theorem quotaSet_undefinedWhat {s : State} {what : Nat} (p tier m v : Nat) (hwhat : 3 ≤ what) : quotaSet s p what tier m v = none := by
  obtain ⟨n, rfl⟩ := Nat.exists_eq_add_of_le' hwhat
  exact ite_self none

/-- QUOTA_SET of a TIER of 3, or of a capacity below what the panel has placed in the tier, is refused. -/
theorem quotaSet_badCapacity {s : State} {p tier v : Nat} (m : Nat) (hbad : 3 ≤ tier ∨ 2 ^ 20 * v < placedBytes s p tier) :
    quotaSet s p 0 tier m v = none := by
  cases hset : quotaSet s p 0 tier m v with
  | none => rfl
  | some c =>
    obtain ⟨htier, hplaced, -⟩ := quotaSet_capacity_some hset
    omega

/-- What R338 has QUOTA_SET refuse. -/
theorem quotaSet_refuses {s : State} {p what tier v : Nat} (m : Nat)
    (hbad : panelRec s p = none ∨ 3 ≤ what ∨ (what = 0 ∧ (3 ≤ tier ∨ 2 ^ 20 * v < placedBytes s p tier))) :
    quotaSet s p what tier m v = none := by
  obtain hpanel | hwhat | ⟨rfl, hcap⟩ := hbad
  · exact quotaSet_noPanel _ _ _ _ hpanel
  · exact quotaSet_undefinedWhat _ _ _ _ hwhat
  · exact quotaSet_badCapacity _ hcap

/-- QUOTA_SET leaves the queue manager. -/
theorem quotaSet_qm {s c : State} {p what tier m v : Nat} (hset : quotaSet s p what tier m v = some c) : c.qm = s.qm :=
  (quotaSet_same hset (Same.refl { img := true } s) rfl).qm rfl

/-! What ALMANAC_WRITE stores (R447, R456). -/

/-- An owner-settable record is no KEY_CTR record. -/
theorem ne_keyCtr_of_ownerSettable {id : Nat} (hown : ownerSettable id = true) : id ≠ almKeyCtr := by
  rintro rfl
  exact absurd hown (by decide)

/-- Bytes that already have the length asked for get no padding. -/
theorem padTo_of_length {n : Nat} {l : List Byte} (hlen : l.length = n) : padTo n l = l := by
  subst hlen
  rw [padTo, List.take_length, Nat.sub_self, List.replicate_zero, List.append_nil]

/-- The owner lock as a LOCKS record just appended gives it. -/
theorem ownerLock_append (s : State) (b : Byte) : ownerLock (appendAlm s almLocks 1 [b]) = (b.toNat % 2 == 1) := by
  simp [ownerLock, almNum, almGet_append s almLocks 1 [b] (by decide), ofLe]

/-! Each command once R299 has accepted it: its meaning runs with its COUNTER recorded (critical_accepted). -/

section
variable {s : State} {h : Hdr} {t : Trailer} {slot : Nat} {k : Key} (ha : Accepted s h t slot k)
include ha

theorem exec_quotaSet_refused {p what tier m v : Nat} (hset : quotaSet (acceptCounter s slot k t.counter) p what tier m v = none) :
    exec (.quotaSet h t p what tier m v) s = .next (complete (acceptCounter s slot k t.counter) h cmdUnit stMalformed) :=
  congrArg Host.Outcome.next ((critical_accepted _ ha).trans (by rw [hset]))

theorem exec_quotaSet_taken {p what tier m v : Nat} {c : State}
    (hset : quotaSet (acceptCounter s slot k t.counter) p what tier m v = some c) :
    exec (.quotaSet h t p what tier m v) s = .next (complete c h cmdUnit stDone) :=
  congrArg Host.Outcome.next ((critical_accepted _ ha).trans (by rw [hset]))

theorem exec_debugOn_enters (hop : t.reserved = false) :
    exec (.debugOn h t) s =
      .next (complete ((acceptCounter s slot k t.counter).onSec fun c => { c with debug := true }) h cmdUnit stDone) :=
  congrArg Host.Outcome.next ((critical_accepted _ ha).trans (if_neg (by simp [hop])))

/-- An UNLOCK of OP 4 to 7. -/
theorem exec_debugOn_reserved (hop : t.reserved = true) :
    exec (.debugOn h t) s = .next (complete (acceptCounter s slot k t.counter) h cmdUnit stMalformed) :=
  congrArg Host.Outcome.next ((critical_accepted _ ha).trans (if_pos hop))

theorem exec_lockSet_accepted :
    exec (.lockSet h t) s = .next (complete (appendAlm (acceptCounter s slot k t.counter) almLocks 1 [1]) h cmdUnit stDone) :=
  congrArg Host.Outcome.next (critical_accepted _ ha)

theorem exec_lockClear_accepted :
    exec (.lockClear h t) s = .next (complete (appendAlm (acceptCounter s slot k t.counter) almLocks 1 [0]) h cmdUnit stDone) :=
  congrArg Host.Outcome.next (critical_accepted _ ha)

theorem exec_almanacWrite_writes {id v n : Nat} {data : List Byte} (hext : 2 ≤ h.ext) (hown : ownerSettable id = true) (hpos : 1 ≤ n)
    (hmax : n ≤ 64) (hlen : data.length = n) :
    exec (.almanacWrite h t id v n data) s = .next (complete (appendAlm (acceptCounter s slot k t.counter) id v data) h cmdUnit stDone) := by
  refine congrArg Host.Outcome.next ((critical_accepted _ ha).trans ((if_neg ?_).trans (by rw [padTo_of_length hlen])))
  simp [slotShort, hown]
  omega

theorem exec_almanacWrite_refused {id n : Nat} (v : Nat) (data : List Byte)
    (hbad : h.ext < 2 ∨ ownerSettable id = false ∨ n = 0 ∨ 64 < n) :
    exec (.almanacWrite h t id v n data) s = .next (complete (acceptCounter s slot k t.counter) h cmdUnit stMalformed) := by
  refine congrArg Host.Outcome.next ((critical_accepted _ ha).trans (if_pos ?_))
  simpa [slotShort, or_assoc] using hbad

/-- R338: the one value named is set, or none. -/
theorem quotaSet_outcome (p what tier m v : Nat) :
    let b := acceptCounter s slot k t.counter
    ∃ u, exec (.quotaSet h t p what tier m v) s = .next u ∧
      (quotaSet b p what tier m v = none → Ends b u h cmdUnit stMalformed ∧ u.img = b.img) ∧
      (∀ c, quotaSet b p what tier m v = some c → Ends b u h cmdUnit stDone ∧ u.img = c.img ∧
        (what = 0 → look u.img.quotas (4 * p + tier) = some v ∧ placedBytes b p tier ≤ 2 ^ 20 * v)) ∧
      (panelRec b p = none ∨ 3 ≤ what ∨ (what = 0 ∧ (3 ≤ tier ∨ 2 ^ 20 * v < placedBytes b p tier)) →
        quotaSet b p what tier m v = none) := by
  intro b
  cases hset : quotaSet b p what tier m v with
  | none => exact ⟨_, exec_quotaSet_refused ha hset, fun _ => ⟨ends_complete _ _ _ rfl, rfl⟩, fun c hc => absurd hc.symm (Option.some_ne_none c), fun _ => rfl⟩
  | some c =>
    refine ⟨_, exec_quotaSet_taken ha hset, fun hnone => absurd hnone (Option.some_ne_none c), ?_, fun hbad => hset.symm.trans (quotaSet_refuses m hbad)⟩
    rintro _ ⟨⟩
    refine ⟨ends_complete _ _ _ (quotaSet_qm hset), rfl, ?_⟩
    rintro rfl
    obtain ⟨-, hplaced, rfl⟩ := quotaSet_capacity_some hset
    exact ⟨by rw [Nat.mul_comm]; exact look_put_self .., hplaced⟩

end

/-- Settles O25: each command by what refuses it once its COUNTER is recorded, and what it does otherwise. -/
theorem unlockAndQuota : Obligations.UnlockAndQuota := by
  intro h t s slot k ha b
  refine ⟨look_put_self .., quotaSet_outcome ha, ?debugOn,
    ⟨_, exec_lockSet_accepted ha, ends_complete _ _ _ rfl, ownerLock_append b 1⟩,
    ⟨_, exec_lockClear_accepted ha, ends_complete _ _ _ rfl, ownerLock_append b 0⟩, fun id v n data => ?almanacWrite⟩
  case debugOn =>
    cases hop : t.reserved with
    | false => exact ⟨_, exec_debugOn_enters ha hop, fun _ => ⟨ends_complete _ _ _ rfl, rfl⟩, nofun⟩
    | true => exact ⟨_, exec_debugOn_reserved ha hop, nofun, fun _ => ⟨ends_complete _ _ _ rfl, rfl⟩⟩
  case almanacWrite =>
    by_cases hbad : h.ext < 2 ∨ ownerSettable id = false ∨ n = 0 ∨ 64 < n
    · refine ⟨_, exec_almanacWrite_refused ha v data hbad, fun hext hown hpos hmax _ => ?_, fun _ => ⟨ends_complete _ _ _ rfl, rfl⟩⟩
      simp [hown] at hbad
      omega
    · obtain ⟨u, hu⟩ := exec_next (.almanacWrite h t id v n data) s
      refine ⟨u, hu, fun hext hown hpos hmax hlen => ?_, fun hrefuse => absurd hrefuse hbad⟩
      obtain rfl := Host.Outcome.next.inj (hu.symm.trans (exec_almanacWrite_writes ha hext hown hpos hmax hlen))
      exact ⟨ends_complete _ _ _ rfl, almGet_append b id v data (ne_keyCtr_of_ownerSettable hown)⟩

end Sys2Proof.Machine
end

section
/-!
PROOFS. The obligations of family 10_queues_and_commands: what a step does, what the queue manager, the sequencer and the critical commands do
and leave unchanged, and the host link and the far ports.
-/

namespace Sys2Proof.Machine

open Sys2Proof

/-! What a step does (R272). -/

/-- Settles O4: the match of step on a queue that is not empty. -/
theorem stepRunsTheFrontCommand : Obligations.StepRunsTheFrontCommand := by
  intro c r s hp
  unfold step
  rw [hp]

/-- Settles O5: the match of step on the empty queue. -/
theorem emptyQueueIdles : Obligations.EmptyQueueIdles := by
  intro s hp
  unfold step
  rw [hp]

/-- Settles O8: the block idles, or runs the front command, which answers (exec_next) and leaves the queue as it finds it (exec_kept). -/
theorem everyStepTakesOneCommand : Obligations.EveryStepTakesOneCommand := by
  intro s
  cases hp : s.pending with
  | nil => exact ⟨s, emptyQueueIdles s hp, hp⟩
  | cons c r =>
    obtain ⟨t, ht⟩ := exec_next c { s with pending := r }
    exact ⟨t, (stepRunsTheFrontCommand c r s hp).trans ht, (exec_kept ht).pending⟩

/-! Frames of the queue manager, the sequencer, the security engine and image loads. -/

/-- Settles O54: each command's frame, from the state it starts in. -/
theorem framesOfQueuesAndSequencer : Obligations.FramesOfQueuesAndSequencer :=
  ⟨fun _ s _ h => ⟨execDescriptorFetch_same h (Same.refl _ s) rfl rfl rfl rfl rfl rfl rfl rfl rfl,
     memSame_of_sameBytes (execDescriptorFetch_bytes h (SameBytes.refl s))⟩,
   fun _ s _ h => ⟨execSealReread_same h (Same.refl _ s) rfl rfl rfl rfl rfl rfl rfl rfl rfl,
     memSame_of_sameBytes (execSealReread_bytes h (SameBytes.refl s))⟩,
   fun _ _ s _ h => execDispatch_same h (Same.refl _ s) rfl rfl rfl rfl rfl rfl rfl rfl rfl rfl rfl rfl rfl rfl,
   fun _ _ s _ h => execDoorbell_same h (Same.refl _ s) rfl rfl rfl rfl rfl rfl,
   fun _ s _ h => execResume_same h (Same.refl _ s) rfl,
   fun _ s _ h => execRhead_same h (Same.refl _ s) rfl rfl rfl rfl,
   fun _ s _ h => execCompletion_same h (Same.refl _ s) rfl rfl rfl rfl rfl rfl rfl rfl rfl rfl rfl rfl rfl rfl rfl,
   fun _ s _ h => execNop_same h (Same.refl _ s) rfl rfl,
   fun _ _ _ _ s _ h => execFence_same h (Same.refl _ s) rfl rfl,
   fun _ _ _ _ s _ h =>
     execInlineWrite_same h (Same.refl _ s) rfl rfl rfl rfl rfl rfl rfl rfl rfl rfl rfl rfl rfl rfl rfl rfl rfl rfl rfl rfl,
   fun _ _ _ _ _ _ _ s _ h => execPost_same h (Same.refl _ s) rfl rfl rfl rfl rfl rfl rfl rfl rfl,
   fun _ _ _ s _ h => execWait_same h (Same.refl _ s) rfl,
   fun _ s _ h => execFire_same h (Same.refl _ s) rfl rfl rfl rfl,
   fun _ _ _ _ _ s _ h => execAmax_same h (Same.refl _ s) rfl rfl rfl rfl rfl rfl rfl rfl rfl rfl rfl rfl rfl rfl rfl rfl rfl,
   fun _ _ _ s _ h => ⟨execAmaxd_same h (Same.refl _ s) rfl rfl rfl rfl rfl rfl rfl rfl,
     memSame_of_sameBytes (execAmaxd_bytes h (SameBytes.refl s))⟩,
   fun _ _ _ _ s _ h => execAnchor_same h (Same.refl _ s) rfl,
   fun _ s _ h => execSealPoint_same h (Same.refl _ s) rfl,
   fun _ s _ h => execEndProg_same h (Same.refl _ s) rfl,
   fun _ _ s _ h => execSqRun_same h (Same.refl _ s) rfl rfl rfl,
   fun _ s _ h => execSqStop_same h (Same.refl _ s) rfl rfl rfl,
   fun s _ h => execSealGate_same h (Same.refl _ s) rfl rfl rfl rfl rfl rfl rfl,
   fun s _ h => execClosePart_same h (Same.refl _ s) rfl,
   fun s _ h => execStepEnd_same h (Same.refl _ s) rfl rfl rfl rfl rfl rfl rfl rfl rfl rfl rfl,
   fun _ s _ h => execStepBudgetExpiry_same h (Same.refl _ s) rfl rfl rfl rfl rfl rfl rfl⟩

/-- Settles O55: each command's frame, from the state it starts in. -/
theorem framesOfSecurityAndImages : Obligations.FramesOfSecurityAndImages :=
  ⟨fun _ _ _ _ _ _ _ s _ h => execQuotaSet_same h (Same.refl _ s) rfl rfl rfl rfl,
   fun _ _ s _ h => execDebugOn_same h (Same.refl _ s) rfl rfl rfl,
   fun _ _ s _ h => execLockSet_same h (Same.refl _ s) rfl rfl rfl,
   fun _ _ s _ h => execLockClear_same h (Same.refl _ s) rfl rfl rfl,
   fun _ _ _ _ _ _ s _ h => execAlmanacWrite_same h (Same.refl _ s) rfl rfl rfl,
   fun _ _ s _ h => execBypassForceClose_same h (Same.refl _ s) rfl rfl rfl rfl rfl,
   fun _ _ s _ h => execBypassForceRelease_same h (Same.refl _ s) rfl rfl rfl rfl,
   fun _ _ _ _ _ s _ h => ⟨execFwUpdateStart_same h (Same.refl _ s) rfl rfl rfl rfl rfl rfl rfl rfl rfl rfl,
     memSame_of_sameBytes (execFwUpdateStart_bytes h (SameBytes.refl s))⟩,
   fun _ s _ h => execHoldupWaitExpiry_same h (Same.refl _ s) rfl rfl rfl rfl rfl,
   fun _ _ s _ h => execFwConfirm_same h (Same.refl _ s) rfl,
   fun _ _ _ _ _ _ s _ h => ⟨execKeyAgree_same h (Same.refl _ s) rfl rfl rfl rfl rfl rfl rfl rfl rfl rfl,
     memSame_of_sameBytes (execKeyAgree_bytes h (SameBytes.refl s))⟩,
   fun _ _ s _ h => execKeyRetire_same h (Same.refl _ s) rfl rfl rfl,
   fun _ _ _ _ s _ h => ⟨execOwnerSet_same h (Same.refl _ s) rfl rfl rfl rfl rfl rfl rfl rfl rfl rfl,
     memSame_of_sameBytes (execOwnerSet_bytes h (SameBytes.refl s))⟩,
   fun _ _ _ _ _ s _ h => execQuote_same h (Same.refl _ s) rfl rfl rfl rfl rfl rfl rfl rfl rfl,
   fun _ _ _ s _ h => ⟨execImageLoad_same h (Same.refl _ s) rfl rfl rfl rfl rfl rfl rfl rfl rfl rfl rfl rfl,
     memSame_of_sameBytes (execImageLoad_bytes h (SameBytes.refl s))⟩,
   fun s _ h => execCommitPoint_same h (Same.refl _ s) rfl rfl rfl rfl rfl rfl rfl rfl rfl rfl rfl rfl rfl rfl rfl rfl rfl rfl rfl rfl,
   fun _ _ _ s _ h => execTwinTakeover_same h (Same.refl _ s) rfl rfl rfl rfl rfl rfl rfl rfl rfl rfl rfl rfl rfl,
   fun _ _ s _ h => ⟨execTnHandback_same h (Same.refl _ s) rfl rfl rfl rfl rfl rfl rfl rfl rfl rfl rfl,
     memSame_of_sameBytes (execTnHandback_bytes h (SameBytes.refl s))⟩⟩

/-! A descriptor that completes and changes nothing else. -/

/-- What completing a descriptor does, and that it touches the queue manager alone. -/
theorem complete_does (s : State) (h : Hdr) (u : UnitId) (st : Nat) :
    Ends s (complete s h u st) h u st ∧ Same { free := true, qm := true } s (complete s h u st) :=
  ⟨ends_complete h u st rfl, complete_same (Same.refl _ s) rfl rfl⟩

/-- A command that only completes. -/
theorem exec_completes {i : Instr} {s : State} {h : Hdr} {u : UnitId} {st : Nat} (hx : exec i s = .next (complete s h u st)) :
    ∃ t, exec i s = .next t ∧ Ends s t h u st ∧ Same { free := true, qm := true } s t := ⟨_, hx, complete_does s h u st⟩

/-! Critical commands (R299, R301). -/

/-- Settles O24: every critical command is R299's checks around a body of its own (exec_critical), and each check that fails only completes. -/
theorem criticalCommandsAreChecked : Obligations.CriticalCommandsAreChecked := by
  intro i h t s hi hs hfw hload
  obtain ⟨b, hx⟩ := exec_critical i h t s hi hfw hload
  exact ⟨fun hkey => exec_completes (hx.trans (congrArg Host.Outcome.next (critical_noKey b hs hkey))),
    fun slot k hkey htag => exec_completes (hx.trans (congrArg Host.Outcome.next (critical_badTag b hs hkey htag))),
    fun slot k hkey htag hold => exec_completes (hx.trans (congrArg Host.Outcome.next (critical_replay b hs hkey htag hold)))⟩

/-! NOP and FENCE (R295, R296). -/

/-- The header of a FENCE's record: SCOPE = 1. -/
def fenceHdr (h : Hdr) : Hdr := { h with system := true }

/-- R295 step 2: a FENCE that finds nothing outstanding completes, any other waits for what it finds. -/
def fenceFlush (s : State) (h : Hdr) (far remote : Bool) : State :=
  if (fenceTags s far remote).isEmpty then complete s (fenceHdr h) cmdUnit stDone
  else waitFor s { hdr := fenceHdr h, unit := cmdUnit, tags := fenceTags s far remote, status := 0 }

/-- A FENCE whose turn has come, or that stands, runs R295's steps. -/
theorem exec_fence {h : Hdr} {far remote panel : Bool} {s : State} (hs : canStart s h = true ∨ fenceStands s h = true) :
    exec (.fence h far remote panel) s = .next
      (if panel && (panelOfQueue s h.queue).isNone then complete s (fenceHdr h) cmdUnit stMalformed
      else if fenceWaits s h panel then markStarted s h
      else fenceFlush s h far remote) := by
  refine congrArg Host.Outcome.next (if_neg ?_)
  rcases hs with hs | hs <;> simp [hs]

/-- A FENCE with PANEL on a FIRMWARE queue. -/
theorem fence_noPanel {h : Hdr} {far remote panel : Bool} {s : State} (hs : canStart s h = true ∨ fenceStands s h = true)
    (hp : panel = true) (hq : panelOfQueue s h.queue = none) :
    exec (.fence h far remote panel) s = .next (complete s (fenceHdr h) cmdUnit stMalformed) :=
  (exec_fence hs).trans (congrArg Host.Outcome.next (if_pos (by simp [hp, hq])))

/-- A FENCE whose earlier descriptors have completed goes on to its flushes (R295 step 2). -/
theorem fence_flushes {h : Hdr} {far remote panel : Bool} {s : State} (hs : canStart s h = true ∨ fenceStands s h = true)
    (hq : panel = true → panelOfQueue s h.queue ≠ none) (hw : fenceWaits s h panel = false) :
    exec (.fence h far remote panel) s = .next (fenceFlush s h far remote) := by
  have hpanel : ¬(panel && (panelOfQueue s h.queue).isNone) = true := by simpa using hq
  rw [exec_fence hs, if_neg hpanel, hw]
  rfl

/-- Settles O13: NOP and the FENCEs that end complete, and a FENCE that flushes joins those that wait. -/
theorem nopAndFenceComplete : Obligations.NopAndFenceComplete := by
  refine ⟨fun h s hs => ?nop, fun h far remote panel s hs hp hq => ?noPanel, fun h far remote panel s hs hq hw htags => ?flushed,
    fun h far remote panel s hs hq hw htags => ?flushing⟩
  case nop => exact exec_completes (congrArg Host.Outcome.next (runDesc_start _ hs))
  case noPanel => exact ⟨_, fence_noPanel hs hp hq, (complete_does ..).1⟩
  case flushed => exact ⟨_, (fence_flushes hs hq hw).trans (congrArg Host.Outcome.next (if_pos (by simp [htags]))), (complete_does ..).1⟩
  case flushing =>
    refine ⟨_, _, (fence_flushes hs hq hw).trans (congrArg Host.Outcome.next (if_neg (by simp [htags]))),
      List.mem_append_right _ (List.mem_singleton_self _), rfl, rfl, rfl⟩

/-! Reading the head of a queue (R280, R290). -/

/-- A fetch or a re-read of an ACTIVE queue reads its head; b is the state in which a fetch has reserved its ring slot (R290). -/
theorem exec_readsHead {i : Instr} {s b : State} {q : Nat} {r : Rec} (hr : queueRec s q = some r) (hst : (queueOf s q).st = qActive)
    (hi : i = .descriptorFetch q ∧ canFetch s q r = true ∧ b = reserveSlot s (fld r 5) ∨
      i = .sealReread q ∧ (queueOf s q).retry = true ∧ b = s) :
    exec i s = .next (readHead b q r) := by
  rcases hi with ⟨rfl, hfetch, rfl⟩ | ⟨rfl, hretry, rfl⟩
  · refine congrArg Host.Outcome.next ?_
    rw [hr]
    exact if_pos hfetch
  · refine congrArg Host.Outcome.next ?_
    rw [hr]
    exact if_pos (by simp [hst, hretry])

/-- Settles O15: either command reads the head of the state b, which differs from s by a reserved ring slot at most (readHead_active). -/
theorem headOfQueueIsReadBySeal : Obligations.HeadOfQueueIsReadBySeal := by
  intro i q r s b w hr hst hi hlate hread
  refine ⟨_, exec_readsHead hr hst hi, ?_⟩
  rcases hi with ⟨-, -, rfl⟩ | ⟨-, -, rfl⟩
  · exact readHead_active _ _ w q r rfl rfl rfl rfl rfl rfl rfl hst hlate hread
  · exact readHead_active _ _ w q r rfl rfl rfl rfl rfl rfl rfl hst hlate hread

/-! INLINE_WRITE (R297). -/

/-- An INLINE_WRITE whose LEN and slots are in order, by where its range lies. -/
def inlinePlaced (s : State) (h : Hdr) (da len : Nat) (payload : List Byte) : State :=
  if inRegSpace da then
    if classOfQueue s h.queue != 0 || !regRangeOk da len then complete s h cmdUnit stMalformed
    else complete (writeRegs s .device da (padTo len payload) (len / 8)) h cmdUnit stDone
  else match checkOut s h [(da, len)] with
    | some st => complete s h cmdUnit st
    | none => finish s (writeMem s da (padTo len payload)) h cmdUnit stDone

/-- An INLINE_WRITE that may start makes R297's checks in their order. -/
theorem exec_inlineWrite {h : Hdr} {da len : Nat} {payload : List Byte} {s : State} (hs : canStart s h = true) :
    exec (.inlineWrite h da len payload) s = .next
      (if len = 0 || 192 < len || slotShort h (ceilDiv len 64) then complete s h cmdUnit stMalformed else inlinePlaced s h da len payload) :=
  congrArg Host.Outcome.next (runDesc_start _ hs)

/-- One whose LEN is 1 to 192 and whose slots hold its payload passes the first check. -/
theorem exec_inlineWrite_fits {h : Hdr} {da len : Nat} {payload : List Byte} {s : State} (hs : canStart s h = true)
    (hpos : 1 ≤ len) (hmax : len ≤ 192) (hext : ceilDiv len 64 ≤ h.ext) :
    exec (.inlineWrite h da len payload) s = .next (inlinePlaced s h da len payload) := by
  refine (exec_inlineWrite hs).trans (congrArg Host.Outcome.next (if_neg ?_))
  simp [slotShort]
  omega

/-- Into memory, where the checks of R21 and R248 accept the range. -/
theorem exec_inlineWrite_mem {h : Hdr} {da len : Nat} {payload : List Byte} {s : State} (hs : canStart s h = true)
    (hpos : 1 ≤ len) (hmax : len ≤ 192) (hext : ceilDiv len 64 ≤ h.ext) (hlen : payload.length = len) (hreg : inRegSpace da = false)
    (hok : checkOut s h [(da, len)] = none) :
    exec (.inlineWrite h da len payload) s = .next (finish s (writeMem s da payload) h cmdUnit stDone) := by
  rw [exec_inlineWrite_fits hs hpos hmax hext, inlinePlaced, hreg, hok, padTo_of_length hlen]
  rfl

/-- Into memory, where a check refuses the range. -/
theorem exec_inlineWrite_refused {h : Hdr} {da len st : Nat} {payload : List Byte} {s : State} (hs : canStart s h = true)
    (hpos : 1 ≤ len) (hmax : len ≤ 192) (hext : ceilDiv len 64 ≤ h.ext) (hreg : inRegSpace da = false)
    (hbad : checkOut s h [(da, len)] = some st) :
    exec (.inlineWrite h da len payload) s = .next (complete s h cmdUnit st) := by
  rw [exec_inlineWrite_fits hs hpos hmax hext, inlinePlaced, hreg, hbad]
  rfl

/-- From a FIRMWARE queue into an aligned range of registers. -/
theorem exec_inlineWrite_regs {h : Hdr} {da len : Nat} {payload : List Byte} {s : State} (hs : canStart s h = true)
    (hpos : 1 ≤ len) (hmax : len ≤ 192) (hext : ceilDiv len 64 ≤ h.ext) (hreg : inRegSpace da = true)
    (hclass : classOfQueue s h.queue = 0) (hrange : regRangeOk da len = true) :
    exec (.inlineWrite h da len payload) s = .next (complete (writeRegs s .device da (padTo len payload) (len / 8)) h cmdUnit stDone) := by
  rw [exec_inlineWrite_fits hs hpos hmax hext, inlinePlaced, hreg, hclass, hrange]
  rfl

/-- R297's list of what is MALFORMED. -/
theorem exec_inlineWrite_malformed {h : Hdr} {da len : Nat} {payload : List Byte} {s : State} (hs : canStart s h = true)
    (hbad : len = 0 ∨ 192 < len ∨ h.ext < ceilDiv len 64 ∨
      (inRegSpace da = true ∧ (classOfQueue s h.queue ≠ 0 ∨ regRangeOk da len = false))) :
    exec (.inlineWrite h da len payload) s = .next (complete s h cmdUnit stMalformed) := by
  by_cases hfits : 1 ≤ len ∧ len ≤ 192 ∧ ceilDiv len 64 ≤ h.ext
  · obtain ⟨hpos, hmax, hext⟩ := hfits
    obtain ⟨hreg, hplace⟩ := ((hbad.resolve_left (by omega)).resolve_left (by omega)).resolve_left (by omega)
    rw [exec_inlineWrite_fits hs hpos hmax hext, inlinePlaced, if_pos hreg, if_pos (by simpa using hplace)]
  · refine (exec_inlineWrite hs).trans (congrArg Host.Outcome.next (if_pos ?_))
    simp [slotShort]
    omega

/-- A write into Far while the port's link is up joins the port's posted writes. -/
theorem writeMem_far {s : State} {a : Nat} {bs : List Byte} (hne : bs ≠ []) (hlo : farBase ≤ a) (hhi : a < farTop)
    (hup : (lookD s.pkg.far (farPortOf a) {}).link ≠ 0) :
    writeMem s a bs = s.onMem fun m =>
      { m with posted := m.posted ++ [{ port := farPortOf a, tag := postedTag s, da := a, data := bs }] } := by
  have hfar : (decide (farBase ≤ a) && decide (a < farTop)) = true := by simp [hlo, hhi]
  have hemp : bs.isEmpty = false := by simp [hne]
  rw [writeMem, hemp, if_neg Bool.false_ne_true, if_pos hfar]
  exact if_neg hup

/-- Register space lies above Far. -/
theorem inRegSpace_far {da : Nat} (hhi : da < farTop) : inRegSpace da = false := by
  simp only [inRegSpace, regBase, farTop] at hhi ⊢
  simp
  omega

/-- Settles O14: each outcome of R297's checks. -/
theorem inlineWriteStoresItsPayload : Obligations.InlineWriteStoresItsPayload := by
  intro h da len payload s hs
  refine ⟨fun hm hpos hmax hext hlen hreg hfar hok => ?stored, fun hpos hmax hext hlen hlo hhi hup hok => ?posted,
    fun hpos hmax hext hreg hclass hrange => ?regs, fun hbad => ?malformed, fun st hpos hmax hext hreg hbad => ?refused⟩
  case stored =>
    have hne : payload ≠ [] := List.ne_nil_of_length_pos (by omega)
    have hstored := stored_writeMem hm hne hfar
    have hqm : (writeMem s da payload).qm = s.qm := by rw [writeMem_store hne hfar]; exact storeMem_qm ..
    refine ⟨_, exec_inlineWrite_mem hs hpos hmax hext hlen hreg hok, ?_, stored_congr hstored (finish_mem ..)⟩
    rw [finish_posted h cmdUnit stDone hstored.posted]
    exact ends_complete h cmdUnit stDone hqm
  case posted =>
    have hwrite := writeMem_far (s := s) (List.ne_nil_of_length_pos (by omega : 0 < payload.length)) hlo hhi hup
    refine ⟨_, exec_inlineWrite_mem hs hpos hmax hext hlen (inRegSpace_far hhi) hok, ?_, ?_, fun hlocal => ?_⟩
    · rw [finish_mem, hwrite]; rfl
    · rw [finish_mem, hwrite]; rfl
    · rw [finish_local cmdUnit stDone hlocal, hwrite]
      exact ends_complete h cmdUnit stDone rfl
  case regs => exact ⟨_, _, exec_inlineWrite_regs hs hpos hmax hext hreg hclass hrange, Nat.mod_lt _ (by decide), rfl, rfl⟩
  case malformed => exact exec_completes (exec_inlineWrite_malformed hs hbad)
  case refused => exact exec_completes (exec_inlineWrite_refused hs hpos hmax hext hreg hbad)

/-! DOORBELL, RESUME and RHEAD (R279, R281, R289). -/

/-- What setting one queue does: no other queue, and no other part of the state, changes. -/
theorem setQueue_is (s : State) (q : Nat) (f : Queue → Queue) : queueOf (setQueue s q f) q = f (queueOf s q) ∧
    (∀ p, p ≠ q → queueOf (setQueue s q f) p = queueOf s p) ∧ Same { qm := true } s (setQueue s q f) :=
  ⟨queueOf_setQueue s q f, fun p => queueOf_setQueue_ne s q p f, setQueue_same (Same.refl _ s) rfl⟩

/-- The position that a doorbell names: index 0 stands for the next lap's first entry (R279). -/
def bellPos (v : Nat) : Nat := if bits v 15 0 = 0 then nextGen (bits v 31 16) else bits v 31 16

/-- How far ahead of a queue's head a position lies. -/
def aheadOf (r : Rec) (u : Queue) (idx gen : Nat) : Nat :=
  posDiff (queueSize r) (posNum (queueSize r) u.head u.headGen) (posNum (queueSize r) idx gen)

/-- R279's reasons to refuse a doorbell of a queue. -/
def bellRefused (r : Rec) (u : Queue) (v : Nat) : Prop :=
  u.st = qDisabled ∨ queueSize r ≤ bits v 15 0 ∨ bits v 31 16 = 0 ∨ queueSize r < aheadOf r u (bits v 15 0) (bellPos v) ∨
  aheadOf r u (bits v 15 0) (bellPos v) < aheadOf r u u.tail u.tailGen

theorem ringDoorbell_undefined {s : State} {q : Nat} (v : Nat) (hr : queueRec s q = none) : ringDoorbell s q v = badDoorbell s := by
  unfold ringDoorbell
  rw [hr]

theorem ringDoorbell_refused {s : State} {q v : Nat} {r : Rec} (hr : queueRec s q = some r) (hbad : bellRefused r (queueOf s q) v) :
    ringDoorbell s q v = badDoorbell s := by
  unfold ringDoorbell
  rw [hr]
  refine if_pos ?_
  simpa only [bellRefused, aheadOf, bellPos, Bool.or_eq_true, decide_eq_true_eq, or_assoc] using hbad

theorem ringDoorbell_accepted {s : State} {q v : Nat} {r : Rec} (hr : queueRec s q = some r) (hok : ¬bellRefused r (queueOf s q) v) :
    ringDoorbell s q v =
      if aheadOf r (queueOf s q) (bits v 15 0) (bellPos v) = aheadOf r (queueOf s q) (queueOf s q).tail (queueOf s q).tailGen then s
      else setQueue s q fun u => { u with tail := bits v 15 0, tailGen := bellPos v, shownGen := bits v 31 16 } := by
  unfold ringDoorbell
  rw [hr]
  refine if_neg ?_
  simpa only [bellRefused, aheadOf, bellPos, Bool.or_eq_true, decide_eq_true_eq, or_assoc] using hok

/-- An accepted doorbell moves its queue's tail alone. -/
theorem ringDoorbell_moves {s : State} {q v : Nat} {r : Rec} (hr : queueRec s q = some r) (hok : ¬bellRefused r (queueOf s q) v) :
    queueOf (ringDoorbell s q v) q =
      (if aheadOf r (queueOf s q) (bits v 15 0) (bellPos v) = aheadOf r (queueOf s q) (queueOf s q).tail (queueOf s q).tailGen then queueOf s q
      else { queueOf s q with tail := bits v 15 0, tailGen := bellPos v, shownGen := bits v 31 16 }) ∧
    (∀ p, p ≠ q → queueOf (ringDoorbell s q v) p = queueOf s p) ∧ Same { qm := true } s (ringDoorbell s q v) := by
  rw [ringDoorbell_accepted hr hok]
  split
  · exact ⟨rfl, fun _ _ => rfl, Same.refl _ s⟩
  · exact setQueue_is s q _

theorem writeQctl_resumes {s : State} {v : Nat} (hv : bit v 0 = true) (hst : (queueOf s (regGet s 0 0x20000)).st = qHalted) :
    writeQctl s v = setQueue s (regGet s 0 0x20000) fun u => { u with st := qActive, rereads := 0, retry := false, resume := true } :=
  if_pos (by simp [hv, hst])

theorem writeQctl_idle {s : State} (v : Nat) (hst : (queueOf s (regGet s 0 0x20000)).st ≠ qHalted) : writeQctl s v = s :=
  if_neg (by simp [hst])

/-- How far a write of CM.RHEAD moves a ring's head. -/
def rheadGo (r : Rec) (g : Ring) (v : Nat) : Nat := (bits v 15 0 + ringSize r - g.head % ringSize r) % ringSize r

theorem writeRhead_cases {s : State} {v : Nat} {r : Rec} (hr : ringRec s (selRing s) = some r) :
    writeRhead s v = if ringSize r ≤ bits v 15 0 || (ringOf s (selRing s)).tail < (ringOf s (selRing s)).head + rheadGo r (ringOf s (selRing s)) v
      then bump s 0 0x20050 else setRing s (selRing s) fun g => { g with head := g.head + rheadGo r (ringOf s (selRing s)) v } := by
  unfold writeRhead
  dsimp only
  rw [hr]
  rfl

/-- A write of CM.RHEAD up to CM.RTAIL moves the head of its ring alone. -/
theorem writeRhead_moves {s : State} {v : Nat} {r : Rec} (hr : ringRec s (selRing s) = some r) (hh : bits v 15 0 < ringSize r)
    (hgo : (ringOf s (selRing s)).head + rheadGo r (ringOf s (selRing s)) v ≤ (ringOf s (selRing s)).tail) :
    writeRhead s v = setRing s (selRing s) fun g => { g with head := g.head + rheadGo r (ringOf s (selRing s)) v } :=
  (writeRhead_cases hr).trans (if_neg (by simp; omega))

theorem writeRhead_refused {s : State} {v : Nat} {r : Rec} (hr : ringRec s (selRing s) = some r)
    (hbad : ringSize r ≤ bits v 15 0 ∨ (ringOf s (selRing s)).tail < (ringOf s (selRing s)).head + rheadGo r (ringOf s (selRing s)) v) :
    writeRhead s v = bump s 0 0x20050 :=
  (writeRhead_cases hr).trans (if_pos (by simpa using hbad))

/-- Settles O17: each of the three writes, taken and refused. -/
theorem doorbellResumeRhead : Obligations.DoorbellResumeRhead := by
  refine ⟨fun q v s r hr => ?doorbell, fun q v s hr => ?undefined, fun v s hv hst => ?resume, fun v s hst => ?active, fun v s r hr => ?rhead⟩
  case doorbell =>
    refine ⟨fun h1 h2 h3 h4 h5 => ⟨_, rfl, ringDoorbell_moves (v := v.toNat) hr ?_⟩, fun hbad => ⟨_, rfl, ?_⟩⟩
    · rintro (h | h | h | h | h)
      · exact h1 h
      · exact absurd h2 (Nat.not_lt.mpr h)
      · exact h3 h
      · exact absurd h4 (Nat.not_le.mpr h)
      · exact absurd h5 (Nat.not_le.mpr h)
    · rw [ringDoorbell_refused (v := v.toNat) hr hbad]
      exact badDoorbell_is s
  case undefined =>
    refine ⟨_, rfl, ?_⟩
    rw [ringDoorbell_undefined v.toNat hr]
    exact badDoorbell_is s
  case resume => exact ⟨_, congrArg Host.Outcome.next (writeQctl_resumes hv hst), setQueue_is s _ _⟩
  case active => exact congrArg Host.Outcome.next (writeQctl_idle v.toNat hst)
  case rhead =>
    refine ⟨fun hh hgo => ?_, fun hbad => ?_⟩
    · exact ⟨_, congrArg Host.Outcome.next (writeRhead_moves hr hh hgo), ringOf_setRing s _ _, fun m => ringOf_setRing_ne s _ m _,
        setRing_same (Same.refl _ s) rfl⟩
    · exact ⟨_, congrArg Host.Outcome.next (writeRhead_refused hr hbad), (bump_frame s 0 0x20050 0).qm rfl, rfl⟩

/-! POST (R344, R345, R519). -/

/-- A program posts to the queues of its panel and class alone (R345). -/
def mayPost (pr qr : Rec) : Bool :=
  if fld pr 2 = 1 then fld qr 3 = 1 && fld qr 2 = 1 && fld qr 1 = fld pr 1 else fld qr 3 = 0

theorem mayPost_iff (pr qr : Rec) :
    mayPost pr qr = true ↔ if fld pr 2 = 1 then fld qr 3 = 1 ∧ fld qr 2 = 1 ∧ fld qr 1 = fld pr 1 else fld qr 3 = 0 := by
  unfold mayPost
  split <;> simp [and_assoc]

/-- A queue without a free entry. -/
abbrev queueFull (r : Rec) (u : Queue) : Prop :=
  posDiff (queueSize r) (posNum (queueSize r) u.head u.headGen) (posNum (queueSize r) u.tail u.tailGen) = queueSize r

/-- A queue whose tail passes the entry at the tail of u. -/
def tailPast (r : Rec) (u x : Queue) : Queue :=
  { x with tail := (nextPos (queueSize r) (u.tail, u.tailGen)).1, tailGen := (nextPos (queueSize r) (u.tail, u.tailGen)).2, shownGen := x.tailGen }

/-- The state c once the bytes bs stand in the entry at the tail of queue q, whose state was u, and program p has moved on. -/
def entryPosted (c : State) (p q ctr : Nat) (r : Rec) (u : Queue) (bs : List Byte) : State :=
  setProg ((setQueue (writeMem c (entryDa r u.tail) bs) q (tailPast r u)).onSeq fun m =>
      { m with posted := m.posted ++ [{ prog := p, queue := q, index := u.tail, gen := u.tailGen, ctr := ctr, step := runStep c }] })
    p fun g => { g with pc := g.pc + 1, started := true }

/-- POST by a program of the image to a queue of the image, of a template that is there. -/
theorem postEntry_eq {s : State} {p q slot : Nat} {pr qr : Rec} {t0 : List Byte} (r ctr : Nat) (patch arm : Bool) (hpr : progRec s p = some pr)
    (hqr : queueRec s q = some qr) (ht : template s p slot = some t0) :
    postEntry s p r patch arm q slot ctr =
      if !mayPost pr qr then endMalformed s p
      else if queueFull qr (queueOf s q) then s
      else if (checkRead s (templateDa p slot) 256).1 then endMalformed (checkRead s (templateDa p slot) 256).2 p
      else entryPosted (checkRead s (templateDa p slot) 256).2 p q ctr qr (queueOf s q)
        (postedBytes (checkRead s (templateDa p slot) 256).2 p r patch arm t0 (queueOf s q).tailGen) := by
  unfold postEntry
  rw [hpr, hqr, ht]
  rfl

/-- POST to no queue of the image, or of an empty slot. -/
theorem postEntry_missing {s : State} {p q slot : Nat} {pr : Rec} (r ctr : Nat) (patch arm : Bool) (hpr : progRec s p = some pr)
    (hmissing : queueRec s q = none ∨ template s p slot = none) : postEntry s p r patch arm q slot ctr = endMalformed s p := by
  unfold postEntry
  rw [hpr]
  rcases hmissing with hqr | ht
  · rw [hqr]
  · rw [ht]
    cases queueRec s q <;> rfl

/-- An entry never is empty: it ends with its SEAL. -/
theorem postedBytes_ne (s : State) (p r : Nat) (patch arm : Bool) (t : List Byte) (gen : Nat) : postedBytes s p r patch arm t gen ≠ [] := by
  unfold postedBytes
  refine List.append_ne_nil_of_left_ne_nil (List.append_ne_nil_of_right_ne_nil _ ?_) _
  exact List.ne_nil_of_length_pos (by simp [leBytes_length])

/-- What a POST writes depends on the program and on the Datum requests alone. -/
theorem postedBytes_congr {s c : State} (hseq : c.seq = s.seq) (hck : c.ck = s.ck) (p r : Nat) (patch arm : Bool) (t : List Byte) (gen : Nat) :
    postedBytes c p r patch arm t gen = postedBytes s p r patch arm t gen := by
  unfold postedBytes nextDatum
  rw [progOf_congr hseq, hck]

/-- What a write of memory may change. -/
theorem writeMem_frame (s : State) (a : Nat) (bs : List Byte) :
    Same { mem := true, regs := true, mu := true, sv := true, i3c := true, sounds := true, seqNo := true } s (writeMem s a bs) :=
  writeMem_same (Same.refl _ s) rfl rfl rfl rfl rfl rfl rfl

/-- The entry posted after a read that lost nothing: the bytes, the tail, the entry remembered for its counter, and the program's next word. -/
theorem entryPosted_is {s c : State} {p q : Nat} {qr : Rec} {bs : List Byte} (ctr : Nat)
    (hsame : Same { regs := true, mu := true, sounds := true, seqNo := true } s c) (hm : MemOk s) (hne : bs ≠ [])
    (hfar : entryDa qr (queueOf s q).tail < farBase) :
    let u := queueOf s q
    let t := entryPosted c p q ctr qr u bs
    Stored s t (entryDa qr u.tail) bs ∧
    ((queueOf t q).tail, (queueOf t q).tailGen) = nextPos (queueSize qr) (u.tail, u.tailGen) ∧ (queueOf t q).head = u.head ∧
    t.seq.posted = s.seq.posted ++ [{ prog := p, queue := q, index := u.tail, gen := u.tailGen, ctr := ctr, step := runStep s }] ∧
    progOf t p = { progOf s p with pc := (progOf s p).pc + 1, started := true } := by
  intro u t
  have hstored := stored_writeMem (memOk_of_arrived (hsame.mem rfl) hm) hne hfar
  have hframe := writeMem_frame c (entryDa qr u.tail) bs
  have hqm := (hframe.qm rfl).trans (hsame.qm rfl)
  have hseq := (hframe.seq rfl).trans (hsame.seq rfl)
  have hu : queueOf (writeMem c (entryDa qr u.tail) bs) q = u := congrArg (fun m : Qm => lookD m.queues q {}) hqm
  have hqueue : queueOf t q = tailPast qr u u :=
    (queueOf_setQueue (writeMem c (entryDa qr u.tail) bs) q (tailPast qr u)).trans (congrArg (tailPast qr u) hu)
  have hstep : runStep c = runStep s := by unfold runStep; rw [hsame.seq rfl]
  refine ⟨stored_of_arrived (hsame.mem rfl) (stored_congr hstored rfl), by rw [hqueue]; rfl, by rw [hqueue]; rfl, ?_, ?_⟩
  · rw [← hstep, ← hseq]; rfl
  · rw [← progOf_congr hseq p]
    exact progOf_setProg _ p _

/-- A POST that may post, to a queue with a free entry, of a template that is read without a loss. -/
theorem postEntry_posts {s : State} {p q slot : Nat} {pr qr : Rec} {t0 : List Byte} (r ctr : Nat) (patch arm : Bool) (hpr : progRec s p = some pr)
    (hqr : queueRec s q = some qr) (ht : template s p slot = some t0) (hmay : mayPost pr qr = true) (hfree : ¬queueFull qr (queueOf s q))
    (hread : (checkRead s (templateDa p slot) 256).1 = false) :
    postEntry s p r patch arm q slot ctr = entryPosted (checkRead s (templateDa p slot) 256).2 p q ctr qr (queueOf s q)
      (postedBytes s p r patch arm t0 (queueOf s q).tailGen) := by
  have hsame := checkRead_clean (Prod.ext hread rfl : checkRead s (templateDa p slot) 256 = (false, _))
  rw [postEntry_eq r ctr patch arm hpr hqr ht, hmay, if_neg (by decide), if_neg hfree, if_neg (by simp [hread]),
    postedBytes_congr (hsame.seq rfl) (hsame.ck rfl)]

/-- One whose template is lost. -/
theorem postEntry_lost {s : State} {p q slot : Nat} {pr qr : Rec} {t0 : List Byte} (r ctr : Nat) (patch arm : Bool) (hpr : progRec s p = some pr)
    (hqr : queueRec s q = some qr) (ht : template s p slot = some t0) (hmay : mayPost pr qr = true) (hfree : ¬queueFull qr (queueOf s q))
    (hread : (checkRead s (templateDa p slot) 256).1 = true) :
    postEntry s p r patch arm q slot ctr = endMalformed (checkRead s (templateDa p slot) 256).2 p := by
  rw [postEntry_eq r ctr patch arm hpr hqr ht, hmay, if_neg (by decide), if_neg hfree, if_pos hread]

/-- Settles O19: postEntry's tests in their order, for the program that stands at the POST. -/
theorem postWritesTheTemplate : Obligations.PostWritesTheTemplate := by
  intro p r patch arm q slot ctr s pr hstands hpr
  have hrun : ∀ {t : State}, postEntry s p r patch arm q slot ctr = t → exec (.post p r patch arm q slot ctr) s = .next t :=
    fun h => (next_atInstr hstands).trans (congrArg Host.Outcome.next h)
  refine ⟨fun qr t0 hqr ht => ?_, fun hmissing => ⟨_, hrun (postEntry_missing r ctr patch arm hpr hmissing), endMalformed_is s p⟩⟩
  intro own u full
  have hown : mayPost pr qr = true ↔ own := mayPost_iff pr qr
  have heq := postEntry_eq r ctr patch arm hpr hqr ht
  refine ⟨fun ho hfree hm hfar hread => ?posts, fun ho hfree hread => ?lost, fun ho hfull => ?waits, fun ho => ?foreign⟩
  case posts =>
    exact ⟨_, hrun (postEntry_posts r ctr patch arm hpr hqr ht (hown.mpr ho) hfree hread),
      entryPosted_is ctr (checkRead_clean (Prod.ext hread rfl)) hm (postedBytes_ne s p r patch arm t0 _) hfar⟩
  case lost =>
    have hframe := checkRead_frame s (templateDa p slot) 256
    obtain ⟨hsame, hmal⟩ := endMalformed_is (checkRead s (templateDa p slot) 256).2 p
    exact ⟨_, hrun (postEntry_lost r ctr patch arm hpr hqr ht (hown.mpr ho) hfree hread), (hsame.qm rfl).trans (hframe.qm rfl),
      congrArg (·.posted) (hframe.seq rfl), hmal⟩
  case waits => exact hrun (heq.trans (by rw [hown.mpr ho, if_neg (by decide), if_pos hfull]))
  case foreign => exact ⟨_, hrun (heq.trans (if_pos (by simpa using fun h => ho (hown.mp h)))), endMalformed_is s p⟩

/-! The host link (R358, R497). -/

/-- The state in which the host link's reset is counted and what the link carried is cleared. -/
def hostCleared (s : State) : State := clearHost (bump s 0 0x50018)

/-- The registers after the reset depend on those before it alone. -/
theorem hostCleared_regs_congr {a b : State} (h : a.regs = b.regs) : (hostCleared a).regs = (hostCleared b).regs := by
  rw [hostCleared, hostCleared, clear_regs, clear_regs, bump_regs_congr h]

/-- What training changes: the width of the link. -/
theorem trainHost_is (s : State) : (trainHost s).regs = s.regs ∧ (trainHost s).host = { s.host with link := (trainHost s).host.link } ∧
    (s.host.link ≤ 2 → (trainHost s).host.link ≤ 2) := by
  unfold trainHost
  split
  · exact ⟨rfl, rfl, id⟩
  · refine ⟨rfl, rfl, fun _ => ?_⟩
    show 1 + fresh s % 2 ≤ 2
    omega

/-- A link that is down, not held in reset, trains once HL_PERST_N is high. -/
theorem trainHost_trains {s : State} (hp : s.host.presented = true) (hhigh : s.host.perstN = true) (hdown : s.host.link = 0) :
    (trainHost s).host.link = 1 ∨ (trainHost s).host.link = 2 := by
  have hgo : ¬(hostHeld s || !s.host.perstN || s.host.link != 0) = true := by simp [hostHeld, hp, hhigh, hdown]
  have hlink : (trainHost s).host.link = 1 + fresh s % 2 := by rw [trainHost, if_neg hgo]; rfl
  omega

/-- A link that is up has its reset, and trains at once or later. -/
theorem exec_hostLinkReset {s : State} (hup : s.host.link ≠ 0) : exec .hostLinkReset s = .next
    (if fresh (hostCleared s) % 2 = 0 then (hostCleared s).took else trainHost (hostCleared s).took) :=
  congrArg Host.Outcome.next (if_neg hup)

/-- After a reset of the host link nothing of what it carried is left, and its width is at most 2. -/
theorem hostLinkReset_is {s : State} (hup : s.host.link ≠ 0) : ∃ t, exec .hostLinkReset s = .next t ∧
    Same { free := true, host := true, regs := true, sounds := true, seqNo := true } s t ∧
    t.host.link ≤ 2 ∧ t.host.hdm = false ∧ t.host.busy = false ∧ t.host.mboxIdx = none ∧ t.regs = (hostCleared s).regs := by
  have hx := exec_hostLinkReset hup
  refine ⟨_, hx, execHostLinkReset_same hx (Same.refl _ s) rfl rfl rfl rfl rfl, ?_⟩
  split
  · exact ⟨Nat.zero_le 2, rfl, rfl, rfl, rfl⟩
  · obtain ⟨hregs, hhost, hwidth⟩ := trainHost_is (hostCleared s).took
    exact ⟨hwidth (Nat.zero_le 2), by rw [hhost]; rfl, by rw [hhost]; rfl, by rw [hhost]; rfl, hregs⟩

/-- HL_PERST_N's level taken. -/
def perstTaken (s : State) (high : Bool) : State := s.onHost fun h => { h with perstN := high }

theorem exec_hlPerstN (high : Bool) (s : State) : exec (.hlPerstN high) s = .next
    (if hostHeld (perstTaken s high) then perstTaken s high
    else if s.host.perstN && !high then hostCleared (perstTaken s high)
    else trainHost (perstTaken s high)) := rfl

/-- HL_PERST_N by whether firmware holds the link in reset, and whether it falls (R497). -/
theorem hlPerstN_is (high : Bool) (s : State) : ∃ t, exec (.hlPerstN high) s = .next t ∧ t.host.perstN = high ∧
    (s.host.presented = false → Same { host := true } s t ∧ t.host = { s.host with perstN := high }) ∧
    (s.host.presented = true → s.host.perstN = true → high = false → t.host.link = 0 ∧ t.host.hdm = false ∧ t.host.busy = false ∧
      t.regs = (clearHost (bump s 0 0x50018)).regs) ∧
    (s.host.presented = true → s.host.link = 0 → high = true → t.host.link = 1 ∨ t.host.link = 2) := by
  refine ⟨_, exec_hlPerstN high s, ?_⟩
  have hheld : hostHeld (perstTaken s high) = !s.host.presented := rfl
  have hbump : (bump (perstTaken s high) 0 0x50018).host = (perstTaken s high).host := (bump_frame _ _ _ _).host rfl
  cases hp : s.host.presented with
  | false =>
    rw [hheld, hp, if_pos (by decide)]
    exact ⟨rfl, fun _ => ⟨State.onHost_same (Same.refl _ s) rfl, rfl⟩, nofun, nofun⟩
  | true =>
    rw [hheld, hp, if_neg (by decide)]
    by_cases hfell : (s.host.perstN && !high) = true
    · rw [if_pos hfell]
      obtain ⟨-, rfl⟩ : s.host.perstN = true ∧ high = false := by simpa using hfell
      exact ⟨congrArg HostLink.perstN hbump, nofun, fun _ _ _ => ⟨rfl, rfl, rfl, hostCleared_regs_congr rfl⟩, nofun⟩
    · rw [if_neg hfell]
      obtain ⟨-, hhost, -⟩ := trainHost_is (perstTaken s high)
      refine ⟨by rw [hhost]; rfl, nofun, fun _ hwas hlow => absurd (by simp [hwas, hlow]) hfell, fun _ hdown hhigh => ?_⟩
      exact trainHost_trains (s := perstTaken s high) hp hhigh hdown

/-! Far ports (R293, R356, R357). -/

/-- The completion of a posted write, which waits while an earlier one of its port meets it. -/
theorem exec_cxlMemCompletion {port tag : Nat} {s : State} {p : Posted} (hp : findPosted s port tag = some p) :
    exec (.cxlMemCompletion port tag) s = .next
      (if (earlierPosted s p).any fun x => x.port == port && meets (x.da, x.data.length) (p.da, p.data.length) then s
      else answered (storeMem (dropPosted s p) p.da p.data) (postWait tag) stDone false) := by
  refine congrArg Host.Outcome.next ?_
  rw [hp]

/-- A completed posted write leaves its queue, its bytes stored. -/
theorem cxlMemCompletion_is {port tag : Nat} {s : State} {p : Posted} (hp : findPosted s port tag = some p) :
    if (earlierPosted s p).any fun x => x.port == port && meets (x.da, x.data.length) (p.da, p.data.length) then
      exec (.cxlMemCompletion port tag) s = .next s
    else ∃ t, exec (.cxlMemCompletion port tag) s = .next t ∧ t.mem.posted = s.mem.posted.erase p ∧
      (MemOk s → ∀ x, cellByte t.mem x = if p.da ≤ x ∧ x < p.da + p.data.length then p.data.getD (x - p.da) 0 else cellByte s.mem x) := by
  rw [exec_cxlMemCompletion hp]
  split
  · rfl
  · refine ⟨_, rfl, ?_, fun hm x => ?_⟩
    · rw [(answered_gz ..).2]; exact storeMem_posted (dropPosted s p) p.da p.data
    · rw [(answered_gz ..).2]; exact cellByte_storeMem (dropPosted s p) p.da x p.data hm

theorem cxlMemCompletion_none {port tag : Nat} {s : State} (hp : findPosted s port tag = none) :
    exec (.cxlMemCompletion port tag) s = .next s := by
  refine congrArg Host.Outcome.next ?_
  rw [hp]

/-- A far port that is not there, or whose link is down. -/
def farDown (s : State) (port : Nat) : Bool := 4 ≤ port || (lookD s.pkg.far port {}).link = 0

theorem farDown_iff (s : State) (port : Nat) : farDown s port = true ↔ 4 ≤ port ∨ (lookD s.pkg.far port {}).link = 0 := by simp [farDown]

/-- A timeout of a far port counted, with its sticky bit (R357). -/
def timeoutCounted (s : State) (port : Nat) : State := setSticky (bump s 0 (fpReg port + 0x10)) (srcFar port)

theorem timeoutCounted_is (s : State) (port : Nat) : (timeoutCounted s port).mem = s.mem ∧
    (timeoutCounted s port).regs = (bump s 0 (fpReg port + 0x10)).regs ∧ srcFar port ∈ (timeoutCounted s port).sv.sticky :=
  ⟨((sticky_frame _ _).mem rfl).trans ((bump_frame s 0 _ 0).mem rfl), setSticky_regs _ _, sticky_mem _ _⟩

theorem exec_farCplTimeout (port tag : Nat) (s : State) : exec (.farCplTimeout port tag) s = .next
    (if farDown s port then s
    else match findPosted (timeoutCounted s port) port tag with
      | some p => losePosted (timeoutCounted s port) p
      | none => (timeoutCounted s port).onMem fun m => { m with farLate := ins m.farLate port }) := rfl

/-- A timeout loses the posted write it names, or else marks the port's read late. -/
theorem farCplTimeout_is {port : Nat} (tag : Nat) {s : State} (hup : farDown s port = false) : ∃ t, exec (.farCplTimeout port tag) s = .next t ∧
    srcFar port ∈ t.sv.sticky ∧ t.mem.cells = s.mem.cells ∧
    match findPosted s port tag with
    | some p => t.mem.posted = s.mem.posted.erase p ∧ t.regs = (bump (bump s 0 (fpReg port + 0x10)) 0 (fpReg port + 0x18)).regs
    | none => t.mem.posted = s.mem.posted ∧ port ∈ t.mem.farLate ∧ t.regs = (bump s 0 (fpReg port + 0x10)).regs := by
  obtain ⟨hmem, hregs, hsticky⟩ := timeoutCounted_is s port
  refine ⟨_, exec_farCplTimeout port tag s, ?_⟩
  have hfind : findPosted (timeoutCounted s port) port tag = findPosted s port tag := by unfold findPosted; rw [hmem]
  rw [hup, if_neg Bool.false_ne_true, hfind]
  cases hp : findPosted s port tag with
  | none => exact ⟨hsticky, congrArg (·.cells) hmem, congrArg (·.posted) hmem, mem_ins_self _ _, hregs⟩
  | some p =>
    obtain ⟨lmem, lregs, -, lkeeps, -⟩ := lose_mem (timeoutCounted s port) p
    have hport : p.port = port := by
      have hfound := List.find?_some hp
      simp only [Bool.and_eq_true, beq_iff_eq] at hfound
      exact hfound.1
    rw [hport] at lregs
    refine ⟨lkeeps _ hsticky, ?_, ?_, lregs.trans (bump_regs_congr hregs)⟩
    · rw [lmem, hmem]
    · rw [lmem, hmem]

/-- Setting a far port changes that port alone, and of the package no more than its Legend. -/
theorem setFar_is (s : State) (p : Nat) (f : FarPort → FarPort) : (lookD (setFar s p f).pkg.far p {}) = f (lookD s.pkg.far p {}) ∧
    (∀ q, q ≠ p → lookD (setFar s p f).pkg.far q {} = lookD s.pkg.far q {}) ∧ Same { pkg := true } s (setFar s p f) := by
  rw [setFar_far]
  exact ⟨lookD_put_self .., fun q hq => lookD_put_ne _ _ _ _ _ hq, setFar_same (Same.refl _ s) rfl⟩

/-- A far port whose link is lost keeps its capacity. -/
def portLost (s : State) (port : Nat) : State := setFar s port fun f => { f with link := 0, rate := 0 }

theorem exec_farLinkLoss (port : Nat) (s : State) : exec (.farLinkLoss port) s = .next
    (if farDown s port then s else ((portLost s port).mem.posted.filter fun p => p.port == port).foldl losePosted (portLost s port)) := rfl

/-- A link loss loses every posted write of its port. -/
theorem farLinkLoss_is {port : Nat} {s : State} (hup : farDown s port = false) : ∃ t, exec (.farLinkLoss port) s = .next t ∧
    t.mem.cells = s.mem.cells ∧ lookD t.pkg.far port {} = { lookD s.pkg.far port {} with link := 0, rate := 0 } ∧
    (∀ q, q ≠ port → lookD t.pkg.far q {} = lookD s.pkg.far q {}) ∧ t.mem.posted = s.mem.posted.filter fun x => x.port != port := by
  obtain ⟨hown, hother, hsame⟩ := setFar_is s port fun f => { f with link := 0, rate := 0 }
  have hmem : (portLost s port).mem = s.mem := hsame.mem rfl
  obtain ⟨fmem, fpkg⟩ := far_fold ((portLost s port).mem.posted.filter fun p => p.port == port) (portLost s port)
  refine ⟨_, (exec_farLinkLoss port s).trans (congrArg Host.Outcome.next (if_neg (by simp [hup]))), ?_, ?_, fun q hq => ?_, ?_⟩
  · rw [fmem, hmem]
  · rw [fpkg]; exact hown
  · rw [fpkg]; exact hother q hq
  · rw [fmem, erase_fold, hmem]; rfl

/-- A far port that trains again with what was found. -/
def portTrained (s : State) (port link ex gib : Nat) : State :=
  (setFar s port fun f => { f with link := link, rate := 1 + fresh s % 2, expanders := ex, gib := gib }).took

theorem exec_farRetrain (port link ex gib : Nat) (s : State) : exec (.farRetrain port link ex gib) s = .next
    (if 4 ≤ port || (lookD s.pkg.far port {}).link != 0 || link = 0 || 2 < link || 8 < ex || 4096 < gib then s
    else if (lookD s.pkg.far port {}).gib = gib || ((lookD s.pkg.far port {}).gib = 0 && (lookD s.pkg.far port {}).expanders = 0) then
      portTrained s port link ex gib
    else s) := rfl

theorem portTrained_is (s : State) (port link ex gib : Nat) : Same { free := true, pkg := true } s (portTrained s port link ex gib) ∧
    lookD (portTrained s port link ex gib).pkg.far port {} =
      { lookD s.pkg.far port {} with link := link, rate := 1 + fresh s % 2, expanders := ex, gib := gib } :=
  ⟨State.took_same (setFar_same (Same.refl _ s) rfl) rfl, (setFar_is s port _).1⟩

/-- Settles O49: the host link's three events, and those of the far ports. -/
theorem hostLinkAndFarPorts : Obligations.HostLinkAndFarPorts := by
  refine ⟨fun s hdown => ?down, fun s hup => ?reset, hlPerstN_is, fun port tag s p => cxlMemCompletion_is, fun port tag s => cxlMemCompletion_none,
    fun port tag link ex gib s hdown => ⟨?timeoutDown, ?lossDown, fun hport => ?noPort⟩, fun port tag s hport hup => ?timeout,
    fun port s hport hup => ?loss, fun port link ex gib s hport hlink hex hgib hdown => ?retrain⟩
  case down => exact congrArg Host.Outcome.next (if_pos hdown)
  case reset => exact hostLinkReset_is hup
  case timeoutDown => exact (exec_farCplTimeout port tag s).trans (congrArg Host.Outcome.next (if_pos ((farDown_iff s port).mpr hdown)))
  case lossDown => exact (exec_farLinkLoss port s).trans (congrArg Host.Outcome.next (if_pos ((farDown_iff s port).mpr hdown)))
  case noPort => exact (exec_farRetrain port link ex gib s).trans (congrArg Host.Outcome.next (if_pos (by simp [hport])))
  case timeout => exact farCplTimeout_is tag (by simp [farDown, hup, hport])
  case loss => exact farLinkLoss_is (by simp [farDown, hup, hport])
  case retrain =>
    intro f
    have hgo : ¬(4 ≤ port || (lookD s.pkg.far port {}).link != 0 || link = 0 || 2 < link || 8 < ex || 4096 < gib) = true := by
      simp [hdown]
      omega
    rw [exec_farRetrain, if_neg hgo]
    by_cases hcap : f.gib = gib ∨ (f.gib = 0 ∧ f.expanders = 0)
    · rw [if_pos hcap, if_pos (by simpa using hcap)]
      obtain ⟨hsame, hport⟩ := portTrained_is s port link ex gib
      refine ⟨_, rfl, hsame, ?_⟩
      rw [hport]
      exact ⟨rfl, rfl, rfl, by show 1 + fresh s % 2 = 1 ∨ 1 + fresh s % 2 = 2; omega⟩
    · rw [if_neg hcap, if_neg (by simpa using hcap)]

end Sys2Proof.Machine
end

section
/-!
PROOFS. The obligation of family 12_ubdin_image: what refuses or stages an IMAGE_LOAD, a TWIN_TAKEOVER and a TN_HANDBACK, and what their
commit point does.
-/

namespace Sys2Proof.Machine

open Sys2Proof

/-! An image past its checks is carried by R335 or refused. -/

/-- What CarriedOrRefused says of the state before depends on its image state and its queue manager alone. -/
theorem carriedOrRefused_congr {a b u : State} {h : Hdr} {op : LoadOp} {kind : Nat} {i : Image} (himg : a.img = b.img) (hqm : a.qm = b.qm)
    (hu : CarriedOrRefused a u h op kind i) : CarriedOrRefused b u h op kind i := by
  unfold CarriedOrRefused at hu ⊢
  rw [carryBad_congr himg] at hu
  cases hbad : carryBad b (kind == 1) i with
  | some n =>
    rw [hbad] at hu
    obtain ⟨hends, hreason⟩ := hu
    exact ⟨ends_congr_left hends hqm, hreason.trans (by rw [himg])⟩
  | none =>
    rw [hbad] at hu
    obtain ⟨hstaged, hforce, hcpls⟩ := hu
    exact ⟨hstaged, hforce.trans (by rw [himg]), hcpls.trans (by rw [hqm])⟩

theorem stageLoad_twin (s : State) (h : Hdr) (op : LoadOp) (kind : Nat) (i : Image) : (stageLoad s h op kind i).twin = s.twin :=
  (stageLoad_same (g₀ := { free := true, gz := true, qm := true, img := true }) (Same.refl _ s) rfl rfl rfl rfl).twin rfl

/-- A load whose source goes by its own checks: refused by them, or continued with the image they pass. -/
def checkedLoad (b : State) (h : Hdr) (op : LoadOp) (pass : Image → State → State) : State :=
  match sourceChecks b op with
  | (.inl n, c) => refuseLoad c h n
  | (.inr i, c) => pass i c

/-- What holds of every image that passes the checks holds of the load, or they refuse it. -/
theorem checkedLoad_is {b : State} {h : Hdr} {op : LoadOp} {pass : Image → State → State} {P : Image → State → State → Prop}
    (hpass : ∀ i c, P i c (pass i c)) :
    match sourceChecks b op with
    | (.inl n, c) => LoadRefused c (checkedLoad b h op pass) h n
    | (.inr i, c) => P i c (checkedLoad b h op pass) := by
  unfold checkedLoad
  obtain ⟨n | i, c⟩ := sourceChecks b op
  · exact refuseLoad_is c h n
  · exact hpass i c

/-- The twin told to yield, every complete step applied to the shadow, and the receive log emptied (R402). -/
def takenOver (c : State) : State :=
  (applyReady (tellTwin c 1) (c.twin.log.length + 1)).onTwin fun t => { t with takeover := t.shadowStep, log := [] }

theorem takenOver_frame (c : State) :
    Same { mem := true, regs := true, mu := true, twin := true, sv := true, i3c := true, sounds := true, seqNo := true } c (takenOver c) :=
  State.onTwin_same (applyReady_same (tellTwin_same (Same.refl _ c) rfl) rfl rfl rfl rfl rfl rfl rfl rfl) rfl

/-- A takeover whose image passed its checks: what the CARRY row refuses leaves the twin as it is. -/
def takeoverStaged (c : State) (h : Hdr) (op : LoadOp) (i : Image) : State :=
  if (carryBad c true i).isSome = true then stageLoad c h op 1 i else stageLoad (takenOver c) h op 1 i

theorem takeoverStaged_is (c : State) (h : Hdr) (op : LoadOp) (i : Image) :
    CarriedOrRefused c (takeoverStaged c h op i) h op 1 i ∧
    (carryBad c true i = none → (takeoverStaged c h op i).twin.log = [] ∧
      (takeoverStaged c h op i).twin.takeover = (takeoverStaged c h op i).twin.shadowStep) := by
  unfold takeoverStaged
  cases hbad : carryBad c true i with
  | some n => exact ⟨stageLoad_is c h op 1 i, nofun⟩
  | none =>
    have hframe := takenOver_frame c
    refine ⟨carriedOrRefused_congr (hframe.img rfl) (hframe.qm rfl) (stageLoad_is (takenOver c) h op 1 i), fun _ => ?_⟩
    rw [if_neg (by simp), stageLoad_twin]
    exact ⟨rfl, rfl⟩

/-! IMAGE_LOAD (R331, R332, R333) and TWIN_TAKEOVER (R401, R402) once R299 has accepted them: their checks run with the COUNTER recorded
(critical_accepted). -/

section
variable {s : State} {h : Hdr} {t : Trailer} {slot : Nat} {k : Key} (ha : Accepted s h t slot k)
include ha

theorem exec_imageLoad_foreign (op : LoadOp) (hq : h.queue ≠ 0) :
    exec (.imageLoad h t op) s = .next (refuseLoad (acceptCounter s slot k t.counter) h (stMalformed, 0x01, 0, 0)) :=
  congrArg Host.Outcome.next ((if_neg (by simp [hq])).trans ((critical_accepted _ ha).trans (if_pos (by simpa using hq))))

/-- One that finds an update or another load under way. -/
theorem exec_imageLoad_busy (op : LoadOp) (hq : h.queue = 0) (hfree : ¬(h.queue = 0 ∧ loading s (· == 0) = true))
    (hbusy : let b := acceptCounter s slot k t.counter
      b.sec.fwState = fwWriting ∨ b.sec.fwState = fwRestoring ∨ b.img.staged ≠ none) :
    exec (.imageLoad h t op) s = .next (refuseLoad (acceptCounter s slot k t.counter) h (stMalformed, 0x02, 0, 0)) :=
  congrArg Host.Outcome.next ((if_neg (by simpa using hfree)).trans ((critical_accepted _ ha).trans
    ((if_neg (by simp [hq])).trans (if_pos (by simpa [or_assoc, Option.isSome_iff_ne_none] using hbusy)))))

theorem exec_imageLoad_checks (op : LoadOp) (hq : h.queue = 0) (hfree : ¬(h.queue = 0 ∧ loading s (· == 0) = true))
    (hidle : let b := acceptCounter s slot k t.counter
      ¬(b.sec.fwState = fwWriting ∨ b.sec.fwState = fwRestoring ∨ b.img.staged ≠ none)) :
    exec (.imageLoad h t op) s = .next (checkedLoad (acceptCounter s slot k t.counter) h op fun i c =>
      if op.checkOnly = true then refuseLoad c h (stDone, 0, 0, 0) else stageLoad c h op 0 i) :=
  congrArg Host.Outcome.next ((if_neg (by simpa using hfree)).trans ((critical_accepted _ ha).trans
    ((if_neg (by simp [hq])).trans (if_neg (by simpa [or_assoc, Option.isSome_iff_ne_none] using hidle)))))

theorem exec_twinTakeover_refused {op : LoadOp} {st : Nat} (hno : takeoverNo (acceptCounter s slot k t.counter) op = some st) :
    exec (.twinTakeover h t op) s = .next (complete (acceptCounter s slot k t.counter) h cmdUnit st) :=
  congrArg Host.Outcome.next ((critical_accepted _ ha).trans (by rw [hno]))

theorem exec_twinTakeover_checks {op : LoadOp} (hno : takeoverNo (acceptCounter s slot k t.counter) op = none) :
    exec (.twinTakeover h t op) s =
      .next (checkedLoad (acceptCounter s slot k t.counter) h op fun i c => takeoverStaged c h op i) :=
  congrArg Host.Outcome.next ((critical_accepted _ ha).trans (by rw [hno]; rfl))

/-- R332's rows: the queue, what is under way, the source's checks, CHECK_ONLY, and the CARRY row. -/
theorem imageLoad_is (op : LoadOp) (hfree : ¬(h.queue = 0 ∧ loading s (· == 0) = true)) :
    let b := acceptCounter s slot k t.counter
    ∃ u, exec (.imageLoad h t op) s = .next u ∧
      if h.queue ≠ 0 then LoadRefused b u h (stMalformed, 0x01, 0, 0)
      else if b.sec.fwState = fwWriting ∨ b.sec.fwState = fwRestoring ∨ b.img.staged ≠ none then LoadRefused b u h (stMalformed, 0x02, 0, 0)
      else match sourceChecks b op with
        | (.inl n, c) => LoadRefused c u h n
        | (.inr i, c) => if op.checkOnly = true then LoadRefused c u h (stDone, 0, 0, 0) else CarriedOrRefused c u h op 0 i := by
  intro b
  by_cases hq : h.queue ≠ 0
  · exact ⟨_, exec_imageLoad_foreign ha op hq, by rw [if_pos hq]; exact refuseLoad_is b h _⟩
  · have hq0 : h.queue = 0 := Decidable.not_not.mp hq
    by_cases hbusy : b.sec.fwState = fwWriting ∨ b.sec.fwState = fwRestoring ∨ b.img.staged ≠ none
    · exact ⟨_, exec_imageLoad_busy ha op hq0 hfree hbusy, by rw [if_neg hq, if_pos hbusy]; exact refuseLoad_is b h _⟩
    · refine ⟨_, exec_imageLoad_checks ha op hq0 hfree hbusy, ?_⟩
      rw [if_neg hq, if_neg hbusy]
      refine checkedLoad_is (P := fun i c u =>
        if op.checkOnly = true then LoadRefused c u h (stDone, 0, 0, 0) else CarriedOrRefused c u h op 0 i) fun i c => ?_
      split
      · exact refuseLoad_is c h _
      · exact stageLoad_is c h op 0 i

/-- R401's rows, the image's own, and R402. -/
theorem twinTakeover_is (op : LoadOp) :
    let b := acceptCounter s slot k t.counter
    ∃ u, exec (.twinTakeover h t op) s = .next u ∧
      match takeoverNo b op with
      | some st => Ends b u h cmdUnit st ∧ u.img = b.img
      | none => match sourceChecks b op with
        | (.inl n, c) => LoadRefused c u h n
        | (.inr i, c) => CarriedOrRefused c u h op 1 i ∧
            (carryBad c true i = none → u.twin.log = [] ∧ u.twin.takeover = u.twin.shadowStep) := by
  intro b
  cases hno : takeoverNo b op with
  | some st => exact ⟨_, exec_twinTakeover_refused ha hno, ends_complete h cmdUnit st rfl, complete_img b h cmdUnit st⟩
  | none =>
    exact ⟨_, exec_twinTakeover_checks ha hno, checkedLoad_is (P := fun i c u => CarriedOrRefused c u h op 1 i ∧
      (carryBad c true i = none → u.twin.log = [] ∧ u.twin.takeover = u.twin.shadowStep)) fun i c => takeoverStaged_is c h op i⟩

end

/-! TN_HANDBACK (R405). -/

/-- What refuses a hand-back before its image's own rows. -/
abbrev HandbackRefused (s : State) (h : Hdr) : Prop :=
  h.queue ≠ 0 ∨ serves s = false ∨ s.twin.converged = false ∨ s.img.staged ≠ none ∨ fwBusy s = true

theorem handbackRefused_iff (s : State) (h : Hdr) : HandbackRefused s h ↔
    (h.queue != 0 || !serves s || !s.twin.converged || s.img.staged.isSome || fwBusy s) = true := by
  simp [HandbackRefused, or_assoc, Option.isSome_iff_ne_none]

theorem exec_tnHandback_refused {s : State} {h : Hdr} (op : LoadOp) (hs : canStart s h = true) (hno : HandbackRefused s h) :
    exec (.tnHandback h op) s = .next (complete s h cmdUnit stMalformed) :=
  congrArg Host.Outcome.next ((runDesc_start _ hs).trans (if_pos ((handbackRefused_iff s h).mp hno)))

theorem exec_tnHandback_checks {s : State} {h : Hdr} (op : LoadOp) (hs : canStart s h = true) (hgo : ¬HandbackRefused s h) :
    exec (.tnHandback h op) s = .next (checkedLoad s h op fun i c => stageLoad c h op 2 i) :=
  congrArg Host.Outcome.next ((runDesc_start _ hs).trans (if_neg fun hno => hgo ((handbackRefused_iff s h).mpr hno)))

theorem tnHandback_is {s : State} {h : Hdr} (op : LoadOp) (hs : canStart s h = true) :
    ∃ u, exec (.tnHandback h op) s = .next u ∧
      if h.queue ≠ 0 ∨ serves s = false ∨ s.twin.converged = false ∨ s.img.staged ≠ none ∨ fwBusy s = true then
        Ends s u h cmdUnit stMalformed ∧ u.img = s.img
      else match sourceChecks s op with
        | (.inl n, c) => LoadRefused c u h n
        | (.inr i, c) => CarriedOrRefused c u h op 2 i := by
  by_cases hno : HandbackRefused s h
  · exact ⟨_, exec_tnHandback_refused op hs hno, by rw [if_pos hno]; exact ⟨ends_complete h cmdUnit _ rfl, complete_img s h cmdUnit _⟩⟩
  · exact ⟨_, exec_tnHandback_checks op hs hno, by
      rw [if_neg hno]
      exact checkedLoad_is (P := fun i c u => CarriedOrRefused c u h op 2 i) fun i c => stageLoad_is c h op 2 i⟩

/-! COMMIT_POINT (R334, R336). -/

/-- Every migrated or PAGED row back at its place. -/
def rowsHome (s : State) : State := s.mu.dir.foldl rowHome s

theorem rowsHome_frame (s : State) :
    Same { mem := true, regs := true, gz := true, mu := true, sv := true, i3c := true, sounds := true, seqNo := true } s (rowsHome s) :=
  foldl_same (Same.refl _ s) fun _ _ hframe => rowHome_same hframe rfl rfl rfl rfl rfl rfl rfl rfl

theorem rowsHome_pend (s : State) : (rowsHome s).mu.pend = s.mu.pend := foldl_pend rowHome rowHome_pend _ s

/-- A load refused at its commit point for its pending entries. -/
def pendingRefused (s : State) (x : Staged) : State :=
  refuseLoad ((rowsHome s).onImg fun m => { m with staged := none }) x.hdr (stMalformed, 0x0C, 0, 0)

theorem pendingRefused_is (s : State) (x : Staged) : (pendingRefused s x).img.staged = none ∧
    (pendingRefused s x).img.inForce = s.img.inForce ∧ (pendingRefused s x).img.reason = 0x0C ∧
    Ends s (pendingRefused s x) x.hdr cmdUnit stMalformed := by
  obtain ⟨hends, himg⟩ := refuseLoad_is ((rowsHome s).onImg fun m => { m with staged := none }) x.hdr (stMalformed, 0x0C, 0, 0)
  have hframe := rowsHome_frame s
  have hforce : (rowsHome s).img.inForce = s.img.inForce := congrArg Img.inForce (hframe.img rfl)
  unfold pendingRefused
  rw [himg]
  exact ⟨rfl, hforce, rfl, ends_congr_left hends (hframe.qm rfl)⟩

/-- The end of a load by its kind, once its image is in force (R397, R402, R405). -/
def loadEnded (s : State) (x : Staged) : State :=
  match x.kind with
  | 0 => endLoad s x
  | 1 => endTakeover s x
  | _ => endHandback s x

theorem loadEnded_img (s : State) (x : Staged) : (loadEnded s x).img = s.img := by
  have hframe :
      Same { free := true, pkg := true, regs := true, gz := true, qm := true, rings := true, twin := true, sounds := true, seqNo := true }
        s (loadEnded s x) := by
    unfold loadEnded
    split
    · exact endLoad_same (Same.refl _ s) rfl rfl rfl rfl rfl rfl rfl rfl rfl
    · exact endTakeover_same (Same.refl _ s) rfl rfl rfl rfl
    · exact endHandback_same (Same.refl _ s) rfl rfl rfl rfl rfl rfl rfl rfl rfl
  exact hframe.img rfl

/-- The COMPLETION of complete is the last one issued. -/
theorem complete_issues (s : State) (h : Hdr) (u : UnitId) (st : Nat) :
    ∃ l e, e < 2 ^ 32 ∧ (complete s h u st).qm.cpls = l ++ [completionOf h u st e] := by
  obtain ⟨e, he, hcpls⟩ := (ends_complete h u st (Eq.refl s.qm)).issued
  exact ⟨_, e, he, hcpls⟩

/-- A load ends with its COMPLETION, an IMAGE_LOAD with DONE. -/
theorem loadEnded_issues (s : State) (x : Staged) : ∃ l st e, e < 2 ^ 32 ∧
    (loadEnded s x).qm.cpls = l ++ [completionOf x.hdr cmdUnit st e] ∧ (x.kind = 0 → st = stDone) := by
  suffices ∃ s' st, loadEnded s x = complete s' x.hdr cmdUnit st ∧ (x.kind = 0 → st = stDone) by
    obtain ⟨s', st, hend, hdone⟩ := this
    obtain ⟨l, e, he, hcpls⟩ := complete_issues s' x.hdr cmdUnit st
    exact ⟨l, st, e, he, by rw [hend]; exact hcpls, hdone⟩
  unfold loadEnded
  split
  · exact ⟨_, _, rfl, fun _ => rfl⟩
  next hkind => exact ⟨_, _, rfl, fun h0 => absurd (hkind.symm.trans h0) (by decide)⟩
  next hkind _ => exact ⟨_, _, rfl, fun h0 => absurd h0 hkind⟩

/-- A load whose staged image comes into force. -/
def committed (s : State) (x : Staged) : State := loadEnded ((commit (rowsHome s) x).onImg fun m => { m with loaded := some x.hdr }) x

theorem committed_img (s : State) (x : Staged) : (committed s x).img.staged = none ∧
    (committed s x).img.inForce = some x.image ∧ (committed s x).img.reason = 0 := by
  obtain ⟨hforce, hstaged, hreason⟩ := commit_is (rowsHome s) x
  unfold committed
  rw [loadEnded_img]
  exact ⟨hstaged, hforce, hreason⟩

theorem exec_commitPoint_idle {s : State} (hx : s.img.staged = none) : exec .commitPoint s = .next s := by
  refine congrArg Host.Outcome.next ?_
  rw [hx]

section
variable {s : State} {x : Staged} (hx : s.img.staged = some x)
include hx

theorem exec_commitPoint_waits (hq : quiesced s x = false) : exec .commitPoint s = .next s := by
  refine congrArg Host.Outcome.next ?_
  rw [hx]
  exact if_pos (by simp [hq])

/-- Whether the load is refused is read off the pending entries as the rows come home, which they leave. -/
theorem exec_commitPoint_quiet (hq : quiesced s x = true) : exec .commitPoint s = .next
    (if (!s.mu.pend.isEmpty && !(x.op.dropPending && x.kind == 0)) = true then pendingRefused s x else committed s x) := by
  refine congrArg Host.Outcome.next ?_
  rw [hx, ← rowsHome_pend s]
  exact if_neg (by simp [hq])

theorem exec_commitPoint_refuses (hq : quiesced s x = true) (hpend : s.mu.pend ≠ []) (hkeep : ¬(x.op.dropPending = true ∧ x.kind = 0)) :
    exec .commitPoint s = .next (pendingRefused s x) := by
  rw [exec_commitPoint_quiet hx hq, if_pos (by simpa [hpend, -not_and, Decidable.not_and_iff_or_not] using hkeep)]

theorem exec_commitPoint_commits (hq : quiesced s x = true) (hgo : s.mu.pend = [] ∨ (x.op.dropPending = true ∧ x.kind = 0)) :
    exec .commitPoint s = .next (committed s x) := by
  rw [exec_commitPoint_quiet hx hq, if_neg (by rcases hgo with hnone | ⟨hdrop, hkind⟩ <;> simp [*])]

/-- R334 once the package is quiet. -/
theorem commitPoint_is (hq : quiesced s x = true) : ∃ u, exec .commitPoint s = .next u ∧ u.img.staged = none ∧
    (s.mu.pend ≠ [] → ¬(x.op.dropPending = true ∧ x.kind = 0) →
      u.img.inForce = s.img.inForce ∧ u.img.reason = 0x0C ∧ Ends s u x.hdr cmdUnit stMalformed) ∧
    (s.mu.pend = [] ∨ (x.op.dropPending = true ∧ x.kind = 0) →
      u.img.inForce = some x.image ∧ u.img.reason = 0 ∧
      ∃ l st e, e < 2 ^ 32 ∧ u.qm.cpls = l ++ [completionOf x.hdr cmdUnit st e] ∧ (x.kind = 0 → st = stDone)) := by
  by_cases hgo : s.mu.pend = [] ∨ (x.op.dropPending = true ∧ x.kind = 0)
  · obtain ⟨hstaged, hforce, hreason⟩ := committed_img s x
    refine ⟨_, exec_commitPoint_commits hx hq hgo, hstaged, fun hpend hkeep => ?_, fun _ => ⟨hforce, hreason, loadEnded_issues _ x⟩⟩
    exact absurd hgo (not_or.mpr ⟨hpend, hkeep⟩)
  · obtain ⟨hpend, hkeep⟩ := not_or.mp hgo
    obtain ⟨hstaged, hrefused⟩ := pendingRefused_is s x
    exact ⟨_, exec_commitPoint_refuses hx hq hpend hkeep, hstaged, fun _ _ => hrefused, fun h => absurd h hgo⟩

end

/-- Settles O28: each of the three loads by what meets it first, and the commit point by what is staged and what is pending. -/
theorem loadsAndTheirCommit : Obligations.LoadsAndTheirCommit :=
  ⟨fun _ _ op _ _ _ ha => ⟨imageLoad_is ha op, twinTakeover_is ha op⟩, fun _ op _ hs => tnHandback_is op hs,
    fun _ => exec_commitPoint_idle, fun _ _ => exec_commitPoint_waits, fun _ _ => commitPoint_is⟩

end Sys2Proof.Machine
end

section
/-!
PROOFS. The management bus of family 13_command_die_and_host: the transfers of R500, common commands and in-band interrupts of the I3C target.
-/

namespace Sys2Proof.Machine

open Sys2Proof

/-! What reaches the target (R499). -/

/-- A command that sets fields of the target and nothing else. -/
theorem exec_setsI3c {i : Instr} {s : State} {f : I3c → I3c} (hx : exec i s = .next (s.onI3c f)) :
    ∃ t, exec i s = .next t ∧ Same { i3c := true } s t ∧ t.i3c = f s.i3c := ⟨_, hx, i3_same s f, rfl⟩

/-- A command that answers with bytes leaves the rest of the package. -/
theorem exec_repliesI3c {i : Instr} {s : State} {bs : List Byte} (hx : exec i s = .next (i3cReply s bs)) :
    ∃ t, exec i s = .next t ∧ Same { i3c := true } s t ∧ t.i3c.reply = bs := ⟨_, hx, i3_same s _, rfl⟩

theorem i3cReached_of {s : State} (hup : i3cUp s = true) (hdyn : s.i3c.dynValid = true) : i3cReached s = true := by
  simp [i3cReached, hup, hdyn]

/-- A target that does not answer, or has no address, is reached by no transfer of R500 and by no directed command. -/
theorem i3c_notReached (data : List Byte) {s : State} (h : i3cUp s = false ∨ s.i3c.dynValid = false) :
    exec (.privateWrite data) s = .next s ∧ exec .privateRead s = .next s ∧ exec .getpid s = .next s ∧ exec .getbcr s = .next s ∧
    exec .getdcr s = .next s ∧ exec .getstatus s = .next s := by
  have hr : i3cReached s = false := by rcases h with h | h <;> simp [i3cReached, h]
  exact ⟨congrArg Host.Outcome.next (if_neg (by simp [hr])), congrArg Host.Outcome.next (if_pos (by simp [hr])),
    congrArg Host.Outcome.next (if_neg (by simp [hr])), congrArg Host.Outcome.next (if_neg (by simp [hr])),
    congrArg Host.Outcome.next (if_neg (by simp [hr])), congrArg Host.Outcome.next (if_neg (by simp [hr]))⟩

/-! Private transfers (R500). -/

/-- The bytes that a read of R500 returns. -/
def privateBytes (s : State) : List Byte :=
  if s.i3c.pointer % 8 = 0 ∧ 0x10000 ≤ s.i3c.pointer ∧ s.i3c.pointer ≤ 0x14FFF then leBytes 8 (readReg s 1 s.i3c.pointer)
  else List.replicate 8 0

theorem exec_privateWrite_pointer {data : List Byte} {s : State} (hr : i3cReached s = true) (hl : data.length = 4) :
    exec (.privateWrite data) s = .next (s.onI3c fun c => { c with pointer := ofLe data }) :=
  congrArg Host.Outcome.next (if_pos (by simp [hr, hl]))

theorem exec_privateWrite_discarded {data : List Byte} {s : State} (hl : data.length ≠ 4) : exec (.privateWrite data) s = .next s :=
  congrArg Host.Outcome.next (if_neg (by simp [hl]))

theorem leBytes_zero (n : Nat) : leBytes n 0 = List.replicate n 0 := by simp [leBytes, List.map_const']

theorem exec_privateRead_reached {s : State} (hr : i3cReached s = true) :
    exec .privateRead s = .next (s.onI3c fun c => { c with reply := privateBytes s, pointer := (s.i3c.pointer + 8) % 2 ^ 32 }) := by
  refine congrArg Host.Outcome.next ((if_neg (by simp [hr])).trans ?_)
  have hbytes : leBytes 8 (if s.i3c.pointer % 8 = 0 && 0x10000 ≤ s.i3c.pointer && s.i3c.pointer ≤ 0x14FFF then readReg s 1 s.i3c.pointer else 0)
      = privateBytes s := by
    rw [apply_ite (leBytes 8), leBytes_zero]
    exact ite_eq_of_iff (by simp [and_assoc]) rfl rfl
  rw [← hbytes]
  rfl

/-- Settles O1: a write of four bytes and a read touch the pointer and the reply alone. -/
theorem privateTransfers : Obligations.PrivateTransfers := by
  refine ⟨fun data s hup hdyn => ?write, fun s hup hdyn => ?read⟩
  case write =>
    split
    · next hl => exact exec_setsI3c (exec_privateWrite_pointer (i3cReached_of hup hdyn) hl)
    · next hl => exact exec_privateWrite_discarded hl
  case read =>
    obtain ⟨t, hx, hsame, ht⟩ := exec_setsI3c (exec_privateRead_reached (i3cReached_of hup hdyn))
    exact ⟨t, hx, hsame, by rw [ht], by rw [ht]; rfl⟩

/-! Common commands and in-band interrupts (R499, R501). -/

/-- A target that is not up takes no address and no broadcast. -/
theorem i3c_down (static dyn : Nat) {s : State} (h : i3cUp s = false) :
    exec (.entdaa dyn) s = .next s ∧ exec (.setdasa static dyn) s = .next s ∧ exec .rstdaa s = .next s ∧
    exec (.enec true) s = .next s ∧ exec (.disec true) s = .next s :=
  ⟨congrArg Host.Outcome.next (if_neg (by simp [h])), congrArg Host.Outcome.next (if_neg (by simp [h])),
    congrArg Host.Outcome.next (if_neg (by simp [h])), congrArg Host.Outcome.next (if_neg (by simp [h])),
    congrArg Host.Outcome.next (if_neg (by simp [h]))⟩

/-- A target that has an address, or is offered one of more than seven bits, takes none. -/
theorem i3c_takesNone (static : Nat) {dyn : Nat} {s : State} (h : s.i3c.dynValid = true ∨ 128 ≤ dyn) :
    exec (.entdaa dyn) s = .next s ∧ exec (.setdasa static dyn) s = .next s := by
  have hn : s.i3c.dynValid = true ∨ ¬dyn < 128 := h.imp_right Nat.not_lt.mpr
  constructor <;> exact congrArg Host.Outcome.next (if_neg (by rcases hn with h | h <;> simp [h]))

theorem exec_entdaa_takes {dyn : Nat} {s : State} (hup : i3cUp s = true) (hd : dyn < 128) (hn : s.i3c.dynValid = false) :
    exec (.entdaa dyn) s = .next (takeAddr s dyn) := congrArg Host.Outcome.next (if_pos (by simp [hup, hd, hn]))

theorem exec_setdasa_takes {dyn : Nat} {s : State} (hup : i3cUp s = true) (hd : dyn < 128) (hn : s.i3c.dynValid = false) :
    exec (.setdasa (staticAddr s) dyn) s = .next (takeAddr s dyn) := congrArg Host.Outcome.next (if_pos (by simp [hup, hd, hn]))

theorem exec_setdasa_other {static dyn : Nat} {s : State} (h : static ≠ staticAddr s) : exec (.setdasa static dyn) s = .next s :=
  congrArg Host.Outcome.next (if_neg (by simp [h]))

theorem exec_rstdaa_up {s : State} (hup : i3cUp s = true) :
    exec .rstdaa s = .next (s.onI3c fun c => { c with dyn := 0, dynValid := false }) := congrArg Host.Outcome.next (if_pos hup)

theorem exec_enec_up {s : State} (hup : i3cUp s = true) : exec (.enec true) s = .next (s.onI3c fun c => { c with ibiEn := true }) :=
  congrArg Host.Outcome.next (if_pos (by simp [hup]))

theorem exec_disec_up {s : State} (hup : i3cUp s = true) : exec (.disec true) s = .next (s.onI3c fun c => { c with ibiEn := false }) :=
  congrArg Host.Outcome.next (if_pos (by simp [hup]))

/-- The Provisional ID fits six bytes. -/
theorem provisionalId_lt (s : State) : provisionalId s < 256 ^ 6 := by
  have hv : variantCode s.pkg.variant ≤ 2 := by cases s.pkg.variant <;> decide
  have hp := b2n_lt_two s.pkg.pairId
  have hm : Config.freeValue (2 ^ 72) % 2 ^ 15 < 2 ^ 15 := Nat.mod_lt _ (by decide)
  unfold provisionalId
  omega

/-- GETPID: six bytes, which spell the Provisional ID. -/
theorem getpid_replies {s : State} (hr : i3cReached s = true) : ∃ t, exec .getpid s = .next t ∧ Same { i3c := true } s t ∧
    t.i3c.reply.length = 6 ∧ ∃ free < 2 ^ 15,
      ofLe t.i3c.reply.reverse = 2 ^ 33 * free + 2 ^ 16 * 0x0940 + 2 ^ 12 * variantCode s.pkg.variant + b2n s.pkg.pairId := by
  obtain ⟨t, hx, hsame, hreply⟩ := exec_repliesI3c (i := .getpid) (congrArg Host.Outcome.next (if_pos hr))
  refine ⟨t, hx, hsame, ?_, Config.freeValue (2 ^ 72) % 2 ^ 15, Nat.mod_lt _ (by decide), ?_⟩
  · rw [hreply, List.length_reverse, leBytes_length]
  · rw [hreply, List.reverse_reverse, ofLe_leBytes, Nat.mod_eq_of_lt (provisionalId_lt s)]
    rfl

/-- GETBCR: one byte, whose stated bits are 6 and whose highest two are 0. -/
theorem getbcr_replies {s : State} (hr : i3cReached s = true) : ∃ t, exec .getbcr s = .next t ∧ Same { i3c := true } s t ∧
    t.i3c.reply.length = 1 ∧ ofLe t.i3c.reply % 8 = 6 ∧ ofLe t.i3c.reply < 64 := by
  obtain ⟨t, hx, hsame, hreply⟩ := exec_repliesI3c (i := .getbcr) (congrArg Host.Outcome.next (if_pos hr))
  refine ⟨t, hx, hsame, ?_⟩
  rw [hreply, leBytes_length, ofLe_leBytes]
  omega

theorem getdcr_replies {s : State} (hr : i3cReached s = true) : ∃ t, exec .getdcr s = .next t ∧ Same { i3c := true } s t ∧
    t.i3c.reply.length = 1 := by
  obtain ⟨t, hx, hsame, hreply⟩ := exec_repliesI3c (i := .getdcr) (congrArg Host.Outcome.next (if_pos hr))
  exact ⟨t, hx, hsame, by rw [hreply, leBytes_length]⟩

/-- GETSTATUS: two bytes, a free value. -/
theorem getstatus_replies {s : State} (hr : i3cReached s = true) : ∃ t, exec .getstatus s = .next t ∧
    Same { free := true, i3c := true } s t ∧ t.i3c.reply.length = 2 :=
  ⟨_, congrArg Host.Outcome.next (if_pos hr), State.onI3c_same (State.took_same (Same.refl _ s) rfl) rfl, leBytes_length ..⟩

/-- Settles O50: each command by what reaches the target. -/
theorem i3cTarget : Obligations.I3cTarget := by
  refine ⟨fun data s => i3c_notReached data, fun static dyn s => i3c_down static dyn,
    fun dyn s hup hd hn => ⟨exec_setsI3c (exec_entdaa_takes hup hd hn), fun static => ?setdasa⟩,
    fun static dyn s => i3c_takesNone static, fun s hup => exec_setsI3c (exec_rstdaa_up hup), fun s hup hdyn => ?directed,
    fun s hup => ⟨exec_setsI3c (exec_enec_up hup), exec_setsI3c (exec_disec_up hup)⟩,
    fun s => ⟨congrArg Host.Outcome.next (if_neg (by simp)), congrArg Host.Outcome.next (if_neg (by simp))⟩,
    fun byte s => exec_setsI3c (f := fun c => { c with pendingIbi := c.pendingIbi.erase byte }) rfl⟩
  case setdasa =>
    split
    · next hs => subst hs; exact exec_setsI3c (exec_setdasa_takes hup hd hn)
    · next hs => exact exec_setdasa_other hs
  case directed =>
    have hr := i3cReached_of hup hdyn
    exact ⟨getpid_replies hr, getbcr_replies hr, getdcr_replies hr, getstatus_replies hr⟩

end Sys2Proof.Machine
end

section
/-!
PROOFS. The link dies of family 14_rings_and_lanes: ports, lanes, trainings, and the bypass of a dimension.
-/

namespace Sys2Proof.Machine

open Sys2Proof

/-- A command with a condition: what it does where that holds, and that it does nothing elsewhere. -/
theorem exec_guarded {i : Instr} {s : State} {c : Prop} [Decidable c] {P : State → Prop} (hthen : c → ∃ t, exec i s = .next t ∧ P t)
    (helse : ¬c → exec i s = .next s) : ∃ t, exec i s = .next t ∧ if c then P t else t = s := by
  by_cases hc : c
  · obtain ⟨t, hx, ht⟩ := hthen hc
    exact ⟨t, hx, (if_pos hc).mpr ht⟩
  · exact ⟨s, helse hc, (if_neg hc).mpr rfl⟩

/-! What waits at a link die (R366). -/

/-- Nothing moves at a link die whose store and ring input are empty. -/
theorem moveOn_idle {s : State} {die : Nat} (he : egressOf s die = []) (hi : (rport s die).input = []) : moveOn s die = s := by
  have hp : pumpLink s die = s := by simp [pumpLink, he, pumpFrames]
  simp [moveOn, hp, drainInput, hi, drainFrames]

theorem rport_takeRet (s : State) (die : Nat) (r : RingRet) : rport (takeRet s die r) die = { rport s die with
    bad := 0, kept := unackedFrames r.rack (rport s die).kept,
    used := put (rport s die).used (vlKey r.tc r.vl) (look0 (rport s die).used (vlKey r.tc r.vl) - r.n) } := rport_set ..

theorem egressOf_setRPort (s : State) (d l : Nat) (f : RPort → RPort) : egressOf (setRPort s d f) l = egressOf s l := by
  simp [egressOf, setRPort_rings]

theorem egressOf_takeRet (s : State) (die l : Nat) (r : RingRet) : egressOf (takeRet s die r) l = egressOf s l := egressOf_setRPort ..

/-- A counter leaves the rings. -/
theorem bumpBy_rings (s : State) (d o n sel : Nat) : (bumpBy s d o n sel).rings = s.rings := (bumpBy_frame ..).rings rfl

theorem rport_bumpBy (s : State) (d o n sel e : Nat) : rport (bumpBy s d o n sel) e = rport s e := rport_congr (congrArg Rings.ports (bumpBy_rings ..)) e

/-- An IDLE frame on a port that is up. -/
theorem exec_idle_up {f : IdleFrame} {s : State} (hup : ((isRing f.die || isTwin f.die) && rportUp s f.die) = true) :
    exec (.idle f) s = .next (moveOn (takeRet (bumpBy s.took f.die 0x10008 (fresh s % 2 ^ 32)) f.die f.ret) f.die) :=
  congrArg Host.Outcome.next (if_pos hup)

/-- R363, R365: what an IDLE frame brings a port at which nothing waits. -/
theorem idle_returns {f : IdleFrame} {s : State} (hup : ((isRing f.die || isTwin f.die) && rportUp s f.die) = true) :
    ∃ t, exec (.idle f) s = .next t ∧ (egressOf s f.die = [] → (rport s f.die).input = [] → rport t f.die = { rport s f.die with
      bad := 0, kept := unackedFrames f.ret.rack (rport s f.die).kept,
      used := put (rport s f.die).used (vlKey f.ret.tc f.ret.vl) (look0 (rport s f.die).used (vlKey f.ret.tc f.ret.vl) - f.ret.n) }) := by
  refine ⟨_, exec_idle_up hup, fun he hi => ?_⟩
  have hport := rport_bumpBy s.took f.die 0x10008 (fresh s % 2 ^ 32) 0 f.die
  rw [moveOn_idle]
  · rw [rport_takeRet, hport]; rfl
  · rw [egressOf_takeRet, egressOf, bumpBy_rings]; exact he
  · rw [rport_takeRet, hport]; exact hi

/-! Failures of a port that is up (R362, R365). -/

/-- A ring or twin port that is up, as the commands test it. -/
theorem portCheck_false {die : Nat} {s : State} (hup : ((isRing die || isTwin die) && rportUp s die) = true) :
    (!(isRing die || isTwin die) || !rportUp s die) = false := by
  rw [← Bool.not_and, hup]; rfl

theorem portCheck_true {die : Nat} {s : State} (hdown : ¬((isRing die || isTwin die) && rportUp s die) = true) :
    (!(isRing die || isTwin die) || !rportUp s die) = true := by
  rw [← Bool.not_and, Bool.eq_false_of_not_eq_true hdown]; rfl

theorem exec_uncorrectableCodeword_up {die : Nat} {s : State} (hup : ((isRing die || isTwin die) && rportUp s die) = true) :
    exec (.uncorrectableCodeword die) s = .next (if 16 ≤ (rport s die).bad then retrain (bump s die 0x10010) die
      else setRPort (bump s die 0x10010) die fun p => { p with bad := p.bad + 1 }) := by
  refine congrArg Host.Outcome.next ((if_neg (by rw [portCheck_false hup]; simp)).trans ?_)
  rw [← rport_bumpBy s die 0x10010 1 0 die]
  rfl

theorem uncorrectableCodeword_counts {die : Nat} {s : State} (hup : ((isRing die || isTwin die) && rportUp s die) = true) :
    ∃ t, exec (.uncorrectableCodeword die) s = .next t ∧
      (if 16 ≤ (rport s die).bad then (rport t die).st = 1 ∧ (rport t die).lanes = 0 ∧ t.regs = (bump (bump s die 0x10010) die 0x10028).regs
       else rport t die = { rport s die with bad := (rport s die).bad + 1 } ∧ t.regs = (bump s die 0x10010).regs) := by
  refine ⟨_, exec_uncorrectableCodeword_up hup, ?_⟩
  split
  · obtain ⟨hport, hregs⟩ := retrain_is (bump s die 0x10010) die
    exact ⟨by rw [hport], by rw [hport], hregs⟩
  · exact ⟨by rw [rport_set, bump, rport_bumpBy], (setRPort_frame ..).regs rfl⟩

theorem exec_ringLaneFailure_up {die lane : Nat} {s : State} (hup : ((isRing die || isTwin die) && rportUp s die) = true)
    (hl : lane < portLanes die) :
    let half := portLanes die / 2
    let l := ins (rport s die).badLanes lane
    exec (.ringLaneFailure die lane) s = .next (if l.any (· < half) && l.any (half ≤ ·) then retrain s die
      else portChanged s die fun p => { p with badLanes := l, st := pUpHalf, lanes := half }) :=
  congrArg Host.Outcome.next (if_neg (by rw [portCheck_false hup]; simpa using hl))

/-- R365: the half without a failed lane, or a training. -/
theorem ringLaneFailure_does {die lane : Nat} {s : State} (hup : ((isRing die || isTwin die) && rportUp s die) = true)
    (hl : lane < portLanes die) : ∃ t, exec (.ringLaneFailure die lane) s = .next t ∧
      let half := portLanes die / 2
      let l := ins (rport s die).badLanes lane
      if l.any (· < half) && l.any (half ≤ ·) then
        (rport t die).st = 1 ∧ (rport t die).lanes = 0 ∧ (rport t die).badLanes = [] ∧ t.regs = (bump s die 0x10028).regs
      else rport t die = { rport s die with badLanes := l, st := 3, lanes := half } ∧ t.regs = s.regs := by
  refine ⟨_, exec_ringLaneFailure_up hup hl, ?_⟩
  dsimp only
  split
  · obtain ⟨hport, hregs⟩ := retrain_is s die
    exact ⟨by rw [hport], by rw [hport], by rw [hport], hregs⟩
  · exact ⟨rport_changed .., (changed_is ..).2⟩

theorem loseSnapshot_rings (s : State) : (loseSnapshot s).rings = s.rings := by
  unfold loseSnapshot
  split
  · split <;> rfl
  · rfl

theorem exec_lossOfSignal_heard {die : Nat} {s : State} (h : ((isRing die || isTwin die) && (rport s die).st != 6) = true) :
    let u := portChanged s die fun p => { p with st := pDown, lanes := 0, peerValid := false, fails := 0, bad := 0, badLanes := [] }
    exec (.lossOfSignal die) s = .next (if isTwin die then loseSnapshot u else u) := by
  refine congrArg Host.Outcome.next (if_neg ?_)
  obtain ⟨hport, hst⟩ := Bool.and_eq_true_iff.mp h
  simpa [hport] using hst

/-- R375: a port that loses its signal is DOWN, and keeps its replay buffer. -/
theorem lossOfSignal_downs {die : Nat} {s : State} (h : ((isRing die || isTwin die) && (rport s die).st != 6) = true) :
    ∃ t, exec (.lossOfSignal die) s = .next t ∧ (rport t die).st = 0 ∧ (rport t die).lanes = 0 ∧ (rport t die).kept = (rport s die).kept := by
  obtain ⟨t, hx, hport⟩ : ∃ t, exec (.lossOfSignal die) s = .next t ∧ rport t die =
      { rport s die with st := pDown, lanes := 0, peerValid := false, fails := 0, bad := 0, badLanes := [] } := by
    refine ⟨_, exec_lossOfSignal_heard h, ?_⟩
    split
    · exact (rport_congr (congrArg Rings.ports (loseSnapshot_rings _)) die).trans (rport_changed ..)
    · exact rport_changed ..
  exact ⟨t, hx, by rw [hport], by rw [hport], by rw [hport]⟩

/-! Trainings (R375, R377). -/

theorem exec_signalDetected_hears {die : Nat} {s : State}
    (h : ((isRing die || isTwin die) && dieUp s die && ((rport s die).st == 0 || (rport s die).st == 4)) = true) :
    exec (.signalDetected die) s = .next (retrain (setRPort s die fun p => { p with fails := 0 }) die) :=
  congrArg Host.Outcome.next (if_pos (by simpa using h))

theorem signalDetected_trains {die : Nat} {s : State}
    (h : ((isRing die || isTwin die) && dieUp s die && ((rport s die).st == 0 || (rport s die).st == 4)) = true) :
    ∃ t, exec (.signalDetected die) s = .next t ∧ (rport t die).st = 1 ∧ (rport t die).fails = 0 ∧ t.regs = (bump s die 0x10028).regs := by
  obtain ⟨hport, hregs⟩ := retrain_is (setRPort s die fun p => { p with fails := 0 }) die
  exact ⟨_, exec_signalDetected_hears h, by rw [hport], by rw [hport, rport_set],
    hregs.trans (bump_regs_congr ((setRPort_frame ..).regs rfl))⟩

/-- A port that its third failed training leaves BROKEN: what waits at its die moves to another (R369, R375). -/
def brokenPort (s : State) (die : Nat) : State := pumpLink (setRPort s die fun p => { p with st := pBroken, fails := 0 }) die

theorem brokenPort_is (s : State) (die : Nat) : (rport (brokenPort s die) die).st = 5 ∧ (rport (brokenPort s die) die).fails = 0 ∧
    (brokenPort s die).rings.floods = s.rings.floods ∧ selfDev (brokenPort s die) = selfDev s := by
  let z := setRPort s die fun p => { p with st := pBroken, fails := 0 }
  have hz : rport z die = { rport s die with st := pBroken, fails := 0 } := rport_set ..
  have hstay := pumpLink_stays z die
  have hport := hstay.port die
  refine ⟨(congrArg RPort.st hport).trans (congrArg RPort.st hz), (congrArg RPort.fails hport).trans (congrArg RPort.fails hz),
    hstay.floods.trans (by simp [z, setRPort_rings]), ?_⟩
  unfold selfDev ringHeader brokenPort
  rw [hstay.map_]
  simp [z, setRPort_rings]

theorem exec_trainingFailure_training {die : Nat} {s : State} (h : ((isRing die || isTwin die) && (rport s die).st == 1) = true) :
    exec (.trainingFailure die) s = .next (if (rport s die).fails < 2 then setRPort s die fun p => { p with fails := p.fails + 1 }
      else if isRing die then floodTopo (setRPort (brokenPort s die) die fun p => { p with brk := true }) (segmentDev (brokenPort s die) die)
          (2 + dimOfDie die)
        else brokenPort s die) := by
  refine congrArg Host.Outcome.next (if_neg ?_)
  obtain ⟨hport, hst⟩ := Bool.and_eq_true_iff.mp h
  simpa [hport] using hst

theorem trainingFailure_does {die : Nat} {s : State} (h : ((isRing die || isTwin die) && (rport s die).st == 1) = true) :
    ∃ t, exec (.trainingFailure die) s = .next t ∧
      (if (rport s die).fails < 2 then rport t die = { rport s die with fails := (rport s die).fails + 1 }
       else (rport t die).st = 5 ∧ (rport t die).fails = 0 ∧ (isRing die = true → (rport t die).brk = true ∧
         ∃ tok, t.rings.floods = s.rings.floods ++ [tok] ∧ tok.kind = 2 ∧ tok.aux = 2 + dimOfDie die ∧ tok.orig = selfDev s)) := by
  refine ⟨_, exec_trainingFailure_training h, ?_⟩
  obtain ⟨hst, hfails, hfloods, hself⟩ := brokenPort_is s die
  split
  · exact rport_set ..
  · split
    · next hring =>
      obtain ⟨hports, tok, htok, hkind, haux, horig⟩ := flood_is (setRPort (brokenPort s die) die fun p => { p with brk := true })
        (segmentDev (brokenPort s die) die) (2 + dimOfDie die)
      have hport := (rport_congr hports die).trans (rport_set (brokenPort s die) die fun p => { p with brk := true })
      refine ⟨by rw [hport]; exact hst, by rw [hport]; exact hfails, fun _ => ⟨by rw [hport], tok, ?_, hkind, haux, ?_⟩⟩
      · rw [htok, setRPort_rings]; exact congrArg (· ++ [tok]) hfloods
      · rw [horig, ← hself]
        unfold selfDev ringHeader
        rw [setRPort_rings]
    · next hring => exact ⟨hst, hfails, fun h => absurd h hring⟩

theorem exec_brokenRetry_broken {die : Nat} {s : State} (h : ((isRing die || isTwin die) && (rport s die).st == 5) = true) :
    exec (.brokenRetry die) s = .next (retrain s die) := congrArg Host.Outcome.next (if_pos (by simpa using h))

/-! Switches (R372). -/

/-- Every ring link die belongs to a dimension. -/
theorem isRing_mem_dimDies {d : Nat} (h : isRing d = true) : ∃ dim ∈ [0, 1], d ∈ dimDies dim := by
  have hd : 34 ≤ d ∧ d < 38 := by simpa [isRing] using h
  by_cases h36 : d < 36
  · exact ⟨0, by simp, by simp [dimDies]; omega⟩
  · exact ⟨1, by simp, by simp [dimDies]; omega⟩

theorem exec_bypassCause_package {cause : Nat} (dim : Nat) {s : State} (h1 : 1 ≤ cause) (h4 : cause ≤ 4) :
    exec (.bypassCause cause dim) s = .next (addCause s cause) := congrArg Host.Outcome.next (if_pos (by simp [h1, h4]))

theorem exec_bypassCause_dimension {dim : Nat} {s : State} (hd : dim ≤ 1) : exec (.bypassCause 5 dim) s = .next (addCause s (5 + dim)) :=
  congrArg Host.Outcome.next ((if_neg (by simp)).trans (if_pos (by simp [hd])))

theorem exec_bypassCause_none {cause dim : Nat} {s : State} (h : cause = 0 ∨ 5 < cause ∨ cause = 5 ∧ 1 < dim) :
    exec (.bypassCause cause dim) s = .next s :=
  congrArg Host.Outcome.next ((if_neg (by simp; omega)).trans (if_neg (by simp; omega)))

theorem causeDims_package {cause : Nat} (h4 : cause ≤ 4) : causeDims cause = [0, 1] := by
  unfold causeDims
  rw [if_neg (by omega), if_neg (by omega)]

theorem causeDims_dimension {dim : Nat} (hd : dim ≤ 1) : causeDims (5 + dim) = [dim] := by
  rcases Nat.le_one_iff_eq_zero_or_eq_one.mp hd with rfl | rfl <;> rfl

/-- R372: what a cause closes, where it is one of the causes. -/
theorem bypassCause_closes (cause dim : Nat) (s : State) : ∃ t, exec (.bypassCause cause dim) s = .next t ∧
    (1 ≤ cause → cause ≤ 4 → cause ∈ t.rings.causes ∧ t.rings.released = false ∧ ∀ d, isRing d = true → (rport t d).st = 6) ∧
    (cause = 5 → dim ≤ 1 → 5 + dim ∈ t.rings.causes ∧ t.rings.released = false ∧ ∀ d ∈ dimDies dim, (rport t d).st = 6) ∧
    (cause = 0 ∨ 5 < cause ∨ cause = 5 ∧ 1 < dim → t = s) := by
  by_cases hpack : 1 ≤ cause ∧ cause ≤ 4
  · obtain ⟨hmem, hrel, hst⟩ := cause_is s cause
    refine ⟨_, exec_bypassCause_package dim hpack.1 hpack.2, fun _ h4 => ⟨hmem, hrel, fun d hd => ?_⟩, by omega, by omega⟩
    obtain ⟨e, he, hin⟩ := isRing_mem_dimDies hd
    exact hst e (by rw [causeDims_package h4]; exact he) d hin
  · by_cases hdim : cause = 5 ∧ dim ≤ 1
    · obtain ⟨rfl, hd⟩ := hdim
      obtain ⟨hmem, hrel, hst⟩ := cause_is s (5 + dim)
      exact ⟨_, exec_bypassCause_dimension hd, by omega, fun _ _ => ⟨hmem, hrel, hst dim (by rw [causeDims_dimension hd]; simp)⟩, by omega⟩
    · exact ⟨s, exec_bypassCause_none (by omega), by omega, by omega, fun _ => rfl⟩

/-- A token that arrives leaves the switches. -/
theorem applyTopo_switches (s : State) (dev aux orig count : Nat) : (applyTopo s dev aux orig count).rings.causes = s.rings.causes ∧
    (applyTopo s dev aux orig count).rings.openDims = s.rings.openDims := by
  unfold applyTopo
  dsimp only
  split
  · exact ⟨rfl, rfl⟩
  · split
    · exact ⟨rfl, rfl⟩
    · split
      · split <;> exact ⟨rfl, rfl⟩
      · split
        · split <;> exact ⟨rfl, rfl⟩
        · split <;> exact ⟨rfl, rfl⟩

theorem floodTopo_switches (s : State) (dev aux : Nat) : (floodTopo s dev aux).rings.causes = s.rings.causes ∧
    (floodTopo s dev aux).rings.openDims = s.rings.openDims := applyTopo_switches ..

theorem releaseWaiter_switches (s : State) : (releaseWaiter s).rings.causes = s.rings.causes ∧
    (releaseWaiter s).rings.openDims = s.rings.openDims ∧ (releaseWaiter s).rings.ports = s.rings.ports := by
  unfold releaseWaiter
  split
  · split <;> exact ⟨rfl, rfl, rfl⟩
  · exact ⟨rfl, rfl, rfl⟩

/-- Both link dies of a dimension report lock (R372; log entry 62). -/
def lockReported (s : State) (dim : Nat) : State :=
  (dropCause s (5 + dim)).onRings fun g => { g with noLock := g.noLock.filter fun d => !(dimDies dim).contains d }

/-- The switches of a dimension open, once it may: its ports are DOWN. -/
def dimOpened (s : State) (dim : Nat) : State :=
  (dimDies dim).foldl (fun s d => setRPort s d fun p => { p with st := pDown, lanes := 0, peerValid := false })
    (s.onRings fun g => { g with openDims := ins g.openDims dim })

/-- A dimension may open: nothing but the lock of its dies held it closed, and both report lock. -/
theorem lockReported_allowed {s : State} {dim : Nat} (hup : (dimDies dim).all (dieUp s) = true)
    (hcause : ∀ c ∈ s.rings.causes, c = 5 + dim ∨ ¬dim ∈ causeDims c) (hnd : s.rings.causes.Nodup)
    (hjoin : bit (regGet s 0 0x70000) 20 = false ∨ s.rings.released = true) :
    dimAllowed (lockReported s dim) dim = true ∧ ∀ c ∈ (lockReported s dim).rings.causes, ¬dim ∈ causeDims c := by
  have hc : ∀ c ∈ (lockReported s dim).rings.causes, ¬dim ∈ causeDims c := by
    intro c hmem
    obtain ⟨hne, hin⟩ := hnd.mem_erase_iff.mp hmem
    exact (hcause c hin).resolve_left hne
  refine ⟨?_, hc⟩
  have hdies : ∀ d ∈ dimDies dim, dieUp (lockReported s dim) d = true := List.all_eq_true.mp hup
  unfold dimAllowed
  simp only [Bool.and_eq_true, List.all_eq_true]
  refine ⟨⟨fun c hmem => by simpa using hc c hmem, fun d hd => ⟨hdies d hd, ?_⟩⟩, ?_⟩
  · simp [lockReported, hd]
  · rcases hjoin with h | h
    · exact Bool.or_eq_true_iff.mpr (.inl (by simpa [lockReported, dropCause] using h))
    · exact Bool.or_eq_true_iff.mpr (.inr h)

theorem exec_dimensionOpen_opens {dim : Nat} {s : State} (hd : dim ≤ 1) (hup : (dimDies dim).all (dieUp s) = true)
    (hallow : dimAllowed (lockReported s dim) dim = true) (hopen : ¬dim ∈ s.rings.openDims) :
    exec (.dimensionOpen dim) s = .next
      (releaseWaiter (floodTopo (dimOpened (lockReported s dim) dim) (selfDev (dimOpened (lockReported s dim) dim)) 1)) := by
  show execDimensionOpen dim s = _
  unfold execDimensionOpen
  dsimp only
  rw [if_pos hup]
  refine congrArg Host.Outcome.next (if_neg ?_)
  have ho : (lockReported s dim).rings.openDims.contains dim = false := by simpa [lockReported, dropCause] using hopen
  show ¬(decide (1 < dim) || !dimAllowed (lockReported s dim) dim || (lockReported s dim).rings.openDims.contains dim) = true
  rw [hallow, ho]
  simpa using hd

/-- R372: a dimension that may open opens. -/
theorem dimensionOpen_opens {dim : Nat} {s : State} (hd : dim ≤ 1) (hup : (dimDies dim).all (dieUp s) = true)
    (hcause : ∀ c ∈ s.rings.causes, c = 5 + dim ∨ ¬dim ∈ causeDims c) (hnd : s.rings.causes.Nodup)
    (hjoin : bit (regGet s 0 0x70000) 20 = false ∨ s.rings.released = true) (hopen : ¬dim ∈ s.rings.openDims) :
    ∃ t, exec (.dimensionOpen dim) s = .next t ∧ dim ∈ t.rings.openDims ∧ (∀ d ∈ dimDies dim, (rport t d).st = 0) ∧
      (∀ c ∈ t.rings.causes, ¬dim ∈ causeDims c) := by
  obtain ⟨hallow, hfree⟩ := lockReported_allowed hup hcause hnd hjoin
  refine ⟨_, exec_dimensionOpen_opens hd hup hallow hopen, ?_⟩
  obtain ⟨hst, hcauses, hdims⟩ := open_is (dimDies dim) ((lockReported s dim).onRings fun g => { g with openDims := ins g.openDims dim })
  obtain ⟨hwc, hwo, hwp⟩ := releaseWaiter_switches (floodTopo (dimOpened (lockReported s dim) dim) (selfDev (dimOpened (lockReported s dim) dim)) 1)
  obtain ⟨hfc, hfo⟩ := floodTopo_switches (dimOpened (lockReported s dim) dim) (selfDev (dimOpened (lockReported s dim) dim)) 1
  have hfp := (flood_is (dimOpened (lockReported s dim) dim) (selfDev (dimOpened (lockReported s dim) dim)) 1).1
  refine ⟨?_, fun d hin => ?_, fun c hmem => hfree c ?_⟩
  · rw [hwo, hfo]; exact hdims ▸ ins_self _ dim
  · rw [rport_congr (hwp.trans hfp)]; exact hst d (.inl hin)
  · rw [hwc, hfc] at hmem; exact hcauses ▸ hmem

theorem dimensionOpen_idle {dim : Nat} {s : State} (h : 1 < dim ∨ dim ∈ s.rings.openDims) : exec (.dimensionOpen dim) s = .next s := by
  show execDimensionOpen dim s = _
  unfold execDimensionOpen
  dsimp only
  refine congrArg Host.Outcome.next (if_pos ?_)
  rcases h with h | h
  · simp [h]
  · split <;> simp [dropCause, h]

/-- Settles O41: each event by the ports it can change, and what it does with them. -/
theorem portsOfTheRings : Obligations.PortsOfTheRings := by
  refine ⟨fun f s => exec_guarded idle_returns fun h => congrArg Host.Outcome.next (if_neg h),
    fun die s => exec_guarded uncorrectableCodeword_counts fun h => congrArg Host.Outcome.next (if_pos (portCheck_true h)),
    fun die lane s => exec_guarded (fun h => ?lane) fun h => congrArg Host.Outcome.next (if_pos ?noLane),
    fun die s => exec_guarded lossOfSignal_downs fun h => congrArg Host.Outcome.next (if_pos ?noLoss),
    fun die s => exec_guarded signalDetected_trains fun h => congrArg Host.Outcome.next (if_neg (by simpa using h)),
    fun die s => exec_guarded trainingFailure_does fun h => congrArg Host.Outcome.next (if_pos ?noTraining),
    fun die s => exec_guarded (fun h => ?retry) fun h => congrArg Host.Outcome.next (if_neg (by simpa using h)),
    bypassCause_closes, fun dim s hd hup hcause hnd hjoin hopen => dimensionOpen_opens hd hup hcause hnd hjoin hopen,
    fun dim s => dimensionOpen_idle⟩
  case lane =>
    obtain ⟨hup, hl⟩ := Bool.and_eq_true_iff.mp h
    exact ringLaneFailure_does hup (of_decide_eq_true hl)
  case noLane =>
    by_cases hup : ((isRing die || isTwin die) && rportUp s die) = true
    · rw [portCheck_false hup]; simpa [hup] using h
    · rw [portCheck_true hup]; rfl
  case noLoss =>
    cases hport : isRing die || isTwin die
    · rfl
    · simpa [hport] using h
  case noTraining =>
    cases hport : isRing die || isTwin die
    · rfl
    · simpa [hport] using h
  case retry =>
    obtain ⟨hport, hregs⟩ := retrain_is s die
    exact ⟨_, exec_brokenRetry_broken h, by rw [hport], hregs⟩

/-- Settles O59: each command's frame, from the state it starts in. -/
theorem framesOfRingsAndTwin : Obligations.FramesOfRingsAndTwin :=
  ⟨fun _ _ s _ h => ⟨execRgPut_same h (Same.refl _ s) rfl rfl rfl rfl rfl rfl rfl rfl rfl rfl rfl rfl,
     memSame_of_sameBytes (execRgPut_bytes h (SameBytes.refl s))⟩,
   fun _ _ s _ h => ⟨execRgGet_same h (Same.refl _ s) rfl rfl rfl rfl rfl rfl rfl rfl rfl rfl rfl rfl,
     memSame_of_sameBytes (execRgGet_bytes h (SameBytes.refl s))⟩,
   fun _ _ s _ h => execTokenIn_same h (Same.refl _ s) rfl,
   fun _ _ s _ h => execSent_same h (Same.refl _ s) rfl,
   fun _ _ s _ h => execOpenTok_same h (Same.refl _ s) rfl,
   fun _ _ _ _ s _ h => execTopo_same h (Same.refl _ s) rfl,
   fun _ _ s _ h => execAliasTok_same h (Same.refl _ s) rfl,
   fun s _ h => execSendSent_same h (Same.refl _ s) rfl,
   fun s _ h => execSendOpen_same h (Same.refl _ s) rfl,
   fun s _ h => execTokenWaitExpiry_same h (Same.refl _ s) rfl rfl rfl rfl,
   fun _ _ s _ h => execRemoteTimeout_same h (Same.refl _ s) rfl rfl rfl rfl rfl rfl rfl rfl rfl,
   fun _ _ s _ h => execIdent_same h (Same.refl _ s) rfl rfl rfl rfl rfl rfl rfl rfl rfl rfl,
   fun _ s _ h => execUncorrectableCodeword_same h (Same.refl _ s) rfl rfl rfl rfl rfl rfl,
   fun _ _ s _ h => execRingLaneFailure_same h (Same.refl _ s) rfl rfl rfl rfl rfl rfl,
   fun _ s _ h => execLossOfSignal_same h (Same.refl _ s) rfl rfl rfl rfl rfl rfl,
   fun _ s _ h => execSignalDetected_same h (Same.refl _ s) rfl rfl rfl rfl rfl rfl,
   fun _ s _ h => execTrainingFailure_same h (Same.refl _ s) rfl rfl rfl rfl rfl rfl rfl rfl,
   fun _ s _ h => execBrokenRetry_same h (Same.refl _ s) rfl rfl rfl rfl rfl rfl,
   fun _ _ s _ h => execBypassCause_same h (Same.refl _ s) rfl rfl,
   fun _ s _ h => execDimensionOpen_same h (Same.refl _ s) rfl rfl rfl rfl,
   fun _ s _ h => execIdle_same h (Same.refl _ s) rfl rfl rfl rfl rfl rfl rfl rfl rfl,
   fun _ _ s _ h => execFlitFrame_same h (Same.refl _ s) rfl rfl rfl rfl rfl rfl rfl rfl rfl rfl,
   fun _ s _ h => execJournalData_same h (Same.refl _ s) rfl rfl rfl rfl rfl rfl rfl rfl,
   fun _ s _ h => execJournalBase_same h (Same.refl _ s) rfl rfl rfl rfl rfl rfl rfl rfl,
   fun _ s _ h => execJournalEnd_same h (Same.refl _ s) rfl rfl rfl rfl rfl rfl rfl rfl,
   fun _ s _ h => execJournalBaseEnd_same h (Same.refl _ s) rfl rfl rfl rfl rfl rfl rfl rfl,
   fun s _ h => execYield_same h (Same.refl _ s) rfl rfl rfl rfl,
   fun _ s _ h => execHandbackStepNumber_same h (Same.refl _ s) rfl rfl rfl rfl rfl rfl rfl rfl rfl rfl,
   fun _ _ s _ h => execTnSnapshot_same h (Same.refl _ s) rfl rfl rfl rfl rfl rfl rfl rfl rfl rfl rfl rfl rfl⟩

end Sys2Proof.Machine
end

section
/-!
PROOFS. Selvage, resets and the management of families 16_selvage_and_faults and 17_security_and_update: what a reset leaves, what a LOCKED
Selvage keeps, shutdowns, and cold and warm resets.
-/

namespace Sys2Proof.Machine

open Sys2Proof

/-! Frames of management, power and bring-up. -/

/-- Settles O60: each command's frame, from the state it starts in. -/
theorem framesOfManagementPowerAndBringUp : Obligations.FramesOfManagementPowerAndBringUp :=
  ⟨fun _ s _ h => execPrivateWrite_same h (Same.refl _ s) rfl,
   fun s _ h => execPrivateRead_same h (Same.refl _ s) rfl,
   fun _ s _ h => execEntdaa_same h (Same.refl _ s) rfl,
   fun _ _ s _ h => execSetdasa_same h (Same.refl _ s) rfl,
   fun s _ h => execRstdaa_same h (Same.refl _ s) rfl,
   fun s _ h => execGetpid_same h (Same.refl _ s) rfl,
   fun s _ h => execGetbcr_same h (Same.refl _ s) rfl,
   fun s _ h => execGetdcr_same h (Same.refl _ s) rfl,
   fun s _ h => execGetstatus_same h (Same.refl _ s) rfl rfl,
   fun _ s _ h => execEnec_same h (Same.refl _ s) rfl,
   fun _ s _ h => execDisec_same h (Same.refl _ s) rfl,
   fun _ s _ h => execInBandInterruptAccepted_same h (Same.refl _ s) rfl,
   fun _ s _ h => execPowerReport_same h (Same.refl _ s) rfl rfl,
   fun s _ h => execEmergency_same h (Same.refl _ s) rfl rfl,
   fun s _ h => execEmergencyLift_same h (Same.refl _ s) rfl,
   fun s _ h => execContourInterval_same h (Same.refl _ s) rfl rfl rfl rfl rfl rfl,
   fun s _ h => execContourWindow_same h (Same.refl _ s) rfl rfl rfl rfl,
   fun s _ h => execContourSounding_same h (Same.refl _ s) rfl rfl rfl,
   fun _ _ s _ h => execThermalReport_same h (Same.refl _ s) rfl rfl rfl rfl rfl,
   fun _ s _ h => execThrottleStep_same h (Same.refl _ s) rfl rfl rfl rfl,
   fun _ s _ h => execThermalDutyRise_same h (Same.refl _ s) rfl,
   fun _ _ s _ h => execHoldupMeasure_same h (Same.refl _ s) rfl rfl,
   fun _ s _ h => execHoldupTest_same h (Same.refl _ s) rfl rfl rfl,
   fun _ s _ h => execRefclkAPresent_same h (Same.refl _ s) rfl rfl rfl rfl rfl rfl rfl rfl rfl rfl rfl rfl,
   fun _ s _ h => execVin12InRange_same h (Same.refl _ s) rfl rfl rfl rfl rfl rfl rfl rfl rfl rfl rfl rfl⟩

/-! The state right after reset (R480, R483). -/

/-- Settles O6: the fields of State.reset. -/
theorem resetValues : Obligations.ResetValues :=
  ⟨rfl, rfl, rfl, rfl, rfl, rfl, rfl, rfl, rfl, rfl, rfl, rfl, rfl, rfl, rfl, rfl, rfl, rfl, rfl, rfl, rfl⟩

/-- Settles O9: every table of State.reset is empty. -/
theorem resetTablesCanonical : Obligations.ResetTablesCanonical := ⟨rfl, .nil, rfl, rfl⟩

/-! A LOCKED Selvage (R422). -/

theorem faultNHigh_locked {v : Selvage} (h : v.locked = true) : faultNHigh v = false := by simp [faultNHigh, h]

/-- Settles O12: the command that the step takes keeps LOCKED unless it may start a cold reset. -/
theorem lockedUntilAColdReset : Obligations.LockedUntilAColdReset := by
  intro c r s t hp hc hl h
  have hlocked := (step_kept hp h).locked hc hl
  exact ⟨hlocked, faultNHigh_locked hlocked⟩

/-! Cold resets (R478, R480). -/

theorem exec_coldReset_starts {cause : Nat} {b : BringUp} {s : State} (h0 : s.sv.shutdown = 0) (hc : cause ≤ 1) :
    exec (.coldReset cause b) s = .next (coldStart s cause b) :=
  congrArg Host.Outcome.next ((if_pos h0).trans (if_pos hc))

theorem exec_coldReset_noCause {cause : Nat} {b : BringUp} {s : State} (h0 : s.sv.shutdown = 0) (hc : 1 < cause) :
    exec (.coldReset cause b) s = .next s :=
  congrArg Host.Outcome.next ((if_pos h0).trans (if_neg (Nat.not_le.mpr hc)))

/-- What stays of Far says nothing of the sectors below it. -/
theorem not_far_of_below {i : Nat} (hi : i < farBase / 64) : decide (farBase ≤ 64 * i) = false := by
  simp only [decide_eq_false_iff_not]; omega

theorem farOnly_below (m : Mem) : (∀ a, a < farBase → cellByte (farOnly m) a = 0) ∧
    ∀ i, i < farBase / 64 → i ∉ (farOnly m).poison ∧ look (farOnly m).latent i = none := by
  refine ⟨fun a ha => ?_, fun i hi => ⟨fun hin => ?_, ?_⟩⟩
  · have hn : look (farOnly m).cells a = none := keep_none (fun a => decide (farBase ≤ a)) m.cells a (decide_eq_false (Nat.not_le.mpr ha))
    simp [cellByte, lookD, hn]
  · exact absurd (List.mem_filter.mp hin).2 (by simpa using not_far_of_below hi)
  · exact keep_none (fun i => decide (farBase ≤ 64 * i)) m.latent i (not_far_of_below hi)

/-- Settles O3: a cold start keeps Far alone (cold_mem). -/
theorem coldResetZeroesHomeAndStash : Obligations.ColdResetZeroesHomeAndStash := by
  intro cause b s h0 hc
  exact ⟨_, exec_coldReset_starts h0 hc, by rw [cold_mem]; exact farOnly_below s.mem⟩

/-- After a shutdown only RESET_N starts a cold reset, once the hold-off has passed (R472, R497). -/
theorem coldReset_afterShutdown (cause : Nat) (b : BringUp) {s : State} (h : s.sv.shutdown ≠ 0) :
    if cause = 0 ∨ 2 < cause then exec (.coldReset cause b) s = .next s
    else if s.sv.waiting = 17 then ∃ t, exec (.coldReset cause b) s = .next t ∧ ColdStarted s t 2 b
    else ∃ t, exec (.coldReset cause b) s = .next t ∧ Same { sv := true } s t ∧
      t.sv = { s.sv with waiting := if b.resetNHigh then 16 else s.sv.waiting } := by
  split
  · next hc => exact congrArg Host.Outcome.next ((if_neg h).trans (if_pos (by simpa using hc)))
  · next hc =>
    have hc' : ¬(decide (cause = 0) || decide (2 < cause)) = true := by simpa using hc
    split
    · next hw => exact ⟨_, congrArg Host.Outcome.next ((if_neg h).trans ((if_neg hc').trans (if_pos hw))), cold_is s 2 b⟩
    · next hw =>
      exact ⟨_, congrArg Host.Outcome.next ((if_neg h).trans ((if_neg hc').trans (if_neg hw))), State.onSv_same (Same.refl _ s) rfl, rfl⟩

theorem holdOffExpiry_idle {sensor : Nat} {b : BringUp} {s : State} (h : s.sv.shutdown = 0 ∨ 90 ≤ sensor) :
    exec (.holdOffExpiry sensor b) s = .next s := congrArg Host.Outcome.next (if_pos (by simpa using h))

/-- R497: the hold-off that ends starts the cold reset RESET_N has asked for, or lets the next one start. -/
theorem holdOffExpiry_ends {sensor : Nat} {b : BringUp} {s : State} (h : s.sv.shutdown ≠ 0) (hs : sensor < 90) :
    ∃ t, exec (.holdOffExpiry sensor b) s = .next t ∧
      if s.sv.waiting = 16 then ColdStarted s t 2 b else Same { sv := true } s t ∧ t.sv = { s.sv with waiting := 17 } := by
  have hn : ¬(decide (s.sv.shutdown = 0) || decide (90 ≤ sensor)) = true := by simp [h, hs]
  by_cases hw : s.sv.waiting = 16
  · exact ⟨_, congrArg Host.Outcome.next ((if_neg hn).trans (if_pos hw)), (if_pos hw).mpr (cold_is s 2 b)⟩
  · exact ⟨_, congrArg Host.Outcome.next ((if_neg hn).trans (if_neg hw)), (if_neg hw).mpr ⟨State.onSv_same (Same.refl _ s) rfl, rfl⟩⟩

/-- REFCLK_A goes on with a bring-up that waits for it at step 2 (R494). -/
theorem refclkAPresent_boots (b : BringUp) (s : State) :
    if s.sv.waiting = 2 ∧ s.sv.shutdown = 0 then ∃ t, exec (.refclkAPresent b) s = .next t ∧ Booted s t b
    else exec (.refclkAPresent b) s = .next s := by
  split
  · next h => exact ⟨_, congrArg Host.Outcome.next (if_pos (by simpa using h)), (ready_is s b).2.1⟩
  · next h => exact congrArg Host.Outcome.next (if_neg (by simpa using h))

/-- VIN12 goes on with one that waits for it at step 4. -/
theorem vin12InRange_bringsUp (b : BringUp) (s : State) :
    if s.sv.waiting = 4 ∧ s.sv.shutdown = 0 then ∃ t, exec (.vin12InRange b) s = .next t ∧ BroughtUp t b
    else exec (.vin12InRange b) s = .next s := by
  split
  · next h => exact ⟨_, congrArg Host.Outcome.next (if_pos (by simpa using h)), (start_is s b freshQueue {}).2.1⟩
  · next h => exact congrArg Host.Outcome.next (if_neg (by simpa using h))

/-! Shutdowns (R472, R503). -/

/-- The dies go down from a state with another sticky bit, and what follows touches Selvage and the management bus alone. -/
theorem diesDown_after {s z t : State} (hz : Same { sv := true, i3c := true } s z) (ht : Same { sv := true, i3c := true } (powerDown z) t)
    (hon : t.sv.on = (powerDown z).sv.on) : DiesDown s t := down_of (down_is z).1 (hz.mem rfl) (hz.sec rfl) (hz.pkg rfl) ht hon

/-- Going down keeps the source that asked for it. -/
theorem powerDown_sticky (s : State) (k : Nat) : k ∈ (powerDown (setSticky s k)).sv.sticky := by
  rw [(down_is (setSticky s k)).2]; exact sticky_mem s k

theorem shutdown_idle {s : State} (h : s.sv.on = false) : exec .powerShutdown s = .next s ∧ exec .thermalShutdown s = .next s :=
  ⟨congrArg Host.Outcome.next (if_neg (by simp [h])), congrArg Host.Outcome.next (if_pos (by simp [h]))⟩

theorem powerShutdown_downs {s : State} (h : s.sv.on = true) :
    ∃ t, exec .powerShutdown s = .next t ∧ t.sv.shutdown = 1 ∧ srcPower ∈ t.sv.sticky ∧ DiesDown s t :=
  ⟨_, congrArg Host.Outcome.next (if_pos h), rfl, powerDown_sticky s srcPower,
    diesDown_after (sticky_frame s srcPower) (State.onSv_same (Same.refl _ _) rfl) rfl⟩

theorem raiseIbi_frame (s : State) (b : Nat) : Same { i3c := true } s (raiseIbi s b) := raiseIbi_same (Same.refl _ s) rfl

/-- The dies after a thermal shutdown, before THERM_N's interrupt. -/
def thermalDown (s : State) : State := (powerDown (setSticky s srcThermal)).onSv fun v => { v with shutdown := 2 }

theorem thermalShutdown_downs {s : State} (h : s.sv.on = true) :
    ∃ t, exec .thermalShutdown s = .next t ∧ t.sv.shutdown = 2 ∧ srcThermal ∈ t.sv.sticky ∧ DiesDown s t := by
  obtain ⟨t, hx, hsv, hsame⟩ : ∃ t, exec .thermalShutdown s = .next t ∧ t.sv = (thermalDown s).sv ∧
      Same { sv := true, i3c := true } (powerDown (setSticky s srcThermal)) t := by
    refine ⟨_, congrArg Host.Outcome.next (if_neg (by simp [h])), ?_⟩
    dsimp only
    split
    · exact ⟨(raiseIbi_frame (thermalDown s) 2).sv rfl, raiseIbi_same (State.onSv_same (Same.refl _ _) rfl) rfl⟩
    · exact ⟨rfl, State.onSv_same (Same.refl _ _) rfl⟩
  exact ⟨t, hx, by rw [hsv]; rfl, by rw [hsv]; exact powerDown_sticky s srcThermal,
    diesDown_after (sticky_frame s srcThermal) hsame (by rw [hsv]; rfl)⟩

theorem vauxLoss_downs (s : State) : ∃ t, exec .vauxLoss s = .next t ∧ t.sv.shutdown = 0 ∧ t.sv.waiting = 1 ∧ DiesDown s t :=
  ⟨_, rfl, rfl, rfl, diesDown_after (Same.refl _ s) (State.onSv_same (Same.refl _ _) rfl) rfl⟩

/-! Warm resets (R481, R482). -/

/-- A restore touches Selvage, the security engine and the management bus. -/
theorem restoreFw_img (s : State) (ok : Bool) : (restoreFw s ok).img = s.img :=
  (restoreFw_same (g₀ := { sv := true, sec := true, i3c := true }) (Same.refl _ s) rfl rfl rfl).img rfl

/-- A warm reset's choice of firmware leaves the cause, LOCKED, and the image. -/
theorem warmFirmware_keeps (s : State) (b : BringUp) : svCore (warmFirmware s b) = svCore s ∧ (warmFirmware s b).img = s.img := by
  unfold warmFirmware
  split
  · split
    · have h := migrateAlm_same (g₀ := { sec := true }) (Same.refl _ (s.onSec fun c => { c with fwVersion := c.fwNew })) rfl
      exact ⟨core_of (h.sv rfl), h.img rfl⟩
    · exact ⟨core_restore .., restoreFw_img ..⟩
  · exact ⟨rfl, rfl⟩

/-- Outside a TRIAL a warm reset keeps the firmware's state. -/
theorem warmFirmware_plain {s : State} {b : BringUp} (h : s.sec.fwState ≠ fwTrial) : warmFirmware s b = s := if_neg h

/-- A restored image that checks is no missing firmware. -/
theorem restoreFw_found {s : State} (h : s.sec.fwState = fwTrial) : (restoreFw s true).sec.fwState ≠ fwNone := by
  cases hj : s.sec.fwJournal with
  | none =>
    have hr : restoreFw s true = s := by unfold restoreFw; rw [hj]
    rw [hr, h]; decide
  | some old =>
    obtain ⟨_, _, _, _, hstate⟩ := restoreFw_is true hj
    rw [hstate]; decide

theorem warmReset_starts (cause : Nat) (b : BringUp) (s : State) :
    if s.sv.on = true ∧ cause ∈ s.sv.warmReqs then ∃ t, exec (.warmReset cause b) s = .next t ∧
      (s.img.inForce = none → s.sec.fwState ≠ fwTrial → s.sec.fwState ≠ fwNone → WarmStarted s t cause b)
    else exec (.warmReset cause b) s = .next s := by
  split
  · next h =>
    refine ⟨_, congrArg Host.Outcome.next (if_pos (by simpa using h)), fun hnone htrial hfound => ?_⟩
    refine warm_is s cause b _ (fun z => warmFirmware_keeps z b) (fun z hz => ?_) hnone
    rw [warmFirmware_plain (by rw [hz]; exact htrial), hz]
    exact hfound
  · next h => exact congrArg Host.Outcome.next (if_neg (by simpa using h))

theorem trialExpiry_starts (ok : Bool) (b : BringUp) (s : State) :
    if s.sv.on = true ∧ s.sec.fwState = fwTrial then ∃ t, exec (.trialExpiry ok b) s = .next t ∧
      (s.img.inForce = none → ok = true → WarmStarted s t 10 b)
    else exec (.trialExpiry ok b) s = .next s := by
  split
  · next h =>
    refine ⟨_, congrArg Host.Outcome.next (if_pos (by simpa using h)), fun hnone hok => ?_⟩
    subst hok
    exact warm_is s 10 b _ (fun z => ⟨core_restore z true, restoreFw_img z true⟩) (fun z hz => restoreFw_found (hz.trans h.2)) hnone
  · next h => exact congrArg Host.Outcome.next (if_neg (by simpa using h))

/-- Settles O53: each event by the state of Selvage it finds. -/
theorem shutdownsAndResets : Obligations.ShutdownsAndResets :=
  ⟨fun _ => shutdown_idle, fun _ h => ⟨powerShutdown_downs h, thermalShutdown_downs h⟩, vauxLoss_downs,
    fun _ _ _ => exec_coldReset_noCause, fun _ b s h0 hc => ⟨_, exec_coldReset_starts h0 hc, cold_is s _ b⟩,
    fun cause b _ => coldReset_afterShutdown cause b, fun _ _ _ => holdOffExpiry_idle, fun _ _ _ => holdOffExpiry_ends,
    refclkAPresent_boots, vin12InRange_bringsUp, warmReset_starts, trialExpiry_starts⟩

/-! Power reports and the emergency duty (R461, R462). -/

theorem power_idle (l : List Nat) {s : State} (h : s.sv.on = false) : exec (.powerReport l) s = .next s ∧ exec .contourInterval s = .next s ∧
    exec .contourWindow s = .next s ∧ exec .contourSounding s = .next s :=
  ⟨congrArg Host.Outcome.next (if_pos (by simp [h])), congrArg Host.Outcome.next (if_pos (by simp [h])),
    congrArg Host.Outcome.next (if_pos (by simp [h])), congrArg Host.Outcome.next (if_pos (by simp [h]))⟩

theorem powerReport_counts (l : List Nat) {s : State} (h : s.sv.on = true) : ∃ t, exec (.powerReport l) s = .next t ∧
    Same { sv := true, ct := true } s t ∧ t.ct = { s.ct with p := l.sum, samples := s.ct.samples ++ [l.sum] } ∧
    t.sv = { s.sv with pSum := (l.sum :: s.sv.pSum).take 500, pSv := powerAvg (l.sum :: s.sv.pSum) 25 } :=
  ⟨_, congrArg Host.Outcome.next (if_neg (by simp [h])), State.onSv_same (State.onCt_same (Same.refl _ s) rfl) rfl, rfl, rfl⟩

theorem emergency_starts (s : State) :
    if overCap s.sv = true ∧ s.sv.emergency = false then ∃ t, exec .emergency s = .next t ∧ Same { sv := true, i3c := true } s t ∧
      t.sv.emergency = true ∧ srcPower ∈ t.sv.sticky ∧ ∀ k ∈ s.sv.sticky, k ∈ t.sv.sticky
    else exec .emergency s = .next s := by
  split
  · next h =>
    exact ⟨_, congrArg Host.Outcome.next (if_pos (by simpa using h)), State.onSv_same (sticky_frame s srcPower) rfl, rfl,
      sticky_mem s srcPower, setSticky_mono s srcPower⟩
  · next h => exact congrArg Host.Outcome.next (if_neg (by simpa using h))

theorem emergencyLift_ends (s : State) :
    if s.sv.emergency = true ∧ belowCap s.sv = true then ∃ t, exec .emergencyLift s = .next t ∧ Same { sv := true } s t ∧
      t.sv = { s.sv with emergency := false }
    else exec .emergencyLift s = .next s := by
  split
  · next h => exact ⟨_, congrArg Host.Outcome.next (if_pos (by simpa using h)), State.onSv_same (Same.refl _ s) rfl, rfl⟩
  · next h => exact congrArg Host.Outcome.next (if_neg (by simpa using h))

/-! Contour's interval (R465, R466). -/

/-- What Contour's fill may change beside the levels. -/
theorem setBallast_frame (s : State) (n : Nat) : Same { free := true, regs := true, tw := true, sounds := true, seqNo := true } s (setBallast s n) :=
  setBallast_same (Same.refl _ s) rfl rfl rfl rfl rfl

theorem contourInterval_off {s : State} (hon : s.sv.on = true) (hm : s.ct.mode = 0 ∨ s.ct.mode = 3) :
    exec .contourInterval s = .next (contourOff s) :=
  congrArg Host.Outcome.next ((if_neg (by simp [hon])).trans (if_pos (by simpa using hm)))

/-- Contour gates: the target is passed, and fill is withdrawn. -/
def contourGated (s : State) : State :=
  setBallast (s.onCt fun c => { c with target := nextTarget s, scrubAdv := false, duty := (max 4 (ctDuty s.ct - 1)) % 16 }) 0

/-- Contour fills the gap below the target. -/
def contourFilled (s : State) : State :=
  let gap := nextTarget s - foreground s
  setBallast (s.took.onCt fun c => { c with
      target := nextTarget s, scrubAdv := gap != 0, duty := (if ctDuty s.ct < 16 && gap != 0 then ctDuty s.ct + fresh s % 2 else ctDuty s.ct) % 16 })
    (ballastSteps (gap - if gap != 0 then 6000 * (musUp s).length else 0) (ballastCores s).length)

theorem contourInterval_on {s : State} (hon : s.sv.on = true) (hm : ¬(s.ct.mode = 0 ∨ s.ct.mode = 3)) :
    exec .contourInterval s = .next (if foreground s ≤ nextTarget s then contourFilled s else contourGated s) :=
  congrArg Host.Outcome.next ((if_neg (by simp [hon])).trans (if_neg (by simpa using hm)))

/-- The levels that setBallast leaves. -/
theorem setBallast_none (s : State) (g : Nat) : (coreOf (setBallast s 0) g).ballast = 0 := (ballast_is s 0 g).trans (ballastOf_zero ..)

/-- By how much the duty rises below the target: a free choice (R466; log entry 46). -/
def dutyRise (s : State) (gap : Nat) : Nat := if ctDuty s.ct < 16 ∧ gap ≠ 0 then fresh s % 2 else 0

theorem dutyRise_le (s : State) (gap : Nat) : dutyRise s gap ≤ 1 := by
  unfold dutyRise
  split <;> omega

theorem dutyRise_none {s : State} {gap : Nat} (h : 16 ≤ ctDuty s.ct ∨ gap = 0) : dutyRise s gap = 0 := if_neg (by omega)

/-- The gap is filled with scrub advance and then with ballast. -/
theorem contourFilled_is (s : State) :
    let gap := nextTarget s - foreground s
    let steps := ballastSteps (gap - if gap = 0 then 0 else 6000 * (musUp s).length) (ballastCores s).length
    (contourFilled s).ct = { s.ct with target := nextTarget s, scrubAdv := decide (gap ≠ 0), duty := (ctDuty s.ct + dutyRise s gap) % 16 } ∧
    ∀ g, (coreOf (contourFilled s) g).ballast = ballastOf (ballastCores s) steps g := by
  intro gap steps
  have hadv : (gap != 0) = decide (gap ≠ 0) := by rw [Bool.eq_iff_iff]; simp
  have hduty : (if (decide (ctDuty s.ct < 16) && gap != 0) = true then ctDuty s.ct + fresh s % 2 else ctDuty s.ct) = ctDuty s.ct + dutyRise s gap := by
    unfold dutyRise
    rw [apply_ite (ctDuty s.ct + ·)]
    exact ite_eq_of_iff (by simp) rfl rfl
  have hscrub : (if (gap != 0) = true then 6000 * (musUp s).length else 0) = if gap = 0 then 0 else 6000 * (musUp s).length := by
    by_cases hg : gap = 0 <;> simp [hg]
  constructor
  · refine (ct_set ..).trans ?_
    show ({ s.ct with target := _, scrubAdv := gap != 0, duty := (if (decide (ctDuty s.ct < 16) && gap != 0) = true then _ else _) % 16 } : Contour) = _
    rw [hadv] at hduty ⊢
    rw [hduty]
  · intro g
    refine (ballast_is ..).trans ?_
    show ballastOf (ballastCores s) (ballastSteps (gap - if (gap != 0) = true then 6000 * (musUp s).length else 0) (ballastCores s).length) g = _
    rw [hscrub]

theorem contourInterval_does {s : State} (hon : s.sv.on = true) : ∃ t, exec .contourInterval s = .next t ∧
    Same { free := true, regs := true, tw := true, ct := true, sounds := true, seqNo := true } s t ∧
    if s.ct.mode = 0 ∨ s.ct.mode = 3 then t.ct = { s.ct with duty := 0, scrubAdv := false, target := 0 } ∧ ∀ g, (coreOf t g).ballast = 0
    else if nextTarget s < foreground s then
      t.ct = { s.ct with target := nextTarget s, scrubAdv := false, duty := (max 4 (ctDuty s.ct - 1)) % 16 } ∧ ∀ g, (coreOf t g).ballast = 0
    else
      let gap := nextTarget s - foreground s
      let steps := ballastSteps (gap - if gap = 0 then 0 else 6000 * (musUp s).length) (ballastCores s).length
      (∃ rise ≤ 1, (16 ≤ ctDuty s.ct ∨ gap = 0 → rise = 0) ∧
        t.ct = { s.ct with target := nextTarget s, scrubAdv := decide (gap ≠ 0), duty := (ctDuty s.ct + rise) % 16 }) ∧
      ∀ g, (coreOf t g).ballast = ballastOf (ballastCores s) steps g := by
  obtain ⟨t, ht⟩ := exec_next .contourInterval s
  refine ⟨t, ht, execContourInterval_same ht (Same.refl _ s) rfl rfl rfl rfl rfl rfl, ?_⟩
  split
  · next hm =>
    obtain rfl := Host.Outcome.next.inj (ht.symm.trans (contourInterval_off hon hm))
    exact ⟨congrArg (fun c : Contour => { c with duty := 0, scrubAdv := false, target := 0 }) (ct_set s 0), setBallast_none s⟩
  · next hm =>
    obtain rfl := Host.Outcome.next.inj (ht.symm.trans (contourInterval_on hon hm))
    split
    · next hlow =>
      rw [if_neg (Nat.not_le.mpr hlow)]
      exact ⟨ct_set .., setBallast_none _⟩
    · next hhigh =>
      rw [if_pos (Nat.not_lt.mp hhigh)]
      obtain ⟨hct, hballast⟩ := contourFilled_is s
      exact ⟨⟨dutyRise s _, dutyRise_le .., dutyRise_none, hct⟩, hballast⟩

/-! Contour's window and its Sounding (R464, R469). -/

theorem contourWindow_idle {s : State} (h : s.ct.samples = []) : exec .contourWindow s = .next s :=
  congrArg Host.Outcome.next (if_pos (by simp [h]))

theorem fillSpent_iff (s : State) : fillSpent s = true ↔ s.ct.scrubAdv = true ∧ ∀ g ∈ ballastCores s, (coreOf s g).ballast = 15 := by
  simp [fillSpent]

/-- In HOLD, the average of a window below the band, and above it. -/
def windowLow (s : State) : Bool := s.ct.mode = 2 && 100 * (s.ct.samples.sum / s.ct.samples.length) < 98 * s.ct.setpoint
def windowHigh (s : State) : Bool := s.ct.mode = 2 && 102 * s.ct.setpoint < 100 * (s.ct.samples.sum / s.ct.samples.length)

/-- A window judged. -/
def windowed (s : State) : State := s.onCt fun c =>
  { c with pAvg := s.ct.samples.sum / s.ct.samples.length, pMax := s.ct.samples.foldl max 0, samples := [], windows := c.windows + 1,
           underF := windowLow s && fillSpent s, overF := windowHigh s && decide (ctDuty s.ct = 4) }

theorem exec_contourWindow_judges {s : State} (hon : s.sv.on = true) (hs : s.ct.samples ≠ []) :
    exec .contourWindow s = .next (if windowLow s || windowHigh s then bump (windowed s) 0 0xB0010 else windowed s) :=
  congrArg Host.Outcome.next (if_neg (by simp [hon, hs]))

/-- R464: the average and the maximum, the band, and a miss counted. -/
theorem contourWindow_judges {s : State} (hon : s.sv.on = true) (hs : s.ct.samples ≠ []) : ∃ t, exec .contourWindow s = .next t ∧
    Same { regs := true, ct := true, sounds := true, seqNo := true } s t ∧
    let avg := s.ct.samples.sum / s.ct.samples.length
    let low : Prop := s.ct.mode = 2 ∧ 100 * avg < 98 * s.ct.setpoint
    let high : Prop := s.ct.mode = 2 ∧ 102 * s.ct.setpoint < 100 * avg
    t.ct.pAvg = avg ∧ t.ct.pMax = s.ct.samples.foldl max 0 ∧ t.ct.samples = [] ∧ t.ct.windows = s.ct.windows + 1 ∧
    (t.ct.underF = true ↔ low ∧ s.ct.scrubAdv = true ∧ ∀ g ∈ ballastCores s, (coreOf s g).ballast = 15) ∧
    (t.ct.overF = true ↔ high ∧ ctDuty s.ct = 4) ∧
    (low ∨ high → t.regs = (bump s 0 0xB0010).regs) ∧ (¬low → ¬high → t.regs = s.regs) := by
  obtain ⟨t, ht⟩ := exec_next .contourWindow s
  refine ⟨t, ht, execContourWindow_same ht (Same.refl _ s) rfl rfl rfl rfl, ?_⟩
  obtain rfl := Host.Outcome.next.inj (ht.symm.trans (exec_contourWindow_judges hon hs))
  intro avg low high
  have hlow : windowLow s = true ↔ low := by simp [windowLow, low, avg]
  have hhigh : windowHigh s = true ↔ high := by simp [windowHigh, high, avg]
  have hct : (if windowLow s || windowHigh s then bump (windowed s) 0 0xB0010 else windowed s).ct = (windowed s).ct := by
    split
    · exact (bump_frame ..).ct rfl
    · rfl
  rw [hct]
  refine ⟨rfl, rfl, rfl, rfl, ?_, ?_, fun hmiss => ?_, fun hnlow hnhigh => ?_⟩
  · rw [← hlow, ← fillSpent_iff]; exact Bool.and_eq_true_iff
  · rw [← hhigh]; exact Bool.and_eq_true_iff.trans (and_congr_right' decide_eq_true_iff)
  · rw [if_pos (by rw [Bool.or_eq_true, hlow, hhigh]; exact hmiss)]; exact bump_regs_congr rfl
  · rw [if_neg (by rw [Bool.or_eq_true, hlow, hhigh]; exact not_or.mpr ⟨hnlow, hnhigh⟩)]; rfl

/-- A Sounding for which its generator's buffer has room (R72). -/
theorem emitSounding_room {s : State} {die unit : Nat} (kind : Nat) (body : List Nat)
    (h : (s.sounds.filter fun x => x.die == die && x.unit == unit).length < 16) :
    ∃ r, (emitSounding s die unit kind body).sounds = s.sounds ++ [r] ∧ r.die = die ∧ r.unit = unit ∧ r.kind = kind ∧ r.body = body := by
  unfold emitSounding
  dsimp only
  rw [if_neg (by exact Nat.not_le.mpr h)]
  exact ⟨_, rfl, rfl, rfl, rfl, rfl⟩

/-- A Sounding leaves all but the records and their numbers. -/
theorem emitSounding_frame (s : State) (die unit kind : Nat) (body : List Nat) :
    Same { sounds := true, seqNo := true } s (emitSounding s die unit kind body) := emitSounding_same (Same.refl _ s) rfl rfl

/-- The first word of R469's Sounding. -/
def contourWord (s : State) : Nat :=
  s.ct.pAvg % 2 ^ 16 + 2 ^ 16 * (s.ct.pMax % 2 ^ 16) + 2 ^ 32 * (ballastMw s / 8000 % 256) + 2 ^ 40 * (s.ct.duty % 16)
    + 2 ^ 44 * b2n s.ct.underF + 2 ^ 45 * b2n s.ct.overF

theorem contourWord_fields (s : State) : bits (contourWord s) 15 0 = s.ct.pAvg % 2 ^ 16 ∧ bits (contourWord s) 31 16 = s.ct.pMax % 2 ^ 16 ∧
    bits (contourWord s) 39 32 = ballastMw s / 8000 % 256 ∧ bits (contourWord s) 43 40 = s.ct.duty % 16 ∧
    bit (contourWord s) 44 = s.ct.underF ∧ bit (contourWord s) 45 = s.ct.overF := by
  have hu := b2n_lt_two s.ct.underF
  have ho := b2n_lt_two s.ct.overF
  refine ⟨?_, ?_, ?_, ?_, bit_eq_of_b2n ?_, bit_eq_of_b2n ?_⟩ <;> (unfold contourWord; (try unfold bits); omega)

theorem contourSounding_idle {s : State} (h : s.ct.soundMs = 0 ∨ s.ct.windows < s.ct.soundMs) : exec .contourSounding s = .next s :=
  congrArg Host.Outcome.next (if_pos (by rcases h with h | h <;> simp [h]))

theorem exec_contourSounding_due {s : State} (hon : s.sv.on = true) (hms : s.ct.soundMs ≠ 0) (hw : s.ct.soundMs ≤ s.ct.windows) :
    exec .contourSounding s = .next (emitSounding (s.onCt fun c => { c with windows := 0 }) 0 63 0x30
      [contourWord s, (hottest s).2 % 2 ^ 16 + 2 ^ 16 * ((hottest s).1 % 64)]) :=
  congrArg Host.Outcome.next (if_neg (by simp [hon, hms, hw]))

/-- R469: after SOUND_MS windows one Sounding reports them. -/
theorem contourSounding_reports {s : State} (hon : s.sv.on = true) (hms : s.ct.soundMs ≠ 0) (hw : s.ct.soundMs ≤ s.ct.windows) :
    ∃ t, exec .contourSounding s = .next t ∧
    Same { ct := true, sounds := true, seqNo := true } s t ∧ t.ct = { s.ct with windows := 0 } ∧
    ((s.sounds.filter fun x => x.die == 0 && x.unit == 63).length < 16 → ∃ r w, t.sounds = s.sounds ++ [r] ∧ r.die = 0 ∧ r.unit = 63 ∧
      r.kind = 0x30 ∧ r.body = [w, (hottest s).2 % 2 ^ 16 + 2 ^ 16 * ((hottest s).1 % 64)] ∧ bits w 15 0 = s.ct.pAvg % 2 ^ 16 ∧
      bits w 31 16 = s.ct.pMax % 2 ^ 16 ∧ bits w 39 32 = ballastMw s / 8000 % 256 ∧ bits w 43 40 = s.ct.duty % 16 ∧
      bit w 44 = s.ct.underF ∧ bit w 45 = s.ct.overF) := by
  refine ⟨_, exec_contourSounding_due hon hms hw, emitSounding_same (State.onCt_same (Same.refl _ s) rfl) rfl rfl,
    (emitSounding_frame ..).ct rfl, fun hroom => ?_⟩
  obtain ⟨r, hr, hdie, hunit, hkind, hbody⟩ := emitSounding_room (s := s.onCt fun c => { c with windows := 0 }) 0x30
    [contourWord s, (hottest s).2 % 2 ^ 16 + 2 ^ 16 * ((hottest s).1 % 64)] hroom
  exact ⟨r, contourWord s, hr, hdie, hunit, hkind, hbody, contourWord_fields s⟩

/-- Settles O51: each event of power and of Contour by the state of the dies and the mode. -/
theorem contourAndEmergency : Obligations.ContourAndEmergency :=
  ⟨fun l _ => power_idle l, fun l _ => powerReport_counts l, emergency_starts, emergencyLift_ends, fun _ => contourInterval_does,
    fun _ => contourWindow_idle, fun _ => contourWindow_judges, fun _ => contourSounding_idle, fun _ => contourSounding_reports⟩

/-! Heat (R471). -/

theorem thermalReport_idle {die q : Nat} {s : State} (h : die = 1 ∨ dieUp s die = false) : exec (.thermalReport die q) s = .next s :=
  congrArg Host.Outcome.next (if_pos (by rcases h with h | h <;> simp [h]))

/-- A temperature recorded, and the Sounding of a die that rises to 100 °C. -/
def heatNoted (s : State) (die q : Nat) : State :=
  let u := s.onSv fun v => { v with temps := put v.temps die q }
  if temp s die < 400 && 400 ≤ q then emitSounding u 1 63 0x31 [q % 2 ^ 16 + 2 ^ 16 * die] else u

theorem exec_thermalReport_notes {die q : Nat} {s : State} (h1 : die ≠ 1) (hup : dieUp s die = true) :
    exec (.thermalReport die q) s = .next (if 4 * (heatNoted s die q).sv.tThrottle ≤ q then throttle (heatNoted s die q) die
      else unthrottle (heatNoted s die q) die) := congrArg Host.Outcome.next (if_neg (by simp [h1, hup]))

theorem heatNoted_is (s : State) (die q : Nat) : Same { sv := true, sounds := true, seqNo := true } s (heatNoted s die q) ∧
    (heatNoted s die q).sv = { s.sv with temps := put s.sv.temps die q } := by
  unfold heatNoted
  dsimp only
  split
  · exact ⟨emitSounding_same (State.onSv_same (Same.refl _ s) rfl) rfl rfl, (emitSounding_frame ..).sv rfl⟩
  · exact ⟨State.onSv_same (Same.refl _ s) rfl, rfl⟩

theorem heatNoted_sounds (s : State) (die q : Nat) :
    (temp s die < 400 → 400 ≤ q → (s.sounds.filter fun x => x.die == 1 && x.unit == 63).length < 16 →
      ∃ r, (heatNoted s die q).sounds = s.sounds ++ [r] ∧ r.die = 1 ∧ r.kind = 0x31 ∧ r.body = [q % 2 ^ 16 + 2 ^ 16 * die]) ∧
    (400 ≤ temp s die ∨ q < 400 → (heatNoted s die q).sounds = s.sounds) := by
  constructor
  · intro hold hnew hroom
    obtain ⟨r, hr, hdie, _, hkind, hbody⟩ := emitSounding_room (s := s.onSv fun v => { v with temps := put v.temps die q }) 0x31
      [q % 2 ^ 16 + 2 ^ 16 * die] hroom
    exact ⟨r, (congrArg State.sounds (if_pos (by simp [hold, hnew]))).trans hr, hdie, hkind, hbody⟩
  · intro h
    unfold heatNoted
    dsimp only
    rw [if_neg (by simp only [Bool.and_eq_true, decide_eq_true_eq]; omega)]
    rfl

/-- What a report does to the throttled dies: it records no other temperature, and lowers no duty. -/
theorem unthrottle_frame (s : State) (d : Nat) : Same { sv := true } s (unthrottle s d) := unthrottle_same (Same.refl _ s) rfl

theorem unthrottle_duty (s : State) (d : Nat) : thermDuty (unthrottle s d) d = thermDuty s d := by
  unfold thermDuty
  rw [unthrottle_sv]

theorem temp_put (s t : State) (die q d : Nat) (h : t.sv.temps = put s.sv.temps die q) : temp t d = if d = die then q else temp s d := by
  unfold temp look0 lookD
  rw [h, look_put]
  split <;> rfl

/-- R471: a report recorded, and what it makes of the die. -/
theorem thermalReport_records {die q : Nat} {s : State} (h1 : die ≠ 1) (hup : dieUp s die = true) : ∃ t, exec (.thermalReport die q) s = .next t ∧
    Same { tw := true, sv := true, i3c := true, sounds := true, seqNo := true } s t ∧ temp t die = q ∧ t.sv.duty = s.sv.duty ∧
    (∀ d, d ≠ die → temp t d = temp s d) ∧
    (4 * s.sv.tThrottle ≤ q → t.sv.throttled = ins s.sv.throttled die ∧ ∀ g < 64, coreDie g = die → (coreOf t g).ballast = 0) ∧
    (q < 4 * s.sv.tThrottle → t.sv.throttled = (if thermDuty s die = 16 ∧ q < 4 * (s.sv.tThrottle - 3) then s.sv.throttled.erase die
      else s.sv.throttled) ∧ t.tw = s.tw) ∧
    (temp s die < 400 → 400 ≤ q → (s.sounds.filter fun x => x.die == 1 && x.unit == 63).length < 16 →
      ∃ r, t.sounds = s.sounds ++ [r] ∧ r.die = 1 ∧ r.kind = 0x31 ∧ r.body = [q % 2 ^ 16 + 2 ^ 16 * die]) ∧
    (400 ≤ temp s die ∨ q < 400 → t.sounds = s.sounds) := by
  obtain ⟨t, ht⟩ := exec_next (.thermalReport die q) s
  refine ⟨t, ht, execThermalReport_same ht (Same.refl _ s) rfl rfl rfl rfl rfl, ?_⟩
  obtain ⟨hnoted, hsv⟩ := heatNoted_is s die q
  have hT : (heatNoted s die q).sv.tThrottle = s.sv.tThrottle := by rw [hsv]
  have hsounds := heatNoted_sounds s die q
  have hx := ht.symm.trans (exec_thermalReport_notes h1 hup)
  rw [hT] at hx
  by_cases hhot : 4 * s.sv.tThrottle ≤ q
  · obtain rfl := Host.Outcome.next.inj (hx.trans (congrArg Host.Outcome.next (if_pos hhot)))
    obtain ⟨hframe, hthr, hballast⟩ := throttle_is (heatNoted s die q) die
    have htemps : (throttle (heatNoted s die q) die).sv.temps = put s.sv.temps die q := by rw [hthr, hsv]
    rw [hframe.sounds rfl]
    refine ⟨(temp_put s _ die q die htemps).trans (if_pos rfl), by rw [hthr, hsv], fun d hd => (temp_put s _ die q d htemps).trans (if_neg hd),
      fun _ => ⟨by rw [hthr, hsv], hballast⟩, fun hcool => absurd hhot (Nat.not_le.mpr hcool), hsounds⟩
  · obtain rfl := Host.Outcome.next.inj (hx.trans (congrArg Host.Outcome.next (if_neg hhot)))
    have hframe := unthrottle_frame (heatNoted s die q) die
    have hthr := unthrottle_sv (heatNoted s die q) die
    have htemps : (unthrottle (heatNoted s die q) die).sv.temps = put s.sv.temps die q := by rw [hthr, hsv]
    have hnow : temp (heatNoted s die q) die = q := (temp_put s _ die q die (by rw [hsv])).trans (if_pos rfl)
    have hduty : thermDuty (heatNoted s die q) die = thermDuty s die := by unfold thermDuty; rw [hsv]
    rw [hframe.sounds rfl]
    refine ⟨(temp_put s _ die q die htemps).trans (if_pos rfl), by rw [hthr, hsv], fun d hd => (temp_put s _ die q d htemps).trans (if_neg hd),
      fun h => absurd h hhot, fun _ => ⟨?_, (hframe.tw rfl).trans (hnoted.tw rfl)⟩, hsounds⟩
    rw [hthr, hnow, hduty, hT, hsv]

theorem throttleStep_lowers (die : Nat) (s : State) :
    if dieUp s die = true ∧ die ∈ s.sv.throttled ∧ 4 * s.sv.tThrottle ≤ temp s die ∧ 2 < thermDuty s die then
      ∃ t, exec (.throttleStep die) s = .next t ∧ Same { regs := true, sv := true, sounds := true, seqNo := true } s t ∧
        t.sv = { s.sv with duty := put s.sv.duty die (thermDuty s die - 1) } ∧ t.regs = (bump s 1 0x12018).regs
    else exec (.throttleStep die) s = .next s := by
  split
  · next h =>
    exact ⟨_, congrArg Host.Outcome.next (if_pos (by simpa [and_assoc] using h)), bump_same (State.onSv_same (Same.refl _ s) rfl) rfl rfl rfl,
      (bump_frame ..).sv rfl, bump_regs_congr rfl⟩
  · next h => exact congrArg Host.Outcome.next (if_neg (by simpa [and_assoc] using h))

/-- A thermal duty set: 16 is held by no entry. -/
def dutyTable (s : State) (die d : Nat) : FMap Nat := if d = 16 then del s.sv.duty die else put s.sv.duty die d

theorem exec_thermalDutyRise_cool {die : Nat} {s : State}
    (h : dieUp s die = true ∧ die ∈ s.sv.throttled ∧ temp s die < 4 * (s.sv.tThrottle - 3)) :
    exec (.thermalDutyRise die) s = .next (unthrottle (s.onSv fun v => { v with duty := dutyTable s die (min 16 (thermDuty s die + 1)) }) die) :=
  congrArg Host.Outcome.next (if_pos (by simpa [and_assoc] using h))

theorem lookD_dutyTable {s : State} (die d : Nat) (hs : rising none s.sv.duty = true) : lookD (dutyTable s die d) die 16 = d := by
  unfold dutyTable
  split
  · next h => rw [h, lookD, look_del_self _ _ hs]; rfl
  · exact lookD_put_self ..

/-- R471: a throttled die that has cooled gains a sixteenth, and is throttled no longer at 16. -/
theorem thermalDutyRise_rises (die : Nat) (s : State) :
    if dieUp s die = true ∧ die ∈ s.sv.throttled ∧ temp s die < 4 * (s.sv.tThrottle - 3) then
      ∃ t, exec (.thermalDutyRise die) s = .next t ∧ Same { sv := true } s t ∧
        (rising none s.sv.duty = true → thermDuty t die = min 16 (thermDuty s die + 1)) ∧
        (rising none s.sv.duty = true → t.sv.throttled = if 15 ≤ thermDuty s die then s.sv.throttled.erase die else s.sv.throttled)
    else exec (.thermalDutyRise die) s = .next s := by
  split
  · next h =>
    let u := s.onSv fun v => { v with duty := dutyTable s die (min 16 (thermDuty s die + 1)) }
    have hsv := unthrottle_sv u die
    have hduty (hs : rising none s.sv.duty = true) : thermDuty u die = min 16 (thermDuty s die + 1) := lookD_dutyTable die _ hs
    refine ⟨_, exec_thermalDutyRise_cool h, unthrottle_same (State.onSv_same (Same.refl _ s) rfl) rfl, fun hs => ?_, fun hs => ?_⟩
    · exact (unthrottle_duty u die).trans (hduty hs)
    · rw [hsv, hduty hs]
      exact ite_eq_of_iff ⟨fun hc => by omega, fun hc => ⟨by omega, h.2.2⟩⟩ rfl rfl
  · next h => exact congrArg Host.Outcome.next (if_neg (by simpa [and_assoc] using h))

/-! The hold-up bank (R452, R473). -/

theorem setHoldup_frame (s : State) (ok : Bool) : Same { sv := true, sec := true } s (setHoldup s ok) := setHoldup_same (Same.refl _ s) rfl rfl

theorem holdupMeasure_follows (mj : Nat) (enough : Bool) (s : State) : ∃ t, exec (.holdupMeasure mj enough) s = .next t ∧
    Same { sv := true, sec := true } s t ∧
    t.sv = { s.sv with energy := mj % 2 ^ 16, holdupOk := enough && !s.sv.holdupBad } ∧
    t.sec = { s.sec with fwPaused := if s.sec.fwState = fwWriting then !t.sv.holdupOk else s.sec.fwPaused } :=
  ⟨_, rfl, setHoldup_same (State.onSv_same (Same.refl _ s) rfl) rfl rfl, rfl, rfl⟩

theorem holdupTest_fails (s : State) : ∃ t, exec (.holdupTest false) s = .next t ∧ Same { sv := true, sec := true, i3c := true } s t ∧
    t.sv.holdupBad = true ∧ t.sv.holdupOk = false ∧ srcHoldup ∈ t.sv.sticky ∧ (s.sec.fwState = fwWriting → t.sec.fwPaused = true) := by
  refine ⟨_, rfl, setHoldup_same (State.onSv_same (setSticky_same (Same.refl _ s) rfl rfl) rfl) rfl rfl, rfl, rfl, sticky_mem s srcHoldup,
    fun hw => ?_⟩
  have hstate : (setSticky s srcHoldup).sec.fwState = fwWriting := by rw [(sticky_frame s srcHoldup).sec rfl]; exact hw
  exact if_pos hstate

/-- Settles O52: each report and each step of a throttled die, and the measurements and tests of the bank. -/
theorem thermalAndHoldup : Obligations.ThermalAndHoldup :=
  ⟨fun _ _ _ => thermalReport_idle, fun _ _ _ => thermalReport_records, throttleStep_lowers, thermalDutyRise_rises, holdupMeasure_follows,
    fun s => ⟨_, congrArg Host.Outcome.next (if_pos rfl), State.onSv_same (Same.refl _ s) rfl, rfl⟩, holdupTest_fails⟩

end Sys2Proof.Machine
end

section
/-!
PROOFS. Runs of the step sequencer, starting and ending (R346 to R348).
-/

namespace Sys2Proof.Machine

open Sys2Proof

/-! SQ_RUN and SQ_STOP (R348). -/

theorem exec_sqRun_starts {h : Hdr} {n : Nat} {s : State} (hs : canStart s h = true) (hrun : s.seq.run = none) (hheld : s.seq.held = none)
    (himg : s.img.inForce ≠ none) (hwaits : runHeld s = false) : exec (.sqRun h n) s = .next (startRun s h n) := by
  refine congrArg Host.Outcome.next ((runDesc_start _ hs).trans ((if_neg ?_).trans (if_neg (by simp [hwaits]))))
  simpa [hrun, hheld] using himg

theorem exec_sqRun_held {h : Hdr} {n : Nat} {s : State} (hs : canStart s h = true) (hrun : s.seq.run = none) (hheld : s.seq.held = none)
    (himg : s.img.inForce ≠ none) (hwaits : runHeld s = true) :
    exec (.sqRun h n) s = .next ((markStarted s h).onSeq fun q => { q with held := some (h, n) }) := by
  refine congrArg Host.Outcome.next ((runDesc_start _ hs).trans ((if_neg ?_).trans (if_pos hwaits)))
  simpa [hrun, hheld] using himg

theorem exec_sqRun_refused {h : Hdr} {n : Nat} {s : State} (hs : canStart s h = true)
    (hno : s.seq.run ≠ none ∨ s.seq.held ≠ none ∨ s.img.inForce = none) :
    exec (.sqRun h n) s = .next (complete s h cmdUnit stMalformed) := by
  refine congrArg Host.Outcome.next ((runDesc_start _ hs).trans (if_pos ?_))
  simpa [or_assoc, Option.isSome_iff_ne_none] using hno

theorem exec_sqStop_asks {h : Hdr} {s : State} (hs : canStart s h = true) (hrun : s.seq.run ≠ none) :
    exec (.sqStop h) s = .next (showSeq ((markStarted s h).onSeq fun q => { q with stops := q.stops ++ [h] })) :=
  congrArg Host.Outcome.next ((runDesc_start _ hs).trans (if_neg (by simpa using hrun)))

theorem exec_sqStop_refused {h : Hdr} {s : State} (hs : canStart s h = true) (hrun : s.seq.run = none) :
    exec (.sqStop h) s = .next (complete s h cmdUnit stMalformed) :=
  congrArg Host.Outcome.next ((runDesc_start _ hs).trans (if_pos (by simp [hrun])))

/-- The state code that a stop shows. -/
theorem showSeq_stopping {s : State} (hrun : s.seq.run ≠ none) (hstops : s.seq.stops ≠ []) : (showSeq s).seq.st = 3 :=
  (if_neg (by simpa using hrun)).trans (if_pos (by simp [hstops]))

/-! STEP_END (R346, R347). -/

/-- A step's records written, and the sequencer back at the start gate, before its run ends or goes on. -/
def stepRecorded (s : State) : State :=
  (s.seq.progs.foldl (writeStepRecord (runStep s)) s).onSeq fun q =>
    { q with progs := mapVals (fun _ g => { g with st := 4 }) q.progs, lateSteps := q.lateSteps.filter (runStep s < ·), phase := 0 }

theorem exec_stepEnd {s : State} (hphase : s.seq.phase = 4) (hend : ∀ p, p ∈ s.seq.progs → p.2.st = 4) :
    exec .stepEnd s = .next (if !(stepRecorded s).seq.stops.isEmpty || (stepRecorded s).seq.left = 1 || (stepRecorded s).seq.run.isNone
      then endRun (stepRecorded s) else showSeq ((stepRecorded s).onSeq fun q => { q with left := q.left - 1 })) :=
  congrArg Host.Outcome.next (if_pos (by simpa [hphase] using fun a b hab => hend (a, b) hab))

/-- What the records leave of the run, and the tails they move. -/
theorem stepRecorded_is (s : State) :
    (stepRecorded s).seq.step = s.seq.step ∧ (stepRecorded s).seq.phase = 0 ∧ (stepRecorded s).seq.run = s.seq.run ∧
    (stepRecorded s).seq.stops = s.seq.stops ∧ (stepRecorded s).seq.left = s.seq.left ∧
    ∀ n r, ringRec s n = some r →
      (ringOf (stepRecorded s) n).tail = (ringOf s n).tail + (s.seq.progs.filter fun p => recordRing s p.1 == some n).length := by
  obtain ⟨hseq, htail⟩ := foldRecords (runStep s) s.seq.progs s
  exact ⟨(congrArg Seq.step hseq :), rfl, (congrArg Seq.run hseq :), (congrArg Seq.stops hseq :), (congrArg Seq.left hseq :), htail⟩

theorem endRun_is (s : State) : (endRun s).seq = { s.seq with run := none, stops := [], st := 0, left := 0, phase := 0 } ∧
    ∀ n, ringOf (endRun s) n = ringOf s n := by
  obtain ⟨hrings, hseq⟩ := foldl_complete_rings ((match s.seq.run with | some h => [h] | none => []) ++ s.seq.stops)
    (s.onSeq fun q => { q with run := none, stops := [], st := 0, left := 0, phase := 0 })
  exact ⟨hseq, fun n => (congrArg (fun r : FMap Ring => lookD r n {}) hrings :)⟩

/-- R346: the run that ends with its step, and the run that goes on. -/
theorem stepEnd_ends {s : State} (hphase : s.seq.phase = 4) (hend : ∀ p, p ∈ s.seq.progs → p.2.st = 4) :
    ∃ t, exec .stepEnd s = .next t ∧ t.seq.phase = 0 ∧ t.seq.step = s.seq.step ∧
      (∀ n r, ringRec s n = some r →
        (ringOf t n).tail = (ringOf s n).tail + (s.seq.progs.filter fun p => recordRing s p.1 == some n).length) ∧
      (s.seq.stops ≠ [] ∨ s.seq.left = 1 ∨ s.seq.run = none → t.seq.run = none ∧ t.seq.stops = []) ∧
      (s.seq.stops = [] → s.seq.left ≠ 1 → s.seq.run ≠ none → t.seq.run = s.seq.run ∧ t.seq.left = s.seq.left - 1) := by
  obtain ⟨hstep, hgate, hrun, hstops, hleft, htail⟩ := stepRecorded_is s
  have hx := exec_stepEnd hphase hend
  rw [hrun, hstops, hleft] at hx
  by_cases hlast : s.seq.stops ≠ [] ∨ s.seq.left = 1 ∨ s.seq.run = none
  · obtain ⟨hseq, hrings⟩ := endRun_is (stepRecorded s)
    refine ⟨_, hx.trans (congrArg Host.Outcome.next (if_pos (by simpa [or_assoc] using hlast))), by rw [hseq], by rw [hseq]; exact hstep,
      fun n r hr => by rw [hrings]; exact htail n r hr, fun _ => by rw [hseq]; exact ⟨rfl, rfl⟩, fun hs hl hr => ?_⟩
    rcases hlast with h | h | h
    · exact absurd hs h
    · exact absurd h hl
    · exact absurd h hr
  · exact ⟨_, hx.trans (congrArg Host.Outcome.next (if_neg (by simpa [or_assoc] using hlast))), hgate, hstep, htail, fun h => absurd h hlast,
      fun _ _ _ => ⟨hrun, congrArg (· - 1) hleft⟩⟩

/-- Settles O22: a run started, held or refused, a stop, and the end of a step. -/
theorem runsStartAndEnd : Obligations.RunsStartAndEnd :=
  ⟨fun _ _ s hs hrun hheld himg hw => ⟨_, exec_sqRun_starts hs hrun hheld himg hw, rfl, rfl, rfl, rfl, rfl, startRun_same (Same.refl _ s) rfl rfl⟩,
    fun _ _ _ hs hrun hheld himg hw => ⟨_, exec_sqRun_held hs hrun hheld himg hw, rfl, rfl⟩,
    fun h _ s hs hno => ⟨_, exec_sqRun_refused hs hno, ends_complete h _ _ rfl, rfl⟩,
    fun _ _ hs hrun => ⟨_, exec_sqStop_asks hs hrun, rfl, rfl, showSeq_stopping hrun (by simp), rfl⟩,
    fun h s hs hrun => ⟨_, exec_sqStop_refused hs hrun, ends_complete h _ _ rfl, rfl⟩,
    fun _ => stepEnd_ends⟩

end Sys2Proof.Machine
end

section
/-!
PROOFS. What the critical commands of family 17_security_and_update do: the forced bypass (R373) and the firmware update (R450 to R454).
-/

namespace Sys2Proof.Machine

open Sys2Proof

/-! BYPASS_FORCE and FW_UPDATE_START once R299 has accepted them (critical_accepted). -/

section
variable {s : State} {h : Hdr} {t : Trailer} {slot : Nat} {k : Key} (ha : Accepted s h t slot k)
include ha

theorem exec_bypassForceClose_refused (hself : selfAliased (acceptCounter s slot k t.counter) = true) :
    exec (.bypassForceClose h t) s = .next (complete (acceptCounter s slot k t.counter) h svUnit stMalformed) :=
  congrArg Host.Outcome.next ((critical_accepted _ ha).trans (if_pos hself))

theorem exec_bypassForceClose_closes (hself : selfAliased (acceptCounter s slot k t.counter) = false) :
    exec (.bypassForceClose h t) s = .next (complete (addCause (acceptCounter s slot k t.counter) causeForce) h svUnit stDone) :=
  congrArg Host.Outcome.next ((critical_accepted _ ha).trans (if_neg (by simp [hself])))

theorem exec_bypassForceRelease_refused (hself : selfAliased (acceptCounter s slot k t.counter) = true) :
    exec (.bypassForceRelease h t) s = .next (complete (acceptCounter s slot k t.counter) h svUnit stMalformed) :=
  congrArg Host.Outcome.next ((critical_accepted _ ha).trans (if_pos hself))

end

/-- The forced bypass closed. -/
theorem forcedClose_is (b : State) : (addCause b causeForce).qm = b.qm ∧ causeForce ∈ (addCause b causeForce).rings.causes ∧
    ∀ d, 34 ≤ d → d ≤ 37 → (rport (addCause b causeForce) d).st = pBypassed := by
  obtain ⟨hcause, _, hports⟩ := cause_is b causeForce
  refine ⟨(addCause_same (Same.refl { pkg := true, rings := true } b) rfl rfl).qm rfl, hcause, fun d hlo hhi => ?_⟩
  obtain ⟨dim, hdim, hd⟩ := isRing_mem_dimDies (d := d) (by simp [isRing]; omega)
  rw [← causeDims_package (cause := causeForce) (by decide)] at hdim
  exact hports dim hdim d hd

theorem rport_complete (s : State) (h : Hdr) (u : UnitId) (st d : Nat) : rport (complete s h u st) d = rport s d := rfl

/-- Reading an update's source touches nothing that the update itself holds. -/
theorem sourceRead_frame {b c : State} {da n : Nat} {lost : Bool}
    (hread : (if (r21 b [(da, n)]).isSome then (false, b) else checkRead b da n) = (lost, c)) :
    Same { mem := true, regs := true, mu := true, sv := true, i3c := true, sounds := true, seqNo := true } b c := by
  split at hread
  · cases hread
    exact Same.refl _ b
  · have hsnd : (checkRead b da n).2 = c := congrArg Prod.snd hread
    exact hsnd ▸ checkRead_same (Same.refl _ b) rfl rfl rfl rfl rfl rfl rfl

/-- The forced bypass released. -/
def forceReleased (s : State) : State := (dropCause s causeForce).onRings fun g => { g with released := true }

/-- A release that waits for the dimensions to open. -/
def releaseAwaited (s : State) (h : Hdr) : State := (markStarted (forceReleased s) h).onRings fun g => { g with waitRelease := some h }

/-- A firmware update that R450 refuses. -/
def updateRefused (s : State) (h : Hdr) (st why : Nat) : State := complete (s.onSec fun x => { x with fwReason := why }) h cmdUnit st

section
variable {s : State} {h : Hdr} {t : Trailer} {slot : Nat} {k : Key} (ha : Accepted s h t slot k)
include ha

theorem exec_bypassForceRelease_releases (hself : selfAliased (acceptCounter s slot k t.counter) = false) :
    exec (.bypassForceRelease h t) s = .next (if dimWaiting (forceReleased (acceptCounter s slot k t.counter))
      then releaseAwaited (acceptCounter s slot k t.counter) h else complete (forceReleased (acceptCounter s slot k t.counter)) h svUnit stDone) :=
  congrArg Host.Outcome.next ((critical_accepted _ ha).trans (if_neg (by simp [hself])))

theorem exec_fwUpdateStart_first {da n : Nat} {lost : Bool} {c : State} (bad : Bool) (hfirst : s.sec.fwHdr ≠ some h)
    (hread : (if (r21 (acceptCounter s slot k t.counter) [(da, n)]).isSome then (false, acceptCounter s slot k t.counter)
      else checkRead (acceptCounter s slot k t.counter) da n) = (lost, c)) :
    exec (.fwUpdateStart h t da n bad) s = .next (match fwRefusal c da n lost with
      | some (st, why) => updateRefused c h st why
      | none => beginUpdate c h da n) := by
  refine congrArg Host.Outcome.next ((if_neg hfirst).trans ((critical_accepted _ ha).trans ?_))
  rw [hread]
  rfl

/-- R373: CLOSE closes both dimensions. -/
theorem bypassForceClose_closes (hself : selfAliased (acceptCounter s slot k t.counter) = false) :
    ∃ u, exec (.bypassForceClose h t) s = .next u ∧ Ends (acceptCounter s slot k t.counter) u h svUnit stDone ∧ causeForce ∈ u.rings.causes ∧
      ∀ d, 34 ≤ d → d ≤ 37 → (rport u d).st = pBypassed := by
  have hx := exec_bypassForceClose_closes ha hself
  generalize acceptCounter s slot k t.counter = b at hx ⊢
  obtain ⟨hqm, hcause, hports⟩ := forcedClose_is b
  refine ⟨_, hx, ends_complete h svUnit stDone hqm, ?_, fun d hlo hhi => ?_⟩
  · rw [complete_rings]
    exact hcause
  · rw [rport_complete]
    exact hports d hlo hhi

/-- R373: RELEASE waits while a dimension may still open. -/
theorem bypassForceRelease_releases (hself : selfAliased (acceptCounter s slot k t.counter) = false) :
    ∃ u, exec (.bypassForceRelease h t) s = .next u ∧ u.rings.causes = (acceptCounter s slot k t.counter).rings.causes.erase causeForce ∧
      u.rings.released = true ∧
      (dimWaiting u = true → u.rings.waitRelease = some h ∧ u.qm.cpls = (acceptCounter s slot k t.counter).qm.cpls) ∧
      (dimWaiting u = false → Ends (acceptCounter s slot k t.counter) u h svUnit stDone) := by
  have hx := exec_bypassForceRelease_releases ha hself
  generalize acceptCounter s slot k t.counter = b at hx ⊢
  by_cases hw : dimWaiting (forceReleased b) = true
  · have hsame : dimWaiting (releaseAwaited b h) = dimWaiting (forceReleased b) := rfl
    exact ⟨_, hx.trans (congrArg Host.Outcome.next (if_pos hw)), rfl, rfl, fun _ => ⟨rfl, rfl⟩, fun hno => by simp [hsame, hw] at hno⟩
  · have hsame : dimWaiting (complete (forceReleased b) h svUnit stDone) = dimWaiting (forceReleased b) := rfl
    exact ⟨_, hx.trans (congrArg Host.Outcome.next (if_neg hw)), rfl, rfl, fun hno => absurd (hsame ▸ hno) hw, fun _ => ends_complete _ _ _ rfl⟩

/-- R450 and step 1 of R451: an update refused, or WRITING begun. -/
theorem fwUpdateStart_first {da n : Nat} {lost : Bool} {c : State} (bad : Bool) (hfirst : s.sec.fwHdr ≠ some h)
    (hread : (if (r21 (acceptCounter s slot k t.counter) [(da, n)]).isSome then (false, acceptCounter s slot k t.counter)
      else checkRead (acceptCounter s slot k t.counter) da n) = (lost, c)) :
    ∃ u, exec (.fwUpdateStart h t da n bad) s = .next u ∧
      match fwRefusal c da n lost with
      | some (st, why) => Ends c u h cmdUnit st ∧ c.qm = (acceptCounter s slot k t.counter).qm ∧
          u.sec = { (acceptCounter s slot k t.counter).sec with fwReason := why }
      | none => u.qm.cpls = (acceptCounter s slot k t.counter).qm.cpls ∧ u.sec.fwState = fwWriting ∧ u.sec.fwReason = 0 ∧
          u.sec.fwJournal = some (acceptCounter s slot k t.counter).sec.fwImage ∧
          u.sec.fwImage = (acceptCounter s slot k t.counter).sec.fwImage ∧ u.sec.fwHdr = some h := by
  have hx := exec_fwUpdateStart_first ha bad hfirst hread
  have hc := sourceRead_frame hread
  have hqm := hc.qm rfl
  have hsec := hc.sec rfl
  cases hno : fwRefusal c da n lost with
  | some x =>
    rw [hno] at hx
    exact ⟨_, hx, ends_complete _ _ _ rfl, hqm, congrArg (fun y : Security => { y with fwReason := x.2 }) hsec⟩
  | none =>
    rw [hno] at hx
    exact ⟨_, hx, (congrArg Qm.cpls hqm :), rfl, rfl, (congrArg (fun x : Security => some x.fwImage) hsec :),
      (congrArg Security.fwImage hsec :), rfl⟩

end

/-! An update that writes, run again or interrupted (R451, R452). -/

/-- Steps 2 to 4 of R451: the new image programmed over the old one. -/
def fwProgrammed (s : State) (da n : Nat) : State :=
  s.onSec fun x => { x with fwBlocks := fwDiffer x.fwImage (srcBytes s da n), fwImage := srcBytes s da n, fwWaiter := none, fwHdr := none }

theorem fwProgrammed_qm (s : State) (da n : Nat) : (fwProgrammed s da n).qm = s.qm := by
  rw [fwProgrammed, State.onSec_qm]

theorem fwProgrammed_journal (s : State) (da n : Nat) : (fwProgrammed s da n).sec.fwJournal = s.sec.fwJournal := by
  rw [fwProgrammed, State.onSec_sec]

/-- A good readback: TRIAL, with a warm reset due. -/
def fwTried (s : State) (da n : Nat) : State := (fwProgrammed s da n).onSec fun x => { x with fwState := fwTrial, confirmed := false, trial := 0 }

theorem fwTried_is (s : State) (da n : Nat) : (fwTried s da n).qm = s.qm ∧ (fwTried s da n).sec.fwState = fwTrial ∧
    (fwTried s da n).sec.fwImage = srcBytes s da n :=
  ⟨(State.onSec_qm ..).trans (State.onSec_qm ..), rfl, rfl⟩

/-- The end of an update that is tried: its record, and the warm reset asked for. -/
theorem trialDue_is (s : State) (h : Hdr) : Ends s (requestWarm (complete s h cmdUnit stDone) 9) h cmdUnit stDone ∧
    (requestWarm (complete s h cmdUnit stDone) 9).sec = s.sec ∧ 9 ∈ (requestWarm (complete s h cmdUnit stDone) 9).sv.warmReqs :=
  ⟨ends_congr (ends_complete h cmdUnit stDone rfl) rfl, rfl, ins_self _ 9⟩

theorem finishUpdate_trial {s : State} {h : Hdr} (hwaits : s.sec.fwWaiter = some h) (da n : Nat) :
    finishUpdate s h da n false = requestWarm (complete (fwTried s da n) h cmdUnit stDone) 9 := by
  have hdone : (if s.sec.fwWaiter = some h then complete (fwTried s da n) h cmdUnit stDone else fwTried s da n) = _ := if_pos hwaits
  rw [← hdone]
  rfl

/-- A bad readback: the old image restored, REASON 0x0A. -/
def fwUnread (s : State) (da n : Nat) : State := (fwProgrammed s da n).took.onSec fun x => { x with fwReason := 0x0A }

theorem fwUnread_is (s : State) (da n : Nat) : (fwUnread s da n).qm = s.qm ∧ (fwUnread s da n).sec.fwJournal = s.sec.fwJournal ∧
    (fwUnread s da n).sec.fwReason = 0x0A :=
  ⟨by rw [fwUnread, State.onSec_qm, State.took, State.onFree_qm, fwProgrammed_qm],
    by rw [fwUnread, State.onSec_sec, State.took, State.onFree_sec, fwProgrammed_journal], by rw [fwUnread, State.onSec_sec]⟩

theorem finishUpdate_restores {s : State} {h : Hdr} (hwaits : s.sec.fwWaiter = some h) (da n : Nat) :
    finishUpdate s h da n true =
      complete (restoreFw (fwUnread s da n) (fresh (fwProgrammed s da n) % 2 == 1)) h cmdUnit stMalformed := if_pos hwaits

section
variable {s : State} {h : Hdr} (hhdr : s.sec.fwHdr = some h) (hwaits : s.sec.fwWaiter = some h) (hruns : s.sec.fwPaused = false)
include hhdr hwaits hruns

theorem exec_fwUpdateStart_trial (t : Trailer) (da n : Nat) : exec (.fwUpdateStart h t da n false) s =
    .next (requestWarm (complete (fwTried s da n) h cmdUnit stDone) 9) :=
  congrArg Host.Outcome.next ((if_pos hhdr).trans ((if_neg (by simp [hruns])).trans (finishUpdate_trial hwaits da n)))

theorem exec_fwUpdateStart_restores (t : Trailer) (da n : Nat) : exec (.fwUpdateStart h t da n true) s =
    .next (complete (restoreFw (fwUnread s da n) (fresh (fwProgrammed s da n) % 2 == 1)) h cmdUnit stMalformed) :=
  congrArg Host.Outcome.next ((if_pos hhdr).trans ((if_neg (by simp [hruns])).trans (finishUpdate_restores hwaits da n)))

end

/-- R451 step 5: a bad readback restores the old image. -/
theorem fwUpdateStart_restores {h : Hdr} {s : State} {old : List Byte} (t : Trailer) (da n : Nat) (hhdr : s.sec.fwHdr = some h)
    (hwaits : s.sec.fwWaiter = some h) (hruns : s.sec.fwPaused = false) (hold : s.sec.fwJournal = some old) :
    ∃ u, exec (.fwUpdateStart h t da n true) s = .next u ∧ Ends s u h cmdUnit stMalformed ∧ u.sec.fwImage = old ∧ u.sec.fwReason = 0x0A ∧
      u.sec.fwJournal = none := by
  obtain ⟨hsame, hkept, hwhy⟩ := fwUnread_is s da n
  obtain ⟨hqm, himage, hreason, hjournal, _⟩ := restoreFw_is (fresh (fwProgrammed s da n) % 2 == 1) (hkept.trans hold)
  exact ⟨_, exec_fwUpdateStart_restores hhdr hwaits hruns t da n, ends_complete h cmdUnit stMalformed (hqm.trans hsame), himage,
    hreason.trans hwhy, hjournal⟩

theorem exec_holdupWaitExpiry_restores {h : Hdr} {s : State} (ok : Bool) (hwrites : s.sec.fwState = fwWriting) (hpaused : s.sec.fwPaused = true)
    (hwaits : s.sec.fwWaiter = some h) : exec (.holdupWaitExpiry ok) s =
    .next (complete (restoreFw (s.onSec fun c => { c with fwReason := 0x02, fwWaiter := none }) ok) h cmdUnit stMalformed) := by
  refine congrArg Host.Outcome.next ((if_pos (by simp [hwrites, hpaused])).trans ?_)
  rw [hwaits]

/-- R452: a paused update whose wait expires. -/
theorem holdupWaitExpiry_restores {h : Hdr} {s : State} {old : List Byte} (ok : Bool) (hwrites : s.sec.fwState = fwWriting)
    (hpaused : s.sec.fwPaused = true) (hwaits : s.sec.fwWaiter = some h) (hold : s.sec.fwJournal = some old) :
    ∃ u, exec (.holdupWaitExpiry ok) s = .next u ∧ Ends s u h cmdUnit stMalformed ∧ u.sec.fwImage = old ∧ u.sec.fwReason = 0x02 ∧
      u.sec.fwState = (if ok then fwFallback else fwNone) := by
  obtain ⟨hqm, himage, hreason, _, hstate⟩ := restoreFw_is (s := s.onSec fun c => { c with fwReason := 0x02, fwWaiter := none }) ok hold
  exact ⟨_, exec_holdupWaitExpiry_restores ok hwrites hpaused hwaits, ends_complete _ _ _ hqm, himage, hreason, hstate⟩

/-! FW_CONFIRM (R453). -/

/-- The trial that R453 lets a firmware confirm. -/
theorem exec_fwConfirm (a : Agent) (v : Word64) (s : State) : exec (.fwConfirm a v) s =
    .next (if a = .mMode ∧ bit v.toNat 0 = true ∧ 3 ≤ s.sec.fwSteps ∧ s.sec.fwState = fwTrial ∧ s.sec.trial < 120000000000
      then confirmFw s else s) :=
  congrArg Host.Outcome.next (if_congr (by simp [and_assoc]) rfl rfl)

/-- A trial committed, the floor apart. -/
theorem confirmFw_commits (s : State) : (confirmFw s).sec.fwState = fwCommitted ∧ (confirmFw s).sec.confirmed = true ∧
    (confirmFw s).sec.fwJournal = none ∧ (s.sec.fwRaise = true → fwFloor (confirmFw s) = s.sec.fwVersion % 2 ^ 32) := by
  unfold confirmFw
  dsimp only
  split
  · next hraise =>
    refine ⟨rfl, rfl, rfl, fun _ => ?_⟩
    unfold fwFloor almNum
    rw [almGet_append _ _ _ _ (by decide)]
    exact ofLe_leBytes ..
  · next hraise => exact ⟨rfl, rfl, rfl, fun h => absurd h hraise⟩

/-- Settles O26: the two forced bypasses, an update begun, ended or interrupted, and its confirmation. -/
theorem bypassAndFirmware : Obligations.BypassAndFirmware := by
  refine ⟨fun h t s slot k ha => ⟨fun hself => ⟨bypassForceClose_closes ha hself, bypassForceRelease_releases ha hself⟩,
      fun hself i hi => ?aliased, fun da n bad lost c => fwUpdateStart_first ha bad⟩,
    fun h t da n s hhdr hwaits hruns => ⟨?trial, fun old => fwUpdateStart_restores t da n hhdr hwaits hruns⟩,
    fun ok h s old => holdupWaitExpiry_restores ok, fun a v s => ⟨fun hc => ?confirms, fun hno => ?discards⟩⟩
  case aliased =>
    rcases hi with rfl | rfl
    · exact ⟨_, exec_bypassForceClose_refused ha hself, ends_complete _ _ _ rfl, rfl⟩
    · exact ⟨_, exec_bypassForceRelease_refused ha hself, ends_complete _ _ _ rfl, rfl⟩
  case trial =>
    obtain ⟨hends, hsec, hwarm⟩ := trialDue_is (fwTried s da n) h
    obtain ⟨hqm, hstate, himage⟩ := fwTried_is s da n
    exact ⟨_, exec_fwUpdateStart_trial hhdr hwaits hruns t da n, ends_congr_left hends hqm, hsec ▸ hstate, hsec ▸ himage, hwarm⟩
  case confirms => exact ⟨_, (exec_fwConfirm a v s).trans (congrArg Host.Outcome.next (if_pos hc)), confirmFw_commits s⟩
  case discards =>
    refine (exec_fwConfirm a v s).trans (congrArg Host.Outcome.next (if_neg ?_))
    rintro ⟨ha, hv, hsteps, hstate, htrial⟩
    rcases hno with hno | hno | hno | hno | hno
    · exact hno ha
    · exact Bool.noConfusion (hno.symm.trans hv)
    · omega
    · exact hno hstate
    · omega

end Sys2Proof.Machine
end

section
/-!
PROOFS. What the security engine's own operations do (R442 to R446): keys, the owner, and the quote.
-/

namespace Sys2Proof.Machine

open Sys2Proof

/-! What the security engine holds depends on its own state. -/

theorem ownerKey_congr {a b : State} (h : a.sec = b.sec) : ownerKey a = ownerKey b := almGet_congr (congrArg Security.almanac h) almOwner 1

theorem agreeCtr_congr {a b : State} (h : a.sec = b.sec) : agreeCtr a = agreeCtr b := by
  unfold agreeCtr almNum
  rw [almGet_congr (congrArg Security.almanac h)]

/-- The checks that KEY_AGREE and a later OWNER_SET end with: the owner's signature, then AGREE_CTR (R443, R444). -/
def signedOp (b : State) (h : Hdr) (key msg sig : List Byte) (ctr : Nat) (done : State) : State :=
  if !Config.slhVerify key msg sig then complete b h cmdUnit stAuth
  else if ctr ≤ agreeCtr b then complete b h cmdUnit stReplay
  else done

theorem signedOp_decides {s b done : State} {h : Hdr} {P : State → Prop} (key msg sig : List Byte) (ctr : Nat) (hqm : b.qm = s.qm)
    (hsec : b.sec = s.sec) (hdone : P done) :
    if Config.slhVerify key msg sig = false then Ends s (signedOp b h key msg sig ctr done) h cmdUnit stAuth ∧
      (signedOp b h key msg sig ctr done).sec = s.sec
    else if ctr ≤ agreeCtr s then Ends s (signedOp b h key msg sig ctr done) h cmdUnit stReplay ∧
      (signedOp b h key msg sig ctr done).sec = s.sec
    else P (signedOp b h key msg sig ctr done) := by
  unfold signedOp
  rw [agreeCtr_congr hsec]
  by_cases hsig : Config.slhVerify key msg sig = false
  · rw [if_pos hsig, if_pos (by simp [hsig])]
    exact ⟨ends_complete h cmdUnit stAuth hqm, hsec⟩
  rw [if_neg hsig, if_neg (c := (!Config.slhVerify key msg sig) = true) (by simpa using hsig)]
  by_cases hctr : ctr ≤ agreeCtr s
  · rw [if_pos hctr, if_pos hctr]
    exact ⟨ends_complete h cmdUnit stReplay hqm, hsec⟩
  · rw [if_neg hctr, if_neg hctr]
    exact hdone

/-! KEY_AGREE and KEY_RETIRE (R444, R445). -/

/-- The message that a KEY_AGREE's signature covers. -/
def agreeMsg (b : State) (slot num ctr ctDa : Nat) : List Byte :=
  Config.sha256 (b.sec.deviceId ++ leBytes 8 ctr ++ leBytes 4 num ++ leBytes 1 slot ++ Config.sha256 (readBytes b.mem ctDa 1088))

/-- The key that a KEY_AGREE agrees. -/
def agreedKey (b : State) (num ctDa : Nat) : Key :=
  { num := num, active := true, exhausted := false, last := 0,
    secret := Config.kemSecret (agreementSecret ++ readBytes b.mem ctDa 1088 ++ b.sec.deviceId ++ leBytes 4 num) }

/-- A key agreed: its counter recorded, its slot filled. -/
def keyAgreed (b : State) (slot num ctr ctDa : Nat) : State :=
  (appendAlm b almAgreeCtr 1 (leBytes 8 ctr)).onSec fun c => { c with keys := put c.keys slot (agreedKey b num ctDa) }

/-- R444's outcome where every check passes. -/
def KeyAgreed (s t : State) (h : Hdr) (slot num ctr : Nat) : Prop :=
  Ends s t h cmdUnit stDone ∧ agreeCtr t = ctr % 2 ^ 64 ∧ (∀ j, j ≠ slot → look t.sec.keys j = look s.sec.keys j) ∧
  ∃ x, look t.sec.keys slot = some { num := num, active := true, exhausted := false, last := 0, secret := x }

theorem keyAgreed_is {s b : State} {h : Hdr} {slot ctr : Nat} (num ctDa : Nat) (hqm : b.qm = s.qm) (hsec : b.sec = s.sec) :
    KeyAgreed s (complete (keyAgreed b slot num ctr ctDa) h cmdUnit stDone) h slot num ctr :=
  ⟨ends_complete h cmdUnit stDone hqm, agreeCtr_append b ctr, fun j hj => (look_put_ne _ slot j _ hj).trans (by rw [← hsec]; rfl),
    _, look_put_self ..⟩

/-- A KEY_NUM that KEY_AGREE cannot take. -/
def KeyNumTaken (s : State) (slot num : Nat) : Prop := num = 0 ∨ ∃ p, p ∈ s.sec.keys ∧ p.1 ≠ slot ∧ p.2.active = true ∧ p.2.num = num

theorem keyNumTaken_iff {s : State} {slot num : Nat} : KeyNumTaken s slot num ↔
    (num = 0 || s.sec.keys.any fun p => p.1 != slot && p.2.active && p.2.num == num) = true := by
  simp [KeyNumTaken, and_assoc]

section
variable {s b : State} {h : Hdr} {ctDa sigDa : Nat} (hs : canStart s h = true)
  (hread : readOperands s h [(ctDa, 1088), (sigDa, 16224)] = .inr b)
include hs hread

theorem exec_keyAgree (slot num ctr : Nat) : exec (.keyAgree h slot num ctr ctDa sigDa) s = .next
    (if num = 0 || b.sec.keys.any (fun p => p.1 != slot && p.2.active && p.2.num == num) then complete b h cmdUnit stMalformed
    else match ownerKey b with
      | none => complete b h cmdUnit stAuth
      | some k => signedOp b h k (agreeMsg b slot num ctr ctDa) (readBytes b.mem sigDa 16224) ctr
          (complete (keyAgreed b slot num ctr ctDa) h cmdUnit stDone)) := by
  refine congrArg Host.Outcome.next ((runDesc_start _ hs).trans ?_)
  rw [hread]
  rfl

/-- R444's table. -/
theorem keyAgree_decides (slot num ctr : Nat) : ∃ t, exec (.keyAgree h slot num ctr ctDa sigDa) s = .next t ∧
    (KeyNumTaken s slot num → Ends s t h cmdUnit stMalformed ∧ t.sec = s.sec) ∧
    (num ≠ 0 → (∀ p, p ∈ s.sec.keys → p.1 ≠ slot → p.2.active = true → p.2.num ≠ num) →
      (ownerKey s = none → Ends s t h cmdUnit stAuth ∧ t.sec = s.sec) ∧
      (∀ k, ownerKey s = some k →
        if Config.slhVerify k (agreeMsg b slot num ctr ctDa) (readBytes b.mem sigDa 16224) = false then Ends s t h cmdUnit stAuth ∧ t.sec = s.sec
        else if ctr ≤ agreeCtr s then Ends s t h cmdUnit stReplay ∧ t.sec = s.sec
        else KeyAgreed s t h slot num ctr)) := by
  have hframe := readOperands_is hread
  have hqm : b.qm = s.qm := hframe.qm rfl
  have hsec : b.sec = s.sec := hframe.sec rfl
  have hx := exec_keyAgree hs hread slot num ctr
  rw [ownerKey_congr hsec, hsec] at hx
  by_cases htaken : KeyNumTaken s slot num
  · rw [if_pos (keyNumTaken_iff.mp htaken)] at hx
    refine ⟨_, hx, fun _ => ⟨ends_complete h cmdUnit stMalformed hqm, hsec⟩, fun hnum hfree => ?_⟩
    rcases htaken with h0 | ⟨p, hp, hslot, hact, hsame⟩
    · exact absurd h0 hnum
    · exact absurd hsame (hfree p hp hslot hact)
  rw [if_neg (fun hc => htaken (keyNumTaken_iff.mpr hc))] at hx
  cases howner : ownerKey s with
  | none =>
    rw [howner] at hx
    exact ⟨_, hx, fun ht => absurd ht htaken, fun _ _ => ⟨fun _ => ⟨ends_complete h cmdUnit stAuth hqm, hsec⟩, nofun⟩⟩
  | some k =>
    rw [howner] at hx
    refine ⟨_, hx, fun ht => absurd ht htaken, fun _ _ => ⟨nofun, ?_⟩⟩
    rintro _ ⟨⟩
    exact signedOp_decides (P := (KeyAgreed s · h slot num ctr)) k _ _ ctr hqm hsec (keyAgreed_is num ctDa hqm hsec)

end

theorem exec_keyRetire {h : Hdr} {s : State} (hs : canStart s h = true) (slot : Nat) :
    exec (.keyRetire h slot) s = .next (complete (emptySlot s slot) h cmdUnit stDone) := congrArg Host.Outcome.next (runDesc_start _ hs)

/-! OWNER_SET (R443). -/

/-- An owner installed: its key and AGREE_CTR recorded, the owner lock cleared, every key slot emptied. -/
def ownerInstalled (b : State) (key : List Byte) (ctr : Nat) : State :=
  (appendAlm (appendAlm (appendAlm b almOwner 1 key) almAgreeCtr 1 (leBytes 8 ctr)) almLocks 1 [0]).onSec fun c => { c with keys := [] }

/-- The operands of an OWNER_SET: a later one's signature with its key. -/
def ownerOperands (s : State) (keyDa sigDa : Nat) : List Range :=
  if (ownerKey s).isSome then [(keyDa, 48), (sigDa, 16224)] else [(keyDa, 48)]

section
variable {s b : State} {h : Hdr} {keyDa sigDa : Nat} (hs : canStart s h = true) (hread : readOperands s h (ownerOperands s keyDa sigDa) = .inr b)
include hs hread

theorem exec_ownerSet (ctr : Nat) : exec (.ownerSet h keyDa sigDa ctr) s = .next
    (match ownerKey b with
      | none => complete (ownerInstalled b (readBytes b.mem keyDa 48) ctr) h cmdUnit stDone
      | some old => signedOp b h old (Config.sha256 (b.sec.deviceId ++ Config.sha256 (readBytes b.mem keyDa 48) ++ leBytes 8 ctr))
          (readBytes b.mem sigDa 16224) ctr (complete (ownerInstalled b (readBytes b.mem keyDa 48) ctr) h cmdUnit stDone)) := by
  refine congrArg Host.Outcome.next ((runDesc_start _ hs).trans ?_)
  unfold ownerOperands at hread
  dsimp only
  rw [hread]
  rfl

/-- R443: the first owner, and a later one by its table. -/
theorem ownerSet_decides (ctr : Nat) :
    let key := readBytes b.mem keyDa 48
    let msg := Config.sha256 (b.sec.deviceId ++ Config.sha256 key ++ leBytes 8 ctr)
    let installed (t : State) : Prop :=
      Ends s t h cmdUnit stDone ∧ ownerKey t = some key ∧ t.sec.keys = [] ∧ ownerLock t = false ∧ agreeCtr t = ctr % 2 ^ 64
    ∃ t, exec (.ownerSet h keyDa sigDa ctr) s = .next t ∧
      (ownerKey s = none → installed t) ∧
      (∀ k, ownerKey s = some k →
        if Config.slhVerify k msg (readBytes b.mem sigDa 16224) = false then Ends s t h cmdUnit stAuth ∧ t.sec = s.sec
        else if ctr ≤ agreeCtr s then Ends s t h cmdUnit stReplay ∧ t.sec = s.sec
        else installed t) := by
  intro key msg installed
  have hframe := readOperands_is hread
  have hqm : b.qm = s.qm := hframe.qm rfl
  have hsec : b.sec = s.sec := hframe.sec rfl
  have hx := exec_ownerSet hs hread ctr
  rw [ownerKey_congr hsec] at hx
  have hinstalled : installed (complete (ownerInstalled b key ctr) h cmdUnit stDone) :=
    ⟨ends_complete h cmdUnit stDone hqm, install_is b key ctr h _ rfl⟩
  cases howner : ownerKey s with
  | none =>
    rw [howner] at hx
    exact ⟨_, hx, fun _ => hinstalled, nofun⟩
  | some k =>
    rw [howner] at hx
    refine ⟨_, hx, fun hno => absurd hno (Option.some_ne_none k), ?_⟩
    rintro _ ⟨⟩
    exact signedOp_decides k msg _ ctr hqm hsec hinstalled

end

/-! QUOTE (R446). -/

/-- The length of a quote. -/
def quoteLen (cert : Bool) : Nat := if cert = true then 34912 else 18528

theorem exec_quote_writes {h : Hdr} {da len : Nat} {cert : Bool} {s : State} (nonce : List Byte) (hs : canStart s h = true) (hext : 1 ≤ h.ext)
    (hlen : quoteLen cert ≤ len) (hout : checkOut s h [(da, quoteLen cert)] = none) :
    exec (.quote h da len cert nonce) s = .next (finish s (writeMem s da (quoteBytes s cert nonce)) h cmdUnit stDone) := by
  refine congrArg Host.Outcome.next ((runDesc_start _ hs).trans ((if_neg ?_).trans ?_))
  · simpa [slotShort] using ⟨Nat.one_le_iff_ne_zero.mp hext, hlen⟩
  · exact congrArg (fun o : Option Nat => match o with
      | some st => complete s h cmdUnit st
      | none => finish s (writeMem s da (quoteBytes s cert nonce)) h cmdUnit stDone) hout

theorem exec_quote_malformed {h : Hdr} {da len : Nat} {cert : Bool} {s : State} (nonce : List Byte) (hs : canStart s h = true)
    (hbad : h.ext = 0 ∨ len < quoteLen cert) : exec (.quote h da len cert nonce) s = .next (complete s h cmdUnit stMalformed) :=
  congrArg Host.Outcome.next ((runDesc_start _ hs).trans (if_pos (by simpa [slotShort, quoteLen] using hbad)))

/-- R446: the record is stored at OUT_DA and nowhere else. -/
theorem quote_writes {h : Hdr} {da len : Nat} {cert : Bool} {s : State} (nonce : List Byte) (hs : canStart s h = true) (hext : 1 ≤ h.ext)
    (hlen : quoteLen cert ≤ len) (hout : checkOut s h [(da, quoteLen cert)] = none) (hm : MemOk s) (hnear : da < farBase) :
    ∃ t, exec (.quote h da len cert nonce) s = .next t ∧ Ends s t h cmdUnit stDone ∧ Stored s t da (quoteBytes s cert nonce) ∧
      (quoteBytes s cert nonce).length = quoteLen cert := by
  have hcount : (quoteBytes s cert nonce).length = quoteLen cert := quoteBytes_length ..
  have hne : quoteBytes s cert nonce ≠ [] := List.ne_nil_of_length_pos (by rw [hcount]; cases cert <;> decide)
  have hstored := stored_writeMem hm hne hnear
  have hqm : (writeMem s da (quoteBytes s cert nonce)).qm = s.qm := by rw [writeMem_store hne hnear]; exact storeMem_qm ..
  refine ⟨_, exec_quote_writes nonce hs hext hlen hout, ?_, stored_congr hstored (finish_mem ..), hcount⟩
  rw [finish_posted h cmdUnit stDone hstored.posted]
  exact ends_complete h cmdUnit stDone hqm

/-- Settles O27: each operation by its table, over the state its operands leave (readOperands_is). -/
theorem keysOwnerAndQuote : Obligations.KeysOwnerAndQuote :=
  ⟨fun _ slot num ctr _ _ _ _ hs hread => keyAgree_decides hs hread slot num ctr,
    fun h slot _ hs => ⟨_, exec_keyRetire hs slot, ends_complete h cmdUnit stDone rfl, rfl⟩,
    fun _ _ _ ctr _ _ hs hread => ownerSet_decides hs hread ctr,
    fun _ _ _ _ nonce _ hs hext hlen hout hm hnear => quote_writes nonce hs hext hlen hout hm hnear,
    fun _ _ _ _ nonce _ hs hbad => exec_completes (exec_quote_malformed nonce hs hbad)⟩

end Sys2Proof.Machine
end

section
/-!
PROOFS. Tokens and the steps of the devices (R377 to R381).
-/

namespace Sys2Proof.Machine

open Sys2Proof

/-! SENT and OPEN (R377). -/

/-- The highest step held once one more comes. -/
def heldStep (step : Nat) (o : Option Nat) : Option Nat := match o with | some x => some (max x step) | none => some step

theorem heldStep_eq (step : Nat) (o : Option Nat) : heldStep step o = some (match o with | some x => max x step | none => step) := by
  cases o <;> rfl

/-- A device's entry once a token of it comes: LIVE unless ALIASED, and the step held. -/
def heardPeer (step : Nat) (open_ : Bool) (p : Peer) : Peer :=
  let p := if p.st = peerAliased then p else { p with st := peerLive }
  if open_ then { p with opened := heldStep step p.opened } else { p with sent := heldStep step p.sent }

theorem applyStep_undefined {s : State} {dev : Nat} (step : Nat) (b : Bool) (hdev : (devRec s dev).isNone = true) :
    applyStep s dev step b = s := if_pos hdev

theorem applyStep_defined {s : State} {dev : Nat} (step : Nat) (b : Bool) (hdev : ¬(devRec s dev).isNone = true) :
    applyStep s dev step b = setPeer s dev (heardPeer step b) := if_neg hdev

theorem heardPeer_st (step : Nat) (b : Bool) (p : Peer) : (heardPeer step b p).st = if p.st = 4 then 4 else 1 := by
  by_cases h : p.st = 4 <;> cases b <;> simp [heardPeer, h]

theorem heardPeer_sent (step : Nat) (p : Peer) : (heardPeer step false p).sent = heldStep step p.sent ∧
    (heardPeer step false p).opened = p.opened := by
  by_cases h : p.st = 4 <;> simp [heardPeer, h]

theorem heardPeer_opened (step : Nat) (p : Peer) : (heardPeer step true p).opened = heldStep step p.opened ∧
    (heardPeer step true p).sent = p.sent := by
  by_cases h : p.st = 4 <;> simp [heardPeer, h]

theorem sent_raises (dev step : Nat) (s : State) : ∃ t, exec (.sent dev step) s = .next t ∧
    if (devRec s dev).isNone then t = s
    else (peerOf t dev).sent = some (match (peerOf s dev).sent with | some x => max x step | none => step) ∧
      (peerOf t dev).opened = (peerOf s dev).opened ∧ (peerOf t dev).st = (if (peerOf s dev).st = 4 then 4 else 1) ∧
      ∀ d, d ≠ dev → peerOf t d = peerOf s d := by
  refine ⟨_, rfl, ?_⟩
  split
  · next hdev => exact applyStep_undefined step false hdev
  · next hdev =>
    obtain ⟨hsent, hopened⟩ := heardPeer_sent step (peerOf s dev)
    rw [applyStep_defined step false hdev, peerOf_setPeer _ (Bool.eq_false_of_not_eq_true hdev), ← heldStep_eq]
    exact ⟨hsent, hopened, heardPeer_st .., fun d hd => peerOf_setPeer_ne s dev d _ hd⟩

theorem openTok_raises (dev step : Nat) (s : State) : ∃ t, exec (.openTok dev step) s = .next t ∧
    if (devRec s dev).isNone then t = s
    else (peerOf t dev).opened = some (match (peerOf s dev).opened with | some x => max x step | none => step) ∧
      (peerOf t dev).sent = (peerOf s dev).sent ∧ (peerOf t dev).st = (if (peerOf s dev).st = 4 then 4 else 1) ∧
      ∀ d, d ≠ dev → peerOf t d = peerOf s d := by
  refine ⟨_, rfl, ?_⟩
  split
  · next hdev => exact applyStep_undefined step true hdev
  · next hdev =>
    obtain ⟨hopened, hsent⟩ := heardPeer_opened step (peerOf s dev)
    rw [applyStep_defined step true hdev, peerOf_setPeer _ (Bool.eq_false_of_not_eq_true hdev), ← heldStep_eq]
    exact ⟨hopened, hsent, heardPeer_st .., fun d hd => peerOf_setPeer_ne s dev d _ hd⟩

/-! TOPO and ALIAS (R377). -/

/-- A TOPO's change count held. -/
def topoCounted (s : State) (orig count : Nat) : State := s.onRings fun g => { g with topoCnt := put g.topoCnt orig count }

/-- What a TOPO that is applied does. -/
def topoApplied (s : State) (dev aux : Nat) : State :=
  if aux = 0 then (if (peerOf s dev).st = peerAliased then s else setPeer s dev fun p => { p with st := peerAbsent })
  else if aux = 1 then (if (peerOf s dev).st = peerAliased then s else setPeer s dev fun p => { p with st := peerLive })
  else if aux < 4 then s.onRings fun g => { g with broken := ins g.broken (2 * dev + (aux - 2)) }
  else s.onRings fun g => { g with broken := g.broken.erase (2 * dev + (aux - 4)) }

theorem applyTopo_discards {s : State} {dev aux orig count : Nat}
    (h : 5 < aux ∨ (devRec s dev).isNone = true ∨ count ≤ look0 s.rings.topoCnt orig) : applyTopo s dev aux orig count = s := by
  unfold applyTopo
  by_cases h1 : (decide (5 < aux) || (devRec s dev).isNone) = true
  · exact if_pos h1
  · have hcount : count ≤ look0 s.rings.topoCnt orig := by
      simp only [Bool.or_eq_true, decide_eq_true_eq] at h1
      tauto
    exact (if_neg h1).trans (if_pos hcount)

theorem applyTopo_applies {s : State} {dev aux orig count : Nat}
    (h : ¬(5 < aux ∨ (devRec s dev).isNone = true ∨ count ≤ look0 s.rings.topoCnt orig)) :
    applyTopo s dev aux orig count = topoApplied (topoCounted s orig count) dev aux := by
  obtain ⟨haux, hdev, hcount⟩ : ¬5 < aux ∧ ¬(devRec s dev).isNone = true ∧ ¬count ≤ look0 s.rings.topoCnt orig := by tauto
  exact (if_neg (by simp [haux, hdev])).trans (if_neg hcount)

theorem topoApplied_counts (s : State) (dev aux : Nat) : (topoApplied s dev aux).rings.topoCnt = s.rings.topoCnt := by
  unfold topoApplied
  repeat' split
  all_goals rfl

/-- A device that a TOPO makes ABSENT or LIVE, unless it is ALIASED. -/
theorem topoApplied_device {s : State} {dev aux : Nat} (hdev : (devRec s dev).isNone = false) (h : aux ≤ 1) :
    (peerOf (topoApplied s dev aux) dev).st = (if (peerOf s dev).st = 4 then 4 else if aux = 0 then 3 else 1) ∧
    (topoApplied s dev aux).rings.broken = s.rings.broken := by
  unfold topoApplied
  by_cases h0 : aux = 0
  · rw [if_pos h0, if_pos h0]
    split
    · next hal => exact ⟨hal, rfl⟩
    · exact ⟨by rw [peerOf_setPeer _ hdev], rfl⟩
  · rw [if_neg h0, if_neg h0, if_pos (by omega)]
    split
    · next hal => exact ⟨hal, rfl⟩
    · exact ⟨by rw [peerOf_setPeer _ hdev], rfl⟩

theorem topoApplied_breaks {dev aux : Nat} (s : State) (h : aux = 2 ∨ aux = 3) :
    topoApplied s dev aux = s.onRings fun g => { g with broken := ins g.broken (2 * dev + (aux - 2)) } :=
  (if_neg (by omega)).trans ((if_neg (by omega)).trans (if_pos (by omega)))

theorem topoApplied_mends {dev aux : Nat} (s : State) (h : 4 ≤ aux) :
    topoApplied s dev aux = s.onRings fun g => { g with broken := g.broken.erase (2 * dev + (aux - 4)) } :=
  (if_neg (by omega)).trans ((if_neg (by omega)).trans (if_neg (by omega)))

theorem topo_applies (dev aux orig count : Nat) (s : State) : ∃ t, exec (.topo dev aux orig count) s = .next t ∧
    if 5 < aux ∨ (devRec s dev).isNone = true ∨ count ≤ look0 s.rings.topoCnt orig then t = s
    else look0 t.rings.topoCnt orig = count ∧
      (aux ≤ 1 → (peerOf t dev).st = (if (peerOf s dev).st = 4 then 4 else if aux = 0 then 3 else 1) ∧ t.rings.broken = s.rings.broken) ∧
      (aux = 2 ∨ aux = 3 → 2 * dev + (aux - 2) ∈ t.rings.broken ∧ t.rings.peers = s.rings.peers) ∧
      (4 ≤ aux → t.rings.broken = s.rings.broken.erase (2 * dev + (aux - 4)) ∧ t.rings.peers = s.rings.peers) := by
  refine ⟨_, rfl, ?_⟩
  split
  · next hno => exact applyTopo_discards hno
  · next hyes =>
    have hdev : (devRec s dev).isNone = false := Bool.eq_false_of_not_eq_true fun h => hyes (.inr (.inl h))
    rw [applyTopo_applies hyes, topoApplied_counts]
    refine ⟨look0_put_self .., fun h => topoApplied_device (s := topoCounted s orig count) hdev h, fun h => ?_, fun h => ?_⟩
    · rw [topoApplied_breaks _ h]
      exact ⟨ins_self .., rfl⟩
    · rw [topoApplied_mends _ h]
      exact ⟨rfl, rfl⟩

theorem aliasTok_applies (dev target : Nat) (s : State) : ∃ t, exec (.aliasTok dev target) s = .next t ∧
    if (devRec s dev).isNone then t = s
    else if target = dev then (peerOf t dev).st = (if (peerOf s dev).st = 4 then 1 else (peerOf s dev).st)
    else if mapTwin s dev = some target then (peerOf t dev).st = 4 ∧ (peerOf t dev).target = target
    else t = s := by
  refine ⟨_, rfl, ?_⟩
  unfold applyAlias
  split
  · rfl
  · next hdev =>
    have hdef : (devRec s dev).isNone = false := Bool.eq_false_of_not_eq_true hdev
    split
    · split
      · rw [peerOf_setPeer _ hdef]
      · rfl
    · split
      · rw [peerOf_setPeer _ hdef]
        exact ⟨rfl, rfl⟩
      · rfl

/-! TOKEN_IN (R379). -/

theorem applyToken_other {s : State} {tok : Token} (h : 3 < tok.kind) : applyToken s tok = s := by
  obtain ⟨n, hn⟩ : ∃ n, tok.kind = n + 4 := ⟨tok.kind - 4, by omega⟩
  unfold applyToken
  rw [hn]
  rfl

/-- A token at CMD has the effect of the command of its kind. -/
theorem tokenIn_cmd (tok : Token) (s : State) : (tok.kind = 0 → exec (.tokenIn 0 tok) s = exec (.sent tok.dev tok.step) s) ∧
    (tok.kind = 1 → exec (.tokenIn 0 tok) s = exec (.openTok tok.dev tok.step) s) ∧
    (tok.kind = 2 → exec (.tokenIn 0 tok) s = exec (.topo tok.dev tok.aux tok.orig tok.step) s) ∧
    (tok.kind = 3 → exec (.tokenIn 0 tok) s = exec (.aliasTok tok.dev tok.aux) s) ∧
    (3 < tok.kind → exec (.tokenIn 0 tok) s = .next s) := by
  have hx : exec (.tokenIn 0 tok) s = .next (applyToken s tok) := rfl
  rw [hx]
  refine ⟨fun h => ?_, fun h => ?_, fun h => ?_, fun h => ?_, fun h => congrArg Host.Outcome.next (applyToken_other h)⟩
  all_goals
    unfold applyToken
    rw [h]
    rfl

theorem tokenIn_die {die : Nat} (tok : Token) (s : State) (h0 : die ≠ 0) :
    (isRing die = false ∨ dieUp s die = false → exec (.tokenIn die tok) s = .next s) ∧
    (isRing die = true → dieUp s die = true → exec (.tokenIn die tok) s =
      exec (.tokenIn 0 tok) (if goesOn s die tok then s.onRings fun g => { g with floods := g.floods ++ [tok] } else s)) :=
  ⟨fun h => congrArg Host.Outcome.next ((if_neg h0).trans (if_neg (by rcases h with h | h <;> simp [h]))),
    fun hring hup => congrArg Host.Outcome.next ((if_neg h0).trans (if_pos (by simp [hring, hup])))⟩

/-! SEND_SENT, SEND_OPEN and TOKEN_WAIT (R380, R381). -/

theorem sendSent_floods (s : State) : ∃ t, exec .sendSent s = .next t ∧
    match nextSent s with
    | none => t = s
    | some n =>
      if remoteDone s n = true ∧ s.rings.map_ ≠ [] then t.rings.sentUpTo = some n ∧ t.rings.floods = s.rings.floods ++
        ((devices s).filter fun d => d == selfDev s || ((peerOf s d).st == 4 && (peerOf s d).target == selfDev s)).map
          fun d => { kind := 0, dev := d, aux := 0, step := n, orig := selfDev s }
      else t = s := by
  refine ⟨_, rfl, ?_⟩
  cases hn : nextSent s with
  | none => rfl
  | some n =>
    dsimp only
    split
    · next h =>
      rw [if_pos (by simpa using h)]
      exact ⟨rfl, floodStep_is s n false⟩
    · next h => exact if_neg (by simpa using h)

theorem sendOpen_floods (s : State) : ∃ t, exec .sendOpen s = .next t ∧
    match nextOpen s with
    | none => t = s
    | some n =>
      if sealedUpTo s n = true ∧ s.img.staged = none then t.rings.openUpTo = some (n + 1) ∧ t.rings.floods = s.rings.floods ++
        ((devices s).filter fun d => d == selfDev s || ((peerOf s d).st == 4 && (peerOf s d).target == selfDev s)).map
          fun d => { kind := 1, dev := d, aux := 0, step := n + 1, orig := selfDev s }
      else t = s := by
  refine ⟨_, rfl, ?_⟩
  cases hn : nextOpen s with
  | none => rfl
  | some n =>
    dsimp only
    split
    · next h =>
      rw [if_pos (by simpa using h)]
      exact ⟨rfl, floodStep_is s (n + 1) true⟩
    · next h => exact if_neg (by simpa using h)

theorem exec_tokenWaitExpiry (s : State) : exec .tokenWaitExpiry s = .next
    (if s.seq.phase = 1 ∧ s.seq.progs.all (fun p => p.2.st == 2) = true ∧ sealGateOpen s = false then silence s s.seq.step false
    else if s.seq.run.isSome = true ∧ s.seq.phase = 0 ∧ openHeld s s.seq.step = false then silence s s.seq.step true
    else s) :=
  congrArg Host.Outcome.next (if_congr (by simp [and_assoc]) rfl (if_congr (by simp [and_assoc]) rfl rfl))

theorem tokenWaitExpiry_silences (s : State) : ∃ t, exec .tokenWaitExpiry s = .next t ∧
    let atSeal := s.seq.phase = 1 ∧ s.seq.progs.all (fun p => p.2.st == 2) = true ∧ sealGateOpen s = false
    let atStart := s.seq.run.isSome = true ∧ s.seq.phase = 0 ∧ openHeld s s.seq.step = false
    if atSeal then 2 * s.seq.step ∈ t.rings.passed ∧ ∀ d ∈ missing s s.seq.step false, (peerOf s d).st = 1 → (peerOf t d).st = 2
    else if atStart then 2 * s.seq.step + 1 ∈ t.rings.passed ∧ ∀ d ∈ missing s s.seq.step true, (peerOf s d).st = 1 → (peerOf t d).st = 2
    else t = s := by
  refine ⟨_, exec_tokenWaitExpiry s, ?_⟩
  intro atSeal atStart
  by_cases hseal : atSeal
  · rw [if_pos hseal, if_pos hseal]
    exact silence_is s s.seq.step false
  rw [if_neg hseal, if_neg hseal]
  by_cases hstart : atStart
  · rw [if_pos hstart, if_pos hstart]
    exact silence_is s s.seq.step true
  · rw [if_neg hstart, if_neg hstart]

/-- Settles O40: each token by its kind, where it arrives, and the tokens of this package's own steps. -/
theorem tokensAndSteps : Obligations.TokensAndSteps :=
  ⟨sent_raises, openTok_raises, topo_applies, aliasTok_applies, tokenIn_cmd, fun _ => tokenIn_die, sendSent_floods, sendOpen_floods,
    tokenWaitExpiry_silences⟩

end Sys2Proof.Machine
end

section
/-!
PROOFS. RG_PUT, RG_GET and the timeout of a remote request (R370, R378, R383, R384).
-/

namespace Sys2Proof.Machine

open Sys2Proof

/-! What a link die's store depends on. -/

/-- What leaves a link die, and what waits there, depends on the rings alone. -/
theorem sentOrKept_congr {a b : State} (e : a.rings = b.rings) (link dev x : Nat) (f : Flit) :
    sentOrKept a link dev x f = sentOrKept b link dev x f := by
  have hself : selfDev a = selfDev b := by unfold selfDev ringHeader; rw [e]
  have hre : reforming a link = reforming b link := by unfold reforming rport; rw [e]
  have hleave (g : RingFrame) : mayLeave a link g = mayLeave b link g := by
    unfold mayLeave vlOut crosses rportUp rport devPos devRec selfDev ringLen ringHeader
    rw [e]
  have hset (l : List RingFrame) : (setEgress a link l).rings = (setEgress b link l).rings := by
    simp only [setEgress, State.onRings_rings, e]
  unfold sentOrKept
  rw [hself, hre, sentTo_congr e]
  simp only [hleave, hset, transmit_rings (hset [])]

theorem freeTag_lt (s : State) (d : Nat) : ∀ n t, freeTag s d n t < 65536 := by
  intro n
  induction n with
  | zero => exact fun t => Nat.mod_lt _ (by decide)
  | succ n ih =>
    intro t
    unfold freeTag
    split
    · exact ih _
    · exact Nat.mod_lt _ (by decide)

theorem newTag_lt (s : State) (d : Nat) : newTag s d < 65536 := freeTag_lt ..

/-- An answer of a link die is no room for what is left to send. -/
theorem reqWait_ne_moreKey {link tag : Nat} (h : Hdr) (hring : isRing link = true) (htag : tag < 65536) : reqWait link tag ≠ moreKey h := by
  have hlink : 34 ≤ link ∧ link < 38 := by simpa [isRing] using hring
  unfold reqWait moreKey
  omega

/-! A command that waits for one more answer. -/

/-- The descriptor waits under h, and every entry of it waits for k. -/
def WaitsFor (s : State) (h : Hdr) (k : Nat) : Prop :=
  (∃ w ∈ s.qm.waiting, sameDesc w.hdr h = true ∧ k ∈ w.tags) ∧ ∀ w ∈ s.qm.waiting, sameDesc w.hdr h = true → k ∈ w.tags

theorem addWait_waits {s : State} {h : Hdr} (k : Nat) (hw : ∃ w ∈ s.qm.waiting, sameDesc w.hdr h = true) : WaitsFor (addWait s h k) h k := by
  have hall : ∀ w ∈ (addWait s h k).qm.waiting, sameDesc w.hdr h = true → k ∈ w.tags := by
    intro w hmem hsame
    obtain ⟨v, hv, rfl⟩ := List.mem_map.mp hmem
    by_cases hdesc : sameDesc v.hdr h = true
    · rw [if_pos hdesc]
      exact List.mem_append_right _ (List.mem_singleton_self k)
    · rw [if_neg hdesc] at hsame
      exact absurd hsame hdesc
  obtain ⟨w, hmem, hsame⟩ := hw
  refine ⟨⟨{ w with tags := w.tags ++ [k] }, List.mem_map.mpr ⟨w, hmem, if_pos hsame⟩, hsame,
    List.mem_append_right _ (List.mem_singleton_self k)⟩, hall⟩

theorem endAdds_waits {s : State} {h : Hdr} {k : Nat} (st : Nat) (hk : k ≠ moreKey h) (hw : WaitsFor s h k) :
    ∃ w ∈ (endAdds s h st).qm.waiting, sameDesc w.hdr h = true ∧ k ∈ w.tags :=
  answered_keeps (s := s.onMu fun m => { m with gatherPos := del m.gatherPos (descKey h) }) hk hw.2 hw.1

/-! The one request of a transfer of at most 192 bytes. -/

/-- The request of a short transfer. -/
def ringReq (s : State) (h : Hdr) (o : RingOp) (put_ : Bool) (link : Nat) : OutReq :=
  { die := link, tag := newTag s link, dst := link, kind := if put_ then rkPut else rkGet, resv := 1, flits := 1, remote := true, queue := h.queue,
    index := h.index, key := some (descKey h), landDa := o.dstDa, len := o.len, dev := o.dev, step := h.stamp }

/-- The DA that a transfer names at the device. -/
def remoteDa (o : RingOp) (put_ : Bool) : Nat := if put_ then o.dstDa else o.srcDa

/-- The bytes that a transfer takes with it. -/
def ringBytes (s : State) (o : RingOp) (put_ : Bool) : List Byte := if put_ then viewBytes s o.srcDa o.len else []

/-- The flit of a short transfer. -/
def ringFlit (s : State) (h : Hdr) (o : RingOp) (put_ : Bool) (link : Nat) : Flit :=
  { op := if put_ then 0x02 else 0x01, tc := if put_ then 3 else 2, dst := link, src := link, panel := (panelOfQueue s h.queue).getD 0,
    tag := newTag s link, da := remoteDa o put_, plen := (ringBytes s o put_).length, oparg := if put_ then 0 else o.len,
    payload := ringBytes s o put_ }

/-- What sending the request does to Gauze, memory and the rings. -/
theorem requestRemote_one {s : State} {h : Hdr} {o : RingOp} {put_ : Bool} {link : Nat} (hroute : routeDie (ringRoute s o.dev) = some link)
    (hgone : remoteGone s o.dev = false) (hempty : egressOf s link = []) :
    let t := requestRemote s (ringReq s h o put_ link) (ringFlit s h o put_ link) (dieOfAddr (remoteDa o put_))
    t.gz.out = s.gz.out ++ [ringReq s h o put_ link] ∧ t.mem = s.mem ∧ t.qm = s.qm ∧
    t.rings = sentOrKept s link o.dev (dieOfAddr (remoteDa o put_)) (ringFlit s h o put_ link) := by
  intro t
  obtain ⟨u, hu⟩ : ∃ u, openReq s (ringReq s h o put_ link) = u := ⟨_, rfl⟩
  have hrings : u.rings = s.rings := by rw [← hu]; rfl
  have htc : (ringFlit s h o put_ link).tc = 2 ∨ (ringFlit s h o put_ link).tc = 3 := by cases put_ <;> simp [ringFlit]
  have ht : t = sendRemote u link o.dev (dieOfAddr (remoteDa o put_)) (ringFlit s h o put_ link) := by
    show requestRemote .. = _
    unfold requestRemote
    rw [hu, show (ringReq s h o put_ link).dev = o.dev from rfl]
    dsimp only
    rw [ringRoute_congr hrings, hroute]
    exact if_pos rfl
  obtain ⟨hframe, hsent⟩ := sendRemote_is (s := u) (link := link) (dev := o.dev) (x := dieOfAddr (remoteDa o put_)) htc
    (by rw [ringRoute_congr hrings]; exact hroute) (by rw [remoteGone_congr hrings]; exact hgone)
    (by rw [egressOf, hrings]; exact hempty)
  rw [ht]
  refine ⟨?_, ?_, ?_, hsent.trans (sentOrKept_congr hrings ..)⟩
  · rw [hframe.gz rfl, ← hu]
    rfl
  · rw [hframe.mem rfl, ← hu]
    rfl
  · rw [hframe.qm rfl, ← hu]
    rfl

section
variable {s : State} {h : Hdr} {o : RingOp} {put_ : Bool} {link : Nat} (hroute : routeDie (ringRoute s o.dev) = some link)
  (hpos : 0 < o.len) (hlen : o.len ≤ 192) (hmem : put_ = true → o.streamMode = false) (hroom : reqRoom s (ringReq s h o put_ link) = true)
include hroute hpos hlen hmem hroom

theorem sendRing_one : sendRing s h o put_ 0 =
    some (addWait (requestRemote s (ringReq s h o put_ link) (ringFlit s h o put_ link) (dieOfAddr (remoteDa o put_))) h
      (reqWait link (newTag s link))) := by
  have hlink : linkOf s o.dev = link := by rw [linkOf, hroute]; rfl
  have hn : min ringUnit (o.len - 0 * ringUnit) = o.len := by unfold ringUnit; omega
  have hfits : reqRoom s { ringReq s h o put_ link with landDa := 0 } = true := hroom
  unfold sendRing
  rw [hlink, hn]
  refine (if_neg ?_).trans ?_
  · simpa [ringReq] using hfits
  cases put_
  · simp [ringTarget, ringReq, ringFlit, remoteDa, ringBytes]
  · simp [ringTarget, hmem, ringReq, ringFlit, remoteDa, ringBytes]

/-- R383: one request goes, and the command waits for its answer. -/
theorem sendRings_one (hgone : remoteGone s o.dev = false) (hempty : egressOf s link = [])
    (hwaits : ∃ w ∈ s.qm.waiting, sameDesc w.hdr h = true) :
    let t := sendRings s h o put_ (ringReqs o) 0
    t.gz.out = s.gz.out ++ [ringReq s h o put_ link] ∧ t.mem = s.mem ∧
    (∃ w ∈ t.qm.waiting, sameDesc w.hdr h = true ∧ reqWait link (newTag s link) ∈ w.tags) ∧
    t.rings = sentOrKept s link o.dev (dieOfAddr (remoteDa o put_)) (ringFlit s h o put_ link) := by
  obtain ⟨hout, hmem', hqm, hrings⟩ := requestRemote_one (h := h) (put_ := put_) hroute hgone hempty
  obtain ⟨u, hu⟩ : ∃ u, requestRemote s (ringReq s h o put_ link) (ringFlit s h o put_ link) (dieOfAddr (remoteDa o put_)) = u := ⟨_, rfl⟩
  rw [hu] at hout hmem' hqm hrings
  have hrun : sendRings s h o put_ (ringReqs o) 0 = endAdds (addWait u h (reqWait link (newTag s link))) h stDone := by
    rw [reqs_one hpos hlen, ← hu]
    unfold sendRings
    rw [if_neg (by rw [reqs_one hpos hlen]; decide), hgone, sendRing_one hroute hpos hlen hmem hroom]
    rfl
  rw [hrun]
  have hframe := endAdds_frame (addWait u h (reqWait link (newTag s link))) h stDone
  refine ⟨?_, ?_, endAdds_waits stDone (reqWait_ne_moreKey h (routeDie_ring hroute).1 (newTag_lt ..)) (addWait_waits _ (hqm ▸ hwaits)), ?_⟩
  · rw [hframe.gz rfl]
    exact hout
  · rw [hframe.mem rfl]
    exact hmem'
  · rw [hframe.rings rfl]
    exact hrings

end

/-! RG_PUT and RG_GET (R383). -/

theorem exec_rgPut_runs {h : Hdr} {op : RingOp} {s : State} (hs : canStart s h = true) (hnew : look s.mu.gatherPos (descKey h) = none) :
    exec (.rgPut h op) s = .next (runRing s h op true (targetUnit s (.rgPut h op))) := by
  refine congrArg Host.Outcome.next ?_
  rw [hnew]
  exact runDesc_start _ hs

theorem exec_rgGet_runs {h : Hdr} {op : RingOp} {s : State} (hs : canStart s h = true) (hnew : look s.mu.gatherPos (descKey h) = none) :
    exec (.rgGet h op) s = .next (runRing s h op false (targetUnit s (.rgGet h op))) := by
  refine congrArg Host.Outcome.next ?_
  rw [hnew]
  exact runDesc_start _ hs

theorem runRing_refused {s : State} {h : Hdr} {o : RingOp} {put_ : Bool} {st : Nat} (u : UnitId) (hno : ringRefusal s h o put_ = some st) :
    Ends s (runRing s h o put_ u) h u st ∧ (runRing s h o put_ u).gz = s.gz := by
  unfold runRing
  rw [hno]
  exact ends_lost s h u st o.dev

/-- A put whose source has lost data. -/
theorem runRing_lost {s : State} {h : Hdr} {o : RingOp} (u : UnitId) (hok : ringRefusal s h o true = none)
    (hlost : (checkRead s o.srcDa o.len).1 = true) :
    Ends s (runRing s h o true u) h u stEcc ∧ (runRing s h o true u).gz = s.gz := by
  have hrun : runRing s h o true u = complete (checkRead s o.srcDa o.len).2 h u stEcc := by
    unfold runRing
    rw [hok]
    exact if_pos hlost
  rw [hrun]
  exact ⟨ends_complete h u stEcc ((checkRead_frame s o.srcDa o.len).qm rfl), checkRead_gz s o.srcDa o.len⟩

/-- A ring operation that waits for its answers, before it sends. -/
def ringWaiting (s : State) (h : Hdr) (u : UnitId) : State := waitFor s { hdr := h, unit := u, tags := [moreKey h], status := 0 }

theorem runRing_put {s : State} {h : Hdr} {o : RingOp} (u : UnitId) (hok : ringRefusal s h o true = none)
    (hread : (checkRead s o.srcDa o.len).1 = false) :
    runRing s h o true u = sendRings (ringWaiting (checkRead s o.srcDa o.len).2 h u) h o true (ringReqs o) 0 := by
  unfold runRing
  rw [hok]
  exact if_neg (Bool.eq_false_iff.mp hread)

theorem runRing_get {s : State} {h : Hdr} {o : RingOp} (u : UnitId) (hok : ringRefusal s h o false = none) :
    runRing s h o false u = sendRings (ringWaiting s h u) h o false (ringReqs o) 0 := by
  unfold runRing
  rw [hok]
  rfl

/-- What the request of an operation depends on. -/
theorem ringReq_congr {a b : State} (e : a.gz = b.gz) (h : Hdr) (o : RingOp) (put_ : Bool) (link : Nat) :
    ringReq a h o put_ link = ringReq b h o put_ link := by
  unfold ringReq
  rw [newTag_congr e]

/-- A short transfer sent from a state c that its source's read has left. -/
theorem ringWaiting_sends {s c : State} {h : Hdr} {o : RingOp} {put_ : Bool} {link : Nat} (u : UnitId)
    (hc : Same { regs := true, mu := true, sounds := true, seqNo := true } s c) (hroute : routeDie (ringRoute s o.dev) = some link)
    (hok : ringRefusal s h o put_ = none) (hlen : o.len ≤ 192) (hmem : put_ = true → o.streamMode = false)
    (hempty : egressOf s link = []) (hroom : reqRoom s (ringReq s h o put_ link) = true) :
    let t := sendRings (ringWaiting c h u) h o put_ (ringReqs o) 0
    t.gz.out = s.gz.out ++ [ringReq s h o put_ link] ∧ t.mem = c.mem ∧
    (∃ w ∈ t.qm.waiting, sameDesc w.hdr h = true ∧ reqWait link (newTag s link) ∈ w.tags) ∧
    t.rings = sentOrKept s link o.dev (dieOfAddr (remoteDa o put_)) (ringFlit (ringWaiting c h u) h o put_ link) := by
  obtain ⟨hgone, hpos⟩ := refusal_gone hok
  have hgz : (ringWaiting c h u).gz = s.gz := hc.gz rfl
  have hrings : (ringWaiting c h u).rings = s.rings := hc.rings rfl
  have hsent := sendRings_one (s := ringWaiting c h u) (h := h) (put_ := put_) (link := link)
    (by rw [ringRoute_congr hrings]; exact hroute) hpos hlen hmem
    (by rw [reqRoom_congr hgz (hc.img rfl) hrings, ringReq_congr hgz]; exact hroom) (by rw [remoteGone_congr hrings]; exact hgone)
    (by rw [egressOf, hrings]; exact hempty)
    ⟨_, List.mem_append_right _ (List.mem_singleton_self _), sameDesc_self h⟩
  rw [hgz, ringReq_congr hgz, newTag_congr hgz, sentOrKept_congr hrings] at hsent
  exact hsent

theorem viewBytes_length (s : State) (a n : Nat) : (viewBytes s a n).length = n := by simp [viewBytes]

/-- The flit of a put, from the state its source's read has left. -/
theorem ringFlit_put {s c : State} (h : Hdr) (o : RingOp) (link : Nat) (u : UnitId)
    (hc : Same { regs := true, mu := true, sounds := true, seqNo := true } s c) :
    ringFlit (ringWaiting c h u) h o true link =
      { op := 0x02, tc := 3, dst := link, src := link, panel := (panelOfQueue s h.queue).getD 0, tag := newTag s link, da := o.dstDa,
        plen := o.len, payload := viewBytes c o.srcDa o.len } := by
  have hview : viewBytes (ringWaiting c h u) o.srcDa o.len = viewBytes c o.srcDa o.len := rfl
  have hpanel : panelOfQueue (ringWaiting c h u) h.queue = panelOfQueue s h.queue :=
    panelOfQueue_congr (congrArg Qm.queues (hc.qm rfl) :) (hc.img rfl) _
  have htag : newTag (ringWaiting c h u) link = newTag s link := newTag_congr (a := ringWaiting c h u) (hc.gz rfl) link
  simp [ringFlit, remoteDa, ringBytes, hview, hpanel, htag, viewBytes_length]

theorem ringFlit_get (s : State) (h : Hdr) (o : RingOp) (link : Nat) (u : UnitId) :
    ringFlit (ringWaiting s h u) h o false link =
      { op := 0x01, tc := 2, dst := link, src := link, panel := (panelOfQueue s h.queue).getD 0, tag := newTag s link, da := o.srcDa,
        oparg := o.len } := by
  have hpanel : panelOfQueue (ringWaiting s h u) h.queue = panelOfQueue s h.queue := panelOfQueue_congr rfl rfl _
  have htag : newTag (ringWaiting s h u) link = newTag s link := newTag_congr (a := ringWaiting s h u) (b := s) rfl link
  simp [ringFlit, remoteDa, ringBytes, hpanel, htag]

/-! REMOTE_TIMEOUT (R384). -/

theorem exec_remoteTimeout_idle {die tag : Nat} {s : State}
    (hno : (findReq s die tag).any (·.remote) = false ∨ inEgress s die tag = true) : exec (.remoteTimeout die tag) s = .next s := by
  refine congrArg Host.Outcome.next ?_
  cases hr : findReq s die tag with
  | none => rfl
  | some r =>
    rw [hr, Option.any_some] at hno
    exact if_neg (by rcases hno with h | h <;> simp [h])

theorem exec_remoteTimeout_loses {die tag : Nat} {s : State} {r : OutReq} (hr : findReq s die tag = some r) (hremote : r.remote = true)
    (hleft : inEgress s die tag = false) : exec (.remoteTimeout die tag) s =
    .next (loseRemote (setSticky (bump s r.dst 0x10038) (srcSlot2 r.dst)) r true) := by
  refine congrArg Host.Outcome.next ?_
  rw [hr]
  exact if_pos (by simp [hremote, hleft])

/-- A request lost and quarantined. -/
theorem loseRemote_is (s : State) (r : OutReq) :
    (loseRemote s r true).gz.out = s.gz.out.filter (fun x => !(x.die == r.die && x.tag == r.tag)) ∧
    r.die * 65536 + r.tag ∈ (loseRemote s r true).gz.quarantined ∧ (loseRemote s r true).sv = s.sv ∧
    (loseRemote s r true).regs = (bump s r.dst 0x10030).regs := by
  unfold loseRemote
  dsimp only
  rw [if_pos rfl]
  generalize hu : (State.onGz _ _ : State) = u
  have hframe := answered_same (key := reqWait r.die r.tag) (st := stLinkLost) (late := false)
    (Same.refl { free := true, qm := true } (bump u r.dst 0x10030)) rfl rfl
  have hbump := bump_frame u r.dst 0x10030 0
  refine ⟨?_, ?_, ?_, ?_⟩
  · rw [hframe.gz rfl, hbump.gz rfl, ← hu]
    rfl
  · rw [hframe.gz rfl, hbump.gz rfl, ← hu]
    exact ins_self _ _
  · rw [hframe.sv rfl, hbump.sv rfl, ← hu]
    rfl
  · rw [hframe.regs rfl]
    exact bump_regs_congr (by rw [← hu]; rfl)

/-- R384: a request that has left its link die is lost when it times out. -/
theorem remoteTimeout_loses {die tag : Nat} {s : State} {r : OutReq} (hr : findReq s die tag = some r) (hremote : r.remote = true)
    (hleft : inEgress s die tag = false) : ∃ t, exec (.remoteTimeout die tag) s = .next t ∧
    t.gz.out = s.gz.out.filter (fun x => !(x.die == r.die && x.tag == r.tag)) ∧
    r.die * 65536 + r.tag ∈ t.gz.quarantined ∧
    srcSlot2 r.dst ∈ t.sv.sticky ∧ t.regs = (bump (bump s r.dst 0x10038) r.dst 0x10030).regs := by
  obtain ⟨hout, hquar, hsv, hregs⟩ := loseRemote_is (setSticky (bump s r.dst 0x10038) (srcSlot2 r.dst)) r
  have hgz : (setSticky (bump s r.dst 0x10038) (srcSlot2 r.dst)).gz = s.gz :=
    ((sticky_frame ..).gz rfl).trans ((bump_frame s r.dst 0x10038 0).gz rfl)
  refine ⟨_, exec_remoteTimeout_loses hr hremote hleft, hgz ▸ hout, hquar, ?_, ?_⟩
  · rw [hsv]
    exact sticky_mem ..
  · rw [hregs]
    exact bump_regs_congr (setSticky_regs ..)

/-- Settles O39: the checks, the one request of a short transfer, and the timeout. -/
theorem ringOperations : Obligations.RingOperations := by
  refine ⟨fun h op s st hs hnew hno => ⟨_, exec_rgPut_runs hs hnew, runRing_refused _ hno⟩,
    fun h op s st hs hnew hno => ⟨_, exec_rgGet_runs hs hnew, runRing_refused _ hno⟩,
    fun h op s hs hnew hok hlost => ⟨_, exec_rgPut_runs hs hnew, runRing_lost _ hok hlost⟩,
    fun h op s link hs hnew hok hread hlen hmode hroute hempty => ?put,
    fun h op s link hs hnew hok hlen hroute hempty => ?get,
    fun _ _ _ => exec_remoteTimeout_idle, fun _ _ _ _ => remoteTimeout_loses⟩
  case put =>
    intro c r f m hroom
    have hc : Same { regs := true, mu := true, sounds := true, seqNo := true } s c := checkRead_clean (Prod.ext hread rfl)
    have hsent := ringWaiting_sends (targetUnit s (.rgPut h op)) hc hroute hok hlen (fun _ => hmode) hempty hroom
    rw [ringFlit_put h op link _ hc] at hsent
    exact ⟨_, (exec_rgPut_runs hs hnew).trans (congrArg Host.Outcome.next (runRing_put _ hok hread)), hsent⟩
  case get =>
    intro r f m hroom
    have hsent := ringWaiting_sends (targetUnit s (.rgGet h op)) (Same.refl _ s) hroute hok hlen nofun hempty hroom
    rw [ringFlit_get] at hsent
    exact ⟨_, (exec_rgGet_runs hs hnew).trans (congrArg Host.Outcome.next (runRing_get _ hok)), hsent⟩

end Sys2Proof.Machine
end

section
/-!
PROOFS. IDENT and the frames of a ring (R366 to R370, R390, R397).
-/

namespace Sys2Proof.Machine

open Sys2Proof

theorem isTwin_of_isRing {die : Nat} (h : isRing die = true) : isTwin die = false := by
  simp only [isRing, isTwin, Bool.and_eq_true, decide_eq_true_eq] at h ⊢
  simp
  omega

/-! IDENT (R368, R375, R390). -/

theorem exec_ident_idle {die : Nat} (f : IdentFrame) {s : State}
    (h : dieUp s die = false ∨ (isRing die = false ∧ isTwin die = false) ∨ (isRing die = true ∧ (rport s die).st ≠ 1)) :
    exec (.ident die f) s = .next s := by
  refine congrArg Host.Outcome.next ?_
  by_cases hup : dieUp s die = true
  · rw [if_neg (by simp [hup])]
    rcases h with h | ⟨hring, htwin⟩ | ⟨hring, hst⟩
    · exact absurd hup (by simp [h])
    · rw [hring, htwin]
      rfl
    · exact (if_pos hring).trans (if_pos (by simp [hst]))
  · exact if_pos (by simpa using hup)

/-- A port whose training ends with a peer that it does not accept. -/
def mismatched (s : State) (die : Nat) : State := setRPort s die fun p => { p with st := pMismatch, fails := 0 }

section
variable {die : Nat} {f : IdentFrame} {s : State} (hup : dieUp s die = true)
include hup

theorem exec_ident_ring (hring : isRing die = true) (hst : (rport s die).st = 1) : exec (.ident die f) s = .next
    (if ringPeerOk s die f then (if spanOk s die f = false then s else ringUpWith s die f) else mismatched s die) := by
  refine congrArg Host.Outcome.next ((if_neg (by simp [hup])).trans ((if_pos hring).trans ?_))
  have htrains : ((rport s die).st != pTraining) = false := by simp [hst]
  rw [htrains, Bool.false_or]
  by_cases hpeer : ringPeerOk s die f = true
  · rw [if_pos hpeer, hpeer]
    cases spanOk s die f <;> rfl
  · rw [if_neg hpeer, if_neg (by simp [hpeer]), if_neg hpeer]
    rfl

theorem exec_ident_twinTraining (hring : isRing die = false) (htwin : isTwin die = true) (hst : (rport s die).st = 1) :
    exec (.ident die f) s = .next
    (if twinPeerOk s f then pairIdent (rebase (twinUp s) (portUpWith s die f)) f else mismatched s die) :=
  congrArg Host.Outcome.next ((if_neg (by simp [hup])).trans ((if_neg (by simp [hring])).trans ((if_pos htwin).trans (if_pos hst))))

theorem exec_ident_twinUp (hring : isRing die = false) (htwin : isTwin die = true) (hport : rportUp s die = true) (hpeer : twinPeerOk s f = true) :
    exec (.ident die f) s = .next (pairIdent s f) := by
  have hst : ¬(rport s die).st = pTraining := fun h => by simp [rportUp, h] at hport
  exact congrArg Host.Outcome.next ((if_neg (by simp [hup])).trans ((if_neg (by simp [hring])).trans ((if_pos htwin).trans
    ((if_neg hst).trans (if_pos (by simp [hport, hpeer]))))))

end

/-- The tokens that a port's training floods change no port. -/
theorem rport_floods (l : List Nat) (aux d : Nat) : ∀ s : State, rport (l.foldl (fun s x => floodTopo s x aux) s) d = rport s d := by
  induction l with
  | nil => exact fun s => rfl
  | cons x l ih => exact fun s => (ih _).trans (rport_congr (flood_is s x aux).1 d)

/-- A ring port that comes up: a segment reported broken is reported mended. -/
theorem rport_ringUp (s : State) (die : Nat) (f : IdentFrame) :
    ∃ brk, rport (ringUpWith s die f) die = { rport (portUpWith s die f) die with brk := brk } := by
  unfold ringUpWith
  extract_lets dim u l v
  have hv : rport v die = rport u die := rport_floods l 0 die u
  split
  · exact ⟨false, by rw [rport_congr (flood_is ..).1, rport_set, hv]⟩
  · exact ⟨(rport u die).brk, by rw [hv]⟩

theorem ident_ring {die : Nat} {f : IdentFrame} {s : State} (hup : dieUp s die = true) (hring : isRing die = true) (hst : (rport s die).st = 1) :
    ∃ t, exec (.ident die f) s = .next t ∧
    if ringPeerOk s die f then
      if spanOk s die f = false then t = s
      else (rport t die).st = (if 32 ≤ f.lanes then 2 else 3) ∧ (rport t die).lanes = (if 32 ≤ f.lanes then 32 else 16) ∧
        (rport t die).peer = f.self ∧ (rport t die).peerValid = true
    else rport t die = { rport s die with st := 4, fails := 0 } := by
  refine ⟨_, exec_ident_ring hup hring hst, ?_⟩
  by_cases hpeer : ringPeerOk s die f = true
  · rw [if_pos hpeer, if_pos hpeer]
    by_cases hspan : spanOk s die f = false
    · rw [if_pos hspan, if_pos hspan]
    · rw [if_neg hspan, if_neg hspan]
      obtain ⟨brk, hport⟩ := rport_ringUp s die f
      have hlanes : portLanes die = 32 := if_neg (by simp [isTwin_of_isRing hring])
      have hcame := port_up s die f
      rw [hlanes] at hcame
      rw [hport]
      exact hcame
  · rw [if_neg hpeer, if_neg hpeer]
    exact rport_set ..

/-! The twin port (R390, R397). -/

/-- A port that changes leaves a pair that is not set up. -/
theorem portChanged_twin {s : State} (d : Nat) (f : RPort → RPort) (h : s.twin.st = 0) : (portChanged s d f).twin = s.twin := by
  have hset : (setRPort s d f).twin = s.twin := (setRPort_frame s d f).twin rfl
  unfold portChanged
  dsimp only
  split
  · unfold twinPortCheck
    rw [if_neg (by simp [hset, h])]
    exact hset
  · exact hset

theorem portUpWith_twin {s : State} (d : Nat) (f : IdentFrame) (h : s.twin.st = 0) : (portUpWith s d f).twin = s.twin := by
  unfold portUpWith
  extract_lets n full u
  have hu : u.twin = s.twin := (settleKept_same (Same.refl
    { free := true, pkg := true, regs := true, gz := true, qm := true, rings := true, sounds := true, seqNo := true } s)
    rfl rfl rfl rfl rfl rfl rfl rfl).twin rfl
  refine ((pumpLink_same (Same.refl
    { free := true, pkg := true, regs := true, gz := true, qm := true, rings := true, sounds := true, seqNo := true } _)
    rfl rfl rfl rfl rfl rfl rfl rfl).twin rfl).trans ?_
  exact (portChanged_twin d _ (by rw [hu]; exact h)).trans hu

/-- Where no pair can be set up, an IDENT leaves the pair state. -/
theorem pairIdent_unpaired {s : State} (f : IdentFrame) (h : twinSect s = []) : pairIdent s f = s := if_pos (by simp [h])

theorem ident_twinMismatch {die : Nat} {f : IdentFrame} {s : State} (hup : dieUp s die = true) (hring : isRing die = false)
    (htwin : isTwin die = true) (hst : (rport s die).st = 1) (hpeer : twinPeerOk s f = false) :
    ∃ t, exec (.ident die f) s = .next t ∧ rport t die = { rport s die with st := 4, fails := 0 } := by
  refine ⟨_, exec_ident_twinTraining hup hring htwin hst, ?_⟩
  rw [if_neg (by simp [hpeer])]
  exact rport_set ..

theorem ident_twinComesUp {die : Nat} {f : IdentFrame} {s : State} (hup : dieUp s die = true) (hring : isRing die = false)
    (htwin : isTwin die = true) (hst : (rport s die).st = 1) (hpeer : twinPeerOk s f = true) (hpair : s.twin.st = 0) (hsect : twinSect s = []) :
    ∃ t, exec (.ident die f) s = .next t ∧ (rport t die).st = (if 16 ≤ f.lanes then 2 else 3) ∧ (rport t die).peer = f.self := by
  have htw : (portUpWith s die f).twin.st = 0 := by rw [portUpWith_twin die f hpair]; exact hpair
  have himg : (portUpWith s die f).img = s.img := (portUpWith_same (Same.refl
    { free := true, pkg := true, regs := true, gz := true, qm := true, rings := true, twin := true, sounds := true, seqNo := true } s)
    rfl rfl rfl rfl rfl rfl rfl rfl rfl).img rfl
  have hrebase : rebase (twinUp s) (portUpWith s die f) = portUpWith s die f := if_neg (by simp [htw])
  have hnone : twinSect (portUpWith s die f) = [] := by
    unfold twinSect sect at hsect ⊢
    rw [himg]
    exact hsect
  have hlanes : portLanes die = 16 := if_pos htwin
  obtain ⟨hst', _, hpeer', _⟩ := port_up s die f
  refine ⟨_, exec_ident_twinTraining hup hring htwin hst, ?_⟩
  rw [if_pos hpeer, hrebase, pairIdent_unpaired f hnone]
  rw [hlanes] at hst'
  exact ⟨hst', hpeer'⟩

/-- A package that yields (R404). -/
def yielding (s : State) : State := (s.onTwin fun t => { t with st := tsYielded }).onSv fun v => { v with warmReqs := ins v.warmReqs 11 }

theorem enterYield_yields {s : State} (hnot : s.twin.st ≠ 5) (hsect : twinSect s ≠ []) (hcap : twinCapable s = true) :
    enterYield s = addCause (yielding s) causeSelvage := if_neg (by simp [hnot, hsect, hcap])

theorem addCause_frame (s : State) (c : Nat) : Same { pkg := true, rings := true } s (addCause s c) := addCause_same (Same.refl _ s) rfl rfl

/-- R404: the pair state, and the warm reset asked for. -/
theorem enterYield_is {s : State} (hnot : s.twin.st ≠ 5) (hsect : twinSect s ≠ []) (hcap : twinCapable s = true) :
    (enterYield s).twin = { s.twin with st := 5 } ∧ 11 ∈ (enterYield s).sv.warmReqs := by
  rw [enterYield_yields hnot hsect hcap, (addCause_frame ..).twin rfl, (addCause_frame ..).sv rfl]
  exact ⟨rfl, ins_self _ 11⟩

theorem pairIdent_yields {s : State} {f : IdentFrame} (hsect : twinSect s ≠ []) (hcap : twinCapable s = true)
    (hst : s.twin.st = 1 ∨ s.twin.st = 2 ∨ s.twin.st = 3) (hserves : f.pairState = 4) : pairIdent s f = enterYield s := by
  have hnot : s.twin.st ≠ 4 ∧ s.twin.st ≠ 5 ∧ s.twin.st ≠ 6 := by omega
  obtain ⟨hserving, hyielded, hreturning⟩ := hnot
  exact (if_neg (by simp [hsect, hcap])).trans ((if_neg hyielded).trans (if_pos (by simp [hserving, hreturning, hserves])))

/-! A frame without a credit (R366). -/

theorem exec_flitFrame_down {die : Nat} (f : RingFrame) {s : State} (h : (isRing die || isTwin die) = false ∨ rportUp s die = false) :
    exec (.flitFrame die f) s = .next s := congrArg Host.Outcome.next (if_pos (by rcases h with h | h <;> simp [h]))

section
variable {die : Nat} {f : RingFrame} {s : State} (hport : (isRing die || isTwin die) = true) (hup : rportUp s die = true)
include hport hup

theorem exec_flitFrame_discards
    (hno : 4 < f.tc ∨ ringCap f.tc < inputUsed (takeRet s die f.ret) die f.tc f.vl + frameLen f) :
    exec (.flitFrame die f) s = .next (badCredit (takeRet s die f.ret) die) :=
  congrArg Host.Outcome.next ((if_neg (by simp [hport, hup])).trans (if_pos (by simpa using hno)))

/-- R366: the frame counted, and the sixteenth since the last training. -/
theorem flitFrame_discards
    (hno : 4 < f.tc ∨ ringCap f.tc < inputUsed (takeRet s die f.ret) die f.tc f.vl + frameLen f) :
    ∃ t, exec (.flitFrame die f) s = .next t ∧
      if 15 ≤ (rport s die).viol then (rport t die).st = 1
      else rport t die = { rport (takeRet s die f.ret) die with viol := (rport s die).viol + 1 } ∧ t.regs = (bump s die 0x10020).regs := by
  refine ⟨_, exec_flitFrame_discards hport hup hno, ?_⟩
  obtain ⟨u, hu⟩ : ∃ u, takeRet s die f.ret = u := ⟨_, rfl⟩
  have hviol : (rport u die).viol = (rport s die).viol := by rw [← hu, rport_takeRet]
  have hregs : u.regs = s.regs := by rw [← hu]; exact (setRPort_frame ..).regs rfl
  rw [hu]
  obtain ⟨z, hz⟩ : ∃ z, setRPort (bump u die 0x10020) die (fun p => { p with viol := p.viol + 1 }) = z := ⟨_, rfl⟩
  have hzport : rport z die = { rport u die with viol := (rport s die).viol + 1 } := by
    have hbump : rport (bump u die 0x10020) die = rport u die := rport_bumpBy u die 0x10020 1 0 die
    rw [← hz, rport_set, hbump, hviol]
  have hbad : badCredit u die = if 16 ≤ (rport z die).viol then retrain z die else z := by rw [← hz]; rfl
  rw [hbad, hzport]
  by_cases h15 : 15 ≤ (rport s die).viol
  · rw [if_pos h15, if_pos (by show 16 ≤ (rport s die).viol + 1; omega), (retrain_is z die).1]
  · rw [if_neg h15, if_neg (by show ¬16 ≤ (rport s die).viol + 1; omega)]
    refine ⟨hzport, ?_⟩
    rw [← hz, (setRPort_frame ..).regs rfl]
    exact bump_regs_congr hregs

end

/-! A frame received (R363, R366, R370). -/

/-- A port at which a frame has arrived. -/
def arrivedPort (s : State) (die : Nat) (f : RingFrame) : RPort :=
  { rport (takeRet s die f.ret) die with rrecv := (f.rseq + frameLen f - 1) % 2 ^ 16, input := (rport s die).input ++ [f] }

/-- A frame in its ring input. -/
def frameIn (s : State) (die : Nat) (f : RingFrame) : State := s.onRings fun g => { g with ports := put g.ports die (arrivedPort s die f) }

theorem frameIn_eq (s : State) (die : Nat) (f : RingFrame) : setRPort (takeRet s die f.ret) die (fun p =>
    { p with rrecv := (f.rseq + frameLen f - 1) % 2 ^ 16, input := p.input ++ [f] }) = frameIn s die f := by
  unfold takeRet
  dsimp only
  rw [setRPort_plain s die, setRPort_plain]
  · unfold frameIn arrivedPort
    rw [rport_takeRet]
    simp only [rport, State.onRings, lookD_put_self, put_put]
  all_goals rfl

theorem rport_frameIn (s : State) (die : Nat) (f : RingFrame) : rport (frameIn s die f) die = arrivedPort s die f := lookD_put_self ..

theorem rport_frameIn_ne (s : State) {die d : Nat} (f : RingFrame) (h : d ≠ die) : rport (frameIn s die f) d = rport s d := lookD_put_ne _ _ _ _ _ h

theorem arrivedPort_st (s : State) (die : Nat) (f : RingFrame) : (arrivedPort s die f).st = (rport s die).st := by
  unfold arrivedPort
  rw [rport_takeRet]

/-- A frame in a ring input leaves every port in its state, and so every route. -/
theorem rportUp_frameIn (s : State) (die d : Nat) (f : RingFrame) : rportUp (frameIn s die f) d = rportUp s d := by
  unfold rportUp
  by_cases h : d = die
  · rw [h, rport_frameIn, arrivedPort_st]
  · rw [rport_frameIn_ne s f h]

theorem ringRoute_frameIn (s : State) (die dev : Nat) (f : RingFrame) : ringRoute (frameIn s die f) dev = ringRoute s dev :=
  ringRoute_ports (a := frameIn s die f) (b := s) rfl rfl rfl (fun d => rportUp_frameIn s die d f) dev

/-- A ring input whose one message has gone on. -/
theorem inputTaken {a t : State} {die : Nat} {f : RingFrame} (hin : (rport a die).input = [f]) (hsame : rport t die = rport a die) :
    (rport (setRPort t die fun p => { p with input := p.input.erase f }) die).input = [] := by
  rw [rport_set, hsame]
  show (rport a die).input.erase f = []
  rw [hin]
  exact List.erase_cons_head ..

theorem input_frameIn {s : State} {die : Nat} (f : RingFrame) (hinput : (rport s die).input = []) : (rport (frameIn s die f) die).input = [f] := by
  rw [rport_frameIn]
  show (rport s die).input ++ [f] = [f]
  rw [hinput]
  rfl

section
variable {die : Nat} {f : RingFrame} {s : State} (hport : (isRing die || isTwin die) = true) (hup : rportUp s die = true) (hclass : f.tc ≤ 4)
  (hinput : (rport s die).input = []) (hroom : frameLen f ≤ ringCap f.tc)
include hport hup hclass hinput hroom

theorem exec_flitFrame_arrives : exec (.flitFrame die f) s = .next (moveOn (frameIn s die f) die) := by
  have hused : inputUsed (takeRet s die f.ret) die f.tc f.vl = 0 := by
    unfold inputUsed
    rw [rport_takeRet, hinput]
    rfl
  refine congrArg Host.Outcome.next ((if_neg (by simp [hport, hup])).trans ((if_neg ?_).trans (congrArg (moveOn · die) (frameIn_eq s die f))))
  rw [hused]
  simp
  omega

/-- The frame is taken at once, if it can be: nothing waits before it. -/
theorem flitFrame_taken {t : State} (hempty : egressOf s die = []) (htake : takeFrame (frameIn s die f) die f = some t) :
    exec (.flitFrame die f) s = .next (setRPort t die fun p => { p with input := p.input.erase f }) := by
  have hin := input_frameIn f hinput
  have hpump : pumpLink (frameIn s die f) die = frameIn s die f := by
    have he : egressOf (frameIn s die f) die = [] := hempty
    simp [pumpLink, he, pumpFrames]
  rw [exec_flitFrame_arrives hport hup hclass hinput hroom, moveOn, hpump, drainInput, hin]
  simp [drainFrames, htake]

end

/-! A frame for another device (R366, R369). -/

theorem takeFrame_passes {s : State} {die : Nat} {f : RingFrame} (hring : isRing die = true) (hother : forSelf s f.dstDev = false) :
    takeFrame s die f = passOn s die f := (if_pos (by simp [hother])).trans (if_pos hring)

theorem passOn_lost {s : State} {die : Nat} {f : RingFrame} (hroute : routeDie (ringRoute s f.dstDev) = none) : passOn s die f = some s := by
  unfold passOn
  rw [hroute]

/-- A message on its outgoing link die. -/
def onward (die l : Nat) (f : RingFrame) : RingFrame := { f with vl := if dimOfDie l = dimOfDie die then f.vl else 0 }

theorem passOn_goes {s : State} {die l : Nat} {f : RingFrame} (hroute : routeDie (ringRoute s f.dstDev) = some l) (hempty : egressOf s l = [])
    (hlen : frameLen f ≤ 4096) : passOn s die f = some (sendFrame s l (onward die l f)) := by
  have hused : transitUsed s l = 0 := by simp [transitUsed, hempty]
  unfold passOn
  rw [hroute]
  exact if_pos (by omega)

/-- What a link die keeps of a message it sends depends on its port and on the lane it takes. -/
theorem rport_transmit_congr {a b : State} {l : Nat} {g : RingFrame} (hport : rport a l = rport b l) (hlane : vlOut a l g = vlOut b l g) :
    rport (transmit a l g) l = rport (transmit b l g) l := by
  unfold transmit
  rw [rport_set, rport_set, hport, hlane]

/-- A frame in one link die's ring input leaves what another link die does. -/
theorem linkDie_frameIn (s : State) {die l : Nat} (f g : RingFrame) (h : l ≠ die) :
    vlOut (frameIn s die f) l g = vlOut s l g ∧ reforming (frameIn s die f) l = reforming s l ∧ mayLeave (frameIn s die f) l g = mayLeave s l g := by
  have hport : rport (frameIn s die f) l = rport s l := rport_frameIn_ne s f h
  have hlane : vlOut (frameIn s die f) l g = vlOut s l g := by
    unfold vlOut crosses
    rw [hport]
    rfl
  have hre : reforming (frameIn s die f) l = reforming s l := by
    unfold reforming
    rw [hport]
  have hleave : mayLeave (frameIn s die f) l g = mayLeave s l g := by
    unfold mayLeave
    rw [hport, hlane, rportUp_frameIn]
  exact ⟨hlane, hre, hleave⟩

/-- R366: a message in transit at the link die it leaves by, and at the one it came by. -/
theorem frameIn_goes {s : State} {die l : Nat} {f : RingFrame} (hinput : (rport s die).input = []) (hsender : f.srcDev ≠ selfDev s)
    (hroute : routeDie (ringRoute s f.dstDev) = some l) (hl : l ≠ die) (hempty : egressOf s l = []) :
    let t := setRPort (sendFrame (frameIn s die f) l (onward die l f)) die fun p => { p with input := p.input.erase f }
    (rport t die).input = [] ∧
    if reforming s l = false ∧ mayLeave s l (onward die l f) = true then rport t l = rport (transmit s l (onward die l f)) l ∧ egressOf t l = []
    else egressOf t l = [onward die l f] := by
  intro t
  obtain ⟨hlane, hre, hleave⟩ := linkDie_frameIn s f (onward die l f) hl
  have hsent := transit_is (s := frameIn s die f) (link := l) (g := onward die l f) hsender (by rw [ringRoute_frameIn]; exact hroute) hempty
  rw [hre, hleave] at hsent
  have htl : rport t l = rport (sendFrame (frameIn s die f) l (onward die l f)) l := rport_set_ne _ _ _ _ hl
  have htx : egressOf t l = egressOf (sendFrame (frameIn s die f) l (onward die l f)) l := egressOf_setRPort ..
  rw [htl, htx]
  by_cases hgoes : reforming s l = false ∧ mayLeave s l (onward die l f) = true
  · rw [if_pos hgoes] at hsent ⊢
    rw [hsent]
    refine ⟨inputTaken (input_frameIn f hinput) ?_, (rport_transmit_congr (rport_frameIn_ne s f hl) hlane), ?_⟩
    · rw [hsent]
      exact rport_set_ne _ _ _ _ hl.symm
    · rw [transmit, egressOf_setRPort]
      exact lookD_put_self ..
  · rw [if_neg hgoes] at hsent ⊢
    rw [hsent]
    refine ⟨inputTaken (input_frameIn f hinput) (by rw [hsent]; rfl), lookD_put_self ..⟩

/-! A frame for this package (R370). -/

theorem takeFrame_reply {s : State} {die : Nat} {f : RingFrame} (hself : forSelf s f.dstDev = true) (hclass : f.tc ≤ 1 ∨ f.tc = 4) :
    takeFrame s die f = some (takeReply s die f) := (if_neg (by simp [hself])).trans (if_neg (by simp; omega))

/-- The request of a READ that came over a ring. -/
def readReq (s : State) (die : Nat) (f : RingFrame) : OutReq :=
  { die := die, tag := newTag s die, dst := f.rDie, kind := rkRead, resv := ceilDiv f.flit.oparg 192, flits := 1, far := inFar f.flit.da }

theorem ingressReq_read {s : State} {die : Nat} {f : RingFrame} (hop : f.flit.op = 0x01) : ingressReq s die f.rDie f.flit = readReq s die f := by
  simp [ingressReq, readReq, hop]

theorem takeFrame_read {s : State} {die : Nat} {f : RingFrame} (hring : isRing die = true) (hclass : f.tc = 2) (hown : f.dstDev = selfDev s)
    (hop : f.flit.op = 0x01) (hok : checkPanel s (some f.flit.panel) false [(f.flit.da, f.flit.oparg)] = none)
    (hroom : ingressRoom s die (readReq s die f) = true) : takeFrame s die f = some (enterGauze s die f f.rDie f.flit) := by
  have hself : forSelf s f.dstDev = true := by simp [forSelf, hown]
  have hbad : remoteBad s f.flit = none := (if_neg (by simp [hop])).trans ((if_pos hop).trans hok)
  refine (if_neg (by simp [hself])).trans ((if_pos (by simp [hclass])).trans ?_)
  unfold takeRequest
  simp only [hown, BEq.rfl, if_true, isTwin_of_isRing hring, Bool.false_and, Bool.false_eq_true, if_false, Bool.true_and, hop, hbad,
    ingressReq_read hop, hroom]
  rfl

theorem enterGauze_read {s : State} {die : Nat} {f : RingFrame} (hop : f.flit.op = 0x01) :
    (enterGauze s die f f.rDie f.flit).gz.out = s.gz.out ++ [readReq s die f] ∧
    (enterGauze s die f f.rDie f.flit).gz.flits = s.gz.flits ++
      [{ f.flit with dst := f.rDie, src := die, tag := (readReq s die f).tag, mgroup := 0, via := none, beyond := none }] ∧
    (enterGauze s die f f.rDie f.flit).rings.ingress = s.rings.ingress ++
      [{ die := die, tag := (readReq s die f).tag, srcDev := f.srcDev, srcDie := f.flit.src, srcTag := f.flit.tag }] := by
  unfold enterGauze sendOne
  dsimp only
  rw [ingressReq_read hop, if_neg (by simp [hop])]
  exact ⟨rfl, rfl, rfl⟩

theorem ident_twinYields {die : Nat} {f : IdentFrame} {s : State} (hup : dieUp s die = true) (hring : isRing die = false)
    (htwin : isTwin die = true) (hport : rportUp s die = true) (hpeer : twinPeerOk s f = true) (hsect : twinSect s ≠ [])
    (hcap : twinCapable s = true) (hst : s.twin.st = 1 ∨ s.twin.st = 2 ∨ s.twin.st = 3) (hserves : f.pairState = 4) :
    ∃ t, exec (.ident die f) s = .next t ∧ t.twin = { s.twin with st := 5 } ∧ 11 ∈ t.sv.warmReqs :=
  ⟨_, (exec_ident_twinUp hup hring htwin hport hpeer).trans (congrArg Host.Outcome.next (pairIdent_yields hsect hcap hst hserves)),
    enterYield_is (by omega) hsect hcap⟩

/-- Settles O43: an IDENT by its port and its peer, and a frame by its class, its device and what it carries. -/
theorem identAndFrames : Obligations.IdentAndFrames := by
  refine ⟨fun _ f _ => exec_ident_idle f, fun _ _ _ => ident_ring, fun _ _ _ => ident_twinMismatch, fun _ _ _ => ident_twinComesUp,
    fun _ _ _ => ident_twinYields, fun _ f _ => exec_flitFrame_down f, fun _ _ _ => flitFrame_discards,
    fun die f s hport hup hclass hinput hempty hroom => ?_⟩
  obtain ⟨t, ht⟩ := exec_next (.flitFrame die f) s
  have htaken {a : State} (htake : takeFrame (frameIn s die f) die f = some a) :
      t = setRPort a die fun p => { p with input := p.input.erase f } :=
    Host.Outcome.next.inj (ht.symm.trans (flitFrame_taken hport hup hclass hinput hroom hempty htake))
  refine ⟨t, ht, fun hring hother hroute => ?lost, fun l hring hother hsender hroute hl hstore hlen => ?transit,
    fun hanswer hself => ?answer, ?read⟩
  case lost =>
    obtain rfl := htaken ((takeFrame_passes (s := frameIn s die f) hring hother).trans
      (passOn_lost ((congrArg routeDie (ringRoute_frameIn s die f.dstDev f)).trans hroute)))
    exact ⟨(congrArg Rings.egress (setRPort_rings (frameIn s die f) die _) :), inputTaken (input_frameIn f hinput) rfl⟩
  case transit =>
    obtain rfl := htaken ((takeFrame_passes (s := frameIn s die f) hring hother).trans
      (passOn_goes ((congrArg routeDie (ringRoute_frameIn s die f.dstDev f)).trans hroute) hstore hlen))
    exact frameIn_goes hinput hsender hroute hl hstore
  case answer =>
    obtain rfl := htaken (takeFrame_reply (s := frameIn s die f) hself hanswer)
    exact ⟨(congrArg Gauze.flits ((setRPort_frame (takeReply (frameIn s die f) die f) die _).gz rfl) :), inputTaken (input_frameIn f hinput) rfl⟩
  case read =>
    intro r hring hclass hown hop hok hfits
    have htag : newTag (frameIn s die f) die = newTag s die := newTag_congr (a := frameIn s die f) (b := s) rfl die
    have hreq : readReq (frameIn s die f) die f = r := by
      unfold readReq
      rw [htag]
    obtain ⟨hout, hflits, hingress⟩ := enterGauze_read (s := frameIn s die f) (die := die) hop
    obtain rfl := htaken (takeFrame_read (s := frameIn s die f) hring hclass hown hop hok (by rw [hreq]; exact hfits))
    rw [hreq] at hout hflits hingress
    have hgz := (setRPort_frame (enterGauze (frameIn s die f) die f f.rDie f.flit) die fun p => { p with input := p.input.erase f }).gz rfl
    exact ⟨(congrArg Gauze.out hgz).trans hout, (congrArg Gauze.flits hgz).trans hflits,
      (congrArg Rings.ingress (setRPort_rings _ die _) :).trans hingress⟩

end Sys2Proof.Machine
end

section
/-!
PROOFS. The twin pair: journal records, the yield and the hand-back of a shard, and snapshots (R395 to R409).
-/

namespace Sys2Proof.Machine

open Sys2Proof

/-! Journal records (R395, R396, R398). -/

/-- A pair that takes no record, as the state code tells it. -/
theorem receiveJournal_idle {s : State} (kind : Nat) (r : JRec) (h : s.twin.st = 0 ∨ s.twin.st = 4 ∨ s.twin.st = 5) :
    receiveJournal s kind r = s := if_pos (by simpa [or_assoc] using h)

theorem journals_idle {r : JRec} {s : State} (h : twinUp s = false ∨ s.twin.st = 0 ∨ s.twin.st = 4 ∨ s.twin.st = 5) :
    exec (.journalData r) s = .next s ∧ exec (.journalBase r) s = .next s ∧ exec (.journalEnd r) s = .next s ∧
    exec (.journalBaseEnd r) s = .next s := by
  have hidle (kind : Nat) : (if twinUp s then receiveJournal s kind r else s) = s := by
    rcases h with hdown | hst
    · exact if_neg (by simp [hdown])
    · rw [receiveJournal_idle kind r hst]
      exact ite_self s
  exact ⟨congrArg Host.Outcome.next (hidle 0), congrArg Host.Outcome.next (hidle 1), congrArg Host.Outcome.next (hidle 2),
    congrArg Host.Outcome.next (hidle 3)⟩

/-- A DATA or a BASE record that comes while the twin port is up. -/
theorem exec_journalRecord {i : Instr} {r : JRec} {k : Nat} {s : State} (hi : (i = Instr.journalData r ∧ k = 0) ∨ (i = Instr.journalBase r ∧ k = 1))
    (hup : twinUp s = true) : exec i s = .next (receiveJournal s k r) := by
  rcases hi with ⟨rfl, rfl⟩ | ⟨rfl, rfl⟩ <;> exact congrArg Host.Outcome.next (if_pos hup)

/-- The pair state once a record is written into the receive log. -/
theorem storeLog_pair (s : State) (k : Nat) (r : JRec) : (storeLog s k r).twin.st = s.twin.st ∧ (storeLog s k r).twin.log = s.twin.log ∧
    (storeLog s k r).twin.baseEnds = s.twin.baseEnds := by
  obtain ⟨p, hp, _⟩ := storeLog_is s k r
  rw [hp]
  exact ⟨rfl, rfl, rfl⟩

theorem twinSect_congr {a b : State} (h : a.img = b.img) : twinSect a = twinSect b := by
  unfold twinSect sect
  rw [h]

theorem twinHeader_congr {a b : State} (h : a.img = b.img) : twinHeader a = twinHeader b := by
  unfold twinHeader
  rw [twinSect_congr h]

/-- A record in a base copy is applied at once. -/
theorem receiveJournal_based {s : State} {k : Nat} (r : JRec) (hst : s.twin.st = 1) (hk : k = 0 ∨ k = 1) :
    receiveJournal s k r = applyRecord (storeLog s k r) r := by
  have hpair : (storeLog s k r).twin.st = 1 := (storeLog_pair s k r).1.trans hst
  refine (if_neg (by simp [hst])).trans ((if_neg (by show k ≠ 3; omega)).trans (if_pos ?_))
  have hend : k ≠ 2 := by omega
  simp [hpair, hend]

/-- R395: the shadow range of the record's holding, or the count of records without one. -/
theorem applyRecord_shadow {s : State} (r : JRec) (hst : s.twin.st = 1) :
    applyRecord s r = match shadowRec s r.holding with
      | some x => writeMem s (areaDa s + fld x 3 + r.offset) ((if r.z then Config.inflate r.payload else r.payload).take (fld x 4 - r.offset))
      | none => bump s 0 0x80028 := if_neg (by simp [hst])

theorem journal_based {r : JRec} {s : State} {i : Instr} {k : Nat}
    (hi : (i = Instr.journalData r ∧ k = 0) ∨ (i = Instr.journalBase r ∧ k = 1)) (hup : twinUp s = true) (hst : s.twin.st = 1) :
    ∃ t, exec i s = .next t ∧ t.twin = (storeLog s k r).twin ∧
    match shadowRec s r.holding with
    | some x => t.mem = (writeMem (storeLog s k r) (areaDa s + fld x 3 + r.offset)
        ((if r.z then Config.inflate r.payload else r.payload).take (fld x 4 - r.offset))).mem
    | none => t.mem = (storeLog s k r).mem ∧ t.regs = (bump (storeLog s k r) 0 0x80028).regs := by
  have himg : (storeLog s k r).img = s.img := (storeLog_frame s k r).img rfl
  have hshadow : shadowRec (storeLog s k r) r.holding = shadowRec s r.holding := by
    unfold shadowRec
    rw [twinSect_congr himg]
  have harea : areaDa (storeLog s k r) = areaDa s := by
    unfold areaDa
    rw [twinHeader_congr himg]
  have happlied := applyRecord_shadow (s := storeLog s k r) r ((storeLog_pair s k r).1.trans hst)
  rw [hshadow, harea] at happlied
  refine ⟨_, (exec_journalRecord hi hup).trans (congrArg Host.Outcome.next (receiveJournal_based r hst (by omega))), record_twin .., ?_⟩
  rw [happlied]
  cases shadowRec s r.holding with
  | some x => rfl
  | none => exact ⟨(bump_frame (storeLog s k r) 0 0x80028 0).mem rfl, rfl⟩

/-- A record in the receive log, not yet applied. -/
def logged (s : State) (k : Nat) (r : JRec) : State := (storeLog s k r).onTwin fun t => { t with log := t.log ++ [(k, r)] }

theorem logged_is (s : State) (k : Nat) (r : JRec) : (logged s k r).twin = { (storeLog s k r).twin with log := s.twin.log ++ [(k, r)] } ∧
    (logged s k r).mem = (storeLog s k r).mem ∧ (logged s k r).img = s.img := by
  refine ⟨?_, rfl, (storeLog_frame s k r).img rfl⟩
  rw [← (storeLog_pair s k r).2.1]
  rfl

/-- Outside a base copy a record joins the log, and what it completes is applied. -/
theorem receiveJournal_logs {s : State} {k : Nat} (r : JRec) (hst : s.twin.st = 2 ∨ s.twin.st = 3) (hk : k ≠ 3) :
    receiveJournal s k r = relieveLog (applyReady (logged s k r) ((logged s k r).twin.log.length + 1)) := by
  have hpair : (storeLog s k r).twin.st = s.twin.st := (storeLog_pair s k r).1
  refine (if_neg (by rcases hst with h | h <;> simp [h])).trans ((if_neg hk).trans (if_neg ?_))
  rcases hst with h | h <;> simp [hpair, h]

/-- Without a record of the log whose step is complete, no step is. -/
theorem endsHeld_none {s : State} (h : ∀ x ∈ s.twin.log, endsHeld s x.2.step = false) (n : Nat) : endsHeld s n = false := by
  cases he : s.twin.log.find? fun x => x.1 == jEnd && x.2.step == n with
  | none =>
    unfold endsHeld
    rw [he]
  | some e =>
    have hstep : e.2.step = n := by
      have := List.find?_some he
      simp only [Bool.and_eq_true, beq_iff_eq] at this
      exact this.2
    rw [← hstep]
    exact h e (List.mem_of_find?_eq_some he)

theorem endsHeld_congr {a b : State} (h : a.twin.log = b.twin.log) (n : Nat) : endsHeld a n = endsHeld b n := by
  unfold endsHeld
  rw [h]

/-- A log that has room is left. -/
theorem relieveLog_room {s : State} (h : logBytes s ≤ (match twinHeader s with | some r => 2 ^ 20 * fld r 3 | none => 0)) :
    relieveLog s = s := if_pos h

/-- R395: a record of a step that is not complete joins the log, and that is all. -/
theorem journal_logged {r : JRec} {s : State} {i : Instr} {k : Nat} (hup : twinUp s = true) (hst : s.twin.st = 2 ∨ s.twin.st = 3)
    (hopen : ∀ x ∈ s.twin.log, endsHeld s x.2.step = false) (hi : (i = Instr.journalData r ∧ k = 0) ∨ (i = Instr.journalBase r ∧ k = 1))
    (hroom : logBytes (s.onTwin fun t => { t with log := t.log ++ [(k, r)] }) ≤
      (match twinHeader s with | some r => 2 ^ 20 * fld r 3 | none => 0)) :
    ∃ t, exec i s = .next t ∧ t.twin = { (storeLog s k r).twin with log := s.twin.log ++ [(k, r)] } ∧ t.mem = (storeLog s k r).mem := by
  have hk : k = 0 ∨ k = 1 := by omega
  obtain ⟨htwin, hmem, himg⟩ := logged_is s k r
  have hlog : (logged s k r).twin.log = s.twin.log ++ [(k, r)] := by rw [htwin]
  have hready : ∀ x ∈ (logged s k r).twin.log, endsHeld (logged s k r) x.2.step = false := fun x _ => by
    rw [endsHeld_congr (b := s.onTwin fun t => { t with log := t.log ++ [(k, r)] }) hlog, ends_append s k r hk]
    exact endsHeld_none hopen _
  have hbytes : logBytes (logged s k r) = logBytes (s.onTwin fun t => { t with log := t.log ++ [(k, r)] }) := by
    unfold logBytes
    rw [hlog]
    rfl
  have hfits : relieveLog (logged s k r) = logged s k r := relieveLog_room (by rw [hbytes, twinHeader_congr himg]; exact hroom)
  have hrun : receiveJournal s k r = logged s k r := by rw [receiveJournal_logs r hst (by omega), ready_none _ hready, hfits]
  exact ⟨_, (exec_journalRecord hi hup).trans (congrArg Host.Outcome.next hrun), htwin, hmem⟩

/-- R398: the end of a die's base copy. -/
theorem journalBaseEnd_notes {r : JRec} {s : State} (hup : twinUp s = true)
    (hst : s.twin.st = 1 ∨ s.twin.st = 2 ∨ s.twin.st = 3 ∨ s.twin.st = 6) :
    ∃ t, exec (.journalBaseEnd r) s = .next t ∧ t.twin = { (storeLog s 3 r).twin with baseEnds := ins s.twin.baseEnds r.muslin } ∧
      t.mem = (storeLog s 3 r).mem := by
  have hnot : s.twin.st ≠ 0 ∧ s.twin.st ≠ 4 ∧ s.twin.st ≠ 5 := by omega
  obtain ⟨hunpaired, hserving, hyielded⟩ := hnot
  refine ⟨_, congrArg Host.Outcome.next ((if_pos hup).trans ((if_neg (by simp [hunpaired, hserving, hyielded])).trans (if_pos rfl))), ?_, rfl⟩
  rw [← (storeLog_pair s 3 r).2.2]
  rfl

/-! A step that its last END completes (R395, R396). -/

/-- A step that is applied outside a base copy becomes the shadow's, and its records leave the log. -/
theorem applyShadowStep_is {s : State} (n : Nat) (hst : s.twin.st = 2 ∨ s.twin.st = 3) :
    (applyShadowStep s n).twin.shadowStep = n ∧ (applyShadowStep s n).twin.shadowSet = true ∧
    (applyShadowStep s n).twin.log = s.twin.log.filter (fun x => x.2.step != n) ∧
    (applyShadowStep s n).mem = ((stepRecords s n).foldl applyRecord s).mem := by
  have htwin : ((stepRecords s n).foldl applyRecord s).twin = s.twin := records_twin ..
  unfold applyShadowStep
  extract_lets dies u based whole v w
  have hbased : based = false := by
    show (decide (u.twin.st = tsBase) || decide (u.twin.st = tsReturning)) = false
    rw [show u.twin = s.twin from htwin]
    rcases hst with h | h <;> simp [h]
  rw [hbased]
  exact ⟨rfl, rfl, (congrArg (fun t : Twin => t.log.filter fun x => x.2.step != n) htwin :), rfl⟩

/-- What is found in a list of one value. -/
theorem find?_of_all_eq {p : Nat → Bool} {n : Nat} (hp : p n = true) : ∀ {l : List Nat}, (∀ y ∈ l, y = n) → n ∈ l → l.find? p = some n
  | [], _, h => absurd h (by simp)
  | y :: l, hall, _ => by
    rw [hall y List.mem_cons_self]
    exact List.find?_cons_of_pos hp

/-- A log in which one step alone stands, and is complete, is applied and empty. -/
theorem applyReady_only {s : State} {n m : Nat} (hst : s.twin.st = 2 ∨ s.twin.st = 3) (hheld : endsHeld s n = true)
    (hall : ∀ x ∈ s.twin.log, x.2.step = n) (hend : ∃ x ∈ s.twin.log, x.1 = jEnd) :
    applyReady s (m + 1) = applyShadowStep s n ∧ (applyShadowStep s n).twin.log = [] := by
  have hempty : (applyShadowStep s n).twin.log = [] := by
    rw [(applyShadowStep_is n hst).2.2.1, List.filter_eq_nil_iff]
    intro x hx
    simp [hall x hx]
  have hfind : ((s.twin.log.filter fun x => x.1 == jEnd).map (·.2.step)).find? (endsHeld s) = some n := by
    refine find?_of_all_eq hheld (fun y hy => ?_) ?_
    · obtain ⟨x, hx, rfl⟩ := List.mem_map.mp hy
      exact hall x (List.mem_filter.mp hx).1
    · obtain ⟨x, hx, hkind⟩ := hend
      exact List.mem_map.mpr ⟨x, List.mem_filter.mpr ⟨hx, by simp [hkind]⟩, hall x hx⟩
  refine ⟨?_, hempty⟩
  unfold applyReady
  rw [hfind]
  exact ready_none _ (by rw [hempty]; nofun) m

theorem exec_journalEnd {r : JRec} {s : State} (hup : twinUp s = true) : exec (.journalEnd r) s = .next (receiveJournal s 2 r) :=
  congrArg Host.Outcome.next (if_pos hup)

theorem relieveLog_empty {s : State} (h : s.twin.log = []) : relieveLog s = s := relieveLog_room (by simp [logBytes, h])

theorem journalEnd_completes {r : JRec} {s : State} (hup : twinUp s = true) (hst : s.twin.st = 2 ∨ s.twin.st = 3)
    (hall : ∀ x ∈ s.twin.log, x.2.step = r.step) (hheld : endsHeld (logged s 2 r) r.step = true) :
    ∃ t, exec (.journalEnd r) s = .next t ∧ t.twin.shadowStep = r.step ∧ t.twin.shadowSet = true ∧ t.twin.log = [] ∧
      t.mem = ((stepRecords (logged s 2 r) r.step).foldl applyRecord (logged s 2 r)).mem := by
  have hlog : (logged s 2 r).twin.log = s.twin.log ++ [(2, r)] := by rw [(logged_is s 2 r).1]
  have hpair : (logged s 2 r).twin.st = 2 ∨ (logged s 2 r).twin.st = 3 := by
    rw [show (logged s 2 r).twin.st = s.twin.st from (storeLog_pair s 2 r).1]
    exact hst
  have hsteps : ∀ x ∈ (logged s 2 r).twin.log, x.2.step = r.step := fun x hx => by
    rw [hlog] at hx
    rcases List.mem_append.mp hx with hx | hx
    · exact hall x hx
    · rw [List.mem_singleton.mp hx]
  obtain ⟨hready, hempty⟩ := applyReady_only (m := (logged s 2 r).twin.log.length) hpair hheld hsteps
    ⟨(2, r), by rw [hlog]; exact List.mem_append_right _ (List.mem_singleton_self _), rfl⟩
  obtain ⟨hshadow, hset, _, hmem⟩ := applyShadowStep_is r.step hpair
  have hrun : receiveJournal s 2 r = applyShadowStep (logged s 2 r) r.step := by
    rw [receiveJournal_logs r hst (by decide), hready, relieveLog_empty hempty]
  exact ⟨_, (exec_journalEnd hup).trans (congrArg Host.Outcome.next hrun), hshadow, hset, hempty, hmem⟩

/-! YIELD and a hand-back (R404, R405). -/

theorem exec_yield_idle {s : State} (h : s.twin.st = 4 ∨ s.twin.st = 5 ∨ twinSect s = [] ∨ twinCapable s = false) : exec .yield s = .next s := by
  refine congrArg Host.Outcome.next ?_
  by_cases hserves : s.twin.st = 4
  · exact if_pos hserves
  · refine (if_neg hserves).trans (if_pos ?_)
    rcases h with h | h | h | h
    · exact absurd h hserves
    · simp [h]
    · simp [h]
    · simp [h]

/-- R404: the pair state, the warm reset and both dimensions. -/
theorem yield_yields {s : State} (hserves : s.twin.st ≠ 4) (hnot : s.twin.st ≠ 5) (hsect : twinSect s ≠ []) (hcap : twinCapable s = true) :
    ∃ t, exec .yield s = .next t ∧ t.twin = { s.twin with st := 5 } ∧ 11 ∈ t.sv.warmReqs ∧ 3 ∈ t.rings.causes ∧
      ∀ d ∈ [34, 35, 36, 37], (lookD t.rings.ports d {}).st = 6 := by
  obtain ⟨htwin, hwarm⟩ := enterYield_is hnot hsect hcap
  obtain ⟨hports, hcause, _, _⟩ := closed_all (yielding s)
  have hyields : enterYield s = addCause (yielding s) 3 := enterYield_yields hnot hsect hcap
  refine ⟨enterYield s, congrArg Host.Outcome.next (if_neg hserves), htwin, hwarm, ?_⟩
  rw [hyields]
  exact ⟨hcause, hports⟩

theorem exec_handback_idle (step : Nat) {s : State} (h : s.twin.st ≠ 6 ∨ serves s = true) : exec (.handbackStepNumber step) s = .next s :=
  congrArg Host.Outcome.next (if_neg (by rcases h with h | h <;> simp [h]))

theorem exec_handback_takes (step : Nat) {s : State} (hst : s.twin.st = 6) (hserves : serves s = false) :
    exec (.handbackStepNumber step) s = .next (takeBack s step) := congrArg Host.Outcome.next (if_pos (by simp [hst, hserves]))

/-- R405 step 4: the pair, STEP, the cause that ends, and a run that was held. -/
theorem takeBack_is (s : State) (step : Nat) : (takeBack s step).twin.st = 1 ∧ (takeBack s step).seq.step = step ∧
    (takeBack s step).rings.causes = s.rings.causes.erase 3 ∧
    ∀ h n, s.seq.held = some (h, n) →
      (takeBack s step).seq.run = some h ∧ (takeBack s step).seq.left = n ∧ (takeBack s step).seq.held = none := by
  unfold takeBack
  extract_lets u v
  have hheld : v.seq.held = s.seq.held := rfl
  rw [hheld]
  cases s.seq.held with
  | none => exact ⟨rfl, rfl, rfl, nofun⟩
  | some x =>
    refine ⟨rfl, rfl, rfl, fun h n hx => ?_⟩
    cases hx
    exact ⟨rfl, rfl, rfl⟩

/-! Snapshots (R406 to R409). -/

section
variable {h : Hdr} {op : SnapOp} {s : State} (hs : canStart s h = true) (hnew : snapOwn s h = none)
include hs hnew

theorem exec_tnSnapshot_refused {st : Nat} (hno : snapRefusal s h op = some st) :
    exec (.tnSnapshot h op) s = .next (complete s h cmdUnit st) := by
  refine congrArg Host.Outcome.next ?_
  rw [hnew]
  refine (runDesc_start _ hs).trans ?_
  rw [hno]

theorem exec_tnSnapshot_waits (hok : snapRefusal s h op = none) (hbusy : s.snap.isSome = true ∨ s.mu.unreleased ≠ []) :
    exec (.tnSnapshot h op) s = .next s := by
  refine congrArg Host.Outcome.next ?_
  rw [hnew]
  refine (runDesc_start _ hs).trans ?_
  rw [hok]
  exact if_pos (by simpa using hbusy)

theorem exec_tnSnapshot_runs (hok : snapRefusal s h op = none) (hfree : s.snap = none) (hclosed : s.mu.unreleased = []) :
    exec (.tnSnapshot h op) s = .next (runSnapshot s h op) := by
  refine congrArg Host.Outcome.next ?_
  rw [hnew]
  refine (runDesc_start _ hs).trans ?_
  rw [hok]
  exact if_neg (by simp [hfree, hclosed])

end

theorem runSnapshot_memory {h : Hdr} {op : SnapOp} {s : State} (hdest : op.dest = 0) (hlocal : h.system = false) :
    runSnapshot s h op = complete (writeMem (snapStream s h op).st op.dstDa ((snapStream s h op).out.take op.dstLen)) h cmdUnit
      (snapStatus (snapStream s h op) op) := by
  unfold runSnapshot
  dsimp only
  rw [if_pos hdest, if_neg (by omega)]
  exact finish_local _ _ hlocal

/-- Forming a stream and writing it leave the queue manager. -/
theorem snapshotWritten_qm (s : State) (h : Hdr) (op : SnapOp) (bs : List Byte) : (writeMem (snapStream s h op).st op.dstDa bs).qm = s.qm :=
  (writeMem_same (snapStream_same (Same.refl
    { free := true, mem := true, regs := true, mu := true, sv := true, i3c := true, sounds := true, seqNo := true } s)
    rfl rfl rfl rfl rfl rfl rfl rfl) rfl rfl rfl rfl rfl rfl rfl).qm rfl

/-- A snapshot into a ring of the host that has room for all of it ends at once. -/
theorem pumpSnap_ends {s : State} {x : Snap} (hx : s.snap = some x) (hdest : x.op.dest = 1) (hrel : regGet s 0 0x80038 = 0) (hnew : x.written = 0)
    (hroom : x.toWrite.length ≤ x.op.dstLen) (hlocal : x.hdr.system = false) :
    pumpSnap s = complete ((ringWrite s x.op.dstDa x.op.dstLen 0 x.toWrite).onSnap fun _ => none) x.hdr cmdUnit x.status := by
  have hused : (x.written + 2 ^ 40 - regGet s 0 0x80038) % 2 ^ 40 = 0 := by
    rw [hnew, hrel, Nat.zero_add, Nat.sub_zero, Nat.mod_self]
  have hmin : min x.toWrite.length (x.op.dstLen - 0) = x.toWrite.length := by omega
  unfold pumpSnap
  rw [hx]
  dsimp only
  rw [if_neg (by simp [hdest]), hused, hmin, hnew, List.take_length, List.drop_length]
  exact (if_pos rfl).trans (finish_local _ _ hlocal)

/-- A snapshot that goes into a ring of the host. -/
def hostSnap (s : State) (h : Hdr) (op : SnapOp) : Snap :=
  { hdr := h, op := op, step := snapStep s, written := 0, toWrite := (snapStream s h op).out, status := snapStatus (snapStream s h op) op }

theorem runSnapshot_host {h : Hdr} {op : SnapOp} {s : State} (hdest : op.dest = 1) (hlocal : h.system = false)
    (hroom : (snapStream s h op).out.length ≤ op.dstLen) :
    ∃ u : State, runSnapshot s h op = complete (u.onSnap fun _ => none) h cmdUnit (snapStatus (snapStream s h op) op) := by
  unfold runSnapshot
  dsimp only
  rw [if_neg (by omega), if_pos hdest, if_pos hdest]
  exact ⟨_, pumpSnap_ends (x := hostSnap s h op) rfl hdest (regGet_regSet ..) rfl hroom hlocal⟩

/-- Settles O42: the records by the pair's state, the yield, the hand-back, and the snapshot by its destination. -/
theorem twinPair : Obligations.TwinPair := by
  refine ⟨fun _ _ => journals_idle, fun k r s => storeLog_is s k r, fun _ _ _ _ => journal_based,
    fun _ _ hup hst hopen _ _ hi hroom => journal_logged hup hst hopen hi hroom, fun _ _ => journalBaseEnd_notes,
    fun _ _ => journalEnd_completes, fun _ => ⟨exec_yield_idle, yield_yields⟩,
    fun step s => ⟨exec_handback_idle step, fun hst hserves => ⟨_, exec_handback_takes step hst hserves, takeBack_is s step⟩⟩,
    fun h op s hs hnew => ⟨fun st hno => ⟨_, exec_tnSnapshot_refused hs hnew hno, ends_complete h cmdUnit st rfl, rfl⟩,
      exec_tnSnapshot_waits hs hnew, fun hok hfree hclosed => ?_⟩⟩
  have hx := exec_tnSnapshot_runs hs hnew hok hfree hclosed
  intro g
  refine ⟨fun hdest hlocal => ?memory, fun hdest hlocal hroom => ?host⟩
  case memory =>
    rw [runSnapshot_memory hdest hlocal] at hx
    exact ⟨_, hx, ends_complete h cmdUnit _ (snapshotWritten_qm s h op _), rfl⟩
  case host =>
    obtain ⟨u, hu⟩ := runSnapshot_host hdest hlocal hroom
    rw [hu] at hx
    exact ⟨_, hx, rfl, last_complete ..⟩

end Sys2Proof.Machine
end
